-- ==== Sys2Proof/Word.lean ====
section
/-!
DEFINITION. The word types of the DN74 model: the widths of the manual's fields (spec 00 R3, R7).
-/

namespace Sys2Proof

abbrev Byte := BitVec 8
abbrev Word := BitVec 32
abbrev DWord := BitVec 64
/-- A SHA-384 digest, 48 bytes. -/
abbrev Digest := BitVec 384
/-- A key identifier, 16 bytes (R43, R394, R404). -/
abbrev KeyId := BitVec 128
/-- Physical cluster index CL000 to CL127 (R7). -/
abbrev ClusterId := BitVec 7
/-- PCIe function and context: 0 the PF, 1 to 63 the VFs (R414). -/
abbrev FnId := BitVec 6
/-- Link index of the LINK block: 0 to 14 near, 15 to 30 far, 31 SL (R339). -/
abbrev LinkId := BitVec 5
/-- Region index RG0 to RG7 (R7). -/
abbrev RegionId := BitVec 3
/-- Partition number (R51). -/
abbrev PartId := BitVec 3
/-- Global device identifier: tray [11:4], slot [3:0] (R7). -/
abbrev DevId := BitVec 12
/-- Tray slot (R7). -/
abbrev Slot := BitVec 4
/-- Request identifier (R206). -/
abbrev ReqId := BitVec 64
/-- Queue-pair number (R291). -/
abbrev QpNum := BitVec 20

end Sys2Proof
end

