-- ==== Sys2Proof/Syntax/Types.lean ====
section
/-!
DEFINITION. The operand structures of the commands. An operand named `…Ok` or an outcome type is a fact the
environment settles (a signature verifies, a DMA completes, a granule fails): the device observes it.
In an operand structure that software or another device supplies, `resv` is the value of all its reserved
fields taken together (R5).
-/

namespace Sys2Proof

/-! ### Status codes (R9) -/

/-- The status codes of R9. -/
inductive Status where
  | ok | cancelled | deadline | stateLost | tierFault | quota | epochStale | denied | integrity
  | tableBusy | retryLater | qpError | widened | overrun | fenced | malformed | formeMismatch | degraded
deriving DecidableEq, Repr, Inhabited

/-! ### Host register accesses -/

/-- A 32-bit write of a control register: the issuing function and the value, mask in [31:16] (R436, R441). -/
structure CtlWrite where
  fn : FnId
  value : Word
deriving DecidableEq, Repr, Inhabited

/-- The shape of a BAR access that R437 refuses. -/
structure Access where
  fn : FnId
  write : Bool
  /-- BAR byte offset of the access. -/
  offset : Nat
  /-- Length in doublewords. -/
  dwords : Nat
  /-- Byte enables of the first doubleword. -/
  enables : BitVec 4
deriving DecidableEq, Repr, Inhabited

/-! ### Memory read outcomes -/

/-- The outcome of the checks of R184 and R177 on the bytes a command reads. -/
inductive ReadOutcome where
  | good
  /-- Corrected by ECC in T1 channel `ch` (LPC_CE). -/
  | corrected (ch : Nat)
  /-- Uncorrectable in the T1 granule at device address `addr` (LPC_UE). -/
  | uncorrectable (addr : Nat)
  /-- MAC mismatch in the T1 granule at device address `addr` (LPC_MAC_ERR). -/
  | macFail (addr : Nat)
  /-- Uncorrectable error in a store-slice line (R177). -/
  | sliceLine (region : RegionId) (off : Nat)
  /-- A slug that fails R163 at its step 1 (`crc`) or a later step. -/
  | slug (crc : Bool) (addr : Nat)
  /-- This many errors were corrected by ECC in the cluster's own memories (R67): those the command met, and those that control
  commands and command-store fetches met since the cluster's last report. -/
  | clusterEcc (count : Nat)
deriving DecidableEq, Repr, Inhabited

/-- An operand, with the outcome of the reads that the command it belongs to makes here. -/
structure WithReads (α : Type) where
  val : α
  reads : ReadOutcome
deriving DecidableEq, Repr, Inhabited

/-! ### Cluster operands -/

/-- A press command word (R72) as the compositor of cluster `cl` issues it, with what the rest of the machine
answers: the bytes of remote TRAY loads in address order and the outcome of the memory reads. -/
structure PressCmd where
  cl : ClusterId
  /-- [7] CHAIN, [6] SATCNT, [5] DIGEST, [4] EVENT, [3:0] reserved. -/
  flags : BitVec 8
  areg : BitVec 4
  offset : Word
  remote : List Byte
  reads : ReadOutcome
deriving DecidableEq, Repr, Inhabited

/-- One request's rows in a work item or segment. -/
structure RowRef where
  req : ReqId
  tenant : BitVec 16
  rows : List Nat
deriving DecidableEq, Repr, Inhabited

/-- A work item as firmware posts it (R69, R341): its 64 bytes, its context, partition, segment and rows, and what firmware
writes through port B into the mailbox's channel and descriptor area before it posts it (R68): tag words (R86), dynamic
descriptors, row tables, as (mailbox offset, bytes). -/
structure WorkItem where
  bytes : List Byte
  mail : List (Nat × List Byte) := []
  ctx : FnId
  part : PartId
  layer : Nat
  segment : Nat
  /-- 0 first run, 1 and 2 the widening levels (R116). -/
  level : Nat
  rows : List RowRef
deriving DecidableEq, Repr, Inhabited

/-- A segment whose work items have all posted DONEWQ (R115, R116): the clusters that ran it. -/
structure SegmentRef where
  part : PartId
  layer : Nat
  segment : Nat
  level : Nat
  clusters : List ClusterId
  rows : List RowRef
  /-- Positions of each request's rows, for the layer digest (R376). -/
  positions : List (ReqId × List Nat)
  /-- Requests of the segment whose at-cache notices ended with STATE_LOST from both members (R246). -/
  bothLost : List ReqId
deriving DecidableEq, Repr, Inhabited

/-! ### Forme and plate images (02) -/

/-- The forme header of *Forme header*. -/
structure FormeHeader where
  magic : Word
  format : BitVec 16
  hdrSize : BitVec 16
  kind : Byte
  role : Byte
  geometry : Byte
  partCount : Byte
  sectCount : BitVec 16
  slotMask : BitVec 16
  totalLen : Word
  svn : Word
  minFw : Word
  sysSize : BitVec 16
  firstLayer : BitVec 16
  layerCount : BitVec 16
  nPrompt : Byte
  nGen : Byte
  nCache : Byte
  targetMask : Byte
  modelDigest : Digest
  baseDigest : Digest
  ownerKeyId : KeyId
  resv : Nat
deriving DecidableEq, Repr, Inhabited

/-- ROLE_PARAMS (R45). -/
structure RoleParams where
  chunkTokens : BitVec 16
  maxRows : BitVec 16
  specMax : Byte
  partner : List Byte
  galleyPool : List Word
  resv : Nat
deriving DecidableEq, Repr, Inhabited

/-- GEOMETRY (R48). -/
structure GeometrySect where
  regionUse : Byte
  mapDigest : Digest
  resv : Nat
deriving DecidableEq, Repr, Inhabited

/-- REGION_CONFIG (R49). -/
structure RegionConfig where
  mode : Byte
  partition : Byte
  policy : Byte
  plateMib : BitVec 16
  backingBase : DWord
  backingLen : DWord
  resv : Nat
deriving DecidableEq, Repr, Inhabited

/-- PARTITION (R51). -/
structure PartitionSect where
  regionMask : Byte
  contextMask : DWord
  fullSave : DWord
  t1Pages : Word
  t3Pages : Word
  resv : Nat
deriving DecidableEq, Repr, Inhabited

/-- One slot entry of IMPOSITION (R342). -/
structure ImpSlot where
  length : Word
  /-- 0 REALTIME, 1 SHARED. -/
  kind : Byte
  contextMask : DWord
  resv : Nat
deriving DecidableEq, Repr, Inhabited

/-- IMPOSITION (R342). -/
structure ImpositionSect where
  frameTb : Word
  weights : List Byte
  slots : List ImpSlot
  resv : Nat
deriving DecidableEq, Repr, Inhabited

/-- A plate reference entry (R53). -/
structure PlateRef where
  digest : Digest
  plateId : Word
  partMask : Byte
  place : Byte
  slotMask : BitVec 16
  regionMask : Byte
  firstLayer : BitVec 16
  layerCount : Byte
  dest : DWord
  storedLen : DWord
  plainLen : DWord
  resv : Nat
deriving DecidableEq, Repr, Inhabited

/-- One slot entry of ENTROPY (R171). -/
structure EntropyEntry where
  table : BitVec 16
  slot : Byte
  version : Byte
  format : Byte
  /-- 128 bytes, four bits a symbol (R158). -/
  lengths : List Byte
  resv : Nat
deriving DecidableEq, Repr, Inhabited

/-- ENTROPY (R171). -/
structure EntropySect where
  latentTable : BitVec 16
  latentSlot : Byte
  entries : List EntropyEntry
  resv : Nat
deriving DecidableEq, Repr, Inhabited

/-- One layer entry of NUMERICS (R120). -/
structure NumericsEntry where
  layer : BitVec 16
  flags : Byte
  threshold : Word
  resv : Nat
deriving DecidableEq, Repr, Inhabited

/-- NUMERICS (R120). -/
structure NumericsSect where
  policy : Byte
  fp8Variant : Byte
  threshold : Word
  entries : List NumericsEntry
  resv : Nat
deriving DecidableEq, Repr, Inhabited

/-- ATTENTION (R148). -/
structure AttentionSect where
  fallback : Byte
  kvFormat : Byte
  lat : BitVec 16
  posw : BitVec 16
  thumbCount : BitVec 16
  thumbDims : List (BitVec 16)
  resv : Nat
deriving DecidableEq, Repr, Inhabited

/-- A channel table entry (*Channel table entry*, R83). -/
inductive ChanPeer where
  /-- A cluster of this device, by logical (fixed) or physical (full) index, and its channel. -/
  | local_ (cluster : BitVec 7) (chan : BitVec 5)
  /-- A cluster of a tray peer. -/
  | tray (slot : Slot) (cluster : BitVec 7) (chan : BitVec 5)
  /-- A queue pair and the peer's channel identifier. -/
  | pod (qp : QpNum) (dev : DevId) (peerQp : QpNum) (chan : BitVec 5)
deriving DecidableEq, Repr, Inhabited

/-- One entry of a cluster's channel table (R83). -/
structure ChanEntry where
  chan : BitVec 5
  send : Bool
  peer : ChanPeer
  slotBytes : Nat
  slots : Nat
  /-- Receive: mailbox offset of the slot array. -/
  buf : Nat
  tagCheck : Bool
  /-- The program waits on this channel (R348). -/
  waited : Bool
deriving DecidableEq, Repr, Inhabited

/-- What a PROGRAM section carries for one cluster of its partition (R483): by logical index in fixed geometry,
physical in full geometry. -/
structure ClusterProgram where
  index : BitVec 7
  /-- Command-store words by index: the command stream and the static descriptors. -/
  words : List (Nat × DWord)
  /-- Indices that hold command words; every other word is descriptor data. -/
  commands : List Nat
  /-- The static descriptors (R483): index of the press command that names one, and its byte offset in the command store. -/
  statics : List (Nat × Nat)
  /-- The mailbox's descriptor area (R83): offsets of its first byte and of the byte after its last. -/
  descArea : Nat × Nat
  entry : Nat
  channels : List ChanEntry
deriving DecidableEq, Repr, Inhabited

/-- A level-1 or level-2 program of a segment (R117): for each cluster that takes part, by index, the indices of its commands. They
are words of that cluster's command store, with its static descriptors. -/
structure LevelProgram where
  layer : Nat
  segment : Nat
  clusters : List (BitVec 7 × List Nat)
deriving DecidableEq, Repr, Inhabited

/-- A pod-barrier table entry (R373). -/
structure PodBarrierDecl where
  id : Byte
  coord : DevId
  participants : Nat
deriving DecidableEq, Repr, Inhabited

/-- The decoded content of a PROGRAM section: its byte layout is private (R483), its content binds. -/
structure ProgramSect where
  clusters : List ClusterProgram
  /-- Plate identifier of each expert index a variant routes to. -/
  expertMap : List Word
  /-- Largest MAX_BEATS of any command with a dynamic descriptor, level programs included (R345); a static descriptor carries
  its own. -/
  maxBeats : Nat
  /-- Largest sum of MAX_BEATS of a run joined by a chain, live range or stream ring that has a dynamic descriptor (R88). -/
  maxJoinedBeats : Nat
  /-- The segments of each layer, as (layer, segment) (R115). -/
  segments : List (Nat × Nat)
  /-- The level-1, then the level-2, programs (R117). -/
  level1 : List LevelProgram
  level2 : List LevelProgram
  /-- Galley ROW_BYTES of the partition's STOREs (R75), 0 when it has none. -/
  rowBytes : Nat
  podBarriers : List PodBarrierDecl
  /-- Shards declared stateless (R384). -/
  shards : List (BitVec 16)
  /-- What the section shows of the flow of data from SATCNT commands through memory to commands of dynamic descriptors obeys
  R115; the static descriptors are examined. -/
  obeysR115 : Bool
  /-- Elements per head of the query blocks that the program's request notices name (R140, R148). -/
  queryWidths : List Nat
deriving DecidableEq, Repr, Inhabited

/-- The interpreted content of one section. -/
inductive SectBody where
  | roleParams (v : RoleParams)
  | geometry (v : GeometrySect)
  | regionConfig (v : RegionConfig)
  | partition (v : PartitionSect)
  | program (v : ProgramSect)
  | imposition (v : ImpositionSect)
  | plateRefs (v : List PlateRef)
  | entropy (v : EntropySect)
  | numerics (v : NumericsSect)
  | attention (v : AttentionSect)
  /-- SELFTEST: BUDGET_MS and the value of every other byte (R470). -/
  | selftest (budgetMs : BitVec 16) (resv : Nat)
  /-- A section whose length does not fit its type. -/
  | illFormed
deriving DecidableEq, Repr, Inhabited

/-- A section directory entry with its section (R44). -/
structure Section_ where
  type : BitVec 16
  instance_ : BitVec 16
  offset : Word
  length : Word
  digest : Digest
  /-- SHA-384 of the section's bytes as read equals `digest`. -/
  digestOk : Bool
  body : SectBody
  resv : Nat
deriving DecidableEq, Repr, Inhabited

/-- The signature block of R43: what its verification and its padding show. -/
structure SigBlock where
  ed25519Ok : Bool
  mlDsaOk : Bool
  paddingZero : Bool
deriving DecidableEq, Repr, Inhabited

/-- A forme image as the DMA delivers it. `digest` is the SHA-384 up to the signature block (R43). -/
structure FormeImage where
  header : FormeHeader
  sections : List Section_
  digest : Digest
  sig : SigBlock
deriving DecidableEq, Repr, Inhabited

/-- A plate image: *Plate header*, its digest and signature block (R59). -/
structure PlateImage where
  magic : Word
  plateId : Word
  storedLen : DWord
  modelDigest : Digest
  digest : Digest
  sig : SigBlock
  content : List Byte
  resv : Nat
deriving DecidableEq, Repr, Inhabited

/-- What the DMA of FORME_SRC delivered when it ended (R57, R413). -/
inductive ImageRead where
  | dmaFailed
  | forme (img : FormeImage)
  | plate (img : PlateImage)
deriving DecidableEq, Repr, Inhabited

/-! ### Codec -/

/-- A write or switch of a table slot as one member's firmware puts it to the other (R169). -/
structure CodecAsk where
  table : Nat
  slotB : Bool
  format : Nat
  lengths : List Byte
  part : Nat
deriving DecidableEq, Repr, Inhabited

/-- The partner's part of a pair-wide codec command (R169): its code, or no live partner; with `ask`, the command was issued at the
partner and this member's firmware applies it. -/
structure PairAnswer where
  code : Status
  ask : Option CodecAsk := none
deriving DecidableEq, Repr, Inhabited

/-! ### Host rings and capsules (16) -/

/-- A submission entry (R417). -/
structure SqEntry where
  kind : Byte
  addr : DWord
  len : Word
  hostTag : DWord
  reqId : ReqId
  shardId : BitVec 16
  step : Word
  consumer : BitVec 16
  primary : BitVec 16
  resv : Nat
deriving DecidableEq, Repr, Inhabited

/-- The ring position a command takes its SQ entry from. -/
structure RingRef where
  fn : FnId
  set : BitVec 3
deriving DecidableEq, Repr, Inhabited

/-- A routing entry (R419). -/
structure Route where
  prompt : BitVec 16
  gen : BitVec 16
  pair : BitVec 16
  resv : Nat
deriving DecidableEq, Repr, Inhabited

/-- A prefill segment of a capsule body (R420): START and its tokens, COUNT of them. -/
structure PrefillSeg where
  start : Word
  tokens : List Word
deriving DecidableEq, Repr, Inhabited

/-- The capsule body (R420). -/
structure CapsuleBody where
  flags : Word
  maxLen : Word
  seed : DWord
  temp : Word
  topP : Word
  topK : Word
  endToken : Word
  ttl : Word
  segments : List PrefillSeg
  resv : Nat
deriving DecidableEq, Repr, Inhabited

/-- A capsule: clear header, routing block and decrypted body; `tagOk`: its tag verifies under the session key T2D (R406). -/
structure Capsule where
  magic : Word
  type : Byte
  priority : Byte
  tenant : BitVec 16
  session : Word
  part : Byte
  stages : BitVec 16
  seq : DWord
  deadline : DWord
  reqId : ReqId
  epoch : Word
  bodyLen : Word
  size : Word
  routing : List Route
  body : CapsuleBody
  tagOk : Bool
  resv : Nat
deriving DecidableEq, Repr, Inhabited

/-- An SQ entry of kind CAPSULE with the capsule its DMA read, or its failure (R413). -/
structure CapsuleCmd where
  ring : RingRef
  entry : SqEntry
  dmaOk : Bool
  capsule : Capsule
deriving DecidableEq, Repr, Inhabited

/-- SESSION_INIT (R404, R422). -/
structure SessionInit where
  ring : RingRef
  entry : SqEntry
  dmaOk : Bool
  magicOk : Bool
  tenant : BitVec 16
  keyId : KeyId
  resv : Nat
deriving DecidableEq, Repr, Inhabited

/-- SESSION_FINISH (R422, R423). -/
structure SessionFinish where
  ring : RingRef
  entry : SqEntry
  dmaOk : Bool
  magicOk : Bool
  session : Word
  sigsOk : Bool
  resv : Nat
deriving DecidableEq, Repr, Inhabited

/-- SHARD with what the consumer answered to the request for the step's inputs (R429). -/
structure ShardCmd where
  ring : RingRef
  entry : SqEntry
  claimSet : Bool
  inputsHeld : Bool
deriving DecidableEq, Repr, Inhabited

/-! ### Request messages between devices (08) -/

/-- The colophon contribution a stage sends with its drop report (R377). -/
structure ColophonEvent where
  type : Byte
  arg : Byte
  layer : Nat
  segment : Nat
  stage : Byte
  pos : Nat
  count : Nat
  data : List Word
deriving DecidableEq, Repr, Inhabited

/-- The owner's record as COMMIT and RECORD carry it (R207, R208, R215): the fields of the 128-byte record, and what the
colophon accumulator that its COLOPHON frame names holds. -/
structure RecordUpdate where
  state : BitVec 4
  status : Byte
  view : BitVec 4
  flags : Byte
  tenant : BitVec 16
  part : PartId
  partGen : Byte
  context : FnId
  priority : Byte
  specLen : Byte
  stage : Byte
  epoch : Word
  deadline : DWord
  promptLen : Word
  commitLen : Word
  maxLen : Word
  prefilled : Word
  anchor : DevId
  owner : DevId
  pair : Byte
  serving : Byte
  step : Word
  map : Word
  pages : Word
  held : Word
  admitTb : DWord
  expiry : DWord
  shelveSeq : Word
  pending : Word
  hostTag : DWord
  colophon : Word
  ttl : Word
  /-- The reserved bytes, at 0x36 and 0x70. -/
  resv : Nat
  /-- The accumulator: stage chain and events (R376, R377), and the OVERRUN mark, which FLAGS does not hold (R13). -/
  chain : Digest
  events : List ColophonEvent
  /-- Geometry identifiers of the devices of the stage that have committed for the request (R362). -/
  geoms : List Digest
  /-- Firmware versions of those devices (R378). -/
  fws : List Word
  /-- Effective forme digests of those devices (R378). -/
  formes : List Digest
  overran : Bool
  /-- Terminal conditions that wait for the next boundary (R11, R229). -/
  conds : List Status
  /-- The prefill in progress runs over history alone: its end writes the pending token and forms none (R233). -/
  replay : Bool
  /-- The hand-over count of OWNER_WORD that its owner expects (R211, R222). -/
  count : Nat
  /-- Bring-in: the record goes out as its galley is released, live-mirrored from here on (R248; log entry 199). -/
  released : Bool := false
deriving DecidableEq, Repr, Inhabited

/-- A stage admission, as it reaches a device of the stage (R219): prompt node, pair member or generation node. -/
structure StageAdmission where
  req : ReqId
  stage : Byte
  tenant : BitVec 16
  part : PartId
  context : FnId
  priority : Byte
  anchor : DevId
  epoch : Word
  deadline : DWord
  promptLen : Word
  maxLen : Word
  ttl : Word
  /-- FLAGS[0] re-prefill permitted, FLAGS[1] token history held. -/
  flags : BitVec 2
  modelDigest : Digest
  /-- The capsule's routing block: entry `stage` is this stage's. -/
  route : List Route
  /-- What the two pair members and the generation node answered (read by the prompt node only). -/
  lower : Status
  upper : Status
  genAns : Status
  /-- The first layer that the stage must serve (R60; log entry 172). -/
  firstLayer : Nat
  /-- The generation node prefills the request and owns its galley from creation (R237). -/
  byGen : Bool
  /-- A copy-out creates the galley: the record of the PAUSED galley at its source (R234). -/
  copy : Option RecordUpdate
  resv : Nat
deriving DecidableEq, Repr, Inhabited

/-- Where a confirmation comes from (R219, R231, R232): its stage and device, and, of a galley that has been shelved, its expiry
tick (R197; log entry 203). -/
structure StageFrom where
  stage : Byte
  sender : DevId
  shelf : Option DWord := none
deriving DecidableEq, Repr, Inhabited

/-- A code that a device of a stage answers with (R219, R232). -/
structure CodeFrom where
  code : Status
  sender : DevId
deriving DecidableEq, Repr, Inhabited

/-- A stage entry of the colophon (*Stage entry*). -/
structure StageEntry where
  stage : Byte
  fullGeom : Bool
  nPrompt : Byte
  nGen : Byte
  nCache : Byte
  fwVersion : Word
  firstLayer : BitVec 16
  layerCount : BitVec 16
  formeSet : Digest
  geomSet : Digest
  chain : Digest
deriving DecidableEq, Repr, Inhabited

/-- A stage's drop report (R230): its code, whether it committed with one copy (R245), and its colophon part. -/
structure DropReport where
  req : ReqId
  stage : Byte
  code : Status
  degraded : Bool
  overrun : Bool
  widened : Bool
  entry : StageEntry
  events : List ColophonEvent
deriving DecidableEq, Repr, Inhabited

/-- A resume as the anchor forwards it to a device of a stage (R232): the request as an admission names it, with the
resume's own epoch, deadline, prompt length, time to live and routing. -/
structure StageResume where
  adm : StageAdmission
  /-- Committed positions of the request, as the anchor knows them. -/
  commitLen : Word
  /-- New prompt tokens of the turn. -/
  newTokens : Word
  /-- State-mover operations outstanding on the member's partner, as the pair's firmware knows them (R242). -/
  partnerOps : Nat
  /-- The anchor applies re-prefill to the whole request (R232, R233). -/
  restart : Bool
  /-- Its cause, as the ARG of a REPREFILL event (R379). -/
  cause : Byte
  /-- No resume: a node was excluded, and the routing names the one that takes its place (R223, R235). -/
  takeOver : Bool
deriving DecidableEq, Repr, Inhabited

/-- One request at a step or chunk boundary (R218, R221, R225): what its step produced. -/
structure StepEnd where
  req : ReqId
  /-- Accepted drafts `a`, 0 to SPEC_LEN (R225); a member's RETRY_LATER on a speculative row makes it 0. -/
  accepted : Nat
  /-- Chunk length committed in prefill (R221). -/
  chunk : Nat
  /-- The last chunk of the segment is done. -/
  lastChunk : Bool
  /-- Token identifiers of the positions that commit (R227), and the next pending token. -/
  tokens : List Word
  pending : Word
  /-- The end token was committed (R218). -/
  endToken : Bool
  /-- SPEC_LEN of the next step. -/
  nextSpec : Nat
  /-- Terminal codes that hold at this boundary from outside the device (R11): INTEGRITY, TIER_FAULT, …. -/
  codes : List Status
  /-- The next prefill segment of a multi-segment ADMIT starts here (R421): its length, 0 for none. -/
  nextSegment : Nat
  /-- That segment's START is 0: every galley is dropped and re-prefilled (R421). -/
  restart : Bool
  /-- The anchor has asked this stage to pause the request (R231). -/
  pause : Bool
deriving DecidableEq, Repr, Inhabited

/-- A pod message naming a request's token (R227). -/
structure TokenMsg where
  req : ReqId
  pos : Nat
  tokens : List Word
deriving DecidableEq, Repr, Inhabited

/-! ### Tray packets (10) -/

/-- The tray packet header (R271). -/
structure TrayHdr where
  type : Byte
  flags : Byte
  src : BitVec 16
  dst : BitVec 16
  xepoch : BitVec 16
  seq : Word
  tag : BitVec 16
  part : Byte
  status : Byte
  addr : BitVec 48
  len : BitVec 16
  mepoch : Word
  op : Byte
  srcCl : Byte
  resv : Nat
deriving DecidableEq, Repr, Inhabited

/-- A packet that a device forwards (R287): its header and its payload, which it does not change. -/
structure FwdPacket where
  hdr : TrayHdr
  payload : List Byte
deriving DecidableEq, Repr, Inhabited

/-- The append header (R273). -/
structure AppendHdr where
  req : ReqId
  pos : Word
  step : Word
  layer : BitVec 16
  cls : Byte
  rowBytes : BitVec 16
  resv : Nat
deriving DecidableEq, Repr, Inhabited

/-- A galley row arriving: the sender, its header and its bytes. -/
structure AppendMsg where
  sender : DevId
  hdr : AppendHdr
  row : List Byte
  /-- What the read of a granule written in part showed (R185). -/
  reads : ReadOutcome
deriving DecidableEq, Repr, Inhabited

/-- The image of one page, with its digest on the last part (R273, R250). -/
structure PagePart where
  req : ReqId
  layer : BitVec 16
  /-- 0 latent, 1 thumb, 2 history. -/
  kind : Byte
  partNo : Nat
  lastPart : Bool
  lpage : Word
  bytes : List Byte
  digest : Digest
  /-- What the read of a granule that the part fills in part showed at its destination (R185). -/
  reads : ReadOutcome := .good
deriving DecidableEq, Repr, Inhabited

/-- A latent slot a spare receives before bring-in (R247, R169). -/
structure LatentSlotCopy where
  part : PartId
  table : BitVec 16
  slot : Bool
  version : Byte
  format : Byte
  lengths : List Byte
  valid : Bool
  active : Bool
deriving DecidableEq, Repr, Inhabited

/-- A quota entry (R200). -/
structure QuotaCopy where
  tenant : BitVec 16
  t1Limit : Word
  t3Limit : Word
deriving DecidableEq, Repr, Inhabited

/-! ### Remote access (11) -/

/-- A work request (R298) posted on a queue pair. -/
structure WorkReq where
  opcode : Byte
  flags : Byte
  op : Byte
  rights : Byte
  dstDev : BitVec 16
  wrId : DWord
  dstQp : Word
  rkey : Word
  remoteOff : DWord
  lkey : Word
  len : Word
  localOff : DWord
  operand : DWord
  operand2 : DWord
  resv : Nat
deriving DecidableEq, Repr, Inhabited

/-- A WR taken from queue pair `qp`'s send ring, with the local bytes its LKEY names. -/
structure WrCmd where
  qp : QpNum
  wr : WorkReq
  data : List Byte
  /-- The T1 reads of a LKEY that names a T1 region. -/
  reads : ReadOutcome := .good
deriving DecidableEq, Repr, Inhabited

/-- The ring block that QP_CREATE reads (R427). -/
structure RingBlock where
  sendBase : DWord
  recvBase : DWord
  cqBase : DWord
  sendLog : Byte
  recvLog : Byte
  cqLog : Byte
  vector : Byte
  sendProd : BitVec 16
  recvProd : BitVec 16
  cqCons : BitVec 16
  resv : Nat
deriving DecidableEq, Repr, Inhabited

/-- What the device reads from a ring block at a doorbell: the producer, with the block of a control queue pair (R427). -/
structure RingRead where
  prod : BitVec 16
  block : RingBlock
deriving DecidableEq, Repr, Inhabited

/-- The pod message header (R301). -/
structure PodHdr where
  type : Byte
  flags : Byte
  src : BitVec 16
  dst : BitVec 16
  xepoch : BitVec 16
  id : BitVec 48
  status : Byte
  op : Byte
  firstTb : DWord
  srcQp : Word
  dstQp : Word
  rkey : Word
  len : BitVec 16
  offset : DWord
  mepoch : Word
  rlen : Word
  ref : BitVec 48
  resv : Nat
deriving DecidableEq, Repr, Inhabited

/-- A pod message as received; `tagOk`: its pod-key tag verifies (R401); `reads`: the T1 reads of its execution (R310
step 9); `buf`: LKEY, length and offset of the receive buffer a SEND takes, as its DMA reads them (R300, R427);
`host`: the host bytes a READ_REQ's region names. -/
structure PodMsg where
  hdr : PodHdr
  payload : List Byte
  tagOk : Bool
  reads : ReadOutcome
  buf : Word × Nat × Nat
  host : List Byte
deriving DecidableEq, Repr, Inhabited

/-! ### Links (12) -/

/-- A segment of a Tumas frame (R325). -/
structure Segment where
  cls : BitVec 2
  first : Bool
  last : Bool
  bytes : Nat
deriving DecidableEq, Repr, Inhabited

/-- A received Tumas frame (R325): its header and what FEC, CRC and TAG checking showed (R326). -/
structure Frame where
  link : LinkId
  keyPhase : Bool
  session : BitVec 16
  seq : Word
  ack : Word
  credits : List Word
  /-- FEC codewords corrected, and uncorrectable: with one of these the frame fails decoding. -/
  fecCorr : Nat
  fecUnc : Nat
  crcOk : Bool
  tagOk : Bool
  segments : List Segment
deriving DecidableEq, Repr, Inhabited

/-- What a KEY frame carries (R330, R331, R403). -/
inductive KeyPayload where
  /-- The hybrid exchange of phase 6 of training; `ok`: all four signatures and the confirmation TAG verify. -/
  | session (ok : Bool)
  /-- A fresh hybrid exchange for a rekey; `ok`: all four signatures verify. -/
  | rekey (ok : Bool)
  /-- The confirmation of a rekey; `ok`: its TAG verifies. -/
  | rekeyConfirm (ok : Bool)
  /-- The pod key with its generation, under a transfer exchange. -/
  | podKey (gen : Word) (ok : Bool)
  /-- A pair secret under a transfer exchange; its identifier. -/
  | pairSecret (id : DWord) (ok : Bool)
deriving DecidableEq, Repr, Inhabited

/-- What the far end showed when a training phase ended (R289, R324, R398). -/
structure PhaseResult where
  link : LinkId
  /-- The lowest wavelength of the laser fibre, and the weakest received wavelength, as they measure now (0.01 dBm, signed). -/
  laser : BitVec 16
  rxPwr : BitVec 16
  /-- Phase 4: the far device and its near-link index (near links), or the plane or bridge reached. -/
  farDev : DevId
  farLink : Nat
  /-- Far link: the plane reached; SL: 16 for the management bridge. -/
  farPlane : Nat
  /-- Phase 5: certificate chain good, same debug state, equal measurement 7, equal MODEL_DIGEST or one side without a forme. -/
  certOk : Bool
  farDebug : Bool
  farMeas7 : Digest
  farModel : Option Digest
  /-- Phase 5: the end is a switch plane or bridge certified by an enrolled owner key. -/
  planeCert : Bool
deriving DecidableEq, Repr, Inhabited

/-- The four ticks of a TIME exchange with a plane (R371). -/
structure TimeExchange where
  plane : BitVec 4
  t1 : DWord
  t2 : DWord
  t3 : DWord
  t4 : DWord
deriving DecidableEq, Repr, Inhabited

/-- Why a link goes down (R328). -/
inductive DownCause where
  | signal | laser | fec | noAck | auth | rekey | disable
deriving DecidableEq, Repr, Inhabited

/-! ### Security (15) -/

/-- An owner command (R394). -/
structure OwnerCmd where
  magic : Word
  opcode : Byte
  target : Byte
  device : Digest
  storeSeq : DWord
  signer : KeyId
  argKey : KeyId
  value : Word
  /-- Key ID computed from the key block, when one is carried. -/
  blockKey : Option KeyId
  lenOk : Bool
  sig : SigBlock
  digest : Digest
  resv : Nat
deriving DecidableEq, Repr, Inhabited

/-- An OWNER_CMD write with the command its DMA read and whether the store write succeeds. -/
structure OwnerExec where
  w : CtlWrite
  cmd : OwnerCmd
  storeOk : Bool
deriving DecidableEq, Repr, Inhabited

/-- A firmware image (R392). -/
structure FwImage where
  version : Word
  svn : Word
  digest1 : Digest
  digest2 : Digest
  sigsOk : Bool
deriving DecidableEq, Repr, Inhabited

/-- A repair entry (*Repair entry*). -/
structure RepairEntry where
  kind : Byte
  source : Byte
  unit : BitVec 16
  bit : BitVec 16
  addr : DWord
deriving DecidableEq, Repr, Inhabited

/-- One copy of the repair record (R471). -/
structure RepairRecord where
  seq : DWord
  dataRate : Byte
  grade : Byte
  run : BitVec 16
  failed : BitVec 16
  lpCursor : Byte
  disabled : BitVec 128
  sliceFail : DWord
  device : Digest
  entries : List RepairEntry
  sigOk : Bool
deriving DecidableEq, Repr, Inhabited

/-- What the board presents at a cold start (R390 to R393, R471, R478). -/
structure BoardInputs where
  tray : Byte
  slot : Slot
  helperOk : Bool
  fw : FwImage
  rpsAnswers : Bool
  repairA : Option RepairRecord
  repairB : Option RepairRecord
  /-- Channels that fail training. -/
  trainFail : List Nat
  clearUs : BitVec 16
deriving DecidableEq, Repr, Inhabited

/-- A peer seen at PARTNER_MEET (R241, R400). -/
structure PartnerView where
  live : Bool
  formeState : BitVec 4
  formeBase : Digest
  holdsGalley : Bool
  state : BitVec 4
  secret : Option DWord
  /-- What the reads of the survivor's copy that follows at once showed (R184, R248). -/
  reads : ReadOutcome := .good
deriving DecidableEq, Repr, Inhabited

/-- What the pair owner of an at-cache notice sends (R139). -/
structure NoticeMsg where
  tag : BitVec 16
  kind : Byte
  qfmt : Byte
  layer : BitVec 16
  rows : BitVec 16
  step : Word
  epoch : Word
  query : DWord
  qscale : DWord
  rowtab : DWord
  ctx : DWord
  resv : Nat
deriving DecidableEq, Repr, Inhabited

/-- A reply notice (R140). -/
structure ReplyMsg where
  tag : BitVec 16
  kind : Byte
  status : Byte
  layer : BitVec 16
  rows : BitVec 16
  step : Word
  slot : Byte
  flags : Byte
  rowsOk : BitVec 16
deriving DecidableEq, Repr, Inhabited

/-- A reply notice with the address of the row table that the cluster's program names for it (R144). -/
structure ReplyTaken where
  msg : ReplyMsg
  rowtab : DWord
deriving DecidableEq, Repr, Inhabited

/-- The channels of a notice exchange at the cache (R141): the one the request came by, and the one the reply leaves by. -/
structure NoticeChans where
  request : BitVec 5
  reply : BitVec 5
deriving DecidableEq, Repr, Inhabited

/-- The body of a SEAL_DIGEST (*Tray operations*): the digest, and the value of its reserved field (R5). -/
structure SealBody where
  digest : Digest
  resv : Nat
deriving DecidableEq, Repr, Inhabited

/-- A DMA that failed, by what it served (R413). -/
inductive DmaTarget where
  | hostTier (req : ReqId)
  | capsule (ring : RingRef) (entry : SqEntry)
  | image
  | ring (ring : RingRef)
  | qpRing (qp : QpNum)
deriving DecidableEq, Repr, Inhabited

/-- Which consumer count the host writes (R426, R428). -/
inductive ConsumerReg where
  | cq (fn : FnId) (set : BitVec 3)
  | out (fn : FnId) (set : BitVec 3)
  | fault (fn : FnId)
deriving DecidableEq, Repr, Inhabited

/-- What resets a function (R433). -/
inductive FlrCause where
  | flr | tdiError | d3ToD0
deriving DecidableEq, Repr, Inhabited

/-- Where an atomic that the unit applies came from (R281, R282): a tray packet, or the combining queue entry of a
remote message. -/
inductive AtomicSrc where
  /-- a tray ATOMIC, with what the read of its granule showed (R184). -/
  | tray (h : TrayHdr) (reads : ReadOutcome)
  | remote (src : DevId) (id : BitVec 48)
deriving DecidableEq, Repr, Inhabited

/-- A tray request as its home takes it, with its payload: what waits in the reorder buffer of R288. -/
inductive TrayReq where
  | load (h : TrayHdr) (reads : ReadOutcome)
  | store (h : TrayHdr) (data : List Byte) (reads : ReadOutcome)
  | append (h : TrayHdr) (a : AppendHdr) (row : List Byte) (reads : ReadOutcome)
  | chmsg (h : TrayHdr) (msg : List Byte)
  /-- ATOMIC outside the galley words; the function is in `h.op`. -/
  | atomic (h : TrayHdr) (operand : DWord) (new : DWord) (reads : ReadOutcome)
  /-- CAS U64 on a galley word. -/
  | ownerCas (h : TrayHdr) (req : ReqId) (cmp : DWord) (new : DWord)
  | commit (h : TrayHdr) (req : ReqId) (newLen : Word) (step : Word) (rec : RecordUpdate) (reads : ReadOutcome)
  | sealDigest (h : TrayHdr) (req : ReqId) (layer : BitVec 16) (lpage : Word) (d : Digest) (resv : Nat)
  | ownerFwd (h : TrayHdr) (req : ReqId) (word : DWord)
  | mapWrite (h : TrayHdr) (req : ReqId) (off : Word) (bytes : List Byte)
  | record (h : TrayHdr) (req : ReqId) (rec : RecordUpdate)
  | drop (h : TrayHdr) (req : ReqId)
  | page (h : TrayHdr) (p : PagePart)
  | ckpt (h : TrayHdr) (n : Word) (cursor : ReqId) (cursorPage : Word)
  | silverSetup (h : TrayHdr) (quotas : List QuotaCopy) (latents : List LatentSlotCopy)
deriving DecidableEq, Repr, Inhabited

end Sys2Proof
end

