-- ==== Sys2Proof/Syntax.lean ====
section
/-!
DEFINITION. The commands of the block: `Instr`, one constructor per row of spec/opcode_table.json, in the
table's order.
-/

namespace Sys2Proof

/-- The commands of the DN74 block: the rows of spec/opcode_table.json, in its order. -/
inductive Instr where
  -- the cluster's control and press commands (03 to 05)
  | nop (cl : ClusterId)
  | seta (cl : ClusterId) (areg : BitVec 4) (value : Word)
  | adda (cl : ClusterId) (areg : BitVec 4) (value : Word)
  | loop (cl : ClusterId) (count : BitVec 16) (last : BitVec 14)
  | jump (cl : ClusterId) (target : BitVec 14)
  | branch (cl : ClusterId) (areg : BitVec 4) (target : BitVec 14)
  | lda (cl : ClusterId) (areg : BitVec 4) (base : BitVec 4) (offset : Word)
  | waitwq (cl : ClusterId)
  | donewq (cl : ClusterId) (status : Byte)
  | barrier (cl : ClusterId) (id : Byte) (scope : BitVec 2)
  | waitch (cl : ClusterId) (areg : BitVec 4) (timeout : BitVec 20) (count : Byte) (credits : Bool) (chan : BitVec 5)
  | live (cl : ClusterId) (id : BitVec 5) (startKib : BitVec 11) (lenKibM1 : BitVec 11) (end_ : Bool)
  | load (c : PressCmd)
  | store (c : PressCmd)
  | streamArm (c : PressCmd)
  | streamStop (c : PressCmd)
  | matmul (c : PressCmd)
  | attend (c : PressCmd)
  | vector (c : PressCmd)
  | norm (c : PressCmd)
  | reduce (c : PressCmd)
  | topk (c : PressCmd)
  | send (c : PressCmd)
  | recv (c : PressCmd)
  | convert (c : PressCmd)
  | gather (c : PressCmd)
  | digest (c : PressCmd)
  -- cluster events
  | commandComplete (cl : ClusterId) (beats : Nat)
  | workItemPost (cl : ClusterId) (item : WorkItem)
  | segmentEnd (seg : SegmentRef)
  | waitchTimeout (cl : ClusterId)
  | regionBarrierRelease (region : RegionId) (ctx : FnId) (id : Byte)
  | dieBarrierRelease (part : PartId) (ctx : FnId) (id : Byte)
  | streamChunkArrival (cl : ClusterId) (stream : BitVec 5) (data : WithReads (List Byte))
  | clusterFault (cl : ClusterId) (ecc : Bool)
  | paceWindowEnd (cl : ClusterId) (beats : Nat)
  | rankMoveToSpare (region : RegionId) (pos : BitVec 4)
  | channelRearm (cl : ClusterId) (chan : BitVec 5)
  -- the forme (02) and host commands of the cluster and codec blocks
  | formeLoad (w : CtlWrite)
  | formeImageReadDone (r : ImageRead)
  | plate (w : CtlWrite)
  | formeUnload (w : CtlWrite)
  | unloadClearDone
  | drain (w : CtlWrite)
  | drainComplete
  | replace (w : CtlWrite)
  | formeResume (w : CtlWrite)
  | clusterClr (cl : ClusterId) (w : CtlWrite)
  | quiesce (cl : ClusterId) (w : CtlWrite)
  | tableWrite (w : CtlWrite) (partner : PairAnswer)
  | switch (w : CtlWrite) (partner : PairAnswer)
  | codecClr (w : CtlWrite)
  -- memory tiers (07)
  | quotaWrite (w : CtlWrite)
  | quotaRead (w : CtlWrite)
  | t3Bind (w : CtlWrite)
  | tierClr (w : CtlWrite)
  | t1Scrub (outcome : ReadOutcome)
  | refresh (ch : Fin 48) (intervalNs : Word)
  | refreshManagement (ch : Fin 48)
  | channelFail (ch : Fin 48)
  | t3Fault (req : ReqId)
  | shelveRetry (req : ReqId)
  | galleyExpiry (req : ReqId)
  -- submission entries (16)
  | capsule (c : CapsuleCmd)
  | admitCapsule (c : CapsuleCmd)
  | resumeCapsule (c : CapsuleCmd)
  | cancelCapsule (c : CapsuleCmd)
  | sessionEnd (c : CapsuleCmd)
  | sqNop (ring : RingRef) (entry : SqEntry)
  | sessionInit (m : SessionInit)
  | sessionFinish (m : SessionFinish)
  | sessionTimeout (session : Word)
  | hostCancel (ring : RingRef) (entry : SqEntry)
  | shard (m : ShardCmd)
  -- requests and galleys (08)
  | stageAdmission (m : StageAdmission)
  | confirmation (req : ReqId) (src : StageFrom) (pause : Option DropReport)
  | stageRefusal (req : ReqId) (code : CodeFrom)
  | append (m : AppendMsg)
  | commit (h : TrayHdr) (req : ReqId) (newLen : Word) (step : Word) (rec : WithReads RecordUpdate)
  | sealComplete (req : ReqId) (layer : Nat) (lpage : WithReads Nat)
  | sealDigest (h : TrayHdr) (req : ReqId) (layer : BitVec 16) (lpage : Word) (d : SealBody)
  | ownerFwd (h : TrayHdr) (req : ReqId) (word : DWord)
  | mapWrite (h : TrayHdr) (req : ReqId) (off : Word) (bytes : List Byte)
  | record (h : TrayHdr) (req : ReqId) (rec : RecordUpdate)
  | drop (h : TrayHdr) (req : ReqId)
  | dropReport (r : DropReport)
  | page (h : TrayHdr) (p : PagePart)
  | ckpt (h : TrayHdr) (n : Word) (cursor : ReqId) (cursorPage : Word)
  | silverSetup (h : TrayHdr) (quotas : List QuotaCopy) (latents : List LatentSlotCopy)
  | ownerWordCas (h : TrayHdr) (req : ReqId) (cmp : DWord) (new : DWord)
  | handoverTimeout (req : ReqId)
  | stepBoundary (ends : List StepEnd)
  | token (m : TokenMsg)
  | cancellation (req : ReqId)
  | retirement (req : ReqId) (code : Status)
  | cancel (w : CtlWrite)
  | pause (w : CtlWrite)
  | reqClr (w : CtlWrite)
  | moverClr (w : CtlWrite)
  | pauseHoldExpiry (req : ReqId)
  | shelveComplete (req : WithReads ReqId)
  | resumeStage (m : StageResume)
  | recallComplete (req : ReqId) (tagsOk : Bool)
  | copyout (req : ReqId) (dest : WithReads DevId)
  | copyoutComplete (req : ReqId) (code : Status)
  -- pairs, maps and liveness (09)
  | partnerMeet (v : PartnerView)
  | mirrorAckTimeout (slot : Slot) (seq : Word)
  | silver (w : CtlWrite) (v : PartnerView)
  | checkpointRequest
  | ckptAck (n : WithReads Word)
  | abort (w : CtlWrite)
  | mapInstall (w : CtlWrite)
  | mapRenew (w : CtlWrite)
  | mapLeaseEnd (epoch : Word)
  | suspect (w : CtlWrite)
  | pairClr (w : CtlWrite)
  | renewTimer
  | grant (dev : DevId) (xepoch : BitVec 16) (seq : Word) (leaseMs : Nat)
  | deny (dev : DevId) (seq : Word)
  | leaseExpiry
  | exclude (dev : DevId) (xepoch : BitVec 16)
  | admitMsg (dev : DevId) (xepoch : BitVec 16) (seq : Word) (leaseMs : Nat) (table : List (DevId × Bool × BitVec 16))
  | join (dev : DevId) (xepoch : BitVec 16)
  -- tray fabric (10)
  | trayLoad (h : TrayHdr) (reads : ReadOutcome)
  | trayStore (h : TrayHdr) (data : WithReads (List Byte))
  | trayAppend (h : TrayHdr) (a : AppendHdr) (row : WithReads (List Byte))
  | chmsg (h : TrayHdr) (msg : List Byte)
  | credit (h : TrayHdr) (count : Word)
  | lstate (h : TrayHdr) (links : BitVec 15) (role : Byte) (modelDigest : Digest)
  | resp (h : TrayHdr) (payload : WithReads (List Byte))
  | trayResponseTimeout (slot : Slot) (seq : Word)
  | trayForward (p : FwdPacket)
  | nearDisable (fn : FnId) (value : Word)
  | nearClr (w : CtlWrite)
  | atomicAdd (a : AtomicSrc) (operand : DWord)
  | atomicMin (a : AtomicSrc) (operand : DWord)
  | atomicMax (a : AtomicSrc) (operand : DWord)
  | atomicCas (a : AtomicSrc) (cmp : DWord) (new : DWord)
  -- remote access (11)
  | writeWr (c : WrCmd)
  | readWr (c : WrCmd)
  | atomicWr (c : WrCmd)
  | sendWr (c : WrCmd)
  | pdAlloc (c : WrCmd)
  | pdFree (c : WrCmd)
  | qpCreate (c : WrCmd) (block : RingBlock)
  | qpDestroy (c : WrCmd)
  | qpReset (c : WrCmd)
  | regRegion (c : WrCmd)
  | deregRegion (c : WrCmd)
  | mapPages (c : WrCmd) (entries : List DWord)
  | writeMsg (m : PodMsg)
  | readReq (m : PodMsg)
  | readData (m : PodMsg)
  | atomicMsg (m : PodMsg)
  | sendMsg (m : PodMsg)
  | ack (m : PodMsg)
  | retransmitTimer (id : BitVec 48)
  | messageLifetimeEnd (id : BitVec 48)
  | identifierEntryExpiry (src : DevId) (id : BitVec 48)
  | readTimeout (id : BitVec 48)
  | backoffExpiry (id : BitVec 48)
  | retryLimitExpiry (id : BitVec 48)
  | contextFetchDone (qp : QpNum) (macOk : Bool)
  | pageFaultTimeout (rkey : Word) (page : Nat)
  | qpcBind (w : CtlWrite)
  | rmaClr (w : CtlWrite)
  -- links and shaping (12)
  | linkTrainStart (link : LinkId)
  | linkPhaseTimeout (link : LinkId)
  | linkPhaseDone (r : PhaseResult)
  | linkDown (link : LinkId) (cause : DownCause)
  | dataFrame (f : Frame)
  | idleFrame (f : Frame)
  | nakFrame (f : Frame)
  | keyFrame (f : Frame) (p : KeyPayload)
  | timeFrame (f : Frame) (x : TimeExchange)
  | rekey (link : LinkId)
  | laserLow (fibre : BitVec 3) (power : BitVec 16) (held : Bool)
  | egressDispatch (link : LinkId)
  | retrain (w : CtlWrite)
  | linkClr (w : CtlWrite)
  | linkFarDisable (fn : FnId) (value : Word)
  | shaperRefillTick
  | shaperCommit (w : CtlWrite)
  | telEn (w : CtlWrite)
  | shaperClr (w : CtlWrite)
  -- contexts (13)
  | frameStart
  | slotEnd
  | effectiveSlotEnd (ctx : FnId)
  | saveComplete (cl : ClusterId)
  | restoreComplete (cl : ClusterId)
  | weightCommit (w : CtlWrite)
  | meterDump (w : CtlWrite)
  | meterSample
  | parkWaits (w : CtlWrite)
  | schedClr (w : CtlWrite)
  -- repeatability (14)
  | timeExchangeTimer
  | alignmentLoss
  | arrive (dev : DevId) (id : Byte) (inst : Nat)
  | release (id : Byte) (inst : Nat) (tick : DWord) (status : Status)
  | podBarrierReleaseTick (id : Byte) (inst : Nat)
  | trace (w : CtlWrite)
  | reproClr (w : CtlWrite)
  -- security (15)
  | claim (c : OwnerExec)
  | addKey (c : OwnerExec)
  | removeKey (c : OwnerExec)
  | advance (c : OwnerExec)
  | debugUnlock (c : OwnerExec)
  | recoveryImage (w : CtlWrite) (img : FwImage)
  | podFetch (w : CtlWrite)
  | podGenesis (w : CtlWrite)
  | tenantUnbind (w : CtlWrite)
  | secClr (w : CtlWrite)
  | reseed
  | getVersion
  | getCapabilities (version : Byte)
  | negotiateAlgorithms (version : Byte) (asymEd25519 : Bool) (hashSha384 : Bool)
  | getDigests
  | getCertificate (offset : Nat) (length : Nat)
  | challenge (nonce : BitVec 256)
  | getMeasurements (index : Byte) (signed : Bool) (nonce : BitVec 256)
  -- host interface (16)
  | ideKm (stream : BitVec 7) (refresh : Bool)
  | ideIntegrityFailure (stream : BitVec 7) (fn : FnId)
  | lockInterface (vf : FnId)
  | dmaFailure (t : DmaTarget)
  | enable (w : CtlWrite)
  | disable (w : CtlWrite)
  | faultEn (w : CtlWrite)
  | sqDoorbell (fn : FnId) (set : BitVec 3) (value : Word)
  | qpDoorbell (fn : FnId) (value : Word) (read : RingRead)
  | consumerWrite (r : ConsumerReg) (value : Word)
  | interruptHoldoffExpiry (fn : FnId) (vector : BitVec 5)
  | flr (fn : FnId) (cause : FlrCause)
  | hotReset
  | perst
  | warm (w : CtlWrite)
  | shutdown (w : CtlWrite)
  | maintClr (w : CtlWrite)
  -- power and self-test (18, 19)
  | selftestSliceEnd (failed : Bool) (entries : List RepairEntry)
  | pwrgdAssert (b : BoardInputs)
  | pwrgdDeassert
  | ready
  | thermalTrip (temp : BitVec 16)
  | thermalHoldEnd (temp : BitVec 16)
  | watchdog
  | bridge
  | rankRelease
  | claimGrant
  | claimRelease (cl : ClusterId)
  -- registers (17)
  | tmrFix (reg : BitVec 2) (copy : BitVec 2) (value : Word)
  | rcRead (fn : FnId) (offset : Nat)
  | loReadCapture (fn : FnId) (offset : Nat)
  | registerAccessRefused (a : Access)
  | registerWrite (fn : FnId) (offset : Nat) (value : Word)
  -- the at-cache exchange, and the later rows of the table
  | requestNotice (sender : DevId) (n : NoticeMsg) (c : PressCmd) (reply : NoticeChans)
  | replyNotice (cl : ClusterId) (chan : BitVec 5) (m : ReplyTaken)
  | podKeyTransfer (from_ : DevId) (gen : Word) (ok : Bool)
  | bootFailure
  | pcieLinkUp
  | perstDeassert
  | flrComplete (fn : FnId)
  | vfEnable (numVfs : BitVec 6)
  | d3hotEntry (fn : FnId)
  | podSendEnable
  | secureSessionExchange (ok : Bool)
deriving DecidableEq, Repr, Inhabited

end Sys2Proof
end

