-- ==== Sys2Proof/WellFormed.lean ====
section
/-!
DEFINITION. Which commands are terms the manual's encodings allow: the ranges of fields that the operand types do not
carry, and the lengths of fixed-length fields. A command that is not well formed still has its meaning (the checks of
the manual answer it); well-formedness says which terms an encoding can spell.
-/

namespace Sys2Proof

/-- A submission entry: KIND 0 to 7 (16 R417). -/
def SqEntry.wf (e : SqEntry) : Bool := decide (e.kind.toNat ≤ 7)

/-- A work item is 64 bytes; its level is 0, 1 or 2 (03 R69, 04 R116); rows are cluster rows 0 to 1023. -/
def WorkItem.wf (i : WorkItem) : Bool :=
  decide (i.bytes.length = 64) && decide (i.level ≤ 2) && i.rows.all (fun r => r.rows.all (fun k => decide (k < 1024)))

/-- A tray packet carries at most 1,024 payload bytes and 65,535 of LEN (10 R271). -/
def TrayHdr.wf (h : TrayHdr) : Bool := decide (h.len.toNat ≤ 4096)

/-- A capsule names one routing entry per stage (16 R419). -/
def Capsule.wf (c : Capsule) : Bool := decide (c.routing.length < 65536) && decide (c.body.segments.length < 2 ^ 32)

/-- A pod message carries LEN payload bytes (11 R301). -/
def PodMsg.wf (m : PodMsg) : Bool := decide (m.payload.length = m.hdr.len.toNat)

/-- A Tumas frame has at most 255 segments (12 R325). -/
def Frame.wf (f : Frame) : Bool := decide (f.segments.length ≤ 255)

/-- A table write of the code-length form: a latent slot has 256 lengths in 128 bytes (06 R158, 09 R247). -/
def LatentSlotCopy.wf (l : LatentSlotCopy) : Bool := decide (l.lengths.length = 128)

/-- The terms the encodings allow. -/
def Instr.wf (i : Instr) : Bool :=
  match i with
  | .loop _ count _ => count != 0
  | .donewq _ status => decide (status.toNat < 0x12)
  | .barrier _ _ scope => scope != 3
  | .waitch _ _ _ count _ _ => decide (1 ≤ count.toNat) && decide (count.toNat ≤ 64)
  | .load c | .store c | .streamArm c | .streamStop c | .matmul c | .attend c | .vector c | .norm c | .reduce c
  | .topk c | .send c | .recv c | .convert c | .gather c | .digest c => decide (c.flags.toNat % 16 = 0)
  | .workItemPost _ item => item.wf
  | .segmentEnd seg => decide (seg.level ≤ 2)
  | .rankMoveToSpare _ pos => pos != 15
  | .sqNop _ e | .hostCancel _ e => e.wf
  | .capsule c | .admitCapsule c | .resumeCapsule c | .cancelCapsule c | .sessionEnd c => c.entry.wf && c.capsule.wf
  | .sessionInit m => m.entry.wf
  | .sessionFinish m => m.entry.wf
  | .shard m => m.entry.wf
  | .commit h .. | .sealDigest h .. | .ownerFwd h .. | .mapWrite h .. | .record h .. | .drop h .. | .page h ..
  | .ckpt h .. | .ownerWordCas h .. | .trayLoad h .. | .trayStore h .. | .trayAppend h .. | .chmsg h ..
  | .credit h .. | .lstate h .. | .resp h .. => h.wf
  | .trayForward p => p.hdr.wf
  | .silverSetup h _ latents => h.wf && latents.all LatentSlotCopy.wf
  | .writeMsg m | .readReq m | .readData m | .atomicMsg m | .sendMsg m | .ack m => m.wf
  | .dataFrame f | .idleFrame f | .nakFrame f | .keyFrame f _ | .timeFrame f _ => f.wf
  | .vfEnable n => decide (n.toNat ≤ 63)
  | .registerWrite _ offset _ => decide (offset % 4 = 0) && decide (offset < 2 ^ 26)
  | .rcRead _ offset | .loReadCapture _ offset => decide (offset % 4 = 0) && decide (offset < 2 ^ 26)
  | .ideKm stream _ => decide (stream.toNat ≤ 64)
  | .ideIntegrityFailure stream _ => decide (stream.toNat ≤ 64)
  | .lockInterface vf => vf != 0
  | .negotiateAlgorithms version .. => version == 0x12 || version == 0x13
  | .nop _ | .seta .. | .adda .. | .live .. | .jump .. | .branch .. | .lda .. | .waitwq _ | .commandComplete .. | .waitchTimeout _
  | .regionBarrierRelease .. | .dieBarrierRelease .. | .streamChunkArrival .. | .clusterFault .. | .paceWindowEnd ..
  | .channelRearm .. | .formeLoad _ | .formeImageReadDone _ | .plate _ | .formeUnload _ | .unloadClearDone | .drain _
  | .drainComplete | .replace _ | .formeResume _ | .clusterClr .. | .quiesce .. | .tableWrite .. | .switch ..
  | .codecClr _ | .quotaWrite _ | .quotaRead _ | .t3Bind _ | .tierClr _ | .t1Scrub _ | .refresh .. | .refreshManagement _
  | .channelFail _ | .t3Fault _ | .shelveRetry _ | .galleyExpiry _ | .sessionTimeout _ | .stageAdmission _
  | .confirmation .. | .stageRefusal .. | .append _ | .sealComplete .. | .dropReport _ | .handoverTimeout _
  | .stepBoundary _ | .token _ | .cancellation _ | .retirement .. | .cancel _ | .pause _ | .reqClr _ | .moverClr _
  | .pauseHoldExpiry _ | .shelveComplete .. | .resumeStage _ | .recallComplete .. | .copyout .. | .copyoutComplete ..
  | .partnerMeet _ | .mirrorAckTimeout .. | .silver .. | .checkpointRequest | .ckptAck _ | .abort _ | .mapInstall _
  | .mapRenew _ | .mapLeaseEnd _ | .suspect _ | .pairClr _ | .renewTimer | .grant .. | .deny .. | .leaseExpiry
  | .exclude .. | .admitMsg .. | .join .. | .trayResponseTimeout .. | .nearDisable .. | .nearClr _ | .atomicAdd ..
  | .atomicMin .. | .atomicMax .. | .atomicCas .. | .writeWr _ | .readWr _ | .atomicWr _ | .sendWr _ | .pdAlloc _
  | .pdFree _ | .qpCreate .. | .qpDestroy _ | .qpReset _ | .regRegion _ | .deregRegion _ | .mapPages ..
  | .retransmitTimer _ | .messageLifetimeEnd _ | .identifierEntryExpiry .. | .readTimeout _ | .backoffExpiry _
  | .retryLimitExpiry _ | .contextFetchDone .. | .pageFaultTimeout .. | .qpcBind _ | .rmaClr _ | .linkTrainStart _
  | .linkPhaseTimeout _ | .linkPhaseDone _ | .linkDown .. | .rekey _ | .laserLow .. | .egressDispatch _ | .retrain _
  | .linkClr _ | .linkFarDisable .. | .shaperRefillTick | .shaperCommit _ | .telEn _ | .shaperClr _ | .frameStart
  | .slotEnd | .effectiveSlotEnd _ | .saveComplete _ | .restoreComplete _ | .weightCommit _ | .meterDump _
  | .meterSample | .parkWaits _ | .schedClr _ | .timeExchangeTimer | .alignmentLoss | .arrive .. | .release ..
  | .podBarrierReleaseTick .. | .trace _ | .reproClr _ | .claim _ | .addKey _ | .removeKey _ | .advance _
  | .debugUnlock _ | .recoveryImage .. | .podFetch _ | .podGenesis _ | .tenantUnbind _ | .secClr _ | .reseed
  | .getVersion | .getCapabilities _ | .getDigests | .getCertificate .. | .challenge _ | .getMeasurements ..
  | .dmaFailure _ | .enable _ | .disable _ | .faultEn _ | .sqDoorbell .. | .qpDoorbell .. | .consumerWrite ..
  | .interruptHoldoffExpiry .. | .flr .. | .hotReset | .perst | .warm _ | .shutdown _ | .maintClr _
  | .selftestSliceEnd .. | .pwrgdAssert _ | .pwrgdDeassert | .ready | .thermalTrip _ | .thermalHoldEnd _ | .watchdog
  | .bridge | .rankRelease | .claimGrant | .claimRelease _ | .tmrFix .. | .registerAccessRefused _ | .requestNotice ..
  | .replyNotice .. | .podKeyTransfer .. | .bootFailure | .pcieLinkUp | .perstDeassert | .flrComplete _
  | .d3hotEntry _ | .podSendEnable | .secureSessionExchange _ => true

end Sys2Proof
end

