-- ==== Sys2Proof/Decode.lean ====
section
/-!
DEFINITION. The decoder over the table's bits, and the words of the command store. spec/opcode_table.json gives no row any bits:
commands reach the block as register accesses, packets, frames and events, so no table word spells one. The cluster's commands are
words of the command store (03 R72, R73, *Control commands*): `commandWord` writes one and `commandOf` reads it.
-/

namespace Sys2Proof

/-- The command that the low `nbits` bits of `w` spell by the table's bits: the table gives no row bits, so none. -/
def decodeTableWord (nbits w : Nat) : Option Instr :=
  match nbits, w with
  | _, _ => none

/-! ### Command words (03 R72, R73) -/

/-- A command word of opcode `op` whose other fields sum to `v`. -/
def opWord (op v : Nat) : DWord := BitVec.ofNat 64 (op * 2 ^ 56 + v)

/-- The word of a press command: FLAGS, AREG and OFFSET (03 *Press flags*, *Descriptor pointer operand*). -/
def pressWord (op : Nat) (c : PressCmd) : Option DWord :=
  some (opWord op (c.flags.toNat * 2 ^ 48 + c.areg.toNat * 2 ^ 44 + c.offset.toNat))

/-- The command-store word of a command that is one (03 *Command word*, *Control commands*). -/
def commandWord (i : Instr) : Option DWord :=
  match i with
  | .nop _ => some (opWord 0x00 0)
  | .seta _ a v => some (opWord 0x01 (a.toNat * 2 ^ 44 + v.toNat))
  | .adda _ a v => some (opWord 0x02 (a.toNat * 2 ^ 44 + v.toNat))
  | .loop _ n e => some (opWord 0x03 (n.toNat * 2 ^ 32 + e.toNat))
  | .jump _ t => some (opWord 0x04 t.toNat)
  | .waitwq _ => some (opWord 0x05 0)
  | .donewq _ st => some (opWord 0x06 st.toNat)
  | .barrier _ id sc => some (opWord 0x07 (id.toNat * 2 ^ 8 + sc.toNat))
  | .waitch _ a t n m ch =>
    some (opWord 0x08 (a.toNat * 2 ^ 44 + t.toNat * 2 ^ 24 + n.toNat * 2 ^ 8 + m.toNat * 2 ^ 7 + ch.toNat))
  | .live _ id st len e =>
    some (opWord 0x09 (id.toNat * 2 ^ 35 + st.toNat * 2 ^ 24 + len.toNat * 2 ^ 13 + (!e).toNat))
  | .branch _ a t => some (opWord 0x0B (a.toNat * 2 ^ 44 + t.toNat))
  | .lda _ a b o => some (opWord 0x0C (a.toNat * 2 ^ 44 + b.toNat * 2 ^ 40 + o.toNat))
  | .load c => pressWord 0x20 c
  | .store c => pressWord 0x21 c
  | .streamArm c => pressWord 0x22 c
  | .streamStop c => pressWord 0x22 c
  | .matmul c => pressWord 0x30 c
  | .attend c => pressWord 0x38 c
  | .vector c => pressWord 0x40 c
  | .norm c => pressWord 0x41 c
  | .reduce c => pressWord 0x48 c
  | .topk c => pressWord 0x49 c
  | .send c => pressWord 0x50 c
  | .recv c => pressWord 0x51 c
  | .convert c => pressWord 0x58 c
  | .gather c => pressWord 0x60 c
  | .digest c => pressWord 0x68 c
  | _ => none

/-- The command that a command-store word names for cluster `cl`; none where R73 makes the stream invalid. `stop`: SUBOP of the
descriptor that a STREAM names is 0x0001; `remote` and `reads` are what the rest of the machine answers a press command. -/
def commandOf (cl : ClusterId) (stop : Bool) (remote : List Byte) (reads : ReadOutcome) (w : DWord) : Option Instr :=
  let zero (lo n : Nat) : Bool := w.extractLsb' lo n == 0
  let areg : BitVec 4 := w.extractLsb' 44 4
  let value : Word := w.extractLsb' 0 32
  let index : BitVec 14 := w.extractLsb' 0 14
  let c : PressCmd := { cl := cl, flags := w.extractLsb' 48 8, areg := areg, offset := value, remote := remote, reads := reads }
  let press (i : Instr) : Option Instr := if zero 48 4 && zero 32 12 then some i else none
  let op := (w.extractLsb' 56 8).toNat
  if decide (op < 0x20) && !zero 48 8 then none else
  match op with
  | 0x00 => if zero 0 48 then some (.nop cl) else none
  | 0x01 => if zero 32 12 then some (.seta cl areg value) else none
  | 0x02 => if zero 32 12 then some (.adda cl areg value) else none
  | 0x03 => if zero 14 18 && !zero 32 16 then some (.loop cl (w.extractLsb' 32 16) index) else none
  | 0x04 => if zero 14 34 then some (.jump cl index) else none
  | 0x05 => if zero 0 48 then some (.waitwq cl) else none
  | 0x06 => if zero 8 40 && decide ((w.extractLsb' 0 8).toNat < 0x12) then some (.donewq cl (w.extractLsb' 0 8)) else none
  | 0x07 =>
    if zero 16 32 && zero 2 6 && w.extractLsb' 0 2 != 3 then some (.barrier cl (w.extractLsb' 8 8) (w.extractLsb' 0 2)) else none
  | 0x08 =>
    if zero 16 8 && zero 5 2 && decide (1 ≤ (w.extractLsb' 8 8).toNat) && decide ((w.extractLsb' 8 8).toNat ≤ 64) then
      some (.waitch cl areg (w.extractLsb' 24 20) (w.extractLsb' 8 8) (w.extractLsb' 7 1 == 1) (w.extractLsb' 0 5))
    else none
  | 0x09 =>
    if zero 40 8 && zero 1 12 then
      some (.live cl (w.extractLsb' 35 5) (w.extractLsb' 24 11) (w.extractLsb' 13 11) (w.extractLsb' 0 1 == 0))
    else none
  | 0x0B => if zero 14 30 then some (.branch cl areg index) else none
  | 0x0C => if zero 32 8 then some (.lda cl areg (w.extractLsb' 40 4) value) else none
  | 0x20 => press (.load c)
  | 0x21 => press (.store c)
  | 0x22 => press (if stop then .streamStop c else .streamArm c)
  | 0x30 => press (.matmul c)
  | 0x38 => press (.attend c)
  | 0x40 => press (.vector c)
  | 0x41 => press (.norm c)
  | 0x48 => press (.reduce c)
  | 0x49 => press (.topk c)
  | 0x50 => press (.send c)
  | 0x51 => press (.recv c)
  | 0x58 => press (.convert c)
  | 0x60 => press (.gather c)
  | 0x68 => press (.digest c)
  | _ => none

end Sys2Proof
end

