-- ==== Sys2Proof/Config.lean ====
section
/-!
DEFINITION. What an implementation fixes and what the manual leaves open: the free values (opaque: nothing can be
proved of one) and the published functions whose definitions stand outside the manual (uninterpreted).
-/

namespace Sys2Proof

/-- The free value of a case byte that no live range kept (R21): log entry 5. -/
opaque Config.freeByte : Nat → Byte
/-- A fresh 32-bit value the random generator or another unstated source supplies: log entry 6. -/
opaque Config.freeWord : Nat → Word
/-- A fresh 64-bit value (pair-secret identifiers, draws of the generator): log entry 6. -/
opaque Config.freeDWord : Nat → DWord
/-- A fresh 384-bit value (nonces, measurements the manual does not fix): log entry 6. -/
opaque Config.freeDigest : Nat → Digest
/-- The tenant that a context's host-owned queue pairs serve, which the manual leaves open (R333): log entry 210. -/
opaque Config.ctxTenant : BitVec 6 → BitVec 16
/-- Bytes of a firmware message by its kind, a form the manual leaves open: log entry 208. -/
opaque Config.fwSize : Nat → Nat
/-- SHA-384 of this device's identity public keys, SEC_DEVICE0 to 11: fixed at manufacture, its value unstated. -/
opaque Config.deviceDigest : Digest
/-- SHA-384, a published standard the manual names and does not define: uninterpreted (log entry 7). -/
opaque Config.sha384 : List Byte → Digest

/-- HKDF-Expand, the key derivation of the manual's key hierarchy (R389): parent, label with context, length; uninterpreted
(log entry 7). -/
opaque Config.hkdf : List Byte → List Byte → Nat → List Byte
/-- PRK, extracted from this device's saffron secret (R389): a secret, its value unstated (log entry 7). -/
opaque Config.prk : List Byte
/-- A signature block of the form of R43: both signatures of a message, by the pair that a seed yields; uninterpreted
(log entry 7). -/
opaque Config.signBlock : List Byte → List Byte → List Byte
/-- AES-256-XTS of one data unit: key, tweak, plain bytes (R182, R195); uninterpreted (log entry 7). -/
opaque Config.aesXts : List Byte → Nat → List Byte → List Byte
/-- AES-256-GMAC, 64 bits of it: key, nonce, bytes (R183, R195); uninterpreted (log entry 7). -/
opaque Config.gmac : List Byte → List Byte → List Byte → DWord
/-- The 28 check symbols of the Reed-Solomon code over GF(2^16) (R183); uninterpreted (log entry 7). -/
opaque Config.rsChecks : List Byte → List Byte
/-- The nonce that a T1 MAC forms from device address and key domain (R183), in a form the manual leaves open (log entry 173). -/
opaque Config.t1Nonce : Nat → Nat → List Byte
/-- The nonce that a shelf tag forms from what R195 binds, in a form the manual leaves open (log entry 173). -/
opaque Config.shelfNonce : List Nat → List Byte

/-- 64 KiB, the frame of T1 and the page slot (R180, R210). -/
abbrev Config.frameBytes : Nat := 65536
/-- Frames that one LPDDR6 channel provides (R180). -/
abbrev Config.framesPerChannel : Nat := 274658
/-- Frames of the firmware reserve (R181). -/
abbrev Config.reserveFrames : Nat := 32768
/-- Time-base ticks in a millisecond (R3: 1.6 ns a tick). -/
abbrev Config.tbPerMs : Nat := 625000
/-- Part code and release of DEV_ID (R447). -/
abbrev Config.devId : Word := 0x0D740100

end Sys2Proof
end

