-- ==== Sys2Proof/Machine/Tab.lean ====
section
/-!
DEFINITION. The two containers of the state: `Tab`, a table keyed by numbers in strictly rising key order, and `Mem`,
a byte memory in the canonical form of Host.Cell pairs (addresses strictly rising, no entry equal to what an unlisted
address reads as, which is zero: R186 for T1, R79 for a case, R203 and R474 for cleared SRAM).
-/

namespace Sys2Proof.Machine

/-- A table: entries in strictly rising key order. -/
abbrev Tab (V : Type) := List (Nat × V)

/-- The entry at `k`. -/
def Tab.find {V : Type} (t : Tab V) (k : Nat) : Option V :=
  match t with
  | [] => none
  | (k', v) :: rest => if k' = k then some v else Tab.find rest k

/-- The entry at `k`, or the value `d` that an absent entry stands for. -/
def Tab.getD {V : Type} (t : Tab V) (k : Nat) (d : V) : V := (Tab.find t k).getD d

/-- Put `v` at `k`. -/
def Tab.put {V : Type} (t : Tab V) (k : Nat) (v : V) : Tab V :=
  match t with
  | [] => [(k, v)]
  | (k', v') :: rest =>
    if k < k' then (k, v) :: (k', v') :: rest
    else if k = k' then (k, v) :: rest
    else (k', v') :: Tab.put rest k v

/-- Remove the entry at `k`. -/
def Tab.del {V : Type} (t : Tab V) (k : Nat) : Tab V := t.filter (fun e => e.1 != k)

/-- Change the entry at `k` (reading `d` where it is absent). -/
def Tab.upd {V : Type} (t : Tab V) (k : Nat) (d : V) (f : V → V) : Tab V :=
  Tab.put t k (f (Tab.getD t k d))

/-- Change the entry at `k` only where there is one. -/
def Tab.mod {V : Type} (t : Tab V) (k : Nat) (f : V → V) : Tab V :=
  t.map (fun e => if e.1 = k then (e.1, f e.2) else e)

/-- Keys strictly rise. -/
def Tab.wf {V : Type} (t : Tab V) : Bool :=
  match t with
  | [] => true
  | [_] => true
  | (a, _) :: (b, v) :: rest => decide (a < b) && Tab.wf ((b, v) :: rest)

/-- The lowest key from `k` on that the table does not hold, trying at most `fuel` keys. -/
def Tab.freshFrom {V : Type} (t : Tab V) : Nat → Nat → Option Nat
  | 0, _ => none
  | fuel + 1, k => if (Tab.find t k).isNone then some k else Tab.freshFrom t fuel (k + 1)

/-- A byte memory. -/
abbrev Mem := List Host.Cell

/-- The byte at `a`; an unlisted address reads as zero. -/
def Mem.byte (m : Mem) (a : Nat) : Byte := Tab.getD m a 0

/-- Write one byte, keeping the canonical form: a zero leaves no entry. -/
def Mem.set (m : Mem) (a : Nat) (v : Byte) : Mem :=
  if v = 0 then Tab.del m a else Tab.put m a v

/-- Write `bs` from address `a` on. -/
def Mem.store (m : Mem) (a : Nat) (bs : List Byte) : Mem :=
  match bs with
  | [] => m
  | b :: rest => Mem.store (Mem.set m a b) (a + 1) rest

/-- The memory `m` with the bytes that `top` lists over it. -/
def Mem.over (m top : Mem) : Mem := top.foldl (fun m c => Mem.set m c.1 c.2) m

/-- The `n` bytes from address `a` on. -/
def Mem.load (m : Mem) (a n : Nat) : List Byte := (List.range n).map (fun i => Mem.byte m (a + i))

/-- Every byte of `lo ≤ address < hi` reads zero afterwards. -/
def Mem.clear (m : Mem) (lo hi : Nat) : Mem := m.filter (fun c => decide (c.1 < lo) || decide (hi ≤ c.1))

/-- The canonical form: addresses strictly rise and no listed byte is zero. -/
def Mem.wf (m : Mem) : Bool := Tab.wf m && m.all (fun c => c.2 != 0)

/-- Insert behind every element that `le` puts at or before `x`. -/
def insertBy {A : Type} (le : A → A → Bool) (x : A) : List A → List A
  | [] => [x]
  | y :: rest => if le y x then y :: insertBy le x rest else x :: y :: rest

/-- A list in the order of `le`; elements that `le` does not part keep their order. -/
def sortBy {A : Type} (le : A → A → Bool) (l : List A) : List A := l.foldl (fun r x => insertBy le x r) []

/-- Little-endian value of a list of bytes (R4). -/
def leNat (bs : List Byte) : Nat :=
  match bs with
  | [] => 0
  | b :: rest => b.toNat + 256 * leNat rest

/-- The `n` little-endian bytes of `v` (R4). -/
def leBytes (n v : Nat) : List Byte :=
  match n with
  | 0 => []
  | n + 1 => BitVec.ofNat 8 v :: leBytes n (v / 256)

/-- The 32-bit little-endian word at `a`. -/
def Mem.word (m : Mem) (a : Nat) : Word := BitVec.ofNat 32 (leNat (Mem.load m a 4))

end Sys2Proof.Machine
end

