-- ==== Sys2Proof/Machine/St/Cluster.lean ====
section
/-!
DEFINITION. The state of the clusters (03), the scheduler (13) and the repeatability unit (14).
-/

namespace Sys2Proof.Machine

/-- A stream prefetcher (03 R80, R81). -/
structure Stream where
  /-- the source's space (03, *Spaces*). -/
  space : Nat
  /-- the address ranges of the source, as (address, length), in stream order (03 R80). -/
  ranges : List (Nat × Nat)
  /-- bytes of the source (03 R80). -/
  total : Nat
  chunk : Nat
  ringStart : Nat
  ringLen : Nat
  maxOut : Nat
  format : Byte
  slug : Bool
  table : Nat
  /-- slug-coded source: elements whose slugs have not arrived (03 R80, 06 R152). -/
  left : Nat
  /-- chunks that a waiting consumer needs (03 R80, R82). -/
  want : Nat
  /-- next chunk to arrive (03 R80). -/
  next : Nat
  /-- chunks consumed (03 R80). -/
  taken : Nat
  /-- bytes of the visible, unconsumed chunks, oldest first (03 R80). -/
  visible : List (List Byte)
  /-- lines granted to the stream so far, those of the chunks that have arrived included (03 R81). -/
  asked : Nat
  /-- chunks whose read failed, by chunk number: a command that consumes one gets no data (07 R191). -/
  bad : List Nat
deriving DecidableEq, Repr, Inhabited

/-- One channel of a cluster (03 R83 to R87). -/
structure Chan where
  entry : ChanEntry
  /-- credits held: send channels (03 R83). -/
  credits : Nat
  /-- messages present in the slot array, oldest first: receive channels (03 R83). -/
  queue : List (List Byte)
  /-- next slot of the array a message is written to (03 R83). -/
  slot : Nat
  /-- transport's code of a broken channel (03 R87). -/
  broken : Option Status
  /-- POD receive channels: messages that arrived ahead of the next slot, by slot (11 R311). -/
  ahead : Tab (List Byte)
  /-- POD receive channels: slot index of the next message in order (11 R311). -/
  order : Nat
deriving DecidableEq, Repr, Inhabited

/-- One galley row as a STORE hands it to the state mover (03 R75, 08 R212). -/
structure GalleyRow where
  req : ReqId
  pos : Nat
  step : Word
  /-- speculative: it goes to the serving member only (08 R212). -/
  spec : Bool
  bytes : List Byte
deriving DecidableEq, Repr, Inhabited

/-- One effect of an issued press command, applied when it leaves EMIT (03 R20, R70). -/
inductive Eff where
  /-- the accumulator reads zero: the command before carried no CHAIN (03 R76). -/
  | accZ
  | caseW (off : Nat) (bytes : List Byte)
  | accW (off : Nat) (bytes : List Byte)
  | mailW (off : Nat) (bytes : List Byte)
  /-- a slice, at region × 2^27 + offset. -/
  | sliceW (off : Nat) (bytes : List Byte)
  /-- T1, at an offset of the partition's space. -/
  | t1W (addr : Nat) (bytes : List Byte)
  | trayW (addr : Nat) (bytes : List Byte)
  /-- galley rows of a layer (03 R75). -/
  | galley (layer : Nat) (rows : List GalleyRow)
  | send (chan : Nat) (msgs : List (List Byte))
  /-- a message of the channel has been read (03 R83). -/
  | recv (chan : Nat)
  /-- saturation and NaN counts of a row (04 R114). -/
  | sat (row : Nat) (sats nans : Nat)
  /-- digest contribution of a row (14 R375). -/
  | dig (row : Nat) (h : BitVec 128)
  | arm (id : Nat) (st : Stream)
  | stop (id : Nat)
  /-- chunks of a stream consumed (03 R80). -/
  | take (id : Nat) (n : Nat)
  /-- bytes moved through slices, T1 and peers' T1, for the meter (13 R357, R358). -/
  | meter (t0 t1 t2 : Nat)
  /-- fallback event of an ATTEND (05 R125, R147). -/
  | fallback (arg : Byte)
  /-- a slug of a galley page in this T1 frame failed R163: CRC or a later step; the page is retired (05 R143, 06 R164). -/
  | badFrame (crc : Bool) (frame : Nat)
deriving DecidableEq, Repr, Inhabited

/-- An issued press command that has not left EMIT (03 R20, R70, R89). -/
structure InFlight where
  index : Nat
  opcode : Byte
  flags : BitVec 8
  maxBeats : Nat
  effs : List Eff
  /-- entropy table slots that its slugs name, as TABLE × 2 + SLOT (06 R165). -/
  tables : List Nat
deriving DecidableEq, Repr, Inhabited

/-- Why a compositor waits (03 R84; 01 R25, R26). -/
inductive Wait where
  | none
  | workItem
  | barrier (id : Byte) (scope : BitVec 2)
  /-- WAITCH: register, channel, count, credits, tick of the timeout, the index after it (03, *Control commands*). -/
  | channel (areg : BitVec 4) (chan : Nat) (count : Nat) (credits : Bool) (until_ : Option Nat)
  /-- implicit wait of a SEND or RECV (03 R84). -/
  | implicit (chan : Nat)
deriving DecidableEq, Repr, Inhabited

/-- A work item that has ended, as firmware finds it: its status and what the counter and digest files held (03 DONEWQ; 04
R116; 14 R376; log entry 82). -/
structure Ended where
  item : WorkItem
  code : Byte
  sat : Tab (Nat × Nat)
  dig : Tab (BitVec 128)
  /-- FALLBACK events of the item's ATTENDs: the request, or every request of the item, and ARG (05 R125, R147). -/
  fallbacks : List (Option ReqId × Byte)
deriving DecidableEq, Repr, Inhabited

/-- One cluster (03). -/
structure Cluster where
  /-- CLUSTER_STATUS.STATE, 4 (03 CLUSTER registers); reset 0x0 OFF. -/
  state : BitVec 4 := 0
  /-- CLUSTER_STATUS.LAST_OP, 8 (03); reset 0x00. -/
  lastOp : Byte := 0
  /-- CLUSTER_CTRL.QUIESCE, 1 (03); reset 0. -/
  quiesce : Bool := false
  /-- CLUSTER_PC[13:0], index of the next command (03); reset 0 (2). -/
  pc : Nat := 0
  /-- entry index (03 R92); reset 0 (2). -/
  entry : Nat := 0
  /-- command store, 16384 × 64 (03 R67); reset zero, cleared by R203. -/
  store : Tab DWord := []
  /-- command-store indices that hold commands (03 R73); reset none. -/
  commands : List Nat := []
  /-- case, 2 MiB (03); reset zero. -/
  case_ : Mem := []
  /-- written bit per KiB of the case, 2048 (03 R79); reset clear. -/
  caseWritten : List Nat := []
  /-- case bytes whose content no live range kept across a command boundary are not preserved: ranges kept, as (start,
  end); bytes outside them that an earlier command wrote are open (01 R21); reset none. -/
  caseKept : List (Nat × Nat) := []
  /-- accumulator, 512 KiB (03); reset zero. -/
  acc : Mem := []
  /-- mailbox, 64 KiB (03 R68); reset zero. -/
  mailbox : Mem := []
  /-- work-queue producer index (03 R69); reset 0. -/
  wqProd : Nat := 0
  /-- work-queue consumer index (03 R69); reset 0. -/
  wqCons : Nat := 0
  /-- work items posted and not taken, by ring entry (03 R69); reset none. -/
  wqItems : Tab WorkItem := []
  /-- work item in progress (03 R69); reset none. -/
  item : Option WorkItem := none
  /-- A0 to A15, 32 each (03); reset 0 (2). -/
  aregs : Tab Word := []
  /-- loop stack: start, END, remaining (03 LOOP); reset empty. -/
  loops : List (Nat × Nat × Nat) := []
  /-- the previous press command carried CHAIN (03 R76); reset no. -/
  chain : Bool := false
  /-- open live ranges by ID: start byte, length (03 R78); reset none. -/
  live : Tab (Nat × Nat) := []
  /-- armed streams by ID (03 R80); reset none. -/
  streams : Tab Stream := []
  /-- the stream last granted a read slot (03 R81); reset 31, so that the order begins at stream 0
  (DESIGN CHOICE, log entry 151). -/
  lastGrant : Nat := 31
  /-- channel table by channel (03 R83); reset empty. -/
  chans : Tab Chan := []
  /-- why the compositor waits (03 R84); reset nothing. -/
  wait : Wait := Wait.none
  /-- issued press commands in issue order, at most four (03, *The press*); reset none. -/
  press : List InFlight := []
  /-- CLUSTER_BEATS, 64 (03); reset 0. -/
  beats : DWord := 0
  /-- CLUSTER_BREACH, 32 (03 R89); reset 0 (2). -/
  breach : Word := 0
  /-- CLUSTER_ECC, 32 (03 R67); reset 0 (2). -/
  ecc : Word := 0
  /-- CLUSTER_STALE, 32 (03 R86); reset 0 (2). -/
  stale : Word := 0
  /-- CLUSTER_FAULT.INDEX, 14 (03); reset 0. -/
  faultIndex : BitVec 14 := 0
  /-- CLUSTER_FAULT.CAUSE, 4 (03); reset 0x0. -/
  faultCause : BitVec 4 := 0
  /-- CLUSTER_PACE.COUNT, 18 (03 R93); reset 0. -/
  paceCount : BitVec 18 := 0
  /-- CLUSTER_PACE.VALID, 1 (03 R93); reset 0. -/
  paceValid : Bool := false
  /-- CLUSTER_PACE.SLOW, 1 (03 R93); reset 0. -/
  slow : Bool := false
  /-- consecutive VALID and SLOW windows (14 R368); reset 0. -/
  slowRun : Nat := 0
  /-- tick of the last pace window end (03 R93); reset 0. -/
  paceAt : Nat := 0
  /-- beats of the work item in progress (13 R347); reset 0. -/
  itemBeats : Nat := 0
  /-- saturation counter file: row to (saturations, NaNs), 1024 × 2 × 32 (04 R114); reset 0. -/
  sat : Tab (Nat × Nat) := []
  /-- digest file, 1024 × 128 (14 R375); reset 0. -/
  dig : Tab (BitVec 128) := []
  /-- digested commands of this work item (14 R383 SEQ); reset 0. -/
  digSeq : Nat := 0
  /-- work items taken since TRACE was set (14 R383 ITEM); reset 0. -/
  traceItems : Nat := 0
  /-- context the cluster is bound to (13 R341); reset none. -/
  ctx : Option Nat := none
  /-- divert table: channel, context, tag (13 R348); reset none. -/
  divert : List (Nat × Nat × BitVec 16) := []
  /-- a switch waits for the next switch point; the tick of the slot end it overruns from (13 R354); reset none. -/
  switchAt : Option Nat := none
  /-- the cluster saves (true) or restores (false), to or from this context (13 R347, R356); reset neither. -/
  moving : Option (Bool × Nat) := none
  /-- FALLBACK events of the item: the request, or every request of the item, and ARG (05 R125, R147); reset none. -/
  fallbacks : List (Option ReqId × Byte) := []
  /-- status the current item ended with before DONEWQ, when a fault ended it (03 R74); reset none. -/
  ended : Option Status := none
  /-- items that have ended and whose segment has not (03 DONEWQ, 04 R115); reset none. -/
  done : List Ended := []
  /-- the accepted request notice that the cluster's ATTEND serves: its sender and STEP (05 R131, R143); reset none. -/
  notice : Option (DevId × Word) := none
  /-- events posted to the control complex (03 EVENT flag); reset 0. -/
  events : Nat := 0
deriving DecidableEq, Repr, Inhabited

/-- A saved context of a cluster (13 R347). -/
structure Saved where
  pc : Nat
  aregs : Tab Word
  loops : List (Nat × Nat × Nat)
  item : Option WorkItem
  itemBeats : Nat
  sat : Tab (Nat × Nat)
  /-- the item's digest entries, its digested commands and its FALLBACK events, so that a save changes none of them (14 R364,
  R375, R383; log entry 183). -/
  dig : Tab (BitVec 128)
  digSeq : Nat
  fallbacks : List (Option ReqId × Byte)
  mailbox : Mem
  wait : Wait
  /-- receive channels with their slot arrays and counters (13 R347). -/
  rx : Tab Chan
  /-- full mode: case, its written KiB, accumulator, chain, live ranges, streams (13 R347). -/
  full : Bool
  case_ : Mem
  caseWritten : List Nat
  caseKept : List (Nat × Nat)
  acc : Mem
  chain : Bool
  live : Tab (Nat × Nat)
  streams : Tab Stream
  /-- parked at a remote wait (13 R353). -/
  parked : Bool
deriving DecidableEq, Repr, Inhabited

/-- One context's scheduling state (13). -/
structure Ctx where
  /-- vt, 64 (13 R350); reset 0. -/
  vt : DWord := 0
  /-- weight in force, 8 (13 R342, R352); reset 0 (2). -/
  weight : Nat := 0
  /-- SCHED_WEIGHT, staged, 8 (13 R352); reset 0 (2). -/
  staged : Byte := 0
  /-- SCHED_DEBT, D(c) in tb (13 R354); reset 0. -/
  debt : Nat := 0
  /-- SCHED_BEATS, 64 (13 R360); reset 0 (2). -/
  beats : DWord := 0
  /-- SCHED_OVERRUNS, 32 (13 R360); reset 0 (2). -/
  overruns : Word := 0
  /-- SCHED_PARKS, 32 (13 R360); reset 0 (2). -/
  parks : Word := 0
  /-- SCHED_DEBT_DROP, 32 (13 R354, R360); reset 0 (2). -/
  debtDrop : Word := 0
  /-- the effective end of the slot has passed (13 R354); reset no. -/
  pastEnd : Bool := false
  /-- ready in the current slot (13 R350); reset no. -/
  wasReady : Bool := false
  /-- largest overrun counted at the slot end `overrunAt` (13 R354); reset 0. -/
  overrunMax : Nat := 0
  /-- the tick of the slot end whose overruns were counted last (13 R354); reset 0. -/
  overrunAt : Nat := 0
deriving DecidableEq, Repr, Inhabited

/-- A meter entry (13 R357), counters modulo 2^64. -/
structure Meter where
  beats : DWord := 0
  t0 : DWord := 0
  t1 : DWord := 0
  t2 : DWord := 0
  t3 : DWord := 0
  t1PageMs : DWord := 0
  t3PageMs : DWord := 0
  near : DWord := 0
  far : DWord := 0
deriving DecidableEq, Repr, Inhabited

/-- The SCHED block (13). -/
structure Sched where
  /-- SCHED_STATUS.BUSY, 1 (13 R360); reset 0. -/
  busy : Bool := false
  /-- SCHED_STATUS.CODE, 8 (13 R360); reset 0x00. -/
  code : Byte := 0
  /-- SCHED_STATUS.SLOT, 8 (13 R360); reset 0x00. -/
  slot : Nat := 0
  /-- SCHED_FRAME, 64 (13 R343, R360); reset 0 (2). -/
  frame : DWord := 0
  /-- a forme is loaded, so slots follow its table (13 R343); reset no. -/
  running : Bool := false
  /-- tick at which the current slot began (13 R343); reset 0. -/
  slotStart : Nat := 0
  /-- SCHED_CTX_SEL, 6 (13 R360); reset 0 (2). -/
  ctxSel : FnId := 0
  /-- SCHED_CTRL.PARK_WAITS, 1 (13 R353, R360); reset 1. -/
  parkWaits : Bool := true
  /-- a weight commit waits for the frame start (13 R352); reset no. -/
  commitPending : Bool := false
  /-- a meter dump waits for its tick (13 R359); reset none. -/
  dumpAt : Option Nat := none
  /-- SCHED_METER_LO/HI, 64 (13 R360); reset 0 (2). -/
  meterLo : Word := 0
  meterHi : Word := 0
  /-- SCHED_METER_TICK, 64 (13 R359); reset 0 (2). -/
  meterTick : DWord := 0
  /-- contexts by number (13 R340); reset each at its reset values. -/
  ctxs : Tab Ctx := []
  /-- save areas: cluster × 64 + context (13 R347); reset none. -/
  saves : Tab Saved := []
  /-- completion rings: context to (cluster, channel, message), in arrival order (13 R348); reset empty. -/
  rings : Tab (List (Nat × Nat × List Byte)) := []
  /-- barrier arrivals: key context × 1024 + scope × 256 + ID; arrived clusters (13 R349); reset none. -/
  arrivals : Tab (List Nat) := []
  /-- regions whose region barrier of a die-barrier instance has released: key context × 256 + ID (01 R26). -/
  dieRegions : Tab (List Nat) := []
  /-- clusters whose barrier released while they were unbound: cluster × 64 + context (13 R349). -/
  releasedAway : List Nat := []
  /-- meter entries by tenant (13 R357); reset none. -/
  meters : Tab Meter := []
  /-- the overflow entry, once used (13 R357); reset none. -/
  overflow : Option Meter := none
  /-- tick of the last meter sample (13 R357); reset 0. -/
  sampledAt : Nat := 0
  /-- work items that wait for their context's binding: cluster × 64 + context, oldest first (13 R350, R351); reset none. -/
  waiting : Tab (List WorkItem) := []
deriving DecidableEq, Repr, Inhabited

/-- A pod-barrier instance (14 R373). -/
structure PodBarrier where
  part : Nat
  ctx : Nat
  coord : DevId
  participants : Nat
  /-- instance number (14 R373). -/
  inst : Nat
  /-- this device has sent ARRIVE for the instance (14 R373). -/
  sent : Bool
  /-- coordinator: devices arrived (14 R373). -/
  arrived : List DevId
  /-- coordinator: devices arrived at the next instance, while the release tick of this one is still to come (14 R373). -/
  early : List DevId
  /-- RELEASE received and its tick (14 R373). -/
  release : Option Nat
deriving DecidableEq, Repr, Inhabited

/-- A shard run by this device (14 R384, 16 R429). -/
structure ShardRun where
  ring : RingRef
  hostTag : DWord
  shard : BitVec 16
  step : Word
  consumer : DevId
  primary : DevId
  /-- message identifier of the claim's ATOMIC (14 R385). -/
  claim : Option (BitVec 48)
deriving DecidableEq, Repr, Inhabited

/-- The REPRO block (14). -/
structure Repro where
  /-- REPRO_STATUS.ALIGNED, 1 (14 R371, R386); reset 0. -/
  aligned : Bool := false
  /-- the counter has taken its cold-start step (14 R371); reset no. -/
  stepped : Bool := false
  /-- REPRO_TB_OFFSET, 16 (14 R386); reset 0 (2). -/
  offset : BitVec 16 := 0
  /-- REPRO_TB_STEPS, 32 (14 R386); reset 0 (2). -/
  steps : Word := 0
  /-- REPRO_POD_LEAD, 17 (14 R386); reset 3125. -/
  podLead : Nat := 3125
  /-- REPRO_LATE, 32 (14 R386); reset 0 (2). -/
  late : Word := 0
  /-- REPRO_BARRIERS, 32 (14 R386); reset 0 (2). -/
  barriers : Word := 0
  /-- REPRO_BARRIER_FAIL, 32 (14 R386); reset 0 (2). -/
  barrierFail : Word := 0
  /-- REPRO_SLOW, 32 (14 R386); reset 0 (2). -/
  slow : Word := 0
  /-- REPRO_SUBST, 32 (14 R386); reset 0 (2). -/
  subst : Word := 0
  /-- REPRO_CLAIMS_WON, 32 (14 R386); reset 0 (2). -/
  claimsWon : Word := 0
  /-- REPRO_CLAIMS_LOST, 32 (14 R386); reset 0 (2). -/
  claimsLost : Word := 0
  /-- REPRO_COLOPHONS, 32 (14 R386); reset 0 (2). -/
  colophons : Word := 0
  /-- REPRO_EV_LOST, 32 (14 R386); reset 0 (2). -/
  evLost : Word := 0
  /-- REPRO_CTRL.TRACE, 1 (14 R383, R386); reset 0. -/
  trace : Bool := false
  /-- REPRO_TRACE_LO/HI, 64 (14 R386); reset 0 (2). -/
  traceLo : Word := 0
  traceHi : Word := 0
  /-- REPRO_TRACE_SIZE, 5 (14 R386); reset 0 (2). -/
  traceSize : BitVec 5 := 0
  /-- REPRO_TRACE_PROD, 25 (14 R386, 16 R415); reset 0 (2). -/
  traceProd : BitVec 25 := 0
  /-- REPRO_TRACE_CONS, 25 (14 R386); reset 0 (2). -/
  traceCons : BitVec 25 := 0
  /-- REPRO_TRACE_DROP, 32 (14 R386); reset 0 (2). -/
  traceDrop : Word := 0
  /-- rank maps: region × 16 + logical position to physical position (14 R367); reset none. -/
  lmap : Tab Nat := []
  /-- regions whose spare is available (14 R367); reset none. -/
  spare : List Nat := []
  /-- latest valid exchange by plane: offset and tick (14 R371); reset none. -/
  planes : Tab (Int × Nat) := []
  /-- tick of the last valid exchange (14 R372); reset none. -/
  lastExchange : Option Nat := none
  /-- exchanges in a row whose median exceeded ±2 tb (14 R372); reset 0. -/
  badRun : Nat := 0
  /-- tick of the last slew of one tick (14 R371); reset none. -/
  lastSlew : Option Nat := none
  /-- ticks by which the counter has still to move, forward when positive (14 R371); reset 0. -/
  slewLeft : Int := 0
  /-- tick of the last TIME exchange start (14 R371); reset 0. -/
  timeAt : Nat := 0
  /-- tick at which ALIGNED last set (15 R402); reset none. -/
  alignedAt : Option Nat := none
  /-- pod barriers by ID (14 R373); reset none. -/
  pods : Tab PodBarrier := []
  /-- shards in progress (14 R384, 16 R429); reset none. -/
  shards : List ShardRun := []
deriving DecidableEq, Repr, Inhabited

end Sys2Proof.Machine
end

