-- ==== Sys2Proof/Machine/St/Device.lean ====
section
/-!
DEFINITION. The device-wide state: the DEV, MAINT and SEC blocks (15, 17, 18), the pins and the board (19), and the
host interface (16). A field's docstring names its register, the rule and, after 'reset', its value after reset;
'(2)' marks a value the manual does not state (log entry 2).
-/

namespace Sys2Proof.Machine

/-- A TMR register: three copies (R444). -/
structure Tmr where
  /-- first copy, 32 bits (17 R444); reset 0. -/
  a : Word := 0
  /-- second copy, 32 bits (17 R444); reset 0. -/
  b : Word := 0
  /-- third copy, 32 bits (17 R444); reset 0. -/
  c : Word := 0
deriving DecidableEq, Repr, Inhabited

/-- The DEV block (17 R447, R448, R449). -/
structure Dev where
  /-- DEV_IDENT, TMR (17 R447); reset straps, presumed 0 until PWRGD_ASSERT latches them (2). -/
  ident : Tmr := {}
  /-- DEV_CAPS, 32 (17 R447); reset 0. -/
  caps : Word := 0
  /-- DEV_STATUS.READY, 1 (17 R447, R446); reset 0. -/
  ready : Bool := false
  /-- DEV_STATUS.FATAL, 1 (17 R447, R451); reset 0. -/
  fatal : Bool := false
  /-- DEV_SCRATCH by function, 32 each (17 R447); reset 0. -/
  scratch : Tab Word := []
  /-- DEV_ACCESS_ERR by function, 32 each (17 R437, R447); reset 0. -/
  accessErr : Tab Word := []
  /-- DEV_ACCESS_ADDR by function, 32 each (17 R437, R447); reset 0. -/
  accessAddr : Tab Word := []
  /-- DEV_TMR_FIX, 32 (17 R444, R447); reset 0. -/
  tmrFix : Word := 0
  /-- DEV_ERR, 32 (17 R448); reset 0. -/
  err : Word := 0
  /-- DEV_FIRST_ERR, 32 (17 R449); reset 0. -/
  firstErr : Word := 0
  /-- DEV_FIRST_TB, 64 (17 R449); reset 0 (2). -/
  firstTb : DWord := 0
  /-- capture latch by function: offset of the _HI word and its value (17 R438); reset empty. -/
  latch : Tab (Nat × Word) := []
deriving DecidableEq, Repr, Inhabited

/-- What follows a governed stop (R463, R465). -/
inductive AfterStop where
  /-- Nothing waits. -/
  | none
  /-- The thermal hold of R463: at its end a reset of this kind (cold when `true`). -/
  | thermalHold (cold : Bool)
  /-- After an orderly shutdown: power removal. -/
  | powerOff
  /-- A reset of this cause and kind (R460); `fatal`: it follows a fatal cause (R463). -/
  | reset (cause : Nat) (cold fatal : Bool)
deriving DecidableEq, Repr, Inhabited

/-- The MAINT block and the energy governor (17 R450, R451; 18). -/
structure Maint where
  /-- MAINT_STATUS.CODE, 8 (17 R450); reset 0x00. -/
  code : Byte := 0
  /-- MAINT_STATUS.BUSY, 1 (17 R450); reset 0. -/
  busy : Bool := false
  /-- MAINT_STATUS.PHASE, 4 (17 R450, 18 R458); reset 0x0 START. -/
  phase : BitVec 4 := 0
  /-- MAINT_LAST_RESET, TMR (17 R450); reset KIND 1, CAUSE 1. -/
  lastReset : Tmr := { a := 0x11, b := 0x11, c := 0x11 }
  /-- MAINT_TEMP.NOW, 16 (17 R450); reset 0. -/
  tempNow : BitVec 16 := 0
  /-- MAINT_TEMP.PEAK, 16 (17 R450); reset 0. -/
  tempPeak : BitVec 16 := 0
  /-- MAINT_IMON.NOW, 12 (17 R450); reset 0. -/
  imonNow : BitVec 12 := 0
  /-- MAINT_IMON.PEAK, 12 (17 R450); reset 0. -/
  imonPeak : BitVec 12 := 0
  /-- MAINT_SLOPE, 12 (17 R450, 18 R454); reset 0 (2). -/
  slope : BitVec 12 := 0
  /-- MAINT_STOPS, 32 (17 R450, 18 R457); reset 0 (2). -/
  stops : Word := 0
  /-- MAINT_FATAL, 32 (17 R451); reset 0. -/
  fatal : Word := 0
  /-- MAINT_FATAL_TB, 64 (17 R451); reset 0 (2). -/
  fatalTb : DWord := 0
  /-- MAINT_REPAIR, TMR (17 R450, 18 R471); reset 0. -/
  repair : Tmr := {}
  /-- MAINT_ST_RESULT.RUN, 16 (17 R450, 18 R469); reset 0 (2). -/
  stRun : BitVec 16 := 0
  /-- MAINT_ST_RESULT.FAILED, 16 (17 R450, 18 R469); reset 0 (2). -/
  stFailed : BitVec 16 := 0
  /-- MAINT_CLEAR, 16 (17 R450, 18 R474); reset 0 (2). -/
  clearUs : BitVec 16 := 0
  /-- MAINT_GOV.BALLAST, 1 (17 R450, 18 R457); reset 0. -/
  ballast : Bool := false
  /-- start schedule: tick S once armed (18 R455); reset not armed. -/
  armed : Option Nat := none
  /-- MAINT_GOV.RANK, ranks released (17 R450, 18 R455), 8; reset 0. -/
  rank : Nat := 0
  /-- clusters that hold a claim (18 R453, R456); reset none. -/
  claims : List Nat := []
  /-- clusters waiting for a claim (18 R456); reset none. -/
  claimWait : List Nat := []
  /-- tick of the governor's last step (18 R454); reset never. -/
  lastStep : Option Nat := none
  /-- tick since when a claimed cluster holds no work item (18 R456); reset none. -/
  idleSince : Tab Nat := []
  /-- claim steps the two port dies hold, eight each in RUN (18 R453, R457); reset 0 (2). -/
  portSteps : Nat := 0
  /-- what follows the governed stop (18 R463, R465); reset nothing. -/
  after : AfterStop := AfterStop.none
  /-- the last full load since cold start: its SYS_SIZE and BUDGET_MS (18 R468, R469); reset none. -/
  lastLoad : Option (Nat × Option Nat) := none
  /-- self-test slices ended in this shutdown, in running order (18 R467, R468); reset 0. -/
  slices : Nat := 0
  /-- SLICE_FAIL gathered in this shutdown, 64 (18 R471); reset 0. -/
  sliceFail : DWord := 0
  /-- LPDDR6 cursor, 0 to 33 (18 R468); reset 0. -/
  lpCursor : Nat := 0
  /-- new repair entries awaiting writing (18 R473); reset none. -/
  pending : List RepairEntry := []
  /-- the repair record applied at this start, with entries written since (18 R471, R472); reset none. -/
  record : Option RepairRecord := none
  /-- a fatal cause or trip during SHUTDOWN ended self-test (18 R465); reset no. -/
  stAbort : Bool := false
  /-- every reset is cold from step 1 of an orderly shutdown on (18 R460, R466); reset no. -/
  shutdownBegun : Bool := false
  /-- the device has stopped RENEW and emission after a fatal cause or shutdown (18 R463, R466); reset no. -/
  silent : Bool := false
  /-- READY has set since power-good (18 R460); reset no. -/
  everReady : Bool := false
  /-- a fatal-cause reset waits for the lease to expire before joining (18 R463); reset no. -/
  waitLease : Bool := false
  /-- pins PWRGD and PERST# asserted, 1 each (19 R478); reset PWRGD asserted, PERST# not (2). -/
  pwrgd : Bool := true
  /-- pin PERST# is asserted (19 R478); reset no (2). -/
  perst : Bool := false
  /-- pin TEST_MODE, 1 (19, pin table); reset low. -/
  testMode : Bool := false
  /-- pin FATAL# driven low, 1 (19, pin table); reset no. -/
  fatalPin : Bool := false
  /-- pin THERMTRIP# driven low, 1 (19, pin table); reset no. -/
  thermtripPin : Bool := false
  /-- pin SHUTDOWN_DONE, 1 (19, pin table; 18 R466); reset low. -/
  shutdownDone : Bool := false
  /-- straps and board inputs latched at the last power-good (19 R478, R479); reset none. -/
  board : Option BoardInputs := none
deriving DecidableEq, Repr, Inhabited

/-- The contents of the replay-protected store on the board (15 R393). -/
structure Store where
  /-- write counter, 64 (15 R393); reset 0, an erased store. -/
  writes : DWord := 0
  /-- forme SVN counter, 32 (15 R393); reset 0, an erased store. -/
  formeSvn : Word := 0
  /-- firmware SVN counter, 32 (15 R393); reset 0, an erased store. -/
  fwSvn : Word := 0
  /-- incarnation counter, 32 (15 R393); reset 0, an erased store. -/
  incarnation : Word := 0
  /-- owner record, up to four key IDs (15 R393); reset empty. -/
  owners : List KeyId := []
  /-- unlock record: token digest, the incarnation it names, staged (15 R393, R409); reset none. -/
  unlock : Option (Digest × Word × Bool) := none
deriving DecidableEq, Repr, Inhabited

/-- A tenant session (15 R404, R406). -/
structure Session where
  tenant : BitVec 16
  keyId : KeyId
  /-- SESSION_FINISH has verified (16 R423). -/
  finished : Bool
  /-- tick of SESSION_INIT (16 R423). -/
  opened : Nat
  /-- ring set that opened it. -/
  ring : RingRef
  /-- highest SEQ accepted, none before the first (15 R406). -/
  high : Option Nat
  /-- accepted SEQs of the window (15 R406). -/
  seen : List Nat
  /-- next output SEQ (15 R406). -/
  outSeq : Nat
  /-- capsules accepted (15 R406). -/
  count : Nat
deriving DecidableEq, Repr, Inhabited

/-- SPDM responder state (15 R397, R399). -/
structure Spdm where
  /-- negotiated version, 0x12 or 0x13; 0 before (15 R397); reset 0. -/
  version : Byte := 0
  /-- GET_CAPABILITIES has been answered (15 R397); reset no. -/
  caps : Bool := false
  /-- NEGOTIATE_ALGORITHMS has been answered (15 R397); reset no. -/
  algs : Bool := false
  /-- a secure session is open (15 R397, R399); reset no. -/
  secure : Bool := false
deriving DecidableEq, Repr, Inhabited

/-- The SEC block and the security complex (15). -/
structure Sec where
  /-- SEC_STATUS.BOOT, 4 (15 R410); reset 0x0 ROM. -/
  boot : BitVec 4 := 0
  /-- SEC_STATUS.RPS_OK, 1 (15 R393, R410); reset 0. -/
  rpsOk : Bool := false
  /-- SEC_STATUS.DEBUG, 1 (15 R409, R410); reset 0. -/
  debug : Bool := false
  /-- SEC_STATUS.BUSY, 1 (15 R410); reset 0. -/
  busy : Bool := false
  /-- SEC_STATUS.CODE, 8 (15 R410); reset 0x00. -/
  code : Byte := 0
  /-- SEC_LOCK, 4 (15 R410, 17 R443); reset 0. -/
  lock : BitVec 4 := 0
  /-- SEC_CMD_LO, 32 (15 R410); reset 0 (2). -/
  cmdLo : Word := 0
  /-- SEC_CMD_HI, 32 (15 R410); reset 0 (2). -/
  cmdHi : Word := 0
  /-- SEC_CMD_LEN, 32 (15 R410); reset 0 (2). -/
  cmdLen : Word := 0
  /-- SEC_DONOR, 12 (15 R410); reset 0 (2). -/
  donor : DevId := 0
  /-- SEC_TENANT_SEL, 16 (15 R410); reset 0 (2). -/
  tenantSel : BitVec 16 := 0
  /-- SEC_AUTH_FAIL, 32 (15 R406, R410); reset 0 (2). -/
  authFail : Word := 0
  /-- SEC_MSG_AUTH_FAIL, 32 (15 R401, R410); reset 0 (2). -/
  msgAuthFail : Word := 0
  /-- SEC_FW_VERSION, 32 (15 R410); reset 0 (2). -/
  fwVersion : Word := 0
  /-- measurements 1 to 3 (15 R392); reset 0 (2). -/
  meas1 : Digest := 0
  meas2 : Digest := 0
  meas3 : Digest := 0
  /-- consumed unlock token of this boot, measurement 8 (15 R392, R409); reset none. -/
  token : Option Digest := none
  /-- pod key held, its generation (15 R403); reset none. -/
  podGen : Option Word := none
  /-- a POD_FETCH waits for its answer; its request has been sent (15 R403); reset none. -/
  fetch : Option Bool := none
  /-- pair secret held, its identifier (15 R400); reset none. -/
  pairSecret : Option DWord := none
  /-- boot nonce (15 R389); reset none drawn. -/
  bootNonce : Option Digest := none
  /-- load nonce (15 R389, 07 R182); reset none drawn. -/
  loadNonce : Option Digest := none
  /-- partition, T1 and shared-plate keys are held (15 R389, 02 R61); reset no. -/
  dataKeys : Bool := false
  /-- requests to the generator since its last reseed (15 R391); reset 0. -/
  drbg : Nat := 0
  /-- tenant sessions by handle (15 R404, R406); reset none. -/
  sessions : Tab Session := []
  /-- next session handle (15 R404); reset 1 (2). -/
  nextSession : Nat := 1
  /-- tenant table: tenant to key ID (15 R405); reset none. -/
  tenants : Tab KeyId := []
  /-- a device pod message may be sent (15 R402); reset no. -/
  podSend : Bool := false
  /-- SPDM responder (15 R397); reset nothing negotiated. -/
  spdm : Spdm := {}
  /-- the replay-protected store (15 R393); reset erased. -/
  store : Store := {}
deriving DecidableEq, Repr, Inhabited

/-- An entry of a completion queue as the device composes it (16, *Completion entry*). -/
structure CqEntry where
  hostTag : DWord
  reqId : ReqId
  kind : Byte
  status : Byte
  sqHead : BitVec 16
  commitLen : Word
deriving DecidableEq, Repr, Inhabited

/-- The payload of an output record (16 R425). -/
inductive OutPayload where
  | tokens (pos : Nat) (toks : List Word)
  /-- a colophon's bytes, the signature block included (14 R378, R381). -/
  | colophon (bytes : List Byte)
  | sessionAccept (meas : List Digest)
  | pad
deriving DecidableEq, Repr, Inhabited

/-- An output record (16, *Output record header*). -/
structure OutRec where
  len : Nat
  kind : Byte
  tenant : BitVec 16
  session : Word
  seq : DWord
  reqId : ReqId
  payload : OutPayload
deriving DecidableEq, Repr, Inhabited

/-- What a ring set holds until room returns (16 R426). -/
inductive HeldItem where
  | cq (e : CqEntry)
  | out (r : OutRec)
deriving DecidableEq, Repr, Inhabited

/-- One ring set (16 R416, R435). -/
structure RingSet where
  /-- HOSTIF_RSs_SQ_LO/HI, 64 (16 R435); reset 0 (2). -/
  sqLo : Word := 0
  sqHi : Word := 0
  /-- HOSTIF_RSs_CQ_LO/HI, 64 (16 R435); reset 0 (2). -/
  cqLo : Word := 0
  cqHi : Word := 0
  /-- HOSTIF_RSs_OUT_LO/HI, 64 (16 R435); reset 0 (2). -/
  outLo : Word := 0
  outHi : Word := 0
  /-- HOSTIF_RSs_SIZES, 32 (16 R435); reset 0 (2). -/
  sizes : Word := 0
  /-- HOSTIF_RSs_VECTOR, 32 (16 R435); reset 0 (2). -/
  vector : Word := 0
  /-- HOSTIF_RSs_SQ_HEAD, 16 (16 R435); reset 0 (2). -/
  sqHead : BitVec 16 := 0
  /-- SQ producer, 16 (16 R417); reset 0 (2). -/
  sqProd : BitVec 16 := 0
  /-- CQ producer, 16 (16 R415); reset 0 (2). -/
  cqProd : BitVec 16 := 0
  /-- HOSTIF_RSs_CQ_CONS, 16 (16 R435); reset 0 (2). -/
  cqCons : BitVec 16 := 0
  /-- HOSTIF_RSs_OUT_PROD, 21 (16 R435); reset 0 (2). -/
  outProd : BitVec 21 := 0
  /-- HOSTIF_RSs_OUT_CONS, 21 (16 R435); reset 0 (2). -/
  outCons : BitVec 21 := 0
  /-- HOSTIF_RSs_STATE[1:0] (16 R435); reset 0 DISABLED. -/
  state : BitVec 2 := 0
  /-- HOSTIF_RSs_STATE cause, 8 (16 R435); reset 0 (2). -/
  cause : Byte := 0
  /-- entries taken and neither admitted nor refused yet (16 R416); reset 0. -/
  taken : Nat := 0
  /-- DISABLE waits for the taken entries (16 R416); reset no. -/
  disabling : Bool := false
  /-- held entries and records, in order (16 R426); reset none. -/
  held : List HeldItem := []
  /-- tick of the last signalled vector (16 R430); reset never. -/
  lastSignal : Option Nat := none
  /-- tick of the first unsignalled entry (16 R430); reset none. -/
  unsignalled : Option Nat := none
deriving DecidableEq, Repr, Inhabited

/-- A fault record (11 R313, 16 R428). -/
structure FaultRec where
  rkey : Word
  /-- 0 read, 1 write, 2 atomic. -/
  kind : Byte
  page : Nat
deriving DecidableEq, Repr, Inhabited

/-- One function's host interface (16 R435). -/
structure FnHost where
  /-- HOSTIF_STATUS.CODE, 8 (16 R435); reset 0x00. -/
  code : Byte := 0
  /-- HOSTIF_STATUS.BUSY, 1 (16 R435); reset 0. -/
  busy : Bool := false
  /-- HOSTIF_CTRL.SET, 3 (16 R435); reset 0b000. -/
  set : BitVec 3 := 0
  /-- HOSTIF_CTRL.FAULT_EN, 1 (16 R435); reset 0. -/
  faultEn : Bool := false
  /-- HOSTIF_CQP_LO/HI, 64 (16 R435); reset 0 (2). -/
  cqpLo : Word := 0
  cqpHi : Word := 0
  /-- HOSTIF_FAULT_LO/HI, 64 (16 R435); reset 0 (2). -/
  faultLo : Word := 0
  faultHi : Word := 0
  /-- HOSTIF_FAULT_SIZE, 5 (16 R435); reset 0 (2). -/
  faultSize : Word := 0
  /-- HOSTIF_FAULT_PROD, 17 (16 R435); reset 0 (2). -/
  faultProd : BitVec 17 := 0
  /-- HOSTIF_FAULT_CONS, 17 (16 R435); reset 0 (2). -/
  faultCons : BitVec 17 := 0
  /-- fault records waiting for room (16 R428); reset none. -/
  faultWait : List FaultRec := []
  /-- ring sets 0 to 7 (16 R416); reset each DISABLED. -/
  sets : Tab RingSet := []
deriving DecidableEq, Repr, Inhabited

/-- State of one IDE stream (16 R431). -/
structure IdeStream where
  /-- keys set (16 R431). -/
  keyed : Bool
  /-- Insecure after an integrity failure (16 R431). -/
  insecure : Bool
  /-- function whose TLPs the stream carried when it failed (16 R431). -/
  fn : FnId
deriving DecidableEq, Repr, Inhabited

/-- The host interface (16). -/
structure Hostif where
  /-- the functions' HOSTIF blocks by function (16 R435); reset each at its reset values. -/
  fns : Tab FnHost := []
  /-- SR-IOV NumVFs, 0 to 63 (16 R414); reset 0 (2). -/
  numVfs : Nat := 0
  /-- the PCIe link is up (18 R459); reset no. -/
  linkUp : Bool := false
  /-- functions in D3hot (16 R411, R433); reset none. -/
  d3 : List Nat := []
  /-- functions in a function-level reset (16 R433, 17 R446); reset none. -/
  flr : List Nat := []
  /-- IDE streams 0 to 64, 0 the link stream (16 R431); reset none. -/
  ide : Tab IdeStream := []
  /-- TDI state by VF: locked (true) or ERROR (false) (16 R432); reset none. -/
  tdi : Tab Bool := []
deriving DecidableEq, Repr, Inhabited

end Sys2Proof.Machine
end

