-- ==== Sys2Proof/Machine/St/Fabric.lean ====
section
/-!
DEFINITION. The state of the tray fabric (10), the remote-access engine (11), the optical links and the egress
scheduler (12), and what the block emits.
-/

namespace Sys2Proof.Machine

/-! ### The tray fabric (10) -/

/-- Why this device issued a tray request: what its response completes. -/
inductive TrayWhy where
  /-- a cluster's LOAD or STORE, or a channel message. -/
  | cluster (cl : Nat)
  /-- the state mover's append of a row of cluster `cl` (08 R213). -/
  | append (req : ReqId) (cl : Nat)
  | commit (req : ReqId)
  | handover (req : ReqId)
  /-- the owner word passes to the serving member at a pause (08 R231). -/
  | pause (req : ReqId)
  /-- a mirrored write of R244, of the group with this number. -/
  | mirror (id : Nat)
  | drop (req : ReqId)
  | record (req : ReqId)
  /-- a page, map or record of bring-in (09 R248). -/
  | silver (req : ReqId)
  | ckpt (n : Nat)
  /-- the reservation that a recall asks of its partner (07 R201). -/
  | reserve (req : ReqId)
  /-- the owner word passes from an excluded owner to this node (08 R223, R235). -/
  | takeOver (req : ReqId)
  | other
deriving DecidableEq, Repr, Inhabited

/-- A request outstanding to a destination (10 R266, R275). -/
structure TrayOut where
  seq : Nat
  req : TrayReq
  why : TrayWhy
  /-- intermediate of the path it took, none for the direct link (10 R286). -/
  via : Option Slot
  /-- it has been sent: a path to its destination stood (10 R286, R289). -/
  path : Bool := true
  /-- tick of the last sending (10 R266). -/
  sent : Nat
  /-- counted in NEAR_TIMEOUT (10 R266). -/
  counted : Bool
  /-- counted in PAIR_HELD (09 R244). -/
  held : Bool
deriving DecidableEq, Repr, Inhabited

/-- What this device keeps for one destination slot (10 R274, R275, R283). -/
structure TrayDst where
  /-- next SEQ (10 R274); reset 1. -/
  next : Nat := 1
  /-- outstanding requests, in SEQ order (10 R275); reset none. -/
  out : List TrayOut := []
  /-- requests that wait for room (10 R275); reset none. -/
  waiting : List (TrayReq × TrayWhy) := []
  /-- answered SEQs above the acknowledged-through value (10 R283); reset none. -/
  answered : List Nat := []
  /-- acknowledged-through value (10 R283); reset 0. -/
  through : Nat := 0
deriving DecidableEq, Repr, Inhabited

/-- What the home keeps for one source device (10 R274, R288). -/
structure TraySrc where
  /-- the XEPOCH the expectation belongs to (10 R274). -/
  xepoch : BitVec 16 := 0
  /-- next SEQ expected (10 R288); reset 1. -/
  expect : Nat := 1
  /-- reorder buffer by SEQ (10 R288); reset empty. -/
  reorder : Tab TrayReq := []
  /-- executed record: SEQ, STATUS, up to 16 bytes of result, newest first (10 R288); reset empty. -/
  executed : List (Nat × Status × List Byte) := []
  /-- SEQs taken whose execution is not finished (10 R288); reset none. -/
  running : List Nat := []
deriving DecidableEq, Repr, Inhabited

/-- A fence (10 R283). -/
structure Fence where
  marks : List (Nat × Nat)
  /-- the request whose hand-over waits for it (08 R222). -/
  req : ReqId
  /-- first failing code so far, with destination and SEQ (10 R284). -/
  code : Option (Nat × Nat × Status)
deriving DecidableEq, Repr, Inhabited

/-- A link-state notice received (10 R268, R286). -/
structure LState where
  links : BitVec 15
  role : Byte
  model : Digest
deriving DecidableEq, Repr, Inhabited

/-- A remote atomic parked at the home (10 R282, 11 R315). -/
structure Parked where
  src : DevId
  id : BitVec 48
  msg : PodMsg
deriving DecidableEq, Repr, Inhabited

/-- The NEAR block and the tray fabric (10). -/
structure Near where
  /-- NEAR_DISABLE, 15 (10 R290); reset 0 (2). -/
  disable : BitVec 15 := 0
  /-- NEAR_TIMEOUT, 32 (10 R290); reset 0 (2). -/
  timeout : Word := 0
  /-- NEAR_RESENT, 32 (10 R290); reset 0 (2). -/
  resent : Word := 0
  /-- NEAR_DUPS, 32 (10 R290); reset 0 (2). -/
  dups : Word := 0
  /-- NEAR_STALE, 32 (10 R290); reset 0 (2). -/
  stale : Word := 0
  /-- NEAR_DENIED, 32 (10 R290); reset 0 (2). -/
  denied : Word := 0
  /-- NEAR_FWD, 32 (10 R290); reset 0 (2). -/
  fwd : Word := 0
  /-- NEAR_ATOMIC_HW, 16 (10 R290); reset 0 (2). -/
  atomicHw : Nat := 0
  /-- combining queue; NEAR_COMBINE is its length (10 R282); reset empty. -/
  combine : List Parked := []
  /-- source last served by the atomic unit's rotation, by line (10 R281); reset none. -/
  rotate : Tab Nat := []
  /-- NEAR_RETRY, 32 (10 R290); reset 0 (2). -/
  retry : Word := 0
  /-- destinations by slot (10 R274); reset each at its reset values. -/
  dst : Tab TrayDst := []
  /-- sources by device (10 R288); reset none seen. -/
  src : Tab TraySrc := []
  /-- fences in progress (10 R283); reset none. -/
  fences : List Fence := []
  /-- link-state notices received, by slot (10 R286); reset none. -/
  lstate : Tab LState := []
  /-- cumulative CREDIT counts this device has returned, by cluster × 32 + channel (10 R272); reset 0. -/
  returned : Tab Word := []
  /-- serial maximum of the CREDIT counts received, by cluster × 32 + channel (10 R272); reset 0. -/
  received : Tab Word := []
deriving DecidableEq, Repr, Inhabited

/-! ### Firmware messages -/

/-- Messages a device's firmware sends another device over pod SENDs or the near fabric (08, 11 *Firmware traffic*). -/
inductive FwMsg where
  | stageAdmission (m : StageAdmission)
  /-- a stage's confirmation of an admission or a resume, or at a pause its report (08 R219, R231, R232). -/
  | confirmation (req : ReqId) (stage : Byte) (pause : Option DropReport)
  | refusal (req : ReqId) (code : Status)
  | resume (m : StageResume)
  | cancel (req : ReqId)
  | pause (req : ReqId)
  | retire (req : ReqId) (code : Status)
  | dropReport (r : DropReport)
  | token (m : TokenMsg)
  /-- a member's or generation node's answer to its stage's prompt node (08 R219). -/
  | admitAnswer (req : ReqId) (code : Status)
  | releaseRecords (req : ReqId)
  | arrive (id : Byte) (inst : Nat)
  | release (id : Byte) (inst : Nat) (tick : DWord) (status : Status)
  /-- a page of a copy-out (08 R234). -/
  | copyPage (p : PagePart)
  /-- the destination's answer to a copy-out (08 R234). -/
  | copyDone (req : ReqId) (code : Status)
  /-- a stage's galley is shelved, to expire at this tick (07 R197; log entry 203). -/
  | shelved (req : ReqId) (stage : Byte) (expiry : DWord)
  /-- the answer of a device that holds no record of the request: STATE_LOST (08 R209). -/
  | lost (req : ReqId)
  /-- the pair secret, under a transfer exchange over the near link (15 R400). -/
  | pairSecret (id : DWord)
  /-- the pod key, under a transfer exchange in a KEY frame or over the key QP (15 R403). -/
  | podKey (gen : Word)
  | podKeyAsk
  /-- shard inputs asked from their consumer (16 R429). -/
  | shardAsk (shard : BitVec 16) (step : Word)
deriving DecidableEq, Repr, Inhabited

/-! ### Remote access (11) -/

/-- A piece of a WR that is one message (11, *Messages*). -/
structure Piece where
  off : Nat
  len : Nat
  /-- counter of the message that last carried it; 0 before the first (11 R302). -/
  id : Nat
  /-- tick of its first refusal with RETRY_LATER (11 R314). -/
  first : Option Nat
  /-- tick at which its back-off ends (11 R314). -/
  at_ : Nat
  /-- refusals with RETRY_LATER so far (11 R314). -/
  refusals : Nat := 0
deriving DecidableEq, Repr, Inhabited

/-- One WR of a queue pair that has not completed in order (11 R298, R299). -/
structure WrState where
  wr : WorkReq
  data : List Byte
  /-- pieces not yet sent as messages (11, *Messages*). -/
  todo : List Piece
  /-- pieces in flight. -/
  inflight : List Piece
  /-- READ: byte ranges received (11 R309). -/
  got : List (Nat × Nat)
  /-- some message of it has taken effect (11 R314). -/
  applied : Bool
  /-- pieces waiting for back-off (11 R314). -/
  backoff : List Piece
  /-- final code, once known (11 R299). -/
  done : Option Status
  /-- ATOMIC: old value; control: result (11 R299). -/
  value : DWord
  /-- held on an absent local page: page index (11 R313). -/
  heldPage : Option Nat
  /-- the tenant it serves, where its queue pair's context does not say (12 R333). -/
  tenant : Option (BitVec 16) := none
deriving DecidableEq, Repr, Inhabited

/-- A queue pair (11 R291, R294). -/
structure Qp where
  ctx : FnId
  pd : Nat
  /-- READY; otherwise ERROR (11 R294). -/
  ready : Bool
  /-- context is on chip (11 R312). -/
  resident : Bool
  /-- eviction count (11 R312). -/
  evictions : Nat
  /-- tick of the last use (11 R312). -/
  used : Nat
  /-- a fetch of the context runs (11 R312). -/
  fetching : Bool
  blockAddr : DWord
  block : RingBlock
  /-- ring positions modulo 2^16 (16 R427). -/
  sendProd : BitVec 16
  sendCons : BitVec 16
  recvProd : BitVec 16
  recvCons : BitVec 16
  cqProd : BitVec 16
  /-- WRs posted and not completed, oldest first (11 R299). -/
  wrs : List WrState
deriving DecidableEq, Repr, Inhabited

/-- A region (11 R295, R296). -/
structure Region where
  epoch : Byte
  valid : Bool
  pd : Nat
  ctx : FnId
  base : DWord
  len : Nat
  rights : BitVec 4
  /-- page size in bytes (11 R298). -/
  page : Nat
  onDemand : Bool
  /-- on demand: the host address of each page that is present (11 R298, R313). -/
  present : Tab DWord
  /-- a T1 region of PD 0 in this partition, at a device address (11 R296). -/
  t1 : Option PartId
deriving DecidableEq, Repr, Inhabited

/-- A message in flight (11 R303, R304). -/
structure PodOut where
  id : Nat
  hdr : PodHdr
  payload : List Byte
  /-- tick of the first transmission, once it is made (11 R301, R304). -/
  first : Nat
  /-- tick of the last transmission. -/
  sent : Nat
  /-- its first transmission is made (11 R301). -/
  aired : Bool := false
  retx : Nat
  /-- its plane; 16 while no far link is UP (11 R303). -/
  plane : Nat
  /-- its ACK has arrived: a READ_REQ is kept until its last READ_DATA (11 R303). -/
  acked : Bool
  /-- the firmware message it carries (11, *Firmware traffic*). -/
  fw : Option FwMsg
  /-- the tenant it serves, for its slot (12 R333), and its traffic class (12 R332). -/
  tenant : Option (BitVec 16)
  tc : Nat
  /-- refusals with RETRY_LATER, the tick of the first, and the tick at which the back-off ends (11 R314). -/
  refusals : Nat := 0
  firstRef : Option Nat := none
  due : Nat := 0
deriving DecidableEq, Repr, Inhabited

/-- An identifier-memory entry (11 R306). -/
structure IdEntry where
  src : DevId
  id : BitVec 48
  first : Nat
  /-- DONE with its STATUS and result; none while IN_PROGRESS. -/
  done : Option (Status × List Byte)
deriving DecidableEq, Repr, Inhabited

/-- An open fault (11 R313). -/
structure OpenFault where
  rkey : Word
  page : Nat
  opened : Nat
  /-- unresolved past RMA_FAULT_TIMEOUT (11 R313). -/
  failed : Bool
  /-- READ_REQs whose data waits (11 R313). -/
  waiting : List PodMsg
deriving DecidableEq, Repr, Inhabited

/-- The RMA block (11 R321). -/
structure Rma where
  /-- RMA_STATUS.BUSY, 1 (11 R321); reset 0. -/
  busy : Bool := false
  /-- RMA_STATUS.CODE, 8 (11 R321); reset 0x00. -/
  code : Byte := 0
  /-- RMA_STATUS.BOUND, 1 (11 R321); reset 0. -/
  bound : Bool := false
  /-- bound address and QP count (11 R312, R321); reset 0. -/
  backing : DWord := 0
  backed : Nat := 0
  /-- RMA_QPC_LO/HI, 64 (11 R321); reset 0 (2). -/
  qpcLo : Word := 0
  qpcHi : Word := 0
  /-- RMA_QPC_COUNT, 21 (11 R321); reset 8192. -/
  qpcCount : Word := 8192
  /-- RMA_ARRIVAL_HIGH, 13 (11 R321); reset 3072. -/
  arrivalHigh : Nat := 3072
  /-- RMA_FAULT_TIMEOUT, ms (11 R321); reset 50. -/
  faultTimeout : Nat := 50
  /-- RMA_RETRY_LIMIT, ms (11 R321); reset 100. -/
  retryLimit : Nat := 100
  /-- RMA_TX, 32 modulo 2^32 (11 R321); reset 0 (2). -/
  tx : Word := 0
  /-- RMA_RETX, 32 (11 R321); reset 0 (2). -/
  retx : Word := 0
  /-- RMA_DUPS, 32 (11 R321); reset 0 (2). -/
  dups : Word := 0
  /-- RMA_EXPIRED, 32 (11 R321); reset 0 (2). -/
  expired : Word := 0
  /-- RMA_RL_SENT, 32 (11 R321); reset 0 (2). -/
  rlSent : Word := 0
  /-- RMA_RL_RECV, 32 (11 R321); reset 0 (2). -/
  rlRecv : Word := 0
  /-- RMA_QPC_MISS, 32 (11 R321); reset 0 (2). -/
  qpcMiss : Word := 0
  /-- RMA_FAULTS, 32 (11 R321); reset 0 (2). -/
  faults : Word := 0
  /-- RMA_QP_ERR, 32 (11 R321); reset 0 (2). -/
  qpErr : Word := 0
  /-- RMA_UNACKED, 32 (11 R321); reset 0 (2). -/
  unacked : Word := 0
  /-- RMA_STALE, 32 (11 R321); reset 0 (2). -/
  stale : Word := 0
  /-- message counter, 48 (11 R302); reset 1. -/
  counter : Nat := 1
  /-- queue pairs by number (11 R291); reset none. -/
  qps : Tab Qp := []
  /-- protection domains: PD to context (11 R293); reset none. -/
  pds : Tab Nat := []
  /-- regions by index (11 R295); reset none. -/
  regions : Tab Region := []
  /-- deregistered indices, the longest ago first, and the first index never used (11 R297); reset none and 0. -/
  freed : List Nat := []
  fresh : Nat := 0
  /-- DEREG_REGIONs that wait for messages (11 R297): control QP and key. -/
  deregs : List (QpNum × DWord × Nat) := []
  /-- messages in flight (11 R303); reset none. -/
  out : List PodOut := []
  /-- firmware messages that wait for room or for the pod key, with destination and MEPOCH (11 R303, 15 R403); reset none. -/
  waiting : List (DevId × Word × FwMsg) := []
  /-- READ_DATA messages, and claims of backup steps, that wait for room or for the pod key (11 R303); reset none. -/
  queued : List (PodHdr × List Byte) := []
  /-- READ_DATA and firmware messages refused with RETRY_LATER, waiting for back-off (11 R314); reset none. -/
  refused : List PodOut := []
  /-- identifier memory (11 R306); reset empty. -/
  ids : List IdEntry := []
  /-- messages parked in the arrival buffer (11 R312); reset none. -/
  arrival : List PodMsg := []
  /-- open faults (11 R313); reset none. -/
  openFaults : List OpenFault := []
deriving DecidableEq, Repr, Inhabited

/-! ### What the block emits -/

/-- Liveness messages the device sends on SL (09, *Liveness messages on SL*). -/
inductive SlMsg where
  | renew (dev : DevId) (epoch : BitVec 16) (seq : Nat) (tick : Nat)
  | admitReq (dev : DevId) (epoch : BitVec 16) (seq : Nat) (tick : Nat)
  | suspect (dev : DevId)
deriving DecidableEq, Repr, Inhabited

/-- The content of a packet queued on a link. -/
inductive Packet where
  | trayReq (r : TrayReq)
  | trayResp (h : TrayHdr) (payload : List Byte)
  | trayFwd (h : TrayHdr) (payload : List Byte)
  | credit (h : TrayHdr) (count : Word)
  | lstate (h : TrayHdr) (links : BitVec 15) (role : Byte) (model : Digest)
  | pod (h : PodHdr) (payload : List Byte)
  | podAck (h : PodHdr) (payload : List Byte)
  /-- a firmware SEND on a device-owned queue pair. -/
  | podFw (h : PodHdr) (m : FwMsg)
  /-- a firmware message to a device of the same tray. -/
  | nearFw (dst : DevId) (m : FwMsg)
  /-- a liveness message on SL (09). -/
  | sl (m : SlMsg)
  /-- the device's part of a TIME exchange, in a TIME frame (14 R371). -/
  | time
deriving DecidableEq, Repr, Inhabited

/-- SPDM responses (15 R397). -/
inductive SpdmResp where
  | version
  | capabilities (version : Byte)
  | algorithms
  | digests
  | certificate (offset length : Nat)
  | challengeAuth (nonce : BitVec 256)
  | measurements (blocks : List (Nat × Digest)) (signed : Bool) (nonce : BitVec 256)
  /-- VENDOR_DEFINED_RESPONSE with the ML-DSA-65 signature. -/
  | vendorSignature
  | sessionAccept
  | error
deriving DecidableEq, Repr, Inhabited

/-- What a KEY frame that the device sends carries (12 R330, R331; 15 R403). -/
inductive KeyOut where
  /-- the hybrid exchange of phase 6 with its confirmation TAG. -/
  | session
  /-- a fresh hybrid exchange. -/
  | rekey
  /-- the confirmation of a rekey. -/
  | rekeyConfirm
  /-- the pod key's generation, under a transfer exchange. -/
  | podKey (gen : Word)
deriving DecidableEq, Repr, Inhabited

/-- The header of a frame that leaves (12 R325), with the nonce of its encryption (12 R330). -/
structure TxHdr where
  keyPhase : Bool
  session : BitVec 16
  seq : Word
  ack : Word
  credits : List Word
  txc : DWord
  nonce : List Byte
deriving DecidableEq, Repr, Inhabited

/-- Everything the block emits, in order. -/
inductive Emit where
  | msix (fn : FnId) (vector : Nat)
  | cqEntry (ring : RingRef) (index : Nat) (e : CqEntry) (phase : Bool)
  | outRecord (ring : RingRef) (unit : Nat) (r : OutRec) (phase : Bool)
  /-- a completion in the CQ of queue pair `cq`, with its QP field and its phase bit. -/
  | qpCompletion (cq qp : QpNum) (wrId : DWord) (status : Status) (opcode : Byte) (len : Nat) (srcDev : DevId)
      (value : DWord) (phase : Bool)
  | faultRecord (fn : FnId) (index : Nat) (r : FaultRec)
  /-- a packet leaves on link `link`, in DATA frames of which this is the first one's header. -/
  | packet (link : Nat) (h : TxHdr) (p : Packet)
  /-- frames replayed, with the header of the first. -/
  | replay (link : Nat) (h : TxHdr)
  | nak (link : Nat) (h : TxHdr)
  | idle (link : Nat) (h : TxHdr)
  /-- a TIME frame to the plane, with the tick at which it leaves. -/
  | time (link : Nat) (h : TxHdr) (tick : Nat)
  | key (link : Nat) (h : TxHdr) (k : KeyOut)
  /-- a firmware message to a stage this device itself serves; it takes effect as that message's command (log entry 41). -/
  | fwSelf (m : FwMsg)
  | spdm (r : SpdmResp)
  /-- the value a register read returns to its reader. -/
  | regRead (fn : FnId) (offset : Nat) (value : Word)
  /-- DMA writes: telemetry, trace, meter dump, received READ and SEND bytes, the repair record. -/
  | telemetry (die : Nat) (index : Nat) (fields : List Nat)
  | trace (index : Nat) (cluster idx item seq row : Nat) (value : BitVec 128)
  /-- the meter table at a host address: tick, entries in tenant order, the overflow entry (13 R359). -/
  | meterDump (addr tick : DWord) (entries : Tab Meter) (overflow : Option Meter)
  | dmaWrite (fn : FnId) (addr : DWord) (bytes : List Byte)
  /-- an evicted context in the bound host area, 256 bytes encrypted under the record key, whose 64-bit MAC binds the queue pair's number
  and its eviction count (11 R312). -/
  | contextWrite (addr : DWord) (qp : QpNum) (count : Nat) (x : Qp)
  | repairRecord (copyB : Bool) (r : RepairRecord)
deriving DecidableEq, Repr, Inhabited

/-! ### Links and shaping (12) -/

/-- A packet in an egress queue (12 R332, R333). -/
structure Queued where
  pkt : Packet
  /-- credit class. -/
  cls : Nat
  tc : Nat
  slot : Nat
  tenant : BitVec 16
  /-- payload bytes (12 R333). -/
  payload : Nat
  /-- bytes on the wire, header included, for credits (12 R329). -/
  bytes : Nat
  /-- tick of enqueueing. -/
  at_ : Nat
  /-- finish time f, 48 bits, and its cost (12 R333). -/
  fin : Nat
deriving DecidableEq, Repr, Inhabited

/-- One link (12 R324, R339). -/
structure Link where
  /-- LINK_STATE.STATE, 4 (12 R339); reset 0x0 DOWN. -/
  state : BitVec 4 := 0
  /-- LINK_STATE.PHASE, 4 (12 R339); reset 0x0. -/
  phase : BitVec 4 := 0
  /-- LINK_STATE.KEY_PHASE, 1 (12 R339); reset 0. -/
  keyPhase : Bool := false
  /-- key phase of the frames received (12 R331); reset 0 (2). -/
  rxPhase : Bool := false
  /-- LINK_SESSION, 32 (12 R339); reset 0 (2). -/
  session : Word := 0
  /-- LINK_FEC_CORR, 32 (12 R339); reset 0 (2). -/
  fecCorr : Word := 0
  /-- LINK_FEC_UNC, 32 (12 R339); reset 0 (2). -/
  fecUnc : Word := 0
  /-- LINK_REPLAY, 32 (12 R339); reset 0 (2). -/
  replay : Word := 0
  /-- LINK_AUTH_ERR, 32 (12 R339); reset 0 (2). -/
  authErr : Word := 0
  /-- LINK_DOWNS, 32 (12 R339); reset 0 (2). -/
  downs : Word := 0
  /-- LINK_REKEYS, 32 (12 R339); reset 0 (2). -/
  rekeys : Word := 0
  /-- LINK_RXPWR, 16 (12 R339); reset 0 (2). -/
  rxPwr : BitVec 16 := 0
  /-- NEAR_LINK.FAR_SLOT, 4 (10 R290); reset 0x0. -/
  farSlot : Slot := 0
  /-- NEAR_LINK.FAR_LINK, 4 (10 R290); reset 0x0. -/
  farLink : BitVec 4 := 0
  /-- tick at which the phase of training began (12 R324); reset 0. -/
  phaseAt : Nat := 0
  /-- phase 6: the keys of the session to come are confirmed (12 R330); reset no. -/
  keyed : Bool := false
  /-- back-off in ms and tick until which it waits (12 R324); reset 1 and 0. -/
  backoff : Nat := 1
  waitUntil : Nat := 0
  /-- tick at which the link came UP (12 R324); reset none. -/
  upAt : Option Nat := none
  /-- far end failed attestation: not retrained (12 R330); reset no. -/
  authFail : Bool := false
  /-- next frame SEQ to send, next expected, TXC (12 R325, R326); reset 0. -/
  txSeq : Nat := 0
  rxSeq : Nat := 0
  txc : Nat := 0
  /-- frames in the retry buffer (12 R326); reset none. -/
  retry : List Nat := []
  /-- cumulative credits granted by the far end and spent here, by class (12 R329); reset 0. -/
  granted : Tab Nat := []
  spent : Tab Nat := []
  /-- cumulative credits this receiver has returned, by class (12 R329); reset 0. -/
  freed : Tab Nat := []
  /-- bytes of the packet being received, by class (12 R325); reset 0. -/
  part : Tab Nat := []
  /-- tick at which an ACK last freed a frame, or the first frame was kept (12 R328); reset 0. -/
  ackAt : Nat := 0
  /-- KEY frames that wait for room in the retry buffer (12 R326); reset none. -/
  keyWait : List KeyOut := []
  /-- ticks and numbers of the FEC-uncorrectable codewords of the last 1 ms (12 R328); reset none. -/
  uncAt : List (Nat × Nat) := []
  /-- ticks of the last five TAG failures with FEC and CRC passed, latest first (12 R328); reset none. -/
  authAt : List Nat := []
  /-- a rekey awaits confirmation since this tick (12 R331); reset none. -/
  rekeyAt : Option Nat := none
  /-- the receiver holds both keys until the first frame of the new phase (12 R331); reset no. -/
  twoKeys : Bool := false
  /-- queued packets, in arrival order (12 R332); reset none. -/
  queue : List Queued := []
  /-- virtual time V of the link's fair queueing, and f_last by tc × 256 + slot (12 R333); reset 0. -/
  vtime : Nat := 0
  flast : Tab Nat := []
  /-- counted bytes sent and largest head age since the last sample, by tc × 256 + slot (12 R338); reset 0. -/
  sent : Tab Nat := []
  maxAge : Tab Nat := []
deriving DecidableEq, Repr, Inhabited

/-- The values the shaper applies or stages for a slot (12 R336, R337). -/
structure ShapeSlot where
  /-- SHAPER_RATE, 32 (12 R339); reset 0 (2). -/
  rate : Word := 0
  /-- SHAPER_DEPTH, 32 (12 R339); reset 65536. -/
  depth : Word := 65536
  /-- SHAPER_WEIGHT, 8 (12 R339); reset 1. -/
  weight : Byte := 1
deriving DecidableEq, Repr, Inhabited

/-- A set of shaper values: staged, or in force (12 R337). -/
structure ShapeSet where
  /-- slots: die × 256 + slot. -/
  slots : Tab ShapeSlot := []
  /-- SHAPER_TCW 1 to 3, 8 each (12 R339); reset 1. -/
  tcw : Tab Byte := []
  /-- SHAPER_LEADING 0 to 3, near and far (12 R334); reset 40 and 72. -/
  leading : Tab Word := []
  /-- SHAPER_TMAP: slot to tenant (12 R339); reset 0 none. -/
  tmap : Tab (BitVec 16) := []
deriving DecidableEq, Repr, Inhabited

/-- One die's telemetry ring (12 R338). -/
structure TelRing where
  /-- SHAPER_TEL_BASE_LO/HI, 64 (12 R339); reset 0 (2). -/
  lo : Word := 0
  hi : Word := 0
  /-- SHAPER_TEL_SIZE, 5 (12 R339); reset 0 (2). -/
  size : BitVec 5 := 0
  /-- SHAPER_TEL_PROD, 21 (12 R339, 16 R415); reset 0 (2). -/
  prod : BitVec 21 := 0
  /-- SHAPER_TEL_CONS, 21 (12 R339); reset 0 (2). -/
  cons : BitVec 21 := 0
  /-- SHAPER_TEL_DROP, 32 (12 R339); reset 0 (2). -/
  drop : Word := 0
deriving DecidableEq, Repr, Inhabited

/-- One laser fibre (12 R323, R339). -/
structure Laser where
  /-- LINK_LASER.LOW, 1 (12 R323); reset 0 (2). -/
  low : Bool := false
  /-- LINK_LASER.OFF, 1 (12 R339); reset 0 (2). -/
  off : Bool := false
  /-- tick since which it has been below 12.0 dBm (12 R323); reset none. -/
  below : Option Nat := none
  /-- LINK_LASER power, 16 (12 R339); reset 0 (2). -/
  power : BitVec 16 := 0
deriving DecidableEq, Repr, Inhabited

/-- The LINK and SHAPER block (12 R339). -/
structure Links where
  /-- LINK_CTRL.LINK, 5 (12 R339); reset 0. -/
  sel : LinkId := 0
  /-- LINK_FAR_DISABLE, 16 (12 R339); reset 0 (2). -/
  farDisable : BitVec 16 := 0
  /-- laser fibres LF0 to LF7 (12 R323); reset each at its reset values. -/
  lasers : Tab Laser := []
  /-- links by index (12 R339); reset each at its reset values. -/
  links : Tab Link := []
  /-- SHAPER_STATUS.CODE, 8 (12 R339); reset 0 (2). -/
  code : Byte := 0
  /-- SHAPER_STATUS.PENDING: the refill tick at which it applies (12 R337); reset 0. -/
  pending : Option Nat := none
  /-- SHAPER_SEL: die and slot (12 R339); reset 0 (2). -/
  die : Bool := false
  slot : Byte := 0
  /-- values in force (12 R337). -/
  live : ShapeSet := {}
  /-- staged values (12 R337). -/
  staged : ShapeSet := {}
  /-- token buckets: die × 256 + slot, signed bytes in units of 1 byte (12 R336); reset 0 (2). -/
  tokens : Tab Int := []
  /-- SHAPER_WATCH 0 to 127, 32 each (12 R339); reset 0 (2). -/
  watch : Tab Word := []
  /-- telemetry rings of dies A and B (12 R338). -/
  telA : TelRing := {}
  telB : TelRing := {}
  /-- SHAPER_CTRL.TEL_EN, 1 (12 R339); reset 0. -/
  telEn : Bool := false
  /-- tick of the last refill (12 R336); reset 0. -/
  refillAt : Nat := 0
deriving DecidableEq, Repr, Inhabited

end Sys2Proof.Machine
end

