-- ==== Sys2Proof/Machine/St/Forme.lean ====
section
/-!
DEFINITION. The state of the FORME block (02), the codec (06) and the memory tiers (07).
-/

namespace Sys2Proof.Machine

/-- The FORME command that runs (02 R56). -/
inductive FormeCmd where
  | load | plate | unload | drain | replace
deriving DecidableEq, Repr, Inhabited

/-- A section in force, kept in the firmware reserve, with its directory digest kept in the security complex (02 R62). -/
structure KeptSection where
  type : BitVec 16
  instance_ : BitVec 16
  /-- its length in bytes (02 R44). -/
  length : Nat
  digest : Digest
deriving DecidableEq, Repr, Inhabited

/-- The committed forme: the content of its sections in force (02 R58, R62, R65). -/
structure Committed where
  header : FormeHeader
  role : RoleParams
  geometry : GeometrySect
  /-- REGION_CONFIG by region (02 R49). -/
  regions : Tab RegionConfig
  /-- PARTITION by partition (02 R51). -/
  parts : Tab PartitionSect
  /-- PROGRAM by partition (02 R483). -/
  programs : Tab ProgramSect
  imposition : ImpositionSect
  /-- PLATE_REFS by partition (02 R53). -/
  plates : Tab (List PlateRef)
  /-- ENTROPY by partition (06 R171). -/
  entropy : Tab EntropySect
  /-- NUMERICS by partition (04 R120). -/
  numerics : Tab NumericsSect
  /-- ATTENTION by partition (05 R148). -/
  attention : Tab AttentionSect
  /-- SELFTEST.BUDGET_MS (18 R470), none without the section. -/
  selftest : Option Nat
  /-- the sections in force with their digests (02 R62). -/
  kept : List KeptSection
deriving DecidableEq, Repr, Inhabited

/-- The FORME block (02). -/
structure Forme where
  /-- FORME_SRC_LO, 32 (02 FORME registers); reset 0 (2). -/
  srcLo : Word := 0
  /-- FORME_SRC_HI, 32 (02 FORME registers); reset 0 (2). -/
  srcHi : Word := 0
  /-- FORME_LEN, 32 (02 FORME registers); reset 0 (2). -/
  len : Word := 0
  /-- FORME_REGION_MASK, 8 (02 FORME registers); reset 0 (2). -/
  regionMask : Byte := 0
  /-- FORME_STATUS.GEN, 8 (02 R65); reset 0x00. -/
  gen : Byte := 0
  /-- FORME_STATUS.CODE, 8 (02 R56); reset 0x00. -/
  code : Byte := 0
  /-- FORME_STATUS.STAGE, 4 (02 R57); reset 0. -/
  stage : BitVec 4 := 0
  /-- FORME_STATUS.STATE, 4 (02 R56); reset 0x0 EMPTY. -/
  state : BitVec 4 := 0
  /-- FORME_FAIL_SECT, 32 (02 FORME registers); reset 0xFFFF, none. -/
  failSect : Word := 0xFFFF
  /-- FORME_DIGEST, 384 (02 R58, R65); reset 0 (2). -/
  digest : Digest := 0
  /-- FORME_BASE, 384 (02 R58); reset 0 (2). -/
  base : Digest := 0
  /-- FORME_PART_GEN and FORME_PART_GEN2, 8 bits a partition (02 R58, R65); reset 0 (2). -/
  partGen : Tab Byte := []
  /-- the running command (02 R56); reset none. -/
  running : Option FormeCmd := none
  /-- FORME_LEN as the running command found it (02 R57, R59); reset 0. -/
  runLen : Nat := 0
  /-- regions draining or drained (02 R63); reset 0. -/
  drained : Byte := 0
  /-- the drain is complete (02 R63); reset no. -/
  drainDone : Bool := false
  /-- the committed forme (02 R58); reset none. -/
  committed : Option Committed := none
  /-- first T1 frame of each partition's space, laid out at the full load (07 R181); reset none. -/
  partBase : Tab Nat := []
  /-- plates resident on this slot, by digest (02 R53, R59); reset none. -/
  resident : List PlateRef := []
  /-- NUMERICS and ATTENTION of a REPLACE, in force from RESUME (04 R120, 05 R148); reset none. -/
  nextNumerics : Tab NumericsSect := []
  nextAttention : Tab AttentionSect := []
  /-- the digests held in the security complex equal what the reserve holds: a failed re-check discards (02 R62). -/
  mainDigest : Digest := 0
  /-- base digest as the security complex holds it (02 R62); reset zero. -/
  mainBase : Digest := 0
deriving DecidableEq, Repr, Inhabited

/-- One table slot (06 R157, R165, R166): TABLE × 2 + SLOT is its key. -/
structure TableSlot where
  /-- VALID, 1 (06 R165); reset 0. -/
  valid : Bool := false
  /-- VERSION, 8 (06 R165); reset 0. -/
  version : Byte := 0
  /-- FORMAT, 8 (06 R165); reset 0. -/
  format : Byte := 0
  /-- 256 code lengths, four bits each (06 R158); reset empty. -/
  lengths : List Byte := []
  /-- reference count (06 R165); reset 0. -/
  refs : Nat := 0
deriving DecidableEq, Repr, Inhabited

/-- The CODEC block (06). -/
structure Codec where
  /-- CODEC_SEL, 32 (06 CODEC registers); reset 0. -/
  sel : Word := 0
  /-- CODEC_STATUS.BUSY, 1 (06); reset 0. -/
  busy : Bool := false
  /-- CODEC_STATUS.CODE, 8 (06); reset 0x00. -/
  code : Byte := 0
  /-- CODEC_LEN0 to 31, 1024 (06); reset 0 (2). -/
  len : List Word := List.replicate 32 0
  /-- CODEC_CRC_ERR, 32 (06 R163); reset 0 (2). -/
  crcErr : Word := 0
  /-- CODEC_DECODE_ERR, 32 (06 R163); reset 0 (2). -/
  decodeErr : Word := 0
  /-- CODEC_RAW, 32 (06); reset 0 (2). -/
  raw : Word := 0
  /-- CODEC_SEALS, 32 (06); reset 0 (2). -/
  seals : Word := 0
  /-- table slots of each partition: key partition × 2048 + TABLE × 2 + SLOT (06 R157); reset none valid. -/
  slots : Tab TableSlot := []
  /-- active latent slot of each partition, 1 (06 R168); reset A. -/
  active : Tab Bool := []
deriving DecidableEq, Repr, Inhabited

/-- One LPC window (07 R205). -/
structure Lpc where
  /-- LPC_STATUS[0] trained (07 R179); reset 0. -/
  trained : Bool := false
  /-- LPC_STATUS[1] failed (07 R190); reset 0. -/
  failed : Bool := false
  /-- LPC_STATUS[2] in self-refresh (07 R188); reset 0. -/
  selfRefresh : Bool := false
  /-- LPC_STATUS[15:8], package temperature code (07); reset 0 (2). -/
  temp : Byte := 0
  /-- LPC_CE, 32 (07 R184); reset 0 (2). -/
  ce : Word := 0
  /-- LPC_UE, 32 (07 R184); reset 0 (2). -/
  ue : Word := 0
  /-- LPC_MAC_ERR, 32 (07 R184); reset 0 (2). -/
  macErr : Word := 0
  /-- LPC_RFM, 32 (07 R188); reset 0 (2). -/
  rfm : Word := 0
  /-- LPC_REFI, 32 (07 R188); reset 0 (2). -/
  refi : Word := 0
  /-- LPC_RD, 32 modulo 2^32 (07); reset 0 (2). -/
  rd : Word := 0
  /-- LPC_WR, 32 modulo 2^32 (07); reset 0 (2). -/
  wr : Word := 0
deriving DecidableEq, Repr, Inhabited

/-- A quota entry (07 R200). -/
structure Quota where
  t1Limit : Nat := 0
  t3Limit : Nat := 0
  /-- T1 pages charged, reservations included (07 R200, R201, R205). -/
  t1Used : Nat := 0
  /-- T1 pages that have left EMPTY (13 R357 T1_PAGE_MS). -/
  t1Held : Nat := 0
  t3Used : Nat := 0
deriving DecidableEq, Repr, Inhabited

/-- A T3 area (07 R194). -/
structure T3Area where
  data : DWord
  tag : DWord
  /-- T3 frames in use: frame to the request whose content it holds (07 R195). -/
  frames : Tab ReqId
deriving DecidableEq, Repr, Inhabited

/-- The TIER and LPC blocks, T1, the store slices and T3 (07). -/
structure Tier where
  /-- TIER_STATUS.BUSY, 1 (07 R205); reset 0. -/
  busy : Bool := false
  /-- TIER_STATUS.CODE, 8 (07 R205); reset 0x00. -/
  code : Byte := 0
  /-- TIER_STATUS.RATE, 4 (07 R179, R205); reset 0x0 not trained. -/
  rate : BitVec 4 := 0
  /-- TIER_TENANT, 16 (07 R205); reset 0 (2). -/
  tenant : BitVec 16 := 0
  /-- TIER_T1_LIMIT, 32 (07 R205); reset 0 (2). -/
  t1Limit : Word := 0
  /-- TIER_T3_LIMIT, 32 (07 R205); reset 0 (2). -/
  t3Limit : Word := 0
  /-- TIER_T1_USED, 32 (07 R205); reset 0 (2). -/
  t1Used : Word := 0
  /-- TIER_T3_USED, 32 (07 R205); reset 0 (2). -/
  t3Used : Word := 0
  /-- TIER_T3_PART, 3 (07 R205); reset 0 (2). -/
  t3Part : PartId := 0
  /-- TIER_T3_DATA_LO/HI, 64 (07 R205); reset 0 (2). -/
  t3DataLo : Word := 0
  t3DataHi : Word := 0
  /-- TIER_T3_TAG_LO/HI, 64 (07 R205); reset 0 (2). -/
  t3TagLo : Word := 0
  t3TagHi : Word := 0
  /-- TIER_RETIRED, 32 (07 R189, R205); reset 0 (2). -/
  retired : Word := 0
  /-- TIER_T3_ERR, 32 (07 R198, R205); reset 0 (2). -/
  t3Err : Word := 0
  /-- TIER_EXPIRED, 32 (07 R197, R205); reset 0 (2). -/
  expired : Word := 0
  /-- TIER_SCRUB, 32 (07 R187, R205); reset 0 (2). -/
  scrub : Word := 0
  /-- scrub cursor, a device address (07 R187); reset 0 (2). -/
  scrubAt : Nat := 0
  /-- TIER_CH_FAIL, 48 (07 R190, R205); reset 0 (2). -/
  chFail : BitVec 48 := 0
  /-- good channels in ascending order, G of them (07 R180); reset none trained. -/
  good : List Nat := []
  /-- LPC windows by channel (07 R205); reset each at its reset values. -/
  lpc : Tab Lpc := []
  /-- T1, plain content by device address (07 R180); reset reads zero (R186). -/
  t1 : Mem := []
  /-- T1 frames whose written bit is set (07 R186); reset none. -/
  written : Tab Unit := []
  /-- retired frames (07 R189, 18 R471); reset none. -/
  retiredFrames : List Nat := []
  /-- store slices by region × 2^27 + offset (07 R174); reset zero, cleared by R203. -/
  slices : Mem := []
  /-- explicit slices whose unwritten bytes are undefined since a forme commit, with the free-value key of that
  commit (07, *Store die slices*); reset none. -/
  sliceUndef : Tab Nat := []
  /-- slice byte ranges (start, end) written since then, by region (07); reset none. -/
  sliceKept : Tab (List (Nat × Nat)) := []
  /-- dirty cache-mode lines: device line addresses, by region (02 R50, 07 R174); reset none. -/
  dirty : Tab (List Nat) := []
  /-- cache ways disabled after an uncorrectable clean line, by region × 16384 + set (07 R174, R177); reset 0. -/
  waysOff : Tab Nat := []
  /-- T1 granules whose data is lost, by granule number: a read of one fails until the granule is written (07 R184, R191);
  reset none. -/
  lost : List Nat := []
  /-- explicit-slice lines whose data is lost, by region × 2^18 + line: a read of one fails until the line is written (07 R177,
  R191); reset none. -/
  lostLines : List Nat := []
  /-- explicit-slice lines marked bad, by region × 2^18 + line (07 R177; log entry 169); reset none. -/
  badLines : List Nat := []
  /-- granules that failed R184 in the scrub, handled at the next step boundary (07 R187); reset none. -/
  scrubBad : List Nat := []
  /-- a granule of the firmware reserve has failed: the device stops (07 R189); reset no. -/
  reserveBad : Bool := false
  /-- the position each crossbar output's token stands at, by region × 18 + output: a cluster's position, 16 for the slice, 17 for
  the port of the mesh (01 R23; log entry 180); reset 0 (2). -/
  xbar : Tab Nat := []
  /-- quota table by tenant (07 R200); reset none. -/
  quotas : Tab Quota := []
  /-- T3 areas by partition (07 R194); reset none bound. -/
  t3 : Tab T3Area := []
deriving DecidableEq, Repr, Inhabited

end Sys2Proof.Machine
end

