-- ==== Sys2Proof/Machine/St/Request.lean ====
section
/-!
DEFINITION. The state of the request records and galleys (08) and of the pairs, maps and liveness (09).
-/

namespace Sys2Proof.Machine

/-- A request record (08 R208); 'FREE' records are absent from the table. -/
structure Rec where
  reqId : ReqId := 0
  state : BitVec 4 := 0
  status : Byte := 0
  /-- [0] anchor, [1] owner, [2] serving member, [3] partner member. -/
  view : BitVec 4 := 0
  flags : Byte := 0
  tenant : BitVec 16 := 0
  part : PartId := 0
  partGen : Byte := 0
  context : FnId := 0
  priority : Byte := 0
  specLen : Nat := 0
  stage : Byte := 0
  epoch : Word := 0
  deadline : DWord := 0
  promptLen : Nat := 0
  commitLen : Nat := 0
  maxLen : Nat := 0
  prefilled : Nat := 0
  anchor : DevId := 0
  owner : DevId := 0
  /-- lower slot of the cache pair; none is 0xFF. -/
  pair : Byte := 0xFF
  servingSlot : Byte := 0
  step : Word := 0
  /-- reserve frame of the galley map; none is 0xFFFFFFFF. -/
  map : Word := 0xFFFFFFFF
  resv : Nat := 0
  held : Nat := 0
  admitTb : DWord := 0
  expiry : DWord := 0
  shelveSeq : Word := 0
  pending : Word := 0
  hostTag : DWord := 0
  colophon : Word := 0
  ttl : Word := 0
  /-- terminal conditions that hold at the next boundary (00 R11). -/
  conds : List Status := []
  /-- routing of this record's stage (16 R419). -/
  gen : DevId := 0
  prompt : DevId := 0
  /-- the end of the stage's drop is awaited from these devices of the tray (08 R230): slots. -/
  dropWait : List Nat := []
  /-- the stage's other nodes have been told to drop (08 R230). -/
  dropTold : Bool := false
  /-- stage chain, layer values not yet folded, CHECK events and stage events (14 R376, R377). -/
  chain : Digest := 0
  /-- geometry identifiers of the prompt and generation devices of the stage that have committed for the request (14 R362). -/
  geoms : List Digest := []
  /-- firmware versions of the devices of the stage that have committed for the request (14 R361, R378). -/
  fws : List Word := []
  /-- effective forme digests of the devices of the stage that have committed for the request (14 R378). -/
  formes : List Digest := []
  ld : Tab (List (Nat × BitVec 128)) := []
  events : List ColophonEvent := []
  /-- outcome events of the step or chunk in flight, which its COMMIT makes the stage's (14 R364, R380; log entry 185). -/
  stepEvents : List ColophonEvent := []
  /-- widening re-runs that have not ended: layer, segment, level (04 R116, R118). -/
  reruns : List (Nat × Nat × Nat) := []
  /-- the step's output is discarded and the step is repeated (09 R246). -/
  redo : Bool := false
  /-- a speculative row of the step in flight drew RETRY_LATER, or was lost with its member: a is 0 (08 R225, R235). -/
  noSpec : Bool := false
  /-- the prefill in progress runs over history alone: its end writes the pending token and forms none (08 R233). -/
  replay : Bool := false
  /-- widened, overrun and degraded marks of this stage (00 R13). -/
  widened : Bool := false
  overran : Bool := false
  degraded : Bool := false
  /-- generation parameters the record needs at stage 0: [2] of the capsule FLAGS, pause at the end token (16 R420). -/
  pauseAtEnd : Bool := false
  /-- owner: the step or chunk whose COMMIT is not acknowledged yet (08 R221, R226). -/
  boundary : Option StepEnd := none
  /-- this stage is the last one, and stage 0's generation node: where tokens go (08 R227). -/
  lastStage : Bool := false
  gen0 : DevId := 0
  /-- owner: the hand-over count its compare-and-swap expects (08 R222). -/
  count : Nat := 0
deriving DecidableEq, Repr, Inhabited

/-- One logical page of a galley on this member (08 R210, R211, R217). -/
structure Page where
  /-- T1 frame number, or T3 frame while SHELVED. -/
  frame : Nat := 0
  /-- 0 EMPTY, 1 OPEN, 2 SEALED, 3 MIRRORED, 4 SHELVED, 5 EXPIRED. -/
  state : BitVec 3 := 0
  coded : Bool := false
  /-- step tags by entry (08 R210). -/
  tags : Tab Word := []
  written : BitVec 64 := 0
  spec : BitVec 64 := 0
  sealDigest : Digest := 0
  /-- the partner's digest received before this member's own seal (08 R216). -/
  partner : Option Digest := none
  /-- a seal is in progress (08 R215). -/
  sealing : Bool := false
  /-- the content of a shelved page, as T3 holds it (07 R195). -/
  shelf : List Byte := []
  /-- the shelved image is a tail image (07 R196). -/
  tail : Bool := false
  /-- parts of a page being received, and failed digests of it (08, *Mover operations*; 09 R250). -/
  parts : List (Nat × List Byte) := []
  misses : Nat := 0
  /-- verified by bring-in (09 R250). -/
  verified : Bool := false
  /-- survivor: sent to the spare (09 R248). -/
  sent : Bool := false
deriving DecidableEq, Repr, Inhabited

/-- A layer of a galley (08, *Layer descriptor*). -/
structure GLayer where
  commit : Nat := 0
  specEnd : Nat := 0
  pages : Tab Page := []
  thumbs : Tab Page := []
deriving DecidableEq, Repr, Inhabited

/-- What the serving member does with T3 for a galley (07 R196). -/
inductive ShelfOp where
  | idle
  | shelving
  /-- a recall has reserved here and waits for its partner's reservation (07 R201, R202). -/
  | reserving
  | recalling (turnTokens : Bool)
deriving DecidableEq, Repr, Inhabited

/-- A galley map and the galley's pages on this member (08 R211). -/
structure Galley where
  reqId : ReqId
  part : PartId
  tenant : BitVec 16
  layers : Nat
  firstLayer : Nat
  owner : DevId
  /-- hand-over count, OWNER_WORD[47:16]. -/
  count : Nat
  serving : Slot
  partner : Slot
  /-- bound latent slot is B. -/
  slotB : Bool
  coded : Bool
  ver : Byte
  table : Nat
  hist : Tab Page
  shelveSeq : Word
  expiry : Nat
  /-- RECORD: copy of the owner's record at the last step boundary (08 R211). -/
  rec_ : Rec
  layer : Tab GLayer
  /-- pages reserved on this member (07 R201, 08 R220). -/
  resv : Nat
  /-- tick at which the galley paused (08 R231). -/
  pausedAt : Option Nat
  op : ShelfOp
  /-- the shelve runs under a drain (02 R63). -/
  drainShelf : Bool
  /-- tick of the last T3 fault of its shelve (07 R198). -/
  faultAt : Option Nat
  /-- bring-in: live-mirrored; verified; its map has been sent or received once (09 R248, R250). -/
  mirrored : Bool
  verified : Bool
  copied : Bool
  /-- a drop or a recall waits for the shelve or recall in progress (08 R228, R231). -/
  dropAfter : Bool
  /-- a resume that waits for the shelve in progress or for room (08 R231, 07 R201). -/
  resume : Option StageResume
  /-- the galley is received by a copy-out from this device (08 R234). -/
  source : Option DevId := none
  /-- the partner has accepted a recall of it, which holds it here too (07 R197). -/
  recalled : Bool := false
deriving DecidableEq, Repr, Inhabited

/-- What the anchor keeps of a request beside its record (08 R207, 14 R377, 16). -/
structure AnchorInfo where
  route : List Route
  session : Word
  ring : RingRef
  /-- generation-parameter block P, 64 bytes (14 R363). -/
  params : List Byte
  /-- segments not yet begun (16 R421). -/
  segments : List PrefillSeg
  /-- tokens of the prefill in progress and history for the input digest (14 R363). -/
  input : Digest
  output : Digest
  /-- code under which the request ends, once DRAINING (00 R11). -/
  code : Option Status
  /-- stages that have reported their drop (08 R230). -/
  dropped : List Nat
  entries : List StageEntry
  events : List ColophonEvent
  degraded : Bool
  overrun : Bool
  widened : Bool
  /-- no completion, record or colophon is posted: a context reset ended it (16 R434). -/
  silent : Bool
  /-- the last stage has confirmed the admission: ACCEPTED was posted (08 R219, 16 R424). -/
  accepted : Bool
  /-- stages that have confirmed the last resume or the pause (08 R231, R232). -/
  confirms : List Nat
  /-- the request's tokens by position so far: input and emitted ones (08 R233, 14 R363). -/
  history : List Word
  /-- new prompt tokens of the turn that resumes (08 R232). -/
  turn : List Word
  /-- the entry was counted as taken by its ring set and is not yet admitted or refused (16 R416). -/
  taking : Bool
  /-- the admission was refused with this code, and the devices of the stages release what it took (08 R219, 00 R10). -/
  refused : Option Status := none
  /-- devices that have released it. -/
  released : List DevId := []
  /-- stages whose galley is shelved (07 R197, 09 R257). -/
  shelved : List Nat := []
deriving DecidableEq, Repr, Inhabited

/-- A hand-over in progress on the old owner (08 R222, R223). -/
structure Handover where
  req : ReqId
  dest : DevId
  count : Nat
  /-- tick at which the compare-and-swap was sent; none before it (08 R223). -/
  casAt : Option Nat
deriving DecidableEq, Repr, Inhabited

/-- A copy-out in progress on the serving member (08 R234). -/
structure CopyOut where
  req : ReqId
  dest : DevId
deriving DecidableEq, Repr, Inhabited

/-- The REQ and MOVER blocks with what they keep (08). -/
structure Req where
  /-- REQ_STATUS.BUSY, 1 (08 R238); reset 0. -/
  busy : Bool := false
  /-- REQ_STATUS.CODE, 8 (08 R238); reset 0x00. -/
  code : Byte := 0
  /-- REQ_SEL, 16 (08 R238); reset 0 (2). -/
  sel : BitVec 16 := 0
  /-- REQ_REPREFILL, 32 (08 R238); reset 0 (2). -/
  reprefill : Word := 0
  /-- REQ_LOST, 32 (08 R238); reset 0 (2). -/
  lost : Word := 0
  /-- REQ_SPEC_ACC, 32 (08 R238); reset 0 (2). -/
  specAcc : Word := 0
  /-- REQ_SPEC_REJ, 32 (08 R238); reset 0 (2). -/
  specRej : Word := 0
  /-- STEP of this device's current batch step, 32 (08 R224); reset 0 (2). -/
  step : Word := 0
  /-- admission counter, 48 (08 R206); reset 1. -/
  counter : Nat := 1
  /-- request records by index, at most 65,536 (08 R207, R208); reset all FREE. -/
  recs : Tab Rec := []
  /-- RETIRED records, oldest first (08 R209); reset none. -/
  retired : List Nat := []
  /-- galleys by REQ_ID (08 R211); reset none. -/
  galleys : Tab Galley := []
  /-- anchor's information by REQ_ID (08 R207); reset none. -/
  anchors : Tab AnchorInfo := []
  /-- hand-overs in progress (08 R222); reset none. -/
  handovers : List Handover := []
  /-- copy-outs in progress (08 R234); reset none. -/
  copyouts : List CopyOut := []
  /-- the copy-out completed last and its code (08 R234); reset none. -/
  copyoutCode : Option (ReqId × Status) := none
  /-- token history awaiting COMMIT at the stage-0 owner, by REQ_ID (08 R227); reset none. -/
  tokens : Tab (List (Nat × Word)) := []
  /-- MOVER_HOLD, 32 (08 R239); reset 1000. -/
  hold : Nat := 1000
  /-- MOVER_BACKLOG, 32 (08 R239); reset 65536. -/
  backlog : Word := 65536
  /-- MOVER_APPENDS, 32 (08 R239); reset 0 (2). -/
  appends : Word := 0
  /-- MOVER_DUPS, 32 (08 R239); reset 0 (2). -/
  dups : Word := 0
  /-- MOVER_SEALS, 32 (08 R239); reset 0 (2). -/
  seals : Word := 0
  /-- MOVER_COMMITS, 32 (08 R239); reset 0 (2). -/
  commits : Word := 0
  /-- MOVER_HANDOVERS, 32 (08 R239); reset 0 (2). -/
  handoverCount : Word := 0
  /-- MOVER_SHELVES, 32 (08 R239); reset 0 (2). -/
  shelves : Word := 0
  /-- MOVER_RECALLS, 32 (08 R239); reset 0 (2). -/
  recalls : Word := 0
  /-- MOVER_DROPS, 32 (08 R239); reset 0 (2). -/
  drops : Word := 0
  /-- MOVER_COPYOUTS, 32 (08 R239); reset 0 (2). -/
  copyoutCount : Word := 0
  /-- MOVER_DIGEST_ERR, 32 (08 R239); reset 0 (2). -/
  digestErr : Word := 0
deriving DecidableEq, Repr, Inhabited

/-- An entry of the composition-map table (09 R254). -/
structure MapEntry where
  epoch : Word
  /-- roles of slots 0 to 15, two bits each, as MAP_SLOT codes (09 R265). -/
  roles : List Nat
  leaseEnd : Nat
  current : Bool
deriving DecidableEq, Repr, Inhabited

/-- What a mirrored write does when the partner's acknowledgement arrives (09 R244). -/
inductive MirrorThen where
  | none
  /-- answer the requester of a tray request (08 R215, R222). -/
  | answer (h : TrayHdr) (status : Status) (payload : List Byte)
  /-- the local owner's COMMIT is acknowledged (08 R226). -/
  | localCommit (req : ReqId)
  /-- the local owner's word change is confirmed (08 R222). -/
  | localCas (req : ReqId)
  /-- the drop is complete on both members (08 R230). -/
  | dropDone (req : ReqId)
  /-- the word of a resumed galley names its new owner on both members: the record follows (08 R218, R222). -/
  | handed (req : ReqId) (dest : DevId) (m : StageResume)
deriving DecidableEq, Repr, Inhabited

/-- A write that waits for the partner (09 R244). -/
structure Mirror where
  /-- its number. -/
  id : Nat
  req : ReqId
  /-- writes of the group that the partner has not acknowledged. -/
  left : Nat
  then_ : MirrorThen
  /-- counted in PAIR_HELD already. -/
  counted : Bool
deriving DecidableEq, Repr, Inhabited

/-- A journal entry of bring-in (09 R251). -/
structure JournalItem where
  req : ReqId
  /-- layer, kind (0 latent, 1 thumb, 2 history, 3 map, 4 record) and page. -/
  layer : Nat
  kind : Nat
  page : Nat
deriving DecidableEq, Repr, Inhabited

/-- The PAIR block with MAP and LIVE (09 R265). -/
structure Pair where
  /-- PAIR_STATUS.STATE, 4 (09 R240); reset 0x0 NONE. -/
  state : BitVec 4 := 0
  /-- PAIR_STATUS.CODE, 8 (09 R265); reset 0x00. -/
  code : Byte := 0
  /-- PAIR_STATUS.BUSY, 1 (09 R265); reset 0. -/
  busy : Bool := false
  /-- PAIR_SILVER_RATE, 7 (09 R265); reset 50. -/
  silverRate : Nat := 50
  /-- PAIR_SILVER_TOTAL, 32 (09 R265); reset 0 (2). -/
  silverTotal : Nat := 0
  /-- PAIR_SILVER_DONE, 32 (09 R265); reset 0 (2). -/
  silverDone : Nat := 0
  /-- PAIR_CKPT, 32 (09 R251); reset 0 (2). -/
  ckpt : Nat := 0
  /-- the journal; PAIR_JOURNAL is its length (09 R251); reset empty. -/
  journal : List JournalItem := []
  /-- PAIR_HELD, 32 (09 R244); reset 0 (2). -/
  held : Word := 0
  /-- PAIR_SILVERS, 32 (09 R252); reset 0 (2). -/
  silvers : Word := 0
  /-- PAIR_LOST, 32 (09 R253); reset 0 (2). -/
  lost : Word := 0
  /-- survivor: cursor REQ_ID and page ordinal of the copy; checkpoint cursor (09 R248, R251); reset 0. -/
  cursor : Nat × Nat := (0, 0)
  ckptCursor : Nat × Nat := (0, 0)
  /-- frames copied since the last checkpoint (09 R251); reset 0. -/
  sinceCkpt : Nat := 0
  /-- checkpoint asked for and not acknowledged (09 R251); reset none. -/
  ckptAsked : Option Nat := none
  /-- the final checkpoint was asked for (09 R252); reset no. -/
  finalCkpt : Bool := false
  /-- spare: stored checkpoint with its cursor (09 R251); reset none. -/
  stored : Option (Nat × Nat × Nat) := none
  /-- spare: a checkpoint whose pages are not all verified yet: its request, number and cursor (09 R251); reset none. -/
  ckptWait : Option (TrayHdr × Nat × Nat × Nat) := none
  /-- spare: serves nothing until the copy resumes after a warm reset (09 R252); reset no. -/
  untrusted : Bool := false
  /-- survivor: the spare is in a warm reset, and this member serves alone (09 R252); reset no. -/
  alone : Bool := false
  /-- mirrored writes not yet acknowledged (09 R244); reset none. -/
  mirrors : List Mirror := []
  /-- number of the next group of mirrored writes; reset 0. -/
  nextMirror : Nat := 0
  /-- MAP_EPOCH, 32 (09 R265); reset 0 (2). -/
  mapEpoch : Word := 0
  /-- MAP_LEASE, 32 (09 R265); reset 2000. -/
  mapLease : Nat := 2000
  /-- MAP_SLOT0 to 3, 32 each (09 R265); reset 0. -/
  mapSlot : Tab Word := []
  /-- map table, at most four entries (09 R254); reset empty. -/
  maps : List MapEntry := []
  /-- LIVE_STATUS.STATE, 4: 0 not admitted, 1 live, 2 fenced (09 R265); reset 0x0. -/
  live : BitVec 4 := 0
  /-- LIVE_STATUS.EPOCH, 16 (09 R261); reset 0x0000. -/
  epoch : BitVec 16 := 0
  /-- LIVE_EXPIRY, 64 (09 R259); reset 0 (2). -/
  expiry : Nat := 0
  /-- LIVE_RENEW, ms (09 R265); reset 50. -/
  renew : Nat := 50
  /-- LIVE_SUSPECT, 12 (09 R265); reset 0 (2). -/
  suspect : DevId := 0
  /-- LIVE_EXCLUSIONS, 32 (09 R265); reset 0 (2). -/
  exclusions : Word := 0
  /-- exclusion table: device to (excluded, epoch); an absent device has epoch 0 and has never been admitted (09 R261). -/
  excl : Tab (Bool × BitVec 16) := []
  /-- next SL sequence number (09 R259); reset 1 (2). -/
  slSeq : Nat := 1
  /-- outstanding RENEWs: sequence number and send tick (09 R259); reset none. -/
  renews : List (Nat × Nat) := []
  /-- outstanding ADMIT_REQs since it was fenced (09 R263); reset none. -/
  admits : List (Nat × Nat) := []
  /-- tick of the last RENEW or ADMIT_REQ (09 R259, R260); reset never. -/
  lastRenew : Option Nat := none
deriving DecidableEq, Repr, Inhabited

end Sys2Proof.Machine
end

