-- ==== Sys2Proof/Machine/State.lean ====
section
/-!
DEFINITION. The state of one DN74 as a block, with its queue of waiting commands, and the reasons a step can stop.
The records of the blocks stand in the files of Sys2Proof/Machine/St/; each field's docstring names its register, its
width, the chapter and rule of spec/ and its value after reset.
-/

namespace Sys2Proof.Machine

/-- Why the model stops with a fault. -/
inductive Fault where
  /-- A control command whose operand is out of range reached a compositor. R73 says the loader rejects every stream
  that holds one and none is reached at run time: raised by LOOP, WAITCH, BARRIER and DONEWQ. Safe: a stop. -/
  | invalidCommandWord
deriving DecidableEq, Repr, Inhabited

/-- Why the model gives a command no meaning. -/
inductive Refusal where
  /-- The command has no meaning in this model yet; raised by exec's arms only. Safe: a stop. -/
  | notModelled (mnemonic : String)
deriving DecidableEq, Repr, Inhabited

/-- One DN74 device. -/
structure State where
  /-- the DEV block (17 R447). -/
  dev : Dev := {}
  /-- the MAINT block, the governor and the pins (17 R450, 18, 19). -/
  maint : Maint := {}
  /-- the SEC block and the security complex (15). -/
  sec : Sec := {}
  /-- the host interface (16). -/
  host : Hostif := {}
  /-- the FORME block (02). -/
  forme : Forme := {}
  /-- the CODEC block (06). -/
  codec : Codec := {}
  /-- the TIER and LPC blocks, T1, slices, T3 (07). -/
  tier : Tier := {}
  /-- clusters by physical index (03); an absent entry is a cluster at its reset values. -/
  clusters : Tab Cluster := []
  /-- the SCHED block (13). -/
  sched : Sched := {}
  /-- the REPRO block (14). -/
  repro : Repro := {}
  /-- the REQ and MOVER blocks (08). -/
  req : Req := {}
  /-- the PAIR block with MAP and LIVE (09). -/
  pair : Pair := {}
  /-- the NEAR block (10). -/
  near : Near := {}
  /-- the RMA block (11). -/
  rma : Rma := {}
  /-- the LINK and SHAPER block (12). -/
  links : Links := {}
  /-- the time base, CK_TB, 64 bits (01 R37, 14 R371); reset 0 (2). -/
  tb : Nat := 0
  /-- the model's own: counter of the free values taken so far (log entry 8); reset 0. -/
  free : Nat := 0
  /-- what the block has emitted, oldest first (the model's own record of its outputs). -/
  out : List Emit := []
  /-- the commands that wait, first in, first out; reset empty. -/
  pending : List Instr := []
deriving DecidableEq, Repr, Inhabited

/-- The device after a cold reset at power-on, before its start-up (18 R458, R460). -/
def State.reset : State := {}

/-- What every meaning answers. -/
abbrev Out := Host.Outcome State Fault Refusal

end Sys2Proof.Machine
end

