-- ==== Sys2Proof/Machine/Ops.lean ====
section
/-!
DEFINITION. The shared operations of the device: counters and error capture (17), the control-register protocol (17
R441, R442), identity and liveness, emission, T1 and slice accesses (07), and the free values.
-/

namespace Sys2Proof.Machine

/-! ### Words -/

/-- Bit `n` of a word, as a truth value. -/
abbrev bit (w : Word) (n : Nat) : Bool := w.toNat.testBit n

/-- The field [hi:lo] of a number. -/
def field (v hi lo : Nat) : Nat := (v / 2 ^ lo) % 2 ^ (hi + 1 - lo)

/-- 1 or 0. -/
def b2n (b : Bool) : Nat := if b then 1 else 0

/-- A counter register saturates at the all-ones value (17 R439). -/
def satAdd (w : Word) (n : Nat) : Word := if w.toNat + n ≥ 0xFFFFFFFF then 0xFFFFFFFF else w + BitVec.ofNat 32 n

/-- Count one event (17 R439). -/
abbrev satInc (w : Word) : Word := satAdd w 1

/-- ceil(a ÷ b). -/
def cdiv (a b : Nat) : Nat := (a + b - 1) / b

/-- Serial-number order at width `n`: `a` is newer than `b` (09 R254). -/
def newer (n a b : Nat) : Bool :=
  let d := (a + 2 ^ n - b % 2 ^ n) % 2 ^ n
  decide (0 < d) && decide (d < 2 ^ (n - 1))

/-- The code of a status (00 R9). -/
def codeOf (c : Status) : Byte :=
  match c with
  | .ok => 0x00 | .cancelled => 0x01 | .deadline => 0x02 | .stateLost => 0x03 | .tierFault => 0x04
  | .quota => 0x05 | .epochStale => 0x06 | .denied => 0x07 | .integrity => 0x08 | .tableBusy => 0x09
  | .retryLater => 0x0A | .qpError => 0x0B | .widened => 0x0C | .overrun => 0x0D | .fenced => 0x0E
  | .malformed => 0x0F | .formeMismatch => 0x10 | .degraded => 0x11

/-- The status a code names, if R9 lists it. -/
def statusOf (b : Byte) : Option Status :=
  match b.toNat with
  | 0x00 => some .ok | 0x01 => some .cancelled | 0x02 => some .deadline | 0x03 => some .stateLost
  | 0x04 => some .tierFault | 0x05 => some .quota | 0x06 => some .epochStale | 0x07 => some .denied
  | 0x08 => some .integrity | 0x09 => some .tableBusy | 0x0A => some .retryLater | 0x0B => some .qpError
  | 0x0C => some .widened | 0x0D => some .overrun | 0x0E => some .fenced | 0x0F => some .malformed
  | 0x10 => some .formeMismatch | 0x11 => some .degraded
  | _ => none

/-- Classes S and I: the operation succeeded (00 R9). -/
def isSuccess (c : Status) : Bool :=
  match c with
  | .ok | .widened | .overrun | .degraded => true
  | _ => false

/-- Class F: a terminal failure (00 R9). -/
def isTerminal (c : Status) : Bool :=
  match c with
  | .ok | .widened | .overrun | .degraded | .tableBusy | .retryLater => false
  | _ => true

/-- Rank of a terminal condition at a boundary (00 R11): the six named first, every other after them by code. -/
def rankOf (c : Status) : Nat :=
  match c with
  | .integrity => 0 | .tierFault => 1 | .stateLost => 2 | .fenced => 3 | .cancelled => 4 | .deadline => 5
  | c => 6 + (codeOf c).toNat

/-- The one code reported of the conditions that hold (00 R11). -/
def firstCode (l : List Status) : Option Status :=
  match l with
  | [] => none
  | c :: rest =>
    match firstCode rest with
    | none => some c
    | some d => if rankOf d < rankOf c then some d else some c

/-! ### TMR registers (17 R444) -/

/-- The bitwise majority of the three copies. -/
def Tmr.maj (t : Tmr) : Word := (t.a &&& t.b) ||| (t.a &&& t.c) ||| (t.b &&& t.c)

/-- A write stores all three copies. -/
def Tmr.all (w : Word) : Tmr := { a := w, b := w, c := w }

/-! ### Identity, liveness, emission -/

/-- This device's global identifier (00 R7, 17 R447). -/
def myDev (s : State) : DevId := (s.dev.ident.maj).extractLsb' 0 12

/-- This device's tray slot (00 R7). -/
def mySlot (s : State) : Slot := (s.dev.ident.maj).extractLsb' 0 4

/-- This device's tray (00 R7). -/
def myTray (s : State) : Byte := (s.dev.ident.maj).extractLsb' 4 8

/-- The device of slot `d` of this tray. -/
def devOfSlot (s : State) (d : Nat) : DevId := BitVec.ofNat 12 ((myTray s).toNat * 16 + d % 16)

/-- The device is fenced or has not been admitted since its cold start (09 R260). -/
def fenced (s : State) : Bool := s.pair.live != 1

/-- The device may emit on near and far links (01 R32, 09 R260, 18 R463, R466). -/
def mayEmit (s : State) : Bool := !fenced s && !s.maint.silent && s.maint.pwrgd

/-- Record an output. -/
def emit (e : Emit) (s : State) : State := { s with out := s.out ++ [e] }

/-- Raise an MSI-X vector (16 R430). While fenced only the PF's liveness-event vector is raised (09 R260). -/
def msix (fn : FnId) (v : Nat) (s : State) : State :=
  if s.host.linkUp && (!fenced s || (fn == 0 && v == 2)) then emit (.msix fn v) s else s

/-- The service link SL is UP (12 R324, R339: link 31). -/
def slUp (s : State) : Bool := (Tab.getD s.links.links 31 {}).state == 2

/-- A key for byte `n` under draw `k`, apart from every other use of the free bytes. -/
def freeKey (k n : Nat) : Nat := (k + 1) * 2 ^ 64 + n

/-- A free value is taken: the counter moves on. -/
def bumpFree (s : State) : State := { s with free := s.free + 1 }

/-! ### The region crossbar (01 R23) -/

/-- The requester that a crossbar output grants: from its token on the positions are visited in ascending order, and those that do
not request are skipped. -/
def xbarPick (token : Nat) (req : List Nat) : Option Nat :=
  ((List.range 16).map (fun i => (token + i) % 16)).find? (fun p => req.contains p)

/-- Output `out` of region `r` grants among the positions that request it, and its token moves past the one it granted. One command
is one request, so in this model the requesters are one position (log entry 180). -/
def xbarGrant (r out : Nat) (req : List Nat) (s : State) : State :=
  let k := r * 18 + out
  match xbarPick (Tab.getD s.tier.xbar k 0) req with
  | none => s
  | some p => { s with tier := { s.tier with xbar := Tab.put s.tier.xbar k ((p + 1) % 16) } }

/-- The outputs of a region's crossbar besides its 16 clusters: its slice, and its port of the mesh (log entry 180). -/
def xbarSlice : Nat := 16
def xbarMesh : Nat := 17

/-- Cluster `n` passes the crossbar of its region to an output of it. -/
def xbarPass (n out : Nat) (s : State) : State := xbarGrant (n / 16) out [n % 16] s

/-- Cluster `n` reaches the slice of region `r`: in its own region at the slice, else over the mesh. -/
def xbarToSlice (n r : Nat) (s : State) : State := xbarPass n (if r = n / 16 then xbarSlice else xbarMesh) s

/-- Cluster `n` reaches cluster `m`: in its own region at that cluster, else over the mesh. -/
def xbarToCluster (n m : Nat) (s : State) : State := xbarPass n (if m / 16 = n / 16 then m % 16 else xbarMesh) s

/-! ### The time base (01 R37, 14 R371) -/

/-- One tick of the time base. A correction that is left holds or skips at most one tick in any 4,096 tb (14 R371). -/
def tbTick (s : State) : State :=
  let due := match s.repro.lastSlew with
    | none => true
    | some t => decide (t + 4096 ≤ s.tb)
  if s.repro.slewLeft = 0 || !due then { s with tb := s.tb + 1 }
  else if 0 < s.repro.slewLeft then
    { s with tb := s.tb + 2, repro := { s.repro with slewLeft := s.repro.slewLeft - 1, lastSlew := some (s.tb + 2) } }
  else { s with repro := { s.repro with slewLeft := s.repro.slewLeft + 1, lastSlew := some s.tb } }

/-! ### Error capture (17 R448, R449) -/

/-- An event of *Error sources*: block `b`, instance `i`, source register offset `off`. -/
def noteErr (b i off : Nat) (s : State) : State :=
  let err := s.dev.err ||| BitVec.ofNat 32 (2 ^ b)
  if bit s.dev.firstErr 31 then
    { s with dev := { s.dev with err := err, firstErr := s.dev.firstErr ||| 0x40000000 } }
  else
    { s with dev := { s.dev with
        err := err
        firstErr := BitVec.ofNat 32 (2 ^ 31 + b * 2 ^ 24 + (i % 2 ^ 11) * 2 ^ 13 + off % 2 ^ 13)
        firstTb := BitVec.ofNat 64 s.tb } }

/-! ### Host accesses -/

/-- The function's TLPs are dropped: its IDE stream, or the link stream 0, is Insecure (16 R431). -/
def ideDrops (s : State) (fn : FnId) : Bool := s.host.ide.any (fun e => e.2.insecure && (e.1 == 0 || e.2.fn == fn))

/-- An access of function `fn` reaches the device, which completes it (17 R446, 16 R414, R431). -/
def responds (s : State) (fn : FnId) : Bool :=
  s.maint.pwrgd && s.host.linkUp && decide (fn.toNat ≤ s.host.numVfs) && !s.host.d3.contains fn.toNat && !ideDrops s fn

/-- The function's BAR is live: outside a function-level reset, in which it reads zero and ignores writes (17 R446, 16 R433). -/
def answers (s : State) (fn : FnId) : Bool := responds s fn && !s.host.flr.contains fn.toNat

/-- A write of the physical function reaches a PF block that is live (17 R445, R446); `early`: DEV, SEC and MAINT are
live before READY. -/
def pfLive (s : State) (fn : FnId) (early : Bool) : Bool := answers s fn && fn == 0 && (early || s.dev.ready)

/-- The bits of a masked write that are written as 1 (17 R441). -/
def ctlOnes (w : CtlWrite) : Nat := (w.value.toNat / 65536) &&& (w.value.toNat % 65536)

/-- Bit `n` of [15:0] is under the mask (17 R441). -/
def ctlMasked (w : CtlWrite) (n : Nat) : Bool := bit w.value (n + 16)

/-- The value a setting bit takes (17 R441). -/
def ctlSetting (w : CtlWrite) (n : Nat) (old : Bool) : Bool := if ctlMasked w n then bit w.value n else old

/-- The command bits among `cmds` that the write sets. -/
def ctlCommands (w : CtlWrite) (cmds : List Nat) : List Nat := cmds.filter (fun n => (ctlOnes w).testBit n)

/-- The command-register protocol of R442: `cmds` are the block's command bits, `own` the bit of the command whose row
this is; `code` sets CODE, `settings` applies the setting bits, `run` executes the command. -/
def ctl (w : CtlWrite) (early : Bool) (cmds : List Nat) (own : Nat) (busy : State → Bool)
    (code : Status → State → State) (settings run : State → State) (s : State) : State :=
  if pfLive s w.fn early then
    match ctlCommands w cmds with
    | [] => settings s
    | [n] =>
      if n = own then
        if busy s then code .retryLater s else run (settings s)
      else s
    | _ => code .malformed s
  else s

/-! ### T1 (07) -/

/-- The channel that holds T1 frame `f` (07 R180). -/
def chanOf (s : State) (f : Nat) : Nat := (s.tier.good[f % s.tier.good.length]?).getD 0

/-- Change the LPC window of channel `c`. -/
def lpcUpd (c : Nat) (f : Lpc → Lpc) (s : State) : State :=
  { s with tier := { s.tier with lpc := Tab.upd s.tier.lpc c {} f } }

/-- The 512-byte granules that the bytes from `addr` on touch (07 R180), as granule numbers. -/
def granules (addr n : Nat) : List Nat :=
  if n = 0 then [] else (List.range ((addr + n - 1) / 512 - addr / 512 + 1)).map (fun i => addr / 512 + i)

/-- Count `k` granule reads or writes of a granule list in their channels' LPC_RD or LPC_WR (07 R205). -/
def countGranules (wr : Bool) (gs : List Nat) (s : State) : State :=
  gs.foldl (fun s g => lpcUpd (chanOf s (g / 128))
    (fun l => if wr then { l with wr := l.wr + 1 } else { l with rd := l.rd + 1 }) s) s

/-- The T1 bytes at a device address; a frame whose written bit is clear reads zero (07 R186). -/
def t1Bytes (s : State) (addr n : Nat) : List Byte := Mem.load s.tier.t1 addr n

/-- The first device address of partition `p`'s T1 space (07 R181). -/
def partAddr (s : State) (p : Nat) : Nat := Tab.getD s.forme.partBase p 0 * Config.frameBytes

/-- The device address of an offset in the plate space, which follows the firmware reserve (07 R181). -/
def plateAddr (off : Nat) : Nat := Config.reserveFrames * Config.frameBytes + off

/-! ### The committed forme -/

/-- The partitions of the committed forme. -/
def partition (s : State) (p : Nat) : Option PartitionSect :=
  match s.forme.committed with
  | none => none
  | some c => Tab.find c.parts p

/-- The partition of context `c` (13 R340). -/
def partOfCtx (s : State) (c : Nat) : Option Nat :=
  match s.forme.committed with
  | none => none
  | some f => (f.parts.find? (fun e => e.2.contextMask.toNat.testBit c)).map (fun e => e.1)

/-- The partition that owns region `r` (02 R49, R51). -/
def partOfRegion (s : State) (r : Nat) : Option Nat :=
  match s.forme.committed with
  | none => none
  | some f => (f.parts.find? (fun e => e.2.regionMask.toNat.testBit r)).map (fun e => e.1)

/-- The regions a partition owns (02 R51). -/
def regionsOf (s : State) (p : Nat) : List Nat :=
  match partition s p with
  | none => []
  | some q => (List.range 8).filter (fun r => q.regionMask.toNat.testBit r)

/-- REGION_CONFIG of region `r`. -/
def regionCfg (s : State) (r : Nat) : Option RegionConfig :=
  match s.forme.committed with
  | none => none
  | some f => Tab.find f.regions r

/-- Full geometry (02 R47). -/
def fullGeom (s : State) : Bool :=
  match s.forme.committed with
  | none => false
  | some f => f.header.geometry == 1

/-- The role of the committed forme: 0 none, 1 prompt, 2 generation, 3 cache (02 FORME_STATUS). -/
def roleOf (s : State) : Nat :=
  match s.forme.committed with
  | none => 0
  | some f => f.header.role.toNat

/-- STATE is ACTIVE, DRAINING or REPLACING (10 R276, 09 R240). -/
def formeServes (s : State) : Bool := s.forme.state == 3 || s.forme.state == 4 || s.forme.state == 5

/-- The partner slot of this device by its forme's PARTNER bytes (02 R45, 09 R240). -/
def partnerSlot (s : State) : Option Nat :=
  match s.forme.committed with
  | none => none
  | some f =>
    if f.header.role == 3 then
      match f.role.partner[(mySlot s).toNat]? with
      | some b => if b = 0xFF then none else some b.toNat
      | none => none
    else none

/-! ### T1 writes (02 R50; 07 R174, R182, R185, R186) -/

/-- The cache-mode region whose backing range holds T1 granule `g`: every access to the range passes through its slice
(02 R50, 07 R174). -/
def backingRegion (s : State) (g : Nat) : Option Nat :=
  (List.range 8).find? (fun r =>
    match regionCfg s r with
    | some c =>
      let lo := partAddr s c.partition.toNat + c.backingBase.toNat
      c.mode == 1 && decide (lo ≤ 512 * g) && decide (512 * g < lo + c.backingLen.toNat)
    | none => false)

/-- One granule is written to LPDDR6: a part of one is read and merged first (07 R185); the first write into a frame fills
its other 127 granules with zeros and sets its written bit, and finds nothing to read (R186). A granule whose data is lost holds data
again only once it is written whole: a part merged with what is lost stays lost (R191). -/
def granuleWrite (part : Bool) (g : Nat) (s : State) : State :=
  let f := g / 128
  let first := (Tab.find s.tier.written f).isNone
  let s := { s with tier := { s.tier with
    written := Tab.put s.tier.written f (), lost := if part then s.tier.lost else s.tier.lost.filter (fun x => x != g) } }
  lpcUpd (chanOf s f) (fun l => { l with
    rd := if part && !first then l.rd + 1 else l.rd, wr := if first then l.wr + 128 else l.wr + 1 }) s

/-- One granule of a T1 write reaches its place: the slice that covers it, where the line becomes dirty, or LPDDR6. -/
def granuleStore (addr n : Nat) (s : State) (g : Nat) : State :=
  match backingRegion s g with
  | some r =>
    let d := Tab.getD s.tier.dirty r []
    if d.contains g then s else { s with tier := { s.tier with dirty := Tab.put s.tier.dirty r (d ++ [g]) } }
  | none => granuleWrite (decide (512 * g < addr) || decide (addr + n < 512 * (g + 1))) g s

/-- Write T1 bytes (07 R174, R182, R185, R186). -/
def t1Write (addr : Nat) (bs : List Byte) (s : State) : State :=
  (granules addr bs.length).foldl (granuleStore addr bs.length)
    { s with tier := { s.tier with t1 := Mem.store s.tier.t1 addr bs } }

/-! ### Clusters -/

/-- The cluster with physical index `n`. -/
def cluster (s : State) (n : Nat) : Cluster := Tab.getD s.clusters n {}

/-- Change one cluster. -/
def clusterUpd (n : Nat) (f : Cluster → Cluster) (s : State) : State :=
  { s with clusters := Tab.upd s.clusters n {} f }

/-- The disabled-unit map: bit n set, CLn is disabled (18 R471). -/
def disabledMap (s : State) : BitVec 128 :=
  match s.maint.record with
  | none => 0
  | some r => r.disabled

/-- A physical cluster is good (02 R47). -/
def goodCluster (s : State) (n : Nat) : Bool := !(disabledMap s).toNat.testBit n

/-- The spare position of a region (00 R7): 15 unless the repair record names another; no field of the record names
one, so 15 (log entry 31). -/
def sparePos (_ : State) (_ : Nat) : Nat := 15

/-- The logical index a physical cluster serves, in fixed geometry (14 R367). -/
def logicalOf (s : State) (n : Nat) : Option Nat :=
  match (List.range 15).find? (fun p => Tab.find s.repro.lmap (n / 16 * 16 + p) == some (n % 16)) with
  | some p => some (n / 16 * 15 + p)
  | none => none

/-- The physical cluster behind an index that a program names: logical in fixed geometry, physical in full (03 R90). -/
def physOf (s : State) (i : Nat) : Option Nat :=
  if fullGeom s then (if i < 128 then some i else none)
  else (Tab.find s.repro.lmap (i / 15 * 16 + i % 15)).map (fun q => i / 15 * 16 + q)

/-- The index by which programs and messages name a physical cluster (03 R90, 10 R271 SRC_CL). -/
def progIndex (s : State) (n : Nat) : Nat :=
  if fullGeom s then n else (logicalOf s n).getD n

/-! ### Meters (13 R357, R358) -/

/-- Charge a tenant: created at its first charge, the overflow entry when the table is full (13 R357). -/
def meterAdd (tenant : Nat) (f : Meter → Meter) (s : State) : State :=
  match Tab.find s.sched.meters tenant with
  | some m => { s with sched := { s.sched with meters := Tab.put s.sched.meters tenant (f m) } }
  | none =>
    if s.sched.meters.length < 4095 then
      { s with sched := { s.sched with meters := Tab.put s.sched.meters tenant (f {}) } }
    else { s with sched := { s.sched with overflow := some (f (s.sched.overflow.getD {})) } }

/-- Charge a state-mover operation's local T1 bytes, read or written, to the tenant of its request (13 R357, R358). -/
def meterT1 (tenant : BitVec 16) (n : Nat) (s : State) : State :=
  meterAdd tenant.toNat (fun m => { m with t1 := m.t1 + BitVec.ofNat 64 n }) s

/-- Charge bytes that a state-mover operation writes to a peer's T1 (13 R357, R358). -/
def meterT2 (tenant : BitVec 16) (n : Nat) (s : State) : State :=
  meterAdd tenant.toNat (fun m => { m with t2 := m.t2 + BitVec.ofNat 64 n }) s

/-- Charge host-tier bytes shelved or recalled (13 R357, R358). -/
def meterT3 (tenant : BitVec 16) (n : Nat) (s : State) : State :=
  meterAdd tenant.toNat (fun m => { m with t3 := m.t3 + BitVec.ofNat 64 n }) s

/-! ### Functions and ring sets -/

/-- The HOSTIF block of a function. -/
def fnHost (s : State) (fn : FnId) : FnHost := Tab.getD s.host.fns fn.toNat {}

/-- Change a function's HOSTIF block. -/
def fnUpd (fn : FnId) (f : FnHost → FnHost) (s : State) : State :=
  { s with host := { s.host with fns := Tab.upd s.host.fns fn.toNat {} f } }

/-- A ring set. -/
def ringSet (s : State) (r : RingRef) : RingSet := Tab.getD (fnHost s r.fn).sets r.set.toNat {}

/-- Change a ring set. -/
def ringUpd (r : RingRef) (f : RingSet → RingSet) (s : State) : State :=
  fnUpd r.fn (fun h => { h with sets := Tab.upd h.sets r.set.toNat {} f }) s

/-! ### The random generator (15 R391) -/

/-- A request to the generator: the draw's key for a free value, and the count toward the reseed. -/
def draw (s : State) : Nat × State :=
  (s.free, { s with free := s.free + 1, sec := { s.sec with
      drbg := if s.sec.drbg + 1 ≥ 2 ^ 20 then 0 else s.sec.drbg + 1 } })

end Sys2Proof.Machine
end

