-- ==== Sys2Proof/Machine/Egress.lean ====
section
/-!
DEFINITION. Sending: the egress queues of the links with their fair-queueing stamps (12 R333), the path to a tray slot
(10 R286), the plane of a pod message (11 R303), and the posting of tray requests, pod messages and firmware messages.
-/

namespace Sys2Proof.Machine

/-! ### Links -/

/-- Link `n` (12 R339). -/
def link (s : State) (n : Nat) : Link := Tab.getD s.links.links n {}

/-- Change link `n`. -/
def linkUpd (n : Nat) (f : Link → Link) (s : State) : State :=
  { s with links := { s.links with links := Tab.upd s.links.links n {} f } }

/-- Link `n` is UP. -/
def linkIsUp (s : State) (n : Nat) : Bool := (link s n).state == 2

/-- The end of a link session: frames in flight, the retry buffer, credits, keys and queue go (12 R324, R328). -/
def sessionOver (l : Link) : Link :=
  { l with
    keyPhase := false, rxPhase := false, txSeq := 0, rxSeq := 0, txc := 0, retry := [], granted := [], spent := [], freed := []
    part := [], ackAt := 0, authAt := [], uncAt := [], rekeyAt := none, twoKeys := false, keyed := false, keyWait := [], queue := []
    upAt := none }

/-- The port die of a link: near links 0 to 7 and far links 15 to 22 on die A (00 R7). -/
def dieOf (n : Nat) : Nat := if n ≤ 7 || (15 ≤ n && n ≤ 22) then 0 else 1

/-- A device is excluded, or was never admitted, in this device's exclusion table (09 R261). -/
def excluded (s : State) (d : Nat) : Bool :=
  match Tab.find s.pair.excl d with
  | some (x, _) => x
  | none => false

/-- The exclusion table's epoch of a device (09 R261). -/
def exclEpoch (s : State) (d : Nat) : BitVec 16 :=
  match Tab.find s.pair.excl d with
  | some (_, e) => e
  | none => 0

/-! ### Fair queueing (12 R333, R334) -/

/-- The tenant slot of a packet (12 R333). -/
def tenantSlot (s : State) (t : Option (BitVec 16)) : Nat :=
  match t with
  | none => 0
  | some t =>
    if t = 0 then 0 else
    match s.links.live.tmap.find? (fun e => e.2 == t) with
    | some (n, _) => n
    | none => 255

/-- Leading of a link kind and traffic class (12 R334). -/
def leading (s : State) (near : Bool) (tc : Nat) : Nat :=
  let w := (Tab.getD s.links.live.leading tc (BitVec.ofNat 32 (72 * 65536 + 40))).toNat
  if near then field w 9 0 else field w 25 16

/-- Values a slot of a die is shaped by. -/
def shapeSlot (x : ShapeSet) (die slot : Nat) : ShapeSlot := Tab.getD x.slots (die * 256 + slot) {}

/-- cost(p, q) of R333. -/
def wfqCost (s : State) (n tc slot payload : Nat) : Nat :=
  let w := (Tab.getD s.links.live.tcw tc 1).toNat * (shapeSlot s.links.live (dieOf n) slot).weight.toNat
  if w = 0 then 0 else (payload + leading s (n ≤ 14) tc) * 65536 / w

/-- The larger of two 48-bit serial numbers (12 R333, 09 R254). -/
def serialMax (a b : Nat) : Nat := if newer 48 b a then b else a

/-- A packet arrives in the queue of its class, or of its TC and slot, on link `n`, stamped on arrival (12 R333). -/
def pushPacket (n : Nat) (pkt : Packet) (cls tc slot : Nat) (tenant : BitVec 16) (payload hdr : Nat) (s : State) : State :=
  let l := link s n
  let stamped := cls = 2 && tc ≠ 0
  let key := tc * 256 + slot
  let empty := !(l.queue.any (fun q => q.cls == 2 && q.tc == tc && q.slot == slot))
  let start := if empty then serialMax l.vtime (Tab.getD l.flast key 0) else Tab.getD l.flast key 0
  let f := (start + wfqCost s n tc slot payload) % 2 ^ 48
  linkUpd n (fun l => { l with
    queue := l.queue ++ [{ pkt := pkt, cls := cls, tc := tc, slot := slot, tenant := tenant, payload := payload,
                           bytes := payload + hdr, at_ := s.tb, fin := if stamped then f else 0 }]
    flast := if stamped then Tab.put l.flast key f else l.flast }) s

/-- Queue a packet on link `n` in its tenant's slot. Nothing is queued while the device may not emit. -/
def enqueue (n : Nat) (pkt : Packet) (cls tc : Nat) (tenant : Option (BitVec 16)) (payload hdr : Nat) (s : State) :
    State :=
  if mayEmit s then pushPacket n pkt cls tc (tenantSlot s tenant) (tenant.getD 0) payload hdr s else s

/-! ### The service link (12 R332; 09, *Liveness messages on SL*) -/

/-- A liveness message goes to the CTRL class of SL; without SL none is sent. It takes one credit (log entry 212). -/
def slSend (m : SlMsg) (s : State) : State := if slUp s then pushPacket 31 (.sl m) 0 0 0 0 0 64 s else s

/-- Send SUSPECT on SL (09 R264): fenced devices send only ADMIT_REQ (R260). -/
def sendSuspect (d : DevId) (s : State) : State := if mayEmit s then slSend (.suspect d) s else s

/-! ### The path to a tray slot (10 R286) -/

/-- The near link of this device to slot `d` (00 R8). -/
def nearLink (s : State) (d : Nat) : Nat := (d + 32 - (mySlot s).toNat - 1) % 16

/-- A slot through which `d` can be reached (10 R286). -/
def viaOk (s : State) (d v : Nat) : Bool :=
  v ≠ (mySlot s).toNat && v ≠ d && linkIsUp s (nearLink s v) && !excluded s (devOfSlot s v).toNat
    && (match Tab.find s.near.lstate v with
        | some l => l.links.toNat.testBit ((d + 32 - v - 1) % 16)
        | none => false)

/-- The path to slot `d`: the link and, by two hops, the intermediate; none when no slot qualifies (10 R286). -/
def trayRoute (s : State) (d : Nat) : Option (Nat × Option Slot) :=
  if linkIsUp s (nearLink s d) then some (nearLink s d, none)
  else
    match ((List.range 15).map (fun i => (d + 1 + i) % 16)).find? (viaOk s d) with
    | some v => some (nearLink s v, some (BitVec.ofNat 4 v))
    | none => none

/-! ### Tray requests (10) -/

/-- The header of a tray request. -/
def reqHdr (r : TrayReq) : TrayHdr :=
  match r with
  | .load h _ | .store h _ _ | .append h _ _ _ | .chmsg h _ | .atomic h _ _ _ | .ownerCas h _ _ _ | .commit h _ _ _ _ _
  | .sealDigest h _ _ _ _ _ | .ownerFwd h _ _ | .mapWrite h _ _ _ | .record h _ _ | .drop h _ | .page h _
  | .ckpt h _ _ _ | .silverSetup h _ _ => h

/-- The request with another header. -/
def withHdr (r : TrayReq) (h : TrayHdr) : TrayReq :=
  match r with
  | .load _ x => .load h x
  | .store _ d x => .store h d x
  | .append _ a row x => .append h a row x
  | .chmsg _ m => .chmsg h m
  | .atomic _ a b x => .atomic h a b x
  | .ownerCas _ q c n => .ownerCas h q c n
  | .commit _ q n st r x => .commit h q n st r x
  | .sealDigest _ q l p d x => .sealDigest h q l p d x
  | .ownerFwd _ q w => .ownerFwd h q w
  | .mapWrite _ q o b => .mapWrite h q o b
  | .record _ q r => .record h q r
  | .drop _ q => .drop h q
  | .page _ p => .page h p
  | .ckpt _ n c p => .ckpt h n c p
  | .silverSetup _ q l => .silverSetup h q l

/-- Payload bytes a request carries (10 R271 LEN, R273). -/
def reqPayload (r : TrayReq) : Nat :=
  match r with
  | .load _ _ => 0
  | .store _ d _ => d.length
  | .append _ _ row _ => 32 + row.length
  | .chmsg _ m => m.length
  | .atomic h _ _ _ => (if field h.op.toNat 6 4 ∈ [2, 3] then 8 else 4) * (if field h.op.toNat 3 0 = 4 then 2 else 1)
    + (if h.addr.toNat / 2 ^ 40 % 16 = 0xC then 8 else 0)
  | .ownerCas .. => 24
  | .commit .. => 20
  | .sealDigest .. => 68
  | .ownerFwd .. => 20
  | .mapWrite _ _ _ b => 20 + b.length
  | .record .. => 140
  | .drop .. => 12
  | .page _ p => 20 + p.bytes.length + (if p.lastPart then 48 else 0)
  | .ckpt .. => 20
  | .silverSetup _ q l => 4 + 12 * q.length + 140 * l.length

/-- TYPE of a request (10 R272). -/
def reqType (r : TrayReq) : Byte :=
  match r with
  | .load .. => 0x01
  | .store .. => 0x02
  | .atomic .. | .ownerCas .. => 0x03
  | .append .. => 0x04
  | .chmsg .. => 0x05
  | _ => 0x07

/-- Traffic class of a request (12 R332): all that a bring-in sends is of TC3. -/
def reqTc (r : TrayReq) (why : TrayWhy) : Nat :=
  match why with
  | .silver _ | .ckpt _ => 3
  | _ =>
    match r with
    | .page .. | .ckpt .. | .silverSetup .. => 3
    | .drop .. | .record .. => 0
    | _ => 1

/-- What this device keeps for destination slot `d`. -/
def trayDst (s : State) (d : Nat) : TrayDst := Tab.getD s.near.dst d {}

/-- Change what it keeps. -/
def trayDstUpd (d : Nat) (f : TrayDst → TrayDst) (s : State) : State :=
  { s with near := { s.near with dst := Tab.upd s.near.dst d {} f } }

/-- An empty header, filled in at issue. -/
def hdr0 : TrayHdr :=
  { type := 0, flags := 0, src := 0, dst := 0, xepoch := 0, seq := 0, tag := 0, part := 0, status := 0, addr := 0,
    len := 0, mepoch := 0, op := 0, srcCl := 0xFF, resv := 0 }

/-- Queue a tray packet towards slot `d` by the path of R286; without a path it waits for R266. -/
def trayPacket (d : Nat) (mk : Bool → Packet) (cls tc : Nat) (tenant : Option (BitVec 16)) (payload : Nat) (s : State) :
    State :=
  match trayRoute s d with
  | none => s
  | some (n, via) => enqueue n (mk via.isSome) cls tc tenant payload 32 s

/-- Mark a request as rerouted or resent (10 R271 FLAGS). -/
def markReq (rerouted resent : Bool) (r : TrayReq) : TrayReq :=
  let h := reqHdr r
  withHdr r { h with flags := (if rerouted then h.flags ||| 2 else h.flags &&& 0xFD) ||| (if resent then 4 else 0) }

/-- The tenant of a request, by its galley or its record (12 R333). -/
def tenantOf (s : State) (q : ReqId) : Option (BitVec 16) :=
  match Tab.find s.req.galleys q.toNat with
  | some g => some g.tenant
  | none => (s.req.recs.find? (fun e => e.2.reqId == q)).map (fun e => e.2.tenant)

/-- The tenant a cluster's work item serves, when it serves one alone (12 R333). -/
def itemTenant (c : Cluster) : Option (BitVec 16) :=
  match c.item with
  | none => none
  | some i =>
    match i.rows with
    | [] => none
    | r :: rest => if rest.all (fun x => x.tenant == r.tenant) then some r.tenant else none

/-- The tenant that a tray request serves (12 R333). -/
def reqTenant (s : State) (r : TrayReq) : Option (BitVec 16) :=
  match r with
  | .append _ a _ _ => tenantOf s a.req
  | .ownerCas _ q _ _ | .commit _ q _ _ _ _ | .sealDigest _ q _ _ _ _ | .ownerFwd _ q _ | .mapWrite _ q _ _ | .record _ q _
  | .drop _ q => tenantOf s q
  | .page _ p => tenantOf s p.req
  | .load h _ | .store h _ _ | .chmsg h _ | .atomic h _ _ _ =>
    match physOf s h.srcCl.toNat with
    | some n => itemTenant (cluster s n)
    | none => none
  | .ckpt .. | .silverSetup .. => none

/-- Queue request `r`, already numbered, towards slot `d`. -/
def trayQueue (d : Nat) (resent : Bool) (r : TrayReq) (why : TrayWhy) (s : State) : State :=
  trayPacket d (fun two => .trayReq (markReq two resent r)) 2 (reqTc r why) (reqTenant s r) (reqPayload r) s

/-- Send one request at the front of the room that R275 leaves: it takes the next SEQ (10 R274). Its TAG is the
destination's slot (log entry 59). -/
def traySend (d : Nat) (r : TrayReq) (why : TrayWhy) (s : State) : State :=
  let x := trayDst s d
  let h := reqHdr r
  let r' := withHdr r { h with
    type := reqType r, src := BitVec.ofNat 16 (myDev s).toNat, dst := BitVec.ofNat 16 (devOfSlot s d).toNat
    len := (match r with
      | .load h _ => h.len
      | r => BitVec.ofNat 16 (reqPayload r))
    xepoch := s.pair.epoch, seq := BitVec.ofNat 32 x.next, tag := BitVec.ofNat 16 (d % 16) }
  let via := (trayRoute s d).bind (fun x => x.2)
  trayQueue d false r' why
    (trayDstUpd d (fun x => { x with
      next := (x.next + 1) % 2 ^ 32
      out := x.out ++ [{ seq := x.next, req := r', why := why, via := via, path := (trayRoute s d).isSome, sent := s.tb, counted := false, held := false }] }) s)

/-- The state mover issued the request: MOVER_STATUS counts it while it is outstanding (08 R214). -/
def moverWhy (w : TrayWhy) : Bool :=
  match w with
  | .cluster _ => false
  | _ => true

/-- Seals in progress on a galley's pages (08 R215). -/
def sealsRunning (g : Galley) : Nat :=
  (g.layer.map (fun l => (l.2.pages.filter (fun p => p.2.sealing && p.2.state == 1)).length)).sum

/-- State-mover operations that run on this device's own galleys: seals, a shelve or a recall, copy-outs (08, *State mover
operations*). -/
def moverRuns (s : State) : Nat :=
  (s.req.galleys.map (fun g => sealsRunning g.2 + (if g.2.op = .idle then 0 else 1))).sum + s.req.copyouts.length

/-- State-mover operations outstanding, each append as one: MOVER_STATUS.OUTSTANDING, which ends at 4,096 (08 R214, R239). The seals of
a COMMIT run within it, and hold no further operation of their own (log entry 204). -/
def moverOut (s : State) : Nat :=
  min 4096 ((s.near.dst.map (fun e => (e.2.out.filter (fun o => moverWhy o.why)).length)).sum + moverRuns s)

/-- A further request to slot `d` waits: 512 are outstanding there (10 R275), or 4,096 of the state mover's are (08 R214). -/
def trayFull (s : State) (d : Nat) (w : TrayWhy) : Bool :=
  decide (512 ≤ (trayDst s d).out.length) || (moverWhy w && decide (4096 ≤ moverOut s))

/-- Issue a request to another slot; it waits behind those that wait already, and while there is no room (10 R275, R278, 08 R214).
While fenced, or to an excluded device, it completes at once with FENCED or EPOCH_STALE, and none of its issuers does anything further
then: no mirrored write goes to an excluded member (09 R245), and the channels are broken by what fenced the device or excluded the
other (10 R266; 03 R87). -/
def trayIssue (d : Nat) (r : TrayReq) (why : TrayWhy) (s : State) : State :=
  if fenced s || excluded s (devOfSlot s d).toNat then s
  else if !(trayDst s d).waiting.isEmpty || trayFull s d why then
    trayDstUpd d (fun x => { x with waiting := x.waiting ++ [(r, why)] }) s
  else traySend d r why s

/-- Requests that waited for room take it, oldest first. -/
def trayDrainWaiting (fuel d : Nat) (s : State) : State :=
  match fuel with
  | 0 => s
  | fuel + 1 =>
    match (trayDst s d).waiting with
    | [] => s
    | (r, w) :: rest =>
      if trayFull s d w then s
      else trayDrainWaiting fuel d (traySend d r w (trayDstUpd d (fun x => { x with waiting := rest }) s))

/-- An operation has ended: requests to every slot that waited for its room follow (08 R214, 10 R275). -/
def trayDrainAll (s : State) : State :=
  (List.range 16).foldl (fun s d => trayDrainWaiting (trayDst s d).waiting.length d s) s

/-- Answer a tray request: the response packet to its source (10 R266, R271). -/
def trayAnswer (h : TrayHdr) (c : Status) (payload : List Byte) (s : State) : State :=
  let d := h.src.toNat % 16
  let r : TrayHdr := { hdr0 with
    type := 0x10, flags := 1, src := BitVec.ofNat 16 (myDev s).toNat, dst := h.src, xepoch := s.pair.epoch
    seq := h.seq, tag := h.tag, part := h.part, status := codeOf c, len := BitVec.ofNat 16 payload.length
    op := h.type, srcCl := h.srcCl }
  trayPacket d (fun two => .trayResp { r with flags := if two then 3 else 1 } payload) 0 0 none payload.length s

/-! ### Pod messages (11) -/

/-- The kind of a queue-pair number: 0 control, 1 device-owned, 2 host-owned (11 R291). -/
def qpKind (n : Nat) : Nat := if n < 128 then 0 else if n < 2048 then 1 else 2

/-- The far link of the plane that transmission `n` of message `id` takes, skipping planes that are not UP (11 R303). -/
def planeFor (s : State) (id n : Nat) : Option Nat :=
  (((List.range 16).map (fun i => (id + n + i) % 16)).find? (fun k => linkIsUp s (15 + k)))

/-- The firmware's queue pair on every device (11 R291, *Firmware traffic*; log entry 40). -/
def fwQp : Nat := 130

/-- The key queue pair (15 R401). -/
def keyQp : Nat := 128

/-- An empty pod header. -/
def podHdr0 : PodHdr :=
  { type := 0, flags := 0, src := 0, dst := 0, xepoch := 0, id := 0, status := 0, op := 0, firstTb := 0, srcQp := 0,
    dstQp := 0, rkey := 0, len := 0, offset := 0, mepoch := 0, rlen := 0, ref := 0, resv := 0 }

/-- Queue a pod packet on a plane's link: class 1 ACK, class 2 MSG (12 R329, R332); `len` is its LEN (12 R333). -/
def podQueue (plane : Option Nat) (p : Packet) (cls tc : Nat) (tenant : Option (BitVec 16)) (len : Nat)
    (s : State) : State :=
  match plane with
  | none => s
  | some k => enqueue (15 + k) p cls tc tenant len 64 s

/-- Bytes of the pod-key tag behind a payload: 16 on a device-owned queue pair other than the key QP (15 R401). -/
def podTag (q n : Nat) : Nat := if qpKind q = 1 && q != keyQp && n != 0 then 16 else 0

/-- A number for the kind of a firmware message. -/
def fwKind (m : FwMsg) : Nat :=
  match m with
  | .stageAdmission _ => 0
  | .confirmation .. => 1
  | .refusal .. => 2
  | .resume _ => 3
  | .cancel _ => 4
  | .pause _ => 5
  | .retire .. => 6
  | .dropReport _ => 7
  | .token _ => 8
  | .admitAnswer .. => 9
  | .releaseRecords _ => 10
  | .arrive .. => 11
  | .release .. => 12
  | .copyPage _ => 13
  | .copyDone .. => 14
  | .shelved .. => 15
  | .lost _ => 16
  | .pairSecret _ => 17
  | .podKey _ => 18
  | .podKeyAsk => 19
  | .shardAsk .. => 20

/-- Payload bytes of a firmware message: a copy-out part has the MOVER format of PAGE (10 R273), with its page's digest in the last one;
the form of the others is open (log entry 208). -/
def fwBytes (m : FwMsg) : Nat :=
  match m with
  | .copyPage p => 20 + p.bytes.length + (if p.lastPart then 48 else 0)
  | m => 1 + Config.fwSize (fwKind m) % 4080

/-- Traffic class of a firmware message (12 R332). -/
def fwTc (m : FwMsg) : Nat :=
  match m with
  | .copyPage _ => 3
  | _ => 0

/-- The tenant of the request that a firmware message serves (12 R333). -/
def fwTenant (s : State) (m : FwMsg) : Option (BitVec 16) :=
  match m with
  | .stageAdmission a => some a.tenant
  | .resume a => some a.adm.tenant
  | .confirmation q _ _ | .refusal q _ | .cancel q | .pause q | .retire q _ | .admitAnswer q _ | .releaseRecords q | .copyDone q _
  | .shelved q _ _ | .lost q => tenantOf s q
  | .dropReport r => tenantOf s r.req
  | .token t => tenantOf s t.req
  | .copyPage p => tenantOf s p.req
  | .arrive .. | .release .. | .pairSecret _ | .podKey _ | .podKeyAsk | .shardAsk .. => none

/-- Queue a message in flight that has not been transmitted on its plane: the first that is UP (11 R303). -/
def podPlace (id : Nat) (s : State) : State :=
  match s.rma.out.find? (fun o => o.id == id), planeFor s id 0 with
  | some o, some k =>
    let pkt : Packet := match o.fw with
      | some m => .podFw o.hdr m
      | none => .pod o.hdr o.payload
    enqueue (15 + k) pkt 2 o.tc o.tenant o.hdr.len.toNat 64
      { s with rma := { s.rma with out := s.rma.out.map (fun o => if o.id = id then { o with plane := k } else o) } }
  | _, _ => s

/-- Send a new message: it takes the message counter and goes to its plane, or waits until a far link is UP (11 R302, R303). FIRST_TB is
stamped at its first transmission. -/
def podSend (h : PodHdr) (payload : List Byte) (fw : Option FwMsg) (tenant : Option (BitVec 16)) (tc : Nat)
    (s : State) : State :=
  let id := s.rma.counter
  let n := match fw with
    | some m => fwBytes m
    | none => payload.length
  let h' := { h with
    src := BitVec.ofNat 16 (myDev s).toNat, xepoch := s.pair.epoch, id := BitVec.ofNat 48 id
    len := BitVec.ofNat 16 (n + podTag h.srcQp.toNat n) }
  podPlace id { s with rma := { s.rma with
    counter := (id + 1) % 2 ^ 48
    out := s.rma.out ++ [{ id := id, hdr := h', payload := payload, first := s.tb, sent := s.tb, retx := 0,
                           plane := 16, acked := false, fw := fw, tenant := tenant, tc := tc }] } }

/-- A further message may be sent: 16,384 are in flight at most (11 R303). -/
def inFlightRoom (s : State) : Bool := decide (s.rma.out.length < 16384)

/-- The device may send messages of queue pair `q`: the window after ALIGNED has passed, and its own queue pairs but the key queue pair
hold the pod key (15 R402, R403). -/
def podReady (s : State) (q : Nat) : Bool :=
  s.sec.podSend && mayEmit s && (qpKind q != 1 || q == keyQp || s.sec.podGen.isSome)

/-- A POD_FETCH ends with a code. -/
def fetchEnds (c : Status) (s : State) : State :=
  if s.sec.fetch.isSome then { s with sec := { s.sec with fetch := none, busy := false, code := codeOf c } } else s

/-- A firmware message ends with a code other than OK: the request of a POD_FETCH ends it (15 R403). -/
def fwFails (m : FwMsg) (c : Status) (s : State) : State :=
  match m with
  | .podKeyAsk => fetchEnds c s
  | _ => s

/-- A message that goes over the key queue pair (15 R401). -/
def keyMsg (m : FwMsg) : Bool :=
  match m with
  | .podKey _ | .podKeyAsk => true
  | _ => false

/-- Send a firmware message to a device of another tray as a SEND on the firmware's queue pair, or on the key queue pair; it waits for the
pod key and for room (11 R303, *Firmware traffic*; 15 R403). To an excluded device none goes (11 R317). MEPOCH is set
where the message goes by a composition map. -/
def sendPod (d : DevId) (epoch : Word) (m : FwMsg) (s : State) : State :=
  let q := if keyMsg m then keyQp else fwQp
  if excluded s d.toNat then s
  else if podReady s q && inFlightRoom s then
    podSend { podHdr0 with type := 0x05, flags := if epoch = 0 then 0 else 4, dst := BitVec.ofNat 16 d.toNat
                           srcQp := BitVec.ofNat 32 q, dstQp := BitVec.ofNat 32 q, mepoch := epoch }
      [] (some m) (fwTenant s m) (fwTc m) s
  else { s with rma := { s.rma with waiting := s.rma.waiting ++ [(d, epoch, m)] } }

/-- The request of a POD_FETCH goes out once the device may send pod messages; the key queue pair needs no key (15 R401 to
R403); to an excluded donor it ends with EPOCH_STALE (11 R317). -/
def fetchSend (s : State) : State :=
  if s.sec.fetch = some false && s.sec.podSend && mayEmit s then
    if excluded s s.sec.donor.toNat then fetchEnds .epochStale s
    else sendPod s.sec.donor 0 .podKeyAsk { s with sec := { s.sec with fetch := some true } }
  else s

/-- Send a firmware message to device `d`: over the near links inside the tray, as a pod message otherwise. A message to this device
itself crosses no link (log entry 41). -/
def sendFw (d : DevId) (epoch : Word) (m : FwMsg) (s : State) : State :=
  if d = myDev s then emit (.fwSelf m) s
  else if d.toNat / 16 = (myTray s).toNat then
    match trayRoute s (d.toNat % 16) with
    | none => s
    | some (n, _) => enqueue n (.nearFw d m) 2 (fwTc m) (fwTenant s m) (fwBytes m) 32 s
  else sendPod d epoch m s

end Sys2Proof.Machine
end

