-- ==== Sys2Proof/Machine/HostOps.lean ====
section
/-!
DEFINITION. The host's rings (16): taking submission entries, posting completion entries and output records with their
phase, holding them while a ring has no room (R426), and signalling vectors with their hold-off (R430).
-/

namespace Sys2Proof.Machine

/-! ### Sizes (16 R416, R435) -/

/-- SQ entries of a ring set. -/
def sqEntries (r : RingSet) : Nat := 2 ^ field r.sizes.toNat 3 0

/-- CQ entries of a ring set. -/
def cqEntries (r : RingSet) : Nat := 2 ^ field r.sizes.toNat 11 8

/-- Units of 64 bytes of a ring set's output ring. -/
def outUnits (r : RingSet) : Nat := 2 ^ field r.sizes.toNat 20 16

/-- The phase of an entry at absolute index `i` of a ring of `n` entries (16 R415). -/
def phaseAt (i n : Nat) : Bool := decide ((i / n + 1) % 2 = 1)

/-- The function can reach host memory: its link is up and it is in D0 and out of reset. -/
def fnDma (s : State) (fn : FnId) : Bool := answers s fn && s.dev.ready

/-! ### Vectors (16 R430) -/

/-- Signal the vector of ring set `r` after an entry: at most once per HOLDOFF µs. -/
def ringSignal (r : RingRef) (s : State) : State :=
  let x := ringSet s r
  let vec := field x.vector.toNat 4 0
  let hold := field x.vector.toNat 31 16 * 625
  let due := match x.lastSignal with
    | none => true
    | some t => decide (hold = 0) || decide (t + hold ≤ s.tb)
  if due then msix r.fn vec (ringUpd r (fun x => { x with lastSignal := some s.tb, unsignalled := none }) s)
  else ringUpd r (fun x => { x with unsignalled := some (x.unsignalled.getD s.tb) }) s

/-! ### Posting (16 R424 to R426) -/

/-- Bytes an item occupies while it is held. -/
def itemBytes (i : HeldItem) : Nat :=
  match i with
  | .cq _ => 32
  | .out r => r.len

/-- HOSTIF_OUT_HELD: bytes a function holds (16 R426). -/
def heldBytes (s : State) (fn : FnId) : Nat :=
  ((fnHost s fn).sets.map (fun e => (e.2.held.map itemBytes).sum)).sum

/-- Entries between the host's count and the device's, modulo `m`. -/
def between (prod cons m : Nat) : Nat := (prod + m - cons % m) % m

/-- Write one CQ entry. -/
def writeCq (r : RingRef) (e : CqEntry) (s : State) : State :=
  let x := ringSet s r
  let i := x.cqProd.toNat
  ringSignal r (emit (.cqEntry r i e (phaseAt i (cqEntries x)))
    (ringUpd r (fun x => { x with cqProd := x.cqProd + 1 }) s))

/-- Write one output record; `none` when there is no room for it. A record that would cross the end of the ring is
preceded by a PAD record that fills the rest (16 R424). -/
def writeOut (r : RingRef) (o : OutRec) (s : State) : Option State :=
  let x := ringSet s r
  let n := outUnits x
  let units := cdiv o.len 64
  let i := x.outProd.toNat
  let room := n - between i x.outCons.toNat (2 ^ 21)
  let tail := n - i % n
  if units ≤ tail then
    if units ≤ room then
      some (ringSignal r (emit (.outRecord r i o (phaseAt i n))
        (ringUpd r (fun x => { x with outProd := x.outProd + BitVec.ofNat 21 units }) s)))
    else none
  else if tail + units ≤ room then
    let j := (i + tail) % 2 ^ 21
    let pad : OutRec :=
      { len := tail * 64, kind := 0x04, tenant := 0, session := 0, seq := 0, reqId := 0, payload := .pad }
    some (ringSignal r (emit (.outRecord r j o (phaseAt j n)) (ringSignal r (emit (.outRecord r i pad (phaseAt i n))
      (ringUpd r (fun x => { x with outProd := x.outProd + BitVec.ofNat 21 (tail + units) }) s)))))
  else none

/-- A ring set can be written to: it is ENABLED, its function reaches the host, and the device is not fenced
(16 R426, 09 R260). -/
def ringWritable (s : State) (r : RingRef) : Bool :=
  (ringSet s r).state == 1 && fnDma s r.fn && !fenced s && !s.maint.silent

/-- Post one item now, if it has room. -/
def postNow (r : RingRef) (i : HeldItem) (s : State) : Option State :=
  if ringWritable s r then
    match i with
    | .cq e =>
      let x := ringSet s r
      if between x.cqProd.toNat x.cqCons.toNat (2 ^ 16) < cqEntries x then some (writeCq r e s) else none
    | .out o => writeOut r o s
  else none

/-- Post an item, behind those already held (16 R426). -/
def post (r : RingRef) (i : HeldItem) (s : State) : State :=
  if (ringSet s r).held.isEmpty then
    match postNow r i s with
    | some s' => s'
    | none => ringUpd r (fun x => { x with held := x.held ++ [i] }) s
  else ringUpd r (fun x => { x with held := x.held ++ [i] }) s

/-- Post held items in order while there is room (16 R426). -/
def postHeld (r : RingRef) (items : List HeldItem) (s : State) : State :=
  match items with
  | [] => ringUpd r (fun x => { x with held := [] }) s
  | i :: rest =>
    match postNow r i s with
    | some s' => postHeld r rest s'
    | none => ringUpd r (fun x => { x with held := i :: rest }) s

/-- Post what a ring set holds, once room returns. -/
def releaseHeld (r : RingRef) (s : State) : State := postHeld r (ringSet s r).held s

/-- Post a completion entry (16, *Completion entry*): KIND 1 ACCEPTED, 2 REFUSED, 3 PAUSED, 4 RETIRED, 5 ENTRY,
6 SHARD_WON, 7 SHARD_LOST. -/
def postCq (r : RingRef) (tag : DWord) (req : ReqId) (kind : Byte) (c : Status) (commit : Nat) (s : State) : State :=
  post r (.cq { hostTag := tag, reqId := req, kind := kind, status := codeOf c, sqHead := (ringSet s r).sqHead,
                commitLen := BitVec.ofNat 32 commit }) s

/-- Post an output record of a session; every sealed record takes the session's next output SEQ (15 R406). -/
def postOut (r : RingRef) (session : Word) (kind : Byte) (len : Nat) (req : ReqId) (p : OutPayload) (s : State) :
    State :=
  match Tab.find s.sec.sessions session.toNat with
  | none => s
  | some x =>
    post r (.out { len := len, kind := kind, tenant := x.tenant, session := session,
                   seq := BitVec.ofNat 64 (if kind = 3 then 0 else x.outSeq), reqId := req, payload := p })
      { s with sec := { s.sec with
          sessions := if kind = 3 then s.sec.sessions
            else Tab.mod s.sec.sessions session.toNat (fun x => { x with outSeq := x.outSeq + 1 }) } }

/-! ### Taking entries (16 R417, R418) -/

/-- An entry waits in the SQ of an ENABLED ring set that takes entries. While fenced the device takes none (01 R32). -/
def sqReady (s : State) (r : RingRef) : Bool :=
  let x := ringSet s r
  x.state == 1 && !x.disabling && x.sqHead != x.sqProd && fnDma s r.fn && !fenced s && !s.maint.silent

/-- Take the entry at SQ_HEAD (16 R418). -/
def takeEntry (r : RingRef) (s : State) : State := ringUpd r (fun x => { x with sqHead := x.sqHead + 1 }) s

/-- A ring set enters ERROR with a cause (16 R417, 17 R448 bit 16). -/
def ringError (r : RingRef) (cause : Byte) (s : State) : State :=
  noteErr 16 (r.fn.toNat * 8 + r.set.toNat) 0x1034
    (ringUpd r (fun x => { x with state := 2, cause := cause, disabling := false }) s)

/-- A ring set enters ERROR with a cause code whose values the manual does not give (16 R435; log entry 70). -/
def ringFails (r : RingRef) (s : State) : State :=
  bumpFree (ringError r (BitVec.ofNat 8 (Config.freeWord s.free).toNat) s)

/-- A taken entry has been admitted or refused: a DISABLE that waited for the last one ends (16 R416). -/
def entryDone (r : RingRef) (s : State) : State :=
  let s := ringUpd r (fun x => { x with taken := x.taken - 1 }) s
  let x := ringSet s r
  if x.disabling && x.taken == 0 then
    fnUpd r.fn (fun h => { h with busy := false, code := 0 })
      (ringUpd r (fun x => { x with state := 0, disabling := false }) s)
  else s

/-- Output held above 4 MiB refuses a function's capsules (16 R426). -/
def heldOver (s : State) (fn : FnId) : Bool := decide (heldBytes s fn > 4 * 1024 * 1024)

/-! ### Fault rings (11 R313, 16 R428) -/

/-- Write the fault records that wait while the ring has room, raising vector 4; each one posted counts in RMA_FAULTS (11 R321). -/
def faultPost (fuel : Nat) (fn : FnId) (s : State) : State :=
  match fuel with
  | 0 => s
  | fuel + 1 =>
    let h := fnHost s fn
    match h.faultWait with
    | [] => s
    | r :: rest =>
      if h.faultEn && fnDma s fn && decide (between h.faultProd.toNat h.faultCons.toNat (2 ^ 17) < 2 ^ field h.faultSize.toNat 4 0) then
        faultPost fuel fn (msix fn 4 (emit (.faultRecord fn h.faultProd.toNat r)
          (fnUpd fn (fun h => { h with faultProd := h.faultProd + 1, faultWait := rest })
            { s with rma := { s.rma with faults := satInc s.rma.faults } })))
      else s

/-- A fault record goes to a function's fault ring, or waits for room. -/
def faultRecord (fn : FnId) (r : FaultRec) (s : State) : State :=
  let s := fnUpd fn (fun h => { h with faultWait := h.faultWait ++ [r] }) s
  faultPost (fnHost s fn).faultWait.length fn s

end Sys2Proof.Machine
end

