-- ==== Sys2Proof/Machine/Numerics.lean ====
section
/-!
DEFINITION. The numerics of 04: element formats, exact sums, FP32 arithmetic with roundTiesToEven (R100), the grouped
matrix accumulation (R101), the fixed-order reductions (R102), ranking (R103), and EXP, RECIP and RSQRT as the fixed
sequences of R109 to R111, from tables whose entries are defined as correctly rounded values.
-/

namespace Sys2Proof.Machine

/-! ### Exact values -/

/-- The exact number m × 2^e. -/
structure Dy where
  m : Int
  e : Int
deriving DecidableEq, Repr, Inhabited

/-- The value of an element (04 R95): a NaN, an infinity, or a signed magnitude d × 2^e. -/
inductive Fp where
  | nan
  | inf (neg : Bool)
  | fin (neg : Bool) (d : Nat) (e : Int)
deriving DecidableEq, Repr, Inhabited

/-- Exact sum. -/
def dyAdd (a b : Dy) : Dy :=
  let e := min a.e b.e
  { m := a.m * 2 ^ (a.e - e).toNat + b.m * 2 ^ (b.e - e).toNat, e := e }

/-- Exact product. -/
def dyMul (a b : Dy) : Dy := { m := a.m * b.m, e := a.e + b.e }

/-- a ≤ b, exactly. -/
def dyLe (a b : Dy) : Bool :=
  let e := min a.e b.e
  decide (a.m * 2 ^ (a.e - e).toNat ≤ b.m * 2 ^ (b.e - e).toNat)

/-- a < b, exactly. -/
def dyLt (a b : Dy) : Bool := !dyLe b a

/-- The exact number of a finite value. -/
def dyOf (neg : Bool) (d : Nat) (e : Int) : Dy := { m := if neg then -(d : Int) else (d : Int), e := e }

/-! ### Formats (04 R94, R95) -/

/-- Bits of an element of a format code; 0 for an unknown code. -/
def fmtBits (f : Nat) : Nat :=
  match f with
  | 1 => 4 | 2 => 6 | 3 => 6 | 4 => 8 | 5 => 8 | 6 => 8 | 7 => 16 | 8 => 16 | 9 => 32 | 10 => 32
  | _ => 0

/-- Mantissa bits of a floating-point format. -/
def fmtMant (f : Nat) : Nat :=
  match f with
  | 1 => 1 | 2 => 2 | 3 => 3 | 4 => 3 | 5 => 2 | 7 => 7 | 8 => 10 | _ => 23

/-- Exponent of the smallest subnormal's unit, 1 − bias − mantissa bits. -/
def fmtEmin (f : Nat) : Int :=
  match f with
  | 1 => -1 | 2 => -4 | 3 => -3 | 4 => -9 | 5 => -16 | 7 => -133 | 8 => -24 | _ => -149

/-- Exponent field of all ones, in a format that has infinities and NaN there; none otherwise. -/
def fmtTop (f : Nat) : Option Nat :=
  match f with
  | 5 => some 31 | 7 => some 255 | 8 => some 31 | 9 => some 255 | _ => none

/-- Largest finite magnitude of a floating-point format (04 R95). -/
def fmtMax (f : Nat) : Dy :=
  match f with
  | 1 => { m := 3, e := 1 } | 2 => { m := 7, e := 2 } | 3 => { m := 15, e := -1 } | 4 => { m := 7, e := 6 }
  | 5 => { m := 7, e := 13 } | 7 => { m := 255, e := 120 } | 8 => { m := 2047, e := 5 }
  | _ => { m := 16777215, e := 104 }

/-- The code of the largest finite magnitude. -/
def fmtMaxCode (f : Nat) : Nat :=
  match f with
  | 1 => 7 | 2 => 31 | 3 => 31 | 4 => 0x7E | 5 => 0x7B | 7 => 0x7F7F | 8 => 0x7BFF | _ => 0x7F7FFFFF

/-- The code of the NaN that a conversion writes; +0 where the format has none (04 R106). -/
def fmtNanCode (f : Nat) : Nat :=
  match f with
  | 4 => 0x7F | 5 => 0x7E | 7 => 0x7FC0 | 8 => 0x7E00 | 9 => 0x7FC00000 | _ => 0

/-- The value of a stored element (04 R95); INT8 is two's complement. -/
def fmtDecode (f bits : Nat) : Fp :=
  if f = 6 then .fin (decide (128 ≤ bits)) (if 128 ≤ bits then 256 - bits else bits) 0
  else if f = 10 then .fin false bits 0
  else
    let k := fmtMant f
    let neg := decide (2 ^ (fmtBits f - 1) ≤ bits)
    let mag := bits % 2 ^ (fmtBits f - 1)
    let ef := mag / 2 ^ k
    let mf := mag % 2 ^ k
    if f = 4 ∧ mag = 0x7F then .nan
    else if fmtTop f = some ef then (if mf = 0 then .inf neg else .nan)
    else if ef = 0 then .fin neg mf (fmtEmin f)
    else .fin neg (mf + 2 ^ k) (fmtEmin f + (ef : Int) - 1)

/-! ### Rounding -/

/-- d × 2^e rounded with ties to even to `p` bits, no finer than 2^emin. -/
def roundTo (p : Nat) (emin : Int) (d : Nat) (e : Int) : Nat × Int :=
  if d = 0 then (0, emin) else
  let t := max (e + (Nat.log2 d + 1 : Nat) - (p : Int)) emin
  if t ≤ e then (d * 2 ^ (e - t).toNat, t)
  else
    let k := (t - e).toNat
    let q := d / 2 ^ k
    let r := d % 2 ^ k
    let up := decide (2 ^ k < 2 * r) || (decide (2 ^ k = 2 * r) && decide (q % 2 = 1))
    (if up then q + 1 else q, t)

/-- The code of a magnitude d × 2^e that the format holds exactly. -/
def fmtPack (f : Nat) (neg : Bool) (d : Nat) (e : Int) : Nat :=
  let k := fmtMant f
  let (q, t) := roundTo (k + 1) (fmtEmin f) d e
  let (q, t) := if q = 2 ^ (k + 1) then (2 ^ k, t + 1) else (q, t)
  let sign := if neg then 2 ^ (fmtBits f - 1) else 0
  if q < 2 ^ k then sign + q else sign + (t - fmtEmin f + 1).toNat * 2 ^ k + (q - 2 ^ k)

/-- An exact value rounded to FP32; an overflow is an infinity (04 R100, R105). -/
def f32Pack (neg : Bool) (d : Nat) (e : Int) : Word :=
  let (q, t) := roundTo 24 (-149) d e
  let (q, t) := if q = 2 ^ 24 then (2 ^ 23, t + 1) else (q, t)
  let sign := if neg then 2 ^ 31 else 0
  if q < 2 ^ 23 then BitVec.ofNat 32 (sign + q)
  else if t + 150 ≥ 255 then BitVec.ofNat 32 (sign + 0x7F800000)
  else BitVec.ofNat 32 (sign + (t + 150).toNat * 2 ^ 23 + (q - 2 ^ 23))

/-- The canonical NaN (04 R100). -/
def f32Nan : Word := 0x7FC00000

/-- An infinity. -/
def f32Inf (neg : Bool) : Word := if neg then 0xFF800000 else 0x7F800000

/-- The value of an FP32 pattern. -/
def f32Of (w : Word) : Fp := fmtDecode 9 w.toNat

/-- A value as FP32, rounded once. -/
def f32From (x : Fp) : Word :=
  match x with
  | .nan => f32Nan
  | .inf n => f32Inf n
  | .fin n d e => f32Pack n d e

/-- An exact number as FP32; an exact zero is +0. -/
def f32OfDy (x : Dy) : Word := f32Pack (decide (x.m < 0)) x.m.natAbs x.e

/-! ### FP32 operations (04 R100) -/

/-- Sum of two values, rounded once: +∞ + −∞ is NaN, an exact zero is −0 only where both terms are −0. -/
def fpAdd (a b : Fp) : Word :=
  match a, b with
  | .nan, _ => f32Nan
  | _, .nan => f32Nan
  | .inf x, .inf y => if x = y then f32Inf x else f32Nan
  | .inf x, .fin _ _ _ => f32Inf x
  | .fin _ _ _, .inf y => f32Inf y
  | .fin n d e, .fin n' d' e' =>
    let z := dyAdd (dyOf n d e) (dyOf n' d' e')
    if z.m = 0 then f32Pack (n && n' && d == 0 && d' == 0) 0 0 else f32OfDy z

/-- Product of two values, unrounded. -/
def fpMul (a b : Fp) : Fp :=
  match a, b with
  | .nan, _ => .nan
  | _, .nan => .nan
  | .inf x, .inf y => .inf (x != y)
  | .inf x, .fin n d _ => if d = 0 then .nan else .inf (x != n)
  | .fin n d _, .inf y => if d = 0 then .nan else .inf (n != y)
  | .fin n d e, .fin n' d' e' => .fin (n != n') (d * d') (e + e')

/-- a + b. -/
def f32Add (a b : Word) : Word := fpAdd (f32Of a) (f32Of b)

/-- −a. -/
def f32Neg (a : Word) : Word := a ^^^ 0x80000000

/-- a − b. -/
def f32Sub (a b : Word) : Word :=
  match f32Of b with
  | .nan => f32Nan
  | _ => f32Add a (f32Neg b)

/-- a × b. -/
def f32Mul (a b : Word) : Word := f32From (fpMul (f32Of a) (f32Of b))

/-- a × b + c, rounded once. -/
def f32Fma (a b c : Word) : Word := fpAdd (fpMul (f32Of a) (f32Of b)) (f32Of c)

/-- A key that orders numbers, −0 below +0; NaN has none. -/
def f32Key (a : Word) : Int := if a.toNat < 2 ^ 31 then (a.toNat : Int) else -((a.toNat - 2 ^ 31 : Nat) : Int) - 1

/-- Is a NaN. -/
def f32IsNan (a : Word) : Bool := f32Of a == .nan

/-- MAX of R100: NaN if either is NaN, +0 above −0. -/
def f32Max (a b : Word) : Word :=
  if f32IsNan a || f32IsNan b then f32Nan else if f32Key a < f32Key b then b else a

/-- a < b as numbers, zeros equal; false where either is NaN. -/
def f32Lt (a b : Word) : Bool :=
  match f32Of a, f32Of b with
  | .nan, _ => false
  | _, .nan => false
  | _, _ => decide (f32Key a < f32Key b) && !(a.toNat % 2 ^ 31 == 0 && b.toNat % 2 ^ 31 == 0)

/-- a scaled by 2^q, rounded once (04 R108). -/
def f32Scale (a : Word) (q : Int) : Word :=
  match f32Of a with
  | .fin n d e => f32Pack n d (e + q)
  | x => f32From x

/-- FP32 1.0. -/
def f32One : Word := 0x3F800000

/-- An integer as FP32. -/
def f32Nat (n : Nat) : Word := f32Pack false n 0

/-! ### Tables (04 R109 to R111) -/

/-- The largest q below 2^(bits) with `ok q`, for a downward-closed `ok`. -/
def largest (ok : Nat → Bool) : Nat → Nat → Nat
  | 0, q => q
  | n + 1, q => largest ok n (if ok (q + 2 ^ n) then q + 2 ^ n else q)

/-- T[j] := fl32(2^(j/64)). -/
def expTable (j : Nat) : Word :=
  let q := largest (fun q => decide (q ^ 64 ≤ 2 ^ (64 * 23 + j))) 24 0
  let q := if (2 * q + 1) ^ 64 < 2 ^ (64 * 24 + j) then q + 1 else q
  f32Pack false q (-23)

/-- TR[i] := fl32(1 ÷ (1 + (2i + 1)/256)): a quotient in (1/2, 1). -/
def recipTable (i : Nat) : Word :=
  let n := 256 * 2 ^ 24
  let b := 257 + 2 * i
  let q := n / b
  let r := n % b
  f32Pack false (if 2 * r > b ∨ (2 * r = b ∧ q % 2 = 1) then q + 1 else q) (-24)

/-- fl32(sqrt(a ÷ b)), for a quotient whose root lies in (1/2, 1). -/
def rootQuot (a b : Nat) : Word :=
  let q := largest (fun q => decide (q * q * b ≤ a * 2 ^ 48)) 25 0
  let q := if (2 * q + 1) * (2 * q + 1) * b < a * 2 ^ 50 then q + 1 else q
  f32Pack false q (-24)

/-- TS[i] of R111. -/
def rsqrtTable (i : Nat) : Word := if i < 64 then rootQuot 128 (129 + 2 * i) else rootQuot 64 (129 + 2 * (i - 64))

/-- EXP(x) (04 R109). -/
def fExp (x : Word) : Word :=
  match f32Of x with
  | .nan => f32Nan
  | _ =>
    if f32Key x ≥ f32Key 0x42B17218 then f32Inf false
    else if f32Lt x 0xC2D00000 then 0
    else
      let y := f32Mul x 0x42B8AA3B
      let n : Int := match f32Of y with
        | .fin s d e =>
          let r := roundTo 64 0 d e
          let v : Int := (r.1 : Int) * 2 ^ r.2.toNat
          if s then -v else v
        | _ => 0
      let nf := f32Pack (decide (n < 0)) n.natAbs 0
      let r := f32Fma (f32Neg nf) 0x3C317218 x
      let r := f32Fma (f32Neg nf) 0xAE02E308 r
      let q := n.fdiv 64
      let j := (n - 64 * q).toNat
      let p := f32Fma r 0x3D2AAAAB 0x3E2AAAAB
      let p := f32Fma r p 0x3F000000
      let p := f32Fma r p f32One
      let p := f32Fma r p f32One
      f32Scale (f32Mul (expTable j) p) q

/-- A finite non-zero magnitude as m × 2^e with m in [1, 2): the mantissa bits of m and e. -/
def normSplit (d : Nat) (e : Int) : Nat × Int :=
  let k := Nat.log2 d
  ((if k ≤ 23 then d * 2 ^ (23 - k) else d / 2 ^ (k - 23)) % 2 ^ 23, e + (k : Int))

/-- RECIP(x) (04 R110). -/
def fRecip (x : Word) : Word :=
  match f32Of x with
  | .nan => f32Nan
  | .inf n => if n then 0x80000000 else 0
  | .fin n d e =>
    if d = 0 then f32Inf n else
    let (mb, ex) := normSplit d e
    let m : Word := BitVec.ofNat 32 (0x3F800000 + mb)
    let y := recipTable (mb / 2 ^ 16)
    let dd := f32Fma (f32Neg m) y f32One
    let y := f32Fma y dd y
    let dd := f32Fma (f32Neg m) y f32One
    let y := f32Fma y dd y
    let r := f32Scale y (-ex)
    if n then f32Neg r else r

/-- RSQRT(x) (04 R111). -/
def fRsqrt (x : Word) : Word :=
  match f32Of x with
  | .nan => f32Nan
  | .inf n => if n then f32Nan else 0
  | .fin n d e =>
    if d = 0 then f32Inf n
    else if n then f32Nan
    else
      let (mb, ex) := normSplit d e
      let odd := decide (ex % 2 ≠ 0)
      let e' := if odd then ex - 1 else ex
      let m' := f32Scale (BitVec.ofNat 32 (0x3F800000 + mb)) (if odd then 1 else 0)
      let i := (if odd then 64 else 0) + mb / 2 ^ 17
      let h := f32Scale m' (-1)
      let y := rsqrtTable i
      let t := f32Mul y y
      let u := f32Fma (f32Neg h) t 0x3FC00000
      let y := f32Mul y u
      let t := f32Mul y y
      let u := f32Fma (f32Neg h) t 0x3FC00000
      let y := f32Mul y u
      f32Scale y (-(e' / 2))

/-! ### Accumulation and reductions (04 R101 to R103) -/

/-- What a group of exact products sums to: a NaN, an infinity or an exact number. -/
inductive GroupSum where
  | nan
  | inf (neg : Bool)
  | num (d : Dy)
deriving DecidableEq, Repr, Inhabited

/-- Add one exact product to a group. -/
def groupAdd (g : GroupSum) (x : Fp) : GroupSum :=
  match g, x with
  | .nan, _ => .nan
  | _, .nan => .nan
  | .inf a, .inf b => if a = b then .inf a else .nan
  | .inf a, .fin _ _ _ => .inf a
  | .num _, .inf b => .inf b
  | .num d, .fin n m e => .num (dyAdd d (dyOf n m e))

/-- acc := round(acc + group sum): a group sum of zero adds the real number zero (04 R101). -/
def groupFold (acc : Word) (xs : List Fp) : Word :=
  match xs.foldl groupAdd (.num { m := 0, e := 0 }) with
  | .nan => f32Nan
  | .inf n => fpAdd (f32Of acc) (.inf n)
  | .num d => fpAdd (f32Of acc) (.fin (decide (d.m < 0)) d.m.natAbs d.e)

/-- Cut a list into runs of `n`, the last one shorter; `fuel` bounds the runs. -/
def chunks {A : Type} (n : Nat) : Nat → List A → List (List A)
  | 0, _ => []
  | fuel + 1, l => if l.isEmpty then [] else l.take n :: chunks n fuel (l.drop n)

/-- The accumulation of R101: products in groups of 16, ascending, one rounding a group. -/
def accumulate (acc : Word) (products : List Fp) : Word :=
  (chunks 16 (products.length + 1) products).foldl groupFold acc

/-- Fold of the lanes of R102. -/
def laneFold (f : Word → Word → Word) (init : Word) (xs : List Word) (lane : Nat) : Word :=
  ((List.range ((xs.length + 511 - lane) / 512)).map (fun k => xs.getD (k * 512 + lane) 0)).foldl f init

/-- One level of the binary tree of R102. -/
def treeLevel (f : Word → Word → Word) (xs : List Word) : List Word :=
  match xs with
  | a :: b :: rest => f a b :: treeLevel f rest
  | [a] => [a]
  | [] => []

/-- `n` levels of the tree. -/
def treeFold (f : Word → Word → Word) : Nat → List Word → Word
  | 0, xs => xs.headD 0
  | n + 1, xs => treeFold f n (treeLevel f xs)

/-- A reduction of R102: `step` folds an element into a lane, `join` combines lanes. -/
def reduceRow (step join : Word → Word → Word) (init : Word) (xs : List Word) : Word :=
  treeFold join 9 ((List.range 512).map (laneFold step init xs))

/-- Sum of a row (04 R102). -/
def rowSum (xs : List Word) : Word := reduceRow f32Add f32Add 0 xs

/-- Sum of squares of a row (04 R102). -/
def rowSumSq (xs : List Word) : Word := reduceRow (fun acc x => f32Fma x x acc) f32Add 0 xs

/-- Maximum of a row (04 R102). -/
def rowMax (xs : List Word) : Word := reduceRow f32Max f32Max 0xFF800000 xs

/-- `a` (value, index) ranks before `b` (04 R103). -/
def ranksBefore (a b : Word × Nat) : Bool :=
  let an := f32IsNan a.1
  let bn := f32IsNan b.1
  if an && bn then decide (a.2 < b.2)
  else if an then false
  else if bn then true
  else if f32Lt b.1 a.1 then true
  else if f32Lt a.1 b.1 then false
  else decide (a.2 < b.2)

/-- Insert into a ranked list. -/
def rankInsert (x : Word × Nat) (l : List (Word × Nat)) : List (Word × Nat) :=
  match l with
  | [] => [x]
  | y :: rest => if ranksBefore x y then x :: y :: rest else y :: rankInsert x rest

/-- Candidates in rank order (04 R103). -/
def rankAll (xs : List (Word × Nat)) : List (Word × Nat) := xs.foldl (fun l x => rankInsert x l) []

end Sys2Proof.Machine
end

