-- ==== Sys2Proof/Machine/Flags.lean ====
section
/-!
DEFINITION. Conversion to element formats with the flags it raises (04 R104 to R107): what saturates, what is a NaN;
the FP4 block scales; the packing of sub-byte formats (R96).
-/

namespace Sys2Proof.Machine

/-- A converted element: its code, whether it counts as saturated, whether it was a NaN counted (04 R105, R106). -/
structure Conv where
  code : Nat
  sat : Bool
  nan : Bool
deriving DecidableEq, Repr, Inhabited

/-- Bit pattern of a sign and a magnitude code. -/
def signCode (f : Nat) (neg : Bool) (mag : Nat) : Nat := (if neg then 2 ^ (fmtBits f - 1) else 0) + mag

/-- INT8: the nearest integer, ties to even, saturating at −128 and 127 (04 R105). -/
def convInt8 (neg : Bool) (d : Nat) (e : Int) : Conv :=
  let r := roundTo 64 0 d e
  let v : Int := (r.1 : Int) * 2 ^ r.2.toNat
  let x := if neg then -v else v
  if x > 127 then { code := 127, sat := true, nan := false }
  else if x < -128 then { code := 128, sat := true, nan := false }
  else { code := (x % 256).toNat, sat := false, nan := false }

/-- Conversion of an exact value to format `f` (04 R104 to R106); FP32 rounds, overflows and counts nothing. -/
def convert (f : Nat) (x : Fp) : Conv :=
  if f = 9 then { code := (f32From x).toNat, sat := false, nan := false }
  else if f = 6 then
    match x with
    | .nan => { code := 0, sat := false, nan := true }
    | .inf n => { code := if n then 128 else 127, sat := true, nan := false }
    | .fin n d e => convInt8 n d e
  else
    match x with
    | .nan => { code := fmtNanCode f, sat := false, nan := true }
    | .inf n => { code := signCode f n (fmtMaxCode f), sat := true, nan := false }
    | .fin n d e =>
      if dyLt (fmtMax f) { m := (d : Int), e := e } then
        { code := signCode f n (fmtMaxCode f), sat := true, nan := false }
      else { code := fmtPack f n d e, sat := false, nan := false }

/-- Saturations and NaNs of a list of conversions (04 R114). -/
def convCounts (cs : List Conv) : Nat × Nat :=
  ((cs.filter (fun c => c.sat)).length, (cs.filter (fun c => c.nan)).length)

/-! ### FP4 with block scales (04 R97, R107) -/

/-- The magnitude of a value, a NaN as 0 and an infinity as more than any format holds (04 R107). -/
def magOf (x : Fp) : Dy :=
  match x with
  | .nan => { m := 0, e := 0 }
  | .inf _ => { m := 1, e := 200 }
  | .fin _ d e => { m := (d : Int), e := e }

/-- Larger of two exact numbers. -/
def dyMax (a b : Dy) : Dy := if dyLe a b then b else a

/-- The value of a positive E4M3 code. -/
def e4m3 (c : Nat) : Dy :=
  match fmtDecode 4 c with
  | .fin _ d e => { m := (d : Int), e := e }
  | _ => { m := 0, e := 0 }

/-- The block scale of a block of values: its E4M3 code (04 R107). -/
def blockScale (xs : List Fp) : Nat :=
  let a := (xs.map magOf).foldl dyMax { m := 0, e := 0 }
  if a.m = 0 then 1
  else ((List.range 126).find? (fun i => dyLe a (dyMul { m := 6, e := 0 } (e4m3 (i + 1))))).elim 0x7E (fun i => i + 1)

/-- The exact quotient x ÷ s rounded to E2M1 and saturated (04 R104, R105, R107). -/
def convFp4 (x : Fp) (s : Dy) : Conv :=
  match x with
  | .nan => { code := 0, sat := false, nan := true }
  | .inf n => { code := signCode 1 n 7, sat := true, nan := false }
  | .fin n d e =>
    let v : Dy := { m := (d : Int), e := e }
    let mid (q : Int) : Dy := { m := q * s.m, e := s.e - 2 }
    let mag := if dyLt (mid 24) v then 7
      else if dyLt (mid 20) v then 7 else if dyLe (mid 14) v then 6 else if dyLt (mid 10) v then 5
      else if dyLe (mid 7) v then 4 else if dyLt (mid 5) v then 3 else if dyLe (mid 3) v then 2
      else if dyLt (mid 1) v then 1 else 0
    { code := signCode 1 n mag, sat := dyLt (mid 24) v, nan := false }

/-! ### Packing (04 R96) -/

/-- Bytes of a run of element codes. -/
def packCodes (f : Nat) (codes : List Nat) : List Byte :=
  if f = 1 then
    (List.range ((codes.length + 1) / 2)).map
      (fun i => BitVec.ofNat 8 (codes.getD (2 * i) 0 + 16 * codes.getD (2 * i + 1) 0))
  else if f = 2 ∨ f = 3 then
    ((List.range ((codes.length + 3) / 4)).map (fun i => leBytes 3
      (codes.getD (4 * i) 0 + 64 * codes.getD (4 * i + 1) 0 + 4096 * codes.getD (4 * i + 2) 0
        + 262144 * codes.getD (4 * i + 3) 0))).flatten
  else (codes.map (fun c => leBytes (fmtBits f / 8) c)).flatten

/-- Bytes that `n` elements of format `f` occupy (04 R94, R96). -/
def elemBytes (f n : Nat) : Nat := (n * fmtBits f + 7) / 8

/-- The code of element `i` in a run of bytes. -/
def codeAt (f : Nat) (bs : List Byte) (i : Nat) : Nat :=
  if f = 1 then ((bs.getD (i / 2) 0).toNat / (if i % 2 = 0 then 1 else 16)) % 16
  else if f = 2 ∨ f = 3 then (leNat ((bs.drop (3 * (i / 4))).take 3) / 64 ^ (i % 4)) % 64
  else leNat ((bs.drop (i * (fmtBits f / 8))).take (fmtBits f / 8))

/-- The codes of `n` elements. -/
def unpackCodes (f : Nat) (bs : List Byte) (n : Nat) : List Nat := (List.range n).map (codeAt f bs)

/-- An element's value widened exactly to FP32 (04 R484). -/
def widen (f code : Nat) : Word := f32From (fmtDecode f code)

end Sys2Proof.Machine
end

