-- ==== Sys2Proof/Machine/Slugs.lean ====
section
/-!
DEFINITION. Slugs (06): the check code, canonical codes from a length vector (R157, R158), the cut of R159, the slug's
bytes (R153 to R155) and the checks of a decoder (R163), with the table slots and their reference counts (R165).
-/

namespace Sys2Proof.Machine

/-! ### CRC-32C (06 R156) -/

/-- One bit of the reflected CRC. -/
def crcBit (n : Nat) (c : Nat) : Nat :=
  match n with
  | 0 => c
  | n + 1 => crcBit n (if c % 2 = 1 then (c / 2) ^^^ 0x82F63B78 else c / 2)

/-- CRC-32C of a run of bytes. -/
def crc32c (bs : List Byte) : Nat :=
  (bs.foldl (fun c b => crcBit 8 (c ^^^ b.toNat)) 0xFFFFFFFF) ^^^ 0xFFFFFFFF

/-! ### Tables (06 R157, R158) -/

/-- The code length of a symbol in a packed vector. -/
def codeLen (lengths : List Byte) (sym : Nat) : Nat :=
  ((lengths.getD (sym / 2) 0).toNat / (if sym % 2 = 0 then 1 else 16)) % 16

/-- Symbols of a format's alphabet. -/
def alphabet (f : Nat) : Nat := 2 ^ fmtBits f

/-- Nibbles beyond the alphabet are zero and the lengths satisfy R157. -/
def tableValid (f : Nat) (lengths : List Byte) : Bool :=
  let ls := (List.range (alphabet f)).map (codeLen lengths)
  let used := ls.filter (fun l => l != 0)
  let sum := (used.map (fun l => 2 ^ (15 - l))).sum
  decide (lengths.length = 128) && decide (1 ≤ f) && decide (f ≤ 6)
    && (List.range (256 - alphabet f)).all (fun i => codeLen lengths (alphabet f + i) == 0)
    && (sum == 2 ^ 15 || used == [1])

/-- The first code of each length: next[n] of R157. -/
def firstCodes (lengths : List Byte) (f : Nat) : List Nat :=
  let count (n : Nat) : Nat :=
    if n = 0 then 0 else ((List.range (alphabet f)).filter (fun s => codeLen lengths s == n)).length
  ((List.range 15).foldl (fun (acc : List Nat × Nat) i =>
    let code := (acc.2 + count i) * 2
    (acc.1 ++ [code], code)) ([0], 0)).1

/-- The canonical code of a symbol (06 R157). -/
def symCode (lengths : List Byte) (f s : Nat) : Nat :=
  (firstCodes lengths f).getD (codeLen lengths s) 0
    + ((List.range s).filter (fun t => codeLen lengths t == codeLen lengths s)).length

/-- A code's bits, most significant first. -/
def codeBits (len code : Nat) : List Bool := (List.range len).map (fun i => code.testBit (len - 1 - i))

/-- Bits to bytes, from bit [7] down, padded with zeros (06 R154). -/
def bitsToBytes (bits : List Bool) : List Byte :=
  (chunks 8 (bits.length + 1) bits).map
    (fun c => BitVec.ofNat 8 ((List.range 8).foldl (fun v i => 2 * v + b2n (c.getD i false)) 0))

/-- The elements of sub-stream k (06 R154). -/
def subStream (codes : List Nat) (k : Nat) : List Nat :=
  (List.range ((codes.length + 7 - k) / 8)).map (fun i => codes.getD (8 * i + k) 0)

/-! ### Cutting (06 R159) -/

/-- RAWCAP of R159. -/
def rawCap (f : Nat) : Nat := if f = 1 then 4032 else if f = 2 ∨ f = 3 then 2688 else 2016

/-- `fit` over the bit sums of the eight sub-streams. -/
def fitSums (sums : List Nat) : Bool := decide ((sums.map (fun b => (b + 7) / 8)).sum ≤ 2016)

/-- Grow a coded slug sixteen elements at a time while it fits: the number of elements it holds. -/
def codedLen (lengths : List Byte) (fuel : Nat) (els : List Nat) (sums : List Nat) : Nat :=
  match fuel with
  | 0 => 0
  | fuel + 1 =>
    let next := els.take 16
    let sums' := (List.range 8).map (fun k =>
      sums.getD k 0 + codeLen lengths (next.getD k 0) + codeLen lengths (next.getD (k + 8) 0))
    if next.length < 16 || next.any (fun e => codeLen lengths e == 0) || !fitSums sums' then 0
    else 16 + codedLen lengths fuel (els.drop 16) sums'

/-- The identity a slug carries (06 R153): slot B, table, version, format. -/
structure SlugId where
  slotB : Bool
  table : Nat
  version : Nat
  format : Nat
deriving DecidableEq, Repr, Inhabited

/-- A slug's 2,048 bytes from its header fields and payload (06 R153, R156). -/
def slugBytes (id : SlugId) (raw : Bool) (count : Nat) (ends : List Nat) (payload : List Byte) : List Byte :=
  let head : List Byte := [0xC5, BitVec.ofNat 8 (b2n id.slotB + 2 * b2n raw)] ++ leBytes 2 count ++ leBytes 2 id.table
    ++ [BitVec.ofNat 8 id.version, BitVec.ofNat 8 id.format] ++ (ends.map (leBytes 2)).flatten
  let body := payload ++ List.replicate (2016 - payload.length) 0
  head ++ leBytes 4 (crc32c (head ++ body)) ++ [0, 0, 0, 0] ++ body

/-- A coded slug (06 R154). -/
def codedSlug (id : SlugId) (lengths : List Byte) (els : List Nat) : List Byte :=
  let subs := (List.range 8).map (fun k => bitsToBytes
    ((subStream els k).map (fun s => codeBits (codeLen lengths s) (symCode lengths id.format s))).flatten)
  let ends := ((List.range 8).map (fun k => 0x20 + ((subs.take (k + 1)).map List.length).sum))
  slugBytes id false els.length ends subs.flatten

/-- A raw slug (06 R155). -/
def rawSlug (id : SlugId) (els : List Nat) : List Byte :=
  let payload := packCodes id.format els
  slugBytes id true els.length (List.replicate 8 (0x20 + payload.length)) payload

/-- The slugs of a sequence of elements (06 R159), with how many of them are raw. -/
def encodeSlugs (id : SlugId) (lengths : List Byte) : Nat → List Nat → List (List Byte) × Nat
  | 0, _ => ([], 0)
  | fuel + 1, els =>
    if els.isEmpty then ([], 0) else
    let nr := min els.length (rawCap id.format)
    let nc := codedLen lengths (els.length + 1) els (List.replicate 8 0)
    let coded := decide (nr ≤ nc)
    let n := if coded then nc else nr
    let slug := if coded then codedSlug id lengths (els.take n) else rawSlug id (els.take n)
    let (rest, raws) := encodeSlugs id lengths fuel (els.drop n)
    (slug :: rest, if coded then raws else raws + 1)

/-! ### Decoding (06 R163) -/

/-- Decode one symbol: the symbol and the bits that follow it. -/
def decodeSym (lengths : List Byte) (f : Nat) : Nat → Nat → Nat → List Bool → Option (Nat × List Bool)
  | 0, _, _, _ => none
  | fuel + 1, len, code, bits =>
    match bits with
    | [] => none
    | b :: rest =>
      let code := 2 * code + b2n b
      let len := len + 1
      match (List.range (alphabet f)).find? (fun s => codeLen lengths s == len && symCode lengths f s == code) with
      | some s => some (s, rest)
      | none => decodeSym lengths f fuel len code rest

/-- Decode `n` symbols that must end inside the last byte, before zero padding (06 R163). -/
def decodeSub (lengths : List Byte) (f : Nat) : Nat → List Bool → Option (List Nat)
  | 0, bits => if bits.length ≤ 7 && bits.all (fun b => !b) then some [] else none
  | n + 1, bits =>
    match decodeSym lengths f 15 0 0 bits with
    | none => none
    | some (s, rest) => (decodeSub lengths f n rest).map (fun l => s :: l)

/-- The bits of bytes, bit [7] first. -/
def bytesToBits (bs : List Byte) : List Bool := (bs.map (fun b => (List.range 8).map (fun i => b.toNat.testBit (7 - i)))).flatten

/-- What the checks of R163 answer for one slug. -/
inductive SlugResult where
  /-- step 1: the check code. -/
  | crc
  /-- any later check, or the decode. -/
  | bad
  | ok (codes : List Nat)
deriving DecidableEq, Repr, Inhabited

/-- A 16-bit field of a slug. -/
def half (bs : List Byte) (o : Nat) : Nat := leNat ((bs.drop o).take 2)

/-- Step 1 of R163: the check code covers the header up to it and the payload (06 R156). -/
def slugCrcOk (bs : List Byte) : Bool := crc32c (bs.take 0x18 ++ (bs.drop 0x20).take 2016) == leNat ((bs.drop 0x18).take 4)

/-- Check and decode a slug of table `table` and format `f`; `slot` gives the state of the slot it names (06 R163). -/
def decodeSlug (table f : Nat) (slot : Bool → TableSlot) (bs : List Byte) : SlugResult :=
  if !slugCrcOk bs then .crc else
  let flags := (bs.getD 1 0).toNat
  let count := half bs 2
  let ends := (List.range 8).map (fun k => half bs (8 + 2 * k))
  let starts := 0x20 :: ends
  let ordered := (List.range 8).all (fun k => decide (starts.getD k 0 ≤ ends.getD k 0)) && decide (ends.getD 7 0 ≤ 0x800)
  let resv := (bs.drop 0x1C).take 4 == [0, 0, 0, 0]
  let t := slot (flags % 2 = 1)
  if bs.getD 0 0 ≠ 0xC5 || flags / 4 ≠ 0 || !resv || decide (count < 16) || decide (16128 < count) || count % 16 ≠ 0 || !ordered then .bad
  else if (bs.getD 7 0).toNat ≠ f || half bs 4 ≠ table then .bad
  else if !t.valid || t.version ≠ bs.getD 6 0 then .bad
  else if (flags / 2) % 2 = 1 then
    if ends.all (fun e => e == 0x20 + elemBytes f count) then .ok (unpackCodes f (bs.drop 0x20) count) else .bad
  else
    let subs := (List.range 8).map (fun k =>
      decodeSub t.lengths f ((count + 7 - k) / 8)
        (bytesToBits ((bs.drop (starts.getD k 0)).take (ends.getD k 0 - starts.getD k 0))))
    if subs.all Option.isSome then
      let ss := subs.map (fun o => o.getD [])
      .ok ((List.range count).map (fun i => (ss.getD (i % 8) []).getD (i / 8) 0))
    else .bad

/-- Decode consecutive slugs until `n` elements are there (06 R152). -/
def decodeRun (table f : Nat) (slot : Bool → TableSlot) : Nat → Nat → List Byte → SlugResult
  | 0, _, _ => .bad
  | fuel + 1, n, bs =>
    if n = 0 then .ok [] else
    match decodeSlug table f slot (bs.take 2048) with
    | .ok codes =>
      if n ≤ codes.length then .ok (codes.take n)
      else match decodeRun table f slot fuel (n - codes.length) (bs.drop 2048) with
        | .ok rest => .ok (codes ++ rest)
        | r => r
    | r => r

/-! ### Table slots of a partition (06 R157, R165) -/

/-- The key of a slot. -/
def slotKey (part table : Nat) (b : Bool) : Nat := part * 2048 + table * 2 + b2n b

/-- A table slot. -/
def slotOf (s : State) (part table : Nat) (b : Bool) : TableSlot := Tab.getD s.codec.slots (slotKey part table b) {}

/-- Change a slot's reference count by adding or removing `n` uses (06 R165). -/
def slotRef (part table : Nat) (b : Bool) (add : Bool) (n : Nat) (s : State) : State :=
  if n = 0 then s else
  { s with codec := { s.codec with
      slots := Tab.upd s.codec.slots (slotKey part table b) {}
        (fun t => { t with refs := if add then t.refs + n else t.refs - n }) } }

/-- Count a slug failure (06 R164, 17 R448 bit 11). -/
def slugFailure (crc : Bool) (s : State) : State :=
  if crc then noteErr 11 0 0x140 { s with codec := { s.codec with crcErr := satInc s.codec.crcErr } }
  else noteErr 11 0 0x144 { s with codec := { s.codec with decodeErr := satInc s.codec.decodeErr } }

end Sys2Proof.Machine
end

