-- ==== Sys2Proof/Machine/Records.lean ====
section
/-!
DEFINITION. Request records (08 R207 to R209), quotas and reservations (07 R200 to R202, 08 R220), frames of the galley
pools (07 R181, R189), and the judgement of a carried composition-map epoch (09 R256).
-/

namespace Sys2Proof.Machine

/-! ### Records -/

/-- The record of a request, with its index (08 R207). -/
def recEntry (s : State) (q : ReqId) : Option (Nat × Rec) := s.req.recs.find? (fun e => e.2.reqId == q && e.2.state != 0)

/-- The record of a request, RETIRED ones included. -/
def recFind (s : State) (q : ReqId) : Option Rec := (recEntry s q).map (fun e => e.2)

/-- A record that is neither FREE nor RETIRED. -/
def recLive (s : State) (q : ReqId) : Option Rec :=
  match recFind s q with
  | some r => if r.state = 8 then none else some r
  | none => none

/-- Change a request's record. -/
def recUpd (q : ReqId) (f : Rec → Rec) (s : State) : State :=
  match recEntry s q with
  | none => s
  | some (i, r) => { s with req := { s.req with recs := Tab.put s.req.recs i (f r) } }

/-- The index admission takes: a FREE record first, otherwise the one retired longest (08 R209). -/
def recIndex (s : State) : Option Nat :=
  match Tab.freshFrom s.req.recs (s.req.recs.length + 1) 0 with
  | some i => if i < 65536 then some i else s.req.retired.head?
  | none => s.req.retired.head?

/-- Create a record; a request's own earlier record is reused. -/
def recCreate (r : Rec) (s : State) : State :=
  match recEntry s r.reqId with
  | some (i, _) => { s with req := { s.req with recs := Tab.put s.req.recs i r, retired := s.req.retired.filter (fun j => j != i) } }
  | none =>
    match recIndex s with
    | none => s
    | some i => { s with req := { s.req with recs := Tab.put s.req.recs i r, retired := s.req.retired.filter (fun j => j != i) } }

/-- A record becomes RETIRED: it keeps REQ_ID, STATUS and STAGE (08 R209); STATE_LOST is counted in REQ_LOST at the
anchor. -/
def recRetire (q : ReqId) (c : Status) (s : State) : State :=
  match recEntry s q with
  | none => s
  | some (i, r) =>
    if r.state = 8 then s else
    { s with req := { s.req with
        recs := Tab.put s.req.recs i { reqId := q, state := 8, status := codeOf c, stage := r.stage }
        retired := s.req.retired.filter (fun j => j != i) ++ [i] } }

/-- A record becomes FREE, when ownership leaves the device (08 R218, R231). -/
def recFree (q : ReqId) (s : State) : State :=
  match recEntry s q with
  | none => s
  | some (i, _) => { s with req := { s.req with recs := Tab.del s.req.recs i, retired := s.req.retired.filter (fun j => j != i) } }

/-- Count a request lost (08 R238, 17 R448 bit 3). -/
def countLost (s : State) : State := noteErr 3 0 0x044 { s with req := { s.req with lost := satInc s.req.lost } }

/-- A terminal condition holds for a request at its next boundary (00 R11). -/
def addCond (q : ReqId) (c : Status) (s : State) : State :=
  recUpd q (fun r => if r.conds.contains c then r else { r with conds := r.conds ++ [c] }) s

/-- The record is active: neither FREE, DRAINING nor RETIRED (08 R218). -/
def recActive (r : Rec) : Bool := r.state != 0 && r.state != 7 && r.state != 8

/-- Re-prefill applies: permitted, and the token history is held (08 R218). -/
def reprefillApplies (r : Rec) : Bool := (r.flags &&& 3) == 3

/-! ### The generation of a partition (02 R65, R66) -/

/-- FORME_PART_GEN of a partition. -/
def partGenOf (s : State) (p : Nat) : Byte := Tab.getD s.forme.partGen p 0

/-- A partition that drains, or is drained and not resumed (02 R63). -/
def partDraining (s : State) (p : Nat) : Bool :=
  (s.forme.state == 4 || s.forme.state == 5) && (regionsOf s p).any (fun r => s.forme.drained.toNat.testBit r)

/-! ### Composition maps (09 R254 to R257) -/

/-- MAP_TnDRAIN: records routed under an epoch that are neither FREE nor RETIRED nor PAUSED with a shelved galley
(09 R257). -/
def drainCount (s : State) (e : Word) : Nat :=
  (s.req.recs.filter (fun r => r.2.epoch == e && r.2.state != 0 && r.2.state != 8
    && !(r.2.state == 5 && r.2.expiry != 0))).length

/-- The map table now: a draining epoch whose lease has ended has left it once its drain count is zero (09 R257). -/
def mapsHeld (s : State) : List MapEntry :=
  s.pair.maps.filter (fun m => m.current || decide (s.tb < m.leaseEnd) || drainCount s m.epoch != 0)

/-- The current map. -/
def mapCurrent (s : State) : Option MapEntry := s.pair.maps.find? (fun m => m.current)

/-- The judgement of a carried epoch: admission or traffic (09 R256). -/
def epochJudge (s : State) (admission : Bool) (e : Word) : Status :=
  match (mapsHeld s).find? (fun m => m.epoch == e) with
  | some m => if admission && decide (m.leaseEnd ≤ s.tb) then .epochStale else .ok
  | none =>
    match mapCurrent s with
    | none => .retryLater
    | some c => if newer 32 e.toNat c.epoch.toNat then .retryLater else .epochStale

/-- The role a held map gives a slot (09 R255): 0 absent, 1 prompt, 2 generation, 3 cache. -/
def mapRole (s : State) (e : Word) (slot : Nat) : Nat :=
  match (mapsHeld s).find? (fun m => m.epoch == e) with
  | some m => m.roles.getD slot 0
  | none => 0

/-- Draining epochs whose lease has ended and whose drain count is zero leave the table (09 R257). -/
def mapPrune (s : State) : State :=
  { s with pair := { s.pair with maps := mapsHeld s } }

/-! ### Admission order (00 R12) -/

/-- Rank of an admission failure. -/
def r12Rank (c : Status) : Nat :=
  match c with
  | .malformed => 0 | .formeMismatch => 1 | .denied => 2 | .epochStale => 3 | .quota => 4 | _ => 5

/-- The first failing check of an admission decides its code (00 R12). -/
def r12First (l : List Status) : Option Status :=
  match l with
  | [] => none
  | c :: rest =>
    if isSuccess c then r12First rest else
    match r12First rest with
    | none => some c
    | some d => if r12Rank d < r12Rank c then some d else some c

/-! ### Quotas (07 R200 to R202) -/

/-- Change a tenant's quota entry, where it has one. -/
def quotaUpd (t : BitVec 16) (f : Quota → Quota) (s : State) : State :=
  { s with tier := { s.tier with quotas := Tab.mod s.tier.quotas t.toNat f } }

/-- Reserve `n` T1 pages of a tenant: DENIED without an entry, QUOTA when it does not fit (07 R200, R201). -/
def quotaReserve (t : BitVec 16) (n : Nat) (s : State) : Status × State :=
  match Tab.find s.tier.quotas t.toNat with
  | none => (.denied, s)
  | some q =>
    if q.t1Used + n ≤ q.t1Limit then (.ok, quotaUpd t (fun q => { q with t1Used := q.t1Used + n }) s)
    else (.quota, s)

/-- Return `n` reserved T1 pages. -/
def quotaReturn (t : BitVec 16) (n : Nat) (s : State) : State := quotaUpd t (fun q => { q with t1Used := q.t1Used - n }) s

/-- `n` pages of a tenant left EMPTY, or returned to it (07 R200; 13 R357 T1_PAGE_MS). -/
def chargeHeld (t : BitVec 16) (leave : Bool) (n : Nat) (s : State) : State :=
  quotaUpd t (fun q => { q with t1Held := if leave then q.t1Held + n else q.t1Held - n }) s

/-- The pages a stage reserves on each member (08 R220). -/
def reservation (layers maxLen : Nat) (history : Bool) : Nat :=
  let pages := cdiv maxLen 64
  layers * pages + layers * cdiv pages 256 + (if history then cdiv maxLen 16384 else 0)

/-! ### Galley pool frames (07 R181, R189) -/

/-- Galleys of this member, by REQ_ID (08 R211). -/
def galleyOf (s : State) (q : ReqId) : Option Galley := Tab.find s.req.galleys q.toNat

/-- Change a galley. -/
def galleyUpd (q : ReqId) (f : Galley → Galley) (s : State) : State :=
  { s with req := { s.req with galleys := Tab.mod s.req.galleys q.toNat f } }

/-- A page lies in T1: OPEN, SEALED or MIRRORED (08 R211). -/
def inT1 (p : Page) : Bool := p.state == 1 || p.state == 2 || p.state == 3

/-- Every page of a galley, of every kind. -/
def galleyPages (g : Galley) : List Page :=
  (g.layer.map (fun l => l.2.pages.map (fun p => p.2) ++ l.2.thumbs.map (fun p => p.2))).flatten
    ++ g.hist.map (fun p => p.2)

/-- T1 frames that galleys hold. -/
def framesHeld (s : State) : List Nat :=
  (s.req.galleys.map (fun g => ((galleyPages g.2).filter inT1).map (fun p => p.frame))).flatten

/-- Frames of a partition's galley pool (02 R45). -/
def poolSize (s : State) (p : Nat) : Nat :=
  match s.forme.committed with
  | none => 0
  | some c => (c.role.galleyPool.getD p 0).toNat

/-- The lowest free frame of a partition's galley pool. -/
def freeFrame (s : State) (p : Nat) : Option Nat :=
  let base := Tab.getD s.forme.partBase p 0
  let used := framesHeld s
  ((List.range (poolSize s p)).map (fun i => base + i)).find?
    (fun f => !used.contains f && !s.tier.retiredFrames.contains f)

/-- Pages the pool of a partition has promised to galleys: reservations (08 R237). -/
def poolPromised (s : State) (p : Nat) : Nat :=
  ((s.req.galleys.filter (fun g => g.2.part.toNat == p)).map (fun g => g.2.resv)).sum

/-- Frames of a pool that retirement has not taken. -/
def poolUsable (s : State) (p : Nat) : Nat :=
  let base := Tab.getD s.forme.partBase p 0
  poolSize s p - (s.tier.retiredFrames.filter (fun f => decide (base ≤ f) && decide (f < base + poolSize s p))).length

end Sys2Proof.Machine
end

