-- ==== Sys2Proof/Machine/Galley.lean ====
section
/-!
DEFINITION. The pages of a galley on this member (08 R210 to R217): opening and freeing pages, placing rows (R213), the
committed length, sealing (R215, R216) with the thumb entry (05 R136) and the coded page (06 R168), and the retirement
of T1 frames (07 R189).
-/

namespace Sys2Proof.Machine

/-! ### What the partition says of its galleys -/

/-- The ATTENTION section of a partition (05 R148). -/
def attnOf (s : State) (p : Nat) : Option AttentionSect :=
  match s.forme.committed with
  | none => none
  | some c => Tab.find c.attention p

/-- Elements of a galley row. -/
def rowElems (s : State) (p : Nat) : Nat :=
  match attnOf s p with
  | none => 0
  | some a => a.lat.toNat + a.posw.toNat

/-- The format of a galley row's elements. -/
def kvFormat (s : State) (p : Nat) : Nat :=
  match attnOf s p with
  | none => 0
  | some a => a.kvFormat.toNat

/-- ROW_BYTES of a partition's galleys (05 R148, 03 R75). -/
def rowBytes (s : State) (p : Nat) : Nat := elemBytes (kvFormat s p) (rowElems s p)

/-! ### Pages -/

/-- A layer of a galley. -/
def layerOf (g : Galley) (l : Nat) : GLayer := Tab.getD g.layer l {}

/-- A page by kind (0 latent, 1 thumb, 2 history), layer and index; an absent page is EMPTY. -/
def pageOf (g : Galley) (k l p : Nat) : Page :=
  match k with
  | 0 => Tab.getD (layerOf g l).pages p {}
  | 1 => Tab.getD (layerOf g l).thumbs p {}
  | _ => Tab.getD g.hist p {}

/-- Change a page. -/
def pageUpd (q : ReqId) (k l p : Nat) (f : Page → Page) (s : State) : State :=
  galleyUpd q (fun g =>
    match k with
    | 0 => { g with layer := Tab.upd g.layer l {} (fun x => { x with pages := Tab.upd x.pages p {} f }) }
    | 1 => { g with layer := Tab.upd g.layer l {} (fun x => { x with thumbs := Tab.upd x.thumbs p {} f }) }
    | _ => { g with hist := Tab.upd g.hist p {} f }) s

/-- The 256-byte header and the step tags of a latent page slot, from 0xE000 on (08 R210). -/
def headerBytes (q : ReqId) (l p : Nat) (x : Page) (slugs : Nat) : List Byte :=
  let h : List Byte := [0xB7, BitVec.ofNat 8 (b2n x.coded), BitVec.ofNat 8 slugs, 0] ++ leBytes 4 l ++ leBytes 8 p
    ++ leBytes 8 q.toNat ++ leBytes 8 x.written.toNat ++ leBytes 8 x.spec.toNat ++ leBytes 48 x.sealDigest.toNat
  h ++ List.replicate 168 0 ++ ((List.range 64).map (fun e => leBytes 4 (Tab.getD x.tags e 0).toNat)).flatten

/-- Write a latent page's header into its slot (08 R210). -/
def syncHeader (q : ReqId) (l p slugs : Nat) (s : State) : State :=
  match galleyOf s q with
  | none => s
  | some g =>
    let x := pageOf g 0 l p
    if inT1 x then t1Write (x.frame * 65536 + 0xE000) (headerBytes q l p x slugs) s else s

/-- Write the headers of a layer's OPEN pages, whose masks have changed (08 R210). -/
def syncOpen (q : ReqId) (l : Nat) (s : State) : State :=
  match galleyOf s q with
  | none => s
  | some g => ((layerOf g l).pages.filter (fun p => p.2.state == 1)).foldl (fun s p => syncHeader q l p.1 0 s) s

/-- A page leaves EMPTY into the given state, in the lowest free frame of its pool (08 R213, R217; 07 R200); `none` when
the pool has no free frame (log entry 42). -/
def openPage (q : ReqId) (k l p : Nat) (st : BitVec 3) (s : State) : Option State :=
  match galleyOf s q with
  | none => none
  | some g =>
    match freeFrame s g.part.toNat with
    | none => none
    | some f =>
      some (recUpd q (fun r => { r with held := r.held + 1 })
        (chargeHeld g.tenant true 1 (pageUpd q k l p (fun _ => { frame := f, state := st }) s)))

/-- A coded page's reference to its slot is returned (06 R165, R168). -/
def dropRef (g : Galley) (x : Page) (s : State) : State :=
  if x.coded && inT1 x then slotRef g.part.toNat g.table g.slotB false 1 s else s

/-- A page returns to EMPTY: its frame, charge and slot reference are freed (08 R217; 07 R200). -/
def emptyPage (q : ReqId) (k l p : Nat) (s : State) : State :=
  match galleyOf s q with
  | none => s
  | some g =>
    let x := pageOf g k l p
    let s := dropRef g x s
    let s := if inT1 x then recUpd q (fun r => { r with held := r.held - 1 }) (chargeHeld g.tenant false 1 s) else s
    pageUpd q k l p (fun _ => {}) s

/-! ### Ending requests from a stage -/

/-- A terminal condition found on this device goes to the request's anchor, which ends it on every stage (08 R229,
R236). -/
def reportEnd (q : ReqId) (c : Status) (s : State) : State :=
  match recLive s q with
  | none => s
  | some r =>
    if r.conds.contains c then s
    else sendFw r.anchor r.epoch (.retire q c) (addCond q c s)

/-! ### Retirement of frames (07 R189, 18 R473) -/

/-- Set or clear a bit of MAINT_REPAIR. -/
def repairBit (n : Nat) (v : Bool) (s : State) : State :=
  let w := s.maint.repair.maj
  let w' := if v then w ||| BitVec.ofNat 32 (2 ^ n) else w &&& ~~~(BitVec.ofNat 32 (2 ^ n))
  { s with maint := { s.maint with repair := Tmr.all w' } }

/-- Entries of the record in force. -/
def recordEntries (s : State) : List RepairEntry :=
  match s.maint.record with
  | none => []
  | some r => r.entries

/-- A new repair entry awaits writing; a duplicate is not added, and a full record drops it (18 R473). -/
def addRepair (e : RepairEntry) (s : State) : State :=
  let same (x : RepairEntry) : Bool := x.kind == e.kind && x.unit == e.unit && x.bit == e.bit && x.addr == e.addr
  if (recordEntries s ++ s.maint.pending).any same then s
  else if (recordEntries s).length + s.maint.pending.length ≥ 4096 then repairBit 17 true s
  else repairBit 18 true { s with maint := { s.maint with pending := s.maint.pending ++ [e] } }

/-- The frames of a T1 plate (07 R181). -/
def plateFrames (r : PlateRef) : Nat × Nat :=
  let a := plateAddr r.dest.toNat
  (a / 65536, (a + r.plainLen.toNat + 65535) / 65536)

/-- The pair state follows the forme: NONE outside the cache role or a serving STATE; otherwise a member that was NONE
waits for its partner, or is DEGRADED where the exclusion table marks the partner excluded (09 R240, R241). -/
def pairFollow (s : State) : State :=
  let alone := (partnerSlot s).elim false (fun p => excluded s (devOfSlot s p).toNat)
  let st : BitVec 4 :=
    if formeServes s && roleOf s = 3 then (if s.pair.state = 0 then (if alone then 3 else 1) else s.pair.state) else 0
  { s with pair := { s.pair with state := st } }

/-- A plate is no longer resident: STATE returns from ACTIVE to PLATES (06 R164, 07 R177). -/
def plateLost (r : PlateRef) (s : State) : State :=
  pairFollow { s with forme := { s.forme with
      resident := s.forme.resident.filter (fun x => x.digest != r.digest)
      state := if s.forme.state = 3 then 2 else s.forme.state } }

/-- The galley page that a T1 frame holds: request, kind, layer, index. -/
def pageInFrame (s : State) (f : Nat) : Option (ReqId × Nat × Nat × Nat) :=
  (s.req.galleys.findSome? (fun g =>
    match g.2.layer.findSome? (fun l =>
        match l.2.pages.find? (fun p => inT1 p.2 && p.2.frame == f) with
        | some p => some (0, l.1, p.1)
        | none => (l.2.thumbs.find? (fun p => inT1 p.2 && p.2.frame == f)).map (fun p => (1, l.1, p.1))) with
    | some x => some (g.2.reqId, x)
    | none => (g.2.hist.find? (fun p => inT1 p.2 && p.2.frame == f)).map (fun p => (g.2.reqId, 2, 0, p.1))))

/-- A T1 frame leaves its pool, is counted once and awaits recording (07 R189). -/
def frameRetired (f : Nat) (s : State) : State :=
  if s.tier.retiredFrames.contains f then s else
  let s := noteErr 6 0 0x044 { s with tier := { s.tier with
    retiredFrames := s.tier.retiredFrames ++ [f], retired := satInc s.tier.retired } }
  addRepair { kind := 0x04, source := 0x03, unit := BitVec.ofNat 16 (chanOf s f), bit := 0xFFFF, addr := BitVec.ofNat 64 f } s

/-- A T1 frame is retired, and what it held is lost: a galley page ends its requests with INTEGRITY, a plate is no longer resident,
the firmware reserve stops the device (07 R189). A plate that is loaded again over a retired frame and fails again is lost again. -/
def retireFrame (f : Nat) (s : State) : State :=
  let s := frameRetired f s
  if f < Config.reserveFrames then { s with tier := { s.tier with reserveBad := true } } else
  match pageInFrame s f with
  | some (q, k, l, p) => reportEnd q .integrity (emptyPage q k l p s)
  | none =>
    match s.forme.resident.find? (fun r => r.place.toNat % 16 == 1 && decide ((plateFrames r).1 ≤ f) && decide (f < (plateFrames r).2)) with
    | some r => plateLost r s
    | none => s

/-- Count a failed granule in its channel (07 R184, 17 R448 bit 7). -/
def granuleFail (mac : Bool) (addr : Nat) (s : State) : State :=
  let c := chanOf s (addr / 65536)
  if mac then noteErr 7 c 0x00C (lpcUpd c (fun l => { l with macErr := satInc l.macErr }) s)
  else noteErr 7 c 0x008 (lpcUpd c (fun l => { l with ue := satInc l.ue }) s)

/-! ### Rows (08 R213) -/

/-- Entry `e` of a page mask. -/
def maskBit (m : BitVec 64) (e : Nat) : Bool := m.toNat.testBit e

/-- Set or clear entry `e`. -/
def maskSet (m : BitVec 64) (e : Nat) (v : Bool) : BitVec 64 :=
  if v then m ||| BitVec.ofNat 64 (2 ^ e) else m &&& ~~~(BitVec.ofNat 64 (2 ^ e))

/-- The position's entry is WRITTEN. -/
def posWritten (g : Galley) (l pos : Nat) : Bool :=
  let x := pageOf g 0 l (pos / 64)
  inT1 x && maskBit x.written (pos % 64)

/-- The position's entry is SPEC with this step tag. -/
def posSpec (g : Galley) (l pos : Nat) (step : Word) : Bool :=
  let x := pageOf g 0 l (pos / 64)
  inT1 x && maskBit x.spec (pos % 64) && Tab.getD x.tags (pos % 64) 0 == step

/-- The end of the unbroken run of WRITTEN entries from `pos` on (08 R213). -/
def runEnd (g : Galley) (l : Nat) : Nat → Nat → Nat
  | 0, pos => pos
  | fuel + 1, pos => if posWritten g l pos then runEnd g l fuel (pos + 1) else pos

/-- SPEC_END: one past the highest speculative entry held at or above COMMIT, else COMMIT (08 R211). -/
def specEndOf (g : Galley) (l commit : Nat) : Nat :=
  (layerOf g l).pages.foldl (fun m e =>
    (List.range 64).foldl (fun m i =>
      if inT1 e.2 && maskBit e.2.spec i && decide (m ≤ e.1 * 64 + i) then e.1 * 64 + i + 1 else m) m) commit

/-- Rows are placed into EMPTY and OPEN pages only: a SEALED or MIRRORED page is never written (07 R192, 08 R217). -/
def pageTakesRows (x : Page) : Bool := x.state == 0 || x.state == 1

/-- Place one row into its entry: the page opens if it is EMPTY, the tag is set, the bit of its class is set and the
other cleared (08 R213). -/
def placeRow (q : ReqId) (l pos : Nat) (step : Word) (spec : Bool) (row : List Byte) (s : State) : Option State :=
  match galleyOf s q with
  | none => none
  | some g =>
    let opened := if (pageOf g 0 l (pos / 64)).state = 0 then openPage q 0 l (pos / 64) 1 s else some s
    match opened with
    | none => none
    | some s =>
      match galleyOf s q with
      | none => none
      | some g =>
        let x := pageOf g 0 l (pos / 64)
        let e := pos % 64
        let s := meterT1 g.tenant row.length (t1Write (x.frame * 65536 + e * row.length) row s)
        let s := pageUpd q 0 l (pos / 64) (fun x => { x with
          tags := Tab.put x.tags e step, written := maskSet x.written e (!spec), spec := maskSet x.spec e spec }) s
        some (syncHeader q l (pos / 64) 0 s)

/-- A certain row advances COMMIT; SPEC_END follows. -/
def advanceCommit (q : ReqId) (l : Nat) (s : State) : State :=
  match galleyOf s q with
  | none => s
  | some g =>
    let c := (layerOf g l).commit
    let c' := runEnd g l (64 * (layerOf g l).pages.length + 1) c
    galleyUpd q (fun g => { g with layer := Tab.upd g.layer l {} (fun x => { x with
      commit := c', specEnd := specEndOf g l c' }) }) s

/-- The pair partner's device (02 R45). -/
def partnerDev (s : State) : Option DevId := (partnerSlot s).map (devOfSlot s)

/-- An append at a member: the checks of R213 in order, then the placing. -/
def appendRow (sender : DevId) (a : AppendHdr) (row : List Byte) (s : State) : Status × State :=
  match galleyOf s a.req with
  | none => (.stateLost, s)
  | some g =>
    let copy := a.cls = 3
    if (!copy && sender != g.owner) || (copy && some sender != partnerDev s) then (.denied, s)
    else if a.layer.toNat < g.firstLayer || g.firstLayer + g.layers ≤ a.layer.toNat then (.formeMismatch, s)
    else if a.cls = 2 && g.serving != mySlot s then (.retryLater, s)
    else if a.cls ≠ 2 && decide (a.pos.toNat < g.rec_.commitLen) then
      (.ok, { s with req := { s.req with dups := satInc s.req.dups } })
    else if !pageTakesRows (pageOf g 0 a.layer.toNat (a.pos.toNat / 64)) then (.denied, s)
    else
      match placeRow a.req a.layer.toNat a.pos.toNat a.step (a.cls = 2) row s with
      | none => (.retryLater, s)
      | some s =>
        let s := { s with req := { s.req with appends := satInc s.req.appends } }
        (.ok, if a.cls = 2 then
            galleyUpd a.req (fun g => { g with layer := Tab.upd g.layer a.layer.toNat {} (fun x => { x with
              specEnd := specEndOf g a.layer.toNat x.commit }) }) s
          else advanceCommit a.req a.layer.toNat s)

/-! ### Content -/

/-- A sealed or open page's plain rows; a coded page is decoded (06 R163). -/
def pagePlain (s : State) (g : Galley) (l p : Nat) : SlugResult :=
  let x := pageOf g 0 l p
  let n := 64 * rowElems s g.part.toNat
  let f := kvFormat s g.part.toNat
  if x.coded then
    decodeRun g.table f (slotOf s g.part.toNat g.table) 29 n (t1Bytes s (x.frame * 65536) (28 * 2048))
  else .ok (unpackCodes f (t1Bytes s (x.frame * 65536) (elemBytes f n)) n)

/-- The plain bytes of a latent page's rows. -/
def plainRows (s : State) (g : Galley) (l p : Nat) : List Byte :=
  match pagePlain s g l p with
  | .ok codes => packCodes (kvFormat s g.part.toNat) codes
  | _ => []

/-! ### Sealing (08 R215, R216; 05 R136; 06 R168) -/

/-- The larger of two element codes by value, +0 above −0, NaN ignored; `none` before the first number (05 R136). -/
def thumbPick (f : Nat) (high : Bool) (best : Option Nat) (code : Nat) : Option Nat :=
  let w := widen f code
  if f32IsNan w then best else
  match best with
  | none => some code
  | some b =>
    let less := decide (f32Key (widen f b) < f32Key w)
    let more := decide (f32Key w < f32Key (widen f b))
    if (high && less) || (!high && more) then some code else some b

/-- The 256-byte thumb entry of a page's codes (05 R136). -/
def thumbEntry (f width : Nat) (dims : List (BitVec 16)) (codes : List Nat) : List Byte :=
  let side (high : Bool) : List Byte := dims.map (fun d => BitVec.ofNat 8
    (((List.range 64).foldl (fun b e => thumbPick f high b (codes.getD (e * width + d.toNat) 0)) none).getD 0))
  side true ++ side false

/-- Write a page's thumb entry, opening its thumb page if it is EMPTY (05 R136). -/
def writeThumb (q : ReqId) (l p : Nat) (entry : List Byte) (s : State) : Option State :=
  match galleyOf s q with
  | none => none
  | some g =>
    let opened := if (pageOf g 1 l (p / 256)).state = 0 then openPage q 1 l (p / 256) 1 s else some s
    match opened with
    | none => none
    | some s =>
      match galleyOf s q with
      | none => none
      | some g =>
        some (meterT1 g.tenant entry.length (t1Write ((pageOf g 1 l (p / 256)).frame * 65536 + (p % 256) * 256) entry s))

/-- Full pages below the new committed length begin to seal (08 R215 step 4). -/
def beginSeals (q : ReqId) (n : Nat) (s : State) : State :=
  galleyUpd q (fun g => { g with layer := g.layer.map (fun l => (l.1, { l.2 with
    pages := l.2.pages.map (fun p =>
      (p.1, if p.2.state == 1 && decide ((p.1 + 1) * 64 ≤ n) then { p.2 with sealing := true } else p.2)) })) }) s

/-- The thumb entry of a page that seals, where the partition keeps them. -/
def sealThumb (q : ReqId) (g : Galley) (l p : Nat) (codes : List Nat) (s : State) : Option State :=
  match attnOf s g.part.toNat with
  | none => some s
  | some a =>
    if a.thumbCount = 128 then
      writeThumb q l p (thumbEntry (kvFormat s g.part.toNat) (rowElems s g.part.toNat) a.thumbDims codes) s
    else some s

/-- Encode a page that seals under the galley's bound slot (06 R168). A bound slot may be rewritten while none of the galley's pages is
coded or being encoded (R166); no rule says what its later seals use. They use the slot as it stands, and their slugs carry its
version, so that they decode (R163; DESIGN CHOICE, log entry 194). -/
def sealCode (q : ReqId) (g : Galley) (l p : Nat) (codes : List Nat) (s : State) : State × Nat :=
  if g.table = 0 then (s, 0) else
  let slot := slotOf s g.part.toNat g.table g.slotB
  let id : SlugId := { slotB := g.slotB, table := g.table, version := slot.version.toNat, format := kvFormat s g.part.toNat }
  let (slugs, raws) := encodeSlugs id slot.lengths (codes.length + 1) codes
  let s := t1Write ((pageOf g 0 l p).frame * 65536) slugs.flatten s
  let s := slotRef g.part.toNat g.table g.slotB true 1 s
  let s := { s with codec := { s.codec with seals := satInc s.codec.seals, raw := satAdd s.codec.raw raws } }
  (galleyUpd q (fun g => { g with coded := true }) (pageUpd q 0 l p (fun x => { x with coded := true }) s), slugs.length)

/-- A page's plain rows are sealed: thumb entry, encoding, SEAL_DIGEST, SEALED; `none` when no frame is left for its
thumb page. The digest is returned. -/
def sealPage (q : ReqId) (l p : Nat) (s : State) : Option (Digest × State) :=
  match galleyOf s q with
  | none => none
  | some g =>
    let codes := unpackCodes (kvFormat s g.part.toNat)
      (t1Bytes s ((pageOf g 0 l p).frame * 65536) (elemBytes (kvFormat s g.part.toNat) (64 * rowElems s g.part.toNat)))
      (64 * rowElems s g.part.toNat)
    let d := Config.sha384 (packCodes (kvFormat s g.part.toNat) codes)
    match sealThumb q g l p codes s with
    | none => none
    | some s =>
      let (s, slugs) := sealCode q g l p codes s
      let s := meterT1 g.tenant (elemBytes (kvFormat s g.part.toNat) codes.length + 2048 * slugs) s
      let s := pageUpd q 0 l p (fun x => { x with state := 2, sealing := false, sealDigest := d }) s
      some (d, syncHeader q l p slugs { s with req := { s.req with seals := satInc s.req.seals } })

/-- Both members' digests of a sealed page are known: they match and the page is MIRRORED, or the page is retired and
its requests end with INTEGRITY (08 R216). A DEGRADED member's page stays SEALED (09 R245). -/
def compareSeal (q : ReqId) (l p : Nat) (s : State) : State :=
  match galleyOf s q with
  | none => s
  | some g =>
    let x := pageOf g 0 l p
    match x.partner with
    | none => s
    | some d =>
      if x.state ≠ 2 || s.pair.state == 3 then s
      else if d = x.sealDigest then pageUpd q 0 l p (fun x => { x with state := 3 }) s
      else retireFrame x.frame
        (noteErr 4 0 0x034 { s with req := { s.req with digestErr := satInc s.req.digestErr } })

/-! ### Freeing galleys -/

/-- T3 frames that hold a galley's content are freed and uncharged on this member (07 R196, R200). -/
def freeT3 (q : ReqId) (s : State) : State :=
  match galleyOf s q with
  | none => s
  | some g =>
    let p := g.part.toNat
    match Tab.find s.tier.t3 p with
    | none => s
    | some a =>
      let n := (a.frames.filter (fun f => f.2 == q)).length
      quotaUpd g.tenant (fun u => { u with t3Used := u.t3Used - n })
        { s with tier := { s.tier with
            t3 := Tab.put s.tier.t3 p { a with frames := a.frames.filter (fun f => f.2 != q) } } }

/-- Return the T1 charges and slot references of the pages `sel` selects, and empty those pages. -/
def freePages (q : ReqId) (sel : Nat → Bool) (s : State) : State :=
  match galleyOf s q with
  | none => s
  | some g =>
    let latent := if sel 0 then (g.layer.map (fun l => l.2.pages.map (fun p => p.2))).flatten else []
    let thumbs := if sel 1 then (g.layer.map (fun l => l.2.thumbs.map (fun p => p.2))).flatten else []
    let hist := if sel 2 then g.hist.map (fun p => p.2) else []
    let n := ((latent ++ thumbs ++ hist).filter inT1).length
    let coded := (latent.filter (fun x => x.coded && inT1 x)).length
    let s := slotRef g.part.toNat g.table g.slotB false coded s
    let s := recUpd q (fun r => { r with held := r.held - n }) (chargeHeld g.tenant false n s)
    galleyUpd q (fun g => { g with
      layer := g.layer.map (fun l => (l.1, { l.2 with
        pages := if sel 0 then [] else l.2.pages, thumbs := if sel 1 then [] else l.2.thumbs }))
      hist := if sel 2 then [] else g.hist }) s

/-- Free a galley on this member: its pages, T3 frames, reservation and map (08 R230). -/
def freeGalley (q : ReqId) (s : State) : State :=
  match galleyOf s q with
  | none => s
  | some g =>
    let s := freeT3 q (freePages q (fun _ => true) s)
    let s := quotaReturn g.tenant g.resv s
    { s with req := { s.req with galleys := Tab.del s.req.galleys q.toNat, drops := satInc s.req.drops } }

/-- Expiry of an unrecalled galley: its T3 frames are freed and its SHELVED pages are EXPIRED (07 R197). -/
def expirePages (q : ReqId) (s : State) : State :=
  let ex (p : Page) : Page := if p.state = 4 then { state := 5 } else p
  galleyUpd q (fun g => { g with layer := g.layer.map (fun l => (l.1, { l.2 with
    pages := l.2.pages.map (fun p => (p.1, ex p.2)), thumbs := l.2.thumbs.map (fun p => (p.1, ex p.2)) })) }) (freeT3 q s)

/-- Re-prefill frees latent and thumb pages, or the galley's T3 frames, and takes every committed length to 0; the map,
the record, the reservation and the history stay (08 R233). -/
def resetGalley (q : ReqId) (s : State) : State :=
  let s := freeT3 q (freePages q (fun k => k != 2) s)
  galleyUpd q (fun g => { g with
    layer := g.layer.map (fun l => (l.1, { l.2 with commit := 0, specEnd := 0, pages := [], thumbs := [] }))
    rec_ := { g.rec_ with commitLen := 0, prefilled := 0 }, expiry := 0, op := .idle, pausedAt := none }) s

end Sys2Proof.Machine
end

