-- ==== Sys2Proof/Machine/ClusterOps.lean ====
section
/-!
DEFINITION. What the cluster commands and the transports share (03): address registers, the end of a work item (R74,
R87, R91), and the channels: waiting and the slots of a receive channel (R83 to R87).
-/

namespace Sys2Proof.Machine

/-- A word of the mailbox (03, *Compositor address view*). -/
def mailWord (c : Cluster) (a : Nat) : Word := Mem.word c.mailbox a

/-- An address register (03 R68). -/
def areg (c : Cluster) (a : Nat) : Word := Tab.getD c.aregs a 0

/-- Set an address register. -/
def setAreg (a : Nat) (v : Word) (c : Cluster) : Cluster := { c with aregs := Tab.put c.aregs a v }

/-- WAITWQ, DONEWQ and the end of an item end every open chain, live range and stream ring (03 R72). -/
def endSpans (c : Cluster) : Cluster := { c with chain := false, live := [], streams := [] }

/-- The effects of the press commands that have not left EMIT, oldest first. -/
def pendingEffs (x : Cluster) : List Eff := (x.press.map (fun p => p.effs)).flatten

/-- The mailbox as commands issued later see it: writes of the press commands in flight included (03 R70). -/
def mailSeen (x : Cluster) : Mem :=
  (pendingEffs x).foldl (fun m e =>
    match e with
    | .mailW off bs => Mem.store m off bs
    | _ => m) x.mailbox

/-- A stream whose last chunk has been consumed is no longer armed (03 R81). -/
def streamSpent (t : Stream) : Bool :=
  if t.slug then t.left == 0 && t.visible.isEmpty else decide (cdiv t.total t.chunk ≤ t.taken)

/-- The armed streams after an effect: an arm, a stop, or chunks consumed (03 R80, R81). -/
def streamsAfter (ts : Tab Stream) (e : Eff) : Tab Stream :=
  match e with
  | .arm id t => Tab.put ts id t
  | .stop id => Tab.del ts id
  | .take id k =>
    (match Tab.find ts id with
     | none => ts
     | some t =>
       let t := { t with taken := t.taken + k, visible := t.visible.drop k, want := 0 }
       if streamSpent t then Tab.del ts id else Tab.put ts id t)
  | _ => ts

/-! ### The grants of FETCH (03 R81) -/

/-- The 512-byte lines of a chunk. -/
def chunkLines (t : Stream) : Nat := t.chunk / 512

/-- The lines of a stream's source. -/
def sourceLines (t : Stream) : Nat := t.total / t.chunk * chunkLines t + cdiv (t.total % t.chunk) 512

/-- The lines granted to a stream that have not arrived. -/
def linesOut (t : Stream) : Nat := t.asked - t.next * chunkLines t

/-- The source of a stream holds no further chunk (03 R80, 06 R152). -/
def streamDone (t : Stream) : Bool := if t.slug then t.left == 0 else decide (cdiv t.total t.chunk ≤ t.next)

/-- All lines of the stream's next chunk are granted and have not arrived. -/
def chunkOut (t : Stream) : Bool :=
  !streamDone t && decide (t.next * chunkLines t < t.asked) && decide (min ((t.next + 1) * chunkLines t) (sourceLines t) ≤ t.asked)

/-- A stream has ring space and MAX_OUT room. -/
def mayGrant (t : Stream) : Bool :=
  decide (t.asked < min ((t.taken + t.ringLen / t.chunk) * chunkLines t) (sourceLines t)) && decide (linesOut t < t.maxOut)

/-- The stream that is granted next: in ascending order, starting after the stream last granted. -/
def nextGrant (x : Cluster) : Option Nat :=
  let ids := (x.streams.filter (fun e => mayGrant e.2)).map (fun e => e.1)
  match ids.find? (fun i => decide (x.lastGrant < i)) with
  | some i => some i
  | none => ids.head?

/-- FETCH grants read slots while fewer than 512 lines are outstanding and a stream has room for one; none while the cluster's context
changes (13 R347). -/
def grantLines : Nat → Cluster → Cluster
  | 0, x => x
  | fuel + 1, x =>
    if x.moving.isSome || decide (512 ≤ (x.streams.map (fun e => linesOut e.2)).sum) then x else
    match nextGrant x with
    | none => x
    | some i => grantLines fuel { x with
        lastGrant := i, streams := Tab.mod x.streams i (fun t => { t with asked := t.asked + 1 }) }

/-- The armed streams as commands issued later see them (03 R70). -/
def streamsSeen (x : Cluster) : Tab Stream := (pendingEffs x).foldl streamsAfter x.streams

/-- The index of the next WAITWQ from the compositor's index on, where it continues after an ended item; with none after it, the
first WAITWQ of the stream, and without one the entry index (03 R74; log entry 152). -/
def nextWaitwq (c : Cluster) : Nat :=
  let ws := c.commands.filter (fun i => (Tab.getD c.store i 0).toNat / 2 ^ 56 == 5)
  match ws.find? (fun i => decide (c.pc ≤ i)) with
  | some i => i
  | none => ws.headD c.entry

/-- A claimed cluster holds no work item any more: the claim's 40,000 tb begin (18 R456). -/
def itemGone (n : Nat) (s : State) : State :=
  { s with maint := { s.maint with idleSince := Tab.put s.maint.idleSince n s.tb } }

/-- CLUSTER_FAULT records a cause at the command index (03, CLUSTER registers; 17 R448 bit 12). -/
def clusterCause (n cause : Nat) (s : State) : State :=
  noteErr 12 n 0x01C (clusterUpd n (fun c => { c with
    faultIndex := BitVec.ofNat 14 c.pc, faultCause := BitVec.ofNat 4 cause }) s)

/-- The items ended so far, with the one in progress if it ends now with code `c`. -/
def endsWith (c : Byte) (x : Cluster) : List Ended :=
  match x.item with
  | some i => x.done ++ [{ item := i, code := c, sat := x.sat, dig := x.dig, fallbacks := x.fallbacks }]
  | none => x.done

/-- The work item in progress ends with a code and the compositor continues at the next WAITWQ; with `retire` its
requests end with the same code (03 R74, R91). Loops that are open stay open (log entry 152). -/
def endItem (n : Nat) (c : Status) (cause : Nat) (retire : Bool) (s : State) : State :=
  let item := (cluster s n).item
  let s := clusterCause n cause s
  let s := itemGone n (clusterUpd n (fun x => { endSpans x with
    ended := some c, wait := .none, pc := nextWaitwq x, state := if x.state = 6 || x.moving.isSome then x.state else 2, item := none
    done := endsWith (codeOf c) x }) s)
  match item with
  | some i => if retire then i.rows.foldl (fun s r => reportEnd r.req c s) s else s
  | none => s

/-! ### Channels -/

/-- Channel `k` of cluster `n`. -/
def channel (s : State) (n k : Nat) : Option Chan := Tab.find (cluster s n).chans k

/-- Change a channel. -/
def channelUpd (n k : Nat) (f : Chan → Chan) (s : State) : State :=
  clusterUpd n (fun c => { c with chans := Tab.mod c.chans k f }) s

/-- The peer is on another chip (03 R84). -/
def remotePeer (p : ChanPeer) : Bool :=
  match p with
  | .local_ _ _ => false
  | _ => true

/-- The channel's expected tag: the low 16 bits of the mailbox word at BUF − 4, as a command issued now sees it (03 R70, R86). -/
def expectedTag (c : Cluster) (k : Chan) : Nat := (Mem.word (mailSeen c) (k.entry.buf - 4)).toNat % 65536

/-- The first two bytes of a message. -/
def msgTag (m : List Byte) : Nat := leNat (m.take 2)

/-- Channel events reach a cluster that waits (03 R84, R87, WAITCH). An implicit wait is left for the command to be
issued again, or ends the item on a broken channel. -/
def wakeWait (n : Nat) (s : State) : State :=
  let x := cluster s n
  match x.wait with
  | .channel a ch count credits _ =>
    match Tab.find x.chans ch with
    | none => s
    | some k =>
      if k.broken.isSome then clusterUpd n (fun x => { setAreg a.toNat 0 x with wait := .none, state := 2 }) s
      else if decide (count ≤ (if credits then k.credits else k.queue.length)) then
        clusterUpd n (fun x => { setAreg a.toNat 1 x with wait := .none, state := 2 }) s
      else s
  | .implicit ch =>
    match Tab.find x.chans ch with
    | none => s
    | some k =>
      match k.broken with
      | some c => endItem n c 6 false s
      | none => clusterUpd n (fun x => { x with wait := .none, state := 2 }) s
  | _ => s

/-- Place a message into the next slot of the channel's array (03 R83). -/
def placeMsg (n ch : Nat) (m : List Byte) (s : State) : State :=
  match channel s n ch with
  | none => s
  | some k =>
    let s := clusterUpd n (fun c => { c with mailbox := Mem.store c.mailbox (k.entry.buf + k.slot * k.entry.slotBytes) m }) s
    wakeWait n (channelUpd n ch (fun k => { k with
      queue := k.queue ++ [m], slot := if k.entry.slots = 0 then 0 else (k.slot + 1) % k.entry.slots }) s)

end Sys2Proof.Machine
end

