-- ==== Sys2Proof/Machine/Binding.lean ====
section
/-!
DEFINITION. Which context a cluster runs (13): the current slot, readiness and the choice of R350 and R351, switch points
(R346), saving and restoring (R347 to R349), overrun debt (R354, R355), the claims of clusters (18 R455, R456), taking work
items (03 R69); then the delivery of channel messages, which can make a parked context ready (R348, R353).
-/

namespace Sys2Proof.Machine

/-! ### Slots and contexts -/

/-- The current slot of the imposition table (13 R343). -/
def curSlot (s : State) : Option ImpSlot :=
  if s.sched.running then s.forme.committed.bind (fun c => c.imposition.slots[s.sched.slot]?) else none

/-- The contexts of partition `p` that the current slot names, rising (13 R344). -/
def slotCtxs (s : State) (p : Nat) : List Nat :=
  match curSlot s, partition s p with
  | some sl, some q => (List.range 64).filter (fun c => sl.contextMask.toNat.testBit c && q.contextMask.toNat.testBit c)
  | _, _ => []

/-- A context's scheduling state. -/
def ctxOf (s : State) (c : Nat) : Ctx := Tab.getD s.sched.ctxs c {}

/-- Change a context. -/
def ctxUpd (c : Nat) (f : Ctx → Ctx) (s : State) : State :=
  { s with sched := { s.sched with ctxs := Tab.upd s.sched.ctxs c {} f } }

/-- The context's function is enabled and a partition names it (13 R340). -/
def ctxPresent (s : State) (c : Nat) : Bool := decide (c ≤ s.host.numVfs) && (partOfCtx s c).isSome

/-- The context is saved in full mode (02 R51 FULL_SAVE). -/
def fullSave (s : State) (c : Nat) : Bool :=
  match (partOfCtx s c).bind (partition s) with
  | some q => q.fullSave.toNat.testBit c
  | none => false

/-- The cluster runs a program: it is not OFF, FAULTED, STANDBY or RETIRED. -/
def hasProgram (c : Cluster) : Bool := !(c.state == 0 || c.state == 6 || c.state == 7 || c.state == 8)

/-- A chain, a live range or a stream ring is open (03 R71). -/
def spansOpen (c : Cluster) : Bool := c.chain || !c.live.isEmpty || !c.streams.isEmpty

/-- The cluster is at a switch point (13 R346). -/
def atSwitch (s : State) (n : Nat) : Bool :=
  let c := cluster s n
  c.press.isEmpty && c.moving.isNone && hasProgram c &&
  (match c.ctx with
   | none => true
   | some x => c.item.isNone || fullSave s x || !spansOpen c)

/-! ### Readiness (13 R350, R353) -/

/-- Messages of channel `k` of cluster `n` that wait in context `c`'s completion ring. -/
def ringCount (s : State) (n k c : Nat) : Nat :=
  ((Tab.getD s.sched.rings c []).filter (fun e => e.1 == n && e.2.1 == k)).length

/-- A parked or saved work item can go on: what it waits for is present, or its timeout has elapsed. -/
def savedReady (s : State) (n c : Nat) (v : Saved) : Bool :=
  let there (k : Nat) : Nat := ringCount s n k c + ((Tab.find v.rx k).elim 0 (fun x => x.queue.length))
  match v.wait with
  | .none => v.item.isSome
  | .workItem => false
  | .barrier _ _ => s.sched.releasedAway.contains (n * 64 + c)
  | .channel _ k count credits until_ =>
    until_.elim false (fun t => decide (t ≤ s.tb)) ||
    (match channel s n k with
     | none => true
     | some x => x.broken.isSome || decide (count ≤ (if credits then x.credits else there k)))
  | .implicit k =>
    match channel s n k with
    | none => true
    | some x => x.broken.isSome || decide (0 < (if x.entry.send then x.credits else there k))

/-- Cluster `n` has something of context `c` to run. -/
def readyOn (s : State) (n c : Nat) : Bool :=
  let x := cluster s n
  !(ctxOf s c).pastEnd &&
  (x.ctx == some c && (!x.wqItems.isEmpty || (x.item.isSome && x.wait == .none))
   || !(Tab.getD s.sched.waiting (n * 64 + c) []).isEmpty
   || (Tab.find s.sched.saves (n * 64 + c)).elim false (savedReady s n c))

/-- Context `c` is ready on some cluster of its partition. -/
def ctxReady (s : State) (p c : Nat) : Bool :=
  (regionsOf s p).any (fun r => (List.range 16).any (fun i => readyOn s (16 * r + i) c))

/-- The smallest virtual time of a list, as serial numbers (13 R350, 09 R254). -/
def minVt (s : State) (cs : List Nat) : Option Nat :=
  cs.foldl (fun m c =>
    let v := (ctxOf s c).vt.toNat
    match m with
    | none => some v
    | some w => some (if newer 64 w v then v else w)) none

/-- vt(c) := max(vt(c), V) for a context that becomes ready in a SHARED slot, and for each named context as the slot begins
(13 R350). -/
def vtRefresh (begins : Bool) (s : State) : State :=
  match curSlot s with
  | none => s
  | some sl =>
    if sl.kind ≠ 1 then s else
    (List.range 8).foldl (fun s p =>
      let cs := slotCtxs s p
      let ready := cs.filter (ctxReady s p)
      let v := minVt s (if begins then ready else ready.filter (fun c => (ctxOf s c).wasReady))
      cs.foldl (fun s c => ctxUpd c (fun x =>
        let r := ready.contains c
        { x with
          wasReady := r
          vt := match v with
            | some v => if (begins || (r && !x.wasReady)) && newer 64 v x.vt.toNat then BitVec.ofNat 64 v else x.vt
            | none => x.vt }) s) s) s

/-- Charge the beats of a command to its context (13 R350; SCHED_BEATS of R360). -/
def chargeVt (c beats : Nat) (s : State) : State :=
  ctxUpd c (fun x => { x with
    vt := if x.weight = 0 then x.vt else x.vt + BitVec.ofNat 64 (beats * 65536 / x.weight)
    beats := x.beats + BitVec.ofNat 64 beats }) s

/-- The context that cluster `n` is to run: the slot's one context in a REALTIME slot, the ready one with the smallest vt in
a SHARED slot, the lower number first (13 R344, R351). -/
def choice (s : State) (n : Nat) : Option Nat :=
  match curSlot s, partOfRegion s (n / 16) with
  | some sl, some p =>
    let cs := (slotCtxs s p).filter (fun c => !(ctxOf s c).pastEnd)
    if sl.kind = 0 then cs.head?
    else
      let ready := cs.filter (readyOn s n)
      ready.find? (fun c => minVt s ready == some (ctxOf s c).vt.toNat)
  | _, _ => none

/-! ### Claims (18 R455, R456) -/

/-- Arm the start schedule at the first work item after a commit or a reset (18 R455); nothing starts in STOPPING. -/
def armSchedule (s : State) : State :=
  if s.maint.armed.isSome || s.maint.phase = 3 then s else { s with maint := { s.maint with armed := some ((s.tb / 160 + 1) * 160), rank := 0 } }

/-- A cluster receives a work item: it waits for its rank or for a claim it does not hold (18 R455, R456). -/
def claimFor (n : Nat) (s : State) : State :=
  let s := armSchedule s
  let s := { s with maint := { s.maint with idleSince := Tab.del s.maint.idleSince n } }
  if s.maint.claims.contains n || s.maint.claimWait.contains n then s
  else { s with maint := { s.maint with claimWait := s.maint.claimWait ++ [n] } }

/-- A cluster may issue commands (18 R453); none may whose claim its ballast holds in a governed stop (18 R457). -/
def claimed (s : State) (n : Nat) : Bool := s.maint.claims.contains n && !s.maint.ballast

/-! ### Work items (03 R69) -/

/-- A compositor that waits at WAITWQ takes the next work item; the counter and digest files are cleared (04 R114,
14 R375). A cluster that is to quiesce takes none (03 CLUSTER_CTRL). -/
def takeItem (n : Nat) (s : State) : State :=
  let x := cluster s n
  if x.wait != .workItem || x.quiesce || !claimed s n || x.moving.isSome || x.ctx.isNone then s else
  match Tab.find x.wqItems (x.wqCons % 64) with
  | none => s
  | some i => clusterUpd n (fun x => { setAreg 15 (BitVec.ofNat 32 (0x01000000 + x.wqCons % 64 * 64)) x with
      wait := .none, state := 2, item := some i, wqItems := Tab.del x.wqItems (x.wqCons % 64), wqCons := x.wqCons + 1
      sat := [], dig := [], digSeq := 0, itemBeats := 0, fallbacks := []
      traceItems := if s.repro.trace then x.traceItems + 1 else x.traceItems }) s

/-- Firmware posts a work item: what it writes into the mailbox's channel and descriptor area and the item's bytes first, then the
producer index (03 R68, R69). -/
def pushItem (n : Nat) (i : WorkItem) (s : State) : State :=
  clusterUpd n (fun x => { x with
    mailbox := Mem.store (i.mail.foldl (fun m e =>
      if 0x1000 ≤ e.1 ∧ e.1 + e.2.length ≤ 0x10000 then Mem.store m e.1 e.2 else m) x.mailbox) (x.wqProd % 64 * 64) i.bytes
    wqItems := Tab.put x.wqItems (x.wqProd % 64) i, wqProd := x.wqProd + 1 }) s

/-- The items that wait for the bound context are posted while the ring has room (13 R351); none past the effective end of
its slot (R354). -/
def postWaiting (n : Nat) (s : State) : State :=
  let x := cluster s n
  match x.ctx with
  | none => s
  | some c =>
    let key := n * 64 + c
    let items := Tab.getD s.sched.waiting key []
    if x.moving.isSome || (ctxOf s c).pastEnd || items.isEmpty then s else
    let room := 64 - (x.wqProd - x.wqCons)
    let s := (items.take room).foldl (fun s i => pushItem n i s)
      { s with sched := { s.sched with waiting := Tab.put s.sched.waiting key (items.drop room) } }
    takeItem n (claimFor n s)

/-! ### Saving (13 R347, R348, R354) -/

/-- The cluster waits on a remote chip (03 R84). -/
def remoteWait (x : Cluster) : Bool :=
  let far (k : Nat) : Bool := (Tab.find x.chans k).elim false (fun c => remotePeer c.entry.peer)
  match x.wait with
  | .channel _ k _ _ _ => far k
  | .implicit k => far k
  | _ => false

/-- FRAME_TB of the forme in force (13 R342). -/
def frameTb (s : State) : Nat := s.forme.committed.elim 0 (fun c => c.imposition.frameTb.toNat)

/-- The overrun of a cluster switched at a slot end of tick `t`: the largest of a slot end is the debt it adds, up to the cap (13
R354), and the requests of the work item complete with OVERRUN (R355), with an event of their colophons (14 R379). -/
def addOverrun (n c t : Nat) (s : State) : State :=
  let o := s.tb - t
  if o = 0 then s else
  let cap := frameTb s
  let s := ctxUpd c (fun x =>
    let before := if x.overrunAt = t then x.overrunMax else 0
    let d := x.debt + (o - before)
    { x with
      overrunMax := max o before, overrunAt := t, debt := min d cap, debtDrop := satAdd x.debtDrop (d - cap)
      overruns := if before = 0 then satInc x.overruns else x.overruns }) s
  match (cluster s n).item with
  | none => s
  | some i => i.rows.foldl (fun s r => recUpd r.req (fun v => { v with
      overran := true
      events := v.events ++ [{ type := 6, arg := 0, layer := i.layer, segment := i.segment, stage := v.stage, pos := v.commitLen
                               count := 0, data := [BitVec.ofNat 32 o, BitVec.ofNat 32 (o / 2 ^ 32), 0, 0] }] }) s) s

/-- A save begins at the switch point: the overrun is measured, and the channels with a pending expected tag are entered in
the divert table (13 R348). -/
def saveStart (n c : Nat) (s : State) : State :=
  let x := cluster s n
  let s := match x.switchAt with
    | some t => addOverrun n c t s
    | none => s
  let s := if remoteWait x && x.switchAt.isNone then ctxUpd c (fun v => { v with parks := satInc v.parks }) s else s
  let entries := if x.item.isNone then [] else
    (x.chans.filter (fun k => !k.2.entry.send && k.2.entry.tagCheck && remotePeer k.2.entry.peer)).map
      (fun k => (k.1, c, BitVec.ofNat 16 (expectedTag x k.2)))
  clusterUpd n (fun x => { x with
    moving := some (true, c), state := 4, switchAt := none, divert := x.divert ++ entries }) s

/-- What a save writes (13 R347); between two work items only the pointer state (R346). A stream is kept by the number of its next
chunk. -/
def savedOf (s : State) (c : Nat) (x : Cluster) : Saved :=
  let full := fullSave s c && x.item.isSome
  { pc := x.pc, aregs := x.aregs, loops := x.loops, item := x.item, itemBeats := x.itemBeats, sat := x.sat
    dig := x.dig, digSeq := x.digSeq, fallbacks := x.fallbacks
    mailbox := Mem.clear x.mailbox 0 0x1000, wait := x.wait, rx := x.chans.filter (fun k => !k.2.entry.send)
    full := full, case_ := if full then x.case_ else [], caseWritten := if full then x.caseWritten else []
    caseKept := if full then x.caseKept else [], acc := if full then x.acc else [], chain := full && x.chain
    live := if full then x.live else []
    streams := if full then x.streams.map (fun e => (e.1, { e.2 with asked := e.2.next * chunkLines e.2 })) else [], parked := remoteWait x }

/-- The context's items that were posted and not taken wait again with firmware (13 R351). -/
def takeBack (n c : Nat) (x : Cluster) (s : State) : State :=
  let left := (List.range (x.wqProd - x.wqCons)).filterMap (fun i => Tab.find x.wqItems ((x.wqCons + i) % 64))
  if left.isEmpty then s else
  { s with sched := { s.sched with waiting := Tab.upd s.sched.waiting (n * 64 + c) [] (fun l => left ++ l) } }

/-- The restore of context `c` begins (13 R347). -/
def restoreStart (n c : Nat) (s : State) : State :=
  clusterUpd n (fun x => { x with ctx := some c, moving := some (false, c), state := 4, switchAt := none }) s

/-- The save is complete: the cluster is unbound. A work item whose output is not delivered is not kept (13 R356). -/
def saveEnd (n c : Nat) (s : State) : State :=
  let x := cluster s n
  let drop := x.ended.isSome && x.item.isSome
  let v := savedOf s c x
  let s := takeBack n c x s
  let s := if drop then s else { s with sched := { s.sched with saves := Tab.put s.sched.saves (n * 64 + c) v } }
  clusterUpd n (fun x => { x with
    ctx := none, moving := none, item := none, wait := .none, state := 1, wqItems := [], wqProd := x.wqCons, ended := none
    chain := false, live := [], streams := [], aregs := [], loops := [], caseWritten := [], caseKept := []
    done := x.ended.elim x.done (fun e => endsWith (codeOf e) x) }) s

/-- Bind the cluster by R351 and R354 where it is at a switch point; `reach`: it has just reached this point, which is when
a remote wait parks (R353). No binding changes while the device is fenced (R356). -/
def rebind (n : Nat) (reach : Bool) (s : State) : State :=
  if fenced s || !atSwitch s n then s else
  let x := cluster s n
  match x.ctx with
  | none =>
    match choice s n with
    | some c => restoreStart n c s
    | none => s
  | some old =>
    if x.switchAt.isSome then saveStart n old s
    else match curSlot s, choice s n with
      | some sl, some c =>
        if sl.kind = 1 && c ≠ old && (!remoteWait x || (reach && s.sched.parkWaits)) then saveStart n old s else s
      | _, _ => s

/-- Every cluster's binding. -/
def rebindAll (s : State) : State :=
  (s.clusters.map (fun e => e.1)).foldl (fun s n => rebind n false s) s

/-! ### Restoring (13 R347 to R349) -/

/-- Every armed stream of the full-save context `c` on cluster `n` has its outstanding lines (13 R347). -/
def streamsQuiet (s : State) (n c : Nat) : Bool :=
  !fullSave s c || (cluster s n).item.isNone || !(cluster s n).streams.any (fun e => chunkOut e.2)

/-- The cluster as the save left it, or as a commit starts it for a context never saved here (log entry 74). -/
def loadSaved (v : Option Saved) (entry : Nat) (x : Cluster) : Cluster :=
  let queue := x.mailbox.filter (fun e => decide (e.1 < 0x1000))
  match v with
  | none => { x with
      pc := entry, aregs := [], loops := [], item := none, itemBeats := 0, sat := [], dig := [], digSeq := 0, fallbacks := []
      mailbox := queue, wait := .none
      caseWritten := [], caseKept := [], chain := false, live := [], streams := []
      chans := x.chans.map (fun k => if k.2.entry.send then k
        else (k.1, { k.2 with queue := [], slot := 0, ahead := [], order := 0 })) }
  | some v => { x with
      pc := v.pc, aregs := v.aregs, loops := v.loops, item := v.item, itemBeats := v.itemBeats, sat := v.sat
      dig := v.dig, digSeq := v.digSeq, fallbacks := v.fallbacks, mailbox := Mem.over queue v.mailbox, wait := v.wait
      caseWritten := v.caseWritten, caseKept := v.caseKept, case_ := if v.full then v.case_ else x.case_
      acc := if v.full then v.acc else x.acc, chain := v.chain, live := v.live, streams := v.streams
      chans := x.chans.map (fun k => match Tab.find v.rx k.1 with
        | some r => (k.1, { k.2 with queue := r.queue, slot := r.slot, ahead := r.ahead, order := r.order })
        | none => k) }

/-- The completion ring's messages are placed, in order, before any later one (13 R348). -/
def placeRing (n c : Nat) (s : State) : State :=
  let ring := Tab.getD s.sched.rings c []
  let s := { s with sched := { s.sched with rings := Tab.put s.sched.rings c (ring.filter (fun e => e.1 != n)) } }
  let s := clusterUpd n (fun x => { x with divert := x.divert.filter (fun d => d.2.1 != c) }) s
  (ring.filter (fun e => e.1 == n)).foldl (fun s e => placeMsg n e.2.1 e.2.2 s) s

/-- The state of a compositor that waits for `w`. -/
def waitState (w : Wait) : BitVec 4 :=
  match w with
  | .none => 2
  | .workItem => 1
  | _ => 3

/-- A WAITCH whose time is up: its register reads 0 (03 WAITCH). -/
def waitTimeout (n : Nat) (s : State) : State :=
  match (cluster s n).wait with
  | .channel a _ _ _ (some t) =>
    if decide (t ≤ s.tb) then clusterUpd n (fun x => { setAreg a.toNat 0 x with wait := .none, state := 2 }) s else s
  | _ => s

/-- The restore is complete: the cluster continues at the saved index. A slot that does not name the context switches it at
once, with overrun 0 (13 R356). -/
def restoreEnd (n c : Nat) (s : State) : State :=
  let key := n * 64 + c
  let v := Tab.find s.sched.saves key
  let away := s.sched.releasedAway.contains key
  let s := clusterUpd n (fun x => grantLines 512 (loadSaved v x.entry { x with moving := none })) s
  let s := { s with sched := { s.sched with
    saves := Tab.del s.sched.saves key, releasedAway := s.sched.releasedAway.filter (fun k => k != key) } }
  let s := clusterUpd n (fun x => { x with wait := if away then .none else x.wait }) s
  let s := clusterUpd n (fun x => { x with state := if x.wait = .none && x.item.isNone then 1 else waitState x.wait }) s
  let s := waitTimeout n (wakeWait n (placeRing n c s))
  let s := postWaiting n (takeItem n s)
  let named := match partOfRegion s (n / 16) with
    | some p => (slotCtxs s p).contains c && !(ctxOf s c).pastEnd
    | none => false
  rebind n false (if named then s else clusterUpd n (fun x => { x with switchAt := some s.tb }) s)

/-! ### Channel delivery (03 R83 to R87, 13 R348) -/

/-- A message in order: diverted to the completion ring of the context its tag belongs to (13 R348), or placed. -/
def divertOrPlace (n ch : Nat) (m : List Byte) (s : State) : State :=
  match channel s n ch with
  | none => s
  | some k =>
    match (if k.entry.tagCheck && remotePeer k.entry.peer then
        (cluster s n).divert.find? (fun d => d.1 == ch && d.2.2.toNat == msgTag m) else none) with
    | some d => rebind n false { s with sched := { s.sched with
        rings := Tab.upd s.sched.rings d.2.1 [] (fun r => r ++ [(n, ch, m)]) } }
    | none => rebind n false (placeMsg n ch m s)

/-- Messages that arrived ahead follow once their slot is next (11 R311). -/
def drainAhead (n ch : Nat) : Nat → State → State
  | 0, s => s
  | fuel + 1, s =>
    match channel s n ch with
    | none => s
    | some k =>
      match Tab.find k.ahead k.order with
      | none => s
      | some m =>
        drainAhead n ch fuel (divertOrPlace n ch m (channelUpd n ch (fun k => { k with
          ahead := Tab.del k.ahead k.order, order := if k.entry.slots = 0 then 0 else (k.order + 1) % k.entry.slots }) s))

/-- A message reaches a receive channel; `at_` is its slot index on a POD channel. -/
def chanDeliver (n ch : Nat) (at_ : Option Nat) (m : List Byte) (s : State) : State :=
  match at_ with
  | none => divertOrPlace n ch m s
  | some i => drainAhead n ch 65 (channelUpd n ch (fun k => { k with ahead := Tab.put k.ahead i m }) s)

/-- A channel whose transport fails terminally breaks (03 R87). -/
def breakChannels (sel : ChanPeer → Bool) (c : Status) (s : State) : State :=
  (s.clusters.map (fun e => e.1)).foldl (fun s n =>
    if (cluster s n).chans.any (fun k => sel k.2.entry.peer && k.2.broken.isNone) then
      rebind n false <| wakeWait n (clusterUpd n (fun x => { x with chans := x.chans.map (fun k =>
        (k.1, if sel k.2.entry.peer && k.2.broken.isNone then { k.2 with broken := some c } else k.2)) }) s)
    else s) s

/-- The channel's peer is a device of slot `d` of this tray, or the device itself on a POD channel. -/
def peerIs (s : State) (dev : Nat) (p : ChanPeer) : Bool :=
  match p with
  | .local_ _ _ => false
  | .tray slot _ _ => decide ((devOfSlot s slot.toNat).toNat = dev)
  | .pod _ d _ _ => decide (d.toNat = dev)

/-- A channel as its table entry starts it (03 R83). -/
def freshChan (e : ChanEntry) : Chan :=
  { entry := e, credits := if e.send then e.slots else 0, queue := [], slot := 0, broken := none, ahead := [], order := 0 }

/-- Re-arm a channel: credits return to SLOTS, undelivered messages are discarded, and its credit counts restart
(03 R87, 10 R272). -/
def rearmChan (n ch : Nat) (s : State) : State :=
  channelUpd n ch (fun k => freshChan k.entry) { s with near := { s.near with
    returned := Tab.del s.near.returned (n * 32 + ch), received := Tab.del s.near.received (n * 32 + ch) } }

/-- One credit comes back to a send channel (03 R83). -/
def creditBack (n ch count : Nat) (s : State) : State :=
  rebind n false (wakeWait n (channelUpd n ch (fun k => { k with credits := k.credits + count }) s))

end Sys2Proof.Machine
end

