-- ==== Sys2Proof/Machine/Memory.lean ====
section
/-!
DEFINITION. Reads and writes of T1 and the store slices through what covers them: cache-mode slices (02 R50, 07 R174),
explicit slices (07 R177), and the effects of a read that fails (07 R184, R189, R177; 06 R164).
-/

namespace Sys2Proof.Machine

/-- Bytes of one store slice (07 R174). -/
def sliceBytes : Nat := 2 ^ 27

/-- A region's slice is in cache mode (02 R49). -/
def cacheMode (s : State) (r : Nat) : Bool :=
  match regionCfg s r with
  | some c => c.mode == 1
  | none => false

/-- First byte of a slice's plate area: its top PLATE_MIB (07, *Store die slices*). -/
def plateStart (s : State) (r : Nat) : Nat :=
  match regionCfg s r with
  | some c => sliceBytes - c.plateMib.toNat * 2 ^ 20
  | none => sliceBytes

/-! ### Slices -/

/-- The device address behind an offset of a cache-mode slice: the offset within the backing range (07 R174). -/
def backedAddr (s : State) (r off : Nat) : Nat :=
  (regionCfg s r).elim 0 (fun c => partAddr s c.partition.toNat + c.backingBase.toNat + off)

/-- One byte of a slice. Scratch that nothing has written since the forme commit is undefined (07, *Store die slices*);
a cache-mode slice serves its backing range, whatever lines it holds (07 R173, R174; log entry 53). -/
def sliceByte (s : State) (r off : Nat) : Byte :=
  if cacheMode s r then Mem.byte s.tier.t1 (backedAddr s r off)
  else
    match Tab.find s.tier.sliceUndef r with
    | some k =>
      if (Tab.getD s.tier.sliceKept r []).any (fun x => decide (x.1 ≤ off) && decide (off < x.2)) then
        Mem.byte s.tier.slices (r * 2 ^ 27 + off)
      else Config.freeByte (freeKey k (r * 2 ^ 27 + off))
    | none => Mem.byte s.tier.slices (r * 2 ^ 27 + off)

/-- `n` bytes of a slice. -/
def sliceLoad (s : State) (r off n : Nat) : List Byte := (List.range n).map (fun i => sliceByte s r (off + i))

/-- The lines of region `r`, by region × 2^18 + line, that `n` bytes from offset `off` touch. -/
def sliceLines (r off n : Nat) : List Nat := (granules off n).map (fun l => r * 2 ^ 18 + l)

/-- Write bytes of an explicit slice; a lost line that is written whole holds data again (07 R177). -/
def sliceStore (r off : Nat) (bs : List Byte) (s : State) : State :=
  let kept := Tab.getD s.tier.sliceKept r []
  let inside := kept.any (fun x => decide (x.1 ≤ off) && decide (off + bs.length ≤ x.2))
  let whole (l : Nat) : Bool := decide (off ≤ l % 2 ^ 18 * 512) && decide (l % 2 ^ 18 * 512 + 512 ≤ off + bs.length)
  { s with tier := { s.tier with
      slices := Mem.store s.tier.slices (r * 2 ^ 27 + off) bs
      lostLines := s.tier.lostLines.filter (fun l => !((sliceLines r off bs.length).contains l && whole l))
      sliceKept := if inside || bs.isEmpty then s.tier.sliceKept
        else Tab.put s.tier.sliceKept r ((off, off + bs.length) :: kept) } }

/-! ### T1 behind cache-mode slices (02 R50, 07 R174) -/

/-- A store into a read-only backing range of partition `p`, wholly or in part (02 R50). -/
def readOnly (s : State) (p off n : Nat) : Bool :=
  (regionsOf s p).any (fun r =>
    match regionCfg s r with
    | some c => c.mode == 1 && c.policy == 1 && decide (off < c.backingBase.toNat + c.backingLen.toNat)
        && decide (c.backingBase.toNat < off + n)
    | none => false)

/-- Whether a granule access reaches LPDDR6 behind a slice is not specified: it counts 0 or 1 (log entry 54). -/
def countCached (gs : List Nat) (s : State) : State :=
  gs.foldl (fun s g => bumpFree (lpcUpd (chanOf s (g / 128)) (fun l =>
    { l with rd := l.rd + BitVec.ofNat 32 ((Config.freeWord s.free).toNat % 2) }) s)) s

/-- Read `n` bytes at offset `off` of partition `p`'s T1 space: the bytes, and the state with the reads counted. -/
def partLoad (p off n : Nat) (s : State) : List Byte × State :=
  let a := partAddr s p + off
  let gs := granules a n
  let out := gs.filter (fun g => (Tab.find s.tier.written (g / 128)).isSome)
  (t1Bytes s a n, countCached (out.filter (fun g => (backingRegion s g).isSome))
    (countGranules false (out.filter (fun g => (backingRegion s g).isNone)) s))

/-- Write bytes at offset `off` of partition `p`'s T1 space (02 R50, 07 R185). -/
def partStore (p off : Nat) (bs : List Byte) (s : State) : State := t1Write (partAddr s p + off) bs s

/-- Dirty lines of the regions `rs` are written to LPDDR6 (02 R50). -/
def writeBack (rs : List Nat) (s : State) : State :=
  let s := rs.foldl (fun s r => (Tab.getD s.tier.dirty r []).foldl (fun s g => granuleWrite false g s) s) s
  { s with tier := { s.tier with dirty := s.tier.dirty.filter (fun e => !rs.contains e.1) } }

/-! ### Failed reads -/

/-- A granule's data is lost: no later read delivers it (07 R191). -/
def markLost (g : Nat) (s : State) : State :=
  if s.tier.lost.contains g then s else { s with tier := { s.tier with lost := s.tier.lost ++ [g] } }

/-- A T1 granule fails R184: it is counted, its data is lost and its whole frame is retired (07 R189). -/
def granuleLost (mac : Bool) (addr : Nat) (s : State) : State :=
  retireFrame (addr / 65536) (markLost (addr / 512) (granuleFail mac addr s))

/-- The bytes of its slice that a region's share of a T0 plate takes, as offsets of its first byte and of the byte after its
last (02 R53). -/
def plateShare (s : State) (r : Nat) (x : PlateRef) : Nat × Nat :=
  let n := ((List.range 8).filter (fun i => x.regionMask.toNat.testBit i)).length
  let lo := plateStart s r + x.dest.toNat
  (lo, lo + (if n = 0 then 0 else cdiv x.plainLen.toNat n))

/-- The resident T0 plates with a share in region `r` (02 R53). -/
def slicePlates (s : State) (r : Nat) : List PlateRef :=
  s.forme.resident.filter (fun x => x.place.toNat % 16 == 0 && x.regionMask.toNat.testBit r)

/-- The plate whose share covers offset `off` of region `r`'s plate area (02 R53). -/
def plateInSlice (s : State) (r off : Nat) : Option PlateRef :=
  (slicePlates s r).find? (fun x => decide ((plateShare s r x).1 ≤ off) && decide (off < (plateShare s r x).2))

/-- An uncorrectable error in a slice line (07 R177): whether the access still completes, and the state. In cache mode
`off` is the line's offset within the backing range. -/
def sliceLineFail (r off : Nat) (s : State) : Bool × State :=
  match regionCfg s r with
  | none => (false, s)
  | some c =>
    if c.mode == 1 then
      match partOfRegion s r with
      | none => (false, s)
      | some p =>
        let g := (partAddr s p + c.backingBase.toNat + off) / 512
        if (Tab.getD s.tier.dirty r []).contains g then
          (false, retireFrame (g / 128) (markLost g { s with tier := { s.tier with
            dirty := Tab.put s.tier.dirty r ((Tab.getD s.tier.dirty r []).filter (fun x => x != g)) } }))
        else (true, { s with tier := { s.tier with
          waysOff := Tab.upd s.tier.waysOff (r * 16384 + off / 512 % 16384) 0 (fun n => n + 1) } })
    else if plateStart s r ≤ off then
      (false, match plateInSlice s r off with
        | some x => plateLost x s
        | none => s)
    else
      let line := r * 2 ^ 18 + off / 512
      let s := { s with tier := { s.tier with
        badLines := if s.tier.badLines.contains line then s.tier.badLines else s.tier.badLines ++ [line]
        lostLines := if s.tier.lostLines.contains line then s.tier.lostLines else s.tier.lostLines ++ [line] } }
      (false, addRepair { kind := 0x03, source := 0x03, unit := BitVec.ofNat 16 r, bit := 0xFFFF,
                          addr := BitVec.ofNat 64 (off / 512 * 512) } s)

/-- Where bytes lie that this device reads. -/
inductive Place where
  /-- T1, at a device address. -/
  | t1 (addr : Nat)
  /-- a region's slice, at an offset. -/
  | slice (r off : Nat)
  /-- a memory of a cluster, or another device. -/
  | other
deriving DecidableEq, Repr, Inhabited

/-- The place of a slug that fails R163 decides what follows (06 R164). -/
def slugLost (crc : Bool) (pl : Place) (s : State) : State :=
  let s := slugFailure crc s
  match pl with
  | .other => s
  | .slice r off =>
    (match plateInSlice s r off with
     | some x => plateLost x s
     | none => s)
  | .t1 addr =>
    match pageInFrame s (addr / 65536) with
    | some _ => retireFrame (addr / 65536) s
    | none =>
      match s.forme.resident.find? (fun r => r.place.toNat % 16 == 1 && decide (plateAddr r.dest.toNat ≤ addr)
          && decide (addr < plateAddr r.dest.toNat + r.plainLen.toNat)) with
      | some r => plateLost r s
      | none => s

/-- The frame's written bit is set, or a dirty line of a slice over it was lost: a read of another frame touches no LPDDR6 and never
fails (07 R177, R186). -/
def frameWritten (s : State) (addr : Nat) : Bool :=
  (Tab.find s.tier.written (addr / 65536)).isSome || s.tier.lost.contains (addr / 512)

/-- What the reads of a command showed: whether it gets its data, and the state (07 R184, R186, R191). -/
def readOutcome (o : ReadOutcome) (s : State) : Bool × State :=
  match o with
  | .good => (true, s)
  | .corrected ch => (true, lpcUpd ch (fun l => { l with ce := satInc l.ce }) s)
  | .uncorrectable a => if frameWritten s a then (false, granuleLost false a s) else (true, s)
  | .macFail a => if frameWritten s a then (false, granuleLost true a s) else (true, s)
  | .sliceLine r off => sliceLineFail r.toNat off s
  | .slug crc a => (false, slugLost crc (.t1 a) s)
  | .clusterEcc _ => (true, s)

/-- The frame that a failed read names. -/
def readFrame (o : ReadOutcome) : Option Nat :=
  match o with
  | .uncorrectable a => some (a / 65536)
  | .macFail a => some (a / 65536)
  | .slug _ a => some (a / 65536)
  | _ => none

/-- What a read of frame `f` met, of what the reads of a command met. -/
def frameOutcome (f : Nat) (o : ReadOutcome) : ReadOutcome := if readFrame o = some f then o else .good

/-- The outcome of reading `n` bytes at a place: lost data fails its check again, whatever the read met (07 R191). -/
def seenOutcome (s : State) (pl : Place) (n : Nat) (o : ReadOutcome) : ReadOutcome :=
  match pl with
  | .t1 a =>
    (match (granules a n).find? (fun g => s.tier.lost.contains g) with
     | some g => .uncorrectable (512 * g)
     | none => o)
  | .slice r off =>
    if cacheMode s r then
      (match (granules (backedAddr s r off) n).find? (fun g => s.tier.lost.contains g) with
       | some g => .uncorrectable (512 * g)
       | none => o)
    else
      (match (sliceLines r off n).find? (fun l => s.tier.lostLines.contains l) with
       | some l => .sliceLine (BitVec.ofNat 3 r) (l % 2 ^ 18 * 512)
       | none => o)
  | .other => o

end Sys2Proof.Machine
end

