-- ==== Sys2Proof/Machine/RmaOps.lean ====
section
/-!
DEFINITION. The remote-access engine's shared operations (11): queue pairs and their work requests, cutting into messages
and sending (R298 to R303, R311), completion and flush (R299, R316), region checks (R295, R310 step 7) and faults (R313).
-/

namespace Sys2Proof.Machine

/-! ### Queue pairs -/

/-- A queue pair. -/
def qpOf (s : State) (n : Nat) : Option Qp := Tab.find s.rma.qps n

/-- Change a queue pair. -/
def qpUpd (n : Nat) (f : Qp → Qp) (s : State) : State :=
  { s with rma := { s.rma with qps := Tab.mod s.rma.qps n f } }

/-- A queue pair with empty rings. -/
def newQp (ctx : FnId) (pd : Nat) (addr : DWord) (b : RingBlock) (tb : Nat) : Qp :=
  { ctx := ctx, pd := pd, ready := true, resident := true, evictions := 0, used := tb, fetching := false
    blockAddr := addr, block := b, sendProd := 0, sendCons := 0, recvProd := 0, recvCons := 0, cqProd := 0, wrs := [] }

/-- A ring block of zeros, for queue pairs that have no rings in host memory. -/
def noBlock : RingBlock :=
  { sendBase := 0, recvBase := 0, cqBase := 0, sendLog := 0, recvLog := 0, cqLog := 0, vector := 0, sendProd := 0
    recvProd := 0, cqCons := 0, resv := 0 }

/-- The phase bit of a queue pair's next completion (11 R299, under the ring rules of 16). -/
def cqPhase (x : Qp) : Bool := phaseAt x.cqProd.toNat (2 ^ x.block.cqLog.toNat)

/-- A completion in a host-visible queue pair's CQ, with its vector (11 R299, 16 R430). Device-owned queue pairs have no
CQ. The ring has room: the device reads CQ_CONS before it writes into a CQ that it finds full (16 R427; log entry 55). -/
def qpCompletion (q : Nat) (wrId : DWord) (c : Status) (opcode : Byte) (len : Nat) (src : DevId) (v : DWord) (s : State) :
    State :=
  match qpOf s q with
  | none => s
  | some x =>
    if qpKind q = 1 then s
    else msix x.ctx x.block.vector.toNat
      (emit (.qpCompletion (BitVec.ofNat 20 q) (BitVec.ofNat 20 q) wrId c opcode len src v (cqPhase x))
        (qpUpd q (fun x => { x with cqProd := x.cqProd + 1 }) s))

/-- Post the completions of the WRs at the head of a queue pair that are done, in posting order (11 R299). -/
def flushDone (q : Nat) : Nat → State → State
  | 0, s => s
  | fuel + 1, s =>
    match qpOf s q with
    | none => s
    | some x =>
      match x.wrs with
      | [] => s
      | w :: rest =>
        match w.done with
        | none => s
        | some c =>
          let s := qpUpd q (fun x => { x with wrs := rest }) s
          let silent := w.wr.flags.toNat.testBit 1 && c == .ok
          let len := if w.wr.opcode = 0x02 && c == .ok then w.wr.len.toNat else 0
          flushDone q fuel (if silent then s else qpCompletion q w.wr.wrId c w.wr.opcode len 0 w.value s)

/-- Post what is done. -/
def qpFlush (q : Nat) (s : State) : State :=
  match qpOf s q with
  | none => s
  | some x => flushDone q x.wrs.length s

/-- Change the WRs of a queue pair by their position. -/
def wrUpd (q i : Nat) (f : WrState → WrState) (s : State) : State :=
  qpUpd q (fun x => { x with wrs := x.wrs.modify i f }) s

/-- WR `i` of a queue pair is complete. -/
def wrDone (q i : Nat) (c : Status) (v : DWord) (s : State) : State :=
  wrUpd q i (fun w => { w with done := some (w.done.getD c), value := v, todo := [], inflight := [], backoff := [], heldPage := none }) s

/-- The WRs that wait in a queue pair's send ring, not yet taken, complete with a code (11 R316, R319). Their WR_ID and OPCODE stand in
host memory, which the step does not read: free values (log entry 207). -/
def ringEnds (q : Nat) (c : Status) (s : State) : State :=
  match qpOf s q with
  | none => s
  | some x =>
    (List.range (x.sendProd - x.sendCons).toNat).foldl (fun s _ =>
      bumpFree (qpCompletion q (Config.freeDWord s.free) c (BitVec.ofNat 8 (Config.freeWord s.free).toNat) 0 0 0 s))
      (qpUpd q (fun x => { x with sendCons := x.sendProd }) s)

/-- A queue pair enters ERROR: WR `i` completes with `c`, every other, queued or in flight, with QP_ERROR, posted receive buffers with
QP_ERROR; channels over it break (11 R316, R320). -/
def qpError (q : Nat) (i : Option Nat) (c : Status) (s : State) : State :=
  match qpOf s q with
  | none => s
  | some x =>
    if !x.ready then s else
    let s := match i with
      | some i => wrDone q i c 0 s
      | none => s
    let s := qpUpd q (fun x => { x with
      ready := false, recvCons := x.recvProd
      wrs := x.wrs.map (fun w => { w with done := some (w.done.getD .qpError), todo := [], inflight := [], backoff := [], heldPage := none }) }) s
    let s := ringEnds q .qpError (qpFlush q s)
    let posted := (x.recvProd - x.recvCons).toNat
    let s := (List.range posted).foldl (fun s _ => qpCompletion q 0 .qpError 0x10 0 0 0 s) s
    let s := { s with rma := { s.rma with
      qpErr := satInc s.rma.qpErr, out := s.rma.out.filter (fun m => m.hdr.srcQp.toNat != q || m.fw.isSome || m.hdr.type == 3) } }
    let s := noteErr 9 0 0x060 s
    breakChannels (fun p => match p with
      | .pod n _ _ _ => decide (n.toNat = q)
      | _ => false) .qpError s

/-! ### Cutting and sending (11, *Messages*) -/

/-- The pieces of a byte range cut at every `n`-byte boundary of `base + offset`, of at most `most` bytes each. -/
def cutAt (n most base len : Nat) : Nat → Nat → List (Nat × Nat)
  | 0, _ => []
  | fuel + 1, off =>
    if len ≤ off then [] else
    let room := n - (base + off) % n
    let k := min most (min room (len - off))
    (off, k) :: cutAt n most base len fuel (off + k)

/-- Operand bytes of an ATOMIC by its OP (10 R279): the width, and whether it is CAS. -/
def atomicWidth (op : Byte) : Nat := if field op.toNat 6 4 ∈ [2, 3] then 8 else 4

/-- Payload bytes that a message of queue pair `q` carries at most: LEN counts the pod-key tag of a device-owned one (11 R301, 15
R401; log entry 208). -/
def mostBytes (q : Nat) : Nat := 4096 - podTag q 1

/-- The pieces of a work request of queue pair `q`. -/
def wrPieces (q : Nat) (w : WorkReq) : List Piece :=
  let n := w.len.toNat
  ((if w.opcode = 0x01 then cutAt 4096 (mostBytes q) w.remoteOff.toNat n (2 * (n / 4096) + 4) 0
    else if w.opcode = 0x02 then cutAt 65536 65536 0 n (n / 65536 + 2) 0
    else [(0, n)]).map (fun p => { off := p.1, len := p.2, id := 0, first := none, at_ := 0 }))

/-- The message of one piece, with its payload (11 R301). Bit 3 of FLAGS marks a channel SEND of the firmware, whose slot
index stands in REMOTE_OFF (R320). -/
def pieceMsg (q : Nat) (w : WrState) (off len : Nat) (last : Bool) : PodHdr × List Byte :=
  let h := { podHdr0 with
    dst := w.wr.dstDev, srcQp := BitVec.ofNat 32 q, dstQp := w.wr.dstQp }
  if w.wr.opcode = 0x01 then
    ({ h with type := 0x01, flags := if last then 1 else 0, rkey := w.wr.rkey, offset := w.wr.remoteOff + BitVec.ofNat 64 off },
      (w.data.drop off).take len)
  else if w.wr.opcode = 0x02 then
    ({ h with type := 0x02, rkey := w.wr.rkey, offset := w.wr.remoteOff + BitVec.ofNat 64 off, rlen := BitVec.ofNat 32 len }, [])
  else if w.wr.opcode = 0x03 then
    let n := atomicWidth w.wr.op
    ({ h with type := 0x04, op := w.wr.op, rkey := w.wr.rkey, offset := w.wr.remoteOff },
      leBytes n w.wr.operand.toNat ++ (if field w.wr.op.toNat 3 0 = 4 then leBytes n w.wr.operand2.toNat else []))
  else
    let chan := w.wr.flags.toNat.testBit 3
    ({ h with type := 0x05, flags := if chan then 8 else 0, offset := if chan then w.wr.remoteOff else 0 }, w.data)

/-- The next piece that may be sent: position of its WR, the piece, LAST. FENCE waits for every earlier WR; the LAST
message of a WRITE waits for the others' acknowledgements (11 R298, R311). -/
def nextPiece : List WrState → Nat → Bool → Option (Nat × Piece × Bool)
  | [], _, _ => none
  | w :: rest, i, clear =>
    if w.done.isSome then nextPiece rest (i + 1) clear
    else if w.wr.flags.toNat.testBit 0 && !clear then none
    else
      match (if w.heldPage.isSome then [] else w.todo) with
      | [] => nextPiece rest (i + 1) false
      | p :: more =>
        let last := w.wr.opcode == 0x01 && more.isEmpty && w.backoff.isEmpty
        if w.wr.opcode == 0x01 && more.isEmpty && (!w.backoff.isEmpty || !w.inflight.isEmpty) then nextPiece rest (i + 1) false
        else some (i, p, last)

/-- Begin a fetch of a context (11 R312). -/
def fetchStart (q : Nat) (s : State) : State :=
  match qpOf s q with
  | none => s
  | some x =>
    if x.fetching then s else
    qpUpd q (fun x => { x with fetching := true }) { s with rma := { s.rma with qpcMiss := satInc s.rma.qpcMiss } }

/-- A context may be evicted: host-owned, on chip, with no message in flight and none parked. -/
def evictable (s : State) (e : Nat × Qp) : Bool :=
  qpKind e.1 = 2 && e.2.resident && e.2.wrs.all (fun w => w.inflight.isEmpty)
    && !s.rma.out.any (fun m => m.hdr.srcQp.toNat == e.1) && !s.rma.arrival.any (fun m => m.hdr.dstQp.toNat == e.1)

/-- A half has room for a context: 4,096 are on chip at most (01 R16, 11 R312). -/
def halfRoom (s : State) (half : Nat) : Bool :=
  decide ((s.rma.qps.filter (fun e => e.2.resident && e.1 % 2 == half)).length < 4096)

/-- Make room for one more context in a half: the least recently used goes to the host area that is bound, encrypted and with its MAC
(11 R312). Where none may be evicted, no room is made. -/
def evictFor (half : Nat) (s : State) : State :=
  if halfRoom s half then s else
  match (s.rma.qps.filter (fun e => e.1 % 2 == half && evictable s e)) with
  | [] => s
  | e :: rest =>
    let v := rest.foldl (fun a b => if b.2.used < a.2.used then b else a) e
    emit (.contextWrite (s.rma.backing + BitVec.ofNat 64 (256 * v.1)) (BitVec.ofNat 20 v.1) (v.2.evictions + 1) v.2)
      (qpUpd v.1 (fun x => { x with resident := false, evictions := x.evictions + 1 }) s)

/-- A queue pair is made; its context is on chip if its half has room or a context makes room (01 R16, 11 R312; log entry 179). -/
def qpMake (n : Nat) (x : Qp) (s : State) : State :=
  let s := evictFor (n % 2) s
  { s with rma := { s.rma with qps := Tab.put s.rma.qps n { x with resident := halfRoom s (n % 2) } } }

/-- A queue pair in ERROR becomes READY with every queue empty (11 R294). -/
def qpRearm (n : Nat) (s : State) : State :=
  qpUpd n (fun y => { y with ready := true, wrs := [], sendCons := y.sendProd, recvCons := y.recvProd, fetching := false, used := s.tb }) s

/-- Firmware re-arms the queue pair of a POD channel by QP_RESET, where it is in ERROR (11 R320). -/
def rearmPeer (p : ChanPeer) (s : State) : State :=
  match p with
  | .pod n _ _ _ => if (qpOf s n.toNat).any (fun x => !x.ready) then qpRearm n.toNat s else s
  | _ => s

/-- The tenant that a host-owned queue pair's context serves (12 R333; log entry 210). -/
def qpTenant (s : State) (q : Nat) : Option (BitVec 16) :=
  if qpKind q = 2 then (qpOf s q).map (fun x => Config.ctxTenant x.ctx) else none

/-- Send every piece of a queue pair that may go, its context being on chip (11 R312). Control and device-owned traffic is TC1, host-owned
TC2 (12 R332). -/
def qpPump (q : Nat) : Nat → State → State
  | 0, s => s
  | fuel + 1, s =>
    match qpOf s q with
    | none => s
    | some x =>
      if !x.ready || !podReady s q || !inFlightRoom s then s else
      match nextPiece x.wrs 0 true with
      | none => s
      | some (i, p, last) =>
        match x.wrs[i]? with
        | none => s
        | some w =>
          if !x.resident then fetchStart q s else
          let (h, payload) := pieceMsg q w p.off p.len last
          let id := s.rma.counter
          let s := podSend h payload none (w.tenant.or (qpTenant s q)) (if qpKind q = 2 then 2 else 1) s
          qpPump q fuel (wrUpd q i (fun w => { w with todo := w.todo.drop 1, inflight := w.inflight ++ [{ p with id := id }] })
            (qpUpd q (fun x => { x with used := s.tb }) s))

/-- Send what a queue pair can send. -/
def qpSend (q : Nat) (s : State) : State :=
  match qpOf s q with
  | none => s
  | some x => qpPump q ((x.wrs.map (fun w => w.todo.length)).sum + 1) s

/-- The claim of the oldest backup step that has none goes out as message `id` (14 R385). -/
def claimSent (id : Nat) : List ShardRun → List ShardRun
  | [] => []
  | x :: rest => if x.claim.isNone then { x with claim := some (BitVec.ofNat 48 id) } :: rest else x :: claimSent id rest

/-- READ_DATA, or the claim of a backup step, goes out, or waits for room or for the pod key. -/
def dataSend (m : PodHdr × List Byte) (s : State) : State :=
  let q := m.1.srcQp.toNat
  if podReady s q && inFlightRoom s then
    let id := s.rma.counter
    let s := podSend m.1 m.2 none (qpTenant s q) (if qpKind q = 2 then 2 else 1) s
    if m.1.type = 4 then { s with repro := { s.repro with shards := claimSent id s.repro.shards } } else s
  else { s with rma := { s.rma with queued := s.rma.queued ++ [m] } }

/-- READ_DATA and claims that waited go out as far as they may. -/
def dataDrain (s : State) : State :=
  s.rma.queued.foldl (fun s m => dataSend m s) { s with rma := { s.rma with queued := [] } }

/-- Firmware messages that waited for the pod key or for room go out as far as they may (11 R303, 15 R403). -/
def fwDrain (s : State) : State :=
  s.rma.waiting.foldl (fun s m => sendPod m.1 m.2.1 m.2.2 s) { s with rma := { s.rma with waiting := [] } }

/-- A message is in flight on plane `k`, and its ACK has not arrived. -/
def farBusy (s : State) (k : Nat) : Bool := s.rma.out.any (fun m => m.plane == k && !m.acked)

/-- A far link in DRAINING with no message outstanding on it and nothing queued is DISABLED (12 R339, 10 R289). -/
def farDrained (s : State) : State :=
  (List.range 16).foldl (fun s k =>
    if (link s (15 + k)).state == 4 && !farBusy s k && (link s (15 + k)).queue.isEmpty then
      linkUpd (15 + k) (fun l => { sessionOver l with state := 5 }) s
    else s) s

/-- Everything that waits to be sent on the far links, once room or the pod key is there. -/
def rmaPump (s : State) : State :=
  let s := dataDrain (fwDrain s)
  (s.rma.qps.map (fun e => e.1)).foldl (fun s q => qpSend q s) s

/-- A work request of queue pair `q` with nothing of it sent. -/
def newWr (q : Nat) (w : WorkReq) (data : List Byte) : WrState :=
  { wr := w, data := data, todo := wrPieces q w, inflight := [], got := [], applied := false, backoff := [], done := none, value := 0, heldPage := none }

/-- Post a work request on a queue pair. One to an excluded device completes with EPOCH_STALE at once (11 R317). -/
def qpPost (q : Nat) (w : WrState) (s : State) : State :=
  match qpOf s q with
  | none => s
  | some x =>
    let w := if excluded s (w.wr.dstDev.toNat % 4096) && w.wr.opcode.toNat < 0x80 then
        { w with done := some .epochStale, todo := [] } else w
    qpFlush q (qpSend q (qpUpd q (fun x => { x with wrs := x.wrs ++ [w], used := s.tb }) s))

/-- An empty work request. -/
def wr0 : WorkReq :=
  { opcode := 0, flags := 0, op := 0, rights := 0, dstDev := 0, wrId := 0, dstQp := 0, rkey := 0, remoteOff := 0, lkey := 0
    len := 0, localOff := 0, operand := 0, operand2 := 0, resv := 0 }

/-- A channel SEND on a device-owned queue pair, for the tenant of the cluster's work item (11 R311, R320; 12 R333). -/
def chanPost (q : Nat) (dev : DevId) (peer : QpNum) (slot : Nat) (m : List Byte) (tenant : Option (BitVec 16)) (s : State) : State :=
  let w : WorkReq := { wr0 with
    opcode := 0x04, flags := 8, dstDev := BitVec.ofNat 16 dev.toNat, dstQp := BitVec.ofNat 32 peer.toNat
    remoteOff := BitVec.ofNat 64 slot, len := BitVec.ofNat 32 m.length }
  qpPost q { newWr q w m with tenant := tenant } s

/-! ### Regions (11 R295, R296, R313) -/

/-- A region by key: its index. -/
def keyIndex (k : Word) : Nat := k.toNat % 2 ^ 18

/-- The region a key names. -/
def regionOf (s : State) (k : Word) : Option Region := Tab.find s.rma.regions (keyIndex k)

/-- Step 7 of R310 on a key: the index, the epoch, then PD, right and bounds. -/
def regionCheck (s : State) (k : Word) (pd : Nat) (right : Option Nat) (off len : Nat) : Option Status :=
  match Tab.find s.rma.regions (keyIndex k) with
  | none => some .denied
  | some r =>
    if !r.valid || field k.toNat 23 18 ≠ 0 then some .denied
    else if r.epoch.toNat ≠ field k.toNat 31 24 then some .epochStale
    else if r.pd ≠ pd || (match right with
        | some b => !r.rights.toNat.testBit b
        | none => false) || decide (r.len < off + len) then some .denied
    else none

/-- The absent pages that a range of a region touches (11 R313). -/
def absentPages (r : Region) (off len : Nat) : List Nat :=
  if r.page = 0 || len = 0 || !r.onDemand then []
  else ((List.range ((off + len - 1) / r.page - off / r.page + 1)).map (fun i => off / r.page + i)).filter
    (fun p => (Tab.find r.present p).isNone)

/-- A fault on an absent page: at most one record while it is open (11 R313, 16 R428). -/
def raiseFault (k : Word) (kind : Byte) (page : Nat) (s : State) : State :=
  if s.rma.openFaults.any (fun f => f.rkey == k && f.page == page) then s else
  match Tab.find s.rma.regions (keyIndex k) with
  | none => s
  | some r =>
    faultRecord r.ctx { rkey := k, kind := kind, page := page }
      { s with rma := { s.rma with
          openFaults := s.rma.openFaults ++ [{ rkey := k, page := page, opened := s.tb, failed := false, waiting := [] }] } }

/-- A page's fault has failed: accesses are refused with DENIED (11 R313). -/
def faultFailed (s : State) (k : Word) (page : Nat) : Bool :=
  s.rma.openFaults.any (fun f => f.rkey == k && f.page == page && f.failed)

end Sys2Proof.Machine
end

