-- ==== Sys2Proof/Machine/Channels.lean ====
section
/-!
DEFINITION. Sending on channels and returning credits (03 R83 to R86; 10 R272; 11 R320).
-/

namespace Sys2Proof.Machine

/-- A tray address: slot, aperture, offset (10 R267). -/
def trayAddr (slot ap off : Nat) : BitVec 48 := BitVec.ofNat 48 (slot * 2 ^ 44 + ap * 2 ^ 40 + off)

/-- The header of a packet that cluster `n` issues to aperture 0xB of a slot. -/
def chanHdr (s : State) (n slot cl ch : Nat) : TrayHdr :=
  { hdr0 with addr := trayAddr slot 0xB (cl * 256 + ch), srcCl := BitVec.ofNat 8 (progIndex s n)
              part := BitVec.ofNat 8 ((partOfRegion s (n / 16)).getD 0) }

/-- Send the latest CREDIT of receive channel `ch` of cluster `n` (10 R272). -/
def sendCredit (n ch : Nat) (s : State) : State :=
  match channel s n ch with
  | none => s
  | some k =>
    match k.entry.peer with
    | .tray slot cl pch =>
      let h := { chanHdr s n slot.toNat cl.toNat pch.toNat with
        type := 0x06, src := BitVec.ofNat 16 (myDev s).toNat, dst := BitVec.ofNat 16 (devOfSlot s slot.toNat).toNat
        xepoch := s.pair.epoch, len := 4 }
      let c := Tab.getD s.near.returned (n * 32 + ch) 0
      trayPacket slot.toNat (fun two => .credit { h with flags := if two then 2 else 0 } c) 0 0 none 4 s
    | _ => s

/-- Re-send the latest CREDIT of every receive channel whose peer is in slot `d` (10 R272). -/
def resendCredits (d : Nat) (s : State) : State :=
  s.clusters.foldl (fun s c => c.2.chans.foldl (fun s k =>
    match k.2.entry.peer with
    | .tray slot _ _ => if !k.2.entry.send && decide (slot.toNat = d) && k.2.broken.isNone then sendCredit c.1 k.1 s else s
    | _ => s) s) s

/-- RECV has finished reading a slot, or a mismatching message is discarded: its credit returns to the sender
(03 R83, R86; 11 R320). -/
def creditReturn (n ch : Nat) (s : State) : State :=
  match channel s n ch with
  | none => s
  | some k =>
    match k.entry.peer with
    | .local_ i pch =>
      match physOf s i.toNat with
      | some m => creditBack m pch.toNat 1 s
      | none => s
    | .tray slot _ pch =>
      if slot = mySlot s then
        (match k.entry.peer with
          | .tray _ cl _ => (match physOf s cl.toNat with
              | some m => creditBack m pch.toNat 1 s
              | none => s)
          | _ => s)
      else sendCredit n ch { s with near := { s.near with returned := Tab.upd s.near.returned (n * 32 + ch) 0 (fun c => c + 1) } }
    | .pod qp dev peer pch =>
      chanPost qp.toNat dev peer pch.toNat [1, 0, 0, 0] (itemTenant (cluster s n)) s

/-- The head message of a channel is consumed or discarded. -/
def dropHead (n ch : Nat) (s : State) : State :=
  creditReturn n ch (channelUpd n ch (fun k => { k with queue := k.queue.drop 1 }) s)

/-- Discard the mismatching messages at the head of a channel with TAG_CHECK (03 R86). -/
def discardStale (n ch : Nat) : Nat → State → State
  | 0, s => s
  | fuel + 1, s =>
    match channel s n ch with
    | none => s
    | some k =>
      match k.queue with
      | [] => s
      | m :: _ =>
        if k.entry.tagCheck && msgTag m != expectedTag (cluster s n) k then
          discardStale n ch fuel (dropHead n ch (clusterUpd n (fun c => { c with stale := satInc c.stale }) s))
        else s

/-- The number of the SLOT_BYTES messages of a SEND (03 R84). -/
def sendCount (k : Chan) (bytes : Nat) : Nat := if k.entry.slotBytes = 0 then 0 else cdiv bytes k.entry.slotBytes

/-- The messages of a SEND, the last zero-padded (03 R84). -/
def sendMessages (k : Chan) (bytes : List Byte) : List (List Byte) :=
  (chunks k.entry.slotBytes (bytes.length + 1) bytes).map (fun m => m ++ List.replicate (k.entry.slotBytes - m.length) 0)

/-- One message leaves on send channel `ch` of cluster `n`; while the device is fenced its request completes with FENCED and breaks the
channel (10 R266, R87). -/
def sendMessage (n ch : Nat) (s : State) (m : List Byte) : State :=
  match channel s n ch with
  | none => s
  | some k =>
    let s := channelUpd n ch (fun k => { k with slot := if k.entry.slots = 0 then 0 else (k.slot + 1) % k.entry.slots }) s
    match k.entry.peer with
    | .local_ i pch =>
      match physOf s i.toNat with
      | some p => chanDeliver p pch.toNat none m (xbarToCluster n p s)
      | none => s
    | .tray slot cl pch =>
      let s := xbarPass n xbarMesh s
      if slot = mySlot s then
        match physOf s cl.toNat with
        | some p => chanDeliver p pch.toNat none m s
        | none => s
      else if fenced s then channelUpd n ch (fun k => { k with broken := some .fenced }) s
      else trayIssue slot.toNat (.chmsg { chanHdr s n slot.toNat cl.toNat pch.toNat with len := BitVec.ofNat 16 m.length } m)
        (.cluster n) s
    | .pod qp dev peer _ => chanPost qp.toNat dev peer k.slot m (itemTenant (cluster s n)) (xbarPass n xbarMesh s)

end Sys2Proof.Machine
end

