-- ==== Sys2Proof/Machine/Measure.lean ====
section
/-!
DEFINITION. The measurements of the device (15 R392, *Measurements*), which attestation, sessions and links present.
-/

namespace Sys2Proof.Machine

/-- Digests in ascending order. As byte strings, a digest's first byte is its lowest (00 R4), so the order is that of the
reversed bytes. -/
def digestBefore (a b : Digest) : Bool :=
  let rec cmp : Nat → Nat → Nat → Bool
    | 0, _, _ => true
    | n + 1, x, y =>
      if x % 256 < y % 256 then true else if y % 256 < x % 256 then false else cmp n (x / 256) (y / 256)
  cmp 48 a.toNat b.toNat

/-- Insert a digest in ascending order. -/
def digestInsert (d : Digest) : List Digest → List Digest
  | [] => [d]
  | x :: rest => if digestBefore d x then d :: x :: rest else x :: digestInsert d rest

/-- SHA-384 of digests in ascending byte order. -/
def digestSet (ds : List Digest) : Digest :=
  Config.sha384 (((ds.foldr digestInsert []).map (fun d => leBytes 48 d.toNat)).flatten)

/-- Measurement `n`, 1 to 8 (15, *Measurements*). -/
def measurement (s : State) (n : Nat) : Digest :=
  match n with
  | 1 => s.sec.meas1
  | 2 => s.sec.meas2
  | 3 => s.sec.meas3
  | 4 => if s.forme.state = 0 then 0 else s.forme.digest
  | 5 => if s.forme.state = 0 then 0 else s.forme.base
  | 6 => digestSet (s.forme.resident.map (fun r => r.digest))
  | 7 => Config.sha384 ((s.sec.store.owners.map (fun k => leBytes 16 k.toNat)).flatten
      ++ leBytes 4 s.sec.store.formeSvn.toNat ++ leBytes 4 s.sec.store.fwSvn.toNat)
  | 8 => s.sec.token.getD 0
  | _ => 0

end Sys2Proof.Machine
end

