-- ==== Sys2Proof/Machine/Colophon.lean ====
section
/-!
DEFINITION. The colophon (14 R376 to R381): the stage chain, a stage's contribution, the anchor's sorting and merging of
events, and the bytes of the colophon that the anchor posts as an output record.
-/

namespace Sys2Proof.Machine

/-! ### The stage chain (14 R376) -/

/-- LD(layer, position): the layer value gathered so far, zero where no digested row contributed. -/
def layerValue (r : Rec) (l p : Nat) : BitVec 128 :=
  match (Tab.getD r.ld l []).find? (fun e => e.1 == p) with
  | some e => e.2
  | none => 0

/-- One newly committed position extends the chain; every 4,096th adds a CHECK event. -/
def chainStep (first layers : Nat) (r : Rec) (p : Nat) : Rec :=
  let c := Config.sha384 (leBytes 48 r.chain.toNat ++ leBytes 4 p
    ++ ((List.range layers).map (fun i => leBytes 16 (layerValue r (first + i) p).toNat)).flatten)
  let check : ColophonEvent :=
    { type := 4, arg := 0, layer := 0, segment := 0, stage := r.stage, pos := p + 1 - 4096, count := 4096
      data := (List.range 4).map (fun i => BitVec.ofNat 32 (c.toNat / 2 ^ (32 * i))) }
  { r with chain := c, events := if (p + 1) % 4096 = 0 then r.events ++ [check] else r.events }

/-- At a COMMIT: positions `a` to `b − 1` extend the chain in ascending order, and their layer values are folded; those of
positions that do not commit are formed anew by the step that computes them again. -/
def chainCommit (first layers a b : Nat) (r : Rec) : Rec :=
  let r := (List.range (b - a)).foldl (fun r i => chainStep first layers r (a + i)) r
  { r with ld := [] }

/-- The output of the step or chunk in flight is discarded, to be computed again: its layer values, its open re-runs and its
outcome events go with it (14 R364, 04 R118; log entry 185). -/
def stepDiscard (r : Rec) : Rec := { r with redo := false, noSpec := false, ld := [], reruns := [], stepEvents := [] }

/-- The outcome events of a step that commits up to position `n`: they cover positions that committed (14 R379; log entry
185). -/
def stepCommitted (n : Nat) (l : List ColophonEvent) : List ColophonEvent :=
  (l.map (fun e => { e with count := min e.count (n - e.pos) })).filter (fun e => e.count != 0)

/-- A re-prefill restarts the chain and discards the stage's CHECK events, and what was in flight (14 R376). -/
def chainReset (r : Rec) : Rec :=
  { stepDiscard r with chain := 0, events := r.events.filter (fun e => e.type != 4) }

/-! ### A stage's contribution (14 R377) -/

/-- The geometry identifier, held in REPRO_GEOM0 to 11: in fixed geometry byte 0 is 0x00 and byte 1 REGION_USE, in full geometry
MAP_DIGEST (14 R362); zero without a forme. -/
def geomId (s : State) : Digest :=
  match s.forme.committed with
  | none => 0
  | some c => if c.header.geometry == 1 then c.geometry.mapDigest else BitVec.ofNat 384 (c.geometry.regionUse.toNat * 256)

/-- Note the geometry identifier or the effective forme digest of a device that computed for a request (14 R362, R378). -/
def digestAdd (d : Digest) (l : List Digest) : List Digest := if l.contains d then l else l ++ [d]

/-- Note the firmware version of a device that computed for a request (14 R361). -/
def fwAdd (v : Word) (l : List Word) : List Word := if l.contains v then l else l ++ [v]

/-- FW_VERSION of a stage entry: the version of the stage's computing devices, all ones where they differ (14 R378); this
device's where none has committed. -/
def fwOf (own : Word) : List Word → Word
  | [] => own
  | [v] => v
  | _ => 0xFFFFFFFF

/-- The stage entry of this device. FORME_SET hashes the distinct effective digests of every forme of the stage that computed for the
request: those of the prompt and generation devices, which its record carries, and those of the pair's two cache devices, which
are not this device's to know and so are free values (log entry 45). GEOM_SET hashes the distinct geometry
identifiers of the prompt and generation devices that committed for the request, which its record carries. -/
def stageEntry (r : Rec) (s : State) : StageEntry × State :=
  let hd := s.forme.committed.map (fun c => c.header)
  ({ stage := r.stage, fullGeom := fullGeom s, nPrompt := hd.elim 0 (fun h => h.nPrompt), nGen := hd.elim 0 (fun h => h.nGen)
     nCache := hd.elim 0 (fun h => h.nCache), fwVersion := fwOf s.sec.fwVersion r.fws
     firstLayer := hd.elim 0 (fun h => h.firstLayer), layerCount := hd.elim 0 (fun h => h.layerCount)
     formeSet := digestSet (r.formes ++ [Config.freeDigest s.free, Config.freeDigest (s.free + 1)]), geomSet := digestSet r.geoms, chain := r.chain },
   { s with free := s.free + 2 })

/-- A stage's report to the anchor, with its events. -/
def stageReport (r : Rec) (c : Status) (s : State) : DropReport × State :=
  let (e, s) := stageEntry r s
  ({ req := r.reqId, stage := r.stage, code := c, degraded := r.degraded, overrun := r.overran, widened := r.widened
     entry := e, events := r.events }, s)

/-! ### The anchor's part (14 R378, R380) -/

/-- The sort key of R380. -/
def eventKey (e : ColophonEvent) : List Nat := [e.stage.toNat, e.pos, e.layer, e.segment, e.type.toNat, e.arg.toNat]

/-- Lexicographic order of keys. -/
def keyLe : List Nat → List Nat → Bool
  | [], _ => true
  | _ :: _, [] => false
  | a :: as, b :: bs => decide (a < b) || (a == b && keyLe as bs)

/-- Insert an event behind those of equal key. -/
def eventInsert (e : ColophonEvent) : List ColophonEvent → List ColophonEvent
  | [] => [e]
  | x :: rest => if keyLe (eventKey x) (eventKey e) then x :: eventInsert e rest else e :: x :: rest

/-- A saturating sum of two words. -/
def satSum (a b : Word) : Word := BitVec.ofNat 32 (min 0xFFFFFFFF (a.toNat + b.toNat))

/-- Two events merge (14 R380). -/
def eventsMerge (a b : ColophonEvent) : Bool :=
  a.type != 4 && a.type == b.type && a.arg == b.arg && a.stage == b.stage && a.layer == b.layer
    && a.segment == b.segment && b.pos == a.pos + a.count

/-- Merge each event into the one before it, from the front; `last` is the event in hand. -/
def mergeEvents (last : ColophonEvent) : List ColophonEvent → List ColophonEvent
  | [] => [last]
  | e :: rest =>
    if eventsMerge last e then
      mergeEvents { last with
        count := last.count + e.count
        data := if last.type = 1 then List.zipWith satSum last.data e.data else last.data } rest
    else last :: mergeEvents e rest

/-- The events of a colophon, sorted and merged. -/
def sortEvents (l : List ColophonEvent) : List ColophonEvent :=
  match l.foldl (fun acc e => eventInsert e acc) [] with
  | [] => []
  | e :: rest => mergeEvents e rest

/-- The 32 bytes of an event (14 R379). -/
def eventBytes (e : ColophonEvent) : List Byte :=
  [e.type, e.arg] ++ leBytes 2 e.layer ++ leBytes 2 e.segment ++ [e.stage, 0] ++ leBytes 4 e.pos ++ leBytes 4 e.count
    ++ ((List.range 4).map (fun i => leBytes 4 (e.data.getD i 0).toNat)).flatten

/-- The 160 bytes of a stage entry (14 R378). -/
def entryBytes (e : StageEntry) : List Byte :=
  [e.stage, BitVec.ofNat 8 (b2n e.fullGeom), e.nPrompt, e.nGen, e.nCache, 0, 0, 0] ++ leBytes 4 e.fwVersion.toNat
    ++ leBytes 2 e.firstLayer.toNat ++ leBytes 2 e.layerCount.toNat ++ leBytes 48 e.formeSet.toNat
    ++ leBytes 48 e.geomSet.toNat ++ leBytes 48 e.chain.toNat

/-- Insert a stage entry by STAGE. -/
def entryInsert (e : StageEntry) : List StageEntry → List StageEntry
  | [] => [e]
  | x :: rest => if x.stage.toNat < e.stage.toNat then x :: entryInsert e rest else if x.stage = e.stage then e :: rest else e :: x :: rest

/-- Bytes of an ASCII string of the manual. -/
def asciiBytes (t : List Nat) : List Byte := t.map (BitVec.ofNat 8)

/-- SET_DIGEST (14 R378): "DN74-SET", the input digest and bytes 0x00 to 0x6F of every stage entry. -/
def setDigest (input : Digest) (es : List StageEntry) : Digest :=
  Config.sha384 (asciiBytes [0x44, 0x4E, 0x37, 0x34, 0x2D, 0x53, 0x45, 0x54] ++ leBytes 48 input.toNat
    ++ (es.map (fun e => (entryBytes e).take 0x70)).flatten)

/-- The 256-byte colophon header (14 R378). -/
def colophonHeader (a : AnchorInfo) (r : Rec) (partial_ : Bool) (c : Status) (present lost : Nat) (s : State) : List Byte :=
  leBytes 4 0x4F434E44 ++ leBytes 2 1
    ++ leBytes 2 (b2n partial_ + 2 * b2n (decide (lost ≠ 0)) + 4 * b2n (a.entries.any (fun e => e.fullGeom)))
    ++ leBytes 8 r.reqId.toNat ++ leBytes 2 r.tenant.toNat ++ [if partial_ then 0 else codeOf c, 0]
    ++ leBytes 2 a.entries.length ++ leBytes 2 present ++ leBytes 4 lost ++ leBytes 4 s.sec.fwVersion.toNat
    ++ leBytes 2 r.anchor.toNat ++ List.replicate 6 0 ++ leBytes 4 r.commitLen ++ leBytes 4 r.promptLen
    ++ leBytes 8 r.admitTb.toNat ++ leBytes 8 s.tb ++ leBytes 48 a.input.toNat ++ leBytes 48 a.output.toNat
    ++ leBytes 48 (setDigest a.input a.entries).toNat ++ List.replicate 48 0

/-- Events that fit beside `n` stage entries (14 R378). -/
def eventRoom (n : Nat) : Nat := (65536 - 3584 - 256 - 160 * n) / 32

/-- The 3,584-byte signature block of a colophon (14 R381, layout of 02 R43): both signatures, under the colophon pair (15 R389),
of "DN74-COLOPHON" and the SHA-384 of the rest. -/
def colophonSig (s : State) (body : List Byte) : List Byte :=
  let seed := Config.hkdf Config.prk (asciiBytes [0x43, 0x4F, 0x4C, 0x4F, 0x50, 0x48, 0x4F, 0x4E] ++ leBytes 48 s.sec.meas3.toNat) 64
  let msg := asciiBytes [0x44, 0x4E, 0x37, 0x34, 0x2D, 0x43, 0x4F, 0x4C, 0x4F, 0x50, 0x48, 0x4F, 0x4E]
    ++ leBytes 48 (Config.sha384 body).toNat
  (Config.signBlock seed msg ++ List.replicate 3584 0).take 3584

/-- Post the colophon of a request: header, stage entries, events and the signature block; the record's length counts its header
and tag as well, and the whole is sealed to the session (14 R381, 15 R406). -/
def postColophon (q : ReqId) (partial_ : Bool) (c : Status) (s : State) : State :=
  match Tab.find s.req.anchors q.toNat, recFind s q with
  | some a, some r =>
    let ev := sortEvents a.events
    let n := min ev.length (eventRoom a.entries.length)
    let lost := ev.length - n
    let bytes := colophonHeader a r partial_ c n lost s ++ (a.entries.map entryBytes).flatten
      ++ ((ev.take n).map eventBytes).flatten
    let s := if lost = 0 then s else noteErr 13 0 0x03C s
    postOut a.ring a.session 0x02 (32 + bytes.length + 3584 + 16) q (.colophon (bytes ++ colophonSig s bytes))
      { s with repro := { s.repro with colophons := satInc s.repro.colophons, evLost := satAdd s.repro.evLost lost } }
  | _, _ => s

/-! ### Digests of tokens (14 R363, R378) -/

/-- P, the 64-byte generation-parameter block of a capsule body (16 R420). -/
def paramBytes (b : CapsuleBody) : List Byte :=
  leBytes 4 b.flags.toNat ++ leBytes 4 b.maxLen.toNat ++ leBytes 8 b.seed.toNat ++ leBytes 4 b.temp.toNat
    ++ leBytes 4 b.topP.toNat ++ leBytes 4 b.topK.toNat ++ leBytes 4 b.endToken.toNat ++ List.replicate 32 0

/-- The input digest of an admission before its first prefill (14 R363 step 1): "DN74-IN" and P. -/
def inputStart (p : List Byte) : Digest :=
  Config.sha384 (asciiBytes [0x44, 0x4E, 0x37, 0x34, 0x2D, 0x49, 0x4E] ++ p)

/-- One prefill extends the input digest (14 R363 step 2). -/
def inputPrefill (i : Digest) (start : Nat) (tokens : List Word) : Digest :=
  Config.sha384 (leBytes 48 i.toNat ++ leBytes 4 start ++ leBytes 4 tokens.length
    ++ (tokens.map (fun t => leBytes 4 t.toNat)).flatten)

/-- Emitted tokens extend the output digest (14 R378). -/
def outputTokens (o : Digest) (pos : Nat) (toks : List Word) : Digest :=
  ((List.range toks.length).zip toks).foldl
    (fun o x => Config.sha384 (leBytes 48 o.toNat ++ leBytes 4 (pos + x.1) ++ leBytes 4 x.2.toNat)) o

end Sys2Proof.Machine
end

