-- ==== Sys2Proof/Machine/Protect.lean ====
section
/-!
DEFINITION. How stored bytes are protected: the keys of 15 R389, the granules of T1 (07 R182, R183) and of shelved frames
(07 R195). State holds the plain content; what LPDDR6 and host memory hold is a function of it.
-/

namespace Sys2Proof.Machine

/-! ### Keys (15 R389, *Key hierarchy*) -/

/-- A label's bytes. -/
def label (t : String) : List Byte := t.toList.map (fun c => BitVec.ofNat 8 c.toNat)

/-- A nonce's 32 bytes. -/
def nonceBytes (n : Option Digest) : List Byte := leBytes 32 (n.elim 0 (fun d => d.toNat))

/-- The record key: firmware reserve, evicted contexts, pointer saves. -/
def recordKey (s : State) : List Byte := Config.hkdf Config.prk (label "RECORD" ++ nonceBytes s.sec.bootNonce) 96

/-- The data root; its debug byte tells a boot that a consumed unlock token governs. -/
def dataRoot (s : State) : List Byte := Config.hkdf Config.prk (label "DATA" ++ [BitVec.ofNat 8 (b2n s.sec.token.isSome)]) 32

/-- The base digest as a key's context. -/
def baseBytes (s : State) : List Byte := leBytes 48 s.forme.base.toNat

/-- The partition key of `p` (02 R52). -/
def partKey (s : State) (p : Nat) : List Byte := Config.hkdf (dataRoot s) (label "PART" ++ baseBytes s ++ [BitVec.ofNat 8 p]) 32

/-- The T1 keys of `p`: 64 bytes XTS, then 32 bytes GMAC (07 R182). -/
def t1Keys (s : State) (p : Nat) : List Byte := Config.hkdf (partKey s p) (label "T1" ++ nonceBytes s.sec.loadNonce) 96

/-- The shared-plate keys (07 R182, 02 R54). -/
def plateKeys (s : State) : List Byte :=
  Config.hkdf (dataRoot s) (label "PLATE" ++ baseBytes s ++ nonceBytes s.sec.loadNonce) 96

/-- The shelf keys of `p`, which both members derive from the pair secret and which carry no load nonce (07 R195). -/
def shelfKeys (s : State) (p : Nat) : List Byte :=
  Config.hkdf (leBytes 8 (s.sec.pairSecret.elim 0 (fun k => k.toNat))) (label "SHELF" ++ baseBytes s ++ [BitVec.ofNat 8 p]) 96

/-! ### T1 granules (07 R182, R183) -/

/-- What a T1 frame holds, which decides its key (07 R181, R182). -/
inductive KeyDomain where
  | partition (p : Nat)
  | plates
  | reserve
deriving DecidableEq, Repr, Inhabited

/-- The key domain of a T1 frame: the reserve is lowest, the plate space follows it, and the partition spaces come last
(07 R181). -/
def keyDomain (s : State) (f : Nat) : KeyDomain :=
  if f < Config.reserveFrames then .reserve else
  match (List.range 8).find? (fun p =>
    let base := Tab.getD s.forme.partBase p 0
    match partition s p with
    | some q => decide (base ≤ f) && decide (f < base + q.t1Pages.toNat)
    | none => false) with
  | some p => .partition p
  | none => .plates

/-- The keys of a domain. -/
def domainKeys (s : State) (d : KeyDomain) : List Byte :=
  match d with
  | .partition p => t1Keys s p
  | .plates => plateKeys s
  | .reserve => recordKey s

/-- A domain as a number. -/
def domainNo (d : KeyDomain) : Nat :=
  match d with
  | .partition p => p
  | .plates => 8
  | .reserve => 9

/-- The 512 bytes of ciphertext of T1 granule `g`: the granule is the data unit, its number the tweak (07 R182). -/
def granuleCipher (s : State) (g : Nat) : List Byte :=
  Config.aesXts ((domainKeys s (keyDomain s (g / 128))).take 64) g (t1Bytes s (512 * g) 512)

/-- The MAC of T1 granule `g` (07 R183, bytes 0 to 7 of its metadata). -/
def granuleMac (s : State) (g : Nat) : DWord :=
  let d := keyDomain s (g / 128)
  Config.gmac ((domainKeys s d).drop 64) (Config.t1Nonce (512 * g) (domainNo d)) (granuleCipher s g)

/-- The 64 metadata bytes of T1 granule `g`: MAC, then the check symbols over ciphertext and MAC (07 R183). -/
def granuleMeta (s : State) (g : Nat) : List Byte :=
  let mac := leBytes 8 (granuleMac s g).toNat
  mac ++ Config.rsChecks (granuleCipher s g ++ mac)

/-! ### Shelved frames (07 R194, R195) -/

/-- The ciphertext granule `i` of T3 frame `n` of partition `p`. -/
def shelfGranule (s : State) (p n i : Nat) (plain : List Byte) : List Byte :=
  Config.aesXts ((shelfKeys s p).take 64) (n * 128 + i) plain

/-- The tag of a shelved granule: its nonce binds tenant, request, layer, page, granule and shelve sequence. -/
def shelfTag (s : State) (g : Galley) (l page i : Nat) (cipher : List Byte) : DWord :=
  Config.gmac ((shelfKeys s g.part.toNat).drop 64)
    (Config.shelfNonce [g.tenant.toNat, g.reqId.toNat, l, page, i, g.shelveSeq.toNat]) cipher

/-- The state mover writes one shelved frame: its 128 granules into the data area, their tags into the tag area. -/
def shelfWrite (g : Galley) (l page n : Nat) (content : List Byte) (s : State) : State :=
  match Tab.find s.tier.t3 g.part.toNat with
  | none => s
  | some a =>
    let plain := content ++ List.replicate (65536 - content.length) 0
    let cipher := (List.range 128).map (fun i => shelfGranule s g.part.toNat n i ((plain.drop (512 * i)).take 512))
    let tags := (List.range 128).map (fun i => leBytes 8 (shelfTag s g l page i (cipher.getD i [])).toNat)
    emit (.dmaWrite 0 (a.tag + BitVec.ofNat 64 (1024 * n)) tags.flatten)
      (emit (.dmaWrite 0 (a.data + BitVec.ofNat 64 (65536 * n)) cipher.flatten) s)

end Sys2Proof.Machine
end

