-- ==== Sys2Proof/Machine/Mover.lean ====
section
/-!
DEFINITION. The state mover (08, 09): its tray requests, the writes mirrored to the partner (09 R244), COMMIT at the
serving member (R215), the bytes of the map and the record (R208, R211), the shelving and recalling of a galley
(07 R195, R196), and the drop (R230).
-/

namespace Sys2Proof.Machine

/-! ### The home's side of a finished request (10 R288) -/

/-- What the home keeps for a source device. -/
def traySrc (s : State) (d : Nat) : TraySrc := Tab.getD s.near.src d {}

/-- Change what the home keeps for a source device. -/
def traySrcUpd (d : Nat) (f : TraySrc → TraySrc) (s : State) : State :=
  { s with near := { s.near with src := Tab.upd s.near.src d {} f } }

/-- A request has been executed: it enters the record of the last 512, and is answered (10 R266, R288). A request of this
device itself takes no link and no record (10 R267). -/
def homeFinish (h : TrayHdr) (c : Status) (payload : List Byte) (s : State) : State :=
  let d := h.src.toNat % 4096
  if d = (myDev s).toNat then s else
  let s := { s with near := { s.near with
    stale := if c = .epochStale then satInc s.near.stale else s.near.stale
    denied := if c = .denied then satInc s.near.denied else s.near.denied } }
  trayAnswer h c payload (traySrcUpd d (fun x => { x with
    executed := ((h.seq.toNat, c, payload.take 16) :: x.executed).take 512
    running := x.running.filter (fun q => q != h.seq.toNat) }) s)

/-! ### Requests of the state mover -/

/-- The header of a state-mover request about a request's galley (10 R271, R273, R276): aperture 0xA append port, 0xC
galley words, 0xD state mover. -/
def moverHdr (s : State) (slot ap : Nat) (q : ReqId) : TrayHdr :=
  let (e, p) := match recFind s q with
    | some r => (r.epoch, r.part.toNat)
    | none => ((mapCurrent s).elim 0 (fun m => m.epoch), 0)
  { hdr0 with
    flags := 8, part := BitVec.ofNat 8 p, mepoch := e
    addr := BitVec.ofNat 48 (slot * 2 ^ 44 + ap * 2 ^ 40 + (if ap = 0xC then 0x10 else 0)) }

/-- The other member of a request's pair, by the record that the owner keeps (log entry 43). -/
def upperSlot (r : Rec) : Nat :=
  if r.servingSlot ≠ r.pair && r.pair ≠ 0xFF then r.servingSlot.toNat else (r.pair.toNat + 1) % 16

/-- The slots of a request's pair members. -/
def memberSlots (r : Rec) : List Nat := if r.pair = 0xFF then [] else [r.pair.toNat % 16, upperSlot r % 16]

/-- The member is not excluded. -/
def slotLive (s : State) (d : Nat) : Bool := !excluded s (devOfSlot s d).toNat

/-- Members of a request's pair that are not excluded. -/
def liveMembers (s : State) (r : Rec) : List Nat := (memberSlots r).filter (slotLive s)

/-! ### Bytes of the record and the map (08 R208, R211) -/

/-- The 128 bytes of a record (08 R208). -/
def recBytes (r : Rec) : List Byte :=
  leBytes 8 r.reqId.toNat ++ [BitVec.ofNat 8 r.state.toNat, r.status, BitVec.ofNat 8 r.view.toNat, r.flags]
    ++ leBytes 2 r.tenant.toNat ++ [BitVec.ofNat 8 r.part.toNat, r.partGen, BitVec.ofNat 8 r.context.toNat, r.priority,
      BitVec.ofNat 8 r.specLen, r.stage]
    ++ leBytes 4 r.epoch.toNat ++ leBytes 8 r.deadline.toNat ++ leBytes 4 r.promptLen ++ leBytes 4 r.commitLen
    ++ leBytes 4 r.maxLen ++ leBytes 4 r.prefilled ++ leBytes 2 r.anchor.toNat ++ leBytes 2 r.owner.toNat
    ++ [r.pair, r.servingSlot, 0, 0] ++ leBytes 4 r.step.toNat ++ leBytes 4 r.map.toNat ++ leBytes 4 r.resv
    ++ leBytes 4 r.held ++ leBytes 8 r.admitTb.toNat ++ leBytes 8 r.expiry.toNat ++ leBytes 4 r.shelveSeq.toNat
    ++ leBytes 4 r.pending.toNat ++ leBytes 8 r.hostTag.toNat ++ leBytes 4 r.colophon.toNat ++ leBytes 4 r.ttl.toNat
    ++ List.replicate 16 0

/-- A number from bytes. -/
def numAt (bs : List Byte) (o n : Nat) : Nat := leNat ((bs.drop o).take n)

/-- The record that 128 bytes hold (08 R208). -/
def recOfBytes (bs : List Byte) : Rec :=
  { reqId := BitVec.ofNat 64 (numAt bs 0 8), state := BitVec.ofNat 4 (numAt bs 8 1), status := BitVec.ofNat 8 (numAt bs 9 1)
    view := BitVec.ofNat 4 (numAt bs 10 1), flags := BitVec.ofNat 8 (numAt bs 11 1)
    tenant := BitVec.ofNat 16 (numAt bs 12 2), part := BitVec.ofNat 3 (numAt bs 14 1)
    partGen := BitVec.ofNat 8 (numAt bs 15 1), context := BitVec.ofNat 6 (numAt bs 16 1)
    priority := BitVec.ofNat 8 (numAt bs 17 1), specLen := numAt bs 18 1, stage := BitVec.ofNat 8 (numAt bs 19 1)
    epoch := BitVec.ofNat 32 (numAt bs 20 4), deadline := BitVec.ofNat 64 (numAt bs 24 8), promptLen := numAt bs 32 4
    commitLen := numAt bs 36 4, maxLen := numAt bs 40 4, prefilled := numAt bs 44 4
    anchor := BitVec.ofNat 12 (numAt bs 48 2), owner := BitVec.ofNat 12 (numAt bs 50 2)
    pair := BitVec.ofNat 8 (numAt bs 52 1), servingSlot := BitVec.ofNat 8 (numAt bs 53 1)
    step := BitVec.ofNat 32 (numAt bs 56 4), map := BitVec.ofNat 32 (numAt bs 60 4), resv := numAt bs 64 4
    held := numAt bs 68 4, admitTb := BitVec.ofNat 64 (numAt bs 72 8), expiry := BitVec.ofNat 64 (numAt bs 80 8)
    shelveSeq := BitVec.ofNat 32 (numAt bs 88 4), pending := BitVec.ofNat 32 (numAt bs 92 4)
    hostTag := BitVec.ofNat 64 (numAt bs 96 8), colophon := BitVec.ofNat 32 (numAt bs 104 4)
    ttl := BitVec.ofNat 32 (numAt bs 108 4) }

/-- What COMMIT and RECORD carry of a record: all of it (08 R207, R215). -/
def recUpdate (r : Rec) : RecordUpdate :=
  { state := r.state, status := r.status, view := r.view, flags := r.flags, tenant := r.tenant, part := r.part
    partGen := r.partGen, context := r.context, priority := r.priority, specLen := BitVec.ofNat 8 r.specLen
    stage := r.stage, epoch := r.epoch, deadline := r.deadline, promptLen := BitVec.ofNat 32 r.promptLen
    commitLen := BitVec.ofNat 32 r.commitLen, maxLen := BitVec.ofNat 32 r.maxLen
    prefilled := BitVec.ofNat 32 r.prefilled, anchor := r.anchor, owner := r.owner, pair := r.pair
    serving := r.servingSlot, step := r.step, map := r.map, pages := BitVec.ofNat 32 r.resv
    held := BitVec.ofNat 32 r.held, admitTb := r.admitTb, expiry := r.expiry, shelveSeq := r.shelveSeq
    pending := r.pending, hostTag := r.hostTag, colophon := r.colophon, ttl := r.ttl, resv := 0, chain := r.chain
    events := r.events, overran := r.overran, conds := r.conds, replay := r.replay, count := r.count
    geoms := r.geoms, fws := r.fws, formes := r.formes }

/-- The copy of the owner's record that a member keeps in its map (08 R207, R211). -/
def applyUpdate (u : RecordUpdate) (r : Rec) : Rec :=
  { r with
    state := u.state, status := u.status, view := u.view, flags := u.flags, tenant := u.tenant, part := u.part
    partGen := u.partGen, context := u.context, priority := u.priority, specLen := u.specLen.toNat, stage := u.stage
    epoch := u.epoch, deadline := u.deadline, promptLen := u.promptLen.toNat, commitLen := u.commitLen.toNat
    maxLen := u.maxLen.toNat, prefilled := u.prefilled.toNat, anchor := u.anchor, owner := u.owner, pair := u.pair
    servingSlot := u.serving, step := u.step, map := u.map, resv := u.pages.toNat, held := u.held.toNat
    admitTb := u.admitTb, expiry := u.expiry, shelveSeq := u.shelveSeq, pending := u.pending, hostTag := u.hostTag
    colophon := u.colophon, ttl := u.ttl, chain := u.chain, events := u.events, overran := u.overran
    widened := u.flags.toNat.testBit 5, degraded := u.flags.toNat.testBit 6, conds := u.conds, replay := u.replay
    count := u.count, geoms := u.geoms, fws := u.fws, formes := u.formes }

/-- A device's own record follows the owner's (08 R207): what the request has reached, and the terminal conditions that wait.
Its state follows too (R218), but for the anchor's own view of the request and for a record that is being drained. -/
def followUpdate (u : RecordUpdate) (r : Rec) : Rec :=
  { r with
    state := if r.state = 7 || r.view.toNat.testBit 0 then r.state else u.state
    flags := u.flags, specLen := u.specLen.toNat, epoch := u.epoch, deadline := u.deadline
    promptLen := u.promptLen.toNat, commitLen := u.commitLen.toNat, maxLen := u.maxLen.toNat
    prefilled := u.prefilled.toNat, owner := u.owner, servingSlot := u.serving, step := u.step, pending := u.pending
    partGen := u.partGen, ttl := u.ttl, chain := u.chain, events := u.events, overran := u.overran
    widened := u.flags.toNat.testBit 5, degraded := u.flags.toNat.testBit 6
    conds := r.conds ++ u.conds.filter (fun c => !r.conds.contains c), replay := u.replay, count := u.count
    geoms := u.geoms, fws := u.fws, formes := u.formes }

/-! ### Mirrored writes (09 R244, R245) -/

/-- This member's writes of a galley go to the partner as well (09 R244, R248), unless it serves alone while the spare is in a
warm reset (09 R252). -/
def mirrors (s : State) (g : Galley) : Bool :=
  (s.pair.state == 2 || (s.pair.state == 5 && g.mirrored) || (s.pair.state == 6 && g.verified && g.mirrored))
    && !s.pair.alone
    && (match partnerSlot s with
        | some p => slotLive s p
        | none => false)

/-- A member holds a trusted copy of a galley (09 R243). -/
def trusted (s : State) (g : Galley) : Bool :=
  !fenced s && (s.pair.state == 2 || s.pair.state == 3 || s.pair.state == 5 || (s.pair.state == 6 && g.verified && g.mirrored && !s.pair.untrusted))

/-- The slots of the stage's other nodes, which keep a record of the request too (08 R207). -/
def otherNodes (r : Rec) (s : State) : List Nat :=
  (([r.gen, r.prompt].eraseDups).filter (fun d => d != myDev s && decide (d.toNat / 16 = (myTray s).toNat)
    && !excluded s d.toNat)).map (fun d => d.toNat % 16)

/-- The galley is dropped on both members. The stage's other nodes drop their records next, and then its report goes to the anchor
with the colophon contribution, and the record becomes RETIRED unless it is the anchor's own (08 R230). -/
def stageDropped (q : ReqId) (s : State) : State :=
  match recLive s q with
  | none => s
  | some r =>
    let nodes := otherNodes r s
    if !r.dropTold && !nodes.isEmpty then
      nodes.foldl (fun s d => trayIssue d (.drop (moverHdr s d 0xD q) q) (.drop q) s)
        (recUpd q (fun r => { r with dropTold := true, dropWait := nodes }) s)
    else
    let (rep, s) := stageReport r ((statusOf r.status).getD .ok) s
    let s := sendFw r.anchor r.epoch (.dropReport rep) s
    if r.view.toNat.testBit 0 then recUpd q (fun r => { r with dropWait := [], dropTold := false, view := 1 }) s
    else recRetire q ((statusOf r.status).getD .ok) s

/-- The word of a resumed galley names its new owner on both members: the hand-over is complete, the record goes to the new
owner, and the stage confirms the resume (08 R218, R222, R232). -/
def handedOver (q : ReqId) (dest : DevId) (m : StageResume) (s : State) : State :=
  match recLive s q, galleyOf s q with
  | some r, some g =>
    let s := recUpd q (fun r => { r with state := if r.state = 3 then 4 else r.state }) s
    let u := { recUpdate r with
      state := if m.restart || m.newTokens != 0 then 2 else 4, owner := dest, count := g.count
      promptLen := m.adm.promptLen, serving := BitVec.ofNat 8 g.serving.toNat
      replay := m.restart && m.newTokens == 0 }
    let s := trayIssue (dest.toNat % 16) (.record (moverHdr s (dest.toNat % 16) 0xD q) q u) (.record q) s
    sendFw r.anchor m.adm.epoch (.confirmation q m.adm.stage none) s
  | _, _ => s

/-- What follows when a group of mirrored writes is acknowledged. -/
def runThen (t : MirrorThen) (s : State) : State :=
  match t with
  | .none => s
  | .answer h c payload => homeFinish h c payload s
  | .localCommit _ => s
  | .localCas q => recUpd q (fun r => { r with flags := r.flags &&& 0xF7 }) s
  | .dropDone q => stageDropped q s
  | .handed q dest m => handedOver q dest m s

/-- A held write completes with one copy: a COMMIT's answer becomes DEGRADED (09 R245). -/
def oneCopy (t : MirrorThen) : MirrorThen :=
  match t with
  | .answer h .ok payload => if h.type = 0x07 then .answer h .degraded payload else .answer h .ok payload
  | t => t

/-- Journal an item written to the spare (09 R251). What live mirroring writes while a full journal waits for its checkpoint is
entered too, beyond the 1,048,576 entries (DESIGN CHOICE, log entry 205). -/
def journal (j : List JournalItem) (s : State) : State :=
  if s.pair.state = 5 then
    { s with pair := { s.pair with journal := s.pair.journal ++ j.filter (fun x => !s.pair.journal.contains x) } }
  else s

/-- The pages, maps and records that a write to the spare touches (09 R251). -/
def journalOf (r : TrayReq) : List JournalItem :=
  match r with
  | .append _ a _ _ => [{ req := a.req, layer := a.layer.toNat, kind := 0, page := a.pos.toNat / 64 }]
  | .sealDigest _ q l p _ _ => [{ req := q, layer := l.toNat, kind := 0, page := p.toNat }]
  | .ownerFwd _ q _ | .mapWrite _ q _ _ => [{ req := q, layer := 0, kind := 3, page := 0 }]
  | .record _ q _ => [{ req := q, layer := 0, kind := 4, page := 0 }]
  | .drop _ q => [{ req := q, layer := 0, kind := 3, page := 0 }]
  | .page _ p => [{ req := p.req, layer := if p.kind = 2 then 0 else p.layer.toNat, kind := p.kind.toNat, page := p.lpage.toNat }]
  | _ => []

/-- The writes of R244 that name a galley: they go to the partner, and `t` runs once all are acknowledged. A member without
a partner to write to completes them with one copy; the survivor of a bring-in whose spare is in a warm reset journals what
it would have sent (09 R245, R251, R252). -/
def mirrorSend (g : Galley) (rs : List TrayReq) (t : MirrorThen) (s : State) : State :=
  let q := g.reqId
  if !mirrors s g then
    runThen (oneCopy t) (if s.pair.alone && g.mirrored then journal (rs.map journalOf).flatten s else s)
  else match partnerSlot s with
  | none => runThen t s
  | some p =>
    if rs.isEmpty then runThen t s else
    let s := journal (rs.map journalOf).flatten s
    let id := s.pair.nextMirror
    let s := { s with pair := { s.pair with
      nextMirror := id + 1
      mirrors := s.pair.mirrors ++ [{ id := id, req := q, left := rs.length, then_ := t, counted := false }] } }
    rs.foldl (fun s r => trayIssue p r (.mirror id) s) s

/-- One write of a group is acknowledged. -/
def mirrorAck (id : Nat) (s : State) : State :=
  match s.pair.mirrors.find? (fun m => m.id == id) with
  | none => s
  | some m =>
    if m.left ≤ 1 then
      runThen m.then_ { s with pair := { s.pair with mirrors := s.pair.mirrors.filter (fun m => m.id != id) } }
    else
      { s with pair := { s.pair with
          mirrors := s.pair.mirrors.map (fun m => if m.id = id then { m with left := m.left - 1 } else m) } }

/-- The partner is excluded: every held write completes with one copy (09 R245 step 3). -/
def mirrorsAlone (s : State) : State :=
  s.pair.mirrors.foldl (fun s m => runThen (oneCopy m.then_) s) { s with pair := { s.pair with mirrors := [] } }

/-! ### Bytes of the map (08 R211) -/

/-- Entries of a layer's latent page list and thumb list (08 R220). -/
def listLens (g : Galley) : Nat × Nat := (cdiv g.rec_.maxLen 64, cdiv (cdiv g.rec_.maxLen 64) 256)

/-- LIST_OFF of layer index `i`: the lists follow the descriptors, layer by layer (log entry 44). -/
def listOff (g : Galley) (i : Nat) : Nat := 0x100 + 32 * g.layers + i * (4 * ((listLens g).1 + (listLens g).2))

/-- Entries a page list needs: one past its highest page. -/
def listEnd (t : Tab Page) : Nat := t.foldl (fun m e => max m (e.1 + 1)) 0

/-- A list entry (08 R211): frame, state, coded. -/
def listEntry (frame st : Nat) (coded : Bool) : Nat := frame % 2 ^ 24 + st * 2 ^ 24 + b2n coded * 2 ^ 27

/-- The first `n` entries of a page list. -/
def listBytes (t : Tab Page) (n : Nat) : List Byte :=
  ((List.range n).map (fun i =>
    let x : Page := Tab.getD t i {}
    leBytes 4 (listEntry x.frame x.state.toNat x.coded))).flatten

/-- Map offset of the list entry of a page. -/
def entryOff (g : Galley) (k l p : Nat) : Nat :=
  listOff g (l - g.firstLayer) + (if k = 0 then 4 * p else 4 * (listLens g).1 + 4 * p)

/-- A map (08 R211): the header with its copy of the record, the layer descriptors, the page and thumb lists layer by layer,
and the history list. -/
def mapBytes (g : Galley) : List Byte :=
  let head : List Byte := leBytes 4 0x4D474E44 ++ leBytes 2 g.layers ++ leBytes 2 g.firstLayer ++ leBytes 8 g.reqId.toNat
    ++ leBytes 8 (g.owner.toNat + 65536 * g.count)
    ++ [BitVec.ofNat 8 g.serving.toNat, BitVec.ofNat 8 g.partner.toNat, BitVec.ofNat 8 (b2n g.slotB + 2 * b2n g.coded), g.ver]
    ++ leBytes 2 g.table ++ leBytes 2 (listEnd g.hist) ++ leBytes 4 g.shelveSeq.toNat
    ++ leBytes 4 ((galleyPages g).filter inT1).length ++ leBytes 8 g.expiry ++ leBytes 4 (listOff g g.layers)
    ++ List.replicate 76 0 ++ recBytes g.rec_
  let desc (i : Nat) : List Byte :=
    let l := layerOf g (g.firstLayer + i)
    leBytes 4 l.commit ++ leBytes 4 l.specEnd ++ leBytes 4 (listEnd l.pages) ++ leBytes 4 (listOff g i)
      ++ leBytes 2 (listEnd l.thumbs) ++ [0, 0] ++ leBytes 4 (listOff g i + 4 * (listLens g).1) ++ List.replicate 8 0
  let lists (i : Nat) : List Byte :=
    let l := layerOf g (g.firstLayer + i)
    listBytes l.pages (listLens g).1 ++ listBytes l.thumbs (listLens g).2
  head ++ ((List.range g.layers).map desc).flatten ++ ((List.range g.layers).map lists).flatten
    ++ listBytes g.hist (listEnd g.hist)

/-- The mask of a page's first `n` entries, at most 64. -/
def maskTo (n : Nat) : BitVec 64 := BitVec.ofNat 64 (2 ^ (min 64 n) - 1)

/-- Committed length of one layer on this member, with what follows from it: speculative bits below it go, SPEC_END follows,
full pages begin to seal (08 R211, R215 steps 3 and 4). -/
def setCommit (l n : Nat) (g : Galley) : Galley :=
  let g : Galley := { g with layer := Tab.upd g.layer l {} (fun x => { x with
      commit := n
      pages := x.pages.map (fun (p : Nat × Page) => (p.1,
        if p.2.state = 1 then
          { p.2 with spec := p.2.spec &&& ~~~(maskTo (n - p.1 * 64)), sealing := p.2.sealing || decide ((p.1 + 1) * 64 ≤ n) }
        else p.2)) }) }
  { g with layer := Tab.upd g.layer l {} (fun x => { x with specEnd := specEndOf g l n }) }

/-- COMMIT 0 written for a layer empties it: its latent and thumb pages and the galley's T3 frames are freed, for a
re-prefill (08 R233; log entry 47). -/
def resetLayer (q : ReqId) (l : Nat) (s : State) : State :=
  match galleyOf s q with
  | none => s
  | some g =>
    let x := layerOf g l
    let s := x.thumbs.foldl (fun s p => emptyPage q 1 l p.1 s) (x.pages.foldl (fun s p => emptyPage q 0 l p.1 s) (freeT3 q s))
    galleyUpd q (fun g => { g with
      layer := Tab.put g.layer l {}, rec_ := { g.rec_ with commitLen := 0, prefilled := 0 }, expiry := 0, pausedAt := none
      recalled := false }) s

/-- The bytes of a galley page that leave the device in plain form: rows for a latent page, the slot's content
otherwise. -/
def pageContent (s : State) (g : Galley) (k l p : Nat) : List Byte :=
  if k = 0 then plainRows s g l p else t1Bytes s ((pageOf g k l p).frame * 65536) 65536

/-- Where the state mover reads a galley page, and how many bytes: a thumb or history page whole, the slugs of a coded latent page,
the rows of a plain one (08 R210). -/
def pageSpan (s : State) (g : Galley) (k l p : Nat) : Nat × Nat :=
  let x := pageOf g k l p
  let a := x.frame * 65536
  (a, if k ≠ 0 then 65536 else if x.coded then 2048 * (Mem.byte s.tier.t1 (a + 0xE002)).toNat else 64 * rowBytes s g.part.toNat)

/-- What T3 holds of a page: a tail image ends at the committed length, so that no speculative position is written (07
R196). -/
def shelfImage (s : State) (g : Galley) (k l p : Nat) (tail : Bool) : List Byte :=
  let b := pageContent s g k l p
  if tail then b.take (((layerOf g l).commit - p * 64) * rowBytes s g.part.toNat) else b

/-- The partner's list entry becomes SHELVED or EXPIRED: the T1 page goes, and its content, which both members hold alike, is
what T3 holds under that frame number (07 R195, R196; log entry 57). -/
def entryShelved (q : ReqId) (k l p w : Nat) (s : State) : State :=
  match galleyOf s q with
  | none => s
  | some g =>
    let x := pageOf g k l p
    let f := w % 2 ^ 24
    let st : BitVec 3 := BitVec.ofNat 3 (field w 26 24)
    if st = 4 && x.state = 4 && x.frame = f then s else
    let tail := k = 0 && decide ((layerOf g l).commit < (p + 1) * 64)
    let shelf := if st = 4 && inT1 x then shelfImage s g k l p tail else []
    pageUpd q k l p (fun _ => if st = 4 then { frame := f, state := 4, shelf := shelf, tail := tail } else { state := 5 })
      (emptyPage q k l p s)

/-- A layer's COMMIT as a whole map carries it: the length alone (08 R211, 09 R248). -/
def imageCommit (l n : Nat) (g : Galley) : Galley :=
  { g with layer := Tab.upd g.layer l {} (fun x => { x with commit := n, specEnd := specEndOf g l n }) }

/-- Write one page's plain content into a T1 slot of its own: a sealed image as a sealed page, a tail image as an open
page that holds the positions `w`, and that begins to seal if it holds all 64 of them (07 R196, R217). -/
def restorePage (q : ReqId) (k l p : Nat) (sealed : Bool) (w : BitVec 64) (tags : Tab Word) (bytes : List Byte) (s : State) :
    Option State :=
  match openPage q k l p 1 (pageUpd q k l p (fun _ => {}) s) with
  | none => none
  | some s =>
    match galleyOf s q with
    | none => none
    | some g =>
      let x := pageOf g k l p
      let s := meterT1 g.tenant bytes.length (t1Write (x.frame * 65536) bytes s)
      if k ≠ 0 then some s else
      let s := pageUpd q k l p (fun x => { x with written := w, tags := tags, sealing := w == maskTo 64 }) s
      if sealed then (sealPage q l p s).map (fun r => r.2) else some (syncHeader q l p 0 s)

/-- The SHELVED pages of a galley: kind, layer, page index and page. -/
def shelvedPages (g : Galley) : List (Nat × Nat × Nat × Page) :=
  (g.layer.map (fun l =>
    ((l.2.pages.filter (fun p => p.2.state == 4)).map (fun p => (0, l.1, p.1, p.2)))
      ++ ((l.2.thumbs.filter (fun p => p.2.state == 4)).map (fun p => (1, l.1, p.1, p.2))))).flatten

/-- EXPIRY of a map is complete, and the record follows it (08 R208, 09 R257). Zero says that the galley is no longer shelved: its T3
frames are freed (07 R196, R200), and a page that still is SHELVED, which had no committed row, is OPEN again (08 R217; log entry
171). -/
def shelfExpiry (q : ReqId) (e : Nat) (s : State) : State :=
  let s := recUpd q (fun r => { r with expiry := BitVec.ofNat 64 e }) (galleyUpd q (fun g => { g with
    expiry := e, recalled := false, pausedAt := if e = 0 then g.pausedAt else none }) s)
  if e ≠ 0 then s else
  let s := freeT3 q s
  match galleyOf s q with
  | none => s
  | some g => (shelvedPages g).foldl (fun s x => (restorePage q x.1 x.2.1 x.2.2.1 false 0 [] [] s).getD s) s

/-- One 32-bit word written at a map offset (08 R211, 09 R244); `image` tells a word of a whole map from a word alone. A COMMIT
alone acts as R215 step 3, or as R233 where it is 0. A page-list entry that becomes SHELVED or EXPIRED frees this member's T1
frame; its other states are each member's own. -/
def mapWord (image : Bool) (q : ReqId) (off w : Nat) (s : State) : State :=
  match galleyOf s q with
  | none => s
  | some g =>
    if off = 0x10 then galleyUpd q (fun g => { g with owner := BitVec.ofNat 12 w, count := g.count / 65536 * 65536 + w / 65536 }) s
    else if off = 0x14 then galleyUpd q (fun g => { g with count := g.count % 65536 + 65536 * (w % 65536) }) s
    else if off = 0x18 then
      let sv : Slot := BitVec.ofNat 4 w
      galleyUpd q (fun g => { g with
        partner := if sv = g.serving then g.partner else g.serving, serving := sv
        slotB := decide (w / 65536 % 2 = 1), coded := decide (w / 131072 % 2 = 1), ver := BitVec.ofNat 8 (w / 2 ^ 24) }) s
    else if off = 0x1C then galleyUpd q (fun g => { g with table := w % 65536 }) s
    else if off = 0x20 then galleyUpd q (fun g => { g with shelveSeq := BitVec.ofNat 32 w }) s
    else if off = 0x28 then galleyUpd q (fun g => { g with expiry := g.expiry / 2 ^ 32 * 2 ^ 32 + w }) s
    else if off = 0x2C then shelfExpiry q (g.expiry % 2 ^ 32 + w * 2 ^ 32) s
    else if 0x100 ≤ off ∧ off < 0x100 + 32 * g.layers then
      let l := g.firstLayer + (off - 0x100) / 32
      if (off - 0x100) % 32 = 0 then
        (if image then galleyUpd q (imageCommit l w) s
         else if w = 0 then resetLayer q l s
         else syncOpen q l (galleyUpd q (setCommit l w) s))
      else s
    else if 0x100 + 32 * g.layers ≤ off ∧ off < listOff g g.layers then
      let per := 4 * ((listLens g).1 + (listLens g).2)
      let o := off - listOff g 0
      let l := g.firstLayer + o / per
      let i := o % per / 4
      let k := if i < (listLens g).1 then 0 else 1
      let p := if k = 0 then i else i - (listLens g).1
      if field w 26 24 = 4 ∨ field w 26 24 = 5 then entryShelved q k l p w s else s
    else s

/-- A MAP_WRITE's bytes, word by word from its offset. -/
def mapWriteBytes (q : ReqId) (off : Nat) (bs : List Byte) (s : State) : State :=
  let image := decide (4 < bs.length)
  let s := (chunks 4 (bs.length + 1) bs).foldl (fun (a : State × Nat) c => (mapWord image q a.2 (leNat c) a.1, a.2 + 4)) (s, off)
  let s := s.1
  if off ≤ 0x80 && decide (0x100 ≤ off + bs.length) then
    let r := recOfBytes ((bs.drop (0x80 - off)).take 128)
    galleyUpd q (fun g => { g with rec_ := r }) s
  else s

/-! ### COMMIT at the serving member (08 R215) -/

/-- Positions `a` to `b − 1` of every layer hold a WRITTEN entry, or a SPEC entry with this step's tag (step 1). -/
def commitReady (g : Galley) (a b : Nat) (step : Word) : Bool :=
  (List.range g.layers).all (fun i => (List.range (b - a)).all (fun j =>
    posWritten g (g.firstLayer + i) (a + j) || posSpec g (g.firstLayer + i) (a + j) step))

/-- The SPEC entries that COMMIT converts: layer and position (step 2). -/
def commitSpecs (g : Galley) (a b : Nat) : List (Nat × Nat) :=
  ((List.range g.layers).map (fun i => ((List.range (b - a)).filter
    (fun j => !posWritten g (g.firstLayer + i) (a + j))).map (fun j => (g.firstLayer + i, a + j)))).flatten

/-- Where one row of an open page lies. -/
def rowAddr (s : State) (g : Galley) (l pos : Nat) : Nat :=
  (pageOf g 0 l (pos / 64)).frame * 65536 + (pos % 64) * rowBytes s g.part.toNat

/-- The bytes of one row of an open page. -/
def rowAt (s : State) (g : Galley) (l pos : Nat) : List Byte := t1Bytes s (rowAddr s g l pos) (rowBytes s g.part.toNat)

/-- The state mover reads T1 in pieces, each an address and a number of bytes: what the reads showed, and the state with them
counted (07 R184, R191, R205). -/
def spansRead (spans : List (Nat × Nat)) (reads : ReadOutcome) (s : State) : Bool × State :=
  readOutcome (spans.foldl (fun o x => seenOutcome s (.t1 x.1) x.2 o) reads)
    (countGranules false (spans.map (fun x => granules x.1 x.2)).flatten s)

/-- A SPEC entry becomes WRITTEN. -/
def toWritten (q : ReqId) (l pos : Nat) (s : State) : State :=
  syncHeader q l (pos / 64) 0 (pageUpd q 0 l (pos / 64) (fun x => { x with
    written := maskSet x.written (pos % 64) true, spec := maskSet x.spec (pos % 64) false }) s)

/-- A request on a slot's append port that carries a mirror copy of a row (10 R273, CLASS 3). -/
def copyRow (s : State) (g : Galley) (slot l pos : Nat) : TrayReq :=
  let a : AppendHdr :=
    { req := g.reqId, pos := BitVec.ofNat 32 pos, step := Tab.getD (pageOf g 0 l (pos / 64)).tags (pos % 64) 0
      layer := BitVec.ofNat 16 l, cls := 3, rowBytes := BitVec.ofNat 16 (rowBytes s g.part.toNat), resv := 0 }
  .append (moverHdr s slot 0xA g.reqId) a (rowAt s g l pos) .good

/-- A MAP_WRITE of one 32-bit word. -/
def mapWriteReq (s : State) (slot : Nat) (q : ReqId) (off w : Nat) : TrayReq :=
  .mapWrite (moverHdr s slot 0xD q) q (BitVec.ofNat 32 off) (leBytes 4 w)

/-- The partner's slot, or this device's own where there is none. -/
def partnerOr (s : State) : Nat := (partnerSlot s).getD (mySlot s).toNat

/-- MAP_WRITEs that carry a whole map to the partner. -/
def mapWrites (s : State) (g : Galley) : List TrayReq :=
  let cs := chunks 4064 ((mapBytes g).length / 4064 + 1) (mapBytes g)
  (List.range cs.length).map (fun i =>
    .mapWrite (moverHdr s (partnerOr s) 0xD g.reqId) g.reqId (BitVec.ofNat 32 (i * 4064)) (cs.getD i []))

/-- COMMIT: `h` is the owner's request, answered once the partner has acknowledged (08 R215). A row that step 2 reads and
that fails is no row to commit (07 R184, R191). -/
def commitAt (h : TrayHdr) (q : ReqId) (n : Nat) (step : Word) (u : RecordUpdate) (reads : ReadOutcome) (s : State) : State :=
  match galleyOf s q with
  | none => homeFinish h .stateLost [] s
  | some g =>
    if h.src.toNat % 4096 ≠ g.owner.toNat then homeFinish h .denied [] s
    else if g.serving ≠ mySlot s then homeFinish h .retryLater [] s
    else if !commitReady g g.rec_.commitLen n step then homeFinish h .malformed [] s
    else
      let specs := commitSpecs g g.rec_.commitLen n
      let (ok, s) := if specs.isEmpty then (true, s)
        else spansRead (specs.map (fun x => (rowAddr s g x.1 x.2, rowBytes s g.part.toNat))) reads s
      if !ok then homeFinish h .integrity [] s else
      let p := partnerOr s
      let copies := specs.map (fun x => copyRow s g p x.1 x.2)
      let maps := (List.range g.layers).map (fun i => mapWriteReq s p q (0x100 + 32 * i) n)
      let s := specs.foldl (fun s x => toWritten q x.1 x.2 s) s
      let s := galleyUpd q (fun g => { (List.range g.layers).foldl (fun g i => setCommit (g.firstLayer + i) n g) g with
        rec_ := applyUpdate u g.rec_ }) s
      let s := (List.range g.layers).foldl (fun s i => syncOpen q (g.firstLayer + i) s) s
      let s := recUpd q (followUpdate u) s
      let s := { s with req := { s.req with commits := satInc s.req.commits } }
      mirrorSend g (copies ++ maps ++ [.record (moverHdr s p 0xD q) q u]) (.answer h .ok []) s

/-! ### Shelving and recalling (07 R195 to R199; 08 R231) -/

/-- What a shelve writes: sealed pages, open pages as tail images up to the committed length of their layer, thumb pages, layer by
layer: kind, layer, page, tail (07 R196, 08 R217). -/
def shelfContent (g : Galley) : List (Nat × Nat × Nat × Bool) :=
  ((List.range g.layers).map (fun i =>
    let l := g.firstLayer + i
    let x := layerOf g l
    (x.pages.filterMap (fun p =>
      if p.2.state = 2 ∨ p.2.state = 3 then some (0, l, p.1, false)
      else if p.2.state = 1 then some (0, l, p.1, true) else none))
    ++ (x.thumbs.filter (fun p => inT1 p.2)).map (fun p => (1, l, p.1, false)))).flatten

/-- A page of a shelve that holds a committed row, or is no latent page: the partner may hold it too (08 R225; log entry 171). -/
def shelfShared (g : Galley) (x : Nat × Nat × Nat × Bool) : Bool :=
  x.1 != 0 || decide (x.2.2.1 * 64 < (layerOf g x.2.1).commit)

/-- Free T3 frames of a partition's area, lowest first. -/
def freeT3Frames (s : State) (p : Nat) : List Nat :=
  match partition s p, Tab.find s.tier.t3 p with
  | some q, some a => (List.range q.t3Pages.toNat).filter (fun n => (Tab.find a.frames n).isNone)
  | _, _ => []

/-- What the read of a row's granules shows where the row fills one in part; `t` is the state in which the row stands (07 R185). -/
def rowReads (a : AppendHdr) (row : List Byte) (reads : ReadOutcome) (s t : State) : ReadOutcome :=
  match galleyOf t a.req with
  | none => reads
  | some g =>
    let x := (pageOf g 0 a.layer.toNat (a.pos.toNat / 64)).frame * 65536 + a.pos.toNat % 64 * row.length
    if x % 512 = 0 ∧ row.length % 512 = 0 then .good else seenOutcome s (.t1 x) row.length reads

/-- An append whose row fills a granule in part reads that granule first; a failed read leaves the row unwritten (07 R184,
R185). A duplicate writes nothing and reads nothing (08 R213). -/
def appendAt (sender : DevId) (a : AppendHdr) (row : List Byte) (reads : ReadOutcome) (s : State) : Status × State :=
  match appendRow sender a row s with
  | (.ok, t) =>
    if a.cls ≠ 2 && (galleyOf s a.req).any (fun g => decide (a.pos.toNat < g.rec_.commitLen)) then (.ok, t) else
    let (got, s) := readOutcome (rowReads a row reads s t) s
    if got then appendRow sender a row s else (.integrity, s)
  | r => r

/-- At least 1 ms has passed since the fault of the last try (07 R198). -/
def retryDue (s : State) (g : Galley) : Bool :=
  match g.faultAt with
  | none => true
  | some t => decide (t + Config.tbPerMs ≤ s.tb)

/-- The serving member starts a shelve: it is not started without a bound area, free frames, or room under the tenant's
T3 limit (07 R196, R199), nor within 1 ms of a fault (R198), nor in a function-level reset of the physical function (16 R433). -/
def shelveStart (q : ReqId) (drain : Bool) (s : State) : State :=
  match galleyOf s q with
  | none => s
  | some g =>
    let n := (shelfContent g).length
    let free := freeT3Frames s g.part.toNat
    match Tab.find s.tier.quotas g.tenant.toNat, Tab.find s.tier.t3 g.part.toNat with
    | some u, some a =>
      if g.op = .idle && decide (moverOut s < 4096) && g.serving = mySlot s && retryDue s g && !s.host.flr.contains 0 && decide (n ≤ free.length) && decide (u.t3Used + n ≤ u.t3Limit) then
        let s := { s with tier := { s.tier with t3 := Tab.put s.tier.t3 g.part.toNat { a with
          frames := (free.take n).foldl (fun t f => Tab.put t f q) a.frames } } }
        galleyUpd q (fun g => { g with op := .shelving, drainShelf := g.drainShelf || drain, shelveSeq := g.shelveSeq + 1 }) s
      else if drain then galleyUpd q (fun g => { g with drainShelf := true }) s else s
    | _, _ => if drain then galleyUpd q (fun g => { g with drainShelf := true }) s else s

/-! ### The owner word (08 R222, R223; 10 R280) -/

/-- OWNER_WORD of a galley (08 R211). -/
def ownerWord (g : Galley) : Nat := g.owner.toNat + 65536 * g.count

/-- A word's owner and count. -/
def setOwner (w : Nat) (g : Galley) : Galley :=
  { g with owner := BitVec.ofNat 12 w, count := w / 65536 % 2 ^ 32 }

/-- Ownership passes to the serving member at a pause: its record is PAUSED and owner, and MOVER_HOLD runs (08 R231). -/
def pausedHere (q : ReqId) (s : State) : State :=
  recUpd q (fun r => { r with state := 5, view := r.view ||| 2, owner := myDev s, flags := r.flags &&& 0xF7 })
    (match galleyOf s q with
      | some g =>
        let s := galleyUpd q (fun g => { g with pausedAt := some s.tb, rec_ := { g.rec_ with state := 5, owner := myDev s } }) s
        if partDraining s g.part.toNat then shelveStart q true s else s
      | none => s)

/-- OWNER_WORD at the partner (08 R222): where the word names a member of the pair, the request is paused here too, and where it
leaves one, it is resumed (08 R218, R231, R232). -/
def wordFollows (q : ReqId) (w : Nat) (s : State) : State :=
  let s := galleyUpd q (setOwner w) s
  match galleyOf s q, recLive s q with
  | some g, some r =>
    let member := (memberSlots r).any (fun d => devOfSlot s d == g.owner)
    if member && r.state != 7 then
      recUpd q (fun r => { r with state := 5, owner := g.owner, flags := r.flags &&& 0xF7 })
        (galleyUpd q (fun g => { g with pausedAt := some s.tb, rec_ := { g.rec_ with state := 5, owner := g.owner } }) s)
    else if !member && (r.state == 5 || r.state == 6) then
      let st : BitVec 4 := if r.promptLen ≤ r.commitLen then 4 else 2
      recUpd q (fun r => { r with state := st, owner := g.owner })
        (galleyUpd q (fun g => { g with pausedAt := none, rec_ := { g.rec_ with state := st, owner := g.owner } }) s)
    else recUpd q (fun r => { r with owner := g.owner }) s
  | _, _ => s

/-- CAS U64 on OWNER_WORD at this member; the old value is the payload (10 R280). -/
def ownerCasAt (h : TrayHdr) (q : ReqId) (cmp new : Nat) (s : State) : State :=
  match galleyOf s q with
  | none => homeFinish h .stateLost [] s
  | some g =>
    let old := leBytes 8 (ownerWord g)
    if g.serving ≠ mySlot s then homeFinish h .retryLater old s
    else if h.src.toNat % 4096 ≠ g.owner.toNat ∧ !excluded s g.owner.toNat then homeFinish h .denied old s
    else if ownerWord g ≠ cmp then homeFinish h .denied old s
    else
      let s := galleyUpd q (setOwner new) s
      let s := if new % 4096 = (myDev s).toNat then pausedHere q s else s
      mirrorSend g [.ownerFwd (moverHdr s (partnerOr s) 0xD q) q (BitVec.ofNat 64 new)] (.answer h .ok old) s

/-! ### Shelving done, and recalls (07 R196, 08 R231) -/

/-- Pages that the state mover reads: what the reads showed, and the decoding of the coded ones; whether all of it is good, and
the state (07 R184, R191; 06 R163, R164). -/
def moverRead (g : Galley) (items : List (Nat × Nat × Nat)) (reads : ReadOutcome) (s : State) : Bool × State :=
  let at_ (x : Nat × Nat × Nat) : Nat := (pageOf g x.1 x.2.1 x.2.2).frame * 65536
  let (ok, s) := spansRead (items.map (fun x => pageSpan s g x.1 x.2.1 x.2.2)) reads s
  if !ok then (false, s) else
  match items.findSome? (fun x => if x.1 = 0 then (match pagePlain s g x.2.1 x.2.2 with
      | .crc => some (true, at_ x)
      | .bad => some (false, at_ x)
      | .ok _ => none) else none) with
  | some (crc, a) => (false, slugLost crc (.t1 a) s)
  | none => (true, s)

/-- A shelve ends without its galley shelved: its T3 frames are freed, the galley stays PAUSED in T1 (07 R198, R199). -/
def shelveUndo (q : ReqId) (s : State) : State :=
  match galleyOf s q with
  | none => s
  | some g =>
    match Tab.find s.tier.t3 g.part.toNat with
    | none => s
    | some a =>
      galleyUpd q (fun g => { g with op := .idle })
        { s with tier := { s.tier with t3 := Tab.put s.tier.t3 g.part.toNat { a with
            frames := a.frames.filter (fun f => f.2 != q) } } }

/-- A T3 fault abandons a shelve (07 R198). -/
def shelveAbandon (q : ReqId) (s : State) : State := galleyUpd q (fun g => { g with faultAt := some s.tb }) (shelveUndo q s)

/-- The content of a shelve is good and stands in T3: its T1 pages are freed on both members, the reservation but for the
history is returned, the expiry is set (07 R196, R197, R200), and the anchor learns of it (09 R257; log entry 203). -/
def shelveStore (q : ReqId) (g : Galley) (frames : List Nat) (s : State) : State :=
  let pairs := (shelfContent g).zip frames
  let e := s.tb + g.rec_.ttl.toNat * Config.tbPerMs
  let kept := pairs.map (fun x => (x.1, x.2, shelfImage s g x.1.1 x.1.2.1 x.1.2.2.1 x.1.2.2.2))
  let hist := (g.hist.filter (fun p => inT1 p.2)).length
  let p := partnerOr s
  let shared := pairs.filter (fun x => shelfShared g x.1)
  let writes := (shared.map (fun x => mapWriteReq s p q (entryOff g x.1.1 x.1.2.1 x.1.2.2.1) (listEntry x.2 4 false)))
    ++ [mapWriteReq s p q 0xC0 hist, mapWriteReq s p q 0x20 g.shelveSeq.toNat, mapWriteReq s p q 0x28 (e % 2 ^ 32)
        , mapWriteReq s p q 0x2C (e / 2 ^ 32)]
  let n := (kept.map (fun x => x.2.2.length)).sum
  let s := kept.foldl (fun s x => shelfWrite g x.1.2.1 x.1.2.2.1 x.2.1 x.2.2 s) s
  let s := meterT3 g.tenant n (meterT1 g.tenant n (freePages q (fun k => k != 2) s))
  let s := kept.foldl (fun s x => pageUpd q x.1.1 x.1.2.1 x.1.2.2.1 (fun _ =>
    { frame := x.2.1, state := 4, shelf := x.2.2, tail := x.1.2.2.2 }) s) s
  let s := quotaReturn g.tenant (g.resv - hist) s
  let s := quotaUpd g.tenant (fun u => { u with t3Used := u.t3Used + pairs.length }) s
  let s := galleyUpd q (fun g => { g with
    op := .idle, drainShelf := false, expiry := e, resv := hist, coded := false, faultAt := none, pausedAt := none
    rec_ := { g.rec_ with resv := hist, expiry := BitVec.ofNat 64 e, shelveSeq := g.shelveSeq } }) s
  let s := recUpd q (fun r => { r with expiry := BitVec.ofNat 64 e, shelveSeq := g.shelveSeq, resv := hist }) s
  let s := sendFw g.rec_.anchor g.rec_.epoch (.shelved q g.rec_.stage (BitVec.ofNat 64 e)) s
  mirrorSend g writes .none { s with req := { s.req with shelves := satInc s.req.shelves } }

/-- The shelve completes on the serving member, if its reads were good and the tenant's T3 limit, as it is now, leaves room
for its charge (07 R191, R196, R202). -/
def shelveDone (q : ReqId) (reads : ReadOutcome) (s : State) : State :=
  match galleyOf s q with
  | none => s
  | some g =>
    if g.op ≠ .shelving then s else
    match Tab.find s.tier.t3 g.part.toNat with
    | none => s
    | some a =>
      let frames := (a.frames.filter (fun f => f.2 == q)).map (fun f => f.1)
      let u := Tab.getD s.tier.quotas g.tenant.toNat {}
      let (ok, s) := moverRead g ((shelfContent g).map (fun x => (x.1, x.2.1, x.2.2.1))) reads s
      if ok && decide (u.t3Used + (shelfContent g).length ≤ u.t3Limit) then shelveStore q g frames s else shelveUndo q s

/-- A galley is shelved: some page of it is SHELVED. -/
def isShelved (g : Galley) : Bool := (galleyPages g).any (fun p => p.state == 4)

/-- The slot a new or recalled galley is bound to: slot, version, table; table 0 without a latent table (06 R168,
R170). -/
def latentBinding (s : State) (p : Nat) : Bool × Byte × Nat :=
  match s.forme.committed with
  | none => (false, 0, 0)
  | some c =>
    match Tab.find c.entropy p with
    | none => (false, 0, 0)
    | some e =>
      let b := Tab.getD s.codec.active p false
      if e.latentTable = 0 then (false, 0, 0)
      else (b, (slotOf s p e.latentTable.toNat b).version, e.latentTable.toNat)

/-- Parts of a page on the tray fabric: 4,096 bytes each (10 R273). -/
def pageParts (q : ReqId) (k l p : Nat) (bytes : List Byte) (d : Digest) : List PagePart :=
  let cs := chunks 4096 17 bytes
  (List.range cs.length).map (fun i =>
    { req := q, layer := BitVec.ofNat 16 l, kind := BitVec.ofNat 8 k, partNo := i, lastPart := i + 1 == cs.length
      lpage := BitVec.ofNat 32 p, bytes := cs.getD i [], digest := d })

/-- What T3 returns for a shelved page: what this member wrote there, or, for a page its partner shelved, content that
this device has not seen (log entry 57). -/
def shelfBytes (s : State) (g : Galley) (k l p : Nat) (x : Page) : List Byte :=
  if x.shelf.isEmpty && !(x.tail && !shelfShared g (k, l, p, true)) then
    (List.range (if k = 0 then elemBytes (kvFormat s g.part.toNat) (64 * rowElems s g.part.toNat) else 65536)).map
      (fun i => Config.freeByte (freeKey s.free (((k * 2 ^ 16 + l) * 2 ^ 24 + p) * 2 ^ 16 + i)))
  else x.shelf

/-- What goes to the partner of a recalled galley: the words of its map that change, or the whole map where the partner does not
hold the galley yet (09 R249), every page in its parts, and the digests of the pages this member has sealed (07 R196, 08
R216). During a bring-in the record that follows them says that the galley is live-mirrored (09 R249; log entry 199). -/
def recallWrites (s : State) (g : Galley) (whole : Bool) (pages : List (Nat × Nat × Nat × Page)) : List TrayReq :=
  let q := g.reqId
  let p := partnerOr s
  let h := moverHdr s p 0xD q
  let word := g.serving.toNat + 256 * g.partner.toNat + 65536 * b2n g.slotB + g.ver.toNat * 2 ^ 24
  let map := if whole then mapWrites s g else [mapWriteReq s p q 0x18 word, mapWriteReq s p q 0x1C g.table]
  let parts := (pages.map (fun x => pageParts q x.1 x.2.1 x.2.2.1 x.2.2.2.shelf (Config.sha384 x.2.2.2.shelf))).flatten
  let seals := pages.filterMap (fun x =>
    let y := pageOf g x.1 x.2.1 x.2.2.1
    if x.1 = 0 && y.state = 2 then
      some (.sealDigest h q (BitVec.ofNat 16 x.2.1) (BitVec.ofNat 32 x.2.2.1) y.sealDigest 0) else none)
  map ++ parts.map (fun x => .page h x) ++ seals
    ++ [.record h q { recUpdate g.rec_ with released := s.pair.state == 5 }, mapWriteReq s p q 0x28 0, mapWriteReq s p q 0x2C 0]

/-- The recall has read every frame with good tags: the pages are written on this member and sent to the partner, the
T3 frames are freed (07 R196, 06 R170). A recall during bring-in leaves the galley live-mirrored (09 R249). -/
def recallDone (q : ReqId) (s : State) : State :=
  match galleyOf s q with
  | none => s
  | some g =>
    let pages := (shelvedPages g).map (fun x => (x.1, x.2.1, x.2.2.1, { x.2.2.2 with shelf := shelfBytes s g x.1 x.2.1 x.2.2.1 x.2.2.2 }))
    let n := (pages.map (fun x => x.2.2.2.shelf.length)).sum
    let s := meterT3 g.tenant n (bumpFree s)
    let (b, v, t) := latentBinding s g.part.toNat
    let s := freeT3 q s
    let s := galleyUpd q (fun g => { g with
      slotB := b, ver := v, table := t, op := .idle, expiry := 0, mirrored := g.mirrored || s.pair.state == 5
      copied := g.copied || s.pair.state == 5, rec_ := { g.rec_ with expiry := 0, resv := g.resv } }) s
    let s := (pages.filter (fun x => x.1 == 1) ++ pages.filter (fun x => x.1 == 0)).foldl (fun s x =>
      (restorePage q x.1 x.2.1 x.2.2.1 (!x.2.2.2.tail) (maskTo ((layerOf g x.2.1).commit - x.2.2.1 * 64)) [] x.2.2.2.shelf s).getD s) s
    let s := recUpd q (fun r => { r with expiry := 0 }) s
    let s := { s with req := { s.req with recalls := satInc s.req.recalls } }
    match galleyOf s q with
    | none => s
    | some g' =>
      mirrorSend g' (recallWrites s g' (s.pair.state == 5 && !g.copied) pages) .none (if mirrors s g' then meterT2 g.tenant n s else s)

end Sys2Proof.Machine
end

