-- ==== Sys2Proof/Machine/Stages.lean ====
section
/-!
DEFINITION. A stage's side of a request (08): admission on its prompt node, members and generation node (R219, R220,
R237), the step and chunk boundary (R218, R221 to R226), COMMIT and its acknowledgement, hand-over (R222, R223), pause
(R231), drop (R228 to R230) and resume (R232, R233).
-/

namespace Sys2Proof.Machine

/-- This device owns the request's galley, by its record. -/
def ownerView (r : Rec) : Bool := r.view.toNat.testBit 1

/-- This device is the request's anchor, by its record. -/
def anchorView (r : Rec) : Bool := r.view.toNat.testBit 0

/-! ### Drop (08 R228 to R230) -/

/-- Drop the galley from the member that owns it, and from its partner (08 R230, R231). A survivor's spare frees what it has
received of a galley that is not live-mirrored yet (09 R249). -/
def memberDrop (q : ReqId) (s : State) : State :=
  match galleyOf s q with
  | none => s
  | some g =>
    let s := freeGalley q s
    let drop : TrayReq := .drop (moverHdr s (partnerOr s) 0xD q) q
    if s.pair.state = 5 && !g.mirrored && g.copied then
      let s := journal (journalOf drop) s
      stageDropped q (if s.pair.alone then s else trayIssue (partnerOr s) drop (.silver q) s)
    else mirrorSend g [drop] (.dropDone q) s

/-- The owner drops its stage: its record is DRAINING with the code, and every live member is told; while a shelve or a
recall runs, the drop waits for it (08 R228, R231). -/
def stageDrop (q : ReqId) (c : Status) (s : State) : State :=
  match recLive s q with
  | none => s
  | some r =>
    if r.state = 7 ∧ r.dropWait ≠ [] then s else
    let s := recUpd q (fun r => { r with state := 7, status := codeOf c, boundary := none }) s
    match galleyOf s q with
    | some g => if g.op = .idle then memberDrop q s else galleyUpd q (fun g => { g with dropAfter := true }) s
    | none =>
      let live := liveMembers s r
      if live.isEmpty then stageDropped q s else
      live.foldl (fun s d => trayIssue d (.drop (moverHdr s d 0xD q) q) (.drop q) s)
        (recUpd q (fun r => { r with dropWait := live }) s)

/-- A member has acknowledged the drop. -/
def dropAcked (q : ReqId) (slot : Nat) (s : State) : State :=
  match recLive s q with
  | none => s
  | some r =>
    if r.dropWait.contains slot then
      let left := r.dropWait.filter (fun d => d != slot)
      let s := recUpd q (fun r => { r with dropWait := left }) s
      if left.isEmpty then stageDropped q s else s
    else s

/-- A terminal code reaches this stage: in ADMITTED and PAUSED it acts at once, in RESUMING the recall completes first,
in every other state it holds at the next boundary (08 R218, R228). A device that does not own the galley keeps it for the
hand-over that may make it the owner (08 R229). -/
def endStage (q : ReqId) (c : Status) (s : State) : State :=
  match recLive s q with
  | none => s
  | some r =>
    if !ownerView r then (if anchorView r then s else addCond q c s)
    else if r.state = 1 || r.state = 5 || r.state = 6 then stageDrop q c s
    else if r.state = 7 then s
    else addCond q c s

/-- The serving member has become the owner at a pause: what waited for the request's next boundary acts at once (08 R218,
R228). -/
def pausedEnds (q : ReqId) (s : State) : State :=
  match recLive s q with
  | none => s
  | some r =>
    if !ownerView r || r.state ≠ 5 then s else
    match firstCode (r.conds ++ (if r.flags.toNat.testBit 2 then [.cancelled] else [])) with
    | some c => stageDrop q c s
    | none => s

/-! ### Tokens (08 R227) -/

/-- The last stage sends the tokens of a committed step to the stage-0 owner and to the anchor. -/
def sendTokens (q : ReqId) (pos : Nat) (toks : List Word) (s : State) : State :=
  match recLive s q with
  | none => s
  | some r =>
    if !r.lastStage then s else
    let m : TokenMsg := { req := q, pos := pos, tokens := toks }
    let s := sendFw r.gen0 r.epoch (.token m) s
    if r.anchor = r.gen0 then s else sendFw r.anchor r.epoch (.token m) s

/-! ### COMMIT by the owner (08 R215, R221, R225, R226) -/

/-- Accepted drafts of a step: at most SPEC_LEN, and none when a speculative row drew RETRY_LATER or was lost with its member
(08 R225, R235). -/
def acceptedOf (r : Rec) (e : StepEnd) : Nat := if r.noSpec then 0 else min e.accepted r.specLen

/-- A step's end with no more drafts than it may accept: the token after the last accepted one is the pending token (08
R225). -/
def stepCut (r : Rec) (e : StepEnd) : StepEnd :=
  let a := acceptedOf r e
  if r.state = 4 && decide (a < e.accepted) then
    { e with accepted := a, pending := e.tokens.getD (a + 1) e.pending, tokens := e.tokens.take (a + 1), endToken := false }
  else e

/-- The committed length that a boundary asks for. -/
def boundaryLen (r : Rec) (e : StepEnd) : Nat := if r.state = 4 then r.commitLen + 1 + e.accepted else r.prefilled + e.chunk

/-- The boundary ends the prefill in progress. -/
def lastOf (r : Rec) (e : StepEnd) : Bool := e.lastChunk || decide (r.promptLen ≤ boundaryLen r e)

/-- SPEC_MAX of the committed forme, at most 16 (02 R45, 08 R224). -/
def specMaxOf (s : State) : Nat := min 16 (s.forme.committed.elim 0 (fun c => c.role.specMax.toNat))

/-- The owner's record once the boundary's COMMIT is acknowledged. A prefill over history alone forms no token: the pending token
stays (08 R233). -/
def committedRec (s : State) (r : Rec) (e : StepEnd) : Rec :=
  let n := boundaryLen r e
  let (first, layers) := match s.forme.committed with
    | some c => (c.header.firstLayer.toNat, c.header.layerCount.toNat)
    | none => (0, 0)
  let r' := chainCommit first layers r.commitLen n r
  { r' with
    commitLen := n, events := r'.events ++ stepCommitted n r.stepEvents, stepEvents := []
    geoms := digestAdd (geomId s) r'.geoms, fws := fwAdd s.sec.fwVersion r'.fws
    formes := digestAdd s.forme.digest r'.formes
    prefilled := if r.state = 4 then max r.prefilled n else n
    pending := if r.state = 4 || (lastOf r e && !r.replay) then e.pending else r.pending
    replay := r.replay && !lastOf r e, specLen := min e.nextSpec (specMaxOf s), noSpec := false, boundary := none }

/-- The owner writes token identifiers into the history pages of every live member: one PAGE of KIND 2 for each part of
1,024 tokens touched, LAYER carrying the first token's index in its part (08 R221, R227; log entry 46). -/
def historyWrite (q : ReqId) (start : Nat) (toks : List Word) (s : State) : State :=
  match recLive s q with
  | none => s
  | some r =>
    if toks.isEmpty then s else
    let parts := (List.range ((start + toks.length - 1) / 1024 - start / 1024 + 1)).map (fun i =>
      let lo := max start ((start / 1024 + i) * 1024)
      let hi := min (start + toks.length) ((start / 1024 + i + 1) * 1024)
      let p : PagePart :=
        { req := q, layer := BitVec.ofNat 16 (lo % 1024), kind := 2, partNo := lo % 16384 / 1024, lastPart := false
          lpage := BitVec.ofNat 32 (lo / 16384)
          bytes := (((toks.drop (lo - start)).take (hi - lo)).map (fun t => leBytes 4 t.toNat)).flatten, digest := 0 }
      p)
    (liveMembers s r).foldl (fun s d => parts.foldl (fun s p => trayIssue d (.page (moverHdr s d 0xD q) p) .other s) s) s

/-- The owner issues COMMIT for the boundary its record holds (08 R215). -/
def commitIssue (q : ReqId) (s : State) : State :=
  match recLive s q with
  | none => s
  | some r =>
    match r.boundary with
    | none => s
    | some e =>
      let s := if r.stage = 0 && r.flags.toNat.testBit 1 then
        historyWrite q r.commitLen (e.tokens.take (boundaryLen r e - r.commitLen)) s else s
      let d := r.servingSlot.toNat % 16
      trayIssue d (.commit (moverHdr s d 0xD q) q (BitVec.ofNat 32 (boundaryLen r e)) r.step
        (recUpdate (committedRec s r e)) .good) (.commit q) s

/-- The fence before a hand-over: it covers every request issued so far to a live member (08 R222 step 2, 10 R283). With
nothing outstanding the COMMIT goes out at once. -/
def fenceIssue (q : ReqId) (s : State) : State :=
  match recLive s q with
  | none => s
  | some r =>
    let marks := ((liveMembers s r).filter (fun d => !(trayDst s d).out.isEmpty)).map
      (fun d => (d, (((trayDst s d).out.map (fun o => o.seq)).getLast?).getD 0))
    if marks.isEmpty then commitIssue q s
    else { s with near := { s.near with fences := s.near.fences ++ [{ marks := marks, req := q, code := none }] } }

/-- The compare-and-swap on OWNER_WORD that moves ownership from one device to another (10 R280). -/
def ownerSwapFrom (q : ReqId) (old d : DevId) (why : TrayWhy) (s : State) : State :=
  match recLive s q with
  | none => s
  | some r =>
    let sv := r.servingSlot.toNat % 16
    let h := { moverHdr s sv 0xC q with op := 0x24 }
    trayIssue sv (.ownerCas h q (BitVec.ofNat 64 (old.toNat + 65536 * r.count))
      (BitVec.ofNat 64 (d.toNat + 65536 * (r.count + 1)))) why s

/-- The compare-and-swap by which the owner passes its galley to device `d`. -/
def ownerSwap (q : ReqId) (d : DevId) (why : TrayWhy) (s : State) : State := ownerSwapFrom q (myDev s) d why s

/-- The hand-over starts (08 R218, R222 step 4). -/
def handoverStart (q : ReqId) (s : State) : State :=
  match recLive s q with
  | none => s
  | some r =>
    let s := recUpd q (fun r => { r with state := 3 }) s
    let s := { s with req := { s.req with
      handovers := s.req.handovers ++ [{ req := q, dest := r.gen, count := r.count, casAt := some s.tb }] } }
    ownerSwap q r.gen (.handover q) s

/-- The swap is confirmed on both members: the record goes to the new owner, and this device's is freed, unless it is the
anchor's (08 R222 steps 5 and 6, R218). -/
def handoverDone (q : ReqId) (s : State) : State :=
  match recLive s q, s.req.handovers.find? (fun h => h.req == q) with
  | some r, some h =>
    let s := { s with req := { s.req with
      handovers := s.req.handovers.filter (fun h => h.req != q), handoverCount := satInc s.req.handoverCount } }
    let u := recUpdate { r with owner := h.dest, count := r.count + 1, state := 4 }
    let d := h.dest.toNat % 16
    let s := trayIssue d (.record (moverHdr s d 0xD q) q u) (.record q) s
    if anchorView r then recUpd q (fun r => { r with state := 4, view := 1, owner := h.dest }) s else recFree q s
  | _, _ => s

/-- The swap to the serving member is confirmed at a pause: the stage reports to the anchor and the owner's record is
freed, unless it is the anchor's (08 R231, 14 R377). -/
def pauseDone (q : ReqId) (s : State) : State :=
  match recLive s q with
  | none => s
  | some r =>
    let (rep, s) := stageReport r .ok s
    let s := sendFw r.anchor r.epoch (.confirmation q r.stage (some rep)) s
    if anchorView r then recUpd q (fun r => { r with view := 1, flags := r.flags &&& 0xF7 }) s else recFree q s

/-- Every live member empties the galley for a re-prefill from position 0: COMMIT 0 is written for every layer, and the
owner's record goes back (08 R233; log entry 47). -/
def ownerReset (q : ReqId) (s : State) : State :=
  match recLive s q with
  | none => s
  | some r =>
    let layers := match s.forme.committed with
      | some c => c.header.layerCount.toNat
      | none => 0
    let s := recUpd q (fun r => { chainReset r with commitLen := 0, prefilled := 0, flags := r.flags ||| 0x10 }) s
    (liveMembers s r).foldl (fun s d =>
      let s := (List.range layers).foldl (fun s i => trayIssue d (mapWriteReq s d q (0x100 + 32 * i) 0) .other s) s
      match recLive s q with
      | some r => trayIssue d (.record (moverHdr s d 0xD q) q (recUpdate r)) .other s
      | none => s) s

/-- The next prefill segment starts (16 R421): from the committed length, or from 0 with every galley dropped. -/
def nextSegment (q : ReqId) (e : StepEnd) (s : State) : State :=
  if e.nextSegment = 0 then s
  else if e.restart then
    ownerReset q (recUpd q (fun r => { r with state := 2, promptLen := e.nextSegment }) s)
  else recUpd q (fun r => { r with state := 2, promptLen := r.commitLen + e.nextSegment }) s

/-- A DEGRADED event of the colophon (14 R379), once a stage. -/
def degradedEvent (s : State) (r : Rec) : List ColophonEvent :=
  if r.degraded then [] else
  [{ type := 5, arg := 0, layer := 0, segment := 0, stage := r.stage, pos := r.commitLen, count := 0
     data := [BitVec.ofNat 32 (devOfSlot s r.servingSlot.toNat).toNat, 0, 0, 0] }]

/-- The COMMIT of a boundary is acknowledged; `one` when it completed with one copy (08 R218, R225, R226, R245). -/
def commitAcked (q : ReqId) (one : Bool) (s : State) : State :=
  match recLive s q with
  | none => s
  | some r =>
    match r.boundary with
    | none => s
    | some e =>
      let r := if one then { r with degraded := true, flags := r.flags ||| 0x40, events := r.events ++ degradedEvent s r } else r
      let r' := committedRec s r e
      let s := recUpd q (fun _ => r') s
      if r.state = 4 then
        let s := { s with req := { s.req with
          specAcc := satAdd s.req.specAcc e.accepted, specRej := satAdd s.req.specRej (r.specLen - e.accepted) } }
        let s := sendTokens q (r.commitLen + 1) (e.tokens.drop 1 ++ [e.pending]) s
        if e.endToken && r.pauseAtEnd then ownerSwap q (devOfSlot s r.servingSlot.toNat) (.pause q) (recUpd q (fun r => { r with state := 5 }) s)
        else if e.endToken || decide (r'.maxLen ≤ r'.commitLen) then stageDrop q .ok s
        else if r.flags.toNat.testBit 3 then
          ownerSwap q (devOfSlot s r.servingSlot.toNat) (.pause q) (recUpd q (fun r => { r with state := 5 }) s)
        else nextSegment q e s
      else if e.lastChunk || decide (r'.promptLen ≤ r'.prefilled) then
        let s := if r.replay then s else sendTokens q r'.commitLen [e.pending] s
        if r.gen = myDev s then recUpd q (fun r => { r with state := 4 }) s else handoverStart q s
      else recUpd q (fun r => { r with state := 2 }) s

/-- The COMMIT of a boundary fails: the request ends at this boundary (08 R215, R236). Of one that has lost its galley the anchor
decides whether it is re-prefilled (R218). -/
def commitFailed (q : ReqId) (c : Status) (s : State) : State :=
  let s := recUpd q (fun r => { r with boundary := none }) s
  match recLive s q with
  | none => s
  | some r =>
    if c = .stateLost then reportEnd q c s
    else stageDrop q c (if r.conds.contains c then s else sendFw r.anchor r.epoch (.retire q c) s)

/-- The answer to an owner's COMMIT (08 R215, R235): a member that no longer serves is asked again where the record now
names the serving member; a failure ends the request. -/
def commitAnswer (q : ReqId) (c : Status) (s : State) : State :=
  match c with
  | .ok => commitAcked q false s
  | .degraded => commitAcked q true s
  | .retryLater => commitIssue q s
  | c => commitFailed q c s

/-! ### Boundaries (08 R218, R228, R229) -/

/-- The deadline of the current turn has passed. -/
def deadlinePassed (s : State) (r : Rec) : Bool := r.deadline != 0 && decide (r.deadline.toNat ≤ s.tb)

/-- The terminal conditions that hold for a request at a boundary (00 R11). -/
def boundaryConds (s : State) (r : Rec) (e : StepEnd) : List Status :=
  r.conds ++ e.codes.filter isTerminal ++ (if r.flags.toNat.testBit 2 then [.cancelled] else [])
    ++ (if deadlinePassed s r then [.deadline] else [])

/-- One request at a step or chunk boundary, on its owner; one whose output is discarded commits nothing and is repeated (09
R246). The COMMIT names the STEP of this node's batch step (08 R224). -/
def boundaryOne (s : State) (e : StepEnd) : State :=
  match recLive s e.req with
  | none => s
  | some r =>
    if !ownerView r || !(r.state = 2 || r.state = 4) || r.boundary.isSome then s else
    match firstCode (boundaryConds s r e) with
    | some c =>
      let s := if r.conds.contains c || c = .cancelled then s else sendFw r.anchor r.epoch (.retire e.req c) s
      stageDrop e.req c s
    | none =>
      if r.redo then recUpd e.req stepDiscard s else
      let s := recUpd e.req (fun r => { r with
        step := s.req.step, boundary := some (stepCut r e), flags := if e.pause then r.flags ||| 8 else r.flags }) s
      if r.state ≠ 4 && lastOf r e && r.gen != myDev s then fenceIssue e.req s else commitIssue e.req s

/-- A request of the batch has a re-run of a segment that has not ended (04 R118). -/
def rerunOpen (s : State) (e : StepEnd) : Bool :=
  match recLive s e.req with
  | some r => ownerView r && !r.reruns.isEmpty
  | none => false

/-- The granules that failed in the scrub since the last boundary retire their frames (07 R187). -/
def scrubbed (s : State) : State :=
  s.tier.scrubBad.foldl (fun s g => retireFrame (g / 128) (markLost g s)) { s with tier := { s.tier with scrubBad := [] } }

/-- A batch step or chunk ends (08 R218): it is complete once every re-run of its segments is (04 R118). A batch step advances
this node's STEP (08 R224). While fenced a step boundary does nothing (09 R260). -/
def stepBoundary (es : List StepEnd) (s : State) : State :=
  if fenced s || es.any (rerunOpen s) then s else
  let decode := roleOf s = 2 || es.any (fun e => (recLive s e.req).any (fun r => r.state == 4))
  let s := es.foldl boundaryOne (scrubbed s)
  if decode then { s with req := { s.req with step := s.req.step + 1 } } else s

/-! ### Admission at a stage (08 R219, R220, R237) -/

/-- A live slot of this tray that the current map gives role `role`, the lowest one. -/
def mapNode (s : State) (role : Nat) : Option DevId :=
  match mapCurrent s with
  | none => none
  | some m => ((List.range 16).find? (fun d => m.roles.getD d 0 == role && slotLive s d)).map (devOfSlot s)

/-- The role check of an admission: every named node holds its role under EPOCH (08 R219); a node that prefills for want of a
prompt node is a generation node, and one that decodes for want of a generation node is a prompt node (R237). -/
def rolesHold (s : State) (e : Word) (r : Route) : Bool :=
  let role (d : BitVec 16) : Nat := mapRole s e (d.toNat % 16)
  (decide (role r.prompt = 1) || (r.prompt == r.gen && decide (role r.prompt = 2)))
    && (decide (role r.gen = 2) || (decide (role r.gen = 1) && (mapNode s 2).isNone))
    && decide (mapRole s e (r.pair.toNat % 16) = 3) && decide (mapRole s e ((r.pair.toNat + 1) % 16) = 3)

/-- Every rank of the partition has a cluster: a FAULTED one has its region's spare to move to, and in full geometry none is
FAULTED (03 R91). -/
def partFits (s : State) (p : Nat) : Bool :=
  (regionsOf s p).all (fun g => (!fullGeom s && s.repro.spare.contains g)
    || ((List.range 16).all (fun i => (cluster s (16 * g + i)).state != 6)))

/-- What every device of the stage checks of an admission before it allocates (00 R12). -/
def admissionCodes (m : StageAdmission) (s : State) : List Status :=
  let entry := m.route[m.stage.toNat]?
  let shape : Status := match entry with
    | some e => if m.resv ≠ 0 || e.resv ≠ 0 || m.copy.any (fun c => c.resv != 0) then .malformed else .ok
    | none => .malformed
  let forme : Status := match s.forme.committed with
    | none => .formeMismatch
    | some c => if c.header.modelDigest = m.modelDigest && (Tab.find c.parts m.part.toNat).isSome
        && decide (c.header.firstLayer.toNat = m.firstLayer) && (formeServes s || s.forme.state = 2)
        && partFits s m.part.toNat then .ok else .formeMismatch
  let retry : Status := if s.forme.state = 2 || partDraining s m.part.toNat || (recIndex s).isNone then .retryLater else .ok
  [shape, forme, epochJudge s true m.epoch, retry]

/-- The record of an admission on a device of the stage. -/
def admissionRec (m : StageAdmission) (e : Route) (view : BitVec 4) (owner : DevId) (resv : Nat) (s : State) : Rec :=
  let lower := e.pair.toNat % 16
  let upper := (lower + 1) % 16
  let sv := if m.req.toNat % 2 = 0 then lower else upper
  let sv := if slotLive s sv then sv else lower + upper - sv
  { reqId := m.req, state := 1, view := view, flags := BitVec.ofNat 8 m.flags.toNat, tenant := m.tenant, part := m.part
    partGen := partGenOf s m.part.toNat, context := m.context, priority := m.priority, stage := m.stage
    epoch := m.epoch, deadline := m.deadline, promptLen := m.promptLen.toNat, maxLen := m.maxLen.toNat
    anchor := m.anchor, owner := owner, pair := BitVec.ofNat 8 lower
    servingSlot := BitVec.ofNat 8 sv, resv := resv
    admitTb := BitVec.ofNat 64 s.tb, ttl := m.ttl, gen := BitVec.ofNat 12 e.gen.toNat
    prompt := BitVec.ofNat 12 e.prompt.toNat, colophon := Config.freeWord s.free
    map := if view.toNat ≥ 4 then Config.freeWord (s.free + 1) else 0xFFFFFFFF
    lastStage := m.stage.toNat + 1 == m.route.length
    gen0 := BitVec.ofNat 12 ((m.route.head?).elim 0 (fun r => r.gen)).toNat }

/-- Put an admission's record into the table, keeping the anchor's view where this device is the anchor too (08 R207). -/
def admissionPut (r : Rec) (s : State) : State :=
  match recLive s r.reqId with
  | some a => recUpd r.reqId (fun _ => { r with
      view := a.view ||| r.view, hostTag := a.hostTag, admitTb := a.admitTb, pauseAtEnd := a.pauseAtEnd }) { s with free := s.free + 2 }
  | none => recCreate r { s with free := s.free + 2 }

/-- Positions awaiting prefill on this device (08 R237). -/
def prefillBacklog (s : State) : Nat :=
  ((s.req.recs.filter (fun e => ownerView e.2 && (e.2.state == 1 || e.2.state == 2))).map
    (fun e => e.2.promptLen - e.2.prefilled)).sum

/-- The device that owns the galley from creation: the prompt node, or the generation node where the admitting node has decided
so (08 R237). -/
def firstOwner (m : StageAdmission) (e : Route) : DevId :=
  if m.byGen then BitVec.ofNat 12 e.gen.toNat else BitVec.ofNat 12 e.prompt.toNat

/-- An excluded node of a route entry is replaced by another node of its role in the current map, or by the node `other` of the other
role where there is none (08 R237); of another tray this device has no map. -/
def nodeLive (s : State) (role : Nat) (d other : BitVec 16) : BitVec 16 :=
  if !excluded s (d.toNat % 4096) then d
  else if d.toNat / 16 ≠ (myTray s).toNat then other
  else match mapNode s role with
    | some x => BitVec.ofNat 16 x.toNat
    | none => other

/-- The route entry of a stage as this device can serve it: the generation node prefills when every prompt node is excluded, and a
prompt node decodes, as the hand-over target, when every generation node is (08 R237). -/
def routeLive (s : State) (e : Route) : Route :=
  { e with
    prompt := nodeLive s 1 e.prompt (nodeLive s 2 e.gen e.prompt)
    gen := nodeLive s 2 e.gen (nodeLive s 1 e.prompt e.gen) }

/-- A stage admission goes to the node that admits: the named prompt node, or what stands in for it (08 R219, R237). -/
def admitForward (m : StageAdmission) (s : State) : State :=
  match m.route[m.stage.toNat]? with
  | none => s
  | some e =>
    let e := routeLive s e
    sendFw (BitVec.ofNat 12 e.prompt.toNat) m.epoch (.stageAdmission { m with route := m.route.set m.stage.toNat e }) s

/-- Resident PAUSED galleys that this member serves, longest paused first (08 R237). -/
def pausedResident (s : State) (p : Nat) : List Galley :=
  ((s.req.galleys.map (fun e => e.2)).filter (fun g => g.part.toNat == p && g.pausedAt.isSome && !isShelved g
      && g.op == .idle && g.serving == mySlot s)).foldl (fun r x => insertBy (fun a b => decide (a.pausedAt.getD 0 ≤ b.pausedAt.getD 0)) x r) []

/-- A pool cannot hold a reservation: resident PAUSED galleys are shelved early, oldest pause first, until what they hold
makes up the deficit (08 R237). -/
def shelveEarly (p deficit : Nat) (s : State) : State :=
  ((pausedResident s p).foldl (fun (a : State × Nat) g =>
    if a.2 = 0 then a else (shelveStart g.reqId false a.1, a.2 - g.resv)) (s, deficit)).1

/-- A new galley on this member (08 R211, R219). -/
def newGalley (m : StageAdmission) (r : Rec) (n : Nat) (s : State) : Galley :=
  let (layers, first) := match s.forme.committed with
    | some c => (c.header.layerCount.toNat, c.header.firstLayer.toNat)
    | none => (0, 0)
  let (b, v, t) := latentBinding s m.part.toNat
  let sv : Slot := BitVec.ofNat 4 r.servingSlot.toNat
  let at_ : GLayer := { commit := r.commitLen, specEnd := r.commitLen }
  let layer : Tab GLayer := if m.copy.isNone then [] else (List.range layers).map (fun i => (first + i, at_))
  let other : Slot := if sv = mySlot s then BitVec.ofNat 4 (partnerOr s) else mySlot s
  { reqId := m.req, part := m.part, tenant := m.tenant, layers := layers, firstLayer := first, owner := r.owner, count := 0
    serving := sv, partner := other, slotB := b, coded := false, ver := v, table := t, hist := [], shelveSeq := 0
    expiry := 0, rec_ := r, layer := layer, resv := n, pausedAt := if m.copy.isSome && sv == mySlot s then some s.tb else none, op := .idle, drainShelf := false, faultAt := none
    mirrored := s.pair.state == 5 || s.pair.state == 6, verified := s.pair.state == 6, copied := false
    dropAfter := false, resume := none
    source := m.copy.bind (fun _ => (m.route[m.stage.toNat]?).map (fun e => BitVec.ofNat 12 e.prompt.toNat)) }

/-- The record of a galley that a copy-out creates: PAUSED with what the source's record says, owned by the serving member (08
R231, R234; log entry 170). -/
def copyRec (m : StageAdmission) (sv : Slot) (r : Rec) (s : State) : Rec :=
  match m.copy with
  | none => r
  | some u =>
    let o := devOfSlot s sv.toNat
    { followUpdate u r with
      state := 5, owner := o, servingSlot := BitVec.ofNat 8 sv.toNat, partGen := partGenOf s m.part.toNat
      view := if sv = mySlot s then 6 else 8, count := 0 }

/-- A member creates the galley of an admission: its answer, and its state (08 R219, R220, R237; 09 R240). -/
def memberAdmit (m : StageAdmission) (e : Route) (s : State) : Status × State :=
  let layers := match s.forme.committed with
    | some c => c.header.layerCount.toNat
    | none => 0
  let n := reservation layers m.maxLen.toNat (m.stage = 0 && m.flags.toNat.testBit 1)
  let pair : Status := if s.pair.state = 0 then .formeMismatch
    else if s.pair.state = 1 || s.pair.state = 4 then .retryLater else .ok
  let dup : Status := if (galleyOf s m.req).isSome then .malformed else .ok
  let (q, sq) := quotaReserve m.tenant n s
  let short := decide (poolUsable s m.part.toNat < poolPromised s m.part.toNat + n)
  let codes := admissionCodes m s ++ [pair, dup, q, if short then .retryLater else .ok]
  match r12First codes with
  | some c =>
    (c, if c = .retryLater && short then shelveEarly m.part.toNat (poolPromised s m.part.toNat + n - poolUsable s m.part.toNat) s
        else s)
  | none =>
    let alone := s.pair.state == 3
    let r0 := admissionRec m e 4 (firstOwner m e) n s
    let sv : Byte := if alone then BitVec.ofNat 8 (mySlot s).toNat else r0.servingSlot
    let r := copyRec m (BitVec.ofNat 4 sv.toNat)
      { r0 with servingSlot := sv, view := if sv.toNat = (mySlot s).toNat then 4 else 8 } s
    let s := admissionPut r sq
    (.ok, { s with req := { s.req with galleys := Tab.put s.req.galleys m.req.toNat (newGalley m r n s) } })

/-- The stage's prompt node admits, forwards and answers for its stage (08 R219); it, or the generation node in its place, decides
which of the two prefills (R237). -/
def promptAdmit (m : StageAdmission) (e : Route) (s : State) : State :=
  let roles : Status := if rolesHold s m.epoch e then .ok else .epochStale
  let own := admissionCodes m s ++ [roles]
  match r12First own with
  | some c => sendFw m.anchor m.epoch (.refusal m.req c) s
  | none =>
    let m := { m with byGen := e.prompt == e.gen || decide (s.req.backlog.toNat < prefillBacklog s) }
    let upper : DevId := BitVec.ofNat 12 (e.pair.toNat / 16 * 16 + (e.pair.toNat + 1) % 16)
    let peers : List DevId := [BitVec.ofNat 12 e.pair.toNat, upper, BitVec.ofNat 12 e.gen.toNat].filter (fun d => d != myDev s)
    let s := peers.foldl (fun s d => sendFw d m.epoch (.stageAdmission m) s) s
    match r12First [m.lower, m.upper, m.genAns] with
    | some c => sendFw m.anchor m.epoch (.refusal m.req c) s
    | none =>
      let o := firstOwner m e
      let s := admissionPut (admissionRec m e (if o = myDev s then 2 else 0) o 0 s) s
      if m.stage.toNat + 1 < m.route.length then
        admitForward { m with
          stage := m.stage + 1, firstLayer := m.firstLayer + s.forme.committed.elim 0 (fun c => c.header.layerCount.toNat) } s
      else sendFw m.anchor m.epoch (.confirmation m.req m.stage none) s

/-- A stage admission reaches a device: the prompt node, a member or the generation node (08 R219). -/
def stageAdmission (m : StageAdmission) (s : State) : State :=
  if fenced s then s else
  match m.route[m.stage.toNat]? with
  | none => sendFw m.anchor m.epoch (.refusal m.req .malformed) s
  | some e =>
    let me := (myDev s).toNat
    let prompt : DevId := BitVec.ofNat 12 e.prompt.toNat
    if e.prompt.toNat = me then promptAdmit m e s
    else if e.pair.toNat = me ∨ e.pair.toNat / 16 * 16 + (e.pair.toNat + 1) % 16 = me then
      let (c, s) := memberAdmit m e s
      sendFw prompt m.epoch (.admitAnswer m.req c) s
    else if e.gen.toNat = me then
      match r12First (admissionCodes m s) with
      | some c => sendFw prompt m.epoch (.admitAnswer m.req c) s
      | none =>
        let o := firstOwner m e
        sendFw prompt m.epoch (.admitAnswer m.req .ok)
          (admissionPut (admissionRec m e (if o = myDev s then 2 else 0) o 0 s) s)
    else s

/-- The anchor that a request identifier names (08 R206). -/
def anchorDev (q : ReqId) : DevId := BitVec.ofNat 12 (q.toNat / 2 ^ 48)

/-- A message names a request of which this device holds no record: STATE_LOST is the answer (08 R209). -/
def unknownReq (q : ReqId) (s : State) : State :=
  if (recFind s q).isNone then sendFw (anchorDev q) 0 (.lost q) s else s

/-- A device of the stage releases what an admission took and says so to the anchor: no record remains (08 R219, 00 R10, R12). A
device that holds no record answers STATE_LOST (08 R209; log entry 168). -/
def releaseStage (q : ReqId) (s : State) : State :=
  match recLive s q with
  | none => sendFw (anchorDev q) 0 (.refusal q .stateLost) s
  | some r =>
    if !(r.state = 1 || (anchorView r && r.state = 7)) then s else
    let s := match galleyOf s q with
      | some g => { (quotaReturn g.tenant g.resv (freePages q (fun _ => true) s)) with
          req := { s.req with galleys := Tab.del s.req.galleys q.toNat } }
      | none => s
    let s := if anchorView r then recUpd q (fun r => { r with view := 1 }) s else recFree q s
    sendFw r.anchor r.epoch (.confirmation q r.stage none) s

/-- The anchor's confirmation of an admission reaches a device of a stage: the prefill may begin (08 R218; log entry 166). -/
def stageConfirmed (q : ReqId) (s : State) : State := recUpd q (fun r => { r with state := if r.state = 1 then 2 else r.state }) s

/-! ### Resume at a stage (08 R232, R233; 07 R197, R201; 02 R66) -/

/-- A REPREFILL event of the colophon (14 R379). -/
def reprefillEvent (r : Rec) (cause : Byte) (commit : Nat) : ColophonEvent :=
  { type := 3, arg := cause, layer := 0, segment := 0, stage := r.stage, pos := 0, count := commit
    data := [BitVec.ofNat 32 commit, 0, 0, 0] }

/-- Terminal conditions that a re-prefill leaves standing (00 R11; 08 R218). -/
def standing (r : Rec) : List Status := r.conds.filter (fun c => c == .cancelled || c == .deadline)

/-- The layers of this member's galley go back to position 0 (08 R233). -/
def memberReset (q : ReqId) (cause : Byte) (s : State) : State :=
  match galleyOf s q with
  | none => s
  | some g =>
    let s := resetGalley q s
    let s := recUpd q (fun r => { chainReset r with
      commitLen := 0, prefilled := 0, flags := r.flags ||| 0x10, expiry := 0, conds := standing r
      events := (chainReset r).events ++ [reprefillEvent r cause r.commitLen] }) s
    mirrorSend g ((List.range g.layers).map (fun i => mapWriteReq s (partnerOr s) q (0x100 + 32 * i) 0)) .none s

/-- The galley is resident again: the owner word passes to the prompt node where there are tokens to prefill, otherwise to the
generation node; once both members hold it the record follows and the stage confirms (08 R218, R222, R232). -/
def resumeReady (q : ReqId) (m : StageResume) (s : State) : State :=
  match galleyOf s q, m.adm.route[m.adm.stage.toNat]? with
  | some g, some e =>
    let prefill := m.restart || m.newTokens != 0
    let live := routeLive s e
    let dest : DevId := BitVec.ofNat 12 (if prefill then live.prompt else live.gen).toNat
    let st : BitVec 4 := if prefill then 2 else 3
    let word := dest.toNat + 65536 * (g.count + 1)
    let s := galleyUpd q (fun g => { setOwner word g with
      pausedAt := none, resume := none, rec_ := { g.rec_ with state := st, owner := dest } }) s
    let s := recUpd q (fun r => { r with state := st, view := r.view &&& 0xD, owner := dest }) s
    mirrorSend g [.ownerFwd (moverHdr s (partnerOr s) 0xD q) q (BitVec.ofNat 64 word)] (.handed q dest m) s
  | _, _ => s

/-- The recall begins: this member serves, and reads the galley's frames (07 R196, 09 R242). -/
def recallBegin (q : ReqId) (s : State) : State :=
  recUpd q (fun r => { r with state := 6 }) (galleyUpd q (fun g => { g with
    op := .recalling ((g.resume.map (fun m => m.newTokens != 0)).getD false), serving := mySlot s
    rec_ := { g.rec_ with state := 6 }, partner := BitVec.ofNat 4 (partnerOr s) }) s)

/-- Change the reservation of a galley on this member. -/
def reserved (q : ReqId) (n : Nat) (s : State) : State :=
  recUpd q (fun r => { r with resv := n }) (galleyUpd q (fun g => { g with resv := n, rec_ := { g.rec_ with resv := n } }) s)

/-- A recall reserves on both members as an admission does, and waits while it does not fit on either (07 R201, R202; log entry
167), while the state mover has no room for it (08 R214), and while the physical function is in a function-level reset (16 R433). -/
def recallStart (q : ReqId) (m : StageResume) (s : State) : State :=
  match galleyOf s q with
  | none => s
  | some g =>
    let n := g.resv + reservation g.layers g.rec_.maxLen false
    let s := galleyUpd q (fun g => { g with resume := some m }) s
    if s.host.flr.contains 0 || decide (4096 ≤ moverOut s) then s else
    match quotaReserve g.tenant (n - g.resv) s with
    | (.ok, s') =>
      let short := poolPromised s g.part.toNat + (n - g.resv) - poolUsable s g.part.toNat
      if short ≠ 0 then shelveEarly g.part.toNat short s
      else
        let s := reserved q n s'
        if mirrors s g then
          trayIssue (partnerOr s) (mapWriteReq s (partnerOr s) q 0xC0 n) (.reserve q)
            (galleyUpd q (fun g => { g with op := .reserving }) s)
        else recallBegin q s
    | (_, _) => s

/-- The partner's part of a reservation: what a recall asks, or what a shelve leaves (07 R201, R202; log entry 167). -/
def reserveAsk (q : ReqId) (n : Nat) (s : State) : Status × State :=
  match galleyOf s q with
  | none => (.stateLost, s)
  | some g =>
    if n ≤ g.resv then (.ok, galleyUpd q (fun g => { g with recalled := false }) (reserved q n (quotaReturn g.tenant (g.resv - n) s)))
    else
      match quotaReserve g.tenant (n - g.resv) s with
      | (.ok, s') =>
        let short := poolPromised s g.part.toNat + (n - g.resv) - poolUsable s g.part.toNat
        if short ≠ 0 then (.quota, shelveEarly g.part.toNat short s) else (.ok, reserved q n s')
      | (c, _) => (c, s)

/-- The partner's answer to a recall's reservation: the recall begins, or gives back what it reserved and waits (07 R202). -/
def reserveAnswer (q : ReqId) (ok : Bool) (s : State) : State :=
  match galleyOf s q with
  | none => s
  | some g =>
    if g.op ≠ .reserving then s
    else if ok && !g.dropAfter then recallBegin q s
    else
      let hist := (g.hist.filter (fun p => inT1 p.2)).length
      let s := reserved q hist (quotaReturn g.tenant (g.resv - hist) (galleyUpd q (fun g => { g with op := .idle }) s))
      if g.dropAfter then memberDrop q s else s

/-- A write of the copy of a galley has not been answered by the spare yet (09 R248). -/
def copyOutstanding (q : ReqId) (s : State) : Bool :=
  let mine (w : TrayWhy) : Bool := match w with
    | .silver x => x == q
    | _ => false
  let x := trayDst s (partnerOr s)
  x.out.any (fun o => mine o.why) || x.waiting.any (fun w => mine w.2)

/-- This member takes the recall: it has fewer state-mover operations outstanding than its partner, or as many and the lower slot
(09 R242; log entry 50). During a bring-in the survivor takes the recall of a galley that the spare does not hold verified and
live-mirrored, and the spare does not (R243, R249). -/
def takesRecall (m : StageResume) (g : Galley) (s : State) : Bool :=
  match partnerSlot s with
  | none => true
  | some p =>
    if s.pair.state == 6 && !trusted s g then false else
    !slotLive s p || s.pair.alone || s.pair.state == 3 || (s.pair.state == 5 && (!g.mirrored || copyOutstanding g.reqId s)) || decide (moverOut s < m.partnerOps)
      || (decide (moverOut s = m.partnerOps) && decide ((mySlot s).toNat < p))

/-- What a resume changes of a member's record (08 R232; 02 R66). -/
def resumeFields (m : StageResume) (s : State) (r : Rec) : Rec :=
  { r with
    epoch := m.adm.epoch, deadline := m.adm.deadline, ttl := m.adm.ttl, promptLen := m.adm.promptLen.toNat
    partGen := if m.restart then partGenOf s m.adm.part.toNat else r.partGen
    gen := BitVec.ofNat 12 ((m.adm.route[m.adm.stage.toNat]?).elim 0 (fun e => e.gen)).toNat
    prompt := BitVec.ofNat 12 ((m.adm.route[m.adm.stage.toNat]?).elim 0 (fun e => e.prompt)).toNat }

/-- A resume at a member that holds the galley: the checks of R232 step 1, then the recall where the galley is shelved. -/
def memberResume (m : StageResume) (s : State) : State :=
  let q := m.adm.req
  match galleyOf s q, recLive s q with
  | some g, some r =>
    let fail (c : Status) : State := sendFw r.anchor m.adm.epoch (.refusal q c) (galleyUpd q (fun g => { g with resume := none }) s)
    let s1 := recUpd q (resumeFields m s) (galleyUpd q (fun g => { g with rec_ := { g.rec_ with ttl := m.adm.ttl } }) s)
    if partDraining s g.part.toNat then fail .retryLater
    else if g.op ≠ .idle then galleyUpd q (fun g => { g with resume := some m }) s1
    else if m.restart then resumeReady q m (memberReset q m.cause s1)
    else if r.partGen ≠ partGenOf s g.part.toNat then fail .formeMismatch
    else if (galleyPages g).any (fun p => p.state == 5) || (isShelved g && decide (g.expiry ≤ s.tb)) then fail .stateLost
    else if isShelved g then recallStart q m s1
    else resumeReady q m (recUpd q (fun r => { r with state := 6 }) s1)
  | _, _ => s

/-- A resume at a member without the galley: a re-prefill creates it anew, but not at stage 0, whose pair has lost the token history
with it; a member that serves nothing leaves the answer to its partner, and any other has lost it (08 R209, R233; 09 R240). -/
def memberWithout (m : StageResume) (e : Route) (s : State) : State :=
  let q := m.adm.req
  if m.restart && m.adm.stage != 0 then
    match memberAdmit { m.adm with firstLayer := s.forme.committed.elim 0 (fun c => c.header.firstLayer.toNat) } e s with
    | (.ok, s) => if (galleyOf s q).any (fun g => g.serving == mySlot s) then resumeReady q m s else s
    | (c, s) => sendFw m.adm.anchor m.adm.epoch (.refusal q c) s
  else if s.pair.state = 2 || s.pair.state = 3 || s.pair.state = 5 then sendFw m.adm.anchor m.adm.epoch (.refusal q .stateLost) s
  else s

/-! ### A node that takes the place of an excluded owner (08 R223, R235) -/

/-- The node that owns a request once its owner is excluded: the generation node where the whole prompt is committed, which
completes a hand-over (08 R223), the prompt node otherwise, which goes on from PREFILLED (R235). -/
def nextOwner (r : Rec) : DevId := if r.promptLen ≤ r.commitLen then r.gen else r.prompt

/-- The serving member of a galley whose owner is excluded gives RECORD to the node that takes the galley over, or to the owner
that the word names already (08 R223, R235; log entry 67). -/
def recordTo (q : ReqId) (s : State) : State :=
  match galleyOf s q, recLive s q with
  | some g, some r =>
    if g.serving ≠ mySlot s || g.owner = myDev s then s else
    let d := if excluded s g.owner.toNat then nextOwner { g.rec_ with gen := r.gen, prompt := r.prompt } else g.owner
    if excluded s d.toNat || d.toNat / 16 ≠ (myTray s).toNat then s else
    trayIssue (d.toNat % 16) (.record (moverHdr s (d.toNat % 16) 0xD q) q
      { recUpdate g.rec_ with owner := g.owner, count := g.count, state := if g.rec_.promptLen ≤ g.rec_.commitLen then 4 else 2 })
      (.record q) s
  | _, _ => s

/-- A node of the stage was excluded: every device of the stages follows the routing that names its replacement, a replacement
gets a record, and the serving member hands it RECORD (08 R235). -/
def takeOverAt (m : StageResume) (e : Route) (s : State) : State :=
  let q := m.adm.req
  let me := (myDev s).toNat
  match recLive s q with
  | some _ =>
    recordTo q (recUpd q (fun r => { r with
      gen := BitVec.ofNat 12 e.gen.toNat, prompt := BitVec.ofNat 12 e.prompt.toNat
      gen0 := BitVec.ofNat 12 ((m.adm.route.head?).elim 0 (fun r => r.gen)).toNat }) s)
  | none =>
    if e.prompt.toNat = me ∨ e.gen.toNat = me then
      admissionPut { admissionRec m.adm e 0 0 0 s with
        commitLen := m.commitLen.toNat, prefilled := m.commitLen.toNat, state := 2 } s
    else s

/-- The owner word names this node: it owns the request, in DECODE or, with part of the prompt not committed, in PREFILL (08 R223,
R235). -/
def takeOverDone (q : ReqId) (count : Nat) (s : State) : State :=
  recUpd q (fun r => if ownerView r then r else { r with
    view := r.view ||| 2, owner := myDev s, count := count, boundary := none, redo := false, noSpec := false
    state := if r.state = 7 then 7 else if r.promptLen ≤ r.commitLen then 4 else 2 }) s

/-- The answer to the compare-and-swap from an excluded owner: it took effect, or the word already names this node (08 R223). -/
def takeOverAnswer (q : ReqId) (c : Status) (old : Nat) (s : State) : State :=
  match recLive s q with
  | none => s
  | some r =>
    if c = .ok then takeOverDone q (r.count + 1) s
    else if c = .denied && decide (old % 4096 = (myDev s).toNat) then takeOverDone q (old / 65536) s
    else s

/-- The resume is a recall that the partner accepts: the galley is shelved and not expired, and its partition neither drains nor has
been replaced (07 R197, 08 R232 step 1). -/
def partnerRecalls (m : StageResume) (g : Galley) (s : State) : Bool :=
  isShelved g && !m.restart && !partDraining s g.part.toNat && decide (s.tb < g.expiry)
    && (recLive s g.reqId).any (fun r => r.partGen == partGenOf s g.part.toNat)

/-- A resume reaches a device of a stage: a member, or a node that gets a record (08 R232). A shelved galley is recalled by the
member that R242 names, a resident one is resumed by the member that serves it. -/
def resumeStage (m : StageResume) (s : State) : State :=
  if fenced s then s else
  match m.adm.route[m.adm.stage.toNat]? with
  | none => s
  | some e =>
    let me := (myDev s).toNat
    if m.takeOver then takeOverAt m e s
    else if e.pair.toNat = me ∨ e.pair.toNat / 16 * 16 + (e.pair.toNat + 1) % 16 = me then
      match galleyOf s m.adm.req with
      | none => memberWithout m e s
      | some g =>
        if (if isShelved g && !m.restart then takesRecall m g s else g.serving == mySlot s) then memberResume m s
        else
          let recalls := partnerRecalls m g s
          recUpd m.adm.req (fun r => { resumeFields m s r with
              conds := if m.restart then standing r else r.conds, state := if recalls && r.state == 5 then 6 else r.state })
            (if recalls then galleyUpd m.adm.req (fun g => { g with recalled := true }) s else s)
    else if e.prompt.toNat = me ∨ e.gen.toNat = me then
      let r := { admissionRec m.adm e 0 0 0 s with commitLen := m.commitLen.toNat, state := 6 }
      admissionPut { r with prefilled := m.commitLen.toNat }
        (recUpd m.adm.req (fun r => { r with view := r.view &&& 1 }) s)
    else s

/-- A shelve or a recall has ended: what waited for it goes on, a drop before a resume (08 R228, R231). -/
def afterShelf (q : ReqId) (s : State) : State :=
  match galleyOf s q, recLive s q with
  | some g, some r =>
    if g.dropAfter then memberDrop q s else
    match g.resume with
    | some m => if !isShelved g && !m.restart && r.state == 6 then resumeReady q m s else memberResume m s
    | none => s
  | _, _ => s

/-! ### The record at its new owner (08 R222 step 7) -/

/-- RECORD reaches a device that keeps no galley of the request: the one it names as owner owns it from here on (08 R222 step 7);
where it names an excluded owner, the node that takes its place takes OWNER_WORD from it (08 R223, R235). -/
def ownerRecord (q : ReqId) (u : RecordUpdate) (s : State) : State :=
  let s := recUpd q (fun r =>
    let r' := followUpdate u r
    if u.owner = myDev s then
      { r' with view := r'.view ||| 2, state := if r.state = 7 then 7 else u.state, boundary := none, redo := false, noSpec := false }
    else r') s
  match recLive s q with
  | none => s
  | some r =>
    if excluded s u.owner.toNat && !ownerView r && nextOwner r = myDev s then ownerSwapFrom q u.owner (myDev s) (.takeOver q) s else s

end Sys2Proof.Machine
end

