-- ==== Sys2Proof/Machine/Anchor.lean ====
section
/-!
DEFINITION. The anchor's side of a request (08 R206, R207, R219, R228 to R233; 16 R418 to R426): checking capsules in the
order of R12, admitting, resuming and cancelling, collecting the stages' confirmations and reports, emitting tokens, and
posting the completion.
-/

namespace Sys2Proof.Machine

/-! ### Messages to the stages -/

/-- The devices of one stage: prompt node, generation node and both members. -/
def stageDevs (r : Route) : List DevId :=
  ([r.prompt.toNat, r.gen.toNat, r.pair.toNat, r.pair.toNat / 16 * 16 + (r.pair.toNat + 1) % 16].map (BitVec.ofNat 12)).eraseDups

/-- The anchor sends a message to every device of every stage. -/
def toStages (a : AnchorInfo) (e : Word) (m : FwMsg) (s : State) : State :=
  a.route.foldl (fun s r => (stageDevs r).foldl (fun s d => sendFw d e m s) s) s

/-- What the anchor keeps of a request. -/
def anchorOf (s : State) (q : ReqId) : Option AnchorInfo := Tab.find s.req.anchors q.toNat

/-- Change what the anchor keeps of a request. -/
def anchorUpd (q : ReqId) (f : AnchorInfo → AnchorInfo) (s : State) : State :=
  { s with req := { s.req with anchors := Tab.mod s.req.anchors q.toNat f } }

/-! ### Checking a capsule (00 R12; 15 R405, R406; 16 R419 to R422) -/

/-- Each later START of an ADMIT is 0 or not below the end of the segment before it (16 R421). -/
def laterStarts (maxLen : Nat) : Nat → List PrefillSeg → Bool
  | _, [] => true
  | pos, g :: rest =>
    let st := g.start.toNat
    (decide (st = 0) || decide (pos ≤ st)) && decide (st ≤ maxLen) && decide (1 ≤ g.tokens.length)
      && laterStarts maxLen (st + g.tokens.length) rest

/-- The segment rules of an ADMIT (16 R420, R421). -/
def admitSegments (b : CapsuleBody) : Bool :=
  match b.segments with
  | [] => false
  | g :: rest =>
    decide (b.segments.length ≤ 64) && g.start == 0 && decide (1 ≤ g.tokens.length)
      && laterStarts b.maxLen.toNat g.tokens.length rest

/-- The segment rules of a RESUME: at most one segment, which starts at COMMIT_LEN (16 R420, R421). -/
def resumeSegments (b : CapsuleBody) (r : Option Rec) : Bool :=
  match b.segments, r with
  | [], _ => true
  | [g], some r => g.start.toNat == r.commitLen && decide (1 ≤ g.tokens.length) && decide (g.start.toNat ≤ r.maxLen)
  | [g], none => decide (1 ≤ g.tokens.length)
  | _, _ => false

/-- BODY_LEN that the body's segments make (16 R420). -/
def bodyLen (b : CapsuleBody) : Nat :=
  0x48 + 8 * b.segments.length + 4 * (b.segments.map (fun g => g.tokens.length)).sum

/-- P is zero (16 R420). -/
def paramsZero (b : CapsuleBody) : Bool :=
  b.flags == 0 && b.maxLen == 0 && b.seed == 0 && b.temp == 0 && b.topP == 0 && b.topK == 0 && b.endToken == 0

/-- The clear structure of an entry and its capsule (16 R417, R419; 00 R5). -/
def capsuleClear (e : SqEntry) (c : Capsule) : Bool :=
  let routed := c.type = 1 || c.type = 2
  c.magic == 0x41434E44 && (c.type == 1 || c.type == 2 || c.type == 3 || c.type == 4) && c.resv == 0 && e.resv == 0
    && c.routing.all (fun r => r.resv == 0) && e.addr.toNat % 64 == 0 && decide (e.len.toNat ≤ 8388608)
    && e.len == c.size && c.size.toNat == 64 + 8 * c.stages.toNat + c.bodyLen.toNat + 16
    && c.routing.length == c.stages.toNat && decide (c.part.toNat < 8)
    && (if routed then decide (1 ≤ c.stages.toNat) && decide (c.stages.toNat ≤ 256) else c.stages == 0 && c.bodyLen == 0)
    && (c.type == 2 || c.type == 3 || c.reqId == 0)
    && e.reqId == 0 && e.shardId == 0 && e.step == 0 && e.consumer == 0 && e.primary == 0

/-- The decrypted body's structure (16 R420, R421), which only a verified tag vouches for. -/
def capsuleBody (s : State) (c : Capsule) : Bool :=
  if c.type = 1 then c.body.resv == 0 && decide (c.body.flags.toNat < 8) && c.bodyLen.toNat == bodyLen c.body && admitSegments c.body
  else if c.type = 2 then c.body.resv == 0 && c.bodyLen.toNat == bodyLen c.body && paramsZero c.body
    && resumeSegments c.body (recLive s c.reqId)
  else true

/-- FORME_MISMATCH of a capsule (16 R422): no forme that serves, a fatal cause (17 R451), an unknown partition, or layer
0 not served here. -/
def capsuleForme (s : State) (c : Capsule) : Status :=
  match s.forme.committed with
  | none => .formeMismatch
  | some f =>
    if s.dev.fatal || !(formeServes s || s.forme.state = 2) || (Tab.find f.parts c.part.toNat).isNone
        || f.header.firstLayer ≠ 0 then .formeMismatch
    else .ok

/-- A SEQ that the session accepts: above the highest, or among the 64 ending at it and new (15 R406). -/
def seqFresh (x : Session) (n : Nat) : Bool :=
  match x.high with
  | none => true
  | some h => decide (h < n) || (decide (h < n + 64) && !x.seen.contains n)

/-- A capsule fails R406 (counted in SEC_AUTH_FAIL): unknown session, tag, SEQ, or more than 2^32 capsules. -/
def capsuleAuthFails (s : State) (c : Capsule) : Bool :=
  match Tab.find s.sec.sessions c.session.toNat with
  | none => true
  | some x => !c.tagOk || !seqFresh x c.seq.toNat || decide (2 ^ 32 ≤ x.count)

/-- DENIED of a capsule (16 R422, R423; 15 R405 to R407). -/
def capsuleDenied (s : State) (fn : FnId) (c : Capsule) : Status :=
  if partOfCtx s fn.toNat ≠ some c.part.toNat then .denied
  else if capsuleAuthFails s c then .denied
  else match Tab.find s.sec.sessions c.session.toNat with
    | none => .denied
    | some x =>
      if !x.finished || x.tenant ≠ c.tenant then .denied
      else if c.type = 2 || c.type = 3 then
        match recFind s c.reqId with
        | some r => if r.state ≠ 8 && (r.tenant ≠ c.tenant || !(r.view.toNat.testBit 0)) then .denied else .ok
        | none => .ok
      else .ok

/-- RETRY_LATER of an admission or a resume at the anchor (16 R426; 02 R59, R63). -/
def capsuleRetry (s : State) (fn : FnId) (c : Capsule) : Status :=
  if heldOver s fn || s.forme.state = 2 || partDraining s c.part.toNat || (c.type = 1 && (recIndex s).isNone) then .retryLater
  else .ok

/-- Every check of a capsule, in the order of R12; `none` when it passes. -/
def capsuleCheck (s : State) (x : CapsuleCmd) : Option Status :=
  let c := x.capsule
  if !x.dmaOk || !capsuleClear x.entry c then some .malformed
  else if c.tagOk && !capsuleBody s c then some .malformed
  else
    let routed := c.type = 1 || c.type = 2
    r12First [capsuleForme s c, capsuleDenied s x.ring.fn c, if routed then epochJudge s true c.epoch else .ok,
      if routed then capsuleRetry s x.ring.fn c else .ok]

/-- The session has accepted a capsule (15 R406). -/
def seqAccept (c : Capsule) (s : State) : State :=
  let f (x : Session) : Session :=
    let h := match x.high with
      | none => c.seq.toNat
      | some h => max h c.seq.toNat
    { x with high := some h, seen := (c.seq.toNat :: x.seen).filter (fun n => decide (h < n + 64)), count := x.count + 1 }
  { s with sec := { s.sec with sessions := Tab.mod s.sec.sessions c.session.toNat f } }

/-- Count a failed authentication (15 R406, 17 R448 bit 14). -/
def authFail (s : State) : State := noteErr 14 0 0x03C { s with sec := { s.sec with authFail := satInc s.sec.authFail } }

/-- Refuse a capsule with its code: REFUSED for an ADMIT or a capsule of no type, ENTRY for the others (16 R424). -/
def capsuleRefuse (x : CapsuleCmd) (c : Status) (s : State) : State :=
  let t := x.capsule.type
  let kind : Byte := if x.dmaOk && (t = 2 || t = 3 || t = 4) then 5 else 2
  let s := if c = .denied && capsuleAuthFails s x.capsule then authFail s else s
  postCq x.ring x.entry.hostTag (if kind = 5 then x.capsule.reqId else 0) kind c 0 s

/-! ### Admission at the anchor (08 R206, R219) -/

/-- The stage admission of stage 0. -/
def firstAdmission (q : ReqId) (x : CapsuleCmd) (s : State) : StageAdmission :=
  let c := x.capsule
  { req := q, stage := 0, tenant := c.tenant, part := BitVec.ofNat 3 c.part.toNat, context := x.ring.fn
    priority := c.priority, anchor := myDev s, epoch := c.epoch, deadline := c.deadline
    promptLen := BitVec.ofNat 32 ((c.body.segments.head?).elim 0 (fun g => g.tokens.length))
    maxLen := c.body.maxLen, ttl := c.body.ttl, flags := BitVec.ofNat 2 c.body.flags.toNat
    modelDigest := s.forme.committed.elim 0 (fun f => f.header.modelDigest), route := c.routing
    lower := .ok, upper := .ok, genAns := .ok, firstLayer := 0, byGen := false, copy := none, resv := 0 }

/-- An ADMIT that passes: the request gets its identifier and the anchor's record, and admission starts at stage 0. -/
def admitStart (x : CapsuleCmd) (s : State) : State :=
  let c := x.capsule
  let q : ReqId := BitVec.ofNat 64 ((myDev s).toNat * 2 ^ 48 + s.req.counter % 2 ^ 48)
  let m := firstAdmission q x s
  let r : Rec :=
    { reqId := q, state := 1, view := 1, flags := BitVec.ofNat 8 m.flags.toNat, tenant := c.tenant, part := m.part
      partGen := partGenOf s m.part.toNat, context := x.ring.fn, priority := c.priority, epoch := c.epoch
      deadline := c.deadline, promptLen := m.promptLen.toNat, maxLen := c.body.maxLen.toNat, anchor := myDev s
      hostTag := x.entry.hostTag, admitTb := BitVec.ofNat 64 s.tb, ttl := c.body.ttl, colophon := Config.freeWord s.free
      pauseAtEnd := c.body.flags.toNat.testBit 2
      gen0 := BitVec.ofNat 12 ((c.routing.head?).elim 0 (fun r => r.gen)).toNat }
  let a : AnchorInfo :=
    { route := c.routing, session := c.session, ring := x.ring, params := paramBytes c.body, segments := c.body.segments
      input := inputStart (paramBytes c.body), output := 0, code := none, dropped := [], entries := [], events := []
      degraded := false, overrun := false, widened := false, silent := false, accepted := false, confirms := []
      history := [], turn := [], taking := true, released := [], shelved := [] }
  let s := recCreate r { (seqAccept c s) with free := s.free + 1 }
  let s := { s with req := { s.req with
    counter := (s.req.counter + 1) % 2 ^ 48, anchors := Tab.put s.req.anchors q.toNat a } }
  admitForward m (ringUpd x.ring (fun r => { r with taken := r.taken + 1 }) s)

/-! ### Ending a request at the anchor (00 R11, R13; 08 R228 to R230) -/

/-- The informational code of a successful request (00 R13). -/
def infoCode (a : AnchorInfo) : Status :=
  if a.degraded then .degraded else if a.widened then .widened else if a.overrun then .overrun else .ok

/-- Every stage has reported its drop: the colophon and the completion are posted, and the record is RETIRED (08 R230,
14 R377). A request that a context reset ended posts nothing (16 R434). -/
def anchorFinish (q : ReqId) (s : State) : State :=
  match anchorOf s q, recLive s q with
  | some a, some r =>
    let c := a.code.getD .ok
    let c := if isTerminal c then c else infoCode a
    let s := if c = .stateLost then countLost s else s
    let s := if a.silent then s
      else if a.accepted then
        postCq a.ring r.hostTag q 4 c r.commitLen (postColophon q false c s)
      else postCq a.ring r.hostTag q 2 c 0 s
    let s := if a.taking then entryDone a.ring s else s
    recRetire q c { s with req := { s.req with anchors := Tab.del s.req.anchors q.toNat } }
  | _, _ => s

/-- The anchor ends a request on every stage with a code (08 R229). -/
def anchorEnd (q : ReqId) (c : Status) (s : State) : State :=
  match anchorOf s q, recLive s q with
  | some a, some r =>
    match a.code with
    | some d => anchorUpd q (fun a => { a with code := firstCode [d, c] }) s
    | none =>
      let s := anchorUpd q (fun a => { a with code := some c }) s
      let s := if ownerView r then s else recUpd q (fun r => { r with state := 7, status := codeOf c }) s
      toStages a r.epoch (.retire q c) s
  | _, _ => s

/-- A cancellation at the anchor: the first sets the cancel pending and goes to every stage, a second changes nothing
(08 R228, 16 R418). -/
def anchorCancel (q : ReqId) (s : State) : State :=
  match anchorOf s q, recLive s q with
  | some a, some r =>
    if r.flags.toNat.testBit 2 then s else
    let s := anchorUpd q (fun a => { a with code := some (a.code.getD .cancelled) }) s
    toStages a r.epoch (.cancel q) (recUpd q (fun r => { r with flags := r.flags ||| 4 }) s)
  | _, _ => s

/-- A pause at the anchor: pending until every stage's next step boundary (08 R231). -/
def anchorPause (q : ReqId) (s : State) : State :=
  match anchorOf s q, recLive s q with
  | some a, some r =>
    if r.flags.toNat.testBit 3 then s else toStages a r.epoch (.pause q) (recUpd q (fun r => { r with flags := r.flags ||| 8 }) s)
  | _, _ => s

/-- A stage's contribution replaces what the anchor held of that stage (14 R377). -/
def mergeReport (rep : DropReport) (a : AnchorInfo) : AnchorInfo :=
  { a with entries := entryInsert rep.entry a.entries
           events := a.events.filter (fun e => e.stage != rep.stage) ++ rep.events
           degraded := a.degraded || rep.degraded, overrun := a.overrun || rep.overrun, widened := a.widened || rep.widened }

/-- A stage's drop report reaches the anchor (08 R230). -/
def dropReportAt (rep : DropReport) (s : State) : State :=
  match anchorOf s rep.req, recLive s rep.req with
  | some _, some r =>
    let s := anchorUpd rep.req (fun a => mergeReport rep { a with
      dropped := if a.dropped.contains rep.stage.toNat then a.dropped else a.dropped ++ [rep.stage.toNat]
      code := firstCode (a.code.toList.filter isTerminal ++ (if isTerminal rep.code then [rep.code] else [])) }) s
    let s := if ownerView r then s else recUpd rep.req (fun r => { r with state := 7, status := codeOf rep.code }) s
    match anchorOf s rep.req with
    | some a => if a.dropped.length = a.route.length then anchorFinish rep.req s else s
    | none => s
  | _, _ => s

/-! ### Resume and re-prefill at the anchor (08 R232, R233; 14 R363) -/

/-- The resume message for one stage. -/
def resumeMsg (s : State) (a : AnchorInfo) (r : Rec) (stage : Nat) (restart : Bool) (cause : Byte) : StageResume :=
  { adm := { req := r.reqId, stage := BitVec.ofNat 8 stage, tenant := r.tenant, part := r.part, context := r.context
             priority := r.priority, anchor := myDev s, epoch := r.epoch, deadline := r.deadline
             promptLen := BitVec.ofNat 32 (r.commitLen + a.turn.length), maxLen := BitVec.ofNat 32 r.maxLen, ttl := r.ttl
             flags := BitVec.ofNat 2 r.flags.toNat
             modelDigest := s.forme.committed.elim 0 (fun f => f.header.modelDigest), route := a.route
             lower := .ok, upper := .ok, genAns := .ok, firstLayer := 0, byGen := false, copy := none, resv := 0 }
    commitLen := BitVec.ofNat 32 r.commitLen, newTokens := BitVec.ofNat 32 a.turn.length
    partnerOps := 0, restart := restart, cause := cause, takeOver := false }

/-- Forward a resume to every device of every stage; which member takes a recall is the pair's own decision (09 R242; log entry
50). -/
def resumeForward (q : ReqId) (restart : Bool) (cause : Byte) (s : State) : State :=
  match anchorOf s q, recLive s q with
  | some a, some r =>
    ((List.range a.route.length).zip a.route).foldl (fun s x =>
      (stageDevs x.2).foldl (fun s d =>
        sendFw d r.epoch (.resume (resumeMsg s a r x.1 restart cause)) s) s) s
  | _, _ => s

/-- A RESUME capsule that passes (08 R232; 15 R407; 16 R434): the turn's deadline, epoch, TTL, session and context. -/
def resumeAccept (x : CapsuleCmd) (s : State) : State :=
  let c := x.capsule
  let q := c.reqId
  let toks := (c.body.segments.map (fun g => g.tokens)).flatten
  let s := anchorUpd q (fun a => { a with
    route := c.routing, session := c.session, ring := x.ring, turn := toks, confirms := [], silent := false }) (seqAccept c s)
  let s := recUpd q (fun r => { r with
    state := 6, epoch := c.epoch, deadline := c.deadline, context := x.ring.fn, ttl := c.body.ttl
    promptLen := if toks.isEmpty then r.promptLen else r.commitLen + toks.length }) s
  resumeForward q false 0 (postCq x.ring x.entry.hostTag q 5 .ok 0 s)

/-- No stage's galley is shelved any more. -/
def unshelved (q : ReqId) (s : State) : State :=
  recUpd q (fun r => { r with expiry := 0 }) (anchorUpd q (fun a => { a with shelved := [] }) s)

/-- The whole request is re-prefilled (08 R218, R232, R233): the input digest takes the history as a prefill from 0. -/
def anchorReprefill (q : ReqId) (cause : Byte) (s : State) : State :=
  match anchorOf s q, recLive s q with
  | some _, some r =>
    let s := unshelved q { s with req := { s.req with reprefill := satInc s.req.reprefill } }
    let s := resumeForward q true cause s
    let s := anchorUpd q (fun a =>
      let i := inputPrefill a.input 0 (a.history.take r.commitLen)
      { a with input := if a.turn.isEmpty then i else inputPrefill i r.commitLen a.turn
               history := if a.turn.isEmpty then a.history else a.history.take r.commitLen ++ a.turn
               confirms := [], turn := [] }) s
    recUpd q (fun r => { r with flags := r.flags ||| 0x10, state := 2 }) s
  | _, _ => s

/-- A member of the stage-0 pair that may hold the token history is not excluded (08 R218, R233). -/
def historyHeld (a : AnchorInfo) (s : State) : Bool :=
  match a.route.head? with
  | none => false
  | some e => [e.pair.toNat, e.pair.toNat / 16 * 16 + (e.pair.toNat + 1) % 16].any (fun d => !excluded s (d % 4096))

/-- Re-prefill applies to a request, as its anchor knows it (08 R218). -/
def reprefillHeld (q : ReqId) (r : Rec) (s : State) : Bool :=
  reprefillApplies r && (anchorOf s q).any (fun a => historyHeld a s)

/-- Device `d` is a member of the request's stage-0 pair, which holds the token history (08 R233). -/
def historyPair (q : ReqId) (d : DevId) (s : State) : Bool :=
  match (anchorOf s q).bind (fun a => a.route.head?) with
  | none => false
  | some e => [e.pair.toNat, e.pair.toNat / 16 * 16 + (e.pair.toNat + 1) % 16].any (fun x => x % 4096 == d.toNat)

/-- A stage reports that it cannot resume: re-prefill where it applies, else the code of R197, R66 or R198; a stage that
asks to retry leaves the request PAUSED (log entry 48). Once the re-prefill has begun, what a stage had lost no longer matters but for
the token history of stage 0 (08 R233), and any other failure ends the request. `d` is the device that reports it. -/
def resumeFailed (q : ReqId) (c : Status) (d : DevId) (s : State) : State :=
  match recLive s q with
  | none => s
  | some r =>
    let gone := c = .stateLost || c = .tierFault || c = .formeMismatch
    if r.state = 6 then
      if c = .retryLater then recUpd q (fun r => { r with state := 5 }) s
      else if gone && reprefillHeld q r s then
        anchorReprefill q (if c = .stateLost then 1 else if c = .tierFault then 2 else 3) s
      else anchorEnd q c s
    else if r.state = 2 && !gone then anchorEnd q (if isTerminal c then c else .stateLost) s
    else if r.state = 2 && c = .stateLost && historyPair q d s then anchorEnd q .stateLost s
    else s

/-- The next prefill of the request begins, as far as the anchor's digests know it (14 R363, 16 R421). -/
def beginPrefill (q : ReqId) (start : Nat) (toks : List Word) (s : State) : State :=
  anchorUpd q (fun a => { a with
    input := inputPrefill a.input start toks, history := a.history.take start ++ toks }) s

/-- Every device of the request's stages that is not excluded has released what the refused admission took. -/
def allReleased (a : AnchorInfo) (s : State) : Bool :=
  (a.route.map stageDevs).flatten.all (fun d => excluded s d.toNat || a.released.contains d)

/-- Every device of the stages has released what a refused admission took: no record remains, and the capsule is REFUSED with the
code (08 R219; 00 R10, R12). -/
def refusedEnd (q : ReqId) (s : State) : State :=
  match anchorOf s q, recLive s q with
  | some a, some r =>
    match a.refused with
    | none => s
    | some c =>
      if !allReleased a s then s else
      let s := if a.silent then s else postCq a.ring r.hostTag 0 2 c 0 s
      entryDone a.ring (recFree q { s with req := { s.req with anchors := Tab.del s.req.anchors q.toNat } })
  | _, _ => s

/-- Device `d` of a stage has released what the refused admission took there. -/
def releasedAt (q : ReqId) (d : DevId) (s : State) : State :=
  refusedEnd q (anchorUpd q (fun a => { a with released := if a.released.contains d then a.released else a.released ++ [d] }) s)

/-- A stage's galley is shelved: once every stage's is, the request is paused with a shelved galley here too (09 R257; log entry
203). -/
def shelvedAt (q : ReqId) (stage : Nat) (expiry : DWord) (s : State) : State :=
  let s := anchorUpd q (fun a => { a with shelved := if a.shelved.contains stage then a.shelved else a.shelved ++ [stage] }) s
  match anchorOf s q with
  | none => s
  | some a =>
    if a.shelved.length = a.route.length then recUpd q (fun r => if r.state = 5 then { r with expiry := expiry } else r) s else s

/-- A cancellation that came during the admission reaches the stages that admitted after it (08 R228). -/
def cancelAgain (q : ReqId) (s : State) : State :=
  match anchorOf s q, recLive s q with
  | some a, some r => if r.flags.toNat.testBit 2 then toStages a r.epoch (.cancel q) s else s
  | _, _ => s

/-- The last stage has confirmed the admission: every stage learns of it, the first prefill begins, ACCEPTED is posted (08 R218,
R219; 16 R424; log entry 166). -/
def admitted (q : ReqId) (stage : Byte) (s : State) : State :=
  match anchorOf s q, recLive s q with
  | some a, some r =>
    let s := anchorUpd q (fun a => { a with accepted := true, taking := false, segments := a.segments.tail }) s
    let s := match a.segments.head? with
      | some g => beginPrefill q 0 g.tokens s
      | none => s
    let s := toStages a r.epoch (.confirmation q stage none) (recUpd q (fun r => { r with state := 2 }) s)
    cancelAgain q (entryDone a.ring (if a.silent then s else postCq a.ring r.hostTag q 1 .ok 0 s))
  | _, _ => s

/-- A confirmation reaches the anchor: of the admission, by the last stage; of a release, by each device; of a resume, by each
stage; at a pause, by each stage with its contribution (08 R219, R231, R232). The STATUS of a PAUSED completion is OK (log entry
174). Another tells that a stage's galley has been shelved (log entry 203). At any other device of a stage it is the anchor's, of the
admission. -/
def confirmAt (q : ReqId) (src : StageFrom) (pause : Option DropReport) (s : State) : State :=
  let stage := src.stage
  match anchorOf s q, recLive s q with
  | some a, some r =>
    match src.shelf with
    | some e => shelvedAt q stage.toNat e s
    | none =>
    match pause with
    | some rep =>
      let s := anchorUpd q (fun a => mergeReport rep { a with
        confirms := if a.confirms.contains stage.toNat then a.confirms else a.confirms ++ [stage.toNat] }) s
      match anchorOf s q with
      | some a =>
        if a.confirms.length = a.route.length then
          let s := recUpd q (fun r => { r with state := 5, flags := r.flags &&& 0xF7 }) (anchorUpd q (fun a => { a with confirms := [] }) s)
          if a.silent then s else postCq a.ring r.hostTag q 3 .ok r.commitLen (postColophon q true .ok s)
        else s
      | none => s
    | none =>
      if a.refused.isSome then releasedAt q src.sender s
      else if !a.accepted ∧ stage.toNat + 1 = a.route.length ∧ r.state = 1 then admitted q stage s
      else if !a.accepted ∧ stage.toNat + 1 = a.route.length ∧ r.state = 7 then cancelAgain q s
      else if r.state = 6 then
        let s := anchorUpd q (fun a => { a with
          confirms := if a.confirms.contains stage.toNat then a.confirms else a.confirms ++ [stage.toNat] }) s
        match anchorOf s q with
        | some b =>
          if b.confirms.length = b.route.length then
            let s := unshelved q (anchorUpd q (fun a => { a with confirms := [], turn := [] }) s)
            let s := if b.turn.isEmpty then s else beginPrefill q r.commitLen b.turn s
            if ownerView r then s
            else recUpd q (fun r => { r with state := if b.turn.isEmpty then 3 else 2 }) s
          else s
        | none => s
      else s
  | _, _ => stageConfirmed q s

/-- A refusal reaches the anchor of a request being admitted: the record is DRAINING and every stage releases; a device's answer
to that counts (08 R218, R219; log entry 168). -/
def refusalAt (q : ReqId) (c : Status) (d : DevId) (s : State) : State :=
  match anchorOf s q, recLive s q with
  | some a, some r =>
    if a.refused.isSome then releasedAt q d s else
    let s := anchorUpd q (fun a => { a with refused := some c }) s
    refusedEnd q (toStages a r.epoch (.releaseRecords q) (recUpd q (fun r => { r with state := 7, status := codeOf c }) s))
  | _, _ => s

/-! ### Tokens at the anchor (08 R227, 16 R421, R425, R426) -/

/-- The next segment begins at the anchor, once the committed length has reached its START, or at once where START is
0. -/
def anchorSegment (q : ReqId) (commit : Nat) (s : State) : State :=
  match anchorOf s q with
  | none => s
  | some a =>
    match a.segments with
    | [] => s
    | g :: rest =>
      if g.start.toNat = commit ∨ g.start = 0 then
        beginPrefill q g.start.toNat g.tokens
          (recUpd q (fun r => { r with promptLen := g.start.toNat + g.tokens.length })
            (anchorUpd q (fun a => { a with segments := rest }) s))
      else s

/-- The tokens of a message that the anchor has not had: none is emitted twice (08 R235). -/
def newTokens (a : AnchorInfo) (m : TokenMsg) : TokenMsg :=
  let k := min m.tokens.length (a.history.length - m.pos)
  { m with pos := m.pos + k, tokens := m.tokens.drop k }

/-- A committed step's tokens at the anchor: the output record, the output digest, the committed length (08 R227). -/
def anchorToken (m : TokenMsg) (s : State) : State :=
  match anchorOf s m.req, recLive s m.req with
  | some a, some r =>
    let m := newTokens a m
    if m.tokens.isEmpty then s else
    let n := m.tokens.length
    let commit := m.pos + n - 1
    let s := anchorUpd m.req (fun a => { a with
      output := outputTokens a.output m.pos m.tokens, history := a.history.take m.pos ++ m.tokens }) s
    let s := recUpd m.req (fun r => { r with
      commitLen := if ownerView r then r.commitLen else commit
      state := if !ownerView r && (r.state == 2 || r.state == 3) then 4 else r.state }) s
    let s := if a.silent then s
      else postOut a.ring a.session 1 (32 + 8 + 4 * n + 16) m.req (.tokens m.pos m.tokens) s
    let s := anchorSegment m.req commit s
    if heldOver s a.ring.fn && r.state = 4 then anchorPause m.req s else s
  | _, _ => s

end Sys2Proof.Machine
end

