-- ==== Sys2Proof/Machine/FormeCheck.lean ====
section
/-!
DEFINITION. The check stages of a forme image (02 R43 to R55, R57, R64; *Forme check stages*) and the rules of the other
chapters that stage 5 and stage 7 apply (03 R73, R83, R84; 04 R117, R120; 05 R148; 06 R171; 07 R175, R181; 08 R210;
13 R342, R345, R347, R348; 18 R470).
-/

namespace Sys2Proof.Machine

/-- A failed check: its stage, its code and FORME_FAIL_SECT. -/
structure FormeFail where
  stage : Nat
  code : Status
  sect : Nat
deriving DecidableEq, Repr

/-- A check that must hold. -/
def need (ok : Bool) (stage : Nat) (c : Status) (sect : Nat) : Option FormeFail :=
  if ok then none else some { stage := stage, code := c, sect := sect }

/-- The first check of a list that fails. -/
def firstFail (l : List (Option FormeFail)) : Option FormeFail := l.findSome? id

/-- No section: FORME_FAIL_SECT reads 0xFFFF. -/
def noSect : Nat := 0xFFFF

/-! ### Command streams (03 R73) -/

/-- The fields of a command word that its opcode leaves reserved are zero and its operand is in range; `chans` is the
cluster's channel table (R84). -/
def commandOk (chans : List ChanEntry) (w : DWord) : Bool :=
  let v := w.toNat
  let op := field v 63 56
  let zero (hi lo : Nat) : Bool := field v hi lo == 0
  let press := [0x20, 0x21, 0x22, 0x30, 0x38, 0x40, 0x41, 0x48, 0x49, 0x50, 0x51, 0x58, 0x60, 0x68]
  if op < 0x20 then
    zero 55 48 && match op with
    | 0x00 | 0x05 => zero 47 0
    | 0x01 | 0x02 => zero 43 32
    | 0x03 => zero 31 14 && !zero 47 32
    | 0x04 => zero 47 14
    | 0x06 => zero 47 8 && decide (field v 7 0 < 0x12)
    | 0x07 => zero 47 16 && zero 7 2 && decide (field v 1 0 ≠ 3)
    | 0x08 =>
      zero 23 16 && zero 6 5 && decide (1 ≤ field v 15 8) && decide (field v 15 8 ≤ 64)
        && !(field v 7 7 == 1 && chans.any (fun k => k.chan.toNat == field v 4 0 && decide (k.slots < field v 15 8)))
    | 0x09 => zero 47 40 && zero 12 1
    | 0x0B => zero 43 14
    | 0x0C => zero 39 32
    | _ => false
  else press.contains op && zero 51 48 && zero 43 32

/-- Loops never nest deeper than four (03, *Control commands*). -/
def loopsOk (c : ClusterProgram) : Bool :=
  let loops := (c.words.filter (fun w => c.commands.contains w.1 && field w.2.toNat 63 56 == 3)).map
    (fun w => (w.1, field w.2.toNat 13 0))
  loops.all (fun l => decide ((loops.filter (fun m => decide (m.1 < l.1) && decide (l.1 ≤ m.2))).length < 4))

/-- Two byte ranges, as (start, end), do not meet. -/
def apart (a b : Nat × Nat) : Bool := decide (a.2 ≤ b.1) || decide (b.2 ≤ a.1)

/-- Every two ranges of a list are apart. -/
def allApart : List (Nat × Nat) → Bool
  | [] => true
  | a :: rest => rest.all (apart a) && allApart rest

/-- A list has no repeats. -/
def distinct {A : Type} [DecidableEq A] : List A → Bool
  | [] => true
  | a :: rest => !rest.contains a && distinct rest

/-- A cluster's channel table (03 *Channel table entry*, R83, 13 R348). The slots of a receive channel lie in the mailbox above the
work queue, and with TAG_CHECK its tag word at BUF − 4 too, on a word boundary (R86; log entry 189). -/
def channelsOk (c : ClusterProgram) : Bool :=
  let l := c.channels
  let arrays := (l.filter (fun k => !k.send)).map (fun k => (k.buf, k.buf + k.slots * k.slotBytes))
  distinct (l.map (fun k => k.chan))
    && l.all (fun k => decide (64 ≤ k.slotBytes) && decide (k.slotBytes ≤ 4096) && decide (k.slotBytes % 64 = 0)
        && decide (1 ≤ k.slots) && decide (k.slots ≤ 64))
    && l.all (fun k => k.send || (decide (0x1000 ≤ k.buf) && (!k.tagCheck || (decide (0x1004 ≤ k.buf) && decide (k.buf % 4 = 0)))
        && decide (k.buf + k.slots * k.slotBytes ≤ 0x10000)))
    && l.all (fun k => k.send || !k.waited || k.tagCheck || match k.peer with
        | .local_ _ _ => true
        | _ => false)
    && allApart arrays && arrays.all (fun r => apart r c.descArea)

/-- Every LOCAL receive channel of a configuration has exactly one sender, and every LOCAL send channel a receiver, whose slots are
those the send channel names, so that its credits are its peer's SLOTS (03 R83; log entry 190): `cs` holds the clusters of all its
programs. -/
def sendersOk (cs : List ClusterProgram) : Bool :=
  let ends (send : Bool) : List ((Nat × Nat) × (Nat × Nat) × (Nat × Nat)) :=
    (cs.map (fun x => x.channels.filterMap (fun k =>
      match k.peer with
      | .local_ i ch =>
        if k.send == send then some ((x.index.toNat, k.chan.toNat), (i.toNat, ch.toNat), (k.slots, k.slotBytes)) else none
      | _ => none))).flatten
  (ends true).all (fun e => (ends false).any (fun r => r.1 == e.2.1 && r.2.1 == e.1 && r.2.2 == e.2.2))
    && (ends false).all (fun r => ((ends true).filter (fun e => e.2.1 == r.1)).length == 1
      && (ends true).any (fun e => e.1 == r.2.1 && e.2.1 == r.1))

/-- One cluster's part of a PROGRAM. -/
def clusterProgramOk (c : ClusterProgram) : Bool :=
  c.words.all (fun w => decide (w.1 < 16384))
    && decide (c.entry < 16384)
    && c.commands.all (fun i => match c.words.find? (fun w => w.1 == i) with
        | some w => commandOk c.channels w.2
        | none => commandOk c.channels 0)
    && loopsOk c && channelsOk c

/-! ### Sections on their own -/

/-- The sections of an image with their directory indices. -/
def indexed {A : Type} (l : List A) : List (Nat × A) := (List.range l.length).zip l

/-- TYPE and the kind of content agree (02 *Section types*). -/
def typeOk (t : Nat) (b : SectBody) : Bool :=
  match b with
  | .roleParams _ => t == 1
  | .geometry _ => t == 2
  | .regionConfig _ => t == 3
  | .partition _ => t == 4
  | .program _ => t == 5
  | .imposition _ => t == 6
  | .plateRefs _ => t == 7
  | .entropy _ => t == 8
  | .numerics _ => t == 9
  | .attention _ => t == 10
  | .selftest _ _ => t == 11
  | .illFormed => false

/-- The section types that a partition owns (02 *Section types*). -/
def perPartition (t : Nat) : Bool := t == 4 || t == 5 || t == 7 || t == 8 || t == 9 || t == 10

/-- Reserved fields of a section's content are zero (00 R5). -/
def bodyReserved (b : SectBody) : Bool :=
  match b with
  | .roleParams v => v.resv == 0 && decide (v.partner.length = 16) && decide (v.galleyPool.length = 8)
  | .geometry v => v.resv == 0
  | .regionConfig v => v.resv == 0
  | .partition v => v.resv == 0
  | .program _ => true
  | .imposition v => v.resv == 0 && decide (v.weights.length = 64) && v.slots.all (fun x => x.resv == 0)
  | .plateRefs v => v.all (fun x => x.resv == 0 && decide (x.place.toNat < 32))
  | .entropy v => v.resv == 0 && v.entries.all (fun x => x.resv == 0 && decide (x.slot.toNat < 2))
      && decide (v.latentSlot.toNat < 2) && decide (v.entries.length ≤ 2046)
  | .numerics v => v.resv == 0 && v.entries.all (fun x => x.resv == 0 && decide (x.flags.toNat < 2))
  | .attention v => v.resv == 0 && (v.thumbDims.length == 128)
  | .selftest _ r => r == 0
  | .illFormed => false

/-- R44 for the section at index `i`, and its instance: a region, a partition or 0. -/
def sectionOk (img : FormeImage) (parts : Nat) (i : Nat) (x : Section_) : Bool :=
  let lo := x.offset.toNat
  let hi := lo + x.length.toNat
  let n := img.sections.length
  let t := x.type.toNat
  let limit := if t = 3 then 8 else if perPartition t then parts else 1
  x.resv == 0 && decide (lo % 256 = 0) && decide (0x100 + 64 * n ≤ lo)
    && decide (hi + 3584 ≤ img.header.totalLen.toNat)
    && (indexed img.sections).all (fun y => decide (i ≤ y.1)
        || (apart (lo, hi) (y.2.offset.toNat, y.2.offset.toNat + y.2.length.toNat)
            && !(y.2.type == x.type && y.2.instance_ == x.instance_)))
    && typeOk t x.body && bodyReserved x.body && decide (x.instance_.toNat < limit)

/-! ### The sections of a configuration together -/

/-- The directory index of a section. -/
abbrev SectAt := Nat → Nat → Nat

/-- The directory index of (TYPE, INSTANCE) in an image; 0xFFFF when it does not hold it. -/
def sectAt (img : FormeImage) : SectAt := fun t n =>
  (((indexed img.sections).find? (fun x => x.2.type.toNat == t && x.2.instance_.toNat == n)).map (fun x => x.1)).getD noSect

/-- The bits of a mask below `n`. -/
def bitsOf (n m : Nat) : List Nat := (List.range n).filter (fun i => m.testBit i)

/-- ROLE_PARAMS (02 R45): fields of another role are reserved; PARTNER pairs the slots of SLOT_MASK; GALLEY_POOL fits
T1_PAGES. -/
def roleParamsOk (c : Committed) : Bool :=
  let h := c.header
  let v := c.role
  let noCache := v.partner.all (fun b => b == 0) && v.galleyPool.all (fun w => w == 0)
  let rows := decide (1 ≤ v.maxRows.toNat) && decide (v.maxRows.toNat ≤ 1024)
  match h.role.toNat with
  | 1 => noCache && rows && v.specMax == 0 && decide (64 ≤ v.chunkTokens.toNat) && decide (v.chunkTokens.toNat ≤ 8192)
      && decide (v.chunkTokens.toNat % 64 = 0)
  | 2 => noCache && rows && v.chunkTokens == 0 && decide (v.specMax.toNat ≤ 16)
  | _ =>
    let partner (s : Nat) : Nat := (v.partner.getD s 0xFF).toNat
    v.chunkTokens == 0 && v.maxRows == 0 && v.specMax == 0
      && (List.range 16).all (fun s =>
          if h.slotMask.toNat.testBit s then
            decide (partner s < 16) && partner s != s && h.slotMask.toNat.testBit (partner s) && partner (partner s) == s
          else partner s == 0xFF)
      && (List.range 8).all (fun p =>
          let n := (v.galleyPool.getD p 0).toNat
          match Tab.find c.parts p with
          | some x => decide (1 ≤ n) && decide (n ≤ x.t1Pages.toNat)
          | none => n == 0)

/-- REGION_CONFIG of region `g` (02 R49, 07 R175). The table gives the BACKING fields no value in explicit mode and MODE none for
an unused region: they are zero there (log entry 159). -/
def regionOk (c : Committed) (g : Nat) (r : RegionConfig) : Bool :=
  let used := c.geometry.regionUse.toNat.testBit g
  let p := r.partition.toNat
  let lo := r.backingBase.toNat
  let len := r.backingLen.toNat
  (if used then (Tab.find c.parts p).isSome else r.partition == 0xFF)
    && (if r.mode = 0 then r.policy == 0 && decide (r.plateMib.toNat ≤ 128) && lo == 0 && len == 0
        else r.mode == 1 && used && decide (r.policy.toNat ≤ 1) && r.plateMib == 0 && decide (lo % 65536 = 0)
          && decide (len % 65536 = 0) && decide (0 < len)
          && (match Tab.find c.parts p with
              | some x => decide (lo + len ≤ x.t1Pages.toNat * 65536)
              | none => false)
          && c.regions.all (fun y => decide (g ≤ y.1) || y.2.mode != 1 || y.2.partition != r.partition
              || apart (lo, lo + len) (y.2.backingBase.toNat, y.2.backingBase.toNat + y.2.backingLen.toNat)))

/-- PARTITION of partition `p` (02 R51, R52). -/
def partitionOk (c : Committed) (p : Nat) (x : PartitionSect) : Bool :=
  let mine := ((c.regions.filter (fun r => r.2.partition.toNat == p)).map (fun r => 2 ^ r.1)).sum
  x.regionMask.toNat == mine && mine != 0
    && (x.fullSave &&& ~~~x.contextMask) == 0
    && c.parts.all (fun y => decide (p ≤ y.1) || (y.2.contextMask &&& x.contextMask) == 0)

/-- All plate reference entries of a configuration. -/
def allRefs (c : Committed) : List PlateRef := (c.plates.map (fun e => e.2)).flatten

/-- PLATE_REFS of partition `p` (02 R53, R54). -/
def plateRefsOk (c : Committed) (p : Nat) (l : List PlateRef) : Bool :=
  distinct (l.map (fun x => x.plateId))
    && l.all (fun x =>
      let tier := x.place.toNat % 16
      let ps := bitsOf 8 x.partMask.toNat
      x.partMask.toNat.testBit p && ps.all (fun q => (Tab.find c.parts q).isSome)
        && decide (tier ≤ 1) && ((tier == 0) == (x.regionMask != 0))
        && (x.slotMask &&& ~~~c.header.slotMask) == 0 && x.layerCount != 0
        && ps.all (fun q => (Tab.getD c.plates q []).contains x)
        && (allRefs c).all (fun y => y.plateId != x.plateId || y == x))

/-- The clusters that the regions of a mask can have, by the index that programs use (03 R90). -/
def programIndexOk (c : Committed) (mask : Nat) (i : Nat) : Bool :=
  if c.header.geometry = 1 then mask.testBit (i / 16) else decide (i < 120) && mask.testBit (i / 15)

/-- Layers of a partition on which widening is enabled (04 R117). -/
def wideningLayers (c : Committed) (n : NumericsSect) : List Nat :=
  ((List.range c.header.layerCount.toNat).map (fun i => c.header.firstLayer.toNat + i)).filter (fun l =>
    !n.entries.any (fun e => e.layer.toNat == l && e.flags.toNat.testBit 0))

/-- A level program's commands are commands of clusters that the section carries (02 R483, 04 R117). -/
def levelProgramOk (v : ProgramSect) (l : LevelProgram) : Bool :=
  !l.clusters.isEmpty && l.clusters.all (fun e => v.clusters.any (fun x =>
    x.index == e.1 && !e.2.isEmpty && e.2.all (fun i => x.commands.contains i)))

/-- The level programs that R117 asks for are there, and every one is made of the section's commands. -/
def levelsOk (c : Committed) (v : ProgramSect) (n : NumericsSect) : Bool :=
  let has (l : List LevelProgram) (x : Nat × Nat) : Bool := l.any (fun q => q.layer == x.1 && q.segment == x.2)
  (v.level1 ++ v.level2).all (levelProgramOk v)
    && (n.policy == 0 || (v.segments.filter (fun x => (wideningLayers c n).contains x.1)).all (fun x =>
      has v.level1 x && (n.policy != 1 || has v.level2 x)))

/-- The galley row format that ATTENTION gives takes this many bytes (05 R148). -/
def attnRowBytes (a : AttentionSect) : Nat := (a.lat.toNat + a.posw.toNat) * (if a.kvFormat = 7 then 2 else 1)

/-- PROGRAM of partition `p` on its own (02 R483, 03 R73, R83, R84, 04 R115, R117, 05 R148, 14 R373). -/
def programOk (c : Committed) (p : Nat) (v : ProgramSect) : Bool :=
  let mask := (Tab.find c.parts p).elim 0 (fun x => x.regionMask.toNat)
  distinct (v.clusters.map (fun x => x.index))
    && v.clusters.all (fun x => programIndexOk c mask x.index.toNat && clusterProgramOk x)
    && v.obeysR115 && decide (v.rowBytes ≤ 896)
    && distinct (v.podBarriers.map (fun b => b.id))
    && v.podBarriers.all (fun b => decide (2 ≤ b.participants) && decide (b.participants ≤ 4096))
    && (match Tab.find c.numerics p with
        | some n => levelsOk c v n
        | none => false)
    && (c.header.role != 2 || (Tab.find c.attention p).elim false (fun a =>
      v.queryWidths.all (fun w => w == a.lat.toNat + a.posw.toNat)))

/-- IMPOSITION's own rules (13 R342). -/
def impositionOk (c : Committed) : Bool :=
  let v := c.imposition
  let named (x : Nat) : Option Nat := (c.parts.find? (fun e => e.2.contextMask.toNat.testBit x)).map (fun e => e.1)
  decide (62500 ≤ v.frameTb.toNat) && decide (v.frameTb.toNat ≤ 62500000)
    && decide (1 ≤ v.slots.length) && decide (v.slots.length ≤ 256)
    && decide ((v.slots.map (fun s => s.length.toNat)).sum = v.frameTb.toNat)
    && (List.range 64).all (fun x => ((v.weights.getD x 0) != 0) == (named x).isSome)
    && v.slots.all (fun s =>
      let cs := bitsOf 64 s.contextMask.toNat
      decide (625 ≤ s.length.toNat) && decide (s.kind.toNat ≤ 1) && cs.all (fun x => (named x).isSome)
        && (s.kind != 0 || distinct (cs.map named)))

/-- The layers a forme serves. -/
def inLayers (h : FormeHeader) (l : Nat) : Bool :=
  decide (h.firstLayer.toNat ≤ l) && decide (l < h.firstLayer.toNat + h.layerCount.toNat)

/-- Numbers rise strictly. -/
def rising : List Nat → Bool
  | [] => true
  | [_] => true
  | a :: b :: rest => decide (a < b) && rising (b :: rest)

/-- NUMERICS (04 R120). -/
def numericsOk (c : Committed) (n : NumericsSect) : Bool :=
  decide (n.policy.toNat ≤ 2)
    && (n.fp8Variant == 4 || n.fp8Variant == 5 || (n.policy == 0 && n.fp8Variant == 0))
    && decide (n.entries.length ≤ c.header.layerCount.toNat)
    && rising (n.entries.map (fun e => e.layer.toNat)) && n.entries.all (fun e => inLayers c.header e.layer.toNat)

/-- ATTENTION of partition `p` (05 R148, 08 R210). -/
def attentionOk (c : Committed) (p : Nat) (a : AttentionSect) : Bool :=
  let w := a.lat.toNat + a.posw.toNat
  let rows := (Tab.find c.programs p).elim 0 (fun v => v.rowBytes)
  decide (a.fallback.toNat ≤ 2) && (a.kvFormat == 4 || a.kvFormat == 5 || a.kvFormat == 7)
    && decide (attnRowBytes a ≤ 896) && (rows == 0 || rows == attnRowBytes a)
    && (if a.thumbCount = 0 then a.thumbDims.all (fun d => d == 0)
        else a.thumbCount == 128 && a.kvFormat != 7 && rising (a.thumbDims.map (fun d => d.toNat))
          && a.thumbDims.all (fun d => decide (d.toNat < w)))

/-- ENTROPY of partition `p` (06 R157, R171; 08 R210). -/
def entropyOk (c : Committed) (p : Nat) (v : EntropySect) : Bool :=
  let key (e : EntropyEntry) : Nat := e.table.toNat * 2 + e.slot.toNat
  let same (a b : EntropyEntry) : Bool := a.table != b.table || a.format == b.format
  let lt := v.latentTable
  rising (v.entries.map key)
    && v.entries.all (fun e => decide (1 ≤ e.table.toNat) && decide (e.table.toNat ≤ 1023)
        && tableValid e.format.toNat e.lengths && v.entries.all (same e))
    && c.entropy.all (fun y => y.1 == p || v.entries.all (fun e => y.2.entries.all (fun f =>
        e.table != f.table || ((v.entries.filter (fun x => x.table == e.table))
          == (y.2.entries.filter (fun x => x.table == e.table))))))
    && (lt == 0 || (c.header.role == 3
        && v.entries.any (fun e => e.table == lt && e.slot.toNat % 2 == v.latentSlot.toNat % 2)
        && (match Tab.find c.attention p with
            | some a => a.kvFormat != 7 && decide (a.lat.toNat + a.posw.toNat ≤ 880)
                && v.entries.all (fun e => e.table != lt || e.format == a.kvFormat)
            | none => false)))

/-! ### Capacity (02 R55, 07 R181, 13 R347) -/

/-- The plates that this slot loads, each once (02 R54). -/
def slotPlates (slot : Nat) (c : Committed) : List PlateRef :=
  (allRefs c).foldl (fun l x => if x.slotMask.toNat.testBit slot && !l.any (fun y => y.plateId == x.plateId) then l ++ [x] else l) []

/-- Frames of the T1 plates of this slot (07 R181). -/
def plateSpace (slot : Nat) (c : Committed) : Nat :=
  (((slotPlates slot c).filter (fun x => x.place.toNat % 16 == 1)).map (fun x => cdiv x.plainLen.toNat 65536)).sum

/-- The T1 plates of this slot in the order of their entries, each with its first byte and the byte after its last frame. -/
def t1Plates (slot : Nat) (c : Committed) : List (PlateRef × Nat × Nat) :=
  ((slotPlates slot c).filter (fun x => x.place.toNat % 16 == 1)).map (fun x =>
    (x, x.dest.toNat, x.dest.toNat + cdiv x.plainLen.toNat 65536 * 65536))

/-- The T0 shares of region `g`, as ranges of its plate area. -/
def t0Shares (slot : Nat) (c : Committed) (g : Nat) : List (Nat × Nat) :=
  ((slotPlates slot c).filter (fun x => x.place.toNat % 16 == 0 && x.regionMask.toNat.testBit g)).map (fun x =>
    (x.dest.toNat, x.dest.toNat + cdiv x.plainLen.toNat (bitsOf 8 x.regionMask.toNat).length))

/-- Bytes of the T0 shares placed in region `g` (02 R55). -/
def t0Sum (slot : Nat) (c : Committed) (g : Nat) : Nat := ((t0Shares slot c g).map (fun x => x.2 - x.1)).sum

/-- Where the plates of this slot lie (02 R53, 07 R181; log entry 158): at a full load each T1 plate follows the one before it, in
the order of the entries; `space` bytes, when given, is the plate space that a partial forme finds, in which they lie apart. T0
shares lie apart inside their plate areas; shares whose sum exceeds PLATE_MIB cannot, and are left to stage 7 (R55). -/
def plateLayoutOk (slot : Nat) (c : Committed) (space : Option Nat) : Bool :=
  let t1 := t1Plates slot c
  (match space with
    | none => (t1.foldl (fun (a : Bool × Nat) x => (a.1 && x.2.1 == a.2, x.2.2)) (true, 0)).1
    | some n => allApart (t1.map (fun x => x.2)) && t1.all (fun x => x.2.1 % 65536 == 0 && decide (x.2.2 ≤ n)))
    && c.regions.all (fun r => decide (r.2.plateMib.toNat * 2 ^ 20 < t0Sum slot c r.1) || (allApart (t0Shares slot c r.1)
      && (t0Shares slot c r.1).all (fun x => decide (x.2 ≤ r.2.plateMib.toNat * 2 ^ 20))))

/-- Clusters that carry a stream in region `g` (02 R47). -/
def regionClusters (s : State) (c : Committed) (g : Nat) : Nat :=
  if c.header.geometry = 1 then ((List.range 16).filter (fun i => goodCluster s (16 * g + i))).length else 15

/-- Stage 7. -/
def capacityCheck (s : State) (c : Committed) : Option FormeFail :=
  let t1 := plateSpace (mySlot s).toNat c + (c.parts.map (fun e => e.2.t1Pages.toNat)).sum
  firstFail ([
    need (c.regions.all (fun r => decide (t0Sum (mySlot s).toNat c r.1 ≤ r.2.plateMib.toNat * 2 ^ 20))) 7 .quota noSect,
    need (decide (Config.reserveFrames + t1 ≤ Config.framesPerChannel * s.tier.good.length)) 7 .quota noSect]
    ++ c.parts.map (fun e =>
      let n := ((bitsOf 8 e.2.regionMask.toNat).map (regionClusters s c)).sum
      need (decide (41 * n * (bitsOf 64 e.2.fullSave.toNat).length ≤ e.2.t1Pages.toNat)) 7 .quota noSect))

/-! ### The stages (02 R57, R64) -/

/-- Stage 2 without the read of the image. -/
def stageTwo (img : FormeImage) (len kind : Nat) : Option FormeFail :=
  let h := img.header
  let n := img.sections.length
  need (decide (h.totalLen.toNat = len) && decide (len ≤ 2 ^ 28) && h.magic == 0x4D464E44 && h.format == 1
    && h.hdrSize == 0x100 && h.kind.toNat == kind && h.resv == 0 && decide (1 ≤ n) && decide (n ≤ 1024)
    && decide (h.sectCount.toNat = n) && decide (0x100 + 64 * n + 3584 ≤ len) && img.sig.paddingZero) 2 .malformed noSect

/-- Stages 3 and 4: the key, the signatures, the section digests (R43, R44); the anti-rollback counter (R393). -/
def stageThreeFour (s : State) (img : FormeImage) : Option FormeFail :=
  firstFail ([
    need (s.sec.store.owners.contains img.header.ownerKeyId && img.sig.ed25519Ok && img.sig.mlDsaOk) 3 .integrity noSect]
    ++ (indexed img.sections).map (fun x => need x.2.digestOk 3 .integrity x.1)
    ++ [need (s.sec.rpsOk && decide (s.sec.store.formeSvn.toNat ≤ img.header.svn.toNat)) 4 .denied noSect])

/-- Stage 5, the sections one by one. -/
def stageFiveSections (img : FormeImage) (parts : Nat) : Option FormeFail :=
  firstFail ((indexed img.sections).map (fun x => need (sectionOk img parts x.1 x.2) 5 .malformed x.1))

/-- The digest of the repair record's disabled-unit map (02 R48). -/
def mapDigest (s : State) : Digest := Config.sha384 (leBytes 16 (disabledMap s).toNat)

/-- Stage 6 (R46, R48). -/
def stageSix (s : State) (h : FormeHeader) (c : Committed) : Option FormeFail :=
  need (decide (h.minFw.toNat ≤ s.sec.fwVersion.toNat) && h.slotMask.toNat.testBit (mySlot s).toNat
    && (if c.header.geometry = 1 then c.geometry.mapDigest == mapDigest s
        else (bitsOf 8 c.geometry.regionUse.toNat).all (fun g =>
          decide (15 ≤ ((List.range 16).filter (fun i => goodCluster s (16 * g + i))).length)))) 6 .formeMismatch noSect

/-- A section's content, by type and instance. -/
def bodyOf (img : FormeImage) (t n : Nat) : Option SectBody :=
  (img.sections.find? (fun x => x.type.toNat == t && x.instance_.toNat == n)).map (fun x => x.body)

/-- The instances 0 to `n - 1` of one section type, by `pick`. -/
def bodies {A : Type} (img : FormeImage) (t n : Nat) (pick : SectBody → Option A) : Tab A :=
  (List.range n).filterMap (fun i => ((bodyOf img t i).bind pick).map (fun v => (i, v)))

/-- The kept sections of an image (02 R62). -/
def keptOf (img : FormeImage) : List KeptSection :=
  img.sections.map (fun x => { type := x.type, instance_ := x.instance_, length := x.length.toNat, digest := x.digest })

/-- The pickers of the section types. -/
def asRegion : SectBody → Option RegionConfig
  | .regionConfig v => some v
  | _ => none
def asPartition : SectBody → Option PartitionSect
  | .partition v => some v
  | _ => none
def asProgram : SectBody → Option ProgramSect
  | .program v => some v
  | _ => none
def asPlates : SectBody → Option (List PlateRef)
  | .plateRefs v => some v
  | _ => none
def asEntropy : SectBody → Option EntropySect
  | .entropy v => some v
  | _ => none
def asNumerics : SectBody → Option NumericsSect
  | .numerics v => some v
  | _ => none
def asAttention : SectBody → Option AttentionSect
  | .attention v => some v
  | _ => none

/-- The configuration that a full forme names; none when a required section is missing (02 *Section types*). -/
def fullConfig (img : FormeImage) : Option Committed :=
  let pc := img.header.partCount.toNat
  match bodyOf img 1 0, bodyOf img 2 0, bodyOf img 6 0 with
  | some (.roleParams rp), some (.geometry g), some (.imposition i) =>
    let regions := bodies img 3 8 asRegion
    let parts := bodies img 4 pc asPartition
    let programs := bodies img 5 pc asProgram
    let plates := bodies img 7 pc asPlates
    let numerics := bodies img 9 pc asNumerics
    let attention := bodies img 10 pc asAttention
    let attnNeeded := img.header.role == 2 || img.header.role == 3
    if regions.length = 8 && parts.length = pc && programs.length = pc && plates.length = pc && numerics.length = pc
        && (!attnNeeded || attention.length = pc) then
      some { header := img.header, role := rp, geometry := g, regions := regions, parts := parts, programs := programs
             imposition := i, plates := plates, entropy := bodies img 8 pc asEntropy, numerics := numerics
             attention := attention
             selftest := match bodyOf img 11 0 with
               | some (.selftest b _) => some b.toNat
               | _ => none
             kept := keptOf img }
    else none
  | _, _, _ => none

/-! ### Partial formes (02 *What a partial forme may change*, R64) -/

/-- The partitions whose REGION_CONFIG names a region of `mask`. -/
def targetParts (c : Committed) (mask : Nat) : List Nat :=
  (c.parts.filter (fun e => e.2.regionMask.toNat &&& mask != 0)).map (fun e => e.1)

/-- New instances take the place of old ones. -/
def overlay {A : Type} (old new : Tab A) : Tab A := new.foldl (fun t e => Tab.put t e.1 e.2) old

/-- The sections of a partial forme are of permitted types and targets (R64). -/
def partialSections (c : Committed) (img : FormeImage) (mask : Nat) : Option FormeFail :=
  let targets := targetParts c mask
  firstFail ((indexed img.sections).map (fun x =>
    let t := x.2.type.toNat
    let n := x.2.instance_.toNat
    need (match x.2.body with
      | .regionConfig v => mask.testBit n && (Tab.find c.regions n).elim false (fun r => r.partition == v.partition)
      | _ => (t == 5 || t == 7 || t == 8 || t == 9 || t == 10) && targets.contains n) 5 .malformed x.1))

/-- The base configuration with the sections of a partial forme in their places. -/
def partialConfig (c : Committed) (img : FormeImage) : Committed :=
  let replaced := keptOf img
  { c with
    regions := overlay c.regions (bodies img 3 8 asRegion)
    programs := overlay c.programs (bodies img 5 8 asProgram)
    plates := overlay c.plates (bodies img 7 8 asPlates)
    entropy := overlay c.entropy (bodies img 8 8 asEntropy)
    numerics := overlay c.numerics (bodies img 9 8 asNumerics)
    attention := overlay c.attention (bodies img 10 8 asAttention)
    kept := c.kept.filter (fun k => !replaced.any (fun n => n.type == k.type && n.instance_ == k.instance_)) ++ replaced }

/-- Shared plates are the base's own: none is added, removed or altered (02 *What a partial forme may change*). -/
def sharedKept (old new : Committed) : Bool :=
  let shared (c : Committed) : List PlateRef := (allRefs c).filter (fun x => decide (1 < (bitsOf 8 x.partMask.toNat).length))
  (shared new).all (fun x => (shared old).contains x) && (shared old).all (fun x => (shared new).contains x)

/-- A partial forme's ENTROPY replaces no table that a non-target partition declares, and none that a shared plate names
(06 R171): `named` tells the tables of the resident shared plates. -/
def entropyKept (old : Committed) (img : FormeImage) (mask : Nat) (named : Nat → Bool) : Bool :=
  let targets := targetParts old mask
  let held (x : EntropyEntry) (ps : Nat → Bool) : Bool :=
    old.entropy.all (fun y => !ps y.1 || !(y.2.entries.any (fun f => f.table == x.table)) || y.2.entries.contains x)
  (bodies img 8 8 asEntropy).all (fun e =>
    e.2.entries.all (fun x => held x (fun p => !targets.contains p) && (!named x.table.toNat || held x (fun p => p == e.1)))
      && (Tab.getD old.entropy e.1 default).entries.all (fun x => !named x.table.toNat || e.2.entries.contains x))

/-- The header fields that a partial forme must share with its base (02 *What a partial forme may change*). -/
def sameHeader (a b : FormeHeader) : Bool :=
  a.role == b.role && a.geometry == b.geometry && a.slotMask == b.slotMask && a.firstLayer == b.firstLayer
    && a.layerCount == b.layerCount && a.nPrompt == b.nPrompt && a.nGen == b.nGen && a.nCache == b.nCache
    && a.sysSize == b.sysSize && a.partCount == b.partCount

end Sys2Proof.Machine
end

