-- ==== Sys2Proof/Machine/Silver.lean ====
section
/-!
DEFINITION. Bringing in a spare (09 R247 to R253): the survivor's copy with its journal and checkpoints, what the spare
does with maps, records and pages, and how bring-in ends.
-/

namespace Sys2Proof.Machine

/-- Frames copied between checkpoints (09 R251). -/
def ckptFrames : Nat := 16384

/-- Journal entries at most (09 R251). -/
def journalMax : Nat := 1048576

/-! ### The survivor -/

/-- Rows of a page that hold the entries of a mask, zeros in the others. -/
def maskRows (n : Nat) (w : BitVec 64) (b : List Byte) : List Byte :=
  ((List.range 64).map (fun e => if maskBit w e then (b.drop (e * n)).take n else List.replicate n 0)).flatten

/-- The step tags of the entries of a mask. -/
def maskTags (w : BitVec 64) (t : Tab Word) : Tab Word := t.filter (fun e => maskBit w e.1)

/-- WRITTEN entries that a page's mask begins with: its content up to the committed length (08 R213; 09 R250). -/
def leadRows (w : BitVec 64) : Nat := ((List.range 64).takeWhile (maskBit w)).length

/-- The slot image of an open page, as bring-in carries it: its WRITTEN rows, then header and step tags (08 R210, 09 R248). No
rejected entry reaches the partner (08 R225). -/
def openImage (s : State) (g : Galley) (l p : Nat) : List Byte :=
  let x := pageOf g 0 l p
  let rows := maskRows (rowBytes s g.part.toNat) x.written (pageContent s g 0 l p)
  rows ++ List.replicate (0xE000 - rows.length) 0
    ++ headerBytes g.reqId l p { x with spec := 0, tags := maskTags x.written x.tags } 0

/-- The plain content of a page with its digest: of an open page up to the committed length (09 R250). -/
def silverContent (s : State) (g : Galley) (k l p : Nat) : List Byte × Digest :=
  let x := pageOf g k l p
  let b := pageContent s g k l p
  if k = 0 && x.state == 1 then
    (openImage s g l p, Config.sha384 (b.take (leadRows x.written * rowBytes s g.part.toNat)))
  else if k = 0 then (b, x.sealDigest)
  else (b, Config.sha384 b)

/-- Send one page to the spare, in its parts, and journal it (09 R248, R251); a page that cannot be read is lost instead (07 R184,
R189; 06 R164). -/
def silverPage (q : ReqId) (k l p : Nat) (reads : ReadOutcome) (s : State) : State :=
  match galleyOf s q with
  | none => s
  | some g =>
    let (ok, s) := moverRead g [(k, l, p)] (frameOutcome (pageOf g k l p).frame reads) s
    if !ok then s else
    let d := partnerOr s
    let (b, dg) := silverContent s g k l p
    let s := meterT2 g.tenant b.length (meterT1 g.tenant b.length (pageUpd q k l p (fun x => { x with sent := true }) s))
    let s := journal [{ req := q, layer := l, kind := k, page := p }]
      { s with pair := { s.pair with sinceCkpt := s.pair.sinceCkpt + 1 } }
    (pageParts q k l p b dg).foldl (fun s x => trayIssue d (.page (moverHdr s d 0xD q) x) (.silver q) s) s

/-- Send a galley's map and record (09 R248); `released` says that it is live-mirrored from here on (log entry 199). -/
def silverMap (q : ReqId) (released : Bool) (s : State) : State :=
  match galleyOf s q with
  | none => s
  | some g =>
    let d := partnerOr s
    let s := (mapWrites s g).foldl (fun s r => trayIssue d r (.silver q) s) s
    let s := journal [{ req := q, layer := 0, kind := 3, page := 0 }, { req := q, layer := 0, kind := 4, page := 0 }] s
    trayIssue d (.record (moverHdr s d 0xD q) q { recUpdate g.rec_ with released := released }) (.silver q)
      (galleyUpd q (fun g => { g with copied := true }) s)

/-- The next sealed page of a galley that has not been sent, layer by layer in ascending page order (09 R248). -/
def nextSealed (g : Galley) : Option (Nat × Nat) :=
  g.layer.findSome? (fun l => (l.2.pages.find? (fun p => (p.2.state == 2 || p.2.state == 3) && !p.2.sent)).map (fun p => (l.1, p.1)))

/-- Every T1 page of a galley that has not been sent: kind, layer, page. -/
def unsentPages (g : Galley) : List (Nat × Nat × Nat) :=
  (g.layer.map (fun l =>
    ((l.2.pages.filter (fun p => inT1 p.2 && !p.2.sent)).map (fun p => (0, l.1, p.1)))
      ++ ((l.2.thumbs.filter (fun p => inT1 p.2 && !p.2.sent)).map (fun p => (1, l.1, p.1))))).flatten
    ++ ((g.hist.filter (fun p => inT1 p.2 && !p.2.sent)).map (fun p => (2, 0, p.1)))

/-- The hold phase of a galley, done in one go: the pages not yet sent, the map and the record again; from then on the
galley is live-mirrored (09 R248). -/
def silverHold (q : ReqId) (reads : ReadOutcome) (s : State) : State :=
  match galleyOf s q with
  | none => s
  | some g =>
    let s := (unsentPages g).foldl (fun s x => silverPage q x.1 x.2.1 x.2.2 reads s) s
    galleyUpd q (fun g => { g with mirrored := true }) (silverMap q true s)

/-- Ask for a checkpoint (09 R251). A cursor of all ones marks the final one (log entry 56). -/
def ckptAsk (final : Bool) (s : State) : State :=
  let n := s.pair.ckpt + 1
  let d := partnerOr s
  let cur := if final then 2 ^ 64 - 1 else s.pair.cursor.1
  trayIssue d (.ckpt { moverHdr s d 0xD 0 with part := 0 } (BitVec.ofNat 32 n) (BitVec.ofNat 64 cur)
    (BitVec.ofNat 32 s.pair.cursor.2)) (.ckpt n)
    { s with pair := { s.pair with ckptAsked := some n, finalCkpt := final } }

/-- Copying goes on until a checkpoint is due or every galley has been copied (09 R248, R249, R251, R252). -/
def silverPump (reads : ReadOutcome) : Nat → State → State
  | 0, s => s
  | fuel + 1, s =>
    if s.pair.state ≠ 5 || s.pair.ckptAsked.isSome || decide (ckptFrames ≤ s.pair.sinceCkpt)
        || decide (journalMax ≤ s.pair.journal.length) then s else
    match s.req.galleys.find? (fun g => decide (s.pair.cursor.1 ≤ g.1)) with
    | none => ckptAsk true s
    | some (k, g) =>
      let q := g.reqId
      let past (s : State) : State := { s with pair := { s.pair with cursor := (k + 1, 0) } }
      if g.mirrored then silverPump reads fuel (past s)
      else if isShelved g then
        silverPump reads fuel (past (galleyUpd q (fun g => { g with mirrored := true }) (silverMap q true s)))
      else if !g.copied then silverPump reads fuel (silverMap q false s)
      else
        match nextSealed g with
        | some (l, p) =>
          silverPump reads fuel (silverPage q 0 l p reads { s with pair := { s.pair with cursor := (k, s.pair.cursor.2 + 1) } })
        | none => silverPump reads fuel (past (silverHold q reads s))

/-- Enough steps for the copy between two checkpoints. -/
def silverFuel (s : State) : Nat :=
  2 * s.req.galleys.length + (s.req.galleys.map (fun g => (galleyPages g.2).length)).sum + 4

/-- Continue the copy; `reads` is what its reads showed, and a corrected one counts once. -/
def silverRun (reads : ReadOutcome) (s : State) : State :=
  let s := match reads with
    | .corrected _ => (readOutcome reads s).2
    | _ => s
  silverPump reads (silverFuel s) s

/-- Forget the marks of a bring-in on every galley. -/
def silverClear (s : State) : State :=
  let pg (p : Page) : Page := { p with sent := false, misses := 0, verified := false }
  { s with req := { s.req with galleys := s.req.galleys.map (fun g => (g.1, { g.2 with
      mirrored := false, verified := false, copied := false
      layer := g.2.layer.map (fun l => (l.1, { l.2 with
        pages := l.2.pages.map (fun p => (p.1, pg p.2)), thumbs := l.2.thumbs.map (fun p => (p.1, pg p.2)) }))
      hist := g.2.hist.map (fun p => (p.1, pg p.2)) })) } }

/-- A member's pair state, with what bring-in kept dropped. -/
def pairState (st : BitVec 4) (s : State) : State :=
  { s with pair := { s.pair with
      state := st, journal := [], ckptAsked := none, finalCkpt := false, sinceCkpt := 0, cursor := (0, 0)
      ckptCursor := (0, 0), stored := none, ckptWait := none, untrusted := false, alone := false } }

/-- PAIR_STATUS.CODE; a bring-in that ends with another code than OK is an error (17 R448 bit 5). -/
def silverCode (c : Status) (s : State) : State :=
  let s := { s with pair := { s.pair with code := codeOf c } }
  if c = .ok then s else noteErr 5 0 0x004 s

/-- Frees every galley this member holds, with its charges; the records stay (09 R252). -/
def freeAllGalleys (s : State) : State := s.req.galleys.foldl (fun s g => freeGalley g.2.reqId s) s

/-- The records of members only, whose galleys the spare frees. -/
def freeMemberRecs (s : State) : State :=
  s.req.recs.foldl (fun s r => if (r.2.view &&& 3) == 0 && r.2.state != 8 then recFree r.2.reqId s else s) s

/-- Bring-in ends before completion: the survivor is DEGRADED, the spare frees what it received and is SPARE
(09 R252). -/
def silverEnd (c : Status) (s : State) : State :=
  if s.pair.state = 5 then mirrorsAlone (silverCode c (silverClear (pairState 3 s)))
  else if s.pair.state = 6 then silverCode c (freeMemberRecs (freeAllGalleys (pairState 4 s)))
  else s

/-- Bring-in completes: both members are PAIRED (09 R252). The rule says 'the device' of PAIR_SILVERS and the pair-event vector:
each member counts and raises its own (DESIGN CHOICE, log entry 200). -/
def silverDone (s : State) : State :=
  msix 0 1 { (silverCode .ok (silverClear (pairState 2 s))) with
    pair := { (silverCode .ok (silverClear (pairState 2 s))).pair with silvers := satInc s.pair.silvers } }

/-- A checkpoint is acknowledged (09 R251 step 3, R252). -/
def ckptAcked (n : Nat) (reads : ReadOutcome) (s : State) : State :=
  if s.pair.state = 5 && s.pair.ckptAsked == some n then
    let s := { s with pair := { s.pair with
      ckpt := n, journal := [], sinceCkpt := 0, ckptAsked := none, ckptCursor := s.pair.cursor } }
    if s.pair.finalCkpt then silverDone s else silverRun reads s
  else s

/-- The spare's answer to a part of a page (09 R250). -/
def silverAnswer (r : TrayReq) (c : Status) (reads : ReadOutcome) (s : State) : State :=
  if s.pair.state ≠ 5 then s else
  match r with
  | .page _ p =>
    if !p.lastPart then s else
    let k := p.kind.toNat
    let l := p.layer.toNat
    let i := p.lpage.toNat
    match galleyOf s p.req with
    | none => s
    | some g =>
      if c ≠ .ok ∧ c ≠ .integrity then s
      else if c = .ok then
        pageUpd p.req k l i (fun x => { x with verified := true, state := if x.state = 2 then 3 else x.state })
          { s with pair := { s.pair with silverDone := s.pair.silverDone + 1 } }
      else if (pageOf g k l i).misses ≥ 2 then silverEnd .integrity s
      else silverPage p.req k l i reads (pageUpd p.req k l i (fun x => { x with misses := x.misses + 1 }) s)
  | _ => s

/-- What an item of the journal names is sent again: a page that still lies in T1, the map and record otherwise, and the drop of a
galley that is gone (09 R249, R252). -/
def silverAgain (reads : ReadOutcome) (j : JournalItem) (s : State) : State :=
  match galleyOf s j.req with
  | none => trayIssue (partnerOr s) (.drop (moverHdr s (partnerOr s) 0xD j.req) j.req) (.silver j.req) s
  | some g =>
    if j.kind ≤ 2 && inT1 (pageOf g j.kind j.layer j.page) then silverPage j.req j.kind j.layer j.page reads s
    else silverMap j.req g.mirrored s

/-- The spare is back from a warm reset: what the journal names is sent again and the copy goes on from the last
checkpoint's cursor (09 R252). -/
def silverResume (reads : ReadOutcome) (s : State) : State :=
  let items := s.pair.journal
  let s := { s with pair := { s.pair with
    cursor := s.pair.ckptCursor, ckptAsked := none, finalCkpt := false, sinceCkpt := 0, alone := false } }
  silverRun reads (items.foldl (fun s j => silverAgain reads j s) s)

/-! ### The spare -/

/-- The galley that a map's first bytes describe (08 R211). -/
def galleyOfMap (bs : List Byte) (src : Slot) (me : Slot) : Galley :=
  let r := recOfBytes ((bs.drop 0x80).take 128)
  let w := numAt bs 0x10 8
  let sv : Slot := BitVec.ofNat 4 (numAt bs 0x18 1)
  { reqId := BitVec.ofNat 64 (numAt bs 0x08 8), part := r.part, tenant := r.tenant, layers := numAt bs 4 2
    firstLayer := numAt bs 6 2, owner := BitVec.ofNat 12 w, count := w / 65536 % 2 ^ 32, serving := sv
    partner := if sv = me then src else me, slotB := decide (numAt bs 0x1A 1 % 2 = 1)
    coded := decide (numAt bs 0x1A 1 / 2 % 2 = 1), ver := BitVec.ofNat 8 (numAt bs 0x1B 1), table := numAt bs 0x1C 2
    hist := [], shelveSeq := BitVec.ofNat 32 (numAt bs 0x20 4), expiry := numAt bs 0x28 8, rec_ := r, layer := []
    resv := r.resv, pausedAt := none, op := .idle, drainShelf := false, faultAt := none, mirrored := false
    verified := false, copied := false, dropAfter := false, resume := none }

/-- A galley's map reaches the spare: the galley is created with its reservation (09 R248). -/
def spareMap (q : ReqId) (off : Nat) (bs : List Byte) (s : State) : State :=
  if s.pair.state = 6 && off = 0 && decide (0x100 ≤ bs.length) then
    match galleyOf s q with
    | none =>
      let g := galleyOfMap bs (BitVec.ofNat 4 (partnerOr s)) (mySlot s)
      let s := quotaUpd g.tenant (fun u => { u with t1Used := u.t1Used + g.resv }) s
      let s := { s with req := { s.req with galleys := Tab.put s.req.galleys q.toNat g } }
      mapWriteBytes q 0 bs (recCreate { g.rec_ with view := 8, resv := g.resv, held := 0 } s)
    | some _ => mapWriteBytes q 0 bs s
  else mapWriteBytes q off bs s

/-- A page that no copy is in progress of: verified, or written by the galley's own live-mirrored traffic (09 R250). -/
def pageGood (p : Page) : Bool := p.verified || (p.parts.isEmpty && p.misses == 0)

/-- Every page of a galley that the spare received is verified (09 R250). -/
def pagesVerified (g : Galley) : Bool := (galleyPages g).all pageGood

/-- A galley of the spare is verified once its map, its record and every page sent are (09 R250). -/
def verifyGalley (q : ReqId) (s : State) : State :=
  if s.pair.state ≠ 6 then s else
  galleyUpd q (fun g => { g with verified := g.mirrored && (g.verified || g.copied) && pagesVerified g }) s

/-- A member's own record says which member serves (08 R208 VIEW). -/
def memberView (me serving : Slot) (r : Rec) : Rec :=
  if r.view.toNat < 4 then r else
  { r with view := (r.view &&& 3) ||| (if me = serving then 4 else 8), servingSlot := BitVec.ofNat 8 serving.toNat }

/-- The owner's record of a galley reaches a member (08 R207, R215); at the spare it may release the galley, which is live-mirrored
from here on (09 R248; log entry 199). -/
def memberRecord (q : ReqId) (u : RecordUpdate) (s : State) : State :=
  match galleyOf s q with
  | none => s
  | some g =>
    let s := recUpd q (fun r => memberView (mySlot s) g.serving (followUpdate u r))
      (galleyUpd q (fun g => { g with rec_ := applyUpdate u g.rec_ }) s)
    if s.pair.state = 6 then
      verifyGalley q (galleyUpd q (fun g => { g with copied := true, mirrored := g.mirrored || u.released }) s)
    else s

/-- Store a checkpoint and answer it (09 R251 step 2); the final one makes the spare PAIRED (R252). -/
def ckptStore (h : TrayHdr) (n cur page : Nat) (s : State) : State :=
  let s := { s with pair := { s.pair with stored := some (n, cur, page), ckptWait := none, untrusted := false } }
  let s := homeFinish h .ok [] s
  if cur = 2 ^ 64 - 1 then silverDone s else s

/-- Every copied page of the spare is verified. -/
def spareVerified (s : State) : Bool := s.req.galleys.all (fun g => pagesVerified g.2)

/-- A checkpoint request at the spare: it waits until every copied page is verified (09 R251). -/
def ckptAt (h : TrayHdr) (n cur page : Nat) (s : State) : State :=
  if s.pair.state ≠ 6 then homeFinish h .denied [] s
  else if spareVerified s then ckptStore h n cur page s
  else { s with pair := { s.pair with ckptWait := some (h, n, cur, page) } }

/-- Step tags that a slot image carries, from 0xE100 on (08 R210). -/
def imageTags (bs : List Byte) : Tab Word :=
  (List.range 64).foldl (fun t e => Tab.put t e (BitVec.ofNat 32 (numAt bs (0xE100 + 4 * e) 4))) []

/-- Entries that a slot image's header says are WRITTEN, else those below the committed length. -/
def imageMask (g : Galley) (l i : Nat) (image : Bool) (bs : List Byte) : BitVec 64 :=
  if image then BitVec.ofNat 64 (numAt bs 0xE018 8) else maskTo ((layerOf g l).commit - i * 64)

/-- A copied page has been written: the digest of what now stands there (09 R250). -/
def writtenDigest (s : State) (q : ReqId) (k l i n : Nat) : Digest :=
  match galleyOf s q with
  | none => 0
  | some g =>
    let x := pageOf g k l i
    if x.state = 2 then x.sealDigest else Config.sha384 (t1Bytes s (x.frame * 65536) n)

/-- A copied page's digest does not match: the frame it was written into is retired, and the sender sends it again; a third
mismatch ends the bring-in (09 R250, 07 R189). -/
def pageMiss (q : ReqId) (k l i misses : Nat) (s : State) : State :=
  match galleyOf s q with
  | none => s
  | some g =>
    let f := (pageOf g k l i).frame
    let s := retireFrame f (emptyPage q k l i s)
    let s := verifyGalley q (pageUpd q k l i (fun x => { x with misses := misses + 1 }) s)
    if 2 ≤ misses && s.pair.state == 6 then silverEnd .integrity s else s

/-- A copied page matches its digest: it is verified. A sealed bring-in copy is MIRRORED; of a sealed recall or copy-out page the
digest goes to the partner, and what the partner sent of it is compared (08 R216, R217; 09 R250). -/
def pageMatch (q : ReqId) (k l i misses : Nat) (partner : Option Digest) (s : State) : State :=
  let s := verifyGalley q (pageUpd q k l i (fun x => { x with
    verified := true, misses := misses, partner := partner, state := if x.state = 2 && s.pair.state == 6 then 3 else x.state }) s)
  match galleyOf s q with
  | none => s
  | some g =>
    let x := pageOf g k l i
    if k = 0 && (x.state == 2 || x.state == 3) then
      compareSeal q l i (mirrorSend g
        [.sealDigest (moverHdr s (partnerOr s) 0xD q) q (BitVec.ofNat 16 l) (BitVec.ofNat 32 i) x.sealDigest 0] .none s)
    else s

/-- The last part of a copied page: it is written, and its digest recomputed over what was written (09 R250, 08 R234). Rows that the
spare itself took of an open page before its image came stay, where the image holds none: their writes are acknowledged (09 R248). -/
def pageEnd (p : PagePart) (bytes : List Byte) (s : State) : Status × State :=
  let q := p.req
  let k := p.kind.toNat
  let l := p.layer.toNat
  let i := p.lpage.toNat
  match galleyOf s q with
  | none => (.stateLost, s)
  | some g =>
    let old := pageOf g k l i
    let image := k = 0 && decide (0xE200 ≤ bytes.length)
    let whole := k = 0 && !image && decide (64 * rowBytes s g.part.toNat ≤ bytes.length)
    let w := imageMask g l i image bytes
    let rb := rowBytes s g.part.toNat
    let own := if image && old.state == 1 then old.written &&& ~~~w else 0
    let n := if image then leadRows w * rb else bytes.length
    let body := if image then
        ((List.range 64).map (fun e => if maskBit own e then t1Bytes s (old.frame * 65536 + e * rb) rb
          else (bytes.drop (e * rb)).take rb)).flatten
      else bytes
    let tags : Tab Word := if image then maskTags own old.tags ++ maskTags w (imageTags bytes) else []
    match restorePage q k l i whole (w ||| own) (tags.foldl (fun t e => Tab.put t e.1 e.2) []) body (emptyPage q k l i s) with
    | none => (.retryLater, s)
    | some s =>
      if writtenDigest s q k l i n = p.digest then (.ok, pageMatch q k l i old.misses old.partner s)
      else (.integrity, pageMiss q k l i old.misses s)

/-- Every page of a copy-out has arrived, and its full pages are MIRRORED (08 R234). -/
def copyComplete (g : Galley) : Bool :=
  (List.range g.layers).all (fun i =>
    let l := g.firstLayer + i
    let c := (layerOf g l).commit
    (List.range (c / 64)).all (fun p => (pageOf g 0 l p).state == 3) && (c % 64 == 0 || (pageOf g 0 l (c / 64)).state == 1))

/-- The serving member of a copy-out's destination confirms it to the source once it is complete (08 R234). -/
def copyCheck (q : ReqId) (s : State) : State :=
  match galleyOf s q with
  | none => s
  | some g =>
    match g.source with
    | none => s
    | some d =>
      if g.serving == mySlot s && copyComplete g then
        sendFw d 0 (.copyDone q .ok) (galleyUpd q (fun g => { g with source := none }) s)
      else s

/-- A copy-out fails at its destination: the source learns the code, and what was received is freed (08 R234). -/
def copyFailed (q : ReqId) (c : Status) (s : State) : State :=
  match galleyOf s q with
  | none => s
  | some g =>
    match g.source with
    | none => s
    | some d => recFree q (freeGalley q (sendFw d 0 (.copyDone q c) s))

/-- One part of a copied page arrives (08, *Mover operations*; 09 R250). -/
def pageArrive (p : PagePart) (s : State) : Status × State :=
  let q := p.req
  let k := p.kind.toNat
  let l := p.layer.toNat
  let i := p.lpage.toNat
  match galleyOf s q with
  | none => (.stateLost, s)
  | some g =>
    let parts := (pageOf g k l i).parts ++ [(p.partNo, p.bytes)]
    if p.lastPart then
      pageEnd p (((List.range (p.partNo + 1)).map (fun n => ((parts.find? (fun x => x.1 == n)).map (fun x => x.2)).getD [])).flatten) s
    else (.ok, pageUpd q k l i (fun x => { x with parts := (x.parts.filter (fun y => y.1 != p.partNo)) ++ [(p.partNo, p.bytes)] }) s)

/-- The owner's direct write of token identifiers into a history page (08 R221; log entry 46). -/
def historyPut (p : PagePart) (s : State) : Status × State :=
  match galleyOf s p.req with
  | none => (.stateLost, s)
  | some g =>
    let i := p.lpage.toNat
    let opened := if (pageOf g 2 0 i).state = 0 then openPage p.req 2 0 i 1 s else some s
    match opened with
    | none => (.retryLater, s)
    | some s =>
      match galleyOf s p.req with
      | none => (.stateLost, s)
      | some g =>
        let a := (pageOf g 2 0 i).frame * 65536 + p.partNo * 4096 + 4 * p.layer.toNat
        let n := p.bytes.length
        let (got, s) := if a % 512 = 0 ∧ n % 512 = 0 then (true, s) else readOutcome (seenOutcome s (.t1 a) n p.reads) s
        if got then (.ok, meterT1 g.tenant p.bytes.length (t1Write a p.bytes s)) else (.integrity, s)

/-- PAGE at a member, with the checkpoint it may have held up answered. -/
def pageAt (h : TrayHdr) (p : PagePart) (s : State) : State :=
  match galleyOf s p.req with
  | none => homeFinish h .stateLost [] s
  | some g =>
    let src := h.src.toNat % 4096
    let partner := (partnerDev s).any (fun d => d.toNat == src) || g.source.any (fun d => d.toNat == src)
    if p.kind = 2 && !p.lastPart && src == g.owner.toNat && !partner then
      let (c, s) := historyPut p s
      homeFinish h c [] s
    else if !partner then homeFinish h .denied [] s
    else
      let (c, s) := pageArrive p s
      let s := homeFinish h c [] (if c = .integrity then copyFailed p.req c s else copyCheck p.req s)
      match s.pair.ckptWait with
      | some (h, n, cur, page) => if spareVerified s then ckptStore h n cur page s else s
      | none => s

/-- SILVER_SETUP at the spare: the survivor's quota table replaces its own, its latent slots are written, and it becomes
SILVER_DST (09 R247; 07 R202). -/
def silverSetup (qs : List QuotaCopy) (ls : List LatentSlotCopy) (s : State) : State :=
  let quotas : Tab Quota := qs.foldl (fun t q => Tab.put t q.tenant.toNat
    { Tab.getD s.tier.quotas q.tenant.toNat {} with t1Limit := q.t1Limit.toNat, t3Limit := q.t3Limit.toNat }) []
  let s := { s with tier := { s.tier with quotas := quotas }, pair := { s.pair with state := 6, silverDone := 0 } }
  ls.foldl (fun s l =>
    let key := slotKey l.part.toNat l.table.toNat l.slot
    { s with codec := { s.codec with
        slots := Tab.upd s.codec.slots key {} (fun x => { x with valid := l.valid, version := l.version, format := l.format, lengths := l.lengths })
        active := if l.active then Tab.put s.codec.active l.part.toNat l.slot else s.codec.active } }) s

/-- What SILVER_SETUP carries of this member (09 R247). -/
def setupCopies (s : State) : List QuotaCopy × List LatentSlotCopy :=
  (s.tier.quotas.map (fun e => { tenant := BitVec.ofNat 16 e.1, t1Limit := BitVec.ofNat 32 e.2.t1Limit, t3Limit := BitVec.ofNat 32 e.2.t3Limit }),
    match s.forme.committed with
    | none => []
    | some c => (c.entropy.map (fun e =>
        if e.2.latentTable = 0 then [] else
        [false, true].map (fun b =>
          let x := slotOf s e.1 e.2.latentTable.toNat b
          ({ part := BitVec.ofNat 3 e.1, table := e.2.latentTable, slot := b, version := x.version, format := x.format
             lengths := x.lengths, valid := x.valid, active := Tab.getD s.codec.active e.1 false == b } : LatentSlotCopy)))).flatten)

/-! ### Loss of the partner (09 R245, R253) -/

/-- A paused galley whose word names the excluded member passes to this one, which serves it: OWNER_WORD is taken from the excluded
owner, and what waited for the request acts (08 R231, R235; log entry 202). -/
def takePaused (q : ReqId) (s : State) : State :=
  match galleyOf s q with
  | none => s
  | some g =>
    if some g.owner != partnerDev s then s else
    let s := pausedHere q (galleyUpd q (fun g => { g with owner := myDev s, count := g.count + 1 }) s)
    pausedEnds q (if isShelved g then galleyUpd q (fun g => { g with pausedAt := none }) s else s)

/-- This member serves every galley it holds, and of the seals knows its own alone (09 R245 step 2). -/
def serveAll (s : State) : State :=
  let me : Slot := mySlot s
  let recs : Tab Rec := s.req.recs.map (fun e => (e.1, memberView me me e.2))
  let layers : Tab GLayer → Tab GLayer := fun t => t.map (fun l => (l.1, { l.2 with
    pages := l.2.pages.map (fun p => (p.1, { p.2 with partner := none })) }))
  let galleys : Tab Galley := s.req.galleys.map (fun e => (e.1, { e.2 with
    serving := me, partner := if e.2.serving = me then e.2.partner else e.2.serving, recalled := false
    layer := layers e.2.layer, rec_ := { e.2.rec_ with servingSlot := BitVec.ofNat 8 me.toNat } }))
  let s := { s with req := { s.req with
      recs := recs
      galleys := galleys } }
  galleys.foldl (fun s g => takePaused g.2.reqId s) s

/-- A galley of the pair is lost: its requests follow the both-members rule of R235, and what was received is freed. -/
def galleyLost (q : ReqId) (s : State) : State :=
  let s := reportEnd q .stateLost s
  freeGalley q (noteErr 5 0 0x024 { s with pair := { s.pair with lost := satInc s.pair.lost } })

/-- Galleys of the pair that the survivor never sent are lost with it; the spare does not know their number (09 R253; log entry
201). -/
def unsentLost (s : State) : State :=
  let n := (Config.freeWord s.free).toNat
  let s := bumpFree { s with pair := { s.pair with lost := satAdd s.pair.lost n } }
  if n = 0 then s else noteErr 5 0 0x024 s

/-- The exclusion of this member's partner (09 R245, R252, R253). Of a SPARE whose DEGRADED partner is excluded the spec names no
next state: it is DEGRADED, as a WAITING member is (DESIGN CHOICE, log entry 198). -/
def partnerExcluded (s : State) : State :=
  if s.pair.state = 2 then mirrorsAlone (serveAll { s with pair := { s.pair with state := 3 } })
  else if s.pair.state = 5 then serveAll (silverEnd .ok s)
  else if s.pair.state = 6 then
    let lost := s.req.galleys.filter (fun g => !trusted s g.2)
    let s := unsentLost (lost.foldl (fun s g => galleyLost g.2.reqId s) s)
    mirrorsAlone (silverClear (serveAll (pairState 3 s)))
  else if s.pair.state = 1 || s.pair.state = 4 then { s with pair := { s.pair with state := 3 } }
  else s

end Sys2Proof.Machine
end

