-- ==== Sys2Proof/Machine/TrayHome.lean ====
section
/-!
DEFINITION. The home's side of the tray fabric (10): the checks of R276 in order, the execution of each request, the
order of R288, and the atomic unit (R279 to R282).
-/

namespace Sys2Proof.Machine

/-! ### Address fields (R267) -/

/-- Slot of a tray address. -/
def addrSlot (h : TrayHdr) : Nat := h.addr.toNat / 2 ^ 44

/-- Aperture of a tray address. -/
def addrAp (h : TrayHdr) : Nat := h.addr.toNat / 2 ^ 40 % 16

/-- Offset within the aperture. -/
def addrOff (h : TrayHdr) : Nat := h.addr.toNat % 2 ^ 40

/-- The source device of a packet. -/
def srcDev (h : TrayHdr) : Nat := h.src.toNat % 4096

/-! ### Step 1: MALFORMED -/

/-- Bytes `lo` to `hi` − 1 of a map are zero, as far as `bs`, which starts at map offset `off`, reaches them. -/
def mapZero (off lo hi : Nat) (bs : List Byte) : Bool := ((bs.take (hi - off)).drop (lo - off)).all (fun b => b == 0)

/-- The reserved bytes of a map that a MAP_WRITE carries are zero (08 R208, R211; 00 R5): of the header, of the record's copy, of the
layer descriptors and of the list entries. -/
def mapResvOk (layers off : Nat) (bs : List Byte) : Bool :=
  let lists := 0x100 + 32 * layers
  mapZero off 0x34 0x80 bs && mapZero off 0xB6 0xB8 bs && mapZero off 0xF0 0x100 bs
    && (List.range layers).all (fun i => mapZero off (0x112 + 32 * i) (0x114 + 32 * i) bs && mapZero off (0x118 + 32 * i) (0x120 + 32 * i) bs)
    && (List.range bs.length).all (fun i => decide (off + i < lists) || (off + i) % 4 != 3 || decide ((bs.getD i 0).toNat < 16))

/-- The reserved bytes of a latent page slot's header, in the part of an image that carries them, from 0xE000 on, are zero (08 R210;
00 R5). -/
def slotResvOk (bs : List Byte) : Bool :=
  let zero (lo hi : Nat) : Bool := ((bs.take hi).drop lo).all (fun b => b == 0)
  decide ((bs.getD 1 0).toNat < 2) && zero 0x03 0x04 && zero 0x06 0x08 && zero 0x0C 0x10 && zero 0x58 0x100

/-- A PAGE: its KIND, PART_NO and part (R273), and the reserved bytes of the slot header that a latent image carries (08 R210). -/
def pageOk (p : PagePart) : Bool :=
  decide (p.kind.toNat ≤ 2) && decide (p.partNo ≤ 15) && decide (p.bytes.length ≤ 4096)
    && (p.kind != 0 || p.partNo != 14 || slotResvOk p.bytes)

/-- The payload of a request is well formed, and its reserved fields are zero (R273, 08 R208, R210, R211, 00 R5). -/
def payloadOk (s : State) (r : TrayReq) : Bool :=
  match r with
  | .sealDigest _ _ _ _ _ resv => resv == 0
  | .record _ _ u | .commit _ _ _ _ u _ => u.resv == 0
  | .mapWrite _ _ off bs => mapResvOk (s.forme.committed.elim 0 (fun c => c.header.layerCount.toNat)) off.toNat bs
  | .page _ p => pageOk p
  | _ => true

/-- The header's reserved and zero fields (R271). -/
def hdrOk (s : State) (r : TrayReq) : Bool :=
  let h := reqHdr r
  let atomic := h.type == 3
  h.resv == 0 && payloadOk s r && (h.flags &&& 0xF1) == 0 && decide (h.part.toNat < 8) && decide (h.src.toNat < 4096)
    && decide (h.dst.toNat < 4096) && h.status == 0 && (h.flags.toNat.testBit 3 || h.mepoch == 0) && (atomic || h.op == 0)
    && h.type == reqType r
    && (match r with
        | .load _ _ => true
        | r => decide (h.len.toNat = reqPayload r))

/-- DST names this device and its window (R271). -/
def dstOk (s : State) (h : TrayHdr) : Bool :=
  decide (h.dst.toNat = (myDev s).toNat) && decide (addrSlot h = (mySlot s).toNat)

/-- An OP byte of R279. -/
def opOk (op : Byte) : Bool :=
  let f := field op.toNat 3 0
  let t := field op.toNat 6 4
  !op.toNat.testBit 7 && decide (1 ≤ f) && decide (f ≤ 4) && decide (t ≤ 4) && (f != 4 || t == 0 || t == 2)

/-- A size and alignment of R270. -/
def sizeOk (off n : Nat) : Bool := decide (1 ≤ n) && decide (n ≤ 4096) && decide (off % 4096 + n ≤ 4096)

/-- The aperture names the type, and the bits it does not use are zero (R267). -/
def apertureOk (r : TrayReq) : Bool :=
  let h := reqHdr r
  let ap := addrAp h
  let off := addrOff h
  match r with
  | .load _ _ => (ap ≤ 8 || (ap == 9 && off < 2 ^ 30) || (ap == 0xC && off == 0x10)) && sizeOk off h.len.toNat
  | .store _ d _ => (ap ≤ 7 || (ap == 9 && off < 2 ^ 30)) && sizeOk off d.length
  | .atomic _ _ _ _ =>
    (ap ≤ 7 || (ap == 9 && off < 2 ^ 30) || (ap == 0xC && off == 0x10)) && opOk h.op && off % atomicWidth h.op == 0
      && !(ap == 0xC && h.op == 0x24)
  | .ownerCas .. => ap == 0xC && off == 0x10 && h.op == 0x24
  | .append _ a row _ => ap == 0xA && off == 0 && a.resv == 0 && decide (1 ≤ a.cls.toNat) && decide (a.cls.toNat ≤ 3)
      && decide (a.rowBytes.toNat ≤ 896) && decide (row.length = a.rowBytes.toNat)
  | .chmsg _ _ => ap == 0xB && off < 2 ^ 16 && decide (off % 256 < 32)
  | _ => ap == 0xD && off == 0

/-- An APPEND, a MOVER or a galley-word CAS carries MEPOCH (R276 steps 1 and 5). -/
def needsEpoch (r : TrayReq) : Bool :=
  match r with
  | .load .. | .store .. | .chmsg .. | .atomic .. => false
  | _ => true

/-- Step 1 of R276. -/
def malformed (s : State) (r : TrayReq) : Bool :=
  !(hdrOk s r && dstOk s (reqHdr r) && apertureOk r && (!needsEpoch r || (reqHdr r).flags.toNat.testBit 3))

/-! ### Step 4: DENIED (R268, R269) -/

/-- The source's forme carries the home's MODEL_DIGEST, by its last link-state notice (R268). -/
def sameModel (s : State) (h : TrayHdr) : Bool :=
  match s.forme.committed with
  | none => false
  | some c =>
    srcDev h == (myDev s).toNat ||
    (match Tab.find s.near.lstate (srcDev h % 16) with
     | some l => l.model == c.header.modelDigest
     | none => false)

/-- Partition `p` contains the range (R181). -/
def inPartition (s : State) (p off n : Nat) : Bool :=
  match partition s p with
  | some q => decide (off + n ≤ q.t1Pages.toNat * 65536)
  | none => false

/-- A range of a partition's T1 space lies in its galley pool (R269, 07 R181). -/
def inPool (s : State) (p off : Nat) : Bool := decide (off / 65536 < poolSize s p)

/-- A load of a galley page slot: SEALED or MIRRORED pages, and every page for the galley's owner (07 R192, R269). -/
def poolLoadOk (s : State) (p off src : Nat) : Bool :=
  match pageInFrame s (Tab.getD s.forme.partBase p 0 + off / 65536) with
  | none => false
  | some (q, k, l, i) =>
    match galleyOf s q with
    | none => false
    | some g =>
      let x := pageOf g k l i
      x.state == 2 || x.state == 3 || g.owner.toNat == src

/-- A load of a galley page slot at a member without a trusted copy of the galley (09 R243). -/
def poolLoadLost (s : State) (r : TrayReq) : Bool :=
  match r with
  | .load h _ =>
    decide (addrAp h ≤ 7) && inPool s (addrAp h) (addrOff h) &&
    (match pageInFrame s (Tab.getD s.forme.partBase (addrAp h) 0 + addrOff h / 65536) with
     | some (q, _) => (galleyOf s q).any (fun g => !trusted s g)
     | none => false)
  | _ => false

/-- The plate that holds an offset of the plate space (R268). -/
def plateAt (s : State) (off : Nat) : Option PlateRef :=
  s.forme.resident.find? (fun r => r.place.toNat % 16 == 1 && decide (r.dest.toNat ≤ off)
    && decide (off < r.dest.toNat + r.plainLen.toNat))

/-- The cluster an address of aperture 0xB names (R267). -/
def apCluster (s : State) (h : TrayHdr) : Option Nat := physOf s (addrOff h / 256 % 256)

/-- The named cluster has a channel of KIND TRAY towards the source slot and cluster (R268). -/
def chanGranted (s : State) (h : TrayHdr) (send : Bool) : Bool :=
  match apCluster s h with
  | none => false
  | some n =>
    match channel s n (addrOff h % 32) with
    | none => false
    | some k =>
      k.entry.send == send &&
      (match k.entry.peer with
       | .tray slot cl _ => decide (slot.toNat = srcDev h % 16) && decide (cl.toNat = h.srcCl.toNat)
       | _ => false)

/-- A store or atomic may change bytes of an aperture (R268, R269, R280). -/
def writeGranted (s : State) (h : TrayHdr) (n : Nat) : Bool :=
  let ap := addrAp h
  let off := addrOff h
  if ap ≤ 7 then
    h.part.toNat == ap && inPartition s ap off n && sameModel s h && !inPool s ap off && !readOnly s ap off n
  else if ap == 9 then
    let r := off / 2 ^ 27
    let o := off % 2 ^ 27
    (regionsOf s h.part.toNat).contains r && !cacheMode s r && decide (o + n ≤ plateStart s r)
  else false

/-- Step 4 of R276: the access is granted. -/
def granted (s : State) (r : TrayReq) : Bool :=
  let h := reqHdr r
  let ap := addrAp h
  let off := addrOff h
  match r with
  | .load _ _ =>
    let n := h.len.toNat
    if ap ≤ 7 then
      h.part.toNat == ap && inPartition s ap off n && sameModel s h && (!inPool s ap off || poolLoadOk s ap off (srcDev h))
    else if ap == 8 then
      sameModel s h &&
      (match plateAt s off with
       | some x => x.partMask.toNat.testBit h.part.toNat && decide (off + n ≤ x.dest.toNat + x.plainLen.toNat)
       | none => false)
    else if ap == 9 then (regionsOf s h.part.toNat).contains (off / 2 ^ 27)
    else n == 8
  | .store _ d _ => writeGranted s h d.length
  | .atomic _ _ _ _ => writeGranted s h (atomicWidth h.op)
  | .chmsg _ _ => chanGranted s h false
  | _ => true

/-- Steps 1 to 5 of R276; OK when the type's own checks follow. A granted T2 read at a member that does not trust its copy is
answered with STATE_LOST (09 R243). -/
def r276 (s : State) (r : TrayReq) : Status :=
  let h := reqHdr r
  if malformed s r then .malformed
  else if srcDev h ≠ (myDev s).toNat ∧ (excluded s (srcDev h) ∨ exclEpoch s (srcDev h) ≠ h.xepoch) then .epochStale
  else if !formeServes s || ((addrAp h == 0xA || addrAp h == 0xC) && roleOf s != 3) then .formeMismatch
  else if !granted s r then .denied
  else if needsEpoch r then epochJudge s false h.mepoch
  else if poolLoadLost s r then .stateLost
  else .ok

/-! ### Loads, stores and atomics -/

/-- Where the bytes of an address lie that a load or an atomic reads. -/
def homePlace (s : State) (h : TrayHdr) : Place :=
  let off := addrOff h
  if addrAp h ≤ 7 then .t1 (partAddr s (addrAp h) + off)
  else if addrAp h == 8 then .t1 (plateAddr off)
  else if addrAp h == 9 then .slice (off / 2 ^ 27) (off % 2 ^ 27)
  else .other

/-- The bytes of a granted load, with its reads counted and checked (R269, 07 R184, R191, R193). A LOAD names no request, so the
galley whose OWNER_WORD it reads is not stated: the word is a free value (log entry 58). -/
def homeLoad (h : TrayHdr) (reads : ReadOutcome) (s : State) : Status × List Byte × State :=
  let (ok, s) := readOutcome (seenOutcome s (homePlace s h) h.len.toNat reads) s
  let n := h.len.toNat
  let off := addrOff h
  if !ok then (.integrity, [], s)
  else if addrAp h ≤ 7 then
    let (b, s) := partLoad (addrAp h) off n s
    (.ok, b, s)
  else if addrAp h == 8 then (.ok, t1Bytes s (plateAddr off) n, countGranules false (granules (plateAddr off) n) s)
  else if addrAp h == 9 then
    (.ok, sliceLoad s (off / 2 ^ 27) (off % 2 ^ 27) n, if cacheMode s (off / 2 ^ 27) then bumpFree s else s)
  else (.ok, leBytes 8 (Config.freeDWord s.free).toNat, bumpFree s)

/-- A granted store. -/
def homeStore (h : TrayHdr) (d : List Byte) (s : State) : State :=
  let off := addrOff h
  if addrAp h ≤ 7 then partStore (addrAp h) off d s else sliceStore (off / 2 ^ 27) (off % 2 ^ 27) d s

/-- A granted store; one that fills a granule in part reads it first (07 R185), and stores nothing where that read fails (07 R184,
R191). -/
def storeRead (h : TrayHdr) (d : List Byte) (reads : ReadOutcome) (s : State) : Status × State :=
  let a := addrOff h
  if addrAp h ≤ 7 && !d.isEmpty && (a % 512 != 0 || (a + d.length) % 512 != 0) then
    let o := seenOutcome s (.t1 (partAddr s (addrAp h) + a)) d.length reads
    let (got, s) := readOutcome o s
    if got then (.ok, homeStore h d s) else (.integrity, s)
  else (.ok, homeStore h d s)

/-- A signed value of an n-bit pattern. -/
def signedOf (bits v : Nat) : Int := if v < 2 ^ (bits - 1) then (v : Int) else (v : Int) - 2 ^ bits

/-- FP32 minimum: NaN if either is NaN, −0 below +0 (R279). -/
def f32Min (a b : Word) : Word :=
  if f32IsNan a || f32IsNan b then f32Nan else if f32Key a ≤ f32Key b then a else b

/-- The new value an atomic stores (R279). -/
def atomicNew (op : Byte) (old v new : Nat) : Nat :=
  let f := field op.toNat 3 0
  let t := field op.toNat 6 4
  let bits := if t = 2 ∨ t = 3 then 64 else 32
  let v := v % 2 ^ bits
  if f = 4 then (if old = v then new % 2 ^ bits else old)
  else if t = 4 then
    let a : Word := BitVec.ofNat 32 old
    let b : Word := BitVec.ofNat 32 v
    (if f = 1 then f32Add a b else if f = 2 then f32Min a b else f32Max a b).toNat
  else if f = 1 then (old + v) % 2 ^ bits
  else
    let less := if t = 1 ∨ t = 3 then decide (signedOf bits old ≤ signedOf bits v) else decide (old ≤ v)
    if (f = 2) = less then old else v

/-- An atomic on the bytes at a place read by `rd` and written by `wr`: the old value's bytes, and the state. -/
def atomicApply (op : Byte) (v new : Nat) (old : List Byte) (wr : List Byte → State → State) (s : State) : State :=
  wr (leBytes (atomicWidth op) (atomicNew op (leNat old) v new)) s

/-- An atomic of the tray fabric at a partition or slice (R280): the old value, or the code of a read that failed (07 R184). -/
def homeAtomic (h : TrayHdr) (v new : Nat) (reads : ReadOutcome) (s : State) : Status × List Byte × State :=
  let (c, old, s) := homeLoad { h with len := BitVec.ofNat 16 (atomicWidth h.op) } reads s
  if c = .ok then (.ok, old, atomicApply h.op v new old (homeStore h) s) else (c, [], s)

/-- The 512-byte line of a tray atomic; the lines of the slices are numbered apart from those of T1. -/
def trayLineOf (s : State) (h : TrayHdr) : Nat :=
  match homePlace s h with
  | .t1 a => a / 512
  | .slice r off => 2 ^ 48 + r * 2 ^ 18 + off / 512
  | .other => 2 ^ 49

/-- The unit serves a tray atomic's source at its line (R281). -/
def turnTaken (h : TrayHdr) (s : State) : State :=
  { s with near := { s.near with rotate := Tab.put s.near.rotate (trayLineOf s h) (srcDev h) } }

/-! ### Execution -/

/-- The source is this member's pair partner. -/
def fromPartner (s : State) (h : TrayHdr) : Bool := (partnerDev s).any (fun d => d.toNat == srcDev h)

/-- What an owner writes to both members of a bring-in is in the survivor's journal as well (09 R251). -/
def ownerJournal (q : ReqId) (r : TrayReq) (s : State) : State :=
  if !fromPartner s (reqHdr r) && (galleyOf s q).any (fun g => g.mirrored) then journal (journalOf r) s else s

/-- MAP_WRITE at a member; of RECORD.RESV alone it changes the reservation (07 R201; log entry 167). -/
def mapWriteAt (h : TrayHdr) (q : ReqId) (off : Nat) (bs : List Byte) (s : State) : State :=
  match galleyOf s q with
  | none =>
    if fromPartner s h && s.pair.state == 6 then homeFinish h .ok [] (spareMap q off bs s) else homeFinish h .stateLost [] s
  | some g =>
    if fromPartner s h && off == 0xC0 && bs.length == 4 then
      let (c, s) := reserveAsk q (leNat bs) s
      homeFinish h c [] s
    else if fromPartner s h || srcDev h == g.owner.toNat then homeFinish h .ok [] (spareMap q off bs s)
    else homeFinish h .denied [] s

/-- A member or the owner of a request, by this device's record of it. -/
def dropsRecord (s : State) (h : TrayHdr) (r : Rec) : Bool :=
  r.owner.toNat == srcDev h || (memberSlots r).any (fun d => (devOfSlot s d).toNat == srcDev h)

/-- A survivor that drops a galley for its owner tells the spare too, behind what it has sent of the galley (09 R249). -/
def dropCopy (g : Galley) (h : TrayHdr) (s : State) : State :=
  if s.pair.state = 5 && g.copied && !fromPartner s h then
    let drop : TrayReq := .drop (moverHdr s (partnerOr s) 0xD g.reqId) g.reqId
    let s := journal (journalOf drop) s
    if s.pair.alone then s else trayIssue (partnerOr s) drop (.silver g.reqId) s
  else s

/-- DROP at a member, or at another node of the stage that keeps a record (08 R230); with neither galley nor record the answer is
STATE_LOST (R209). -/
def dropAt (h : TrayHdr) (q : ReqId) (s : State) : State :=
  match galleyOf s q, recLive s q with
  | some g, r =>
    if !(fromPartner s h || srcDev h == g.owner.toNat) then homeFinish h .denied [] s
    else
      let s := dropCopy g h (freeGalley q s)
      homeFinish h .ok [] (match r with
        | some r => if (r.view &&& 3) == 0 then recRetire q ((statusOf r.status).getD .ok) s else s
        | none => s)
  | none, some r =>
    if !dropsRecord s h r then homeFinish h .denied [] s
    else homeFinish h .ok [] (if (r.view &&& 3) == 0 then recRetire q ((statusOf r.status).getD .ok) s else s)
  | none, none => homeFinish h (if (recFind s q).isSome then .ok else .stateLost) [] s

/-- SEAL_DIGEST from the partner (08 R216). -/
def sealDigestAt (h : TrayHdr) (q : ReqId) (l p : Nat) (d : Digest) (s : State) : State :=
  if !fromPartner s h then homeFinish h .denied [] s
  else if (galleyOf s q).isNone then homeFinish h .stateLost [] s
  else homeFinish h .ok [] (copyCheck q (compareSeal q l p (pageUpd q 0 l p (fun x => { x with partner := some d }) s)))

/-- RECORD at a member, or at a node of the stage (08 R207, R222). -/
def recordAt (h : TrayHdr) (q : ReqId) (u : RecordUpdate) (s : State) : State :=
  match galleyOf s q, recLive s q with
  | some g, _ =>
    if fromPartner s h || srcDev h == g.owner.toNat then homeFinish h .ok [] (memberRecord q u s)
    else homeFinish h .denied [] s
  | none, some _ => homeFinish h .ok [] (ownerRecord q u s)
  | none, none => homeFinish h .stateLost [] s

/-- A request with its checks passed takes effect and is answered (R266). -/
def homeRun (r : TrayReq) (s : State) : State :=
  match r with
  | .load h reads =>
    let (c, b, s) := homeLoad h reads s
    homeFinish h c b s
  | .store h d reads =>
    let (c, s) := storeRead h d reads s
    homeFinish h c [] s
  | .append h a row reads =>
    let (c, s) := appendAt (BitVec.ofNat 12 (srcDev h)) a row reads s
    homeFinish h c [] (if c = .ok && a.cls != 2 then ownerJournal a.req r s else s)
  | .chmsg h m =>
    match apCluster s h with
    | none => homeFinish h .denied [] s
    | some n => homeFinish h .ok [] (chanDeliver n (addrOff h % 32) none m s)
  | .atomic h v new reads =>
    let (c, old, s) := homeAtomic h v.toNat new.toNat reads (turnTaken h s)
    homeFinish h c old s
  | .ownerCas h q cmp new => pausedEnds q (ownerCasAt h q cmp.toNat new.toNat s)
  | .commit h q n step u reads => commitAt h q n.toNat step u reads s
  | .sealDigest h q l p d _ => sealDigestAt h q l.toNat p.toNat d s
  | .ownerFwd h q w =>
    if !fromPartner s h then homeFinish h .denied [] s
    else if (galleyOf s q).isNone then homeFinish h .stateLost [] s
    else homeFinish h .ok [] (wordFollows q w.toNat s)
  | .mapWrite h q off bs => mapWriteAt h q off.toNat bs (ownerJournal q r s)
  | .record h q u => recordAt h q u (ownerJournal q r s)
  | .drop h q => dropAt h q s
  | .page h p => pageAt h p (ownerJournal p.req r s)
  | .ckpt h n cur page => if fromPartner s h then ckptAt h n.toNat cur.toNat page.toNat s else homeFinish h .denied [] s
  | .silverSetup h qs ls =>
    if fromPartner s h && (s.pair.state == 4 || s.pair.state == 6) then homeFinish h .ok [] (silverSetup qs ls s)
    else homeFinish h .denied [] s

/-- Execute a request: the checks of R276, then its effect; a failed request has none. -/
def homeExecute (r : TrayReq) (s : State) : State :=
  match r276 s r with
  | .ok => homeRun r s
  | c => homeFinish (reqHdr r) c [] s

/-! ### Turns at the atomic unit (R281) -/

/-- The source that the unit's rotation takes next among those that wait: the first above the one last served, in
ascending identifier order, else the lowest (R281). -/
def rotateNext (last : Nat) (srcs : List Nat) : Option Nat :=
  let above := srcs.filter (fun d => decide (last < d))
  match (if above.isEmpty then srcs else above) with
  | [] => none
  | d :: rest => some (rest.foldl min d)

/-- The 512-byte line of a parked remote atomic. -/
def parkedLine (s : State) (p : Parked) : Nat :=
  match regionOf s p.msg.hdr.rkey with
  | some r => (partAddr s (r.t1.elim 0 (fun p => p.toNat)) + r.base.toNat + p.msg.hdr.offset.toNat) / 512
  | none => 0

/-- The atomic at the head of a source's reorder buffer, which waits for its turn. -/
def headAtomic (s : State) (d : Nat) : Option TrayHdr :=
  let x := traySrc s d
  match Tab.find x.reorder x.expect with
  | some (.atomic h _ _ _) => some h
  | _ => none

/-- The source whose turn it is at a line, among those with an atomic waiting for it: parked remote ones, and tray ones at the head of
their source's reorder buffer (R281). -/
def lineTurn (s : State) (line : Nat) : Option Nat :=
  rotateNext (Tab.getD s.near.rotate line 4096)
    ((s.near.combine.filter (fun q => parkedLine s q == line)).map (fun q => q.src.toNat)
      ++ (s.near.src.filter (fun e => (headAtomic s e.1).any (fun h => trayLineOf s h == line))).map (fun e => e.1))

/-- The request at the head of source `d`'s reorder buffer is an atomic that would take effect, and another source's turn comes first
(R281). -/
def turnWaits (s : State) (d : Nat) (r : TrayReq) : Bool :=
  match r with
  | .atomic h _ _ _ => r276 s r = .ok && lineTurn s (trayLineOf s h) != some d
  | _ => false

/-- Tray atomics that wait at this home, for their turn in SEQ order or at their line. -/
def trayAtomics (s : State) : Nat :=
  (s.near.src.map (fun e => (e.2.reorder.filter (fun r => match r.2 with
    | .atomic .. | .ownerCas .. => true
    | _ => false)).length)).sum

/-- NEAR_ATOMIC_HW with one more tray atomic waiting (R290). -/
def atomicWaits (s : State) : State :=
  { s with near := { s.near with atomicHw := max s.near.atomicHw (trayAtomics s + 1) } }

/-- Requests that waited in the reorder buffer follow in SEQ order (R288), an atomic once it has its turn (R281). -/
def homeDrain (d : Nat) : Nat → State → State
  | 0, s => s
  | fuel + 1, s =>
    let x := traySrc s d
    match Tab.find x.reorder x.expect with
    | none => s
    | some r =>
      if turnWaits s d r then s else
      homeDrain d fuel (homeExecute r (traySrcUpd d (fun x => { x with
        expect := (x.expect + 1) % 2 ^ 32, reorder := Tab.del x.reorder x.expect, running := x.running ++ [x.expect] }) s))

/-- Atomics that waited for their turn at a line take it, and what follows them in SEQ order (R281, R288). -/
def homeTurns (s : State) : State :=
  let ds := s.near.src.map (fun e => e.1)
  ds.foldl (fun s _ => ds.foldl (fun s d => homeDrain d ((traySrc s d).reorder.length + 1) s) s) s

/-- A duplicate of an executed request is answered from the record; a LOAD is answered by reading again (R288), which may be refused
by now. -/
def homeDuplicate (r : TrayReq) (c : Status) (b : List Byte) (s : State) : State :=
  let h := reqHdr r
  match r with
  | .load h reads =>
    if c ≠ .ok then trayAnswer h c b s else
    match r276 s r with
    | .ok =>
      let (c, b, s) := homeLoad h reads s
      trayAnswer h c b s
    | c => trayAnswer h c [] s
  | _ => trayAnswer h c b s

/-- A request arrives at its home: a fenced home drops it; its epoch is judged; it is executed in SEQ order (R274, R276,
R288). -/
def homeArrive (r : TrayReq) (s : State) : State :=
  if fenced s then s else
  let h := reqHdr r
  let d := srcDev h
  if excluded s d || exclEpoch s d != h.xepoch then
    if malformed s r then trayAnswer h .malformed [] s
    else trayAnswer h .epochStale [] { s with near := { s.near with stale := satInc s.near.stale } }
  else
    let s := if (traySrc s d).xepoch = h.xepoch then s else traySrcUpd d (fun _ => { xepoch := h.xepoch }) s
    let x := traySrc s d
    let n := h.seq.toNat
    let dup (s : State) : State := { s with near := { s.near with dups := satInc s.near.dups } }
    match x.executed.find? (fun e => e.1 == n) with
    | some (_, c, b) => homeDuplicate r c b (dup s)
    | none =>
      if x.running.contains n || (Tab.find x.reorder n).isSome then dup s
      else if n = x.expect || newer 32 n x.expect then
        homeDrain d (x.reorder.length + 1) (traySrcUpd d (fun x => { x with reorder := Tab.put x.reorder n r }) s)
      else s

end Sys2Proof.Machine
end

