-- ==== Sys2Proof/Machine/TrayReqs.lean ====
section
/-!
DEFINITION. The requester's side of the tray fabric (10): the end of a request (R266), acknowledged-through values and
fences (R283, R284), re-sending (R266, R285, R287), and disabling a link (R289).
-/

namespace Sys2Proof.Machine

/-! ### Re-sending -/

/-- Re-send an outstanding request over the path it has now, with its SEQ, TAG and content (R266, R285, R287). Without a
path it waits. -/
def resendReq (d seq : Nat) (s : State) : State :=
  match (trayDst s d).out.find? (fun o => o.seq == seq) with
  | none => s
  | some o =>
    match trayRoute s d with
    | none => s
    | some (_, via) =>
      trayQueue d true o.req o.why
        (trayDstUpd d (fun x => { x with out := x.out.map (fun o => if o.seq = seq then { o with via := via, path := true, sent := s.tb } else o) })
          { s with near := { s.near with resent := satInc s.near.resent } })

/-- Re-send, in SEQ order, every outstanding request that `sel` picks by its destination (R285). -/
def resendWhere (sel : Nat → TrayOut → Bool) (s : State) : State :=
  (List.range 16).foldl (fun s d =>
    ((trayDst s d).out.filter (fun o => sel d o)).foldl (fun s o => resendReq d o.seq s) s) s

/-- The near link to slot `v` went down: what it carried, directly or as the first hop, is sent again (R285), but for the
requests that still waited in its queue, as destination and SEQ (12 R335). -/
def nearLinkLost (v : Nat) (queued : List (Nat × Nat)) (s : State) : State :=
  resendWhere (fun d o => !queued.contains (d, o.seq) && (match o.via with
    | none => decide (d = v)
    | some w => decide (w.toNat = v))) s

/-- Intermediate `v` no longer forwards for this device (R287). -/
def viaLost (v : Nat) (s : State) : State := resendWhere (fun _ o => o.via == some (BitVec.ofNat 4 v)) s

/-- The slots whose path is not what it was: their CREDITs are sent again (R272). -/
def creditsRepath (before s : State) : State :=
  (List.range 16).foldl (fun s d =>
    if d = (mySlot s).toNat || trayRoute before d == trayRoute s d then s else resendCredits d s) s

/-! ### The end of a request -/

/-- A request that the issuer repeats after the home's RETRY_LATER (R287, 00 R9). -/
def reissue (d : Nat) (r : TrayReq) (w : TrayWhy) (s : State) : State :=
  trayIssue d (withHdr r { reqHdr r with flags := (reqHdr r).flags &&& 8 }) w s

/-- The channels of this device towards slot `d` (03 R87). -/
def towards (d : Nat) (p : ChanPeer) : Bool :=
  match p with
  | .tray slot _ _ => decide (slot.toNat = d)
  | _ => false

/-- The append of a speculative row. -/
def specRow (r : TrayReq) : Bool :=
  match r with
  | .append _ a _ _ => a.cls == 2
  | _ => false

/-- A mirrored write is answered: a partner that no longer holds the galley has nothing to keep in step, any other failure ends
the request (08 R236, 09 R244; log entry 175). -/
def mirrorEnds (id : Nat) (c : Status) (s : State) : State :=
  if isSuccess c || c = .stateLost then mirrorAck id s
  else
    let q := s.pair.mirrors.find? (fun m => m.id == id)
    mirrorAck id (match q with
      | some m => reportEnd m.req c s
      | none => s)

/-- The record names another live serving member than slot `d`. -/
def servesElsewhere (d : Nat) (s : State) (x : Rec) : Bool := x.servingSlot.toNat % 16 != d && slotLive s (x.servingSlot.toNat % 16)

/-- The swap of a hand-over ended with its member: it is repeated at the partner, which serves now (08 R223). -/
def handoverAgain (d : Nat) (q : ReqId) (s : State) : State :=
  match recLive s q, s.req.handovers.find? (fun h => h.req == q) with
  | some x, some h => if servesElsewhere d s x then ownerSwap q h.dest (.handover q) s else s
  | _, _ => s

/-- The swap of a pause ended with its member: the partner, which serves now, is the one that becomes the owner (08 R231, R235). -/
def pauseAgain (d : Nat) (q : ReqId) (s : State) : State :=
  match recLive s q with
  | some x => if servesElsewhere d s x then ownerSwap q (devOfSlot s x.servingSlot.toNat) (.pause q) s else s
  | none => s

/-- The swap from an excluded owner ended with its member: it is repeated at the partner (08 R223, R235). -/
def takeOverAgain (d : Nat) (q : ReqId) (s : State) : State :=
  match recLive s q with
  | some x => if servesElsewhere d s x then ownerSwapFrom q x.owner (myDev s) (.takeOver q) s else s
  | none => s

/-- The word names a member of the request's pair already: it was paused before its serving member was lost (08 R231). -/
def memberWord (q : ReqId) (word : Nat) (s : State) : Bool :=
  (recLive s q).any (fun x => (memberSlots x).any (fun m => decide ((devOfSlot s m).toNat = word % 4096)))

/-- What the end of a request does for its issuer. `local_`: it ended on this device, because the destination is excluded
(R266); `payload`: what the response carried, with what the reads of what follows at once showed. -/
def whyEnd (d : Nat) (r : TrayReq) (w : TrayWhy) (local_ : Bool) (c : Status) (payload : WithReads (List Byte)) (s : State) : State :=
  match w with
  | .cluster n =>
    if c = .epochStale || c = .fenced then breakChannels (towards d) c s
    else if isSuccess c then s
    else if c = .retryLater then (if local_ then s else reissue d r w s)
    else match (cluster s n).item with
      | some i => i.rows.foldl (fun s q => reportEnd q.req c s) s
      | none => s
  | .append q _ =>
    match recLive s q with
    | none => s
    | some x =>
      if c = .retryLater && specRow r then recUpd q (fun x => { x with noSpec := true }) s
      else if isSuccess c || c = .retryLater || local_ || (c = .stateLost && x.servingSlot.toNat % 16 != d) then s else reportEnd q c s
  | .commit q =>
    if local_ then
      (match recLive s q with
       | some x => if x.servingSlot.toNat % 16 != d then commitIssue q s else s
       | none => s)
    else commitAnswer q c s
  | .handover q =>
    if local_ then handoverAgain d q s
    else if c = .ok then handoverDone q s
    else if c = .retryLater then reissue d r w s
    else if c = .denied && (s.req.handovers.any (fun h => h.req == q && decide (leNat (payload.val.take 8) = h.dest.toNat + 65536 * (h.count + 1))))
      then handoverDone q s
    else reportEnd q c s
  | .pause q =>
    if local_ then pauseAgain d q s
    else if c = .ok then pauseDone q s
    else if c = .retryLater then reissue d r w s
    else if c = .denied && memberWord q (leNat (payload.val.take 8)) s then pauseDone q s
    else reportEnd q c s
  | .mirror id => if local_ then s else if c = .retryLater then reissue d r w s else mirrorEnds id c s
  | .takeOver q =>
    if local_ then takeOverAgain d q s
    else if c = .retryLater then reissue d r w s else takeOverAnswer q c (leNat (payload.val.take 8)) s
  | .reserve q => if c = .retryLater && !local_ then reissue d r w s else reserveAnswer q (local_ || isSuccess c) s
  | .drop q => if c = .retryLater && !local_ then reissue d r w s else dropAcked q d s
  | .record _ | .other => if c = .retryLater && !local_ then reissue d r w s else s
  | .silver _ => if local_ then s else if c = .retryLater then reissue d r w s else silverAnswer r c payload.reads s
  | .ckpt n => if local_ then s else if isSuccess c then ckptAcked n payload.reads s else if c = .retryLater then reissue d r w s else s

/-- The acknowledged-through value moves over the SEQs that have been answered (R283). -/
def advanceThrough : Nat → TrayDst → TrayDst
  | 0, x => x
  | fuel + 1, x =>
    let n := (x.through + 1) % 2 ^ 32
    if x.answered.contains n then
      advanceThrough fuel { x with through := n, answered := x.answered.filter (fun m => m != n) }
    else x

/-- The first failing code in destination and SEQ order (R284). -/
def fenceFirst (a : Option (Nat × Nat × Status)) (d n : Nat) (c : Status) : Option (Nat × Nat × Status) :=
  match a with
  | none => some (d, n, c)
  | some (d', n', c') => if d < d' || (d = d' && newer 32 n' n) then some (d, n, c) else some (d', n', c')

/-- A request to `d` with SEQ `n` has been answered with `c`: the fences that count it take its code (R284). -/
def fenceCount (d n : Nat) (c : Status) (s : State) : State :=
  if isSuccess c then s else
  { s with near := { s.near with fences := s.near.fences.map (fun f =>
      if f.marks.any (fun m => m.1 == d && !newer 32 n m.2) then { f with code := fenceFirst f.code d n c } else f) } }

/-- Every destination of a fence is acknowledged through its mark (R283). -/
def fenceDone (s : State) (f : Fence) : Bool := f.marks.all (fun m => !newer 32 m.2 (trayDst s m.1).through)

/-- Fences that are complete end: the COMMIT of the hand-over follows, or the request ends with the fence's code
(R284, 08 R222 step 3). -/
def fencesRun (s : State) : State :=
  let done := s.near.fences.filter (fenceDone s)
  let s := { s with near := { s.near with fences := s.near.fences.filter (fun f => !fenceDone s f) } }
  done.foldl (fun s f => match f.code with
    | none => commitIssue f.req s
    | some (_, _, c) => if fenced s then addCond f.req c s else commitFailed f.req c s) s

/-- The request with SEQ `n` to slot `d` ends with code `c` (R266, R283). -/
def trayEnd (d n : Nat) (local_ : Bool) (c : Status) (payload : WithReads (List Byte)) (s : State) : State :=
  match (trayDst s d).out.find? (fun o => o.seq == n) with
  | none => s
  | some o =>
    let s := trayDstUpd d (fun x => advanceThrough (x.answered.length + 1)
      { x with out := x.out.filter (fun o => o.seq != n), answered := x.answered ++ [n] }) s
    let s := whyEnd d o.req o.why local_ c payload (fenceCount d n c s)
    trayDrainAll (fencesRun s)

/-! ### Disabling a link (R289) -/

/-- The near link index's far slot. -/
def nearSlot (s : State) (k : Nat) : Nat := ((mySlot s).toNat + k + 1) % 16

/-- A request that was sent over near link `k` is outstanding. -/
def nearBusy (s : State) (k : Nat) : Bool :=
  (List.range 16).any (fun d => (trayDst s d).out.any (fun o => o.path && match o.via with
    | none => decide (d = nearSlot s k)
    | some v => decide (v.toNat = nearSlot s k)))

/-- A link in DRAINING with nothing outstanding and nothing queued is DISABLED (R289). -/
def nearDrained (s : State) : State :=
  (List.range 15).foldl (fun s k =>
    if (link s k).state == 4 && !nearBusy s k && (link s k).queue.isEmpty then
      linkUpd k (fun l => { sessionOver l with state := 5 }) s
    else s) s

/-- Tell every slot that can be reached about this device's near links (R268, R286). -/
def sendLstate (s : State) : State :=
  let up : BitVec 15 := BitVec.ofNat 15 (((List.range 15).filter (linkIsUp s)).map (fun k => 2 ^ k)).sum
  let model := match s.forme.committed with
    | some c => c.header.modelDigest
    | none => 0
  (List.range 15).foldl (fun s k =>
    let h : TrayHdr := { hdr0 with
      type := 0x08, src := BitVec.ofNat 16 (myDev s).toNat, dst := BitVec.ofNat 16 (devOfSlot s (nearSlot s k)).toNat
      xepoch := s.pair.epoch, len := 51 }
    trayPacket (nearSlot s k) (fun two => .lstate { h with flags := if two then 2 else 0 } up (BitVec.ofNat 8 (roleOf s)) model)
      0 0 none 51 s) s

/-! ### Packets that arrive -/

/-- A notice or response is judged by its sender (R276 step 2, 09 R261). -/
def senderOk (s : State) (h : TrayHdr) : Bool := !excluded s (srcDev h) && exclEpoch s (srcDev h) == h.xepoch

/-- A response: the home's own answer, or an intermediate's RETRY_LATER on its behalf (R266, R287). -/
def respAt (h : TrayHdr) (payload : WithReads (List Byte)) (s : State) : State :=
  if !senderOk s h || h.type != 0x10 || !h.flags.toNat.testBit 0 || h.resv ≠ 0 || h.dst.toNat ≠ (myDev s).toNat then s else
  match statusOf h.status with
  | none => s
  | some c =>
    let d := h.tag.toNat % 16
    let n := h.seq.toNat
    if srcDev h = (devOfSlot s d).toNat then nearDrained (trayEnd d n false c payload s)
    else if c = .retryLater then resendReq d n s
    else s

/-- The header of a notice: step 1 of R276 but for its address, then steps 2 and 3 (R271, R276). -/
def noticeOk (s : State) (h : TrayHdr) (type : Byte) : Bool :=
  h.type == type && h.resv == 0 && (h.flags &&& 0xFD) == 0 && h.dst.toNat == (myDev s).toNat && decide (h.src.toNat < 4096)
    && decide (h.part.toNat < 8) && h.status == 0 && h.mepoch == 0 && h.op == 0 && senderOk s h && formeServes s

/-- CREDIT (R268, R272): the serial maximum of the counts received is the total of credits returned. -/
def creditAt (h : TrayHdr) (count : Word) (s : State) : State :=
  if !noticeOk s h 0x06 || addrSlot h ≠ (mySlot s).toNat || addrAp h ≠ 0xB || 2 ^ 16 ≤ addrOff h || 32 ≤ addrOff h % 256
    || h.len ≠ 4 then s
  else if !chanGranted s h true then { s with near := { s.near with denied := satInc s.near.denied } }
  else
    match apCluster s h with
    | none => s
    | some n =>
      let ch := addrOff h % 32
      let key := n * 32 + ch
      let old := Tab.getD s.near.received key 0
      if newer 32 count.toNat old.toNat then
        creditBack n ch (count - old).toNat { s with near := { s.near with received := Tab.put s.near.received key count } }
      else s

/-- LSTATE (R268, R286): the choice of every path is remade. Step 3 of R276 applies to it as to every notice (log entry 206). -/
def lstateAt (h : TrayHdr) (links : BitVec 15) (role : Byte) (model : Digest) (s : State) : State :=
  if !noticeOk s h 0x08 || srcDev h / 16 ≠ (myTray s).toNat || srcDev h = (myDev s).toNat then s
  else
    let s' := { s with near := { s.near with
      lstate := Tab.put s.near.lstate (srcDev h % 16) { links := links, role := role, model := model } } }
    creditsRepath s s'

/-- A request has had no response for 64 µs (R266). -/
def noResponse (d n : Nat) (s : State) : State :=
  match (trayDst s d).out.find? (fun o => o.seq == n) with
  | none => s
  | some o =>
    if o.sent + 40000 ≤ s.tb then
      let s := if o.counted then s else
        noteErr 8 0 0x008 (trayDstUpd d (fun x => { x with out := x.out.map (fun o => if o.seq = n then { o with counted := true } else o) })
          { s with near := { s.near with timeout := satInc s.near.timeout } })
      let s := sendSuspect (devOfSlot s d) s
      resendReq d n (trayDstUpd d (fun x => { x with out := x.out.map (fun o => if o.seq = n then { o with sent := s.tb } else o) }) s)
    else s

/-- A packet for another slot is forwarded, or answered or dropped (R287). -/
def forwardAt (p : FwdPacket) (s : State) : State :=
  let h := p.hdr
  let d := h.dst.toNat % 4096
  if d = (myDev s).toNat || d / 16 ≠ (myTray s).toNat || h.src.toNat % 4096 = (myDev s).toNat then s else
  let k := nearLink s (d % 16)
  if linkIsUp s k then
    enqueue k (.trayFwd h p.payload) 1 0 none p.payload.length 32 { s with near := { s.near with fwd := satInc s.near.fwd } }
  else if h.type == 0x10 || h.type == 0x06 || h.type == 0x08 then s
  else
    trayPacket (h.src.toNat % 16) (fun _ => .trayResp { hdr0 with
      type := 0x10, flags := 3, src := BitVec.ofNat 16 (myDev s).toNat, dst := h.src, xepoch := s.pair.epoch, seq := h.seq
      tag := h.tag, part := h.part, status := codeOf .retryLater, op := h.type, srcCl := h.srcCl } []) 0 0 none 0 s

end Sys2Proof.Machine
end

