-- ==== Sys2Proof/Machine/FormeOps.lean ====
section
/-!
DEFINITION. What committing, loading plates, draining, replacing and unloading do (02 R56 to R65): the shared operations
of the FORME commands and of the resets that keep or discard a forme (18 R461).
-/

namespace Sys2Proof.Machine

/-! ### Clusters at a commit -/

/-- A cluster that starts with a program: its stores hold the command stream and channel table, its compositor stands at
its entry, and only what no commit clears is kept (02 R483, 03 R83, R92). A FAULTED cluster stays FAULTED (03 R91; log entry
164). -/
def startCluster (x : ClusterProgram) (c : Cluster) : Cluster :=
  { state := if c.state = 6 then 6 else 1, store := x.words.foldl (fun t w => if w.2 = 0 then Tab.del t w.1 else Tab.put t w.1 w.2) []
    commands := x.commands, entry := x.entry, pc := x.entry
    chans := x.channels.foldl (fun t k => Tab.put t k.chan.toNat (freshChan k)) []
    lastOp := c.lastOp, quiesce := c.quiesce, beats := c.beats, breach := c.breach, ecc := c.ecc, stale := c.stale
    faultIndex := c.faultIndex, faultCause := c.faultCause, paceCount := c.paceCount, paceValid := c.paceValid
    slow := c.slow, slowRun := c.slowRun, paceAt := c.paceAt }

/-- A cluster without a program: its memories are clear. A FAULTED cluster stays FAULTED (03 R91; log entry 164). -/
def idleCluster (st : BitVec 4) (c : Cluster) : Cluster :=
  { state := if c.state = 6 then 6 else st, lastOp := c.lastOp, quiesce := c.quiesce, beats := c.beats, breach := c.breach, ecc := c.ecc
    stale := c.stale, faultIndex := c.faultIndex, faultCause := c.faultCause, paceCount := c.paceCount
    paceValid := c.paceValid, slow := c.slow, slowRun := c.slowRun, paceAt := c.paceAt }

/-- The program of physical cluster `n` among the programs of a configuration. -/
def programOf (s : State) (c : Committed) (n : Nat) : Option ClusterProgram :=
  match partOfRegion s (n / 16) with
  | none => none
  | some p => (Tab.find c.programs p).bind (fun v => v.clusters.find? (fun x => physOf s x.index.toNat == some n))

/-- Load the clusters of the regions `rs` from the sections in force (02 R58, R62; 18 R461). In fixed geometry a good cluster
that serves no rank is the STANDBY spare, or RETIRED once its rank has moved (14 R367, R368). -/
def loadClusters (c : Committed) (rs : List Nat) (s : State) : State :=
  (rs.map (fun r => (List.range 16).map (fun i => 16 * r + i))).flatten.foldl (fun s n =>
    clusterUpd n (fun x => match programOf s c n with
      | some q => startCluster q x
      | none =>
        idleCluster (if (partOfRegion s (n / 16)).isSome && !fullGeom s && goodCluster s n then
          (if s.repro.spare.contains (n / 16) && n % 16 == sparePos s (n / 16) then 7 else if (logicalOf s n).isNone then 8 else 0)
          else 0) x) s) s

/-- A cluster that can carry a rank: good, and not FAULTED (02 R47, 03 R91). -/
def usableCluster (s : State) (n : Nat) : Bool := goodCluster s n && (cluster s n).state != 6

/-- The rank maps at a commit: position q_p where its cluster can carry a rank, the spare otherwise (14 R367, 03 R91). -/
def initialMaps (c : Committed) (s : State) : State :=
  if c.header.geometry = 1 then { s with repro := { s.repro with lmap := [], spare := [] } } else
  let used := bitsOf 8 c.geometry.regionUse.toNat
  let others (g : Nat) : List Nat := (List.range 16).filter (fun q => q != sparePos s g)
  let map_ := (used.map (fun g => (indexed (others g)).map (fun e =>
    (g * 16 + e.1, if usableCluster s (16 * g + e.2) then e.2 else sparePos s g)))).flatten
  let spare := used.filter (fun g => usableCluster s (16 * g + sparePos s g) && (others g).all (fun q => usableCluster s (16 * g + q)))
  { s with repro := { s.repro with lmap := map_.foldl (fun t e => Tab.put t e.1 e.2) [], spare := spare } }

/-- The channels' device-owned queue pairs of the clusters in force, created READY (11 R291, *Firmware traffic*). -/
def channelQps (s : State) : State :=
  let qs := (s.clusters.map (fun c => c.2.chans.filterMap (fun k => match k.2.entry.peer with
    | .pod n _ _ _ => some n.toNat
    | _ => none))).flatten
  qs.foldl (fun s n => if qpKind n = 1 then qpMake n (newQp 0 0 0 noBlock s.tb) s else s) s

/-- The pod barriers that the PROGRAM sections of the partitions `ps` declare; instances count from 0 (14 R373). -/
def podBarriers (c : Committed) (ps : List Nat) (s : State) : State :=
  let decls := (ps.map (fun p => ((Tab.getD c.programs p default).podBarriers.map (fun b => (p, b))))).flatten
  let kept := s.repro.pods.filter (fun e => !ps.contains e.2.part)
  { s with repro := { s.repro with pods := decls.foldl (fun t e =>
      Tab.put t e.2.id.toNat { part := e.1, ctx := 0, coord := e.2.coord, participants := e.2.participants
                               inst := 0, sent := false, arrived := [], early := [], release := none }) kept } }

/-- Barrier arrivals, saved contexts and completion rings are gone (18 R461, 13 R356). -/
def clearSched (s : State) : State :=
  { s with sched := { s.sched with saves := [], rings := [], arrivals := [], dieRegions := [], releasedAway := [], waiting := [] } }

/-! ### Slices, plates, entropy tables -/

/-- The clusters' case, accumulator and mailbox of the regions `rs` are cleared, and each region's slice up to offset `top`
(02 R61, R63; 07 R203). -/
def clearRegions (rs : List Nat) (top : Nat → Nat) (s : State) : State :=
  let clusters := s.clusters.map (fun e => if rs.contains (e.1 / 16) then
      (e.1, { e.2 with case_ := [], caseWritten := [], caseKept := [], acc := [], mailbox := [], wqItems := [] })
    else e)
  { s with
    clusters := clusters
    tier := { s.tier with
      slices := rs.foldl (fun m r => Mem.clear m (r * 2 ^ 27) (r * 2 ^ 27 + top r)) s.tier.slices
      sliceUndef := s.tier.sliceUndef.filter (fun e => !rs.contains e.1)
      sliceKept := s.tier.sliceKept.filter (fun e => !rs.contains e.1)
      dirty := s.tier.dirty.filter (fun e => !rs.contains e.1)
      waysOff := s.tier.waysOff.filter (fun e => !rs.contains (e.1 / 16384))
      lostLines := s.tier.lostLines.filter (fun l => !(rs.contains (l / 2 ^ 18) && decide (l % 2 ^ 18 * 512 < top (l / 2 ^ 18)))) } }

/-- The entropy tables of the partitions `ps` as their ENTROPY sections start them; a slot without an entry starts with
VALID clear (06 R171). -/
def loadEntropy (c : Committed) (ps : List Nat) (s : State) : State :=
  let kept := s.codec.slots.filter (fun e => !ps.contains (e.1 / 2048))
  let put (t : Tab TableSlot) (p : Nat) : Tab TableSlot :=
    (Tab.getD c.entropy p default).entries.foldl (fun t e =>
      Tab.put t (slotKey p e.table.toNat (e.slot.toNat % 2 == 1))
        { valid := true, version := e.version, format := e.format, lengths := e.lengths, refs := 0 }) t
  { s with codec := { s.codec with
      slots := ps.foldl put kept
      active := ps.foldl (fun t p => Tab.put t p ((Tab.getD c.entropy p default).latentSlot.toNat % 2 == 1)) s.codec.active } }

/-- Bytes that each slice holds of a plate stored in T0: equal shares (02 R53). -/
def shareBytes (r : PlateRef) (stored : Nat) : Nat :=
  let n := (bitsOf 8 r.regionMask.toNat).length
  if n = 0 then 0 else cdiv stored n

/-- Store a plate's content where its entry places it (02 R53, 07 R181). -/
def plateStore (r : PlateRef) (bs : List Byte) (s : State) : State :=
  if r.place.toNat % 16 = 0 then
    let k := shareBytes r bs.length
    (indexed (bitsOf 8 r.regionMask.toNat)).foldl (fun s e =>
      sliceStore e.2 (plateStart s e.2 + r.dest.toNat) ((bs.drop (k * e.1)).take k) s) s
  else t1Write (plateAddr r.dest.toNat) bs s

/-- Every plate that this slot needs is resident. -/
def platesComplete (s : State) : Bool :=
  match s.forme.committed with
  | none => false
  | some c => (slotPlates (mySlot s).toNat c).all (fun x => s.forme.resident.any (fun y => y.digest == x.digest))

/-- STATE moves from PLATES to ACTIVE, or from REPLACING to DRAINING, once the plates are resident (02 R58, R59, R65). -/
def platesMove (s : State) : State :=
  if platesComplete s then
    let st : BitVec 4 := if s.forme.state = 2 then 3 else if s.forme.state = 5 then 4 else s.forme.state
    pairFollow { s with forme := { s.forme with state := st } }
  else pairFollow s

/-! ### Ending a command (02 R56) -/

/-- A FORME command has finished with `c`: CODE, STAGE, the failed section, the forme-event vector and the error source. -/
def formeEnd (c : Status) (stage sect : Nat) (s : State) : State :=
  let s := { s with forme := { s.forme with
    code := codeOf c, stage := BitVec.ofNat 4 stage, failSect := BitVec.ofNat 32 sect, running := none } }
  msix 0 0 (if isTerminal c then noteErr 1 0 0x004 s else s)

/-- A FORME command that starts nothing sets CODE with STAGE 0. -/
def formeCode (c : Status) (s : State) : State :=
  { s with forme := { s.forme with code := codeOf c, stage := 0, failSect := 0xFFFF } }

/-- A FORME command that completes at once without running. -/
def formeAnswer (c : Status) (s : State) : State := formeEnd c 0 noSect s

/-! ### Commit and unload -/

/-- Bytes of the kept sections, which lie at the start of the firmware reserve (02 R62; log entry 163). -/
def keptBytes (c : Committed) : Nat := (c.kept.map (fun k => k.length)).sum

/-- The frames of the reserve that the kept sections take are written (02 R62, 07 R186). -/
def keepSections (c : Committed) (s : State) : State :=
  { s with tier := { s.tier with
      written := (List.range (cdiv (keptBytes c) Config.frameBytes)).foldl (fun t f => Tab.put t f ()) s.tier.written
      lost := s.tier.lost.filter (fun g => decide (keptBytes c ≤ 512 * g)) } }

/-- The first T1 frame of each partition's space (07 R181). -/
def partBases (s : State) (c : Committed) : Tab Nat :=
  (c.parts.foldl (fun (acc : Tab Nat × Nat) e => (Tab.put acc.1 e.1 acc.2, acc.2 + e.2.t1Pages.toNat))
    ([], Config.reserveFrames + plateSpace (mySlot s).toNat c)).1

/-- The slot in progress `off` tb into a frame, and the tick at which it began: `i` and `t` are those of the list's first
(13 R343). -/
def slotAt : List ImpSlot → Nat → Nat → Nat → Nat × Nat
  | [], _, i, t => (i, t)
  | [_], _, i, t => (i, t)
  | x :: y :: rest, off, i, t =>
    if off < x.length.toNat then (i, t) else slotAt (y :: rest) (off - x.length.toNat) (i + 1) (t + x.length.toNat)

/-- The contexts at a full load: their weights from IMPOSITION, no virtual time and no debt (13 R342, R350, R354). -/
def loadContexts (c : Committed) (s : State) : State :=
  let one (t : Tab Ctx) (x : Nat) : Tab Ctx :=
    let w := c.imposition.weights.getD x 0
    let old := Tab.getD t x {}
    if w = 0 && (Tab.find t x).isNone then t else
    Tab.put t x { old with weight := w.toNat, staged := w, vt := 0, debt := 0, pastEnd := false, wasReady := false
                           overrunMax := 0, overrunAt := 0 }
  let f := c.imposition.frameTb.toNat
  let (slot, start) := slotAt c.imposition.slots (s.tb % f) 0 (s.tb / f * f)
  { s with sched := { s.sched with
      ctxs := (List.range 64).foldl one s.sched.ctxs, running := true, frame := BitVec.ofNat 64 (s.tb / f), slot := slot
      slotStart := start, commitPending := false, busy := s.sched.dumpAt.isSome } }

/-- The configuration and the digests that a full load puts in force (02 R58). -/
def commitConfig (c : Committed) (img : FormeImage) (s : State) : State :=
  { s with forme := { s.forme with
    digest := img.digest, base := img.digest, mainDigest := img.digest, mainBase := img.digest, gen := 0
    partGen := c.parts.map (fun e => (e.1, (0 : Byte))), state := 2, committed := some c, drained := 0, drainDone := false
    partBase := partBases s c, resident := [], nextNumerics := [], nextAttention := [] } }

/-- The clusters of a full load stand at their entries with nothing held. -/
def commitClusters (c : Committed) (s : State) : State :=
  loadClusters c (List.range 8) (clearSched { s with clusters := s.clusters.map (fun e => (e.1, idleCluster 0 e.2)) })

/-- The load nonce `n` of a full load clears T1's written bits (07 R182, R186); explicit scratch is undefined from free
value `k` on (07, *Store die slices*), and the energy governor waits for the first work item (18 R455). -/
def commitMemory (c : Committed) (k n : Nat) (s : State) : State :=
  let explicit := (c.regions.filter (fun r => r.2.mode == 0 && r.2.partition != 0xFF)).map (fun r => r.1)
  keepSections c { s with
    tier := { s.tier with t1 := [], written := [], sliceUndef := explicit.map (fun r => (r, k)), sliceKept := [], dirty := []
                          waysOff := [], lost := [], lostLines := [], scrubAt := 0 }
    sec := { s.sec with loadNonce := some (Config.freeDigest n), dataKeys := true }
    codec := { s.codec with slots := [], active := [] }
    maint := { s.maint with lastLoad := some (c.header.sysSize.toNat, c.selftest), armed := none, rank := 0, claims := []
                            claimWait := [], idleSince := [] } }

/-- Commit of a full load (02 R58): the configuration is in force with new memory contents, the plates move, and the
device reports its state. -/
def formeCommit (c : Committed) (img : FormeImage) (s : State) : State :=
  let s := commitClusters c (initialMaps c (commitConfig c img s))
  let k := s.free
  let (n, s) := draw (bumpFree s)
  let s := commitMemory c k n s
  let ps := c.parts.map (fun e => e.1)
  let s := podBarriers c ps { s with repro := { s.repro with pods := [] } }
  let s := platesMove (channelQps (loadContexts c (loadEntropy c ps s)))
  if mayEmit s then sendLstate s else s

/-- The forme and its plates are gone: STATE is EMPTY and ROLE 0b00 (02 R61, R62); the digests, GEN and the partition generations
read zero (log entry 119). -/
def formeGone (s : State) : State :=
  let s := { s with forme := { s.forme with
    state := 0, committed := none, gen := 0, digest := 0, base := 0, mainDigest := 0, mainBase := 0, partGen := [], drained := 0, drainDone := false, partBase := [], resident := []
    nextNumerics := [], nextAttention := [], running := none } }
  let s := clearRegions (List.range 8) (fun _ => sliceBytes) { s with clusters := s.clusters.map (fun e => (e.1, idleCluster 0 e.2)) }
  pairFollow (clearSched { s with
    sec := { s.sec with dataKeys := false }
    codec := { s.codec with slots := [], active := [] }
    repro := { s.repro with lmap := [], spare := [], pods := [] }
    sched := { s.sched with running := false, slot := 0, commitPending := false, busy := s.sched.dumpAt.isSome }
    maint := { s.maint with armed := none, rank := 0, claims := [], claimWait := [], idleSince := [] } })

/-- RETIRED records become FREE (08 R209). -/
def freeRetired (s : State) : State :=
  { s with req := { s.req with recs := s.req.recs.filter (fun e => e.2.state != 8), retired := [] } }

/-- No command of any cluster runs: each runs to its end, outside a governed stop and a fault (01 R20). -/
def pressesEmpty (s : State) : Bool := s.clusters.all (fun e => e.2.press.isEmpty)

/-- Every request record is FREE or RETIRED (02 R61). -/
def recordsIdle (s : State) : Bool := s.req.recs.all (fun e => e.2.state == 0 || e.2.state == 8)

/-- Steps 1 and 2 of an unload (02 R61). -/
def unloadStart (s : State) : State :=
  let s := writeBack (List.range 8) s
  pairFollow { s with
    forme := { s.forme with state := 6, running := some .unload }
    sec := { s.sec with dataKeys := false } }

/-- Steps 3 and 4 of an unload. -/
def unloadDone (s : State) : State := freeRetired (formeGone (silverClear s))

/-! ### Draining (02 R63) -/

/-- The partitions that drain. -/
def drainParts (s : State) : List Nat :=
  match s.forme.committed with
  | none => []
  | some c => targetParts c s.forme.drained.toNat

/-- FORME_DRAIN_PEND: active records of the draining partitions and their PAUSED galleys resident in T1. -/
def drainPend (s : State) : Nat :=
  let ps := drainParts s
  if ps.isEmpty then 0 else
  (s.req.recs.filter (fun e => e.2.state != 0 && e.2.state != 5 && e.2.state != 8 && ps.contains e.2.part.toNat)).length
    + (s.req.galleys.filter (fun g => ps.contains g.2.part.toNat && g.2.pausedAt.isSome && (galleyPages g.2).any inT1)).length

/-- Every PAUSED galley of the draining partitions that is resident is shelved at once (02 R63). -/
def drainShelve (s : State) : State :=
  (s.req.galleys.filter (fun g => (drainParts s).contains g.2.part.toNat && g.2.pausedAt.isSome && g.2.op == .idle
      && (galleyPages g.2).any inT1)).foldl (fun s g => shelveStart g.2.reqId true s) s

/-- The last command of the regions has finished, and no context of the partitions has a parked or saved work item
(02 R63, 13 R356). -/
def drainQuiet (s : State) : Bool :=
  let rs := ((drainParts s).map (regionsOf s)).flatten
  s.clusters.all (fun e => !rs.contains (e.1 / 16)
      || (e.2.press.isEmpty && e.2.item.isNone && e.2.wqItems.isEmpty && e.2.moving.isNone))
    && s.sched.saves.all (fun v => !rs.contains (v.1 / 64 / 16) || v.2.item.isNone)
    && s.sched.waiting.all (fun v => !rs.contains (v.1 / 64 / 16) || v.2.isEmpty)

/-- The drain completes: write-back lines are written, the regions' memories are clear and their save areas are free. The plate
areas keep their plates, so that a plain RESUME reopens the partitions unchanged (02 R63, R65; log entry 160). -/
def drainEnd (s : State) : State :=
  let rs := ((drainParts s).map (regionsOf s)).flatten
  let s := clearRegions rs (plateStart s) (writeBack rs s)
  formeEnd .ok 0 noSect { s with
    forme := { s.forme with drainDone := true }
    sched := { s.sched with saves := s.sched.saves.filter (fun v => !rs.contains (v.1 / 64 / 16))
                            waiting := s.sched.waiting.filter (fun v => !rs.contains (v.1 / 64 / 16)) } }

/-! ### Replacement (02 R65) -/

/-- The effective digest after a partial forme: SHA-384 of the previous one followed by the partial forme's. -/
def nextDigest (old new : Digest) : Digest := Config.sha384 (leBytes 48 old.toNat ++ leBytes 48 new.toNat)

/-- A configuration with the NUMERICS and ATTENTION that the drain's replacements have staged (04 R120, 05 R148). -/
def staged (s : State) (c : Committed) : Committed :=
  { c with numerics := overlay c.numerics s.forme.nextNumerics, attention := overlay c.attention s.forme.nextAttention }

/-- The plate area of a region, as its REGION_CONFIG gives it. -/
def plateArea (c : Committed) (g : Nat) : Option (Byte × BitVec 16) := (Tab.find c.regions g).map (fun r => (r.mode, r.plateMib))

/-- A T0 plate whose plate area a REPLACE leaves where it was. Where PLATE_MIB changes, its bytes are not where its DEST then points,
and the plate must be loaded again (02 R65; log entry 187). -/
def plateStays (old new : Committed) (x : PlateRef) : Bool :=
  x.place.toNat % 16 != 0 || (bitsOf 8 x.regionMask.toNat).all (fun g => plateArea old g == plateArea new g)

/-- The partitions of `ps` whose ENTROPY a partial forme replaces (06 R171). -/
def entropyParts (img : FormeImage) (ps : List Nat) : List Nat := ps.filter (fun p => ((bodyOf img 8 p).bind asEntropy).isSome)

/-- A REPLACE commits `new`, which holds what earlier replacements of the drain have staged (02 R65). NUMERICS and ATTENTION take
effect at RESUME (04 R120, 05 R148). -/
def replaceCommit (old new : Committed) (img : FormeImage) (s : State) : State :=
  let ts := drainParts s
  let rs := (ts.map (regionsOf s)).flatten
  let changed {A : Type} [DecidableEq A] (a b : Tab A) : Tab A := b.filter (fun e => Tab.find a e.1 != some e.2)
  let refs := allRefs new
  let eff := nextDigest s.forme.digest img.digest
  let s := { s with forme := { s.forme with
    gen := s.forme.gen + 1
    partGen := ts.foldl (fun t p => Tab.upd t p 0 (fun g => g + 1)) s.forme.partGen
    digest := eff, mainDigest := eff
    committed := some { new with numerics := old.numerics, attention := old.attention }
    nextNumerics := changed old.numerics new.numerics, nextAttention := changed old.attention new.attention
    resident := s.forme.resident.filter (fun x => refs.contains x && plateStays old new x)
    state := 5 } }
  let s := keepSections new (loadClusters new rs s)
  let s := platesMove (channelQps (podBarriers new ts (loadEntropy new (entropyParts img ts) s)))
  formeEnd .ok 0 noSect (if mayEmit s then sendLstate s else s)

/-- RESUME reopens the drained partitions (02 R65); the staged NUMERICS and ATTENTION come into force. -/
def formeReopen (s : State) : State :=
  let c := s.forme.committed.map (staged s)
  { s with forme := { s.forme with
      state := 3, drained := 0, drainDone := false, committed := c, nextNumerics := [], nextAttention := [] } }

end Sys2Proof.Machine
end

