-- ==== Sys2Proof/Machine/Reset.lean ====
section
/-!
DEFINITION. Fatal causes, the governed stop, and what cold and warm resets do (17 R451; 18 R457 to R463, R471 to R474;
15 R390 to R393, R409; 19 R478, R479): the operations that the reset, power and fault commands share.
-/

namespace Sys2Proof.Machine

/-! ### The repair record (18 R471 to R473, 19 R479) -/

/-- A copy of the repair record verifies and names this device (18 R472). -/
def repairValid (r : Option RepairRecord) : Bool :=
  match r with
  | some x => x.sigOk && x.device == Config.deviceDigest
  | none => false

/-- The valid copy with the higher SEQ; true when it is copy B. -/
def repairPick (b : BoardInputs) : Option (RepairRecord × Bool) :=
  match (if repairValid b.repairA then b.repairA else none), (if repairValid b.repairB then b.repairB else none) with
  | some a, some c => if a.seq.toNat < c.seq.toNat then some (c, true) else some (a, false)
  | some a, none => some (a, false)
  | none, some c => some (c, true)
  | none, none => none

/-- A record that holds nothing yet: what the next write starts from when no copy verified (18 R472). -/
def newRepair (s : State) : RepairRecord :=
  { seq := 0, dataRate := BitVec.ofNat 8 s.tier.rate.toNat, grade := 0, run := 0, failed := 0, lpCursor := 0
    disabled := 0, sliceFail := 0, device := Config.deviceDigest, entries := [], sigOk := true }

/-- DISABLED with the bits of the entries that disable a cluster (18 R471). -/
def disabledWith (es : List RepairEntry) (m : BitVec 128) : BitVec 128 :=
  es.foldl (fun m e => if e.kind = 0x01 then m ||| BitVec.ofNat 128 (2 ^ (e.unit.toNat % 128)) else m) m

/-- Write the repair record: the pending entries join it, SEQ is incremented, and the copy goes into the other window
(18 R473, 19 R479). `upd` sets what a self-test reports. -/
def writeRecord (upd : RepairRecord → RepairRecord) (s : State) : State :=
  let b := s.maint.board.getD default
  let intoB := match repairPick b with
    | some (_, isB) => !isB
    | none => false
  let old := s.maint.record.getD (newRepair s)
  let es := old.entries ++ s.maint.pending
  let r := upd { old with seq := old.seq + 1, entries := es, disabled := disabledWith s.maint.pending old.disabled, sigOk := true }
  let b := if intoB then { b with repairB := some r } else { b with repairA := some r }
  let w := s.maint.repair.maj
  let w := BitVec.ofNat 32 (b2n (bit w 16) * 2 ^ 16 + b2n (decide (4096 ≤ es.length)) * 2 ^ 17 + es.length % 2 ^ 13)
  emit (.repairRecord intoB r) { s with maint := { s.maint with
    record := some r, pending := [], board := some b, repair := Tmr.all w } }

/-! ### Fatal causes (17 R451, 18 R463) -/

/-- A fatal cause is recorded (17 R451): the first in CAUSE, a further one in MULTI. -/
def recordFatal (cause : Nat) (s : State) : State :=
  let first := !bit s.maint.fatal 31
  let s := { s with
    maint := { s.maint with
      fatal := if first then BitVec.ofNat 32 (2 ^ 31 + cause) else s.maint.fatal ||| 0x40000000
      fatalTb := if first then BitVec.ofNat 64 s.tb else s.maint.fatalTb
      fatalPin := true }
    dev := { s.dev with fatal := true, err := s.dev.err ||| 0x80000000 } }
  msix 0 3 s

/-! ### The governed stop (18 R457) -/

/-- The VCORE sensors are read: what they show is not stated (log entry 66). -/
def sense (s : State) : State :=
  let now := BitVec.ofNat 12 (Config.freeWord s.free).toNat
  let slope := BitVec.ofNat 12 (Config.freeWord (s.free + 1)).toNat
  { s with free := s.free + 2, maint := { s.maint with
      imonNow := now
      imonPeak := if s.maint.imonPeak.toNat < now.toNat then now else s.maint.imonPeak
      slope := if s.maint.slope.toNat < slope.toNat then slope else s.maint.slope } }

/-- Steps 1 to 3 of a governed stop: every cluster stops without output (01 R20) and its ballast holds its claim, `wb`: dirty
lines are written back, `sr`: LPDDR6 enters self-refresh; PHASE is STOPPING. -/
def stopBegins (wb sr : Bool) (s : State) : State :=
  let s := { s with clusters := s.clusters.map (fun e => (e.1, { e.2 with press := [] })) }
  let s := if wb then writeBack (List.range 8) s else s
  let lpc := if sr then s.tier.good.foldl (fun t c => Tab.upd t c {} (fun l => { l with selfRefresh := true })) s.tier.lpc
    else s.tier.lpc
  sense { s with
    tier := { s.tier with lpc := lpc }
    maint := { s.maint with claimWait := [], ballast := true, phase := 3, armed := none, rank := 0 } }

/-- Step 5: the ramp has released every claim and every step of the port dies. After an orderly shutdown the device then asserts
SHUTDOWN_DONE (18 R466 step 6). -/
def rampEnds (s : State) : State :=
  let off := s.maint.after == .powerOff
  sense { s with maint := { s.maint with
    ballast := false, stops := satInc s.maint.stops, shutdownDone := s.maint.shutdownDone || off
    busy := s.maint.busy && !off, code := if off then codeOf .ok else s.maint.code } }

/-- The waiting or claimed cluster of the lowest physical index. -/
def lowest : List Nat → Option Nat
  | [] => none
  | a :: rest =>
    match lowest rest with
    | none => some a
    | some b => some (min a b)

/-- At most one step in every 16 tb (18 R454). -/
def stepFree (s : State) : Bool :=
  match s.maint.lastStep with
  | none => true
  | some t => decide (t + 16 ≤ s.tb)

/-- Step 4, one step of the ramp: a cluster claim goes, the lowest physical index first (log entry 178), then the steps of the port
dies. -/
def rampStep (s : State) : State :=
  if !s.maint.ballast || !stepFree s then s
  else
    match lowest s.maint.claims with
    | some n => sense { s with maint := { s.maint with
        claims := s.maint.claims.filter (fun m => m != n), lastStep := some s.tb } }
    | none =>
      if s.maint.portSteps = 0 then rampEnds s
      else sense { s with maint := { s.maint with portSteps := s.maint.portSteps - 1, lastStep := some s.tb } }

/-- A governed stop has released every claim and every step of the port dies. -/
def rampDone (s : State) : Bool := s.maint.claims.isEmpty && s.maint.portSteps == 0

/-! ### Cold reset and cold start (18 R459, R460; 15 R392, R393, R409; 19 R478) -/

/-- The checks of the boot ROM and the first stage (15 R390, R392). -/
def bootPasses (b : BoardInputs) (st : Store) : Bool :=
  b.helperOk && b.rpsAnswers && b.fw.sigsOk && decide (st.fwSvn.toNat ≤ b.fw.svn.toNat)

/-- Step 3 of the boot: the incarnation counter advances once the helper data is good and the store answers. -/
def bootStore (b : BoardInputs) (st : Store) : Store :=
  if b.helperOk && b.rpsAnswers then { st with incarnation := st.incarnation + 1, writes := st.writes + 1 } else st

/-- The unlock token that governs this boot: staged, and naming this incarnation (15 R409). -/
def bootToken (st : Store) : Option Digest :=
  match st.unlock with
  | some (d, inc, true) => if inc = st.incarnation then some d else none
  | _ => none

/-- Steps 1 to 3 of a cold start: nothing on chip survives but repair entries not yet written (19 R479); straps, quoins,
measurements, the board's store. -/
def coldBoot (cause : Nat) (b : BoardInputs) (s : State) : State :=
  let st := bootStore b s.sec.store
  let token := if b.helperOk && b.rpsAnswers then bootToken st else none
  let st := match st.unlock with
    | some (d, inc, _) => if b.helperOk && b.rpsAnswers then { st with unlock := some (d, inc, false) } else st
    | none => st
  let ok := bootPasses b s.sec.store
  let fresh : State := {}
  { fresh with
    out := s.out, pending := s.pending, free := s.free + 2
    dev := { fresh.dev with ident := Tmr.all (BitVec.ofNat 32 (b.tray.toNat * 16 + b.slot.toNat)) }
    maint := { fresh.maint with
      board := some b, pwrgd := true, perst := s.maint.perst, testMode := s.maint.testMode, everReady := s.maint.everReady
      pending := s.maint.pending, repair := if s.maint.pending.isEmpty then {} else Tmr.all 0x40000
      lastReset := Tmr.all (BitVec.ofNat 32 (0x10 + cause)), clearUs := b.clearUs, phase := if ok then 0 else 4 }
    sec := { fresh.sec with
      store := st, rpsOk := b.helperOk && b.rpsAnswers, boot := if ok then 1 else 2, lock := if token.isSome then 0xC else 0xF
      debug := token.isSome, token := token, bootNonce := some (Config.freeDigest s.free)
      meas1 := Config.freeDigest (s.free + 1), meas2 := if ok then b.fw.digest1 else 0, meas3 := if ok then b.fw.digest2 else 0
      fwVersion := if ok then b.fw.version else 0 } }

/-- Step 4: the repair record is checked and applied (18 R471, R472). -/
def applyRecord (b : BoardInputs) (s : State) : State :=
  match repairPick b with
  | none => { s with tier := { s.tier with rate := 1 } }
  | some (r, _) =>
    let kinds (k : Byte) : List RepairEntry := r.entries.filter (fun e => e.kind == k)
    let s := { s with
      maint := { s.maint with
        record := some r, stRun := r.run, stFailed := r.failed, lpCursor := r.lpCursor.toNat
        repair := Tmr.all (s.maint.repair.maj ||| BitVec.ofNat 32 (2 ^ 16 + b2n (decide (4096 ≤ r.entries.length)) * 2 ^ 17 + r.entries.length % 2 ^ 13)) }
      tier := { s.tier with
        rate := BitVec.ofNat 4 r.dataRate.toNat
        retiredFrames := (kinds 0x04).map (fun e => e.addr.toNat)
        badLines := (kinds 0x03).map (fun e => e.unit.toNat * 2 ^ 18 + e.addr.toNat / 512) } }
    if r.failed = 0 then s else noteErr 15 0 0x034 s

/-- A channel is failed: its bit and its window say so (07 R190, R205). -/
def channelFailed (c : Nat) (s : State) : State :=
  if s.tier.chFail.toNat.testBit c then s else
  noteErr 6 c 0x054 (lpcUpd c (fun l => { l with failed := true, trained := false }) { s with tier := { s.tier with
    chFail := s.tier.chFail ||| BitVec.ofNat 48 (2 ^ c) } })

/-- Step 5: every channel trains; a channel that fails becomes a channel-failed entry (07 R179, R190; 18 R459). -/
def trainChannels (b : BoardInputs) (s : State) : State :=
  let named := ((recordEntries s).filter (fun e => e.kind == 0x05)).map (fun e => e.unit.toNat)
  let fails := b.trainFail.filter (fun c => decide (c < 48) && !named.contains c)
  let s := (named.filter (fun c => decide (c < 48))).foldl (fun s c => channelFailed c s) s
  let s := fails.foldl (fun s c => addRepair { kind := 0x05, source := 0x03, unit := BitVec.ofNat 16 c, bit := 0xFFFF, addr := 0 }
    (channelFailed c s)) s
  let good := (List.range 48).filter (fun c => !s.tier.chFail.toNat.testBit c)
  { s with tier := { s.tier with
      good := good, lpc := good.foldl (fun t c => Tab.upd t c {} (fun l => { l with trained := true })) s.tier.lpc } }

/-- A cold start up to step 6; a failed boot leaves RECOVERY. READY completes it. -/
def coldStart (cause : Nat) (b : BoardInputs) (s : State) : State :=
  let t := coldBoot cause b s
  if bootPasses b s.sec.store then trainChannels b (applyRecord b t) else t

/-- A cold reset, after its governed stop: the whole of the cold start (18 R460). -/
def coldReset (cause : Nat) (s : State) : State := coldStart cause (s.maint.board.getD default) s

/-! ### Warm reset (18 R461, R462; 02 R62; 17 R447) -/

/-- Coded pages resident in T1 keep their slot references; every other use of a slot has ended (06 R165). -/
def recountRefs (s : State) : State :=
  let keys := (s.req.galleys.map (fun g => if g.2.coded then
      ((galleyPages g.2).filter (fun p => inT1 p && p.coded)).map (fun _ => slotKey g.2.part.toNat g.2.table g.2.slotB)
    else [])).flatten
  let slots : Tab TableSlot := s.codec.slots.map (fun e => (e.1, { e.2 with refs := (keys.filter (fun k => k == e.1)).length }))
  { s with codec := { s.codec with slots := slots } }

/-- The FORME command in progress at a warm reset ends (02 R62). -/
def formeWarm (s : State) : State :=
  match s.forme.running with
  | some .load => { s with forme := { s.forme with state := 0, running := none } }
  | some .plate | some .replace => { s with forme := { s.forme with running := none } }
  | some .unload => formeEnd .ok 0 noSect (unloadDone s)
  | some .drain => s
  | none => s

/-- The slices after a warm reset: plates stay, scratch and cache lines are cleared (18 R461). -/
def slicesWarm (s : State) : State :=
  { s with tier := { s.tier with
      slices := (List.range 8).foldl (fun m r => Mem.clear m (r * 2 ^ 27) (r * 2 ^ 27 + plateStart s r)) s.tier.slices
      sliceUndef := [], sliceKept := [], dirty := [], waysOff := []
      lostLines := s.tier.lostLines.filter (fun l => decide (plateStart s (l / 2 ^ 18) ≤ l % 2 ^ 18 * 512)) } }

/-- Clusters after a warm reset: reloaded from the kept sections, at their entries; a FAULTED cluster stays FAULTED (03 R91, R92;
log entry 164). -/
def clustersWarm (s : State) : State :=
  let bad : Tab Cluster := (s.clusters.filter (fun e => e.2.state == 6)).map (fun e => (e.1, ({ state := 6 } : Cluster)))
  let s := { s with clusters := bad }
  match s.forme.committed with
  | none => s
  | some c => loadClusters c (List.range 8) s

/-- The queue pairs after a warm reset: host-owned ones enter ERROR, device-owned ones are created again, control queue
pairs are gone until their contexts are enabled (18 R461, R462; 11 R316). The identifier memory stays whole (11 R306). -/
def rmaWarm (s : State) : State :=
  let s := (s.rma.qps.filter (fun e => qpKind e.1 == 2)).foldl (fun s e => qpError e.1 none .qpError s) s
  let x := s.rma
  channelQps { s with rma := { ({} : Rma) with
    bound := x.bound, backing := x.backing, backed := x.backed, counter := x.counter, pds := x.pds, regions := x.regions
    freed := x.freed ++ x.deregs.map (fun d => d.2.2), fresh := x.fresh, out := x.out.map (fun o => if o.aired then o else { o with plane := 16 }), waiting := x.waiting
    refused := x.refused.filter (fun m => m.fw.isSome), ids := x.ids
    qps := x.qps.filter (fun e => qpKind e.1 == 2) } }

/-- Bring-in at a warm reset (09 R252): the survivor returns as DEGRADED; the spare trusts nothing until the copy resumes. -/
def pairWarm (s : State) : State :=
  if s.pair.state = 5 then mirrorsAlone (silverClear (pairState 3 s))
  else if s.pair.state = 6 then { s with pair := { s.pair with untrusted := true } }
  else s

/-- The function blocks after a warm reset: every ring set is DISABLED and keeps only what it holds (16 R426). -/
def hostWarm (s : State) : State :=
  let sets (h : FnHost) : Tab RingSet := (h.sets.filter (fun r => !r.2.held.isEmpty)).map (fun r => (r.1, { ({} : RingSet) with held := r.2.held }))
  { s with host := { ({} : Hostif) with
      fns := (s.host.fns.filter (fun f => !(sets f.2).isEmpty)).map (fun f => (f.1, { ({} : FnHost) with sets := sets f.2 })) } }

/-- The scheduler after a warm reset: contexts at the weights of IMPOSITION with their beats since cold start; the meter
table stays (13 R356, 18 R461). -/
def schedWarm (s : State) : State :=
  let old := s.sched
  let ctxs : Tab Ctx := old.ctxs.map (fun e => (e.1, { beats := e.2.beats }))
  let s : State := { s with sched := { ({} : Sched) with
    meters := old.meters, overflow := old.overflow, sampledAt := old.sampledAt, ctxs := ctxs } }
  match s.forme.committed with
  | none => s
  | some c => loadContexts c s

/-- The registers and counters that a warm reset leaves and resets (18 R461, R462), MAINT_CLEAR read back as the free word
`k`. -/
def registersWarm (cause k : Nat) (fatal : Bool) (s : State) : State :=
  let m := s.maint
  let keepNear := s.near
  { s with
    dev := { s.dev with ready := false, fatal := false, latch := [] }
    maint := { ({} : Maint) with
      lastReset := Tmr.all (BitVec.ofNat 32 (0x20 + cause)), tempNow := m.tempNow, tempPeak := m.tempPeak
      imonNow := m.imonNow, imonPeak := m.imonPeak, slope := m.slope, stops := m.stops, fatal := m.fatal, fatalTb := m.fatalTb
      repair := m.repair, stRun := m.stRun, stFailed := m.stFailed, clearUs := BitVec.ofNat 16 (Config.freeWord k).toNat
      lastLoad := m.lastLoad, lpCursor := m.lpCursor, pending := m.pending, record := m.record, everReady := m.everReady
      pwrgd := m.pwrgd, perst := m.perst, testMode := m.testMode, board := m.board
      waitLease := fatal && s.pair.live == 1, silent := fatal && s.pair.live == 1 }
    sec := { s.sec with busy := false, fetch := none, code := 0, cmdLo := 0, cmdHi := 0, cmdLen := 0, donor := 0, tenantSel := 0
                        authFail := 0, msgAuthFail := 0, spdm := {} }
    forme := { s.forme with srcLo := 0, srcHi := 0, len := 0, regionMask := 0 }
    codec := { ({} : Codec) with slots := s.codec.slots, active := s.codec.active }
    tier := { s.tier with
      busy := false, code := 0, tenant := 0, t1Limit := 0, t3Limit := 0, t1Used := 0, t3Used := 0, t3Part := 0, t3DataLo := 0
      t3DataHi := 0, t3TagLo := 0, t3TagHi := 0, t3Err := 0
      lpc := s.tier.lpc.map (fun e => (e.1, { e.2 with selfRefresh := false })) }
    repro := { ({} : Repro) with
      aligned := s.repro.aligned, stepped := s.repro.stepped, steps := s.repro.steps, lmap := s.repro.lmap
      spare := s.repro.spare, planes := s.repro.planes, lastExchange := s.repro.lastExchange, badRun := s.repro.badRun
      lastSlew := s.repro.lastSlew, slewLeft := s.repro.slewLeft, timeAt := s.repro.timeAt, alignedAt := s.repro.alignedAt, pods := s.repro.pods }
    req := { s.req with
      busy := false, code := 0, sel := 0, lost := 0, specAcc := 0, specRej := 0, hold := 1000, backlog := 65536, appends := 0
      dups := 0, seals := 0, commits := 0, handoverCount := 0, shelves := 0, recalls := 0, drops := 0, copyoutCount := 0
      digestErr := 0 }
    near := { ({} : Near) with
      dst := keepNear.dst, src := keepNear.src, fences := keepNear.fences, rotate := keepNear.rotate
      returned := keepNear.returned, received := keepNear.received }
    links := { ({} : Links) with
      links := s.links.links.map (fun e => (e.1, { ({} : Link) with session := e.2.session })) } }

/-- The re-check of the committed forme (02 R62): the digests that the security complex holds equal FORME_DIGEST and FORME_BASE, and
every kept section reads back: none of its granules is lost (07 R184, R191; log entry 163). -/
def keptGood (s : State) : Bool :=
  s.forme.mainDigest == s.forme.digest && s.forme.mainBase == s.forme.base
    && !s.tier.lost.any (fun g => decide (512 * g < s.forme.committed.elim 0 keptBytes))

/-- Steps and chunks in flight start again from the committed state; one whose COMMIT is out has ended (18 R462, 08 R235). -/
def stepsWarm (s : State) : State :=
  { s with req := { s.req with
      recs := s.req.recs.map (fun e => (e.1, if e.2.boundary.isSome then e.2 else stepDiscard e.2)) } }

/-- A warm reset, after its governed stop (18 R461, R462). `fatal`: it follows a fatal cause, so the device waits for its lease to
expire (R463). -/
def warmReset (cause : Nat) (fatal : Bool) (s : State) : State :=
  let s := formeWarm s
  let s := if keptGood s then s else formeGone s
  let s := stepsWarm (clustersWarm (slicesWarm (pairWarm (hostWarm (schedWarm s)))))
  let (k, s) := draw (recountRefs (rmaWarm s))
  registersWarm cause k fatal s

/-! ### Asking for a reset (18 R460, R465) -/

/-- A reset is under way: its governed stop, or its start-up after READY had first set. -/
def resetting (s : State) : Bool :=
  match s.maint.after with
  | .reset _ _ _ => true
  | _ => s.maint.everReady && s.maint.phase == 0

/-- The reset that is under way is a warm one. -/
def warmUnderWay (s : State) : Bool :=
  match s.maint.after with
  | .reset _ cold _ => !cold
  | _ => resetting s && bit (s.maint.lastReset.maj) 5

/-- An unlock token is staged for the next boot (15 R409). -/
def unlockStaged (s : State) : Bool :=
  match s.sec.store.unlock with
  | some (_, _, true) => true
  | _ => false

/-- A reset whose cause is warm is performed as a cold one (18 R460). -/
def coldInstead (s : State) : Bool :=
  unlockStaged s || !s.maint.everReady || s.maint.shutdownBegun || s.maint.phase == 4

/-- CAUSE: 0x6 takes precedence over every other cause. -/
def causeOf (s : State) (cause : Nat) : Nat := if unlockStaged s then 6 else cause

/-- The reset that follows a governed stop begins: PHASE is START (18 R458). -/
def resetBegins (cause : Nat) (cold fatal : Bool) (s : State) : State :=
  let s := { s with maint := { s.maint with after := AfterStop.none } }
  if cold then coldReset cause s else warmReset cause fatal s

/-- The ramp of a governed stop has ended: a reset that waits for it begins (18 R457, R458). -/
def afterRamp (s : State) : State :=
  match s.maint.after with
  | .reset cause cold fatal => if s.maint.ballast then s else resetBegins cause cold fatal s
  | _ => s

/-- A tick of the time base: a governed stop ramps down, one step every 16 tb, and the reset that follows it begins (18 R457). -/
def clockTick (s : State) : State := afterRamp (rampStep (tbTick s))

/-- A reset of a cause: READY clears, the governed stop runs, with the write-back left out where a cold reset follows, and the reset
follows at its end; `cold`: its kind is cold in any case. A device that has stopped already only finishes its ramp (18 R457, R460,
R465). -/
def doReset (cause : Nat) (cold fatal : Bool) (s : State) : State :=
  let cold := cold || coldInstead s
  let s := if s.maint.phase = 3 then s else stopBegins (!cold) true s
  let s := { s with
    dev := { s.dev with ready := false }, maint := { s.maint with after := .reset (causeOf s cause) cold fatal } }
  afterRamp (if s.maint.ballast && rampDone s then rampEnds s else s)

/-- A reset request: ignored while a reset is under way, unless it is a cold one arriving during a warm one; ignored during
a thermal hold (18 R460, R465). -/
def requestReset (cause : Nat) (s : State) : State :=
  let held := match s.maint.after with
    | .thermalHold _ => true
    | _ => false
  if held then s
  else if resetting s && !(warmUnderWay s && coldInstead s) then s
  else doReset cause false false s

/-- What follows a fatal cause other than THERMAL (18 R463, R465): recorded; during a governed stop nothing more;
otherwise the device falls silent, pending repair entries are written, the stop runs and the reset follows. -/
def fatalStop (cause : Nat) (cold : Bool) (s : State) : State :=
  let s := recordFatal cause s
  if s.maint.phase = 3 then s else
  let cold := cold || s.maint.shutdownBegun
  let s := { s with maint := { s.maint with silent := true } }
  doReset 4 cold true (if s.maint.pending.isEmpty then s else writeRecord id s)

/-- The thermal trip (18 R463 to R465, 19 *Sideband signals*): the stop, then the hold; the reset after it is cold when an
orderly shutdown had begun. -/
def thermalStop (s : State) : State :=
  let s := recordFatal 3 s
  let s := { s with maint := { s.maint with thermtripPin := true, silent := true } }
  let cold := s.maint.shutdownBegun
  if s.maint.phase = 3 then
    { s with maint := { s.maint with after := match s.maint.after with
        | .thermalHold c => .thermalHold c
        | .reset _ c _ => .thermalHold c
        | _ => .thermalHold cold } }
  else
    let s := if s.maint.pending.isEmpty then s else writeRecord id s
    let s := stopBegins (!(cold || coldInstead s)) true s
    { s with maint := { s.maint with after := .thermalHold cold } }

end Sys2Proof.Machine
end

