-- ==== Sys2Proof/Machine/RmaTarget.lean ====
section
/-!
DEFINITION. The remote-access engine at the target (11 R305 to R313, R315): the checks of R310 in order, their execution
and acknowledgement, and the fetch of evicted contexts; and at the sender: acknowledgements, back-off and the end of work
requests (R299, R308, R309, R314, R316).
-/

namespace Sys2Proof.Machine

/-! ### Region access -/

/-- The address at which byte `off` of a host region stands in its function's DMA space: a page's own on demand (11 R296, R298). -/
def hostAddr (r : Region) (off : Nat) : DWord :=
  if r.onDemand && r.page != 0 then (Tab.find r.present (off / r.page)).getD 0 + BitVec.ofNat 64 (off % r.page)
  else r.base + BitVec.ofNat 64 off

/-- Bytes of a host region change by DMA of the region's function, on demand page by page (11 R296, R298). -/
def hostWrite (r : Region) (off : Nat) (bs : List Byte) (s : State) : State :=
  if r.onDemand && r.page != 0 then
    (cutAt r.page r.page off bs.length (bs.length / r.page + 2) 0).foldl (fun s p =>
      emit (.dmaWrite r.ctx (hostAddr r (off + p.1)) ((bs.drop p.1).take p.2)) s) s
  else emit (.dmaWrite r.ctx (hostAddr r off) bs) s

/-- Bytes of a region change: host memory by DMA, a T1 region through its partition (11 R296). -/
def regionWrite (r : Region) (off : Nat) (bs : List Byte) (s : State) : State :=
  match r.t1 with
  | some p => partStore p.toNat (r.base.toNat + off) bs s
  | none => hostWrite r off bs s

/-- Bytes of a region: `host` are those its DMA reads (11 R296). -/
def regionRead (r : Region) (off n : Nat) (host : List Byte) (s : State) : List Byte × State :=
  match r.t1 with
  | some p => partLoad p.toNat (r.base.toNat + off) n s
  | none => (host.take n, s)

/-- Where byte `off` of a region stands for a read of T1. -/
def regionPlace (s : State) (r : Region) (off : Nat) : Place :=
  match r.t1 with
  | some p => .t1 (partAddr s p.toNat + (r.base.toNat + off))
  | none => .other

/-- Bytes of a region change; a T1 granule filled in part is read first, and where the read fails nothing is written (07 R184,
R185). -/
def regionMerge (r : Region) (off : Nat) (bs : List Byte) (reads : ReadOutcome) (s : State) : Bool × State :=
  match r.t1 with
  | some p =>
    let a := partAddr s p.toNat + (r.base.toNat + off)
    let part := !bs.isEmpty && (a % 512 != 0 || bs.length % 512 != 0)
    let (got, s) := if part then readOutcome (seenOutcome s (.t1 a) bs.length reads) s else (true, s)
    (got, if got then regionWrite r off bs s else s)
  | none => (true, regionWrite r off bs s)

/-! ### Answers -/

/-- Acknowledge a message with a code and a result (11 R301). It leaves on the plane of the message's ID in the ACK class (log entry
182). -/
def podAck (h : PodHdr) (c : Status) (result : List Byte) (s : State) : State :=
  let s := { s with rma := { s.rma with
    rlSent := if c = .retryLater then satInc s.rma.rlSent else s.rma.rlSent } }
  let a : PodHdr := { podHdr0 with
    type := 0x06, src := BitVec.ofNat 16 (myDev s).toNat, dst := h.src, xepoch := s.pair.epoch, id := h.id
    status := codeOf c, op := h.type, firstTb := h.firstTb, srcQp := h.dstQp, dstQp := h.srcQp
    len := BitVec.ofNat 16 (result.length + podTag h.dstQp.toNat result.length) }
  podQueue (planeFor s h.id.toNat 0) (.podAck a result) 1 0 none a.len.toNat s

/-- The identifier entry of a message becomes DONE (11 R306). -/
def idDone (h : PodHdr) (c : Status) (result : List Byte) (s : State) : State :=
  let src : DevId := BitVec.ofNat 12 h.src.toNat
  { s with rma := { s.rma with
      ids := s.rma.ids.map (fun e => if e.src = src && e.id = h.id then { e with done := some (c, result) } else e) } }

/-- A message is finished at the target: its entry is DONE and its ACK goes out (11 R306, R310). -/
def podFinish (h : PodHdr) (c : Status) (result : List Byte) (s : State) : State :=
  podAck h c result (idDone h c result { s with rma := { s.rma with
    stale := if c = .epochStale then satInc s.rma.stale else s.rma.stale } })

/-! ### READ_DATA (11 R309) -/

/-- Send the READ_DATA of a READ_REQ, at most 4,096 bytes each (4,080 on a device-owned queue pair, whose tag counts). -/
def readData (h : PodHdr) (bytes : List Byte) (s : State) : State :=
  let n := mostBytes h.dstQp.toNat
  let parts := (List.range (cdiv bytes.length n)).map (fun i =>
    (({ podHdr0 with type := 0x03, dst := h.src, srcQp := h.dstQp, dstQp := h.srcQp, ref := h.id
                     offset := BitVec.ofNat 64 (i * n) } : PodHdr), (bytes.drop (i * n)).take n))
  dataDrain { s with rma := { s.rma with queued := s.rma.queued ++ parts } }

/-- The one READ_DATA with LEN 0 and the failing code (11 R309). -/
def readFails (h : PodHdr) (c : Status) (s : State) : State :=
  dataDrain { s with rma := { s.rma with
    queued := s.rma.queued ++ [({ podHdr0 with type := 0x03, dst := h.src, srcQp := h.dstQp, dstQp := h.srcQp, ref := h.id
                                               status := codeOf c }, [])] } }

/-- An accepted READ_REQ is served: an unreadable granule answers INTEGRITY (11 R309, R310 step 9). -/
def serveRead (m : PodMsg) (s : State) : State :=
  match regionOf s m.hdr.rkey with
  | none => readFails m.hdr .denied s
  | some r =>
    let (ok, s) := readOutcome (seenOutcome s (regionPlace s r m.hdr.offset.toNat) m.hdr.rlen.toNat m.reads) s
    if !ok then readFails m.hdr .integrity s else
    let (b, s) := regionRead r m.hdr.offset.toNat m.hdr.rlen.toNat m.host s
    readData m.hdr b s

/-! ### The checks of R310 -/

/-- Step 3: reserved and unused fields, DST, sizes and the alignment of an atomic (11 R301; log entry 182). -/
def podMalformed (s : State) (m : PodMsg) : Bool :=
  let h := m.hdr
  let t := h.type.toNat
  let body := m.payload.length
  let bodyOk : Bool := match t with
    | 1 => decide (1 ≤ body)
    | 2 => decide (body = 0) && decide (1 ≤ h.rlen.toNat) && decide (h.rlen.toNat ≤ 65536)
    | 4 => opOk h.op && decide (body = atomicWidth h.op * (if field h.op.toNat 3 0 = 4 then 2 else 1))
        && h.offset.toNat % atomicWidth h.op == 0
    | 5 => decide (1 ≤ body)
    | _ => true
  !(h.resv == 0 && decide (1 ≤ t) && decide (t ≤ 5) && decide (h.src.toNat < 4096) && decide (h.dst.toNat = (myDev s).toNat)
    && decide (h.flags.toNat < 16) && (h.flags.toNat.testBit 2 || h.mepoch == 0)
    && (t = 1 || !h.flags.toNat.testBit 0) && (t = 5 || !h.flags.toNat.testBit 3)
    && (t = 3 || (h.status == 0 && h.ref == 0)) && (t = 4 || h.op == 0)
    && (t = 1 || t = 2 || t = 4 || h.rkey == 0) && (t = 2 || h.rlen == 0)
    && (t ≠ 5 || h.flags.toNat.testBit 3 || h.offset == 0)
    && decide (h.srcQp.toNat < 2 ^ 20) && decide (h.dstQp.toNat < 2 ^ 20)
    && decide (h.len.toNat ≤ 4096) && decide (h.len.toNat = body + podTag h.srcQp.toNat body)
    && bodyOk)

/-- Steps 3 to 5 and the part of step 6 that needs no context. -/
def podEarly (s : State) (m : PodMsg) : Status :=
  let h := m.hdr
  let src := h.src.toNat % 4096
  if podMalformed s m then .malformed
  else if excluded s src || exclEpoch s src != h.xepoch then .epochStale
  else
    let e := if h.flags.toNat.testBit 2 then epochJudge s false h.mepoch else .ok
    if e ≠ .ok then e else
    match qpOf s h.dstQp.toNat with
    | none => .denied
    | some x =>
      if qpKind h.dstQp.toNat = 0 || qpKind h.srcQp.toNat ≠ qpKind h.dstQp.toNat then .denied
      else if !x.ready then .qpError else .ok

/-- The right a message needs of its region, and the bytes it names (11 R298 RIGHTS). -/
def podRight (m : PodMsg) : Option (Nat × Nat) :=
  match m.hdr.type.toNat with
  | 1 => some (2, m.payload.length)
  | 2 => some (1, m.hdr.rlen.toNat)
  | 4 => some (3, atomicWidth m.hdr.op)
  | _ => none

/-- Step 7. -/
def podKey (s : State) (m : PodMsg) : Status :=
  match podRight m, qpOf s m.hdr.dstQp.toNat with
  | some (bit, n), some x => (regionCheck s m.hdr.rkey x.pd (some bit) m.hdr.offset.toNat n).getD .ok
  | _, _ => .ok

/-- The absent pages of a message's range. -/
def podAbsent (s : State) (m : PodMsg) : List Nat :=
  match podRight m, regionOf s m.hdr.rkey with
  | some (_, n), some r => absentPages r m.hdr.offset.toNat n
  | _, _ => []

/-! ### Channels over queue pairs (11 R320) -/

/-- The channels of a device-owned queue pair: cluster and channel. -/
def qpChannels (s : State) (q : Nat) : List (Nat × Nat × Chan) :=
  (s.clusters.map (fun c => (c.2.chans.filter (fun k => match k.2.entry.peer with
    | .pod n _ _ _ => decide (n.toNat = q)
    | _ => false)).map (fun k => (c.1, k.1, k.2)))).flatten

/-- A channel SEND: a message for a receive channel of the queue pair, or one credit for its send channel. -/
def channelSend (m : PodMsg) (s : State) : Status × State :=
  match qpChannels s m.hdr.dstQp.toNat with
  | [] => (.denied, s)
  | (n, ch, k) :: _ =>
    if k.entry.send then (.ok, creditBack n ch 1 s)
    else (.ok, chanDeliver n ch (some m.hdr.offset.toNat) m.payload s)

/-! ### Receive buffers (11 R300, R313) -/

/-- A SEND to a host-owned queue pair takes the next receive buffer. A buffer whose LKEY fails puts the queue pair in ERROR
(R316): the buffer completes with the code of the check, and the sender is answered QP_ERROR. A buffer of more than 4,096 bytes is taken
as it stands (both DESIGN CHOICE, log entry 214). -/
def hostSend (m : PodMsg) (s : State) : Status × State :=
  let q := m.hdr.dstQp.toNat
  match qpOf s q with
  | none => (.denied, s)
  | some x =>
    let (lkey, len, off) := m.buf
    if x.recvCons = x.recvProd then (.retryLater, s)
    else
      match regionCheck s lkey x.pd (some 0) off len with
      | some c =>
        let s := qpCompletion q 0 c 0x10 0 0 0 (qpUpd q (fun x => { x with recvCons := x.recvCons + 1 }) s)
        (.qpError, qpError q none .qpError s)
      | none =>
        if decide (len < m.payload.length) then (.malformed, s) else
        match regionOf s lkey with
        | none => (.denied, s)
        | some r =>
          match absentPages r off m.payload.length with
          | p :: _ => if faultFailed s lkey p then (.denied, s) else (.retryLater, raiseFault lkey 1 p s)
          | [] =>
            let s := regionWrite r off m.payload (qpUpd q (fun x => { x with recvCons := x.recvCons + 1 }) s)
            (.ok, qpCompletion q 0 .ok 0x10 m.payload.length (BitVec.ofNat 12 m.hdr.src.toNat)
              (BitVec.ofNat 64 m.hdr.srcQp.toNat) s)

/-! ### READ_DATA at the requester (11 R309) -/

/-- Bytes `lo ≤ n < hi` are all in the ranges received. -/
def covered (got : List (Nat × Nat)) (lo hi : Nat) : Bool :=
  let inside := sortBy (fun a b => decide (a.1 ≤ b.1)) got
  decide (hi ≤ inside.foldl (fun e r => if r.1 ≤ e && e < r.2 then r.2 else e) lo)

/-- The position of the WR of queue pair `q` that a piece with message counter `id` belongs to. -/
def wrOf (s : State) (q id : Nat) : Option (Nat × WrState × Piece) :=
  match qpOf s q with
  | none => none
  | some x =>
    (x.wrs.zipIdx).findSome? (fun w => (w.1.inflight.find? (fun p => p.id == id)).map (fun p => (w.2, w.1, p)))

/-- A message no longer counts as in flight. -/
def podGone (id : Nat) (s : State) : State := { s with rma := { s.rma with out := s.rma.out.filter (fun m => m.id != id) } }

/-- READ_DATA would write to an absent page of its WR's own LKEY: a fault is raised and the WR is held, the READ_DATA to come again; after
a failed fault the WR's local check fails (11 R313; log entry 209). -/
def readAway (q i : Nat) (k : Word) (page : Nat) (s : State) : Status × State :=
  if faultFailed s k page then (.ok, qpError q (some i) .denied s)
  else (.retryLater, wrUpd q i (fun w => { w with heldPage := some page }) (raiseFault k 1 page s))

/-- READ_DATA arrives: its bytes go to the local region, and the WR completes once every byte is there. A failing code is a
terminal code of R316. -/
def readArrives (m : PodMsg) (s : State) : Status × State :=
  let q := m.hdr.dstQp.toNat
  let id := m.hdr.ref.toNat
  match wrOf s q id with
  | none => (.ok, s)
  | some (i, w, p) =>
    match (statusOf m.hdr.status).getD .ok with
    | .ok =>
      let at_ := p.off + m.hdr.offset.toNat
      match (regionOf s w.wr.lkey).elim [] (fun r => absentPages r (w.wr.localOff.toNat + at_) m.payload.length) with
      | pg :: _ => readAway q i w.wr.lkey pg s
      | [] =>
      let (wrote, s) := match regionOf s w.wr.lkey with
        | some r => regionMerge r (w.wr.localOff.toNat + at_) m.payload m.reads s
        | none => (true, s)
      if !wrote then (.ok, rmaPump (qpError q (some i) .integrity (podGone id s))) else
      let got := w.got ++ [(at_, at_ + m.payload.length)]
      let whole := covered got p.off (p.off + p.len)
      let s := wrUpd q i (fun w => { w with
        got := got, applied := true, inflight := if whole then w.inflight.filter (fun x => x.id != id) else w.inflight }) s
      let s := if whole then podGone id s else s
      (.ok, rmaPump (if covered got 0 w.wr.len.toNat then qpFlush q (wrDone q i .ok 0 s) else s))
    | c => (.ok, rmaPump (qpError q (some i) c (podGone id s)))

/-! ### Steps 7 to 9 -/

/-- Park a remote atomic in the combining queue, or refuse it (10 R282, 11 R315). -/
def parkAtomic (m : PodMsg) (s : State) : State :=
  if 16384 ≤ s.near.combine.length then
    podFinish m.hdr .retryLater [] { s with near := { s.near with retry := satInc s.near.retry } }
  else
    { s with near := { s.near with
        combine := s.near.combine ++ [{ src := BitVec.ofNat 12 m.hdr.src.toNat, id := m.hdr.id, msg := m }] } }

/-- A device asks for the pod key over the key queue pair: it is sent, or refused where none is held (15 R403). What the donor of a
fetch sends arrives as POD_KEY_TRANSFER. -/
def keyAsked (h : PodHdr) (s : State) : Status × State :=
  let d : DevId := BitVec.ofNat 12 h.src.toNat
  if s.sec.fetch.isSome && d == s.sec.donor then (.ok, s) else
  match s.sec.podGen with
  | some g => (.ok, sendPod d 0 (.podKey g) s)
  | none => (.denied, s)

/-- Step 9 for a message whose resources are there (11 R310, 15 R401). -/
def podEffect (m : PodMsg) (s : State) : State :=
  let h := m.hdr
  match h.type.toNat with
  | 1 =>
    (match regionOf s h.rkey with
     | some r =>
       let (got, s) := regionMerge r h.offset.toNat m.payload m.reads s
       podFinish h (if got then .ok else .integrity) [] s
     | none => podFinish h .denied [] s)
  | 2 => serveRead m (podFinish h .ok [] s)
  | 3 =>
    let (c, s) := readArrives m s
    podFinish h c [] s
  | 4 => parkAtomic m s
  | _ =>
    let (c, s) := if h.flags.toNat.testBit 3 then channelSend m s
      else if h.dstQp.toNat = keyQp then keyAsked h s
      else if qpKind h.dstQp.toNat = 1 then (.ok, s) else hostSend m s
    podFinish h c [] s

/-- An access to an absent page (11 R313): a read is accepted and waits, a write or atomic is refused; after a failed fault
each is refused with DENIED. -/
def podAway (m : PodMsg) (page : Nat) (s : State) : State :=
  let h := m.hdr
  if faultFailed s h.rkey page then podFinish h .denied [] s
  else if h.type = 2 then
    let s := raiseFault h.rkey 0 page s
    podFinish h .ok [] { s with rma := { s.rma with openFaults := s.rma.openFaults.map (fun f =>
      if f.rkey = h.rkey && f.page = page then { f with waiting := f.waiting ++ [m] } else f) } }
  else podFinish h .retryLater [] (raiseFault h.rkey (if h.type = 4 then 2 else 1) page s)

/-- The pod-key tag fails (15 R401). -/
def podTagFails (m : PodMsg) (s : State) : State :=
  podFinish m.hdr .integrity [] (noteErr 14 0 0x040 { s with sec := { s.sec with msgAuthFail := satInc s.sec.msgAuthFail } })

/-- The pod-key tag of a message of a device-owned queue pair does not verify, or the device holds no key; the key queue pair's
carry none (15 R401, R403). -/
def podTagBad (s : State) (m : PodMsg) : Bool :=
  qpKind m.hdr.dstQp.toNat = 1 && m.hdr.dstQp.toNat != keyQp && (!m.tagOk || s.sec.podGen.isNone)

/-- A message from step 7 of R310 on. -/
def podExecute (m : PodMsg) (s : State) : State :=
  let key := podKey s m
  if key ≠ .ok then podFinish m.hdr key [] s
  else
    match podAbsent s m with
    | p :: _ => podAway m p s
    | [] =>
      if podTagBad s m && !(m.hdr.type = 4 && decide (16384 ≤ s.near.combine.length)) then podTagFails m s
      else podEffect m s

/-- DEREG_REGIONs whose region no message names any more complete (11 R297). -/
def namesRegion (s : State) (i : Nat) : Bool :=
  s.rma.arrival.any (fun m => keyIndex m.hdr.rkey == i && (podRight m).isSome)
    || s.near.combine.any (fun p => keyIndex p.msg.hdr.rkey == i)
    || s.rma.openFaults.any (fun f => f.waiting.any (fun m => keyIndex m.hdr.rkey == i))

/-- See `namesRegion`. -/
def deregRun (s : State) : State :=
  let ready := s.rma.deregs.filter (fun d => !namesRegion s d.2.2)
  let s := { s with rma := { s.rma with
    deregs := s.rma.deregs.filter (fun d => namesRegion s d.2.2), freed := s.rma.freed ++ ready.map (fun d => d.2.2) } }
  ready.foldl (fun s d => qpFlush d.1.toNat (qpUpd d.1.toNat (fun x => { x with
    wrs := x.wrs.map (fun w => if w.wr.opcode = 0x86 && w.wr.wrId = d.2.1 && keyIndex w.wr.rkey = d.2.2 && w.done.isNone then
      { w with done := some .ok } else w) }) s)) s

/-! ### Evicted contexts (11 R312) -/

/-- Bytes a parked message occupies in the arrival buffer. -/
def parkedBytes (m : PodMsg) : Nat := 64 + m.payload.length

/-- RMA_ARRIVAL. -/
def arrivalBytes (s : State) : Nat := (s.rma.arrival.map parkedBytes).sum

/-- A message past step 6: executed, or parked while its context is fetched. -/
def podTakeOn (m : PodMsg) (s : State) : State :=
  let q := m.hdr.dstQp.toNat
  match qpOf s q with
  | none => podFinish m.hdr .denied [] s
  | some x =>
    if x.resident then podExecute m (qpUpd q (fun x => { x with used := s.tb }) s)
    else if decide (s.rma.arrivalHigh * 1024 < arrivalBytes s + parkedBytes m) then podFinish m.hdr .retryLater [] s
    else fetchStart q { s with rma := { s.rma with arrival := s.rma.arrival ++ [m] } }

/-- A message arrives: steps 1 and 2, the entry of R306, then the later steps; an unknown TYPE is malformed at step 3. -/
def podTake (type : Nat) (m : PodMsg) (s : State) : State :=
  let h := m.hdr
  let src : DevId := BitVec.ofNat 12 h.src.toNat
  if fenced s || (h.type.toNat ≠ type && decide (1 ≤ h.type.toNat) && decide (h.type.toNat ≤ 6)) then s
  else if h.firstTb.toNat + 80000 ≤ s.tb then { s with rma := { s.rma with expired := satInc s.rma.expired } }
  else
    match s.rma.ids.find? (fun e => e.src == src && e.id == h.id) with
    | some e =>
      let s := { s with rma := { s.rma with dups := satInc s.rma.dups } }
      (match e.done with
       | some (c, b) => podAck h c b s
       | none => s)
    | none =>
      let s := { s with rma := { s.rma with
        ids := s.rma.ids ++ [{ src := src, id := h.id, first := h.firstTb.toNat, done := none }] } }
      let c := podEarly s m
      if c = .ok then deregRun (podTakeOn m s) else podFinish h c [] s

/-- The context of queue pair `q` is on chip: parked messages go on from step 7, and its own WRs are sent (11 R312). While its half has
no room, the fetch is not done (log entry 179). -/
def fetched (q : Nat) (s : State) : State :=
  let s := evictFor (q % 2) s
  if !halfRoom s (q % 2) then s else
  let s := qpUpd q (fun x => { x with resident := true, fetching := false, used := s.tb }) s
  let mine := s.rma.arrival.filter (fun m => m.hdr.dstQp.toNat == q)
  let s := { s with rma := { s.rma with arrival := s.rma.arrival.filter (fun m => m.hdr.dstQp.toNat != q) } }
  qpSend q (deregRun (mine.foldl (fun s m => podExecute m s) s))

/-- The fetched context fails its MAC: ERROR without its queue state (11 R318). -/
def fetchFails (q : Nat) (s : State) : State :=
  match qpOf s q with
  | none => s
  | some x =>
    let mine := s.rma.arrival.filter (fun m => m.hdr.dstQp.toNat == q)
    let s := { s with rma := { s.rma with
      arrival := s.rma.arrival.filter (fun m => m.hdr.dstQp.toNat != q), qpErr := satInc s.rma.qpErr } }
    let s := evictFor (q % 2) s
    let room := halfRoom s (q % 2)
    let s := noteErr 9 0 0x060 (qpUpd q (fun x => { x with
      ready := false, resident := room, fetching := false, wrs := [], recvCons := x.recvProd, sendCons := x.sendProd }) s)
    let ctl := 2 * x.ctx.toNat
    let s := match qpOf s ctl with
      | some k => msix x.ctx k.block.vector.toNat
          (emit (.qpCompletion (BitVec.ofNat 20 ctl) (BitVec.ofNat 20 q) 0 .integrity 0 0 0 0 (cqPhase k))
            (qpUpd ctl (fun k => { k with cqProd := k.cqProd + 1 }) s))
      | none => s
    mine.foldl (fun s m => podFinish m.hdr .qpError [] s) s

/-! ### The sender: acknowledgements (11 R304, R314, R316) -/

/-- Every piece of a WR has taken effect. -/
def wrWhole (w : WrState) : Bool := w.todo.isEmpty && w.inflight.isEmpty && w.backoff.isEmpty

/-- Ticks of back-off after the a-th refusal: 4 µs and a part drawn by the random generator (11 R314). -/
def backoffTicks (a draw : Nat) : Nat := 2500 + draw * (min (4 * 2 ^ (a - 1)) 1024 * 625) / 2 ^ 32

/-- RMA_RETRY_LIMIT ms have passed since a first refusal (11 R314). -/
def limitPassed (first : Nat) (s : State) : Bool := decide (first + s.rma.retryLimit * Config.tbPerMs ≤ s.tb)

/-- A refusal with RETRY_LATER of a piece: it waits for back-off, or its WR ends once the limit has passed (11 R314). -/
def pieceRefused (q i : Nat) (w : WrState) (p : Piece) (s : State) : State :=
  let first := p.first.getD s.tb
  if p.first.isSome && limitPassed first s then
    if w.applied then qpError q (some i) .qpError s else qpFlush q (wrDone q i .retryLater 0 s)
  else
    let a := p.refusals + 1
    wrUpd q i (fun w => { w with
      inflight := w.inflight.filter (fun x => x.id != p.id)
      backoff := w.backoff ++ [{ p with
        first := some first, refusals := a, at_ := s.tb + backoffTicks a (Config.freeWord s.free).toNat }] }) (bumpFree s)

/-- A message of queue pair `q` was acknowledged with OK. -/
def pieceDone (q i : Nat) (p : Piece) (result : List Byte) (s : State) : State :=
  let s := wrUpd q i (fun w => { w with inflight := w.inflight.filter (fun x => x.id != p.id), applied := true }) s
  match (qpOf s q).bind (fun x => x.wrs[i]?) with
  | none => s
  | some w =>
    let s := if wrWhole w then qpFlush q (wrDone q i .ok (if w.wr.opcode = 0x03 then BitVec.ofNat 64 (leNat result) else 0) s) else s
    qpSend q s

/-- The claim of the backup step that `p` names is answered, or ends (14 R385, 16 R429). -/
def shardEnds (p : ShardRun → Bool) (c : Status) (result : List Byte) (s : State) : State :=
  match s.repro.shards.find? p with
  | none => s
  | some x =>
    let won := c = .ok && leNat result == x.step.toNat * 2 ^ 16
    let s := { s with repro := { s.repro with
      shards := s.repro.shards.filter (fun y => !p y)
      claimsWon := if won then satInc s.repro.claimsWon else s.repro.claimsWon
      claimsLost := if won then s.repro.claimsLost else satInc s.repro.claimsLost } }
    postCq x.ring x.hostTag 0 (if won then 6 else 7) .ok 0 s

/-- The answer to the claim that message `id` carried. -/
def claimAnswer (id : Nat) (c : Status) (result : List Byte) (s : State) : State :=
  shardEnds (fun x => x.claim == some (BitVec.ofNat 48 id)) c result s

/-- A message of the device's own ends without success: a claim and the request of a POD_FETCH end with the code; of READ_DATA the reader
times out (11 R309, R314). -/
def outEnds (o : PodOut) (c : Status) (s : State) : State :=
  match o.fw with
  | some m => fwFails m c s
  | none => if o.hdr.type = 4 then claimAnswer o.id c [] s else s

/-- A message of the device's own is refused with RETRY_LATER: it backs off (11 R314). Past RMA_RETRY_LIMIT the work ends with
RETRY_LATER, and firmware posts a message of its own anew (log entry 215). -/
def outRefused (o : PodOut) (s : State) : State :=
  let late := o.firstRef.any (fun t => limitPassed t s)
  if late && !(o.fw.any (fun m => !keyMsg m)) then outEnds o .retryLater s
  else
    let a := if late then 1 else o.refusals + 1
    bumpFree { s with rma := { s.rma with refused := s.rma.refused ++ [{ o with
      refusals := a, firstRef := some (if late then s.tb else o.firstRef.getD s.tb)
      due := s.tb + backoffTicks a (Config.freeWord s.free).toNat }] } }

/-- An ACK for a message in flight (11 R304 to R316). -/
def ackAt (m : PodMsg) (s : State) : State :=
  let id := m.hdr.id.toNat
  let src := m.hdr.src.toNat % 4096
  if m.hdr.type ≠ 0x06 || excluded s src || exclEpoch s src != m.hdr.xepoch || m.hdr.dst.toNat ≠ (myDev s).toNat
    || podTagBad s m then s else
  match s.rma.out.find? (fun o => o.id == id), statusOf m.hdr.status with
  | some o, some c =>
    if o.acked || o.hdr.dst.toNat % 4096 ≠ src then s else
    let s := if c = .retryLater then { s with rma := { s.rma with rlRecv := satInc s.rma.rlRecv } } else s
    let q := o.hdr.srcQp.toNat
    if o.fw.isSome || o.hdr.type = 3 || (o.hdr.type = 4 && q = fwQp) then
      let s := podGone id s
      rmaPump (if c = .retryLater then outRefused o s
        else if o.hdr.type = 4 then claimAnswer id c m.payload s
        else if c = .ok then s else outEnds o c s)
    else
      match wrOf s q id with
      | none => rmaPump (podGone id s)
      | some (i, w, p) =>
        if o.hdr.type = 2 && c = .ok then
          { s with rma := { s.rma with out := s.rma.out.map (fun o => if o.id = id then { o with acked := true } else o) } }
        else
          let s := podGone id s
          rmaPump (if c = .ok then pieceDone q i p m.payload s
            else if c = .retryLater then pieceRefused q i w p s
            else qpError q (some i) c s)
  | _, _ => s

/-- A transmission of message `id` waits in the queue of a far link. -/
def podWaits (s : State) (id : Nat) : Bool :=
  (List.range 16).any (fun k => (link s (15 + k)).queue.any (fun q => match q.pkt with
    | .pod h _ | .podFw h _ => h.id.toNat == id
    | _ => false))

/-- A message's ACK has not come 8 µs after a transmission (11 R304). -/
def retransmit (id : Nat) (s : State) : State :=
  match s.rma.out.find? (fun o => o.id == id) with
  | none => s
  | some o =>
    if !o.aired || podWaits s id || o.acked || decide (s.tb < o.sent + 5000) || decide (o.first + 40000 ≤ s.tb) || !mayEmit s then s else
    let n := o.retx + 1
    let plane := planeFor s id n
    let h : PodHdr := { o.hdr with flags := o.hdr.flags ||| 2 }
    let pkt : Packet := match o.fw with
      | some f => .podFw h f
      | none => .pod h o.payload
    let s := { s with rma := { s.rma with
      retx := satInc s.rma.retx
      out := s.rma.out.map (fun o => if o.id = id then { o with retx := n, sent := s.tb, plane := plane.getD o.plane } else o) } }
    let s := if n = 1 then sendSuspect (BitVec.ofNat 12 o.hdr.dst.toNat) s else s
    podQueue plane pkt 2 o.tc o.tenant h.len.toNat s

/-- A message's sender stops waiting (11 R308). -/
def lifetimeEnds (id : Nat) (s : State) : State :=
  match s.rma.out.find? (fun o => o.id == id) with
  | none => s
  | some o =>
    if !o.aired || o.acked || decide (s.tb < o.first + 80008) then s else
    let s := noteErr 9 0 0x064 (podGone id { s with rma := { s.rma with unacked := satInc s.rma.unacked } })
    let q := o.hdr.srcQp.toNat
    match wrOf s q id with
    | some (i, _, _) => rmaPump (qpError q (some i) .qpError s)
    | none => rmaPump (outEnds o .qpError s)

/-- A READ still lacks data (11 R309). -/
def readTimesOut (id : Nat) (s : State) : State :=
  match s.rma.out.find? (fun o => o.id == id) with
  | none => s
  | some o =>
    if o.hdr.type = 2 && o.aired && decide (o.first + (s.rma.faultTimeout + 1) * Config.tbPerMs ≤ s.tb) then
      match wrOf s o.hdr.srcQp.toNat id with
      | some (i, _, _) => rmaPump (qpError o.hdr.srcQp.toNat (some i) .qpError (podGone id s))
      | none => podGone id s
    else s

/-- The WR of queue pair `q` with a piece that waits for back-off, last sent as message `id`. -/
def backoffOf (s : State) (id : Nat) : Option (Nat × Nat × WrState × Piece) :=
  s.rma.qps.findSome? (fun e => (e.2.wrs.zipIdx).findSome? (fun w =>
    (w.1.backoff.find? (fun p => p.id == id)).map (fun p => (e.1, w.2, w.1, p))))

/-- The back-off of a piece ends: it is re-sent as a new message (11 R314). -/
def backoffEnds (id : Nat) (s : State) : State :=
  match backoffOf s id with
  | some (q, i, _, p) =>
    if decide (s.tb < p.at_) then s else
    qpSend q (wrUpd q i (fun w => { w with backoff := w.backoff.filter (fun x => x.id != id), todo := p :: w.todo }) s)
  | none =>
    match s.rma.refused.find? (fun o => o.id == id) with
    | none => s
    | some o =>
      if decide (s.tb < o.due) || !podReady s o.hdr.srcQp.toNat || !inFlightRoom s then s else
      let s := { s with rma := { s.rma with refused := s.rma.refused.filter (fun o => o.id != id) } }
      let s := { s with repro := { s.repro with shards := s.repro.shards.map (fun x =>
        if x.claim = some (BitVec.ofNat 48 id) then { x with claim := some (BitVec.ofNat 48 s.rma.counter) } else x) } }
      let again := s.rma.counter
      let s := podSend o.hdr o.payload o.fw o.tenant o.tc s
      { s with rma := { s.rma with out := s.rma.out.map (fun x =>
        if x.id = again then { x with refusals := o.refusals, firstRef := o.firstRef } else x) } }

/-- A piece has been refused for RMA_RETRY_LIMIT (11 R314). -/
def limitEnds (id : Nat) (s : State) : State :=
  match backoffOf s id with
  | some (q, i, w, p) =>
    if limitPassed (p.first.getD s.tb) s then
      rmaPump (if w.applied then qpError q (some i) .qpError s else qpFlush q (wrDone q i .retryLater 0 s))
    else s
  | none =>
    match s.rma.refused.find? (fun o => o.id == id) with
    | none => s
    | some o =>
      if o.firstRef.any (fun t => limitPassed t s) then
        outRefused o { s with rma := { s.rma with refused := s.rma.refused.filter (fun o => o.id != id) } }
      else s

/-! ### The end of a fault (11 R313) -/

/-- Reads that waited for a page are taken on again: another page of theirs may be absent. -/
def readAgain (m : PodMsg) (s : State) : State :=
  match podAbsent s m with
  | p :: _ =>
    if faultFailed s m.hdr.rkey p then readFails m.hdr .denied s else
    let s := raiseFault m.hdr.rkey 0 p s
    { s with rma := { s.rma with openFaults := s.rma.openFaults.map (fun f =>
      if f.rkey = m.hdr.rkey && f.page = p then { f with waiting := f.waiting ++ [m] } else f) } }
  | [] => serveRead m s

/-- A WR whose local range touches an absent page is held, with a fault (11 R313); after a failed fault its local check
fails with DENIED. -/
def wrHold (q i : Nat) (s : State) : State :=
  match (qpOf s q).bind (fun x => x.wrs[i]?) with
  | none => s
  | some w =>
    if w.done.isSome || w.wr.opcode = 0x03 || decide (0x80 ≤ w.wr.opcode.toNat) then s else
    match regionOf s w.wr.lkey with
    | none => s
    | some r =>
      match absentPages r w.wr.localOff.toNat w.wr.len.toNat with
      | [] => s
      | p :: _ =>
        if faultFailed s w.wr.lkey p then qpError q (some i) .denied s
        else wrUpd q i (fun w => { w with heldPage := some p }) (raiseFault w.wr.lkey (if w.wr.opcode = 0x02 then 1 else 0) p s)

/-- The WRs that an absent page holds: queue pair and position. -/
def heldBy (k : Word) (page : Nat) (s : State) : List (Nat × Nat) :=
  (s.rma.qps.map (fun e => ((e.2.wrs.zipIdx).filter (fun w => w.1.wr.lkey == k && w.1.heldPage == some page)).map (fun w => (e.1, w.2)))).flatten

/-- A page is present: its fault is resolved, the reads that waited are served and the WRs it held go on. -/
def pagePresent (k : Word) (page : Nat) (s : State) : State :=
  let reads := (s.rma.openFaults.filter (fun f => f.rkey == k && f.page == page)).map (fun f => f.waiting)
  let s := { s with rma := { s.rma with openFaults := s.rma.openFaults.filter (fun f => !(f.rkey == k && f.page == page)) } }
  let s := reads.flatten.foldl (fun s m => readAgain m s) s
  let held := heldBy k page s
  let s := { s with rma := { s.rma with qps := s.rma.qps.map (fun e => (e.1, { e.2 with wrs := e.2.wrs.map (fun w =>
    if w.wr.lkey = k && w.heldPage == some page then { w with heldPage := none } else w) })) } }
  rmaPump (held.foldl (fun s x => wrHold x.1 x.2 s) s)

/-- A fault stays unresolved: the reads that wait are answered with DENIED, and the WRs it holds fail their local check
(11 R313, R316). -/
def faultEnds (k : Word) (page : Nat) (s : State) : State :=
  match s.rma.openFaults.find? (fun f => f.rkey == k && f.page == page) with
  | none => s
  | some f =>
    if f.failed || decide (s.tb < f.opened + s.rma.faultTimeout * Config.tbPerMs) then s else
    let s := { s with rma := { s.rma with openFaults := s.rma.openFaults.map (fun f =>
      if f.rkey = k && f.page = page then { f with failed := true, waiting := [] } else f) } }
    let s := f.waiting.foldl (fun s m => readFails m.hdr .denied s) s
    let held := heldBy k page s
    deregRun (held.foldl (fun s x => qpError x.1 (some x.2) .denied s) s)

/-! ### Exclusion and re-admission (11 R317, R319) -/

/-- A WR to an excluded device ends (11 R317). -/
def wrExcluded (d : Nat) (w : WrState) : WrState :=
  if w.wr.dstDev.toNat % 4096 = d && w.wr.opcode.toNat < 0x80 && w.done.isNone then
    { w with done := some .epochStale, todo := [], inflight := [], backoff := [], heldPage := none }
  else w

/-- The device's own work towards a device, in flight, refused or waiting, ends with a code: the request of a POD_FETCH and the claims of
backup steps (11 R317, R319). -/
def workEnds (d : Nat → Bool) (c : Status) (s : State) : State :=
  let out := (s.rma.out ++ s.rma.refused).filter (fun o => d (o.hdr.dst.toNat % 4096))
  let fw := (s.rma.waiting.filter (fun m => d m.1.toNat)).map (fun m => m.2.2)
  let shards := s.repro.shards.filter (fun x => x.claim.isNone && d x.consumer.toNat)
  let s := out.foldl (fun s o => outEnds o c s) s
  let s := fw.foldl (fun s m => fwFails m c s) s
  shards.foldl (fun s x => shardEnds (fun y => y == x) c [] s) s

/-- A device is excluded: the WRs that name it complete with EPOCH_STALE and its messages in flight are abandoned. -/
def rmaExcluded (d : Nat) (s : State) : State :=
  let s := workEnds (fun x => x == d) .epochStale s
  let qps : Tab Qp := s.rma.qps.map (fun e => (e.1, { e.2 with wrs := e.2.wrs.map (wrExcluded d) }))
  let s : State := { s with rma := { s.rma with
    out := s.rma.out.filter (fun o => o.hdr.dst.toNat % 4096 != d)
    queued := s.rma.queued.filter (fun o => o.1.dst.toNat % 4096 != d)
    refused := s.rma.refused.filter (fun o => o.hdr.dst.toNat % 4096 != d)
    waiting := s.rma.waiting.filter (fun o => o.1.toNat != d)
    qps := qps } }
  rmaPump ((qps.map (fun e => e.1)).foldl (fun s q => qpFlush q s) s)

/-- A queue pair at re-admission (R319): every WR is FENCED; a device-owned one is made anew. -/
def qpReadmit (tb n : Nat) (x : Qp) : Qp :=
  if qpKind n = 1 then newQp x.ctx x.pd x.blockAddr x.block tb
  else { x with fetching := false, wrs := x.wrs.map (fun w => { w with done := some (w.done.getD .fenced), todo := [], inflight := [], backoff := [] }) }

/-- Re-admission: every WR completes with FENCED, those in the send rings too, host-owned queue pairs are in ERROR, device-owned ones are
made anew (R319). -/
def rmaReadmit (s : State) : State :=
  let s := workEnds (fun _ => true) .fenced s
  let qps : Tab Qp := s.rma.qps.map (fun e => (e.1, qpReadmit s.tb e.1 e.2))
  let s : State := { s with
    near := { s.near with combine := [] }
    rma := { s.rma with
      out := [], queued := [], refused := [], waiting := [], arrival := [], deregs := []
      freed := s.rma.freed ++ s.rma.deregs.map (fun d => d.2.2)
      openFaults := s.rma.openFaults.map (fun f => { f with waiting := [] }), qps := qps } }
  (qps.map (fun e => e.1)).foldl (fun s q =>
    let s := ringEnds q .fenced (qpFlush q s)
    if qpKind q = 2 then qpError q none .fenced s else s) s

end Sys2Proof.Machine
end

