-- ==== Sys2Proof/Machine/NodeLoss.lean ====
section
/-!
DEFINITION. What the exclusion of a device does here (09 R262; 08 R235; 14 R374), and fencing and re-admission of this
device (09 R260, R263; 11 R319; 13 R356).
-/

namespace Sys2Proof.Machine

/-! ### Node loss (08 R235) -/

/-- The node that takes the place of an excluded generation node, or of a prompt node (`prefill`): another node of the
role, else a node of the other role (08 R235, R237). -/
def replacement (s : State) (prefill : Bool) : Option DevId :=
  match mapNode s (if prefill then 1 else 2) with
  | some d => some d
  | none => mapNode s (if prefill then 2 else 1)

/-- The device `d` stands in this tray. -/
def inTray (s : State) (d : Nat) : Bool := decide (d / 16 = (myTray s).toNat)

/-- The node that the current map names in place of an excluded one of this tray. -/
def renode (s : State) (d : Nat) (prefill : Bool) (x : DevId) : DevId :=
  if x.toNat = d && inTray s d then (replacement s prefill).getD x else x

/-- A route entry with an excluded node replaced. -/
def lossRoute (s : State) (d : Nat) (r : Route) : Route :=
  { r with prompt := BitVec.ofNat 16 (renode s d true (BitVec.ofNat 12 r.prompt.toNat)).toNat
           gen := BitVec.ofNat 16 (renode s d false (BitVec.ofNat 12 r.gen.toNat)).toNat }

/-- No live node is left in one of the stage's two places. -/
def nodeGone (s : State) (r : Route) : Bool := excluded s (r.prompt.toNat % 4096) || excluded s (r.gen.toNat % 4096)

/-- Both members of the stage's pair are excluded. -/
def pairLost (s : State) (r : Route) : Bool :=
  excluded s (r.pair.toNat % 4096) && excluded s ((r.pair.toNat / 16 * 16 + (r.pair.toNat + 1) % 16) % 4096)

/-- Another pair of this tray's current map, the lowest one, for a stage whose pair is lost (log entry 176). -/
def otherPair (s : State) (r : Route) : Option Route :=
  match mapCurrent s with
  | none => none
  | some m =>
    if !inTray s (r.pair.toNat % 4096) then none else
    ((List.range 16).find? (fun d => m.roles.getD d 0 == 3 && m.roles.getD ((d + 1) % 16) 0 == 3 && slotLive s d
      && slotLive s ((d + 1) % 16))).map (fun d => { r with pair := BitVec.ofNat 16 (devOfSlot s d).toNat })

/-- The other member of a request's pair, when this one is excluded. -/
def otherMember (s : State) (r : Rec) (d : Nat) : Option Nat := (memberSlots r).find? (fun x => x != d % 16 && slotLive s x)

/-- The owner of a galley with member `d` excluded: the other member serves, the step in flight loses its speculative rows and
commits with a = 0 (09 R245). With both members gone the step in flight is discarded, and the anchor applies the both-members
rule (08 R235). -/
def ownerLosesMember (q : ReqId) (d : Nat) (s : State) : State :=
  match recLive s q with
  | none => s
  | some r =>
    if !inTray s d || !(memberSlots r).contains (d % 16) then s
    else
      let s := if (liveMembers s r).isEmpty then recUpd q (fun r => { r with boundary := none, redo := true }) s
        else if r.servingSlot.toNat % 16 = d % 16 then
          recUpd q (fun r =>
            let r := { r with
              servingSlot := BitVec.ofNat 8 ((otherMember s r d).getD (r.servingSlot.toNat % 16))
              noSpec := r.noSpec || r.state == 4 }
            { r with boundary := r.boundary.map (stepCut r) }) s
        else s
      if r.dropWait.contains (d % 16) then dropAcked q (d % 16) s else s

/-- The message by which a serving member of another tray than the anchor's gives a replacing node its record of the request: the
routing of its stage as this member knows it (log entry 67). -/
def takeOverMsg (s : State) (g : Galley) (r : Rec) : StageResume :=
  let pair : BitVec 16 := BitVec.ofNat 16 (min (mySlot s).toNat (partnerOr s) + 16 * (myTray s).toNat)
  let at_ : Route := { prompt := BitVec.ofNat 16 r.prompt.toNat, gen := BitVec.ofNat 16 r.gen.toNat, pair := pair, resv := 0 }
  { adm := { req := g.reqId, stage := r.stage, tenant := g.tenant, part := g.part, context := r.context
             priority := r.priority, anchor := r.anchor, epoch := r.epoch, deadline := r.deadline
             promptLen := BitVec.ofNat 32 g.rec_.promptLen, maxLen := BitVec.ofNat 32 g.rec_.maxLen, ttl := r.ttl
             flags := BitVec.ofNat 2 r.flags.toNat
             modelDigest := s.forme.committed.elim 0 (fun f => f.header.modelDigest)
             route := List.replicate r.stage.toNat { at_ with gen := BitVec.ofNat 16 r.gen0.toNat } ++ [at_]
               ++ (if r.lastStage then [] else [at_])
             lower := .ok, upper := .ok, genAns := .ok, firstLayer := 0, byGen := false, copy := none, resv := 0 }
    commitLen := BitVec.ofNat 32 g.rec_.commitLen, newTokens := 0, partnerOps := 0, restart := false, cause := 0, takeOver := true }

/-- The serving member of a galley with `d` excluded. A request whose anchor is excluded as well is dropped. The node that replaces
an excluded owner is named by the anchor, and in another tray than the anchor's by the serving member from its own map; where the
word names a live owner already, that owner gets RECORD (08 R223, R235, 09 R262; log entry 67). -/
def memberLosesOwner (q : ReqId) (d : Nat) (s : State) : State :=
  match galleyOf s q, recLive s q with
  | some g, some r =>
    if g.serving ≠ mySlot s then s
    else if r.anchor.toNat = d then
      if g.owner.toNat = d || g.owner = myDev s then memberDrop q (recUpd q (fun r => { r with status := codeOf .stateLost }) s) else s
    else if g.owner.toNat = d then
      if inTray s r.anchor.toNat then s
      else if excluded s r.gen.toNat || excluded s r.prompt.toNat then reportEnd q .stateLost s
      else recordTo q (sendFw (nextOwner { g.rec_ with gen := r.gen, prompt := r.prompt }) r.epoch (.resume (takeOverMsg s g r)) s)
    else if g.rec_.owner.toNat = d then recordTo q s
    else s
  | _, _ => s

/-- What a record of this device meets when `d` is excluded (08 R235). -/
def lossOne (d : Nat) (q : ReqId) (s : State) : State :=
  match recLive s q with
  | none => s
  | some r =>
    let s := if inTray s d && !inTray s r.anchor.toNat then
        recUpd q (fun r => { r with gen := renode s d false r.gen, prompt := renode s d true r.prompt, gen0 := renode s d false r.gen0 }) s
      else s
    if r.anchor.toNat = d && r.view.toNat % 4 < 2 && r.view ≠ 0 then memberLosesOwner q d s
    else if r.anchor.toNat = d then endStage q .stateLost (if ownerView r then ownerLosesMember q d s else s)
    else
      let s := if ownerView r then ownerLosesMember q d s else s
      memberLosesOwner q d s

/-! ### Node loss at the anchor (08 R235) -/

/-- Stages of which no device is left count as dropped, and the request ends when all others have reported (08 R230). -/
def lossDropped (q : ReqId) (s : State) : State :=
  match anchorOf s q with
  | none => s
  | some a =>
    let gone := (List.range a.route.length).filter (fun i => !a.dropped.contains i
      && (a.route[i]?).any (fun e => (stageDevs e).all (fun d => excluded s d.toNat)))
    if gone.isEmpty then s else
    let s := anchorUpd q (fun a => { a with dropped := a.dropped ++ gone }) s
    if (a.dropped ++ gone).length = a.route.length then anchorFinish q s else s

/-- Every stage learns which nodes take the place of excluded ones, and a request that is ending, that it ends. -/
def takeOverSend (q : ReqId) (s : State) : State :=
  match anchorOf s q, recLive s q with
  | some a, some r =>
    let s := ((List.range a.route.length).zip a.route).foldl (fun s x =>
      ((stageDevs x.2).filter (fun d => !excluded s d.toNat)).foldl (fun s d =>
        sendFw d r.epoch (.resume { resumeMsg s a r x.1 false 0 with takeOver := true }) s) s) s
    match a.code with
    | some c => toStages a r.epoch (.retire q c) s
    | none => s
  | _, _ => s

/-- Both members of a stage's pair are lost: re-prefill where it applies and another pair takes the stage, otherwise STATE_LOST. A
PAUSED request is re-prefilled at its next turn (08 R218, R235; log entry 176). -/
def pairGone (q : ReqId) (a : AnchorInfo) (r : Rec) (s : State) : State :=
  let route := a.route.map (fun e => if pairLost s e then otherPair s e else some e)
  if !a.accepted then refusalAt q .stateLost (myDev s) s
  else if r.state = 5 then (if reprefillHeld q r s then s else anchorEnd q .stateLost s)
  else if reprefillHeld q r s && route.all (fun e => e.isSome) then
    anchorReprefill q 1 (anchorUpd q (fun a => { a with route := route.filterMap id }) s)
  else anchorEnd q .stateLost s

/-- A request that this device anchors, with `d` excluded (08 R235). -/
def anchorLoss (d : Nat) (q : ReqId) (s : State) : State :=
  match anchorOf s q, recLive s q with
  | some a, some r =>
    if a.refused.isSome then refusedEnd q s else
    let route := a.route.map (lossRoute s d)
    let s := anchorUpd q (fun a => { a with route := route }) s
    if a.code.isSome then lossDropped q (if route = a.route then s else takeOverSend q s)
    else if route.any (fun e => inTray s e.gen.toNat && nodeGone s e) then lossDropped q (anchorEnd q .stateLost s)
    else if route.any (fun e => pairLost s e && (e.pair.toNat % 4096 = d || (e.pair.toNat / 16 * 16 + (e.pair.toNat + 1) % 16) % 4096 = d))
      then lossDropped q (pairGone q { a with route := route } r s)
    else if route = a.route then s
    else takeOverSend q s
  | _, _ => s

/-- Node loss, for every request that the device anchored, owned or served (08 R235). -/
def nodeLoss (d : Nat) (s : State) : State :=
  let qs := s.req.recs.map (fun e => e.2.reqId)
  let s := qs.foldl (fun s q => anchorLoss d q s) s
  qs.foldl (fun s q => lossOne d q s) s

/-! ### Pod barriers (14 R373, R374) -/

/-- Clusters of a partition that wait at a pod barrier. -/
def podWaiting (s : State) (part id : Nat) : List Nat :=
  (s.clusters.filter (fun c => (regionsOf s part).contains (c.1 / 16) && (match c.2.wait with
    | .barrier i sc => decide (i.toNat = id) && sc == 2
    | _ => false))).map (fun c => c.1)

/-- The next instance of a pod barrier begins. -/
def podNext (id : Nat) (s : State) : State :=
  { s with repro := { s.repro with pods := Tab.mod s.repro.pods id (fun b => { b with
      inst := b.inst + 1, sent := false, arrived := b.early, early := [], release := none }) } }

/-- A context saved at the barrier: its work item ends with EPOCH_STALE, and it will continue at the next WAITWQ (13 R349). -/
def podEndSaved (key : Nat) (v : Saved) (s : State) : State :=
  let n := key / 64
  let x := cluster s n
  let w := { v with item := none, wait := .none, pc := nextWaitwq { x with pc := v.pc }, chain := false, live := [], streams := [] }
  let s := { s with sched := { s.sched with saves := Tab.put s.sched.saves key w } }
  clusterUpd n (fun x => { x with
    done := endsWith (codeOf .epochStale) { x with item := v.item, sat := v.sat, dig := [], fallbacks := [] } }) s

/-- The saved contexts of a partition that wait at a pod barrier. -/
def podSaved (s : State) (part id : Nat) : Tab Saved :=
  s.sched.saves.filter (fun e => (regionsOf s part).contains (e.1 / 64 / 16) && (match e.2.wait with
    | .barrier i sc => decide (i.toNat = id) && sc == 2
    | _ => false))

/-- An instance ends with EPOCH_STALE: each waiting cluster's work item ends with it and its compositor continues at the
next WAITWQ; REPRO_BARRIER_FAIL counts it (14 R374, 17 R448 bit 13). -/
def podFails (id : Nat) (s : State) : State :=
  match Tab.find s.repro.pods id with
  | none => s
  | some b =>
    let s := noteErr 13 0 0x01C { s with repro := { s.repro with barrierFail := satInc s.repro.barrierFail } }
    let s := { s with sched := { s.sched with
      arrivals := s.sched.arrivals.filter (fun e => !(e.1 % 1024 == 512 + id
        && partOfCtx s (e.1 / 1024) == some b.part)) } }
    let s := (podSaved s b.part id).foldl (fun s e => podEndSaved e.1 e.2 s) s
    podNext id ((podWaiting s b.part id).foldl (fun s n => endItem n .epochStale 6 false s) s)

/-- The coordinator's RELEASE to every participant that has arrived. -/
def sendRelease (id : Nat) (b : PodBarrier) (tick : DWord) (c : Status) (s : State) : State :=
  b.arrived.foldl (fun s d => if d = myDev s then s else sendFw d 0 (.release (BitVec.ofNat 8 id) b.inst tick c) s) s

/-- EXCLUDE of a participant at its coordinator, or of the coordinator at a participant (14 R374). A device is known as a
participant of an instance once it has arrived (log entry 68). -/
def podExcluded (d : Nat) (s : State) : State :=
  (s.repro.pods.map (fun e => e.1)).foldl (fun s id =>
    match Tab.find s.repro.pods id with
    | none => s
    | some b =>
      if b.coord.toNat = d && (b.sent || !(podWaiting s b.part id).isEmpty) then podFails id s
      else if b.coord = myDev s && b.arrived.any (fun x => x.toNat == d) && b.release.isNone then
        podFails id (sendRelease id b 0 .epochStale s)
      else s) s

/-! ### EXCLUDE and JOIN (09 R261, R262) -/

/-- The requests of this device to slot `d` end with EPOCH_STALE, and numbering starts anew (10 R266, R274). A fence that waits for
other slots has every answer it needs from `d` (10 R283). -/
def trayExcluded (d : Nat) (s : State) : State :=
  let outs := (trayDst s d).out
  let waits := (trayDst s d).waiting
  let s := trayDstUpd d (fun x => { x with waiting := [] }) s
  let s := outs.foldl (fun s o => trayEnd d o.seq true .epochStale ⟨[], .good⟩ s) s
  let s := waits.foldl (fun s w => whyEnd d w.1 w.2 true .epochStale ⟨[], .good⟩ s) s
  let s := { s with near := { s.near with fences := s.near.fences.map (fun f => { f with marks := f.marks.filter (fun m => m.1 != d) }) } }
  trayDstUpd d (fun x => { x with next := 1, out := [], answered := [], through := 0 }) s

/-- An EXCLUDE for a peer (09 R262). The choice of paths is remade (10 R272, R286), and the atomics that waited behind the peer's take
their turns (10 R281). -/
def excludePeer (d : Nat) (epoch : BitVec 16) (before : State) : State :=
  let s := before
  let s := { s with pair := { s.pair with
    exclusions := satInc s.pair.exclusions, excl := Tab.put s.pair.excl d (true, epoch) } }
  let s := breakChannels (peerIs s d) .epochStale s
  let s := if partnerDev s == some (BitVec.ofNat 12 d) && inTray s d then partnerExcluded s else s
  let s := homeTurns (podExcluded d (nodeLoss d (rmaExcluded d s)))
  if inTray s d && d ≠ (myDev s).toNat then creditsRepath before (viaLost (d % 16) (trayExcluded (d % 16) s)) else s

/-- A JOIN (09 R261): the device's new epoch, its mark cleared; numbering towards it starts anew. -/
def joinPeer (d : Nat) (epoch : BitVec 16) (s : State) : State :=
  let s' := { s with pair := { s.pair with excl := Tab.put s.pair.excl d (false, epoch) } }
  if inTray s d && d ≠ (myDev s).toNat then creditsRepath s (trayExcluded (d % 16) s') else s'

/-! ### Fencing and re-admission (01 R32; 09 R260, R263) -/

/-- The requests outstanding to slot `d` complete with FENCED, without effect (10 R266), and the fences that count them take that
code (10 R284): a cluster's channels towards it break. -/
def trayFenced (d : Nat) (s : State) : State :=
  let ws := (trayDst s d).out.map (fun o => o.why) ++ (trayDst s d).waiting.map (fun w => w.2)
  let s := (trayDst s d).out.foldl (fun s o => fenceCount d o.seq .fenced s) s
  let s := trayDstUpd d (fun x => { x with out := [], waiting := [] }) s
  if ws.any (fun w => match w with
      | .cluster _ => true
      | _ => false) then breakChannels (towards d) .fenced s else s

/-- The device fences itself: it stops emitting at once, and raises only its liveness vector (01 R32, 09 R260). What its
links had queued is never sent. -/
def selfFence (s : State) : State :=
  if s.pair.live ≠ 1 then s else
  let links : Tab Link := s.links.links.map (fun e => (e.1, { e.2 with queue := [] }))
  let s : State := { s with
    pair := { s.pair with live := 2, admits := [], renews := [], lastRenew := none }
    maint := { s.maint with silent := s.maint.silent && !s.maint.waitLease, waitLease := false }
    links := { s.links with links := links } }
  let s := (List.range 16).foldl (fun s d => trayFenced d s) s
  msix 0 2 (fencesRun { s with near := { s.near with
    fences := s.near.fences.map (fun f => { f with marks := [], code := some (f.code.getD (0, 0, .fenced)) }) } })

/-- Every record that is neither FREE nor RETIRED is retired with FENCED; the anchor's post their completions (09 R263). -/
def retireFenced (s : State) : State :=
  let qs := s.req.recs.map (fun e => e.2.reqId)
  let s := qs.foldl (fun s q => if (anchorOf s q).isSome then s else recRetire q .fenced s) s
  let s := { s with req := { s.req with handovers := [], copyouts := [], tokens := [] } }
  qs.foldl (fun s q => anchorFinish q (anchorUpd q (fun a => { a with code := some .fenced }) s)) s

/-- An effect of cluster `n`'s commands that stays on this device (01 R32). -/
def staysHere (s : State) (n : Nat) (e : Eff) : Bool :=
  let here (slot : Slot) : Bool := slot == mySlot s
  match e with
  | .galley _ _ => false
  | .trayW a _ => here (BitVec.ofNat 4 (a / 2 ^ 44))
  | .send ch _ => (channel s n ch).elim true (fun k => match k.entry.peer with
    | .local_ _ _ => true
    | .tray slot _ _ => here slot
    | .pod _ _ _ _ => false)
  | _ => true

/-- The output of the clusters that was kept is never delivered: an item in progress ends at the next command boundary, and what
waits in their queues is dropped. Commands that run complete, and what they would send off the device is not delivered (01 R20,
R31, R32; 09 R263; 13 R356). -/
def clustersFenced (s : State) : State :=
  let clusters : Tab Cluster := s.clusters.map (fun e => (e.1, { e.2 with
    press := e.2.press.map (fun i => { i with effs := i.effs.filter (staysHere s e.1) })
    wqItems := [], wqCons := e.2.wqProd
    wait := if e.2.item.isSome then .none else e.2.wait, pc := if e.2.item.isSome then nextWaitwq e.2 else e.2.pc
    state := if e.2.item.isSome && e.2.state == 3 then 2 else e.2.state
    ended := if e.2.item.isSome then some .fenced else e.2.ended }))
  { s with
    clusters := clusters
    sched := { s.sched with saves := [], rings := [], arrivals := [], dieRegions := [], releasedAway := [], waiting := [] } }

/-- The completions that the ring sets hold. -/
def heldCompletions (s : State) : List (RingRef × HeldItem) :=
  (s.host.fns.map (fun f => (f.2.sets.map (fun r => (r.2.held.filter (fun i => match i with
    | .cq _ => true
    | .out _ => false)).map (fun i => (({ fn := BitVec.ofNat 6 f.1, set := BitVec.ofNat 3 r.1 } : RingRef), i)))).flatten)).flatten

/-- The ring sets hold nothing. -/
def dropHeld (s : State) : State :=
  let sets (h : FnHost) : Tab RingSet := h.sets.map (fun r => (r.1, { r.2 with held := [] }))
  let fns : Tab FnHost := s.host.fns.map (fun f => (f.1, { f.2 with sets := sets f.2 }))
  { s with host := { s.host with fns := fns } }

/-- Records with FENCED: their completions are the first records the device emits, and output kept at fencing is not delivered. A
completion held before follows them (09 R263; 00 R10; log entry 122). -/
def retireFirst (s : State) : State :=
  let held := heldCompletions s
  held.foldl (fun s i => post i.1 i.2 s) (retireFenced (dropHeld s))

/-- ADMIT: the device is live again, and frees what it held before it emits anything (09 R263; 10 R274; 11 R319; 13 R356;
14 R372). -/
def readmit (epoch : BitVec 16) (seq leaseMs : Nat) (table : List (DevId × Bool × BitVec 16)) (s : State) : State :=
  match s.pair.admits.find? (fun a => a.1 == seq) with
  | none => s
  | some (_, tick) =>
    let excl : Tab (Bool × BitVec 16) := table.foldl (fun t e => Tab.put t e.1.toNat e.2) []
    let dst : Tab TrayDst := []
    let s := { s with
      pair := { s.pair with
        live := 1, epoch := epoch, expiry := tick + leaseMs * Config.tbPerMs, admits := [], renews := [], excl := excl
        mirrors := [] }
      near := { s.near with dst := dst, src := [], fences := [] }
      repro := { s.repro with stepped := false } }
    let s := clustersFenced (freeAllGalleys (silverClear s))
    let s := rmaReadmit (retireFirst s)
    let s := pairFollow (pairState (if formeServes s && roleOf s = 3 then 1 else 0) s)
    let s := if s.pair.state = 1 && (partnerSlot s).elim false (fun p => excluded s (devOfSlot s p).toNat) then
        { s with pair := { s.pair with state := 3 } } else s
    sendLstate s

end Sys2Proof.Machine
end

