-- ==== Sys2Proof/Machine/Compositor.lean ====
section
/-!
DEFINITION. The compositor's control commands (03, *Control commands*), the barriers of a cluster, a region and the die
(01 R25, R26; 13 R349), and the firmware's events on the compositor (03 R69, R84, R87).
-/

namespace Sys2Proof.Machine

/-! ### Issuing -/

/-- The compositor takes its next command: its cluster is claimed (18 R453), bound (13 R341) and not being switched (13 R347),
it waits for nothing, and its item has not ended (03 R74). -/
def canIssue (s : State) (n : Nat) : Bool :=
  let x := cluster s n
  claimed s n && (x.state == 1 || x.state == 2) && x.wait == .none && x.moving.isNone && x.ctx.isSome && x.ended.isNone

/-- The index after command `i`: a loop whose END it is repeats, or ends (03 LOOP). -/
def nextIndex (loops : List (Nat × Nat × Nat)) (i : Nat) : Nat × List (Nat × Nat × Nat) :=
  match loops with
  | [] => ((i + 1) % 16384, [])
  | (start, last, left) :: rest =>
    if last = i then (if left ≤ 1 then nextIndex rest i else (start, (start, last, left - 1) :: rest))
    else ((i + 1) % 16384, loops)

/-- A command of this opcode is issued: LAST_OP, and the next index (03 CLUSTER_STATUS, CLUSTER_PC). -/
def issued (op : Byte) (x : Cluster) : Cluster :=
  let (pc, loops) := nextIndex x.loops x.pc
  { x with lastOp := op, pc := pc, loops := loops, state := 2 }

/-- A control command: its effect on the cluster after the index has moved on; none where it cannot be issued. -/
def control (cl : ClusterId) (op : Byte) (f : Cluster → Cluster) (s : State) : Out :=
  .next (if canIssue s cl.toNat then clusterUpd cl.toNat (fun x => f (issued op x)) s else s)

/-- NOP. -/
def execNop (cl : ClusterId) (s : State) : Out := control cl 0x00 id s

/-- SETA: AREG := VALUE. -/
def execSeta (cl : ClusterId) (a : BitVec 4) (v : Word) (s : State) : Out := control cl 0x01 (setAreg a.toNat v) s

/-- ADDA: AREG := AREG + VALUE, modulo 2^32. -/
def execAdda (cl : ClusterId) (a : BitVec 4) (v : Word) (s : State) : Out :=
  control cl 0x02 (fun x => setAreg a.toNat (areg x a.toNat + v) x) s

/-- LOOP: the commands from the next index to END run COUNT times. A COUNT of 0 or a fifth nested loop makes the stream
invalid (03 R73); a body that ends before it begins has no commands (log entry 75). -/
def execLoop (cl : ClusterId) (count : BitVec 16) (last : BitVec 14) (s : State) : Out :=
  if count = 0 then .fault .invalidCommandWord
  else if canIssue s cl.toNat && decide (4 ≤ (cluster s cl.toNat).loops.length) then .fault .invalidCommandWord
  else control cl 0x03 (fun x =>
    if last.toNat < x.pc then x else { x with loops := (x.pc, last.toNat, count.toNat) :: x.loops }) s

/-- JUMP: next index := TARGET. -/
def execJump (cl : ClusterId) (t : BitVec 14) (s : State) : Out :=
  .next (if canIssue s cl.toNat then
      clusterUpd cl.toNat (fun x => { x with lastOp := 0x04, state := 2, pc := t.toNat }) s
    else s)

/-- BRANCH: if AREG = 0, next index := TARGET. -/
def execBranch (cl : ClusterId) (a : BitVec 4) (t : BitVec 14) (s : State) : Out :=
  .next (if canIssue s cl.toNat then
      clusterUpd cl.toNat (fun x =>
        if areg x a.toNat = 0 then { x with lastOp := 0x0B, state := 2, pc := t.toNat } else issued 0x0B x) s
    else s)

/-- LDA: AREG := the 32-bit mailbox word at BASE + OFFSET. What a sum outside the mailbox or off a word boundary loads is not
stated: a free value (log entry 73). -/
def execLda (cl : ClusterId) (a b : BitVec 4) (off : Word) (s : State) : Out :=
  let n := cl.toNat
  .next (if canIssue s n then
      let x := cluster s n
      let addr := (areg x b.toNat + off).toNat
      if addr / 65536 = 0x100 && addr % 4 = 0 then
        clusterUpd n (fun x => setAreg a.toNat (Mem.word (mailSeen x) (addr % 65536)) (issued 0x0C x)) s
      else bumpFree (clusterUpd n (fun x => setAreg a.toNat (Config.freeWord s.free) (issued 0x0C x)) s)
    else s)

/-- LIVE: declare a case range, or end it; a declaration that overlaps an open range or a stream ring, names an open ID or
runs past the case ends the work item with MALFORMED (03 R78, R81). A ring whose arm or stop is still in the press counts as a
command issued now sees it (R70). -/
def execLive (cl : ClusterId) (id : BitVec 5) (startKib lenM1 : BitVec 11) (end_ : Bool) (s : State) : Out :=
  let n := cl.toNat
  .next (if canIssue s n then
      let x := cluster s n
      let a := startKib.toNat * 1024
      let len := (lenM1.toNat + 1) * 1024
      let meets (r : Nat × Nat) : Bool := decide (a < r.1 + r.2) && decide (r.1 < a + len)
      if end_ then clusterUpd n (fun x => { issued 0x09 x with live := Tab.del x.live id.toNat }) s
      else if decide (2 ^ 21 < a + len) || (Tab.find x.live id.toNat).isSome || x.live.any (fun e => meets e.2)
          || (streamsSeen x).any (fun e => meets (e.2.ringStart, e.2.ringLen)) then
        endItem n .malformed 5 true (clusterUpd n (fun x => { x with lastOp := 0x09 }) s)
      else clusterUpd n (fun x => { issued 0x09 x with live := Tab.put x.live id.toNat (a, len) }) s
    else s)

/-! ### Work items -/

/-- WAITWQ waits until no command is in the press (03 R70): it ends the open spans and an item that a fault ended, and waits
for the next work item. An item still in progress, for which no DONEWQ was issued, has ended with OK (log entry 152). -/
def waitwq (n : Nat) (s : State) : State :=
  let x := cluster s n
  let ok := claimed s n && (x.state == 1 || x.state == 2) && x.wait == .none && x.moving.isNone && x.ctx.isSome && x.press.isEmpty
  if !ok then s else
  let s := if x.item.isSome then itemGone n s else s
  let s := clusterUpd n (fun x => { endSpans (issued 0x05 x) with
    wait := .workItem, state := if x.quiesce then 5 else 1, item := none, ended := none
    done := endsWith (x.ended.elim 0 codeOf) x }) s
  let s := postWaiting n (takeItem n s)
  if (cluster s n).wait = .none then s else rebind n true (vtRefresh false s)

/-- WAITWQ. -/
def execWaitwq (cl : ClusterId) (s : State) : Out := .next (waitwq cl.toNat s)

/-- DONEWQ: STATUS for the current item, once its commands have left the press; every open span ends. A STATUS outside
*Status codes* makes the stream invalid (03 R73). -/
def execDonewq (cl : ClusterId) (status : Byte) (s : State) : Out :=
  let n := cl.toNat
  if (statusOf status).isNone then .fault .invalidCommandWord
  else .next (if canIssue s n && (cluster s n).press.isEmpty then
      let s := if (cluster s n).item.isSome then itemGone n s else s
      clusterUpd n (fun x => { endSpans (issued 0x06 x) with
        item := none, done := endsWith status x }) s
    else s)

/-- A decode batch has at most MAX_ROWS rows (02 R45): firmware forms no larger one, so that a longer item is not posted (log entry
186). -/
def batchOk (s : State) (i : WorkItem) : Bool :=
  let decode := roleOf s == 2 || i.rows.any (fun w => (recLive s w.req).any (fun r => r.state == 4))
  roleOf s == 3 || !decode
    || decide ((i.rows.map (fun w => w.rows.length)).sum ≤ s.forme.committed.elim 0 (fun c => c.role.maxRows.toNat))

/-- Firmware posts a work item of a context to a cluster of the context's partition (03 R69; 13 R341, R351). It waits with
firmware while the cluster is bound to another context. -/
def execWorkItemPost (cl : ClusterId) (i : WorkItem) (s : State) : Out :=
  let n := cl.toNat
  let p := i.part.toNat
  let ok := formeServes s && hasProgram (cluster s n) && partOfRegion s (n / 16) == some p
    && partOfCtx s i.ctx.toNat == some p && decide (i.bytes.length = 64) && batchOk s i
  .next (if ok then
      let s := { s with sched := { s.sched with
        waiting := Tab.upd s.sched.waiting (n * 64 + i.ctx.toNat) [] (fun l => l ++ [i]) } }
      rebind n false (postWaiting n (vtRefresh false (armSchedule s)))
    else s)

/-! ### Barriers (01 R25, R26; 13 R349; 14 R373) -/

/-- The participants of a region barrier (01 R25). -/
def participants (s : State) (r : Nat) : List Nat :=
  if fullGeom s then ((List.range 16).map (fun i => 16 * r + i)).filter (goodCluster s)
  else (List.range 15).filterMap (fun p => (Tab.find s.repro.lmap (r * 16 + p)).map (fun q => 16 * r + q))

/-- The key of a barrier instance (13 R349). -/
def barrierKey (ctx scope id : Nat) : Nat := ctx * 1024 + scope * 256 + id

/-- The device arrives at a pod barrier once every cluster of the partition has: it sends ARRIVE to the coordinator (14 R373 steps
1 and 2). -/
def podArrive (p c id : Nat) (s : State) : State :=
  match Tab.find s.repro.pods id with
  | none => s
  | some b =>
    let ps := ((regionsOf s p).map (participants s)).flatten
    let have_ := Tab.getD s.sched.arrivals (barrierKey c 2 id) []
    if b.part = p && !b.sent && !ps.isEmpty && ps.all (fun n => have_.contains n) then
      sendFw b.coord 0 (.arrive (BitVec.ofNat 8 id) b.inst)
        { s with repro := { s.repro with pods := Tab.mod s.repro.pods id (fun b => { b with sent := true, ctx := c }) } }
    else s

/-- BARRIER: arrives, once the commands before it have left the press, and waits (01 R25, R26). Scope 0b11 is not one: the
stream is invalid (03 R73). -/
def execBarrier (cl : ClusterId) (id : Byte) (scope : BitVec 2) (s : State) : Out :=
  let n := cl.toNat
  if scope = 3 then .fault .invalidCommandWord
  else .next (if canIssue s n && (cluster s n).press.isEmpty then
      let c := (cluster s n).ctx.getD 0
      let s := { s with sched := { s.sched with
        arrivals := Tab.upd s.sched.arrivals (barrierKey c scope.toNat id.toNat) [] (fun l => l ++ [n]) } }
      let s := if scope = 2 then podArrive ((partOfRegion s (n / 16)).getD 0) c id.toNat s else s
      rebind n true (vtRefresh false (clusterUpd n (fun x => { issued 0x07 x with wait := .barrier id scope, state := 3 }) s))
    else s)

/-- A cluster's barrier has released: it continues, or will at its next restore (13 R349). -/
def releaseOne (c : Nat) (s : State) (n : Nat) : State :=
  let x := cluster s n
  match x.ctx, x.wait with
  | some c', .barrier _ _ =>
    if c' = c then clusterUpd n (fun x => { x with wait := .none, state := if x.moving.isSome then x.state else 2 }) s
    else { s with sched := { s.sched with releasedAway := s.sched.releasedAway ++ [n * 64 + c] } }
  | _, _ => { s with sched := { s.sched with releasedAway := s.sched.releasedAway ++ [n * 64 + c] } }

/-- Release the arrived clusters among `ns` of a barrier instance. -/
def releaseBarrier (c scope id : Nat) (ns : List Nat) (s : State) : State :=
  let key := barrierKey c scope id
  let (out, stay) := (Tab.getD s.sched.arrivals key []).partition (fun n => ns.contains n)
  let left := if stay.isEmpty then Tab.del s.sched.arrivals key else Tab.put s.sched.arrivals key stay
  let s := { s with sched := { s.sched with arrivals := left } }
  out.foldl (fun s n => rebind n false (releaseOne c s n)) s

/-- Every participant of region `r` has arrived at the instance. -/
def regionArrived (s : State) (r c scope id : Nat) : Bool :=
  let ps := participants s r
  let have_ := Tab.getD s.sched.arrivals (barrierKey c scope id) []
  !ps.isEmpty && ps.all (fun n => have_.contains n)

/-- A region barrier releases: its clusters continue at region scope; at die scope the region's part of the instance is
complete (01 R25, R26). -/
def regionRelease (r c id : Nat) (s : State) : State :=
  if regionArrived s r c 0 id then releaseBarrier c 0 id (participants s r) s
  else if regionArrived s r c 1 id then
    let done := Tab.upd s.sched.dieRegions (c * 256 + id) [] (fun l => if l.contains r then l else l ++ [r])
    { s with sched := { s.sched with dieRegions := done } }
  else s

/-- REGION_BARRIER_RELEASE. -/
def execRegionBarrierRelease (r : RegionId) (ctx : FnId) (id : Byte) (s : State) : Out :=
  .next (regionRelease r.toNat ctx.toNat id.toNat s)

/-- A die barrier releases once its region barriers have released in every region of the partition (01 R26). -/
def execDieBarrierRelease (p : PartId) (ctx : FnId) (id : Byte) (s : State) : Out :=
  let key := ctx.toNat * 256 + id.toNat
  let rs := regionsOf s p.toNat
  .next (if !rs.isEmpty && rs.all (fun r => (Tab.getD s.sched.dieRegions key []).contains r) then
      let s := { s with sched := { s.sched with dieRegions := Tab.del s.sched.dieRegions key } }
      releaseBarrier ctx.toNat 1 id.toNat ((rs.map (participants s)).flatten) s
    else s)

/-! ### Channel waits (03 WAITCH, R84, R87) -/

/-- WAITCH: satisfied at once, broken, or a wait with its timeout. A wait on a count it can never reach, or on a channel of
the other direction, ends the work item with MALFORMED (03 R84). A COUNT outside 1 to 64 makes the stream invalid (R73). -/
def execWaitch (cl : ClusterId) (a : BitVec 4) (timeout : BitVec 20) (count : Byte) (credits : Bool) (ch : BitVec 5)
    (s : State) : Out :=
  let n := cl.toNat
  if count = 0 ∨ 64 < count.toNat then .fault .invalidCommandWord
  else .next (if canIssue s n && (cluster s n).press.isEmpty then
      match channel s n ch.toNat with
      | none => endItem n .malformed 1 true (clusterUpd n (fun x => { x with lastOp := 0x08 }) s)
      | some k =>
        if k.entry.send != credits || decide (k.entry.slots < count.toNat) then
          endItem n .malformed 1 true (clusterUpd n (fun x => { x with lastOp := 0x08 }) s)
        else
          let t := if timeout = 0 then none else some (s.tb + 64 * timeout.toNat)
          let s := wakeWait n (clusterUpd n (fun x => { issued 0x08 x with
            wait := .channel a ch.toNat count.toNat credits t, state := 3 }) s)
          if (cluster s n).wait = .none then s else rebind n true (vtRefresh false s)
    else s)

/-- A channel wait's timeout has elapsed, on the cluster (03 WAITCH) or of a context parked there (13 R353). -/
def execWaitchTimeout (cl : ClusterId) (s : State) : Out :=
  .next (rebind cl.toNat false (vtRefresh false (if (cluster s cl.toNat).moving.isNone then waitTimeout cl.toNat s else s)))

/-- Firmware re-arms a broken channel at a work-item boundary, and its queue pair by QP_RESET (03 R87, 11 R320). -/
def execChannelRearm (cl : ClusterId) (ch : BitVec 5) (s : State) : Out :=
  let n := cl.toNat
  .next (match channel s n ch.toNat with
    | some k => if k.broken.isSome && (cluster s n).item.isNone then rearmPeer k.entry.peer (rearmChan n ch.toNat s) else s
    | none => s)

/-! ### Registers of a cluster (03 CLUSTER_CTRL) -/

/-- CLUSTER_CTRL.QUIESCE: a cluster at WAITWQ is QUIESCED while it is set, and takes work again when it clears. -/
def setQuiesce (n : Nat) (w : CtlWrite) (s : State) : State :=
  takeItem n (clusterUpd n (fun x =>
    let q := ctlSetting w 1 x.quiesce
    { x with quiesce := q, state := if x.wait = .workItem && x.moving.isNone then (if q then 5 else 1) else x.state }) s)

/-- A write of CLUSTER_CTRL (17 R441). -/
def clusterCtl (n : Nat) (w : CtlWrite) (own : Nat) (run : State → State) (s : State) : State :=
  ctl w false [0] own (fun _ => false) (fun _ s => s) (setQuiesce n w) run s

/-- CLUSTER_CTRL.CLR. -/
def execClusterClr (cl : ClusterId) (w : CtlWrite) (s : State) : Out :=
  .next (clusterCtl cl.toNat w 0 (clusterUpd cl.toNat (fun x => { x with beats := 0, breach := 0, ecc := 0, stale := 0 })) s)

/-- CLUSTER_CTRL.QUIESCE: a write without the command bit applies the setting. -/
def execQuiesce (cl : ClusterId) (w : CtlWrite) (s : State) : Out := .next (clusterCtl cl.toNat w 1 id s)

end Sys2Proof.Machine
end

