-- ==== Sys2Proof/Machine/Lines.lean ====
section
/-!
DEFINITION. Tensor lines (03, *Tensor line*, *Spaces*; 04 R94, R96, R97; 06 R151): their fields, the checks of R74 on
structure, bounds and rights, and the reading of their bytes and elements.
-/

namespace Sys2Proof.Machine

/-! ### Fields -/

/-- A tensor line. -/
structure TLine where
  kind : Nat
  space : Nat
  format : Nat
  tflags : Nat
  rank : Nat
  base : Nat
  dims : List Nat
  strides : List Nat
  scaleBase : Nat
  table : Nat
  /-- the value of the reserved bytes. -/
  resv : Nat
deriving DecidableEq, Repr, Inhabited

/-- The fields of a line's 64 bytes. -/
def parseLine (bs : List Byte) : TLine :=
  { kind := numAt bs 0 1, space := numAt bs 1 1, format := numAt bs 2 1, tflags := numAt bs 3 1, rank := numAt bs 4 1
    base := numAt bs 8 8, dims := (List.range 4).map (fun i => numAt bs (0x10 + 4 * i) 4)
    strides := (List.range 3).map (fun i => numAt bs (0x20 + 4 * i) 4), scaleBase := numAt bs 0x30 8
    table := numAt bs 0x38 2, resv := numAt bs 5 3 + numAt bs 0x2C 4 + numAt bs 0x3A 6 }

/-- DIMi. -/
def TLine.dim (l : TLine) (i : Nat) : Nat := l.dims.getD i 1

/-- TFLAGS[0]: slug-coded. -/
def TLine.slug (l : TLine) : Bool := l.tflags.testBit 0

/-- TFLAGS[1]: block scales present. -/
def TLine.scaled (l : TLine) : Bool := l.tflags.testBit 1

/-- Rows: the flattened index over DIM1 to DIM3 (04 R97). -/
def TLine.rows (l : TLine) : Nat := l.dim 1 * l.dim 2 * l.dim 3

/-- Elements. -/
def TLine.elems (l : TLine) : Nat := l.dim 0 * l.rows

/-- Bytes of one row. -/
def TLine.rowLen (l : TLine) : Nat := elemBytes l.format (l.dim 0)

/-- Bytes of the tensor as stored, uncompressed. -/
def TLine.bytes (l : TLine) : Nat := l.rows * l.rowLen

/-- Address of row `r`. -/
def TLine.rowAddr (l : TLine) (r : Nat) : Nat :=
  l.base + (r % l.dim 1) * l.strides.getD 0 0 + (r / l.dim 1 % l.dim 2) * l.strides.getD 1 0
    + (r / (l.dim 1 * l.dim 2)) * l.strides.getD 2 0

/-- The address ranges of the rows of a plain line. -/
def TLine.ranges (l : TLine) : List (Nat × Nat) := (List.range l.rows).map (fun r => (l.rowAddr r, l.rowLen))

/-- Bytes of the scale array (04 R97). -/
def TLine.scaleLen (l : TLine) : Nat :=
  if !l.scaled then 0 else if l.format = 1 then 16 + l.rows * (l.dim 0 / 16) else 4 * l.rows

/-- Rows of the outermost dimension below RANK (14 R375). -/
def TLine.outer (l : TLine) : Nat := l.dim (l.rank - 1)

/-- Elements of one such row. -/
def TLine.outerElems (l : TLine) : Nat := l.elems / l.outer

/-- Two lines of one shape. -/
def sameShape (a b : TLine) : Bool := a.dims == b.dims

/-! ### Structure (03 R74; 04 R94, R96, R97; 06 R151) -/

/-- The structure of a line that names a tensor. -/
def lineShape (l : TLine) : Bool :=
  let f := l.format
  l.kind == 1 && l.resv == 0 && decide (l.tflags < 4) && decide (1 ≤ l.rank) && decide (l.rank ≤ 4) && decide (l.space ≤ 7)
    && l.dims.all (fun d => decide (0 < d)) && (List.range 4).all (fun i => decide (i < l.rank) || l.dim i == 1)
    && decide (1 ≤ f) && decide (f ≤ 10)
    && (if l.slug then decide (f ≤ 6) && decide (1 ≤ l.table) && decide (l.table ≤ 1023) && l.base % 2048 == 0
          && l.elems % 16 == 0 && l.strides.all (fun x => x == 0)
        else l.table == 0)
    && (if l.scaled then (f == 1 || f == 4 || f == 5 || f == 6) && l.scaleBase % 16 == 0 else f != 1 && l.scaleBase == 0)
    && (f != 1 || l.dim 0 % 16 == 0)
    && ((f != 2 && f != 3) || (l.dim 0 % 4 == 0
        && (List.range 3).all (fun i => decide (l.rank ≤ i + 1) || l.strides.getD i 0 % 3 == 0)))
    && (l.space != 7 || decide (l.base < 32))

/-- A GALLEY or CHANNEL line names no tensor: the fields after BASE are zero, or those of a tensor line. -/
def bareLine (space : Nat) (l : TLine) : Bool :=
  l.kind == 1 && l.space == space && l.resv == 0 && l.tflags == 0 && l.table == 0 && l.scaleBase == 0 && decide (l.rank ≤ 4)
    && decide (l.format ≤ 10)

/-- The owning partition tableDeclared a table (06 R151, R171). -/
def tableDeclared (s : State) (p table : Nat) : Bool :=
  match s.forme.committed with
  | none => false
  | some c => (Tab.getD c.entropy p default).entries.any (fun e => decide (e.table.toNat = table))

/-! ### Bounds and rights (03, *Spaces*; 02 R50, R53; 07 R181, R192; 10 R267 to R269) -/

/-- The pieces of a tray access: at most 4,096 bytes, none across a 4,096-byte boundary (10 R270). -/
def trayPieces : Nat → Nat → Nat → List (Nat × Nat)
  | 0, _, _ => []
  | fuel + 1, a, n =>
    if n = 0 then [] else
    let k := min n (4096 - a % 4096)
    (a, k) :: trayPieces fuel (a + k) (n - k)

/-- The pieces of one range. -/
def piecesOf (r : Nat × Nat) : List (Nat × Nat) := trayPieces (r.2 / 4096 + 2) r.1 r.2

/-- The header with which cluster `n` reaches an address of this device's own window. -/
def ownHdr (s : State) (n a len : Nat) : TrayHdr :=
  { hdr0 with addr := BitVec.ofNat 48 a, len := BitVec.ofNat 16 len, src := BitVec.ofNat 16 (myDev s).toNat
              dst := BitVec.ofNat 16 (myDev s).toNat, srcCl := BitVec.ofNat 8 (progIndex s n)
              part := BitVec.ofNat 8 ((partOfRegion s (n / 16)).getD 0) }

/-- A tray address in this device's own window. -/
def ownSlot (s : State) (a : Nat) : Bool := decide (a / 2 ^ 44 = (mySlot s).toNat)

/-- One range of a TRAY line. -/
def trayRange (s : State) (n : Nat) (write : Bool) (a len : Nat) : Status :=
  let ap := a / 2 ^ 40 % 16
  let off := a % 2 ^ 40
  let reach := if write then decide (ap ≤ 7) || (ap == 9 && decide (off + len ≤ 2 ^ 30))
    else decide (ap ≤ 8) || (ap == 9 && decide (off + len ≤ 2 ^ 30)) || (ap == 0xC && off == 0x10 && len == 8)
  if decide (2 ^ 48 ≤ a) || decide (2 ^ 40 < off + len) || !reach then .malformed
  else if !ownSlot s a then .ok
  else if (piecesOf (a, len)).all (fun q =>
      if write then writeGranted s (ownHdr s n q.1 q.2) q.2 else granted s (.load (ownHdr s n q.1 q.2) .good)) then .ok
  else .denied

/-- The rights of partition `p` to read `n` bytes of region `r`'s slice: its own regions', or the share of a plate that it
reads (02 R52, R54); of a cache-mode slice only the backing range exists. -/
def sliceRead (s : State) (p r off n : Nat) : Status :=
  let own := (regionsOf s p).contains r
  let meets := (slicePlates s r).filter (fun x => decide ((plateShare s r x).1 < off + n) && decide (off < (plateShare s r x).2))
  if cacheMode s r then
    (if !own then .denied else if (regionCfg s r).elim 0 (fun c => c.backingLen.toNat) < off + n then .malformed else .ok)
  else if meets.any (fun x => !x.partMask.toNat.testBit p) then .denied
  else if own || meets.any (fun x => decide ((plateShare s r x).1 ≤ off) && decide (off + n ≤ (plateShare s r x).2)) then .ok
  else .denied

/-- One range of a space: OK, MALFORMED for its bounds, DENIED for a right (03 R74). -/
def rangeOk (s : State) (n p space : Nat) (write : Bool) (a len : Nat) : Status :=
  match space with
  | 0 => if a + len ≤ 2 ^ 21 then .ok else .malformed
  | 1 => if a + len ≤ 2 ^ 19 then .ok else .malformed
  | 2 => if 0x1000 ≤ a ∧ a + len ≤ 0x10000 then .ok else .malformed
  | 3 =>
    let r := a / 2 ^ 27
    if 8 ≤ r ∨ sliceBytes < a % 2 ^ 27 + len then .malformed
    else if !write then sliceRead s p r (a % 2 ^ 27) len
    else if !(regionsOf s p).contains r || cacheMode s r || decide (plateStart s r < a % 2 ^ 27 + len) then .denied
    else .ok
  | 4 =>
    if !inPartition s p a len then .malformed
    else if write then (if readOnly s p a len || inPool s p a then .denied else .ok)
    else if inPool s p a && !((List.range ((a + len + 65535) / 65536 - a / 65536)).all (fun i =>
        !inPool s p ((a / 65536 + i) * 65536) || poolLoadOk s p ((a / 65536 + i) * 65536) (myDev s).toNat)) then .denied
    else .ok
  | 5 =>
    if write then .malformed else
    match plateAt s a with
    | some x => if x.partMask.toNat.testBit p && decide (a + len ≤ x.dest.toNat + x.plainLen.toNat) then .ok else .denied
    | none => .denied
  | 6 => trayRange s n write a len
  | _ => .malformed

/-- The check of one range that the loader makes: what pages a galley pool holds and what a tray access meets show only at run
time, so a pool read and an own-window access are judged by their bounds (03 R74; log entry 150). -/
def staticRange (s : State) (n p space : Nat) (write : Bool) (a len : Nat) : Status :=
  if space = 4 ∧ !write then (if inPartition s p a len then .ok else .malformed)
  else if space = 6 then (if trayRange s n write a len = .malformed then .malformed else .ok)
  else rangeOk s n p space write a len

/-- The first failure of a list of checks, MALFORMED before DENIED (03 R74). -/
def worstOf (cs : List Status) : Status :=
  if cs.contains .malformed then .malformed else if cs.contains .denied then .denied else .ok

/-- Bounds and rights of a line with its scale array, each range judged by `rng`. Of a slug-coded run the first slug is judged
here and the rest when its length is known. A STREAM line's scales lie in the armed line's space. -/
def lineRightsBy (rng : Nat → Bool → Nat → Nat → Status) (s : State) (n p : Nat) (write : Bool) (l : TLine) : Status :=
  if l.space = 7 then
    (if write then .malformed else
     match Tab.find (cluster s n).streams l.base with
     | none => .ok
     | some st => if l.scaled then rng st.space false l.scaleBase l.scaleLen else .ok)
  else
    let rs := if l.slug then [(l.base, 2048)] else l.ranges
    let rs := if l.scaled then rs ++ [(l.scaleBase, l.scaleLen)] else rs
    worstOf ((rs.map (fun r => rng l.space write r.1 r.2))
      ++ [if l.slug && !tableDeclared s p l.table then .malformed else .ok])

/-- Bounds and rights of a line (03 R74). -/
def lineRights (s : State) (n p : Nat) (write : Bool) (l : TLine) : Status := lineRightsBy (rangeOk s n p) s n p write l

/-! ### What a cluster reads (03 R70, R76, R79; 01 R21) -/

/-- The KiB of the case that a range touches. -/
def kibs (a len : Nat) : List Nat := if len = 0 then [] else (List.range ((a + len - 1) / 1024 - a / 1024 + 1)).map (fun i => a / 1024 + i)

/-- One byte of the case: zero in an unwritten KiB (R79); open where no live range kept it (R21). -/
def caseByte (x : Cluster) (free off : Nat) : Byte :=
  if !x.caseWritten.contains (off / 1024) then 0
  else if x.caseKept.any (fun r => decide (r.1 ≤ off) && decide (off < r.2)) then Mem.byte x.case_ off
  else Config.freeByte (freeKey free (2 ^ 40 + off))

/-- A range of the case becomes written. -/
def caseStore (off : Nat) (bs : List Byte) (x : Cluster) : Cluster :=
  { x with
    case_ := Mem.store x.case_ off bs
    caseWritten := x.caseWritten ++ (kibs off bs.length).filter (fun k => !x.caseWritten.contains k) }

/-- The effects on what the cluster itself can read: its memories, slices, T1, streams, its own tray window. -/
def applyMem (n : Nat) (s : State) (e : Eff) : State :=
  let p := (partOfRegion s (n / 16)).getD 0
  match e with
  | .accZ => clusterUpd n (fun x => { x with acc := [] }) s
  | .caseW off bs => clusterUpd n (caseStore off bs) s
  | .accW off bs => clusterUpd n (fun x => { x with acc := Mem.store x.acc off bs }) s
  | .mailW off bs => clusterUpd n (fun x => { x with mailbox := Mem.store x.mailbox off bs }) s
  | .sliceW off bs => sliceStore (off / 2 ^ 27) (off % 2 ^ 27) bs s
  | .t1W a bs => partStore p a bs s
  | .trayW a bs => if ownSlot s a then homeStore (ownHdr s n a bs.length) bs s else s
  | .arm .. | .stop .. | .take .. =>
    clusterUpd n (fun x => grantLines 512 { x with streams := streamsAfter x.streams e }) s
  | _ => s

/-- The device as a command that cluster `n` issues now sees it: every earlier command of the cluster has finished (R70). -/
def seen (n : Nat) (s : State) : State :=
  (pendingEffs (cluster s n)).foldl (applyMem n) s

/-- Bytes of a local range, read in the view `v`. -/
def localBytes (v : State) (n p space a len : Nat) : List Byte :=
  let x := cluster v n
  match space with
  | 0 => (List.range len).map (fun i => caseByte x v.free (a + i))
  | 1 => Mem.load x.acc a len
  | 2 => Mem.load x.mailbox a len
  | 3 => sliceLoad v (a / 2 ^ 27) (a % 2 ^ 27) len
  | 4 => (partLoad p a len v).1
  | 5 => t1Bytes v (plateAddr a) len
  | 6 => ((piecesOf (a, len)).map (fun q => (homeLoad (ownHdr v n q.1 q.2) .good v).2.1)).flatten
  | _ => []

/-- A range is answered by another device. -/
def isRemote (s : State) (space a : Nat) : Bool := space == 6 && !ownSlot s a

/-- Read ranges in order; `remote` holds the bytes that other devices answer, and what is left of it. -/
def readRanges (v : State) (n p space : Nat) : List (Nat × Nat) → List Byte → List (List Byte) × List Byte
  | [], remote => ([], remote)
  | r :: rest, remote =>
    if isRemote v space r.1 then
      let (more, left) := readRanges v n p space rest (remote.drop r.2)
      (remote.take r.2 :: more, left)
    else
      let (more, left) := readRanges v n p space rest remote
      (localBytes v n p space r.1 r.2 :: more, left)

/-- The reads of a command leave their marks: crossbar grants (01 R23), granule counts (07 R205), and the loads sent to other devices
(10 R270). -/
def countRead (n p space : Nat) (s : State) (r : Nat × Nat) : State :=
  match space with
  | 3 =>
    let s := xbarToSlice n (r.1 / 2 ^ 27) s
    if cacheMode s (r.1 / 2 ^ 27) then bumpFree s else s
  | 4 => (partLoad p r.1 r.2 (xbarPass n xbarMesh s)).2
  | 5 => countGranules false (granules (plateAddr r.1) r.2) (xbarPass n xbarMesh s)
  | 6 =>
    (piecesOf r).foldl (fun s q =>
      if ownSlot s q.1 then (homeLoad (ownHdr s n q.1 q.2) .good s).2.2
      else trayIssue (q.1 / 2 ^ 44) (.load { ownHdr s n q.1 q.2 with src := 0, dst := 0 } .good) (.cluster n) s)
      (xbarPass n xbarMesh s)
  | _ => s

/-- Bytes of ranges that count as T0, local T1 and peers' T1 (13 R357). -/
def meterOf (s : State) (space : Nat) (rs : List (Nat × Nat)) : Nat × Nat × Nat :=
  let n := (rs.map (fun r => r.2)).sum
  match space with
  | 3 => (n, 0, 0)
  | 4 | 5 => (0, n, 0)
  | 6 =>
    let far := ((rs.filter (fun r => !ownSlot s r.1 && decide (r.1 / 2 ^ 40 % 16 ≤ 8))).map (fun r => r.2)).sum
    let near := ((rs.filter (fun r => ownSlot s r.1 && decide (r.1 / 2 ^ 40 % 16 ≤ 8))).map (fun r => r.2)).sum
    let t0 := ((rs.filter (fun r => ownSlot s r.1 && r.1 / 2 ^ 40 % 16 == 9)).map (fun r => r.2)).sum
    (t0, near, far)
  | _ => (0, 0, 0)

/-- The effect of writing a range of a space. -/
def writeEff (space a : Nat) (bs : List Byte) : List Eff :=
  match space with
  | 0 => [.caseW a bs]
  | 1 => [.accW a bs]
  | 2 => [.mailW a bs]
  | 3 => [.sliceW a bs]
  | 4 => [.t1W a bs]
  | 6 => (piecesOf (a, bs.length)).map (fun q => .trayW q.1 ((bs.drop (q.1 - a)).take q.2))
  | _ => []

/-- The place of an address of a space, for cluster `n`'s partition `p`. -/
def placeOf (s : State) (p space a : Nat) : Place :=
  match space with
  | 3 => .slice (a / 2 ^ 27) (a % 2 ^ 27)
  | 4 => .t1 (partAddr s p + a)
  | 5 => .t1 (plateAddr a)
  | 6 =>
    let ap := a / 2 ^ 40 % 16
    let off := a % 2 ^ 40
    if !ownSlot s a then .other
    else if ap ≤ 7 then .t1 (partAddr s ap + off)
    else if ap = 8 then .t1 (plateAddr off)
    else if ap = 9 then .slice (off / 2 ^ 27) (off % 2 ^ 27)
    else .other
  | _ => .other

/-- What reading the ranges of a command meets (07 R191). -/
def rangesOutcome (s : State) (p : Nat) (rs : List (Nat × (Nat × Nat))) (o : ReadOutcome) : ReadOutcome :=
  rs.foldl (fun o r => seenOutcome s (placeOf s p r.1 r.2.1) r.2.2 o) o

/-- Write a plain line's rows. -/
def writeRows (l : TLine) (rows : List (List Byte)) : List Eff :=
  ((List.range l.rows).map (fun r => writeEff l.space (l.rowAddr r) (rows.getD r []))).flatten

/-! ### Slug-coded runs (06 R152) -/

/-- A slug's COUNT is in range (06 R153, R163 step 2). A LOAD or STORE that copies slugs still coded needs their COUNTs to find where
the line ends, and no rule says what a COUNT out of range does there, where EXPAND checks nothing: the model takes it for a decode
error under R164 (DESIGN CHOICE; log entry 196). -/
def countOk (b : List Byte) : Bool := decide (16 ≤ half b 2) && decide (half b 2 ≤ 16128) && half b 2 % 16 == 0

/-- The consecutive slugs from the first one of a line on until its element count is reached, and whether the run ends: at the
element count, or at a slug that EXPAND finds to fail (`decode`: its check code comes before its COUNT, 06 R163) or whose COUNT
is none. -/
def slugRun (decode : Bool) (get : Nat → List Byte) : Nat → Nat → Nat → List (List Byte) × Bool
  | 0, _, _ => ([], false)
  | fuel + 1, i, n =>
    let b := get i
    if (decode && !slugCrcOk b) || !countOk b || n ≤ half b 2 then ([b], true) else
    let (rest, done) := slugRun decode get fuel (i + 1) (n - half b 2)
    (b :: rest, done)

/-! ### Operands -/

/-- What an input line delivers: its bytes as stored in row order (slugs as they are), its rows' element codes, its scale
array. -/
structure Got where
  raw : List Byte
  rows : List (List Byte)
  codes : List (List Nat)
  scales : List Byte
deriving DecidableEq, Repr, Inhabited

/-- The outcome of fetching a line. -/
inductive Fetch where
  | ok (g : Got) (remote : List Byte) (reads : List (Nat × (Nat × Nat))) (effs : List Eff)
  /-- a chunk of stream `id` that will come has not arrived; `want` chunks are needed. -/
  | later (id want : Nat)
  /-- bounds: a run past its space, or a chunk that never comes (03 R82). -/
  | beyond (cause : Nat)
  | slug (crc : Bool) (space addr : Nat)
  /-- a run that leaves what the partition may read (03 R74). -/
  | denied
  /-- a chunk whose read failed (07 R191): the command gets no data. -/
  | lost
deriving DecidableEq, Repr, Inhabited

/-- Rows of a flattened list of codes. -/
def rowsOf (l : TLine) (codes : List Nat) : List (List Nat) :=
  (List.range l.rows).map (fun r => (codes.drop (r * l.dim 0)).take (l.dim 0))

/-- The scale array of a line, in the space `space`. -/
def fetchScales (v : State) (n p space : Nat) (l : TLine) (remote : List Byte) :
    List Byte × List Byte × List (Nat × (Nat × Nat)) :=
  if !l.scaled then ([], remote, []) else
  let (b, left) := readRanges v n p space [(l.scaleBase, l.scaleLen)] remote
  (b.flatten, left, [(space, (l.scaleBase, l.scaleLen))])

/-- Codes of a slug-coded run, or its failure at the address of the slug that fails (06 R163, R164); `addr` gives a slug's
address by its number. -/
def decodeLine (v : State) (p : Nat) (l : TLine) (slugs : List (List Byte)) (space : Nat) (addr : Nat → Nat)
    (k : List (List Nat) → Fetch) : Fetch :=
  let slot := slotOf v p l.table
  match decodeRun l.table l.format slot (slugs.length + 1) l.elems slugs.flatten with
  | .ok codes => k (rowsOf l codes)
  | r =>
    let i := (slugs.findIdx? (fun b => match decodeSlug l.table l.format slot b with
      | .ok _ => false
      | _ => true)).getD 0
    .slug (r == .crc) space (addr i)

/-- The piece of concatenated ranges from offset `o` on, `n` bytes long. -/
def cutRanges : List (Nat × Nat) → Nat → Nat → List (Nat × Nat)
  | [], _, _ => []
  | (a, len) :: rest, o, n =>
    if n = 0 then []
    else if len ≤ o then cutRanges rest (o - len) n
    else (a + o, min n (len - o)) :: cutRanges rest 0 (n - min n (len - o))

/-- A consumer's chunks of an armed stream (03 R80, R82). -/
def fetchStream (v : State) (n p : Nat) (l : TLine) (decode : Bool) (remote : List Byte) : Fetch :=
  match Tab.find (cluster v n).streams l.base with
  | none => .beyond 5
  | some t =>
    if t.format ≠ l.format || t.slug != l.slug || (l.slug && t.table ≠ l.table) then .beyond 1 else
    let all := t.visible.flatten
    let failed (k : Nat) : Bool := t.bad.any (fun i => decide (t.taken ≤ i) && decide (i < t.taken + k))
    let (scales, left, reads) := fetchScales v n p t.space l remote
    if l.slug then
      let (slugs, done) := slugRun decode (fun i => (all.drop (2048 * i)).take 2048) (all.length / 2048) 0 l.elems
      let k := cdiv (slugs.length * 2048) t.chunk
      let addr (i : Nat) : Nat := ((cutRanges t.ranges (t.taken * t.chunk + 2048 * i) 2048).headD (0, 0)).1
      let got : Got := { raw := slugs.flatten, rows := [], codes := [], scales := scales }
      if done then
        (if failed k then .lost
         else if decode then decodeLine v p l slugs t.space addr (fun codes =>
            .ok { got with codes := codes } left reads [.take l.base k])
         else if slugs.all countOk then .ok got left reads [.take l.base k]
         else .slug false t.space (addr (slugs.length - 1)))
      else if t.left = 0 then .beyond 5
      else .later l.base (t.visible.length + 1)
    else
      let k := cdiv l.bytes t.chunk
      if k ≤ t.visible.length ∧ failed k then .lost
      else if k ≤ t.visible.length then
        let rows := (List.range l.rows).map (fun r => (all.drop (r * l.rowLen)).take l.rowLen)
        .ok { raw := all.take l.bytes, rows := rows, codes := rows.map (fun b => unpackCodes l.format b (l.dim 0))
              scales := scales } left reads [.take l.base k]
      else if cdiv t.total t.chunk < t.taken + k then .beyond 5
      else .later l.base k

/-- Fetch an input line (03 *FETCH*, *EXPAND*). -/
def fetchLine (v : State) (n p : Nat) (decode : Bool) (l : TLine) (remote : List Byte) : Fetch :=
  if l.space = 7 then fetchStream v n p l decode remote
  else if l.slug then
    let far := isRemote v l.space l.base
    let get (i : Nat) : List Byte :=
      if far then (remote.drop (2048 * i)).take 2048 else localBytes v n p l.space (l.base + 2048 * i) 2048
    let slugs := (slugRun decode get (l.elems / 16 + 1) 0 l.elems).1
    let range := (l.base, 2048 * slugs.length)
    let addr (i : Nat) : Nat := l.base + 2048 * i
    let right := rangeOk v n p l.space false range.1 range.2
    if right = .denied then .denied
    else if right ≠ .ok then .beyond 1
    else
      let remote := if far then remote.drop range.2 else remote
      let (scales, left, reads) := fetchScales v n p l.space l remote
      let reads := (l.space, range) :: reads
      let got : Got := { raw := slugs.flatten, rows := [], codes := [], scales := scales }
      if decode then decodeLine v p l slugs l.space addr (fun codes => .ok { got with codes := codes } left reads [])
      else if slugs.all countOk then .ok got left reads []
      else .slug false l.space (addr (slugs.length - 1))
  else
    let (rows, remote) := readRanges v n p l.space l.ranges remote
    let (scales, left, reads) := fetchScales v n p l.space l remote
    .ok { raw := rows.flatten, rows := rows, codes := rows.map (fun b => unpackCodes l.format b (l.dim 0)), scales := scales }
      left (l.ranges.map (fun r => (l.space, r)) ++ reads) []

end Sys2Proof.Machine
end

