-- ==== Sys2Proof/Machine/Press.lean ====
section
/-!
DEFINITION. Issuing a press command (03 R70 to R77, R84, R88): the descriptor, the checks of R74 in one place, the fetching
of its lines, and what the command leaves in the press; then its completion (R89), with the effects of EMIT (04 R114, 14 R375,
R383) and the charges of 13 R350, R357.
-/

namespace Sys2Proof.Machine

/-! ### Descriptors (03, *Descriptors*) -/

/-- A command's descriptor block. -/
structure Desc where
  /-- the 64 bytes of the header. -/
  hdr : List Byte
  subop : Nat
  maxBeats : Nat
  lines : List TLine
deriving DecidableEq, Repr, Inhabited

/-- Line `i` of a descriptor. -/
def Desc.line (d : Desc) (i : Nat) : TLine := d.lines.getD i default

/-- Bytes of the compositor's descriptor space (03, *Compositor address view*), where descriptors may lie. -/
def descBytes (x : Cluster) (a n : Nat) : Option (List Byte) :=
  if 0x01001000 ≤ a ∧ a + n ≤ 0x01010000 then some (Mem.load x.mailbox (a - 0x01000000) n)
  else if 0x02000000 ≤ a ∧ a + n ≤ 0x02020000 then
    some ((List.range n).map (fun i =>
      BitVec.ofNat 8 ((Tab.getD x.store ((a - 0x02000000 + i) / 8) 0).toNat / 256 ^ ((a + i) % 8))))
  else none

/-- The descriptor at an address: its header, and the tensor lines that NT counts. -/
def descOf (x : Cluster) (a : Nat) : Option Desc :=
  if a % 64 ≠ 0 then none else
  match descBytes x a 64 with
  | none => none
  | some h =>
    let nt := numAt h 1 1
    let most := numAt h 4 4
    if numAt h 0 1 ≠ 2 || decide (nt < 1) || decide (6 < nt) || decide (most < 1) || decide (16777216 < most) then none else
    match descBytes x (a + 64) (64 * nt) with
    | none => none
    | some b => some { hdr := h, subop := numAt h 2 2, maxBeats := most
                       lines := (List.range nt).map (fun i => parseLine ((b.drop (64 * i)).take 64)) }

/-- The descriptor that a command word names. -/
def descAt (x : Cluster) (ar : BitVec 4) (off : Word) : Option Desc := descOf x (areg x ar.toNat + off).toNat

/-- Every PARAMS byte outside the ranges `used` (offset, length) is zero (03, *Command descriptor header*). -/
def paramsClear (d : Desc) (used : List (Nat × Nat)) : Bool :=
  (List.range 56).all (fun i =>
    let o := 8 + i
    used.any (fun u => decide (u.1 ≤ o) && decide (o < u.1 + u.2)) || d.hdr.getD o 0 == 0)

/-- A field of PARAMS. -/
def param (d : Desc) (o n : Nat) : Nat := numAt d.hdr o n

/-! ### Operations -/

/-- What a press command works on. -/
structure PEnv where
  /-- the device in the view of the command: every earlier command of the cluster has finished. -/
  v : State
  n : Nat
  /-- the partition that owns the cluster's region. -/
  p : Nat
  flags : BitVec 8
  d : Desc
  /-- bytes that other devices answer, after those of the fetched lines. -/
  remote : List Byte

/-- FLAGS: CHAIN, SATCNT, DIGEST, EVENT (03, *Press flags*). -/
def flChain (f : BitVec 8) : Bool := f.toNat.testBit 7
def flSat (f : BitVec 8) : Bool := f.toNat.testBit 6
def flDigest (f : BitVec 8) : Bool := f.toNat.testBit 5
def flEvent (f : BitVec 8) : Bool := f.toNat.testBit 4

/-- One row of the layer digest: its index, FORMAT, element count and bytes (14 R375). -/
structure DigRow where
  row : Nat
  format : Nat
  count : Nat
  bytes : List Byte
deriving DecidableEq, Repr, Inhabited

/-- What an issued command does. -/
structure Run where
  effs : List Eff := []
  /-- reads besides those of the fetched lines, as (space, range). -/
  reads : List (Nat × (Nat × Nat)) := []
  digs : List DigRow := []
  /-- credits a SEND takes (03 R83, R84). -/
  credits : Option (Nat × Nat) := none
  /-- table slots of the coded galley pages it reads (06 R165). -/
  slots : List Nat := []
deriving DecidableEq, Repr, Inhabited

/-- What the operation of a command answers once its lines are there. -/
inductive Verdict where
  /-- a failed check: its status and CLUSTER_FAULT cause (03 R74). -/
  | bad (c : Status) (cause : Nat)
  /-- an implicit wait on a channel (03 R84). -/
  | wait (chan : Nat)
  /-- not yet: an earlier command must finish first (03 R70). -/
  | later
  /-- a press fault (04 R98). -/
  | fault
  | run (r : Run)
deriving DecidableEq, Repr, Inhabited

/-- A press operation: its structural check for cluster `n` of partition `p`, with the engine beats it answers (03 R88), the
lines it reads and writes, the lines fetched before it runs (with or without decoding slugs), the slugs and elements of the
galley pages that it counts (06 R162), and what it does. -/
structure POp where
  opcode : Byte
  check : State → (n p : Nat) → BitVec 8 → Desc → Option Nat
  pages : State → Nat → Desc → Nat × Nat := fun _ _ _ => (0, 0)
  reads : Desc → List TLine
  fetched : Desc → List (TLine × Bool)
  outs : Desc → List TLine
  run : PEnv → List Got → Verdict

/-- Rows of digested output: `codes` in element order, `per` elements a row. -/
def digRows (format per : Nat) (codes : List Nat) : List DigRow :=
  (List.range (if per = 0 then 0 else codes.length / per)).map (fun r =>
    { row := r, format := format, count := per, bytes := packCodes format ((codes.drop (r * per)).take per) })

/-- Digest rows of an output line. -/
def lineDigs (l : TLine) (codes : List Nat) : List DigRow := digRows l.format l.outerElems codes

/-- h of R375: the first 16 bytes of SHA-384 over "DN74-LD", FORMAT, the element count and the row. -/
def digestRow (d : DigRow) : BitVec 128 :=
  let tag : List Byte := [0x44, 0x4E, 0x37, 0x34, 0x2D, 0x4C, 0x44]
  (Config.sha384 (tag ++ [BitVec.ofNat 8 d.format] ++ leBytes 4 d.count ++ d.bytes)).extractLsb' 0 128

/-! ### The case across commands (01 R21, 03 R78, R81) -/

/-- Open live ranges and stream rings, as (start, end). -/
def spans (x : Cluster) : List (Nat × Nat) :=
  x.live.map (fun e => (e.2.1, e.2.1 + e.2.2)) ++ x.streams.map (fun e => (e.2.ringStart, e.2.ringStart + e.2.ringLen))

/-- The parts of `kept` inside the open spans. -/
def keptIn (kept open_ : List (Nat × Nat)) : List (Nat × Nat) :=
  (kept.map (fun k => open_.filterMap (fun o =>
    if max k.1 o.1 < min k.2 o.2 then some (max k.1 o.1, min k.2 o.2) else none))).flatten

/-- Add a range, joined to the last one where it follows on. -/
def joinRange (l : List (Nat × Nat)) (r : Nat × Nat) : List (Nat × Nat) :=
  match l with
  | h :: t => if h.2 = r.1 then (h.1, r.2) :: t else r :: l
  | [] => [r]

/-- Case ranges that effects write. -/
def caseWrites (effs : List Eff) : List (Nat × Nat) :=
  effs.foldl (fun l e => match e with
    | .caseW o bs => if bs.isEmpty then l else joinRange l (o, o + bs.length)
    | _ => l) []

/-! ### Issue -/

/-- The lines of a command are fetched in order (03 *FETCH*, *EXPAND*). -/
def fetchAll (v : State) (n p : Nat) : List (TLine × Bool) → List Byte →
    Except Fetch (List Got × List Byte × List (Nat × (Nat × Nat)) × List Eff)
  | [], remote => .ok ([], remote, [], [])
  | (l, decode) :: rest, remote =>
    match fetchLine v n p decode l remote with
    | .ok g left reads effs =>
      (match fetchAll v n p rest left with
       | .ok (gs, left, reads', effs') => .ok (g :: gs, left, reads ++ reads', effs ++ effs')
       | .error e => .error e)
    | e => .error e

/-- 8 + 2 × S + max(0, ceil(D ÷ 128) − B), with S slugs read, D elements decoded and B the beats without it (06 R162). -/
def slugTerm (s d b : Nat) : Nat := 8 + 2 * s + (cdiv d 128 - b)

/-- Beats of slug-coded lines and galley pages (06 R162): `b` the engine beats without them, `lines` the lines fetched with whether
they are decoded, `slugs` the slugs of each line, `pages` those of the pages with their elements; a line that is copied still coded
decodes no element, and arming a stream reads no slug (log entry 153). -/
def codedBeats (lines : List (TLine × Bool)) (d : Desc) (pages : Nat × Nat) (slugs : List Nat) (b : Nat) : Nat :=
  let coded := (lines.zip slugs).filter (fun e => e.1.1.slug)
  if !d.lines.any (fun l => l.slug) && pages.1 = 0 then 0 else
  slugTerm (pages.1 + (coded.map (fun e => e.2)).sum)
    (pages.2 + ((coded.filter (fun e => e.1.2)).map (fun e => e.1.1.elems)).sum) b

/-- The beats of a command's coded lines and pages. -/
def slugBeats (op : POp) (d : Desc) (pages : Nat × Nat) (slugs : List Nat) (b : Nat) : Nat :=
  codedBeats (op.fetched d) d pages slugs b

/-- T0, T1 and T2 bytes of the ranges that a command reads and writes (13 R357, R358). -/
def meterAll (s : State) (rs : List (Nat × (Nat × Nat))) : Eff :=
  let m := rs.map (fun r => meterOf s r.1 [r.2])
  .meter (m.map (fun x => x.1)).sum (m.map (fun x => x.2.1)).sum (m.map (fun x => x.2.2)).sum

/-- Ranges that effects write. -/
def writtenRanges (effs : List Eff) : List (Nat × (Nat × Nat)) :=
  effs.filterMap (fun e => match e with
    | .sliceW o bs => some (3, (o, bs.length))
    | .t1W a bs => some (4, (a, bs.length))
    | .trayW a bs => some (6, (a, bs.length))
    | _ => none)

/-- The granules of LPDDR6 that ranges fill in part: they are read and merged first, and that read may fail (07 R184, R185). -/
def mergeRanges (rs : List (Nat × (Nat × Nat))) : List (Nat × (Nat × Nat)) :=
  (rs.map (fun r =>
    let a := r.2.1
    let z := a + r.2.2
    let head := if a % 512 = 0 then [] else [(r.1, (a / 512 * 512, 512))]
    let tail := if z % 512 = 0 then [] else [(r.1, (z / 512 * 512, 512))]
    if r.1 = 4 && r.2.2 != 0 then head ++ tail else [])).flatten

/-- An uncorrectable error or a press fault stops the cluster (03 R91): the running commands produce no output, the requests of
its item are retired with INTEGRITY, and STATE is FAULTED. -/
def clusterFault (n cause : Nat) (s : State) : State :=
  let s := match (cluster s n).item with
    | some i => i.rows.foldl (fun s r => reportEnd r.req .integrity s) s
    | none => s
  let s := clusterCause n cause s
  let s := if (cluster s n).item.isSome then itemGone n s else s
  clusterUpd n (fun x => { endSpans x with
    press := [], state := 6, wait := .none, moving := none, item := none, ended := some .integrity
    done := endsWith (codeOf .integrity) x }) s

/-- The entropy table slots that fetched slugs name, each once (06 R153, R165). -/
def slotsNamed (ls : List (TLine × Bool)) (gs : List Got) : List Nat :=
  let keys := (((ls.zip gs).filter (fun e => e.1.1.slug)).map (fun e =>
    (List.range (e.2.raw.length / 2048)).map (fun i => e.1.1.table * 2 + (e.2.raw.getD (2048 * i + 1) 0).toNat % 2))).flatten
  keys.foldl (fun l k => if l.contains k then l else l ++ [k]) []

/-- A command leaves FETCH: it is in the press with its effects and the table slots it holds; `r` none, it produces no output
(07 R177). -/
def enter (n : Nat) (op : POp) (flags : BitVec 8) (d : Desc) (r : Option Run) (reads : List (Nat × (Nat × Nat)))
    (taken : List Eff) (slots : List Nat) (s : State) : State :=
  let x := cluster s n
  let p := (partOfRegion s (n / 16)).getD 0
  let run := r.getD {}
  let digs := if flDigest flags then run.digs.map (fun g => Eff.dig g.row (digestRow g)) else []
  let rs := reads ++ run.reads
  let effs := (if x.chain then [] else [Eff.accZ]) ++ (if r.isSome then taken else []) ++ run.effs ++ digs
  let effs := effs ++ [meterAll s (rs ++ writtenRanges run.effs)]
  let s := rs.foldl (fun s q => countRead n p q.1 s q.2) s
  let s := clusterUpd n (fun x => { issued op.opcode x with
    chain := flChain flags, caseKept := caseWrites run.effs ++ keptIn x.caseKept (spans x)
    press := x.press ++ [{ index := x.pc, opcode := op.opcode, flags := flags, maxBeats := d.maxBeats, effs := effs
                           tables := slots ++ run.slots.filter (fun k => !slots.contains k) }] }) s
  let s := match run.credits with
    | some (ch, k) => channelUpd n ch (fun c => { c with credits := c.credits - k }) s
    | none => s
  bumpFree s

/-- The view in which a command issued now reads: earlier commands have finished, an unchained accumulator is zero, and the
case holds what the open spans kept. -/
def viewOf (n : Nat) (s : State) : State :=
  clusterUpd n (fun x => { x with
    acc := if x.chain then x.acc else [], caseKept := keptIn x.caseKept (spans x) }) (seen n s)

/-- Bounds and rights of every line (03 R74). -/
def rightsOf (v : State) (n p : Nat) (op : POp) (d : Desc) : Status :=
  worstOf ((op.reads d).map (lineRights v n p false) ++ (op.outs d).map (lineRights v n p true))

/-- The check of a descriptor (03 R74, R88): its engine beats, or the code and the cause with which its command issues nothing. -/
def descCheck (op : POp) (v : State) (n p : Nat) (flags : BitVec 8) (d : Desc) : (Status × Nat) ⊕ Nat :=
  match (if flags.toNat % 16 = 0 then op.check v n p flags d else none) with
  | none => .inl (.malformed, 1)
  | some beats =>
    if d.maxBeats < beats then .inl (.malformed, 1) else
    match rightsOf v n p op d with
    | .malformed => .inl (.malformed, 1)
    | .denied => .inl (.denied, 2)
    | _ => .inr beats

/-- The check of a command before it is issued (03 R74, R88): its descriptor and engine beats, or the code and the cause with
which it issues nothing. -/
def issueCheck (op : POp) (c : PressCmd) (v : State) : (Status × Nat) ⊕ (Desc × Nat) :=
  let n := c.cl.toNat
  let p := (partOfRegion v (n / 16)).getD 0
  match descAt (cluster v n) c.areg c.offset with
  | none => .inl (.malformed, 1)
  | some d =>
    match descCheck op v n p c.flags d with
    | .inl e => .inl e
    | .inr beats => .inr (d, beats)

/-- The requests of the item in progress end with INTEGRITY (07 R177, R189; 06 R164). -/
def itemLost (n : Nat) (s : State) : State :=
  match (cluster s n).item with
  | some i => i.rows.foldl (fun s r => reportEnd r.req .integrity s) s
  | none => s

/-- What a fetch that gives no operands leads to: a chunk that will come is awaited (03 R80); bounds and rights end the item
(R74, R82); lost data leaves no output (07 R191; 06 R164). -/
def fetchFailed (op : POp) (c : PressCmd) (d : Desc) (f : Fetch) (s : State) : State :=
  let n := c.cl.toNat
  let p := (partOfRegion s (n / 16)).getD 0
  match f with
  | .later id want => clusterUpd n (fun x => { x with streams := Tab.mod x.streams id (fun t => { t with want := want }) }) s
  | .beyond cause => endItem n .malformed cause true s
  | .denied => endItem n .denied 2 true s
  | .slug crc space addr => itemLost n (slugLost crc (placeOf s p space addr) (enter n op c.flags d none [] [] [] s))
  | .lost => itemLost n (enter n op c.flags d none [] [] [] s)
  | .ok .. => s

/-- Correctable errors in the cluster's memories are corrected in place and counted (03 R67; log entry 192). -/
def countEcc (n : Nat) (o : ReadOutcome) (s : State) : State :=
  match o with
  | .clusterEcc k => clusterUpd n (fun x => { x with ecc := satAdd x.ecc k }) s
  | _ => s

/-- A command whose checks have passed and whose operands are there is issued with what it does; a wait on a channel happens
before issue (03 R84); a failed read leaves no output (07 R177, R191). -/
def pressEnter (op : POp) (c : PressCmd) (d : Desc) (v : Verdict) (reads : List (Nat × (Nat × Nat))) (taken : List Eff)
    (slots : List Nat) (s : State) : State :=
  let n := c.cl.toNat
  match v with
  | .bad st cause => endItem n st cause true s
  | .wait ch =>
    (match (channel s n ch).bind (fun k => k.broken) with
     | some b => endItem n b 6 false s
     | none => rebind n true (vtRefresh false (clusterUpd n (fun x => { x with wait := .implicit ch, state := 3 }) s)))
  | .later => s
  | .fault => clusterFault n 4 s
  | .run r =>
    let o := rangesOutcome s ((partOfRegion s (n / 16)).getD 0) (reads ++ r.reads ++ mergeRanges (writtenRanges r.effs)) c.reads
    let (got, s) := readOutcome o s
    if got then enter n op c.flags d (some r) reads taken slots s else itemLost n (enter n op c.flags d none reads [] [] s)

/-- The compositor issues a press command. A failed check issues nothing and ends the work item (03 R74). -/
def pressIssue (op : POp) (c : PressCmd) (s : State) : State :=
  let n := c.cl.toNat
  if !canIssue s n || decide (4 ≤ (cluster s n).press.length) then s else
  let s := countEcc n c.reads s
  let v := viewOf n s
  let p := (partOfRegion s (n / 16)).getD 0
  match issueCheck op c v with
  | .inl (st, cause) => endItem n st cause true s
  | .inr (d, beats) =>
    match fetchAll v n p (op.fetched d) c.remote with
    | .ok (gs, left, reads, taken) =>
      let slugs := gs.map (fun g => g.raw.length / 2048)
      if d.maxBeats < beats + slugBeats op d (op.pages v p d) slugs beats then endItem n .malformed 1 true s else
      pressEnter op c d (op.run { v := v, n := n, p := p, flags := c.flags, d := d, remote := left } gs) reads taken
        (slotsNamed (op.fetched d) gs) s
    | .error f => fetchFailed op c d f s

/-! ### Completion (03 R89) -/

/-- The rows of a galley STORE leave for the members: certain rows to both, speculative ones to the serving member
(08 R212); the tenant is charged their bytes at the peers (13 R357, R358). -/
def sendRows (n layer : Nat) (rows : List GalleyRow) (s : State) : State :=
  rows.foldl (fun s g =>
    match recLive s g.req with
    | none => s
    | some r =>
      let a : AppendHdr := { req := g.req, pos := BitVec.ofNat 32 g.pos, step := g.step, layer := BitVec.ofNat 16 layer
                             cls := if g.spec then 2 else 1, rowBytes := BitVec.ofNat 16 g.bytes.length, resv := 0 }
      let dests := (liveMembers s r).filter (fun d => !g.spec || d == r.servingSlot.toNat % 16)
      let s := meterAdd r.tenant.toNat (fun m => { m with t2 := m.t2 + BitVec.ofNat 64 (g.bytes.length * dests.length) }) s
      dests.foldl (fun s d => trayIssue d (.append (moverHdr s d 0xA g.req) a g.bytes .good) (.append g.req n) s) s) s

/-- A trace record in the trace ring of host memory, or a drop where it is full (14 R383; 16 R415). -/
def traceRow (n index row : Nat) (h : BitVec 128) (s : State) : State :=
  let x := cluster s n
  let held := (s.repro.traceProd - s.repro.traceCons).toNat
  if !s.repro.trace then s
  else if 2 ^ s.repro.traceSize.toNat ≤ held then
    { s with repro := { s.repro with traceDrop := satInc s.repro.traceDrop } }
  else
    emit (.trace s.repro.traceProd.toNat (progIndex s n) index (x.traceItems - 1) x.digSeq row h)
      { s with repro := { s.repro with traceProd := s.repro.traceProd + 1 } }

/-- The work item a completing command belongs to: the one in progress, or the one that has just ended. -/
def itemOf (x : Cluster) : Option WorkItem :=
  match x.item with
  | some i => some i
  | none => x.done.getLast?.map (fun d => d.item)

/-- Rows of a tenant in a work item. -/
def tenantRows (i : WorkItem) (t : BitVec 16) : Nat := ((i.rows.filter (fun r => r.tenant == t)).map (fun r => r.rows.length)).sum

/-- The tenant of a work item's lowest row; device work has none (13 R357). -/
def lowTenant (i : WorkItem) : Nat :=
  ((i.rows.map (fun r => r.rows.map (fun k => (k, r.tenant.toNat)))).flatten.foldl (fun m e =>
    match m with
    | none => some e
    | some b => if e.1 < b.1 then some e else m) none).elim 0 (fun (e : Nat × Nat) => e.2)

/-- The share of `x` that tenant `t` receives: floor(x × r ÷ R), and the remainder at the lowest row's tenant (13 R358). -/
def shareOf (i : WorkItem) (ts : List (BitVec 16)) (t : BitVec 16) (x : Nat) : Nat :=
  let all := (i.rows.map (fun r => r.rows.length)).sum
  let part (u : BitVec 16) : Nat := if all = 0 then 0 else x * tenantRows i u / all
  part t + (if t.toNat = lowTenant i then x - (ts.map part).sum else 0)

/-- Charge a command's beats and bytes to the tenants of its work item (13 R358). -/
def chargeItem (n beats t0 t1 t2 : Nat) (s : State) : State :=
  let add (b x y z : Nat) (m : Meter) : Meter :=
    { m with beats := m.beats + BitVec.ofNat 64 b, t0 := m.t0 + BitVec.ofNat 64 x, t1 := m.t1 + BitVec.ofNat 64 y
             t2 := m.t2 + BitVec.ofNat 64 z }
  match itemOf (cluster s n) with
  | none => meterAdd 0 (add beats t0 t1 t2) s
  | some i =>
    let ts := (i.rows.filter (fun r => !r.rows.isEmpty)).map (fun r => r.tenant)
    let ts := ts.foldl (fun l t => if l.contains t then l else l ++ [t]) []
    if ts.isEmpty then meterAdd 0 (add beats t0 t1 t2) s
    else ts.foldl (fun s t => meterAdd t.toNat
      (add (shareOf i ts t beats) (shareOf i ts t t0) (shareOf i ts t t1) (shareOf i ts t t2)) s) s

/-- A counter of the saturation file (04 R114). -/
def satTo (a b : Nat) : Nat := min (a + b) 0xFFFFFFFF

/-- One effect takes place as its command leaves EMIT. -/
def applyEff (n : Nat) (i : InFlight) (s : State) (e : Eff) : State :=
  match e with
  | .trayW a bs =>
    let s := xbarPass n xbarMesh s
    if ownSlot s a then applyMem n s e
    else if fenced s then breakChannels (fun p => match p with
      | .tray slot _ _ => decide (slot.toNat = a / 2 ^ 44)
      | _ => false) .fenced s
    else trayIssue (a / 2 ^ 44) (.store { ownHdr s n a bs.length with src := 0, dst := 0 } bs .good) (.cluster n) s
  | .sliceW a _ => applyMem n (xbarToSlice n (a / 2 ^ 27) s) e
  | .t1W _ _ => applyMem n (xbarPass n xbarMesh s) e
  | .galley layer rows => sendRows n layer rows (xbarPass n xbarMesh s)
  | .send ch msgs => msgs.foldl (sendMessage n ch) s
  | .recv ch => dropHead n ch s
  | .sat row a b =>
    clusterUpd n (fun x => { x with sat := Tab.upd x.sat row (0, 0) (fun c => (satTo c.1 a, satTo c.2 b)) }) s
  | .dig row h =>
    traceRow n i.index row h (clusterUpd n (fun x => { x with dig := Tab.upd x.dig (row % 1024) 0 (fun d => d + h) }) s)
  | .meter t0 t1 t2 => if t0 + t1 + t2 = 0 then s else chargeItem n 0 t0 t1 t2 s
  | .fallback arg => clusterUpd n (fun x => { x with fallbacks := x.fallbacks ++ [(none, arg)] }) s
  | .badFrame crc f => retireFrame f (slugFailure crc s)
  | e => applyMem n s e

/-- Whether a command fed the layer digest (14 R375). -/
def digested (i : InFlight) : Bool := i.effs.any (fun e => match e with
  | .dig _ _ => true
  | _ => false)

/-- The SENDs of a command wait until every append of the cluster's earlier GALLEY STOREs has its SEQ (10 R278). -/
def sendHeld (n : Nat) (i : InFlight) (s : State) : Bool :=
  let ours (w : TrayWhy) : Bool := match w with
    | .append _ m => m == n
    | _ => false
  i.effs.any (fun e => match e with
    | .send _ _ => true
    | _ => false) && s.near.dst.any (fun e => e.2.waiting.any (fun w => ours w.2))

/-- The oldest command in the press leaves EMIT after `beats` beats (03 R70, R89): its effects take place, its beats are
charged to the cluster, the context (13 R350) and the tenants (R358), an excess over MAX_BEATS is a breach, and EVENT posts one
event; the command boundary is reached when the press is empty (03 R71). -/
def commandComplete (n beats : Nat) (s : State) : State :=
  match (cluster s n).press with
  | [] => s
  | i :: rest =>
    if sendHeld n i s then s else
    let s := clusterUpd n (fun x => { x with press := rest }) s
    let s := i.effs.foldl (applyEff n i) s
    let s := clusterUpd n (fun x => { x with
      digSeq := if digested i then x.digSeq + 1 else x.digSeq
      beats := x.beats + BitVec.ofNat 64 beats, itemBeats := x.itemBeats + beats
      events := if flEvent i.flags then x.events + 1 else x.events }) s
    let s := if i.maxBeats < beats then
        noteErr 12 n 0x018 (clusterUpd n (fun x => { x with breach := satAdd x.breach (beats - i.maxBeats) }) s)
      else s
    let s := vtRefresh false s
    let s := match (cluster s n).ctx with
      | some c => chargeVt c beats s
      | none => s
    let s := chargeItem n beats 0 0 0 s
    if rest.isEmpty then rebind n true s else s

/-- COMMAND_COMPLETE. -/
def execCommandComplete (cl : ClusterId) (beats : Nat) (s : State) : Out := .next (commandComplete cl.toNat beats s)

/-- CLUSTER_FAULT: an uncorrectable error in the cluster's memories, or a fault of its press (03 R67, R91). -/
def execClusterFault (cl : ClusterId) (ecc : Bool) (s : State) : Out :=
  .next (if hasProgram (cluster s cl.toNat) then clusterFault cl.toNat (if ecc then 3 else 4) s else s)

/-! ### Streams (03 R80, R81) -/

/-- Elements that the slugs of a chunk hold. -/
def chunkElems (bs : List Byte) : Nat := ((List.range (bs.length / 2048)).map (fun i => half bs (2048 * i + 2))).sum

/-- All lines of a stream's next chunk have arrived: it goes to its ring slot and becomes visible (03 R80). A slot is refilled
once its consumer has finished reading it; a consumer that waits for more chunks than the ring holds reads them in passing. The
chunk's lines not granted yet count as granted before it is complete (R81; log entry 151). During a save only a chunk whose lines are
outstanding arrives (13 R347). A chunk of a slug-coded run outside
what the partition may read ends the item (R74); lost data is delivered to no consumer (07 R191). -/
def chunkArrives (n id : Nat) (data : List Byte) (reads : ReadOutcome) (s : State) : State :=
  match Tab.find (cluster s n).streams id with
  | none => s
  | some t =>
    let o := t.next * t.chunk
    let may := match (cluster s n).moving with
      | none => true
      | some (saving, _) => saving && chunkOut t
    if streamDone t || t.chunk = 0 || !may || decide (max (t.ringLen / t.chunk) t.want ≤ t.visible.length) then s
    else
      let p := (partOfRegion s (n / 16)).getD 0
      let rs := cutRanges t.ranges o (if t.slug then t.chunk else min t.chunk (t.total - o))
      match worstOf (rs.map (fun r => rangeOk s n p t.space false r.1 r.2)) with
      | .malformed => endItem n .malformed 1 true s
      | .denied => endItem n .denied 2 true s
      | _ =>
        let bs := (readRanges s n p t.space rs data).1.flatten
        let (got, s) := readOutcome (rangesOutcome s p (rs.map (fun r => (t.space, r))) reads) (countEcc n reads s)
        let s := rs.foldl (fun s r => countRead n p t.space s r) s
        let slot := t.ringStart + t.next % (t.ringLen / t.chunk) * t.chunk
        let s := clusterUpd n (fun x =>
          let x := if got then caseStore slot bs x else x
          let st := Tab.put x.streams id { t with
            next := t.next + 1, visible := t.visible ++ [bs], left := t.left - chunkElems bs
            asked := max t.asked ((t.next + 1) * chunkLines t), bad := if got then t.bad else t.bad ++ [t.next] }
          grantLines 512 { x with streams := st, caseKept := (slot, slot + bs.length) :: x.caseKept }) s
        match meterAll s (rs.map (fun r => (t.space, r))) with
        | .meter a b c => if a + b + c = 0 then s else chargeItem n 0 a b c s
        | _ => s

/-- STREAM_CHUNK_ARRIVAL (03 R80). -/
def execStreamChunkArrival (cl : ClusterId) (id : BitVec 5) (data : WithReads (List Byte)) (s : State) : Out :=
  .next (chunkArrives cl.toNat id.toNat data.val data.reads s)

end Sys2Proof.Machine
end

