-- ==== Sys2Proof/Machine/PressOps.lean ====
section
/-!
DEFINITION. The operations of the press commands other than ATTEND (03, *Opcodes*, *Engine beats*; 04): their structural
checks with their engine beats, and what each computes and writes.
-/

namespace Sys2Proof.Machine

/-! ### Shared -/

/-- `v` when the conditions hold. -/
def beatsIf (ok : Bool) (v : Nat) : Option Nat := if ok then some v else none

/-- Beats of a command that moves `bytes` (03, *Engine beats*). -/
def moveBeats (bytes : Nat) : Nat := cdiv bytes 256 + 32

/-- A line that names a tensor in one of the given spaces. -/
def lineIn (l : TLine) (spaces : List Nat) : Bool := lineShape l && spaces.contains l.space

/-- Spaces a command may read (03, *Spaces*). -/
def readable : List Nat := [0, 1, 2, 3, 4, 5, 6, 7]

/-- Spaces a command may write without the exception of the accumulator. -/
def writable : List Nat := [0, 2, 3, 4, 6]

/-- An input line of VECTOR, NORM, REDUCE and TOPK (04 R484). -/
def floatIn (l : TLine) : Bool :=
  lineIn l readable && !l.slug && !l.scaled && l.format != 1 && l.format != 10

/-- An output line of VECTOR, NORM and REDUCE (04 R484): with SATCNT at most 1,024 rows (R114); none carries block scales (log
entry 154). -/
def floatOut (f : BitVec 8) (l : TLine) (spaces : List Nat) : Bool :=
  lineIn l spaces && !l.slug && !l.scaled && l.format != 1 && l.format != 10 && (!flSat f || decide (l.rows ≤ 1024))

/-- Rows of codes as FP32 (04 R484). -/
def widenRows (l : TLine) (codes : List (List Nat)) : List (List Word) := codes.map (fun r => r.map (widen l.format))

/-- FP32 rows converted to an output line's format with factor 1.0, with the counts of each row (04 R104 to R106, R114). -/
def outRows (l : TLine) (rows : List (List Word)) : List (List Conv) :=
  rows.map (fun r => r.map (fun w => convert l.format (f32Of w)))

/-- Counter entries of converted rows, from entry `base` on; FP32 counts nothing (04 R105, R106, R114). -/
def satEffs (f : BitVec 8) (format base : Nat) (rows : List (List Conv)) : List Eff :=
  if !flSat f || format = 9 then [] else
  (List.range rows.length).filterMap (fun i =>
    let c := convCounts (rows.getD i [])
    if c.1 = 0 && c.2 = 0 then none else some (.sat (base + i) c.1 c.2))

/-- Write converted rows to a line, with their counts and digest rows. -/
def emitRows (f : BitVec 8) (l : TLine) (base : Nat) (rows : List (List Conv)) : Run :=
  let codes := rows.map (fun r => r.map (fun c => c.code))
  { effs := writeRows l (codes.map (packCodes l.format)) ++ satEffs f l.format base rows
    digs := lineDigs l codes.flatten }

/-! ### LOAD, STORE (03; 04 R484; 06 R152) -/

/-- LOAD and STORE between two tensor lines, whatever formats they name (04 R484): the same number of bytes; slug-coded together, with
FORMAT, TABLE and element count equal (06 R152). -/
def copyShape (a b : TLine) : Bool :=
  if a.slug || b.slug then a.slug && b.slug && a.format == b.format && a.table == b.table && a.elems == b.elems
  else a.bytes == b.bytes

/-- The scale array of a tensor travels with it where both lines name one of the same layout (log entry 78). -/
def scalesTravel (a b : TLine) : Bool :=
  a.scaled && b.scaled && (a.format == 1) == (b.format == 1) && (a.format != 1 || a.dim 0 == b.dim 0)

/-- The bytes of a fetched tensor written to another line. -/
def copyRun (d : Desc) (src dst : TLine) (g : Got) : Run :=
  let scales := if scalesTravel src dst && src.scaleLen == dst.scaleLen then writeEff dst.space dst.scaleBase g.scales else []
  if dst.slug then
    { effs := writeEff dst.space dst.base g.raw ++ scales
      digs := [{ row := 0, format := dst.format, count := dst.elems, bytes := g.raw }] }
  else
    let rows := (List.range dst.rows).map (fun r => (g.raw.drop (r * dst.rowLen)).take dst.rowLen)
    { effs := writeRows dst rows ++ scales
      digs := lineDigs (d.line 1) (rows.map (fun b => unpackCodes dst.format b (dst.dim 0))).flatten }

/-- A slug run that leaves the bounds or the rights of its destination (03 R74). -/
def slugDest (e : PEnv) (dst : TLine) (g : Got) : Status :=
  if dst.slug then rangeOk e.v e.n e.p dst.space true dst.base g.raw.length else .ok

/-- LOAD: copy a tensor, compressed data kept compressed. -/
def opLoad : POp :=
  { opcode := 0x20
    check := fun _ _ _ _ d =>
      let a := d.line 0
      let b := d.line 1
      beatsIf (d.lines.length == 2 && d.subop == 0 && paramsClear d [] && lineIn a readable && lineIn b writable && copyShape a b)
        (moveBeats a.bytes)
    reads := fun d => [d.line 0]
    fetched := fun d => [(d.line 0, false)]
    outs := fun d => [d.line 1]
    run := fun e gs =>
      match slugDest e (e.d.line 1) (gs.headD default) with
      | .ok => .run (copyRun e.d (e.d.line 0) (e.d.line 1) (gs.headD default))
      | .denied => .bad .denied 2
      | _ => .bad .malformed 1 }

/-- A row-table entry of a GALLEY STORE: request, position, STEP (08 R212). -/
def rowEntry (v : State) (n a : Nat) : ReqId × Nat × Word :=
  let m := (cluster v n).mailbox
  (BitVec.ofNat 64 (leNat (Mem.load m a 8)), leNat (Mem.load m (a + 8) 4), BitVec.ofNat 32 (leNat (Mem.load m (a + 12) 4)))

/-- Positions of a prefill chunk on this node: CHUNK_TOKENS, or MAX_ROWS where a generation node prefills as rows of its batch
steps (02 R45, 08 R221, R237). -/
def chunkOf (s : State) : Nat :=
  s.forme.committed.elim 0 (fun c => if c.header.role == 2 then c.role.maxRows.toNat else c.role.chunkTokens.toNat)

/-- The class of a row against the owner's record: certain (some false), speculative (some true), refused (08 R212). -/
def rowClass (s : State) (r : Rec) (pos : Nat) : Option Bool :=
  let chunk := chunkOf s
  if r.state = 2 then (if r.commitLen ≤ pos ∧ pos < r.commitLen + chunk then some false else none)
  else if r.state = 4 then
    (if pos = r.commitLen then some false else if r.commitLen < pos ∧ pos ≤ r.commitLen + r.specLen then some true else none)
  else none

/-- A STORE into SPACE GALLEY (03 R75, 08 R212): rows of requests that this device does not own fail with DENIED, refused rows
with MALFORMED; the rows of a step wait for the COMMIT of the step before (08 R226). -/
def galleyRun (e : PEnv) (g : Got) : Verdict :=
  let rows := param e.d 0x10 2
  let len := param e.d 0x12 2
  let table := param e.d 0x0C 4 - 0x01000000
  let es := (List.range rows).map (fun i => rowEntry e.v e.n (table + 16 * i))
  let recs := es.map (fun x => recLive e.v x.1)
  let owned (r : Option Rec) : Bool := r.elim false (fun r => r.view.toNat.testBit 1 && decide (r.owner = myDev e.v))
  if !recs.all owned then .bad .denied 2
  else if recs.any (fun r => r.elim false (fun r => r.boundary.isSome)) then .later
  else
    let cls := (es.zip recs).map (fun x => x.2.bind (fun r => rowClass e.v r x.1.2.1))
    if !cls.all Option.isSome then .bad .malformed 1
    else
      let out := (List.range rows).map (fun i =>
        let x := es.getD i default
        { req := x.1, pos := x.2.1, step := x.2.2, spec := (cls.getD i none).getD false, bytes := (g.raw.drop (i * len)).take len : GalleyRow })
      let src := e.d.line 0
      .run { effs := [.galley (param e.d 0x08 2) out]
             digs := if src.slug then [] else
               digRows src.format (if fmtBits src.format = 0 then 0 else len * 8 / fmtBits src.format) (g.codes.flatten) }

/-- The structure of a GALLEY STORE: PARAMS of R75, ROW_BYTES the forme's per-position cost, the row table in the mailbox. -/
def galleyCheck (s : State) (p : Nat) (d : Desc) : Bool :=
  let rows := param d 0x10 2
  let len := param d 0x12 2
  let table := param d 0x0C 4
  bareLine 8 (d.line 1) && (d.line 1).base == 0 && paramsClear d [(8, 2), (0x0C, 8)] && decide (1 ≤ rows)
    && decide (rows * len = (d.line 0).bytes) && !(d.line 0).slug
    && (Tab.find (s.forme.committed.elim [] (fun c => c.programs)) p).elim false (fun q => decide (q.rowBytes = len))
    && decide (0x01001000 ≤ table) && decide (table + 16 * rows ≤ 0x01010000) && table % 4 == 0

/-- STORE: write a tensor from the case or the accumulator to any writable space (03; GALLEY: R75). -/
def opStore : POp :=
  { opcode := 0x21
    check := fun s _ p _ d =>
      let a := d.line 0
      let b := d.line 1
      let two := d.lines.length == 2 && d.subop == 0 && lineIn a [0, 1]
      if b.space = 8 then beatsIf (two && galleyCheck s p d) (moveBeats a.bytes)
      else beatsIf (two && paramsClear d [] && lineIn b writable && copyShape a b) (moveBeats a.bytes)
    reads := fun d => [d.line 0]
    fetched := fun d => [(d.line 0, false)]
    outs := fun d => if (d.line 1).space = 8 then [] else [d.line 1]
    run := fun e gs =>
      let g := gs.headD default
      if (e.d.line 1).space = 8 then galleyRun e g
      else match slugDest e (e.d.line 1) g with
        | .ok => .run (copyRun e.d (e.d.line 0) (e.d.line 1) g)
        | .denied => .bad .denied 2
        | _ => .bad .malformed 1 }

/-! ### STREAM (03, *STREAM PARAMS*; R80, R81) -/

/-- The stream's source in page-list mode: the listed 64 KiB page slots in order. -/
def pageRanges (v : State) (n : Nat) (d : Desc) : List (Nat × Nat) :=
  (List.range (param d 0x1C 2)).map (fun i =>
    (65536 * leNat (Mem.load (cluster v n).mailbox (param d 0x18 4 - 0x01000000 + 4 * i) 4), 65536))

/-- PARAMS of STREAM that both sub-operations carry. -/
def streamParams (d : Desc) : Bool :=
  paramsClear d [(8, 2), (0x0A, 2), (0x0C, 4), (0x10, 4), (0x14, 4), (0x18, 4), (0x1C, 2)] && decide (param d 8 1 < 32)

/-- STREAM arm: the ring must not meet a live range or another ring, and the identifier must be free (03 R81). -/
def opStreamArm : POp :=
  { opcode := 0x22
    check := fun _ _ _ _ d =>
      let l := d.line 0
      let chunk := param d 0x0C 4
      let len := param d 0x14 4
      let out := param d 0x0A 2
      let list := param d 0x18 4
      let count := param d 0x1C 2
      beatsIf (d.lines.length == 1 && d.subop == 0 && streamParams d && lineIn l [0, 1, 2, 3, 4, 5, 6]
          && decide (param d 9 1 ≤ 1) && decide (1 ≤ out) && decide (out ≤ 512)
          && decide (0 < chunk) && decide (chunk ≤ 65536) && chunk % 512 == 0 && (!l.slug || chunk % 2048 == 0)
          && decide (0 < len) && decide (len ≤ 2 ^ 20) && len % chunk == 0
          && param d 0x10 4 % 1024 == 0 && decide (param d 0x10 4 + len ≤ 2 ^ 21)
          && (if param d 9 1 = 0 then list == 0 && count == 0
              else decide (1 ≤ count) && decide (count ≤ 4096) && list % 4 == 0 && decide (0x01001000 ≤ list)
                && decide (list + 4 * count ≤ 0x01010000))) 8
    reads := fun d => if param d 9 1 = 0 then [d.line 0] else []
    fetched := fun _ => []
    outs := fun _ => []
    run := fun e _ =>
      let d := e.d
      let l := d.line 0
      let id := param d 8 1
      let start := param d 0x10 4
      let len := param d 0x14 4
      let x := cluster e.v e.n
      let meets (r : Nat × Nat) : Bool := decide (start < r.2) && decide (r.1 < start + len)
      if (Tab.find x.streams id).isSome || (spans x).any meets then .bad .malformed 5 else
      let ranges := if param d 9 1 = 1 then pageRanges e.v e.n d
        else if l.slug then [(l.base, 2048 * (l.elems / 16))] else l.ranges
      match (if param d 9 1 = 1 then worstOf (ranges.map (fun r => rangeOk e.v e.n e.p l.space false r.1 r.2)) else .ok) with
      | .denied => .bad .denied 2
      | .malformed => .bad .malformed 1
      | _ =>
        .run { effs := [.arm id
          { space := l.space, ranges := ranges, total := (ranges.map (fun r => r.2)).sum, chunk := param d 0x0C 4
            ringStart := start, ringLen := len, maxOut := param d 0x0A 2, format := BitVec.ofNat 8 l.format, slug := l.slug
            table := l.table, next := 0, taken := 0, visible := [], left := if l.slug then l.elems else 0, want := 0, asked := 0
            bad := [] }] } }

/-- STREAM stop: the ring's span ends (03 R81); stopping a stream that is not armed does nothing. -/
def opStreamStop : POp :=
  { opcode := 0x22
    check := fun _ _ _ _ d => beatsIf (d.lines.length == 1 && d.subop == 1 && streamParams d && lineShape (d.line 0)) 8
    reads := fun _ => []
    fetched := fun _ => []
    outs := fun _ => []
    run := fun e _ => .run { effs := [.stop (param e.d 8 1)] } }

/-! ### MATMUL (03 R76, R77; 04 R98, R101) -/

/-- r of *Engine beats*: 1 for FP4, 2 for FP6, FP8 and INT8, 4 for BF16 and FP16. -/
def mulRate (f : Nat) : Nat := if f = 1 then 1 else if f = 7 ∨ f = 8 then 4 else 2

/-- A line in a floating-point or integer format of the matrix unit. -/
def mulFormat (f : Nat) : Bool := decide (1 ≤ f) && decide (f ≤ 8)

/-- Formats of A and B: equal, or FP4 with FP8 (03 R77). -/
def mulPair (a b : Nat) : Bool :=
  mulFormat a && mulFormat b && (a == b || (a == 1 && (b == 4 || b == 5)) || (b == 1 && (a == 4 || a == 5)))

/-- The block scales of an FP4 operand row, decoded; none where one breaks R98. -/
def blockScales (l : TLine) (scales : List Byte) (r : Nat) : Option (List Fp) :=
  let n := l.dim 0 / 16
  let cs := (List.range n).map (fun b => (scales.getD (16 + r * n + b) 0).toNat)
  if cs.any (fun c => decide (127 ≤ c)) then none else some (cs.map (fmtDecode 4))

/-- The values of an operand's rows, FP4 block scales applied and no other scale (04 R97, R99). -/
def operandRows (l : TLine) (g : Got) : Option (List (List Fp)) :=
  if l.format ≠ 1 then some (g.codes.map (fun r => r.map (fmtDecode l.format)))
  else
    let rs := (List.range l.rows).map (fun r => (blockScales l g.scales r).map (fun ss =>
      (List.range (l.dim 0)).map (fun i => fpMul (fmtDecode 1 ((g.codes.getD r []).getD i 0)) (ss.getD (i / 16) (.fin false 0 0)))))
    if rs.all Option.isSome then some (rs.map (fun r => r.getD [])) else none

/-- The FP32 row at an accumulator line's row `r`. -/
def accRow (v : State) (n : Nat) (l : TLine) (r : Nat) : List Word :=
  (List.range (l.dim 0)).map (fun i => Mem.word (cluster v n).acc (l.rowAddr r + 4 * i))

/-- D := A × B, accumulated from what the chain left, +0 without one (03 R76). DIM0 of A and B is K; DIM0 of D is N. -/
def opMatmul : POp :=
  { opcode := 0x30
    check := fun _ _ _ _ d =>
      let a := d.line 0
      let b := d.line 1
      let o := d.line 2
      beatsIf (d.lines.length == 3 && d.subop == 0 && paramsClear d [] && lineIn a [0, 2, 3, 4, 5, 6, 7]
          && lineIn b [0, 2, 3, 4, 5, 6, 7] && lineIn o [1] && o.format == 9 && mulPair a.format b.format
          && a.dim 0 == b.dim 0 && o.dim 0 == b.rows && o.rows == a.rows && decide (a.rows ≤ 256) && decide (b.rows ≤ 512))
        (a.dim 0 * mulRate (if a.format = 1 then b.format else a.format) * cdiv b.rows 128 + 64)
    reads := fun d => [d.line 0, d.line 1]
    fetched := fun d => [(d.line 0, true), (d.line 1, true)]
    outs := fun d => [d.line 2]
    run := fun e gs =>
      let o := e.d.line 2
      match operandRows (e.d.line 0) (gs.headD default), operandRows (e.d.line 1) (gs.getD 1 default) with
      | some as, some bs =>
        .run { effs := writeRows o ((List.range o.rows).map (fun m =>
          let acc := accRow e.v e.n o m
          ((List.range (o.dim 0)).map (fun j =>
            leBytes 4 (accumulate (acc.getD j 0) (((as.getD m []).zip (bs.getD j [])).map (fun x => fpMul x.1 x.2))).toNat)).flatten)) }
      | _, _ => .fault }

/-! ### VECTOR, NORM, REDUCE, TOPK -/

/-- Inputs and cost of a VECTOR sub-operation (03, *VECTOR sub-operations*). -/
def vecShape (subop : Nat) : Option (Nat × Nat) :=
  match subop with
  | 0 | 1 | 3 => some (2, 1)
  | 2 => some (3, 1)
  | 4 | 5 | 6 => some (1, 4)
  | 7 => some (1, 8)
  | 8 => some (1, 1)
  | _ => none

/-- SILU: x × RECIP(1 + EXP(−x)), in that order. -/
def fSilu (x : Word) : Word := f32Mul x (fRecip (f32Add f32One (fExp (f32Neg x))))

/-- One element of a VECTOR sub-operation; `k` is the constant of SCALE. -/
def vecOp (subop : Nat) (k a b c : Word) : Word :=
  match subop with
  | 0 => f32Add a b
  | 1 => f32Mul a b
  | 2 => f32Fma a b c
  | 3 => f32Max a b
  | 4 => fExp a
  | 5 => fRecip a
  | 6 => fRsqrt a
  | 7 => fSilu a
  | _ => f32Mul a k

/-- The structure of an element-wise command: its inputs, then its output, of one shape. -/
def elementwise (f : BitVec 8) (d : Desc) (inputs : Nat) (spaces : List Nat) : Bool :=
  d.lines.length == inputs + 1 && (d.lines.take inputs).all (fun l => floatIn l && sameShape l (d.line inputs))
    && floatOut f (d.line inputs) spaces

/-- VECTOR. -/
def opVector : POp :=
  { opcode := 0x40
    check := fun _ _ _ f d =>
      match vecShape d.subop with
      | none => none
      | some (k, c) =>
        beatsIf (elementwise f d k (1 :: writable) && paramsClear d (if d.subop = 8 then [(8, 4)] else []))
          (cdiv (d.line 0).elems 512 * c + 16)
    reads := fun d => d.lines.dropLast
    fetched := fun d => d.lines.dropLast.map (fun l => (l, false))
    outs := fun d => [d.line (d.lines.length - 1)]
    run := fun e gs =>
      let o := e.d.line (e.d.lines.length - 1)
      let k := BitVec.ofNat 32 (param e.d 8 4)
      let ins := (List.range 3).map (fun i => widenRows (e.d.line i) ((gs.getD i default).codes))
      let at_ (i r j : Nat) : Word := (((ins.getD i []).getD r []).getD j 0)
      .run (emitRows e.flags o 0 (outRows o ((List.range o.rows).map (fun r =>
        (List.range (o.dim 0)).map (fun j => vecOp e.d.subop k (at_ 0 r j) (at_ 1 r j) (at_ 2 r j)))))) }

/-- Root-mean-square normalisation of a row (04 R112). -/
def normRow (eps : Word) (w x : List Word) : List Word :=
  let mean := f32Mul (rowSumSq x) (fRecip (f32Nat x.length))
  let g := fRsqrt (f32Add mean eps)
  (List.range x.length).map (fun k => f32Mul (f32Mul (x.getD k 0) g) (w.getD k 0))

/-- NORM: input, weight vector, output. -/
def opNorm : POp :=
  { opcode := 0x41
    check := fun _ _ _ f d =>
      let x := d.line 0
      let w := d.line 1
      beatsIf (d.lines.length == 3 && d.subop == 0 && paramsClear d [(8, 4)] && floatIn x && floatIn w && w.dim 0 == x.dim 0
          && w.rows == 1 && floatOut f (d.line 2) writable && sameShape x (d.line 2)) (2 * cdiv x.elems 512 + 40)
    reads := fun d => [d.line 0, d.line 1]
    fetched := fun d => [(d.line 0, false), (d.line 1, false)]
    outs := fun d => [d.line 2]
    run := fun e gs =>
      let o := e.d.line 2
      let w := (widenRows (e.d.line 1) (gs.getD 1 default).codes).headD []
      .run (emitRows e.flags o 0 (outRows o
        ((widenRows (e.d.line 0) (gs.headD default).codes).map (normRow (BitVec.ofNat 32 (param e.d 8 4)) w)))) }

/-- REDUCE: the sum of up to five inputs in tensor-line order, one rounding per addition (04 R102). -/
def opReduce : POp :=
  { opcode := 0x48
    check := fun _ _ _ f d =>
      let k := d.lines.length - 1
      beatsIf (decide (2 ≤ d.lines.length) && d.subop == 0 && paramsClear d [] && elementwise f d k writable)
        (cdiv (d.line 0).elems 512 * k + 16)
    reads := fun d => d.lines.dropLast
    fetched := fun d => d.lines.dropLast.map (fun l => (l, false))
    outs := fun d => [d.line (d.lines.length - 1)]
    run := fun e gs =>
      let k := e.d.lines.length - 1
      let o := e.d.line k
      let ins := (List.range k).map (fun i => widenRows (e.d.line i) ((gs.getD i default).codes))
      .run (emitRows e.flags o 0 (outRows o ((List.range o.rows).map (fun r => (List.range (o.dim 0)).map (fun j =>
        match ins.map (fun m => (m.getD r []).getD j 0) with
        | [] => 0
        | x :: rest => rest.foldl f32Add (f32From (f32Of x))))))) }

/-- TOPK: scores, indices, weights (04 R103). -/
def opTopk : POp :=
  { opcode := 0x49
    check := fun _ _ _ _ d =>
      let x := d.line 0
      let i := d.line 1
      let w := d.line 2
      beatsIf (d.lines.length == 3 && d.subop == 0 && paramsClear d [] && floatIn x && lineIn i writable && i.format == 10
          && !i.slug && lineIn w writable && w.format == 9 && !w.slug && i.dims == w.dims && i.dims.drop 1 == x.dims.drop 1
          && decide (i.dim 0 ≤ x.dim 0)) (x.rows * cdiv (x.dim 0) 512 * 8 + 16)
    reads := fun d => [d.line 0]
    fetched := fun d => [(d.line 0, false)]
    outs := fun d => [d.line 1, d.line 2]
    run := fun e gs =>
      let i := e.d.line 1
      let w := e.d.line 2
      let ranked := (widenRows (e.d.line 0) (gs.headD default).codes).map (fun r =>
        (rankAll ((List.range r.length).map (fun j => (r.getD j 0, j)))).take (i.dim 0))
      let is := ranked.map (fun r => r.map (fun x => x.2))
      let ws := ranked.map (fun r => r.map (fun x => x.1.toNat))
      .run { effs := writeRows i (is.map (packCodes 10)) ++ writeRows w (ws.map (packCodes 9))
             digs := lineDigs i is.flatten ++ lineDigs w ws.flatten } }

/-! ### SEND, RECV (03 R84, R86) -/

/-- The channel that a CHANNEL line names, of the wanted direction. -/
def chanOfLine (s : State) (n : Nat) (l : TLine) (send : Bool) : Option Chan :=
  match channel s n l.base with
  | some k => if k.entry.send == send then some k else none
  | none => none

/-- A SEND of `bytes` bytes can hold its credits: at most 64 messages, and no more than the peer's SLOTS (03 R84). -/
def sendFits (k : Chan) (bytes : Nat) : Bool :=
  let m := sendCount k bytes
  decide (1 ≤ m) && decide (m ≤ 64) && decide (m ≤ k.entry.slots)

/-- SEND: the tensor's bytes as messages, once credits for all are held; more messages than 64 or SLOTS is malformed
(03 R84). On a broken channel it ends its item with the transport's code, whether or not it holds credits (R87; log entry
142). -/
def opSend : POp :=
  { opcode := 0x50
    check := fun s n _ _ d =>
      beatsIf (d.lines.length == 2 && d.subop == 0 && paramsClear d [] && lineIn (d.line 0) readable && !(d.line 0).slug
          && bareLine 9 (d.line 1) && decide ((d.line 1).base < 32)
          && (chanOfLine s n (d.line 1) true).elim false (fun k => sendFits k (d.line 0).bytes)) (moveBeats (d.line 0).bytes)
    reads := fun d => [d.line 0]
    fetched := fun d => [(d.line 0, false)]
    outs := fun _ => []
    run := fun e gs =>
      let g := gs.headD default
      let l := e.d.line 0
      match chanOfLine e.v e.n (e.d.line 1) true with
      | none => .bad .malformed 1
      | some k =>
        let m := sendCount k g.raw.length
        if k.broken.isSome || decide (k.credits < m) then .wait (e.d.line 1).base
        else .run { effs := [.send (e.d.line 1).base (sendMessages k g.raw)], digs := lineDigs l g.codes.flatten
                    credits := some ((e.d.line 1).base, m) } }

/-- A RECV of the channel is still in the press. -/
def recvInPress (x : Cluster) (ch : Nat) : Bool :=
  x.press.any (fun i => i.effs.any (fun e => match e with
    | .recv c => c == ch
    | _ => false))

/-- RECV: one message into a destination (03 R84, R86). -/
def opRecv : POp :=
  { opcode := 0x51
    check := fun s n _ _ d =>
      let o := d.line 1
      beatsIf (d.lines.length == 2 && d.subop == 0 && paramsClear d [] && bareLine 9 (d.line 0) && decide ((d.line 0).base < 32)
          && lineIn o writable && !o.slug
          && (chanOfLine s n (d.line 0) false).elim false (fun k => decide (o.bytes ≤ k.entry.slotBytes))) (moveBeats o.bytes)
    reads := fun _ => []
    fetched := fun _ => []
    outs := fun d => [d.line 1]
    run := fun e _ =>
      let o := e.d.line 1
      let ch := (e.d.line 0).base
      match chanOfLine e.v e.n (e.d.line 0) false with
      | none => .bad .malformed 1
      | some k =>
        if recvInPress (cluster e.v e.n) ch then .later
        else match k.queue with
          | [] => .wait ch
          | m :: _ =>
            let rows := (List.range o.rows).map (fun r => (m.drop (r * o.rowLen)).take o.rowLen)
            .run { effs := writeRows o rows ++ [.recv ch]
                   digs := lineDigs o (rows.map (fun b => unpackCodes o.format b (o.dim 0))).flatten } }

/-! ### CONVERT (04 R104 to R107, R114) -/

/-- Round, saturate and write FP32 rows by the factor of each element; FP4 rows carry their block scales (R107). -/
def convertRow (format : Nat) (fs : Nat → Word) (a : List Word) : List Conv × List Nat :=
  let xs := (List.range a.length).map (fun j => fpMul (f32Of (a.getD j 0)) (f32Of (fs j)))
  if format = 1 then
    let bs := (chunks 16 (xs.length + 1) xs).map (fun b => (blockScale b, b))
    ((bs.map (fun b => b.2.map (fun x => convFp4 x (e4m3 b.1)))).flatten, bs.map (fun b => b.1))
  else (xs.map (convert format), [])

/-- CONVERT: accumulator, destination. -/
def opConvert : POp :=
  { opcode := 0x58
    check := fun _ _ _ _ d =>
      let a := d.line 0
      let o := d.line 1
      let mode := param d 0x0C 1
      let vec := param d 0x10 4
      beatsIf (d.lines.length == 2 && d.subop == 0 && paramsClear d [(8, 5), (0x0E, 2), (0x10, 4)] && lineIn a [1]
          && a.format == 9 && !a.scaled && lineIn o (1 :: writable) && !o.slug && o.format != 10 && sameShape a o
          && o.scaled == (o.format == 1) && decide (field (param d 8 4) 30 23 < 255) && decide (mode ≤ 2)
          && (if mode = 0 then vec == 0 else vec % 4 == 0
              && decide (vec + 4 * (if mode = 1 then o.rows else o.dim 0) ≤ 2 ^ 21))
          && decide (param d 0x0E 2 + o.rows ≤ 1024)) (cdiv a.elems 512 + 16)
    reads := fun d => [d.line 0]
    fetched := fun d => [(d.line 0, false)]
    outs := fun d => [d.line 1]
    run := fun e gs =>
      let o := e.d.line 1
      let mode := param e.d 0x0C 1
      let scale := BitVec.ofNat 32 (param e.d 8 4)
      let entry (i : Nat) : Word := BitVec.ofNat 32 (leNat (localBytes e.v e.n e.p 0 (param e.d 0x10 4 + 4 * i) 4))
      let factor (r j : Nat) : Word :=
        f32Mul scale (if mode = 1 then entry r else if mode = 2 then entry j else f32One)
      let rows := (widenRows (e.d.line 0) (gs.headD default).codes)
      let out := (List.range o.rows).map (fun r => convertRow o.format (factor r) (rows.getD r []))
      let run := emitRows e.flags o (param e.d 0x0E 2) (out.map (fun x => x.1))
      let scales := if o.format = 1 then
          writeEff o.space o.scaleBase (leBytes 4 0x3F800000 ++ List.replicate 12 0
            ++ ((out.map (fun x => x.2)).flatten.map (BitVec.ofNat 8)))
        else []
      .run { run with effs := run.effs ++ scales } }

/-! ### GATHER, DIGEST -/

/-- GATHER: the source's rows in index-list order as stored, whatever formats the lines name (04 R484); the scale array of a
tensor travels with it (log entry 78). An index beyond the source's rows is out of bounds (03 R74). -/
def opGather : POp :=
  { opcode := 0x60
    check := fun _ _ _ _ d =>
      let a := d.line 0
      let i := d.line 1
      let o := d.line 2
      beatsIf (d.lines.length == 3 && d.subop == 0 && paramsClear d [] && lineIn a [0, 1, 2, 3, 4, 5, 6] && !a.slug
          && lineIn i readable && i.format == 10 && !i.slug && lineIn o writable && !o.slug && o.rowLen == a.rowLen
          && o.rows == i.elems)
        (moveBeats o.bytes)
    reads := fun d => [d.line 0, d.line 1]
    fetched := fun d => [(d.line 1, false)]
    outs := fun d => [d.line 2]
    run := fun e gs =>
      let a := e.d.line 0
      let o := e.d.line 2
      let idx := (gs.headD default).codes.flatten
      if idx.any (fun i => decide (a.rows ≤ i)) then .bad .malformed 1 else
      let ranges := idx.map (fun i => (a.rowAddr i, a.rowLen))
      let (rows, left) := readRanges e.v e.n e.p a.space ranges e.remote
      let per := if a.format = 1 then a.dim 0 / 16 else 4
      let head := if a.format = 1 then 16 else 0
      let sr := if scalesTravel a o then
          (if head = 0 then [] else [(a.scaleBase, head)]) ++ idx.map (fun i => (a.scaleBase + head + i * per, per))
        else []
      let scales := (readRanges e.v e.n e.p a.space sr left).1.flatten
      .run { effs := writeRows o rows ++ (if scalesTravel a o then writeEff o.space o.scaleBase scales else [])
             reads := (ranges ++ sr).map (fun r => (a.space, r))
             digs := lineDigs o (rows.map (fun b => unpackCodes o.format b (o.dim 0))).flatten } }

/-- DIGEST: the tensor's rows enter the layer digest; nothing is written (14 R375). The rows are hashed whether or not the
word carries the DIGEST flag. -/
def opDigest : POp :=
  { opcode := 0x68
    check := fun _ _ _ _ d =>
      beatsIf (d.lines.length == 1 && d.subop == 0 && paramsClear d [] && lineIn (d.line 0) readable && !(d.line 0).slug)
        (cdiv (d.line 0).bytes 256 + 16)
    reads := fun d => [d.line 0]
    fetched := fun d => [(d.line 0, false)]
    outs := fun _ => []
    run := fun e gs =>
      let rows := lineDigs (e.d.line 0) (gs.headD default).codes.flatten
      .run { effs := if flDigest e.flags then [] else rows.map (fun g => .dig g.row (digestRow g)), digs := rows } }

/-! ### The meanings -/

/-- LOAD. -/
def execLoad (c : PressCmd) (s : State) : Out := .next (pressIssue opLoad c s)
/-- STORE. -/
def execStore (c : PressCmd) (s : State) : Out := .next (pressIssue opStore c s)
/-- STREAM with SUBOP 0x0000. -/
def execStreamArm (c : PressCmd) (s : State) : Out := .next (pressIssue opStreamArm c s)
/-- STREAM with SUBOP 0x0001. -/
def execStreamStop (c : PressCmd) (s : State) : Out := .next (pressIssue opStreamStop c s)
/-- MATMUL. -/
def execMatmul (c : PressCmd) (s : State) : Out := .next (pressIssue opMatmul c s)
/-- VECTOR. -/
def execVector (c : PressCmd) (s : State) : Out := .next (pressIssue opVector c s)
/-- NORM. -/
def execNorm (c : PressCmd) (s : State) : Out := .next (pressIssue opNorm c s)
/-- REDUCE. -/
def execReduce (c : PressCmd) (s : State) : Out := .next (pressIssue opReduce c s)
/-- TOPK. -/
def execTopk (c : PressCmd) (s : State) : Out := .next (pressIssue opTopk c s)
/-- SEND. -/
def execSend (c : PressCmd) (s : State) : Out := .next (pressIssue opSend c s)
/-- CONVERT. -/
def execConvert (c : PressCmd) (s : State) : Out := .next (pressIssue opConvert c s)
/-- GATHER. -/
def execGather (c : PressCmd) (s : State) : Out := .next (pressIssue opGather c s)
/-- DIGEST. -/
def execDigest (c : PressCmd) (s : State) : Out := .next (pressIssue opDigest c s)

/-- RECV: once its descriptor has passed its checks, mismatching messages at the head of a channel with TAG_CHECK are discarded
(03 R74, R86). -/
def execRecv (c : PressCmd) (s : State) : Out :=
  let n := c.cl.toNat
  let x := cluster s n
  let ready := canIssue s n && decide (x.press.length < 4)
  .next (pressIssue opRecv c (match issueCheck opRecv c (viewOf n s) with
    | .inr (d, _) => if ready && !recvInPress x (d.line 0).base then discardStale n (d.line 0).base 65 s else s
    | .inl _ => s))

end Sys2Proof.Machine
end

