-- ==== Sys2Proof/Machine/Attend.lean ====
section
/-!
DEFINITION. ATTEND (05): the checks of R122, R123, R125, R138; which positions a row sees (R129 to R131, R137); the scores of
R126 to R128; the fused update (R132), the fallback (R145), the finish (R133, R134); the row results (R124, R143).
-/

namespace Sys2Proof.Machine

/-- The PARAMS of an ATTEND (05 R122), with the formats of its Q and KV lines. -/
structure Att where
  mode : Nat
  mask : Nat
  heads : Nat
  lat : Nat
  posw : Nat
  dk : Nat
  dv : Nat
  scale : Word
  pf : Nat
  wf : Nat
  of : Nat
  galley : Bool
  kvMode : Nat
  rows : Nat
  sel : Nat
  window : Nat
  prefix_ : Nat
  wScale : Word
  oScale : Word
  lseOff : Nat
  scratch : Nat
  scratchKib : Nat
  sink : Nat
  layer : Nat
  qf : Nat
  kvf : Nat
deriving DecidableEq, Repr, Inhabited

/-- The parameters of a descriptor. -/
def attParams (d : Desc) : Att :=
  { mode := param d 8 1, mask := param d 9 1, heads := param d 0xA 2, lat := param d 0xC 2, posw := param d 0xE 2
    dk := param d 0x10 2, dv := param d 0x12 2, scale := BitVec.ofNat 32 (param d 0x14 4), pf := param d 0x18 1
    wf := param d 0x19 1, of := param d 0x1A 1, galley := param d 0x1B 1 == 1, kvMode := param d 0x1B 1, rows := param d 0x1C 2
    sel := param d 0x1E 2, window := param d 0x20 4, prefix_ := param d 0x24 4, wScale := BitVec.ofNat 32 (param d 0x28 4)
    oScale := BitVec.ofNat 32 (param d 0x2C 4), lseOff := param d 0x30 4, scratch := param d 0x34 2
    scratchKib := param d 0x36 2, sink := param d 0x38 2, layer := param d 0x3A 2
    qf := (d.line 0).format, kvf := (d.line 1).format }

/-- Elements of a key (05 R123). -/
def Att.keyW (a : Att) : Nat := if a.mode = 2 then a.dk + a.posw else a.lat + a.posw

/-- Output width per head (05, *ATTEND modes*). -/
def Att.outW (a : Att) : Nat := if a.mode = 0 then a.lat else a.dv

/-- Accumulated width: L, or DV in expanded mode. -/
def Att.accW (a : Att) : Nat := if a.mode = 2 then a.dv else a.lat

/-- The W line and the MASK line, where the mode and the mask carry them (05 R123). -/
def attW (d : Desc) : TLine := d.line 4
def attMaskLine (d : Desc) : TLine := d.line (if param d 8 1 = 0 then 4 else 5)

/-- FP32, finite. -/
def f32Finite (w : Word) : Bool := decide (field w.toNat 30 23 < 255)

/-- The conditions of R122, R129, R138 and R148 on the parameters; without the fallback path there is no scratch. -/
def attValues (a : Att) (slow : Bool) (sec : Option AttentionSect) : Bool :=
  decide (a.mode ≤ 2) && decide (a.mask ≤ 5) && decide (1 ≤ a.heads) && decide (a.heads ≤ 256)
    && a.lat % 16 == 0 && decide (16 ≤ a.lat) && a.posw % 16 == 0
    && (if a.mode = 2 then a.dk % 16 == 0 && decide (16 ≤ a.dk + a.posw) else a.dk == 0)
    && (if a.mode = 0 then a.dv == 0 && a.wf == 0 && a.wScale == f32One
        else a.dv % 16 == 0 && decide (16 ≤ a.dv) && (a.wf == 4 || a.wf == 7))
    && f32Finite a.scale && decide (0 < a.scale.toNat) && decide (a.scale.toNat < 2 ^ 31) && f32Finite a.oScale
    && (a.pf == 4 || a.pf == 7) && (a.of == 7 || a.of == 8 || a.of == 9) && decide (a.kvMode ≤ 1)
    && decide (1 ≤ a.rows) && decide (a.rows ≤ 256) && decide (a.sel ≤ 1024) && decide (a.sink ≤ 64) && a.lseOff % 8 == 0
    && (a.kvf == 4 || a.kvf == 5 || a.kvf == 7) && (a.pf == 7 || (if a.mode = 2 then a.wf else a.kvf) == 4)
    && (if a.mode = 2 then a.qf == a.wf else a.qf == 1 || a.qf == a.kvf || a.qf == 7)
    && (a.mask != 2 || decide (1 ≤ a.window)) && (a.mask != 5 || !a.galley)
    && decide (a.scratch + a.scratchKib ≤ 2048) && (slow || a.scratchKib == 0)
    && (!a.galley || sec.elim false (fun x => x.kvFormat.toNat == a.kvf && x.lat.toNat == a.lat && x.posw.toNat == a.posw))
    && (a.sel == 0 || (a.galley && decide (a.mode ≤ 1) && a.mask == 1 && (a.kvf == 4 || a.kvf == 5)
        && sec.elim false (fun x => x.thumbCount == 128) && decide (64 ≤ a.window) && a.window % 64 == 0))

/-- The log-sum-exp pairs as a line: 2 × HEADS FP32 values a row (05 R123). -/
def lseLine (a : Att) (o : TLine) : TLine :=
  { kind := 1, space := o.space, format := 9, tflags := 0, rank := 2, base := o.base + a.lseOff, dims := [2 * a.heads, a.rows, 1, 1]
    strides := [o.strides.getD 1 0, 0, 0], scaleBase := 0, table := 0, resv := 0 }

/-- Shapes and spaces of the tensor lines (05 R123). -/
def attLines (a : Att) (d : Desc) : Bool :=
  let q := d.line 0
  let kv := d.line 1
  let o := d.line 2
  let t := d.line 3
  let w := attW d
  let m := attMaskLine d
  d.lines.length == 4 + b2n (a.mode != 0) + b2n (a.mask == 5)
    && lineIn q [0, 3, 4, 6] && !q.slug && q.dims == [a.keyW, a.heads, a.rows, 1]
    && (if a.galley then lineIn kv [4] && kv.base == 0 && kv.dims == [a.lat + a.posw, 1, 1, 1]
        else lineIn kv [0, 3, 4, 6] && kv.dim 0 == a.lat + a.posw && kv.dim 2 == 1 && kv.dim 3 == 1) && !kv.slug
    && lineIn o [0, 3, 4, 6] && !o.slug && !o.scaled && o.format == a.of && o.dims == [a.outW, a.heads, a.rows, 1]
    && decide ((a.heads - 1) * o.strides.getD 0 0 + o.rowLen ≤ a.lseOff)
    && decide (a.lseOff + 8 * a.heads ≤ o.strides.getD 1 0)
    && lineIn t [0, 2, 6] && !t.slug && t.format == 10 && t.dims == [8, a.rows, 1, 1] && t.strides.getD 0 0 == 32
    && (a.mode == 0 || (lineIn w [3, 5] && w.format == 1 && w.dim 0 == a.lat
        && w.rows == a.heads * (if a.mode = 1 then a.dv else a.dk + a.dv)))
    && (a.mask != 5 || (lineIn m [0, 3, 4] && !m.slug && m.format == 10 && m.dims == [cdiv (kv.dim 1) 32, a.rows, 1, 1]))

/-- The path (05 R125): some false fused, some true fallback, none malformed. -/
def attPath (a : Att) (fallback : Nat) : Option Bool :=
  let wide := if a.mode = 2 then a.dk + a.posw else a.lat + a.posw
  let fused := decide (a.heads * a.accW ≤ 131072) && decide (wide ≤ if a.mode = 2 then 256 else 1024)
    && decide (a.dv ≤ 256) && decide (a.mask ≤ 4) && fallback != 1
  let slow := decide (wide ≤ if a.mode = 2 then 1024 else 4096) && decide (a.dv ≤ 1024) && fallback != 2
  if fused then some false else if slow then some true else none

/-- The FALLBACK byte of the partition's ATTENTION section (05 R148). -/
def attFallback (s : State) (p : Nat) : Nat := (attnOf s p).elim 0 (fun x => x.fallback.toNat)

/-! ### Duration (05 R149) -/

/-- Beats of a row with `pages` attended pages and `cands` candidates. -/
def attRowBeats (a : Att) (slow : Bool) (pages cands : Nat) : Nat :=
  let r (f : Nat) : Nat := if f = 7 then 4 else 2
  let rs := if a.mode = 2 then r a.wf else max (r a.qf) (r a.kvf)
  let page := if a.mode = 2 then
      r a.wf * a.lat * cdiv (a.heads * (a.dk + a.dv)) 128 + a.heads * (rs * (a.dk + a.posw) + r a.pf * 64 * cdiv a.dv 128)
        + cdiv (a.heads * a.dv) 512
    else rs * (a.lat + a.posw) + r a.pf * 64 * cdiv a.lat 128 + cdiv (a.heads * a.lat) 512
  let sel := if a.sel < cands ∧ a.sel ≠ 0 then cands + 8 * cdiv cands 512 + cdiv a.heads 2 + 80 else 0
  sel + pages * page + 96 + (if slow then a.heads * (12 * cdiv (64 * pages) 512 + 32) else 0)

/-- Beats of the command whose rows have the given attended pages and candidates. -/
def attBeats (a : Att) (slow : Bool) (rows : List (Nat × Nat)) : Nat :=
  let up := if a.mode = 1 then a.heads * (if a.wf = 7 then 4 else 2) * a.lat * cdiv a.dv 128 else 0
  64 + (rows.map (fun x => attRowBeats a slow x.1 x.2)).sum + up

/-- The attended pages and candidates of a row that the load and issue checks take: one page in galley mode; in contiguous mode
every block where the mask is FULL, and none where the row's POS decides (05 R149; log entry 156). -/
def attLeast (a : Att) (d : Desc) : Nat × Nat :=
  (if a.galley then 1 else if a.mask = 0 then cdiv ((d.line 1).dim 1) 64 else 0, 0)

/-! ### Which positions a row sees (05 R129, R137) -/

/-- The mask admits position `j` for a row at `pos`; `bits` is the row's EXPLICIT mask. -/
def maskAdmits (a : Att) (bits : List Nat) (pos j : Nat) : Bool :=
  let inWin := decide (pos < j + a.window) && decide (j ≤ pos)
  match a.mask with
  | 0 => true
  | 1 => decide (j ≤ pos)
  | 2 => inWin
  | 3 => decide (j < a.prefix_) || decide (j ≤ pos)
  | 4 => decide (j < a.prefix_) || inWin
  | _ => (bits.getD (j / 32) 0).testBit (j % 32)

/-- Blocks, rising, that hold an admitted position. -/
def blocksOf (js : List Nat) : List Nat :=
  js.foldl (fun l j => if l.getLast? = some (j / 64) then l else l ++ [j / 64]) []

/-- The score of a candidate page: the accumulation over g × mid, then a × rad (05 R137). -/
def pageScore (f : Nat) (g r : List Word) (thumb : List Byte) : Word :=
  let half_ : Word := 0x3F000000
  let hi (d : Nat) : Word := widen f (thumb.getD d 0).toNat
  let lo (d : Nat) : Word := widen f (thumb.getD (128 + d) 0).toNat
  let mid (d : Nat) : Word := f32Mul (f32Add (hi d) (lo d)) half_
  let rad (d : Nat) : Word := f32Mul (f32Sub (hi d) (lo d)) half_
  let term (x y : Word) : Fp := fpMul (f32Of x) (f32Of y)
  accumulate 0 ((List.range 128).map (fun d => term (g.getD d 0) (mid d)) ++ (List.range 128).map (fun d => term (r.getD d 0) (rad d)))

/-- Page selection of a row: the pages it may attend, and its candidates (05 R137); `thumb` gives a page's entry, `q` the row's
decoded query by head. -/
def selectPages (a : Att) (dims : List Nat) (q : List (List Fp)) (thumb : Nat → List Byte) (pos : Nat) : List Nat × Nat :=
  let w0 := (pos + 1 - a.window) / 64
  let sinks := List.range (min a.sink w0)
  let win := (List.range (pos / 64 + 1 - w0)).map (fun i => w0 + i)
  let cands := (List.range (w0 - a.sink)).map (fun i => a.sink + i)
  if cands.length ≤ a.sel then (sinks ++ cands ++ win, cands.length) else
  let pool (abs_ : Bool) : List Word := dims.map (fun i => q.foldl (fun acc h =>
    match h.getD i .nan with
    | .fin n d e => f32Add acc (f32Pack (if abs_ then false else n) d e)
    | .inf n => f32Add acc (f32Inf (if abs_ then false else n))
    | .nan => f32Nan) 0)
  let g := pool false
  let r := pool true
  let ranked := (rankAll (cands.map (fun c => (pageScore a.kvf g r (thumb c), c)))).take a.sel
  let kept := cands.filter (fun c => ranked.any (fun x => x.2 == c))
  (sinks ++ kept ++ win, cands.length)

/-! ### Scores and the update (05 R126 to R128, R132 to R134, R145) -/

/-- −∞. -/
def negInf : Word := 0xFF800000

/-- The score of a head's query against a key (05 R126). -/
def attScore (scale : Word) (q k : List Fp) : Word :=
  f32Mul (accumulate 0 ((q.zip k).map (fun x => fpMul x.1 x.2))) scale

/-- A score as R128 takes it, and whether it was non-finite. -/
def tameScore (s : Word) : Word × Bool :=
  match f32Of s with
  | .nan => (negInf, true)
  | .inf neg => (if neg then negInf else 0x7F7FFFFF, true)
  | _ => (s, false)

/-- The running state of a row and head: maximum, sum and output (05 R132). -/
structure Soft where
  m : Word
  l : Word
  o : List Word
  /-- some position contributed. -/
  got : Bool
deriving DecidableEq, Repr, Inhabited

/-- One attended block: `ss` the 64 scores (−∞ where not admitted), `vals` the value rows (05 R132). -/
def fusedBlock (pf width : Nat) (ss : List Word) (vals : List (List Fp)) (x : Soft) : Soft :=
  let bm := rowMax ss
  if bm = negInf then x else
  let m := f32Max x.m bm
  let alpha := fExp (f32Sub x.m m)
  let live (j : Nat) : Bool := ss.getD j negInf != negInf
  let p := (List.range 64).map (fun j => if live j then fExp (f32Sub (ss.getD j 0) m) else 0)
  let cv := p.map (fun w => fmtDecode pf (convert pf (f32Of w)).code)
  let out := (List.range width).map (fun v =>
    (List.range 4).foldl (fun acc g =>
      groupFold acc (((List.range 16).map (fun i => 16 * g + i)).filterMap (fun j =>
        if live j then some (fpMul (cv.getD j .nan) ((vals.getD j []).getD v .nan)) else none)))
      (f32Mul alpha (x.o.getD v 0)))
  { m := m, l := f32Add (f32Mul alpha x.l) (rowSum p), o := out, got := true }

/-- The fallback update over the admitted positions (05 R145): the state, and the probabilities left in the scratch. -/
def slowUpdate (pf width : Nat) (ss : List Word) (vals : List (List Fp)) : Soft × List Word :=
  let n := ss.length
  if ss.all (fun s => s == negInf) then ({ m := negInf, l := 0, o := List.replicate width 0, got := false }, ss) else
  let m := rowMax ss
  let t := ss.map (fun s => if s = negInf then 0 else fExp (f32Sub s m))
  let cv := t.map (fun w => fmtDecode pf (convert pf (f32Of w)).code)
  let out := (List.range width).map (fun v =>
    (List.range (cdiv n 16)).foldl (fun acc g =>
      groupFold acc (((List.range 16).map (fun i => 16 * g + i)).filterMap (fun k =>
        if k < n ∧ ss.getD k negInf ≠ negInf then some (fpMul (cv.getD k .nan) ((vals.getD k []).getD v .nan)) else none))) 0)
  ({ m := m, l := rowSum t, o := out, got := true }, t)

/-- The finish of a row and head: output codes, saturations, and the log-sum-exp pair (05 R133, R134); `w` the head's DV weight
rows in mode 1. -/
def attFinish (a : Att) (w : List (List Fp)) (x : Soft) : List Nat × Nat × (Word × Word) :=
  if !x.got then (List.replicate a.outW 0, 0, (negInf, 0)) else
  let rl := fRecip x.l
  let ctx := x.o.map (fun v => f32Mul v rl)
  let mid := ctx.map (fun v => convert a.wf (fpMul (f32Of v) (f32Of a.wScale)))
  let (vec, n) := if a.mode = 1 then
      (w.map (fun r => accumulate 0 (((mid.map (fun c => fmtDecode a.wf c.code)).zip r).map (fun y => fpMul y.1 y.2))), (convCounts mid).1)
    else (ctx, 0)
  let out := vec.map (fun v => convert a.of (fpMul (f32Of v) (f32Of a.oScale)))
  (out.map (fun c => c.code), n + (convCounts out).1, (x.m, x.l))

/-- A position's keys and values by head, and the saturations of its expansion (05 R126, R127): those of the positional elements,
which all heads share, count once (log entry 155). -/
def expandPos (a : Att) (w : List (List Fp)) (row : List Fp) : List (List Fp × List Fp) × Nat :=
  if a.mode ≠ 2 then (List.replicate a.heads (row, row.take a.lat), 0) else
  let c := row.take a.lat
  let tail := ((row.drop a.lat).map (fun x => convert a.wf x))
  let dec (l : List Conv) : List Fp := l.map (fun x => fmtDecode a.wf x.code)
  let heads := (List.range a.heads).map (fun h => (List.range (a.dk + a.dv)).map (fun e =>
    convert a.wf (fpMul (f32Of (accumulate 0 ((c.zip (w.getD (h * (a.dk + a.dv) + e) [])).map (fun x => fpMul x.1 x.2))))
      (f32Of a.wScale))))
  (heads.map (fun l => (dec (l.take a.dk) ++ dec tail, dec (l.drop a.dk))),
    (convCounts tail).1 + (heads.map (fun l => (convCounts l).1)).sum)

/-! ### Rows -/

/-- The result of a row (05 R124). -/
structure AttRow where
  status : Status
  flags : Nat := 0
  pages : Nat := 0
  nonfinite : Nat := 0
  sat : Nat := 0
  /-- output codes, heads ascending, and the log-sum-exp pairs. -/
  out : List (List Nat) := []
  lse : List (Word × Word) := []
  cands : Nat := 0
  /-- fallback: what each head left in the scratch. -/
  scratch : List (List Word) := []
  reads : List (Nat × (Nat × Nat)) := []
  /-- a galley page whose decoding failed: CRC or later, and its frame (06 R164). -/
  bad : Option (Bool × Nat) := none
  /-- the table slot of the coded pages it attends (06 R165). -/
  slots : List Nat := []
deriving DecidableEq, Repr, Inhabited

/-- The Out fields of a row table entry (05 R124). -/
def rowResult (r : AttRow) : List Byte :=
  [codeOf r.status, BitVec.ofNat 8 r.flags] ++ leBytes 2 r.pages ++ leBytes 4 r.nonfinite ++ leBytes 4 r.sat ++ leBytes 4 0

/-- Attend over the admitted positions `js`, rising: `q` the decoded query by head, `row` the stored row at a position. -/
def attendRow (a : Att) (slow : Bool) (w : List (List Fp)) (q : List (List Fp)) (row : Nat → List Fp) (js : List Nat)
    (selected : Bool) (cands : Nat) : AttRow :=
  if slow && decide (a.scratchKib * 256 < js.length) then { status := .malformed, cands := cands } else
  let ks := js.map (fun j => expandPos a w (row j))
  let blocks := blocksOf js
  let heads := (List.range a.heads).map (fun h =>
    let kv := ks.map (fun k => k.1.getD h ([], []))
    let sc := kv.map (fun k => tameScore (attScore a.scale (q.getD h []) k.1))
    let wh := if a.mode = 1 then (w.drop (h * a.dv)).take a.dv else []
    let (x, t) := if slow then slowUpdate a.pf a.accW (sc.map (fun s => s.1)) (kv.map (fun k => k.2))
      else
        (blocks.foldl (fun x b =>
          let at_ (i : Nat) : Option Nat := js.findIdx? (fun j => j == 64 * b + i)
          fusedBlock a.pf a.accW
            ((List.range 64).map (fun i => (at_ i).elim negInf (fun k => (sc.getD k (negInf, false)).1)))
            ((List.range 64).map (fun i => (at_ i).elim [] (fun k => (kv.getD k ([], [])).2))) x)
          { m := negInf, l := 0, o := List.replicate a.accW 0, got := false }, [])
    (attFinish a wh x, (sc.filter (fun (s : Word × Bool) => s.2)).length, t))
  let non := (heads.map (fun h => h.2.1)).sum
  let sat := (ks.map (fun k => k.2)).sum + (heads.map (fun h => h.1.2.1)).sum
  { status := .ok
    flags := b2n slow + 2 * b2n selected + 4 * b2n (non != 0) + 8 * b2n (sat != 0)
    pages := blocks.length, nonfinite := non, sat := sat, out := heads.map (fun h => h.1.1), lse := heads.map (fun h => h.1.2.2)
    cands := cands, scratch := if slow then heads.map (fun h => h.2.2) else [] }

/-- A row of contiguous mode (05 R124, R129); `n` stored positions. -/
def contigRow (a : Att) (slow : Bool) (w q : List (List Fp)) (rows : List (List Fp)) (ent : List Byte) (bits : List Nat) : AttRow :=
  if numAt ent 0 8 ≠ 0 ∨ numAt ent 12 4 ≠ 0 then { status := .malformed } else
  attendRow a slow w q (fun j => rows.getD j []) ((List.range rows.length).filter (maskAdmits a bits (numAt ent 8 4))) false 0

/-! ### Galley mode (05 R131, R137, R143) -/

/-- The member holds an entry for the position that the GALLEY store with this STEP wrote (05 R131). -/
def entryOfStep (g : Galley) (l j : Nat) (step : Word) : Bool :=
  let x := pageOf g 0 l (j / 64)
  inT1 x && (maskBit x.spec (j % 64) || maskBit x.written (j % 64)) && Tab.getD x.tags (j % 64) 0 == step

/-- A page's thumb entry (05 R136). -/
def thumbAt (v : State) (g : Galley) (l p : Nat) : List Byte :=
  t1Bytes v ((pageOf g 1 l (p / 256)).frame * 65536 + p % 256 * 256) 256

/-- The read of a latent page, and of a thumb entry, as offsets of the partition's T1 space. -/
def pageRead (v : State) (p : Nat) (g : Galley) (l b : Nat) : Nat × (Nat × Nat) :=
  let x := pageOf g 0 l b
  let n := if x.coded then 2048 * (Mem.byte v.tier.t1 (x.frame * 65536 + 0xE002)).toNat else 64 * rowBytes v p
  (4, (x.frame * 65536 - partAddr v p, n))

/-- The thumb entry's read. -/
def thumbRead (v : State) (p : Nat) (g : Galley) (l b : Nat) : Nat × (Nat × Nat) :=
  (4, ((pageOf g 1 l (b / 256)).frame * 65536 + b % 256 * 256 - partAddr v p, 256))

/-- The frames of the galley pages that a row reads: the attended latent pages, and the thumb pages that hold its candidates'
entries (05 R136, R137). -/
def rowFrames (g : Galley) (a : Att) (blocks : List Nat) (chosen : Bool) (cands : Nat) : List Nat :=
  blocks.map (fun b => (pageOf g 0 a.layer b).frame)
    ++ (if chosen then (List.range cands).map (fun i => (pageOf g 1 a.layer ((a.sink + i) / 256)).frame) else [])

/-- A row of galley mode: the checks of R143 in order, then its attention (05 R131, R137). `sender` and `step` are those of the
notice; `reads` what the page reads met. -/
def galleyRow (v : State) (p : Nat) (a : Att) (slow : Bool) (w q : List (List Fp)) (ent : List Byte) (sender : Nat)
    (step : Option Word) (reads : ReadOutcome) : AttRow :=
  let req : ReqId := BitVec.ofNat 64 (numAt ent 0 8)
  let pos := numAt ent 8 4
  if numAt ent 12 4 ≠ 0 then { status := .malformed } else
  match galleyOf v req with
  | none => { status := .stateLost }
  | some g =>
    if !trusted v g then { status := .stateLost }
    else if g.owner.toNat ≠ sender ∨ g.part.toNat ≠ p then { status := .denied }
    else
      let c := (layerOf g a.layer).commit
      let spec := (List.range (pos + 1 - c)).map (fun i => c + i)
      let resident := (List.range (pos / 64 + 1)).all (fun b => inT1 (pageOf g 0 a.layer b))
      if !resident || !spec.all (fun j => step.elim false (entryOfStep g a.layer j)) then { status := .retryLater } else
      let dims := (attnOf v p).elim [] (fun x => x.thumbDims.map BitVec.toNat)
      let adm := (List.range (pos + 1)).filter (maskAdmits a [] pos)
      let (pages, cands) := if a.sel = 0 then (blocksOf adm, 0) else selectPages a dims q (thumbAt v g a.layer) pos
      let js := adm.filter (fun j => pages.contains (j / 64))
      let blocks := blocksOf js
      let chosen := decide (a.sel < cands) && a.sel != 0
      let plain := blocks.map (fun b => (b, pagePlain v g a.layer b))
      let rd := blocks.map (pageRead v p g a.layer)
        ++ (if chosen then (List.range cands).map (fun i => thumbRead v p g a.layer (a.sink + i)) else [])
      match plain.find? (fun x => match x.2 with
          | .ok _ => false
          | _ => true) with
      | some (b, r) => { status := .integrity, cands := cands, reads := rd
                         bad := some (r == .crc, (pageOf g 0 a.layer b).frame) }
      | none =>
        if (readFrame reads).elim false (fun f => (rowFrames g a blocks chosen cands).contains f) then
          { status := .integrity, cands := cands, reads := rd }
        else
          let width := a.lat + a.posw
          let row (j : Nat) : List Fp :=
            match (plain.find? (fun x => x.1 == j / 64)).map (fun x => x.2) with
            | some (SlugResult.ok codes) => ((codes.drop (j % 64 * width)).take width).map (fmtDecode a.kvf)
            | _ => []
          { attendRow a slow w q row js chosen cands with
            reads := rd
            slots := if blocks.any (fun b => (pageOf g 0 a.layer b).coded) then [g.table * 2 + b2n g.slotB] else [] }

/-! ### The command -/

/-- The sender and STEP that galley rows are judged by: those of the notice the cluster serves, else the slot of the query's
tray address (log entry 81). -/
def noticeOf (v : State) (n : Nat) (q : TLine) : Nat × Option Word :=
  match (cluster v n).notice with
  | some (d, st) => (d.toNat, some st)
  | none => (if q.space = 6 then (devOfSlot v (q.base / 2 ^ 44)).toNat else (myDev v).toNat, none)

/-- What an ATTEND writes: outputs and log-sum-exp pairs of the rows that ended OK, and every row's Out fields (05 R124). -/
def attWrites (a : Att) (d : Desc) (rows : List AttRow) : List Eff :=
  let o := d.line 2
  let l := lseLine a o
  let t := d.line 3
  ((List.range rows.length).map (fun r =>
    let x := rows.getD r default
    let res := writeEff t.space (t.rowAddr r + 0x10) (rowResult x)
    if x.status ≠ .ok then res
    else ((List.range a.heads).map (fun h => writeEff o.space (o.rowAddr (h + a.heads * r)) (packCodes a.of (x.out.getD h [])))).flatten
      ++ writeEff l.space (l.rowAddr r) ((x.lse.map (fun y => leBytes 4 y.1.toNat ++ leBytes 4 y.2.toNat)).flatten) ++ res)).flatten

/-- The effects of an ATTEND from its rows' results. -/
def attRun (e : PEnv) (a : Att) (slow : Bool) (rows : List AttRow) : Run :=
  let scratch := (rows.map (fun x => x.scratch)).flatten
  let ok := (List.range rows.length).filter (fun r => (rows.getD r default).status == .ok)
  { effs := scratch.map (fun t => Eff.caseW (a.scratch * 1024) (packCodes 9 (t.map BitVec.toNat)))
      ++ attWrites a e.d rows ++ (rows.filterMap (fun x => x.bad)).map (fun b => Eff.badFrame b.1 b.2)
      ++ (if slow && !a.galley then [Eff.fallback (if attFallback e.v e.p = 1 then 1 else 0)] else [])
    reads := (rows.map (fun x => x.reads)).flatten
    slots := (rows.map (fun x => x.slots)).flatten.eraseDups
    digs := ok.map (fun r => { row := r, format := a.of, count := a.heads * a.outW
                               bytes := packCodes a.of ((rows.getD r default).out).flatten }) }

/-- The rows of an ATTEND; none where a block scale breaks R98. -/
def attRows (e : PEnv) (a : Att) (slow : Bool) (gs : List Got) (reads : ReadOutcome) : Option (List AttRow) :=
  let d := e.d
  let kvAt := if a.galley then [] else [1]
  let idx := [0] ++ kvAt ++ [3] ++ (if a.mode = 0 then [] else [4]) ++ (if a.mask = 5 then [if a.mode = 0 then 4 else 5] else [])
  let got (i : Nat) : Got := ((idx.zip gs).find? (fun x => x.1 == i)).elim default (fun x => x.2)
  match operandRows (d.line 0) (got 0), (if a.mode = 0 then some [] else operandRows (attW d) (got 4)) with
  | some qs, some w =>
    let kv := if a.galley then [] else (got 1).codes.map (fun r => r.map (fmtDecode a.kvf))
    let (sender, step) := noticeOf e.v e.n (d.line 0)
    some ((List.range a.rows).map (fun r =>
      let q := (qs.drop (a.heads * r)).take a.heads
      let ent := (got 3).rows.getD r []
      if a.galley then galleyRow e.v e.p a slow w q ent sender step reads
      else contigRow a slow w q kv ent (if a.mask = 5 then ((got (if a.mode = 0 then 4 else 5)).codes.getD r []) else [])))
  | _, _ => none

/-- The lines that an ATTEND fetches, with whether EXPAND decodes them: Q, KV in contiguous mode, T, W and M. -/
def attFetched (d : Desc) : List (TLine × Bool) :=
  [(d.line 0, false)] ++ (if (attParams d).galley then [] else [(d.line 1, false)]) ++ (d.lines.drop 3).map (fun l => (l, true))

/-- The beats of an ATTEND in contiguous mode once its rows' blocks are known, with those of a slug-coded W (05 R149; 06 R162). -/
def contigBeats (a : Att) (d : Desc) (slow : Bool) (gs : List Got) (rows : List AttRow) : Nat :=
  let b := attBeats a slow (rows.map (fun x => (x.pages, x.cands)))
  b + codedBeats (attFetched d) d (0, 0) (gs.map (fun g => g.raw.length / 2048)) b

/-- ATTEND, with what its page reads met. -/
def opAttend (reads : ReadOutcome) : POp :=
  { opcode := 0x38
    check := fun s _ p f d =>
      let a := attParams d
      match attPath a (attFallback s p) with
      | none => none
      | some slow =>
        beatsIf (!flChain f && !flSat f && d.subop == 0 && paramsClear d [(8, 0x34)] && attValues a slow (attnOf s p)
            && attLines a d && (!a.galley || roleOf s == 3))
          (attBeats a slow (List.replicate a.rows (attLeast a d)))
    pages := fun s p d =>
      let a := attParams d
      if a.galley && (s.forme.committed.elim 0 (fun c => (Tab.getD c.entropy p default).latentTable.toNat)) != 0 then
        (28 * a.rows, 64 * (a.lat + a.posw) * a.rows)
      else (0, 0)
    reads := fun d =>
      let a := attParams d
      [d.line 0] ++ (if a.galley then [] else [d.line 1]) ++ d.lines.drop 3
    fetched := attFetched
    outs := fun d => [d.line 2, lseLine (attParams d) (d.line 2), d.line 3]
    run := fun e gs =>
      let a := attParams e.d
      let slow := (attPath a (attFallback e.v e.p)).getD false
      let kb := (a.scratch * 1024, (a.scratch + a.scratchKib) * 1024)
      if slow && (spans (cluster e.v e.n)).any (fun r => decide (kb.1 < r.2) && decide (r.1 < kb.2)) then .bad .malformed 5 else
      match attRows e a slow gs reads with
      | none => .fault
      | some rows =>
        if !a.galley && decide (e.d.maxBeats < contigBeats a e.d slow gs rows) then .bad .malformed 1
        else .run (attRun e a slow rows) }

/-- The failed read lies in a page of a galley: rows that attend it end with INTEGRITY, the command goes on (05 R143). -/
def inGalleyPage (s : State) (o : ReadOutcome) : Bool :=
  (readFrame o).elim false (fun f => (pageInFrame s f).isSome)

/-- ATTEND. A failed page read retires its page and fails the rows that attend it (05 R143); any other failed read leaves no
output. -/
def execAttend (c : PressCmd) (s : State) : Out :=
  .next (if inGalleyPage s c.reads then
      (readOutcome c.reads (pressIssue (opAttend c.reads) { c with reads := .good } s)).2
    else pressIssue (opAttend .good) c s)

end Sys2Proof.Machine
end

