-- ==== Sys2Proof/Machine/Capsules.lean ====
section
/-!
DEFINITION. The commands that submission entries carry (16 R417, R418, R422 to R424; 15 R404 to R407): capsules, session
messages, host cancellations and shards.
-/

namespace Sys2Proof.Machine

/-- An ADMIT capsule, its entry taken. -/
def admitCapsule (x : CapsuleCmd) (s : State) : State :=
  match capsuleCheck s x with
  | some c => capsuleRefuse x c s
  | none => admitStart x s

/-- A RESUME capsule, its entry taken: a request that is not PAUSED here cannot be resumed (log entry 48). -/
def resumeCapsuleAt (x : CapsuleCmd) (s : State) : State :=
  match capsuleCheck s x with
  | some c => capsuleRefuse x c s
  | none =>
    match recFind s x.capsule.reqId with
    | none => capsuleRefuse x .stateLost (seqAccept x.capsule s)
    | some r =>
      if r.state = 8 then capsuleRefuse x ((statusOf r.status).getD .stateLost) (seqAccept x.capsule s)
      else if r.state = 5 then resumeAccept x s
      else capsuleRefuse x .denied s

/-- A CANCEL capsule, its entry taken (08 R209, R228; 16 R418). -/
def cancelCapsuleAt (x : CapsuleCmd) (s : State) : State :=
  match capsuleCheck s x with
  | some c => capsuleRefuse x c s
  | none =>
    let q := x.capsule.reqId
    let s := seqAccept x.capsule s
    match recFind s q with
    | none => capsuleRefuse x .stateLost s
    | some r =>
      if r.state = 8 then capsuleRefuse x ((statusOf r.status).getD .stateLost) s
      else postCq x.ring x.entry.hostTag q 5 .ok 0 (anchorCancel q s)

/-- A session ends: its requests that are not PAUSED are cancelled (15 R407). -/
def endSession (session : Word) (s : State) : State :=
  let mine := s.req.anchors.filter (fun a => a.2.session == session)
  let s := mine.foldl (fun s a =>
    let q : ReqId := BitVec.ofNat 64 a.1
    match recLive s q with
    | some r => if r.state = 5 then s else anchorCancel q s
    | none => s) s
  { s with sec := { s.sec with sessions := Tab.del s.sec.sessions session.toNat } }

/-- A SESSION_END capsule, its entry taken (15 R407). -/
def sessionEndAt (x : CapsuleCmd) (s : State) : State :=
  match capsuleCheck s x with
  | some c => capsuleRefuse x c s
  | none => endSession x.capsule.session (postCq x.ring x.entry.hostTag 0 5 .ok 0 (seqAccept x.capsule s))

/-- A capsule entry of the given TYPE is at the head of the ring. -/
def capsuleReady (x : CapsuleCmd) (s : State) : Bool := sqReady s x.ring && x.entry.kind == 1

/-- CAPSULE: the entry is taken and its capsule acted on by TYPE; a capsule of no known type is MALFORMED (16 R422). -/
def execCapsule (x : CapsuleCmd) (s : State) : Out :=
  .next (if capsuleReady x s then
    let s := takeEntry x.ring s
    if x.capsule.type = 2 then resumeCapsuleAt x s
    else if x.capsule.type = 3 then cancelCapsuleAt x s
    else if x.capsule.type = 4 then sessionEndAt x s
    else admitCapsule x s
  else s)

/-- ADMIT (08 R219). -/
def execAdmitCapsule (x : CapsuleCmd) (s : State) : Out :=
  .next (if capsuleReady x s && x.capsule.type == 1 then admitCapsule x (takeEntry x.ring s) else s)

/-- RESUME (08 R232). -/
def execResumeCapsule (x : CapsuleCmd) (s : State) : Out :=
  .next (if capsuleReady x s && x.capsule.type == 2 then resumeCapsuleAt x (takeEntry x.ring s) else s)

/-- CANCEL (08 R228). -/
def execCancelCapsule (x : CapsuleCmd) (s : State) : Out :=
  .next (if capsuleReady x s && x.capsule.type == 3 then cancelCapsuleAt x (takeEntry x.ring s) else s)

/-- SESSION_END (15 R407). -/
def execSessionEnd (x : CapsuleCmd) (s : State) : Out :=
  .next (if capsuleReady x s && x.capsule.type == 4 then sessionEndAt x (takeEntry x.ring s) else s)

/-- NOP: the entry is taken and posts nothing (16 R418). An entry whose reserved bytes are not zero (00 R5), or whose KIND the
table does not list, is MALFORMED. -/
def execSqNop (r : RingRef) (e : SqEntry) (s : State) : Out :=
  .next (if sqReady s r && e.kind == 0 then
      (if e.resv = 0 then takeEntry r s else postCq r e.hostTag 0 5 .malformed 0 (takeEntry r s))
    else if sqReady s r && decide (5 < e.kind.toNat) then postCq r e.hostTag 0 5 .malformed 0 (takeEntry r s)
    else s)

/-- HOST_CANCEL: only of a request admitted through this context (16 R418); a RETIRED one answers its STATUS (08
R209). -/
def hostCancelCode (r : RingRef) (e : SqEntry) (s : State) : Status :=
  if e.resv ≠ 0 || e.addr ≠ 0 then .malformed else
  match recFind s e.reqId with
  | none => .denied
  | some x =>
    if x.state = 8 then (statusOf x.status).getD .denied
    else match anchorOf s e.reqId with
      | some a => if a.ring.fn = r.fn then .ok else .denied
      | none => .denied

/-- HOST_CANCEL. -/
def execHostCancel (r : RingRef) (e : SqEntry) (s : State) : Out :=
  .next (if sqReady s r && e.kind == 4 then
    let s := takeEntry r s
    let c := hostCancelCode r e s
    let live := (recLive s e.reqId).isSome
    postCq r e.hostTag e.reqId 5 c 0 (if c = .ok && live then anchorCancel e.reqId s else s)
  else s)

/-! ### Sessions (15 R404 to R406; 16 R422, R423) -/

/-- SESSION_INIT's checks: the message's form, the tenant binding, room (15 R405, R406). -/
def sessionInitCode (m : SessionInit) (s : State) : Status :=
  if !m.dmaOk || !m.magicOk || m.resv ≠ 0 || m.entry.resv ≠ 0 || m.entry.len ≠ 3208 || m.entry.addr.toNat % 64 ≠ 0 then
    .malformed
  else
    match Tab.find s.sec.tenants m.tenant.toNat with
    | some k => if k ≠ m.keyId then .denied else if s.sec.sessions.length ≥ 16384 then .retryLater else .ok
    | none =>
      if s.sec.tenants.length ≥ 4096 then .quota
      else if s.sec.sessions.length ≥ 16384 then .retryLater else .ok

/-- Bytes of a SESSION_ACCEPT record with no certificate bytes counted: header, SESSION, the exchange, measurements,
length and signatures (16, *Session messages*); the alias certificate's length is the implementation's (log entry 51). -/
def sessionAcceptLen : Nat := 32 + 4 + 32 + 1088 + 240 + 4 + 64 + 3309

/-- SESSION_INIT: the tenant is bound, the session opened and SESSION_ACCEPT posted (15 R404, 16 R423). -/
def sessionOpen (m : SessionInit) (meas : List Digest) (s : State) : State :=
  let h := s.sec.nextSession
  let x : Session := { tenant := m.tenant, keyId := m.keyId, finished := false, opened := s.tb, ring := m.ring, high := none,
                       seen := [], outSeq := 0, count := 0 }
  let s := { (draw s).2 with sec := { (draw s).2.sec with
    tenants := Tab.put s.sec.tenants m.tenant.toNat m.keyId
    sessions := Tab.put s.sec.sessions h x, nextSession := h + 1 } }
  postCq m.ring m.entry.hostTag 0 5 .ok 0
    (postOut m.ring (BitVec.ofNat 32 h) 3 sessionAcceptLen 0 (.sessionAccept meas) s)

/-- Measurements 4 to 8, as SESSION_ACCEPT carries them (15 R404). -/
def sessionMeasures (s : State) : List Digest := [4, 5, 6, 7, 8].map (measurement s)

/-- SESSION_INIT. -/
def execSessionInit (m : SessionInit) (s : State) : Out :=
  .next (if sqReady s m.ring && m.entry.kind == 2 then
    let s := takeEntry m.ring s
    match sessionInitCode m s with
    | .ok => sessionOpen m (sessionMeasures s) s
    | c =>
      let s := if c = .denied || c = .quota || c = .retryLater then authFail s else s
      postCq m.ring m.entry.hostTag 0 5 c 0 s
  else s)

/-- SESSION_FINISH's code: OK, INTEGRITY or DENIED, MALFORMED for its form (16 R423). -/
def sessionFinishCode (m : SessionFinish) (s : State) : Status :=
  if !m.dmaOk || !m.magicOk || m.resv ≠ 0 || m.entry.resv ≠ 0 || m.entry.len ≠ 3392 || m.entry.addr.toNat % 64 ≠ 0 then
    .malformed
  else
    match Tab.find s.sec.sessions m.session.toNat with
    | none => .denied
    | some x => if x.finished || x.ring.fn ≠ m.ring.fn then .denied else if m.sigsOk then .ok else .integrity

/-- SESSION_FINISH: the session opens to capsules; one whose signatures fail stays closed. -/
def execSessionFinish (m : SessionFinish) (s : State) : Out :=
  .next (if sqReady s m.ring && m.entry.kind == 3 then
    let s := takeEntry m.ring s
    let c := sessionFinishCode m s
    let s := if c = .ok then
        { s with sec := { s.sec with
            sessions := Tab.mod s.sec.sessions m.session.toNat (fun x => { x with finished := true }) } }
      else s
    postCq m.ring m.entry.hostTag 0 5 c 0 s
  else s)

/-- SESSION_TIMEOUT: a session without SESSION_FINISH for 10 s is discarded (16 R423). -/
def execSessionTimeout (session : Word) (s : State) : Out :=
  .next (match Tab.find s.sec.sessions session.toNat with
    | some x =>
      if !x.finished && decide (x.opened + 10000 * Config.tbPerMs ≤ s.tb) then
        { s with sec := { s.sec with sessions := Tab.del s.sec.sessions session.toNat } }
      else s
    | none => s)

/-! ### Shards (14 R384, R385; 16 R429) -/

/-- The committed forme declares the shard stateless (14 R384). -/
def shardDeclared (s : State) (id : BitVec 16) : Bool :=
  match s.forme.committed with
  | none => false
  | some f => f.programs.any (fun p => p.2.shards.contains id)

/-- SHARD's code before it runs: FORME_MISMATCH, then STATE_LOST (16 R429); SHARD is the PF's (16 R417). -/
def shardCode (m : ShardCmd) (s : State) : Status :=
  if m.ring.fn ≠ 0 || m.entry.resv ≠ 0 || m.entry.addr ≠ 0 || m.entry.reqId ≠ 0 then .malformed
  else if s.dev.fatal || !shardDeclared s m.entry.shardId then .formeMismatch
  else if m.claimSet || !m.inputsHeld then .stateLost
  else .ok

/-- The claim of a backup step (14 R385): a remote CAS on the consumer's claim word, with the shard's step and this
device's identifier. The key of the consumer's claim-ring region is a free value: no rule says how the producer learns it
(log entry 52). -/
def claimHdr (m : ShardCmd) (rkey : Word) : PodHdr :=
  { podHdr0 with rkey := rkey, type := 0x04, dst := m.entry.consumer, op := 0x24, srcQp := BitVec.ofNat 32 fwQp
                 dstQp := BitVec.ofNat 32 fwQp, offset := BitVec.ofNat 64 (8 * (m.entry.step.toNat % 256)) }

/-- SHARD: the backup runs on the consumer's inputs and claims the step; it completes when the claim is answered (16
R429). -/
def execShard (m : ShardCmd) (s : State) : Out :=
  .next (if sqReady s m.ring && m.entry.kind == 5 then
    let s := takeEntry m.ring s
    match shardCode m s with
    | .ok =>
      let consumer : DevId := BitVec.ofNat 12 m.entry.consumer.toNat
      let word := m.entry.step.toNat * 2 ^ 16
      let s := sendFw consumer 0 (.shardAsk m.entry.shardId m.entry.step) s
      let run : ShardRun := { ring := m.ring, hostTag := m.entry.hostTag, shard := m.entry.shardId, step := m.entry.step
                              consumer := consumer, primary := BitVec.ofNat 12 m.entry.primary.toNat, claim := none }
      let claim := (claimHdr m (Config.freeWord s.free), leBytes 8 word ++ leBytes 8 (2 ^ 63 + word + (myDev s).toNat))
      let s := bumpFree { s with repro := { s.repro with shards := s.repro.shards ++ [run] } }
      if excluded s consumer.toNat then shardEnds (fun x => x == run) .epochStale [] s
      else dataDrain { s with rma := { s.rma with queued := s.rma.queued ++ [claim] } }
    | c => postCq m.ring m.entry.hostTag 0 5 c 0 s
  else s)

end Sys2Proof.Machine
end

