-- ==== Sys2Proof/Machine/CodecCtl.lean ====
section
/-!
DEFINITION. The commands of the CODEC block (06): writing a table slot (R166), switching the active latent slot (R168,
R169), and clearing its counters.
-/

namespace Sys2Proof.Machine

/-- CODE of CODEC_STATUS. -/
def codecCode (c : Status) (s : State) : State := { s with codec := { s.codec with code := codeOf c } }

/-- The command protocol of CODEC_CTRL. -/
def codecCtl (w : CtlWrite) (own : Nat) (run : State → State) (s : State) : State :=
  ctl w false [0, 1, 2] own (fun s => s.codec.busy) codecCode id run s

/-- CODEC_SEL.TABLE. -/
def selTable (s : State) : Nat := field s.codec.sel.toNat 9 0

/-- CODEC_SEL.SLOT. -/
def selSlot (s : State) : Bool := bit s.codec.sel 10

/-- CODEC_SEL.FORMAT. -/
def selFormat (s : State) : Nat := field s.codec.sel.toNat 23 16

/-- CODEC_SEL.PART. -/
def selPart (s : State) : Nat := field s.codec.sel.toNat 26 24

/-- The partitions whose ENTROPY declares a table, with the declared format (06 R166). -/
def declares (s : State) (table : Nat) : List (Nat × Nat) :=
  match s.forme.committed with
  | none => []
  | some c => c.entropy.filterMap (fun e =>
      (e.2.entries.find? (fun x => x.table.toNat == table)).map (fun x => (e.1, x.format.toNat)))

/-- The table is some partition's LATENT_TABLE. -/
def isLatent (s : State) (table : Nat) : Bool :=
  match s.forme.committed with
  | none => false
  | some c => table != 0 && c.entropy.any (fun e => e.2.latentTable.toNat == table)

/-- Bytes `off` to `off + n` of a resident plate, where its entry places them (02 R53). -/
def plateBytes (s : State) (r : PlateRef) (off n : Nat) : List Byte :=
  if r.place.toNat % 16 = 1 then t1Bytes s (plateAddr r.dest.toNat + off) n
  else
    let gs := bitsOf 8 r.regionMask.toNat
    let k := shareBytes r r.storedLen.toNat
    (List.range n).map (fun i =>
      let o := off + i
      if k = 0 then 0
      else
        let g := gs.getD (o / k) 0
        Mem.byte s.tier.slices (g * 2 ^ 27 + plateStart s g + r.dest.toNat + o % k))

/-- A run header of a slug plate names one of the slots `bs` of a table (06 R160). How the device finds a plate's runs is not stated:
the model takes every 64-byte offset of the plate that holds a run's MAGIC for a run (DESIGN CHOICE; log entry 195). -/
def plateNames (s : State) (r : PlateRef) (table : Nat) (bs : List Bool) : Bool :=
  r.place.toNat.testBit 4 && (List.range (r.storedLen.toNat / 64)).any (fun j =>
    let h := plateBytes s r (64 * j) 7
    leNat (h.take 4) == 0x52534E44 && leNat ((h.drop 4).take 2) == table && bs.any (fun b => (h.getD 6 0).toNat % 2 == b2n b))

/-- A resident slug plate holds a run whose header names the slot: the slot is plate-bound (06 R165, R166). -/
def plateBound (s : State) (table : Nat) (b : Bool) : Bool := s.forme.resident.any (fun r => plateNames s r table [b])

/-- The length vector in CODEC_LEN0 to 31 (06 R158). -/
def stagedLengths (s : State) : List Byte := (s.codec.len.map (fun w => leBytes 4 w.toNat)).flatten

/-- References to a slot over all partitions (06 R165): coded pages, issued commands whose slugs or attended pages name it, armed
streams of its table, which may yet read either slot (log entry 165), and the pages of the galleys bound to it that are being
encoded. -/
def slotRefs (s : State) (table : Nat) (b : Bool) : Nat :=
  ((List.range 8).map (fun p => (slotOf s p table b).refs)).sum
    + (s.clusters.map (fun e => (e.2.press.filter (fun i => i.tables.contains (table * 2 + b2n b))).length
        + (e.2.streams.filter (fun t => t.2.slug && t.2.table == table)).length)).sum
    + (s.req.galleys.map (fun g => if table != 0 && g.2.table == table && g.2.slotB == b then
        ((galleyPages g.2).filter (fun x => x.state == 1 && x.sealing)).length else 0)).sum

/-- The write or switch that the CODEC registers name. -/
def askOf (s : State) : CodecAsk :=
  { table := selTable s, slotB := selSlot s, format := selFormat s, lengths := stagedLengths s, part := selPart s }

/-- The checks of a run-time write, in their order (06 R166). -/
def writeCheckOf (a : CodecAsk) (s : State) : Status :=
  let ds := declares s a.table
  if ds.isEmpty then .denied
  else if plateBound s a.table a.slotB then .denied
  else if !tableValid a.format a.lengths || ds.any (fun d => d.2 != a.format) then .malformed
  else if slotRefs s a.table a.slotB ≠ 0 then .tableBusy
  else .ok

/-- The checks of CODEC_CTRL.WRITE. -/
def writeCheck (s : State) : Status := writeCheckOf (askOf s) s

/-- The write: VALID, the vector, and VERSION + 1, in every partition that declares the table. -/
def tableWrite (a : CodecAsk) (s : State) : State :=
  (declares s a.table).foldl (fun s d =>
    { s with codec := { s.codec with slots := Tab.upd s.codec.slots (slotKey d.1 a.table a.slotB) {} (fun x => { x with
        valid := true, version := x.version + 1, format := BitVec.ofNat 8 a.format, lengths := a.lengths }) } }) s

/-- A change of a latent table is applied to both members or to neither: the first failing code of the two, else OK; a
DEGRADED member applies it alone and answers DEGRADED (06 R169; log entry 69). Which of two failing codes is the first is not
stated: the code of the member at which the command was issued comes first (DESIGN CHOICE; log entry 69). -/
def pairWide (table : Nat) (c : Status) (partner : PairAnswer) (apply : State → State) (s : State) : State :=
  if c ≠ .ok then codecCode c s
  else if isLatent s table && roleOf s = 3 then
    if s.pair.state = 3 then codecCode .degraded (apply s)
    else if partner.code = .ok then codecCode .ok (apply s)
    else codecCode partner.code s
  else codecCode .ok (apply s)

/-- A change of a latent table that was issued at the partner: this member applies it where neither member's check fails, and it
completes here too with the first failing code, the issuing member's before this one's (06 R169; log entry 69). -/
def pairApply (a : CodecAsk) (own partner : Status) (apply : State → State) (s : State) : State :=
  if !(isLatent s a.table && roleOf s == 3) then s
  else if partner ≠ .ok then codecCode partner s
  else if own ≠ .ok then codecCode own s
  else codecCode .ok (apply s)

/-- CODEC_CTRL.WRITE, or the partner's. -/
def execTableWrite (w : CtlWrite) (partner : PairAnswer) (s : State) : Out :=
  .next (match partner.ask with
    | some a => pairApply a (writeCheckOf a s) partner.code (tableWrite a) s
    | none => codecCtl w 0 (fun s => pairWide (selTable s) (writeCheck s) partner (tableWrite (askOf s)) s) s)

/-- LATENT_TABLE of a partition. -/
def latentTable (s : State) (p : Nat) : Nat :=
  match s.forme.committed with
  | none => 0
  | some c => ((Tab.find c.entropy p).map (fun e => e.latentTable.toNat)).getD 0

/-- SWITCH is MALFORMED unless the selected table is the partition's LATENT_TABLE and the slot is VALID. -/
def switchCheckOf (a : CodecAsk) (s : State) : Status :=
  if a.table = 0 ∨ latentTable s a.part ≠ a.table ∨ !(slotOf s a.part a.table a.slotB).valid then .malformed else .ok

/-- The check of CODEC_CTRL.SWITCH. -/
def switchCheck (s : State) : Status := switchCheckOf (askOf s) s

/-- The named slot becomes the partition's active latent slot. -/
def switchSlot (a : CodecAsk) (s : State) : State :=
  { s with codec := { s.codec with active := Tab.put s.codec.active a.part a.slotB } }

/-- CODEC_CTRL.SWITCH, or the partner's. -/
def execSwitch (w : CtlWrite) (partner : PairAnswer) (s : State) : Out :=
  .next (match partner.ask with
    | some a => pairApply a (switchCheckOf a s) partner.code (switchSlot a) s
    | none => codecCtl w 1 (fun s => pairWide (selTable s) (switchCheck s) partner (switchSlot (askOf s)) s) s)

/-- CODEC_CTRL.CLR. -/
def execCodecClr (w : CtlWrite) (s : State) : Out :=
  .next (codecCtl w 2 (fun s => codecCode .ok { s with codec := { s.codec with crcErr := 0, decodeErr := 0, raw := 0, seals := 0 } }) s)

end Sys2Proof.Machine
end

