-- ==== Sys2Proof/Machine/FormeLoad.lean ====
section
/-!
DEFINITION. The rest of stage 5: the check of the command-store descriptors (02 R483; 03 R74, R84, R88; 04 R115, R484; 05 R125,
R148, R149), the slot lengths of 13 R345 with the joined runs of 03 R88; and the stages of a full load and of a REPLACE together
(02 R57, R64).
-/

namespace Sys2Proof.Machine

/-! ### Static descriptors -/

/-- The operation of a press command word whose descriptor has SUBOP `subop` (03 *Opcodes*). -/
def pressOp (opcode subop : Nat) : Option POp :=
  match opcode with
  | 0x20 => some opLoad
  | 0x21 => some opStore
  | 0x22 => some (if subop = 0 then opStreamArm else opStreamStop)
  | 0x30 => some opMatmul
  | 0x38 => some (opAttend .good)
  | 0x40 => some opVector
  | 0x41 => some opNorm
  | 0x48 => some opReduce
  | 0x49 => some opTopk
  | 0x50 => some opSend
  | 0x51 => some opRecv
  | 0x58 => some opConvert
  | 0x60 => some opGather
  | 0x68 => some opDigest
  | _ => none

/-- The slugs that a slug-coded line takes at least: how many it takes shows only when it is read (06 R153; log entry 153). -/
def leastSlugs (l : TLine) : Nat := if l.slug then cdiv l.elems 16128 else 0

/-- The operation and the descriptor of the static descriptor that the command at index `i` of cluster `n` names. -/
def staticOp (s : State) (n : Nat) (e : Nat × Nat) : Option (POp × Desc) :=
  let x := cluster s n
  match descOf x (0x02000000 + e.2) with
  | none => none
  | some d => (pressOp (field (Tab.getD x.store e.1 0).toNat 63 56) d.subop).map (fun op => (op, d))

/-- The load check of the descriptor at byte `e.2` of the command store, which the word at index `e.1` names: everything that
03 R74 checks at issue. -/
def staticOk (s : State) (n p : Nat) (e : Nat × Nat) : Bool :=
  let f : BitVec 8 := BitVec.ofNat 8 (field (Tab.getD (cluster s n).store e.1 0).toNat 55 48)
  match staticOp s n e with
  | none => false
  | some (op, d) =>
    let rights (write : Bool) : TLine → Status := lineRightsBy (staticRange s n p) s n p write
    (op.check s n p f d).elim false (fun b =>
        decide (b + slugBeats op d (op.pages s p d) ((op.fetched d).map (fun l => leastSlugs l.1)) b ≤ d.maxBeats))
      && worstOf ((op.reads d).map (rights false) ++ (op.outs d).map (rights true)) == .ok

/-- The slot whose plates stage 5 judges: this device's, or, where SLOT_MASK leaves it out, the lowest that SLOT_MASK names, so that
stage 6 finds the fault (02 R46, R57). -/
def loadSlot (s : State) (c : Committed) : Nat :=
  let m := c.header.slotMask.toNat
  if m.testBit (mySlot s).toNat then (mySlot s).toNat else (bitsOf 16 m).headD (mySlot s).toNat

/-- The device with a configuration in force for which every plate is there: what the load check reads. -/
def candidate (c : Committed) (full : Bool) (s : State) : State :=
  let s := { s with forme := { s.forme with
    committed := some c, partBase := if full then partBases s c else s.forme.partBase
    resident := slotPlates (loadSlot s c) c } }
  if full then initialMaps c s else s

/-- The physical cluster on which stage 5 judges the program of index `i`: the one that would serve it, or the one of that position
where none does (stage 6 then refuses the forme, 02 R48). -/
def judgedOn (v : State) (i : Nat) : Nat := (physOf v i).getD (if fullGeom v then i else i / 15 * 16 + i % 15)

/-- The device as cluster `n` sees it with the program `x` loaded. -/
def judged (v : State) (n : Nat) (x : ClusterProgram) : State := clusterUpd n (startCluster x) v

/-- Every command-store descriptor of partition `p`'s program passes its check; each is that of a press command. -/
def staticsOk (v : State) (p : Nat) (q : ProgramSect) : Bool :=
  q.clusters.all (fun x =>
    let n := judgedOn v x.index.toNat
    let v := judged v n x
    x.statics.all (fun e => x.commands.contains e.1 && staticOk v n p e))

/-! ### Level programs (04 R117) -/

/-- A format that an SATCNT conversion of a level program may write: at level 1 no FP4 and no FP6, at level 2 BF16 alone; FP32 and
UINT32 are no conversion. -/
def levelFormatOk (level f : Nat) : Bool := if level = 1 then !(decide (1 ≤ f) && decide (f ≤ 3)) else decide (f = 7 ∨ 9 ≤ f)

/-- The opcodes whose outputs are converted: ATTEND, VECTOR, NORM, REDUCE, CONVERT (04 R484). -/
def converts (op : Byte) : Bool := [0x38, 0x40, 0x41, 0x48, 0x58].contains op

/-- The static descriptors of the level programs convert as R117 says. -/
def levelFormatsOk (v : State) (q : ProgramSect) : Bool :=
  let judge (level : Nat) (l : LevelProgram) : Bool := l.clusters.all (fun e => q.clusters.all (fun x =>
    x.index != e.1 ||
      let n := judgedOn v x.index.toNat
      let v := judged v n x
      (x.statics.filter (fun k => e.2.contains k.1)).all (fun k =>
        !(Tab.getD (cluster v n).store k.1 0).getLsbD 54 || (staticOp v n k).elim true (fun y =>
          !converts y.1.opcode || (y.1.outs y.2).all (fun o => levelFormatOk level o.format)))))
  q.level1.all (judge 1) && q.level2.all (judge 2)

/-! ### Walking a program (03 R73, R88; 04 R115) -/

/-- The command word and the static descriptor of each command of a program, in index order. -/
def programSteps (x : ClusterProgram) : List (Nat × Nat × Option Desc) :=
  let cl := startCluster x {}
  ((List.range 16384).filter (fun i => x.commands.contains i)).map (fun i =>
    (i, (Tab.getD cl.store i 0).toNat, ((x.statics.find? (fun e => e.1 == i)).bind (fun e => descOf cl (0x02000000 + e.2)))))

/-- Walk a program from index `pc` in index order, each loop body as often as its LOOP says; branches are decided at run time and
are not followed (log entry 161). -/
def walk {A : Type} (f : A → Nat → Nat → Option Desc → A) (steps : List (Nat × Nat × Option Desc)) :
    Nat → Nat → List (Nat × Nat × Nat) → A → A
  | 0, _, _, a => a
  | fuel + 1, pc, loops, a =>
    match steps.find? (fun e => decide (pc ≤ e.1)) with
    | none => a
    | some (i, w, d) =>
      let (next, left) := nextIndex loops i
      let last := field w 13 0
      let left := if field w 63 56 = 3 ∧ next ≤ last then (next, last, field w 47 32) :: left else left
      if next = 0 then f a i w d else walk f steps fuel next left (f a i w d)

/-- More commands than any walk has: 16,384 indices in four loops of at most 65,535 rounds. -/
def walkFuel : Nat := 2 ^ 78

/-! ### What leaves the device before its segment ends (04 R115) -/

/-- What a walk knows of the results of SATCNT commands: the local ranges that hold them, as (space, start, end); and whether one
has left the device. -/
structure Results where
  held : List (Nat × Nat × Nat) := []
  left : Bool := false

/-- The ranges of a line that names local memory. -/
def localRanges (l : TLine) : List (Nat × Nat × Nat) :=
  if 4 < l.space then [] else
  (if l.slug then [(l.base, l.base + l.bytes)] else l.ranges.map (fun r => (r.1, r.1 + r.2))).map (fun r => (l.space, r.1, r.2))

/-- One command: a SATCNT command's outputs, and a copy of such outputs, hold results; another command's outputs replace what they
cover; a STORE at another device or a SEND on a TRAY or POD channel takes results out. DONEWQ and WAITWQ end the work item. -/
def resultStep (s : State) (x : ClusterProgram) (a : Results) (w : Nat) (d : Option Desc) : Results :=
  let code := field w 63 56
  if code = 5 ∨ code = 6 then { a with held := [] } else
  match d.bind (fun d => (pressOp code d.subop).map (fun op => (op, d))) with
  | none => a
  | some (op, d) =>
    let sat := w.testBit 54
    let copies := [0x20, 0x21, 0x50, 0x60].contains code && (op.reads d).any (fun l => (localRanges l).any (fun r =>
      a.held.any (fun h => h.1 == r.1 && decide (h.2.1 < r.2.2) && decide (r.2.1 < h.2.2))))
    let outs := ((op.outs d).map localRanges).flatten
    let away := (op.outs d).any (fun l => l.space == 6 && !ownSlot s l.base)
      || (code == 0x50 && x.channels.any (fun k => k.chan.toNat == (d.line 1).base && match k.peer with
        | .local_ _ _ => false
        | .tray slot _ _ => slot != mySlot s
        | .pod _ _ _ _ => true))
    let kept := a.held.filter (fun h => !outs.any (fun o => o.1 == h.1 && decide (o.2.1 ≤ h.2.1) && decide (h.2.2 ≤ o.2.2)))
    { held := if sat || copies then kept ++ outs else kept, left := a.left || ((sat || copies) && away) }

/-- No result of a SATCNT command leaves the device before its segment ends but as a galley row or an at-cache request (04 R115), as
far as the static descriptors of one cluster show it; for the rest the section's own word stands (log entry 188). -/
def keepsResults (s : State) (x : ClusterProgram) : Bool :=
  !(walk (fun a _ => resultStep s x a) (programSteps x) walkFuel 0 [] {}).left

/-! ### Slot lengths (13 R345, 03 R88) -/

/-- What joins a run of commands: an open chain, the live ranges, the stream rings with what is left to consume (elements of a
coded source, else chunks) and the chunk; the run's sum of MAX_BEATS, and the largest so far. -/
structure RunWalk where
  chain : Bool := false
  live : List Nat := []
  rings : List (Nat × Nat × Nat) := []
  sum : Nat := 0
  most : Nat := 0

/-- One command of the walk. -/
def runStep (a : RunWalk) (w : Nat) (d : Option Desc) : RunWalk :=
  let op := field w 63 56
  if op = 9 then
    { a with live := if w.testBit 0 then a.live.filter (fun i => i != field w 39 35) else field w 39 35 :: a.live }
  else if op = 5 ∨ op = 6 then { most := a.most }
  else if op < 0x20 then a
  else
    let joined := a.chain || !a.live.isEmpty || !a.rings.isEmpty
    let sum := (if joined then a.sum else 0) + d.elim 0 (fun d => d.maxBeats)
    let a := { a with chain := w.testBit 55, sum := sum, most := max a.most sum }
    match d with
    | none => a
    | some d =>
      let rings := a.rings.filterMap (fun r =>
        let used := ((d.lines.filter (fun l => l.space == 7 && l.base == r.1)).map (fun l =>
          if l.slug then l.elems else cdiv l.bytes r.2.2)).sum
        if r.2.1 ≤ used then none else some (r.1, r.2.1 - used, r.2.2))
      if op ≠ 0x22 then { a with rings := rings }
      else if d.subop ≠ 0 then { a with rings := rings.filter (fun r => r.1 != param d 8 1) }
      else
        let l := d.line 0
        let chunk := param d 0x0C 4
        let bytes := if param d 9 1 = 1 then 65536 * param d 0x1C 2 else l.bytes
        { a with rings := (param d 8 1, if l.slug then l.elems else cdiv bytes chunk, chunk) :: rings }

/-- The largest MAX_BEATS of a command with a static descriptor, and the largest sum of a joined run of them (03 R88; log entry
161). -/
def staticBeats (x : ClusterProgram) : Nat × Nat :=
  let steps := programSteps x
  ((steps.filterMap (fun e => e.2.2.map (fun d => d.maxBeats))).foldl max 0,
    (walk (fun a _ => runStep a) steps walkFuel 0 [] {}).most)

/-- t(b): the time in tb that b beats take at the guaranteed minimum (13 R345). -/
def beatsTb (b : Nat) : Nat := cdiv (b * 25) 82

/-- SAVE(c) (13 *Save times*). -/
def saveTb (full : Bool) : Nat := if full then 117284 else 3308

/-- Every slot is long enough for every context of partition `p` that it names (13 R345, 03 R88). -/
def slotsLongEnough (c : Committed) (p : Nat) (v : ProgramSect) : Bool :=
  match Tab.find c.parts p with
  | none => true
  | some x =>
    let static := v.clusters.map staticBeats
    let one := (static.map (fun b => b.1)).foldl max v.maxBeats
    let joined := (static.map (fun b => b.2)).foldl max (max one v.maxJoinedBeats)
    c.imposition.slots.all (fun s =>
      (bitsOf 64 (s.contextMask &&& x.contextMask).toNat).all (fun k =>
        let full := x.fullSave.toNat.testBit k
        decide (beatsTb (if full then one else joined) + saveTb full ≤ s.length.toNat)))

/-! ### Stage 5 and the stages together (02 R57, R64) -/

/-- Stage 5 of a whole configuration, full or after the sections of a partial forme took their places. -/
def configCheck (c : Committed) (ix : SectAt) : Option FormeFail :=
  let at_ (ok : Bool) (t n : Nat) : Option FormeFail := need ok 5 .malformed (ix t n)
  let h := c.header
  firstFail ([
    need (decide (1 ≤ h.role.toNat) && decide (h.role.toNat ≤ 3) && decide (h.geometry.toNat ≤ 1)
      && decide (1 ≤ h.partCount.toNat) && decide (h.partCount.toNat ≤ 8) && decide (1 ≤ h.sysSize.toNat)
      && decide (h.sysSize.toNat ≤ 4096) && decide (1 ≤ h.layerCount.toNat) && decide (h.layerCount.toNat ≤ 1024)
      && decide (h.nPrompt.toNat + h.nGen.toNat + h.nCache.toNat = 16) && decide (h.nCache.toNat % 2 = 0)) 5 .malformed noSect,
    at_ (roleParamsOk c) 1 0,
    at_ (h.geometry == 1 || c.geometry.mapDigest == 0) 2 0]
    ++ c.regions.map (fun e => at_ (regionOk c e.1 e.2) 3 e.1)
    ++ c.parts.map (fun e => at_ (partitionOk c e.1 e.2) 4 e.1)
    ++ c.numerics.map (fun e => at_ (numericsOk c e.2) 9 e.1)
    ++ c.attention.map (fun e => at_ (attentionOk c e.1 e.2) 10 e.1)
    ++ c.entropy.map (fun e => at_ (entropyOk c e.1 e.2) 8 e.1)
    ++ c.plates.map (fun e => at_ (plateRefsOk c e.1 e.2) 7 e.1)
    ++ c.programs.map (fun e => at_ (programOk c e.1 e.2) 5 e.1)
    ++ [at_ (c.selftest.all (fun b => decide (1200 ≤ b) && decide (b ≤ 60000))) 11 0, at_ (impositionOk c) 6 0]
    ++ [at_ (sendersOk (c.programs.map (fun e => e.2.clusters)).flatten) 5 noSect]
    ++ c.programs.map (fun e => at_ (slotsLongEnough c e.1 e.2)
        (if ix 6 0 = noSect then 5 else 6) (if ix 6 0 = noSect then e.1 else 0)))

/-- The last checks of stage 5 (02 R483): where the slot's plates lie, the command-store descriptors, the level programs, and what
SATCNT results do; `full`: of a full load. -/
def staticCheck (s : State) (c : Committed) (full : Bool) (ix : SectAt) : Option FormeFail :=
  let v := candidate c full s
  let space := if full then none else some ((s.forme.partBase.head?.elim 0 (fun e => e.2) - Config.reserveFrames) * Config.frameBytes)
  firstFail (need (plateLayoutOk (loadSlot s c) c space) 5 .malformed (ix 7 0)
    :: c.programs.map (fun e => need (staticsOk v e.1 e.2 && levelFormatsOk v e.2 && e.2.clusters.all (keepsResults v))
      5 .malformed (ix 5 e.1)))

/-- The check stages 2 to 7 of a full load: the configuration, or the first failure. -/
def fullLoad (s : State) (img : FormeImage) (len : Nat) : FormeFail ⊕ Committed :=
  match firstFail [stageTwo img len 0, stageThreeFour s img, stageFiveSections img img.header.partCount.toNat] with
  | some f => .inl f
  | none =>
    match fullConfig img with
    | none => .inl { stage := 5, code := .malformed, sect := noSect }
    | some c =>
      match firstFail [need (img.header.targetMask == 0 && img.header.baseDigest == 0) 5 .malformed noSect,
          configCheck c (sectAt img), staticCheck s c true (sectAt img), stageSix s img.header c, capacityCheck s c] with
      | some f => .inl f
      | none => .inr c

/-- A table that a resident shared plate names (06 R171). -/
def sharedNames (s : State) (table : Nat) : Bool :=
  s.forme.resident.any (fun r => decide (1 < (bitsOf 8 r.partMask.toNat).length) && plateNames s r table [false, true])

/-- The check stages 2 to 7 of a REPLACE on the configuration `c` that stands staged. R64 names no stage for its further conditions:
TARGET_MASK, the section types and the shared parts are judged at stage 5, BASE_DIGEST and the header fields at stage 6 after them
(log entry 162). -/
def partialLoad (s : State) (c : Committed) (img : FormeImage) (len : Nat) : FormeFail ⊕ Committed :=
  let mask := s.forme.drained.toNat
  let n := partialConfig c img
  match firstFail [stageTwo img len 1, stageThreeFour s img,
      need (img.header.targetMask == s.forme.drained) 5 .malformed noSect,
      stageFiveSections img 8, partialSections c img mask,
      configCheck n (sectAt img), staticCheck s n false (sectAt img), need (sharedKept c n && entropyKept c img mask (sharedNames s)) 5 .malformed noSect,
      need (img.header.baseDigest == s.forme.base && sameHeader img.header c.header) 6 .formeMismatch noSect,
      stageSix s img.header c, capacityCheck s n] with
  | some f => .inl f
  | none => .inr n

end Sys2Proof.Machine
end

