-- ==== Sys2Proof/Machine/Forme.lean ====
section
/-!
DEFINITION. The FORME commands and their completions (02 R56 to R65).
-/

namespace Sys2Proof.Machine

/-- The command protocol of FORME_CTRL (02 R56): bits [5:0] are commands, one command runs at a time. -/
def formeCtl (w : CtlWrite) (own : Nat) (run : State → State) (s : State) : State :=
  ctl w false [0, 1, 2, 3, 4, 5] own (fun s => s.forme.running.isSome) formeCode id run s

/-- A command starts to run. -/
def formeRun (x : FormeCmd) (s : State) : State :=
  { s with forme := { s.forme with running := some x, runLen := s.forme.len.toNat } }

/-- A forme is committed and no command runs: PLATES, ACTIVE, DRAINING or REPLACING. -/
def formeHeld (s : State) : Bool := decide (2 ≤ s.forme.state.toNat) && decide (s.forme.state.toNat ≤ 5)

/-- LOAD: stage 1, then the image is read. -/
def loadStart (s : State) : State :=
  if s.forme.state = 0 then formeRun .load { s with forme := { s.forme with state := 1 } } else formeEnd .denied 1 noSect s

/-- FORME_CTRL.LOAD. -/
def execFormeLoad (w : CtlWrite) (s : State) : Out := .next (formeCtl w 0 loadStart s)

/-- The image of a LOAD has been read: stages 2 to 7, then commit; a failure leaves STATE EMPTY (02 R57, R58). -/
def loadRead (r : ImageRead) (s : State) : State :=
  let fail (f : FormeFail) : State := formeEnd f.code f.stage f.sect { s with forme := { s.forme with state := 0 } }
  match r with
  | .forme img =>
    match fullLoad s img s.forme.runLen with
    | .inl f => fail f
    | .inr c => formeEnd .ok 0 noSect (formeCommit c img s)
  | _ => fail { stage := 2, code := .malformed, sect := noSect }

/-- The image of a REPLACE has been read (02 R64, R65). -/
def replaceRead (r : ImageRead) (s : State) : State :=
  match r, s.forme.committed with
  | .forme img, some c =>
    (match partialLoad s (staged s c) img s.forme.runLen with
     | .inl f => formeEnd f.code f.stage f.sect s
     | .inr n => replaceCommit c n img s)
  | _, _ => formeEnd .malformed 2 noSect s

/-- The checks of a plate image, in order (02 R59). -/
def plateCheck (s : State) (img : PlateImage) : Status :=
  if !(decide (s.forme.runLen = 128 + img.storedLen.toNat + 3584) && img.magic == 0x4C504E44 && img.resv == 0 && img.sig.paddingZero)
    then .malformed
  else if !(img.sig.ed25519Ok && img.sig.mlDsaOk) then .integrity
  else match s.forme.committed with
    | none => .formeMismatch
    | some c => if (slotPlates (mySlot s).toNat c).any (fun x => x.digest == img.digest) then .ok else .formeMismatch

/-- The entries of this slot that a plate image satisfies. -/
def plateEntries (s : State) (img : PlateImage) : List PlateRef :=
  match s.forme.committed with
  | none => []
  | some c => (slotPlates (mySlot s).toNat c).filter (fun x => x.digest == img.digest && !s.forme.resident.contains x)

/-- The image of a PLATE has been read (02 R59). -/
def plateRead (r : ImageRead) (s : State) : State :=
  match r with
  | .plate img =>
    let c := plateCheck s img
    if c = .ok then
      let s := (plateEntries s img).foldl (fun s x =>
        plateStore x img.content { s with forme := { s.forme with resident := s.forme.resident ++ [x] } }) s
      platesMove (formeEnd .ok 0 noSect s)
    else formeAnswer c s
  | _ => formeAnswer .malformed s

/-- The DMA of FORME_SRC has ended, or failed: the running LOAD, PLATE or REPLACE goes on. -/
def formeImage (r : ImageRead) (s : State) : State :=
  match s.forme.running with
  | some .load => loadRead r s
  | some .plate => plateRead r s
  | some .replace => replaceRead r s
  | _ => s

/-- The DMA of FORME_SRC has ended: the running LOAD, PLATE or REPLACE goes on. -/
def execFormeImageReadDone (r : ImageRead) (s : State) : Out := .next (formeImage r s)

/-- FORME_CTRL.PLATE. -/
def execPlate (w : CtlWrite) (s : State) : Out :=
  .next (formeCtl w 5 (fun s => if formeHeld s then formeRun .plate s else formeAnswer .denied s) s)

/-- FORME_CTRL.UNLOAD (02 R61). -/
def execFormeUnload (w : CtlWrite) (s : State) : Out :=
  .next (formeCtl w 1 (fun s => if formeHeld s && recordsIdle s then unloadStart s else formeAnswer .denied s) s)

/-- The clear of an unload has ended (02 R61), once the commands that ran have finished (01 R20). -/
def execUnloadClearDone (s : State) : Out :=
  .next (if s.forme.running = some .unload && pressesEmpty s then formeAnswer .ok (unloadDone s) else s)

/-- FORME_REGION_MASK is the union of the region masks of one or more whole partitions (02 R63). -/
def wholeParts (s : State) : Bool :=
  match s.forme.committed with
  | none => false
  | some c =>
    let m := s.forme.regionMask.toNat
    m != 0 && ((targetParts c m).map (fun p => (Tab.find c.parts p).elim 0 (fun x => x.regionMask.toNat))).sum == m

/-- DRAIN is accepted: STATE is DRAINING and the resident PAUSED galleys are shelved (02 R63). -/
def drainStart (s : State) : State :=
  drainShelve (formeRun .drain { s with forme := { s.forme with state := 4, drained := s.forme.regionMask, drainDone := false } })

/-- FORME_CTRL.DRAIN. -/
def execDrain (w : CtlWrite) (s : State) : Out :=
  .next (formeCtl w 2 (fun s =>
    if s.forme.state ≠ 3 then formeAnswer .denied s
    else if wholeParts s then drainStart s else formeAnswer .malformed s) s)

/-- The drain completes once nothing is pending and the target regions are quiet (02 R63). -/
def execDrainComplete (s : State) : Out :=
  .next (if s.forme.running = some .drain && drainPend s = 0 && drainQuiet s then drainEnd s else s)

/-- A drained device, for REPLACE and RESUME. -/
def drainedNow (s : State) : Bool := s.forme.state == 4 && s.forme.drainDone

/-- FORME_CTRL.REPLACE (02 R64, R65: at GEN 255 it fails with DENIED). -/
def execReplace (w : CtlWrite) (s : State) : Out :=
  .next (formeCtl w 3 (fun s =>
    if drainedNow s && s.forme.gen != 255 then formeRun .replace s else formeAnswer .denied s) s)

/-- FORME_CTRL.RESUME (02 R65). -/
def execFormeResume (w : CtlWrite) (s : State) : Out :=
  .next (formeCtl w 4 (fun s => if drainedNow s then formeAnswer .ok (formeReopen s) else formeAnswer .denied s) s)

end Sys2Proof.Machine
end

