-- ==== Sys2Proof/Machine/Power.lean ====
section
/-!
DEFINITION. Power, resets, the orderly shutdown with its self-test, the thermal trip, and the energy governor
(18, 19; 17 R450).
-/

namespace Sys2Proof.Machine

/-! ### Power-good and start-up -/

/-- PWRGD is asserted: a cold start with CAUSE 0x1 (19 R478, 18 R459). -/
def execPwrgdAssert (b : BoardInputs) (s : State) : Out :=
  .next (if s.maint.pwrgd && s.maint.board.isSome then s
    else coldStart 1 b { s with maint := { s.maint with everReady := false } })

/-- PWRGD is deasserted: every on-chip state is lost, and only the board's store keeps its contents (19 R478). -/
def execPwrgdDeassert (s : State) : Out :=
  let off : State := {}
  .next { off with
    out := s.out, pending := s.pending, free := s.free
    maint := { off.maint with pwrgd := false, perst := s.maint.perst, testMode := s.maint.testMode }
    sec := { off.sec with store := s.sec.store } }

/-- A failed check of the boot: RECOVERY (15 R390, R392; 18 R458). -/
def execBootFailure (s : State) : Out :=
  .next (if s.maint.pwrgd && s.maint.phase = 0 && !s.dev.ready && bit s.maint.lastReset.maj 4 then
      { s with sec := { s.sec with boot := 2 }, maint := { s.maint with phase := 4 } }
    else s)

/-- The PCIe link comes up, at step 3 of a cold start or after a warm reset, once PERST# is deasserted (18 R459, 19 R478);
as PCIe Gen6 x16 in FLIT mode (16 R411). -/
def execPcieLinkUp (s : State) : Out :=
  .next (if s.maint.pwrgd && !s.maint.perst && s.sec.boot != 0 && !s.host.linkUp then
      { s with host := { s.host with linkUp := true } }
    else s)

/-- The control queue pair of a context, created when the context is enabled (11 R291). -/
def controlQp (ctx : FnId) (s : State) : State :=
  qpMake (2 * ctx.toNat) (newQp ctx 0 (BitVec.ofNat 64 ((fnHost s ctx).cqpHi.toNat * 2 ^ 32 + (fnHost s ctx).cqpLo.toNat)) noBlock s.tb) s

/-- Start-up is complete (18 R459 step 7): DEV_CAPS is written after a cold start, READY sets, PHASE is RUN, and firmware
creates its own queue pairs, the key queue pair among them (11 R291, 15 R401; log entry 40). -/
def startUp (s : State) : State :=
  let clusters := ((List.range 128).filter (goodCluster s)).length
  let caps := if bit s.maint.lastReset.maj 4 then BitVec.ofNat 32 (s.tier.good.length * 256 + clusters) else s.dev.caps
  let s := { s with
    dev := { s.dev with ready := true, caps := caps }
    maint := { s.maint with phase := 1, everReady := true, portSteps := 16 } }
  controlQp 0 (qpMake fwQp (newQp 0 0 0 noBlock s.tb) (qpMake keyQp (newQp 0 0 0 noBlock s.tb) s))

/-- READY. -/
def execReady (s : State) : Out :=
  .next (if s.maint.pwrgd && s.maint.phase = 0 && s.sec.boot = 1 then startUp s else s)

/-! ### Resets -/

/-- PERST# is asserted: the link goes down and a warm reset is requested; ignored while PWRGD is low, and a cold start is
not restarted (18 R460, R465; 19 R478). -/
def perstAsserted (s : State) : State :=
  let s := { s with maint := { s.maint with perst := true } }
  let held := match s.maint.after with
    | .thermalHold _ => true
    | _ => false
  if held then s
  else
    let s := if s.maint.phase = 0 && !s.maint.everReady then s else requestReset 2 s
    { s with host := { s.host with linkUp := false } }

/-- PERST#. -/
def execPerst (s : State) : Out := .next (if s.maint.pwrgd then perstAsserted s else s)

/-- PERST# is deasserted (19 R478). -/
def execPerstDeassert (s : State) : Out := .next { s with maint := { s.maint with perst := false } }

/-- CODE of MAINT_STATUS. -/
def maintCode (c : Status) (s : State) : State := { s with maint := { s.maint with code := codeOf c } }

/-- The command protocol of MAINT_CTRL (17 R442, R450). -/
def maintCtl (w : CtlWrite) (own : Nat) (run : State → State) (s : State) : State :=
  ctl w true [0, 1, 2] own (fun s => s.maint.busy) maintCode id run s

/-- MAINT_CTRL.WARM. -/
def execWarm (w : CtlWrite) (s : State) : Out := .next (maintCtl w 0 (fun s => requestReset 3 (maintCode .ok s)) s)

/-- MAINT_CTRL.CLR. -/
def execMaintClr (w : CtlWrite) (s : State) : Out :=
  .next (maintCtl w 2 (fun s => maintCode .ok { s with maint := { s.maint with imonPeak := 0, slope := 0 } }) s)

/-! ### Orderly shutdown (18 R466 to R470) -/

/-- The self-test budget in ms (18 R468). -/
def selftestBudget (s : State) : Nat :=
  match s.maint.lastLoad with
  | some (_, some b) => b
  | _ => 6000

/-- The grade is detailed (18 R469). -/
def detailedGrade (s : State) : Bool :=
  match s.maint.lastLoad with
  | some (n, _) => decide (n ≤ 64)
  | none => false

/-- Steps 1 and 2 of a shutdown: silence, then the unload of a loaded forme; PHASE is SHUTDOWN. -/
def shutdownStart (s : State) : State :=
  let s := { s with maint := { s.maint with silent := true, shutdownBegun := true, phase := 2, busy := true, slices := 0, sliceFail := 0
                                            stRun := 0, stFailed := 0 } }
  if s.forme.committed.isSome then unloadDone (unloadStart s) else s

/-- MAINT_CTRL.SHUTDOWN (18 R466). -/
def execShutdown (w : CtlWrite) (s : State) : Out :=
  .next (maintCtl w 1 (fun s =>
    if s.maint.phase = 1 && recordsIdle s then shutdownStart s else maintCode .denied s) s)

/-- SLICE_FAIL bit of the slice that runs: its order, or 27 for any LPDDR6 slice (18 *Repair record header*). -/
def sliceBit (s : State) : Nat := min s.maint.slices 27

/-- The last slice has run: every LPDDR6 slice once, or the next would end beyond the budget (18 R468). -/
def selftestOver (s : State) : Bool := decide (27 + 34 ≤ s.maint.slices) || decide (selftestBudget s < (s.maint.slices + 1) * 40)

/-- Steps 4 to 6 of a shutdown: the record with the results and the governed stop, whose end asserts SHUTDOWN_DONE (18 R466). -/
def shutdownEnd (s : State) : State :=
  let m := s.maint
  let s := writeRecord (fun r => { r with
    grade := if detailedGrade s then 2 else 1, run := m.stRun, failed := m.stFailed, sliceFail := m.sliceFail
    lpCursor := BitVec.ofNat 8 m.lpCursor }) s
  stopBegins false false { s with maint := { s.maint with after := .powerOff } }

/-- A self-test slice has ended (18 R467 to R469). -/
def sliceEnd (failed : Bool) (es : List RepairEntry) (s : State) : State :=
  let first := s.maint.stFailed == 0
  let b := sliceBit s
  let lp := if b = 27 then (s.maint.lpCursor + 1) % 34 else s.maint.lpCursor
  let s := { s with maint := { s.maint with
    slices := s.maint.slices + 1, lpCursor := lp, stRun := s.maint.stRun + 1
    stFailed := if failed then s.maint.stFailed + 1 else s.maint.stFailed
    sliceFail := if failed then s.maint.sliceFail ||| BitVec.ofNat 64 (2 ^ b) else s.maint.sliceFail } }
  let s := if failed && first then noteErr 15 0 0x034 s else s
  let s := if failed && detailedGrade s && !(b == 0 || b == 25 || b == 26) then
      (es.take 64).foldl (fun s e => addRepair { e with source := 0x02 } s) s
    else s
  if selftestOver s then shutdownEnd s else s

/-- SELFTEST_SLICE_END. -/
def execSelftestSliceEnd (failed : Bool) (es : List RepairEntry) (s : State) : Out :=
  .next (if s.maint.phase = 2 then sliceEnd failed es s else s)

/-! ### Fatal causes -/

/-- The self-test that runs stops: the results of completed slices are written with the record (18 R465). -/
def selftestStops (s : State) : State :=
  if s.maint.phase = 2 then
    let m := s.maint
    writeRecord (fun r => { r with
      grade := if detailedGrade s then 2 else 1, run := m.stRun, failed := m.stFailed, sliceFail := m.sliceFail
      lpCursor := BitVec.ofNat 8 m.lpCursor }) { s with maint := { s.maint with stAbort := true } }
  else s

/-- A frame of the firmware reserve was retired: fatal cause FW_RESERVE (07 R189, 17 R451). -/
def reserveStop (s : State) : State :=
  if s.tier.reserveBad then fatalStop 1 false (selftestStops { s with tier := { s.tier with reserveBad := false } }) else s

/-- A junction sensor reading; at 110 °C the trip fires (18 R464). -/
def thermal (temp : BitVec 16) (s : State) : State :=
  let s := { s with maint := { s.maint with
    tempNow := temp, tempPeak := if s.maint.tempPeak.toNat < temp.toNat then temp else s.maint.tempPeak } }
  if temp.toNat < 1760 then s else thermalStop (selftestStops s)

/-- THERMAL_TRIP. -/
def execThermalTrip (temp : BitVec 16) (s : State) : Out := .next (if s.maint.pwrgd then thermal temp s else s)

/-- The hold ends at 95 °C, and the reset of R463 follows with CAUSE 0x5. -/
def execThermalHoldEnd (temp : BitVec 16) (s : State) : Out :=
  .next (match s.maint.after with
    | .thermalHold cold =>
      let s := { s with maint := { s.maint with tempNow := temp } }
      if temp.toNat ≤ 1520 then doReset 5 cold true { s with maint := { s.maint with after := .none } } else s
    | _ => s)

/-- A control core makes no firmware progress for 100 ms: fatal cause WATCHDOG (17 R451). -/
def execWatchdog (s : State) : Out := .next (if s.maint.pwrgd then fatalStop 4 false (selftestStops s) else s)

/-- An uncorrectable error on a 2.5D bridge or the store-die bond: fatal cause BRIDGE (17 R451). -/
def execBridge (s : State) : Out := .next (if s.maint.pwrgd then fatalStop 5 false (selftestStops s) else s)

/-! ### The energy governor (18 R453 to R456) -/

/-- Ranks in the start schedule of the committed forme (18 R455). -/
def ranks (s : State) : Nat := if s.forme.committed.isNone then 0 else if fullGeom s then 16 else 15

/-- The start schedule is in progress. -/
def ramping (s : State) : Bool := s.maint.armed.isSome && decide (s.maint.rank < ranks s)

/-- Regions that carry work (02 R48). -/
def usedRegions (s : State) : List Nat :=
  match s.forme.committed with
  | none => []
  | some c => bitsOf 8 c.geometry.regionUse.toNat

/-- The clusters of rank `k`: position k of every used region (18 R455). -/
def rankClusters (s : State) (k : Nat) : List Nat :=
  (usedRegions s).filterMap (fun g =>
    if fullGeom s then (if goodCluster s (16 * g + k) then some (16 * g + k) else none)
    else (Tab.find s.repro.lmap (g * 16 + k)).map (fun q => 16 * g + q))

/-- The next rank is released at tick S + 160 × k. -/
def execRankRelease (s : State) : Out :=
  .next (match s.maint.armed with
    | some t =>
      if ramping s && decide (t + 160 * s.maint.rank ≤ s.tb) then
        let cs := rankClusters s s.maint.rank
        cs.foldl (fun s n => takeItem n s) <| sense { s with maint := { s.maint with
          rank := s.maint.rank + 1, claims := s.maint.claims ++ cs.filter (fun n => !s.maint.claims.contains n)
          claimWait := s.maint.claimWait.filter (fun n => !cs.contains n), lastStep := some s.tb
          idleSince := cs.foldl (fun t n =>
            if (cluster s n).item.isNone && (cluster s n).wqItems.isEmpty then Tab.put t n s.tb else t) s.maint.idleSince } }
      else s
    | none => s)

/-- A claim is granted (18 R456). -/
def execClaimGrant (s : State) : Out :=
  .next (match lowest s.maint.claimWait with
    | some n =>
      if s.maint.armed.isSome && !ramping s && stepFree s then
        takeItem n <| sense { s with maint := { s.maint with
          claims := n :: s.maint.claims.filter (fun m => m != n), claimWait := s.maint.claimWait.filter (fun m => m != n)
          lastStep := some s.tb } }
      else s
    | none => s)

/-- A cluster that has held no work item for 40,000 tb releases its claim; a waiting grant goes first (18 R456). -/
def execClaimRelease (cl : ClusterId) (s : State) : Out :=
  let n := cl.toNat
  .next (match Tab.find s.maint.idleSince n with
    | some t =>
      if s.maint.claims.contains n && decide (t + 40000 ≤ s.tb) && stepFree s && !ramping s && s.maint.claimWait.isEmpty then
        sense { s with maint := { s.maint with
          claims := s.maint.claims.filter (fun m => m != n), idleSince := Tab.del s.maint.idleSince n, lastStep := some s.tb } }
      else s
    | none => s)

end Sys2Proof.Machine
end

