-- ==== Sys2Proof/Machine/Requests.lean ====
section
/-!
DEFINITION. The commands of request state (08): admission messages, the member's append and seals, boundaries, tokens,
cancellation and retirement, pause, resume, copy-out, and the REQ and MOVER blocks.
-/

namespace Sys2Proof.Machine

/-- A message or event takes effect only while the device is not fenced (09 R260). -/
def unlessFenced (f : State → State) (s : State) : State := if fenced s then s else f s

/-- STAGE_ADMISSION (08 R219). -/
def execStageAdmission (m : StageAdmission) (s : State) : Out := .next (stageAdmission m s)

/-- CONFIRMATION (08 R219, R231, R232). -/
def execConfirmation (q : ReqId) (src : StageFrom) (pause : Option DropReport) (s : State) : Out :=
  .next (unlessFenced (confirmAt q src pause) s)

/-- A refusal: at the anchor of an admission or a resume, otherwise a release of what the admission took. An anchor that is a
device of a stage too releases its own part first. -/
def refusal (q : ReqId) (c : Status) (d : DevId) (s : State) : State :=
  match anchorOf s q, recLive s q with
  | some a, some r =>
    if a.accepted then resumeFailed q c d s
    else if a.refused.isSome && (r.view != 1 || (galleyOf s q).isSome) then releaseStage q s
    else refusalAt q c d s
  | _, _ => releaseStage q s

/-- STAGE_REFUSAL (08 R219, R232). -/
def execStageRefusal (q : ReqId) (c : CodeFrom) (s : State) : Out := .next (unlessFenced (refusal q c.code c.sender) s)

/-- APPEND: a member places a row of a writer (08 R213). -/
def execAppend (m : AppendMsg) (s : State) : Out :=
  .next (unlessFenced (fun s => (appendAt m.sender m.hdr m.row m.reads s).2) s)

/-- A page's seal completes: its digest goes to the partner, and a digest already received is compared (08 R216). A page whose
rows cannot be read is retired instead (07 R184, R191). -/
def sealDone (q : ReqId) (l p : Nat) (reads : ReadOutcome) (s : State) : State :=
  match galleyOf s q with
  | none => s
  | some g =>
    let x := pageOf g 0 l p
    if x.state = 1 && x.sealing then
      let (ok, s) := moverRead g [(0, l, p)] reads s
      if !ok then s else
      match sealPage q l p s with
      | none => s
      | some (d, s) =>
        copyCheck q (compareSeal q l p (mirrorSend g
          [.sealDigest (moverHdr s (partnerOr s) 0xD q) q (BitVec.ofNat 16 l) (BitVec.ofNat 32 p) d 0] .none s))
    else s

/-- SEAL_COMPLETE. -/
def execSealComplete (q : ReqId) (l : Nat) (p : WithReads Nat) (s : State) : Out := .next (sealDone q l p.val p.reads s)

/-- DROP_REPORT (08 R230). -/
def execDropReport (r : DropReport) (s : State) : Out := .next (unlessFenced (dropReportAt r) s)

/-- The swap of a hand-over waits for its answer. -/
def swapOutstanding (q : ReqId) (s : State) : Bool :=
  let mine (w : TrayWhy) : Bool := match w with
    | .handover x => x == q
    | _ => false
  s.near.dst.any (fun e => e.2.out.any (fun o => mine o.why) || e.2.waiting.any (fun w => mine w.2))

/-- The hand-over's swap is not answered within 64 µs: it is repeated at the partner, once the serving member is excluded, which ends
the swap sent to it, and the partner serves (08 R223). -/
def handoverRetry (q : ReqId) (s : State) : State :=
  match recLive s q, s.req.handovers.find? (fun h => h.req == q) with
  | some r, some h =>
    match h.casAt with
    | none => s
    | some t =>
      if decide (t + 40000 ≤ s.tb) && slotLive s (r.servingSlot.toNat % 16) && !swapOutstanding q s then
        ownerSwap q h.dest (.handover q) { s with req := { s.req with
          handovers := s.req.handovers.map (fun h => if h.req = q then { h with casAt := some s.tb } else h) } }
      else s
  | _, _ => s

/-- HANDOVER_TIMEOUT. -/
def execHandoverTimeout (q : ReqId) (s : State) : Out := .next (unlessFenced (handoverRetry q) s)

/-- STEP_BOUNDARY (08 R218); a frame of the firmware reserve that was retired stops the device (07 R189). -/
def execStepBoundary (es : List StepEnd) (s : State) : Out := .next (reserveStop (stepBoundary es s))

/-- A token at the stage-0 owner becomes PENDING; at the anchor it is emitted (08 R227). -/
def tokenAt (m : TokenMsg) (s : State) : State :=
  let s := match recLive s m.req with
    | some r =>
      if ownerView r && r.stage = 0 then recUpd m.req (fun r => { r with pending := m.tokens.getLast?.getD r.pending }) s
      else s
    | none => s
  anchorToken m s

/-- TOKEN. -/
def execToken (m : TokenMsg) (s : State) : Out := .next (unlessFenced (tokenAt m) s)

/-- A cancellation at a stage: pending at its owner until the boundary, at once in ADMITTED and PAUSED, after the recall
in RESUMING (08 R228). A device that may become the owner keeps it; a RETIRED request is left as it is, and one that this device
does not know is answered with STATE_LOST (R209). -/
def cancelStage (q : ReqId) (s : State) : State :=
  match recLive s q with
  | none => unknownReq q s
  | some r =>
    if ownerView r then
      let s := recUpd q (fun r => { r with flags := r.flags ||| 4 }) s
      if r.state = 1 || r.state = 5 || r.state = 6 then stageDrop q .cancelled s else s
    else if anchorView r then s
    else addCond q .cancelled s

/-- CANCELLATION. -/
def execCancellation (q : ReqId) (s : State) : Out := .next (unlessFenced (cancelStage q) s)

/-- A retirement: the anchor forwards it to every stage, or re-prefills a request both of whose copies are lost; a stage
acts at its next boundary (08 R218, R229, R235). -/
def retirement (q : ReqId) (c : Status) (s : State) : State :=
  match anchorOf s q, recLive s q with
  | some a, some r =>
    if a.code.isNone || (a.code == some .cancelled && c != .cancelled) then
      if c = .stateLost && reprefillHeld q r s && a.code.isNone then anchorReprefill q 4 s
      else if a.code.isNone then anchorEnd q c s
      else endStage q c (anchorUpd q (fun a => { a with code := firstCode [.cancelled, c] }) s)
    else endStage q c s
  | _, _ => unknownReq q (endStage q c s)

/-- RETIREMENT. -/
def execRetirement (q : ReqId) (c : Status) (s : State) : Out := .next (unlessFenced (retirement q c) s)

/-! ### The REQ and MOVER registers (08 R238, R239) -/

/-- REQ_STATUS.CODE. -/
def reqCode (c : Status) (s : State) : State := { s with req := { s.req with code := codeOf c } }

/-- REQ_CTRL under R441 and R442. -/
def reqCtl (w : CtlWrite) (own : Nat) (run : State → State) (s : State) : State :=
  ctl w false [0, 1, 2] own (fun s => s.req.busy) reqCode id run s

/-- CANCEL and PAUSE act on the anchor's record in REQ_SEL: a RETIRED record gives its STATUS, another record DENIED. -/
def reqOnSel (act : ReqId → State → State) (s : State) : State :=
  match Tab.find s.req.recs s.req.sel.toNat with
  | none => reqCode .denied s
  | some r =>
    if r.state = 8 then { s with req := { s.req with code := r.status } }
    else if anchorView r then reqCode .ok (act r.reqId s)
    else reqCode .denied s

/-- REQ_CTRL.CANCEL (08 R228, R238). -/
def execCancel (w : CtlWrite) (s : State) : Out := .next (reqCtl w 0 (reqOnSel anchorCancel) s)

/-- REQ_CTRL.PAUSE (08 R231, R238). -/
def execPause (w : CtlWrite) (s : State) : Out := .next (reqCtl w 1 (reqOnSel anchorPause) s)

/-- REQ_CTRL.CLR (08 R238). -/
def execReqClr (w : CtlWrite) (s : State) : Out :=
  .next (reqCtl w 2 (fun s => reqCode .ok { s with req := { s.req with reprefill := 0, lost := 0, specAcc := 0, specRej := 0 } }) s)

/-- MOVER_CTRL.CLR: MOVER_APPENDS to MOVER_DIGEST_ERR (08 R239); the block has no CODE. -/
def execMoverClr (w : CtlWrite) (s : State) : Out :=
  .next (ctl w false [0] 0 (fun _ => false) (fun _ s => s) id (fun s => { s with req := { s.req with
    appends := 0, dups := 0, seals := 0, commits := 0, handoverCount := 0, shelves := 0, recalls := 0, drops := 0
    copyoutCount := 0, digestErr := 0 } }) s)

/-! ### Pause, shelve, recall (08 R231; 07 R196) -/

/-- A paused galley's hold time is over: it is shelved by its serving member (08 R231). -/
def holdExpiry (q : ReqId) (s : State) : State :=
  match galleyOf s q with
  | none => s
  | some g =>
    match g.pausedAt with
    | none => s
    | some t =>
      if g.serving = mySlot s && g.op = .idle && !isShelved g && decide (t + s.req.hold * Config.tbPerMs ≤ s.tb) then
        shelveStart q false s
      else s

/-- PAUSE_HOLD_EXPIRY. -/
def execPauseHoldExpiry (q : ReqId) (s : State) : Out := .next (unlessFenced (holdExpiry q) s)

/-- SHELVE_COMPLETE: the shelve in progress has written its frames (07 R196); a drop or resume that waited goes on. -/
def execShelveComplete (q : WithReads ReqId) (s : State) : Out :=
  .next (match galleyOf s q.val with
    | some g => if g.op = .shelving then afterShelf q.val (shelveDone q.val q.reads s) else s
    | none => s)

/-- RESUME_STAGE (08 R232). -/
def execResumeStage (m : StageResume) (s : State) : Out := .next (resumeStage m s)

/-- A recall has read every frame: with good tags the galley is rebuilt and what waited goes on; a tag failure ends the
request with INTEGRITY (07 R196, R198). -/
def recallEnd (q : ReqId) (tagsOk : Bool) (s : State) : State :=
  match galleyOf s q with
  | none => s
  | some g =>
    match g.op with
    | .recalling _ =>
      if tagsOk then afterShelf q (recallDone q s)
      else
        let s := galleyUpd q (fun g => { g with op := .idle, resume := none }) s
        if g.dropAfter then memberDrop q s else reportEnd q .integrity s
    | _ => s

/-- RECALL_COMPLETE. -/
def execRecallComplete (q : ReqId) (tagsOk : Bool) (s : State) : Out := .next (recallEnd q tagsOk s)

/-! ### Copy-out (08 R234) -/

/-- The pages a copy-out sends: sealed pages, thumb pages and the committed tail, in parts of 2,048 bytes (10 R273). -/
def copyoutParts (s : State) (g : Galley) : List PagePart :=
  ((shelfContent g).map (fun x =>
    let bytes := shelfImage s g x.1 x.2.1 x.2.2.1 x.2.2.2
    let d := Config.sha384 bytes
    let cs := chunks 2048 33 bytes
    (List.range cs.length).map (fun i =>
      ({ req := g.reqId, layer := BitVec.ofNat 16 x.2.1, kind := BitVec.ofNat 8 x.1, partNo := i
         lastPart := i + 1 == cs.length, lpage := BitVec.ofNat 32 x.2.2.1, bytes := cs.getD i [], digest := d } : PagePart)))).flatten

/-- The admission that creates the galley on the destination pair, under its own quotas. -/
def copyoutAdmission (s : State) (g : Galley) (r : Rec) (dest : DevId) : StageAdmission :=
  { req := g.reqId, stage := r.stage, tenant := g.tenant, part := g.part, context := r.context, priority := r.priority
    anchor := r.anchor, epoch := r.epoch, deadline := r.deadline, promptLen := BitVec.ofNat 32 r.promptLen
    maxLen := BitVec.ofNat 32 r.maxLen, ttl := r.ttl, flags := BitVec.ofNat 2 r.flags.toNat
    modelDigest := s.forme.committed.elim 0 (fun f => f.header.modelDigest)
    route := List.replicate (r.stage.toNat + 1)
      { prompt := BitVec.ofNat 16 (myDev s).toNat, gen := BitVec.ofNat 16 (myDev s).toNat, pair := BitVec.ofNat 16 dest.toNat, resv := 0 }
    lower := .ok, upper := .ok, genAns := .ok, firstLayer := g.firstLayer, byGen := false, copy := some (recUpdate r), resv := 0 }

/-- COPYOUT of a PAUSED, resident galley that this member serves (08 R234). A galley that cannot be read is not copied (07 R191). -/
def copyoutStart (q : ReqId) (dest : DevId) (reads : ReadOutcome) (s : State) : State :=
  match galleyOf s q, recLive s q with
  | some g, some r =>
    if r.state = 5 && g.serving = mySlot s && g.op = .idle && !isShelved g && !(s.req.copyouts.any (fun c => c.req == q)) then
      let (ok, s) := moverRead g ((shelfContent g).map (fun x => (x.1, x.2.1, x.2.2.1))) reads s
      if !ok then { s with req := { s.req with copyoutCode := some (q, .integrity) } } else
      let m := copyoutAdmission s g r dest
      let both : List DevId := [dest, BitVec.ofNat 12 (dest.toNat / 16 * 16 + (dest.toNat + 1) % 16)]
      let s := { s with req := { s.req with copyouts := s.req.copyouts ++ [{ req := q, dest := dest }] } }
      let s := both.foldl (fun s d => sendFw d r.epoch (.stageAdmission m) s) s
      let parts := copyoutParts s g
      let s := meterT1 g.tenant (parts.map (fun p => p.bytes.length)).sum s
      parts.foldl (fun s p => both.foldl (fun s d => sendFw d r.epoch (.copyPage p) s) s) s
    else s
  | _, _ => s

/-- COPYOUT. -/
def execCopyout (q : ReqId) (dest : WithReads DevId) (s : State) : Out :=
  .next (unlessFenced (copyoutStart q dest.val dest.reads) s)

/-- The destination confirms every page MIRRORED, and the source drops its galley on both members; a failure leaves the
source intact, and the COPYOUT completes with the destination's code (08 R234). -/
def copyoutEnd (q : ReqId) (c : Status) (s : State) : State :=
  if s.req.copyouts.any (fun x => x.req == q) then
    let s := { s with req := { s.req with
      copyouts := s.req.copyouts.filter (fun x => x.req != q), copyoutCode := some (q, c) } }
    match galleyOf s q with
    | some g =>
      if c = .ok then
        let s := freeGalley q { s with req := { s.req with copyoutCount := satInc s.req.copyoutCount } }
        recFree q (mirrorSend g [.drop (moverHdr s (partnerOr s) 0xD q) q] .none s)
      else s
    | none => s
  else s

/-- COPYOUT_COMPLETE. -/
def execCopyoutComplete (q : ReqId) (c : Status) (s : State) : Out := .next (unlessFenced (copyoutEnd q c) s)

end Sys2Proof.Machine
end

