-- ==== Sys2Proof/Machine/Tray.lean ====
section
/-!
DEFINITION. The commands of the tray fabric (10), and the state-mover operations and galley-word swaps that arrive over it
(08 R222, R273).
-/

namespace Sys2Proof.Machine

/-! ### Requests at their home (R276, R288) -/

/-- TRAY_LOAD. -/
def execTrayLoad (h : TrayHdr) (reads : ReadOutcome) (s : State) : Out := .next (homeArrive (.load h reads) s)

/-- TRAY_STORE. -/
def execTrayStore (h : TrayHdr) (data : WithReads (List Byte)) (s : State) : Out :=
  .next (homeArrive (.store h data.val data.reads) s)

/-- TRAY_APPEND. -/
def execTrayAppend (h : TrayHdr) (a : AppendHdr) (row : WithReads (List Byte)) (s : State) : Out :=
  .next (homeArrive (.append h a row.val row.reads) s)

/-- CHMSG. -/
def execChmsg (h : TrayHdr) (msg : List Byte) (s : State) : Out := .next (homeArrive (.chmsg h msg) s)

/-- COMMIT. -/
def execCommit (h : TrayHdr) (q : ReqId) (newLen step : Word) (u : WithReads RecordUpdate) (s : State) : Out :=
  .next (homeArrive (.commit h q newLen step u.val u.reads) s)

/-- SEAL_DIGEST. -/
def execSealDigest (h : TrayHdr) (q : ReqId) (layer : BitVec 16) (lpage : Word) (d : SealBody) (s : State) : Out :=
  .next (homeArrive (.sealDigest h q layer lpage d.digest d.resv) s)

/-- OWNER_FWD. -/
def execOwnerFwd (h : TrayHdr) (q : ReqId) (word : DWord) (s : State) : Out := .next (homeArrive (.ownerFwd h q word) s)

/-- MAP_WRITE. -/
def execMapWrite (h : TrayHdr) (q : ReqId) (off : Word) (bytes : List Byte) (s : State) : Out :=
  .next (homeArrive (.mapWrite h q off bytes) s)

/-- RECORD. -/
def execRecord (h : TrayHdr) (q : ReqId) (u : RecordUpdate) (s : State) : Out := .next (homeArrive (.record h q u) s)

/-- DROP. -/
def execDrop (h : TrayHdr) (q : ReqId) (s : State) : Out := .next (homeArrive (.drop h q) s)

/-- PAGE. -/
def execPage (h : TrayHdr) (p : PagePart) (s : State) : Out := .next (homeArrive (.page h p) s)

/-- CKPT. -/
def execCkpt (h : TrayHdr) (n : Word) (cursor : ReqId) (page : Word) (s : State) : Out :=
  .next (homeArrive (.ckpt h n cursor page) s)

/-- SILVER_SETUP. -/
def execSilverSetup (h : TrayHdr) (qs : List QuotaCopy) (ls : List LatentSlotCopy) (s : State) : Out :=
  .next (homeArrive (.silverSetup h qs ls) s)

/-- OWNER_WORD_CAS. -/
def execOwnerWordCas (h : TrayHdr) (q : ReqId) (cmp new : DWord) (s : State) : Out :=
  .next (homeArrive (.ownerCas h q cmp new) (atomicWaits s))

/-! ### Notices and responses -/

/-- CREDIT (R272). -/
def execCredit (h : TrayHdr) (count : Word) (s : State) : Out := .next (unlessFenced (creditAt h count) s)

/-- LSTATE (R268, R286). -/
def execLstate (h : TrayHdr) (links : BitVec 15) (role : Byte) (model : Digest) (s : State) : Out :=
  .next (unlessFenced (lstateAt h links role model) s)

/-- RESP (R266, R287). -/
def execResp (h : TrayHdr) (payload : WithReads (List Byte)) (s : State) : Out := .next (unlessFenced (respAt h payload) s)

/-- TRAY_RESPONSE_TIMEOUT (R266). -/
def execTrayResponseTimeout (d : Slot) (seq : Word) (s : State) : Out := .next (unlessFenced (noResponse d.toNat seq.toNat) s)

/-- TRAY_FORWARD (R287). -/
def execTrayForward (p : FwdPacket) (s : State) : Out := .next (unlessFenced (forwardAt p) s)

/-! ### The NEAR block (R289, R290) -/

/-- A link follows its bit of NEAR_DISABLE (R289): an UP link drains; a link taken back into service before it drained is
UP again, and one that was DISABLED is DOWN until it trains. -/
def nearFollow (k : Nat) (off : Bool) (s : State) : State :=
  let st := (link s k).state
  if off && st == 2 then linkUpd k (fun l => { l with state := 4 }) s
  else if off && (st == 0 || st == 1 || st == 3) then linkUpd k (fun l => { l with state := 5 }) s
  else if !off && st == 4 then linkUpd k (fun l => { l with state := 2 }) s
  else if !off && st == 5 then linkUpd k (fun l => { l with state := 0 }) s
  else s

/-- NEAR_DISABLE takes a value: new traffic leaves the links disabled, each is DISABLED once nothing is outstanding on it,
and the peers learn of the change (R286, R289). -/
def nearDisableSet (v : Word) (s : State) : State :=
  let s' := { s with near := { s.near with disable := v.extractLsb' 0 15 } }
  let s' := nearDrained ((List.range 15).foldl (fun s k => nearFollow k (bit v k) s) s')
  if v.extractLsb' 0 15 = s.near.disable then s' else sendLstate (creditsRepath s s')

/-- NEAR_DISABLE: a write of the physical function. -/
def execNearDisable (fn : FnId) (v : Word) (s : State) : Out :=
  .next (if pfLive s fn false then nearDisableSet v s else s)

/-- The counters that NEAR_CTRL.CLR clears (R290). -/
def nearClear (s : State) : State :=
  { s with near := { s.near with
      timeout := 0, resent := 0, dups := 0, stale := 0, denied := 0, fwd := 0, atomicHw := 0, retry := 0 } }

/-- NEAR_CTRL.CLR. The block has no CODE field. -/
def execNearClr (w : CtlWrite) (s : State) : Out :=
  .next (ctl w false [0] 0 (fun _ => false) (fun _ s => s) id nearClear s)

end Sys2Proof.Machine
end

