-- ==== Sys2Proof/Machine/Rma.lean ====
section
/-!
DEFINITION. The commands of the remote-access engine (11) and the atomic unit (10 R279 to R282).
-/

namespace Sys2Proof.Machine

/-! ### Taking a work request (11 R298, R316) -/

/-- The fields of a WR, numbered: 0 OP, 1 RIGHTS, 2 DST_DEV, 3 DST_QP, 4 RKEY, 5 REMOTE_OFF, 6 LKEY, 7 LEN, 8 LOCAL_OFF,
9 OPERAND, 10 OPERAND2. -/
def wrFields (w : WorkReq) : List Nat :=
  [w.op.toNat, w.rights.toNat, w.dstDev.toNat, w.dstQp.toNat, w.rkey.toNat, w.remoteOff.toNat, w.lkey.toNat, w.len.toNat,
    w.localOff.toNat, w.operand.toNat, w.operand2.toNat]

/-- Every field outside `keep` is zero, with the reserved fields and FLAGS[7:2]. -/
def wrOnly (w : WorkReq) (keep : List Nat) : Bool :=
  w.resv == 0 && decide (w.flags.toNat < 4) && (wrFields w).zipIdx.all (fun f => keep.contains f.2 || f.1 == 0)

/-- The shape of a data WR on a queue pair of kind `k` (11 R298; a device-owned SEND carries its tag, *Firmware traffic*). -/
def wrShape (k : Nat) (w : WorkReq) : Bool :=
  k != 0 && decide (w.dstDev.toNat < 4096) && decide (w.dstQp.toNat < 2 ^ 20) &&
  (match w.opcode.toNat with
   | 1 | 2 => wrOnly w [2, 3, 4, 5, 6, 7, 8] && decide (1 ≤ w.len.toNat) && decide (w.len.toNat ≤ 16777216)
   | 3 => wrOnly w (if field w.op.toNat 3 0 = 4 then [0, 2, 3, 4, 5, 7, 9, 10] else [0, 2, 3, 4, 5, 7, 9]) && opOk w.op
       && decide (w.len.toNat = atomicWidth w.op)
   | 4 => wrOnly w [2, 3, 6, 7, 8] && decide (1 ≤ w.len.toNat) && decide (w.len.toNat ≤ if k = 1 then 4080 else 4096)
   | _ => false)

/-- A WR that fails its local check: it completes with the code, and its queue pair is in ERROR (11 R316). -/
def wrFails (q : Nat) (w : WorkReq) (c : Status) (s : State) : State :=
  match qpOf s q with
  | none => s
  | some x => qpError q (some x.wrs.length) c (qpUpd q (fun x => { x with wrs := x.wrs ++ [{ newWr q w [] with todo := [] }] }) s)

/-- An OPCODE of R298. -/
def knownOp (n : Nat) : Bool := (decide (1 ≤ n) && decide (n ≤ 4)) || (decide (0x80 ≤ n) && decide (n ≤ 0x87))

/-- Take the next WR of queue pair `c.qp`, of opcode `op`: from its send ring, or as firmware posts it on a device-owned
queue pair. A context that is not on chip is fetched first (11 R312). A WR of an unknown OPCODE is taken as well, and is malformed
(R316). -/
def wrTake (op : Nat) (c : WrCmd) (run : Qp → State → State) (s : State) : State :=
  let q := c.qp.toNat
  if fenced s || (c.wr.opcode.toNat ≠ op && knownOp c.wr.opcode.toNat) then s else
  match qpOf s q with
  | none => s
  | some x =>
    let ring := qpKind q ≠ 1
    if !x.ready || (ring && (x.sendCons == x.sendProd || !fnDma s x.ctx)) then s
    else if !x.resident then fetchStart q s
    else run x (if ring then qpUpd q (fun x => { x with sendCons := x.sendCons + 1 }) s else s)

/-- The bytes a WR takes from its LKEY, as it is taken: host memory as its DMA read it, a T1 region through its partition. A T1 read that
fails ends the WR with INTEGRITY (07 R184; log entry 208). -/
def wrBytes (c : WrCmd) (s : State) : Option Status × List Byte × State :=
  let w := c.wr
  if w.opcode = 0x02 || w.opcode = 0x03 then (none, c.data, s) else
  match regionOf s w.lkey with
  | none => (none, c.data, s)
  | some r =>
    match r.t1 with
    | none => (none, c.data, s)
    | some p =>
      let (ok, s) := readOutcome (seenOutcome s (.t1 (partAddr s p.toNat + r.base.toNat + w.localOff.toNat)) w.len.toNat c.reads) s
      if ok then
        let (b, s) := regionRead r w.localOff.toNat w.len.toNat [] s
        (none, b, s)
      else (some .integrity, [], s)

/-- A data WR with its local checks (11 R316): shape, then LKEY, then absent local pages. -/
def wrData (c : WrCmd) (x : Qp) (s : State) : State :=
  let q := c.qp.toNat
  let w := c.wr
  if !wrShape (qpKind q) w then wrFails q w .malformed s
  else
    match (if w.opcode = 0x03 then none
      else regionCheck s w.lkey x.pd (if w.opcode = 0x02 then some 0 else none) w.localOff.toNat w.len.toNat) with
    | some e => wrFails q w e s
    | none =>
      let gone := excluded s (w.dstDev.toNat % 4096)
      match wrBytes c s with
      | (some e, _, s) => wrFails q w e s
      | (none, data, s) =>
      let st : WrState := if gone then { newWr q w data with done := some .epochStale, todo := [] } else newWr q w data
      let s := qpUpd q (fun x => { x with wrs := x.wrs ++ [st], used := s.tb }) s
      qpFlush q (qpSend q (if gone then s else wrHold q x.wrs.length s))

/-- WRITE_WR. -/
def execWriteWr (c : WrCmd) (s : State) : Out := .next (wrTake 0x01 c (wrData c) s)

/-- READ_WR. -/
def execReadWr (c : WrCmd) (s : State) : Out := .next (wrTake 0x02 c (wrData c) s)

/-- ATOMIC_WR. -/
def execAtomicWr (c : WrCmd) (s : State) : Out := .next (wrTake 0x03 c (wrData c) s)

/-- SEND_WR. -/
def execSendWr (c : WrCmd) (s : State) : Out := .next (wrTake 0x04 c (wrData c) s)

/-! ### Control work requests (11 R298) -/

/-- A control WR completes with a code and a result. -/
def ctlDone (q : Nat) (w : WorkReq) (c : Status) (v : Nat) (s : State) : State :=
  qpFlush q (qpUpd q (fun x => { x with
    wrs := x.wrs ++ [{ newWr q w [] with todo := [], done := some c, value := BitVec.ofNat 64 v }], used := s.tb }) s)

/-- A control WR on a control queue pair: a malformed one puts it in ERROR (R316). -/
def ctlWr (op : Nat) (keep : List Nat) (c : WrCmd) (run : Qp → State → State) (s : State) : State :=
  wrTake op c (fun x s =>
    if qpKind c.qp.toNat = 0 && wrOnly c.wr keep && knownOp c.wr.opcode.toNat then run x s else wrFails c.qp.toNat c.wr .malformed s) s

/-- PD `p` belongs to the context (11 R293). -/
def ownsPd (s : State) (p ctx : Nat) : Bool := Tab.find s.rma.pds p == some ctx

/-- The device's contexts and host queue pairs of a context. -/
def ownsQp (s : State) (q ctx : Nat) : Option Qp :=
  match qpOf s q with
  | none => none
  | some x => if qpKind q = 2 && x.ctx.toNat = ctx then some x else none

/-- PD_ALLOC: the lowest free number (log entry 64). -/
def pdAlloc (c : WrCmd) (x : Qp) (s : State) : State :=
  match Tab.freshFrom s.rma.pds 4095 1 with
  | none => ctlDone c.qp.toNat c.wr .quota 0 s
  | some p => ctlDone c.qp.toNat c.wr .ok p { s with rma := { s.rma with pds := Tab.put s.rma.pds p x.ctx.toNat } }

/-- PD_ALLOC. -/
def execPdAlloc (c : WrCmd) (s : State) : Out := .next (ctlWr 0x80 [] c (pdAlloc c) s)

/-- PD_FREE: DENIED while a queue pair or region uses it. -/
def pdFree (c : WrCmd) (x : Qp) (s : State) : State :=
  let p := c.wr.dstDev.toNat
  if !ownsPd s p x.ctx.toNat || s.rma.qps.any (fun e => e.2.pd == p) || s.rma.regions.any (fun e => e.2.valid && e.2.pd == p)
  then ctlDone c.qp.toNat c.wr .denied 0 s
  else ctlDone c.qp.toNat c.wr .ok 0 { s with rma := { s.rma with pds := Tab.del s.rma.pds p } }

/-- PD_FREE. -/
def execPdFree (c : WrCmd) (s : State) : Out := .next (ctlWr 0x81 [2] c (pdFree c) s)

/-- A ring block of R427 (16). -/
def blockOk (addr : DWord) (b : RingBlock) : Bool :=
  let log (v : Byte) : Bool := decide (6 ≤ v.toNat) && decide (v.toNat ≤ 15)
  addr.toNat % 64 == 0 && log b.sendLog && log b.recvLog && log b.cqLog && decide (8 ≤ b.vector.toNat)
    && decide (b.vector.toNat ≤ 31) && b.resv == 0

/-- Host-owned queue-pair numbers end here (11 R291). -/
def qpLimit (s : State) : Nat := if s.rma.bound then s.rma.backed else 8192

/-- QP_CREATE: the lowest free number (log entry 64). -/
def qpCreate (c : WrCmd) (b : RingBlock) (x : Qp) (s : State) : State :=
  let q := c.qp.toNat
  if !ownsPd s c.wr.dstDev.toNat x.ctx.toNat then ctlDone q c.wr .denied 0 s
  else if !blockOk c.wr.remoteOff b then wrFails q c.wr .malformed s
  else
    match Tab.freshFrom s.rma.qps (qpLimit s - 2048) 2048 with
    | none => ctlDone q c.wr .quota 0 s
    | some n =>
      ctlDone q c.wr .ok n (qpMake n (newQp x.ctx c.wr.dstDev.toNat c.wr.remoteOff b s.tb) s)

/-- QP_CREATE. -/
def execQpCreate (c : WrCmd) (b : RingBlock) (s : State) : Out := .next (ctlWr 0x82 [2, 5] c (qpCreate c b) s)

/-- QP_DESTROY: DENIED while a WR is outstanding, taken or still in the send ring of a queue pair that takes from it (11 R294). -/
def qpDestroy (c : WrCmd) (x : Qp) (s : State) : State :=
  let n := c.wr.dstQp.toNat
  match ownsQp s n x.ctx.toNat with
  | none => ctlDone c.qp.toNat c.wr .denied 0 s
  | some y =>
    if !y.wrs.isEmpty || (y.ready && y.sendProd != y.sendCons) then ctlDone c.qp.toNat c.wr .denied 0 s
    else ctlDone c.qp.toNat c.wr .ok 0 { s with rma := { s.rma with qps := Tab.del s.rma.qps n } }

/-- QP_DESTROY. -/
def execQpDestroy (c : WrCmd) (s : State) : Out := .next (ctlWr 0x83 [3] c (qpDestroy c) s)

/-- QP_RESET. -/
def qpReset (c : WrCmd) (x : Qp) (s : State) : State :=
  let n := c.wr.dstQp.toNat
  match ownsQp s n x.ctx.toNat with
  | none => ctlDone c.qp.toNat c.wr .denied 0 s
  | some y => if y.ready then ctlDone c.qp.toNat c.wr .denied 0 s else ctlDone c.qp.toNat c.wr .ok 0 (qpRearm n s)

/-- QP_RESET. -/
def execQpReset (c : WrCmd) (s : State) : Out := .next (ctlWr 0x84 [3] c (qpReset c) s)

/-- Page bytes of RIGHTS[5:4]; none for the reserved code (11 R298). -/
def pageOfRights (r : Byte) : Option Nat :=
  match field r.toNat 5 4 with
  | 0 => some 4096
  | 1 => some 65536
  | 2 => some (2 * 1024 * 1024)
  | _ => none

/-- The index a registration takes: the one deregistered longest ago, else one never used (11 R297; log entry 181). -/
def takeIndex (s : State) : Option (Nat × State) :=
  match s.rma.freed with
  | i :: rest => some (i, { s with rma := { s.rma with freed := rest } })
  | [] => if s.rma.fresh < 262144 then some (s.rma.fresh, { s with rma := { s.rma with fresh := s.rma.fresh + 1 } }) else none

/-- Put a region at a free index: its EPOCH is the previous one + 1 (11 R297). -/
def regionPut (q : Nat) (w : WorkReq) (mk : Byte → Region) (s : State) : State :=
  match takeIndex s with
  | none => ctlDone q w .quota 0 s
  | some (i, s) =>
    let e : Byte := (Tab.find s.rma.regions i).elim 1 (fun r => r.epoch + 1)
    ctlDone q w .ok (e.toNat * 2 ^ 24 + i) { s with rma := { s.rma with regions := Tab.put s.rma.regions i (mk e) } }

/-- REG_REGION of a host function (11 R296, R297); a malformed one puts the control queue pair in ERROR (R316). -/
def regHost (c : WrCmd) (x : Qp) (s : State) : State :=
  let q := c.qp.toNat
  let w := c.wr
  match pageOfRights w.rights with
  | none => wrFails q w .malformed s
  | some pg =>
    if w.rights.toNat.testBit 7 || w.rights.toNat.testBit 3 || w.remoteOff.toNat % pg ≠ 0 || w.operand.toNat % pg ≠ 0
      || w.operand = 0 then wrFails q w .malformed s
    else if !ownsPd s w.dstDev.toNat x.ctx.toNat then ctlDone q w .denied 0 s
    else regionPut q w (fun e =>
      { epoch := e, valid := true, pd := w.dstDev.toNat, ctx := x.ctx, base := w.remoteOff, len := w.operand.toNat
        rights := w.rights.extractLsb' 0 4, page := pg, onDemand := w.rights.toNat.testBit 6, present := [], t1 := none }) s

/-- The partition and offset of a T1 range that firmware may register (11 R296). -/
def t1Range (s : State) (a n : Nat) : Option (Nat × Nat) :=
  ((List.range 8).find? (fun p => decide (partAddr s p ≤ a) && inPartition s p (a - partAddr s p) n
    && (Tab.find s.forme.partBase p).isSome)).bind (fun p =>
      let off := a - partAddr s p
      if inPool s p off || readOnly s p off n then none else some (p, off))

/-- REG_REGION that firmware posts on a device-owned queue pair: a T1 region of PD 0 (11 R293, R296; log entry 61). -/
def regT1 (c : WrCmd) (s : State) : State :=
  let q := c.qp.toNat
  let w := c.wr
  if !wrOnly w [1, 5, 9] || !knownOp w.opcode.toNat || w.rights.toNat.testBit 6 || w.rights.toNat.testBit 7 then wrFails q w .malformed s
  else
    match t1Range s w.remoteOff.toNat w.operand.toNat with
    | none => ctlDone q w .denied 0 s
    | some (p, off) =>
      regionPut q w (fun e =>
        { epoch := e, valid := true, pd := 0, ctx := 0, base := BitVec.ofNat 64 off, len := w.operand.toNat
          rights := w.rights.extractLsb' 0 4, page := 0, onDemand := false, present := [], t1 := some (BitVec.ofNat 3 p) }) s

/-- REG_REGION. -/
def execRegRegion (c : WrCmd) (s : State) : Out :=
  .next (if qpKind c.qp.toNat = 1 then wrTake 0x85 c (fun _ s => regT1 c s) s else ctlWr 0x85 [1, 2, 5, 9] c (regHost c) s)

/-- A region that a control WR names: its index, or the code it fails with. -/
def ownRegion (s : State) (k : Word) (x : Qp) : Except Status (Nat × Region) :=
  match Tab.find s.rma.regions (keyIndex k) with
  | none => .error .denied
  | some r =>
    if !r.valid || field k.toNat 23 18 ≠ 0 || r.pd = 0 || r.ctx ≠ x.ctx then .error .denied
    else if r.epoch.toNat ≠ field k.toNat 31 24 then .error .epochStale
    else .ok (keyIndex k, r)

/-- DEREG_REGION: the entry is invalid at once; the WR completes when no message names the region (11 R297). -/
def deregRegion (c : WrCmd) (x : Qp) (s : State) : State :=
  let q := c.qp.toNat
  match ownRegion s c.wr.rkey x with
  | .error e => ctlDone q c.wr e 0 s
  | .ok (i, _) =>
    let s := { s with rma := { s.rma with
      regions := Tab.mod s.rma.regions i (fun r => { r with valid := false })
      deregs := s.rma.deregs ++ [(c.qp, c.wr.wrId, i)] } }
    deregRun (qpUpd q (fun x => { x with wrs := x.wrs ++ [{ newWr q c.wr [] with todo := [] }], used := s.tb }) s)

/-- DEREG_REGION. -/
def execDeregRegion (c : WrCmd) (s : State) : Out := .next (ctlWr 0x86 [4] c (deregRegion c) s)

/-- MAP_PAGES: the list's entries name the pages' addresses, bit 0 set for present (11 R298, R313). A malformed one puts the control
queue pair in ERROR (R316). -/
def mapPages (c : WrCmd) (entries : List DWord) (x : Qp) (s : State) : State :=
  let q := c.qp.toNat
  let w := c.wr
  let n := w.len.toNat
  match ownRegion s w.rkey x with
  | .error e => ctlDone q w e 0 s
  | .ok (i, r) =>
    if !r.onDemand || n = 0 || decide (512 < n) then wrFails q w .malformed s
    else if decide (r.len < (w.localOff.toNat + n) * r.page) then ctlDone q w .denied 0 s
    else
      let pages := (List.range n).map (fun j => (w.localOff.toNat + j, entries.getD j 0))
      let on := pages.filter (fun p => p.2.toNat.testBit 0)
      let s := { s with rma := { s.rma with regions := Tab.mod s.rma.regions i (fun r => { r with
        present := pages.foldl (fun t p =>
          if p.2.toNat.testBit 0 then Tab.put t p.1 (p.2 &&& ~~~(1 : DWord)) else Tab.del t p.1) r.present }) } }
      ctlDone q w .ok 0 (on.foldl (fun s p => pagePresent w.rkey p.1 s) s)

/-- MAP_PAGES. -/
def execMapPages (c : WrCmd) (entries : List DWord) (s : State) : Out := .next (ctlWr 0x87 [4, 5, 7, 8] c (mapPages c entries) s)

/-! ### Messages and acknowledgements (11 R310) -/

/-- WRITE_MSG. -/
def execWriteMsg (m : PodMsg) (s : State) : Out := .next (podTake 1 m s)

/-- READ_REQ. -/
def execReadReq (m : PodMsg) (s : State) : Out := .next (podTake 2 m s)

/-- READ_DATA. -/
def execReadData (m : PodMsg) (s : State) : Out := .next (podTake 3 m s)

/-- ATOMIC_MSG. -/
def execAtomicMsg (m : PodMsg) (s : State) : Out := .next (podTake 4 m s)

/-- SEND_MSG. -/
def execSendMsg (m : PodMsg) (s : State) : Out := .next (podTake 5 m s)

/-- ACK. -/
def execAck (m : PodMsg) (s : State) : Out := .next (unlessFenced (fun s => farDrained (ackAt m s)) s)

/-! ### Timers (11 R304 to R314) -/

/-- RETRANSMIT_TIMER (R304). -/
def execRetransmitTimer (id : BitVec 48) (s : State) : Out := .next (unlessFenced (fun s => farDrained (retransmit id.toNat s)) s)

/-- MESSAGE_LIFETIME_END (R308). -/
def execMessageLifetimeEnd (id : BitVec 48) (s : State) : Out := .next (unlessFenced (lifetimeEnds id.toNat) s)

/-- IDENTIFIER_ENTRY_EXPIRY (R306): an entry is kept until the end of its message's lifetime. -/
def execIdentifierEntryExpiry (src : DevId) (id : BitVec 48) (s : State) : Out :=
  .next { s with rma := { s.rma with ids := s.rma.ids.filter (fun e => !(e.src == src && e.id == id && decide (e.first + 80000 ≤ s.tb))) } }

/-- READ_TIMEOUT (R309). -/
def execReadTimeout (id : BitVec 48) (s : State) : Out := .next (unlessFenced (readTimesOut id.toNat) s)

/-- BACKOFF_EXPIRY (R314). -/
def execBackoffExpiry (id : BitVec 48) (s : State) : Out := .next (unlessFenced (backoffEnds id.toNat) s)

/-- RETRY_LIMIT_EXPIRY (R314). -/
def execRetryLimitExpiry (id : BitVec 48) (s : State) : Out := .next (unlessFenced (limitEnds id.toNat) s)

/-- CONTEXT_FETCH_DONE (R312, R318). -/
def execContextFetchDone (q : QpNum) (macOk : Bool) (s : State) : Out :=
  .next (match qpOf s q.toNat with
    | none => s
    | some x => if !x.fetching then s else unlessFenced (if macOk then fetched q.toNat else fetchFails q.toNat) s)

/-- PAGE_FAULT_TIMEOUT (R313). -/
def execPageFaultTimeout (k : Word) (page : Nat) (s : State) : Out := .next (unlessFenced (faultEnds k page) s)

/-! ### The RMA block (11 R321) -/

/-- RMA_STATUS.CODE. -/
def rmaCode (c : Status) (s : State) : State := { s with rma := { s.rma with code := codeOf c } }

/-- QPC_BIND. -/
def qpcBind (s : State) : State :=
  let n := s.rma.qpcCount.toNat
  if s.rma.qps.any (fun e => qpKind e.1 = 2) then rmaCode .denied s
  else if s.rma.qpcLo.toNat % 4096 ≠ 0 || n % 8192 ≠ 0 || decide (n < 8192) || decide (1048576 < n) then rmaCode .malformed s
  else rmaCode .ok { s with rma := { s.rma with
    bound := true, backed := n, backing := BitVec.ofNat 64 (s.rma.qpcHi.toNat * 2 ^ 32 + s.rma.qpcLo.toNat) } }

/-- RMA_CTRL.QPC_BIND. -/
def execQpcBind (w : CtlWrite) (s : State) : Out :=
  .next (ctl w false [0, 1] 0 (fun s => s.rma.busy) rmaCode id qpcBind s)

/-- RMA_CTRL.CLR. -/
def execRmaClr (w : CtlWrite) (s : State) : Out :=
  .next (ctl w false [0, 1] 1 (fun s => s.rma.busy) rmaCode id (fun s => rmaCode .ok { s with rma := { s.rma with
    tx := 0, retx := 0, dups := 0, expired := 0, rlSent := 0, rlRecv := 0, qpcMiss := 0, faults := 0, qpErr := 0
    unacked := 0, stale := 0 } }) s)

/-! ### The atomic unit (10 R279 to R282) -/

/-- The unit applies a parked atomic, when its source's turn for the line has come (R281, 11 R315). -/
def applyParked (fn : Nat) (src : DevId) (id : BitVec 48) (s : State) : State :=
  match s.near.combine.find? (fun p => p.src == src && p.id == id) with
  | none => s
  | some p =>
    let line := parkedLine s p
    let here := s.near.combine.filter (fun q => parkedLine s q == line)
    let first := (here.find? (fun q => q.src == src)).any (fun q => q.id == id)
    if field p.msg.hdr.op.toNat 3 0 ≠ fn || !first || lineTurn s line ≠ some src.toNat then s else homeTurns <|
    let s := { s with near := { s.near with
      combine := s.near.combine.filter (fun q => !(q.src == src && q.id == id)), rotate := Tab.put s.near.rotate line src.toNat } }
    let h := p.msg.hdr
    match regionOf s h.rkey with
    | none => deregRun (podFinish h .denied [] s)
    | some r =>
      let n := atomicWidth h.op
      let (ok, s) := readOutcome (seenOutcome s (regionPlace s r h.offset.toNat) n p.msg.reads) s
      if !ok then deregRun (podFinish h .integrity [] s) else
      let (old, s) := regionRead r h.offset.toNat n [] s
      let v := leNat (p.msg.payload.take n)
      let new := leNat ((p.msg.payload.drop n).take n)
      deregRun (podFinish h .ok old (atomicApply h.op v new old (regionWrite r h.offset.toNat) s))

/-- An atomic from its source: a tray packet at its home, or a parked remote message. -/
def atomicAt (fn : Nat) (a : AtomicSrc) (v new : DWord) (s : State) : State :=
  match a with
  | .tray h reads =>
    if field h.op.toNat 3 0 ≠ fn || fenced s then s else
    homeArrive (.atomic h v new reads) (atomicWaits s)
  | .remote src id => unlessFenced (applyParked fn src id) s

/-- ATOMIC_ADD. -/
def execAtomicAdd (a : AtomicSrc) (v : DWord) (s : State) : Out := .next (atomicAt 1 a v 0 s)

/-- ATOMIC_MIN. -/
def execAtomicMin (a : AtomicSrc) (v : DWord) (s : State) : Out := .next (atomicAt 2 a v 0 s)

/-- ATOMIC_MAX. -/
def execAtomicMax (a : AtomicSrc) (v : DWord) (s : State) : Out := .next (atomicAt 3 a v 0 s)

/-- ATOMIC_CAS. -/
def execAtomicCas (a : AtomicSrc) (cmp new : DWord) (s : State) : Out := .next (atomicAt 4 a cmp new s)

end Sys2Proof.Machine
end

