-- ==== Sys2Proof/Machine/TierCtl.lean ====
section
/-!
DEFINITION. The commands of the memory tiers (07): the TIER block, scrub and refresh, channel failure, and the faults,
retries and expiry of shelved galleys.
-/

namespace Sys2Proof.Machine

/-! ### TIER_CTRL (07 R205) -/

/-- CODE of TIER_STATUS. -/
def tierCode (c : Status) (s : State) : State := { s with tier := { s.tier with code := codeOf c } }

/-- The command protocol of TIER_CTRL. -/
def tierCtl (w : CtlWrite) (own : Nat) (run : State → State) (s : State) : State :=
  ctl w false [0, 1, 2, 3] own (fun s => s.tier.busy) tierCode id run s

/-- Set the selected tenant's limits: an entry is created where there is none; both limits zero remove it while the tenant
holds no pages (07 R202, R205). -/
def quotaWrite (s : State) : State :=
  let t := s.tier.tenant.toNat
  let l1 := s.tier.t1Limit.toNat
  let l3 := s.tier.t3Limit.toNat
  match Tab.find s.tier.quotas t with
  | none =>
    if l1 = 0 ∧ l3 = 0 then tierCode .ok s
    else if 4096 ≤ s.tier.quotas.length then tierCode .quota s
    else tierCode .ok { s with tier := { s.tier with quotas := Tab.put s.tier.quotas t { t1Limit := l1, t3Limit := l3 } } }
  | some q =>
    if l1 = 0 ∧ l3 = 0 ∧ q.t1Used = 0 ∧ q.t3Used = 0 then
      tierCode .ok { s with tier := { s.tier with quotas := Tab.del s.tier.quotas t } }
    else
      tierCode .ok { s with tier := { s.tier with quotas := Tab.put s.tier.quotas t { q with t1Limit := l1, t3Limit := l3 } } }

/-- TIER_CTRL.QUOTA_WRITE. -/
def execQuotaWrite (w : CtlWrite) (s : State) : Out := .next (tierCtl w 0 quotaWrite s)

/-- Load the selected tenant's limits and use; zeros without an entry (07 R205). -/
def quotaRead (s : State) : State :=
  let load (q : Quota) (s : State) : State := { s with tier := { s.tier with
    t1Limit := BitVec.ofNat 32 q.t1Limit, t3Limit := BitVec.ofNat 32 q.t3Limit
    t1Used := BitVec.ofNat 32 q.t1Used, t3Used := BitVec.ofNat 32 q.t3Used } }
  match Tab.find s.tier.quotas s.tier.tenant.toNat with
  | none => tierCode .denied (load {} s)
  | some q => tierCode .ok (load q s)

/-- TIER_CTRL.QUOTA_READ. -/
def execQuotaRead (w : CtlWrite) (s : State) : Out := .next (tierCtl w 1 quotaRead s)

/-- Bind the T3 area of a partition: the checks in their order (07 R194). -/
def t3Bind (s : State) : State :=
  let data : DWord := s.tier.t3DataHi ++ s.tier.t3DataLo
  let tag : DWord := s.tier.t3TagHi ++ s.tier.t3TagLo
  let p := s.tier.t3Part.toNat
  if data.toNat % 65536 ≠ 0 ∨ tag.toNat % 4096 ≠ 0 then tierCode .malformed s
  else if (partition s p).isNone then tierCode .formeMismatch s
  else if (Tab.find s.tier.t3 p).any (fun a => !a.frames.isEmpty) then tierCode .denied s
  else tierCode .ok { s with tier := { s.tier with t3 := Tab.put s.tier.t3 p { data := data, tag := tag, frames := [] } } }

/-- TIER_CTRL.T3_BIND. -/
def execT3Bind (w : CtlWrite) (s : State) : Out := .next (tierCtl w 2 t3Bind s)

/-- TIER_T3_ERR and every LPC counter are cleared (07 R205). -/
def tierClear (s : State) : State :=
  let lpc : Tab Lpc := s.tier.lpc.map (fun e => (e.1, { e.2 with ce := 0, ue := 0, macErr := 0, rfm := 0, rd := 0, wr := 0 }))
  tierCode .ok { s with tier := { s.tier with t3Err := 0, lpc := lpc } }

/-- TIER_CTRL.CLR. -/
def execTierClr (w : CtlWrite) (s : State) : Out := .next (tierCtl w 3 tierClear s)

/-! ### Scrub, refresh, channel failure (07 R187 to R190) -/

/-- The next written granule from the cursor on, in ascending device address. -/
def scrubNext (s : State) : Option Nat :=
  let g := s.tier.scrubAt / 512
  (s.tier.written.find? (fun f => decide (g < (f.1 + 1) * 128))).map (fun f => max g (f.1 * 128))

/-- A pass of the scrub is complete once the last written granule has been scrubbed. -/
def scrubLast (s : State) (g : Nat) : Bool :=
  match s.tier.written.getLast? with
  | none => true
  | some (f, _) => decide (f * 128 + 127 ≤ g)

/-- A granule fails R184 in the scrub: it is counted, and its frame retired, with what it held lost, at the next step boundary (07
R187). -/
def scrubFails (mac : Bool) (g : Nat) (s : State) : State :=
  granuleFail mac (g * 512) { s with tier := { s.tier with scrubBad := s.tier.scrubBad ++ [g] } }

/-- T1_SCRUB (07 R187): the next written granule is read; a corrected one is written back. -/
def scrub (o : ReadOutcome) (s : State) : State :=
  match scrubNext s with
  | none => s
  | some g =>
    let wrap := scrubLast s g
    let s := countGranules false [g] { s with tier := { s.tier with
      scrubAt := if wrap then 0 else (g + 1) * 512, scrub := if wrap then satInc s.tier.scrub else s.tier.scrub } }
    match o with
    | .corrected _ => countGranules true [g] (lpcUpd (chanOf s (g / 128)) (fun l => { l with ce := satInc l.ce }) s)
    | .uncorrectable _ => scrubFails false g s
    | .macFail _ => scrubFails true g s
    | _ => s

/-- T1_SCRUB. -/
def execT1Scrub (o : ReadOutcome) (s : State) : Out := .next (reserveStop (scrub o s))

/-- The channel works: it trained and has not failed. -/
def chanGood (s : State) (c : Nat) : Bool := s.tier.good.contains c && !s.tier.chFail.toNat.testBit c

/-- REFRESH: the interval as the package's temperature mode register requires, and that register's code, which is a sensor
value (07 R188, R205; log entry 66). -/
def execRefresh (ch : Fin 48) (intervalNs : Word) (s : State) : Out :=
  .next (if chanGood s ch.val then
    bumpFree (lpcUpd ch.val (fun l => { l with
      refi := intervalNs, temp := BitVec.ofNat 8 (Config.freeWord s.free).toNat }) s)
  else s)

/-- REFRESH_MANAGEMENT: a command is issued and counted (07 R188). -/
def execRefreshManagement (ch : Fin 48) (s : State) : Out :=
  .next (if chanGood s ch.val then lpcUpd ch.val (fun l => { l with rfm := satInc l.rfm }) s else s)

/-- A running channel fails: it goes into the repair record and is fatal cause CHANNEL, with a cold reset (07 R190,
18 R463). -/
def channelLost (c : Nat) (s : State) : State :=
  fatalStop 2 true (selftestStops
    (addRepair { kind := 0x05, source := 0x03, unit := BitVec.ofNat 16 c, bit := 0xFFFF, addr := 0 } (channelFailed c s)))

/-- CHANNEL_FAIL. -/
def execChannelFail (ch : Fin 48) (s : State) : Out := .next (if chanGood s ch.val then channelLost ch.val s else s)

/-! ### Host-tier events (07 R197 to R199) -/

/-- A recall is abandoned: the T1 pages it wrote and the galley's T3 frames are freed, and the anchor re-prefills the
request or ends it with TIER_FAULT (07 R198). -/
def recallFault (q : ReqId) (s : State) : State :=
  match galleyOf s q, recLive s q with
  | some g, some r =>
    let s := galleyUpd q (fun g => { g with resume := none }) (resetGalley q s)
    if g.dropAfter then memberDrop q s else sendFw r.anchor r.epoch (.refusal q .tierFault) s
  | _, _ => s

/-- A fault on a state-mover DMA (07 R198, 17 R448 bit 6). -/
def t3Fault (q : ReqId) (s : State) : State :=
  match galleyOf s q with
  | none => s
  | some g =>
    let count (s : State) : State := noteErr 6 0 0x048 { s with tier := { s.tier with t3Err := satInc s.tier.t3Err } }
    match g.op with
    | .idle | .reserving => s
    | .shelving => afterShelf q (shelveAbandon q (count s))
    | .recalling _ => recallFault q (count s)

/-- T3_FAULT. -/
def execT3Fault (q : ReqId) (s : State) : Out := .next (t3Fault q s)

/-- A shelve is wanted of a resident paused galley: its hold time is over, or its partition drains (08 R231; 02 R63). -/
def shelveWanted (s : State) (g : Galley) : Bool :=
  match g.pausedAt with
  | none => false
  | some t => g.drainShelf || decide (t + s.req.hold * Config.tbPerMs ≤ s.tb)

/-- A shelve that failed or could not start is tried again, and so is a recall that waits for room (07 R198, R199,
R201). -/
def shelveRetry (q : ReqId) (s : State) : State :=
  match galleyOf s q with
  | none => s
  | some g =>
    if g.op ≠ .idle || !retryDue s g then s
    else if isShelved g then
      match g.resume with
      | some m => recallStart q m s
      | none => s
    else if g.serving = mySlot s && shelveWanted s g then shelveStart q g.drainShelf s
    else s

/-- SHELVE_RETRY. -/
def execShelveRetry (q : ReqId) (s : State) : Out := .next (unlessFenced (shelveRetry q) s)

/-- The expiry tick of a shelved galley has passed and no recall that either member accepted holds it: its T3 frames are freed and its pages are
EXPIRED (07 R197). -/
def galleyExpiry (q : ReqId) (s : State) : State :=
  match galleyOf s q with
  | none => s
  | some g =>
    if isShelved g && g.op = .idle && g.resume.isNone && !g.recalled && decide (g.expiry ≤ s.tb) then
      let s := expirePages q s
      if g.serving = mySlot s then { s with tier := { s.tier with expired := satInc s.tier.expired } } else s
    else s

/-- GALLEY_EXPIRY. -/
def execGalleyExpiry (q : ReqId) (s : State) : Out := .next (galleyExpiry q s)

end Sys2Proof.Machine
end

