-- ==== Sys2Proof/Machine/Host.lean ====
section
/-!
DEFINITION. The commands of the host interface (16): ring sets, doorbells and consumer counts, interrupts, functions and
their resets, IDE and TDISP, and failed DMA.
-/

namespace Sys2Proof.Machine

/-! ### HOSTIF_CTRL (16 R416, R428, R435) -/

/-- A function's HOSTIF block is live (17 R445, R446). -/
def hostLive (s : State) (fn : FnId) : Bool := answers s fn && s.dev.ready

/-- CODE of HOSTIF_STATUS. -/
def hostCode (fn : FnId) (c : Status) (s : State) : State := fnUpd fn (fun h => { h with code := codeOf c }) s

/-- The fault ring's base and size allow it (16 R435). -/
def faultRingOk (h : FnHost) : Bool :=
  let n := field h.faultSize.toNat 4 0
  h.faultLo.toNat % 4096 == 0 && decide (6 ≤ n) && decide (n ≤ 16)

/-- The settings of HOSTIF_CTRL: SET, and FAULT_EN, which is checked as ENABLE is (16 R428, R435). Enabling zeroes the fault
ring's counts. -/
def hostSettings (w : CtlWrite) (s : State) : State :=
  let fn := w.fn
  let s := fnUpd fn (fun h => { h with
    set := BitVec.ofNat 3 ((List.range 3).map (fun i => if ctlSetting w (8 + i) (h.set.toNat.testBit i) then 2 ^ i else 0)).sum }) s
  let h := fnHost s fn
  let on := ctlSetting w 2 h.faultEn
  if on && !h.faultEn then
    if faultRingOk h then
      let s := hostCode fn .ok (fnUpd fn (fun h => { h with faultEn := true, faultProd := 0, faultCons := 0 }) s)
      faultPost h.faultWait.length fn s
    else hostCode fn .malformed s
  else fnUpd fn (fun h => { h with faultEn := on }) s

/-- The command protocol of HOSTIF_CTRL (17 R441, R442). -/
def hostCtl (w : CtlWrite) (own : Nat) (run : State → State) (s : State) : State :=
  if hostLive s w.fn then
    match ctlCommands w [0, 1] with
    | [] => hostSettings w s
    | [n] =>
      if n = own then
        if (fnHost s w.fn).busy then hostCode w.fn .retryLater s else run (hostSettings w s)
      else s
    | _ => hostCode w.fn .malformed s
  else s

/-- The bases are 4 KiB aligned, the sizes and the vector in range (16 R416). -/
def ringOk (x : RingSet) : Bool :=
  let sq := field x.sizes.toNat 3 0
  let cq := field x.sizes.toNat 11 8
  let out := field x.sizes.toNat 20 16
  let v := field x.vector.toNat 4 0
  x.sqLo.toNat % 4096 == 0 && x.cqLo.toNat % 4096 == 0 && x.outLo.toNat % 4096 == 0
    && decide (6 ≤ sq) && decide (sq ≤ 15) && decide (6 ≤ cq) && decide (cq ≤ 15) && decide (10 ≤ out) && decide (out ≤ 20)
    && decide (8 ≤ v) && decide (v ≤ 31)

/-- ENABLE of the ring set in SET; what it held is posted (16 R416, R426). -/
def ringEnable (fn : FnId) (s : State) : State :=
  let r : RingRef := { fn := fn, set := (fnHost s fn).set }
  let x := ringSet s r
  if !ringOk x then hostCode fn .malformed s
  else if x.state ≠ 0 then hostCode fn .denied s
  else
    releaseHeld r (hostCode fn .ok (ringUpd r (fun x => { x with
      state := 1, cause := 0, sqHead := 0, sqProd := 0, cqProd := 0, cqCons := 0, outProd := 0, outCons := 0
      lastSignal := none, unsignalled := none }) s))

/-- HOSTIF_CTRL.ENABLE. -/
def execEnable (w : CtlWrite) (s : State) : Out := .next (hostCtl w 0 (ringEnable w.fn) s)

/-- DISABLE of the ring set in SET: DISABLED at once, or when the last taken entry has been admitted or refused
(16 R416, R417). -/
def ringDisable (fn : FnId) (s : State) : State :=
  let r : RingRef := { fn := fn, set := (fnHost s fn).set }
  let x := ringSet s r
  if x.state ≠ 0 && x.taken ≠ 0 then
    fnUpd fn (fun h => { h with busy := true }) (ringUpd r (fun x => { x with disabling := true }) s)
  else hostCode fn .ok (ringUpd r (fun x => { x with state := 0, disabling := false }) s)

/-- HOSTIF_CTRL.DISABLE. -/
def execDisable (w : CtlWrite) (s : State) : Out := .next (hostCtl w 1 (ringDisable w.fn) s)

/-- HOSTIF_CTRL.FAULT_EN: a write without a command bit applies the settings. -/
def execFaultEn (w : CtlWrite) (s : State) : Out :=
  .next (if hostLive s w.fn && (ctlCommands w [0, 1]).isEmpty then hostSettings w s else s)

/-! ### Doorbells and consumer counts (16 R417, R426 to R428) -/

/-- HOSTIF_SQDB: the producer moves forward by no more than the room; otherwise the ring set is in ERROR (16 R417). -/
def sqDoorbell (r : RingRef) (prod : BitVec 16) (s : State) : State :=
  let x := ringSet s r
  if x.state ≠ 1 then s
  else
    let new := (prod - x.sqHead).toNat
    let old := (x.sqProd - x.sqHead).toNat
    if sqEntries x < new || new < old then ringFails r s
    else ringUpd r (fun x => { x with sqProd := prod }) s

/-- SQ_DOORBELL. -/
def execSqDoorbell (fn : FnId) (set : BitVec 3) (value : Word) (s : State) : Out :=
  .next (if hostLive s fn then sqDoorbell { fn := fn, set := set } (value.extractLsb' 0 16) s else s)

/-- The ring block of a control queue pair is read whole at the first doorbell (16 R427; log entry 211). -/
def blockRead (q : Nat) (b : RingBlock) (s : State) : State :=
  qpUpd q (fun x => if qpKind q = 0 && x.block == noBlock then { x with block := b } else x) s

/-- HOSTIF_QPDB: the producer that the device read from the queue pair's ring block (16 R427). In ERROR the queue pair takes nothing new
(11 R316). -/
def qpDoorbell (fn : FnId) (q : Nat) (recv : Bool) (read : RingRead) (s : State) : State :=
  let prod := read.prod
  let s := if (qpOf s q).any (fun x => x.ctx == fn) then blockRead q read.block s else s
  match qpOf s q with
  | none => s
  | some x =>
    if x.ctx ≠ fn || qpKind q = 1 then s
    else
      let (cons, old, log) := if recv then (x.recvCons, x.recvProd, x.block.recvLog) else (x.sendCons, x.sendProd, x.block.sendLog)
      let new := (prod - cons).toNat
      if x.ready && (decide (2 ^ log.toNat < new) || decide (new < (old - cons).toNat)) then qpError q none .qpError s
      else if recv then qpUpd q (fun x => { x with recvProd := prod }) s
      else qpUpd q (fun x => { x with sendProd := prod }) s

/-- QP_DOORBELL. -/
def execQpDoorbell (fn : FnId) (value : Word) (read : RingRead) (s : State) : Out :=
  .next (if hostLive s fn then qpDoorbell fn (field value.toNat 19 0) (bit value 20) read s else s)

/-- A consumer count frees room, and what was held is posted (16 R424, R426, R428). -/
def consumerWrite (r : ConsumerReg) (v : Word) (s : State) : State :=
  match r with
  | .cq fn set =>
    let x : RingRef := { fn := fn, set := set }
    if hostLive s fn then releaseHeld x (ringUpd x (fun y => { y with cqCons := v.extractLsb' 0 16 }) s) else s
  | .out fn set =>
    let x : RingRef := { fn := fn, set := set }
    if hostLive s fn then releaseHeld x (ringUpd x (fun y => { y with outCons := v.extractLsb' 0 21 }) s) else s
  | .fault fn =>
    if hostLive s fn then
      let s := fnUpd fn (fun h => { h with faultCons := v.extractLsb' 0 17 }) s
      faultPost (fnHost s fn).faultWait.length fn s
    else s

/-- CONSUMER_WRITE. -/
def execConsumerWrite (r : ConsumerReg) (v : Word) (s : State) : Out := .next (consumerWrite r v s)

/-! ### Interrupt hold-off (16 R430) -/

/-- A ring set of this vector has an unsignalled entry whose hold-off has elapsed. -/
def holdoffDue (s : State) (vector : BitVec 5) (x : RingSet) : Bool :=
  decide (field x.vector.toNat 4 0 = vector.toNat) && x.unsignalled.isSome && (match x.lastSignal with
    | none => true
    | some t => decide (t + field x.vector.toNat 31 16 * 625 ≤ s.tb))

/-- The vector is raised for the entries that waited. -/
def holdoffEnds (fn : FnId) (vector : BitVec 5) (s : State) : State :=
  let due := ((fnHost s fn).sets.filter (fun e => holdoffDue s vector e.2)).map (fun e => e.1)
  if due.isEmpty then s
  else
    msix fn vector.toNat (due.foldl (fun s i =>
      ringUpd { fn := fn, set := BitVec.ofNat 3 i } (fun x => { x with lastSignal := some s.tb, unsignalled := none }) s) s)

/-- INTERRUPT_HOLDOFF_EXPIRY. -/
def execInterruptHoldoffExpiry (fn : FnId) (vector : BitVec 5) (s : State) : Out := .next (holdoffEnds fn vector s)

/-! ### Context reset (16 R434) -/

/-- The requests anchored through a context that are active end with CANCELLED, silently; PAUSED ones are kept. -/
def contextCancels (c : Nat) (s : State) : State :=
  let mine := s.req.anchors.filter (fun a => a.2.ring.fn.toNat == c)
  mine.foldl (fun s a =>
    let q : ReqId := BitVec.ofNat 64 a.1
    match recLive s q with
    | some r =>
      if r.state = 5 || r.state = 7 then s
      else anchorCancel q (anchorUpd q (fun a => { a with silent := true, taking := false }) s)
    | none => s) s

/-- The context's queue pairs go without completions, its regions are deregistered with their epochs kept, and its PDs are
freed (16 R434, 11 R297). -/
def contextRma (c : Nat) (s : State) : State :=
  let gone (q : Nat) : Bool := match qpOf s q with
    | some x => x.ctx.toNat == c && qpKind q != 1
    | none => false
  let mine := (s.rma.regions.filter (fun e => e.2.valid && e.2.ctx.toNat == c && e.2.t1.isNone)).map (fun e => e.1)
  let regions : Tab Region := s.rma.regions.map (fun e => (e.1, if mine.contains e.1 then { e.2 with valid := false, present := [] } else e.2))
  let qps : Tab Qp := s.rma.qps.filter (fun e => !gone e.1)
  deregRun { s with rma := { s.rma with
      qps := qps, regions := regions, pds := s.rma.pds.filter (fun e => e.2 != c)
      deregs := s.rma.deregs ++ mine.map (fun i => (BitVec.ofNat 20 (2 * c), 0, i))
      out := s.rma.out.filter (fun m => !gone m.hdr.srcQp.toNat)
      refused := s.rma.refused.filter (fun m => !gone m.hdr.srcQp.toNat)
      queued := s.rma.queued.filter (fun m => !gone m.1.srcQp.toNat)
      arrival := s.rma.arrival.filter (fun m => !gone m.hdr.dstQp.toNat)
      openFaults := s.rma.openFaults.filter (fun f => !mine.contains (keyIndex f.rkey)) } }

/-- The context's save areas, completion ring, divert entries, debt and vt are discarded, and its bound clusters switch at
their next switch point (13 R356). -/
def contextSched (c : Nat) (s : State) : State :=
  let clusters : Tab Cluster := s.clusters.map (fun e => (e.1, { e.2 with
    divert := e.2.divert.filter (fun d => d.2.1 != c)
    switchAt := if e.2.ctx == some c then some (e.2.switchAt.getD s.tb) else e.2.switchAt
    ended := if e.2.ctx == some c && e.2.item.isSome then some .cancelled else e.2.ended }))
  { s with
    clusters := clusters
    sched := { s.sched with
      saves := s.sched.saves.filter (fun e => e.1 % 64 != c), rings := Tab.del s.sched.rings c
      ctxs := Tab.mod s.sched.ctxs c (fun x => { x with vt := 0, debt := 0 })
      waiting := s.sched.waiting.filter (fun e => e.1 % 64 != c) } }

/-- A context reset: its ring sets are DISABLED and hold nothing, its fault ring is freed (16 R434). -/
def contextReset (c : Nat) (s : State) : State :=
  let s := contextCancels c s
  let s := contextSched c (contextRma c s)
  { s with
    host := { s.host with fns := Tab.del s.host.fns c }
    repro := { s.repro with shards := s.repro.shards.filter (fun x => x.ring.fn.toNat != c) } }

/-- A reset of one VF. -/
def vfReset (c : Nat) (s : State) : State :=
  contextReset c { s with host := { s.host with flr := c :: s.host.flr.filter (fun x => x != c) } }

/-- A reset of the PF: VF Enable is cleared, and all 64 contexts are reset (16 R433). -/
def pfReset (s : State) : State :=
  let s := (List.range 64).foldl (fun s c => contextReset c s) s
  { s with host := { s.host with numVfs := 0, d3 := [], tdi := [], flr := [0] } }

/-- The function is there. -/
def fnExists (s : State) (fn : FnId) : Bool := s.maint.pwrgd && s.host.linkUp && decide (fn.toNat ≤ s.host.numVfs)

/-- FLR: a function-level reset, TDI ERROR, or a D3hot to D0 transition (16 R433). -/
def fnReset (fn : FnId) (cause : FlrCause) (s : State) : State :=
  let c := fn.toNat
  let s := { s with host := { s.host with
    d3 := s.host.d3.filter (fun x => x != c)
    tdi := match cause with
      | .tdiError => Tab.mod s.host.tdi c (fun _ => false)
      | _ => Tab.del s.host.tdi c } }
  if c = 0 then pfReset s else vfReset c s

/-- FLR. -/
def execFlr (fn : FnId) (cause : FlrCause) (s : State) : Out :=
  .next (match cause with
    | .d3ToD0 => if fnExists s fn && s.host.d3.contains fn.toNat then fnReset fn cause s else s
    | .tdiError => if fnExists s fn && (Tab.find s.host.tdi fn.toNat).isSome then fnReset fn cause s else s
    | .flr => if fnExists s fn then fnReset fn cause s else s)

/-- FLR_COMPLETE: the function's BAR is live again and its control queue pair is made anew (16 R433, R434; 11 R291). -/
def execFlrComplete (fn : FnId) (s : State) : Out :=
  .next (if s.host.flr.contains fn.toNat then
    let s := { s with host := { s.host with flr := s.host.flr.filter (fun x => x != fn.toNat) } }
    if s.dev.ready then controlQp fn s else s
  else s)

/-- HOT_RESET: as an FLR of the PF, and the link retrains (16 R433). -/
def execHotReset (s : State) : Out :=
  .next (if s.maint.pwrgd && s.host.linkUp then
    let s := fnReset 0 .flr s
    { s with host := { s.host with linkUp := false } }
  else s)

/-- VF_ENABLE: NumVFs VFs are enabled; each new one gets its control queue pair (16 R414, 13 R340, 11 R291). -/
def execVfEnable (n : BitVec 6) (s : State) : Out :=
  .next (if answers s 0 && s.dev.ready then
    let old := s.host.numVfs
    let s := { s with host := { s.host with numVfs := n.toNat } }
    ((List.range (n.toNat - old)).map (fun i => old + 1 + i)).foldl (fun s c => controlQp (BitVec.ofNat 6 c) s) s
  else s)

/-- D3HOT_ENTRY (16 R411). -/
def execD3hotEntry (fn : FnId) (s : State) : Out :=
  .next (if fnExists s fn && !s.host.d3.contains fn.toNat then { s with host := { s.host with d3 := s.host.d3 ++ [fn.toNat] } } else s)

/-! ### IDE and TDISP (16 R431, R432) -/

/-- IDE_KM over a secure session: a stream's key is set, or refreshed without effect on its traffic. -/
def execIdeKm (stream : BitVec 7) (refresh : Bool) (s : State) : Out :=
  .next (if s.sec.spdm.secure && decide (stream.toNat ≤ 64) then
    match Tab.find s.host.ide stream.toNat with
    | some x =>
      if refresh then s
      else { s with host := { s.host with ide := Tab.put s.host.ide stream.toNat { x with keyed := true, insecure := false } } }
    | none =>
      if refresh then s
      else { s with host := { s.host with ide := Tab.put s.host.ide stream.toNat { keyed := true, insecure := false, fn := 0 } } }
  else s)

/-- The TDI of a VF goes to ERROR, which acts as a function-level reset of the VF; vector 0 tells of the change
(16 R430, R432). -/
def tdiError (fn : FnId) (s : State) : State :=
  match Tab.find s.host.tdi fn.toNat with
  | some true => fnReset fn .tdiError (msix fn 0 s)
  | _ => s

/-- IDE_INTEGRITY_FAILURE: the stream is Insecure and its TLPs are dropped; a locked VF's TDI goes to ERROR. -/
def execIdeIntegrityFailure (stream : BitVec 7) (fn : FnId) (s : State) : Out :=
  .next (match Tab.find s.host.ide stream.toNat with
    | some x =>
      if x.keyed then
        tdiError fn { s with host := { s.host with ide := Tab.put s.host.ide stream.toNat { x with insecure := true, fn := fn } } }
      else s
    | none => s)

/-- LOCK_INTERFACE over a secure session locks an enabled VF's configuration. -/
def execLockInterface (vf : FnId) (s : State) : Out :=
  .next (if s.sec.spdm.secure && vf != 0 && fnExists s vf && Tab.find s.host.tdi vf.toNat != some true then
    msix vf 0 { s with host := { s.host with tdi := Tab.put s.host.tdi vf.toNat true } }
  else s)

/-! ### Failed DMA (16 R413) -/

/-- A capsule or session message that could not be read: its entry completes with MALFORMED. -/
def entryUnread (r : RingRef) (e : SqEntry) (s : State) : State :=
  if sqReady s r && decide (1 ≤ e.kind.toNat) && decide (e.kind.toNat ≤ 3) then
    postCq r e.hostTag 0 (if e.kind = 1 then 2 else 5) .malformed 0 (takeEntry r s)
  else s

/-- What a failed DMA does, by what it served. -/
def dmaFails (t : DmaTarget) (s : State) : State :=
  match t with
  | .hostTier q => t3Fault q s
  | .capsule r e => entryUnread r e s
  | .image => formeImage .dmaFailed s
  | .ring r => if (ringSet s r).state = 1 then ringFails r s else s
  | .qpRing q => if qpKind q.toNat = 1 then s else qpError q.toNat none .qpError s

/-- DMA_FAILURE. -/
def execDmaFailure (t : DmaTarget) (s : State) : Out := .next (dmaFails t s)

end Sys2Proof.Machine
end

