-- ==== Sys2Proof/Machine/Pair.lean ====
section
/-!
DEFINITION. The commands of pairs, maps and liveness (09): meeting the partner, bring-in, composition maps, leases,
exclusion and re-admission, and the PAIR block.
-/

namespace Sys2Proof.Machine

/-! ### Meeting the partner (09 R241; 15 R400) -/

/-- This member is the lower slot of its pair. -/
def lowerMember (s : State) (p : Nat) : Bool := decide ((mySlot s).toNat < p)

/-- Draw a new pair secret (15 R400). -/
def drawSecret (s : State) : State :=
  let (k, s) := draw s
  { s with sec := { s.sec with pairSecret := some (Config.freeDWord k) } }

/-- Send the pair secret over the members' near link, by a transfer exchange. -/
def sendSecret (p : Nat) (s : State) : State :=
  match s.sec.pairSecret with
  | some id => sendFw (devOfSlot s p) 0 (.pairSecret id) s
  | none => s

/-- The secrets at a meeting: equal ones are kept; a sole holder sends its own; otherwise the lower slot draws one and sends
it (15 R400). -/
def meetSecret (p : Nat) (v : PartnerView) (s : State) : State :=
  match s.sec.pairSecret, v.secret with
  | some a, some b => if a = b then s else if lowerMember s p then sendSecret p (drawSecret s) else s
  | some _, none => sendSecret p s
  | none, some _ => s
  | none, none => if lowerMember s p then sendSecret p (drawSecret s) else s

/-- A cache member meets its partner, or sees it excluded (09 R241; 15 R400; 09 *Events during bring-in*). A survivor whose spare is
live and serves no forme, in a warm reset, serves alone until it is back; a spare without its forme has been through a cold reset
(09 R252). -/
def partnerMeet (v : PartnerView) (s : State) : State :=
  match partnerSlot s with
  | none => s
  | some p =>
    let st := s.pair.state.toNat
    let serving := v.live && decide (3 ≤ v.formeState.toNat) && decide (v.formeState.toNat ≤ 5)
    if st = 1 then
      if excluded s (devOfSlot s p).toNat then { s with pair := { s.pair with state := 3 } }
      else if !serving then s
      else if v.formeBase ≠ s.forme.base then { s with pair := { s.pair with code := codeOf .formeMismatch } }
      else if v.state = 3 then
        meetSecret p v { s with pair := { s.pair with state := 4 }, sec := { s.sec with pairSecret := none } }
      else if s.req.galleys.isEmpty && !v.holdsGalley && (v.state = 1 || v.state = 2) then
        meetSecret p v { s with pair := { s.pair with state := 2 } }
      else s
    else if st = 3 && v.state = 4 && serving && v.formeBase = s.forme.base then meetSecret p v s
    else if st = 6 && v.state = 3 then silverEnd .ok s
    else if st = 5 && v.state = 6 && serving then silverResume v.reads s
    else if st = 5 && v.live && !serving && v.formeState ≠ 0 then
      (if s.pair.alone then s else mirrorsAlone { s with pair := { s.pair with alone := true } })
    else if st = 5 && (v.formeState = 0 || v.state = 0 || v.state = 1 || v.state = 4) then silverEnd .ok s
    else s

/-- PARTNER_MEET. -/
def execPartnerMeet (v : PartnerView) (s : State) : Out := .next (unlessFenced (partnerMeet v) s)

/-! ### A silent partner (09 R244) -/

/-- The writes of R244, by what their answer completes. -/
def mirroredWhy (w : TrayWhy) : Bool :=
  match w with
  | .append _ _ | .commit _ | .handover _ | .pause _ | .mirror _ | .drop _ | .record _ | .silver _ | .reserve _ | .takeOver _ => true
  | _ => false

/-- A mirrored write has no acknowledgement after 64 µs: the member is reported, the write is counted once and goes on
waiting (09 R244; 17 R448 bit 5). -/
def mirrorLate (d n : Nat) (s : State) : State :=
  match (trayDst s d).out.find? (fun o => o.seq == n) with
  | none => s
  | some o =>
    if mirroredWhy o.why && (o.counted || decide (o.sent + 40000 ≤ s.tb)) then
      let s := sendSuspect (devOfSlot s d) s
      if o.held then s else
        noteErr 5 0 0x01C (trayDstUpd d (fun x => { x with out := x.out.map (fun o => if o.seq = n then { o with held := true } else o) })
          { s with pair := { s.pair with held := satInc s.pair.held } })
    else s

/-- MIRROR_ACK_TIMEOUT. -/
def execMirrorAckTimeout (slot : Slot) (seq : Word) (s : State) : Out :=
  .next (unlessFenced (mirrorLate slot.toNat seq.toNat) s)

/-! ### PAIR_CTRL (09 R265) -/

/-- CODE of PAIR_STATUS. -/
def pairCode (c : Status) (s : State) : State := { s with pair := { s.pair with code := codeOf c } }

/-- The command protocol of PAIR_CTRL. -/
def pairCtl (w : CtlWrite) (own : Nat) (run : State → State) (s : State) : State :=
  ctl w false [0, 1, 2, 3, 4, 5] own (fun s => s.pair.busy) pairCode id run s

/-- The checks of SILVER in their order (09 R247). -/
def silverCheck (v : PartnerView) (s : State) : Status :=
  let known (p : Nat) : Bool := match Tab.find s.pair.excl (devOfSlot s p).toNat with
    | some (x, _) => !x
    | none => false
  if s.pair.state ≠ 3 then .denied
  else
    match partnerSlot s with
    | none => .denied
    | some p =>
      if !known p then .denied
      else if v.state ≠ 4 then .retryLater
      else if v.formeBase ≠ s.forme.base then .formeMismatch
      else .ok

/-- Bring-in starts: the survivor sends its quota table and latent slots and begins the copy (09 R247, R248). -/
def silverStart (reads : ReadOutcome) (s : State) : State :=
  let d := partnerOr s
  let total := (s.req.galleys.map (fun g => ((galleyPages g.2).filter inT1).length)).sum
  let s := silverClear (pairState 5 s)
  let s := { s with pair := { s.pair with silverTotal := total, silverDone := 0, ckpt := 0 } }
  let (qs, ls) := setupCopies s
  silverRun reads (trayIssue d (.silverSetup { moverHdr s d 0xD 0 with part := 0 } qs ls) .other s)

/-- PAIR_CTRL.SILVER. -/
def execSilver (w : CtlWrite) (v : PartnerView) (s : State) : Out :=
  .next (pairCtl w 0 (fun s =>
    let c := silverCheck v s
    if c = .ok then pairCode .ok (silverStart v.reads s) else pairCode c s) s)

/-- PAIR_CTRL.ABORT. -/
def execAbort (w : CtlWrite) (s : State) : Out :=
  .next (pairCtl w 1 (fun s =>
    if s.pair.state = 5 || s.pair.state = 6 then pairCode .ok (silverEnd .ok s) else pairCode .denied s) s)

/-- PAIR_CTRL.SUSPECT: the device named in LIVE_SUSPECT is reported, and nothing acts on it (09 R264). -/
def execSuspect (w : CtlWrite) (s : State) : Out :=
  .next (pairCtl w 4 (fun s => pairCode .ok (sendSuspect s.pair.suspect s)) s)

/-- PAIR_CTRL.CLR. -/
def execPairClr (w : CtlWrite) (s : State) : Out :=
  .next (pairCtl w 5 (fun s => pairCode .ok { s with pair := { s.pair with held := 0, silvers := 0, lost := 0 } }) s)

/-! ### Checkpoints (09 R251) -/

/-- A checkpoint is due: 16,384 frames have been copied, or the journal is full. -/
def ckptDue (s : State) : Bool :=
  s.pair.state == 5 && s.pair.ckptAsked.isNone
    && (decide (ckptFrames ≤ s.pair.sinceCkpt) || decide (journalMax ≤ s.pair.journal.length))

/-- CHECKPOINT_REQUEST: the survivor asks for checkpoint n and pauses the copy. -/
def execCheckpointRequest (s : State) : Out :=
  .next (unlessFenced (fun s => if ckptDue s then ckptAsk false s else s) s)

/-- CKPT_ACK: the spare has stored checkpoint n. -/
def execCkptAck (n : WithReads Word) (s : State) : Out := .next (unlessFenced (ckptAcked n.val.toNat n.reads) s)

/-! ### Composition maps (09 R254 to R257) -/

/-- The staged role of a slot (09 *MAP_SLOTn*). -/
def stagedRole (s : State) (slot : Nat) : Nat :=
  let w := (Tab.getD s.pair.mapSlot (slot / 4) 0).toNat
  w / 2 ^ (8 * (slot % 4)) % 4

/-- A slot whose PARTNER byte names a slot holds the cache role while that slot does not (09 R255 check 2). -/
def pairingBroken (s : State) : Bool :=
  match s.forme.committed with
  | none => false
  | some f =>
    f.header.role == 3 && (List.range 16).any (fun d =>
      match f.role.partner[d]? with
      | some b => b != 0xFF && stagedRole s d == 3 && stagedRole s (b.toNat % 16) != 3
      | none => false)

/-- The checks of MAP_INSTALL in their order (09 R255). -/
def mapCheck (s : State) : Status :=
  if (List.range 16).all (fun d => stagedRole s d == 0) then .malformed
  else if stagedRole s (mySlot s).toNat ≠ roleOf s || pairingBroken s then .formeMismatch
  else
    match mapCurrent s with
    | some c =>
      if !newer 32 s.pair.mapEpoch.toNat c.epoch.toNat then .epochStale
      else if 4 ≤ s.pair.maps.length then .retryLater
      else .ok
    | none => if 4 ≤ s.pair.maps.length then .retryLater else .ok

/-- Tick at which a lease of MAP_LEASE ends. -/
def leaseFrom (s : State) : Nat := s.tb + s.pair.mapLease * Config.tbPerMs

/-- The staged map becomes current, the one before it draining (09 R255). -/
def mapInstall (s : State) : State :=
  { s with pair := { s.pair with
      maps := s.pair.maps.map (fun m => { m with current := false })
        ++ [{ epoch := s.pair.mapEpoch, roles := (List.range 16).map (stagedRole s), leaseEnd := leaseFrom s, current := true }] } }

/-- PAIR_CTRL.MAP_INSTALL. -/
def execMapInstall (w : CtlWrite) (s : State) : Out :=
  .next (pairCtl w 2 (fun s =>
    let s := mapPrune s
    let c := mapCheck s
    if c = .ok then pairCode .ok (mapPrune (mapInstall s)) else pairCode c s) s)

/-- PAIR_CTRL.MAP_RENEW. -/
def execMapRenew (w : CtlWrite) (s : State) : Out :=
  .next (pairCtl w 3 (fun s =>
    if (mapCurrent s).isNone then pairCode .denied s
    else pairCode .ok { s with pair := { s.pair with
      maps := s.pair.maps.map (fun m => if m.current then { m with leaseEnd := leaseFrom s } else m) } }) s)

/-- MAP_LEASE_END: a draining epoch whose lease has ended leaves the table at drain count zero (09 R257). -/
def execMapLeaseEnd (epoch : Word) (s : State) : Out :=
  .next (if s.pair.maps.any (fun m => m.epoch == epoch && decide (m.leaseEnd ≤ s.tb)) then mapPrune s else s)

/-! ### Liveness (09 R259 to R263) -/

/-- LIVE_RENEW ms have passed since the last RENEW or ADMIT_REQ. -/
def renewDue (s : State) : Bool :=
  match s.pair.lastRenew with
  | none => true
  | some t => decide (t + s.pair.renew * Config.tbPerMs ≤ s.tb)

/-- RENEW of a live device, ADMIT_REQ of one that is fenced or not yet admitted and aligned (09 R259, R260). -/
def renewTick (s : State) : State :=
  if !renewDue s || !slUp s || !s.maint.pwrgd || s.maint.silent then s
  else
    let n := s.pair.slSeq
    if s.pair.live = 1 then
      slSend (.renew (myDev s) s.pair.epoch n s.tb) { s with pair := { s.pair with
        slSeq := n + 1, renews := s.pair.renews ++ [(n, s.tb)], lastRenew := some s.tb } }
    else if s.repro.aligned then
      slSend (.admitReq (myDev s) s.pair.epoch n s.tb) { s with pair := { s.pair with
        slSeq := n + 1, admits := s.pair.admits ++ [(n, s.tb)], lastRenew := some s.tb } }
    else s

/-- RENEW_TIMER. -/
def execRenewTimer (s : State) : Out := .next (renewTick s)

/-- A GRANT extends the lease from the send tick of the RENEW it echoes, never backwards (09 R259). -/
def grant (seq leaseMs : Nat) (s : State) : State :=
  match s.pair.renews.find? (fun r => r.1 == seq) with
  | none => s
  | some (_, t) =>
    { s with pair := { s.pair with
        renews := s.pair.renews.filter (fun r => r.1 != seq), expiry := max s.pair.expiry (t + leaseMs * Config.tbPerMs) } }

/-- GRANT. -/
def execGrant (dev : DevId) (_xepoch : BitVec 16) (seq : Word) (leaseMs : Nat) (s : State) : Out :=
  .next (if dev = myDev s && s.pair.live = 1 then grant seq.toNat leaseMs s else s)

/-- DENY fences the device it names (09 R260). -/
def execDeny (dev : DevId) (_seq : Word) (s : State) : Out := .next (if dev = myDev s then selfFence s else s)

/-- LEASE_EXPIRY: the time base has reached the lease expiry (09 R260). -/
def execLeaseExpiry (s : State) : Out := .next (if s.pair.expiry ≤ s.tb then selfFence s else s)

/-- EXCLUDE: naming itself, the device fences itself; otherwise R262. A fenced device drops it (09 R260). -/
def execExclude (dev : DevId) (xepoch : BitVec 16) (s : State) : Out :=
  .next (unlessFenced (fun s => if dev = myDev s then selfFence s else excludePeer dev.toNat xepoch s) s)

/-- ADMIT (09 R263). -/
def execAdmitMsg (dev : DevId) (xepoch : BitVec 16) (seq : Word) (leaseMs : Nat)
    (table : List (DevId × Bool × BitVec 16)) (s : State) : Out :=
  .next (if dev = myDev s && fenced s then readmit xepoch seq.toNat leaseMs table s else s)

/-- JOIN (09 R261); a fenced device drops it (R260). -/
def execJoin (dev : DevId) (xepoch : BitVec 16) (s : State) : Out := .next (unlessFenced (joinPeer dev.toNat xepoch) s)

end Sys2Proof.Machine
end

