-- ==== Sys2Proof/Machine/LinkOps.lean ====
section
/-!
DEFINITION. The operations of the optical links (12): training (R324), the frames of a session (R325 to R327), going down
(R328, R335; 10 R285), keys (R330, R331; 15 R400, R403), the time base (14 R371, R372), and the egress scheduler
(R329, R332 to R336).
-/

namespace Sys2Proof.Machine

/-! ### Kinds of link -/

/-- The link is taken out of service by NEAR_DISABLE or LINK_FAR_DISABLE (10 R289, 12 R339). -/
def linkOff (s : State) (n : Nat) : Bool :=
  if n < 15 then s.near.disable.toNat.testBit n else if n < 31 then s.links.farDisable.toNat.testBit (n - 15) else false

/-- The link carries a session: it is UP, or DRAINING (10 R289). -/
def linkOpen (s : State) (n : Nat) : Bool := (link s n).state == 2 || (link s n).state == 4

/-! ### Going down -/

/-- A packet's flags on a direct or a two-hop path (10 R271). -/
def setTwo (two : Bool) (h : TrayHdr) : TrayHdr := { h with flags := if two then h.flags ||| 2 else h.flags &&& 0xFD }

/-- The tray slot a packet goes to. -/
def packetSlot (p : Packet) : Option Nat :=
  match p with
  | .trayReq r => some ((reqHdr r).dst.toNat % 16)
  | .trayResp h _ | .trayFwd h _ | .credit h _ | .lstate h _ _ _ => some (h.dst.toNat % 16)
  | .nearFw d _ => some (d.toNat % 16)
  | .pod .. | .podAck .. | .podFw .. | .sl _ | .time => none

/-- The packet as it goes on a direct or a two-hop path. A forwarded packet is unchanged (10 R287). -/
def reroute (two : Bool) (p : Packet) : Packet :=
  match p with
  | .trayReq r => .trayReq (withHdr r (setTwo two (reqHdr r)))
  | .trayResp h x => .trayResp (setTwo two h) x
  | .credit h c => .credit (setTwo two h) c
  | .lstate h l r m => .lstate (setTwo two h) l r m
  | p => p

/-- A queued packet moves to link `n`, to the queue of its class, TC and slot, and is stamped again (12 R335). -/
def moveQueued (n : Nat) (pkt : Packet) (q : Queued) (s : State) : State :=
  if mayEmit s then pushPacket n pkt q.cls q.tc q.slot q.tenant q.payload (q.bytes - q.payload) s else s

/-- A packet that waited for a near link that went down moves to the link that R286 chooses (12 R335). -/
def requeueNear (q : Queued) (s : State) : State :=
  match packetSlot q.pkt with
  | none => s
  | some d =>
    match trayRoute s d with
    | none => s
    | some (n, via) =>
      let s := moveQueued n (reroute via.isSome q.pkt) q s
      match q.pkt with
      | .trayReq r =>
        trayDstUpd d (fun x => { x with out := x.out.map (fun o => if o.seq = (reqHdr r).seq.toNat then { o with via := via } else o) }) s
      | _ => s

/-- A message that waited for a far link that went down is given a plane anew, or waits until a far link is UP (12 R335, 11 R303). -/
def requeueFar (q : Queued) (s : State) : State :=
  let move (h : PodHdr) (n : Nat) : State :=
    let k := planeFor s h.id.toNat n
    let s := match k with
      | some k => moveQueued (15 + k) q.pkt q s
      | none => s
    if q.cls = 2 then
      { s with rma := { s.rma with out := s.rma.out.map (fun o => if o.id = h.id.toNat then { o with plane := k.getD 16 } else o) } }
    else s
  match q.pkt with
  | .pod h _ | .podFw h _ => move h (((s.rma.out.find? (fun o => o.id == h.id.toNat)).map (fun o => o.retx)).getD 0)
  | .podAck h _ => move h 0
  | _ => s

/-- The requests among queued packets, as destination slot and SEQ. -/
def queuedReqs (qs : List Queued) : List (Nat × Nat) :=
  qs.filterMap (fun q => match q.pkt with
    | .trayReq r => some ((reqHdr r).dst.toNat % 16, (reqHdr r).seq.toNat)
    | _ => none)

/-- The consequences of a link's end for the owner of its traffic (12 R328, R335; 10 R285, R286). `before`: the state while
the link was UP; `qs`: what waited in its queue. -/
def ownerLosesLink (n : Nat) (qs : List Queued) (before s : State) : State :=
  if n < 15 then
    let s := qs.foldl (fun s q => requeueNear q s) (nearLinkLost (nearSlot s n) (queuedReqs qs) s)
    nearDrained (sendLstate (creditsRepath before s))
  else if n < 31 then farDrained (qs.foldl (fun s q => requeueFar q s) s)
  else s

/-- A link with a session goes down: frames in flight, retry buffer and credits are discarded, and the owner of its traffic
is told (12 R328). A link that is taken out of service is DISABLED. -/
def linkGoesDown (n : Nat) (s : State) : State :=
  let l := link s n
  if l.state == 2 || l.state == 4 then
    let long := match l.upAt with
      | some t => decide (t + 10000 * Config.tbPerMs ≤ s.tb)
      | none => false
    let off := linkOff s n
    ownerLosesLink n l.queue s (noteErr 10 n (0x1018 + 0x40 * n)
      (linkUpd n (fun l => { sessionOver l with
        state := if off then 5 else 0, downs := satInc l.downs, backoff := if long then 1 else l.backoff }) s))
  else s

/-! ### Training (12 R324) -/

/-- An attempt starts. -/
def trainStart (n : Nat) (s : State) : State :=
  let l := link s n
  if s.maint.pwrgd && s.sec.boot == 1 && (l.state == 0 || l.state == 3) && !linkOff s n && !l.authFail && decide (l.waitUntil ≤ s.tb) then
    linkUpd n (fun l => { l with state := 1, phase := 1, phaseAt := s.tb, keyed := false }) s
  else s

/-- The bound of a phase in ms (12 R324). -/
def phaseBound (p : Nat) : Nat :=
  match p with
  | 1 => 5
  | 2 => 15
  | 3 => 1
  | 4 => 1
  | 5 => 20
  | _ => 8

/-- The phase a link trains in has passed its bound (12 R324). -/
def phaseOver (s : State) (n : Nat) : Bool :=
  let l := link s n
  decide (l.phaseAt + phaseBound l.phase.toNat * Config.tbPerMs ≤ s.tb)

/-- The links that fibre LFi feeds (12 R323). -/
def fibreLinks (i : Nat) : List Nat :=
  if i < 4 then [i, i + 4, 15 + i, 19 + i]
  else if i < 7 then [4 + i, 8 + i, 19 + i, 23 + i] else [11, 31, 26, 30]

/-- A fibre's lowest wavelength power as measured: LOW below 13.0 dBm, and the tick since which it is below 12.0 dBm (12 R323, R339). OFF
ends where it is no longer below that (log entry 213). -/
def laserMeasured (i : Nat) (power : BitVec 16) (s : State) : State :=
  let old := Tab.getD s.links.lasers i {}
  let low := decide (power.toInt < 1300)
  let dark := decide (power.toInt < 1200)
  let s := { s with links := { s.links with lasers := Tab.put s.links.lasers i { old with
    power := power, low := low, below := if dark then some (old.below.getD s.tb) else none, off := old.off && dark } } }
  if low && !old.low then noteErr 10 (32 + i) (0x20 + 4 * i) s else s

/-- The laser fibre that feeds a link (12 R323). -/
def fibreOf (n : Nat) : Nat := ((List.range 8).find? (fun i => (fibreLinks i).contains n)).getD 0

/-- An attempt fails: the link waits before it retrains, twice as long after each further failure, up to 1,024 ms. -/
def trainFail (n : Nat) (state : BitVec 4) (s : State) : State :=
  linkUpd n (fun l => { l with
    state := state, waitUntil := s.tb + l.backoff * Config.tbPerMs, backoff := min 1024 (2 * l.backoff) }) s

/-- Phase 4: the far end is the one that R8, R7 or the tray's wiring names (10 R289, 12 R324). -/
def identified (s : State) (n : Nat) (r : PhaseResult) : Bool :=
  if n < 15 then decide (r.farDev.toNat = (devOfSlot s (nearSlot s n)).toNat) && decide (r.farLink = 14 - n)
  else if n < 31 then decide (r.farPlane = n - 15)
  else decide (r.farPlane = 16)

/-- Phase 5: attestation of both ends (15 R398). -/
def attested (s : State) (n : Nat) (r : PhaseResult) : Bool :=
  if n < 15 then
    r.certOk && r.farDebug == s.sec.debug && r.farMeas7 == measurement s 7
      && (match s.forme.committed, r.farModel with
          | some c, some m => c.header.modelDigest == m
          | _, _ => true)
  else r.planeCert

/-- The direction byte of a link's nonces: 1 from the higher device identifier of a near link (12 R330). -/
def nonceDir (s : State) (n : Nat) : Byte := if n < 15 && decide ((devOfSlot s (nearSlot s n)).toNat < (myDev s).toNat) then 1 else 0

/-- The header of the next frame of link `n`, of sequence number `seq`, with its nonce: SESSION, direction, a zero byte and TXC (12 R325,
R330). -/
def txHdr (s : State) (n seq : Nat) : TxHdr :=
  let l := link s n
  { keyPhase := l.keyPhase, session := l.session.extractLsb' 0 16, seq := BitVec.ofNat 32 seq
    ack := BitVec.ofNat 32 ((l.rxSeq + (2 ^ 32 - 1)) % 2 ^ 32)
    credits := (List.range 3).map (fun c => BitVec.ofNat 32 (Tab.getD l.freed c 0)), txc := BitVec.ofNat 64 l.txc
    nonce := leBytes 2 (l.session.toNat % 2 ^ 16) ++ [nonceDir s n, 0] ++ leBytes 8 l.txc }

/-- Link `n` may send `k` frames: TXC under one key stays below 2^32 (12 R331). -/
def txRoom (s : State) (n k : Nat) : Bool := decide ((link s n).txc + k ≤ 2 ^ 32)

/-- A frame outside the sequence leaves on a link, under the next count; a fenced or silent device sends none (01 R32, 09 R260). -/
def sendFrame (n : Nat) (seq : Nat) (e : TxHdr → Emit) (s : State) : State :=
  if mayEmit s && txRoom s n 1 then emit (e (txHdr s n seq)) (linkUpd n (fun l => { l with txc := l.txc + 1 }) s) else s

/-- A KEY frame is sent (12 R330, R331; 15 R403); with its retry buffer full a link sends IDLE and NAK frames only, and the KEY frame waits
(12 R326). -/
def sendKey (n : Nat) (k : KeyOut) (s : State) : State :=
  if (link s n).retry.length < 256 then sendFrame n 0 (fun h => .key n h k) s
  else linkUpd n (fun l => { l with keyWait := l.keyWait ++ [k] }) s

/-- KEY frames that waited for room in the retry buffer go (12 R326). -/
def keysGo (n : Nat) (s : State) : State :=
  let l := link s n
  if l.keyWait.isEmpty || decide (256 ≤ l.retry.length) then s
  else l.keyWait.foldl (fun s k => sendKey n k s) (linkUpd n (fun l => { l with keyWait := [] }) s)

/-- Messages without a plane take one, now that a far link is UP (11 R303). -/
def podPlaceAll (s : State) : State :=
  (s.rma.out.filter (fun o => o.plane == 16 && !o.aired)).foldl (fun s o => podPlace o.id s) s

/-- A link comes UP: a new session begins, and the owner of its traffic is told (12 R324; 10 R268, R272, R286; 15 R403). -/
def linkComesUp (n : Nat) (s : State) : State :=
  let s1 := linkUpd n (fun l => { sessionOver l with
    state := 2, phase := 7, session := l.session + 1, upAt := some s.tb }) s
  if n < 15 then
    let d := nearSlot s n
    let s2 := { s1 with near := { s1.near with lstate := Tab.del s1.near.lstate d } }
    let s3 := sendLstate (creditsRepath s s2)
    let s3 := if trayRoute s d == trayRoute s3 d then resendCredits d s3 else s3
    match s3.sec.podGen with
    | some g => sendKey n (.podKey g) s3
    | none => s3
  else if n < 31 then rmaPump (podPlaceAll s1)
  else s1

/-- The laser power and the received power of a link, as measured (12 R323, R339). -/
def linkMeasured (r : PhaseResult) (s : State) : State :=
  let i := fibreOf r.link.toNat
  let s := linkUpd r.link.toNat (fun l => { l with rxPwr := r.rxPwr }) s
  laserMeasured i r.laser s

/-- The next phase of training begins; phase 6 with the hybrid exchange in a KEY frame (12 R324, R330). -/
def phaseNext (n : Nat) (s : State) : State :=
  let s := linkUpd n (fun l => { l with phase := l.phase + 1, phaseAt := s.tb }) s
  if (link s n).phase == 6 then sendKey n .session s else s

/-- A training phase ends, within its bound: past it the attempt has failed (12 R324). Phase 1 needs laser power within R323, phase 6
the confirmed keys (R330; log entry 217). -/
def phaseDone (r : PhaseResult) (s : State) : State :=
  let n := r.link.toNat
  let l := link s n
  if l.state != 1 then s
  else if phaseOver s n then trainFail n 0 s else
  let s := linkMeasured r s
  match l.phase.toNat with
  | 4 =>
    let s := if n < 15 then
        linkUpd n (fun l => { l with farSlot := BitVec.ofNat 4 (r.farDev.toNat % 16), farLink := BitVec.ofNat 4 r.farLink }) s
      else s
    if identified s n r then phaseNext n s
    else
      let s := trainFail n 3 s
      if n < 15 then noteErr 8 n (0x040 + 4 * n) s else s
  | 5 =>
    if attested s n r then phaseNext n s
    else linkUpd n (fun l => { l with phase := 0xF, authFail := true }) (trainFail n 0 s)
  | 6 => if l.keyed then linkComesUp n s else s
  | 1 => if decide (1400 ≤ r.laser.toInt) && decide (r.laser.toInt ≤ 1800) then phaseNext n s else s
  | p => if p = 2 || p = 3 then phaseNext n s else s

/-! ### Frames (12 R325 to R327, R329) -/

/-- Serial-number order of 32-bit sequence numbers: `a` is at or before `b`. -/
def seqLe (a b : Nat) : Bool := !newer 32 a b

/-- A frame's TAG verifies under a key of this session and of a phase the receiver holds (12 R325, R331). -/
def frameTag (l : Link) (f : Frame) : Bool :=
  f.tagOk && f.session == l.session.extractLsb' 0 16 && (f.keyPhase == l.rxPhase || l.twoKeys)

/-- The first frame of the new phase discards the old key (12 R331). -/
def takePhase (n : Nat) (f : Frame) (s : State) : State :=
  if f.keyPhase == (link s n).rxPhase then s
  else linkUpd n (fun l => { l with rxPhase := f.keyPhase, twoKeys := false }) s

/-- A frame is discarded: a NAK names the first sequence number still lacking (12 R326). -/
def frameDiscard (n : Nat) (s : State) : State := sendFrame n (link s n).rxSeq (fun h => .nak n h) s

/-- The ACK of a frame frees the retry buffer as far as it reaches (12 R326). -/
def takeAck (n : Nat) (f : Frame) (s : State) : State :=
  keysGo n <| linkUpd n (fun l =>
    let left := l.retry.filter (fun q => !seqLe q f.ack.toNat)
    { l with retry := left, ackAt := if left.length < l.retry.length then s.tb else l.ackAt }) s

/-- The cumulative credit counts of a frame (12 R329). -/
def takeCredits (n : Nat) (f : Frame) (s : State) : State :=
  (List.range 3).foldl (fun s c =>
    match f.credits[c]? with
    | none => s
    | some v =>
      linkUpd n (fun l =>
        if newer 32 v.toNat (Tab.getD l.granted c 0) then { l with granted := Tab.put l.granted c v.toNat } else l) s) s

/-- The codewords of a frame are counted: corrected, uncorrectable, and of these those of the last 1 ms (12 R328, R339). -/
def countCodewords (n : Nat) (f : Frame) (s : State) : State :=
  linkUpd n (fun l => { l with
    fecCorr := satAdd l.fecCorr f.fecCorr, fecUnc := satAdd l.fecUnc f.fecUnc
    uncAt := if f.fecUnc = 0 then l.uncAt
      else (s.tb, f.fecUnc) :: l.uncAt.filter (fun e => decide (s.tb < e.1 + Config.tbPerMs)) }) s

/-- A frame passes FEC, CRC and TAG, or is counted and discarded (12 R326, R328). -/
def frameChecked (f : Frame) (run : Nat → State → State) (s : State) : State :=
  let n := f.link.toNat
  if !linkOpen s n then s else
  let s := countCodewords n f s
  if f.fecUnc ≠ 0 then frameDiscard n s
  else if !f.crcOk then frameDiscard n s
  else if !frameTag (link s n) f then
    frameDiscard n (noteErr 10 n (0x1014 + 0x40 * n)
      (linkUpd n (fun l => { l with authErr := satInc l.authErr, authAt := (s.tb :: l.authAt).take 5 }) s))
  else run n (takePhase n f s)

/-- One segment reaches the fabric above; a whole packet leaves the buffer and returns its credits (12 R325, R329). -/
def takeSegment (n : Nat) (g : Segment) (s : State) : State :=
  let c := g.cls.toNat
  linkUpd n (fun l =>
    let b := (if g.first then 0 else Tab.getD l.part c 0) + g.bytes
    if g.last then
      { l with part := Tab.put l.part c 0, freed := Tab.put l.freed c ((Tab.getD l.freed c 0 + cdiv b 64) % 2 ^ 32) }
    else { l with part := Tab.put l.part c b }) s

/-- A frame that carries a sequence number is taken in order, once (12 R326, R327). -/
def inOrder (f : Frame) (run : State → State) (n : Nat) (s : State) : State :=
  if f.seq.toNat = (link s n).rxSeq then
    run (takeCredits n f (takeAck n f (linkUpd n (fun l => { l with rxSeq := (l.rxSeq + 1) % 2 ^ 32 }) s)))
  else frameDiscard n s

/-- Every frame from a sequence number on is sent again, in order, with new TXC values (12 R326); none while the device is fenced
(01 R32). -/
def replayFrom (n : Nat) (seq : Nat) (s : State) : State :=
  let k := ((link s n).retry.filter (fun q => seqLe seq q)).length
  if k = 0 || !mayEmit s || !txRoom s n k then s
  else emit (.replay n (txHdr s n seq)) (linkUpd n (fun l => { l with replay := satAdd l.replay k, txc := l.txc + k }) s)

/-- A frame with a sequence number is sent: it is kept until an ACK covers it (12 R325, R326). -/
def sendFrames (n k : Nat) (s : State) : State :=
  linkUpd n (fun l => { l with
    txSeq := (l.txSeq + k) % 2 ^ 32, txc := l.txc + k
    retry := l.retry ++ (List.range k).map (fun i => (l.txSeq + i) % 2 ^ 32)
    ackAt := if l.retry.isEmpty then s.tb else l.ackAt }) s

/-! ### Keys (12 R330, R331; 15 R400, R403) -/

/-- The far end's rekey: its exchange is answered, and the receiver holds both keys. -/
def takeRekey (n : Nat) (ok : Bool) (s : State) : State :=
  if ok then sendKey n .rekeyConfirm (linkUpd n (fun l => { l with twoKeys := true }) s) else s

/-- This end's rekey is confirmed: its next frame is of the new phase, under a new count. -/
def takeConfirm (n : Nat) (ok : Bool) (s : State) : State :=
  if ok && (link s n).rekeyAt.isSome then
    linkUpd n (fun l => { l with keyPhase := !l.keyPhase, txc := 0, rekeyAt := none, rekeys := satInc l.rekeys }) s
  else s

/-- A KEY frame with a fresh exchange is sent, unless the device is fenced (01 R32); the old key serves until both ends have confirmed the
new one (12 R331). -/
def rekeyStart (n : Nat) (s : State) : State :=
  if linkOpen s n && (link s n).rekeyAt.isNone && mayEmit s then
    sendKey n .rekey (linkUpd n (fun l => { l with rekeyAt := some s.tb }) s)
  else s

/-- A KEY frame of phase 6 of training: the hybrid exchange with its confirmation (12 R330). -/
def takeSession (f : Frame) (p : KeyPayload) (s : State) : State :=
  let n := f.link.toNat
  match p with
  | .session ok =>
    if (link s n).state == 1 && (link s n).phase == 6 && f.fecUnc == 0 && f.crcOk && ok then linkUpd n (fun l => { l with keyed := true }) s
    else s
  | _ => s

/-- The pod key is obtained: messages that waited for it go, the other near links' ends are told, and a fetch that runs has
its answer (15 R403). -/
def takePodKey (gen : Word) (s : State) : State :=
  if s.sec.podGen.isSome then s
  else
    let s := fetchEnds .ok { s with sec := { s.sec with podGen := some gen } }
    rmaPump ((List.range 15).foldl (fun s k => if linkIsUp s k then sendKey k (.podKey gen) s else s) s)

/-- What a KEY frame carries takes effect. -/
def takeKey (p : KeyPayload) (n : Nat) (s : State) : State :=
  match p with
  | .session _ => s
  | .rekey ok => takeRekey n ok s
  | .rekeyConfirm ok => takeConfirm n ok s
  | .podKey gen ok => if ok && n < 15 then takePodKey gen s else s
  | .pairSecret id ok =>
    if ok && n < 15 && partnerSlot s == some (nearSlot s n) then { s with sec := { s.sec with pairSecret := some id } } else s

/-! ### The time base (14 R371, R372) -/

/-- The median of offsets: of an even number, the mean of the middle two, rounded down (log entry 71). -/
def median (l : List Int) : Int :=
  let x := sortBy (fun a b : Int => decide (a ≤ b)) l
  let n := x.length
  if n % 2 = 1 then x[n / 2]?.getD 0 else (x[n / 2 - 1]?.getD 0 + x[n / 2]?.getD 0) / 2

/-- The counter's one step: after a cold start, or after a re-admission (14 R371, R372). -/
def stepCounter (m : Int) (s : State) : State :=
  let planes : Tab (Int × Nat) := s.repro.planes.map (fun e => (e.1, (e.2.1 - m, e.2.2)))
  { s with
    tb := ((s.tb : Int) + m).toNat
    repro := { s.repro with
      stepped := true, steps := satInc s.repro.steps, planes := planes, slewLeft := 0, lastSlew := none } }

/-- The median of an exchange: ALIGNED sets within ±1 tb and clears after eight in a row beyond ±2 tb. -/
def takeMedian (m : Int) (s : State) : State :=
  let bad := if m > 2 || m < -2 then s.repro.badRun + 1 else 0
  let within := decide (-1 ≤ m) && decide (m ≤ 1)
  let lost := s.repro.aligned && decide (8 ≤ bad)
  let s1 := { s with repro := { s.repro with
    offset := BitVec.ofInt 16 m, badRun := bad, slewLeft := m
    aligned := (s.repro.aligned || within) && !lost
    alignedAt := if within && !s.repro.aligned then some s.tb else s.repro.alignedAt } }
  if lost then noteErr 13 0 0x004 s1 else s1

/-- A TIME exchange with a plane is complete: the counter is corrected towards the median offset. -/
def timeExchange (x : TimeExchange) (s : State) : State :=
  let o : Int := (((x.t2.toNat : Int) - x.t1.toNat) - ((x.t4.toNat : Int) - x.t3.toNat)) / 2
  let planes := Tab.put s.repro.planes x.plane.toNat (o, s.tb)
  let m := median (planes.map (fun e => e.2.1))
  let s := { s with repro := { s.repro with planes := planes, lastExchange := some s.tb } }
  if s.repro.stepped then takeMedian m s
  else stepCounter m { s with repro := { s.repro with offset := BitVec.ofInt 16 m } }

/-! ### The egress scheduler (12 R329, R332 to R336) -/

/-- Receive-buffer bytes of a credit class (12 R329). -/
def classBytes (n c : Nat) : Nat :=
  if n < 15 then (if c = 0 then 96 else if c = 1 then 64 else 96) * 1024
  else if n < 31 then (if c = 0 then 32 else if c = 1 then 64 else 160) * 1024
  else if c = 0 then 64 * 1024 else 0

/-- The link holds credit of its class for a packet. -/
def hasCredit (s : State) (n : Nat) (q : Queued) : Bool :=
  let l := link s n
  let held := (classBytes n q.cls / 64 + Tab.getD l.granted q.cls 0 + 2 ^ 32 - Tab.getD l.spent q.cls 0 % 2 ^ 32) % 2 ^ 32
  decide (cdiv q.bytes 64 ≤ held)

/-- A queue of a slot is eligible: slot 0 and unshaped slots always, others while their bucket is above zero (12 R336). -/
def slotEligible (s : State) (n slot : Nat) : Bool :=
  slot == 0 || (shapeSlot s.links.live (dieOf n) slot).rate == 0 || decide (0 < Tab.getD s.links.tokens (dieOf n * 256 + slot) 0)

/-- The first packet of each queue (TC, slot) of the shaped classes, in queue order. -/
def wfqHeads (qs : List Queued) : List Queued :=
  qs.foldl (fun hs q =>
    if q.cls = 2 && q.tc ≠ 0 && !hs.any (fun h => h.tc == q.tc && h.slot == q.slot) then hs ++ [q] else hs) []

/-- The head a fair-queueing link serves: the smallest finish time, ties to the lower (TC, slot) (12 R333). -/
def wfqFirst (hs : List Queued) : Option Queued :=
  hs.foldl (fun best q => match best with
    | none => some q
    | some b =>
      if newer 48 b.fin q.fin || (b.fin == q.fin && decide (q.tc * 256 + q.slot < b.tc * 256 + b.slot)) then some q else some b) none

/-- The packet that the link sends next (12 R332). -/
def nextPacket (s : State) (n : Nat) : Option Queued :=
  let qs := (link s n).queue
  let fifo (p : Queued → Bool) : Option Queued := (qs.find? p).filter (fun q => hasCredit s n q)
  (fifo (fun q => q.cls == 0)).or ((fifo (fun q => q.cls == 1)).or ((fifo (fun q => q.cls == 2 && q.tc == 0)).or
    (wfqFirst ((wfqHeads qs).filter (fun q => hasCredit s n q && slotEligible s n q.slot)))))

/-- A queued pod message that need not be sent any more: it is no longer in flight, or a retransmission past the bound of R304 (11 R304,
R308, R317). -/
def podLapsed (s : State) (p : Packet) : Bool :=
  match p with
  | .pod h _ | .podFw h _ =>
    match s.rma.out.find? (fun o => o.id == h.id.toNat) with
    | none => true
    | some o => o.acked || (o.aired && decide (o.first + 40000 ≤ s.tb))
  | _ => false

/-- While fenced, a device sends its ADMIT_REQ and its TIME frames alone (09 R260; log entry 85). -/
def maySend (s : State) (p : Packet) : Bool :=
  match p with
  | .time | .sl (.admitReq ..) => s.maint.pwrgd && !s.maint.silent
  | _ => mayEmit s

/-- Remove the first packet that equals `q`. -/
def dropFirst (q : Queued) : List Queued → List Queued
  | [] => []
  | x :: rest => if x = q then rest else x :: dropFirst q rest

/-- Frames a packet takes: each carries up to 1,992 bytes behind a segment header (12 R325). -/
def packetFrames (q : Queued) : Nat := max 1 (cdiv q.bytes 1992)

/-- Counted bytes of a packet: payload and leading (12 R334, R336). -/
def counted (s : State) (n : Nat) (q : Queued) : Nat := q.payload + leading s (n ≤ 14) q.tc

/-- A packet of a shaped slot debits its bucket (12 R336). -/
def debit (n : Nat) (q : Queued) (s : State) : State :=
  let key := dieOf n * 256 + q.slot
  if q.cls = 2 && q.tc ≠ 0 && q.slot ≠ 0 && (shapeSlot s.links.live (dieOf n) q.slot).rate != 0 then
    { s with links := { s.links with tokens := Tab.put s.links.tokens key (Tab.getD s.links.tokens key 0 - (counted s n q : Int)) } }
  else s

/-- The packet as it leaves: the first transmission of a message stamps FIRST_TB (11 R301, R304). -/
def stampFirst (s : State) (p : Packet) : Packet :=
  let first (h : PodHdr) : PodHdr :=
    if s.rma.out.any (fun o => o.id == h.id.toNat && !o.aired) then { h with firstTb := BitVec.ofNat 64 s.tb } else h
  match p with
  | .pod h x => .pod (first h) x
  | .podFw h m => .podFw (first h) m
  | p => p

/-- A message in flight is transmitted: the first time its FIRST_TB is stamped and RMA_TX counts it (11 R304, R321). -/
def podAired (id : Nat) (s : State) : State :=
  let first := s.rma.out.any (fun o => o.id == id && !o.aired)
  { s with rma := { s.rma with
      tx := if first then s.rma.tx + 1 else s.rma.tx
      out := s.rma.out.map (fun o => if o.id ≠ id then o
        else if o.aired then { o with sent := s.tb }
        else { o with aired := true, first := s.tb, sent := s.tb, hdr := { o.hdr with firstTb := BitVec.ofNat 64 s.tb } }) } }

/-- The tick at which an outstanding request or message was last sent is now (10 R266, 11 R304). -/
def stampSent (p : Packet) (s : State) : State :=
  match p with
  | .trayReq r =>
    trayDstUpd ((reqHdr r).dst.toNat % 16) (fun x => { x with
      out := x.out.map (fun o => if o.seq = (reqHdr r).seq.toNat then { o with sent := s.tb } else o) }) s
  | .pod h _ | .podFw h _ => podAired h.id.toNat s
  | _ => s

/-- Payload bytes are charged to the tenant of the packet (13 R357, R358). -/
def chargeLink (n : Nat) (q : Queued) (s : State) : State :=
  meterAdd q.tenant.toNat (fun m =>
    if n < 15 then { m with near := m.near + BitVec.ofNat 64 q.payload } else { m with far := m.far + BitVec.ofNat 64 q.payload }) s

/-- A packet is sent in DATA frames, TIME in a frame of its own (12 R325). -/
def sendPacket (n : Nat) (q : Queued) (s : State) : State :=
  let key := q.tc * 256 + q.slot
  let wfq := q.cls = 2 && q.tc ≠ 0
  let bytes := counted s n q
  let h := txHdr s n (link s n).txSeq
  let e : Emit := match q.pkt with
    | .time => .time n h s.tb
    | p => .packet n h (stampFirst s p)
  let s := linkUpd n (fun l => { l with
    queue := dropFirst q l.queue
    vtime := if wfq then q.fin else l.vtime
    spent := Tab.put l.spent q.cls ((Tab.getD l.spent q.cls 0 + cdiv q.bytes 64) % 2 ^ 32)
    sent := if q.cls = 2 then Tab.put l.sent key (Tab.getD l.sent key 0 + bytes) else l.sent
    maxAge := if q.cls = 2 then Tab.put l.maxAge key (max (Tab.getD l.maxAge key 0) (s.tb - q.at_)) else l.maxAge }) s
  emit e (stampSent q.pkt (chargeLink n q (sendFrames n (packetFrames q) (debit n q s))))

/-- A packet leaves the queue unsent. -/
def dropQueued (n : Nat) (q : Queued) (s : State) : State := linkUpd n (fun l => { l with queue := dropFirst q l.queue }) s

/-- An IDLE frame fills the line (12 R325). -/
def sendIdle (n : Nat) (s : State) : State := sendFrame n 0 (fun h => .idle n h) s

/-- One dispatch of a link: the next packet, when the retry buffer has room for its frames; otherwise an IDLE frame (12 R325, R326, R332).
A sender rekeys itself long before TXC ends: at 2^31 (12 R331; log entry 216). -/
def dispatch (n : Nat) (s : State) : State :=
  if !linkOpen s n then s else
  let s := if decide (2 ^ 31 ≤ (link s n).txc) then rekeyStart n s else s
  match nextPacket s n with
  | none => sendIdle n s
  | some q =>
    if podLapsed s q.pkt then
      let s := dropQueued n q s
      if n < 15 then nearDrained s else farDrained s
    else if !maySend s q.pkt then s
    else if decide ((link s n).retry.length + packetFrames q ≤ 256) && txRoom s n (packetFrames q) then
      let s := sendPacket n q s
      if n < 15 then nearDrained s else farDrained s
    else sendIdle n s

end Sys2Proof.Machine
end

