-- ==== Sys2Proof/Machine/Link.lean ====
section
/-!
DEFINITION. The commands of the optical links and the shaper (12 R324 to R339), and the TIME frames of 14 R371.
-/

namespace Sys2Proof.Machine

/-! ### Training (R324) -/

/-- LINK_TRAIN_START. -/
def execLinkTrainStart (n : LinkId) (s : State) : Out := .next (trainStart n.toNat s)

/-- LINK_PHASE_TIMEOUT: a phase misses its bound, the attempt fails and the link is DOWN. -/
def execLinkPhaseTimeout (n : LinkId) (s : State) : Out :=
  .next (if (link s n.toNat).state == 1 && phaseOver s n.toNat then trainFail n.toNat 0 s else s)

/-- LINK_PHASE_DONE. -/
def execLinkPhaseDone (r : PhaseResult) (s : State) : Out := .next (phaseDone r s)

/-! ### Going down (R328) -/

/-- Fibre `i` has been below 12.0 dBm for 10 µs (R323). -/
def laserDark (s : State) (i : Nat) : Bool :=
  (Tab.getD s.links.lasers i {}).below.any (fun t => decide (t + 6250 ≤ s.tb))

/-- FEC-uncorrectable codewords of the last 1 ms (R328). -/
def codewordsLost (s : State) (n : Nat) : Nat :=
  (((link s n).uncAt.filter (fun e => decide (s.tb < e.1 + Config.tbPerMs))).map (fun e => e.2)).sum

/-- The condition holds, as far as the device's own state shows it; the loss of the signal is its receiver's to see. -/
def downHolds (s : State) (n : Nat) (c : DownCause) : Bool :=
  let l := link s n
  match c with
  | .signal => true
  | .fec => decide (1024 < codewordsLost s n)
  | .laser => laserDark s (fibreOf n)
  | .noAck => !l.retry.isEmpty && decide (l.ackAt + 12500 ≤ s.tb)
  | .auth => l.authAt.length == 5 && decide (s.tb ≤ (l.authAt.getLast?).getD 0 + Config.tbPerMs)
  | .rekey => (match l.rekeyAt with
    | some t => decide (t + Config.tbPerMs ≤ s.tb)
    | none => false)
  | .disable => linkOff s n

/-- LINK_DOWN. A link taken out of service goes down only once it is drained (10 R289). -/
def execLinkDown (n : LinkId) (c : DownCause) (s : State) : Out :=
  .next (if c = .disable then farDrained (nearDrained s)
    else if downHolds s n.toNat c then linkGoesDown n.toNat s else s)

/-- A fibre's power: LOW below 13.0 dBm; its links go down, and it is OFF, after 10 µs below 12.0 dBm (R323; log entry 213). -/
def laserPower (i : Nat) (power : BitVec 16) (held : Bool) (s : State) : State :=
  let s := laserMeasured i power s
  if decide (power.toInt < 1200) && (held || laserDark s i) then
    (fibreLinks i).foldl (fun s n => linkGoesDown n s)
      { s with links := { s.links with lasers := Tab.mod s.links.lasers i (fun l => { l with off := true }) } }
  else s

/-- LASER_LOW. -/
def execLaserLow (i : BitVec 3) (power : BitVec 16) (held : Bool) (s : State) : Out := .next (laserPower i.toNat power held s)

/-! ### Frames (R325 to R327, R330, R331) -/

/-- DATA_FRAME. -/
def execDataFrame (f : Frame) (s : State) : Out :=
  .next (frameChecked f (fun n s => inOrder f (fun s => f.segments.foldl (fun s g => takeSegment n g s) s) n s) s)

/-- IDLE_FRAME: only its ACK and credits count. -/
def execIdleFrame (f : Frame) (s : State) : Out :=
  .next (frameChecked f (fun n s => takeCredits n f (takeAck n f s)) s)

/-- NAK_FRAME. -/
def execNakFrame (f : Frame) (s : State) : Out :=
  .next (frameChecked f (fun n s => replayFrom n f.seq.toNat (takeCredits n f (takeAck n f s))) s)

/-- KEY_FRAME. -/
def execKeyFrame (f : Frame) (p : KeyPayload) (s : State) : Out :=
  .next (frameChecked f (fun n s => takeKey p n (takeCredits n f (takeAck n f s))) (takeSession f p s))

/-- TIME_FRAME, from the plane of a far link (14 R371). -/
def execTimeFrame (f : Frame) (x : TimeExchange) (s : State) : Out :=
  .next (frameChecked f (fun n s => inOrder f (fun s => if n = 15 + x.plane.toNat then timeExchange x s else s) n s) s)

/-- REKEY. -/
def execRekey (n : LinkId) (s : State) : Out := .next (rekeyStart n.toNat s)

/-- EGRESS_DISPATCH. -/
def execEgressDispatch (n : LinkId) (s : State) : Out := .next (dispatch n.toNat s)

/-! ### LINK_CTRL and LINK_FAR_DISABLE (R330, R339) -/

/-- The setting of LINK_CTRL: LINK. -/
def linkSettings (w : CtlWrite) (s : State) : State :=
  let v := ((List.range 5).map (fun i => if ctlSetting w i (s.links.sel.toNat.testBit i) then 2 ^ i else 0)).sum
  { s with links := { s.links with sel := BitVec.ofNat 5 v } }

/-- The command protocol of LINK_CTRL: the block has neither BUSY nor CODE. -/
def linkCtl (w : CtlWrite) (own : Nat) (run : State → State) (s : State) : State :=
  ctl w false [5, 6] own (fun _ => false) (fun _ s => s) (linkSettings w) run s

/-- The selected link goes down and trains at once. -/
def retrain (s : State) : State :=
  let n := s.links.sel.toNat
  let s := linkGoesDown n s
  trainStart n (linkUpd n (fun l => { l with
    authFail := false, waitUntil := 0, phase := if l.phase = 0xF then 0 else l.phase
    state := if l.state = 1 || l.state = 3 then 0 else l.state }) s)

/-- LINK_CTRL.RETRAIN. -/
def execRetrain (w : CtlWrite) (s : State) : Out := .next (linkCtl w 5 retrain s)

/-- LINK_CTRL.CLR clears every LINK counter except LINK_SESSIONn. -/
def execLinkClr (w : CtlWrite) (s : State) : Out :=
  .next (linkCtl w 6 (fun s =>
    let ls : Tab Link := s.links.links.map (fun e => (e.1, { e.2 with
      fecCorr := 0, fecUnc := 0, replay := 0, authErr := 0, downs := 0, rekeys := 0 }))
    { s with links := { s.links with links := ls } }) s)

/-- A far link follows its bit of LINK_FAR_DISABLE, as a near link its bit of NEAR_DISABLE (R339, 10 R289). -/
def farFollow (k : Nat) (off : Bool) (s : State) : State :=
  let n := 15 + k
  let st := (link s n).state
  if off && st == 2 then linkUpd n (fun l => { l with state := 4 }) s
  else if off && (st == 0 || st == 1 || st == 3) then linkUpd n (fun l => { l with state := 5 }) s
  else if !off && st == 4 then linkUpd n (fun l => { l with state := 2 }) s
  else if !off && st == 5 then linkUpd n (fun l => { l with state := 0 }) s
  else s

/-- LINK_FAR_DISABLE: a write of the physical function. -/
def execLinkFarDisable (fn : FnId) (v : Word) (s : State) : Out :=
  .next (if pfLive s fn false then
    farDrained ((List.range 16).foldl (fun s k => farFollow k (bit v k) s)
      { s with links := { s.links with farDisable := v.extractLsb' 0 16 } })
  else s)

/-! ### The refill tick (R336 to R338) -/

/-- The packets of a watched queue: slot 0xFF stands for every slot of the link and TC. -/
def watched (s : State) (n tc slot : Nat) : List Queued :=
  (link s n).queue.filter (fun q => q.cls == 2 && q.tc == tc && (slot == 0xFF || q.slot == slot))

/-- What a watched queue's key matches. -/
def watchedKey (tc slot k : Nat) : Bool := k / 256 == tc && (slot == 0xFF || k % 256 == slot)

/-- The telemetry ring of a die. -/
def telRing (s : State) (die : Nat) : TelRing := if die = 0 then s.links.telA else s.links.telB

/-- Change it. -/
def telUpd (die : Nat) (f : TelRing → TelRing) (s : State) : State :=
  if die = 0 then { s with links := { s.links with telA := f s.links.telA } }
  else { s with links := { s.links with telB := f s.links.telB } }

/-- The ring holds a record. A size outside 10 to 20 gives no ring (log entry 72). -/
def telRoom (r : TelRing) : Bool :=
  let z := r.size.toNat
  decide (10 ≤ z) && decide (z ≤ 20) && decide ((r.prod - r.cons).toNat < 2 ^ z)

/-- The fields of one record: TICK, QUEUE, PKTS, BYTES, HEAD_AGE, MAX_AGE, SENT. -/
def telFields (s : State) (n tc slot : Nat) : List Nat :=
  let qs := watched s n tc slot
  let age := match qs with
    | [] => 0
    | q :: _ => s.tb - q.at_
  let l := link s n
  let most := (l.maxAge.filter (fun e => watchedKey tc slot e.1)).foldl (fun m e => max m e.2) age
  let sent := ((l.sent.filter (fun e => watchedKey tc slot e.1)).map (fun e => e.2)).sum
  [s.tb, slot * 256 + dieOf n * 128 + tc * 32 + n, min qs.length 0xFFFF, (qs.map (fun q => counted s n q)).sum, age, most, sent]

/-- One watched queue's record is written, or dropped and counted when the ring is full (R338). -/
def telRecord (die : Nat) (fields : List Nat) (s : State) : State :=
  let r := telRing s die
  if telRoom r then emit (.telemetry die r.prod.toNat fields) (telUpd die (fun r => { r with prod := r.prod + 1 }) s)
  else telUpd die (fun r => { r with drop := satInc r.drop }) s

/-- The watched queues of a die, by link, TC and slot. -/
def watches (s : State) (die : Nat) : List (Nat × Nat × Nat) :=
  (List.range 64).filterMap (fun i =>
    let v := (Tab.getD s.links.watch (die * 64 + i) 0).toNat
    let n := field v 20 16
    if v.testBit 31 && dieOf n = die then some (n, field v 9 8, field v 7 0) else none)

/-- Both dies sample their watched queues; what was counted since the last sample starts anew. -/
def telSample (s : State) : State :=
  let recs := [0, 1].flatMap (fun die => (watches s die).map (fun w => (die, telFields s w.1 w.2.1 w.2.2)))
  let ws := watches s 0 ++ watches s 1
  let s := recs.foldl (fun s r => telRecord r.1 r.2 s) s
  ws.foldl (fun s w => linkUpd w.1 (fun l => { l with
    sent := l.sent.filter (fun e => !watchedKey w.2.1 w.2.2 e.1)
    maxAge := l.maxAge.filter (fun e => !watchedKey w.2.1 w.2.2 e.1) }) s) s

/-- Staged values apply at the tick their COMMIT waits for (R337). -/
def shaperApply (s : State) : State :=
  match s.links.pending with
  | some t => if t ≤ s.tb then { s with links := { s.links with pending := none, live := s.links.staged } } else s
  | none => s

/-- Every shaped slot's bucket takes 1 µs of its rate, up to its depth (R336). -/
def refill (s : State) : State :=
  let tokens : Tab Int := (s.links.live.slots.filter (fun e => e.2.rate != 0 && e.1 % 256 ≠ 0)).foldl (fun t e =>
    Tab.put t e.1 (min (e.2.depth.toNat : Int) (Tab.getD t e.1 0 + e.2.rate.toNat))) s.links.tokens
  { s with links := { s.links with tokens := tokens, refillAt := s.tb } }

/-- SHAPER_REFILL_TICK: the time base has reached a multiple of 625 tb. The samples come first, then the staged values, then
the refill. -/
def execShaperRefillTick (s : State) : Out :=
  .next (if s.maint.pwrgd && decide (s.links.refillAt / 625 < s.tb / 625) then
    refill (shaperApply (if s.links.telEn && s.dev.ready && answers s 0 then telSample s else s))
  else s)

/-! ### SHAPER_CTRL (R337 to R339) -/

/-- CODE of SHAPER_STATUS. -/
def shaperCode (c : Status) (s : State) : State := { s with links := { s.links with code := codeOf c } }

/-- The setting of SHAPER_CTRL: TEL_EN. -/
def shaperSettings (w : CtlWrite) (s : State) : State :=
  { s with links := { s.links with telEn := ctlSetting w 2 s.links.telEn } }

/-- The command protocol of SHAPER_CTRL: PENDING stands for BUSY (17 R442). -/
def shaperCtl (w : CtlWrite) (own : Nat) (run : State → State) (s : State) : State :=
  ctl w false [0, 1] own (fun s => s.links.pending.isSome) shaperCode (shaperSettings w) run s

/-- SHAPER_CTRL.COMMIT: the staged values apply at the first refill tick strictly after it; one already pending refuses it
(R337). -/
def execShaperCommit (w : CtlWrite) (s : State) : Out :=
  .next (shaperCtl w 0 (fun s =>
    shaperCode .ok { s with links := { s.links with pending := some ((s.tb / 625 + 1) * 625) } }) s)

/-- SHAPER_CTRL.TEL_EN: a write without a command bit applies the setting. -/
def execTelEn (w : CtlWrite) (s : State) : Out :=
  .next (if pfLive s w.fn false && (ctlCommands w [0, 1]).isEmpty then shaperSettings w s else s)

/-- SHAPER_CTRL.CLR clears both SHAPER_TEL_DROP registers. -/
def execShaperClr (w : CtlWrite) (s : State) : Out :=
  .next (shaperCtl w 1 (fun s => shaperCode .ok { s with links := { s.links with
    telA := { s.links.telA with drop := 0 }, telB := { s.links.telB with drop := 0 } } }) s)

end Sys2Proof.Machine
end

