-- ==== Sys2Proof/Machine/Notices.lean ====
section
/-!
DEFINITION. The notices of attention at the cache (05 R139 to R144): a request notice as a cache node serves it, and a reply
notice as a generation node consumes it.
-/

namespace Sys2Proof.Machine

/-- The bytes of a reply notice (05 R140). -/
def replyBytes (m : ReplyMsg) : List Byte :=
  leBytes 2 m.tag.toNat ++ [m.kind, m.status] ++ leBytes 2 m.layer.toNat ++ leBytes 2 m.rows.toNat ++ leBytes 4 m.step.toNat
    ++ [m.slot, m.flags] ++ leBytes 2 m.rowsOk.toNat ++ List.replicate 48 0

/-- The reply to a notice: its STATUS, FLAGS and ROWS_OK (05 R140). -/
def replyTo (s : State) (m : NoticeMsg) (c : Status) (flags ok : Nat) : ReplyMsg :=
  { tag := m.tag, kind := 0xA2, status := codeOf c, layer := m.layer, rows := m.rows, step := m.step
    slot := BitVec.ofNat 8 (mySlot s).toNat, flags := BitVec.ofNat 8 flags, rowsOk := BitVec.ofNat 16 ok }

/-- QFMT is the partition's KV_FORMAT (05 R139, R148). -/
def isKvFormat (s : State) (p : Nat) (f : Byte) : Bool := (attnOf s p).elim false (fun x => x.kvFormat == f)

/-- The address lies in the sender's own window (05 R140). -/
def inWindow (sender : DevId) (a : DWord) : Bool := decide (a.toNat / 2 ^ 44 = sender.toNat % 16)

/-- LAYER is one of the forme's layers (05 R142). -/
def layerHere (s : State) (l : Nat) : Bool :=
  s.forme.committed.elim false (fun c =>
    decide (c.header.firstLayer.toNat ≤ l) && decide (l < c.header.firstLayer.toNat + c.header.layerCount.toNat))

/-- The checks of a request notice, in order (05 R142). A carried epoch is judged as traffic of existing requests
(09 R256). -/
def noticeCheck (s : State) (p : Nat) (sender : DevId) (m : NoticeMsg) : Status :=
  if m.resv ≠ 0 || m.kind != 0xA1 || decide (m.rows.toNat < 1) || decide (256 < m.rows.toNat)
      || !(m.qfmt == 1 || m.qfmt == 7 || isKvFormat s p m.qfmt)
      || !inWindow sender m.query || !inWindow sender m.rowtab || !inWindow sender m.ctx
      || (if m.qfmt = 1 then !inWindow sender m.qscale else m.qscale != 0) then .malformed
  else if roleOf s ≠ 3 || !layerHere s m.layer.toNat then .formeMismatch
  else epochJudge s false m.epoch

/-- A tray line of three dimensions; FP4 has a scale array, at whatever address (04 R94, R97). -/
def trayLine (format base : Nat) (dims strides : List Nat) (scale : Nat) : TLine :=
  { kind := 1, space := 6, format := format, tflags := if format = 1 then 2 else 0, rank := 3, base := base, dims := dims
    strides := strides, scaleBase := scale, table := 0, resv := 0 }

/-- A descriptor header with bytes put at an offset. -/
def hdrPut (h : List Byte) (o : Nat) (bs : List Byte) : List Byte := h.take o ++ bs ++ h.drop (o + bs.length)

/-- The descriptor of the layer's ATTEND with the ROWS, the blocks and the query format that the notice names; the context row
holds the outputs before the log-sum-exp pairs (05 R140). -/
def noticeDesc (d : Desc) (m : NoticeMsg) : Desc :=
  let a := { attParams d with rows := m.rows.toNat, qf := m.qfmt.toNat }
  let q := trayLine a.qf m.query.toNat [a.keyW, a.heads, a.rows, 1]
    [elemBytes a.qf a.keyW, elemBytes a.qf (a.heads * (a.lat + a.posw)), 0] (if a.qf = 1 then m.qscale.toNat else 0)
  let o := trayLine a.of m.ctx.toNat [a.outW, a.heads, a.rows, 1]
    [elemBytes a.of a.outW, cdiv (a.heads * (elemBytes a.of a.outW + 8)) 64 * 64, 0] 0
  let t : TLine := { trayLine 10 m.rowtab.toNat [8, a.rows, 1, 1] [32, 0, 0] 0 with rank := 2 }
  { d with
    hdr := hdrPut (hdrPut d.hdr 0x1C (leBytes 2 m.rows.toNat)) 0x30 (leBytes 4 (a.heads * elemBytes a.of a.outW))
    lines := [q, d.line 1, o, t] ++ d.lines.drop 4 }

/-- What the rows of a notice answer: FLAGS and ROWS_OK (05 R140). -/
def replyFlags (slow : Bool) (rows : List AttRow) : Nat :=
  b2n (slow && rows.any (fun r => r.status == .ok)) + 2 * b2n (rows.any (fun r => r.status != .ok))
def rowsOkOf (rows : List AttRow) : Nat := (rows.filter (fun r => r.status == .ok)).length

/-- The reply leaves on the channel once a credit is held: the command with its effects enters the press (05 R141, 03 R84). The
compositor's index stays: the notice's program is not followed word by word (log entry 89). -/
def noticeEnter (n : Nat) (op : POp) (flags : BitVec 8) (d : Desc) (run : Run) (reads : List (Nat × (Nat × Nat)))
    (taken : List Eff) (slots : List Nat) (ch : Nat) (msg : List Byte) (s : State) : State :=
  let x := cluster s n
  let run := { run with effs := run.effs ++ [.send ch [msg]], credits := some (ch, 1) }
  clusterUpd n (fun y => { y with pc := x.pc, loops := x.loops }) (enter n op flags d (some run) reads taken slots s)

/-- The 64 bytes of a request notice (05 R139). -/
def noticeBytes (m : NoticeMsg) : List Byte :=
  leBytes 2 m.tag.toNat ++ [m.kind, m.qfmt] ++ leBytes 2 m.layer.toNat ++ leBytes 2 m.rows.toNat ++ leBytes 4 m.step.toNat
    ++ leBytes 4 m.epoch.toNat ++ leBytes 8 m.query.toNat ++ leBytes 8 m.qscale.toNat ++ leBytes 8 m.rowtab.toNat
    ++ leBytes 8 m.ctx.toNat ++ leBytes 16 m.resv

/-- A reply with nothing but its message leaves: a notice-level code (05 R140, R141). -/
def noticeRefuse (n : Nat) (flags : BitVec 8) (m : NoticeMsg) (c : Status) (ch : Nat) (s : State) : State :=
  noticeEnter n opSend flags { hdr := [], subop := 0, maxBeats := moveBeats 64, lines := [] } {} [] [] [] ch
    (replyBytes (replyTo s m c 0 0)) s

/-- The layer's ATTEND cannot run for an accepted notice: the reply carries its code (05 R141; log entry 157), and the item ends
with it (03 R74). -/
def noticeFails (n : Nat) (flags : BitVec 8) (m : NoticeMsg) (ch : Nat) (c : Status) (cause : Nat) (s : State) : State :=
  endItem n c cause true (noticeRefuse n flags m c ch s)

/-- A block scale of a notice's operands breaks R98: the notice is answered with INTEGRITY, and the cluster stops (03 R91, 05 R141;
log entry 193). -/
def noticeFault (n : Nat) (m : NoticeMsg) (ch : Nat) (s : State) : State :=
  let reply := replyBytes (replyTo s m .integrity 0 0)
  clusterFault n 4 (sendMessage n ch (channelUpd n ch (fun k => { k with credits := k.credits - 1 }) s) reply)

/-- The code and the cause of a fetch that gives no operands. -/
def fetchCode (f : Fetch) : Status × Nat :=
  match f with
  | .denied => (.denied, 2)
  | .beyond cause => (.malformed, cause)
  | .slug .. | .lost => (.integrity, 3)
  | _ => (.malformed, 1)

/-- An accepted notice: its rows are attended, contexts and row results are written, then the reply is sent (05 R141, R143). -/
def noticeServe (sender : DevId) (m : NoticeMsg) (c : PressCmd) (ch : Nat) (s : State) : State :=
  let n := c.cl.toNat
  let p := (partOfRegion s (n / 16)).getD 0
  let s := clusterUpd n (fun x => { x with notice := some (sender, m.step) }) s
  let v := viewOf n s
  let page := inGalleyPage s c.reads
  let op := opAttend (if page then c.reads else .good)
  match descAt (cluster v n) c.areg c.offset with
  | none => noticeFails n c.flags m ch .malformed 1 s
  | some d0 =>
    let d := noticeDesc d0 m
    let a := attParams d
    if !a.galley || a.layer ≠ m.layer.toNat then noticeFails n c.flags m ch .malformed 1 s else
    match descCheck op v n p c.flags d with
    | .inl (st, cause) => noticeFails n c.flags m ch st cause s
    | .inr beats =>
      match fetchAll v n p (op.fetched d) c.remote with
      | .error f =>
        let s := (match f with
          | .slug crc space addr => slugLost crc (placeOf s p space addr) s
          | _ => s)
        noticeFails n c.flags m ch (fetchCode f).1 (fetchCode f).2 s
      | .ok (gs, left, reads, taken) =>
        let slugs := gs.map (fun g => g.raw.length / 2048)
        if d.maxBeats < beats + slugBeats op d (op.pages v p d) slugs beats then noticeFails n c.flags m ch .malformed 1 s else
        let e : PEnv := { v := v, n := n, p := p, flags := c.flags, d := d, remote := left }
        match op.run e gs with
        | .run r =>
          let slow := (attPath a (attFallback v p)).getD false
          let rows := (attRows e a slow gs (if page then c.reads else .good)).getD []
          let o := if page then c.reads else rangesOutcome s p (reads ++ r.reads) c.reads
          let (got, s) := readOutcome o s
          if got || page then
            noticeEnter n op c.flags d r reads taken (slotsNamed (op.fetched d) gs) ch
              (replyBytes (replyTo s m .ok (replyFlags slow rows) (rowsOkOf rows))) s
          else itemLost n (noticeRefuse n c.flags m .integrity ch s)
        | .bad st cause => noticeFails n c.flags m ch st cause s
        | .fault => noticeFault n m ch s
        | .wait _ | .later => s

/-- The send channel of the reply: it exists, and holds a credit. -/
def replyReady (s : State) (n ch : Nat) : Bool :=
  match channel s n ch with
  | some k => k.entry.send && k.broken.isNone && decide (1 ≤ k.credits)
  | none => false

/-- The notice stands at the head of receive channel `rch`, whose one sender is `sender` (05 R139, 03 R83). -/
def noticeHeld (s : State) (n rch : Nat) (sender : DevId) (m : NoticeMsg) : Bool :=
  match channel s n rch with
  | some k =>
    !k.entry.send && decide (k.queue.head?.map (fun b => b.take 64) = some (noticeBytes m))
      && (match k.entry.peer with
        | .tray slot _ _ => devOfSlot s slot.toNat == sender
        | _ => false)
  | none => false

/-- A request notice is taken from its receive channel by the program of cluster `c.cl`, whose ATTEND of the layer `c` names, and
answered on channel `ch` (05 R141, R142). A notice for which no reply can be sent yet stays in its slot (03 R84); while fenced
the device emits nothing. -/
def requestNotice (sender : DevId) (m : NoticeMsg) (c : PressCmd) (rch ch : Nat) (s : State) : State :=
  let n := c.cl.toNat
  if fenced s || !canIssue s n || decide (4 ≤ (cluster s n).press.length) || !replyReady s n ch
      || recvInPress (cluster s n) rch || !noticeHeld s n rch sender m then s else
  let s := countEcc n c.reads (dropHead n rch s)
  match noticeCheck s ((partOfRegion s (n / 16)).getD 0) sender m with
  | .ok => noticeServe sender m c ch s
  | e => noticeRefuse n c.flags m e ch s

/-- REQUEST_NOTICE. -/
def execRequestNotice (sender : DevId) (m : NoticeMsg) (c : PressCmd) (ch : NoticeChans) (s : State) : Out :=
  .next (requestNotice sender m c ch.request.toNat ch.reply.toNat s)

/-- The requests of a reply's rows that took the fallback path: the row table in the sender's own window, at the tray address that
the request notice named, holds each row's REQ_ID, STATUS and OUT_FLAGS[0] (05 R124, R147). -/
def slowRequests (s : State) (n rows : Nat) (rowtab : DWord) : List ReqId :=
  let p := (partOfRegion s (n / 16)).getD 0
  ((List.range rows).map (fun i =>
    let b := localBytes s n p 6 (rowtab.toNat + 32 * i) 32
    if b.getD 0x10 0xFF = codeOf .ok ∧ (b.getD 0x11 0).toNat.testBit 0 then [BitVec.ofNat 64 (numAt b 0 8)] else [])).flatten
    |>.foldl (fun l r => if l.contains r then l else l ++ [r]) []

/-- A reply notice that stands at the head of its receive channel is consumed; replies of superseded notices before it are
discarded by their TAG (03 R86, 05 R144). The path of each request is recorded for the colophon (05 R147). -/
def replyNotice (n ch : Nat) (m : ReplyMsg) (rowtab : DWord) (s : State) : State :=
  if !canIssue s n || recvInPress (cluster s n) ch then s else
  let s := discardStale n ch 65 s
  match channel s n ch with
  | none => s
  | some k =>
    if k.entry.send || k.queue.head? ≠ some (replyBytes m) then s
    else
      let p := (partOfRegion s (n / 16)).getD 0
      let s := dropHead n ch s
      if m.flags.toNat.testBit 0 then
        let arg : Byte := if attFallback s p = 1 then 1 else 0
        let reqs := slowRequests s n m.rows.toNat rowtab
        clusterUpd n (fun x => { x with fallbacks := x.fallbacks ++ reqs.map (fun r => (some r, arg)) }) s
      else s

/-- REPLY_NOTICE. -/
def execReplyNotice (cl : ClusterId) (ch : BitVec 5) (m : ReplyTaken) (s : State) : Out :=
  .next (replyNotice cl.toNat ch.toNat m.msg m.rowtab s)

end Sys2Proof.Machine
end

