-- ==== Sys2Proof/Machine/Repro.lean ====
section
/-!
DEFINITION. Repeatability (14): the TIME exchange and the loss of alignment (R371, R372), pod barriers (R373, R374), and the
commands of REPRO_CTRL (R383, R386).
-/

namespace Sys2Proof.Machine

/-! ### The time base (14 R371, R372) -/

/-- A TIME frame joins the class of its own on an UP far link; it takes one credit, and its tick is that at which it leaves (12 R329,
R332; log entry 212). -/
def sendTime (s : State) (n : Nat) : State := if linkIsUp s n then pushPacket n .time 0 0 0 0 0 64 s else s

/-- Every 625,000 tb an exchange starts on every UP switch plane. TIME frames go while the device is fenced as well: without
them it could not align, and ADMIT_REQ needs ALIGNED (DEDUCED, log entry 85). -/
def timeTimer (s : State) : State :=
  if s.tb < s.repro.timeAt + Config.tbPerMs || !s.maint.pwrgd || s.maint.silent then s else
  (List.range 16).foldl (fun s k => sendTime s (15 + k)) { s with repro := { s.repro with timeAt := s.tb } }

/-- TIME_EXCHANGE_TIMER. -/
def execTimeExchangeTimer (s : State) : Out := .next (timeTimer s)

/-- ALIGNMENT_LOSS: no valid exchange for 6,250,000 tb clears ALIGNED (14 R372; 17 R448 bit 13). -/
def execAlignmentLoss (s : State) : Out :=
  .next (if s.repro.aligned && (s.repro.lastExchange.elim true (fun t => decide (t + 6250000 ≤ s.tb))) then
      noteErr 13 0 0x004 { s with repro := { s.repro with aligned := false } }
    else s)

/-! ### Pod barriers (14 R373) -/

/-- Change a pod barrier. -/
def podUpd (id : Nat) (f : PodBarrier → PodBarrier) (s : State) : State :=
  { s with repro := { s.repro with pods := Tab.mod s.repro.pods id f } }

/-- The coordinator holds every arrival: it chooses the release tick and tells every participant; it keeps the tick itself when
it takes part (14 R373 steps 3 and 4). -/
def podComplete (id : Nat) (s : State) : State :=
  match Tab.find s.repro.pods id with
  | none => s
  | some b =>
    if b.release.isSome || decide (b.arrived.length < b.participants) then s else
    let t := s.tb + s.repro.podLead
    let s := sendRelease id b (BitVec.ofNat 64 t) .ok s
    if b.arrived.contains (myDev s) then podUpd id (fun b => { b with release := some t }) s else podNext id s

/-- An ARRIVE reaches the coordinator. One for the next instance is kept while this one's tick is still to come. -/
def podArrival (d : DevId) (id inst : Nat) (s : State) : State :=
  match Tab.find s.repro.pods id with
  | none => s
  | some b =>
    if b.coord ≠ myDev s then s
    else if inst = b.inst && b.release.isNone then
      if b.arrived.contains d then s else podComplete id (podUpd id (fun b => { b with arrived := b.arrived ++ [d] }) s)
    else if inst = b.inst + 1 && !b.early.contains d then podUpd id (fun b => { b with early := b.early ++ [d] }) s
    else s

/-- ARRIVE. -/
def execArrive (d : DevId) (id : Byte) (inst : Nat) (s : State) : Out :=
  .next (if fenced s then s else podArrival d id.toNat inst s)

/-- An instance releases: its waiting clusters go on, and the next instance begins (14 R373 step 5). -/
def podRelease (id : Nat) (b : PodBarrier) (s : State) : State :=
  let s := { s with repro := { s.repro with barriers := satInc s.repro.barriers } }
  let have_ := Tab.getD s.sched.arrivals (barrierKey b.ctx 2 id) []
  podComplete id (podNext id (releaseBarrier b.ctx 2 id have_ s))

/-- A RELEASE reaches a participant: at or after its tick it releases at once and counts in REPRO_LATE; with EPOCH_STALE it ends
the instance (14 R373, R374). -/
def podReleased (id inst : Nat) (tick : DWord) (c : Status) (s : State) : State :=
  match Tab.find s.repro.pods id with
  | none => s
  | some b =>
    if inst ≠ b.inst || !b.sent || b.release.isSome then s
    else if c ≠ .ok then podFails id s
    else if tick.toNat ≤ s.tb then podRelease id b { s with repro := { s.repro with late := satInc s.repro.late } }
    else podUpd id (fun b => { b with release := some tick.toNat }) s

/-- RELEASE. -/
def execRelease (id : Byte) (inst : Nat) (tick : DWord) (c : Status) (s : State) : Out :=
  .next (if fenced s then s else podReleased id.toNat inst tick c s)

/-- POD_BARRIER_RELEASE_TICK. -/
def execPodBarrierReleaseTick (id : Byte) (inst : Nat) (s : State) : Out :=
  .next (match Tab.find s.repro.pods id.toNat with
    | some b =>
      if inst = b.inst && b.sent && b.release.elim false (fun t => decide (t ≤ s.tb)) then podRelease id.toNat b s else s
    | none => s)

/-! ### REPRO_CTRL (14 R383, R386) -/

/-- The trace ring's size is in range and its address aligned. -/
def traceReady (s : State) : Bool :=
  decide (10 ≤ s.repro.traceSize.toNat) && decide (s.repro.traceSize.toNat ≤ 24) && decide (s.repro.traceLo.toNat % 4096 = 0)

/-- The TRACE setting: it stays clear where the ring cannot serve; each rank's count of work items starts when it sets. -/
def traceSetting (w : CtlWrite) (s : State) : State :=
  let on := ctlSetting w 1 s.repro.trace && (s.repro.trace || traceReady s)
  let clusters : Tab Cluster := if on && !s.repro.trace then s.clusters.map (fun e => (e.1, { e.2 with traceItems := 0 })) else s.clusters
  { s with clusters := clusters, repro := { s.repro with trace := on } }

/-- The protocol of REPRO_CTRL, which has no status (17 R441). -/
def reproCtl (w : CtlWrite) (own : Nat) (run : State → State) (s : State) : State :=
  ctl w false [0] own (fun _ => false) (fun _ s => s) (traceSetting w) run s

/-- TRACE: a write without the command bit applies the setting. -/
def execTrace (w : CtlWrite) (s : State) : Out := .next (reproCtl w 1 id s)

/-- CLR: REPRO_LATE to REPRO_EV_LOST and REPRO_TRACE_DROP. -/
def execReproClr (w : CtlWrite) (s : State) : Out :=
  .next (reproCtl w 0 (fun s => { s with repro := { s.repro with
    late := 0, barriers := 0, barrierFail := 0, slow := 0, subst := 0, claimsWon := 0, claimsLost := 0, colophons := 0, evLost := 0
    traceDrop := 0 } }) s)

end Sys2Proof.Machine
end

