-- ==== Sys2Proof/Machine/Sec.lean ====
section
/-!
DEFINITION. Security commands (15): owner commands and the recovery image (R392 to R396, R409), the pod key (R402, R403),
TENANT_UNBIND (R405), the random generator (R391), and the SPDM responder (R397, R399).
-/

namespace Sys2Proof.Machine

/-- CODE of SEC_STATUS. -/
def secCode (c : Status) (s : State) : State := { s with sec := { s.sec with code := codeOf c } }

/-- The protocol of SEC_CTRL (17 R442), live before READY (R446). In RECOVERY only OWNER_CMD acts (15 R390). -/
def secCtl (w : CtlWrite) (own : Nat) (run : State → State) (s : State) : State :=
  ctl w true [0, 1, 2, 3, 4] own (fun s => s.sec.busy) secCode id (fun s => if own = 0 || s.sec.boot == 1 then run s else s) s

/-! ### Owner commands (15 R394, R395) -/

/-- Check 1: the form of a command of OPCODE `op`. -/
def ownerForm (op : Nat) (c : OwnerCmd) : Bool :=
  let keyed := op = 1 ∨ op = 2
  c.magic == 0x434F4E44 && c.lenOk && c.opcode.toNat == op && c.resv == 0 && c.sig.paddingZero
    && decide (c.target.toNat ≤ if op = 4 then 1 else 0)
    && (if keyed then c.blockKey == some c.argKey else c.blockKey.isNone)

/-- Checks 1 to 5 in order (15 R395); while RPS_OK is 0 the store admits none (R393; log entry 131). -/
def ownerChecks (op : Nat) (c : OwnerCmd) (s : State) : Status :=
  let st := s.sec.store
  let counter := if c.target = 0 then st.formeSvn else st.fwSvn
  if !ownerForm op c then .malformed
  else if !s.sec.rpsOk || c.device != Config.deviceDigest then .denied
  else if !(if op = 1 then st.owners.isEmpty else st.owners.contains c.signer) then .denied
  else if !(c.sig.ed25519Ok && c.sig.mlDsaOk) then .integrity
  else if c.storeSeq.toNat ≠ (if op = 5 then st.incarnation.toNat + 1 else st.writes.toNat) then .denied
  else if op = 4 && decide (c.value.toNat ≤ counter.toNat) then .malformed
  else if op = 2 && (decide (4 ≤ st.owners.length) || st.owners.contains c.argKey) then .malformed
  else if op = 3 && (!st.owners.contains c.argKey || decide (st.owners.length ≤ 1)) then .malformed
  else .ok

/-- The effect of a command on the store: one write (15 R395, R396, R409). -/
def ownerStore (op : Nat) (c : OwnerCmd) (st : Store) : Store :=
  let st := { st with writes := st.writes + 1 }
  match op with
  | 1 => { st with owners := [c.argKey] }
  | 2 => { st with owners := st.owners ++ [c.argKey] }
  | 3 => { st with owners := st.owners.filter (fun k => k != c.argKey) }
  | 4 => if c.target = 0 then { st with formeSvn := c.value } else { st with fwSvn := c.value }
  | _ => { st with unlock := some (c.digest, c.storeSeq.setWidth 32, true) }

/-- An owner command: the first failure sets CODE and changes nothing; a failed store write clears RPS_OK (15 R393, R395; 17
R448 bit 14). In RECOVERY the command checks a firmware image, which an owner command is not. -/
def ownerRun (op : Nat) (c : OwnerExec) (s : State) : State :=
  if s.sec.boot ≠ 1 then secCode .integrity s else
  match ownerChecks op c.cmd s with
  | .ok =>
    if c.storeOk then secCode .ok { s with sec := { s.sec with store := ownerStore op c.cmd s.sec.store } }
    else noteErr 14 0 0x004 (secCode .denied { s with sec := { s.sec with rpsOk := false } })
  | e => secCode e s

/-- CLAIM. -/
def execClaim (c : OwnerExec) (s : State) : Out := .next (secCtl c.w 0 (ownerRun 1 c) s)

/-- ADD_KEY. -/
def execAddKey (c : OwnerExec) (s : State) : Out := .next (secCtl c.w 0 (ownerRun 2 c) s)

/-- REMOVE_KEY. -/
def execRemoveKey (c : OwnerExec) (s : State) : Out := .next (secCtl c.w 0 (ownerRun 3 c) s)

/-- ADVANCE. -/
def execAdvance (c : OwnerExec) (s : State) : Out := .next (secCtl c.w 0 (ownerRun 4 c) s)

/-- DEBUG_UNLOCK. -/
def execDebugUnlock (c : OwnerExec) (s : State) : Out := .next (secCtl c.w 0 (ownerRun 5 c) s)

/-! ### Recovery (15 R390, R392) -/

/-- In RECOVERY the ROM checks an offered firmware image as in step 4 of the boot; one that passes runs. PHASE stays RECOVERY
until a reset (18 R458; log entry 86). Elsewhere an image is no owner command. -/
def recoveryRun (img : FwImage) (s : State) : State :=
  if s.sec.boot ≠ 2 then secCode .malformed s
  else if !img.sigsOk then secCode .integrity s
  else if !s.sec.rpsOk || decide (img.svn.toNat < s.sec.store.fwSvn.toNat) then secCode .denied s
  else secCode .ok { s with sec := { s.sec with
    boot := 1, meas2 := img.digest1, meas3 := img.digest2, fwVersion := img.version } }

/-- RECOVERY_IMAGE. -/
def execRecoveryImage (w : CtlWrite) (img : FwImage) (s : State) : Out := .next (secCtl w 0 (recoveryRun img) s)

/-! ### The pod key (15 R402, R403) -/

/-- POD_FETCH: the key is asked from the donor over the key queue pair. -/
def execPodFetch (w : CtlWrite) (s : State) : Out :=
  .next (secCtl w 1 (fun s =>
    if s.sec.podGen.isSome then secCode .denied s
    else fetchSend { s with sec := { s.sec with busy := true, fetch := some false } }) s)

/-- POD_GENESIS: a new key of generation 1. -/
def execPodGenesis (w : CtlWrite) (s : State) : Out :=
  .next (secCtl w 2 (fun s =>
    if s.sec.podGen.isSome then secCode .denied s else secCode .ok (takePodKey 1 (draw s).2)) s)

/-- POD_KEY_TRANSFER: the key arrives from a near-link peer or the donor of a POD_FETCH; a failed exchange gives none, and ends
the fetch with DENIED. -/
def podTransfer (d : DevId) (gen : Word) (ok : Bool) (s : State) : State :=
  let donor := s.sec.fetch.isSome && d == s.sec.donor
  let near := (List.range 15).any (fun k => linkIsUp s k && devOfSlot s (nearSlot s k) == d)
  if s.sec.podGen.isSome || !(donor || near) then s
  else if ok then takePodKey gen s
  else if donor then fetchEnds .denied s else s

/-- See `podTransfer`. A key obtained from a peer ends a fetch that runs. -/
def execPodKeyTransfer (d : DevId) (gen : Word) (ok : Bool) (s : State) : Out := .next (podTransfer d gen ok s)

/-- POD_SEND_ENABLE: the aligned time base has passed the first multiple of 2^28 tb after ALIGNED set (15 R402). -/
def execPodSendEnable (s : State) : Out :=
  .next (match s.repro.alignedAt with
    | some t =>
      if s.repro.aligned && !s.sec.podSend && decide ((t / 2 ^ 28 + 1) * 2 ^ 28 ≤ s.tb) then
        rmaPump (fetchSend { s with sec := { s.sec with podSend := true } })
      else s
    | none => s)

/-! ### Tenants and counters (15 R405, R410) -/

/-- The tenant holds a session, a record or a shelved galley here. -/
def tenantBusy (s : State) (t : BitVec 16) : Bool :=
  s.sec.sessions.any (fun e => e.2.tenant == t) || s.req.recs.any (fun e => e.2.tenant == t && e.2.state != 8)
    || s.req.galleys.any (fun e => e.2.tenant == t && isShelved e.2)

/-- TENANT_UNBIND. -/
def execTenantUnbind (w : CtlWrite) (s : State) : Out :=
  .next (secCtl w 3 (fun s =>
    if tenantBusy s s.sec.tenantSel then secCode .denied s
    else secCode .ok { s with sec := { s.sec with tenants := Tab.del s.sec.tenants s.sec.tenantSel.toNat } }) s)

/-- SEC_CTRL.CLR. -/
def execSecClr (w : CtlWrite) (s : State) : Out :=
  .next (secCtl w 4 (fun s => secCode .ok { s with sec := { s.sec with authFail := 0, msgAuthFail := 0 } }) s)

/-- RESEED: the generator's count of requests starts anew (15 R391). -/
def execReseed (s : State) : Out := .next { s with sec := { s.sec with drbg := 0 } }

/-! ### SPDM (15 R390, R397, R399) -/

/-- The physical function answers DOE. -/
def doe (s : State) : Bool := answers s 0 && s.sec.boot != 0

/-- An SPDM response. -/
def spdmSay (r : SpdmResp) (s : State) : State := emit (.spdm r) s

/-- A request that needs verified firmware and the negotiation `need` before it; otherwise an ERROR response (log entry 88). -/
def spdmRun (need : Spdm → Bool) (run : State → State) (s : State) : Out :=
  .next (if !doe s then s else if s.sec.boot == 1 && need s.sec.spdm then run s else spdmSay .error s)

/-- GET_VERSION: served in RECOVERY as well; it starts the negotiation anew and ends a session (log entry 88). -/
def execGetVersion (s : State) : Out :=
  .next (if doe s then spdmSay .version { s with sec := { s.sec with spdm := {} } } else s)

/-- GET_CAPABILITIES, in version 1.2 or 1.3. -/
def execGetCapabilities (v : Byte) (s : State) : Out :=
  spdmRun (fun _ => v == 0x12 || v == 0x13) (fun s =>
    spdmSay (.capabilities v) { s with sec := { s.sec with spdm := { s.sec.spdm with version := v, caps := true, algs := false } } }) s

/-- NEGOTIATE_ALGORITHMS: EdDSA Ed25519 and SHA-384. -/
def execNegotiateAlgorithms (v : Byte) (ed sha : Bool) (s : State) : Out :=
  spdmRun (fun x => x.caps && v == x.version && ed && sha) (fun s =>
    spdmSay .algorithms { s with sec := { s.sec with spdm := { s.sec.spdm with algs := true } } }) s

/-- GET_DIGESTS. -/
def execGetDigests (s : State) : Out := spdmRun (fun x => x.algs) (spdmSay .digests) s

/-- GET_CERTIFICATE: a portion of the chain. -/
def execGetCertificate (off len : Nat) (s : State) : Out := spdmRun (fun x => x.algs) (spdmSay (.certificate off len)) s

/-- CHALLENGE: answered with both signatures. -/
def execChallenge (nonce : BitVec 256) (s : State) : Out :=
  spdmRun (fun x => x.algs) (fun s => spdmSay .vendorSignature (spdmSay (.challengeAuth nonce) s)) s

/-- The measurement blocks of an index: 0 none but the count, 0xFF all, 1 to 8 one. -/
def measBlocks (s : State) (i : Nat) : Option (List (Nat × Digest)) :=
  if i = 0 then some []
  else if i = 0xFF then some ((List.range 8).map (fun k => (k + 1, measurement s (k + 1))))
  else if i ≤ 8 then some [(i, measurement s i)] else none

/-- GET_MEASUREMENTS: a signed response is followed by the second signature. -/
def execGetMeasurements (i : Byte) (signed : Bool) (nonce : BitVec 256) (s : State) : Out :=
  spdmRun (fun x => x.algs && (measBlocks s i.toNat).isSome) (fun s =>
    let s := spdmSay (.measurements ((measBlocks s i.toNat).getD []) signed nonce) s
    if signed then spdmSay .vendorSignature s else s) s

/-- SECURE_SESSION_EXCHANGE: a hybrid exchange that verifies opens a secure session (15 R397, R399). -/
def execSecureSessionExchange (ok : Bool) (s : State) : Out :=
  spdmRun (fun x => x.algs && ok) (fun s =>
    spdmSay .sessionAccept { s with sec := { s.sec with spdm := { s.sec.spdm with secure := true } } }) s

end Sys2Proof.Machine
end

