-- ==== Sys2Proof/Machine/RegRead.lean ====
section
/-!
DEFINITION. What every register reads as (17 R436, R447, R450 and the register tables of 02, 03 and 06 to 16), as a number of 32
bits by its offset in its block. A location with no register, and every reserved bit, reads zero (00 R6).
-/

namespace Sys2Proof.Machine

/-- BUSY in bit 16 and CODE in bits 15 to 8: the shape of the status registers (17 R442). -/
def statusWord (busy : Bool) (code : Byte) (low : Nat) : Nat := b2n busy * 2 ^ 16 + code.toNat * 256 + low

/-- Word `i` of a digest: its bytes 4i to 4i + 3. -/
def digestWord (d : Digest) (i : Nat) : Nat := d.toNat / 2 ^ (32 * i) % 2 ^ 32

/-- The low and the high word of a 64-bit quantity. -/
def lo32 (v : Nat) : Nat := v % 2 ^ 32
def hi32 (v : Nat) : Nat := v / 2 ^ 32 % 2 ^ 32

/-! ### DEV and MAINT (17) -/

/-- DEV registers (17 R447); the second component says that every function reads it. -/
def readDev (s : State) (fn : FnId) (o : Nat) : Nat × Bool :=
  match o with
  | 0x000 => (0x0D740100, true)
  | 0x004 => (b2n s.sec.debug * 16 + b2n (s.sec.boot == 2) * 8 + b2n (s.pair.live == 2) * 4 + b2n s.dev.fatal * 2 + b2n s.dev.ready, true)
  | 0x008 => (s.dev.ident.maj.toNat, true)
  | 0x00C => (s.sec.fwVersion.toNat, true)
  | 0x010 => (s.dev.caps.toNat, false)
  | 0x014 => ((Tab.getD s.dev.scratch fn.toNat 0).toNat, true)
  | 0x018 => (lo32 s.tb, true)
  | 0x01C => (hi32 s.tb, true)
  | 0x020 => ((Tab.getD s.dev.accessErr fn.toNat 0).toNat, true)
  | 0x024 => ((Tab.getD s.dev.accessAddr fn.toNat 0).toNat, true)
  | 0x028 => (s.dev.tmrFix.toNat, false)
  | 0x048 => (lo32 s.dev.firstTb.toNat, false)
  | 0x04C => (hi32 s.dev.firstTb.toNat, false)
  | _ => (0, false)

/-- MAINT registers (17 R450). -/
def readMaint (s : State) (o : Nat) : Nat :=
  match o with
  | 0x004 => statusWord s.maint.busy s.maint.code s.maint.phase.toNat
  | 0x008 => s.maint.lastReset.maj.toNat
  | 0x00C => s.maint.tempPeak.toNat * 2 ^ 16 + s.maint.tempNow.toNat
  | 0x010 => s.maint.imonPeak.toNat * 2 ^ 16 + s.maint.imonNow.toNat
  | 0x014 => s.maint.slope.toNat
  | 0x018 => ranks s * 2 ^ 24 + s.maint.rank * 2 ^ 16 + b2n (ramping s) * 2 + b2n s.maint.ballast
  | 0x01C => s.maint.stops.toNat
  | 0x024 => lo32 s.maint.fatalTb.toNat
  | 0x028 => hi32 s.maint.fatalTb.toNat
  | 0x02C => s.maint.repair.maj.toNat
  | 0x030 => b2n (detailedGrade s) * 2 ^ 16 + selftestBudget s
  | 0x034 => s.maint.stFailed.toNat * 2 ^ 16 + s.maint.stRun.toNat
  | 0x038 => s.maint.clearUs.toNat
  | _ => 0

/-! ### FORME, SCHED, REQ, MOVER (02, 13, 08) -/

/-- FORME registers (02). -/
def readForme (s : State) (o : Nat) : Nat :=
  if 0x40 ≤ o ∧ o ≤ 0x6C then digestWord s.forme.digest ((o - 0x40) / 4)
  else if 0x80 ≤ o ∧ o ≤ 0xAC then digestWord s.forme.base ((o - 0x80) / 4)
  else
    match o with
    | 0x04 => b2n (fullGeom s) * 2 ^ 26 + roleOf s * 2 ^ 24 + s.forme.gen.toNat * 2 ^ 16 + s.forme.code.toNat * 256
                + s.forme.stage.toNat * 16 + s.forme.state.toNat
    | 0x08 => s.forme.srcLo.toNat
    | 0x0C => s.forme.srcHi.toNat
    | 0x10 => s.forme.len.toNat
    | 0x14 => s.forme.regionMask.toNat
    | 0x18 => drainPend s
    | 0x1C => s.forme.failSect.toNat
    | 0xC0 => ((List.range 4).map (fun p => (partGenOf s p).toNat * 2 ^ (8 * p))).sum
    | 0xC4 => ((List.range 4).map (fun p => (partGenOf s (p + 4)).toNat * 2 ^ (8 * p))).sum
    | _ => 0

/-- SCHED_CTX_STATE of a context (13 R360); one whose function is not enabled is ABSENT (R340). -/
def ctxStateWord (s : State) (c : Nat) : Nat :=
  let bound := (s.clusters.filter (fun e => e.2.ctx == some c)).length
  let parked := (s.sched.saves.filter (fun e => e.1 % 64 == c && e.2.parked)).length
  match (if ctxPresent s c then partOfCtx s c else none) with
  | none => 0
  | some p =>
    let full := (partition s p).any (fun x => x.fullSave.toNat.testBit c)
    let st := if bound ≠ 0 then 3 else if ctxReady s p c then 2 else 1
    bound * 2 ^ 24 + parked * 2 ^ 16 + p * 16 + b2n full * 8 + st

/-- SCHED registers (13 R360). -/
def readSched (s : State) (o : Nat) : Nat :=
  let x := ctxOf s s.sched.ctxSel.toNat
  match o with
  | 0x00 => b2n s.sched.parkWaits * 8
  | 0x04 => statusWord (s.sched.busy || s.sched.commitPending) s.sched.code s.sched.slot
  | 0x08 => s.forme.committed.elim 0 (fun c => c.imposition.frameTb.toNat)
  | 0x0C => lo32 s.sched.frame.toNat
  | 0x10 => hi32 s.sched.frame.toNat
  | 0x14 => s.sched.ctxSel.toNat
  | 0x18 => x.staged.toNat
  | 0x1C => ctxStateWord s s.sched.ctxSel.toNat
  | 0x20 => x.debt
  | 0x24 => lo32 x.beats.toNat
  | 0x28 => hi32 x.beats.toNat
  | 0x2C => x.overruns.toNat
  | 0x30 => x.parks.toNat
  | 0x34 => x.debtDrop.toNat
  | 0x38 => lo32 x.vt.toNat
  | 0x3C => hi32 x.vt.toNat
  | 0x40 => s.sched.meterLo.toNat
  | 0x44 => s.sched.meterHi.toNat
  | 0x48 => lo32 s.sched.meterTick.toNat
  | 0x4C => hi32 s.sched.meterTick.toNat
  | 0x50 => s.sched.meters.length + b2n s.sched.overflow.isSome
  | _ => 0

/-- Records in state `n`, FREE ones included: REQ_COUNTn (08 R238). -/
def reqCount (s : State) (n : Nat) : Nat :=
  if n = 0 then 65536 - s.req.recs.length else (s.req.recs.filter (fun e => e.2.state.toNat == n)).length

/-- Records FREE or RETIRED: REQ_FREE (08 R238). -/
def reqFree (s : State) : Nat := reqCount s 0 + reqCount s 8

/-- A summary entry's 32 bytes; a FREE record's are zero (08 *Summary entry*). -/
def summaryBytes (r : Option Rec) : List Byte :=
  match r with
  | none => List.replicate 32 0
  | some r =>
    [BitVec.ofNat 8 r.state.toNat, r.status] ++ leBytes 2 r.tenant.toNat
      ++ [BitVec.ofNat 8 r.view.toNat, BitVec.ofNat 8 r.context.toNat, BitVec.ofNat 8 r.part.toNat, r.stage]
      ++ leBytes 8 r.reqId.toNat ++ leBytes 4 r.commitLen ++ leBytes 4 r.promptLen ++ leBytes 4 r.held ++ leBytes 4 0

/-- REQ registers and the summary window, one entry a record index (08 R238). -/
def readReq (s : State) (o : Nat) : Nat :=
  if 0x200000 ≤ o then leNat (((summaryBytes (Tab.find s.req.recs ((o - 0x200000) / 32))).drop (o % 32)).take 4)
  else if 0x10 ≤ o ∧ o ≤ 0x30 then reqCount s ((o - 0x10) / 4)
  else
    match o with
    | 0x04 => statusWord s.req.busy s.req.code 0
    | 0x08 => s.req.sel.toNat
    | 0x0C => reqFree s
    | 0x40 => s.req.reprefill.toNat
    | 0x44 => s.req.lost.toNat
    | 0x48 => s.req.specAcc.toNat
    | 0x4C => s.req.specRej.toNat
    | _ => 0

/-- MOVER registers (08 R239); MOVER_STATUS has FULL and OUTSTANDING. -/
def readMover (s : State) (o : Nat) : Nat :=
  match o with
  | 0x04 => b2n (decide (4096 ≤ moverOut s)) * 2 ^ 16 + min (moverOut s) 4096
  | 0x08 => s.req.hold
  | 0x0C => s.req.backlog.toNat
  | 0x10 => s.req.appends.toNat
  | 0x14 => s.req.dups.toNat
  | 0x18 => s.req.seals.toNat
  | 0x1C => s.req.commits.toNat
  | 0x20 => s.req.handoverCount.toNat
  | 0x24 => s.req.shelves.toNat
  | 0x28 => s.req.recalls.toNat
  | 0x2C => s.req.drops.toNat
  | 0x30 => s.req.copyoutCount.toNat
  | 0x34 => s.req.digestErr.toNat
  | _ => 0

/-! ### PAIR, TIER, LPC (09, 07) -/

/-- One of the four registers of a map-table entry (09 R254, R257, R265). -/
def mapWordOf (s : State) (n k : Nat) : Nat :=
  match (mapsHeld s)[n]? with
  | none => 0
  | some m =>
    match k with
    | 0 => m.epoch.toNat
    | 1 => lo32 m.leaseEnd
    | 2 => hi32 m.leaseEnd
    | _ => 2 ^ 31 + b2n m.current * 2 ^ 30 + drainCount s m.epoch

/-- PAIR, MAP and LIVE registers (09 R265). -/
def readPair (s : State) (o : Nat) : Nat :=
  if 0x2000 ≤ o ∧ o < 0x6000 then
    let e := Tab.getD s.pair.excl ((o - 0x2000) / 4) (false, 0)
    b2n e.1 * 2 ^ 16 + e.2.toNat
  else if 0x80 ≤ o ∧ o < 0xC0 then mapWordOf s ((o - 0x80) / 16) (o % 16 / 4)
  else if 0x48 ≤ o ∧ o ≤ 0x54 then (Tab.getD s.pair.mapSlot ((o - 0x48) / 4) 0).toNat
  else
    match o with
    | 0x04 => (partnerSlot s).getD 0 * 2 ^ 20 + statusWord s.pair.busy s.pair.code s.pair.state.toNat
    | 0x08 => s.pair.silverRate
    | 0x0C => s.pair.silverTotal
    | 0x10 => s.pair.silverDone
    | 0x14 => s.pair.ckpt
    | 0x18 => s.pair.journal.length
    | 0x1C => s.pair.held.toNat
    | 0x20 => s.pair.silvers.toNat
    | 0x24 => s.pair.lost.toNat
    | 0x40 => s.pair.mapEpoch.toNat
    | 0x44 => s.pair.mapLease
    | 0x60 => (mapCurrent s).elim 0 (fun m => m.epoch.toNat)
    | 0x100 => s.pair.epoch.toNat * 2 ^ 16 + s.pair.live.toNat
    | 0x104 => lo32 s.pair.expiry
    | 0x108 => hi32 s.pair.expiry
    | 0x10C => s.pair.renew
    | 0x110 => s.pair.suspect.toNat
    | 0x114 => s.pair.exclusions.toNat
    | _ => 0

/-- Frames that the repair record applied at this start names (18 R471). -/
def recordFrames (s : State) : Nat := ((recordEntries s).filter (fun e => e.kind == 4)).length

/-- TIER registers (07 R205). -/
def readTier (s : State) (o : Nat) : Nat :=
  match o with
  | 0x04 => statusWord s.tier.busy s.tier.code s.tier.rate.toNat
  | 0x08 => s.tier.tenant.toNat
  | 0x0C => s.tier.t1Limit.toNat
  | 0x10 => s.tier.t3Limit.toNat
  | 0x14 => s.tier.t1Used.toNat
  | 0x18 => s.tier.t3Used.toNat
  | 0x1C => s.tier.quotas.length
  | 0x20 => s.tier.t3Part.toNat
  | 0x24 => s.tier.t3DataLo.toNat
  | 0x28 => s.tier.t3DataHi.toNat
  | 0x2C => s.tier.t3TagLo.toNat
  | 0x30 => s.tier.t3TagHi.toNat
  | 0x40 => Config.framesPerChannel * s.tier.good.length - recordFrames s
  | 0x44 => s.tier.retired.toNat
  | 0x48 => s.tier.t3Err.toNat
  | 0x4C => (s.req.galleys.map (fun g => ((galleyPages g.2).filter (fun p => p.state == 4)).length)).sum
  | 0x50 => s.tier.expired.toNat
  | 0x54 => lo32 s.tier.chFail.toNat
  | 0x58 => hi32 s.tier.chFail.toNat
  | 0x5C => s.tier.scrub.toNat
  | _ => 0

/-- LPC registers, a window of 16 KiB a channel (07 R205). -/
def readLpc (s : State) (o : Nat) : Nat :=
  if 48 ≤ o / 0x4000 then 0 else
  let l := Tab.getD s.tier.lpc (o / 0x4000) {}
  match o % 0x4000 with
  | 0x00 => l.temp.toNat * 256 + (if l.trained then s.tier.rate.toNat * 16 else 0) + b2n l.selfRefresh * 4 + b2n l.failed * 2 + b2n l.trained
  | 0x04 => l.ce.toNat
  | 0x08 => l.ue.toNat
  | 0x0C => l.macErr.toNat
  | 0x10 => l.rfm.toNat
  | 0x14 => l.refi.toNat
  | 0x18 => l.rd.toNat
  | 0x1C => l.wr.toNat
  | _ => 0

/-! ### NEAR, RMA, LINK, SHAPER (10, 11, 12) -/

/-- NEAR_ROUTEs (10 R286, R290); that of the device's own slot reads zero. -/
def routeWord (s : State) (d : Nat) : Nat :=
  if d = (mySlot s).toNat then 0 else
  (trayDst s d).out.length * 2 ^ 16 + (match trayRoute s d with
    | none => 32
    | some (_, none) => 0
    | some (_, some v) => 16 + v.toNat)

/-- NEAR registers (10 R290). -/
def readNear (s : State) (o : Nat) : Nat :=
  if 0x40 ≤ o ∧ o ≤ 0x78 then
    let l := link s ((o - 0x40) / 4)
    l.farSlot.toNat * 2 ^ 20 + l.farLink.toNat * 2 ^ 16 + l.state.toNat
  else if 0x80 ≤ o ∧ o ≤ 0xBC then routeWord s ((o - 0x80) / 4)
  else
    match o with
    | 0x04 => s.near.disable.toNat
    | 0x08 => s.near.timeout.toNat
    | 0x0C => s.near.resent.toNat
    | 0x10 => s.near.dups.toNat
    | 0x14 => s.near.stale.toNat
    | 0x18 => s.near.denied.toNat
    | 0x1C => s.near.fwd.toNat
    | 0x20 => min s.near.atomicHw 0xFFFF
    | 0x24 => s.near.combine.length
    | 0x28 => s.near.retry.toNat
    | _ => 0

/-- RMA registers (11 R321). -/
def readRma (s : State) (o : Nat) : Nat :=
  match o with
  | 0x04 => statusWord s.rma.busy s.rma.code (b2n s.rma.bound)
  | 0x08 => s.rma.qpcLo.toNat
  | 0x0C => s.rma.qpcHi.toNat
  | 0x10 => s.rma.qpcCount.toNat
  | 0x14 => s.rma.arrivalHigh
  | 0x18 => s.rma.faultTimeout
  | 0x1C => s.rma.retryLimit
  | 0x20 => s.rma.out.length
  | 0x24 => arrivalBytes s
  | 0x28 => s.rma.ids.length
  | 0x2C => (s.rma.qps.filter (fun e => e.2.resident)).length
  | 0x40 => s.rma.tx.toNat
  | 0x44 => s.rma.retx.toNat
  | 0x48 => s.rma.dups.toNat
  | 0x4C => s.rma.expired.toNat
  | 0x50 => s.rma.rlSent.toNat
  | 0x54 => s.rma.rlRecv.toNat
  | 0x58 => s.rma.qpcMiss.toNat
  | 0x5C => s.rma.faults.toNat
  | 0x60 => s.rma.qpErr.toNat
  | 0x64 => s.rma.unacked.toNat
  | 0x68 => s.rma.stale.toNat
  | _ => 0

/-- A link's window of 64 bytes (12 R339). -/
def readLinkN (l : Link) (o : Nat) : Nat :=
  match o with
  | 0x00 => l.phase.toNat * 256 + b2n l.keyPhase * 16 + l.state.toNat
  | 0x04 => l.session.toNat
  | 0x08 => l.fecCorr.toNat
  | 0x0C => l.fecUnc.toNat
  | 0x10 => l.replay.toNat
  | 0x14 => l.authErr.toNat
  | 0x18 => l.downs.toNat
  | 0x1C => l.rekeys.toNat
  | 0x20 => l.rxPwr.toNat
  | _ => 0

/-- A telemetry ring's registers (12 R339). -/
def readTel (r : TelRing) (o : Nat) : Nat :=
  match o with
  | 0x00 => r.lo.toNat
  | 0x04 => r.hi.toNat
  | 0x08 => r.size.toNat
  | 0x0C => r.prod.toNat
  | 0x10 => r.cons.toNat
  | 0x14 => r.drop.toNat
  | _ => 0

/-- SHAPER registers; those of the selected slot and the weights read what is staged (12 R337, R339). -/
def readShaper (s : State) (o : Nat) : Nat :=
  let k := b2n s.links.die * 256 + s.links.slot.toNat
  let x := Tab.getD s.links.staged.slots k {}
  if 0x24 ≤ o ∧ o ≤ 0x2C then (Tab.getD s.links.staged.tcw ((o - 0x20) / 4) 1).toNat
  else if 0x30 ≤ o ∧ o ≤ 0x3C then (Tab.getD s.links.staged.leading ((o - 0x30) / 4) (BitVec.ofNat 32 (72 * 2 ^ 16 + 40))).toNat
  else if 0x100 ≤ o ∧ o < 0x300 then
    (Tab.getD s.links.staged.tmap (2 * ((o - 0x100) / 4)) 0).toNat
      + (Tab.getD s.links.staged.tmap (2 * ((o - 0x100) / 4) + 1) 0).toNat * 2 ^ 16
  else if 0x400 ≤ o ∧ o < 0x600 then (Tab.getD s.links.watch ((o - 0x400) / 4) 0).toNat
  else if 0x600 ≤ o ∧ o < 0x620 then readTel s.links.telA (o - 0x600)
  else if 0x620 ≤ o ∧ o < 0x640 then readTel s.links.telB (o - 0x620)
  else
    match o with
    | 0x00 => b2n s.links.telEn * 4
    | 0x04 => b2n s.links.pending.isSome * 2 ^ 16 + s.links.code.toNat * 256
    | 0x08 => k
    | 0x0C => x.rate.toNat
    | 0x10 => x.depth.toNat
    | 0x14 => x.weight.toNat
    | 0x18 => (BitVec.ofInt 32 (Tab.getD s.links.tokens k 0)).toNat
    | _ => 0

/-- LINK and SHAPER registers (12 R339). -/
def readLink (s : State) (o : Nat) : Nat :=
  if 0x200000 ≤ o then readShaper s (o - 0x200000)
  else if 0x1000 ≤ o ∧ o < 0x1800 then readLinkN (link s ((o - 0x1000) / 0x40)) (o % 0x40)
  else if 0x20 ≤ o ∧ o ≤ 0x3C then
    let l := Tab.getD s.links.lasers ((o - 0x20) / 4) {}
    b2n l.low * 2 ^ 31 + b2n l.off * 2 ^ 30 + l.power.toNat
  else
    match o with
    | 0x00 => s.links.sel.toNat
    | 0x04 => ((List.range 32).map (fun n => b2n (linkIsUp s n) * 2 ^ n)).sum
    | 0x08 => s.links.farDisable.toNat
    | _ => 0

/-! ### CODEC, CLUSTER, REPRO, SEC (06, 03, 14, 15) -/

/-- CODEC_SLOT_INFO and CODEC_SLOT_REFS of the slot that CODEC_SEL names (06 CODEC registers). -/
def slotInfo (s : State) : Nat × Nat :=
  let v := s.codec.sel.toNat
  let p := field v 26 24
  let t := field v 9 0
  let b := v.testBit 10
  let x := slotOf s p t b
  let latent := s.forme.committed.any (fun c => c.entropy.any (fun e => e.2.latentTable.toNat == t && t != 0))
  (x.version.toNat * 2 ^ 24 + x.format.toNat * 2 ^ 16 + b2n x.valid * 2 ^ 15 + b2n (plateBound s t b) * 2 ^ 14 + b2n latent * 2 ^ 13
  , x.refs)

/-- CODEC_LATENTp: the table, its active slot, and whether the partition has one (06 R168; log entry 177). -/
def latentWord (s : State) (p : Nat) : Nat :=
  match s.forme.committed.bind (fun c => Tab.find c.entropy p) with
  | none => 0
  | some e => if e.latentTable = 0 then 0 else 2 ^ 11 + b2n (Tab.getD s.codec.active p false) * 2 ^ 10 + e.latentTable.toNat % 1024

/-- CODEC registers (06). -/
def readCodec (s : State) (o : Nat) : Nat :=
  if 0x40 ≤ o ∧ o ≤ 0xBC then (s.codec.len.getD ((o - 0x40) / 4) 0).toNat
  else if 0x100 ≤ o ∧ o ≤ 0x11C then latentWord s ((o - 0x100) / 4)
  else
    match o with
    | 0x04 => statusWord s.codec.busy s.codec.code 0
    | 0x08 => s.codec.sel.toNat
    | 0x0C => (slotInfo s).1
    | 0x10 => (slotInfo s).2
    | 0x140 => s.codec.crcErr.toNat
    | 0x144 => s.codec.decodeErr.toNat
    | 0x148 => s.codec.raw.toNat
    | 0x14C => s.codec.seals.toNat
    | _ => 0

/-- CLUSTER registers, a window of 16 KiB a physical cluster (03, CLUSTER registers). -/
def readCluster (s : State) (o : Nat) : Nat :=
  let n := o / 0x4000
  if 128 ≤ n then 0 else
  let x := cluster s n
  match o % 0x4000 with
  | 0x00 => x.lastOp.toNat * 2 ^ 24 + min x.live.length 32 * 2 ^ 18 + b2n x.slow * 2 ^ 11 + b2n x.chain * 2 ^ 10
              + b2n (!x.streams.isEmpty) * 2 ^ 9 + b2n (x.chans.any (fun k => k.2.broken.isSome)) * 2 ^ 8 + x.state.toNat
  | 0x04 => b2n x.quiesce * 2
  | 0x08 => (x.wqProd - x.wqCons) * 2 ^ 16 + x.pc % 2 ^ 14
  | 0x0C => b2n x.slow * 2 ^ 31 + b2n x.paceValid * 2 ^ 30 + x.paceCount.toNat
  | 0x10 => lo32 x.beats.toNat
  | 0x14 => hi32 x.beats.toNat
  | 0x18 => x.breach.toNat
  | 0x20 => x.ecc.toNat
  | 0x24 => x.stale.toNat
  | 0x28 => b2n (s.forme.committed.isSome && !fullGeom s) * 2 ^ 8
              + (if fullGeom s then (if hasProgram x then n else 0xFF) else (logicalOf s n).getD 0xFF)
  | _ => 0

/-- The logical positions `lo` to `hi − 1` of region `g`'s rank map, four bits each (14 R367). -/
def lmapWord (s : State) (g lo hi : Nat) : Nat :=
  ((List.range (hi - lo)).map (fun i => (Tab.getD s.repro.lmap (g * 16 + lo + i) 0 % 16) * 2 ^ (4 * i))).sum

/-- REPRO registers (14 R386). -/
def readRepro (s : State) (o : Nat) : Nat :=
  if 0x40 ≤ o ∧ o ≤ 0x6C then digestWord (geomId s) ((o - 0x40) / 4)
  else if 0x100 ≤ o ∧ o < 0x140 then
    let g := (o - 0x100) / 8
    if o % 8 = 0 then lmapWord s g 0 8 else lmapWord s g 8 15 + b2n (s.repro.spare.contains g) * 2 ^ 28
  else
    match o with
    | 0x00 => b2n s.repro.trace * 2
    | 0x04 => (s.repro.planes.filter (fun p => decide (s.tb ≤ p.2.2 + 625000))).length * 2 ^ 16
                + b2n (s.repro.pods.any (fun b => b.2.sent)) * 2 ^ 8 + b2n s.repro.aligned
    | 0x08 => lo32 s.tb
    | 0x0C => hi32 s.tb
    | 0x10 => s.repro.offset.toNat
    | 0x14 => s.repro.steps.toNat
    | 0x18 => s.repro.podLead
    | 0x1C => s.repro.late.toNat
    | 0x20 => s.repro.barriers.toNat
    | 0x24 => s.repro.barrierFail.toNat
    | 0x28 => s.repro.slow.toNat
    | 0x2C => s.repro.subst.toNat
    | 0x30 => s.repro.claimsWon.toNat
    | 0x34 => s.repro.claimsLost.toNat
    | 0x38 => s.repro.colophons.toNat
    | 0x3C => s.repro.evLost.toNat
    | 0x80 => s.repro.traceLo.toNat
    | 0x84 => s.repro.traceHi.toNat
    | 0x88 => s.repro.traceSize.toNat
    | 0x8C => s.repro.traceProd.toNat
    | 0x90 => s.repro.traceCons.toNat
    | 0x94 => s.repro.traceDrop.toNat
    | _ => 0

/-- SEC registers (15 R410). -/
def readSec (s : State) (o : Nat) : Nat :=
  if 0x80 ≤ o ∧ o ≤ 0xAC then digestWord (measurement s 7) ((o - 0x80) / 4)
  else if 0xC0 ≤ o ∧ o ≤ 0xEC then digestWord Config.deviceDigest ((o - 0xC0) / 4)
  else if 0x140 ≤ o ∧ o < 0x340 ∧ o % 0x40 < 0x30 then digestWord (measurement s ((o - 0x100) / 0x40)) (o % 0x40 / 4)
  else
    match o with
    | 0x04 => s.sec.boot.toNat * 2 ^ 28 + b2n s.sec.rpsOk * 2 ^ 27 + b2n s.sec.debug * 2 ^ 26
                + b2n (s.sec.store.unlock.any (fun u => u.2.2)) * 2 ^ 25 + b2n (!s.sec.store.owners.isEmpty) * 2 ^ 24
                + b2n s.sec.podGen.isSome * 2 ^ 23 + b2n s.sec.pairSecret.isSome * 2 ^ 22 + statusWord s.sec.busy s.sec.code 0
    | 0x08 => s.sec.lock.toNat
    | 0x0C => s.sec.cmdLo.toNat
    | 0x10 => s.sec.cmdHi.toNat
    | 0x14 => s.sec.cmdLen.toNat
    | 0x18 => s.sec.fwVersion.toNat
    | 0x1C => s.sec.store.fwSvn.toNat
    | 0x20 => s.sec.store.formeSvn.toNat
    | 0x24 => s.sec.store.incarnation.toNat
    | 0x28 => lo32 s.sec.store.writes.toNat
    | 0x2C => (s.sec.podGen.getD 0).toNat
    | 0x30 => s.sec.donor.toNat
    | 0x34 => s.sec.sessions.length
    | 0x38 => s.sec.tenants.length
    | 0x3C => s.sec.authFail.toNat
    | 0x40 => s.sec.msgAuthFail.toNat
    | 0x44 => lo32 (s.sec.pairSecret.getD 0).toNat
    | 0x48 => hi32 (s.sec.pairSecret.getD 0).toNat
    | 0x4C => s.sec.tenantSel.toNat
    | _ => 0

/-! ### HOSTIF (16) -/

/-- A ring set's registers (16 R435). -/
def readRing (x : RingSet) (o : Nat) : Nat :=
  match o with
  | 0x00 => x.sqLo.toNat
  | 0x04 => x.sqHi.toNat
  | 0x08 => x.cqLo.toNat
  | 0x0C => x.cqHi.toNat
  | 0x10 => x.outLo.toNat
  | 0x14 => x.outHi.toNat
  | 0x18 => x.sizes.toNat
  | 0x1C => x.vector.toNat
  | 0x20 => x.sqHead.toNat
  | 0x28 => x.cqCons.toNat
  | 0x2C => x.outProd.toNat
  | 0x30 => x.outCons.toNat
  | 0x34 => x.cause.toNat * 256 + x.state.toNat
  | _ => 0

/-- HOSTIF registers of a function (16 R435); the PF's HOSTIF_LINK shows PCIe Gen6 x16 in FLIT mode (16 R411). -/
def readHostif (s : State) (fn : FnId) (o : Nat) : Nat :=
  let h := fnHost s fn
  if 0x1000 ≤ o ∧ o < 0x1400 then readRing (Tab.getD h.sets ((o - 0x1000) / 0x80) {}) (o % 0x80)
  else
    match o with
    | 0x00 => h.set.toNat * 256 + b2n h.faultEn * 4
    | 0x04 => statusWord h.busy h.code
                ((List.range 8).map (fun i => b2n ((Tab.getD h.sets i {}).state == 2) * 2 ^ i)).sum
    | 0x08 => (match partOfCtx s fn.toNat with
        | some p => p * 256
        | none => 2 ^ 11) + b2n (fn == 0) * 64 + fn.toNat
    | 0x0C => if fn = 0 then (if s.host.linkUp then 0x306 else 0) else 0
    | 0x10 => h.cqpLo.toNat
    | 0x14 => h.cqpHi.toNat
    | 0x20 => h.faultLo.toNat
    | 0x24 => h.faultHi.toNat
    | 0x28 => h.faultSize.toNat
    | 0x2C => h.faultProd.toNat
    | 0x30 => h.faultCons.toNat
    | 0x34 => heldBytes s fn
    | _ => 0

/-! ### BAR0 (17 R445, R446) -/

/-- A block that the physical function alone sees, by BAR0 offset (17 R445). -/
def readPf (s : State) (off : Nat) : Nat :=
  if off < 0x00200000 then readForme s (off - 0x00100000)
  else if off < 0x00400000 then readSched s (off - 0x00200000)
  else if off < 0x00800000 then readReq s (off - 0x00400000)
  else if off < 0x00A00000 then readMover s (off - 0x00800000)
  else if off < 0x00C00000 then readPair s (off - 0x00A00000)
  else if off < 0x01000000 then readTier s (off - 0x00C00000)
  else if off < 0x01400000 then readLpc s (off - 0x01000000)
  else if off < 0x01800000 then readNear s (off - 0x01400000)
  else if off < 0x01C00000 then readRma s (off - 0x01800000)
  else if off < 0x02000000 then readLink s (off - 0x01C00000)
  else if off < 0x02400000 then readCodec s (off - 0x02000000)
  else if off < 0x02800000 then readCluster s (off - 0x02400000)
  else if off < 0x02C00000 then readRepro s (off - 0x02800000)
  else if off < 0x03000000 then readSec s (off - 0x02C00000)
  else if off < 0x03400000 then readMaint s (off - 0x03000000)
  else 0

/-- The offset lies in DEV, SEC or MAINT, which are live before READY (17 R446). -/
def earlyBlock (off : Nat) : Bool :=
  decide (off < 0x00100000) || (decide (0x02C00000 ≤ off) && decide (off < 0x03400000))

/-- What a read of one aligned doubleword returns to a function: zero where it sees no register (00 R6; 17 R445, R446). -/
def regValue (s : State) (fn : FnId) (off : Nat) : Word :=
  BitVec.ofNat 32 (
    if off < 0x00100000 then (let v := readDev s fn off
      if v.2 || fn == 0 then v.1 else 0)
    else if 0x03400000 ≤ off && off < 0x03800000 then (if s.dev.ready then readHostif s fn (off - 0x03400000) else 0)
    else if pfLive s fn (earlyBlock off) then readPf s off
    else 0)

end Sys2Proof.Machine
end

