-- ==== Sys2Proof/Machine/Regs.lean ====
section
/-!
DEFINITION. Register accesses that no block's own command makes (17): TMR copies, reads that clear, pairs read low word
first, refused accesses, and writes of registers that only hold a value. Offsets are BAR0 offsets (17 R445).
-/

namespace Sys2Proof.Machine

/-! ### TMR (17 R444) -/

/-- An upset puts `v` into one copy. -/
def Tmr.upset (t : Tmr) (copy : Nat) (v : Word) : Tmr :=
  if copy = 0 then { t with a := v } else if copy = 1 then { t with b := v } else { t with c := v }

/-- The copies agree. -/
def Tmr.agree (t : Tmr) : Bool := t.a == t.b && t.b == t.c

/-- The register's copies after the fix: all hold the majority. -/
def Tmr.fixed (t : Tmr) (copy : Nat) (v : Word) : Tmr := Tmr.all (t.upset copy v).maj

/-- One more copy rewritten: DEV_TMR_FIX and its error capture (17 R444, R448). -/
def tmrCount (differ : Bool) (s : State) : State :=
  if differ then noteErr 0 0 0x028 { s with dev := { s.dev with tmrFix := satInc s.dev.tmrFix } } else s

/-- A copy of a TMR register (0 DEV_IDENT, 1 MAINT_LAST_RESET, 2 MAINT_REPAIR) takes the value `v`; where the copies then
differ, the device rewrites them to their majority. -/
def tmrFixed (reg copy : Nat) (v : Word) (s : State) : State :=
  if 2 < copy then s
  else if reg = 0 then
    tmrCount (!(s.dev.ident.upset copy v).agree) { s with dev := { s.dev with ident := s.dev.ident.fixed copy v } }
  else if reg = 1 then
    tmrCount (!(s.maint.lastReset.upset copy v).agree) { s with maint := { s.maint with lastReset := s.maint.lastReset.fixed copy v } }
  else if reg = 2 then
    tmrCount (!(s.maint.repair.upset copy v).agree) { s with maint := { s.maint with repair := s.maint.repair.fixed copy v } }
  else s

/-- TMR_FIX. -/
def execTmrFix (reg copy : BitVec 2) (v : Word) (s : State) : Out := .next (tmrFixed reg.toNat copy.toNat v s)

/-! ### Reads -/

/-- The block base plus `0x4000 n` of a CLUSTER register at offset `r` of its window (17 R445). -/
def clusterReg (off r : Nat) : Option Nat :=
  if 0x02400000 ≤ off && (off - 0x02400000) % 0x4000 == r && decide ((off - 0x02400000) / 0x4000 < 128) then
    some ((off - 0x02400000) / 0x4000)
  else none

/-- CLUSTER_FAULT as it reads (03, CLUSTER registers). -/
def clusterFaultWord (c : Cluster) : Word := BitVec.ofNat 32 (c.faultIndex.toNat * 16 + c.faultCause.toNat)

/-- An RC register of the physical function: whether it is live before READY, its value, and the state with the bits it
returned cleared (17 R436, R440). -/
def rcReg (s : State) (off : Nat) : Option (Bool × Word × State) :=
  if off = 0x040 then some (true, s.dev.err, { s with dev := { s.dev with err := 0 } })
  else if off = 0x044 then some (true, s.dev.firstErr, { s with dev := { s.dev with firstErr := 0 } })
  else if off = 0x03000020 then some (true, s.maint.fatal, { s with maint := { s.maint with fatal := 0 } })
  else match clusterReg off 0x1C with
    | some n =>
      some (false, clusterFaultWord (cluster s n), clusterUpd n (fun c => { c with faultIndex := 0, faultCause := 0 }) s)
    | none => none

/-- A read of any other location returns its value and changes nothing (17 R436); a location with no register reads zero (00
R6). -/
def plainRead (fn : FnId) (off : Nat) (s : State) : State :=
  if answers s fn then emit (.regRead fn off (regValue s fn off)) s
  else if responds s fn then emit (.regRead fn off 0) s else s

/-- A read of an RC register. Through a virtual function, and before READY outside DEV and MAINT, it reads zero and clears
nothing (17 R445, R446). -/
def rcRead (fn : FnId) (off : Nat) (s : State) : State :=
  match rcReg s off with
  | none => plainRead fn off s
  | some (early, v, t) =>
    if pfLive s fn early then emit (.regRead fn off v) t
    else if responds s fn then emit (.regRead fn off 0) s
    else s

/-- RC_READ. -/
def execRcRead (fn : FnId) (off : Nat) (s : State) : Out := .next (rcRead fn off s)

/-- A 64-bit RO or SH quantity whose _LO word stands at `off`: whether it is live before READY, whether every function
reads it, and its value (17 R438). -/
def widePair (s : State) (off : Nat) : Option (Bool × Bool × Nat) :=
  if off = 0x018 then some (true, true, s.tb)
  else if off = 0x048 then some (true, false, s.dev.firstTb.toNat)
  else if off = 0x03000024 then some (true, false, s.maint.fatalTb.toNat)
  else if off = 0x02C00044 then some (true, false, (s.sec.pairSecret.getD 0).toNat)
  else if off = 0x0020000C then some (false, false, s.sched.frame.toNat)
  else if off = 0x00200024 then some (false, false, (Tab.getD s.sched.ctxs s.sched.ctxSel.toNat {}).beats.toNat)
  else if off = 0x00200038 then some (false, false, (Tab.getD s.sched.ctxs s.sched.ctxSel.toNat {}).vt.toNat)
  else if off = 0x00200048 then some (false, false, s.sched.meterTick.toNat)
  else if off = 0x02800008 then some (false, false, s.tb)
  else if off = 0x00C00054 then some (false, false, s.tier.chFail.toNat)
  else if off = 0x00A00104 then some (false, false, s.pair.expiry)
  else if 0x00A00084 ≤ off && (off - 0x00A00084) % 16 == 0 && decide ((off - 0x00A00084) / 16 < 4) then
    some (false, false, (((mapsHeld s)[(off - 0x00A00084) / 16]?).map (fun m => m.leaseEnd)).getD 0)
  else match clusterReg off 0x10 with
    | some n => some (false, false, (cluster s n).beats.toNat)
    | none => none

/-- The function reaches the pair's registers (17 R445, R446). -/
def wideLive (s : State) (fn : FnId) (early all : Bool) : Bool := if all then answers s fn else pfLive s fn early

/-- The low and the high word of a 64-bit quantity. -/
def loWord (v : Nat) : Word := BitVec.ofNat 32 (v % 2 ^ 32)
def hiWord (v : Nat) : Word := BitVec.ofNat 32 (v / 2 ^ 32)

/-- A read of the _LO word: the _HI word goes into the reading function's latch (17 R438). -/
def readLo (fn : FnId) (off : Nat) (x : Bool × Bool × Nat) (s : State) : State :=
  if wideLive s fn x.1 x.2.1 then
    emit (.regRead fn off (loWord x.2.2))
      { s with dev := { s.dev with latch := Tab.put s.dev.latch fn.toNat (off + 4, hiWord x.2.2) } }
  else if responds s fn then emit (.regRead fn off 0) s
  else s

/-- The latch of the function holds the word at `off` (17 R438). -/
def latched (s : State) (fn : FnId) (off : Nat) : Option Word :=
  match Tab.find s.dev.latch fn.toNat with
  | some (o, v) => if o = off then some v else none
  | none => none

/-- A read of the _HI word: the latched value, once; without a matching latch the live value (17 R438). -/
def readHi (fn : FnId) (off : Nat) (x : Bool × Bool × Nat) (s : State) : State :=
  if wideLive s fn x.1 x.2.1 then
    match latched s fn off with
    | some v => emit (.regRead fn off v) { s with dev := { s.dev with latch := Tab.del s.dev.latch fn.toNat } }
    | none => emit (.regRead fn off (hiWord x.2.2)) s
  else if responds s fn then emit (.regRead fn off 0) s
  else s

/-- A read of a word of a pair, or of a plain location. -/
def pairRead (fn : FnId) (off : Nat) (s : State) : State :=
  match widePair s off with
  | some x => readLo fn off x s
  | none =>
    match (if 4 ≤ off then widePair s (off - 4) else none) with
    | some x => readHi fn off x s
    | none => plainRead fn off s

/-- LO_READ_CAPTURE. -/
def execLoReadCapture (fn : FnId) (off : Nat) (s : State) : Out := .next (pairRead fn off s)

/-! ### Refused accesses (17 R437) -/

/-- The access is not one aligned doubleword with all its byte enables. -/
def Access.wrong (a : Access) : Bool := a.dwords != 1 || a.enables != 0xF || a.offset % 4 != 0

/-- DEV_ACCESS_ADDR of a refused access (17 R447). -/
def accessWord (a : Access) : Word := BitVec.ofNat 32 (2 ^ 31 * b2n a.write + (a.offset / 4 * 4) % 2 ^ 26)

/-- A refused access counts in the issuing function's registers; a refused read returns zero. Before READY, outside DEV,
SEC and MAINT, no refusal is counted (17 R446). -/
def accessRefused (a : Access) (s : State) : State :=
  if Access.wrong a && responds s a.fn then
    let s := if a.write then s else emit (.regRead a.fn a.offset 0) s
    if answers s a.fn && (s.dev.ready || earlyBlock a.offset) then
      noteErr 0 a.fn.toNat 0x020 { s with dev := { s.dev with
        accessErr := Tab.upd s.dev.accessErr a.fn.toNat 0 satInc
        accessAddr := Tab.put s.dev.accessAddr a.fn.toNat (accessWord a) } }
    else s
  else s

/-- REGISTER_ACCESS_REFUSED. -/
def execRegisterAccessRefused (a : Access) (s : State) : Out := .next (accessRefused a s)

/-! ### Writes (17 R436) -/

/-- A value that a register of a limited range takes, or keeps. -/
def inRange (lo hi v old : Nat) : Nat := if decide (lo ≤ v) && decide (v ≤ hi) then v else old

/-- FORME registers (02). -/
def putForme (o : Nat) (v : Word) (s : State) : State :=
  if o = 0x08 then { s with forme := { s.forme with srcLo := v } }
  else if o = 0x0C then { s with forme := { s.forme with srcHi := v } }
  else if o = 0x10 then { s with forme := { s.forme with len := v } }
  else if o = 0x14 then { s with forme := { s.forme with regionMask := v.extractLsb' 0 8 } }
  else s

/-- SCHED registers (13 R360); SCHED_WEIGHT stages the weight of the selected context. -/
def putSched (o : Nat) (v : Word) (s : State) : State :=
  if o = 0x14 then { s with sched := { s.sched with ctxSel := v.extractLsb' 0 6 } }
  else if o = 0x18 then
    { s with sched := { s.sched with ctxs := Tab.upd s.sched.ctxs s.sched.ctxSel.toNat {} (fun c => { c with staged := v.extractLsb' 0 8 }) } }
  else if o = 0x40 then { s with sched := { s.sched with meterLo := v } }
  else if o = 0x44 then { s with sched := { s.sched with meterHi := v } }
  else s

/-- PAIR, MAP and LIVE registers (09 R265). -/
def putPair (o : Nat) (v : Word) (s : State) : State :=
  if o = 0x08 then { s with pair := { s.pair with silverRate := inRange 1 100 (field v.toNat 6 0) s.pair.silverRate } }
  else if o = 0x40 then { s with pair := { s.pair with mapEpoch := v } }
  else if o = 0x44 then { s with pair := { s.pair with mapLease := inRange 100 60000 v.toNat s.pair.mapLease } }
  else if 0x48 ≤ o && o ≤ 0x54 then
    { s with pair := { s.pair with mapSlot := Tab.put s.pair.mapSlot ((o - 0x48) / 4) (v &&& 0x03030303) } }
  else if o = 0x10C then { s with pair := { s.pair with renew := inRange 10 100 v.toNat s.pair.renew } }
  else if o = 0x110 then { s with pair := { s.pair with suspect := v.extractLsb' 0 12 } }
  else s

/-- TIER registers (07 R205). -/
def putTier (o : Nat) (v : Word) (s : State) : State :=
  if o = 0x08 then { s with tier := { s.tier with tenant := v.extractLsb' 0 16 } }
  else if o = 0x0C then { s with tier := { s.tier with t1Limit := v } }
  else if o = 0x10 then { s with tier := { s.tier with t3Limit := v } }
  else if o = 0x20 then { s with tier := { s.tier with t3Part := v.extractLsb' 0 3 } }
  else if o = 0x24 then { s with tier := { s.tier with t3DataLo := v } }
  else if o = 0x28 then { s with tier := { s.tier with t3DataHi := v } }
  else if o = 0x2C then { s with tier := { s.tier with t3TagLo := v } }
  else if o = 0x30 then { s with tier := { s.tier with t3TagHi := v } }
  else s

/-- RMA registers (11 R321). -/
def putRma (o : Nat) (v : Word) (s : State) : State :=
  if o = 0x08 then { s with rma := { s.rma with qpcLo := v } }
  else if o = 0x0C then { s with rma := { s.rma with qpcHi := v } }
  else if o = 0x10 then { s with rma := { s.rma with qpcCount := v &&& 0x1FFFFF } }
  else if o = 0x14 then { s with rma := { s.rma with arrivalHigh := inRange 1024 4096 (field v.toNat 12 0) s.rma.arrivalHigh } }
  else if o = 0x18 then { s with rma := { s.rma with faultTimeout := inRange 1 1000 v.toNat s.rma.faultTimeout } }
  else if o = 0x1C then { s with rma := { s.rma with retryLimit := inRange 1 10000 v.toNat s.rma.retryLimit } }
  else s

/-- The key of the slot that SHAPER_SEL names. -/
def shaperKey (s : State) : Nat := b2n s.links.die * 256 + s.links.slot.toNat

/-- Change the staged values of the selected slot (12 R337). -/
def stageSlot (f : ShapeSlot → ShapeSlot) (s : State) : State :=
  { s with links := { s.links with staged := { s.links.staged with slots := Tab.upd s.links.staged.slots (shaperKey s) {} f } } }

/-- The staged slots of SHAPER_TMAP_w; the halves of slots 0 and 255 are reserved (12 R339). -/
def stageTmap (w : Nat) (v : Word) (m : Tab (BitVec 16)) : Tab (BitVec 16) :=
  let m := if w = 0 then m else Tab.put m (2 * w) (v.extractLsb' 0 16)
  if w = 127 then m else Tab.put m (2 * w + 1) (v.extractLsb' 16 16)

/-- The telemetry ring registers of die `d` (12 R339). -/
def putTel (d o : Nat) (v : Word) (s : State) : State :=
  let f (r : TelRing) : TelRing :=
    if o = 0x00 then { r with lo := v } else if o = 0x04 then { r with hi := v }
    else if o = 0x08 then { r with size := v.extractLsb' 0 5 } else if o = 0x10 then { r with cons := v.extractLsb' 0 21 }
    else r
  if d = 0 then { s with links := { s.links with telA := f s.links.telA } }
  else { s with links := { s.links with telB := f s.links.telB } }

/-- SHAPER registers (12 R339). -/
def putShaper (o : Nat) (v : Word) (s : State) : State :=
  if o = 0x08 then { s with links := { s.links with die := bit v 8, slot := v.extractLsb' 0 8 } }
  else if o = 0x0C then stageSlot (fun x => { x with rate := v }) s
  else if o = 0x10 then stageSlot (fun x => { x with depth := v }) s
  else if o = 0x14 then stageSlot (fun x => { x with weight := v.extractLsb' 0 8 }) s
  else if 0x24 ≤ o && o ≤ 0x2C then
    { s with links := { s.links with staged := { s.links.staged with
        tcw := Tab.put s.links.staged.tcw ((o - 0x20) / 4) (v.extractLsb' 0 8) } } }
  else if 0x30 ≤ o && o ≤ 0x3C then
    { s with links := { s.links with staged := { s.links.staged with
        leading := Tab.put s.links.staged.leading ((o - 0x30) / 4) (v &&& 0x03FF03FF) } } }
  else if 0x100 ≤ o && o < 0x300 then
    { s with links := { s.links with staged := { s.links.staged with
        tmap := stageTmap ((o - 0x100) / 4) v s.links.staged.tmap } } }
  else if 0x400 ≤ o && o < 0x600 then
    { s with links := { s.links with watch := Tab.put s.links.watch ((o - 0x400) / 4) (v &&& 0x801F03FF) } }
  else if 0x600 ≤ o && o < 0x640 then putTel ((o - 0x600) / 0x20) ((o - 0x600) % 0x20) v s
  else s

/-- CODEC registers (06). -/
def putCodec (o : Nat) (v : Word) (s : State) : State :=
  if o = 0x08 then { s with codec := { s.codec with sel := v &&& 0x07FF07FF } }
  else if 0x40 ≤ o && o ≤ 0xBC then { s with codec := { s.codec with len := s.codec.len.set ((o - 0x40) / 4) v } }
  else s

/-- REPRO registers (14 R386). -/
def putRepro (o : Nat) (v : Word) (s : State) : State :=
  if o = 0x18 then { s with repro := { s.repro with podLead := inRange 625 62500 (field v.toNat 16 0) s.repro.podLead } }
  else if o = 0x80 then { s with repro := { s.repro with traceLo := v } }
  else if o = 0x84 then { s with repro := { s.repro with traceHi := v } }
  else if o = 0x88 then { s with repro := { s.repro with traceSize := v.extractLsb' 0 5 } }
  else if o = 0x90 then { s with repro := { s.repro with traceCons := v.extractLsb' 0 25 } }
  else s

/-- SEC registers (15 R410); a 1 sets a quoin and a 0 is ignored (17 R436). -/
def putSec (o : Nat) (v : Word) (s : State) : State :=
  if o = 0x08 then { s with sec := { s.sec with lock := s.sec.lock ||| v.extractLsb' 0 4 } }
  else if o = 0x0C then { s with sec := { s.sec with cmdLo := v } }
  else if o = 0x10 then { s with sec := { s.sec with cmdHi := v } }
  else if o = 0x14 then { s with sec := { s.sec with cmdLen := v } }
  else if o = 0x30 then { s with sec := { s.sec with donor := v.extractLsb' 0 12 } }
  else if o = 0x4C then { s with sec := { s.sec with tenantSel := v.extractLsb' 0 16 } }
  else s

/-- A write of the physical function to a block that it alone sees (17 R445). -/
def putPf (off : Nat) (v : Word) (s : State) : State :=
  if off < 0x00100000 then s
  else if off < 0x00200000 then putForme (off - 0x00100000) v s
  else if off < 0x00400000 then putSched (off - 0x00200000) v s
  else if off = 0x00400008 then { s with req := { s.req with sel := v.extractLsb' 0 16 } }
  else if off = 0x00800008 then { s with req := { s.req with hold := inRange 0 86400000 v.toNat s.req.hold } }
  else if off = 0x0080000C then { s with req := { s.req with backlog := v } }
  else if off < 0x00A00000 then s
  else if off < 0x00C00000 then putPair (off - 0x00A00000) v s
  else if off < 0x01000000 then putTier (off - 0x00C00000) v s
  else if off < 0x01800000 then s
  else if off < 0x01C00000 then putRma (off - 0x01800000) v s
  else if off < 0x01E00000 then s
  else if off < 0x02000000 then putShaper (off - 0x01E00000) v s
  else if off < 0x02400000 then putCodec (off - 0x02000000) v s
  else if off < 0x02800000 then s
  else if off < 0x02C00000 then putRepro (off - 0x02800000) v s
  else if off < 0x03000000 then putSec (off - 0x02C00000) v s
  else s

/-- The base, size and vector registers of a ring set, which ignore writes while it is enabled (16 R435). -/
def putRing (o : Nat) (v : Word) (x : RingSet) : RingSet :=
  if x.state = 1 then x
  else if o = 0x00 then { x with sqLo := v }
  else if o = 0x04 then { x with sqHi := v }
  else if o = 0x08 then { x with cqLo := v }
  else if o = 0x0C then { x with cqHi := v }
  else if o = 0x10 then { x with outLo := v }
  else if o = 0x14 then { x with outHi := v }
  else if o = 0x18 then { x with sizes := v &&& 0x001F0F0F }
  else if o = 0x1C then { x with vector := v &&& 0xFFFF001F }
  else x

/-- The registers of a function's HOSTIF block (16 R435). -/
def putHostif (o : Nat) (v : Word) (h : FnHost) : FnHost :=
  if o = 0x10 then { h with cqpLo := v }
  else if o = 0x14 then { h with cqpHi := v }
  else if o = 0x20 then (if h.faultEn then h else { h with faultLo := v })
  else if o = 0x24 then (if h.faultEn then h else { h with faultHi := v })
  else if o = 0x28 then (if h.faultEn then h else { h with faultSize := v &&& 0x1F })
  else if 0x1000 ≤ o && o < 0x1400 then
    { h with sets := Tab.upd h.sets ((o - 0x1000) / 0x80) {} (putRing ((o - 0x1000) % 0x80) v) }
  else h

/-- What LOCK_INTERFACE locks of a function's HOSTIF block: the ring-set bases and the control-QP block address
(16 R432). -/
def lockedOf (h : FnHost) : Word × Word × List (Word × Word × Word × Word × Word × Word) :=
  (h.cqpLo, h.cqpHi, (List.range 8).map (fun i =>
    let x := Tab.getD h.sets i {}
    (x.sqLo, x.sqHi, x.cqLo, x.cqHi, x.outLo, x.outHi)))

/-- A write of a function to its own HOSTIF block; a change of locked configuration moves its TDI to ERROR (16 R432). -/
def hostifWrite (fn : FnId) (o : Nat) (v : Word) (s : State) : State :=
  let old := fnHost s fn
  let new := putHostif o v old
  if new == old then s
  else if Tab.find s.host.tdi fn.toNat == some true && lockedOf new != lockedOf old then tdiError fn (fnUpd fn (fun _ => new) s)
  else fnUpd fn (fun _ => new) s

/-- A write of one aligned doubleword. Registers with a command of their own, and registers that hold no value, are
unchanged by it; what a function does not see ignores writes (17 R436, R445, R446). -/
def registerWrite (fn : FnId) (off : Nat) (v : Word) (s : State) : State :=
  if off % 4 ≠ 0 || !answers s fn then s
  else if off = 0x014 then { s with dev := { s.dev with scratch := Tab.put s.dev.scratch fn.toNat v } }
  else if 0x03400000 ≤ off && off < 0x03800000 then
    if s.dev.ready then hostifWrite fn (off - 0x03400000) v s else s
  else if pfLive s fn (earlyBlock off) then putPf off v s
  else s

/-- REGISTER_WRITE. -/
def execRegisterWrite (fn : FnId) (off : Nat) (v : Word) (s : State) : Out := .next (registerWrite fn off v s)

end Sys2Proof.Machine
end

