-- ==== Sys2Proof/Machine/Sched.lean ====
section
/-!
DEFINITION. The scheduler's events (13): frames and slots (R343, R344, R354), the ends of saves and restores (R347, R356),
weights (R352), the meter table (R357, R359) and the commands of SCHED_CTRL (R360).
-/

namespace Sys2Proof.Machine

/-! ### Slots (13 R343, R344, R354) -/

/-- A cluster is to be switched away; `t` is the tick of the slot end. It has no overrun where it is at a switch point already
(13 R354). -/
def switchAway (t n : Nat) (s : State) : State :=
  let at_ := if atSwitch s n then s.tb else t
  clusterUpd n (fun x => { x with switchAt := some (x.switchAt.getD at_) }) s

/-- The clusters by physical index. -/
def clusterIds (s : State) : List Nat := s.clusters.map (fun e => e.1)

/-- The effective end of context `c`, at tick `t`: its debt falls by `d`, and its clusters switch away (13 R354). -/
def effectiveEnd (c d t : Nat) (s : State) : State :=
  let s := ctxUpd c (fun x => { x with debt := x.debt - d, pastEnd := true }) s
  ((clusterIds s).filter (fun n => (cluster s n).ctx == some c && (cluster s n).moving.isNone)).foldl
    (fun s n => switchAway t n s) s

/-- The contexts a slot entry names, rising. -/
def namedCtxs (m : DWord) : List Nat := (List.range 64).filter (fun c => m.toNat.testBit c)

/-- The effective ends of the current slot that have passed unnoticed by its end (13 R354). -/
def lateEnds (s : State) : State :=
  match curSlot s with
  | none => s
  | some sl =>
    (namedCtxs sl.contextMask).foldl (fun s c =>
      let x := ctxOf s c
      let d := min x.debt sl.length.toNat
      if d = 0 || x.pastEnd then s else effectiveEnd c d (s.sched.slotStart + sl.length.toNat - d) s) s

/-- Slot `j` begins at tick `t`: clusters bound to contexts that it does not name are switched away, and the others stay bound
(13 R344, R354). -/
def slotBegins (j t : Nat) (s : State) : State :=
  let s := lateEnds s
  let ctxs : Tab Ctx := s.sched.ctxs.map (fun e => (e.1, { e.2 with pastEnd := false, wasReady := false }))
  let s : State := { s with sched := { s.sched with slot := j, slotStart := t, ctxs := ctxs } }
  match curSlot s with
  | none => s
  | some sl =>
    let named := namedCtxs sl.contextMask
    let s := (clusterIds s).foldl (fun s n =>
      match (cluster s n).ctx, (cluster s n).moving with
      | some c, none => if named.contains c then clusterUpd n (fun x => { x with switchAt := none }) s else switchAway t n s
      | _, _ => s) s
    let s := (named.filter (fun c => (ctxOf s c).debt != 0 && decide (sl.length.toNat ≤ (ctxOf s c).debt))).foldl
      (fun s c => effectiveEnd c sl.length.toNat t s) s
    rebindAll ((clusterIds s).foldl (fun s n => postWaiting n s) (vtRefresh true s))

/-- A major frame begins (13 R343): its number, the staged weights (R352), and its first slot. -/
def frameStart (s : State) : State :=
  let f := frameTb s
  if !s.sched.running || f = 0 || decide (s.tb / f ≤ s.sched.frame.toNat) then s else
  let s := { s with sched := { s.sched with frame := BitVec.ofNat 64 (s.tb / f) } }
  let s := if s.sched.commitPending then
      let ctxs : Tab Ctx := s.sched.ctxs.map (fun e => (e.1, { e.2 with weight := e.2.staged.toNat }))
      { s with sched := { s.sched with ctxs := ctxs, commitPending := false, busy := s.sched.dumpAt.isSome, code := codeOf .ok } }
    else s
  slotBegins 0 (s.tb / f * f) s

/-- FRAME_START. -/
def execFrameStart (s : State) : Out := .next (frameStart s)

/-- SLOT_END; the end of a frame's last slot is the next frame's start. -/
def execSlotEnd (s : State) : Out :=
  .next (match curSlot s, s.forme.committed with
    | some sl, some c =>
      let t := s.sched.slotStart + sl.length.toNat
      if decide (t ≤ s.tb) && decide (s.sched.slot + 1 < c.imposition.slots.length) then slotBegins (s.sched.slot + 1) t s else s
    | _, _ => s)

/-- EFFECTIVE_SLOT_END: the slot end less min(D, LENGTH) (13 R354). -/
def execEffectiveSlotEnd (ctx : FnId) (s : State) : Out :=
  let c := ctx.toNat
  .next (match curSlot s with
    | some sl =>
      let x := ctxOf s c
      let d := min x.debt sl.length.toNat
      let t := s.sched.slotStart + sl.length.toNat - d
      if sl.contextMask.toNat.testBit c && d != 0 && !x.pastEnd && decide (t ≤ s.tb) then rebindAll (effectiveEnd c d t s) else s
    | none => s)

/-! ### Saves and restores (13 R347, R348, R356) -/

/-- SAVE_COMPLETE: the cluster is unbound, and the restore of the incoming context starts. No binding changes while the device is
fenced, and a full save first waits for the lines that its streams have outstanding (13 R347). -/
def execSaveComplete (cl : ClusterId) (s : State) : Out :=
  let n := cl.toNat
  .next (match (cluster s n).moving with
    | some (true, c) => if fenced s || !streamsQuiet s n c then s else rebind n false (vtRefresh false (saveEnd n c s))
    | _ => s)

/-- RESTORE_COMPLETE. -/
def execRestoreComplete (cl : ClusterId) (s : State) : Out :=
  let n := cl.toNat
  .next (match (cluster s n).moving with
    | some (false, c) => if fenced s then s else restoreEnd n c s
    | _ => s)

/-! ### SCHED_CTRL (13 R352, R353, R359, R360) -/

/-- CODE of SCHED_STATUS. -/
def schedCode (c : Status) (s : State) : State := { s with sched := { s.sched with code := codeOf c } }

/-- The protocol of SCHED_CTRL; PARK_WAITS is its setting. -/
def schedCtl (w : CtlWrite) (own : Nat) (run : State → State) (s : State) : State :=
  ctl w false [0, 1, 2] own (fun s => s.sched.busy) schedCode
    (fun s => { s with sched := { s.sched with parkWaits := ctlSetting w 3 s.sched.parkWaits } }) run s

/-- WEIGHT_COMMIT: a staged weight of 0 or for an ABSENT context fails (13 R352). -/
def execWeightCommit (w : CtlWrite) (s : State) : Out :=
  .next (schedCtl w 0 (fun s =>
    let bad := s.sched.ctxs.any (fun e => e.2.staged.toNat != e.2.weight && (e.2.staged == 0 || !ctxPresent s e.1))
    if bad then schedCode .malformed s
    else { s with sched := { s.sched with busy := true, commitPending := true } }) s)

/-- METER_DUMP: the dump is taken at the first multiple of 625,000 tb after the command (13 R359). -/
def execMeterDump (w : CtlWrite) (s : State) : Out :=
  .next (schedCtl w 1 (fun s =>
    if s.sched.meterLo.toNat % 4096 ≠ 0 then schedCode .malformed s
    else { s with sched := { s.sched with
      busy := true, dumpAt := some ((s.tb / Config.tbPerMs + 1) * Config.tbPerMs) } }) s)

/-- PARK_WAITS: a write without a command bit applies the setting. -/
def execParkWaits (w : CtlWrite) (s : State) : Out := .next (schedCtl w 3 id s)

/-- CLR: SCHED_OVERRUNS, SCHED_PARKS and SCHED_DEBT_DROP of every context. -/
def execSchedClr (w : CtlWrite) (s : State) : Out :=
  .next (schedCtl w 2 (fun s =>
    let ctxs : Tab Ctx := s.sched.ctxs.map (fun e => (e.1, { e.2 with overruns := 0, parks := 0, debtDrop := 0 }))
    schedCode .ok { s with sched := { s.sched with ctxs := ctxs } }) s)

/-! ### Meters (13 R357, R359) -/

/-- The pages charged to every tenant are added to its entry. -/
def meterPages (s : State) : State :=
  s.tier.quotas.foldl (fun s q =>
    if q.2.t1Held = 0 ∧ q.2.t3Used = 0 then s else
    meterAdd q.1 (fun m => { m with
      t1PageMs := m.t1PageMs + BitVec.ofNat 64 q.2.t1Held, t3PageMs := m.t3PageMs + BitVec.ofNat 64 q.2.t3Used }) s) s

/-- The dump that waits for this tick is written. -/
def meterDumps (s : State) : State :=
  match s.sched.dumpAt with
  | none => s
  | some t =>
    if s.tb < t then s else
    let tick : DWord := BitVec.ofNat 64 t
    emit (.meterDump (s.sched.meterHi ++ s.sched.meterLo) tick s.sched.meters s.sched.overflow)
      { s with sched := { s.sched with dumpAt := none, busy := false, code := codeOf .ok, meterTick := tick } }

/-- METER_SAMPLE: at each multiple of 625,000 tb. -/
def execMeterSample (s : State) : Out :=
  .next (if s.tb / Config.tbPerMs ≤ s.sched.sampledAt / Config.tbPerMs then s
    else meterDumps (meterPages { s with sched := { s.sched with sampledAt := s.tb } }))

end Sys2Proof.Machine
end

