-- ==== Sys2Proof/Machine/Segment.lean ====
section
/-!
DEFINITION. The end of a segment (04 R115 to R119; 14 R376; 05 R147; 09 R246), the pace windows (03 R93) and the move of a
rank to its region's spare (03 R90; 14 R367, R368).
-/

namespace Sys2Proof.Machine

/-! ### Sums of a segment (04 R116, 14 R376) -/

/-- The ended item is one of the segment's. -/
def ofSegment (g : SegmentRef) (e : Ended) : Bool :=
  e.item.part == g.part && e.item.layer == g.layer && e.item.segment == g.segment && e.item.level == g.level

/-- The segment's ended items: one on each of its clusters, else none (04 R115). -/
def segmentItems (s : State) (g : SegmentRef) : Option (List Ended) :=
  let es := g.clusters.map (fun n => (cluster s n.toNat).done.find? (ofSegment g))
  if !es.isEmpty && es.all (fun e => e.isSome) then some (es.filterMap id) else none

/-- Saturations and NaNs of a request's rows across the segment's clusters. -/
def satSums (es : List Ended) (rows : List Nat) : Nat × Nat :=
  es.foldl (fun a e => rows.foldl (fun a k =>
    let c := Tab.getD e.sat k (0, 0)
    (satTo a.1 c.1, satTo a.2 c.2)) a) (0, 0)

/-- The digest entries of one row across the segment's clusters, summed modulo 2^128. -/
def rowDigest (es : List Ended) (k : Nat) : BitVec 128 :=
  es.foldl (fun a e => a + Tab.getD e.dig (k % 1024) 0) 0

/-- Add a value to LD(layer, position). -/
def ldAdd (layer pos : Nat) (h : BitVec 128) (r : Rec) : Rec :=
  let old := Tab.getD r.ld layer []
  let v := layerValue r layer pos + h
  { r with ld := Tab.put r.ld layer ((pos, v) :: old.filter (fun e => e.1 != pos)) }

/-- A request's layer values gain what the segment's rows contributed. -/
def ldRows (layer : Nat) (es : List Ended) (rows pos : List Nat) (r : Rec) : Rec :=
  (rows.zip pos).foldl (fun r e => ldAdd layer e.2 (rowDigest es e.1) r) r

/-! ### Widening (04 R116 to R120) -/

/-- The threshold of a layer: its entry's, else the default (04 R120). -/
def thresholdOf (m : NumericsSect) (layer : Nat) : Nat :=
  ((m.entries.find? (fun e => e.layer.toNat == layer)).elim m.threshold (fun e => e.threshold)).toNat

/-- Widening is enabled for a layer (04 R117). -/
def widenOn (m : NumericsSect) (layer : Nat) : Bool :=
  (m.policy == 1 || m.policy == 2)
    && !((m.entries.find? (fun e => e.layer.toNat == layer)).elim false (fun e => e.flags.toNat.testBit 0))

/-- A request's saturations exceed the layer's threshold (04 R116); NaNs never trigger widening (R106). 0xFFFF_FFFF is never
exceeded: the counter saturates there. -/
def overThreshold (m : NumericsSect) (layer : Nat) (c : Nat × Nat) : Bool :=
  decide (thresholdOf m layer < c.1)

/-- A WIDENED or FALLBACK event of a segment (14 R379). -/
def segmentEvent (g : SegmentRef) (r : Rec) (type arg : Byte) (pos : List Nat) (data : List Word) : ColophonEvent :=
  { type := type, arg := arg, layer := g.layer, segment := g.segment, stage := r.stage
    pos := (pos.foldl (fun m p => some (m.elim p (min p))) none).getD 0, count := pos.length, data := data }

/-- FALLBACK events of a request in the segment's ATTENDs, one an ARG: of its own rows at the cache, and of ATTENDs whose path the
whole work item took (05 R147). -/
def fallbackEvents (g : SegmentRef) (r : Rec) (es : List Ended) (pos : List Nat) : List ColophonEvent :=
  let mine := es.filter (fun e => e.item.rows.any (fun w => w.req == r.reqId))
  let args := (mine.map (fun e => e.fallbacks)).flatten
  ([0, 1].filter (fun a => args.any (fun e => e.2 == a && e.1.all (fun q => q == r.reqId)))).map (fun a => segmentEvent g r 2 a pos [0, 0, 0, 0])

/-- What a request's rows of a segment come to when none of its items failed: a re-run at the next level, or the final values
and their colophon events (04 R116, R119; 14 R376). -/
def segmentRows (g : SegmentRef) (es : List Ended) (m : NumericsSect) (w : RowRef) (r : Rec) : Rec :=
  let pos := ((g.positions.find? (fun e => e.1 == w.req)).map (fun e => e.2)).getD []
  let c := satSums es w.rows
  let exceeds := overThreshold m g.layer c
  let left := r.reruns.filter (fun e => !(e.1 == g.layer && e.2.1 == g.segment && e.2.2 == g.level))
  let again := exceeds && widenOn m g.layer && (g.level == 0 || (g.level == 1 && m.policy == 1))
  if again then { r with reruns := left ++ [(g.layer, g.segment, g.level + 1)] } else
  let data : List Word := [BitVec.ofNat 32 c.1, BitVec.ofNat 32 c.2, 0, 0]
  let widened := if g.level = 0 && !(m.policy == 0 && exceeds) then []
    else [segmentEvent g r 1 (BitVec.ofNat 8 g.level) pos data]
  let r := ldRows g.layer es w.rows pos r
  let wide := r.widened || g.level != 0
  { r with reruns := left, widened := wide, flags := if wide then r.flags ||| 0x20 else r.flags
           stepEvents := r.stepEvents ++ widened ++ fallbackEvents g r es pos }

/-! ### The end of a segment -/

/-- The step of a request is repeated: its rows' output is discarded (09 R246). -/
def redoStep (q : ReqId) (s : State) : State := recUpd q (fun r => { r with redo := true, reruns := [] }) s

/-- A request whose item ended with a failing code: STATE_LOST follows R246, a lost peer and a transient code repeat the step
under the rules of node loss (14 R374; 08 R235), and any other code is a terminal condition (00 R11). -/
def segmentFailed (g : SegmentRef) (q : ReqId) (c : Status) (s : State) : State :=
  match recLive s q with
  | none => s
  | some r =>
    match c with
    | .stateLost =>
      if g.bothLost.contains q || (liveMembers s r).isEmpty then reportEnd q .stateLost (recUpd q (fun r => { r with reruns := [] }) s)
      else redoStep q s
    | .epochStale | .fenced | .tableBusy | .retryLater => redoStep q s
    | c => reportEnd q c (recUpd q (fun r => { r with reruns := [] }) s)

/-- The first failing status of the segment's items that hold rows of request `q`. -/
def failureOf (es : List Ended) (q : ReqId) : Option Status :=
  firstCode ((es.filter (fun e => e.item.rows.any (fun w => w.req == q))).filterMap (fun e =>
    match statusOf e.code with
    | some c => if isSuccess c then none else some c
    | none => none))

/-- A segment has ended: every one of its items has posted its status (04 R115). Work of a partition without NUMERICS has no
rows to judge. -/
def segmentEnd (g : SegmentRef) (s : State) : State :=
  match segmentItems s g with
  | none => s
  | some es =>
    let s := g.clusters.foldl (fun s n => clusterUpd n.toNat (fun x => { x with done := x.done.eraseP (ofSegment g) }) s) s
    match s.forme.committed.bind (fun c => Tab.find c.numerics g.part.toNat) with
    | none => s
    | some m => g.rows.foldl (fun s w =>
        match failureOf es w.req with
        | some c => segmentFailed g w.req c s
        | none => recUpd w.req (segmentRows g es m w) s) s

/-- SEGMENT_END. -/
def execSegmentEnd (g : SegmentRef) (s : State) : Out := .next (segmentEnd g s)

/-! ### Pace windows (03 R93; 14 R368) -/

/-- The rank behind a cluster can be moved: fixed geometry, and a spare that is not slow (14 R368). -/
def spareTakes (s : State) (g : Nat) : Bool :=
  !fullGeom s && s.repro.spare.contains g && !(cluster s (16 * g + sparePos s g)).slow

/-- A window of 65,536 tb, aligned to the time base, is complete: COUNT, VALID and SLOW. A cluster that is slow in four
consecutive windows and stays in place is counted. -/
def paceWindow (n beats : Nat) (s : State) : State :=
  if s.tb / 65536 ≤ (cluster s n).paceAt / 65536 then s else
  let count := min beats 0x3FFFF
  let slow := decide (count ≤ 204472)
  let s := clusterUpd n (fun x => { x with
    paceCount := BitVec.ofNat 18 count, paceValid := true, slow := slow
    slowRun := if slow then x.slowRun + 1 else 0, paceAt := s.tb }) s
  if (cluster s n).slowRun = 4 && hasProgram (cluster s n) && !spareTakes s (n / 16) then
    { s with repro := { s.repro with slow := satInc s.repro.slow } }
  else s

/-- PACE_WINDOW_END. -/
def execPaceWindowEnd (cl : ClusterId) (beats : Nat) (s : State) : Out := .next (paceWindow cl.toNat beats s)

/-! ### The move to the spare (03 R90; 14 R367, R368) -/

/-- The cluster is at WAITWQ, or unbound, with no work item (14 R368). -/
def atRest (x : Cluster) : Bool :=
  x.item.isNone && x.press.isEmpty && x.moving.isNone && (x.wait == .workItem || x.ctx.isNone)

/-- A region checkpoint boundary for the move of the rank on cluster `n`; a FAULTED cluster has stopped (03 R91). -/
def checkpoint (s : State) (n : Nat) : Bool :=
  ((List.range 16).map (fun i => 16 * (n / 16) + i)).all (fun k =>
      let x := cluster s k
      !hasProgram x || atRest x)
    && (s.sched.saves.filter (fun e => e.1 / 64 == n)).all (fun e => e.2.item.isNone)

/-- Entries keyed `cluster × m + i` move from cluster `a` to cluster `b`. -/
def rekeyTab {V : Type} (m a b : Nat) (t : Tab V) : Tab V :=
  t.foldl (fun r e => Tab.put r (if e.1 / m = a then b * m + e.1 % m else e.1) e.2) []

/-- Rank `p` of region `g` moves from cluster `n` to cluster `k`: the spare gets its stream, its counters, its channels with their
counts and the messages present, and what firmware holds for the rank; the old cluster is RETIRED (03 R90). -/
def moveRank (g p n k : Nat) (s : State) : State :=
  let old := cluster s n
  let s := match old.ctx with
    | some c => takeBack n c old s
    | none => s
  let s := { s with
    repro := { s.repro with
      lmap := Tab.put s.repro.lmap (g * 16 + p) (k % 16), spare := s.repro.spare.filter (fun r => r != g), subst := satInc s.repro.subst }
    sched := { s.sched with
      saves := rekeyTab 64 n k s.sched.saves, waiting := rekeyTab 64 n k s.sched.waiting
      rings := s.sched.rings.map (fun e => (e.1, e.2.map (fun m => (if m.1 = n then k else m.1, m.2)))) }
    near := { s.near with returned := rekeyTab 32 n k s.near.returned, received := rekeyTab 32 n k s.near.received }
    maint := { s.maint with claimWait := s.maint.claimWait.filter (fun c => c != n) } }
  let s := match s.forme.committed.bind (fun c => programOf s c k) with
    | some q => clusterUpd k (fun x => { startCluster q x with
        chans := old.chans, mailbox := Mem.clear old.mailbox 0 0x1000
        beats := old.beats, breach := old.breach, ecc := old.ecc, stale := old.stale }) s
    | none => s
  rebind k false (clusterUpd n (fun x => { idleCluster 8 x with state := 8, done := x.done }) s)

/-- Firmware moves a faulted or slow rank at a region checkpoint boundary. -/
def execRankMoveToSpare (region : RegionId) (pos : BitVec 4) (s : State) : Out :=
  let g := region.toNat
  .next (match Tab.find s.repro.lmap (g * 16 + pos.toNat) with
    | some q =>
      let n := 16 * g + q
      let x := cluster s n
      let bad := x.state == 6 || (x.paceValid && decide (4 ≤ x.slowRun) && spareTakes s g)
      if !fullGeom s && s.repro.spare.contains g && bad && checkpoint s n then moveRank g pos.toNat n (16 * g + sparePos s g) s
      else s
    | none => s)

end Sys2Proof.Machine
end

