-- ==== Sys2Proof/Machine/Dispatch.lean ====
section
/-!
DEFINITION. The dispatch of a command to its meaning: one arm per constructor of Instr.
-/

namespace Sys2Proof.Machine

def exec (i : Instr) (s : State) : Host.Outcome State Fault Refusal :=
  match i with
  | .nop cl => Sys2Proof.Machine.execNop cl s
  | .seta cl areg value => Sys2Proof.Machine.execSeta cl areg value s
  | .adda cl areg value => Sys2Proof.Machine.execAdda cl areg value s
  | .loop cl count last => Sys2Proof.Machine.execLoop cl count last s
  | .jump cl target => Sys2Proof.Machine.execJump cl target s
  | .branch cl areg target => Sys2Proof.Machine.execBranch cl areg target s
  | .lda cl areg base offset => Sys2Proof.Machine.execLda cl areg base offset s
  | .waitwq cl => Sys2Proof.Machine.execWaitwq cl s
  | .donewq cl status => Sys2Proof.Machine.execDonewq cl status s
  | .barrier cl id scope => Sys2Proof.Machine.execBarrier cl id scope s
  | .waitch cl areg timeout count credits chan => Sys2Proof.Machine.execWaitch cl areg timeout count credits chan s
  | .live cl id startKib lenKibM1 end_ => Sys2Proof.Machine.execLive cl id startKib lenKibM1 end_ s
  | .load c => Sys2Proof.Machine.execLoad c s
  | .store c => Sys2Proof.Machine.execStore c s
  | .streamArm c => Sys2Proof.Machine.execStreamArm c s
  | .streamStop c => Sys2Proof.Machine.execStreamStop c s
  | .matmul c => Sys2Proof.Machine.execMatmul c s
  | .attend c => Sys2Proof.Machine.execAttend c s
  | .vector c => Sys2Proof.Machine.execVector c s
  | .norm c => Sys2Proof.Machine.execNorm c s
  | .reduce c => Sys2Proof.Machine.execReduce c s
  | .topk c => Sys2Proof.Machine.execTopk c s
  | .send c => Sys2Proof.Machine.execSend c s
  | .recv c => Sys2Proof.Machine.execRecv c s
  | .convert c => Sys2Proof.Machine.execConvert c s
  | .gather c => Sys2Proof.Machine.execGather c s
  | .digest c => Sys2Proof.Machine.execDigest c s
  | .commandComplete cl beats => Sys2Proof.Machine.execCommandComplete cl beats s
  | .workItemPost cl item => Sys2Proof.Machine.execWorkItemPost cl item s
  | .segmentEnd seg => Sys2Proof.Machine.execSegmentEnd seg s
  | .waitchTimeout cl => Sys2Proof.Machine.execWaitchTimeout cl s
  | .regionBarrierRelease region ctx id => Sys2Proof.Machine.execRegionBarrierRelease region ctx id s
  | .dieBarrierRelease part ctx id => Sys2Proof.Machine.execDieBarrierRelease part ctx id s
  | .streamChunkArrival cl stream data => Sys2Proof.Machine.execStreamChunkArrival cl stream data s
  | .clusterFault cl ecc => Sys2Proof.Machine.execClusterFault cl ecc s
  | .paceWindowEnd cl beats => Sys2Proof.Machine.execPaceWindowEnd cl beats s
  | .rankMoveToSpare region pos => Sys2Proof.Machine.execRankMoveToSpare region pos s
  | .channelRearm cl chan => Sys2Proof.Machine.execChannelRearm cl chan s
  | .formeLoad w => Sys2Proof.Machine.execFormeLoad w s
  | .formeImageReadDone r => Sys2Proof.Machine.execFormeImageReadDone r s
  | .plate w => Sys2Proof.Machine.execPlate w s
  | .formeUnload w => Sys2Proof.Machine.execFormeUnload w s
  | .unloadClearDone => Sys2Proof.Machine.execUnloadClearDone s
  | .drain w => Sys2Proof.Machine.execDrain w s
  | .drainComplete => Sys2Proof.Machine.execDrainComplete s
  | .replace w => Sys2Proof.Machine.execReplace w s
  | .formeResume w => Sys2Proof.Machine.execFormeResume w s
  | .clusterClr cl w => Sys2Proof.Machine.execClusterClr cl w s
  | .quiesce cl w => Sys2Proof.Machine.execQuiesce cl w s
  | .tableWrite w partner => Sys2Proof.Machine.execTableWrite w partner s
  | .switch w partner => Sys2Proof.Machine.execSwitch w partner s
  | .codecClr w => Sys2Proof.Machine.execCodecClr w s
  | .quotaWrite w => Sys2Proof.Machine.execQuotaWrite w s
  | .quotaRead w => Sys2Proof.Machine.execQuotaRead w s
  | .t3Bind w => Sys2Proof.Machine.execT3Bind w s
  | .tierClr w => Sys2Proof.Machine.execTierClr w s
  | .t1Scrub outcome => Sys2Proof.Machine.execT1Scrub outcome s
  | .refresh ch intervalNs => Sys2Proof.Machine.execRefresh ch intervalNs s
  | .refreshManagement ch => Sys2Proof.Machine.execRefreshManagement ch s
  | .channelFail ch => Sys2Proof.Machine.execChannelFail ch s
  | .t3Fault req => Sys2Proof.Machine.execT3Fault req s
  | .shelveRetry req => Sys2Proof.Machine.execShelveRetry req s
  | .galleyExpiry req => Sys2Proof.Machine.execGalleyExpiry req s
  | .capsule c => Sys2Proof.Machine.execCapsule c s
  | .admitCapsule c => Sys2Proof.Machine.execAdmitCapsule c s
  | .resumeCapsule c => Sys2Proof.Machine.execResumeCapsule c s
  | .cancelCapsule c => Sys2Proof.Machine.execCancelCapsule c s
  | .sessionEnd c => Sys2Proof.Machine.execSessionEnd c s
  | .sqNop ring entry => Sys2Proof.Machine.execSqNop ring entry s
  | .sessionInit m => Sys2Proof.Machine.execSessionInit m s
  | .sessionFinish m => Sys2Proof.Machine.execSessionFinish m s
  | .sessionTimeout session => Sys2Proof.Machine.execSessionTimeout session s
  | .hostCancel ring entry => Sys2Proof.Machine.execHostCancel ring entry s
  | .shard m => Sys2Proof.Machine.execShard m s
  | .stageAdmission m => Sys2Proof.Machine.execStageAdmission m s
  | .confirmation req src pause => Sys2Proof.Machine.execConfirmation req src pause s
  | .stageRefusal req code => Sys2Proof.Machine.execStageRefusal req code s
  | .append m => Sys2Proof.Machine.execAppend m s
  | .commit h req newLen step rec => Sys2Proof.Machine.execCommit h req newLen step rec s
  | .sealComplete req layer lpage => Sys2Proof.Machine.execSealComplete req layer lpage s
  | .sealDigest h req layer lpage d => Sys2Proof.Machine.execSealDigest h req layer lpage d s
  | .ownerFwd h req word => Sys2Proof.Machine.execOwnerFwd h req word s
  | .mapWrite h req off bytes => Sys2Proof.Machine.execMapWrite h req off bytes s
  | .record h req rec => Sys2Proof.Machine.execRecord h req rec s
  | .drop h req => Sys2Proof.Machine.execDrop h req s
  | .dropReport r => Sys2Proof.Machine.execDropReport r s
  | .page h p => Sys2Proof.Machine.execPage h p s
  | .ckpt h n cursor cursorPage => Sys2Proof.Machine.execCkpt h n cursor cursorPage s
  | .silverSetup h quotas latents => Sys2Proof.Machine.execSilverSetup h quotas latents s
  | .ownerWordCas h req cmp new => Sys2Proof.Machine.execOwnerWordCas h req cmp new s
  | .handoverTimeout req => Sys2Proof.Machine.execHandoverTimeout req s
  | .stepBoundary ends => Sys2Proof.Machine.execStepBoundary ends s
  | .token m => Sys2Proof.Machine.execToken m s
  | .cancellation req => Sys2Proof.Machine.execCancellation req s
  | .retirement req code => Sys2Proof.Machine.execRetirement req code s
  | .cancel w => Sys2Proof.Machine.execCancel w s
  | .pause w => Sys2Proof.Machine.execPause w s
  | .reqClr w => Sys2Proof.Machine.execReqClr w s
  | .moverClr w => Sys2Proof.Machine.execMoverClr w s
  | .pauseHoldExpiry req => Sys2Proof.Machine.execPauseHoldExpiry req s
  | .shelveComplete req => Sys2Proof.Machine.execShelveComplete req s
  | .resumeStage m => Sys2Proof.Machine.execResumeStage m s
  | .recallComplete req tagsOk => Sys2Proof.Machine.execRecallComplete req tagsOk s
  | .copyout req dest => Sys2Proof.Machine.execCopyout req dest s
  | .copyoutComplete req code => Sys2Proof.Machine.execCopyoutComplete req code s
  | .partnerMeet v => Sys2Proof.Machine.execPartnerMeet v s
  | .mirrorAckTimeout slot seq => Sys2Proof.Machine.execMirrorAckTimeout slot seq s
  | .silver w v => Sys2Proof.Machine.execSilver w v s
  | .checkpointRequest => Sys2Proof.Machine.execCheckpointRequest s
  | .ckptAck n => Sys2Proof.Machine.execCkptAck n s
  | .abort w => Sys2Proof.Machine.execAbort w s
  | .mapInstall w => Sys2Proof.Machine.execMapInstall w s
  | .mapRenew w => Sys2Proof.Machine.execMapRenew w s
  | .mapLeaseEnd epoch => Sys2Proof.Machine.execMapLeaseEnd epoch s
  | .suspect w => Sys2Proof.Machine.execSuspect w s
  | .pairClr w => Sys2Proof.Machine.execPairClr w s
  | .renewTimer => Sys2Proof.Machine.execRenewTimer s
  | .grant dev xepoch seq leaseMs => Sys2Proof.Machine.execGrant dev xepoch seq leaseMs s
  | .deny dev seq => Sys2Proof.Machine.execDeny dev seq s
  | .leaseExpiry => Sys2Proof.Machine.execLeaseExpiry s
  | .exclude dev xepoch => Sys2Proof.Machine.execExclude dev xepoch s
  | .admitMsg dev xepoch seq leaseMs table => Sys2Proof.Machine.execAdmitMsg dev xepoch seq leaseMs table s
  | .join dev xepoch => Sys2Proof.Machine.execJoin dev xepoch s
  | .trayLoad h reads => Sys2Proof.Machine.execTrayLoad h reads s
  | .trayStore h data => Sys2Proof.Machine.execTrayStore h data s
  | .trayAppend h a row => Sys2Proof.Machine.execTrayAppend h a row s
  | .chmsg h msg => Sys2Proof.Machine.execChmsg h msg s
  | .credit h count => Sys2Proof.Machine.execCredit h count s
  | .lstate h links role modelDigest => Sys2Proof.Machine.execLstate h links role modelDigest s
  | .resp h payload => Sys2Proof.Machine.execResp h payload s
  | .trayResponseTimeout slot seq => Sys2Proof.Machine.execTrayResponseTimeout slot seq s
  | .trayForward p => Sys2Proof.Machine.execTrayForward p s
  | .nearDisable fn value => Sys2Proof.Machine.execNearDisable fn value s
  | .nearClr w => Sys2Proof.Machine.execNearClr w s
  | .atomicAdd a operand => Sys2Proof.Machine.execAtomicAdd a operand s
  | .atomicMin a operand => Sys2Proof.Machine.execAtomicMin a operand s
  | .atomicMax a operand => Sys2Proof.Machine.execAtomicMax a operand s
  | .atomicCas a cmp new => Sys2Proof.Machine.execAtomicCas a cmp new s
  | .writeWr c => Sys2Proof.Machine.execWriteWr c s
  | .readWr c => Sys2Proof.Machine.execReadWr c s
  | .atomicWr c => Sys2Proof.Machine.execAtomicWr c s
  | .sendWr c => Sys2Proof.Machine.execSendWr c s
  | .pdAlloc c => Sys2Proof.Machine.execPdAlloc c s
  | .pdFree c => Sys2Proof.Machine.execPdFree c s
  | .qpCreate c block => Sys2Proof.Machine.execQpCreate c block s
  | .qpDestroy c => Sys2Proof.Machine.execQpDestroy c s
  | .qpReset c => Sys2Proof.Machine.execQpReset c s
  | .regRegion c => Sys2Proof.Machine.execRegRegion c s
  | .deregRegion c => Sys2Proof.Machine.execDeregRegion c s
  | .mapPages c entries => Sys2Proof.Machine.execMapPages c entries s
  | .writeMsg m => Sys2Proof.Machine.execWriteMsg m s
  | .readReq m => Sys2Proof.Machine.execReadReq m s
  | .readData m => Sys2Proof.Machine.execReadData m s
  | .atomicMsg m => Sys2Proof.Machine.execAtomicMsg m s
  | .sendMsg m => Sys2Proof.Machine.execSendMsg m s
  | .ack m => Sys2Proof.Machine.execAck m s
  | .retransmitTimer id => Sys2Proof.Machine.execRetransmitTimer id s
  | .messageLifetimeEnd id => Sys2Proof.Machine.execMessageLifetimeEnd id s
  | .identifierEntryExpiry src id => Sys2Proof.Machine.execIdentifierEntryExpiry src id s
  | .readTimeout id => Sys2Proof.Machine.execReadTimeout id s
  | .backoffExpiry id => Sys2Proof.Machine.execBackoffExpiry id s
  | .retryLimitExpiry id => Sys2Proof.Machine.execRetryLimitExpiry id s
  | .contextFetchDone qp macOk => Sys2Proof.Machine.execContextFetchDone qp macOk s
  | .pageFaultTimeout rkey page => Sys2Proof.Machine.execPageFaultTimeout rkey page s
  | .qpcBind w => Sys2Proof.Machine.execQpcBind w s
  | .rmaClr w => Sys2Proof.Machine.execRmaClr w s
  | .linkTrainStart link => Sys2Proof.Machine.execLinkTrainStart link s
  | .linkPhaseTimeout link => Sys2Proof.Machine.execLinkPhaseTimeout link s
  | .linkPhaseDone r => Sys2Proof.Machine.execLinkPhaseDone r s
  | .linkDown link cause => Sys2Proof.Machine.execLinkDown link cause s
  | .dataFrame f => Sys2Proof.Machine.execDataFrame f s
  | .idleFrame f => Sys2Proof.Machine.execIdleFrame f s
  | .nakFrame f => Sys2Proof.Machine.execNakFrame f s
  | .keyFrame f p => Sys2Proof.Machine.execKeyFrame f p s
  | .timeFrame f x => Sys2Proof.Machine.execTimeFrame f x s
  | .rekey link => Sys2Proof.Machine.execRekey link s
  | .laserLow fibre power held => Sys2Proof.Machine.execLaserLow fibre power held s
  | .egressDispatch link => Sys2Proof.Machine.execEgressDispatch link s
  | .retrain w => Sys2Proof.Machine.execRetrain w s
  | .linkClr w => Sys2Proof.Machine.execLinkClr w s
  | .linkFarDisable fn value => Sys2Proof.Machine.execLinkFarDisable fn value s
  | .shaperRefillTick => Sys2Proof.Machine.execShaperRefillTick s
  | .shaperCommit w => Sys2Proof.Machine.execShaperCommit w s
  | .telEn w => Sys2Proof.Machine.execTelEn w s
  | .shaperClr w => Sys2Proof.Machine.execShaperClr w s
  | .frameStart => Sys2Proof.Machine.execFrameStart s
  | .slotEnd => Sys2Proof.Machine.execSlotEnd s
  | .effectiveSlotEnd ctx => Sys2Proof.Machine.execEffectiveSlotEnd ctx s
  | .saveComplete cl => Sys2Proof.Machine.execSaveComplete cl s
  | .restoreComplete cl => Sys2Proof.Machine.execRestoreComplete cl s
  | .weightCommit w => Sys2Proof.Machine.execWeightCommit w s
  | .meterDump w => Sys2Proof.Machine.execMeterDump w s
  | .meterSample => Sys2Proof.Machine.execMeterSample s
  | .parkWaits w => Sys2Proof.Machine.execParkWaits w s
  | .schedClr w => Sys2Proof.Machine.execSchedClr w s
  | .timeExchangeTimer => Sys2Proof.Machine.execTimeExchangeTimer s
  | .alignmentLoss => Sys2Proof.Machine.execAlignmentLoss s
  | .arrive dev id inst => Sys2Proof.Machine.execArrive dev id inst s
  | .release id inst tick status => Sys2Proof.Machine.execRelease id inst tick status s
  | .podBarrierReleaseTick id inst => Sys2Proof.Machine.execPodBarrierReleaseTick id inst s
  | .trace w => Sys2Proof.Machine.execTrace w s
  | .reproClr w => Sys2Proof.Machine.execReproClr w s
  | .claim c => Sys2Proof.Machine.execClaim c s
  | .addKey c => Sys2Proof.Machine.execAddKey c s
  | .removeKey c => Sys2Proof.Machine.execRemoveKey c s
  | .advance c => Sys2Proof.Machine.execAdvance c s
  | .debugUnlock c => Sys2Proof.Machine.execDebugUnlock c s
  | .recoveryImage w img => Sys2Proof.Machine.execRecoveryImage w img s
  | .podFetch w => Sys2Proof.Machine.execPodFetch w s
  | .podGenesis w => Sys2Proof.Machine.execPodGenesis w s
  | .tenantUnbind w => Sys2Proof.Machine.execTenantUnbind w s
  | .secClr w => Sys2Proof.Machine.execSecClr w s
  | .reseed => Sys2Proof.Machine.execReseed s
  | .getVersion => Sys2Proof.Machine.execGetVersion s
  | .getCapabilities version => Sys2Proof.Machine.execGetCapabilities version s
  | .negotiateAlgorithms version asymEd25519 hashSha384 => Sys2Proof.Machine.execNegotiateAlgorithms version asymEd25519 hashSha384 s
  | .getDigests => Sys2Proof.Machine.execGetDigests s
  | .getCertificate offset length => Sys2Proof.Machine.execGetCertificate offset length s
  | .challenge nonce => Sys2Proof.Machine.execChallenge nonce s
  | .getMeasurements index signed nonce => Sys2Proof.Machine.execGetMeasurements index signed nonce s
  | .ideKm stream refresh => Sys2Proof.Machine.execIdeKm stream refresh s
  | .ideIntegrityFailure stream fn => Sys2Proof.Machine.execIdeIntegrityFailure stream fn s
  | .lockInterface vf => Sys2Proof.Machine.execLockInterface vf s
  | .dmaFailure t => Sys2Proof.Machine.execDmaFailure t s
  | .enable w => Sys2Proof.Machine.execEnable w s
  | .disable w => Sys2Proof.Machine.execDisable w s
  | .faultEn w => Sys2Proof.Machine.execFaultEn w s
  | .sqDoorbell fn set value => Sys2Proof.Machine.execSqDoorbell fn set value s
  | .qpDoorbell fn value read => Sys2Proof.Machine.execQpDoorbell fn value read s
  | .consumerWrite r value => Sys2Proof.Machine.execConsumerWrite r value s
  | .interruptHoldoffExpiry fn vector => Sys2Proof.Machine.execInterruptHoldoffExpiry fn vector s
  | .flr fn cause => Sys2Proof.Machine.execFlr fn cause s
  | .hotReset => Sys2Proof.Machine.execHotReset s
  | .perst => Sys2Proof.Machine.execPerst s
  | .warm w => Sys2Proof.Machine.execWarm w s
  | .shutdown w => Sys2Proof.Machine.execShutdown w s
  | .maintClr w => Sys2Proof.Machine.execMaintClr w s
  | .selftestSliceEnd failed entries => Sys2Proof.Machine.execSelftestSliceEnd failed entries s
  | .pwrgdAssert b => Sys2Proof.Machine.execPwrgdAssert b s
  | .pwrgdDeassert => Sys2Proof.Machine.execPwrgdDeassert s
  | .ready => Sys2Proof.Machine.execReady s
  | .thermalTrip temp => Sys2Proof.Machine.execThermalTrip temp s
  | .thermalHoldEnd temp => Sys2Proof.Machine.execThermalHoldEnd temp s
  | .watchdog => Sys2Proof.Machine.execWatchdog s
  | .bridge => Sys2Proof.Machine.execBridge s
  | .rankRelease => Sys2Proof.Machine.execRankRelease s
  | .claimGrant => Sys2Proof.Machine.execClaimGrant s
  | .claimRelease cl => Sys2Proof.Machine.execClaimRelease cl s
  | .tmrFix reg copy value => Sys2Proof.Machine.execTmrFix reg copy value s
  | .rcRead fn offset => Sys2Proof.Machine.execRcRead fn offset s
  | .loReadCapture fn offset => Sys2Proof.Machine.execLoReadCapture fn offset s
  | .registerAccessRefused a => Sys2Proof.Machine.execRegisterAccessRefused a s
  | .registerWrite fn offset value => Sys2Proof.Machine.execRegisterWrite fn offset value s
  | .requestNotice sender n c reply => Sys2Proof.Machine.execRequestNotice sender n c reply s
  | .replyNotice cl chan m => Sys2Proof.Machine.execReplyNotice cl chan m s
  | .podKeyTransfer from_ gen ok => Sys2Proof.Machine.execPodKeyTransfer from_ gen ok s
  | .bootFailure => Sys2Proof.Machine.execBootFailure s
  | .pcieLinkUp => Sys2Proof.Machine.execPcieLinkUp s
  | .perstDeassert => Sys2Proof.Machine.execPerstDeassert s
  | .flrComplete fn => Sys2Proof.Machine.execFlrComplete fn s
  | .vfEnable numVfs => Sys2Proof.Machine.execVfEnable numVfs s
  | .d3hotEntry fn => Sys2Proof.Machine.execD3hotEntry fn s
  | .podSendEnable => Sys2Proof.Machine.execPodSendEnable s
  | .secureSessionExchange ok => Sys2Proof.Machine.execSecureSessionExchange ok s

end Sys2Proof.Machine
end

