-- ==== Sys2Proof/Safety.lean ====
section
/-!
DEFINITION. What every run keeps: the three copies of each TMR register agree between commands (17 R444), and every memory
stands in its canonical form; the blocks of a device's state, to say what a command leaves alone; and the terms in which the
statements about tray requests speak (10 R276, R288).
-/

namespace Sys2Proof.Machine

/-- A cluster's memories are in canonical form: case, accumulator and mailbox (03). -/
def Cluster.memOk (c : Cluster) : Bool := Mem.wf c.case_ && Mem.wf c.acc && Mem.wf c.mailbox

/-- The memories of a saved context are in canonical form (13 R347). -/
def Saved.memOk (c : Saved) : Bool := Mem.wf c.case_ && Mem.wf c.acc && Mem.wf c.mailbox

/-- The copies of every TMR register agree (17 R444). -/
def State.tmrOk (s : State) : Bool := s.dev.ident.agree && s.maint.lastReset.agree && s.maint.repair.agree

/-- T1, the store slices, the clusters' memories and the saved ones are in canonical form. -/
def State.memOk (s : State) : Bool :=
  Mem.wf s.tier.t1 && Mem.wf s.tier.slices && s.clusters.all (fun e => e.2.memOk) && s.sched.saves.all (fun e => e.2.memOk)

/-- The blocks of a device's state: the fields of State, the generator's count of draws (15 R391) apart from the rest of SEC. -/
inductive Block where
  | dev | maint | sec | drbg | host | forme | codec | tier | clusters | sched | repro | req | pair | near | rma | links | tb | free
  | out | pending
deriving DecidableEq, Repr

/-- A block is the same in two states. -/
def Block.same (s t : State) : Block → Prop
  | .dev => t.dev = s.dev
  | .maint => t.maint = s.maint
  | .sec => { t.sec with drbg := 0 } = { s.sec with drbg := 0 }
  | .drbg => t.sec.drbg = s.sec.drbg
  | .host => t.host = s.host
  | .forme => t.forme = s.forme
  | .codec => t.codec = s.codec
  | .tier => t.tier = s.tier
  | .clusters => t.clusters = s.clusters
  | .sched => t.sched = s.sched
  | .repro => t.repro = s.repro
  | .req => t.req = s.req
  | .pair => t.pair = s.pair
  | .near => t.near = s.near
  | .rma => t.rma = s.rma
  | .links => t.links = s.links
  | .tb => t.tb = s.tb
  | .free => t.free = s.free
  | .out => t.out = s.out
  | .pending => t.pending = s.pending

/-- From `s` to `t` nothing has changed but blocks among `ps`. -/
def OnlyChanges (ps : List Block) (s t : State) : Prop := ∀ p : Block, ps.contains p = false → p.same s t

/-- From `s` to `t` nothing has changed but cluster `n`. -/
def OnlyCluster (n : Nat) (s t : State) : Prop :=
  OnlyChanges [.clusters] s t ∧ ∀ m : Nat, m ≠ n → cluster t m = cluster s m

/-- A write of the PF to a live block that sets command bit `n` alone of the block's command bits (17 R441, R442). -/
def Commands (w : CtlWrite) (early : Bool) (cmds : List Nat) (n : Nat) (s : State) : Prop :=
  pfLive s w.fn early = true ∧ ctlCommands w cmds = [n]

/-- A press command that passes every check of 03 R74 and whose lines are there and read whole: its descriptor, and what it
does. -/
def pressRun (op : POp) (c : PressCmd) (s : State) : Option (Desc × Run) :=
  let n := c.cl.toNat
  let v := viewOf n s
  let p := (partOfRegion s (n / 16)).getD 0
  if !canIssue s n || decide (4 ≤ (cluster s n).press.length) then none else
  match issueCheck op c v with
  | .inl _ => none
  | .inr (d, beats) =>
    match fetchAll v n p (op.fetched d) c.remote with
    | .error _ => none
    | .ok (gs, left, reads, _) =>
      if d.maxBeats < beats + slugBeats op d (op.pages v p d) (gs.map (fun g => g.raw.length / 2048)) beats then none else
      match op.run { v := v, n := n, p := p, flags := c.flags, d := d, remote := left } gs with
      | .run r => if rangesOutcome s p (reads ++ r.reads ++ mergeRanges (writtenRanges r.effs)) c.reads = .good then some (d, r) else none
      | _ => none

/-- From `s` to `t` a press command has left FETCH (03 R70, R89): it is last in the press with its MAX_BEATS and the effects of
its run, none of which has taken place; LAST_OP, the index and the chain are its own; the case, the accumulator, the mailbox,
T1, the slices and every other cluster are as before. -/
def Entered (op : POp) (c : PressCmd) (d : Desc) (r : Run) (s t : State) : Prop :=
  let n := c.cl.toNat
  let x := cluster s n
  let y := cluster t n
  (∃ f : InFlight, y.press = x.press ++ [f] ∧ f.index = x.pc ∧ f.opcode = op.opcode ∧ f.flags = c.flags
    ∧ f.maxBeats = d.maxBeats ∧ ∀ e ∈ r.effs, e ∈ f.effs) ∧
  y.lastOp = op.opcode ∧ y.state = 2 ∧ y.pc = (nextIndex x.loops x.pc).1 ∧ y.chain = flChain c.flags ∧
  y.case_ = x.case_ ∧ y.acc = x.acc ∧ y.mailbox = x.mailbox ∧ y.live = x.live ∧ y.streams = x.streams ∧
  t.tier.t1 = s.tier.t1 ∧ t.tier.slices = s.tier.slices ∧ (∀ m, m ≠ n → cluster t m = cluster s m)

/-- The blocks that a command may change. -/
def mayChange (c : Instr) : List Block :=
  match c with
  | .nop .. | .seta .. | .adda .. | .loop .. | .jump .. | .branch .. | .clusterClr .. | .quiesce .. => [.clusters]
  | .lda .. => [.clusters, .free]
  | .waitwq .. | .workItemPost .. | .frameStart | .slotEnd => [.maint, .clusters, .sched, .req]
  | .donewq .. => [.maint, .clusters]
  | .barrier .. | .podBarrierReleaseTick .. => [.clusters, .sched, .repro, .req, .rma, .links, .out]
  | .waitch .. | .restoreComplete .. => [.dev, .maint, .clusters, .sched, .req, .rma, .links, .out]
  | .live .. | .clusterFault .. => [.dev, .maint, .clusters, .req, .rma, .links, .out]
  | .load .. | .store .. | .streamArm .. | .streamStop .. | .matmul .. | .attend .. | .vector .. | .norm .. | .reduce ..
  | .topk .. | .send .. | .recv .. | .convert .. | .gather .. | .digest .. | .streamChunkArrival .. | .commit ..
  | .sealDigest .. | .ownerFwd .. | .mapWrite .. | .record .. | .drop .. | .page .. | .ckpt .. | .silverSetup ..
  | .ownerWordCas .. | .join .. | .trayLoad .. | .trayStore .. | .trayAppend .. | .chmsg .. | .resp .. | .atomicAdd ..
  | .atomicMin .. | .atomicMax .. | .atomicCas .. | .requestNotice .. =>
    [.dev, .maint, .forme, .codec, .tier, .clusters, .sched, .req, .pair, .near, .rma, .links, .free, .out]
  | .commandComplete .. =>
    [.dev, .maint, .forme, .codec, .tier, .clusters, .sched, .repro, .req, .pair, .near, .rma, .links, .out]
  | .segmentEnd .. => [.clusters, .req, .rma, .links, .out]
  | .waitchTimeout .. | .regionBarrierRelease .. | .dieBarrierRelease .. | .effectiveSlotEnd .. | .saveComplete .. =>
    [.clusters, .sched, .req]
  | .paceWindowEnd .. | .trace .. | .reproClr .. => [.clusters, .repro]
  | .rankMoveToSpare .. => [.maint, .clusters, .sched, .repro, .req, .near]
  | .channelRearm .. => [.clusters, .near, .rma]
  | .formeLoad .. | .plate .. | .replace .. | .formeResume .. => [.dev, .forme, .out]
  | .formeImageReadDone .. =>
    [.dev, .maint, .sec, .drbg, .forme, .codec, .tier, .clusters, .sched, .repro, .pair, .rma, .links, .free, .out]
  | .formeUnload .. => [.dev, .sec, .forme, .tier, .pair, .out]
  | .unloadClearDone => [.dev, .maint, .sec, .forme, .codec, .tier, .clusters, .sched, .repro, .req, .pair, .out]
  | .drain .. => [.dev, .forme, .tier, .req, .out]
  | .drainComplete => [.dev, .forme, .tier, .clusters, .sched, .out]
  | .tableWrite .. | .switch .. | .codecClr .. => [.codec]
  | .quotaWrite .. | .quotaRead .. | .t3Bind .. | .tierClr .. | .refreshManagement .. => [.tier]
  | .t1Scrub .. | .channelFail .. | .stepBoundary .. | .perst | .warm .. | .pwrgdAssert .. | .pwrgdDeassert
  | .thermalHoldEnd .. | .watchdog | .bridge =>
    [.dev, .maint, .sec, .drbg, .host, .forme, .codec, .tier, .clusters, .sched, .repro, .req, .pair, .near, .rma, .links,
     .tb, .free, .out]
  | .refresh .. => [.tier, .free]
  | .t3Fault .. | .abort .. => [.dev, .codec, .tier, .req, .pair, .near, .rma, .links, .free, .out]
  | .shelveRetry .. => [.tier, .req, .near, .links]
  | .galleyExpiry .. | .pauseHoldExpiry .. => [.tier, .req]
  | .capsule .. | .admitCapsule .. => [.dev, .sec, .host, .req, .rma, .links, .free, .out]
  | .resumeCapsule .. | .cancelCapsule .. | .sessionEnd .. => [.dev, .sec, .host, .req, .rma, .links, .out]
  | .sqNop .. | .lockInterface .. | .interruptHoldoffExpiry .. => [.host, .out]
  | .sessionInit .. => [.dev, .sec, .drbg, .host, .free, .out]
  | .sessionFinish .. => [.sec, .host, .out]
  | .sessionTimeout .. | .recoveryImage .. | .tenantUnbind .. | .secClr .. => [.sec]
  | .hostCancel .. => [.host, .req, .rma, .links, .out]
  | .shard .. => [.host, .repro, .rma, .links, .free, .out]
  | .stageAdmission .. => [.tier, .req, .rma, .links, .free, .out]
  | .confirmation .. => [.dev, .sec, .host, .repro, .req, .rma, .links, .out]
  | .stageRefusal .. => [.host, .codec, .tier, .req, .rma, .links, .out]
  | .append .. | .copyout .. => [.dev, .maint, .forme, .codec, .tier, .sched, .req, .pair, .rma, .links, .out]
  | .sealComplete .. | .shelveComplete .. =>
    [.dev, .maint, .forme, .codec, .tier, .sched, .req, .pair, .near, .rma, .links, .free, .out]
  | .dropReport .. => [.dev, .sec, .host, .repro, .req, .out]
  | .handoverTimeout .. => [.req, .near, .links]
  | .token .. => [.sec, .host, .req, .rma, .links, .out]
  | .cancellation .. | .retirement .. | .resumeStage .. | .copyoutComplete .. =>
    [.codec, .tier, .req, .pair, .near, .rma, .links, .free, .out]
  | .cancel .. | .pause .. => [.req, .rma, .links, .out]
  | .reqClr .. | .moverClr .. => [.req]
  | .recallComplete .. => [.codec, .tier, .sched, .req, .pair, .near, .rma, .links, .free, .out]
  | .partnerMeet .. =>
    [.dev, .maint, .sec, .drbg, .forme, .codec, .tier, .sched, .req, .pair, .near, .rma, .links, .free, .out]
  | .mirrorAckTimeout .. => [.dev, .pair, .near, .links]
  | .silver .. | .ckptAck .. => [.dev, .maint, .forme, .codec, .tier, .sched, .req, .pair, .near, .rma, .links, .out]
  | .checkpointRequest => [.pair, .near, .links]
  | .mapInstall .. | .mapRenew .. | .mapLeaseEnd .. | .pairClr .. | .grant .. => [.pair]
  | .suspect .. | .renewTimer => [.pair, .links]
  | .deny .. | .leaseExpiry => [.dev, .maint, .codec, .tier, .clusters, .sched, .req, .pair, .near, .rma, .links, .free, .out]
  | .exclude .. | .writeMsg .. | .readReq .. | .readData .. | .atomicMsg .. | .sendMsg .. | .contextFetchDone .. =>
    [.dev, .maint, .sec, .host, .forme, .codec, .tier, .clusters, .sched, .repro, .req, .pair, .near, .rma, .links, .free,
     .out]
  | .admitMsg .. =>
    [.dev, .maint, .sec, .host, .codec, .tier, .clusters, .sched, .repro, .req, .pair, .near, .rma, .links, .free, .out]
  | .credit .. | .replyNotice .. => [.dev, .maint, .clusters, .sched, .req, .near, .rma, .links, .out]
  | .lstate .. | .trayForward .. | .nearDisable .. => [.near, .links]
  | .trayResponseTimeout .. => [.dev, .near, .links]
  | .nearClr .. => [.near]
  | .writeWr .. | .readWr .. | .atomicWr .. | .sendWr .. =>
    [.dev, .maint, .host, .forme, .codec, .tier, .clusters, .sched, .req, .pair, .rma, .links, .free, .out]
  | .pdAlloc .. | .pdFree .. | .qpCreate .. | .qpDestroy .. | .qpReset .. | .regRegion .. | .deregRegion ..
  | .qpDoorbell .. => [.dev, .maint, .clusters, .sched, .req, .rma, .links, .free, .out]
  | .mapPages .. =>
    [.dev, .maint, .host, .forme, .codec, .tier, .clusters, .sched, .repro, .req, .pair, .rma, .links, .free, .out]
  | .ack .. | .messageLifetimeEnd .. | .retryLimitExpiry .. =>
    [.dev, .maint, .sec, .host, .clusters, .sched, .repro, .req, .rma, .links, .free, .out]
  | .retransmitTimer .. => [.rma, .links]
  | .identifierEntryExpiry .. | .qpcBind .. | .rmaClr .. => [.rma]
  | .readTimeout .. | .pageFaultTimeout .. => [.dev, .maint, .clusters, .sched, .repro, .req, .rma, .links, .free, .out]
  | .backoffExpiry .. => [.repro, .rma, .links]
  | .linkTrainStart .. | .linkPhaseTimeout .. | .linkClr .. | .linkFarDisable .. | .shaperCommit .. | .telEn ..
  | .shaperClr .. => [.links]
  | .linkPhaseDone .. => [.dev, .repro, .near, .rma, .links, .out]
  | .linkDown .. | .laserLow .. | .retrain .. => [.dev, .near, .rma, .links]
  | .dataFrame .. | .idleFrame .. | .nakFrame .. => [.dev, .links, .out]
  | .keyFrame .. => [.dev, .sec, .repro, .rma, .links, .out]
  | .timeFrame .. => [.dev, .repro, .links, .tb, .out]
  | .rekey .. | .shaperRefillTick => [.links, .out]
  | .egressDispatch .. => [.sched, .near, .rma, .links, .out]
  | .weightCommit .. | .meterDump .. | .parkWaits .. | .schedClr .. => [.sched]
  | .meterSample => [.sched, .out]
  | .timeExchangeTimer => [.repro, .links]
  | .alignmentLoss => [.dev, .repro]
  | .arrive .. => [.repro, .rma, .links, .out]
  | .release .. => [.dev, .maint, .clusters, .sched, .repro, .req, .rma, .links, .out]
  | .claim .. | .addKey .. | .removeKey .. | .advance .. | .debugUnlock .. => [.dev, .sec]
  | .podFetch .. => [.sec, .rma, .links]
  | .podGenesis .. => [.sec, .drbg, .repro, .rma, .links, .free, .out]
  | .reseed => [.drbg]
  | .getVersion | .getCapabilities .. | .negotiateAlgorithms .. | .secureSessionExchange .. => [.sec, .out]
  | .getDigests | .getCertificate .. | .challenge .. | .getMeasurements .. => [.out]
  | .ideKm .. | .pcieLinkUp | .d3hotEntry .. => [.host]
  | .ideIntegrityFailure .. | .flr .. | .hotReset => [.host, .clusters, .sched, .repro, .req, .rma, .links, .out]
  | .dmaFailure .. =>
    [.dev, .maint, .sec, .drbg, .host, .forme, .codec, .tier, .clusters, .sched, .repro, .req, .pair, .near, .rma, .links,
     .free, .out]
  | .enable .. | .disable .. | .faultEn .. | .consumerWrite .. | .flrComplete .. | .vfEnable .. => [.host, .rma, .out]
  | .sqDoorbell .. => [.dev, .host, .free]
  | .shutdown .. => [.maint, .sec, .forme, .codec, .tier, .clusters, .sched, .repro, .req, .pair]
  | .maintClr .. | .perstDeassert => [.maint]
  | .selftestSliceEnd .. | .thermalTrip .. => [.dev, .maint, .tier, .clusters, .free, .out]
  | .ready => [.dev, .maint, .rma, .out]
  | .rankRelease | .claimGrant => [.maint, .clusters, .free]
  | .claimRelease .. => [.maint, .free]
  | .tmrFix .. => [.dev, .maint]
  | .rcRead .. => [.dev, .maint, .clusters, .out]
  | .loReadCapture .. | .registerAccessRefused .. => [.dev, .out]
  | .registerWrite .. =>
    [.dev, .sec, .host, .forme, .codec, .tier, .clusters, .sched, .repro, .req, .pair, .rma, .links, .out]
  | .podKeyTransfer .. => [.sec, .repro, .rma, .links, .out]
  | .bootFailure => [.maint, .sec]
  | .podSendEnable => [.sec, .repro, .rma, .links]







/-- What the home keeps for a request's source once it has taken the request that is next in order (10 R288). -/
def tookRequest (r : TrayReq) (s : State) : State :=
  traySrcUpd (srcDev (reqHdr r)) (fun x => { x with
    expect := (x.expect + 1) % 2 ^ 32, running := x.running ++ [x.expect] }) s

/-- A request that its home takes at once (10 R276, R288): the home is live, the source is not excluded and speaks in its epoch, the
request is the next one in order and none waits for its turn behind it. -/
def InTurn (r : TrayReq) (s : State) : Prop :=
  let h := reqHdr r
  let x := traySrc s (srcDev h)
  fenced s = false ∧ excluded s (srcDev h) = false ∧ exclEpoch s (srcDev h) = h.xepoch ∧ x.xepoch = h.xepoch
    ∧ h.seq.toNat = x.expect ∧ x.reorder = [] ∧ x.expect ∉ x.running ∧ ∀ e ∈ x.executed, e.1 ≠ x.expect

/-- A request of another device is in the record of executed requests with its code and the first 16 bytes of its result, and
the next one is expected (10 R288). -/
def Answered (r : TrayReq) (c : Status) (b : List Byte) (s t : State) : Prop :=
  let h := reqHdr r
  srcDev h ≠ (myDev s).toNat → (h.seq.toNat, c, b.take 16) ∈ (traySrc t (srcDev h)).executed
    ∧ (traySrc t (srcDev h)).expect = ((traySrc s (srcDev h)).expect + 1) % 2 ^ 32

/-- The layer's ATTEND as an accepted request notice runs it (05 R141): it passes every check of 03 R74, and its lines are there and
read whole. Its descriptor, and what it does. -/
def noticeRun (m : NoticeMsg) (c : PressCmd) (s : State) : Option (Desc × Run) :=
  let n := c.cl.toNat
  let p := (partOfRegion s (n / 16)).getD 0
  let v := viewOf n s
  let op := opAttend .good
  match (descAt (cluster v n) c.areg c.offset).map (fun d => noticeDesc d m) with
  | none => none
  | some d =>
    if !(attParams d).galley || (attParams d).layer ≠ m.layer.toNat then none else
    match descCheck op v n p c.flags d with
    | .inl _ => none
    | .inr beats =>
      match fetchAll v n p (op.fetched d) c.remote with
      | .error _ => none
      | .ok (gs, left, reads, _) =>
        if d.maxBeats < beats + slugBeats op d (op.pages v p d) (gs.map (fun g => g.raw.length / 2048)) beats then none else
        match op.run { v := v, n := n, p := p, flags := c.flags, d := d, remote := left } gs with
        | .run r => if rangesOutcome s p (reads ++ r.reads ++ mergeRanges (writtenRanges r.effs)) c.reads = .good then some (d, r) else none
        | _ => none

end Sys2Proof.Machine
end

