-- ==== Sys2Proof/Certificates/Slice0/Obligations.lean ====
section
/-!
DEFINITION. The statements about the block, for the provers.
-/

open Sys2Proof Sys2Proof.Machine

/-- For every command c and every state, a step of the state with c at the front of its queue is exec of c on the state with
the rest of the queue: the model's own rule for its queue. (17 R442) -/
def Obligations.StepRunsFront : Prop :=
  ∀ (c : Instr) (rest : List Instr) (s : State), step { s with pending := c :: rest } = exec c { s with pending := rest }

/-- On a cluster that can issue a command, NOP changes nothing but the index; SETA sets its address register to VALUE; ADDA
adds VALUE to it modulo 2^32; JUMP sets the next index to TARGET; BRANCH does so exactly when its register is 0. Each
leaves LAST_OP, STATE RUN and the next index in that cluster, and nothing else of the device changes. (03 Control
commands, R72) -/
def Obligations.ControlCommandsMoveOn : Prop :=
  ∀ (cl : ClusterId) (a : BitVec 4) (v : Word) (target : BitVec 14) (s : State), canIssue s cl.toNat = true →
    let x := cluster s cl.toNat
    let moved (op : Byte) : Cluster :=
      { x with lastOp := op, state := 2, pc := (nextIndex x.loops x.pc).1, loops := (nextIndex x.loops x.pc).2 }
    (∃ t, exec (.nop cl) s = .next t ∧ cluster t cl.toNat = moved 0x00 ∧ OnlyCluster cl.toNat s t) ∧
    (∃ t, exec (.seta cl a v) s = .next t ∧ cluster t cl.toNat = { moved 0x01 with aregs := Tab.put x.aregs a.toNat v }
      ∧ OnlyCluster cl.toNat s t) ∧
    (∃ t, exec (.adda cl a v) s = .next t
      ∧ cluster t cl.toNat = { moved 0x02 with aregs := Tab.put x.aregs a.toNat (areg x a.toNat + v) }
      ∧ OnlyCluster cl.toNat s t) ∧
    (∃ t, exec (.jump cl target) s = .next t
      ∧ cluster t cl.toNat = { x with lastOp := 0x04, state := 2, pc := target.toNat } ∧ OnlyCluster cl.toNat s t) ∧
    (∃ t, exec (.branch cl a target) s = .next t
      ∧ cluster t cl.toNat =
          (if areg x a.toNat = 0 then { x with lastOp := 0x0B, state := 2, pc := target.toNat } else moved 0x0B)
      ∧ OnlyCluster cl.toNat s t)

/-- On a cluster that can issue: LOOP with a COUNT other than 0 and fewer than four open loops opens a loop of the commands
from the next index to END, or, where END lies before the next index, opens none (the model's reading, log entry 75); LDA
sets its register to the mailbox word at BASE + OFFSET where that sum is a word of the mailbox, and elsewhere to some
value, which the model leaves free; LIVE opens a range that overlaps no open range or ring (the rings as the commands in
the press leave them), whose ID is free and which lies in the case, and LIVE end closes its ID. Nothing else of the device changes but the free-value counter. (03 Control
commands, R73, R78) -/
def Obligations.LoopLdaLiveTakeEffect : Prop :=
  ∀ (cl : ClusterId) (s : State), canIssue s cl.toNat = true →
    let n := cl.toNat
    let x := cluster s n
    let moved (op : Byte) : Cluster :=
      { x with lastOp := op, state := 2, pc := (nextIndex x.loops x.pc).1, loops := (nextIndex x.loops x.pc).2 }
    (∀ (count : BitVec 16) (last : BitVec 14), count ≠ 0 → x.loops.length < 4 →
      ∃ t, exec (.loop cl count last) s = .next t ∧ OnlyCluster n s t ∧ cluster t n =
        (if last.toNat < (moved 0x03).pc then moved 0x03
         else { moved 0x03 with loops := ((moved 0x03).pc, last.toNat, count.toNat) :: (moved 0x03).loops })) ∧
    (∀ (a b : BitVec 4) (off : Word), let addr := (areg x b.toNat + off).toNat
      if addr / 65536 = 0x100 ∧ addr % 4 = 0 then
        ∃ t, exec (.lda cl a b off) s = .next t ∧ OnlyCluster n s t
          ∧ cluster t n = { moved 0x0C with aregs := Tab.put x.aregs a.toNat (Mem.word (mailSeen x) (addr % 65536)) }
      else
        ∃ t w, exec (.lda cl a b off) s = .next t ∧ OnlyChanges [.clusters, .free] s t
          ∧ cluster t n = { moved 0x0C with aregs := Tab.put x.aregs a.toNat w }) ∧
    (∀ (id : BitVec 5) (k m : BitVec 11), let r := (k.toNat * 1024, (m.toNat + 1) * 1024)
      r.1 + r.2 ≤ 2 ^ 21 → (Tab.find x.live id.toNat).isNone = true →
      (∀ e ∈ x.live, r.1 + r.2 ≤ e.2.1 ∨ e.2.1 + e.2.2 ≤ r.1) →
      (∀ e ∈ streamsSeen x, r.1 + r.2 ≤ e.2.ringStart ∨ e.2.ringStart + e.2.ringLen ≤ r.1) →
      ∃ t, exec (.live cl id k m false) s = .next t ∧ OnlyCluster n s t
        ∧ cluster t n = { moved 0x09 with live := Tab.put x.live id.toNat r }) ∧
    (∀ (id : BitVec 5) (k m : BitVec 11), ∃ t, exec (.live cl id k m true) s = .next t ∧ OnlyCluster n s t
        ∧ cluster t n = { moved 0x09 with live := Tab.del x.live id.toNat })

/-- On a cluster that can issue and whose press is empty, WAITCH on a channel of its direction, with a COUNT from 1 to 64 that
the channel's slots can reach: on a broken channel its register reads 0 and the stream goes on; where the credits or
messages are there already it reads 1 and the stream goes on; otherwise the compositor waits, until its timeout where
TIMEOUT is not 0. LAST_OP names it; no other cluster changes; and at an outcome at once no other block does. (03 Control
commands, R84, R87) -/
def Obligations.WaitchOutcomes : Prop :=
  ∀ (cl : ClusterId) (a : BitVec 4) (timeout : BitVec 20) (count : Byte) (credits : Bool) (ch : BitVec 5) (s : State) (k : Chan),
    canIssue s cl.toNat = true → (cluster s cl.toNat).press = [] → count ≠ 0 → count.toNat ≤ 64 →
    channel s cl.toNat ch.toNat = some k → k.entry.send = credits → count.toNat ≤ k.entry.slots →
    let x := cluster s cl.toNat
    let moved : Cluster := { x with
      lastOp := 0x08, state := 2, pc := (nextIndex x.loops x.pc).1, loops := (nextIndex x.loops x.pc).2, wait := .none }
    let has := if credits then k.credits else k.queue.length
    ∃ t, exec (.waitch cl a timeout count credits ch) s = .next t ∧ (∀ m, m ≠ cl.toNat → cluster t m = cluster s m) ∧
      (if k.broken.isSome then
        OnlyChanges [.clusters] s t ∧ cluster t cl.toNat = { moved with aregs := Tab.put x.aregs a.toNat 0 }
      else if count.toNat ≤ has then
        OnlyChanges [.clusters] s t ∧ cluster t cl.toNat = { moved with aregs := Tab.put x.aregs a.toNat 1 }
      else
        OnlyChanges [.clusters, .sched, .req] s t ∧ (cluster t cl.toNat).lastOp = 0x08
          ∧ (cluster t cl.toNat).aregs = x.aregs ∧ (cluster t cl.toNat).pc = moved.pc
          ∧ (cluster t cl.toNat).wait =
              .channel a ch.toNat count.toNat credits (if timeout = 0 then none else some (s.tb + 64 * timeout.toNat)))

/-- On a cluster that can issue and whose press is empty. WAITWQ with no work item posted or waiting waits for one, and ends
the item in progress with status OK if it has not been ended; DONEWQ with a status of *Status codes* ends the item with
that status and goes on; BARRIER of scope 0 to 2 enters its cluster among the arrivals of the instance its context, SCOPE
and ID name, and waits. WAITWQ and DONEWQ end every open chain, live range and stream ring. LAST_OP names each command,
and no other cluster changes. (03 Control commands, R69, R72) -/
def Obligations.WorkQueueCommands : Prop :=
  ∀ (cl : ClusterId) (s : State), canIssue s cl.toNat = true → (cluster s cl.toNat).press = [] →
    let n := cl.toNat
    let x := cluster s n
    let ended (c : Byte) : List Ended := match x.item with
      | some i => x.done ++ [{ item := i, code := c, sat := x.sat, dig := x.dig, fallbacks := x.fallbacks }]
      | none => x.done
    (x.wqItems = [] → (∀ c, x.ctx = some c → Tab.getD s.sched.waiting (n * 64 + c) [] = []) →
      ∃ t, exec (.waitwq cl) s = .next t ∧ (cluster t n).wait = .workItem ∧ (cluster t n).lastOp = 0x05
        ∧ (cluster t n).item = none ∧ (cluster t n).done = ended 0x00 ∧ (cluster t n).chain = false
        ∧ (cluster t n).live = [] ∧ (cluster t n).streams = [] ∧ (∀ m, m ≠ n → cluster t m = cluster s m)) ∧
    (∀ c : Byte, (statusOf c).isSome = true →
      ∃ t, exec (.donewq cl c) s = .next t ∧ OnlyChanges [.maint, .clusters] s t ∧ (∀ m, m ≠ n → cluster t m = cluster s m)
        ∧ cluster t n = { x with
            lastOp := 0x06, state := 2, pc := (nextIndex x.loops x.pc).1, loops := (nextIndex x.loops x.pc).2
            chain := false, live := [], streams := [], item := none, done := ended c }) ∧
    (∀ (id : Byte) (scope : BitVec 2), scope ≠ 3 →
      ∃ t, exec (.barrier cl id scope) s = .next t ∧ (cluster t n).wait = .barrier id scope ∧ (cluster t n).lastOp = 0x07
        ∧ (scope ≠ 2 → t.sched.arrivals =
              Tab.upd s.sched.arrivals ((x.ctx.getD 0) * 1024 + scope.toNat * 256 + id.toNat) [] (fun l => l ++ [n])
            ∧ OnlyChanges [.clusters, .sched, .req] s t ∧ (∀ m, m ≠ n → cluster t m = cluster s m)))

/-- With no command waiting and no correction of the counter left, a step advances the time base by one tick and, outside a
governed stop, changes nothing else: the model's choice of log entry 1. In a governed stop, once 16 tb have passed since the
last step of the ramp, it takes the next one: the claim of the lowest physical index ends, then one port die's step at a time
(the order is the model's, log entry 178), and the stop ends when none is left, where a shutdown's answer is given; the
estimates of the current are read anew and are free. A reset that waits for the stop follows its end: a warm one with KIND warm
and its CAUSE, a cold one with KIND cold and nothing of the forme left. (01 R37, 01 R38, 18 R457, 18 R460, 18 R466) -/
def Obligations.IdleStepIsTick : Prop :=
  ∀ s : State, s.pending = [] → s.repro.slewLeft = 0 →
    let u : State := { s with tb := s.tb + 1 }
    let noReset : Prop := ∀ (c : Nat) (cold fatal : Bool), s.maint.after ≠ .reset c cold fatal
    ((s.maint.ballast = false → noReset) → (s.maint.ballast = false ∨ stepFree u = false) → step s = .next u) ∧
    (s.maint.ballast = true → stepFree u = true → (s.maint.claims ≠ [] ∨ s.maint.portSteps ≠ 0 ∨ noReset) →
      ∃ t, step s = .next t ∧ t.tb = s.tb + 1 ∧ OnlyChanges [.maint, .tb, .free] s t ∧ t.maint.after = s.maint.after ∧
      (∀ k ∈ s.maint.claims, (∀ n ∈ s.maint.claims, k ≤ n) → t.maint.claims = s.maint.claims.filter (fun n => n != k)
        ∧ t.maint.lastStep = some (s.tb + 1) ∧ t.maint.ballast = true ∧ t.maint.portSteps = s.maint.portSteps) ∧
      (s.maint.claims = [] → s.maint.portSteps ≠ 0 → t.maint.portSteps = s.maint.portSteps - 1
        ∧ t.maint.lastStep = some (s.tb + 1) ∧ t.maint.ballast = true) ∧
      (s.maint.claims = [] → s.maint.portSteps = 0 → t.maint.ballast = false ∧ t.maint.stops = satInc s.maint.stops
        ∧ (s.maint.after = .powerOff → t.maint.shutdownDone = true ∧ t.maint.busy = false ∧ t.maint.code = 0x00)
        ∧ (s.maint.after ≠ .powerOff → t.maint.shutdownDone = s.maint.shutdownDone ∧ t.maint.busy = s.maint.busy
            ∧ t.maint.code = s.maint.code))) ∧
    (s.maint.ballast = true → stepFree u = true → s.maint.claims = [] → s.maint.portSteps = 0 →
      ∀ (c : Nat) (cold fatal : Bool), s.maint.after = .reset c cold fatal → ∃ t, step s = .next t ∧ t.maint.after = .none
        ∧ t.dev.ready = false ∧ t.maint.ballast = false
        ∧ (cold = false → t.maint.lastReset = Tmr.all (BitVec.ofNat 32 (0x20 + c)) ∧ t.maint.stops = satInc s.maint.stops
            ∧ t.maint.phase = 0 ∧ t.tb = s.tb + 1)
        ∧ (cold = true → t.maint.lastReset = Tmr.all (BitVec.ofNat 32 (0x10 + c)) ∧ t.forme = {} ∧ t.clusters = []))

/-- After a power-on cold reset: the last reset is KIND cold with CAUSE power-on; PHASE is START and READY is clear; no forme
is loaded and STATE is EMPTY; no error has been captured; PARK_WAITS is set and REPRO_POD_LEAD is 3,125; every cluster is
OFF; no command waits. (13 R360, 14 R386, 17 R447, 17 R450, 18 R458, 02 R62) -/
def Obligations.ResetState : Prop :=
  State.reset.maint.lastReset.maj = 0x11 ∧ State.reset.maint.phase = 0 ∧ State.reset.dev.ready = false
    ∧ State.reset.forme.state = 0 ∧ State.reset.forme.committed = none ∧ State.reset.dev.err = 0 ∧ State.reset.dev.firstErr = 0
    ∧ State.reset.sched.parkWaits = true ∧ State.reset.repro.podLead = 3125
    ∧ (∀ n, (cluster State.reset n).state = 0) ∧ State.reset.pending = []

/-- At reset the three copies of every TMR register agree and every memory stands in its canonical form. (17 R444, 18 R461) -/
def Obligations.ResetKeepsInvariants : Prop :=
  State.reset.tmrOk = true ∧ State.reset.memOk = true

/-- From every state in which the three copies of DEV_IDENT, MAINT_LAST_RESET and MAINT_REPAIR agree, any step that answers a
next state leaves them in agreement: a copy that differs is corrected by the command that finds it. (17 R444) -/
def Obligations.StepKeepsTmr : Prop :=
  ∀ s t : State, s.tmrOk = true → step s = .next t → t.tmrOk = true

/-- From every state whose T1, store slices, cluster memories and saved memories are in canonical form, addresses rising and
no byte listed that an unlisted one reads as, any step that answers a next state leaves them so: equal memories are equal
data. (07 R182, 07 R186, 03 R67, 03 R79, 13 R347) -/
def Obligations.StepKeepsMemory : Prop :=
  ∀ s t : State, s.memOk = true → step s = .next t → t.memOk = true

/-- A step that answers a next state leaves the queue without its first command and otherwise as it was; no command adds to
it: the model's own rule for its queue. (17 R442) -/
def Obligations.StepDrainsQueue : Prop :=
  ∀ s t : State, step s = .next t → t.pending = s.pending.tail

/-- For every command, a next state differs from the state before in no block of the device but those that the command may
change; the table mayChange lists them, command by command: the device registers, maintenance, security, host interface,
forme, codec, memory tiers, clusters, scheduler, repeatability, requests, pair, near links, remote access, far links, time
base, free-value counter, emissions and queue. (01 R31, 17 R445) -/
def Obligations.CommandFrames : Prop :=
  ∀ (c : Instr) (s t : State), exec c s = .next t → OnlyChanges (mayChange c) s t

/-- No command is refused, and a command faults only as an invalid command word: a LOOP whose COUNT is 0 or that would be a
fifth nested loop, a DONEWQ whose STATUS is not a status code, a BARRIER of scope 0b11 or a WAITCH whose COUNT is not 1 to
64. On each of these operands it does fault. (03 R73, 03 Control commands) -/
def Obligations.StopsOnlyOnInvalidWords : Prop :=
  (∀ (c : Instr) (s : State), ∀ r, exec c s ≠ .refused r) ∧
  (∀ (c : Instr) (s : State), ∀ f, exec c s = .fault f → f = .invalidCommandWord ∧
    ((∃ cl count last, c = .loop cl count last ∧ (count = 0 ∨ 4 ≤ (cluster s cl.toNat).loops.length)) ∨
     (∃ cl st, c = .donewq cl st ∧ statusOf st = none) ∨ (∃ cl id, c = .barrier cl id 3) ∨
     (∃ cl a tm count k ch, c = .waitch cl a tm count k ch ∧ (count = 0 ∨ 64 < count.toNat)))) ∧
  (∀ cl last s, exec (.loop cl 0 last) s = .fault .invalidCommandWord) ∧
  (∀ cl count last s, canIssue s cl.toNat = true → 4 ≤ (cluster s cl.toNat).loops.length →
    exec (.loop cl count last) s = .fault .invalidCommandWord) ∧
  (∀ cl st s, statusOf st = none → exec (.donewq cl st) s = .fault .invalidCommandWord) ∧
  (∀ cl id s, exec (.barrier cl id 3) s = .fault .invalidCommandWord) ∧
  (∀ cl a tm count k ch s, (count = 0 ∨ 64 < count.toNat) → exec (.waitch cl a tm count k ch) s = .fault .invalidCommandWord)

/-- A WRITE, READ_REQ, READ_DATA, ATOMIC or SEND message that reaches a device in service when its time base is at or past
FIRST_TB + 80,000 changes nothing but RMA_EXPIRED, which counts it and saturates; nothing is answered. (R305) -/
def Obligations.MessageLifetimeEndsForReceiver : Prop :=
  ∀ (m : PodMsg) (s : State), fenced s = false → m.hdr.firstTb.toNat + 80000 ≤ s.tb →
    let t : State := { s with rma := { s.rma with expired := if s.rma.expired = BitVec.allOnes 32 then s.rma.expired else s.rma.expired + 1 } }
    (m.hdr.type = 1 → exec (.writeMsg m) s = .next t) ∧ (m.hdr.type = 2 → exec (.readReq m) s = .next t) ∧
    (m.hdr.type = 3 → exec (.readData m) s = .next t) ∧ (m.hdr.type = 4 → exec (.atomicMsg m) s = .next t) ∧
    (m.hdr.type = 5 → exec (.sendMsg m) s = .next t)

/-- When a window of 65,536 tb, aligned to the time base, has ended since the cluster's last one, PACE_WINDOW_END records the
window's pace-replica beats in CLUSTER_PACE.COUNT, saturating at 0x3_FFFF, sets VALID, and sets SLOW exactly when COUNT is
204,472 or less; no other cluster changes, and of the other blocks at most REPRO. Where no window has ended it changes
nothing. (R93) -/
def Obligations.PaceWindow : Prop :=
  ∀ (cl : ClusterId) (beats : Nat) (s : State),
    (if s.tb / 65536 ≤ (cluster s cl.toNat).paceAt / 65536 then exec (.paceWindowEnd cl beats) s = .next s
     else ∃ t, exec (.paceWindowEnd cl beats) s = .next t
      ∧ (cluster t cl.toNat).paceCount.toNat = (if beats ≤ 0x3FFFF then beats else 0x3FFFF)
      ∧ ((cluster t cl.toNat).slow = true ↔ (cluster t cl.toNat).paceCount.toNat ≤ 204472)
      ∧ (cluster t cl.toNat).paceValid = true ∧ (cluster t cl.toNat).paceAt = s.tb
      ∧ (∀ m, m ≠ cl.toNat → cluster t m = cluster s m) ∧ OnlyChanges [.clusters, .repro] s t)

/-- LOAD, STORE, STREAM arm and STREAM stop whose descriptor passes every check, whose lines are in bounds and permitted,
whose data are there and read without error, leave FETCH: the command is last in the press with its opcode, flags,
MAX_BEATS and effects; LAST_OP, the next index and the chain are its own; the cluster's memories, T1, the slices and every
other cluster are as before, since effects take place at completion. (03 R70, 03 R74, 03 R80, 03 Descriptors) -/
def Obligations.DataMovesEnterThePress : Prop :=
  ∀ (c : PressCmd) (s : State), c.reads = .good →
    (∀ d r, pressRun opLoad c s = some (d, r) → ∃ t, exec (.load c) s = .next t ∧ Entered opLoad c d r s t
      ∧ (cluster t c.cl.toNat).lastOp = 0x20) ∧
    (∀ d r, pressRun opStore c s = some (d, r) → ∃ t, exec (.store c) s = .next t ∧ Entered opStore c d r s t
      ∧ (cluster t c.cl.toNat).lastOp = 0x21) ∧
    (∀ d r, pressRun opStreamArm c s = some (d, r) → ∃ t, exec (.streamArm c) s = .next t ∧ Entered opStreamArm c d r s t
      ∧ (cluster t c.cl.toNat).lastOp = 0x22) ∧
    (∀ d r, pressRun opStreamStop c s = some (d, r) → ∃ t, exec (.streamStop c) s = .next t ∧ Entered opStreamStop c d r s t
      ∧ (cluster t c.cl.toNat).lastOp = 0x22)

/-- The engine commands, under the conditions that LOAD enters the press under, leave FETCH as it does: last in the press with
their opcode, flags, MAX_BEATS and effects, none of which has taken place. (03 R70, 03 R74, 03 R76, 03 R77, 03 Press
opcodes) -/
def Obligations.EngineCommandsEnterThePress : Prop :=
  ∀ (c : PressCmd) (s : State), c.reads = .good →
    (∀ d r, pressRun opMatmul c s = some (d, r) → ∃ t, exec (.matmul c) s = .next t ∧ Entered opMatmul c d r s t
      ∧ (cluster t c.cl.toNat).lastOp = 0x30) ∧
    (∀ d r, pressRun opVector c s = some (d, r) → ∃ t, exec (.vector c) s = .next t ∧ Entered opVector c d r s t
      ∧ (cluster t c.cl.toNat).lastOp = 0x40) ∧
    (∀ d r, pressRun opNorm c s = some (d, r) → ∃ t, exec (.norm c) s = .next t ∧ Entered opNorm c d r s t
      ∧ (cluster t c.cl.toNat).lastOp = 0x41) ∧
    (∀ d r, pressRun opReduce c s = some (d, r) → ∃ t, exec (.reduce c) s = .next t ∧ Entered opReduce c d r s t
      ∧ (cluster t c.cl.toNat).lastOp = 0x48) ∧
    (∀ d r, pressRun opTopk c s = some (d, r) → ∃ t, exec (.topk c) s = .next t ∧ Entered opTopk c d r s t
      ∧ (cluster t c.cl.toNat).lastOp = 0x49) ∧
    (∀ d r, pressRun opConvert c s = some (d, r) → ∃ t, exec (.convert c) s = .next t ∧ Entered opConvert c d r s t
      ∧ (cluster t c.cl.toNat).lastOp = 0x58) ∧
    (∀ d r, pressRun opGather c s = some (d, r) → ∃ t, exec (.gather c) s = .next t ∧ Entered opGather c d r s t
      ∧ (cluster t c.cl.toNat).lastOp = 0x60) ∧
    (∀ d r, pressRun opDigest c s = some (d, r) → ∃ t, exec (.digest c) s = .next t ∧ Entered opDigest c d r s t
      ∧ (cluster t c.cl.toNat).lastOp = 0x68)

/-- SEND enters the press and takes the credits of its messages at once; RECV does on a channel without TAG_CHECK, its message
leaving the channel at completion; ATTEND does as the engine commands do. Each under the conditions that LOAD enters the
press under. (03 R74, 03 R83, 03 R84, 03 R86, 05 R121) -/
def Obligations.ChannelAndAttendCommandsEnterThePress : Prop :=
  ∀ (c : PressCmd) (s : State), c.reads = .good →
    (∀ d r, pressRun opSend c s = some (d, r) → ∃ t, exec (.send c) s = .next t ∧ Entered opSend c d r s t
      ∧ (cluster t c.cl.toNat).lastOp = 0x50
      ∧ ∀ ch m, r.credits = some (ch, m) → ∀ k, channel s c.cl.toNat ch = some k →
          channel t c.cl.toNat ch = some { k with credits := k.credits - m }) ∧
    (∀ d r, (∀ e ∈ (cluster s c.cl.toNat).chans, e.2.entry.tagCheck = false) → pressRun opRecv c s = some (d, r) →
      ∃ t, exec (.recv c) s = .next t ∧ Entered opRecv c d r s t ∧ (cluster t c.cl.toNat).lastOp = 0x51) ∧
    (∀ d r, pressRun (opAttend .good) c s = some (d, r) →
      ∃ t, exec (.attend c) s = .next t ∧ Entered (opAttend .good) c d r s t ∧ (cluster t c.cl.toNat).lastOp = 0x38)

/-- When the oldest command of a press leaves EMIT after some beats, and its effects are writes of the cluster's own case,
accumulator and mailbox, then those three memories hold the writes, in order; the command leaves the press and the others
stay; the beats are added to CLUSTER_BEATS and to the item's; beats beyond MAX_BEATS are added to CLUSTER_BREACH, which
saturates, and set the CLUSTER bit of DEV_ERR; EVENT posts one event; no other cluster changes. (03 R70, 03 R89, 04 R114) -/
def Obligations.CompletionAppliesEffects : Prop :=
  ∀ (cl : ClusterId) (beats : Nat) (s : State) (i : InFlight) (rest : List InFlight),
    let n := cl.toNat
    let x := cluster s n
    x.press = i :: rest →
    (∀ e ∈ i.effs, e = .accZ ∨ (∃ o bs, e = .caseW o bs ∨ e = .accW o bs ∨ e = .mailW o bs) ∨ e = .meter 0 0 0) →
    ∃ t, exec (.commandComplete cl beats) s = .next t ∧
      let y := cluster t n
      let m := cluster (i.effs.foldl (applyMem n) s) n
      y.case_ = m.case_ ∧ y.acc = m.acc ∧ y.mailbox = m.mailbox ∧ y.press = rest ∧
      y.beats = x.beats + BitVec.ofNat 64 beats ∧ y.itemBeats = x.itemBeats + beats ∧
      y.breach = (if i.maxBeats < beats then satAdd x.breach (beats - i.maxBeats) else x.breach) ∧
      y.events = (if flEvent i.flags then x.events + 1 else x.events) ∧
      (i.maxBeats < beats → bit t.dev.err 12 = true) ∧ y.pc = x.pc ∧ y.aregs = x.aregs ∧
      (∀ k, k ≠ n → cluster t k = cluster s k)

/-- On a TIER block that is not BUSY. QUOTA_WRITE gives the selected tenant the limits of TIER_T1_LIMIT and TIER_T3_LIMIT and
keeps its use; both limits 0 remove the entry of a tenant that holds nothing; with the table full of other tenants CODE is
QUOTA. QUOTA_READ loads the tenant's limits and use with CODE OK, zeros with CODE DENIED where it has no entry. T3_BIND
answers MALFORMED for a misaligned address, then FORME_MISMATCH for a partition the forme lacks, then DENIED where a frame
of its area is SHELVED, and otherwise binds the area. CLR clears TIER_T3_ERR and the LPC counters. Other tenants, other
partitions and every other block stay as they were. (07 R194, 07 R202, 07 R205, 17 R442) -/
def Obligations.TierCommands : Prop :=
  ∀ (w : CtlWrite) (s : State), s.tier.busy = false →
    let k := s.tier.tenant.toNat
    let l1 := s.tier.t1Limit.toNat
    let l3 := s.tier.t3Limit.toNat
    (Commands w false [0, 1, 2, 3] 0 s → ∃ t, exec (.quotaWrite w) s = .next t ∧ OnlyChanges [.tier] s t
      ∧ (∀ j, j ≠ k → Tab.find t.tier.quotas j = Tab.find s.tier.quotas j)
      ∧ (∀ q, Tab.find s.tier.quotas k = some q →
          t.tier.code = 0x00 ∧ Tab.find t.tier.quotas k =
            (if l1 = 0 ∧ l3 = 0 ∧ q.t1Used = 0 ∧ q.t3Used = 0 then none else some { q with t1Limit := l1, t3Limit := l3 }))
      ∧ (Tab.find s.tier.quotas k = none → (l1 ≠ 0 ∨ l3 ≠ 0) →
          if 4096 ≤ s.tier.quotas.length then t.tier.code = codeOf .quota ∧ Tab.find t.tier.quotas k = none
          else t.tier.code = 0x00 ∧ Tab.find t.tier.quotas k = some { t1Limit := l1, t3Limit := l3, t1Used := 0, t3Used := 0 })) ∧
    (Commands w false [0, 1, 2, 3] 1 s → ∃ t, exec (.quotaRead w) s = .next t ∧ OnlyChanges [.tier] s t
      ∧ t.tier.quotas = s.tier.quotas
      ∧ match Tab.find s.tier.quotas k with
        | some q => t.tier.code = 0x00 ∧ t.tier.t1Limit = BitVec.ofNat 32 q.t1Limit ∧ t.tier.t3Limit = BitVec.ofNat 32 q.t3Limit
            ∧ t.tier.t1Used = BitVec.ofNat 32 q.t1Used ∧ t.tier.t3Used = BitVec.ofNat 32 q.t3Used
        | none => t.tier.code = codeOf .denied ∧ t.tier.t1Limit = 0 ∧ t.tier.t3Limit = 0 ∧ t.tier.t1Used = 0
            ∧ t.tier.t3Used = 0) ∧
    (Commands w false [0, 1, 2, 3] 2 s →
      let data : DWord := s.tier.t3DataHi ++ s.tier.t3DataLo
      let tag : DWord := s.tier.t3TagHi ++ s.tier.t3TagLo
      let p := s.tier.t3Part.toNat
      ∃ t, exec (.t3Bind w) s = .next t ∧ OnlyChanges [.tier] s t
        ∧ (∀ j, j ≠ p → Tab.find t.tier.t3 j = Tab.find s.tier.t3 j)
        ∧ if data.toNat % 65536 ≠ 0 ∨ tag.toNat % 4096 ≠ 0 then t.tier.code = codeOf .malformed ∧ t.tier.t3 = s.tier.t3
          else if partition s p = none then t.tier.code = codeOf .formeMismatch ∧ t.tier.t3 = s.tier.t3
          else if ∃ a, Tab.find s.tier.t3 p = some a ∧ a.frames ≠ [] then t.tier.code = codeOf .denied ∧ t.tier.t3 = s.tier.t3
          else t.tier.code = 0x00 ∧ Tab.find t.tier.t3 p = some { data := data, tag := tag, frames := [] }) ∧
    (Commands w false [0, 1, 2, 3] 3 s → ∃ t, exec (.tierClr w) s = .next t ∧ OnlyChanges [.tier] s t ∧ t.tier.code = 0x00
      ∧ t.tier.t3Err = 0 ∧ t.tier.retired = s.tier.retired ∧ t.tier.quotas = s.tier.quotas
      ∧ ∀ e ∈ t.tier.lpc, e.2.ce = 0 ∧ e.2.ue = 0 ∧ e.2.macErr = 0 ∧ e.2.rfm = 0 ∧ e.2.rd = 0 ∧ e.2.wr = 0)

/-- On a CODEC block that is not BUSY. TABLE_WRITE whose checks pass, on a table that is no LATENT_TABLE or on a device that
is no cache node, stores the staged lengths and the format in the selected slot of every partition that declares the
table, marks it VALID and moves its VERSION on by one, with CODE OK; a check that fails gives its code and changes no
slot. SWITCH whose checks pass makes the selected slot the partition's active one; a check that fails gives MALFORMED. On
the LATENT_TABLE of a paired cache node both apply only where the partner answers OK, and answer DEGRADED when DEGRADED
(log entry 69). A change of it that was issued at the partner is applied here where neither member's check fails, with the
partner's slot and lengths, and completes here too, with the partner's code, else this member's (log entry 69). CLR clears the four counters and no table. (06 R166, 06 R168, 06 R169, 17 R442) -/
def Obligations.CodecCommands : Prop :=
  ∀ (w : CtlWrite) (a : PairAnswer) (s : State), s.codec.busy = false →
    let pairOk := !(isLatent s (selTable s) && roleOf s == 3) || s.pair.state == 3 || a.code == .ok
    let okCode : Byte := if isLatent s (selTable s) && roleOf s == 3 && s.pair.state == 3 then codeOf .degraded else 0x00
    (∀ k : CodecAsk, a.ask = some k → isLatent s k.table = true → roleOf s = 3 →
      let code (own : Status) : Byte := if a.code = .ok then codeOf own else codeOf a.code
      (∃ t, exec (.tableWrite w a) s = .next t ∧ OnlyChanges [.codec] s t
        ∧ t.codec = { s.codec with slots := t.codec.slots, code := code (writeCheckOf k s) } ∧
        if writeCheckOf k s = .ok ∧ a.code = .ok then ∀ d, declares s k.table = [d] →
          let i := slotKey d.1 k.table k.slotB
          Tab.getD t.codec.slots i {} = { Tab.getD s.codec.slots i {} with
              valid := true, version := (Tab.getD s.codec.slots i {}).version + 1, format := BitVec.ofNat 8 k.format
              lengths := k.lengths }
            ∧ ∀ j, j ≠ i → Tab.getD t.codec.slots j {} = Tab.getD s.codec.slots j {}
        else t.codec.slots = s.codec.slots) ∧
      exec (.switch w a) s = .next { s with codec := { s.codec with
        code := code (switchCheckOf k s)
        active := if switchCheckOf k s = .ok ∧ a.code = .ok then Tab.put s.codec.active k.part k.slotB else s.codec.active } }) ∧
    (a.ask = none → Commands w false [0, 1, 2] 0 s → ∃ t, exec (.tableWrite w a) s = .next t ∧ OnlyChanges [.codec] s t
      ∧ t.codec.active = s.codec.active
      ∧ (writeCheck s ≠ .ok → t.codec.slots = s.codec.slots ∧ t.codec.code = codeOf (writeCheck s))
      ∧ (writeCheck s = .ok → pairOk = true → t.codec.code = okCode ∧
          (∀ d, declares s (selTable s) = [d] →
            let k := slotKey d.1 (selTable s) (selSlot s)
            let old := Tab.getD s.codec.slots k {}
            (Tab.getD t.codec.slots k {}).valid = true ∧ (Tab.getD t.codec.slots k {}).version = old.version + 1
              ∧ (Tab.getD t.codec.slots k {}).lengths = stagedLengths s ∧ (Tab.getD t.codec.slots k {}).refs = old.refs
              ∧ ∀ j, j ≠ k → Tab.getD t.codec.slots j {} = Tab.getD s.codec.slots j {}))
      ∧ (writeCheck s = .ok → pairOk = false → t.codec.code = codeOf a.code ∧ t.codec.slots = s.codec.slots)) ∧
    (a.ask = none → Commands w false [0, 1, 2] 1 s → ∃ t, exec (.switch w a) s = .next t ∧ OnlyChanges [.codec] s t
      ∧ t.codec.slots = s.codec.slots
      ∧ (switchCheck s ≠ .ok → t.codec.active = s.codec.active ∧ t.codec.code = codeOf .malformed)
      ∧ (switchCheck s = .ok → pairOk = true → t.codec.code = okCode ∧ Tab.find t.codec.active (selPart s) = some (selSlot s)
          ∧ ∀ p, p ≠ selPart s → Tab.find t.codec.active p = Tab.find s.codec.active p)) ∧
    (Commands w false [0, 1, 2] 2 s → exec (.codecClr w) s =
      .next { s with codec := { s.codec with code := 0x00, crcErr := 0, decodeErr := 0, raw := 0, seals := 0 } })

/-- A CLR that the PF writes to a live block that is not BUSY (of SHAPER, whose commit is not pending) clears the counters its register table names, applies the
settings written with it and answers CODE OK where the block has a CODE: REQ, MOVER, PAIR, NEAR, RMA, LINK, SHAPER, SCHED,
REPRO (whose TRACE setting comes first), SEC (in NORMAL boot) and MAINT, and CLUSTER, whose QUIESCE setting comes first
and whose other clusters stay as they were. Nothing else in the device changes. (17 R441, 17 R442, 08 R238, 08 R239, 09
R265, 11 R321, 12 R339, 13 R360, 14 R386, 15 R410) -/
def Obligations.ClearCommands : Prop :=
  ∀ (w : CtlWrite) (s : State),
    (Commands w false [0, 1, 2] 2 s → s.req.busy = false → exec (.reqClr w) s = .next { s with req := { s.req with
      code := 0x00, reprefill := 0, lost := 0, specAcc := 0, specRej := 0 } }) ∧
    (Commands w false [0] 0 s → exec (.moverClr w) s = .next { s with req := { s.req with
      appends := 0, dups := 0, seals := 0, commits := 0, handoverCount := 0, shelves := 0, recalls := 0, drops := 0,
      copyoutCount := 0, digestErr := 0 } }) ∧
    (Commands w false [0, 1, 2, 3, 4, 5] 5 s → s.pair.busy = false → exec (.pairClr w) s =
      .next { s with pair := { s.pair with code := 0x00, held := 0, silvers := 0, lost := 0 } }) ∧
    (Commands w false [0] 0 s → exec (.nearClr w) s = .next { s with near := { s.near with
      timeout := 0, resent := 0, dups := 0, stale := 0, denied := 0, fwd := 0, atomicHw := 0, retry := 0 } }) ∧
    (Commands w false [0, 1] 1 s → s.rma.busy = false → exec (.rmaClr w) s = .next { s with rma := { s.rma with
      code := 0x00, tx := 0, retx := 0, dups := 0, expired := 0, rlSent := 0, rlRecv := 0, qpcMiss := 0, faults := 0,
      qpErr := 0, unacked := 0, stale := 0 } }) ∧
    (Commands w false [5, 6] 6 s → ∃ t, exec (.linkClr w) s = .next t ∧ OnlyChanges [.links] s t
      ∧ (∀ i : Nat, i < 5 → t.links.sel.toNat.testBit i = ctlSetting w i (s.links.sel.toNat.testBit i))
      ∧ ∀ n : Nat, Tab.find t.links.links n = (Tab.find s.links.links n).map (fun l => { l with
          fecCorr := 0, fecUnc := 0, replay := 0, authErr := 0, downs := 0, rekeys := 0 })) ∧
    (Commands w false [0, 1] 1 s → s.links.pending = none → exec (.shaperClr w) s = .next { s with links := { s.links with
      code := 0x00, telEn := ctlSetting w 2 s.links.telEn,
      telA := { s.links.telA with drop := 0 }, telB := { s.links.telB with drop := 0 } } }) ∧
    (Commands w false [0, 1, 2] 2 s → s.sched.busy = false → ∃ t, exec (.schedClr w) s = .next t ∧ OnlyChanges [.sched] s t
      ∧ t.sched.code = 0x00 ∧ t.sched.parkWaits = ctlSetting w 3 s.sched.parkWaits
      ∧ ∀ c : Nat, Tab.find t.sched.ctxs c = (Tab.find s.sched.ctxs c).map (fun x => { x with
          overruns := 0, parks := 0, debtDrop := 0 })) ∧
    (Commands w false [0] 0 s → ∃ t, exec (.reproClr w) s = .next t ∧ OnlyChanges [.clusters, .repro] s t
      ∧ (s.repro.trace = true → t.clusters = s.clusters) ∧ t.repro = { s.repro with
          trace := t.repro.trace, late := 0, barriers := 0, barrierFail := 0, slow := 0, subst := 0, claimsWon := 0, claimsLost := 0,
          colophons := 0, evLost := 0, traceDrop := 0 }) ∧
    (Commands w true [0, 1, 2, 3, 4] 4 s → s.sec.busy = false → s.sec.boot = 1 → exec (.secClr w) s =
      .next { s with sec := { s.sec with code := 0x00, authFail := 0, msgAuthFail := 0 } }) ∧
    (Commands w true [0, 1, 2] 2 s → s.maint.busy = false → exec (.maintClr w) s =
      .next { s with maint := { s.maint with code := 0x00, imonPeak := 0, slope := 0 } }) ∧
    (∀ cl : ClusterId, Commands w false [0] 0 s → ∃ t, exec (.clusterClr cl w) s = .next t ∧ OnlyCluster cl.toNat s t
      ∧ (cluster t cl.toNat).beats = 0 ∧ (cluster t cl.toNat).breach = 0 ∧ (cluster t cl.toNat).ecc = 0
      ∧ (cluster t cl.toNat).stale = 0 ∧ (cluster t cl.toNat).quiesce = ctlSetting w 1 (cluster s cl.toNat).quiesce
      ∧ (cluster t cl.toNat).press = (cluster s cl.toNat).press)

/-- A write without a command bit takes effect whether or not the block is BUSY: the setting holds the bit written under its
mask and keeps its value where the mask is clear, and the block's CODE and everything else stay; TRACE sets only where the
trace ring can serve, and the counts of work items then start anew; FAULT_EN sets only where the registers of the fault
ring are in range, with MALFORMED otherwise, and the records that waited are then posted and counted in RMA_FAULTS. (17 R441, 17 R442, 13 R360, 12 R339, 14 R386, 16 R428, 16 R435) -/
def Obligations.SettingsTakeTheirWrite : Prop :=
  ∀ (w : CtlWrite) (s : State),
    (∀ cl : ClusterId, pfLive s w.fn false = true → ctlCommands w [0] = [] → ∃ t, exec (.quiesce cl w) s = .next t
      ∧ OnlyCluster cl.toNat s t ∧ (cluster t cl.toNat).quiesce = ctlSetting w 1 (cluster s cl.toNat).quiesce
      ∧ (ctlSetting w 1 (cluster s cl.toNat).quiesce = true → (cluster t cl.toNat).item = (cluster s cl.toNat).item
          ∧ (cluster t cl.toNat).wqCons = (cluster s cl.toNat).wqCons)) ∧
    (pfLive s w.fn false = true → ctlCommands w [0] = [] → ∃ t, exec (.trace w) s = .next t ∧ OnlyChanges [.clusters, .repro] s t
      ∧ t.repro = { s.repro with trace := ctlSetting w 1 s.repro.trace && (s.repro.trace || traceReady s) }
      ∧ (s.repro.trace = false → t.repro.trace = true → ∀ n x, Tab.find t.clusters n = some x → x.traceItems = 0)) ∧
    (pfLive s w.fn false = true → ctlCommands w [0, 1, 2] = [] → exec (.parkWaits w) s =
      .next { s with sched := { s.sched with parkWaits := ctlSetting w 3 s.sched.parkWaits } }) ∧
    (pfLive s w.fn false = true → ctlCommands w [0, 1] = [] → exec (.telEn w) s =
      .next { s with links := { s.links with telEn := ctlSetting w 2 s.links.telEn } }) ∧
    (answers s w.fn = true → s.dev.ready = true → ctlCommands w [0, 1] = [] →
      let h := fnHost s w.fn
      let on := ctlSetting w 2 h.faultEn
      ∃ t, exec (.faultEn w) s = .next t ∧ OnlyChanges [.host, .rma, .out] s t ∧ t.rma = { s.rma with faults := t.rma.faults }
        ∧ (on = true → h.faultEn = false → (h.faultLo.toNat % 4096 ≠ 0 ∨ field h.faultSize.toNat 4 0 < 6 ∨ 16 < field h.faultSize.toNat 4 0) →
            (fnHost t w.fn).faultEn = false ∧ (fnHost t w.fn).code = codeOf .malformed)
        ∧ (on = h.faultEn ∨ on = false → (fnHost t w.fn).faultEn = on ∧ (fnHost t w.fn).code = h.code)
        ∧ (on = true → h.faultEn = false → h.faultWait = [] → h.faultLo.toNat % 4096 = 0 → 6 ≤ field h.faultSize.toNat 4 0 →
            field h.faultSize.toNat 4 0 ≤ 16 → (fnHost t w.fn).faultEn = true ∧ (fnHost t w.fn).code = 0x00
            ∧ (fnHost t w.fn).faultProd = 0 ∧ (fnHost t w.fn).faultCons = 0))

/-- Through every command register of the PF (rows of FORME, SCHED, REQ, PAIR, TIER, RMA, CODEC, SEC and MAINT, one of each
block): a write of two command bits sets CODE to MALFORMED and starts nothing, one command bit while the block is BUSY
(SHAPER: while a commit is PENDING) sets CODE to RETRY_LATER, a write with a mask of zero changes nothing, and a write through a virtual function changes
nothing; settings written with a refused command keep their values. (17 R441, 17 R442, 17 R445, 17 R446) -/
def Obligations.ControlProtocol : Prop :=
  ∀ (w : CtlWrite) (a : PairAnswer) (v : PartnerView) (img : FwImage) (s : State), a.ask = none →
    (s.dev.ready = true → answers s w.fn = true → w.fn = 0 →
      (2 ≤ (ctlCommands w [0, 1, 2]).length →
        exec (.weightCommit w) s = .next { s with sched := { s.sched with code := codeOf .malformed } }
        ∧ exec (.cancel w) s = .next { s with req := { s.req with code := codeOf .malformed } }
        ∧ exec (.tableWrite w a) s = .next { s with codec := { s.codec with code := codeOf .malformed } }
        ∧ exec (.warm w) s = .next { s with maint := { s.maint with code := codeOf .malformed } }) ∧
      (2 ≤ (ctlCommands w [0, 1, 2, 3]).length →
        exec (.t3Bind w) s = .next { s with tier := { s.tier with code := codeOf .malformed } }) ∧
      (2 ≤ (ctlCommands w [0, 1, 2, 3, 4]).length →
        exec (.podGenesis w) s = .next { s with sec := { s.sec with code := codeOf .malformed } }
        ∧ exec (.recoveryImage w img) s = .next { s with sec := { s.sec with code := codeOf .malformed } }) ∧
      (2 ≤ (ctlCommands w [0, 1, 2, 3, 4, 5]).length →
        exec (.silver w v) s = .next { s with pair := { s.pair with code := codeOf .malformed } }) ∧
      (2 ≤ (ctlCommands w [0, 1]).length →
        exec (.qpcBind w) s = .next { s with rma := { s.rma with code := codeOf .malformed } }
        ∧ exec (.shaperCommit w) s = .next { s with links := { s.links with code := codeOf .malformed } }) ∧
      (ctlCommands w [0, 1, 2] = [1] → s.sched.busy = true →
        exec (.meterDump w) s = .next { s with sched := { s.sched with code := codeOf .retryLater } }) ∧
      (ctlCommands w [0, 1, 2, 3] = [2] → s.tier.busy = true →
        exec (.t3Bind w) s = .next { s with tier := { s.tier with code := codeOf .retryLater } }) ∧
      (ctlCommands w [0, 1, 2, 3, 4] = [2] → s.sec.busy = true →
        exec (.podGenesis w) s = .next { s with sec := { s.sec with code := codeOf .retryLater } }) ∧
      (ctlCommands w [0, 1, 2, 3, 4, 5] = [0] → s.pair.busy = true →
        exec (.silver w v) s = .next { s with pair := { s.pair with code := codeOf .retryLater } }) ∧
      (s.links.pending.isSome = true →
        (ctlCommands w [0, 1] = [0] → exec (.shaperCommit w) s = .next { s with links := { s.links with code := codeOf .retryLater } }) ∧
        (ctlCommands w [0, 1] = [1] → exec (.shaperClr w) s = .next { s with links := { s.links with code := codeOf .retryLater } }))) ∧
    ((w.value.toNat / 65536 = 0 ∨ w.fn ≠ 0) →
      exec (.weightCommit w) s = .next s ∧ exec (.cancel w) s = .next s ∧ exec (.tableWrite w a) s = .next s
      ∧ exec (.warm w) s = .next s ∧ exec (.t3Bind w) s = .next s ∧ exec (.podGenesis w) s = .next s
      ∧ exec (.silver w v) s = .next s ∧ exec (.qpcBind w) s = .next s ∧ exec (.shaperCommit w) s = .next s
      ∧ exec (.formeLoad w) s = .next s)

/-- On a PAIR block that is not BUSY. MAP_INSTALL first drops the draining maps that R257 lets go; a staged map in which every
slot is absent is MALFORMED, one that gives this device another role than its forme is FORME_MISMATCH, one whose MAP_EPOCH
is not serially newer than the current epoch is EPOCH_STALE, a fifth map is RETRY_LATER, and a map that passes every check
becomes the one current map with a lease of MAP_LEASE ms from now, while every other map drains. MAP_RENEW without a
current map is DENIED; otherwise the current map's lease ends MAP_LEASE ms from now and the others keep theirs.
MAP_LEASE_END removes exactly the maps that are not current, whose lease has ended and whose drain count is zero. (09
R254, 09 R255, 09 R257, 09 R265, 17 R442) -/
def Obligations.MapCommands : Prop :=
  ∀ (w : CtlWrite) (e : Word) (s : State), s.pair.busy = false →
    let u := mapPrune s
    (Commands w false [0, 1, 2, 3, 4, 5] 2 s → ∃ t, exec (.mapInstall w) s = .next t ∧ OnlyChanges [.pair] s t ∧
      (if ∀ d : Nat, d < 16 → stagedRole s d = 0 then t.pair.code = codeOf .malformed ∧ t.pair.maps = u.pair.maps
       else if stagedRole s (mySlot s).toNat ≠ roleOf s then t.pair.code = codeOf .formeMismatch ∧ t.pair.maps = u.pair.maps
       else if pairingBroken s = true then t.pair.code = codeOf .formeMismatch ∧ t.pair.maps = u.pair.maps
       else if ∃ c, mapCurrent u = some c ∧ newer 32 s.pair.mapEpoch.toNat c.epoch.toNat = false then
         t.pair.code = codeOf .epochStale ∧ t.pair.maps = u.pair.maps
       else if 4 ≤ u.pair.maps.length then t.pair.code = codeOf .retryLater ∧ t.pair.maps = u.pair.maps
       else t.pair.code = 0x00 ∧ (∀ m ∈ t.pair.maps, m.current = true →
           m = { epoch := s.pair.mapEpoch, roles := (List.range 16).map (stagedRole s),
                 leaseEnd := s.tb + s.pair.mapLease * 625000, current := true })
         ∧ { epoch := s.pair.mapEpoch, roles := (List.range 16).map (stagedRole s),
             leaseEnd := s.tb + s.pair.mapLease * 625000, current := true } ∈ t.pair.maps)) ∧
    (Commands w false [0, 1, 2, 3, 4, 5] 3 s → exec (.mapRenew w) s = .next { s with pair := { s.pair with
      code := if (mapCurrent s).isNone then codeOf .denied else 0x00
      maps := s.pair.maps.map (fun m => if m.current then { m with leaseEnd := s.tb + s.pair.mapLease * 625000 } else m) } }) ∧
    ((∃ m ∈ s.pair.maps, m.epoch = e ∧ m.leaseEnd ≤ s.tb) → ∃ t, exec (.mapLeaseEnd e) s = .next t ∧ OnlyChanges [.pair] s t
      ∧ ∀ m : MapEntry, m ∈ t.pair.maps ↔ m ∈ s.pair.maps ∧ (m.current = true ∨ s.tb < m.leaseEnd ∨ drainCount s m.epoch ≠ 0))

/-- RENEW_TIMER queues a RENEW of a live device, or the ADMIT_REQ of an aligned one that is not, on an SL that is UP once
LIVE_RENEW ms have passed, with the next sequence number and the time base. A GRANT to this live device that echoes an outstanding RENEW
removes it and extends the lease from that RENEW's send tick, never backwards. A DENY or EXCLUDE that names this live
device, and the expiry of its lease, fence it: LIVE_STATUS reads fenced, nothing is outstanding on SL, every tray request
is forgotten, no link queue holds a packet, and no other block than those R260 touches changes. An EXCLUDE of another
device marks it in the exclusion table with its epoch and counts in LIVE_EXCLUSIONS; a JOIN clears the mark. An ADMIT that
answers an ADMIT_REQ of a fenced device makes it live again with the epoch and lease it carries and the table it carries.
SUSPECT answers OK and queues a report of the device in LIVE_SUSPECT on an SL that is UP.
(09 R259, 09 R260, 09 R261, 09 R262, 09 R263, 09 R264, 01 R32) -/
def Obligations.LivenessCommands : Prop :=
  ∀ (w : CtlWrite) (dev : DevId) (x : BitVec 16) (q : Word) (ms : Nat) (tab : List (DevId × Bool × BitVec 16)) (s : State),
    let fencedHere (c : Instr) := ∃ t, exec c s = .next t ∧ t.pair.live = 2 ∧ t.pair.renews = [] ∧ t.pair.admits = []
      ∧ t.pair.lastRenew = none ∧ t.pair.excl = s.pair.excl ∧ (∀ d : Nat, d < 16 → (trayDst t d).out = [] ∧ (trayDst t d).waiting = [])
      ∧ OnlyChanges [.dev, .maint, .clusters, .sched, .req, .pair, .near, .rma, .links, .out] s t
    let queued (m : SlMsg) (t : State) : Prop := OnlyChanges [.pair, .links] s t ∧ t.links = { s.links with links := t.links.links }
      ∧ (∃ p : Queued, p.pkt = .sl m ∧ p.cls = 0 ∧ p.at_ = s.tb ∧ link t 31 = { link s 31 with queue := (link s 31).queue ++ [p] })
      ∧ ∀ k : Nat, k ≠ 31 → link t k = link s k
    ((s.pair.lastRenew.elim True (fun t => t + s.pair.renew * 625000 ≤ s.tb)) → slUp s = true → s.maint.pwrgd = true →
      s.maint.silent = false →
      (s.pair.live = 1 → ∃ t, exec .renewTimer s = .next t ∧ queued (.renew (myDev s) s.pair.epoch s.pair.slSeq s.tb) t ∧ t.pair = { s.pair with
        slSeq := s.pair.slSeq + 1, renews := s.pair.renews ++ [(s.pair.slSeq, s.tb)], lastRenew := some s.tb })
      ∧ (s.pair.live ≠ 1 → s.repro.aligned = true → ∃ t, exec .renewTimer s = .next t
        ∧ queued (.admitReq (myDev s) s.pair.epoch s.pair.slSeq s.tb) t ∧ t.pair = { s.pair with
          slSeq := s.pair.slSeq + 1, admits := s.pair.admits ++ [(s.pair.slSeq, s.tb)], lastRenew := some s.tb })) ∧
    (dev = myDev s → s.pair.live = 1 → ∀ t0 : Nat, s.pair.renews.find? (fun r => r.1 == q.toNat) = some (q.toNat, t0) →
      exec (.grant dev x q ms) s = .next { s with pair := { s.pair with
        renews := s.pair.renews.filter (fun r => r.1 != q.toNat), expiry := max s.pair.expiry (t0 + ms * 625000) } }) ∧
    (s.pair.live = 1 → dev = myDev s → fencedHere (.deny dev q) ∧ fencedHere (.exclude dev x)) ∧
    (s.pair.live = 1 → s.pair.expiry ≤ s.tb → fencedHere .leaseExpiry) ∧
    (s.pair.live = 1 → dev ≠ myDev s → ∃ t, exec (.exclude dev x) s = .next t ∧ Tab.find t.pair.excl dev.toNat = some (true, x)
      ∧ t.pair.exclusions = satInc s.pair.exclusions ∧ (∀ d : Nat, d ≠ dev.toNat → Tab.find t.pair.excl d = Tab.find s.pair.excl d)
      ∧ t.pair.live = 1 ∧ t.tb = s.tb) ∧
    (s.pair.live = 1 → ∃ t, exec (.join dev x) s = .next t ∧ Tab.find t.pair.excl dev.toNat = some (false, x)
      ∧ (∀ d : Nat, d ≠ dev.toNat → Tab.find t.pair.excl d = Tab.find s.pair.excl d)
      ∧ t.pair.live = 1 ∧ t.tb = s.tb ∧ t.host = s.host ∧ t.sec = s.sec) ∧
    (s.pair.live ≠ 1 → dev = myDev s → ∀ t0 : Nat, s.pair.admits.find? (fun r => r.1 == q.toNat) = some (q.toNat, t0) →
      ∃ t, exec (.admitMsg dev x q ms tab) s = .next t ∧ t.pair.live = 1 ∧ t.pair.epoch = x ∧ t.pair.expiry = t0 + ms * 625000
        ∧ t.pair.admits = [] ∧ t.pair.excl = tab.foldl (fun m e => Tab.put m e.1.toNat e.2) [] ∧ t.tb = s.tb ∧ t.forme = s.forme) ∧
    (Commands w false [0, 1, 2, 3, 4, 5] 4 s → s.pair.busy = false → ∃ t, exec (.suspect w) s = .next t
      ∧ t.pair = { s.pair with code := 0x00 } ∧ if mayEmit s && slUp s then queued (.suspect s.pair.suspect) t else OnlyChanges [.pair] s t)

/-- On a device that is not fenced. A member that is MEETING becomes SINGLE when its partner is excluded, keeps its state with
FORME_MISMATCH against a serving partner of another base, becomes PAIRED with a serving partner that is MEETING or PAIRED
where neither holds a galley, and a spare against a partner that is SINGLE. SILVER gives DENIED outside SINGLE or without
a partner or a JOIN of it, RETRY_LATER until the partner is a spare, FORME_MISMATCH for another base, and otherwise brings
the partner in with CODE OK. ABORT answers OK and puts the survivor back to SINGLE or the spare being filled back to
spare; elsewhere it is DENIED. CHECKPOINT_REQUEST asks for the next checkpoint once 16,384 frames are copied or the
journal is full. CKPT_ACK of the checkpoint that was asked for stores its number and cursor; the final one makes the pair
PAIRED and counts it. MIRROR_ACK_TIMEOUT counts a mirrored write without an acknowledgement after 64 µs in PAIR_HELD once
and sets bit 5 of DEV_ERR. (09 R241, 09 R244, 09 R247, 09 R248, 09 R251, 09 R252, 09 R253, 15 R400, 17 R448) -/
def Obligations.BringInCommands : Prop :=
  ∀ (w : CtlWrite) (v : PartnerView) (n : Word) (slot : Slot) (s : State), s.pair.live = 1 →
    (∀ p : Nat, partnerSlot s = some p → s.pair.state = 1 → ∃ t, exec (.partnerMeet v) s = .next t ∧
      let serving := v.live = true ∧ 3 ≤ v.formeState.toNat ∧ v.formeState.toNat ≤ 5
      if excluded s (devOfSlot s p).toNat = true then t = { s with pair := { s.pair with state := 3 } }
      else if ¬ serving then t = s
      else if v.formeBase ≠ s.forme.base then t = { s with pair := { s.pair with code := codeOf .formeMismatch } }
      else if v.state = 3 then t.pair.state = 4 ∧ t.pair.code = s.pair.code
      else if s.req.galleys = [] ∧ v.holdsGalley = false ∧ (v.state = 1 ∨ v.state = 2) then t.pair.state = 2 ∧ t.pair.code = s.pair.code
        ∧ (∀ a : DWord, s.sec.pairSecret = some a → v.secret = some a → t = { s with pair := { s.pair with state := 2 } })
      else t = s) ∧
    (Commands w false [0, 1, 2, 3, 4, 5] 0 s → s.pair.busy = false → ∃ t, exec (.silver w v) s = .next t
      ∧ OnlyChanges [.dev, .maint, .forme, .codec, .tier, .sched, .req, .pair, .near, .rma, .links, .out] s t ∧
      if s.pair.state ≠ 3 ∨ partnerSlot s = none then t = { s with pair := { s.pair with code := codeOf .denied } }
      else if ∃ p, partnerSlot s = some p ∧ ∀ e, Tab.find s.pair.excl (devOfSlot s p).toNat ≠ some (false, e) then
        t = { s with pair := { s.pair with code := codeOf .denied } }
      else if v.state ≠ 4 then t = { s with pair := { s.pair with code := codeOf .retryLater } }
      else if v.formeBase ≠ s.forme.base then t = { s with pair := { s.pair with code := codeOf .formeMismatch } }
      else t.pair.code = 0x00 ∧ t.pair.state = 5) ∧
    (Commands w false [0, 1, 2, 3, 4, 5] 1 s → s.pair.busy = false → ∃ t, exec (.abort w) s = .next t ∧
      if s.pair.state = 5 then t.pair.state = 3 ∧ t.pair.code = 0x00 ∧ t.pair.journal = [] ∧ t.tb = s.tb ∧ t.forme = s.forme
      else if s.pair.state = 6 then t.pair.state = 4 ∧ t.pair.code = 0x00 ∧ t.pair.stored = none ∧ t.tb = s.tb ∧ t.forme = s.forme
      else t = { s with pair := { s.pair with code := codeOf .denied } }) ∧
    (s.pair.state = 5 → s.pair.ckptAsked = none → (16384 ≤ s.pair.sinceCkpt ∨ 1048576 ≤ s.pair.journal.length) →
      ∃ t, exec .checkpointRequest s = .next t ∧ OnlyChanges [.pair, .near, .links] s t
        ∧ t.pair = { s.pair with ckptAsked := some (s.pair.ckpt + 1), finalCkpt := false }) ∧
    (s.pair.state = 5 → s.pair.ckptAsked = some n.toNat → ∀ reads : ReadOutcome, ∃ t, exec (.ckptAck ⟨n, reads⟩) s = .next t ∧ t.pair.ckpt = n.toNat ∧
      if s.pair.finalCkpt = true then t.pair.state = 2 ∧ t.pair.code = 0x00 ∧ t.pair.silvers = satInc s.pair.silvers
      else t.pair.state = 5 ∧ t.pair.ckptCursor = s.pair.cursor ∧ t.pair.silvers = s.pair.silvers) ∧
    (∀ o : TrayOut, (trayDst s slot.toNat).out.find? (fun o => o.seq == n.toNat) = some o → mirroredWhy o.why = true →
      o.held = false → (o.counted = true ∨ o.sent + 40000 ≤ s.tb) → ∃ t, exec (.mirrorAckTimeout slot n) s = .next t
        ∧ OnlyChanges [.dev, .pair, .near, .links] s t ∧ t.pair = { s.pair with held := satInc s.pair.held } ∧ bit t.dev.err 5 = true
        ∧ (trayDst t slot.toNat).out = (trayDst s slot.toNat).out.map (fun o => if o.seq = n.toNat then { o with held := true } else o)
        ∧ ∀ d : Nat, d ≠ slot.toNat → trayDst t d = trayDst s d)

/-- A SEC_CTRL write of OWNER_CMD to a SEC block that is not BUSY, in NORMAL boot. A command that passes checks 1 to 5 and
whose store write succeeds changes the store by one write and answers OK: CLAIM makes the key the only owner, ADD_KEY
appends it, REMOVE_KEY takes it out, ADVANCE raises the counter its TARGET names, DEBUG_UNLOCK stages the unlock record. A
command whose store write fails answers DENIED and clears RPS_OK with bit 14 of DEV_ERR; a command of another device,
without RPS_OK or of a wrong form, or with a bad signature, changes nothing but CODE. A RECOVERY_IMAGE in RECOVERY gives
INTEGRITY without its signatures, DENIED below the firmware SVN (or without RPS_OK, log entry 131), and otherwise runs as
the firmware of NORMAL boot with its measurements and version; in NORMAL boot an image is MALFORMED. (15 R390, 15 R392, 15
R393, 15 R394, 15 R395, 15 R396, 15 R409, 17 R442, 17 R448) -/
def Obligations.OwnerCommands : Prop :=
  ∀ (c : OwnerExec) (w : CtlWrite) (img : FwImage) (s : State), s.sec.busy = false →
    (Commands c.w true [0, 1, 2, 3, 4] 0 s → s.sec.boot = 1 →
      let st := s.sec.store
      let passes (op : Nat) : Prop := ownerForm op c.cmd = true ∧ s.sec.rpsOk = true ∧ c.cmd.device = Config.deviceDigest
        ∧ (if op = 1 then st.owners = [] else c.cmd.signer ∈ st.owners) ∧ c.cmd.sig.ed25519Ok = true ∧ c.cmd.sig.mlDsaOk = true
        ∧ c.cmd.storeSeq.toNat = (if op = 5 then st.incarnation.toNat + 1 else st.writes.toNat)
      let done (store : Store) : State := { s with sec := { s.sec with code := 0x00, store := { store with writes := st.writes + 1 } } }
      let op (n : Nat) (x : Instr) (more : Prop) (store : Store) : Prop :=
        (passes n → more → c.storeOk = true → exec x s = .next (done store)) ∧
        (passes n → more → c.storeOk = false → ∃ t, exec x s = .next t ∧ OnlyChanges [.dev, .sec] s t
          ∧ t.sec = { s.sec with code := codeOf .denied, rpsOk := false } ∧ bit t.dev.err 14 = true) ∧
        (ownerForm n c.cmd = false → exec x s = .next { s with sec := { s.sec with code := codeOf .malformed } }) ∧
        (ownerForm n c.cmd = true → (s.sec.rpsOk = false ∨ c.cmd.device ≠ Config.deviceDigest) →
          exec x s = .next { s with sec := { s.sec with code := codeOf .denied } }) ∧
        (ownerForm n c.cmd = true → s.sec.rpsOk = true → c.cmd.device = Config.deviceDigest →
          (if n = 1 then st.owners = [] else c.cmd.signer ∈ st.owners) → (c.cmd.sig.ed25519Ok = false ∨ c.cmd.sig.mlDsaOk = false) →
          exec x s = .next { s with sec := { s.sec with code := codeOf .integrity } })
      op 1 (.claim c) True { st with owners := [c.cmd.argKey] } ∧
      op 2 (.addKey c) (st.owners.length < 4 ∧ c.cmd.argKey ∉ st.owners) { st with owners := st.owners ++ [c.cmd.argKey] } ∧
      op 3 (.removeKey c) (2 ≤ st.owners.length ∧ c.cmd.argKey ∈ st.owners)
        { st with owners := st.owners.filter (fun k => k != c.cmd.argKey) } ∧
      op 4 (.advance c) ((if c.cmd.target = 0 then st.formeSvn else st.fwSvn).toNat < c.cmd.value.toNat)
        (if c.cmd.target = 0 then { st with formeSvn := c.cmd.value } else { st with fwSvn := c.cmd.value }) ∧
      op 5 (.debugUnlock c) True { st with unlock := some (c.cmd.digest, c.cmd.storeSeq.setWidth 32, true) }) ∧
    (Commands w true [0, 1, 2, 3, 4] 0 s → exec (.recoveryImage w img) s = .next { s with sec :=
      (if s.sec.boot ≠ 2 then { s.sec with code := codeOf .malformed }
       else if img.sigsOk = false then { s.sec with code := codeOf .integrity }
       else if s.sec.rpsOk = false ∨ img.svn.toNat < s.sec.store.fwSvn.toNat then { s.sec with code := codeOf .denied }
       else { s.sec with code := 0x00, boot := 1, meas2 := img.digest1, meas3 := img.digest2, fwVersion := img.version }) })

/-- SEC commands in NORMAL boot while the block is not BUSY. POD_FETCH and POD_GENESIS are DENIED on a device that holds the
pod key; otherwise POD_FETCH leaves the block BUSY with the key asked of the donor (at once where pod messages may be
sent; an excluded donor then ends it with EPOCH_STALE), and POD_GENESIS gives generation 1 with CODE OK. A pod key that arrives from the donor of a fetch is taken with its
generation and ends the fetch with OK, and a failed exchange ends it with DENIED; a device that holds a key ignores it.
POD_SEND_ENABLE lets pod messages go from the first multiple of 2^28 tb after ALIGNED set, and not before. TENANT_UNBIND
is DENIED while the tenant has a session, a record that is not RETIRED (log entry 132) or a shelved galley, and otherwise
removes its key. RESEED starts the count of the generator anew. (15 R391, 15 R402, 15 R403, 15 R405, 15 R410, 17 R442) -/
def Obligations.PodKeyAndTenantCommands : Prop :=
  ∀ (w : CtlWrite) (d : DevId) (gen : Word) (s : State),
    (Commands w true [0, 1, 2, 3, 4] 1 s → s.sec.busy = false → s.sec.boot = 1 → ∃ t, exec (.podFetch w) s = .next t
      ∧ OnlyChanges [.sec, .rma, .links] s t ∧ t.sec = (if s.sec.podGen.isSome then { s.sec with code := codeOf .denied }
        else if s.sec.podSend && mayEmit s && excluded s s.sec.donor.toNat then
          { s.sec with busy := false, fetch := none, code := codeOf .epochStale }
        else { s.sec with busy := true, fetch := some (s.sec.podSend && mayEmit s) })) ∧
    (Commands w true [0, 1, 2, 3, 4] 2 s → s.sec.busy = false → s.sec.boot = 1 → ∃ t, exec (.podGenesis w) s = .next t
      ∧ OnlyChanges [.sec, .drbg, .repro, .rma, .links, .free, .out] s t ∧ (s.sec.podGen.isSome = true → t.sec = { s.sec with code := codeOf .denied })
      ∧ (s.sec.podGen = none → t.sec.podGen = some 1 ∧ t.sec.code = 0x00 ∧ t.sec.tenants = s.sec.tenants ∧ t.sec.store = s.sec.store)) ∧
    (s.sec.podGen = none → s.sec.fetch.isSome = true → d = s.sec.donor → ∃ t, exec (.podKeyTransfer d gen true) s = .next t
      ∧ OnlyChanges [.sec, .repro, .rma, .links, .out] s t
      ∧ t.sec = { s.sec with podGen := some gen, fetch := none, busy := false, code := 0x00 }) ∧
    (s.sec.podGen = none → s.sec.fetch.isSome = true → d = s.sec.donor → exec (.podKeyTransfer d gen false) s =
      .next { s with sec := { s.sec with fetch := none, busy := false, code := codeOf .denied } }) ∧
    (∀ ok : Bool, s.sec.podGen.isSome = true → exec (.podKeyTransfer d gen ok) s = .next s) ∧
    (∀ t0 : Nat, s.repro.alignedAt = some t0 → s.repro.aligned = true → s.sec.podSend = false →
      if (t0 / 2 ^ 28 + 1) * 2 ^ 28 ≤ s.tb then ∃ t, exec .podSendEnable s = .next t ∧ OnlyChanges [.sec, .repro, .rma, .links, .out] s t
        ∧ t.sec.podSend = true ∧ t.sec.podGen = s.sec.podGen
      else exec .podSendEnable s = .next s) ∧
    (Commands w true [0, 1, 2, 3, 4] 3 s → s.sec.busy = false → s.sec.boot = 1 →
      if (∃ e ∈ s.sec.sessions, e.2.tenant = s.sec.tenantSel) ∨ (∃ e ∈ s.req.recs, e.2.tenant = s.sec.tenantSel ∧ e.2.state ≠ 8)
          ∨ (∃ e ∈ s.req.galleys, e.2.tenant = s.sec.tenantSel ∧ isShelved e.2 = true) then
        exec (.tenantUnbind w) s = .next { s with sec := { s.sec with code := codeOf .denied } }
      else exec (.tenantUnbind w) s = .next { s with sec := { s.sec with
        code := 0x00, tenants := Tab.del s.sec.tenants s.sec.tenantSel.toNat } }) ∧
    exec .reseed s = .next { s with sec := { s.sec with drbg := 0 } }

/-- On a device whose PF answers and whose ROM has ended (DOE). GET_VERSION starts the negotiation anew and answers (log entry
88). With verified firmware, GET_CAPABILITIES answers for version 1.2 or 1.3 and records it; NEGOTIATE_ALGORITHMS with the
same version, Ed25519 and SHA-384 answers; GET_DIGESTS, GET_CERTIFICATE, CHALLENGE (with both signatures),
GET_MEASUREMENTS of an index up to 8 or all of them (a signed response with both signatures) and a hybrid exchange that
verifies answer once algorithms are negotiated, and the exchange opens the secure session. A request before its
negotiation, or without verified firmware, is answered ERROR (log entry 88), and nothing else changes. (15 R390, 15 R397,
15 R398, 15 R399, 17 R446) -/
def Obligations.SpdmCommands : Prop :=
  ∀ (v : Byte) (n : BitVec 256) (i : Byte) (o l : Nat) (s : State), answers s 0 = true → s.sec.boot ≠ 0 →
    let say (r : List SpdmResp) (x : Spdm) : Host.Outcome State Fault Refusal :=
      .next { s with sec := { s.sec with spdm := x }, out := s.out ++ r.map Emit.spdm }
    let x := s.sec.spdm
    let wrong : Host.Outcome State Fault Refusal := say [.error] x
    exec .getVersion s = say [.version] {} ∧
    (s.sec.boot ≠ 1 → exec (.getCapabilities v) s = wrong ∧ exec .getDigests s = wrong ∧ exec (.challenge n) s = wrong
      ∧ exec (.secureSessionExchange true) s = wrong) ∧
    (x.algs = false → exec .getDigests s = wrong ∧ exec (.getCertificate o l) s = wrong ∧ exec (.challenge n) s = wrong
      ∧ exec (.getMeasurements i true n) s = wrong ∧ exec (.secureSessionExchange true) s = wrong) ∧
    (s.sec.boot = 1 →
      (exec (.getCapabilities v) s = if v = 0x12 ∨ v = 0x13 then say [.capabilities v] { x with version := v, caps := true, algs := false }
        else wrong) ∧
      (x.caps = true → v = x.version → exec (.negotiateAlgorithms v true true) s = say [.algorithms] { x with algs := true }) ∧
      ((x.caps = false ∨ v ≠ x.version) → exec (.negotiateAlgorithms v true true) s = wrong) ∧
      (x.algs = true → exec .getDigests s = say [.digests] x ∧ exec (.getCertificate o l) s = say [.certificate o l] x
        ∧ exec (.challenge n) s = say [.challengeAuth n, .vendorSignature] x
        ∧ (i.toNat = 0 → exec (.getMeasurements i false n) s = say [.measurements [] false n] x)
        ∧ (1 ≤ i.toNat → i.toNat ≤ 8 → exec (.getMeasurements i true n) s =
            say [.measurements [(i.toNat, measurement s i.toNat)] true n, .vendorSignature] x)
        ∧ (9 ≤ i.toNat → i.toNat ≤ 254 → exec (.getMeasurements i true n) s = wrong)
        ∧ exec (.secureSessionExchange true) s = say [.sessionAccept] { x with secure := true }
        ∧ exec (.secureSessionExchange false) s = wrong))

/-- On a function whose HOSTIF block is live and not BUSY. ENABLE of the ring set that SET then names is MALFORMED where a
base, size or vector is out of range, DENIED unless the set is DISABLED, and otherwise enables it with every count at zero
and CODE OK. DISABLE ends the set at once where it has taken no entry that is neither admitted nor refused, and otherwise
stays BUSY until then. A submission doorbell on an ENABLED set moves its producer forward by no more than the room there
is; a doorbell beyond it puts the set in ERROR with bit 16 of DEV_ERR; a set that is not ENABLED ignores it. A queue-pair
doorbell of the pair's own context, within the ring that its block gives (a control pair's block is read at its first doorbell,
log entry 211), moves the producer of the send or receive ring. A consumer count takes the value
written. A hold-off that has elapsed raises the vector and marks the set's entries as signalled. Other ring sets stay as
they were. (16 R416, 16 R417, 16 R424, 16 R426, 16 R427, 16 R428, 16 R430, 16 R435, 17 R442, 17 R448) -/
def Obligations.RingSetCommands : Prop :=
  ∀ (w : CtlWrite) (v set : BitVec 3) (value : Word) (read : RingRead) (vec : BitVec 5) (s : State),
    answers s w.fn = true → s.dev.ready = true →
    let h := fnHost s w.fn
    let ref (k : BitVec 3) : RingRef := { fn := w.fn, set := k }
    let x := ringSet s (ref v)
    let y := ringSet s (ref set)
    let fits (sizes lo hi n m : Nat) : Prop := n ≤ field sizes hi lo ∧ field sizes hi lo ≤ m
    let inRange : Prop := x.sqLo.toNat % 4096 = 0 ∧ x.cqLo.toNat % 4096 = 0 ∧ x.outLo.toNat % 4096 = 0
      ∧ fits x.sizes.toNat 0 3 6 15 ∧ fits x.sizes.toNat 8 11 6 15 ∧ fits x.sizes.toNat 16 20 10 20 ∧ fits x.vector.toNat 0 4 8 31
    ((∀ i : Nat, i < 3 → v.toNat.testBit i = ctlSetting w (8 + i) (h.set.toNat.testBit i)) → ctlMasked w 2 = false → h.busy = false →
      (ctlCommands w [0, 1] = [0] → ∃ t, exec (.enable w) s = .next t ∧ OnlyChanges [.host, .rma, .out] s t
        ∧ t.rma = { s.rma with faults := t.rma.faults }
        ∧ (fnHost t w.fn).set = v ∧ (∀ k : BitVec 3, k ≠ v → ringSet t (ref k) = ringSet s (ref k))
        ∧ (¬ inRange → (fnHost t w.fn).code = codeOf .malformed ∧ ringSet t (ref v) = x)
        ∧ (inRange → x.state ≠ 0 → (fnHost t w.fn).code = codeOf .denied ∧ ringSet t (ref v) = x)
        ∧ (inRange → x.state = 0 → x.held = [] → (fnHost t w.fn).code = 0x00 ∧ ringSet t (ref v) = { x with
            state := 1, cause := 0, sqHead := 0, sqProd := 0, cqProd := 0, cqCons := 0, outProd := 0, outCons := 0
            lastSignal := none, unsignalled := none })) ∧
      (ctlCommands w [0, 1] = [1] → ∃ t, exec (.disable w) s = .next t ∧ OnlyChanges [.host, .rma, .out] s t
        ∧ t.rma = { s.rma with faults := t.rma.faults }
        ∧ (fnHost t w.fn).set = v ∧ (∀ k : BitVec 3, k ≠ v → ringSet t (ref k) = ringSet s (ref k))
        ∧ (if x.state ≠ 0 ∧ x.taken ≠ 0 then (fnHost t w.fn).busy = true ∧ ringSet t (ref v) = { x with disabling := true }
           else (fnHost t w.fn).code = 0x00 ∧ ringSet t (ref v) = { x with state := 0, disabling := false }))) ∧
    (let p : BitVec 16 := value.extractLsb' 0 16
     let room := 2 ^ field y.sizes.toNat 3 0
     ∃ t, exec (.sqDoorbell w.fn set value) s = .next t ∧ OnlyChanges [.dev, .host, .free] s t
      ∧ (∀ k : BitVec 3, k ≠ set → ringSet t (ref k) = ringSet s (ref k))
      ∧ (y.state ≠ 1 → t = s)
      ∧ (y.state = 1 → (p - y.sqHead).toNat ≤ room → (y.sqProd - y.sqHead).toNat ≤ (p - y.sqHead).toNat →
          ringSet t (ref set) = { y with sqProd := p } ∧ t.dev = s.dev)
      ∧ (y.state = 1 → (room < (p - y.sqHead).toNat ∨ (p - y.sqHead).toNat < (y.sqProd - y.sqHead).toNat) →
          (ringSet t (ref set)).state = 2 ∧ bit t.dev.err 16 = true)) ∧
    (∀ q : Qp, qpOf s (field value.toNat 19 0) = some q → q.ctx = w.fn → qpKind (field value.toNat 19 0) = 0 → q.ready = true →
      let prod := read.prod
      let b := if q.block = noBlock then read.block else q.block
      let others (t : State) : Prop := ∀ n : Nat, n ≠ field value.toNat 19 0 → qpOf t n = qpOf s n
      (bit value 20 = false → (prod - q.sendCons).toNat ≤ 2 ^ b.sendLog.toNat → (q.sendProd - q.sendCons).toNat ≤ (prod - q.sendCons).toNat →
        ∃ t, exec (.qpDoorbell w.fn value read) s = .next t ∧ OnlyChanges [.rma] s t ∧ others t
          ∧ qpOf t (field value.toNat 19 0) = some { q with block := b, sendProd := prod }) ∧
      (bit value 20 = true → (prod - q.recvCons).toNat ≤ 2 ^ b.recvLog.toNat → (q.recvProd - q.recvCons).toNat ≤ (prod - q.recvCons).toNat →
        ∃ t, exec (.qpDoorbell w.fn value read) s = .next t ∧ OnlyChanges [.rma] s t ∧ others t
          ∧ qpOf t (field value.toNat 19 0) = some { q with block := b, recvProd := prod })) ∧
    (y.held = [] → (∃ t, exec (.consumerWrite (.cq w.fn set) value) s = .next t ∧ OnlyChanges [.host, .rma, .out] s t
        ∧ t.rma = { s.rma with faults := t.rma.faults } ∧ ringSet t (ref set) = { y with cqCons := value.extractLsb' 0 16 })
      ∧ (∃ t, exec (.consumerWrite (.out w.fn set) value) s = .next t ∧ OnlyChanges [.host, .rma, .out] s t
        ∧ t.rma = { s.rma with faults := t.rma.faults }
        ∧ ringSet t (ref set) = { y with outCons := value.extractLsb' 0 21 })) ∧
    (h.faultWait = [] → ∃ t, exec (.consumerWrite (.fault w.fn) value) s = .next t ∧ OnlyChanges [.host, .rma, .out] s t
        ∧ t.rma = { s.rma with faults := t.rma.faults } ∧ fnHost t w.fn = { h with faultCons := value.extractLsb' 0 17 }) ∧
    ((∃ e ∈ h.sets, holdoffDue s vec e.2 = true) → ∃ t, exec (.interruptHoldoffExpiry w.fn vec) s = .next t
      ∧ OnlyChanges [.host, .out] s t
      ∧ (∀ k : BitVec 3, holdoffDue s vec (ringSet s (ref k)) = true →
          ringSet t (ref k) = { ringSet s (ref k) with lastSignal := some s.tb, unsignalled := none })
      ∧ t.out = s.out ++ (if s.host.linkUp && (s.pair.live == 1 || (w.fn == 0 && vec == 2)) then [.msix w.fn vec.toNat] else []))

/-- An FLR of an existing VF leaves it in reset with its HOSTIF block at its reset values, its saved contexts and completion
ring gone and its queue pairs and regions gone (device-owned queue pairs and T1 regions apart); an FLR of the PF and a hot
reset do so for every function and clear VF Enable, and the hot reset takes the link down. FLR_COMPLETE makes the function
answer again, with a fresh control queue pair where the device is READY. VF_ENABLE sets NumVFs and makes the control queue
pair of each new VF; where its half is full another queue pair may leave the chip for it, and no pair changes otherwise. D3HOT_ENTRY puts an existing function into D3hot. IDE_KM over a secure session sets a stream's key
and clears Insecure, or refreshes it without effect. An integrity failure of a keyed stream makes it Insecure (log entry
126). LOCK_INTERFACE over a secure session locks an existing VF and signals vector 0. The PCIe link comes up once PERST#
is deasserted and the ROM has ended. (16 R411, 16 R414, 16 R430, 16 R431, 16 R432, 16 R433, 16 R434, 11 R291, 18 R459, 19
R478) -/
def Obligations.FunctionCommands : Prop :=
  ∀ (fn : FnId) (n : BitVec 6) (k : BitVec 7) (s : State),
    let there : Prop := s.maint.pwrgd = true ∧ s.host.linkUp = true ∧ fn.toNat ≤ s.host.numVfs
    (there → fn ≠ 0 → ∃ t, exec (.flr fn .flr) s = .next t ∧ OnlyChanges [.host, .clusters, .sched, .repro, .req, .rma, .links, .out] s t
      ∧ fn.toNat ∈ t.host.flr ∧ Tab.find t.host.fns fn.toNat = none ∧ t.host.numVfs = s.host.numVfs ∧ Tab.find t.host.tdi fn.toNat = none
      ∧ Tab.find t.sched.rings fn.toNat = none ∧ (∀ e ∈ t.sched.saves, e.1 % 64 ≠ fn.toNat)
      ∧ (∀ q x, qpOf t q = some x → x.ctx = fn → qpKind q = 1)
      ∧ (∀ e ∈ t.rma.regions, e.2.ctx = fn → e.2.t1 = none → e.2.valid = false)) ∧
    (s.maint.pwrgd = true → s.host.linkUp = true → ∃ t, exec (.flr 0 .flr) s = .next t ∧ t.host.numVfs = 0 ∧ t.host.flr = [0]
      ∧ (∀ f : FnId, Tab.find t.host.fns f.toNat = none) ∧ t.host.linkUp = true
      ∧ exec .hotReset s = .next { t with host := { t.host with linkUp := false } }) ∧
    let cqp (f : FnId) : DWord := BitVec.ofNat 64 ((fnHost s f).cqpHi.toNat * 2 ^ 32 + (fnHost s f).cqpLo.toNat)
    let fresh (f : FnId) (x : Qp) : Prop := x = { newQp f 0 (cqp f) noBlock s.tb with resident := x.resident }
    let place (x : Qp) : Qp := { x with resident := false, evictions := 0 }
    (fn.toNat ∈ s.host.flr → ∃ t, exec (.flrComplete fn) s = .next t ∧ OnlyChanges [.host, .rma, .out] s t
      ∧ t.host = { s.host with flr := s.host.flr.filter (fun x => x != fn.toNat) }
      ∧ (s.dev.ready = false → t.rma = s.rma ∧ t.out = s.out)
      ∧ (s.dev.ready = true → (∃ x : Qp, qpOf t (2 * fn.toNat) = some x ∧ fresh fn x)
          ∧ (∀ q : Nat, q ≠ 2 * fn.toNat → (qpOf t q).map place = (qpOf s q).map place)
          ∧ (halfRoom s 0 = true → t.out = s.out
              ∧ t.rma = { s.rma with qps := Tab.put s.rma.qps (2 * fn.toNat) (newQp fn 0 (cqp fn) noBlock s.tb) }))) ∧
    (answers s 0 = true → s.dev.ready = true → ∃ t, exec (.vfEnable n) s = .next t ∧ OnlyChanges [.host, .rma, .out] s t
      ∧ t.host = { s.host with numVfs := n.toNat }
      ∧ (∀ c : Nat, s.host.numVfs < c → c ≤ n.toNat → ∃ x : Qp, qpOf t (2 * c) = some x ∧ fresh (BitVec.ofNat 6 c) x)
      ∧ ∀ q : Nat, (∀ c : Nat, s.host.numVfs < c → c ≤ n.toNat → q ≠ 2 * c) → (qpOf t q).map place = (qpOf s q).map place) ∧
    (there → fn.toNat ∉ s.host.d3 → exec (.d3hotEntry fn) s = .next { s with host := { s.host with d3 := s.host.d3 ++ [fn.toNat] } }) ∧
    (s.sec.spdm.secure = true → k.toNat ≤ 64 → ∃ t, exec (.ideKm k false) s = .next t ∧ OnlyChanges [.host] s t
      ∧ (Tab.find t.host.ide k.toNat).elim False (fun x => x.keyed = true ∧ x.insecure = false)
      ∧ (∀ j : Nat, j ≠ k.toNat → Tab.find t.host.ide j = Tab.find s.host.ide j)) ∧
    exec (.ideKm k true) s = .next s ∧
    (∀ x : IdeStream, Tab.find s.host.ide k.toNat = some x → x.keyed = true → Tab.find s.host.tdi fn.toNat ≠ some true →
      exec (.ideIntegrityFailure k fn) s = .next { s with host := { s.host with
        ide := Tab.put s.host.ide k.toNat { x with insecure := true, fn := fn } } }) ∧
    (there → fn ≠ 0 → s.sec.spdm.secure = true → Tab.find s.host.tdi fn.toNat ≠ some true → ∃ t, exec (.lockInterface fn) s = .next t
      ∧ OnlyChanges [.host, .out] s t ∧ t.host = { s.host with tdi := Tab.put s.host.tdi fn.toNat true }
      ∧ t.out = s.out ++ (if s.pair.live = 1 then [.msix fn 0] else [])) ∧
    (s.maint.pwrgd = true → s.maint.perst = false → s.sec.boot ≠ 0 → exec .pcieLinkUp s = .next { s with host := { s.host with linkUp := true } })

/-- An attempt starts on a link that is DOWN or MISWIRED, in service, past its back-off and not failed in attestation:
TRAINING, phase 1. A phase that passes its bound leaves the link DOWN until its back-off, which doubles up to 1,024 ms, and
within it does not end so. A phase that ends records the received power and the laser's; phase 1 ends with a power from 14 to
18 dBm, phases 2 and 3 follow; phase 4 goes on to 5 where the far end is the one expected and otherwise leaves the
link MISWIRED in back-off (bit 8 of DEV_ERR for a near link); phase 5 goes on to 6, whose KEY frame is sent where frames may
leave, where attestation passes and otherwise leaves the link DOWN, marked failed; phase 6 ends once the far end's KEY frame
has verified, and the link is then UP with the next session. A link with a session that loses it is
DOWN (DISABLED where it is out of service), counts in LINK_DOWNS with bit 10 of DEV_ERR and starts no replay; without one
it stays. A fibre below 13.0 dBm is LOW, with bit 10 when it becomes so, and below 12.0 dBm for 10 µs it is OFF and its links
with a session go down. REKEY of a link with a session sends one KEY frame where frames may leave and the retry buffer has room, and keeps it waiting
for room otherwise. RETRAIN of a link in service trains it at once. (12
R323, 12 R324, 12 R328, 12 R330, 12 R331, 12 R335, 12 R339, 10 R289, 15 R398, 17 R441, 17 R448) -/
def Obligations.LinkTrainingCommands : Prop :=
  ∀ (n : LinkId) (r : PhaseResult) (w : CtlWrite) (i : BitVec 3) (p : BitVec 16) (held : Bool) (s : State),
    let k := n.toNat
    let l := link s k
    let becomes (c : Instr) (l' : Link) : Prop := ∃ t, exec c s = .next t ∧ OnlyChanges [.links] s t ∧ link t k = l'
      ∧ ∀ m : Nat, m ≠ k → link t m = link s m
    let x := { l with rxPwr := r.rxPwr }
    let measured (t : State) : Prop := (Tab.getD t.links.lasers (fibreOf k) {}).power = r.laser ∧ ∀ m : Nat, m ≠ k → link t m = link s m
    let goes (l' : Link) : Prop := ∃ t, exec (.linkPhaseDone r) s = .next t ∧ OnlyChanges [.dev, .links] s t ∧ link t k = l' ∧ measured t
    let next (x : Link) : Link := { x with phase := x.phase + 1, phaseAt := s.tb }
    let late : Prop := l.phaseAt + phaseBound l.phase.toNat * 625000 ≤ s.tb
    let f := Tab.getD s.links.lasers i.toNat {}
    let dark : Prop := p.toInt < 1200 ∧ (held = true ∨ f.below.getD s.tb + 6250 ≤ s.tb)
    let waits (x : Link) (st : BitVec 4) : Link :=
      { x with state := st, waitUntil := s.tb + x.backoff * 625000, backoff := min 1024 (2 * x.backoff) }
    (s.maint.pwrgd = true → s.sec.boot = 1 → (l.state = 0 ∨ l.state = 3) → linkOff s k = false → l.authFail = false → l.waitUntil ≤ s.tb →
      becomes (.linkTrainStart n) { l with state := 1, phase := 1, phaseAt := s.tb, keyed := false }) ∧
    (l.state = 1 → (late → becomes (.linkPhaseTimeout n) (waits l 0)) ∧ (¬ late → exec (.linkPhaseTimeout n) s = .next s)) ∧
    (l.state = 1 → r.link = n → late → becomes (.linkPhaseDone r) (waits l 0)) ∧
    (l.state = 1 → r.link = n → ¬ late →
      (l.phase = 1 → goes (if 1400 ≤ r.laser.toInt ∧ r.laser.toInt ≤ 1800 then next x else x)) ∧
      ((l.phase = 2 ∨ l.phase = 3) → goes (next x)) ∧
      (l.phase = 4 →
        let near := { x with farSlot := BitVec.ofNat 4 (r.farDev.toNat % 16), farLink := BitVec.ofNat 4 r.farLink }
        (k < 15 → r.farDev.toNat = (devOfSlot s (nearSlot s k)).toNat → r.farLink = 14 - k → goes (next near))
        ∧ (15 ≤ k → r.farPlane = k - 15 → goes (next x))
        ∧ (15 ≤ k → r.farPlane ≠ k - 15 → goes (waits x 3))
        ∧ (k < 15 → (r.farDev.toNat ≠ (devOfSlot s (nearSlot s k)).toNat ∨ r.farLink ≠ 14 - k) → ∃ t, exec (.linkPhaseDone r) s = .next t
            ∧ OnlyChanges [.dev, .links] s t ∧ link t k = waits near 3 ∧ measured t ∧ bit t.dev.err 8 = true)) ∧
      (l.phase = 5 →
        (attested s k r = true → ∃ t, exec (.linkPhaseDone r) s = .next t ∧ OnlyChanges [.dev, .links, .out] s t ∧ measured t
          ∧ (link t k).state = 1 ∧ (link t k).phase = 6 ∧ (link t k).phaseAt = s.tb ∧ (link t k).keyed = l.keyed
          ∧ (mayEmit s = true → txRoom s k 1 = true → l.retry.length < 256 → ∃ h : TxHdr, t.out = s.out ++ [.key k h .session]))
        ∧ (attested s k r = false → goes { waits x 0 with phase := 0xF, authFail := true })) ∧
      (l.phase = 6 → l.keyed = false → goes x) ∧
      (l.phase = 6 → l.keyed = true → ∃ t, exec (.linkPhaseDone r) s = .next t ∧ OnlyChanges [.dev, .repro, .near, .rma, .links, .out] s t
        ∧ (link t k).state = 2 ∧ (link t k).phase = 7 ∧ (link t k).session = l.session + 1 ∧ (link t k).upAt = some s.tb
        ∧ (link t k).txSeq = 0 ∧ (link t k).rxSeq = 0)) ∧
    ((l.state = 2 ∨ l.state = 4) → ∃ t, exec (.linkDown n .signal) s = .next t ∧ OnlyChanges [.dev, .near, .rma, .links] s t
      ∧ (link t k).state = (if linkOff s k then 5 else 0) ∧ (link t k).downs = satInc l.downs ∧ (link t k).retry = []
      ∧ (link t k).session = l.session ∧ bit t.dev.err 10 = true) ∧
    (l.state ≠ 2 → l.state ≠ 4 → exec (.linkDown n .signal) s = .next s) ∧
    (¬ dark → ∃ t, exec (.laserLow i p held) s = .next t ∧ OnlyChanges [.dev, .links] s t
      ∧ t.links = { s.links with lasers := Tab.put s.links.lasers i.toNat { f with
          power := p, low := decide (p.toInt < 1300), off := f.off && decide (p.toInt < 1200)
          below := if p.toInt < 1200 then some (f.below.getD s.tb) else none } }
      ∧ (p.toInt < 1300 → f.low = false → bit t.dev.err 10 = true)
      ∧ (1300 ≤ p.toInt → t.dev = s.dev)) ∧
    (dark → ∃ t, exec (.laserLow i p held) s = .next t ∧ OnlyChanges [.dev, .near, .rma, .links] s t
      ∧ (Tab.getD t.links.lasers i.toNat {}).off = true ∧ (Tab.getD t.links.lasers i.toNat {}).power = p
      ∧ ∀ m ∈ fibreLinks i.toNat, (link s m).state = 2 ∨ (link s m).state = 4 → (link t m).state = 0 ∨ (link t m).state = 5) ∧
    ((l.state = 2 ∨ l.state = 4) → l.rekeyAt = none → mayEmit s = true → txRoom s k 1 = true → l.retry.length < 256 →
      ∃ t, exec (.rekey n) s = .next t ∧ OnlyChanges [.links, .out] s t
      ∧ link t k = { l with rekeyAt := some s.tb, txc := l.txc + 1 } ∧ ∃ h : TxHdr, t.out = s.out ++ [.key k h .rekey]) ∧
    ((l.state = 2 ∨ l.state = 4) → l.rekeyAt = none → mayEmit s = true → 256 ≤ l.retry.length →
      becomes (.rekey n) { l with rekeyAt := some s.tb, keyWait := l.keyWait ++ [.rekey] }) ∧
    (Commands w false [5, 6] 5 s → (∀ j : Nat, j < 5 → n.toNat.testBit j = ctlSetting w j (s.links.sel.toNat.testBit j)) →
      s.maint.pwrgd = true → s.sec.boot = 1 → linkOff s k = false → l.state.toNat ≤ 4 → ∃ t, exec (.retrain w) s = .next t
        ∧ OnlyChanges [.dev, .near, .rma, .links] s t ∧ t.links.sel = n ∧ (link t k).state = 1 ∧ (link t k).phase = 1
        ∧ (link t k).authFail = false)

/-- A write of the PF holds its low bits. Every link of the register follows its bit: set, an UP link drains and is DISABLED
once it is drained, and a link that is DOWN, TRAINING or MISWIRED is DISABLED; clear, a DRAINING link is UP again and a
DISABLED one is DOWN. Links of the other register keep their state. (10 R285, 10 R289, 10 R290, 12 R339, 17 R441) -/
def Obligations.LinkDisableWrites : Prop :=
  ∀ (v : Word) (s : State), pfLive s 0 false = true →
    let follows (t : State) (n : Nat) (off : Bool) : Prop :=
      (off = true → (link s n).state = 2 → (link t n).state = 4 ∨ (link t n).state = 5) ∧
      (off = true → ((link s n).state = 0 ∨ (link s n).state = 1 ∨ (link s n).state = 3) → (link t n).state = 5) ∧
      (off = false → (link s n).state = 4 → (link t n).state = 2) ∧ (off = false → (link s n).state = 5 → (link t n).state = 0)
    (∃ t, exec (.linkFarDisable 0 v) s = .next t ∧ OnlyChanges [.links] s t ∧ t.links.farDisable = v.extractLsb' 0 16
      ∧ (∀ k : Nat, k < 16 → follows t (15 + k) (bit v k)) ∧ ∀ n : Nat, n < 15 ∨ n = 31 → link t n = link s n) ∧
    (∃ t, exec (.nearDisable 0 v) s = .next t ∧ OnlyChanges [.near, .links] s t ∧ t.near.disable = v.extractLsb' 0 15
      ∧ (∀ k : Nat, k < 15 → follows t k (bit v k)) ∧ ∀ n : Nat, 15 ≤ n → (link t n).state = (link s n).state)

/-- Every frame on a link without a session is ignored, but for the verified KEY frame of phase 6, which completes the exchange.
A frame counts its corrected and uncorrectable codewords in LINK_FEC_CORR and LINK_FEC_UNC; one that fails FEC, CRC or TAG is
discarded with a NAK of the next sequence number expected (every frame only where frames may leave under the session's count); a
TAG failure counts in LINK_AUTH_ERR with bit 10 of DEV_ERR. A frame that passes frees the retry buffer through its ACK. A DATA or TIME frame is taken only in order, and
moves the number expected on by one; out of order it is answered with a NAK; IDLE, NAK and KEY frames leave the number
expected alone. A NAK replays every kept frame from its number on and counts them in LINK_REPLAY. A KEY frame that
confirms the rekey of this end switches the key phase with a count from zero and counts in LINK_REKEYS; one that starts the far
end's rekey makes both keys valid and is answered with a confirmation. KEY frames that wait go out with room that an ACK makes. The first TIME
exchange of a plane steps the time base by the offset; later ones set the offset to slew by. Other links stay as they
were. (12 R325, 12 R326, 12 R327, 12 R328, 12 R329, 12 R330, 12 R331, 14 R371, 14 R372, 17 R448) -/
def Obligations.LinkFrames : Prop :=
  ∀ (f : Frame) (p : KeyPayload) (x : TimeExchange) (s : State),
    let n := f.link.toNat
    let l := link s n
    let hasSession : Prop := l.state = 2 ∨ l.state = 4
    let can (k : Nat) : Bool := mayEmit s && txRoom s n k
    let nak : List Emit := if can 1 then [.nak n (txHdr s n l.rxSeq)] else []
    let sent (k : Nat) : Nat := if can k then k else 0
    let l1 : Link := { l with
      fecCorr := satAdd l.fecCorr f.fecCorr, fecUnc := satAdd l.fecUnc f.fecUnc
      uncAt := if f.fecUnc = 0 then l.uncAt else (s.tb, f.fecUnc) :: l.uncAt.filter (fun e => decide (s.tb < e.1 + 625000)) }
    let tagged : Prop := f.tagOk = true ∧ f.session = l.session.extractLsb' 0 16 ∧ (f.keyPhase = l.rxPhase ∨ l.twoKeys = true)
    let becomes (c : Instr) (out : List Emit) (l' : Link) : Prop := ∃ t, exec c s = .next t ∧ OnlyChanges [.links, .out] s t
      ∧ link t n = l' ∧ t.out = s.out ++ out ∧ ∀ m : Nat, m ≠ n → link t m = link s m
    let kept (t : State) : Prop := (link t n).retry = l.retry.filter (fun q => !seqLe q f.ack.toNat)
    (¬ hasSession → (∀ c ∈ [Instr.dataFrame f, .idleFrame f, .nakFrame f, .timeFrame f x], exec c s = .next s)
      ∧ (if l.state = 1 ∧ l.phase = 6 ∧ f.fecUnc = 0 ∧ f.crcOk = true ∧ p = .session true then becomes (.keyFrame f p) [] { l with keyed := true }
         else exec (.keyFrame f p) s = .next s)) ∧
    (∀ c ∈ [Instr.dataFrame f, .idleFrame f, .nakFrame f, .keyFrame f p, .timeFrame f x],
      (hasSession → (f.fecUnc ≠ 0 ∨ f.crcOk = false) → becomes c nak { l1 with txc := l.txc + sent 1 }) ∧
      (hasSession → f.fecUnc = 0 → f.crcOk = true → ¬ tagged → ∃ t, exec c s = .next t ∧ OnlyChanges [.dev, .links, .out] s t
        ∧ link t n = { l1 with authErr := satInc l.authErr, authAt := (s.tb :: l.authAt).take 5, txc := l.txc + sent 1 }
        ∧ t.out = s.out ++ nak ∧ bit t.dev.err 10 = true)) ∧
    (hasSession → f.fecUnc = 0 → f.crcOk = true → tagged →
      (f.seq.toNat = l.rxSeq → ∃ t, exec (.dataFrame f) s = .next t ∧ OnlyChanges [.links, .out] s t ∧ (link t n).rxSeq = (l.rxSeq + 1) % 2 ^ 32
        ∧ (l.keyWait = [] → t.out = s.out) ∧ (link t n).fecCorr = satAdd l.fecCorr f.fecCorr ∧ kept t ∧ (link t n).rxPhase = f.keyPhase ∧ (∀ m : Nat, m ≠ n → link t m = link s m)
        ∧ (∀ g : Segment, f.segments = [g] → g.first = true → g.last = true → Tab.getD (link t n).freed g.cls.toNat 0 =
            (Tab.getD l.freed g.cls.toNat 0 + (g.bytes + 63) / 64) % 2 ^ 32)) ∧
      (f.seq.toNat ≠ l.rxSeq → ∀ c ∈ [Instr.dataFrame f, .timeFrame f x], ∃ t, exec c s = .next t ∧ OnlyChanges [.links, .out] s t
        ∧ (link t n).rxSeq = l.rxSeq ∧ (link t n).retry = l.retry ∧ t.out = s.out ++ nak) ∧
      (∃ t, exec (.idleFrame f) s = .next t ∧ OnlyChanges [.links, .out] s t ∧ (link t n).rxSeq = l.rxSeq ∧ kept t
        ∧ (l.keyWait = [] → t.out = s.out)
        ∧ ((l.retry.filter (fun q => !seqLe q f.ack.toNat)).length < 256 → (link t n).keyWait = [])
        ∧ (∀ m : Nat, m ≠ n → link t m = link s m)
        ∧ ∀ (i : Nat) (v : Word), f.credits[i]? = some v → i < 3 → Tab.getD (link t n).granted i 0 =
            if newer 32 v.toNat (Tab.getD l.granted i 0) then v.toNat else Tab.getD l.granted i 0) ∧
      (let again := (l.retry.filter (fun q => !seqLe q f.ack.toNat)).filter (fun q => seqLe f.seq.toNat q)
       ∃ t, exec (.nakFrame f) s = .next t ∧ OnlyChanges [.links, .out] s t ∧ (link t n).rxSeq = l.rxSeq ∧ kept t
        ∧ (l.keyWait = [] → (link t n).replay = satAdd l.replay (sent again.length) ∧ (link t n).txc = l.txc + sent again.length
          ∧ t.out = s.out ++ (if again = [] ∨ can again.length = false then [] else [.replay n (txHdr s n f.seq.toNat)]))) ∧
      (l.rekeyAt.isSome = true → p = .rekeyConfirm true → ∃ t, exec (.keyFrame f p) s = .next t ∧ OnlyChanges [.links, .out] s t
        ∧ (link t n).keyPhase = !l.keyPhase ∧ (link t n).txc = 0 ∧ (link t n).rekeyAt = none ∧ (link t n).rekeys = satInc l.rekeys
        ∧ (link t n).rxSeq = l.rxSeq) ∧
      (p = .rekey true → ∃ t, exec (.keyFrame f p) s = .next t ∧ OnlyChanges [.links, .out] s t ∧ (link t n).twoKeys = true
        ∧ (link t n).rekeyAt = l.rekeyAt ∧ (link t n).rxSeq = l.rxSeq
        ∧ (l.keyWait = [] → can 1 = true → (l.retry.filter (fun q => !seqLe q f.ack.toNat)).length < 256 →
            ∃ h : TxHdr, t.out = s.out ++ [.key n h .rekeyConfirm])) ∧
      (f.seq.toNat = l.rxSeq → n = 15 + x.plane.toNat → s.repro.planes = [] →
        let o : Int := (((x.t2.toNat : Int) - x.t1.toNat) - ((x.t4.toNat : Int) - x.t3.toNat)) / 2
        ∃ t, exec (.timeFrame f x) s = .next t ∧ (link t n).rxSeq = (l.rxSeq + 1) % 2 ^ 32 ∧ t.repro.lastExchange = some s.tb
          ∧ t.repro.offset = BitVec.ofInt 16 o
          ∧ (s.repro.stepped = false → t.tb = ((s.tb : Int) + o).toNat ∧ t.repro.stepped = true ∧ t.repro.steps = satInc s.repro.steps)
          ∧ (s.repro.stepped = true → t.tb = s.tb ∧ t.repro.slewLeft = o ∧ (-1 ≤ o → o ≤ 1 → t.repro.aligned = true))))

/-- EGRESS_DISPATCH of an UP link sends the packet that R332 picks, where it may leave and the retry buffer has room for its
frames: the packet leaves from the link's next sequence number, which moves on by the frames it takes, and each of them is
kept. Without such a packet one IDLE frame goes out where frames may leave. A session whose count has reached 2^31 is rekeyed
first (the model's choice of log entry 216), and on a link without a session nothing changes. SHAPER_REFILL_TICK, at a multiple of 625 tb that has not been served,
first applies staged values whose tick has come and then gives every shaped slot 1 µs of its rate, up to its depth, and no
other bucket (without telemetry, whose samples come first). SHAPER_COMMIT is RETRY_LATER while a commit is pending, its settings kept, and
otherwise sets the next multiple of 625 tb after it as its tick. (12 R326, 12 R329, 12 R332, 12 R336, 12 R337, 12 R339, 17
R442) -/
def Obligations.EgressAndShaper : Prop :=
  ∀ (n : LinkId) (w : CtlWrite) (s : State),
    let k := n.toNat
    let l := link s k
    (l.state = 2 → l.txc < 2 ^ 31 → ∀ q : Queued, nextPacket s k = some q → podLapsed s q.pkt = false → maySend s q.pkt = true →
      l.retry.length + packetFrames q ≤ 256 → txRoom s k (packetFrames q) = true →
      let h := txHdr s k l.txSeq
      ∃ t, exec (.egressDispatch n) s = .next t ∧ OnlyChanges [.sched, .near, .rma, .links, .out] s t
        ∧ t.out = s.out ++ [match q.pkt with
            | .time => .time k h s.tb
            | p => .packet k h (stampFirst s p)] ∧ (link t k).txSeq = (l.txSeq + packetFrames q) % 2 ^ 32
        ∧ (link t k).retry = l.retry ++ (List.range (packetFrames q)).map (fun i => (l.txSeq + i) % 2 ^ 32)
        ∧ (link t k).queue = dropFirst q l.queue ∧ (link t k).state = 2) ∧
    (l.state = 2 → l.txc < 2 ^ 31 → (nextPacket s k = none ∨ ∃ q : Queued, nextPacket s k = some q ∧ podLapsed s q.pkt = false
        ∧ maySend s q.pkt = true ∧ 256 < l.retry.length + packetFrames q) →
      (mayEmit s = true → ∃ t, exec (.egressDispatch n) s = .next t ∧ OnlyChanges [.links, .out] s t
        ∧ t.out = s.out ++ [.idle k (txHdr s k 0)] ∧ link t k = { l with txc := l.txc + 1 } ∧ ∀ m : Nat, m ≠ k → link t m = link s m)
      ∧ (mayEmit s = false → exec (.egressDispatch n) s = .next s)) ∧
    (l.state = 2 → 2 ^ 31 ≤ l.txc → l.rekeyAt = none → mayEmit s = true → ∃ t, exec (.egressDispatch n) s = .next t
      ∧ OnlyChanges [.sched, .near, .rma, .links, .out] s t ∧ (link t k).rekeyAt = some s.tb) ∧
    (l.state ≠ 2 → l.state ≠ 4 → exec (.egressDispatch n) s = .next s) ∧
    (s.maint.pwrgd = true → s.links.refillAt / 625 < s.tb / 625 → s.links.telEn = false →
      let live := if s.links.pending.elim false (fun t => decide (t ≤ s.tb)) then s.links.staged else s.links.live
      (live.slots.map (fun e => e.1)).Nodup →
      ∃ t, exec .shaperRefillTick s = .next t ∧ OnlyChanges [.links] s t ∧ t.links.live = live ∧ t.links.refillAt = s.tb
        ∧ t.links.pending = (if s.links.pending.elim false (fun t => decide (t ≤ s.tb)) then none else s.links.pending)
        ∧ (∀ e ∈ live.slots, e.2.rate ≠ 0 → e.1 % 256 ≠ 0 →
            Tab.getD t.links.tokens e.1 0 = min (e.2.depth.toNat : Int) (Tab.getD s.links.tokens e.1 0 + e.2.rate.toNat))
        ∧ (∀ j : Nat, (∀ e ∈ live.slots, e.1 = j → e.2.rate = 0 ∨ e.1 % 256 = 0) →
            Tab.getD t.links.tokens j 0 = Tab.getD s.links.tokens j 0)) ∧
    (Commands w false [0, 1] 0 s → exec (.shaperCommit w) s = .next { s with links :=
      if s.links.pending.isSome then { s.links with code := codeOf .retryLater }
      else { s.links with telEn := ctlSetting w 2 s.links.telEn, code := 0x00, pending := some ((s.tb / 625 + 1) * 625) } })

/-- WORK_ITEM_POST arms the start schedule; the item waits with firmware while its cluster is not bound to its context, and a
cluster bound to it that waits at WAITWQ with its claim and an empty ring takes it: its bytes are in the ring, what
firmware writes into the mailbox before it is there, the consumer index moves on and register 15 holds the ring slot's
address. A channel wait whose time is up leaves its register
0 and no wait. A region barrier with scope 0 at which every participant has arrived takes them out of its arrivals and
ends their waits; with scope 1 the region is entered for the die barrier, which releases the participants of every region
of the partition once they all are. CHANNEL_REARM of a broken channel without a work item gives it its credits back,
empties it and restarts its counts; the queue pair of a POD channel that stands in ERROR is READY again. Other clusters keep their state at the commands on one cluster. (01 R25, 01 R26, 03
R69, 03 R83, 03 R84, 03 R87, 13 R351, 18 R455) -/
def Obligations.WorkItemAndBarrierCommands : Prop :=
  ∀ (cl : ClusterId) (i : WorkItem) (ch : BitVec 5) (a : BitVec 4) (c0 count t0 : Nat) (cr : Bool) (k : Chan) (r : RegionId) (p : PartId) (ctx : FnId)
    (id : Byte) (s : State),
    let n := cl.toNat
    let x := cluster s n
    let own := n * 64 + i.ctx.toNat
    let others (t : State) : Prop := ∀ m : Nat, m ≠ n → cluster t m = cluster s m
    let key (scope : Nat) := ctx.toNat * 1024 + scope * 256 + id.toNat
    let released (t : State) (scope : Nat) (ps : List Nat) : Prop :=
      Tab.getD t.sched.arrivals (key scope) [] = (Tab.getD s.sched.arrivals (key scope) []).filter (fun m => !ps.contains m)
        ∧ (∀ m ∈ ps, m ∈ Tab.getD s.sched.arrivals (key scope) [] → (cluster s m).ctx = some ctx.toNat →
            (∃ b sc, (cluster s m).wait = .barrier b sc) → (cluster t m).wait = .none)
        ∧ ∀ m : Nat, m ∉ ps → cluster t m = cluster s m
    (formeServes s = true → hasProgram x = true → partOfRegion s (n / 16) = some i.part.toNat → partOfCtx s i.ctx.toNat = some i.part.toNat →
      i.bytes.length = 64 → batchOk s i = true → s.maint.phase ≠ 3 → ∃ t, exec (.workItemPost cl i) s = .next t ∧ OnlyChanges [.maint, .clusters, .sched, .req] s t ∧ others t
        ∧ t.maint.armed.isSome = true
        ∧ (x.ctx ≠ some i.ctx.toNat → Tab.getD t.sched.waiting own [] = Tab.getD s.sched.waiting own [] ++ [i])
        ∧ (x.ctx = some i.ctx.toNat → x.moving = none → (ctxOf s i.ctx.toNat).pastEnd = false → x.wait = .workItem → x.quiesce = false →
            claimed s n = true → x.wqItems = [] → x.wqProd = x.wqCons → Tab.getD s.sched.waiting own [] = [] →
            (cluster t n).item = some i ∧ (cluster t n).wqCons = x.wqCons + 1 ∧ (cluster t n).wait = .none
              ∧ (i.mail = [] → (cluster t n).mailbox = Mem.store x.mailbox (x.wqProd % 64 * 64) i.bytes)
              ∧ (∀ e : Nat × List Byte, i.mail = [e] → 0x1000 ≤ e.1 → e.1 + e.2.length ≤ 0x10000 →
                  (cluster t n).mailbox = Mem.store (Mem.store x.mailbox e.1 e.2) (x.wqProd % 64 * 64) i.bytes)
              ∧ areg (cluster t n) 15 = BitVec.ofNat 32 (0x01000000 + x.wqCons % 64 * 64))) ∧
    (x.moving = none → x.wait = .channel a c0 count cr (some t0) → t0 ≤ s.tb → ∃ t, exec (.waitchTimeout cl) s = .next t
      ∧ OnlyChanges [.clusters, .sched, .req] s t ∧ others t ∧ (cluster t n).wait = .none ∧ (cluster t n).aregs = Tab.put x.aregs a.toNat 0
      ∧ (cluster t n).pc = x.pc ∧ (cluster t n).item = x.item) ∧
    (participants s r.toNat ≠ [] → (∀ m ∈ participants s r.toNat, m ∈ Tab.getD s.sched.arrivals (key 0) []) →
      ∃ t, exec (.regionBarrierRelease r ctx id) s = .next t ∧ OnlyChanges [.clusters, .sched, .req] s t ∧ released t 0 (participants s r.toNat)) ∧
    (participants s r.toNat ≠ [] → (∃ m ∈ participants s r.toNat, m ∉ Tab.getD s.sched.arrivals (key 0) []) →
      (∀ m ∈ participants s r.toNat, m ∈ Tab.getD s.sched.arrivals (key 1) []) → ∃ t, exec (.regionBarrierRelease r ctx id) s = .next t
        ∧ OnlyChanges [.sched] s t ∧ t.sched.arrivals = s.sched.arrivals
        ∧ r.toNat ∈ Tab.getD t.sched.dieRegions (ctx.toNat * 256 + id.toNat) []) ∧
    (regionsOf s p.toNat ≠ [] → (∀ g ∈ regionsOf s p.toNat, g ∈ Tab.getD s.sched.dieRegions (ctx.toNat * 256 + id.toNat) []) →
      ∃ t, exec (.dieBarrierRelease p ctx id) s = .next t ∧ OnlyChanges [.clusters, .sched, .req] s t
        ∧ Tab.getD t.sched.dieRegions (ctx.toNat * 256 + id.toNat) [] = [] ∧ released t 1 ((regionsOf s p.toNat).map (participants s)).flatten) ∧
    (channel s n ch.toNat = some k → k.broken.isSome = true → x.item = none → ∃ t, exec (.channelRearm cl ch) s = .next t
      ∧ OnlyChanges [.clusters, .near, .rma] s t ∧ others t
      ∧ (match k.entry.peer with
          | .pod nq _ _ _ => (∀ y : Qp, qpOf s nq.toNat = some y →
              (y.ready = true → t.rma = s.rma) ∧ (y.ready = false → ∃ z : Qp, qpOf t nq.toNat = some z ∧ z.ready = true ∧ z.wrs = []))
            ∧ ∀ j : Nat, j ≠ nq.toNat → qpOf t j = qpOf s j
          | _ => t.rma = s.rma)
      ∧ channel t n ch.toNat = some { entry := k.entry, credits := if k.entry.send then k.entry.slots else 0, queue := [], slot := 0
                                      broken := none, ahead := [], order := 0 }
      ∧ t.near = { s.near with returned := Tab.del s.near.returned (n * 32 + ch.toNat), received := Tab.del s.near.received (n * 32 + ch.toNat) })

/-- A fault of a cluster with a program stops it: its press is empty, its item ends with INTEGRITY, STATE is FAULTED,
CLUSTER_FAULT holds the cause (3 an uncorrectable error, 4 the press) and the command index, and bit 12 of DEV_ERR sets.
The next chunk of an open stream from the plate or the cache, where it lies in bounds, may be read and is read whole, goes
to its ring slot and becomes visible, the last one in order. Once every item of a segment has ended, each of its clusters
gives its item up; where no item of a request's rows failed, its saturations exceed the layer's threshold and the layer is
widened, the first run is followed by a re-run at level 1; otherwise, the colophon events of its ATTENDs wait in the
step's record for its commit and the digest entries of its rows are added to LD.
A FAULTED rank at a checkpoint of a region with a spare moves to it: the logical map names the spare position, the region
has no spare, REPRO_SUBST counts and the old cluster is RETIRED. (03 R67, 03 R80, 03 R90, 03 R91, 04 R115, 04 R116, 04
R117, 14 R367, 14 R368, 14 R376, 17 R448) -/
def Obligations.FaultChunkAndSegmentCommands : Prop :=
  ∀ (cl : ClusterId) (ecc : Bool) (id : BitVec 5) (data : List Byte) (st : Stream) (g : SegmentRef) (es : List Ended) (m : NumericsSect) (w : RowRef)
    (rec : Rec) (r : RegionId) (pos : BitVec 4) (q : Nat) (s : State),
    let n := cl.toNat
    let x := cluster s n
    (hasProgram x = true → ∃ t, exec (.clusterFault cl ecc) s = .next t ∧ OnlyChanges [.dev, .maint, .clusters, .req, .rma, .links, .out] s t
      ∧ (∀ k : Nat, k ≠ n → cluster t k = cluster s k) ∧ bit t.dev.err 12 = true
      ∧ cluster t n = { x with
          press := [], state := 6, wait := .none, moving := none, item := none, ended := some .integrity, chain := false, live := [], streams := []
          faultIndex := BitVec.ofNat 14 x.pc, faultCause := if ecc then 3 else 4
          done := match x.item with
            | some i => x.done ++ [{ item := i, code := codeOf .integrity, sat := x.sat, dig := x.dig, fallbacks := x.fallbacks }]
            | none => x.done }) ∧
    (Tab.find x.streams id.toNat = some st → (st.space = 3 ∨ st.space = 5) → st.slug = false → x.moving = none → st.chunk ≠ 0 →
      st.next * st.chunk < st.total → st.visible.length < st.ringLen / st.chunk →
      let p := (partOfRegion s (n / 16)).getD 0
      let rs := cutRanges st.ranges (st.next * st.chunk) (min st.chunk (st.total - st.next * st.chunk))
      (∀ r ∈ rs, rangeOk s n p st.space false r.1 r.2 = .ok) → rangesOutcome s p (rs.map (fun r => (st.space, r))) .good = .good →
      ∃ t, exec (.streamChunkArrival cl id ⟨data, .good⟩) s = .next t
        ∧ (∀ k : Nat, k ≠ n → cluster t k = cluster s k)
        ∧ ∃ bs : List Byte, (cluster t n).case_ = Mem.store x.case_ (st.ringStart + st.next % (st.ringLen / st.chunk) * st.chunk) bs
          ∧ ∃ u : Stream, Tab.find (cluster t n).streams id.toNat = some u ∧ u.next = st.next + 1 ∧ u.visible = st.visible ++ [bs]
            ∧ u.taken = st.taken ∧ u.ranges = st.ranges ∧ u.chunk = st.chunk ∧ u.bad = st.bad) ∧
    (segmentItems s g = some es → g.clusters.Nodup → ∃ t, exec (.segmentEnd g) s = .next t ∧ OnlyChanges [.clusters, .req, .rma, .links, .out] s t
      ∧ (∀ k ∈ g.clusters, (cluster t k.toNat).done = (cluster s k.toNat).done.eraseP (ofSegment g)
          ∧ (cluster t k.toNat).state = (cluster s k.toNat).state)
      ∧ (∀ k : Nat, (∀ c ∈ g.clusters, c.toNat ≠ k) → cluster t k = cluster s k)
      ∧ (s.forme.committed.bind (fun c => Tab.find c.numerics g.part.toNat) = some m → g.rows = [w] → failureOf es w.req = none →
          recFind s w.req = some rec →
          let sums := satSums es w.rows
          let at_ := ((g.positions.find? (fun e => e.1 == w.req)).map (fun e => e.2)).getD []
          let exceeds := overThreshold m g.layer sums = true
          (g.level = 0 → exceeds → widenOn m g.layer = true → ∃ rec' : Rec, recFind t w.req = some rec' ∧ (g.layer, g.segment, 1) ∈ rec'.reruns
            ∧ rec'.events = rec.events ∧ rec'.stepEvents = rec.stepEvents ∧ rec'.ld = rec.ld) ∧
          (¬ exceeds → ∃ rec' : Rec, recFind t w.req = some rec' ∧ (g.layer, g.segment, g.level) ∉ rec'.reruns
            ∧ rec'.ld = (ldRows g.layer es w.rows at_ rec).ld ∧ ∀ e ∈ fallbackEvents g rec es at_, e ∈ rec'.stepEvents))) ∧
    (Tab.find s.repro.lmap (r.toNat * 16 + pos.toNat) = some q → q ≠ 15 → fullGeom s = false → s.repro.spare.contains r.toNat = true →
      (cluster s (16 * r.toNat + q)).state = 6 → checkpoint s (16 * r.toNat + q) = true → ∃ t, exec (.rankMoveToSpare r pos) s = .next t
        ∧ OnlyChanges [.maint, .clusters, .sched, .repro, .req, .near] s t
        ∧ t.repro = { s.repro with
            lmap := Tab.put s.repro.lmap (r.toNat * 16 + pos.toNat) 15, spare := s.repro.spare.filter (fun g => g != r.toNat)
            subst := satInc s.repro.subst }
        ∧ (cluster t (16 * r.toNat + q)).state = 8 ∧ (cluster t (16 * r.toNat + q)).ctx = none
        ∧ (cluster t (16 * r.toNat + q)).done = (cluster s (16 * r.toNat + q)).done
        ∧ t.maint.claimWait = s.maint.claimWait.filter (fun c => c != 16 * r.toNat + q)
        ∧ ∀ k : Nat, k ≠ 16 * r.toNat + q → k ≠ 16 * r.toNat + 15 → cluster t k = cluster s k)

/-- Power-good starts a cold start with CAUSE 0x1: nothing on chip is left, DEV_IDENT holds the straps, and the boot is in
START where its checks pass and in RECOVERY where they do not. Power loss leaves the board store alone. A failed boot of a
cold start leaves RECOVERY, and PERST# deasserted is just that. SHUTDOWN is DENIED outside RUN or with a record in use;
otherwise the device falls silent, PHASE is SHUTDOWN and a forme is unloaded. Each self-test slice counts; a failing one
sets its bit of SLICE_FAIL and, the first of them, bit 15 of DEV_ERR; while another slice fits the budget the shutdown
goes on, and otherwise the record is written and the governed stop begins: PHASE is STOPPING, commands are issued no more,
the ballast is on and the ramp follows, one step at a time (IdleStepIsTick). (15 R390, 15
R392, 18 R458, 18 R459, 18 R466, 18 R468, 18 R469, 18 R472, 19 R478, 17 R448, 17 R442) -/
def Obligations.PowerAndShutdownCommands : Prop :=
  ∀ (b : BoardInputs) (w : CtlWrite) (failed : Bool) (es : List RepairEntry) (s : State),
    ((s.maint.pwrgd = false ∨ s.maint.board = none) → ∃ t, exec (.pwrgdAssert b) s = .next t
      ∧ t.maint.pwrgd = true ∧ t.maint.everReady = false ∧ t.maint.lastReset = Tmr.all 0x11 ∧ t.maint.board = some b
      ∧ t.dev.ident = Tmr.all (BitVec.ofNat 32 (b.tray.toNat * 16 + b.slot.toNat)) ∧ t.dev.ready = false
      ∧ t.forme = {} ∧ t.clusters = [] ∧ t.sched = {} ∧ t.req = {} ∧ t.pair = {} ∧ t.rma = {} ∧ t.links = {} ∧ t.codec = {}
      ∧ (bootPasses b s.sec.store = true → t.sec.boot = 1 ∧ t.maint.phase = 0)
      ∧ (bootPasses b s.sec.store = false → t.sec.boot = 2 ∧ t.maint.phase = 4)) ∧
    (∃ t, exec .pwrgdDeassert s = .next t ∧ t.maint.pwrgd = false ∧ t.maint.perst = s.maint.perst ∧ t.maint.board = none
      ∧ t.sec = { ({} : Sec) with store := s.sec.store } ∧ t.dev = {} ∧ t.host = {} ∧ t.forme = {} ∧ t.codec = {} ∧ t.tier = {} ∧ t.clusters = []
      ∧ t.sched = {} ∧ t.repro = {} ∧ t.req = {} ∧ t.pair = {} ∧ t.near = {} ∧ t.rma = {} ∧ t.links = {} ∧ t.tb = 0) ∧
    (s.maint.pwrgd = true → s.maint.phase = 0 → s.dev.ready = false → bit s.maint.lastReset.maj 4 = true →
      exec .bootFailure s = .next { s with sec := { s.sec with boot := 2 }, maint := { s.maint with phase := 4 } }) ∧
    exec .perstDeassert s = .next { s with maint := { s.maint with perst := false } } ∧
    (Commands w true [0, 1, 2] 1 s → s.maint.busy = false → ∃ t, exec (.shutdown w) s = .next t ∧
      if s.maint.phase = 1 ∧ (∀ e ∈ s.req.recs, e.2.state = 0 ∨ e.2.state = 8) then
        t.maint.silent = true ∧ t.maint.shutdownBegun = true ∧ t.maint.phase = 2 ∧ t.maint.busy = true ∧ t.maint.slices = 0
          ∧ (s.forme.committed ≠ none → t.forme.committed = none ∧ t.forme.state = 0 ∧ t.sec.dataKeys = false)
          ∧ (s.forme.committed = none → OnlyChanges [.maint] s t)
      else t = { s with maint := { s.maint with code := codeOf .denied } }) ∧
    (s.maint.phase = 2 → ∃ t, exec (.selftestSliceEnd failed es) s = .next t ∧ OnlyChanges [.dev, .maint, .tier, .clusters, .free, .out] s t
      ∧ t.maint.slices = s.maint.slices + 1
      ∧ (failed = true → t.maint.stFailed = s.maint.stFailed + 1
          ∧ t.maint.sliceFail = s.maint.sliceFail ||| BitVec.ofNat 64 (2 ^ min s.maint.slices 27)
          ∧ (s.maint.stFailed = 0 → bit t.dev.err 15 = true))
      ∧ (failed = false → t.maint.stFailed = s.maint.stFailed ∧ t.maint.sliceFail = s.maint.sliceFail ∧ t.dev = s.dev)
      ∧ t.maint.stRun = s.maint.stRun + 1
      ∧ if s.maint.slices + 1 < 61 ∧ (s.maint.slices + 2) * 40 ≤ selftestBudget s then t.maint.phase = 2 ∧ t.maint.shutdownDone = s.maint.shutdownDone
        else t.maint.phase = 3 ∧ t.maint.shutdownDone = s.maint.shutdownDone ∧ t.maint.after = .powerOff ∧ t.maint.busy = s.maint.busy
          ∧ t.maint.ballast = true ∧ t.maint.claims = s.maint.claims ∧ t.maint.claimWait = [] ∧ t.maint.armed = none
          ∧ t.maint.stops = s.maint.stops ∧ (∀ n : Nat, (cluster t n).press = [])
          ∧ ∃ r, t.maint.record = some r ∧ r.run = s.maint.stRun + 1 ∧ r.failed = t.maint.stFailed ∧ r.sliceFail = t.maint.sliceFail)

/-- Below 1,760 a sensor reading is only held, with its peak; from 1,760 on the trip drives THERMTRIP#, records fatal cause
0x3 and begins the governed stop, in which the device holds in STOPPING; a reading of 1,520 or less ends the hold with a reset of CAUSE 0x5, a
warm one, or a cold one where the shutdown had begun, once the ramp has ended. WATCHDOG and BRIDGE record cause 0x4 and 0x5
with the tick; in RUN the governed stop begins and a warm reset of CAUSE 0x4 follows its ramp (IdleStepIsTick), at once where no
claim and no port step is left; during a stop nothing more happens. The next rank is released at S + 160 × k: its clusters
hold claims. After the schedule, the waiting cluster of the lowest index gets a claim, one step in 16 tb, and a cluster
idle for 40,000 tb gives its claim up while none waits. (17 R448, 17 R451, 18 R453, 18 R454, 18 R455, 18 R456, 18 R460, 18
R463, 18 R464, 18 R465, 15 R409) -/
def Obligations.FatalAndGovernorCommands : Prop :=
  ∀ (temp : BitVec 16) (cl : ClusterId) (cold : Bool) (t0 : Nat) (m : ClusterId) (s : State),
    let k := m.toNat
    let peak := if s.maint.tempPeak.toNat < temp.toNat then temp else s.maint.tempPeak
    let recorded (t : State) (cause : Nat) : Prop := t.maint.fatalPin = true ∧ t.dev.fatal = true ∧ bit t.dev.err 31 = true
      ∧ (bit s.maint.fatal 31 = false → t.maint.fatal = BitVec.ofNat 32 (2 ^ 31 + cause) ∧ t.maint.fatalTb = BitVec.ofNat 64 s.tb)
      ∧ (bit s.maint.fatal 31 = true → t.maint.fatal = s.maint.fatal ||| 0x40000000 ∧ t.maint.fatalTb = s.maint.fatalTb)
    let fatal (c : Instr) (cause : Nat) : Prop :=
      (s.maint.phase = 3 → ∃ t, exec c s = .next t ∧ OnlyChanges [.dev, .maint, .out] s t ∧ recorded t cause
        ∧ t.maint.phase = 3 ∧ t.maint.after = s.maint.after ∧ t.maint.lastReset = s.maint.lastReset) ∧
      (s.maint.phase = 1 → s.maint.everReady = true → s.maint.shutdownBegun = false → unlockStaged s = false → bit s.maint.fatal 31 = false →
        ∃ t, exec c s = .next t ∧ t.maint.fatal = BitVec.ofNat 32 (2 ^ 31 + cause) ∧ t.maint.fatalTb = BitVec.ofNat 64 s.tb
          ∧ t.dev.ready = false ∧ bit t.dev.err 31 = true ∧
          if s.maint.claims = [] ∧ s.maint.portSteps = 0 then t.maint.lastReset = Tmr.all 0x24 ∧ t.maint.phase = 0 ∧ t.dev.fatal = false
            ∧ t.maint.stops = satInc s.maint.stops ∧ t.maint.claims = [] ∧ t.maint.after = .none
          else OnlyChanges [.dev, .maint, .tier, .clusters, .free, .out] s t ∧ recorded t cause ∧ t.maint.phase = 3
            ∧ t.maint.after = .reset 4 false true ∧ t.maint.ballast = true ∧ t.maint.claims = s.maint.claims
            ∧ t.maint.portSteps = s.maint.portSteps ∧ t.maint.stops = s.maint.stops ∧ t.maint.claimWait = [] ∧ t.maint.armed = none
            ∧ t.maint.silent = true ∧ ∀ n : Nat, (cluster t n).press = [])
    (s.maint.pwrgd = true → fatal .watchdog 4 ∧ fatal .bridge 5) ∧
    (s.maint.pwrgd = true → temp.toNat < 1760 →
      exec (.thermalTrip temp) s = .next { s with maint := { s.maint with tempNow := temp, tempPeak := peak } }) ∧
    (s.maint.pwrgd = true → 1760 ≤ temp.toNat → s.maint.phase = 1 → ∃ t, exec (.thermalTrip temp) s = .next t
      ∧ OnlyChanges [.dev, .maint, .tier, .clusters, .free, .out] s t ∧ recorded t 3 ∧ t.maint.thermtripPin = true ∧ t.maint.silent = true
      ∧ t.maint.phase = 3 ∧ t.maint.after = .thermalHold s.maint.shutdownBegun ∧ t.maint.tempNow = temp ∧ t.maint.tempPeak = peak
      ∧ t.maint.ballast = true ∧ t.maint.claims = s.maint.claims ∧ t.maint.stops = s.maint.stops
      ∧ t.maint.claimWait = [] ∧ t.maint.armed = none ∧ ∀ n : Nat, (cluster t n).press = []) ∧
    (s.maint.after = .thermalHold cold → 1520 < temp.toNat →
      exec (.thermalHoldEnd temp) s = .next { s with maint := { s.maint with tempNow := temp } }) ∧
    (s.maint.after = .thermalHold cold → temp.toNat ≤ 1520 → unlockStaged s = false → s.maint.everReady = true → s.maint.phase = 3 →
      s.maint.shutdownBegun = cold → s.maint.ballast = true → (s.maint.claims ≠ [] ∨ s.maint.portSteps ≠ 0) →
      ∃ t, exec (.thermalHoldEnd temp) s = .next t ∧ OnlyChanges [.dev, .maint] s t ∧ t.dev = { s.dev with ready := false }
        ∧ t.maint = { s.maint with tempNow := temp, after := .reset 5 cold true }) ∧
    (s.maint.after = .thermalHold cold → temp.toNat ≤ 1520 → unlockStaged s = false → s.maint.everReady = true → s.maint.phase = 3 →
      s.maint.shutdownBegun = cold → (s.maint.ballast = false ∨ (s.maint.claims = [] ∧ s.maint.portSteps = 0)) →
      ∃ t, exec (.thermalHoldEnd temp) s = .next t ∧ t.maint.after = .none ∧ t.dev.ready = false
        ∧ (cold = true → t.maint.lastReset = Tmr.all 0x15 ∧ t.forme = {} ∧ t.clusters = [])
        ∧ (cold = false → t.maint.lastReset = Tmr.all 0x25 ∧ t.maint.phase = 0 ∧ t.maint.tempNow = temp)) ∧
    (s.maint.armed = some t0 → s.maint.rank < ranks s → t0 + 160 * s.maint.rank ≤ s.tb → ∃ t, exec .rankRelease s = .next t
      ∧ OnlyChanges [.maint, .clusters, .free] s t ∧ t.maint.rank = s.maint.rank + 1 ∧ t.maint.lastStep = some s.tb
      ∧ (∀ n : Nat, n ∈ t.maint.claims ↔ n ∈ s.maint.claims ∨ n ∈ rankClusters s s.maint.rank)
      ∧ (∀ n : Nat, n ∈ t.maint.claimWait ↔ n ∈ s.maint.claimWait ∧ n ∉ rankClusters s s.maint.rank)
      ∧ ∀ n : Nat, n ∉ rankClusters s s.maint.rank → cluster t n = cluster s n) ∧
    (s.maint.armed ≠ none → ranks s ≤ s.maint.rank → (∀ l : Nat, s.maint.lastStep = some l → l + 16 ≤ s.tb) →
      (k ∈ s.maint.claimWait → (∀ n ∈ s.maint.claimWait, k ≤ n) → ∃ t, exec .claimGrant s = .next t ∧ OnlyChanges [.maint, .clusters, .free] s t
        ∧ t.maint.claims = k :: s.maint.claims.filter (fun n => n != k) ∧ t.maint.claimWait = s.maint.claimWait.filter (fun n => n != k)
        ∧ t.maint.lastStep = some s.tb ∧ ∀ n : Nat, n ≠ k → cluster t n = cluster s n) ∧
      (s.maint.claimWait = [] → Tab.find s.maint.idleSince cl.toNat = some t0 → cl.toNat ∈ s.maint.claims → t0 + 40000 ≤ s.tb →
        ∃ t, exec (.claimRelease cl) s = .next t ∧ OnlyChanges [.maint, .free] s t
          ∧ t.maint.claims = s.maint.claims.filter (fun n => n != cl.toNat) ∧ t.maint.idleSince = Tab.del s.maint.idleSince cl.toNat
          ∧ t.maint.lastStep = some s.tb))

/-- LOAD runs from EMPTY, with STATE VERIFYING; PLATE runs from PLATES to REPLACING; UNLOAD runs from there once every record
is FREE or RETIRED, with STATE UNLOADING, PAIR_STATUS.STATE NONE and the data keys discarded; DRAIN of whole partitions runs from ACTIVE, with
STATE DRAINING, and of anything else is MALFORMED; REPLACE runs once the drain is complete and GEN is not 255; RESUME then
puts STATE back to ACTIVE at once, with the staged NUMERICS and ATTENTION in force. Elsewhere each is DENIED and changes
nothing but CODE, STAGE and its error source; STAGE is 1 for LOAD and 0 for the others (the STAGE of a LOAD outside EMPTY
is a choice, log entry 116). A command that finishes raises vector 0 of the PF where the device may. (02 R56, 02 R57, 02
R58, 02 R61, 02 R63, 02 R64, 02 R65, 17 R442, 16 R430) -/
def Obligations.FormeControlCommands : Prop :=
  ∀ (w : CtlWrite) (s : State), s.forme.running = none →
    let f := s.forme
    let answers (t : State) (c : Status) (stage : BitVec 4) : Prop := OnlyChanges [.dev, .forme, .out] s t
      ∧ t.forme = { f with code := codeOf c, stage := stage, failSect := 0xFFFF, running := none }
      ∧ (s.host.linkUp = true → fenced s = false → t.out = s.out ++ [.msix 0 0])
    let runs (x : FormeCmd) : Forme := { f with running := some x, runLen := f.len.toNat }
    let held := 2 ≤ f.state.toNat ∧ f.state.toNat ≤ 5
    (Commands w false [0, 1, 2, 3, 4, 5] 0 s → ∃ t, exec (.formeLoad w) s = .next t ∧
      if f.state = 0 then t = { s with forme := { runs .load with state := 1 } } else answers t .denied 1) ∧
    (Commands w false [0, 1, 2, 3, 4, 5] 5 s → ∃ t, exec (.plate w) s = .next t ∧
      if held then t = { s with forme := runs .plate } else answers t .denied 0) ∧
    (Commands w false [0, 1, 2, 3, 4, 5] 1 s → ∃ t, exec (.formeUnload w) s = .next t ∧
      if held ∧ ∀ e ∈ s.req.recs, e.2.state = 0 ∨ e.2.state = 8 then OnlyChanges [.sec, .forme, .tier, .pair] s t
        ∧ t.forme = { f with state := 6, running := some .unload } ∧ t.sec = { s.sec with dataKeys := false }
        ∧ t.pair = { s.pair with state := 0 }
      else answers t .denied 0) ∧
    (Commands w false [0, 1, 2, 3, 4, 5] 2 s → ∃ t, exec (.drain w) s = .next t ∧
      if f.state ≠ 3 then answers t .denied 0
      else if wholeParts s = true then OnlyChanges [.forme, .tier, .req] s t
        ∧ t.forme = { runs .drain with state := 4, drained := f.regionMask, drainDone := false }
      else answers t .malformed 0) ∧
    (Commands w false [0, 1, 2, 3, 4, 5] 3 s → ∃ t, exec (.replace w) s = .next t ∧
      if f.state = 4 ∧ f.drainDone = true ∧ f.gen ≠ 255 then t = { s with forme := runs .replace } else answers t .denied 0) ∧
    (Commands w false [0, 1, 2, 3, 4, 5] 4 s → ∃ t, exec (.formeResume w) s = .next t ∧
      if f.state = 4 ∧ f.drainDone = true then OnlyChanges [.dev, .forme, .out] s t ∧ t.dev = s.dev
        ∧ t.forme.state = 3 ∧ t.forme.drained = 0 ∧ t.forme.drainDone = false ∧ t.forme.code = 0x00 ∧ t.forme.stage = 0
        ∧ t.forme.gen = f.gen ∧ t.forme.digest = f.digest ∧ t.forme.nextNumerics = [] ∧ t.forme.nextAttention = []
        ∧ t.forme.committed = f.committed.map (fun c =>
            { c with numerics := overlay c.numerics f.nextNumerics, attention := overlay c.attention f.nextAttention })
      else answers t .denied 0)

/-- When the image of a LOAD is read, the first failed check gives CODE, STAGE and the section and STATE is EMPTY; a DMA
failure counts as stage 2 with MALFORMED; an image that passes is committed: FORME_DIGEST and FORME_BASE are its digest,
GEN and every partition generation are 0, and STATE is ACTIVE where this slot loads no plate and PLATES otherwise. A PLATE
that passes its checks makes its entries of this slot resident and ends with OK; one that fails loads nothing. A REPLACE
that passes, checked against the configuration with what an earlier REPLACE of the same drain has staged, increments GEN,
extends the digest and leaves STATE REPLACING or DRAINING; one that fails leaves the
configuration and STATE. The clear of an unload, once no command is in a press, leaves STATE EMPTY, no configuration, no
RETIRED record and every cluster OFF, a FAULTED one apart (log entry 164). A drain with nothing pending and its regions quiet ends with OK; case and mailbox of their clusters are clear. (02
R57, 02 R58, 02 R59, 02 R61, 02 R63, 02 R64, 02 R65) -/
def Obligations.FormeCompletionCommands : Prop :=
  ∀ (img : FormeImage) (p : PlateImage) (c n : Committed) (e : FormeFail) (s : State),
    let f := s.forme
    let ends (t : State) (code : Status) (stage : Nat) (sect : Nat) : Prop := t.forme.code = codeOf code ∧ t.forme.stage = BitVec.ofNat 4 stage
      ∧ t.forme.failSect = BitVec.ofNat 32 sect ∧ t.forme.running = none
    let fails (r : ImageRead) (code : Status) (stage sect : Nat) (st : BitVec 4) : Prop := ∃ t, exec (.formeImageReadDone r) s = .next t
      ∧ OnlyChanges [.dev, .forme, .out] s t ∧ ends t code stage sect ∧ t.forme.state = st ∧ t.forme.committed = f.committed
      ∧ t.forme.digest = f.digest ∧ t.forme.gen = f.gen ∧ t.forme.resident = f.resident
    (f.running = some .load →
      fails .dmaFailed .malformed 2 0xFFFF 0 ∧
      (fullLoad s img f.runLen = .inl e → fails (.forme img) e.code e.stage e.sect 0) ∧
      (fullLoad s img f.runLen = .inr c → ∃ t, exec (.formeImageReadDone (.forme img)) s = .next t ∧ ends t .ok 0 0xFFFF
        ∧ t.forme.committed = some c ∧ t.forme.digest = img.digest ∧ t.forme.base = img.digest ∧ t.forme.gen = 0
        ∧ t.forme.partGen = c.parts.map (fun x => (x.1, 0))
        ∧ t.forme.state = (if (slotPlates (mySlot s).toNat c).isEmpty then 3 else 2))) ∧
    (f.running = some .plate →
      fails .dmaFailed .malformed 0 0xFFFF f.state ∧
      (plateCheck s p ≠ .ok → fails (.plate p) (plateCheck s p) 0 0xFFFF f.state) ∧
      (plateCheck s p = .ok → ∃ t, exec (.formeImageReadDone (.plate p)) s = .next t ∧ ends t .ok 0 0xFFFF
        ∧ t.forme.committed = f.committed ∧ t.forme.resident = f.resident ++ plateEntries s p)) ∧
    (f.running = some .replace → f.committed = some c →
      fails .dmaFailed .malformed 2 0xFFFF f.state ∧
      (partialLoad s (staged s c) img f.runLen = .inl e → fails (.forme img) e.code e.stage e.sect f.state) ∧
      (partialLoad s (staged s c) img f.runLen = .inr n → ∃ t, exec (.formeImageReadDone (.forme img)) s = .next t ∧ ends t .ok 0 0xFFFF
        ∧ t.forme.gen = f.gen + 1 ∧ t.forme.digest = nextDigest f.digest img.digest ∧ t.forme.base = f.base
        ∧ (t.forme.state = 4 ∨ t.forme.state = 5)
        ∧ t.forme.committed = some { n with numerics := c.numerics, attention := c.attention })) ∧
    (f.running = some .unload → pressesEmpty s = false → exec .unloadClearDone s = .next s) ∧
    (f.running = some .unload → pressesEmpty s = true → ∃ t, exec .unloadClearDone s = .next t ∧ ends t .ok 0 0xFFFF ∧ t.forme.state = 0 ∧ t.forme.committed = none
      ∧ t.forme.digest = 0 ∧ t.req.recs = s.req.recs.filter (fun x => x.2.state != 8) ∧ t.repro.lmap = [] ∧ t.sched.running = false
      ∧ ∀ k : Nat, (cluster t k).state = (if (cluster s k).state = 6 then 6 else 0) ∧ (cluster t k).case_ = [] ∧ (cluster t k).mailbox = []) ∧
    (f.running = some .drain → drainPend s = 0 → drainQuiet s = true → ∃ t, exec .drainComplete s = .next t
      ∧ OnlyChanges [.forme, .tier, .clusters, .sched, .out] s t
      ∧ t.forme = { f with drainDone := true, code := 0x00, stage := 0, failSect := 0xFFFF, running := none }
      ∧ ∀ k : Nat, k / 16 ∈ ((drainParts s).map (regionsOf s)).flatten → (cluster t k).case_ = [] ∧ (cluster t k).mailbox = [])

/-- T1_SCRUB reads the next written granule, counts it in its channel, and moves the cursor past it, back to 0 with one more
pass after the last one; a corrected granule is counted in LPC_CE and written back, and no other channel counts. A refresh
of a good channel sets LPC_REFI and its temperature code, which the spec does not give; refresh management counts in
LPC_RFM. A good channel that fails in RUN is fatal: the governed stop begins and a cold reset with CAUSE 0x4 follows its ramp, at once
where no claim and no port step is left, and nothing of the forme is left.
On a channel that is not good the three do nothing. (07 R187, 07 R188, 07 R190, 07 R205, 18 R460, 18 R463) -/
def Obligations.MemoryUpkeepCommands : Prop :=
  ∀ (g : Nat) (o : Nat) (ch : Fin 48) (ns : Word) (s : State),
    let lpc (t : State) (c : Nat) : Lpc := Tab.getD t.tier.lpc c {}
    let others (t : State) (c : Nat) : Prop := ∀ k : Nat, k ≠ c → lpc t k = lpc s k
    let moved (t : State) : Prop := OnlyChanges [.tier] s t ∧ others t (chanOf s (g / 128))
      ∧ t.tier.scrubAt = (if scrubLast s g then 0 else (g + 1) * 512)
      ∧ t.tier.scrub = (if scrubLast s g then satInc s.tier.scrub else s.tier.scrub) ∧ t.tier.t1 = s.tier.t1 ∧ t.tier.written = s.tier.written
    let x := lpc s (chanOf s (g / 128))
    (s.tier.reserveBad = false → scrubNext s = some g → (∃ t, exec (.t1Scrub .good) s = .next t ∧ moved t ∧ lpc t (chanOf s (g / 128)) = { x with rd := x.rd + 1 })
      ∧ ∃ t, exec (.t1Scrub (.corrected o)) s = .next t ∧ moved t
        ∧ lpc t (chanOf s (g / 128)) = { x with rd := x.rd + 1, ce := satInc x.ce, wr := x.wr + 1 }) ∧
    (chanGood s ch.val = true →
      (∃ t, exec (.refresh ch ns) s = .next t ∧ OnlyChanges [.tier, .free] s t ∧ others t ch.val
        ∧ (∃ v : Byte, lpc t ch.val = { lpc s ch.val with refi := ns, temp := v }) ∧ t.tier = { s.tier with lpc := t.tier.lpc }) ∧
      (∃ t, exec (.refreshManagement ch) s = .next t ∧ OnlyChanges [.tier] s t ∧ others t ch.val
        ∧ lpc t ch.val = { lpc s ch.val with rfm := satInc (lpc s ch.val).rfm } ∧ t.tier = { s.tier with lpc := t.tier.lpc }) ∧
      (s.maint.phase = 1 → unlockStaged s = false → ∃ t, exec (.channelFail ch) s = .next t
        ∧ t.dev.ready = false ∧
        if s.maint.claims = [] ∧ s.maint.portSteps = 0 then t.maint.lastReset = Tmr.all 0x14 ∧ t.forme = {} ∧ t.clusters = [] ∧ t.req = {}
        else t.maint.phase = 3 ∧ t.maint.after = .reset 4 true true ∧ t.maint.ballast = true ∧ t.maint.claims = s.maint.claims
          ∧ t.dev.fatal = true ∧ t.maint.fatalPin = true ∧ ∀ n : Nat, (cluster t n).press = [])) ∧
    (chanGood s ch.val = false → exec (.refresh ch ns) s = .next s ∧ exec (.refreshManagement ch) s = .next s ∧ exec (.channelFail ch) s = .next s)

/-- A T3 fault of a shelve abandons it: its T3 frames are free, the galley stays resident, TIER_T3_ERR counts with bit 6 of
DEV_ERR, and the tick is kept. A resident galley of this serving member whose shelve is wanted is shelved again from 1 ms
after the last fault on, where the state mover has room, a bound area the frames and the tenant's limit the room; before that
tick, or without an area, nothing starts. A shelved galley past its expiry whose frames no recall of either member holds has no SHELVED page any more, and TIER_EXPIRED counts on the
serving member. A shelve whose pages are read whole and whose charge fits the limit then in force leaves only SHELVED latent and thumb pages, counts, and sets the expiry TTL ms
from now. A recall with good tags counts; a tag failure ends the request with INTEGRITY and recalls nothing. (07 R196, 07
R197, 07 R198, 07 R199, 07 R200, 17 R448) -/
def Obligations.ShelfCommands : Prop :=
  ∀ (q : ReqId) (g : Galley) (a : T3Area) (u : Quota) (s : State), galleyOf s q = some g → fenced s = false →
    let frees (t : State) : Prop := ∃ b : T3Area, Tab.find t.tier.t3 g.part.toNat = some b ∧ ∀ f ∈ b.frames, f.2 ≠ q
    let free := freeT3Frames s g.part.toNat
    let n := (shelfContent g).length
    (Tab.find s.tier.t3 g.part.toNat = some a → g.op = .shelving → g.dropAfter = false → g.resume = none →
      (∃ t, exec (.t3Fault q) s = .next t ∧ OnlyChanges [.dev, .tier, .req] s t ∧ galleyOf t q = some { g with op := .idle, faultAt := some s.tb }
        ∧ frees t ∧ t.tier.t3Err = satInc s.tier.t3Err ∧ bit t.dev.err 6 = true) ∧
      (mirrors s g = false → (moverRead g ((shelfContent g).map (fun x => (x.1, x.2.1, x.2.2.1))) .good s) = (true, s) →
        Tab.find s.tier.quotas g.tenant.toNat = some u → u.t3Used + n ≤ u.t3Limit →
        ∃ t, exec (.shelveComplete ⟨q, .good⟩) s = .next t ∧ t.req.shelves = satInc s.req.shelves
        ∧ ∃ g' : Galley, galleyOf t q = some g' ∧ g'.op = .idle ∧ g'.expiry = s.tb + g.rec_.ttl.toNat * 625000 ∧ g'.pausedAt = none
          ∧ g'.drainShelf = false ∧ ∀ l ∈ g'.layer, ∀ p ∈ l.2.pages ++ l.2.thumbs, p.2.state = 4)) ∧
    (g.op = .idle → g.serving = mySlot s → isShelved g = false → shelveWanted s g = true →
      (retryDue s g = false → exec (.shelveRetry q) s = .next s) ∧
      (retryDue s g = true → 0 ∉ s.host.flr → moverOut s < 4096 → Tab.find s.tier.quotas g.tenant.toNat = some u → Tab.find s.tier.t3 g.part.toNat = some a → n ≤ free.length →
        u.t3Used + n ≤ u.t3Limit → ∃ t, exec (.shelveRetry q) s = .next t ∧ OnlyChanges [.tier, .req] s t
          ∧ galleyOf t q = some { g with op := .shelving, shelveSeq := g.shelveSeq + 1 }
          ∧ ∃ b : T3Area, Tab.find t.tier.t3 g.part.toNat = some b ∧ b.frames = (free.take n).foldl (fun t f => Tab.put t f q) a.frames) ∧
      (g.drainShelf = false → retryDue s g = true → Tab.find s.tier.t3 g.part.toNat = none → exec (.shelveRetry q) s = .next s)) ∧
    (g.recalled = true → exec (.galleyExpiry q) s = .next s) ∧
    (isShelved g = true → g.op = .idle → g.resume = none → g.recalled = false → g.expiry ≤ s.tb → g.serving = mySlot s → ∃ t, exec (.galleyExpiry q) s = .next t
      ∧ OnlyChanges [.tier, .req] s t ∧ t.tier.expired = satInc s.tier.expired
      ∧ ∃ g' : Galley, galleyOf t q = some g' ∧ ∀ l ∈ g'.layer, ∀ p ∈ l.2.pages ++ l.2.thumbs, p.2.state ≠ 4) ∧
    (isShelved g = true → s.tb < g.expiry → exec (.galleyExpiry q) s = .next s) ∧
    ((∃ b, g.op = .recalling b) →
      (∃ t, exec (.recallComplete q true) s = .next t ∧ t.req.recalls = satInc s.req.recalls) ∧
      (g.dropAfter = false → ∃ t, exec (.recallComplete q false) s = .next t ∧ OnlyChanges [.req, .rma, .links, .out] s t
        ∧ t.req.recalls = s.req.recalls ∧ galleyOf t q = some { g with op := .idle, resume := none }
        ∧ ∀ r : Rec, recLive s q = some r → ∃ r' : Rec, recFind t q = some r' ∧ Status.integrity ∈ r'.conds))

/-- A ready capsule entry is taken, and a CAPSULE does what the row of its TYPE does. A capsule that fails a check is answered
with the first code: REFUSED for an ADMIT, ENTRY for the others. An ADMIT that passes gets the next identifier: the record
is ADMITTED with its tenant, priority, epoch, deadline and host tag, the anchor keeps its routing, and its ring set has
one more entry taken. A RESUME or CANCEL of a request without a record answers STATE_LOST and of a RETIRED one its STATUS;
a PAUSED one resumes with OK, another cannot; a live one's first cancellation is pending with OK. SESSION_END answers OK
and the session is gone. Answers are posted, or held while the completion ring has no room. (08 R207, 08 R209, 08 R219, 08
R228, 08 R232, 15 R406, 15 R407, 16 R416, 16 R417, 16 R418, 16 R422, 16 R424) -/
def Obligations.CapsuleCommands : Prop :=
  ∀ (x : CapsuleCmd) (s : State), sqReady s x.ring = true → x.entry.kind = 1 →
    let c := x.capsule
    let u := ringUpd x.ring (fun y => { y with sqHead := y.sqHead + 1 }) s
    let took (t : State) : Prop := (ringSet t x.ring).sqHead = (ringSet s x.ring).sqHead + 1
    let posted (t : State) (q : ReqId) (kind : Byte) (code : Status) : Prop := took t ∧ ∃ e : CqEntry, e.hostTag = x.entry.hostTag ∧ e.reqId = q
      ∧ e.kind = kind ∧ e.status = codeOf code ∧ e.sqHead = (ringSet s x.ring).sqHead + 1 ∧ e.commitLen = 0
      ∧ ((∃ i p, Emit.cqEntry x.ring i e p ∈ t.out) ∨ HeldItem.cq e ∈ (ringSet t x.ring).held)
    let q : ReqId := BitVec.ofNat 64 ((myDev s).toNat * 2 ^ 48 + s.req.counter % 2 ^ 48)
    let row : Option Instr := if c.type = 1 then some (.admitCapsule x) else if c.type = 2 then some (.resumeCapsule x)
      else if c.type = 3 then some (.cancelCapsule x) else if c.type = 4 then some (.sessionEnd x) else none
    (∀ i : Instr, row = some i → ∃ t, exec (.capsule x) s = .next t ∧ exec i s = .next t ∧ took t) ∧
    (row = none → ∃ t, exec (.capsule x) s = .next t ∧ posted t 0 2 .malformed) ∧
    (∀ code : Status, capsuleCheck u x = some code → x.dmaOk = true →
      (c.type = 1 → ∃ t, exec (.admitCapsule x) s = .next t ∧ OnlyChanges [.dev, .sec, .host, .out] s t ∧ posted t 0 2 code) ∧
      (c.type = 2 → ∃ t, exec (.resumeCapsule x) s = .next t ∧ OnlyChanges [.dev, .sec, .host, .out] s t ∧ posted t c.reqId 5 code) ∧
      (c.type = 3 → ∃ t, exec (.cancelCapsule x) s = .next t ∧ OnlyChanges [.dev, .sec, .host, .out] s t ∧ posted t c.reqId 5 code) ∧
      (c.type = 4 → ∃ t, exec (.sessionEnd x) s = .next t ∧ OnlyChanges [.dev, .sec, .host, .out] s t ∧ posted t c.reqId 5 code)) ∧
    (capsuleCheck u x = none →
      (c.type = 1 → ∃ t, exec (.admitCapsule x) s = .next t ∧ took t ∧ t.req.counter = (s.req.counter + 1) % 2 ^ 48
        ∧ (ringSet t x.ring).taken = (ringSet s x.ring).taken + 1
        ∧ (∃ a : AnchorInfo, anchorOf t q = some a ∧ a.route = c.routing ∧ a.session = c.session ∧ a.ring = x.ring ∧ a.accepted = false)
        ∧ ∃ r : Rec, recFind t q = some r ∧ r.state = 1 ∧ r.tenant = c.tenant ∧ r.context = x.ring.fn ∧ r.priority = c.priority ∧ r.epoch = c.epoch
          ∧ r.deadline = c.deadline ∧ r.anchor = myDev s ∧ r.hostTag = x.entry.hostTag ∧ r.maxLen = c.body.maxLen.toNat
          ∧ r.admitTb = BitVec.ofNat 64 s.tb ∧ r.view = 1) ∧
      (c.type = 2 ∨ c.type = 3 → recFind s c.reqId = none → ∀ i : Instr, row = some i → ∃ t, exec i s = .next t ∧ posted t c.reqId 5 .stateLost) ∧
      (∀ r : Rec, recFind s c.reqId = some r →
        (c.type = 2 ∨ c.type = 3 → r.state = 8 → ∀ i : Instr, row = some i → ∃ t, exec i s = .next t
          ∧ posted t c.reqId 5 ((statusOf r.status).getD .stateLost)) ∧
        (c.type = 2 → r.state = 5 → ∃ t, exec (.resumeCapsule x) s = .next t ∧ posted t c.reqId 5 .ok
          ∧ ∃ r' : Rec, recFind t c.reqId = some r' ∧ r'.state = 6 ∧ r'.epoch = c.epoch ∧ r'.deadline = c.deadline ∧ r'.ttl = c.body.ttl) ∧
        (c.type = 2 → r.state ≠ 5 → r.state ≠ 8 → ∃ t, exec (.resumeCapsule x) s = .next t ∧ posted t c.reqId 5 .denied) ∧
        (c.type = 3 → r.state ≠ 8 → ∃ t, exec (.cancelCapsule x) s = .next t ∧ posted t c.reqId 5 .ok
          ∧ ∀ a : AnchorInfo, anchorOf s c.reqId = some a → ∃ r' : Rec, recFind t c.reqId = some r' ∧ r'.flags.toNat.testBit 2 = true)) ∧
      (c.type = 4 → ∃ t, exec (.sessionEnd x) s = .next t ∧ posted t 0 5 .ok ∧ Tab.find t.sec.sessions c.session.toNat = none))

/-- An entry that is ready is taken. A NOP posts nothing, and an entry of an unlisted KIND is MALFORMED. HOST_CANCEL posts its
code; of a live request admitted through this context it sets the cancellation pending. SESSION_INIT that passes binds the
tenant and opens the next session, not finished; SESSION_FINISH that passes finishes it; each posts its code, and a
failing one opens nothing. A session not finished for 10 s is discarded. A SHARD that passes runs and waits for its claim,
which is sent at once where pod messages may be sent and is lost where the consumer is excluded; otherwise its code is posted. A failed DMA of an entry leaves it MALFORMED, of a ring puts its ring set in ERROR with bit
16 of DEV_ERR, of a queue pair's ring puts the queue pair in ERROR; of the host tier it is a T3 fault, and of an image
what FORME_IMAGE_READ_DONE says. (14 R384, 15 R404, 15 R405, 15 R406, 16 R413, 16 R417, 16 R418, 16 R423, 16 R429, 16
R435, 07 R198, 11 R320) -/
def Obligations.SessionAndQueueCommands : Prop :=
  ∀ (r : RingRef) (e : SqEntry) (m : SessionInit) (f : SessionFinish) (d : ShardCmd) (session : Word) (q : QpNum) (s : State),
    let took (t : State) (r : RingRef) : Prop := (ringSet t r).sqHead = (ringSet s r).sqHead + 1
    let posted (t : State) (r : RingRef) (tag : DWord) (q : ReqId) (kind : Byte) (code : Status) : Prop := took t r ∧ ∃ e : CqEntry,
      e.hostTag = tag ∧ e.reqId = q ∧ e.kind = kind ∧ e.status = codeOf code ∧ e.sqHead = (ringSet s r).sqHead + 1 ∧ e.commitLen = 0
      ∧ ((∃ i p, Emit.cqEntry r i e p ∈ t.out) ∨ HeldItem.cq e ∈ (ringSet t r).held)
    (sqReady s r = true →
      (e.kind = 0 → ∃ t, exec (.sqNop r e) s = .next t ∧ OnlyChanges [.host] s t ∧ took t r ∧ (ringSet t r).held = (ringSet s r).held) ∧
      (5 < e.kind.toNat → ∃ t, exec (.sqNop r e) s = .next t ∧ OnlyChanges [.host, .out] s t ∧ posted t r e.hostTag 0 5 .malformed) ∧
      (e.kind = 4 → ∃ t, exec (.hostCancel r e) s = .next t ∧ posted t r e.hostTag e.reqId 5 (hostCancelCode r e s)
        ∧ ∀ (x : Rec) (a : AnchorInfo), e.resv = 0 → e.addr = 0 → recFind s e.reqId = some x → x.state ≠ 8 → anchorOf s e.reqId = some a → a.ring.fn = r.fn →
          hostCancelCode r e s = .ok ∧ ∃ x' : Rec, recFind t e.reqId = some x' ∧ x'.flags.toNat.testBit 2 = true) ∧
      (1 ≤ e.kind.toNat → e.kind.toNat ≤ 3 → ∃ t, exec (.dmaFailure (.capsule r e)) s = .next t ∧ OnlyChanges [.host, .out] s t
        ∧ posted t r e.hostTag 0 (if e.kind = 1 then 2 else 5) .malformed)) ∧
    (sqReady s m.ring = true → m.entry.kind = 2 → ∃ t, exec (.sessionInit m) s = .next t
      ∧ posted t m.ring m.entry.hostTag 0 5 (sessionInitCode m s) ∧
      if sessionInitCode m s = .ok then t.sec.tenants = Tab.put s.sec.tenants m.tenant.toNat m.keyId ∧ t.sec.nextSession = s.sec.nextSession + 1
        ∧ t.sec.sessions = Tab.put s.sec.sessions s.sec.nextSession
            { tenant := m.tenant, keyId := m.keyId, finished := false, opened := s.tb, ring := m.ring, high := none, seen := [], outSeq := 0, count := 0 }
      else t.sec.tenants = s.sec.tenants ∧ t.sec.sessions = s.sec.sessions ∧ t.sec.nextSession = s.sec.nextSession) ∧
    (sqReady s f.ring = true → f.entry.kind = 3 → ∃ t, exec (.sessionFinish f) s = .next t ∧ OnlyChanges [.sec, .host, .out] s t
      ∧ posted t f.ring f.entry.hostTag 0 5 (sessionFinishCode f s)
      ∧ t.sec.tenants = s.sec.tenants ∧ t.sec.sessions =
        (if sessionFinishCode f s = .ok then Tab.mod s.sec.sessions f.session.toNat (fun y => { y with finished := true }) else s.sec.sessions)) ∧
    (∀ y : Session, Tab.find s.sec.sessions session.toNat = some y → exec (.sessionTimeout session) s = .next (
      if y.finished = false ∧ y.opened + 10000 * 625000 ≤ s.tb then
        { s with sec := { s.sec with sessions := Tab.del s.sec.sessions session.toNat } } else s)) ∧
    (sqReady s d.ring = true → d.entry.kind = 5 → ∃ t, exec (.shard d) s = .next t ∧ OnlyChanges [.host, .repro, .rma, .links, .free, .out] s t
      ∧ took t d.ring ∧
      if shardCode d s = .ok ∧ excluded s (d.entry.consumer.toNat % 4096) = true then posted t d.ring d.entry.hostTag 0 7 .ok
        ∧ t.repro.claimsLost = satInc s.repro.claimsLost ∧ ∀ y ∈ t.repro.shards, y ∈ s.repro.shards
      else if shardCode d s = .ok then ∃ (l : List ShardRun) (y : ShardRun), t.repro.shards = l ++ [y]
        ∧ l.map (fun x => { x with claim := none }) = s.repro.shards.map (fun x => { x with claim := none })
        ∧ y.ring = d.ring ∧ y.hostTag = d.entry.hostTag ∧ y.shard = d.entry.shardId ∧ y.step = d.entry.step
        ∧ y.consumer = BitVec.ofNat 12 d.entry.consumer.toNat ∧ y.primary = BitVec.ofNat 12 d.entry.primary.toNat
        ∧ (s.rma.queued = [] → podReady s fwQp = true → s.rma.out.length + 1 < 16384 → (∀ x ∈ s.repro.shards, x.claim.isSome = true) →
            y.claim.isSome = true)
      else t.repro = s.repro ∧ posted t d.ring d.entry.hostTag 0 5 (shardCode d s)) ∧
    ((ringSet s r).state = 1 → ∃ t, exec (.dmaFailure (.ring r)) s = .next t ∧ OnlyChanges [.dev, .host, .free] s t
      ∧ (ringSet t r).state = 2 ∧ (ringSet t r).disabling = false ∧ bit t.dev.err 16 = true) ∧
    (∀ y : Qp, qpOf s q.toNat = some y → y.ready = true → qpKind q.toNat ≠ 1 → ∃ t, exec (.dmaFailure (.qpRing q)) s = .next t
      ∧ (∃ y' : Qp, qpOf t q.toNat = some y' ∧ y'.ready = false) ∧ t.rma.qpErr = satInc s.rma.qpErr ∧ bit t.dev.err 9 = true) ∧
    (∃ t, exec (.dmaFailure (.hostTier e.reqId)) s = .next t ∧ exec (.t3Fault e.reqId) s = .next t) ∧
    (∃ t, exec (.dmaFailure .image) s = .next t ∧ exec (.formeImageReadDone .dmaFailed) s = .next t)

/-- On a device that is not fenced. A stage admission that fails a check of the prompt node, or that a peer refuses, is
refused to the anchor; one that passes leaves an ADMITTED record, and the last stage confirms; a member that admits it
holds a galley and an ADMITTED record, and a generation node the record. The last stage's confirmation makes the anchor's
record PREFILL and posts ACCEPTED; the last one of a resume makes it HANDOVER, or PREFILL with a new turn; the last one of
a pause makes it PAUSED and posts it, and once the last of its galleys is shelved it holds their expiry tick. A refusal of an admission makes the anchor's record DRAINING under its code, and once
every live device of the stages has answered that what it took is free, REFUSED is posted and no record is left; at a stage
it leaves neither record nor galley. A resume at a prompt or generation node leaves a RESUMING record. A cancellation
or a retirement of a running request waits at its owner for the boundary; in ADMITTED, PAUSED or RESUMING a cancellation
drops it. The last drop report posts RETIRED and makes the anchor's record RETIRED. (00 R11, 00 R12, 08 R207, 08 R218, 08
R219, 08 R228, 08 R229, 08 R230, 08 R231, 08 R232, 16 R424) -/
def Obligations.StageMessageCommands : Prop :=
  ∀ (m : StageAdmission) (e : Route) (q : ReqId) (c : Status) (stage : Byte) (d : DevId) (rep : DropReport) (w : StageResume) (a : AnchorInfo) (r : Rec) (i : Nat) (s : State),
    fenced s = false →
    let src : StageFrom := { stage := stage, sender := d }
    let out (a : AnchorInfo) : AnchorInfo := { a with released := if a.released.contains d then a.released else a.released ++ [d] }
    let me := (myDev s).toNat
    let tells (t : State) (d : DevId) (x : FwMsg) : Prop := d = myDev s → Emit.fwSelf x ∈ t.out
    let posted (t : State) (q : ReqId) (kind : Byte) (code : Status) (n : Nat) : Prop := ∃ y : CqEntry, y.hostTag = r.hostTag ∧ y.reqId = q
      ∧ y.kind = kind ∧ y.status = codeOf code ∧ y.commitLen = BitVec.ofNat 32 n
      ∧ ((∃ j p, Emit.cqEntry a.ring j y p ∈ t.out) ∨ HeldItem.cq y ∈ (ringSet t a.ring).held)
    let admitted (t : State) : Prop := ∃ x : Rec, recFind t m.req = some x ∧ x.state = 1 ∧ x.tenant = m.tenant ∧ x.stage = m.stage ∧ x.priority = m.priority
      ∧ x.epoch = m.epoch ∧ x.deadline = m.deadline ∧ x.anchor = m.anchor ∧ x.promptLen = m.promptLen.toNat ∧ x.maxLen = m.maxLen.toNat
    let pairOf (z : Route) : Prop := z.pair.toNat = me ∨ z.pair.toNat / 16 * 16 + (z.pair.toNat + 1) % 16 = me
    (m.route[m.stage.toNat]? = some e →
      (e.prompt.toNat = me →
        let own := r12First (admissionCodes m s ++ [if rolesHold s m.epoch e then .ok else .epochStale])
        (own = some c → ∃ t, exec (.stageAdmission m) s = .next t ∧ OnlyChanges [.rma, .links, .out] s t ∧ tells t m.anchor (.refusal m.req c)) ∧
        (own = none → r12First [m.lower, m.upper, m.genAns] = some c → ∃ t, exec (.stageAdmission m) s = .next t
          ∧ OnlyChanges [.rma, .links, .out] s t ∧ tells t m.anchor (.refusal m.req c)) ∧
        (own = none → r12First [m.lower, m.upper, m.genAns] = none → ∃ t, exec (.stageAdmission m) s = .next t ∧ admitted t
          ∧ (m.route.length = m.stage.toNat + 1 → tells t m.anchor (.confirmation m.req m.stage none)))) ∧
      (e.prompt.toNat ≠ me → pairOf e → m.copy = none → (memberAdmit m e s).1 = .ok → ∃ t, exec (.stageAdmission m) s = .next t ∧ admitted t
        ∧ ∃ g : Galley, galleyOf t m.req = some g ∧ g.tenant = m.tenant ∧ g.part = m.part ∧ g.count = 0 ∧ g.op = .idle ∧ g.pausedAt = none) ∧
      (e.prompt.toNat ≠ me → ¬ pairOf e → e.gen.toNat = me → r12First (admissionCodes m s) = none →
        ∃ t, exec (.stageAdmission m) s = .next t ∧ admitted t)) ∧
    (w.adm.route[w.adm.stage.toNat]? = some e → w.takeOver = false → ¬ pairOf e → (e.prompt.toNat = me ∨ e.gen.toNat = me) → (recIndex s).isSome = true →
      ∃ t, exec (.resumeStage w) s = .next t ∧ OnlyChanges [.req, .free] s t ∧ ∃ x : Rec, recFind t w.adm.req = some x ∧ x.state = 6
        ∧ x.commitLen = w.commitLen.toNat ∧ x.prefilled = w.commitLen.toNat ∧ x.epoch = w.adm.epoch ∧ x.deadline = w.adm.deadline) ∧
    (anchorOf s q = some a → recLive s q = some r →
      (r.state = 1 → a.accepted = false → a.refused = none → stage.toNat + 1 = a.route.length → ∃ t, exec (.confirmation q src none) s = .next t
        ∧ (∃ x : Rec, recFind t q = some x ∧ x.state = 2) ∧ (∃ b : AnchorInfo, anchorOf t q = some b ∧ b.accepted = true ∧ b.taking = false)
        ∧ (a.silent = false → posted t q 1 .ok 0)) ∧
      (r.state = 1 → a.accepted = false → a.refused = none → stage.toNat + 1 ≠ a.route.length → exec (.confirmation q src none) s = .next s) ∧
      (a.confirms.contains stage.toNat = false → a.confirms.length + 1 = a.route.length →
        (r.state = 6 → a.refused = none → ownerView r = false → ∃ t, exec (.confirmation q src none) s = .next t
          ∧ ∃ x : Rec, recFind t q = some x ∧ x.state = if a.turn.isEmpty then 3 else 2) ∧
        (∃ t, exec (.confirmation q src (some rep)) s = .next t ∧ (∃ x : Rec, recFind t q = some x ∧ x.state = 5 ∧ x.flags = r.flags &&& 0xF7)
          ∧ (a.silent = false → posted t q 3 .ok r.commitLen))) ∧
      (∀ e : DWord, r.state = 5 → a.shelved.contains stage.toNat = false → a.shelved.length + 1 = a.route.length →
        ∃ t, exec (.confirmation q { src with shelf := some e } none) s = .next t ∧ OnlyChanges [.req] s t
          ∧ recFind t q = some { r with expiry := e }) ∧
      (a.accepted = false → a.refused = none →
        (allReleased a s = false → ∃ t, exec (.stageRefusal q ⟨c, d⟩) s = .next t
          ∧ (∃ x : Rec, recFind t q = some x ∧ x.state = 7 ∧ x.status = codeOf c)
          ∧ ∃ b : AnchorInfo, anchorOf t q = some b ∧ b = { a with refused := some c }) ∧
        (allReleased a s = true → recEntry s q = some (i, r) → ∃ t, exec (.stageRefusal q ⟨c, d⟩) s = .next t
          ∧ Tab.find t.req.recs i = none ∧ anchorOf t q = none ∧ (a.silent = false → posted t 0 2 c 0))) ∧
      (∀ c' : Status, a.refused = some c' → recEntry s q = some (i, r) →
        (allReleased (out a) s = false → exec (.confirmation q src none) s = .next { s with req := { s.req with
          anchors := Tab.mod s.req.anchors q.toNat out } }) ∧
        (allReleased (out a) s = true → ∃ t, exec (.confirmation q src none) s = .next t ∧ Tab.find t.req.recs i = none
          ∧ anchorOf t q = none ∧ (a.silent = false → posted t 0 2 c' 0))) ∧
      (a.code = none → (c ≠ .stateLost ∨ reprefillHeld q r s = false) → ownerView r = false → ∃ t, exec (.retirement q c) s = .next t
        ∧ (∃ b : AnchorInfo, anchorOf t q = some b ∧ b.code = some c) ∧ ∃ x : Rec, recFind t q = some x ∧ x.state = 7 ∧ x.status = codeOf c) ∧
      (rep.req = q → a.dropped.contains rep.stage.toNat = false →
        (a.dropped.length + 1 ≠ a.route.length → ∃ t, exec (.dropReport rep) s = .next t ∧ OnlyChanges [.req] s t
          ∧ ∃ b : AnchorInfo, anchorOf t q = some b ∧ b.dropped = a.dropped ++ [rep.stage.toNat] ∧ b.degraded = (a.degraded || rep.degraded)) ∧
        (a.dropped.length + 1 = a.route.length → recEntry s q = some (i, r) → ∃ t, exec (.dropReport rep) s = .next t ∧ anchorOf t q = none
          ∧ ∃ (x : Rec) (code : Status), Tab.find t.req.recs i = some x ∧ x.state = 8 ∧ x.status = codeOf code
            ∧ (a.silent = false → a.accepted = true → posted t q 4 code r.commitLen)))) ∧
    (recLive s q = some r →
      (anchorOf s q = none → anchorView r = false → r.state = 1 → recEntry s q = some (i, r) → ∃ t, exec (.stageRefusal q ⟨c, d⟩) s = .next t
        ∧ Tab.find t.req.recs i = none ∧ galleyOf t q = none) ∧
      (ownerView r = true → (r.state = 2 ∨ r.state = 3 ∨ r.state = 4) →
        (∃ t, exec (.cancellation q) s = .next t ∧ OnlyChanges [.req] s t ∧ recFind t q = some { r with flags := r.flags ||| 4 }) ∧
        (anchorOf s q = none → ∃ t, exec (.retirement q c) s = .next t ∧ OnlyChanges [.req] s t
          ∧ ∃ x : Rec, recFind t q = some x ∧ c ∈ x.conds ∧ x.state = r.state)) ∧
      (ownerView r = true → (r.state = 1 ∨ r.state = 5 ∨ r.state = 6) → ∃ t, exec (.cancellation q) s = .next t
        ∧ ∃ x : Rec, recFind t q = some x ∧ (x.state = 7 ∨ x.state = 8) ∧ x.status = codeOf .cancelled))

/-- The commands of the control registers of TIER, SCHED, RMA and REQ, from the PF, on a block that is not BUSY. QUOTA_WRITE
makes or changes the selected tenant's entry, removes it where both limits are 0 and nothing is held, and answers QUOTA
where the table of 4,096 tenants is full; QUOTA_READ loads it, zeros with DENIED where there is none; T3_BIND binds an
area after its three checks; CLR clears TIER_T3_ERR and the LPC counters. WEIGHT_COMMIT answers MALFORMED where a staged
weight is 0 or its context is absent, and otherwise leaves the block BUSY until the next frame; METER_DUMP leaves it BUSY
until the next multiple of 625,000 tb, or answers MALFORMED for a misaligned address. QPC_BIND is DENIED while a queue pair
is backed, MALFORMED for a misaligned address or a count that is no multiple of 8,192 from 8,192 to 1,048,576, and binds the
backing area otherwise. CANCEL and PAUSE answer DENIED for a record that is absent or whose anchor is elsewhere, the
recorded STATUS of a RETIRED one, and otherwise OK; the request's record then has FLAGS[2], or FLAGS[3], set. Nothing else
in the device changes but what the anchor sends. (07 R194, 07 R202, 07 R205, 13 R352, 13 R359, 13 R360, 11 R321, 08 R228, 08
R231, 08 R238, 17 R442) -/
def Obligations.ControlBlockResults : Prop :=
  ∀ (w : CtlWrite) (s : State),
    let tier (c : Status) (t : Tier) : Out := .next { s with tier := { t with code := codeOf c } }
    let k := s.tier.tenant.toNat
    let l1 := s.tier.t1Limit.toNat
    let l3 := s.tier.t3Limit.toNat
    let data : DWord := s.tier.t3DataHi ++ s.tier.t3DataLo
    let tag : DWord := s.tier.t3TagHi ++ s.tier.t3TagLo
    let p := s.tier.t3Part.toNat
    let load (q : Quota) : Tier := { s.tier with
      t1Limit := BitVec.ofNat 32 q.t1Limit, t3Limit := BitVec.ofNat 32 q.t3Limit
      t1Used := BitVec.ofNat 32 q.t1Used, t3Used := BitVec.ofNat 32 q.t3Used }
    (s.tier.busy = false →
      (Commands w false [0, 1, 2, 3] 0 s → exec (.quotaWrite w) s =
        match Tab.find s.tier.quotas k with
        | some q => tier .ok { s.tier with quotas := (
            if l1 = 0 ∧ l3 = 0 ∧ q.t1Used = 0 ∧ q.t3Used = 0 then Tab.del s.tier.quotas k
            else Tab.put s.tier.quotas k { q with t1Limit := l1, t3Limit := l3 }) }
        | none =>
          if l1 = 0 ∧ l3 = 0 then tier .ok s.tier
          else if 4096 ≤ s.tier.quotas.length then tier .quota s.tier
          else tier .ok { s.tier with quotas := Tab.put s.tier.quotas k { t1Limit := l1, t3Limit := l3 } }) ∧
      (Commands w false [0, 1, 2, 3] 1 s → exec (.quotaRead w) s =
        match Tab.find s.tier.quotas k with
        | some q => tier .ok (load q)
        | none => tier .denied (load {})) ∧
      (Commands w false [0, 1, 2, 3] 2 s → exec (.t3Bind w) s =
        if data.toNat % 65536 ≠ 0 ∨ tag.toNat % 4096 ≠ 0 then tier .malformed s.tier
        else if partition s p = none then tier .formeMismatch s.tier
        else if (Tab.find s.tier.t3 p).any (fun a => a.frames ≠ []) then tier .denied s.tier
        else tier .ok { s.tier with t3 := Tab.put s.tier.t3 p { data := data, tag := tag, frames := [] } }) ∧
      (Commands w false [0, 1, 2, 3] 3 s → exec (.tierClr w) s = tier .ok { s.tier with
        t3Err := 0
        lpc := s.tier.lpc.map (fun e => (e.1, { e.2 with ce := 0, ue := 0, macErr := 0, rfm := 0, rd := 0, wr := 0 })) })) ∧
    (s.sched.busy = false →
      let u : Sched := { s.sched with parkWaits := ctlSetting w 3 s.sched.parkWaits }
      (Commands w false [0, 1, 2] 0 s → exec (.weightCommit w) s = .next { s with sched :=
        if ∃ e ∈ s.sched.ctxs, e.2.staged.toNat ≠ e.2.weight ∧ (e.2.staged = 0 ∨ ctxPresent s e.1 = false)
        then { u with code := codeOf .malformed } else { u with busy := true, commitPending := true } }) ∧
      (Commands w false [0, 1, 2] 1 s → exec (.meterDump w) s = .next { s with sched :=
        if s.sched.meterLo.toNat % 4096 ≠ 0 then { u with code := codeOf .malformed }
        else { u with busy := true, dumpAt := some ((s.tb / 625000 + 1) * 625000) } })) ∧
    (s.rma.busy = false → Commands w false [0, 1] 0 s → exec (.qpcBind w) s =
      let n := s.rma.qpcCount.toNat
      .next { s with rma :=
        if ∃ e ∈ s.rma.qps, qpKind e.1 = 2 then { s.rma with code := codeOf .denied }
        else if s.rma.qpcLo.toNat % 4096 ≠ 0 ∨ n % 8192 ≠ 0 ∨ n < 8192 ∨ 1048576 < n then { s.rma with code := codeOf .malformed }
        else { s.rma with
          code := 0x00, bound := true, backed := n
          backing := BitVec.ofNat 64 (s.rma.qpcHi.toNat * 2 ^ 32 + s.rma.qpcLo.toNat) } }) ∧
    (s.req.busy = false → ∀ (c : Instr) (bit_ : Nat), (c = .cancel w ∧ bit_ = 2 ∧ Commands w false [0, 1, 2] 0 s) ∨
        (c = .pause w ∧ bit_ = 3 ∧ Commands w false [0, 1, 2] 1 s) →
      match Tab.find s.req.recs s.req.sel.toNat with
      | none => exec c s = .next { s with req := { s.req with code := codeOf .denied } }
      | some r =>
        if r.state = 8 then exec c s = .next { s with req := { s.req with code := r.status } }
        else if anchorView r = false then exec c s = .next { s with req := { s.req with code := codeOf .denied } }
        else ∃ t, exec c s = .next t ∧ OnlyChanges [.req, .rma, .links, .out] s t ∧ t.req.code = 0x00
          ∧ t.req.galleys = s.req.galleys
          ∧ ∀ (a : AnchorInfo) (x : Rec), anchorOf s r.reqId = some a → recLive s r.reqId = some x →
              ∃ y : Rec, recFind t r.reqId = some y ∧ y.flags.toNat.testBit bit_ = true ∧ y.state = x.state)

/-- A request of the tray fabric that reaches its home in turn is taken and executed at once, and the next one is expected. One
that fails the checks of R276 is answered with their code and does nothing else, but that EPOCH_STALE counts in NEAR_STALE
and DENIED in NEAR_DENIED. A LOAD that passes is answered with the bytes; a STORE puts its bytes into the partition or the
slice; a message is delivered to the channel that the address names; an APPEND writes its row. A local APPEND is DENIED, or
fails, without effect where the galley or its owner or the layer do not fit; a row below the committed length counts as a
duplicate; and a new row is written and counted. (07 R185, 07 R192, 08 R212, 08 R213, 10 R266, 10 R268, 10 R269, 10 R276,
10 R288, 03 R83) -/
def Obligations.TrayAccessCommands : Prop :=
  ∀ (h : TrayHdr) (o : ReadOutcome) (bs : List Byte) (a : AppendHdr) (m : AppendMsg) (s : State),
    let cmds : List (Instr × TrayReq) := [(.trayLoad h o, .load h o), (.trayStore h ⟨bs, o⟩, .store h bs o), (.chmsg h bs, .chmsg h bs),
      (.trayAppend h a ⟨bs, o⟩, .append h a bs o)]
    (∀ e ∈ cmds, InTurn e.2 s → let u := tookRequest e.2 s
      exec e.1 s = .next (homeExecute e.2 u) ∧
      (r276 u e.2 ≠ .ok → ∃ t, exec e.1 s = .next t ∧ OnlyChanges [.near, .links] s t ∧ Answered e.2 (r276 u e.2) [] s t
        ∧ (srcDev h ≠ (myDev s).toNat →
            t.near.stale = (if r276 u e.2 = .epochStale then satInc s.near.stale else s.near.stale)
            ∧ t.near.denied = (if r276 u e.2 = .denied then satInc s.near.denied else s.near.denied)))) ∧
    (InTurn (.load h o) s →
      (let u := tookRequest (.load h o) s
       r276 u (.load h o) = .ok → ∃ t, exec (.trayLoad h o) s = .next t
        ∧ Answered (.load h o) (homeLoad h o u).1 (homeLoad h o u).2.1 s t ∧ OnlyChanges [.near, .links] (homeLoad h o u).2.2 t
        ∧ (seenOutcome u (homePlace u h) h.len.toNat o = .good → addrAp h ≤ 7 →
            Answered (.load h o) .ok (Mem.load s.tier.t1 (partAddr s (addrAp h) + addrOff h) h.len.toNat) s t
            ∧ t.tier.t1 = s.tier.t1 ∧ t.req = s.req ∧ t.clusters = s.clusters)) ∧
      (let u := tookRequest (.store h bs o) s
       r276 u (.store h bs o) = .ok → ∃ t, exec (.trayStore h ⟨bs, o⟩) s = .next t
        ∧ Answered (.store h bs o) (storeRead h bs o u).1 [] s t ∧ OnlyChanges [.near, .links] (storeRead h bs o u).2 t
        ∧ (addrAp h ≤ 7 → addrOff h % 512 = 0 → bs.length % 512 = 0 → Answered (.store h bs o) .ok [] s t
            ∧ t.tier.t1 = Mem.store s.tier.t1 (partAddr s (addrAp h) + addrOff h) bs ∧ t.tier.slices = s.tier.slices ∧ t.req = s.req)
        ∧ (addrAp h = 9 → Answered (.store h bs o) .ok [] s t ∧ t.tier.t1 = s.tier.t1 ∧ t.req = s.req
            ∧ t.tier.slices = Mem.store s.tier.slices (addrOff h / 2 ^ 27 * 2 ^ 27 + addrOff h % 2 ^ 27) bs)) ∧
      (let u := tookRequest (.chmsg h bs) s
       r276 u (.chmsg h bs) = .ok → ∃ n : Nat, apCluster s h = some n ∧ ∃ t, exec (.chmsg h bs) s = .next t
        ∧ Answered (.chmsg h bs) .ok [] s t ∧ OnlyChanges [.near, .links] (divertOrPlace n (addrOff h % 32) bs u) t) ∧
      (let u := tookRequest (.append h a bs o) s
       r276 u (.append h a bs o) = .ok → ∃ t, exec (.trayAppend h a ⟨bs, o⟩) s = .next t
        ∧ Answered (.append h a bs o) (appendAt (BitVec.ofNat 12 (srcDev h)) a bs o u).1 [] s t
        ∧ OnlyChanges [.near, .links, .pair] (appendAt (BitVec.ofNat 12 (srcDev h)) a bs o u).2 t)) ∧
    (fenced s = true → exec (.append m) s = .next s) ∧
    (fenced s = false → m.hdr.cls ≠ 3 →
      (galleyOf s m.hdr.req = none → exec (.append m) s = .next s) ∧
      (∀ g : Galley, galleyOf s m.hdr.req = some g →
        let l := m.hdr.layer.toNat
        let pos := m.hdr.pos.toNat
        let fits : Prop := m.sender = g.owner ∧ g.firstLayer ≤ l ∧ l < g.firstLayer + g.layers
        let spec : Bool := m.hdr.cls == 2
        (¬ fits → exec (.append m) s = .next s) ∧
        (fits → m.hdr.cls ≠ 2 → pos < g.rec_.commitLen → m.reads = .good →
          exec (.append m) s = .next { s with req := { s.req with dups := satInc s.req.dups } }) ∧
        (fits → (spec = true ∨ g.rec_.commitLen ≤ pos) → (spec = true → g.serving = mySlot s) →
          (pageOf g 0 l (pos / 64)).state ≠ 0 → (pageOf g 0 l (pos / 64)).state ≠ 1 → exec (.append m) s = .next s) ∧
        (fits → (spec = true ∨ g.rec_.commitLen ≤ pos) → (spec = true → g.serving = mySlot s) →
          ((pageOf g 0 l (pos / 64)).state = 0 ∨ (pageOf g 0 l (pos / 64)).state = 1) → m.reads = .good →
          ∀ u : State, placeRow m.hdr.req l pos m.hdr.step spec m.row s = some u → ∃ t, exec (.append m) s = .next t
            ∧ OnlyChanges [.req] u t ∧ t.req.appends = satInc u.req.appends ∧ t.req.recs = u.req.recs)))

/-- A state-mover request or an exchange of a galley's owner word that reaches its home in turn and passes R276. SEAL_DIGEST,
OWNER_FWD, CKPT and SILVER_SETUP are for the partner alone, and DENIED to others; MAP_WRITE, RECORD and DROP are for the
partner and the galley's owner; where the galley is missing the answer is STATE_LOST. SEAL_DIGEST makes a sealed page with
the same digest MIRRORED in a pair that is not DEGRADED and is kept for one not sealed yet; OWNER_FWD sets the owner and the
count of the word, and the record follows it into and out of PAUSED; DROP leaves
no galley; RECORD and MAP_WRITE change the member's copy; CKPT is stored once every copied page is verified and waits until
then; SILVER_SETUP makes a spare SILVER_DST and replaces its quotas; PAGE stores a part until the last. COMMIT is for the
owner at the serving member, with every row present; a speculative row that cannot be read ends it with INTEGRITY; else each layer then has the committed length, COMMIT counts, and a member
that writes no partner answers DEGRADED. The exchange compares the word and sets it. (08 R208, 08 R215, 08 R216, 08 R222, 08
R230, 09 R244, 09 R245, 09 R247, 09 R250, 09 R251, 10 R273, 10 R276) -/
def Obligations.GalleyRequestCommands : Prop :=
  ∀ (h : TrayHdr) (q : ReqId) (nl st : Word) (u : RecordUpdate) (o : ReadOutcome) (ly : BitVec 16) (lp : Word) (d : Digest) (rv : Nat)
    (w cmp : DWord) (off : Word) (bs : List Byte) (p : PagePart) (n pg : Word) (cur : ReqId) (qs : List QuotaCopy)
    (ls : List LatentSlotCopy) (s : State),
    let src := srcDev h
    let v := tookRequest (.drop h q) s
    let here (c : Instr) (r : TrayReq) (e : State) (code : Status) (b : List Byte) : Prop :=
      ∃ t, exec c s = .next t ∧ Answered r code b s t ∧ OnlyChanges [.near, .links] e t
    let mine (g : Galley) : Prop := fromPartner s h = true ∨ src = g.owner.toNat
    let cmds : List (Instr × TrayReq) := [(.commit h q nl st ⟨u, o⟩, .commit h q nl st u o), (.sealDigest h q ly lp ⟨d, rv⟩, .sealDigest h q ly lp d rv),
      (.ownerFwd h q w, .ownerFwd h q w), (.mapWrite h q off bs, .mapWrite h q off bs), (.record h q u, .record h q u), (.drop h q, .drop h q),
      (.page h p, .page h p), (.ckpt h n cur pg, .ckpt h n cur pg), (.silverSetup h qs ls, .silverSetup h qs ls),
      (.ownerWordCas h q cmp w, .ownerCas h q cmp w)]
    InTurn (.drop h q) s →
    (∀ e ∈ cmds, e.1 ≠ .ownerWordCas h q cmp w → exec e.1 s = .next (homeExecute e.2 v)) ∧
    (exec (.ownerWordCas h q cmp w) s = .next (homeExecute (.ownerCas h q cmp w) (tookRequest (.drop h q)
      { s with near := { s.near with atomicHw := max s.near.atomicHw (trayAtomics s + 1) } }))) ∧
    (∀ e ∈ cmds, r276 v e.2 ≠ .ok → here e.1 e.2 s (r276 v e.2) []) ∧
    (∀ e ∈ cmds, r276 v e.2 = .ok → (∃ t, exec e.1 s = .next t) ∧
      (e.1 = .sealDigest h q ly lp ⟨d, rv⟩ ∨ e.1 = .ownerFwd h q w ∨ e.1 = .ckpt h n cur pg ∨ e.1 = .silverSetup h qs ls →
        fromPartner s h = false → here e.1 e.2 s .denied []) ∧
      (e.1 = .mapWrite h q off bs ∨ e.1 = .record h q u ∨ e.1 = .drop h q → ∀ g : Galley, galleyOf s q = some g → ¬ mine g →
        ∃ t, exec e.1 s = .next t ∧ Answered e.2 .denied [] s t ∧ OnlyChanges [.near, .links, .pair] s t) ∧
      (e.1 = .commit h q nl st ⟨u, o⟩ ∨ e.1 = .ownerWordCas h q cmp w ∨
          (fromPartner s h = true ∧ (e.1 = .sealDigest h q ly lp ⟨d, rv⟩ ∨ e.1 = .ownerFwd h q w)) →
        galleyOf s q = none → (∀ r, recLive s q = some r → ownerView r = false ∨ r.state ≠ 5) → here e.1 e.2 s .stateLost [])) ∧
    (r276 v (.sealDigest h q ly lp d rv) = .ok → fromPartner s h = true → ∀ g : Galley, galleyOf s q = some g → g.source = none →
      let x := pageOf g 0 ly.toNat lp.toNat
      (x.state = 2 → s.pair.state ≠ 3 → d = x.sealDigest → ∃ t, exec (.sealDigest h q ly lp ⟨d, rv⟩) s = .next t ∧ Answered (.sealDigest h q ly lp d rv) .ok [] s t
        ∧ OnlyChanges [.req, .near, .links] s t ∧ ∃ g' : Galley, galleyOf t q = some g' ∧ (pageOf g' 0 ly.toNat lp.toNat).state = 3) ∧
      (x.state ≠ 2 → ∃ t, exec (.sealDigest h q ly lp ⟨d, rv⟩) s = .next t ∧ Answered (.sealDigest h q ly lp d rv) .ok [] s t
        ∧ OnlyChanges [.req, .near, .links] s t
        ∧ ∃ g' : Galley, galleyOf t q = some g' ∧ pageOf g' 0 ly.toNat lp.toNat = { x with partner := some d })) ∧
    (r276 v (.ownerFwd h q w) = .ok → fromPartner s h = true → ∀ g : Galley, galleyOf s q = some g → ∃ t,
      exec (.ownerFwd h q w) s = .next t ∧ Answered (.ownerFwd h q w) .ok [] s t ∧ OnlyChanges [.req, .near, .links] s t
      ∧ (recLive s q = none → t.req.recs = s.req.recs
          ∧ galleyOf t q = some { g with owner := BitVec.ofNat 12 w.toNat, count := w.toNat / 65536 % 2 ^ 32 })
      ∧ ∀ r : Rec, recLive s q = some r →
          let now : DevId := BitVec.ofNat 12 w.toNat
          let member : Prop := ∃ d ∈ memberSlots r, devOfSlot s d = now
          ∃ (g' : Galley) (y : Rec), galleyOf t q = some g' ∧ recFind t q = some y ∧ g'.owner = now ∧ g'.count = w.toNat / 65536 % 2 ^ 32
            ∧ g'.layer = g.layer ∧ y.owner = now
            ∧ (member → r.state ≠ 7 → y.state = 5 ∧ g'.pausedAt = some s.tb)
            ∧ (¬ member → r.state = 5 ∨ r.state = 6 → y.state = (if r.promptLen ≤ r.commitLen then 4 else 2) ∧ g'.pausedAt = none)) ∧
    (r276 v (.drop h q) = .ok →
      (∀ g : Galley, galleyOf s q = some g → mine g → ∃ t, exec (.drop h q) s = .next t ∧ Answered (.drop h q) .ok [] s t
        ∧ galleyOf t q = none ∧ t.req.drops = satInc s.req.drops) ∧
      (galleyOf s q = none → recLive s q = none →
        here (.drop h q) (.drop h q) s (if (recFind s q).isSome then .ok else .stateLost) [])) ∧
    (r276 v (.record h q u) = .ok →
      (galleyOf s q = none → recLive s q = none → here (.record h q u) (.record h q u) s .stateLost []) ∧
      (∀ g : Galley, galleyOf s q = some g → mine g → ∃ t, exec (.record h q u) s = .next t ∧ Answered (.record h q u) .ok [] s t
        ∧ OnlyChanges [.req, .pair, .near, .links] s t
        ∧ ∃ g' : Galley, galleyOf t q = some g' ∧ g'.rec_ = applyUpdate u g.rec_ ∧ g'.layer = g.layer)) ∧
    (r276 v (.mapWrite h q off bs) = .ok → ∀ g : Galley, galleyOf s q = some g → mine g →
      ¬ (fromPartner s h = true ∧ off.toNat = 0xC0 ∧ bs.length = 4) → ∃ t, exec (.mapWrite h q off bs) s = .next t
        ∧ Answered (.mapWrite h q off bs) .ok [] s t
        ∧ OnlyChanges [.near, .links] (spareMap q off.toNat bs (ownerJournal q (.mapWrite h q off bs) v)) t) ∧
    (r276 v (.ckpt h n cur pg) = .ok → fromPartner s h = true →
      (s.pair.state ≠ 6 → here (.ckpt h n cur pg) (.ckpt h n cur pg) s .denied []) ∧
      (s.pair.state = 6 → spareVerified s = false → ∃ t, exec (.ckpt h n cur pg) s = .next t ∧ OnlyChanges [.pair, .near] s t
        ∧ t.pair = { s.pair with ckptWait := some (h, n.toNat, cur.toNat, pg.toNat) }) ∧
      (s.pair.state = 6 → spareVerified s = true → cur.toNat ≠ 2 ^ 64 - 1 → ∃ t, exec (.ckpt h n cur pg) s = .next t
        ∧ Answered (.ckpt h n cur pg) .ok [] s t ∧ OnlyChanges [.pair, .near, .links] s t
        ∧ t.pair = { s.pair with stored := some (n.toNat, cur.toNat, pg.toNat), ckptWait := none, untrusted := false })) ∧
    (r276 v (.silverSetup h qs ls) = .ok → fromPartner s h = true → (s.pair.state = 4 ∨ s.pair.state = 6) → ∃ t,
      exec (.silverSetup h qs ls) s = .next t ∧ Answered (.silverSetup h qs ls) .ok [] s t ∧ OnlyChanges [.tier, .codec, .pair, .near, .links] s t
        ∧ t.pair = { s.pair with state := 6, silverDone := 0 }
        ∧ ∀ k : Nat, (∀ x ∈ qs, x.tenant.toNat ≠ k) → Tab.find t.tier.quotas k = none) ∧
    (r276 v (.page h p) = .ok → ∀ g : Galley, galleyOf s p.req = some g → s.pair.ckptWait = none → fromPartner s h = true → p.lastPart = false →
      ∃ t, exec (.page h p) s = .next t ∧ Answered (.page h p) .ok [] s t
        ∧ ∃ g' : Galley, galleyOf t p.req = some g' ∧
          (p.partNo, p.bytes) ∈ (pageOf g' p.kind.toNat p.layer.toNat p.lpage.toNat).parts) ∧
    (r276 v (.ownerCas h q cmp w) = .ok → ∀ g : Galley, galleyOf s q = some g → (∀ r, recLive s q = some r → ownerView r = false ∨ r.state ≠ 5) →
      let no (c : Status) := here (.ownerWordCas h q cmp w) (.ownerCas h q cmp w) s c (leBytes 8 (ownerWord g))
      (g.serving ≠ mySlot s → no .retryLater) ∧
      (g.serving = mySlot s → src ≠ g.owner.toNat → excluded s g.owner.toNat = false → no .denied) ∧
      (g.serving = mySlot s → (src = g.owner.toNat ∨ excluded s g.owner.toNat = true) → ownerWord g ≠ cmp.toNat → no .denied) ∧
      (g.serving = mySlot s → (src = g.owner.toNat ∨ excluded s g.owner.toNat = true) → ownerWord g = cmp.toNat →
        w.toNat % 4096 ≠ (myDev s).toNat → ∃ t, exec (.ownerWordCas h q cmp w) s = .next t
          ∧ OnlyChanges [.req, .pair, .near, .links] s t
          ∧ galleyOf t q = some { g with owner := BitVec.ofNat 12 w.toNat, count := w.toNat / 65536 % 2 ^ 32 }
          ∧ (mirrors s g = false → Answered (.ownerCas h q cmp w) .ok (leBytes 8 (ownerWord g)) s t))) ∧
    (r276 v (.commit h q nl st u o) = .ok → ∀ g : Galley, galleyOf s q = some g →
      let no (c : Status) := here (.commit h q nl st ⟨u, o⟩) (.commit h q nl st u o) s c []
      (src ≠ g.owner.toNat → no .denied) ∧
      (src = g.owner.toNat → g.serving ≠ mySlot s → no .retryLater) ∧
      (src = g.owner.toNat → g.serving = mySlot s → commitReady g g.rec_.commitLen nl.toNat st = false → no .malformed) ∧
      let specs := commitSpecs g g.rec_.commitLen nl.toNat
      let (got, a) := spansRead (specs.map (fun x => (rowAddr v g x.1 x.2, rowBytes v g.part.toNat))) o v
      (src = g.owner.toNat → g.serving = mySlot s → commitReady g g.rec_.commitLen nl.toNat st = true → specs ≠ [] → got = false → ∃ t,
        exec (.commit h q nl st ⟨u, o⟩) s = .next t ∧ Answered (.commit h q nl st u o) .integrity [] s t ∧ OnlyChanges [.near, .links] a t) ∧
      (src = g.owner.toNat → g.serving = mySlot s → commitReady g g.rec_.commitLen nl.toNat st = true → (specs = [] ∨ got = true) → ∃ t,
        exec (.commit h q nl st ⟨u, o⟩) s = .next t ∧ t.req.commits = satInc s.req.commits
          ∧ (∃ g' : Galley, galleyOf t q = some g' ∧ g'.rec_ = applyUpdate u g.rec_
              ∧ ∀ i : Nat, i < g.layers → (layerOf g' (g.firstLayer + i)).commit = nl.toNat)
          ∧ (mirrors s g = false → Answered (.commit h q nl st u o) .degraded [] s t)))

/-- The notices and the ends of requests of the tray fabric. On a fenced device each changes nothing. A CREDIT whose fields or
sender do not fit changes nothing; without the grant it counts in NEAR_DENIED; a count that is serially newer than the last
adds the difference to the channel's credits, and another changes nothing. An LSTATE that fits is the last that its sender
gave, and nothing else changes but what the links carry. A response ends the outstanding request with its SEQ; an
intermediate's RETRY_LATER has it sent again. A request without a response for 64 µs counts once in NEAR_TIMEOUT with bit 8
of DEV_ERR, its device is reported as suspect on link 31, and it is sent again where a path is. A packet for another device of the tray
is forwarded unchanged on its link and counted; where the link is not up a request is answered with RETRY_LATER and another packet is
dropped. (09 R262, 10 R266, 10 R268, 10 R272, 10 R276, 10 R283, 10 R285, 10 R286, 10 R287, 17 R448) -/
def Obligations.TrayNoticeCommands : Prop :=
  ∀ (h : TrayHdr) (count : Word) (up : BitVec 15) (role : Byte) (model : Digest) (pl : WithReads (List Byte)) (p : FwdPacket) (slot : Slot)
    (seq : Word) (s : State),
    let fits (ty : Byte) : Prop := h.type = ty ∧ h.resv = 0 ∧ (h.flags &&& 0xFD) = 0 ∧ h.dst.toNat = (myDev s).toNat ∧ h.src.toNat < 4096
      ∧ h.part.toNat < 8 ∧ h.status = 0 ∧ h.mepoch = 0 ∧ h.op = 0 ∧ senderOk s h = true ∧ formeServes s = true
    let d := h.tag.toNat % 16
    let n := h.seq.toNat
    let found (k m : Nat) (o : TrayOut) : Prop := (trayDst s k).out.find? (fun x => x.seq == m) = some o
    (fenced s = true → ∀ c ∈ [Instr.credit h count, .lstate h up role model, .resp h pl, .trayResponseTimeout slot seq, .trayForward p],
      exec c s = .next s) ∧
    (fenced s = false →
      (let ok : Prop := fits 6 ∧ addrSlot h = (mySlot s).toNat ∧ addrAp h = 0xB ∧ addrOff h < 2 ^ 16 ∧ addrOff h % 256 < 32 ∧ h.len = 4
       (¬ ok → exec (.credit h count) s = .next s) ∧
       (ok → chanGranted s h true = false → exec (.credit h count) s =
         .next { s with near := { s.near with denied := satInc s.near.denied } }) ∧
       (ok → chanGranted s h true = true → ∃ m : Nat, apCluster s h = some m ∧
         let key := m * 32 + addrOff h % 32
         let old := Tab.getD s.near.received key 0
         (newer 32 count.toNat old.toNat = false → exec (.credit h count) s = .next s) ∧
         (newer 32 count.toNat old.toNat = true → (∃ t, exec (.credit h count) s = .next t) ∧
           ((cluster s m).wait = .none → atSwitch s m = false → exec (.credit h count) s = .next
             (channelUpd m (addrOff h % 32) (fun k => { k with credits := k.credits + (count - old).toNat })
               { s with near := { s.near with received := Tab.put s.near.received key count } }))))) ∧
      (let ok : Prop := fits 8 ∧ srcDev h / 16 = (myTray s).toNat ∧ srcDev h ≠ (myDev s).toNat
       (¬ ok → exec (.lstate h up role model) s = .next s) ∧
       (ok → ∃ t, exec (.lstate h up role model) s = .next t ∧ OnlyChanges [.near, .links] s t
         ∧ t.near = { s.near with lstate := Tab.put s.near.lstate (srcDev h % 16) { links := up, role := role, model := model } })) ∧
      (let ok : Prop := senderOk s h = true ∧ h.type = 0x10 ∧ h.flags.toNat.testBit 0 = true ∧ h.resv = 0 ∧ h.dst.toNat = (myDev s).toNat
       (¬ ok → exec (.resp h pl) s = .next s) ∧ (ok → statusOf h.status = none → exec (.resp h pl) s = .next s) ∧
       (ok → ∀ c : Status, statusOf h.status = some c →
         (srcDev h ≠ (devOfSlot s d).toNat → c ≠ .retryLater → exec (.resp h pl) s = .next s) ∧
         (srcDev h ≠ (devOfSlot s d).toNat → c = .retryLater → ∀ o : TrayOut, found d n o →
           (trayRoute s d = none → exec (.resp h pl) s = .next s) ∧
           (∀ r, trayRoute s d = some r → ∃ t, exec (.resp h pl) s = .next t ∧ OnlyChanges [.near, .links] s t
             ∧ t.near.resent = satInc s.near.resent)) ∧
         (srcDev h = (devOfSlot s d).toNat → isSuccess c = true → (∀ k : Nat, (trayDst s k).waiting = []) → s.near.fences = [] →
           ∀ o : TrayOut, found d n o → (o.why = .other ∨ ∃ m, o.why = .cluster m) → ∃ t, exec (.resp h pl) s = .next t
             ∧ OnlyChanges [.near, .links] s t ∧ (trayDst t d).out = (trayDst s d).out.filter (fun x => x.seq != n)
             ∧ ∀ k : Nat, k ≠ d → trayDst t k = trayDst s k))) ∧
      ((∀ x ∈ (trayDst s slot.toNat).out, x.seq ≠ seq.toNat) → exec (.trayResponseTimeout slot seq) s = .next s) ∧
      (∀ o : TrayOut, found slot.toNat seq.toNat o →
        (s.tb < o.sent + 40000 → exec (.trayResponseTimeout slot seq) s = .next s) ∧
        (o.sent + 40000 ≤ s.tb → ∃ t, exec (.trayResponseTimeout slot seq) s = .next t ∧ OnlyChanges [.dev, .near, .links, .out] s t
          ∧ t.near.timeout = (if o.counted then s.near.timeout else satInc s.near.timeout)
          ∧ (o.counted = false → bit t.dev.err 8 = true)
          ∧ (mayEmit s = true → slUp s = true → ∃ m ∈ (link t 31).queue, m.pkt = .sl (.suspect (devOfSlot s slot.toNat)))
          ∧ t.near.resent = (if (trayRoute s slot.toNat).isSome then satInc s.near.resent else s.near.resent)
          ∧ ∀ x ∈ (trayDst t slot.toNat).out, x.seq = seq.toNat → x.sent = s.tb)) ∧
      (let h := p.hdr
       let far := h.dst.toNat % 4096
       let k := nearLink s (far % 16)
       let other : Prop := far ≠ (myDev s).toNat ∧ far / 16 = (myTray s).toNat ∧ h.src.toNat % 4096 ≠ (myDev s).toNat
       (¬ other → exec (.trayForward p) s = .next s) ∧
       (other → linkIsUp s k = true → ∃ t, exec (.trayForward p) s = .next t ∧ OnlyChanges [.near, .links] s t
         ∧ t.near = { s.near with fwd := satInc s.near.fwd } ∧ (mayEmit s = true → ∃ q : Queued, (link t k).queue = (link s k).queue ++ [q]
           ∧ q.pkt = .trayFwd h p.payload)) ∧
       (other → linkIsUp s k = false → (h.type = 0x10 ∨ h.type = 6 ∨ h.type = 8) → exec (.trayForward p) s = .next s) ∧
       (other → linkIsUp s k = false → h.type ≠ 0x10 → h.type ≠ 6 → h.type ≠ 8 → ∃ t, exec (.trayForward p) s = .next t
         ∧ OnlyChanges [.links] s t)))

/-- What happens to a galley and its request outside the fabric; on a fenced device only a seal goes on. SEAL_COMPLETE of a page
that seals makes it SEALED with its digest, MIRRORED where the partner's equal digest is there and the pair is not DEGRADED, and
counts it. HANDOVER_TIMEOUT, 64 µs after the exchange with none of it outstanding, sends it again to the live member that serves;
before that, or while none is live, it changes nothing. A step boundary
with no re-run open stores the step's end in a live request's record, whose commit follows, discards a step that is to be
redone, and counts a decode step. A TOKEN goes into the anchor's output and history. A pause that has lasted its hold begins
a shelve where the quota and the area have room. A copy-out that may begin is registered with the galley kept, and one that
completes frees the galley and the record where its code is OK. (08 R209, 08 R216, 08 R217, 08 R223, 08 R224, 08 R225, 08 R227,
08 R231, 08 R234, 14 R378, 04 R118) -/
def Obligations.GalleyEventCommands : Prop :=
  ∀ (q : ReqId) (l p : Nat) (o : ReadOutcome) (e : StepEnd) (m : TokenMsg) (dest : DevId) (c : Status) (s : State),
    let x (g : Galley) := pageOf g 0 l p
    ((∀ g : Galley, galleyOf s q = some g → ¬ ((x g).state = 1 ∧ (x g).sealing = true)) → exec (.sealComplete q l ⟨p, o⟩) s = .next s) ∧
    (∀ (g : Galley) (u w : State) (d : Digest), galleyOf s q = some g → (x g).state = 1 → (x g).sealing = true →
      moverRead g [(0, l, p)] o s = (true, u) → galleyOf u q = some g → sealPage q l p u = some (d, w) → g.source = none →
      ((x g).partner = none ∨ (x g).partner = some d ∨ s.pair.state = 3) → ∃ t, exec (.sealComplete q l ⟨p, o⟩) s = .next t ∧ t.req.seals = w.req.seals
        ∧ ∃ g' : Galley, galleyOf t q = some g' ∧ (x g').sealDigest = d ∧ (x g').state = (if (x g).partner = none ∨ s.pair.state = 3 then 2 else 3)) ∧
    (∀ (g : Galley) (u : State), galleyOf s q = some g → (x g).state = 1 → (x g).sealing = true →
      moverRead g [(0, l, p)] o s = (false, u) → exec (.sealComplete q l ⟨p, o⟩) s = .next u) ∧
    (fenced s = true → ∀ i ∈ [Instr.handoverTimeout q, .token m, .pauseHoldExpiry q, .copyout q ⟨dest, o⟩, .copyoutComplete q c], exec i s = .next s) ∧
    (fenced s = true → s.tier.reserveBad = false → exec (.stepBoundary [e]) s = .next s) ∧
    (fenced s = false →
      (∀ (r : Rec) (h : Handover), recLive s q = some r → s.req.handovers.find? (fun h => h.req == q) = some h →
        let d := r.servingSlot.toNat % 16
        (h.casAt = none → exec (.handoverTimeout q) s = .next s) ∧
        let waits : Prop := ∃ e ∈ s.near.dst, (∃ o ∈ e.2.out, o.why = .handover q) ∨ ∃ x ∈ e.2.waiting, x.2 = .handover q
        (∀ t0 : Nat, h.casAt = some t0 → (s.tb < t0 + 40000 ∨ slotLive s d = false ∨ waits) → exec (.handoverTimeout q) s = .next s) ∧
        (∀ t0 : Nat, h.casAt = some t0 → t0 + 40000 ≤ s.tb → slotLive s d = true → ¬ waits →
          ∃ t, exec (.handoverTimeout q) s = .next t ∧ OnlyChanges [.req, .near, .links] s t ∧ t.req.recs = s.req.recs
            ∧ ((∃ o ∈ (trayDst t d).out, o.why = .handover q) ∨ (∃ x ∈ (trayDst t d).waiting, x.2 = .handover q))
            ∧ t.req.handovers = s.req.handovers.map (fun h => if h.req = q then { h with casAt := some s.tb } else h))) ∧
      (s.tier.reserveBad = false → s.tier.scrubBad = [] →
        (∀ r : Rec, recLive s e.req = some r → ownerView r = true → r.reruns ≠ [] → exec (.stepBoundary [e]) s = .next s) ∧
        (∀ r : Rec, recLive s e.req = some r → ownerView r = true → (r.state = 2 ∨ r.state = 4) → r.boundary = none → r.reruns = [] →
          firstCode (boundaryConds s r e) = none → ∃ t, exec (.stepBoundary [e]) s = .next t ∧ OnlyChanges [.req, .near, .links] s t
            ∧ t.req.galleys = s.req.galleys
            ∧ t.req.step = (if roleOf s = 2 ∨ r.state = 4 then s.req.step + 1 else s.req.step)
            ∧ (r.redo = true → recFind t e.req = some (stepDiscard r))
            ∧ (r.redo = false → recFind t e.req = some { r with
                step := s.req.step, boundary := some (stepCut r e), flags := if e.pause then r.flags ||| 8 else r.flags }))) ∧
      (∀ (a : AnchorInfo) (r : Rec), anchorOf s m.req = some a → recLive s m.req = some r →
        let n := newTokens a m
        (n.tokens = [] → ∃ t, exec (.token m) s = .next t ∧ OnlyChanges [.req] s t ∧ t.req.anchors = s.req.anchors) ∧
        (n.tokens ≠ [] → a.segments = [] → ∃ t, exec (.token m) s = .next t ∧ OnlyChanges [.sec, .host, .req, .rma, .links, .out] s t
          ∧ (∃ b : AnchorInfo, anchorOf t m.req = some b ∧ b.output = outputTokens a.output n.pos n.tokens
              ∧ b.history = a.history.take n.pos ++ n.tokens)
          ∧ ∃ y : Rec, recFind t m.req = some y ∧ y.commitLen = (if ownerView r then r.commitLen else n.pos + n.tokens.length - 1)
              ∧ y.state = (if ownerView r = false ∧ (r.state = 2 ∨ r.state = 3) then 4 else r.state))) ∧
      (∀ g : Galley, galleyOf s q = some g →
        let due : Prop := ∃ t0 : Nat, g.pausedAt = some t0 ∧ t0 + s.req.hold * 625000 ≤ s.tb
        (¬ (due ∧ g.serving = mySlot s ∧ g.op = .idle ∧ isShelved g = false) → exec (.pauseHoldExpiry q) s = .next s) ∧
        (due → g.serving = mySlot s → g.op = .idle → isShelved g = false → retryDue s g = true → s.host.flr.contains 0 = false →
          moverOut s < 4096 → ∀ (k : Quota) (a : T3Area), Tab.find s.tier.quotas g.tenant.toNat = some k → Tab.find s.tier.t3 g.part.toNat = some a →
            (shelfContent g).length ≤ (freeT3Frames s g.part.toNat).length → k.t3Used + (shelfContent g).length ≤ k.t3Limit →
            ∃ t, exec (.pauseHoldExpiry q) s = .next t ∧ OnlyChanges [.tier, .req] s t ∧ t.req.recs = s.req.recs
              ∧ galleyOf t q = some { g with op := .shelving, shelveSeq := g.shelveSeq + 1 })) ∧
      (∀ (g : Galley) (r : Rec), galleyOf s q = some g → recLive s q = some r →
        let may : Prop := r.state = 5 ∧ g.serving = mySlot s ∧ g.op = .idle ∧ isShelved g = false ∧ ∀ x ∈ s.req.copyouts, x.req ≠ q
        let read := moverRead g ((shelfContent g).map (fun x => (x.1, x.2.1, x.2.2.1))) o s
        (¬ may → exec (.copyout q ⟨dest, o⟩) s = .next s) ∧
        (may → read.1 = false → exec (.copyout q ⟨dest, o⟩) s = .next { read.2 with req := { read.2.req with copyoutCode := some (q, .integrity) } }) ∧
        (may → read.1 = true → ∃ t, exec (.copyout q ⟨dest, o⟩) s = .next t ∧ OnlyChanges [.req, .sched, .rma, .links, .out] read.2 t
          ∧ t.req = { read.2.req with copyouts := read.2.req.copyouts ++ [{ req := q, dest := dest }] })) ∧
      ((∀ x ∈ s.req.copyouts, x.req ≠ q) → exec (.copyoutComplete q c) s = .next s) ∧
      ((∃ x ∈ s.req.copyouts, x.req = q) →
        let u : State := { s with req := { s.req with
          copyouts := s.req.copyouts.filter (fun x => x.req != q), copyoutCode := some (q, c) } }
        (c ≠ .ok ∨ galleyOf s q = none → exec (.copyoutComplete q c) s = .next u) ∧
        (c = .ok → ∀ g : Galley, galleyOf s q = some g → ∃ t, exec (.copyoutComplete q c) s = .next t ∧ galleyOf t q = none
          ∧ t.req.copyouts = u.req.copyouts ∧ t.req.copyoutCode = some (q, .ok) ∧ t.req.copyoutCount = satInc s.req.copyoutCount
          ∧ ∀ (i : Nat) (r : Rec), recEntry s q = some (i, r) → Tab.find t.req.recs i = none)))

/-- Each atomic command is the function its OP names, and does nothing of another one. On unsigned operands the new value is the
sum modulo 2^32 or 2^64, the minimum, the maximum, or the second operand where the old value equals the first. A tray
ATOMIC that is next in order waits where it is another source's turn for its line, and is else executed at once; where R276 fails
it is answered with the code; else the old value is the answer, the new one stands in the partition or the slice and the turn
moves to its source. A remote atomic that waits in the combining queue is executed
when its source's turn for the line has come and no earlier one of that source waits: the queue loses it, the turn moves to
its source, and the new value stands in the region's T1 bytes; before its turn nothing changes. (10
R276, 10 R279, 10 R280, 10 R281, 10 R282, 11 R310, 11 R315) -/
def Obligations.AtomicCommands : Prop :=
  (∀ (op : Byte) (old v new : Nat), (field op.toNat 6 4 = 0 ∨ field op.toNat 6 4 = 2) →
    let m := if field op.toNat 6 4 = 2 then 2 ^ 64 else 2 ^ 32
    (field op.toNat 3 0 = 1 → atomicNew op old v new = (old + v) % m) ∧ (field op.toNat 3 0 = 2 → atomicNew op old v new = min old (v % m)) ∧
    (field op.toNat 3 0 = 3 → atomicNew op old v new = max old (v % m)) ∧
    (field op.toNat 3 0 = 4 → atomicNew op old v new = if old = v % m then new % m else old)) ∧
  (∀ (h : TrayHdr) (o : ReadOutcome) (v w : DWord) (src : DevId) (id : BitVec 48) (s : State),
    let cmds (a : AtomicSrc) : List (Nat × Instr × DWord) := [(1, .atomicAdd a v, 0), (2, .atomicMin a v, 0), (3, .atomicMax a v, 0), (4, .atomicCas a v w, w)]
    (∀ e ∈ cmds (.tray h o),
      let r : TrayReq := .atomic h v e.2.2 o
      let u := tookRequest r { s with near := { s.near with atomicHw := max s.near.atomicHw (trayAtomics s + 1) } }
      let n := atomicWidth h.op
      let held := traySrcUpd (srcDev h) (fun x => { x with reorder := [(h.seq.toNat, r)] })
        { s with near := { s.near with atomicHw := max s.near.atomicHw (trayAtomics s + 1) } }
      (field h.op.toNat 3 0 ≠ e.1 ∨ fenced s = true → exec e.2.1 s = .next s) ∧
      (field h.op.toNat 3 0 = e.1 → InTurn r s → turnWaits held (srcDev h) r = true → exec e.2.1 s = .next held) ∧
      (field h.op.toNat 3 0 = e.1 → InTurn r s → turnWaits held (srcDev h) r = false → exec e.2.1 s = .next (homeExecute r u) ∧
        (r276 u r ≠ .ok → ∃ t, exec e.2.1 s = .next t ∧ OnlyChanges [.near, .links] s t ∧ Answered r (r276 u r) [] s t) ∧
        (r276 u r = .ok → seenOutcome u (homePlace u h) n o = .good → addrAp h ≤ 7 →
          let a := partAddr s (addrAp h) + addrOff h
          let old := Mem.load s.tier.t1 a n
          ∃ t, exec e.2.1 s = .next t ∧ OnlyChanges [.tier, .near, .links] s t ∧ Answered r .ok old s t ∧ t.tier.slices = s.tier.slices
            ∧ Tab.find t.near.rotate (trayLineOf s h) = some (srcDev h)
            ∧ t.tier.t1 = Mem.store s.tier.t1 a (leBytes n (atomicNew h.op (leNat old) v.toNat e.2.2.toNat))) ∧
        (r276 u r = .ok → seenOutcome u (homePlace u h) n o = .good → addrAp h = 9 → ∃ t, exec e.2.1 s = .next t ∧ t.tier.t1 = s.tier.t1
          ∧ t.tier.slices = Mem.store s.tier.slices (addrOff h / 2 ^ 27 * 2 ^ 27 + addrOff h % 2 ^ 27) (leBytes n
              (atomicNew h.op (leNat (sliceLoad s (addrOff h / 2 ^ 27) (addrOff h % 2 ^ 27) n)) v.toNat e.2.2.toNat))))) ∧
    (∀ e ∈ cmds (.remote src id), (fenced s = true → exec e.2.1 s = .next s) ∧
      (fenced s = false →
        (s.near.combine.find? (fun p => p.src == src && p.id == id) = none → exec e.2.1 s = .next s) ∧
        (∀ p : Parked, s.near.combine.find? (fun p => p.src == src && p.id == id) = some p →
          let h := p.msg.hdr
          let line := parkedLine s p
          let here := s.near.combine.filter (fun x => parkedLine s x == line)
          let turn : Prop := field h.op.toNat 3 0 = e.1 ∧ (here.find? (fun x => x.src == src)).any (fun x => x.id == id) = true
            ∧ lineTurn s line = some src.toNat
          let n := atomicWidth h.op
          let a := leNat (p.msg.payload.take n)
          let b := leNat ((p.msg.payload.drop n).take n)
          (¬ turn → exec e.2.1 s = .next s) ∧
          (turn → ∃ t, exec e.2.1 s = .next t ∧ p ∉ t.near.combine) ∧
          (turn → (∀ e ∈ s.near.src, headAtomic s e.1 = none ∧ Tab.find (traySrc s e.1).reorder (traySrc s e.1).expect = none) →
            ∃ t, exec e.2.1 s = .next t ∧ (p ∉ t.near.combine)
            ∧ Tab.find t.near.rotate line = some src.toNat
            ∧ (∀ (r : Region) (k : PartId), regionOf s h.rkey = some r → r.t1 = some k → seenOutcome s (regionPlace s r h.offset.toNat) n p.msg.reads = .good →
                let at_ := partAddr s k.toNat + (r.base.toNat + h.offset.toNat)
                t.tier.t1 = Mem.store s.tier.t1 at_ (leBytes n (atomicNew h.op (leNat (Mem.load s.tier.t1 at_ n)) a b))))))))

/-- A work request is taken from a READY queue pair that has one, and from firmware on a device-owned one; a fenced device takes
none, and a context that is not on chip is fetched first. A data WR of another shape, or whose LKEY fails its check, puts its
queue pair in ERROR, as one of an unknown OPCODE does; one to an excluded device ends with EPOCH_STALE and sends nothing; and one of a single message, with none before it and room, is
sent as a message of its own, which is then outstanding. A control WR on another queue pair or with fields it does not have is
malformed and puts the queue pair in ERROR, and so does one whose values R296, R297 or R298 call malformed. A T1 LKEY that cannot be read does the same. PD_ALLOC takes the lowest free number or ends with QUOTA; PD_FREE frees a domain
that nothing uses; QP_CREATE makes a queue pair with empty queues of the lowest free number, or ends with DENIED or QUOTA;
QP_DESTROY removes one without WRs, taken or posted; QP_RESET empties one in ERROR and makes it READY; REG_REGION puts a region at the
index and with the EPOCH it has next, and DEREG_REGION makes it invalid; MAP_PAGES sets which pages are present and where. Each ends with
its code and result. (The lowest free number is the model's, log entry 64, and the index log entry 181.) (11 R293, 11 R294, 11 R295, 11 R296,
11 R297, 11 R298, 11 R299, 11 R311, 11 R312, 11 R313, 11 R316, 11 R317) -/
def Obligations.WorkRequestCommands : Prop :=
  ∀ (c : WrCmd) (b : RingBlock) (ps : List DWord) (x : Qp) (s : State), qpOf s c.qp.toNat = some x →
    let q := c.qp.toNat
    let w := c.wr
    let op := w.opcode.toNat
    let ring : Bool := decide (qpKind q ≠ 1)
    let queued : Prop := fenced s = false ∧ x.ready = true ∧ (ring = true → x.sendCons ≠ x.sendProd ∧ fnDma s x.ctx = true)
    let error (i : Instr) : Prop := ∃ t, exec i s = .next t ∧ (∃ y : Qp, qpOf t q = some y ∧ y.ready = false) ∧ t.rma.qpErr = satInc s.rma.qpErr
      ∧ bit t.dev.err 9 = true
    let posted (t : State) (k : Status) (v : Nat) : Prop := x.wrs = [] → ¬ (w.flags.toNat.testBit 1 = true ∧ k = .ok) →
      Emit.qpCompletion (BitVec.ofNat 20 q) (BitVec.ofNat 20 q) w.wrId k w.opcode 0 0 (BitVec.ofNat 64 v) (cqPhase x) ∈ t.out
    let ends (i : Instr) (k : Status) : Prop := ∃ t, exec i s = .next t ∧ OnlyChanges [.rma, .out] s t ∧ posted t k 0
      ∧ t.rma.pds = s.rma.pds ∧ t.rma.regions = s.rma.regions ∧ ∀ n : Nat, n ≠ q → qpOf t n = qpOf s n
    let data : List (Nat × Instr) := [(1, .writeWr c), (2, .readWr c), (3, .atomicWr c), (4, .sendWr c)]
    let ctrl : List (Nat × Instr × List Nat) := [(0x80, .pdAlloc c, []), (0x81, .pdFree c, [2]), (0x82, .qpCreate c b, [2, 5]), (0x83, .qpDestroy c, [3]),
      (0x84, .qpReset c, [3]), (0x85, .regRegion c, [1, 2, 5, 9]), (0x86, .deregRegion c, [4]), (0x87, .mapPages c ps, [4, 5, 7, 8])]
    let all : List (Nat × Instr) := data ++ ctrl.map (fun e => (e.1, e.2.1))
    (∀ e ∈ all, (¬ queued ∨ (op ≠ e.1 ∧ knownOp op = true) → exec e.2 s = .next s) ∧
      (queued → op = e.1 → x.resident = false → x.fetching = false → ∃ t, exec e.2 s = .next t ∧ OnlyChanges [.rma] s t
        ∧ qpOf t q = some { x with fetching := true } ∧ t.rma.qpcMiss = satInc s.rma.qpcMiss)) ∧
    (queued → x.resident = true →
      (knownOp op = false → ∀ e ∈ all, error e.2) ∧
      (∀ e ∈ data, op = e.1 → let i := e.2
        (wrShape (qpKind q) w = false → error i) ∧
        (wrShape (qpKind q) w = true → op ≠ 3 → (regionCheck s w.lkey x.pd (if w.opcode = 2 then some 0 else none) w.localOff.toNat w.len.toNat).isSome = true
          → error i) ∧
        (wrShape (qpKind q) w = true → (op = 3 ∨ regionCheck s w.lkey x.pd (if w.opcode = 2 then some 0 else none) w.localOff.toNat w.len.toNat = none) →
          let local_ (r : Region) (k : PartId) : ReadOutcome :=
            seenOutcome s (.t1 (partAddr s k.toNat + r.base.toNat + w.localOff.toNat)) w.len.toNat c.reads
          ((op = 1 ∨ op = 4) → ∀ (r : Region) (k : PartId) (a : Nat), regionOf s w.lkey = some r → r.t1 = some k →
            local_ r k = .uncorrectable a → frameWritten s a = true → error i) ∧
          ((op = 2 ∨ op = 3) ∨ ∀ (r : Region) (k : PartId), regionOf s w.lkey = some r → r.t1 = some k → local_ r k = .good) →
          (excluded s (w.dstDev.toNat % 4096) = true → x.wrs = [] → ∃ t, exec i s = .next t ∧ OnlyChanges [.rma, .tier, .out] s t
            ∧ t.tier.t1 = s.tier.t1 ∧ t.rma.out = s.rma.out
            ∧ t.rma.tx = s.rma.tx ∧ t.rma.qpErr = s.rma.qpErr ∧ (ring = true → posted t .epochStale 0)) ∧
          (excluded s (w.dstDev.toNat % 4096) = false → (op = 3 ∨ ∀ r, regionOf s w.lkey = some r → absentPages r w.localOff.toNat w.len.toNat = []) →
            x.wrs = [] → podReady s q = true → inFlightRoom s = true → (wrPieces q w).length = 1 → ∃ t, exec i s = .next t
              ∧ OnlyChanges [.rma, .tier, .links] s t ∧ t.tier.t1 = s.tier.t1
              ∧ t.rma.counter = (s.rma.counter + 1) % 2 ^ 48 ∧ t.rma.tx = s.rma.tx
              ∧ (∃ m : PodOut, t.rma.out = s.rma.out ++ [m] ∧ m.id = s.rma.counter ∧ m.hdr.dst = w.dstDev ∧ m.hdr.dstQp = w.dstQp
                  ∧ m.hdr.type = (if op ≤ 2 then w.opcode else w.opcode + 1) ∧ m.aired = false)
              ∧ ∃ (y : Qp) (v : WrState), qpOf t q = some y ∧ y.ready = true ∧ y.wrs = [v] ∧ v.wr = w ∧ v.todo = []
                  ∧ v.inflight.map (fun p => p.id) = [s.rma.counter]))) ∧
      (∀ e ∈ ctrl, op = e.1 → (qpKind q = 2 ∨ (qpKind q = 1 ∧ op ≠ 0x85) ∨ (qpKind q = 0 ∧ wrOnly w e.2.2 = false)) → error e.2.1) ∧
      (qpKind q = 0 →
        (op = 0x80 → wrOnly w [] = true →
          (Tab.freshFrom s.rma.pds 4095 1 = none → ends (.pdAlloc c) .quota) ∧
          (∀ p : Nat, Tab.freshFrom s.rma.pds 4095 1 = some p → ∃ t, exec (.pdAlloc c) s = .next t ∧ OnlyChanges [.rma, .out] s t ∧ posted t .ok p
            ∧ t.rma.pds = Tab.put s.rma.pds p x.ctx.toNat)) ∧
        (op = 0x81 → wrOnly w [2] = true →
          let p := w.dstDev.toNat
          let free : Prop := ownsPd s p x.ctx.toNat = true ∧ (∀ e ∈ s.rma.qps, e.2.pd ≠ p) ∧ ∀ e ∈ s.rma.regions, e.2.valid = true → e.2.pd ≠ p
          (¬ free → ends (.pdFree c) .denied) ∧
          (free → ∃ t, exec (.pdFree c) s = .next t ∧ OnlyChanges [.rma, .out] s t ∧ posted t .ok 0 ∧ t.rma.pds = Tab.del s.rma.pds p)) ∧
        (op = 0x82 → wrOnly w [2, 5] = true →
          (ownsPd s w.dstDev.toNat x.ctx.toNat = false → ends (.qpCreate c b) .denied) ∧
          (ownsPd s w.dstDev.toNat x.ctx.toNat = true → blockOk w.remoteOff b = false → error (.qpCreate c b)) ∧
          (ownsPd s w.dstDev.toNat x.ctx.toNat = true → blockOk w.remoteOff b = true →
            (Tab.freshFrom s.rma.qps (qpLimit s - 2048) 2048 = none → ends (.qpCreate c b) .quota) ∧
            (∀ n : Nat, Tab.freshFrom s.rma.qps (qpLimit s - 2048) 2048 = some n → ∃ t, exec (.qpCreate c b) s = .next t
              ∧ OnlyChanges [.rma, .out] s t ∧ posted t .ok n ∧
                ∃ y : Qp, qpOf t n = some y ∧ { y with resident := true } = newQp x.ctx w.dstDev.toNat w.remoteOff b s.tb
                  ∧ (halfRoom s (n % 2) = true → y.resident = true)))) ∧
        (op = 0x83 → wrOnly w [3] = true → let n := w.dstQp.toNat
          (ownsQp s n x.ctx.toNat = none → ends (.qpDestroy c) .denied) ∧
          (∀ y : Qp, ownsQp s n x.ctx.toNat = some y → let idle : Prop := y.wrs = [] ∧ (y.ready = true → y.sendCons = y.sendProd)
            (¬ idle → ends (.qpDestroy c) .denied) ∧ (idle → ∃ t, exec (.qpDestroy c) s = .next t ∧ OnlyChanges [.rma, .out] s t ∧ posted t .ok 0 ∧ qpOf t n = none))) ∧
        (op = 0x84 → wrOnly w [3] = true → let n := w.dstQp.toNat
          (ownsQp s n x.ctx.toNat = none → ends (.qpReset c) .denied) ∧
          (∀ y : Qp, ownsQp s n x.ctx.toNat = some y → (y.ready = true → ends (.qpReset c) .denied) ∧
            (y.ready = false → ∃ t, exec (.qpReset c) s = .next t ∧ OnlyChanges [.rma, .out] s t ∧ posted t .ok 0 ∧ qpOf t n = some { y with
              ready := true, wrs := [], sendCons := y.sendProd, recvCons := y.recvProd, fetching := false, used := s.tb }))) ∧
        (op = 0x85 → wrOnly w [1, 2, 5, 9] = true →
          (pageOfRights w.rights = none → error (.regRegion c)) ∧
          (∀ pg : Nat, pageOfRights w.rights = some pg →
            let ok : Prop := w.rights.toNat.testBit 7 = false ∧ w.rights.toNat.testBit 3 = false ∧ w.remoteOff.toNat % pg = 0 ∧ w.operand.toNat % pg = 0 ∧ w.operand ≠ 0
            (¬ ok → error (.regRegion c)) ∧
            (ok → ownsPd s w.dstDev.toNat x.ctx.toNat = false → ends (.regRegion c) .denied) ∧
            (ok → ownsPd s w.dstDev.toNat x.ctx.toNat = true →
              (takeIndex s = none → ends (.regRegion c) .quota) ∧
              (∀ (i : Nat) (u : State), takeIndex s = some (i, u) → let e : Byte := (Tab.find s.rma.regions i).elim 1 (fun r => r.epoch + 1)
                ∃ t, exec (.regRegion c) s = .next t ∧ OnlyChanges [.rma, .out] s t ∧ posted t .ok (e.toNat * 2 ^ 24 + i)
                  ∧ t.rma.freed = u.rma.freed ∧ t.rma.fresh = u.rma.fresh ∧ t.rma.regions = Tab.put s.rma.regions i
                    { epoch := e, valid := true, pd := w.dstDev.toNat, ctx := x.ctx, base := w.remoteOff, len := w.operand.toNat
                      rights := w.rights.extractLsb' 0 4, page := pg, onDemand := w.rights.toNat.testBit 6, present := [], t1 := none })))) ∧
        (op = 0x86 → wrOnly w [4] = true →
          (∀ k : Status, ownRegion s w.rkey x = .error k → ends (.deregRegion c) k) ∧
          (∀ (i : Nat) (r : Region), ownRegion s w.rkey x = .ok (i, r) → ∃ t, exec (.deregRegion c) s = .next t
            ∧ t.rma.regions = Tab.mod s.rma.regions i (fun r => { r with valid := false }))) ∧
        (op = 0x87 → wrOnly w [4, 5, 7, 8] = true → let n := w.len.toNat
          (∀ k : Status, ownRegion s w.rkey x = .error k → ends (.mapPages c ps) k) ∧
          (∀ (i : Nat) (r : Region), ownRegion s w.rkey x = .ok (i, r) →
            (r.onDemand = false ∨ n = 0 ∨ 512 < n → error (.mapPages c ps)) ∧
            (r.onDemand = true → n ≠ 0 → n ≤ 512 → r.len < (w.localOff.toNat + n) * r.page → ends (.mapPages c ps) .denied) ∧
            (r.onDemand = true → n ≠ 0 → n ≤ 512 → (w.localOff.toNat + n) * r.page ≤ r.len → ∃ t, exec (.mapPages c ps) s = .next t
              ∧ ∃ r' : Region, Tab.find t.rma.regions i = some r' ∧ r'.epoch = r.epoch ∧ r'.valid = true
                ∧ ∀ k : Nat, Tab.find r'.present k =
                    if w.localOff.toNat ≤ k ∧ k < w.localOff.toNat + n then
                      (let e := ps.getD (k - w.localOff.toNat) 0
                       if e.toNat.testBit 0 then some (e &&& ~~~(1 : DWord)) else none)
                    else Tab.find r.present k)))) ∧
      (qpKind q = 1 → op = 0x85 → (wrOnly w [1, 5, 9] = true → w.rights.toNat.testBit 6 = false → w.rights.toNat.testBit 7 = false →
        ∀ (p off i : Nat) (u : State), t1Range s w.remoteOff.toNat w.operand.toNat = some (p, off) → takeIndex s = some (i, u) → ∃ t,
          exec (.regRegion c) s = .next t ∧ OnlyChanges [.rma] s t ∧ ∃ r : Region, Tab.find t.rma.regions i = some r ∧ r.valid = true ∧ r.pd = 0
            ∧ r.base = BitVec.ofNat 64 off ∧ r.len = w.operand.toNat ∧ r.t1 = some (BitVec.ofNat 3 p))))

/-- A message of the pod fabric in its lifetime. A fenced device, and a command of another TYPE, do nothing; a duplicate counts
in RMA_DUPS and is answered again once it is done. A new message that fails a check of R310 is done with its code and has no
effect; one whose context is not on chip is parked while it is fetched. Else a WRITE puts its bytes into the region, or answers
INTEGRITY where a granule it fills in part cannot be read; a READ_REQ is accepted and its data follows; READ_DATA goes to the
region of the work request that asked for it, and is refused while a page of it is absent; an ATOMIC
waits in the combining queue, or is refused with RETRY_LATER where that is full; and a SEND takes the next receive buffer,
or is refused with RETRY_LATER where there is none, and over a channel is delivered; over the key queue pair it asks for the pod key. An ACK that fits no message changes
nothing but a link that has drained; of a firmware message it ends it, or makes it wait to be sent again; of a READ_REQ it is
noted; of the last message of a work request it completes it; and with a terminal code it puts the queue pair in ERROR. (11
R299, 11 R300, 11 R301, 11 R303, 11 R304, 11 R306, 11 R309, 11 R310, 11 R312, 11 R314, 11 R315, 11 R316) -/
def Obligations.PodMessageCommands : Prop :=
  ∀ (m : PodMsg) (s : State),
    let h := m.hdr
    let src : DevId := BitVec.ofNat 12 h.src.toNat
    let q := h.dstQp.toNat
    let cmds : List (Nat × Instr) := [(1, .writeMsg m), (2, .readReq m), (3, .readData m), (4, .atomicMsg m), (5, .sendMsg m)]
    let mine : Prop := fenced s = false ∧ s.tb < h.firstTb.toNat + 80000
    let isNew : Prop := ∀ e ∈ s.rma.ids, ¬ (e.src = src ∧ e.id = h.id)
    let done (t : State) (c : Status) (b : List Byte) : Prop := ∃ e ∈ t.rma.ids, e.src = src ∧ e.id = h.id ∧ e.done = some (c, b)
    let place (r : Region) (k : PartId) : Nat := partAddr s k.toNat + (r.base.toNat + h.offset.toNat)
    let hostGets (r : Region) (at_ : Nat) (t : State) : Prop := ∀ e ∈ (hostWrite r at_ m.payload { s with out := [] }).out, e ∈ t.out
    (∀ e ∈ cmds, (fenced s = true ∨ (h.type.toNat ≠ e.1 ∧ 1 ≤ h.type.toNat ∧ h.type.toNat ≤ 6) → exec e.2 s = .next s)) ∧
    (mine → ∀ e ∈ cmds, h.type.toNat = e.1 →
      (∀ d : IdEntry, s.rma.ids.find? (fun e => e.src == src && e.id == h.id) = some d → ∃ t, exec e.2 s = .next t
        ∧ OnlyChanges [.rma, .links] s t ∧ t.rma.dups = satInc s.rma.dups ∧ t.rma.ids = s.rma.ids
        ∧ (d.done = none → t = { s with rma := { s.rma with dups := satInc s.rma.dups } })) ∧
      (isNew → podEarly s m ≠ .ok → ∃ t, exec e.2 s = .next t ∧ OnlyChanges [.rma, .links] s t ∧ done t (podEarly s m) []
        ∧ t.rma.stale = if podEarly s m = .epochStale then satInc s.rma.stale else s.rma.stale) ∧
      (isNew → podEarly s m = .ok → ∀ x : Qp, qpOf s q = some x →
        (x.resident = false → s.rma.arrivalHigh * 1024 < arrivalBytes s + parkedBytes m → ∃ t, exec e.2 s = .next t ∧ done t .retryLater []) ∧
        (x.resident = false → arrivalBytes s + parkedBytes m ≤ s.rma.arrivalHigh * 1024 → ∃ t, exec e.2 s = .next t
          ∧ t.rma.arrival = s.rma.arrival ++ [m] ∧ ∃ y : Qp, qpOf t q = some y ∧ y.fetching = true) ∧
        (x.resident = true → podKey s m ≠ .ok → ∃ t, exec e.2 s = .next t ∧ done t (podKey s m) []) ∧
        (x.resident = true → podKey s m = .ok → ∀ (p : Nat) (ps : List Nat), podAbsent s m = p :: ps → ∃ t, exec e.2 s = .next t
          ∧ done t (if faultFailed s h.rkey p then .denied else if e.1 = 2 then .ok else .retryLater) []) ∧
        (x.resident = true → podKey s m = .ok → podAbsent s m = [] → podTagBad s m = true → e.1 ≠ 4 → ∃ t, exec e.2 s = .next t
          ∧ done t .integrity [] ∧ t.sec.msgAuthFail = satInc s.sec.msgAuthFail) ∧
        (x.resident = true → podKey s m = .ok → podAbsent s m = [] → podTagBad s m = false → (∃ t, exec e.2 s = .next t) ∧
          (e.1 = 1 → ∀ r : Region, regionOf s h.rkey = some r →
            ((regionMerge r h.offset.toNat m.payload m.reads s).1 = false → ∃ t, exec e.2 s = .next t ∧ done t .integrity []) ∧
            ((regionMerge r h.offset.toNat m.payload m.reads s).1 = true → ∃ t, exec e.2 s = .next t ∧ done t .ok []) ∧
            (∀ k : PartId, r.t1 = some k → (place r k % 512 = 0 ∧ m.payload.length % 512 = 0)
                ∨ seenOutcome s (.t1 (place r k)) m.payload.length m.reads = .good →
              ∃ t, exec e.2 s = .next t ∧ done t .ok [] ∧ t.tier.t1 = Mem.store s.tier.t1 (place r k) m.payload) ∧
            (r.t1 = none → ∃ t, exec e.2 s = .next t ∧ done t .ok [] ∧ t.tier = s.tier ∧ hostGets r h.offset.toNat t)) ∧
          (e.1 = 2 → ∃ t, exec e.2 s = .next t ∧ done t .ok [] ∧
            ∀ r : Region, regionOf s h.rkey = some r → seenOutcome s (regionPlace s r h.offset.toNat) h.rlen.toNat m.reads = .good → t.tier.t1 = s.tier.t1 ∧
              ∀ k : PartId, r.t1 = some k → 1 ≤ h.rlen.toNat → h.rlen.toNat ≤ mostBytes q →
              podReady s q = true → inFlightRoom s = true → s.rma.queued = [] → ∃ o ∈ t.rma.out, o.hdr.type = 3 ∧ o.hdr.dst = h.src
                ∧ o.hdr.ref = h.id ∧ o.hdr.status = 0 ∧ o.payload = Mem.load s.tier.t1 (place r k) h.rlen.toNat) ∧
          (e.1 = 3 → wrOf s q h.ref.toNat = none → ∃ t, exec e.2 s = .next t ∧ done t .ok []) ∧
          (e.1 = 3 → ∀ (i : Nat) (w : WrState) (p : Piece), wrOf s q h.ref.toNat = some (i, w, p) →
            let at_ := w.wr.localOff.toNat + (p.off + h.offset.toNat)
            ((statusOf h.status).getD .ok ≠ .ok → ∃ t, exec e.2 s = .next t ∧ done t .ok []) ∧
            ((statusOf h.status).getD .ok = .ok → ∀ r : Region, regionOf s w.wr.lkey = some r →
              (∀ (pg : Nat) (ps : List Nat), absentPages r at_ m.payload.length = pg :: ps → ∃ t, exec e.2 s = .next t
                ∧ done t (if faultFailed s w.wr.lkey pg then .ok else .retryLater) []) ∧
              (absentPages r at_ m.payload.length = [] → ∃ t, exec e.2 s = .next t ∧ done t .ok [] ∧ (r.t1 = none → hostGets r at_ t)))) ∧
          (e.1 = 4 → s.near.combine.length < 16384 → ∃ t, exec e.2 s = .next t ∧ t.tier = s.tier
            ∧ t.near = { s.near with combine := s.near.combine ++ [{ src := src, id := h.id, msg := m }] }) ∧
          (e.1 = 4 → 16384 ≤ s.near.combine.length → ∃ t, exec e.2 s = .next t ∧ done t .retryLater [] ∧ t.tier = s.tier
            ∧ t.near = { s.near with retry := satInc s.near.retry }) ∧
          (e.1 = 5 → h.flags.toNat.testBit 3 = true → ∃ t, exec e.2 s = .next t ∧ done t (if qpChannels s q = [] then .denied else .ok) []) ∧
          (e.1 = 5 → h.flags.toNat.testBit 3 = false → qpKind q = 1 → q ≠ keyQp → ∃ t, exec e.2 s = .next t ∧ done t .ok []) ∧
          (e.1 = 5 → h.flags.toNat.testBit 3 = false → q = keyQp → ∃ t, exec e.2 s = .next t
            ∧ done t (if (s.sec.fetch.isSome ∧ src = s.sec.donor) ∨ s.sec.podGen.isSome then .ok else .denied) []) ∧
          (e.1 = 5 → h.flags.toNat.testBit 3 = false → qpKind q = 2 →
            (x.recvCons = x.recvProd → ∃ t, exec e.2 s = .next t ∧ done t .retryLater []) ∧
            (x.recvCons ≠ x.recvProd → ∀ r : Region, regionCheck s m.buf.1 x.pd (some 0) m.buf.2.2 m.buf.2.1 = none → m.payload.length ≤ m.buf.2.1 →
              regionOf s m.buf.1 = some r → absentPages r m.buf.2.2 m.payload.length = [] → r.t1 = none → ∃ t, exec e.2 s = .next t ∧ done t .ok []
                ∧ hostGets r m.buf.2.2 t
                ∧ Emit.qpCompletion (BitVec.ofNat 20 q) (BitVec.ofNat 20 q) 0 .ok 0x10 m.payload.length src (BitVec.ofNat 64 h.srcQp.toNat) (cqPhase x) ∈ t.out
                ∧ ∃ y : Qp, qpOf t q = some y ∧ y.recvCons = x.recvCons + 1))))) ∧
    (fenced s = true → exec (.ack m) s = .next s) ∧
    (fenced s = false →
      let ok : Prop := h.type = 6 ∧ excluded s (h.src.toNat % 4096) = false ∧ exclEpoch s (h.src.toNat % 4096) = h.xepoch
        ∧ h.dst.toNat = (myDev s).toNat ∧ podTagBad s m = false
      let found (o : PodOut) : Prop := s.rma.out.find? (fun o => o.id == h.id.toNat) = some o
      (¬ ok ∨ (∀ o ∈ s.rma.out, o.id ≠ h.id.toNat) ∨ statusOf h.status = none → ∃ t, exec (.ack m) s = .next t ∧ OnlyChanges [.links] s t) ∧
      (ok → ∀ (o : PodOut) (c : Status), found o → statusOf h.status = some c →
        (o.acked = true ∨ o.hdr.dst.toNat % 4096 ≠ h.src.toNat % 4096 → ∃ t, exec (.ack m) s = .next t ∧ OnlyChanges [.links] s t) ∧
        (o.acked = false → o.hdr.dst.toNat % 4096 = h.src.toNat % 4096 → let qs := o.hdr.srcQp.toNat
          (c = .retryLater → ∃ t, exec (.ack m) s = .next t ∧ t.rma.rlRecv = satInc s.rma.rlRecv
            ∧ (o.fw.isSome = true → (∀ t0 : Nat, o.firstRef = some t0 → s.tb < t0 + s.rma.retryLimit * 625000) →
                ∃ v ∈ t.rma.refused, v.id = o.id ∧ v.fw = o.fw ∧ v.refusals = o.refusals + 1 ∧ v.firstRef = some (o.firstRef.getD s.tb)
                  ∧ s.tb + 2500 ≤ v.due ∧ v.due ≤ s.tb + 2500 + min (4 * 2 ^ o.refusals) 1024 * 625)) ∧
          (c = .ok → o.fw.isSome = true → o.first < s.tb → ∃ t, exec (.ack m) s = .next t ∧ o ∉ t.rma.out) ∧
          (o.fw = none → o.hdr.type ≠ 3 → ¬ (o.hdr.type = 4 ∧ qs = fwQp) → ∀ (i : Nat) (w : WrState) (p : Piece) (x : Qp),
            wrOf s qs h.id.toNat = some (i, w, p) → qpOf s qs = some x →
            (c = .ok → o.hdr.type = 2 → ∃ t, exec (.ack m) s = .next t ∧ OnlyChanges [.rma, .links] s t
              ∧ t.rma.out = s.rma.out.map (fun o => if o.id = h.id.toNat then { o with acked := true } else o)) ∧
            (c = .ok → o.hdr.type ≠ 2 → x.wrs = [w] → w.inflight = [p] → w.todo = [] → w.backoff = [] → w.done = none →
              qpKind qs ≠ 1 → w.wr.flags.toNat.testBit 1 = false → w.wr.opcode ≠ 2 → ∃ t, exec (.ack m) s = .next t
                ∧ Emit.qpCompletion (BitVec.ofNat 20 qs) (BitVec.ofNat 20 qs) w.wr.wrId .ok w.wr.opcode 0 0
                    (if w.wr.opcode = 3 then BitVec.ofNat 64 (leNat m.payload) else 0) (cqPhase x) ∈ t.out) ∧
            (c ≠ .ok → c ≠ .retryLater → x.ready = true → ∃ t, exec (.ack m) s = .next t ∧ t.rma.qpErr = satInc s.rma.qpErr
              ∧ ∃ y : Qp, qpOf t qs = some y ∧ y.ready = false)))))

/-- The timers of the remote-access engine; on a fenced device only an identifier entry ends. A message without an ACK for 8 µs is
sent again, once in 8 µs and for 64 µs, and counted; at the first re-send its device is reported as suspect. At the end of a
message's lifetime its sender counts it in RMA_UNACKED with bit 9 of DEV_ERR, stops waiting, and its work request's queue
pair is in ERROR. A READ that lacks data beyond its time puts its queue pair in ERROR too. After its back-off a refused piece,
or a refused firmware message, is sent as a new message; past RMA_RETRY_LIMIT a work request of which nothing took effect
ends with RETRY_LATER, and another puts its queue pair in ERROR; a key message backs off anew and another firmware message ends
(log entry 215). A context that has been fetched is on chip where its half has room; one whose MAC
fails is in ERROR without work requests. A page fault past its time has failed, and what waited for it no longer does. (11
R303, 11 R304, 11 R306, 11 R308, 11 R309, 11 R312, 11 R313, 11 R314, 11 R316, 11 R318, 17 R448) -/
def Obligations.RemoteTimerCommands : Prop :=
  ∀ (id : BitVec 48) (src : DevId) (qn : QpNum) (macOk : Bool) (k : Word) (page : Nat) (s : State),
    let found (o : PodOut) : Prop := s.rma.out.find? (fun o => o.id == id.toNat) = some o
    let error (i : Instr) (q : Nat) : Prop := ∃ t, exec i s = .next t ∧ t.rma.qpErr = satInc s.rma.qpErr ∧ bit t.dev.err 9 = true
      ∧ ∃ y : Qp, qpOf t q = some y ∧ y.ready = false
    (exec (.identifierEntryExpiry src id) s = .next { s with rma := { s.rma with
      ids := s.rma.ids.filter (fun e => !(e.src == src && e.id == id && decide (e.first + 80000 ≤ s.tb))) } }) ∧
    (fenced s = true → ∀ c ∈ [Instr.retransmitTimer id, .messageLifetimeEnd id, .readTimeout id, .backoffExpiry id, .retryLimitExpiry id,
      .contextFetchDone qn macOk, .pageFaultTimeout k page], exec c s = .next s) ∧
    (fenced s = false →
      ((∀ o ∈ s.rma.out, o.id ≠ id.toNat) → exec (.messageLifetimeEnd id) s = .next s ∧ exec (.readTimeout id) s = .next s
        ∧ ∃ t, exec (.retransmitTimer id) s = .next t ∧ OnlyChanges [.links] s t) ∧
      (∀ o : PodOut, found o →
        (o.aired = false ∨ podWaits s id.toNat = true ∨ o.acked = true ∨ s.tb < o.sent + 5000 ∨ o.first + 40000 ≤ s.tb ∨ mayEmit s = false →
          ∃ t, exec (.retransmitTimer id) s = .next t
          ∧ OnlyChanges [.links] s t) ∧
        (o.aired = true → podWaits s id.toNat = false → o.acked = false → o.sent + 5000 ≤ s.tb → s.tb < o.first + 40000 → mayEmit s = true →
          ∃ t, exec (.retransmitTimer id) s = .next t ∧ OnlyChanges [.rma, .links] s t ∧ t.rma.retx = satInc s.rma.retx
          ∧ (∃ o' ∈ t.rma.out, o'.id = o.id ∧ o'.hdr = o.hdr ∧ o'.first = o.first ∧ o'.retx = o.retx + 1 ∧ o'.sent = s.tb)
          ∧ (o.retx = 0 → slUp s = true → ∃ m ∈ (link t 31).queue, m.pkt = .sl (.suspect (BitVec.ofNat 12 o.hdr.dst.toNat)))) ∧
        (o.aired = false ∨ o.acked = true ∨ s.tb < o.first + 80008 → exec (.messageLifetimeEnd id) s = .next s) ∧
        (o.aired = true → o.acked = false → o.first + 80008 ≤ s.tb → ∃ t, exec (.messageLifetimeEnd id) s = .next t ∧ o ∉ t.rma.out
          ∧ t.rma.unacked = satInc s.rma.unacked ∧ bit t.dev.err 9 = true
          ∧ ∀ (i : Nat) (w : WrState) (p : Piece) (x : Qp), wrOf s o.hdr.srcQp.toNat id.toNat = some (i, w, p) → qpOf s o.hdr.srcQp.toNat = some x →
              x.ready = true → t.rma.qpErr = satInc s.rma.qpErr ∧ ∃ y : Qp, qpOf t o.hdr.srcQp.toNat = some y ∧ y.ready = false) ∧
        (let due : Prop := o.hdr.type = 2 ∧ o.aired = true ∧ o.first + (s.rma.faultTimeout + 1) * 625000 ≤ s.tb
         (¬ due → exec (.readTimeout id) s = .next s) ∧
         (due → wrOf s o.hdr.srcQp.toNat id.toNat = none → exec (.readTimeout id) s =
           .next { s with rma := { s.rma with out := s.rma.out.filter (fun m => m.id != id.toNat) } }) ∧
         (due → ∀ (i : Nat) (w : WrState) (p : Piece) (x : Qp), wrOf s o.hdr.srcQp.toNat id.toNat = some (i, w, p) →
           qpOf s o.hdr.srcQp.toNat = some x → x.ready = true → error (.readTimeout id) o.hdr.srcQp.toNat))) ∧
      (∀ (q i : Nat) (w : WrState) (p : Piece), backoffOf s id.toNat = some (q, i, w, p) →
        (s.tb < p.at_ → exec (.backoffExpiry id) s = .next s) ∧
        (p.at_ ≤ s.tb → podReady s q = false → exec (.backoffExpiry id) s = .next
          (wrUpd q i (fun v => { v with backoff := v.backoff.filter (fun x => x.id != id.toNat), todo := p :: v.todo }) s)) ∧
        (∀ x : Qp, p.at_ ≤ s.tb → podReady s q = true → inFlightRoom s = true → qpOf s q = some x → x.ready = true → x.resident = true → i = 0 → x.wrs = [w] →
          w.todo = [] → w.inflight = [] → w.backoff = [p] → w.done = none → w.heldPage = none → ∃ t, exec (.backoffExpiry id) s = .next t
            ∧ OnlyChanges [.rma, .links] s t ∧ t.rma.counter = (s.rma.counter + 1) % 2 ^ 48
            ∧ (∃ m : PodOut, t.rma.out = s.rma.out ++ [m] ∧ m.id = s.rma.counter ∧ m.first = s.tb ∧ m.hdr.dst = w.wr.dstDev)
            ∧ ∃ (y : Qp) (v : WrState), qpOf t q = some y ∧ y.wrs = [v] ∧ v.wr = w.wr ∧ v.backoff = [] ∧ v.inflight.map (fun x => x.id) = [s.rma.counter]) ∧
        (let due : Prop := p.first.getD s.tb + s.rma.retryLimit * 625000 ≤ s.tb
         (¬ due → exec (.retryLimitExpiry id) s = .next s) ∧
         (due → ∀ x : Qp, qpOf s q = some x →
           (w.applied = true → x.ready = true → error (.retryLimitExpiry id) q) ∧
           (w.applied = false → i = 0 → x.wrs = [w] → w.done = none → qpKind q ≠ 1 → ∃ t, exec (.retryLimitExpiry id) s = .next t
             ∧ OnlyChanges [.repro, .rma, .links, .out] s t ∧ (∃ y : Qp, qpOf t q = some y ∧ y.wrs = [] ∧ y.ready = x.ready)
             ∧ Emit.qpCompletion (BitVec.ofNat 20 q) (BitVec.ofNat 20 q) w.wr.wrId .retryLater w.wr.opcode 0 0 0 (cqPhase x) ∈ t.out)))) ∧
      (backoffOf s id.toNat = none →
        (s.rma.refused.find? (fun o => o.id == id.toNat) = none → exec (.backoffExpiry id) s = .next s ∧ exec (.retryLimitExpiry id) s = .next s) ∧
        (∀ o : PodOut, s.rma.refused.find? (fun o => o.id == id.toNat) = some o →
          let may : Prop := podReady s o.hdr.srcQp.toNat = true
          let past : Prop := ∃ t0 : Nat, o.firstRef = some t0 ∧ t0 + s.rma.retryLimit * 625000 ≤ s.tb
          let others := s.rma.refused.filter (fun o => o.id != id.toNat)
          (¬ past → exec (.retryLimitExpiry id) s = .next s) ∧
          (past → o.fw.any keyMsg = false → ∃ t, exec (.retryLimitExpiry id) s = .next t ∧ t.rma.refused = others) ∧
          (past → o.fw.any keyMsg = true → ∃ t, exec (.retryLimitExpiry id) s = .next t ∧ OnlyChanges [.rma, .free] s t
            ∧ ∃ v : PodOut, t.rma.refused = others ++ [v] ∧ v.id = o.id ∧ v.fw = o.fw ∧ v.refusals = 1 ∧ s.tb + 2500 ≤ v.due) ∧
          (s.tb < o.due ∨ ¬ may ∨ inFlightRoom s = false → exec (.backoffExpiry id) s = .next s) ∧
          (o.due ≤ s.tb → may → inFlightRoom s = true → ∃ t, exec (.backoffExpiry id) s = .next t ∧ OnlyChanges [.repro, .rma, .links] s t
            ∧ t.rma.refused = s.rma.refused.filter (fun o => o.id != id.toNat) ∧ t.rma.counter = (s.rma.counter + 1) % 2 ^ 48
            ∧ ∃ m : PodOut, t.rma.out = s.rma.out ++ [m] ∧ m.id = s.rma.counter ∧ m.fw = o.fw ∧ m.payload = o.payload ∧ m.refusals = o.refusals))) ∧
      (qpOf s qn.toNat = none → exec (.contextFetchDone qn macOk) s = .next s) ∧
      (∀ x : Qp, qpOf s qn.toNat = some x →
        (x.fetching = false → exec (.contextFetchDone qn macOk) s = .next s) ∧
        let room : Bool := halfRoom (evictFor (qn.toNat % 2) s) (qn.toNat % 2)
        (x.fetching = true → macOk = true → room = false → exec (.contextFetchDone qn macOk) s = .next (evictFor (qn.toNat % 2) s)) ∧
        (x.fetching = true → macOk = true → room = true → ∃ t, exec (.contextFetchDone qn macOk) s = .next t
          ∧ (∀ m ∈ t.rma.arrival, m.hdr.dstQp.toNat ≠ qn.toNat) ∧ ∃ y : Qp, qpOf t qn.toNat = some y ∧ y.resident = true ∧ y.fetching = false) ∧
        (x.fetching = true → macOk = false → ∃ t, exec (.contextFetchDone qn macOk) s = .next t ∧ t.rma.qpErr = satInc s.rma.qpErr
          ∧ bit t.dev.err 9 = true ∧ (∀ m ∈ t.rma.arrival, m.hdr.dstQp.toNat ≠ qn.toNat)
          ∧ ∃ y : Qp, qpOf t qn.toNat = some y ∧ y.ready = false ∧ y.resident = room ∧ y.wrs = [])) ∧
      (s.rma.openFaults.find? (fun f => f.rkey == k && f.page == page) = none → exec (.pageFaultTimeout k page) s = .next s) ∧
      (∀ f : OpenFault, s.rma.openFaults.find? (fun f => f.rkey == k && f.page == page) = some f →
        (f.failed = true ∨ s.tb < f.opened + s.rma.faultTimeout * 625000 → exec (.pageFaultTimeout k page) s = .next s) ∧
        (f.failed = false → f.opened + s.rma.faultTimeout * 625000 ≤ s.tb → ∃ t, exec (.pageFaultTimeout k page) s = .next t
          ∧ t.rma.openFaults = s.rma.openFaults.map (fun f => if f.rkey = k && f.page = page then { f with failed := true, waiting := [] } else f))))

/-- The scheduler's events. FRAME_START begins the next major frame at its first slot, with the weights of a commit that waits;
SLOT_END begins the next slot of the frame at the tick where the last one ended; at either, a cluster bound to a context that
the new slot does not name is switched away: it is saved, or it is to be at its next switch point. At its effective slot end a context that
owes debt has ended for this slot and its debt falls by what the slot gives up. SAVE_COMPLETE, once no line of a stream is outstanding, keeps what the context left, but not a
work item that has ended, and leaves the cluster to the context the slot gives it, if any; RESTORE_COMPLETE uses up the save, and a
work item that waits for nothing goes on at its index. Neither takes effect on a fenced device. METER_SAMPLE adds the pages
charged to every tenant once in each 625,000 tb, and writes the dump that is due. (13 R343, 13 R344, 13 R347, 13 R352, 13 R354, 13 R356,
13 R357, 13 R359) -/
def Obligations.SchedulerCommands : Prop :=
  ∀ (ctx : FnId) (cl : ClusterId) (s : State),
    let c := ctx.toNat
    let n := cl.toNat
    let x := cluster s n
    let f := frameTb s
    let switched (u : State) : Prop := ∀ (sl : ImpSlot) (m d : Nat), curSlot u = some sl → (cluster s m).ctx = some d → (cluster s m).moving = none →
      (namedCtxs sl.contextMask).contains d = false → (cluster u m).switchAt.isSome = true ∨ (cluster u m).moving = some (true, d)
    let begins (i : Instr) (j t0 : Nat) (more : State → Prop) : Prop := ∃ u, exec i s = .next u ∧ OnlyChanges [.maint, .clusters, .sched, .req] s u
      ∧ u.sched.slot = j ∧ u.sched.slotStart = t0 ∧ switched u ∧ more u
    let frameDue : Prop := s.sched.running = true ∧ f ≠ 0 ∧ s.sched.frame.toNat < s.tb / f
    (¬ frameDue → exec .frameStart s = .next s) ∧
    (frameDue → begins .frameStart 0 (s.tb / f * f) (fun u => u.sched.frame = BitVec.ofNat 64 (s.tb / f) ∧ u.sched.commitPending = false
      ∧ ∀ (d : Nat) (y : Ctx), Tab.find s.sched.ctxs d = some y →
          (ctxOf u d).weight = (if s.sched.commitPending then y.staged.toNat else y.weight))) ∧
    (curSlot s = none ∨ s.forme.committed = none → exec .slotEnd s = .next s) ∧
    (∀ (sl : ImpSlot) (k : Committed), curSlot s = some sl → s.forme.committed = some k →
      let t0 := s.sched.slotStart + sl.length.toNat
      let due : Prop := t0 ≤ s.tb ∧ s.sched.slot + 1 < k.imposition.slots.length
      (¬ due → exec .slotEnd s = .next s) ∧ (due → begins .slotEnd (s.sched.slot + 1) t0 (fun u => u.sched.frame = s.sched.frame))) ∧
    (curSlot s = none → exec (.effectiveSlotEnd ctx) s = .next s) ∧
    (∀ sl : ImpSlot, curSlot s = some sl →
      let y := ctxOf s c
      let d := min y.debt sl.length.toNat
      let due : Prop := sl.contextMask.toNat.testBit c = true ∧ d ≠ 0 ∧ y.pastEnd = false ∧ s.sched.slotStart + sl.length.toNat - d ≤ s.tb
      (¬ due → exec (.effectiveSlotEnd ctx) s = .next s) ∧
      (due → ∃ u, exec (.effectiveSlotEnd ctx) s = .next u ∧ OnlyChanges [.clusters, .sched, .req] s u ∧ (ctxOf u c).pastEnd = true
        ∧ ((∀ e ∈ s.clusters, e.2.ctx ≠ some c) → (ctxOf u c).debt = y.debt - d)
        ∧ ∀ m : Nat, (cluster s m).ctx = some c → (cluster s m).moving = none →
            (cluster u m).switchAt.isSome = true ∨ (cluster u m).moving = some (true, c))) ∧
    (((∀ d : Nat, x.moving ≠ some (true, d)) ∨ fenced s = true) → exec (.saveComplete cl) s = .next s) ∧
    (∀ d : Nat, x.moving = some (true, d) → streamsQuiet s n d = false → exec (.saveComplete cl) s = .next s) ∧
    (∀ d : Nat, fenced s = false → x.moving = some (true, d) → streamsQuiet s n d = true → ∃ u, exec (.saveComplete cl) s = .next u
      ∧ OnlyChanges [.clusters, .sched] s u ∧ (∀ m : Nat, m ≠ n → cluster u m = cluster s m) ∧ (cluster u n).item = none
      ∧ (cluster u n).moving = (cluster u n).ctx.map (fun d' => (false, d'))
      ∧ (x.ended.isSome = true → x.item.isSome = true → u.sched.saves = s.sched.saves)
      ∧ (x.ended = none ∨ x.item = none → u.sched.saves = Tab.put s.sched.saves (n * 64 + d) (savedOf s d x))) ∧
    (((∀ d : Nat, x.moving ≠ some (false, d)) ∨ fenced s = true) → exec (.restoreComplete cl) s = .next s) ∧
    (∀ d : Nat, fenced s = false → x.moving = some (false, d) → ∃ u, exec (.restoreComplete cl) s = .next u
      ∧ u.sched.saves = Tab.del s.sched.saves (n * 64 + d)
      ∧ ∀ v : Saved, Tab.find s.sched.saves (n * 64 + d) = some v → v.wait = .none →
          (cluster u n).pc = v.pc ∧ (cluster u n).item = v.item ∧ (cluster u n).aregs = v.aregs ∧ (cluster u n).loops = v.loops) ∧
    (s.tb / Config.tbPerMs ≤ s.sched.sampledAt / Config.tbPerMs → exec .meterSample s = .next s) ∧
    (s.sched.sampledAt / Config.tbPerMs < s.tb / Config.tbPerMs → ∃ u, exec .meterSample s = .next u ∧ OnlyChanges [.sched, .out] s u
      ∧ u.sched.sampledAt = s.tb
      ∧ (Tab.wf s.tier.quotas = true → ∀ (k : Nat) (q : Quota) (m : Meter), Tab.find s.tier.quotas k = some q → Tab.find s.sched.meters k = some m →
          ∃ m' : Meter, Tab.find u.sched.meters k = some m' ∧ m'.t1PageMs = m.t1PageMs + BitVec.ofNat 64 q.t1Held
            ∧ m'.t3PageMs = m.t3PageMs + BitVec.ofNat 64 q.t3Used ∧ m'.beats = m.beats)
      ∧ (∀ t0 : Nat, s.sched.dumpAt = some t0 →
          (s.tb < t0 → u.out = s.out ∧ u.sched.dumpAt = some t0) ∧
          (t0 ≤ s.tb → u.sched.dumpAt = none ∧ u.sched.busy = false ∧ u.sched.code = codeOf .ok
            ∧ u.out = s.out ++ [.meterDump (s.sched.meterHi ++ s.sched.meterLo) (BitVec.ofNat 64 t0) u.sched.meters u.sched.overflow])))

/-- Time, pod barriers, resets and the triplicated registers. Every 625,000 tb a TIME frame is queued on each switch plane that is UP; ALIGNED
clears after 6,250,000 tb without an exchange. The coordinator of a pod barrier keeps each ARRIVE of the instance once, and at the last
one fixes the release tick (the lead is its register's); a participant keeps a RELEASE for its tick, releases at once and counts
in REPRO_LATE where the tick has passed, and ends the instance at EPOCH_STALE; at the tick the waiting arrivals are gone and the next
instance begins. READY ends the start-up that a passed boot has reached. PERST# takes the link down and asks for a warm reset,
cause 2; MAINT_CTRL.WARM asks for one, cause 3; either is cold where a cold one is to take its place, waits for the ramp of a governed
stop to end, and neither starts while a reset is under way. A copy of a TMR register that differs is rewritten with the majority and counted. (14 R371, 14 R372, 14 R373, 14 R374,
17 R442, 17 R444, 18 R459, 18 R460, 18 R461, 18 R465, 19 R478) -/
def Obligations.TimeAndResetCommands : Prop :=
  ∀ (d : DevId) (id : Byte) (inst : Nat) (tick : DWord) (w : CtlWrite) (reg copy : BitVec 2) (v : Word) (s : State),
    let k := id.toNat
    let pod (u : State) (x : PodBarrier) : Prop := Tab.find u.repro.pods k = some x
    let next (x : PodBarrier) : PodBarrier := { x with inst := x.inst + 1, sent := false, arrived := x.early, early := [], release := none }
    let timeDue : Prop := s.repro.timeAt + 625000 ≤ s.tb ∧ s.maint.pwrgd = true ∧ s.maint.silent = false
    let lossDue : Prop := s.repro.aligned = true ∧ ∀ t0 : Nat, s.repro.lastExchange = some t0 → t0 + 6250000 ≤ s.tb
    (¬ timeDue → exec .timeExchangeTimer s = .next s) ∧
    (timeDue → ∃ t, exec .timeExchangeTimer s = .next t ∧ OnlyChanges [.repro, .links] s t
      ∧ t.repro = { s.repro with timeAt := s.tb }
      ∧ ∀ j : Nat, j < 16 →
          (linkIsUp s (15 + j) = false → link t (15 + j) = link s (15 + j)) ∧
          (linkIsUp s (15 + j) = true → ∃ q : Queued, (link t (15 + j)).queue = (link s (15 + j)).queue ++ [q] ∧ q.pkt = .time ∧ q.cls = 0)) ∧
    (¬ lossDue → exec .alignmentLoss s = .next s) ∧
    (lossDue → ∃ t, exec .alignmentLoss s = .next t ∧ OnlyChanges [.dev, .repro] s t ∧ t.repro = { s.repro with aligned := false }
      ∧ bit t.dev.err 13 = true) ∧
    (fenced s = true ∨ Tab.find s.repro.pods k = none → exec (.arrive d id inst) s = .next s
      ∧ ∀ c : Status, exec (.release id inst tick c) s = .next s) ∧
    (Tab.find s.repro.pods k = none → exec (.podBarrierReleaseTick id inst) s = .next s) ∧
    (∀ b : PodBarrier, pod s b →
      (let put (f : PodBarrier → PodBarrier) : Out := .next { s with repro := { s.repro with pods := Tab.mod s.repro.pods k f } }
       fenced s = false →
        (b.coord ≠ myDev s ∨ (inst ≠ b.inst ∧ inst ≠ b.inst + 1) ∨ (inst = b.inst ∧ (b.release.isSome = true ∨ d ∈ b.arrived))
          ∨ (inst = b.inst + 1 ∧ d ∈ b.early) → exec (.arrive d id inst) s = .next s) ∧
        (b.coord = myDev s → inst = b.inst + 1 → d ∉ b.early → exec (.arrive d id inst) s = put (fun x => { x with early := x.early ++ [d] })) ∧
        (b.coord = myDev s → inst = b.inst → b.release = none → d ∉ b.arrived →
          let all := b.arrived ++ [d]
          (all.length < b.participants → exec (.arrive d id inst) s = put (fun x => { x with arrived := x.arrived ++ [d] })) ∧
          (b.participants ≤ all.length → ∃ t, exec (.arrive d id inst) s = .next t ∧ OnlyChanges [.repro, .rma, .links, .out] s t
            ∧ (myDev s ∈ all → pod t { b with arrived := all, release := some (s.tb + s.repro.podLead) })
            ∧ (myDev s ∉ all → pod t (next { b with arrived := all })))) ∧
        (inst ≠ b.inst ∨ b.sent = false ∨ b.release.isSome = true → ∀ c : Status, exec (.release id inst tick c) s = .next s) ∧
        (inst = b.inst → b.sent = true → b.release = none →
          (s.tb < tick.toNat → exec (.release id inst tick .ok) s = put (fun x => { x with release := some tick.toNat })) ∧
          (tick.toNat ≤ s.tb → ∃ t, exec (.release id inst tick .ok) s = .next t ∧ t.repro.barriers = satInc s.repro.barriers
            ∧ t.repro.late = satInc s.repro.late ∧ Tab.find t.sched.arrivals (barrierKey b.ctx 2 k) = none
            ∧ (b.early.length < b.participants → pod t (next b))) ∧
          (∀ c : Status, c ≠ .ok → ∃ t, exec (.release id inst tick c) s = .next t ∧ t.repro.barrierFail = satInc s.repro.barrierFail
            ∧ bit t.dev.err 13 = true ∧ pod t (next b)))) ∧
      (let due : Prop := inst = b.inst ∧ b.sent = true ∧ ∃ t0 : Nat, b.release = some t0 ∧ t0 ≤ s.tb
       (¬ due → exec (.podBarrierReleaseTick id inst) s = .next s) ∧
       (due → ∃ t, exec (.podBarrierReleaseTick id inst) s = .next t ∧ t.repro.barriers = satInc s.repro.barriers ∧ t.repro.late = s.repro.late
         ∧ Tab.find t.sched.arrivals (barrierKey b.ctx 2 k) = none ∧ (b.early.length < b.participants → pod t (next b))))) ∧
    (¬ (s.maint.pwrgd = true ∧ s.maint.phase = 0 ∧ s.sec.boot = 1) → exec .ready s = .next s) ∧
    (s.maint.pwrgd = true → s.maint.phase = 0 → s.sec.boot = 1 → ∃ t, exec .ready s = .next t ∧ OnlyChanges [.dev, .maint, .rma, .out] s t
      ∧ t.dev.ready = true ∧ t.maint.phase = 1 ∧ t.maint.everReady = true
      ∧ (bit s.maint.lastReset.maj 4 = false → t.dev.caps = s.dev.caps) ∧ (qpOf t 0).isSome = true
      ∧ (qpOf t fwQp).isSome = true ∧ (qpOf t keyQp).isSome = true) ∧
    (let held : Prop := ∃ c : Bool, s.maint.after = .thermalHold c
     let busy : Prop := held ∨ (resetting s = true ∧ ¬ (warmUnderWay s = true ∧ coldInstead s = true))
     let ramped : Prop := (s.maint.claims = [] ∧ s.maint.portSteps = 0) ∨ (s.maint.phase = 3 ∧ s.maint.ballast = false)
     let done (i : Instr) (cause : Nat) : Prop := ∃ t, exec i s = .next t ∧ t.dev.ready = false
       ∧ (¬ ramped → t.maint.phase = 3 ∧ t.maint.ballast = true
           ∧ t.maint.after = .reset (if unlockStaged s then 6 else cause) (coldInstead s) false)
       ∧ (ramped → coldInstead s = false → t.maint.lastReset = Tmr.all (BitVec.ofNat 32 (0x20 + cause)) ∧ t.maint.phase = 0 ∧ t.sec.store = s.sec.store
           ∧ t.dev.ident = s.dev.ident)
       ∧ (ramped → coldInstead s = true → t.maint.lastReset = Tmr.all (BitVec.ofNat 32 (0x10 + if unlockStaged s then 6 else cause))
           ∧ t.forme = {} ∧ t.clusters = [])
     (s.maint.pwrgd = false → exec .perst s = .next s) ∧
     (s.maint.pwrgd = true → held → exec .perst s = .next { s with maint := { s.maint with perst := true } }) ∧
     (s.maint.pwrgd = true → ¬ held → busy ∨ (s.maint.phase = 0 ∧ s.maint.everReady = false) → exec .perst s =
       .next { s with maint := { s.maint with perst := true }, host := { s.host with linkUp := false } }) ∧
     (s.maint.pwrgd = true → ¬ busy → ¬ (s.maint.phase = 0 ∧ s.maint.everReady = false) → done .perst 2) ∧
     (pfLive s w.fn true = false → exec (.warm w) s = .next s) ∧
     (Commands w true [0, 1, 2] 0 s → s.maint.busy = false →
       (busy → exec (.warm w) s = .next { s with maint := { s.maint with code := codeOf .ok } }) ∧ (¬ busy → done (.warm w) 3))) ∧
    (2 < copy.toNat ∨ 2 < reg.toNat → exec (.tmrFix reg copy v) s = .next s) ∧
    (∀ r : Tmr, copy.toNat ≤ 2 → [s.dev.ident, s.maint.lastReset, s.maint.repair][reg.toNat]? = some r → r.agree = true →
      (v = r.maj → exec (.tmrFix reg copy v) s = .next s) ∧
      (v ≠ r.maj → ∃ t, exec (.tmrFix reg copy v) s = .next t ∧ OnlyChanges [.dev] s t ∧ t.dev.tmrFix = satInc s.dev.tmrFix ∧ bit t.dev.err 0 = true
        ∧ t.dev.ident = s.dev.ident))

/-- Register accesses and notices. What a function does not see neither answers nor changes anything. A read of an RC register
returns its bits and clears them, but zero and nothing for a function that does not see its block; a read of the low word of a 64-bit
quantity keeps the high word for the function's next read of it, which uses it up; any other read returns what the register
holds. An access that is not one aligned doubleword is refused and counted with its address, and a read of that kind returns zero. A
write puts its value into the register, the bits it has, and nothing into a value out of range; quoins only set. A request notice
that stands at the head of its channel is taken from it, and where the reply has its credit the ATTEND of its layer enters the press,
the reply after the row results; a notice that fails its checks is answered with the code alone. A reply notice at the head of
its channel is taken, and where it says so the path of its requests is recorded. (00 R6, 05 R139, 05 R140, 05 R141, 05 R142, 05 R147,
17 R436, 17 R437, 17 R438, 17 R440, 17 R445, 17 R446) -/
def Obligations.RegisterAndNoticeCommands : Prop :=
  ∀ (fn : FnId) (off : Nat) (v : Word) (a : Access) (sender : DevId) (m : NoticeMsg) (c : PressCmd) (rch ch : BitVec 5) (cl : ClusterId)
    (y : ReplyMsg) (rowtab : DWord) (s : State),
    let answer (x : Word) (u : State) : Out := .next (emit (.regRead fn off x) u)
    let reads : List Instr := [.rcRead fn off, .loReadCapture fn off]
    (responds s fn = false → ∀ i ∈ reads, exec i s = .next s) ∧
    (responds s fn = true → answers s fn = false → ∀ i ∈ reads, exec i s = answer 0 s) ∧
    (let clears (early : Bool) (x : Word) (u : State) : Prop := (pfLive s fn early = true → exec (.rcRead fn off) s = answer x u) ∧
        (pfLive s fn early = false → responds s fn = true → exec (.rcRead fn off) s = answer 0 s)
     (off = 0x040 → clears true s.dev.err { s with dev := { s.dev with err := 0 } }) ∧
     (off = 0x044 → clears true s.dev.firstErr { s with dev := { s.dev with firstErr := 0 } }) ∧
     (off = 0x03000020 → clears true s.maint.fatal { s with maint := { s.maint with fatal := 0 } }) ∧
     (∀ n : Nat, n < 128 → off = 0x0240001C + 0x4000 * n → clears false (clusterFaultWord (cluster s n))
       (clusterUpd n (fun x => { x with faultIndex := 0, faultCause := 0 }) s)) ∧
     (off ≠ 0x040 → off ≠ 0x044 → off ≠ 0x03000020 → (∀ n : Nat, n < 128 → off ≠ 0x0240001C + 0x4000 * n) → answers s fn = true →
       exec (.rcRead fn off) s = answer (regValue s fn off) s)) ∧
    (∀ x : Bool × Bool × Nat, wideLive s fn x.1 x.2.1 = true →
      (widePair s off = some x → exec (.loReadCapture fn off) s =
        answer (loWord x.2.2) { s with dev := { s.dev with latch := Tab.put s.dev.latch fn.toNat (off + 4, hiWord x.2.2) } }) ∧
      (widePair s off = none → 4 ≤ off → widePair s (off - 4) = some x →
        (∀ h : Word, latched s fn off = some h → exec (.loReadCapture fn off) s =
          answer h { s with dev := { s.dev with latch := Tab.del s.dev.latch fn.toNat } }) ∧
        (latched s fn off = none → exec (.loReadCapture fn off) s = answer (hiWord x.2.2) s))) ∧
    (widePair s off = none → (4 ≤ off → widePair s (off - 4) = none) → answers s fn = true →
      exec (.loReadCapture fn off) s = answer (regValue s fn off) s) ∧
    (let refused : Prop := (a.dwords ≠ 1 ∨ a.enables ≠ 0xF ∨ a.offset % 4 ≠ 0) ∧ responds s a.fn = true
     (¬ refused → exec (.registerAccessRefused a) s = .next s) ∧
     (refused → ∃ t, exec (.registerAccessRefused a) s = .next t ∧ OnlyChanges [.dev, .out] s t
       ∧ t.out = (if a.write then s.out else s.out ++ [.regRead a.fn a.offset 0])
       ∧ (answers s a.fn = true → s.dev.ready = true ∨ earlyBlock a.offset = true → bit t.dev.err 0 = true
           ∧ Tab.getD t.dev.accessErr a.fn.toNat 0 = satInc (Tab.getD s.dev.accessErr a.fn.toNat 0)
           ∧ Tab.find t.dev.accessAddr a.fn.toNat = some (accessWord a)))) ∧
    (off % 4 ≠ 0 ∨ answers s fn = false → exec (.registerWrite fn off v) s = .next s) ∧
    (answers s fn = true → off = 0x014 → exec (.registerWrite fn off v) s =
      .next { s with dev := { s.dev with scratch := Tab.put s.dev.scratch fn.toNat v } }) ∧
    (pfLive s fn false = false → off % 4 = 0 → 0x00100000 ≤ off → off < 0x02C00000 → exec (.registerWrite fn off v) s = .next s) ∧
    (let put (o : Nat) (u : State) : Prop := off = o → exec (.registerWrite fn off v) s = .next u
     pfLive s fn false = true →
      put 0x00100008 { s with forme := { s.forme with srcLo := v } } ∧
      put 0x00200014 { s with sched := { s.sched with ctxSel := v.extractLsb' 0 6 } } ∧
      put 0x00800008 { s with req := { s.req with hold := if v.toNat ≤ 86400000 then v.toNat else s.req.hold } } ∧
      put 0x00A00040 { s with pair := { s.pair with mapEpoch := v } } ∧ put 0x00C0000C { s with tier := { s.tier with t1Limit := v } } ∧
      put 0x0180001C { s with rma := { s.rma with retryLimit := if 1 ≤ v.toNat ∧ v.toNat ≤ 10000 then v.toNat else s.rma.retryLimit } } ∧
      put 0x01E00008 { s with links := { s.links with die := bit v 8, slot := v.extractLsb' 0 8 } } ∧
      put 0x02000008 { s with codec := { s.codec with sel := v &&& 0x07FF07FF } } ∧
      put 0x02800080 { s with repro := { s.repro with traceLo := v } }) ∧
    (pfLive s fn true = true → off = 0x02C00008 → exec (.registerWrite fn off v) s =
      .next { s with sec := { s.sec with lock := s.sec.lock ||| v.extractLsb' 0 4 } }) ∧
    (let n := c.cl.toNat
     let may : Prop := fenced s = false ∧ canIssue s n = true ∧ (cluster s n).press.length < 4 ∧ replyReady s n ch.toNat = true
       ∧ recvInPress (cluster s n) rch.toNat = false ∧ noticeHeld s n rch.toNat sender m = true
     let s1 := dropHead n rch.toNat s
     let code := noticeCheck s1 ((partOfRegion s1 (n / 16)).getD 0) sender m
     let s2 := clusterUpd n (fun x => { x with notice := some (sender, m.step) }) s1
     let replies (f : InFlight) (st : Status) (fl ok : Nat) : Prop := .send ch.toNat [replyBytes (replyTo s m st fl ok)] ∈ f.effs
     (¬ may → exec (.requestNotice sender m c ⟨rch, ch⟩) s = .next s) ∧
     (may → code ≠ .ok → ∃ (t : State) (f : InFlight), exec (.requestNotice sender m c ⟨rch, ch⟩) s = .next t
       ∧ (cluster t n).press = (cluster s n).press ++ [f] ∧ (cluster t n).pc = (cluster s n).pc ∧ replies f code 0 0
       ∧ (channel t n rch.toNat).map (fun k => k.queue) = (channel s n rch.toNat).map (fun k => k.queue.drop 1)) ∧
     (∀ (d : Desc) (r : Run), may → code = .ok → c.reads = .good → noticeRun m c s2 = some (d, r) →
       ∃ (t : State) (f : InFlight) (fl ok : Nat), exec (.requestNotice sender m c ⟨rch, ch⟩) s = .next t
         ∧ (cluster t n).press = (cluster s n).press ++ [f] ∧ (cluster t n).pc = (cluster s n).pc ∧ f.opcode = 0x38 ∧ f.maxBeats = d.maxBeats
         ∧ (∀ e ∈ r.effs, e ∈ f.effs) ∧ replies f .ok fl ok
         ∧ (channel t n rch.toNat).map (fun k => k.queue) = (channel s n rch.toNat).map (fun k => k.queue.drop 1))) ∧
    (let n := cl.toNat
     let h := ch.toNat
     (canIssue s n = false ∨ recvInPress (cluster s n) h = true ∨ channel s n h = none → exec (.replyNotice cl ch ⟨y, rowtab⟩) s = .next s) ∧
     (∀ k : Chan, canIssue s n = true → recvInPress (cluster s n) h = false → channel s n h = some k → k.entry.tagCheck = false →
       (k.entry.send = true ∨ k.queue.head? ≠ some (replyBytes y) → exec (.replyNotice cl ch ⟨y, rowtab⟩) s = .next s) ∧
       (k.entry.send = false → k.queue.head? = some (replyBytes y) → ∃ t, exec (.replyNotice cl ch ⟨y, rowtab⟩) s = .next t
         ∧ (channel t n h).map (fun k => k.queue) = some (k.queue.drop 1)
         ∧ (y.flags.toNat.testBit 0 = false → (cluster t n).fallbacks = (cluster s n).fallbacks)
         ∧ (y.flags.toNat.testBit 0 = true → ∃ l : List (Option ReqId × Byte), (cluster t n).fallbacks = (cluster s n).fallbacks ++ l
             ∧ l.map (fun e => e.1) = (slowRequests (dropHead n h s) n y.rows.toNat rowtab).map some))))

/-- The command words of the cluster (03 R72): the word of a well-formed command reads back as that command, with every operand, for the
cluster that holds it (the descriptor a STREAM names says whether it arms or stops, and what the rest of the machine answers a press
command is no field of a word); a word that reads as a command is that command's word, and the command is well-formed, so no word
has two meanings and a word with a reserved field, a reserved flag, an opcode out of the table or an operand out of range (03 R73)
reads as none. (03 R72, 03 R73) -/
def Obligations.CommandWordsRoundTrip : Prop :=
  (∀ (i : Instr) (w : DWord), i.wf = true → commandWord i = some w →
    ∃ (cl : ClusterId) (stop : Bool) (remote : List Byte) (reads : ReadOutcome), commandOf cl stop remote reads w = some i) ∧
  (∀ (cl : ClusterId) (stop : Bool) (remote : List Byte) (reads : ReadOutcome) (w : DWord) (i : Instr),
    commandOf cl stop remote reads w = some i → commandWord i = some w ∧ i.wf = true) ∧
  (∀ w : DWord, (w.extractLsb' 56 8).toNat ∉ [0x00, 0x01, 0x02, 0x03, 0x04, 0x05, 0x06, 0x07, 0x08, 0x09, 0x0B, 0x0C, 0x20, 0x21, 0x22, 0x30,
      0x38, 0x40, 0x41, 0x48, 0x49, 0x50, 0x51, 0x58, 0x60, 0x68] →
    ∀ (cl : ClusterId) (stop : Bool) (remote : List Byte) (reads : ReadOutcome), commandOf cl stop remote reads w = none)
end

