-- ==== Sys2Proof/Laws/Changes.lean ====
section
/-!
SUPPORT. Which parts of the state an operation may change: OnlyChanges, and the ways to show it.
-/

namespace Sys2Proof.Machine

/-- Every part of the first list stands in the second. -/
def subParts (a b : List Block) : Bool := a.all b.contains

theorem subParts_trans {a b c : List Block} (h : subParts a b = true) (k : subParts b c = true) : subParts a c = true := by
  simp only [subParts, List.all_eq_true, List.contains_iff_mem] at *
  exact fun p hp => k p (h p hp)

theorem subParts_mem {a b : List Block} {p : Block} (h : subParts a b = true) (k : a.contains p = true) : b.contains p = true := by
  simp only [subParts, List.all_eq_true] at h
  exact h p (List.contains_iff_mem.1 k)

theorem Block.same_refl (s : State) (p : Block) : p.same s s := by cases p <;> rfl

theorem Block.same_trans {s t u : State} {p : Block} (h : p.same s t) (k : p.same t u) : p.same s u := by
  cases p <;> exact Eq.trans k h

theorem OnlyChanges.refl (ps : List Block) (s : State) : OnlyChanges ps s s := fun p _ => p.same_refl s

theorem OnlyChanges.trans {ps : List Block} {s t u : State} (h : OnlyChanges ps s t) (k : OnlyChanges ps t u) : OnlyChanges ps s u :=
  fun p hp => Block.same_trans (h p hp) (k p hp)

/-- Where neither SEC nor the generator's count is in the frame, all of SEC stays. -/
theorem OnlyChanges.sec_eq {ps : List Block} {s t : State} (h : OnlyChanges ps s t) (k : ps.contains .sec = false)
    (d : ps.contains .drbg = false) : t.sec = s.sec := by
  have a := h .sec k
  have b := h .drbg d
  cases hs : s.sec
  cases ht : t.sec
  simp_all [Block.same]

/-- A fold of operations within a frame. -/
theorem foldl_changes {A : Type} {ps : List Block} {s0 : State} {f : State → A → State} {l : List A} {s : State}
    (h : OnlyChanges ps s0 s) (hf : ∀ (u : State) (a : A), OnlyChanges ps s0 u → OnlyChanges ps s0 (f u a)) : OnlyChanges ps s0 (l.foldl f s) := by
  induction l generalizing s with
  | nil => exact h
  | cons a rest ih => exact ih (hf s a h)

theorem foldl_changes_fst {A B : Type} {ps : List Block} {s0 : State} {f : State × B → A → State × B} {l : List A} {s : State × B}
    (h : OnlyChanges ps s0 s.1) (hf : ∀ (u : State × B) (a : A), OnlyChanges ps s0 u.1 → OnlyChanges ps s0 (f u a).1) :
    OnlyChanges ps s0 (l.foldl f s).1 := by
  induction l generalizing s with
  | nil => exact h
  | cons a rest ih => exact ih (hf s a h)

theorem foldl_changes_snd {A B : Type} {ps : List Block} {s0 : State} {f : B × State → A → B × State} {l : List A} {s : B × State}
    (h : OnlyChanges ps s0 s.2) (hf : ∀ (u : B × State) (a : A), OnlyChanges ps s0 u.2 → OnlyChanges ps s0 (f u a).2) :
    OnlyChanges ps s0 (l.foldl f s).2 := by
  induction l generalizing s with
  | nil => exact h
  | cons a rest ih => exact ih (hf s a h)

theorem getD_changes {ps : List Block} {s0 d : State} {o : Option State} (hd : OnlyChanges ps s0 d)
    (h : ∀ v : State, o = some v → OnlyChanges ps s0 v) : OnlyChanges ps s0 (o.getD d) := by
  cases o with
  | none => exact hd
  | some v => exact h v rfl

theorem ite_some_changes {ps : List Block} {s0 b t : State} {a : Option State} {c : Prop} [Decidable c]
    (e : (if c then a else some b) = some t) (hb : OnlyChanges ps s0 b) (ha : a = some t → OnlyChanges ps s0 t) : OnlyChanges ps s0 t := by
  split at e
  · exact ha e
  · cases e; exact hb

theorem changes_ite {ps : List Block} {s0 a b : State} {c : Prop} [Decidable c] (ha : c → OnlyChanges ps s0 a) (hb : ¬c → OnlyChanges ps s0 b) :
    OnlyChanges ps s0 (if c then a else b) := by
  split
  · exact ha ‹_›
  · exact hb ‹_›

/-- `OnlyChanges` over the parts of a record. -/
def ChangesParts (ps : List Block) (s : State) (dev : Dev) (maint : Maint) (sec : Sec) (host : Hostif) (forme : Forme) (codec : Codec)
    (tier : Tier) (clusters : Tab Cluster) (sched : Sched) (repro : Repro) (req : Req) (pair : Pair) (near : Near) (rma : Rma)
    (links : Links) (tb free : Nat) (out : List Emit) (pending : List Instr) : Prop :=
  OnlyChanges ps s (State.mk dev maint sec host forme codec tier clusters sched repro req pair near rma links tb free out pending)

theorem changes_mk {ps s0 dev maint sec host forme codec tier clusters sched repro req pair near rma links tb free out pending} :
    OnlyChanges ps s0 (State.mk dev maint sec host forme codec tier clusters sched repro req pair near rma links tb free out pending)
      ↔ ChangesParts ps s0 dev maint sec host forme codec tier clusters sched repro req pair near rma links tb free out pending :=
  Iff.rfl

/-- A record that differs from a state within the frame only in parts of the frame is within it. -/
theorem changesParts_of {ps : List Block} {s0 t : State} {dev : Dev} {maint : Maint} {sec : Sec} {host : Hostif} {forme : Forme}
    {codec : Codec} {tier : Tier} {clusters : Tab Cluster} {sched : Sched} {repro : Repro} {req : Req} {pair : Pair} {near : Near}
    {rma : Rma} {links : Links} {tb free : Nat} {out : List Emit} (h : OnlyChanges ps s0 t)
    (h_dev : dev = t.dev ∨ ps.contains .dev = true)
    (h_maint : maint = t.maint ∨ ps.contains .maint = true)
    (h_sec : { sec with drbg := 0 } = { t.sec with drbg := 0 } ∨ ps.contains .sec = true)
    (h_drbg : sec.drbg = t.sec.drbg ∨ ps.contains .drbg = true)
    (h_host : host = t.host ∨ ps.contains .host = true)
    (h_forme : forme = t.forme ∨ ps.contains .forme = true)
    (h_codec : codec = t.codec ∨ ps.contains .codec = true)
    (h_tier : tier = t.tier ∨ ps.contains .tier = true)
    (h_clusters : clusters = t.clusters ∨ ps.contains .clusters = true)
    (h_sched : sched = t.sched ∨ ps.contains .sched = true)
    (h_repro : repro = t.repro ∨ ps.contains .repro = true)
    (h_req : req = t.req ∨ ps.contains .req = true)
    (h_pair : pair = t.pair ∨ ps.contains .pair = true)
    (h_near : near = t.near ∨ ps.contains .near = true)
    (h_rma : rma = t.rma ∨ ps.contains .rma = true)
    (h_links : links = t.links ∨ ps.contains .links = true)
    (h_tb : tb = t.tb ∨ ps.contains .tb = true)
    (h_free : free = t.free ∨ ps.contains .free = true)
    (h_out : out = t.out ∨ ps.contains .out = true) :
    ChangesParts ps s0 dev maint sec host forme codec tier clusters sched repro req pair near rma links tb free out t.pending := by
  refine h.trans (fun p hp => ?_)
  cases p
  · exact h_dev.resolve_right (by rw [hp]; decide)
  · exact h_maint.resolve_right (by rw [hp]; decide)
  · exact h_sec.resolve_right (by rw [hp]; decide)
  · exact h_drbg.resolve_right (by rw [hp]; decide)
  · exact h_host.resolve_right (by rw [hp]; decide)
  · exact h_forme.resolve_right (by rw [hp]; decide)
  · exact h_codec.resolve_right (by rw [hp]; decide)
  · exact h_tier.resolve_right (by rw [hp]; decide)
  · exact h_clusters.resolve_right (by rw [hp]; decide)
  · exact h_sched.resolve_right (by rw [hp]; decide)
  · exact h_repro.resolve_right (by rw [hp]; decide)
  · exact h_req.resolve_right (by rw [hp]; decide)
  · exact h_pair.resolve_right (by rw [hp]; decide)
  · exact h_near.resolve_right (by rw [hp]; decide)
  · exact h_rma.resolve_right (by rw [hp]; decide)
  · exact h_links.resolve_right (by rw [hp]; decide)
  · exact h_tb.resolve_right (by rw [hp]; decide)
  · exact h_free.resolve_right (by rw [hp]; decide)
  · exact h_out.resolve_right (by rw [hp]; decide)
  · rfl

end Sys2Proof.Machine
end

