-- ==== Sys2Proof/Laws/ChangesOps.lean ====
section
/-!
SUPPORT. The blocks of the state that the operations of Sys2Proof/Machine/Ops.lean may change.
-/

namespace Sys2Proof.Machine

theorem emit_changes {Q : List Block} {s0 : State} {e : Emit} {s : State}  (hq : subParts [.out] Q = true) (hk : OnlyChanges Q s0 s) :
    OnlyChanges Q s0 (emit e s) := by
  unfold emit
  repeat' (first
    | with_reducible assumption
    | ((with_reducible refine .inr (subParts_mem hq ?_)); rfl)
    | with_reducible exact .inl rfl
    | with_reducible refine changes_ite ?_ ?_
    | (with_reducible refine changesParts_of ?_ ?_ ?_ ?_ ?_ ?_ ?_ ?_ ?_ ?_ ?_ ?_ ?_ ?_ ?_ ?_ ?_ ?_ ?_ ?_)
    | simp only [changes_mk]
    | with_reducible intro _
    | split
    | dsimp only [id])

theorem msix_changes {Q : List Block} {s0 : State} {fn : FnId} {v : Nat} {s : State}  (hq : subParts [.out] Q = true) (hk : OnlyChanges Q s0 s) :
    OnlyChanges Q s0 (msix fn v s) := by
  unfold msix
  repeat' (first
    | with_reducible assumption
    | ((with_reducible refine .inr (subParts_mem hq ?_)); rfl)
    | with_reducible exact .inl rfl
    | with_reducible apply emit_changes (hq := subParts_trans rfl hq)
    | with_reducible refine changes_ite ?_ ?_
    | (with_reducible refine changesParts_of ?_ ?_ ?_ ?_ ?_ ?_ ?_ ?_ ?_ ?_ ?_ ?_ ?_ ?_ ?_ ?_ ?_ ?_ ?_ ?_)
    | simp only [changes_mk]
    | with_reducible intro _
    | split
    | dsimp only [id])

theorem bumpFree_changes {Q : List Block} {s0 : State} {s : State}  (hq : subParts [.free] Q = true) (hk : OnlyChanges Q s0 s) :
    OnlyChanges Q s0 (bumpFree s) := by
  unfold bumpFree
  repeat' (first
    | with_reducible assumption
    | ((with_reducible refine .inr (subParts_mem hq ?_)); rfl)
    | with_reducible exact .inl rfl
    | with_reducible refine changes_ite ?_ ?_
    | (with_reducible refine changesParts_of ?_ ?_ ?_ ?_ ?_ ?_ ?_ ?_ ?_ ?_ ?_ ?_ ?_ ?_ ?_ ?_ ?_ ?_ ?_ ?_)
    | simp only [changes_mk]
    | with_reducible intro _
    | split
    | dsimp only [id])

theorem xbarGrant_changes {Q : List Block} {s0 : State} {r : Nat} {out : Nat} {req : List Nat} {s : State} (hq : subParts [.tier] Q = true) (hk : OnlyChanges Q s0 s) :
    OnlyChanges Q s0 (xbarGrant r out req s) := by
  unfold xbarGrant
  repeat' (first
    | with_reducible assumption
    | ((with_reducible refine .inr (subParts_mem hq ?_)); rfl)
    | with_reducible exact .inl rfl
    | with_reducible refine changes_ite ?_ ?_
    | (with_reducible refine changesParts_of ?_ ?_ ?_ ?_ ?_ ?_ ?_ ?_ ?_ ?_ ?_ ?_ ?_ ?_ ?_ ?_ ?_ ?_ ?_ ?_)
    | simp only [changes_mk]
    | with_reducible intro _
    | split
    | dsimp only [id])

theorem xbarPass_changes {Q : List Block} {s0 : State} {n : Nat} {out : Nat} {s : State} (hq : subParts [.tier] Q = true) (hk : OnlyChanges Q s0 s) :
    OnlyChanges Q s0 (xbarPass n out s) := by
  unfold xbarPass
  repeat' (first
    | with_reducible assumption
    | ((with_reducible refine .inr (subParts_mem hq ?_)); rfl)
    | with_reducible exact .inl rfl
    | with_reducible apply xbarGrant_changes (hq := subParts_trans rfl hq)
    | with_reducible refine changes_ite ?_ ?_
    | (with_reducible refine changesParts_of ?_ ?_ ?_ ?_ ?_ ?_ ?_ ?_ ?_ ?_ ?_ ?_ ?_ ?_ ?_ ?_ ?_ ?_ ?_ ?_)
    | simp only [changes_mk]
    | with_reducible intro _
    | split
    | dsimp only [id])

theorem xbarToSlice_changes {Q : List Block} {s0 : State} {n : Nat} {r : Nat} {s : State} (hq : subParts [.tier] Q = true) (hk : OnlyChanges Q s0 s) :
    OnlyChanges Q s0 (xbarToSlice n r s) := by
  unfold xbarToSlice
  repeat' (first
    | with_reducible assumption
    | ((with_reducible refine .inr (subParts_mem hq ?_)); rfl)
    | with_reducible exact .inl rfl
    | with_reducible apply xbarPass_changes (hq := subParts_trans rfl hq)
    | with_reducible refine changes_ite ?_ ?_
    | (with_reducible refine changesParts_of ?_ ?_ ?_ ?_ ?_ ?_ ?_ ?_ ?_ ?_ ?_ ?_ ?_ ?_ ?_ ?_ ?_ ?_ ?_ ?_)
    | simp only [changes_mk]
    | with_reducible intro _
    | split
    | dsimp only [id])

theorem xbarToCluster_changes {Q : List Block} {s0 : State} {n : Nat} {m : Nat} {s : State} (hq : subParts [.tier] Q = true) (hk : OnlyChanges Q s0 s) :
    OnlyChanges Q s0 (xbarToCluster n m s) := by
  unfold xbarToCluster
  repeat' (first
    | with_reducible assumption
    | ((with_reducible refine .inr (subParts_mem hq ?_)); rfl)
    | with_reducible exact .inl rfl
    | with_reducible apply xbarPass_changes (hq := subParts_trans rfl hq)
    | with_reducible refine changes_ite ?_ ?_
    | (with_reducible refine changesParts_of ?_ ?_ ?_ ?_ ?_ ?_ ?_ ?_ ?_ ?_ ?_ ?_ ?_ ?_ ?_ ?_ ?_ ?_ ?_ ?_)
    | simp only [changes_mk]
    | with_reducible intro _
    | split
    | dsimp only [id])

theorem tbTick_changes {Q : List Block} {s0 : State} {s : State} (hq : subParts [.repro, .tb] Q = true) (hk : OnlyChanges Q s0 s) :
    OnlyChanges Q s0 (tbTick s) := by
  unfold tbTick
  repeat' (first
    | with_reducible assumption
    | ((with_reducible refine .inr (subParts_mem hq ?_)); rfl)
    | with_reducible exact .inl rfl
    | with_reducible refine changes_ite ?_ ?_
    | (with_reducible refine changesParts_of ?_ ?_ ?_ ?_ ?_ ?_ ?_ ?_ ?_ ?_ ?_ ?_ ?_ ?_ ?_ ?_ ?_ ?_ ?_ ?_)
    | simp only [changes_mk]
    | with_reducible intro _
    | split
    | dsimp only [id])

theorem noteErr_changes {Q : List Block} {s0 : State} {b : Nat} {i : Nat} {off : Nat} {s : State}  (hq : subParts [.dev] Q = true) (hk : OnlyChanges Q s0 s) :
    OnlyChanges Q s0 (noteErr b i off s) := by
  unfold noteErr
  repeat' (first
    | with_reducible assumption
    | ((with_reducible refine .inr (subParts_mem hq ?_)); rfl)
    | with_reducible exact .inl rfl
    | with_reducible refine changes_ite ?_ ?_
    | (with_reducible refine changesParts_of ?_ ?_ ?_ ?_ ?_ ?_ ?_ ?_ ?_ ?_ ?_ ?_ ?_ ?_ ?_ ?_ ?_ ?_ ?_ ?_)
    | simp only [changes_mk]
    | with_reducible intro _
    | split
    | dsimp only [id])

theorem ctl_changes {Q : List Block} {s0 : State} {w : CtlWrite} {early : Bool} {cmds : List Nat} {own : Nat} {busy : State → Bool} {code : Status → State → State} {settings : State → State} {run : State → State} {s : State} (h_code : ∀ (y0 : Status) (u : State), OnlyChanges Q s0 u → OnlyChanges Q s0 (code y0 u)) (h_settings : ∀ (u : State), OnlyChanges Q s0 u → OnlyChanges Q s0 (settings u)) (h_run : ∀ (u : State), OnlyChanges Q s0 u → OnlyChanges Q s0 (run u)) (hq : subParts [] Q = true) (hk : OnlyChanges Q s0 s) :
    OnlyChanges Q s0 (ctl w early cmds own busy code settings run s) := by
  unfold ctl
  repeat' (first
    | with_reducible assumption
    | ((with_reducible refine .inr (subParts_mem hq ?_)); rfl)
    | with_reducible exact .inl rfl
    | with_reducible apply h_code
    | with_reducible apply h_settings
    | with_reducible apply h_run
    | with_reducible refine changes_ite ?_ ?_
    | (with_reducible refine changesParts_of ?_ ?_ ?_ ?_ ?_ ?_ ?_ ?_ ?_ ?_ ?_ ?_ ?_ ?_ ?_ ?_ ?_ ?_ ?_ ?_)
    | simp only [changes_mk]
    | with_reducible intro _
    | split
    | dsimp only [id])

theorem lpcUpd_changes {Q : List Block} {s0 : State} {c : Nat} {f : Lpc → Lpc} {s : State}  (hq : subParts [.tier] Q = true) (hk : OnlyChanges Q s0 s) :
    OnlyChanges Q s0 (lpcUpd c f s) := by
  unfold lpcUpd
  repeat' (first
    | with_reducible assumption
    | ((with_reducible refine .inr (subParts_mem hq ?_)); rfl)
    | with_reducible exact .inl rfl
    | with_reducible refine changes_ite ?_ ?_
    | (with_reducible refine changesParts_of ?_ ?_ ?_ ?_ ?_ ?_ ?_ ?_ ?_ ?_ ?_ ?_ ?_ ?_ ?_ ?_ ?_ ?_ ?_ ?_)
    | simp only [changes_mk]
    | with_reducible intro _
    | split
    | dsimp only [id])

theorem countGranules_changes {Q : List Block} {s0 : State} {wr : Bool} {gs : List Nat} {s : State}  (hq : subParts [.tier] Q = true) (hk : OnlyChanges Q s0 s) :
    OnlyChanges Q s0 (countGranules wr gs s) := by
  unfold countGranules
  repeat' (first
    | with_reducible assumption
    | ((with_reducible refine .inr (subParts_mem hq ?_)); rfl)
    | with_reducible exact .inl rfl
    | with_reducible apply foldl_changes
    | with_reducible apply foldl_changes_fst
    | with_reducible apply foldl_changes_snd
    | with_reducible apply lpcUpd_changes (hq := subParts_trans rfl hq)
    | with_reducible refine changes_ite ?_ ?_
    | (with_reducible refine changesParts_of ?_ ?_ ?_ ?_ ?_ ?_ ?_ ?_ ?_ ?_ ?_ ?_ ?_ ?_ ?_ ?_ ?_ ?_ ?_ ?_)
    | simp only [changes_mk]
    | with_reducible intro _
    | split
    | dsimp only [id])

theorem granuleWrite_changes {Q : List Block} {s0 : State} {part : Bool} {g : Nat} {s : State} (hq : subParts [.tier] Q = true) (hk : OnlyChanges Q s0 s) :
    OnlyChanges Q s0 (granuleWrite part g s) := by
  unfold granuleWrite
  repeat' (first
    | with_reducible assumption
    | ((with_reducible refine .inr (subParts_mem hq ?_)); rfl)
    | with_reducible exact .inl rfl
    | with_reducible apply lpcUpd_changes (hq := subParts_trans rfl hq)
    | with_reducible refine changes_ite ?_ ?_
    | (with_reducible refine changesParts_of ?_ ?_ ?_ ?_ ?_ ?_ ?_ ?_ ?_ ?_ ?_ ?_ ?_ ?_ ?_ ?_ ?_ ?_ ?_ ?_)
    | simp only [changes_mk]
    | with_reducible intro _
    | split
    | dsimp only [id])

theorem granuleStore_changes {Q : List Block} {s0 : State} {addr : Nat} {n : Nat} {s : State} {g : Nat} (hq : subParts [.tier] Q = true) (hk : OnlyChanges Q s0 s) :
    OnlyChanges Q s0 (granuleStore addr n s g) := by
  unfold granuleStore
  repeat' (first
    | with_reducible assumption
    | ((with_reducible refine .inr (subParts_mem hq ?_)); rfl)
    | with_reducible exact .inl rfl
    | with_reducible apply granuleWrite_changes (hq := subParts_trans rfl hq)
    | with_reducible refine changes_ite ?_ ?_
    | (with_reducible refine changesParts_of ?_ ?_ ?_ ?_ ?_ ?_ ?_ ?_ ?_ ?_ ?_ ?_ ?_ ?_ ?_ ?_ ?_ ?_ ?_ ?_)
    | simp only [changes_mk]
    | with_reducible intro _
    | split
    | dsimp only [id])

theorem t1Write_changes {Q : List Block} {s0 : State} {addr : Nat} {bs : List Byte} {s : State} (hq : subParts [.tier] Q = true) (hk : OnlyChanges Q s0 s) :
    OnlyChanges Q s0 (t1Write addr bs s) := by
  unfold t1Write
  repeat' (first
    | with_reducible assumption
    | ((with_reducible refine .inr (subParts_mem hq ?_)); rfl)
    | with_reducible exact .inl rfl
    | with_reducible apply foldl_changes
    | with_reducible apply foldl_changes_fst
    | with_reducible apply foldl_changes_snd
    | with_reducible apply granuleStore_changes (hq := subParts_trans rfl hq)
    | with_reducible refine changes_ite ?_ ?_
    | (with_reducible refine changesParts_of ?_ ?_ ?_ ?_ ?_ ?_ ?_ ?_ ?_ ?_ ?_ ?_ ?_ ?_ ?_ ?_ ?_ ?_ ?_ ?_)
    | simp only [changes_mk]
    | with_reducible intro _
    | split
    | dsimp only [id])

theorem clusterUpd_changes {Q : List Block} {s0 : State} {n : Nat} {f : Cluster → Cluster} {s : State}  (hq : subParts [.clusters] Q = true) (hk : OnlyChanges Q s0 s) :
    OnlyChanges Q s0 (clusterUpd n f s) := by
  unfold clusterUpd
  repeat' (first
    | with_reducible assumption
    | ((with_reducible refine .inr (subParts_mem hq ?_)); rfl)
    | with_reducible exact .inl rfl
    | with_reducible refine changes_ite ?_ ?_
    | (with_reducible refine changesParts_of ?_ ?_ ?_ ?_ ?_ ?_ ?_ ?_ ?_ ?_ ?_ ?_ ?_ ?_ ?_ ?_ ?_ ?_ ?_ ?_)
    | simp only [changes_mk]
    | with_reducible intro _
    | split
    | dsimp only [id])

theorem meterAdd_changes {Q : List Block} {s0 : State} {tenant : Nat} {f : Meter → Meter} {s : State}  (hq : subParts [.sched] Q = true) (hk : OnlyChanges Q s0 s) :
    OnlyChanges Q s0 (meterAdd tenant f s) := by
  unfold meterAdd
  repeat' (first
    | with_reducible assumption
    | ((with_reducible refine .inr (subParts_mem hq ?_)); rfl)
    | with_reducible exact .inl rfl
    | with_reducible apply getD_changes
    | with_reducible refine changes_ite ?_ ?_
    | (with_reducible refine changesParts_of ?_ ?_ ?_ ?_ ?_ ?_ ?_ ?_ ?_ ?_ ?_ ?_ ?_ ?_ ?_ ?_ ?_ ?_ ?_ ?_)
    | simp only [changes_mk]
    | with_reducible intro _
    | split
    | dsimp only [id])

theorem meterT1_changes {Q : List Block} {s0 : State} {tenant : BitVec 16} {n : Nat} {s : State}  (hq : subParts [.sched] Q = true) (hk : OnlyChanges Q s0 s) :
    OnlyChanges Q s0 (meterT1 tenant n s) := by
  unfold meterT1
  repeat' (first
    | with_reducible assumption
    | ((with_reducible refine .inr (subParts_mem hq ?_)); rfl)
    | with_reducible exact .inl rfl
    | with_reducible apply meterAdd_changes (hq := subParts_trans rfl hq)
    | with_reducible refine changes_ite ?_ ?_
    | (with_reducible refine changesParts_of ?_ ?_ ?_ ?_ ?_ ?_ ?_ ?_ ?_ ?_ ?_ ?_ ?_ ?_ ?_ ?_ ?_ ?_ ?_ ?_)
    | simp only [changes_mk]
    | with_reducible intro _
    | split
    | dsimp only [id])

theorem meterT2_changes {Q : List Block} {s0 : State} {tenant : BitVec 16} {n : Nat} {s : State}  (hq : subParts [.sched] Q = true) (hk : OnlyChanges Q s0 s) :
    OnlyChanges Q s0 (meterT2 tenant n s) := by
  unfold meterT2
  repeat' (first
    | with_reducible assumption
    | ((with_reducible refine .inr (subParts_mem hq ?_)); rfl)
    | with_reducible exact .inl rfl
    | with_reducible apply meterAdd_changes (hq := subParts_trans rfl hq)
    | with_reducible refine changes_ite ?_ ?_
    | (with_reducible refine changesParts_of ?_ ?_ ?_ ?_ ?_ ?_ ?_ ?_ ?_ ?_ ?_ ?_ ?_ ?_ ?_ ?_ ?_ ?_ ?_ ?_)
    | simp only [changes_mk]
    | with_reducible intro _
    | split
    | dsimp only [id])

theorem meterT3_changes {Q : List Block} {s0 : State} {tenant : BitVec 16} {n : Nat} {s : State}  (hq : subParts [.sched] Q = true) (hk : OnlyChanges Q s0 s) :
    OnlyChanges Q s0 (meterT3 tenant n s) := by
  unfold meterT3
  repeat' (first
    | with_reducible assumption
    | ((with_reducible refine .inr (subParts_mem hq ?_)); rfl)
    | with_reducible exact .inl rfl
    | with_reducible apply meterAdd_changes (hq := subParts_trans rfl hq)
    | with_reducible refine changes_ite ?_ ?_
    | (with_reducible refine changesParts_of ?_ ?_ ?_ ?_ ?_ ?_ ?_ ?_ ?_ ?_ ?_ ?_ ?_ ?_ ?_ ?_ ?_ ?_ ?_ ?_)
    | simp only [changes_mk]
    | with_reducible intro _
    | split
    | dsimp only [id])

theorem fnUpd_changes {Q : List Block} {s0 : State} {fn : FnId} {f : FnHost → FnHost} {s : State}  (hq : subParts [.host] Q = true) (hk : OnlyChanges Q s0 s) :
    OnlyChanges Q s0 (fnUpd fn f s) := by
  unfold fnUpd
  repeat' (first
    | with_reducible assumption
    | ((with_reducible refine .inr (subParts_mem hq ?_)); rfl)
    | with_reducible exact .inl rfl
    | with_reducible refine changes_ite ?_ ?_
    | (with_reducible refine changesParts_of ?_ ?_ ?_ ?_ ?_ ?_ ?_ ?_ ?_ ?_ ?_ ?_ ?_ ?_ ?_ ?_ ?_ ?_ ?_ ?_)
    | simp only [changes_mk]
    | with_reducible intro _
    | split
    | dsimp only [id])

theorem ringUpd_changes {Q : List Block} {s0 : State} {r : RingRef} {f : RingSet → RingSet} {s : State}  (hq : subParts [.host] Q = true) (hk : OnlyChanges Q s0 s) :
    OnlyChanges Q s0 (ringUpd r f s) := by
  unfold ringUpd
  repeat' (first
    | with_reducible assumption
    | ((with_reducible refine .inr (subParts_mem hq ?_)); rfl)
    | with_reducible exact .inl rfl
    | with_reducible apply fnUpd_changes (hq := subParts_trans rfl hq)
    | with_reducible refine changes_ite ?_ ?_
    | (with_reducible refine changesParts_of ?_ ?_ ?_ ?_ ?_ ?_ ?_ ?_ ?_ ?_ ?_ ?_ ?_ ?_ ?_ ?_ ?_ ?_ ?_ ?_)
    | simp only [changes_mk]
    | with_reducible intro _
    | split
    | dsimp only [id])

theorem draw_changes {Q : List Block} {s0 : State} {s : State}  (hq : subParts [.drbg, .free] Q = true) (hk : OnlyChanges Q s0 s) :
    OnlyChanges Q s0 (draw s).2 := by
  unfold draw
  repeat' (first
    | with_reducible assumption
    | ((with_reducible refine .inr (subParts_mem hq ?_)); rfl)
    | with_reducible exact .inl rfl
    | with_reducible refine changes_ite ?_ ?_
    | (with_reducible refine changesParts_of ?_ ?_ ?_ ?_ ?_ ?_ ?_ ?_ ?_ ?_ ?_ ?_ ?_ ?_ ?_ ?_ ?_ ?_ ?_ ?_)
    | simp only [changes_mk]
    | with_reducible intro _
    | split
    | dsimp only [id])

theorem draw_changes_of {Q : List Block} {s0 : State} {s : State}  (hq : subParts [.drbg, .free] Q = true) {tt : State} {c0 : _} (eq_ : draw s = (c0, tt)) (hk : OnlyChanges Q s0 s) : OnlyChanges Q s0 tt := by
  have := draw_changes (Q := Q) (s0 := s0) (s := s)  hq hk
  rw [eq_] at this; exact this

end Sys2Proof.Machine
end

