-- ==== Sys2Proof/Laws/ChangesEgress.lean ====
section
/-!
SUPPORT. The blocks of the state that the operations of Sys2Proof/Machine/Egress.lean may change.
-/

namespace Sys2Proof.Machine

theorem linkUpd_changes {Q : List Block} {s0 : State} {n : Nat} {f : Link → Link} {s : State}  (hq : subParts [.links] Q = true) (hk : OnlyChanges Q s0 s) :
    OnlyChanges Q s0 (linkUpd n f s) := by
  unfold linkUpd
  repeat' (first
    | with_reducible assumption
    | ((with_reducible refine .inr (subParts_mem hq ?_)); rfl)
    | with_reducible exact .inl rfl
    | with_reducible refine changes_ite ?_ ?_
    | (with_reducible refine changesParts_of ?_ ?_ ?_ ?_ ?_ ?_ ?_ ?_ ?_ ?_ ?_ ?_ ?_ ?_ ?_ ?_ ?_ ?_ ?_ ?_)
    | simp only [changes_mk]
    | with_reducible intro _
    | split
    | dsimp only [id])

theorem pushPacket_changes {Q : List Block} {s0 : State} {n : Nat} {pkt : Packet} {cls : Nat} {tc : Nat} {slot : Nat} {tenant : BitVec 16} {payload : Nat} {hdr : Nat} {s : State} (hq : subParts [.links] Q = true) (hk : OnlyChanges Q s0 s) :
    OnlyChanges Q s0 (pushPacket n pkt cls tc slot tenant payload hdr s) := by
  unfold pushPacket
  repeat' (first
    | with_reducible assumption
    | ((with_reducible refine .inr (subParts_mem hq ?_)); rfl)
    | with_reducible exact .inl rfl
    | with_reducible apply linkUpd_changes (hq := subParts_trans rfl hq)
    | with_reducible refine changes_ite ?_ ?_
    | (with_reducible refine changesParts_of ?_ ?_ ?_ ?_ ?_ ?_ ?_ ?_ ?_ ?_ ?_ ?_ ?_ ?_ ?_ ?_ ?_ ?_ ?_ ?_)
    | simp only [changes_mk]
    | with_reducible intro _
    | split
    | dsimp only [id])

theorem enqueue_changes {Q : List Block} {s0 : State} {n : Nat} {pkt : Packet} {cls : Nat} {tc : Nat} {tenant : Option (BitVec 16)} {payload : Nat} {hdr : Nat} {s : State} (hq : subParts [.links] Q = true) (hk : OnlyChanges Q s0 s) :
    OnlyChanges Q s0 (enqueue n pkt cls tc tenant payload hdr s) := by
  unfold enqueue
  repeat' (first
    | with_reducible assumption
    | ((with_reducible refine .inr (subParts_mem hq ?_)); rfl)
    | with_reducible exact .inl rfl
    | with_reducible apply getD_changes
    | with_reducible apply pushPacket_changes (hq := subParts_trans rfl hq)
    | with_reducible refine changes_ite ?_ ?_
    | (with_reducible refine changesParts_of ?_ ?_ ?_ ?_ ?_ ?_ ?_ ?_ ?_ ?_ ?_ ?_ ?_ ?_ ?_ ?_ ?_ ?_ ?_ ?_)
    | simp only [changes_mk]
    | with_reducible intro _
    | split
    | dsimp only [id])

theorem slSend_changes {Q : List Block} {s0 : State} {m : SlMsg} {s : State} (hq : subParts [.links] Q = true) (hk : OnlyChanges Q s0 s) :
    OnlyChanges Q s0 (slSend m s) := by
  unfold slSend
  repeat' (first
    | with_reducible assumption
    | ((with_reducible refine .inr (subParts_mem hq ?_)); rfl)
    | with_reducible exact .inl rfl
    | with_reducible apply pushPacket_changes (hq := subParts_trans rfl hq)
    | with_reducible refine changes_ite ?_ ?_
    | (with_reducible refine changesParts_of ?_ ?_ ?_ ?_ ?_ ?_ ?_ ?_ ?_ ?_ ?_ ?_ ?_ ?_ ?_ ?_ ?_ ?_ ?_ ?_)
    | simp only [changes_mk]
    | with_reducible intro _
    | split
    | dsimp only [id])

theorem sendSuspect_changes {Q : List Block} {s0 : State} {d : DevId} {s : State} (hq : subParts [.links] Q = true) (hk : OnlyChanges Q s0 s) :
    OnlyChanges Q s0 (sendSuspect d s) := by
  unfold sendSuspect
  repeat' (first
    | with_reducible assumption
    | ((with_reducible refine .inr (subParts_mem hq ?_)); rfl)
    | with_reducible exact .inl rfl
    | with_reducible apply slSend_changes (hq := subParts_trans rfl hq)
    | with_reducible refine changes_ite ?_ ?_
    | (with_reducible refine changesParts_of ?_ ?_ ?_ ?_ ?_ ?_ ?_ ?_ ?_ ?_ ?_ ?_ ?_ ?_ ?_ ?_ ?_ ?_ ?_ ?_)
    | simp only [changes_mk]
    | with_reducible intro _
    | split
    | dsimp only [id])

theorem trayDstUpd_changes {Q : List Block} {s0 : State} {d : Nat} {f : TrayDst → TrayDst} {s : State}  (hq : subParts [.near] Q = true) (hk : OnlyChanges Q s0 s) :
    OnlyChanges Q s0 (trayDstUpd d f s) := by
  unfold trayDstUpd
  repeat' (first
    | with_reducible assumption
    | ((with_reducible refine .inr (subParts_mem hq ?_)); rfl)
    | with_reducible exact .inl rfl
    | with_reducible refine changes_ite ?_ ?_
    | (with_reducible refine changesParts_of ?_ ?_ ?_ ?_ ?_ ?_ ?_ ?_ ?_ ?_ ?_ ?_ ?_ ?_ ?_ ?_ ?_ ?_ ?_ ?_)
    | simp only [changes_mk]
    | with_reducible intro _
    | split
    | dsimp only [id])

theorem trayPacket_changes {Q : List Block} {s0 : State} {d : Nat} {mk : Bool → Packet} {cls : Nat} {tc : Nat} {tenant : Option (BitVec 16)} {payload : Nat} {s : State}  (hq : subParts [.links] Q = true) (hk : OnlyChanges Q s0 s) :
    OnlyChanges Q s0 (trayPacket d mk cls tc tenant payload s) := by
  unfold trayPacket
  repeat' (first
    | with_reducible assumption
    | ((with_reducible refine .inr (subParts_mem hq ?_)); rfl)
    | with_reducible exact .inl rfl
    | with_reducible apply enqueue_changes (hq := subParts_trans rfl hq)
    | with_reducible refine changes_ite ?_ ?_
    | (with_reducible refine changesParts_of ?_ ?_ ?_ ?_ ?_ ?_ ?_ ?_ ?_ ?_ ?_ ?_ ?_ ?_ ?_ ?_ ?_ ?_ ?_ ?_)
    | simp only [changes_mk]
    | with_reducible intro _
    | split
    | dsimp only [id])

theorem trayQueue_changes {Q : List Block} {s0 : State} {d : Nat} {resent : Bool} {r : TrayReq} {why : TrayWhy} {s : State} (hq : subParts [.links] Q = true) (hk : OnlyChanges Q s0 s) :
    OnlyChanges Q s0 (trayQueue d resent r why s) := by
  unfold trayQueue
  repeat' (first
    | with_reducible assumption
    | ((with_reducible refine .inr (subParts_mem hq ?_)); rfl)
    | with_reducible exact .inl rfl
    | with_reducible apply trayPacket_changes (hq := subParts_trans rfl hq)
    | with_reducible refine changes_ite ?_ ?_
    | (with_reducible refine changesParts_of ?_ ?_ ?_ ?_ ?_ ?_ ?_ ?_ ?_ ?_ ?_ ?_ ?_ ?_ ?_ ?_ ?_ ?_ ?_ ?_)
    | simp only [changes_mk]
    | with_reducible intro _
    | split
    | dsimp only [id])

theorem traySend_changes {Q : List Block} {s0 : State} {d : Nat} {r : TrayReq} {why : TrayWhy} {s : State} (hq : subParts [.near, .links] Q = true) (hk : OnlyChanges Q s0 s) :
    OnlyChanges Q s0 (traySend d r why s) := by
  unfold traySend
  repeat' (first
    | with_reducible assumption
    | ((with_reducible refine .inr (subParts_mem hq ?_)); rfl)
    | with_reducible exact .inl rfl
    | with_reducible apply trayQueue_changes (hq := subParts_trans rfl hq)
    | with_reducible apply trayDstUpd_changes (hq := subParts_trans rfl hq)
    | with_reducible refine changes_ite ?_ ?_
    | (with_reducible refine changesParts_of ?_ ?_ ?_ ?_ ?_ ?_ ?_ ?_ ?_ ?_ ?_ ?_ ?_ ?_ ?_ ?_ ?_ ?_ ?_ ?_)
    | simp only [changes_mk]
    | with_reducible intro _
    | split
    | dsimp only [id])

theorem trayIssue_changes {Q : List Block} {s0 : State} {d : Nat} {r : TrayReq} {why : TrayWhy} {s : State} (hq : subParts [.near, .links] Q = true) (hk : OnlyChanges Q s0 s) :
    OnlyChanges Q s0 (trayIssue d r why s) := by
  unfold trayIssue
  repeat' (first
    | with_reducible assumption
    | ((with_reducible refine .inr (subParts_mem hq ?_)); rfl)
    | with_reducible exact .inl rfl
    | with_reducible apply traySend_changes (hq := subParts_trans rfl hq)
    | with_reducible apply trayDstUpd_changes (hq := subParts_trans rfl hq)
    | with_reducible refine changes_ite ?_ ?_
    | (with_reducible refine changesParts_of ?_ ?_ ?_ ?_ ?_ ?_ ?_ ?_ ?_ ?_ ?_ ?_ ?_ ?_ ?_ ?_ ?_ ?_ ?_ ?_)
    | simp only [changes_mk]
    | with_reducible intro _
    | split
    | dsimp only [id])

theorem trayDrainWaiting_changes {Q : List Block} {s0 : State} {fuel : Nat} {d : Nat} {s : State} (hq : subParts [.near, .links] Q = true) (hk : OnlyChanges Q s0 s) :
    OnlyChanges Q s0 (trayDrainWaiting fuel d s) := by
  induction fuel generalizing s with
  | zero =>
    unfold trayDrainWaiting
    repeat' (first
      | with_reducible assumption
      | ((with_reducible refine .inr (subParts_mem hq ?_)); rfl)
      | with_reducible exact .inl rfl
      | with_reducible apply traySend_changes (hq := subParts_trans rfl hq)
      | with_reducible apply trayDstUpd_changes (hq := subParts_trans rfl hq)
      | with_reducible refine changes_ite ?_ ?_
      | (with_reducible refine changesParts_of ?_ ?_ ?_ ?_ ?_ ?_ ?_ ?_ ?_ ?_ ?_ ?_ ?_ ?_ ?_ ?_ ?_ ?_ ?_ ?_)
      | simp only [changes_mk]
      | with_reducible intro _
      | split
      | dsimp only [id])
  | succ _ ih =>
    unfold trayDrainWaiting
    repeat' (first
      | with_reducible assumption
      | ((with_reducible refine .inr (subParts_mem hq ?_)); rfl)
      | with_reducible exact .inl rfl
      | with_reducible apply traySend_changes (hq := subParts_trans rfl hq)
      | with_reducible apply trayDstUpd_changes (hq := subParts_trans rfl hq)
      | with_reducible refine changes_ite ?_ ?_
      | (with_reducible refine changesParts_of ?_ ?_ ?_ ?_ ?_ ?_ ?_ ?_ ?_ ?_ ?_ ?_ ?_ ?_ ?_ ?_ ?_ ?_ ?_ ?_)
      | simp only [changes_mk]
      | with_reducible apply ih
      | with_reducible intro _
      | split
      | dsimp only [id])

theorem trayDrainAll_changes {Q : List Block} {s0 : State} {s : State} (hq : subParts [.near, .links] Q = true) (hk : OnlyChanges Q s0 s) :
    OnlyChanges Q s0 (trayDrainAll s) := by
  unfold trayDrainAll
  repeat' (first
    | with_reducible assumption
    | ((with_reducible refine .inr (subParts_mem hq ?_)); rfl)
    | with_reducible exact .inl rfl
    | with_reducible apply foldl_changes
    | with_reducible apply foldl_changes_fst
    | with_reducible apply foldl_changes_snd
    | with_reducible apply trayDrainWaiting_changes (hq := subParts_trans rfl hq)
    | with_reducible refine changes_ite ?_ ?_
    | (with_reducible refine changesParts_of ?_ ?_ ?_ ?_ ?_ ?_ ?_ ?_ ?_ ?_ ?_ ?_ ?_ ?_ ?_ ?_ ?_ ?_ ?_ ?_)
    | simp only [changes_mk]
    | with_reducible intro _
    | split
    | dsimp only [id])

theorem trayAnswer_changes {Q : List Block} {s0 : State} {h : TrayHdr} {c : Status} {payload : List Byte} {s : State}  (hq : subParts [.links] Q = true) (hk : OnlyChanges Q s0 s) :
    OnlyChanges Q s0 (trayAnswer h c payload s) := by
  unfold trayAnswer
  repeat' (first
    | with_reducible assumption
    | ((with_reducible refine .inr (subParts_mem hq ?_)); rfl)
    | with_reducible exact .inl rfl
    | with_reducible apply trayPacket_changes (hq := subParts_trans rfl hq)
    | with_reducible refine changes_ite ?_ ?_
    | (with_reducible refine changesParts_of ?_ ?_ ?_ ?_ ?_ ?_ ?_ ?_ ?_ ?_ ?_ ?_ ?_ ?_ ?_ ?_ ?_ ?_ ?_ ?_)
    | simp only [changes_mk]
    | with_reducible intro _
    | split
    | dsimp only [id])

theorem podQueue_changes {Q : List Block} {s0 : State} {plane : Option Nat} {p : Packet} {cls : Nat} {tc : Nat} {tenant : Option (BitVec 16)} {len : Nat} {s : State} (hq : subParts [.links] Q = true) (hk : OnlyChanges Q s0 s) :
    OnlyChanges Q s0 (podQueue plane p cls tc tenant len s) := by
  unfold podQueue
  repeat' (first
    | with_reducible assumption
    | ((with_reducible refine .inr (subParts_mem hq ?_)); rfl)
    | with_reducible exact .inl rfl
    | with_reducible apply enqueue_changes (hq := subParts_trans rfl hq)
    | with_reducible refine changes_ite ?_ ?_
    | (with_reducible refine changesParts_of ?_ ?_ ?_ ?_ ?_ ?_ ?_ ?_ ?_ ?_ ?_ ?_ ?_ ?_ ?_ ?_ ?_ ?_ ?_ ?_)
    | simp only [changes_mk]
    | with_reducible intro _
    | split
    | dsimp only [id])

theorem podPlace_changes {Q : List Block} {s0 : State} {id : Nat} {s : State} (hq : subParts [.rma, .links] Q = true) (hk : OnlyChanges Q s0 s) :
    OnlyChanges Q s0 (podPlace id s) := by
  unfold podPlace
  repeat' (first
    | with_reducible assumption
    | ((with_reducible refine .inr (subParts_mem hq ?_)); rfl)
    | with_reducible exact .inl rfl
    | with_reducible apply enqueue_changes (hq := subParts_trans rfl hq)
    | with_reducible refine changes_ite ?_ ?_
    | (with_reducible refine changesParts_of ?_ ?_ ?_ ?_ ?_ ?_ ?_ ?_ ?_ ?_ ?_ ?_ ?_ ?_ ?_ ?_ ?_ ?_ ?_ ?_)
    | simp only [changes_mk]
    | with_reducible intro _
    | split
    | dsimp only [id])

theorem podSend_changes {Q : List Block} {s0 : State} {h : PodHdr} {payload : List Byte} {fw : Option FwMsg} {tenant : Option (BitVec 16)} {tc : Nat} {s : State} (hq : subParts [.rma, .links] Q = true) (hk : OnlyChanges Q s0 s) :
    OnlyChanges Q s0 (podSend h payload fw tenant tc s) := by
  unfold podSend
  repeat' (first
    | with_reducible assumption
    | ((with_reducible refine .inr (subParts_mem hq ?_)); rfl)
    | with_reducible exact .inl rfl
    | with_reducible apply podPlace_changes (hq := subParts_trans rfl hq)
    | with_reducible refine changes_ite ?_ ?_
    | (with_reducible refine changesParts_of ?_ ?_ ?_ ?_ ?_ ?_ ?_ ?_ ?_ ?_ ?_ ?_ ?_ ?_ ?_ ?_ ?_ ?_ ?_ ?_)
    | simp only [changes_mk]
    | with_reducible intro _
    | split
    | dsimp only [id])

theorem fetchEnds_changes {Q : List Block} {s0 : State} {c : Status} {s : State}  (hq : subParts [.sec] Q = true) (hk : OnlyChanges Q s0 s) :
    OnlyChanges Q s0 (fetchEnds c s) := by
  unfold fetchEnds
  repeat' (first
    | with_reducible assumption
    | ((with_reducible refine .inr (subParts_mem hq ?_)); rfl)
    | with_reducible exact .inl rfl
    | with_reducible refine changes_ite ?_ ?_
    | (with_reducible refine changesParts_of ?_ ?_ ?_ ?_ ?_ ?_ ?_ ?_ ?_ ?_ ?_ ?_ ?_ ?_ ?_ ?_ ?_ ?_ ?_ ?_)
    | simp only [changes_mk]
    | with_reducible intro _
    | split
    | dsimp only [id])

theorem fwFails_changes {Q : List Block} {s0 : State} {m : FwMsg} {c : Status} {s : State} (hq : subParts [.sec] Q = true) (hk : OnlyChanges Q s0 s) :
    OnlyChanges Q s0 (fwFails m c s) := by
  unfold fwFails
  repeat' (first
    | with_reducible assumption
    | ((with_reducible refine .inr (subParts_mem hq ?_)); rfl)
    | with_reducible exact .inl rfl
    | with_reducible apply fetchEnds_changes (hq := subParts_trans rfl hq)
    | with_reducible refine changes_ite ?_ ?_
    | (with_reducible refine changesParts_of ?_ ?_ ?_ ?_ ?_ ?_ ?_ ?_ ?_ ?_ ?_ ?_ ?_ ?_ ?_ ?_ ?_ ?_ ?_ ?_)
    | simp only [changes_mk]
    | with_reducible intro _
    | split
    | dsimp only [id])

theorem sendPod_changes {Q : List Block} {s0 : State} {d : DevId} {epoch : Word} {m : FwMsg} {s : State} (hq : subParts [.rma, .links] Q = true) (hk : OnlyChanges Q s0 s) :
    OnlyChanges Q s0 (sendPod d epoch m s) := by
  unfold sendPod
  repeat' (first
    | with_reducible assumption
    | ((with_reducible refine .inr (subParts_mem hq ?_)); rfl)
    | with_reducible exact .inl rfl
    | with_reducible apply podSend_changes (hq := subParts_trans rfl hq)
    | with_reducible refine changes_ite ?_ ?_
    | (with_reducible refine changesParts_of ?_ ?_ ?_ ?_ ?_ ?_ ?_ ?_ ?_ ?_ ?_ ?_ ?_ ?_ ?_ ?_ ?_ ?_ ?_ ?_)
    | simp only [changes_mk]
    | with_reducible intro _
    | split
    | dsimp only [id])

theorem fetchSend_changes {Q : List Block} {s0 : State} {s : State} (hq : subParts [.sec, .rma, .links] Q = true) (hk : OnlyChanges Q s0 s) :
    OnlyChanges Q s0 (fetchSend s) := by
  unfold fetchSend
  repeat' (first
    | with_reducible assumption
    | ((with_reducible refine .inr (subParts_mem hq ?_)); rfl)
    | with_reducible exact .inl rfl
    | with_reducible apply sendPod_changes (hq := subParts_trans rfl hq)
    | with_reducible apply fetchEnds_changes (hq := subParts_trans rfl hq)
    | with_reducible refine changes_ite ?_ ?_
    | (with_reducible refine changesParts_of ?_ ?_ ?_ ?_ ?_ ?_ ?_ ?_ ?_ ?_ ?_ ?_ ?_ ?_ ?_ ?_ ?_ ?_ ?_ ?_)
    | simp only [changes_mk]
    | with_reducible intro _
    | split
    | dsimp only [id])

theorem sendFw_changes {Q : List Block} {s0 : State} {d : DevId} {epoch : Word} {m : FwMsg} {s : State} (hq : subParts [.rma, .links, .out] Q = true) (hk : OnlyChanges Q s0 s) :
    OnlyChanges Q s0 (sendFw d epoch m s) := by
  unfold sendFw
  repeat' (first
    | with_reducible assumption
    | ((with_reducible refine .inr (subParts_mem hq ?_)); rfl)
    | with_reducible exact .inl rfl
    | with_reducible apply emit_changes (hq := subParts_trans rfl hq)
    | with_reducible apply sendPod_changes (hq := subParts_trans rfl hq)
    | with_reducible apply enqueue_changes (hq := subParts_trans rfl hq)
    | with_reducible refine changes_ite ?_ ?_
    | (with_reducible refine changesParts_of ?_ ?_ ?_ ?_ ?_ ?_ ?_ ?_ ?_ ?_ ?_ ?_ ?_ ?_ ?_ ?_ ?_ ?_ ?_ ?_)
    | simp only [changes_mk]
    | with_reducible intro _
    | split
    | dsimp only [id])

end Sys2Proof.Machine
end

