-- ==== Sys2Proof/Laws/ChangesRecords.lean ====
section
/-!
SUPPORT. The blocks of the state that the operations of Sys2Proof/Machine/Records.lean may change.
-/

namespace Sys2Proof.Machine

theorem recUpd_changes {Q : List Block} {s0 : State} {q : ReqId} {f : Rec → Rec} {s : State}  (hq : subParts [.req] Q = true) (hk : OnlyChanges Q s0 s) :
    OnlyChanges Q s0 (recUpd q f s) := by
  unfold recUpd
  repeat' (first
    | with_reducible assumption
    | ((with_reducible refine .inr (subParts_mem hq ?_)); rfl)
    | with_reducible exact .inl rfl
    | with_reducible refine changes_ite ?_ ?_
    | (with_reducible refine changesParts_of ?_ ?_ ?_ ?_ ?_ ?_ ?_ ?_ ?_ ?_ ?_ ?_ ?_ ?_ ?_ ?_ ?_ ?_ ?_ ?_)
    | simp only [changes_mk]
    | with_reducible intro _
    | split
    | dsimp only [id])

theorem recCreate_changes {Q : List Block} {s0 : State} {r : Rec} {s : State}  (hq : subParts [.req] Q = true) (hk : OnlyChanges Q s0 s) :
    OnlyChanges Q s0 (recCreate r s) := by
  unfold recCreate
  repeat' (first
    | with_reducible assumption
    | ((with_reducible refine .inr (subParts_mem hq ?_)); rfl)
    | with_reducible exact .inl rfl
    | with_reducible refine changes_ite ?_ ?_
    | (with_reducible refine changesParts_of ?_ ?_ ?_ ?_ ?_ ?_ ?_ ?_ ?_ ?_ ?_ ?_ ?_ ?_ ?_ ?_ ?_ ?_ ?_ ?_)
    | simp only [changes_mk]
    | with_reducible intro _
    | split
    | dsimp only [id])

theorem recRetire_changes {Q : List Block} {s0 : State} {q : ReqId} {c : Status} {s : State}  (hq : subParts [.req] Q = true) (hk : OnlyChanges Q s0 s) :
    OnlyChanges Q s0 (recRetire q c s) := by
  unfold recRetire
  repeat' (first
    | with_reducible assumption
    | ((with_reducible refine .inr (subParts_mem hq ?_)); rfl)
    | with_reducible exact .inl rfl
    | with_reducible refine changes_ite ?_ ?_
    | (with_reducible refine changesParts_of ?_ ?_ ?_ ?_ ?_ ?_ ?_ ?_ ?_ ?_ ?_ ?_ ?_ ?_ ?_ ?_ ?_ ?_ ?_ ?_)
    | simp only [changes_mk]
    | with_reducible intro _
    | split
    | dsimp only [id])

theorem recFree_changes {Q : List Block} {s0 : State} {q : ReqId} {s : State}  (hq : subParts [.req] Q = true) (hk : OnlyChanges Q s0 s) :
    OnlyChanges Q s0 (recFree q s) := by
  unfold recFree
  repeat' (first
    | with_reducible assumption
    | ((with_reducible refine .inr (subParts_mem hq ?_)); rfl)
    | with_reducible exact .inl rfl
    | with_reducible refine changes_ite ?_ ?_
    | (with_reducible refine changesParts_of ?_ ?_ ?_ ?_ ?_ ?_ ?_ ?_ ?_ ?_ ?_ ?_ ?_ ?_ ?_ ?_ ?_ ?_ ?_ ?_)
    | simp only [changes_mk]
    | with_reducible intro _
    | split
    | dsimp only [id])

theorem countLost_changes {Q : List Block} {s0 : State} {s : State}  (hq : subParts [.dev, .req] Q = true) (hk : OnlyChanges Q s0 s) :
    OnlyChanges Q s0 (countLost s) := by
  unfold countLost
  repeat' (first
    | with_reducible assumption
    | ((with_reducible refine .inr (subParts_mem hq ?_)); rfl)
    | with_reducible exact .inl rfl
    | with_reducible apply noteErr_changes (hq := subParts_trans rfl hq)
    | with_reducible refine changes_ite ?_ ?_
    | (with_reducible refine changesParts_of ?_ ?_ ?_ ?_ ?_ ?_ ?_ ?_ ?_ ?_ ?_ ?_ ?_ ?_ ?_ ?_ ?_ ?_ ?_ ?_)
    | simp only [changes_mk]
    | with_reducible intro _
    | split
    | dsimp only [id])

theorem addCond_changes {Q : List Block} {s0 : State} {q : ReqId} {c : Status} {s : State}  (hq : subParts [.req] Q = true) (hk : OnlyChanges Q s0 s) :
    OnlyChanges Q s0 (addCond q c s) := by
  unfold addCond
  repeat' (first
    | with_reducible assumption
    | ((with_reducible refine .inr (subParts_mem hq ?_)); rfl)
    | with_reducible exact .inl rfl
    | with_reducible apply recUpd_changes (hq := subParts_trans rfl hq)
    | with_reducible refine changes_ite ?_ ?_
    | (with_reducible refine changesParts_of ?_ ?_ ?_ ?_ ?_ ?_ ?_ ?_ ?_ ?_ ?_ ?_ ?_ ?_ ?_ ?_ ?_ ?_ ?_ ?_)
    | simp only [changes_mk]
    | with_reducible intro _
    | split
    | dsimp only [id])

theorem mapPrune_changes {Q : List Block} {s0 : State} {s : State} (hq : subParts [.pair] Q = true) (hk : OnlyChanges Q s0 s) :
    OnlyChanges Q s0 (mapPrune s) := by
  unfold mapPrune
  repeat' (first
    | with_reducible assumption
    | ((with_reducible refine .inr (subParts_mem hq ?_)); rfl)
    | with_reducible exact .inl rfl
    | with_reducible refine changes_ite ?_ ?_
    | (with_reducible refine changesParts_of ?_ ?_ ?_ ?_ ?_ ?_ ?_ ?_ ?_ ?_ ?_ ?_ ?_ ?_ ?_ ?_ ?_ ?_ ?_ ?_)
    | simp only [changes_mk]
    | with_reducible intro _
    | split
    | dsimp only [id])

theorem quotaUpd_changes {Q : List Block} {s0 : State} {t : BitVec 16} {f : Quota → Quota} {s : State}  (hq : subParts [.tier] Q = true) (hk : OnlyChanges Q s0 s) :
    OnlyChanges Q s0 (quotaUpd t f s) := by
  unfold quotaUpd
  repeat' (first
    | with_reducible assumption
    | ((with_reducible refine .inr (subParts_mem hq ?_)); rfl)
    | with_reducible exact .inl rfl
    | with_reducible refine changes_ite ?_ ?_
    | (with_reducible refine changesParts_of ?_ ?_ ?_ ?_ ?_ ?_ ?_ ?_ ?_ ?_ ?_ ?_ ?_ ?_ ?_ ?_ ?_ ?_ ?_ ?_)
    | simp only [changes_mk]
    | with_reducible intro _
    | split
    | dsimp only [id])

theorem quotaReserve_changes {Q : List Block} {s0 : State} {t : BitVec 16} {n : Nat} {s : State}  (hq : subParts [.tier] Q = true) (hk : OnlyChanges Q s0 s) :
    OnlyChanges Q s0 (quotaReserve t n s).2 := by
  unfold quotaReserve
  repeat' (first
    | with_reducible assumption
    | ((with_reducible refine .inr (subParts_mem hq ?_)); rfl)
    | with_reducible exact .inl rfl
    | with_reducible apply quotaUpd_changes (hq := subParts_trans rfl hq)
    | with_reducible refine changes_ite ?_ ?_
    | (with_reducible refine changesParts_of ?_ ?_ ?_ ?_ ?_ ?_ ?_ ?_ ?_ ?_ ?_ ?_ ?_ ?_ ?_ ?_ ?_ ?_ ?_ ?_)
    | simp only [changes_mk]
    | with_reducible intro _
    | split
    | dsimp only [id])

theorem quotaReserve_changes_of {Q : List Block} {s0 : State} {t : BitVec 16} {n : Nat} {s : State}  (hq : subParts [.tier] Q = true) {tt : State} {c0 : _} (eq_ : quotaReserve t n s = (c0, tt)) (hk : OnlyChanges Q s0 s) : OnlyChanges Q s0 tt := by
  have := quotaReserve_changes (Q := Q) (s0 := s0) (t := t) (n := n) (s := s)  hq hk
  rw [eq_] at this; exact this

theorem quotaReturn_changes {Q : List Block} {s0 : State} {t : BitVec 16} {n : Nat} {s : State}  (hq : subParts [.tier] Q = true) (hk : OnlyChanges Q s0 s) :
    OnlyChanges Q s0 (quotaReturn t n s) := by
  unfold quotaReturn
  repeat' (first
    | with_reducible assumption
    | ((with_reducible refine .inr (subParts_mem hq ?_)); rfl)
    | with_reducible exact .inl rfl
    | with_reducible apply quotaUpd_changes (hq := subParts_trans rfl hq)
    | with_reducible refine changes_ite ?_ ?_
    | (with_reducible refine changesParts_of ?_ ?_ ?_ ?_ ?_ ?_ ?_ ?_ ?_ ?_ ?_ ?_ ?_ ?_ ?_ ?_ ?_ ?_ ?_ ?_)
    | simp only [changes_mk]
    | with_reducible intro _
    | split
    | dsimp only [id])

theorem chargeHeld_changes {Q : List Block} {s0 : State} {t : BitVec 16} {leave : Bool} {n : Nat} {s : State}  (hq : subParts [.tier] Q = true) (hk : OnlyChanges Q s0 s) :
    OnlyChanges Q s0 (chargeHeld t leave n s) := by
  unfold chargeHeld
  repeat' (first
    | with_reducible assumption
    | ((with_reducible refine .inr (subParts_mem hq ?_)); rfl)
    | with_reducible exact .inl rfl
    | with_reducible apply quotaUpd_changes (hq := subParts_trans rfl hq)
    | with_reducible refine changes_ite ?_ ?_
    | (with_reducible refine changesParts_of ?_ ?_ ?_ ?_ ?_ ?_ ?_ ?_ ?_ ?_ ?_ ?_ ?_ ?_ ?_ ?_ ?_ ?_ ?_ ?_)
    | simp only [changes_mk]
    | with_reducible intro _
    | split
    | dsimp only [id])

theorem galleyUpd_changes {Q : List Block} {s0 : State} {q : ReqId} {f : Galley → Galley} {s : State}  (hq : subParts [.req] Q = true) (hk : OnlyChanges Q s0 s) :
    OnlyChanges Q s0 (galleyUpd q f s) := by
  unfold galleyUpd
  repeat' (first
    | with_reducible assumption
    | ((with_reducible refine .inr (subParts_mem hq ?_)); rfl)
    | with_reducible exact .inl rfl
    | with_reducible refine changes_ite ?_ ?_
    | (with_reducible refine changesParts_of ?_ ?_ ?_ ?_ ?_ ?_ ?_ ?_ ?_ ?_ ?_ ?_ ?_ ?_ ?_ ?_ ?_ ?_ ?_ ?_)
    | simp only [changes_mk]
    | with_reducible intro _
    | split
    | dsimp only [id])

end Sys2Proof.Machine
end

