-- ==== Sys2Proof/Laws/ChangesSlugs.lean ====
section
/-!
SUPPORT. The blocks of the state that the operations of Sys2Proof/Machine/Slugs.lean may change.
-/

namespace Sys2Proof.Machine

theorem slotRef_changes {Q : List Block} {s0 : State} {part : Nat} {table : Nat} {b : Bool} {add : Bool} {n : Nat} {s : State}  (hq : subParts [.codec] Q = true) (hk : OnlyChanges Q s0 s) :
    OnlyChanges Q s0 (slotRef part table b add n s) := by
  unfold slotRef
  repeat' (first
    | with_reducible assumption
    | ((with_reducible refine .inr (subParts_mem hq ?_)); rfl)
    | with_reducible exact .inl rfl
    | with_reducible refine changes_ite ?_ ?_
    | (with_reducible refine changesParts_of ?_ ?_ ?_ ?_ ?_ ?_ ?_ ?_ ?_ ?_ ?_ ?_ ?_ ?_ ?_ ?_ ?_ ?_ ?_ ?_)
    | simp only [changes_mk]
    | with_reducible intro _
    | split
    | dsimp only [id])

theorem slugFailure_changes {Q : List Block} {s0 : State} {crc : Bool} {s : State}  (hq : subParts [.dev, .codec] Q = true) (hk : OnlyChanges Q s0 s) :
    OnlyChanges Q s0 (slugFailure crc s) := by
  unfold slugFailure
  repeat' (first
    | with_reducible assumption
    | ((with_reducible refine .inr (subParts_mem hq ?_)); rfl)
    | with_reducible exact .inl rfl
    | with_reducible apply noteErr_changes (hq := subParts_trans rfl hq)
    | with_reducible refine changes_ite ?_ ?_
    | (with_reducible refine changesParts_of ?_ ?_ ?_ ?_ ?_ ?_ ?_ ?_ ?_ ?_ ?_ ?_ ?_ ?_ ?_ ?_ ?_ ?_ ?_ ?_)
    | simp only [changes_mk]
    | with_reducible intro _
    | split
    | dsimp only [id])

end Sys2Proof.Machine
end

