-- ==== Sys2Proof/Laws/ChangesGalley.lean ====
section
/-!
SUPPORT. The blocks of the state that the operations of Sys2Proof/Machine/Galley.lean may change.
-/

namespace Sys2Proof.Machine

theorem pageUpd_changes {Q : List Block} {s0 : State} {q : ReqId} {k : Nat} {l : Nat} {p : Nat} {f : Page → Page} {s : State}  (hq : subParts [.req] Q = true) (hk : OnlyChanges Q s0 s) :
    OnlyChanges Q s0 (pageUpd q k l p f s) := by
  unfold pageUpd
  repeat' (first
    | with_reducible assumption
    | ((with_reducible refine .inr (subParts_mem hq ?_)); rfl)
    | with_reducible exact .inl rfl
    | with_reducible apply galleyUpd_changes (hq := subParts_trans rfl hq)
    | with_reducible refine changes_ite ?_ ?_
    | (with_reducible refine changesParts_of ?_ ?_ ?_ ?_ ?_ ?_ ?_ ?_ ?_ ?_ ?_ ?_ ?_ ?_ ?_ ?_ ?_ ?_ ?_ ?_)
    | simp only [changes_mk]
    | with_reducible intro _
    | split
    | dsimp only [id])

theorem syncHeader_changes {Q : List Block} {s0 : State} {q : ReqId} {l : Nat} {p : Nat} {slugs : Nat} {s : State}  (hq : subParts [.tier] Q = true) (hk : OnlyChanges Q s0 s) :
    OnlyChanges Q s0 (syncHeader q l p slugs s) := by
  unfold syncHeader
  repeat' (first
    | with_reducible assumption
    | ((with_reducible refine .inr (subParts_mem hq ?_)); rfl)
    | with_reducible exact .inl rfl
    | with_reducible apply t1Write_changes (hq := subParts_trans rfl hq)
    | with_reducible refine changes_ite ?_ ?_
    | (with_reducible refine changesParts_of ?_ ?_ ?_ ?_ ?_ ?_ ?_ ?_ ?_ ?_ ?_ ?_ ?_ ?_ ?_ ?_ ?_ ?_ ?_ ?_)
    | simp only [changes_mk]
    | with_reducible intro _
    | split
    | dsimp only [id])

theorem syncOpen_changes {Q : List Block} {s0 : State} {q : ReqId} {l : Nat} {s : State} (hq : subParts [.tier] Q = true) (hk : OnlyChanges Q s0 s) :
    OnlyChanges Q s0 (syncOpen q l s) := by
  unfold syncOpen
  repeat' (first
    | with_reducible assumption
    | ((with_reducible refine .inr (subParts_mem hq ?_)); rfl)
    | with_reducible exact .inl rfl
    | with_reducible apply foldl_changes
    | with_reducible apply foldl_changes_fst
    | with_reducible apply foldl_changes_snd
    | with_reducible apply syncHeader_changes (hq := subParts_trans rfl hq)
    | with_reducible refine changes_ite ?_ ?_
    | (with_reducible refine changesParts_of ?_ ?_ ?_ ?_ ?_ ?_ ?_ ?_ ?_ ?_ ?_ ?_ ?_ ?_ ?_ ?_ ?_ ?_ ?_ ?_)
    | simp only [changes_mk]
    | with_reducible intro _
    | split
    | dsimp only [id])

theorem openPage_changes_of {Q : List Block} {s0 : State} {q : ReqId} {k : Nat} {l : Nat} {p : Nat} {st : BitVec 3} {s : State}  (hq : subParts [.tier, .req] Q = true) {tt : State} (eq_ : openPage q k l p st s = some tt) (hk : OnlyChanges Q s0 s) : OnlyChanges Q s0 tt := by
  unfold openPage at eq_
  repeat' (first | split at eq_ | dsimp only at eq_)
  all_goals (first | (obtain ⟨⟨_, _⟩, eq_, rfl⟩ := Option.map_eq_some_iff.1 eq_) | (cases eq_; done) | (cases eq_) | skip)
  repeat' (first
    | with_reducible assumption
    | ((with_reducible refine .inr (subParts_mem hq ?_)); rfl)
    | with_reducible exact .inl rfl
    | with_reducible apply chargeHeld_changes (hq := subParts_trans rfl hq)
    | with_reducible apply pageUpd_changes (hq := subParts_trans rfl hq)
    | with_reducible apply recUpd_changes (hq := subParts_trans rfl hq)
    | with_reducible refine changes_ite ?_ ?_
    | (with_reducible refine changesParts_of ?_ ?_ ?_ ?_ ?_ ?_ ?_ ?_ ?_ ?_ ?_ ?_ ?_ ?_ ?_ ?_ ?_ ?_ ?_ ?_)
    | simp only [changes_mk]
    | with_reducible intro _
    | split
    | dsimp only [id])

theorem dropRef_changes {Q : List Block} {s0 : State} {g : Galley} {x : Page} {s : State}  (hq : subParts [.codec] Q = true) (hk : OnlyChanges Q s0 s) :
    OnlyChanges Q s0 (dropRef g x s) := by
  unfold dropRef
  repeat' (first
    | with_reducible assumption
    | ((with_reducible refine .inr (subParts_mem hq ?_)); rfl)
    | with_reducible exact .inl rfl
    | with_reducible apply slotRef_changes (hq := subParts_trans rfl hq)
    | with_reducible refine changes_ite ?_ ?_
    | (with_reducible refine changesParts_of ?_ ?_ ?_ ?_ ?_ ?_ ?_ ?_ ?_ ?_ ?_ ?_ ?_ ?_ ?_ ?_ ?_ ?_ ?_ ?_)
    | simp only [changes_mk]
    | with_reducible intro _
    | split
    | dsimp only [id])

theorem emptyPage_changes {Q : List Block} {s0 : State} {q : ReqId} {k : Nat} {l : Nat} {p : Nat} {s : State}  (hq : subParts [.codec, .tier, .req] Q = true) (hk : OnlyChanges Q s0 s) :
    OnlyChanges Q s0 (emptyPage q k l p s) := by
  unfold emptyPage
  repeat' (first
    | with_reducible assumption
    | ((with_reducible refine .inr (subParts_mem hq ?_)); rfl)
    | with_reducible exact .inl rfl
    | with_reducible apply chargeHeld_changes (hq := subParts_trans rfl hq)
    | with_reducible apply pageUpd_changes (hq := subParts_trans rfl hq)
    | with_reducible apply dropRef_changes (hq := subParts_trans rfl hq)
    | with_reducible apply recUpd_changes (hq := subParts_trans rfl hq)
    | with_reducible refine changes_ite ?_ ?_
    | (with_reducible refine changesParts_of ?_ ?_ ?_ ?_ ?_ ?_ ?_ ?_ ?_ ?_ ?_ ?_ ?_ ?_ ?_ ?_ ?_ ?_ ?_ ?_)
    | simp only [changes_mk]
    | with_reducible intro _
    | split
    | dsimp only [id])

theorem reportEnd_changes {Q : List Block} {s0 : State} {q : ReqId} {c : Status} {s : State}  (hq : subParts [.req, .rma, .links, .out] Q = true) (hk : OnlyChanges Q s0 s) :
    OnlyChanges Q s0 (reportEnd q c s) := by
  unfold reportEnd
  repeat' (first
    | with_reducible assumption
    | ((with_reducible refine .inr (subParts_mem hq ?_)); rfl)
    | with_reducible exact .inl rfl
    | with_reducible apply addCond_changes (hq := subParts_trans rfl hq)
    | with_reducible apply sendFw_changes (hq := subParts_trans rfl hq)
    | with_reducible refine changes_ite ?_ ?_
    | (with_reducible refine changesParts_of ?_ ?_ ?_ ?_ ?_ ?_ ?_ ?_ ?_ ?_ ?_ ?_ ?_ ?_ ?_ ?_ ?_ ?_ ?_ ?_)
    | simp only [changes_mk]
    | with_reducible intro _
    | split
    | dsimp only [id])

theorem repairBit_changes {Q : List Block} {s0 : State} {n : Nat} {v : Bool} {s : State}  (hq : subParts [.maint] Q = true) (hk : OnlyChanges Q s0 s) :
    OnlyChanges Q s0 (repairBit n v s) := by
  unfold repairBit
  repeat' (first
    | with_reducible assumption
    | ((with_reducible refine .inr (subParts_mem hq ?_)); rfl)
    | with_reducible exact .inl rfl
    | with_reducible refine changes_ite ?_ ?_
    | (with_reducible refine changesParts_of ?_ ?_ ?_ ?_ ?_ ?_ ?_ ?_ ?_ ?_ ?_ ?_ ?_ ?_ ?_ ?_ ?_ ?_ ?_ ?_)
    | simp only [changes_mk]
    | with_reducible intro _
    | split
    | dsimp only [id])

theorem addRepair_changes {Q : List Block} {s0 : State} {e : RepairEntry} {s : State}  (hq : subParts [.maint] Q = true) (hk : OnlyChanges Q s0 s) :
    OnlyChanges Q s0 (addRepair e s) := by
  unfold addRepair
  repeat' (first
    | with_reducible assumption
    | ((with_reducible refine .inr (subParts_mem hq ?_)); rfl)
    | with_reducible exact .inl rfl
    | with_reducible apply repairBit_changes (hq := subParts_trans rfl hq)
    | with_reducible refine changes_ite ?_ ?_
    | (with_reducible refine changesParts_of ?_ ?_ ?_ ?_ ?_ ?_ ?_ ?_ ?_ ?_ ?_ ?_ ?_ ?_ ?_ ?_ ?_ ?_ ?_ ?_)
    | simp only [changes_mk]
    | with_reducible intro _
    | split
    | dsimp only [id])

theorem pairFollow_changes {Q : List Block} {s0 : State} {s : State}  (hq : subParts [.pair] Q = true) (hk : OnlyChanges Q s0 s) :
    OnlyChanges Q s0 (pairFollow s) := by
  unfold pairFollow
  repeat' (first
    | with_reducible assumption
    | ((with_reducible refine .inr (subParts_mem hq ?_)); rfl)
    | with_reducible exact .inl rfl
    | with_reducible refine changes_ite ?_ ?_
    | (with_reducible refine changesParts_of ?_ ?_ ?_ ?_ ?_ ?_ ?_ ?_ ?_ ?_ ?_ ?_ ?_ ?_ ?_ ?_ ?_ ?_ ?_ ?_)
    | simp only [changes_mk]
    | with_reducible intro _
    | split
    | dsimp only [id])

theorem plateLost_changes {Q : List Block} {s0 : State} {r : PlateRef} {s : State}  (hq : subParts [.forme, .pair] Q = true) (hk : OnlyChanges Q s0 s) :
    OnlyChanges Q s0 (plateLost r s) := by
  unfold plateLost
  repeat' (first
    | with_reducible assumption
    | ((with_reducible refine .inr (subParts_mem hq ?_)); rfl)
    | with_reducible exact .inl rfl
    | with_reducible apply pairFollow_changes (hq := subParts_trans rfl hq)
    | with_reducible refine changes_ite ?_ ?_
    | (with_reducible refine changesParts_of ?_ ?_ ?_ ?_ ?_ ?_ ?_ ?_ ?_ ?_ ?_ ?_ ?_ ?_ ?_ ?_ ?_ ?_ ?_ ?_)
    | simp only [changes_mk]
    | with_reducible intro _
    | split
    | dsimp only [id])

theorem frameRetired_changes {Q : List Block} {s0 : State} {f : Nat} {s : State} (hq : subParts [.dev, .maint, .tier] Q = true) (hk : OnlyChanges Q s0 s) :
    OnlyChanges Q s0 (frameRetired f s) := by
  unfold frameRetired
  repeat' (first
    | with_reducible assumption
    | ((with_reducible refine .inr (subParts_mem hq ?_)); rfl)
    | with_reducible exact .inl rfl
    | with_reducible apply noteErr_changes (hq := subParts_trans rfl hq)
    | with_reducible apply addRepair_changes (hq := subParts_trans rfl hq)
    | with_reducible refine changes_ite ?_ ?_
    | (with_reducible refine changesParts_of ?_ ?_ ?_ ?_ ?_ ?_ ?_ ?_ ?_ ?_ ?_ ?_ ?_ ?_ ?_ ?_ ?_ ?_ ?_ ?_)
    | simp only [changes_mk]
    | with_reducible intro _
    | split
    | dsimp only [id])

theorem retireFrame_changes {Q : List Block} {s0 : State} {f : Nat} {s : State} (hq : subParts [.dev, .maint, .forme, .codec, .tier, .req, .pair, .rma, .links, .out] Q = true) (hk : OnlyChanges Q s0 s) :
    OnlyChanges Q s0 (retireFrame f s) := by
  unfold retireFrame
  repeat' (first
    | with_reducible assumption
    | ((with_reducible refine .inr (subParts_mem hq ?_)); rfl)
    | with_reducible exact .inl rfl
    | with_reducible apply frameRetired_changes (hq := subParts_trans rfl hq)
    | with_reducible apply plateLost_changes (hq := subParts_trans rfl hq)
    | with_reducible apply reportEnd_changes (hq := subParts_trans rfl hq)
    | with_reducible apply emptyPage_changes (hq := subParts_trans rfl hq)
    | with_reducible refine changes_ite ?_ ?_
    | (with_reducible refine changesParts_of ?_ ?_ ?_ ?_ ?_ ?_ ?_ ?_ ?_ ?_ ?_ ?_ ?_ ?_ ?_ ?_ ?_ ?_ ?_ ?_)
    | simp only [changes_mk]
    | with_reducible intro _
    | split
    | dsimp only [id])

theorem granuleFail_changes {Q : List Block} {s0 : State} {mac : Bool} {addr : Nat} {s : State}  (hq : subParts [.dev, .tier] Q = true) (hk : OnlyChanges Q s0 s) :
    OnlyChanges Q s0 (granuleFail mac addr s) := by
  unfold granuleFail
  repeat' (first
    | with_reducible assumption
    | ((with_reducible refine .inr (subParts_mem hq ?_)); rfl)
    | with_reducible exact .inl rfl
    | with_reducible apply noteErr_changes (hq := subParts_trans rfl hq)
    | with_reducible apply lpcUpd_changes (hq := subParts_trans rfl hq)
    | with_reducible refine changes_ite ?_ ?_
    | (with_reducible refine changesParts_of ?_ ?_ ?_ ?_ ?_ ?_ ?_ ?_ ?_ ?_ ?_ ?_ ?_ ?_ ?_ ?_ ?_ ?_ ?_ ?_)
    | simp only [changes_mk]
    | with_reducible intro _
    | split
    | dsimp only [id])

theorem placeRow_changes_of {Q : List Block} {s0 : State} {q : ReqId} {l : Nat} {pos : Nat} {step : Word} {spec : Bool} {row : List Byte} {s : State}  (hq : subParts [.tier, .sched, .req] Q = true) {tt : State} (eq_ : placeRow q l pos step spec row s = some tt) (hk : OnlyChanges Q s0 s) : OnlyChanges Q s0 tt := by
  unfold placeRow at eq_
  repeat' (first | split at eq_ | dsimp only at eq_)
  all_goals (first | (obtain ⟨⟨_, _⟩, eq_, rfl⟩ := Option.map_eq_some_iff.1 eq_) | (cases eq_; done) | (cases eq_) | skip)
  repeat' (first
    | with_reducible assumption
    | ((with_reducible refine .inr (subParts_mem hq ?_)); rfl)
    | with_reducible exact .inl rfl
    | with_reducible apply syncHeader_changes (hq := subParts_trans rfl hq)
    | with_reducible apply t1Write_changes (hq := subParts_trans rfl hq)
    | with_reducible apply meterT1_changes (hq := subParts_trans rfl hq)
    | with_reducible apply pageUpd_changes (hq := subParts_trans rfl hq)
    | (with_reducible apply openPage_changes_of (hq := subParts_trans rfl hq) (eq_ := by assumption))
    | (with_reducible refine ite_some_changes (by assumption) ?_ ?_)
    | with_reducible refine changes_ite ?_ ?_
    | (with_reducible refine changesParts_of ?_ ?_ ?_ ?_ ?_ ?_ ?_ ?_ ?_ ?_ ?_ ?_ ?_ ?_ ?_ ?_ ?_ ?_ ?_ ?_)
    | simp only [changes_mk]
    | with_reducible intro _
    | split
    | dsimp only [id])

theorem advanceCommit_changes {Q : List Block} {s0 : State} {q : ReqId} {l : Nat} {s : State}  (hq : subParts [.req] Q = true) (hk : OnlyChanges Q s0 s) :
    OnlyChanges Q s0 (advanceCommit q l s) := by
  unfold advanceCommit
  repeat' (first
    | with_reducible assumption
    | ((with_reducible refine .inr (subParts_mem hq ?_)); rfl)
    | with_reducible exact .inl rfl
    | with_reducible apply galleyUpd_changes (hq := subParts_trans rfl hq)
    | with_reducible refine changes_ite ?_ ?_
    | (with_reducible refine changesParts_of ?_ ?_ ?_ ?_ ?_ ?_ ?_ ?_ ?_ ?_ ?_ ?_ ?_ ?_ ?_ ?_ ?_ ?_ ?_ ?_)
    | simp only [changes_mk]
    | with_reducible intro _
    | split
    | dsimp only [id])

theorem appendRow_changes {Q : List Block} {s0 : State} {sender : DevId} {a : AppendHdr} {row : List Byte} {s : State} (hq : subParts [.tier, .sched, .req] Q = true) (hk : OnlyChanges Q s0 s) :
    OnlyChanges Q s0 (appendRow sender a row s).2 := by
  unfold appendRow
  repeat' (first
    | with_reducible assumption
    | ((with_reducible refine .inr (subParts_mem hq ?_)); rfl)
    | with_reducible exact .inl rfl
    | with_reducible apply galleyUpd_changes (hq := subParts_trans rfl hq)
    | with_reducible apply advanceCommit_changes (hq := subParts_trans rfl hq)
    | (with_reducible apply placeRow_changes_of (hq := subParts_trans rfl hq) (eq_ := by assumption))
    | with_reducible refine changes_ite ?_ ?_
    | (with_reducible refine changesParts_of ?_ ?_ ?_ ?_ ?_ ?_ ?_ ?_ ?_ ?_ ?_ ?_ ?_ ?_ ?_ ?_ ?_ ?_ ?_ ?_)
    | simp only [changes_mk]
    | with_reducible intro _
    | split
    | dsimp only [id])

theorem appendRow_changes_of {Q : List Block} {s0 : State} {sender : DevId} {a : AppendHdr} {row : List Byte} {s : State} {tt : State} {c0 : _} (eq_ : appendRow sender a row s = (c0, tt)) (hq : subParts [.tier, .sched, .req] Q = true) (hk : OnlyChanges Q s0 s) : OnlyChanges Q s0 tt := by
  have := appendRow_changes (Q := Q) (s0 := s0) (sender := sender) (a := a) (row := row) (s := s) hq hk
  rw [eq_] at this; exact this

theorem writeThumb_changes_of {Q : List Block} {s0 : State} {q : ReqId} {l : Nat} {p : Nat} {entry : List Byte} {s : State}  (hq : subParts [.tier, .sched, .req] Q = true) {tt : State} (eq_ : writeThumb q l p entry s = some tt) (hk : OnlyChanges Q s0 s) : OnlyChanges Q s0 tt := by
  unfold writeThumb at eq_
  repeat' (first | split at eq_ | dsimp only at eq_)
  all_goals (first | (obtain ⟨⟨_, _⟩, eq_, rfl⟩ := Option.map_eq_some_iff.1 eq_) | (cases eq_; done) | (cases eq_) | skip)
  repeat' (first
    | with_reducible assumption
    | ((with_reducible refine .inr (subParts_mem hq ?_)); rfl)
    | with_reducible exact .inl rfl
    | with_reducible apply t1Write_changes (hq := subParts_trans rfl hq)
    | with_reducible apply meterT1_changes (hq := subParts_trans rfl hq)
    | (with_reducible apply openPage_changes_of (hq := subParts_trans rfl hq) (eq_ := by assumption))
    | (with_reducible refine ite_some_changes (by assumption) ?_ ?_)
    | with_reducible refine changes_ite ?_ ?_
    | (with_reducible refine changesParts_of ?_ ?_ ?_ ?_ ?_ ?_ ?_ ?_ ?_ ?_ ?_ ?_ ?_ ?_ ?_ ?_ ?_ ?_ ?_ ?_)
    | simp only [changes_mk]
    | with_reducible intro _
    | split
    | dsimp only [id])

theorem beginSeals_changes {Q : List Block} {s0 : State} {q : ReqId} {n : Nat} {s : State}  (hq : subParts [.req] Q = true) (hk : OnlyChanges Q s0 s) :
    OnlyChanges Q s0 (beginSeals q n s) := by
  unfold beginSeals
  repeat' (first
    | with_reducible assumption
    | ((with_reducible refine .inr (subParts_mem hq ?_)); rfl)
    | with_reducible exact .inl rfl
    | with_reducible apply galleyUpd_changes (hq := subParts_trans rfl hq)
    | with_reducible refine changes_ite ?_ ?_
    | (with_reducible refine changesParts_of ?_ ?_ ?_ ?_ ?_ ?_ ?_ ?_ ?_ ?_ ?_ ?_ ?_ ?_ ?_ ?_ ?_ ?_ ?_ ?_)
    | simp only [changes_mk]
    | with_reducible intro _
    | split
    | dsimp only [id])

theorem sealThumb_changes_of {Q : List Block} {s0 : State} {q : ReqId} {g : Galley} {l : Nat} {p : Nat} {codes : List Nat} {s : State}  (hq : subParts [.tier, .sched, .req] Q = true) {tt : State} (eq_ : sealThumb q g l p codes s = some tt) (hk : OnlyChanges Q s0 s) : OnlyChanges Q s0 tt := by
  unfold sealThumb at eq_
  repeat' (first | split at eq_ | dsimp only at eq_)
  all_goals (first | (obtain ⟨⟨_, _⟩, eq_, rfl⟩ := Option.map_eq_some_iff.1 eq_) | (cases eq_; done) | (cases eq_) | skip)
  repeat' (first
    | with_reducible assumption
    | ((with_reducible refine .inr (subParts_mem hq ?_)); rfl)
    | with_reducible exact .inl rfl
    | (with_reducible apply writeThumb_changes_of (hq := subParts_trans rfl hq) (eq_ := by assumption))
    | (with_reducible refine ite_some_changes (by assumption) ?_ ?_)
    | with_reducible refine changes_ite ?_ ?_
    | (with_reducible refine changesParts_of ?_ ?_ ?_ ?_ ?_ ?_ ?_ ?_ ?_ ?_ ?_ ?_ ?_ ?_ ?_ ?_ ?_ ?_ ?_ ?_)
    | simp only [changes_mk]
    | with_reducible intro _
    | split
    | dsimp only [id])

theorem sealCode_changes {Q : List Block} {s0 : State} {q : ReqId} {g : Galley} {l : Nat} {p : Nat} {codes : List Nat} {s : State} (hq : subParts [.codec, .tier, .req] Q = true) (hk : OnlyChanges Q s0 s) :
    OnlyChanges Q s0 (sealCode q g l p codes s).1 := by
  unfold sealCode
  repeat' (first
    | with_reducible assumption
    | ((with_reducible refine .inr (subParts_mem hq ?_)); rfl)
    | with_reducible exact .inl rfl
    | with_reducible apply slotRef_changes (hq := subParts_trans rfl hq)
    | with_reducible apply galleyUpd_changes (hq := subParts_trans rfl hq)
    | with_reducible apply t1Write_changes (hq := subParts_trans rfl hq)
    | with_reducible apply pageUpd_changes (hq := subParts_trans rfl hq)
    | with_reducible refine changes_ite ?_ ?_
    | (with_reducible refine changesParts_of ?_ ?_ ?_ ?_ ?_ ?_ ?_ ?_ ?_ ?_ ?_ ?_ ?_ ?_ ?_ ?_ ?_ ?_ ?_ ?_)
    | simp only [changes_mk]
    | with_reducible intro _
    | split
    | dsimp only [id])

theorem sealCode_changes_of {Q : List Block} {s0 : State} {q : ReqId} {g : Galley} {l : Nat} {p : Nat} {codes : List Nat} {s : State} {tt : State} {c0 : _} (eq_ : sealCode q g l p codes s = (tt, c0)) (hq : subParts [.codec, .tier, .req] Q = true) (hk : OnlyChanges Q s0 s) : OnlyChanges Q s0 tt := by
  have := sealCode_changes (Q := Q) (s0 := s0) (q := q) (g := g) (l := l) (p := p) (codes := codes) (s := s) hq hk
  rw [eq_] at this; exact this

theorem sealPage_changes_of {Q : List Block} {s0 : State} {q : ReqId} {l : Nat} {p : Nat} {s : State}  (hq : subParts [.codec, .tier, .sched, .req] Q = true) {tt : State} {c0 : _} (eq_ : sealPage q l p s = some (c0, tt)) (hk : OnlyChanges Q s0 s) : OnlyChanges Q s0 tt := by
  unfold sealPage at eq_
  repeat' (first | split at eq_ | dsimp only at eq_)
  all_goals (first | (cases eq_; done) | (cases eq_) | skip)
  repeat' (first
    | with_reducible assumption
    | ((with_reducible refine .inr (subParts_mem hq ?_)); rfl)
    | with_reducible exact .inl rfl
    | with_reducible apply syncHeader_changes (hq := subParts_trans rfl hq)
    | with_reducible apply sealCode_changes (hq := subParts_trans rfl hq)
    | with_reducible apply meterT1_changes (hq := subParts_trans rfl hq)
    | with_reducible apply pageUpd_changes (hq := subParts_trans rfl hq)
    | (with_reducible apply sealThumb_changes_of (hq := subParts_trans rfl hq) (eq_ := by assumption))
    | (with_reducible apply sealCode_changes_of (hq := subParts_trans rfl hq) (eq_ := by assumption))
    | with_reducible refine changes_ite ?_ ?_
    | (with_reducible refine changesParts_of ?_ ?_ ?_ ?_ ?_ ?_ ?_ ?_ ?_ ?_ ?_ ?_ ?_ ?_ ?_ ?_ ?_ ?_ ?_ ?_)
    | simp only [changes_mk]
    | with_reducible intro _
    | split
    | dsimp only [id])

theorem compareSeal_changes {Q : List Block} {s0 : State} {q : ReqId} {l : Nat} {p : Nat} {s : State} (hq : subParts [.dev, .maint, .forme, .codec, .tier, .req, .pair, .rma, .links, .out] Q = true) (hk : OnlyChanges Q s0 s) :
    OnlyChanges Q s0 (compareSeal q l p s) := by
  unfold compareSeal
  repeat' (first
    | with_reducible assumption
    | ((with_reducible refine .inr (subParts_mem hq ?_)); rfl)
    | with_reducible exact .inl rfl
    | with_reducible apply noteErr_changes (hq := subParts_trans rfl hq)
    | with_reducible apply retireFrame_changes (hq := subParts_trans rfl hq)
    | with_reducible apply pageUpd_changes (hq := subParts_trans rfl hq)
    | with_reducible refine changes_ite ?_ ?_
    | (with_reducible refine changesParts_of ?_ ?_ ?_ ?_ ?_ ?_ ?_ ?_ ?_ ?_ ?_ ?_ ?_ ?_ ?_ ?_ ?_ ?_ ?_ ?_)
    | simp only [changes_mk]
    | with_reducible intro _
    | split
    | dsimp only [id])

theorem freeT3_changes {Q : List Block} {s0 : State} {q : ReqId} {s : State}  (hq : subParts [.tier] Q = true) (hk : OnlyChanges Q s0 s) :
    OnlyChanges Q s0 (freeT3 q s) := by
  unfold freeT3
  repeat' (first
    | with_reducible assumption
    | ((with_reducible refine .inr (subParts_mem hq ?_)); rfl)
    | with_reducible exact .inl rfl
    | with_reducible apply quotaUpd_changes (hq := subParts_trans rfl hq)
    | with_reducible refine changes_ite ?_ ?_
    | (with_reducible refine changesParts_of ?_ ?_ ?_ ?_ ?_ ?_ ?_ ?_ ?_ ?_ ?_ ?_ ?_ ?_ ?_ ?_ ?_ ?_ ?_ ?_)
    | simp only [changes_mk]
    | with_reducible intro _
    | split
    | dsimp only [id])

theorem freePages_changes {Q : List Block} {s0 : State} {q : ReqId} {sel : Nat → Bool} {s : State}  (hq : subParts [.codec, .tier, .req] Q = true) (hk : OnlyChanges Q s0 s) :
    OnlyChanges Q s0 (freePages q sel s) := by
  unfold freePages
  repeat' (first
    | with_reducible assumption
    | ((with_reducible refine .inr (subParts_mem hq ?_)); rfl)
    | with_reducible exact .inl rfl
    | with_reducible apply chargeHeld_changes (hq := subParts_trans rfl hq)
    | with_reducible apply galleyUpd_changes (hq := subParts_trans rfl hq)
    | with_reducible apply slotRef_changes (hq := subParts_trans rfl hq)
    | with_reducible apply recUpd_changes (hq := subParts_trans rfl hq)
    | with_reducible refine changes_ite ?_ ?_
    | (with_reducible refine changesParts_of ?_ ?_ ?_ ?_ ?_ ?_ ?_ ?_ ?_ ?_ ?_ ?_ ?_ ?_ ?_ ?_ ?_ ?_ ?_ ?_)
    | simp only [changes_mk]
    | with_reducible intro _
    | split
    | dsimp only [id])

theorem freeGalley_changes {Q : List Block} {s0 : State} {q : ReqId} {s : State}  (hq : subParts [.codec, .tier, .req] Q = true) (hk : OnlyChanges Q s0 s) :
    OnlyChanges Q s0 (freeGalley q s) := by
  unfold freeGalley
  repeat' (first
    | with_reducible assumption
    | ((with_reducible refine .inr (subParts_mem hq ?_)); rfl)
    | with_reducible exact .inl rfl
    | with_reducible apply quotaReturn_changes (hq := subParts_trans rfl hq)
    | with_reducible apply freePages_changes (hq := subParts_trans rfl hq)
    | with_reducible apply freeT3_changes (hq := subParts_trans rfl hq)
    | with_reducible refine changes_ite ?_ ?_
    | (with_reducible refine changesParts_of ?_ ?_ ?_ ?_ ?_ ?_ ?_ ?_ ?_ ?_ ?_ ?_ ?_ ?_ ?_ ?_ ?_ ?_ ?_ ?_)
    | simp only [changes_mk]
    | with_reducible intro _
    | split
    | dsimp only [id])

theorem expirePages_changes {Q : List Block} {s0 : State} {q : ReqId} {s : State}  (hq : subParts [.tier, .req] Q = true) (hk : OnlyChanges Q s0 s) :
    OnlyChanges Q s0 (expirePages q s) := by
  unfold expirePages
  repeat' (first
    | with_reducible assumption
    | ((with_reducible refine .inr (subParts_mem hq ?_)); rfl)
    | with_reducible exact .inl rfl
    | with_reducible apply galleyUpd_changes (hq := subParts_trans rfl hq)
    | with_reducible apply freeT3_changes (hq := subParts_trans rfl hq)
    | with_reducible refine changes_ite ?_ ?_
    | (with_reducible refine changesParts_of ?_ ?_ ?_ ?_ ?_ ?_ ?_ ?_ ?_ ?_ ?_ ?_ ?_ ?_ ?_ ?_ ?_ ?_ ?_ ?_)
    | simp only [changes_mk]
    | with_reducible intro _
    | split
    | dsimp only [id])

theorem resetGalley_changes {Q : List Block} {s0 : State} {q : ReqId} {s : State}  (hq : subParts [.codec, .tier, .req] Q = true) (hk : OnlyChanges Q s0 s) :
    OnlyChanges Q s0 (resetGalley q s) := by
  unfold resetGalley
  repeat' (first
    | with_reducible assumption
    | ((with_reducible refine .inr (subParts_mem hq ?_)); rfl)
    | with_reducible exact .inl rfl
    | with_reducible apply galleyUpd_changes (hq := subParts_trans rfl hq)
    | with_reducible apply freePages_changes (hq := subParts_trans rfl hq)
    | with_reducible apply freeT3_changes (hq := subParts_trans rfl hq)
    | with_reducible refine changes_ite ?_ ?_
    | (with_reducible refine changesParts_of ?_ ?_ ?_ ?_ ?_ ?_ ?_ ?_ ?_ ?_ ?_ ?_ ?_ ?_ ?_ ?_ ?_ ?_ ?_ ?_)
    | simp only [changes_mk]
    | with_reducible intro _
    | split
    | dsimp only [id])

end Sys2Proof.Machine
end

