-- ==== Sys2Proof/Laws/ChangesClusterOps.lean ====
section
/-!
SUPPORT. The blocks of the state that the operations of Sys2Proof/Machine/ClusterOps.lean may change.
-/

namespace Sys2Proof.Machine

theorem itemGone_changes {Q : List Block} {s0 : State} {n : Nat} {s : State}  (hq : subParts [.maint] Q = true) (hk : OnlyChanges Q s0 s) :
    OnlyChanges Q s0 (itemGone n s) := by
  unfold itemGone
  repeat' (first
    | with_reducible assumption
    | ((with_reducible refine .inr (subParts_mem hq ?_)); rfl)
    | with_reducible exact .inl rfl
    | with_reducible refine changes_ite ?_ ?_
    | (with_reducible refine changesParts_of ?_ ?_ ?_ ?_ ?_ ?_ ?_ ?_ ?_ ?_ ?_ ?_ ?_ ?_ ?_ ?_ ?_ ?_ ?_ ?_)
    | simp only [changes_mk]
    | with_reducible intro _
    | split
    | dsimp only [id])

theorem clusterCause_changes {Q : List Block} {s0 : State} {n : Nat} {cause : Nat} {s : State}  (hq : subParts [.dev, .clusters] Q = true) (hk : OnlyChanges Q s0 s) :
    OnlyChanges Q s0 (clusterCause n cause s) := by
  unfold clusterCause
  repeat' (first
    | with_reducible assumption
    | ((with_reducible refine .inr (subParts_mem hq ?_)); rfl)
    | with_reducible exact .inl rfl
    | with_reducible apply clusterUpd_changes (hq := subParts_trans rfl hq)
    | with_reducible apply noteErr_changes (hq := subParts_trans rfl hq)
    | with_reducible refine changes_ite ?_ ?_
    | (with_reducible refine changesParts_of ?_ ?_ ?_ ?_ ?_ ?_ ?_ ?_ ?_ ?_ ?_ ?_ ?_ ?_ ?_ ?_ ?_ ?_ ?_ ?_)
    | simp only [changes_mk]
    | with_reducible intro _
    | split
    | dsimp only [id])

theorem endItem_changes {Q : List Block} {s0 : State} {n : Nat} {c : Status} {cause : Nat} {retire : Bool} {s : State} (hq : subParts [.dev, .maint, .clusters, .req, .rma, .links, .out] Q = true) (hk : OnlyChanges Q s0 s) :
    OnlyChanges Q s0 (endItem n c cause retire s) := by
  unfold endItem
  repeat' (first
    | with_reducible assumption
    | ((with_reducible refine .inr (subParts_mem hq ?_)); rfl)
    | with_reducible exact .inl rfl
    | with_reducible apply foldl_changes
    | with_reducible apply foldl_changes_fst
    | with_reducible apply foldl_changes_snd
    | with_reducible apply clusterUpd_changes (hq := subParts_trans rfl hq)
    | with_reducible apply reportEnd_changes (hq := subParts_trans rfl hq)
    | with_reducible apply clusterCause_changes (hq := subParts_trans rfl hq)
    | with_reducible apply itemGone_changes (hq := subParts_trans rfl hq)
    | with_reducible refine changes_ite ?_ ?_
    | (with_reducible refine changesParts_of ?_ ?_ ?_ ?_ ?_ ?_ ?_ ?_ ?_ ?_ ?_ ?_ ?_ ?_ ?_ ?_ ?_ ?_ ?_ ?_)
    | simp only [changes_mk]
    | with_reducible intro _
    | split
    | dsimp only [id])

theorem channelUpd_changes {Q : List Block} {s0 : State} {n : Nat} {k : Nat} {f : Chan → Chan} {s : State}  (hq : subParts [.clusters] Q = true) (hk : OnlyChanges Q s0 s) :
    OnlyChanges Q s0 (channelUpd n k f s) := by
  unfold channelUpd
  repeat' (first
    | with_reducible assumption
    | ((with_reducible refine .inr (subParts_mem hq ?_)); rfl)
    | with_reducible exact .inl rfl
    | with_reducible apply clusterUpd_changes (hq := subParts_trans rfl hq)
    | with_reducible refine changes_ite ?_ ?_
    | (with_reducible refine changesParts_of ?_ ?_ ?_ ?_ ?_ ?_ ?_ ?_ ?_ ?_ ?_ ?_ ?_ ?_ ?_ ?_ ?_ ?_ ?_ ?_)
    | simp only [changes_mk]
    | with_reducible intro _
    | split
    | dsimp only [id])

theorem wakeWait_changes {Q : List Block} {s0 : State} {n : Nat} {s : State}  (hq : subParts [.dev, .maint, .clusters, .req, .rma, .links, .out] Q = true) (hk : OnlyChanges Q s0 s) :
    OnlyChanges Q s0 (wakeWait n s) := by
  unfold wakeWait
  repeat' (first
    | with_reducible assumption
    | ((with_reducible refine .inr (subParts_mem hq ?_)); rfl)
    | with_reducible exact .inl rfl
    | with_reducible apply clusterUpd_changes (hq := subParts_trans rfl hq)
    | with_reducible apply endItem_changes (hq := subParts_trans rfl hq)
    | with_reducible refine changes_ite ?_ ?_
    | (with_reducible refine changesParts_of ?_ ?_ ?_ ?_ ?_ ?_ ?_ ?_ ?_ ?_ ?_ ?_ ?_ ?_ ?_ ?_ ?_ ?_ ?_ ?_)
    | simp only [changes_mk]
    | with_reducible intro _
    | split
    | dsimp only [id])

theorem placeMsg_changes {Q : List Block} {s0 : State} {n : Nat} {ch : Nat} {m : List Byte} {s : State}  (hq : subParts [.dev, .maint, .clusters, .req, .rma, .links, .out] Q = true) (hk : OnlyChanges Q s0 s) :
    OnlyChanges Q s0 (placeMsg n ch m s) := by
  unfold placeMsg
  repeat' (first
    | with_reducible assumption
    | ((with_reducible refine .inr (subParts_mem hq ?_)); rfl)
    | with_reducible exact .inl rfl
    | with_reducible apply clusterUpd_changes (hq := subParts_trans rfl hq)
    | with_reducible apply channelUpd_changes (hq := subParts_trans rfl hq)
    | with_reducible apply wakeWait_changes (hq := subParts_trans rfl hq)
    | with_reducible refine changes_ite ?_ ?_
    | (with_reducible refine changesParts_of ?_ ?_ ?_ ?_ ?_ ?_ ?_ ?_ ?_ ?_ ?_ ?_ ?_ ?_ ?_ ?_ ?_ ?_ ?_ ?_)
    | simp only [changes_mk]
    | with_reducible intro _
    | split
    | dsimp only [id])

end Sys2Proof.Machine
end

