-- ==== Sys2Proof/Laws/ChangesBinding.lean ====
section
/-!
SUPPORT. The blocks of the state that the operations of Sys2Proof/Machine/Binding.lean may change.
-/

namespace Sys2Proof.Machine

theorem ctxUpd_changes {Q : List Block} {s0 : State} {c : Nat} {f : Ctx → Ctx} {s : State}  (hq : subParts [.sched] Q = true) (hk : OnlyChanges Q s0 s) :
    OnlyChanges Q s0 (ctxUpd c f s) := by
  unfold ctxUpd
  repeat' (first
    | with_reducible assumption
    | ((with_reducible refine .inr (subParts_mem hq ?_)); rfl)
    | with_reducible exact .inl rfl
    | with_reducible refine changes_ite ?_ ?_
    | (with_reducible refine changesParts_of ?_ ?_ ?_ ?_ ?_ ?_ ?_ ?_ ?_ ?_ ?_ ?_ ?_ ?_ ?_ ?_ ?_ ?_ ?_ ?_)
    | simp only [changes_mk]
    | with_reducible intro _
    | split
    | dsimp only [id])

theorem vtRefresh_changes {Q : List Block} {s0 : State} {begins : Bool} {s : State}  (hq : subParts [.sched] Q = true) (hk : OnlyChanges Q s0 s) :
    OnlyChanges Q s0 (vtRefresh begins s) := by
  unfold vtRefresh
  repeat' (first
    | with_reducible assumption
    | ((with_reducible refine .inr (subParts_mem hq ?_)); rfl)
    | with_reducible exact .inl rfl
    | with_reducible apply foldl_changes
    | with_reducible apply foldl_changes_fst
    | with_reducible apply foldl_changes_snd
    | with_reducible apply ctxUpd_changes (hq := subParts_trans rfl hq)
    | with_reducible refine changes_ite ?_ ?_
    | (with_reducible refine changesParts_of ?_ ?_ ?_ ?_ ?_ ?_ ?_ ?_ ?_ ?_ ?_ ?_ ?_ ?_ ?_ ?_ ?_ ?_ ?_ ?_)
    | simp only [changes_mk]
    | with_reducible intro _
    | split
    | dsimp only [id])

theorem chargeVt_changes {Q : List Block} {s0 : State} {c : Nat} {beats : Nat} {s : State}  (hq : subParts [.sched] Q = true) (hk : OnlyChanges Q s0 s) :
    OnlyChanges Q s0 (chargeVt c beats s) := by
  unfold chargeVt
  repeat' (first
    | with_reducible assumption
    | ((with_reducible refine .inr (subParts_mem hq ?_)); rfl)
    | with_reducible exact .inl rfl
    | with_reducible apply ctxUpd_changes (hq := subParts_trans rfl hq)
    | with_reducible refine changes_ite ?_ ?_
    | (with_reducible refine changesParts_of ?_ ?_ ?_ ?_ ?_ ?_ ?_ ?_ ?_ ?_ ?_ ?_ ?_ ?_ ?_ ?_ ?_ ?_ ?_ ?_)
    | simp only [changes_mk]
    | with_reducible intro _
    | split
    | dsimp only [id])

theorem armSchedule_changes {Q : List Block} {s0 : State} {s : State} (hq : subParts [.maint] Q = true) (hk : OnlyChanges Q s0 s) :
    OnlyChanges Q s0 (armSchedule s) := by
  unfold armSchedule
  repeat' (first
    | with_reducible assumption
    | ((with_reducible refine .inr (subParts_mem hq ?_)); rfl)
    | with_reducible exact .inl rfl
    | with_reducible refine changes_ite ?_ ?_
    | (with_reducible refine changesParts_of ?_ ?_ ?_ ?_ ?_ ?_ ?_ ?_ ?_ ?_ ?_ ?_ ?_ ?_ ?_ ?_ ?_ ?_ ?_ ?_)
    | simp only [changes_mk]
    | with_reducible intro _
    | split
    | dsimp only [id])

theorem claimFor_changes {Q : List Block} {s0 : State} {n : Nat} {s : State}  (hq : subParts [.maint] Q = true) (hk : OnlyChanges Q s0 s) :
    OnlyChanges Q s0 (claimFor n s) := by
  unfold claimFor
  repeat' (first
    | with_reducible assumption
    | ((with_reducible refine .inr (subParts_mem hq ?_)); rfl)
    | with_reducible exact .inl rfl
    | with_reducible apply armSchedule_changes (hq := subParts_trans rfl hq)
    | with_reducible refine changes_ite ?_ ?_
    | (with_reducible refine changesParts_of ?_ ?_ ?_ ?_ ?_ ?_ ?_ ?_ ?_ ?_ ?_ ?_ ?_ ?_ ?_ ?_ ?_ ?_ ?_ ?_)
    | simp only [changes_mk]
    | with_reducible intro _
    | split
    | dsimp only [id])

theorem takeItem_changes {Q : List Block} {s0 : State} {n : Nat} {s : State}  (hq : subParts [.clusters] Q = true) (hk : OnlyChanges Q s0 s) :
    OnlyChanges Q s0 (takeItem n s) := by
  unfold takeItem
  repeat' (first
    | with_reducible assumption
    | ((with_reducible refine .inr (subParts_mem hq ?_)); rfl)
    | with_reducible exact .inl rfl
    | with_reducible apply clusterUpd_changes (hq := subParts_trans rfl hq)
    | with_reducible refine changes_ite ?_ ?_
    | (with_reducible refine changesParts_of ?_ ?_ ?_ ?_ ?_ ?_ ?_ ?_ ?_ ?_ ?_ ?_ ?_ ?_ ?_ ?_ ?_ ?_ ?_ ?_)
    | simp only [changes_mk]
    | with_reducible intro _
    | split
    | dsimp only [id])

theorem pushItem_changes {Q : List Block} {s0 : State} {n : Nat} {i : WorkItem} {s : State} (hq : subParts [.clusters] Q = true) (hk : OnlyChanges Q s0 s) :
    OnlyChanges Q s0 (pushItem n i s) := by
  unfold pushItem
  repeat' (first
    | with_reducible assumption
    | ((with_reducible refine .inr (subParts_mem hq ?_)); rfl)
    | with_reducible exact .inl rfl
    | with_reducible apply foldl_changes
    | with_reducible apply foldl_changes_fst
    | with_reducible apply foldl_changes_snd
    | with_reducible apply clusterUpd_changes (hq := subParts_trans rfl hq)
    | with_reducible refine changes_ite ?_ ?_
    | (with_reducible refine changesParts_of ?_ ?_ ?_ ?_ ?_ ?_ ?_ ?_ ?_ ?_ ?_ ?_ ?_ ?_ ?_ ?_ ?_ ?_ ?_ ?_)
    | simp only [changes_mk]
    | with_reducible intro _
    | split
    | dsimp only [id])

theorem postWaiting_changes {Q : List Block} {s0 : State} {n : Nat} {s : State}  (hq : subParts [.maint, .clusters, .sched] Q = true) (hk : OnlyChanges Q s0 s) :
    OnlyChanges Q s0 (postWaiting n s) := by
  unfold postWaiting
  repeat' (first
    | with_reducible assumption
    | ((with_reducible refine .inr (subParts_mem hq ?_)); rfl)
    | with_reducible exact .inl rfl
    | with_reducible apply foldl_changes
    | with_reducible apply foldl_changes_fst
    | with_reducible apply foldl_changes_snd
    | with_reducible apply getD_changes
    | with_reducible apply claimFor_changes (hq := subParts_trans rfl hq)
    | with_reducible apply takeItem_changes (hq := subParts_trans rfl hq)
    | with_reducible apply pushItem_changes (hq := subParts_trans rfl hq)
    | with_reducible refine changes_ite ?_ ?_
    | (with_reducible refine changesParts_of ?_ ?_ ?_ ?_ ?_ ?_ ?_ ?_ ?_ ?_ ?_ ?_ ?_ ?_ ?_ ?_ ?_ ?_ ?_ ?_)
    | simp only [changes_mk]
    | with_reducible intro _
    | split
    | dsimp only [id])

theorem addOverrun_changes {Q : List Block} {s0 : State} {n : Nat} {c : Nat} {t : Nat} {s : State} (hq : subParts [.sched, .req] Q = true) (hk : OnlyChanges Q s0 s) :
    OnlyChanges Q s0 (addOverrun n c t s) := by
  unfold addOverrun
  repeat' (first
    | with_reducible assumption
    | ((with_reducible refine .inr (subParts_mem hq ?_)); rfl)
    | with_reducible exact .inl rfl
    | with_reducible apply foldl_changes
    | with_reducible apply foldl_changes_fst
    | with_reducible apply foldl_changes_snd
    | with_reducible apply recUpd_changes (hq := subParts_trans rfl hq)
    | with_reducible apply ctxUpd_changes (hq := subParts_trans rfl hq)
    | with_reducible refine changes_ite ?_ ?_
    | (with_reducible refine changesParts_of ?_ ?_ ?_ ?_ ?_ ?_ ?_ ?_ ?_ ?_ ?_ ?_ ?_ ?_ ?_ ?_ ?_ ?_ ?_ ?_)
    | simp only [changes_mk]
    | with_reducible intro _
    | split
    | dsimp only [id])

theorem saveStart_changes {Q : List Block} {s0 : State} {n : Nat} {c : Nat} {s : State} (hq : subParts [.clusters, .sched, .req] Q = true) (hk : OnlyChanges Q s0 s) :
    OnlyChanges Q s0 (saveStart n c s) := by
  unfold saveStart
  repeat' (first
    | with_reducible assumption
    | ((with_reducible refine .inr (subParts_mem hq ?_)); rfl)
    | with_reducible exact .inl rfl
    | with_reducible apply clusterUpd_changes (hq := subParts_trans rfl hq)
    | with_reducible apply addOverrun_changes (hq := subParts_trans rfl hq)
    | with_reducible apply ctxUpd_changes (hq := subParts_trans rfl hq)
    | with_reducible refine changes_ite ?_ ?_
    | (with_reducible refine changesParts_of ?_ ?_ ?_ ?_ ?_ ?_ ?_ ?_ ?_ ?_ ?_ ?_ ?_ ?_ ?_ ?_ ?_ ?_ ?_ ?_)
    | simp only [changes_mk]
    | with_reducible intro _
    | split
    | dsimp only [id])

theorem takeBack_changes {Q : List Block} {s0 : State} {n : Nat} {c : Nat} {x : Cluster} {s : State}  (hq : subParts [.sched] Q = true) (hk : OnlyChanges Q s0 s) :
    OnlyChanges Q s0 (takeBack n c x s) := by
  unfold takeBack
  repeat' (first
    | with_reducible assumption
    | ((with_reducible refine .inr (subParts_mem hq ?_)); rfl)
    | with_reducible exact .inl rfl
    | with_reducible refine changes_ite ?_ ?_
    | (with_reducible refine changesParts_of ?_ ?_ ?_ ?_ ?_ ?_ ?_ ?_ ?_ ?_ ?_ ?_ ?_ ?_ ?_ ?_ ?_ ?_ ?_ ?_)
    | simp only [changes_mk]
    | with_reducible intro _
    | split
    | dsimp only [id])

theorem restoreStart_changes {Q : List Block} {s0 : State} {n : Nat} {c : Nat} {s : State}  (hq : subParts [.clusters] Q = true) (hk : OnlyChanges Q s0 s) :
    OnlyChanges Q s0 (restoreStart n c s) := by
  unfold restoreStart
  repeat' (first
    | with_reducible assumption
    | ((with_reducible refine .inr (subParts_mem hq ?_)); rfl)
    | with_reducible exact .inl rfl
    | with_reducible apply clusterUpd_changes (hq := subParts_trans rfl hq)
    | with_reducible refine changes_ite ?_ ?_
    | (with_reducible refine changesParts_of ?_ ?_ ?_ ?_ ?_ ?_ ?_ ?_ ?_ ?_ ?_ ?_ ?_ ?_ ?_ ?_ ?_ ?_ ?_ ?_)
    | simp only [changes_mk]
    | with_reducible intro _
    | split
    | dsimp only [id])

theorem saveEnd_changes {Q : List Block} {s0 : State} {n : Nat} {c : Nat} {s : State}  (hq : subParts [.clusters, .sched] Q = true) (hk : OnlyChanges Q s0 s) :
    OnlyChanges Q s0 (saveEnd n c s) := by
  unfold saveEnd
  repeat' (first
    | with_reducible assumption
    | ((with_reducible refine .inr (subParts_mem hq ?_)); rfl)
    | with_reducible exact .inl rfl
    | with_reducible apply clusterUpd_changes (hq := subParts_trans rfl hq)
    | with_reducible apply takeBack_changes (hq := subParts_trans rfl hq)
    | with_reducible refine changes_ite ?_ ?_
    | (with_reducible refine changesParts_of ?_ ?_ ?_ ?_ ?_ ?_ ?_ ?_ ?_ ?_ ?_ ?_ ?_ ?_ ?_ ?_ ?_ ?_ ?_ ?_)
    | simp only [changes_mk]
    | with_reducible intro _
    | split
    | dsimp only [id])

theorem rebind_changes {Q : List Block} {s0 : State} {n : Nat} {reach : Bool} {s : State}  (hq : subParts [.clusters, .sched, .req] Q = true) (hk : OnlyChanges Q s0 s) :
    OnlyChanges Q s0 (rebind n reach s) := by
  unfold rebind
  repeat' (first
    | with_reducible assumption
    | ((with_reducible refine .inr (subParts_mem hq ?_)); rfl)
    | with_reducible exact .inl rfl
    | with_reducible apply restoreStart_changes (hq := subParts_trans rfl hq)
    | with_reducible apply saveStart_changes (hq := subParts_trans rfl hq)
    | with_reducible refine changes_ite ?_ ?_
    | (with_reducible refine changesParts_of ?_ ?_ ?_ ?_ ?_ ?_ ?_ ?_ ?_ ?_ ?_ ?_ ?_ ?_ ?_ ?_ ?_ ?_ ?_ ?_)
    | simp only [changes_mk]
    | with_reducible intro _
    | split
    | dsimp only [id])

theorem rebindAll_changes {Q : List Block} {s0 : State} {s : State}  (hq : subParts [.clusters, .sched, .req] Q = true) (hk : OnlyChanges Q s0 s) :
    OnlyChanges Q s0 (rebindAll s) := by
  unfold rebindAll
  repeat' (first
    | with_reducible assumption
    | ((with_reducible refine .inr (subParts_mem hq ?_)); rfl)
    | with_reducible exact .inl rfl
    | with_reducible apply foldl_changes
    | with_reducible apply foldl_changes_fst
    | with_reducible apply foldl_changes_snd
    | with_reducible apply rebind_changes (hq := subParts_trans rfl hq)
    | with_reducible refine changes_ite ?_ ?_
    | (with_reducible refine changesParts_of ?_ ?_ ?_ ?_ ?_ ?_ ?_ ?_ ?_ ?_ ?_ ?_ ?_ ?_ ?_ ?_ ?_ ?_ ?_ ?_)
    | simp only [changes_mk]
    | with_reducible intro _
    | split
    | dsimp only [id])

theorem placeRing_changes {Q : List Block} {s0 : State} {n : Nat} {c : Nat} {s : State}  (hq : subParts [.dev, .maint, .clusters, .sched, .req, .rma, .links, .out] Q = true) (hk : OnlyChanges Q s0 s) :
    OnlyChanges Q s0 (placeRing n c s) := by
  unfold placeRing
  repeat' (first
    | with_reducible assumption
    | ((with_reducible refine .inr (subParts_mem hq ?_)); rfl)
    | with_reducible exact .inl rfl
    | with_reducible apply foldl_changes
    | with_reducible apply foldl_changes_fst
    | with_reducible apply foldl_changes_snd
    | with_reducible apply getD_changes
    | with_reducible apply clusterUpd_changes (hq := subParts_trans rfl hq)
    | with_reducible apply placeMsg_changes (hq := subParts_trans rfl hq)
    | with_reducible refine changes_ite ?_ ?_
    | (with_reducible refine changesParts_of ?_ ?_ ?_ ?_ ?_ ?_ ?_ ?_ ?_ ?_ ?_ ?_ ?_ ?_ ?_ ?_ ?_ ?_ ?_ ?_)
    | simp only [changes_mk]
    | with_reducible intro _
    | split
    | dsimp only [id])

theorem waitTimeout_changes {Q : List Block} {s0 : State} {n : Nat} {s : State}  (hq : subParts [.clusters] Q = true) (hk : OnlyChanges Q s0 s) :
    OnlyChanges Q s0 (waitTimeout n s) := by
  unfold waitTimeout
  repeat' (first
    | with_reducible assumption
    | ((with_reducible refine .inr (subParts_mem hq ?_)); rfl)
    | with_reducible exact .inl rfl
    | with_reducible apply clusterUpd_changes (hq := subParts_trans rfl hq)
    | with_reducible refine changes_ite ?_ ?_
    | (with_reducible refine changesParts_of ?_ ?_ ?_ ?_ ?_ ?_ ?_ ?_ ?_ ?_ ?_ ?_ ?_ ?_ ?_ ?_ ?_ ?_ ?_ ?_)
    | simp only [changes_mk]
    | with_reducible intro _
    | split
    | dsimp only [id])

theorem restoreEnd_changes {Q : List Block} {s0 : State} {n : Nat} {c : Nat} {s : State} (hq : subParts [.dev, .maint, .clusters, .sched, .req, .rma, .links, .out] Q = true) (hk : OnlyChanges Q s0 s) :
    OnlyChanges Q s0 (restoreEnd n c s) := by
  unfold restoreEnd
  repeat' (first
    | with_reducible assumption
    | ((with_reducible refine .inr (subParts_mem hq ?_)); rfl)
    | with_reducible exact .inl rfl
    | with_reducible apply clusterUpd_changes (hq := subParts_trans rfl hq)
    | with_reducible apply wakeWait_changes (hq := subParts_trans rfl hq)
    | with_reducible apply waitTimeout_changes (hq := subParts_trans rfl hq)
    | with_reducible apply placeRing_changes (hq := subParts_trans rfl hq)
    | with_reducible apply rebind_changes (hq := subParts_trans rfl hq)
    | with_reducible apply postWaiting_changes (hq := subParts_trans rfl hq)
    | with_reducible apply takeItem_changes (hq := subParts_trans rfl hq)
    | with_reducible refine changes_ite ?_ ?_
    | (with_reducible refine changesParts_of ?_ ?_ ?_ ?_ ?_ ?_ ?_ ?_ ?_ ?_ ?_ ?_ ?_ ?_ ?_ ?_ ?_ ?_ ?_ ?_)
    | simp only [changes_mk]
    | with_reducible intro _
    | split
    | dsimp only [id])

theorem divertOrPlace_changes {Q : List Block} {s0 : State} {n : Nat} {ch : Nat} {m : List Byte} {s : State}  (hq : subParts [.dev, .maint, .clusters, .sched, .req, .rma, .links, .out] Q = true) (hk : OnlyChanges Q s0 s) :
    OnlyChanges Q s0 (divertOrPlace n ch m s) := by
  unfold divertOrPlace
  repeat' (first
    | with_reducible assumption
    | ((with_reducible refine .inr (subParts_mem hq ?_)); rfl)
    | with_reducible exact .inl rfl
    | with_reducible apply placeMsg_changes (hq := subParts_trans rfl hq)
    | with_reducible apply rebind_changes (hq := subParts_trans rfl hq)
    | with_reducible refine changes_ite ?_ ?_
    | (with_reducible refine changesParts_of ?_ ?_ ?_ ?_ ?_ ?_ ?_ ?_ ?_ ?_ ?_ ?_ ?_ ?_ ?_ ?_ ?_ ?_ ?_ ?_)
    | simp only [changes_mk]
    | with_reducible intro _
    | split
    | dsimp only [id])

theorem drainAhead_changes {Q : List Block} {s0 : State} {n : Nat} {ch : Nat} {fuel : Nat} {s : State} (hq : subParts [.dev, .maint, .clusters, .sched, .req, .rma, .links, .out] Q = true) (hk : OnlyChanges Q s0 s) : OnlyChanges Q s0 (drainAhead n ch fuel s) := by
  induction fuel generalizing s with
  | zero =>
    unfold drainAhead
    repeat' (first
      | with_reducible assumption
      | ((with_reducible refine .inr (subParts_mem hq ?_)); rfl)
      | with_reducible exact .inl rfl
      | with_reducible apply divertOrPlace_changes (hq := subParts_trans rfl hq)
      | with_reducible apply channelUpd_changes (hq := subParts_trans rfl hq)
      | with_reducible refine changes_ite ?_ ?_
      | (with_reducible refine changesParts_of ?_ ?_ ?_ ?_ ?_ ?_ ?_ ?_ ?_ ?_ ?_ ?_ ?_ ?_ ?_ ?_ ?_ ?_ ?_ ?_)
      | simp only [changes_mk]
      | with_reducible intro _
      | split
      | dsimp only [id])
  | succ _ ih =>
    unfold drainAhead
    repeat' (first
      | with_reducible assumption
      | ((with_reducible refine .inr (subParts_mem hq ?_)); rfl)
      | with_reducible exact .inl rfl
      | with_reducible apply divertOrPlace_changes (hq := subParts_trans rfl hq)
      | with_reducible apply channelUpd_changes (hq := subParts_trans rfl hq)
      | with_reducible refine changes_ite ?_ ?_
      | (with_reducible refine changesParts_of ?_ ?_ ?_ ?_ ?_ ?_ ?_ ?_ ?_ ?_ ?_ ?_ ?_ ?_ ?_ ?_ ?_ ?_ ?_ ?_)
      | simp only [changes_mk]
      | with_reducible apply ih
      | with_reducible intro _
      | split
      | dsimp only [id])

theorem chanDeliver_changes {Q : List Block} {s0 : State} {n : Nat} {ch : Nat} {at_ : Option Nat} {m : List Byte} {s : State}  (hq : subParts [.dev, .maint, .clusters, .sched, .req, .rma, .links, .out] Q = true) (hk : OnlyChanges Q s0 s) :
    OnlyChanges Q s0 (chanDeliver n ch at_ m s) := by
  unfold chanDeliver
  repeat' (first
    | with_reducible assumption
    | ((with_reducible refine .inr (subParts_mem hq ?_)); rfl)
    | with_reducible exact .inl rfl
    | with_reducible apply divertOrPlace_changes (hq := subParts_trans rfl hq)
    | with_reducible apply channelUpd_changes (hq := subParts_trans rfl hq)
    | with_reducible apply drainAhead_changes (hq := subParts_trans rfl hq)
    | with_reducible refine changes_ite ?_ ?_
    | (with_reducible refine changesParts_of ?_ ?_ ?_ ?_ ?_ ?_ ?_ ?_ ?_ ?_ ?_ ?_ ?_ ?_ ?_ ?_ ?_ ?_ ?_ ?_)
    | simp only [changes_mk]
    | with_reducible intro _
    | split
    | dsimp only [id])

theorem breakChannels_changes {Q : List Block} {s0 : State} {sel : ChanPeer → Bool} {c : Status} {s : State}  (hq : subParts [.dev, .maint, .clusters, .sched, .req, .rma, .links, .out] Q = true) (hk : OnlyChanges Q s0 s) :
    OnlyChanges Q s0 (breakChannels sel c s) := by
  unfold breakChannels
  repeat' (first
    | with_reducible assumption
    | ((with_reducible refine .inr (subParts_mem hq ?_)); rfl)
    | with_reducible exact .inl rfl
    | with_reducible apply foldl_changes
    | with_reducible apply foldl_changes_fst
    | with_reducible apply foldl_changes_snd
    | with_reducible apply clusterUpd_changes (hq := subParts_trans rfl hq)
    | with_reducible apply wakeWait_changes (hq := subParts_trans rfl hq)
    | with_reducible apply rebind_changes (hq := subParts_trans rfl hq)
    | with_reducible refine changes_ite ?_ ?_
    | (with_reducible refine changesParts_of ?_ ?_ ?_ ?_ ?_ ?_ ?_ ?_ ?_ ?_ ?_ ?_ ?_ ?_ ?_ ?_ ?_ ?_ ?_ ?_)
    | simp only [changes_mk]
    | with_reducible intro _
    | split
    | dsimp only [id])

theorem rearmChan_changes {Q : List Block} {s0 : State} {n : Nat} {ch : Nat} {s : State}  (hq : subParts [.clusters, .near] Q = true) (hk : OnlyChanges Q s0 s) :
    OnlyChanges Q s0 (rearmChan n ch s) := by
  unfold rearmChan
  repeat' (first
    | with_reducible assumption
    | ((with_reducible refine .inr (subParts_mem hq ?_)); rfl)
    | with_reducible exact .inl rfl
    | with_reducible apply channelUpd_changes (hq := subParts_trans rfl hq)
    | with_reducible refine changes_ite ?_ ?_
    | (with_reducible refine changesParts_of ?_ ?_ ?_ ?_ ?_ ?_ ?_ ?_ ?_ ?_ ?_ ?_ ?_ ?_ ?_ ?_ ?_ ?_ ?_ ?_)
    | simp only [changes_mk]
    | with_reducible intro _
    | split
    | dsimp only [id])

theorem creditBack_changes {Q : List Block} {s0 : State} {n : Nat} {ch : Nat} {count : Nat} {s : State}  (hq : subParts [.dev, .maint, .clusters, .sched, .req, .rma, .links, .out] Q = true) (hk : OnlyChanges Q s0 s) :
    OnlyChanges Q s0 (creditBack n ch count s) := by
  unfold creditBack
  repeat' (first
    | with_reducible assumption
    | ((with_reducible refine .inr (subParts_mem hq ?_)); rfl)
    | with_reducible exact .inl rfl
    | with_reducible apply channelUpd_changes (hq := subParts_trans rfl hq)
    | with_reducible apply wakeWait_changes (hq := subParts_trans rfl hq)
    | with_reducible apply rebind_changes (hq := subParts_trans rfl hq)
    | with_reducible refine changes_ite ?_ ?_
    | (with_reducible refine changesParts_of ?_ ?_ ?_ ?_ ?_ ?_ ?_ ?_ ?_ ?_ ?_ ?_ ?_ ?_ ?_ ?_ ?_ ?_ ?_ ?_)
    | simp only [changes_mk]
    | with_reducible intro _
    | split
    | dsimp only [id])

end Sys2Proof.Machine
end

