-- ==== Sys2Proof/Laws/ChangesHostOps.lean ====
section
/-!
SUPPORT. The blocks of the state that the operations of Sys2Proof/Machine/HostOps.lean may change.
-/

namespace Sys2Proof.Machine

theorem ringSignal_changes {Q : List Block} {s0 : State} {r : RingRef} {s : State}  (hq : subParts [.host, .out] Q = true) (hk : OnlyChanges Q s0 s) :
    OnlyChanges Q s0 (ringSignal r s) := by
  unfold ringSignal
  repeat' (first
    | with_reducible assumption
    | ((with_reducible refine .inr (subParts_mem hq ?_)); rfl)
    | with_reducible exact .inl rfl
    | with_reducible apply getD_changes
    | with_reducible apply ringUpd_changes (hq := subParts_trans rfl hq)
    | with_reducible apply msix_changes (hq := subParts_trans rfl hq)
    | with_reducible refine changes_ite ?_ ?_
    | (with_reducible refine changesParts_of ?_ ?_ ?_ ?_ ?_ ?_ ?_ ?_ ?_ ?_ ?_ ?_ ?_ ?_ ?_ ?_ ?_ ?_ ?_ ?_)
    | simp only [changes_mk]
    | with_reducible intro _
    | split
    | dsimp only [id])

theorem writeCq_changes {Q : List Block} {s0 : State} {r : RingRef} {e : CqEntry} {s : State}  (hq : subParts [.host, .out] Q = true) (hk : OnlyChanges Q s0 s) :
    OnlyChanges Q s0 (writeCq r e s) := by
  unfold writeCq
  repeat' (first
    | with_reducible assumption
    | ((with_reducible refine .inr (subParts_mem hq ?_)); rfl)
    | with_reducible exact .inl rfl
    | with_reducible apply ringSignal_changes (hq := subParts_trans rfl hq)
    | with_reducible apply ringUpd_changes (hq := subParts_trans rfl hq)
    | with_reducible apply emit_changes (hq := subParts_trans rfl hq)
    | with_reducible refine changes_ite ?_ ?_
    | (with_reducible refine changesParts_of ?_ ?_ ?_ ?_ ?_ ?_ ?_ ?_ ?_ ?_ ?_ ?_ ?_ ?_ ?_ ?_ ?_ ?_ ?_ ?_)
    | simp only [changes_mk]
    | with_reducible intro _
    | split
    | dsimp only [id])

theorem writeOut_changes_of {Q : List Block} {s0 : State} {r : RingRef} {o : OutRec} {s : State}  (hq : subParts [.host, .out] Q = true) {tt : State} (eq_ : writeOut r o s = some tt) (hk : OnlyChanges Q s0 s) : OnlyChanges Q s0 tt := by
  unfold writeOut at eq_
  repeat' (first | split at eq_ | dsimp only at eq_)
  all_goals (first | (obtain ⟨⟨_, _⟩, eq_, rfl⟩ := Option.map_eq_some_iff.1 eq_) | (cases eq_; done) | (cases eq_) | skip)
  repeat' (first
    | with_reducible assumption
    | ((with_reducible refine .inr (subParts_mem hq ?_)); rfl)
    | with_reducible exact .inl rfl
    | with_reducible apply ringSignal_changes (hq := subParts_trans rfl hq)
    | with_reducible apply ringUpd_changes (hq := subParts_trans rfl hq)
    | with_reducible apply emit_changes (hq := subParts_trans rfl hq)
    | with_reducible refine changes_ite ?_ ?_
    | (with_reducible refine changesParts_of ?_ ?_ ?_ ?_ ?_ ?_ ?_ ?_ ?_ ?_ ?_ ?_ ?_ ?_ ?_ ?_ ?_ ?_ ?_ ?_)
    | simp only [changes_mk]
    | with_reducible intro _
    | split
    | dsimp only [id])

theorem postNow_changes_of {Q : List Block} {s0 : State} {r : RingRef} {i : HeldItem} {s : State}  (hq : subParts [.host, .out] Q = true) {tt : State} (eq_ : postNow r i s = some tt) (hk : OnlyChanges Q s0 s) : OnlyChanges Q s0 tt := by
  unfold postNow at eq_
  repeat' (first | split at eq_ | dsimp only at eq_)
  all_goals (first | (obtain ⟨⟨_, _⟩, eq_, rfl⟩ := Option.map_eq_some_iff.1 eq_) | (cases eq_; done) | (cases eq_) | skip)
  repeat' (first
    | with_reducible assumption
    | ((with_reducible refine .inr (subParts_mem hq ?_)); rfl)
    | with_reducible exact .inl rfl
    | with_reducible apply writeCq_changes (hq := subParts_trans rfl hq)
    | (with_reducible apply writeOut_changes_of (hq := subParts_trans rfl hq) (eq_ := by assumption))
    | with_reducible refine changes_ite ?_ ?_
    | (with_reducible refine changesParts_of ?_ ?_ ?_ ?_ ?_ ?_ ?_ ?_ ?_ ?_ ?_ ?_ ?_ ?_ ?_ ?_ ?_ ?_ ?_ ?_)
    | simp only [changes_mk]
    | with_reducible intro _
    | split
    | dsimp only [id])

theorem post_changes {Q : List Block} {s0 : State} {r : RingRef} {i : HeldItem} {s : State}  (hq : subParts [.host, .out] Q = true) (hk : OnlyChanges Q s0 s) :
    OnlyChanges Q s0 (post r i s) := by
  unfold post
  repeat' (first
    | with_reducible assumption
    | ((with_reducible refine .inr (subParts_mem hq ?_)); rfl)
    | with_reducible exact .inl rfl
    | with_reducible apply ringUpd_changes (hq := subParts_trans rfl hq)
    | (with_reducible apply postNow_changes_of (hq := subParts_trans rfl hq) (eq_ := by assumption))
    | with_reducible refine changes_ite ?_ ?_
    | (with_reducible refine changesParts_of ?_ ?_ ?_ ?_ ?_ ?_ ?_ ?_ ?_ ?_ ?_ ?_ ?_ ?_ ?_ ?_ ?_ ?_ ?_ ?_)
    | simp only [changes_mk]
    | with_reducible intro _
    | split
    | dsimp only [id])

theorem postHeld_changes {Q : List Block} {s0 : State} {r : RingRef} {items : List HeldItem} {s : State} (hq : subParts [.host, .out] Q = true) (hk : OnlyChanges Q s0 s) : OnlyChanges Q s0 (postHeld r items s) := by
  induction items generalizing s with
  | nil =>
    unfold postHeld
    repeat' (first
      | with_reducible assumption
      | ((with_reducible refine .inr (subParts_mem hq ?_)); rfl)
      | with_reducible exact .inl rfl
      | with_reducible apply ringUpd_changes (hq := subParts_trans rfl hq)
      | (with_reducible apply postNow_changes_of (hq := subParts_trans rfl hq) (eq_ := by assumption))
      | with_reducible refine changes_ite ?_ ?_
      | (with_reducible refine changesParts_of ?_ ?_ ?_ ?_ ?_ ?_ ?_ ?_ ?_ ?_ ?_ ?_ ?_ ?_ ?_ ?_ ?_ ?_ ?_ ?_)
      | simp only [changes_mk]
      | with_reducible intro _
      | split
      | dsimp only [id])
  | cons _ _ ih =>
    unfold postHeld
    repeat' (first
      | with_reducible assumption
      | ((with_reducible refine .inr (subParts_mem hq ?_)); rfl)
      | with_reducible exact .inl rfl
      | with_reducible apply ringUpd_changes (hq := subParts_trans rfl hq)
      | (with_reducible apply postNow_changes_of (hq := subParts_trans rfl hq) (eq_ := by assumption))
      | with_reducible refine changes_ite ?_ ?_
      | (with_reducible refine changesParts_of ?_ ?_ ?_ ?_ ?_ ?_ ?_ ?_ ?_ ?_ ?_ ?_ ?_ ?_ ?_ ?_ ?_ ?_ ?_ ?_)
      | simp only [changes_mk]
      | with_reducible apply ih
      | with_reducible intro _
      | split
      | dsimp only [id])

theorem releaseHeld_changes {Q : List Block} {s0 : State} {r : RingRef} {s : State}  (hq : subParts [.host, .out] Q = true) (hk : OnlyChanges Q s0 s) :
    OnlyChanges Q s0 (releaseHeld r s) := by
  unfold releaseHeld
  repeat' (first
    | with_reducible assumption
    | ((with_reducible refine .inr (subParts_mem hq ?_)); rfl)
    | with_reducible exact .inl rfl
    | with_reducible apply postHeld_changes (hq := subParts_trans rfl hq)
    | with_reducible refine changes_ite ?_ ?_
    | (with_reducible refine changesParts_of ?_ ?_ ?_ ?_ ?_ ?_ ?_ ?_ ?_ ?_ ?_ ?_ ?_ ?_ ?_ ?_ ?_ ?_ ?_ ?_)
    | simp only [changes_mk]
    | with_reducible intro _
    | split
    | dsimp only [id])

theorem postCq_changes {Q : List Block} {s0 : State} {r : RingRef} {tag : DWord} {req : ReqId} {kind : Byte} {c : Status} {commit : Nat} {s : State}  (hq : subParts [.host, .out] Q = true) (hk : OnlyChanges Q s0 s) :
    OnlyChanges Q s0 (postCq r tag req kind c commit s) := by
  unfold postCq
  repeat' (first
    | with_reducible assumption
    | ((with_reducible refine .inr (subParts_mem hq ?_)); rfl)
    | with_reducible exact .inl rfl
    | with_reducible apply post_changes (hq := subParts_trans rfl hq)
    | with_reducible refine changes_ite ?_ ?_
    | (with_reducible refine changesParts_of ?_ ?_ ?_ ?_ ?_ ?_ ?_ ?_ ?_ ?_ ?_ ?_ ?_ ?_ ?_ ?_ ?_ ?_ ?_ ?_)
    | simp only [changes_mk]
    | with_reducible intro _
    | split
    | dsimp only [id])

theorem postOut_changes {Q : List Block} {s0 : State} {r : RingRef} {session : Word} {kind : Byte} {len : Nat} {req : ReqId} {p : OutPayload} {s : State}  (hq : subParts [.sec, .host, .out] Q = true) (hk : OnlyChanges Q s0 s) :
    OnlyChanges Q s0 (postOut r session kind len req p s) := by
  unfold postOut
  repeat' (first
    | with_reducible assumption
    | ((with_reducible refine .inr (subParts_mem hq ?_)); rfl)
    | with_reducible exact .inl rfl
    | with_reducible apply post_changes (hq := subParts_trans rfl hq)
    | with_reducible refine changes_ite ?_ ?_
    | (with_reducible refine changesParts_of ?_ ?_ ?_ ?_ ?_ ?_ ?_ ?_ ?_ ?_ ?_ ?_ ?_ ?_ ?_ ?_ ?_ ?_ ?_ ?_)
    | simp only [changes_mk]
    | with_reducible intro _
    | split
    | dsimp only [id])

theorem takeEntry_changes {Q : List Block} {s0 : State} {r : RingRef} {s : State}  (hq : subParts [.host] Q = true) (hk : OnlyChanges Q s0 s) :
    OnlyChanges Q s0 (takeEntry r s) := by
  unfold takeEntry
  repeat' (first
    | with_reducible assumption
    | ((with_reducible refine .inr (subParts_mem hq ?_)); rfl)
    | with_reducible exact .inl rfl
    | with_reducible apply ringUpd_changes (hq := subParts_trans rfl hq)
    | with_reducible refine changes_ite ?_ ?_
    | (with_reducible refine changesParts_of ?_ ?_ ?_ ?_ ?_ ?_ ?_ ?_ ?_ ?_ ?_ ?_ ?_ ?_ ?_ ?_ ?_ ?_ ?_ ?_)
    | simp only [changes_mk]
    | with_reducible intro _
    | split
    | dsimp only [id])

theorem ringError_changes {Q : List Block} {s0 : State} {r : RingRef} {cause : Byte} {s : State}  (hq : subParts [.dev, .host] Q = true) (hk : OnlyChanges Q s0 s) :
    OnlyChanges Q s0 (ringError r cause s) := by
  unfold ringError
  repeat' (first
    | with_reducible assumption
    | ((with_reducible refine .inr (subParts_mem hq ?_)); rfl)
    | with_reducible exact .inl rfl
    | with_reducible apply noteErr_changes (hq := subParts_trans rfl hq)
    | with_reducible apply ringUpd_changes (hq := subParts_trans rfl hq)
    | with_reducible refine changes_ite ?_ ?_
    | (with_reducible refine changesParts_of ?_ ?_ ?_ ?_ ?_ ?_ ?_ ?_ ?_ ?_ ?_ ?_ ?_ ?_ ?_ ?_ ?_ ?_ ?_ ?_)
    | simp only [changes_mk]
    | with_reducible intro _
    | split
    | dsimp only [id])

theorem ringFails_changes {Q : List Block} {s0 : State} {r : RingRef} {s : State}  (hq : subParts [.dev, .host, .free] Q = true) (hk : OnlyChanges Q s0 s) :
    OnlyChanges Q s0 (ringFails r s) := by
  unfold ringFails
  repeat' (first
    | with_reducible assumption
    | ((with_reducible refine .inr (subParts_mem hq ?_)); rfl)
    | with_reducible exact .inl rfl
    | with_reducible apply ringError_changes (hq := subParts_trans rfl hq)
    | with_reducible apply bumpFree_changes (hq := subParts_trans rfl hq)
    | with_reducible refine changes_ite ?_ ?_
    | (with_reducible refine changesParts_of ?_ ?_ ?_ ?_ ?_ ?_ ?_ ?_ ?_ ?_ ?_ ?_ ?_ ?_ ?_ ?_ ?_ ?_ ?_ ?_)
    | simp only [changes_mk]
    | with_reducible intro _
    | split
    | dsimp only [id])

theorem entryDone_changes {Q : List Block} {s0 : State} {r : RingRef} {s : State}  (hq : subParts [.host] Q = true) (hk : OnlyChanges Q s0 s) :
    OnlyChanges Q s0 (entryDone r s) := by
  unfold entryDone
  repeat' (first
    | with_reducible assumption
    | ((with_reducible refine .inr (subParts_mem hq ?_)); rfl)
    | with_reducible exact .inl rfl
    | with_reducible apply ringUpd_changes (hq := subParts_trans rfl hq)
    | with_reducible apply fnUpd_changes (hq := subParts_trans rfl hq)
    | with_reducible refine changes_ite ?_ ?_
    | (with_reducible refine changesParts_of ?_ ?_ ?_ ?_ ?_ ?_ ?_ ?_ ?_ ?_ ?_ ?_ ?_ ?_ ?_ ?_ ?_ ?_ ?_ ?_)
    | simp only [changes_mk]
    | with_reducible intro _
    | split
    | dsimp only [id])

theorem faultPost_changes {Q : List Block} {s0 : State} {fuel : Nat} {fn : FnId} {s : State} (hq : subParts [.host, .rma, .out] Q = true) (hk : OnlyChanges Q s0 s) :
    OnlyChanges Q s0 (faultPost fuel fn s) := by
  induction fuel generalizing s with
  | zero =>
    unfold faultPost
    repeat' (first
      | with_reducible assumption
      | ((with_reducible refine .inr (subParts_mem hq ?_)); rfl)
      | with_reducible exact .inl rfl
      | with_reducible apply fnUpd_changes (hq := subParts_trans rfl hq)
      | with_reducible apply msix_changes (hq := subParts_trans rfl hq)
      | with_reducible apply emit_changes (hq := subParts_trans rfl hq)
      | with_reducible refine changes_ite ?_ ?_
      | (with_reducible refine changesParts_of ?_ ?_ ?_ ?_ ?_ ?_ ?_ ?_ ?_ ?_ ?_ ?_ ?_ ?_ ?_ ?_ ?_ ?_ ?_ ?_)
      | simp only [changes_mk]
      | with_reducible intro _
      | split
      | dsimp only [id])
  | succ _ ih =>
    unfold faultPost
    repeat' (first
      | with_reducible assumption
      | ((with_reducible refine .inr (subParts_mem hq ?_)); rfl)
      | with_reducible exact .inl rfl
      | with_reducible apply fnUpd_changes (hq := subParts_trans rfl hq)
      | with_reducible apply msix_changes (hq := subParts_trans rfl hq)
      | with_reducible apply emit_changes (hq := subParts_trans rfl hq)
      | with_reducible refine changes_ite ?_ ?_
      | (with_reducible refine changesParts_of ?_ ?_ ?_ ?_ ?_ ?_ ?_ ?_ ?_ ?_ ?_ ?_ ?_ ?_ ?_ ?_ ?_ ?_ ?_ ?_)
      | simp only [changes_mk]
      | with_reducible apply ih
      | with_reducible intro _
      | split
      | dsimp only [id])

theorem faultRecord_changes {Q : List Block} {s0 : State} {fn : FnId} {r : FaultRec} {s : State}  (hq : subParts [.host, .rma, .out] Q = true) (hk : OnlyChanges Q s0 s) :
    OnlyChanges Q s0 (faultRecord fn r s) := by
  unfold faultRecord
  repeat' (first
    | with_reducible assumption
    | ((with_reducible refine .inr (subParts_mem hq ?_)); rfl)
    | with_reducible exact .inl rfl
    | with_reducible apply faultPost_changes (hq := subParts_trans rfl hq)
    | with_reducible apply fnUpd_changes (hq := subParts_trans rfl hq)
    | with_reducible refine changes_ite ?_ ?_
    | (with_reducible refine changesParts_of ?_ ?_ ?_ ?_ ?_ ?_ ?_ ?_ ?_ ?_ ?_ ?_ ?_ ?_ ?_ ?_ ?_ ?_ ?_ ?_)
    | simp only [changes_mk]
    | with_reducible intro _
    | split
    | dsimp only [id])

end Sys2Proof.Machine
end

