-- ==== Sys2Proof/Laws/ChangesColophon.lean ====
section
/-!
SUPPORT. The blocks of the state that the operations of Sys2Proof/Machine/Colophon.lean may change.
-/

namespace Sys2Proof.Machine

theorem stageEntry_changes {Q : List Block} {s0 : State} {r : Rec} {s : State} (hq : subParts [.free] Q = true) (hk : OnlyChanges Q s0 s) :
    OnlyChanges Q s0 (stageEntry r s).2 := by
  unfold stageEntry
  repeat' (first
    | with_reducible assumption
    | ((with_reducible refine .inr (subParts_mem hq ?_)); rfl)
    | with_reducible exact .inl rfl
    | with_reducible refine changes_ite ?_ ?_
    | (with_reducible refine changesParts_of ?_ ?_ ?_ ?_ ?_ ?_ ?_ ?_ ?_ ?_ ?_ ?_ ?_ ?_ ?_ ?_ ?_ ?_ ?_ ?_)
    | simp only [changes_mk]
    | with_reducible intro _
    | split
    | dsimp only [id])

theorem stageEntry_changes_of {Q : List Block} {s0 : State} {r : Rec} {s : State} {tt : State} {c0 : _} (eq_ : stageEntry r s = (c0, tt)) (hq : subParts [.free] Q = true) (hk : OnlyChanges Q s0 s) : OnlyChanges Q s0 tt := by
  have := stageEntry_changes (Q := Q) (s0 := s0) (r := r) (s := s) hq hk
  rw [eq_] at this; exact this

theorem stageReport_changes {Q : List Block} {s0 : State} {r : Rec} {c : Status} {s : State}  (hq : subParts [.free] Q = true) (hk : OnlyChanges Q s0 s) :
    OnlyChanges Q s0 (stageReport r c s).2 := by
  unfold stageReport
  repeat' (first
    | with_reducible assumption
    | ((with_reducible refine .inr (subParts_mem hq ?_)); rfl)
    | with_reducible exact .inl rfl
    | with_reducible apply stageEntry_changes (hq := subParts_trans rfl hq)
    | (with_reducible apply stageEntry_changes_of (hq := subParts_trans rfl hq) (eq_ := by assumption))
    | with_reducible refine changes_ite ?_ ?_
    | (with_reducible refine changesParts_of ?_ ?_ ?_ ?_ ?_ ?_ ?_ ?_ ?_ ?_ ?_ ?_ ?_ ?_ ?_ ?_ ?_ ?_ ?_ ?_)
    | simp only [changes_mk]
    | with_reducible intro _
    | split
    | dsimp only [id])

theorem stageReport_changes_of {Q : List Block} {s0 : State} {r : Rec} {c : Status} {s : State}  (hq : subParts [.free] Q = true) {tt : State} {c0 : _} (eq_ : stageReport r c s = (c0, tt)) (hk : OnlyChanges Q s0 s) : OnlyChanges Q s0 tt := by
  have := stageReport_changes (Q := Q) (s0 := s0) (r := r) (c := c) (s := s)  hq hk
  rw [eq_] at this; exact this

theorem postColophon_changes {Q : List Block} {s0 : State} {q : ReqId} {partial_ : Bool} {c : Status} {s : State} (hq : subParts [.dev, .sec, .host, .repro, .out] Q = true) (hk : OnlyChanges Q s0 s) :
    OnlyChanges Q s0 (postColophon q partial_ c s) := by
  unfold postColophon
  repeat' (first
    | with_reducible assumption
    | ((with_reducible refine .inr (subParts_mem hq ?_)); rfl)
    | with_reducible exact .inl rfl
    | with_reducible apply noteErr_changes (hq := subParts_trans rfl hq)
    | with_reducible apply postOut_changes (hq := subParts_trans rfl hq)
    | with_reducible refine changes_ite ?_ ?_
    | (with_reducible refine changesParts_of ?_ ?_ ?_ ?_ ?_ ?_ ?_ ?_ ?_ ?_ ?_ ?_ ?_ ?_ ?_ ?_ ?_ ?_ ?_ ?_)
    | simp only [changes_mk]
    | with_reducible intro _
    | split
    | dsimp only [id])

end Sys2Proof.Machine
end

