-- ==== Sys2Proof/Laws/ChangesMemory.lean ====
section
/-!
SUPPORT. The blocks of the state that the operations of Sys2Proof/Machine/Memory.lean may change.
-/

namespace Sys2Proof.Machine

theorem sliceStore_changes {Q : List Block} {s0 : State} {r : Nat} {off : Nat} {bs : List Byte} {s : State} (hq : subParts [.tier] Q = true) (hk : OnlyChanges Q s0 s) :
    OnlyChanges Q s0 (sliceStore r off bs s) := by
  unfold sliceStore
  repeat' (first
    | with_reducible assumption
    | ((with_reducible refine .inr (subParts_mem hq ?_)); rfl)
    | with_reducible exact .inl rfl
    | with_reducible refine changes_ite ?_ ?_
    | (with_reducible refine changesParts_of ?_ ?_ ?_ ?_ ?_ ?_ ?_ ?_ ?_ ?_ ?_ ?_ ?_ ?_ ?_ ?_ ?_ ?_ ?_ ?_)
    | simp only [changes_mk]
    | with_reducible intro _
    | split
    | dsimp only [id])

theorem countCached_changes {Q : List Block} {s0 : State} {gs : List Nat} {s : State}  (hq : subParts [.tier, .free] Q = true) (hk : OnlyChanges Q s0 s) :
    OnlyChanges Q s0 (countCached gs s) := by
  unfold countCached
  repeat' (first
    | with_reducible assumption
    | ((with_reducible refine .inr (subParts_mem hq ?_)); rfl)
    | with_reducible exact .inl rfl
    | with_reducible apply foldl_changes
    | with_reducible apply foldl_changes_fst
    | with_reducible apply foldl_changes_snd
    | with_reducible apply bumpFree_changes (hq := subParts_trans rfl hq)
    | with_reducible apply lpcUpd_changes (hq := subParts_trans rfl hq)
    | with_reducible refine changes_ite ?_ ?_
    | (with_reducible refine changesParts_of ?_ ?_ ?_ ?_ ?_ ?_ ?_ ?_ ?_ ?_ ?_ ?_ ?_ ?_ ?_ ?_ ?_ ?_ ?_ ?_)
    | simp only [changes_mk]
    | with_reducible intro _
    | split
    | dsimp only [id])

theorem partLoad_changes {Q : List Block} {s0 : State} {p : Nat} {off : Nat} {n : Nat} {s : State} (hq : subParts [.tier, .free] Q = true) (hk : OnlyChanges Q s0 s) :
    OnlyChanges Q s0 (partLoad p off n s).2 := by
  unfold partLoad
  repeat' (first
    | with_reducible assumption
    | ((with_reducible refine .inr (subParts_mem hq ?_)); rfl)
    | with_reducible exact .inl rfl
    | with_reducible apply countGranules_changes (hq := subParts_trans rfl hq)
    | with_reducible apply countCached_changes (hq := subParts_trans rfl hq)
    | with_reducible refine changes_ite ?_ ?_
    | (with_reducible refine changesParts_of ?_ ?_ ?_ ?_ ?_ ?_ ?_ ?_ ?_ ?_ ?_ ?_ ?_ ?_ ?_ ?_ ?_ ?_ ?_ ?_)
    | simp only [changes_mk]
    | with_reducible intro _
    | split
    | dsimp only [id])

theorem partLoad_changes_of {Q : List Block} {s0 : State} {p : Nat} {off : Nat} {n : Nat} {s : State} {tt : State} {c0 : _} (eq_ : partLoad p off n s = (c0, tt)) (hq : subParts [.tier, .free] Q = true) (hk : OnlyChanges Q s0 s) : OnlyChanges Q s0 tt := by
  have := partLoad_changes (Q := Q) (s0 := s0) (p := p) (off := off) (n := n) (s := s) hq hk
  rw [eq_] at this; exact this

theorem partStore_changes {Q : List Block} {s0 : State} {p : Nat} {off : Nat} {bs : List Byte} {s : State} (hq : subParts [.tier] Q = true) (hk : OnlyChanges Q s0 s) :
    OnlyChanges Q s0 (partStore p off bs s) := by
  unfold partStore
  repeat' (first
    | with_reducible assumption
    | ((with_reducible refine .inr (subParts_mem hq ?_)); rfl)
    | with_reducible exact .inl rfl
    | with_reducible apply t1Write_changes (hq := subParts_trans rfl hq)
    | with_reducible refine changes_ite ?_ ?_
    | (with_reducible refine changesParts_of ?_ ?_ ?_ ?_ ?_ ?_ ?_ ?_ ?_ ?_ ?_ ?_ ?_ ?_ ?_ ?_ ?_ ?_ ?_ ?_)
    | simp only [changes_mk]
    | with_reducible intro _
    | split
    | dsimp only [id])

theorem writeBack_changes {Q : List Block} {s0 : State} {rs : List Nat} {s : State} (hq : subParts [.tier] Q = true) (hk : OnlyChanges Q s0 s) :
    OnlyChanges Q s0 (writeBack rs s) := by
  unfold writeBack
  repeat' (first
    | with_reducible assumption
    | ((with_reducible refine .inr (subParts_mem hq ?_)); rfl)
    | with_reducible exact .inl rfl
    | with_reducible apply foldl_changes
    | with_reducible apply foldl_changes_fst
    | with_reducible apply foldl_changes_snd
    | with_reducible apply granuleWrite_changes (hq := subParts_trans rfl hq)
    | with_reducible refine changes_ite ?_ ?_
    | (with_reducible refine changesParts_of ?_ ?_ ?_ ?_ ?_ ?_ ?_ ?_ ?_ ?_ ?_ ?_ ?_ ?_ ?_ ?_ ?_ ?_ ?_ ?_)
    | simp only [changes_mk]
    | with_reducible intro _
    | split
    | dsimp only [id])

theorem markLost_changes {Q : List Block} {s0 : State} {g : Nat} {s : State} (hq : subParts [.tier] Q = true) (hk : OnlyChanges Q s0 s) :
    OnlyChanges Q s0 (markLost g s) := by
  unfold markLost
  repeat' (first
    | with_reducible assumption
    | ((with_reducible refine .inr (subParts_mem hq ?_)); rfl)
    | with_reducible exact .inl rfl
    | with_reducible refine changes_ite ?_ ?_
    | (with_reducible refine changesParts_of ?_ ?_ ?_ ?_ ?_ ?_ ?_ ?_ ?_ ?_ ?_ ?_ ?_ ?_ ?_ ?_ ?_ ?_ ?_ ?_)
    | simp only [changes_mk]
    | with_reducible intro _
    | split
    | dsimp only [id])

theorem granuleLost_changes {Q : List Block} {s0 : State} {mac : Bool} {addr : Nat} {s : State} (hq : subParts [.dev, .maint, .forme, .codec, .tier, .req, .pair, .rma, .links, .out] Q = true) (hk : OnlyChanges Q s0 s) :
    OnlyChanges Q s0 (granuleLost mac addr s) := by
  unfold granuleLost
  repeat' (first
    | with_reducible assumption
    | ((with_reducible refine .inr (subParts_mem hq ?_)); rfl)
    | with_reducible exact .inl rfl
    | with_reducible apply markLost_changes (hq := subParts_trans rfl hq)
    | with_reducible apply granuleFail_changes (hq := subParts_trans rfl hq)
    | with_reducible apply retireFrame_changes (hq := subParts_trans rfl hq)
    | with_reducible refine changes_ite ?_ ?_
    | (with_reducible refine changesParts_of ?_ ?_ ?_ ?_ ?_ ?_ ?_ ?_ ?_ ?_ ?_ ?_ ?_ ?_ ?_ ?_ ?_ ?_ ?_ ?_)
    | simp only [changes_mk]
    | with_reducible intro _
    | split
    | dsimp only [id])

theorem sliceLineFail_changes {Q : List Block} {s0 : State} {r : Nat} {off : Nat} {s : State} (hq : subParts [.dev, .maint, .forme, .codec, .tier, .req, .pair, .rma, .links, .out] Q = true) (hk : OnlyChanges Q s0 s) :
    OnlyChanges Q s0 (sliceLineFail r off s).2 := by
  unfold sliceLineFail
  repeat' (first
    | with_reducible assumption
    | ((with_reducible refine .inr (subParts_mem hq ?_)); rfl)
    | with_reducible exact .inl rfl
    | with_reducible apply markLost_changes (hq := subParts_trans rfl hq)
    | with_reducible apply retireFrame_changes (hq := subParts_trans rfl hq)
    | with_reducible apply plateLost_changes (hq := subParts_trans rfl hq)
    | with_reducible apply addRepair_changes (hq := subParts_trans rfl hq)
    | with_reducible refine changes_ite ?_ ?_
    | (with_reducible refine changesParts_of ?_ ?_ ?_ ?_ ?_ ?_ ?_ ?_ ?_ ?_ ?_ ?_ ?_ ?_ ?_ ?_ ?_ ?_ ?_ ?_)
    | simp only [changes_mk]
    | with_reducible intro _
    | split
    | dsimp only [id])

theorem sliceLineFail_changes_of {Q : List Block} {s0 : State} {r : Nat} {off : Nat} {s : State} {tt : State} {c0 : _} (eq_ : sliceLineFail r off s = (c0, tt)) (hq : subParts [.dev, .maint, .forme, .codec, .tier, .req, .pair, .rma, .links, .out] Q = true) (hk : OnlyChanges Q s0 s) : OnlyChanges Q s0 tt := by
  have := sliceLineFail_changes (Q := Q) (s0 := s0) (r := r) (off := off) (s := s) hq hk
  rw [eq_] at this; exact this

theorem slugLost_changes {Q : List Block} {s0 : State} {crc : Bool} {pl : Place} {s : State} (hq : subParts [.dev, .maint, .forme, .codec, .tier, .req, .pair, .rma, .links, .out] Q = true) (hk : OnlyChanges Q s0 s) :
    OnlyChanges Q s0 (slugLost crc pl s) := by
  unfold slugLost
  repeat' (first
    | with_reducible assumption
    | ((with_reducible refine .inr (subParts_mem hq ?_)); rfl)
    | with_reducible exact .inl rfl
    | with_reducible apply slugFailure_changes (hq := subParts_trans rfl hq)
    | with_reducible apply retireFrame_changes (hq := subParts_trans rfl hq)
    | with_reducible apply plateLost_changes (hq := subParts_trans rfl hq)
    | with_reducible refine changes_ite ?_ ?_
    | (with_reducible refine changesParts_of ?_ ?_ ?_ ?_ ?_ ?_ ?_ ?_ ?_ ?_ ?_ ?_ ?_ ?_ ?_ ?_ ?_ ?_ ?_ ?_)
    | simp only [changes_mk]
    | with_reducible intro _
    | split
    | dsimp only [id])

theorem readOutcome_changes {Q : List Block} {s0 : State} {o : ReadOutcome} {s : State} (hq : subParts [.dev, .maint, .forme, .codec, .tier, .req, .pair, .rma, .links, .out] Q = true) (hk : OnlyChanges Q s0 s) :
    OnlyChanges Q s0 (readOutcome o s).2 := by
  unfold readOutcome
  repeat' (first
    | with_reducible assumption
    | ((with_reducible refine .inr (subParts_mem hq ?_)); rfl)
    | with_reducible exact .inl rfl
    | with_reducible apply lpcUpd_changes (hq := subParts_trans rfl hq)
    | with_reducible apply slugLost_changes (hq := subParts_trans rfl hq)
    | with_reducible apply sliceLineFail_changes (hq := subParts_trans rfl hq)
    | with_reducible apply granuleLost_changes (hq := subParts_trans rfl hq)
    | (with_reducible apply sliceLineFail_changes_of (hq := subParts_trans rfl hq) (eq_ := by assumption))
    | with_reducible refine changes_ite ?_ ?_
    | (with_reducible refine changesParts_of ?_ ?_ ?_ ?_ ?_ ?_ ?_ ?_ ?_ ?_ ?_ ?_ ?_ ?_ ?_ ?_ ?_ ?_ ?_ ?_)
    | simp only [changes_mk]
    | with_reducible intro _
    | split
    | dsimp only [id])

theorem readOutcome_changes_of {Q : List Block} {s0 : State} {o : ReadOutcome} {s : State} {tt : State} {c0 : _} (eq_ : readOutcome o s = (c0, tt)) (hq : subParts [.dev, .maint, .forme, .codec, .tier, .req, .pair, .rma, .links, .out] Q = true) (hk : OnlyChanges Q s0 s) : OnlyChanges Q s0 tt := by
  have := readOutcome_changes (Q := Q) (s0 := s0) (o := o) (s := s) hq hk
  rw [eq_] at this; exact this

end Sys2Proof.Machine
end

