-- ==== Sys2Proof/Laws/ChangesProtect.lean ====
section
/-!
SUPPORT. The blocks of the state that the operations of Sys2Proof/Machine/Protect.lean may change.
-/

namespace Sys2Proof.Machine

theorem shelfWrite_changes {Q : List Block} {s0 : State} {g : Galley} {l : Nat} {page : Nat} {n : Nat} {content : List Byte} {s : State} (hq : subParts [.out] Q = true) (hk : OnlyChanges Q s0 s) :
    OnlyChanges Q s0 (shelfWrite g l page n content s) := by
  unfold shelfWrite
  repeat' (first
    | with_reducible assumption
    | ((with_reducible refine .inr (subParts_mem hq ?_)); rfl)
    | with_reducible exact .inl rfl
    | with_reducible apply emit_changes (hq := subParts_trans rfl hq)
    | with_reducible refine changes_ite ?_ ?_
    | (with_reducible refine changesParts_of ?_ ?_ ?_ ?_ ?_ ?_ ?_ ?_ ?_ ?_ ?_ ?_ ?_ ?_ ?_ ?_ ?_ ?_ ?_ ?_)
    | simp only [changes_mk]
    | with_reducible intro _
    | split
    | dsimp only [id])

end Sys2Proof.Machine
end

