-- ==== Sys2Proof/Laws/ChangesMover.lean ====
section
/-!
SUPPORT. The blocks of the state that the operations of Sys2Proof/Machine/Mover.lean may change.
-/

namespace Sys2Proof.Machine

theorem traySrcUpd_changes {Q : List Block} {s0 : State} {d : Nat} {f : TraySrc → TraySrc} {s : State}  (hq : subParts [.near] Q = true) (hk : OnlyChanges Q s0 s) :
    OnlyChanges Q s0 (traySrcUpd d f s) := by
  unfold traySrcUpd
  repeat' (first
    | with_reducible assumption
    | ((with_reducible refine .inr (subParts_mem hq ?_)); rfl)
    | with_reducible exact .inl rfl
    | with_reducible refine changes_ite ?_ ?_
    | (with_reducible refine changesParts_of ?_ ?_ ?_ ?_ ?_ ?_ ?_ ?_ ?_ ?_ ?_ ?_ ?_ ?_ ?_ ?_ ?_ ?_ ?_ ?_)
    | simp only [changes_mk]
    | with_reducible intro _
    | split
    | dsimp only [id])

theorem homeFinish_changes {Q : List Block} {s0 : State} {h : TrayHdr} {c : Status} {payload : List Byte} {s : State}  (hq : subParts [.near, .links] Q = true) (hk : OnlyChanges Q s0 s) :
    OnlyChanges Q s0 (homeFinish h c payload s) := by
  unfold homeFinish
  repeat' (first
    | with_reducible assumption
    | ((with_reducible refine .inr (subParts_mem hq ?_)); rfl)
    | with_reducible exact .inl rfl
    | with_reducible apply trayAnswer_changes (hq := subParts_trans rfl hq)
    | with_reducible apply traySrcUpd_changes (hq := subParts_trans rfl hq)
    | with_reducible refine changes_ite ?_ ?_
    | (with_reducible refine changesParts_of ?_ ?_ ?_ ?_ ?_ ?_ ?_ ?_ ?_ ?_ ?_ ?_ ?_ ?_ ?_ ?_ ?_ ?_ ?_ ?_)
    | simp only [changes_mk]
    | with_reducible intro _
    | split
    | dsimp only [id])

theorem stageDropped_changes {Q : List Block} {s0 : State} {q : ReqId} {s : State} (hq : subParts [.req, .near, .rma, .links, .free, .out] Q = true) (hk : OnlyChanges Q s0 s) :
    OnlyChanges Q s0 (stageDropped q s) := by
  unfold stageDropped
  repeat' (first
    | with_reducible assumption
    | ((with_reducible refine .inr (subParts_mem hq ?_)); rfl)
    | with_reducible exact .inl rfl
    | with_reducible apply foldl_changes
    | with_reducible apply foldl_changes_fst
    | with_reducible apply foldl_changes_snd
    | with_reducible apply getD_changes
    | with_reducible apply recRetire_changes (hq := subParts_trans rfl hq)
    | with_reducible apply recUpd_changes (hq := subParts_trans rfl hq)
    | with_reducible apply sendFw_changes (hq := subParts_trans rfl hq)
    | with_reducible apply trayIssue_changes (hq := subParts_trans rfl hq)
    | with_reducible apply stageReport_changes (hq := subParts_trans rfl hq)
    | (with_reducible apply stageReport_changes_of (hq := subParts_trans rfl hq) (eq_ := by assumption))
    | with_reducible refine changes_ite ?_ ?_
    | (with_reducible refine changesParts_of ?_ ?_ ?_ ?_ ?_ ?_ ?_ ?_ ?_ ?_ ?_ ?_ ?_ ?_ ?_ ?_ ?_ ?_ ?_ ?_)
    | simp only [changes_mk]
    | with_reducible intro _
    | split
    | dsimp only [id])

theorem handedOver_changes {Q : List Block} {s0 : State} {q : ReqId} {dest : DevId} {m : StageResume} {s : State} (hq : subParts [.req, .near, .rma, .links, .out] Q = true) (hk : OnlyChanges Q s0 s) :
    OnlyChanges Q s0 (handedOver q dest m s) := by
  unfold handedOver
  repeat' (first
    | with_reducible assumption
    | ((with_reducible refine .inr (subParts_mem hq ?_)); rfl)
    | with_reducible exact .inl rfl
    | with_reducible apply recUpd_changes (hq := subParts_trans rfl hq)
    | with_reducible apply sendFw_changes (hq := subParts_trans rfl hq)
    | with_reducible apply trayIssue_changes (hq := subParts_trans rfl hq)
    | with_reducible refine changes_ite ?_ ?_
    | (with_reducible refine changesParts_of ?_ ?_ ?_ ?_ ?_ ?_ ?_ ?_ ?_ ?_ ?_ ?_ ?_ ?_ ?_ ?_ ?_ ?_ ?_ ?_)
    | simp only [changes_mk]
    | with_reducible intro _
    | split
    | dsimp only [id])

theorem runThen_changes {Q : List Block} {s0 : State} {t : MirrorThen} {s : State} (hq : subParts [.req, .near, .rma, .links, .free, .out] Q = true) (hk : OnlyChanges Q s0 s) :
    OnlyChanges Q s0 (runThen t s) := by
  unfold runThen
  repeat' (first
    | with_reducible assumption
    | ((with_reducible refine .inr (subParts_mem hq ?_)); rfl)
    | with_reducible exact .inl rfl
    | with_reducible apply recUpd_changes (hq := subParts_trans rfl hq)
    | with_reducible apply handedOver_changes (hq := subParts_trans rfl hq)
    | with_reducible apply stageDropped_changes (hq := subParts_trans rfl hq)
    | with_reducible apply homeFinish_changes (hq := subParts_trans rfl hq)
    | with_reducible refine changes_ite ?_ ?_
    | (with_reducible refine changesParts_of ?_ ?_ ?_ ?_ ?_ ?_ ?_ ?_ ?_ ?_ ?_ ?_ ?_ ?_ ?_ ?_ ?_ ?_ ?_ ?_)
    | simp only [changes_mk]
    | with_reducible intro _
    | split
    | dsimp only [id])

theorem journal_changes {Q : List Block} {s0 : State} {j : List JournalItem} {s : State}  (hq : subParts [.pair] Q = true) (hk : OnlyChanges Q s0 s) :
    OnlyChanges Q s0 (journal j s) := by
  unfold journal
  repeat' (first
    | with_reducible assumption
    | ((with_reducible refine .inr (subParts_mem hq ?_)); rfl)
    | with_reducible exact .inl rfl
    | with_reducible refine changes_ite ?_ ?_
    | (with_reducible refine changesParts_of ?_ ?_ ?_ ?_ ?_ ?_ ?_ ?_ ?_ ?_ ?_ ?_ ?_ ?_ ?_ ?_ ?_ ?_ ?_ ?_)
    | simp only [changes_mk]
    | with_reducible intro _
    | split
    | dsimp only [id])

theorem mirrorSend_changes {Q : List Block} {s0 : State} {g : Galley} {rs : List TrayReq} {t : MirrorThen} {s : State} (hq : subParts [.req, .pair, .near, .rma, .links, .free, .out] Q = true) (hk : OnlyChanges Q s0 s) :
    OnlyChanges Q s0 (mirrorSend g rs t s) := by
  unfold mirrorSend
  repeat' (first
    | with_reducible assumption
    | ((with_reducible refine .inr (subParts_mem hq ?_)); rfl)
    | with_reducible exact .inl rfl
    | with_reducible apply foldl_changes
    | with_reducible apply foldl_changes_fst
    | with_reducible apply foldl_changes_snd
    | with_reducible apply journal_changes (hq := subParts_trans rfl hq)
    | with_reducible apply runThen_changes (hq := subParts_trans rfl hq)
    | with_reducible apply trayIssue_changes (hq := subParts_trans rfl hq)
    | with_reducible refine changes_ite ?_ ?_
    | (with_reducible refine changesParts_of ?_ ?_ ?_ ?_ ?_ ?_ ?_ ?_ ?_ ?_ ?_ ?_ ?_ ?_ ?_ ?_ ?_ ?_ ?_ ?_)
    | simp only [changes_mk]
    | with_reducible intro _
    | split
    | dsimp only [id])

theorem mirrorAck_changes {Q : List Block} {s0 : State} {id : Nat} {s : State}  (hq : subParts [.req, .pair, .near, .rma, .links, .free, .out] Q = true) (hk : OnlyChanges Q s0 s) :
    OnlyChanges Q s0 (mirrorAck id s) := by
  unfold mirrorAck
  repeat' (first
    | with_reducible assumption
    | ((with_reducible refine .inr (subParts_mem hq ?_)); rfl)
    | with_reducible exact .inl rfl
    | with_reducible apply runThen_changes (hq := subParts_trans rfl hq)
    | with_reducible refine changes_ite ?_ ?_
    | (with_reducible refine changesParts_of ?_ ?_ ?_ ?_ ?_ ?_ ?_ ?_ ?_ ?_ ?_ ?_ ?_ ?_ ?_ ?_ ?_ ?_ ?_ ?_)
    | simp only [changes_mk]
    | with_reducible intro _
    | split
    | dsimp only [id])

theorem mirrorsAlone_changes {Q : List Block} {s0 : State} {s : State}  (hq : subParts [.req, .pair, .near, .rma, .links, .free, .out] Q = true) (hk : OnlyChanges Q s0 s) :
    OnlyChanges Q s0 (mirrorsAlone s) := by
  unfold mirrorsAlone
  repeat' (first
    | with_reducible assumption
    | ((with_reducible refine .inr (subParts_mem hq ?_)); rfl)
    | with_reducible exact .inl rfl
    | with_reducible apply foldl_changes
    | with_reducible apply foldl_changes_fst
    | with_reducible apply foldl_changes_snd
    | with_reducible apply runThen_changes (hq := subParts_trans rfl hq)
    | with_reducible refine changes_ite ?_ ?_
    | (with_reducible refine changesParts_of ?_ ?_ ?_ ?_ ?_ ?_ ?_ ?_ ?_ ?_ ?_ ?_ ?_ ?_ ?_ ?_ ?_ ?_ ?_ ?_)
    | simp only [changes_mk]
    | with_reducible intro _
    | split
    | dsimp only [id])

theorem resetLayer_changes {Q : List Block} {s0 : State} {q : ReqId} {l : Nat} {s : State} (hq : subParts [.codec, .tier, .req] Q = true) (hk : OnlyChanges Q s0 s) :
    OnlyChanges Q s0 (resetLayer q l s) := by
  unfold resetLayer
  repeat' (first
    | with_reducible assumption
    | ((with_reducible refine .inr (subParts_mem hq ?_)); rfl)
    | with_reducible exact .inl rfl
    | with_reducible apply foldl_changes
    | with_reducible apply foldl_changes_fst
    | with_reducible apply foldl_changes_snd
    | with_reducible apply galleyUpd_changes (hq := subParts_trans rfl hq)
    | with_reducible apply freeT3_changes (hq := subParts_trans rfl hq)
    | with_reducible apply emptyPage_changes (hq := subParts_trans rfl hq)
    | with_reducible refine changes_ite ?_ ?_
    | (with_reducible refine changesParts_of ?_ ?_ ?_ ?_ ?_ ?_ ?_ ?_ ?_ ?_ ?_ ?_ ?_ ?_ ?_ ?_ ?_ ?_ ?_ ?_)
    | simp only [changes_mk]
    | with_reducible intro _
    | split
    | dsimp only [id])

theorem entryShelved_changes {Q : List Block} {s0 : State} {q : ReqId} {k : Nat} {l : Nat} {p : Nat} {w : Nat} {s : State} (hq : subParts [.codec, .tier, .req] Q = true) (hk : OnlyChanges Q s0 s) :
    OnlyChanges Q s0 (entryShelved q k l p w s) := by
  unfold entryShelved
  repeat' (first
    | with_reducible assumption
    | ((with_reducible refine .inr (subParts_mem hq ?_)); rfl)
    | with_reducible exact .inl rfl
    | with_reducible apply emptyPage_changes (hq := subParts_trans rfl hq)
    | with_reducible apply pageUpd_changes (hq := subParts_trans rfl hq)
    | with_reducible refine changes_ite ?_ ?_
    | (with_reducible refine changesParts_of ?_ ?_ ?_ ?_ ?_ ?_ ?_ ?_ ?_ ?_ ?_ ?_ ?_ ?_ ?_ ?_ ?_ ?_ ?_ ?_)
    | simp only [changes_mk]
    | with_reducible intro _
    | split
    | dsimp only [id])

theorem restorePage_changes_of {Q : List Block} {s0 : State} {q : ReqId} {k : Nat} {l : Nat} {p : Nat} {sealed : Bool} {w : BitVec 64} {tags : Tab Word} {bytes : List Byte} {s : State} {tt : State} (eq_ : restorePage q k l p sealed w tags bytes s = some tt) (hq : subParts [.codec, .tier, .sched, .req] Q = true) (hk : OnlyChanges Q s0 s) : OnlyChanges Q s0 tt := by
  unfold restorePage at eq_
  repeat' (first | split at eq_ | dsimp only at eq_)
  all_goals (first | (obtain ⟨⟨_, _⟩, eq_, rfl⟩ := Option.map_eq_some_iff.1 eq_) | (cases eq_; done) | (cases eq_) | skip)
  repeat' (first
    | with_reducible assumption
    | ((with_reducible refine .inr (subParts_mem hq ?_)); rfl)
    | with_reducible exact .inl rfl
    | with_reducible apply meterT1_changes (hq := subParts_trans rfl hq)
    | with_reducible apply t1Write_changes (hq := subParts_trans rfl hq)
    | with_reducible apply syncHeader_changes (hq := subParts_trans rfl hq)
    | with_reducible apply pageUpd_changes (hq := subParts_trans rfl hq)
    | (with_reducible apply sealPage_changes_of (hq := subParts_trans rfl hq) (eq_ := by assumption))
    | (with_reducible apply openPage_changes_of (hq := subParts_trans rfl hq) (eq_ := by assumption))
    | with_reducible refine changes_ite ?_ ?_
    | (with_reducible refine changesParts_of ?_ ?_ ?_ ?_ ?_ ?_ ?_ ?_ ?_ ?_ ?_ ?_ ?_ ?_ ?_ ?_ ?_ ?_ ?_ ?_)
    | simp only [changes_mk]
    | with_reducible intro _
    | split
    | dsimp only [id])

theorem shelfExpiry_changes {Q : List Block} {s0 : State} {q : ReqId} {e : Nat} {s : State} (hq : subParts [.codec, .tier, .sched, .req] Q = true) (hk : OnlyChanges Q s0 s) :
    OnlyChanges Q s0 (shelfExpiry q e s) := by
  unfold shelfExpiry
  repeat' (first
    | with_reducible assumption
    | ((with_reducible refine .inr (subParts_mem hq ?_)); rfl)
    | with_reducible exact .inl rfl
    | with_reducible apply foldl_changes
    | with_reducible apply foldl_changes_fst
    | with_reducible apply foldl_changes_snd
    | with_reducible apply getD_changes
    | with_reducible apply galleyUpd_changes (hq := subParts_trans rfl hq)
    | with_reducible apply recUpd_changes (hq := subParts_trans rfl hq)
    | with_reducible apply freeT3_changes (hq := subParts_trans rfl hq)
    | (with_reducible apply restorePage_changes_of (hq := subParts_trans rfl hq) (eq_ := by assumption))
    | with_reducible refine changes_ite ?_ ?_
    | (with_reducible refine changesParts_of ?_ ?_ ?_ ?_ ?_ ?_ ?_ ?_ ?_ ?_ ?_ ?_ ?_ ?_ ?_ ?_ ?_ ?_ ?_ ?_)
    | simp only [changes_mk]
    | with_reducible intro _
    | split
    | dsimp only [id])

theorem mapWord_changes {Q : List Block} {s0 : State} {image : Bool} {q : ReqId} {off : Nat} {w : Nat} {s : State} (hq : subParts [.codec, .tier, .sched, .req] Q = true) (hk : OnlyChanges Q s0 s) :
    OnlyChanges Q s0 (mapWord image q off w s) := by
  unfold mapWord
  repeat' (first
    | with_reducible assumption
    | ((with_reducible refine .inr (subParts_mem hq ?_)); rfl)
    | with_reducible exact .inl rfl
    | with_reducible apply galleyUpd_changes (hq := subParts_trans rfl hq)
    | with_reducible apply shelfExpiry_changes (hq := subParts_trans rfl hq)
    | with_reducible apply entryShelved_changes (hq := subParts_trans rfl hq)
    | with_reducible apply resetLayer_changes (hq := subParts_trans rfl hq)
    | with_reducible apply syncOpen_changes (hq := subParts_trans rfl hq)
    | with_reducible refine changes_ite ?_ ?_
    | (with_reducible refine changesParts_of ?_ ?_ ?_ ?_ ?_ ?_ ?_ ?_ ?_ ?_ ?_ ?_ ?_ ?_ ?_ ?_ ?_ ?_ ?_ ?_)
    | simp only [changes_mk]
    | with_reducible intro _
    | split
    | dsimp only [id])

theorem mapWriteBytes_changes {Q : List Block} {s0 : State} {q : ReqId} {off : Nat} {bs : List Byte} {s : State} (hq : subParts [.codec, .tier, .sched, .req] Q = true) (hk : OnlyChanges Q s0 s) :
    OnlyChanges Q s0 (mapWriteBytes q off bs s) := by
  unfold mapWriteBytes
  repeat' (first
    | with_reducible assumption
    | ((with_reducible refine .inr (subParts_mem hq ?_)); rfl)
    | with_reducible exact .inl rfl
    | with_reducible apply foldl_changes
    | with_reducible apply foldl_changes_fst
    | with_reducible apply foldl_changes_snd
    | with_reducible apply galleyUpd_changes (hq := subParts_trans rfl hq)
    | with_reducible apply mapWord_changes (hq := subParts_trans rfl hq)
    | with_reducible refine changes_ite ?_ ?_
    | (with_reducible refine changesParts_of ?_ ?_ ?_ ?_ ?_ ?_ ?_ ?_ ?_ ?_ ?_ ?_ ?_ ?_ ?_ ?_ ?_ ?_ ?_ ?_)
    | simp only [changes_mk]
    | with_reducible intro _
    | split
    | dsimp only [id])

theorem spansRead_changes {Q : List Block} {s0 : State} {spans : List (Nat × Nat)} {reads : ReadOutcome} {s : State} (hq : subParts [.dev, .maint, .forme, .codec, .tier, .req, .pair, .rma, .links, .out] Q = true) (hk : OnlyChanges Q s0 s) :
    OnlyChanges Q s0 (spansRead spans reads s).2 := by
  unfold spansRead
  repeat' (first
    | with_reducible assumption
    | ((with_reducible refine .inr (subParts_mem hq ?_)); rfl)
    | with_reducible exact .inl rfl
    | with_reducible apply foldl_changes
    | with_reducible apply foldl_changes_fst
    | with_reducible apply foldl_changes_snd
    | with_reducible apply countGranules_changes (hq := subParts_trans rfl hq)
    | with_reducible apply readOutcome_changes (hq := subParts_trans rfl hq)
    | (with_reducible apply readOutcome_changes_of (hq := subParts_trans rfl hq) (eq_ := by assumption))
    | with_reducible refine changes_ite ?_ ?_
    | (with_reducible refine changesParts_of ?_ ?_ ?_ ?_ ?_ ?_ ?_ ?_ ?_ ?_ ?_ ?_ ?_ ?_ ?_ ?_ ?_ ?_ ?_ ?_)
    | simp only [changes_mk]
    | with_reducible intro _
    | split
    | dsimp only [id])

theorem spansRead_changes_of {Q : List Block} {s0 : State} {spans : List (Nat × Nat)} {reads : ReadOutcome} {s : State} {tt : State} {c0 : _} (eq_ : spansRead spans reads s = (c0, tt)) (hq : subParts [.dev, .maint, .forme, .codec, .tier, .req, .pair, .rma, .links, .out] Q = true) (hk : OnlyChanges Q s0 s) : OnlyChanges Q s0 tt := by
  have := spansRead_changes (Q := Q) (s0 := s0) (spans := spans) (reads := reads) (s := s) hq hk
  rw [eq_] at this; exact this

theorem toWritten_changes {Q : List Block} {s0 : State} {q : ReqId} {l : Nat} {pos : Nat} {s : State} (hq : subParts [.tier, .req] Q = true) (hk : OnlyChanges Q s0 s) :
    OnlyChanges Q s0 (toWritten q l pos s) := by
  unfold toWritten
  repeat' (first
    | with_reducible assumption
    | ((with_reducible refine .inr (subParts_mem hq ?_)); rfl)
    | with_reducible exact .inl rfl
    | with_reducible apply syncHeader_changes (hq := subParts_trans rfl hq)
    | with_reducible apply pageUpd_changes (hq := subParts_trans rfl hq)
    | with_reducible refine changes_ite ?_ ?_
    | (with_reducible refine changesParts_of ?_ ?_ ?_ ?_ ?_ ?_ ?_ ?_ ?_ ?_ ?_ ?_ ?_ ?_ ?_ ?_ ?_ ?_ ?_ ?_)
    | simp only [changes_mk]
    | with_reducible intro _
    | split
    | dsimp only [id])

theorem commitAt_changes {Q : List Block} {s0 : State} {h : TrayHdr} {q : ReqId} {n : Nat} {step : Word} {u : RecordUpdate} {reads : ReadOutcome} {s : State} (hq : subParts [.dev, .maint, .forme, .codec, .tier, .req, .pair, .near, .rma, .links, .free, .out] Q = true) (hk : OnlyChanges Q s0 s) :
    OnlyChanges Q s0 (commitAt h q n step u reads s) := by
  unfold commitAt
  repeat' (first
    | with_reducible assumption
    | ((with_reducible refine .inr (subParts_mem hq ?_)); rfl)
    | with_reducible exact .inl rfl
    | with_reducible apply foldl_changes
    | with_reducible apply foldl_changes_fst
    | with_reducible apply foldl_changes_snd
    | with_reducible apply galleyUpd_changes (hq := subParts_trans rfl hq)
    | with_reducible apply recUpd_changes (hq := subParts_trans rfl hq)
    | with_reducible apply toWritten_changes (hq := subParts_trans rfl hq)
    | with_reducible apply spansRead_changes (hq := subParts_trans rfl hq)
    | with_reducible apply mirrorSend_changes (hq := subParts_trans rfl hq)
    | with_reducible apply homeFinish_changes (hq := subParts_trans rfl hq)
    | with_reducible apply syncOpen_changes (hq := subParts_trans rfl hq)
    | (with_reducible apply spansRead_changes_of (hq := subParts_trans rfl hq) (eq_ := by assumption))
    | with_reducible refine changes_ite ?_ ?_
    | (with_reducible refine changesParts_of ?_ ?_ ?_ ?_ ?_ ?_ ?_ ?_ ?_ ?_ ?_ ?_ ?_ ?_ ?_ ?_ ?_ ?_ ?_ ?_)
    | simp only [changes_mk]
    | with_reducible intro _
    | split
    | dsimp only [id])

theorem appendAt_changes {Q : List Block} {s0 : State} {sender : DevId} {a : AppendHdr} {row : List Byte} {reads : ReadOutcome} {s : State} (hq : subParts [.dev, .maint, .forme, .codec, .tier, .sched, .req, .pair, .rma, .links, .out] Q = true) (hk : OnlyChanges Q s0 s) :
    OnlyChanges Q s0 (appendAt sender a row reads s).2 := by
  unfold appendAt
  repeat' (first
    | with_reducible assumption
    | ((with_reducible refine .inr (subParts_mem hq ?_)); rfl)
    | with_reducible exact .inl rfl
    | with_reducible apply readOutcome_changes (hq := subParts_trans rfl hq)
    | with_reducible apply appendRow_changes (hq := subParts_trans rfl hq)
    | (with_reducible apply readOutcome_changes_of (hq := subParts_trans rfl hq) (eq_ := by assumption))
    | (with_reducible apply appendRow_changes_of (hq := subParts_trans rfl hq) (eq_ := by assumption))
    | with_reducible refine changes_ite ?_ ?_
    | (with_reducible refine changesParts_of ?_ ?_ ?_ ?_ ?_ ?_ ?_ ?_ ?_ ?_ ?_ ?_ ?_ ?_ ?_ ?_ ?_ ?_ ?_ ?_)
    | simp only [changes_mk]
    | with_reducible intro _
    | split
    | dsimp only [id])

theorem appendAt_changes_of {Q : List Block} {s0 : State} {sender : DevId} {a : AppendHdr} {row : List Byte} {reads : ReadOutcome} {s : State} {tt : State} {c0 : _} (eq_ : appendAt sender a row reads s = (c0, tt)) (hq : subParts [.dev, .maint, .forme, .codec, .tier, .sched, .req, .pair, .rma, .links, .out] Q = true) (hk : OnlyChanges Q s0 s) : OnlyChanges Q s0 tt := by
  have := appendAt_changes (Q := Q) (s0 := s0) (sender := sender) (a := a) (row := row) (reads := reads) (s := s) hq hk
  rw [eq_] at this; exact this

theorem shelveStart_changes {Q : List Block} {s0 : State} {q : ReqId} {drain : Bool} {s : State} (hq : subParts [.tier, .req] Q = true) (hk : OnlyChanges Q s0 s) :
    OnlyChanges Q s0 (shelveStart q drain s) := by
  unfold shelveStart
  repeat' (first
    | with_reducible assumption
    | ((with_reducible refine .inr (subParts_mem hq ?_)); rfl)
    | with_reducible exact .inl rfl
    | with_reducible apply foldl_changes
    | with_reducible apply foldl_changes_fst
    | with_reducible apply foldl_changes_snd
    | with_reducible apply galleyUpd_changes (hq := subParts_trans rfl hq)
    | with_reducible refine changes_ite ?_ ?_
    | (with_reducible refine changesParts_of ?_ ?_ ?_ ?_ ?_ ?_ ?_ ?_ ?_ ?_ ?_ ?_ ?_ ?_ ?_ ?_ ?_ ?_ ?_ ?_)
    | simp only [changes_mk]
    | with_reducible intro _
    | split
    | dsimp only [id])

theorem pausedHere_changes {Q : List Block} {s0 : State} {q : ReqId} {s : State} (hq : subParts [.tier, .req] Q = true) (hk : OnlyChanges Q s0 s) :
    OnlyChanges Q s0 (pausedHere q s) := by
  unfold pausedHere
  repeat' (first
    | with_reducible assumption
    | ((with_reducible refine .inr (subParts_mem hq ?_)); rfl)
    | with_reducible exact .inl rfl
    | with_reducible apply galleyUpd_changes (hq := subParts_trans rfl hq)
    | with_reducible apply recUpd_changes (hq := subParts_trans rfl hq)
    | with_reducible apply shelveStart_changes (hq := subParts_trans rfl hq)
    | with_reducible refine changes_ite ?_ ?_
    | (with_reducible refine changesParts_of ?_ ?_ ?_ ?_ ?_ ?_ ?_ ?_ ?_ ?_ ?_ ?_ ?_ ?_ ?_ ?_ ?_ ?_ ?_ ?_)
    | simp only [changes_mk]
    | with_reducible intro _
    | split
    | dsimp only [id])

theorem wordFollows_changes {Q : List Block} {s0 : State} {q : ReqId} {w : Nat} {s : State} (hq : subParts [.req] Q = true) (hk : OnlyChanges Q s0 s) :
    OnlyChanges Q s0 (wordFollows q w s) := by
  unfold wordFollows
  repeat' (first
    | with_reducible assumption
    | ((with_reducible refine .inr (subParts_mem hq ?_)); rfl)
    | with_reducible exact .inl rfl
    | with_reducible apply galleyUpd_changes (hq := subParts_trans rfl hq)
    | with_reducible apply recUpd_changes (hq := subParts_trans rfl hq)
    | with_reducible refine changes_ite ?_ ?_
    | (with_reducible refine changesParts_of ?_ ?_ ?_ ?_ ?_ ?_ ?_ ?_ ?_ ?_ ?_ ?_ ?_ ?_ ?_ ?_ ?_ ?_ ?_ ?_)
    | simp only [changes_mk]
    | with_reducible intro _
    | split
    | dsimp only [id])

theorem ownerCasAt_changes {Q : List Block} {s0 : State} {h : TrayHdr} {q : ReqId} {cmp : Nat} {new : Nat} {s : State} (hq : subParts [.tier, .req, .pair, .near, .rma, .links, .free, .out] Q = true) (hk : OnlyChanges Q s0 s) :
    OnlyChanges Q s0 (ownerCasAt h q cmp new s) := by
  unfold ownerCasAt
  repeat' (first
    | with_reducible assumption
    | ((with_reducible refine .inr (subParts_mem hq ?_)); rfl)
    | with_reducible exact .inl rfl
    | with_reducible apply galleyUpd_changes (hq := subParts_trans rfl hq)
    | with_reducible apply pausedHere_changes (hq := subParts_trans rfl hq)
    | with_reducible apply mirrorSend_changes (hq := subParts_trans rfl hq)
    | with_reducible apply homeFinish_changes (hq := subParts_trans rfl hq)
    | with_reducible refine changes_ite ?_ ?_
    | (with_reducible refine changesParts_of ?_ ?_ ?_ ?_ ?_ ?_ ?_ ?_ ?_ ?_ ?_ ?_ ?_ ?_ ?_ ?_ ?_ ?_ ?_ ?_)
    | simp only [changes_mk]
    | with_reducible intro _
    | split
    | dsimp only [id])

theorem moverRead_changes {Q : List Block} {s0 : State} {g : Galley} {items : List (Nat × Nat × Nat)} {reads : ReadOutcome} {s : State} (hq : subParts [.dev, .maint, .forme, .codec, .tier, .req, .pair, .rma, .links, .out] Q = true) (hk : OnlyChanges Q s0 s) :
    OnlyChanges Q s0 (moverRead g items reads s).2 := by
  unfold moverRead
  repeat' (first
    | with_reducible assumption
    | ((with_reducible refine .inr (subParts_mem hq ?_)); rfl)
    | with_reducible exact .inl rfl
    | with_reducible apply spansRead_changes (hq := subParts_trans rfl hq)
    | with_reducible apply slugLost_changes (hq := subParts_trans rfl hq)
    | (with_reducible apply spansRead_changes_of (hq := subParts_trans rfl hq) (eq_ := by assumption))
    | with_reducible refine changes_ite ?_ ?_
    | (with_reducible refine changesParts_of ?_ ?_ ?_ ?_ ?_ ?_ ?_ ?_ ?_ ?_ ?_ ?_ ?_ ?_ ?_ ?_ ?_ ?_ ?_ ?_)
    | simp only [changes_mk]
    | with_reducible intro _
    | split
    | dsimp only [id])

theorem moverRead_changes_of {Q : List Block} {s0 : State} {g : Galley} {items : List (Nat × Nat × Nat)} {reads : ReadOutcome} {s : State} {tt : State} {c0 : _} (eq_ : moverRead g items reads s = (c0, tt)) (hq : subParts [.dev, .maint, .forme, .codec, .tier, .req, .pair, .rma, .links, .out] Q = true) (hk : OnlyChanges Q s0 s) : OnlyChanges Q s0 tt := by
  have := moverRead_changes (Q := Q) (s0 := s0) (g := g) (items := items) (reads := reads) (s := s) hq hk
  rw [eq_] at this; exact this

theorem shelveUndo_changes {Q : List Block} {s0 : State} {q : ReqId} {s : State} (hq : subParts [.tier, .req] Q = true) (hk : OnlyChanges Q s0 s) :
    OnlyChanges Q s0 (shelveUndo q s) := by
  unfold shelveUndo
  repeat' (first
    | with_reducible assumption
    | ((with_reducible refine .inr (subParts_mem hq ?_)); rfl)
    | with_reducible exact .inl rfl
    | with_reducible apply galleyUpd_changes (hq := subParts_trans rfl hq)
    | with_reducible refine changes_ite ?_ ?_
    | (with_reducible refine changesParts_of ?_ ?_ ?_ ?_ ?_ ?_ ?_ ?_ ?_ ?_ ?_ ?_ ?_ ?_ ?_ ?_ ?_ ?_ ?_ ?_)
    | simp only [changes_mk]
    | with_reducible intro _
    | split
    | dsimp only [id])

theorem shelveAbandon_changes {Q : List Block} {s0 : State} {q : ReqId} {s : State} (hq : subParts [.tier, .req] Q = true) (hk : OnlyChanges Q s0 s) :
    OnlyChanges Q s0 (shelveAbandon q s) := by
  unfold shelveAbandon
  repeat' (first
    | with_reducible assumption
    | ((with_reducible refine .inr (subParts_mem hq ?_)); rfl)
    | with_reducible exact .inl rfl
    | with_reducible apply galleyUpd_changes (hq := subParts_trans rfl hq)
    | with_reducible apply shelveUndo_changes (hq := subParts_trans rfl hq)
    | with_reducible refine changes_ite ?_ ?_
    | (with_reducible refine changesParts_of ?_ ?_ ?_ ?_ ?_ ?_ ?_ ?_ ?_ ?_ ?_ ?_ ?_ ?_ ?_ ?_ ?_ ?_ ?_ ?_)
    | simp only [changes_mk]
    | with_reducible intro _
    | split
    | dsimp only [id])

theorem shelveStore_changes {Q : List Block} {s0 : State} {q : ReqId} {g : Galley} {frames : List Nat} {s : State} (hq : subParts [.codec, .tier, .sched, .req, .pair, .near, .rma, .links, .free, .out] Q = true) (hk : OnlyChanges Q s0 s) :
    OnlyChanges Q s0 (shelveStore q g frames s) := by
  unfold shelveStore
  repeat' (first
    | with_reducible assumption
    | ((with_reducible refine .inr (subParts_mem hq ?_)); rfl)
    | with_reducible exact .inl rfl
    | with_reducible apply foldl_changes
    | with_reducible apply foldl_changes_fst
    | with_reducible apply foldl_changes_snd
    | with_reducible apply galleyUpd_changes (hq := subParts_trans rfl hq)
    | with_reducible apply quotaReturn_changes (hq := subParts_trans rfl hq)
    | with_reducible apply quotaUpd_changes (hq := subParts_trans rfl hq)
    | with_reducible apply recUpd_changes (hq := subParts_trans rfl hq)
    | with_reducible apply shelfWrite_changes (hq := subParts_trans rfl hq)
    | with_reducible apply meterT3_changes (hq := subParts_trans rfl hq)
    | with_reducible apply meterT1_changes (hq := subParts_trans rfl hq)
    | with_reducible apply mirrorSend_changes (hq := subParts_trans rfl hq)
    | with_reducible apply freePages_changes (hq := subParts_trans rfl hq)
    | with_reducible apply pageUpd_changes (hq := subParts_trans rfl hq)
    | with_reducible apply sendFw_changes (hq := subParts_trans rfl hq)
    | with_reducible refine changes_ite ?_ ?_
    | (with_reducible refine changesParts_of ?_ ?_ ?_ ?_ ?_ ?_ ?_ ?_ ?_ ?_ ?_ ?_ ?_ ?_ ?_ ?_ ?_ ?_ ?_ ?_)
    | simp only [changes_mk]
    | with_reducible intro _
    | split
    | dsimp only [id])

theorem shelveDone_changes {Q : List Block} {s0 : State} {q : ReqId} {reads : ReadOutcome} {s : State} (hq : subParts [.dev, .maint, .forme, .codec, .tier, .sched, .req, .pair, .near, .rma, .links, .free, .out] Q = true) (hk : OnlyChanges Q s0 s) :
    OnlyChanges Q s0 (shelveDone q reads s) := by
  unfold shelveDone
  repeat' (first
    | with_reducible assumption
    | ((with_reducible refine .inr (subParts_mem hq ?_)); rfl)
    | with_reducible exact .inl rfl
    | with_reducible apply shelveStore_changes (hq := subParts_trans rfl hq)
    | with_reducible apply shelveUndo_changes (hq := subParts_trans rfl hq)
    | with_reducible apply moverRead_changes (hq := subParts_trans rfl hq)
    | (with_reducible apply moverRead_changes_of (hq := subParts_trans rfl hq) (eq_ := by assumption))
    | with_reducible refine changes_ite ?_ ?_
    | (with_reducible refine changesParts_of ?_ ?_ ?_ ?_ ?_ ?_ ?_ ?_ ?_ ?_ ?_ ?_ ?_ ?_ ?_ ?_ ?_ ?_ ?_ ?_)
    | simp only [changes_mk]
    | with_reducible intro _
    | split
    | dsimp only [id])

theorem recallDone_changes {Q : List Block} {s0 : State} {q : ReqId} {s : State} (hq : subParts [.codec, .tier, .sched, .req, .pair, .near, .rma, .links, .free, .out] Q = true) (hk : OnlyChanges Q s0 s) :
    OnlyChanges Q s0 (recallDone q s) := by
  unfold recallDone
  repeat' (first
    | with_reducible assumption
    | ((with_reducible refine .inr (subParts_mem hq ?_)); rfl)
    | with_reducible exact .inl rfl
    | with_reducible apply foldl_changes
    | with_reducible apply foldl_changes_fst
    | with_reducible apply foldl_changes_snd
    | with_reducible apply getD_changes
    | with_reducible apply galleyUpd_changes (hq := subParts_trans rfl hq)
    | with_reducible apply recUpd_changes (hq := subParts_trans rfl hq)
    | with_reducible apply meterT3_changes (hq := subParts_trans rfl hq)
    | with_reducible apply meterT2_changes (hq := subParts_trans rfl hq)
    | with_reducible apply bumpFree_changes (hq := subParts_trans rfl hq)
    | with_reducible apply mirrorSend_changes (hq := subParts_trans rfl hq)
    | with_reducible apply freeT3_changes (hq := subParts_trans rfl hq)
    | (with_reducible apply restorePage_changes_of (hq := subParts_trans rfl hq) (eq_ := by assumption))
    | with_reducible refine changes_ite ?_ ?_
    | (with_reducible refine changesParts_of ?_ ?_ ?_ ?_ ?_ ?_ ?_ ?_ ?_ ?_ ?_ ?_ ?_ ?_ ?_ ?_ ?_ ?_ ?_ ?_)
    | simp only [changes_mk]
    | with_reducible intro _
    | split
    | dsimp only [id])

end Sys2Proof.Machine
end

