-- ==== Sys2Proof/Laws/ChangesStages.lean ====
section
/-!
SUPPORT. The blocks of the state that the operations of Sys2Proof/Machine/Stages.lean may change.
-/

namespace Sys2Proof.Machine

theorem memberDrop_changes {Q : List Block} {s0 : State} {q : ReqId} {s : State} (hq : subParts [.codec, .tier, .req, .pair, .near, .rma, .links, .free, .out] Q = true) (hk : OnlyChanges Q s0 s) :
    OnlyChanges Q s0 (memberDrop q s) := by
  unfold memberDrop
  repeat' (first
    | with_reducible assumption
    | ((with_reducible refine .inr (subParts_mem hq ?_)); rfl)
    | with_reducible exact .inl rfl
    | with_reducible apply mirrorSend_changes (hq := subParts_trans rfl hq)
    | with_reducible apply journal_changes (hq := subParts_trans rfl hq)
    | with_reducible apply stageDropped_changes (hq := subParts_trans rfl hq)
    | with_reducible apply freeGalley_changes (hq := subParts_trans rfl hq)
    | with_reducible apply trayIssue_changes (hq := subParts_trans rfl hq)
    | with_reducible refine changes_ite ?_ ?_
    | (with_reducible refine changesParts_of ?_ ?_ ?_ ?_ ?_ ?_ ?_ ?_ ?_ ?_ ?_ ?_ ?_ ?_ ?_ ?_ ?_ ?_ ?_ ?_)
    | simp only [changes_mk]
    | with_reducible intro _
    | split
    | dsimp only [id])

theorem stageDrop_changes {Q : List Block} {s0 : State} {q : ReqId} {c : Status} {s : State}  (hq : subParts [.codec, .tier, .req, .pair, .near, .rma, .links, .free, .out] Q = true) (hk : OnlyChanges Q s0 s) :
    OnlyChanges Q s0 (stageDrop q c s) := by
  unfold stageDrop
  repeat' (first
    | with_reducible assumption
    | ((with_reducible refine .inr (subParts_mem hq ?_)); rfl)
    | with_reducible exact .inl rfl
    | with_reducible apply foldl_changes
    | with_reducible apply foldl_changes_fst
    | with_reducible apply foldl_changes_snd
    | with_reducible apply stageDropped_changes (hq := subParts_trans rfl hq)
    | with_reducible apply memberDrop_changes (hq := subParts_trans rfl hq)
    | with_reducible apply trayIssue_changes (hq := subParts_trans rfl hq)
    | with_reducible apply galleyUpd_changes (hq := subParts_trans rfl hq)
    | with_reducible apply recUpd_changes (hq := subParts_trans rfl hq)
    | with_reducible refine changes_ite ?_ ?_
    | (with_reducible refine changesParts_of ?_ ?_ ?_ ?_ ?_ ?_ ?_ ?_ ?_ ?_ ?_ ?_ ?_ ?_ ?_ ?_ ?_ ?_ ?_ ?_)
    | simp only [changes_mk]
    | with_reducible intro _
    | split
    | dsimp only [id])

theorem dropAcked_changes {Q : List Block} {s0 : State} {q : ReqId} {slot : Nat} {s : State}  (hq : subParts [.req, .near, .rma, .links, .free, .out] Q = true) (hk : OnlyChanges Q s0 s) :
    OnlyChanges Q s0 (dropAcked q slot s) := by
  unfold dropAcked
  repeat' (first
    | with_reducible assumption
    | ((with_reducible refine .inr (subParts_mem hq ?_)); rfl)
    | with_reducible exact .inl rfl
    | with_reducible apply stageDropped_changes (hq := subParts_trans rfl hq)
    | with_reducible apply recUpd_changes (hq := subParts_trans rfl hq)
    | with_reducible refine changes_ite ?_ ?_
    | (with_reducible refine changesParts_of ?_ ?_ ?_ ?_ ?_ ?_ ?_ ?_ ?_ ?_ ?_ ?_ ?_ ?_ ?_ ?_ ?_ ?_ ?_ ?_)
    | simp only [changes_mk]
    | with_reducible intro _
    | split
    | dsimp only [id])

theorem endStage_changes {Q : List Block} {s0 : State} {q : ReqId} {c : Status} {s : State} (hq : subParts [.codec, .tier, .req, .pair, .near, .rma, .links, .free, .out] Q = true) (hk : OnlyChanges Q s0 s) :
    OnlyChanges Q s0 (endStage q c s) := by
  unfold endStage
  repeat' (first
    | with_reducible assumption
    | ((with_reducible refine .inr (subParts_mem hq ?_)); rfl)
    | with_reducible exact .inl rfl
    | with_reducible apply stageDrop_changes (hq := subParts_trans rfl hq)
    | with_reducible apply addCond_changes (hq := subParts_trans rfl hq)
    | with_reducible refine changes_ite ?_ ?_
    | (with_reducible refine changesParts_of ?_ ?_ ?_ ?_ ?_ ?_ ?_ ?_ ?_ ?_ ?_ ?_ ?_ ?_ ?_ ?_ ?_ ?_ ?_ ?_)
    | simp only [changes_mk]
    | with_reducible intro _
    | split
    | dsimp only [id])

theorem pausedEnds_changes {Q : List Block} {s0 : State} {q : ReqId} {s : State} (hq : subParts [.codec, .tier, .req, .pair, .near, .rma, .links, .free, .out] Q = true) (hk : OnlyChanges Q s0 s) :
    OnlyChanges Q s0 (pausedEnds q s) := by
  unfold pausedEnds
  repeat' (first
    | with_reducible assumption
    | ((with_reducible refine .inr (subParts_mem hq ?_)); rfl)
    | with_reducible exact .inl rfl
    | with_reducible apply stageDrop_changes (hq := subParts_trans rfl hq)
    | with_reducible refine changes_ite ?_ ?_
    | (with_reducible refine changesParts_of ?_ ?_ ?_ ?_ ?_ ?_ ?_ ?_ ?_ ?_ ?_ ?_ ?_ ?_ ?_ ?_ ?_ ?_ ?_ ?_)
    | simp only [changes_mk]
    | with_reducible intro _
    | split
    | dsimp only [id])

theorem sendTokens_changes {Q : List Block} {s0 : State} {q : ReqId} {pos : Nat} {toks : List Word} {s : State}  (hq : subParts [.rma, .links, .out] Q = true) (hk : OnlyChanges Q s0 s) :
    OnlyChanges Q s0 (sendTokens q pos toks s) := by
  unfold sendTokens
  repeat' (first
    | with_reducible assumption
    | ((with_reducible refine .inr (subParts_mem hq ?_)); rfl)
    | with_reducible exact .inl rfl
    | with_reducible apply sendFw_changes (hq := subParts_trans rfl hq)
    | with_reducible refine changes_ite ?_ ?_
    | (with_reducible refine changesParts_of ?_ ?_ ?_ ?_ ?_ ?_ ?_ ?_ ?_ ?_ ?_ ?_ ?_ ?_ ?_ ?_ ?_ ?_ ?_ ?_)
    | simp only [changes_mk]
    | with_reducible intro _
    | split
    | dsimp only [id])

theorem historyWrite_changes {Q : List Block} {s0 : State} {q : ReqId} {start : Nat} {toks : List Word} {s : State}  (hq : subParts [.near, .links] Q = true) (hk : OnlyChanges Q s0 s) :
    OnlyChanges Q s0 (historyWrite q start toks s) := by
  unfold historyWrite
  repeat' (first
    | with_reducible assumption
    | ((with_reducible refine .inr (subParts_mem hq ?_)); rfl)
    | with_reducible exact .inl rfl
    | with_reducible apply foldl_changes
    | with_reducible apply foldl_changes_fst
    | with_reducible apply foldl_changes_snd
    | with_reducible apply trayIssue_changes (hq := subParts_trans rfl hq)
    | with_reducible refine changes_ite ?_ ?_
    | (with_reducible refine changesParts_of ?_ ?_ ?_ ?_ ?_ ?_ ?_ ?_ ?_ ?_ ?_ ?_ ?_ ?_ ?_ ?_ ?_ ?_ ?_ ?_)
    | simp only [changes_mk]
    | with_reducible intro _
    | split
    | dsimp only [id])

theorem commitIssue_changes {Q : List Block} {s0 : State} {q : ReqId} {s : State} (hq : subParts [.near, .links] Q = true) (hk : OnlyChanges Q s0 s) :
    OnlyChanges Q s0 (commitIssue q s) := by
  unfold commitIssue
  repeat' (first
    | with_reducible assumption
    | ((with_reducible refine .inr (subParts_mem hq ?_)); rfl)
    | with_reducible exact .inl rfl
    | with_reducible apply historyWrite_changes (hq := subParts_trans rfl hq)
    | with_reducible apply trayIssue_changes (hq := subParts_trans rfl hq)
    | with_reducible refine changes_ite ?_ ?_
    | (with_reducible refine changesParts_of ?_ ?_ ?_ ?_ ?_ ?_ ?_ ?_ ?_ ?_ ?_ ?_ ?_ ?_ ?_ ?_ ?_ ?_ ?_ ?_)
    | simp only [changes_mk]
    | with_reducible intro _
    | split
    | dsimp only [id])

theorem fenceIssue_changes {Q : List Block} {s0 : State} {q : ReqId} {s : State}  (hq : subParts [.near, .links] Q = true) (hk : OnlyChanges Q s0 s) :
    OnlyChanges Q s0 (fenceIssue q s) := by
  unfold fenceIssue
  repeat' (first
    | with_reducible assumption
    | ((with_reducible refine .inr (subParts_mem hq ?_)); rfl)
    | with_reducible exact .inl rfl
    | with_reducible apply getD_changes
    | with_reducible apply commitIssue_changes (hq := subParts_trans rfl hq)
    | with_reducible refine changes_ite ?_ ?_
    | (with_reducible refine changesParts_of ?_ ?_ ?_ ?_ ?_ ?_ ?_ ?_ ?_ ?_ ?_ ?_ ?_ ?_ ?_ ?_ ?_ ?_ ?_ ?_)
    | simp only [changes_mk]
    | with_reducible intro _
    | split
    | dsimp only [id])

theorem ownerSwapFrom_changes {Q : List Block} {s0 : State} {q : ReqId} {old : DevId} {d : DevId} {why : TrayWhy} {s : State} (hq : subParts [.near, .links] Q = true) (hk : OnlyChanges Q s0 s) :
    OnlyChanges Q s0 (ownerSwapFrom q old d why s) := by
  unfold ownerSwapFrom
  repeat' (first
    | with_reducible assumption
    | ((with_reducible refine .inr (subParts_mem hq ?_)); rfl)
    | with_reducible exact .inl rfl
    | with_reducible apply trayIssue_changes (hq := subParts_trans rfl hq)
    | with_reducible refine changes_ite ?_ ?_
    | (with_reducible refine changesParts_of ?_ ?_ ?_ ?_ ?_ ?_ ?_ ?_ ?_ ?_ ?_ ?_ ?_ ?_ ?_ ?_ ?_ ?_ ?_ ?_)
    | simp only [changes_mk]
    | with_reducible intro _
    | split
    | dsimp only [id])

theorem ownerSwap_changes {Q : List Block} {s0 : State} {q : ReqId} {d : DevId} {why : TrayWhy} {s : State} (hq : subParts [.near, .links] Q = true) (hk : OnlyChanges Q s0 s) :
    OnlyChanges Q s0 (ownerSwap q d why s) := by
  unfold ownerSwap
  repeat' (first
    | with_reducible assumption
    | ((with_reducible refine .inr (subParts_mem hq ?_)); rfl)
    | with_reducible exact .inl rfl
    | with_reducible apply ownerSwapFrom_changes (hq := subParts_trans rfl hq)
    | with_reducible refine changes_ite ?_ ?_
    | (with_reducible refine changesParts_of ?_ ?_ ?_ ?_ ?_ ?_ ?_ ?_ ?_ ?_ ?_ ?_ ?_ ?_ ?_ ?_ ?_ ?_ ?_ ?_)
    | simp only [changes_mk]
    | with_reducible intro _
    | split
    | dsimp only [id])

theorem handoverStart_changes {Q : List Block} {s0 : State} {q : ReqId} {s : State}  (hq : subParts [.req, .near, .links] Q = true) (hk : OnlyChanges Q s0 s) :
    OnlyChanges Q s0 (handoverStart q s) := by
  unfold handoverStart
  repeat' (first
    | with_reducible assumption
    | ((with_reducible refine .inr (subParts_mem hq ?_)); rfl)
    | with_reducible exact .inl rfl
    | with_reducible apply ownerSwap_changes (hq := subParts_trans rfl hq)
    | with_reducible apply recUpd_changes (hq := subParts_trans rfl hq)
    | with_reducible refine changes_ite ?_ ?_
    | (with_reducible refine changesParts_of ?_ ?_ ?_ ?_ ?_ ?_ ?_ ?_ ?_ ?_ ?_ ?_ ?_ ?_ ?_ ?_ ?_ ?_ ?_ ?_)
    | simp only [changes_mk]
    | with_reducible intro _
    | split
    | dsimp only [id])

theorem handoverDone_changes {Q : List Block} {s0 : State} {q : ReqId} {s : State} (hq : subParts [.req, .near, .links] Q = true) (hk : OnlyChanges Q s0 s) :
    OnlyChanges Q s0 (handoverDone q s) := by
  unfold handoverDone
  repeat' (first
    | with_reducible assumption
    | ((with_reducible refine .inr (subParts_mem hq ?_)); rfl)
    | with_reducible exact .inl rfl
    | with_reducible apply recFree_changes (hq := subParts_trans rfl hq)
    | with_reducible apply recUpd_changes (hq := subParts_trans rfl hq)
    | with_reducible apply trayIssue_changes (hq := subParts_trans rfl hq)
    | with_reducible refine changes_ite ?_ ?_
    | (with_reducible refine changesParts_of ?_ ?_ ?_ ?_ ?_ ?_ ?_ ?_ ?_ ?_ ?_ ?_ ?_ ?_ ?_ ?_ ?_ ?_ ?_ ?_)
    | simp only [changes_mk]
    | with_reducible intro _
    | split
    | dsimp only [id])

theorem pauseDone_changes {Q : List Block} {s0 : State} {q : ReqId} {s : State}  (hq : subParts [.req, .rma, .links, .free, .out] Q = true) (hk : OnlyChanges Q s0 s) :
    OnlyChanges Q s0 (pauseDone q s) := by
  unfold pauseDone
  repeat' (first
    | with_reducible assumption
    | ((with_reducible refine .inr (subParts_mem hq ?_)); rfl)
    | with_reducible exact .inl rfl
    | with_reducible apply stageReport_changes (hq := subParts_trans rfl hq)
    | with_reducible apply recFree_changes (hq := subParts_trans rfl hq)
    | with_reducible apply sendFw_changes (hq := subParts_trans rfl hq)
    | with_reducible apply recUpd_changes (hq := subParts_trans rfl hq)
    | (with_reducible apply stageReport_changes_of (hq := subParts_trans rfl hq) (eq_ := by assumption))
    | with_reducible refine changes_ite ?_ ?_
    | (with_reducible refine changesParts_of ?_ ?_ ?_ ?_ ?_ ?_ ?_ ?_ ?_ ?_ ?_ ?_ ?_ ?_ ?_ ?_ ?_ ?_ ?_ ?_)
    | simp only [changes_mk]
    | with_reducible intro _
    | split
    | dsimp only [id])

theorem ownerReset_changes {Q : List Block} {s0 : State} {q : ReqId} {s : State}  (hq : subParts [.req, .near, .links] Q = true) (hk : OnlyChanges Q s0 s) :
    OnlyChanges Q s0 (ownerReset q s) := by
  unfold ownerReset
  repeat' (first
    | with_reducible assumption
    | ((with_reducible refine .inr (subParts_mem hq ?_)); rfl)
    | with_reducible exact .inl rfl
    | with_reducible apply foldl_changes
    | with_reducible apply foldl_changes_fst
    | with_reducible apply foldl_changes_snd
    | with_reducible apply trayIssue_changes (hq := subParts_trans rfl hq)
    | with_reducible apply recUpd_changes (hq := subParts_trans rfl hq)
    | with_reducible refine changes_ite ?_ ?_
    | (with_reducible refine changesParts_of ?_ ?_ ?_ ?_ ?_ ?_ ?_ ?_ ?_ ?_ ?_ ?_ ?_ ?_ ?_ ?_ ?_ ?_ ?_ ?_)
    | simp only [changes_mk]
    | with_reducible intro _
    | split
    | dsimp only [id])

theorem nextSegment_changes {Q : List Block} {s0 : State} {q : ReqId} {e : StepEnd} {s : State}  (hq : subParts [.req, .near, .links] Q = true) (hk : OnlyChanges Q s0 s) :
    OnlyChanges Q s0 (nextSegment q e s) := by
  unfold nextSegment
  repeat' (first
    | with_reducible assumption
    | ((with_reducible refine .inr (subParts_mem hq ?_)); rfl)
    | with_reducible exact .inl rfl
    | with_reducible apply ownerReset_changes (hq := subParts_trans rfl hq)
    | with_reducible apply recUpd_changes (hq := subParts_trans rfl hq)
    | with_reducible refine changes_ite ?_ ?_
    | (with_reducible refine changesParts_of ?_ ?_ ?_ ?_ ?_ ?_ ?_ ?_ ?_ ?_ ?_ ?_ ?_ ?_ ?_ ?_ ?_ ?_ ?_ ?_)
    | simp only [changes_mk]
    | with_reducible intro _
    | split
    | dsimp only [id])

theorem commitAcked_changes {Q : List Block} {s0 : State} {q : ReqId} {one : Bool} {s : State} (hq : subParts [.codec, .tier, .req, .pair, .near, .rma, .links, .free, .out] Q = true) (hk : OnlyChanges Q s0 s) :
    OnlyChanges Q s0 (commitAcked q one s) := by
  unfold commitAcked
  repeat' (first
    | with_reducible assumption
    | ((with_reducible refine .inr (subParts_mem hq ?_)); rfl)
    | with_reducible exact .inl rfl
    | with_reducible apply nextSegment_changes (hq := subParts_trans rfl hq)
    | with_reducible apply handoverStart_changes (hq := subParts_trans rfl hq)
    | with_reducible apply ownerSwap_changes (hq := subParts_trans rfl hq)
    | with_reducible apply sendTokens_changes (hq := subParts_trans rfl hq)
    | with_reducible apply stageDrop_changes (hq := subParts_trans rfl hq)
    | with_reducible apply recUpd_changes (hq := subParts_trans rfl hq)
    | with_reducible refine changes_ite ?_ ?_
    | (with_reducible refine changesParts_of ?_ ?_ ?_ ?_ ?_ ?_ ?_ ?_ ?_ ?_ ?_ ?_ ?_ ?_ ?_ ?_ ?_ ?_ ?_ ?_)
    | simp only [changes_mk]
    | with_reducible intro _
    | split
    | dsimp only [id])

theorem commitFailed_changes {Q : List Block} {s0 : State} {q : ReqId} {c : Status} {s : State} (hq : subParts [.codec, .tier, .req, .pair, .near, .rma, .links, .free, .out] Q = true) (hk : OnlyChanges Q s0 s) :
    OnlyChanges Q s0 (commitFailed q c s) := by
  unfold commitFailed
  repeat' (first
    | with_reducible assumption
    | ((with_reducible refine .inr (subParts_mem hq ?_)); rfl)
    | with_reducible exact .inl rfl
    | with_reducible apply stageDrop_changes (hq := subParts_trans rfl hq)
    | with_reducible apply recUpd_changes (hq := subParts_trans rfl hq)
    | with_reducible apply reportEnd_changes (hq := subParts_trans rfl hq)
    | with_reducible apply sendFw_changes (hq := subParts_trans rfl hq)
    | with_reducible refine changes_ite ?_ ?_
    | (with_reducible refine changesParts_of ?_ ?_ ?_ ?_ ?_ ?_ ?_ ?_ ?_ ?_ ?_ ?_ ?_ ?_ ?_ ?_ ?_ ?_ ?_ ?_)
    | simp only [changes_mk]
    | with_reducible intro _
    | split
    | dsimp only [id])

theorem commitAnswer_changes {Q : List Block} {s0 : State} {q : ReqId} {c : Status} {s : State} (hq : subParts [.codec, .tier, .req, .pair, .near, .rma, .links, .free, .out] Q = true) (hk : OnlyChanges Q s0 s) :
    OnlyChanges Q s0 (commitAnswer q c s) := by
  unfold commitAnswer
  repeat' (first
    | with_reducible assumption
    | ((with_reducible refine .inr (subParts_mem hq ?_)); rfl)
    | with_reducible exact .inl rfl
    | with_reducible apply commitFailed_changes (hq := subParts_trans rfl hq)
    | with_reducible apply commitAcked_changes (hq := subParts_trans rfl hq)
    | with_reducible apply commitIssue_changes (hq := subParts_trans rfl hq)
    | with_reducible refine changes_ite ?_ ?_
    | (with_reducible refine changesParts_of ?_ ?_ ?_ ?_ ?_ ?_ ?_ ?_ ?_ ?_ ?_ ?_ ?_ ?_ ?_ ?_ ?_ ?_ ?_ ?_)
    | simp only [changes_mk]
    | with_reducible intro _
    | split
    | dsimp only [id])

theorem boundaryOne_changes {Q : List Block} {s0 : State} {s : State} {e : StepEnd} (hq : subParts [.codec, .tier, .req, .pair, .near, .rma, .links, .free, .out] Q = true) (hk : OnlyChanges Q s0 s) :
    OnlyChanges Q s0 (boundaryOne s e) := by
  unfold boundaryOne
  repeat' (first
    | with_reducible assumption
    | ((with_reducible refine .inr (subParts_mem hq ?_)); rfl)
    | with_reducible exact .inl rfl
    | with_reducible apply fenceIssue_changes (hq := subParts_trans rfl hq)
    | with_reducible apply commitIssue_changes (hq := subParts_trans rfl hq)
    | with_reducible apply stageDrop_changes (hq := subParts_trans rfl hq)
    | with_reducible apply recUpd_changes (hq := subParts_trans rfl hq)
    | with_reducible apply sendFw_changes (hq := subParts_trans rfl hq)
    | with_reducible refine changes_ite ?_ ?_
    | (with_reducible refine changesParts_of ?_ ?_ ?_ ?_ ?_ ?_ ?_ ?_ ?_ ?_ ?_ ?_ ?_ ?_ ?_ ?_ ?_ ?_ ?_ ?_)
    | simp only [changes_mk]
    | with_reducible intro _
    | split
    | dsimp only [id])

theorem scrubbed_changes {Q : List Block} {s0 : State} {s : State} (hq : subParts [.dev, .maint, .forme, .codec, .tier, .req, .pair, .rma, .links, .out] Q = true) (hk : OnlyChanges Q s0 s) :
    OnlyChanges Q s0 (scrubbed s) := by
  unfold scrubbed
  repeat' (first
    | with_reducible assumption
    | ((with_reducible refine .inr (subParts_mem hq ?_)); rfl)
    | with_reducible exact .inl rfl
    | with_reducible apply foldl_changes
    | with_reducible apply foldl_changes_fst
    | with_reducible apply foldl_changes_snd
    | with_reducible apply markLost_changes (hq := subParts_trans rfl hq)
    | with_reducible apply retireFrame_changes (hq := subParts_trans rfl hq)
    | with_reducible refine changes_ite ?_ ?_
    | (with_reducible refine changesParts_of ?_ ?_ ?_ ?_ ?_ ?_ ?_ ?_ ?_ ?_ ?_ ?_ ?_ ?_ ?_ ?_ ?_ ?_ ?_ ?_)
    | simp only [changes_mk]
    | with_reducible intro _
    | split
    | dsimp only [id])

theorem stepBoundary_changes {Q : List Block} {s0 : State} {es : List StepEnd} {s : State} (hq : subParts [.dev, .maint, .forme, .codec, .tier, .req, .pair, .near, .rma, .links, .free, .out] Q = true) (hk : OnlyChanges Q s0 s) :
    OnlyChanges Q s0 (stepBoundary es s) := by
  unfold stepBoundary
  repeat' (first
    | with_reducible assumption
    | ((with_reducible refine .inr (subParts_mem hq ?_)); rfl)
    | with_reducible exact .inl rfl
    | with_reducible apply foldl_changes
    | with_reducible apply foldl_changes_fst
    | with_reducible apply foldl_changes_snd
    | with_reducible apply scrubbed_changes (hq := subParts_trans rfl hq)
    | with_reducible apply boundaryOne_changes (hq := subParts_trans rfl hq)
    | with_reducible refine changes_ite ?_ ?_
    | (with_reducible refine changesParts_of ?_ ?_ ?_ ?_ ?_ ?_ ?_ ?_ ?_ ?_ ?_ ?_ ?_ ?_ ?_ ?_ ?_ ?_ ?_ ?_)
    | simp only [changes_mk]
    | with_reducible intro _
    | split
    | dsimp only [id])

theorem admissionPut_changes {Q : List Block} {s0 : State} {r : Rec} {s : State}  (hq : subParts [.req, .free] Q = true) (hk : OnlyChanges Q s0 s) :
    OnlyChanges Q s0 (admissionPut r s) := by
  unfold admissionPut
  repeat' (first
    | with_reducible assumption
    | ((with_reducible refine .inr (subParts_mem hq ?_)); rfl)
    | with_reducible exact .inl rfl
    | with_reducible apply recCreate_changes (hq := subParts_trans rfl hq)
    | with_reducible apply recUpd_changes (hq := subParts_trans rfl hq)
    | with_reducible refine changes_ite ?_ ?_
    | (with_reducible refine changesParts_of ?_ ?_ ?_ ?_ ?_ ?_ ?_ ?_ ?_ ?_ ?_ ?_ ?_ ?_ ?_ ?_ ?_ ?_ ?_ ?_)
    | simp only [changes_mk]
    | with_reducible intro _
    | split
    | dsimp only [id])

theorem admitForward_changes {Q : List Block} {s0 : State} {m : StageAdmission} {s : State} (hq : subParts [.rma, .links, .out] Q = true) (hk : OnlyChanges Q s0 s) :
    OnlyChanges Q s0 (admitForward m s) := by
  unfold admitForward
  repeat' (first
    | with_reducible assumption
    | ((with_reducible refine .inr (subParts_mem hq ?_)); rfl)
    | with_reducible exact .inl rfl
    | with_reducible apply sendFw_changes (hq := subParts_trans rfl hq)
    | with_reducible refine changes_ite ?_ ?_
    | (with_reducible refine changesParts_of ?_ ?_ ?_ ?_ ?_ ?_ ?_ ?_ ?_ ?_ ?_ ?_ ?_ ?_ ?_ ?_ ?_ ?_ ?_ ?_)
    | simp only [changes_mk]
    | with_reducible intro _
    | split
    | dsimp only [id])

theorem shelveEarly_changes {Q : List Block} {s0 : State} {p : Nat} {deficit : Nat} {s : State}  (hq : subParts [.tier, .req] Q = true) (hk : OnlyChanges Q s0 s) :
    OnlyChanges Q s0 (shelveEarly p deficit s) := by
  unfold shelveEarly
  repeat' (first
    | with_reducible assumption
    | ((with_reducible refine .inr (subParts_mem hq ?_)); rfl)
    | with_reducible exact .inl rfl
    | with_reducible apply foldl_changes
    | with_reducible apply foldl_changes_fst
    | with_reducible apply foldl_changes_snd
    | with_reducible apply shelveStart_changes (hq := subParts_trans rfl hq)
    | with_reducible refine changes_ite ?_ ?_
    | (with_reducible refine changesParts_of ?_ ?_ ?_ ?_ ?_ ?_ ?_ ?_ ?_ ?_ ?_ ?_ ?_ ?_ ?_ ?_ ?_ ?_ ?_ ?_)
    | simp only [changes_mk]
    | with_reducible intro _
    | split
    | dsimp only [id])

theorem memberAdmit_changes {Q : List Block} {s0 : State} {m : StageAdmission} {e : Route} {s : State} (hq : subParts [.tier, .req, .free] Q = true) (hk : OnlyChanges Q s0 s) :
    OnlyChanges Q s0 (memberAdmit m e s).2 := by
  unfold memberAdmit
  repeat' (first
    | with_reducible assumption
    | ((with_reducible refine .inr (subParts_mem hq ?_)); rfl)
    | with_reducible exact .inl rfl
    | with_reducible apply shelveEarly_changes (hq := subParts_trans rfl hq)
    | with_reducible apply admissionPut_changes (hq := subParts_trans rfl hq)
    | with_reducible apply quotaReserve_changes (hq := subParts_trans rfl hq)
    | (with_reducible apply quotaReserve_changes_of (hq := subParts_trans rfl hq) (eq_ := by assumption))
    | with_reducible refine changes_ite ?_ ?_
    | (with_reducible refine changesParts_of ?_ ?_ ?_ ?_ ?_ ?_ ?_ ?_ ?_ ?_ ?_ ?_ ?_ ?_ ?_ ?_ ?_ ?_ ?_ ?_)
    | simp only [changes_mk]
    | with_reducible intro _
    | split
    | dsimp only [id])

theorem memberAdmit_changes_of {Q : List Block} {s0 : State} {m : StageAdmission} {e : Route} {s : State} {tt : State} {c0 : _} (eq_ : memberAdmit m e s = (c0, tt)) (hq : subParts [.tier, .req, .free] Q = true) (hk : OnlyChanges Q s0 s) : OnlyChanges Q s0 tt := by
  have := memberAdmit_changes (Q := Q) (s0 := s0) (m := m) (e := e) (s := s) hq hk
  rw [eq_] at this; exact this

theorem promptAdmit_changes {Q : List Block} {s0 : State} {m : StageAdmission} {e : Route} {s : State} (hq : subParts [.req, .rma, .links, .free, .out] Q = true) (hk : OnlyChanges Q s0 s) :
    OnlyChanges Q s0 (promptAdmit m e s) := by
  unfold promptAdmit
  repeat' (first
    | with_reducible assumption
    | ((with_reducible refine .inr (subParts_mem hq ?_)); rfl)
    | with_reducible exact .inl rfl
    | with_reducible apply foldl_changes
    | with_reducible apply foldl_changes_fst
    | with_reducible apply foldl_changes_snd
    | with_reducible apply admitForward_changes (hq := subParts_trans rfl hq)
    | with_reducible apply admissionPut_changes (hq := subParts_trans rfl hq)
    | with_reducible apply sendFw_changes (hq := subParts_trans rfl hq)
    | with_reducible refine changes_ite ?_ ?_
    | (with_reducible refine changesParts_of ?_ ?_ ?_ ?_ ?_ ?_ ?_ ?_ ?_ ?_ ?_ ?_ ?_ ?_ ?_ ?_ ?_ ?_ ?_ ?_)
    | simp only [changes_mk]
    | with_reducible intro _
    | split
    | dsimp only [id])

theorem stageAdmission_changes {Q : List Block} {s0 : State} {m : StageAdmission} {s : State} (hq : subParts [.tier, .req, .rma, .links, .free, .out] Q = true) (hk : OnlyChanges Q s0 s) :
    OnlyChanges Q s0 (stageAdmission m s) := by
  unfold stageAdmission
  repeat' (first
    | with_reducible assumption
    | ((with_reducible refine .inr (subParts_mem hq ?_)); rfl)
    | with_reducible exact .inl rfl
    | with_reducible apply promptAdmit_changes (hq := subParts_trans rfl hq)
    | with_reducible apply memberAdmit_changes (hq := subParts_trans rfl hq)
    | with_reducible apply admissionPut_changes (hq := subParts_trans rfl hq)
    | with_reducible apply sendFw_changes (hq := subParts_trans rfl hq)
    | (with_reducible apply memberAdmit_changes_of (hq := subParts_trans rfl hq) (eq_ := by assumption))
    | with_reducible refine changes_ite ?_ ?_
    | (with_reducible refine changesParts_of ?_ ?_ ?_ ?_ ?_ ?_ ?_ ?_ ?_ ?_ ?_ ?_ ?_ ?_ ?_ ?_ ?_ ?_ ?_ ?_)
    | simp only [changes_mk]
    | with_reducible intro _
    | split
    | dsimp only [id])

theorem unknownReq_changes {Q : List Block} {s0 : State} {q : ReqId} {s : State} (hq : subParts [.rma, .links, .out] Q = true) (hk : OnlyChanges Q s0 s) :
    OnlyChanges Q s0 (unknownReq q s) := by
  unfold unknownReq
  repeat' (first
    | with_reducible assumption
    | ((with_reducible refine .inr (subParts_mem hq ?_)); rfl)
    | with_reducible exact .inl rfl
    | with_reducible apply sendFw_changes (hq := subParts_trans rfl hq)
    | with_reducible refine changes_ite ?_ ?_
    | (with_reducible refine changesParts_of ?_ ?_ ?_ ?_ ?_ ?_ ?_ ?_ ?_ ?_ ?_ ?_ ?_ ?_ ?_ ?_ ?_ ?_ ?_ ?_)
    | simp only [changes_mk]
    | with_reducible intro _
    | split
    | dsimp only [id])

theorem releaseStage_changes {Q : List Block} {s0 : State} {q : ReqId} {s : State} (hq : subParts [.codec, .tier, .req, .rma, .links, .out] Q = true) (hk : OnlyChanges Q s0 s) :
    OnlyChanges Q s0 (releaseStage q s) := by
  unfold releaseStage
  repeat' (first
    | with_reducible assumption
    | ((with_reducible refine .inr (subParts_mem hq ?_)); rfl)
    | with_reducible exact .inl rfl
    | with_reducible apply quotaReturn_changes (hq := subParts_trans rfl hq)
    | with_reducible apply recFree_changes (hq := subParts_trans rfl hq)
    | with_reducible apply recUpd_changes (hq := subParts_trans rfl hq)
    | with_reducible apply freePages_changes (hq := subParts_trans rfl hq)
    | with_reducible apply sendFw_changes (hq := subParts_trans rfl hq)
    | with_reducible refine changes_ite ?_ ?_
    | (with_reducible refine changesParts_of ?_ ?_ ?_ ?_ ?_ ?_ ?_ ?_ ?_ ?_ ?_ ?_ ?_ ?_ ?_ ?_ ?_ ?_ ?_ ?_)
    | simp only [changes_mk]
    | with_reducible intro _
    | split
    | dsimp only [id])

theorem stageConfirmed_changes {Q : List Block} {s0 : State} {q : ReqId} {s : State} (hq : subParts [.req] Q = true) (hk : OnlyChanges Q s0 s) :
    OnlyChanges Q s0 (stageConfirmed q s) := by
  unfold stageConfirmed
  repeat' (first
    | with_reducible assumption
    | ((with_reducible refine .inr (subParts_mem hq ?_)); rfl)
    | with_reducible exact .inl rfl
    | with_reducible apply recUpd_changes (hq := subParts_trans rfl hq)
    | with_reducible refine changes_ite ?_ ?_
    | (with_reducible refine changesParts_of ?_ ?_ ?_ ?_ ?_ ?_ ?_ ?_ ?_ ?_ ?_ ?_ ?_ ?_ ?_ ?_ ?_ ?_ ?_ ?_)
    | simp only [changes_mk]
    | with_reducible intro _
    | split
    | dsimp only [id])

theorem memberReset_changes {Q : List Block} {s0 : State} {q : ReqId} {cause : Byte} {s : State} (hq : subParts [.codec, .tier, .req, .pair, .near, .rma, .links, .free, .out] Q = true) (hk : OnlyChanges Q s0 s) :
    OnlyChanges Q s0 (memberReset q cause s) := by
  unfold memberReset
  repeat' (first
    | with_reducible assumption
    | ((with_reducible refine .inr (subParts_mem hq ?_)); rfl)
    | with_reducible exact .inl rfl
    | with_reducible apply recUpd_changes (hq := subParts_trans rfl hq)
    | with_reducible apply mirrorSend_changes (hq := subParts_trans rfl hq)
    | with_reducible apply resetGalley_changes (hq := subParts_trans rfl hq)
    | with_reducible refine changes_ite ?_ ?_
    | (with_reducible refine changesParts_of ?_ ?_ ?_ ?_ ?_ ?_ ?_ ?_ ?_ ?_ ?_ ?_ ?_ ?_ ?_ ?_ ?_ ?_ ?_ ?_)
    | simp only [changes_mk]
    | with_reducible intro _
    | split
    | dsimp only [id])

theorem resumeReady_changes {Q : List Block} {s0 : State} {q : ReqId} {m : StageResume} {s : State} (hq : subParts [.req, .pair, .near, .rma, .links, .free, .out] Q = true) (hk : OnlyChanges Q s0 s) :
    OnlyChanges Q s0 (resumeReady q m s) := by
  unfold resumeReady
  repeat' (first
    | with_reducible assumption
    | ((with_reducible refine .inr (subParts_mem hq ?_)); rfl)
    | with_reducible exact .inl rfl
    | with_reducible apply galleyUpd_changes (hq := subParts_trans rfl hq)
    | with_reducible apply recUpd_changes (hq := subParts_trans rfl hq)
    | with_reducible apply mirrorSend_changes (hq := subParts_trans rfl hq)
    | with_reducible refine changes_ite ?_ ?_
    | (with_reducible refine changesParts_of ?_ ?_ ?_ ?_ ?_ ?_ ?_ ?_ ?_ ?_ ?_ ?_ ?_ ?_ ?_ ?_ ?_ ?_ ?_ ?_)
    | simp only [changes_mk]
    | with_reducible intro _
    | split
    | dsimp only [id])

theorem recallBegin_changes {Q : List Block} {s0 : State} {q : ReqId} {s : State} (hq : subParts [.req] Q = true) (hk : OnlyChanges Q s0 s) :
    OnlyChanges Q s0 (recallBegin q s) := by
  unfold recallBegin
  repeat' (first
    | with_reducible assumption
    | ((with_reducible refine .inr (subParts_mem hq ?_)); rfl)
    | with_reducible exact .inl rfl
    | with_reducible apply getD_changes
    | with_reducible apply galleyUpd_changes (hq := subParts_trans rfl hq)
    | with_reducible apply recUpd_changes (hq := subParts_trans rfl hq)
    | with_reducible refine changes_ite ?_ ?_
    | (with_reducible refine changesParts_of ?_ ?_ ?_ ?_ ?_ ?_ ?_ ?_ ?_ ?_ ?_ ?_ ?_ ?_ ?_ ?_ ?_ ?_ ?_ ?_)
    | simp only [changes_mk]
    | with_reducible intro _
    | split
    | dsimp only [id])

theorem reserved_changes {Q : List Block} {s0 : State} {q : ReqId} {n : Nat} {s : State} (hq : subParts [.req] Q = true) (hk : OnlyChanges Q s0 s) :
    OnlyChanges Q s0 (reserved q n s) := by
  unfold reserved
  repeat' (first
    | with_reducible assumption
    | ((with_reducible refine .inr (subParts_mem hq ?_)); rfl)
    | with_reducible exact .inl rfl
    | with_reducible apply galleyUpd_changes (hq := subParts_trans rfl hq)
    | with_reducible apply recUpd_changes (hq := subParts_trans rfl hq)
    | with_reducible refine changes_ite ?_ ?_
    | (with_reducible refine changesParts_of ?_ ?_ ?_ ?_ ?_ ?_ ?_ ?_ ?_ ?_ ?_ ?_ ?_ ?_ ?_ ?_ ?_ ?_ ?_ ?_)
    | simp only [changes_mk]
    | with_reducible intro _
    | split
    | dsimp only [id])

theorem recallStart_changes {Q : List Block} {s0 : State} {q : ReqId} {m : StageResume} {s : State} (hq : subParts [.tier, .req, .near, .links] Q = true) (hk : OnlyChanges Q s0 s) :
    OnlyChanges Q s0 (recallStart q m s) := by
  unfold recallStart
  repeat' (first
    | with_reducible assumption
    | ((with_reducible refine .inr (subParts_mem hq ?_)); rfl)
    | with_reducible exact .inl rfl
    | with_reducible apply reserved_changes (hq := subParts_trans rfl hq)
    | with_reducible apply recallBegin_changes (hq := subParts_trans rfl hq)
    | with_reducible apply shelveEarly_changes (hq := subParts_trans rfl hq)
    | with_reducible apply galleyUpd_changes (hq := subParts_trans rfl hq)
    | with_reducible apply quotaReserve_changes (hq := subParts_trans rfl hq)
    | with_reducible apply trayIssue_changes (hq := subParts_trans rfl hq)
    | (with_reducible apply quotaReserve_changes_of (hq := subParts_trans rfl hq) (eq_ := by assumption))
    | with_reducible refine changes_ite ?_ ?_
    | (with_reducible refine changesParts_of ?_ ?_ ?_ ?_ ?_ ?_ ?_ ?_ ?_ ?_ ?_ ?_ ?_ ?_ ?_ ?_ ?_ ?_ ?_ ?_)
    | simp only [changes_mk]
    | with_reducible intro _
    | split
    | dsimp only [id])

theorem reserveAsk_changes {Q : List Block} {s0 : State} {q : ReqId} {n : Nat} {s : State} (hq : subParts [.tier, .req] Q = true) (hk : OnlyChanges Q s0 s) :
    OnlyChanges Q s0 (reserveAsk q n s).2 := by
  unfold reserveAsk
  repeat' (first
    | with_reducible assumption
    | ((with_reducible refine .inr (subParts_mem hq ?_)); rfl)
    | with_reducible exact .inl rfl
    | with_reducible apply reserved_changes (hq := subParts_trans rfl hq)
    | with_reducible apply shelveEarly_changes (hq := subParts_trans rfl hq)
    | with_reducible apply galleyUpd_changes (hq := subParts_trans rfl hq)
    | with_reducible apply quotaReturn_changes (hq := subParts_trans rfl hq)
    | with_reducible apply quotaReserve_changes (hq := subParts_trans rfl hq)
    | (with_reducible apply quotaReserve_changes_of (hq := subParts_trans rfl hq) (eq_ := by assumption))
    | with_reducible refine changes_ite ?_ ?_
    | (with_reducible refine changesParts_of ?_ ?_ ?_ ?_ ?_ ?_ ?_ ?_ ?_ ?_ ?_ ?_ ?_ ?_ ?_ ?_ ?_ ?_ ?_ ?_)
    | simp only [changes_mk]
    | with_reducible intro _
    | split
    | dsimp only [id])

theorem reserveAsk_changes_of {Q : List Block} {s0 : State} {q : ReqId} {n : Nat} {s : State} {tt : State} {c0 : _} (eq_ : reserveAsk q n s = (c0, tt)) (hq : subParts [.tier, .req] Q = true) (hk : OnlyChanges Q s0 s) : OnlyChanges Q s0 tt := by
  have := reserveAsk_changes (Q := Q) (s0 := s0) (q := q) (n := n) (s := s) hq hk
  rw [eq_] at this; exact this

theorem reserveAnswer_changes {Q : List Block} {s0 : State} {q : ReqId} {ok : Bool} {s : State} (hq : subParts [.codec, .tier, .req, .pair, .near, .rma, .links, .free, .out] Q = true) (hk : OnlyChanges Q s0 s) :
    OnlyChanges Q s0 (reserveAnswer q ok s) := by
  unfold reserveAnswer
  repeat' (first
    | with_reducible assumption
    | ((with_reducible refine .inr (subParts_mem hq ?_)); rfl)
    | with_reducible exact .inl rfl
    | with_reducible apply reserved_changes (hq := subParts_trans rfl hq)
    | with_reducible apply recallBegin_changes (hq := subParts_trans rfl hq)
    | with_reducible apply memberDrop_changes (hq := subParts_trans rfl hq)
    | with_reducible apply galleyUpd_changes (hq := subParts_trans rfl hq)
    | with_reducible apply quotaReturn_changes (hq := subParts_trans rfl hq)
    | with_reducible refine changes_ite ?_ ?_
    | (with_reducible refine changesParts_of ?_ ?_ ?_ ?_ ?_ ?_ ?_ ?_ ?_ ?_ ?_ ?_ ?_ ?_ ?_ ?_ ?_ ?_ ?_ ?_)
    | simp only [changes_mk]
    | with_reducible intro _
    | split
    | dsimp only [id])

theorem memberResume_changes {Q : List Block} {s0 : State} {m : StageResume} {s : State} (hq : subParts [.codec, .tier, .req, .pair, .near, .rma, .links, .free, .out] Q = true) (hk : OnlyChanges Q s0 s) :
    OnlyChanges Q s0 (memberResume m s) := by
  unfold memberResume
  repeat' (first
    | with_reducible assumption
    | ((with_reducible refine .inr (subParts_mem hq ?_)); rfl)
    | with_reducible exact .inl rfl
    | with_reducible apply recallStart_changes (hq := subParts_trans rfl hq)
    | with_reducible apply resumeReady_changes (hq := subParts_trans rfl hq)
    | with_reducible apply memberReset_changes (hq := subParts_trans rfl hq)
    | with_reducible apply galleyUpd_changes (hq := subParts_trans rfl hq)
    | with_reducible apply recUpd_changes (hq := subParts_trans rfl hq)
    | with_reducible apply sendFw_changes (hq := subParts_trans rfl hq)
    | with_reducible refine changes_ite ?_ ?_
    | (with_reducible refine changesParts_of ?_ ?_ ?_ ?_ ?_ ?_ ?_ ?_ ?_ ?_ ?_ ?_ ?_ ?_ ?_ ?_ ?_ ?_ ?_ ?_)
    | simp only [changes_mk]
    | with_reducible intro _
    | split
    | dsimp only [id])

theorem memberWithout_changes {Q : List Block} {s0 : State} {m : StageResume} {e : Route} {s : State} (hq : subParts [.tier, .req, .pair, .near, .rma, .links, .free, .out] Q = true) (hk : OnlyChanges Q s0 s) :
    OnlyChanges Q s0 (memberWithout m e s) := by
  unfold memberWithout
  repeat' (first
    | with_reducible assumption
    | ((with_reducible refine .inr (subParts_mem hq ?_)); rfl)
    | with_reducible exact .inl rfl
    | with_reducible apply resumeReady_changes (hq := subParts_trans rfl hq)
    | with_reducible apply memberAdmit_changes (hq := subParts_trans rfl hq)
    | with_reducible apply sendFw_changes (hq := subParts_trans rfl hq)
    | (with_reducible apply memberAdmit_changes_of (hq := subParts_trans rfl hq) (eq_ := by assumption))
    | with_reducible refine changes_ite ?_ ?_
    | (with_reducible refine changesParts_of ?_ ?_ ?_ ?_ ?_ ?_ ?_ ?_ ?_ ?_ ?_ ?_ ?_ ?_ ?_ ?_ ?_ ?_ ?_ ?_)
    | simp only [changes_mk]
    | with_reducible intro _
    | split
    | dsimp only [id])

theorem recordTo_changes {Q : List Block} {s0 : State} {q : ReqId} {s : State} (hq : subParts [.near, .links] Q = true) (hk : OnlyChanges Q s0 s) :
    OnlyChanges Q s0 (recordTo q s) := by
  unfold recordTo
  repeat' (first
    | with_reducible assumption
    | ((with_reducible refine .inr (subParts_mem hq ?_)); rfl)
    | with_reducible exact .inl rfl
    | with_reducible apply trayIssue_changes (hq := subParts_trans rfl hq)
    | with_reducible refine changes_ite ?_ ?_
    | (with_reducible refine changesParts_of ?_ ?_ ?_ ?_ ?_ ?_ ?_ ?_ ?_ ?_ ?_ ?_ ?_ ?_ ?_ ?_ ?_ ?_ ?_ ?_)
    | simp only [changes_mk]
    | with_reducible intro _
    | split
    | dsimp only [id])

theorem takeOverAt_changes {Q : List Block} {s0 : State} {m : StageResume} {e : Route} {s : State} (hq : subParts [.req, .near, .links, .free] Q = true) (hk : OnlyChanges Q s0 s) :
    OnlyChanges Q s0 (takeOverAt m e s) := by
  unfold takeOverAt
  repeat' (first
    | with_reducible assumption
    | ((with_reducible refine .inr (subParts_mem hq ?_)); rfl)
    | with_reducible exact .inl rfl
    | with_reducible apply recordTo_changes (hq := subParts_trans rfl hq)
    | with_reducible apply admissionPut_changes (hq := subParts_trans rfl hq)
    | with_reducible apply recUpd_changes (hq := subParts_trans rfl hq)
    | with_reducible refine changes_ite ?_ ?_
    | (with_reducible refine changesParts_of ?_ ?_ ?_ ?_ ?_ ?_ ?_ ?_ ?_ ?_ ?_ ?_ ?_ ?_ ?_ ?_ ?_ ?_ ?_ ?_)
    | simp only [changes_mk]
    | with_reducible intro _
    | split
    | dsimp only [id])

theorem takeOverDone_changes {Q : List Block} {s0 : State} {q : ReqId} {count : Nat} {s : State} (hq : subParts [.req] Q = true) (hk : OnlyChanges Q s0 s) :
    OnlyChanges Q s0 (takeOverDone q count s) := by
  unfold takeOverDone
  repeat' (first
    | with_reducible assumption
    | ((with_reducible refine .inr (subParts_mem hq ?_)); rfl)
    | with_reducible exact .inl rfl
    | with_reducible apply recUpd_changes (hq := subParts_trans rfl hq)
    | with_reducible refine changes_ite ?_ ?_
    | (with_reducible refine changesParts_of ?_ ?_ ?_ ?_ ?_ ?_ ?_ ?_ ?_ ?_ ?_ ?_ ?_ ?_ ?_ ?_ ?_ ?_ ?_ ?_)
    | simp only [changes_mk]
    | with_reducible intro _
    | split
    | dsimp only [id])

theorem takeOverAnswer_changes {Q : List Block} {s0 : State} {q : ReqId} {c : Status} {old : Nat} {s : State} (hq : subParts [.req] Q = true) (hk : OnlyChanges Q s0 s) :
    OnlyChanges Q s0 (takeOverAnswer q c old s) := by
  unfold takeOverAnswer
  repeat' (first
    | with_reducible assumption
    | ((with_reducible refine .inr (subParts_mem hq ?_)); rfl)
    | with_reducible exact .inl rfl
    | with_reducible apply takeOverDone_changes (hq := subParts_trans rfl hq)
    | with_reducible refine changes_ite ?_ ?_
    | (with_reducible refine changesParts_of ?_ ?_ ?_ ?_ ?_ ?_ ?_ ?_ ?_ ?_ ?_ ?_ ?_ ?_ ?_ ?_ ?_ ?_ ?_ ?_)
    | simp only [changes_mk]
    | with_reducible intro _
    | split
    | dsimp only [id])

theorem resumeStage_changes {Q : List Block} {s0 : State} {m : StageResume} {s : State} (hq : subParts [.codec, .tier, .req, .pair, .near, .rma, .links, .free, .out] Q = true) (hk : OnlyChanges Q s0 s) :
    OnlyChanges Q s0 (resumeStage m s) := by
  unfold resumeStage
  repeat' (first
    | with_reducible assumption
    | ((with_reducible refine .inr (subParts_mem hq ?_)); rfl)
    | with_reducible exact .inl rfl
    | with_reducible apply takeOverAt_changes (hq := subParts_trans rfl hq)
    | with_reducible apply memberWithout_changes (hq := subParts_trans rfl hq)
    | with_reducible apply memberResume_changes (hq := subParts_trans rfl hq)
    | with_reducible apply admissionPut_changes (hq := subParts_trans rfl hq)
    | with_reducible apply galleyUpd_changes (hq := subParts_trans rfl hq)
    | with_reducible apply recUpd_changes (hq := subParts_trans rfl hq)
    | with_reducible refine changes_ite ?_ ?_
    | (with_reducible refine changesParts_of ?_ ?_ ?_ ?_ ?_ ?_ ?_ ?_ ?_ ?_ ?_ ?_ ?_ ?_ ?_ ?_ ?_ ?_ ?_ ?_)
    | simp only [changes_mk]
    | with_reducible intro _
    | split
    | dsimp only [id])

theorem afterShelf_changes {Q : List Block} {s0 : State} {q : ReqId} {s : State} (hq : subParts [.codec, .tier, .req, .pair, .near, .rma, .links, .free, .out] Q = true) (hk : OnlyChanges Q s0 s) :
    OnlyChanges Q s0 (afterShelf q s) := by
  unfold afterShelf
  repeat' (first
    | with_reducible assumption
    | ((with_reducible refine .inr (subParts_mem hq ?_)); rfl)
    | with_reducible exact .inl rfl
    | with_reducible apply memberResume_changes (hq := subParts_trans rfl hq)
    | with_reducible apply resumeReady_changes (hq := subParts_trans rfl hq)
    | with_reducible apply memberDrop_changes (hq := subParts_trans rfl hq)
    | with_reducible refine changes_ite ?_ ?_
    | (with_reducible refine changesParts_of ?_ ?_ ?_ ?_ ?_ ?_ ?_ ?_ ?_ ?_ ?_ ?_ ?_ ?_ ?_ ?_ ?_ ?_ ?_ ?_)
    | simp only [changes_mk]
    | with_reducible intro _
    | split
    | dsimp only [id])

theorem ownerRecord_changes {Q : List Block} {s0 : State} {q : ReqId} {u : RecordUpdate} {s : State} (hq : subParts [.req, .near, .links] Q = true) (hk : OnlyChanges Q s0 s) :
    OnlyChanges Q s0 (ownerRecord q u s) := by
  unfold ownerRecord
  repeat' (first
    | with_reducible assumption
    | ((with_reducible refine .inr (subParts_mem hq ?_)); rfl)
    | with_reducible exact .inl rfl
    | with_reducible apply ownerSwapFrom_changes (hq := subParts_trans rfl hq)
    | with_reducible apply recUpd_changes (hq := subParts_trans rfl hq)
    | with_reducible refine changes_ite ?_ ?_
    | (with_reducible refine changesParts_of ?_ ?_ ?_ ?_ ?_ ?_ ?_ ?_ ?_ ?_ ?_ ?_ ?_ ?_ ?_ ?_ ?_ ?_ ?_ ?_)
    | simp only [changes_mk]
    | with_reducible intro _
    | split
    | dsimp only [id])

end Sys2Proof.Machine
end

