-- ==== Sys2Proof/Laws/ChangesAnchor.lean ====
section
/-!
SUPPORT. The blocks of the state that the operations of Sys2Proof/Machine/Anchor.lean may change.
-/

namespace Sys2Proof.Machine

theorem toStages_changes {Q : List Block} {s0 : State} {a : AnchorInfo} {e : Word} {m : FwMsg} {s : State}  (hq : subParts [.rma, .links, .out] Q = true) (hk : OnlyChanges Q s0 s) :
    OnlyChanges Q s0 (toStages a e m s) := by
  unfold toStages
  repeat' (first
    | with_reducible assumption
    | ((with_reducible refine .inr (subParts_mem hq ?_)); rfl)
    | with_reducible exact .inl rfl
    | with_reducible apply foldl_changes
    | with_reducible apply foldl_changes_fst
    | with_reducible apply foldl_changes_snd
    | with_reducible apply sendFw_changes (hq := subParts_trans rfl hq)
    | with_reducible refine changes_ite ?_ ?_
    | (with_reducible refine changesParts_of ?_ ?_ ?_ ?_ ?_ ?_ ?_ ?_ ?_ ?_ ?_ ?_ ?_ ?_ ?_ ?_ ?_ ?_ ?_ ?_)
    | simp only [changes_mk]
    | with_reducible intro _
    | split
    | dsimp only [id])

theorem anchorUpd_changes {Q : List Block} {s0 : State} {q : ReqId} {f : AnchorInfo → AnchorInfo} {s : State}  (hq : subParts [.req] Q = true) (hk : OnlyChanges Q s0 s) :
    OnlyChanges Q s0 (anchorUpd q f s) := by
  unfold anchorUpd
  repeat' (first
    | with_reducible assumption
    | ((with_reducible refine .inr (subParts_mem hq ?_)); rfl)
    | with_reducible exact .inl rfl
    | with_reducible refine changes_ite ?_ ?_
    | (with_reducible refine changesParts_of ?_ ?_ ?_ ?_ ?_ ?_ ?_ ?_ ?_ ?_ ?_ ?_ ?_ ?_ ?_ ?_ ?_ ?_ ?_ ?_)
    | simp only [changes_mk]
    | with_reducible intro _
    | split
    | dsimp only [id])

theorem seqAccept_changes {Q : List Block} {s0 : State} {c : Capsule} {s : State}  (hq : subParts [.sec] Q = true) (hk : OnlyChanges Q s0 s) :
    OnlyChanges Q s0 (seqAccept c s) := by
  unfold seqAccept
  repeat' (first
    | with_reducible assumption
    | ((with_reducible refine .inr (subParts_mem hq ?_)); rfl)
    | with_reducible exact .inl rfl
    | with_reducible refine changes_ite ?_ ?_
    | (with_reducible refine changesParts_of ?_ ?_ ?_ ?_ ?_ ?_ ?_ ?_ ?_ ?_ ?_ ?_ ?_ ?_ ?_ ?_ ?_ ?_ ?_ ?_)
    | simp only [changes_mk]
    | with_reducible intro _
    | split
    | dsimp only [id])

theorem authFail_changes {Q : List Block} {s0 : State} {s : State}  (hq : subParts [.dev, .sec] Q = true) (hk : OnlyChanges Q s0 s) :
    OnlyChanges Q s0 (authFail s) := by
  unfold authFail
  repeat' (first
    | with_reducible assumption
    | ((with_reducible refine .inr (subParts_mem hq ?_)); rfl)
    | with_reducible exact .inl rfl
    | with_reducible apply noteErr_changes (hq := subParts_trans rfl hq)
    | with_reducible refine changes_ite ?_ ?_
    | (with_reducible refine changesParts_of ?_ ?_ ?_ ?_ ?_ ?_ ?_ ?_ ?_ ?_ ?_ ?_ ?_ ?_ ?_ ?_ ?_ ?_ ?_ ?_)
    | simp only [changes_mk]
    | with_reducible intro _
    | split
    | dsimp only [id])

theorem capsuleRefuse_changes {Q : List Block} {s0 : State} {x : CapsuleCmd} {c : Status} {s : State}  (hq : subParts [.dev, .sec, .host, .out] Q = true) (hk : OnlyChanges Q s0 s) :
    OnlyChanges Q s0 (capsuleRefuse x c s) := by
  unfold capsuleRefuse
  repeat' (first
    | with_reducible assumption
    | ((with_reducible refine .inr (subParts_mem hq ?_)); rfl)
    | with_reducible exact .inl rfl
    | with_reducible apply authFail_changes (hq := subParts_trans rfl hq)
    | with_reducible apply postCq_changes (hq := subParts_trans rfl hq)
    | with_reducible refine changes_ite ?_ ?_
    | (with_reducible refine changesParts_of ?_ ?_ ?_ ?_ ?_ ?_ ?_ ?_ ?_ ?_ ?_ ?_ ?_ ?_ ?_ ?_ ?_ ?_ ?_ ?_)
    | simp only [changes_mk]
    | with_reducible intro _
    | split
    | dsimp only [id])

theorem admitStart_changes {Q : List Block} {s0 : State} {x : CapsuleCmd} {s : State} (hq : subParts [.sec, .host, .req, .rma, .links, .free, .out] Q = true) (hk : OnlyChanges Q s0 s) :
    OnlyChanges Q s0 (admitStart x s) := by
  unfold admitStart
  repeat' (first
    | with_reducible assumption
    | ((with_reducible refine .inr (subParts_mem hq ?_)); rfl)
    | with_reducible exact .inl rfl
    | with_reducible apply admitForward_changes (hq := subParts_trans rfl hq)
    | with_reducible apply recCreate_changes (hq := subParts_trans rfl hq)
    | with_reducible apply ringUpd_changes (hq := subParts_trans rfl hq)
    | with_reducible apply seqAccept_changes (hq := subParts_trans rfl hq)
    | with_reducible refine changes_ite ?_ ?_
    | (with_reducible refine changesParts_of ?_ ?_ ?_ ?_ ?_ ?_ ?_ ?_ ?_ ?_ ?_ ?_ ?_ ?_ ?_ ?_ ?_ ?_ ?_ ?_)
    | simp only [changes_mk]
    | with_reducible intro _
    | split
    | dsimp only [id])

theorem anchorFinish_changes {Q : List Block} {s0 : State} {q : ReqId} {s : State}  (hq : subParts [.dev, .sec, .host, .repro, .req, .out] Q = true) (hk : OnlyChanges Q s0 s) :
    OnlyChanges Q s0 (anchorFinish q s) := by
  unfold anchorFinish
  repeat' (first
    | with_reducible assumption
    | ((with_reducible refine .inr (subParts_mem hq ?_)); rfl)
    | with_reducible exact .inl rfl
    | with_reducible apply getD_changes
    | with_reducible apply postColophon_changes (hq := subParts_trans rfl hq)
    | with_reducible apply entryDone_changes (hq := subParts_trans rfl hq)
    | with_reducible apply recRetire_changes (hq := subParts_trans rfl hq)
    | with_reducible apply countLost_changes (hq := subParts_trans rfl hq)
    | with_reducible apply postCq_changes (hq := subParts_trans rfl hq)
    | with_reducible refine changes_ite ?_ ?_
    | (with_reducible refine changesParts_of ?_ ?_ ?_ ?_ ?_ ?_ ?_ ?_ ?_ ?_ ?_ ?_ ?_ ?_ ?_ ?_ ?_ ?_ ?_ ?_)
    | simp only [changes_mk]
    | with_reducible intro _
    | split
    | dsimp only [id])

theorem anchorEnd_changes {Q : List Block} {s0 : State} {q : ReqId} {c : Status} {s : State}  (hq : subParts [.req, .rma, .links, .out] Q = true) (hk : OnlyChanges Q s0 s) :
    OnlyChanges Q s0 (anchorEnd q c s) := by
  unfold anchorEnd
  repeat' (first
    | with_reducible assumption
    | ((with_reducible refine .inr (subParts_mem hq ?_)); rfl)
    | with_reducible exact .inl rfl
    | with_reducible apply anchorUpd_changes (hq := subParts_trans rfl hq)
    | with_reducible apply toStages_changes (hq := subParts_trans rfl hq)
    | with_reducible apply recUpd_changes (hq := subParts_trans rfl hq)
    | with_reducible refine changes_ite ?_ ?_
    | (with_reducible refine changesParts_of ?_ ?_ ?_ ?_ ?_ ?_ ?_ ?_ ?_ ?_ ?_ ?_ ?_ ?_ ?_ ?_ ?_ ?_ ?_ ?_)
    | simp only [changes_mk]
    | with_reducible intro _
    | split
    | dsimp only [id])

theorem anchorCancel_changes {Q : List Block} {s0 : State} {q : ReqId} {s : State}  (hq : subParts [.req, .rma, .links, .out] Q = true) (hk : OnlyChanges Q s0 s) :
    OnlyChanges Q s0 (anchorCancel q s) := by
  unfold anchorCancel
  repeat' (first
    | with_reducible assumption
    | ((with_reducible refine .inr (subParts_mem hq ?_)); rfl)
    | with_reducible exact .inl rfl
    | with_reducible apply getD_changes
    | with_reducible apply anchorUpd_changes (hq := subParts_trans rfl hq)
    | with_reducible apply toStages_changes (hq := subParts_trans rfl hq)
    | with_reducible apply recUpd_changes (hq := subParts_trans rfl hq)
    | with_reducible refine changes_ite ?_ ?_
    | (with_reducible refine changesParts_of ?_ ?_ ?_ ?_ ?_ ?_ ?_ ?_ ?_ ?_ ?_ ?_ ?_ ?_ ?_ ?_ ?_ ?_ ?_ ?_)
    | simp only [changes_mk]
    | with_reducible intro _
    | split
    | dsimp only [id])

theorem anchorPause_changes {Q : List Block} {s0 : State} {q : ReqId} {s : State}  (hq : subParts [.req, .rma, .links, .out] Q = true) (hk : OnlyChanges Q s0 s) :
    OnlyChanges Q s0 (anchorPause q s) := by
  unfold anchorPause
  repeat' (first
    | with_reducible assumption
    | ((with_reducible refine .inr (subParts_mem hq ?_)); rfl)
    | with_reducible exact .inl rfl
    | with_reducible apply toStages_changes (hq := subParts_trans rfl hq)
    | with_reducible apply recUpd_changes (hq := subParts_trans rfl hq)
    | with_reducible refine changes_ite ?_ ?_
    | (with_reducible refine changesParts_of ?_ ?_ ?_ ?_ ?_ ?_ ?_ ?_ ?_ ?_ ?_ ?_ ?_ ?_ ?_ ?_ ?_ ?_ ?_ ?_)
    | simp only [changes_mk]
    | with_reducible intro _
    | split
    | dsimp only [id])

theorem dropReportAt_changes {Q : List Block} {s0 : State} {rep : DropReport} {s : State}  (hq : subParts [.dev, .sec, .host, .repro, .req, .out] Q = true) (hk : OnlyChanges Q s0 s) :
    OnlyChanges Q s0 (dropReportAt rep s) := by
  unfold dropReportAt
  repeat' (first
    | with_reducible assumption
    | ((with_reducible refine .inr (subParts_mem hq ?_)); rfl)
    | with_reducible exact .inl rfl
    | with_reducible apply anchorFinish_changes (hq := subParts_trans rfl hq)
    | with_reducible apply anchorUpd_changes (hq := subParts_trans rfl hq)
    | with_reducible apply recUpd_changes (hq := subParts_trans rfl hq)
    | with_reducible refine changes_ite ?_ ?_
    | (with_reducible refine changesParts_of ?_ ?_ ?_ ?_ ?_ ?_ ?_ ?_ ?_ ?_ ?_ ?_ ?_ ?_ ?_ ?_ ?_ ?_ ?_ ?_)
    | simp only [changes_mk]
    | with_reducible intro _
    | split
    | dsimp only [id])

theorem resumeForward_changes {Q : List Block} {s0 : State} {q : ReqId} {restart : Bool} {cause : Byte} {s : State} (hq : subParts [.rma, .links, .out] Q = true) (hk : OnlyChanges Q s0 s) :
    OnlyChanges Q s0 (resumeForward q restart cause s) := by
  unfold resumeForward
  repeat' (first
    | with_reducible assumption
    | ((with_reducible refine .inr (subParts_mem hq ?_)); rfl)
    | with_reducible exact .inl rfl
    | with_reducible apply foldl_changes
    | with_reducible apply foldl_changes_fst
    | with_reducible apply foldl_changes_snd
    | with_reducible apply sendFw_changes (hq := subParts_trans rfl hq)
    | with_reducible refine changes_ite ?_ ?_
    | (with_reducible refine changesParts_of ?_ ?_ ?_ ?_ ?_ ?_ ?_ ?_ ?_ ?_ ?_ ?_ ?_ ?_ ?_ ?_ ?_ ?_ ?_ ?_)
    | simp only [changes_mk]
    | with_reducible intro _
    | split
    | dsimp only [id])

theorem resumeAccept_changes {Q : List Block} {s0 : State} {x : CapsuleCmd} {s : State}  (hq : subParts [.sec, .host, .req, .rma, .links, .out] Q = true) (hk : OnlyChanges Q s0 s) :
    OnlyChanges Q s0 (resumeAccept x s) := by
  unfold resumeAccept
  repeat' (first
    | with_reducible assumption
    | ((with_reducible refine .inr (subParts_mem hq ?_)); rfl)
    | with_reducible exact .inl rfl
    | with_reducible apply resumeForward_changes (hq := subParts_trans rfl hq)
    | with_reducible apply anchorUpd_changes (hq := subParts_trans rfl hq)
    | with_reducible apply seqAccept_changes (hq := subParts_trans rfl hq)
    | with_reducible apply postCq_changes (hq := subParts_trans rfl hq)
    | with_reducible apply recUpd_changes (hq := subParts_trans rfl hq)
    | with_reducible refine changes_ite ?_ ?_
    | (with_reducible refine changesParts_of ?_ ?_ ?_ ?_ ?_ ?_ ?_ ?_ ?_ ?_ ?_ ?_ ?_ ?_ ?_ ?_ ?_ ?_ ?_ ?_)
    | simp only [changes_mk]
    | with_reducible intro _
    | split
    | dsimp only [id])

theorem unshelved_changes {Q : List Block} {s0 : State} {q : ReqId} {s : State} (hq : subParts [.req] Q = true) (hk : OnlyChanges Q s0 s) :
    OnlyChanges Q s0 (unshelved q s) := by
  unfold unshelved
  repeat' (first
    | with_reducible assumption
    | ((with_reducible refine .inr (subParts_mem hq ?_)); rfl)
    | with_reducible exact .inl rfl
    | with_reducible apply recUpd_changes (hq := subParts_trans rfl hq)
    | with_reducible apply anchorUpd_changes (hq := subParts_trans rfl hq)
    | with_reducible refine changes_ite ?_ ?_
    | (with_reducible refine changesParts_of ?_ ?_ ?_ ?_ ?_ ?_ ?_ ?_ ?_ ?_ ?_ ?_ ?_ ?_ ?_ ?_ ?_ ?_ ?_ ?_)
    | simp only [changes_mk]
    | with_reducible intro _
    | split
    | dsimp only [id])

theorem anchorReprefill_changes {Q : List Block} {s0 : State} {q : ReqId} {cause : Byte} {s : State} (hq : subParts [.req, .rma, .links, .out] Q = true) (hk : OnlyChanges Q s0 s) :
    OnlyChanges Q s0 (anchorReprefill q cause s) := by
  unfold anchorReprefill
  repeat' (first
    | with_reducible assumption
    | ((with_reducible refine .inr (subParts_mem hq ?_)); rfl)
    | with_reducible exact .inl rfl
    | with_reducible apply recUpd_changes (hq := subParts_trans rfl hq)
    | with_reducible apply unshelved_changes (hq := subParts_trans rfl hq)
    | with_reducible apply resumeForward_changes (hq := subParts_trans rfl hq)
    | with_reducible apply anchorUpd_changes (hq := subParts_trans rfl hq)
    | with_reducible refine changes_ite ?_ ?_
    | (with_reducible refine changesParts_of ?_ ?_ ?_ ?_ ?_ ?_ ?_ ?_ ?_ ?_ ?_ ?_ ?_ ?_ ?_ ?_ ?_ ?_ ?_ ?_)
    | simp only [changes_mk]
    | with_reducible intro _
    | split
    | dsimp only [id])

theorem resumeFailed_changes {Q : List Block} {s0 : State} {q : ReqId} {c : Status} {d : DevId} {s : State} (hq : subParts [.req, .rma, .links, .out] Q = true) (hk : OnlyChanges Q s0 s) :
    OnlyChanges Q s0 (resumeFailed q c d s) := by
  unfold resumeFailed
  repeat' (first
    | with_reducible assumption
    | ((with_reducible refine .inr (subParts_mem hq ?_)); rfl)
    | with_reducible exact .inl rfl
    | with_reducible apply recUpd_changes (hq := subParts_trans rfl hq)
    | with_reducible apply anchorReprefill_changes (hq := subParts_trans rfl hq)
    | with_reducible apply anchorEnd_changes (hq := subParts_trans rfl hq)
    | with_reducible refine changes_ite ?_ ?_
    | (with_reducible refine changesParts_of ?_ ?_ ?_ ?_ ?_ ?_ ?_ ?_ ?_ ?_ ?_ ?_ ?_ ?_ ?_ ?_ ?_ ?_ ?_ ?_)
    | simp only [changes_mk]
    | with_reducible intro _
    | split
    | dsimp only [id])

theorem beginPrefill_changes {Q : List Block} {s0 : State} {q : ReqId} {start : Nat} {toks : List Word} {s : State}  (hq : subParts [.req] Q = true) (hk : OnlyChanges Q s0 s) :
    OnlyChanges Q s0 (beginPrefill q start toks s) := by
  unfold beginPrefill
  repeat' (first
    | with_reducible assumption
    | ((with_reducible refine .inr (subParts_mem hq ?_)); rfl)
    | with_reducible exact .inl rfl
    | with_reducible apply anchorUpd_changes (hq := subParts_trans rfl hq)
    | with_reducible refine changes_ite ?_ ?_
    | (with_reducible refine changesParts_of ?_ ?_ ?_ ?_ ?_ ?_ ?_ ?_ ?_ ?_ ?_ ?_ ?_ ?_ ?_ ?_ ?_ ?_ ?_ ?_)
    | simp only [changes_mk]
    | with_reducible intro _
    | split
    | dsimp only [id])

theorem refusedEnd_changes {Q : List Block} {s0 : State} {q : ReqId} {s : State} (hq : subParts [.host, .req, .out] Q = true) (hk : OnlyChanges Q s0 s) :
    OnlyChanges Q s0 (refusedEnd q s) := by
  unfold refusedEnd
  repeat' (first
    | with_reducible assumption
    | ((with_reducible refine .inr (subParts_mem hq ?_)); rfl)
    | with_reducible exact .inl rfl
    | with_reducible apply recFree_changes (hq := subParts_trans rfl hq)
    | with_reducible apply entryDone_changes (hq := subParts_trans rfl hq)
    | with_reducible apply postCq_changes (hq := subParts_trans rfl hq)
    | with_reducible refine changes_ite ?_ ?_
    | (with_reducible refine changesParts_of ?_ ?_ ?_ ?_ ?_ ?_ ?_ ?_ ?_ ?_ ?_ ?_ ?_ ?_ ?_ ?_ ?_ ?_ ?_ ?_)
    | simp only [changes_mk]
    | with_reducible intro _
    | split
    | dsimp only [id])

theorem releasedAt_changes {Q : List Block} {s0 : State} {q : ReqId} {d : DevId} {s : State} (hq : subParts [.host, .req, .out] Q = true) (hk : OnlyChanges Q s0 s) :
    OnlyChanges Q s0 (releasedAt q d s) := by
  unfold releasedAt
  repeat' (first
    | with_reducible assumption
    | ((with_reducible refine .inr (subParts_mem hq ?_)); rfl)
    | with_reducible exact .inl rfl
    | with_reducible apply refusedEnd_changes (hq := subParts_trans rfl hq)
    | with_reducible apply anchorUpd_changes (hq := subParts_trans rfl hq)
    | with_reducible refine changes_ite ?_ ?_
    | (with_reducible refine changesParts_of ?_ ?_ ?_ ?_ ?_ ?_ ?_ ?_ ?_ ?_ ?_ ?_ ?_ ?_ ?_ ?_ ?_ ?_ ?_ ?_)
    | simp only [changes_mk]
    | with_reducible intro _
    | split
    | dsimp only [id])

theorem shelvedAt_changes {Q : List Block} {s0 : State} {q : ReqId} {stage : Nat} {expiry : DWord} {s : State} (hq : subParts [.req] Q = true) (hk : OnlyChanges Q s0 s) :
    OnlyChanges Q s0 (shelvedAt q stage expiry s) := by
  unfold shelvedAt
  repeat' (first
    | with_reducible assumption
    | ((with_reducible refine .inr (subParts_mem hq ?_)); rfl)
    | with_reducible exact .inl rfl
    | with_reducible apply recUpd_changes (hq := subParts_trans rfl hq)
    | with_reducible apply anchorUpd_changes (hq := subParts_trans rfl hq)
    | with_reducible refine changes_ite ?_ ?_
    | (with_reducible refine changesParts_of ?_ ?_ ?_ ?_ ?_ ?_ ?_ ?_ ?_ ?_ ?_ ?_ ?_ ?_ ?_ ?_ ?_ ?_ ?_ ?_)
    | simp only [changes_mk]
    | with_reducible intro _
    | split
    | dsimp only [id])

theorem cancelAgain_changes {Q : List Block} {s0 : State} {q : ReqId} {s : State} (hq : subParts [.rma, .links, .out] Q = true) (hk : OnlyChanges Q s0 s) :
    OnlyChanges Q s0 (cancelAgain q s) := by
  unfold cancelAgain
  repeat' (first
    | with_reducible assumption
    | ((with_reducible refine .inr (subParts_mem hq ?_)); rfl)
    | with_reducible exact .inl rfl
    | with_reducible apply toStages_changes (hq := subParts_trans rfl hq)
    | with_reducible refine changes_ite ?_ ?_
    | (with_reducible refine changesParts_of ?_ ?_ ?_ ?_ ?_ ?_ ?_ ?_ ?_ ?_ ?_ ?_ ?_ ?_ ?_ ?_ ?_ ?_ ?_ ?_)
    | simp only [changes_mk]
    | with_reducible intro _
    | split
    | dsimp only [id])

theorem admitted_changes {Q : List Block} {s0 : State} {q : ReqId} {stage : Byte} {s : State} (hq : subParts [.host, .req, .rma, .links, .out] Q = true) (hk : OnlyChanges Q s0 s) :
    OnlyChanges Q s0 (admitted q stage s) := by
  unfold admitted
  repeat' (first
    | with_reducible assumption
    | ((with_reducible refine .inr (subParts_mem hq ?_)); rfl)
    | with_reducible exact .inl rfl
    | with_reducible apply recUpd_changes (hq := subParts_trans rfl hq)
    | with_reducible apply entryDone_changes (hq := subParts_trans rfl hq)
    | with_reducible apply postCq_changes (hq := subParts_trans rfl hq)
    | with_reducible apply cancelAgain_changes (hq := subParts_trans rfl hq)
    | with_reducible apply beginPrefill_changes (hq := subParts_trans rfl hq)
    | with_reducible apply anchorUpd_changes (hq := subParts_trans rfl hq)
    | with_reducible apply toStages_changes (hq := subParts_trans rfl hq)
    | with_reducible refine changes_ite ?_ ?_
    | (with_reducible refine changesParts_of ?_ ?_ ?_ ?_ ?_ ?_ ?_ ?_ ?_ ?_ ?_ ?_ ?_ ?_ ?_ ?_ ?_ ?_ ?_ ?_)
    | simp only [changes_mk]
    | with_reducible intro _
    | split
    | dsimp only [id])

theorem confirmAt_changes {Q : List Block} {s0 : State} {q : ReqId} {src : StageFrom} {pause : Option DropReport} {s : State} (hq : subParts [.dev, .sec, .host, .repro, .req, .rma, .links, .out] Q = true) (hk : OnlyChanges Q s0 s) :
    OnlyChanges Q s0 (confirmAt q src pause s) := by
  unfold confirmAt
  repeat' (first
    | with_reducible assumption
    | ((with_reducible refine .inr (subParts_mem hq ?_)); rfl)
    | with_reducible exact .inl rfl
    | with_reducible apply stageConfirmed_changes (hq := subParts_trans rfl hq)
    | with_reducible apply recUpd_changes (hq := subParts_trans rfl hq)
    | with_reducible apply postCq_changes (hq := subParts_trans rfl hq)
    | with_reducible apply postColophon_changes (hq := subParts_trans rfl hq)
    | with_reducible apply admitted_changes (hq := subParts_trans rfl hq)
    | with_reducible apply cancelAgain_changes (hq := subParts_trans rfl hq)
    | with_reducible apply shelvedAt_changes (hq := subParts_trans rfl hq)
    | with_reducible apply releasedAt_changes (hq := subParts_trans rfl hq)
    | with_reducible apply beginPrefill_changes (hq := subParts_trans rfl hq)
    | with_reducible apply unshelved_changes (hq := subParts_trans rfl hq)
    | with_reducible apply anchorUpd_changes (hq := subParts_trans rfl hq)
    | with_reducible refine changes_ite ?_ ?_
    | (with_reducible refine changesParts_of ?_ ?_ ?_ ?_ ?_ ?_ ?_ ?_ ?_ ?_ ?_ ?_ ?_ ?_ ?_ ?_ ?_ ?_ ?_ ?_)
    | simp only [changes_mk]
    | with_reducible intro _
    | split
    | dsimp only [id])

theorem refusalAt_changes {Q : List Block} {s0 : State} {q : ReqId} {c : Status} {d : DevId} {s : State} (hq : subParts [.host, .req, .rma, .links, .out] Q = true) (hk : OnlyChanges Q s0 s) :
    OnlyChanges Q s0 (refusalAt q c d s) := by
  unfold refusalAt
  repeat' (first
    | with_reducible assumption
    | ((with_reducible refine .inr (subParts_mem hq ?_)); rfl)
    | with_reducible exact .inl rfl
    | with_reducible apply recUpd_changes (hq := subParts_trans rfl hq)
    | with_reducible apply releasedAt_changes (hq := subParts_trans rfl hq)
    | with_reducible apply refusedEnd_changes (hq := subParts_trans rfl hq)
    | with_reducible apply anchorUpd_changes (hq := subParts_trans rfl hq)
    | with_reducible apply toStages_changes (hq := subParts_trans rfl hq)
    | with_reducible refine changes_ite ?_ ?_
    | (with_reducible refine changesParts_of ?_ ?_ ?_ ?_ ?_ ?_ ?_ ?_ ?_ ?_ ?_ ?_ ?_ ?_ ?_ ?_ ?_ ?_ ?_ ?_)
    | simp only [changes_mk]
    | with_reducible intro _
    | split
    | dsimp only [id])

theorem anchorSegment_changes {Q : List Block} {s0 : State} {q : ReqId} {commit : Nat} {s : State}  (hq : subParts [.req] Q = true) (hk : OnlyChanges Q s0 s) :
    OnlyChanges Q s0 (anchorSegment q commit s) := by
  unfold anchorSegment
  repeat' (first
    | with_reducible assumption
    | ((with_reducible refine .inr (subParts_mem hq ?_)); rfl)
    | with_reducible exact .inl rfl
    | with_reducible apply beginPrefill_changes (hq := subParts_trans rfl hq)
    | with_reducible apply anchorUpd_changes (hq := subParts_trans rfl hq)
    | with_reducible apply recUpd_changes (hq := subParts_trans rfl hq)
    | with_reducible refine changes_ite ?_ ?_
    | (with_reducible refine changesParts_of ?_ ?_ ?_ ?_ ?_ ?_ ?_ ?_ ?_ ?_ ?_ ?_ ?_ ?_ ?_ ?_ ?_ ?_ ?_ ?_)
    | simp only [changes_mk]
    | with_reducible intro _
    | split
    | dsimp only [id])

theorem anchorToken_changes {Q : List Block} {s0 : State} {m : TokenMsg} {s : State} (hq : subParts [.sec, .host, .req, .rma, .links, .out] Q = true) (hk : OnlyChanges Q s0 s) :
    OnlyChanges Q s0 (anchorToken m s) := by
  unfold anchorToken
  repeat' (first
    | with_reducible assumption
    | ((with_reducible refine .inr (subParts_mem hq ?_)); rfl)
    | with_reducible exact .inl rfl
    | with_reducible apply recUpd_changes (hq := subParts_trans rfl hq)
    | with_reducible apply postOut_changes (hq := subParts_trans rfl hq)
    | with_reducible apply anchorSegment_changes (hq := subParts_trans rfl hq)
    | with_reducible apply anchorPause_changes (hq := subParts_trans rfl hq)
    | with_reducible apply anchorUpd_changes (hq := subParts_trans rfl hq)
    | with_reducible refine changes_ite ?_ ?_
    | (with_reducible refine changesParts_of ?_ ?_ ?_ ?_ ?_ ?_ ?_ ?_ ?_ ?_ ?_ ?_ ?_ ?_ ?_ ?_ ?_ ?_ ?_ ?_)
    | simp only [changes_mk]
    | with_reducible intro _
    | split
    | dsimp only [id])

end Sys2Proof.Machine
end

