-- ==== Sys2Proof/Laws/ChangesCodecCtl.lean ====
section
/-!
SUPPORT. The blocks of the state that the operations of Sys2Proof/Machine/CodecCtl.lean may change.
-/

namespace Sys2Proof.Machine

theorem codecCode_changes {Q : List Block} {s0 : State} {c : Status} {s : State}  (hq : subParts [.codec] Q = true) (hk : OnlyChanges Q s0 s) :
    OnlyChanges Q s0 (codecCode c s) := by
  unfold codecCode
  repeat' (first
    | with_reducible assumption
    | ((with_reducible refine .inr (subParts_mem hq ?_)); rfl)
    | with_reducible exact .inl rfl
    | with_reducible refine changes_ite ?_ ?_
    | (with_reducible refine changesParts_of ?_ ?_ ?_ ?_ ?_ ?_ ?_ ?_ ?_ ?_ ?_ ?_ ?_ ?_ ?_ ?_ ?_ ?_ ?_ ?_)
    | simp only [changes_mk]
    | with_reducible intro _
    | split
    | dsimp only [id])

theorem codecCtl_changes {Q : List Block} {s0 : State} {w : CtlWrite} {own : Nat} {run : State → State} {s : State} (h_run : ∀ (u : State), OnlyChanges Q s0 u → OnlyChanges Q s0 (run u)) (hq : subParts [.codec] Q = true) (hk : OnlyChanges Q s0 s) :
    OnlyChanges Q s0 (codecCtl w own run s) := by
  unfold codecCtl
  repeat' (first
    | with_reducible assumption
    | ((with_reducible refine .inr (subParts_mem hq ?_)); rfl)
    | with_reducible exact .inl rfl
    | with_reducible apply codecCode_changes (hq := subParts_trans rfl hq)
    | with_reducible apply ctl_changes (hq := subParts_trans rfl hq)
    | with_reducible apply h_run
    | with_reducible refine changes_ite ?_ ?_
    | (with_reducible refine changesParts_of ?_ ?_ ?_ ?_ ?_ ?_ ?_ ?_ ?_ ?_ ?_ ?_ ?_ ?_ ?_ ?_ ?_ ?_ ?_ ?_)
    | simp only [changes_mk]
    | with_reducible intro _
    | split
    | dsimp only [id])

theorem tableWrite_changes {Q : List Block} {s0 : State} {a : CodecAsk} {s : State} (hq : subParts [.codec] Q = true) (hk : OnlyChanges Q s0 s) :
    OnlyChanges Q s0 (tableWrite a s) := by
  unfold tableWrite
  repeat' (first
    | with_reducible assumption
    | ((with_reducible refine .inr (subParts_mem hq ?_)); rfl)
    | with_reducible exact .inl rfl
    | with_reducible apply foldl_changes
    | with_reducible apply foldl_changes_fst
    | with_reducible apply foldl_changes_snd
    | with_reducible refine changes_ite ?_ ?_
    | (with_reducible refine changesParts_of ?_ ?_ ?_ ?_ ?_ ?_ ?_ ?_ ?_ ?_ ?_ ?_ ?_ ?_ ?_ ?_ ?_ ?_ ?_ ?_)
    | simp only [changes_mk]
    | with_reducible intro _
    | split
    | dsimp only [id])

theorem pairWide_changes {Q : List Block} {s0 : State} {table : Nat} {c : Status} {partner : PairAnswer} {apply : State → State} {s : State} (h_apply : ∀ (u : State), OnlyChanges Q s0 u → OnlyChanges Q s0 (apply u)) (hq : subParts [.codec] Q = true) (hk : OnlyChanges Q s0 s) :
    OnlyChanges Q s0 (pairWide table c partner apply s) := by
  unfold pairWide
  repeat' (first
    | with_reducible assumption
    | ((with_reducible refine .inr (subParts_mem hq ?_)); rfl)
    | with_reducible exact .inl rfl
    | with_reducible apply codecCode_changes (hq := subParts_trans rfl hq)
    | with_reducible apply h_apply
    | with_reducible refine changes_ite ?_ ?_
    | (with_reducible refine changesParts_of ?_ ?_ ?_ ?_ ?_ ?_ ?_ ?_ ?_ ?_ ?_ ?_ ?_ ?_ ?_ ?_ ?_ ?_ ?_ ?_)
    | simp only [changes_mk]
    | with_reducible intro _
    | split
    | dsimp only [id])

theorem pairApply_changes {Q : List Block} {s0 : State} {a : CodecAsk} {own : Status} {partner : Status} {apply : State → State} {s : State} (h_apply : ∀ (u : State), OnlyChanges Q s0 u → OnlyChanges Q s0 (apply u)) (hq : subParts [.codec] Q = true) (hk : OnlyChanges Q s0 s) :
    OnlyChanges Q s0 (pairApply a own partner apply s) := by
  unfold pairApply
  repeat' (first
    | with_reducible assumption
    | ((with_reducible refine .inr (subParts_mem hq ?_)); rfl)
    | with_reducible exact .inl rfl
    | with_reducible apply codecCode_changes (hq := subParts_trans rfl hq)
    | with_reducible apply h_apply
    | with_reducible refine changes_ite ?_ ?_
    | (with_reducible refine changesParts_of ?_ ?_ ?_ ?_ ?_ ?_ ?_ ?_ ?_ ?_ ?_ ?_ ?_ ?_ ?_ ?_ ?_ ?_ ?_ ?_)
    | simp only [changes_mk]
    | with_reducible intro _
    | split
    | dsimp only [id])

theorem execTableWrite_changes {Q : List Block} {s0 : State} {w : CtlWrite} {partner : PairAnswer} {s : State} {tt : State} (hq : subParts [.codec] Q = true) (hk : OnlyChanges Q s0 s) (eq_ : execTableWrite w partner s = .next tt) : OnlyChanges Q s0 tt := by
  unfold execTableWrite at eq_
  repeat' (first | split at eq_ | dsimp only at eq_)
  all_goals (first | (injection eq_ with eq_; subst eq_) | (cases eq_))
  repeat' (first
    | with_reducible assumption
    | ((with_reducible refine .inr (subParts_mem hq ?_)); rfl)
    | with_reducible exact .inl rfl
    | with_reducible apply pairApply_changes (hq := subParts_trans rfl hq)
    | with_reducible apply pairWide_changes (hq := subParts_trans rfl hq)
    | with_reducible apply tableWrite_changes (hq := subParts_trans rfl hq)
    | with_reducible apply codecCtl_changes (hq := subParts_trans rfl hq)
    | with_reducible refine changes_ite ?_ ?_
    | (with_reducible refine changesParts_of ?_ ?_ ?_ ?_ ?_ ?_ ?_ ?_ ?_ ?_ ?_ ?_ ?_ ?_ ?_ ?_ ?_ ?_ ?_ ?_)
    | simp only [changes_mk]
    | with_reducible intro _
    | split
    | dsimp only [id])

theorem switchSlot_changes {Q : List Block} {s0 : State} {a : CodecAsk} {s : State} (hq : subParts [.codec] Q = true) (hk : OnlyChanges Q s0 s) :
    OnlyChanges Q s0 (switchSlot a s) := by
  unfold switchSlot
  repeat' (first
    | with_reducible assumption
    | ((with_reducible refine .inr (subParts_mem hq ?_)); rfl)
    | with_reducible exact .inl rfl
    | with_reducible refine changes_ite ?_ ?_
    | (with_reducible refine changesParts_of ?_ ?_ ?_ ?_ ?_ ?_ ?_ ?_ ?_ ?_ ?_ ?_ ?_ ?_ ?_ ?_ ?_ ?_ ?_ ?_)
    | simp only [changes_mk]
    | with_reducible intro _
    | split
    | dsimp only [id])

theorem execSwitch_changes {Q : List Block} {s0 : State} {w : CtlWrite} {partner : PairAnswer} {s : State} {tt : State} (hq : subParts [.codec] Q = true) (hk : OnlyChanges Q s0 s) (eq_ : execSwitch w partner s = .next tt) : OnlyChanges Q s0 tt := by
  unfold execSwitch at eq_
  repeat' (first | split at eq_ | dsimp only at eq_)
  all_goals (first | (injection eq_ with eq_; subst eq_) | (cases eq_))
  repeat' (first
    | with_reducible assumption
    | ((with_reducible refine .inr (subParts_mem hq ?_)); rfl)
    | with_reducible exact .inl rfl
    | with_reducible apply switchSlot_changes (hq := subParts_trans rfl hq)
    | with_reducible apply pairApply_changes (hq := subParts_trans rfl hq)
    | with_reducible apply pairWide_changes (hq := subParts_trans rfl hq)
    | with_reducible apply codecCtl_changes (hq := subParts_trans rfl hq)
    | with_reducible refine changes_ite ?_ ?_
    | (with_reducible refine changesParts_of ?_ ?_ ?_ ?_ ?_ ?_ ?_ ?_ ?_ ?_ ?_ ?_ ?_ ?_ ?_ ?_ ?_ ?_ ?_ ?_)
    | simp only [changes_mk]
    | with_reducible intro _
    | split
    | dsimp only [id])

theorem execCodecClr_changes {Q : List Block} {s0 : State} {w : CtlWrite} {s : State}  (hq : subParts [.codec] Q = true) {tt : State} (hk : OnlyChanges Q s0 s) (eq_ : execCodecClr w s = .next tt) : OnlyChanges Q s0 tt := by
  unfold execCodecClr at eq_
  repeat' (first | split at eq_ | dsimp only at eq_)
  all_goals (first | (injection eq_ with eq_; subst eq_) | (cases eq_))
  repeat' (first
    | with_reducible assumption
    | ((with_reducible refine .inr (subParts_mem hq ?_)); rfl)
    | with_reducible exact .inl rfl
    | with_reducible apply codecCode_changes (hq := subParts_trans rfl hq)
    | with_reducible apply codecCtl_changes (hq := subParts_trans rfl hq)
    | with_reducible refine changes_ite ?_ ?_
    | (with_reducible refine changesParts_of ?_ ?_ ?_ ?_ ?_ ?_ ?_ ?_ ?_ ?_ ?_ ?_ ?_ ?_ ?_ ?_ ?_ ?_ ?_ ?_)
    | simp only [changes_mk]
    | with_reducible intro _
    | split
    | dsimp only [id])

end Sys2Proof.Machine
end

