-- ==== Sys2Proof/Laws/ChangesRmaOps.lean ====
section
/-!
SUPPORT. The blocks of the state that the operations of Sys2Proof/Machine/RmaOps.lean may change.
-/

namespace Sys2Proof.Machine

theorem qpUpd_changes {Q : List Block} {s0 : State} {n : Nat} {f : Qp → Qp} {s : State}  (hq : subParts [.rma] Q = true) (hk : OnlyChanges Q s0 s) :
    OnlyChanges Q s0 (qpUpd n f s) := by
  unfold qpUpd
  repeat' (first
    | with_reducible assumption
    | ((with_reducible refine .inr (subParts_mem hq ?_)); rfl)
    | with_reducible exact .inl rfl
    | with_reducible refine changes_ite ?_ ?_
    | (with_reducible refine changesParts_of ?_ ?_ ?_ ?_ ?_ ?_ ?_ ?_ ?_ ?_ ?_ ?_ ?_ ?_ ?_ ?_ ?_ ?_ ?_ ?_)
    | simp only [changes_mk]
    | with_reducible intro _
    | split
    | dsimp only [id])

theorem qpCompletion_changes {Q : List Block} {s0 : State} {q : Nat} {wrId : DWord} {c : Status} {opcode : Byte} {len : Nat} {src : DevId} {v : DWord} {s : State} (hq : subParts [.rma, .out] Q = true) (hk : OnlyChanges Q s0 s) :
    OnlyChanges Q s0 (qpCompletion q wrId c opcode len src v s) := by
  unfold qpCompletion
  repeat' (first
    | with_reducible assumption
    | ((with_reducible refine .inr (subParts_mem hq ?_)); rfl)
    | with_reducible exact .inl rfl
    | with_reducible apply qpUpd_changes (hq := subParts_trans rfl hq)
    | with_reducible apply msix_changes (hq := subParts_trans rfl hq)
    | with_reducible apply emit_changes (hq := subParts_trans rfl hq)
    | with_reducible refine changes_ite ?_ ?_
    | (with_reducible refine changesParts_of ?_ ?_ ?_ ?_ ?_ ?_ ?_ ?_ ?_ ?_ ?_ ?_ ?_ ?_ ?_ ?_ ?_ ?_ ?_ ?_)
    | simp only [changes_mk]
    | with_reducible intro _
    | split
    | dsimp only [id])

theorem flushDone_changes {Q : List Block} {s0 : State} {q : Nat} {fuel : Nat} {s : State} (hq : subParts [.rma, .out] Q = true) (hk : OnlyChanges Q s0 s) : OnlyChanges Q s0 (flushDone q fuel s) := by
  induction fuel generalizing s with
  | zero =>
    unfold flushDone
    repeat' (first
      | with_reducible assumption
      | ((with_reducible refine .inr (subParts_mem hq ?_)); rfl)
      | with_reducible exact .inl rfl
      | with_reducible apply qpCompletion_changes (hq := subParts_trans rfl hq)
      | with_reducible apply qpUpd_changes (hq := subParts_trans rfl hq)
      | with_reducible refine changes_ite ?_ ?_
      | (with_reducible refine changesParts_of ?_ ?_ ?_ ?_ ?_ ?_ ?_ ?_ ?_ ?_ ?_ ?_ ?_ ?_ ?_ ?_ ?_ ?_ ?_ ?_)
      | simp only [changes_mk]
      | with_reducible intro _
      | split
      | dsimp only [id])
  | succ _ ih =>
    unfold flushDone
    repeat' (first
      | with_reducible assumption
      | ((with_reducible refine .inr (subParts_mem hq ?_)); rfl)
      | with_reducible exact .inl rfl
      | with_reducible apply qpCompletion_changes (hq := subParts_trans rfl hq)
      | with_reducible apply qpUpd_changes (hq := subParts_trans rfl hq)
      | with_reducible refine changes_ite ?_ ?_
      | (with_reducible refine changesParts_of ?_ ?_ ?_ ?_ ?_ ?_ ?_ ?_ ?_ ?_ ?_ ?_ ?_ ?_ ?_ ?_ ?_ ?_ ?_ ?_)
      | simp only [changes_mk]
      | with_reducible apply ih
      | with_reducible intro _
      | split
      | dsimp only [id])

theorem qpFlush_changes {Q : List Block} {s0 : State} {q : Nat} {s : State}  (hq : subParts [.rma, .out] Q = true) (hk : OnlyChanges Q s0 s) :
    OnlyChanges Q s0 (qpFlush q s) := by
  unfold qpFlush
  repeat' (first
    | with_reducible assumption
    | ((with_reducible refine .inr (subParts_mem hq ?_)); rfl)
    | with_reducible exact .inl rfl
    | with_reducible apply flushDone_changes (hq := subParts_trans rfl hq)
    | with_reducible refine changes_ite ?_ ?_
    | (with_reducible refine changesParts_of ?_ ?_ ?_ ?_ ?_ ?_ ?_ ?_ ?_ ?_ ?_ ?_ ?_ ?_ ?_ ?_ ?_ ?_ ?_ ?_)
    | simp only [changes_mk]
    | with_reducible intro _
    | split
    | dsimp only [id])

theorem wrUpd_changes {Q : List Block} {s0 : State} {q : Nat} {i : Nat} {f : WrState → WrState} {s : State}  (hq : subParts [.rma] Q = true) (hk : OnlyChanges Q s0 s) :
    OnlyChanges Q s0 (wrUpd q i f s) := by
  unfold wrUpd
  repeat' (first
    | with_reducible assumption
    | ((with_reducible refine .inr (subParts_mem hq ?_)); rfl)
    | with_reducible exact .inl rfl
    | with_reducible apply qpUpd_changes (hq := subParts_trans rfl hq)
    | with_reducible refine changes_ite ?_ ?_
    | (with_reducible refine changesParts_of ?_ ?_ ?_ ?_ ?_ ?_ ?_ ?_ ?_ ?_ ?_ ?_ ?_ ?_ ?_ ?_ ?_ ?_ ?_ ?_)
    | simp only [changes_mk]
    | with_reducible intro _
    | split
    | dsimp only [id])

theorem wrDone_changes {Q : List Block} {s0 : State} {q : Nat} {i : Nat} {c : Status} {v : DWord} {s : State}  (hq : subParts [.rma] Q = true) (hk : OnlyChanges Q s0 s) :
    OnlyChanges Q s0 (wrDone q i c v s) := by
  unfold wrDone
  repeat' (first
    | with_reducible assumption
    | ((with_reducible refine .inr (subParts_mem hq ?_)); rfl)
    | with_reducible exact .inl rfl
    | with_reducible apply getD_changes
    | with_reducible apply wrUpd_changes (hq := subParts_trans rfl hq)
    | with_reducible refine changes_ite ?_ ?_
    | (with_reducible refine changesParts_of ?_ ?_ ?_ ?_ ?_ ?_ ?_ ?_ ?_ ?_ ?_ ?_ ?_ ?_ ?_ ?_ ?_ ?_ ?_ ?_)
    | simp only [changes_mk]
    | with_reducible intro _
    | split
    | dsimp only [id])

theorem ringEnds_changes {Q : List Block} {s0 : State} {q : Nat} {c : Status} {s : State} (hq : subParts [.rma, .free, .out] Q = true) (hk : OnlyChanges Q s0 s) :
    OnlyChanges Q s0 (ringEnds q c s) := by
  unfold ringEnds
  repeat' (first
    | with_reducible assumption
    | ((with_reducible refine .inr (subParts_mem hq ?_)); rfl)
    | with_reducible exact .inl rfl
    | with_reducible apply foldl_changes
    | with_reducible apply foldl_changes_fst
    | with_reducible apply foldl_changes_snd
    | with_reducible apply qpCompletion_changes (hq := subParts_trans rfl hq)
    | with_reducible apply qpUpd_changes (hq := subParts_trans rfl hq)
    | with_reducible apply bumpFree_changes (hq := subParts_trans rfl hq)
    | with_reducible refine changes_ite ?_ ?_
    | (with_reducible refine changesParts_of ?_ ?_ ?_ ?_ ?_ ?_ ?_ ?_ ?_ ?_ ?_ ?_ ?_ ?_ ?_ ?_ ?_ ?_ ?_ ?_)
    | simp only [changes_mk]
    | with_reducible intro _
    | split
    | dsimp only [id])

theorem qpError_changes {Q : List Block} {s0 : State} {q : Nat} {i : Option Nat} {c : Status} {s : State} (hq : subParts [.dev, .maint, .clusters, .sched, .req, .rma, .links, .free, .out] Q = true) (hk : OnlyChanges Q s0 s) :
    OnlyChanges Q s0 (qpError q i c s) := by
  unfold qpError
  repeat' (first
    | with_reducible assumption
    | ((with_reducible refine .inr (subParts_mem hq ?_)); rfl)
    | with_reducible exact .inl rfl
    | with_reducible apply foldl_changes
    | with_reducible apply foldl_changes_fst
    | with_reducible apply foldl_changes_snd
    | with_reducible apply getD_changes
    | with_reducible apply ringEnds_changes (hq := subParts_trans rfl hq)
    | with_reducible apply wrDone_changes (hq := subParts_trans rfl hq)
    | with_reducible apply qpFlush_changes (hq := subParts_trans rfl hq)
    | with_reducible apply qpCompletion_changes (hq := subParts_trans rfl hq)
    | with_reducible apply qpUpd_changes (hq := subParts_trans rfl hq)
    | with_reducible apply noteErr_changes (hq := subParts_trans rfl hq)
    | with_reducible apply breakChannels_changes (hq := subParts_trans rfl hq)
    | with_reducible refine changes_ite ?_ ?_
    | (with_reducible refine changesParts_of ?_ ?_ ?_ ?_ ?_ ?_ ?_ ?_ ?_ ?_ ?_ ?_ ?_ ?_ ?_ ?_ ?_ ?_ ?_ ?_)
    | simp only [changes_mk]
    | with_reducible intro _
    | split
    | dsimp only [id])

theorem fetchStart_changes {Q : List Block} {s0 : State} {q : Nat} {s : State}  (hq : subParts [.rma] Q = true) (hk : OnlyChanges Q s0 s) :
    OnlyChanges Q s0 (fetchStart q s) := by
  unfold fetchStart
  repeat' (first
    | with_reducible assumption
    | ((with_reducible refine .inr (subParts_mem hq ?_)); rfl)
    | with_reducible exact .inl rfl
    | with_reducible apply qpUpd_changes (hq := subParts_trans rfl hq)
    | with_reducible refine changes_ite ?_ ?_
    | (with_reducible refine changesParts_of ?_ ?_ ?_ ?_ ?_ ?_ ?_ ?_ ?_ ?_ ?_ ?_ ?_ ?_ ?_ ?_ ?_ ?_ ?_ ?_)
    | simp only [changes_mk]
    | with_reducible intro _
    | split
    | dsimp only [id])

theorem evictFor_changes {Q : List Block} {s0 : State} {half : Nat} {s : State} (hq : subParts [.rma, .out] Q = true) (hk : OnlyChanges Q s0 s) :
    OnlyChanges Q s0 (evictFor half s) := by
  unfold evictFor
  repeat' (first
    | with_reducible assumption
    | ((with_reducible refine .inr (subParts_mem hq ?_)); rfl)
    | with_reducible exact .inl rfl
    | with_reducible apply foldl_changes
    | with_reducible apply foldl_changes_fst
    | with_reducible apply foldl_changes_snd
    | with_reducible apply qpUpd_changes (hq := subParts_trans rfl hq)
    | with_reducible apply emit_changes (hq := subParts_trans rfl hq)
    | with_reducible refine changes_ite ?_ ?_
    | (with_reducible refine changesParts_of ?_ ?_ ?_ ?_ ?_ ?_ ?_ ?_ ?_ ?_ ?_ ?_ ?_ ?_ ?_ ?_ ?_ ?_ ?_ ?_)
    | simp only [changes_mk]
    | with_reducible intro _
    | split
    | dsimp only [id])

theorem qpMake_changes {Q : List Block} {s0 : State} {n : Nat} {x : Qp} {s : State} (hq : subParts [.rma, .out] Q = true) (hk : OnlyChanges Q s0 s) :
    OnlyChanges Q s0 (qpMake n x s) := by
  unfold qpMake
  repeat' (first
    | with_reducible assumption
    | ((with_reducible refine .inr (subParts_mem hq ?_)); rfl)
    | with_reducible exact .inl rfl
    | with_reducible apply evictFor_changes (hq := subParts_trans rfl hq)
    | with_reducible refine changes_ite ?_ ?_
    | (with_reducible refine changesParts_of ?_ ?_ ?_ ?_ ?_ ?_ ?_ ?_ ?_ ?_ ?_ ?_ ?_ ?_ ?_ ?_ ?_ ?_ ?_ ?_)
    | simp only [changes_mk]
    | with_reducible intro _
    | split
    | dsimp only [id])

theorem qpRearm_changes {Q : List Block} {s0 : State} {n : Nat} {s : State}  (hq : subParts [.rma] Q = true) (hk : OnlyChanges Q s0 s) :
    OnlyChanges Q s0 (qpRearm n s) := by
  unfold qpRearm
  repeat' (first
    | with_reducible assumption
    | ((with_reducible refine .inr (subParts_mem hq ?_)); rfl)
    | with_reducible exact .inl rfl
    | with_reducible apply qpUpd_changes (hq := subParts_trans rfl hq)
    | with_reducible refine changes_ite ?_ ?_
    | (with_reducible refine changesParts_of ?_ ?_ ?_ ?_ ?_ ?_ ?_ ?_ ?_ ?_ ?_ ?_ ?_ ?_ ?_ ?_ ?_ ?_ ?_ ?_)
    | simp only [changes_mk]
    | with_reducible intro _
    | split
    | dsimp only [id])

theorem rearmPeer_changes {Q : List Block} {s0 : State} {p : ChanPeer} {s : State} (hq : subParts [.rma] Q = true) (hk : OnlyChanges Q s0 s) :
    OnlyChanges Q s0 (rearmPeer p s) := by
  unfold rearmPeer
  repeat' (first
    | with_reducible assumption
    | ((with_reducible refine .inr (subParts_mem hq ?_)); rfl)
    | with_reducible exact .inl rfl
    | with_reducible apply qpRearm_changes (hq := subParts_trans rfl hq)
    | with_reducible refine changes_ite ?_ ?_
    | (with_reducible refine changesParts_of ?_ ?_ ?_ ?_ ?_ ?_ ?_ ?_ ?_ ?_ ?_ ?_ ?_ ?_ ?_ ?_ ?_ ?_ ?_ ?_)
    | simp only [changes_mk]
    | with_reducible intro _
    | split
    | dsimp only [id])

theorem qpPump_changes {Q : List Block} {s0 : State} {q : Nat} {a1 : Nat} {a2 : State} (hq : subParts [.rma, .links] Q = true) (hk : OnlyChanges Q s0 a2) :
    OnlyChanges Q s0 (qpPump q a1 a2) := by
  induction a1 generalizing a2 with
  | zero =>
    unfold qpPump
    repeat' (first
      | with_reducible assumption
      | ((with_reducible refine .inr (subParts_mem hq ?_)); rfl)
      | with_reducible exact .inl rfl
      | with_reducible apply fetchStart_changes (hq := subParts_trans rfl hq)
      | with_reducible apply wrUpd_changes (hq := subParts_trans rfl hq)
      | with_reducible apply qpUpd_changes (hq := subParts_trans rfl hq)
      | with_reducible apply podSend_changes (hq := subParts_trans rfl hq)
      | with_reducible refine changes_ite ?_ ?_
      | (with_reducible refine changesParts_of ?_ ?_ ?_ ?_ ?_ ?_ ?_ ?_ ?_ ?_ ?_ ?_ ?_ ?_ ?_ ?_ ?_ ?_ ?_ ?_)
      | simp only [changes_mk]
      | with_reducible intro _
      | split
      | dsimp only [id])
  | succ _ ih =>
    unfold qpPump
    repeat' (first
      | with_reducible assumption
      | ((with_reducible refine .inr (subParts_mem hq ?_)); rfl)
      | with_reducible exact .inl rfl
      | with_reducible apply fetchStart_changes (hq := subParts_trans rfl hq)
      | with_reducible apply wrUpd_changes (hq := subParts_trans rfl hq)
      | with_reducible apply qpUpd_changes (hq := subParts_trans rfl hq)
      | with_reducible apply podSend_changes (hq := subParts_trans rfl hq)
      | with_reducible refine changes_ite ?_ ?_
      | (with_reducible refine changesParts_of ?_ ?_ ?_ ?_ ?_ ?_ ?_ ?_ ?_ ?_ ?_ ?_ ?_ ?_ ?_ ?_ ?_ ?_ ?_ ?_)
      | simp only [changes_mk]
      | with_reducible apply ih
      | with_reducible intro _
      | split
      | dsimp only [id])

theorem qpSend_changes {Q : List Block} {s0 : State} {q : Nat} {s : State}  (hq : subParts [.rma, .links] Q = true) (hk : OnlyChanges Q s0 s) :
    OnlyChanges Q s0 (qpSend q s) := by
  unfold qpSend
  repeat' (first
    | with_reducible assumption
    | ((with_reducible refine .inr (subParts_mem hq ?_)); rfl)
    | with_reducible exact .inl rfl
    | with_reducible apply qpPump_changes (hq := subParts_trans rfl hq)
    | with_reducible refine changes_ite ?_ ?_
    | (with_reducible refine changesParts_of ?_ ?_ ?_ ?_ ?_ ?_ ?_ ?_ ?_ ?_ ?_ ?_ ?_ ?_ ?_ ?_ ?_ ?_ ?_ ?_)
    | simp only [changes_mk]
    | with_reducible intro _
    | split
    | dsimp only [id])

theorem dataSend_changes {Q : List Block} {s0 : State} {m : PodHdr × List Byte} {s : State} (hq : subParts [.repro, .rma, .links] Q = true) (hk : OnlyChanges Q s0 s) :
    OnlyChanges Q s0 (dataSend m s) := by
  unfold dataSend
  repeat' (first
    | with_reducible assumption
    | ((with_reducible refine .inr (subParts_mem hq ?_)); rfl)
    | with_reducible exact .inl rfl
    | with_reducible apply podSend_changes (hq := subParts_trans rfl hq)
    | with_reducible refine changes_ite ?_ ?_
    | (with_reducible refine changesParts_of ?_ ?_ ?_ ?_ ?_ ?_ ?_ ?_ ?_ ?_ ?_ ?_ ?_ ?_ ?_ ?_ ?_ ?_ ?_ ?_)
    | simp only [changes_mk]
    | with_reducible intro _
    | split
    | dsimp only [id])

theorem dataDrain_changes {Q : List Block} {s0 : State} {s : State} (hq : subParts [.repro, .rma, .links] Q = true) (hk : OnlyChanges Q s0 s) :
    OnlyChanges Q s0 (dataDrain s) := by
  unfold dataDrain
  repeat' (first
    | with_reducible assumption
    | ((with_reducible refine .inr (subParts_mem hq ?_)); rfl)
    | with_reducible exact .inl rfl
    | with_reducible apply foldl_changes
    | with_reducible apply foldl_changes_fst
    | with_reducible apply foldl_changes_snd
    | with_reducible apply dataSend_changes (hq := subParts_trans rfl hq)
    | with_reducible refine changes_ite ?_ ?_
    | (with_reducible refine changesParts_of ?_ ?_ ?_ ?_ ?_ ?_ ?_ ?_ ?_ ?_ ?_ ?_ ?_ ?_ ?_ ?_ ?_ ?_ ?_ ?_)
    | simp only [changes_mk]
    | with_reducible intro _
    | split
    | dsimp only [id])

theorem fwDrain_changes {Q : List Block} {s0 : State} {s : State} (hq : subParts [.rma, .links] Q = true) (hk : OnlyChanges Q s0 s) :
    OnlyChanges Q s0 (fwDrain s) := by
  unfold fwDrain
  repeat' (first
    | with_reducible assumption
    | ((with_reducible refine .inr (subParts_mem hq ?_)); rfl)
    | with_reducible exact .inl rfl
    | with_reducible apply foldl_changes
    | with_reducible apply foldl_changes_fst
    | with_reducible apply foldl_changes_snd
    | with_reducible apply sendPod_changes (hq := subParts_trans rfl hq)
    | with_reducible refine changes_ite ?_ ?_
    | (with_reducible refine changesParts_of ?_ ?_ ?_ ?_ ?_ ?_ ?_ ?_ ?_ ?_ ?_ ?_ ?_ ?_ ?_ ?_ ?_ ?_ ?_ ?_)
    | simp only [changes_mk]
    | with_reducible intro _
    | split
    | dsimp only [id])

theorem farDrained_changes {Q : List Block} {s0 : State} {s : State}  (hq : subParts [.links] Q = true) (hk : OnlyChanges Q s0 s) :
    OnlyChanges Q s0 (farDrained s) := by
  unfold farDrained
  repeat' (first
    | with_reducible assumption
    | ((with_reducible refine .inr (subParts_mem hq ?_)); rfl)
    | with_reducible exact .inl rfl
    | with_reducible apply foldl_changes
    | with_reducible apply foldl_changes_fst
    | with_reducible apply foldl_changes_snd
    | with_reducible apply linkUpd_changes (hq := subParts_trans rfl hq)
    | with_reducible refine changes_ite ?_ ?_
    | (with_reducible refine changesParts_of ?_ ?_ ?_ ?_ ?_ ?_ ?_ ?_ ?_ ?_ ?_ ?_ ?_ ?_ ?_ ?_ ?_ ?_ ?_ ?_)
    | simp only [changes_mk]
    | with_reducible intro _
    | split
    | dsimp only [id])

theorem rmaPump_changes {Q : List Block} {s0 : State} {s : State} (hq : subParts [.repro, .rma, .links] Q = true) (hk : OnlyChanges Q s0 s) :
    OnlyChanges Q s0 (rmaPump s) := by
  unfold rmaPump
  repeat' (first
    | with_reducible assumption
    | ((with_reducible refine .inr (subParts_mem hq ?_)); rfl)
    | with_reducible exact .inl rfl
    | with_reducible apply foldl_changes
    | with_reducible apply foldl_changes_fst
    | with_reducible apply foldl_changes_snd
    | with_reducible apply fwDrain_changes (hq := subParts_trans rfl hq)
    | with_reducible apply dataDrain_changes (hq := subParts_trans rfl hq)
    | with_reducible apply qpSend_changes (hq := subParts_trans rfl hq)
    | with_reducible refine changes_ite ?_ ?_
    | (with_reducible refine changesParts_of ?_ ?_ ?_ ?_ ?_ ?_ ?_ ?_ ?_ ?_ ?_ ?_ ?_ ?_ ?_ ?_ ?_ ?_ ?_ ?_)
    | simp only [changes_mk]
    | with_reducible intro _
    | split
    | dsimp only [id])

theorem qpPost_changes {Q : List Block} {s0 : State} {q : Nat} {w : WrState} {s : State}  (hq : subParts [.rma, .links, .out] Q = true) (hk : OnlyChanges Q s0 s) :
    OnlyChanges Q s0 (qpPost q w s) := by
  unfold qpPost
  repeat' (first
    | with_reducible assumption
    | ((with_reducible refine .inr (subParts_mem hq ?_)); rfl)
    | with_reducible exact .inl rfl
    | with_reducible apply qpFlush_changes (hq := subParts_trans rfl hq)
    | with_reducible apply qpSend_changes (hq := subParts_trans rfl hq)
    | with_reducible apply qpUpd_changes (hq := subParts_trans rfl hq)
    | with_reducible refine changes_ite ?_ ?_
    | (with_reducible refine changesParts_of ?_ ?_ ?_ ?_ ?_ ?_ ?_ ?_ ?_ ?_ ?_ ?_ ?_ ?_ ?_ ?_ ?_ ?_ ?_ ?_)
    | simp only [changes_mk]
    | with_reducible intro _
    | split
    | dsimp only [id])

theorem chanPost_changes {Q : List Block} {s0 : State} {q : Nat} {dev : DevId} {peer : QpNum} {slot : Nat} {m : List Byte} {tenant : Option (BitVec 16)} {s : State} (hq : subParts [.rma, .links, .out] Q = true) (hk : OnlyChanges Q s0 s) :
    OnlyChanges Q s0 (chanPost q dev peer slot m tenant s) := by
  unfold chanPost
  repeat' (first
    | with_reducible assumption
    | ((with_reducible refine .inr (subParts_mem hq ?_)); rfl)
    | with_reducible exact .inl rfl
    | with_reducible apply qpPost_changes (hq := subParts_trans rfl hq)
    | with_reducible refine changes_ite ?_ ?_
    | (with_reducible refine changesParts_of ?_ ?_ ?_ ?_ ?_ ?_ ?_ ?_ ?_ ?_ ?_ ?_ ?_ ?_ ?_ ?_ ?_ ?_ ?_ ?_)
    | simp only [changes_mk]
    | with_reducible intro _
    | split
    | dsimp only [id])

theorem raiseFault_changes {Q : List Block} {s0 : State} {k : Word} {kind : Byte} {page : Nat} {s : State} (hq : subParts [.host, .rma, .out] Q = true) (hk : OnlyChanges Q s0 s) :
    OnlyChanges Q s0 (raiseFault k kind page s) := by
  unfold raiseFault
  repeat' (first
    | with_reducible assumption
    | ((with_reducible refine .inr (subParts_mem hq ?_)); rfl)
    | with_reducible exact .inl rfl
    | with_reducible apply faultRecord_changes (hq := subParts_trans rfl hq)
    | with_reducible refine changes_ite ?_ ?_
    | (with_reducible refine changesParts_of ?_ ?_ ?_ ?_ ?_ ?_ ?_ ?_ ?_ ?_ ?_ ?_ ?_ ?_ ?_ ?_ ?_ ?_ ?_ ?_)
    | simp only [changes_mk]
    | with_reducible intro _
    | split
    | dsimp only [id])

end Sys2Proof.Machine
end

