-- ==== Sys2Proof/Laws/ChangesSilver.lean ====
section
/-!
SUPPORT. The blocks of the state that the operations of Sys2Proof/Machine/Silver.lean may change.
-/

namespace Sys2Proof.Machine

theorem silverPage_changes {Q : List Block} {s0 : State} {q : ReqId} {k : Nat} {l : Nat} {p : Nat} {reads : ReadOutcome} {s : State} (hq : subParts [.dev, .maint, .forme, .codec, .tier, .sched, .req, .pair, .near, .rma, .links, .out] Q = true) (hk : OnlyChanges Q s0 s) :
    OnlyChanges Q s0 (silverPage q k l p reads s) := by
  unfold silverPage
  repeat' (first
    | with_reducible assumption
    | ((with_reducible refine .inr (subParts_mem hq ?_)); rfl)
    | with_reducible exact .inl rfl
    | with_reducible apply foldl_changes
    | with_reducible apply foldl_changes_fst
    | with_reducible apply foldl_changes_snd
    | with_reducible apply meterT2_changes (hq := subParts_trans rfl hq)
    | with_reducible apply meterT1_changes (hq := subParts_trans rfl hq)
    | with_reducible apply moverRead_changes (hq := subParts_trans rfl hq)
    | with_reducible apply journal_changes (hq := subParts_trans rfl hq)
    | with_reducible apply pageUpd_changes (hq := subParts_trans rfl hq)
    | with_reducible apply trayIssue_changes (hq := subParts_trans rfl hq)
    | (with_reducible apply moverRead_changes_of (hq := subParts_trans rfl hq) (eq_ := by assumption))
    | with_reducible refine changes_ite ?_ ?_
    | (with_reducible refine changesParts_of ?_ ?_ ?_ ?_ ?_ ?_ ?_ ?_ ?_ ?_ ?_ ?_ ?_ ?_ ?_ ?_ ?_ ?_ ?_ ?_)
    | simp only [changes_mk]
    | with_reducible intro _
    | split
    | dsimp only [id])

theorem silverMap_changes {Q : List Block} {s0 : State} {q : ReqId} {released : Bool} {s : State} (hq : subParts [.req, .pair, .near, .links] Q = true) (hk : OnlyChanges Q s0 s) :
    OnlyChanges Q s0 (silverMap q released s) := by
  unfold silverMap
  repeat' (first
    | with_reducible assumption
    | ((with_reducible refine .inr (subParts_mem hq ?_)); rfl)
    | with_reducible exact .inl rfl
    | with_reducible apply foldl_changes
    | with_reducible apply foldl_changes_fst
    | with_reducible apply foldl_changes_snd
    | with_reducible apply galleyUpd_changes (hq := subParts_trans rfl hq)
    | with_reducible apply journal_changes (hq := subParts_trans rfl hq)
    | with_reducible apply trayIssue_changes (hq := subParts_trans rfl hq)
    | with_reducible refine changes_ite ?_ ?_
    | (with_reducible refine changesParts_of ?_ ?_ ?_ ?_ ?_ ?_ ?_ ?_ ?_ ?_ ?_ ?_ ?_ ?_ ?_ ?_ ?_ ?_ ?_ ?_)
    | simp only [changes_mk]
    | with_reducible intro _
    | split
    | dsimp only [id])

theorem silverHold_changes {Q : List Block} {s0 : State} {q : ReqId} {reads : ReadOutcome} {s : State} (hq : subParts [.dev, .maint, .forme, .codec, .tier, .sched, .req, .pair, .near, .rma, .links, .out] Q = true) (hk : OnlyChanges Q s0 s) :
    OnlyChanges Q s0 (silverHold q reads s) := by
  unfold silverHold
  repeat' (first
    | with_reducible assumption
    | ((with_reducible refine .inr (subParts_mem hq ?_)); rfl)
    | with_reducible exact .inl rfl
    | with_reducible apply foldl_changes
    | with_reducible apply foldl_changes_fst
    | with_reducible apply foldl_changes_snd
    | with_reducible apply silverMap_changes (hq := subParts_trans rfl hq)
    | with_reducible apply silverPage_changes (hq := subParts_trans rfl hq)
    | with_reducible apply galleyUpd_changes (hq := subParts_trans rfl hq)
    | with_reducible refine changes_ite ?_ ?_
    | (with_reducible refine changesParts_of ?_ ?_ ?_ ?_ ?_ ?_ ?_ ?_ ?_ ?_ ?_ ?_ ?_ ?_ ?_ ?_ ?_ ?_ ?_ ?_)
    | simp only [changes_mk]
    | with_reducible intro _
    | split
    | dsimp only [id])

theorem ckptAsk_changes {Q : List Block} {s0 : State} {final : Bool} {s : State}  (hq : subParts [.pair, .near, .links] Q = true) (hk : OnlyChanges Q s0 s) :
    OnlyChanges Q s0 (ckptAsk final s) := by
  unfold ckptAsk
  repeat' (first
    | with_reducible assumption
    | ((with_reducible refine .inr (subParts_mem hq ?_)); rfl)
    | with_reducible exact .inl rfl
    | with_reducible apply trayIssue_changes (hq := subParts_trans rfl hq)
    | with_reducible refine changes_ite ?_ ?_
    | (with_reducible refine changesParts_of ?_ ?_ ?_ ?_ ?_ ?_ ?_ ?_ ?_ ?_ ?_ ?_ ?_ ?_ ?_ ?_ ?_ ?_ ?_ ?_)
    | simp only [changes_mk]
    | with_reducible intro _
    | split
    | dsimp only [id])

theorem silverPump_changes {Q : List Block} {s0 : State} {reads : ReadOutcome} {a1 : Nat} {a2 : State} (hq : subParts [.dev, .maint, .forme, .codec, .tier, .sched, .req, .pair, .near, .rma, .links, .out] Q = true) (hk : OnlyChanges Q s0 a2) :
    OnlyChanges Q s0 (silverPump reads a1 a2) := by
  induction a1 generalizing a2 with
  | zero =>
    unfold silverPump
    repeat' (first
      | with_reducible assumption
      | ((with_reducible refine .inr (subParts_mem hq ?_)); rfl)
      | with_reducible exact .inl rfl
      | with_reducible apply ckptAsk_changes (hq := subParts_trans rfl hq)
      | with_reducible apply silverHold_changes (hq := subParts_trans rfl hq)
      | with_reducible apply silverMap_changes (hq := subParts_trans rfl hq)
      | with_reducible apply silverPage_changes (hq := subParts_trans rfl hq)
      | with_reducible apply galleyUpd_changes (hq := subParts_trans rfl hq)
      | with_reducible refine changes_ite ?_ ?_
      | (with_reducible refine changesParts_of ?_ ?_ ?_ ?_ ?_ ?_ ?_ ?_ ?_ ?_ ?_ ?_ ?_ ?_ ?_ ?_ ?_ ?_ ?_ ?_)
      | simp only [changes_mk]
      | with_reducible intro _
      | split
      | dsimp only [id])
  | succ _ ih =>
    unfold silverPump
    repeat' (first
      | with_reducible assumption
      | ((with_reducible refine .inr (subParts_mem hq ?_)); rfl)
      | with_reducible exact .inl rfl
      | with_reducible apply ckptAsk_changes (hq := subParts_trans rfl hq)
      | with_reducible apply silverHold_changes (hq := subParts_trans rfl hq)
      | with_reducible apply silverMap_changes (hq := subParts_trans rfl hq)
      | with_reducible apply silverPage_changes (hq := subParts_trans rfl hq)
      | with_reducible apply galleyUpd_changes (hq := subParts_trans rfl hq)
      | with_reducible refine changes_ite ?_ ?_
      | (with_reducible refine changesParts_of ?_ ?_ ?_ ?_ ?_ ?_ ?_ ?_ ?_ ?_ ?_ ?_ ?_ ?_ ?_ ?_ ?_ ?_ ?_ ?_)
      | simp only [changes_mk]
      | with_reducible apply ih
      | with_reducible intro _
      | split
      | dsimp only [id])

theorem silverRun_changes {Q : List Block} {s0 : State} {reads : ReadOutcome} {s : State} (hq : subParts [.dev, .maint, .forme, .codec, .tier, .sched, .req, .pair, .near, .rma, .links, .out] Q = true) (hk : OnlyChanges Q s0 s) :
    OnlyChanges Q s0 (silverRun reads s) := by
  unfold silverRun
  repeat' (first
    | with_reducible assumption
    | ((with_reducible refine .inr (subParts_mem hq ?_)); rfl)
    | with_reducible exact .inl rfl
    | with_reducible apply silverPump_changes (hq := subParts_trans rfl hq)
    | with_reducible apply readOutcome_changes (hq := subParts_trans rfl hq)
    | (with_reducible apply readOutcome_changes_of (hq := subParts_trans rfl hq) (eq_ := by assumption))
    | with_reducible refine changes_ite ?_ ?_
    | (with_reducible refine changesParts_of ?_ ?_ ?_ ?_ ?_ ?_ ?_ ?_ ?_ ?_ ?_ ?_ ?_ ?_ ?_ ?_ ?_ ?_ ?_ ?_)
    | simp only [changes_mk]
    | with_reducible intro _
    | split
    | dsimp only [id])

theorem silverClear_changes {Q : List Block} {s0 : State} {s : State}  (hq : subParts [.req] Q = true) (hk : OnlyChanges Q s0 s) :
    OnlyChanges Q s0 (silverClear s) := by
  unfold silverClear
  repeat' (first
    | with_reducible assumption
    | ((with_reducible refine .inr (subParts_mem hq ?_)); rfl)
    | with_reducible exact .inl rfl
    | with_reducible refine changes_ite ?_ ?_
    | (with_reducible refine changesParts_of ?_ ?_ ?_ ?_ ?_ ?_ ?_ ?_ ?_ ?_ ?_ ?_ ?_ ?_ ?_ ?_ ?_ ?_ ?_ ?_)
    | simp only [changes_mk]
    | with_reducible intro _
    | split
    | dsimp only [id])

theorem pairState_changes {Q : List Block} {s0 : State} {st : BitVec 4} {s : State} (hq : subParts [.pair] Q = true) (hk : OnlyChanges Q s0 s) :
    OnlyChanges Q s0 (pairState st s) := by
  unfold pairState
  repeat' (first
    | with_reducible assumption
    | ((with_reducible refine .inr (subParts_mem hq ?_)); rfl)
    | with_reducible exact .inl rfl
    | with_reducible refine changes_ite ?_ ?_
    | (with_reducible refine changesParts_of ?_ ?_ ?_ ?_ ?_ ?_ ?_ ?_ ?_ ?_ ?_ ?_ ?_ ?_ ?_ ?_ ?_ ?_ ?_ ?_)
    | simp only [changes_mk]
    | with_reducible intro _
    | split
    | dsimp only [id])

theorem silverCode_changes {Q : List Block} {s0 : State} {c : Status} {s : State}  (hq : subParts [.dev, .pair] Q = true) (hk : OnlyChanges Q s0 s) :
    OnlyChanges Q s0 (silverCode c s) := by
  unfold silverCode
  repeat' (first
    | with_reducible assumption
    | ((with_reducible refine .inr (subParts_mem hq ?_)); rfl)
    | with_reducible exact .inl rfl
    | with_reducible apply noteErr_changes (hq := subParts_trans rfl hq)
    | with_reducible refine changes_ite ?_ ?_
    | (with_reducible refine changesParts_of ?_ ?_ ?_ ?_ ?_ ?_ ?_ ?_ ?_ ?_ ?_ ?_ ?_ ?_ ?_ ?_ ?_ ?_ ?_ ?_)
    | simp only [changes_mk]
    | with_reducible intro _
    | split
    | dsimp only [id])

theorem freeAllGalleys_changes {Q : List Block} {s0 : State} {s : State}  (hq : subParts [.codec, .tier, .req] Q = true) (hk : OnlyChanges Q s0 s) :
    OnlyChanges Q s0 (freeAllGalleys s) := by
  unfold freeAllGalleys
  repeat' (first
    | with_reducible assumption
    | ((with_reducible refine .inr (subParts_mem hq ?_)); rfl)
    | with_reducible exact .inl rfl
    | with_reducible apply foldl_changes
    | with_reducible apply foldl_changes_fst
    | with_reducible apply foldl_changes_snd
    | with_reducible apply freeGalley_changes (hq := subParts_trans rfl hq)
    | with_reducible refine changes_ite ?_ ?_
    | (with_reducible refine changesParts_of ?_ ?_ ?_ ?_ ?_ ?_ ?_ ?_ ?_ ?_ ?_ ?_ ?_ ?_ ?_ ?_ ?_ ?_ ?_ ?_)
    | simp only [changes_mk]
    | with_reducible intro _
    | split
    | dsimp only [id])

theorem freeMemberRecs_changes {Q : List Block} {s0 : State} {s : State}  (hq : subParts [.req] Q = true) (hk : OnlyChanges Q s0 s) :
    OnlyChanges Q s0 (freeMemberRecs s) := by
  unfold freeMemberRecs
  repeat' (first
    | with_reducible assumption
    | ((with_reducible refine .inr (subParts_mem hq ?_)); rfl)
    | with_reducible exact .inl rfl
    | with_reducible apply foldl_changes
    | with_reducible apply foldl_changes_fst
    | with_reducible apply foldl_changes_snd
    | with_reducible apply recFree_changes (hq := subParts_trans rfl hq)
    | with_reducible refine changes_ite ?_ ?_
    | (with_reducible refine changesParts_of ?_ ?_ ?_ ?_ ?_ ?_ ?_ ?_ ?_ ?_ ?_ ?_ ?_ ?_ ?_ ?_ ?_ ?_ ?_ ?_)
    | simp only [changes_mk]
    | with_reducible intro _
    | split
    | dsimp only [id])

theorem silverEnd_changes {Q : List Block} {s0 : State} {c : Status} {s : State}  (hq : subParts [.dev, .codec, .tier, .req, .pair, .near, .rma, .links, .free, .out] Q = true) (hk : OnlyChanges Q s0 s) :
    OnlyChanges Q s0 (silverEnd c s) := by
  unfold silverEnd
  repeat' (first
    | with_reducible assumption
    | ((with_reducible refine .inr (subParts_mem hq ?_)); rfl)
    | with_reducible exact .inl rfl
    | with_reducible apply freeAllGalleys_changes (hq := subParts_trans rfl hq)
    | with_reducible apply freeMemberRecs_changes (hq := subParts_trans rfl hq)
    | with_reducible apply mirrorsAlone_changes (hq := subParts_trans rfl hq)
    | with_reducible apply silverClear_changes (hq := subParts_trans rfl hq)
    | with_reducible apply silverCode_changes (hq := subParts_trans rfl hq)
    | with_reducible apply pairState_changes (hq := subParts_trans rfl hq)
    | with_reducible refine changes_ite ?_ ?_
    | (with_reducible refine changesParts_of ?_ ?_ ?_ ?_ ?_ ?_ ?_ ?_ ?_ ?_ ?_ ?_ ?_ ?_ ?_ ?_ ?_ ?_ ?_ ?_)
    | simp only [changes_mk]
    | with_reducible intro _
    | split
    | dsimp only [id])

theorem silverDone_changes {Q : List Block} {s0 : State} {s : State}  (hq : subParts [.dev, .req, .pair, .out] Q = true) (hk : OnlyChanges Q s0 s) :
    OnlyChanges Q s0 (silverDone s) := by
  unfold silverDone
  repeat' (first
    | with_reducible assumption
    | ((with_reducible refine .inr (subParts_mem hq ?_)); rfl)
    | with_reducible exact .inl rfl
    | with_reducible apply silverClear_changes (hq := subParts_trans rfl hq)
    | with_reducible apply silverCode_changes (hq := subParts_trans rfl hq)
    | with_reducible apply pairState_changes (hq := subParts_trans rfl hq)
    | with_reducible apply msix_changes (hq := subParts_trans rfl hq)
    | with_reducible refine changes_ite ?_ ?_
    | (with_reducible refine changesParts_of ?_ ?_ ?_ ?_ ?_ ?_ ?_ ?_ ?_ ?_ ?_ ?_ ?_ ?_ ?_ ?_ ?_ ?_ ?_ ?_)
    | simp only [changes_mk]
    | with_reducible intro _
    | split
    | dsimp only [id])

theorem ckptAcked_changes {Q : List Block} {s0 : State} {n : Nat} {reads : ReadOutcome} {s : State} (hq : subParts [.dev, .maint, .forme, .codec, .tier, .sched, .req, .pair, .near, .rma, .links, .out] Q = true) (hk : OnlyChanges Q s0 s) :
    OnlyChanges Q s0 (ckptAcked n reads s) := by
  unfold ckptAcked
  repeat' (first
    | with_reducible assumption
    | ((with_reducible refine .inr (subParts_mem hq ?_)); rfl)
    | with_reducible exact .inl rfl
    | with_reducible apply silverDone_changes (hq := subParts_trans rfl hq)
    | with_reducible apply silverRun_changes (hq := subParts_trans rfl hq)
    | with_reducible refine changes_ite ?_ ?_
    | (with_reducible refine changesParts_of ?_ ?_ ?_ ?_ ?_ ?_ ?_ ?_ ?_ ?_ ?_ ?_ ?_ ?_ ?_ ?_ ?_ ?_ ?_ ?_)
    | simp only [changes_mk]
    | with_reducible intro _
    | split
    | dsimp only [id])

theorem silverAnswer_changes {Q : List Block} {s0 : State} {r : TrayReq} {c : Status} {reads : ReadOutcome} {s : State} (hq : subParts [.dev, .maint, .forme, .codec, .tier, .sched, .req, .pair, .near, .rma, .links, .free, .out] Q = true) (hk : OnlyChanges Q s0 s) :
    OnlyChanges Q s0 (silverAnswer r c reads s) := by
  unfold silverAnswer
  repeat' (first
    | with_reducible assumption
    | ((with_reducible refine .inr (subParts_mem hq ?_)); rfl)
    | with_reducible exact .inl rfl
    | with_reducible apply silverEnd_changes (hq := subParts_trans rfl hq)
    | with_reducible apply silverPage_changes (hq := subParts_trans rfl hq)
    | with_reducible apply pageUpd_changes (hq := subParts_trans rfl hq)
    | with_reducible refine changes_ite ?_ ?_
    | (with_reducible refine changesParts_of ?_ ?_ ?_ ?_ ?_ ?_ ?_ ?_ ?_ ?_ ?_ ?_ ?_ ?_ ?_ ?_ ?_ ?_ ?_ ?_)
    | simp only [changes_mk]
    | with_reducible intro _
    | split
    | dsimp only [id])

theorem silverAgain_changes {Q : List Block} {s0 : State} {reads : ReadOutcome} {j : JournalItem} {s : State} (hq : subParts [.dev, .maint, .forme, .codec, .tier, .sched, .req, .pair, .near, .rma, .links, .out] Q = true) (hk : OnlyChanges Q s0 s) :
    OnlyChanges Q s0 (silverAgain reads j s) := by
  unfold silverAgain
  repeat' (first
    | with_reducible assumption
    | ((with_reducible refine .inr (subParts_mem hq ?_)); rfl)
    | with_reducible exact .inl rfl
    | with_reducible apply silverMap_changes (hq := subParts_trans rfl hq)
    | with_reducible apply silverPage_changes (hq := subParts_trans rfl hq)
    | with_reducible apply trayIssue_changes (hq := subParts_trans rfl hq)
    | with_reducible refine changes_ite ?_ ?_
    | (with_reducible refine changesParts_of ?_ ?_ ?_ ?_ ?_ ?_ ?_ ?_ ?_ ?_ ?_ ?_ ?_ ?_ ?_ ?_ ?_ ?_ ?_ ?_)
    | simp only [changes_mk]
    | with_reducible intro _
    | split
    | dsimp only [id])

theorem silverResume_changes {Q : List Block} {s0 : State} {reads : ReadOutcome} {s : State} (hq : subParts [.dev, .maint, .forme, .codec, .tier, .sched, .req, .pair, .near, .rma, .links, .out] Q = true) (hk : OnlyChanges Q s0 s) :
    OnlyChanges Q s0 (silverResume reads s) := by
  unfold silverResume
  repeat' (first
    | with_reducible assumption
    | ((with_reducible refine .inr (subParts_mem hq ?_)); rfl)
    | with_reducible exact .inl rfl
    | with_reducible apply foldl_changes
    | with_reducible apply foldl_changes_fst
    | with_reducible apply foldl_changes_snd
    | with_reducible apply silverAgain_changes (hq := subParts_trans rfl hq)
    | with_reducible apply silverRun_changes (hq := subParts_trans rfl hq)
    | with_reducible refine changes_ite ?_ ?_
    | (with_reducible refine changesParts_of ?_ ?_ ?_ ?_ ?_ ?_ ?_ ?_ ?_ ?_ ?_ ?_ ?_ ?_ ?_ ?_ ?_ ?_ ?_ ?_)
    | simp only [changes_mk]
    | with_reducible intro _
    | split
    | dsimp only [id])

theorem spareMap_changes {Q : List Block} {s0 : State} {q : ReqId} {off : Nat} {bs : List Byte} {s : State} (hq : subParts [.codec, .tier, .sched, .req] Q = true) (hk : OnlyChanges Q s0 s) :
    OnlyChanges Q s0 (spareMap q off bs s) := by
  unfold spareMap
  repeat' (first
    | with_reducible assumption
    | ((with_reducible refine .inr (subParts_mem hq ?_)); rfl)
    | with_reducible exact .inl rfl
    | with_reducible apply quotaUpd_changes (hq := subParts_trans rfl hq)
    | with_reducible apply recCreate_changes (hq := subParts_trans rfl hq)
    | with_reducible apply mapWriteBytes_changes (hq := subParts_trans rfl hq)
    | with_reducible refine changes_ite ?_ ?_
    | (with_reducible refine changesParts_of ?_ ?_ ?_ ?_ ?_ ?_ ?_ ?_ ?_ ?_ ?_ ?_ ?_ ?_ ?_ ?_ ?_ ?_ ?_ ?_)
    | simp only [changes_mk]
    | with_reducible intro _
    | split
    | dsimp only [id])

theorem verifyGalley_changes {Q : List Block} {s0 : State} {q : ReqId} {s : State} (hq : subParts [.req] Q = true) (hk : OnlyChanges Q s0 s) :
    OnlyChanges Q s0 (verifyGalley q s) := by
  unfold verifyGalley
  repeat' (first
    | with_reducible assumption
    | ((with_reducible refine .inr (subParts_mem hq ?_)); rfl)
    | with_reducible exact .inl rfl
    | with_reducible apply galleyUpd_changes (hq := subParts_trans rfl hq)
    | with_reducible refine changes_ite ?_ ?_
    | (with_reducible refine changesParts_of ?_ ?_ ?_ ?_ ?_ ?_ ?_ ?_ ?_ ?_ ?_ ?_ ?_ ?_ ?_ ?_ ?_ ?_ ?_ ?_)
    | simp only [changes_mk]
    | with_reducible intro _
    | split
    | dsimp only [id])

theorem memberRecord_changes {Q : List Block} {s0 : State} {q : ReqId} {u : RecordUpdate} {s : State} (hq : subParts [.req] Q = true) (hk : OnlyChanges Q s0 s) :
    OnlyChanges Q s0 (memberRecord q u s) := by
  unfold memberRecord
  repeat' (first
    | with_reducible assumption
    | ((with_reducible refine .inr (subParts_mem hq ?_)); rfl)
    | with_reducible exact .inl rfl
    | with_reducible apply verifyGalley_changes (hq := subParts_trans rfl hq)
    | with_reducible apply galleyUpd_changes (hq := subParts_trans rfl hq)
    | with_reducible apply recUpd_changes (hq := subParts_trans rfl hq)
    | with_reducible refine changes_ite ?_ ?_
    | (with_reducible refine changesParts_of ?_ ?_ ?_ ?_ ?_ ?_ ?_ ?_ ?_ ?_ ?_ ?_ ?_ ?_ ?_ ?_ ?_ ?_ ?_ ?_)
    | simp only [changes_mk]
    | with_reducible intro _
    | split
    | dsimp only [id])

theorem ckptStore_changes {Q : List Block} {s0 : State} {h : TrayHdr} {n : Nat} {cur : Nat} {page : Nat} {s : State}  (hq : subParts [.dev, .req, .pair, .near, .links, .out] Q = true) (hk : OnlyChanges Q s0 s) :
    OnlyChanges Q s0 (ckptStore h n cur page s) := by
  unfold ckptStore
  repeat' (first
    | with_reducible assumption
    | ((with_reducible refine .inr (subParts_mem hq ?_)); rfl)
    | with_reducible exact .inl rfl
    | with_reducible apply homeFinish_changes (hq := subParts_trans rfl hq)
    | with_reducible apply silverDone_changes (hq := subParts_trans rfl hq)
    | with_reducible refine changes_ite ?_ ?_
    | (with_reducible refine changesParts_of ?_ ?_ ?_ ?_ ?_ ?_ ?_ ?_ ?_ ?_ ?_ ?_ ?_ ?_ ?_ ?_ ?_ ?_ ?_ ?_)
    | simp only [changes_mk]
    | with_reducible intro _
    | split
    | dsimp only [id])

theorem ckptAt_changes {Q : List Block} {s0 : State} {h : TrayHdr} {n : Nat} {cur : Nat} {page : Nat} {s : State}  (hq : subParts [.dev, .req, .pair, .near, .links, .out] Q = true) (hk : OnlyChanges Q s0 s) :
    OnlyChanges Q s0 (ckptAt h n cur page s) := by
  unfold ckptAt
  repeat' (first
    | with_reducible assumption
    | ((with_reducible refine .inr (subParts_mem hq ?_)); rfl)
    | with_reducible exact .inl rfl
    | with_reducible apply homeFinish_changes (hq := subParts_trans rfl hq)
    | with_reducible apply ckptStore_changes (hq := subParts_trans rfl hq)
    | with_reducible refine changes_ite ?_ ?_
    | (with_reducible refine changesParts_of ?_ ?_ ?_ ?_ ?_ ?_ ?_ ?_ ?_ ?_ ?_ ?_ ?_ ?_ ?_ ?_ ?_ ?_ ?_ ?_)
    | simp only [changes_mk]
    | with_reducible intro _
    | split
    | dsimp only [id])

theorem pageMiss_changes {Q : List Block} {s0 : State} {q : ReqId} {k : Nat} {l : Nat} {i : Nat} {misses : Nat} {s : State} (hq : subParts [.dev, .maint, .forme, .codec, .tier, .req, .pair, .near, .rma, .links, .free, .out] Q = true) (hk : OnlyChanges Q s0 s) :
    OnlyChanges Q s0 (pageMiss q k l i misses s) := by
  unfold pageMiss
  repeat' (first
    | with_reducible assumption
    | ((with_reducible refine .inr (subParts_mem hq ?_)); rfl)
    | with_reducible exact .inl rfl
    | with_reducible apply verifyGalley_changes (hq := subParts_trans rfl hq)
    | with_reducible apply silverEnd_changes (hq := subParts_trans rfl hq)
    | with_reducible apply retireFrame_changes (hq := subParts_trans rfl hq)
    | with_reducible apply emptyPage_changes (hq := subParts_trans rfl hq)
    | with_reducible apply pageUpd_changes (hq := subParts_trans rfl hq)
    | with_reducible refine changes_ite ?_ ?_
    | (with_reducible refine changesParts_of ?_ ?_ ?_ ?_ ?_ ?_ ?_ ?_ ?_ ?_ ?_ ?_ ?_ ?_ ?_ ?_ ?_ ?_ ?_ ?_)
    | simp only [changes_mk]
    | with_reducible intro _
    | split
    | dsimp only [id])

theorem pageMatch_changes {Q : List Block} {s0 : State} {q : ReqId} {k : Nat} {l : Nat} {i : Nat} {misses : Nat} {partner : Option Digest} {s : State} (hq : subParts [.dev, .maint, .forme, .codec, .tier, .req, .pair, .near, .rma, .links, .free, .out] Q = true) (hk : OnlyChanges Q s0 s) :
    OnlyChanges Q s0 (pageMatch q k l i misses partner s) := by
  unfold pageMatch
  repeat' (first
    | with_reducible assumption
    | ((with_reducible refine .inr (subParts_mem hq ?_)); rfl)
    | with_reducible exact .inl rfl
    | with_reducible apply verifyGalley_changes (hq := subParts_trans rfl hq)
    | with_reducible apply mirrorSend_changes (hq := subParts_trans rfl hq)
    | with_reducible apply compareSeal_changes (hq := subParts_trans rfl hq)
    | with_reducible apply pageUpd_changes (hq := subParts_trans rfl hq)
    | with_reducible refine changes_ite ?_ ?_
    | (with_reducible refine changesParts_of ?_ ?_ ?_ ?_ ?_ ?_ ?_ ?_ ?_ ?_ ?_ ?_ ?_ ?_ ?_ ?_ ?_ ?_ ?_ ?_)
    | simp only [changes_mk]
    | with_reducible intro _
    | split
    | dsimp only [id])

theorem pageEnd_changes {Q : List Block} {s0 : State} {p : PagePart} {bytes : List Byte} {s : State} (hq : subParts [.dev, .maint, .forme, .codec, .tier, .sched, .req, .pair, .near, .rma, .links, .free, .out] Q = true) (hk : OnlyChanges Q s0 s) :
    OnlyChanges Q s0 (pageEnd p bytes s).2 := by
  unfold pageEnd
  repeat' (first
    | with_reducible assumption
    | ((with_reducible refine .inr (subParts_mem hq ?_)); rfl)
    | with_reducible exact .inl rfl
    | with_reducible apply foldl_changes
    | with_reducible apply foldl_changes_fst
    | with_reducible apply foldl_changes_snd
    | with_reducible apply pageMatch_changes (hq := subParts_trans rfl hq)
    | with_reducible apply pageMiss_changes (hq := subParts_trans rfl hq)
    | with_reducible apply emptyPage_changes (hq := subParts_trans rfl hq)
    | (with_reducible apply restorePage_changes_of (hq := subParts_trans rfl hq) (eq_ := by assumption))
    | with_reducible refine changes_ite ?_ ?_
    | (with_reducible refine changesParts_of ?_ ?_ ?_ ?_ ?_ ?_ ?_ ?_ ?_ ?_ ?_ ?_ ?_ ?_ ?_ ?_ ?_ ?_ ?_ ?_)
    | simp only [changes_mk]
    | with_reducible intro _
    | split
    | dsimp only [id])

theorem pageEnd_changes_of {Q : List Block} {s0 : State} {p : PagePart} {bytes : List Byte} {s : State} {tt : State} {c0 : _} (eq_ : pageEnd p bytes s = (c0, tt)) (hq : subParts [.dev, .maint, .forme, .codec, .tier, .sched, .req, .pair, .near, .rma, .links, .free, .out] Q = true) (hk : OnlyChanges Q s0 s) : OnlyChanges Q s0 tt := by
  have := pageEnd_changes (Q := Q) (s0 := s0) (p := p) (bytes := bytes) (s := s) hq hk
  rw [eq_] at this; exact this

theorem copyCheck_changes {Q : List Block} {s0 : State} {q : ReqId} {s : State} (hq : subParts [.req, .rma, .links, .out] Q = true) (hk : OnlyChanges Q s0 s) :
    OnlyChanges Q s0 (copyCheck q s) := by
  unfold copyCheck
  repeat' (first
    | with_reducible assumption
    | ((with_reducible refine .inr (subParts_mem hq ?_)); rfl)
    | with_reducible exact .inl rfl
    | with_reducible apply galleyUpd_changes (hq := subParts_trans rfl hq)
    | with_reducible apply sendFw_changes (hq := subParts_trans rfl hq)
    | with_reducible refine changes_ite ?_ ?_
    | (with_reducible refine changesParts_of ?_ ?_ ?_ ?_ ?_ ?_ ?_ ?_ ?_ ?_ ?_ ?_ ?_ ?_ ?_ ?_ ?_ ?_ ?_ ?_)
    | simp only [changes_mk]
    | with_reducible intro _
    | split
    | dsimp only [id])

theorem copyFailed_changes {Q : List Block} {s0 : State} {q : ReqId} {c : Status} {s : State} (hq : subParts [.codec, .tier, .req, .rma, .links, .out] Q = true) (hk : OnlyChanges Q s0 s) :
    OnlyChanges Q s0 (copyFailed q c s) := by
  unfold copyFailed
  repeat' (first
    | with_reducible assumption
    | ((with_reducible refine .inr (subParts_mem hq ?_)); rfl)
    | with_reducible exact .inl rfl
    | with_reducible apply recFree_changes (hq := subParts_trans rfl hq)
    | with_reducible apply freeGalley_changes (hq := subParts_trans rfl hq)
    | with_reducible apply sendFw_changes (hq := subParts_trans rfl hq)
    | with_reducible refine changes_ite ?_ ?_
    | (with_reducible refine changesParts_of ?_ ?_ ?_ ?_ ?_ ?_ ?_ ?_ ?_ ?_ ?_ ?_ ?_ ?_ ?_ ?_ ?_ ?_ ?_ ?_)
    | simp only [changes_mk]
    | with_reducible intro _
    | split
    | dsimp only [id])

theorem pageArrive_changes {Q : List Block} {s0 : State} {p : PagePart} {s : State}  (hq : subParts [.dev, .maint, .forme, .codec, .tier, .sched, .req, .pair, .near, .rma, .links, .free, .out] Q = true) (hk : OnlyChanges Q s0 s) :
    OnlyChanges Q s0 (pageArrive p s).2 := by
  unfold pageArrive
  repeat' (first
    | with_reducible assumption
    | ((with_reducible refine .inr (subParts_mem hq ?_)); rfl)
    | with_reducible exact .inl rfl
    | with_reducible apply getD_changes
    | with_reducible apply pageUpd_changes (hq := subParts_trans rfl hq)
    | with_reducible apply pageEnd_changes (hq := subParts_trans rfl hq)
    | (with_reducible apply pageEnd_changes_of (hq := subParts_trans rfl hq) (eq_ := by assumption))
    | with_reducible refine changes_ite ?_ ?_
    | (with_reducible refine changesParts_of ?_ ?_ ?_ ?_ ?_ ?_ ?_ ?_ ?_ ?_ ?_ ?_ ?_ ?_ ?_ ?_ ?_ ?_ ?_ ?_)
    | simp only [changes_mk]
    | with_reducible intro _
    | split
    | dsimp only [id])

theorem pageArrive_changes_of {Q : List Block} {s0 : State} {p : PagePart} {s : State}  (hq : subParts [.dev, .maint, .forme, .codec, .tier, .sched, .req, .pair, .near, .rma, .links, .free, .out] Q = true) {tt : State} {c0 : _} (eq_ : pageArrive p s = (c0, tt)) (hk : OnlyChanges Q s0 s) : OnlyChanges Q s0 tt := by
  have := pageArrive_changes (Q := Q) (s0 := s0) (p := p) (s := s)  hq hk
  rw [eq_] at this; exact this

theorem historyPut_changes {Q : List Block} {s0 : State} {p : PagePart} {s : State} (hq : subParts [.dev, .maint, .forme, .codec, .tier, .sched, .req, .pair, .rma, .links, .out] Q = true) (hk : OnlyChanges Q s0 s) :
    OnlyChanges Q s0 (historyPut p s).2 := by
  have h : ∀ (g : Galley) (t : State), (if (pageOf g 2 0 p.lpage.toNat).state = 0 then openPage p.req 2 0 p.lpage.toNat 1 s else some s)
      = some t → OnlyChanges Q s0 t := by
    intro g t e
    split at e
    · exact openPage_changes_of (hq := subParts_trans rfl hq) (eq_ := e) hk
    · cases e; exact hk
  unfold historyPut
  repeat' (first
    | with_reducible exact h _ _ (by assumption)
    | with_reducible assumption
    | ((with_reducible refine .inr (subParts_mem hq ?_)); rfl)
    | with_reducible exact .inl rfl
    | with_reducible apply meterT1_changes (hq := subParts_trans rfl hq)
    | with_reducible apply t1Write_changes (hq := subParts_trans rfl hq)
    | with_reducible apply readOutcome_changes (hq := subParts_trans rfl hq)
    | (with_reducible apply readOutcome_changes_of (hq := subParts_trans rfl hq) (eq_ := by assumption))
    | (with_reducible apply openPage_changes_of (hq := subParts_trans rfl hq) (eq_ := by assumption))
    | with_reducible refine changes_ite ?_ ?_
    | (with_reducible refine changesParts_of ?_ ?_ ?_ ?_ ?_ ?_ ?_ ?_ ?_ ?_ ?_ ?_ ?_ ?_ ?_ ?_ ?_ ?_ ?_ ?_)
    | simp only [changes_mk]
    | with_reducible intro _
    | split
    | dsimp only [id])

theorem historyPut_changes_of {Q : List Block} {s0 : State} {p : PagePart} {s : State} {tt : State} {c0 : _} (eq_ : historyPut p s = (c0, tt)) (hq : subParts [.dev, .maint, .forme, .codec, .tier, .sched, .req, .pair, .rma, .links, .out] Q = true) (hk : OnlyChanges Q s0 s) : OnlyChanges Q s0 tt := by
  have := historyPut_changes (Q := Q) (s0 := s0) (p := p) (s := s) hq hk
  rw [eq_] at this; exact this

theorem pageAt_changes {Q : List Block} {s0 : State} {h : TrayHdr} {p : PagePart} {s : State} (hq : subParts [.dev, .maint, .forme, .codec, .tier, .sched, .req, .pair, .near, .rma, .links, .free, .out] Q = true) (hk : OnlyChanges Q s0 s) :
    OnlyChanges Q s0 (pageAt h p s) := by
  unfold pageAt
  repeat' (first
    | with_reducible assumption
    | ((with_reducible refine .inr (subParts_mem hq ?_)); rfl)
    | with_reducible exact .inl rfl
    | with_reducible apply historyPut_changes (hq := subParts_trans rfl hq)
    | with_reducible apply pageArrive_changes (hq := subParts_trans rfl hq)
    | with_reducible apply copyFailed_changes (hq := subParts_trans rfl hq)
    | with_reducible apply copyCheck_changes (hq := subParts_trans rfl hq)
    | with_reducible apply ckptStore_changes (hq := subParts_trans rfl hq)
    | with_reducible apply homeFinish_changes (hq := subParts_trans rfl hq)
    | (with_reducible apply historyPut_changes_of (hq := subParts_trans rfl hq) (eq_ := by assumption))
    | (with_reducible apply pageArrive_changes_of (hq := subParts_trans rfl hq) (eq_ := by assumption))
    | with_reducible refine changes_ite ?_ ?_
    | (with_reducible refine changesParts_of ?_ ?_ ?_ ?_ ?_ ?_ ?_ ?_ ?_ ?_ ?_ ?_ ?_ ?_ ?_ ?_ ?_ ?_ ?_ ?_)
    | simp only [changes_mk]
    | with_reducible intro _
    | split
    | dsimp only [id])

theorem silverSetup_changes {Q : List Block} {s0 : State} {qs : List QuotaCopy} {ls : List LatentSlotCopy} {s : State}  (hq : subParts [.codec, .tier, .pair] Q = true) (hk : OnlyChanges Q s0 s) :
    OnlyChanges Q s0 (silverSetup qs ls s) := by
  unfold silverSetup
  repeat' (first
    | with_reducible assumption
    | ((with_reducible refine .inr (subParts_mem hq ?_)); rfl)
    | with_reducible exact .inl rfl
    | with_reducible apply foldl_changes
    | with_reducible apply foldl_changes_fst
    | with_reducible apply foldl_changes_snd
    | with_reducible apply getD_changes
    | with_reducible refine changes_ite ?_ ?_
    | (with_reducible refine changesParts_of ?_ ?_ ?_ ?_ ?_ ?_ ?_ ?_ ?_ ?_ ?_ ?_ ?_ ?_ ?_ ?_ ?_ ?_ ?_ ?_)
    | simp only [changes_mk]
    | with_reducible intro _
    | split
    | dsimp only [id])

theorem takePaused_changes {Q : List Block} {s0 : State} {q : ReqId} {s : State} (hq : subParts [.codec, .tier, .req, .pair, .near, .rma, .links, .free, .out] Q = true) (hk : OnlyChanges Q s0 s) :
    OnlyChanges Q s0 (takePaused q s) := by
  unfold takePaused
  repeat' (first
    | with_reducible assumption
    | ((with_reducible refine .inr (subParts_mem hq ?_)); rfl)
    | with_reducible exact .inl rfl
    | with_reducible apply pausedEnds_changes (hq := subParts_trans rfl hq)
    | with_reducible apply galleyUpd_changes (hq := subParts_trans rfl hq)
    | with_reducible apply pausedHere_changes (hq := subParts_trans rfl hq)
    | with_reducible refine changes_ite ?_ ?_
    | (with_reducible refine changesParts_of ?_ ?_ ?_ ?_ ?_ ?_ ?_ ?_ ?_ ?_ ?_ ?_ ?_ ?_ ?_ ?_ ?_ ?_ ?_ ?_)
    | simp only [changes_mk]
    | with_reducible intro _
    | split
    | dsimp only [id])

theorem serveAll_changes {Q : List Block} {s0 : State} {s : State} (hq : subParts [.codec, .tier, .req, .pair, .near, .rma, .links, .free, .out] Q = true) (hk : OnlyChanges Q s0 s) :
    OnlyChanges Q s0 (serveAll s) := by
  unfold serveAll
  repeat' (first
    | with_reducible assumption
    | ((with_reducible refine .inr (subParts_mem hq ?_)); rfl)
    | with_reducible exact .inl rfl
    | with_reducible apply foldl_changes
    | with_reducible apply foldl_changes_fst
    | with_reducible apply foldl_changes_snd
    | with_reducible apply takePaused_changes (hq := subParts_trans rfl hq)
    | with_reducible refine changes_ite ?_ ?_
    | (with_reducible refine changesParts_of ?_ ?_ ?_ ?_ ?_ ?_ ?_ ?_ ?_ ?_ ?_ ?_ ?_ ?_ ?_ ?_ ?_ ?_ ?_ ?_)
    | simp only [changes_mk]
    | with_reducible intro _
    | split
    | dsimp only [id])

theorem galleyLost_changes {Q : List Block} {s0 : State} {q : ReqId} {s : State}  (hq : subParts [.dev, .codec, .tier, .req, .pair, .rma, .links, .out] Q = true) (hk : OnlyChanges Q s0 s) :
    OnlyChanges Q s0 (galleyLost q s) := by
  unfold galleyLost
  repeat' (first
    | with_reducible assumption
    | ((with_reducible refine .inr (subParts_mem hq ?_)); rfl)
    | with_reducible exact .inl rfl
    | with_reducible apply freeGalley_changes (hq := subParts_trans rfl hq)
    | with_reducible apply reportEnd_changes (hq := subParts_trans rfl hq)
    | with_reducible apply noteErr_changes (hq := subParts_trans rfl hq)
    | with_reducible refine changes_ite ?_ ?_
    | (with_reducible refine changesParts_of ?_ ?_ ?_ ?_ ?_ ?_ ?_ ?_ ?_ ?_ ?_ ?_ ?_ ?_ ?_ ?_ ?_ ?_ ?_ ?_)
    | simp only [changes_mk]
    | with_reducible intro _
    | split
    | dsimp only [id])

theorem unsentLost_changes {Q : List Block} {s0 : State} {s : State} (hq : subParts [.dev, .pair, .free] Q = true) (hk : OnlyChanges Q s0 s) :
    OnlyChanges Q s0 (unsentLost s) := by
  unfold unsentLost
  repeat' (first
    | with_reducible assumption
    | ((with_reducible refine .inr (subParts_mem hq ?_)); rfl)
    | with_reducible exact .inl rfl
    | with_reducible apply noteErr_changes (hq := subParts_trans rfl hq)
    | with_reducible apply bumpFree_changes (hq := subParts_trans rfl hq)
    | with_reducible refine changes_ite ?_ ?_
    | (with_reducible refine changesParts_of ?_ ?_ ?_ ?_ ?_ ?_ ?_ ?_ ?_ ?_ ?_ ?_ ?_ ?_ ?_ ?_ ?_ ?_ ?_ ?_)
    | simp only [changes_mk]
    | with_reducible intro _
    | split
    | dsimp only [id])

theorem partnerExcluded_changes {Q : List Block} {s0 : State} {s : State} (hq : subParts [.dev, .codec, .tier, .req, .pair, .near, .rma, .links, .free, .out] Q = true) (hk : OnlyChanges Q s0 s) :
    OnlyChanges Q s0 (partnerExcluded s) := by
  unfold partnerExcluded
  repeat' (first
    | with_reducible assumption
    | ((with_reducible refine .inr (subParts_mem hq ?_)); rfl)
    | with_reducible exact .inl rfl
    | with_reducible apply foldl_changes
    | with_reducible apply foldl_changes_fst
    | with_reducible apply foldl_changes_snd
    | with_reducible apply unsentLost_changes (hq := subParts_trans rfl hq)
    | with_reducible apply galleyLost_changes (hq := subParts_trans rfl hq)
    | with_reducible apply serveAll_changes (hq := subParts_trans rfl hq)
    | with_reducible apply silverEnd_changes (hq := subParts_trans rfl hq)
    | with_reducible apply pairState_changes (hq := subParts_trans rfl hq)
    | with_reducible apply silverClear_changes (hq := subParts_trans rfl hq)
    | with_reducible apply mirrorsAlone_changes (hq := subParts_trans rfl hq)
    | with_reducible refine changes_ite ?_ ?_
    | (with_reducible refine changesParts_of ?_ ?_ ?_ ?_ ?_ ?_ ?_ ?_ ?_ ?_ ?_ ?_ ?_ ?_ ?_ ?_ ?_ ?_ ?_ ?_)
    | simp only [changes_mk]
    | with_reducible intro _
    | split
    | dsimp only [id])

end Sys2Proof.Machine
end

