-- ==== Sys2Proof/Laws/ChangesChannels.lean ====
section
/-!
SUPPORT. The blocks of the state that the operations of Sys2Proof/Machine/Channels.lean may change.
-/

namespace Sys2Proof.Machine

theorem sendCredit_changes {Q : List Block} {s0 : State} {n : Nat} {ch : Nat} {s : State}  (hq : subParts [.links] Q = true) (hk : OnlyChanges Q s0 s) :
    OnlyChanges Q s0 (sendCredit n ch s) := by
  unfold sendCredit
  repeat' (first
    | with_reducible assumption
    | ((with_reducible refine .inr (subParts_mem hq ?_)); rfl)
    | with_reducible exact .inl rfl
    | with_reducible apply getD_changes
    | with_reducible apply trayPacket_changes (hq := subParts_trans rfl hq)
    | with_reducible refine changes_ite ?_ ?_
    | (with_reducible refine changesParts_of ?_ ?_ ?_ ?_ ?_ ?_ ?_ ?_ ?_ ?_ ?_ ?_ ?_ ?_ ?_ ?_ ?_ ?_ ?_ ?_)
    | simp only [changes_mk]
    | with_reducible intro _
    | split
    | dsimp only [id])

theorem resendCredits_changes {Q : List Block} {s0 : State} {d : Nat} {s : State}  (hq : subParts [.links] Q = true) (hk : OnlyChanges Q s0 s) :
    OnlyChanges Q s0 (resendCredits d s) := by
  unfold resendCredits
  repeat' (first
    | with_reducible assumption
    | ((with_reducible refine .inr (subParts_mem hq ?_)); rfl)
    | with_reducible exact .inl rfl
    | with_reducible apply foldl_changes
    | with_reducible apply foldl_changes_fst
    | with_reducible apply foldl_changes_snd
    | with_reducible apply sendCredit_changes (hq := subParts_trans rfl hq)
    | with_reducible refine changes_ite ?_ ?_
    | (with_reducible refine changesParts_of ?_ ?_ ?_ ?_ ?_ ?_ ?_ ?_ ?_ ?_ ?_ ?_ ?_ ?_ ?_ ?_ ?_ ?_ ?_ ?_)
    | simp only [changes_mk]
    | with_reducible intro _
    | split
    | dsimp only [id])

theorem creditReturn_changes {Q : List Block} {s0 : State} {n : Nat} {ch : Nat} {s : State} (hq : subParts [.dev, .maint, .clusters, .sched, .req, .near, .rma, .links, .out] Q = true) (hk : OnlyChanges Q s0 s) :
    OnlyChanges Q s0 (creditReturn n ch s) := by
  unfold creditReturn
  repeat' (first
    | with_reducible assumption
    | ((with_reducible refine .inr (subParts_mem hq ?_)); rfl)
    | with_reducible exact .inl rfl
    | with_reducible apply chanPost_changes (hq := subParts_trans rfl hq)
    | with_reducible apply sendCredit_changes (hq := subParts_trans rfl hq)
    | with_reducible apply creditBack_changes (hq := subParts_trans rfl hq)
    | with_reducible refine changes_ite ?_ ?_
    | (with_reducible refine changesParts_of ?_ ?_ ?_ ?_ ?_ ?_ ?_ ?_ ?_ ?_ ?_ ?_ ?_ ?_ ?_ ?_ ?_ ?_ ?_ ?_)
    | simp only [changes_mk]
    | with_reducible intro _
    | split
    | dsimp only [id])

theorem dropHead_changes {Q : List Block} {s0 : State} {n : Nat} {ch : Nat} {s : State}  (hq : subParts [.dev, .maint, .clusters, .sched, .req, .near, .rma, .links, .out] Q = true) (hk : OnlyChanges Q s0 s) :
    OnlyChanges Q s0 (dropHead n ch s) := by
  unfold dropHead
  repeat' (first
    | with_reducible assumption
    | ((with_reducible refine .inr (subParts_mem hq ?_)); rfl)
    | with_reducible exact .inl rfl
    | with_reducible apply creditReturn_changes (hq := subParts_trans rfl hq)
    | with_reducible apply channelUpd_changes (hq := subParts_trans rfl hq)
    | with_reducible refine changes_ite ?_ ?_
    | (with_reducible refine changesParts_of ?_ ?_ ?_ ?_ ?_ ?_ ?_ ?_ ?_ ?_ ?_ ?_ ?_ ?_ ?_ ?_ ?_ ?_ ?_ ?_)
    | simp only [changes_mk]
    | with_reducible intro _
    | split
    | dsimp only [id])

theorem discardStale_changes {Q : List Block} {s0 : State} {n : Nat} {ch : Nat} {fuel : Nat} {s : State} (hq : subParts [.dev, .maint, .clusters, .sched, .req, .near, .rma, .links, .out] Q = true) (hk : OnlyChanges Q s0 s) : OnlyChanges Q s0 (discardStale n ch fuel s) := by
  induction fuel generalizing s with
  | zero =>
    unfold discardStale
    repeat' (first
      | with_reducible assumption
      | ((with_reducible refine .inr (subParts_mem hq ?_)); rfl)
      | with_reducible exact .inl rfl
      | with_reducible apply clusterUpd_changes (hq := subParts_trans rfl hq)
      | with_reducible apply dropHead_changes (hq := subParts_trans rfl hq)
      | with_reducible refine changes_ite ?_ ?_
      | (with_reducible refine changesParts_of ?_ ?_ ?_ ?_ ?_ ?_ ?_ ?_ ?_ ?_ ?_ ?_ ?_ ?_ ?_ ?_ ?_ ?_ ?_ ?_)
      | simp only [changes_mk]
      | with_reducible intro _
      | split
      | dsimp only [id])
  | succ _ ih =>
    unfold discardStale
    repeat' (first
      | with_reducible assumption
      | ((with_reducible refine .inr (subParts_mem hq ?_)); rfl)
      | with_reducible exact .inl rfl
      | with_reducible apply clusterUpd_changes (hq := subParts_trans rfl hq)
      | with_reducible apply dropHead_changes (hq := subParts_trans rfl hq)
      | with_reducible refine changes_ite ?_ ?_
      | (with_reducible refine changesParts_of ?_ ?_ ?_ ?_ ?_ ?_ ?_ ?_ ?_ ?_ ?_ ?_ ?_ ?_ ?_ ?_ ?_ ?_ ?_ ?_)
      | simp only [changes_mk]
      | with_reducible apply ih
      | with_reducible intro _
      | split
      | dsimp only [id])

theorem sendMessage_changes {Q : List Block} {s0 : State} {n : Nat} {ch : Nat} {s : State} {m : List Byte} (hq : subParts [.dev, .maint, .tier, .clusters, .sched, .req, .near, .rma, .links, .out] Q = true) (hk : OnlyChanges Q s0 s) :
    OnlyChanges Q s0 (sendMessage n ch s m) := by
  unfold sendMessage
  repeat' (first
    | with_reducible assumption
    | ((with_reducible refine .inr (subParts_mem hq ?_)); rfl)
    | with_reducible exact .inl rfl
    | with_reducible apply chanPost_changes (hq := subParts_trans rfl hq)
    | with_reducible apply xbarToCluster_changes (hq := subParts_trans rfl hq)
    | with_reducible apply xbarPass_changes (hq := subParts_trans rfl hq)
    | with_reducible apply trayIssue_changes (hq := subParts_trans rfl hq)
    | with_reducible apply channelUpd_changes (hq := subParts_trans rfl hq)
    | with_reducible apply chanDeliver_changes (hq := subParts_trans rfl hq)
    | with_reducible refine changes_ite ?_ ?_
    | (with_reducible refine changesParts_of ?_ ?_ ?_ ?_ ?_ ?_ ?_ ?_ ?_ ?_ ?_ ?_ ?_ ?_ ?_ ?_ ?_ ?_ ?_ ?_)
    | simp only [changes_mk]
    | with_reducible intro _
    | split
    | dsimp only [id])

end Sys2Proof.Machine
end

