-- ==== Sys2Proof/Laws/ChangesTrayReqs.lean ====
section
/-!
SUPPORT. The blocks of the state that the operations of Sys2Proof/Machine/TrayReqs.lean may change.
-/

namespace Sys2Proof.Machine

theorem resendReq_changes {Q : List Block} {s0 : State} {d : Nat} {seq : Nat} {s : State} (hq : subParts [.near, .links] Q = true) (hk : OnlyChanges Q s0 s) :
    OnlyChanges Q s0 (resendReq d seq s) := by
  unfold resendReq
  repeat' (first
    | with_reducible assumption
    | ((with_reducible refine .inr (subParts_mem hq ?_)); rfl)
    | with_reducible exact .inl rfl
    | with_reducible apply trayQueue_changes (hq := subParts_trans rfl hq)
    | with_reducible apply trayDstUpd_changes (hq := subParts_trans rfl hq)
    | with_reducible refine changes_ite ?_ ?_
    | (with_reducible refine changesParts_of ?_ ?_ ?_ ?_ ?_ ?_ ?_ ?_ ?_ ?_ ?_ ?_ ?_ ?_ ?_ ?_ ?_ ?_ ?_ ?_)
    | simp only [changes_mk]
    | with_reducible intro _
    | split
    | dsimp only [id])

theorem resendWhere_changes {Q : List Block} {s0 : State} {sel : Nat → TrayOut → Bool} {s : State}  (hq : subParts [.near, .links] Q = true) (hk : OnlyChanges Q s0 s) :
    OnlyChanges Q s0 (resendWhere sel s) := by
  unfold resendWhere
  repeat' (first
    | with_reducible assumption
    | ((with_reducible refine .inr (subParts_mem hq ?_)); rfl)
    | with_reducible exact .inl rfl
    | with_reducible apply foldl_changes
    | with_reducible apply foldl_changes_fst
    | with_reducible apply foldl_changes_snd
    | with_reducible apply resendReq_changes (hq := subParts_trans rfl hq)
    | with_reducible refine changes_ite ?_ ?_
    | (with_reducible refine changesParts_of ?_ ?_ ?_ ?_ ?_ ?_ ?_ ?_ ?_ ?_ ?_ ?_ ?_ ?_ ?_ ?_ ?_ ?_ ?_ ?_)
    | simp only [changes_mk]
    | with_reducible intro _
    | split
    | dsimp only [id])

theorem nearLinkLost_changes {Q : List Block} {s0 : State} {v : Nat} {queued : List (Nat × Nat)} {s : State}  (hq : subParts [.near, .links] Q = true) (hk : OnlyChanges Q s0 s) :
    OnlyChanges Q s0 (nearLinkLost v queued s) := by
  unfold nearLinkLost
  repeat' (first
    | with_reducible assumption
    | ((with_reducible refine .inr (subParts_mem hq ?_)); rfl)
    | with_reducible exact .inl rfl
    | with_reducible apply resendWhere_changes (hq := subParts_trans rfl hq)
    | with_reducible refine changes_ite ?_ ?_
    | (with_reducible refine changesParts_of ?_ ?_ ?_ ?_ ?_ ?_ ?_ ?_ ?_ ?_ ?_ ?_ ?_ ?_ ?_ ?_ ?_ ?_ ?_ ?_)
    | simp only [changes_mk]
    | with_reducible intro _
    | split
    | dsimp only [id])

theorem viaLost_changes {Q : List Block} {s0 : State} {v : Nat} {s : State}  (hq : subParts [.near, .links] Q = true) (hk : OnlyChanges Q s0 s) :
    OnlyChanges Q s0 (viaLost v s) := by
  unfold viaLost
  repeat' (first
    | with_reducible assumption
    | ((with_reducible refine .inr (subParts_mem hq ?_)); rfl)
    | with_reducible exact .inl rfl
    | with_reducible apply resendWhere_changes (hq := subParts_trans rfl hq)
    | with_reducible refine changes_ite ?_ ?_
    | (with_reducible refine changesParts_of ?_ ?_ ?_ ?_ ?_ ?_ ?_ ?_ ?_ ?_ ?_ ?_ ?_ ?_ ?_ ?_ ?_ ?_ ?_ ?_)
    | simp only [changes_mk]
    | with_reducible intro _
    | split
    | dsimp only [id])

theorem creditsRepath_changes {Q : List Block} {s0 : State} {before : State} {s : State}  (hq : subParts [.links] Q = true) (hk : OnlyChanges Q s0 s) :
    OnlyChanges Q s0 (creditsRepath before s) := by
  unfold creditsRepath
  repeat' (first
    | with_reducible assumption
    | ((with_reducible refine .inr (subParts_mem hq ?_)); rfl)
    | with_reducible exact .inl rfl
    | with_reducible apply foldl_changes
    | with_reducible apply foldl_changes_fst
    | with_reducible apply foldl_changes_snd
    | with_reducible apply resendCredits_changes (hq := subParts_trans rfl hq)
    | with_reducible refine changes_ite ?_ ?_
    | (with_reducible refine changesParts_of ?_ ?_ ?_ ?_ ?_ ?_ ?_ ?_ ?_ ?_ ?_ ?_ ?_ ?_ ?_ ?_ ?_ ?_ ?_ ?_)
    | simp only [changes_mk]
    | with_reducible intro _
    | split
    | dsimp only [id])

theorem reissue_changes {Q : List Block} {s0 : State} {d : Nat} {r : TrayReq} {w : TrayWhy} {s : State}  (hq : subParts [.near, .links] Q = true) (hk : OnlyChanges Q s0 s) :
    OnlyChanges Q s0 (reissue d r w s) := by
  unfold reissue
  repeat' (first
    | with_reducible assumption
    | ((with_reducible refine .inr (subParts_mem hq ?_)); rfl)
    | with_reducible exact .inl rfl
    | with_reducible apply trayIssue_changes (hq := subParts_trans rfl hq)
    | with_reducible refine changes_ite ?_ ?_
    | (with_reducible refine changesParts_of ?_ ?_ ?_ ?_ ?_ ?_ ?_ ?_ ?_ ?_ ?_ ?_ ?_ ?_ ?_ ?_ ?_ ?_ ?_ ?_)
    | simp only [changes_mk]
    | with_reducible intro _
    | split
    | dsimp only [id])

theorem mirrorEnds_changes {Q : List Block} {s0 : State} {id : Nat} {c : Status} {s : State} (hq : subParts [.req, .pair, .near, .rma, .links, .free, .out] Q = true) (hk : OnlyChanges Q s0 s) :
    OnlyChanges Q s0 (mirrorEnds id c s) := by
  unfold mirrorEnds
  repeat' (first
    | with_reducible assumption
    | ((with_reducible refine .inr (subParts_mem hq ?_)); rfl)
    | with_reducible exact .inl rfl
    | with_reducible apply mirrorAck_changes (hq := subParts_trans rfl hq)
    | with_reducible apply reportEnd_changes (hq := subParts_trans rfl hq)
    | with_reducible refine changes_ite ?_ ?_
    | (with_reducible refine changesParts_of ?_ ?_ ?_ ?_ ?_ ?_ ?_ ?_ ?_ ?_ ?_ ?_ ?_ ?_ ?_ ?_ ?_ ?_ ?_ ?_)
    | simp only [changes_mk]
    | with_reducible intro _
    | split
    | dsimp only [id])

theorem handoverAgain_changes {Q : List Block} {s0 : State} {d : Nat} {q : ReqId} {s : State} (hq : subParts [.near, .links] Q = true) (hk : OnlyChanges Q s0 s) :
    OnlyChanges Q s0 (handoverAgain d q s) := by
  unfold handoverAgain
  repeat' (first
    | with_reducible assumption
    | ((with_reducible refine .inr (subParts_mem hq ?_)); rfl)
    | with_reducible exact .inl rfl
    | with_reducible apply ownerSwap_changes (hq := subParts_trans rfl hq)
    | with_reducible refine changes_ite ?_ ?_
    | (with_reducible refine changesParts_of ?_ ?_ ?_ ?_ ?_ ?_ ?_ ?_ ?_ ?_ ?_ ?_ ?_ ?_ ?_ ?_ ?_ ?_ ?_ ?_)
    | simp only [changes_mk]
    | with_reducible intro _
    | split
    | dsimp only [id])

theorem pauseAgain_changes {Q : List Block} {s0 : State} {d : Nat} {q : ReqId} {s : State} (hq : subParts [.near, .links] Q = true) (hk : OnlyChanges Q s0 s) :
    OnlyChanges Q s0 (pauseAgain d q s) := by
  unfold pauseAgain
  repeat' (first
    | with_reducible assumption
    | ((with_reducible refine .inr (subParts_mem hq ?_)); rfl)
    | with_reducible exact .inl rfl
    | with_reducible apply ownerSwap_changes (hq := subParts_trans rfl hq)
    | with_reducible refine changes_ite ?_ ?_
    | (with_reducible refine changesParts_of ?_ ?_ ?_ ?_ ?_ ?_ ?_ ?_ ?_ ?_ ?_ ?_ ?_ ?_ ?_ ?_ ?_ ?_ ?_ ?_)
    | simp only [changes_mk]
    | with_reducible intro _
    | split
    | dsimp only [id])

theorem takeOverAgain_changes {Q : List Block} {s0 : State} {d : Nat} {q : ReqId} {s : State} (hq : subParts [.near, .links] Q = true) (hk : OnlyChanges Q s0 s) :
    OnlyChanges Q s0 (takeOverAgain d q s) := by
  unfold takeOverAgain
  repeat' (first
    | with_reducible assumption
    | ((with_reducible refine .inr (subParts_mem hq ?_)); rfl)
    | with_reducible exact .inl rfl
    | with_reducible apply ownerSwapFrom_changes (hq := subParts_trans rfl hq)
    | with_reducible refine changes_ite ?_ ?_
    | (with_reducible refine changesParts_of ?_ ?_ ?_ ?_ ?_ ?_ ?_ ?_ ?_ ?_ ?_ ?_ ?_ ?_ ?_ ?_ ?_ ?_ ?_ ?_)
    | simp only [changes_mk]
    | with_reducible intro _
    | split
    | dsimp only [id])

theorem whyEnd_changes {Q : List Block} {s0 : State} {d : Nat} {r : TrayReq} {w : TrayWhy} {local_ : Bool} {c : Status} {payload : WithReads (List Byte)} {s : State} (hq : subParts [.dev, .maint, .forme, .codec, .tier, .clusters, .sched, .req, .pair, .near, .rma, .links, .free, .out] Q = true) (hk : OnlyChanges Q s0 s) :
    OnlyChanges Q s0 (whyEnd d r w local_ c payload s) := by
  unfold whyEnd
  repeat' (first
    | with_reducible assumption
    | ((with_reducible refine .inr (subParts_mem hq ?_)); rfl)
    | with_reducible exact .inl rfl
    | with_reducible apply foldl_changes
    | with_reducible apply foldl_changes_fst
    | with_reducible apply foldl_changes_snd
    | with_reducible apply takeOverAgain_changes (hq := subParts_trans rfl hq)
    | with_reducible apply pauseAgain_changes (hq := subParts_trans rfl hq)
    | with_reducible apply handoverAgain_changes (hq := subParts_trans rfl hq)
    | with_reducible apply mirrorEnds_changes (hq := subParts_trans rfl hq)
    | with_reducible apply reissue_changes (hq := subParts_trans rfl hq)
    | with_reducible apply takeOverAnswer_changes (hq := subParts_trans rfl hq)
    | with_reducible apply reserveAnswer_changes (hq := subParts_trans rfl hq)
    | with_reducible apply commitAnswer_changes (hq := subParts_trans rfl hq)
    | with_reducible apply pauseDone_changes (hq := subParts_trans rfl hq)
    | with_reducible apply handoverDone_changes (hq := subParts_trans rfl hq)
    | with_reducible apply commitIssue_changes (hq := subParts_trans rfl hq)
    | with_reducible apply dropAcked_changes (hq := subParts_trans rfl hq)
    | with_reducible apply silverAnswer_changes (hq := subParts_trans rfl hq)
    | with_reducible apply ckptAcked_changes (hq := subParts_trans rfl hq)
    | with_reducible apply recUpd_changes (hq := subParts_trans rfl hq)
    | with_reducible apply reportEnd_changes (hq := subParts_trans rfl hq)
    | with_reducible apply breakChannels_changes (hq := subParts_trans rfl hq)
    | with_reducible refine changes_ite ?_ ?_
    | (with_reducible refine changesParts_of ?_ ?_ ?_ ?_ ?_ ?_ ?_ ?_ ?_ ?_ ?_ ?_ ?_ ?_ ?_ ?_ ?_ ?_ ?_ ?_)
    | simp only [changes_mk]
    | with_reducible intro _
    | split
    | dsimp only [id])

theorem fenceCount_changes {Q : List Block} {s0 : State} {d : Nat} {n : Nat} {c : Status} {s : State}  (hq : subParts [.near] Q = true) (hk : OnlyChanges Q s0 s) :
    OnlyChanges Q s0 (fenceCount d n c s) := by
  unfold fenceCount
  repeat' (first
    | with_reducible assumption
    | ((with_reducible refine .inr (subParts_mem hq ?_)); rfl)
    | with_reducible exact .inl rfl
    | with_reducible refine changes_ite ?_ ?_
    | (with_reducible refine changesParts_of ?_ ?_ ?_ ?_ ?_ ?_ ?_ ?_ ?_ ?_ ?_ ?_ ?_ ?_ ?_ ?_ ?_ ?_ ?_ ?_)
    | simp only [changes_mk]
    | with_reducible intro _
    | split
    | dsimp only [id])

theorem fencesRun_changes {Q : List Block} {s0 : State} {s : State} (hq : subParts [.codec, .tier, .req, .pair, .near, .rma, .links, .free, .out] Q = true) (hk : OnlyChanges Q s0 s) :
    OnlyChanges Q s0 (fencesRun s) := by
  unfold fencesRun
  repeat' (first
    | with_reducible assumption
    | ((with_reducible refine .inr (subParts_mem hq ?_)); rfl)
    | with_reducible exact .inl rfl
    | with_reducible apply foldl_changes
    | with_reducible apply foldl_changes_fst
    | with_reducible apply foldl_changes_snd
    | with_reducible apply commitFailed_changes (hq := subParts_trans rfl hq)
    | with_reducible apply commitIssue_changes (hq := subParts_trans rfl hq)
    | with_reducible apply addCond_changes (hq := subParts_trans rfl hq)
    | with_reducible refine changes_ite ?_ ?_
    | (with_reducible refine changesParts_of ?_ ?_ ?_ ?_ ?_ ?_ ?_ ?_ ?_ ?_ ?_ ?_ ?_ ?_ ?_ ?_ ?_ ?_ ?_ ?_)
    | simp only [changes_mk]
    | with_reducible intro _
    | split
    | dsimp only [id])

theorem trayEnd_changes {Q : List Block} {s0 : State} {d : Nat} {n : Nat} {local_ : Bool} {c : Status} {payload : WithReads (List Byte)} {s : State} (hq : subParts [.dev, .maint, .forme, .codec, .tier, .clusters, .sched, .req, .pair, .near, .rma, .links, .free, .out] Q = true) (hk : OnlyChanges Q s0 s) :
    OnlyChanges Q s0 (trayEnd d n local_ c payload s) := by
  unfold trayEnd
  repeat' (first
    | with_reducible assumption
    | ((with_reducible refine .inr (subParts_mem hq ?_)); rfl)
    | with_reducible exact .inl rfl
    | with_reducible apply fencesRun_changes (hq := subParts_trans rfl hq)
    | with_reducible apply fenceCount_changes (hq := subParts_trans rfl hq)
    | with_reducible apply whyEnd_changes (hq := subParts_trans rfl hq)
    | with_reducible apply trayDrainAll_changes (hq := subParts_trans rfl hq)
    | with_reducible apply trayDstUpd_changes (hq := subParts_trans rfl hq)
    | with_reducible refine changes_ite ?_ ?_
    | (with_reducible refine changesParts_of ?_ ?_ ?_ ?_ ?_ ?_ ?_ ?_ ?_ ?_ ?_ ?_ ?_ ?_ ?_ ?_ ?_ ?_ ?_ ?_)
    | simp only [changes_mk]
    | with_reducible intro _
    | split
    | dsimp only [id])

theorem nearDrained_changes {Q : List Block} {s0 : State} {s : State}  (hq : subParts [.links] Q = true) (hk : OnlyChanges Q s0 s) :
    OnlyChanges Q s0 (nearDrained s) := by
  unfold nearDrained
  repeat' (first
    | with_reducible assumption
    | ((with_reducible refine .inr (subParts_mem hq ?_)); rfl)
    | with_reducible exact .inl rfl
    | with_reducible apply foldl_changes
    | with_reducible apply foldl_changes_fst
    | with_reducible apply foldl_changes_snd
    | with_reducible apply linkUpd_changes (hq := subParts_trans rfl hq)
    | with_reducible refine changes_ite ?_ ?_
    | (with_reducible refine changesParts_of ?_ ?_ ?_ ?_ ?_ ?_ ?_ ?_ ?_ ?_ ?_ ?_ ?_ ?_ ?_ ?_ ?_ ?_ ?_ ?_)
    | simp only [changes_mk]
    | with_reducible intro _
    | split
    | dsimp only [id])

theorem sendLstate_changes {Q : List Block} {s0 : State} {s : State}  (hq : subParts [.links] Q = true) (hk : OnlyChanges Q s0 s) :
    OnlyChanges Q s0 (sendLstate s) := by
  unfold sendLstate
  repeat' (first
    | with_reducible assumption
    | ((with_reducible refine .inr (subParts_mem hq ?_)); rfl)
    | with_reducible exact .inl rfl
    | with_reducible apply foldl_changes
    | with_reducible apply foldl_changes_fst
    | with_reducible apply foldl_changes_snd
    | with_reducible apply trayPacket_changes (hq := subParts_trans rfl hq)
    | with_reducible refine changes_ite ?_ ?_
    | (with_reducible refine changesParts_of ?_ ?_ ?_ ?_ ?_ ?_ ?_ ?_ ?_ ?_ ?_ ?_ ?_ ?_ ?_ ?_ ?_ ?_ ?_ ?_)
    | simp only [changes_mk]
    | with_reducible intro _
    | split
    | dsimp only [id])

theorem respAt_changes {Q : List Block} {s0 : State} {h : TrayHdr} {payload : WithReads (List Byte)} {s : State} (hq : subParts [.dev, .maint, .forme, .codec, .tier, .clusters, .sched, .req, .pair, .near, .rma, .links, .free, .out] Q = true) (hk : OnlyChanges Q s0 s) :
    OnlyChanges Q s0 (respAt h payload s) := by
  unfold respAt
  repeat' (first
    | with_reducible assumption
    | ((with_reducible refine .inr (subParts_mem hq ?_)); rfl)
    | with_reducible exact .inl rfl
    | with_reducible apply nearDrained_changes (hq := subParts_trans rfl hq)
    | with_reducible apply trayEnd_changes (hq := subParts_trans rfl hq)
    | with_reducible apply resendReq_changes (hq := subParts_trans rfl hq)
    | with_reducible refine changes_ite ?_ ?_
    | (with_reducible refine changesParts_of ?_ ?_ ?_ ?_ ?_ ?_ ?_ ?_ ?_ ?_ ?_ ?_ ?_ ?_ ?_ ?_ ?_ ?_ ?_ ?_)
    | simp only [changes_mk]
    | with_reducible intro _
    | split
    | dsimp only [id])

theorem creditAt_changes {Q : List Block} {s0 : State} {h : TrayHdr} {count : Word} {s : State} (hq : subParts [.dev, .maint, .clusters, .sched, .req, .near, .rma, .links, .out] Q = true) (hk : OnlyChanges Q s0 s) :
    OnlyChanges Q s0 (creditAt h count s) := by
  unfold creditAt
  repeat' (first
    | with_reducible assumption
    | ((with_reducible refine .inr (subParts_mem hq ?_)); rfl)
    | with_reducible exact .inl rfl
    | with_reducible apply creditBack_changes (hq := subParts_trans rfl hq)
    | with_reducible refine changes_ite ?_ ?_
    | (with_reducible refine changesParts_of ?_ ?_ ?_ ?_ ?_ ?_ ?_ ?_ ?_ ?_ ?_ ?_ ?_ ?_ ?_ ?_ ?_ ?_ ?_ ?_)
    | simp only [changes_mk]
    | with_reducible intro _
    | split
    | dsimp only [id])

theorem lstateAt_changes {Q : List Block} {s0 : State} {h : TrayHdr} {links : BitVec 15} {role : Byte} {model : Digest} {s : State} (hq : subParts [.near, .links] Q = true) (hk : OnlyChanges Q s0 s) :
    OnlyChanges Q s0 (lstateAt h links role model s) := by
  unfold lstateAt
  repeat' (first
    | with_reducible assumption
    | ((with_reducible refine .inr (subParts_mem hq ?_)); rfl)
    | with_reducible exact .inl rfl
    | with_reducible apply creditsRepath_changes (hq := subParts_trans rfl hq)
    | with_reducible refine changes_ite ?_ ?_
    | (with_reducible refine changesParts_of ?_ ?_ ?_ ?_ ?_ ?_ ?_ ?_ ?_ ?_ ?_ ?_ ?_ ?_ ?_ ?_ ?_ ?_ ?_ ?_)
    | simp only [changes_mk]
    | with_reducible intro _
    | split
    | dsimp only [id])

theorem noResponse_changes {Q : List Block} {s0 : State} {d : Nat} {n : Nat} {s : State}  (hq : subParts [.dev, .near, .links] Q = true) (hk : OnlyChanges Q s0 s) :
    OnlyChanges Q s0 (noResponse d n s) := by
  unfold noResponse
  repeat' (first
    | with_reducible assumption
    | ((with_reducible refine .inr (subParts_mem hq ?_)); rfl)
    | with_reducible exact .inl rfl
    | with_reducible apply sendSuspect_changes (hq := subParts_trans rfl hq)
    | with_reducible apply trayDstUpd_changes (hq := subParts_trans rfl hq)
    | with_reducible apply resendReq_changes (hq := subParts_trans rfl hq)
    | with_reducible apply noteErr_changes (hq := subParts_trans rfl hq)
    | with_reducible refine changes_ite ?_ ?_
    | (with_reducible refine changesParts_of ?_ ?_ ?_ ?_ ?_ ?_ ?_ ?_ ?_ ?_ ?_ ?_ ?_ ?_ ?_ ?_ ?_ ?_ ?_ ?_)
    | simp only [changes_mk]
    | with_reducible intro _
    | split
    | dsimp only [id])

theorem forwardAt_changes {Q : List Block} {s0 : State} {p : FwdPacket} {s : State} (hq : subParts [.near, .links] Q = true) (hk : OnlyChanges Q s0 s) :
    OnlyChanges Q s0 (forwardAt p s) := by
  unfold forwardAt
  repeat' (first
    | with_reducible assumption
    | ((with_reducible refine .inr (subParts_mem hq ?_)); rfl)
    | with_reducible exact .inl rfl
    | with_reducible apply trayPacket_changes (hq := subParts_trans rfl hq)
    | with_reducible apply enqueue_changes (hq := subParts_trans rfl hq)
    | with_reducible refine changes_ite ?_ ?_
    | (with_reducible refine changesParts_of ?_ ?_ ?_ ?_ ?_ ?_ ?_ ?_ ?_ ?_ ?_ ?_ ?_ ?_ ?_ ?_ ?_ ?_ ?_ ?_)
    | simp only [changes_mk]
    | with_reducible intro _
    | split
    | dsimp only [id])

end Sys2Proof.Machine
end

