-- ==== Sys2Proof/Laws/ChangesFormeOps.lean ====
section
/-!
SUPPORT. The blocks of the state that the operations of Sys2Proof/Machine/FormeOps.lean may change.
-/

namespace Sys2Proof.Machine

theorem loadClusters_changes {Q : List Block} {s0 : State} {c : Committed} {rs : List Nat} {s : State}  (hq : subParts [.clusters] Q = true) (hk : OnlyChanges Q s0 s) :
    OnlyChanges Q s0 (loadClusters c rs s) := by
  unfold loadClusters
  repeat' (first
    | with_reducible assumption
    | ((with_reducible refine .inr (subParts_mem hq ?_)); rfl)
    | with_reducible exact .inl rfl
    | with_reducible apply foldl_changes
    | with_reducible apply foldl_changes_fst
    | with_reducible apply foldl_changes_snd
    | with_reducible apply clusterUpd_changes (hq := subParts_trans rfl hq)
    | with_reducible refine changes_ite ?_ ?_
    | (with_reducible refine changesParts_of ?_ ?_ ?_ ?_ ?_ ?_ ?_ ?_ ?_ ?_ ?_ ?_ ?_ ?_ ?_ ?_ ?_ ?_ ?_ ?_)
    | simp only [changes_mk]
    | with_reducible intro _
    | split
    | dsimp only [id])

theorem initialMaps_changes {Q : List Block} {s0 : State} {c : Committed} {s : State} (hq : subParts [.repro] Q = true) (hk : OnlyChanges Q s0 s) :
    OnlyChanges Q s0 (initialMaps c s) := by
  unfold initialMaps
  repeat' (first
    | with_reducible assumption
    | ((with_reducible refine .inr (subParts_mem hq ?_)); rfl)
    | with_reducible exact .inl rfl
    | with_reducible apply foldl_changes
    | with_reducible apply foldl_changes_fst
    | with_reducible apply foldl_changes_snd
    | with_reducible refine changes_ite ?_ ?_
    | (with_reducible refine changesParts_of ?_ ?_ ?_ ?_ ?_ ?_ ?_ ?_ ?_ ?_ ?_ ?_ ?_ ?_ ?_ ?_ ?_ ?_ ?_ ?_)
    | simp only [changes_mk]
    | with_reducible intro _
    | split
    | dsimp only [id])

theorem channelQps_changes {Q : List Block} {s0 : State} {s : State} (hq : subParts [.rma, .out] Q = true) (hk : OnlyChanges Q s0 s) :
    OnlyChanges Q s0 (channelQps s) := by
  unfold channelQps
  repeat' (first
    | with_reducible assumption
    | ((with_reducible refine .inr (subParts_mem hq ?_)); rfl)
    | with_reducible exact .inl rfl
    | with_reducible apply foldl_changes
    | with_reducible apply foldl_changes_fst
    | with_reducible apply foldl_changes_snd
    | with_reducible apply qpMake_changes (hq := subParts_trans rfl hq)
    | with_reducible refine changes_ite ?_ ?_
    | (with_reducible refine changesParts_of ?_ ?_ ?_ ?_ ?_ ?_ ?_ ?_ ?_ ?_ ?_ ?_ ?_ ?_ ?_ ?_ ?_ ?_ ?_ ?_)
    | simp only [changes_mk]
    | with_reducible intro _
    | split
    | dsimp only [id])

theorem podBarriers_changes {Q : List Block} {s0 : State} {c : Committed} {ps : List Nat} {s : State}  (hq : subParts [.repro] Q = true) (hk : OnlyChanges Q s0 s) :
    OnlyChanges Q s0 (podBarriers c ps s) := by
  unfold podBarriers
  repeat' (first
    | with_reducible assumption
    | ((with_reducible refine .inr (subParts_mem hq ?_)); rfl)
    | with_reducible exact .inl rfl
    | with_reducible apply foldl_changes
    | with_reducible apply foldl_changes_fst
    | with_reducible apply foldl_changes_snd
    | with_reducible apply getD_changes
    | with_reducible refine changes_ite ?_ ?_
    | (with_reducible refine changesParts_of ?_ ?_ ?_ ?_ ?_ ?_ ?_ ?_ ?_ ?_ ?_ ?_ ?_ ?_ ?_ ?_ ?_ ?_ ?_ ?_)
    | simp only [changes_mk]
    | with_reducible intro _
    | split
    | dsimp only [id])

theorem clearSched_changes {Q : List Block} {s0 : State} {s : State}  (hq : subParts [.sched] Q = true) (hk : OnlyChanges Q s0 s) :
    OnlyChanges Q s0 (clearSched s) := by
  unfold clearSched
  repeat' (first
    | with_reducible assumption
    | ((with_reducible refine .inr (subParts_mem hq ?_)); rfl)
    | with_reducible exact .inl rfl
    | with_reducible refine changes_ite ?_ ?_
    | (with_reducible refine changesParts_of ?_ ?_ ?_ ?_ ?_ ?_ ?_ ?_ ?_ ?_ ?_ ?_ ?_ ?_ ?_ ?_ ?_ ?_ ?_ ?_)
    | simp only [changes_mk]
    | with_reducible intro _
    | split
    | dsimp only [id])

theorem clearRegions_changes {Q : List Block} {s0 : State} {rs : List Nat} {top : Nat → Nat} {s : State} (hq : subParts [.tier, .clusters] Q = true) (hk : OnlyChanges Q s0 s) :
    OnlyChanges Q s0 (clearRegions rs top s) := by
  unfold clearRegions
  repeat' (first
    | with_reducible assumption
    | ((with_reducible refine .inr (subParts_mem hq ?_)); rfl)
    | with_reducible exact .inl rfl
    | with_reducible apply foldl_changes
    | with_reducible apply foldl_changes_fst
    | with_reducible apply foldl_changes_snd
    | with_reducible refine changes_ite ?_ ?_
    | (with_reducible refine changesParts_of ?_ ?_ ?_ ?_ ?_ ?_ ?_ ?_ ?_ ?_ ?_ ?_ ?_ ?_ ?_ ?_ ?_ ?_ ?_ ?_)
    | simp only [changes_mk]
    | with_reducible intro _
    | split
    | dsimp only [id])

theorem loadEntropy_changes {Q : List Block} {s0 : State} {c : Committed} {ps : List Nat} {s : State}  (hq : subParts [.codec] Q = true) (hk : OnlyChanges Q s0 s) :
    OnlyChanges Q s0 (loadEntropy c ps s) := by
  unfold loadEntropy
  repeat' (first
    | with_reducible assumption
    | ((with_reducible refine .inr (subParts_mem hq ?_)); rfl)
    | with_reducible exact .inl rfl
    | with_reducible apply foldl_changes
    | with_reducible apply foldl_changes_fst
    | with_reducible apply foldl_changes_snd
    | with_reducible apply getD_changes
    | with_reducible refine changes_ite ?_ ?_
    | (with_reducible refine changesParts_of ?_ ?_ ?_ ?_ ?_ ?_ ?_ ?_ ?_ ?_ ?_ ?_ ?_ ?_ ?_ ?_ ?_ ?_ ?_ ?_)
    | simp only [changes_mk]
    | with_reducible intro _
    | split
    | dsimp only [id])

theorem plateStore_changes {Q : List Block} {s0 : State} {r : PlateRef} {bs : List Byte} {s : State}  (hq : subParts [.tier] Q = true) (hk : OnlyChanges Q s0 s) :
    OnlyChanges Q s0 (plateStore r bs s) := by
  unfold plateStore
  repeat' (first
    | with_reducible assumption
    | ((with_reducible refine .inr (subParts_mem hq ?_)); rfl)
    | with_reducible exact .inl rfl
    | with_reducible apply foldl_changes
    | with_reducible apply foldl_changes_fst
    | with_reducible apply foldl_changes_snd
    | with_reducible apply sliceStore_changes (hq := subParts_trans rfl hq)
    | with_reducible apply t1Write_changes (hq := subParts_trans rfl hq)
    | with_reducible refine changes_ite ?_ ?_
    | (with_reducible refine changesParts_of ?_ ?_ ?_ ?_ ?_ ?_ ?_ ?_ ?_ ?_ ?_ ?_ ?_ ?_ ?_ ?_ ?_ ?_ ?_ ?_)
    | simp only [changes_mk]
    | with_reducible intro _
    | split
    | dsimp only [id])

theorem platesMove_changes {Q : List Block} {s0 : State} {s : State}  (hq : subParts [.forme, .pair] Q = true) (hk : OnlyChanges Q s0 s) :
    OnlyChanges Q s0 (platesMove s) := by
  unfold platesMove
  repeat' (first
    | with_reducible assumption
    | ((with_reducible refine .inr (subParts_mem hq ?_)); rfl)
    | with_reducible exact .inl rfl
    | with_reducible apply pairFollow_changes (hq := subParts_trans rfl hq)
    | with_reducible refine changes_ite ?_ ?_
    | (with_reducible refine changesParts_of ?_ ?_ ?_ ?_ ?_ ?_ ?_ ?_ ?_ ?_ ?_ ?_ ?_ ?_ ?_ ?_ ?_ ?_ ?_ ?_)
    | simp only [changes_mk]
    | with_reducible intro _
    | split
    | dsimp only [id])

theorem formeEnd_changes {Q : List Block} {s0 : State} {c : Status} {stage : Nat} {sect : Nat} {s : State}  (hq : subParts [.dev, .forme, .out] Q = true) (hk : OnlyChanges Q s0 s) :
    OnlyChanges Q s0 (formeEnd c stage sect s) := by
  unfold formeEnd
  repeat' (first
    | with_reducible assumption
    | ((with_reducible refine .inr (subParts_mem hq ?_)); rfl)
    | with_reducible exact .inl rfl
    | with_reducible apply noteErr_changes (hq := subParts_trans rfl hq)
    | with_reducible apply msix_changes (hq := subParts_trans rfl hq)
    | with_reducible refine changes_ite ?_ ?_
    | (with_reducible refine changesParts_of ?_ ?_ ?_ ?_ ?_ ?_ ?_ ?_ ?_ ?_ ?_ ?_ ?_ ?_ ?_ ?_ ?_ ?_ ?_ ?_)
    | simp only [changes_mk]
    | with_reducible intro _
    | split
    | dsimp only [id])

theorem formeCode_changes {Q : List Block} {s0 : State} {c : Status} {s : State}  (hq : subParts [.forme] Q = true) (hk : OnlyChanges Q s0 s) :
    OnlyChanges Q s0 (formeCode c s) := by
  unfold formeCode
  repeat' (first
    | with_reducible assumption
    | ((with_reducible refine .inr (subParts_mem hq ?_)); rfl)
    | with_reducible exact .inl rfl
    | with_reducible refine changes_ite ?_ ?_
    | (with_reducible refine changesParts_of ?_ ?_ ?_ ?_ ?_ ?_ ?_ ?_ ?_ ?_ ?_ ?_ ?_ ?_ ?_ ?_ ?_ ?_ ?_ ?_)
    | simp only [changes_mk]
    | with_reducible intro _
    | split
    | dsimp only [id])

theorem formeAnswer_changes {Q : List Block} {s0 : State} {c : Status} {s : State}  (hq : subParts [.dev, .forme, .out] Q = true) (hk : OnlyChanges Q s0 s) :
    OnlyChanges Q s0 (formeAnswer c s) := by
  unfold formeAnswer
  repeat' (first
    | with_reducible assumption
    | ((with_reducible refine .inr (subParts_mem hq ?_)); rfl)
    | with_reducible exact .inl rfl
    | with_reducible apply formeEnd_changes (hq := subParts_trans rfl hq)
    | with_reducible refine changes_ite ?_ ?_
    | (with_reducible refine changesParts_of ?_ ?_ ?_ ?_ ?_ ?_ ?_ ?_ ?_ ?_ ?_ ?_ ?_ ?_ ?_ ?_ ?_ ?_ ?_ ?_)
    | simp only [changes_mk]
    | with_reducible intro _
    | split
    | dsimp only [id])

theorem keepSections_changes {Q : List Block} {s0 : State} {c : Committed} {s : State} (hq : subParts [.tier] Q = true) (hk : OnlyChanges Q s0 s) :
    OnlyChanges Q s0 (keepSections c s) := by
  unfold keepSections
  repeat' (first
    | with_reducible assumption
    | ((with_reducible refine .inr (subParts_mem hq ?_)); rfl)
    | with_reducible exact .inl rfl
    | with_reducible apply foldl_changes
    | with_reducible apply foldl_changes_fst
    | with_reducible apply foldl_changes_snd
    | with_reducible refine changes_ite ?_ ?_
    | (with_reducible refine changesParts_of ?_ ?_ ?_ ?_ ?_ ?_ ?_ ?_ ?_ ?_ ?_ ?_ ?_ ?_ ?_ ?_ ?_ ?_ ?_ ?_)
    | simp only [changes_mk]
    | with_reducible intro _
    | split
    | dsimp only [id])

theorem loadContexts_changes {Q : List Block} {s0 : State} {c : Committed} {s : State} (hq : subParts [.sched] Q = true) (hk : OnlyChanges Q s0 s) :
    OnlyChanges Q s0 (loadContexts c s) := by
  unfold loadContexts
  repeat' (first
    | with_reducible assumption
    | ((with_reducible refine .inr (subParts_mem hq ?_)); rfl)
    | with_reducible exact .inl rfl
    | with_reducible apply foldl_changes
    | with_reducible apply foldl_changes_fst
    | with_reducible apply foldl_changes_snd
    | with_reducible refine changes_ite ?_ ?_
    | (with_reducible refine changesParts_of ?_ ?_ ?_ ?_ ?_ ?_ ?_ ?_ ?_ ?_ ?_ ?_ ?_ ?_ ?_ ?_ ?_ ?_ ?_ ?_)
    | simp only [changes_mk]
    | with_reducible intro _
    | split
    | dsimp only [id])

theorem commitConfig_changes {Q : List Block} {s0 : State} {c : Committed} {img : FormeImage} {s : State} (hq : subParts [.forme] Q = true) (hk : OnlyChanges Q s0 s) :
    OnlyChanges Q s0 (commitConfig c img s) := by
  unfold commitConfig
  repeat' (first
    | with_reducible assumption
    | ((with_reducible refine .inr (subParts_mem hq ?_)); rfl)
    | with_reducible exact .inl rfl
    | with_reducible refine changes_ite ?_ ?_
    | (with_reducible refine changesParts_of ?_ ?_ ?_ ?_ ?_ ?_ ?_ ?_ ?_ ?_ ?_ ?_ ?_ ?_ ?_ ?_ ?_ ?_ ?_ ?_)
    | simp only [changes_mk]
    | with_reducible intro _
    | split
    | dsimp only [id])

theorem commitClusters_changes {Q : List Block} {s0 : State} {c : Committed} {s : State}  (hq : subParts [.clusters, .sched] Q = true) (hk : OnlyChanges Q s0 s) :
    OnlyChanges Q s0 (commitClusters c s) := by
  unfold commitClusters
  repeat' (first
    | with_reducible assumption
    | ((with_reducible refine .inr (subParts_mem hq ?_)); rfl)
    | with_reducible exact .inl rfl
    | with_reducible apply loadClusters_changes (hq := subParts_trans rfl hq)
    | with_reducible apply clearSched_changes (hq := subParts_trans rfl hq)
    | with_reducible refine changes_ite ?_ ?_
    | (with_reducible refine changesParts_of ?_ ?_ ?_ ?_ ?_ ?_ ?_ ?_ ?_ ?_ ?_ ?_ ?_ ?_ ?_ ?_ ?_ ?_ ?_ ?_)
    | simp only [changes_mk]
    | with_reducible intro _
    | split
    | dsimp only [id])

theorem commitMemory_changes {Q : List Block} {s0 : State} {c : Committed} {k : Nat} {n : Nat} {s : State} (hq : subParts [.maint, .sec, .codec, .tier] Q = true) (hk : OnlyChanges Q s0 s) :
    OnlyChanges Q s0 (commitMemory c k n s) := by
  unfold commitMemory
  repeat' (first
    | with_reducible assumption
    | ((with_reducible refine .inr (subParts_mem hq ?_)); rfl)
    | with_reducible exact .inl rfl
    | with_reducible apply keepSections_changes (hq := subParts_trans rfl hq)
    | with_reducible refine changes_ite ?_ ?_
    | (with_reducible refine changesParts_of ?_ ?_ ?_ ?_ ?_ ?_ ?_ ?_ ?_ ?_ ?_ ?_ ?_ ?_ ?_ ?_ ?_ ?_ ?_ ?_)
    | simp only [changes_mk]
    | with_reducible intro _
    | split
    | dsimp only [id])

theorem formeCommit_changes {Q : List Block} {s0 : State} {c : Committed} {img : FormeImage} {s : State}  (hq : subParts [.maint, .sec, .drbg, .forme, .codec, .tier, .clusters, .sched, .repro, .pair, .rma, .links, .free, .out] Q = true) (hk : OnlyChanges Q s0 s) :
    OnlyChanges Q s0 (formeCommit c img s) := by
  unfold formeCommit
  repeat' (first
    | with_reducible assumption
    | ((with_reducible refine .inr (subParts_mem hq ?_)); rfl)
    | with_reducible exact .inl rfl
    | with_reducible apply commitClusters_changes (hq := subParts_trans rfl hq)
    | with_reducible apply loadContexts_changes (hq := subParts_trans rfl hq)
    | with_reducible apply commitConfig_changes (hq := subParts_trans rfl hq)
    | with_reducible apply commitMemory_changes (hq := subParts_trans rfl hq)
    | with_reducible apply initialMaps_changes (hq := subParts_trans rfl hq)
    | with_reducible apply podBarriers_changes (hq := subParts_trans rfl hq)
    | with_reducible apply loadEntropy_changes (hq := subParts_trans rfl hq)
    | with_reducible apply sendLstate_changes (hq := subParts_trans rfl hq)
    | with_reducible apply channelQps_changes (hq := subParts_trans rfl hq)
    | with_reducible apply platesMove_changes (hq := subParts_trans rfl hq)
    | with_reducible apply bumpFree_changes (hq := subParts_trans rfl hq)
    | with_reducible apply draw_changes (hq := subParts_trans rfl hq)
    | (with_reducible apply draw_changes_of (hq := subParts_trans rfl hq) (eq_ := by assumption))
    | with_reducible refine changes_ite ?_ ?_
    | (with_reducible refine changesParts_of ?_ ?_ ?_ ?_ ?_ ?_ ?_ ?_ ?_ ?_ ?_ ?_ ?_ ?_ ?_ ?_ ?_ ?_ ?_ ?_)
    | simp only [changes_mk]
    | with_reducible intro _
    | split
    | dsimp only [id])

theorem formeGone_changes {Q : List Block} {s0 : State} {s : State} (hq : subParts [.maint, .sec, .forme, .codec, .tier, .clusters, .sched, .repro, .pair] Q = true) (hk : OnlyChanges Q s0 s) :
    OnlyChanges Q s0 (formeGone s) := by
  unfold formeGone
  repeat' (first
    | with_reducible assumption
    | ((with_reducible refine .inr (subParts_mem hq ?_)); rfl)
    | with_reducible exact .inl rfl
    | with_reducible apply pairFollow_changes (hq := subParts_trans rfl hq)
    | with_reducible apply clearRegions_changes (hq := subParts_trans rfl hq)
    | with_reducible apply clearSched_changes (hq := subParts_trans rfl hq)
    | with_reducible refine changes_ite ?_ ?_
    | (with_reducible refine changesParts_of ?_ ?_ ?_ ?_ ?_ ?_ ?_ ?_ ?_ ?_ ?_ ?_ ?_ ?_ ?_ ?_ ?_ ?_ ?_ ?_)
    | simp only [changes_mk]
    | with_reducible intro _
    | split
    | dsimp only [id])

theorem freeRetired_changes {Q : List Block} {s0 : State} {s : State}  (hq : subParts [.req] Q = true) (hk : OnlyChanges Q s0 s) :
    OnlyChanges Q s0 (freeRetired s) := by
  unfold freeRetired
  repeat' (first
    | with_reducible assumption
    | ((with_reducible refine .inr (subParts_mem hq ?_)); rfl)
    | with_reducible exact .inl rfl
    | with_reducible refine changes_ite ?_ ?_
    | (with_reducible refine changesParts_of ?_ ?_ ?_ ?_ ?_ ?_ ?_ ?_ ?_ ?_ ?_ ?_ ?_ ?_ ?_ ?_ ?_ ?_ ?_ ?_)
    | simp only [changes_mk]
    | with_reducible intro _
    | split
    | dsimp only [id])

theorem unloadStart_changes {Q : List Block} {s0 : State} {s : State} (hq : subParts [.sec, .forme, .tier, .pair] Q = true) (hk : OnlyChanges Q s0 s) :
    OnlyChanges Q s0 (unloadStart s) := by
  unfold unloadStart
  repeat' (first
    | with_reducible assumption
    | ((with_reducible refine .inr (subParts_mem hq ?_)); rfl)
    | with_reducible exact .inl rfl
    | with_reducible apply writeBack_changes (hq := subParts_trans rfl hq)
    | with_reducible apply pairFollow_changes (hq := subParts_trans rfl hq)
    | with_reducible refine changes_ite ?_ ?_
    | (with_reducible refine changesParts_of ?_ ?_ ?_ ?_ ?_ ?_ ?_ ?_ ?_ ?_ ?_ ?_ ?_ ?_ ?_ ?_ ?_ ?_ ?_ ?_)
    | simp only [changes_mk]
    | with_reducible intro _
    | split
    | dsimp only [id])

theorem unloadDone_changes {Q : List Block} {s0 : State} {s : State}  (hq : subParts [.maint, .sec, .forme, .codec, .tier, .clusters, .sched, .repro, .req, .pair] Q = true) (hk : OnlyChanges Q s0 s) :
    OnlyChanges Q s0 (unloadDone s) := by
  unfold unloadDone
  repeat' (first
    | with_reducible assumption
    | ((with_reducible refine .inr (subParts_mem hq ?_)); rfl)
    | with_reducible exact .inl rfl
    | with_reducible apply silverClear_changes (hq := subParts_trans rfl hq)
    | with_reducible apply freeRetired_changes (hq := subParts_trans rfl hq)
    | with_reducible apply formeGone_changes (hq := subParts_trans rfl hq)
    | with_reducible refine changes_ite ?_ ?_
    | (with_reducible refine changesParts_of ?_ ?_ ?_ ?_ ?_ ?_ ?_ ?_ ?_ ?_ ?_ ?_ ?_ ?_ ?_ ?_ ?_ ?_ ?_ ?_)
    | simp only [changes_mk]
    | with_reducible intro _
    | split
    | dsimp only [id])

theorem drainShelve_changes {Q : List Block} {s0 : State} {s : State}  (hq : subParts [.tier, .req] Q = true) (hk : OnlyChanges Q s0 s) :
    OnlyChanges Q s0 (drainShelve s) := by
  unfold drainShelve
  repeat' (first
    | with_reducible assumption
    | ((with_reducible refine .inr (subParts_mem hq ?_)); rfl)
    | with_reducible exact .inl rfl
    | with_reducible apply foldl_changes
    | with_reducible apply foldl_changes_fst
    | with_reducible apply foldl_changes_snd
    | with_reducible apply shelveStart_changes (hq := subParts_trans rfl hq)
    | with_reducible refine changes_ite ?_ ?_
    | (with_reducible refine changesParts_of ?_ ?_ ?_ ?_ ?_ ?_ ?_ ?_ ?_ ?_ ?_ ?_ ?_ ?_ ?_ ?_ ?_ ?_ ?_ ?_)
    | simp only [changes_mk]
    | with_reducible intro _
    | split
    | dsimp only [id])

theorem drainEnd_changes {Q : List Block} {s0 : State} {s : State} (hq : subParts [.dev, .forme, .tier, .clusters, .sched, .out] Q = true) (hk : OnlyChanges Q s0 s) :
    OnlyChanges Q s0 (drainEnd s) := by
  unfold drainEnd
  repeat' (first
    | with_reducible assumption
    | ((with_reducible refine .inr (subParts_mem hq ?_)); rfl)
    | with_reducible exact .inl rfl
    | with_reducible apply writeBack_changes (hq := subParts_trans rfl hq)
    | with_reducible apply formeEnd_changes (hq := subParts_trans rfl hq)
    | with_reducible apply clearRegions_changes (hq := subParts_trans rfl hq)
    | with_reducible refine changes_ite ?_ ?_
    | (with_reducible refine changesParts_of ?_ ?_ ?_ ?_ ?_ ?_ ?_ ?_ ?_ ?_ ?_ ?_ ?_ ?_ ?_ ?_ ?_ ?_ ?_ ?_)
    | simp only [changes_mk]
    | with_reducible intro _
    | split
    | dsimp only [id])

theorem replaceCommit_changes {Q : List Block} {s0 : State} {old : Committed} {new : Committed} {img : FormeImage} {s : State} (hq : subParts [.dev, .forme, .codec, .tier, .clusters, .repro, .pair, .rma, .links, .out] Q = true) (hk : OnlyChanges Q s0 s) :
    OnlyChanges Q s0 (replaceCommit old new img s) := by
  unfold replaceCommit
  repeat' (first
    | with_reducible assumption
    | ((with_reducible refine .inr (subParts_mem hq ?_)); rfl)
    | with_reducible exact .inl rfl
    | with_reducible apply foldl_changes
    | with_reducible apply foldl_changes_fst
    | with_reducible apply foldl_changes_snd
    | with_reducible apply sendLstate_changes (hq := subParts_trans rfl hq)
    | with_reducible apply keepSections_changes (hq := subParts_trans rfl hq)
    | with_reducible apply formeEnd_changes (hq := subParts_trans rfl hq)
    | with_reducible apply platesMove_changes (hq := subParts_trans rfl hq)
    | with_reducible apply loadEntropy_changes (hq := subParts_trans rfl hq)
    | with_reducible apply podBarriers_changes (hq := subParts_trans rfl hq)
    | with_reducible apply channelQps_changes (hq := subParts_trans rfl hq)
    | with_reducible apply loadClusters_changes (hq := subParts_trans rfl hq)
    | with_reducible refine changes_ite ?_ ?_
    | (with_reducible refine changesParts_of ?_ ?_ ?_ ?_ ?_ ?_ ?_ ?_ ?_ ?_ ?_ ?_ ?_ ?_ ?_ ?_ ?_ ?_ ?_ ?_)
    | simp only [changes_mk]
    | with_reducible intro _
    | split
    | dsimp only [id])

theorem formeReopen_changes {Q : List Block} {s0 : State} {s : State} (hq : subParts [.forme] Q = true) (hk : OnlyChanges Q s0 s) :
    OnlyChanges Q s0 (formeReopen s) := by
  unfold formeReopen
  repeat' (first
    | with_reducible assumption
    | ((with_reducible refine .inr (subParts_mem hq ?_)); rfl)
    | with_reducible exact .inl rfl
    | with_reducible refine changes_ite ?_ ?_
    | (with_reducible refine changesParts_of ?_ ?_ ?_ ?_ ?_ ?_ ?_ ?_ ?_ ?_ ?_ ?_ ?_ ?_ ?_ ?_ ?_ ?_ ?_ ?_)
    | simp only [changes_mk]
    | with_reducible intro _
    | split
    | dsimp only [id])

end Sys2Proof.Machine
end

