-- ==== Sys2Proof/Laws/ChangesForme.lean ====
section
/-!
SUPPORT. The blocks of the state that the operations of Sys2Proof/Machine/Forme.lean may change.
-/

namespace Sys2Proof.Machine

theorem formeCtl_changes {Q : List Block} {s0 : State} {w : CtlWrite} {own : Nat} {run : State → State} {s : State} (h_run : ∀ (u : State), OnlyChanges Q s0 u → OnlyChanges Q s0 (run u)) (hq : subParts [.forme] Q = true) (hk : OnlyChanges Q s0 s) :
    OnlyChanges Q s0 (formeCtl w own run s) := by
  unfold formeCtl
  repeat' (first
    | with_reducible assumption
    | ((with_reducible refine .inr (subParts_mem hq ?_)); rfl)
    | with_reducible exact .inl rfl
    | with_reducible apply formeCode_changes (hq := subParts_trans rfl hq)
    | with_reducible apply ctl_changes (hq := subParts_trans rfl hq)
    | with_reducible apply h_run
    | with_reducible refine changes_ite ?_ ?_
    | (with_reducible refine changesParts_of ?_ ?_ ?_ ?_ ?_ ?_ ?_ ?_ ?_ ?_ ?_ ?_ ?_ ?_ ?_ ?_ ?_ ?_ ?_ ?_)
    | simp only [changes_mk]
    | with_reducible intro _
    | split
    | dsimp only [id])

theorem formeRun_changes {Q : List Block} {s0 : State} {x : FormeCmd} {s : State}  (hq : subParts [.forme] Q = true) (hk : OnlyChanges Q s0 s) :
    OnlyChanges Q s0 (formeRun x s) := by
  unfold formeRun
  repeat' (first
    | with_reducible assumption
    | ((with_reducible refine .inr (subParts_mem hq ?_)); rfl)
    | with_reducible exact .inl rfl
    | with_reducible refine changes_ite ?_ ?_
    | (with_reducible refine changesParts_of ?_ ?_ ?_ ?_ ?_ ?_ ?_ ?_ ?_ ?_ ?_ ?_ ?_ ?_ ?_ ?_ ?_ ?_ ?_ ?_)
    | simp only [changes_mk]
    | with_reducible intro _
    | split
    | dsimp only [id])

theorem loadStart_changes {Q : List Block} {s0 : State} {s : State}  (hq : subParts [.dev, .forme, .out] Q = true) (hk : OnlyChanges Q s0 s) :
    OnlyChanges Q s0 (loadStart s) := by
  unfold loadStart
  repeat' (first
    | with_reducible assumption
    | ((with_reducible refine .inr (subParts_mem hq ?_)); rfl)
    | with_reducible exact .inl rfl
    | with_reducible apply formeEnd_changes (hq := subParts_trans rfl hq)
    | with_reducible apply formeRun_changes (hq := subParts_trans rfl hq)
    | with_reducible refine changes_ite ?_ ?_
    | (with_reducible refine changesParts_of ?_ ?_ ?_ ?_ ?_ ?_ ?_ ?_ ?_ ?_ ?_ ?_ ?_ ?_ ?_ ?_ ?_ ?_ ?_ ?_)
    | simp only [changes_mk]
    | with_reducible intro _
    | split
    | dsimp only [id])

theorem execFormeLoad_changes {Q : List Block} {s0 : State} {w : CtlWrite} {s : State}  (hq : subParts [.dev, .forme, .out] Q = true) {tt : State} (hk : OnlyChanges Q s0 s) (eq_ : execFormeLoad w s = .next tt) : OnlyChanges Q s0 tt := by
  unfold execFormeLoad at eq_
  repeat' (first | split at eq_ | dsimp only at eq_)
  all_goals (first | (injection eq_ with eq_; subst eq_) | (cases eq_))
  repeat' (first
    | with_reducible assumption
    | ((with_reducible refine .inr (subParts_mem hq ?_)); rfl)
    | with_reducible exact .inl rfl
    | with_reducible apply loadStart_changes (hq := subParts_trans rfl hq)
    | with_reducible apply formeCtl_changes (hq := subParts_trans rfl hq)
    | with_reducible refine changes_ite ?_ ?_
    | (with_reducible refine changesParts_of ?_ ?_ ?_ ?_ ?_ ?_ ?_ ?_ ?_ ?_ ?_ ?_ ?_ ?_ ?_ ?_ ?_ ?_ ?_ ?_)
    | simp only [changes_mk]
    | with_reducible intro _
    | split
    | dsimp only [id])

theorem loadRead_changes {Q : List Block} {s0 : State} {r : ImageRead} {s : State}  (hq : subParts [.dev, .maint, .sec, .drbg, .forme, .codec, .tier, .clusters, .sched, .repro, .pair, .rma, .links, .free, .out] Q = true) (hk : OnlyChanges Q s0 s) :
    OnlyChanges Q s0 (loadRead r s) := by
  unfold loadRead
  repeat' (first
    | with_reducible assumption
    | ((with_reducible refine .inr (subParts_mem hq ?_)); rfl)
    | with_reducible exact .inl rfl
    | with_reducible apply formeCommit_changes (hq := subParts_trans rfl hq)
    | with_reducible apply formeEnd_changes (hq := subParts_trans rfl hq)
    | with_reducible refine changes_ite ?_ ?_
    | (with_reducible refine changesParts_of ?_ ?_ ?_ ?_ ?_ ?_ ?_ ?_ ?_ ?_ ?_ ?_ ?_ ?_ ?_ ?_ ?_ ?_ ?_ ?_)
    | simp only [changes_mk]
    | with_reducible intro _
    | split
    | dsimp only [id])

theorem replaceRead_changes {Q : List Block} {s0 : State} {r : ImageRead} {s : State} (hq : subParts [.dev, .forme, .codec, .tier, .clusters, .repro, .pair, .rma, .links, .out] Q = true) (hk : OnlyChanges Q s0 s) :
    OnlyChanges Q s0 (replaceRead r s) := by
  unfold replaceRead
  repeat' (first
    | with_reducible assumption
    | ((with_reducible refine .inr (subParts_mem hq ?_)); rfl)
    | with_reducible exact .inl rfl
    | with_reducible apply replaceCommit_changes (hq := subParts_trans rfl hq)
    | with_reducible apply formeEnd_changes (hq := subParts_trans rfl hq)
    | with_reducible refine changes_ite ?_ ?_
    | (with_reducible refine changesParts_of ?_ ?_ ?_ ?_ ?_ ?_ ?_ ?_ ?_ ?_ ?_ ?_ ?_ ?_ ?_ ?_ ?_ ?_ ?_ ?_)
    | simp only [changes_mk]
    | with_reducible intro _
    | split
    | dsimp only [id])

theorem plateRead_changes {Q : List Block} {s0 : State} {r : ImageRead} {s : State}  (hq : subParts [.dev, .forme, .tier, .pair, .out] Q = true) (hk : OnlyChanges Q s0 s) :
    OnlyChanges Q s0 (plateRead r s) := by
  unfold plateRead
  repeat' (first
    | with_reducible assumption
    | ((with_reducible refine .inr (subParts_mem hq ?_)); rfl)
    | with_reducible exact .inl rfl
    | with_reducible apply foldl_changes
    | with_reducible apply foldl_changes_fst
    | with_reducible apply foldl_changes_snd
    | with_reducible apply formeAnswer_changes (hq := subParts_trans rfl hq)
    | with_reducible apply plateStore_changes (hq := subParts_trans rfl hq)
    | with_reducible apply platesMove_changes (hq := subParts_trans rfl hq)
    | with_reducible apply formeEnd_changes (hq := subParts_trans rfl hq)
    | with_reducible refine changes_ite ?_ ?_
    | (with_reducible refine changesParts_of ?_ ?_ ?_ ?_ ?_ ?_ ?_ ?_ ?_ ?_ ?_ ?_ ?_ ?_ ?_ ?_ ?_ ?_ ?_ ?_)
    | simp only [changes_mk]
    | with_reducible intro _
    | split
    | dsimp only [id])

theorem formeImage_changes {Q : List Block} {s0 : State} {r : ImageRead} {s : State}  (hq : subParts [.dev, .maint, .sec, .drbg, .forme, .codec, .tier, .clusters, .sched, .repro, .pair, .rma, .links, .free, .out] Q = true) (hk : OnlyChanges Q s0 s) :
    OnlyChanges Q s0 (formeImage r s) := by
  unfold formeImage
  repeat' (first
    | with_reducible assumption
    | ((with_reducible refine .inr (subParts_mem hq ?_)); rfl)
    | with_reducible exact .inl rfl
    | with_reducible apply replaceRead_changes (hq := subParts_trans rfl hq)
    | with_reducible apply plateRead_changes (hq := subParts_trans rfl hq)
    | with_reducible apply loadRead_changes (hq := subParts_trans rfl hq)
    | with_reducible refine changes_ite ?_ ?_
    | (with_reducible refine changesParts_of ?_ ?_ ?_ ?_ ?_ ?_ ?_ ?_ ?_ ?_ ?_ ?_ ?_ ?_ ?_ ?_ ?_ ?_ ?_ ?_)
    | simp only [changes_mk]
    | with_reducible intro _
    | split
    | dsimp only [id])

theorem execFormeImageReadDone_changes {Q : List Block} {s0 : State} {r : ImageRead} {s : State}  (hq : subParts [.dev, .maint, .sec, .drbg, .forme, .codec, .tier, .clusters, .sched, .repro, .pair, .rma, .links, .free, .out] Q = true) {tt : State} (hk : OnlyChanges Q s0 s) (eq_ : execFormeImageReadDone r s = .next tt) : OnlyChanges Q s0 tt := by
  unfold execFormeImageReadDone at eq_
  repeat' (first | split at eq_ | dsimp only at eq_)
  all_goals (first | (injection eq_ with eq_; subst eq_) | (cases eq_))
  repeat' (first
    | with_reducible assumption
    | ((with_reducible refine .inr (subParts_mem hq ?_)); rfl)
    | with_reducible exact .inl rfl
    | with_reducible apply formeImage_changes (hq := subParts_trans rfl hq)
    | with_reducible refine changes_ite ?_ ?_
    | (with_reducible refine changesParts_of ?_ ?_ ?_ ?_ ?_ ?_ ?_ ?_ ?_ ?_ ?_ ?_ ?_ ?_ ?_ ?_ ?_ ?_ ?_ ?_)
    | simp only [changes_mk]
    | with_reducible intro _
    | split
    | dsimp only [id])

theorem execPlate_changes {Q : List Block} {s0 : State} {w : CtlWrite} {s : State}  (hq : subParts [.dev, .forme, .out] Q = true) {tt : State} (hk : OnlyChanges Q s0 s) (eq_ : execPlate w s = .next tt) : OnlyChanges Q s0 tt := by
  unfold execPlate at eq_
  repeat' (first | split at eq_ | dsimp only at eq_)
  all_goals (first | (injection eq_ with eq_; subst eq_) | (cases eq_))
  repeat' (first
    | with_reducible assumption
    | ((with_reducible refine .inr (subParts_mem hq ?_)); rfl)
    | with_reducible exact .inl rfl
    | with_reducible apply formeAnswer_changes (hq := subParts_trans rfl hq)
    | with_reducible apply formeCtl_changes (hq := subParts_trans rfl hq)
    | with_reducible apply formeRun_changes (hq := subParts_trans rfl hq)
    | with_reducible refine changes_ite ?_ ?_
    | (with_reducible refine changesParts_of ?_ ?_ ?_ ?_ ?_ ?_ ?_ ?_ ?_ ?_ ?_ ?_ ?_ ?_ ?_ ?_ ?_ ?_ ?_ ?_)
    | simp only [changes_mk]
    | with_reducible intro _
    | split
    | dsimp only [id])

theorem execFormeUnload_changes {Q : List Block} {s0 : State} {w : CtlWrite} {s : State}  (hq : subParts [.dev, .sec, .forme, .tier, .pair, .out] Q = true) {tt : State} (hk : OnlyChanges Q s0 s) (eq_ : execFormeUnload w s = .next tt) : OnlyChanges Q s0 tt := by
  unfold execFormeUnload at eq_
  repeat' (first | split at eq_ | dsimp only at eq_)
  all_goals (first | (injection eq_ with eq_; subst eq_) | (cases eq_))
  repeat' (first
    | with_reducible assumption
    | ((with_reducible refine .inr (subParts_mem hq ?_)); rfl)
    | with_reducible exact .inl rfl
    | with_reducible apply formeAnswer_changes (hq := subParts_trans rfl hq)
    | with_reducible apply unloadStart_changes (hq := subParts_trans rfl hq)
    | with_reducible apply formeCtl_changes (hq := subParts_trans rfl hq)
    | with_reducible refine changes_ite ?_ ?_
    | (with_reducible refine changesParts_of ?_ ?_ ?_ ?_ ?_ ?_ ?_ ?_ ?_ ?_ ?_ ?_ ?_ ?_ ?_ ?_ ?_ ?_ ?_ ?_)
    | simp only [changes_mk]
    | with_reducible intro _
    | split
    | dsimp only [id])

theorem execUnloadClearDone_changes {Q : List Block} {s0 : State} {s : State} {tt : State} (hq : subParts [.dev, .maint, .sec, .forme, .codec, .tier, .clusters, .sched, .repro, .req, .pair, .out] Q = true) (hk : OnlyChanges Q s0 s) (eq_ : execUnloadClearDone s = .next tt) : OnlyChanges Q s0 tt := by
  unfold execUnloadClearDone at eq_
  repeat' (first | split at eq_ | dsimp only at eq_)
  all_goals (first | (injection eq_ with eq_; subst eq_) | (cases eq_))
  repeat' (first
    | with_reducible assumption
    | ((with_reducible refine .inr (subParts_mem hq ?_)); rfl)
    | with_reducible exact .inl rfl
    | with_reducible apply unloadDone_changes (hq := subParts_trans rfl hq)
    | with_reducible apply formeAnswer_changes (hq := subParts_trans rfl hq)
    | with_reducible refine changes_ite ?_ ?_
    | (with_reducible refine changesParts_of ?_ ?_ ?_ ?_ ?_ ?_ ?_ ?_ ?_ ?_ ?_ ?_ ?_ ?_ ?_ ?_ ?_ ?_ ?_ ?_)
    | simp only [changes_mk]
    | with_reducible intro _
    | split
    | dsimp only [id])

theorem drainStart_changes {Q : List Block} {s0 : State} {s : State}  (hq : subParts [.forme, .tier, .req] Q = true) (hk : OnlyChanges Q s0 s) :
    OnlyChanges Q s0 (drainStart s) := by
  unfold drainStart
  repeat' (first
    | with_reducible assumption
    | ((with_reducible refine .inr (subParts_mem hq ?_)); rfl)
    | with_reducible exact .inl rfl
    | with_reducible apply drainShelve_changes (hq := subParts_trans rfl hq)
    | with_reducible apply formeRun_changes (hq := subParts_trans rfl hq)
    | with_reducible refine changes_ite ?_ ?_
    | (with_reducible refine changesParts_of ?_ ?_ ?_ ?_ ?_ ?_ ?_ ?_ ?_ ?_ ?_ ?_ ?_ ?_ ?_ ?_ ?_ ?_ ?_ ?_)
    | simp only [changes_mk]
    | with_reducible intro _
    | split
    | dsimp only [id])

theorem execDrain_changes {Q : List Block} {s0 : State} {w : CtlWrite} {s : State}  (hq : subParts [.dev, .forme, .tier, .req, .out] Q = true) {tt : State} (hk : OnlyChanges Q s0 s) (eq_ : execDrain w s = .next tt) : OnlyChanges Q s0 tt := by
  unfold execDrain at eq_
  repeat' (first | split at eq_ | dsimp only at eq_)
  all_goals (first | (injection eq_ with eq_; subst eq_) | (cases eq_))
  repeat' (first
    | with_reducible assumption
    | ((with_reducible refine .inr (subParts_mem hq ?_)); rfl)
    | with_reducible exact .inl rfl
    | with_reducible apply formeAnswer_changes (hq := subParts_trans rfl hq)
    | with_reducible apply drainStart_changes (hq := subParts_trans rfl hq)
    | with_reducible apply formeCtl_changes (hq := subParts_trans rfl hq)
    | with_reducible refine changes_ite ?_ ?_
    | (with_reducible refine changesParts_of ?_ ?_ ?_ ?_ ?_ ?_ ?_ ?_ ?_ ?_ ?_ ?_ ?_ ?_ ?_ ?_ ?_ ?_ ?_ ?_)
    | simp only [changes_mk]
    | with_reducible intro _
    | split
    | dsimp only [id])

theorem execDrainComplete_changes {Q : List Block} {s0 : State} {s : State}  (hq : subParts [.dev, .forme, .tier, .clusters, .sched, .out] Q = true) {tt : State} (hk : OnlyChanges Q s0 s) (eq_ : execDrainComplete s = .next tt) : OnlyChanges Q s0 tt := by
  unfold execDrainComplete at eq_
  repeat' (first | split at eq_ | dsimp only at eq_)
  all_goals (first | (injection eq_ with eq_; subst eq_) | (cases eq_))
  repeat' (first
    | with_reducible assumption
    | ((with_reducible refine .inr (subParts_mem hq ?_)); rfl)
    | with_reducible exact .inl rfl
    | with_reducible apply drainEnd_changes (hq := subParts_trans rfl hq)
    | with_reducible refine changes_ite ?_ ?_
    | (with_reducible refine changesParts_of ?_ ?_ ?_ ?_ ?_ ?_ ?_ ?_ ?_ ?_ ?_ ?_ ?_ ?_ ?_ ?_ ?_ ?_ ?_ ?_)
    | simp only [changes_mk]
    | with_reducible intro _
    | split
    | dsimp only [id])

theorem execReplace_changes {Q : List Block} {s0 : State} {w : CtlWrite} {s : State}  (hq : subParts [.dev, .forme, .out] Q = true) {tt : State} (hk : OnlyChanges Q s0 s) (eq_ : execReplace w s = .next tt) : OnlyChanges Q s0 tt := by
  unfold execReplace at eq_
  repeat' (first | split at eq_ | dsimp only at eq_)
  all_goals (first | (injection eq_ with eq_; subst eq_) | (cases eq_))
  repeat' (first
    | with_reducible assumption
    | ((with_reducible refine .inr (subParts_mem hq ?_)); rfl)
    | with_reducible exact .inl rfl
    | with_reducible apply formeAnswer_changes (hq := subParts_trans rfl hq)
    | with_reducible apply formeCtl_changes (hq := subParts_trans rfl hq)
    | with_reducible apply formeRun_changes (hq := subParts_trans rfl hq)
    | with_reducible refine changes_ite ?_ ?_
    | (with_reducible refine changesParts_of ?_ ?_ ?_ ?_ ?_ ?_ ?_ ?_ ?_ ?_ ?_ ?_ ?_ ?_ ?_ ?_ ?_ ?_ ?_ ?_)
    | simp only [changes_mk]
    | with_reducible intro _
    | split
    | dsimp only [id])

theorem execFormeResume_changes {Q : List Block} {s0 : State} {w : CtlWrite} {s : State}  (hq : subParts [.dev, .forme, .out] Q = true) {tt : State} (hk : OnlyChanges Q s0 s) (eq_ : execFormeResume w s = .next tt) : OnlyChanges Q s0 tt := by
  unfold execFormeResume at eq_
  repeat' (first | split at eq_ | dsimp only at eq_)
  all_goals (first | (injection eq_ with eq_; subst eq_) | (cases eq_))
  repeat' (first
    | with_reducible assumption
    | ((with_reducible refine .inr (subParts_mem hq ?_)); rfl)
    | with_reducible exact .inl rfl
    | with_reducible apply formeAnswer_changes (hq := subParts_trans rfl hq)
    | with_reducible apply formeReopen_changes (hq := subParts_trans rfl hq)
    | with_reducible apply formeCtl_changes (hq := subParts_trans rfl hq)
    | with_reducible refine changes_ite ?_ ?_
    | (with_reducible refine changesParts_of ?_ ?_ ?_ ?_ ?_ ?_ ?_ ?_ ?_ ?_ ?_ ?_ ?_ ?_ ?_ ?_ ?_ ?_ ?_ ?_)
    | simp only [changes_mk]
    | with_reducible intro _
    | split
    | dsimp only [id])

end Sys2Proof.Machine
end

