-- ==== Sys2Proof/Laws/ChangesReset.lean ====
section
/-!
SUPPORT. The blocks of the state that the operations of Sys2Proof/Machine/Reset.lean may change.
-/

namespace Sys2Proof.Machine

theorem writeRecord_changes {Q : List Block} {s0 : State} {upd : RepairRecord → RepairRecord} {s : State}  (hq : subParts [.maint, .out] Q = true) (hk : OnlyChanges Q s0 s) :
    OnlyChanges Q s0 (writeRecord upd s) := by
  unfold writeRecord
  repeat' (first
    | with_reducible assumption
    | ((with_reducible refine .inr (subParts_mem hq ?_)); rfl)
    | with_reducible exact .inl rfl
    | with_reducible apply getD_changes
    | with_reducible apply emit_changes (hq := subParts_trans rfl hq)
    | with_reducible refine changes_ite ?_ ?_
    | (with_reducible refine changesParts_of ?_ ?_ ?_ ?_ ?_ ?_ ?_ ?_ ?_ ?_ ?_ ?_ ?_ ?_ ?_ ?_ ?_ ?_ ?_ ?_)
    | simp only [changes_mk]
    | with_reducible intro _
    | split
    | dsimp only [id])

theorem recordFatal_changes {Q : List Block} {s0 : State} {cause : Nat} {s : State}  (hq : subParts [.dev, .maint, .out] Q = true) (hk : OnlyChanges Q s0 s) :
    OnlyChanges Q s0 (recordFatal cause s) := by
  unfold recordFatal
  repeat' (first
    | with_reducible assumption
    | ((with_reducible refine .inr (subParts_mem hq ?_)); rfl)
    | with_reducible exact .inl rfl
    | with_reducible apply msix_changes (hq := subParts_trans rfl hq)
    | with_reducible refine changes_ite ?_ ?_
    | (with_reducible refine changesParts_of ?_ ?_ ?_ ?_ ?_ ?_ ?_ ?_ ?_ ?_ ?_ ?_ ?_ ?_ ?_ ?_ ?_ ?_ ?_ ?_)
    | simp only [changes_mk]
    | with_reducible intro _
    | split
    | dsimp only [id])

theorem sense_changes {Q : List Block} {s0 : State} {s : State}  (hq : subParts [.maint, .free] Q = true) (hk : OnlyChanges Q s0 s) :
    OnlyChanges Q s0 (sense s) := by
  unfold sense
  repeat' (first
    | with_reducible assumption
    | ((with_reducible refine .inr (subParts_mem hq ?_)); rfl)
    | with_reducible exact .inl rfl
    | with_reducible refine changes_ite ?_ ?_
    | (with_reducible refine changesParts_of ?_ ?_ ?_ ?_ ?_ ?_ ?_ ?_ ?_ ?_ ?_ ?_ ?_ ?_ ?_ ?_ ?_ ?_ ?_ ?_)
    | simp only [changes_mk]
    | with_reducible intro _
    | split
    | dsimp only [id])

theorem stopBegins_changes {Q : List Block} {s0 : State} {wb : Bool} {sr : Bool} {s : State} (hq : subParts [.maint, .tier, .clusters, .free] Q = true) (hk : OnlyChanges Q s0 s) :
    OnlyChanges Q s0 (stopBegins wb sr s) := by
  unfold stopBegins
  repeat' (first
    | with_reducible assumption
    | ((with_reducible refine .inr (subParts_mem hq ?_)); rfl)
    | with_reducible exact .inl rfl
    | with_reducible apply foldl_changes
    | with_reducible apply foldl_changes_fst
    | with_reducible apply foldl_changes_snd
    | with_reducible apply sense_changes (hq := subParts_trans rfl hq)
    | with_reducible apply writeBack_changes (hq := subParts_trans rfl hq)
    | with_reducible refine changes_ite ?_ ?_
    | (with_reducible refine changesParts_of ?_ ?_ ?_ ?_ ?_ ?_ ?_ ?_ ?_ ?_ ?_ ?_ ?_ ?_ ?_ ?_ ?_ ?_ ?_ ?_)
    | simp only [changes_mk]
    | with_reducible intro _
    | split
    | dsimp only [id])

theorem rampEnds_changes {Q : List Block} {s0 : State} {s : State} (hq : subParts [.maint, .free] Q = true) (hk : OnlyChanges Q s0 s) :
    OnlyChanges Q s0 (rampEnds s) := by
  unfold rampEnds
  repeat' (first
    | with_reducible assumption
    | ((with_reducible refine .inr (subParts_mem hq ?_)); rfl)
    | with_reducible exact .inl rfl
    | with_reducible apply sense_changes (hq := subParts_trans rfl hq)
    | with_reducible refine changes_ite ?_ ?_
    | (with_reducible refine changesParts_of ?_ ?_ ?_ ?_ ?_ ?_ ?_ ?_ ?_ ?_ ?_ ?_ ?_ ?_ ?_ ?_ ?_ ?_ ?_ ?_)
    | simp only [changes_mk]
    | with_reducible intro _
    | split
    | dsimp only [id])

theorem rampStep_changes {Q : List Block} {s0 : State} {s : State} (hq : subParts [.maint, .free] Q = true) (hk : OnlyChanges Q s0 s) :
    OnlyChanges Q s0 (rampStep s) := by
  unfold rampStep
  repeat' (first
    | with_reducible assumption
    | ((with_reducible refine .inr (subParts_mem hq ?_)); rfl)
    | with_reducible exact .inl rfl
    | with_reducible apply rampEnds_changes (hq := subParts_trans rfl hq)
    | with_reducible apply sense_changes (hq := subParts_trans rfl hq)
    | with_reducible refine changes_ite ?_ ?_
    | (with_reducible refine changesParts_of ?_ ?_ ?_ ?_ ?_ ?_ ?_ ?_ ?_ ?_ ?_ ?_ ?_ ?_ ?_ ?_ ?_ ?_ ?_ ?_)
    | simp only [changes_mk]
    | with_reducible intro _
    | split
    | dsimp only [id])

theorem coldBoot_changes {Q : List Block} {s0 : State} {cause : Nat} {b : BoardInputs} {s : State}  (hq : subParts [.dev, .maint, .sec, .drbg, .host, .forme, .codec, .tier, .clusters, .sched, .repro, .req, .pair, .near, .rma, .links, .tb, .free, .out] Q = true) (hk : OnlyChanges Q s0 s) :
    OnlyChanges Q s0 (coldBoot cause b s) := by
  unfold coldBoot
  repeat' (first
    | with_reducible assumption
    | ((with_reducible refine .inr (subParts_mem hq ?_)); rfl)
    | with_reducible exact .inl rfl
    | with_reducible refine changes_ite ?_ ?_
    | (with_reducible refine changesParts_of ?_ ?_ ?_ ?_ ?_ ?_ ?_ ?_ ?_ ?_ ?_ ?_ ?_ ?_ ?_ ?_ ?_ ?_ ?_ ?_)
    | simp only [changes_mk]
    | with_reducible intro _
    | split
    | dsimp only [id])

theorem applyRecord_changes {Q : List Block} {s0 : State} {b : BoardInputs} {s : State}  (hq : subParts [.dev, .maint, .tier] Q = true) (hk : OnlyChanges Q s0 s) :
    OnlyChanges Q s0 (applyRecord b s) := by
  unfold applyRecord
  repeat' (first
    | with_reducible assumption
    | ((with_reducible refine .inr (subParts_mem hq ?_)); rfl)
    | with_reducible exact .inl rfl
    | with_reducible apply noteErr_changes (hq := subParts_trans rfl hq)
    | with_reducible refine changes_ite ?_ ?_
    | (with_reducible refine changesParts_of ?_ ?_ ?_ ?_ ?_ ?_ ?_ ?_ ?_ ?_ ?_ ?_ ?_ ?_ ?_ ?_ ?_ ?_ ?_ ?_)
    | simp only [changes_mk]
    | with_reducible intro _
    | split
    | dsimp only [id])

theorem channelFailed_changes {Q : List Block} {s0 : State} {c : Nat} {s : State}  (hq : subParts [.dev, .tier] Q = true) (hk : OnlyChanges Q s0 s) :
    OnlyChanges Q s0 (channelFailed c s) := by
  unfold channelFailed
  repeat' (first
    | with_reducible assumption
    | ((with_reducible refine .inr (subParts_mem hq ?_)); rfl)
    | with_reducible exact .inl rfl
    | with_reducible apply noteErr_changes (hq := subParts_trans rfl hq)
    | with_reducible apply lpcUpd_changes (hq := subParts_trans rfl hq)
    | with_reducible refine changes_ite ?_ ?_
    | (with_reducible refine changesParts_of ?_ ?_ ?_ ?_ ?_ ?_ ?_ ?_ ?_ ?_ ?_ ?_ ?_ ?_ ?_ ?_ ?_ ?_ ?_ ?_)
    | simp only [changes_mk]
    | with_reducible intro _
    | split
    | dsimp only [id])

theorem trainChannels_changes {Q : List Block} {s0 : State} {b : BoardInputs} {s : State}  (hq : subParts [.dev, .maint, .tier] Q = true) (hk : OnlyChanges Q s0 s) :
    OnlyChanges Q s0 (trainChannels b s) := by
  unfold trainChannels
  repeat' (first
    | with_reducible assumption
    | ((with_reducible refine .inr (subParts_mem hq ?_)); rfl)
    | with_reducible exact .inl rfl
    | with_reducible apply foldl_changes
    | with_reducible apply foldl_changes_fst
    | with_reducible apply foldl_changes_snd
    | with_reducible apply channelFailed_changes (hq := subParts_trans rfl hq)
    | with_reducible apply addRepair_changes (hq := subParts_trans rfl hq)
    | with_reducible refine changes_ite ?_ ?_
    | (with_reducible refine changesParts_of ?_ ?_ ?_ ?_ ?_ ?_ ?_ ?_ ?_ ?_ ?_ ?_ ?_ ?_ ?_ ?_ ?_ ?_ ?_ ?_)
    | simp only [changes_mk]
    | with_reducible intro _
    | split
    | dsimp only [id])

theorem coldStart_changes {Q : List Block} {s0 : State} {cause : Nat} {b : BoardInputs} {s : State}  (hq : subParts [.dev, .maint, .sec, .drbg, .host, .forme, .codec, .tier, .clusters, .sched, .repro, .req, .pair, .near, .rma, .links, .tb, .free, .out] Q = true) (hk : OnlyChanges Q s0 s) :
    OnlyChanges Q s0 (coldStart cause b s) := by
  unfold coldStart
  repeat' (first
    | with_reducible assumption
    | ((with_reducible refine .inr (subParts_mem hq ?_)); rfl)
    | with_reducible exact .inl rfl
    | with_reducible apply trainChannels_changes (hq := subParts_trans rfl hq)
    | with_reducible apply applyRecord_changes (hq := subParts_trans rfl hq)
    | with_reducible apply coldBoot_changes (hq := subParts_trans rfl hq)
    | with_reducible refine changes_ite ?_ ?_
    | (with_reducible refine changesParts_of ?_ ?_ ?_ ?_ ?_ ?_ ?_ ?_ ?_ ?_ ?_ ?_ ?_ ?_ ?_ ?_ ?_ ?_ ?_ ?_)
    | simp only [changes_mk]
    | with_reducible intro _
    | split
    | dsimp only [id])

theorem coldReset_changes {Q : List Block} {s0 : State} {cause : Nat} {s : State} (hq : subParts [.dev, .maint, .sec, .drbg, .host, .forme, .codec, .tier, .clusters, .sched, .repro, .req, .pair, .near, .rma, .links, .tb, .free, .out] Q = true) (hk : OnlyChanges Q s0 s) :
    OnlyChanges Q s0 (coldReset cause s) := by
  unfold coldReset
  repeat' (first
    | with_reducible assumption
    | ((with_reducible refine .inr (subParts_mem hq ?_)); rfl)
    | with_reducible exact .inl rfl
    | with_reducible apply getD_changes
    | with_reducible apply coldStart_changes (hq := subParts_trans rfl hq)
    | with_reducible refine changes_ite ?_ ?_
    | (with_reducible refine changesParts_of ?_ ?_ ?_ ?_ ?_ ?_ ?_ ?_ ?_ ?_ ?_ ?_ ?_ ?_ ?_ ?_ ?_ ?_ ?_ ?_)
    | simp only [changes_mk]
    | with_reducible intro _
    | split
    | dsimp only [id])

theorem recountRefs_changes {Q : List Block} {s0 : State} {s : State}  (hq : subParts [.codec] Q = true) (hk : OnlyChanges Q s0 s) :
    OnlyChanges Q s0 (recountRefs s) := by
  unfold recountRefs
  repeat' (first
    | with_reducible assumption
    | ((with_reducible refine .inr (subParts_mem hq ?_)); rfl)
    | with_reducible exact .inl rfl
    | with_reducible refine changes_ite ?_ ?_
    | (with_reducible refine changesParts_of ?_ ?_ ?_ ?_ ?_ ?_ ?_ ?_ ?_ ?_ ?_ ?_ ?_ ?_ ?_ ?_ ?_ ?_ ?_ ?_)
    | simp only [changes_mk]
    | with_reducible intro _
    | split
    | dsimp only [id])

theorem formeWarm_changes {Q : List Block} {s0 : State} {s : State}  (hq : subParts [.dev, .maint, .sec, .forme, .codec, .tier, .clusters, .sched, .repro, .req, .pair, .out] Q = true) (hk : OnlyChanges Q s0 s) :
    OnlyChanges Q s0 (formeWarm s) := by
  unfold formeWarm
  repeat' (first
    | with_reducible assumption
    | ((with_reducible refine .inr (subParts_mem hq ?_)); rfl)
    | with_reducible exact .inl rfl
    | with_reducible apply unloadDone_changes (hq := subParts_trans rfl hq)
    | with_reducible apply formeEnd_changes (hq := subParts_trans rfl hq)
    | with_reducible refine changes_ite ?_ ?_
    | (with_reducible refine changesParts_of ?_ ?_ ?_ ?_ ?_ ?_ ?_ ?_ ?_ ?_ ?_ ?_ ?_ ?_ ?_ ?_ ?_ ?_ ?_ ?_)
    | simp only [changes_mk]
    | with_reducible intro _
    | split
    | dsimp only [id])

theorem slicesWarm_changes {Q : List Block} {s0 : State} {s : State} (hq : subParts [.tier] Q = true) (hk : OnlyChanges Q s0 s) :
    OnlyChanges Q s0 (slicesWarm s) := by
  unfold slicesWarm
  repeat' (first
    | with_reducible assumption
    | ((with_reducible refine .inr (subParts_mem hq ?_)); rfl)
    | with_reducible exact .inl rfl
    | with_reducible apply foldl_changes
    | with_reducible apply foldl_changes_fst
    | with_reducible apply foldl_changes_snd
    | with_reducible refine changes_ite ?_ ?_
    | (with_reducible refine changesParts_of ?_ ?_ ?_ ?_ ?_ ?_ ?_ ?_ ?_ ?_ ?_ ?_ ?_ ?_ ?_ ?_ ?_ ?_ ?_ ?_)
    | simp only [changes_mk]
    | with_reducible intro _
    | split
    | dsimp only [id])

theorem clustersWarm_changes {Q : List Block} {s0 : State} {s : State} (hq : subParts [.clusters] Q = true) (hk : OnlyChanges Q s0 s) :
    OnlyChanges Q s0 (clustersWarm s) := by
  unfold clustersWarm
  repeat' (first
    | with_reducible assumption
    | ((with_reducible refine .inr (subParts_mem hq ?_)); rfl)
    | with_reducible exact .inl rfl
    | with_reducible apply loadClusters_changes (hq := subParts_trans rfl hq)
    | with_reducible refine changes_ite ?_ ?_
    | (with_reducible refine changesParts_of ?_ ?_ ?_ ?_ ?_ ?_ ?_ ?_ ?_ ?_ ?_ ?_ ?_ ?_ ?_ ?_ ?_ ?_ ?_ ?_)
    | simp only [changes_mk]
    | with_reducible intro _
    | split
    | dsimp only [id])

theorem rmaWarm_changes {Q : List Block} {s0 : State} {s : State} (hq : subParts [.dev, .maint, .clusters, .sched, .req, .rma, .links, .free, .out] Q = true) (hk : OnlyChanges Q s0 s) :
    OnlyChanges Q s0 (rmaWarm s) := by
  unfold rmaWarm
  repeat' (first
    | with_reducible assumption
    | ((with_reducible refine .inr (subParts_mem hq ?_)); rfl)
    | with_reducible exact .inl rfl
    | with_reducible apply foldl_changes
    | with_reducible apply foldl_changes_fst
    | with_reducible apply foldl_changes_snd
    | with_reducible apply qpError_changes (hq := subParts_trans rfl hq)
    | with_reducible apply channelQps_changes (hq := subParts_trans rfl hq)
    | with_reducible refine changes_ite ?_ ?_
    | (with_reducible refine changesParts_of ?_ ?_ ?_ ?_ ?_ ?_ ?_ ?_ ?_ ?_ ?_ ?_ ?_ ?_ ?_ ?_ ?_ ?_ ?_ ?_)
    | simp only [changes_mk]
    | with_reducible intro _
    | split
    | dsimp only [id])

theorem pairWarm_changes {Q : List Block} {s0 : State} {s : State}  (hq : subParts [.req, .pair, .near, .rma, .links, .free, .out] Q = true) (hk : OnlyChanges Q s0 s) :
    OnlyChanges Q s0 (pairWarm s) := by
  unfold pairWarm
  repeat' (first
    | with_reducible assumption
    | ((with_reducible refine .inr (subParts_mem hq ?_)); rfl)
    | with_reducible exact .inl rfl
    | with_reducible apply mirrorsAlone_changes (hq := subParts_trans rfl hq)
    | with_reducible apply silverClear_changes (hq := subParts_trans rfl hq)
    | with_reducible apply pairState_changes (hq := subParts_trans rfl hq)
    | with_reducible refine changes_ite ?_ ?_
    | (with_reducible refine changesParts_of ?_ ?_ ?_ ?_ ?_ ?_ ?_ ?_ ?_ ?_ ?_ ?_ ?_ ?_ ?_ ?_ ?_ ?_ ?_ ?_)
    | simp only [changes_mk]
    | with_reducible intro _
    | split
    | dsimp only [id])

theorem hostWarm_changes {Q : List Block} {s0 : State} {s : State}  (hq : subParts [.host] Q = true) (hk : OnlyChanges Q s0 s) :
    OnlyChanges Q s0 (hostWarm s) := by
  unfold hostWarm
  repeat' (first
    | with_reducible assumption
    | ((with_reducible refine .inr (subParts_mem hq ?_)); rfl)
    | with_reducible exact .inl rfl
    | with_reducible refine changes_ite ?_ ?_
    | (with_reducible refine changesParts_of ?_ ?_ ?_ ?_ ?_ ?_ ?_ ?_ ?_ ?_ ?_ ?_ ?_ ?_ ?_ ?_ ?_ ?_ ?_ ?_)
    | simp only [changes_mk]
    | with_reducible intro _
    | split
    | dsimp only [id])

theorem schedWarm_changes {Q : List Block} {s0 : State} {s : State}  (hq : subParts [.sched] Q = true) (hk : OnlyChanges Q s0 s) :
    OnlyChanges Q s0 (schedWarm s) := by
  unfold schedWarm
  repeat' (first
    | with_reducible assumption
    | ((with_reducible refine .inr (subParts_mem hq ?_)); rfl)
    | with_reducible exact .inl rfl
    | with_reducible apply loadContexts_changes (hq := subParts_trans rfl hq)
    | with_reducible refine changes_ite ?_ ?_
    | (with_reducible refine changesParts_of ?_ ?_ ?_ ?_ ?_ ?_ ?_ ?_ ?_ ?_ ?_ ?_ ?_ ?_ ?_ ?_ ?_ ?_ ?_ ?_)
    | simp only [changes_mk]
    | with_reducible intro _
    | split
    | dsimp only [id])

theorem registersWarm_changes {Q : List Block} {s0 : State} {cause : Nat} {k : Nat} {fatal : Bool} {s : State}  (hq : subParts [.dev, .maint, .sec, .forme, .codec, .tier, .repro, .req, .near, .links] Q = true) (hk : OnlyChanges Q s0 s) :
    OnlyChanges Q s0 (registersWarm cause k fatal s) := by
  unfold registersWarm
  repeat' (first
    | with_reducible assumption
    | ((with_reducible refine .inr (subParts_mem hq ?_)); rfl)
    | with_reducible exact .inl rfl
    | with_reducible refine changes_ite ?_ ?_
    | (with_reducible refine changesParts_of ?_ ?_ ?_ ?_ ?_ ?_ ?_ ?_ ?_ ?_ ?_ ?_ ?_ ?_ ?_ ?_ ?_ ?_ ?_ ?_)
    | simp only [changes_mk]
    | with_reducible intro _
    | split
    | dsimp only [id])

theorem stepsWarm_changes {Q : List Block} {s0 : State} {s : State} (hq : subParts [.req] Q = true) (hk : OnlyChanges Q s0 s) :
    OnlyChanges Q s0 (stepsWarm s) := by
  unfold stepsWarm
  repeat' (first
    | with_reducible assumption
    | ((with_reducible refine .inr (subParts_mem hq ?_)); rfl)
    | with_reducible exact .inl rfl
    | with_reducible refine changes_ite ?_ ?_
    | (with_reducible refine changesParts_of ?_ ?_ ?_ ?_ ?_ ?_ ?_ ?_ ?_ ?_ ?_ ?_ ?_ ?_ ?_ ?_ ?_ ?_ ?_ ?_)
    | simp only [changes_mk]
    | with_reducible intro _
    | split
    | dsimp only [id])

theorem warmReset_changes {Q : List Block} {s0 : State} {cause : Nat} {fatal : Bool} {s : State} (hq : subParts [.dev, .maint, .sec, .drbg, .host, .forme, .codec, .tier, .clusters, .sched, .repro, .req, .pair, .near, .rma, .links, .free, .out] Q = true) (hk : OnlyChanges Q s0 s) :
    OnlyChanges Q s0 (warmReset cause fatal s) := by
  unfold warmReset
  repeat' (first
    | with_reducible assumption
    | ((with_reducible refine .inr (subParts_mem hq ?_)); rfl)
    | with_reducible exact .inl rfl
    | with_reducible apply stepsWarm_changes (hq := subParts_trans rfl hq)
    | with_reducible apply registersWarm_changes (hq := subParts_trans rfl hq)
    | with_reducible apply schedWarm_changes (hq := subParts_trans rfl hq)
    | with_reducible apply hostWarm_changes (hq := subParts_trans rfl hq)
    | with_reducible apply pairWarm_changes (hq := subParts_trans rfl hq)
    | with_reducible apply rmaWarm_changes (hq := subParts_trans rfl hq)
    | with_reducible apply clustersWarm_changes (hq := subParts_trans rfl hq)
    | with_reducible apply slicesWarm_changes (hq := subParts_trans rfl hq)
    | with_reducible apply formeWarm_changes (hq := subParts_trans rfl hq)
    | with_reducible apply recountRefs_changes (hq := subParts_trans rfl hq)
    | with_reducible apply draw_changes (hq := subParts_trans rfl hq)
    | with_reducible apply formeGone_changes (hq := subParts_trans rfl hq)
    | (with_reducible apply draw_changes_of (hq := subParts_trans rfl hq) (eq_ := by assumption))
    | with_reducible refine changes_ite ?_ ?_
    | (with_reducible refine changesParts_of ?_ ?_ ?_ ?_ ?_ ?_ ?_ ?_ ?_ ?_ ?_ ?_ ?_ ?_ ?_ ?_ ?_ ?_ ?_ ?_)
    | simp only [changes_mk]
    | with_reducible intro _
    | split
    | dsimp only [id])

theorem resetBegins_changes {Q : List Block} {s0 : State} {cause : Nat} {cold : Bool} {fatal : Bool} {s : State} (hq : subParts [.dev, .maint, .sec, .drbg, .host, .forme, .codec, .tier, .clusters, .sched, .repro, .req, .pair, .near, .rma, .links, .tb, .free, .out] Q = true) (hk : OnlyChanges Q s0 s) :
    OnlyChanges Q s0 (resetBegins cause cold fatal s) := by
  unfold resetBegins
  repeat' (first
    | with_reducible assumption
    | ((with_reducible refine .inr (subParts_mem hq ?_)); rfl)
    | with_reducible exact .inl rfl
    | with_reducible apply warmReset_changes (hq := subParts_trans rfl hq)
    | with_reducible apply coldReset_changes (hq := subParts_trans rfl hq)
    | with_reducible refine changes_ite ?_ ?_
    | (with_reducible refine changesParts_of ?_ ?_ ?_ ?_ ?_ ?_ ?_ ?_ ?_ ?_ ?_ ?_ ?_ ?_ ?_ ?_ ?_ ?_ ?_ ?_)
    | simp only [changes_mk]
    | with_reducible intro _
    | split
    | dsimp only [id])

theorem afterRamp_changes {Q : List Block} {s0 : State} {s : State} (hq : subParts [.dev, .maint, .sec, .drbg, .host, .forme, .codec, .tier, .clusters, .sched, .repro, .req, .pair, .near, .rma, .links, .tb, .free, .out] Q = true) (hk : OnlyChanges Q s0 s) :
    OnlyChanges Q s0 (afterRamp s) := by
  unfold afterRamp
  repeat' (first
    | with_reducible assumption
    | ((with_reducible refine .inr (subParts_mem hq ?_)); rfl)
    | with_reducible exact .inl rfl
    | with_reducible apply resetBegins_changes (hq := subParts_trans rfl hq)
    | with_reducible refine changes_ite ?_ ?_
    | (with_reducible refine changesParts_of ?_ ?_ ?_ ?_ ?_ ?_ ?_ ?_ ?_ ?_ ?_ ?_ ?_ ?_ ?_ ?_ ?_ ?_ ?_ ?_)
    | simp only [changes_mk]
    | with_reducible intro _
    | split
    | dsimp only [id])

theorem clockTick_changes {Q : List Block} {s0 : State} {s : State} (hq : subParts [.dev, .maint, .sec, .drbg, .host, .forme, .codec, .tier, .clusters, .sched, .repro, .req, .pair, .near, .rma, .links, .tb, .free, .out] Q = true) (hk : OnlyChanges Q s0 s) :
    OnlyChanges Q s0 (clockTick s) := by
  unfold clockTick
  repeat' (first
    | with_reducible assumption
    | ((with_reducible refine .inr (subParts_mem hq ?_)); rfl)
    | with_reducible exact .inl rfl
    | with_reducible apply afterRamp_changes (hq := subParts_trans rfl hq)
    | with_reducible apply rampStep_changes (hq := subParts_trans rfl hq)
    | with_reducible apply tbTick_changes (hq := subParts_trans rfl hq)
    | with_reducible refine changes_ite ?_ ?_
    | (with_reducible refine changesParts_of ?_ ?_ ?_ ?_ ?_ ?_ ?_ ?_ ?_ ?_ ?_ ?_ ?_ ?_ ?_ ?_ ?_ ?_ ?_ ?_)
    | simp only [changes_mk]
    | with_reducible intro _
    | split
    | dsimp only [id])

theorem doReset_changes {Q : List Block} {s0 : State} {cause : Nat} {cold : Bool} {fatal : Bool} {s : State} (hq : subParts [.dev, .maint, .sec, .drbg, .host, .forme, .codec, .tier, .clusters, .sched, .repro, .req, .pair, .near, .rma, .links, .tb, .free, .out] Q = true) (hk : OnlyChanges Q s0 s) :
    OnlyChanges Q s0 (doReset cause cold fatal s) := by
  unfold doReset
  repeat' (first
    | with_reducible assumption
    | ((with_reducible refine .inr (subParts_mem hq ?_)); rfl)
    | with_reducible exact .inl rfl
    | with_reducible apply afterRamp_changes (hq := subParts_trans rfl hq)
    | with_reducible apply rampEnds_changes (hq := subParts_trans rfl hq)
    | with_reducible apply stopBegins_changes (hq := subParts_trans rfl hq)
    | with_reducible refine changes_ite ?_ ?_
    | (with_reducible refine changesParts_of ?_ ?_ ?_ ?_ ?_ ?_ ?_ ?_ ?_ ?_ ?_ ?_ ?_ ?_ ?_ ?_ ?_ ?_ ?_ ?_)
    | simp only [changes_mk]
    | with_reducible intro _
    | split
    | dsimp only [id])

theorem requestReset_changes {Q : List Block} {s0 : State} {cause : Nat} {s : State}  (hq : subParts [.dev, .maint, .sec, .drbg, .host, .forme, .codec, .tier, .clusters, .sched, .repro, .req, .pair, .near, .rma, .links, .tb, .free, .out] Q = true) (hk : OnlyChanges Q s0 s) :
    OnlyChanges Q s0 (requestReset cause s) := by
  unfold requestReset
  repeat' (first
    | with_reducible assumption
    | ((with_reducible refine .inr (subParts_mem hq ?_)); rfl)
    | with_reducible exact .inl rfl
    | with_reducible apply doReset_changes (hq := subParts_trans rfl hq)
    | with_reducible refine changes_ite ?_ ?_
    | (with_reducible refine changesParts_of ?_ ?_ ?_ ?_ ?_ ?_ ?_ ?_ ?_ ?_ ?_ ?_ ?_ ?_ ?_ ?_ ?_ ?_ ?_ ?_)
    | simp only [changes_mk]
    | with_reducible intro _
    | split
    | dsimp only [id])

theorem fatalStop_changes {Q : List Block} {s0 : State} {cause : Nat} {cold : Bool} {s : State}  (hq : subParts [.dev, .maint, .sec, .drbg, .host, .forme, .codec, .tier, .clusters, .sched, .repro, .req, .pair, .near, .rma, .links, .tb, .free, .out] Q = true) (hk : OnlyChanges Q s0 s) :
    OnlyChanges Q s0 (fatalStop cause cold s) := by
  unfold fatalStop
  repeat' (first
    | with_reducible assumption
    | ((with_reducible refine .inr (subParts_mem hq ?_)); rfl)
    | with_reducible exact .inl rfl
    | with_reducible apply writeRecord_changes (hq := subParts_trans rfl hq)
    | with_reducible apply recordFatal_changes (hq := subParts_trans rfl hq)
    | with_reducible apply doReset_changes (hq := subParts_trans rfl hq)
    | with_reducible refine changes_ite ?_ ?_
    | (with_reducible refine changesParts_of ?_ ?_ ?_ ?_ ?_ ?_ ?_ ?_ ?_ ?_ ?_ ?_ ?_ ?_ ?_ ?_ ?_ ?_ ?_ ?_)
    | simp only [changes_mk]
    | with_reducible intro _
    | split
    | dsimp only [id])

theorem thermalStop_changes {Q : List Block} {s0 : State} {s : State} (hq : subParts [.dev, .maint, .tier, .clusters, .free, .out] Q = true) (hk : OnlyChanges Q s0 s) :
    OnlyChanges Q s0 (thermalStop s) := by
  unfold thermalStop
  repeat' (first
    | with_reducible assumption
    | ((with_reducible refine .inr (subParts_mem hq ?_)); rfl)
    | with_reducible exact .inl rfl
    | with_reducible apply stopBegins_changes (hq := subParts_trans rfl hq)
    | with_reducible apply recordFatal_changes (hq := subParts_trans rfl hq)
    | with_reducible apply writeRecord_changes (hq := subParts_trans rfl hq)
    | with_reducible refine changes_ite ?_ ?_
    | (with_reducible refine changesParts_of ?_ ?_ ?_ ?_ ?_ ?_ ?_ ?_ ?_ ?_ ?_ ?_ ?_ ?_ ?_ ?_ ?_ ?_ ?_ ?_)
    | simp only [changes_mk]
    | with_reducible intro _
    | split
    | dsimp only [id])

end Sys2Proof.Machine
end

