-- ==== Sys2Proof/Laws/ChangesPower.lean ====
section
/-!
SUPPORT. The blocks of the state that the operations of Sys2Proof/Machine/Power.lean may change.
-/

namespace Sys2Proof.Machine

theorem execPwrgdAssert_changes {Q : List Block} {s0 : State} {b : BoardInputs} {s : State}  (hq : subParts [.dev, .maint, .sec, .drbg, .host, .forme, .codec, .tier, .clusters, .sched, .repro, .req, .pair, .near, .rma, .links, .tb, .free, .out] Q = true) {tt : State} (hk : OnlyChanges Q s0 s) (eq_ : execPwrgdAssert b s = .next tt) : OnlyChanges Q s0 tt := by
  unfold execPwrgdAssert at eq_
  repeat' (first | split at eq_ | dsimp only at eq_)
  all_goals (first | (injection eq_ with eq_; subst eq_) | (cases eq_))
  repeat' (first
    | with_reducible assumption
    | ((with_reducible refine .inr (subParts_mem hq ?_)); rfl)
    | with_reducible exact .inl rfl
    | with_reducible apply coldStart_changes (hq := subParts_trans rfl hq)
    | with_reducible refine changes_ite ?_ ?_
    | (with_reducible refine changesParts_of ?_ ?_ ?_ ?_ ?_ ?_ ?_ ?_ ?_ ?_ ?_ ?_ ?_ ?_ ?_ ?_ ?_ ?_ ?_ ?_)
    | simp only [changes_mk]
    | with_reducible intro _
    | split
    | dsimp only [id])

theorem execPwrgdDeassert_changes {Q : List Block} {s0 : State} {s : State}  (hq : subParts [.dev, .maint, .sec, .drbg, .host, .forme, .codec, .tier, .clusters, .sched, .repro, .req, .pair, .near, .rma, .links, .tb, .free, .out] Q = true) {tt : State} (hk : OnlyChanges Q s0 s) (eq_ : execPwrgdDeassert s = .next tt) : OnlyChanges Q s0 tt := by
  unfold execPwrgdDeassert at eq_
  repeat' (first | split at eq_ | dsimp only at eq_)
  all_goals (first | (injection eq_ with eq_; subst eq_) | (cases eq_))
  repeat' (first
    | with_reducible assumption
    | ((with_reducible refine .inr (subParts_mem hq ?_)); rfl)
    | with_reducible exact .inl rfl
    | with_reducible refine changes_ite ?_ ?_
    | (with_reducible refine changesParts_of ?_ ?_ ?_ ?_ ?_ ?_ ?_ ?_ ?_ ?_ ?_ ?_ ?_ ?_ ?_ ?_ ?_ ?_ ?_ ?_)
    | simp only [changes_mk]
    | with_reducible intro _
    | split
    | dsimp only [id])

theorem execBootFailure_changes {Q : List Block} {s0 : State} {s : State}  (hq : subParts [.maint, .sec] Q = true) {tt : State} (hk : OnlyChanges Q s0 s) (eq_ : execBootFailure s = .next tt) : OnlyChanges Q s0 tt := by
  unfold execBootFailure at eq_
  repeat' (first | split at eq_ | dsimp only at eq_)
  all_goals (first | (injection eq_ with eq_; subst eq_) | (cases eq_))
  repeat' (first
    | with_reducible assumption
    | ((with_reducible refine .inr (subParts_mem hq ?_)); rfl)
    | with_reducible exact .inl rfl
    | with_reducible refine changes_ite ?_ ?_
    | (with_reducible refine changesParts_of ?_ ?_ ?_ ?_ ?_ ?_ ?_ ?_ ?_ ?_ ?_ ?_ ?_ ?_ ?_ ?_ ?_ ?_ ?_ ?_)
    | simp only [changes_mk]
    | with_reducible intro _
    | split
    | dsimp only [id])

theorem execPcieLinkUp_changes {Q : List Block} {s0 : State} {s : State}  (hq : subParts [.host] Q = true) {tt : State} (hk : OnlyChanges Q s0 s) (eq_ : execPcieLinkUp s = .next tt) : OnlyChanges Q s0 tt := by
  unfold execPcieLinkUp at eq_
  repeat' (first | split at eq_ | dsimp only at eq_)
  all_goals (first | (injection eq_ with eq_; subst eq_) | (cases eq_))
  repeat' (first
    | with_reducible assumption
    | ((with_reducible refine .inr (subParts_mem hq ?_)); rfl)
    | with_reducible exact .inl rfl
    | with_reducible refine changes_ite ?_ ?_
    | (with_reducible refine changesParts_of ?_ ?_ ?_ ?_ ?_ ?_ ?_ ?_ ?_ ?_ ?_ ?_ ?_ ?_ ?_ ?_ ?_ ?_ ?_ ?_)
    | simp only [changes_mk]
    | with_reducible intro _
    | split
    | dsimp only [id])

theorem controlQp_changes {Q : List Block} {s0 : State} {ctx : FnId} {s : State} (hq : subParts [.rma, .out] Q = true) (hk : OnlyChanges Q s0 s) :
    OnlyChanges Q s0 (controlQp ctx s) := by
  unfold controlQp
  repeat' (first
    | with_reducible assumption
    | ((with_reducible refine .inr (subParts_mem hq ?_)); rfl)
    | with_reducible exact .inl rfl
    | with_reducible apply qpMake_changes (hq := subParts_trans rfl hq)
    | with_reducible refine changes_ite ?_ ?_
    | (with_reducible refine changesParts_of ?_ ?_ ?_ ?_ ?_ ?_ ?_ ?_ ?_ ?_ ?_ ?_ ?_ ?_ ?_ ?_ ?_ ?_ ?_ ?_)
    | simp only [changes_mk]
    | with_reducible intro _
    | split
    | dsimp only [id])

theorem startUp_changes {Q : List Block} {s0 : State} {s : State} (hq : subParts [.dev, .maint, .rma, .out] Q = true) (hk : OnlyChanges Q s0 s) :
    OnlyChanges Q s0 (startUp s) := by
  unfold startUp
  repeat' (first
    | with_reducible assumption
    | ((with_reducible refine .inr (subParts_mem hq ?_)); rfl)
    | with_reducible exact .inl rfl
    | with_reducible apply qpMake_changes (hq := subParts_trans rfl hq)
    | with_reducible apply controlQp_changes (hq := subParts_trans rfl hq)
    | with_reducible refine changes_ite ?_ ?_
    | (with_reducible refine changesParts_of ?_ ?_ ?_ ?_ ?_ ?_ ?_ ?_ ?_ ?_ ?_ ?_ ?_ ?_ ?_ ?_ ?_ ?_ ?_ ?_)
    | simp only [changes_mk]
    | with_reducible intro _
    | split
    | dsimp only [id])

theorem execReady_changes {Q : List Block} {s0 : State} {s : State}  (hq : subParts [.dev, .maint, .rma, .out] Q = true) {tt : State} (hk : OnlyChanges Q s0 s) (eq_ : execReady s = .next tt) : OnlyChanges Q s0 tt := by
  unfold execReady at eq_
  repeat' (first | split at eq_ | dsimp only at eq_)
  all_goals (first | (injection eq_ with eq_; subst eq_) | (cases eq_))
  repeat' (first
    | with_reducible assumption
    | ((with_reducible refine .inr (subParts_mem hq ?_)); rfl)
    | with_reducible exact .inl rfl
    | with_reducible apply startUp_changes (hq := subParts_trans rfl hq)
    | with_reducible refine changes_ite ?_ ?_
    | (with_reducible refine changesParts_of ?_ ?_ ?_ ?_ ?_ ?_ ?_ ?_ ?_ ?_ ?_ ?_ ?_ ?_ ?_ ?_ ?_ ?_ ?_ ?_)
    | simp only [changes_mk]
    | with_reducible intro _
    | split
    | dsimp only [id])

theorem perstAsserted_changes {Q : List Block} {s0 : State} {s : State}  (hq : subParts [.dev, .maint, .sec, .drbg, .host, .forme, .codec, .tier, .clusters, .sched, .repro, .req, .pair, .near, .rma, .links, .tb, .free, .out] Q = true) (hk : OnlyChanges Q s0 s) :
    OnlyChanges Q s0 (perstAsserted s) := by
  unfold perstAsserted
  repeat' (first
    | with_reducible assumption
    | ((with_reducible refine .inr (subParts_mem hq ?_)); rfl)
    | with_reducible exact .inl rfl
    | with_reducible apply requestReset_changes (hq := subParts_trans rfl hq)
    | with_reducible refine changes_ite ?_ ?_
    | (with_reducible refine changesParts_of ?_ ?_ ?_ ?_ ?_ ?_ ?_ ?_ ?_ ?_ ?_ ?_ ?_ ?_ ?_ ?_ ?_ ?_ ?_ ?_)
    | simp only [changes_mk]
    | with_reducible intro _
    | split
    | dsimp only [id])

theorem execPerst_changes {Q : List Block} {s0 : State} {s : State}  (hq : subParts [.dev, .maint, .sec, .drbg, .host, .forme, .codec, .tier, .clusters, .sched, .repro, .req, .pair, .near, .rma, .links, .tb, .free, .out] Q = true) {tt : State} (hk : OnlyChanges Q s0 s) (eq_ : execPerst s = .next tt) : OnlyChanges Q s0 tt := by
  unfold execPerst at eq_
  repeat' (first | split at eq_ | dsimp only at eq_)
  all_goals (first | (injection eq_ with eq_; subst eq_) | (cases eq_))
  repeat' (first
    | with_reducible assumption
    | ((with_reducible refine .inr (subParts_mem hq ?_)); rfl)
    | with_reducible exact .inl rfl
    | with_reducible apply perstAsserted_changes (hq := subParts_trans rfl hq)
    | with_reducible refine changes_ite ?_ ?_
    | (with_reducible refine changesParts_of ?_ ?_ ?_ ?_ ?_ ?_ ?_ ?_ ?_ ?_ ?_ ?_ ?_ ?_ ?_ ?_ ?_ ?_ ?_ ?_)
    | simp only [changes_mk]
    | with_reducible intro _
    | split
    | dsimp only [id])

theorem execPerstDeassert_changes {Q : List Block} {s0 : State} {s : State}  (hq : subParts [.maint] Q = true) {tt : State} (hk : OnlyChanges Q s0 s) (eq_ : execPerstDeassert s = .next tt) : OnlyChanges Q s0 tt := by
  unfold execPerstDeassert at eq_
  repeat' (first | split at eq_ | dsimp only at eq_)
  all_goals (first | (injection eq_ with eq_; subst eq_) | (cases eq_))
  repeat' (first
    | with_reducible assumption
    | ((with_reducible refine .inr (subParts_mem hq ?_)); rfl)
    | with_reducible exact .inl rfl
    | with_reducible refine changes_ite ?_ ?_
    | (with_reducible refine changesParts_of ?_ ?_ ?_ ?_ ?_ ?_ ?_ ?_ ?_ ?_ ?_ ?_ ?_ ?_ ?_ ?_ ?_ ?_ ?_ ?_)
    | simp only [changes_mk]
    | with_reducible intro _
    | split
    | dsimp only [id])

theorem maintCode_changes {Q : List Block} {s0 : State} {c : Status} {s : State}  (hq : subParts [.maint] Q = true) (hk : OnlyChanges Q s0 s) :
    OnlyChanges Q s0 (maintCode c s) := by
  unfold maintCode
  repeat' (first
    | with_reducible assumption
    | ((with_reducible refine .inr (subParts_mem hq ?_)); rfl)
    | with_reducible exact .inl rfl
    | with_reducible refine changes_ite ?_ ?_
    | (with_reducible refine changesParts_of ?_ ?_ ?_ ?_ ?_ ?_ ?_ ?_ ?_ ?_ ?_ ?_ ?_ ?_ ?_ ?_ ?_ ?_ ?_ ?_)
    | simp only [changes_mk]
    | with_reducible intro _
    | split
    | dsimp only [id])

theorem maintCtl_changes {Q : List Block} {s0 : State} {w : CtlWrite} {own : Nat} {run : State → State} {s : State} (h_run : ∀ (u : State), OnlyChanges Q s0 u → OnlyChanges Q s0 (run u)) (hq : subParts [.maint] Q = true) (hk : OnlyChanges Q s0 s) :
    OnlyChanges Q s0 (maintCtl w own run s) := by
  unfold maintCtl
  repeat' (first
    | with_reducible assumption
    | ((with_reducible refine .inr (subParts_mem hq ?_)); rfl)
    | with_reducible exact .inl rfl
    | with_reducible apply maintCode_changes (hq := subParts_trans rfl hq)
    | with_reducible apply ctl_changes (hq := subParts_trans rfl hq)
    | with_reducible apply h_run
    | with_reducible refine changes_ite ?_ ?_
    | (with_reducible refine changesParts_of ?_ ?_ ?_ ?_ ?_ ?_ ?_ ?_ ?_ ?_ ?_ ?_ ?_ ?_ ?_ ?_ ?_ ?_ ?_ ?_)
    | simp only [changes_mk]
    | with_reducible intro _
    | split
    | dsimp only [id])

theorem execWarm_changes {Q : List Block} {s0 : State} {w : CtlWrite} {s : State}  (hq : subParts [.dev, .maint, .sec, .drbg, .host, .forme, .codec, .tier, .clusters, .sched, .repro, .req, .pair, .near, .rma, .links, .tb, .free, .out] Q = true) {tt : State} (hk : OnlyChanges Q s0 s) (eq_ : execWarm w s = .next tt) : OnlyChanges Q s0 tt := by
  unfold execWarm at eq_
  repeat' (first | split at eq_ | dsimp only at eq_)
  all_goals (first | (injection eq_ with eq_; subst eq_) | (cases eq_))
  repeat' (first
    | with_reducible assumption
    | ((with_reducible refine .inr (subParts_mem hq ?_)); rfl)
    | with_reducible exact .inl rfl
    | with_reducible apply requestReset_changes (hq := subParts_trans rfl hq)
    | with_reducible apply maintCode_changes (hq := subParts_trans rfl hq)
    | with_reducible apply maintCtl_changes (hq := subParts_trans rfl hq)
    | with_reducible refine changes_ite ?_ ?_
    | (with_reducible refine changesParts_of ?_ ?_ ?_ ?_ ?_ ?_ ?_ ?_ ?_ ?_ ?_ ?_ ?_ ?_ ?_ ?_ ?_ ?_ ?_ ?_)
    | simp only [changes_mk]
    | with_reducible intro _
    | split
    | dsimp only [id])

theorem execMaintClr_changes {Q : List Block} {s0 : State} {w : CtlWrite} {s : State}  (hq : subParts [.maint] Q = true) {tt : State} (hk : OnlyChanges Q s0 s) (eq_ : execMaintClr w s = .next tt) : OnlyChanges Q s0 tt := by
  unfold execMaintClr at eq_
  repeat' (first | split at eq_ | dsimp only at eq_)
  all_goals (first | (injection eq_ with eq_; subst eq_) | (cases eq_))
  repeat' (first
    | with_reducible assumption
    | ((with_reducible refine .inr (subParts_mem hq ?_)); rfl)
    | with_reducible exact .inl rfl
    | with_reducible apply maintCode_changes (hq := subParts_trans rfl hq)
    | with_reducible apply maintCtl_changes (hq := subParts_trans rfl hq)
    | with_reducible refine changes_ite ?_ ?_
    | (with_reducible refine changesParts_of ?_ ?_ ?_ ?_ ?_ ?_ ?_ ?_ ?_ ?_ ?_ ?_ ?_ ?_ ?_ ?_ ?_ ?_ ?_ ?_)
    | simp only [changes_mk]
    | with_reducible intro _
    | split
    | dsimp only [id])

theorem shutdownStart_changes {Q : List Block} {s0 : State} {s : State}  (hq : subParts [.maint, .sec, .forme, .codec, .tier, .clusters, .sched, .repro, .req, .pair] Q = true) (hk : OnlyChanges Q s0 s) :
    OnlyChanges Q s0 (shutdownStart s) := by
  unfold shutdownStart
  repeat' (first
    | with_reducible assumption
    | ((with_reducible refine .inr (subParts_mem hq ?_)); rfl)
    | with_reducible exact .inl rfl
    | with_reducible apply unloadStart_changes (hq := subParts_trans rfl hq)
    | with_reducible apply unloadDone_changes (hq := subParts_trans rfl hq)
    | with_reducible refine changes_ite ?_ ?_
    | (with_reducible refine changesParts_of ?_ ?_ ?_ ?_ ?_ ?_ ?_ ?_ ?_ ?_ ?_ ?_ ?_ ?_ ?_ ?_ ?_ ?_ ?_ ?_)
    | simp only [changes_mk]
    | with_reducible intro _
    | split
    | dsimp only [id])

theorem execShutdown_changes {Q : List Block} {s0 : State} {w : CtlWrite} {s : State}  (hq : subParts [.maint, .sec, .forme, .codec, .tier, .clusters, .sched, .repro, .req, .pair] Q = true) {tt : State} (hk : OnlyChanges Q s0 s) (eq_ : execShutdown w s = .next tt) : OnlyChanges Q s0 tt := by
  unfold execShutdown at eq_
  repeat' (first | split at eq_ | dsimp only at eq_)
  all_goals (first | (injection eq_ with eq_; subst eq_) | (cases eq_))
  repeat' (first
    | with_reducible assumption
    | ((with_reducible refine .inr (subParts_mem hq ?_)); rfl)
    | with_reducible exact .inl rfl
    | with_reducible apply shutdownStart_changes (hq := subParts_trans rfl hq)
    | with_reducible apply maintCode_changes (hq := subParts_trans rfl hq)
    | with_reducible apply maintCtl_changes (hq := subParts_trans rfl hq)
    | with_reducible refine changes_ite ?_ ?_
    | (with_reducible refine changesParts_of ?_ ?_ ?_ ?_ ?_ ?_ ?_ ?_ ?_ ?_ ?_ ?_ ?_ ?_ ?_ ?_ ?_ ?_ ?_ ?_)
    | simp only [changes_mk]
    | with_reducible intro _
    | split
    | dsimp only [id])

theorem shutdownEnd_changes {Q : List Block} {s0 : State} {s : State} (hq : subParts [.maint, .tier, .clusters, .free, .out] Q = true) (hk : OnlyChanges Q s0 s) :
    OnlyChanges Q s0 (shutdownEnd s) := by
  unfold shutdownEnd
  repeat' (first
    | with_reducible assumption
    | ((with_reducible refine .inr (subParts_mem hq ?_)); rfl)
    | with_reducible exact .inl rfl
    | with_reducible apply stopBegins_changes (hq := subParts_trans rfl hq)
    | with_reducible apply writeRecord_changes (hq := subParts_trans rfl hq)
    | with_reducible refine changes_ite ?_ ?_
    | (with_reducible refine changesParts_of ?_ ?_ ?_ ?_ ?_ ?_ ?_ ?_ ?_ ?_ ?_ ?_ ?_ ?_ ?_ ?_ ?_ ?_ ?_ ?_)
    | simp only [changes_mk]
    | with_reducible intro _
    | split
    | dsimp only [id])

theorem sliceEnd_changes {Q : List Block} {s0 : State} {failed : Bool} {es : List RepairEntry} {s : State}  (hq : subParts [.dev, .maint, .tier, .clusters, .free, .out] Q = true) (hk : OnlyChanges Q s0 s) :
    OnlyChanges Q s0 (sliceEnd failed es s) := by
  unfold sliceEnd
  repeat' (first
    | with_reducible assumption
    | ((with_reducible refine .inr (subParts_mem hq ?_)); rfl)
    | with_reducible exact .inl rfl
    | with_reducible apply foldl_changes
    | with_reducible apply foldl_changes_fst
    | with_reducible apply foldl_changes_snd
    | with_reducible apply shutdownEnd_changes (hq := subParts_trans rfl hq)
    | with_reducible apply addRepair_changes (hq := subParts_trans rfl hq)
    | with_reducible apply noteErr_changes (hq := subParts_trans rfl hq)
    | with_reducible refine changes_ite ?_ ?_
    | (with_reducible refine changesParts_of ?_ ?_ ?_ ?_ ?_ ?_ ?_ ?_ ?_ ?_ ?_ ?_ ?_ ?_ ?_ ?_ ?_ ?_ ?_ ?_)
    | simp only [changes_mk]
    | with_reducible intro _
    | split
    | dsimp only [id])

theorem execSelftestSliceEnd_changes {Q : List Block} {s0 : State} {failed : Bool} {es : List RepairEntry} {s : State}  (hq : subParts [.dev, .maint, .tier, .clusters, .free, .out] Q = true) {tt : State} (hk : OnlyChanges Q s0 s) (eq_ : execSelftestSliceEnd failed es s = .next tt) : OnlyChanges Q s0 tt := by
  unfold execSelftestSliceEnd at eq_
  repeat' (first | split at eq_ | dsimp only at eq_)
  all_goals (first | (injection eq_ with eq_; subst eq_) | (cases eq_))
  repeat' (first
    | with_reducible assumption
    | ((with_reducible refine .inr (subParts_mem hq ?_)); rfl)
    | with_reducible exact .inl rfl
    | with_reducible apply sliceEnd_changes (hq := subParts_trans rfl hq)
    | with_reducible refine changes_ite ?_ ?_
    | (with_reducible refine changesParts_of ?_ ?_ ?_ ?_ ?_ ?_ ?_ ?_ ?_ ?_ ?_ ?_ ?_ ?_ ?_ ?_ ?_ ?_ ?_ ?_)
    | simp only [changes_mk]
    | with_reducible intro _
    | split
    | dsimp only [id])

theorem selftestStops_changes {Q : List Block} {s0 : State} {s : State}  (hq : subParts [.maint, .out] Q = true) (hk : OnlyChanges Q s0 s) :
    OnlyChanges Q s0 (selftestStops s) := by
  unfold selftestStops
  repeat' (first
    | with_reducible assumption
    | ((with_reducible refine .inr (subParts_mem hq ?_)); rfl)
    | with_reducible exact .inl rfl
    | with_reducible apply writeRecord_changes (hq := subParts_trans rfl hq)
    | with_reducible refine changes_ite ?_ ?_
    | (with_reducible refine changesParts_of ?_ ?_ ?_ ?_ ?_ ?_ ?_ ?_ ?_ ?_ ?_ ?_ ?_ ?_ ?_ ?_ ?_ ?_ ?_ ?_)
    | simp only [changes_mk]
    | with_reducible intro _
    | split
    | dsimp only [id])

theorem reserveStop_changes {Q : List Block} {s0 : State} {s : State} (hq : subParts [.dev, .maint, .sec, .drbg, .host, .forme, .codec, .tier, .clusters, .sched, .repro, .req, .pair, .near, .rma, .links, .tb, .free, .out] Q = true) (hk : OnlyChanges Q s0 s) :
    OnlyChanges Q s0 (reserveStop s) := by
  unfold reserveStop
  repeat' (first
    | with_reducible assumption
    | ((with_reducible refine .inr (subParts_mem hq ?_)); rfl)
    | with_reducible exact .inl rfl
    | with_reducible apply fatalStop_changes (hq := subParts_trans rfl hq)
    | with_reducible apply selftestStops_changes (hq := subParts_trans rfl hq)
    | with_reducible refine changes_ite ?_ ?_
    | (with_reducible refine changesParts_of ?_ ?_ ?_ ?_ ?_ ?_ ?_ ?_ ?_ ?_ ?_ ?_ ?_ ?_ ?_ ?_ ?_ ?_ ?_ ?_)
    | simp only [changes_mk]
    | with_reducible intro _
    | split
    | dsimp only [id])

theorem thermal_changes {Q : List Block} {s0 : State} {temp : BitVec 16} {s : State}  (hq : subParts [.dev, .maint, .tier, .clusters, .free, .out] Q = true) (hk : OnlyChanges Q s0 s) :
    OnlyChanges Q s0 (thermal temp s) := by
  unfold thermal
  repeat' (first
    | with_reducible assumption
    | ((with_reducible refine .inr (subParts_mem hq ?_)); rfl)
    | with_reducible exact .inl rfl
    | with_reducible apply selftestStops_changes (hq := subParts_trans rfl hq)
    | with_reducible apply thermalStop_changes (hq := subParts_trans rfl hq)
    | with_reducible refine changes_ite ?_ ?_
    | (with_reducible refine changesParts_of ?_ ?_ ?_ ?_ ?_ ?_ ?_ ?_ ?_ ?_ ?_ ?_ ?_ ?_ ?_ ?_ ?_ ?_ ?_ ?_)
    | simp only [changes_mk]
    | with_reducible intro _
    | split
    | dsimp only [id])

theorem execThermalTrip_changes {Q : List Block} {s0 : State} {temp : BitVec 16} {s : State}  (hq : subParts [.dev, .maint, .tier, .clusters, .free, .out] Q = true) {tt : State} (hk : OnlyChanges Q s0 s) (eq_ : execThermalTrip temp s = .next tt) : OnlyChanges Q s0 tt := by
  unfold execThermalTrip at eq_
  repeat' (first | split at eq_ | dsimp only at eq_)
  all_goals (first | (injection eq_ with eq_; subst eq_) | (cases eq_))
  repeat' (first
    | with_reducible assumption
    | ((with_reducible refine .inr (subParts_mem hq ?_)); rfl)
    | with_reducible exact .inl rfl
    | with_reducible apply thermal_changes (hq := subParts_trans rfl hq)
    | with_reducible refine changes_ite ?_ ?_
    | (with_reducible refine changesParts_of ?_ ?_ ?_ ?_ ?_ ?_ ?_ ?_ ?_ ?_ ?_ ?_ ?_ ?_ ?_ ?_ ?_ ?_ ?_ ?_)
    | simp only [changes_mk]
    | with_reducible intro _
    | split
    | dsimp only [id])

theorem execThermalHoldEnd_changes {Q : List Block} {s0 : State} {temp : BitVec 16} {s : State}  (hq : subParts [.dev, .maint, .sec, .drbg, .host, .forme, .codec, .tier, .clusters, .sched, .repro, .req, .pair, .near, .rma, .links, .tb, .free, .out] Q = true) {tt : State} (hk : OnlyChanges Q s0 s) (eq_ : execThermalHoldEnd temp s = .next tt) : OnlyChanges Q s0 tt := by
  unfold execThermalHoldEnd at eq_
  repeat' (first | split at eq_ | dsimp only at eq_)
  all_goals (first | (injection eq_ with eq_; subst eq_) | (cases eq_))
  repeat' (first
    | with_reducible assumption
    | ((with_reducible refine .inr (subParts_mem hq ?_)); rfl)
    | with_reducible exact .inl rfl
    | with_reducible apply doReset_changes (hq := subParts_trans rfl hq)
    | with_reducible refine changes_ite ?_ ?_
    | (with_reducible refine changesParts_of ?_ ?_ ?_ ?_ ?_ ?_ ?_ ?_ ?_ ?_ ?_ ?_ ?_ ?_ ?_ ?_ ?_ ?_ ?_ ?_)
    | simp only [changes_mk]
    | with_reducible intro _
    | split
    | dsimp only [id])

theorem execWatchdog_changes {Q : List Block} {s0 : State} {s : State}  (hq : subParts [.dev, .maint, .sec, .drbg, .host, .forme, .codec, .tier, .clusters, .sched, .repro, .req, .pair, .near, .rma, .links, .tb, .free, .out] Q = true) {tt : State} (hk : OnlyChanges Q s0 s) (eq_ : execWatchdog s = .next tt) : OnlyChanges Q s0 tt := by
  unfold execWatchdog at eq_
  repeat' (first | split at eq_ | dsimp only at eq_)
  all_goals (first | (injection eq_ with eq_; subst eq_) | (cases eq_))
  repeat' (first
    | with_reducible assumption
    | ((with_reducible refine .inr (subParts_mem hq ?_)); rfl)
    | with_reducible exact .inl rfl
    | with_reducible apply selftestStops_changes (hq := subParts_trans rfl hq)
    | with_reducible apply fatalStop_changes (hq := subParts_trans rfl hq)
    | with_reducible refine changes_ite ?_ ?_
    | (with_reducible refine changesParts_of ?_ ?_ ?_ ?_ ?_ ?_ ?_ ?_ ?_ ?_ ?_ ?_ ?_ ?_ ?_ ?_ ?_ ?_ ?_ ?_)
    | simp only [changes_mk]
    | with_reducible intro _
    | split
    | dsimp only [id])

theorem execBridge_changes {Q : List Block} {s0 : State} {s : State}  (hq : subParts [.dev, .maint, .sec, .drbg, .host, .forme, .codec, .tier, .clusters, .sched, .repro, .req, .pair, .near, .rma, .links, .tb, .free, .out] Q = true) {tt : State} (hk : OnlyChanges Q s0 s) (eq_ : execBridge s = .next tt) : OnlyChanges Q s0 tt := by
  unfold execBridge at eq_
  repeat' (first | split at eq_ | dsimp only at eq_)
  all_goals (first | (injection eq_ with eq_; subst eq_) | (cases eq_))
  repeat' (first
    | with_reducible assumption
    | ((with_reducible refine .inr (subParts_mem hq ?_)); rfl)
    | with_reducible exact .inl rfl
    | with_reducible apply selftestStops_changes (hq := subParts_trans rfl hq)
    | with_reducible apply fatalStop_changes (hq := subParts_trans rfl hq)
    | with_reducible refine changes_ite ?_ ?_
    | (with_reducible refine changesParts_of ?_ ?_ ?_ ?_ ?_ ?_ ?_ ?_ ?_ ?_ ?_ ?_ ?_ ?_ ?_ ?_ ?_ ?_ ?_ ?_)
    | simp only [changes_mk]
    | with_reducible intro _
    | split
    | dsimp only [id])

theorem execRankRelease_changes {Q : List Block} {s0 : State} {s : State}  (hq : subParts [.maint, .clusters, .free] Q = true) {tt : State} (hk : OnlyChanges Q s0 s) (eq_ : execRankRelease s = .next tt) : OnlyChanges Q s0 tt := by
  unfold execRankRelease at eq_
  repeat' (first | split at eq_ | dsimp only at eq_)
  all_goals (first | (injection eq_ with eq_; subst eq_) | (cases eq_))
  repeat' (first
    | with_reducible assumption
    | ((with_reducible refine .inr (subParts_mem hq ?_)); rfl)
    | with_reducible exact .inl rfl
    | with_reducible apply foldl_changes
    | with_reducible apply foldl_changes_fst
    | with_reducible apply foldl_changes_snd
    | with_reducible apply takeItem_changes (hq := subParts_trans rfl hq)
    | with_reducible apply sense_changes (hq := subParts_trans rfl hq)
    | with_reducible refine changes_ite ?_ ?_
    | (with_reducible refine changesParts_of ?_ ?_ ?_ ?_ ?_ ?_ ?_ ?_ ?_ ?_ ?_ ?_ ?_ ?_ ?_ ?_ ?_ ?_ ?_ ?_)
    | simp only [changes_mk]
    | with_reducible intro _
    | split
    | dsimp only [id])

theorem execClaimGrant_changes {Q : List Block} {s0 : State} {s : State}  (hq : subParts [.maint, .clusters, .free] Q = true) {tt : State} (hk : OnlyChanges Q s0 s) (eq_ : execClaimGrant s = .next tt) : OnlyChanges Q s0 tt := by
  unfold execClaimGrant at eq_
  repeat' (first | split at eq_ | dsimp only at eq_)
  all_goals (first | (injection eq_ with eq_; subst eq_) | (cases eq_))
  repeat' (first
    | with_reducible assumption
    | ((with_reducible refine .inr (subParts_mem hq ?_)); rfl)
    | with_reducible exact .inl rfl
    | with_reducible apply takeItem_changes (hq := subParts_trans rfl hq)
    | with_reducible apply sense_changes (hq := subParts_trans rfl hq)
    | with_reducible refine changes_ite ?_ ?_
    | (with_reducible refine changesParts_of ?_ ?_ ?_ ?_ ?_ ?_ ?_ ?_ ?_ ?_ ?_ ?_ ?_ ?_ ?_ ?_ ?_ ?_ ?_ ?_)
    | simp only [changes_mk]
    | with_reducible intro _
    | split
    | dsimp only [id])

theorem execClaimRelease_changes {Q : List Block} {s0 : State} {cl : ClusterId} {s : State}  (hq : subParts [.maint, .free] Q = true) {tt : State} (hk : OnlyChanges Q s0 s) (eq_ : execClaimRelease cl s = .next tt) : OnlyChanges Q s0 tt := by
  unfold execClaimRelease at eq_
  repeat' (first | split at eq_ | dsimp only at eq_)
  all_goals (first | (injection eq_ with eq_; subst eq_) | (cases eq_))
  repeat' (first
    | with_reducible assumption
    | ((with_reducible refine .inr (subParts_mem hq ?_)); rfl)
    | with_reducible exact .inl rfl
    | with_reducible apply sense_changes (hq := subParts_trans rfl hq)
    | with_reducible refine changes_ite ?_ ?_
    | (with_reducible refine changesParts_of ?_ ?_ ?_ ?_ ?_ ?_ ?_ ?_ ?_ ?_ ?_ ?_ ?_ ?_ ?_ ?_ ?_ ?_ ?_ ?_)
    | simp only [changes_mk]
    | with_reducible intro _
    | split
    | dsimp only [id])

end Sys2Proof.Machine
end

