-- ==== Sys2Proof/Laws/ChangesRmaTarget.lean ====
section
/-!
SUPPORT. The blocks of the state that the operations of Sys2Proof/Machine/RmaTarget.lean may change.
-/

namespace Sys2Proof.Machine

theorem hostWrite_changes {Q : List Block} {s0 : State} {r : Region} {off : Nat} {bs : List Byte} {s : State} (hq : subParts [.out] Q = true) (hk : OnlyChanges Q s0 s) :
    OnlyChanges Q s0 (hostWrite r off bs s) := by
  unfold hostWrite
  repeat' (first
    | with_reducible assumption
    | ((with_reducible refine .inr (subParts_mem hq ?_)); rfl)
    | with_reducible exact .inl rfl
    | with_reducible apply foldl_changes
    | with_reducible apply foldl_changes_fst
    | with_reducible apply foldl_changes_snd
    | with_reducible apply emit_changes (hq := subParts_trans rfl hq)
    | with_reducible refine changes_ite ?_ ?_
    | (with_reducible refine changesParts_of ?_ ?_ ?_ ?_ ?_ ?_ ?_ ?_ ?_ ?_ ?_ ?_ ?_ ?_ ?_ ?_ ?_ ?_ ?_ ?_)
    | simp only [changes_mk]
    | with_reducible intro _
    | split
    | dsimp only [id])

theorem regionWrite_changes {Q : List Block} {s0 : State} {r : Region} {off : Nat} {bs : List Byte} {s : State} (hq : subParts [.tier, .out] Q = true) (hk : OnlyChanges Q s0 s) :
    OnlyChanges Q s0 (regionWrite r off bs s) := by
  unfold regionWrite
  repeat' (first
    | with_reducible assumption
    | ((with_reducible refine .inr (subParts_mem hq ?_)); rfl)
    | with_reducible exact .inl rfl
    | with_reducible apply hostWrite_changes (hq := subParts_trans rfl hq)
    | with_reducible apply partStore_changes (hq := subParts_trans rfl hq)
    | with_reducible refine changes_ite ?_ ?_
    | (with_reducible refine changesParts_of ?_ ?_ ?_ ?_ ?_ ?_ ?_ ?_ ?_ ?_ ?_ ?_ ?_ ?_ ?_ ?_ ?_ ?_ ?_ ?_)
    | simp only [changes_mk]
    | with_reducible intro _
    | split
    | dsimp only [id])

theorem regionRead_changes {Q : List Block} {s0 : State} {r : Region} {off : Nat} {n : Nat} {host : List Byte} {s : State}  (hq : subParts [.tier, .free] Q = true) (hk : OnlyChanges Q s0 s) :
    OnlyChanges Q s0 (regionRead r off n host s).2 := by
  unfold regionRead
  repeat' (first
    | with_reducible assumption
    | ((with_reducible refine .inr (subParts_mem hq ?_)); rfl)
    | with_reducible exact .inl rfl
    | with_reducible apply partLoad_changes (hq := subParts_trans rfl hq)
    | (with_reducible apply partLoad_changes_of (hq := subParts_trans rfl hq) (eq_ := by assumption))
    | with_reducible refine changes_ite ?_ ?_
    | (with_reducible refine changesParts_of ?_ ?_ ?_ ?_ ?_ ?_ ?_ ?_ ?_ ?_ ?_ ?_ ?_ ?_ ?_ ?_ ?_ ?_ ?_ ?_)
    | simp only [changes_mk]
    | with_reducible intro _
    | split
    | dsimp only [id])

theorem regionRead_changes_of {Q : List Block} {s0 : State} {r : Region} {off : Nat} {n : Nat} {host : List Byte} {s : State}  (hq : subParts [.tier, .free] Q = true) {tt : State} {c0 : _} (eq_ : regionRead r off n host s = (c0, tt)) (hk : OnlyChanges Q s0 s) : OnlyChanges Q s0 tt := by
  have := regionRead_changes (Q := Q) (s0 := s0) (r := r) (off := off) (n := n) (host := host) (s := s)  hq hk
  rw [eq_] at this; exact this

theorem regionMerge_changes {Q : List Block} {s0 : State} {r : Region} {off : Nat} {bs : List Byte} {reads : ReadOutcome} {s : State} (hq : subParts [.dev, .maint, .forme, .codec, .tier, .req, .pair, .rma, .links, .out] Q = true) (hk : OnlyChanges Q s0 s) :
    OnlyChanges Q s0 (regionMerge r off bs reads s).2 := by
  unfold regionMerge
  repeat' (first
    | with_reducible assumption
    | ((with_reducible refine .inr (subParts_mem hq ?_)); rfl)
    | with_reducible exact .inl rfl
    | with_reducible apply regionWrite_changes (hq := subParts_trans rfl hq)
    | with_reducible apply readOutcome_changes (hq := subParts_trans rfl hq)
    | (with_reducible apply readOutcome_changes_of (hq := subParts_trans rfl hq) (eq_ := by assumption))
    | with_reducible refine changes_ite ?_ ?_
    | (with_reducible refine changesParts_of ?_ ?_ ?_ ?_ ?_ ?_ ?_ ?_ ?_ ?_ ?_ ?_ ?_ ?_ ?_ ?_ ?_ ?_ ?_ ?_)
    | simp only [changes_mk]
    | with_reducible intro _
    | split
    | dsimp only [id])

theorem regionMerge_changes_of {Q : List Block} {s0 : State} {r : Region} {off : Nat} {bs : List Byte} {reads : ReadOutcome} {s : State} {tt : State} {c0 : _} (eq_ : regionMerge r off bs reads s = (c0, tt)) (hq : subParts [.dev, .maint, .forme, .codec, .tier, .req, .pair, .rma, .links, .out] Q = true) (hk : OnlyChanges Q s0 s) : OnlyChanges Q s0 tt := by
  have := regionMerge_changes (Q := Q) (s0 := s0) (r := r) (off := off) (bs := bs) (reads := reads) (s := s) hq hk
  rw [eq_] at this; exact this

theorem podAck_changes {Q : List Block} {s0 : State} {h : PodHdr} {c : Status} {result : List Byte} {s : State} (hq : subParts [.rma, .links] Q = true) (hk : OnlyChanges Q s0 s) :
    OnlyChanges Q s0 (podAck h c result s) := by
  unfold podAck
  repeat' (first
    | with_reducible assumption
    | ((with_reducible refine .inr (subParts_mem hq ?_)); rfl)
    | with_reducible exact .inl rfl
    | with_reducible apply podQueue_changes (hq := subParts_trans rfl hq)
    | with_reducible refine changes_ite ?_ ?_
    | (with_reducible refine changesParts_of ?_ ?_ ?_ ?_ ?_ ?_ ?_ ?_ ?_ ?_ ?_ ?_ ?_ ?_ ?_ ?_ ?_ ?_ ?_ ?_)
    | simp only [changes_mk]
    | with_reducible intro _
    | split
    | dsimp only [id])

theorem idDone_changes {Q : List Block} {s0 : State} {h : PodHdr} {c : Status} {result : List Byte} {s : State}  (hq : subParts [.rma] Q = true) (hk : OnlyChanges Q s0 s) :
    OnlyChanges Q s0 (idDone h c result s) := by
  unfold idDone
  repeat' (first
    | with_reducible assumption
    | ((with_reducible refine .inr (subParts_mem hq ?_)); rfl)
    | with_reducible exact .inl rfl
    | with_reducible refine changes_ite ?_ ?_
    | (with_reducible refine changesParts_of ?_ ?_ ?_ ?_ ?_ ?_ ?_ ?_ ?_ ?_ ?_ ?_ ?_ ?_ ?_ ?_ ?_ ?_ ?_ ?_)
    | simp only [changes_mk]
    | with_reducible intro _
    | split
    | dsimp only [id])

theorem podFinish_changes {Q : List Block} {s0 : State} {h : PodHdr} {c : Status} {result : List Byte} {s : State} (hq : subParts [.rma, .links] Q = true) (hk : OnlyChanges Q s0 s) :
    OnlyChanges Q s0 (podFinish h c result s) := by
  unfold podFinish
  repeat' (first
    | with_reducible assumption
    | ((with_reducible refine .inr (subParts_mem hq ?_)); rfl)
    | with_reducible exact .inl rfl
    | with_reducible apply idDone_changes (hq := subParts_trans rfl hq)
    | with_reducible apply podAck_changes (hq := subParts_trans rfl hq)
    | with_reducible refine changes_ite ?_ ?_
    | (with_reducible refine changesParts_of ?_ ?_ ?_ ?_ ?_ ?_ ?_ ?_ ?_ ?_ ?_ ?_ ?_ ?_ ?_ ?_ ?_ ?_ ?_ ?_)
    | simp only [changes_mk]
    | with_reducible intro _
    | split
    | dsimp only [id])

theorem readData_changes {Q : List Block} {s0 : State} {h : PodHdr} {bytes : List Byte} {s : State} (hq : subParts [.repro, .rma, .links] Q = true) (hk : OnlyChanges Q s0 s) :
    OnlyChanges Q s0 (readData h bytes s) := by
  unfold readData
  repeat' (first
    | with_reducible assumption
    | ((with_reducible refine .inr (subParts_mem hq ?_)); rfl)
    | with_reducible exact .inl rfl
    | with_reducible apply dataDrain_changes (hq := subParts_trans rfl hq)
    | with_reducible refine changes_ite ?_ ?_
    | (with_reducible refine changesParts_of ?_ ?_ ?_ ?_ ?_ ?_ ?_ ?_ ?_ ?_ ?_ ?_ ?_ ?_ ?_ ?_ ?_ ?_ ?_ ?_)
    | simp only [changes_mk]
    | with_reducible intro _
    | split
    | dsimp only [id])

theorem readFails_changes {Q : List Block} {s0 : State} {h : PodHdr} {c : Status} {s : State} (hq : subParts [.repro, .rma, .links] Q = true) (hk : OnlyChanges Q s0 s) :
    OnlyChanges Q s0 (readFails h c s) := by
  unfold readFails
  repeat' (first
    | with_reducible assumption
    | ((with_reducible refine .inr (subParts_mem hq ?_)); rfl)
    | with_reducible exact .inl rfl
    | with_reducible apply dataDrain_changes (hq := subParts_trans rfl hq)
    | with_reducible refine changes_ite ?_ ?_
    | (with_reducible refine changesParts_of ?_ ?_ ?_ ?_ ?_ ?_ ?_ ?_ ?_ ?_ ?_ ?_ ?_ ?_ ?_ ?_ ?_ ?_ ?_ ?_)
    | simp only [changes_mk]
    | with_reducible intro _
    | split
    | dsimp only [id])

theorem serveRead_changes {Q : List Block} {s0 : State} {m : PodMsg} {s : State} (hq : subParts [.dev, .maint, .forme, .codec, .tier, .repro, .req, .pair, .rma, .links, .free, .out] Q = true) (hk : OnlyChanges Q s0 s) :
    OnlyChanges Q s0 (serveRead m s) := by
  unfold serveRead
  repeat' (first
    | with_reducible assumption
    | ((with_reducible refine .inr (subParts_mem hq ?_)); rfl)
    | with_reducible exact .inl rfl
    | with_reducible apply readFails_changes (hq := subParts_trans rfl hq)
    | with_reducible apply readData_changes (hq := subParts_trans rfl hq)
    | with_reducible apply regionRead_changes (hq := subParts_trans rfl hq)
    | with_reducible apply readOutcome_changes (hq := subParts_trans rfl hq)
    | (with_reducible apply regionRead_changes_of (hq := subParts_trans rfl hq) (eq_ := by assumption))
    | (with_reducible apply readOutcome_changes_of (hq := subParts_trans rfl hq) (eq_ := by assumption))
    | with_reducible refine changes_ite ?_ ?_
    | (with_reducible refine changesParts_of ?_ ?_ ?_ ?_ ?_ ?_ ?_ ?_ ?_ ?_ ?_ ?_ ?_ ?_ ?_ ?_ ?_ ?_ ?_ ?_)
    | simp only [changes_mk]
    | with_reducible intro _
    | split
    | dsimp only [id])

theorem channelSend_changes {Q : List Block} {s0 : State} {m : PodMsg} {s : State}  (hq : subParts [.dev, .maint, .clusters, .sched, .req, .rma, .links, .out] Q = true) (hk : OnlyChanges Q s0 s) :
    OnlyChanges Q s0 (channelSend m s).2 := by
  unfold channelSend
  repeat' (first
    | with_reducible assumption
    | ((with_reducible refine .inr (subParts_mem hq ?_)); rfl)
    | with_reducible exact .inl rfl
    | with_reducible apply chanDeliver_changes (hq := subParts_trans rfl hq)
    | with_reducible apply creditBack_changes (hq := subParts_trans rfl hq)
    | with_reducible refine changes_ite ?_ ?_
    | (with_reducible refine changesParts_of ?_ ?_ ?_ ?_ ?_ ?_ ?_ ?_ ?_ ?_ ?_ ?_ ?_ ?_ ?_ ?_ ?_ ?_ ?_ ?_)
    | simp only [changes_mk]
    | with_reducible intro _
    | split
    | dsimp only [id])

theorem channelSend_changes_of {Q : List Block} {s0 : State} {m : PodMsg} {s : State}  (hq : subParts [.dev, .maint, .clusters, .sched, .req, .rma, .links, .out] Q = true) {tt : State} {c0 : _} (eq_ : channelSend m s = (c0, tt)) (hk : OnlyChanges Q s0 s) : OnlyChanges Q s0 tt := by
  have := channelSend_changes (Q := Q) (s0 := s0) (m := m) (s := s)  hq hk
  rw [eq_] at this; exact this

theorem hostSend_changes {Q : List Block} {s0 : State} {m : PodMsg} {s : State}  (hq : subParts [.dev, .maint, .host, .tier, .clusters, .sched, .req, .rma, .links, .free, .out] Q = true) (hk : OnlyChanges Q s0 s) :
    OnlyChanges Q s0 (hostSend m s).2 := by
  unfold hostSend
  repeat' (first
    | with_reducible assumption
    | ((with_reducible refine .inr (subParts_mem hq ?_)); rfl)
    | with_reducible exact .inl rfl
    | with_reducible apply qpCompletion_changes (hq := subParts_trans rfl hq)
    | with_reducible apply regionWrite_changes (hq := subParts_trans rfl hq)
    | with_reducible apply raiseFault_changes (hq := subParts_trans rfl hq)
    | with_reducible apply qpError_changes (hq := subParts_trans rfl hq)
    | with_reducible apply qpUpd_changes (hq := subParts_trans rfl hq)
    | with_reducible refine changes_ite ?_ ?_
    | (with_reducible refine changesParts_of ?_ ?_ ?_ ?_ ?_ ?_ ?_ ?_ ?_ ?_ ?_ ?_ ?_ ?_ ?_ ?_ ?_ ?_ ?_ ?_)
    | simp only [changes_mk]
    | with_reducible intro _
    | split
    | dsimp only [id])

theorem hostSend_changes_of {Q : List Block} {s0 : State} {m : PodMsg} {s : State}  (hq : subParts [.dev, .maint, .host, .tier, .clusters, .sched, .req, .rma, .links, .free, .out] Q = true) {tt : State} {c0 : _} (eq_ : hostSend m s = (c0, tt)) (hk : OnlyChanges Q s0 s) : OnlyChanges Q s0 tt := by
  have := hostSend_changes (Q := Q) (s0 := s0) (m := m) (s := s)  hq hk
  rw [eq_] at this; exact this

theorem podGone_changes {Q : List Block} {s0 : State} {id : Nat} {s : State}  (hq : subParts [.rma] Q = true) (hk : OnlyChanges Q s0 s) :
    OnlyChanges Q s0 (podGone id s) := by
  unfold podGone
  repeat' (first
    | with_reducible assumption
    | ((with_reducible refine .inr (subParts_mem hq ?_)); rfl)
    | with_reducible exact .inl rfl
    | with_reducible refine changes_ite ?_ ?_
    | (with_reducible refine changesParts_of ?_ ?_ ?_ ?_ ?_ ?_ ?_ ?_ ?_ ?_ ?_ ?_ ?_ ?_ ?_ ?_ ?_ ?_ ?_ ?_)
    | simp only [changes_mk]
    | with_reducible intro _
    | split
    | dsimp only [id])

theorem readAway_changes {Q : List Block} {s0 : State} {q : Nat} {i : Nat} {k : Word} {page : Nat} {s : State} (hq : subParts [.dev, .maint, .host, .clusters, .sched, .req, .rma, .links, .free, .out] Q = true) (hk : OnlyChanges Q s0 s) :
    OnlyChanges Q s0 (readAway q i k page s).2 := by
  unfold readAway
  repeat' (first
    | with_reducible assumption
    | ((with_reducible refine .inr (subParts_mem hq ?_)); rfl)
    | with_reducible exact .inl rfl
    | with_reducible apply raiseFault_changes (hq := subParts_trans rfl hq)
    | with_reducible apply qpError_changes (hq := subParts_trans rfl hq)
    | with_reducible apply wrUpd_changes (hq := subParts_trans rfl hq)
    | with_reducible refine changes_ite ?_ ?_
    | (with_reducible refine changesParts_of ?_ ?_ ?_ ?_ ?_ ?_ ?_ ?_ ?_ ?_ ?_ ?_ ?_ ?_ ?_ ?_ ?_ ?_ ?_ ?_)
    | simp only [changes_mk]
    | with_reducible intro _
    | split
    | dsimp only [id])

theorem readAway_changes_of {Q : List Block} {s0 : State} {q : Nat} {i : Nat} {k : Word} {page : Nat} {s : State} {tt : State} {c0 : _} (eq_ : readAway q i k page s = (c0, tt)) (hq : subParts [.dev, .maint, .host, .clusters, .sched, .req, .rma, .links, .free, .out] Q = true) (hk : OnlyChanges Q s0 s) : OnlyChanges Q s0 tt := by
  have := readAway_changes (Q := Q) (s0 := s0) (q := q) (i := i) (k := k) (page := page) (s := s) hq hk
  rw [eq_] at this; exact this

theorem readArrives_changes {Q : List Block} {s0 : State} {m : PodMsg} {s : State} (hq : subParts [.dev, .maint, .host, .forme, .codec, .tier, .clusters, .sched, .repro, .req, .pair, .rma, .links, .free, .out] Q = true) (hk : OnlyChanges Q s0 s) :
    OnlyChanges Q s0 (readArrives m s).2 := by
  unfold readArrives
  repeat' (first
    | with_reducible assumption
    | ((with_reducible refine .inr (subParts_mem hq ?_)); rfl)
    | with_reducible exact .inl rfl
    | with_reducible apply getD_changes
    | with_reducible apply readAway_changes (hq := subParts_trans rfl hq)
    | with_reducible apply podGone_changes (hq := subParts_trans rfl hq)
    | with_reducible apply regionMerge_changes (hq := subParts_trans rfl hq)
    | with_reducible apply rmaPump_changes (hq := subParts_trans rfl hq)
    | with_reducible apply qpError_changes (hq := subParts_trans rfl hq)
    | with_reducible apply wrDone_changes (hq := subParts_trans rfl hq)
    | with_reducible apply wrUpd_changes (hq := subParts_trans rfl hq)
    | with_reducible apply qpFlush_changes (hq := subParts_trans rfl hq)
    | (with_reducible apply readAway_changes_of (hq := subParts_trans rfl hq) (eq_ := by assumption))
    | (with_reducible apply regionMerge_changes_of (hq := subParts_trans rfl hq) (eq_ := by assumption))
    | with_reducible refine changes_ite ?_ ?_
    | (with_reducible refine changesParts_of ?_ ?_ ?_ ?_ ?_ ?_ ?_ ?_ ?_ ?_ ?_ ?_ ?_ ?_ ?_ ?_ ?_ ?_ ?_ ?_)
    | simp only [changes_mk]
    | with_reducible intro _
    | split
    | dsimp only [id])

theorem readArrives_changes_of {Q : List Block} {s0 : State} {m : PodMsg} {s : State} {tt : State} {c0 : _} (eq_ : readArrives m s = (c0, tt)) (hq : subParts [.dev, .maint, .host, .forme, .codec, .tier, .clusters, .sched, .repro, .req, .pair, .rma, .links, .free, .out] Q = true) (hk : OnlyChanges Q s0 s) : OnlyChanges Q s0 tt := by
  have := readArrives_changes (Q := Q) (s0 := s0) (m := m) (s := s) hq hk
  rw [eq_] at this; exact this

theorem parkAtomic_changes {Q : List Block} {s0 : State} {m : PodMsg} {s : State}  (hq : subParts [.near, .rma, .links] Q = true) (hk : OnlyChanges Q s0 s) :
    OnlyChanges Q s0 (parkAtomic m s) := by
  unfold parkAtomic
  repeat' (first
    | with_reducible assumption
    | ((with_reducible refine .inr (subParts_mem hq ?_)); rfl)
    | with_reducible exact .inl rfl
    | with_reducible apply podFinish_changes (hq := subParts_trans rfl hq)
    | with_reducible refine changes_ite ?_ ?_
    | (with_reducible refine changesParts_of ?_ ?_ ?_ ?_ ?_ ?_ ?_ ?_ ?_ ?_ ?_ ?_ ?_ ?_ ?_ ?_ ?_ ?_ ?_ ?_)
    | simp only [changes_mk]
    | with_reducible intro _
    | split
    | dsimp only [id])

theorem keyAsked_changes {Q : List Block} {s0 : State} {h : PodHdr} {s : State} (hq : subParts [.rma, .links] Q = true) (hk : OnlyChanges Q s0 s) :
    OnlyChanges Q s0 (keyAsked h s).2 := by
  unfold keyAsked
  repeat' (first
    | with_reducible assumption
    | ((with_reducible refine .inr (subParts_mem hq ?_)); rfl)
    | with_reducible exact .inl rfl
    | with_reducible apply sendPod_changes (hq := subParts_trans rfl hq)
    | with_reducible refine changes_ite ?_ ?_
    | (with_reducible refine changesParts_of ?_ ?_ ?_ ?_ ?_ ?_ ?_ ?_ ?_ ?_ ?_ ?_ ?_ ?_ ?_ ?_ ?_ ?_ ?_ ?_)
    | simp only [changes_mk]
    | with_reducible intro _
    | split
    | dsimp only [id])

theorem keyAsked_changes_of {Q : List Block} {s0 : State} {h : PodHdr} {s : State} {tt : State} {c0 : _} (eq_ : keyAsked h s = (c0, tt)) (hq : subParts [.rma, .links] Q = true) (hk : OnlyChanges Q s0 s) : OnlyChanges Q s0 tt := by
  have := keyAsked_changes (Q := Q) (s0 := s0) (h := h) (s := s) hq hk
  rw [eq_] at this; exact this

theorem podEffect_changes {Q : List Block} {s0 : State} {m : PodMsg} {s : State} (hq : subParts [.dev, .maint, .host, .forme, .codec, .tier, .clusters, .sched, .repro, .req, .pair, .near, .rma, .links, .free, .out] Q = true) (hk : OnlyChanges Q s0 s) :
    OnlyChanges Q s0 (podEffect m s) := by
  unfold podEffect
  repeat' (first
    | with_reducible assumption
    | ((with_reducible refine .inr (subParts_mem hq ?_)); rfl)
    | with_reducible exact .inl rfl
    | with_reducible apply keyAsked_changes (hq := subParts_trans rfl hq)
    | with_reducible apply parkAtomic_changes (hq := subParts_trans rfl hq)
    | with_reducible apply readArrives_changes (hq := subParts_trans rfl hq)
    | with_reducible apply hostSend_changes (hq := subParts_trans rfl hq)
    | with_reducible apply channelSend_changes (hq := subParts_trans rfl hq)
    | with_reducible apply serveRead_changes (hq := subParts_trans rfl hq)
    | with_reducible apply podFinish_changes (hq := subParts_trans rfl hq)
    | with_reducible apply regionMerge_changes (hq := subParts_trans rfl hq)
    | (with_reducible apply keyAsked_changes_of (hq := subParts_trans rfl hq) (eq_ := by assumption))
    | (with_reducible apply readArrives_changes_of (hq := subParts_trans rfl hq) (eq_ := by assumption))
    | (with_reducible apply hostSend_changes_of (hq := subParts_trans rfl hq) (eq_ := by assumption))
    | (with_reducible apply channelSend_changes_of (hq := subParts_trans rfl hq) (eq_ := by assumption))
    | (with_reducible apply regionMerge_changes_of (hq := subParts_trans rfl hq) (eq_ := by assumption))
    | with_reducible refine changes_ite ?_ ?_
    | (with_reducible refine changesParts_of ?_ ?_ ?_ ?_ ?_ ?_ ?_ ?_ ?_ ?_ ?_ ?_ ?_ ?_ ?_ ?_ ?_ ?_ ?_ ?_)
    | simp only [changes_mk]
    | with_reducible intro _
    | split
    | dsimp only [id])

theorem podAway_changes {Q : List Block} {s0 : State} {m : PodMsg} {page : Nat} {s : State}  (hq : subParts [.host, .rma, .links, .out] Q = true) (hk : OnlyChanges Q s0 s) :
    OnlyChanges Q s0 (podAway m page s) := by
  unfold podAway
  repeat' (first
    | with_reducible assumption
    | ((with_reducible refine .inr (subParts_mem hq ?_)); rfl)
    | with_reducible exact .inl rfl
    | with_reducible apply raiseFault_changes (hq := subParts_trans rfl hq)
    | with_reducible apply podFinish_changes (hq := subParts_trans rfl hq)
    | with_reducible refine changes_ite ?_ ?_
    | (with_reducible refine changesParts_of ?_ ?_ ?_ ?_ ?_ ?_ ?_ ?_ ?_ ?_ ?_ ?_ ?_ ?_ ?_ ?_ ?_ ?_ ?_ ?_)
    | simp only [changes_mk]
    | with_reducible intro _
    | split
    | dsimp only [id])

theorem podTagFails_changes {Q : List Block} {s0 : State} {m : PodMsg} {s : State}  (hq : subParts [.dev, .sec, .rma, .links] Q = true) (hk : OnlyChanges Q s0 s) :
    OnlyChanges Q s0 (podTagFails m s) := by
  unfold podTagFails
  repeat' (first
    | with_reducible assumption
    | ((with_reducible refine .inr (subParts_mem hq ?_)); rfl)
    | with_reducible exact .inl rfl
    | with_reducible apply podFinish_changes (hq := subParts_trans rfl hq)
    | with_reducible apply noteErr_changes (hq := subParts_trans rfl hq)
    | with_reducible refine changes_ite ?_ ?_
    | (with_reducible refine changesParts_of ?_ ?_ ?_ ?_ ?_ ?_ ?_ ?_ ?_ ?_ ?_ ?_ ?_ ?_ ?_ ?_ ?_ ?_ ?_ ?_)
    | simp only [changes_mk]
    | with_reducible intro _
    | split
    | dsimp only [id])

theorem podExecute_changes {Q : List Block} {s0 : State} {m : PodMsg} {s : State}  (hq : subParts [.dev, .maint, .sec, .host, .forme, .codec, .tier, .clusters, .sched, .repro, .req, .pair, .near, .rma, .links, .free, .out] Q = true) (hk : OnlyChanges Q s0 s) :
    OnlyChanges Q s0 (podExecute m s) := by
  unfold podExecute
  repeat' (first
    | with_reducible assumption
    | ((with_reducible refine .inr (subParts_mem hq ?_)); rfl)
    | with_reducible exact .inl rfl
    | with_reducible apply podTagFails_changes (hq := subParts_trans rfl hq)
    | with_reducible apply podFinish_changes (hq := subParts_trans rfl hq)
    | with_reducible apply podEffect_changes (hq := subParts_trans rfl hq)
    | with_reducible apply podAway_changes (hq := subParts_trans rfl hq)
    | with_reducible refine changes_ite ?_ ?_
    | (with_reducible refine changesParts_of ?_ ?_ ?_ ?_ ?_ ?_ ?_ ?_ ?_ ?_ ?_ ?_ ?_ ?_ ?_ ?_ ?_ ?_ ?_ ?_)
    | simp only [changes_mk]
    | with_reducible intro _
    | split
    | dsimp only [id])

theorem deregRun_changes {Q : List Block} {s0 : State} {s : State} (hq : subParts [.rma, .out] Q = true) (hk : OnlyChanges Q s0 s) :
    OnlyChanges Q s0 (deregRun s) := by
  unfold deregRun
  repeat' (first
    | with_reducible assumption
    | ((with_reducible refine .inr (subParts_mem hq ?_)); rfl)
    | with_reducible exact .inl rfl
    | with_reducible apply foldl_changes
    | with_reducible apply foldl_changes_fst
    | with_reducible apply foldl_changes_snd
    | with_reducible apply qpFlush_changes (hq := subParts_trans rfl hq)
    | with_reducible apply qpUpd_changes (hq := subParts_trans rfl hq)
    | with_reducible refine changes_ite ?_ ?_
    | (with_reducible refine changesParts_of ?_ ?_ ?_ ?_ ?_ ?_ ?_ ?_ ?_ ?_ ?_ ?_ ?_ ?_ ?_ ?_ ?_ ?_ ?_ ?_)
    | simp only [changes_mk]
    | with_reducible intro _
    | split
    | dsimp only [id])

theorem podTakeOn_changes {Q : List Block} {s0 : State} {m : PodMsg} {s : State}  (hq : subParts [.dev, .maint, .sec, .host, .forme, .codec, .tier, .clusters, .sched, .repro, .req, .pair, .near, .rma, .links, .free, .out] Q = true) (hk : OnlyChanges Q s0 s) :
    OnlyChanges Q s0 (podTakeOn m s) := by
  unfold podTakeOn
  repeat' (first
    | with_reducible assumption
    | ((with_reducible refine .inr (subParts_mem hq ?_)); rfl)
    | with_reducible exact .inl rfl
    | with_reducible apply podExecute_changes (hq := subParts_trans rfl hq)
    | with_reducible apply fetchStart_changes (hq := subParts_trans rfl hq)
    | with_reducible apply podFinish_changes (hq := subParts_trans rfl hq)
    | with_reducible apply qpUpd_changes (hq := subParts_trans rfl hq)
    | with_reducible refine changes_ite ?_ ?_
    | (with_reducible refine changesParts_of ?_ ?_ ?_ ?_ ?_ ?_ ?_ ?_ ?_ ?_ ?_ ?_ ?_ ?_ ?_ ?_ ?_ ?_ ?_ ?_)
    | simp only [changes_mk]
    | with_reducible intro _
    | split
    | dsimp only [id])

theorem podTake_changes {Q : List Block} {s0 : State} {type : Nat} {m : PodMsg} {s : State} (hq : subParts [.dev, .maint, .sec, .host, .forme, .codec, .tier, .clusters, .sched, .repro, .req, .pair, .near, .rma, .links, .free, .out] Q = true) (hk : OnlyChanges Q s0 s) :
    OnlyChanges Q s0 (podTake type m s) := by
  unfold podTake
  repeat' (first
    | with_reducible assumption
    | ((with_reducible refine .inr (subParts_mem hq ?_)); rfl)
    | with_reducible exact .inl rfl
    | with_reducible apply podTakeOn_changes (hq := subParts_trans rfl hq)
    | with_reducible apply deregRun_changes (hq := subParts_trans rfl hq)
    | with_reducible apply podFinish_changes (hq := subParts_trans rfl hq)
    | with_reducible apply podAck_changes (hq := subParts_trans rfl hq)
    | with_reducible refine changes_ite ?_ ?_
    | (with_reducible refine changesParts_of ?_ ?_ ?_ ?_ ?_ ?_ ?_ ?_ ?_ ?_ ?_ ?_ ?_ ?_ ?_ ?_ ?_ ?_ ?_ ?_)
    | simp only [changes_mk]
    | with_reducible intro _
    | split
    | dsimp only [id])

theorem fetched_changes {Q : List Block} {s0 : State} {q : Nat} {s : State} (hq : subParts [.dev, .maint, .sec, .host, .forme, .codec, .tier, .clusters, .sched, .repro, .req, .pair, .near, .rma, .links, .free, .out] Q = true) (hk : OnlyChanges Q s0 s) :
    OnlyChanges Q s0 (fetched q s) := by
  unfold fetched
  repeat' (first
    | with_reducible assumption
    | ((with_reducible refine .inr (subParts_mem hq ?_)); rfl)
    | with_reducible exact .inl rfl
    | with_reducible apply foldl_changes
    | with_reducible apply foldl_changes_fst
    | with_reducible apply foldl_changes_snd
    | with_reducible apply deregRun_changes (hq := subParts_trans rfl hq)
    | with_reducible apply podExecute_changes (hq := subParts_trans rfl hq)
    | with_reducible apply qpSend_changes (hq := subParts_trans rfl hq)
    | with_reducible apply evictFor_changes (hq := subParts_trans rfl hq)
    | with_reducible apply qpUpd_changes (hq := subParts_trans rfl hq)
    | with_reducible refine changes_ite ?_ ?_
    | (with_reducible refine changesParts_of ?_ ?_ ?_ ?_ ?_ ?_ ?_ ?_ ?_ ?_ ?_ ?_ ?_ ?_ ?_ ?_ ?_ ?_ ?_ ?_)
    | simp only [changes_mk]
    | with_reducible intro _
    | split
    | dsimp only [id])

theorem fetchFails_changes {Q : List Block} {s0 : State} {q : Nat} {s : State} (hq : subParts [.dev, .rma, .links, .out] Q = true) (hk : OnlyChanges Q s0 s) :
    OnlyChanges Q s0 (fetchFails q s) := by
  unfold fetchFails
  repeat' (first
    | with_reducible assumption
    | ((with_reducible refine .inr (subParts_mem hq ?_)); rfl)
    | with_reducible exact .inl rfl
    | with_reducible apply foldl_changes
    | with_reducible apply foldl_changes_fst
    | with_reducible apply foldl_changes_snd
    | with_reducible apply podFinish_changes (hq := subParts_trans rfl hq)
    | with_reducible apply evictFor_changes (hq := subParts_trans rfl hq)
    | with_reducible apply qpUpd_changes (hq := subParts_trans rfl hq)
    | with_reducible apply noteErr_changes (hq := subParts_trans rfl hq)
    | with_reducible apply msix_changes (hq := subParts_trans rfl hq)
    | with_reducible apply emit_changes (hq := subParts_trans rfl hq)
    | with_reducible refine changes_ite ?_ ?_
    | (with_reducible refine changesParts_of ?_ ?_ ?_ ?_ ?_ ?_ ?_ ?_ ?_ ?_ ?_ ?_ ?_ ?_ ?_ ?_ ?_ ?_ ?_ ?_)
    | simp only [changes_mk]
    | with_reducible intro _
    | split
    | dsimp only [id])

theorem pieceRefused_changes {Q : List Block} {s0 : State} {q : Nat} {i : Nat} {w : WrState} {p : Piece} {s : State} (hq : subParts [.dev, .maint, .clusters, .sched, .req, .rma, .links, .free, .out] Q = true) (hk : OnlyChanges Q s0 s) :
    OnlyChanges Q s0 (pieceRefused q i w p s) := by
  unfold pieceRefused
  repeat' (first
    | with_reducible assumption
    | ((with_reducible refine .inr (subParts_mem hq ?_)); rfl)
    | with_reducible exact .inl rfl
    | with_reducible apply getD_changes
    | with_reducible apply qpError_changes (hq := subParts_trans rfl hq)
    | with_reducible apply wrDone_changes (hq := subParts_trans rfl hq)
    | with_reducible apply wrUpd_changes (hq := subParts_trans rfl hq)
    | with_reducible apply qpFlush_changes (hq := subParts_trans rfl hq)
    | with_reducible apply bumpFree_changes (hq := subParts_trans rfl hq)
    | with_reducible refine changes_ite ?_ ?_
    | (with_reducible refine changesParts_of ?_ ?_ ?_ ?_ ?_ ?_ ?_ ?_ ?_ ?_ ?_ ?_ ?_ ?_ ?_ ?_ ?_ ?_ ?_ ?_)
    | simp only [changes_mk]
    | with_reducible intro _
    | split
    | dsimp only [id])

theorem pieceDone_changes {Q : List Block} {s0 : State} {q : Nat} {i : Nat} {p : Piece} {result : List Byte} {s : State}  (hq : subParts [.rma, .links, .out] Q = true) (hk : OnlyChanges Q s0 s) :
    OnlyChanges Q s0 (pieceDone q i p result s) := by
  unfold pieceDone
  repeat' (first
    | with_reducible assumption
    | ((with_reducible refine .inr (subParts_mem hq ?_)); rfl)
    | with_reducible exact .inl rfl
    | with_reducible apply qpFlush_changes (hq := subParts_trans rfl hq)
    | with_reducible apply wrDone_changes (hq := subParts_trans rfl hq)
    | with_reducible apply qpSend_changes (hq := subParts_trans rfl hq)
    | with_reducible apply wrUpd_changes (hq := subParts_trans rfl hq)
    | with_reducible refine changes_ite ?_ ?_
    | (with_reducible refine changesParts_of ?_ ?_ ?_ ?_ ?_ ?_ ?_ ?_ ?_ ?_ ?_ ?_ ?_ ?_ ?_ ?_ ?_ ?_ ?_ ?_)
    | simp only [changes_mk]
    | with_reducible intro _
    | split
    | dsimp only [id])

theorem shardEnds_changes {Q : List Block} {s0 : State} {p : ShardRun → Bool} {c : Status} {result : List Byte} {s : State} (hq : subParts [.host, .repro, .out] Q = true) (hk : OnlyChanges Q s0 s) :
    OnlyChanges Q s0 (shardEnds p c result s) := by
  unfold shardEnds
  repeat' (first
    | with_reducible assumption
    | ((with_reducible refine .inr (subParts_mem hq ?_)); rfl)
    | with_reducible exact .inl rfl
    | with_reducible apply postCq_changes (hq := subParts_trans rfl hq)
    | with_reducible refine changes_ite ?_ ?_
    | (with_reducible refine changesParts_of ?_ ?_ ?_ ?_ ?_ ?_ ?_ ?_ ?_ ?_ ?_ ?_ ?_ ?_ ?_ ?_ ?_ ?_ ?_ ?_)
    | simp only [changes_mk]
    | with_reducible intro _
    | split
    | dsimp only [id])

theorem claimAnswer_changes {Q : List Block} {s0 : State} {id : Nat} {c : Status} {result : List Byte} {s : State} (hq : subParts [.host, .repro, .out] Q = true) (hk : OnlyChanges Q s0 s) :
    OnlyChanges Q s0 (claimAnswer id c result s) := by
  unfold claimAnswer
  repeat' (first
    | with_reducible assumption
    | ((with_reducible refine .inr (subParts_mem hq ?_)); rfl)
    | with_reducible exact .inl rfl
    | with_reducible apply shardEnds_changes (hq := subParts_trans rfl hq)
    | with_reducible refine changes_ite ?_ ?_
    | (with_reducible refine changesParts_of ?_ ?_ ?_ ?_ ?_ ?_ ?_ ?_ ?_ ?_ ?_ ?_ ?_ ?_ ?_ ?_ ?_ ?_ ?_ ?_)
    | simp only [changes_mk]
    | with_reducible intro _
    | split
    | dsimp only [id])

theorem outEnds_changes {Q : List Block} {s0 : State} {o : PodOut} {c : Status} {s : State} (hq : subParts [.sec, .host, .repro, .out] Q = true) (hk : OnlyChanges Q s0 s) :
    OnlyChanges Q s0 (outEnds o c s) := by
  unfold outEnds
  repeat' (first
    | with_reducible assumption
    | ((with_reducible refine .inr (subParts_mem hq ?_)); rfl)
    | with_reducible exact .inl rfl
    | with_reducible apply claimAnswer_changes (hq := subParts_trans rfl hq)
    | with_reducible apply fwFails_changes (hq := subParts_trans rfl hq)
    | with_reducible refine changes_ite ?_ ?_
    | (with_reducible refine changesParts_of ?_ ?_ ?_ ?_ ?_ ?_ ?_ ?_ ?_ ?_ ?_ ?_ ?_ ?_ ?_ ?_ ?_ ?_ ?_ ?_)
    | simp only [changes_mk]
    | with_reducible intro _
    | split
    | dsimp only [id])

theorem outRefused_changes {Q : List Block} {s0 : State} {o : PodOut} {s : State} (hq : subParts [.sec, .host, .repro, .rma, .free, .out] Q = true) (hk : OnlyChanges Q s0 s) :
    OnlyChanges Q s0 (outRefused o s) := by
  unfold outRefused
  repeat' (first
    | with_reducible assumption
    | ((with_reducible refine .inr (subParts_mem hq ?_)); rfl)
    | with_reducible exact .inl rfl
    | with_reducible apply getD_changes
    | with_reducible apply outEnds_changes (hq := subParts_trans rfl hq)
    | with_reducible apply bumpFree_changes (hq := subParts_trans rfl hq)
    | with_reducible refine changes_ite ?_ ?_
    | (with_reducible refine changesParts_of ?_ ?_ ?_ ?_ ?_ ?_ ?_ ?_ ?_ ?_ ?_ ?_ ?_ ?_ ?_ ?_ ?_ ?_ ?_ ?_)
    | simp only [changes_mk]
    | with_reducible intro _
    | split
    | dsimp only [id])

theorem ackAt_changes {Q : List Block} {s0 : State} {m : PodMsg} {s : State} (hq : subParts [.dev, .maint, .sec, .host, .clusters, .sched, .repro, .req, .rma, .links, .free, .out] Q = true) (hk : OnlyChanges Q s0 s) :
    OnlyChanges Q s0 (ackAt m s) := by
  unfold ackAt
  repeat' (first
    | with_reducible assumption
    | ((with_reducible refine .inr (subParts_mem hq ?_)); rfl)
    | with_reducible exact .inl rfl
    | with_reducible apply outRefused_changes (hq := subParts_trans rfl hq)
    | with_reducible apply outEnds_changes (hq := subParts_trans rfl hq)
    | with_reducible apply claimAnswer_changes (hq := subParts_trans rfl hq)
    | with_reducible apply pieceDone_changes (hq := subParts_trans rfl hq)
    | with_reducible apply pieceRefused_changes (hq := subParts_trans rfl hq)
    | with_reducible apply podGone_changes (hq := subParts_trans rfl hq)
    | with_reducible apply rmaPump_changes (hq := subParts_trans rfl hq)
    | with_reducible apply qpError_changes (hq := subParts_trans rfl hq)
    | with_reducible refine changes_ite ?_ ?_
    | (with_reducible refine changesParts_of ?_ ?_ ?_ ?_ ?_ ?_ ?_ ?_ ?_ ?_ ?_ ?_ ?_ ?_ ?_ ?_ ?_ ?_ ?_ ?_)
    | simp only [changes_mk]
    | with_reducible intro _
    | split
    | dsimp only [id])

theorem retransmit_changes {Q : List Block} {s0 : State} {id : Nat} {s : State} (hq : subParts [.rma, .links] Q = true) (hk : OnlyChanges Q s0 s) :
    OnlyChanges Q s0 (retransmit id s) := by
  unfold retransmit
  repeat' (first
    | with_reducible assumption
    | ((with_reducible refine .inr (subParts_mem hq ?_)); rfl)
    | with_reducible exact .inl rfl
    | with_reducible apply getD_changes
    | with_reducible apply podQueue_changes (hq := subParts_trans rfl hq)
    | with_reducible apply sendSuspect_changes (hq := subParts_trans rfl hq)
    | with_reducible refine changes_ite ?_ ?_
    | (with_reducible refine changesParts_of ?_ ?_ ?_ ?_ ?_ ?_ ?_ ?_ ?_ ?_ ?_ ?_ ?_ ?_ ?_ ?_ ?_ ?_ ?_ ?_)
    | simp only [changes_mk]
    | with_reducible intro _
    | split
    | dsimp only [id])

theorem lifetimeEnds_changes {Q : List Block} {s0 : State} {id : Nat} {s : State} (hq : subParts [.dev, .maint, .sec, .host, .clusters, .sched, .repro, .req, .rma, .links, .free, .out] Q = true) (hk : OnlyChanges Q s0 s) :
    OnlyChanges Q s0 (lifetimeEnds id s) := by
  unfold lifetimeEnds
  repeat' (first
    | with_reducible assumption
    | ((with_reducible refine .inr (subParts_mem hq ?_)); rfl)
    | with_reducible exact .inl rfl
    | with_reducible apply outEnds_changes (hq := subParts_trans rfl hq)
    | with_reducible apply podGone_changes (hq := subParts_trans rfl hq)
    | with_reducible apply rmaPump_changes (hq := subParts_trans rfl hq)
    | with_reducible apply qpError_changes (hq := subParts_trans rfl hq)
    | with_reducible apply noteErr_changes (hq := subParts_trans rfl hq)
    | with_reducible refine changes_ite ?_ ?_
    | (with_reducible refine changesParts_of ?_ ?_ ?_ ?_ ?_ ?_ ?_ ?_ ?_ ?_ ?_ ?_ ?_ ?_ ?_ ?_ ?_ ?_ ?_ ?_)
    | simp only [changes_mk]
    | with_reducible intro _
    | split
    | dsimp only [id])

theorem readTimesOut_changes {Q : List Block} {s0 : State} {id : Nat} {s : State} (hq : subParts [.dev, .maint, .clusters, .sched, .repro, .req, .rma, .links, .free, .out] Q = true) (hk : OnlyChanges Q s0 s) :
    OnlyChanges Q s0 (readTimesOut id s) := by
  unfold readTimesOut
  repeat' (first
    | with_reducible assumption
    | ((with_reducible refine .inr (subParts_mem hq ?_)); rfl)
    | with_reducible exact .inl rfl
    | with_reducible apply podGone_changes (hq := subParts_trans rfl hq)
    | with_reducible apply rmaPump_changes (hq := subParts_trans rfl hq)
    | with_reducible apply qpError_changes (hq := subParts_trans rfl hq)
    | with_reducible refine changes_ite ?_ ?_
    | (with_reducible refine changesParts_of ?_ ?_ ?_ ?_ ?_ ?_ ?_ ?_ ?_ ?_ ?_ ?_ ?_ ?_ ?_ ?_ ?_ ?_ ?_ ?_)
    | simp only [changes_mk]
    | with_reducible intro _
    | split
    | dsimp only [id])

theorem backoffEnds_changes {Q : List Block} {s0 : State} {id : Nat} {s : State} (hq : subParts [.repro, .rma, .links] Q = true) (hk : OnlyChanges Q s0 s) :
    OnlyChanges Q s0 (backoffEnds id s) := by
  unfold backoffEnds
  repeat' (first
    | with_reducible assumption
    | ((with_reducible refine .inr (subParts_mem hq ?_)); rfl)
    | with_reducible exact .inl rfl
    | with_reducible apply qpSend_changes (hq := subParts_trans rfl hq)
    | with_reducible apply wrUpd_changes (hq := subParts_trans rfl hq)
    | with_reducible apply podSend_changes (hq := subParts_trans rfl hq)
    | with_reducible refine changes_ite ?_ ?_
    | (with_reducible refine changesParts_of ?_ ?_ ?_ ?_ ?_ ?_ ?_ ?_ ?_ ?_ ?_ ?_ ?_ ?_ ?_ ?_ ?_ ?_ ?_ ?_)
    | simp only [changes_mk]
    | with_reducible intro _
    | split
    | dsimp only [id])

theorem limitEnds_changes {Q : List Block} {s0 : State} {id : Nat} {s : State} (hq : subParts [.dev, .maint, .sec, .host, .clusters, .sched, .repro, .req, .rma, .links, .free, .out] Q = true) (hk : OnlyChanges Q s0 s) :
    OnlyChanges Q s0 (limitEnds id s) := by
  unfold limitEnds
  repeat' (first
    | with_reducible assumption
    | ((with_reducible refine .inr (subParts_mem hq ?_)); rfl)
    | with_reducible exact .inl rfl
    | with_reducible apply getD_changes
    | with_reducible apply outRefused_changes (hq := subParts_trans rfl hq)
    | with_reducible apply rmaPump_changes (hq := subParts_trans rfl hq)
    | with_reducible apply qpError_changes (hq := subParts_trans rfl hq)
    | with_reducible apply wrDone_changes (hq := subParts_trans rfl hq)
    | with_reducible apply qpFlush_changes (hq := subParts_trans rfl hq)
    | with_reducible refine changes_ite ?_ ?_
    | (with_reducible refine changesParts_of ?_ ?_ ?_ ?_ ?_ ?_ ?_ ?_ ?_ ?_ ?_ ?_ ?_ ?_ ?_ ?_ ?_ ?_ ?_ ?_)
    | simp only [changes_mk]
    | with_reducible intro _
    | split
    | dsimp only [id])

theorem readAgain_changes {Q : List Block} {s0 : State} {m : PodMsg} {s : State}  (hq : subParts [.dev, .maint, .host, .forme, .codec, .tier, .repro, .req, .pair, .rma, .links, .free, .out] Q = true) (hk : OnlyChanges Q s0 s) :
    OnlyChanges Q s0 (readAgain m s) := by
  unfold readAgain
  repeat' (first
    | with_reducible assumption
    | ((with_reducible refine .inr (subParts_mem hq ?_)); rfl)
    | with_reducible exact .inl rfl
    | with_reducible apply raiseFault_changes (hq := subParts_trans rfl hq)
    | with_reducible apply readFails_changes (hq := subParts_trans rfl hq)
    | with_reducible apply serveRead_changes (hq := subParts_trans rfl hq)
    | with_reducible refine changes_ite ?_ ?_
    | (with_reducible refine changesParts_of ?_ ?_ ?_ ?_ ?_ ?_ ?_ ?_ ?_ ?_ ?_ ?_ ?_ ?_ ?_ ?_ ?_ ?_ ?_ ?_)
    | simp only [changes_mk]
    | with_reducible intro _
    | split
    | dsimp only [id])

theorem wrHold_changes {Q : List Block} {s0 : State} {q : Nat} {i : Nat} {s : State}  (hq : subParts [.dev, .maint, .host, .clusters, .sched, .req, .rma, .links, .free, .out] Q = true) (hk : OnlyChanges Q s0 s) :
    OnlyChanges Q s0 (wrHold q i s) := by
  unfold wrHold
  repeat' (first
    | with_reducible assumption
    | ((with_reducible refine .inr (subParts_mem hq ?_)); rfl)
    | with_reducible exact .inl rfl
    | with_reducible apply raiseFault_changes (hq := subParts_trans rfl hq)
    | with_reducible apply qpError_changes (hq := subParts_trans rfl hq)
    | with_reducible apply wrUpd_changes (hq := subParts_trans rfl hq)
    | with_reducible refine changes_ite ?_ ?_
    | (with_reducible refine changesParts_of ?_ ?_ ?_ ?_ ?_ ?_ ?_ ?_ ?_ ?_ ?_ ?_ ?_ ?_ ?_ ?_ ?_ ?_ ?_ ?_)
    | simp only [changes_mk]
    | with_reducible intro _
    | split
    | dsimp only [id])

theorem pagePresent_changes {Q : List Block} {s0 : State} {k : Word} {page : Nat} {s : State}  (hq : subParts [.dev, .maint, .host, .forme, .codec, .tier, .clusters, .sched, .repro, .req, .pair, .rma, .links, .free, .out] Q = true) (hk : OnlyChanges Q s0 s) :
    OnlyChanges Q s0 (pagePresent k page s) := by
  unfold pagePresent
  repeat' (first
    | with_reducible assumption
    | ((with_reducible refine .inr (subParts_mem hq ?_)); rfl)
    | with_reducible exact .inl rfl
    | with_reducible apply foldl_changes
    | with_reducible apply foldl_changes_fst
    | with_reducible apply foldl_changes_snd
    | with_reducible apply readAgain_changes (hq := subParts_trans rfl hq)
    | with_reducible apply rmaPump_changes (hq := subParts_trans rfl hq)
    | with_reducible apply wrHold_changes (hq := subParts_trans rfl hq)
    | with_reducible refine changes_ite ?_ ?_
    | (with_reducible refine changesParts_of ?_ ?_ ?_ ?_ ?_ ?_ ?_ ?_ ?_ ?_ ?_ ?_ ?_ ?_ ?_ ?_ ?_ ?_ ?_ ?_)
    | simp only [changes_mk]
    | with_reducible intro _
    | split
    | dsimp only [id])

theorem faultEnds_changes {Q : List Block} {s0 : State} {k : Word} {page : Nat} {s : State}  (hq : subParts [.dev, .maint, .clusters, .sched, .repro, .req, .rma, .links, .free, .out] Q = true) (hk : OnlyChanges Q s0 s) :
    OnlyChanges Q s0 (faultEnds k page s) := by
  unfold faultEnds
  repeat' (first
    | with_reducible assumption
    | ((with_reducible refine .inr (subParts_mem hq ?_)); rfl)
    | with_reducible exact .inl rfl
    | with_reducible apply foldl_changes
    | with_reducible apply foldl_changes_fst
    | with_reducible apply foldl_changes_snd
    | with_reducible apply readFails_changes (hq := subParts_trans rfl hq)
    | with_reducible apply deregRun_changes (hq := subParts_trans rfl hq)
    | with_reducible apply qpError_changes (hq := subParts_trans rfl hq)
    | with_reducible refine changes_ite ?_ ?_
    | (with_reducible refine changesParts_of ?_ ?_ ?_ ?_ ?_ ?_ ?_ ?_ ?_ ?_ ?_ ?_ ?_ ?_ ?_ ?_ ?_ ?_ ?_ ?_)
    | simp only [changes_mk]
    | with_reducible intro _
    | split
    | dsimp only [id])

theorem workEnds_changes {Q : List Block} {s0 : State} {d : Nat → Bool} {c : Status} {s : State} (hq : subParts [.sec, .host, .repro, .out] Q = true) (hk : OnlyChanges Q s0 s) :
    OnlyChanges Q s0 (workEnds d c s) := by
  unfold workEnds
  repeat' (first
    | with_reducible assumption
    | ((with_reducible refine .inr (subParts_mem hq ?_)); rfl)
    | with_reducible exact .inl rfl
    | with_reducible apply foldl_changes
    | with_reducible apply foldl_changes_fst
    | with_reducible apply foldl_changes_snd
    | with_reducible apply outEnds_changes (hq := subParts_trans rfl hq)
    | with_reducible apply shardEnds_changes (hq := subParts_trans rfl hq)
    | with_reducible apply fwFails_changes (hq := subParts_trans rfl hq)
    | with_reducible refine changes_ite ?_ ?_
    | (with_reducible refine changesParts_of ?_ ?_ ?_ ?_ ?_ ?_ ?_ ?_ ?_ ?_ ?_ ?_ ?_ ?_ ?_ ?_ ?_ ?_ ?_ ?_)
    | simp only [changes_mk]
    | with_reducible intro _
    | split
    | dsimp only [id])

theorem rmaExcluded_changes {Q : List Block} {s0 : State} {d : Nat} {s : State} (hq : subParts [.sec, .host, .repro, .rma, .links, .out] Q = true) (hk : OnlyChanges Q s0 s) :
    OnlyChanges Q s0 (rmaExcluded d s) := by
  unfold rmaExcluded
  repeat' (first
    | with_reducible assumption
    | ((with_reducible refine .inr (subParts_mem hq ?_)); rfl)
    | with_reducible exact .inl rfl
    | with_reducible apply foldl_changes
    | with_reducible apply foldl_changes_fst
    | with_reducible apply foldl_changes_snd
    | with_reducible apply workEnds_changes (hq := subParts_trans rfl hq)
    | with_reducible apply rmaPump_changes (hq := subParts_trans rfl hq)
    | with_reducible apply qpFlush_changes (hq := subParts_trans rfl hq)
    | with_reducible refine changes_ite ?_ ?_
    | (with_reducible refine changesParts_of ?_ ?_ ?_ ?_ ?_ ?_ ?_ ?_ ?_ ?_ ?_ ?_ ?_ ?_ ?_ ?_ ?_ ?_ ?_ ?_)
    | simp only [changes_mk]
    | with_reducible intro _
    | split
    | dsimp only [id])

theorem rmaReadmit_changes {Q : List Block} {s0 : State} {s : State} (hq : subParts [.dev, .maint, .sec, .host, .clusters, .sched, .repro, .req, .near, .rma, .links, .free, .out] Q = true) (hk : OnlyChanges Q s0 s) :
    OnlyChanges Q s0 (rmaReadmit s) := by
  unfold rmaReadmit
  repeat' (first
    | with_reducible assumption
    | ((with_reducible refine .inr (subParts_mem hq ?_)); rfl)
    | with_reducible exact .inl rfl
    | with_reducible apply foldl_changes
    | with_reducible apply foldl_changes_fst
    | with_reducible apply foldl_changes_snd
    | with_reducible apply workEnds_changes (hq := subParts_trans rfl hq)
    | with_reducible apply qpError_changes (hq := subParts_trans rfl hq)
    | with_reducible apply ringEnds_changes (hq := subParts_trans rfl hq)
    | with_reducible apply qpFlush_changes (hq := subParts_trans rfl hq)
    | with_reducible refine changes_ite ?_ ?_
    | (with_reducible refine changesParts_of ?_ ?_ ?_ ?_ ?_ ?_ ?_ ?_ ?_ ?_ ?_ ?_ ?_ ?_ ?_ ?_ ?_ ?_ ?_ ?_)
    | simp only [changes_mk]
    | with_reducible intro _
    | split
    | dsimp only [id])

end Sys2Proof.Machine
end

