-- ==== Sys2Proof/Laws/ChangesRequests.lean ====
section
/-!
SUPPORT. The blocks of the state that the operations of Sys2Proof/Machine/Requests.lean may change.
-/

namespace Sys2Proof.Machine

theorem unlessFenced_changes {Q : List Block} {s0 : State} {f : State → State} {s : State} (h_f : ∀ (u : State), OnlyChanges Q s0 u → OnlyChanges Q s0 (f u)) (hq : subParts [] Q = true) (hk : OnlyChanges Q s0 s) :
    OnlyChanges Q s0 (unlessFenced f s) := by
  unfold unlessFenced
  repeat' (first
    | with_reducible assumption
    | ((with_reducible refine .inr (subParts_mem hq ?_)); rfl)
    | with_reducible exact .inl rfl
    | with_reducible apply h_f
    | with_reducible refine changes_ite ?_ ?_
    | (with_reducible refine changesParts_of ?_ ?_ ?_ ?_ ?_ ?_ ?_ ?_ ?_ ?_ ?_ ?_ ?_ ?_ ?_ ?_ ?_ ?_ ?_ ?_)
    | simp only [changes_mk]
    | with_reducible intro _
    | split
    | dsimp only [id])

theorem execStageAdmission_changes {Q : List Block} {s0 : State} {m : StageAdmission} {s : State}  (hq : subParts [.tier, .req, .rma, .links, .free, .out] Q = true) {tt : State} (hk : OnlyChanges Q s0 s) (eq_ : execStageAdmission m s = .next tt) : OnlyChanges Q s0 tt := by
  unfold execStageAdmission at eq_
  repeat' (first | split at eq_ | dsimp only at eq_)
  all_goals (first | (injection eq_ with eq_; subst eq_) | (cases eq_))
  repeat' (first
    | with_reducible assumption
    | ((with_reducible refine .inr (subParts_mem hq ?_)); rfl)
    | with_reducible exact .inl rfl
    | with_reducible apply stageAdmission_changes (hq := subParts_trans rfl hq)
    | with_reducible refine changes_ite ?_ ?_
    | (with_reducible refine changesParts_of ?_ ?_ ?_ ?_ ?_ ?_ ?_ ?_ ?_ ?_ ?_ ?_ ?_ ?_ ?_ ?_ ?_ ?_ ?_ ?_)
    | simp only [changes_mk]
    | with_reducible intro _
    | split
    | dsimp only [id])

theorem execConfirmation_changes {Q : List Block} {s0 : State} {q : ReqId} {src : StageFrom} {pause : Option DropReport} {s : State} {tt : State} (hq : subParts [.dev, .sec, .host, .repro, .req, .rma, .links, .out] Q = true) (hk : OnlyChanges Q s0 s) (eq_ : execConfirmation q src pause s = .next tt) : OnlyChanges Q s0 tt := by
  unfold execConfirmation at eq_
  repeat' (first | split at eq_ | dsimp only at eq_)
  all_goals (first | (injection eq_ with eq_; subst eq_) | (cases eq_))
  repeat' (first
    | with_reducible assumption
    | ((with_reducible refine .inr (subParts_mem hq ?_)); rfl)
    | with_reducible exact .inl rfl
    | with_reducible apply unlessFenced_changes (hq := subParts_trans rfl hq)
    | with_reducible apply confirmAt_changes (hq := subParts_trans rfl hq)
    | with_reducible refine changes_ite ?_ ?_
    | (with_reducible refine changesParts_of ?_ ?_ ?_ ?_ ?_ ?_ ?_ ?_ ?_ ?_ ?_ ?_ ?_ ?_ ?_ ?_ ?_ ?_ ?_ ?_)
    | simp only [changes_mk]
    | with_reducible intro _
    | split
    | dsimp only [id])

theorem refusal_changes {Q : List Block} {s0 : State} {q : ReqId} {c : Status} {d : DevId} {s : State} (hq : subParts [.host, .codec, .tier, .req, .rma, .links, .out] Q = true) (hk : OnlyChanges Q s0 s) :
    OnlyChanges Q s0 (refusal q c d s) := by
  unfold refusal
  repeat' (first
    | with_reducible assumption
    | ((with_reducible refine .inr (subParts_mem hq ?_)); rfl)
    | with_reducible exact .inl rfl
    | with_reducible apply releaseStage_changes (hq := subParts_trans rfl hq)
    | with_reducible apply refusalAt_changes (hq := subParts_trans rfl hq)
    | with_reducible apply resumeFailed_changes (hq := subParts_trans rfl hq)
    | with_reducible refine changes_ite ?_ ?_
    | (with_reducible refine changesParts_of ?_ ?_ ?_ ?_ ?_ ?_ ?_ ?_ ?_ ?_ ?_ ?_ ?_ ?_ ?_ ?_ ?_ ?_ ?_ ?_)
    | simp only [changes_mk]
    | with_reducible intro _
    | split
    | dsimp only [id])

theorem execStageRefusal_changes {Q : List Block} {s0 : State} {q : ReqId} {c : CodeFrom} {s : State} {tt : State} (hq : subParts [.host, .codec, .tier, .req, .rma, .links, .out] Q = true) (hk : OnlyChanges Q s0 s) (eq_ : execStageRefusal q c s = .next tt) : OnlyChanges Q s0 tt := by
  unfold execStageRefusal at eq_
  repeat' (first | split at eq_ | dsimp only at eq_)
  all_goals (first | (injection eq_ with eq_; subst eq_) | (cases eq_))
  repeat' (first
    | with_reducible assumption
    | ((with_reducible refine .inr (subParts_mem hq ?_)); rfl)
    | with_reducible exact .inl rfl
    | with_reducible apply refusal_changes (hq := subParts_trans rfl hq)
    | with_reducible apply unlessFenced_changes (hq := subParts_trans rfl hq)
    | with_reducible refine changes_ite ?_ ?_
    | (with_reducible refine changesParts_of ?_ ?_ ?_ ?_ ?_ ?_ ?_ ?_ ?_ ?_ ?_ ?_ ?_ ?_ ?_ ?_ ?_ ?_ ?_ ?_)
    | simp only [changes_mk]
    | with_reducible intro _
    | split
    | dsimp only [id])

theorem execAppend_changes {Q : List Block} {s0 : State} {m : AppendMsg} {s : State} {tt : State} (hq : subParts [.dev, .maint, .forme, .codec, .tier, .sched, .req, .pair, .rma, .links, .out] Q = true) (hk : OnlyChanges Q s0 s) (eq_ : execAppend m s = .next tt) : OnlyChanges Q s0 tt := by
  unfold execAppend at eq_
  repeat' (first | split at eq_ | dsimp only at eq_)
  all_goals (first | (injection eq_ with eq_; subst eq_) | (cases eq_))
  repeat' (first
    | with_reducible assumption
    | ((with_reducible refine .inr (subParts_mem hq ?_)); rfl)
    | with_reducible exact .inl rfl
    | with_reducible apply unlessFenced_changes (hq := subParts_trans rfl hq)
    | with_reducible apply appendAt_changes (hq := subParts_trans rfl hq)
    | (with_reducible apply appendAt_changes_of (hq := subParts_trans rfl hq) (eq_ := by assumption))
    | with_reducible refine changes_ite ?_ ?_
    | (with_reducible refine changesParts_of ?_ ?_ ?_ ?_ ?_ ?_ ?_ ?_ ?_ ?_ ?_ ?_ ?_ ?_ ?_ ?_ ?_ ?_ ?_ ?_)
    | simp only [changes_mk]
    | with_reducible intro _
    | split
    | dsimp only [id])

theorem sealDone_changes {Q : List Block} {s0 : State} {q : ReqId} {l : Nat} {p : Nat} {reads : ReadOutcome} {s : State} (hq : subParts [.dev, .maint, .forme, .codec, .tier, .sched, .req, .pair, .near, .rma, .links, .free, .out] Q = true) (hk : OnlyChanges Q s0 s) :
    OnlyChanges Q s0 (sealDone q l p reads s) := by
  unfold sealDone
  repeat' (first
    | with_reducible assumption
    | ((with_reducible refine .inr (subParts_mem hq ?_)); rfl)
    | with_reducible exact .inl rfl
    | with_reducible apply copyCheck_changes (hq := subParts_trans rfl hq)
    | with_reducible apply moverRead_changes (hq := subParts_trans rfl hq)
    | with_reducible apply mirrorSend_changes (hq := subParts_trans rfl hq)
    | with_reducible apply compareSeal_changes (hq := subParts_trans rfl hq)
    | (with_reducible apply moverRead_changes_of (hq := subParts_trans rfl hq) (eq_ := by assumption))
    | (with_reducible apply sealPage_changes_of (hq := subParts_trans rfl hq) (eq_ := by assumption))
    | with_reducible refine changes_ite ?_ ?_
    | (with_reducible refine changesParts_of ?_ ?_ ?_ ?_ ?_ ?_ ?_ ?_ ?_ ?_ ?_ ?_ ?_ ?_ ?_ ?_ ?_ ?_ ?_ ?_)
    | simp only [changes_mk]
    | with_reducible intro _
    | split
    | dsimp only [id])

theorem execSealComplete_changes {Q : List Block} {s0 : State} {q : ReqId} {l : Nat} {p : WithReads Nat} {s : State} {tt : State} (hq : subParts [.dev, .maint, .forme, .codec, .tier, .sched, .req, .pair, .near, .rma, .links, .free, .out] Q = true) (hk : OnlyChanges Q s0 s) (eq_ : execSealComplete q l p s = .next tt) : OnlyChanges Q s0 tt := by
  unfold execSealComplete at eq_
  repeat' (first | split at eq_ | dsimp only at eq_)
  all_goals (first | (injection eq_ with eq_; subst eq_) | (cases eq_))
  repeat' (first
    | with_reducible assumption
    | ((with_reducible refine .inr (subParts_mem hq ?_)); rfl)
    | with_reducible exact .inl rfl
    | with_reducible apply sealDone_changes (hq := subParts_trans rfl hq)
    | with_reducible refine changes_ite ?_ ?_
    | (with_reducible refine changesParts_of ?_ ?_ ?_ ?_ ?_ ?_ ?_ ?_ ?_ ?_ ?_ ?_ ?_ ?_ ?_ ?_ ?_ ?_ ?_ ?_)
    | simp only [changes_mk]
    | with_reducible intro _
    | split
    | dsimp only [id])

theorem execDropReport_changes {Q : List Block} {s0 : State} {r : DropReport} {s : State}  (hq : subParts [.dev, .sec, .host, .repro, .req, .out] Q = true) {tt : State} (hk : OnlyChanges Q s0 s) (eq_ : execDropReport r s = .next tt) : OnlyChanges Q s0 tt := by
  unfold execDropReport at eq_
  repeat' (first | split at eq_ | dsimp only at eq_)
  all_goals (first | (injection eq_ with eq_; subst eq_) | (cases eq_))
  repeat' (first
    | with_reducible assumption
    | ((with_reducible refine .inr (subParts_mem hq ?_)); rfl)
    | with_reducible exact .inl rfl
    | with_reducible apply dropReportAt_changes (hq := subParts_trans rfl hq)
    | with_reducible apply unlessFenced_changes (hq := subParts_trans rfl hq)
    | with_reducible refine changes_ite ?_ ?_
    | (with_reducible refine changesParts_of ?_ ?_ ?_ ?_ ?_ ?_ ?_ ?_ ?_ ?_ ?_ ?_ ?_ ?_ ?_ ?_ ?_ ?_ ?_ ?_)
    | simp only [changes_mk]
    | with_reducible intro _
    | split
    | dsimp only [id])

theorem handoverRetry_changes {Q : List Block} {s0 : State} {q : ReqId} {s : State} (hq : subParts [.req, .near, .links] Q = true) (hk : OnlyChanges Q s0 s) :
    OnlyChanges Q s0 (handoverRetry q s) := by
  unfold handoverRetry
  repeat' (first
    | with_reducible assumption
    | ((with_reducible refine .inr (subParts_mem hq ?_)); rfl)
    | with_reducible exact .inl rfl
    | with_reducible apply ownerSwap_changes (hq := subParts_trans rfl hq)
    | with_reducible refine changes_ite ?_ ?_
    | (with_reducible refine changesParts_of ?_ ?_ ?_ ?_ ?_ ?_ ?_ ?_ ?_ ?_ ?_ ?_ ?_ ?_ ?_ ?_ ?_ ?_ ?_ ?_)
    | simp only [changes_mk]
    | with_reducible intro _
    | split
    | dsimp only [id])

theorem execHandoverTimeout_changes {Q : List Block} {s0 : State} {q : ReqId} {s : State}  (hq : subParts [.req, .near, .links] Q = true) {tt : State} (hk : OnlyChanges Q s0 s) (eq_ : execHandoverTimeout q s = .next tt) : OnlyChanges Q s0 tt := by
  unfold execHandoverTimeout at eq_
  repeat' (first | split at eq_ | dsimp only at eq_)
  all_goals (first | (injection eq_ with eq_; subst eq_) | (cases eq_))
  repeat' (first
    | with_reducible assumption
    | ((with_reducible refine .inr (subParts_mem hq ?_)); rfl)
    | with_reducible exact .inl rfl
    | with_reducible apply handoverRetry_changes (hq := subParts_trans rfl hq)
    | with_reducible apply unlessFenced_changes (hq := subParts_trans rfl hq)
    | with_reducible refine changes_ite ?_ ?_
    | (with_reducible refine changesParts_of ?_ ?_ ?_ ?_ ?_ ?_ ?_ ?_ ?_ ?_ ?_ ?_ ?_ ?_ ?_ ?_ ?_ ?_ ?_ ?_)
    | simp only [changes_mk]
    | with_reducible intro _
    | split
    | dsimp only [id])

theorem execStepBoundary_changes {Q : List Block} {s0 : State} {es : List StepEnd} {s : State} {tt : State} (hq : subParts [.dev, .maint, .sec, .drbg, .host, .forme, .codec, .tier, .clusters, .sched, .repro, .req, .pair, .near, .rma, .links, .tb, .free, .out] Q = true) (hk : OnlyChanges Q s0 s) (eq_ : execStepBoundary es s = .next tt) : OnlyChanges Q s0 tt := by
  unfold execStepBoundary at eq_
  repeat' (first | split at eq_ | dsimp only at eq_)
  all_goals (first | (injection eq_ with eq_; subst eq_) | (cases eq_))
  repeat' (first
    | with_reducible assumption
    | ((with_reducible refine .inr (subParts_mem hq ?_)); rfl)
    | with_reducible exact .inl rfl
    | with_reducible apply stepBoundary_changes (hq := subParts_trans rfl hq)
    | with_reducible apply reserveStop_changes (hq := subParts_trans rfl hq)
    | with_reducible refine changes_ite ?_ ?_
    | (with_reducible refine changesParts_of ?_ ?_ ?_ ?_ ?_ ?_ ?_ ?_ ?_ ?_ ?_ ?_ ?_ ?_ ?_ ?_ ?_ ?_ ?_ ?_)
    | simp only [changes_mk]
    | with_reducible intro _
    | split
    | dsimp only [id])

theorem tokenAt_changes {Q : List Block} {s0 : State} {m : TokenMsg} {s : State}  (hq : subParts [.sec, .host, .req, .rma, .links, .out] Q = true) (hk : OnlyChanges Q s0 s) :
    OnlyChanges Q s0 (tokenAt m s) := by
  unfold tokenAt
  repeat' (first
    | with_reducible assumption
    | ((with_reducible refine .inr (subParts_mem hq ?_)); rfl)
    | with_reducible exact .inl rfl
    | with_reducible apply getD_changes
    | with_reducible apply anchorToken_changes (hq := subParts_trans rfl hq)
    | with_reducible apply recUpd_changes (hq := subParts_trans rfl hq)
    | with_reducible refine changes_ite ?_ ?_
    | (with_reducible refine changesParts_of ?_ ?_ ?_ ?_ ?_ ?_ ?_ ?_ ?_ ?_ ?_ ?_ ?_ ?_ ?_ ?_ ?_ ?_ ?_ ?_)
    | simp only [changes_mk]
    | with_reducible intro _
    | split
    | dsimp only [id])

theorem execToken_changes {Q : List Block} {s0 : State} {m : TokenMsg} {s : State}  (hq : subParts [.sec, .host, .req, .rma, .links, .out] Q = true) {tt : State} (hk : OnlyChanges Q s0 s) (eq_ : execToken m s = .next tt) : OnlyChanges Q s0 tt := by
  unfold execToken at eq_
  repeat' (first | split at eq_ | dsimp only at eq_)
  all_goals (first | (injection eq_ with eq_; subst eq_) | (cases eq_))
  repeat' (first
    | with_reducible assumption
    | ((with_reducible refine .inr (subParts_mem hq ?_)); rfl)
    | with_reducible exact .inl rfl
    | with_reducible apply unlessFenced_changes (hq := subParts_trans rfl hq)
    | with_reducible apply tokenAt_changes (hq := subParts_trans rfl hq)
    | with_reducible refine changes_ite ?_ ?_
    | (with_reducible refine changesParts_of ?_ ?_ ?_ ?_ ?_ ?_ ?_ ?_ ?_ ?_ ?_ ?_ ?_ ?_ ?_ ?_ ?_ ?_ ?_ ?_)
    | simp only [changes_mk]
    | with_reducible intro _
    | split
    | dsimp only [id])

theorem cancelStage_changes {Q : List Block} {s0 : State} {q : ReqId} {s : State} (hq : subParts [.codec, .tier, .req, .pair, .near, .rma, .links, .free, .out] Q = true) (hk : OnlyChanges Q s0 s) :
    OnlyChanges Q s0 (cancelStage q s) := by
  unfold cancelStage
  repeat' (first
    | with_reducible assumption
    | ((with_reducible refine .inr (subParts_mem hq ?_)); rfl)
    | with_reducible exact .inl rfl
    | with_reducible apply unknownReq_changes (hq := subParts_trans rfl hq)
    | with_reducible apply stageDrop_changes (hq := subParts_trans rfl hq)
    | with_reducible apply addCond_changes (hq := subParts_trans rfl hq)
    | with_reducible apply recUpd_changes (hq := subParts_trans rfl hq)
    | with_reducible refine changes_ite ?_ ?_
    | (with_reducible refine changesParts_of ?_ ?_ ?_ ?_ ?_ ?_ ?_ ?_ ?_ ?_ ?_ ?_ ?_ ?_ ?_ ?_ ?_ ?_ ?_ ?_)
    | simp only [changes_mk]
    | with_reducible intro _
    | split
    | dsimp only [id])

theorem execCancellation_changes {Q : List Block} {s0 : State} {q : ReqId} {s : State}  (hq : subParts [.codec, .tier, .req, .pair, .near, .rma, .links, .free, .out] Q = true) {tt : State} (hk : OnlyChanges Q s0 s) (eq_ : execCancellation q s = .next tt) : OnlyChanges Q s0 tt := by
  unfold execCancellation at eq_
  repeat' (first | split at eq_ | dsimp only at eq_)
  all_goals (first | (injection eq_ with eq_; subst eq_) | (cases eq_))
  repeat' (first
    | with_reducible assumption
    | ((with_reducible refine .inr (subParts_mem hq ?_)); rfl)
    | with_reducible exact .inl rfl
    | with_reducible apply unlessFenced_changes (hq := subParts_trans rfl hq)
    | with_reducible apply cancelStage_changes (hq := subParts_trans rfl hq)
    | with_reducible refine changes_ite ?_ ?_
    | (with_reducible refine changesParts_of ?_ ?_ ?_ ?_ ?_ ?_ ?_ ?_ ?_ ?_ ?_ ?_ ?_ ?_ ?_ ?_ ?_ ?_ ?_ ?_)
    | simp only [changes_mk]
    | with_reducible intro _
    | split
    | dsimp only [id])

theorem retirement_changes {Q : List Block} {s0 : State} {q : ReqId} {c : Status} {s : State} (hq : subParts [.codec, .tier, .req, .pair, .near, .rma, .links, .free, .out] Q = true) (hk : OnlyChanges Q s0 s) :
    OnlyChanges Q s0 (retirement q c s) := by
  unfold retirement
  repeat' (first
    | with_reducible assumption
    | ((with_reducible refine .inr (subParts_mem hq ?_)); rfl)
    | with_reducible exact .inl rfl
    | with_reducible apply unknownReq_changes (hq := subParts_trans rfl hq)
    | with_reducible apply endStage_changes (hq := subParts_trans rfl hq)
    | with_reducible apply anchorReprefill_changes (hq := subParts_trans rfl hq)
    | with_reducible apply anchorEnd_changes (hq := subParts_trans rfl hq)
    | with_reducible apply anchorUpd_changes (hq := subParts_trans rfl hq)
    | with_reducible refine changes_ite ?_ ?_
    | (with_reducible refine changesParts_of ?_ ?_ ?_ ?_ ?_ ?_ ?_ ?_ ?_ ?_ ?_ ?_ ?_ ?_ ?_ ?_ ?_ ?_ ?_ ?_)
    | simp only [changes_mk]
    | with_reducible intro _
    | split
    | dsimp only [id])

theorem execRetirement_changes {Q : List Block} {s0 : State} {q : ReqId} {c : Status} {s : State}  (hq : subParts [.codec, .tier, .req, .pair, .near, .rma, .links, .free, .out] Q = true) {tt : State} (hk : OnlyChanges Q s0 s) (eq_ : execRetirement q c s = .next tt) : OnlyChanges Q s0 tt := by
  unfold execRetirement at eq_
  repeat' (first | split at eq_ | dsimp only at eq_)
  all_goals (first | (injection eq_ with eq_; subst eq_) | (cases eq_))
  repeat' (first
    | with_reducible assumption
    | ((with_reducible refine .inr (subParts_mem hq ?_)); rfl)
    | with_reducible exact .inl rfl
    | with_reducible apply unlessFenced_changes (hq := subParts_trans rfl hq)
    | with_reducible apply retirement_changes (hq := subParts_trans rfl hq)
    | with_reducible refine changes_ite ?_ ?_
    | (with_reducible refine changesParts_of ?_ ?_ ?_ ?_ ?_ ?_ ?_ ?_ ?_ ?_ ?_ ?_ ?_ ?_ ?_ ?_ ?_ ?_ ?_ ?_)
    | simp only [changes_mk]
    | with_reducible intro _
    | split
    | dsimp only [id])

theorem reqCode_changes {Q : List Block} {s0 : State} {c : Status} {s : State}  (hq : subParts [.req] Q = true) (hk : OnlyChanges Q s0 s) :
    OnlyChanges Q s0 (reqCode c s) := by
  unfold reqCode
  repeat' (first
    | with_reducible assumption
    | ((with_reducible refine .inr (subParts_mem hq ?_)); rfl)
    | with_reducible exact .inl rfl
    | with_reducible refine changes_ite ?_ ?_
    | (with_reducible refine changesParts_of ?_ ?_ ?_ ?_ ?_ ?_ ?_ ?_ ?_ ?_ ?_ ?_ ?_ ?_ ?_ ?_ ?_ ?_ ?_ ?_)
    | simp only [changes_mk]
    | with_reducible intro _
    | split
    | dsimp only [id])

theorem reqCtl_changes {Q : List Block} {s0 : State} {w : CtlWrite} {own : Nat} {run : State → State} {s : State} (h_run : ∀ (u : State), OnlyChanges Q s0 u → OnlyChanges Q s0 (run u)) (hq : subParts [.req] Q = true) (hk : OnlyChanges Q s0 s) :
    OnlyChanges Q s0 (reqCtl w own run s) := by
  unfold reqCtl
  repeat' (first
    | with_reducible assumption
    | ((with_reducible refine .inr (subParts_mem hq ?_)); rfl)
    | with_reducible exact .inl rfl
    | with_reducible apply reqCode_changes (hq := subParts_trans rfl hq)
    | with_reducible apply ctl_changes (hq := subParts_trans rfl hq)
    | with_reducible apply h_run
    | with_reducible refine changes_ite ?_ ?_
    | (with_reducible refine changesParts_of ?_ ?_ ?_ ?_ ?_ ?_ ?_ ?_ ?_ ?_ ?_ ?_ ?_ ?_ ?_ ?_ ?_ ?_ ?_ ?_)
    | simp only [changes_mk]
    | with_reducible intro _
    | split
    | dsimp only [id])

theorem reqOnSel_changes {Q : List Block} {s0 : State} {act : ReqId → State → State} {s : State} (h_act : ∀ (y0 : ReqId) (u : State), OnlyChanges Q s0 u → OnlyChanges Q s0 (act y0 u)) (hq : subParts [.req] Q = true) (hk : OnlyChanges Q s0 s) :
    OnlyChanges Q s0 (reqOnSel act s) := by
  unfold reqOnSel
  repeat' (first
    | with_reducible assumption
    | ((with_reducible refine .inr (subParts_mem hq ?_)); rfl)
    | with_reducible exact .inl rfl
    | with_reducible apply reqCode_changes (hq := subParts_trans rfl hq)
    | with_reducible apply h_act
    | with_reducible refine changes_ite ?_ ?_
    | (with_reducible refine changesParts_of ?_ ?_ ?_ ?_ ?_ ?_ ?_ ?_ ?_ ?_ ?_ ?_ ?_ ?_ ?_ ?_ ?_ ?_ ?_ ?_)
    | simp only [changes_mk]
    | with_reducible intro _
    | split
    | dsimp only [id])

theorem execCancel_changes {Q : List Block} {s0 : State} {w : CtlWrite} {s : State}  (hq : subParts [.req, .rma, .links, .out] Q = true) {tt : State} (hk : OnlyChanges Q s0 s) (eq_ : execCancel w s = .next tt) : OnlyChanges Q s0 tt := by
  unfold execCancel at eq_
  repeat' (first | split at eq_ | dsimp only at eq_)
  all_goals (first | (injection eq_ with eq_; subst eq_) | (cases eq_))
  repeat' (first
    | with_reducible assumption
    | ((with_reducible refine .inr (subParts_mem hq ?_)); rfl)
    | with_reducible exact .inl rfl
    | with_reducible apply anchorCancel_changes (hq := subParts_trans rfl hq)
    | with_reducible apply reqOnSel_changes (hq := subParts_trans rfl hq)
    | with_reducible apply reqCtl_changes (hq := subParts_trans rfl hq)
    | with_reducible refine changes_ite ?_ ?_
    | (with_reducible refine changesParts_of ?_ ?_ ?_ ?_ ?_ ?_ ?_ ?_ ?_ ?_ ?_ ?_ ?_ ?_ ?_ ?_ ?_ ?_ ?_ ?_)
    | simp only [changes_mk]
    | with_reducible intro _
    | split
    | dsimp only [id])

theorem execPause_changes {Q : List Block} {s0 : State} {w : CtlWrite} {s : State}  (hq : subParts [.req, .rma, .links, .out] Q = true) {tt : State} (hk : OnlyChanges Q s0 s) (eq_ : execPause w s = .next tt) : OnlyChanges Q s0 tt := by
  unfold execPause at eq_
  repeat' (first | split at eq_ | dsimp only at eq_)
  all_goals (first | (injection eq_ with eq_; subst eq_) | (cases eq_))
  repeat' (first
    | with_reducible assumption
    | ((with_reducible refine .inr (subParts_mem hq ?_)); rfl)
    | with_reducible exact .inl rfl
    | with_reducible apply anchorPause_changes (hq := subParts_trans rfl hq)
    | with_reducible apply reqOnSel_changes (hq := subParts_trans rfl hq)
    | with_reducible apply reqCtl_changes (hq := subParts_trans rfl hq)
    | with_reducible refine changes_ite ?_ ?_
    | (with_reducible refine changesParts_of ?_ ?_ ?_ ?_ ?_ ?_ ?_ ?_ ?_ ?_ ?_ ?_ ?_ ?_ ?_ ?_ ?_ ?_ ?_ ?_)
    | simp only [changes_mk]
    | with_reducible intro _
    | split
    | dsimp only [id])

theorem execReqClr_changes {Q : List Block} {s0 : State} {w : CtlWrite} {s : State}  (hq : subParts [.req] Q = true) {tt : State} (hk : OnlyChanges Q s0 s) (eq_ : execReqClr w s = .next tt) : OnlyChanges Q s0 tt := by
  unfold execReqClr at eq_
  repeat' (first | split at eq_ | dsimp only at eq_)
  all_goals (first | (injection eq_ with eq_; subst eq_) | (cases eq_))
  repeat' (first
    | with_reducible assumption
    | ((with_reducible refine .inr (subParts_mem hq ?_)); rfl)
    | with_reducible exact .inl rfl
    | with_reducible apply reqCode_changes (hq := subParts_trans rfl hq)
    | with_reducible apply reqCtl_changes (hq := subParts_trans rfl hq)
    | with_reducible refine changes_ite ?_ ?_
    | (with_reducible refine changesParts_of ?_ ?_ ?_ ?_ ?_ ?_ ?_ ?_ ?_ ?_ ?_ ?_ ?_ ?_ ?_ ?_ ?_ ?_ ?_ ?_)
    | simp only [changes_mk]
    | with_reducible intro _
    | split
    | dsimp only [id])

theorem execMoverClr_changes {Q : List Block} {s0 : State} {w : CtlWrite} {s : State}  (hq : subParts [.req] Q = true) {tt : State} (hk : OnlyChanges Q s0 s) (eq_ : execMoverClr w s = .next tt) : OnlyChanges Q s0 tt := by
  unfold execMoverClr at eq_
  repeat' (first | split at eq_ | dsimp only at eq_)
  all_goals (first | (injection eq_ with eq_; subst eq_) | (cases eq_))
  repeat' (first
    | with_reducible assumption
    | ((with_reducible refine .inr (subParts_mem hq ?_)); rfl)
    | with_reducible exact .inl rfl
    | with_reducible apply ctl_changes (hq := subParts_trans rfl hq)
    | with_reducible refine changes_ite ?_ ?_
    | (with_reducible refine changesParts_of ?_ ?_ ?_ ?_ ?_ ?_ ?_ ?_ ?_ ?_ ?_ ?_ ?_ ?_ ?_ ?_ ?_ ?_ ?_ ?_)
    | simp only [changes_mk]
    | with_reducible intro _
    | split
    | dsimp only [id])

theorem holdExpiry_changes {Q : List Block} {s0 : State} {q : ReqId} {s : State}  (hq : subParts [.tier, .req] Q = true) (hk : OnlyChanges Q s0 s) :
    OnlyChanges Q s0 (holdExpiry q s) := by
  unfold holdExpiry
  repeat' (first
    | with_reducible assumption
    | ((with_reducible refine .inr (subParts_mem hq ?_)); rfl)
    | with_reducible exact .inl rfl
    | with_reducible apply shelveStart_changes (hq := subParts_trans rfl hq)
    | with_reducible refine changes_ite ?_ ?_
    | (with_reducible refine changesParts_of ?_ ?_ ?_ ?_ ?_ ?_ ?_ ?_ ?_ ?_ ?_ ?_ ?_ ?_ ?_ ?_ ?_ ?_ ?_ ?_)
    | simp only [changes_mk]
    | with_reducible intro _
    | split
    | dsimp only [id])

theorem execPauseHoldExpiry_changes {Q : List Block} {s0 : State} {q : ReqId} {s : State}  (hq : subParts [.tier, .req] Q = true) {tt : State} (hk : OnlyChanges Q s0 s) (eq_ : execPauseHoldExpiry q s = .next tt) : OnlyChanges Q s0 tt := by
  unfold execPauseHoldExpiry at eq_
  repeat' (first | split at eq_ | dsimp only at eq_)
  all_goals (first | (injection eq_ with eq_; subst eq_) | (cases eq_))
  repeat' (first
    | with_reducible assumption
    | ((with_reducible refine .inr (subParts_mem hq ?_)); rfl)
    | with_reducible exact .inl rfl
    | with_reducible apply unlessFenced_changes (hq := subParts_trans rfl hq)
    | with_reducible apply holdExpiry_changes (hq := subParts_trans rfl hq)
    | with_reducible refine changes_ite ?_ ?_
    | (with_reducible refine changesParts_of ?_ ?_ ?_ ?_ ?_ ?_ ?_ ?_ ?_ ?_ ?_ ?_ ?_ ?_ ?_ ?_ ?_ ?_ ?_ ?_)
    | simp only [changes_mk]
    | with_reducible intro _
    | split
    | dsimp only [id])

theorem execShelveComplete_changes {Q : List Block} {s0 : State} {q : WithReads ReqId} {s : State} {tt : State} (hq : subParts [.dev, .maint, .forme, .codec, .tier, .sched, .req, .pair, .near, .rma, .links, .free, .out] Q = true) (hk : OnlyChanges Q s0 s) (eq_ : execShelveComplete q s = .next tt) : OnlyChanges Q s0 tt := by
  unfold execShelveComplete at eq_
  repeat' (first | split at eq_ | dsimp only at eq_)
  all_goals (first | (injection eq_ with eq_; subst eq_) | (cases eq_))
  repeat' (first
    | with_reducible assumption
    | ((with_reducible refine .inr (subParts_mem hq ?_)); rfl)
    | with_reducible exact .inl rfl
    | with_reducible apply afterShelf_changes (hq := subParts_trans rfl hq)
    | with_reducible apply shelveDone_changes (hq := subParts_trans rfl hq)
    | with_reducible refine changes_ite ?_ ?_
    | (with_reducible refine changesParts_of ?_ ?_ ?_ ?_ ?_ ?_ ?_ ?_ ?_ ?_ ?_ ?_ ?_ ?_ ?_ ?_ ?_ ?_ ?_ ?_)
    | simp only [changes_mk]
    | with_reducible intro _
    | split
    | dsimp only [id])

theorem execResumeStage_changes {Q : List Block} {s0 : State} {m : StageResume} {s : State}  (hq : subParts [.codec, .tier, .req, .pair, .near, .rma, .links, .free, .out] Q = true) {tt : State} (hk : OnlyChanges Q s0 s) (eq_ : execResumeStage m s = .next tt) : OnlyChanges Q s0 tt := by
  unfold execResumeStage at eq_
  repeat' (first | split at eq_ | dsimp only at eq_)
  all_goals (first | (injection eq_ with eq_; subst eq_) | (cases eq_))
  repeat' (first
    | with_reducible assumption
    | ((with_reducible refine .inr (subParts_mem hq ?_)); rfl)
    | with_reducible exact .inl rfl
    | with_reducible apply resumeStage_changes (hq := subParts_trans rfl hq)
    | with_reducible refine changes_ite ?_ ?_
    | (with_reducible refine changesParts_of ?_ ?_ ?_ ?_ ?_ ?_ ?_ ?_ ?_ ?_ ?_ ?_ ?_ ?_ ?_ ?_ ?_ ?_ ?_ ?_)
    | simp only [changes_mk]
    | with_reducible intro _
    | split
    | dsimp only [id])

theorem recallEnd_changes {Q : List Block} {s0 : State} {q : ReqId} {tagsOk : Bool} {s : State}  (hq : subParts [.codec, .tier, .sched, .req, .pair, .near, .rma, .links, .free, .out] Q = true) (hk : OnlyChanges Q s0 s) :
    OnlyChanges Q s0 (recallEnd q tagsOk s) := by
  unfold recallEnd
  repeat' (first
    | with_reducible assumption
    | ((with_reducible refine .inr (subParts_mem hq ?_)); rfl)
    | with_reducible exact .inl rfl
    | with_reducible apply recallDone_changes (hq := subParts_trans rfl hq)
    | with_reducible apply memberDrop_changes (hq := subParts_trans rfl hq)
    | with_reducible apply afterShelf_changes (hq := subParts_trans rfl hq)
    | with_reducible apply galleyUpd_changes (hq := subParts_trans rfl hq)
    | with_reducible apply reportEnd_changes (hq := subParts_trans rfl hq)
    | with_reducible refine changes_ite ?_ ?_
    | (with_reducible refine changesParts_of ?_ ?_ ?_ ?_ ?_ ?_ ?_ ?_ ?_ ?_ ?_ ?_ ?_ ?_ ?_ ?_ ?_ ?_ ?_ ?_)
    | simp only [changes_mk]
    | with_reducible intro _
    | split
    | dsimp only [id])

theorem execRecallComplete_changes {Q : List Block} {s0 : State} {q : ReqId} {tagsOk : Bool} {s : State}  (hq : subParts [.codec, .tier, .sched, .req, .pair, .near, .rma, .links, .free, .out] Q = true) {tt : State} (hk : OnlyChanges Q s0 s) (eq_ : execRecallComplete q tagsOk s = .next tt) : OnlyChanges Q s0 tt := by
  unfold execRecallComplete at eq_
  repeat' (first | split at eq_ | dsimp only at eq_)
  all_goals (first | (injection eq_ with eq_; subst eq_) | (cases eq_))
  repeat' (first
    | with_reducible assumption
    | ((with_reducible refine .inr (subParts_mem hq ?_)); rfl)
    | with_reducible exact .inl rfl
    | with_reducible apply recallEnd_changes (hq := subParts_trans rfl hq)
    | with_reducible refine changes_ite ?_ ?_
    | (with_reducible refine changesParts_of ?_ ?_ ?_ ?_ ?_ ?_ ?_ ?_ ?_ ?_ ?_ ?_ ?_ ?_ ?_ ?_ ?_ ?_ ?_ ?_)
    | simp only [changes_mk]
    | with_reducible intro _
    | split
    | dsimp only [id])

theorem copyoutStart_changes {Q : List Block} {s0 : State} {q : ReqId} {dest : DevId} {reads : ReadOutcome} {s : State} (hq : subParts [.dev, .maint, .forme, .codec, .tier, .sched, .req, .pair, .rma, .links, .out] Q = true) (hk : OnlyChanges Q s0 s) :
    OnlyChanges Q s0 (copyoutStart q dest reads s) := by
  unfold copyoutStart
  repeat' (first
    | with_reducible assumption
    | ((with_reducible refine .inr (subParts_mem hq ?_)); rfl)
    | with_reducible exact .inl rfl
    | with_reducible apply foldl_changes
    | with_reducible apply foldl_changes_fst
    | with_reducible apply foldl_changes_snd
    | with_reducible apply meterT1_changes (hq := subParts_trans rfl hq)
    | with_reducible apply moverRead_changes (hq := subParts_trans rfl hq)
    | with_reducible apply sendFw_changes (hq := subParts_trans rfl hq)
    | (with_reducible apply moverRead_changes_of (hq := subParts_trans rfl hq) (eq_ := by assumption))
    | with_reducible refine changes_ite ?_ ?_
    | (with_reducible refine changesParts_of ?_ ?_ ?_ ?_ ?_ ?_ ?_ ?_ ?_ ?_ ?_ ?_ ?_ ?_ ?_ ?_ ?_ ?_ ?_ ?_)
    | simp only [changes_mk]
    | with_reducible intro _
    | split
    | dsimp only [id])

theorem execCopyout_changes {Q : List Block} {s0 : State} {q : ReqId} {dest : WithReads DevId} {s : State} {tt : State} (hq : subParts [.dev, .maint, .forme, .codec, .tier, .sched, .req, .pair, .rma, .links, .out] Q = true) (hk : OnlyChanges Q s0 s) (eq_ : execCopyout q dest s = .next tt) : OnlyChanges Q s0 tt := by
  unfold execCopyout at eq_
  repeat' (first | split at eq_ | dsimp only at eq_)
  all_goals (first | (injection eq_ with eq_; subst eq_) | (cases eq_))
  repeat' (first
    | with_reducible assumption
    | ((with_reducible refine .inr (subParts_mem hq ?_)); rfl)
    | with_reducible exact .inl rfl
    | with_reducible apply copyoutStart_changes (hq := subParts_trans rfl hq)
    | with_reducible apply unlessFenced_changes (hq := subParts_trans rfl hq)
    | with_reducible refine changes_ite ?_ ?_
    | (with_reducible refine changesParts_of ?_ ?_ ?_ ?_ ?_ ?_ ?_ ?_ ?_ ?_ ?_ ?_ ?_ ?_ ?_ ?_ ?_ ?_ ?_ ?_)
    | simp only [changes_mk]
    | with_reducible intro _
    | split
    | dsimp only [id])

theorem copyoutEnd_changes {Q : List Block} {s0 : State} {q : ReqId} {c : Status} {s : State} (hq : subParts [.codec, .tier, .req, .pair, .near, .rma, .links, .free, .out] Q = true) (hk : OnlyChanges Q s0 s) :
    OnlyChanges Q s0 (copyoutEnd q c s) := by
  unfold copyoutEnd
  repeat' (first
    | with_reducible assumption
    | ((with_reducible refine .inr (subParts_mem hq ?_)); rfl)
    | with_reducible exact .inl rfl
    | with_reducible apply recFree_changes (hq := subParts_trans rfl hq)
    | with_reducible apply mirrorSend_changes (hq := subParts_trans rfl hq)
    | with_reducible apply freeGalley_changes (hq := subParts_trans rfl hq)
    | with_reducible refine changes_ite ?_ ?_
    | (with_reducible refine changesParts_of ?_ ?_ ?_ ?_ ?_ ?_ ?_ ?_ ?_ ?_ ?_ ?_ ?_ ?_ ?_ ?_ ?_ ?_ ?_ ?_)
    | simp only [changes_mk]
    | with_reducible intro _
    | split
    | dsimp only [id])

theorem execCopyoutComplete_changes {Q : List Block} {s0 : State} {q : ReqId} {c : Status} {s : State}  (hq : subParts [.codec, .tier, .req, .pair, .near, .rma, .links, .free, .out] Q = true) {tt : State} (hk : OnlyChanges Q s0 s) (eq_ : execCopyoutComplete q c s = .next tt) : OnlyChanges Q s0 tt := by
  unfold execCopyoutComplete at eq_
  repeat' (first | split at eq_ | dsimp only at eq_)
  all_goals (first | (injection eq_ with eq_; subst eq_) | (cases eq_))
  repeat' (first
    | with_reducible assumption
    | ((with_reducible refine .inr (subParts_mem hq ?_)); rfl)
    | with_reducible exact .inl rfl
    | with_reducible apply unlessFenced_changes (hq := subParts_trans rfl hq)
    | with_reducible apply copyoutEnd_changes (hq := subParts_trans rfl hq)
    | with_reducible refine changes_ite ?_ ?_
    | (with_reducible refine changesParts_of ?_ ?_ ?_ ?_ ?_ ?_ ?_ ?_ ?_ ?_ ?_ ?_ ?_ ?_ ?_ ?_ ?_ ?_ ?_ ?_)
    | simp only [changes_mk]
    | with_reducible intro _
    | split
    | dsimp only [id])

end Sys2Proof.Machine
end

