-- ==== Sys2Proof/Laws/ChangesTierCtl.lean ====
section
/-!
SUPPORT. The blocks of the state that the operations of Sys2Proof/Machine/TierCtl.lean may change.
-/

namespace Sys2Proof.Machine

theorem tierCode_changes {Q : List Block} {s0 : State} {c : Status} {s : State}  (hq : subParts [.tier] Q = true) (hk : OnlyChanges Q s0 s) :
    OnlyChanges Q s0 (tierCode c s) := by
  unfold tierCode
  repeat' (first
    | with_reducible assumption
    | ((with_reducible refine .inr (subParts_mem hq ?_)); rfl)
    | with_reducible exact .inl rfl
    | with_reducible refine changes_ite ?_ ?_
    | (with_reducible refine changesParts_of ?_ ?_ ?_ ?_ ?_ ?_ ?_ ?_ ?_ ?_ ?_ ?_ ?_ ?_ ?_ ?_ ?_ ?_ ?_ ?_)
    | simp only [changes_mk]
    | with_reducible intro _
    | split
    | dsimp only [id])

theorem tierCtl_changes {Q : List Block} {s0 : State} {w : CtlWrite} {own : Nat} {run : State → State} {s : State} (h_run : ∀ (u : State), OnlyChanges Q s0 u → OnlyChanges Q s0 (run u)) (hq : subParts [.tier] Q = true) (hk : OnlyChanges Q s0 s) :
    OnlyChanges Q s0 (tierCtl w own run s) := by
  unfold tierCtl
  repeat' (first
    | with_reducible assumption
    | ((with_reducible refine .inr (subParts_mem hq ?_)); rfl)
    | with_reducible exact .inl rfl
    | with_reducible apply tierCode_changes (hq := subParts_trans rfl hq)
    | with_reducible apply ctl_changes (hq := subParts_trans rfl hq)
    | with_reducible apply h_run
    | with_reducible refine changes_ite ?_ ?_
    | (with_reducible refine changesParts_of ?_ ?_ ?_ ?_ ?_ ?_ ?_ ?_ ?_ ?_ ?_ ?_ ?_ ?_ ?_ ?_ ?_ ?_ ?_ ?_)
    | simp only [changes_mk]
    | with_reducible intro _
    | split
    | dsimp only [id])

theorem quotaWrite_changes {Q : List Block} {s0 : State} {s : State}  (hq : subParts [.tier] Q = true) (hk : OnlyChanges Q s0 s) :
    OnlyChanges Q s0 (quotaWrite s) := by
  unfold quotaWrite
  repeat' (first
    | with_reducible assumption
    | ((with_reducible refine .inr (subParts_mem hq ?_)); rfl)
    | with_reducible exact .inl rfl
    | with_reducible apply tierCode_changes (hq := subParts_trans rfl hq)
    | with_reducible refine changes_ite ?_ ?_
    | (with_reducible refine changesParts_of ?_ ?_ ?_ ?_ ?_ ?_ ?_ ?_ ?_ ?_ ?_ ?_ ?_ ?_ ?_ ?_ ?_ ?_ ?_ ?_)
    | simp only [changes_mk]
    | with_reducible intro _
    | split
    | dsimp only [id])

theorem execQuotaWrite_changes {Q : List Block} {s0 : State} {w : CtlWrite} {s : State}  (hq : subParts [.tier] Q = true) {tt : State} (hk : OnlyChanges Q s0 s) (eq_ : execQuotaWrite w s = .next tt) : OnlyChanges Q s0 tt := by
  unfold execQuotaWrite at eq_
  repeat' (first | split at eq_ | dsimp only at eq_)
  all_goals (first | (injection eq_ with eq_; subst eq_) | (cases eq_))
  repeat' (first
    | with_reducible assumption
    | ((with_reducible refine .inr (subParts_mem hq ?_)); rfl)
    | with_reducible exact .inl rfl
    | with_reducible apply quotaWrite_changes (hq := subParts_trans rfl hq)
    | with_reducible apply tierCtl_changes (hq := subParts_trans rfl hq)
    | with_reducible refine changes_ite ?_ ?_
    | (with_reducible refine changesParts_of ?_ ?_ ?_ ?_ ?_ ?_ ?_ ?_ ?_ ?_ ?_ ?_ ?_ ?_ ?_ ?_ ?_ ?_ ?_ ?_)
    | simp only [changes_mk]
    | with_reducible intro _
    | split
    | dsimp only [id])

theorem quotaRead_changes {Q : List Block} {s0 : State} {s : State}  (hq : subParts [.tier] Q = true) (hk : OnlyChanges Q s0 s) :
    OnlyChanges Q s0 (quotaRead s) := by
  unfold quotaRead
  repeat' (first
    | with_reducible assumption
    | ((with_reducible refine .inr (subParts_mem hq ?_)); rfl)
    | with_reducible exact .inl rfl
    | with_reducible apply tierCode_changes (hq := subParts_trans rfl hq)
    | with_reducible refine changes_ite ?_ ?_
    | (with_reducible refine changesParts_of ?_ ?_ ?_ ?_ ?_ ?_ ?_ ?_ ?_ ?_ ?_ ?_ ?_ ?_ ?_ ?_ ?_ ?_ ?_ ?_)
    | simp only [changes_mk]
    | with_reducible intro _
    | split
    | dsimp only [id])

theorem execQuotaRead_changes {Q : List Block} {s0 : State} {w : CtlWrite} {s : State}  (hq : subParts [.tier] Q = true) {tt : State} (hk : OnlyChanges Q s0 s) (eq_ : execQuotaRead w s = .next tt) : OnlyChanges Q s0 tt := by
  unfold execQuotaRead at eq_
  repeat' (first | split at eq_ | dsimp only at eq_)
  all_goals (first | (injection eq_ with eq_; subst eq_) | (cases eq_))
  repeat' (first
    | with_reducible assumption
    | ((with_reducible refine .inr (subParts_mem hq ?_)); rfl)
    | with_reducible exact .inl rfl
    | with_reducible apply quotaRead_changes (hq := subParts_trans rfl hq)
    | with_reducible apply tierCtl_changes (hq := subParts_trans rfl hq)
    | with_reducible refine changes_ite ?_ ?_
    | (with_reducible refine changesParts_of ?_ ?_ ?_ ?_ ?_ ?_ ?_ ?_ ?_ ?_ ?_ ?_ ?_ ?_ ?_ ?_ ?_ ?_ ?_ ?_)
    | simp only [changes_mk]
    | with_reducible intro _
    | split
    | dsimp only [id])

theorem t3Bind_changes {Q : List Block} {s0 : State} {s : State}  (hq : subParts [.tier] Q = true) (hk : OnlyChanges Q s0 s) :
    OnlyChanges Q s0 (t3Bind s) := by
  unfold t3Bind
  repeat' (first
    | with_reducible assumption
    | ((with_reducible refine .inr (subParts_mem hq ?_)); rfl)
    | with_reducible exact .inl rfl
    | with_reducible apply tierCode_changes (hq := subParts_trans rfl hq)
    | with_reducible refine changes_ite ?_ ?_
    | (with_reducible refine changesParts_of ?_ ?_ ?_ ?_ ?_ ?_ ?_ ?_ ?_ ?_ ?_ ?_ ?_ ?_ ?_ ?_ ?_ ?_ ?_ ?_)
    | simp only [changes_mk]
    | with_reducible intro _
    | split
    | dsimp only [id])

theorem execT3Bind_changes {Q : List Block} {s0 : State} {w : CtlWrite} {s : State}  (hq : subParts [.tier] Q = true) {tt : State} (hk : OnlyChanges Q s0 s) (eq_ : execT3Bind w s = .next tt) : OnlyChanges Q s0 tt := by
  unfold execT3Bind at eq_
  repeat' (first | split at eq_ | dsimp only at eq_)
  all_goals (first | (injection eq_ with eq_; subst eq_) | (cases eq_))
  repeat' (first
    | with_reducible assumption
    | ((with_reducible refine .inr (subParts_mem hq ?_)); rfl)
    | with_reducible exact .inl rfl
    | with_reducible apply tierCtl_changes (hq := subParts_trans rfl hq)
    | with_reducible apply t3Bind_changes (hq := subParts_trans rfl hq)
    | with_reducible refine changes_ite ?_ ?_
    | (with_reducible refine changesParts_of ?_ ?_ ?_ ?_ ?_ ?_ ?_ ?_ ?_ ?_ ?_ ?_ ?_ ?_ ?_ ?_ ?_ ?_ ?_ ?_)
    | simp only [changes_mk]
    | with_reducible intro _
    | split
    | dsimp only [id])

theorem tierClear_changes {Q : List Block} {s0 : State} {s : State}  (hq : subParts [.tier] Q = true) (hk : OnlyChanges Q s0 s) :
    OnlyChanges Q s0 (tierClear s) := by
  unfold tierClear
  repeat' (first
    | with_reducible assumption
    | ((with_reducible refine .inr (subParts_mem hq ?_)); rfl)
    | with_reducible exact .inl rfl
    | with_reducible apply tierCode_changes (hq := subParts_trans rfl hq)
    | with_reducible refine changes_ite ?_ ?_
    | (with_reducible refine changesParts_of ?_ ?_ ?_ ?_ ?_ ?_ ?_ ?_ ?_ ?_ ?_ ?_ ?_ ?_ ?_ ?_ ?_ ?_ ?_ ?_)
    | simp only [changes_mk]
    | with_reducible intro _
    | split
    | dsimp only [id])

theorem execTierClr_changes {Q : List Block} {s0 : State} {w : CtlWrite} {s : State}  (hq : subParts [.tier] Q = true) {tt : State} (hk : OnlyChanges Q s0 s) (eq_ : execTierClr w s = .next tt) : OnlyChanges Q s0 tt := by
  unfold execTierClr at eq_
  repeat' (first | split at eq_ | dsimp only at eq_)
  all_goals (first | (injection eq_ with eq_; subst eq_) | (cases eq_))
  repeat' (first
    | with_reducible assumption
    | ((with_reducible refine .inr (subParts_mem hq ?_)); rfl)
    | with_reducible exact .inl rfl
    | with_reducible apply tierClear_changes (hq := subParts_trans rfl hq)
    | with_reducible apply tierCtl_changes (hq := subParts_trans rfl hq)
    | with_reducible refine changes_ite ?_ ?_
    | (with_reducible refine changesParts_of ?_ ?_ ?_ ?_ ?_ ?_ ?_ ?_ ?_ ?_ ?_ ?_ ?_ ?_ ?_ ?_ ?_ ?_ ?_ ?_)
    | simp only [changes_mk]
    | with_reducible intro _
    | split
    | dsimp only [id])

theorem scrubFails_changes {Q : List Block} {s0 : State} {mac : Bool} {g : Nat} {s : State} (hq : subParts [.dev, .tier] Q = true) (hk : OnlyChanges Q s0 s) :
    OnlyChanges Q s0 (scrubFails mac g s) := by
  unfold scrubFails
  repeat' (first
    | with_reducible assumption
    | ((with_reducible refine .inr (subParts_mem hq ?_)); rfl)
    | with_reducible exact .inl rfl
    | with_reducible apply granuleFail_changes (hq := subParts_trans rfl hq)
    | with_reducible refine changes_ite ?_ ?_
    | (with_reducible refine changesParts_of ?_ ?_ ?_ ?_ ?_ ?_ ?_ ?_ ?_ ?_ ?_ ?_ ?_ ?_ ?_ ?_ ?_ ?_ ?_ ?_)
    | simp only [changes_mk]
    | with_reducible intro _
    | split
    | dsimp only [id])

theorem scrub_changes {Q : List Block} {s0 : State} {o : ReadOutcome} {s : State}  (hq : subParts [.dev, .tier] Q = true) (hk : OnlyChanges Q s0 s) :
    OnlyChanges Q s0 (scrub o s) := by
  unfold scrub
  repeat' (first
    | with_reducible assumption
    | ((with_reducible refine .inr (subParts_mem hq ?_)); rfl)
    | with_reducible exact .inl rfl
    | with_reducible apply countGranules_changes (hq := subParts_trans rfl hq)
    | with_reducible apply scrubFails_changes (hq := subParts_trans rfl hq)
    | with_reducible apply lpcUpd_changes (hq := subParts_trans rfl hq)
    | with_reducible refine changes_ite ?_ ?_
    | (with_reducible refine changesParts_of ?_ ?_ ?_ ?_ ?_ ?_ ?_ ?_ ?_ ?_ ?_ ?_ ?_ ?_ ?_ ?_ ?_ ?_ ?_ ?_)
    | simp only [changes_mk]
    | with_reducible intro _
    | split
    | dsimp only [id])

theorem execT1Scrub_changes {Q : List Block} {s0 : State} {o : ReadOutcome} {s : State} {tt : State} (hq : subParts [.dev, .maint, .sec, .drbg, .host, .forme, .codec, .tier, .clusters, .sched, .repro, .req, .pair, .near, .rma, .links, .tb, .free, .out] Q = true) (hk : OnlyChanges Q s0 s) (eq_ : execT1Scrub o s = .next tt) : OnlyChanges Q s0 tt := by
  unfold execT1Scrub at eq_
  repeat' (first | split at eq_ | dsimp only at eq_)
  all_goals (first | (injection eq_ with eq_; subst eq_) | (cases eq_))
  repeat' (first
    | with_reducible assumption
    | ((with_reducible refine .inr (subParts_mem hq ?_)); rfl)
    | with_reducible exact .inl rfl
    | with_reducible apply scrub_changes (hq := subParts_trans rfl hq)
    | with_reducible apply reserveStop_changes (hq := subParts_trans rfl hq)
    | with_reducible refine changes_ite ?_ ?_
    | (with_reducible refine changesParts_of ?_ ?_ ?_ ?_ ?_ ?_ ?_ ?_ ?_ ?_ ?_ ?_ ?_ ?_ ?_ ?_ ?_ ?_ ?_ ?_)
    | simp only [changes_mk]
    | with_reducible intro _
    | split
    | dsimp only [id])

theorem execRefresh_changes {Q : List Block} {s0 : State} {ch : Fin 48} {intervalNs : Word} {s : State}  (hq : subParts [.tier, .free] Q = true) {tt : State} (hk : OnlyChanges Q s0 s) (eq_ : execRefresh ch intervalNs s = .next tt) : OnlyChanges Q s0 tt := by
  unfold execRefresh at eq_
  repeat' (first | split at eq_ | dsimp only at eq_)
  all_goals (first | (injection eq_ with eq_; subst eq_) | (cases eq_))
  repeat' (first
    | with_reducible assumption
    | ((with_reducible refine .inr (subParts_mem hq ?_)); rfl)
    | with_reducible exact .inl rfl
    | with_reducible apply bumpFree_changes (hq := subParts_trans rfl hq)
    | with_reducible apply lpcUpd_changes (hq := subParts_trans rfl hq)
    | with_reducible refine changes_ite ?_ ?_
    | (with_reducible refine changesParts_of ?_ ?_ ?_ ?_ ?_ ?_ ?_ ?_ ?_ ?_ ?_ ?_ ?_ ?_ ?_ ?_ ?_ ?_ ?_ ?_)
    | simp only [changes_mk]
    | with_reducible intro _
    | split
    | dsimp only [id])

theorem execRefreshManagement_changes {Q : List Block} {s0 : State} {ch : Fin 48} {s : State}  (hq : subParts [.tier] Q = true) {tt : State} (hk : OnlyChanges Q s0 s) (eq_ : execRefreshManagement ch s = .next tt) : OnlyChanges Q s0 tt := by
  unfold execRefreshManagement at eq_
  repeat' (first | split at eq_ | dsimp only at eq_)
  all_goals (first | (injection eq_ with eq_; subst eq_) | (cases eq_))
  repeat' (first
    | with_reducible assumption
    | ((with_reducible refine .inr (subParts_mem hq ?_)); rfl)
    | with_reducible exact .inl rfl
    | with_reducible apply lpcUpd_changes (hq := subParts_trans rfl hq)
    | with_reducible refine changes_ite ?_ ?_
    | (with_reducible refine changesParts_of ?_ ?_ ?_ ?_ ?_ ?_ ?_ ?_ ?_ ?_ ?_ ?_ ?_ ?_ ?_ ?_ ?_ ?_ ?_ ?_)
    | simp only [changes_mk]
    | with_reducible intro _
    | split
    | dsimp only [id])

theorem channelLost_changes {Q : List Block} {s0 : State} {c : Nat} {s : State}  (hq : subParts [.dev, .maint, .sec, .drbg, .host, .forme, .codec, .tier, .clusters, .sched, .repro, .req, .pair, .near, .rma, .links, .tb, .free, .out] Q = true) (hk : OnlyChanges Q s0 s) :
    OnlyChanges Q s0 (channelLost c s) := by
  unfold channelLost
  repeat' (first
    | with_reducible assumption
    | ((with_reducible refine .inr (subParts_mem hq ?_)); rfl)
    | with_reducible exact .inl rfl
    | with_reducible apply channelFailed_changes (hq := subParts_trans rfl hq)
    | with_reducible apply selftestStops_changes (hq := subParts_trans rfl hq)
    | with_reducible apply addRepair_changes (hq := subParts_trans rfl hq)
    | with_reducible apply fatalStop_changes (hq := subParts_trans rfl hq)
    | with_reducible refine changes_ite ?_ ?_
    | (with_reducible refine changesParts_of ?_ ?_ ?_ ?_ ?_ ?_ ?_ ?_ ?_ ?_ ?_ ?_ ?_ ?_ ?_ ?_ ?_ ?_ ?_ ?_)
    | simp only [changes_mk]
    | with_reducible intro _
    | split
    | dsimp only [id])

theorem execChannelFail_changes {Q : List Block} {s0 : State} {ch : Fin 48} {s : State}  (hq : subParts [.dev, .maint, .sec, .drbg, .host, .forme, .codec, .tier, .clusters, .sched, .repro, .req, .pair, .near, .rma, .links, .tb, .free, .out] Q = true) {tt : State} (hk : OnlyChanges Q s0 s) (eq_ : execChannelFail ch s = .next tt) : OnlyChanges Q s0 tt := by
  unfold execChannelFail at eq_
  repeat' (first | split at eq_ | dsimp only at eq_)
  all_goals (first | (injection eq_ with eq_; subst eq_) | (cases eq_))
  repeat' (first
    | with_reducible assumption
    | ((with_reducible refine .inr (subParts_mem hq ?_)); rfl)
    | with_reducible exact .inl rfl
    | with_reducible apply channelLost_changes (hq := subParts_trans rfl hq)
    | with_reducible refine changes_ite ?_ ?_
    | (with_reducible refine changesParts_of ?_ ?_ ?_ ?_ ?_ ?_ ?_ ?_ ?_ ?_ ?_ ?_ ?_ ?_ ?_ ?_ ?_ ?_ ?_ ?_)
    | simp only [changes_mk]
    | with_reducible intro _
    | split
    | dsimp only [id])

theorem recallFault_changes {Q : List Block} {s0 : State} {q : ReqId} {s : State}  (hq : subParts [.codec, .tier, .req, .pair, .near, .rma, .links, .free, .out] Q = true) (hk : OnlyChanges Q s0 s) :
    OnlyChanges Q s0 (recallFault q s) := by
  unfold recallFault
  repeat' (first
    | with_reducible assumption
    | ((with_reducible refine .inr (subParts_mem hq ?_)); rfl)
    | with_reducible exact .inl rfl
    | with_reducible apply resetGalley_changes (hq := subParts_trans rfl hq)
    | with_reducible apply memberDrop_changes (hq := subParts_trans rfl hq)
    | with_reducible apply galleyUpd_changes (hq := subParts_trans rfl hq)
    | with_reducible apply refusal_changes (hq := subParts_trans rfl hq)
    | with_reducible apply sendFw_changes (hq := subParts_trans rfl hq)
    | with_reducible refine changes_ite ?_ ?_
    | (with_reducible refine changesParts_of ?_ ?_ ?_ ?_ ?_ ?_ ?_ ?_ ?_ ?_ ?_ ?_ ?_ ?_ ?_ ?_ ?_ ?_ ?_ ?_)
    | simp only [changes_mk]
    | with_reducible intro _
    | split
    | dsimp only [id])

theorem t3Fault_changes {Q : List Block} {s0 : State} {q : ReqId} {s : State} (hq : subParts [.dev, .codec, .tier, .req, .pair, .near, .rma, .links, .free, .out] Q = true) (hk : OnlyChanges Q s0 s) :
    OnlyChanges Q s0 (t3Fault q s) := by
  unfold t3Fault
  repeat' (first
    | with_reducible assumption
    | ((with_reducible refine .inr (subParts_mem hq ?_)); rfl)
    | with_reducible exact .inl rfl
    | with_reducible apply recallFault_changes (hq := subParts_trans rfl hq)
    | with_reducible apply afterShelf_changes (hq := subParts_trans rfl hq)
    | with_reducible apply noteErr_changes (hq := subParts_trans rfl hq)
    | with_reducible apply shelveAbandon_changes (hq := subParts_trans rfl hq)
    | with_reducible refine changes_ite ?_ ?_
    | (with_reducible refine changesParts_of ?_ ?_ ?_ ?_ ?_ ?_ ?_ ?_ ?_ ?_ ?_ ?_ ?_ ?_ ?_ ?_ ?_ ?_ ?_ ?_)
    | simp only [changes_mk]
    | with_reducible intro _
    | split
    | dsimp only [id])

theorem execT3Fault_changes {Q : List Block} {s0 : State} {q : ReqId} {s : State}  (hq : subParts [.dev, .codec, .tier, .req, .pair, .near, .rma, .links, .free, .out] Q = true) {tt : State} (hk : OnlyChanges Q s0 s) (eq_ : execT3Fault q s = .next tt) : OnlyChanges Q s0 tt := by
  unfold execT3Fault at eq_
  repeat' (first | split at eq_ | dsimp only at eq_)
  all_goals (first | (injection eq_ with eq_; subst eq_) | (cases eq_))
  repeat' (first
    | with_reducible assumption
    | ((with_reducible refine .inr (subParts_mem hq ?_)); rfl)
    | with_reducible exact .inl rfl
    | with_reducible apply t3Fault_changes (hq := subParts_trans rfl hq)
    | with_reducible refine changes_ite ?_ ?_
    | (with_reducible refine changesParts_of ?_ ?_ ?_ ?_ ?_ ?_ ?_ ?_ ?_ ?_ ?_ ?_ ?_ ?_ ?_ ?_ ?_ ?_ ?_ ?_)
    | simp only [changes_mk]
    | with_reducible intro _
    | split
    | dsimp only [id])

theorem shelveRetry_changes {Q : List Block} {s0 : State} {q : ReqId} {s : State} (hq : subParts [.tier, .req, .near, .links] Q = true) (hk : OnlyChanges Q s0 s) :
    OnlyChanges Q s0 (shelveRetry q s) := by
  unfold shelveRetry
  repeat' (first
    | with_reducible assumption
    | ((with_reducible refine .inr (subParts_mem hq ?_)); rfl)
    | with_reducible exact .inl rfl
    | with_reducible apply recallStart_changes (hq := subParts_trans rfl hq)
    | with_reducible apply shelveStart_changes (hq := subParts_trans rfl hq)
    | with_reducible refine changes_ite ?_ ?_
    | (with_reducible refine changesParts_of ?_ ?_ ?_ ?_ ?_ ?_ ?_ ?_ ?_ ?_ ?_ ?_ ?_ ?_ ?_ ?_ ?_ ?_ ?_ ?_)
    | simp only [changes_mk]
    | with_reducible intro _
    | split
    | dsimp only [id])

theorem execShelveRetry_changes {Q : List Block} {s0 : State} {q : ReqId} {s : State}  (hq : subParts [.tier, .req, .near, .links] Q = true) {tt : State} (hk : OnlyChanges Q s0 s) (eq_ : execShelveRetry q s = .next tt) : OnlyChanges Q s0 tt := by
  unfold execShelveRetry at eq_
  repeat' (first | split at eq_ | dsimp only at eq_)
  all_goals (first | (injection eq_ with eq_; subst eq_) | (cases eq_))
  repeat' (first
    | with_reducible assumption
    | ((with_reducible refine .inr (subParts_mem hq ?_)); rfl)
    | with_reducible exact .inl rfl
    | with_reducible apply unlessFenced_changes (hq := subParts_trans rfl hq)
    | with_reducible apply shelveRetry_changes (hq := subParts_trans rfl hq)
    | with_reducible refine changes_ite ?_ ?_
    | (with_reducible refine changesParts_of ?_ ?_ ?_ ?_ ?_ ?_ ?_ ?_ ?_ ?_ ?_ ?_ ?_ ?_ ?_ ?_ ?_ ?_ ?_ ?_)
    | simp only [changes_mk]
    | with_reducible intro _
    | split
    | dsimp only [id])

theorem galleyExpiry_changes {Q : List Block} {s0 : State} {q : ReqId} {s : State} (hq : subParts [.tier, .req] Q = true) (hk : OnlyChanges Q s0 s) :
    OnlyChanges Q s0 (galleyExpiry q s) := by
  unfold galleyExpiry
  repeat' (first
    | with_reducible assumption
    | ((with_reducible refine .inr (subParts_mem hq ?_)); rfl)
    | with_reducible exact .inl rfl
    | with_reducible apply expirePages_changes (hq := subParts_trans rfl hq)
    | with_reducible refine changes_ite ?_ ?_
    | (with_reducible refine changesParts_of ?_ ?_ ?_ ?_ ?_ ?_ ?_ ?_ ?_ ?_ ?_ ?_ ?_ ?_ ?_ ?_ ?_ ?_ ?_ ?_)
    | simp only [changes_mk]
    | with_reducible intro _
    | split
    | dsimp only [id])

theorem execGalleyExpiry_changes {Q : List Block} {s0 : State} {q : ReqId} {s : State}  (hq : subParts [.tier, .req] Q = true) {tt : State} (hk : OnlyChanges Q s0 s) (eq_ : execGalleyExpiry q s = .next tt) : OnlyChanges Q s0 tt := by
  unfold execGalleyExpiry at eq_
  repeat' (first | split at eq_ | dsimp only at eq_)
  all_goals (first | (injection eq_ with eq_; subst eq_) | (cases eq_))
  repeat' (first
    | with_reducible assumption
    | ((with_reducible refine .inr (subParts_mem hq ?_)); rfl)
    | with_reducible exact .inl rfl
    | with_reducible apply galleyExpiry_changes (hq := subParts_trans rfl hq)
    | with_reducible refine changes_ite ?_ ?_
    | (with_reducible refine changesParts_of ?_ ?_ ?_ ?_ ?_ ?_ ?_ ?_ ?_ ?_ ?_ ?_ ?_ ?_ ?_ ?_ ?_ ?_ ?_ ?_)
    | simp only [changes_mk]
    | with_reducible intro _
    | split
    | dsimp only [id])

end Sys2Proof.Machine
end

