-- ==== Sys2Proof/Laws/ChangesHost.lean ====
section
/-!
SUPPORT. The blocks of the state that the operations of Sys2Proof/Machine/Host.lean may change.
-/

namespace Sys2Proof.Machine

theorem hostCode_changes {Q : List Block} {s0 : State} {fn : FnId} {c : Status} {s : State}  (hq : subParts [.host] Q = true) (hk : OnlyChanges Q s0 s) :
    OnlyChanges Q s0 (hostCode fn c s) := by
  unfold hostCode
  repeat' (first
    | with_reducible assumption
    | ((with_reducible refine .inr (subParts_mem hq ?_)); rfl)
    | with_reducible exact .inl rfl
    | with_reducible apply fnUpd_changes (hq := subParts_trans rfl hq)
    | with_reducible refine changes_ite ?_ ?_
    | (with_reducible refine changesParts_of ?_ ?_ ?_ ?_ ?_ ?_ ?_ ?_ ?_ ?_ ?_ ?_ ?_ ?_ ?_ ?_ ?_ ?_ ?_ ?_)
    | simp only [changes_mk]
    | with_reducible intro _
    | split
    | dsimp only [id])

theorem hostSettings_changes {Q : List Block} {s0 : State} {w : CtlWrite} {s : State}  (hq : subParts [.host, .rma, .out] Q = true) (hk : OnlyChanges Q s0 s) :
    OnlyChanges Q s0 (hostSettings w s) := by
  unfold hostSettings
  repeat' (first
    | with_reducible assumption
    | ((with_reducible refine .inr (subParts_mem hq ?_)); rfl)
    | with_reducible exact .inl rfl
    | with_reducible apply faultPost_changes (hq := subParts_trans rfl hq)
    | with_reducible apply hostCode_changes (hq := subParts_trans rfl hq)
    | with_reducible apply fnUpd_changes (hq := subParts_trans rfl hq)
    | with_reducible refine changes_ite ?_ ?_
    | (with_reducible refine changesParts_of ?_ ?_ ?_ ?_ ?_ ?_ ?_ ?_ ?_ ?_ ?_ ?_ ?_ ?_ ?_ ?_ ?_ ?_ ?_ ?_)
    | simp only [changes_mk]
    | with_reducible intro _
    | split
    | dsimp only [id])

theorem hostCtl_changes {Q : List Block} {s0 : State} {w : CtlWrite} {own : Nat} {run : State → State} {s : State} (h_run : ∀ (u : State), OnlyChanges Q s0 u → OnlyChanges Q s0 (run u)) (hq : subParts [.host, .rma, .out] Q = true) (hk : OnlyChanges Q s0 s) :
    OnlyChanges Q s0 (hostCtl w own run s) := by
  unfold hostCtl
  repeat' (first
    | with_reducible assumption
    | ((with_reducible refine .inr (subParts_mem hq ?_)); rfl)
    | with_reducible exact .inl rfl
    | with_reducible apply hostSettings_changes (hq := subParts_trans rfl hq)
    | with_reducible apply hostCode_changes (hq := subParts_trans rfl hq)
    | with_reducible apply h_run
    | with_reducible refine changes_ite ?_ ?_
    | (with_reducible refine changesParts_of ?_ ?_ ?_ ?_ ?_ ?_ ?_ ?_ ?_ ?_ ?_ ?_ ?_ ?_ ?_ ?_ ?_ ?_ ?_ ?_)
    | simp only [changes_mk]
    | with_reducible intro _
    | split
    | dsimp only [id])

theorem ringEnable_changes {Q : List Block} {s0 : State} {fn : FnId} {s : State}  (hq : subParts [.host, .out] Q = true) (hk : OnlyChanges Q s0 s) :
    OnlyChanges Q s0 (ringEnable fn s) := by
  unfold ringEnable
  repeat' (first
    | with_reducible assumption
    | ((with_reducible refine .inr (subParts_mem hq ?_)); rfl)
    | with_reducible exact .inl rfl
    | with_reducible apply releaseHeld_changes (hq := subParts_trans rfl hq)
    | with_reducible apply hostCode_changes (hq := subParts_trans rfl hq)
    | with_reducible apply ringUpd_changes (hq := subParts_trans rfl hq)
    | with_reducible refine changes_ite ?_ ?_
    | (with_reducible refine changesParts_of ?_ ?_ ?_ ?_ ?_ ?_ ?_ ?_ ?_ ?_ ?_ ?_ ?_ ?_ ?_ ?_ ?_ ?_ ?_ ?_)
    | simp only [changes_mk]
    | with_reducible intro _
    | split
    | dsimp only [id])

theorem execEnable_changes {Q : List Block} {s0 : State} {w : CtlWrite} {s : State}  (hq : subParts [.host, .rma, .out] Q = true) {tt : State} (hk : OnlyChanges Q s0 s) (eq_ : execEnable w s = .next tt) : OnlyChanges Q s0 tt := by
  unfold execEnable at eq_
  repeat' (first | split at eq_ | dsimp only at eq_)
  all_goals (first | (injection eq_ with eq_; subst eq_) | (cases eq_))
  repeat' (first
    | with_reducible assumption
    | ((with_reducible refine .inr (subParts_mem hq ?_)); rfl)
    | with_reducible exact .inl rfl
    | with_reducible apply ringEnable_changes (hq := subParts_trans rfl hq)
    | with_reducible apply hostCtl_changes (hq := subParts_trans rfl hq)
    | with_reducible refine changes_ite ?_ ?_
    | (with_reducible refine changesParts_of ?_ ?_ ?_ ?_ ?_ ?_ ?_ ?_ ?_ ?_ ?_ ?_ ?_ ?_ ?_ ?_ ?_ ?_ ?_ ?_)
    | simp only [changes_mk]
    | with_reducible intro _
    | split
    | dsimp only [id])

theorem ringDisable_changes {Q : List Block} {s0 : State} {fn : FnId} {s : State}  (hq : subParts [.host] Q = true) (hk : OnlyChanges Q s0 s) :
    OnlyChanges Q s0 (ringDisable fn s) := by
  unfold ringDisable
  repeat' (first
    | with_reducible assumption
    | ((with_reducible refine .inr (subParts_mem hq ?_)); rfl)
    | with_reducible exact .inl rfl
    | with_reducible apply hostCode_changes (hq := subParts_trans rfl hq)
    | with_reducible apply ringUpd_changes (hq := subParts_trans rfl hq)
    | with_reducible apply fnUpd_changes (hq := subParts_trans rfl hq)
    | with_reducible refine changes_ite ?_ ?_
    | (with_reducible refine changesParts_of ?_ ?_ ?_ ?_ ?_ ?_ ?_ ?_ ?_ ?_ ?_ ?_ ?_ ?_ ?_ ?_ ?_ ?_ ?_ ?_)
    | simp only [changes_mk]
    | with_reducible intro _
    | split
    | dsimp only [id])

theorem execDisable_changes {Q : List Block} {s0 : State} {w : CtlWrite} {s : State}  (hq : subParts [.host, .rma, .out] Q = true) {tt : State} (hk : OnlyChanges Q s0 s) (eq_ : execDisable w s = .next tt) : OnlyChanges Q s0 tt := by
  unfold execDisable at eq_
  repeat' (first | split at eq_ | dsimp only at eq_)
  all_goals (first | (injection eq_ with eq_; subst eq_) | (cases eq_))
  repeat' (first
    | with_reducible assumption
    | ((with_reducible refine .inr (subParts_mem hq ?_)); rfl)
    | with_reducible exact .inl rfl
    | with_reducible apply ringDisable_changes (hq := subParts_trans rfl hq)
    | with_reducible apply hostCtl_changes (hq := subParts_trans rfl hq)
    | with_reducible refine changes_ite ?_ ?_
    | (with_reducible refine changesParts_of ?_ ?_ ?_ ?_ ?_ ?_ ?_ ?_ ?_ ?_ ?_ ?_ ?_ ?_ ?_ ?_ ?_ ?_ ?_ ?_)
    | simp only [changes_mk]
    | with_reducible intro _
    | split
    | dsimp only [id])

theorem execFaultEn_changes {Q : List Block} {s0 : State} {w : CtlWrite} {s : State}  (hq : subParts [.host, .rma, .out] Q = true) {tt : State} (hk : OnlyChanges Q s0 s) (eq_ : execFaultEn w s = .next tt) : OnlyChanges Q s0 tt := by
  unfold execFaultEn at eq_
  repeat' (first | split at eq_ | dsimp only at eq_)
  all_goals (first | (injection eq_ with eq_; subst eq_) | (cases eq_))
  repeat' (first
    | with_reducible assumption
    | ((with_reducible refine .inr (subParts_mem hq ?_)); rfl)
    | with_reducible exact .inl rfl
    | with_reducible apply hostSettings_changes (hq := subParts_trans rfl hq)
    | with_reducible refine changes_ite ?_ ?_
    | (with_reducible refine changesParts_of ?_ ?_ ?_ ?_ ?_ ?_ ?_ ?_ ?_ ?_ ?_ ?_ ?_ ?_ ?_ ?_ ?_ ?_ ?_ ?_)
    | simp only [changes_mk]
    | with_reducible intro _
    | split
    | dsimp only [id])

theorem sqDoorbell_changes {Q : List Block} {s0 : State} {r : RingRef} {prod : BitVec 16} {s : State}  (hq : subParts [.dev, .host, .free] Q = true) (hk : OnlyChanges Q s0 s) :
    OnlyChanges Q s0 (sqDoorbell r prod s) := by
  unfold sqDoorbell
  repeat' (first
    | with_reducible assumption
    | ((with_reducible refine .inr (subParts_mem hq ?_)); rfl)
    | with_reducible exact .inl rfl
    | with_reducible apply ringFails_changes (hq := subParts_trans rfl hq)
    | with_reducible apply ringUpd_changes (hq := subParts_trans rfl hq)
    | with_reducible refine changes_ite ?_ ?_
    | (with_reducible refine changesParts_of ?_ ?_ ?_ ?_ ?_ ?_ ?_ ?_ ?_ ?_ ?_ ?_ ?_ ?_ ?_ ?_ ?_ ?_ ?_ ?_)
    | simp only [changes_mk]
    | with_reducible intro _
    | split
    | dsimp only [id])

theorem execSqDoorbell_changes {Q : List Block} {s0 : State} {fn : FnId} {set : BitVec 3} {value : Word} {s : State}  (hq : subParts [.dev, .host, .free] Q = true) {tt : State} (hk : OnlyChanges Q s0 s) (eq_ : execSqDoorbell fn set value s = .next tt) : OnlyChanges Q s0 tt := by
  unfold execSqDoorbell at eq_
  repeat' (first | split at eq_ | dsimp only at eq_)
  all_goals (first | (injection eq_ with eq_; subst eq_) | (cases eq_))
  repeat' (first
    | with_reducible assumption
    | ((with_reducible refine .inr (subParts_mem hq ?_)); rfl)
    | with_reducible exact .inl rfl
    | with_reducible apply sqDoorbell_changes (hq := subParts_trans rfl hq)
    | with_reducible refine changes_ite ?_ ?_
    | (with_reducible refine changesParts_of ?_ ?_ ?_ ?_ ?_ ?_ ?_ ?_ ?_ ?_ ?_ ?_ ?_ ?_ ?_ ?_ ?_ ?_ ?_ ?_)
    | simp only [changes_mk]
    | with_reducible intro _
    | split
    | dsimp only [id])

theorem blockRead_changes {Q : List Block} {s0 : State} {q : Nat} {b : RingBlock} {s : State} (hq : subParts [.rma] Q = true) (hk : OnlyChanges Q s0 s) :
    OnlyChanges Q s0 (blockRead q b s) := by
  unfold blockRead
  repeat' (first
    | with_reducible assumption
    | ((with_reducible refine .inr (subParts_mem hq ?_)); rfl)
    | with_reducible exact .inl rfl
    | with_reducible apply qpUpd_changes (hq := subParts_trans rfl hq)
    | with_reducible refine changes_ite ?_ ?_
    | (with_reducible refine changesParts_of ?_ ?_ ?_ ?_ ?_ ?_ ?_ ?_ ?_ ?_ ?_ ?_ ?_ ?_ ?_ ?_ ?_ ?_ ?_ ?_)
    | simp only [changes_mk]
    | with_reducible intro _
    | split
    | dsimp only [id])

theorem qpDoorbell_changes {Q : List Block} {s0 : State} {fn : FnId} {q : Nat} {recv : Bool} {read : RingRead} {s : State} (hq : subParts [.dev, .maint, .clusters, .sched, .req, .rma, .links, .free, .out] Q = true) (hk : OnlyChanges Q s0 s) :
    OnlyChanges Q s0 (qpDoorbell fn q recv read s) := by
  unfold qpDoorbell
  repeat' (first
    | with_reducible assumption
    | ((with_reducible refine .inr (subParts_mem hq ?_)); rfl)
    | with_reducible exact .inl rfl
    | with_reducible apply qpError_changes (hq := subParts_trans rfl hq)
    | with_reducible apply qpUpd_changes (hq := subParts_trans rfl hq)
    | with_reducible apply blockRead_changes (hq := subParts_trans rfl hq)
    | with_reducible refine changes_ite ?_ ?_
    | (with_reducible refine changesParts_of ?_ ?_ ?_ ?_ ?_ ?_ ?_ ?_ ?_ ?_ ?_ ?_ ?_ ?_ ?_ ?_ ?_ ?_ ?_ ?_)
    | simp only [changes_mk]
    | with_reducible intro _
    | split
    | dsimp only [id])

theorem execQpDoorbell_changes {Q : List Block} {s0 : State} {fn : FnId} {value : Word} {read : RingRead} {s : State} {tt : State} (hq : subParts [.dev, .maint, .clusters, .sched, .req, .rma, .links, .free, .out] Q = true) (hk : OnlyChanges Q s0 s) (eq_ : execQpDoorbell fn value read s = .next tt) : OnlyChanges Q s0 tt := by
  unfold execQpDoorbell at eq_
  repeat' (first | split at eq_ | dsimp only at eq_)
  all_goals (first | (injection eq_ with eq_; subst eq_) | (cases eq_))
  repeat' (first
    | with_reducible assumption
    | ((with_reducible refine .inr (subParts_mem hq ?_)); rfl)
    | with_reducible exact .inl rfl
    | with_reducible apply qpDoorbell_changes (hq := subParts_trans rfl hq)
    | with_reducible refine changes_ite ?_ ?_
    | (with_reducible refine changesParts_of ?_ ?_ ?_ ?_ ?_ ?_ ?_ ?_ ?_ ?_ ?_ ?_ ?_ ?_ ?_ ?_ ?_ ?_ ?_ ?_)
    | simp only [changes_mk]
    | with_reducible intro _
    | split
    | dsimp only [id])

theorem consumerWrite_changes {Q : List Block} {s0 : State} {r : ConsumerReg} {v : Word} {s : State}  (hq : subParts [.host, .rma, .out] Q = true) (hk : OnlyChanges Q s0 s) :
    OnlyChanges Q s0 (consumerWrite r v s) := by
  unfold consumerWrite
  repeat' (first
    | with_reducible assumption
    | ((with_reducible refine .inr (subParts_mem hq ?_)); rfl)
    | with_reducible exact .inl rfl
    | with_reducible apply releaseHeld_changes (hq := subParts_trans rfl hq)
    | with_reducible apply faultPost_changes (hq := subParts_trans rfl hq)
    | with_reducible apply ringUpd_changes (hq := subParts_trans rfl hq)
    | with_reducible apply fnUpd_changes (hq := subParts_trans rfl hq)
    | with_reducible refine changes_ite ?_ ?_
    | (with_reducible refine changesParts_of ?_ ?_ ?_ ?_ ?_ ?_ ?_ ?_ ?_ ?_ ?_ ?_ ?_ ?_ ?_ ?_ ?_ ?_ ?_ ?_)
    | simp only [changes_mk]
    | with_reducible intro _
    | split
    | dsimp only [id])

theorem execConsumerWrite_changes {Q : List Block} {s0 : State} {r : ConsumerReg} {v : Word} {s : State}  (hq : subParts [.host, .rma, .out] Q = true) {tt : State} (hk : OnlyChanges Q s0 s) (eq_ : execConsumerWrite r v s = .next tt) : OnlyChanges Q s0 tt := by
  unfold execConsumerWrite at eq_
  repeat' (first | split at eq_ | dsimp only at eq_)
  all_goals (first | (injection eq_ with eq_; subst eq_) | (cases eq_))
  repeat' (first
    | with_reducible assumption
    | ((with_reducible refine .inr (subParts_mem hq ?_)); rfl)
    | with_reducible exact .inl rfl
    | with_reducible apply consumerWrite_changes (hq := subParts_trans rfl hq)
    | with_reducible refine changes_ite ?_ ?_
    | (with_reducible refine changesParts_of ?_ ?_ ?_ ?_ ?_ ?_ ?_ ?_ ?_ ?_ ?_ ?_ ?_ ?_ ?_ ?_ ?_ ?_ ?_ ?_)
    | simp only [changes_mk]
    | with_reducible intro _
    | split
    | dsimp only [id])

theorem holdoffEnds_changes {Q : List Block} {s0 : State} {fn : FnId} {vector : BitVec 5} {s : State}  (hq : subParts [.host, .out] Q = true) (hk : OnlyChanges Q s0 s) :
    OnlyChanges Q s0 (holdoffEnds fn vector s) := by
  unfold holdoffEnds
  repeat' (first
    | with_reducible assumption
    | ((with_reducible refine .inr (subParts_mem hq ?_)); rfl)
    | with_reducible exact .inl rfl
    | with_reducible apply foldl_changes
    | with_reducible apply foldl_changes_fst
    | with_reducible apply foldl_changes_snd
    | with_reducible apply ringUpd_changes (hq := subParts_trans rfl hq)
    | with_reducible apply msix_changes (hq := subParts_trans rfl hq)
    | with_reducible refine changes_ite ?_ ?_
    | (with_reducible refine changesParts_of ?_ ?_ ?_ ?_ ?_ ?_ ?_ ?_ ?_ ?_ ?_ ?_ ?_ ?_ ?_ ?_ ?_ ?_ ?_ ?_)
    | simp only [changes_mk]
    | with_reducible intro _
    | split
    | dsimp only [id])

theorem execInterruptHoldoffExpiry_changes {Q : List Block} {s0 : State} {fn : FnId} {vector : BitVec 5} {s : State}  (hq : subParts [.host, .out] Q = true) {tt : State} (hk : OnlyChanges Q s0 s) (eq_ : execInterruptHoldoffExpiry fn vector s = .next tt) : OnlyChanges Q s0 tt := by
  unfold execInterruptHoldoffExpiry at eq_
  repeat' (first | split at eq_ | dsimp only at eq_)
  all_goals (first | (injection eq_ with eq_; subst eq_) | (cases eq_))
  repeat' (first
    | with_reducible assumption
    | ((with_reducible refine .inr (subParts_mem hq ?_)); rfl)
    | with_reducible exact .inl rfl
    | with_reducible apply holdoffEnds_changes (hq := subParts_trans rfl hq)
    | with_reducible refine changes_ite ?_ ?_
    | (with_reducible refine changesParts_of ?_ ?_ ?_ ?_ ?_ ?_ ?_ ?_ ?_ ?_ ?_ ?_ ?_ ?_ ?_ ?_ ?_ ?_ ?_ ?_)
    | simp only [changes_mk]
    | with_reducible intro _
    | split
    | dsimp only [id])

theorem contextCancels_changes {Q : List Block} {s0 : State} {c : Nat} {s : State}  (hq : subParts [.req, .rma, .links, .out] Q = true) (hk : OnlyChanges Q s0 s) :
    OnlyChanges Q s0 (contextCancels c s) := by
  unfold contextCancels
  repeat' (first
    | with_reducible assumption
    | ((with_reducible refine .inr (subParts_mem hq ?_)); rfl)
    | with_reducible exact .inl rfl
    | with_reducible apply foldl_changes
    | with_reducible apply foldl_changes_fst
    | with_reducible apply foldl_changes_snd
    | with_reducible apply anchorCancel_changes (hq := subParts_trans rfl hq)
    | with_reducible apply anchorUpd_changes (hq := subParts_trans rfl hq)
    | with_reducible refine changes_ite ?_ ?_
    | (with_reducible refine changesParts_of ?_ ?_ ?_ ?_ ?_ ?_ ?_ ?_ ?_ ?_ ?_ ?_ ?_ ?_ ?_ ?_ ?_ ?_ ?_ ?_)
    | simp only [changes_mk]
    | with_reducible intro _
    | split
    | dsimp only [id])

theorem contextRma_changes {Q : List Block} {s0 : State} {c : Nat} {s : State} (hq : subParts [.rma, .out] Q = true) (hk : OnlyChanges Q s0 s) :
    OnlyChanges Q s0 (contextRma c s) := by
  unfold contextRma
  repeat' (first
    | with_reducible assumption
    | ((with_reducible refine .inr (subParts_mem hq ?_)); rfl)
    | with_reducible exact .inl rfl
    | with_reducible apply deregRun_changes (hq := subParts_trans rfl hq)
    | with_reducible refine changes_ite ?_ ?_
    | (with_reducible refine changesParts_of ?_ ?_ ?_ ?_ ?_ ?_ ?_ ?_ ?_ ?_ ?_ ?_ ?_ ?_ ?_ ?_ ?_ ?_ ?_ ?_)
    | simp only [changes_mk]
    | with_reducible intro _
    | split
    | dsimp only [id])

theorem contextSched_changes {Q : List Block} {s0 : State} {c : Nat} {s : State}  (hq : subParts [.clusters, .sched] Q = true) (hk : OnlyChanges Q s0 s) :
    OnlyChanges Q s0 (contextSched c s) := by
  unfold contextSched
  repeat' (first
    | with_reducible assumption
    | ((with_reducible refine .inr (subParts_mem hq ?_)); rfl)
    | with_reducible exact .inl rfl
    | with_reducible apply getD_changes
    | with_reducible refine changes_ite ?_ ?_
    | (with_reducible refine changesParts_of ?_ ?_ ?_ ?_ ?_ ?_ ?_ ?_ ?_ ?_ ?_ ?_ ?_ ?_ ?_ ?_ ?_ ?_ ?_ ?_)
    | simp only [changes_mk]
    | with_reducible intro _
    | split
    | dsimp only [id])

theorem contextReset_changes {Q : List Block} {s0 : State} {c : Nat} {s : State}  (hq : subParts [.host, .clusters, .sched, .repro, .req, .rma, .links, .out] Q = true) (hk : OnlyChanges Q s0 s) :
    OnlyChanges Q s0 (contextReset c s) := by
  unfold contextReset
  repeat' (first
    | with_reducible assumption
    | ((with_reducible refine .inr (subParts_mem hq ?_)); rfl)
    | with_reducible exact .inl rfl
    | with_reducible apply contextCancels_changes (hq := subParts_trans rfl hq)
    | with_reducible apply contextSched_changes (hq := subParts_trans rfl hq)
    | with_reducible apply contextRma_changes (hq := subParts_trans rfl hq)
    | with_reducible refine changes_ite ?_ ?_
    | (with_reducible refine changesParts_of ?_ ?_ ?_ ?_ ?_ ?_ ?_ ?_ ?_ ?_ ?_ ?_ ?_ ?_ ?_ ?_ ?_ ?_ ?_ ?_)
    | simp only [changes_mk]
    | with_reducible intro _
    | split
    | dsimp only [id])

theorem vfReset_changes {Q : List Block} {s0 : State} {c : Nat} {s : State}  (hq : subParts [.host, .clusters, .sched, .repro, .req, .rma, .links, .out] Q = true) (hk : OnlyChanges Q s0 s) :
    OnlyChanges Q s0 (vfReset c s) := by
  unfold vfReset
  repeat' (first
    | with_reducible assumption
    | ((with_reducible refine .inr (subParts_mem hq ?_)); rfl)
    | with_reducible exact .inl rfl
    | with_reducible apply contextReset_changes (hq := subParts_trans rfl hq)
    | with_reducible refine changes_ite ?_ ?_
    | (with_reducible refine changesParts_of ?_ ?_ ?_ ?_ ?_ ?_ ?_ ?_ ?_ ?_ ?_ ?_ ?_ ?_ ?_ ?_ ?_ ?_ ?_ ?_)
    | simp only [changes_mk]
    | with_reducible intro _
    | split
    | dsimp only [id])

theorem pfReset_changes {Q : List Block} {s0 : State} {s : State}  (hq : subParts [.host, .clusters, .sched, .repro, .req, .rma, .links, .out] Q = true) (hk : OnlyChanges Q s0 s) :
    OnlyChanges Q s0 (pfReset s) := by
  unfold pfReset
  repeat' (first
    | with_reducible assumption
    | ((with_reducible refine .inr (subParts_mem hq ?_)); rfl)
    | with_reducible exact .inl rfl
    | with_reducible apply foldl_changes
    | with_reducible apply foldl_changes_fst
    | with_reducible apply foldl_changes_snd
    | with_reducible apply contextReset_changes (hq := subParts_trans rfl hq)
    | with_reducible refine changes_ite ?_ ?_
    | (with_reducible refine changesParts_of ?_ ?_ ?_ ?_ ?_ ?_ ?_ ?_ ?_ ?_ ?_ ?_ ?_ ?_ ?_ ?_ ?_ ?_ ?_ ?_)
    | simp only [changes_mk]
    | with_reducible intro _
    | split
    | dsimp only [id])

theorem fnReset_changes {Q : List Block} {s0 : State} {fn : FnId} {cause : FlrCause} {s : State}  (hq : subParts [.host, .clusters, .sched, .repro, .req, .rma, .links, .out] Q = true) (hk : OnlyChanges Q s0 s) :
    OnlyChanges Q s0 (fnReset fn cause s) := by
  unfold fnReset
  repeat' (first
    | with_reducible assumption
    | ((with_reducible refine .inr (subParts_mem hq ?_)); rfl)
    | with_reducible exact .inl rfl
    | with_reducible apply tdiError_changes (hq := subParts_trans rfl hq)
    | with_reducible apply vfReset_changes (hq := subParts_trans rfl hq)
    | with_reducible apply pfReset_changes (hq := subParts_trans rfl hq)
    | with_reducible refine changes_ite ?_ ?_
    | (with_reducible refine changesParts_of ?_ ?_ ?_ ?_ ?_ ?_ ?_ ?_ ?_ ?_ ?_ ?_ ?_ ?_ ?_ ?_ ?_ ?_ ?_ ?_)
    | simp only [changes_mk]
    | with_reducible intro _
    | split
    | dsimp only [id])

theorem execFlr_changes {Q : List Block} {s0 : State} {fn : FnId} {cause : FlrCause} {s : State}  (hq : subParts [.host, .clusters, .sched, .repro, .req, .rma, .links, .out] Q = true) {tt : State} (hk : OnlyChanges Q s0 s) (eq_ : execFlr fn cause s = .next tt) : OnlyChanges Q s0 tt := by
  unfold execFlr at eq_
  repeat' (first | split at eq_ | dsimp only at eq_)
  all_goals (first | (injection eq_ with eq_; subst eq_) | (cases eq_))
  repeat' (first
    | with_reducible assumption
    | ((with_reducible refine .inr (subParts_mem hq ?_)); rfl)
    | with_reducible exact .inl rfl
    | with_reducible apply tdiError_changes (hq := subParts_trans rfl hq)
    | with_reducible apply fnReset_changes (hq := subParts_trans rfl hq)
    | with_reducible refine changes_ite ?_ ?_
    | (with_reducible refine changesParts_of ?_ ?_ ?_ ?_ ?_ ?_ ?_ ?_ ?_ ?_ ?_ ?_ ?_ ?_ ?_ ?_ ?_ ?_ ?_ ?_)
    | simp only [changes_mk]
    | with_reducible intro _
    | split
    | dsimp only [id])

theorem execFlrComplete_changes {Q : List Block} {s0 : State} {fn : FnId} {s : State}  (hq : subParts [.host, .rma, .out] Q = true) {tt : State} (hk : OnlyChanges Q s0 s) (eq_ : execFlrComplete fn s = .next tt) : OnlyChanges Q s0 tt := by
  unfold execFlrComplete at eq_
  repeat' (first | split at eq_ | dsimp only at eq_)
  all_goals (first | (injection eq_ with eq_; subst eq_) | (cases eq_))
  repeat' (first
    | with_reducible assumption
    | ((with_reducible refine .inr (subParts_mem hq ?_)); rfl)
    | with_reducible exact .inl rfl
    | with_reducible apply controlQp_changes (hq := subParts_trans rfl hq)
    | with_reducible refine changes_ite ?_ ?_
    | (with_reducible refine changesParts_of ?_ ?_ ?_ ?_ ?_ ?_ ?_ ?_ ?_ ?_ ?_ ?_ ?_ ?_ ?_ ?_ ?_ ?_ ?_ ?_)
    | simp only [changes_mk]
    | with_reducible intro _
    | split
    | dsimp only [id])

theorem execHotReset_changes {Q : List Block} {s0 : State} {s : State}  (hq : subParts [.host, .clusters, .sched, .repro, .req, .rma, .links, .out] Q = true) {tt : State} (hk : OnlyChanges Q s0 s) (eq_ : execHotReset s = .next tt) : OnlyChanges Q s0 tt := by
  unfold execHotReset at eq_
  repeat' (first | split at eq_ | dsimp only at eq_)
  all_goals (first | (injection eq_ with eq_; subst eq_) | (cases eq_))
  repeat' (first
    | with_reducible assumption
    | ((with_reducible refine .inr (subParts_mem hq ?_)); rfl)
    | with_reducible exact .inl rfl
    | with_reducible apply fnReset_changes (hq := subParts_trans rfl hq)
    | with_reducible refine changes_ite ?_ ?_
    | (with_reducible refine changesParts_of ?_ ?_ ?_ ?_ ?_ ?_ ?_ ?_ ?_ ?_ ?_ ?_ ?_ ?_ ?_ ?_ ?_ ?_ ?_ ?_)
    | simp only [changes_mk]
    | with_reducible intro _
    | split
    | dsimp only [id])

theorem execVfEnable_changes {Q : List Block} {s0 : State} {n : BitVec 6} {s : State}  (hq : subParts [.host, .rma, .out] Q = true) {tt : State} (hk : OnlyChanges Q s0 s) (eq_ : execVfEnable n s = .next tt) : OnlyChanges Q s0 tt := by
  unfold execVfEnable at eq_
  repeat' (first | split at eq_ | dsimp only at eq_)
  all_goals (first | (injection eq_ with eq_; subst eq_) | (cases eq_))
  repeat' (first
    | with_reducible assumption
    | ((with_reducible refine .inr (subParts_mem hq ?_)); rfl)
    | with_reducible exact .inl rfl
    | with_reducible apply foldl_changes
    | with_reducible apply foldl_changes_fst
    | with_reducible apply foldl_changes_snd
    | with_reducible apply controlQp_changes (hq := subParts_trans rfl hq)
    | with_reducible refine changes_ite ?_ ?_
    | (with_reducible refine changesParts_of ?_ ?_ ?_ ?_ ?_ ?_ ?_ ?_ ?_ ?_ ?_ ?_ ?_ ?_ ?_ ?_ ?_ ?_ ?_ ?_)
    | simp only [changes_mk]
    | with_reducible intro _
    | split
    | dsimp only [id])

theorem execD3hotEntry_changes {Q : List Block} {s0 : State} {fn : FnId} {s : State}  (hq : subParts [.host] Q = true) {tt : State} (hk : OnlyChanges Q s0 s) (eq_ : execD3hotEntry fn s = .next tt) : OnlyChanges Q s0 tt := by
  unfold execD3hotEntry at eq_
  repeat' (first | split at eq_ | dsimp only at eq_)
  all_goals (first | (injection eq_ with eq_; subst eq_) | (cases eq_))
  repeat' (first
    | with_reducible assumption
    | ((with_reducible refine .inr (subParts_mem hq ?_)); rfl)
    | with_reducible exact .inl rfl
    | with_reducible refine changes_ite ?_ ?_
    | (with_reducible refine changesParts_of ?_ ?_ ?_ ?_ ?_ ?_ ?_ ?_ ?_ ?_ ?_ ?_ ?_ ?_ ?_ ?_ ?_ ?_ ?_ ?_)
    | simp only [changes_mk]
    | with_reducible intro _
    | split
    | dsimp only [id])

theorem execIdeKm_changes {Q : List Block} {s0 : State} {stream : BitVec 7} {refresh : Bool} {s : State}  (hq : subParts [.host] Q = true) {tt : State} (hk : OnlyChanges Q s0 s) (eq_ : execIdeKm stream refresh s = .next tt) : OnlyChanges Q s0 tt := by
  unfold execIdeKm at eq_
  repeat' (first | split at eq_ | dsimp only at eq_)
  all_goals (first | (injection eq_ with eq_; subst eq_) | (cases eq_))
  repeat' (first
    | with_reducible assumption
    | ((with_reducible refine .inr (subParts_mem hq ?_)); rfl)
    | with_reducible exact .inl rfl
    | with_reducible refine changes_ite ?_ ?_
    | (with_reducible refine changesParts_of ?_ ?_ ?_ ?_ ?_ ?_ ?_ ?_ ?_ ?_ ?_ ?_ ?_ ?_ ?_ ?_ ?_ ?_ ?_ ?_)
    | simp only [changes_mk]
    | with_reducible intro _
    | split
    | dsimp only [id])

theorem tdiError_changes {Q : List Block} {s0 : State} {fn : FnId} {s : State}  (hq : subParts [.host, .clusters, .sched, .repro, .req, .rma, .links, .out] Q = true) (hk : OnlyChanges Q s0 s) :
    OnlyChanges Q s0 (tdiError fn s) := by
  unfold tdiError
  repeat' (first
    | with_reducible assumption
    | ((with_reducible refine .inr (subParts_mem hq ?_)); rfl)
    | with_reducible exact .inl rfl
    | with_reducible apply fnReset_changes (hq := subParts_trans rfl hq)
    | with_reducible apply msix_changes (hq := subParts_trans rfl hq)
    | with_reducible refine changes_ite ?_ ?_
    | (with_reducible refine changesParts_of ?_ ?_ ?_ ?_ ?_ ?_ ?_ ?_ ?_ ?_ ?_ ?_ ?_ ?_ ?_ ?_ ?_ ?_ ?_ ?_)
    | simp only [changes_mk]
    | with_reducible intro _
    | split
    | dsimp only [id])

theorem execIdeIntegrityFailure_changes {Q : List Block} {s0 : State} {stream : BitVec 7} {fn : FnId} {s : State}  (hq : subParts [.host, .clusters, .sched, .repro, .req, .rma, .links, .out] Q = true) {tt : State} (hk : OnlyChanges Q s0 s) (eq_ : execIdeIntegrityFailure stream fn s = .next tt) : OnlyChanges Q s0 tt := by
  unfold execIdeIntegrityFailure at eq_
  repeat' (first | split at eq_ | dsimp only at eq_)
  all_goals (first | (injection eq_ with eq_; subst eq_) | (cases eq_))
  repeat' (first
    | with_reducible assumption
    | ((with_reducible refine .inr (subParts_mem hq ?_)); rfl)
    | with_reducible exact .inl rfl
    | with_reducible apply tdiError_changes (hq := subParts_trans rfl hq)
    | with_reducible refine changes_ite ?_ ?_
    | (with_reducible refine changesParts_of ?_ ?_ ?_ ?_ ?_ ?_ ?_ ?_ ?_ ?_ ?_ ?_ ?_ ?_ ?_ ?_ ?_ ?_ ?_ ?_)
    | simp only [changes_mk]
    | with_reducible intro _
    | split
    | dsimp only [id])

theorem execLockInterface_changes {Q : List Block} {s0 : State} {vf : FnId} {s : State}  (hq : subParts [.host, .out] Q = true) {tt : State} (hk : OnlyChanges Q s0 s) (eq_ : execLockInterface vf s = .next tt) : OnlyChanges Q s0 tt := by
  unfold execLockInterface at eq_
  repeat' (first | split at eq_ | dsimp only at eq_)
  all_goals (first | (injection eq_ with eq_; subst eq_) | (cases eq_))
  repeat' (first
    | with_reducible assumption
    | ((with_reducible refine .inr (subParts_mem hq ?_)); rfl)
    | with_reducible exact .inl rfl
    | with_reducible apply msix_changes (hq := subParts_trans rfl hq)
    | with_reducible refine changes_ite ?_ ?_
    | (with_reducible refine changesParts_of ?_ ?_ ?_ ?_ ?_ ?_ ?_ ?_ ?_ ?_ ?_ ?_ ?_ ?_ ?_ ?_ ?_ ?_ ?_ ?_)
    | simp only [changes_mk]
    | with_reducible intro _
    | split
    | dsimp only [id])

theorem entryUnread_changes {Q : List Block} {s0 : State} {r : RingRef} {e : SqEntry} {s : State}  (hq : subParts [.host, .out] Q = true) (hk : OnlyChanges Q s0 s) :
    OnlyChanges Q s0 (entryUnread r e s) := by
  unfold entryUnread
  repeat' (first
    | with_reducible assumption
    | ((with_reducible refine .inr (subParts_mem hq ?_)); rfl)
    | with_reducible exact .inl rfl
    | with_reducible apply takeEntry_changes (hq := subParts_trans rfl hq)
    | with_reducible apply postCq_changes (hq := subParts_trans rfl hq)
    | with_reducible refine changes_ite ?_ ?_
    | (with_reducible refine changesParts_of ?_ ?_ ?_ ?_ ?_ ?_ ?_ ?_ ?_ ?_ ?_ ?_ ?_ ?_ ?_ ?_ ?_ ?_ ?_ ?_)
    | simp only [changes_mk]
    | with_reducible intro _
    | split
    | dsimp only [id])

theorem dmaFails_changes {Q : List Block} {s0 : State} {t : DmaTarget} {s : State}  (hq : subParts [.dev, .maint, .sec, .drbg, .host, .forme, .codec, .tier, .clusters, .sched, .repro, .req, .pair, .near, .rma, .links, .free, .out] Q = true) (hk : OnlyChanges Q s0 s) :
    OnlyChanges Q s0 (dmaFails t s) := by
  unfold dmaFails
  repeat' (first
    | with_reducible assumption
    | ((with_reducible refine .inr (subParts_mem hq ?_)); rfl)
    | with_reducible exact .inl rfl
    | with_reducible apply entryUnread_changes (hq := subParts_trans rfl hq)
    | with_reducible apply formeImage_changes (hq := subParts_trans rfl hq)
    | with_reducible apply ringFails_changes (hq := subParts_trans rfl hq)
    | with_reducible apply qpError_changes (hq := subParts_trans rfl hq)
    | with_reducible apply t3Fault_changes (hq := subParts_trans rfl hq)
    | with_reducible refine changes_ite ?_ ?_
    | (with_reducible refine changesParts_of ?_ ?_ ?_ ?_ ?_ ?_ ?_ ?_ ?_ ?_ ?_ ?_ ?_ ?_ ?_ ?_ ?_ ?_ ?_ ?_)
    | simp only [changes_mk]
    | with_reducible intro _
    | split
    | dsimp only [id])

theorem execDmaFailure_changes {Q : List Block} {s0 : State} {t : DmaTarget} {s : State}  (hq : subParts [.dev, .maint, .sec, .drbg, .host, .forme, .codec, .tier, .clusters, .sched, .repro, .req, .pair, .near, .rma, .links, .free, .out] Q = true) {tt : State} (hk : OnlyChanges Q s0 s) (eq_ : execDmaFailure t s = .next tt) : OnlyChanges Q s0 tt := by
  unfold execDmaFailure at eq_
  repeat' (first | split at eq_ | dsimp only at eq_)
  all_goals (first | (injection eq_ with eq_; subst eq_) | (cases eq_))
  repeat' (first
    | with_reducible assumption
    | ((with_reducible refine .inr (subParts_mem hq ?_)); rfl)
    | with_reducible exact .inl rfl
    | with_reducible apply dmaFails_changes (hq := subParts_trans rfl hq)
    | with_reducible refine changes_ite ?_ ?_
    | (with_reducible refine changesParts_of ?_ ?_ ?_ ?_ ?_ ?_ ?_ ?_ ?_ ?_ ?_ ?_ ?_ ?_ ?_ ?_ ?_ ?_ ?_ ?_)
    | simp only [changes_mk]
    | with_reducible intro _
    | split
    | dsimp only [id])

end Sys2Proof.Machine
end

