-- ==== Sys2Proof/Laws/ChangesLinkOps.lean ====
section
/-!
SUPPORT. The blocks of the state that the operations of Sys2Proof/Machine/LinkOps.lean may change.
-/

namespace Sys2Proof.Machine

theorem moveQueued_changes {Q : List Block} {s0 : State} {n : Nat} {pkt : Packet} {q : Queued} {s : State} (hq : subParts [.links] Q = true) (hk : OnlyChanges Q s0 s) :
    OnlyChanges Q s0 (moveQueued n pkt q s) := by
  unfold moveQueued
  repeat' (first
    | with_reducible assumption
    | ((with_reducible refine .inr (subParts_mem hq ?_)); rfl)
    | with_reducible exact .inl rfl
    | with_reducible apply pushPacket_changes (hq := subParts_trans rfl hq)
    | with_reducible refine changes_ite ?_ ?_
    | (with_reducible refine changesParts_of ?_ ?_ ?_ ?_ ?_ ?_ ?_ ?_ ?_ ?_ ?_ ?_ ?_ ?_ ?_ ?_ ?_ ?_ ?_ ?_)
    | simp only [changes_mk]
    | with_reducible intro _
    | split
    | dsimp only [id])

theorem requeueNear_changes {Q : List Block} {s0 : State} {q : Queued} {s : State} (hq : subParts [.near, .links] Q = true) (hk : OnlyChanges Q s0 s) :
    OnlyChanges Q s0 (requeueNear q s) := by
  unfold requeueNear
  repeat' (first
    | with_reducible assumption
    | ((with_reducible refine .inr (subParts_mem hq ?_)); rfl)
    | with_reducible exact .inl rfl
    | with_reducible apply moveQueued_changes (hq := subParts_trans rfl hq)
    | with_reducible apply trayDstUpd_changes (hq := subParts_trans rfl hq)
    | with_reducible refine changes_ite ?_ ?_
    | (with_reducible refine changesParts_of ?_ ?_ ?_ ?_ ?_ ?_ ?_ ?_ ?_ ?_ ?_ ?_ ?_ ?_ ?_ ?_ ?_ ?_ ?_ ?_)
    | simp only [changes_mk]
    | with_reducible intro _
    | split
    | dsimp only [id])

theorem requeueFar_changes {Q : List Block} {s0 : State} {q : Queued} {s : State} (hq : subParts [.rma, .links] Q = true) (hk : OnlyChanges Q s0 s) :
    OnlyChanges Q s0 (requeueFar q s) := by
  unfold requeueFar
  repeat' (first
    | with_reducible assumption
    | ((with_reducible refine .inr (subParts_mem hq ?_)); rfl)
    | with_reducible exact .inl rfl
    | with_reducible apply getD_changes
    | with_reducible apply moveQueued_changes (hq := subParts_trans rfl hq)
    | with_reducible refine changes_ite ?_ ?_
    | (with_reducible refine changesParts_of ?_ ?_ ?_ ?_ ?_ ?_ ?_ ?_ ?_ ?_ ?_ ?_ ?_ ?_ ?_ ?_ ?_ ?_ ?_ ?_)
    | simp only [changes_mk]
    | with_reducible intro _
    | split
    | dsimp only [id])

theorem ownerLosesLink_changes {Q : List Block} {s0 : State} {n : Nat} {qs : List Queued} {before : State} {s : State}  (hq : subParts [.near, .rma, .links] Q = true) (hk : OnlyChanges Q s0 s) :
    OnlyChanges Q s0 (ownerLosesLink n qs before s) := by
  unfold ownerLosesLink
  repeat' (first
    | with_reducible assumption
    | ((with_reducible refine .inr (subParts_mem hq ?_)); rfl)
    | with_reducible exact .inl rfl
    | with_reducible apply foldl_changes
    | with_reducible apply foldl_changes_fst
    | with_reducible apply foldl_changes_snd
    | with_reducible apply creditsRepath_changes (hq := subParts_trans rfl hq)
    | with_reducible apply nearLinkLost_changes (hq := subParts_trans rfl hq)
    | with_reducible apply nearDrained_changes (hq := subParts_trans rfl hq)
    | with_reducible apply requeueNear_changes (hq := subParts_trans rfl hq)
    | with_reducible apply farDrained_changes (hq := subParts_trans rfl hq)
    | with_reducible apply sendLstate_changes (hq := subParts_trans rfl hq)
    | with_reducible apply requeueFar_changes (hq := subParts_trans rfl hq)
    | with_reducible refine changes_ite ?_ ?_
    | (with_reducible refine changesParts_of ?_ ?_ ?_ ?_ ?_ ?_ ?_ ?_ ?_ ?_ ?_ ?_ ?_ ?_ ?_ ?_ ?_ ?_ ?_ ?_)
    | simp only [changes_mk]
    | with_reducible intro _
    | split
    | dsimp only [id])

theorem linkGoesDown_changes {Q : List Block} {s0 : State} {n : Nat} {s : State}  (hq : subParts [.dev, .near, .rma, .links] Q = true) (hk : OnlyChanges Q s0 s) :
    OnlyChanges Q s0 (linkGoesDown n s) := by
  unfold linkGoesDown
  repeat' (first
    | with_reducible assumption
    | ((with_reducible refine .inr (subParts_mem hq ?_)); rfl)
    | with_reducible exact .inl rfl
    | with_reducible apply ownerLosesLink_changes (hq := subParts_trans rfl hq)
    | with_reducible apply noteErr_changes (hq := subParts_trans rfl hq)
    | with_reducible apply linkUpd_changes (hq := subParts_trans rfl hq)
    | with_reducible refine changes_ite ?_ ?_
    | (with_reducible refine changesParts_of ?_ ?_ ?_ ?_ ?_ ?_ ?_ ?_ ?_ ?_ ?_ ?_ ?_ ?_ ?_ ?_ ?_ ?_ ?_ ?_)
    | simp only [changes_mk]
    | with_reducible intro _
    | split
    | dsimp only [id])

theorem trainStart_changes {Q : List Block} {s0 : State} {n : Nat} {s : State} (hq : subParts [.links] Q = true) (hk : OnlyChanges Q s0 s) :
    OnlyChanges Q s0 (trainStart n s) := by
  unfold trainStart
  repeat' (first
    | with_reducible assumption
    | ((with_reducible refine .inr (subParts_mem hq ?_)); rfl)
    | with_reducible exact .inl rfl
    | with_reducible apply linkUpd_changes (hq := subParts_trans rfl hq)
    | with_reducible refine changes_ite ?_ ?_
    | (with_reducible refine changesParts_of ?_ ?_ ?_ ?_ ?_ ?_ ?_ ?_ ?_ ?_ ?_ ?_ ?_ ?_ ?_ ?_ ?_ ?_ ?_ ?_)
    | simp only [changes_mk]
    | with_reducible intro _
    | split
    | dsimp only [id])

theorem laserMeasured_changes {Q : List Block} {s0 : State} {i : Nat} {power : BitVec 16} {s : State} (hq : subParts [.dev, .links] Q = true) (hk : OnlyChanges Q s0 s) :
    OnlyChanges Q s0 (laserMeasured i power s) := by
  unfold laserMeasured
  repeat' (first
    | with_reducible assumption
    | ((with_reducible refine .inr (subParts_mem hq ?_)); rfl)
    | with_reducible exact .inl rfl
    | with_reducible apply getD_changes
    | with_reducible apply noteErr_changes (hq := subParts_trans rfl hq)
    | with_reducible refine changes_ite ?_ ?_
    | (with_reducible refine changesParts_of ?_ ?_ ?_ ?_ ?_ ?_ ?_ ?_ ?_ ?_ ?_ ?_ ?_ ?_ ?_ ?_ ?_ ?_ ?_ ?_)
    | simp only [changes_mk]
    | with_reducible intro _
    | split
    | dsimp only [id])

theorem trainFail_changes {Q : List Block} {s0 : State} {n : Nat} {state : BitVec 4} {s : State}  (hq : subParts [.links] Q = true) (hk : OnlyChanges Q s0 s) :
    OnlyChanges Q s0 (trainFail n state s) := by
  unfold trainFail
  repeat' (first
    | with_reducible assumption
    | ((with_reducible refine .inr (subParts_mem hq ?_)); rfl)
    | with_reducible exact .inl rfl
    | with_reducible apply linkUpd_changes (hq := subParts_trans rfl hq)
    | with_reducible refine changes_ite ?_ ?_
    | (with_reducible refine changesParts_of ?_ ?_ ?_ ?_ ?_ ?_ ?_ ?_ ?_ ?_ ?_ ?_ ?_ ?_ ?_ ?_ ?_ ?_ ?_ ?_)
    | simp only [changes_mk]
    | with_reducible intro _
    | split
    | dsimp only [id])

theorem sendFrame_changes {Q : List Block} {s0 : State} {n : Nat} {seq : Nat} {e : TxHdr → Emit} {s : State} (hq : subParts [.links, .out] Q = true) (hk : OnlyChanges Q s0 s) :
    OnlyChanges Q s0 (sendFrame n seq e s) := by
  unfold sendFrame
  repeat' (first
    | with_reducible assumption
    | ((with_reducible refine .inr (subParts_mem hq ?_)); rfl)
    | with_reducible exact .inl rfl
    | with_reducible apply emit_changes (hq := subParts_trans rfl hq)
    | with_reducible apply linkUpd_changes (hq := subParts_trans rfl hq)
    | with_reducible refine changes_ite ?_ ?_
    | (with_reducible refine changesParts_of ?_ ?_ ?_ ?_ ?_ ?_ ?_ ?_ ?_ ?_ ?_ ?_ ?_ ?_ ?_ ?_ ?_ ?_ ?_ ?_)
    | simp only [changes_mk]
    | with_reducible intro _
    | split
    | dsimp only [id])

theorem sendKey_changes {Q : List Block} {s0 : State} {n : Nat} {k : KeyOut} {s : State} (hq : subParts [.links, .out] Q = true) (hk : OnlyChanges Q s0 s) :
    OnlyChanges Q s0 (sendKey n k s) := by
  unfold sendKey
  repeat' (first
    | with_reducible assumption
    | ((with_reducible refine .inr (subParts_mem hq ?_)); rfl)
    | with_reducible exact .inl rfl
    | with_reducible apply sendFrame_changes (hq := subParts_trans rfl hq)
    | with_reducible apply linkUpd_changes (hq := subParts_trans rfl hq)
    | with_reducible refine changes_ite ?_ ?_
    | (with_reducible refine changesParts_of ?_ ?_ ?_ ?_ ?_ ?_ ?_ ?_ ?_ ?_ ?_ ?_ ?_ ?_ ?_ ?_ ?_ ?_ ?_ ?_)
    | simp only [changes_mk]
    | with_reducible intro _
    | split
    | dsimp only [id])

theorem keysGo_changes {Q : List Block} {s0 : State} {n : Nat} {s : State} (hq : subParts [.links, .out] Q = true) (hk : OnlyChanges Q s0 s) :
    OnlyChanges Q s0 (keysGo n s) := by
  unfold keysGo
  repeat' (first
    | with_reducible assumption
    | ((with_reducible refine .inr (subParts_mem hq ?_)); rfl)
    | with_reducible exact .inl rfl
    | with_reducible apply foldl_changes
    | with_reducible apply foldl_changes_fst
    | with_reducible apply foldl_changes_snd
    | with_reducible apply sendKey_changes (hq := subParts_trans rfl hq)
    | with_reducible apply linkUpd_changes (hq := subParts_trans rfl hq)
    | with_reducible refine changes_ite ?_ ?_
    | (with_reducible refine changesParts_of ?_ ?_ ?_ ?_ ?_ ?_ ?_ ?_ ?_ ?_ ?_ ?_ ?_ ?_ ?_ ?_ ?_ ?_ ?_ ?_)
    | simp only [changes_mk]
    | with_reducible intro _
    | split
    | dsimp only [id])

theorem podPlaceAll_changes {Q : List Block} {s0 : State} {s : State} (hq : subParts [.rma, .links] Q = true) (hk : OnlyChanges Q s0 s) :
    OnlyChanges Q s0 (podPlaceAll s) := by
  unfold podPlaceAll
  repeat' (first
    | with_reducible assumption
    | ((with_reducible refine .inr (subParts_mem hq ?_)); rfl)
    | with_reducible exact .inl rfl
    | with_reducible apply foldl_changes
    | with_reducible apply foldl_changes_fst
    | with_reducible apply foldl_changes_snd
    | with_reducible apply podPlace_changes (hq := subParts_trans rfl hq)
    | with_reducible refine changes_ite ?_ ?_
    | (with_reducible refine changesParts_of ?_ ?_ ?_ ?_ ?_ ?_ ?_ ?_ ?_ ?_ ?_ ?_ ?_ ?_ ?_ ?_ ?_ ?_ ?_ ?_)
    | simp only [changes_mk]
    | with_reducible intro _
    | split
    | dsimp only [id])

theorem linkComesUp_changes {Q : List Block} {s0 : State} {n : Nat} {s : State} (hq : subParts [.repro, .near, .rma, .links, .out] Q = true) (hk : OnlyChanges Q s0 s) :
    OnlyChanges Q s0 (linkComesUp n s) := by
  unfold linkComesUp
  repeat' (first
    | with_reducible assumption
    | ((with_reducible refine .inr (subParts_mem hq ?_)); rfl)
    | with_reducible exact .inl rfl
    | with_reducible apply sendLstate_changes (hq := subParts_trans rfl hq)
    | with_reducible apply creditsRepath_changes (hq := subParts_trans rfl hq)
    | with_reducible apply rmaPump_changes (hq := subParts_trans rfl hq)
    | with_reducible apply podPlaceAll_changes (hq := subParts_trans rfl hq)
    | with_reducible apply sendKey_changes (hq := subParts_trans rfl hq)
    | with_reducible apply linkUpd_changes (hq := subParts_trans rfl hq)
    | with_reducible apply resendCredits_changes (hq := subParts_trans rfl hq)
    | with_reducible refine changes_ite ?_ ?_
    | (with_reducible refine changesParts_of ?_ ?_ ?_ ?_ ?_ ?_ ?_ ?_ ?_ ?_ ?_ ?_ ?_ ?_ ?_ ?_ ?_ ?_ ?_ ?_)
    | simp only [changes_mk]
    | with_reducible intro _
    | split
    | dsimp only [id])

theorem linkMeasured_changes {Q : List Block} {s0 : State} {r : PhaseResult} {s : State} (hq : subParts [.dev, .links] Q = true) (hk : OnlyChanges Q s0 s) :
    OnlyChanges Q s0 (linkMeasured r s) := by
  unfold linkMeasured
  repeat' (first
    | with_reducible assumption
    | ((with_reducible refine .inr (subParts_mem hq ?_)); rfl)
    | with_reducible exact .inl rfl
    | with_reducible apply laserMeasured_changes (hq := subParts_trans rfl hq)
    | with_reducible apply linkUpd_changes (hq := subParts_trans rfl hq)
    | with_reducible refine changes_ite ?_ ?_
    | (with_reducible refine changesParts_of ?_ ?_ ?_ ?_ ?_ ?_ ?_ ?_ ?_ ?_ ?_ ?_ ?_ ?_ ?_ ?_ ?_ ?_ ?_ ?_)
    | simp only [changes_mk]
    | with_reducible intro _
    | split
    | dsimp only [id])

theorem phaseNext_changes {Q : List Block} {s0 : State} {n : Nat} {s : State} (hq : subParts [.links, .out] Q = true) (hk : OnlyChanges Q s0 s) :
    OnlyChanges Q s0 (phaseNext n s) := by
  unfold phaseNext
  repeat' (first
    | with_reducible assumption
    | ((with_reducible refine .inr (subParts_mem hq ?_)); rfl)
    | with_reducible exact .inl rfl
    | with_reducible apply sendKey_changes (hq := subParts_trans rfl hq)
    | with_reducible apply linkUpd_changes (hq := subParts_trans rfl hq)
    | with_reducible refine changes_ite ?_ ?_
    | (with_reducible refine changesParts_of ?_ ?_ ?_ ?_ ?_ ?_ ?_ ?_ ?_ ?_ ?_ ?_ ?_ ?_ ?_ ?_ ?_ ?_ ?_ ?_)
    | simp only [changes_mk]
    | with_reducible intro _
    | split
    | dsimp only [id])

theorem phaseDone_changes {Q : List Block} {s0 : State} {r : PhaseResult} {s : State} (hq : subParts [.dev, .repro, .near, .rma, .links, .out] Q = true) (hk : OnlyChanges Q s0 s) :
    OnlyChanges Q s0 (phaseDone r s) := by
  unfold phaseDone
  repeat' (first
    | with_reducible assumption
    | ((with_reducible refine .inr (subParts_mem hq ?_)); rfl)
    | with_reducible exact .inl rfl
    | with_reducible apply noteErr_changes (hq := subParts_trans rfl hq)
    | with_reducible apply phaseNext_changes (hq := subParts_trans rfl hq)
    | with_reducible apply linkMeasured_changes (hq := subParts_trans rfl hq)
    | with_reducible apply linkComesUp_changes (hq := subParts_trans rfl hq)
    | with_reducible apply trainFail_changes (hq := subParts_trans rfl hq)
    | with_reducible apply linkUpd_changes (hq := subParts_trans rfl hq)
    | with_reducible refine changes_ite ?_ ?_
    | (with_reducible refine changesParts_of ?_ ?_ ?_ ?_ ?_ ?_ ?_ ?_ ?_ ?_ ?_ ?_ ?_ ?_ ?_ ?_ ?_ ?_ ?_ ?_)
    | simp only [changes_mk]
    | with_reducible intro _
    | split
    | dsimp only [id])

theorem takePhase_changes {Q : List Block} {s0 : State} {n : Nat} {f : Frame} {s : State}  (hq : subParts [.links] Q = true) (hk : OnlyChanges Q s0 s) :
    OnlyChanges Q s0 (takePhase n f s) := by
  unfold takePhase
  repeat' (first
    | with_reducible assumption
    | ((with_reducible refine .inr (subParts_mem hq ?_)); rfl)
    | with_reducible exact .inl rfl
    | with_reducible apply linkUpd_changes (hq := subParts_trans rfl hq)
    | with_reducible refine changes_ite ?_ ?_
    | (with_reducible refine changesParts_of ?_ ?_ ?_ ?_ ?_ ?_ ?_ ?_ ?_ ?_ ?_ ?_ ?_ ?_ ?_ ?_ ?_ ?_ ?_ ?_)
    | simp only [changes_mk]
    | with_reducible intro _
    | split
    | dsimp only [id])

theorem frameDiscard_changes {Q : List Block} {s0 : State} {n : Nat} {s : State} (hq : subParts [.links, .out] Q = true) (hk : OnlyChanges Q s0 s) :
    OnlyChanges Q s0 (frameDiscard n s) := by
  unfold frameDiscard
  repeat' (first
    | with_reducible assumption
    | ((with_reducible refine .inr (subParts_mem hq ?_)); rfl)
    | with_reducible exact .inl rfl
    | with_reducible apply sendFrame_changes (hq := subParts_trans rfl hq)
    | with_reducible refine changes_ite ?_ ?_
    | (with_reducible refine changesParts_of ?_ ?_ ?_ ?_ ?_ ?_ ?_ ?_ ?_ ?_ ?_ ?_ ?_ ?_ ?_ ?_ ?_ ?_ ?_ ?_)
    | simp only [changes_mk]
    | with_reducible intro _
    | split
    | dsimp only [id])

theorem takeAck_changes {Q : List Block} {s0 : State} {n : Nat} {f : Frame} {s : State} (hq : subParts [.links, .out] Q = true) (hk : OnlyChanges Q s0 s) :
    OnlyChanges Q s0 (takeAck n f s) := by
  unfold takeAck
  repeat' (first
    | with_reducible assumption
    | ((with_reducible refine .inr (subParts_mem hq ?_)); rfl)
    | with_reducible exact .inl rfl
    | with_reducible apply keysGo_changes (hq := subParts_trans rfl hq)
    | with_reducible apply linkUpd_changes (hq := subParts_trans rfl hq)
    | with_reducible refine changes_ite ?_ ?_
    | (with_reducible refine changesParts_of ?_ ?_ ?_ ?_ ?_ ?_ ?_ ?_ ?_ ?_ ?_ ?_ ?_ ?_ ?_ ?_ ?_ ?_ ?_ ?_)
    | simp only [changes_mk]
    | with_reducible intro _
    | split
    | dsimp only [id])

theorem takeCredits_changes {Q : List Block} {s0 : State} {n : Nat} {f : Frame} {s : State}  (hq : subParts [.links] Q = true) (hk : OnlyChanges Q s0 s) :
    OnlyChanges Q s0 (takeCredits n f s) := by
  unfold takeCredits
  repeat' (first
    | with_reducible assumption
    | ((with_reducible refine .inr (subParts_mem hq ?_)); rfl)
    | with_reducible exact .inl rfl
    | with_reducible apply foldl_changes
    | with_reducible apply foldl_changes_fst
    | with_reducible apply foldl_changes_snd
    | with_reducible apply getD_changes
    | with_reducible apply linkUpd_changes (hq := subParts_trans rfl hq)
    | with_reducible refine changes_ite ?_ ?_
    | (with_reducible refine changesParts_of ?_ ?_ ?_ ?_ ?_ ?_ ?_ ?_ ?_ ?_ ?_ ?_ ?_ ?_ ?_ ?_ ?_ ?_ ?_ ?_)
    | simp only [changes_mk]
    | with_reducible intro _
    | split
    | dsimp only [id])

theorem countCodewords_changes {Q : List Block} {s0 : State} {n : Nat} {f : Frame} {s : State} (hq : subParts [.links] Q = true) (hk : OnlyChanges Q s0 s) :
    OnlyChanges Q s0 (countCodewords n f s) := by
  unfold countCodewords
  repeat' (first
    | with_reducible assumption
    | ((with_reducible refine .inr (subParts_mem hq ?_)); rfl)
    | with_reducible exact .inl rfl
    | with_reducible apply linkUpd_changes (hq := subParts_trans rfl hq)
    | with_reducible refine changes_ite ?_ ?_
    | (with_reducible refine changesParts_of ?_ ?_ ?_ ?_ ?_ ?_ ?_ ?_ ?_ ?_ ?_ ?_ ?_ ?_ ?_ ?_ ?_ ?_ ?_ ?_)
    | simp only [changes_mk]
    | with_reducible intro _
    | split
    | dsimp only [id])

theorem frameChecked_changes {Q : List Block} {s0 : State} {f : Frame} {run : Nat → State → State} {s : State} (h_run : ∀ (y0 : Nat) (u : State), OnlyChanges Q s0 u → OnlyChanges Q s0 (run y0 u)) (hq : subParts [.dev, .links, .out] Q = true) (hk : OnlyChanges Q s0 s) :
    OnlyChanges Q s0 (frameChecked f run s) := by
  unfold frameChecked
  repeat' (first
    | with_reducible assumption
    | ((with_reducible refine .inr (subParts_mem hq ?_)); rfl)
    | with_reducible exact .inl rfl
    | with_reducible apply noteErr_changes (hq := subParts_trans rfl hq)
    | with_reducible apply countCodewords_changes (hq := subParts_trans rfl hq)
    | with_reducible apply frameDiscard_changes (hq := subParts_trans rfl hq)
    | with_reducible apply takePhase_changes (hq := subParts_trans rfl hq)
    | with_reducible apply linkUpd_changes (hq := subParts_trans rfl hq)
    | with_reducible apply h_run
    | with_reducible refine changes_ite ?_ ?_
    | (with_reducible refine changesParts_of ?_ ?_ ?_ ?_ ?_ ?_ ?_ ?_ ?_ ?_ ?_ ?_ ?_ ?_ ?_ ?_ ?_ ?_ ?_ ?_)
    | simp only [changes_mk]
    | with_reducible intro _
    | split
    | dsimp only [id])

theorem takeSegment_changes {Q : List Block} {s0 : State} {n : Nat} {g : Segment} {s : State}  (hq : subParts [.links] Q = true) (hk : OnlyChanges Q s0 s) :
    OnlyChanges Q s0 (takeSegment n g s) := by
  unfold takeSegment
  repeat' (first
    | with_reducible assumption
    | ((with_reducible refine .inr (subParts_mem hq ?_)); rfl)
    | with_reducible exact .inl rfl
    | with_reducible apply getD_changes
    | with_reducible apply linkUpd_changes (hq := subParts_trans rfl hq)
    | with_reducible refine changes_ite ?_ ?_
    | (with_reducible refine changesParts_of ?_ ?_ ?_ ?_ ?_ ?_ ?_ ?_ ?_ ?_ ?_ ?_ ?_ ?_ ?_ ?_ ?_ ?_ ?_ ?_)
    | simp only [changes_mk]
    | with_reducible intro _
    | split
    | dsimp only [id])

theorem inOrder_changes {Q : List Block} {s0 : State} {f : Frame} {run : State → State} {n : Nat} {s : State} (h_run : ∀ (u : State), OnlyChanges Q s0 u → OnlyChanges Q s0 (run u)) (hq : subParts [.links, .out] Q = true) (hk : OnlyChanges Q s0 s) :
    OnlyChanges Q s0 (inOrder f run n s) := by
  unfold inOrder
  repeat' (first
    | with_reducible assumption
    | ((with_reducible refine .inr (subParts_mem hq ?_)); rfl)
    | with_reducible exact .inl rfl
    | with_reducible apply frameDiscard_changes (hq := subParts_trans rfl hq)
    | with_reducible apply takeCredits_changes (hq := subParts_trans rfl hq)
    | with_reducible apply linkUpd_changes (hq := subParts_trans rfl hq)
    | with_reducible apply takeAck_changes (hq := subParts_trans rfl hq)
    | with_reducible apply h_run
    | with_reducible refine changes_ite ?_ ?_
    | (with_reducible refine changesParts_of ?_ ?_ ?_ ?_ ?_ ?_ ?_ ?_ ?_ ?_ ?_ ?_ ?_ ?_ ?_ ?_ ?_ ?_ ?_ ?_)
    | simp only [changes_mk]
    | with_reducible intro _
    | split
    | dsimp only [id])

theorem replayFrom_changes {Q : List Block} {s0 : State} {n : Nat} {seq : Nat} {s : State} (hq : subParts [.links, .out] Q = true) (hk : OnlyChanges Q s0 s) :
    OnlyChanges Q s0 (replayFrom n seq s) := by
  unfold replayFrom
  repeat' (first
    | with_reducible assumption
    | ((with_reducible refine .inr (subParts_mem hq ?_)); rfl)
    | with_reducible exact .inl rfl
    | with_reducible apply emit_changes (hq := subParts_trans rfl hq)
    | with_reducible apply linkUpd_changes (hq := subParts_trans rfl hq)
    | with_reducible refine changes_ite ?_ ?_
    | (with_reducible refine changesParts_of ?_ ?_ ?_ ?_ ?_ ?_ ?_ ?_ ?_ ?_ ?_ ?_ ?_ ?_ ?_ ?_ ?_ ?_ ?_ ?_)
    | simp only [changes_mk]
    | with_reducible intro _
    | split
    | dsimp only [id])

theorem sendFrames_changes {Q : List Block} {s0 : State} {n : Nat} {k : Nat} {s : State}  (hq : subParts [.links] Q = true) (hk : OnlyChanges Q s0 s) :
    OnlyChanges Q s0 (sendFrames n k s) := by
  unfold sendFrames
  repeat' (first
    | with_reducible assumption
    | ((with_reducible refine .inr (subParts_mem hq ?_)); rfl)
    | with_reducible exact .inl rfl
    | with_reducible apply linkUpd_changes (hq := subParts_trans rfl hq)
    | with_reducible refine changes_ite ?_ ?_
    | (with_reducible refine changesParts_of ?_ ?_ ?_ ?_ ?_ ?_ ?_ ?_ ?_ ?_ ?_ ?_ ?_ ?_ ?_ ?_ ?_ ?_ ?_ ?_)
    | simp only [changes_mk]
    | with_reducible intro _
    | split
    | dsimp only [id])

theorem takeRekey_changes {Q : List Block} {s0 : State} {n : Nat} {ok : Bool} {s : State} (hq : subParts [.links, .out] Q = true) (hk : OnlyChanges Q s0 s) :
    OnlyChanges Q s0 (takeRekey n ok s) := by
  unfold takeRekey
  repeat' (first
    | with_reducible assumption
    | ((with_reducible refine .inr (subParts_mem hq ?_)); rfl)
    | with_reducible exact .inl rfl
    | with_reducible apply sendKey_changes (hq := subParts_trans rfl hq)
    | with_reducible apply linkUpd_changes (hq := subParts_trans rfl hq)
    | with_reducible refine changes_ite ?_ ?_
    | (with_reducible refine changesParts_of ?_ ?_ ?_ ?_ ?_ ?_ ?_ ?_ ?_ ?_ ?_ ?_ ?_ ?_ ?_ ?_ ?_ ?_ ?_ ?_)
    | simp only [changes_mk]
    | with_reducible intro _
    | split
    | dsimp only [id])

theorem takeConfirm_changes {Q : List Block} {s0 : State} {n : Nat} {ok : Bool} {s : State} (hq : subParts [.links] Q = true) (hk : OnlyChanges Q s0 s) :
    OnlyChanges Q s0 (takeConfirm n ok s) := by
  unfold takeConfirm
  repeat' (first
    | with_reducible assumption
    | ((with_reducible refine .inr (subParts_mem hq ?_)); rfl)
    | with_reducible exact .inl rfl
    | with_reducible apply linkUpd_changes (hq := subParts_trans rfl hq)
    | with_reducible refine changes_ite ?_ ?_
    | (with_reducible refine changesParts_of ?_ ?_ ?_ ?_ ?_ ?_ ?_ ?_ ?_ ?_ ?_ ?_ ?_ ?_ ?_ ?_ ?_ ?_ ?_ ?_)
    | simp only [changes_mk]
    | with_reducible intro _
    | split
    | dsimp only [id])

theorem rekeyStart_changes {Q : List Block} {s0 : State} {n : Nat} {s : State} (hq : subParts [.links, .out] Q = true) (hk : OnlyChanges Q s0 s) :
    OnlyChanges Q s0 (rekeyStart n s) := by
  unfold rekeyStart
  repeat' (first
    | with_reducible assumption
    | ((with_reducible refine .inr (subParts_mem hq ?_)); rfl)
    | with_reducible exact .inl rfl
    | with_reducible apply sendKey_changes (hq := subParts_trans rfl hq)
    | with_reducible apply linkUpd_changes (hq := subParts_trans rfl hq)
    | with_reducible refine changes_ite ?_ ?_
    | (with_reducible refine changesParts_of ?_ ?_ ?_ ?_ ?_ ?_ ?_ ?_ ?_ ?_ ?_ ?_ ?_ ?_ ?_ ?_ ?_ ?_ ?_ ?_)
    | simp only [changes_mk]
    | with_reducible intro _
    | split
    | dsimp only [id])

theorem takeSession_changes {Q : List Block} {s0 : State} {f : Frame} {p : KeyPayload} {s : State} (hq : subParts [.links] Q = true) (hk : OnlyChanges Q s0 s) :
    OnlyChanges Q s0 (takeSession f p s) := by
  unfold takeSession
  repeat' (first
    | with_reducible assumption
    | ((with_reducible refine .inr (subParts_mem hq ?_)); rfl)
    | with_reducible exact .inl rfl
    | with_reducible apply linkUpd_changes (hq := subParts_trans rfl hq)
    | with_reducible refine changes_ite ?_ ?_
    | (with_reducible refine changesParts_of ?_ ?_ ?_ ?_ ?_ ?_ ?_ ?_ ?_ ?_ ?_ ?_ ?_ ?_ ?_ ?_ ?_ ?_ ?_ ?_)
    | simp only [changes_mk]
    | with_reducible intro _
    | split
    | dsimp only [id])

theorem takePodKey_changes {Q : List Block} {s0 : State} {gen : Word} {s : State} (hq : subParts [.sec, .repro, .rma, .links, .out] Q = true) (hk : OnlyChanges Q s0 s) :
    OnlyChanges Q s0 (takePodKey gen s) := by
  unfold takePodKey
  repeat' (first
    | with_reducible assumption
    | ((with_reducible refine .inr (subParts_mem hq ?_)); rfl)
    | with_reducible exact .inl rfl
    | with_reducible apply foldl_changes
    | with_reducible apply foldl_changes_fst
    | with_reducible apply foldl_changes_snd
    | with_reducible apply rmaPump_changes (hq := subParts_trans rfl hq)
    | with_reducible apply sendKey_changes (hq := subParts_trans rfl hq)
    | with_reducible apply fetchEnds_changes (hq := subParts_trans rfl hq)
    | with_reducible refine changes_ite ?_ ?_
    | (with_reducible refine changesParts_of ?_ ?_ ?_ ?_ ?_ ?_ ?_ ?_ ?_ ?_ ?_ ?_ ?_ ?_ ?_ ?_ ?_ ?_ ?_ ?_)
    | simp only [changes_mk]
    | with_reducible intro _
    | split
    | dsimp only [id])

theorem takeKey_changes {Q : List Block} {s0 : State} {p : KeyPayload} {n : Nat} {s : State} (hq : subParts [.sec, .repro, .rma, .links, .out] Q = true) (hk : OnlyChanges Q s0 s) :
    OnlyChanges Q s0 (takeKey p n s) := by
  unfold takeKey
  repeat' (first
    | with_reducible assumption
    | ((with_reducible refine .inr (subParts_mem hq ?_)); rfl)
    | with_reducible exact .inl rfl
    | with_reducible apply takePodKey_changes (hq := subParts_trans rfl hq)
    | with_reducible apply takeConfirm_changes (hq := subParts_trans rfl hq)
    | with_reducible apply takeRekey_changes (hq := subParts_trans rfl hq)
    | with_reducible refine changes_ite ?_ ?_
    | (with_reducible refine changesParts_of ?_ ?_ ?_ ?_ ?_ ?_ ?_ ?_ ?_ ?_ ?_ ?_ ?_ ?_ ?_ ?_ ?_ ?_ ?_ ?_)
    | simp only [changes_mk]
    | with_reducible intro _
    | split
    | dsimp only [id])

theorem stepCounter_changes {Q : List Block} {s0 : State} {m : Int} {s : State}  (hq : subParts [.repro, .tb] Q = true) (hk : OnlyChanges Q s0 s) :
    OnlyChanges Q s0 (stepCounter m s) := by
  unfold stepCounter
  repeat' (first
    | with_reducible assumption
    | ((with_reducible refine .inr (subParts_mem hq ?_)); rfl)
    | with_reducible exact .inl rfl
    | with_reducible refine changes_ite ?_ ?_
    | (with_reducible refine changesParts_of ?_ ?_ ?_ ?_ ?_ ?_ ?_ ?_ ?_ ?_ ?_ ?_ ?_ ?_ ?_ ?_ ?_ ?_ ?_ ?_)
    | simp only [changes_mk]
    | with_reducible intro _
    | split
    | dsimp only [id])

theorem takeMedian_changes {Q : List Block} {s0 : State} {m : Int} {s : State}  (hq : subParts [.dev, .repro] Q = true) (hk : OnlyChanges Q s0 s) :
    OnlyChanges Q s0 (takeMedian m s) := by
  unfold takeMedian
  repeat' (first
    | with_reducible assumption
    | ((with_reducible refine .inr (subParts_mem hq ?_)); rfl)
    | with_reducible exact .inl rfl
    | with_reducible apply noteErr_changes (hq := subParts_trans rfl hq)
    | with_reducible refine changes_ite ?_ ?_
    | (with_reducible refine changesParts_of ?_ ?_ ?_ ?_ ?_ ?_ ?_ ?_ ?_ ?_ ?_ ?_ ?_ ?_ ?_ ?_ ?_ ?_ ?_ ?_)
    | simp only [changes_mk]
    | with_reducible intro _
    | split
    | dsimp only [id])

theorem timeExchange_changes {Q : List Block} {s0 : State} {x : TimeExchange} {s : State}  (hq : subParts [.dev, .repro, .tb] Q = true) (hk : OnlyChanges Q s0 s) :
    OnlyChanges Q s0 (timeExchange x s) := by
  unfold timeExchange
  repeat' (first
    | with_reducible assumption
    | ((with_reducible refine .inr (subParts_mem hq ?_)); rfl)
    | with_reducible exact .inl rfl
    | with_reducible apply stepCounter_changes (hq := subParts_trans rfl hq)
    | with_reducible apply takeMedian_changes (hq := subParts_trans rfl hq)
    | with_reducible refine changes_ite ?_ ?_
    | (with_reducible refine changesParts_of ?_ ?_ ?_ ?_ ?_ ?_ ?_ ?_ ?_ ?_ ?_ ?_ ?_ ?_ ?_ ?_ ?_ ?_ ?_ ?_)
    | simp only [changes_mk]
    | with_reducible intro _
    | split
    | dsimp only [id])

theorem debit_changes {Q : List Block} {s0 : State} {n : Nat} {q : Queued} {s : State}  (hq : subParts [.links] Q = true) (hk : OnlyChanges Q s0 s) :
    OnlyChanges Q s0 (debit n q s) := by
  unfold debit
  repeat' (first
    | with_reducible assumption
    | ((with_reducible refine .inr (subParts_mem hq ?_)); rfl)
    | with_reducible exact .inl rfl
    | with_reducible apply getD_changes
    | with_reducible refine changes_ite ?_ ?_
    | (with_reducible refine changesParts_of ?_ ?_ ?_ ?_ ?_ ?_ ?_ ?_ ?_ ?_ ?_ ?_ ?_ ?_ ?_ ?_ ?_ ?_ ?_ ?_)
    | simp only [changes_mk]
    | with_reducible intro _
    | split
    | dsimp only [id])

theorem podAired_changes {Q : List Block} {s0 : State} {id : Nat} {s : State} (hq : subParts [.rma] Q = true) (hk : OnlyChanges Q s0 s) :
    OnlyChanges Q s0 (podAired id s) := by
  unfold podAired
  repeat' (first
    | with_reducible assumption
    | ((with_reducible refine .inr (subParts_mem hq ?_)); rfl)
    | with_reducible exact .inl rfl
    | with_reducible refine changes_ite ?_ ?_
    | (with_reducible refine changesParts_of ?_ ?_ ?_ ?_ ?_ ?_ ?_ ?_ ?_ ?_ ?_ ?_ ?_ ?_ ?_ ?_ ?_ ?_ ?_ ?_)
    | simp only [changes_mk]
    | with_reducible intro _
    | split
    | dsimp only [id])

theorem stampSent_changes {Q : List Block} {s0 : State} {p : Packet} {s : State} (hq : subParts [.near, .rma] Q = true) (hk : OnlyChanges Q s0 s) :
    OnlyChanges Q s0 (stampSent p s) := by
  unfold stampSent
  repeat' (first
    | with_reducible assumption
    | ((with_reducible refine .inr (subParts_mem hq ?_)); rfl)
    | with_reducible exact .inl rfl
    | with_reducible apply podAired_changes (hq := subParts_trans rfl hq)
    | with_reducible apply trayDstUpd_changes (hq := subParts_trans rfl hq)
    | with_reducible refine changes_ite ?_ ?_
    | (with_reducible refine changesParts_of ?_ ?_ ?_ ?_ ?_ ?_ ?_ ?_ ?_ ?_ ?_ ?_ ?_ ?_ ?_ ?_ ?_ ?_ ?_ ?_)
    | simp only [changes_mk]
    | with_reducible intro _
    | split
    | dsimp only [id])

theorem chargeLink_changes {Q : List Block} {s0 : State} {n : Nat} {q : Queued} {s : State}  (hq : subParts [.sched] Q = true) (hk : OnlyChanges Q s0 s) :
    OnlyChanges Q s0 (chargeLink n q s) := by
  unfold chargeLink
  repeat' (first
    | with_reducible assumption
    | ((with_reducible refine .inr (subParts_mem hq ?_)); rfl)
    | with_reducible exact .inl rfl
    | with_reducible apply meterAdd_changes (hq := subParts_trans rfl hq)
    | with_reducible refine changes_ite ?_ ?_
    | (with_reducible refine changesParts_of ?_ ?_ ?_ ?_ ?_ ?_ ?_ ?_ ?_ ?_ ?_ ?_ ?_ ?_ ?_ ?_ ?_ ?_ ?_ ?_)
    | simp only [changes_mk]
    | with_reducible intro _
    | split
    | dsimp only [id])

theorem sendPacket_changes {Q : List Block} {s0 : State} {n : Nat} {q : Queued} {s : State} (hq : subParts [.sched, .near, .rma, .links, .out] Q = true) (hk : OnlyChanges Q s0 s) :
    OnlyChanges Q s0 (sendPacket n q s) := by
  unfold sendPacket
  repeat' (first
    | with_reducible assumption
    | ((with_reducible refine .inr (subParts_mem hq ?_)); rfl)
    | with_reducible exact .inl rfl
    | with_reducible apply emit_changes (hq := subParts_trans rfl hq)
    | with_reducible apply chargeLink_changes (hq := subParts_trans rfl hq)
    | with_reducible apply stampSent_changes (hq := subParts_trans rfl hq)
    | with_reducible apply debit_changes (hq := subParts_trans rfl hq)
    | with_reducible apply sendFrames_changes (hq := subParts_trans rfl hq)
    | with_reducible apply linkUpd_changes (hq := subParts_trans rfl hq)
    | with_reducible refine changes_ite ?_ ?_
    | (with_reducible refine changesParts_of ?_ ?_ ?_ ?_ ?_ ?_ ?_ ?_ ?_ ?_ ?_ ?_ ?_ ?_ ?_ ?_ ?_ ?_ ?_ ?_)
    | simp only [changes_mk]
    | with_reducible intro _
    | split
    | dsimp only [id])

theorem dropQueued_changes {Q : List Block} {s0 : State} {n : Nat} {q : Queued} {s : State} (hq : subParts [.links] Q = true) (hk : OnlyChanges Q s0 s) :
    OnlyChanges Q s0 (dropQueued n q s) := by
  unfold dropQueued
  repeat' (first
    | with_reducible assumption
    | ((with_reducible refine .inr (subParts_mem hq ?_)); rfl)
    | with_reducible exact .inl rfl
    | with_reducible apply linkUpd_changes (hq := subParts_trans rfl hq)
    | with_reducible refine changes_ite ?_ ?_
    | (with_reducible refine changesParts_of ?_ ?_ ?_ ?_ ?_ ?_ ?_ ?_ ?_ ?_ ?_ ?_ ?_ ?_ ?_ ?_ ?_ ?_ ?_ ?_)
    | simp only [changes_mk]
    | with_reducible intro _
    | split
    | dsimp only [id])

theorem sendIdle_changes {Q : List Block} {s0 : State} {n : Nat} {s : State} (hq : subParts [.links, .out] Q = true) (hk : OnlyChanges Q s0 s) :
    OnlyChanges Q s0 (sendIdle n s) := by
  unfold sendIdle
  repeat' (first
    | with_reducible assumption
    | ((with_reducible refine .inr (subParts_mem hq ?_)); rfl)
    | with_reducible exact .inl rfl
    | with_reducible apply sendFrame_changes (hq := subParts_trans rfl hq)
    | with_reducible refine changes_ite ?_ ?_
    | (with_reducible refine changesParts_of ?_ ?_ ?_ ?_ ?_ ?_ ?_ ?_ ?_ ?_ ?_ ?_ ?_ ?_ ?_ ?_ ?_ ?_ ?_ ?_)
    | simp only [changes_mk]
    | with_reducible intro _
    | split
    | dsimp only [id])

theorem dispatch_changes {Q : List Block} {s0 : State} {n : Nat} {s : State} (hq : subParts [.sched, .near, .rma, .links, .out] Q = true) (hk : OnlyChanges Q s0 s) :
    OnlyChanges Q s0 (dispatch n s) := by
  unfold dispatch
  repeat' (first
    | with_reducible assumption
    | ((with_reducible refine .inr (subParts_mem hq ?_)); rfl)
    | with_reducible exact .inl rfl
    | with_reducible apply nearDrained_changes (hq := subParts_trans rfl hq)
    | with_reducible apply farDrained_changes (hq := subParts_trans rfl hq)
    | with_reducible apply sendIdle_changes (hq := subParts_trans rfl hq)
    | with_reducible apply dropQueued_changes (hq := subParts_trans rfl hq)
    | with_reducible apply sendPacket_changes (hq := subParts_trans rfl hq)
    | with_reducible apply rekeyStart_changes (hq := subParts_trans rfl hq)
    | with_reducible refine changes_ite ?_ ?_
    | (with_reducible refine changesParts_of ?_ ?_ ?_ ?_ ?_ ?_ ?_ ?_ ?_ ?_ ?_ ?_ ?_ ?_ ?_ ?_ ?_ ?_ ?_ ?_)
    | simp only [changes_mk]
    | with_reducible intro _
    | split
    | dsimp only [id])

end Sys2Proof.Machine
end

