-- ==== Sys2Proof/Laws/ChangesLink.lean ====
section
/-!
SUPPORT. The blocks of the state that the operations of Sys2Proof/Machine/Link.lean may change.
-/

namespace Sys2Proof.Machine

theorem execLinkTrainStart_changes {Q : List Block} {s0 : State} {n : LinkId} {s : State}  (hq : subParts [.links] Q = true) {tt : State} (hk : OnlyChanges Q s0 s) (eq_ : execLinkTrainStart n s = .next tt) : OnlyChanges Q s0 tt := by
  unfold execLinkTrainStart at eq_
  repeat' (first | split at eq_ | dsimp only at eq_)
  all_goals (first | (injection eq_ with eq_; subst eq_) | (cases eq_))
  repeat' (first
    | with_reducible assumption
    | ((with_reducible refine .inr (subParts_mem hq ?_)); rfl)
    | with_reducible exact .inl rfl
    | with_reducible apply trainStart_changes (hq := subParts_trans rfl hq)
    | with_reducible refine changes_ite ?_ ?_
    | (with_reducible refine changesParts_of ?_ ?_ ?_ ?_ ?_ ?_ ?_ ?_ ?_ ?_ ?_ ?_ ?_ ?_ ?_ ?_ ?_ ?_ ?_ ?_)
    | simp only [changes_mk]
    | with_reducible intro _
    | split
    | dsimp only [id])

theorem execLinkPhaseTimeout_changes {Q : List Block} {s0 : State} {n : LinkId} {s : State} {tt : State} (hq : subParts [.links] Q = true) (hk : OnlyChanges Q s0 s) (eq_ : execLinkPhaseTimeout n s = .next tt) : OnlyChanges Q s0 tt := by
  unfold execLinkPhaseTimeout at eq_
  repeat' (first | split at eq_ | dsimp only at eq_)
  all_goals (first | (injection eq_ with eq_; subst eq_) | (cases eq_))
  repeat' (first
    | with_reducible assumption
    | ((with_reducible refine .inr (subParts_mem hq ?_)); rfl)
    | with_reducible exact .inl rfl
    | with_reducible apply trainFail_changes (hq := subParts_trans rfl hq)
    | with_reducible refine changes_ite ?_ ?_
    | (with_reducible refine changesParts_of ?_ ?_ ?_ ?_ ?_ ?_ ?_ ?_ ?_ ?_ ?_ ?_ ?_ ?_ ?_ ?_ ?_ ?_ ?_ ?_)
    | simp only [changes_mk]
    | with_reducible intro _
    | split
    | dsimp only [id])

theorem execLinkPhaseDone_changes {Q : List Block} {s0 : State} {r : PhaseResult} {s : State}  (hq : subParts [.dev, .repro, .near, .rma, .links, .out] Q = true) {tt : State} (hk : OnlyChanges Q s0 s) (eq_ : execLinkPhaseDone r s = .next tt) : OnlyChanges Q s0 tt := by
  unfold execLinkPhaseDone at eq_
  repeat' (first | split at eq_ | dsimp only at eq_)
  all_goals (first | (injection eq_ with eq_; subst eq_) | (cases eq_))
  repeat' (first
    | with_reducible assumption
    | ((with_reducible refine .inr (subParts_mem hq ?_)); rfl)
    | with_reducible exact .inl rfl
    | with_reducible apply phaseDone_changes (hq := subParts_trans rfl hq)
    | with_reducible refine changes_ite ?_ ?_
    | (with_reducible refine changesParts_of ?_ ?_ ?_ ?_ ?_ ?_ ?_ ?_ ?_ ?_ ?_ ?_ ?_ ?_ ?_ ?_ ?_ ?_ ?_ ?_)
    | simp only [changes_mk]
    | with_reducible intro _
    | split
    | dsimp only [id])

theorem execLinkDown_changes {Q : List Block} {s0 : State} {n : LinkId} {c : DownCause} {s : State}  (hq : subParts [.dev, .near, .rma, .links] Q = true) {tt : State} (hk : OnlyChanges Q s0 s) (eq_ : execLinkDown n c s = .next tt) : OnlyChanges Q s0 tt := by
  unfold execLinkDown at eq_
  repeat' (first | split at eq_ | dsimp only at eq_)
  all_goals (first | (injection eq_ with eq_; subst eq_) | (cases eq_))
  repeat' (first
    | with_reducible assumption
    | ((with_reducible refine .inr (subParts_mem hq ?_)); rfl)
    | with_reducible exact .inl rfl
    | with_reducible apply linkGoesDown_changes (hq := subParts_trans rfl hq)
    | with_reducible apply nearDrained_changes (hq := subParts_trans rfl hq)
    | with_reducible apply farDrained_changes (hq := subParts_trans rfl hq)
    | with_reducible refine changes_ite ?_ ?_
    | (with_reducible refine changesParts_of ?_ ?_ ?_ ?_ ?_ ?_ ?_ ?_ ?_ ?_ ?_ ?_ ?_ ?_ ?_ ?_ ?_ ?_ ?_ ?_)
    | simp only [changes_mk]
    | with_reducible intro _
    | split
    | dsimp only [id])

theorem laserPower_changes {Q : List Block} {s0 : State} {i : Nat} {power : BitVec 16} {held : Bool} {s : State} (hq : subParts [.dev, .near, .rma, .links] Q = true) (hk : OnlyChanges Q s0 s) :
    OnlyChanges Q s0 (laserPower i power held s) := by
  unfold laserPower
  repeat' (first
    | with_reducible assumption
    | ((with_reducible refine .inr (subParts_mem hq ?_)); rfl)
    | with_reducible exact .inl rfl
    | with_reducible apply foldl_changes
    | with_reducible apply foldl_changes_fst
    | with_reducible apply foldl_changes_snd
    | with_reducible apply laserMeasured_changes (hq := subParts_trans rfl hq)
    | with_reducible apply linkGoesDown_changes (hq := subParts_trans rfl hq)
    | with_reducible refine changes_ite ?_ ?_
    | (with_reducible refine changesParts_of ?_ ?_ ?_ ?_ ?_ ?_ ?_ ?_ ?_ ?_ ?_ ?_ ?_ ?_ ?_ ?_ ?_ ?_ ?_ ?_)
    | simp only [changes_mk]
    | with_reducible intro _
    | split
    | dsimp only [id])

theorem execLaserLow_changes {Q : List Block} {s0 : State} {i : BitVec 3} {power : BitVec 16} {held : Bool} {s : State}  (hq : subParts [.dev, .near, .rma, .links] Q = true) {tt : State} (hk : OnlyChanges Q s0 s) (eq_ : execLaserLow i power held s = .next tt) : OnlyChanges Q s0 tt := by
  unfold execLaserLow at eq_
  repeat' (first | split at eq_ | dsimp only at eq_)
  all_goals (first | (injection eq_ with eq_; subst eq_) | (cases eq_))
  repeat' (first
    | with_reducible assumption
    | ((with_reducible refine .inr (subParts_mem hq ?_)); rfl)
    | with_reducible exact .inl rfl
    | with_reducible apply laserPower_changes (hq := subParts_trans rfl hq)
    | with_reducible refine changes_ite ?_ ?_
    | (with_reducible refine changesParts_of ?_ ?_ ?_ ?_ ?_ ?_ ?_ ?_ ?_ ?_ ?_ ?_ ?_ ?_ ?_ ?_ ?_ ?_ ?_ ?_)
    | simp only [changes_mk]
    | with_reducible intro _
    | split
    | dsimp only [id])

theorem execDataFrame_changes {Q : List Block} {s0 : State} {f : Frame} {s : State}  (hq : subParts [.dev, .links, .out] Q = true) {tt : State} (hk : OnlyChanges Q s0 s) (eq_ : execDataFrame f s = .next tt) : OnlyChanges Q s0 tt := by
  unfold execDataFrame at eq_
  repeat' (first | split at eq_ | dsimp only at eq_)
  all_goals (first | (injection eq_ with eq_; subst eq_) | (cases eq_))
  repeat' (first
    | with_reducible assumption
    | ((with_reducible refine .inr (subParts_mem hq ?_)); rfl)
    | with_reducible exact .inl rfl
    | with_reducible apply foldl_changes
    | with_reducible apply foldl_changes_fst
    | with_reducible apply foldl_changes_snd
    | with_reducible apply frameChecked_changes (hq := subParts_trans rfl hq)
    | with_reducible apply takeSegment_changes (hq := subParts_trans rfl hq)
    | with_reducible apply inOrder_changes (hq := subParts_trans rfl hq)
    | with_reducible refine changes_ite ?_ ?_
    | (with_reducible refine changesParts_of ?_ ?_ ?_ ?_ ?_ ?_ ?_ ?_ ?_ ?_ ?_ ?_ ?_ ?_ ?_ ?_ ?_ ?_ ?_ ?_)
    | simp only [changes_mk]
    | with_reducible intro _
    | split
    | dsimp only [id])

theorem execIdleFrame_changes {Q : List Block} {s0 : State} {f : Frame} {s : State}  (hq : subParts [.dev, .links, .out] Q = true) {tt : State} (hk : OnlyChanges Q s0 s) (eq_ : execIdleFrame f s = .next tt) : OnlyChanges Q s0 tt := by
  unfold execIdleFrame at eq_
  repeat' (first | split at eq_ | dsimp only at eq_)
  all_goals (first | (injection eq_ with eq_; subst eq_) | (cases eq_))
  repeat' (first
    | with_reducible assumption
    | ((with_reducible refine .inr (subParts_mem hq ?_)); rfl)
    | with_reducible exact .inl rfl
    | with_reducible apply frameChecked_changes (hq := subParts_trans rfl hq)
    | with_reducible apply takeCredits_changes (hq := subParts_trans rfl hq)
    | with_reducible apply takeAck_changes (hq := subParts_trans rfl hq)
    | with_reducible refine changes_ite ?_ ?_
    | (with_reducible refine changesParts_of ?_ ?_ ?_ ?_ ?_ ?_ ?_ ?_ ?_ ?_ ?_ ?_ ?_ ?_ ?_ ?_ ?_ ?_ ?_ ?_)
    | simp only [changes_mk]
    | with_reducible intro _
    | split
    | dsimp only [id])

theorem execNakFrame_changes {Q : List Block} {s0 : State} {f : Frame} {s : State}  (hq : subParts [.dev, .links, .out] Q = true) {tt : State} (hk : OnlyChanges Q s0 s) (eq_ : execNakFrame f s = .next tt) : OnlyChanges Q s0 tt := by
  unfold execNakFrame at eq_
  repeat' (first | split at eq_ | dsimp only at eq_)
  all_goals (first | (injection eq_ with eq_; subst eq_) | (cases eq_))
  repeat' (first
    | with_reducible assumption
    | ((with_reducible refine .inr (subParts_mem hq ?_)); rfl)
    | with_reducible exact .inl rfl
    | with_reducible apply frameChecked_changes (hq := subParts_trans rfl hq)
    | with_reducible apply takeCredits_changes (hq := subParts_trans rfl hq)
    | with_reducible apply replayFrom_changes (hq := subParts_trans rfl hq)
    | with_reducible apply takeAck_changes (hq := subParts_trans rfl hq)
    | with_reducible refine changes_ite ?_ ?_
    | (with_reducible refine changesParts_of ?_ ?_ ?_ ?_ ?_ ?_ ?_ ?_ ?_ ?_ ?_ ?_ ?_ ?_ ?_ ?_ ?_ ?_ ?_ ?_)
    | simp only [changes_mk]
    | with_reducible intro _
    | split
    | dsimp only [id])

theorem execKeyFrame_changes {Q : List Block} {s0 : State} {f : Frame} {p : KeyPayload} {s : State} {tt : State} (hq : subParts [.dev, .sec, .repro, .rma, .links, .out] Q = true) (hk : OnlyChanges Q s0 s) (eq_ : execKeyFrame f p s = .next tt) : OnlyChanges Q s0 tt := by
  unfold execKeyFrame at eq_
  repeat' (first | split at eq_ | dsimp only at eq_)
  all_goals (first | (injection eq_ with eq_; subst eq_) | (cases eq_))
  repeat' (first
    | with_reducible assumption
    | ((with_reducible refine .inr (subParts_mem hq ?_)); rfl)
    | with_reducible exact .inl rfl
    | with_reducible apply takeKey_changes (hq := subParts_trans rfl hq)
    | with_reducible apply takeSession_changes (hq := subParts_trans rfl hq)
    | with_reducible apply frameChecked_changes (hq := subParts_trans rfl hq)
    | with_reducible apply takeCredits_changes (hq := subParts_trans rfl hq)
    | with_reducible apply takeAck_changes (hq := subParts_trans rfl hq)
    | with_reducible refine changes_ite ?_ ?_
    | (with_reducible refine changesParts_of ?_ ?_ ?_ ?_ ?_ ?_ ?_ ?_ ?_ ?_ ?_ ?_ ?_ ?_ ?_ ?_ ?_ ?_ ?_ ?_)
    | simp only [changes_mk]
    | with_reducible intro _
    | split
    | dsimp only [id])

theorem execTimeFrame_changes {Q : List Block} {s0 : State} {f : Frame} {x : TimeExchange} {s : State}  (hq : subParts [.dev, .repro, .links, .tb, .out] Q = true) {tt : State} (hk : OnlyChanges Q s0 s) (eq_ : execTimeFrame f x s = .next tt) : OnlyChanges Q s0 tt := by
  unfold execTimeFrame at eq_
  repeat' (first | split at eq_ | dsimp only at eq_)
  all_goals (first | (injection eq_ with eq_; subst eq_) | (cases eq_))
  repeat' (first
    | with_reducible assumption
    | ((with_reducible refine .inr (subParts_mem hq ?_)); rfl)
    | with_reducible exact .inl rfl
    | with_reducible apply frameChecked_changes (hq := subParts_trans rfl hq)
    | with_reducible apply timeExchange_changes (hq := subParts_trans rfl hq)
    | with_reducible apply inOrder_changes (hq := subParts_trans rfl hq)
    | with_reducible refine changes_ite ?_ ?_
    | (with_reducible refine changesParts_of ?_ ?_ ?_ ?_ ?_ ?_ ?_ ?_ ?_ ?_ ?_ ?_ ?_ ?_ ?_ ?_ ?_ ?_ ?_ ?_)
    | simp only [changes_mk]
    | with_reducible intro _
    | split
    | dsimp only [id])

theorem execRekey_changes {Q : List Block} {s0 : State} {n : LinkId} {s : State} {tt : State} (hq : subParts [.links, .out] Q = true) (hk : OnlyChanges Q s0 s) (eq_ : execRekey n s = .next tt) : OnlyChanges Q s0 tt := by
  unfold execRekey at eq_
  repeat' (first | split at eq_ | dsimp only at eq_)
  all_goals (first | (injection eq_ with eq_; subst eq_) | (cases eq_))
  repeat' (first
    | with_reducible assumption
    | ((with_reducible refine .inr (subParts_mem hq ?_)); rfl)
    | with_reducible exact .inl rfl
    | with_reducible apply rekeyStart_changes (hq := subParts_trans rfl hq)
    | with_reducible refine changes_ite ?_ ?_
    | (with_reducible refine changesParts_of ?_ ?_ ?_ ?_ ?_ ?_ ?_ ?_ ?_ ?_ ?_ ?_ ?_ ?_ ?_ ?_ ?_ ?_ ?_ ?_)
    | simp only [changes_mk]
    | with_reducible intro _
    | split
    | dsimp only [id])

theorem execEgressDispatch_changes {Q : List Block} {s0 : State} {n : LinkId} {s : State}  (hq : subParts [.sched, .near, .rma, .links, .out] Q = true) {tt : State} (hk : OnlyChanges Q s0 s) (eq_ : execEgressDispatch n s = .next tt) : OnlyChanges Q s0 tt := by
  unfold execEgressDispatch at eq_
  repeat' (first | split at eq_ | dsimp only at eq_)
  all_goals (first | (injection eq_ with eq_; subst eq_) | (cases eq_))
  repeat' (first
    | with_reducible assumption
    | ((with_reducible refine .inr (subParts_mem hq ?_)); rfl)
    | with_reducible exact .inl rfl
    | with_reducible apply dispatch_changes (hq := subParts_trans rfl hq)
    | with_reducible refine changes_ite ?_ ?_
    | (with_reducible refine changesParts_of ?_ ?_ ?_ ?_ ?_ ?_ ?_ ?_ ?_ ?_ ?_ ?_ ?_ ?_ ?_ ?_ ?_ ?_ ?_ ?_)
    | simp only [changes_mk]
    | with_reducible intro _
    | split
    | dsimp only [id])

theorem linkSettings_changes {Q : List Block} {s0 : State} {w : CtlWrite} {s : State}  (hq : subParts [.links] Q = true) (hk : OnlyChanges Q s0 s) :
    OnlyChanges Q s0 (linkSettings w s) := by
  unfold linkSettings
  repeat' (first
    | with_reducible assumption
    | ((with_reducible refine .inr (subParts_mem hq ?_)); rfl)
    | with_reducible exact .inl rfl
    | with_reducible refine changes_ite ?_ ?_
    | (with_reducible refine changesParts_of ?_ ?_ ?_ ?_ ?_ ?_ ?_ ?_ ?_ ?_ ?_ ?_ ?_ ?_ ?_ ?_ ?_ ?_ ?_ ?_)
    | simp only [changes_mk]
    | with_reducible intro _
    | split
    | dsimp only [id])

theorem linkCtl_changes {Q : List Block} {s0 : State} {w : CtlWrite} {own : Nat} {run : State → State} {s : State} (h_run : ∀ (u : State), OnlyChanges Q s0 u → OnlyChanges Q s0 (run u)) (hq : subParts [.links] Q = true) (hk : OnlyChanges Q s0 s) :
    OnlyChanges Q s0 (linkCtl w own run s) := by
  unfold linkCtl
  repeat' (first
    | with_reducible assumption
    | ((with_reducible refine .inr (subParts_mem hq ?_)); rfl)
    | with_reducible exact .inl rfl
    | with_reducible apply linkSettings_changes (hq := subParts_trans rfl hq)
    | with_reducible apply ctl_changes (hq := subParts_trans rfl hq)
    | with_reducible apply h_run
    | with_reducible refine changes_ite ?_ ?_
    | (with_reducible refine changesParts_of ?_ ?_ ?_ ?_ ?_ ?_ ?_ ?_ ?_ ?_ ?_ ?_ ?_ ?_ ?_ ?_ ?_ ?_ ?_ ?_)
    | simp only [changes_mk]
    | with_reducible intro _
    | split
    | dsimp only [id])

theorem retrain_changes {Q : List Block} {s0 : State} {s : State}  (hq : subParts [.dev, .near, .rma, .links] Q = true) (hk : OnlyChanges Q s0 s) :
    OnlyChanges Q s0 (retrain s) := by
  unfold retrain
  repeat' (first
    | with_reducible assumption
    | ((with_reducible refine .inr (subParts_mem hq ?_)); rfl)
    | with_reducible exact .inl rfl
    | with_reducible apply linkGoesDown_changes (hq := subParts_trans rfl hq)
    | with_reducible apply trainStart_changes (hq := subParts_trans rfl hq)
    | with_reducible apply linkUpd_changes (hq := subParts_trans rfl hq)
    | with_reducible refine changes_ite ?_ ?_
    | (with_reducible refine changesParts_of ?_ ?_ ?_ ?_ ?_ ?_ ?_ ?_ ?_ ?_ ?_ ?_ ?_ ?_ ?_ ?_ ?_ ?_ ?_ ?_)
    | simp only [changes_mk]
    | with_reducible intro _
    | split
    | dsimp only [id])

theorem execRetrain_changes {Q : List Block} {s0 : State} {w : CtlWrite} {s : State}  (hq : subParts [.dev, .near, .rma, .links] Q = true) {tt : State} (hk : OnlyChanges Q s0 s) (eq_ : execRetrain w s = .next tt) : OnlyChanges Q s0 tt := by
  unfold execRetrain at eq_
  repeat' (first | split at eq_ | dsimp only at eq_)
  all_goals (first | (injection eq_ with eq_; subst eq_) | (cases eq_))
  repeat' (first
    | with_reducible assumption
    | ((with_reducible refine .inr (subParts_mem hq ?_)); rfl)
    | with_reducible exact .inl rfl
    | with_reducible apply linkCtl_changes (hq := subParts_trans rfl hq)
    | with_reducible apply retrain_changes (hq := subParts_trans rfl hq)
    | with_reducible refine changes_ite ?_ ?_
    | (with_reducible refine changesParts_of ?_ ?_ ?_ ?_ ?_ ?_ ?_ ?_ ?_ ?_ ?_ ?_ ?_ ?_ ?_ ?_ ?_ ?_ ?_ ?_)
    | simp only [changes_mk]
    | with_reducible intro _
    | split
    | dsimp only [id])

theorem execLinkClr_changes {Q : List Block} {s0 : State} {w : CtlWrite} {s : State}  (hq : subParts [.links] Q = true) {tt : State} (hk : OnlyChanges Q s0 s) (eq_ : execLinkClr w s = .next tt) : OnlyChanges Q s0 tt := by
  unfold execLinkClr at eq_
  repeat' (first | split at eq_ | dsimp only at eq_)
  all_goals (first | (injection eq_ with eq_; subst eq_) | (cases eq_))
  repeat' (first
    | with_reducible assumption
    | ((with_reducible refine .inr (subParts_mem hq ?_)); rfl)
    | with_reducible exact .inl rfl
    | with_reducible apply linkCtl_changes (hq := subParts_trans rfl hq)
    | with_reducible refine changes_ite ?_ ?_
    | (with_reducible refine changesParts_of ?_ ?_ ?_ ?_ ?_ ?_ ?_ ?_ ?_ ?_ ?_ ?_ ?_ ?_ ?_ ?_ ?_ ?_ ?_ ?_)
    | simp only [changes_mk]
    | with_reducible intro _
    | split
    | dsimp only [id])

theorem farFollow_changes {Q : List Block} {s0 : State} {k : Nat} {off : Bool} {s : State}  (hq : subParts [.links] Q = true) (hk : OnlyChanges Q s0 s) :
    OnlyChanges Q s0 (farFollow k off s) := by
  unfold farFollow
  repeat' (first
    | with_reducible assumption
    | ((with_reducible refine .inr (subParts_mem hq ?_)); rfl)
    | with_reducible exact .inl rfl
    | with_reducible apply linkUpd_changes (hq := subParts_trans rfl hq)
    | with_reducible refine changes_ite ?_ ?_
    | (with_reducible refine changesParts_of ?_ ?_ ?_ ?_ ?_ ?_ ?_ ?_ ?_ ?_ ?_ ?_ ?_ ?_ ?_ ?_ ?_ ?_ ?_ ?_)
    | simp only [changes_mk]
    | with_reducible intro _
    | split
    | dsimp only [id])

theorem execLinkFarDisable_changes {Q : List Block} {s0 : State} {fn : FnId} {v : Word} {s : State}  (hq : subParts [.links] Q = true) {tt : State} (hk : OnlyChanges Q s0 s) (eq_ : execLinkFarDisable fn v s = .next tt) : OnlyChanges Q s0 tt := by
  unfold execLinkFarDisable at eq_
  repeat' (first | split at eq_ | dsimp only at eq_)
  all_goals (first | (injection eq_ with eq_; subst eq_) | (cases eq_))
  repeat' (first
    | with_reducible assumption
    | ((with_reducible refine .inr (subParts_mem hq ?_)); rfl)
    | with_reducible exact .inl rfl
    | with_reducible apply foldl_changes
    | with_reducible apply foldl_changes_fst
    | with_reducible apply foldl_changes_snd
    | with_reducible apply farDrained_changes (hq := subParts_trans rfl hq)
    | with_reducible apply farFollow_changes (hq := subParts_trans rfl hq)
    | with_reducible refine changes_ite ?_ ?_
    | (with_reducible refine changesParts_of ?_ ?_ ?_ ?_ ?_ ?_ ?_ ?_ ?_ ?_ ?_ ?_ ?_ ?_ ?_ ?_ ?_ ?_ ?_ ?_)
    | simp only [changes_mk]
    | with_reducible intro _
    | split
    | dsimp only [id])

theorem telUpd_changes {Q : List Block} {s0 : State} {die : Nat} {f : TelRing → TelRing} {s : State}  (hq : subParts [.links] Q = true) (hk : OnlyChanges Q s0 s) :
    OnlyChanges Q s0 (telUpd die f s) := by
  unfold telUpd
  repeat' (first
    | with_reducible assumption
    | ((with_reducible refine .inr (subParts_mem hq ?_)); rfl)
    | with_reducible exact .inl rfl
    | with_reducible refine changes_ite ?_ ?_
    | (with_reducible refine changesParts_of ?_ ?_ ?_ ?_ ?_ ?_ ?_ ?_ ?_ ?_ ?_ ?_ ?_ ?_ ?_ ?_ ?_ ?_ ?_ ?_)
    | simp only [changes_mk]
    | with_reducible intro _
    | split
    | dsimp only [id])

theorem telRecord_changes {Q : List Block} {s0 : State} {die : Nat} {fields : List Nat} {s : State}  (hq : subParts [.links, .out] Q = true) (hk : OnlyChanges Q s0 s) :
    OnlyChanges Q s0 (telRecord die fields s) := by
  unfold telRecord
  repeat' (first
    | with_reducible assumption
    | ((with_reducible refine .inr (subParts_mem hq ?_)); rfl)
    | with_reducible exact .inl rfl
    | with_reducible apply telUpd_changes (hq := subParts_trans rfl hq)
    | with_reducible apply emit_changes (hq := subParts_trans rfl hq)
    | with_reducible refine changes_ite ?_ ?_
    | (with_reducible refine changesParts_of ?_ ?_ ?_ ?_ ?_ ?_ ?_ ?_ ?_ ?_ ?_ ?_ ?_ ?_ ?_ ?_ ?_ ?_ ?_ ?_)
    | simp only [changes_mk]
    | with_reducible intro _
    | split
    | dsimp only [id])

theorem telSample_changes {Q : List Block} {s0 : State} {s : State}  (hq : subParts [.links, .out] Q = true) (hk : OnlyChanges Q s0 s) :
    OnlyChanges Q s0 (telSample s) := by
  unfold telSample
  repeat' (first
    | with_reducible assumption
    | ((with_reducible refine .inr (subParts_mem hq ?_)); rfl)
    | with_reducible exact .inl rfl
    | with_reducible apply foldl_changes
    | with_reducible apply foldl_changes_fst
    | with_reducible apply foldl_changes_snd
    | with_reducible apply telRecord_changes (hq := subParts_trans rfl hq)
    | with_reducible apply linkUpd_changes (hq := subParts_trans rfl hq)
    | with_reducible refine changes_ite ?_ ?_
    | (with_reducible refine changesParts_of ?_ ?_ ?_ ?_ ?_ ?_ ?_ ?_ ?_ ?_ ?_ ?_ ?_ ?_ ?_ ?_ ?_ ?_ ?_ ?_)
    | simp only [changes_mk]
    | with_reducible intro _
    | split
    | dsimp only [id])

theorem shaperApply_changes {Q : List Block} {s0 : State} {s : State}  (hq : subParts [.links] Q = true) (hk : OnlyChanges Q s0 s) :
    OnlyChanges Q s0 (shaperApply s) := by
  unfold shaperApply
  repeat' (first
    | with_reducible assumption
    | ((with_reducible refine .inr (subParts_mem hq ?_)); rfl)
    | with_reducible exact .inl rfl
    | with_reducible refine changes_ite ?_ ?_
    | (with_reducible refine changesParts_of ?_ ?_ ?_ ?_ ?_ ?_ ?_ ?_ ?_ ?_ ?_ ?_ ?_ ?_ ?_ ?_ ?_ ?_ ?_ ?_)
    | simp only [changes_mk]
    | with_reducible intro _
    | split
    | dsimp only [id])

theorem refill_changes {Q : List Block} {s0 : State} {s : State}  (hq : subParts [.links] Q = true) (hk : OnlyChanges Q s0 s) :
    OnlyChanges Q s0 (refill s) := by
  unfold refill
  repeat' (first
    | with_reducible assumption
    | ((with_reducible refine .inr (subParts_mem hq ?_)); rfl)
    | with_reducible exact .inl rfl
    | with_reducible apply foldl_changes
    | with_reducible apply foldl_changes_fst
    | with_reducible apply foldl_changes_snd
    | with_reducible apply getD_changes
    | with_reducible refine changes_ite ?_ ?_
    | (with_reducible refine changesParts_of ?_ ?_ ?_ ?_ ?_ ?_ ?_ ?_ ?_ ?_ ?_ ?_ ?_ ?_ ?_ ?_ ?_ ?_ ?_ ?_)
    | simp only [changes_mk]
    | with_reducible intro _
    | split
    | dsimp only [id])

theorem execShaperRefillTick_changes {Q : List Block} {s0 : State} {s : State}  (hq : subParts [.links, .out] Q = true) {tt : State} (hk : OnlyChanges Q s0 s) (eq_ : execShaperRefillTick s = .next tt) : OnlyChanges Q s0 tt := by
  unfold execShaperRefillTick at eq_
  repeat' (first | split at eq_ | dsimp only at eq_)
  all_goals (first | (injection eq_ with eq_; subst eq_) | (cases eq_))
  repeat' (first
    | with_reducible assumption
    | ((with_reducible refine .inr (subParts_mem hq ?_)); rfl)
    | with_reducible exact .inl rfl
    | with_reducible apply shaperApply_changes (hq := subParts_trans rfl hq)
    | with_reducible apply telSample_changes (hq := subParts_trans rfl hq)
    | with_reducible apply refill_changes (hq := subParts_trans rfl hq)
    | with_reducible refine changes_ite ?_ ?_
    | (with_reducible refine changesParts_of ?_ ?_ ?_ ?_ ?_ ?_ ?_ ?_ ?_ ?_ ?_ ?_ ?_ ?_ ?_ ?_ ?_ ?_ ?_ ?_)
    | simp only [changes_mk]
    | with_reducible intro _
    | split
    | dsimp only [id])

theorem shaperCode_changes {Q : List Block} {s0 : State} {c : Status} {s : State}  (hq : subParts [.links] Q = true) (hk : OnlyChanges Q s0 s) :
    OnlyChanges Q s0 (shaperCode c s) := by
  unfold shaperCode
  repeat' (first
    | with_reducible assumption
    | ((with_reducible refine .inr (subParts_mem hq ?_)); rfl)
    | with_reducible exact .inl rfl
    | with_reducible refine changes_ite ?_ ?_
    | (with_reducible refine changesParts_of ?_ ?_ ?_ ?_ ?_ ?_ ?_ ?_ ?_ ?_ ?_ ?_ ?_ ?_ ?_ ?_ ?_ ?_ ?_ ?_)
    | simp only [changes_mk]
    | with_reducible intro _
    | split
    | dsimp only [id])

theorem shaperSettings_changes {Q : List Block} {s0 : State} {w : CtlWrite} {s : State}  (hq : subParts [.links] Q = true) (hk : OnlyChanges Q s0 s) :
    OnlyChanges Q s0 (shaperSettings w s) := by
  unfold shaperSettings
  repeat' (first
    | with_reducible assumption
    | ((with_reducible refine .inr (subParts_mem hq ?_)); rfl)
    | with_reducible exact .inl rfl
    | with_reducible refine changes_ite ?_ ?_
    | (with_reducible refine changesParts_of ?_ ?_ ?_ ?_ ?_ ?_ ?_ ?_ ?_ ?_ ?_ ?_ ?_ ?_ ?_ ?_ ?_ ?_ ?_ ?_)
    | simp only [changes_mk]
    | with_reducible intro _
    | split
    | dsimp only [id])

theorem shaperCtl_changes {Q : List Block} {s0 : State} {w : CtlWrite} {own : Nat} {run : State → State} {s : State} (h_run : ∀ (u : State), OnlyChanges Q s0 u → OnlyChanges Q s0 (run u)) (hq : subParts [.links] Q = true) (hk : OnlyChanges Q s0 s) :
    OnlyChanges Q s0 (shaperCtl w own run s) := by
  unfold shaperCtl
  repeat' (first
    | with_reducible assumption
    | ((with_reducible refine .inr (subParts_mem hq ?_)); rfl)
    | with_reducible exact .inl rfl
    | with_reducible apply ctl_changes (hq := subParts_trans rfl hq)
    | with_reducible apply shaperSettings_changes (hq := subParts_trans rfl hq)
    | with_reducible apply shaperCode_changes (hq := subParts_trans rfl hq)
    | with_reducible apply h_run
    | with_reducible refine changes_ite ?_ ?_
    | (with_reducible refine changesParts_of ?_ ?_ ?_ ?_ ?_ ?_ ?_ ?_ ?_ ?_ ?_ ?_ ?_ ?_ ?_ ?_ ?_ ?_ ?_ ?_)
    | simp only [changes_mk]
    | with_reducible intro _
    | split
    | dsimp only [id])

theorem execShaperCommit_changes {Q : List Block} {s0 : State} {w : CtlWrite} {s : State} {tt : State} (hq : subParts [.links] Q = true) (hk : OnlyChanges Q s0 s) (eq_ : execShaperCommit w s = .next tt) : OnlyChanges Q s0 tt := by
  unfold execShaperCommit at eq_
  repeat' (first | split at eq_ | dsimp only at eq_)
  all_goals (first | (injection eq_ with eq_; subst eq_) | (cases eq_))
  repeat' (first
    | with_reducible assumption
    | ((with_reducible refine .inr (subParts_mem hq ?_)); rfl)
    | with_reducible exact .inl rfl
    | with_reducible apply shaperCtl_changes (hq := subParts_trans rfl hq)
    | with_reducible apply shaperCode_changes (hq := subParts_trans rfl hq)
    | with_reducible refine changes_ite ?_ ?_
    | (with_reducible refine changesParts_of ?_ ?_ ?_ ?_ ?_ ?_ ?_ ?_ ?_ ?_ ?_ ?_ ?_ ?_ ?_ ?_ ?_ ?_ ?_ ?_)
    | simp only [changes_mk]
    | with_reducible intro _
    | split
    | dsimp only [id])

theorem execTelEn_changes {Q : List Block} {s0 : State} {w : CtlWrite} {s : State}  (hq : subParts [.links] Q = true) {tt : State} (hk : OnlyChanges Q s0 s) (eq_ : execTelEn w s = .next tt) : OnlyChanges Q s0 tt := by
  unfold execTelEn at eq_
  repeat' (first | split at eq_ | dsimp only at eq_)
  all_goals (first | (injection eq_ with eq_; subst eq_) | (cases eq_))
  repeat' (first
    | with_reducible assumption
    | ((with_reducible refine .inr (subParts_mem hq ?_)); rfl)
    | with_reducible exact .inl rfl
    | with_reducible apply shaperSettings_changes (hq := subParts_trans rfl hq)
    | with_reducible refine changes_ite ?_ ?_
    | (with_reducible refine changesParts_of ?_ ?_ ?_ ?_ ?_ ?_ ?_ ?_ ?_ ?_ ?_ ?_ ?_ ?_ ?_ ?_ ?_ ?_ ?_ ?_)
    | simp only [changes_mk]
    | with_reducible intro _
    | split
    | dsimp only [id])

theorem execShaperClr_changes {Q : List Block} {s0 : State} {w : CtlWrite} {s : State}  (hq : subParts [.links] Q = true) {tt : State} (hk : OnlyChanges Q s0 s) (eq_ : execShaperClr w s = .next tt) : OnlyChanges Q s0 tt := by
  unfold execShaperClr at eq_
  repeat' (first | split at eq_ | dsimp only at eq_)
  all_goals (first | (injection eq_ with eq_; subst eq_) | (cases eq_))
  repeat' (first
    | with_reducible assumption
    | ((with_reducible refine .inr (subParts_mem hq ?_)); rfl)
    | with_reducible exact .inl rfl
    | with_reducible apply shaperCode_changes (hq := subParts_trans rfl hq)
    | with_reducible apply shaperCtl_changes (hq := subParts_trans rfl hq)
    | with_reducible refine changes_ite ?_ ?_
    | (with_reducible refine changesParts_of ?_ ?_ ?_ ?_ ?_ ?_ ?_ ?_ ?_ ?_ ?_ ?_ ?_ ?_ ?_ ?_ ?_ ?_ ?_ ?_)
    | simp only [changes_mk]
    | with_reducible intro _
    | split
    | dsimp only [id])

end Sys2Proof.Machine
end

