-- ==== Sys2Proof/Laws/ChangesTrayHome.lean ====
section
/-!
SUPPORT. The blocks of the state that the operations of Sys2Proof/Machine/TrayHome.lean may change.
-/

namespace Sys2Proof.Machine

theorem homeLoad_changes {Q : List Block} {s0 : State} {h : TrayHdr} {reads : ReadOutcome} {s : State} (hq : subParts [.dev, .maint, .forme, .codec, .tier, .req, .pair, .rma, .links, .free, .out] Q = true) (hk : OnlyChanges Q s0 s) :
    OnlyChanges Q s0 (homeLoad h reads s).2.2 := by
  unfold homeLoad
  repeat' (first
    | with_reducible assumption
    | ((with_reducible refine .inr (subParts_mem hq ?_)); rfl)
    | with_reducible exact .inl rfl
    | with_reducible apply countGranules_changes (hq := subParts_trans rfl hq)
    | with_reducible apply bumpFree_changes (hq := subParts_trans rfl hq)
    | with_reducible apply readOutcome_changes (hq := subParts_trans rfl hq)
    | with_reducible apply partLoad_changes (hq := subParts_trans rfl hq)
    | (with_reducible apply readOutcome_changes_of (hq := subParts_trans rfl hq) (eq_ := by assumption))
    | (with_reducible apply partLoad_changes_of (hq := subParts_trans rfl hq) (eq_ := by assumption))
    | with_reducible refine changes_ite ?_ ?_
    | (with_reducible refine changesParts_of ?_ ?_ ?_ ?_ ?_ ?_ ?_ ?_ ?_ ?_ ?_ ?_ ?_ ?_ ?_ ?_ ?_ ?_ ?_ ?_)
    | simp only [changes_mk]
    | with_reducible intro _
    | split
    | dsimp only [id])

theorem homeLoad_changes_of {Q : List Block} {s0 : State} {h : TrayHdr} {reads : ReadOutcome} {s : State} {tt : State} {c0 : _} {c1 : _} (eq_ : homeLoad h reads s = (c0, c1, tt)) (hq : subParts [.dev, .maint, .forme, .codec, .tier, .req, .pair, .rma, .links, .free, .out] Q = true) (hk : OnlyChanges Q s0 s) : OnlyChanges Q s0 tt := by
  have := homeLoad_changes (Q := Q) (s0 := s0) (h := h) (reads := reads) (s := s) hq hk
  rw [eq_] at this; exact this

theorem homeStore_changes {Q : List Block} {s0 : State} {h : TrayHdr} {d : List Byte} {s : State}  (hq : subParts [.tier] Q = true) (hk : OnlyChanges Q s0 s) :
    OnlyChanges Q s0 (homeStore h d s) := by
  unfold homeStore
  repeat' (first
    | with_reducible assumption
    | ((with_reducible refine .inr (subParts_mem hq ?_)); rfl)
    | with_reducible exact .inl rfl
    | with_reducible apply sliceStore_changes (hq := subParts_trans rfl hq)
    | with_reducible apply partStore_changes (hq := subParts_trans rfl hq)
    | with_reducible refine changes_ite ?_ ?_
    | (with_reducible refine changesParts_of ?_ ?_ ?_ ?_ ?_ ?_ ?_ ?_ ?_ ?_ ?_ ?_ ?_ ?_ ?_ ?_ ?_ ?_ ?_ ?_)
    | simp only [changes_mk]
    | with_reducible intro _
    | split
    | dsimp only [id])

theorem storeRead_changes {Q : List Block} {s0 : State} {h : TrayHdr} {d : List Byte} {reads : ReadOutcome} {s : State} (hq : subParts [.dev, .maint, .forme, .codec, .tier, .req, .pair, .rma, .links, .out] Q = true) (hk : OnlyChanges Q s0 s) :
    OnlyChanges Q s0 (storeRead h d reads s).2 := by
  unfold storeRead
  repeat' (first
    | with_reducible assumption
    | ((with_reducible refine .inr (subParts_mem hq ?_)); rfl)
    | with_reducible exact .inl rfl
    | with_reducible apply homeStore_changes (hq := subParts_trans rfl hq)
    | with_reducible apply readOutcome_changes (hq := subParts_trans rfl hq)
    | (with_reducible apply readOutcome_changes_of (hq := subParts_trans rfl hq) (eq_ := by assumption))
    | with_reducible refine changes_ite ?_ ?_
    | (with_reducible refine changesParts_of ?_ ?_ ?_ ?_ ?_ ?_ ?_ ?_ ?_ ?_ ?_ ?_ ?_ ?_ ?_ ?_ ?_ ?_ ?_ ?_)
    | simp only [changes_mk]
    | with_reducible intro _
    | split
    | dsimp only [id])

theorem storeRead_changes_of {Q : List Block} {s0 : State} {h : TrayHdr} {d : List Byte} {reads : ReadOutcome} {s : State} {tt : State} {c0 : _} (eq_ : storeRead h d reads s = (c0, tt)) (hq : subParts [.dev, .maint, .forme, .codec, .tier, .req, .pair, .rma, .links, .out] Q = true) (hk : OnlyChanges Q s0 s) : OnlyChanges Q s0 tt := by
  have := storeRead_changes (Q := Q) (s0 := s0) (h := h) (d := d) (reads := reads) (s := s) hq hk
  rw [eq_] at this; exact this

theorem atomicApply_changes {Q : List Block} {s0 : State} {op : Byte} {v : Nat} {new : Nat} {old : List Byte} {wr : List Byte → State → State} {s : State} (h_wr : ∀ (y0 : List Byte) (u : State), OnlyChanges Q s0 u → OnlyChanges Q s0 (wr y0 u)) (hq : subParts [] Q = true) (hk : OnlyChanges Q s0 s) :
    OnlyChanges Q s0 (atomicApply op v new old wr s) := by
  unfold atomicApply
  repeat' (first
    | with_reducible assumption
    | ((with_reducible refine .inr (subParts_mem hq ?_)); rfl)
    | with_reducible exact .inl rfl
    | with_reducible apply h_wr
    | with_reducible refine changes_ite ?_ ?_
    | (with_reducible refine changesParts_of ?_ ?_ ?_ ?_ ?_ ?_ ?_ ?_ ?_ ?_ ?_ ?_ ?_ ?_ ?_ ?_ ?_ ?_ ?_ ?_)
    | simp only [changes_mk]
    | with_reducible intro _
    | split
    | dsimp only [id])

theorem homeAtomic_changes {Q : List Block} {s0 : State} {h : TrayHdr} {v : Nat} {new : Nat} {reads : ReadOutcome} {s : State} (hq : subParts [.dev, .maint, .forme, .codec, .tier, .req, .pair, .rma, .links, .free, .out] Q = true) (hk : OnlyChanges Q s0 s) :
    OnlyChanges Q s0 (homeAtomic h v new reads s).2.2 := by
  unfold homeAtomic
  repeat' (first
    | with_reducible assumption
    | ((with_reducible refine .inr (subParts_mem hq ?_)); rfl)
    | with_reducible exact .inl rfl
    | with_reducible apply atomicApply_changes (hq := subParts_trans rfl hq)
    | with_reducible apply homeStore_changes (hq := subParts_trans rfl hq)
    | with_reducible apply homeLoad_changes (hq := subParts_trans rfl hq)
    | (with_reducible apply homeLoad_changes_of (hq := subParts_trans rfl hq) (eq_ := by assumption))
    | with_reducible refine changes_ite ?_ ?_
    | (with_reducible refine changesParts_of ?_ ?_ ?_ ?_ ?_ ?_ ?_ ?_ ?_ ?_ ?_ ?_ ?_ ?_ ?_ ?_ ?_ ?_ ?_ ?_)
    | simp only [changes_mk]
    | with_reducible intro _
    | split
    | dsimp only [id])

theorem homeAtomic_changes_of {Q : List Block} {s0 : State} {h : TrayHdr} {v : Nat} {new : Nat} {reads : ReadOutcome} {s : State} {tt : State} {c0 : _} {c1 : _} (eq_ : homeAtomic h v new reads s = (c0, c1, tt)) (hq : subParts [.dev, .maint, .forme, .codec, .tier, .req, .pair, .rma, .links, .free, .out] Q = true) (hk : OnlyChanges Q s0 s) : OnlyChanges Q s0 tt := by
  have := homeAtomic_changes (Q := Q) (s0 := s0) (h := h) (v := v) (new := new) (reads := reads) (s := s) hq hk
  rw [eq_] at this; exact this

theorem turnTaken_changes {Q : List Block} {s0 : State} {h : TrayHdr} {s : State} (hq : subParts [.near] Q = true) (hk : OnlyChanges Q s0 s) :
    OnlyChanges Q s0 (turnTaken h s) := by
  unfold turnTaken
  repeat' (first
    | with_reducible assumption
    | ((with_reducible refine .inr (subParts_mem hq ?_)); rfl)
    | with_reducible exact .inl rfl
    | with_reducible refine changes_ite ?_ ?_
    | (with_reducible refine changesParts_of ?_ ?_ ?_ ?_ ?_ ?_ ?_ ?_ ?_ ?_ ?_ ?_ ?_ ?_ ?_ ?_ ?_ ?_ ?_ ?_)
    | simp only [changes_mk]
    | with_reducible intro _
    | split
    | dsimp only [id])

theorem ownerJournal_changes {Q : List Block} {s0 : State} {q : ReqId} {r : TrayReq} {s : State} (hq : subParts [.pair] Q = true) (hk : OnlyChanges Q s0 s) :
    OnlyChanges Q s0 (ownerJournal q r s) := by
  unfold ownerJournal
  repeat' (first
    | with_reducible assumption
    | ((with_reducible refine .inr (subParts_mem hq ?_)); rfl)
    | with_reducible exact .inl rfl
    | with_reducible apply journal_changes (hq := subParts_trans rfl hq)
    | with_reducible refine changes_ite ?_ ?_
    | (with_reducible refine changesParts_of ?_ ?_ ?_ ?_ ?_ ?_ ?_ ?_ ?_ ?_ ?_ ?_ ?_ ?_ ?_ ?_ ?_ ?_ ?_ ?_)
    | simp only [changes_mk]
    | with_reducible intro _
    | split
    | dsimp only [id])

theorem mapWriteAt_changes {Q : List Block} {s0 : State} {h : TrayHdr} {q : ReqId} {off : Nat} {bs : List Byte} {s : State} (hq : subParts [.codec, .tier, .sched, .req, .near, .links] Q = true) (hk : OnlyChanges Q s0 s) :
    OnlyChanges Q s0 (mapWriteAt h q off bs s) := by
  unfold mapWriteAt
  repeat' (first
    | with_reducible assumption
    | ((with_reducible refine .inr (subParts_mem hq ?_)); rfl)
    | with_reducible exact .inl rfl
    | with_reducible apply reserveAsk_changes (hq := subParts_trans rfl hq)
    | with_reducible apply spareMap_changes (hq := subParts_trans rfl hq)
    | with_reducible apply homeFinish_changes (hq := subParts_trans rfl hq)
    | (with_reducible apply reserveAsk_changes_of (hq := subParts_trans rfl hq) (eq_ := by assumption))
    | with_reducible refine changes_ite ?_ ?_
    | (with_reducible refine changesParts_of ?_ ?_ ?_ ?_ ?_ ?_ ?_ ?_ ?_ ?_ ?_ ?_ ?_ ?_ ?_ ?_ ?_ ?_ ?_ ?_)
    | simp only [changes_mk]
    | with_reducible intro _
    | split
    | dsimp only [id])

theorem dropCopy_changes {Q : List Block} {s0 : State} {g : Galley} {h : TrayHdr} {s : State} (hq : subParts [.pair, .near, .links] Q = true) (hk : OnlyChanges Q s0 s) :
    OnlyChanges Q s0 (dropCopy g h s) := by
  unfold dropCopy
  repeat' (first
    | with_reducible assumption
    | ((with_reducible refine .inr (subParts_mem hq ?_)); rfl)
    | with_reducible exact .inl rfl
    | with_reducible apply journal_changes (hq := subParts_trans rfl hq)
    | with_reducible apply trayIssue_changes (hq := subParts_trans rfl hq)
    | with_reducible refine changes_ite ?_ ?_
    | (with_reducible refine changesParts_of ?_ ?_ ?_ ?_ ?_ ?_ ?_ ?_ ?_ ?_ ?_ ?_ ?_ ?_ ?_ ?_ ?_ ?_ ?_ ?_)
    | simp only [changes_mk]
    | with_reducible intro _
    | split
    | dsimp only [id])

theorem dropAt_changes {Q : List Block} {s0 : State} {h : TrayHdr} {q : ReqId} {s : State} (hq : subParts [.codec, .tier, .req, .pair, .near, .links] Q = true) (hk : OnlyChanges Q s0 s) :
    OnlyChanges Q s0 (dropAt h q s) := by
  unfold dropAt
  repeat' (first
    | with_reducible assumption
    | ((with_reducible refine .inr (subParts_mem hq ?_)); rfl)
    | with_reducible exact .inl rfl
    | with_reducible apply getD_changes
    | with_reducible apply dropCopy_changes (hq := subParts_trans rfl hq)
    | with_reducible apply recRetire_changes (hq := subParts_trans rfl hq)
    | with_reducible apply homeFinish_changes (hq := subParts_trans rfl hq)
    | with_reducible apply freeGalley_changes (hq := subParts_trans rfl hq)
    | with_reducible refine changes_ite ?_ ?_
    | (with_reducible refine changesParts_of ?_ ?_ ?_ ?_ ?_ ?_ ?_ ?_ ?_ ?_ ?_ ?_ ?_ ?_ ?_ ?_ ?_ ?_ ?_ ?_)
    | simp only [changes_mk]
    | with_reducible intro _
    | split
    | dsimp only [id])

theorem sealDigestAt_changes {Q : List Block} {s0 : State} {h : TrayHdr} {q : ReqId} {l : Nat} {p : Nat} {d : Digest} {s : State} (hq : subParts [.dev, .maint, .forme, .codec, .tier, .req, .pair, .near, .rma, .links, .out] Q = true) (hk : OnlyChanges Q s0 s) :
    OnlyChanges Q s0 (sealDigestAt h q l p d s) := by
  unfold sealDigestAt
  repeat' (first
    | with_reducible assumption
    | ((with_reducible refine .inr (subParts_mem hq ?_)); rfl)
    | with_reducible exact .inl rfl
    | with_reducible apply copyCheck_changes (hq := subParts_trans rfl hq)
    | with_reducible apply homeFinish_changes (hq := subParts_trans rfl hq)
    | with_reducible apply compareSeal_changes (hq := subParts_trans rfl hq)
    | with_reducible apply pageUpd_changes (hq := subParts_trans rfl hq)
    | with_reducible refine changes_ite ?_ ?_
    | (with_reducible refine changesParts_of ?_ ?_ ?_ ?_ ?_ ?_ ?_ ?_ ?_ ?_ ?_ ?_ ?_ ?_ ?_ ?_ ?_ ?_ ?_ ?_)
    | simp only [changes_mk]
    | with_reducible intro _
    | split
    | dsimp only [id])

theorem recordAt_changes {Q : List Block} {s0 : State} {h : TrayHdr} {q : ReqId} {u : RecordUpdate} {s : State} (hq : subParts [.req, .near, .links] Q = true) (hk : OnlyChanges Q s0 s) :
    OnlyChanges Q s0 (recordAt h q u s) := by
  unfold recordAt
  repeat' (first
    | with_reducible assumption
    | ((with_reducible refine .inr (subParts_mem hq ?_)); rfl)
    | with_reducible exact .inl rfl
    | with_reducible apply ownerRecord_changes (hq := subParts_trans rfl hq)
    | with_reducible apply memberRecord_changes (hq := subParts_trans rfl hq)
    | with_reducible apply homeFinish_changes (hq := subParts_trans rfl hq)
    | with_reducible refine changes_ite ?_ ?_
    | (with_reducible refine changesParts_of ?_ ?_ ?_ ?_ ?_ ?_ ?_ ?_ ?_ ?_ ?_ ?_ ?_ ?_ ?_ ?_ ?_ ?_ ?_ ?_)
    | simp only [changes_mk]
    | with_reducible intro _
    | split
    | dsimp only [id])

theorem homeRun_changes {Q : List Block} {s0 : State} {r : TrayReq} {s : State} (hq : subParts [.dev, .maint, .forme, .codec, .tier, .clusters, .sched, .req, .pair, .near, .rma, .links, .free, .out] Q = true) (hk : OnlyChanges Q s0 s) :
    OnlyChanges Q s0 (homeRun r s) := by
  unfold homeRun
  repeat' (first
    | with_reducible assumption
    | ((with_reducible refine .inr (subParts_mem hq ?_)); rfl)
    | with_reducible exact .inl rfl
    | with_reducible apply recordAt_changes (hq := subParts_trans rfl hq)
    | with_reducible apply sealDigestAt_changes (hq := subParts_trans rfl hq)
    | with_reducible apply dropAt_changes (hq := subParts_trans rfl hq)
    | with_reducible apply mapWriteAt_changes (hq := subParts_trans rfl hq)
    | with_reducible apply ownerJournal_changes (hq := subParts_trans rfl hq)
    | with_reducible apply turnTaken_changes (hq := subParts_trans rfl hq)
    | with_reducible apply homeAtomic_changes (hq := subParts_trans rfl hq)
    | with_reducible apply storeRead_changes (hq := subParts_trans rfl hq)
    | with_reducible apply homeLoad_changes (hq := subParts_trans rfl hq)
    | with_reducible apply pausedEnds_changes (hq := subParts_trans rfl hq)
    | with_reducible apply silverSetup_changes (hq := subParts_trans rfl hq)
    | with_reducible apply pageAt_changes (hq := subParts_trans rfl hq)
    | with_reducible apply ckptAt_changes (hq := subParts_trans rfl hq)
    | with_reducible apply ownerCasAt_changes (hq := subParts_trans rfl hq)
    | with_reducible apply wordFollows_changes (hq := subParts_trans rfl hq)
    | with_reducible apply appendAt_changes (hq := subParts_trans rfl hq)
    | with_reducible apply commitAt_changes (hq := subParts_trans rfl hq)
    | with_reducible apply homeFinish_changes (hq := subParts_trans rfl hq)
    | with_reducible apply chanDeliver_changes (hq := subParts_trans rfl hq)
    | (with_reducible apply homeAtomic_changes_of (hq := subParts_trans rfl hq) (eq_ := by assumption))
    | (with_reducible apply storeRead_changes_of (hq := subParts_trans rfl hq) (eq_ := by assumption))
    | (with_reducible apply homeLoad_changes_of (hq := subParts_trans rfl hq) (eq_ := by assumption))
    | (with_reducible apply appendAt_changes_of (hq := subParts_trans rfl hq) (eq_ := by assumption))
    | with_reducible refine changes_ite ?_ ?_
    | (with_reducible refine changesParts_of ?_ ?_ ?_ ?_ ?_ ?_ ?_ ?_ ?_ ?_ ?_ ?_ ?_ ?_ ?_ ?_ ?_ ?_ ?_ ?_)
    | simp only [changes_mk]
    | with_reducible intro _
    | split
    | dsimp only [id])

theorem homeExecute_changes {Q : List Block} {s0 : State} {r : TrayReq} {s : State}  (hq : subParts [.dev, .maint, .forme, .codec, .tier, .clusters, .sched, .req, .pair, .near, .rma, .links, .free, .out] Q = true) (hk : OnlyChanges Q s0 s) :
    OnlyChanges Q s0 (homeExecute r s) := by
  unfold homeExecute
  repeat' (first
    | with_reducible assumption
    | ((with_reducible refine .inr (subParts_mem hq ?_)); rfl)
    | with_reducible exact .inl rfl
    | with_reducible apply homeFinish_changes (hq := subParts_trans rfl hq)
    | with_reducible apply homeRun_changes (hq := subParts_trans rfl hq)
    | with_reducible refine changes_ite ?_ ?_
    | (with_reducible refine changesParts_of ?_ ?_ ?_ ?_ ?_ ?_ ?_ ?_ ?_ ?_ ?_ ?_ ?_ ?_ ?_ ?_ ?_ ?_ ?_ ?_)
    | simp only [changes_mk]
    | with_reducible intro _
    | split
    | dsimp only [id])

theorem atomicWaits_changes {Q : List Block} {s0 : State} {s : State} (hq : subParts [.near] Q = true) (hk : OnlyChanges Q s0 s) :
    OnlyChanges Q s0 (atomicWaits s) := by
  unfold atomicWaits
  repeat' (first
    | with_reducible assumption
    | ((with_reducible refine .inr (subParts_mem hq ?_)); rfl)
    | with_reducible exact .inl rfl
    | with_reducible refine changes_ite ?_ ?_
    | (with_reducible refine changesParts_of ?_ ?_ ?_ ?_ ?_ ?_ ?_ ?_ ?_ ?_ ?_ ?_ ?_ ?_ ?_ ?_ ?_ ?_ ?_ ?_)
    | simp only [changes_mk]
    | with_reducible intro _
    | split
    | dsimp only [id])

theorem homeDrain_changes {Q : List Block} {s0 : State} {d : Nat} {a1 : Nat} {a2 : State} (hq : subParts [.dev, .maint, .forme, .codec, .tier, .clusters, .sched, .req, .pair, .near, .rma, .links, .free, .out] Q = true) (hk : OnlyChanges Q s0 a2) :
    OnlyChanges Q s0 (homeDrain d a1 a2) := by
  induction a1 generalizing a2 with
  | zero =>
    unfold homeDrain
    repeat' (first
      | with_reducible assumption
      | ((with_reducible refine .inr (subParts_mem hq ?_)); rfl)
      | with_reducible exact .inl rfl
      | with_reducible apply homeExecute_changes (hq := subParts_trans rfl hq)
      | with_reducible apply traySrcUpd_changes (hq := subParts_trans rfl hq)
      | with_reducible refine changes_ite ?_ ?_
      | (with_reducible refine changesParts_of ?_ ?_ ?_ ?_ ?_ ?_ ?_ ?_ ?_ ?_ ?_ ?_ ?_ ?_ ?_ ?_ ?_ ?_ ?_ ?_)
      | simp only [changes_mk]
      | with_reducible intro _
      | split
      | dsimp only [id])
  | succ _ ih =>
    unfold homeDrain
    repeat' (first
      | with_reducible assumption
      | ((with_reducible refine .inr (subParts_mem hq ?_)); rfl)
      | with_reducible exact .inl rfl
      | with_reducible apply homeExecute_changes (hq := subParts_trans rfl hq)
      | with_reducible apply traySrcUpd_changes (hq := subParts_trans rfl hq)
      | with_reducible refine changes_ite ?_ ?_
      | (with_reducible refine changesParts_of ?_ ?_ ?_ ?_ ?_ ?_ ?_ ?_ ?_ ?_ ?_ ?_ ?_ ?_ ?_ ?_ ?_ ?_ ?_ ?_)
      | simp only [changes_mk]
      | with_reducible apply ih
      | with_reducible intro _
      | split
      | dsimp only [id])

theorem homeTurns_changes {Q : List Block} {s0 : State} {s : State} (hq : subParts [.dev, .maint, .forme, .codec, .tier, .clusters, .sched, .req, .pair, .near, .rma, .links, .free, .out] Q = true) (hk : OnlyChanges Q s0 s) :
    OnlyChanges Q s0 (homeTurns s) := by
  unfold homeTurns
  repeat' (first
    | with_reducible assumption
    | ((with_reducible refine .inr (subParts_mem hq ?_)); rfl)
    | with_reducible exact .inl rfl
    | with_reducible apply foldl_changes
    | with_reducible apply foldl_changes_fst
    | with_reducible apply foldl_changes_snd
    | with_reducible apply homeDrain_changes (hq := subParts_trans rfl hq)
    | with_reducible refine changes_ite ?_ ?_
    | (with_reducible refine changesParts_of ?_ ?_ ?_ ?_ ?_ ?_ ?_ ?_ ?_ ?_ ?_ ?_ ?_ ?_ ?_ ?_ ?_ ?_ ?_ ?_)
    | simp only [changes_mk]
    | with_reducible intro _
    | split
    | dsimp only [id])

theorem homeDuplicate_changes {Q : List Block} {s0 : State} {r : TrayReq} {c : Status} {b : List Byte} {s : State} (hq : subParts [.dev, .maint, .forme, .codec, .tier, .req, .pair, .rma, .links, .free, .out] Q = true) (hk : OnlyChanges Q s0 s) :
    OnlyChanges Q s0 (homeDuplicate r c b s) := by
  unfold homeDuplicate
  repeat' (first
    | with_reducible assumption
    | ((with_reducible refine .inr (subParts_mem hq ?_)); rfl)
    | with_reducible exact .inl rfl
    | with_reducible apply homeLoad_changes (hq := subParts_trans rfl hq)
    | with_reducible apply trayAnswer_changes (hq := subParts_trans rfl hq)
    | (with_reducible apply homeLoad_changes_of (hq := subParts_trans rfl hq) (eq_ := by assumption))
    | with_reducible refine changes_ite ?_ ?_
    | (with_reducible refine changesParts_of ?_ ?_ ?_ ?_ ?_ ?_ ?_ ?_ ?_ ?_ ?_ ?_ ?_ ?_ ?_ ?_ ?_ ?_ ?_ ?_)
    | simp only [changes_mk]
    | with_reducible intro _
    | split
    | dsimp only [id])

theorem homeArrive_changes {Q : List Block} {s0 : State} {r : TrayReq} {s : State}  (hq : subParts [.dev, .maint, .forme, .codec, .tier, .clusters, .sched, .req, .pair, .near, .rma, .links, .free, .out] Q = true) (hk : OnlyChanges Q s0 s) :
    OnlyChanges Q s0 (homeArrive r s) := by
  unfold homeArrive
  repeat' (first
    | with_reducible assumption
    | ((with_reducible refine .inr (subParts_mem hq ?_)); rfl)
    | with_reducible exact .inl rfl
    | with_reducible apply homeDuplicate_changes (hq := subParts_trans rfl hq)
    | with_reducible apply trayAnswer_changes (hq := subParts_trans rfl hq)
    | with_reducible apply traySrcUpd_changes (hq := subParts_trans rfl hq)
    | with_reducible apply homeDrain_changes (hq := subParts_trans rfl hq)
    | with_reducible refine changes_ite ?_ ?_
    | (with_reducible refine changesParts_of ?_ ?_ ?_ ?_ ?_ ?_ ?_ ?_ ?_ ?_ ?_ ?_ ?_ ?_ ?_ ?_ ?_ ?_ ?_ ?_)
    | simp only [changes_mk]
    | with_reducible intro _
    | split
    | dsimp only [id])

end Sys2Proof.Machine
end

