-- ==== Sys2Proof/Laws/ChangesNodeLoss.lean ====
section
/-!
SUPPORT. The blocks of the state that the operations of Sys2Proof/Machine/NodeLoss.lean may change.
-/

namespace Sys2Proof.Machine

theorem ownerLosesMember_changes {Q : List Block} {s0 : State} {q : ReqId} {d : Nat} {s : State} (hq : subParts [.req, .near, .rma, .links, .free, .out] Q = true) (hk : OnlyChanges Q s0 s) :
    OnlyChanges Q s0 (ownerLosesMember q d s) := by
  unfold ownerLosesMember
  repeat' (first
    | with_reducible assumption
    | ((with_reducible refine .inr (subParts_mem hq ?_)); rfl)
    | with_reducible exact .inl rfl
    | with_reducible apply getD_changes
    | with_reducible apply dropAcked_changes (hq := subParts_trans rfl hq)
    | with_reducible apply recUpd_changes (hq := subParts_trans rfl hq)
    | with_reducible refine changes_ite ?_ ?_
    | (with_reducible refine changesParts_of ?_ ?_ ?_ ?_ ?_ ?_ ?_ ?_ ?_ ?_ ?_ ?_ ?_ ?_ ?_ ?_ ?_ ?_ ?_ ?_)
    | simp only [changes_mk]
    | with_reducible intro _
    | split
    | dsimp only [id])

theorem memberLosesOwner_changes {Q : List Block} {s0 : State} {q : ReqId} {d : Nat} {s : State} (hq : subParts [.codec, .tier, .req, .pair, .near, .rma, .links, .free, .out] Q = true) (hk : OnlyChanges Q s0 s) :
    OnlyChanges Q s0 (memberLosesOwner q d s) := by
  unfold memberLosesOwner
  repeat' (first
    | with_reducible assumption
    | ((with_reducible refine .inr (subParts_mem hq ?_)); rfl)
    | with_reducible exact .inl rfl
    | with_reducible apply recordTo_changes (hq := subParts_trans rfl hq)
    | with_reducible apply memberDrop_changes (hq := subParts_trans rfl hq)
    | with_reducible apply recUpd_changes (hq := subParts_trans rfl hq)
    | with_reducible apply reportEnd_changes (hq := subParts_trans rfl hq)
    | with_reducible apply sendFw_changes (hq := subParts_trans rfl hq)
    | with_reducible refine changes_ite ?_ ?_
    | (with_reducible refine changesParts_of ?_ ?_ ?_ ?_ ?_ ?_ ?_ ?_ ?_ ?_ ?_ ?_ ?_ ?_ ?_ ?_ ?_ ?_ ?_ ?_)
    | simp only [changes_mk]
    | with_reducible intro _
    | split
    | dsimp only [id])

theorem lossOne_changes {Q : List Block} {s0 : State} {d : Nat} {q : ReqId} {s : State} (hq : subParts [.codec, .tier, .req, .pair, .near, .rma, .links, .free, .out] Q = true) (hk : OnlyChanges Q s0 s) :
    OnlyChanges Q s0 (lossOne d q s) := by
  unfold lossOne
  repeat' (first
    | with_reducible assumption
    | ((with_reducible refine .inr (subParts_mem hq ?_)); rfl)
    | with_reducible exact .inl rfl
    | with_reducible apply endStage_changes (hq := subParts_trans rfl hq)
    | with_reducible apply recUpd_changes (hq := subParts_trans rfl hq)
    | with_reducible apply memberLosesOwner_changes (hq := subParts_trans rfl hq)
    | with_reducible apply ownerLosesMember_changes (hq := subParts_trans rfl hq)
    | with_reducible refine changes_ite ?_ ?_
    | (with_reducible refine changesParts_of ?_ ?_ ?_ ?_ ?_ ?_ ?_ ?_ ?_ ?_ ?_ ?_ ?_ ?_ ?_ ?_ ?_ ?_ ?_ ?_)
    | simp only [changes_mk]
    | with_reducible intro _
    | split
    | dsimp only [id])

theorem lossDropped_changes {Q : List Block} {s0 : State} {q : ReqId} {s : State} (hq : subParts [.dev, .sec, .host, .repro, .req, .out] Q = true) (hk : OnlyChanges Q s0 s) :
    OnlyChanges Q s0 (lossDropped q s) := by
  unfold lossDropped
  repeat' (first
    | with_reducible assumption
    | ((with_reducible refine .inr (subParts_mem hq ?_)); rfl)
    | with_reducible exact .inl rfl
    | with_reducible apply anchorFinish_changes (hq := subParts_trans rfl hq)
    | with_reducible apply anchorUpd_changes (hq := subParts_trans rfl hq)
    | with_reducible refine changes_ite ?_ ?_
    | (with_reducible refine changesParts_of ?_ ?_ ?_ ?_ ?_ ?_ ?_ ?_ ?_ ?_ ?_ ?_ ?_ ?_ ?_ ?_ ?_ ?_ ?_ ?_)
    | simp only [changes_mk]
    | with_reducible intro _
    | split
    | dsimp only [id])

theorem takeOverSend_changes {Q : List Block} {s0 : State} {q : ReqId} {s : State} (hq : subParts [.rma, .links, .out] Q = true) (hk : OnlyChanges Q s0 s) :
    OnlyChanges Q s0 (takeOverSend q s) := by
  unfold takeOverSend
  repeat' (first
    | with_reducible assumption
    | ((with_reducible refine .inr (subParts_mem hq ?_)); rfl)
    | with_reducible exact .inl rfl
    | with_reducible apply foldl_changes
    | with_reducible apply foldl_changes_fst
    | with_reducible apply foldl_changes_snd
    | with_reducible apply sendFw_changes (hq := subParts_trans rfl hq)
    | with_reducible apply toStages_changes (hq := subParts_trans rfl hq)
    | with_reducible refine changes_ite ?_ ?_
    | (with_reducible refine changesParts_of ?_ ?_ ?_ ?_ ?_ ?_ ?_ ?_ ?_ ?_ ?_ ?_ ?_ ?_ ?_ ?_ ?_ ?_ ?_ ?_)
    | simp only [changes_mk]
    | with_reducible intro _
    | split
    | dsimp only [id])

theorem pairGone_changes {Q : List Block} {s0 : State} {q : ReqId} {a : AnchorInfo} {r : Rec} {s : State} (hq : subParts [.host, .req, .rma, .links, .out] Q = true) (hk : OnlyChanges Q s0 s) :
    OnlyChanges Q s0 (pairGone q a r s) := by
  unfold pairGone
  repeat' (first
    | with_reducible assumption
    | ((with_reducible refine .inr (subParts_mem hq ?_)); rfl)
    | with_reducible exact .inl rfl
    | with_reducible apply refusalAt_changes (hq := subParts_trans rfl hq)
    | with_reducible apply anchorReprefill_changes (hq := subParts_trans rfl hq)
    | with_reducible apply anchorEnd_changes (hq := subParts_trans rfl hq)
    | with_reducible apply anchorUpd_changes (hq := subParts_trans rfl hq)
    | with_reducible refine changes_ite ?_ ?_
    | (with_reducible refine changesParts_of ?_ ?_ ?_ ?_ ?_ ?_ ?_ ?_ ?_ ?_ ?_ ?_ ?_ ?_ ?_ ?_ ?_ ?_ ?_ ?_)
    | simp only [changes_mk]
    | with_reducible intro _
    | split
    | dsimp only [id])

theorem anchorLoss_changes {Q : List Block} {s0 : State} {d : Nat} {q : ReqId} {s : State} (hq : subParts [.dev, .sec, .host, .repro, .req, .rma, .links, .out] Q = true) (hk : OnlyChanges Q s0 s) :
    OnlyChanges Q s0 (anchorLoss d q s) := by
  unfold anchorLoss
  repeat' (first
    | with_reducible assumption
    | ((with_reducible refine .inr (subParts_mem hq ?_)); rfl)
    | with_reducible exact .inl rfl
    | with_reducible apply pairGone_changes (hq := subParts_trans rfl hq)
    | with_reducible apply takeOverSend_changes (hq := subParts_trans rfl hq)
    | with_reducible apply lossDropped_changes (hq := subParts_trans rfl hq)
    | with_reducible apply refusedEnd_changes (hq := subParts_trans rfl hq)
    | with_reducible apply anchorEnd_changes (hq := subParts_trans rfl hq)
    | with_reducible apply anchorUpd_changes (hq := subParts_trans rfl hq)
    | with_reducible refine changes_ite ?_ ?_
    | (with_reducible refine changesParts_of ?_ ?_ ?_ ?_ ?_ ?_ ?_ ?_ ?_ ?_ ?_ ?_ ?_ ?_ ?_ ?_ ?_ ?_ ?_ ?_)
    | simp only [changes_mk]
    | with_reducible intro _
    | split
    | dsimp only [id])

theorem nodeLoss_changes {Q : List Block} {s0 : State} {d : Nat} {s : State} (hq : subParts [.dev, .sec, .host, .codec, .tier, .repro, .req, .pair, .near, .rma, .links, .free, .out] Q = true) (hk : OnlyChanges Q s0 s) :
    OnlyChanges Q s0 (nodeLoss d s) := by
  unfold nodeLoss
  repeat' (first
    | with_reducible assumption
    | ((with_reducible refine .inr (subParts_mem hq ?_)); rfl)
    | with_reducible exact .inl rfl
    | with_reducible apply foldl_changes
    | with_reducible apply foldl_changes_fst
    | with_reducible apply foldl_changes_snd
    | with_reducible apply anchorLoss_changes (hq := subParts_trans rfl hq)
    | with_reducible apply lossOne_changes (hq := subParts_trans rfl hq)
    | with_reducible refine changes_ite ?_ ?_
    | (with_reducible refine changesParts_of ?_ ?_ ?_ ?_ ?_ ?_ ?_ ?_ ?_ ?_ ?_ ?_ ?_ ?_ ?_ ?_ ?_ ?_ ?_ ?_)
    | simp only [changes_mk]
    | with_reducible intro _
    | split
    | dsimp only [id])

theorem podNext_changes {Q : List Block} {s0 : State} {id : Nat} {s : State}  (hq : subParts [.repro] Q = true) (hk : OnlyChanges Q s0 s) :
    OnlyChanges Q s0 (podNext id s) := by
  unfold podNext
  repeat' (first
    | with_reducible assumption
    | ((with_reducible refine .inr (subParts_mem hq ?_)); rfl)
    | with_reducible exact .inl rfl
    | with_reducible refine changes_ite ?_ ?_
    | (with_reducible refine changesParts_of ?_ ?_ ?_ ?_ ?_ ?_ ?_ ?_ ?_ ?_ ?_ ?_ ?_ ?_ ?_ ?_ ?_ ?_ ?_ ?_)
    | simp only [changes_mk]
    | with_reducible intro _
    | split
    | dsimp only [id])

theorem podEndSaved_changes {Q : List Block} {s0 : State} {key : Nat} {v : Saved} {s : State}  (hq : subParts [.clusters, .sched] Q = true) (hk : OnlyChanges Q s0 s) :
    OnlyChanges Q s0 (podEndSaved key v s) := by
  unfold podEndSaved
  repeat' (first
    | with_reducible assumption
    | ((with_reducible refine .inr (subParts_mem hq ?_)); rfl)
    | with_reducible exact .inl rfl
    | with_reducible apply clusterUpd_changes (hq := subParts_trans rfl hq)
    | with_reducible refine changes_ite ?_ ?_
    | (with_reducible refine changesParts_of ?_ ?_ ?_ ?_ ?_ ?_ ?_ ?_ ?_ ?_ ?_ ?_ ?_ ?_ ?_ ?_ ?_ ?_ ?_ ?_)
    | simp only [changes_mk]
    | with_reducible intro _
    | split
    | dsimp only [id])

theorem podFails_changes {Q : List Block} {s0 : State} {id : Nat} {s : State}  (hq : subParts [.dev, .maint, .clusters, .sched, .repro, .req, .rma, .links, .out] Q = true) (hk : OnlyChanges Q s0 s) :
    OnlyChanges Q s0 (podFails id s) := by
  unfold podFails
  repeat' (first
    | with_reducible assumption
    | ((with_reducible refine .inr (subParts_mem hq ?_)); rfl)
    | with_reducible exact .inl rfl
    | with_reducible apply foldl_changes
    | with_reducible apply foldl_changes_fst
    | with_reducible apply foldl_changes_snd
    | with_reducible apply podEndSaved_changes (hq := subParts_trans rfl hq)
    | with_reducible apply noteErr_changes (hq := subParts_trans rfl hq)
    | with_reducible apply endItem_changes (hq := subParts_trans rfl hq)
    | with_reducible apply podNext_changes (hq := subParts_trans rfl hq)
    | with_reducible refine changes_ite ?_ ?_
    | (with_reducible refine changesParts_of ?_ ?_ ?_ ?_ ?_ ?_ ?_ ?_ ?_ ?_ ?_ ?_ ?_ ?_ ?_ ?_ ?_ ?_ ?_ ?_)
    | simp only [changes_mk]
    | with_reducible intro _
    | split
    | dsimp only [id])

theorem sendRelease_changes {Q : List Block} {s0 : State} {id : Nat} {b : PodBarrier} {tick : DWord} {c : Status} {s : State}  (hq : subParts [.rma, .links, .out] Q = true) (hk : OnlyChanges Q s0 s) :
    OnlyChanges Q s0 (sendRelease id b tick c s) := by
  unfold sendRelease
  repeat' (first
    | with_reducible assumption
    | ((with_reducible refine .inr (subParts_mem hq ?_)); rfl)
    | with_reducible exact .inl rfl
    | with_reducible apply foldl_changes
    | with_reducible apply foldl_changes_fst
    | with_reducible apply foldl_changes_snd
    | with_reducible apply sendFw_changes (hq := subParts_trans rfl hq)
    | with_reducible refine changes_ite ?_ ?_
    | (with_reducible refine changesParts_of ?_ ?_ ?_ ?_ ?_ ?_ ?_ ?_ ?_ ?_ ?_ ?_ ?_ ?_ ?_ ?_ ?_ ?_ ?_ ?_)
    | simp only [changes_mk]
    | with_reducible intro _
    | split
    | dsimp only [id])

theorem podExcluded_changes {Q : List Block} {s0 : State} {d : Nat} {s : State}  (hq : subParts [.dev, .maint, .clusters, .sched, .repro, .req, .rma, .links, .out] Q = true) (hk : OnlyChanges Q s0 s) :
    OnlyChanges Q s0 (podExcluded d s) := by
  unfold podExcluded
  repeat' (first
    | with_reducible assumption
    | ((with_reducible refine .inr (subParts_mem hq ?_)); rfl)
    | with_reducible exact .inl rfl
    | with_reducible apply foldl_changes
    | with_reducible apply foldl_changes_fst
    | with_reducible apply foldl_changes_snd
    | with_reducible apply sendRelease_changes (hq := subParts_trans rfl hq)
    | with_reducible apply podFails_changes (hq := subParts_trans rfl hq)
    | with_reducible refine changes_ite ?_ ?_
    | (with_reducible refine changesParts_of ?_ ?_ ?_ ?_ ?_ ?_ ?_ ?_ ?_ ?_ ?_ ?_ ?_ ?_ ?_ ?_ ?_ ?_ ?_ ?_)
    | simp only [changes_mk]
    | with_reducible intro _
    | split
    | dsimp only [id])

theorem trayExcluded_changes {Q : List Block} {s0 : State} {d : Nat} {s : State} (hq : subParts [.dev, .maint, .forme, .codec, .tier, .clusters, .sched, .req, .pair, .near, .rma, .links, .free, .out] Q = true) (hk : OnlyChanges Q s0 s) :
    OnlyChanges Q s0 (trayExcluded d s) := by
  unfold trayExcluded
  repeat' (first
    | with_reducible assumption
    | ((with_reducible refine .inr (subParts_mem hq ?_)); rfl)
    | with_reducible exact .inl rfl
    | with_reducible apply foldl_changes
    | with_reducible apply foldl_changes_fst
    | with_reducible apply foldl_changes_snd
    | with_reducible apply trayEnd_changes (hq := subParts_trans rfl hq)
    | with_reducible apply whyEnd_changes (hq := subParts_trans rfl hq)
    | with_reducible apply trayDstUpd_changes (hq := subParts_trans rfl hq)
    | with_reducible refine changes_ite ?_ ?_
    | (with_reducible refine changesParts_of ?_ ?_ ?_ ?_ ?_ ?_ ?_ ?_ ?_ ?_ ?_ ?_ ?_ ?_ ?_ ?_ ?_ ?_ ?_ ?_)
    | simp only [changes_mk]
    | with_reducible intro _
    | split
    | dsimp only [id])

theorem excludePeer_changes {Q : List Block} {s0 : State} {d : Nat} {epoch : BitVec 16} {before : State} (hq : subParts [.dev, .maint, .sec, .host, .forme, .codec, .tier, .clusters, .sched, .repro, .req, .pair, .near, .rma, .links, .free, .out] Q = true) (hk : OnlyChanges Q s0 before) :
    OnlyChanges Q s0 (excludePeer d epoch before) := by
  unfold excludePeer
  repeat' (first
    | with_reducible assumption
    | ((with_reducible refine .inr (subParts_mem hq ?_)); rfl)
    | with_reducible exact .inl rfl
    | with_reducible apply creditsRepath_changes (hq := subParts_trans rfl hq)
    | with_reducible apply viaLost_changes (hq := subParts_trans rfl hq)
    | with_reducible apply homeTurns_changes (hq := subParts_trans rfl hq)
    | with_reducible apply partnerExcluded_changes (hq := subParts_trans rfl hq)
    | with_reducible apply rmaExcluded_changes (hq := subParts_trans rfl hq)
    | with_reducible apply trayExcluded_changes (hq := subParts_trans rfl hq)
    | with_reducible apply podExcluded_changes (hq := subParts_trans rfl hq)
    | with_reducible apply nodeLoss_changes (hq := subParts_trans rfl hq)
    | with_reducible apply breakChannels_changes (hq := subParts_trans rfl hq)
    | with_reducible refine changes_ite ?_ ?_
    | (with_reducible refine changesParts_of ?_ ?_ ?_ ?_ ?_ ?_ ?_ ?_ ?_ ?_ ?_ ?_ ?_ ?_ ?_ ?_ ?_ ?_ ?_ ?_)
    | simp only [changes_mk]
    | with_reducible intro _
    | split
    | dsimp only [id])

theorem joinPeer_changes {Q : List Block} {s0 : State} {d : Nat} {epoch : BitVec 16} {s : State} (hq : subParts [.dev, .maint, .forme, .codec, .tier, .clusters, .sched, .req, .pair, .near, .rma, .links, .free, .out] Q = true) (hk : OnlyChanges Q s0 s) :
    OnlyChanges Q s0 (joinPeer d epoch s) := by
  unfold joinPeer
  repeat' (first
    | with_reducible assumption
    | ((with_reducible refine .inr (subParts_mem hq ?_)); rfl)
    | with_reducible exact .inl rfl
    | with_reducible apply creditsRepath_changes (hq := subParts_trans rfl hq)
    | with_reducible apply trayExcluded_changes (hq := subParts_trans rfl hq)
    | with_reducible refine changes_ite ?_ ?_
    | (with_reducible refine changesParts_of ?_ ?_ ?_ ?_ ?_ ?_ ?_ ?_ ?_ ?_ ?_ ?_ ?_ ?_ ?_ ?_ ?_ ?_ ?_ ?_)
    | simp only [changes_mk]
    | with_reducible intro _
    | split
    | dsimp only [id])

theorem trayFenced_changes {Q : List Block} {s0 : State} {d : Nat} {s : State} (hq : subParts [.dev, .maint, .clusters, .sched, .req, .near, .rma, .links, .out] Q = true) (hk : OnlyChanges Q s0 s) :
    OnlyChanges Q s0 (trayFenced d s) := by
  unfold trayFenced
  repeat' (first
    | with_reducible assumption
    | ((with_reducible refine .inr (subParts_mem hq ?_)); rfl)
    | with_reducible exact .inl rfl
    | with_reducible apply foldl_changes
    | with_reducible apply foldl_changes_fst
    | with_reducible apply foldl_changes_snd
    | with_reducible apply fenceCount_changes (hq := subParts_trans rfl hq)
    | with_reducible apply trayDstUpd_changes (hq := subParts_trans rfl hq)
    | with_reducible apply breakChannels_changes (hq := subParts_trans rfl hq)
    | with_reducible refine changes_ite ?_ ?_
    | (with_reducible refine changesParts_of ?_ ?_ ?_ ?_ ?_ ?_ ?_ ?_ ?_ ?_ ?_ ?_ ?_ ?_ ?_ ?_ ?_ ?_ ?_ ?_)
    | simp only [changes_mk]
    | with_reducible intro _
    | split
    | dsimp only [id])

theorem selfFence_changes {Q : List Block} {s0 : State} {s : State} (hq : subParts [.dev, .maint, .codec, .tier, .clusters, .sched, .req, .pair, .near, .rma, .links, .free, .out] Q = true) (hk : OnlyChanges Q s0 s) :
    OnlyChanges Q s0 (selfFence s) := by
  unfold selfFence
  repeat' (first
    | with_reducible assumption
    | ((with_reducible refine .inr (subParts_mem hq ?_)); rfl)
    | with_reducible exact .inl rfl
    | with_reducible apply foldl_changes
    | with_reducible apply foldl_changes_fst
    | with_reducible apply foldl_changes_snd
    | with_reducible apply getD_changes
    | with_reducible apply fencesRun_changes (hq := subParts_trans rfl hq)
    | with_reducible apply msix_changes (hq := subParts_trans rfl hq)
    | with_reducible apply trayFenced_changes (hq := subParts_trans rfl hq)
    | with_reducible refine changes_ite ?_ ?_
    | (with_reducible refine changesParts_of ?_ ?_ ?_ ?_ ?_ ?_ ?_ ?_ ?_ ?_ ?_ ?_ ?_ ?_ ?_ ?_ ?_ ?_ ?_ ?_)
    | simp only [changes_mk]
    | with_reducible intro _
    | split
    | dsimp only [id])

theorem retireFenced_changes {Q : List Block} {s0 : State} {s : State}  (hq : subParts [.dev, .sec, .host, .repro, .req, .out] Q = true) (hk : OnlyChanges Q s0 s) :
    OnlyChanges Q s0 (retireFenced s) := by
  unfold retireFenced
  repeat' (first
    | with_reducible assumption
    | ((with_reducible refine .inr (subParts_mem hq ?_)); rfl)
    | with_reducible exact .inl rfl
    | with_reducible apply foldl_changes
    | with_reducible apply foldl_changes_fst
    | with_reducible apply foldl_changes_snd
    | with_reducible apply anchorFinish_changes (hq := subParts_trans rfl hq)
    | with_reducible apply recRetire_changes (hq := subParts_trans rfl hq)
    | with_reducible apply anchorUpd_changes (hq := subParts_trans rfl hq)
    | with_reducible refine changes_ite ?_ ?_
    | (with_reducible refine changesParts_of ?_ ?_ ?_ ?_ ?_ ?_ ?_ ?_ ?_ ?_ ?_ ?_ ?_ ?_ ?_ ?_ ?_ ?_ ?_ ?_)
    | simp only [changes_mk]
    | with_reducible intro _
    | split
    | dsimp only [id])

theorem clustersFenced_changes {Q : List Block} {s0 : State} {s : State} (hq : subParts [.clusters, .sched] Q = true) (hk : OnlyChanges Q s0 s) :
    OnlyChanges Q s0 (clustersFenced s) := by
  unfold clustersFenced
  repeat' (first
    | with_reducible assumption
    | ((with_reducible refine .inr (subParts_mem hq ?_)); rfl)
    | with_reducible exact .inl rfl
    | with_reducible refine changes_ite ?_ ?_
    | (with_reducible refine changesParts_of ?_ ?_ ?_ ?_ ?_ ?_ ?_ ?_ ?_ ?_ ?_ ?_ ?_ ?_ ?_ ?_ ?_ ?_ ?_ ?_)
    | simp only [changes_mk]
    | with_reducible intro _
    | split
    | dsimp only [id])

theorem dropHeld_changes {Q : List Block} {s0 : State} {s : State} (hq : subParts [.host] Q = true) (hk : OnlyChanges Q s0 s) :
    OnlyChanges Q s0 (dropHeld s) := by
  unfold dropHeld
  repeat' (first
    | with_reducible assumption
    | ((with_reducible refine .inr (subParts_mem hq ?_)); rfl)
    | with_reducible exact .inl rfl
    | with_reducible refine changes_ite ?_ ?_
    | (with_reducible refine changesParts_of ?_ ?_ ?_ ?_ ?_ ?_ ?_ ?_ ?_ ?_ ?_ ?_ ?_ ?_ ?_ ?_ ?_ ?_ ?_ ?_)
    | simp only [changes_mk]
    | with_reducible intro _
    | split
    | dsimp only [id])

theorem retireFirst_changes {Q : List Block} {s0 : State} {s : State} (hq : subParts [.dev, .sec, .host, .repro, .req, .out] Q = true) (hk : OnlyChanges Q s0 s) :
    OnlyChanges Q s0 (retireFirst s) := by
  unfold retireFirst
  repeat' (first
    | with_reducible assumption
    | ((with_reducible refine .inr (subParts_mem hq ?_)); rfl)
    | with_reducible exact .inl rfl
    | with_reducible apply foldl_changes
    | with_reducible apply foldl_changes_fst
    | with_reducible apply foldl_changes_snd
    | with_reducible apply dropHeld_changes (hq := subParts_trans rfl hq)
    | with_reducible apply retireFenced_changes (hq := subParts_trans rfl hq)
    | with_reducible apply post_changes (hq := subParts_trans rfl hq)
    | with_reducible refine changes_ite ?_ ?_
    | (with_reducible refine changesParts_of ?_ ?_ ?_ ?_ ?_ ?_ ?_ ?_ ?_ ?_ ?_ ?_ ?_ ?_ ?_ ?_ ?_ ?_ ?_ ?_)
    | simp only [changes_mk]
    | with_reducible intro _
    | split
    | dsimp only [id])

theorem readmit_changes {Q : List Block} {s0 : State} {epoch : BitVec 16} {seq : Nat} {leaseMs : Nat} {table : List (DevId × Bool × BitVec 16)} {s : State} (hq : subParts [.dev, .maint, .sec, .host, .codec, .tier, .clusters, .sched, .repro, .req, .pair, .near, .rma, .links, .free, .out] Q = true) (hk : OnlyChanges Q s0 s) :
    OnlyChanges Q s0 (readmit epoch seq leaseMs table s) := by
  unfold readmit
  repeat' (first
    | with_reducible assumption
    | ((with_reducible refine .inr (subParts_mem hq ?_)); rfl)
    | with_reducible exact .inl rfl
    | with_reducible apply foldl_changes
    | with_reducible apply foldl_changes_fst
    | with_reducible apply foldl_changes_snd
    | with_reducible apply sendLstate_changes (hq := subParts_trans rfl hq)
    | with_reducible apply freeAllGalleys_changes (hq := subParts_trans rfl hq)
    | with_reducible apply pairState_changes (hq := subParts_trans rfl hq)
    | with_reducible apply silverClear_changes (hq := subParts_trans rfl hq)
    | with_reducible apply rmaReadmit_changes (hq := subParts_trans rfl hq)
    | with_reducible apply retireFirst_changes (hq := subParts_trans rfl hq)
    | with_reducible apply clustersFenced_changes (hq := subParts_trans rfl hq)
    | with_reducible apply pairFollow_changes (hq := subParts_trans rfl hq)
    | with_reducible refine changes_ite ?_ ?_
    | (with_reducible refine changesParts_of ?_ ?_ ?_ ?_ ?_ ?_ ?_ ?_ ?_ ?_ ?_ ?_ ?_ ?_ ?_ ?_ ?_ ?_ ?_ ?_)
    | simp only [changes_mk]
    | with_reducible intro _
    | split
    | dsimp only [id])

end Sys2Proof.Machine
end

