-- ==== Sys2Proof/Laws/ChangesPair.lean ====
section
/-!
SUPPORT. The blocks of the state that the operations of Sys2Proof/Machine/Pair.lean may change.
-/

namespace Sys2Proof.Machine

theorem drawSecret_changes {Q : List Block} {s0 : State} {s : State}  (hq : subParts [.sec, .drbg, .free] Q = true) (hk : OnlyChanges Q s0 s) :
    OnlyChanges Q s0 (drawSecret s) := by
  unfold drawSecret
  repeat' (first
    | with_reducible assumption
    | ((with_reducible refine .inr (subParts_mem hq ?_)); rfl)
    | with_reducible exact .inl rfl
    | with_reducible apply draw_changes (hq := subParts_trans rfl hq)
    | (with_reducible apply draw_changes_of (hq := subParts_trans rfl hq) (eq_ := by assumption))
    | with_reducible refine changes_ite ?_ ?_
    | (with_reducible refine changesParts_of ?_ ?_ ?_ ?_ ?_ ?_ ?_ ?_ ?_ ?_ ?_ ?_ ?_ ?_ ?_ ?_ ?_ ?_ ?_ ?_)
    | simp only [changes_mk]
    | with_reducible intro _
    | split
    | dsimp only [id])

theorem sendSecret_changes {Q : List Block} {s0 : State} {p : Nat} {s : State}  (hq : subParts [.rma, .links, .out] Q = true) (hk : OnlyChanges Q s0 s) :
    OnlyChanges Q s0 (sendSecret p s) := by
  unfold sendSecret
  repeat' (first
    | with_reducible assumption
    | ((with_reducible refine .inr (subParts_mem hq ?_)); rfl)
    | with_reducible exact .inl rfl
    | with_reducible apply sendFw_changes (hq := subParts_trans rfl hq)
    | with_reducible refine changes_ite ?_ ?_
    | (with_reducible refine changesParts_of ?_ ?_ ?_ ?_ ?_ ?_ ?_ ?_ ?_ ?_ ?_ ?_ ?_ ?_ ?_ ?_ ?_ ?_ ?_ ?_)
    | simp only [changes_mk]
    | with_reducible intro _
    | split
    | dsimp only [id])

theorem meetSecret_changes {Q : List Block} {s0 : State} {p : Nat} {v : PartnerView} {s : State}  (hq : subParts [.sec, .drbg, .rma, .links, .free, .out] Q = true) (hk : OnlyChanges Q s0 s) :
    OnlyChanges Q s0 (meetSecret p v s) := by
  unfold meetSecret
  repeat' (first
    | with_reducible assumption
    | ((with_reducible refine .inr (subParts_mem hq ?_)); rfl)
    | with_reducible exact .inl rfl
    | with_reducible apply drawSecret_changes (hq := subParts_trans rfl hq)
    | with_reducible apply sendSecret_changes (hq := subParts_trans rfl hq)
    | with_reducible refine changes_ite ?_ ?_
    | (with_reducible refine changesParts_of ?_ ?_ ?_ ?_ ?_ ?_ ?_ ?_ ?_ ?_ ?_ ?_ ?_ ?_ ?_ ?_ ?_ ?_ ?_ ?_)
    | simp only [changes_mk]
    | with_reducible intro _
    | split
    | dsimp only [id])

theorem partnerMeet_changes {Q : List Block} {s0 : State} {v : PartnerView} {s : State} (hq : subParts [.dev, .maint, .sec, .drbg, .forme, .codec, .tier, .sched, .req, .pair, .near, .rma, .links, .free, .out] Q = true) (hk : OnlyChanges Q s0 s) :
    OnlyChanges Q s0 (partnerMeet v s) := by
  unfold partnerMeet
  repeat' (first
    | with_reducible assumption
    | ((with_reducible refine .inr (subParts_mem hq ?_)); rfl)
    | with_reducible exact .inl rfl
    | with_reducible apply silverResume_changes (hq := subParts_trans rfl hq)
    | with_reducible apply silverEnd_changes (hq := subParts_trans rfl hq)
    | with_reducible apply meetSecret_changes (hq := subParts_trans rfl hq)
    | with_reducible apply mirrorsAlone_changes (hq := subParts_trans rfl hq)
    | with_reducible refine changes_ite ?_ ?_
    | (with_reducible refine changesParts_of ?_ ?_ ?_ ?_ ?_ ?_ ?_ ?_ ?_ ?_ ?_ ?_ ?_ ?_ ?_ ?_ ?_ ?_ ?_ ?_)
    | simp only [changes_mk]
    | with_reducible intro _
    | split
    | dsimp only [id])

theorem execPartnerMeet_changes {Q : List Block} {s0 : State} {v : PartnerView} {s : State}  (hq : subParts [.dev, .maint, .sec, .drbg, .forme, .codec, .tier, .sched, .req, .pair, .near, .rma, .links, .free, .out] Q = true) {tt : State} (hk : OnlyChanges Q s0 s) (eq_ : execPartnerMeet v s = .next tt) : OnlyChanges Q s0 tt := by
  unfold execPartnerMeet at eq_
  repeat' (first | split at eq_ | dsimp only at eq_)
  all_goals (first | (injection eq_ with eq_; subst eq_) | (cases eq_))
  repeat' (first
    | with_reducible assumption
    | ((with_reducible refine .inr (subParts_mem hq ?_)); rfl)
    | with_reducible exact .inl rfl
    | with_reducible apply unlessFenced_changes (hq := subParts_trans rfl hq)
    | with_reducible apply partnerMeet_changes (hq := subParts_trans rfl hq)
    | with_reducible refine changes_ite ?_ ?_
    | (with_reducible refine changesParts_of ?_ ?_ ?_ ?_ ?_ ?_ ?_ ?_ ?_ ?_ ?_ ?_ ?_ ?_ ?_ ?_ ?_ ?_ ?_ ?_)
    | simp only [changes_mk]
    | with_reducible intro _
    | split
    | dsimp only [id])

theorem mirrorLate_changes {Q : List Block} {s0 : State} {d : Nat} {n : Nat} {s : State}  (hq : subParts [.dev, .pair, .near, .links] Q = true) (hk : OnlyChanges Q s0 s) :
    OnlyChanges Q s0 (mirrorLate d n s) := by
  unfold mirrorLate
  repeat' (first
    | with_reducible assumption
    | ((with_reducible refine .inr (subParts_mem hq ?_)); rfl)
    | with_reducible exact .inl rfl
    | with_reducible apply sendSuspect_changes (hq := subParts_trans rfl hq)
    | with_reducible apply trayDstUpd_changes (hq := subParts_trans rfl hq)
    | with_reducible apply noteErr_changes (hq := subParts_trans rfl hq)
    | with_reducible refine changes_ite ?_ ?_
    | (with_reducible refine changesParts_of ?_ ?_ ?_ ?_ ?_ ?_ ?_ ?_ ?_ ?_ ?_ ?_ ?_ ?_ ?_ ?_ ?_ ?_ ?_ ?_)
    | simp only [changes_mk]
    | with_reducible intro _
    | split
    | dsimp only [id])

theorem execMirrorAckTimeout_changes {Q : List Block} {s0 : State} {slot : Slot} {seq : Word} {s : State}  (hq : subParts [.dev, .pair, .near, .links] Q = true) {tt : State} (hk : OnlyChanges Q s0 s) (eq_ : execMirrorAckTimeout slot seq s = .next tt) : OnlyChanges Q s0 tt := by
  unfold execMirrorAckTimeout at eq_
  repeat' (first | split at eq_ | dsimp only at eq_)
  all_goals (first | (injection eq_ with eq_; subst eq_) | (cases eq_))
  repeat' (first
    | with_reducible assumption
    | ((with_reducible refine .inr (subParts_mem hq ?_)); rfl)
    | with_reducible exact .inl rfl
    | with_reducible apply unlessFenced_changes (hq := subParts_trans rfl hq)
    | with_reducible apply mirrorLate_changes (hq := subParts_trans rfl hq)
    | with_reducible refine changes_ite ?_ ?_
    | (with_reducible refine changesParts_of ?_ ?_ ?_ ?_ ?_ ?_ ?_ ?_ ?_ ?_ ?_ ?_ ?_ ?_ ?_ ?_ ?_ ?_ ?_ ?_)
    | simp only [changes_mk]
    | with_reducible intro _
    | split
    | dsimp only [id])

theorem pairCode_changes {Q : List Block} {s0 : State} {c : Status} {s : State}  (hq : subParts [.pair] Q = true) (hk : OnlyChanges Q s0 s) :
    OnlyChanges Q s0 (pairCode c s) := by
  unfold pairCode
  repeat' (first
    | with_reducible assumption
    | ((with_reducible refine .inr (subParts_mem hq ?_)); rfl)
    | with_reducible exact .inl rfl
    | with_reducible refine changes_ite ?_ ?_
    | (with_reducible refine changesParts_of ?_ ?_ ?_ ?_ ?_ ?_ ?_ ?_ ?_ ?_ ?_ ?_ ?_ ?_ ?_ ?_ ?_ ?_ ?_ ?_)
    | simp only [changes_mk]
    | with_reducible intro _
    | split
    | dsimp only [id])

theorem pairCtl_changes {Q : List Block} {s0 : State} {w : CtlWrite} {own : Nat} {run : State → State} {s : State} (h_run : ∀ (u : State), OnlyChanges Q s0 u → OnlyChanges Q s0 (run u)) (hq : subParts [.pair] Q = true) (hk : OnlyChanges Q s0 s) :
    OnlyChanges Q s0 (pairCtl w own run s) := by
  unfold pairCtl
  repeat' (first
    | with_reducible assumption
    | ((with_reducible refine .inr (subParts_mem hq ?_)); rfl)
    | with_reducible exact .inl rfl
    | with_reducible apply pairCode_changes (hq := subParts_trans rfl hq)
    | with_reducible apply ctl_changes (hq := subParts_trans rfl hq)
    | with_reducible apply h_run
    | with_reducible refine changes_ite ?_ ?_
    | (with_reducible refine changesParts_of ?_ ?_ ?_ ?_ ?_ ?_ ?_ ?_ ?_ ?_ ?_ ?_ ?_ ?_ ?_ ?_ ?_ ?_ ?_ ?_)
    | simp only [changes_mk]
    | with_reducible intro _
    | split
    | dsimp only [id])

theorem silverStart_changes {Q : List Block} {s0 : State} {reads : ReadOutcome} {s : State} (hq : subParts [.dev, .maint, .forme, .codec, .tier, .sched, .req, .pair, .near, .rma, .links, .out] Q = true) (hk : OnlyChanges Q s0 s) :
    OnlyChanges Q s0 (silverStart reads s) := by
  unfold silverStart
  repeat' (first
    | with_reducible assumption
    | ((with_reducible refine .inr (subParts_mem hq ?_)); rfl)
    | with_reducible exact .inl rfl
    | with_reducible apply pairState_changes (hq := subParts_trans rfl hq)
    | with_reducible apply silverClear_changes (hq := subParts_trans rfl hq)
    | with_reducible apply silverRun_changes (hq := subParts_trans rfl hq)
    | with_reducible apply trayIssue_changes (hq := subParts_trans rfl hq)
    | with_reducible refine changes_ite ?_ ?_
    | (with_reducible refine changesParts_of ?_ ?_ ?_ ?_ ?_ ?_ ?_ ?_ ?_ ?_ ?_ ?_ ?_ ?_ ?_ ?_ ?_ ?_ ?_ ?_)
    | simp only [changes_mk]
    | with_reducible intro _
    | split
    | dsimp only [id])

theorem execSilver_changes {Q : List Block} {s0 : State} {w : CtlWrite} {v : PartnerView} {s : State} {tt : State} (hq : subParts [.dev, .maint, .forme, .codec, .tier, .sched, .req, .pair, .near, .rma, .links, .out] Q = true) (hk : OnlyChanges Q s0 s) (eq_ : execSilver w v s = .next tt) : OnlyChanges Q s0 tt := by
  unfold execSilver at eq_
  repeat' (first | split at eq_ | dsimp only at eq_)
  all_goals (first | (injection eq_ with eq_; subst eq_) | (cases eq_))
  repeat' (first
    | with_reducible assumption
    | ((with_reducible refine .inr (subParts_mem hq ?_)); rfl)
    | with_reducible exact .inl rfl
    | with_reducible apply silverStart_changes (hq := subParts_trans rfl hq)
    | with_reducible apply pairCtl_changes (hq := subParts_trans rfl hq)
    | with_reducible apply pairCode_changes (hq := subParts_trans rfl hq)
    | with_reducible refine changes_ite ?_ ?_
    | (with_reducible refine changesParts_of ?_ ?_ ?_ ?_ ?_ ?_ ?_ ?_ ?_ ?_ ?_ ?_ ?_ ?_ ?_ ?_ ?_ ?_ ?_ ?_)
    | simp only [changes_mk]
    | with_reducible intro _
    | split
    | dsimp only [id])

theorem execAbort_changes {Q : List Block} {s0 : State} {w : CtlWrite} {s : State}  (hq : subParts [.dev, .codec, .tier, .req, .pair, .near, .rma, .links, .free, .out] Q = true) {tt : State} (hk : OnlyChanges Q s0 s) (eq_ : execAbort w s = .next tt) : OnlyChanges Q s0 tt := by
  unfold execAbort at eq_
  repeat' (first | split at eq_ | dsimp only at eq_)
  all_goals (first | (injection eq_ with eq_; subst eq_) | (cases eq_))
  repeat' (first
    | with_reducible assumption
    | ((with_reducible refine .inr (subParts_mem hq ?_)); rfl)
    | with_reducible exact .inl rfl
    | with_reducible apply silverEnd_changes (hq := subParts_trans rfl hq)
    | with_reducible apply pairCode_changes (hq := subParts_trans rfl hq)
    | with_reducible apply pairCtl_changes (hq := subParts_trans rfl hq)
    | with_reducible refine changes_ite ?_ ?_
    | (with_reducible refine changesParts_of ?_ ?_ ?_ ?_ ?_ ?_ ?_ ?_ ?_ ?_ ?_ ?_ ?_ ?_ ?_ ?_ ?_ ?_ ?_ ?_)
    | simp only [changes_mk]
    | with_reducible intro _
    | split
    | dsimp only [id])

theorem execSuspect_changes {Q : List Block} {s0 : State} {w : CtlWrite} {s : State}  (hq : subParts [.pair, .links] Q = true) {tt : State} (hk : OnlyChanges Q s0 s) (eq_ : execSuspect w s = .next tt) : OnlyChanges Q s0 tt := by
  unfold execSuspect at eq_
  repeat' (first | split at eq_ | dsimp only at eq_)
  all_goals (first | (injection eq_ with eq_; subst eq_) | (cases eq_))
  repeat' (first
    | with_reducible assumption
    | ((with_reducible refine .inr (subParts_mem hq ?_)); rfl)
    | with_reducible exact .inl rfl
    | with_reducible apply sendSuspect_changes (hq := subParts_trans rfl hq)
    | with_reducible apply pairCode_changes (hq := subParts_trans rfl hq)
    | with_reducible apply pairCtl_changes (hq := subParts_trans rfl hq)
    | with_reducible refine changes_ite ?_ ?_
    | (with_reducible refine changesParts_of ?_ ?_ ?_ ?_ ?_ ?_ ?_ ?_ ?_ ?_ ?_ ?_ ?_ ?_ ?_ ?_ ?_ ?_ ?_ ?_)
    | simp only [changes_mk]
    | with_reducible intro _
    | split
    | dsimp only [id])

theorem execPairClr_changes {Q : List Block} {s0 : State} {w : CtlWrite} {s : State}  (hq : subParts [.pair] Q = true) {tt : State} (hk : OnlyChanges Q s0 s) (eq_ : execPairClr w s = .next tt) : OnlyChanges Q s0 tt := by
  unfold execPairClr at eq_
  repeat' (first | split at eq_ | dsimp only at eq_)
  all_goals (first | (injection eq_ with eq_; subst eq_) | (cases eq_))
  repeat' (first
    | with_reducible assumption
    | ((with_reducible refine .inr (subParts_mem hq ?_)); rfl)
    | with_reducible exact .inl rfl
    | with_reducible apply pairCode_changes (hq := subParts_trans rfl hq)
    | with_reducible apply pairCtl_changes (hq := subParts_trans rfl hq)
    | with_reducible refine changes_ite ?_ ?_
    | (with_reducible refine changesParts_of ?_ ?_ ?_ ?_ ?_ ?_ ?_ ?_ ?_ ?_ ?_ ?_ ?_ ?_ ?_ ?_ ?_ ?_ ?_ ?_)
    | simp only [changes_mk]
    | with_reducible intro _
    | split
    | dsimp only [id])

theorem execCheckpointRequest_changes {Q : List Block} {s0 : State} {s : State}  (hq : subParts [.pair, .near, .links] Q = true) {tt : State} (hk : OnlyChanges Q s0 s) (eq_ : execCheckpointRequest s = .next tt) : OnlyChanges Q s0 tt := by
  unfold execCheckpointRequest at eq_
  repeat' (first | split at eq_ | dsimp only at eq_)
  all_goals (first | (injection eq_ with eq_; subst eq_) | (cases eq_))
  repeat' (first
    | with_reducible assumption
    | ((with_reducible refine .inr (subParts_mem hq ?_)); rfl)
    | with_reducible exact .inl rfl
    | with_reducible apply unlessFenced_changes (hq := subParts_trans rfl hq)
    | with_reducible apply ckptAsk_changes (hq := subParts_trans rfl hq)
    | with_reducible refine changes_ite ?_ ?_
    | (with_reducible refine changesParts_of ?_ ?_ ?_ ?_ ?_ ?_ ?_ ?_ ?_ ?_ ?_ ?_ ?_ ?_ ?_ ?_ ?_ ?_ ?_ ?_)
    | simp only [changes_mk]
    | with_reducible intro _
    | split
    | dsimp only [id])

theorem execCkptAck_changes {Q : List Block} {s0 : State} {n : WithReads Word} {s : State} {tt : State} (hq : subParts [.dev, .maint, .forme, .codec, .tier, .sched, .req, .pair, .near, .rma, .links, .out] Q = true) (hk : OnlyChanges Q s0 s) (eq_ : execCkptAck n s = .next tt) : OnlyChanges Q s0 tt := by
  unfold execCkptAck at eq_
  repeat' (first | split at eq_ | dsimp only at eq_)
  all_goals (first | (injection eq_ with eq_; subst eq_) | (cases eq_))
  repeat' (first
    | with_reducible assumption
    | ((with_reducible refine .inr (subParts_mem hq ?_)); rfl)
    | with_reducible exact .inl rfl
    | with_reducible apply ckptAcked_changes (hq := subParts_trans rfl hq)
    | with_reducible apply unlessFenced_changes (hq := subParts_trans rfl hq)
    | with_reducible refine changes_ite ?_ ?_
    | (with_reducible refine changesParts_of ?_ ?_ ?_ ?_ ?_ ?_ ?_ ?_ ?_ ?_ ?_ ?_ ?_ ?_ ?_ ?_ ?_ ?_ ?_ ?_)
    | simp only [changes_mk]
    | with_reducible intro _
    | split
    | dsimp only [id])

theorem mapInstall_changes {Q : List Block} {s0 : State} {s : State}  (hq : subParts [.pair] Q = true) (hk : OnlyChanges Q s0 s) :
    OnlyChanges Q s0 (mapInstall s) := by
  unfold mapInstall
  repeat' (first
    | with_reducible assumption
    | ((with_reducible refine .inr (subParts_mem hq ?_)); rfl)
    | with_reducible exact .inl rfl
    | with_reducible refine changes_ite ?_ ?_
    | (with_reducible refine changesParts_of ?_ ?_ ?_ ?_ ?_ ?_ ?_ ?_ ?_ ?_ ?_ ?_ ?_ ?_ ?_ ?_ ?_ ?_ ?_ ?_)
    | simp only [changes_mk]
    | with_reducible intro _
    | split
    | dsimp only [id])

theorem execMapInstall_changes {Q : List Block} {s0 : State} {w : CtlWrite} {s : State}  (hq : subParts [.pair] Q = true) {tt : State} (hk : OnlyChanges Q s0 s) (eq_ : execMapInstall w s = .next tt) : OnlyChanges Q s0 tt := by
  unfold execMapInstall at eq_
  repeat' (first | split at eq_ | dsimp only at eq_)
  all_goals (first | (injection eq_ with eq_; subst eq_) | (cases eq_))
  repeat' (first
    | with_reducible assumption
    | ((with_reducible refine .inr (subParts_mem hq ?_)); rfl)
    | with_reducible exact .inl rfl
    | with_reducible apply mapInstall_changes (hq := subParts_trans rfl hq)
    | with_reducible apply mapPrune_changes (hq := subParts_trans rfl hq)
    | with_reducible apply pairCode_changes (hq := subParts_trans rfl hq)
    | with_reducible apply pairCtl_changes (hq := subParts_trans rfl hq)
    | with_reducible refine changes_ite ?_ ?_
    | (with_reducible refine changesParts_of ?_ ?_ ?_ ?_ ?_ ?_ ?_ ?_ ?_ ?_ ?_ ?_ ?_ ?_ ?_ ?_ ?_ ?_ ?_ ?_)
    | simp only [changes_mk]
    | with_reducible intro _
    | split
    | dsimp only [id])

theorem execMapRenew_changes {Q : List Block} {s0 : State} {w : CtlWrite} {s : State}  (hq : subParts [.pair] Q = true) {tt : State} (hk : OnlyChanges Q s0 s) (eq_ : execMapRenew w s = .next tt) : OnlyChanges Q s0 tt := by
  unfold execMapRenew at eq_
  repeat' (first | split at eq_ | dsimp only at eq_)
  all_goals (first | (injection eq_ with eq_; subst eq_) | (cases eq_))
  repeat' (first
    | with_reducible assumption
    | ((with_reducible refine .inr (subParts_mem hq ?_)); rfl)
    | with_reducible exact .inl rfl
    | with_reducible apply pairCode_changes (hq := subParts_trans rfl hq)
    | with_reducible apply pairCtl_changes (hq := subParts_trans rfl hq)
    | with_reducible refine changes_ite ?_ ?_
    | (with_reducible refine changesParts_of ?_ ?_ ?_ ?_ ?_ ?_ ?_ ?_ ?_ ?_ ?_ ?_ ?_ ?_ ?_ ?_ ?_ ?_ ?_ ?_)
    | simp only [changes_mk]
    | with_reducible intro _
    | split
    | dsimp only [id])

theorem execMapLeaseEnd_changes {Q : List Block} {s0 : State} {epoch : Word} {s : State}  (hq : subParts [.pair] Q = true) {tt : State} (hk : OnlyChanges Q s0 s) (eq_ : execMapLeaseEnd epoch s = .next tt) : OnlyChanges Q s0 tt := by
  unfold execMapLeaseEnd at eq_
  repeat' (first | split at eq_ | dsimp only at eq_)
  all_goals (first | (injection eq_ with eq_; subst eq_) | (cases eq_))
  repeat' (first
    | with_reducible assumption
    | ((with_reducible refine .inr (subParts_mem hq ?_)); rfl)
    | with_reducible exact .inl rfl
    | with_reducible apply mapPrune_changes (hq := subParts_trans rfl hq)
    | with_reducible refine changes_ite ?_ ?_
    | (with_reducible refine changesParts_of ?_ ?_ ?_ ?_ ?_ ?_ ?_ ?_ ?_ ?_ ?_ ?_ ?_ ?_ ?_ ?_ ?_ ?_ ?_ ?_)
    | simp only [changes_mk]
    | with_reducible intro _
    | split
    | dsimp only [id])

theorem renewTick_changes {Q : List Block} {s0 : State} {s : State} (hq : subParts [.pair, .links] Q = true) (hk : OnlyChanges Q s0 s) :
    OnlyChanges Q s0 (renewTick s) := by
  unfold renewTick
  repeat' (first
    | with_reducible assumption
    | ((with_reducible refine .inr (subParts_mem hq ?_)); rfl)
    | with_reducible exact .inl rfl
    | with_reducible apply slSend_changes (hq := subParts_trans rfl hq)
    | with_reducible refine changes_ite ?_ ?_
    | (with_reducible refine changesParts_of ?_ ?_ ?_ ?_ ?_ ?_ ?_ ?_ ?_ ?_ ?_ ?_ ?_ ?_ ?_ ?_ ?_ ?_ ?_ ?_)
    | simp only [changes_mk]
    | with_reducible intro _
    | split
    | dsimp only [id])

theorem execRenewTimer_changes {Q : List Block} {s0 : State} {s : State}  (hq : subParts [.pair, .links] Q = true) {tt : State} (hk : OnlyChanges Q s0 s) (eq_ : execRenewTimer s = .next tt) : OnlyChanges Q s0 tt := by
  unfold execRenewTimer at eq_
  repeat' (first | split at eq_ | dsimp only at eq_)
  all_goals (first | (injection eq_ with eq_; subst eq_) | (cases eq_))
  repeat' (first
    | with_reducible assumption
    | ((with_reducible refine .inr (subParts_mem hq ?_)); rfl)
    | with_reducible exact .inl rfl
    | with_reducible apply renewTick_changes (hq := subParts_trans rfl hq)
    | with_reducible refine changes_ite ?_ ?_
    | (with_reducible refine changesParts_of ?_ ?_ ?_ ?_ ?_ ?_ ?_ ?_ ?_ ?_ ?_ ?_ ?_ ?_ ?_ ?_ ?_ ?_ ?_ ?_)
    | simp only [changes_mk]
    | with_reducible intro _
    | split
    | dsimp only [id])

theorem grant_changes {Q : List Block} {s0 : State} {seq : Nat} {leaseMs : Nat} {s : State}  (hq : subParts [.pair] Q = true) (hk : OnlyChanges Q s0 s) :
    OnlyChanges Q s0 (grant seq leaseMs s) := by
  unfold grant
  repeat' (first
    | with_reducible assumption
    | ((with_reducible refine .inr (subParts_mem hq ?_)); rfl)
    | with_reducible exact .inl rfl
    | with_reducible refine changes_ite ?_ ?_
    | (with_reducible refine changesParts_of ?_ ?_ ?_ ?_ ?_ ?_ ?_ ?_ ?_ ?_ ?_ ?_ ?_ ?_ ?_ ?_ ?_ ?_ ?_ ?_)
    | simp only [changes_mk]
    | with_reducible intro _
    | split
    | dsimp only [id])

theorem execGrant_changes {Q : List Block} {s0 : State} {dev : DevId} {_xepoch : BitVec 16} {seq : Word} {leaseMs : Nat} {s : State}  (hq : subParts [.pair] Q = true) {tt : State} (hk : OnlyChanges Q s0 s) (eq_ : execGrant dev _xepoch seq leaseMs s = .next tt) : OnlyChanges Q s0 tt := by
  unfold execGrant at eq_
  repeat' (first | split at eq_ | dsimp only at eq_)
  all_goals (first | (injection eq_ with eq_; subst eq_) | (cases eq_))
  repeat' (first
    | with_reducible assumption
    | ((with_reducible refine .inr (subParts_mem hq ?_)); rfl)
    | with_reducible exact .inl rfl
    | with_reducible apply grant_changes (hq := subParts_trans rfl hq)
    | with_reducible refine changes_ite ?_ ?_
    | (with_reducible refine changesParts_of ?_ ?_ ?_ ?_ ?_ ?_ ?_ ?_ ?_ ?_ ?_ ?_ ?_ ?_ ?_ ?_ ?_ ?_ ?_ ?_)
    | simp only [changes_mk]
    | with_reducible intro _
    | split
    | dsimp only [id])

theorem execDeny_changes {Q : List Block} {s0 : State} {dev : DevId} {_seq : Word} {s : State}  (hq : subParts [.dev, .maint, .codec, .tier, .clusters, .sched, .req, .pair, .near, .rma, .links, .free, .out] Q = true) {tt : State} (hk : OnlyChanges Q s0 s) (eq_ : execDeny dev _seq s = .next tt) : OnlyChanges Q s0 tt := by
  unfold execDeny at eq_
  repeat' (first | split at eq_ | dsimp only at eq_)
  all_goals (first | (injection eq_ with eq_; subst eq_) | (cases eq_))
  repeat' (first
    | with_reducible assumption
    | ((with_reducible refine .inr (subParts_mem hq ?_)); rfl)
    | with_reducible exact .inl rfl
    | with_reducible apply selfFence_changes (hq := subParts_trans rfl hq)
    | with_reducible refine changes_ite ?_ ?_
    | (with_reducible refine changesParts_of ?_ ?_ ?_ ?_ ?_ ?_ ?_ ?_ ?_ ?_ ?_ ?_ ?_ ?_ ?_ ?_ ?_ ?_ ?_ ?_)
    | simp only [changes_mk]
    | with_reducible intro _
    | split
    | dsimp only [id])

theorem execLeaseExpiry_changes {Q : List Block} {s0 : State} {s : State}  (hq : subParts [.dev, .maint, .codec, .tier, .clusters, .sched, .req, .pair, .near, .rma, .links, .free, .out] Q = true) {tt : State} (hk : OnlyChanges Q s0 s) (eq_ : execLeaseExpiry s = .next tt) : OnlyChanges Q s0 tt := by
  unfold execLeaseExpiry at eq_
  repeat' (first | split at eq_ | dsimp only at eq_)
  all_goals (first | (injection eq_ with eq_; subst eq_) | (cases eq_))
  repeat' (first
    | with_reducible assumption
    | ((with_reducible refine .inr (subParts_mem hq ?_)); rfl)
    | with_reducible exact .inl rfl
    | with_reducible apply selfFence_changes (hq := subParts_trans rfl hq)
    | with_reducible refine changes_ite ?_ ?_
    | (with_reducible refine changesParts_of ?_ ?_ ?_ ?_ ?_ ?_ ?_ ?_ ?_ ?_ ?_ ?_ ?_ ?_ ?_ ?_ ?_ ?_ ?_ ?_)
    | simp only [changes_mk]
    | with_reducible intro _
    | split
    | dsimp only [id])

theorem execExclude_changes {Q : List Block} {s0 : State} {dev : DevId} {xepoch : BitVec 16} {s : State}  (hq : subParts [.dev, .maint, .sec, .host, .forme, .codec, .tier, .clusters, .sched, .repro, .req, .pair, .near, .rma, .links, .free, .out] Q = true) {tt : State} (hk : OnlyChanges Q s0 s) (eq_ : execExclude dev xepoch s = .next tt) : OnlyChanges Q s0 tt := by
  unfold execExclude at eq_
  repeat' (first | split at eq_ | dsimp only at eq_)
  all_goals (first | (injection eq_ with eq_; subst eq_) | (cases eq_))
  repeat' (first
    | with_reducible assumption
    | ((with_reducible refine .inr (subParts_mem hq ?_)); rfl)
    | with_reducible exact .inl rfl
    | with_reducible apply unlessFenced_changes (hq := subParts_trans rfl hq)
    | with_reducible apply excludePeer_changes (hq := subParts_trans rfl hq)
    | with_reducible apply selfFence_changes (hq := subParts_trans rfl hq)
    | with_reducible refine changes_ite ?_ ?_
    | (with_reducible refine changesParts_of ?_ ?_ ?_ ?_ ?_ ?_ ?_ ?_ ?_ ?_ ?_ ?_ ?_ ?_ ?_ ?_ ?_ ?_ ?_ ?_)
    | simp only [changes_mk]
    | with_reducible intro _
    | split
    | dsimp only [id])

theorem execAdmitMsg_changes {Q : List Block} {s0 : State} {dev : DevId} {xepoch : BitVec 16} {seq : Word} {leaseMs : Nat} {table : List (DevId × Bool × BitVec 16)} {s : State}  (hq : subParts [.dev, .maint, .sec, .host, .codec, .tier, .clusters, .sched, .repro, .req, .pair, .near, .rma, .links, .free, .out] Q = true) {tt : State} (hk : OnlyChanges Q s0 s) (eq_ : execAdmitMsg dev xepoch seq leaseMs table s = .next tt) : OnlyChanges Q s0 tt := by
  unfold execAdmitMsg at eq_
  repeat' (first | split at eq_ | dsimp only at eq_)
  all_goals (first | (injection eq_ with eq_; subst eq_) | (cases eq_))
  repeat' (first
    | with_reducible assumption
    | ((with_reducible refine .inr (subParts_mem hq ?_)); rfl)
    | with_reducible exact .inl rfl
    | with_reducible apply readmit_changes (hq := subParts_trans rfl hq)
    | with_reducible refine changes_ite ?_ ?_
    | (with_reducible refine changesParts_of ?_ ?_ ?_ ?_ ?_ ?_ ?_ ?_ ?_ ?_ ?_ ?_ ?_ ?_ ?_ ?_ ?_ ?_ ?_ ?_)
    | simp only [changes_mk]
    | with_reducible intro _
    | split
    | dsimp only [id])

theorem execJoin_changes {Q : List Block} {s0 : State} {dev : DevId} {xepoch : BitVec 16} {s : State}  (hq : subParts [.dev, .maint, .forme, .codec, .tier, .clusters, .sched, .req, .pair, .near, .rma, .links, .free, .out] Q = true) {tt : State} (hk : OnlyChanges Q s0 s) (eq_ : execJoin dev xepoch s = .next tt) : OnlyChanges Q s0 tt := by
  unfold execJoin at eq_
  repeat' (first | split at eq_ | dsimp only at eq_)
  all_goals (first | (injection eq_ with eq_; subst eq_) | (cases eq_))
  repeat' (first
    | with_reducible assumption
    | ((with_reducible refine .inr (subParts_mem hq ?_)); rfl)
    | with_reducible exact .inl rfl
    | with_reducible apply unlessFenced_changes (hq := subParts_trans rfl hq)
    | with_reducible apply joinPeer_changes (hq := subParts_trans rfl hq)
    | with_reducible refine changes_ite ?_ ?_
    | (with_reducible refine changesParts_of ?_ ?_ ?_ ?_ ?_ ?_ ?_ ?_ ?_ ?_ ?_ ?_ ?_ ?_ ?_ ?_ ?_ ?_ ?_ ?_)
    | simp only [changes_mk]
    | with_reducible intro _
    | split
    | dsimp only [id])

end Sys2Proof.Machine
end

