-- ==== Sys2Proof/Laws/ChangesCompositor.lean ====
section
/-!
SUPPORT. The blocks of the state that the operations of Sys2Proof/Machine/Compositor.lean may change.
-/

namespace Sys2Proof.Machine

theorem control_changes {Q : List Block} {s0 : State} {cl : ClusterId} {op : Byte} {f : Cluster → Cluster} {s : State}  (hq : subParts [.clusters] Q = true) {tt : State} (hk : OnlyChanges Q s0 s) (eq_ : control cl op f s = .next tt) : OnlyChanges Q s0 tt := by
  unfold control at eq_
  repeat' (first | split at eq_ | dsimp only at eq_)
  all_goals (first | (injection eq_ with eq_; subst eq_) | (cases eq_))
  repeat' (first
    | with_reducible assumption
    | ((with_reducible refine .inr (subParts_mem hq ?_)); rfl)
    | with_reducible exact .inl rfl
    | with_reducible apply clusterUpd_changes (hq := subParts_trans rfl hq)
    | with_reducible refine changes_ite ?_ ?_
    | (with_reducible refine changesParts_of ?_ ?_ ?_ ?_ ?_ ?_ ?_ ?_ ?_ ?_ ?_ ?_ ?_ ?_ ?_ ?_ ?_ ?_ ?_ ?_)
    | simp only [changes_mk]
    | with_reducible intro _
    | split
    | dsimp only [id])

theorem execNop_changes {Q : List Block} {s0 : State} {cl : ClusterId} {s : State}  (hq : subParts [.clusters] Q = true) {tt : State} (hk : OnlyChanges Q s0 s) (eq_ : execNop cl s = .next tt) : OnlyChanges Q s0 tt := by
  unfold execNop at eq_
  repeat' (first | split at eq_ | dsimp only at eq_)
  all_goals (first | (with_reducible refine control_changes (subParts_trans rfl hq) ?_ eq_) | (injection eq_ with eq_; subst eq_) | (cases eq_))
  repeat' (first
    | with_reducible assumption
    | ((with_reducible refine .inr (subParts_mem hq ?_)); rfl)
    | with_reducible exact .inl rfl
    | with_reducible refine changes_ite ?_ ?_
    | (with_reducible refine changesParts_of ?_ ?_ ?_ ?_ ?_ ?_ ?_ ?_ ?_ ?_ ?_ ?_ ?_ ?_ ?_ ?_ ?_ ?_ ?_ ?_)
    | simp only [changes_mk]
    | with_reducible intro _
    | split
    | dsimp only [id])

theorem execSeta_changes {Q : List Block} {s0 : State} {cl : ClusterId} {a : BitVec 4} {v : Word} {s : State}  (hq : subParts [.clusters] Q = true) {tt : State} (hk : OnlyChanges Q s0 s) (eq_ : execSeta cl a v s = .next tt) : OnlyChanges Q s0 tt := by
  unfold execSeta at eq_
  repeat' (first | split at eq_ | dsimp only at eq_)
  all_goals (first | (with_reducible refine control_changes (subParts_trans rfl hq) ?_ eq_) | (injection eq_ with eq_; subst eq_) | (cases eq_))
  repeat' (first
    | with_reducible assumption
    | ((with_reducible refine .inr (subParts_mem hq ?_)); rfl)
    | with_reducible exact .inl rfl
    | with_reducible refine changes_ite ?_ ?_
    | (with_reducible refine changesParts_of ?_ ?_ ?_ ?_ ?_ ?_ ?_ ?_ ?_ ?_ ?_ ?_ ?_ ?_ ?_ ?_ ?_ ?_ ?_ ?_)
    | simp only [changes_mk]
    | with_reducible intro _
    | split
    | dsimp only [id])

theorem execAdda_changes {Q : List Block} {s0 : State} {cl : ClusterId} {a : BitVec 4} {v : Word} {s : State}  (hq : subParts [.clusters] Q = true) {tt : State} (hk : OnlyChanges Q s0 s) (eq_ : execAdda cl a v s = .next tt) : OnlyChanges Q s0 tt := by
  unfold execAdda at eq_
  repeat' (first | split at eq_ | dsimp only at eq_)
  all_goals (first | (with_reducible refine control_changes (subParts_trans rfl hq) ?_ eq_) | (injection eq_ with eq_; subst eq_) | (cases eq_))
  repeat' (first
    | with_reducible assumption
    | ((with_reducible refine .inr (subParts_mem hq ?_)); rfl)
    | with_reducible exact .inl rfl
    | with_reducible refine changes_ite ?_ ?_
    | (with_reducible refine changesParts_of ?_ ?_ ?_ ?_ ?_ ?_ ?_ ?_ ?_ ?_ ?_ ?_ ?_ ?_ ?_ ?_ ?_ ?_ ?_ ?_)
    | simp only [changes_mk]
    | with_reducible intro _
    | split
    | dsimp only [id])

theorem execLoop_changes {Q : List Block} {s0 : State} {cl : ClusterId} {count : BitVec 16} {last : BitVec 14} {s : State}  (hq : subParts [.clusters] Q = true) {tt : State} (hk : OnlyChanges Q s0 s) (eq_ : execLoop cl count last s = .next tt) : OnlyChanges Q s0 tt := by
  unfold execLoop at eq_
  repeat' (first | split at eq_ | dsimp only at eq_)
  all_goals (first | (with_reducible refine control_changes (subParts_trans rfl hq) ?_ eq_) | (injection eq_ with eq_; subst eq_) | (cases eq_))
  repeat' (first
    | with_reducible assumption
    | ((with_reducible refine .inr (subParts_mem hq ?_)); rfl)
    | with_reducible exact .inl rfl
    | with_reducible refine changes_ite ?_ ?_
    | (with_reducible refine changesParts_of ?_ ?_ ?_ ?_ ?_ ?_ ?_ ?_ ?_ ?_ ?_ ?_ ?_ ?_ ?_ ?_ ?_ ?_ ?_ ?_)
    | simp only [changes_mk]
    | with_reducible intro _
    | split
    | dsimp only [id])

theorem execJump_changes {Q : List Block} {s0 : State} {cl : ClusterId} {t : BitVec 14} {s : State}  (hq : subParts [.clusters] Q = true) {tt : State} (hk : OnlyChanges Q s0 s) (eq_ : execJump cl t s = .next tt) : OnlyChanges Q s0 tt := by
  unfold execJump at eq_
  repeat' (first | split at eq_ | dsimp only at eq_)
  all_goals (first | (injection eq_ with eq_; subst eq_) | (cases eq_))
  repeat' (first
    | with_reducible assumption
    | ((with_reducible refine .inr (subParts_mem hq ?_)); rfl)
    | with_reducible exact .inl rfl
    | with_reducible apply clusterUpd_changes (hq := subParts_trans rfl hq)
    | with_reducible refine changes_ite ?_ ?_
    | (with_reducible refine changesParts_of ?_ ?_ ?_ ?_ ?_ ?_ ?_ ?_ ?_ ?_ ?_ ?_ ?_ ?_ ?_ ?_ ?_ ?_ ?_ ?_)
    | simp only [changes_mk]
    | with_reducible intro _
    | split
    | dsimp only [id])

theorem execBranch_changes {Q : List Block} {s0 : State} {cl : ClusterId} {a : BitVec 4} {t : BitVec 14} {s : State}  (hq : subParts [.clusters] Q = true) {tt : State} (hk : OnlyChanges Q s0 s) (eq_ : execBranch cl a t s = .next tt) : OnlyChanges Q s0 tt := by
  unfold execBranch at eq_
  repeat' (first | split at eq_ | dsimp only at eq_)
  all_goals (first | (injection eq_ with eq_; subst eq_) | (cases eq_))
  repeat' (first
    | with_reducible assumption
    | ((with_reducible refine .inr (subParts_mem hq ?_)); rfl)
    | with_reducible exact .inl rfl
    | with_reducible apply clusterUpd_changes (hq := subParts_trans rfl hq)
    | with_reducible refine changes_ite ?_ ?_
    | (with_reducible refine changesParts_of ?_ ?_ ?_ ?_ ?_ ?_ ?_ ?_ ?_ ?_ ?_ ?_ ?_ ?_ ?_ ?_ ?_ ?_ ?_ ?_)
    | simp only [changes_mk]
    | with_reducible intro _
    | split
    | dsimp only [id])

theorem execLda_changes {Q : List Block} {s0 : State} {cl : ClusterId} {a : BitVec 4} {b : BitVec 4} {off : Word} {s : State}  (hq : subParts [.clusters, .free] Q = true) {tt : State} (hk : OnlyChanges Q s0 s) (eq_ : execLda cl a b off s = .next tt) : OnlyChanges Q s0 tt := by
  unfold execLda at eq_
  repeat' (first | split at eq_ | dsimp only at eq_)
  all_goals (first | (injection eq_ with eq_; subst eq_) | (cases eq_))
  repeat' (first
    | with_reducible assumption
    | ((with_reducible refine .inr (subParts_mem hq ?_)); rfl)
    | with_reducible exact .inl rfl
    | with_reducible apply clusterUpd_changes (hq := subParts_trans rfl hq)
    | with_reducible apply bumpFree_changes (hq := subParts_trans rfl hq)
    | with_reducible refine changes_ite ?_ ?_
    | (with_reducible refine changesParts_of ?_ ?_ ?_ ?_ ?_ ?_ ?_ ?_ ?_ ?_ ?_ ?_ ?_ ?_ ?_ ?_ ?_ ?_ ?_ ?_)
    | simp only [changes_mk]
    | with_reducible intro _
    | split
    | dsimp only [id])

theorem execLive_changes {Q : List Block} {s0 : State} {cl : ClusterId} {id : BitVec 5} {startKib : BitVec 11} {lenM1 : BitVec 11} {end_ : Bool} {s : State} {tt : State} (hq : subParts [.dev, .maint, .clusters, .req, .rma, .links, .out] Q = true) (hk : OnlyChanges Q s0 s) (eq_ : execLive cl id startKib lenM1 end_ s = .next tt) : OnlyChanges Q s0 tt := by
  unfold execLive at eq_
  repeat' (first | split at eq_ | dsimp only at eq_)
  all_goals (first | (injection eq_ with eq_; subst eq_) | (cases eq_))
  repeat' (first
    | with_reducible assumption
    | ((with_reducible refine .inr (subParts_mem hq ?_)); rfl)
    | with_reducible exact .inl rfl
    | with_reducible apply clusterUpd_changes (hq := subParts_trans rfl hq)
    | with_reducible apply endItem_changes (hq := subParts_trans rfl hq)
    | with_reducible refine changes_ite ?_ ?_
    | (with_reducible refine changesParts_of ?_ ?_ ?_ ?_ ?_ ?_ ?_ ?_ ?_ ?_ ?_ ?_ ?_ ?_ ?_ ?_ ?_ ?_ ?_ ?_)
    | simp only [changes_mk]
    | with_reducible intro _
    | split
    | dsimp only [id])

theorem waitwq_changes {Q : List Block} {s0 : State} {n : Nat} {s : State}  (hq : subParts [.maint, .clusters, .sched, .req] Q = true) (hk : OnlyChanges Q s0 s) :
    OnlyChanges Q s0 (waitwq n s) := by
  unfold waitwq
  repeat' (first
    | with_reducible assumption
    | ((with_reducible refine .inr (subParts_mem hq ?_)); rfl)
    | with_reducible exact .inl rfl
    | with_reducible apply postWaiting_changes (hq := subParts_trans rfl hq)
    | with_reducible apply clusterUpd_changes (hq := subParts_trans rfl hq)
    | with_reducible apply vtRefresh_changes (hq := subParts_trans rfl hq)
    | with_reducible apply itemGone_changes (hq := subParts_trans rfl hq)
    | with_reducible apply takeItem_changes (hq := subParts_trans rfl hq)
    | with_reducible apply rebind_changes (hq := subParts_trans rfl hq)
    | with_reducible refine changes_ite ?_ ?_
    | (with_reducible refine changesParts_of ?_ ?_ ?_ ?_ ?_ ?_ ?_ ?_ ?_ ?_ ?_ ?_ ?_ ?_ ?_ ?_ ?_ ?_ ?_ ?_)
    | simp only [changes_mk]
    | with_reducible intro _
    | split
    | dsimp only [id])

theorem execWaitwq_changes {Q : List Block} {s0 : State} {cl : ClusterId} {s : State}  (hq : subParts [.maint, .clusters, .sched, .req] Q = true) {tt : State} (hk : OnlyChanges Q s0 s) (eq_ : execWaitwq cl s = .next tt) : OnlyChanges Q s0 tt := by
  unfold execWaitwq at eq_
  repeat' (first | split at eq_ | dsimp only at eq_)
  all_goals (first | (injection eq_ with eq_; subst eq_) | (cases eq_))
  repeat' (first
    | with_reducible assumption
    | ((with_reducible refine .inr (subParts_mem hq ?_)); rfl)
    | with_reducible exact .inl rfl
    | with_reducible apply waitwq_changes (hq := subParts_trans rfl hq)
    | with_reducible refine changes_ite ?_ ?_
    | (with_reducible refine changesParts_of ?_ ?_ ?_ ?_ ?_ ?_ ?_ ?_ ?_ ?_ ?_ ?_ ?_ ?_ ?_ ?_ ?_ ?_ ?_ ?_)
    | simp only [changes_mk]
    | with_reducible intro _
    | split
    | dsimp only [id])

theorem execDonewq_changes {Q : List Block} {s0 : State} {cl : ClusterId} {status : Byte} {s : State}  (hq : subParts [.maint, .clusters] Q = true) {tt : State} (hk : OnlyChanges Q s0 s) (eq_ : execDonewq cl status s = .next tt) : OnlyChanges Q s0 tt := by
  unfold execDonewq at eq_
  repeat' (first | split at eq_ | dsimp only at eq_)
  all_goals (first | (injection eq_ with eq_; subst eq_) | (cases eq_))
  repeat' (first
    | with_reducible assumption
    | ((with_reducible refine .inr (subParts_mem hq ?_)); rfl)
    | with_reducible exact .inl rfl
    | with_reducible apply clusterUpd_changes (hq := subParts_trans rfl hq)
    | with_reducible apply itemGone_changes (hq := subParts_trans rfl hq)
    | with_reducible refine changes_ite ?_ ?_
    | (with_reducible refine changesParts_of ?_ ?_ ?_ ?_ ?_ ?_ ?_ ?_ ?_ ?_ ?_ ?_ ?_ ?_ ?_ ?_ ?_ ?_ ?_ ?_)
    | simp only [changes_mk]
    | with_reducible intro _
    | split
    | dsimp only [id])

theorem execWorkItemPost_changes {Q : List Block} {s0 : State} {cl : ClusterId} {i : WorkItem} {s : State} {tt : State} (hq : subParts [.maint, .clusters, .sched, .req] Q = true) (hk : OnlyChanges Q s0 s) (eq_ : execWorkItemPost cl i s = .next tt) : OnlyChanges Q s0 tt := by
  unfold execWorkItemPost at eq_
  repeat' (first | split at eq_ | dsimp only at eq_)
  all_goals (first | (injection eq_ with eq_; subst eq_) | (cases eq_))
  repeat' (first
    | with_reducible assumption
    | ((with_reducible refine .inr (subParts_mem hq ?_)); rfl)
    | with_reducible exact .inl rfl
    | with_reducible apply rebind_changes (hq := subParts_trans rfl hq)
    | with_reducible apply postWaiting_changes (hq := subParts_trans rfl hq)
    | with_reducible apply armSchedule_changes (hq := subParts_trans rfl hq)
    | with_reducible apply vtRefresh_changes (hq := subParts_trans rfl hq)
    | with_reducible refine changes_ite ?_ ?_
    | (with_reducible refine changesParts_of ?_ ?_ ?_ ?_ ?_ ?_ ?_ ?_ ?_ ?_ ?_ ?_ ?_ ?_ ?_ ?_ ?_ ?_ ?_ ?_)
    | simp only [changes_mk]
    | with_reducible intro _
    | split
    | dsimp only [id])

theorem podArrive_changes {Q : List Block} {s0 : State} {p : Nat} {c : Nat} {id : Nat} {s : State}  (hq : subParts [.repro, .rma, .links, .out] Q = true) (hk : OnlyChanges Q s0 s) :
    OnlyChanges Q s0 (podArrive p c id s) := by
  unfold podArrive
  repeat' (first
    | with_reducible assumption
    | ((with_reducible refine .inr (subParts_mem hq ?_)); rfl)
    | with_reducible exact .inl rfl
    | with_reducible apply getD_changes
    | with_reducible apply sendFw_changes (hq := subParts_trans rfl hq)
    | with_reducible refine changes_ite ?_ ?_
    | (with_reducible refine changesParts_of ?_ ?_ ?_ ?_ ?_ ?_ ?_ ?_ ?_ ?_ ?_ ?_ ?_ ?_ ?_ ?_ ?_ ?_ ?_ ?_)
    | simp only [changes_mk]
    | with_reducible intro _
    | split
    | dsimp only [id])

theorem execBarrier_changes {Q : List Block} {s0 : State} {cl : ClusterId} {id : Byte} {scope : BitVec 2} {s : State}  (hq : subParts [.clusters, .sched, .repro, .req, .rma, .links, .out] Q = true) {tt : State} (hk : OnlyChanges Q s0 s) (eq_ : execBarrier cl id scope s = .next tt) : OnlyChanges Q s0 tt := by
  unfold execBarrier at eq_
  repeat' (first | split at eq_ | dsimp only at eq_)
  all_goals (first | (injection eq_ with eq_; subst eq_) | (cases eq_))
  repeat' (first
    | with_reducible assumption
    | ((with_reducible refine .inr (subParts_mem hq ?_)); rfl)
    | with_reducible exact .inl rfl
    | with_reducible apply getD_changes
    | with_reducible apply clusterUpd_changes (hq := subParts_trans rfl hq)
    | with_reducible apply vtRefresh_changes (hq := subParts_trans rfl hq)
    | with_reducible apply podArrive_changes (hq := subParts_trans rfl hq)
    | with_reducible apply rebind_changes (hq := subParts_trans rfl hq)
    | with_reducible refine changes_ite ?_ ?_
    | (with_reducible refine changesParts_of ?_ ?_ ?_ ?_ ?_ ?_ ?_ ?_ ?_ ?_ ?_ ?_ ?_ ?_ ?_ ?_ ?_ ?_ ?_ ?_)
    | simp only [changes_mk]
    | with_reducible intro _
    | split
    | dsimp only [id])

theorem releaseOne_changes {Q : List Block} {s0 : State} {c : Nat} {s : State} {n : Nat}  (hq : subParts [.clusters, .sched] Q = true) (hk : OnlyChanges Q s0 s) :
    OnlyChanges Q s0 (releaseOne c s n) := by
  unfold releaseOne
  repeat' (first
    | with_reducible assumption
    | ((with_reducible refine .inr (subParts_mem hq ?_)); rfl)
    | with_reducible exact .inl rfl
    | with_reducible apply clusterUpd_changes (hq := subParts_trans rfl hq)
    | with_reducible refine changes_ite ?_ ?_
    | (with_reducible refine changesParts_of ?_ ?_ ?_ ?_ ?_ ?_ ?_ ?_ ?_ ?_ ?_ ?_ ?_ ?_ ?_ ?_ ?_ ?_ ?_ ?_)
    | simp only [changes_mk]
    | with_reducible intro _
    | split
    | dsimp only [id])

theorem releaseBarrier_changes {Q : List Block} {s0 : State} {c : Nat} {scope : Nat} {id : Nat} {ns : List Nat} {s : State}  (hq : subParts [.clusters, .sched, .req] Q = true) (hk : OnlyChanges Q s0 s) :
    OnlyChanges Q s0 (releaseBarrier c scope id ns s) := by
  unfold releaseBarrier
  repeat' (first
    | with_reducible assumption
    | ((with_reducible refine .inr (subParts_mem hq ?_)); rfl)
    | with_reducible exact .inl rfl
    | with_reducible apply foldl_changes
    | with_reducible apply foldl_changes_fst
    | with_reducible apply foldl_changes_snd
    | with_reducible apply getD_changes
    | with_reducible apply releaseOne_changes (hq := subParts_trans rfl hq)
    | with_reducible apply rebind_changes (hq := subParts_trans rfl hq)
    | with_reducible refine changes_ite ?_ ?_
    | (with_reducible refine changesParts_of ?_ ?_ ?_ ?_ ?_ ?_ ?_ ?_ ?_ ?_ ?_ ?_ ?_ ?_ ?_ ?_ ?_ ?_ ?_ ?_)
    | simp only [changes_mk]
    | with_reducible intro _
    | split
    | dsimp only [id])

theorem regionRelease_changes {Q : List Block} {s0 : State} {r : Nat} {c : Nat} {id : Nat} {s : State}  (hq : subParts [.clusters, .sched, .req] Q = true) (hk : OnlyChanges Q s0 s) :
    OnlyChanges Q s0 (regionRelease r c id s) := by
  unfold regionRelease
  repeat' (first
    | with_reducible assumption
    | ((with_reducible refine .inr (subParts_mem hq ?_)); rfl)
    | with_reducible exact .inl rfl
    | with_reducible apply releaseBarrier_changes (hq := subParts_trans rfl hq)
    | with_reducible refine changes_ite ?_ ?_
    | (with_reducible refine changesParts_of ?_ ?_ ?_ ?_ ?_ ?_ ?_ ?_ ?_ ?_ ?_ ?_ ?_ ?_ ?_ ?_ ?_ ?_ ?_ ?_)
    | simp only [changes_mk]
    | with_reducible intro _
    | split
    | dsimp only [id])

theorem execRegionBarrierRelease_changes {Q : List Block} {s0 : State} {r : RegionId} {ctx : FnId} {id : Byte} {s : State}  (hq : subParts [.clusters, .sched, .req] Q = true) {tt : State} (hk : OnlyChanges Q s0 s) (eq_ : execRegionBarrierRelease r ctx id s = .next tt) : OnlyChanges Q s0 tt := by
  unfold execRegionBarrierRelease at eq_
  repeat' (first | split at eq_ | dsimp only at eq_)
  all_goals (first | (injection eq_ with eq_; subst eq_) | (cases eq_))
  repeat' (first
    | with_reducible assumption
    | ((with_reducible refine .inr (subParts_mem hq ?_)); rfl)
    | with_reducible exact .inl rfl
    | with_reducible apply regionRelease_changes (hq := subParts_trans rfl hq)
    | with_reducible refine changes_ite ?_ ?_
    | (with_reducible refine changesParts_of ?_ ?_ ?_ ?_ ?_ ?_ ?_ ?_ ?_ ?_ ?_ ?_ ?_ ?_ ?_ ?_ ?_ ?_ ?_ ?_)
    | simp only [changes_mk]
    | with_reducible intro _
    | split
    | dsimp only [id])

theorem execDieBarrierRelease_changes {Q : List Block} {s0 : State} {p : PartId} {ctx : FnId} {id : Byte} {s : State}  (hq : subParts [.clusters, .sched, .req] Q = true) {tt : State} (hk : OnlyChanges Q s0 s) (eq_ : execDieBarrierRelease p ctx id s = .next tt) : OnlyChanges Q s0 tt := by
  unfold execDieBarrierRelease at eq_
  repeat' (first | split at eq_ | dsimp only at eq_)
  all_goals (first | (injection eq_ with eq_; subst eq_) | (cases eq_))
  repeat' (first
    | with_reducible assumption
    | ((with_reducible refine .inr (subParts_mem hq ?_)); rfl)
    | with_reducible exact .inl rfl
    | with_reducible apply getD_changes
    | with_reducible apply releaseBarrier_changes (hq := subParts_trans rfl hq)
    | with_reducible refine changes_ite ?_ ?_
    | (with_reducible refine changesParts_of ?_ ?_ ?_ ?_ ?_ ?_ ?_ ?_ ?_ ?_ ?_ ?_ ?_ ?_ ?_ ?_ ?_ ?_ ?_ ?_)
    | simp only [changes_mk]
    | with_reducible intro _
    | split
    | dsimp only [id])

theorem execWaitch_changes {Q : List Block} {s0 : State} {cl : ClusterId} {a : BitVec 4} {timeout : BitVec 20} {count : Byte} {credits : Bool} {ch : BitVec 5} {s : State}  (hq : subParts [.dev, .maint, .clusters, .sched, .req, .rma, .links, .out] Q = true) {tt : State} (hk : OnlyChanges Q s0 s) (eq_ : execWaitch cl a timeout count credits ch s = .next tt) : OnlyChanges Q s0 tt := by
  unfold execWaitch at eq_
  repeat' (first | split at eq_ | dsimp only at eq_)
  all_goals (first | (injection eq_ with eq_; subst eq_) | (cases eq_))
  repeat' (first
    | with_reducible assumption
    | ((with_reducible refine .inr (subParts_mem hq ?_)); rfl)
    | with_reducible exact .inl rfl
    | with_reducible apply clusterUpd_changes (hq := subParts_trans rfl hq)
    | with_reducible apply vtRefresh_changes (hq := subParts_trans rfl hq)
    | with_reducible apply wakeWait_changes (hq := subParts_trans rfl hq)
    | with_reducible apply endItem_changes (hq := subParts_trans rfl hq)
    | with_reducible apply rebind_changes (hq := subParts_trans rfl hq)
    | with_reducible refine changes_ite ?_ ?_
    | (with_reducible refine changesParts_of ?_ ?_ ?_ ?_ ?_ ?_ ?_ ?_ ?_ ?_ ?_ ?_ ?_ ?_ ?_ ?_ ?_ ?_ ?_ ?_)
    | simp only [changes_mk]
    | with_reducible intro _
    | split
    | dsimp only [id])

theorem execWaitchTimeout_changes {Q : List Block} {s0 : State} {cl : ClusterId} {s : State}  (hq : subParts [.clusters, .sched, .req] Q = true) {tt : State} (hk : OnlyChanges Q s0 s) (eq_ : execWaitchTimeout cl s = .next tt) : OnlyChanges Q s0 tt := by
  unfold execWaitchTimeout at eq_
  repeat' (first | split at eq_ | dsimp only at eq_)
  all_goals (first | (injection eq_ with eq_; subst eq_) | (cases eq_))
  repeat' (first
    | with_reducible assumption
    | ((with_reducible refine .inr (subParts_mem hq ?_)); rfl)
    | with_reducible exact .inl rfl
    | with_reducible apply waitTimeout_changes (hq := subParts_trans rfl hq)
    | with_reducible apply vtRefresh_changes (hq := subParts_trans rfl hq)
    | with_reducible apply rebind_changes (hq := subParts_trans rfl hq)
    | with_reducible refine changes_ite ?_ ?_
    | (with_reducible refine changesParts_of ?_ ?_ ?_ ?_ ?_ ?_ ?_ ?_ ?_ ?_ ?_ ?_ ?_ ?_ ?_ ?_ ?_ ?_ ?_ ?_)
    | simp only [changes_mk]
    | with_reducible intro _
    | split
    | dsimp only [id])

theorem execChannelRearm_changes {Q : List Block} {s0 : State} {cl : ClusterId} {ch : BitVec 5} {s : State} {tt : State} (hq : subParts [.clusters, .near, .rma] Q = true) (hk : OnlyChanges Q s0 s) (eq_ : execChannelRearm cl ch s = .next tt) : OnlyChanges Q s0 tt := by
  unfold execChannelRearm at eq_
  repeat' (first | split at eq_ | dsimp only at eq_)
  all_goals (first | (injection eq_ with eq_; subst eq_) | (cases eq_))
  repeat' (first
    | with_reducible assumption
    | ((with_reducible refine .inr (subParts_mem hq ?_)); rfl)
    | with_reducible exact .inl rfl
    | with_reducible apply rearmPeer_changes (hq := subParts_trans rfl hq)
    | with_reducible apply rearmChan_changes (hq := subParts_trans rfl hq)
    | with_reducible refine changes_ite ?_ ?_
    | (with_reducible refine changesParts_of ?_ ?_ ?_ ?_ ?_ ?_ ?_ ?_ ?_ ?_ ?_ ?_ ?_ ?_ ?_ ?_ ?_ ?_ ?_ ?_)
    | simp only [changes_mk]
    | with_reducible intro _
    | split
    | dsimp only [id])

theorem setQuiesce_changes {Q : List Block} {s0 : State} {n : Nat} {w : CtlWrite} {s : State}  (hq : subParts [.clusters] Q = true) (hk : OnlyChanges Q s0 s) :
    OnlyChanges Q s0 (setQuiesce n w s) := by
  unfold setQuiesce
  repeat' (first
    | with_reducible assumption
    | ((with_reducible refine .inr (subParts_mem hq ?_)); rfl)
    | with_reducible exact .inl rfl
    | with_reducible apply clusterUpd_changes (hq := subParts_trans rfl hq)
    | with_reducible apply takeItem_changes (hq := subParts_trans rfl hq)
    | with_reducible refine changes_ite ?_ ?_
    | (with_reducible refine changesParts_of ?_ ?_ ?_ ?_ ?_ ?_ ?_ ?_ ?_ ?_ ?_ ?_ ?_ ?_ ?_ ?_ ?_ ?_ ?_ ?_)
    | simp only [changes_mk]
    | with_reducible intro _
    | split
    | dsimp only [id])

theorem clusterCtl_changes {Q : List Block} {s0 : State} {n : Nat} {w : CtlWrite} {own : Nat} {run : State → State} {s : State} (h_run : ∀ (u : State), OnlyChanges Q s0 u → OnlyChanges Q s0 (run u)) (hq : subParts [.clusters] Q = true) (hk : OnlyChanges Q s0 s) :
    OnlyChanges Q s0 (clusterCtl n w own run s) := by
  unfold clusterCtl
  repeat' (first
    | with_reducible assumption
    | ((with_reducible refine .inr (subParts_mem hq ?_)); rfl)
    | with_reducible exact .inl rfl
    | with_reducible apply setQuiesce_changes (hq := subParts_trans rfl hq)
    | with_reducible apply ctl_changes (hq := subParts_trans rfl hq)
    | with_reducible apply h_run
    | with_reducible refine changes_ite ?_ ?_
    | (with_reducible refine changesParts_of ?_ ?_ ?_ ?_ ?_ ?_ ?_ ?_ ?_ ?_ ?_ ?_ ?_ ?_ ?_ ?_ ?_ ?_ ?_ ?_)
    | simp only [changes_mk]
    | with_reducible intro _
    | split
    | dsimp only [id])

theorem execClusterClr_changes {Q : List Block} {s0 : State} {cl : ClusterId} {w : CtlWrite} {s : State}  (hq : subParts [.clusters] Q = true) {tt : State} (hk : OnlyChanges Q s0 s) (eq_ : execClusterClr cl w s = .next tt) : OnlyChanges Q s0 tt := by
  unfold execClusterClr at eq_
  repeat' (first | split at eq_ | dsimp only at eq_)
  all_goals (first | (injection eq_ with eq_; subst eq_) | (cases eq_))
  repeat' (first
    | with_reducible assumption
    | ((with_reducible refine .inr (subParts_mem hq ?_)); rfl)
    | with_reducible exact .inl rfl
    | with_reducible apply clusterUpd_changes (hq := subParts_trans rfl hq)
    | with_reducible apply clusterCtl_changes (hq := subParts_trans rfl hq)
    | with_reducible refine changes_ite ?_ ?_
    | (with_reducible refine changesParts_of ?_ ?_ ?_ ?_ ?_ ?_ ?_ ?_ ?_ ?_ ?_ ?_ ?_ ?_ ?_ ?_ ?_ ?_ ?_ ?_)
    | simp only [changes_mk]
    | with_reducible intro _
    | split
    | dsimp only [id])

theorem execQuiesce_changes {Q : List Block} {s0 : State} {cl : ClusterId} {w : CtlWrite} {s : State}  (hq : subParts [.clusters] Q = true) {tt : State} (hk : OnlyChanges Q s0 s) (eq_ : execQuiesce cl w s = .next tt) : OnlyChanges Q s0 tt := by
  unfold execQuiesce at eq_
  repeat' (first | split at eq_ | dsimp only at eq_)
  all_goals (first | (injection eq_ with eq_; subst eq_) | (cases eq_))
  repeat' (first
    | with_reducible assumption
    | ((with_reducible refine .inr (subParts_mem hq ?_)); rfl)
    | with_reducible exact .inl rfl
    | with_reducible apply clusterCtl_changes (hq := subParts_trans rfl hq)
    | with_reducible refine changes_ite ?_ ?_
    | (with_reducible refine changesParts_of ?_ ?_ ?_ ?_ ?_ ?_ ?_ ?_ ?_ ?_ ?_ ?_ ?_ ?_ ?_ ?_ ?_ ?_ ?_ ?_)
    | simp only [changes_mk]
    | with_reducible intro _
    | split
    | dsimp only [id])

end Sys2Proof.Machine
end

