-- ==== Sys2Proof/Laws/ChangesRma.lean ====
section
/-!
SUPPORT. The blocks of the state that the operations of Sys2Proof/Machine/Rma.lean may change.
-/

namespace Sys2Proof.Machine

theorem wrFails_changes {Q : List Block} {s0 : State} {q : Nat} {w : WorkReq} {c : Status} {s : State} (hq : subParts [.dev, .maint, .clusters, .sched, .req, .rma, .links, .free, .out] Q = true) (hk : OnlyChanges Q s0 s) :
    OnlyChanges Q s0 (wrFails q w c s) := by
  unfold wrFails
  repeat' (first
    | with_reducible assumption
    | ((with_reducible refine .inr (subParts_mem hq ?_)); rfl)
    | with_reducible exact .inl rfl
    | with_reducible apply qpError_changes (hq := subParts_trans rfl hq)
    | with_reducible apply qpUpd_changes (hq := subParts_trans rfl hq)
    | with_reducible refine changes_ite ?_ ?_
    | (with_reducible refine changesParts_of ?_ ?_ ?_ ?_ ?_ ?_ ?_ ?_ ?_ ?_ ?_ ?_ ?_ ?_ ?_ ?_ ?_ ?_ ?_ ?_)
    | simp only [changes_mk]
    | with_reducible intro _
    | split
    | dsimp only [id])

theorem wrTake_changes {Q : List Block} {s0 : State} {op : Nat} {c : WrCmd} {run : Qp → State → State} {s : State} (h_run : ∀ (y0 : Qp) (u : State), OnlyChanges Q s0 u → OnlyChanges Q s0 (run y0 u)) (hq : subParts [.rma] Q = true) (hk : OnlyChanges Q s0 s) :
    OnlyChanges Q s0 (wrTake op c run s) := by
  unfold wrTake
  repeat' (first
    | with_reducible assumption
    | ((with_reducible refine .inr (subParts_mem hq ?_)); rfl)
    | with_reducible exact .inl rfl
    | with_reducible apply fetchStart_changes (hq := subParts_trans rfl hq)
    | with_reducible apply qpUpd_changes (hq := subParts_trans rfl hq)
    | with_reducible apply h_run
    | with_reducible refine changes_ite ?_ ?_
    | (with_reducible refine changesParts_of ?_ ?_ ?_ ?_ ?_ ?_ ?_ ?_ ?_ ?_ ?_ ?_ ?_ ?_ ?_ ?_ ?_ ?_ ?_ ?_)
    | simp only [changes_mk]
    | with_reducible intro _
    | split
    | dsimp only [id])

theorem wrBytes_changes {Q : List Block} {s0 : State} {c : WrCmd} {s : State} (hq : subParts [.dev, .maint, .forme, .codec, .tier, .req, .pair, .rma, .links, .free, .out] Q = true) (hk : OnlyChanges Q s0 s) :
    OnlyChanges Q s0 (wrBytes c s).2.2 := by
  unfold wrBytes
  repeat' (first
    | with_reducible assumption
    | ((with_reducible refine .inr (subParts_mem hq ?_)); rfl)
    | with_reducible exact .inl rfl
    | with_reducible apply regionRead_changes (hq := subParts_trans rfl hq)
    | with_reducible apply readOutcome_changes (hq := subParts_trans rfl hq)
    | (with_reducible apply regionRead_changes_of (hq := subParts_trans rfl hq) (eq_ := by assumption))
    | (with_reducible apply readOutcome_changes_of (hq := subParts_trans rfl hq) (eq_ := by assumption))
    | with_reducible refine changes_ite ?_ ?_
    | (with_reducible refine changesParts_of ?_ ?_ ?_ ?_ ?_ ?_ ?_ ?_ ?_ ?_ ?_ ?_ ?_ ?_ ?_ ?_ ?_ ?_ ?_ ?_)
    | simp only [changes_mk]
    | with_reducible intro _
    | split
    | dsimp only [id])

theorem wrBytes_changes_of {Q : List Block} {s0 : State} {c : WrCmd} {s : State} {tt : State} {c0 : _} {c1 : _} (eq_ : wrBytes c s = (c0, c1, tt)) (hq : subParts [.dev, .maint, .forme, .codec, .tier, .req, .pair, .rma, .links, .free, .out] Q = true) (hk : OnlyChanges Q s0 s) : OnlyChanges Q s0 tt := by
  have := wrBytes_changes (Q := Q) (s0 := s0) (c := c) (s := s) hq hk
  rw [eq_] at this; exact this

theorem wrData_changes {Q : List Block} {s0 : State} {c : WrCmd} {x : Qp} {s : State} (hq : subParts [.dev, .maint, .host, .forme, .codec, .tier, .clusters, .sched, .req, .pair, .rma, .links, .free, .out] Q = true) (hk : OnlyChanges Q s0 s) :
    OnlyChanges Q s0 (wrData c x s) := by
  unfold wrData
  repeat' (first
    | with_reducible assumption
    | ((with_reducible refine .inr (subParts_mem hq ?_)); rfl)
    | with_reducible exact .inl rfl
    | with_reducible apply wrHold_changes (hq := subParts_trans rfl hq)
    | with_reducible apply qpSend_changes (hq := subParts_trans rfl hq)
    | with_reducible apply qpFlush_changes (hq := subParts_trans rfl hq)
    | with_reducible apply qpUpd_changes (hq := subParts_trans rfl hq)
    | with_reducible apply wrBytes_changes (hq := subParts_trans rfl hq)
    | with_reducible apply wrFails_changes (hq := subParts_trans rfl hq)
    | (with_reducible apply wrBytes_changes_of (hq := subParts_trans rfl hq) (eq_ := by assumption))
    | with_reducible refine changes_ite ?_ ?_
    | (with_reducible refine changesParts_of ?_ ?_ ?_ ?_ ?_ ?_ ?_ ?_ ?_ ?_ ?_ ?_ ?_ ?_ ?_ ?_ ?_ ?_ ?_ ?_)
    | simp only [changes_mk]
    | with_reducible intro _
    | split
    | dsimp only [id])

theorem execWriteWr_changes {Q : List Block} {s0 : State} {c : WrCmd} {s : State}  (hq : subParts [.dev, .maint, .host, .forme, .codec, .tier, .clusters, .sched, .req, .pair, .rma, .links, .free, .out] Q = true) {tt : State} (hk : OnlyChanges Q s0 s) (eq_ : execWriteWr c s = .next tt) : OnlyChanges Q s0 tt := by
  unfold execWriteWr at eq_
  repeat' (first | split at eq_ | dsimp only at eq_)
  all_goals (first | (injection eq_ with eq_; subst eq_) | (cases eq_))
  repeat' (first
    | with_reducible assumption
    | ((with_reducible refine .inr (subParts_mem hq ?_)); rfl)
    | with_reducible exact .inl rfl
    | with_reducible apply wrTake_changes (hq := subParts_trans rfl hq)
    | with_reducible apply wrData_changes (hq := subParts_trans rfl hq)
    | with_reducible refine changes_ite ?_ ?_
    | (with_reducible refine changesParts_of ?_ ?_ ?_ ?_ ?_ ?_ ?_ ?_ ?_ ?_ ?_ ?_ ?_ ?_ ?_ ?_ ?_ ?_ ?_ ?_)
    | simp only [changes_mk]
    | with_reducible intro _
    | split
    | dsimp only [id])

theorem execReadWr_changes {Q : List Block} {s0 : State} {c : WrCmd} {s : State}  (hq : subParts [.dev, .maint, .host, .forme, .codec, .tier, .clusters, .sched, .req, .pair, .rma, .links, .free, .out] Q = true) {tt : State} (hk : OnlyChanges Q s0 s) (eq_ : execReadWr c s = .next tt) : OnlyChanges Q s0 tt := by
  unfold execReadWr at eq_
  repeat' (first | split at eq_ | dsimp only at eq_)
  all_goals (first | (injection eq_ with eq_; subst eq_) | (cases eq_))
  repeat' (first
    | with_reducible assumption
    | ((with_reducible refine .inr (subParts_mem hq ?_)); rfl)
    | with_reducible exact .inl rfl
    | with_reducible apply wrTake_changes (hq := subParts_trans rfl hq)
    | with_reducible apply wrData_changes (hq := subParts_trans rfl hq)
    | with_reducible refine changes_ite ?_ ?_
    | (with_reducible refine changesParts_of ?_ ?_ ?_ ?_ ?_ ?_ ?_ ?_ ?_ ?_ ?_ ?_ ?_ ?_ ?_ ?_ ?_ ?_ ?_ ?_)
    | simp only [changes_mk]
    | with_reducible intro _
    | split
    | dsimp only [id])

theorem execAtomicWr_changes {Q : List Block} {s0 : State} {c : WrCmd} {s : State}  (hq : subParts [.dev, .maint, .host, .forme, .codec, .tier, .clusters, .sched, .req, .pair, .rma, .links, .free, .out] Q = true) {tt : State} (hk : OnlyChanges Q s0 s) (eq_ : execAtomicWr c s = .next tt) : OnlyChanges Q s0 tt := by
  unfold execAtomicWr at eq_
  repeat' (first | split at eq_ | dsimp only at eq_)
  all_goals (first | (injection eq_ with eq_; subst eq_) | (cases eq_))
  repeat' (first
    | with_reducible assumption
    | ((with_reducible refine .inr (subParts_mem hq ?_)); rfl)
    | with_reducible exact .inl rfl
    | with_reducible apply wrTake_changes (hq := subParts_trans rfl hq)
    | with_reducible apply wrData_changes (hq := subParts_trans rfl hq)
    | with_reducible refine changes_ite ?_ ?_
    | (with_reducible refine changesParts_of ?_ ?_ ?_ ?_ ?_ ?_ ?_ ?_ ?_ ?_ ?_ ?_ ?_ ?_ ?_ ?_ ?_ ?_ ?_ ?_)
    | simp only [changes_mk]
    | with_reducible intro _
    | split
    | dsimp only [id])

theorem execSendWr_changes {Q : List Block} {s0 : State} {c : WrCmd} {s : State}  (hq : subParts [.dev, .maint, .host, .forme, .codec, .tier, .clusters, .sched, .req, .pair, .rma, .links, .free, .out] Q = true) {tt : State} (hk : OnlyChanges Q s0 s) (eq_ : execSendWr c s = .next tt) : OnlyChanges Q s0 tt := by
  unfold execSendWr at eq_
  repeat' (first | split at eq_ | dsimp only at eq_)
  all_goals (first | (injection eq_ with eq_; subst eq_) | (cases eq_))
  repeat' (first
    | with_reducible assumption
    | ((with_reducible refine .inr (subParts_mem hq ?_)); rfl)
    | with_reducible exact .inl rfl
    | with_reducible apply wrTake_changes (hq := subParts_trans rfl hq)
    | with_reducible apply wrData_changes (hq := subParts_trans rfl hq)
    | with_reducible refine changes_ite ?_ ?_
    | (with_reducible refine changesParts_of ?_ ?_ ?_ ?_ ?_ ?_ ?_ ?_ ?_ ?_ ?_ ?_ ?_ ?_ ?_ ?_ ?_ ?_ ?_ ?_)
    | simp only [changes_mk]
    | with_reducible intro _
    | split
    | dsimp only [id])

theorem ctlDone_changes {Q : List Block} {s0 : State} {q : Nat} {w : WorkReq} {c : Status} {v : Nat} {s : State} (hq : subParts [.rma, .out] Q = true) (hk : OnlyChanges Q s0 s) :
    OnlyChanges Q s0 (ctlDone q w c v s) := by
  unfold ctlDone
  repeat' (first
    | with_reducible assumption
    | ((with_reducible refine .inr (subParts_mem hq ?_)); rfl)
    | with_reducible exact .inl rfl
    | with_reducible apply qpFlush_changes (hq := subParts_trans rfl hq)
    | with_reducible apply qpUpd_changes (hq := subParts_trans rfl hq)
    | with_reducible refine changes_ite ?_ ?_
    | (with_reducible refine changesParts_of ?_ ?_ ?_ ?_ ?_ ?_ ?_ ?_ ?_ ?_ ?_ ?_ ?_ ?_ ?_ ?_ ?_ ?_ ?_ ?_)
    | simp only [changes_mk]
    | with_reducible intro _
    | split
    | dsimp only [id])

theorem ctlWr_changes {Q : List Block} {s0 : State} {op : Nat} {keep : List Nat} {c : WrCmd} {run : Qp → State → State} {s : State} (h_run : ∀ (y0 : Qp) (u : State), OnlyChanges Q s0 u → OnlyChanges Q s0 (run y0 u)) (hq : subParts [.dev, .maint, .clusters, .sched, .req, .rma, .links, .free, .out] Q = true) (hk : OnlyChanges Q s0 s) :
    OnlyChanges Q s0 (ctlWr op keep c run s) := by
  unfold ctlWr
  repeat' (first
    | with_reducible assumption
    | ((with_reducible refine .inr (subParts_mem hq ?_)); rfl)
    | with_reducible exact .inl rfl
    | with_reducible apply wrTake_changes (hq := subParts_trans rfl hq)
    | with_reducible apply wrFails_changes (hq := subParts_trans rfl hq)
    | with_reducible apply h_run
    | with_reducible refine changes_ite ?_ ?_
    | (with_reducible refine changesParts_of ?_ ?_ ?_ ?_ ?_ ?_ ?_ ?_ ?_ ?_ ?_ ?_ ?_ ?_ ?_ ?_ ?_ ?_ ?_ ?_)
    | simp only [changes_mk]
    | with_reducible intro _
    | split
    | dsimp only [id])

theorem pdAlloc_changes {Q : List Block} {s0 : State} {c : WrCmd} {x : Qp} {s : State}  (hq : subParts [.rma, .out] Q = true) (hk : OnlyChanges Q s0 s) :
    OnlyChanges Q s0 (pdAlloc c x s) := by
  unfold pdAlloc
  repeat' (first
    | with_reducible assumption
    | ((with_reducible refine .inr (subParts_mem hq ?_)); rfl)
    | with_reducible exact .inl rfl
    | with_reducible apply ctlDone_changes (hq := subParts_trans rfl hq)
    | with_reducible refine changes_ite ?_ ?_
    | (with_reducible refine changesParts_of ?_ ?_ ?_ ?_ ?_ ?_ ?_ ?_ ?_ ?_ ?_ ?_ ?_ ?_ ?_ ?_ ?_ ?_ ?_ ?_)
    | simp only [changes_mk]
    | with_reducible intro _
    | split
    | dsimp only [id])

theorem execPdAlloc_changes {Q : List Block} {s0 : State} {c : WrCmd} {s : State}  (hq : subParts [.dev, .maint, .clusters, .sched, .req, .rma, .links, .free, .out] Q = true) {tt : State} (hk : OnlyChanges Q s0 s) (eq_ : execPdAlloc c s = .next tt) : OnlyChanges Q s0 tt := by
  unfold execPdAlloc at eq_
  repeat' (first | split at eq_ | dsimp only at eq_)
  all_goals (first | (injection eq_ with eq_; subst eq_) | (cases eq_))
  repeat' (first
    | with_reducible assumption
    | ((with_reducible refine .inr (subParts_mem hq ?_)); rfl)
    | with_reducible exact .inl rfl
    | with_reducible apply pdAlloc_changes (hq := subParts_trans rfl hq)
    | with_reducible apply ctlWr_changes (hq := subParts_trans rfl hq)
    | with_reducible refine changes_ite ?_ ?_
    | (with_reducible refine changesParts_of ?_ ?_ ?_ ?_ ?_ ?_ ?_ ?_ ?_ ?_ ?_ ?_ ?_ ?_ ?_ ?_ ?_ ?_ ?_ ?_)
    | simp only [changes_mk]
    | with_reducible intro _
    | split
    | dsimp only [id])

theorem pdFree_changes {Q : List Block} {s0 : State} {c : WrCmd} {x : Qp} {s : State}  (hq : subParts [.rma, .out] Q = true) (hk : OnlyChanges Q s0 s) :
    OnlyChanges Q s0 (pdFree c x s) := by
  unfold pdFree
  repeat' (first
    | with_reducible assumption
    | ((with_reducible refine .inr (subParts_mem hq ?_)); rfl)
    | with_reducible exact .inl rfl
    | with_reducible apply ctlDone_changes (hq := subParts_trans rfl hq)
    | with_reducible refine changes_ite ?_ ?_
    | (with_reducible refine changesParts_of ?_ ?_ ?_ ?_ ?_ ?_ ?_ ?_ ?_ ?_ ?_ ?_ ?_ ?_ ?_ ?_ ?_ ?_ ?_ ?_)
    | simp only [changes_mk]
    | with_reducible intro _
    | split
    | dsimp only [id])

theorem execPdFree_changes {Q : List Block} {s0 : State} {c : WrCmd} {s : State}  (hq : subParts [.dev, .maint, .clusters, .sched, .req, .rma, .links, .free, .out] Q = true) {tt : State} (hk : OnlyChanges Q s0 s) (eq_ : execPdFree c s = .next tt) : OnlyChanges Q s0 tt := by
  unfold execPdFree at eq_
  repeat' (first | split at eq_ | dsimp only at eq_)
  all_goals (first | (injection eq_ with eq_; subst eq_) | (cases eq_))
  repeat' (first
    | with_reducible assumption
    | ((with_reducible refine .inr (subParts_mem hq ?_)); rfl)
    | with_reducible exact .inl rfl
    | with_reducible apply pdFree_changes (hq := subParts_trans rfl hq)
    | with_reducible apply ctlWr_changes (hq := subParts_trans rfl hq)
    | with_reducible refine changes_ite ?_ ?_
    | (with_reducible refine changesParts_of ?_ ?_ ?_ ?_ ?_ ?_ ?_ ?_ ?_ ?_ ?_ ?_ ?_ ?_ ?_ ?_ ?_ ?_ ?_ ?_)
    | simp only [changes_mk]
    | with_reducible intro _
    | split
    | dsimp only [id])

theorem qpCreate_changes {Q : List Block} {s0 : State} {c : WrCmd} {b : RingBlock} {x : Qp} {s : State} (hq : subParts [.dev, .maint, .clusters, .sched, .req, .rma, .links, .free, .out] Q = true) (hk : OnlyChanges Q s0 s) :
    OnlyChanges Q s0 (qpCreate c b x s) := by
  unfold qpCreate
  repeat' (first
    | with_reducible assumption
    | ((with_reducible refine .inr (subParts_mem hq ?_)); rfl)
    | with_reducible exact .inl rfl
    | with_reducible apply qpMake_changes (hq := subParts_trans rfl hq)
    | with_reducible apply ctlDone_changes (hq := subParts_trans rfl hq)
    | with_reducible apply wrFails_changes (hq := subParts_trans rfl hq)
    | with_reducible refine changes_ite ?_ ?_
    | (with_reducible refine changesParts_of ?_ ?_ ?_ ?_ ?_ ?_ ?_ ?_ ?_ ?_ ?_ ?_ ?_ ?_ ?_ ?_ ?_ ?_ ?_ ?_)
    | simp only [changes_mk]
    | with_reducible intro _
    | split
    | dsimp only [id])

theorem execQpCreate_changes {Q : List Block} {s0 : State} {c : WrCmd} {b : RingBlock} {s : State}  (hq : subParts [.dev, .maint, .clusters, .sched, .req, .rma, .links, .free, .out] Q = true) {tt : State} (hk : OnlyChanges Q s0 s) (eq_ : execQpCreate c b s = .next tt) : OnlyChanges Q s0 tt := by
  unfold execQpCreate at eq_
  repeat' (first | split at eq_ | dsimp only at eq_)
  all_goals (first | (injection eq_ with eq_; subst eq_) | (cases eq_))
  repeat' (first
    | with_reducible assumption
    | ((with_reducible refine .inr (subParts_mem hq ?_)); rfl)
    | with_reducible exact .inl rfl
    | with_reducible apply qpCreate_changes (hq := subParts_trans rfl hq)
    | with_reducible apply ctlWr_changes (hq := subParts_trans rfl hq)
    | with_reducible refine changes_ite ?_ ?_
    | (with_reducible refine changesParts_of ?_ ?_ ?_ ?_ ?_ ?_ ?_ ?_ ?_ ?_ ?_ ?_ ?_ ?_ ?_ ?_ ?_ ?_ ?_ ?_)
    | simp only [changes_mk]
    | with_reducible intro _
    | split
    | dsimp only [id])

theorem qpDestroy_changes {Q : List Block} {s0 : State} {c : WrCmd} {x : Qp} {s : State} (hq : subParts [.rma, .out] Q = true) (hk : OnlyChanges Q s0 s) :
    OnlyChanges Q s0 (qpDestroy c x s) := by
  unfold qpDestroy
  repeat' (first
    | with_reducible assumption
    | ((with_reducible refine .inr (subParts_mem hq ?_)); rfl)
    | with_reducible exact .inl rfl
    | with_reducible apply ctlDone_changes (hq := subParts_trans rfl hq)
    | with_reducible refine changes_ite ?_ ?_
    | (with_reducible refine changesParts_of ?_ ?_ ?_ ?_ ?_ ?_ ?_ ?_ ?_ ?_ ?_ ?_ ?_ ?_ ?_ ?_ ?_ ?_ ?_ ?_)
    | simp only [changes_mk]
    | with_reducible intro _
    | split
    | dsimp only [id])

theorem execQpDestroy_changes {Q : List Block} {s0 : State} {c : WrCmd} {s : State}  (hq : subParts [.dev, .maint, .clusters, .sched, .req, .rma, .links, .free, .out] Q = true) {tt : State} (hk : OnlyChanges Q s0 s) (eq_ : execQpDestroy c s = .next tt) : OnlyChanges Q s0 tt := by
  unfold execQpDestroy at eq_
  repeat' (first | split at eq_ | dsimp only at eq_)
  all_goals (first | (injection eq_ with eq_; subst eq_) | (cases eq_))
  repeat' (first
    | with_reducible assumption
    | ((with_reducible refine .inr (subParts_mem hq ?_)); rfl)
    | with_reducible exact .inl rfl
    | with_reducible apply qpDestroy_changes (hq := subParts_trans rfl hq)
    | with_reducible apply ctlWr_changes (hq := subParts_trans rfl hq)
    | with_reducible refine changes_ite ?_ ?_
    | (with_reducible refine changesParts_of ?_ ?_ ?_ ?_ ?_ ?_ ?_ ?_ ?_ ?_ ?_ ?_ ?_ ?_ ?_ ?_ ?_ ?_ ?_ ?_)
    | simp only [changes_mk]
    | with_reducible intro _
    | split
    | dsimp only [id])

theorem qpReset_changes {Q : List Block} {s0 : State} {c : WrCmd} {x : Qp} {s : State}  (hq : subParts [.rma, .out] Q = true) (hk : OnlyChanges Q s0 s) :
    OnlyChanges Q s0 (qpReset c x s) := by
  unfold qpReset
  repeat' (first
    | with_reducible assumption
    | ((with_reducible refine .inr (subParts_mem hq ?_)); rfl)
    | with_reducible exact .inl rfl
    | with_reducible apply ctlDone_changes (hq := subParts_trans rfl hq)
    | with_reducible apply qpRearm_changes (hq := subParts_trans rfl hq)
    | with_reducible refine changes_ite ?_ ?_
    | (with_reducible refine changesParts_of ?_ ?_ ?_ ?_ ?_ ?_ ?_ ?_ ?_ ?_ ?_ ?_ ?_ ?_ ?_ ?_ ?_ ?_ ?_ ?_)
    | simp only [changes_mk]
    | with_reducible intro _
    | split
    | dsimp only [id])

theorem execQpReset_changes {Q : List Block} {s0 : State} {c : WrCmd} {s : State}  (hq : subParts [.dev, .maint, .clusters, .sched, .req, .rma, .links, .free, .out] Q = true) {tt : State} (hk : OnlyChanges Q s0 s) (eq_ : execQpReset c s = .next tt) : OnlyChanges Q s0 tt := by
  unfold execQpReset at eq_
  repeat' (first | split at eq_ | dsimp only at eq_)
  all_goals (first | (injection eq_ with eq_; subst eq_) | (cases eq_))
  repeat' (first
    | with_reducible assumption
    | ((with_reducible refine .inr (subParts_mem hq ?_)); rfl)
    | with_reducible exact .inl rfl
    | with_reducible apply qpReset_changes (hq := subParts_trans rfl hq)
    | with_reducible apply ctlWr_changes (hq := subParts_trans rfl hq)
    | with_reducible refine changes_ite ?_ ?_
    | (with_reducible refine changesParts_of ?_ ?_ ?_ ?_ ?_ ?_ ?_ ?_ ?_ ?_ ?_ ?_ ?_ ?_ ?_ ?_ ?_ ?_ ?_ ?_)
    | simp only [changes_mk]
    | with_reducible intro _
    | split
    | dsimp only [id])

theorem takeIndex_changes_of {Q : List Block} {s0 : State} {s : State}  (hq : subParts [.rma] Q = true) {tt : State} {c0 : _} (eq_ : takeIndex s = some (c0, tt)) (hk : OnlyChanges Q s0 s) : OnlyChanges Q s0 tt := by
  unfold takeIndex at eq_
  repeat' (first | split at eq_ | dsimp only at eq_)
  all_goals (first | (cases eq_; done) | (cases eq_) | skip)
  repeat' (first
    | with_reducible assumption
    | ((with_reducible refine .inr (subParts_mem hq ?_)); rfl)
    | with_reducible exact .inl rfl
    | with_reducible refine changes_ite ?_ ?_
    | (with_reducible refine changesParts_of ?_ ?_ ?_ ?_ ?_ ?_ ?_ ?_ ?_ ?_ ?_ ?_ ?_ ?_ ?_ ?_ ?_ ?_ ?_ ?_)
    | simp only [changes_mk]
    | with_reducible intro _
    | split
    | dsimp only [id])

theorem regionPut_changes {Q : List Block} {s0 : State} {q : Nat} {w : WorkReq} {mk : Byte → Region} {s : State}  (hq : subParts [.rma, .out] Q = true) (hk : OnlyChanges Q s0 s) :
    OnlyChanges Q s0 (regionPut q w mk s) := by
  unfold regionPut
  repeat' (first
    | with_reducible assumption
    | ((with_reducible refine .inr (subParts_mem hq ?_)); rfl)
    | with_reducible exact .inl rfl
    | with_reducible apply ctlDone_changes (hq := subParts_trans rfl hq)
    | (with_reducible apply takeIndex_changes_of (hq := subParts_trans rfl hq) (eq_ := by assumption))
    | with_reducible refine changes_ite ?_ ?_
    | (with_reducible refine changesParts_of ?_ ?_ ?_ ?_ ?_ ?_ ?_ ?_ ?_ ?_ ?_ ?_ ?_ ?_ ?_ ?_ ?_ ?_ ?_ ?_)
    | simp only [changes_mk]
    | with_reducible intro _
    | split
    | dsimp only [id])

theorem regHost_changes {Q : List Block} {s0 : State} {c : WrCmd} {x : Qp} {s : State} (hq : subParts [.dev, .maint, .clusters, .sched, .req, .rma, .links, .free, .out] Q = true) (hk : OnlyChanges Q s0 s) :
    OnlyChanges Q s0 (regHost c x s) := by
  unfold regHost
  repeat' (first
    | with_reducible assumption
    | ((with_reducible refine .inr (subParts_mem hq ?_)); rfl)
    | with_reducible exact .inl rfl
    | with_reducible apply regionPut_changes (hq := subParts_trans rfl hq)
    | with_reducible apply ctlDone_changes (hq := subParts_trans rfl hq)
    | with_reducible apply wrFails_changes (hq := subParts_trans rfl hq)
    | with_reducible refine changes_ite ?_ ?_
    | (with_reducible refine changesParts_of ?_ ?_ ?_ ?_ ?_ ?_ ?_ ?_ ?_ ?_ ?_ ?_ ?_ ?_ ?_ ?_ ?_ ?_ ?_ ?_)
    | simp only [changes_mk]
    | with_reducible intro _
    | split
    | dsimp only [id])

theorem regT1_changes {Q : List Block} {s0 : State} {c : WrCmd} {s : State} (hq : subParts [.dev, .maint, .clusters, .sched, .req, .rma, .links, .free, .out] Q = true) (hk : OnlyChanges Q s0 s) :
    OnlyChanges Q s0 (regT1 c s) := by
  unfold regT1
  repeat' (first
    | with_reducible assumption
    | ((with_reducible refine .inr (subParts_mem hq ?_)); rfl)
    | with_reducible exact .inl rfl
    | with_reducible apply regionPut_changes (hq := subParts_trans rfl hq)
    | with_reducible apply ctlDone_changes (hq := subParts_trans rfl hq)
    | with_reducible apply wrFails_changes (hq := subParts_trans rfl hq)
    | with_reducible refine changes_ite ?_ ?_
    | (with_reducible refine changesParts_of ?_ ?_ ?_ ?_ ?_ ?_ ?_ ?_ ?_ ?_ ?_ ?_ ?_ ?_ ?_ ?_ ?_ ?_ ?_ ?_)
    | simp only [changes_mk]
    | with_reducible intro _
    | split
    | dsimp only [id])

theorem execRegRegion_changes {Q : List Block} {s0 : State} {c : WrCmd} {s : State}  (hq : subParts [.dev, .maint, .clusters, .sched, .req, .rma, .links, .free, .out] Q = true) {tt : State} (hk : OnlyChanges Q s0 s) (eq_ : execRegRegion c s = .next tt) : OnlyChanges Q s0 tt := by
  unfold execRegRegion at eq_
  repeat' (first | split at eq_ | dsimp only at eq_)
  all_goals (first | (injection eq_ with eq_; subst eq_) | (cases eq_))
  repeat' (first
    | with_reducible assumption
    | ((with_reducible refine .inr (subParts_mem hq ?_)); rfl)
    | with_reducible exact .inl rfl
    | with_reducible apply regHost_changes (hq := subParts_trans rfl hq)
    | with_reducible apply wrTake_changes (hq := subParts_trans rfl hq)
    | with_reducible apply ctlWr_changes (hq := subParts_trans rfl hq)
    | with_reducible apply regT1_changes (hq := subParts_trans rfl hq)
    | with_reducible refine changes_ite ?_ ?_
    | (with_reducible refine changesParts_of ?_ ?_ ?_ ?_ ?_ ?_ ?_ ?_ ?_ ?_ ?_ ?_ ?_ ?_ ?_ ?_ ?_ ?_ ?_ ?_)
    | simp only [changes_mk]
    | with_reducible intro _
    | split
    | dsimp only [id])

theorem deregRegion_changes {Q : List Block} {s0 : State} {c : WrCmd} {x : Qp} {s : State} (hq : subParts [.rma, .out] Q = true) (hk : OnlyChanges Q s0 s) :
    OnlyChanges Q s0 (deregRegion c x s) := by
  unfold deregRegion
  repeat' (first
    | with_reducible assumption
    | ((with_reducible refine .inr (subParts_mem hq ?_)); rfl)
    | with_reducible exact .inl rfl
    | with_reducible apply deregRun_changes (hq := subParts_trans rfl hq)
    | with_reducible apply qpUpd_changes (hq := subParts_trans rfl hq)
    | with_reducible apply ctlDone_changes (hq := subParts_trans rfl hq)
    | with_reducible refine changes_ite ?_ ?_
    | (with_reducible refine changesParts_of ?_ ?_ ?_ ?_ ?_ ?_ ?_ ?_ ?_ ?_ ?_ ?_ ?_ ?_ ?_ ?_ ?_ ?_ ?_ ?_)
    | simp only [changes_mk]
    | with_reducible intro _
    | split
    | dsimp only [id])

theorem execDeregRegion_changes {Q : List Block} {s0 : State} {c : WrCmd} {s : State}  (hq : subParts [.dev, .maint, .clusters, .sched, .req, .rma, .links, .free, .out] Q = true) {tt : State} (hk : OnlyChanges Q s0 s) (eq_ : execDeregRegion c s = .next tt) : OnlyChanges Q s0 tt := by
  unfold execDeregRegion at eq_
  repeat' (first | split at eq_ | dsimp only at eq_)
  all_goals (first | (injection eq_ with eq_; subst eq_) | (cases eq_))
  repeat' (first
    | with_reducible assumption
    | ((with_reducible refine .inr (subParts_mem hq ?_)); rfl)
    | with_reducible exact .inl rfl
    | with_reducible apply deregRegion_changes (hq := subParts_trans rfl hq)
    | with_reducible apply ctlWr_changes (hq := subParts_trans rfl hq)
    | with_reducible refine changes_ite ?_ ?_
    | (with_reducible refine changesParts_of ?_ ?_ ?_ ?_ ?_ ?_ ?_ ?_ ?_ ?_ ?_ ?_ ?_ ?_ ?_ ?_ ?_ ?_ ?_ ?_)
    | simp only [changes_mk]
    | with_reducible intro _
    | split
    | dsimp only [id])

theorem mapPages_changes {Q : List Block} {s0 : State} {c : WrCmd} {entries : List DWord} {x : Qp} {s : State} (hq : subParts [.dev, .maint, .host, .forme, .codec, .tier, .clusters, .sched, .repro, .req, .pair, .rma, .links, .free, .out] Q = true) (hk : OnlyChanges Q s0 s) :
    OnlyChanges Q s0 (mapPages c entries x s) := by
  unfold mapPages
  repeat' (first
    | with_reducible assumption
    | ((with_reducible refine .inr (subParts_mem hq ?_)); rfl)
    | with_reducible exact .inl rfl
    | with_reducible apply foldl_changes
    | with_reducible apply foldl_changes_fst
    | with_reducible apply foldl_changes_snd
    | with_reducible apply pagePresent_changes (hq := subParts_trans rfl hq)
    | with_reducible apply ctlDone_changes (hq := subParts_trans rfl hq)
    | with_reducible apply wrFails_changes (hq := subParts_trans rfl hq)
    | with_reducible refine changes_ite ?_ ?_
    | (with_reducible refine changesParts_of ?_ ?_ ?_ ?_ ?_ ?_ ?_ ?_ ?_ ?_ ?_ ?_ ?_ ?_ ?_ ?_ ?_ ?_ ?_ ?_)
    | simp only [changes_mk]
    | with_reducible intro _
    | split
    | dsimp only [id])

theorem execMapPages_changes {Q : List Block} {s0 : State} {c : WrCmd} {entries : List DWord} {s : State} {tt : State} (hq : subParts [.dev, .maint, .host, .forme, .codec, .tier, .clusters, .sched, .repro, .req, .pair, .rma, .links, .free, .out] Q = true) (hk : OnlyChanges Q s0 s) (eq_ : execMapPages c entries s = .next tt) : OnlyChanges Q s0 tt := by
  unfold execMapPages at eq_
  repeat' (first | split at eq_ | dsimp only at eq_)
  all_goals (first | (injection eq_ with eq_; subst eq_) | (cases eq_))
  repeat' (first
    | with_reducible assumption
    | ((with_reducible refine .inr (subParts_mem hq ?_)); rfl)
    | with_reducible exact .inl rfl
    | with_reducible apply mapPages_changes (hq := subParts_trans rfl hq)
    | with_reducible apply ctlWr_changes (hq := subParts_trans rfl hq)
    | with_reducible refine changes_ite ?_ ?_
    | (with_reducible refine changesParts_of ?_ ?_ ?_ ?_ ?_ ?_ ?_ ?_ ?_ ?_ ?_ ?_ ?_ ?_ ?_ ?_ ?_ ?_ ?_ ?_)
    | simp only [changes_mk]
    | with_reducible intro _
    | split
    | dsimp only [id])

theorem execWriteMsg_changes {Q : List Block} {s0 : State} {m : PodMsg} {s : State}  (hq : subParts [.dev, .maint, .sec, .host, .forme, .codec, .tier, .clusters, .sched, .repro, .req, .pair, .near, .rma, .links, .free, .out] Q = true) {tt : State} (hk : OnlyChanges Q s0 s) (eq_ : execWriteMsg m s = .next tt) : OnlyChanges Q s0 tt := by
  unfold execWriteMsg at eq_
  repeat' (first | split at eq_ | dsimp only at eq_)
  all_goals (first | (injection eq_ with eq_; subst eq_) | (cases eq_))
  repeat' (first
    | with_reducible assumption
    | ((with_reducible refine .inr (subParts_mem hq ?_)); rfl)
    | with_reducible exact .inl rfl
    | with_reducible apply podTake_changes (hq := subParts_trans rfl hq)
    | with_reducible refine changes_ite ?_ ?_
    | (with_reducible refine changesParts_of ?_ ?_ ?_ ?_ ?_ ?_ ?_ ?_ ?_ ?_ ?_ ?_ ?_ ?_ ?_ ?_ ?_ ?_ ?_ ?_)
    | simp only [changes_mk]
    | with_reducible intro _
    | split
    | dsimp only [id])

theorem execReadReq_changes {Q : List Block} {s0 : State} {m : PodMsg} {s : State}  (hq : subParts [.dev, .maint, .sec, .host, .forme, .codec, .tier, .clusters, .sched, .repro, .req, .pair, .near, .rma, .links, .free, .out] Q = true) {tt : State} (hk : OnlyChanges Q s0 s) (eq_ : execReadReq m s = .next tt) : OnlyChanges Q s0 tt := by
  unfold execReadReq at eq_
  repeat' (first | split at eq_ | dsimp only at eq_)
  all_goals (first | (injection eq_ with eq_; subst eq_) | (cases eq_))
  repeat' (first
    | with_reducible assumption
    | ((with_reducible refine .inr (subParts_mem hq ?_)); rfl)
    | with_reducible exact .inl rfl
    | with_reducible apply podTake_changes (hq := subParts_trans rfl hq)
    | with_reducible refine changes_ite ?_ ?_
    | (with_reducible refine changesParts_of ?_ ?_ ?_ ?_ ?_ ?_ ?_ ?_ ?_ ?_ ?_ ?_ ?_ ?_ ?_ ?_ ?_ ?_ ?_ ?_)
    | simp only [changes_mk]
    | with_reducible intro _
    | split
    | dsimp only [id])

theorem execReadData_changes {Q : List Block} {s0 : State} {m : PodMsg} {s : State}  (hq : subParts [.dev, .maint, .sec, .host, .forme, .codec, .tier, .clusters, .sched, .repro, .req, .pair, .near, .rma, .links, .free, .out] Q = true) {tt : State} (hk : OnlyChanges Q s0 s) (eq_ : execReadData m s = .next tt) : OnlyChanges Q s0 tt := by
  unfold execReadData at eq_
  repeat' (first | split at eq_ | dsimp only at eq_)
  all_goals (first | (injection eq_ with eq_; subst eq_) | (cases eq_))
  repeat' (first
    | with_reducible assumption
    | ((with_reducible refine .inr (subParts_mem hq ?_)); rfl)
    | with_reducible exact .inl rfl
    | with_reducible apply podTake_changes (hq := subParts_trans rfl hq)
    | with_reducible refine changes_ite ?_ ?_
    | (with_reducible refine changesParts_of ?_ ?_ ?_ ?_ ?_ ?_ ?_ ?_ ?_ ?_ ?_ ?_ ?_ ?_ ?_ ?_ ?_ ?_ ?_ ?_)
    | simp only [changes_mk]
    | with_reducible intro _
    | split
    | dsimp only [id])

theorem execAtomicMsg_changes {Q : List Block} {s0 : State} {m : PodMsg} {s : State}  (hq : subParts [.dev, .maint, .sec, .host, .forme, .codec, .tier, .clusters, .sched, .repro, .req, .pair, .near, .rma, .links, .free, .out] Q = true) {tt : State} (hk : OnlyChanges Q s0 s) (eq_ : execAtomicMsg m s = .next tt) : OnlyChanges Q s0 tt := by
  unfold execAtomicMsg at eq_
  repeat' (first | split at eq_ | dsimp only at eq_)
  all_goals (first | (injection eq_ with eq_; subst eq_) | (cases eq_))
  repeat' (first
    | with_reducible assumption
    | ((with_reducible refine .inr (subParts_mem hq ?_)); rfl)
    | with_reducible exact .inl rfl
    | with_reducible apply podTake_changes (hq := subParts_trans rfl hq)
    | with_reducible refine changes_ite ?_ ?_
    | (with_reducible refine changesParts_of ?_ ?_ ?_ ?_ ?_ ?_ ?_ ?_ ?_ ?_ ?_ ?_ ?_ ?_ ?_ ?_ ?_ ?_ ?_ ?_)
    | simp only [changes_mk]
    | with_reducible intro _
    | split
    | dsimp only [id])

theorem execSendMsg_changes {Q : List Block} {s0 : State} {m : PodMsg} {s : State}  (hq : subParts [.dev, .maint, .sec, .host, .forme, .codec, .tier, .clusters, .sched, .repro, .req, .pair, .near, .rma, .links, .free, .out] Q = true) {tt : State} (hk : OnlyChanges Q s0 s) (eq_ : execSendMsg m s = .next tt) : OnlyChanges Q s0 tt := by
  unfold execSendMsg at eq_
  repeat' (first | split at eq_ | dsimp only at eq_)
  all_goals (first | (injection eq_ with eq_; subst eq_) | (cases eq_))
  repeat' (first
    | with_reducible assumption
    | ((with_reducible refine .inr (subParts_mem hq ?_)); rfl)
    | with_reducible exact .inl rfl
    | with_reducible apply podTake_changes (hq := subParts_trans rfl hq)
    | with_reducible refine changes_ite ?_ ?_
    | (with_reducible refine changesParts_of ?_ ?_ ?_ ?_ ?_ ?_ ?_ ?_ ?_ ?_ ?_ ?_ ?_ ?_ ?_ ?_ ?_ ?_ ?_ ?_)
    | simp only [changes_mk]
    | with_reducible intro _
    | split
    | dsimp only [id])

theorem execAck_changes {Q : List Block} {s0 : State} {m : PodMsg} {s : State}  (hq : subParts [.dev, .maint, .sec, .host, .clusters, .sched, .repro, .req, .rma, .links, .free, .out] Q = true) {tt : State} (hk : OnlyChanges Q s0 s) (eq_ : execAck m s = .next tt) : OnlyChanges Q s0 tt := by
  unfold execAck at eq_
  repeat' (first | split at eq_ | dsimp only at eq_)
  all_goals (first | (injection eq_ with eq_; subst eq_) | (cases eq_))
  repeat' (first
    | with_reducible assumption
    | ((with_reducible refine .inr (subParts_mem hq ?_)); rfl)
    | with_reducible exact .inl rfl
    | with_reducible apply unlessFenced_changes (hq := subParts_trans rfl hq)
    | with_reducible apply farDrained_changes (hq := subParts_trans rfl hq)
    | with_reducible apply ackAt_changes (hq := subParts_trans rfl hq)
    | with_reducible refine changes_ite ?_ ?_
    | (with_reducible refine changesParts_of ?_ ?_ ?_ ?_ ?_ ?_ ?_ ?_ ?_ ?_ ?_ ?_ ?_ ?_ ?_ ?_ ?_ ?_ ?_ ?_)
    | simp only [changes_mk]
    | with_reducible intro _
    | split
    | dsimp only [id])

theorem execRetransmitTimer_changes {Q : List Block} {s0 : State} {id : BitVec 48} {s : State}  (hq : subParts [.rma, .links] Q = true) {tt : State} (hk : OnlyChanges Q s0 s) (eq_ : execRetransmitTimer id s = .next tt) : OnlyChanges Q s0 tt := by
  unfold execRetransmitTimer at eq_
  repeat' (first | split at eq_ | dsimp only at eq_)
  all_goals (first | (injection eq_ with eq_; subst eq_) | (cases eq_))
  repeat' (first
    | with_reducible assumption
    | ((with_reducible refine .inr (subParts_mem hq ?_)); rfl)
    | with_reducible exact .inl rfl
    | with_reducible apply unlessFenced_changes (hq := subParts_trans rfl hq)
    | with_reducible apply farDrained_changes (hq := subParts_trans rfl hq)
    | with_reducible apply retransmit_changes (hq := subParts_trans rfl hq)
    | with_reducible refine changes_ite ?_ ?_
    | (with_reducible refine changesParts_of ?_ ?_ ?_ ?_ ?_ ?_ ?_ ?_ ?_ ?_ ?_ ?_ ?_ ?_ ?_ ?_ ?_ ?_ ?_ ?_)
    | simp only [changes_mk]
    | with_reducible intro _
    | split
    | dsimp only [id])

theorem execMessageLifetimeEnd_changes {Q : List Block} {s0 : State} {id : BitVec 48} {s : State}  (hq : subParts [.dev, .maint, .sec, .host, .clusters, .sched, .repro, .req, .rma, .links, .free, .out] Q = true) {tt : State} (hk : OnlyChanges Q s0 s) (eq_ : execMessageLifetimeEnd id s = .next tt) : OnlyChanges Q s0 tt := by
  unfold execMessageLifetimeEnd at eq_
  repeat' (first | split at eq_ | dsimp only at eq_)
  all_goals (first | (injection eq_ with eq_; subst eq_) | (cases eq_))
  repeat' (first
    | with_reducible assumption
    | ((with_reducible refine .inr (subParts_mem hq ?_)); rfl)
    | with_reducible exact .inl rfl
    | with_reducible apply lifetimeEnds_changes (hq := subParts_trans rfl hq)
    | with_reducible apply unlessFenced_changes (hq := subParts_trans rfl hq)
    | with_reducible refine changes_ite ?_ ?_
    | (with_reducible refine changesParts_of ?_ ?_ ?_ ?_ ?_ ?_ ?_ ?_ ?_ ?_ ?_ ?_ ?_ ?_ ?_ ?_ ?_ ?_ ?_ ?_)
    | simp only [changes_mk]
    | with_reducible intro _
    | split
    | dsimp only [id])

theorem execIdentifierEntryExpiry_changes {Q : List Block} {s0 : State} {src : DevId} {id : BitVec 48} {s : State}  (hq : subParts [.rma] Q = true) {tt : State} (hk : OnlyChanges Q s0 s) (eq_ : execIdentifierEntryExpiry src id s = .next tt) : OnlyChanges Q s0 tt := by
  unfold execIdentifierEntryExpiry at eq_
  repeat' (first | split at eq_ | dsimp only at eq_)
  all_goals (first | (injection eq_ with eq_; subst eq_) | (cases eq_))
  repeat' (first
    | with_reducible assumption
    | ((with_reducible refine .inr (subParts_mem hq ?_)); rfl)
    | with_reducible exact .inl rfl
    | with_reducible refine changes_ite ?_ ?_
    | (with_reducible refine changesParts_of ?_ ?_ ?_ ?_ ?_ ?_ ?_ ?_ ?_ ?_ ?_ ?_ ?_ ?_ ?_ ?_ ?_ ?_ ?_ ?_)
    | simp only [changes_mk]
    | with_reducible intro _
    | split
    | dsimp only [id])

theorem execReadTimeout_changes {Q : List Block} {s0 : State} {id : BitVec 48} {s : State}  (hq : subParts [.dev, .maint, .clusters, .sched, .repro, .req, .rma, .links, .free, .out] Q = true) {tt : State} (hk : OnlyChanges Q s0 s) (eq_ : execReadTimeout id s = .next tt) : OnlyChanges Q s0 tt := by
  unfold execReadTimeout at eq_
  repeat' (first | split at eq_ | dsimp only at eq_)
  all_goals (first | (injection eq_ with eq_; subst eq_) | (cases eq_))
  repeat' (first
    | with_reducible assumption
    | ((with_reducible refine .inr (subParts_mem hq ?_)); rfl)
    | with_reducible exact .inl rfl
    | with_reducible apply readTimesOut_changes (hq := subParts_trans rfl hq)
    | with_reducible apply unlessFenced_changes (hq := subParts_trans rfl hq)
    | with_reducible refine changes_ite ?_ ?_
    | (with_reducible refine changesParts_of ?_ ?_ ?_ ?_ ?_ ?_ ?_ ?_ ?_ ?_ ?_ ?_ ?_ ?_ ?_ ?_ ?_ ?_ ?_ ?_)
    | simp only [changes_mk]
    | with_reducible intro _
    | split
    | dsimp only [id])

theorem execBackoffExpiry_changes {Q : List Block} {s0 : State} {id : BitVec 48} {s : State}  (hq : subParts [.repro, .rma, .links] Q = true) {tt : State} (hk : OnlyChanges Q s0 s) (eq_ : execBackoffExpiry id s = .next tt) : OnlyChanges Q s0 tt := by
  unfold execBackoffExpiry at eq_
  repeat' (first | split at eq_ | dsimp only at eq_)
  all_goals (first | (injection eq_ with eq_; subst eq_) | (cases eq_))
  repeat' (first
    | with_reducible assumption
    | ((with_reducible refine .inr (subParts_mem hq ?_)); rfl)
    | with_reducible exact .inl rfl
    | with_reducible apply unlessFenced_changes (hq := subParts_trans rfl hq)
    | with_reducible apply backoffEnds_changes (hq := subParts_trans rfl hq)
    | with_reducible refine changes_ite ?_ ?_
    | (with_reducible refine changesParts_of ?_ ?_ ?_ ?_ ?_ ?_ ?_ ?_ ?_ ?_ ?_ ?_ ?_ ?_ ?_ ?_ ?_ ?_ ?_ ?_)
    | simp only [changes_mk]
    | with_reducible intro _
    | split
    | dsimp only [id])

theorem execRetryLimitExpiry_changes {Q : List Block} {s0 : State} {id : BitVec 48} {s : State}  (hq : subParts [.dev, .maint, .sec, .host, .clusters, .sched, .repro, .req, .rma, .links, .free, .out] Q = true) {tt : State} (hk : OnlyChanges Q s0 s) (eq_ : execRetryLimitExpiry id s = .next tt) : OnlyChanges Q s0 tt := by
  unfold execRetryLimitExpiry at eq_
  repeat' (first | split at eq_ | dsimp only at eq_)
  all_goals (first | (injection eq_ with eq_; subst eq_) | (cases eq_))
  repeat' (first
    | with_reducible assumption
    | ((with_reducible refine .inr (subParts_mem hq ?_)); rfl)
    | with_reducible exact .inl rfl
    | with_reducible apply unlessFenced_changes (hq := subParts_trans rfl hq)
    | with_reducible apply limitEnds_changes (hq := subParts_trans rfl hq)
    | with_reducible refine changes_ite ?_ ?_
    | (with_reducible refine changesParts_of ?_ ?_ ?_ ?_ ?_ ?_ ?_ ?_ ?_ ?_ ?_ ?_ ?_ ?_ ?_ ?_ ?_ ?_ ?_ ?_)
    | simp only [changes_mk]
    | with_reducible intro _
    | split
    | dsimp only [id])

theorem execContextFetchDone_changes {Q : List Block} {s0 : State} {q : QpNum} {macOk : Bool} {s : State}  (hq : subParts [.dev, .maint, .sec, .host, .forme, .codec, .tier, .clusters, .sched, .repro, .req, .pair, .near, .rma, .links, .free, .out] Q = true) {tt : State} (hk : OnlyChanges Q s0 s) (eq_ : execContextFetchDone q macOk s = .next tt) : OnlyChanges Q s0 tt := by
  unfold execContextFetchDone at eq_
  repeat' (first | split at eq_ | dsimp only at eq_)
  all_goals (first | (injection eq_ with eq_; subst eq_) | (cases eq_))
  repeat' (first
    | with_reducible assumption
    | ((with_reducible refine .inr (subParts_mem hq ?_)); rfl)
    | with_reducible exact .inl rfl
    | with_reducible apply unlessFenced_changes (hq := subParts_trans rfl hq)
    | with_reducible apply fetchFails_changes (hq := subParts_trans rfl hq)
    | with_reducible apply fetched_changes (hq := subParts_trans rfl hq)
    | with_reducible refine changes_ite ?_ ?_
    | (with_reducible refine changesParts_of ?_ ?_ ?_ ?_ ?_ ?_ ?_ ?_ ?_ ?_ ?_ ?_ ?_ ?_ ?_ ?_ ?_ ?_ ?_ ?_)
    | simp only [changes_mk]
    | with_reducible intro _
    | split
    | dsimp only [id])

theorem execPageFaultTimeout_changes {Q : List Block} {s0 : State} {k : Word} {page : Nat} {s : State}  (hq : subParts [.dev, .maint, .clusters, .sched, .repro, .req, .rma, .links, .free, .out] Q = true) {tt : State} (hk : OnlyChanges Q s0 s) (eq_ : execPageFaultTimeout k page s = .next tt) : OnlyChanges Q s0 tt := by
  unfold execPageFaultTimeout at eq_
  repeat' (first | split at eq_ | dsimp only at eq_)
  all_goals (first | (injection eq_ with eq_; subst eq_) | (cases eq_))
  repeat' (first
    | with_reducible assumption
    | ((with_reducible refine .inr (subParts_mem hq ?_)); rfl)
    | with_reducible exact .inl rfl
    | with_reducible apply unlessFenced_changes (hq := subParts_trans rfl hq)
    | with_reducible apply faultEnds_changes (hq := subParts_trans rfl hq)
    | with_reducible refine changes_ite ?_ ?_
    | (with_reducible refine changesParts_of ?_ ?_ ?_ ?_ ?_ ?_ ?_ ?_ ?_ ?_ ?_ ?_ ?_ ?_ ?_ ?_ ?_ ?_ ?_ ?_)
    | simp only [changes_mk]
    | with_reducible intro _
    | split
    | dsimp only [id])

theorem rmaCode_changes {Q : List Block} {s0 : State} {c : Status} {s : State}  (hq : subParts [.rma] Q = true) (hk : OnlyChanges Q s0 s) :
    OnlyChanges Q s0 (rmaCode c s) := by
  unfold rmaCode
  repeat' (first
    | with_reducible assumption
    | ((with_reducible refine .inr (subParts_mem hq ?_)); rfl)
    | with_reducible exact .inl rfl
    | with_reducible refine changes_ite ?_ ?_
    | (with_reducible refine changesParts_of ?_ ?_ ?_ ?_ ?_ ?_ ?_ ?_ ?_ ?_ ?_ ?_ ?_ ?_ ?_ ?_ ?_ ?_ ?_ ?_)
    | simp only [changes_mk]
    | with_reducible intro _
    | split
    | dsimp only [id])

theorem qpcBind_changes {Q : List Block} {s0 : State} {s : State}  (hq : subParts [.rma] Q = true) (hk : OnlyChanges Q s0 s) :
    OnlyChanges Q s0 (qpcBind s) := by
  unfold qpcBind
  repeat' (first
    | with_reducible assumption
    | ((with_reducible refine .inr (subParts_mem hq ?_)); rfl)
    | with_reducible exact .inl rfl
    | with_reducible apply rmaCode_changes (hq := subParts_trans rfl hq)
    | with_reducible refine changes_ite ?_ ?_
    | (with_reducible refine changesParts_of ?_ ?_ ?_ ?_ ?_ ?_ ?_ ?_ ?_ ?_ ?_ ?_ ?_ ?_ ?_ ?_ ?_ ?_ ?_ ?_)
    | simp only [changes_mk]
    | with_reducible intro _
    | split
    | dsimp only [id])

theorem execQpcBind_changes {Q : List Block} {s0 : State} {w : CtlWrite} {s : State}  (hq : subParts [.rma] Q = true) {tt : State} (hk : OnlyChanges Q s0 s) (eq_ : execQpcBind w s = .next tt) : OnlyChanges Q s0 tt := by
  unfold execQpcBind at eq_
  repeat' (first | split at eq_ | dsimp only at eq_)
  all_goals (first | (injection eq_ with eq_; subst eq_) | (cases eq_))
  repeat' (first
    | with_reducible assumption
    | ((with_reducible refine .inr (subParts_mem hq ?_)); rfl)
    | with_reducible exact .inl rfl
    | with_reducible apply rmaCode_changes (hq := subParts_trans rfl hq)
    | with_reducible apply qpcBind_changes (hq := subParts_trans rfl hq)
    | with_reducible apply ctl_changes (hq := subParts_trans rfl hq)
    | with_reducible refine changes_ite ?_ ?_
    | (with_reducible refine changesParts_of ?_ ?_ ?_ ?_ ?_ ?_ ?_ ?_ ?_ ?_ ?_ ?_ ?_ ?_ ?_ ?_ ?_ ?_ ?_ ?_)
    | simp only [changes_mk]
    | with_reducible intro _
    | split
    | dsimp only [id])

theorem execRmaClr_changes {Q : List Block} {s0 : State} {w : CtlWrite} {s : State}  (hq : subParts [.rma] Q = true) {tt : State} (hk : OnlyChanges Q s0 s) (eq_ : execRmaClr w s = .next tt) : OnlyChanges Q s0 tt := by
  unfold execRmaClr at eq_
  repeat' (first | split at eq_ | dsimp only at eq_)
  all_goals (first | (injection eq_ with eq_; subst eq_) | (cases eq_))
  repeat' (first
    | with_reducible assumption
    | ((with_reducible refine .inr (subParts_mem hq ?_)); rfl)
    | with_reducible exact .inl rfl
    | with_reducible apply rmaCode_changes (hq := subParts_trans rfl hq)
    | with_reducible apply ctl_changes (hq := subParts_trans rfl hq)
    | with_reducible refine changes_ite ?_ ?_
    | (with_reducible refine changesParts_of ?_ ?_ ?_ ?_ ?_ ?_ ?_ ?_ ?_ ?_ ?_ ?_ ?_ ?_ ?_ ?_ ?_ ?_ ?_ ?_)
    | simp only [changes_mk]
    | with_reducible intro _
    | split
    | dsimp only [id])

theorem applyParked_changes {Q : List Block} {s0 : State} {fn : Nat} {src : DevId} {id : BitVec 48} {s : State} (hq : subParts [.dev, .maint, .forme, .codec, .tier, .clusters, .sched, .req, .pair, .near, .rma, .links, .free, .out] Q = true) (hk : OnlyChanges Q s0 s) :
    OnlyChanges Q s0 (applyParked fn src id s) := by
  unfold applyParked
  repeat' (first
    | with_reducible assumption
    | ((with_reducible refine .inr (subParts_mem hq ?_)); rfl)
    | with_reducible exact .inl rfl
    | with_reducible apply homeTurns_changes (hq := subParts_trans rfl hq)
    | with_reducible apply atomicApply_changes (hq := subParts_trans rfl hq)
    | with_reducible apply deregRun_changes (hq := subParts_trans rfl hq)
    | with_reducible apply podFinish_changes (hq := subParts_trans rfl hq)
    | with_reducible apply regionRead_changes (hq := subParts_trans rfl hq)
    | with_reducible apply regionWrite_changes (hq := subParts_trans rfl hq)
    | with_reducible apply readOutcome_changes (hq := subParts_trans rfl hq)
    | (with_reducible apply regionRead_changes_of (hq := subParts_trans rfl hq) (eq_ := by assumption))
    | (with_reducible apply readOutcome_changes_of (hq := subParts_trans rfl hq) (eq_ := by assumption))
    | with_reducible refine changes_ite ?_ ?_
    | (with_reducible refine changesParts_of ?_ ?_ ?_ ?_ ?_ ?_ ?_ ?_ ?_ ?_ ?_ ?_ ?_ ?_ ?_ ?_ ?_ ?_ ?_ ?_)
    | simp only [changes_mk]
    | with_reducible intro _
    | split
    | dsimp only [id])

theorem atomicAt_changes {Q : List Block} {s0 : State} {fn : Nat} {a : AtomicSrc} {v : DWord} {new : DWord} {s : State} (hq : subParts [.dev, .maint, .forme, .codec, .tier, .clusters, .sched, .req, .pair, .near, .rma, .links, .free, .out] Q = true) (hk : OnlyChanges Q s0 s) :
    OnlyChanges Q s0 (atomicAt fn a v new s) := by
  unfold atomicAt
  repeat' (first
    | with_reducible assumption
    | ((with_reducible refine .inr (subParts_mem hq ?_)); rfl)
    | with_reducible exact .inl rfl
    | with_reducible apply homeArrive_changes (hq := subParts_trans rfl hq)
    | with_reducible apply atomicWaits_changes (hq := subParts_trans rfl hq)
    | with_reducible apply applyParked_changes (hq := subParts_trans rfl hq)
    | with_reducible apply unlessFenced_changes (hq := subParts_trans rfl hq)
    | with_reducible refine changes_ite ?_ ?_
    | (with_reducible refine changesParts_of ?_ ?_ ?_ ?_ ?_ ?_ ?_ ?_ ?_ ?_ ?_ ?_ ?_ ?_ ?_ ?_ ?_ ?_ ?_ ?_)
    | simp only [changes_mk]
    | with_reducible intro _
    | split
    | dsimp only [id])

theorem execAtomicAdd_changes {Q : List Block} {s0 : State} {a : AtomicSrc} {v : DWord} {s : State}  (hq : subParts [.dev, .maint, .forme, .codec, .tier, .clusters, .sched, .req, .pair, .near, .rma, .links, .free, .out] Q = true) {tt : State} (hk : OnlyChanges Q s0 s) (eq_ : execAtomicAdd a v s = .next tt) : OnlyChanges Q s0 tt := by
  unfold execAtomicAdd at eq_
  repeat' (first | split at eq_ | dsimp only at eq_)
  all_goals (first | (injection eq_ with eq_; subst eq_) | (cases eq_))
  repeat' (first
    | with_reducible assumption
    | ((with_reducible refine .inr (subParts_mem hq ?_)); rfl)
    | with_reducible exact .inl rfl
    | with_reducible apply atomicAt_changes (hq := subParts_trans rfl hq)
    | with_reducible refine changes_ite ?_ ?_
    | (with_reducible refine changesParts_of ?_ ?_ ?_ ?_ ?_ ?_ ?_ ?_ ?_ ?_ ?_ ?_ ?_ ?_ ?_ ?_ ?_ ?_ ?_ ?_)
    | simp only [changes_mk]
    | with_reducible intro _
    | split
    | dsimp only [id])

theorem execAtomicMin_changes {Q : List Block} {s0 : State} {a : AtomicSrc} {v : DWord} {s : State}  (hq : subParts [.dev, .maint, .forme, .codec, .tier, .clusters, .sched, .req, .pair, .near, .rma, .links, .free, .out] Q = true) {tt : State} (hk : OnlyChanges Q s0 s) (eq_ : execAtomicMin a v s = .next tt) : OnlyChanges Q s0 tt := by
  unfold execAtomicMin at eq_
  repeat' (first | split at eq_ | dsimp only at eq_)
  all_goals (first | (injection eq_ with eq_; subst eq_) | (cases eq_))
  repeat' (first
    | with_reducible assumption
    | ((with_reducible refine .inr (subParts_mem hq ?_)); rfl)
    | with_reducible exact .inl rfl
    | with_reducible apply atomicAt_changes (hq := subParts_trans rfl hq)
    | with_reducible refine changes_ite ?_ ?_
    | (with_reducible refine changesParts_of ?_ ?_ ?_ ?_ ?_ ?_ ?_ ?_ ?_ ?_ ?_ ?_ ?_ ?_ ?_ ?_ ?_ ?_ ?_ ?_)
    | simp only [changes_mk]
    | with_reducible intro _
    | split
    | dsimp only [id])

theorem execAtomicMax_changes {Q : List Block} {s0 : State} {a : AtomicSrc} {v : DWord} {s : State}  (hq : subParts [.dev, .maint, .forme, .codec, .tier, .clusters, .sched, .req, .pair, .near, .rma, .links, .free, .out] Q = true) {tt : State} (hk : OnlyChanges Q s0 s) (eq_ : execAtomicMax a v s = .next tt) : OnlyChanges Q s0 tt := by
  unfold execAtomicMax at eq_
  repeat' (first | split at eq_ | dsimp only at eq_)
  all_goals (first | (injection eq_ with eq_; subst eq_) | (cases eq_))
  repeat' (first
    | with_reducible assumption
    | ((with_reducible refine .inr (subParts_mem hq ?_)); rfl)
    | with_reducible exact .inl rfl
    | with_reducible apply atomicAt_changes (hq := subParts_trans rfl hq)
    | with_reducible refine changes_ite ?_ ?_
    | (with_reducible refine changesParts_of ?_ ?_ ?_ ?_ ?_ ?_ ?_ ?_ ?_ ?_ ?_ ?_ ?_ ?_ ?_ ?_ ?_ ?_ ?_ ?_)
    | simp only [changes_mk]
    | with_reducible intro _
    | split
    | dsimp only [id])

theorem execAtomicCas_changes {Q : List Block} {s0 : State} {a : AtomicSrc} {cmp : DWord} {new : DWord} {s : State}  (hq : subParts [.dev, .maint, .forme, .codec, .tier, .clusters, .sched, .req, .pair, .near, .rma, .links, .free, .out] Q = true) {tt : State} (hk : OnlyChanges Q s0 s) (eq_ : execAtomicCas a cmp new s = .next tt) : OnlyChanges Q s0 tt := by
  unfold execAtomicCas at eq_
  repeat' (first | split at eq_ | dsimp only at eq_)
  all_goals (first | (injection eq_ with eq_; subst eq_) | (cases eq_))
  repeat' (first
    | with_reducible assumption
    | ((with_reducible refine .inr (subParts_mem hq ?_)); rfl)
    | with_reducible exact .inl rfl
    | with_reducible apply atomicAt_changes (hq := subParts_trans rfl hq)
    | with_reducible refine changes_ite ?_ ?_
    | (with_reducible refine changesParts_of ?_ ?_ ?_ ?_ ?_ ?_ ?_ ?_ ?_ ?_ ?_ ?_ ?_ ?_ ?_ ?_ ?_ ?_ ?_ ?_)
    | simp only [changes_mk]
    | with_reducible intro _
    | split
    | dsimp only [id])

end Sys2Proof.Machine
end

