-- ==== Sys2Proof/Laws/ChangesSec.lean ====
section
/-!
SUPPORT. The blocks of the state that the operations of Sys2Proof/Machine/Sec.lean may change.
-/

namespace Sys2Proof.Machine

theorem secCode_changes {Q : List Block} {s0 : State} {c : Status} {s : State}  (hq : subParts [.sec] Q = true) (hk : OnlyChanges Q s0 s) :
    OnlyChanges Q s0 (secCode c s) := by
  unfold secCode
  repeat' (first
    | with_reducible assumption
    | ((with_reducible refine .inr (subParts_mem hq ?_)); rfl)
    | with_reducible exact .inl rfl
    | with_reducible refine changes_ite ?_ ?_
    | (with_reducible refine changesParts_of ?_ ?_ ?_ ?_ ?_ ?_ ?_ ?_ ?_ ?_ ?_ ?_ ?_ ?_ ?_ ?_ ?_ ?_ ?_ ?_)
    | simp only [changes_mk]
    | with_reducible intro _
    | split
    | dsimp only [id])

theorem secCtl_changes {Q : List Block} {s0 : State} {w : CtlWrite} {own : Nat} {run : State → State} {s : State} (h_run : ∀ (u : State), OnlyChanges Q s0 u → OnlyChanges Q s0 (run u)) (hq : subParts [.sec] Q = true) (hk : OnlyChanges Q s0 s) :
    OnlyChanges Q s0 (secCtl w own run s) := by
  unfold secCtl
  repeat' (first
    | with_reducible assumption
    | ((with_reducible refine .inr (subParts_mem hq ?_)); rfl)
    | with_reducible exact .inl rfl
    | with_reducible apply secCode_changes (hq := subParts_trans rfl hq)
    | with_reducible apply ctl_changes (hq := subParts_trans rfl hq)
    | with_reducible apply h_run
    | with_reducible refine changes_ite ?_ ?_
    | (with_reducible refine changesParts_of ?_ ?_ ?_ ?_ ?_ ?_ ?_ ?_ ?_ ?_ ?_ ?_ ?_ ?_ ?_ ?_ ?_ ?_ ?_ ?_)
    | simp only [changes_mk]
    | with_reducible intro _
    | split
    | dsimp only [id])

theorem ownerRun_changes {Q : List Block} {s0 : State} {op : Nat} {c : OwnerExec} {s : State}  (hq : subParts [.dev, .sec] Q = true) (hk : OnlyChanges Q s0 s) :
    OnlyChanges Q s0 (ownerRun op c s) := by
  unfold ownerRun
  repeat' (first
    | with_reducible assumption
    | ((with_reducible refine .inr (subParts_mem hq ?_)); rfl)
    | with_reducible exact .inl rfl
    | with_reducible apply noteErr_changes (hq := subParts_trans rfl hq)
    | with_reducible apply secCode_changes (hq := subParts_trans rfl hq)
    | with_reducible refine changes_ite ?_ ?_
    | (with_reducible refine changesParts_of ?_ ?_ ?_ ?_ ?_ ?_ ?_ ?_ ?_ ?_ ?_ ?_ ?_ ?_ ?_ ?_ ?_ ?_ ?_ ?_)
    | simp only [changes_mk]
    | with_reducible intro _
    | split
    | dsimp only [id])

theorem execClaim_changes {Q : List Block} {s0 : State} {c : OwnerExec} {s : State}  (hq : subParts [.dev, .sec] Q = true) {tt : State} (hk : OnlyChanges Q s0 s) (eq_ : execClaim c s = .next tt) : OnlyChanges Q s0 tt := by
  unfold execClaim at eq_
  repeat' (first | split at eq_ | dsimp only at eq_)
  all_goals (first | (injection eq_ with eq_; subst eq_) | (cases eq_))
  repeat' (first
    | with_reducible assumption
    | ((with_reducible refine .inr (subParts_mem hq ?_)); rfl)
    | with_reducible exact .inl rfl
    | with_reducible apply ownerRun_changes (hq := subParts_trans rfl hq)
    | with_reducible apply secCtl_changes (hq := subParts_trans rfl hq)
    | with_reducible refine changes_ite ?_ ?_
    | (with_reducible refine changesParts_of ?_ ?_ ?_ ?_ ?_ ?_ ?_ ?_ ?_ ?_ ?_ ?_ ?_ ?_ ?_ ?_ ?_ ?_ ?_ ?_)
    | simp only [changes_mk]
    | with_reducible intro _
    | split
    | dsimp only [id])

theorem execAddKey_changes {Q : List Block} {s0 : State} {c : OwnerExec} {s : State}  (hq : subParts [.dev, .sec] Q = true) {tt : State} (hk : OnlyChanges Q s0 s) (eq_ : execAddKey c s = .next tt) : OnlyChanges Q s0 tt := by
  unfold execAddKey at eq_
  repeat' (first | split at eq_ | dsimp only at eq_)
  all_goals (first | (injection eq_ with eq_; subst eq_) | (cases eq_))
  repeat' (first
    | with_reducible assumption
    | ((with_reducible refine .inr (subParts_mem hq ?_)); rfl)
    | with_reducible exact .inl rfl
    | with_reducible apply ownerRun_changes (hq := subParts_trans rfl hq)
    | with_reducible apply secCtl_changes (hq := subParts_trans rfl hq)
    | with_reducible refine changes_ite ?_ ?_
    | (with_reducible refine changesParts_of ?_ ?_ ?_ ?_ ?_ ?_ ?_ ?_ ?_ ?_ ?_ ?_ ?_ ?_ ?_ ?_ ?_ ?_ ?_ ?_)
    | simp only [changes_mk]
    | with_reducible intro _
    | split
    | dsimp only [id])

theorem execRemoveKey_changes {Q : List Block} {s0 : State} {c : OwnerExec} {s : State}  (hq : subParts [.dev, .sec] Q = true) {tt : State} (hk : OnlyChanges Q s0 s) (eq_ : execRemoveKey c s = .next tt) : OnlyChanges Q s0 tt := by
  unfold execRemoveKey at eq_
  repeat' (first | split at eq_ | dsimp only at eq_)
  all_goals (first | (injection eq_ with eq_; subst eq_) | (cases eq_))
  repeat' (first
    | with_reducible assumption
    | ((with_reducible refine .inr (subParts_mem hq ?_)); rfl)
    | with_reducible exact .inl rfl
    | with_reducible apply ownerRun_changes (hq := subParts_trans rfl hq)
    | with_reducible apply secCtl_changes (hq := subParts_trans rfl hq)
    | with_reducible refine changes_ite ?_ ?_
    | (with_reducible refine changesParts_of ?_ ?_ ?_ ?_ ?_ ?_ ?_ ?_ ?_ ?_ ?_ ?_ ?_ ?_ ?_ ?_ ?_ ?_ ?_ ?_)
    | simp only [changes_mk]
    | with_reducible intro _
    | split
    | dsimp only [id])

theorem execAdvance_changes {Q : List Block} {s0 : State} {c : OwnerExec} {s : State}  (hq : subParts [.dev, .sec] Q = true) {tt : State} (hk : OnlyChanges Q s0 s) (eq_ : execAdvance c s = .next tt) : OnlyChanges Q s0 tt := by
  unfold execAdvance at eq_
  repeat' (first | split at eq_ | dsimp only at eq_)
  all_goals (first | (injection eq_ with eq_; subst eq_) | (cases eq_))
  repeat' (first
    | with_reducible assumption
    | ((with_reducible refine .inr (subParts_mem hq ?_)); rfl)
    | with_reducible exact .inl rfl
    | with_reducible apply ownerRun_changes (hq := subParts_trans rfl hq)
    | with_reducible apply secCtl_changes (hq := subParts_trans rfl hq)
    | with_reducible refine changes_ite ?_ ?_
    | (with_reducible refine changesParts_of ?_ ?_ ?_ ?_ ?_ ?_ ?_ ?_ ?_ ?_ ?_ ?_ ?_ ?_ ?_ ?_ ?_ ?_ ?_ ?_)
    | simp only [changes_mk]
    | with_reducible intro _
    | split
    | dsimp only [id])

theorem execDebugUnlock_changes {Q : List Block} {s0 : State} {c : OwnerExec} {s : State}  (hq : subParts [.dev, .sec] Q = true) {tt : State} (hk : OnlyChanges Q s0 s) (eq_ : execDebugUnlock c s = .next tt) : OnlyChanges Q s0 tt := by
  unfold execDebugUnlock at eq_
  repeat' (first | split at eq_ | dsimp only at eq_)
  all_goals (first | (injection eq_ with eq_; subst eq_) | (cases eq_))
  repeat' (first
    | with_reducible assumption
    | ((with_reducible refine .inr (subParts_mem hq ?_)); rfl)
    | with_reducible exact .inl rfl
    | with_reducible apply ownerRun_changes (hq := subParts_trans rfl hq)
    | with_reducible apply secCtl_changes (hq := subParts_trans rfl hq)
    | with_reducible refine changes_ite ?_ ?_
    | (with_reducible refine changesParts_of ?_ ?_ ?_ ?_ ?_ ?_ ?_ ?_ ?_ ?_ ?_ ?_ ?_ ?_ ?_ ?_ ?_ ?_ ?_ ?_)
    | simp only [changes_mk]
    | with_reducible intro _
    | split
    | dsimp only [id])

theorem recoveryRun_changes {Q : List Block} {s0 : State} {img : FwImage} {s : State}  (hq : subParts [.sec] Q = true) (hk : OnlyChanges Q s0 s) :
    OnlyChanges Q s0 (recoveryRun img s) := by
  unfold recoveryRun
  repeat' (first
    | with_reducible assumption
    | ((with_reducible refine .inr (subParts_mem hq ?_)); rfl)
    | with_reducible exact .inl rfl
    | with_reducible apply secCode_changes (hq := subParts_trans rfl hq)
    | with_reducible refine changes_ite ?_ ?_
    | (with_reducible refine changesParts_of ?_ ?_ ?_ ?_ ?_ ?_ ?_ ?_ ?_ ?_ ?_ ?_ ?_ ?_ ?_ ?_ ?_ ?_ ?_ ?_)
    | simp only [changes_mk]
    | with_reducible intro _
    | split
    | dsimp only [id])

theorem execRecoveryImage_changes {Q : List Block} {s0 : State} {w : CtlWrite} {img : FwImage} {s : State}  (hq : subParts [.sec] Q = true) {tt : State} (hk : OnlyChanges Q s0 s) (eq_ : execRecoveryImage w img s = .next tt) : OnlyChanges Q s0 tt := by
  unfold execRecoveryImage at eq_
  repeat' (first | split at eq_ | dsimp only at eq_)
  all_goals (first | (injection eq_ with eq_; subst eq_) | (cases eq_))
  repeat' (first
    | with_reducible assumption
    | ((with_reducible refine .inr (subParts_mem hq ?_)); rfl)
    | with_reducible exact .inl rfl
    | with_reducible apply recoveryRun_changes (hq := subParts_trans rfl hq)
    | with_reducible apply secCtl_changes (hq := subParts_trans rfl hq)
    | with_reducible refine changes_ite ?_ ?_
    | (with_reducible refine changesParts_of ?_ ?_ ?_ ?_ ?_ ?_ ?_ ?_ ?_ ?_ ?_ ?_ ?_ ?_ ?_ ?_ ?_ ?_ ?_ ?_)
    | simp only [changes_mk]
    | with_reducible intro _
    | split
    | dsimp only [id])

theorem execPodFetch_changes {Q : List Block} {s0 : State} {w : CtlWrite} {s : State}  (hq : subParts [.sec, .rma, .links] Q = true) {tt : State} (hk : OnlyChanges Q s0 s) (eq_ : execPodFetch w s = .next tt) : OnlyChanges Q s0 tt := by
  unfold execPodFetch at eq_
  repeat' (first | split at eq_ | dsimp only at eq_)
  all_goals (first | (injection eq_ with eq_; subst eq_) | (cases eq_))
  repeat' (first
    | with_reducible assumption
    | ((with_reducible refine .inr (subParts_mem hq ?_)); rfl)
    | with_reducible exact .inl rfl
    | with_reducible apply fetchSend_changes (hq := subParts_trans rfl hq)
    | with_reducible apply secCode_changes (hq := subParts_trans rfl hq)
    | with_reducible apply secCtl_changes (hq := subParts_trans rfl hq)
    | with_reducible refine changes_ite ?_ ?_
    | (with_reducible refine changesParts_of ?_ ?_ ?_ ?_ ?_ ?_ ?_ ?_ ?_ ?_ ?_ ?_ ?_ ?_ ?_ ?_ ?_ ?_ ?_ ?_)
    | simp only [changes_mk]
    | with_reducible intro _
    | split
    | dsimp only [id])

theorem execPodGenesis_changes {Q : List Block} {s0 : State} {w : CtlWrite} {s : State}  (hq : subParts [.sec, .drbg, .repro, .rma, .links, .free, .out] Q = true) {tt : State} (hk : OnlyChanges Q s0 s) (eq_ : execPodGenesis w s = .next tt) : OnlyChanges Q s0 tt := by
  unfold execPodGenesis at eq_
  repeat' (first | split at eq_ | dsimp only at eq_)
  all_goals (first | (injection eq_ with eq_; subst eq_) | (cases eq_))
  repeat' (first
    | with_reducible assumption
    | ((with_reducible refine .inr (subParts_mem hq ?_)); rfl)
    | with_reducible exact .inl rfl
    | with_reducible apply takePodKey_changes (hq := subParts_trans rfl hq)
    | with_reducible apply secCode_changes (hq := subParts_trans rfl hq)
    | with_reducible apply secCtl_changes (hq := subParts_trans rfl hq)
    | with_reducible apply draw_changes (hq := subParts_trans rfl hq)
    | (with_reducible apply draw_changes_of (hq := subParts_trans rfl hq) (eq_ := by assumption))
    | with_reducible refine changes_ite ?_ ?_
    | (with_reducible refine changesParts_of ?_ ?_ ?_ ?_ ?_ ?_ ?_ ?_ ?_ ?_ ?_ ?_ ?_ ?_ ?_ ?_ ?_ ?_ ?_ ?_)
    | simp only [changes_mk]
    | with_reducible intro _
    | split
    | dsimp only [id])

theorem podTransfer_changes {Q : List Block} {s0 : State} {d : DevId} {gen : Word} {ok : Bool} {s : State}  (hq : subParts [.sec, .repro, .rma, .links, .out] Q = true) (hk : OnlyChanges Q s0 s) :
    OnlyChanges Q s0 (podTransfer d gen ok s) := by
  unfold podTransfer
  repeat' (first
    | with_reducible assumption
    | ((with_reducible refine .inr (subParts_mem hq ?_)); rfl)
    | with_reducible exact .inl rfl
    | with_reducible apply takePodKey_changes (hq := subParts_trans rfl hq)
    | with_reducible apply fetchEnds_changes (hq := subParts_trans rfl hq)
    | with_reducible refine changes_ite ?_ ?_
    | (with_reducible refine changesParts_of ?_ ?_ ?_ ?_ ?_ ?_ ?_ ?_ ?_ ?_ ?_ ?_ ?_ ?_ ?_ ?_ ?_ ?_ ?_ ?_)
    | simp only [changes_mk]
    | with_reducible intro _
    | split
    | dsimp only [id])

theorem execPodKeyTransfer_changes {Q : List Block} {s0 : State} {d : DevId} {gen : Word} {ok : Bool} {s : State}  (hq : subParts [.sec, .repro, .rma, .links, .out] Q = true) {tt : State} (hk : OnlyChanges Q s0 s) (eq_ : execPodKeyTransfer d gen ok s = .next tt) : OnlyChanges Q s0 tt := by
  unfold execPodKeyTransfer at eq_
  repeat' (first | split at eq_ | dsimp only at eq_)
  all_goals (first | (injection eq_ with eq_; subst eq_) | (cases eq_))
  repeat' (first
    | with_reducible assumption
    | ((with_reducible refine .inr (subParts_mem hq ?_)); rfl)
    | with_reducible exact .inl rfl
    | with_reducible apply podTransfer_changes (hq := subParts_trans rfl hq)
    | with_reducible refine changes_ite ?_ ?_
    | (with_reducible refine changesParts_of ?_ ?_ ?_ ?_ ?_ ?_ ?_ ?_ ?_ ?_ ?_ ?_ ?_ ?_ ?_ ?_ ?_ ?_ ?_ ?_)
    | simp only [changes_mk]
    | with_reducible intro _
    | split
    | dsimp only [id])

theorem execPodSendEnable_changes {Q : List Block} {s0 : State} {s : State}  (hq : subParts [.sec, .repro, .rma, .links] Q = true) {tt : State} (hk : OnlyChanges Q s0 s) (eq_ : execPodSendEnable s = .next tt) : OnlyChanges Q s0 tt := by
  unfold execPodSendEnable at eq_
  repeat' (first | split at eq_ | dsimp only at eq_)
  all_goals (first | (injection eq_ with eq_; subst eq_) | (cases eq_))
  repeat' (first
    | with_reducible assumption
    | ((with_reducible refine .inr (subParts_mem hq ?_)); rfl)
    | with_reducible exact .inl rfl
    | with_reducible apply fetchSend_changes (hq := subParts_trans rfl hq)
    | with_reducible apply podSend_changes (hq := subParts_trans rfl hq)
    | with_reducible apply rmaPump_changes (hq := subParts_trans rfl hq)
    | with_reducible refine changes_ite ?_ ?_
    | (with_reducible refine changesParts_of ?_ ?_ ?_ ?_ ?_ ?_ ?_ ?_ ?_ ?_ ?_ ?_ ?_ ?_ ?_ ?_ ?_ ?_ ?_ ?_)
    | simp only [changes_mk]
    | with_reducible intro _
    | split
    | dsimp only [id])

theorem execTenantUnbind_changes {Q : List Block} {s0 : State} {w : CtlWrite} {s : State}  (hq : subParts [.sec] Q = true) {tt : State} (hk : OnlyChanges Q s0 s) (eq_ : execTenantUnbind w s = .next tt) : OnlyChanges Q s0 tt := by
  unfold execTenantUnbind at eq_
  repeat' (first | split at eq_ | dsimp only at eq_)
  all_goals (first | (injection eq_ with eq_; subst eq_) | (cases eq_))
  repeat' (first
    | with_reducible assumption
    | ((with_reducible refine .inr (subParts_mem hq ?_)); rfl)
    | with_reducible exact .inl rfl
    | with_reducible apply secCode_changes (hq := subParts_trans rfl hq)
    | with_reducible apply secCtl_changes (hq := subParts_trans rfl hq)
    | with_reducible refine changes_ite ?_ ?_
    | (with_reducible refine changesParts_of ?_ ?_ ?_ ?_ ?_ ?_ ?_ ?_ ?_ ?_ ?_ ?_ ?_ ?_ ?_ ?_ ?_ ?_ ?_ ?_)
    | simp only [changes_mk]
    | with_reducible intro _
    | split
    | dsimp only [id])

theorem execSecClr_changes {Q : List Block} {s0 : State} {w : CtlWrite} {s : State}  (hq : subParts [.sec] Q = true) {tt : State} (hk : OnlyChanges Q s0 s) (eq_ : execSecClr w s = .next tt) : OnlyChanges Q s0 tt := by
  unfold execSecClr at eq_
  repeat' (first | split at eq_ | dsimp only at eq_)
  all_goals (first | (injection eq_ with eq_; subst eq_) | (cases eq_))
  repeat' (first
    | with_reducible assumption
    | ((with_reducible refine .inr (subParts_mem hq ?_)); rfl)
    | with_reducible exact .inl rfl
    | with_reducible apply secCode_changes (hq := subParts_trans rfl hq)
    | with_reducible apply secCtl_changes (hq := subParts_trans rfl hq)
    | with_reducible refine changes_ite ?_ ?_
    | (with_reducible refine changesParts_of ?_ ?_ ?_ ?_ ?_ ?_ ?_ ?_ ?_ ?_ ?_ ?_ ?_ ?_ ?_ ?_ ?_ ?_ ?_ ?_)
    | simp only [changes_mk]
    | with_reducible intro _
    | split
    | dsimp only [id])

theorem execReseed_changes {Q : List Block} {s0 : State} {s : State}  (hq : subParts [.drbg] Q = true) {tt : State} (hk : OnlyChanges Q s0 s) (eq_ : execReseed s = .next tt) : OnlyChanges Q s0 tt := by
  unfold execReseed at eq_
  repeat' (first | split at eq_ | dsimp only at eq_)
  all_goals (first | (injection eq_ with eq_; subst eq_) | (cases eq_))
  repeat' (first
    | with_reducible assumption
    | ((with_reducible refine .inr (subParts_mem hq ?_)); rfl)
    | with_reducible exact .inl rfl
    | with_reducible refine changes_ite ?_ ?_
    | (with_reducible refine changesParts_of ?_ ?_ ?_ ?_ ?_ ?_ ?_ ?_ ?_ ?_ ?_ ?_ ?_ ?_ ?_ ?_ ?_ ?_ ?_ ?_)
    | simp only [changes_mk]
    | with_reducible intro _
    | split
    | dsimp only [id])

theorem spdmSay_changes {Q : List Block} {s0 : State} {r : SpdmResp} {s : State}  (hq : subParts [.out] Q = true) (hk : OnlyChanges Q s0 s) :
    OnlyChanges Q s0 (spdmSay r s) := by
  unfold spdmSay
  repeat' (first
    | with_reducible assumption
    | ((with_reducible refine .inr (subParts_mem hq ?_)); rfl)
    | with_reducible exact .inl rfl
    | with_reducible apply emit_changes (hq := subParts_trans rfl hq)
    | with_reducible refine changes_ite ?_ ?_
    | (with_reducible refine changesParts_of ?_ ?_ ?_ ?_ ?_ ?_ ?_ ?_ ?_ ?_ ?_ ?_ ?_ ?_ ?_ ?_ ?_ ?_ ?_ ?_)
    | simp only [changes_mk]
    | with_reducible intro _
    | split
    | dsimp only [id])

theorem spdmRun_changes {Q : List Block} {s0 : State} {need : Spdm → Bool} {run : State → State} {s : State} (h_run : ∀ (u : State), OnlyChanges Q s0 u → OnlyChanges Q s0 (run u)) (hq : subParts [.out] Q = true) {tt : State} (hk : OnlyChanges Q s0 s) (eq_ : spdmRun need run s = .next tt) : OnlyChanges Q s0 tt := by
  unfold spdmRun at eq_
  repeat' (first | split at eq_ | dsimp only at eq_)
  all_goals (first | (injection eq_ with eq_; subst eq_) | (cases eq_))
  repeat' (first
    | with_reducible assumption
    | ((with_reducible refine .inr (subParts_mem hq ?_)); rfl)
    | with_reducible exact .inl rfl
    | with_reducible apply spdmSay_changes (hq := subParts_trans rfl hq)
    | with_reducible apply h_run
    | with_reducible refine changes_ite ?_ ?_
    | (with_reducible refine changesParts_of ?_ ?_ ?_ ?_ ?_ ?_ ?_ ?_ ?_ ?_ ?_ ?_ ?_ ?_ ?_ ?_ ?_ ?_ ?_ ?_)
    | simp only [changes_mk]
    | with_reducible intro _
    | split
    | dsimp only [id])

theorem execGetVersion_changes {Q : List Block} {s0 : State} {s : State}  (hq : subParts [.sec, .out] Q = true) {tt : State} (hk : OnlyChanges Q s0 s) (eq_ : execGetVersion s = .next tt) : OnlyChanges Q s0 tt := by
  unfold execGetVersion at eq_
  repeat' (first | split at eq_ | dsimp only at eq_)
  all_goals (first | (injection eq_ with eq_; subst eq_) | (cases eq_))
  repeat' (first
    | with_reducible assumption
    | ((with_reducible refine .inr (subParts_mem hq ?_)); rfl)
    | with_reducible exact .inl rfl
    | with_reducible apply spdmSay_changes (hq := subParts_trans rfl hq)
    | with_reducible refine changes_ite ?_ ?_
    | (with_reducible refine changesParts_of ?_ ?_ ?_ ?_ ?_ ?_ ?_ ?_ ?_ ?_ ?_ ?_ ?_ ?_ ?_ ?_ ?_ ?_ ?_ ?_)
    | simp only [changes_mk]
    | with_reducible intro _
    | split
    | dsimp only [id])

theorem execGetCapabilities_changes {Q : List Block} {s0 : State} {v : Byte} {s : State}  (hq : subParts [.sec, .out] Q = true) {tt : State} (hk : OnlyChanges Q s0 s) (eq_ : execGetCapabilities v s = .next tt) : OnlyChanges Q s0 tt := by
  unfold execGetCapabilities at eq_
  repeat' (first | split at eq_ | dsimp only at eq_)
  all_goals (first | (with_reducible refine spdmRun_changes ?_ (subParts_trans rfl hq) ?_ eq_) | (injection eq_ with eq_; subst eq_) | (cases eq_))
  repeat' (first
    | with_reducible assumption
    | ((with_reducible refine .inr (subParts_mem hq ?_)); rfl)
    | with_reducible exact .inl rfl
    | with_reducible apply spdmSay_changes (hq := subParts_trans rfl hq)
    | with_reducible refine changes_ite ?_ ?_
    | (with_reducible refine changesParts_of ?_ ?_ ?_ ?_ ?_ ?_ ?_ ?_ ?_ ?_ ?_ ?_ ?_ ?_ ?_ ?_ ?_ ?_ ?_ ?_)
    | simp only [changes_mk]
    | with_reducible intro _
    | split
    | dsimp only [id])

theorem execNegotiateAlgorithms_changes {Q : List Block} {s0 : State} {v : Byte} {ed : Bool} {sha : Bool} {s : State}  (hq : subParts [.sec, .out] Q = true) {tt : State} (hk : OnlyChanges Q s0 s) (eq_ : execNegotiateAlgorithms v ed sha s = .next tt) : OnlyChanges Q s0 tt := by
  unfold execNegotiateAlgorithms at eq_
  repeat' (first | split at eq_ | dsimp only at eq_)
  all_goals (first | (with_reducible refine spdmRun_changes ?_ (subParts_trans rfl hq) ?_ eq_) | (injection eq_ with eq_; subst eq_) | (cases eq_))
  repeat' (first
    | with_reducible assumption
    | ((with_reducible refine .inr (subParts_mem hq ?_)); rfl)
    | with_reducible exact .inl rfl
    | with_reducible apply spdmSay_changes (hq := subParts_trans rfl hq)
    | with_reducible refine changes_ite ?_ ?_
    | (with_reducible refine changesParts_of ?_ ?_ ?_ ?_ ?_ ?_ ?_ ?_ ?_ ?_ ?_ ?_ ?_ ?_ ?_ ?_ ?_ ?_ ?_ ?_)
    | simp only [changes_mk]
    | with_reducible intro _
    | split
    | dsimp only [id])

theorem execGetDigests_changes {Q : List Block} {s0 : State} {s : State}  (hq : subParts [.out] Q = true) {tt : State} (hk : OnlyChanges Q s0 s) (eq_ : execGetDigests s = .next tt) : OnlyChanges Q s0 tt := by
  unfold execGetDigests at eq_
  repeat' (first | split at eq_ | dsimp only at eq_)
  all_goals (first | (with_reducible refine spdmRun_changes ?_ (subParts_trans rfl hq) ?_ eq_) | (injection eq_ with eq_; subst eq_) | (cases eq_))
  repeat' (first
    | with_reducible assumption
    | ((with_reducible refine .inr (subParts_mem hq ?_)); rfl)
    | with_reducible exact .inl rfl
    | with_reducible apply spdmSay_changes (hq := subParts_trans rfl hq)
    | with_reducible refine changes_ite ?_ ?_
    | (with_reducible refine changesParts_of ?_ ?_ ?_ ?_ ?_ ?_ ?_ ?_ ?_ ?_ ?_ ?_ ?_ ?_ ?_ ?_ ?_ ?_ ?_ ?_)
    | simp only [changes_mk]
    | with_reducible intro _
    | split
    | dsimp only [id])

theorem execGetCertificate_changes {Q : List Block} {s0 : State} {off : Nat} {len : Nat} {s : State}  (hq : subParts [.out] Q = true) {tt : State} (hk : OnlyChanges Q s0 s) (eq_ : execGetCertificate off len s = .next tt) : OnlyChanges Q s0 tt := by
  unfold execGetCertificate at eq_
  repeat' (first | split at eq_ | dsimp only at eq_)
  all_goals (first | (with_reducible refine spdmRun_changes ?_ (subParts_trans rfl hq) ?_ eq_) | (injection eq_ with eq_; subst eq_) | (cases eq_))
  repeat' (first
    | with_reducible assumption
    | ((with_reducible refine .inr (subParts_mem hq ?_)); rfl)
    | with_reducible exact .inl rfl
    | with_reducible apply spdmSay_changes (hq := subParts_trans rfl hq)
    | with_reducible refine changes_ite ?_ ?_
    | (with_reducible refine changesParts_of ?_ ?_ ?_ ?_ ?_ ?_ ?_ ?_ ?_ ?_ ?_ ?_ ?_ ?_ ?_ ?_ ?_ ?_ ?_ ?_)
    | simp only [changes_mk]
    | with_reducible intro _
    | split
    | dsimp only [id])

theorem execChallenge_changes {Q : List Block} {s0 : State} {nonce : BitVec 256} {s : State}  (hq : subParts [.out] Q = true) {tt : State} (hk : OnlyChanges Q s0 s) (eq_ : execChallenge nonce s = .next tt) : OnlyChanges Q s0 tt := by
  unfold execChallenge at eq_
  repeat' (first | split at eq_ | dsimp only at eq_)
  all_goals (first | (with_reducible refine spdmRun_changes ?_ (subParts_trans rfl hq) ?_ eq_) | (injection eq_ with eq_; subst eq_) | (cases eq_))
  repeat' (first
    | with_reducible assumption
    | ((with_reducible refine .inr (subParts_mem hq ?_)); rfl)
    | with_reducible exact .inl rfl
    | with_reducible apply spdmSay_changes (hq := subParts_trans rfl hq)
    | with_reducible refine changes_ite ?_ ?_
    | (with_reducible refine changesParts_of ?_ ?_ ?_ ?_ ?_ ?_ ?_ ?_ ?_ ?_ ?_ ?_ ?_ ?_ ?_ ?_ ?_ ?_ ?_ ?_)
    | simp only [changes_mk]
    | with_reducible intro _
    | split
    | dsimp only [id])

theorem execGetMeasurements_changes {Q : List Block} {s0 : State} {i : Byte} {signed : Bool} {nonce : BitVec 256} {s : State}  (hq : subParts [.out] Q = true) {tt : State} (hk : OnlyChanges Q s0 s) (eq_ : execGetMeasurements i signed nonce s = .next tt) : OnlyChanges Q s0 tt := by
  unfold execGetMeasurements at eq_
  repeat' (first | split at eq_ | dsimp only at eq_)
  all_goals (first | (with_reducible refine spdmRun_changes ?_ (subParts_trans rfl hq) ?_ eq_) | (injection eq_ with eq_; subst eq_) | (cases eq_))
  repeat' (first
    | with_reducible assumption
    | ((with_reducible refine .inr (subParts_mem hq ?_)); rfl)
    | with_reducible exact .inl rfl
    | with_reducible apply getD_changes
    | with_reducible apply spdmSay_changes (hq := subParts_trans rfl hq)
    | with_reducible refine changes_ite ?_ ?_
    | (with_reducible refine changesParts_of ?_ ?_ ?_ ?_ ?_ ?_ ?_ ?_ ?_ ?_ ?_ ?_ ?_ ?_ ?_ ?_ ?_ ?_ ?_ ?_)
    | simp only [changes_mk]
    | with_reducible intro _
    | split
    | dsimp only [id])

theorem execSecureSessionExchange_changes {Q : List Block} {s0 : State} {ok : Bool} {s : State}  (hq : subParts [.sec, .out] Q = true) {tt : State} (hk : OnlyChanges Q s0 s) (eq_ : execSecureSessionExchange ok s = .next tt) : OnlyChanges Q s0 tt := by
  unfold execSecureSessionExchange at eq_
  repeat' (first | split at eq_ | dsimp only at eq_)
  all_goals (first | (with_reducible refine spdmRun_changes ?_ (subParts_trans rfl hq) ?_ eq_) | (injection eq_ with eq_; subst eq_) | (cases eq_))
  repeat' (first
    | with_reducible assumption
    | ((with_reducible refine .inr (subParts_mem hq ?_)); rfl)
    | with_reducible exact .inl rfl
    | with_reducible apply spdmSay_changes (hq := subParts_trans rfl hq)
    | with_reducible refine changes_ite ?_ ?_
    | (with_reducible refine changesParts_of ?_ ?_ ?_ ?_ ?_ ?_ ?_ ?_ ?_ ?_ ?_ ?_ ?_ ?_ ?_ ?_ ?_ ?_ ?_ ?_)
    | simp only [changes_mk]
    | with_reducible intro _
    | split
    | dsimp only [id])

end Sys2Proof.Machine
end

