-- ==== Sys2Proof/Laws/Mem.lean ====
section
/-!
SUPPORT. Laws of tables and memories: reading after a write, and the canonical forms.
-/

namespace Sys2Proof.Machine

variable {V : Type}

/-! ### Tables -/

theorem Tab.find_put_same (t : Tab V) (k : Nat) (v : V) : Tab.find (Tab.put t k v) k = some v := by
  induction t with
  | nil => simp [Tab.put, Tab.find]
  | cons e rest ih =>
    obtain ⟨k', v'⟩ := e
    simp only [Tab.put]
    split
    · simp [Tab.find]
    · split
      · simp [Tab.find]
      · next h1 h2 => simp only [Tab.find, if_neg (fun h => h2 (Eq.symm h))]; exact ih

theorem Tab.find_put_other (t : Tab V) (k j : Nat) (v : V) (h : j ≠ k) :
    Tab.find (Tab.put t k v) j = Tab.find t j := by
  induction t with
  | nil => simp [Tab.put, Tab.find, h.symm]
  | cons e rest ih =>
    obtain ⟨k', v'⟩ := e
    simp only [Tab.put]
    split
    · simp [Tab.find, h.symm]
    · split
      · next h1 h2 => subst h2; simp [Tab.find, h.symm]
      · simp only [Tab.find]; split
        · rfl
        · exact ih

theorem Tab.find_del_same (t : Tab V) (k : Nat) : Tab.find (Tab.del t k) k = none := by
  induction t with
  | nil => rfl
  | cons e rest ih =>
    obtain ⟨k', v'⟩ := e
    by_cases h : k' = k
    · simpa [Tab.del, h] using ih
    · simp only [Tab.del, List.filter_cons, bne_iff_ne, ne_eq, h, not_false_eq_true, if_true, Tab.find, if_false]
      exact ih

theorem Tab.find_del_other (t : Tab V) (k j : Nat) (h : j ≠ k) : Tab.find (Tab.del t k) j = Tab.find t j := by
  induction t with
  | nil => rfl
  | cons e rest ih =>
    obtain ⟨k', v'⟩ := e
    by_cases hk : k' = k
    · subst hk
      simp only [Tab.del, List.filter_cons, bne_self_eq_false, Bool.false_eq_true, if_false, Tab.find, if_neg h.symm]
      exact ih
    · simp only [Tab.del, List.filter_cons, bne_iff_ne, ne_eq, hk, not_false_eq_true, if_true, Tab.find]
      split
      · rfl
      · exact ih

/-- Keys strictly rise, as a chain of the keys. -/
theorem Tab.wf_iff (t : Tab V) : Tab.wf t = true ↔ (t.map (fun e => e.1)).Pairwise (· < ·) := by
  induction t with
  | nil => simp [Tab.wf]
  | cons e rest ih =>
    obtain ⟨k, v⟩ := e
    cases rest with
    | nil => simp [Tab.wf]
    | cons e' rest' =>
      obtain ⟨k', v'⟩ := e'
      simp only [Tab.wf, Bool.and_eq_true, decide_eq_true_eq, ih, List.map_cons, List.pairwise_cons]
      constructor
      · rintro ⟨h, h1, h2⟩
        refine ⟨?_, h1, h2⟩
        intro a ha
        rcases List.mem_cons.1 ha with rfl | ha
        · exact h
        · exact h.trans (h1 a ha)
      · rintro ⟨h, h1, h2⟩
        exact ⟨h k' (by simp), h1, h2⟩

theorem Tab.put_keys (t : Tab V) (k : Nat) (v : V) :
    ∀ x ∈ (Tab.put t k v).map (fun e => e.1), x = k ∨ x ∈ t.map (fun e => e.1) := by
  induction t with
  | nil => simp [Tab.put]
  | cons e rest ih =>
    obtain ⟨k', v'⟩ := e
    intro x hx
    simp only [Tab.put] at hx
    split at hx
    · simpa using hx
    · split at hx
      · next h => subst h; simp only [List.map_cons, List.mem_cons] at hx ⊢; tauto
      · simp only [List.map_cons, List.mem_cons] at hx ⊢
        rcases hx with h | h
        · exact Or.inr (Or.inl h)
        · rcases ih x h with h | h
          · exact Or.inl h
          · exact Or.inr (Or.inr h)

theorem Tab.put_wf (t : Tab V) (k : Nat) (v : V) (h : Tab.wf t = true) : Tab.wf (Tab.put t k v) = true := by
  rw [Tab.wf_iff] at h ⊢
  induction t with
  | nil => simp [Tab.put]
  | cons e rest ih =>
    obtain ⟨k', v'⟩ := e
    simp only [List.map_cons, List.pairwise_cons] at h
    simp only [Tab.put]
    split
    · next hk =>
      simp only [List.map_cons, List.pairwise_cons, List.mem_cons]
      refine ⟨?_, h.1, h.2⟩
      rintro a (rfl | ha)
      · exact hk
      · exact hk.trans (h.1 a ha)
    · split
      · next hk => subst hk; simpa using h
      · next h1 h2 =>
        simp only [List.map_cons, List.pairwise_cons]
        refine ⟨?_, ih h.2⟩
        intro a ha
        rcases Tab.put_keys rest k v a ha with rfl | ha
        · omega
        · exact h.1 a ha

theorem Tab.filter_wf (t : Tab V) (p : Nat × V → Bool) (h : Tab.wf t = true) : Tab.wf (t.filter p) = true := by
  rw [Tab.wf_iff] at h ⊢
  exact h.sublist ((List.filter_sublist).map _)

theorem Tab.del_wf (t : Tab V) (k : Nat) (h : Tab.wf t = true) : Tab.wf (Tab.del t k) = true := Tab.filter_wf t _ h

theorem Tab.mem_put (t : Tab V) (k : Nat) (v : V) (e : Nat × V) (h : e ∈ Tab.put t k v) : e = (k, v) ∨ e ∈ t := by
  induction t with
  | nil => simpa [Tab.put] using h
  | cons e' rest ih =>
    obtain ⟨k', v'⟩ := e'
    simp only [Tab.put] at h
    split at h
    · simpa using h
    · split at h
      · simp only [List.mem_cons] at h ⊢; tauto
      · rcases List.mem_cons.1 h with h | h
        · exact Or.inr (List.mem_cons.2 (Or.inl h))
        · rcases ih h with h | h
          · exact Or.inl h
          · exact Or.inr (List.mem_cons_of_mem _ h)

/-- What holds of every value of a table holds of the one found, or of the default. -/
theorem Tab.getD_all (t : Tab V) (k : Nat) (d : V) (p : V → Bool) (h : t.all (fun e => p e.2) = true) (hd : p d = true) :
    p (Tab.getD t k d) = true := by
  unfold Tab.getD
  induction t with
  | nil => simpa [Tab.find] using hd
  | cons e rest ih =>
    obtain ⟨k', v'⟩ := e
    simp only [List.all_cons, Bool.and_eq_true] at h
    simp only [Tab.find]
    split
    · exact h.1
    · exact ih h.2

theorem Tab.put_all (t : Tab V) (k : Nat) (v : V) (p : V → Bool) (h : t.all (fun e => p e.2) = true) (hv : p v = true) :
    (Tab.put t k v).all (fun e => p e.2) = true := by
  rw [List.all_eq_true] at h ⊢
  intro e he
  rcases Tab.mem_put t k v e he with rfl | he
  · exact hv
  · exact h e he

/-! ### Memories -/

theorem Mem.all_put (m : Mem) (a : Nat) (v : Byte) (h : m.all (fun c => c.2 != 0) = true) (hv : v ≠ 0) :
    (Tab.put m a v).all (fun c => c.2 != 0) = true :=
  Tab.put_all m a v (fun b => b != 0) h (by simpa using hv)

theorem Mem.set_wf (m : Mem) (a : Nat) (v : Byte) (h : Mem.wf m = true) : Mem.wf (Mem.set m a v) = true := by
  simp only [Mem.wf, Bool.and_eq_true] at h ⊢
  unfold Mem.set
  split
  · exact ⟨Tab.del_wf m a h.1, by
      rw [List.all_eq_true] at *; intro e he; exact h.2 e (List.mem_of_mem_filter he)⟩
  · next hv => exact ⟨Tab.put_wf m a v h.1, Mem.all_put m a v h.2 hv⟩

theorem Mem.store_wf (bs : List Byte) (m : Mem) (a : Nat) (h : Mem.wf m = true) : Mem.wf (Mem.store m a bs) = true := by
  induction bs generalizing m a with
  | nil => exact h
  | cons b rest ih => exact ih _ _ (Mem.set_wf m a b h)

theorem Mem.filter_wf (m : Mem) (p : Host.Cell → Bool) (h : Mem.wf m = true) : Mem.wf (m.filter p) = true := by
  simp only [Mem.wf, Bool.and_eq_true] at h ⊢
  exact ⟨Tab.filter_wf m p h.1, by rw [List.all_eq_true] at *; intro e he; exact h.2 e (List.mem_of_mem_filter he)⟩

theorem Mem.clear_wf (m : Mem) (lo hi : Nat) (h : Mem.wf m = true) : Mem.wf (Mem.clear m lo hi) = true :=
  Mem.filter_wf m _ h

theorem Mem.over_wf (top m : Mem) (h : Mem.wf m = true) : Mem.wf (Mem.over m top) = true := by
  unfold Mem.over
  induction top generalizing m with
  | nil => exact h
  | cons e rest ih => exact ih _ (Mem.set_wf m e.1 e.2 h)

theorem Mem.nil_wf : Mem.wf [] = true := rfl

/-- One change after another, each of which keeps the canonical form. -/
theorem Mem.foldl_wf {A : Type} {f : Mem → A → Mem} {l : List A} {m : Mem} (h : Mem.wf m = true)
    (hf : ∀ (m : Mem) (a : A), Mem.wf m = true → Mem.wf (f m a) = true) : Mem.wf (l.foldl f m) = true := by
  induction l generalizing m with
  | nil => exact h
  | cons a rest ih => exact ih (hf m a h)

/-- A byte written is the byte read. -/
theorem Mem.byte_set_same (m : Mem) (a : Nat) (v : Byte) : Mem.byte (Mem.set m a v) a = v := by
  unfold Mem.byte Mem.set Tab.getD
  split
  · next h => rw [Tab.find_del_same]; exact h.symm
  · rw [Tab.find_put_same]; rfl

/-- A write of one byte leaves every other byte alone. -/
theorem Mem.byte_set_other (m : Mem) (a b : Nat) (v : Byte) (h : b ≠ a) : Mem.byte (Mem.set m a v) b = Mem.byte m b := by
  unfold Mem.byte Mem.set Tab.getD
  split
  · rw [Tab.find_del_other _ _ _ h]
  · rw [Tab.find_put_other _ _ _ _ h]

/-- A write leaves every byte outside its range alone. -/
theorem Mem.byte_store_other (bs : List Byte) (m : Mem) (a b : Nat) (h : b < a ∨ a + bs.length ≤ b) :
    Mem.byte (Mem.store m a bs) b = Mem.byte m b := by
  induction bs generalizing m a with
  | nil => rfl
  | cons x rest ih =>
    simp only [List.length_cons] at h
    have h1 : b ≠ a := by omega
    have h2 : b < a + 1 ∨ a + 1 + rest.length ≤ b := by omega
    rw [Mem.store, ih _ _ h2, Mem.byte_set_other _ _ _ _ h1]

end Sys2Proof.Machine
end

