-- ==== Sys2Proof/Laws/State.lean ====
section
/-!
SUPPORT. What the shared updates leave alone, one lemma per field, and what reading gives after a write: for proofs about
meanings, which then unfold no record update.
-/

namespace Sys2Proof.Machine

/-! ### Tables -/

theorem Tab.getD_put_same {V : Type} (t : Tab V) (k : Nat) (v d : V) : Tab.getD (Tab.put t k v) k d = v := by
  simp [Tab.getD, Tab.find_put_same]

theorem Tab.getD_put_other {V : Type} (t : Tab V) (k j : Nat) (v d : V) (h : j ≠ k) :
    Tab.getD (Tab.put t k v) j d = Tab.getD t j d := by simp [Tab.getD, Tab.find_put_other t k j v h]

@[simp] theorem Tab.getD_upd_same {V : Type} (t : Tab V) (k : Nat) (d : V) (f : V → V) :
    Tab.getD (Tab.upd t k d f) k d = f (Tab.getD t k d) := Tab.getD_put_same _ _ _ _

theorem Tab.getD_upd_other {V : Type} (t : Tab V) (k j : Nat) (d : V) (f : V → V) (h : j ≠ k) :
    Tab.getD (Tab.upd t k d f) j d = Tab.getD t j d := Tab.getD_put_other _ _ _ _ _ h

theorem Tab.find_mod_same {V : Type} (t : Tab V) (k : Nat) (f : V → V) : Tab.find (Tab.mod t k f) k = (Tab.find t k).map f := by
  unfold Tab.mod
  induction t with
  | nil => rfl
  | cons e rest ih =>
    obtain ⟨a, v⟩ := e
    by_cases h : a = k
    · simp [Tab.find, h]
    · simp only [List.map_cons, Tab.find, h, if_false]
      exact ih

theorem Tab.find_mod_other {V : Type} (t : Tab V) (k j : Nat) (f : V → V) (h : j ≠ k) :
    Tab.find (Tab.mod t k f) j = Tab.find t j := by
  unfold Tab.mod
  induction t with
  | nil => rfl
  | cons e rest ih =>
    obtain ⟨a, v⟩ := e
    by_cases ha : a = k
    · subst ha
      simp only [List.map_cons, Tab.find, if_true, Ne.symm h, if_false]
      exact ih
    · simp only [List.map_cons, Tab.find, ha, if_false, ih]

/-! ### Reading after writing -/

@[simp] theorem cluster_clusterUpd_same (n : Nat) (f : Cluster → Cluster) (s : State) :
    cluster (clusterUpd n f s) n = f (cluster s n) := Tab.getD_upd_same _ _ _ _

theorem cluster_clusterUpd_other (n m : Nat) (f : Cluster → Cluster) (s : State) (h : m ≠ n) :
    cluster (clusterUpd n f s) m = cluster s m := Tab.getD_upd_other _ _ _ _ _ h

@[simp] theorem link_linkUpd_same (n : Nat) (f : Link → Link) (s : State) : link (linkUpd n f s) n = f (link s n) :=
  Tab.getD_upd_same _ _ _ _

theorem link_linkUpd_other (n m : Nat) (f : Link → Link) (s : State) (h : m ≠ n) : link (linkUpd n f s) m = link s m :=
  Tab.getD_upd_other _ _ _ _ _ h

@[simp] theorem fnHost_fnUpd_same (fn : FnId) (f : FnHost → FnHost) (s : State) : fnHost (fnUpd fn f s) fn = f (fnHost s fn) :=
  Tab.getD_upd_same _ _ _ _

@[simp] theorem ringSet_ringUpd_same (r : RingRef) (f : RingSet → RingSet) (s : State) :
    ringSet (ringUpd r f s) r = f (ringSet s r) := by
  unfold ringSet ringUpd
  rw [fnHost_fnUpd_same]
  exact Tab.getD_upd_same _ _ _ _

@[simp] theorem ctxOf_ctxUpd_same (c : Nat) (f : Ctx → Ctx) (s : State) : ctxOf (ctxUpd c f s) c = f (ctxOf s c) :=
  Tab.getD_upd_same _ _ _ _

@[simp] theorem trayDst_trayDstUpd_same (d : Nat) (f : TrayDst → TrayDst) (s : State) :
    trayDst (trayDstUpd d f s) d = f (trayDst s d) := Tab.getD_upd_same _ _ _ _

@[simp] theorem qpOf_qpUpd_same (n : Nat) (f : Qp → Qp) (s : State) : qpOf (qpUpd n f s) n = (qpOf s n).map f :=
  Tab.find_mod_same _ _ _

@[simp] theorem galleyOf_galleyUpd_same (q : ReqId) (f : Galley → Galley) (s : State) :
    galleyOf (galleyUpd q f s) q = (galleyOf s q).map f := Tab.find_mod_same _ _ _

@[simp] theorem anchorOf_anchorUpd_same (q : ReqId) (f : AnchorInfo → AnchorInfo) (s : State) :
    anchorOf (anchorUpd q f s) q = (anchorOf s q).map f := Tab.find_mod_same _ _ _

/-! ### Fields that an update leaves alone -/

@[simp] theorem emit_dev (e : Emit) (s : State) : (emit e s).dev = s.dev := rfl
@[simp] theorem emit_maint (e : Emit) (s : State) : (emit e s).maint = s.maint := rfl
@[simp] theorem emit_sec (e : Emit) (s : State) : (emit e s).sec = s.sec := rfl
@[simp] theorem emit_host (e : Emit) (s : State) : (emit e s).host = s.host := rfl
@[simp] theorem emit_forme (e : Emit) (s : State) : (emit e s).forme = s.forme := rfl
@[simp] theorem emit_codec (e : Emit) (s : State) : (emit e s).codec = s.codec := rfl
@[simp] theorem emit_tier (e : Emit) (s : State) : (emit e s).tier = s.tier := rfl
@[simp] theorem emit_clusters (e : Emit) (s : State) : (emit e s).clusters = s.clusters := rfl
@[simp] theorem emit_sched (e : Emit) (s : State) : (emit e s).sched = s.sched := rfl
@[simp] theorem emit_repro (e : Emit) (s : State) : (emit e s).repro = s.repro := rfl
@[simp] theorem emit_req (e : Emit) (s : State) : (emit e s).req = s.req := rfl
@[simp] theorem emit_pair (e : Emit) (s : State) : (emit e s).pair = s.pair := rfl
@[simp] theorem emit_near (e : Emit) (s : State) : (emit e s).near = s.near := rfl
@[simp] theorem emit_rma (e : Emit) (s : State) : (emit e s).rma = s.rma := rfl
@[simp] theorem emit_links (e : Emit) (s : State) : (emit e s).links = s.links := rfl
@[simp] theorem emit_tb (e : Emit) (s : State) : (emit e s).tb = s.tb := rfl
@[simp] theorem emit_free (e : Emit) (s : State) : (emit e s).free = s.free := rfl
@[simp] theorem emit_pending (e : Emit) (s : State) : (emit e s).pending = s.pending := rfl
@[simp] theorem bumpFree_dev (s : State) : (bumpFree s).dev = s.dev := rfl
@[simp] theorem bumpFree_maint (s : State) : (bumpFree s).maint = s.maint := rfl
@[simp] theorem bumpFree_sec (s : State) : (bumpFree s).sec = s.sec := rfl
@[simp] theorem bumpFree_host (s : State) : (bumpFree s).host = s.host := rfl
@[simp] theorem bumpFree_forme (s : State) : (bumpFree s).forme = s.forme := rfl
@[simp] theorem bumpFree_codec (s : State) : (bumpFree s).codec = s.codec := rfl
@[simp] theorem bumpFree_tier (s : State) : (bumpFree s).tier = s.tier := rfl
@[simp] theorem bumpFree_clusters (s : State) : (bumpFree s).clusters = s.clusters := rfl
@[simp] theorem bumpFree_sched (s : State) : (bumpFree s).sched = s.sched := rfl
@[simp] theorem bumpFree_repro (s : State) : (bumpFree s).repro = s.repro := rfl
@[simp] theorem bumpFree_req (s : State) : (bumpFree s).req = s.req := rfl
@[simp] theorem bumpFree_pair (s : State) : (bumpFree s).pair = s.pair := rfl
@[simp] theorem bumpFree_near (s : State) : (bumpFree s).near = s.near := rfl
@[simp] theorem bumpFree_rma (s : State) : (bumpFree s).rma = s.rma := rfl
@[simp] theorem bumpFree_links (s : State) : (bumpFree s).links = s.links := rfl
@[simp] theorem bumpFree_tb (s : State) : (bumpFree s).tb = s.tb := rfl
@[simp] theorem bumpFree_out (s : State) : (bumpFree s).out = s.out := rfl
@[simp] theorem bumpFree_pending (s : State) : (bumpFree s).pending = s.pending := rfl
@[simp] theorem clusterUpd_dev (n : Nat) (f : Cluster → Cluster) (s : State) : (clusterUpd n f s).dev = s.dev := rfl
@[simp] theorem clusterUpd_maint (n : Nat) (f : Cluster → Cluster) (s : State) : (clusterUpd n f s).maint = s.maint := rfl
@[simp] theorem clusterUpd_sec (n : Nat) (f : Cluster → Cluster) (s : State) : (clusterUpd n f s).sec = s.sec := rfl
@[simp] theorem clusterUpd_host (n : Nat) (f : Cluster → Cluster) (s : State) : (clusterUpd n f s).host = s.host := rfl
@[simp] theorem clusterUpd_forme (n : Nat) (f : Cluster → Cluster) (s : State) : (clusterUpd n f s).forme = s.forme := rfl
@[simp] theorem clusterUpd_codec (n : Nat) (f : Cluster → Cluster) (s : State) : (clusterUpd n f s).codec = s.codec := rfl
@[simp] theorem clusterUpd_tier (n : Nat) (f : Cluster → Cluster) (s : State) : (clusterUpd n f s).tier = s.tier := rfl
@[simp] theorem clusterUpd_sched (n : Nat) (f : Cluster → Cluster) (s : State) : (clusterUpd n f s).sched = s.sched := rfl
@[simp] theorem clusterUpd_repro (n : Nat) (f : Cluster → Cluster) (s : State) : (clusterUpd n f s).repro = s.repro := rfl
@[simp] theorem clusterUpd_req (n : Nat) (f : Cluster → Cluster) (s : State) : (clusterUpd n f s).req = s.req := rfl
@[simp] theorem clusterUpd_pair (n : Nat) (f : Cluster → Cluster) (s : State) : (clusterUpd n f s).pair = s.pair := rfl
@[simp] theorem clusterUpd_near (n : Nat) (f : Cluster → Cluster) (s : State) : (clusterUpd n f s).near = s.near := rfl
@[simp] theorem clusterUpd_rma (n : Nat) (f : Cluster → Cluster) (s : State) : (clusterUpd n f s).rma = s.rma := rfl
@[simp] theorem clusterUpd_links (n : Nat) (f : Cluster → Cluster) (s : State) : (clusterUpd n f s).links = s.links := rfl
@[simp] theorem clusterUpd_tb (n : Nat) (f : Cluster → Cluster) (s : State) : (clusterUpd n f s).tb = s.tb := rfl
@[simp] theorem clusterUpd_free (n : Nat) (f : Cluster → Cluster) (s : State) : (clusterUpd n f s).free = s.free := rfl
@[simp] theorem clusterUpd_out (n : Nat) (f : Cluster → Cluster) (s : State) : (clusterUpd n f s).out = s.out := rfl
@[simp] theorem clusterUpd_pending (n : Nat) (f : Cluster → Cluster) (s : State) : (clusterUpd n f s).pending = s.pending := rfl
@[simp] theorem lpcUpd_dev (c : Nat) (f : Lpc → Lpc) (s : State) : (lpcUpd c f s).dev = s.dev := rfl
@[simp] theorem lpcUpd_maint (c : Nat) (f : Lpc → Lpc) (s : State) : (lpcUpd c f s).maint = s.maint := rfl
@[simp] theorem lpcUpd_sec (c : Nat) (f : Lpc → Lpc) (s : State) : (lpcUpd c f s).sec = s.sec := rfl
@[simp] theorem lpcUpd_host (c : Nat) (f : Lpc → Lpc) (s : State) : (lpcUpd c f s).host = s.host := rfl
@[simp] theorem lpcUpd_forme (c : Nat) (f : Lpc → Lpc) (s : State) : (lpcUpd c f s).forme = s.forme := rfl
@[simp] theorem lpcUpd_codec (c : Nat) (f : Lpc → Lpc) (s : State) : (lpcUpd c f s).codec = s.codec := rfl
@[simp] theorem lpcUpd_clusters (c : Nat) (f : Lpc → Lpc) (s : State) : (lpcUpd c f s).clusters = s.clusters := rfl
@[simp] theorem lpcUpd_sched (c : Nat) (f : Lpc → Lpc) (s : State) : (lpcUpd c f s).sched = s.sched := rfl
@[simp] theorem lpcUpd_repro (c : Nat) (f : Lpc → Lpc) (s : State) : (lpcUpd c f s).repro = s.repro := rfl
@[simp] theorem lpcUpd_req (c : Nat) (f : Lpc → Lpc) (s : State) : (lpcUpd c f s).req = s.req := rfl
@[simp] theorem lpcUpd_pair (c : Nat) (f : Lpc → Lpc) (s : State) : (lpcUpd c f s).pair = s.pair := rfl
@[simp] theorem lpcUpd_near (c : Nat) (f : Lpc → Lpc) (s : State) : (lpcUpd c f s).near = s.near := rfl
@[simp] theorem lpcUpd_rma (c : Nat) (f : Lpc → Lpc) (s : State) : (lpcUpd c f s).rma = s.rma := rfl
@[simp] theorem lpcUpd_links (c : Nat) (f : Lpc → Lpc) (s : State) : (lpcUpd c f s).links = s.links := rfl
@[simp] theorem lpcUpd_tb (c : Nat) (f : Lpc → Lpc) (s : State) : (lpcUpd c f s).tb = s.tb := rfl
@[simp] theorem lpcUpd_free (c : Nat) (f : Lpc → Lpc) (s : State) : (lpcUpd c f s).free = s.free := rfl
@[simp] theorem lpcUpd_out (c : Nat) (f : Lpc → Lpc) (s : State) : (lpcUpd c f s).out = s.out := rfl
@[simp] theorem lpcUpd_pending (c : Nat) (f : Lpc → Lpc) (s : State) : (lpcUpd c f s).pending = s.pending := rfl
@[simp] theorem fnUpd_dev (fn : FnId) (f : FnHost → FnHost) (s : State) : (fnUpd fn f s).dev = s.dev := rfl
@[simp] theorem fnUpd_maint (fn : FnId) (f : FnHost → FnHost) (s : State) : (fnUpd fn f s).maint = s.maint := rfl
@[simp] theorem fnUpd_sec (fn : FnId) (f : FnHost → FnHost) (s : State) : (fnUpd fn f s).sec = s.sec := rfl
@[simp] theorem fnUpd_forme (fn : FnId) (f : FnHost → FnHost) (s : State) : (fnUpd fn f s).forme = s.forme := rfl
@[simp] theorem fnUpd_codec (fn : FnId) (f : FnHost → FnHost) (s : State) : (fnUpd fn f s).codec = s.codec := rfl
@[simp] theorem fnUpd_tier (fn : FnId) (f : FnHost → FnHost) (s : State) : (fnUpd fn f s).tier = s.tier := rfl
@[simp] theorem fnUpd_clusters (fn : FnId) (f : FnHost → FnHost) (s : State) : (fnUpd fn f s).clusters = s.clusters := rfl
@[simp] theorem fnUpd_sched (fn : FnId) (f : FnHost → FnHost) (s : State) : (fnUpd fn f s).sched = s.sched := rfl
@[simp] theorem fnUpd_repro (fn : FnId) (f : FnHost → FnHost) (s : State) : (fnUpd fn f s).repro = s.repro := rfl
@[simp] theorem fnUpd_req (fn : FnId) (f : FnHost → FnHost) (s : State) : (fnUpd fn f s).req = s.req := rfl
@[simp] theorem fnUpd_pair (fn : FnId) (f : FnHost → FnHost) (s : State) : (fnUpd fn f s).pair = s.pair := rfl
@[simp] theorem fnUpd_near (fn : FnId) (f : FnHost → FnHost) (s : State) : (fnUpd fn f s).near = s.near := rfl
@[simp] theorem fnUpd_rma (fn : FnId) (f : FnHost → FnHost) (s : State) : (fnUpd fn f s).rma = s.rma := rfl
@[simp] theorem fnUpd_links (fn : FnId) (f : FnHost → FnHost) (s : State) : (fnUpd fn f s).links = s.links := rfl
@[simp] theorem fnUpd_tb (fn : FnId) (f : FnHost → FnHost) (s : State) : (fnUpd fn f s).tb = s.tb := rfl
@[simp] theorem fnUpd_free (fn : FnId) (f : FnHost → FnHost) (s : State) : (fnUpd fn f s).free = s.free := rfl
@[simp] theorem fnUpd_out (fn : FnId) (f : FnHost → FnHost) (s : State) : (fnUpd fn f s).out = s.out := rfl
@[simp] theorem fnUpd_pending (fn : FnId) (f : FnHost → FnHost) (s : State) : (fnUpd fn f s).pending = s.pending := rfl
@[simp] theorem ringUpd_dev (r : RingRef) (f : RingSet → RingSet) (s : State) : (ringUpd r f s).dev = s.dev := rfl
@[simp] theorem ringUpd_maint (r : RingRef) (f : RingSet → RingSet) (s : State) : (ringUpd r f s).maint = s.maint := rfl
@[simp] theorem ringUpd_sec (r : RingRef) (f : RingSet → RingSet) (s : State) : (ringUpd r f s).sec = s.sec := rfl
@[simp] theorem ringUpd_forme (r : RingRef) (f : RingSet → RingSet) (s : State) : (ringUpd r f s).forme = s.forme := rfl
@[simp] theorem ringUpd_codec (r : RingRef) (f : RingSet → RingSet) (s : State) : (ringUpd r f s).codec = s.codec := rfl
@[simp] theorem ringUpd_tier (r : RingRef) (f : RingSet → RingSet) (s : State) : (ringUpd r f s).tier = s.tier := rfl
@[simp] theorem ringUpd_clusters (r : RingRef) (f : RingSet → RingSet) (s : State) : (ringUpd r f s).clusters = s.clusters :=
  rfl
@[simp] theorem ringUpd_sched (r : RingRef) (f : RingSet → RingSet) (s : State) : (ringUpd r f s).sched = s.sched := rfl
@[simp] theorem ringUpd_repro (r : RingRef) (f : RingSet → RingSet) (s : State) : (ringUpd r f s).repro = s.repro := rfl
@[simp] theorem ringUpd_req (r : RingRef) (f : RingSet → RingSet) (s : State) : (ringUpd r f s).req = s.req := rfl
@[simp] theorem ringUpd_pair (r : RingRef) (f : RingSet → RingSet) (s : State) : (ringUpd r f s).pair = s.pair := rfl
@[simp] theorem ringUpd_near (r : RingRef) (f : RingSet → RingSet) (s : State) : (ringUpd r f s).near = s.near := rfl
@[simp] theorem ringUpd_rma (r : RingRef) (f : RingSet → RingSet) (s : State) : (ringUpd r f s).rma = s.rma := rfl
@[simp] theorem ringUpd_links (r : RingRef) (f : RingSet → RingSet) (s : State) : (ringUpd r f s).links = s.links := rfl
@[simp] theorem ringUpd_tb (r : RingRef) (f : RingSet → RingSet) (s : State) : (ringUpd r f s).tb = s.tb := rfl
@[simp] theorem ringUpd_free (r : RingRef) (f : RingSet → RingSet) (s : State) : (ringUpd r f s).free = s.free := rfl
@[simp] theorem ringUpd_out (r : RingRef) (f : RingSet → RingSet) (s : State) : (ringUpd r f s).out = s.out := rfl
@[simp] theorem ringUpd_pending (r : RingRef) (f : RingSet → RingSet) (s : State) : (ringUpd r f s).pending = s.pending := rfl
@[simp] theorem channelUpd_dev (n : Nat) (k : Nat) (f : Chan → Chan) (s : State) : (channelUpd n k f s).dev = s.dev := rfl
@[simp] theorem channelUpd_maint (n : Nat) (k : Nat) (f : Chan → Chan) (s : State) : (channelUpd n k f s).maint = s.maint := rfl
@[simp] theorem channelUpd_sec (n : Nat) (k : Nat) (f : Chan → Chan) (s : State) : (channelUpd n k f s).sec = s.sec := rfl
@[simp] theorem channelUpd_host (n : Nat) (k : Nat) (f : Chan → Chan) (s : State) : (channelUpd n k f s).host = s.host := rfl
@[simp] theorem channelUpd_forme (n : Nat) (k : Nat) (f : Chan → Chan) (s : State) : (channelUpd n k f s).forme = s.forme := rfl
@[simp] theorem channelUpd_codec (n : Nat) (k : Nat) (f : Chan → Chan) (s : State) : (channelUpd n k f s).codec = s.codec := rfl
@[simp] theorem channelUpd_tier (n : Nat) (k : Nat) (f : Chan → Chan) (s : State) : (channelUpd n k f s).tier = s.tier := rfl
@[simp] theorem channelUpd_sched (n : Nat) (k : Nat) (f : Chan → Chan) (s : State) : (channelUpd n k f s).sched = s.sched := rfl
@[simp] theorem channelUpd_repro (n : Nat) (k : Nat) (f : Chan → Chan) (s : State) : (channelUpd n k f s).repro = s.repro := rfl
@[simp] theorem channelUpd_req (n : Nat) (k : Nat) (f : Chan → Chan) (s : State) : (channelUpd n k f s).req = s.req := rfl
@[simp] theorem channelUpd_pair (n : Nat) (k : Nat) (f : Chan → Chan) (s : State) : (channelUpd n k f s).pair = s.pair := rfl
@[simp] theorem channelUpd_near (n : Nat) (k : Nat) (f : Chan → Chan) (s : State) : (channelUpd n k f s).near = s.near := rfl
@[simp] theorem channelUpd_rma (n : Nat) (k : Nat) (f : Chan → Chan) (s : State) : (channelUpd n k f s).rma = s.rma := rfl
@[simp] theorem channelUpd_links (n : Nat) (k : Nat) (f : Chan → Chan) (s : State) : (channelUpd n k f s).links = s.links := rfl
@[simp] theorem channelUpd_tb (n : Nat) (k : Nat) (f : Chan → Chan) (s : State) : (channelUpd n k f s).tb = s.tb := rfl
@[simp] theorem channelUpd_free (n : Nat) (k : Nat) (f : Chan → Chan) (s : State) : (channelUpd n k f s).free = s.free := rfl
@[simp] theorem channelUpd_out (n : Nat) (k : Nat) (f : Chan → Chan) (s : State) : (channelUpd n k f s).out = s.out := rfl
@[simp] theorem channelUpd_pending (n : Nat) (k : Nat) (f : Chan → Chan) (s : State) : (channelUpd n k f s).pending = s.pending :=
  rfl
@[simp] theorem linkUpd_dev (n : Nat) (f : Link → Link) (s : State) : (linkUpd n f s).dev = s.dev := rfl
@[simp] theorem linkUpd_maint (n : Nat) (f : Link → Link) (s : State) : (linkUpd n f s).maint = s.maint := rfl
@[simp] theorem linkUpd_sec (n : Nat) (f : Link → Link) (s : State) : (linkUpd n f s).sec = s.sec := rfl
@[simp] theorem linkUpd_host (n : Nat) (f : Link → Link) (s : State) : (linkUpd n f s).host = s.host := rfl
@[simp] theorem linkUpd_forme (n : Nat) (f : Link → Link) (s : State) : (linkUpd n f s).forme = s.forme := rfl
@[simp] theorem linkUpd_codec (n : Nat) (f : Link → Link) (s : State) : (linkUpd n f s).codec = s.codec := rfl
@[simp] theorem linkUpd_tier (n : Nat) (f : Link → Link) (s : State) : (linkUpd n f s).tier = s.tier := rfl
@[simp] theorem linkUpd_clusters (n : Nat) (f : Link → Link) (s : State) : (linkUpd n f s).clusters = s.clusters := rfl
@[simp] theorem linkUpd_sched (n : Nat) (f : Link → Link) (s : State) : (linkUpd n f s).sched = s.sched := rfl
@[simp] theorem linkUpd_repro (n : Nat) (f : Link → Link) (s : State) : (linkUpd n f s).repro = s.repro := rfl
@[simp] theorem linkUpd_req (n : Nat) (f : Link → Link) (s : State) : (linkUpd n f s).req = s.req := rfl
@[simp] theorem linkUpd_pair (n : Nat) (f : Link → Link) (s : State) : (linkUpd n f s).pair = s.pair := rfl
@[simp] theorem linkUpd_near (n : Nat) (f : Link → Link) (s : State) : (linkUpd n f s).near = s.near := rfl
@[simp] theorem linkUpd_rma (n : Nat) (f : Link → Link) (s : State) : (linkUpd n f s).rma = s.rma := rfl
@[simp] theorem linkUpd_tb (n : Nat) (f : Link → Link) (s : State) : (linkUpd n f s).tb = s.tb := rfl
@[simp] theorem linkUpd_free (n : Nat) (f : Link → Link) (s : State) : (linkUpd n f s).free = s.free := rfl
@[simp] theorem linkUpd_out (n : Nat) (f : Link → Link) (s : State) : (linkUpd n f s).out = s.out := rfl
@[simp] theorem linkUpd_pending (n : Nat) (f : Link → Link) (s : State) : (linkUpd n f s).pending = s.pending := rfl
@[simp] theorem trayDstUpd_dev (d : Nat) (f : TrayDst → TrayDst) (s : State) : (trayDstUpd d f s).dev = s.dev := rfl
@[simp] theorem trayDstUpd_maint (d : Nat) (f : TrayDst → TrayDst) (s : State) : (trayDstUpd d f s).maint = s.maint := rfl
@[simp] theorem trayDstUpd_sec (d : Nat) (f : TrayDst → TrayDst) (s : State) : (trayDstUpd d f s).sec = s.sec := rfl
@[simp] theorem trayDstUpd_host (d : Nat) (f : TrayDst → TrayDst) (s : State) : (trayDstUpd d f s).host = s.host := rfl
@[simp] theorem trayDstUpd_forme (d : Nat) (f : TrayDst → TrayDst) (s : State) : (trayDstUpd d f s).forme = s.forme := rfl
@[simp] theorem trayDstUpd_codec (d : Nat) (f : TrayDst → TrayDst) (s : State) : (trayDstUpd d f s).codec = s.codec := rfl
@[simp] theorem trayDstUpd_tier (d : Nat) (f : TrayDst → TrayDst) (s : State) : (trayDstUpd d f s).tier = s.tier := rfl
@[simp] theorem trayDstUpd_clusters (d : Nat) (f : TrayDst → TrayDst) (s : State) : (trayDstUpd d f s).clusters = s.clusters :=
  rfl
@[simp] theorem trayDstUpd_sched (d : Nat) (f : TrayDst → TrayDst) (s : State) : (trayDstUpd d f s).sched = s.sched := rfl
@[simp] theorem trayDstUpd_repro (d : Nat) (f : TrayDst → TrayDst) (s : State) : (trayDstUpd d f s).repro = s.repro := rfl
@[simp] theorem trayDstUpd_req (d : Nat) (f : TrayDst → TrayDst) (s : State) : (trayDstUpd d f s).req = s.req := rfl
@[simp] theorem trayDstUpd_pair (d : Nat) (f : TrayDst → TrayDst) (s : State) : (trayDstUpd d f s).pair = s.pair := rfl
@[simp] theorem trayDstUpd_rma (d : Nat) (f : TrayDst → TrayDst) (s : State) : (trayDstUpd d f s).rma = s.rma := rfl
@[simp] theorem trayDstUpd_links (d : Nat) (f : TrayDst → TrayDst) (s : State) : (trayDstUpd d f s).links = s.links := rfl
@[simp] theorem trayDstUpd_tb (d : Nat) (f : TrayDst → TrayDst) (s : State) : (trayDstUpd d f s).tb = s.tb := rfl
@[simp] theorem trayDstUpd_free (d : Nat) (f : TrayDst → TrayDst) (s : State) : (trayDstUpd d f s).free = s.free := rfl
@[simp] theorem trayDstUpd_out (d : Nat) (f : TrayDst → TrayDst) (s : State) : (trayDstUpd d f s).out = s.out := rfl
@[simp] theorem trayDstUpd_pending (d : Nat) (f : TrayDst → TrayDst) (s : State) : (trayDstUpd d f s).pending = s.pending := rfl
@[simp] theorem traySrcUpd_dev (d : Nat) (f : TraySrc → TraySrc) (s : State) : (traySrcUpd d f s).dev = s.dev := rfl
@[simp] theorem traySrcUpd_maint (d : Nat) (f : TraySrc → TraySrc) (s : State) : (traySrcUpd d f s).maint = s.maint := rfl
@[simp] theorem traySrcUpd_sec (d : Nat) (f : TraySrc → TraySrc) (s : State) : (traySrcUpd d f s).sec = s.sec := rfl
@[simp] theorem traySrcUpd_host (d : Nat) (f : TraySrc → TraySrc) (s : State) : (traySrcUpd d f s).host = s.host := rfl
@[simp] theorem traySrcUpd_forme (d : Nat) (f : TraySrc → TraySrc) (s : State) : (traySrcUpd d f s).forme = s.forme := rfl
@[simp] theorem traySrcUpd_codec (d : Nat) (f : TraySrc → TraySrc) (s : State) : (traySrcUpd d f s).codec = s.codec := rfl
@[simp] theorem traySrcUpd_tier (d : Nat) (f : TraySrc → TraySrc) (s : State) : (traySrcUpd d f s).tier = s.tier := rfl
@[simp] theorem traySrcUpd_clusters (d : Nat) (f : TraySrc → TraySrc) (s : State) : (traySrcUpd d f s).clusters = s.clusters :=
  rfl
@[simp] theorem traySrcUpd_sched (d : Nat) (f : TraySrc → TraySrc) (s : State) : (traySrcUpd d f s).sched = s.sched := rfl
@[simp] theorem traySrcUpd_repro (d : Nat) (f : TraySrc → TraySrc) (s : State) : (traySrcUpd d f s).repro = s.repro := rfl
@[simp] theorem traySrcUpd_req (d : Nat) (f : TraySrc → TraySrc) (s : State) : (traySrcUpd d f s).req = s.req := rfl
@[simp] theorem traySrcUpd_pair (d : Nat) (f : TraySrc → TraySrc) (s : State) : (traySrcUpd d f s).pair = s.pair := rfl
@[simp] theorem traySrcUpd_rma (d : Nat) (f : TraySrc → TraySrc) (s : State) : (traySrcUpd d f s).rma = s.rma := rfl
@[simp] theorem traySrcUpd_links (d : Nat) (f : TraySrc → TraySrc) (s : State) : (traySrcUpd d f s).links = s.links := rfl
@[simp] theorem traySrcUpd_tb (d : Nat) (f : TraySrc → TraySrc) (s : State) : (traySrcUpd d f s).tb = s.tb := rfl
@[simp] theorem traySrcUpd_free (d : Nat) (f : TraySrc → TraySrc) (s : State) : (traySrcUpd d f s).free = s.free := rfl
@[simp] theorem traySrcUpd_out (d : Nat) (f : TraySrc → TraySrc) (s : State) : (traySrcUpd d f s).out = s.out := rfl
@[simp] theorem traySrcUpd_pending (d : Nat) (f : TraySrc → TraySrc) (s : State) : (traySrcUpd d f s).pending = s.pending := rfl
@[simp] theorem recUpd_dev (q : ReqId) (f : Rec → Rec) (s : State) : (recUpd q f s).dev = s.dev :=
  (recUpd_changes (Q := [.req]) rfl (OnlyChanges.refl _ s)) .dev rfl
@[simp] theorem recUpd_maint (q : ReqId) (f : Rec → Rec) (s : State) : (recUpd q f s).maint = s.maint :=
  (recUpd_changes (Q := [.req]) rfl (OnlyChanges.refl _ s)) .maint rfl
@[simp] theorem recUpd_sec (q : ReqId) (f : Rec → Rec) (s : State) : (recUpd q f s).sec = s.sec :=
  (recUpd_changes (Q := [.req]) rfl (OnlyChanges.refl _ s)).sec_eq rfl rfl
@[simp] theorem recUpd_host (q : ReqId) (f : Rec → Rec) (s : State) : (recUpd q f s).host = s.host :=
  (recUpd_changes (Q := [.req]) rfl (OnlyChanges.refl _ s)) .host rfl
@[simp] theorem recUpd_forme (q : ReqId) (f : Rec → Rec) (s : State) : (recUpd q f s).forme = s.forme :=
  (recUpd_changes (Q := [.req]) rfl (OnlyChanges.refl _ s)) .forme rfl
@[simp] theorem recUpd_codec (q : ReqId) (f : Rec → Rec) (s : State) : (recUpd q f s).codec = s.codec :=
  (recUpd_changes (Q := [.req]) rfl (OnlyChanges.refl _ s)) .codec rfl
@[simp] theorem recUpd_tier (q : ReqId) (f : Rec → Rec) (s : State) : (recUpd q f s).tier = s.tier :=
  (recUpd_changes (Q := [.req]) rfl (OnlyChanges.refl _ s)) .tier rfl
@[simp] theorem recUpd_clusters (q : ReqId) (f : Rec → Rec) (s : State) : (recUpd q f s).clusters = s.clusters :=
  (recUpd_changes (Q := [.req]) rfl (OnlyChanges.refl _ s)) .clusters rfl
@[simp] theorem recUpd_sched (q : ReqId) (f : Rec → Rec) (s : State) : (recUpd q f s).sched = s.sched :=
  (recUpd_changes (Q := [.req]) rfl (OnlyChanges.refl _ s)) .sched rfl
@[simp] theorem recUpd_repro (q : ReqId) (f : Rec → Rec) (s : State) : (recUpd q f s).repro = s.repro :=
  (recUpd_changes (Q := [.req]) rfl (OnlyChanges.refl _ s)) .repro rfl
@[simp] theorem recUpd_pair (q : ReqId) (f : Rec → Rec) (s : State) : (recUpd q f s).pair = s.pair :=
  (recUpd_changes (Q := [.req]) rfl (OnlyChanges.refl _ s)) .pair rfl
@[simp] theorem recUpd_near (q : ReqId) (f : Rec → Rec) (s : State) : (recUpd q f s).near = s.near :=
  (recUpd_changes (Q := [.req]) rfl (OnlyChanges.refl _ s)) .near rfl
@[simp] theorem recUpd_rma (q : ReqId) (f : Rec → Rec) (s : State) : (recUpd q f s).rma = s.rma :=
  (recUpd_changes (Q := [.req]) rfl (OnlyChanges.refl _ s)) .rma rfl
@[simp] theorem recUpd_links (q : ReqId) (f : Rec → Rec) (s : State) : (recUpd q f s).links = s.links :=
  (recUpd_changes (Q := [.req]) rfl (OnlyChanges.refl _ s)) .links rfl
@[simp] theorem recUpd_tb (q : ReqId) (f : Rec → Rec) (s : State) : (recUpd q f s).tb = s.tb :=
  (recUpd_changes (Q := [.req]) rfl (OnlyChanges.refl _ s)) .tb rfl
@[simp] theorem recUpd_free (q : ReqId) (f : Rec → Rec) (s : State) : (recUpd q f s).free = s.free :=
  (recUpd_changes (Q := [.req]) rfl (OnlyChanges.refl _ s)) .free rfl
@[simp] theorem recUpd_out (q : ReqId) (f : Rec → Rec) (s : State) : (recUpd q f s).out = s.out :=
  (recUpd_changes (Q := [.req]) rfl (OnlyChanges.refl _ s)) .out rfl
@[simp] theorem recUpd_pending (q : ReqId) (f : Rec → Rec) (s : State) : (recUpd q f s).pending = s.pending :=
  (recUpd_changes (Q := [.req]) rfl (OnlyChanges.refl _ s)) .pending rfl
@[simp] theorem galleyUpd_dev (q : ReqId) (f : Galley → Galley) (s : State) : (galleyUpd q f s).dev = s.dev := rfl
@[simp] theorem galleyUpd_maint (q : ReqId) (f : Galley → Galley) (s : State) : (galleyUpd q f s).maint = s.maint := rfl
@[simp] theorem galleyUpd_sec (q : ReqId) (f : Galley → Galley) (s : State) : (galleyUpd q f s).sec = s.sec := rfl
@[simp] theorem galleyUpd_host (q : ReqId) (f : Galley → Galley) (s : State) : (galleyUpd q f s).host = s.host := rfl
@[simp] theorem galleyUpd_forme (q : ReqId) (f : Galley → Galley) (s : State) : (galleyUpd q f s).forme = s.forme := rfl
@[simp] theorem galleyUpd_codec (q : ReqId) (f : Galley → Galley) (s : State) : (galleyUpd q f s).codec = s.codec := rfl
@[simp] theorem galleyUpd_tier (q : ReqId) (f : Galley → Galley) (s : State) : (galleyUpd q f s).tier = s.tier := rfl
@[simp] theorem galleyUpd_clusters (q : ReqId) (f : Galley → Galley) (s : State) : (galleyUpd q f s).clusters = s.clusters :=
  rfl
@[simp] theorem galleyUpd_sched (q : ReqId) (f : Galley → Galley) (s : State) : (galleyUpd q f s).sched = s.sched := rfl
@[simp] theorem galleyUpd_repro (q : ReqId) (f : Galley → Galley) (s : State) : (galleyUpd q f s).repro = s.repro := rfl
@[simp] theorem galleyUpd_pair (q : ReqId) (f : Galley → Galley) (s : State) : (galleyUpd q f s).pair = s.pair := rfl
@[simp] theorem galleyUpd_near (q : ReqId) (f : Galley → Galley) (s : State) : (galleyUpd q f s).near = s.near := rfl
@[simp] theorem galleyUpd_rma (q : ReqId) (f : Galley → Galley) (s : State) : (galleyUpd q f s).rma = s.rma := rfl
@[simp] theorem galleyUpd_links (q : ReqId) (f : Galley → Galley) (s : State) : (galleyUpd q f s).links = s.links := rfl
@[simp] theorem galleyUpd_tb (q : ReqId) (f : Galley → Galley) (s : State) : (galleyUpd q f s).tb = s.tb := rfl
@[simp] theorem galleyUpd_free (q : ReqId) (f : Galley → Galley) (s : State) : (galleyUpd q f s).free = s.free := rfl
@[simp] theorem galleyUpd_out (q : ReqId) (f : Galley → Galley) (s : State) : (galleyUpd q f s).out = s.out := rfl
@[simp] theorem galleyUpd_pending (q : ReqId) (f : Galley → Galley) (s : State) : (galleyUpd q f s).pending = s.pending := rfl
@[simp] theorem anchorUpd_dev (q : ReqId) (f : AnchorInfo → AnchorInfo) (s : State) : (anchorUpd q f s).dev = s.dev := rfl
@[simp] theorem anchorUpd_maint (q : ReqId) (f : AnchorInfo → AnchorInfo) (s : State) : (anchorUpd q f s).maint = s.maint := rfl
@[simp] theorem anchorUpd_sec (q : ReqId) (f : AnchorInfo → AnchorInfo) (s : State) : (anchorUpd q f s).sec = s.sec := rfl
@[simp] theorem anchorUpd_host (q : ReqId) (f : AnchorInfo → AnchorInfo) (s : State) : (anchorUpd q f s).host = s.host := rfl
@[simp] theorem anchorUpd_forme (q : ReqId) (f : AnchorInfo → AnchorInfo) (s : State) : (anchorUpd q f s).forme = s.forme := rfl
@[simp] theorem anchorUpd_codec (q : ReqId) (f : AnchorInfo → AnchorInfo) (s : State) : (anchorUpd q f s).codec = s.codec := rfl
@[simp] theorem anchorUpd_tier (q : ReqId) (f : AnchorInfo → AnchorInfo) (s : State) : (anchorUpd q f s).tier = s.tier := rfl
@[simp] theorem anchorUpd_clusters (q : ReqId) (f : AnchorInfo → AnchorInfo) (s : State) : (anchorUpd q f s).clusters = s.clusters :=
  rfl
@[simp] theorem anchorUpd_sched (q : ReqId) (f : AnchorInfo → AnchorInfo) (s : State) : (anchorUpd q f s).sched = s.sched := rfl
@[simp] theorem anchorUpd_repro (q : ReqId) (f : AnchorInfo → AnchorInfo) (s : State) : (anchorUpd q f s).repro = s.repro := rfl
@[simp] theorem anchorUpd_pair (q : ReqId) (f : AnchorInfo → AnchorInfo) (s : State) : (anchorUpd q f s).pair = s.pair := rfl
@[simp] theorem anchorUpd_near (q : ReqId) (f : AnchorInfo → AnchorInfo) (s : State) : (anchorUpd q f s).near = s.near := rfl
@[simp] theorem anchorUpd_rma (q : ReqId) (f : AnchorInfo → AnchorInfo) (s : State) : (anchorUpd q f s).rma = s.rma := rfl
@[simp] theorem anchorUpd_links (q : ReqId) (f : AnchorInfo → AnchorInfo) (s : State) : (anchorUpd q f s).links = s.links := rfl
@[simp] theorem anchorUpd_tb (q : ReqId) (f : AnchorInfo → AnchorInfo) (s : State) : (anchorUpd q f s).tb = s.tb := rfl
@[simp] theorem anchorUpd_free (q : ReqId) (f : AnchorInfo → AnchorInfo) (s : State) : (anchorUpd q f s).free = s.free := rfl
@[simp] theorem anchorUpd_out (q : ReqId) (f : AnchorInfo → AnchorInfo) (s : State) : (anchorUpd q f s).out = s.out := rfl
@[simp] theorem anchorUpd_pending (q : ReqId) (f : AnchorInfo → AnchorInfo) (s : State) : (anchorUpd q f s).pending = s.pending :=
  rfl
@[simp] theorem quotaUpd_dev (t : BitVec 16) (f : Quota → Quota) (s : State) : (quotaUpd t f s).dev = s.dev := rfl
@[simp] theorem quotaUpd_maint (t : BitVec 16) (f : Quota → Quota) (s : State) : (quotaUpd t f s).maint = s.maint := rfl
@[simp] theorem quotaUpd_sec (t : BitVec 16) (f : Quota → Quota) (s : State) : (quotaUpd t f s).sec = s.sec := rfl
@[simp] theorem quotaUpd_host (t : BitVec 16) (f : Quota → Quota) (s : State) : (quotaUpd t f s).host = s.host := rfl
@[simp] theorem quotaUpd_forme (t : BitVec 16) (f : Quota → Quota) (s : State) : (quotaUpd t f s).forme = s.forme := rfl
@[simp] theorem quotaUpd_codec (t : BitVec 16) (f : Quota → Quota) (s : State) : (quotaUpd t f s).codec = s.codec := rfl
@[simp] theorem quotaUpd_clusters (t : BitVec 16) (f : Quota → Quota) (s : State) : (quotaUpd t f s).clusters = s.clusters :=
  rfl
@[simp] theorem quotaUpd_sched (t : BitVec 16) (f : Quota → Quota) (s : State) : (quotaUpd t f s).sched = s.sched := rfl
@[simp] theorem quotaUpd_repro (t : BitVec 16) (f : Quota → Quota) (s : State) : (quotaUpd t f s).repro = s.repro := rfl
@[simp] theorem quotaUpd_req (t : BitVec 16) (f : Quota → Quota) (s : State) : (quotaUpd t f s).req = s.req := rfl
@[simp] theorem quotaUpd_pair (t : BitVec 16) (f : Quota → Quota) (s : State) : (quotaUpd t f s).pair = s.pair := rfl
@[simp] theorem quotaUpd_near (t : BitVec 16) (f : Quota → Quota) (s : State) : (quotaUpd t f s).near = s.near := rfl
@[simp] theorem quotaUpd_rma (t : BitVec 16) (f : Quota → Quota) (s : State) : (quotaUpd t f s).rma = s.rma := rfl
@[simp] theorem quotaUpd_links (t : BitVec 16) (f : Quota → Quota) (s : State) : (quotaUpd t f s).links = s.links := rfl
@[simp] theorem quotaUpd_tb (t : BitVec 16) (f : Quota → Quota) (s : State) : (quotaUpd t f s).tb = s.tb := rfl
@[simp] theorem quotaUpd_free (t : BitVec 16) (f : Quota → Quota) (s : State) : (quotaUpd t f s).free = s.free := rfl
@[simp] theorem quotaUpd_out (t : BitVec 16) (f : Quota → Quota) (s : State) : (quotaUpd t f s).out = s.out := rfl
@[simp] theorem quotaUpd_pending (t : BitVec 16) (f : Quota → Quota) (s : State) : (quotaUpd t f s).pending = s.pending := rfl
@[simp] theorem ctxUpd_dev (c : Nat) (f : Ctx → Ctx) (s : State) : (ctxUpd c f s).dev = s.dev := rfl
@[simp] theorem ctxUpd_maint (c : Nat) (f : Ctx → Ctx) (s : State) : (ctxUpd c f s).maint = s.maint := rfl
@[simp] theorem ctxUpd_sec (c : Nat) (f : Ctx → Ctx) (s : State) : (ctxUpd c f s).sec = s.sec := rfl
@[simp] theorem ctxUpd_host (c : Nat) (f : Ctx → Ctx) (s : State) : (ctxUpd c f s).host = s.host := rfl
@[simp] theorem ctxUpd_forme (c : Nat) (f : Ctx → Ctx) (s : State) : (ctxUpd c f s).forme = s.forme := rfl
@[simp] theorem ctxUpd_codec (c : Nat) (f : Ctx → Ctx) (s : State) : (ctxUpd c f s).codec = s.codec := rfl
@[simp] theorem ctxUpd_tier (c : Nat) (f : Ctx → Ctx) (s : State) : (ctxUpd c f s).tier = s.tier := rfl
@[simp] theorem ctxUpd_clusters (c : Nat) (f : Ctx → Ctx) (s : State) : (ctxUpd c f s).clusters = s.clusters := rfl
@[simp] theorem ctxUpd_repro (c : Nat) (f : Ctx → Ctx) (s : State) : (ctxUpd c f s).repro = s.repro := rfl
@[simp] theorem ctxUpd_req (c : Nat) (f : Ctx → Ctx) (s : State) : (ctxUpd c f s).req = s.req := rfl
@[simp] theorem ctxUpd_pair (c : Nat) (f : Ctx → Ctx) (s : State) : (ctxUpd c f s).pair = s.pair := rfl
@[simp] theorem ctxUpd_near (c : Nat) (f : Ctx → Ctx) (s : State) : (ctxUpd c f s).near = s.near := rfl
@[simp] theorem ctxUpd_rma (c : Nat) (f : Ctx → Ctx) (s : State) : (ctxUpd c f s).rma = s.rma := rfl
@[simp] theorem ctxUpd_links (c : Nat) (f : Ctx → Ctx) (s : State) : (ctxUpd c f s).links = s.links := rfl
@[simp] theorem ctxUpd_tb (c : Nat) (f : Ctx → Ctx) (s : State) : (ctxUpd c f s).tb = s.tb := rfl
@[simp] theorem ctxUpd_free (c : Nat) (f : Ctx → Ctx) (s : State) : (ctxUpd c f s).free = s.free := rfl
@[simp] theorem ctxUpd_out (c : Nat) (f : Ctx → Ctx) (s : State) : (ctxUpd c f s).out = s.out := rfl
@[simp] theorem ctxUpd_pending (c : Nat) (f : Ctx → Ctx) (s : State) : (ctxUpd c f s).pending = s.pending := rfl
@[simp] theorem qpUpd_dev (n : Nat) (f : Qp → Qp) (s : State) : (qpUpd n f s).dev = s.dev := rfl
@[simp] theorem qpUpd_maint (n : Nat) (f : Qp → Qp) (s : State) : (qpUpd n f s).maint = s.maint := rfl
@[simp] theorem qpUpd_sec (n : Nat) (f : Qp → Qp) (s : State) : (qpUpd n f s).sec = s.sec := rfl
@[simp] theorem qpUpd_host (n : Nat) (f : Qp → Qp) (s : State) : (qpUpd n f s).host = s.host := rfl
@[simp] theorem qpUpd_forme (n : Nat) (f : Qp → Qp) (s : State) : (qpUpd n f s).forme = s.forme := rfl
@[simp] theorem qpUpd_codec (n : Nat) (f : Qp → Qp) (s : State) : (qpUpd n f s).codec = s.codec := rfl
@[simp] theorem qpUpd_tier (n : Nat) (f : Qp → Qp) (s : State) : (qpUpd n f s).tier = s.tier := rfl
@[simp] theorem qpUpd_clusters (n : Nat) (f : Qp → Qp) (s : State) : (qpUpd n f s).clusters = s.clusters := rfl
@[simp] theorem qpUpd_sched (n : Nat) (f : Qp → Qp) (s : State) : (qpUpd n f s).sched = s.sched := rfl
@[simp] theorem qpUpd_repro (n : Nat) (f : Qp → Qp) (s : State) : (qpUpd n f s).repro = s.repro := rfl
@[simp] theorem qpUpd_req (n : Nat) (f : Qp → Qp) (s : State) : (qpUpd n f s).req = s.req := rfl
@[simp] theorem qpUpd_pair (n : Nat) (f : Qp → Qp) (s : State) : (qpUpd n f s).pair = s.pair := rfl
@[simp] theorem qpUpd_near (n : Nat) (f : Qp → Qp) (s : State) : (qpUpd n f s).near = s.near := rfl
@[simp] theorem qpUpd_links (n : Nat) (f : Qp → Qp) (s : State) : (qpUpd n f s).links = s.links := rfl
@[simp] theorem qpUpd_tb (n : Nat) (f : Qp → Qp) (s : State) : (qpUpd n f s).tb = s.tb := rfl
@[simp] theorem qpUpd_free (n : Nat) (f : Qp → Qp) (s : State) : (qpUpd n f s).free = s.free := rfl
@[simp] theorem qpUpd_out (n : Nat) (f : Qp → Qp) (s : State) : (qpUpd n f s).out = s.out := rfl
@[simp] theorem qpUpd_pending (n : Nat) (f : Qp → Qp) (s : State) : (qpUpd n f s).pending = s.pending := rfl
@[simp] theorem podUpd_dev (id : Nat) (f : PodBarrier → PodBarrier) (s : State) : (podUpd id f s).dev = s.dev := rfl
@[simp] theorem podUpd_maint (id : Nat) (f : PodBarrier → PodBarrier) (s : State) : (podUpd id f s).maint = s.maint := rfl
@[simp] theorem podUpd_sec (id : Nat) (f : PodBarrier → PodBarrier) (s : State) : (podUpd id f s).sec = s.sec := rfl
@[simp] theorem podUpd_host (id : Nat) (f : PodBarrier → PodBarrier) (s : State) : (podUpd id f s).host = s.host := rfl
@[simp] theorem podUpd_forme (id : Nat) (f : PodBarrier → PodBarrier) (s : State) : (podUpd id f s).forme = s.forme := rfl
@[simp] theorem podUpd_codec (id : Nat) (f : PodBarrier → PodBarrier) (s : State) : (podUpd id f s).codec = s.codec := rfl
@[simp] theorem podUpd_tier (id : Nat) (f : PodBarrier → PodBarrier) (s : State) : (podUpd id f s).tier = s.tier := rfl
@[simp] theorem podUpd_clusters (id : Nat) (f : PodBarrier → PodBarrier) (s : State) : (podUpd id f s).clusters = s.clusters :=
  rfl
@[simp] theorem podUpd_sched (id : Nat) (f : PodBarrier → PodBarrier) (s : State) : (podUpd id f s).sched = s.sched := rfl
@[simp] theorem podUpd_req (id : Nat) (f : PodBarrier → PodBarrier) (s : State) : (podUpd id f s).req = s.req := rfl
@[simp] theorem podUpd_pair (id : Nat) (f : PodBarrier → PodBarrier) (s : State) : (podUpd id f s).pair = s.pair := rfl
@[simp] theorem podUpd_near (id : Nat) (f : PodBarrier → PodBarrier) (s : State) : (podUpd id f s).near = s.near := rfl
@[simp] theorem podUpd_rma (id : Nat) (f : PodBarrier → PodBarrier) (s : State) : (podUpd id f s).rma = s.rma := rfl
@[simp] theorem podUpd_links (id : Nat) (f : PodBarrier → PodBarrier) (s : State) : (podUpd id f s).links = s.links := rfl
@[simp] theorem podUpd_tb (id : Nat) (f : PodBarrier → PodBarrier) (s : State) : (podUpd id f s).tb = s.tb := rfl
@[simp] theorem podUpd_free (id : Nat) (f : PodBarrier → PodBarrier) (s : State) : (podUpd id f s).free = s.free := rfl
@[simp] theorem podUpd_out (id : Nat) (f : PodBarrier → PodBarrier) (s : State) : (podUpd id f s).out = s.out := rfl
@[simp] theorem podUpd_pending (id : Nat) (f : PodBarrier → PodBarrier) (s : State) : (podUpd id f s).pending = s.pending := rfl
@[simp] theorem itemGone_dev (n : Nat) (s : State) : (itemGone n s).dev = s.dev := rfl
@[simp] theorem itemGone_sec (n : Nat) (s : State) : (itemGone n s).sec = s.sec := rfl
@[simp] theorem itemGone_host (n : Nat) (s : State) : (itemGone n s).host = s.host := rfl
@[simp] theorem itemGone_forme (n : Nat) (s : State) : (itemGone n s).forme = s.forme := rfl
@[simp] theorem itemGone_codec (n : Nat) (s : State) : (itemGone n s).codec = s.codec := rfl
@[simp] theorem itemGone_tier (n : Nat) (s : State) : (itemGone n s).tier = s.tier := rfl
@[simp] theorem itemGone_clusters (n : Nat) (s : State) : (itemGone n s).clusters = s.clusters := rfl
@[simp] theorem itemGone_sched (n : Nat) (s : State) : (itemGone n s).sched = s.sched := rfl
@[simp] theorem itemGone_repro (n : Nat) (s : State) : (itemGone n s).repro = s.repro := rfl
@[simp] theorem itemGone_req (n : Nat) (s : State) : (itemGone n s).req = s.req := rfl
@[simp] theorem itemGone_pair (n : Nat) (s : State) : (itemGone n s).pair = s.pair := rfl
@[simp] theorem itemGone_near (n : Nat) (s : State) : (itemGone n s).near = s.near := rfl
@[simp] theorem itemGone_rma (n : Nat) (s : State) : (itemGone n s).rma = s.rma := rfl
@[simp] theorem itemGone_links (n : Nat) (s : State) : (itemGone n s).links = s.links := rfl
@[simp] theorem itemGone_tb (n : Nat) (s : State) : (itemGone n s).tb = s.tb := rfl
@[simp] theorem itemGone_free (n : Nat) (s : State) : (itemGone n s).free = s.free := rfl
@[simp] theorem itemGone_out (n : Nat) (s : State) : (itemGone n s).out = s.out := rfl
@[simp] theorem itemGone_pending (n : Nat) (s : State) : (itemGone n s).pending = s.pending := rfl
@[simp] theorem noteErr_maint (b : Nat) (i : Nat) (off : Nat) (s : State) : (noteErr b i off s).maint = s.maint :=
  (noteErr_changes (Q := [.dev]) rfl (OnlyChanges.refl _ s)) .maint rfl
@[simp] theorem noteErr_sec (b : Nat) (i : Nat) (off : Nat) (s : State) : (noteErr b i off s).sec = s.sec :=
  (noteErr_changes (Q := [.dev]) rfl (OnlyChanges.refl _ s)).sec_eq rfl rfl
@[simp] theorem noteErr_host (b : Nat) (i : Nat) (off : Nat) (s : State) : (noteErr b i off s).host = s.host :=
  (noteErr_changes (Q := [.dev]) rfl (OnlyChanges.refl _ s)) .host rfl
@[simp] theorem noteErr_forme (b : Nat) (i : Nat) (off : Nat) (s : State) : (noteErr b i off s).forme = s.forme :=
  (noteErr_changes (Q := [.dev]) rfl (OnlyChanges.refl _ s)) .forme rfl
@[simp] theorem noteErr_codec (b : Nat) (i : Nat) (off : Nat) (s : State) : (noteErr b i off s).codec = s.codec :=
  (noteErr_changes (Q := [.dev]) rfl (OnlyChanges.refl _ s)) .codec rfl
@[simp] theorem noteErr_tier (b : Nat) (i : Nat) (off : Nat) (s : State) : (noteErr b i off s).tier = s.tier :=
  (noteErr_changes (Q := [.dev]) rfl (OnlyChanges.refl _ s)) .tier rfl
@[simp] theorem noteErr_clusters (b : Nat) (i : Nat) (off : Nat) (s : State) : (noteErr b i off s).clusters = s.clusters :=
  (noteErr_changes (Q := [.dev]) rfl (OnlyChanges.refl _ s)) .clusters rfl
@[simp] theorem noteErr_sched (b : Nat) (i : Nat) (off : Nat) (s : State) : (noteErr b i off s).sched = s.sched :=
  (noteErr_changes (Q := [.dev]) rfl (OnlyChanges.refl _ s)) .sched rfl
@[simp] theorem noteErr_repro (b : Nat) (i : Nat) (off : Nat) (s : State) : (noteErr b i off s).repro = s.repro :=
  (noteErr_changes (Q := [.dev]) rfl (OnlyChanges.refl _ s)) .repro rfl
@[simp] theorem noteErr_req (b : Nat) (i : Nat) (off : Nat) (s : State) : (noteErr b i off s).req = s.req :=
  (noteErr_changes (Q := [.dev]) rfl (OnlyChanges.refl _ s)) .req rfl
@[simp] theorem noteErr_pair (b : Nat) (i : Nat) (off : Nat) (s : State) : (noteErr b i off s).pair = s.pair :=
  (noteErr_changes (Q := [.dev]) rfl (OnlyChanges.refl _ s)) .pair rfl
@[simp] theorem noteErr_near (b : Nat) (i : Nat) (off : Nat) (s : State) : (noteErr b i off s).near = s.near :=
  (noteErr_changes (Q := [.dev]) rfl (OnlyChanges.refl _ s)) .near rfl
@[simp] theorem noteErr_rma (b : Nat) (i : Nat) (off : Nat) (s : State) : (noteErr b i off s).rma = s.rma :=
  (noteErr_changes (Q := [.dev]) rfl (OnlyChanges.refl _ s)) .rma rfl
@[simp] theorem noteErr_links (b : Nat) (i : Nat) (off : Nat) (s : State) : (noteErr b i off s).links = s.links :=
  (noteErr_changes (Q := [.dev]) rfl (OnlyChanges.refl _ s)) .links rfl
@[simp] theorem noteErr_tb (b : Nat) (i : Nat) (off : Nat) (s : State) : (noteErr b i off s).tb = s.tb :=
  (noteErr_changes (Q := [.dev]) rfl (OnlyChanges.refl _ s)) .tb rfl
@[simp] theorem noteErr_free (b : Nat) (i : Nat) (off : Nat) (s : State) : (noteErr b i off s).free = s.free :=
  (noteErr_changes (Q := [.dev]) rfl (OnlyChanges.refl _ s)) .free rfl
@[simp] theorem noteErr_out (b : Nat) (i : Nat) (off : Nat) (s : State) : (noteErr b i off s).out = s.out :=
  (noteErr_changes (Q := [.dev]) rfl (OnlyChanges.refl _ s)) .out rfl
@[simp] theorem noteErr_pending (b : Nat) (i : Nat) (off : Nat) (s : State) : (noteErr b i off s).pending = s.pending :=
  (noteErr_changes (Q := [.dev]) rfl (OnlyChanges.refl _ s)) .pending rfl
@[simp] theorem msix_dev (fn : FnId) (v : Nat) (s : State) : (msix fn v s).dev = s.dev :=
  (msix_changes (Q := [.out]) rfl (OnlyChanges.refl _ s)) .dev rfl
@[simp] theorem msix_maint (fn : FnId) (v : Nat) (s : State) : (msix fn v s).maint = s.maint :=
  (msix_changes (Q := [.out]) rfl (OnlyChanges.refl _ s)) .maint rfl
@[simp] theorem msix_sec (fn : FnId) (v : Nat) (s : State) : (msix fn v s).sec = s.sec :=
  (msix_changes (Q := [.out]) rfl (OnlyChanges.refl _ s)).sec_eq rfl rfl
@[simp] theorem msix_host (fn : FnId) (v : Nat) (s : State) : (msix fn v s).host = s.host :=
  (msix_changes (Q := [.out]) rfl (OnlyChanges.refl _ s)) .host rfl
@[simp] theorem msix_forme (fn : FnId) (v : Nat) (s : State) : (msix fn v s).forme = s.forme :=
  (msix_changes (Q := [.out]) rfl (OnlyChanges.refl _ s)) .forme rfl
@[simp] theorem msix_codec (fn : FnId) (v : Nat) (s : State) : (msix fn v s).codec = s.codec :=
  (msix_changes (Q := [.out]) rfl (OnlyChanges.refl _ s)) .codec rfl
@[simp] theorem msix_tier (fn : FnId) (v : Nat) (s : State) : (msix fn v s).tier = s.tier :=
  (msix_changes (Q := [.out]) rfl (OnlyChanges.refl _ s)) .tier rfl
@[simp] theorem msix_clusters (fn : FnId) (v : Nat) (s : State) : (msix fn v s).clusters = s.clusters :=
  (msix_changes (Q := [.out]) rfl (OnlyChanges.refl _ s)) .clusters rfl
@[simp] theorem msix_sched (fn : FnId) (v : Nat) (s : State) : (msix fn v s).sched = s.sched :=
  (msix_changes (Q := [.out]) rfl (OnlyChanges.refl _ s)) .sched rfl
@[simp] theorem msix_repro (fn : FnId) (v : Nat) (s : State) : (msix fn v s).repro = s.repro :=
  (msix_changes (Q := [.out]) rfl (OnlyChanges.refl _ s)) .repro rfl
@[simp] theorem msix_req (fn : FnId) (v : Nat) (s : State) : (msix fn v s).req = s.req :=
  (msix_changes (Q := [.out]) rfl (OnlyChanges.refl _ s)) .req rfl
@[simp] theorem msix_pair (fn : FnId) (v : Nat) (s : State) : (msix fn v s).pair = s.pair :=
  (msix_changes (Q := [.out]) rfl (OnlyChanges.refl _ s)) .pair rfl
@[simp] theorem msix_near (fn : FnId) (v : Nat) (s : State) : (msix fn v s).near = s.near :=
  (msix_changes (Q := [.out]) rfl (OnlyChanges.refl _ s)) .near rfl
@[simp] theorem msix_rma (fn : FnId) (v : Nat) (s : State) : (msix fn v s).rma = s.rma :=
  (msix_changes (Q := [.out]) rfl (OnlyChanges.refl _ s)) .rma rfl
@[simp] theorem msix_links (fn : FnId) (v : Nat) (s : State) : (msix fn v s).links = s.links :=
  (msix_changes (Q := [.out]) rfl (OnlyChanges.refl _ s)) .links rfl
@[simp] theorem msix_tb (fn : FnId) (v : Nat) (s : State) : (msix fn v s).tb = s.tb :=
  (msix_changes (Q := [.out]) rfl (OnlyChanges.refl _ s)) .tb rfl
@[simp] theorem msix_free (fn : FnId) (v : Nat) (s : State) : (msix fn v s).free = s.free :=
  (msix_changes (Q := [.out]) rfl (OnlyChanges.refl _ s)) .free rfl
@[simp] theorem msix_pending (fn : FnId) (v : Nat) (s : State) : (msix fn v s).pending = s.pending :=
  (msix_changes (Q := [.out]) rfl (OnlyChanges.refl _ s)) .pending rfl
@[simp] theorem meterAdd_dev (tenant : Nat) (f : Meter → Meter) (s : State) : (meterAdd tenant f s).dev = s.dev :=
  (meterAdd_changes (Q := [.sched]) rfl (OnlyChanges.refl _ s)) .dev rfl
@[simp] theorem meterAdd_maint (tenant : Nat) (f : Meter → Meter) (s : State) : (meterAdd tenant f s).maint = s.maint :=
  (meterAdd_changes (Q := [.sched]) rfl (OnlyChanges.refl _ s)) .maint rfl
@[simp] theorem meterAdd_sec (tenant : Nat) (f : Meter → Meter) (s : State) : (meterAdd tenant f s).sec = s.sec :=
  (meterAdd_changes (Q := [.sched]) rfl (OnlyChanges.refl _ s)).sec_eq rfl rfl
@[simp] theorem meterAdd_host (tenant : Nat) (f : Meter → Meter) (s : State) : (meterAdd tenant f s).host = s.host :=
  (meterAdd_changes (Q := [.sched]) rfl (OnlyChanges.refl _ s)) .host rfl
@[simp] theorem meterAdd_forme (tenant : Nat) (f : Meter → Meter) (s : State) : (meterAdd tenant f s).forme = s.forme :=
  (meterAdd_changes (Q := [.sched]) rfl (OnlyChanges.refl _ s)) .forme rfl
@[simp] theorem meterAdd_codec (tenant : Nat) (f : Meter → Meter) (s : State) : (meterAdd tenant f s).codec = s.codec :=
  (meterAdd_changes (Q := [.sched]) rfl (OnlyChanges.refl _ s)) .codec rfl
@[simp] theorem meterAdd_tier (tenant : Nat) (f : Meter → Meter) (s : State) : (meterAdd tenant f s).tier = s.tier :=
  (meterAdd_changes (Q := [.sched]) rfl (OnlyChanges.refl _ s)) .tier rfl
@[simp] theorem meterAdd_clusters (tenant : Nat) (f : Meter → Meter) (s : State) : (meterAdd tenant f s).clusters = s.clusters :=
  (meterAdd_changes (Q := [.sched]) rfl (OnlyChanges.refl _ s)) .clusters rfl
@[simp] theorem meterAdd_repro (tenant : Nat) (f : Meter → Meter) (s : State) : (meterAdd tenant f s).repro = s.repro :=
  (meterAdd_changes (Q := [.sched]) rfl (OnlyChanges.refl _ s)) .repro rfl
@[simp] theorem meterAdd_req (tenant : Nat) (f : Meter → Meter) (s : State) : (meterAdd tenant f s).req = s.req :=
  (meterAdd_changes (Q := [.sched]) rfl (OnlyChanges.refl _ s)) .req rfl
@[simp] theorem meterAdd_pair (tenant : Nat) (f : Meter → Meter) (s : State) : (meterAdd tenant f s).pair = s.pair :=
  (meterAdd_changes (Q := [.sched]) rfl (OnlyChanges.refl _ s)) .pair rfl
@[simp] theorem meterAdd_near (tenant : Nat) (f : Meter → Meter) (s : State) : (meterAdd tenant f s).near = s.near :=
  (meterAdd_changes (Q := [.sched]) rfl (OnlyChanges.refl _ s)) .near rfl
@[simp] theorem meterAdd_rma (tenant : Nat) (f : Meter → Meter) (s : State) : (meterAdd tenant f s).rma = s.rma :=
  (meterAdd_changes (Q := [.sched]) rfl (OnlyChanges.refl _ s)) .rma rfl
@[simp] theorem meterAdd_links (tenant : Nat) (f : Meter → Meter) (s : State) : (meterAdd tenant f s).links = s.links :=
  (meterAdd_changes (Q := [.sched]) rfl (OnlyChanges.refl _ s)) .links rfl
@[simp] theorem meterAdd_tb (tenant : Nat) (f : Meter → Meter) (s : State) : (meterAdd tenant f s).tb = s.tb :=
  (meterAdd_changes (Q := [.sched]) rfl (OnlyChanges.refl _ s)) .tb rfl
@[simp] theorem meterAdd_free (tenant : Nat) (f : Meter → Meter) (s : State) : (meterAdd tenant f s).free = s.free :=
  (meterAdd_changes (Q := [.sched]) rfl (OnlyChanges.refl _ s)) .free rfl
@[simp] theorem meterAdd_out (tenant : Nat) (f : Meter → Meter) (s : State) : (meterAdd tenant f s).out = s.out :=
  (meterAdd_changes (Q := [.sched]) rfl (OnlyChanges.refl _ s)) .out rfl
@[simp] theorem meterAdd_pending (tenant : Nat) (f : Meter → Meter) (s : State) : (meterAdd tenant f s).pending = s.pending :=
  (meterAdd_changes (Q := [.sched]) rfl (OnlyChanges.refl _ s)) .pending rfl
@[simp] theorem clusterCause_maint (n : Nat) (cause : Nat) (s : State) : (clusterCause n cause s).maint = s.maint :=
  (clusterCause_changes (Q := [.dev, .clusters]) rfl (OnlyChanges.refl _ s)) .maint rfl
@[simp] theorem clusterCause_sec (n : Nat) (cause : Nat) (s : State) : (clusterCause n cause s).sec = s.sec :=
  (clusterCause_changes (Q := [.dev, .clusters]) rfl (OnlyChanges.refl _ s)).sec_eq rfl rfl
@[simp] theorem clusterCause_host (n : Nat) (cause : Nat) (s : State) : (clusterCause n cause s).host = s.host :=
  (clusterCause_changes (Q := [.dev, .clusters]) rfl (OnlyChanges.refl _ s)) .host rfl
@[simp] theorem clusterCause_forme (n : Nat) (cause : Nat) (s : State) : (clusterCause n cause s).forme = s.forme :=
  (clusterCause_changes (Q := [.dev, .clusters]) rfl (OnlyChanges.refl _ s)) .forme rfl
@[simp] theorem clusterCause_codec (n : Nat) (cause : Nat) (s : State) : (clusterCause n cause s).codec = s.codec :=
  (clusterCause_changes (Q := [.dev, .clusters]) rfl (OnlyChanges.refl _ s)) .codec rfl
@[simp] theorem clusterCause_tier (n : Nat) (cause : Nat) (s : State) : (clusterCause n cause s).tier = s.tier :=
  (clusterCause_changes (Q := [.dev, .clusters]) rfl (OnlyChanges.refl _ s)) .tier rfl
@[simp] theorem clusterCause_sched (n : Nat) (cause : Nat) (s : State) : (clusterCause n cause s).sched = s.sched :=
  (clusterCause_changes (Q := [.dev, .clusters]) rfl (OnlyChanges.refl _ s)) .sched rfl
@[simp] theorem clusterCause_repro (n : Nat) (cause : Nat) (s : State) : (clusterCause n cause s).repro = s.repro :=
  (clusterCause_changes (Q := [.dev, .clusters]) rfl (OnlyChanges.refl _ s)) .repro rfl
@[simp] theorem clusterCause_req (n : Nat) (cause : Nat) (s : State) : (clusterCause n cause s).req = s.req :=
  (clusterCause_changes (Q := [.dev, .clusters]) rfl (OnlyChanges.refl _ s)) .req rfl
@[simp] theorem clusterCause_pair (n : Nat) (cause : Nat) (s : State) : (clusterCause n cause s).pair = s.pair :=
  (clusterCause_changes (Q := [.dev, .clusters]) rfl (OnlyChanges.refl _ s)) .pair rfl
@[simp] theorem clusterCause_near (n : Nat) (cause : Nat) (s : State) : (clusterCause n cause s).near = s.near :=
  (clusterCause_changes (Q := [.dev, .clusters]) rfl (OnlyChanges.refl _ s)) .near rfl
@[simp] theorem clusterCause_rma (n : Nat) (cause : Nat) (s : State) : (clusterCause n cause s).rma = s.rma :=
  (clusterCause_changes (Q := [.dev, .clusters]) rfl (OnlyChanges.refl _ s)) .rma rfl
@[simp] theorem clusterCause_links (n : Nat) (cause : Nat) (s : State) : (clusterCause n cause s).links = s.links :=
  (clusterCause_changes (Q := [.dev, .clusters]) rfl (OnlyChanges.refl _ s)) .links rfl
@[simp] theorem clusterCause_tb (n : Nat) (cause : Nat) (s : State) : (clusterCause n cause s).tb = s.tb :=
  (clusterCause_changes (Q := [.dev, .clusters]) rfl (OnlyChanges.refl _ s)) .tb rfl
@[simp] theorem clusterCause_free (n : Nat) (cause : Nat) (s : State) : (clusterCause n cause s).free = s.free :=
  (clusterCause_changes (Q := [.dev, .clusters]) rfl (OnlyChanges.refl _ s)) .free rfl
@[simp] theorem clusterCause_out (n : Nat) (cause : Nat) (s : State) : (clusterCause n cause s).out = s.out :=
  (clusterCause_changes (Q := [.dev, .clusters]) rfl (OnlyChanges.refl _ s)) .out rfl
@[simp] theorem clusterCause_pending (n : Nat) (cause : Nat) (s : State) : (clusterCause n cause s).pending = s.pending :=
  (clusterCause_changes (Q := [.dev, .clusters]) rfl (OnlyChanges.refl _ s)) .pending rfl
@[simp] theorem codecCode_dev (c : Status) (s : State) : (codecCode c s).dev = s.dev := rfl
@[simp] theorem codecCode_maint (c : Status) (s : State) : (codecCode c s).maint = s.maint := rfl
@[simp] theorem codecCode_sec (c : Status) (s : State) : (codecCode c s).sec = s.sec := rfl
@[simp] theorem codecCode_host (c : Status) (s : State) : (codecCode c s).host = s.host := rfl
@[simp] theorem codecCode_forme (c : Status) (s : State) : (codecCode c s).forme = s.forme := rfl
@[simp] theorem codecCode_tier (c : Status) (s : State) : (codecCode c s).tier = s.tier := rfl
@[simp] theorem codecCode_clusters (c : Status) (s : State) : (codecCode c s).clusters = s.clusters := rfl
@[simp] theorem codecCode_sched (c : Status) (s : State) : (codecCode c s).sched = s.sched := rfl
@[simp] theorem codecCode_repro (c : Status) (s : State) : (codecCode c s).repro = s.repro := rfl
@[simp] theorem codecCode_req (c : Status) (s : State) : (codecCode c s).req = s.req := rfl
@[simp] theorem codecCode_pair (c : Status) (s : State) : (codecCode c s).pair = s.pair := rfl
@[simp] theorem codecCode_near (c : Status) (s : State) : (codecCode c s).near = s.near := rfl
@[simp] theorem codecCode_rma (c : Status) (s : State) : (codecCode c s).rma = s.rma := rfl
@[simp] theorem codecCode_links (c : Status) (s : State) : (codecCode c s).links = s.links := rfl
@[simp] theorem codecCode_tb (c : Status) (s : State) : (codecCode c s).tb = s.tb := rfl
@[simp] theorem codecCode_free (c : Status) (s : State) : (codecCode c s).free = s.free := rfl
@[simp] theorem codecCode_out (c : Status) (s : State) : (codecCode c s).out = s.out := rfl
@[simp] theorem codecCode_pending (c : Status) (s : State) : (codecCode c s).pending = s.pending := rfl
@[simp] theorem formeCode_dev (c : Status) (s : State) : (formeCode c s).dev = s.dev := rfl
@[simp] theorem formeCode_maint (c : Status) (s : State) : (formeCode c s).maint = s.maint := rfl
@[simp] theorem formeCode_sec (c : Status) (s : State) : (formeCode c s).sec = s.sec := rfl
@[simp] theorem formeCode_host (c : Status) (s : State) : (formeCode c s).host = s.host := rfl
@[simp] theorem formeCode_codec (c : Status) (s : State) : (formeCode c s).codec = s.codec := rfl
@[simp] theorem formeCode_tier (c : Status) (s : State) : (formeCode c s).tier = s.tier := rfl
@[simp] theorem formeCode_clusters (c : Status) (s : State) : (formeCode c s).clusters = s.clusters := rfl
@[simp] theorem formeCode_sched (c : Status) (s : State) : (formeCode c s).sched = s.sched := rfl
@[simp] theorem formeCode_repro (c : Status) (s : State) : (formeCode c s).repro = s.repro := rfl
@[simp] theorem formeCode_req (c : Status) (s : State) : (formeCode c s).req = s.req := rfl
@[simp] theorem formeCode_pair (c : Status) (s : State) : (formeCode c s).pair = s.pair := rfl
@[simp] theorem formeCode_near (c : Status) (s : State) : (formeCode c s).near = s.near := rfl
@[simp] theorem formeCode_rma (c : Status) (s : State) : (formeCode c s).rma = s.rma := rfl
@[simp] theorem formeCode_links (c : Status) (s : State) : (formeCode c s).links = s.links := rfl
@[simp] theorem formeCode_tb (c : Status) (s : State) : (formeCode c s).tb = s.tb := rfl
@[simp] theorem formeCode_free (c : Status) (s : State) : (formeCode c s).free = s.free := rfl
@[simp] theorem formeCode_out (c : Status) (s : State) : (formeCode c s).out = s.out := rfl
@[simp] theorem formeCode_pending (c : Status) (s : State) : (formeCode c s).pending = s.pending := rfl
@[simp] theorem maintCode_dev (c : Status) (s : State) : (maintCode c s).dev = s.dev := rfl
@[simp] theorem maintCode_sec (c : Status) (s : State) : (maintCode c s).sec = s.sec := rfl
@[simp] theorem maintCode_host (c : Status) (s : State) : (maintCode c s).host = s.host := rfl
@[simp] theorem maintCode_forme (c : Status) (s : State) : (maintCode c s).forme = s.forme := rfl
@[simp] theorem maintCode_codec (c : Status) (s : State) : (maintCode c s).codec = s.codec := rfl
@[simp] theorem maintCode_tier (c : Status) (s : State) : (maintCode c s).tier = s.tier := rfl
@[simp] theorem maintCode_clusters (c : Status) (s : State) : (maintCode c s).clusters = s.clusters := rfl
@[simp] theorem maintCode_sched (c : Status) (s : State) : (maintCode c s).sched = s.sched := rfl
@[simp] theorem maintCode_repro (c : Status) (s : State) : (maintCode c s).repro = s.repro := rfl
@[simp] theorem maintCode_req (c : Status) (s : State) : (maintCode c s).req = s.req := rfl
@[simp] theorem maintCode_pair (c : Status) (s : State) : (maintCode c s).pair = s.pair := rfl
@[simp] theorem maintCode_near (c : Status) (s : State) : (maintCode c s).near = s.near := rfl
@[simp] theorem maintCode_rma (c : Status) (s : State) : (maintCode c s).rma = s.rma := rfl
@[simp] theorem maintCode_links (c : Status) (s : State) : (maintCode c s).links = s.links := rfl
@[simp] theorem maintCode_tb (c : Status) (s : State) : (maintCode c s).tb = s.tb := rfl
@[simp] theorem maintCode_free (c : Status) (s : State) : (maintCode c s).free = s.free := rfl
@[simp] theorem maintCode_out (c : Status) (s : State) : (maintCode c s).out = s.out := rfl
@[simp] theorem maintCode_pending (c : Status) (s : State) : (maintCode c s).pending = s.pending := rfl
@[simp] theorem reqCode_dev (c : Status) (s : State) : (reqCode c s).dev = s.dev := rfl
@[simp] theorem reqCode_maint (c : Status) (s : State) : (reqCode c s).maint = s.maint := rfl
@[simp] theorem reqCode_sec (c : Status) (s : State) : (reqCode c s).sec = s.sec := rfl
@[simp] theorem reqCode_host (c : Status) (s : State) : (reqCode c s).host = s.host := rfl
@[simp] theorem reqCode_forme (c : Status) (s : State) : (reqCode c s).forme = s.forme := rfl
@[simp] theorem reqCode_codec (c : Status) (s : State) : (reqCode c s).codec = s.codec := rfl
@[simp] theorem reqCode_tier (c : Status) (s : State) : (reqCode c s).tier = s.tier := rfl
@[simp] theorem reqCode_clusters (c : Status) (s : State) : (reqCode c s).clusters = s.clusters := rfl
@[simp] theorem reqCode_sched (c : Status) (s : State) : (reqCode c s).sched = s.sched := rfl
@[simp] theorem reqCode_repro (c : Status) (s : State) : (reqCode c s).repro = s.repro := rfl
@[simp] theorem reqCode_pair (c : Status) (s : State) : (reqCode c s).pair = s.pair := rfl
@[simp] theorem reqCode_near (c : Status) (s : State) : (reqCode c s).near = s.near := rfl
@[simp] theorem reqCode_rma (c : Status) (s : State) : (reqCode c s).rma = s.rma := rfl
@[simp] theorem reqCode_links (c : Status) (s : State) : (reqCode c s).links = s.links := rfl
@[simp] theorem reqCode_tb (c : Status) (s : State) : (reqCode c s).tb = s.tb := rfl
@[simp] theorem reqCode_free (c : Status) (s : State) : (reqCode c s).free = s.free := rfl
@[simp] theorem reqCode_out (c : Status) (s : State) : (reqCode c s).out = s.out := rfl
@[simp] theorem reqCode_pending (c : Status) (s : State) : (reqCode c s).pending = s.pending := rfl
@[simp] theorem rmaCode_dev (c : Status) (s : State) : (rmaCode c s).dev = s.dev := rfl
@[simp] theorem rmaCode_maint (c : Status) (s : State) : (rmaCode c s).maint = s.maint := rfl
@[simp] theorem rmaCode_sec (c : Status) (s : State) : (rmaCode c s).sec = s.sec := rfl
@[simp] theorem rmaCode_host (c : Status) (s : State) : (rmaCode c s).host = s.host := rfl
@[simp] theorem rmaCode_forme (c : Status) (s : State) : (rmaCode c s).forme = s.forme := rfl
@[simp] theorem rmaCode_codec (c : Status) (s : State) : (rmaCode c s).codec = s.codec := rfl
@[simp] theorem rmaCode_tier (c : Status) (s : State) : (rmaCode c s).tier = s.tier := rfl
@[simp] theorem rmaCode_clusters (c : Status) (s : State) : (rmaCode c s).clusters = s.clusters := rfl
@[simp] theorem rmaCode_sched (c : Status) (s : State) : (rmaCode c s).sched = s.sched := rfl
@[simp] theorem rmaCode_repro (c : Status) (s : State) : (rmaCode c s).repro = s.repro := rfl
@[simp] theorem rmaCode_req (c : Status) (s : State) : (rmaCode c s).req = s.req := rfl
@[simp] theorem rmaCode_pair (c : Status) (s : State) : (rmaCode c s).pair = s.pair := rfl
@[simp] theorem rmaCode_near (c : Status) (s : State) : (rmaCode c s).near = s.near := rfl
@[simp] theorem rmaCode_links (c : Status) (s : State) : (rmaCode c s).links = s.links := rfl
@[simp] theorem rmaCode_tb (c : Status) (s : State) : (rmaCode c s).tb = s.tb := rfl
@[simp] theorem rmaCode_free (c : Status) (s : State) : (rmaCode c s).free = s.free := rfl
@[simp] theorem rmaCode_out (c : Status) (s : State) : (rmaCode c s).out = s.out := rfl
@[simp] theorem rmaCode_pending (c : Status) (s : State) : (rmaCode c s).pending = s.pending := rfl
@[simp] theorem tierCode_dev (c : Status) (s : State) : (tierCode c s).dev = s.dev := rfl
@[simp] theorem tierCode_maint (c : Status) (s : State) : (tierCode c s).maint = s.maint := rfl
@[simp] theorem tierCode_sec (c : Status) (s : State) : (tierCode c s).sec = s.sec := rfl
@[simp] theorem tierCode_host (c : Status) (s : State) : (tierCode c s).host = s.host := rfl
@[simp] theorem tierCode_forme (c : Status) (s : State) : (tierCode c s).forme = s.forme := rfl
@[simp] theorem tierCode_codec (c : Status) (s : State) : (tierCode c s).codec = s.codec := rfl
@[simp] theorem tierCode_clusters (c : Status) (s : State) : (tierCode c s).clusters = s.clusters := rfl
@[simp] theorem tierCode_sched (c : Status) (s : State) : (tierCode c s).sched = s.sched := rfl
@[simp] theorem tierCode_repro (c : Status) (s : State) : (tierCode c s).repro = s.repro := rfl
@[simp] theorem tierCode_req (c : Status) (s : State) : (tierCode c s).req = s.req := rfl
@[simp] theorem tierCode_pair (c : Status) (s : State) : (tierCode c s).pair = s.pair := rfl
@[simp] theorem tierCode_near (c : Status) (s : State) : (tierCode c s).near = s.near := rfl
@[simp] theorem tierCode_rma (c : Status) (s : State) : (tierCode c s).rma = s.rma := rfl
@[simp] theorem tierCode_links (c : Status) (s : State) : (tierCode c s).links = s.links := rfl
@[simp] theorem tierCode_tb (c : Status) (s : State) : (tierCode c s).tb = s.tb := rfl
@[simp] theorem tierCode_free (c : Status) (s : State) : (tierCode c s).free = s.free := rfl
@[simp] theorem tierCode_out (c : Status) (s : State) : (tierCode c s).out = s.out := rfl
@[simp] theorem tierCode_pending (c : Status) (s : State) : (tierCode c s).pending = s.pending := rfl
@[simp] theorem hostCode_dev (fn : FnId) (c : Status) (s : State) : (hostCode fn c s).dev = s.dev := rfl
@[simp] theorem hostCode_maint (fn : FnId) (c : Status) (s : State) : (hostCode fn c s).maint = s.maint := rfl
@[simp] theorem hostCode_sec (fn : FnId) (c : Status) (s : State) : (hostCode fn c s).sec = s.sec := rfl
@[simp] theorem hostCode_forme (fn : FnId) (c : Status) (s : State) : (hostCode fn c s).forme = s.forme := rfl
@[simp] theorem hostCode_codec (fn : FnId) (c : Status) (s : State) : (hostCode fn c s).codec = s.codec := rfl
@[simp] theorem hostCode_tier (fn : FnId) (c : Status) (s : State) : (hostCode fn c s).tier = s.tier := rfl
@[simp] theorem hostCode_clusters (fn : FnId) (c : Status) (s : State) : (hostCode fn c s).clusters = s.clusters := rfl
@[simp] theorem hostCode_sched (fn : FnId) (c : Status) (s : State) : (hostCode fn c s).sched = s.sched := rfl
@[simp] theorem hostCode_repro (fn : FnId) (c : Status) (s : State) : (hostCode fn c s).repro = s.repro := rfl
@[simp] theorem hostCode_req (fn : FnId) (c : Status) (s : State) : (hostCode fn c s).req = s.req := rfl
@[simp] theorem hostCode_pair (fn : FnId) (c : Status) (s : State) : (hostCode fn c s).pair = s.pair := rfl
@[simp] theorem hostCode_near (fn : FnId) (c : Status) (s : State) : (hostCode fn c s).near = s.near := rfl
@[simp] theorem hostCode_rma (fn : FnId) (c : Status) (s : State) : (hostCode fn c s).rma = s.rma := rfl
@[simp] theorem hostCode_links (fn : FnId) (c : Status) (s : State) : (hostCode fn c s).links = s.links := rfl
@[simp] theorem hostCode_tb (fn : FnId) (c : Status) (s : State) : (hostCode fn c s).tb = s.tb := rfl
@[simp] theorem hostCode_free (fn : FnId) (c : Status) (s : State) : (hostCode fn c s).free = s.free := rfl
@[simp] theorem hostCode_out (fn : FnId) (c : Status) (s : State) : (hostCode fn c s).out = s.out := rfl
@[simp] theorem hostCode_pending (fn : FnId) (c : Status) (s : State) : (hostCode fn c s).pending = s.pending := rfl
@[simp] theorem pairCode_dev (c : Status) (s : State) : (pairCode c s).dev = s.dev := rfl
@[simp] theorem pairCode_maint (c : Status) (s : State) : (pairCode c s).maint = s.maint := rfl
@[simp] theorem pairCode_sec (c : Status) (s : State) : (pairCode c s).sec = s.sec := rfl
@[simp] theorem pairCode_host (c : Status) (s : State) : (pairCode c s).host = s.host := rfl
@[simp] theorem pairCode_forme (c : Status) (s : State) : (pairCode c s).forme = s.forme := rfl
@[simp] theorem pairCode_codec (c : Status) (s : State) : (pairCode c s).codec = s.codec := rfl
@[simp] theorem pairCode_tier (c : Status) (s : State) : (pairCode c s).tier = s.tier := rfl
@[simp] theorem pairCode_clusters (c : Status) (s : State) : (pairCode c s).clusters = s.clusters := rfl
@[simp] theorem pairCode_sched (c : Status) (s : State) : (pairCode c s).sched = s.sched := rfl
@[simp] theorem pairCode_repro (c : Status) (s : State) : (pairCode c s).repro = s.repro := rfl
@[simp] theorem pairCode_req (c : Status) (s : State) : (pairCode c s).req = s.req := rfl
@[simp] theorem pairCode_near (c : Status) (s : State) : (pairCode c s).near = s.near := rfl
@[simp] theorem pairCode_rma (c : Status) (s : State) : (pairCode c s).rma = s.rma := rfl
@[simp] theorem pairCode_links (c : Status) (s : State) : (pairCode c s).links = s.links := rfl
@[simp] theorem pairCode_tb (c : Status) (s : State) : (pairCode c s).tb = s.tb := rfl
@[simp] theorem pairCode_free (c : Status) (s : State) : (pairCode c s).free = s.free := rfl
@[simp] theorem pairCode_out (c : Status) (s : State) : (pairCode c s).out = s.out := rfl
@[simp] theorem pairCode_pending (c : Status) (s : State) : (pairCode c s).pending = s.pending := rfl
@[simp] theorem shaperCode_dev (c : Status) (s : State) : (shaperCode c s).dev = s.dev := rfl
@[simp] theorem shaperCode_maint (c : Status) (s : State) : (shaperCode c s).maint = s.maint := rfl
@[simp] theorem shaperCode_sec (c : Status) (s : State) : (shaperCode c s).sec = s.sec := rfl
@[simp] theorem shaperCode_host (c : Status) (s : State) : (shaperCode c s).host = s.host := rfl
@[simp] theorem shaperCode_forme (c : Status) (s : State) : (shaperCode c s).forme = s.forme := rfl
@[simp] theorem shaperCode_codec (c : Status) (s : State) : (shaperCode c s).codec = s.codec := rfl
@[simp] theorem shaperCode_tier (c : Status) (s : State) : (shaperCode c s).tier = s.tier := rfl
@[simp] theorem shaperCode_clusters (c : Status) (s : State) : (shaperCode c s).clusters = s.clusters := rfl
@[simp] theorem shaperCode_sched (c : Status) (s : State) : (shaperCode c s).sched = s.sched := rfl
@[simp] theorem shaperCode_repro (c : Status) (s : State) : (shaperCode c s).repro = s.repro := rfl
@[simp] theorem shaperCode_req (c : Status) (s : State) : (shaperCode c s).req = s.req := rfl
@[simp] theorem shaperCode_pair (c : Status) (s : State) : (shaperCode c s).pair = s.pair := rfl
@[simp] theorem shaperCode_near (c : Status) (s : State) : (shaperCode c s).near = s.near := rfl
@[simp] theorem shaperCode_rma (c : Status) (s : State) : (shaperCode c s).rma = s.rma := rfl
@[simp] theorem shaperCode_tb (c : Status) (s : State) : (shaperCode c s).tb = s.tb := rfl
@[simp] theorem shaperCode_free (c : Status) (s : State) : (shaperCode c s).free = s.free := rfl
@[simp] theorem shaperCode_out (c : Status) (s : State) : (shaperCode c s).out = s.out := rfl
@[simp] theorem shaperCode_pending (c : Status) (s : State) : (shaperCode c s).pending = s.pending := rfl
@[simp] theorem schedCode_dev (c : Status) (s : State) : (schedCode c s).dev = s.dev := rfl
@[simp] theorem schedCode_maint (c : Status) (s : State) : (schedCode c s).maint = s.maint := rfl
@[simp] theorem schedCode_sec (c : Status) (s : State) : (schedCode c s).sec = s.sec := rfl
@[simp] theorem schedCode_host (c : Status) (s : State) : (schedCode c s).host = s.host := rfl
@[simp] theorem schedCode_forme (c : Status) (s : State) : (schedCode c s).forme = s.forme := rfl
@[simp] theorem schedCode_codec (c : Status) (s : State) : (schedCode c s).codec = s.codec := rfl
@[simp] theorem schedCode_tier (c : Status) (s : State) : (schedCode c s).tier = s.tier := rfl
@[simp] theorem schedCode_clusters (c : Status) (s : State) : (schedCode c s).clusters = s.clusters := rfl
@[simp] theorem schedCode_repro (c : Status) (s : State) : (schedCode c s).repro = s.repro := rfl
@[simp] theorem schedCode_req (c : Status) (s : State) : (schedCode c s).req = s.req := rfl
@[simp] theorem schedCode_pair (c : Status) (s : State) : (schedCode c s).pair = s.pair := rfl
@[simp] theorem schedCode_near (c : Status) (s : State) : (schedCode c s).near = s.near := rfl
@[simp] theorem schedCode_rma (c : Status) (s : State) : (schedCode c s).rma = s.rma := rfl
@[simp] theorem schedCode_links (c : Status) (s : State) : (schedCode c s).links = s.links := rfl
@[simp] theorem schedCode_tb (c : Status) (s : State) : (schedCode c s).tb = s.tb := rfl
@[simp] theorem schedCode_free (c : Status) (s : State) : (schedCode c s).free = s.free := rfl
@[simp] theorem schedCode_out (c : Status) (s : State) : (schedCode c s).out = s.out := rfl
@[simp] theorem schedCode_pending (c : Status) (s : State) : (schedCode c s).pending = s.pending := rfl
@[simp] theorem secCode_dev (c : Status) (s : State) : (secCode c s).dev = s.dev := rfl
@[simp] theorem secCode_maint (c : Status) (s : State) : (secCode c s).maint = s.maint := rfl
@[simp] theorem secCode_host (c : Status) (s : State) : (secCode c s).host = s.host := rfl
@[simp] theorem secCode_forme (c : Status) (s : State) : (secCode c s).forme = s.forme := rfl
@[simp] theorem secCode_codec (c : Status) (s : State) : (secCode c s).codec = s.codec := rfl
@[simp] theorem secCode_tier (c : Status) (s : State) : (secCode c s).tier = s.tier := rfl
@[simp] theorem secCode_clusters (c : Status) (s : State) : (secCode c s).clusters = s.clusters := rfl
@[simp] theorem secCode_sched (c : Status) (s : State) : (secCode c s).sched = s.sched := rfl
@[simp] theorem secCode_repro (c : Status) (s : State) : (secCode c s).repro = s.repro := rfl
@[simp] theorem secCode_req (c : Status) (s : State) : (secCode c s).req = s.req := rfl
@[simp] theorem secCode_pair (c : Status) (s : State) : (secCode c s).pair = s.pair := rfl
@[simp] theorem secCode_near (c : Status) (s : State) : (secCode c s).near = s.near := rfl
@[simp] theorem secCode_rma (c : Status) (s : State) : (secCode c s).rma = s.rma := rfl
@[simp] theorem secCode_links (c : Status) (s : State) : (secCode c s).links = s.links := rfl
@[simp] theorem secCode_tb (c : Status) (s : State) : (secCode c s).tb = s.tb := rfl
@[simp] theorem secCode_free (c : Status) (s : State) : (secCode c s).free = s.free := rfl
@[simp] theorem secCode_out (c : Status) (s : State) : (secCode c s).out = s.out := rfl
@[simp] theorem secCode_pending (c : Status) (s : State) : (secCode c s).pending = s.pending := rfl

/-! ### The crossbar (01 R23) -/

/-- A crossbar output grants a position that requests it. -/
theorem xbarPick_mem (token p : Nat) (req : List Nat) (h : xbarPick token req = some p) : p ∈ req := by
  simpa using List.find?_some h

/-- A grant changes the tokens and nothing else of the memory tiers. -/
theorem xbarGrant_tier (r out : Nat) (req : List Nat) (s : State) :
    (xbarGrant r out req s).tier = { s.tier with xbar := (xbarGrant r out req s).tier.xbar } := by
  simp only [xbarGrant]
  split <;> rfl

@[simp] theorem xbarPass_dev (n out : Nat) (s : State) : (xbarPass n out s).dev = s.dev :=
  (xbarPass_changes (Q := [.tier]) rfl (OnlyChanges.refl _ s)) .dev rfl
@[simp] theorem xbarPass_maint (n out : Nat) (s : State) : (xbarPass n out s).maint = s.maint :=
  (xbarPass_changes (Q := [.tier]) rfl (OnlyChanges.refl _ s)) .maint rfl
@[simp] theorem xbarPass_sec (n out : Nat) (s : State) : (xbarPass n out s).sec = s.sec :=
  (xbarPass_changes (Q := [.tier]) rfl (OnlyChanges.refl _ s)).sec_eq rfl rfl
@[simp] theorem xbarPass_host (n out : Nat) (s : State) : (xbarPass n out s).host = s.host :=
  (xbarPass_changes (Q := [.tier]) rfl (OnlyChanges.refl _ s)) .host rfl
@[simp] theorem xbarPass_forme (n out : Nat) (s : State) : (xbarPass n out s).forme = s.forme :=
  (xbarPass_changes (Q := [.tier]) rfl (OnlyChanges.refl _ s)) .forme rfl
@[simp] theorem xbarPass_codec (n out : Nat) (s : State) : (xbarPass n out s).codec = s.codec :=
  (xbarPass_changes (Q := [.tier]) rfl (OnlyChanges.refl _ s)) .codec rfl
@[simp] theorem xbarPass_clusters (n out : Nat) (s : State) : (xbarPass n out s).clusters = s.clusters :=
  (xbarPass_changes (Q := [.tier]) rfl (OnlyChanges.refl _ s)) .clusters rfl
@[simp] theorem xbarPass_sched (n out : Nat) (s : State) : (xbarPass n out s).sched = s.sched :=
  (xbarPass_changes (Q := [.tier]) rfl (OnlyChanges.refl _ s)) .sched rfl
@[simp] theorem xbarPass_repro (n out : Nat) (s : State) : (xbarPass n out s).repro = s.repro :=
  (xbarPass_changes (Q := [.tier]) rfl (OnlyChanges.refl _ s)) .repro rfl
@[simp] theorem xbarPass_req (n out : Nat) (s : State) : (xbarPass n out s).req = s.req :=
  (xbarPass_changes (Q := [.tier]) rfl (OnlyChanges.refl _ s)) .req rfl
@[simp] theorem xbarPass_pair (n out : Nat) (s : State) : (xbarPass n out s).pair = s.pair :=
  (xbarPass_changes (Q := [.tier]) rfl (OnlyChanges.refl _ s)) .pair rfl
@[simp] theorem xbarPass_near (n out : Nat) (s : State) : (xbarPass n out s).near = s.near :=
  (xbarPass_changes (Q := [.tier]) rfl (OnlyChanges.refl _ s)) .near rfl
@[simp] theorem xbarPass_rma (n out : Nat) (s : State) : (xbarPass n out s).rma = s.rma :=
  (xbarPass_changes (Q := [.tier]) rfl (OnlyChanges.refl _ s)) .rma rfl
@[simp] theorem xbarPass_links (n out : Nat) (s : State) : (xbarPass n out s).links = s.links :=
  (xbarPass_changes (Q := [.tier]) rfl (OnlyChanges.refl _ s)) .links rfl
@[simp] theorem xbarPass_tb (n out : Nat) (s : State) : (xbarPass n out s).tb = s.tb :=
  (xbarPass_changes (Q := [.tier]) rfl (OnlyChanges.refl _ s)) .tb rfl
@[simp] theorem xbarPass_free (n out : Nat) (s : State) : (xbarPass n out s).free = s.free :=
  (xbarPass_changes (Q := [.tier]) rfl (OnlyChanges.refl _ s)) .free rfl
@[simp] theorem xbarPass_out (n out : Nat) (s : State) : (xbarPass n out s).out = s.out :=
  (xbarPass_changes (Q := [.tier]) rfl (OnlyChanges.refl _ s)) .out rfl
@[simp] theorem xbarPass_pending (n out : Nat) (s : State) : (xbarPass n out s).pending = s.pending :=
  (xbarPass_changes (Q := [.tier]) rfl (OnlyChanges.refl _ s)) .pending rfl

end Sys2Proof.Machine
end

