-- ==== Sys2Proof/Laws/Binding.lean ====
section
/-!
SUPPORT. What the choice of a binding and the virtual times do to a cluster and to the scheduler (13 R350, R351, R354).
-/

namespace Sys2Proof.Machine

/-- `ctxUpd` changes only the contexts of the scheduler. -/
theorem ctxUpd_sched (c : Nat) (f : Ctx → Ctx) (s : State) :
    (ctxUpd c f s).sched = { s.sched with ctxs := Tab.upd s.sched.ctxs c {} f } := rfl

/-- The relation of two schedulers that differ in their contexts only. -/
def SameSlots (s t : State) : Prop := ∃ cx, t.sched = { s.sched with ctxs := cx }

theorem SameSlots.refl (s : State) : SameSlots s s := ⟨s.sched.ctxs, rfl⟩

theorem SameSlots.trans {s t u : State} (h : SameSlots s t) (k : SameSlots t u) : SameSlots s u := by
  obtain ⟨a, h⟩ := h
  obtain ⟨b, k⟩ := k
  exact ⟨b, by rw [k, h]⟩

theorem SameSlots.of_eq {s t : State} (h : t.sched = s.sched) : SameSlots s t := ⟨s.sched.ctxs, by rw [h]⟩

theorem ctxUpd_sameSlots (c : Nat) (f : Ctx → Ctx) (s : State) : SameSlots s (ctxUpd c f s) := ⟨_, rfl⟩

theorem foldl_sameSlots {A : Type} {f : State → A → State} {l : List A} {s0 s : State} (h : SameSlots s0 s)
    (hf : ∀ (u : State) (a : A), SameSlots u (f u a)) : SameSlots s0 (l.foldl f s) := by
  induction l generalizing s with
  | nil => exact h
  | cons a rest ih => exact ih (h.trans (hf s a))

/-- Virtual times change no cluster, and nothing of the scheduler but its contexts. -/
theorem vtRefresh_sameSlots (b : Bool) (s : State) : SameSlots s (vtRefresh b s) := by
  unfold vtRefresh
  split
  · exact .refl s
  split
  · exact .refl s
  exact foldl_sameSlots (.refl s) (fun u p => foldl_sameSlots (.refl u) (fun w c => ctxUpd_sameSlots c _ w))

@[simp] theorem vtRefresh_clusters (b : Bool) (s : State) : (vtRefresh b s).clusters = s.clusters :=
  (vtRefresh_changes (Q := [.sched]) rfl (OnlyChanges.refl _ s)) .clusters rfl

@[simp] theorem vtRefresh_cluster (b : Bool) (s : State) (m : Nat) : cluster (vtRefresh b s) m = cluster s m := by
  unfold cluster; rw [vtRefresh_clusters]

/-- What a binding leaves of its cluster: everything but the binding itself. -/
def Bound (x y : Cluster) : Prop :=
  ∃ st ctx dv sw mv, y = { x with state := st, ctx := ctx, divert := dv, switchAt := sw, moving := mv }

theorem Bound.refl (x : Cluster) : Bound x x := ⟨x.state, x.ctx, x.divert, x.switchAt, x.moving, rfl⟩

theorem Bound.trans {x y z : Cluster} (h : Bound x y) (k : Bound y z) : Bound x z := by
  obtain ⟨a, b, c, d, e, rfl⟩ := h
  obtain ⟨a', b', c', d', e', rfl⟩ := k
  exact ⟨a', b', c', d', e', rfl⟩

theorem Bound.wait {x y : Cluster} (h : Bound x y) : y.wait = x.wait := by obtain ⟨_, _, _, _, _, rfl⟩ := h; rfl
theorem Bound.item {x y : Cluster} (h : Bound x y) : y.item = x.item := by obtain ⟨_, _, _, _, _, rfl⟩ := h; rfl
theorem Bound.lastOp {x y : Cluster} (h : Bound x y) : y.lastOp = x.lastOp := by obtain ⟨_, _, _, _, _, rfl⟩ := h; rfl
theorem Bound.pc {x y : Cluster} (h : Bound x y) : y.pc = x.pc := by obtain ⟨_, _, _, _, _, rfl⟩ := h; rfl
theorem Bound.chans {x y : Cluster} (h : Bound x y) : y.chans = x.chans := by obtain ⟨_, _, _, _, _, rfl⟩ := h; rfl
theorem Bound.aregs {x y : Cluster} (h : Bound x y) : y.aregs = x.aregs := by obtain ⟨_, _, _, _, _, rfl⟩ := h; rfl

/-- From `s` to `t` at most the binding of cluster `n` has changed among the clusters. -/
def Rebound (n : Nat) (s t : State) : Prop :=
  Bound (cluster s n) (cluster t n) ∧ ∀ m, m ≠ n → cluster t m = cluster s m

theorem Rebound.refl (n : Nat) (s : State) : Rebound n s s := ⟨.refl _, fun _ _ => rfl⟩

theorem Rebound.upd {n : Nat} {s u : State} {f : Cluster → Cluster} (h : u.clusters = s.clusters) (hf : ∀ x, Bound x (f x)) :
    Rebound n s (clusterUpd n f u) := by
  have e : ∀ j, cluster u j = cluster s j := fun j => by unfold cluster; rw [h]
  exact ⟨by rw [cluster_clusterUpd_same, e]; exact hf _, fun m hm => by rw [cluster_clusterUpd_other _ _ _ _ hm, e]⟩

theorem addOverrun_clusters (n c o : Nat) (s : State) : (addOverrun n c o s).clusters = s.clusters :=
  (addOverrun_changes (Q := [.sched, .req]) rfl (OnlyChanges.refl _ s)) .clusters rfl

/-- A save that begins changes its cluster's binding only. -/
theorem saveStart_rebound (n c : Nat) (s : State) : Rebound n s (saveStart n c s) := by
  unfold saveStart
  refine Rebound.upd ?_ (fun x => ⟨_, _, _, _, _, rfl⟩)
  split
  · split
    · exact addOverrun_clusters _ _ _ _
    · rfl
  · split
    · exact addOverrun_clusters _ _ _ _
    · rfl

/-- `rebind` changes at most the binding of its cluster. -/
theorem rebind_rebound (n : Nat) (r : Bool) (s : State) : Rebound n s (rebind n r s) := by
  unfold rebind
  split
  · exact .refl n s
  dsimp only
  split
  · split
    · exact Rebound.upd rfl (fun x => ⟨_, _, _, _, _, rfl⟩)
    · exact .refl n s
  · split
    · exact saveStart_rebound n _ s
    · split
      · split
        · exact saveStart_rebound n _ s
        · exact .refl n s
      · exact .refl n s

theorem rebind_bound (n : Nat) (r : Bool) (s : State) : Bound (cluster s n) (cluster (rebind n r s) n) :=
  (rebind_rebound n r s).1

theorem rebind_other (n m : Nat) (r : Bool) (s : State) (h : m ≠ n) : cluster (rebind n r s) m = cluster s m :=
  (rebind_rebound n r s).2 m h

theorem recUpd_sameSlots (q : ReqId) (f : Rec → Rec) (s : State) : SameSlots s (recUpd q f s) := .of_eq (recUpd_sched _ _ _)

theorem addOverrun_sameSlots (n c o : Nat) (s : State) : SameSlots s (addOverrun n c o s) := by
  have k : ∀ (u : State) (l : List RowRef) (g : RowRef → Rec → Rec),
      SameSlots s u → SameSlots s (l.foldl (fun s r => recUpd r.req (g r) s) u) :=
    fun u l g h => foldl_sameSlots h (fun w r => recUpd_sameSlots _ _ w)
  unfold addOverrun
  dsimp only
  split
  · exact .refl s
  split
  · exact ctxUpd_sameSlots c _ s
  · exact k _ _ _ (ctxUpd_sameSlots c _ s)

theorem saveStart_sameSlots (n c : Nat) (s : State) : SameSlots s (saveStart n c s) := by
  have k : ∀ (u : State) (f : Cluster → Cluster), SameSlots s u → SameSlots s (clusterUpd n f u) :=
    fun u f h => h.trans (.of_eq (clusterUpd_sched _ _ _))
  unfold saveStart
  dsimp only
  apply k
  split
  · split
    · exact (addOverrun_sameSlots n c _ s).trans (ctxUpd_sameSlots c _ _)
    · exact ctxUpd_sameSlots c _ s
  · split
    · exact addOverrun_sameSlots n c _ s
    · exact .refl s

/-- `rebind` changes nothing of the scheduler but its contexts. -/
theorem rebind_sameSlots (n : Nat) (r : Bool) (s : State) : SameSlots s (rebind n r s) := by
  unfold rebind
  split
  · exact .refl s
  dsimp only
  split
  · split
    · exact .of_eq rfl
    · exact .refl s
  · split
    · exact saveStart_sameSlots n _ s
    · split
      · split
        · exact saveStart_sameSlots n _ s
        · exact .refl s
      · exact .refl s

end Sys2Proof.Machine
end

