-- ==== Sys2Proof/Laws/ChangesLines.lean ====
section
/-!
SUPPORT. The blocks of the state that the operations of Sys2Proof/Machine/Lines.lean may change.
-/

namespace Sys2Proof.Machine

theorem applyMem_changes {Q : List Block} {s0 : State} {n : Nat} {s : State} {e : Eff} (hq : subParts [.tier, .clusters] Q = true) (hk : OnlyChanges Q s0 s) :
    OnlyChanges Q s0 (applyMem n s e) := by
  unfold applyMem
  repeat' (first
    | with_reducible assumption
    | ((with_reducible refine .inr (subParts_mem hq ?_)); rfl)
    | with_reducible exact .inl rfl
    | with_reducible apply getD_changes
    | with_reducible apply clusterUpd_changes (hq := subParts_trans rfl hq)
    | with_reducible apply homeStore_changes (hq := subParts_trans rfl hq)
    | with_reducible apply partStore_changes (hq := subParts_trans rfl hq)
    | with_reducible apply sliceStore_changes (hq := subParts_trans rfl hq)
    | with_reducible refine changes_ite ?_ ?_
    | (with_reducible refine changesParts_of ?_ ?_ ?_ ?_ ?_ ?_ ?_ ?_ ?_ ?_ ?_ ?_ ?_ ?_ ?_ ?_ ?_ ?_ ?_ ?_)
    | simp only [changes_mk]
    | with_reducible intro _
    | split
    | dsimp only [id])

theorem seen_changes {Q : List Block} {s0 : State} {n : Nat} {s : State} (hq : subParts [.tier, .clusters] Q = true) (hk : OnlyChanges Q s0 s) :
    OnlyChanges Q s0 (seen n s) := by
  unfold seen
  repeat' (first
    | with_reducible assumption
    | ((with_reducible refine .inr (subParts_mem hq ?_)); rfl)
    | with_reducible exact .inl rfl
    | with_reducible apply foldl_changes
    | with_reducible apply foldl_changes_fst
    | with_reducible apply foldl_changes_snd
    | with_reducible apply applyMem_changes (hq := subParts_trans rfl hq)
    | with_reducible refine changes_ite ?_ ?_
    | (with_reducible refine changesParts_of ?_ ?_ ?_ ?_ ?_ ?_ ?_ ?_ ?_ ?_ ?_ ?_ ?_ ?_ ?_ ?_ ?_ ?_ ?_ ?_)
    | simp only [changes_mk]
    | with_reducible intro _
    | split
    | dsimp only [id])

theorem countRead_changes {Q : List Block} {s0 : State} {n : Nat} {p : Nat} {space : Nat} {s : State} {r : Nat × Nat} (hq : subParts [.dev, .maint, .forme, .codec, .tier, .req, .pair, .near, .rma, .links, .free, .out] Q = true) (hk : OnlyChanges Q s0 s) :
    OnlyChanges Q s0 (countRead n p space s r) := by
  unfold countRead
  repeat' (first
    | with_reducible assumption
    | ((with_reducible refine .inr (subParts_mem hq ?_)); rfl)
    | with_reducible exact .inl rfl
    | with_reducible apply foldl_changes
    | with_reducible apply foldl_changes_fst
    | with_reducible apply foldl_changes_snd
    | with_reducible apply homeLoad_changes (hq := subParts_trans rfl hq)
    | with_reducible apply countGranules_changes (hq := subParts_trans rfl hq)
    | with_reducible apply xbarToSlice_changes (hq := subParts_trans rfl hq)
    | with_reducible apply xbarPass_changes (hq := subParts_trans rfl hq)
    | with_reducible apply bumpFree_changes (hq := subParts_trans rfl hq)
    | with_reducible apply partLoad_changes (hq := subParts_trans rfl hq)
    | with_reducible apply trayIssue_changes (hq := subParts_trans rfl hq)
    | (with_reducible apply homeLoad_changes_of (hq := subParts_trans rfl hq) (eq_ := by assumption))
    | (with_reducible apply partLoad_changes_of (hq := subParts_trans rfl hq) (eq_ := by assumption))
    | with_reducible refine changes_ite ?_ ?_
    | (with_reducible refine changesParts_of ?_ ?_ ?_ ?_ ?_ ?_ ?_ ?_ ?_ ?_ ?_ ?_ ?_ ?_ ?_ ?_ ?_ ?_ ?_ ?_)
    | simp only [changes_mk]
    | with_reducible intro _
    | split
    | dsimp only [id])

end Sys2Proof.Machine
end

