-- ==== Sys2Proof/Laws/ChangesAttend.lean ====
section
/-!
SUPPORT. The blocks of the state that the operations of Sys2Proof/Machine/Attend.lean may change.
-/

namespace Sys2Proof.Machine

theorem execAttend_changes {Q : List Block} {s0 : State} {c : PressCmd} {s : State}  (hq : subParts [.dev, .maint, .forme, .codec, .tier, .clusters, .sched, .req, .pair, .near, .rma, .links, .free, .out] Q = true) {tt : State} (hk : OnlyChanges Q s0 s) (eq_ : execAttend c s = .next tt) : OnlyChanges Q s0 tt := by
  unfold execAttend at eq_
  repeat' (first | split at eq_ | dsimp only at eq_)
  all_goals (first | (injection eq_ with eq_; subst eq_) | (cases eq_))
  repeat' (first
    | with_reducible assumption
    | ((with_reducible refine .inr (subParts_mem hq ?_)); rfl)
    | with_reducible exact .inl rfl
    | with_reducible apply readOutcome_changes (hq := subParts_trans rfl hq)
    | with_reducible apply pressIssue_changes (hq := subParts_trans rfl hq)
    | (with_reducible apply readOutcome_changes_of (hq := subParts_trans rfl hq) (eq_ := by assumption))
    | with_reducible refine changes_ite ?_ ?_
    | (with_reducible refine changesParts_of ?_ ?_ ?_ ?_ ?_ ?_ ?_ ?_ ?_ ?_ ?_ ?_ ?_ ?_ ?_ ?_ ?_ ?_ ?_ ?_)
    | simp only [changes_mk]
    | with_reducible intro _
    | split
    | dsimp only [id])

end Sys2Proof.Machine
end

