-- ==== Sys2Proof/Laws/ChangesCapsules.lean ====
section
/-!
SUPPORT. The blocks of the state that the operations of Sys2Proof/Machine/Capsules.lean may change.
-/

namespace Sys2Proof.Machine

theorem admitCapsule_changes {Q : List Block} {s0 : State} {x : CapsuleCmd} {s : State}  (hq : subParts [.dev, .sec, .host, .req, .rma, .links, .free, .out] Q = true) (hk : OnlyChanges Q s0 s) :
    OnlyChanges Q s0 (admitCapsule x s) := by
  unfold admitCapsule
  repeat' (first
    | with_reducible assumption
    | ((with_reducible refine .inr (subParts_mem hq ?_)); rfl)
    | with_reducible exact .inl rfl
    | with_reducible apply capsuleRefuse_changes (hq := subParts_trans rfl hq)
    | with_reducible apply admitStart_changes (hq := subParts_trans rfl hq)
    | with_reducible refine changes_ite ?_ ?_
    | (with_reducible refine changesParts_of ?_ ?_ ?_ ?_ ?_ ?_ ?_ ?_ ?_ ?_ ?_ ?_ ?_ ?_ ?_ ?_ ?_ ?_ ?_ ?_)
    | simp only [changes_mk]
    | with_reducible intro _
    | split
    | dsimp only [id])

theorem resumeCapsuleAt_changes {Q : List Block} {s0 : State} {x : CapsuleCmd} {s : State}  (hq : subParts [.dev, .sec, .host, .req, .rma, .links, .out] Q = true) (hk : OnlyChanges Q s0 s) :
    OnlyChanges Q s0 (resumeCapsuleAt x s) := by
  unfold resumeCapsuleAt
  repeat' (first
    | with_reducible assumption
    | ((with_reducible refine .inr (subParts_mem hq ?_)); rfl)
    | with_reducible exact .inl rfl
    | with_reducible apply getD_changes
    | with_reducible apply capsuleRefuse_changes (hq := subParts_trans rfl hq)
    | with_reducible apply resumeAccept_changes (hq := subParts_trans rfl hq)
    | with_reducible apply seqAccept_changes (hq := subParts_trans rfl hq)
    | with_reducible refine changes_ite ?_ ?_
    | (with_reducible refine changesParts_of ?_ ?_ ?_ ?_ ?_ ?_ ?_ ?_ ?_ ?_ ?_ ?_ ?_ ?_ ?_ ?_ ?_ ?_ ?_ ?_)
    | simp only [changes_mk]
    | with_reducible intro _
    | split
    | dsimp only [id])

theorem cancelCapsuleAt_changes {Q : List Block} {s0 : State} {x : CapsuleCmd} {s : State}  (hq : subParts [.dev, .sec, .host, .req, .rma, .links, .out] Q = true) (hk : OnlyChanges Q s0 s) :
    OnlyChanges Q s0 (cancelCapsuleAt x s) := by
  unfold cancelCapsuleAt
  repeat' (first
    | with_reducible assumption
    | ((with_reducible refine .inr (subParts_mem hq ?_)); rfl)
    | with_reducible exact .inl rfl
    | with_reducible apply getD_changes
    | with_reducible apply capsuleRefuse_changes (hq := subParts_trans rfl hq)
    | with_reducible apply anchorCancel_changes (hq := subParts_trans rfl hq)
    | with_reducible apply seqAccept_changes (hq := subParts_trans rfl hq)
    | with_reducible apply postCq_changes (hq := subParts_trans rfl hq)
    | with_reducible refine changes_ite ?_ ?_
    | (with_reducible refine changesParts_of ?_ ?_ ?_ ?_ ?_ ?_ ?_ ?_ ?_ ?_ ?_ ?_ ?_ ?_ ?_ ?_ ?_ ?_ ?_ ?_)
    | simp only [changes_mk]
    | with_reducible intro _
    | split
    | dsimp only [id])

theorem endSession_changes {Q : List Block} {s0 : State} {session : Word} {s : State}  (hq : subParts [.sec, .req, .rma, .links, .out] Q = true) (hk : OnlyChanges Q s0 s) :
    OnlyChanges Q s0 (endSession session s) := by
  unfold endSession
  repeat' (first
    | with_reducible assumption
    | ((with_reducible refine .inr (subParts_mem hq ?_)); rfl)
    | with_reducible exact .inl rfl
    | with_reducible apply foldl_changes
    | with_reducible apply foldl_changes_fst
    | with_reducible apply foldl_changes_snd
    | with_reducible apply anchorCancel_changes (hq := subParts_trans rfl hq)
    | with_reducible refine changes_ite ?_ ?_
    | (with_reducible refine changesParts_of ?_ ?_ ?_ ?_ ?_ ?_ ?_ ?_ ?_ ?_ ?_ ?_ ?_ ?_ ?_ ?_ ?_ ?_ ?_ ?_)
    | simp only [changes_mk]
    | with_reducible intro _
    | split
    | dsimp only [id])

theorem sessionEndAt_changes {Q : List Block} {s0 : State} {x : CapsuleCmd} {s : State}  (hq : subParts [.dev, .sec, .host, .req, .rma, .links, .out] Q = true) (hk : OnlyChanges Q s0 s) :
    OnlyChanges Q s0 (sessionEndAt x s) := by
  unfold sessionEndAt
  repeat' (first
    | with_reducible assumption
    | ((with_reducible refine .inr (subParts_mem hq ?_)); rfl)
    | with_reducible exact .inl rfl
    | with_reducible apply capsuleRefuse_changes (hq := subParts_trans rfl hq)
    | with_reducible apply endSession_changes (hq := subParts_trans rfl hq)
    | with_reducible apply seqAccept_changes (hq := subParts_trans rfl hq)
    | with_reducible apply postCq_changes (hq := subParts_trans rfl hq)
    | with_reducible refine changes_ite ?_ ?_
    | (with_reducible refine changesParts_of ?_ ?_ ?_ ?_ ?_ ?_ ?_ ?_ ?_ ?_ ?_ ?_ ?_ ?_ ?_ ?_ ?_ ?_ ?_ ?_)
    | simp only [changes_mk]
    | with_reducible intro _
    | split
    | dsimp only [id])

theorem execCapsule_changes {Q : List Block} {s0 : State} {x : CapsuleCmd} {s : State}  (hq : subParts [.dev, .sec, .host, .req, .rma, .links, .free, .out] Q = true) {tt : State} (hk : OnlyChanges Q s0 s) (eq_ : execCapsule x s = .next tt) : OnlyChanges Q s0 tt := by
  unfold execCapsule at eq_
  repeat' (first | split at eq_ | dsimp only at eq_)
  all_goals (first | (injection eq_ with eq_; subst eq_) | (cases eq_))
  repeat' (first
    | with_reducible assumption
    | ((with_reducible refine .inr (subParts_mem hq ?_)); rfl)
    | with_reducible exact .inl rfl
    | with_reducible apply resumeCapsuleAt_changes (hq := subParts_trans rfl hq)
    | with_reducible apply cancelCapsuleAt_changes (hq := subParts_trans rfl hq)
    | with_reducible apply admitCapsule_changes (hq := subParts_trans rfl hq)
    | with_reducible apply sessionEndAt_changes (hq := subParts_trans rfl hq)
    | with_reducible apply takeEntry_changes (hq := subParts_trans rfl hq)
    | with_reducible refine changes_ite ?_ ?_
    | (with_reducible refine changesParts_of ?_ ?_ ?_ ?_ ?_ ?_ ?_ ?_ ?_ ?_ ?_ ?_ ?_ ?_ ?_ ?_ ?_ ?_ ?_ ?_)
    | simp only [changes_mk]
    | with_reducible intro _
    | split
    | dsimp only [id])

theorem execAdmitCapsule_changes {Q : List Block} {s0 : State} {x : CapsuleCmd} {s : State}  (hq : subParts [.dev, .sec, .host, .req, .rma, .links, .free, .out] Q = true) {tt : State} (hk : OnlyChanges Q s0 s) (eq_ : execAdmitCapsule x s = .next tt) : OnlyChanges Q s0 tt := by
  unfold execAdmitCapsule at eq_
  repeat' (first | split at eq_ | dsimp only at eq_)
  all_goals (first | (injection eq_ with eq_; subst eq_) | (cases eq_))
  repeat' (first
    | with_reducible assumption
    | ((with_reducible refine .inr (subParts_mem hq ?_)); rfl)
    | with_reducible exact .inl rfl
    | with_reducible apply admitCapsule_changes (hq := subParts_trans rfl hq)
    | with_reducible apply takeEntry_changes (hq := subParts_trans rfl hq)
    | with_reducible refine changes_ite ?_ ?_
    | (with_reducible refine changesParts_of ?_ ?_ ?_ ?_ ?_ ?_ ?_ ?_ ?_ ?_ ?_ ?_ ?_ ?_ ?_ ?_ ?_ ?_ ?_ ?_)
    | simp only [changes_mk]
    | with_reducible intro _
    | split
    | dsimp only [id])

theorem execResumeCapsule_changes {Q : List Block} {s0 : State} {x : CapsuleCmd} {s : State}  (hq : subParts [.dev, .sec, .host, .req, .rma, .links, .out] Q = true) {tt : State} (hk : OnlyChanges Q s0 s) (eq_ : execResumeCapsule x s = .next tt) : OnlyChanges Q s0 tt := by
  unfold execResumeCapsule at eq_
  repeat' (first | split at eq_ | dsimp only at eq_)
  all_goals (first | (injection eq_ with eq_; subst eq_) | (cases eq_))
  repeat' (first
    | with_reducible assumption
    | ((with_reducible refine .inr (subParts_mem hq ?_)); rfl)
    | with_reducible exact .inl rfl
    | with_reducible apply resumeCapsuleAt_changes (hq := subParts_trans rfl hq)
    | with_reducible apply takeEntry_changes (hq := subParts_trans rfl hq)
    | with_reducible refine changes_ite ?_ ?_
    | (with_reducible refine changesParts_of ?_ ?_ ?_ ?_ ?_ ?_ ?_ ?_ ?_ ?_ ?_ ?_ ?_ ?_ ?_ ?_ ?_ ?_ ?_ ?_)
    | simp only [changes_mk]
    | with_reducible intro _
    | split
    | dsimp only [id])

theorem execCancelCapsule_changes {Q : List Block} {s0 : State} {x : CapsuleCmd} {s : State}  (hq : subParts [.dev, .sec, .host, .req, .rma, .links, .out] Q = true) {tt : State} (hk : OnlyChanges Q s0 s) (eq_ : execCancelCapsule x s = .next tt) : OnlyChanges Q s0 tt := by
  unfold execCancelCapsule at eq_
  repeat' (first | split at eq_ | dsimp only at eq_)
  all_goals (first | (injection eq_ with eq_; subst eq_) | (cases eq_))
  repeat' (first
    | with_reducible assumption
    | ((with_reducible refine .inr (subParts_mem hq ?_)); rfl)
    | with_reducible exact .inl rfl
    | with_reducible apply cancelCapsuleAt_changes (hq := subParts_trans rfl hq)
    | with_reducible apply takeEntry_changes (hq := subParts_trans rfl hq)
    | with_reducible refine changes_ite ?_ ?_
    | (with_reducible refine changesParts_of ?_ ?_ ?_ ?_ ?_ ?_ ?_ ?_ ?_ ?_ ?_ ?_ ?_ ?_ ?_ ?_ ?_ ?_ ?_ ?_)
    | simp only [changes_mk]
    | with_reducible intro _
    | split
    | dsimp only [id])

theorem execSessionEnd_changes {Q : List Block} {s0 : State} {x : CapsuleCmd} {s : State}  (hq : subParts [.dev, .sec, .host, .req, .rma, .links, .out] Q = true) {tt : State} (hk : OnlyChanges Q s0 s) (eq_ : execSessionEnd x s = .next tt) : OnlyChanges Q s0 tt := by
  unfold execSessionEnd at eq_
  repeat' (first | split at eq_ | dsimp only at eq_)
  all_goals (first | (injection eq_ with eq_; subst eq_) | (cases eq_))
  repeat' (first
    | with_reducible assumption
    | ((with_reducible refine .inr (subParts_mem hq ?_)); rfl)
    | with_reducible exact .inl rfl
    | with_reducible apply sessionEndAt_changes (hq := subParts_trans rfl hq)
    | with_reducible apply takeEntry_changes (hq := subParts_trans rfl hq)
    | with_reducible refine changes_ite ?_ ?_
    | (with_reducible refine changesParts_of ?_ ?_ ?_ ?_ ?_ ?_ ?_ ?_ ?_ ?_ ?_ ?_ ?_ ?_ ?_ ?_ ?_ ?_ ?_ ?_)
    | simp only [changes_mk]
    | with_reducible intro _
    | split
    | dsimp only [id])

theorem execSqNop_changes {Q : List Block} {s0 : State} {r : RingRef} {e : SqEntry} {s : State} {tt : State} (hq : subParts [.host, .out] Q = true) (hk : OnlyChanges Q s0 s) (eq_ : execSqNop r e s = .next tt) : OnlyChanges Q s0 tt := by
  unfold execSqNop at eq_
  repeat' (first | split at eq_ | dsimp only at eq_)
  all_goals (first | (injection eq_ with eq_; subst eq_) | (cases eq_))
  repeat' (first
    | with_reducible assumption
    | ((with_reducible refine .inr (subParts_mem hq ?_)); rfl)
    | with_reducible exact .inl rfl
    | with_reducible apply takeEntry_changes (hq := subParts_trans rfl hq)
    | with_reducible apply postCq_changes (hq := subParts_trans rfl hq)
    | with_reducible refine changes_ite ?_ ?_
    | (with_reducible refine changesParts_of ?_ ?_ ?_ ?_ ?_ ?_ ?_ ?_ ?_ ?_ ?_ ?_ ?_ ?_ ?_ ?_ ?_ ?_ ?_ ?_)
    | simp only [changes_mk]
    | with_reducible intro _
    | split
    | dsimp only [id])

theorem execHostCancel_changes {Q : List Block} {s0 : State} {r : RingRef} {e : SqEntry} {s : State}  (hq : subParts [.host, .req, .rma, .links, .out] Q = true) {tt : State} (hk : OnlyChanges Q s0 s) (eq_ : execHostCancel r e s = .next tt) : OnlyChanges Q s0 tt := by
  unfold execHostCancel at eq_
  repeat' (first | split at eq_ | dsimp only at eq_)
  all_goals (first | (injection eq_ with eq_; subst eq_) | (cases eq_))
  repeat' (first
    | with_reducible assumption
    | ((with_reducible refine .inr (subParts_mem hq ?_)); rfl)
    | with_reducible exact .inl rfl
    | with_reducible apply anchorCancel_changes (hq := subParts_trans rfl hq)
    | with_reducible apply takeEntry_changes (hq := subParts_trans rfl hq)
    | with_reducible apply postCq_changes (hq := subParts_trans rfl hq)
    | with_reducible refine changes_ite ?_ ?_
    | (with_reducible refine changesParts_of ?_ ?_ ?_ ?_ ?_ ?_ ?_ ?_ ?_ ?_ ?_ ?_ ?_ ?_ ?_ ?_ ?_ ?_ ?_ ?_)
    | simp only [changes_mk]
    | with_reducible intro _
    | split
    | dsimp only [id])

theorem sessionOpen_changes {Q : List Block} {s0 : State} {m : SessionInit} {meas : List Digest} {s : State}  (hq : subParts [.sec, .drbg, .host, .free, .out] Q = true) (hk : OnlyChanges Q s0 s) :
    OnlyChanges Q s0 (sessionOpen m meas s) := by
  unfold sessionOpen
  repeat' (first
    | with_reducible assumption
    | ((with_reducible refine .inr (subParts_mem hq ?_)); rfl)
    | with_reducible exact .inl rfl
    | with_reducible apply postOut_changes (hq := subParts_trans rfl hq)
    | with_reducible apply postCq_changes (hq := subParts_trans rfl hq)
    | with_reducible apply draw_changes (hq := subParts_trans rfl hq)
    | (with_reducible apply draw_changes_of (hq := subParts_trans rfl hq) (eq_ := by assumption))
    | with_reducible refine changes_ite ?_ ?_
    | (with_reducible refine changesParts_of ?_ ?_ ?_ ?_ ?_ ?_ ?_ ?_ ?_ ?_ ?_ ?_ ?_ ?_ ?_ ?_ ?_ ?_ ?_ ?_)
    | simp only [changes_mk]
    | with_reducible intro _
    | split
    | dsimp only [id])

theorem execSessionInit_changes {Q : List Block} {s0 : State} {m : SessionInit} {s : State}  (hq : subParts [.dev, .sec, .drbg, .host, .free, .out] Q = true) {tt : State} (hk : OnlyChanges Q s0 s) (eq_ : execSessionInit m s = .next tt) : OnlyChanges Q s0 tt := by
  unfold execSessionInit at eq_
  repeat' (first | split at eq_ | dsimp only at eq_)
  all_goals (first | (injection eq_ with eq_; subst eq_) | (cases eq_))
  repeat' (first
    | with_reducible assumption
    | ((with_reducible refine .inr (subParts_mem hq ?_)); rfl)
    | with_reducible exact .inl rfl
    | with_reducible apply sessionOpen_changes (hq := subParts_trans rfl hq)
    | with_reducible apply takeEntry_changes (hq := subParts_trans rfl hq)
    | with_reducible apply authFail_changes (hq := subParts_trans rfl hq)
    | with_reducible apply postCq_changes (hq := subParts_trans rfl hq)
    | with_reducible refine changes_ite ?_ ?_
    | (with_reducible refine changesParts_of ?_ ?_ ?_ ?_ ?_ ?_ ?_ ?_ ?_ ?_ ?_ ?_ ?_ ?_ ?_ ?_ ?_ ?_ ?_ ?_)
    | simp only [changes_mk]
    | with_reducible intro _
    | split
    | dsimp only [id])

theorem execSessionFinish_changes {Q : List Block} {s0 : State} {m : SessionFinish} {s : State}  (hq : subParts [.sec, .host, .out] Q = true) {tt : State} (hk : OnlyChanges Q s0 s) (eq_ : execSessionFinish m s = .next tt) : OnlyChanges Q s0 tt := by
  unfold execSessionFinish at eq_
  repeat' (first | split at eq_ | dsimp only at eq_)
  all_goals (first | (injection eq_ with eq_; subst eq_) | (cases eq_))
  repeat' (first
    | with_reducible assumption
    | ((with_reducible refine .inr (subParts_mem hq ?_)); rfl)
    | with_reducible exact .inl rfl
    | with_reducible apply takeEntry_changes (hq := subParts_trans rfl hq)
    | with_reducible apply postCq_changes (hq := subParts_trans rfl hq)
    | with_reducible refine changes_ite ?_ ?_
    | (with_reducible refine changesParts_of ?_ ?_ ?_ ?_ ?_ ?_ ?_ ?_ ?_ ?_ ?_ ?_ ?_ ?_ ?_ ?_ ?_ ?_ ?_ ?_)
    | simp only [changes_mk]
    | with_reducible intro _
    | split
    | dsimp only [id])

theorem execSessionTimeout_changes {Q : List Block} {s0 : State} {session : Word} {s : State}  (hq : subParts [.sec] Q = true) {tt : State} (hk : OnlyChanges Q s0 s) (eq_ : execSessionTimeout session s = .next tt) : OnlyChanges Q s0 tt := by
  unfold execSessionTimeout at eq_
  repeat' (first | split at eq_ | dsimp only at eq_)
  all_goals (first | (injection eq_ with eq_; subst eq_) | (cases eq_))
  repeat' (first
    | with_reducible assumption
    | ((with_reducible refine .inr (subParts_mem hq ?_)); rfl)
    | with_reducible exact .inl rfl
    | with_reducible refine changes_ite ?_ ?_
    | (with_reducible refine changesParts_of ?_ ?_ ?_ ?_ ?_ ?_ ?_ ?_ ?_ ?_ ?_ ?_ ?_ ?_ ?_ ?_ ?_ ?_ ?_ ?_)
    | simp only [changes_mk]
    | with_reducible intro _
    | split
    | dsimp only [id])

theorem execShard_changes {Q : List Block} {s0 : State} {m : ShardCmd} {s : State} {tt : State} (hq : subParts [.host, .repro, .rma, .links, .free, .out] Q = true) (hk : OnlyChanges Q s0 s) (eq_ : execShard m s = .next tt) : OnlyChanges Q s0 tt := by
  unfold execShard at eq_
  repeat' (first | split at eq_ | dsimp only at eq_)
  all_goals (first | (injection eq_ with eq_; subst eq_) | (cases eq_))
  repeat' (first
    | with_reducible assumption
    | ((with_reducible refine .inr (subParts_mem hq ?_)); rfl)
    | with_reducible exact .inl rfl
    | with_reducible apply shardEnds_changes (hq := subParts_trans rfl hq)
    | with_reducible apply dataDrain_changes (hq := subParts_trans rfl hq)
    | with_reducible apply bumpFree_changes (hq := subParts_trans rfl hq)
    | with_reducible apply takeEntry_changes (hq := subParts_trans rfl hq)
    | with_reducible apply postCq_changes (hq := subParts_trans rfl hq)
    | with_reducible apply sendFw_changes (hq := subParts_trans rfl hq)
    | with_reducible refine changes_ite ?_ ?_
    | (with_reducible refine changesParts_of ?_ ?_ ?_ ?_ ?_ ?_ ?_ ?_ ?_ ?_ ?_ ?_ ?_ ?_ ?_ ?_ ?_ ?_ ?_ ?_)
    | simp only [changes_mk]
    | with_reducible intro _
    | split
    | dsimp only [id])

end Sys2Proof.Machine
end

