-- ==== Sys2Proof/Laws/ChangesFormeLoad.lean ====
section
/-!
SUPPORT. The blocks of the state that the operations of Sys2Proof/Machine/FormeLoad.lean may change.
-/

namespace Sys2Proof.Machine

theorem candidate_changes {Q : List Block} {s0 : State} {c : Committed} {full : Bool} {s : State} (hq : subParts [.forme, .repro] Q = true) (hk : OnlyChanges Q s0 s) :
    OnlyChanges Q s0 (candidate c full s) := by
  unfold candidate
  repeat' (first
    | with_reducible assumption
    | ((with_reducible refine .inr (subParts_mem hq ?_)); rfl)
    | with_reducible exact .inl rfl
    | with_reducible apply initialMaps_changes (hq := subParts_trans rfl hq)
    | with_reducible refine changes_ite ?_ ?_
    | (with_reducible refine changesParts_of ?_ ?_ ?_ ?_ ?_ ?_ ?_ ?_ ?_ ?_ ?_ ?_ ?_ ?_ ?_ ?_ ?_ ?_ ?_ ?_)
    | simp only [changes_mk]
    | with_reducible intro _
    | split
    | dsimp only [id])

theorem judged_changes {Q : List Block} {s0 : State} {v : State} {n : Nat} {x : ClusterProgram} (hq : subParts [.clusters] Q = true) (hk : OnlyChanges Q s0 v) :
    OnlyChanges Q s0 (judged v n x) := by
  unfold judged
  repeat' (first
    | with_reducible assumption
    | ((with_reducible refine .inr (subParts_mem hq ?_)); rfl)
    | with_reducible exact .inl rfl
    | with_reducible apply clusterUpd_changes (hq := subParts_trans rfl hq)
    | with_reducible refine changes_ite ?_ ?_
    | (with_reducible refine changesParts_of ?_ ?_ ?_ ?_ ?_ ?_ ?_ ?_ ?_ ?_ ?_ ?_ ?_ ?_ ?_ ?_ ?_ ?_ ?_ ?_)
    | simp only [changes_mk]
    | with_reducible intro _
    | split
    | dsimp only [id])

end Sys2Proof.Machine
end

