-- ==== Sys2Proof/Laws/ChangesNotices.lean ====
section
/-!
SUPPORT. The blocks of the state that the operations of Sys2Proof/Machine/Notices.lean may change.
-/

namespace Sys2Proof.Machine

theorem noticeEnter_changes {Q : List Block} {s0 : State} {n : Nat} {op : POp} {flags : BitVec 8} {d : Desc} {run : Run} {reads : List (Nat × Nat × Nat)} {taken : List Eff} {slots : List Nat} {ch : Nat} {msg : List Byte} {s : State} (hq : subParts [.dev, .maint, .forme, .codec, .tier, .clusters, .req, .pair, .near, .rma, .links, .free, .out] Q = true) (hk : OnlyChanges Q s0 s) :
    OnlyChanges Q s0 (noticeEnter n op flags d run reads taken slots ch msg s) := by
  unfold noticeEnter
  repeat' (first
    | with_reducible assumption
    | ((with_reducible refine .inr (subParts_mem hq ?_)); rfl)
    | with_reducible exact .inl rfl
    | with_reducible apply clusterUpd_changes (hq := subParts_trans rfl hq)
    | with_reducible apply enter_changes (hq := subParts_trans rfl hq)
    | with_reducible refine changes_ite ?_ ?_
    | (with_reducible refine changesParts_of ?_ ?_ ?_ ?_ ?_ ?_ ?_ ?_ ?_ ?_ ?_ ?_ ?_ ?_ ?_ ?_ ?_ ?_ ?_ ?_)
    | simp only [changes_mk]
    | with_reducible intro _
    | split
    | dsimp only [id])

theorem noticeRefuse_changes {Q : List Block} {s0 : State} {n : Nat} {flags : BitVec 8} {m : NoticeMsg} {c : Status} {ch : Nat} {s : State} (hq : subParts [.dev, .maint, .forme, .codec, .tier, .clusters, .req, .pair, .near, .rma, .links, .free, .out] Q = true) (hk : OnlyChanges Q s0 s) :
    OnlyChanges Q s0 (noticeRefuse n flags m c ch s) := by
  unfold noticeRefuse
  repeat' (first
    | with_reducible assumption
    | ((with_reducible refine .inr (subParts_mem hq ?_)); rfl)
    | with_reducible exact .inl rfl
    | with_reducible apply noticeEnter_changes (hq := subParts_trans rfl hq)
    | with_reducible refine changes_ite ?_ ?_
    | (with_reducible refine changesParts_of ?_ ?_ ?_ ?_ ?_ ?_ ?_ ?_ ?_ ?_ ?_ ?_ ?_ ?_ ?_ ?_ ?_ ?_ ?_ ?_)
    | simp only [changes_mk]
    | with_reducible intro _
    | split
    | dsimp only [id])

theorem noticeFails_changes {Q : List Block} {s0 : State} {n : Nat} {flags : BitVec 8} {m : NoticeMsg} {ch : Nat} {c : Status} {cause : Nat} {s : State} (hq : subParts [.dev, .maint, .forme, .codec, .tier, .clusters, .req, .pair, .near, .rma, .links, .free, .out] Q = true) (hk : OnlyChanges Q s0 s) :
    OnlyChanges Q s0 (noticeFails n flags m ch c cause s) := by
  unfold noticeFails
  repeat' (first
    | with_reducible assumption
    | ((with_reducible refine .inr (subParts_mem hq ?_)); rfl)
    | with_reducible exact .inl rfl
    | with_reducible apply noticeRefuse_changes (hq := subParts_trans rfl hq)
    | with_reducible apply endItem_changes (hq := subParts_trans rfl hq)
    | with_reducible refine changes_ite ?_ ?_
    | (with_reducible refine changesParts_of ?_ ?_ ?_ ?_ ?_ ?_ ?_ ?_ ?_ ?_ ?_ ?_ ?_ ?_ ?_ ?_ ?_ ?_ ?_ ?_)
    | simp only [changes_mk]
    | with_reducible intro _
    | split
    | dsimp only [id])

theorem noticeFault_changes {Q : List Block} {s0 : State} {n : Nat} {m : NoticeMsg} {ch : Nat} {s : State} (hq : subParts [.dev, .maint, .tier, .clusters, .sched, .req, .near, .rma, .links, .out] Q = true) (hk : OnlyChanges Q s0 s) :
    OnlyChanges Q s0 (noticeFault n m ch s) := by
  unfold noticeFault
  repeat' (first
    | with_reducible assumption
    | ((with_reducible refine .inr (subParts_mem hq ?_)); rfl)
    | with_reducible exact .inl rfl
    | with_reducible apply clusterFault_changes (hq := subParts_trans rfl hq)
    | with_reducible apply channelUpd_changes (hq := subParts_trans rfl hq)
    | with_reducible apply sendMessage_changes (hq := subParts_trans rfl hq)
    | with_reducible refine changes_ite ?_ ?_
    | (with_reducible refine changesParts_of ?_ ?_ ?_ ?_ ?_ ?_ ?_ ?_ ?_ ?_ ?_ ?_ ?_ ?_ ?_ ?_ ?_ ?_ ?_ ?_)
    | simp only [changes_mk]
    | with_reducible intro _
    | split
    | dsimp only [id])

theorem noticeServe_changes {Q : List Block} {s0 : State} {sender : DevId} {m : NoticeMsg} {c : PressCmd} {ch : Nat} {s : State} (hq : subParts [.dev, .maint, .forme, .codec, .tier, .clusters, .sched, .req, .pair, .near, .rma, .links, .free, .out] Q = true) (hk : OnlyChanges Q s0 s) :
    OnlyChanges Q s0 (noticeServe sender m c ch s) := by
  unfold noticeServe
  repeat' (first
    | with_reducible assumption
    | ((with_reducible refine .inr (subParts_mem hq ?_)); rfl)
    | with_reducible exact .inl rfl
    | with_reducible apply getD_changes
    | with_reducible apply clusterUpd_changes (hq := subParts_trans rfl hq)
    | with_reducible apply itemLost_changes (hq := subParts_trans rfl hq)
    | with_reducible apply viewOf_changes (hq := subParts_trans rfl hq)
    | with_reducible apply noticeFault_changes (hq := subParts_trans rfl hq)
    | with_reducible apply noticeFails_changes (hq := subParts_trans rfl hq)
    | with_reducible apply noticeRefuse_changes (hq := subParts_trans rfl hq)
    | with_reducible apply noticeEnter_changes (hq := subParts_trans rfl hq)
    | with_reducible apply readOutcome_changes (hq := subParts_trans rfl hq)
    | with_reducible apply slugLost_changes (hq := subParts_trans rfl hq)
    | (with_reducible apply readOutcome_changes_of (hq := subParts_trans rfl hq) (eq_ := by assumption))
    | with_reducible refine changes_ite ?_ ?_
    | (with_reducible refine changesParts_of ?_ ?_ ?_ ?_ ?_ ?_ ?_ ?_ ?_ ?_ ?_ ?_ ?_ ?_ ?_ ?_ ?_ ?_ ?_ ?_)
    | simp only [changes_mk]
    | with_reducible intro _
    | split
    | dsimp only [id])

theorem requestNotice_changes {Q : List Block} {s0 : State} {sender : DevId} {m : NoticeMsg} {c : PressCmd} {rch : Nat} {ch : Nat} {s : State} (hq : subParts [.dev, .maint, .forme, .codec, .tier, .clusters, .sched, .req, .pair, .near, .rma, .links, .free, .out] Q = true) (hk : OnlyChanges Q s0 s) :
    OnlyChanges Q s0 (requestNotice sender m c rch ch s) := by
  unfold requestNotice
  repeat' (first
    | with_reducible assumption
    | ((with_reducible refine .inr (subParts_mem hq ?_)); rfl)
    | with_reducible exact .inl rfl
    | with_reducible apply getD_changes
    | with_reducible apply countEcc_changes (hq := subParts_trans rfl hq)
    | with_reducible apply noticeServe_changes (hq := subParts_trans rfl hq)
    | with_reducible apply noticeRefuse_changes (hq := subParts_trans rfl hq)
    | with_reducible apply dropHead_changes (hq := subParts_trans rfl hq)
    | with_reducible refine changes_ite ?_ ?_
    | (with_reducible refine changesParts_of ?_ ?_ ?_ ?_ ?_ ?_ ?_ ?_ ?_ ?_ ?_ ?_ ?_ ?_ ?_ ?_ ?_ ?_ ?_ ?_)
    | simp only [changes_mk]
    | with_reducible intro _
    | split
    | dsimp only [id])

theorem execRequestNotice_changes {Q : List Block} {s0 : State} {sender : DevId} {m : NoticeMsg} {c : PressCmd} {ch : NoticeChans} {s : State} {tt : State} (hq : subParts [.dev, .maint, .forme, .codec, .tier, .clusters, .sched, .req, .pair, .near, .rma, .links, .free, .out] Q = true) (hk : OnlyChanges Q s0 s) (eq_ : execRequestNotice sender m c ch s = .next tt) : OnlyChanges Q s0 tt := by
  unfold execRequestNotice at eq_
  repeat' (first | split at eq_ | dsimp only at eq_)
  all_goals (first | (injection eq_ with eq_; subst eq_) | (cases eq_))
  repeat' (first
    | with_reducible assumption
    | ((with_reducible refine .inr (subParts_mem hq ?_)); rfl)
    | with_reducible exact .inl rfl
    | with_reducible apply requestNotice_changes (hq := subParts_trans rfl hq)
    | with_reducible refine changes_ite ?_ ?_
    | (with_reducible refine changesParts_of ?_ ?_ ?_ ?_ ?_ ?_ ?_ ?_ ?_ ?_ ?_ ?_ ?_ ?_ ?_ ?_ ?_ ?_ ?_ ?_)
    | simp only [changes_mk]
    | with_reducible intro _
    | split
    | dsimp only [id])

theorem replyNotice_changes {Q : List Block} {s0 : State} {n : Nat} {ch : Nat} {m : ReplyMsg} {rowtab : DWord} {s : State} (hq : subParts [.dev, .maint, .clusters, .sched, .req, .near, .rma, .links, .out] Q = true) (hk : OnlyChanges Q s0 s) :
    OnlyChanges Q s0 (replyNotice n ch m rowtab s) := by
  unfold replyNotice
  repeat' (first
    | with_reducible assumption
    | ((with_reducible refine .inr (subParts_mem hq ?_)); rfl)
    | with_reducible exact .inl rfl
    | with_reducible apply getD_changes
    | with_reducible apply clusterUpd_changes (hq := subParts_trans rfl hq)
    | with_reducible apply discardStale_changes (hq := subParts_trans rfl hq)
    | with_reducible apply dropHead_changes (hq := subParts_trans rfl hq)
    | with_reducible refine changes_ite ?_ ?_
    | (with_reducible refine changesParts_of ?_ ?_ ?_ ?_ ?_ ?_ ?_ ?_ ?_ ?_ ?_ ?_ ?_ ?_ ?_ ?_ ?_ ?_ ?_ ?_)
    | simp only [changes_mk]
    | with_reducible intro _
    | split
    | dsimp only [id])

theorem execReplyNotice_changes {Q : List Block} {s0 : State} {cl : ClusterId} {ch : BitVec 5} {m : ReplyTaken} {s : State} {tt : State} (hq : subParts [.dev, .maint, .clusters, .sched, .req, .near, .rma, .links, .out] Q = true) (hk : OnlyChanges Q s0 s) (eq_ : execReplyNotice cl ch m s = .next tt) : OnlyChanges Q s0 tt := by
  unfold execReplyNotice at eq_
  repeat' (first | split at eq_ | dsimp only at eq_)
  all_goals (first | (injection eq_ with eq_; subst eq_) | (cases eq_))
  repeat' (first
    | with_reducible assumption
    | ((with_reducible refine .inr (subParts_mem hq ?_)); rfl)
    | with_reducible exact .inl rfl
    | with_reducible apply replyNotice_changes (hq := subParts_trans rfl hq)
    | with_reducible refine changes_ite ?_ ?_
    | (with_reducible refine changesParts_of ?_ ?_ ?_ ?_ ?_ ?_ ?_ ?_ ?_ ?_ ?_ ?_ ?_ ?_ ?_ ?_ ?_ ?_ ?_ ?_)
    | simp only [changes_mk]
    | with_reducible intro _
    | split
    | dsimp only [id])

end Sys2Proof.Machine
end

