-- ==== Sys2Proof/Laws/ChangesRegs.lean ====
section
/-!
SUPPORT. The blocks of the state that the operations of Sys2Proof/Machine/Regs.lean may change.
-/

namespace Sys2Proof.Machine

theorem tmrCount_changes {Q : List Block} {s0 : State} {differ : Bool} {s : State}  (hq : subParts [.dev] Q = true) (hk : OnlyChanges Q s0 s) :
    OnlyChanges Q s0 (tmrCount differ s) := by
  unfold tmrCount
  repeat' (first
    | with_reducible assumption
    | ((with_reducible refine .inr (subParts_mem hq ?_)); rfl)
    | with_reducible exact .inl rfl
    | with_reducible apply noteErr_changes (hq := subParts_trans rfl hq)
    | with_reducible refine changes_ite ?_ ?_
    | (with_reducible refine changesParts_of ?_ ?_ ?_ ?_ ?_ ?_ ?_ ?_ ?_ ?_ ?_ ?_ ?_ ?_ ?_ ?_ ?_ ?_ ?_ ?_)
    | simp only [changes_mk]
    | with_reducible intro _
    | split
    | dsimp only [id])

theorem tmrFixed_changes {Q : List Block} {s0 : State} {reg : Nat} {copy : Nat} {v : Word} {s : State}  (hq : subParts [.dev, .maint] Q = true) (hk : OnlyChanges Q s0 s) :
    OnlyChanges Q s0 (tmrFixed reg copy v s) := by
  unfold tmrFixed
  repeat' (first
    | with_reducible assumption
    | ((with_reducible refine .inr (subParts_mem hq ?_)); rfl)
    | with_reducible exact .inl rfl
    | with_reducible apply tmrCount_changes (hq := subParts_trans rfl hq)
    | with_reducible refine changes_ite ?_ ?_
    | (with_reducible refine changesParts_of ?_ ?_ ?_ ?_ ?_ ?_ ?_ ?_ ?_ ?_ ?_ ?_ ?_ ?_ ?_ ?_ ?_ ?_ ?_ ?_)
    | simp only [changes_mk]
    | with_reducible intro _
    | split
    | dsimp only [id])

theorem execTmrFix_changes {Q : List Block} {s0 : State} {reg : BitVec 2} {copy : BitVec 2} {v : Word} {s : State}  (hq : subParts [.dev, .maint] Q = true) {tt : State} (hk : OnlyChanges Q s0 s) (eq_ : execTmrFix reg copy v s = .next tt) : OnlyChanges Q s0 tt := by
  unfold execTmrFix at eq_
  repeat' (first | split at eq_ | dsimp only at eq_)
  all_goals (first | (injection eq_ with eq_; subst eq_) | (cases eq_))
  repeat' (first
    | with_reducible assumption
    | ((with_reducible refine .inr (subParts_mem hq ?_)); rfl)
    | with_reducible exact .inl rfl
    | with_reducible apply tmrFixed_changes (hq := subParts_trans rfl hq)
    | with_reducible refine changes_ite ?_ ?_
    | (with_reducible refine changesParts_of ?_ ?_ ?_ ?_ ?_ ?_ ?_ ?_ ?_ ?_ ?_ ?_ ?_ ?_ ?_ ?_ ?_ ?_ ?_ ?_)
    | simp only [changes_mk]
    | with_reducible intro _
    | split
    | dsimp only [id])

theorem rcReg_changes_of {Q : List Block} {s0 : State} {s : State} {off : Nat}  (hq : subParts [.dev, .maint, .clusters] Q = true) {tt : State} {c0 : _} {c1 : _} (eq_ : rcReg s off = some (c0, c1, tt)) (hk : OnlyChanges Q s0 s) : OnlyChanges Q s0 tt := by
  unfold rcReg at eq_
  repeat' (first | split at eq_ | dsimp only at eq_)
  all_goals (first | (cases eq_; done) | (cases eq_) | skip)
  repeat' (first
    | with_reducible assumption
    | ((with_reducible refine .inr (subParts_mem hq ?_)); rfl)
    | with_reducible exact .inl rfl
    | with_reducible apply clusterUpd_changes (hq := subParts_trans rfl hq)
    | with_reducible refine changes_ite ?_ ?_
    | (with_reducible refine changesParts_of ?_ ?_ ?_ ?_ ?_ ?_ ?_ ?_ ?_ ?_ ?_ ?_ ?_ ?_ ?_ ?_ ?_ ?_ ?_ ?_)
    | simp only [changes_mk]
    | with_reducible intro _
    | split
    | dsimp only [id])

theorem plainRead_changes {Q : List Block} {s0 : State} {fn : FnId} {off : Nat} {s : State} (hq : subParts [.out] Q = true) (hk : OnlyChanges Q s0 s) :
    OnlyChanges Q s0 (plainRead fn off s) := by
  unfold plainRead
  repeat' (first
    | with_reducible assumption
    | ((with_reducible refine .inr (subParts_mem hq ?_)); rfl)
    | with_reducible exact .inl rfl
    | with_reducible apply emit_changes (hq := subParts_trans rfl hq)
    | with_reducible refine changes_ite ?_ ?_
    | (with_reducible refine changesParts_of ?_ ?_ ?_ ?_ ?_ ?_ ?_ ?_ ?_ ?_ ?_ ?_ ?_ ?_ ?_ ?_ ?_ ?_ ?_ ?_)
    | simp only [changes_mk]
    | with_reducible intro _
    | split
    | dsimp only [id])

theorem rcRead_changes {Q : List Block} {s0 : State} {fn : FnId} {off : Nat} {s : State} (hq : subParts [.dev, .maint, .clusters, .out] Q = true) (hk : OnlyChanges Q s0 s) :
    OnlyChanges Q s0 (rcRead fn off s) := by
  unfold rcRead
  repeat' (first
    | with_reducible assumption
    | ((with_reducible refine .inr (subParts_mem hq ?_)); rfl)
    | with_reducible exact .inl rfl
    | with_reducible apply plainRead_changes (hq := subParts_trans rfl hq)
    | with_reducible apply emit_changes (hq := subParts_trans rfl hq)
    | (with_reducible apply rcReg_changes_of (hq := subParts_trans rfl hq) (eq_ := by assumption))
    | with_reducible refine changes_ite ?_ ?_
    | (with_reducible refine changesParts_of ?_ ?_ ?_ ?_ ?_ ?_ ?_ ?_ ?_ ?_ ?_ ?_ ?_ ?_ ?_ ?_ ?_ ?_ ?_ ?_)
    | simp only [changes_mk]
    | with_reducible intro _
    | split
    | dsimp only [id])

theorem execRcRead_changes {Q : List Block} {s0 : State} {fn : FnId} {off : Nat} {s : State}  (hq : subParts [.dev, .maint, .clusters, .out] Q = true) {tt : State} (hk : OnlyChanges Q s0 s) (eq_ : execRcRead fn off s = .next tt) : OnlyChanges Q s0 tt := by
  unfold execRcRead at eq_
  repeat' (first | split at eq_ | dsimp only at eq_)
  all_goals (first | (injection eq_ with eq_; subst eq_) | (cases eq_))
  repeat' (first
    | with_reducible assumption
    | ((with_reducible refine .inr (subParts_mem hq ?_)); rfl)
    | with_reducible exact .inl rfl
    | with_reducible apply rcRead_changes (hq := subParts_trans rfl hq)
    | with_reducible refine changes_ite ?_ ?_
    | (with_reducible refine changesParts_of ?_ ?_ ?_ ?_ ?_ ?_ ?_ ?_ ?_ ?_ ?_ ?_ ?_ ?_ ?_ ?_ ?_ ?_ ?_ ?_)
    | simp only [changes_mk]
    | with_reducible intro _
    | split
    | dsimp only [id])

theorem readLo_changes {Q : List Block} {s0 : State} {fn : FnId} {off : Nat} {x : Bool × Bool × Nat} {s : State} (hq : subParts [.dev, .out] Q = true) (hk : OnlyChanges Q s0 s) :
    OnlyChanges Q s0 (readLo fn off x s) := by
  unfold readLo
  repeat' (first
    | with_reducible assumption
    | ((with_reducible refine .inr (subParts_mem hq ?_)); rfl)
    | with_reducible exact .inl rfl
    | with_reducible apply emit_changes (hq := subParts_trans rfl hq)
    | with_reducible refine changes_ite ?_ ?_
    | (with_reducible refine changesParts_of ?_ ?_ ?_ ?_ ?_ ?_ ?_ ?_ ?_ ?_ ?_ ?_ ?_ ?_ ?_ ?_ ?_ ?_ ?_ ?_)
    | simp only [changes_mk]
    | with_reducible intro _
    | split
    | dsimp only [id])

theorem readHi_changes {Q : List Block} {s0 : State} {fn : FnId} {off : Nat} {x : Bool × Bool × Nat} {s : State} (hq : subParts [.dev, .out] Q = true) (hk : OnlyChanges Q s0 s) :
    OnlyChanges Q s0 (readHi fn off x s) := by
  unfold readHi
  repeat' (first
    | with_reducible assumption
    | ((with_reducible refine .inr (subParts_mem hq ?_)); rfl)
    | with_reducible exact .inl rfl
    | with_reducible apply emit_changes (hq := subParts_trans rfl hq)
    | with_reducible refine changes_ite ?_ ?_
    | (with_reducible refine changesParts_of ?_ ?_ ?_ ?_ ?_ ?_ ?_ ?_ ?_ ?_ ?_ ?_ ?_ ?_ ?_ ?_ ?_ ?_ ?_ ?_)
    | simp only [changes_mk]
    | with_reducible intro _
    | split
    | dsimp only [id])

theorem pairRead_changes {Q : List Block} {s0 : State} {fn : FnId} {off : Nat} {s : State} (hq : subParts [.dev, .out] Q = true) (hk : OnlyChanges Q s0 s) :
    OnlyChanges Q s0 (pairRead fn off s) := by
  unfold pairRead
  repeat' (first
    | with_reducible assumption
    | ((with_reducible refine .inr (subParts_mem hq ?_)); rfl)
    | with_reducible exact .inl rfl
    | with_reducible apply readHi_changes (hq := subParts_trans rfl hq)
    | with_reducible apply readLo_changes (hq := subParts_trans rfl hq)
    | with_reducible apply plainRead_changes (hq := subParts_trans rfl hq)
    | with_reducible refine changes_ite ?_ ?_
    | (with_reducible refine changesParts_of ?_ ?_ ?_ ?_ ?_ ?_ ?_ ?_ ?_ ?_ ?_ ?_ ?_ ?_ ?_ ?_ ?_ ?_ ?_ ?_)
    | simp only [changes_mk]
    | with_reducible intro _
    | split
    | dsimp only [id])

theorem execLoReadCapture_changes {Q : List Block} {s0 : State} {fn : FnId} {off : Nat} {s : State}  (hq : subParts [.dev, .out] Q = true) {tt : State} (hk : OnlyChanges Q s0 s) (eq_ : execLoReadCapture fn off s = .next tt) : OnlyChanges Q s0 tt := by
  unfold execLoReadCapture at eq_
  repeat' (first | split at eq_ | dsimp only at eq_)
  all_goals (first | (injection eq_ with eq_; subst eq_) | (cases eq_))
  repeat' (first
    | with_reducible assumption
    | ((with_reducible refine .inr (subParts_mem hq ?_)); rfl)
    | with_reducible exact .inl rfl
    | with_reducible apply pairRead_changes (hq := subParts_trans rfl hq)
    | with_reducible refine changes_ite ?_ ?_
    | (with_reducible refine changesParts_of ?_ ?_ ?_ ?_ ?_ ?_ ?_ ?_ ?_ ?_ ?_ ?_ ?_ ?_ ?_ ?_ ?_ ?_ ?_ ?_)
    | simp only [changes_mk]
    | with_reducible intro _
    | split
    | dsimp only [id])

theorem accessRefused_changes {Q : List Block} {s0 : State} {a : Access} {s : State} (hq : subParts [.dev, .out] Q = true) (hk : OnlyChanges Q s0 s) :
    OnlyChanges Q s0 (accessRefused a s) := by
  unfold accessRefused
  repeat' (first
    | with_reducible assumption
    | ((with_reducible refine .inr (subParts_mem hq ?_)); rfl)
    | with_reducible exact .inl rfl
    | with_reducible apply noteErr_changes (hq := subParts_trans rfl hq)
    | with_reducible apply emit_changes (hq := subParts_trans rfl hq)
    | with_reducible refine changes_ite ?_ ?_
    | (with_reducible refine changesParts_of ?_ ?_ ?_ ?_ ?_ ?_ ?_ ?_ ?_ ?_ ?_ ?_ ?_ ?_ ?_ ?_ ?_ ?_ ?_ ?_)
    | simp only [changes_mk]
    | with_reducible intro _
    | split
    | dsimp only [id])

theorem execRegisterAccessRefused_changes {Q : List Block} {s0 : State} {a : Access} {s : State}  (hq : subParts [.dev, .out] Q = true) {tt : State} (hk : OnlyChanges Q s0 s) (eq_ : execRegisterAccessRefused a s = .next tt) : OnlyChanges Q s0 tt := by
  unfold execRegisterAccessRefused at eq_
  repeat' (first | split at eq_ | dsimp only at eq_)
  all_goals (first | (injection eq_ with eq_; subst eq_) | (cases eq_))
  repeat' (first
    | with_reducible assumption
    | ((with_reducible refine .inr (subParts_mem hq ?_)); rfl)
    | with_reducible exact .inl rfl
    | with_reducible apply accessRefused_changes (hq := subParts_trans rfl hq)
    | with_reducible refine changes_ite ?_ ?_
    | (with_reducible refine changesParts_of ?_ ?_ ?_ ?_ ?_ ?_ ?_ ?_ ?_ ?_ ?_ ?_ ?_ ?_ ?_ ?_ ?_ ?_ ?_ ?_)
    | simp only [changes_mk]
    | with_reducible intro _
    | split
    | dsimp only [id])

theorem putForme_changes {Q : List Block} {s0 : State} {o : Nat} {v : Word} {s : State}  (hq : subParts [.forme] Q = true) (hk : OnlyChanges Q s0 s) :
    OnlyChanges Q s0 (putForme o v s) := by
  unfold putForme
  repeat' (first
    | with_reducible assumption
    | ((with_reducible refine .inr (subParts_mem hq ?_)); rfl)
    | with_reducible exact .inl rfl
    | with_reducible refine changes_ite ?_ ?_
    | (with_reducible refine changesParts_of ?_ ?_ ?_ ?_ ?_ ?_ ?_ ?_ ?_ ?_ ?_ ?_ ?_ ?_ ?_ ?_ ?_ ?_ ?_ ?_)
    | simp only [changes_mk]
    | with_reducible intro _
    | split
    | dsimp only [id])

theorem putSched_changes {Q : List Block} {s0 : State} {o : Nat} {v : Word} {s : State}  (hq : subParts [.sched] Q = true) (hk : OnlyChanges Q s0 s) :
    OnlyChanges Q s0 (putSched o v s) := by
  unfold putSched
  repeat' (first
    | with_reducible assumption
    | ((with_reducible refine .inr (subParts_mem hq ?_)); rfl)
    | with_reducible exact .inl rfl
    | with_reducible refine changes_ite ?_ ?_
    | (with_reducible refine changesParts_of ?_ ?_ ?_ ?_ ?_ ?_ ?_ ?_ ?_ ?_ ?_ ?_ ?_ ?_ ?_ ?_ ?_ ?_ ?_ ?_)
    | simp only [changes_mk]
    | with_reducible intro _
    | split
    | dsimp only [id])

theorem putPair_changes {Q : List Block} {s0 : State} {o : Nat} {v : Word} {s : State}  (hq : subParts [.pair] Q = true) (hk : OnlyChanges Q s0 s) :
    OnlyChanges Q s0 (putPair o v s) := by
  unfold putPair
  repeat' (first
    | with_reducible assumption
    | ((with_reducible refine .inr (subParts_mem hq ?_)); rfl)
    | with_reducible exact .inl rfl
    | with_reducible refine changes_ite ?_ ?_
    | (with_reducible refine changesParts_of ?_ ?_ ?_ ?_ ?_ ?_ ?_ ?_ ?_ ?_ ?_ ?_ ?_ ?_ ?_ ?_ ?_ ?_ ?_ ?_)
    | simp only [changes_mk]
    | with_reducible intro _
    | split
    | dsimp only [id])

theorem putTier_changes {Q : List Block} {s0 : State} {o : Nat} {v : Word} {s : State}  (hq : subParts [.tier] Q = true) (hk : OnlyChanges Q s0 s) :
    OnlyChanges Q s0 (putTier o v s) := by
  unfold putTier
  repeat' (first
    | with_reducible assumption
    | ((with_reducible refine .inr (subParts_mem hq ?_)); rfl)
    | with_reducible exact .inl rfl
    | with_reducible refine changes_ite ?_ ?_
    | (with_reducible refine changesParts_of ?_ ?_ ?_ ?_ ?_ ?_ ?_ ?_ ?_ ?_ ?_ ?_ ?_ ?_ ?_ ?_ ?_ ?_ ?_ ?_)
    | simp only [changes_mk]
    | with_reducible intro _
    | split
    | dsimp only [id])

theorem putRma_changes {Q : List Block} {s0 : State} {o : Nat} {v : Word} {s : State}  (hq : subParts [.rma] Q = true) (hk : OnlyChanges Q s0 s) :
    OnlyChanges Q s0 (putRma o v s) := by
  unfold putRma
  repeat' (first
    | with_reducible assumption
    | ((with_reducible refine .inr (subParts_mem hq ?_)); rfl)
    | with_reducible exact .inl rfl
    | with_reducible refine changes_ite ?_ ?_
    | (with_reducible refine changesParts_of ?_ ?_ ?_ ?_ ?_ ?_ ?_ ?_ ?_ ?_ ?_ ?_ ?_ ?_ ?_ ?_ ?_ ?_ ?_ ?_)
    | simp only [changes_mk]
    | with_reducible intro _
    | split
    | dsimp only [id])

theorem stageSlot_changes {Q : List Block} {s0 : State} {f : ShapeSlot → ShapeSlot} {s : State}  (hq : subParts [.links] Q = true) (hk : OnlyChanges Q s0 s) :
    OnlyChanges Q s0 (stageSlot f s) := by
  unfold stageSlot
  repeat' (first
    | with_reducible assumption
    | ((with_reducible refine .inr (subParts_mem hq ?_)); rfl)
    | with_reducible exact .inl rfl
    | with_reducible refine changes_ite ?_ ?_
    | (with_reducible refine changesParts_of ?_ ?_ ?_ ?_ ?_ ?_ ?_ ?_ ?_ ?_ ?_ ?_ ?_ ?_ ?_ ?_ ?_ ?_ ?_ ?_)
    | simp only [changes_mk]
    | with_reducible intro _
    | split
    | dsimp only [id])

theorem putTel_changes {Q : List Block} {s0 : State} {d : Nat} {o : Nat} {v : Word} {s : State}  (hq : subParts [.links] Q = true) (hk : OnlyChanges Q s0 s) :
    OnlyChanges Q s0 (putTel d o v s) := by
  unfold putTel
  repeat' (first
    | with_reducible assumption
    | ((with_reducible refine .inr (subParts_mem hq ?_)); rfl)
    | with_reducible exact .inl rfl
    | with_reducible refine changes_ite ?_ ?_
    | (with_reducible refine changesParts_of ?_ ?_ ?_ ?_ ?_ ?_ ?_ ?_ ?_ ?_ ?_ ?_ ?_ ?_ ?_ ?_ ?_ ?_ ?_ ?_)
    | simp only [changes_mk]
    | with_reducible intro _
    | split
    | dsimp only [id])

theorem putShaper_changes {Q : List Block} {s0 : State} {o : Nat} {v : Word} {s : State}  (hq : subParts [.links] Q = true) (hk : OnlyChanges Q s0 s) :
    OnlyChanges Q s0 (putShaper o v s) := by
  unfold putShaper
  repeat' (first
    | with_reducible assumption
    | ((with_reducible refine .inr (subParts_mem hq ?_)); rfl)
    | with_reducible exact .inl rfl
    | with_reducible apply stageSlot_changes (hq := subParts_trans rfl hq)
    | with_reducible apply putTel_changes (hq := subParts_trans rfl hq)
    | with_reducible refine changes_ite ?_ ?_
    | (with_reducible refine changesParts_of ?_ ?_ ?_ ?_ ?_ ?_ ?_ ?_ ?_ ?_ ?_ ?_ ?_ ?_ ?_ ?_ ?_ ?_ ?_ ?_)
    | simp only [changes_mk]
    | with_reducible intro _
    | split
    | dsimp only [id])

theorem putCodec_changes {Q : List Block} {s0 : State} {o : Nat} {v : Word} {s : State}  (hq : subParts [.codec] Q = true) (hk : OnlyChanges Q s0 s) :
    OnlyChanges Q s0 (putCodec o v s) := by
  unfold putCodec
  repeat' (first
    | with_reducible assumption
    | ((with_reducible refine .inr (subParts_mem hq ?_)); rfl)
    | with_reducible exact .inl rfl
    | with_reducible refine changes_ite ?_ ?_
    | (with_reducible refine changesParts_of ?_ ?_ ?_ ?_ ?_ ?_ ?_ ?_ ?_ ?_ ?_ ?_ ?_ ?_ ?_ ?_ ?_ ?_ ?_ ?_)
    | simp only [changes_mk]
    | with_reducible intro _
    | split
    | dsimp only [id])

theorem putRepro_changes {Q : List Block} {s0 : State} {o : Nat} {v : Word} {s : State}  (hq : subParts [.repro] Q = true) (hk : OnlyChanges Q s0 s) :
    OnlyChanges Q s0 (putRepro o v s) := by
  unfold putRepro
  repeat' (first
    | with_reducible assumption
    | ((with_reducible refine .inr (subParts_mem hq ?_)); rfl)
    | with_reducible exact .inl rfl
    | with_reducible refine changes_ite ?_ ?_
    | (with_reducible refine changesParts_of ?_ ?_ ?_ ?_ ?_ ?_ ?_ ?_ ?_ ?_ ?_ ?_ ?_ ?_ ?_ ?_ ?_ ?_ ?_ ?_)
    | simp only [changes_mk]
    | with_reducible intro _
    | split
    | dsimp only [id])

theorem putSec_changes {Q : List Block} {s0 : State} {o : Nat} {v : Word} {s : State}  (hq : subParts [.sec] Q = true) (hk : OnlyChanges Q s0 s) :
    OnlyChanges Q s0 (putSec o v s) := by
  unfold putSec
  repeat' (first
    | with_reducible assumption
    | ((with_reducible refine .inr (subParts_mem hq ?_)); rfl)
    | with_reducible exact .inl rfl
    | with_reducible refine changes_ite ?_ ?_
    | (with_reducible refine changesParts_of ?_ ?_ ?_ ?_ ?_ ?_ ?_ ?_ ?_ ?_ ?_ ?_ ?_ ?_ ?_ ?_ ?_ ?_ ?_ ?_)
    | simp only [changes_mk]
    | with_reducible intro _
    | split
    | dsimp only [id])

theorem putPf_changes {Q : List Block} {s0 : State} {off : Nat} {v : Word} {s : State} (hq : subParts [.sec, .forme, .codec, .tier, .sched, .repro, .req, .pair, .rma, .links] Q = true) (hk : OnlyChanges Q s0 s) :
    OnlyChanges Q s0 (putPf off v s) := by
  unfold putPf
  repeat' (first
    | with_reducible assumption
    | ((with_reducible refine .inr (subParts_mem hq ?_)); rfl)
    | with_reducible exact .inl rfl
    | with_reducible apply putSec_changes (hq := subParts_trans rfl hq)
    | with_reducible apply putRepro_changes (hq := subParts_trans rfl hq)
    | with_reducible apply putCodec_changes (hq := subParts_trans rfl hq)
    | with_reducible apply putShaper_changes (hq := subParts_trans rfl hq)
    | with_reducible apply putRma_changes (hq := subParts_trans rfl hq)
    | with_reducible apply putTier_changes (hq := subParts_trans rfl hq)
    | with_reducible apply putPair_changes (hq := subParts_trans rfl hq)
    | with_reducible apply putSched_changes (hq := subParts_trans rfl hq)
    | with_reducible apply putForme_changes (hq := subParts_trans rfl hq)
    | with_reducible refine changes_ite ?_ ?_
    | (with_reducible refine changesParts_of ?_ ?_ ?_ ?_ ?_ ?_ ?_ ?_ ?_ ?_ ?_ ?_ ?_ ?_ ?_ ?_ ?_ ?_ ?_ ?_)
    | simp only [changes_mk]
    | with_reducible intro _
    | split
    | dsimp only [id])

theorem hostifWrite_changes {Q : List Block} {s0 : State} {fn : FnId} {o : Nat} {v : Word} {s : State}  (hq : subParts [.host, .clusters, .sched, .repro, .req, .rma, .links, .out] Q = true) (hk : OnlyChanges Q s0 s) :
    OnlyChanges Q s0 (hostifWrite fn o v s) := by
  unfold hostifWrite
  repeat' (first
    | with_reducible assumption
    | ((with_reducible refine .inr (subParts_mem hq ?_)); rfl)
    | with_reducible exact .inl rfl
    | with_reducible apply tdiError_changes (hq := subParts_trans rfl hq)
    | with_reducible apply fnUpd_changes (hq := subParts_trans rfl hq)
    | with_reducible refine changes_ite ?_ ?_
    | (with_reducible refine changesParts_of ?_ ?_ ?_ ?_ ?_ ?_ ?_ ?_ ?_ ?_ ?_ ?_ ?_ ?_ ?_ ?_ ?_ ?_ ?_ ?_)
    | simp only [changes_mk]
    | with_reducible intro _
    | split
    | dsimp only [id])

theorem registerWrite_changes {Q : List Block} {s0 : State} {fn : FnId} {off : Nat} {v : Word} {s : State}  (hq : subParts [.dev, .sec, .host, .forme, .codec, .tier, .clusters, .sched, .repro, .req, .pair, .rma, .links, .out] Q = true) (hk : OnlyChanges Q s0 s) :
    OnlyChanges Q s0 (registerWrite fn off v s) := by
  unfold registerWrite
  repeat' (first
    | with_reducible assumption
    | ((with_reducible refine .inr (subParts_mem hq ?_)); rfl)
    | with_reducible exact .inl rfl
    | with_reducible apply hostifWrite_changes (hq := subParts_trans rfl hq)
    | with_reducible apply putPf_changes (hq := subParts_trans rfl hq)
    | with_reducible refine changes_ite ?_ ?_
    | (with_reducible refine changesParts_of ?_ ?_ ?_ ?_ ?_ ?_ ?_ ?_ ?_ ?_ ?_ ?_ ?_ ?_ ?_ ?_ ?_ ?_ ?_ ?_)
    | simp only [changes_mk]
    | with_reducible intro _
    | split
    | dsimp only [id])

theorem execRegisterWrite_changes {Q : List Block} {s0 : State} {fn : FnId} {off : Nat} {v : Word} {s : State}  (hq : subParts [.dev, .sec, .host, .forme, .codec, .tier, .clusters, .sched, .repro, .req, .pair, .rma, .links, .out] Q = true) {tt : State} (hk : OnlyChanges Q s0 s) (eq_ : execRegisterWrite fn off v s = .next tt) : OnlyChanges Q s0 tt := by
  unfold execRegisterWrite at eq_
  repeat' (first | split at eq_ | dsimp only at eq_)
  all_goals (first | (injection eq_ with eq_; subst eq_) | (cases eq_))
  repeat' (first
    | with_reducible assumption
    | ((with_reducible refine .inr (subParts_mem hq ?_)); rfl)
    | with_reducible exact .inl rfl
    | with_reducible apply registerWrite_changes (hq := subParts_trans rfl hq)
    | with_reducible refine changes_ite ?_ ?_
    | (with_reducible refine changesParts_of ?_ ?_ ?_ ?_ ?_ ?_ ?_ ?_ ?_ ?_ ?_ ?_ ?_ ?_ ?_ ?_ ?_ ?_ ?_ ?_)
    | simp only [changes_mk]
    | with_reducible intro _
    | split
    | dsimp only [id])

end Sys2Proof.Machine
end

