-- ==== Sys2Proof/Laws/Ctl.lean ====
section
/-!
SUPPORT. What the command-register protocol of 17 R442 answers, case by case.
-/

namespace Sys2Proof.Machine

variable {w : CtlWrite} {early : Bool} {cmds : List Nat} {own : Nat} {busy : State → Bool} {code : Status → State → State}
  {settings run : State → State} {s : State}

/-- An accepted command: the settings of its write, then its effect. -/
theorem ctl_runs (h : pfLive s w.fn early = true) (hc : ctlCommands w cmds = [own]) (hb : busy s = false) :
    ctl w early cmds own busy code settings run s = run (settings s) := by
  simp only [ctl, h, hc, hb, if_true, Bool.false_eq_true, if_false]

/-- A command while the block is BUSY: RETRY_LATER, and nothing else. -/
theorem ctl_busy (h : pfLive s w.fn early = true) (hc : ctlCommands w cmds = [own]) (hb : busy s = true) :
    ctl w early cmds own busy code settings run s = code .retryLater s := by
  simp only [ctl, h, hc, hb, if_true]

/-- A write without a command bit applies its settings, whether or not the block is BUSY. -/
theorem ctl_settings (h : pfLive s w.fn early = true) (hc : ctlCommands w cmds = []) :
    ctl w early cmds own busy code settings run s = settings s := by
  simp only [ctl, h, hc, if_true]

/-- A write of two command bits: MALFORMED, and nothing else. -/
theorem ctl_two (h : pfLive s w.fn early = true) (hc : 2 ≤ (ctlCommands w cmds).length) :
    ctl w early cmds own busy code settings run s = code .malformed s := by
  match he : ctlCommands w cmds, hc with
  | a :: b :: rest, _ => simp only [ctl, h, he, if_true]

/-- A write that reaches no live block changes nothing. -/
theorem ctl_dead (h : pfLive s w.fn early = false) : ctl w early cmds own busy code settings run s = s := by
  simp only [ctl, h, Bool.false_eq_true, if_false]

end Sys2Proof.Machine
end

