-- ==== Sys2Proof/Laws/Keeps.lean ====
section
/-!
SUPPORT. What an operation keeps: the relation between a state and a later one, and the ways to show it.
-/

namespace Sys2Proof.Machine

/-- From `s` to `t` the queue is unchanged, and the TMR copies and the memories stay as Safety says. -/
def Keeps (s t : State) : Prop :=
  t.pending = s.pending ∧ (s.tmrOk = true → t.tmrOk = true) ∧ (s.memOk = true → t.memOk = true)

theorem Keeps.refl (s : State) : Keeps s s := ⟨rfl, id, id⟩

theorem Keeps.trans {s t u : State} (h : Keeps s t) (k : Keeps t u) : Keeps s u :=
  ⟨k.1.trans h.1, fun x => k.2.1 (h.2.1 x), fun x => k.2.2 (h.2.2 x)⟩

/-- A fold of operations that keep. -/
theorem foldl_keeps {A : Type} {s0 : State} {f : State → A → State} {l : List A} {s : State}
    (h : Keeps s0 s) (hf : ∀ (u : State) (a : A), Keeps s0 u → Keeps s0 (f u a)) : Keeps s0 (l.foldl f s) := by
  induction l generalizing s with
  | nil => exact h
  | cons a rest ih => exact ih (hf s a h)

theorem foldl_keeps_of_mem {A : Type} {s0 : State} {f : State → A → State} {l : List A} {s : State}
    (h : Keeps s0 s) (hf : ∀ (u : State) (a : A), a ∈ l → Keeps s0 u → Keeps s0 (f u a)) : Keeps s0 (l.foldl f s) := by
  induction l generalizing s with
  | nil => exact h
  | cons a rest ih =>
    exact ih (hf s a List.mem_cons_self h) (fun u b hb hu => hf u b (List.mem_cons_of_mem _ hb) hu)

/-- A fold of operations that keep, beside a value. -/
theorem foldl_keeps_fst {A B : Type} {s0 : State} {f : State × B → A → State × B} {l : List A} {s : State × B}
    (h : Keeps s0 s.1) (hf : ∀ (u : State × B) (a : A), Keeps s0 u.1 → Keeps s0 (f u a).1) : Keeps s0 (l.foldl f s).1 := by
  induction l generalizing s with
  | nil => exact h
  | cons a rest ih => exact ih (hf s a h)

theorem foldl_keeps_snd {A B : Type} {s0 : State} {f : B × State → A → B × State} {l : List A} {s : B × State}
    (h : Keeps s0 s.2) (hf : ∀ (u : B × State) (a : A), Keeps s0 u.2 → Keeps s0 (f u a).2) : Keeps s0 (l.foldl f s).2 := by
  induction l generalizing s with
  | nil => exact h
  | cons a rest ih => exact ih (hf s a h)

/-- A state, or the one given where there is none. -/
theorem getD_keeps {s0 d : State} {o : Option State} (hd : Keeps s0 d) (h : ∀ v : State, o = some v → Keeps s0 v) :
    Keeps s0 (o.getD d) := by
  cases o with
  | none => exact hd
  | some v => exact h v rfl

theorem ite_some_keeps {s0 b t : State} {a : Option State} {c : Prop} [Decidable c] (e : (if c then a else some b) = some t)
    (hb : Keeps s0 b) (ha : a = some t → Keeps s0 t) : Keeps s0 t := by
  split at e
  · exact ha e
  · cases e; exact hb

/-- `Keeps` over the parts that it speaks of. -/
def KeepsParts (s : State) (pending : List Instr) (ident lastReset repair : Tmr) (t1 slices : Mem) (clusters : Tab Cluster)
    (saves : Tab Saved) : Prop :=
  ∃ t, Keeps s t ∧ pending = t.pending ∧ ident = t.dev.ident ∧ lastReset = t.maint.lastReset ∧ repair = t.maint.repair
    ∧ t1 = t.tier.t1 ∧ slices = t.tier.slices ∧ clusters = t.clusters ∧ saves = t.sched.saves

/-- The parts of a state that keeps. -/
theorem keepsParts_of {s t : State} (h : Keeps s t) : KeepsParts s t.pending t.dev.ident t.maint.lastReset t.maint.repair
    t.tier.t1 t.tier.slices t.clusters t.sched.saves := ⟨t, h, rfl, rfl, rfl, rfl, rfl, rfl, rfl, rfl⟩

/-- A record keeps what its parts keep. -/
theorem keeps_mk {s0 : State} {dev maint sec host forme codec tier clusters sched repro req pair near rma links tb free out pending} :
    Keeps s0 (State.mk dev maint sec host forme codec tier clusters sched repro req pair near rma links tb free out pending)
      ↔ KeepsParts s0 pending dev.ident maint.lastReset maint.repair tier.t1 tier.slices clusters sched.saves := by
  constructor
  · intro h; exact ⟨_, h, rfl, rfl, rfl, rfl, rfl, rfl, rfl, rfl⟩
  · rintro ⟨t, h, h1, h2, h3, h4, h5, h6, h7, h8⟩
    refine h.trans ⟨h1, ?_, ?_⟩
    · intro x; simp only [State.tmrOk, h2, h3, h4] at x ⊢; exact x
    · intro x; simp only [State.memOk, h5, h6, h7, h8] at x ⊢; exact x

theorem keeps_ite {s0 a b : State} {c : Prop} [Decidable c] (ha : c → Keeps s0 a) (hb : ¬c → Keeps s0 b) :
    Keeps s0 (if c then a else b) := by
  split
  · exact ha ‹_›
  · exact hb ‹_›

/-- A record update with other memories. -/
theorem keeps_mem {s0 t : State} {dev maint sec host forme codec tier clusters sched repro req pair near rma links tb free out pending}
    (h : Keeps s0 t) (h1 : pending = t.pending) (h2 : dev.ident = t.dev.ident) (h3 : maint.lastReset = t.maint.lastReset)
    (h4 : maint.repair = t.maint.repair) (h5 : Mem.wf t.tier.t1 = true → Mem.wf tier.t1 = true)
    (h6 : Mem.wf t.tier.slices = true → Mem.wf tier.slices = true)
    (h7 : t.clusters.all (fun e => e.2.memOk) = true → clusters.all (fun e => e.2.memOk) = true)
    (h8 : t.sched.saves.all (fun e => e.2.memOk) = true → sched.saves.all (fun e => e.2.memOk) = true) :
    Keeps s0 { dev := dev, maint := maint, sec := sec, host := host, forme := forme, codec := codec, tier := tier
               clusters := clusters, sched := sched, repro := repro, req := req, pair := pair, near := near, rma := rma
               links := links, tb := tb, free := free, out := out, pending := pending } := by
  refine h.trans ⟨h1, ?_, ?_⟩
  · intro x; simp only [State.tmrOk, h2, h3, h4] at x ⊢; exact x
  · intro x
    simp only [State.memOk, Bool.and_eq_true] at x ⊢
    exact ⟨⟨⟨h5 x.1.1.1, h6 x.1.1.2⟩, h7 x.1.2⟩, h8 x.2⟩

/-- The three memories of a cluster are in canonical form. -/
def MemParts (case_ acc mailbox : Mem) : Prop := Mem.wf case_ = true ∧ Mem.wf acc = true ∧ Mem.wf mailbox = true

theorem memOk_iff (c : Cluster) : c.memOk = true ↔ MemParts c.case_ c.acc c.mailbox := by
  simp only [Cluster.memOk, MemParts, Bool.and_eq_true, and_assoc]

theorem memParts_of {c : Cluster} (h : c.memOk = true) : MemParts c.case_ c.acc c.mailbox := (memOk_iff c).1 h
theorem memCase {c : Cluster} (h : c.memOk = true) : Mem.wf c.case_ = true := (memParts_of h).1
theorem memAcc {c : Cluster} (h : c.memOk = true) : Mem.wf c.acc = true := (memParts_of h).2.1
theorem memMail {c : Cluster} (h : c.memOk = true) : Mem.wf c.mailbox = true := (memParts_of h).2.2
theorem memParts_mk {a b c : Mem} (ha : Mem.wf a = true) (hb : Mem.wf b = true) (hc : Mem.wf c = true) : MemParts a b c :=
  ⟨ha, hb, hc⟩

/-- A cluster record is in canonical form if its memories are. -/
theorem memOk_mk {state lastOp quiesce pc entry store commands case_ caseWritten caseKept acc mailbox wqProd wqCons wqItems
    item aregs loops chain live streams lastGrant chans wait press beats breach ecc stale faultIndex faultCause paceCount paceValid slow
    slowRun paceAt itemBeats sat dig digSeq traceItems ctx divert switchAt moving fallbacks ended done notice events} :
    (Cluster.mk state lastOp quiesce pc entry store commands case_ caseWritten caseKept acc mailbox wqProd wqCons wqItems
      item aregs loops chain live streams lastGrant chans wait press beats breach ecc stale faultIndex faultCause paceCount paceValid slow
      slowRun paceAt itemBeats sat dig digSeq traceItems ctx divert switchAt moving fallbacks ended done notice events).memOk
      = true ↔ MemParts case_ acc mailbox := memOk_iff _

theorem memOk_ite {c : Prop} [Decidable c] {a b : Cluster} (ha : a.memOk = true) (hb : b.memOk = true) :
    (if c then a else b).memOk = true := by split <;> assumption

theorem memOk_default : ({} : Cluster).memOk = true := rfl

/-- Parts with other memories. -/
theorem keepsParts_mem {s t : State} {t1 slices : Mem} {clusters : Tab Cluster} {saves : Tab Saved} (h : Keeps s t)
    (h5 : Mem.wf t.tier.t1 = true → Mem.wf t1 = true) (h6 : Mem.wf t.tier.slices = true → Mem.wf slices = true)
    (h7 : t.clusters.all (fun e => e.2.memOk) = true → clusters.all (fun e => e.2.memOk) = true)
    (h8 : t.sched.saves.all (fun e => e.2.memOk) = true → saves.all (fun e => e.2.memOk) = true) :
    KeepsParts s t.pending t.dev.ident t.maint.lastReset t.maint.repair t1 slices clusters saves :=
  ⟨{ t with tier := { t.tier with t1 := t1, slices := slices }, clusters := clusters, sched := { t.sched with saves := saves } },
    keeps_mem h rfl rfl rfl rfl h5 h6 h7 h8, rfl, rfl, rfl, rfl, rfl, rfl, rfl, rfl⟩

theorem tmrAll_agree (w : Word) : (Tmr.all w).agree = true := by simp [Tmr.all, Tmr.agree]

/-- Parts with other TMR copies that agree and other memories. -/
theorem keepsParts_tmr {s t : State} {ident lastReset repair : Tmr} {t1 slices : Mem} {clusters : Tab Cluster}
    {saves : Tab Saved} (h : Keeps s t) (h2 : ident = t.dev.ident ∨ ident.agree = true)
    (h3 : lastReset = t.maint.lastReset ∨ lastReset.agree = true) (h4 : repair = t.maint.repair ∨ repair.agree = true)
    (h5 : Mem.wf t.tier.t1 = true → Mem.wf t1 = true) (h6 : Mem.wf t.tier.slices = true → Mem.wf slices = true)
    (h7 : t.clusters.all (fun e => e.2.memOk) = true → clusters.all (fun e => e.2.memOk) = true)
    (h8 : t.sched.saves.all (fun e => e.2.memOk) = true → saves.all (fun e => e.2.memOk) = true) :
    KeepsParts s t.pending ident lastReset repair t1 slices clusters saves := by
  refine (keeps_mk (s0 := s) (dev := { t.dev with ident := ident })
    (maint := { t.maint with lastReset := lastReset, repair := repair }) (sec := t.sec) (host := t.host) (forme := t.forme)
    (codec := t.codec) (tier := { t.tier with t1 := t1, slices := slices }) (clusters := clusters)
    (sched := { t.sched with saves := saves }) (repro := t.repro) (req := t.req) (pair := t.pair) (near := t.near)
    (rma := t.rma) (links := t.links) (tb := t.tb) (free := t.free) (out := t.out)).1 (h.trans ⟨rfl, ?_, ?_⟩)
  · intro x
    simp only [State.tmrOk, Bool.and_eq_true] at x ⊢
    refine ⟨⟨?_, ?_⟩, ?_⟩
    · rcases h2 with rfl | h2
      · exact x.1.1
      · exact h2
    · rcases h3 with rfl | h3
      · exact x.1.2
      · exact h3
    · rcases h4 with rfl | h4
      · exact x.2
      · exact h4
  · intro x
    simp only [State.memOk, Bool.and_eq_true] at x ⊢
    exact ⟨⟨⟨h5 x.1.1.1, h6 x.1.1.2⟩, h7 x.1.2⟩, h8 x.2⟩

/-- Parts with other saves. -/
theorem keepsParts_saves {s t : State} {saves : Tab Saved} (h : Keeps s t)
    (h8 : t.sched.saves.all (fun e => e.2.memOk) = true → saves.all (fun e => e.2.memOk) = true) :
    KeepsParts s t.pending t.dev.ident t.maint.lastReset t.maint.repair t.tier.t1 t.tier.slices t.clusters saves :=
  keepsParts_mem h id id id h8

theorem all_nil_keeps {V : Type} {p : V → Bool} {P : Prop} : P → ([] : Tab V).all (fun e => p e.2) = true := fun _ => rfl

/-- Clearing one range after another. -/
theorem foldl_clear_wf {A : Type} {lo hi : A → Nat} {l : List A} {m : Mem} (h : Mem.wf m = true) :
    Mem.wf (l.foldl (fun m a => Mem.clear m (lo a) (hi a)) m) = true := by
  induction l generalizing m with
  | nil => exact h
  | cons a rest ih => exact ih (Mem.clear_wf _ _ _ h)

/-- A change of every cluster. -/
theorem all_map_keeps {t : Tab Cluster} {f : Nat × Cluster → Nat × Cluster}
    (hf : ∀ e : Nat × Cluster, e.2.memOk = true → (f e).2.memOk = true) (h : t.all (fun e => e.2.memOk) = true) :
    (t.map f).all (fun e => e.2.memOk) = true := by
  rw [List.all_eq_true] at h ⊢
  intro e he
  obtain ⟨x, hx, rfl⟩ := List.mem_map.1 he
  exact hf x (h x hx)

theorem all_filter_keeps {V : Type} {t : Tab V} {p : V → Bool} {q : Nat × V → Bool} (h : t.all (fun e => p e.2) = true) :
    (t.filter q).all (fun e => p e.2) = true := by
  rw [List.all_eq_true] at h ⊢
  intro e he; exact h e (List.mem_of_mem_filter he)

/-- What holds of every entry holds of the one found. -/
theorem find_all {V : Type} {t : Tab V} {p : V → Bool} {k : Nat} {v : V} (h : t.all (fun e => p e.2) = true)
    (e : Tab.find t k = some v) : p v = true := by
  induction t with
  | nil => cases e
  | cons x rest ih =>
    obtain ⟨k', v'⟩ := x
    simp only [List.all_cons, Bool.and_eq_true] at h
    simp only [Tab.find] at e
    split at e
    · cases e; exact h.1
    · exact ih h.2 e

/-- The parts of the memories' canonical form. -/
theorem memOk_saves {s : State} (m : s.memOk = true) : s.sched.saves.all (fun e => e.2.memOk) = true := by
  simp only [State.memOk, Bool.and_eq_true] at m; exact m.2
theorem memOk_clusters {s : State} (m : s.memOk = true) : s.clusters.all (fun e => e.2.memOk) = true := by
  simp only [State.memOk, Bool.and_eq_true] at m; exact m.1.2
theorem memOk_cluster {s : State} {n : Nat} (m : s.memOk = true) : (cluster s n).memOk = true :=
  Tab.getD_all _ _ _ Cluster.memOk (memOk_clusters m) rfl

/-- It is enough to show that an operation keeps where the memories are in canonical form. -/
theorem Keeps.assuming {s t : State} (h1 : t.pending = s.pending) (h2 : s.tmrOk = true → t.tmrOk = true)
    (h : s.memOk = true → Keeps s t) : Keeps s t := ⟨h1, h2, fun m => (h m).2.2 m⟩

/-- A change of one cluster. -/
theorem clusterUpd_keeps {s0 s : State} {n : Nat} {f : Cluster → Cluster} (h : Keeps s0 s)
    (hf : ∀ c : Cluster, c.memOk = true → (f c).memOk = true) : Keeps s0 (clusterUpd n f s) := by
  unfold clusterUpd Tab.upd
  refine keeps_mem h rfl rfl rfl rfl id id ?_ id
  intro x
  exact Tab.put_all _ _ _ Cluster.memOk x (hf _ (Tab.getD_all _ _ _ Cluster.memOk x memOk_default))

/-- A change of one cluster that uses the canonical form of the state before. -/
theorem clusterUpd_keeps_of {s0 s : State} {n : Nat} {f : Cluster → Cluster} (h : Keeps s0 s)
    (hf : s0.memOk = true → ∀ c : Cluster, c.memOk = true → (f c).memOk = true) : Keeps s0 (clusterUpd n f s) := by
  refine ⟨h.1, h.2.1, fun m => (clusterUpd_keeps (s0 := s) (n := n) (Keeps.refl s) (hf m)).2.2 (h.2.2 m)⟩

end Sys2Proof.Machine
end

