-- ==== Sys2Proof/Laws/KeepsOps.lean ====
section
/-!
SUPPORT. What the operations of Sys2Proof/Machine/Ops.lean keep: the queue, the agreement of the TMR copies, and the canonical
form of the memories (Safety).
-/

namespace Sys2Proof.Machine

theorem emit_keeps {s0 : State} {e : Emit} {s : State}  (hk : Keeps s0 s) :
    Keeps s0 (emit e s) := by
  unfold emit
  repeat' (first
    | with_reducible assumption
    | with_reducible refine keeps_ite ?_ ?_
    | with_reducible apply keepsParts_of
    | simp only [keeps_mk]
    | intro _
    | split
    | dsimp only [id])

theorem msix_keeps {s0 : State} {fn : FnId} {v : Nat} {s : State}  (hk : Keeps s0 s) :
    Keeps s0 (msix fn v s) := by
  unfold msix
  repeat' (first
    | with_reducible assumption
    | with_reducible apply emit_keeps
    | with_reducible refine keeps_ite ?_ ?_
    | with_reducible apply keepsParts_of
    | simp only [keeps_mk]
    | intro _
    | split
    | dsimp only [id])

theorem bumpFree_keeps {s0 : State} {s : State}  (hk : Keeps s0 s) :
    Keeps s0 (bumpFree s) := by
  unfold bumpFree
  repeat' (first
    | with_reducible assumption
    | with_reducible refine keeps_ite ?_ ?_
    | with_reducible apply keepsParts_of
    | simp only [keeps_mk]
    | intro _
    | split
    | dsimp only [id])

theorem xbarGrant_keeps {s0 : State} {r : Nat} {out : Nat} {req : List Nat} {s : State} (hk : Keeps s0 s) :
    Keeps s0 (xbarGrant r out req s) := by
  unfold xbarGrant
  repeat' (first
    | with_reducible assumption
    | with_reducible refine keeps_ite ?_ ?_
    | with_reducible apply keepsParts_of
    | simp only [keeps_mk]
    | intro _
    | split
    | dsimp only [id])

theorem xbarPass_keeps {s0 : State} {n : Nat} {out : Nat} {s : State} (hk : Keeps s0 s) :
    Keeps s0 (xbarPass n out s) := by
  unfold xbarPass
  repeat' (first
    | with_reducible assumption
    | with_reducible apply xbarGrant_keeps
    | with_reducible refine keeps_ite ?_ ?_
    | with_reducible apply keepsParts_of
    | simp only [keeps_mk]
    | intro _
    | split
    | dsimp only [id])

theorem xbarToSlice_keeps {s0 : State} {n : Nat} {r : Nat} {s : State} (hk : Keeps s0 s) :
    Keeps s0 (xbarToSlice n r s) := by
  unfold xbarToSlice
  repeat' (first
    | with_reducible assumption
    | with_reducible apply xbarPass_keeps
    | with_reducible refine keeps_ite ?_ ?_
    | with_reducible apply keepsParts_of
    | simp only [keeps_mk]
    | intro _
    | split
    | dsimp only [id])

theorem xbarToCluster_keeps {s0 : State} {n : Nat} {m : Nat} {s : State} (hk : Keeps s0 s) :
    Keeps s0 (xbarToCluster n m s) := by
  unfold xbarToCluster
  repeat' (first
    | with_reducible assumption
    | with_reducible apply xbarPass_keeps
    | with_reducible refine keeps_ite ?_ ?_
    | with_reducible apply keepsParts_of
    | simp only [keeps_mk]
    | intro _
    | split
    | dsimp only [id])

theorem tbTick_keeps {s0 : State} {s : State} (hk : Keeps s0 s) :
    Keeps s0 (tbTick s) := by
  unfold tbTick
  repeat' (first
    | with_reducible assumption
    | with_reducible refine keeps_ite ?_ ?_
    | with_reducible apply keepsParts_of
    | simp only [keeps_mk]
    | intro _
    | split
    | dsimp only [id])

theorem noteErr_keeps {s0 : State} {b : Nat} {i : Nat} {off : Nat} {s : State}  (hk : Keeps s0 s) :
    Keeps s0 (noteErr b i off s) := by
  unfold noteErr
  repeat' (first
    | with_reducible assumption
    | with_reducible refine keeps_ite ?_ ?_
    | with_reducible apply keepsParts_of
    | simp only [keeps_mk]
    | intro _
    | split
    | dsimp only [id])

theorem ctl_keeps {s0 : State} {w : CtlWrite} {early : Bool} {cmds : List Nat} {own : Nat} {busy : State → Bool} {code : Status → State → State} {settings : State → State} {run : State → State} {s : State} (h_code : ∀ (y0 : Status) (u : State), Keeps s0 u → Keeps s0 (code y0 u)) (h_settings : ∀ (u : State), Keeps s0 u → Keeps s0 (settings u)) (h_run : ∀ (u : State), Keeps s0 u → Keeps s0 (run u)) (hk : Keeps s0 s) :
    Keeps s0 (ctl w early cmds own busy code settings run s) := by
  unfold ctl
  repeat' (first
    | with_reducible assumption
    | with_reducible apply h_code
    | with_reducible apply h_settings
    | with_reducible apply h_run
    | with_reducible refine keeps_ite ?_ ?_
    | with_reducible apply keepsParts_of
    | simp only [keeps_mk]
    | intro _
    | split
    | dsimp only [id])

theorem lpcUpd_keeps {s0 : State} {c : Nat} {f : Lpc → Lpc} {s : State}  (hk : Keeps s0 s) :
    Keeps s0 (lpcUpd c f s) := by
  unfold lpcUpd
  repeat' (first
    | with_reducible assumption
    | with_reducible refine keeps_ite ?_ ?_
    | with_reducible apply keepsParts_of
    | simp only [keeps_mk]
    | intro _
    | split
    | dsimp only [id])

theorem countGranules_keeps {s0 : State} {wr : Bool} {gs : List Nat} {s : State}  (hk : Keeps s0 s) :
    Keeps s0 (countGranules wr gs s) := by
  unfold countGranules
  repeat' (first
    | with_reducible assumption
    | with_reducible apply foldl_keeps
    | with_reducible apply foldl_keeps_fst
    | with_reducible apply foldl_keeps_snd
    | with_reducible apply lpcUpd_keeps
    | with_reducible refine keeps_ite ?_ ?_
    | with_reducible apply keepsParts_of
    | simp only [keeps_mk]
    | intro _
    | split
    | dsimp only [id])

theorem granuleWrite_keeps {s0 : State} {part : Bool} {g : Nat} {s : State} (hk : Keeps s0 s) :
    Keeps s0 (granuleWrite part g s) := by
  unfold granuleWrite
  repeat' (first
    | with_reducible assumption
    | with_reducible apply lpcUpd_keeps
    | with_reducible refine keeps_ite ?_ ?_
    | with_reducible apply keepsParts_of
    | simp only [keeps_mk]
    | intro _
    | split
    | dsimp only [id])

theorem granuleStore_keeps {s0 : State} {addr : Nat} {n : Nat} {s : State} {g : Nat} (hk : Keeps s0 s) :
    Keeps s0 (granuleStore addr n s g) := by
  unfold granuleStore
  repeat' (first
    | with_reducible assumption
    | with_reducible apply granuleWrite_keeps
    | with_reducible refine keeps_ite ?_ ?_
    | with_reducible apply keepsParts_of
    | simp only [keeps_mk]
    | intro _
    | split
    | dsimp only [id])

theorem t1Write_keeps {s0 : State} {addr : Nat} {bs : List Byte} {s : State} (hk : Keeps s0 s) :
    Keeps s0 (t1Write addr bs s) := by
  unfold t1Write
  repeat' (first
    | with_reducible assumption
    | with_reducible apply foldl_keeps
    | with_reducible apply foldl_keeps_fst
    | with_reducible apply foldl_keeps_snd
    | with_reducible apply granuleStore_keeps
    | with_reducible refine keeps_ite ?_ ?_
    | with_reducible apply keepsParts_of
    | simp only [keeps_mk]
    | with_reducible apply memOk_ite
    | with_reducible apply memParts_of
    | simp only [memOk_mk]
    | with_reducible refine memParts_mk ?_ ?_ ?_
    | with_reducible apply memCase
    | with_reducible apply memAcc
    | with_reducible apply memMail
    | with_reducible apply Mem.store_wf
    | with_reducible apply Mem.clear_wf
    | with_reducible apply Mem.filter_wf
    | with_reducible apply Mem.over_wf
    | exact Mem.nil_wf
    | (with_reducible refine keepsParts_mem ?_ ?_ ?_ ?_ ?_)
    | with_reducible exact id
    | with_reducible exact Mem.store_wf _ _ _
    | with_reducible exact Mem.clear_wf _ _ _
    | with_reducible exact foldl_clear_wf
    | with_reducible exact (fun _ => Mem.nil_wf)
    | with_reducible exact (all_nil_keeps (p := Saved.memOk))
    | with_reducible exact (all_filter_keeps (p := Saved.memOk))
    | with_reducible exact (all_nil_keeps (p := Cluster.memOk))
    | with_reducible apply all_map_keeps
    | intro _
    | split
    | dsimp only [id])

theorem meterAdd_keeps {s0 : State} {tenant : Nat} {f : Meter → Meter} {s : State}  (hk : Keeps s0 s) :
    Keeps s0 (meterAdd tenant f s) := by
  unfold meterAdd
  repeat' (first
    | with_reducible assumption
    | with_reducible apply getD_keeps
    | with_reducible refine keeps_ite ?_ ?_
    | with_reducible apply keepsParts_of
    | simp only [keeps_mk]
    | intro _
    | split
    | dsimp only [id])

theorem meterT1_keeps {s0 : State} {tenant : BitVec 16} {n : Nat} {s : State}  (hk : Keeps s0 s) :
    Keeps s0 (meterT1 tenant n s) := by
  unfold meterT1
  repeat' (first
    | with_reducible assumption
    | with_reducible apply meterAdd_keeps
    | with_reducible refine keeps_ite ?_ ?_
    | with_reducible apply keepsParts_of
    | simp only [keeps_mk]
    | (with_reducible refine keepsParts_mem ?_ ?_ ?_ ?_ ?_)
    | with_reducible exact id
    | with_reducible exact Mem.store_wf _ _ _
    | with_reducible exact Mem.clear_wf _ _ _
    | with_reducible exact foldl_clear_wf
    | with_reducible exact (fun _ => Mem.nil_wf)
    | with_reducible exact (all_nil_keeps (p := Saved.memOk))
    | with_reducible exact (all_filter_keeps (p := Saved.memOk))
    | with_reducible exact (all_nil_keeps (p := Cluster.memOk))
    | with_reducible apply all_map_keeps
    | intro _
    | split
    | dsimp only [id])

theorem meterT2_keeps {s0 : State} {tenant : BitVec 16} {n : Nat} {s : State}  (hk : Keeps s0 s) :
    Keeps s0 (meterT2 tenant n s) := by
  unfold meterT2
  repeat' (first
    | with_reducible assumption
    | with_reducible apply meterAdd_keeps
    | with_reducible refine keeps_ite ?_ ?_
    | with_reducible apply keepsParts_of
    | simp only [keeps_mk]
    | intro _
    | split
    | dsimp only [id])

theorem meterT3_keeps {s0 : State} {tenant : BitVec 16} {n : Nat} {s : State}  (hk : Keeps s0 s) :
    Keeps s0 (meterT3 tenant n s) := by
  unfold meterT3
  repeat' (first
    | with_reducible assumption
    | with_reducible apply meterAdd_keeps
    | with_reducible refine keeps_ite ?_ ?_
    | with_reducible apply keepsParts_of
    | simp only [keeps_mk]
    | intro _
    | split
    | dsimp only [id])

theorem fnUpd_keeps {s0 : State} {fn : FnId} {f : FnHost → FnHost} {s : State}  (hk : Keeps s0 s) :
    Keeps s0 (fnUpd fn f s) := by
  unfold fnUpd
  repeat' (first
    | with_reducible assumption
    | with_reducible refine keeps_ite ?_ ?_
    | with_reducible apply keepsParts_of
    | simp only [keeps_mk]
    | intro _
    | split
    | dsimp only [id])

theorem ringUpd_keeps {s0 : State} {r : RingRef} {f : RingSet → RingSet} {s : State}  (hk : Keeps s0 s) :
    Keeps s0 (ringUpd r f s) := by
  unfold ringUpd
  repeat' (first
    | with_reducible assumption
    | with_reducible apply fnUpd_keeps
    | with_reducible refine keeps_ite ?_ ?_
    | with_reducible apply keepsParts_of
    | simp only [keeps_mk]
    | intro _
    | split
    | dsimp only [id])

theorem draw_keeps {s0 : State} {s : State}  (hk : Keeps s0 s) :
    Keeps s0 (draw s).2 := by
  unfold draw
  repeat' (first
    | with_reducible assumption
    | with_reducible refine keeps_ite ?_ ?_
    | with_reducible apply keepsParts_of
    | simp only [keeps_mk]
    | intro _
    | split
    | dsimp only [id])

theorem draw_keeps_of {s0 : State} {s : State}  {tt : State} {c0 : _} (eq_ : draw s = (c0, tt)) (hk : Keeps s0 s) : Keeps s0 tt := by
  have := draw_keeps (s0 := s0) (s := s)  hk
  rw [eq_] at this; exact this

end Sys2Proof.Machine
end

