-- ==== Sys2Proof/Laws/KeepsHostOps.lean ====
section
/-!
SUPPORT. What the operations of Sys2Proof/Machine/HostOps.lean keep: the queue, the agreement of the TMR copies, and the canonical
form of the memories (Safety).
-/

namespace Sys2Proof.Machine

theorem ringSignal_keeps {s0 : State} {r : RingRef} {s : State}  (hk : Keeps s0 s) :
    Keeps s0 (ringSignal r s) := by
  unfold ringSignal
  repeat' (first
    | with_reducible assumption
    | with_reducible apply getD_keeps
    | with_reducible apply ringUpd_keeps
    | with_reducible apply msix_keeps
    | with_reducible refine keeps_ite ?_ ?_
    | with_reducible apply keepsParts_of
    | simp only [keeps_mk]
    | intro _
    | split
    | dsimp only [id])

theorem writeCq_keeps {s0 : State} {r : RingRef} {e : CqEntry} {s : State}  (hk : Keeps s0 s) :
    Keeps s0 (writeCq r e s) := by
  unfold writeCq
  repeat' (first
    | with_reducible assumption
    | with_reducible apply ringSignal_keeps
    | with_reducible apply ringUpd_keeps
    | with_reducible apply emit_keeps
    | with_reducible refine keeps_ite ?_ ?_
    | with_reducible apply keepsParts_of
    | simp only [keeps_mk]
    | intro _
    | split
    | dsimp only [id])

theorem writeOut_keeps_of {s0 : State} {r : RingRef} {o : OutRec} {s : State}  {tt : State} (eq_ : writeOut r o s = some tt) (hk : Keeps s0 s) : Keeps s0 tt := by
  unfold writeOut at eq_
  repeat' (first | split at eq_ | dsimp only at eq_)
  all_goals (first | (obtain ⟨⟨_, _⟩, eq_, rfl⟩ := Option.map_eq_some_iff.1 eq_) | (cases eq_; done) | (cases eq_) | skip)
  repeat' (first
    | with_reducible assumption
    | with_reducible apply ringSignal_keeps
    | with_reducible apply ringUpd_keeps
    | with_reducible apply emit_keeps
    | with_reducible refine keeps_ite ?_ ?_
    | with_reducible apply keepsParts_of
    | simp only [keeps_mk]
    | intro _
    | split
    | dsimp only [id])

theorem postNow_keeps_of {s0 : State} {r : RingRef} {i : HeldItem} {s : State}  {tt : State} (eq_ : postNow r i s = some tt) (hk : Keeps s0 s) : Keeps s0 tt := by
  unfold postNow at eq_
  repeat' (first | split at eq_ | dsimp only at eq_)
  all_goals (first | (obtain ⟨⟨_, _⟩, eq_, rfl⟩ := Option.map_eq_some_iff.1 eq_) | (cases eq_; done) | (cases eq_) | skip)
  repeat' (first
    | with_reducible assumption
    | with_reducible apply writeOut_keeps
    | with_reducible apply writeCq_keeps
    | (with_reducible apply writeOut_keeps_of (by assumption))
    | with_reducible refine keeps_ite ?_ ?_
    | with_reducible apply keepsParts_of
    | simp only [keeps_mk]
    | intro _
    | split
    | dsimp only [id])

theorem post_keeps {s0 : State} {r : RingRef} {i : HeldItem} {s : State}  (hk : Keeps s0 s) :
    Keeps s0 (post r i s) := by
  unfold post
  repeat' (first
    | with_reducible assumption
    | with_reducible apply ringUpd_keeps
    | with_reducible apply postNow_keeps
    | (with_reducible apply postNow_keeps_of (by assumption))
    | with_reducible refine keeps_ite ?_ ?_
    | with_reducible apply keepsParts_of
    | simp only [keeps_mk]
    | intro _
    | split
    | dsimp only [id])

theorem postHeld_keeps {s0 : State} {r : RingRef} {items : List HeldItem} {s : State} (hk : Keeps s0 s) : Keeps s0 (postHeld r items s) := by
  induction items generalizing s with
  | nil =>
    unfold postHeld
    repeat' (first
      | with_reducible assumption
      | with_reducible apply ringUpd_keeps
      | with_reducible apply postNow_keeps
      | (with_reducible apply postNow_keeps_of (by assumption))
      | with_reducible refine keeps_ite ?_ ?_
      | with_reducible apply keepsParts_of
      | simp only [keeps_mk]
      | intro _
      | split
      | dsimp only [id])
  | cons _ _ ih =>
    unfold postHeld
    repeat' (first
      | with_reducible assumption
      | with_reducible apply ringUpd_keeps
      | with_reducible apply postNow_keeps
      | (with_reducible apply postNow_keeps_of (by assumption))
      | with_reducible refine keeps_ite ?_ ?_
      | with_reducible apply keepsParts_of
      | simp only [keeps_mk]
      | with_reducible apply ih
      | intro _
      | split
      | dsimp only [id])

theorem releaseHeld_keeps {s0 : State} {r : RingRef} {s : State}  (hk : Keeps s0 s) :
    Keeps s0 (releaseHeld r s) := by
  unfold releaseHeld
  repeat' (first
    | with_reducible assumption
    | with_reducible apply postHeld_keeps
    | with_reducible refine keeps_ite ?_ ?_
    | with_reducible apply keepsParts_of
    | simp only [keeps_mk]
    | intro _
    | split
    | dsimp only [id])

theorem postCq_keeps {s0 : State} {r : RingRef} {tag : DWord} {req : ReqId} {kind : Byte} {c : Status} {commit : Nat} {s : State}  (hk : Keeps s0 s) :
    Keeps s0 (postCq r tag req kind c commit s) := by
  unfold postCq
  repeat' (first
    | with_reducible assumption
    | with_reducible apply post_keeps
    | with_reducible refine keeps_ite ?_ ?_
    | with_reducible apply keepsParts_of
    | simp only [keeps_mk]
    | intro _
    | split
    | dsimp only [id])

theorem postOut_keeps {s0 : State} {r : RingRef} {session : Word} {kind : Byte} {len : Nat} {req : ReqId} {p : OutPayload} {s : State}  (hk : Keeps s0 s) :
    Keeps s0 (postOut r session kind len req p s) := by
  unfold postOut
  repeat' (first
    | with_reducible assumption
    | with_reducible apply post_keeps
    | with_reducible refine keeps_ite ?_ ?_
    | with_reducible apply keepsParts_of
    | simp only [keeps_mk]
    | intro _
    | split
    | dsimp only [id])

theorem takeEntry_keeps {s0 : State} {r : RingRef} {s : State}  (hk : Keeps s0 s) :
    Keeps s0 (takeEntry r s) := by
  unfold takeEntry
  repeat' (first
    | with_reducible assumption
    | with_reducible apply ringUpd_keeps
    | with_reducible refine keeps_ite ?_ ?_
    | with_reducible apply keepsParts_of
    | simp only [keeps_mk]
    | intro _
    | split
    | dsimp only [id])

theorem ringError_keeps {s0 : State} {r : RingRef} {cause : Byte} {s : State}  (hk : Keeps s0 s) :
    Keeps s0 (ringError r cause s) := by
  unfold ringError
  repeat' (first
    | with_reducible assumption
    | with_reducible apply noteErr_keeps
    | with_reducible apply ringUpd_keeps
    | with_reducible refine keeps_ite ?_ ?_
    | with_reducible apply keepsParts_of
    | simp only [keeps_mk]
    | intro _
    | split
    | dsimp only [id])

theorem ringFails_keeps {s0 : State} {r : RingRef} {s : State}  (hk : Keeps s0 s) :
    Keeps s0 (ringFails r s) := by
  unfold ringFails
  repeat' (first
    | with_reducible assumption
    | with_reducible apply ringError_keeps
    | with_reducible apply bumpFree_keeps
    | with_reducible refine keeps_ite ?_ ?_
    | with_reducible apply keepsParts_of
    | simp only [keeps_mk]
    | intro _
    | split
    | dsimp only [id])

theorem entryDone_keeps {s0 : State} {r : RingRef} {s : State}  (hk : Keeps s0 s) :
    Keeps s0 (entryDone r s) := by
  unfold entryDone
  repeat' (first
    | with_reducible assumption
    | with_reducible apply ringUpd_keeps
    | with_reducible apply fnUpd_keeps
    | with_reducible refine keeps_ite ?_ ?_
    | with_reducible apply keepsParts_of
    | simp only [keeps_mk]
    | intro _
    | split
    | dsimp only [id])

theorem faultPost_keeps {s0 : State} {fuel : Nat} {fn : FnId} {s : State} (hk : Keeps s0 s) :
    Keeps s0 (faultPost fuel fn s) := by
  induction fuel generalizing s with
  | zero =>
    unfold faultPost
    repeat' (first
      | with_reducible assumption
      | with_reducible apply fnUpd_keeps
      | with_reducible apply msix_keeps
      | with_reducible apply emit_keeps
      | with_reducible refine keeps_ite ?_ ?_
      | with_reducible apply keepsParts_of
      | simp only [keeps_mk]
      | intro _
      | split
      | dsimp only [id])
  | succ _ ih =>
    unfold faultPost
    repeat' (first
      | with_reducible assumption
      | with_reducible apply fnUpd_keeps
      | with_reducible apply msix_keeps
      | with_reducible apply emit_keeps
      | with_reducible refine keeps_ite ?_ ?_
      | with_reducible apply keepsParts_of
      | simp only [keeps_mk]
      | with_reducible apply ih
      | intro _
      | split
      | dsimp only [id])

theorem faultRecord_keeps {s0 : State} {fn : FnId} {r : FaultRec} {s : State}  (hk : Keeps s0 s) :
    Keeps s0 (faultRecord fn r s) := by
  unfold faultRecord
  repeat' (first
    | with_reducible assumption
    | with_reducible apply faultPost_keeps
    | with_reducible apply fnUpd_keeps
    | with_reducible refine keeps_ite ?_ ?_
    | with_reducible apply keepsParts_of
    | simp only [keeps_mk]
    | intro _
    | split
    | dsimp only [id])

end Sys2Proof.Machine
end

