-- ==== Sys2Proof/Laws/KeepsColophon.lean ====
section
/-!
SUPPORT. What the operations of Sys2Proof/Machine/Colophon.lean keep: the queue, the agreement of the TMR copies, and the canonical
form of the memories (Safety).
-/

namespace Sys2Proof.Machine

theorem stageEntry_keeps {s0 : State} {r : Rec} {s : State} (hk : Keeps s0 s) :
    Keeps s0 (stageEntry r s).2 := by
  unfold stageEntry
  repeat' (first
    | with_reducible assumption
    | with_reducible refine keeps_ite ?_ ?_
    | with_reducible apply keepsParts_of
    | simp only [keeps_mk]
    | intro _
    | split
    | dsimp only [id])

theorem stageEntry_keeps_of {s0 : State} {r : Rec} {s : State} {tt : State} {c0 : _} (eq_ : stageEntry r s = (c0, tt)) (hk : Keeps s0 s) : Keeps s0 tt := by
  have := stageEntry_keeps (s0 := s0) (r := r) (s := s) hk
  rw [eq_] at this; exact this

theorem stageReport_keeps {s0 : State} {r : Rec} {c : Status} {s : State}  (hk : Keeps s0 s) :
    Keeps s0 (stageReport r c s).2 := by
  unfold stageReport
  repeat' (first
    | with_reducible assumption
    | with_reducible apply stageEntry_keeps
    | (with_reducible apply stageEntry_keeps_of (by assumption))
    | with_reducible refine keeps_ite ?_ ?_
    | with_reducible apply keepsParts_of
    | simp only [keeps_mk]
    | intro _
    | split
    | dsimp only [id])

theorem stageReport_keeps_of {s0 : State} {r : Rec} {c : Status} {s : State}  {tt : State} {c0 : _} (eq_ : stageReport r c s = (c0, tt)) (hk : Keeps s0 s) : Keeps s0 tt := by
  have := stageReport_keeps (s0 := s0) (r := r) (c := c) (s := s)  hk
  rw [eq_] at this; exact this

theorem postColophon_keeps {s0 : State} {q : ReqId} {partial_ : Bool} {c : Status} {s : State} (hk : Keeps s0 s) :
    Keeps s0 (postColophon q partial_ c s) := by
  unfold postColophon
  repeat' (first
    | with_reducible assumption
    | with_reducible apply noteErr_keeps
    | with_reducible apply postOut_keeps
    | with_reducible refine keeps_ite ?_ ?_
    | with_reducible apply keepsParts_of
    | simp only [keeps_mk]
    | intro _
    | split
    | dsimp only [id])

end Sys2Proof.Machine
end

