-- ==== Sys2Proof/Laws/KeepsEgress.lean ====
section
/-!
SUPPORT. What the operations of Sys2Proof/Machine/Egress.lean keep: the queue, the agreement of the TMR copies, and the canonical
form of the memories (Safety).
-/

namespace Sys2Proof.Machine

theorem linkUpd_keeps {s0 : State} {n : Nat} {f : Link → Link} {s : State}  (hk : Keeps s0 s) :
    Keeps s0 (linkUpd n f s) := by
  unfold linkUpd
  repeat' (first
    | with_reducible assumption
    | with_reducible refine keeps_ite ?_ ?_
    | with_reducible apply keepsParts_of
    | simp only [keeps_mk]
    | intro _
    | split
    | dsimp only [id])

theorem pushPacket_keeps {s0 : State} {n : Nat} {pkt : Packet} {cls : Nat} {tc : Nat} {slot : Nat} {tenant : BitVec 16} {payload : Nat} {hdr : Nat} {s : State} (hk : Keeps s0 s) :
    Keeps s0 (pushPacket n pkt cls tc slot tenant payload hdr s) := by
  unfold pushPacket
  repeat' (first
    | with_reducible assumption
    | with_reducible apply linkUpd_keeps
    | with_reducible refine keeps_ite ?_ ?_
    | with_reducible apply keepsParts_of
    | simp only [keeps_mk]
    | intro _
    | split
    | dsimp only [id])

theorem enqueue_keeps {s0 : State} {n : Nat} {pkt : Packet} {cls : Nat} {tc : Nat} {tenant : Option (BitVec 16)} {payload : Nat} {hdr : Nat} {s : State} (hk : Keeps s0 s) :
    Keeps s0 (enqueue n pkt cls tc tenant payload hdr s) := by
  unfold enqueue
  repeat' (first
    | with_reducible assumption
    | with_reducible apply getD_keeps
    | with_reducible apply pushPacket_keeps
    | with_reducible refine keeps_ite ?_ ?_
    | with_reducible apply keepsParts_of
    | simp only [keeps_mk]
    | intro _
    | split
    | dsimp only [id])

theorem slSend_keeps {s0 : State} {m : SlMsg} {s : State} (hk : Keeps s0 s) :
    Keeps s0 (slSend m s) := by
  unfold slSend
  repeat' (first
    | with_reducible assumption
    | with_reducible apply pushPacket_keeps
    | with_reducible refine keeps_ite ?_ ?_
    | with_reducible apply keepsParts_of
    | simp only [keeps_mk]
    | intro _
    | split
    | dsimp only [id])

theorem sendSuspect_keeps {s0 : State} {d : DevId} {s : State} (hk : Keeps s0 s) :
    Keeps s0 (sendSuspect d s) := by
  unfold sendSuspect
  repeat' (first
    | with_reducible assumption
    | with_reducible apply slSend_keeps
    | with_reducible refine keeps_ite ?_ ?_
    | with_reducible apply keepsParts_of
    | simp only [keeps_mk]
    | intro _
    | split
    | dsimp only [id])

theorem trayDstUpd_keeps {s0 : State} {d : Nat} {f : TrayDst → TrayDst} {s : State}  (hk : Keeps s0 s) :
    Keeps s0 (trayDstUpd d f s) := by
  unfold trayDstUpd
  repeat' (first
    | with_reducible assumption
    | with_reducible refine keeps_ite ?_ ?_
    | with_reducible apply keepsParts_of
    | simp only [keeps_mk]
    | intro _
    | split
    | dsimp only [id])

theorem trayPacket_keeps {s0 : State} {d : Nat} {mk : Bool → Packet} {cls : Nat} {tc : Nat} {tenant : Option (BitVec 16)} {payload : Nat} {s : State}  (hk : Keeps s0 s) :
    Keeps s0 (trayPacket d mk cls tc tenant payload s) := by
  unfold trayPacket
  repeat' (first
    | with_reducible assumption
    | with_reducible apply enqueue_keeps
    | with_reducible refine keeps_ite ?_ ?_
    | with_reducible apply keepsParts_of
    | simp only [keeps_mk]
    | intro _
    | split
    | dsimp only [id])

theorem trayQueue_keeps {s0 : State} {d : Nat} {resent : Bool} {r : TrayReq} {why : TrayWhy} {s : State} (hk : Keeps s0 s) :
    Keeps s0 (trayQueue d resent r why s) := by
  unfold trayQueue
  repeat' (first
    | with_reducible assumption
    | with_reducible apply trayPacket_keeps
    | with_reducible refine keeps_ite ?_ ?_
    | with_reducible apply keepsParts_of
    | simp only [keeps_mk]
    | intro _
    | split
    | dsimp only [id])

theorem traySend_keeps {s0 : State} {d : Nat} {r : TrayReq} {why : TrayWhy} {s : State} (hk : Keeps s0 s) :
    Keeps s0 (traySend d r why s) := by
  unfold traySend
  repeat' (first
    | with_reducible assumption
    | with_reducible apply trayQueue_keeps
    | with_reducible apply trayDstUpd_keeps
    | with_reducible refine keeps_ite ?_ ?_
    | with_reducible apply keepsParts_of
    | simp only [keeps_mk]
    | intro _
    | split
    | dsimp only [id])

theorem trayIssue_keeps {s0 : State} {d : Nat} {r : TrayReq} {why : TrayWhy} {s : State} (hk : Keeps s0 s) :
    Keeps s0 (trayIssue d r why s) := by
  unfold trayIssue
  repeat' (first
    | with_reducible assumption
    | with_reducible apply traySend_keeps
    | with_reducible apply trayDstUpd_keeps
    | with_reducible refine keeps_ite ?_ ?_
    | with_reducible apply keepsParts_of
    | simp only [keeps_mk]
    | intro _
    | split
    | dsimp only [id])

theorem trayDrainWaiting_keeps {s0 : State} {fuel : Nat} {d : Nat} {s : State} (hk : Keeps s0 s) :
    Keeps s0 (trayDrainWaiting fuel d s) := by
  induction fuel generalizing s with
  | zero =>
    unfold trayDrainWaiting
    repeat' (first
      | with_reducible assumption
      | with_reducible apply traySend_keeps
      | with_reducible apply trayDstUpd_keeps
      | with_reducible refine keeps_ite ?_ ?_
      | with_reducible apply keepsParts_of
      | simp only [keeps_mk]
      | intro _
      | split
      | dsimp only [id])
  | succ _ ih =>
    unfold trayDrainWaiting
    repeat' (first
      | with_reducible assumption
      | with_reducible apply traySend_keeps
      | with_reducible apply trayDstUpd_keeps
      | with_reducible refine keeps_ite ?_ ?_
      | with_reducible apply keepsParts_of
      | simp only [keeps_mk]
      | with_reducible apply ih
      | intro _
      | split
      | dsimp only [id])

theorem trayDrainAll_keeps {s0 : State} {s : State} (hk : Keeps s0 s) :
    Keeps s0 (trayDrainAll s) := by
  unfold trayDrainAll
  repeat' (first
    | with_reducible assumption
    | with_reducible apply foldl_keeps
    | with_reducible apply foldl_keeps_fst
    | with_reducible apply foldl_keeps_snd
    | with_reducible apply trayDrainWaiting_keeps
    | with_reducible refine keeps_ite ?_ ?_
    | with_reducible apply keepsParts_of
    | simp only [keeps_mk]
    | intro _
    | split
    | dsimp only [id])

theorem trayAnswer_keeps {s0 : State} {h : TrayHdr} {c : Status} {payload : List Byte} {s : State}  (hk : Keeps s0 s) :
    Keeps s0 (trayAnswer h c payload s) := by
  unfold trayAnswer
  repeat' (first
    | with_reducible assumption
    | with_reducible apply trayPacket_keeps
    | with_reducible refine keeps_ite ?_ ?_
    | with_reducible apply keepsParts_of
    | simp only [keeps_mk]
    | intro _
    | split
    | dsimp only [id])

theorem podQueue_keeps {s0 : State} {plane : Option Nat} {p : Packet} {cls : Nat} {tc : Nat} {tenant : Option (BitVec 16)} {len : Nat} {s : State} (hk : Keeps s0 s) :
    Keeps s0 (podQueue plane p cls tc tenant len s) := by
  unfold podQueue
  repeat' (first
    | with_reducible assumption
    | with_reducible apply enqueue_keeps
    | with_reducible refine keeps_ite ?_ ?_
    | with_reducible apply keepsParts_of
    | simp only [keeps_mk]
    | intro _
    | split
    | dsimp only [id])

theorem podPlace_keeps {s0 : State} {id : Nat} {s : State} (hk : Keeps s0 s) :
    Keeps s0 (podPlace id s) := by
  unfold podPlace
  repeat' (first
    | with_reducible assumption
    | with_reducible apply enqueue_keeps
    | with_reducible refine keeps_ite ?_ ?_
    | with_reducible apply keepsParts_of
    | simp only [keeps_mk]
    | intro _
    | split
    | dsimp only [id])

theorem podSend_keeps {s0 : State} {h : PodHdr} {payload : List Byte} {fw : Option FwMsg} {tenant : Option (BitVec 16)} {tc : Nat} {s : State} (hk : Keeps s0 s) :
    Keeps s0 (podSend h payload fw tenant tc s) := by
  unfold podSend
  repeat' (first
    | with_reducible assumption
    | with_reducible apply podPlace_keeps
    | with_reducible refine keeps_ite ?_ ?_
    | with_reducible apply keepsParts_of
    | simp only [keeps_mk]
    | intro _
    | split
    | dsimp only [id])

theorem fetchEnds_keeps {s0 : State} {c : Status} {s : State}  (hk : Keeps s0 s) :
    Keeps s0 (fetchEnds c s) := by
  unfold fetchEnds
  repeat' (first
    | with_reducible assumption
    | with_reducible refine keeps_ite ?_ ?_
    | with_reducible apply keepsParts_of
    | simp only [keeps_mk]
    | intro _
    | split
    | dsimp only [id])

theorem fwFails_keeps {s0 : State} {m : FwMsg} {c : Status} {s : State} (hk : Keeps s0 s) :
    Keeps s0 (fwFails m c s) := by
  unfold fwFails
  repeat' (first
    | with_reducible assumption
    | with_reducible apply fetchEnds_keeps
    | with_reducible refine keeps_ite ?_ ?_
    | with_reducible apply keepsParts_of
    | simp only [keeps_mk]
    | intro _
    | split
    | dsimp only [id])

theorem sendPod_keeps {s0 : State} {d : DevId} {epoch : Word} {m : FwMsg} {s : State} (hk : Keeps s0 s) :
    Keeps s0 (sendPod d epoch m s) := by
  unfold sendPod
  repeat' (first
    | with_reducible assumption
    | with_reducible apply podSend_keeps
    | with_reducible refine keeps_ite ?_ ?_
    | with_reducible apply keepsParts_of
    | simp only [keeps_mk]
    | intro _
    | split
    | dsimp only [id])

theorem fetchSend_keeps {s0 : State} {s : State} (hk : Keeps s0 s) :
    Keeps s0 (fetchSend s) := by
  unfold fetchSend
  repeat' (first
    | with_reducible assumption
    | with_reducible apply sendPod_keeps
    | with_reducible apply fetchEnds_keeps
    | with_reducible refine keeps_ite ?_ ?_
    | with_reducible apply keepsParts_of
    | simp only [keeps_mk]
    | intro _
    | split
    | dsimp only [id])

theorem sendFw_keeps {s0 : State} {d : DevId} {epoch : Word} {m : FwMsg} {s : State} (hk : Keeps s0 s) :
    Keeps s0 (sendFw d epoch m s) := by
  unfold sendFw
  repeat' (first
    | with_reducible assumption
    | with_reducible apply emit_keeps
    | with_reducible apply sendPod_keeps
    | with_reducible apply enqueue_keeps
    | with_reducible refine keeps_ite ?_ ?_
    | with_reducible apply keepsParts_of
    | simp only [keeps_mk]
    | intro _
    | split
    | dsimp only [id])

end Sys2Proof.Machine
end

