-- ==== Sys2Proof/Laws/KeepsRecords.lean ====
section
/-!
SUPPORT. What the operations of Sys2Proof/Machine/Records.lean keep: the queue, the agreement of the TMR copies, and the canonical
form of the memories (Safety).
-/

namespace Sys2Proof.Machine

theorem recUpd_keeps {s0 : State} {q : ReqId} {f : Rec → Rec} {s : State}  (hk : Keeps s0 s) :
    Keeps s0 (recUpd q f s) := by
  unfold recUpd
  repeat' (first
    | with_reducible assumption
    | with_reducible refine keeps_ite ?_ ?_
    | with_reducible apply keepsParts_of
    | simp only [keeps_mk]
    | intro _
    | split
    | dsimp only [id])

theorem recCreate_keeps {s0 : State} {r : Rec} {s : State}  (hk : Keeps s0 s) :
    Keeps s0 (recCreate r s) := by
  unfold recCreate
  repeat' (first
    | with_reducible assumption
    | with_reducible refine keeps_ite ?_ ?_
    | with_reducible apply keepsParts_of
    | simp only [keeps_mk]
    | intro _
    | split
    | dsimp only [id])

theorem recRetire_keeps {s0 : State} {q : ReqId} {c : Status} {s : State}  (hk : Keeps s0 s) :
    Keeps s0 (recRetire q c s) := by
  unfold recRetire
  repeat' (first
    | with_reducible assumption
    | with_reducible refine keeps_ite ?_ ?_
    | with_reducible apply keepsParts_of
    | simp only [keeps_mk]
    | intro _
    | split
    | dsimp only [id])

theorem recFree_keeps {s0 : State} {q : ReqId} {s : State}  (hk : Keeps s0 s) :
    Keeps s0 (recFree q s) := by
  unfold recFree
  repeat' (first
    | with_reducible assumption
    | with_reducible refine keeps_ite ?_ ?_
    | with_reducible apply keepsParts_of
    | simp only [keeps_mk]
    | intro _
    | split
    | dsimp only [id])

theorem countLost_keeps {s0 : State} {s : State}  (hk : Keeps s0 s) :
    Keeps s0 (countLost s) := by
  unfold countLost
  repeat' (first
    | with_reducible assumption
    | with_reducible apply noteErr_keeps
    | with_reducible refine keeps_ite ?_ ?_
    | with_reducible apply keepsParts_of
    | simp only [keeps_mk]
    | intro _
    | split
    | dsimp only [id])

theorem addCond_keeps {s0 : State} {q : ReqId} {c : Status} {s : State}  (hk : Keeps s0 s) :
    Keeps s0 (addCond q c s) := by
  unfold addCond
  repeat' (first
    | with_reducible assumption
    | with_reducible apply recUpd_keeps
    | with_reducible refine keeps_ite ?_ ?_
    | with_reducible apply keepsParts_of
    | simp only [keeps_mk]
    | intro _
    | split
    | dsimp only [id])

theorem mapPrune_keeps {s0 : State} {s : State} (hk : Keeps s0 s) :
    Keeps s0 (mapPrune s) := by
  unfold mapPrune
  repeat' (first
    | with_reducible assumption
    | with_reducible refine keeps_ite ?_ ?_
    | with_reducible apply keepsParts_of
    | simp only [keeps_mk]
    | intro _
    | split
    | dsimp only [id])

theorem quotaUpd_keeps {s0 : State} {t : BitVec 16} {f : Quota → Quota} {s : State}  (hk : Keeps s0 s) :
    Keeps s0 (quotaUpd t f s) := by
  unfold quotaUpd
  repeat' (first
    | with_reducible assumption
    | with_reducible refine keeps_ite ?_ ?_
    | with_reducible apply keepsParts_of
    | simp only [keeps_mk]
    | intro _
    | split
    | dsimp only [id])

theorem quotaReserve_keeps {s0 : State} {t : BitVec 16} {n : Nat} {s : State}  (hk : Keeps s0 s) :
    Keeps s0 (quotaReserve t n s).2 := by
  unfold quotaReserve
  repeat' (first
    | with_reducible assumption
    | with_reducible apply quotaUpd_keeps
    | with_reducible refine keeps_ite ?_ ?_
    | with_reducible apply keepsParts_of
    | simp only [keeps_mk]
    | intro _
    | split
    | dsimp only [id])

theorem quotaReserve_keeps_of {s0 : State} {t : BitVec 16} {n : Nat} {s : State}  {tt : State} {c0 : _} (eq_ : quotaReserve t n s = (c0, tt)) (hk : Keeps s0 s) : Keeps s0 tt := by
  have := quotaReserve_keeps (s0 := s0) (t := t) (n := n) (s := s)  hk
  rw [eq_] at this; exact this

theorem quotaReturn_keeps {s0 : State} {t : BitVec 16} {n : Nat} {s : State}  (hk : Keeps s0 s) :
    Keeps s0 (quotaReturn t n s) := by
  unfold quotaReturn
  repeat' (first
    | with_reducible assumption
    | with_reducible apply quotaUpd_keeps
    | with_reducible refine keeps_ite ?_ ?_
    | with_reducible apply keepsParts_of
    | simp only [keeps_mk]
    | intro _
    | split
    | dsimp only [id])

theorem chargeHeld_keeps {s0 : State} {t : BitVec 16} {leave : Bool} {n : Nat} {s : State}  (hk : Keeps s0 s) :
    Keeps s0 (chargeHeld t leave n s) := by
  unfold chargeHeld
  repeat' (first
    | with_reducible assumption
    | with_reducible apply quotaUpd_keeps
    | with_reducible refine keeps_ite ?_ ?_
    | with_reducible apply keepsParts_of
    | simp only [keeps_mk]
    | intro _
    | split
    | dsimp only [id])

theorem galleyUpd_keeps {s0 : State} {q : ReqId} {f : Galley → Galley} {s : State}  (hk : Keeps s0 s) :
    Keeps s0 (galleyUpd q f s) := by
  unfold galleyUpd
  repeat' (first
    | with_reducible assumption
    | with_reducible refine keeps_ite ?_ ?_
    | with_reducible apply keepsParts_of
    | simp only [keeps_mk]
    | intro _
    | split
    | dsimp only [id])

end Sys2Proof.Machine
end

