-- ==== Sys2Proof/Laws/KeepsSlugs.lean ====
section
/-!
SUPPORT. What the operations of Sys2Proof/Machine/Slugs.lean keep: the queue, the agreement of the TMR copies, and the canonical
form of the memories (Safety).
-/

namespace Sys2Proof.Machine

theorem slotRef_keeps {s0 : State} {part : Nat} {table : Nat} {b : Bool} {add : Bool} {n : Nat} {s : State}  (hk : Keeps s0 s) :
    Keeps s0 (slotRef part table b add n s) := by
  unfold slotRef
  repeat' (first
    | with_reducible assumption
    | with_reducible refine keeps_ite ?_ ?_
    | with_reducible apply keepsParts_of
    | simp only [keeps_mk]
    | intro _
    | split
    | dsimp only [id])

theorem slugFailure_keeps {s0 : State} {crc : Bool} {s : State}  (hk : Keeps s0 s) :
    Keeps s0 (slugFailure crc s) := by
  unfold slugFailure
  repeat' (first
    | with_reducible assumption
    | with_reducible apply noteErr_keeps
    | with_reducible refine keeps_ite ?_ ?_
    | with_reducible apply keepsParts_of
    | simp only [keeps_mk]
    | intro _
    | split
    | dsimp only [id])

end Sys2Proof.Machine
end

