-- ==== Sys2Proof/Laws/KeepsGalley.lean ====
section
/-!
SUPPORT. What the operations of Sys2Proof/Machine/Galley.lean keep: the queue, the agreement of the TMR copies, and the canonical
form of the memories (Safety).
-/

namespace Sys2Proof.Machine

theorem pageUpd_keeps {s0 : State} {q : ReqId} {k : Nat} {l : Nat} {p : Nat} {f : Page → Page} {s : State}  (hk : Keeps s0 s) :
    Keeps s0 (pageUpd q k l p f s) := by
  unfold pageUpd
  repeat' (first
    | with_reducible assumption
    | with_reducible apply galleyUpd_keeps
    | with_reducible refine keeps_ite ?_ ?_
    | with_reducible apply keepsParts_of
    | simp only [keeps_mk]
    | intro _
    | split
    | dsimp only [id])

theorem syncHeader_keeps {s0 : State} {q : ReqId} {l : Nat} {p : Nat} {slugs : Nat} {s : State}  (hk : Keeps s0 s) :
    Keeps s0 (syncHeader q l p slugs s) := by
  unfold syncHeader
  repeat' (first
    | with_reducible assumption
    | with_reducible apply t1Write_keeps
    | with_reducible refine keeps_ite ?_ ?_
    | with_reducible apply keepsParts_of
    | simp only [keeps_mk]
    | intro _
    | split
    | dsimp only [id])

theorem syncOpen_keeps {s0 : State} {q : ReqId} {l : Nat} {s : State} (hk : Keeps s0 s) :
    Keeps s0 (syncOpen q l s) := by
  unfold syncOpen
  repeat' (first
    | with_reducible assumption
    | with_reducible apply foldl_keeps
    | with_reducible apply foldl_keeps_fst
    | with_reducible apply foldl_keeps_snd
    | with_reducible apply syncHeader_keeps
    | with_reducible refine keeps_ite ?_ ?_
    | with_reducible apply keepsParts_of
    | simp only [keeps_mk]
    | intro _
    | split
    | dsimp only [id])

theorem openPage_keeps_of {s0 : State} {q : ReqId} {k : Nat} {l : Nat} {p : Nat} {st : BitVec 3} {s : State}  {tt : State} (eq_ : openPage q k l p st s = some tt) (hk : Keeps s0 s) : Keeps s0 tt := by
  unfold openPage at eq_
  repeat' (first | split at eq_ | dsimp only at eq_)
  all_goals (first | (obtain ⟨⟨_, _⟩, eq_, rfl⟩ := Option.map_eq_some_iff.1 eq_) | (cases eq_; done) | (cases eq_) | skip)
  repeat' (first
    | with_reducible assumption
    | with_reducible apply chargeHeld_keeps
    | with_reducible apply pageUpd_keeps
    | with_reducible apply recUpd_keeps
    | with_reducible refine keeps_ite ?_ ?_
    | with_reducible apply keepsParts_of
    | simp only [keeps_mk]
    | intro _
    | split
    | dsimp only [id])

theorem dropRef_keeps {s0 : State} {g : Galley} {x : Page} {s : State}  (hk : Keeps s0 s) :
    Keeps s0 (dropRef g x s) := by
  unfold dropRef
  repeat' (first
    | with_reducible assumption
    | with_reducible apply slotRef_keeps
    | with_reducible refine keeps_ite ?_ ?_
    | with_reducible apply keepsParts_of
    | simp only [keeps_mk]
    | intro _
    | split
    | dsimp only [id])

theorem emptyPage_keeps {s0 : State} {q : ReqId} {k : Nat} {l : Nat} {p : Nat} {s : State}  (hk : Keeps s0 s) :
    Keeps s0 (emptyPage q k l p s) := by
  unfold emptyPage
  repeat' (first
    | with_reducible assumption
    | with_reducible apply chargeHeld_keeps
    | with_reducible apply pageUpd_keeps
    | with_reducible apply dropRef_keeps
    | with_reducible apply recUpd_keeps
    | with_reducible refine keeps_ite ?_ ?_
    | with_reducible apply keepsParts_of
    | simp only [keeps_mk]
    | intro _
    | split
    | dsimp only [id])

theorem reportEnd_keeps {s0 : State} {q : ReqId} {c : Status} {s : State}  (hk : Keeps s0 s) :
    Keeps s0 (reportEnd q c s) := by
  unfold reportEnd
  repeat' (first
    | with_reducible assumption
    | with_reducible apply addCond_keeps
    | with_reducible apply sendFw_keeps
    | with_reducible refine keeps_ite ?_ ?_
    | with_reducible apply keepsParts_of
    | simp only [keeps_mk]
    | intro _
    | split
    | dsimp only [id])

theorem repairBit_keeps {s0 : State} {n : Nat} {v : Bool} {s : State} (hk : Keeps s0 s) : Keeps s0 (repairBit n v s) := by
  unfold repairBit
  refine hk.trans ⟨rfl, ?_, id⟩
  intro h
  simp only [State.tmrOk, Bool.and_eq_true] at h ⊢
  exact ⟨h.1, tmrAll_agree _⟩

theorem addRepair_keeps {s0 : State} {e : RepairEntry} {s : State}  (hk : Keeps s0 s) :
    Keeps s0 (addRepair e s) := by
  unfold addRepair
  repeat' (first
    | with_reducible assumption
    | with_reducible apply repairBit_keeps
    | with_reducible refine keeps_ite ?_ ?_
    | with_reducible apply keepsParts_of
    | simp only [keeps_mk]
    | intro _
    | split
    | dsimp only [id])

theorem pairFollow_keeps {s0 : State} {s : State}  (hk : Keeps s0 s) :
    Keeps s0 (pairFollow s) := by
  unfold pairFollow
  repeat' (first
    | with_reducible assumption
    | with_reducible refine keeps_ite ?_ ?_
    | with_reducible apply keepsParts_of
    | simp only [keeps_mk]
    | intro _
    | split
    | dsimp only [id])

theorem plateLost_keeps {s0 : State} {r : PlateRef} {s : State}  (hk : Keeps s0 s) :
    Keeps s0 (plateLost r s) := by
  unfold plateLost
  repeat' (first
    | with_reducible assumption
    | with_reducible apply pairFollow_keeps
    | with_reducible refine keeps_ite ?_ ?_
    | with_reducible apply keepsParts_of
    | simp only [keeps_mk]
    | intro _
    | split
    | dsimp only [id])

theorem frameRetired_keeps {s0 : State} {f : Nat} {s : State} (hk : Keeps s0 s) :
    Keeps s0 (frameRetired f s) := by
  unfold frameRetired
  repeat' (first
    | with_reducible assumption
    | with_reducible apply noteErr_keeps
    | with_reducible apply addRepair_keeps
    | with_reducible refine keeps_ite ?_ ?_
    | with_reducible apply keepsParts_of
    | simp only [keeps_mk]
    | intro _
    | split
    | dsimp only [id])

theorem retireFrame_keeps {s0 : State} {f : Nat} {s : State} (hk : Keeps s0 s) :
    Keeps s0 (retireFrame f s) := by
  unfold retireFrame
  repeat' (first
    | with_reducible assumption
    | with_reducible apply frameRetired_keeps
    | with_reducible apply plateLost_keeps
    | with_reducible apply reportEnd_keeps
    | with_reducible apply emptyPage_keeps
    | with_reducible refine keeps_ite ?_ ?_
    | with_reducible apply keepsParts_of
    | simp only [keeps_mk]
    | intro _
    | split
    | dsimp only [id])

theorem granuleFail_keeps {s0 : State} {mac : Bool} {addr : Nat} {s : State}  (hk : Keeps s0 s) :
    Keeps s0 (granuleFail mac addr s) := by
  unfold granuleFail
  repeat' (first
    | with_reducible assumption
    | with_reducible apply noteErr_keeps
    | with_reducible apply lpcUpd_keeps
    | with_reducible refine keeps_ite ?_ ?_
    | with_reducible apply keepsParts_of
    | simp only [keeps_mk]
    | intro _
    | split
    | dsimp only [id])

theorem placeRow_keeps_of {s0 : State} {q : ReqId} {l : Nat} {pos : Nat} {step : Word} {spec : Bool} {row : List Byte} {s : State}  {tt : State} (eq_ : placeRow q l pos step spec row s = some tt) (hk : Keeps s0 s) : Keeps s0 tt := by
  unfold placeRow at eq_
  repeat' (first | split at eq_ | dsimp only at eq_)
  all_goals (first | (obtain ⟨⟨_, _⟩, eq_, rfl⟩ := Option.map_eq_some_iff.1 eq_) | (cases eq_; done) | (cases eq_) | skip)
  repeat' (first
    | with_reducible assumption
    | with_reducible apply syncHeader_keeps
    | with_reducible apply openPage_keeps
    | with_reducible apply t1Write_keeps
    | with_reducible apply meterT1_keeps
    | with_reducible apply pageUpd_keeps
    | (with_reducible apply openPage_keeps_of (by assumption))
    | (with_reducible refine ite_some_keeps (by assumption) ?_ ?_)
    | with_reducible refine keeps_ite ?_ ?_
    | with_reducible apply keepsParts_of
    | simp only [keeps_mk]
    | intro _
    | split
    | dsimp only [id])

theorem advanceCommit_keeps {s0 : State} {q : ReqId} {l : Nat} {s : State}  (hk : Keeps s0 s) :
    Keeps s0 (advanceCommit q l s) := by
  unfold advanceCommit
  repeat' (first
    | with_reducible assumption
    | with_reducible apply galleyUpd_keeps
    | with_reducible refine keeps_ite ?_ ?_
    | with_reducible apply keepsParts_of
    | simp only [keeps_mk]
    | intro _
    | split
    | dsimp only [id])

theorem appendRow_keeps {s0 : State} {sender : DevId} {a : AppendHdr} {row : List Byte} {s : State} (hk : Keeps s0 s) :
    Keeps s0 (appendRow sender a row s).2 := by
  unfold appendRow
  repeat' (first
    | with_reducible assumption
    | with_reducible apply galleyUpd_keeps
    | with_reducible apply advanceCommit_keeps
    | (with_reducible apply placeRow_keeps_of (by assumption))
    | with_reducible refine keeps_ite ?_ ?_
    | with_reducible apply keepsParts_of
    | simp only [keeps_mk]
    | intro _
    | split
    | dsimp only [id])

theorem appendRow_keeps_of {s0 : State} {sender : DevId} {a : AppendHdr} {row : List Byte} {s : State} {tt : State} {c0 : _} (eq_ : appendRow sender a row s = (c0, tt)) (hk : Keeps s0 s) : Keeps s0 tt := by
  have := appendRow_keeps (s0 := s0) (sender := sender) (a := a) (row := row) (s := s) hk
  rw [eq_] at this; exact this

theorem writeThumb_keeps_of {s0 : State} {q : ReqId} {l : Nat} {p : Nat} {entry : List Byte} {s : State}  {tt : State} (eq_ : writeThumb q l p entry s = some tt) (hk : Keeps s0 s) : Keeps s0 tt := by
  unfold writeThumb at eq_
  repeat' (first | split at eq_ | dsimp only at eq_)
  all_goals (first | (obtain ⟨⟨_, _⟩, eq_, rfl⟩ := Option.map_eq_some_iff.1 eq_) | (cases eq_; done) | (cases eq_) | skip)
  repeat' (first
    | with_reducible assumption
    | with_reducible apply openPage_keeps
    | with_reducible apply t1Write_keeps
    | with_reducible apply meterT1_keeps
    | (with_reducible apply openPage_keeps_of (by assumption))
    | (with_reducible refine ite_some_keeps (by assumption) ?_ ?_)
    | with_reducible refine keeps_ite ?_ ?_
    | with_reducible apply keepsParts_of
    | simp only [keeps_mk]
    | intro _
    | split
    | dsimp only [id])

theorem beginSeals_keeps {s0 : State} {q : ReqId} {n : Nat} {s : State}  (hk : Keeps s0 s) :
    Keeps s0 (beginSeals q n s) := by
  unfold beginSeals
  repeat' (first
    | with_reducible assumption
    | with_reducible apply galleyUpd_keeps
    | with_reducible refine keeps_ite ?_ ?_
    | with_reducible apply keepsParts_of
    | simp only [keeps_mk]
    | intro _
    | split
    | dsimp only [id])

theorem sealThumb_keeps_of {s0 : State} {q : ReqId} {g : Galley} {l : Nat} {p : Nat} {codes : List Nat} {s : State}  {tt : State} (eq_ : sealThumb q g l p codes s = some tt) (hk : Keeps s0 s) : Keeps s0 tt := by
  unfold sealThumb at eq_
  repeat' (first | split at eq_ | dsimp only at eq_)
  all_goals (first | (obtain ⟨⟨_, _⟩, eq_, rfl⟩ := Option.map_eq_some_iff.1 eq_) | (cases eq_; done) | (cases eq_) | skip)
  repeat' (first
    | with_reducible assumption
    | with_reducible apply writeThumb_keeps
    | (with_reducible apply writeThumb_keeps_of (by assumption))
    | (with_reducible refine ite_some_keeps (by assumption) ?_ ?_)
    | with_reducible refine keeps_ite ?_ ?_
    | with_reducible apply keepsParts_of
    | simp only [keeps_mk]
    | intro _
    | split
    | dsimp only [id])

theorem sealCode_keeps {s0 : State} {q : ReqId} {g : Galley} {l : Nat} {p : Nat} {codes : List Nat} {s : State} (hk : Keeps s0 s) :
    Keeps s0 (sealCode q g l p codes s).1 := by
  unfold sealCode
  repeat' (first
    | with_reducible assumption
    | with_reducible apply slotRef_keeps
    | with_reducible apply galleyUpd_keeps
    | with_reducible apply t1Write_keeps
    | with_reducible apply pageUpd_keeps
    | with_reducible refine keeps_ite ?_ ?_
    | with_reducible apply keepsParts_of
    | simp only [keeps_mk]
    | intro _
    | split
    | dsimp only [id])

theorem sealCode_keeps_of {s0 : State} {q : ReqId} {g : Galley} {l : Nat} {p : Nat} {codes : List Nat} {s : State} {tt : State} {c0 : _} (eq_ : sealCode q g l p codes s = (tt, c0)) (hk : Keeps s0 s) : Keeps s0 tt := by
  have := sealCode_keeps (s0 := s0) (q := q) (g := g) (l := l) (p := p) (codes := codes) (s := s) hk
  rw [eq_] at this; exact this

theorem sealPage_keeps_of {s0 : State} {q : ReqId} {l : Nat} {p : Nat} {s : State}  {tt : State} {c0 : _} (eq_ : sealPage q l p s = some (c0, tt)) (hk : Keeps s0 s) : Keeps s0 tt := by
  unfold sealPage at eq_
  repeat' (first | split at eq_ | dsimp only at eq_)
  all_goals (first | (cases eq_; done) | (cases eq_) | skip)
  repeat' (first
    | with_reducible assumption
    | with_reducible apply syncHeader_keeps
    | with_reducible apply sealThumb_keeps
    | with_reducible apply sealCode_keeps
    | with_reducible apply meterT1_keeps
    | with_reducible apply pageUpd_keeps
    | (with_reducible apply sealThumb_keeps_of (by assumption))
    | (with_reducible apply sealCode_keeps_of (by assumption))
    | with_reducible refine keeps_ite ?_ ?_
    | with_reducible apply keepsParts_of
    | simp only [keeps_mk]
    | intro _
    | split
    | dsimp only [id])

theorem compareSeal_keeps {s0 : State} {q : ReqId} {l : Nat} {p : Nat} {s : State} (hk : Keeps s0 s) :
    Keeps s0 (compareSeal q l p s) := by
  unfold compareSeal
  repeat' (first
    | with_reducible assumption
    | with_reducible apply noteErr_keeps
    | with_reducible apply retireFrame_keeps
    | with_reducible apply pageUpd_keeps
    | with_reducible refine keeps_ite ?_ ?_
    | with_reducible apply keepsParts_of
    | simp only [keeps_mk]
    | intro _
    | split
    | dsimp only [id])

theorem freeT3_keeps {s0 : State} {q : ReqId} {s : State}  (hk : Keeps s0 s) :
    Keeps s0 (freeT3 q s) := by
  unfold freeT3
  repeat' (first
    | with_reducible assumption
    | with_reducible apply quotaUpd_keeps
    | with_reducible refine keeps_ite ?_ ?_
    | with_reducible apply keepsParts_of
    | simp only [keeps_mk]
    | intro _
    | split
    | dsimp only [id])

theorem freePages_keeps {s0 : State} {q : ReqId} {sel : Nat → Bool} {s : State}  (hk : Keeps s0 s) :
    Keeps s0 (freePages q sel s) := by
  unfold freePages
  repeat' (first
    | with_reducible assumption
    | with_reducible apply chargeHeld_keeps
    | with_reducible apply galleyUpd_keeps
    | with_reducible apply slotRef_keeps
    | with_reducible apply recUpd_keeps
    | with_reducible refine keeps_ite ?_ ?_
    | with_reducible apply keepsParts_of
    | simp only [keeps_mk]
    | intro _
    | split
    | dsimp only [id])

theorem freeGalley_keeps {s0 : State} {q : ReqId} {s : State}  (hk : Keeps s0 s) :
    Keeps s0 (freeGalley q s) := by
  unfold freeGalley
  repeat' (first
    | with_reducible assumption
    | with_reducible apply quotaReturn_keeps
    | with_reducible apply freePages_keeps
    | with_reducible apply freeT3_keeps
    | with_reducible refine keeps_ite ?_ ?_
    | with_reducible apply keepsParts_of
    | simp only [keeps_mk]
    | intro _
    | split
    | dsimp only [id])

theorem expirePages_keeps {s0 : State} {q : ReqId} {s : State}  (hk : Keeps s0 s) :
    Keeps s0 (expirePages q s) := by
  unfold expirePages
  repeat' (first
    | with_reducible assumption
    | with_reducible apply galleyUpd_keeps
    | with_reducible apply freeT3_keeps
    | with_reducible refine keeps_ite ?_ ?_
    | with_reducible apply keepsParts_of
    | simp only [keeps_mk]
    | intro _
    | split
    | dsimp only [id])

theorem resetGalley_keeps {s0 : State} {q : ReqId} {s : State}  (hk : Keeps s0 s) :
    Keeps s0 (resetGalley q s) := by
  unfold resetGalley
  repeat' (first
    | with_reducible assumption
    | with_reducible apply galleyUpd_keeps
    | with_reducible apply freePages_keeps
    | with_reducible apply freeT3_keeps
    | with_reducible refine keeps_ite ?_ ?_
    | with_reducible apply keepsParts_of
    | simp only [keeps_mk]
    | intro _
    | split
    | dsimp only [id])

end Sys2Proof.Machine
end

