-- ==== Sys2Proof/Laws/KeepsMemory.lean ====
section
/-!
SUPPORT. What the operations of Sys2Proof/Machine/Memory.lean keep: the queue, the agreement of the TMR copies, and the canonical
form of the memories (Safety).
-/

namespace Sys2Proof.Machine

theorem sliceStore_keeps {s0 : State} {r : Nat} {off : Nat} {bs : List Byte} {s : State} (hk : Keeps s0 s) :
    Keeps s0 (sliceStore r off bs s) := by
  unfold sliceStore
  repeat' (first
    | with_reducible assumption
    | with_reducible refine keeps_ite ?_ ?_
    | with_reducible apply keepsParts_of
    | simp only [keeps_mk]
    | with_reducible apply memOk_ite
    | with_reducible apply memParts_of
    | simp only [memOk_mk]
    | with_reducible refine memParts_mk ?_ ?_ ?_
    | with_reducible apply memCase
    | with_reducible apply memAcc
    | with_reducible apply memMail
    | with_reducible apply Mem.store_wf
    | with_reducible apply Mem.clear_wf
    | with_reducible apply Mem.filter_wf
    | with_reducible apply Mem.over_wf
    | exact Mem.nil_wf
    | (with_reducible refine keepsParts_mem ?_ ?_ ?_ ?_ ?_)
    | with_reducible exact id
    | with_reducible exact Mem.store_wf _ _ _
    | with_reducible exact Mem.clear_wf _ _ _
    | with_reducible exact foldl_clear_wf
    | with_reducible exact (fun _ => Mem.nil_wf)
    | with_reducible exact (all_nil_keeps (p := Saved.memOk))
    | with_reducible exact (all_filter_keeps (p := Saved.memOk))
    | with_reducible exact (all_nil_keeps (p := Cluster.memOk))
    | with_reducible apply all_map_keeps
    | intro _
    | split
    | dsimp only [id])

theorem countCached_keeps {s0 : State} {gs : List Nat} {s : State}  (hk : Keeps s0 s) :
    Keeps s0 (countCached gs s) := by
  unfold countCached
  repeat' (first
    | with_reducible assumption
    | with_reducible apply foldl_keeps
    | with_reducible apply foldl_keeps_fst
    | with_reducible apply foldl_keeps_snd
    | with_reducible apply bumpFree_keeps
    | with_reducible apply lpcUpd_keeps
    | with_reducible refine keeps_ite ?_ ?_
    | with_reducible apply keepsParts_of
    | simp only [keeps_mk]
    | intro _
    | split
    | dsimp only [id])

theorem partLoad_keeps {s0 : State} {p : Nat} {off : Nat} {n : Nat} {s : State} (hk : Keeps s0 s) :
    Keeps s0 (partLoad p off n s).2 := by
  unfold partLoad
  repeat' (first
    | with_reducible assumption
    | with_reducible apply countGranules_keeps
    | with_reducible apply countCached_keeps
    | with_reducible refine keeps_ite ?_ ?_
    | with_reducible apply keepsParts_of
    | simp only [keeps_mk]
    | intro _
    | split
    | dsimp only [id])

theorem partLoad_keeps_of {s0 : State} {p : Nat} {off : Nat} {n : Nat} {s : State} {tt : State} {c0 : _} (eq_ : partLoad p off n s = (c0, tt)) (hk : Keeps s0 s) : Keeps s0 tt := by
  have := partLoad_keeps (s0 := s0) (p := p) (off := off) (n := n) (s := s) hk
  rw [eq_] at this; exact this

theorem partStore_keeps {s0 : State} {p : Nat} {off : Nat} {bs : List Byte} {s : State} (hk : Keeps s0 s) :
    Keeps s0 (partStore p off bs s) := by
  unfold partStore
  repeat' (first
    | with_reducible assumption
    | with_reducible apply t1Write_keeps
    | with_reducible refine keeps_ite ?_ ?_
    | with_reducible apply keepsParts_of
    | simp only [keeps_mk]
    | intro _
    | split
    | dsimp only [id])

theorem writeBack_keeps {s0 : State} {rs : List Nat} {s : State} (hk : Keeps s0 s) :
    Keeps s0 (writeBack rs s) := by
  unfold writeBack
  repeat' (first
    | with_reducible assumption
    | with_reducible apply foldl_keeps
    | with_reducible apply foldl_keeps_fst
    | with_reducible apply foldl_keeps_snd
    | with_reducible apply granuleWrite_keeps
    | with_reducible refine keeps_ite ?_ ?_
    | with_reducible apply keepsParts_of
    | simp only [keeps_mk]
    | intro _
    | split
    | dsimp only [id])

theorem markLost_keeps {s0 : State} {g : Nat} {s : State} (hk : Keeps s0 s) :
    Keeps s0 (markLost g s) := by
  unfold markLost
  repeat' (first
    | with_reducible assumption
    | with_reducible refine keeps_ite ?_ ?_
    | with_reducible apply keepsParts_of
    | simp only [keeps_mk]
    | intro _
    | split
    | dsimp only [id])

theorem granuleLost_keeps {s0 : State} {mac : Bool} {addr : Nat} {s : State} (hk : Keeps s0 s) :
    Keeps s0 (granuleLost mac addr s) := by
  unfold granuleLost
  repeat' (first
    | with_reducible assumption
    | with_reducible apply markLost_keeps
    | with_reducible apply granuleFail_keeps
    | with_reducible apply retireFrame_keeps
    | with_reducible refine keeps_ite ?_ ?_
    | with_reducible apply keepsParts_of
    | simp only [keeps_mk]
    | intro _
    | split
    | dsimp only [id])

theorem sliceLineFail_keeps {s0 : State} {r : Nat} {off : Nat} {s : State} (hk : Keeps s0 s) :
    Keeps s0 (sliceLineFail r off s).2 := by
  unfold sliceLineFail
  repeat' (first
    | with_reducible assumption
    | with_reducible apply markLost_keeps
    | with_reducible apply retireFrame_keeps
    | with_reducible apply plateLost_keeps
    | with_reducible apply addRepair_keeps
    | with_reducible refine keeps_ite ?_ ?_
    | with_reducible apply keepsParts_of
    | simp only [keeps_mk]
    | intro _
    | split
    | dsimp only [id])

theorem sliceLineFail_keeps_of {s0 : State} {r : Nat} {off : Nat} {s : State} {tt : State} {c0 : _} (eq_ : sliceLineFail r off s = (c0, tt)) (hk : Keeps s0 s) : Keeps s0 tt := by
  have := sliceLineFail_keeps (s0 := s0) (r := r) (off := off) (s := s) hk
  rw [eq_] at this; exact this

theorem slugLost_keeps {s0 : State} {crc : Bool} {pl : Place} {s : State} (hk : Keeps s0 s) :
    Keeps s0 (slugLost crc pl s) := by
  unfold slugLost
  repeat' (first
    | with_reducible assumption
    | with_reducible apply slugFailure_keeps
    | with_reducible apply retireFrame_keeps
    | with_reducible apply plateLost_keeps
    | with_reducible refine keeps_ite ?_ ?_
    | with_reducible apply keepsParts_of
    | simp only [keeps_mk]
    | intro _
    | split
    | dsimp only [id])

theorem readOutcome_keeps {s0 : State} {o : ReadOutcome} {s : State} (hk : Keeps s0 s) :
    Keeps s0 (readOutcome o s).2 := by
  unfold readOutcome
  repeat' (first
    | with_reducible assumption
    | with_reducible apply lpcUpd_keeps
    | with_reducible apply slugLost_keeps
    | with_reducible apply sliceLineFail_keeps
    | with_reducible apply granuleLost_keeps
    | (with_reducible apply sliceLineFail_keeps_of (by assumption))
    | with_reducible refine keeps_ite ?_ ?_
    | with_reducible apply keepsParts_of
    | simp only [keeps_mk]
    | intro _
    | split
    | dsimp only [id])

theorem readOutcome_keeps_of {s0 : State} {o : ReadOutcome} {s : State} {tt : State} {c0 : _} (eq_ : readOutcome o s = (c0, tt)) (hk : Keeps s0 s) : Keeps s0 tt := by
  have := readOutcome_keeps (s0 := s0) (o := o) (s := s) hk
  rw [eq_] at this; exact this

end Sys2Proof.Machine
end

