-- ==== Sys2Proof/Laws/KeepsProtect.lean ====
section
/-!
SUPPORT. What the operations of Sys2Proof/Machine/Protect.lean keep: the queue, the agreement of the TMR copies, and the canonical
form of the memories (Safety).
-/

namespace Sys2Proof.Machine

theorem shelfWrite_keeps {s0 : State} {g : Galley} {l : Nat} {page : Nat} {n : Nat} {content : List Byte} {s : State} (hk : Keeps s0 s) :
    Keeps s0 (shelfWrite g l page n content s) := by
  unfold shelfWrite
  repeat' (first
    | with_reducible assumption
    | with_reducible apply emit_keeps
    | with_reducible refine keeps_ite ?_ ?_
    | with_reducible apply keepsParts_of
    | simp only [keeps_mk]
    | intro _
    | split
    | dsimp only [id])

end Sys2Proof.Machine
end

