-- ==== Sys2Proof/Laws/KeepsMover.lean ====
section
/-!
SUPPORT. What the operations of Sys2Proof/Machine/Mover.lean keep: the queue, the agreement of the TMR copies, and the canonical
form of the memories (Safety).
-/

namespace Sys2Proof.Machine

theorem traySrcUpd_keeps {s0 : State} {d : Nat} {f : TraySrc → TraySrc} {s : State}  (hk : Keeps s0 s) :
    Keeps s0 (traySrcUpd d f s) := by
  unfold traySrcUpd
  repeat' (first
    | with_reducible assumption
    | with_reducible refine keeps_ite ?_ ?_
    | with_reducible apply keepsParts_of
    | simp only [keeps_mk]
    | intro _
    | split
    | dsimp only [id])

theorem homeFinish_keeps {s0 : State} {h : TrayHdr} {c : Status} {payload : List Byte} {s : State}  (hk : Keeps s0 s) :
    Keeps s0 (homeFinish h c payload s) := by
  unfold homeFinish
  repeat' (first
    | with_reducible assumption
    | with_reducible apply trayAnswer_keeps
    | with_reducible apply traySrcUpd_keeps
    | with_reducible refine keeps_ite ?_ ?_
    | with_reducible apply keepsParts_of
    | simp only [keeps_mk]
    | intro _
    | split
    | dsimp only [id])

theorem stageDropped_keeps {s0 : State} {q : ReqId} {s : State} (hk : Keeps s0 s) :
    Keeps s0 (stageDropped q s) := by
  unfold stageDropped
  repeat' (first
    | with_reducible assumption
    | with_reducible apply foldl_keeps
    | with_reducible apply foldl_keeps_fst
    | with_reducible apply foldl_keeps_snd
    | with_reducible apply getD_keeps
    | with_reducible apply recRetire_keeps
    | with_reducible apply recUpd_keeps
    | with_reducible apply sendFw_keeps
    | with_reducible apply trayIssue_keeps
    | with_reducible apply stageReport_keeps
    | (with_reducible apply stageReport_keeps_of (by assumption))
    | with_reducible refine keeps_ite ?_ ?_
    | with_reducible apply keepsParts_of
    | simp only [keeps_mk]
    | intro _
    | split
    | dsimp only [id])

theorem handedOver_keeps {s0 : State} {q : ReqId} {dest : DevId} {m : StageResume} {s : State} (hk : Keeps s0 s) :
    Keeps s0 (handedOver q dest m s) := by
  unfold handedOver
  repeat' (first
    | with_reducible assumption
    | with_reducible apply recUpd_keeps
    | with_reducible apply sendFw_keeps
    | with_reducible apply trayIssue_keeps
    | with_reducible refine keeps_ite ?_ ?_
    | with_reducible apply keepsParts_of
    | simp only [keeps_mk]
    | intro _
    | split
    | dsimp only [id])

theorem runThen_keeps {s0 : State} {t : MirrorThen} {s : State} (hk : Keeps s0 s) :
    Keeps s0 (runThen t s) := by
  unfold runThen
  repeat' (first
    | with_reducible assumption
    | with_reducible apply recUpd_keeps
    | with_reducible apply handedOver_keeps
    | with_reducible apply stageDropped_keeps
    | with_reducible apply homeFinish_keeps
    | with_reducible refine keeps_ite ?_ ?_
    | with_reducible apply keepsParts_of
    | simp only [keeps_mk]
    | intro _
    | split
    | dsimp only [id])

theorem journal_keeps {s0 : State} {j : List JournalItem} {s : State}  (hk : Keeps s0 s) :
    Keeps s0 (journal j s) := by
  unfold journal
  repeat' (first
    | with_reducible assumption
    | with_reducible refine keeps_ite ?_ ?_
    | with_reducible apply keepsParts_of
    | simp only [keeps_mk]
    | intro _
    | split
    | dsimp only [id])

theorem mirrorSend_keeps {s0 : State} {g : Galley} {rs : List TrayReq} {t : MirrorThen} {s : State} (hk : Keeps s0 s) :
    Keeps s0 (mirrorSend g rs t s) := by
  unfold mirrorSend
  repeat' (first
    | with_reducible assumption
    | with_reducible apply foldl_keeps
    | with_reducible apply foldl_keeps_fst
    | with_reducible apply foldl_keeps_snd
    | with_reducible apply journal_keeps
    | with_reducible apply runThen_keeps
    | with_reducible apply trayIssue_keeps
    | with_reducible refine keeps_ite ?_ ?_
    | with_reducible apply keepsParts_of
    | simp only [keeps_mk]
    | intro _
    | split
    | dsimp only [id])

theorem mirrorAck_keeps {s0 : State} {id : Nat} {s : State}  (hk : Keeps s0 s) :
    Keeps s0 (mirrorAck id s) := by
  unfold mirrorAck
  repeat' (first
    | with_reducible assumption
    | with_reducible apply runThen_keeps
    | with_reducible refine keeps_ite ?_ ?_
    | with_reducible apply keepsParts_of
    | simp only [keeps_mk]
    | intro _
    | split
    | dsimp only [id])

theorem mirrorsAlone_keeps {s0 : State} {s : State}  (hk : Keeps s0 s) :
    Keeps s0 (mirrorsAlone s) := by
  unfold mirrorsAlone
  repeat' (first
    | with_reducible assumption
    | with_reducible apply foldl_keeps
    | with_reducible apply foldl_keeps_fst
    | with_reducible apply foldl_keeps_snd
    | with_reducible apply runThen_keeps
    | with_reducible refine keeps_ite ?_ ?_
    | with_reducible apply keepsParts_of
    | simp only [keeps_mk]
    | intro _
    | split
    | dsimp only [id])

theorem resetLayer_keeps {s0 : State} {q : ReqId} {l : Nat} {s : State} (hk : Keeps s0 s) :
    Keeps s0 (resetLayer q l s) := by
  unfold resetLayer
  repeat' (first
    | with_reducible assumption
    | with_reducible apply foldl_keeps
    | with_reducible apply foldl_keeps_fst
    | with_reducible apply foldl_keeps_snd
    | with_reducible apply galleyUpd_keeps
    | with_reducible apply freeT3_keeps
    | with_reducible apply emptyPage_keeps
    | with_reducible refine keeps_ite ?_ ?_
    | with_reducible apply keepsParts_of
    | simp only [keeps_mk]
    | intro _
    | split
    | dsimp only [id])

theorem entryShelved_keeps {s0 : State} {q : ReqId} {k : Nat} {l : Nat} {p : Nat} {w : Nat} {s : State} (hk : Keeps s0 s) :
    Keeps s0 (entryShelved q k l p w s) := by
  unfold entryShelved
  repeat' (first
    | with_reducible assumption
    | with_reducible apply emptyPage_keeps
    | with_reducible apply pageUpd_keeps
    | with_reducible refine keeps_ite ?_ ?_
    | with_reducible apply keepsParts_of
    | simp only [keeps_mk]
    | intro _
    | split
    | dsimp only [id])

theorem restorePage_keeps_of {s0 : State} {q : ReqId} {k : Nat} {l : Nat} {p : Nat} {sealed : Bool} {w : BitVec 64} {tags : Tab Word} {bytes : List Byte} {s : State} {tt : State} (eq_ : restorePage q k l p sealed w tags bytes s = some tt) (hk : Keeps s0 s) : Keeps s0 tt := by
  unfold restorePage at eq_
  repeat' (first | split at eq_ | dsimp only at eq_)
  all_goals (first | (obtain ⟨⟨_, _⟩, eq_, rfl⟩ := Option.map_eq_some_iff.1 eq_) | (cases eq_; done) | (cases eq_) | skip)
  repeat' (first
    | with_reducible assumption
    | with_reducible apply meterT1_keeps
    | with_reducible apply t1Write_keeps
    | with_reducible apply syncHeader_keeps
    | with_reducible apply pageUpd_keeps
    | (with_reducible apply sealPage_keeps_of (by assumption))
    | (with_reducible apply openPage_keeps_of (by assumption))
    | with_reducible refine keeps_ite ?_ ?_
    | with_reducible apply keepsParts_of
    | simp only [keeps_mk]
    | intro _
    | split
    | dsimp only [id])

theorem shelfExpiry_keeps {s0 : State} {q : ReqId} {e : Nat} {s : State} (hk : Keeps s0 s) :
    Keeps s0 (shelfExpiry q e s) := by
  unfold shelfExpiry
  repeat' (first
    | with_reducible assumption
    | with_reducible apply foldl_keeps
    | with_reducible apply foldl_keeps_fst
    | with_reducible apply foldl_keeps_snd
    | with_reducible apply getD_keeps
    | with_reducible apply galleyUpd_keeps
    | with_reducible apply recUpd_keeps
    | with_reducible apply freeT3_keeps
    | (with_reducible apply restorePage_keeps_of (by assumption))
    | with_reducible refine keeps_ite ?_ ?_
    | with_reducible apply keepsParts_of
    | simp only [keeps_mk]
    | intro _
    | split
    | dsimp only [id])

theorem mapWord_keeps {s0 : State} {image : Bool} {q : ReqId} {off : Nat} {w : Nat} {s : State} (hk : Keeps s0 s) :
    Keeps s0 (mapWord image q off w s) := by
  unfold mapWord
  repeat' (first
    | with_reducible assumption
    | with_reducible apply galleyUpd_keeps
    | with_reducible apply shelfExpiry_keeps
    | with_reducible apply entryShelved_keeps
    | with_reducible apply resetLayer_keeps
    | with_reducible apply syncOpen_keeps
    | with_reducible refine keeps_ite ?_ ?_
    | with_reducible apply keepsParts_of
    | simp only [keeps_mk]
    | intro _
    | split
    | dsimp only [id])

theorem mapWriteBytes_keeps {s0 : State} {q : ReqId} {off : Nat} {bs : List Byte} {s : State} (hk : Keeps s0 s) :
    Keeps s0 (mapWriteBytes q off bs s) := by
  unfold mapWriteBytes
  repeat' (first
    | with_reducible assumption
    | with_reducible apply foldl_keeps
    | with_reducible apply foldl_keeps_fst
    | with_reducible apply foldl_keeps_snd
    | with_reducible apply galleyUpd_keeps
    | with_reducible apply mapWord_keeps
    | with_reducible refine keeps_ite ?_ ?_
    | with_reducible apply keepsParts_of
    | simp only [keeps_mk]
    | intro _
    | split
    | dsimp only [id])

theorem spansRead_keeps {s0 : State} {spans : List (Nat × Nat)} {reads : ReadOutcome} {s : State} (hk : Keeps s0 s) :
    Keeps s0 (spansRead spans reads s).2 := by
  unfold spansRead
  repeat' (first
    | with_reducible assumption
    | with_reducible apply foldl_keeps
    | with_reducible apply foldl_keeps_fst
    | with_reducible apply foldl_keeps_snd
    | with_reducible apply countGranules_keeps
    | with_reducible apply readOutcome_keeps
    | (with_reducible apply readOutcome_keeps_of (by assumption))
    | with_reducible refine keeps_ite ?_ ?_
    | with_reducible apply keepsParts_of
    | simp only [keeps_mk]
    | intro _
    | split
    | dsimp only [id])

theorem spansRead_keeps_of {s0 : State} {spans : List (Nat × Nat)} {reads : ReadOutcome} {s : State} {tt : State} {c0 : _} (eq_ : spansRead spans reads s = (c0, tt)) (hk : Keeps s0 s) : Keeps s0 tt := by
  have := spansRead_keeps (s0 := s0) (spans := spans) (reads := reads) (s := s) hk
  rw [eq_] at this; exact this

theorem toWritten_keeps {s0 : State} {q : ReqId} {l : Nat} {pos : Nat} {s : State} (hk : Keeps s0 s) :
    Keeps s0 (toWritten q l pos s) := by
  unfold toWritten
  repeat' (first
    | with_reducible assumption
    | with_reducible apply syncHeader_keeps
    | with_reducible apply pageUpd_keeps
    | with_reducible refine keeps_ite ?_ ?_
    | with_reducible apply keepsParts_of
    | simp only [keeps_mk]
    | intro _
    | split
    | dsimp only [id])

theorem commitAt_keeps {s0 : State} {h : TrayHdr} {q : ReqId} {n : Nat} {step : Word} {u : RecordUpdate} {reads : ReadOutcome} {s : State} (hk : Keeps s0 s) :
    Keeps s0 (commitAt h q n step u reads s) := by
  unfold commitAt
  repeat' (first
    | with_reducible assumption
    | with_reducible apply foldl_keeps
    | with_reducible apply foldl_keeps_fst
    | with_reducible apply foldl_keeps_snd
    | with_reducible apply galleyUpd_keeps
    | with_reducible apply recUpd_keeps
    | with_reducible apply toWritten_keeps
    | with_reducible apply spansRead_keeps
    | with_reducible apply mirrorSend_keeps
    | with_reducible apply homeFinish_keeps
    | with_reducible apply syncOpen_keeps
    | (with_reducible apply spansRead_keeps_of (by assumption))
    | with_reducible refine keeps_ite ?_ ?_
    | with_reducible apply keepsParts_of
    | simp only [keeps_mk]
    | intro _
    | split
    | dsimp only [id])

theorem appendAt_keeps {s0 : State} {sender : DevId} {a : AppendHdr} {row : List Byte} {reads : ReadOutcome} {s : State} (hk : Keeps s0 s) :
    Keeps s0 (appendAt sender a row reads s).2 := by
  unfold appendAt
  repeat' (first
    | with_reducible assumption
    | with_reducible apply readOutcome_keeps
    | with_reducible apply appendRow_keeps
    | (with_reducible apply readOutcome_keeps_of (by assumption))
    | (with_reducible apply appendRow_keeps_of (by assumption))
    | with_reducible refine keeps_ite ?_ ?_
    | with_reducible apply keepsParts_of
    | simp only [keeps_mk]
    | intro _
    | split
    | dsimp only [id])

theorem appendAt_keeps_of {s0 : State} {sender : DevId} {a : AppendHdr} {row : List Byte} {reads : ReadOutcome} {s : State} {tt : State} {c0 : _} (eq_ : appendAt sender a row reads s = (c0, tt)) (hk : Keeps s0 s) : Keeps s0 tt := by
  have := appendAt_keeps (s0 := s0) (sender := sender) (a := a) (row := row) (reads := reads) (s := s) hk
  rw [eq_] at this; exact this

theorem shelveStart_keeps {s0 : State} {q : ReqId} {drain : Bool} {s : State} (hk : Keeps s0 s) :
    Keeps s0 (shelveStart q drain s) := by
  unfold shelveStart
  repeat' (first
    | with_reducible assumption
    | with_reducible apply foldl_keeps
    | with_reducible apply foldl_keeps_fst
    | with_reducible apply foldl_keeps_snd
    | with_reducible apply galleyUpd_keeps
    | with_reducible refine keeps_ite ?_ ?_
    | with_reducible apply keepsParts_of
    | simp only [keeps_mk]
    | intro _
    | split
    | dsimp only [id])

theorem pausedHere_keeps {s0 : State} {q : ReqId} {s : State} (hk : Keeps s0 s) :
    Keeps s0 (pausedHere q s) := by
  unfold pausedHere
  repeat' (first
    | with_reducible assumption
    | with_reducible apply galleyUpd_keeps
    | with_reducible apply recUpd_keeps
    | with_reducible apply shelveStart_keeps
    | with_reducible refine keeps_ite ?_ ?_
    | with_reducible apply keepsParts_of
    | simp only [keeps_mk]
    | intro _
    | split
    | dsimp only [id])

theorem wordFollows_keeps {s0 : State} {q : ReqId} {w : Nat} {s : State} (hk : Keeps s0 s) :
    Keeps s0 (wordFollows q w s) := by
  unfold wordFollows
  repeat' (first
    | with_reducible assumption
    | with_reducible apply galleyUpd_keeps
    | with_reducible apply recUpd_keeps
    | with_reducible refine keeps_ite ?_ ?_
    | with_reducible apply keepsParts_of
    | simp only [keeps_mk]
    | intro _
    | split
    | dsimp only [id])

theorem ownerCasAt_keeps {s0 : State} {h : TrayHdr} {q : ReqId} {cmp : Nat} {new : Nat} {s : State} (hk : Keeps s0 s) :
    Keeps s0 (ownerCasAt h q cmp new s) := by
  unfold ownerCasAt
  repeat' (first
    | with_reducible assumption
    | with_reducible apply galleyUpd_keeps
    | with_reducible apply pausedHere_keeps
    | with_reducible apply mirrorSend_keeps
    | with_reducible apply homeFinish_keeps
    | with_reducible refine keeps_ite ?_ ?_
    | with_reducible apply keepsParts_of
    | simp only [keeps_mk]
    | intro _
    | split
    | dsimp only [id])

theorem moverRead_keeps {s0 : State} {g : Galley} {items : List (Nat × Nat × Nat)} {reads : ReadOutcome} {s : State} (hk : Keeps s0 s) :
    Keeps s0 (moverRead g items reads s).2 := by
  unfold moverRead
  repeat' (first
    | with_reducible assumption
    | with_reducible apply spansRead_keeps
    | with_reducible apply slugLost_keeps
    | (with_reducible apply spansRead_keeps_of (by assumption))
    | with_reducible refine keeps_ite ?_ ?_
    | with_reducible apply keepsParts_of
    | simp only [keeps_mk]
    | intro _
    | split
    | dsimp only [id])

theorem moverRead_keeps_of {s0 : State} {g : Galley} {items : List (Nat × Nat × Nat)} {reads : ReadOutcome} {s : State} {tt : State} {c0 : _} (eq_ : moverRead g items reads s = (c0, tt)) (hk : Keeps s0 s) : Keeps s0 tt := by
  have := moverRead_keeps (s0 := s0) (g := g) (items := items) (reads := reads) (s := s) hk
  rw [eq_] at this; exact this

theorem shelveUndo_keeps {s0 : State} {q : ReqId} {s : State} (hk : Keeps s0 s) :
    Keeps s0 (shelveUndo q s) := by
  unfold shelveUndo
  repeat' (first
    | with_reducible assumption
    | with_reducible apply galleyUpd_keeps
    | with_reducible refine keeps_ite ?_ ?_
    | with_reducible apply keepsParts_of
    | simp only [keeps_mk]
    | intro _
    | split
    | dsimp only [id])

theorem shelveAbandon_keeps {s0 : State} {q : ReqId} {s : State} (hk : Keeps s0 s) :
    Keeps s0 (shelveAbandon q s) := by
  unfold shelveAbandon
  repeat' (first
    | with_reducible assumption
    | with_reducible apply galleyUpd_keeps
    | with_reducible apply shelveUndo_keeps
    | with_reducible refine keeps_ite ?_ ?_
    | with_reducible apply keepsParts_of
    | simp only [keeps_mk]
    | intro _
    | split
    | dsimp only [id])

theorem shelveStore_keeps {s0 : State} {q : ReqId} {g : Galley} {frames : List Nat} {s : State} (hk : Keeps s0 s) :
    Keeps s0 (shelveStore q g frames s) := by
  unfold shelveStore
  repeat' (first
    | with_reducible assumption
    | with_reducible apply foldl_keeps
    | with_reducible apply foldl_keeps_fst
    | with_reducible apply foldl_keeps_snd
    | with_reducible apply galleyUpd_keeps
    | with_reducible apply quotaReturn_keeps
    | with_reducible apply quotaUpd_keeps
    | with_reducible apply recUpd_keeps
    | with_reducible apply shelfWrite_keeps
    | with_reducible apply meterT3_keeps
    | with_reducible apply meterT1_keeps
    | with_reducible apply mirrorSend_keeps
    | with_reducible apply freePages_keeps
    | with_reducible apply pageUpd_keeps
    | with_reducible apply sendFw_keeps
    | with_reducible refine keeps_ite ?_ ?_
    | with_reducible apply keepsParts_of
    | simp only [keeps_mk]
    | intro _
    | split
    | dsimp only [id])

theorem shelveDone_keeps {s0 : State} {q : ReqId} {reads : ReadOutcome} {s : State} (hk : Keeps s0 s) :
    Keeps s0 (shelveDone q reads s) := by
  unfold shelveDone
  repeat' (first
    | with_reducible assumption
    | with_reducible apply shelveStore_keeps
    | with_reducible apply shelveUndo_keeps
    | with_reducible apply moverRead_keeps
    | (with_reducible apply moverRead_keeps_of (by assumption))
    | with_reducible refine keeps_ite ?_ ?_
    | with_reducible apply keepsParts_of
    | simp only [keeps_mk]
    | intro _
    | split
    | dsimp only [id])

theorem recallDone_keeps {s0 : State} {q : ReqId} {s : State} (hk : Keeps s0 s) :
    Keeps s0 (recallDone q s) := by
  unfold recallDone
  repeat' (first
    | with_reducible assumption
    | with_reducible apply foldl_keeps
    | with_reducible apply foldl_keeps_fst
    | with_reducible apply foldl_keeps_snd
    | with_reducible apply getD_keeps
    | with_reducible apply galleyUpd_keeps
    | with_reducible apply recUpd_keeps
    | with_reducible apply meterT3_keeps
    | with_reducible apply meterT2_keeps
    | with_reducible apply bumpFree_keeps
    | with_reducible apply mirrorSend_keeps
    | with_reducible apply freeT3_keeps
    | (with_reducible apply restorePage_keeps_of (by assumption))
    | with_reducible refine keeps_ite ?_ ?_
    | with_reducible apply keepsParts_of
    | simp only [keeps_mk]
    | intro _
    | split
    | dsimp only [id])

end Sys2Proof.Machine
end

