-- ==== Sys2Proof/Laws/KeepsStages.lean ====
section
/-!
SUPPORT. What the operations of Sys2Proof/Machine/Stages.lean keep: the queue, the agreement of the TMR copies, and the canonical
form of the memories (Safety).
-/

namespace Sys2Proof.Machine

theorem memberDrop_keeps {s0 : State} {q : ReqId} {s : State} (hk : Keeps s0 s) :
    Keeps s0 (memberDrop q s) := by
  unfold memberDrop
  repeat' (first
    | with_reducible assumption
    | with_reducible apply mirrorSend_keeps
    | with_reducible apply journal_keeps
    | with_reducible apply stageDropped_keeps
    | with_reducible apply freeGalley_keeps
    | with_reducible apply trayIssue_keeps
    | with_reducible refine keeps_ite ?_ ?_
    | with_reducible apply keepsParts_of
    | simp only [keeps_mk]
    | intro _
    | split
    | dsimp only [id])

theorem stageDrop_keeps {s0 : State} {q : ReqId} {c : Status} {s : State}  (hk : Keeps s0 s) :
    Keeps s0 (stageDrop q c s) := by
  unfold stageDrop
  repeat' (first
    | with_reducible assumption
    | with_reducible apply foldl_keeps
    | with_reducible apply foldl_keeps_fst
    | with_reducible apply foldl_keeps_snd
    | with_reducible apply stageDropped_keeps
    | with_reducible apply memberDrop_keeps
    | with_reducible apply trayIssue_keeps
    | with_reducible apply galleyUpd_keeps
    | with_reducible apply recUpd_keeps
    | with_reducible refine keeps_ite ?_ ?_
    | with_reducible apply keepsParts_of
    | simp only [keeps_mk]
    | intro _
    | split
    | dsimp only [id])

theorem dropAcked_keeps {s0 : State} {q : ReqId} {slot : Nat} {s : State}  (hk : Keeps s0 s) :
    Keeps s0 (dropAcked q slot s) := by
  unfold dropAcked
  repeat' (first
    | with_reducible assumption
    | with_reducible apply stageDropped_keeps
    | with_reducible apply recUpd_keeps
    | with_reducible refine keeps_ite ?_ ?_
    | with_reducible apply keepsParts_of
    | simp only [keeps_mk]
    | intro _
    | split
    | dsimp only [id])

theorem endStage_keeps {s0 : State} {q : ReqId} {c : Status} {s : State} (hk : Keeps s0 s) :
    Keeps s0 (endStage q c s) := by
  unfold endStage
  repeat' (first
    | with_reducible assumption
    | with_reducible apply stageDrop_keeps
    | with_reducible apply addCond_keeps
    | with_reducible refine keeps_ite ?_ ?_
    | with_reducible apply keepsParts_of
    | simp only [keeps_mk]
    | intro _
    | split
    | dsimp only [id])

theorem pausedEnds_keeps {s0 : State} {q : ReqId} {s : State} (hk : Keeps s0 s) :
    Keeps s0 (pausedEnds q s) := by
  unfold pausedEnds
  repeat' (first
    | with_reducible assumption
    | with_reducible apply stageDrop_keeps
    | with_reducible refine keeps_ite ?_ ?_
    | with_reducible apply keepsParts_of
    | simp only [keeps_mk]
    | intro _
    | split
    | dsimp only [id])

theorem sendTokens_keeps {s0 : State} {q : ReqId} {pos : Nat} {toks : List Word} {s : State}  (hk : Keeps s0 s) :
    Keeps s0 (sendTokens q pos toks s) := by
  unfold sendTokens
  repeat' (first
    | with_reducible assumption
    | with_reducible apply sendFw_keeps
    | with_reducible refine keeps_ite ?_ ?_
    | with_reducible apply keepsParts_of
    | simp only [keeps_mk]
    | intro _
    | split
    | dsimp only [id])

theorem historyWrite_keeps {s0 : State} {q : ReqId} {start : Nat} {toks : List Word} {s : State}  (hk : Keeps s0 s) :
    Keeps s0 (historyWrite q start toks s) := by
  unfold historyWrite
  repeat' (first
    | with_reducible assumption
    | with_reducible apply foldl_keeps
    | with_reducible apply foldl_keeps_fst
    | with_reducible apply foldl_keeps_snd
    | with_reducible apply trayIssue_keeps
    | with_reducible refine keeps_ite ?_ ?_
    | with_reducible apply keepsParts_of
    | simp only [keeps_mk]
    | intro _
    | split
    | dsimp only [id])

theorem commitIssue_keeps {s0 : State} {q : ReqId} {s : State} (hk : Keeps s0 s) :
    Keeps s0 (commitIssue q s) := by
  unfold commitIssue
  repeat' (first
    | with_reducible assumption
    | with_reducible apply historyWrite_keeps
    | with_reducible apply trayIssue_keeps
    | with_reducible refine keeps_ite ?_ ?_
    | with_reducible apply keepsParts_of
    | simp only [keeps_mk]
    | intro _
    | split
    | dsimp only [id])

theorem fenceIssue_keeps {s0 : State} {q : ReqId} {s : State}  (hk : Keeps s0 s) :
    Keeps s0 (fenceIssue q s) := by
  unfold fenceIssue
  repeat' (first
    | with_reducible assumption
    | with_reducible apply getD_keeps
    | with_reducible apply commitIssue_keeps
    | with_reducible refine keeps_ite ?_ ?_
    | with_reducible apply keepsParts_of
    | simp only [keeps_mk]
    | intro _
    | split
    | dsimp only [id])

theorem ownerSwapFrom_keeps {s0 : State} {q : ReqId} {old : DevId} {d : DevId} {why : TrayWhy} {s : State} (hk : Keeps s0 s) :
    Keeps s0 (ownerSwapFrom q old d why s) := by
  unfold ownerSwapFrom
  repeat' (first
    | with_reducible assumption
    | with_reducible apply trayIssue_keeps
    | with_reducible refine keeps_ite ?_ ?_
    | with_reducible apply keepsParts_of
    | simp only [keeps_mk]
    | intro _
    | split
    | dsimp only [id])

theorem ownerSwap_keeps {s0 : State} {q : ReqId} {d : DevId} {why : TrayWhy} {s : State} (hk : Keeps s0 s) :
    Keeps s0 (ownerSwap q d why s) := by
  unfold ownerSwap
  repeat' (first
    | with_reducible assumption
    | with_reducible apply ownerSwapFrom_keeps
    | with_reducible refine keeps_ite ?_ ?_
    | with_reducible apply keepsParts_of
    | simp only [keeps_mk]
    | intro _
    | split
    | dsimp only [id])

theorem handoverStart_keeps {s0 : State} {q : ReqId} {s : State}  (hk : Keeps s0 s) :
    Keeps s0 (handoverStart q s) := by
  unfold handoverStart
  repeat' (first
    | with_reducible assumption
    | with_reducible apply ownerSwap_keeps
    | with_reducible apply recUpd_keeps
    | with_reducible refine keeps_ite ?_ ?_
    | with_reducible apply keepsParts_of
    | simp only [keeps_mk]
    | intro _
    | split
    | dsimp only [id])

theorem handoverDone_keeps {s0 : State} {q : ReqId} {s : State} (hk : Keeps s0 s) :
    Keeps s0 (handoverDone q s) := by
  unfold handoverDone
  repeat' (first
    | with_reducible assumption
    | with_reducible apply recFree_keeps
    | with_reducible apply recUpd_keeps
    | with_reducible apply trayIssue_keeps
    | with_reducible refine keeps_ite ?_ ?_
    | with_reducible apply keepsParts_of
    | simp only [keeps_mk]
    | intro _
    | split
    | dsimp only [id])

theorem pauseDone_keeps {s0 : State} {q : ReqId} {s : State}  (hk : Keeps s0 s) :
    Keeps s0 (pauseDone q s) := by
  unfold pauseDone
  repeat' (first
    | with_reducible assumption
    | with_reducible apply stageReport_keeps
    | with_reducible apply recFree_keeps
    | with_reducible apply sendFw_keeps
    | with_reducible apply recUpd_keeps
    | (with_reducible apply stageReport_keeps_of (by assumption))
    | with_reducible refine keeps_ite ?_ ?_
    | with_reducible apply keepsParts_of
    | simp only [keeps_mk]
    | intro _
    | split
    | dsimp only [id])

theorem ownerReset_keeps {s0 : State} {q : ReqId} {s : State}  (hk : Keeps s0 s) :
    Keeps s0 (ownerReset q s) := by
  unfold ownerReset
  repeat' (first
    | with_reducible assumption
    | with_reducible apply foldl_keeps
    | with_reducible apply foldl_keeps_fst
    | with_reducible apply foldl_keeps_snd
    | with_reducible apply trayIssue_keeps
    | with_reducible apply recUpd_keeps
    | with_reducible refine keeps_ite ?_ ?_
    | with_reducible apply keepsParts_of
    | simp only [keeps_mk]
    | intro _
    | split
    | dsimp only [id])

theorem nextSegment_keeps {s0 : State} {q : ReqId} {e : StepEnd} {s : State}  (hk : Keeps s0 s) :
    Keeps s0 (nextSegment q e s) := by
  unfold nextSegment
  repeat' (first
    | with_reducible assumption
    | with_reducible apply ownerReset_keeps
    | with_reducible apply recUpd_keeps
    | with_reducible refine keeps_ite ?_ ?_
    | with_reducible apply keepsParts_of
    | simp only [keeps_mk]
    | intro _
    | split
    | dsimp only [id])

theorem commitAcked_keeps {s0 : State} {q : ReqId} {one : Bool} {s : State} (hk : Keeps s0 s) :
    Keeps s0 (commitAcked q one s) := by
  unfold commitAcked
  repeat' (first
    | with_reducible assumption
    | with_reducible apply nextSegment_keeps
    | with_reducible apply handoverStart_keeps
    | with_reducible apply ownerSwap_keeps
    | with_reducible apply sendTokens_keeps
    | with_reducible apply stageDrop_keeps
    | with_reducible apply recUpd_keeps
    | with_reducible refine keeps_ite ?_ ?_
    | with_reducible apply keepsParts_of
    | simp only [keeps_mk]
    | intro _
    | split
    | dsimp only [id])

theorem commitFailed_keeps {s0 : State} {q : ReqId} {c : Status} {s : State} (hk : Keeps s0 s) :
    Keeps s0 (commitFailed q c s) := by
  unfold commitFailed
  repeat' (first
    | with_reducible assumption
    | with_reducible apply stageDrop_keeps
    | with_reducible apply recUpd_keeps
    | with_reducible apply reportEnd_keeps
    | with_reducible apply sendFw_keeps
    | with_reducible refine keeps_ite ?_ ?_
    | with_reducible apply keepsParts_of
    | simp only [keeps_mk]
    | intro _
    | split
    | dsimp only [id])

theorem commitAnswer_keeps {s0 : State} {q : ReqId} {c : Status} {s : State} (hk : Keeps s0 s) :
    Keeps s0 (commitAnswer q c s) := by
  unfold commitAnswer
  repeat' (first
    | with_reducible assumption
    | with_reducible apply commitFailed_keeps
    | with_reducible apply commitAcked_keeps
    | with_reducible apply commitIssue_keeps
    | with_reducible refine keeps_ite ?_ ?_
    | with_reducible apply keepsParts_of
    | simp only [keeps_mk]
    | intro _
    | split
    | dsimp only [id])

theorem boundaryOne_keeps {s0 : State} {s : State} {e : StepEnd} (hk : Keeps s0 s) :
    Keeps s0 (boundaryOne s e) := by
  unfold boundaryOne
  repeat' (first
    | with_reducible assumption
    | with_reducible apply fenceIssue_keeps
    | with_reducible apply commitIssue_keeps
    | with_reducible apply stageDrop_keeps
    | with_reducible apply recUpd_keeps
    | with_reducible apply sendFw_keeps
    | with_reducible refine keeps_ite ?_ ?_
    | with_reducible apply keepsParts_of
    | simp only [keeps_mk]
    | intro _
    | split
    | dsimp only [id])

theorem scrubbed_keeps {s0 : State} {s : State} (hk : Keeps s0 s) :
    Keeps s0 (scrubbed s) := by
  unfold scrubbed
  repeat' (first
    | with_reducible assumption
    | with_reducible apply foldl_keeps
    | with_reducible apply foldl_keeps_fst
    | with_reducible apply foldl_keeps_snd
    | with_reducible apply markLost_keeps
    | with_reducible apply retireFrame_keeps
    | with_reducible refine keeps_ite ?_ ?_
    | with_reducible apply keepsParts_of
    | simp only [keeps_mk]
    | intro _
    | split
    | dsimp only [id])

theorem stepBoundary_keeps {s0 : State} {es : List StepEnd} {s : State} (hk : Keeps s0 s) :
    Keeps s0 (stepBoundary es s) := by
  unfold stepBoundary
  repeat' (first
    | with_reducible assumption
    | with_reducible apply foldl_keeps
    | with_reducible apply foldl_keeps_fst
    | with_reducible apply foldl_keeps_snd
    | with_reducible apply scrubbed_keeps
    | with_reducible apply boundaryOne_keeps
    | with_reducible refine keeps_ite ?_ ?_
    | with_reducible apply keepsParts_of
    | simp only [keeps_mk]
    | intro _
    | split
    | dsimp only [id])

theorem admissionPut_keeps {s0 : State} {r : Rec} {s : State}  (hk : Keeps s0 s) :
    Keeps s0 (admissionPut r s) := by
  unfold admissionPut
  repeat' (first
    | with_reducible assumption
    | with_reducible apply recCreate_keeps
    | with_reducible apply recUpd_keeps
    | with_reducible refine keeps_ite ?_ ?_
    | with_reducible apply keepsParts_of
    | simp only [keeps_mk]
    | intro _
    | split
    | dsimp only [id])

theorem admitForward_keeps {s0 : State} {m : StageAdmission} {s : State} (hk : Keeps s0 s) :
    Keeps s0 (admitForward m s) := by
  unfold admitForward
  repeat' (first
    | with_reducible assumption
    | with_reducible apply sendFw_keeps
    | with_reducible refine keeps_ite ?_ ?_
    | with_reducible apply keepsParts_of
    | simp only [keeps_mk]
    | intro _
    | split
    | dsimp only [id])

theorem shelveEarly_keeps {s0 : State} {p : Nat} {deficit : Nat} {s : State}  (hk : Keeps s0 s) :
    Keeps s0 (shelveEarly p deficit s) := by
  unfold shelveEarly
  repeat' (first
    | with_reducible assumption
    | with_reducible apply foldl_keeps
    | with_reducible apply foldl_keeps_fst
    | with_reducible apply foldl_keeps_snd
    | with_reducible apply shelveStart_keeps
    | with_reducible refine keeps_ite ?_ ?_
    | with_reducible apply keepsParts_of
    | simp only [keeps_mk]
    | intro _
    | split
    | dsimp only [id])

theorem memberAdmit_keeps {s0 : State} {m : StageAdmission} {e : Route} {s : State} (hk : Keeps s0 s) :
    Keeps s0 (memberAdmit m e s).2 := by
  unfold memberAdmit
  repeat' (first
    | with_reducible assumption
    | with_reducible apply shelveEarly_keeps
    | with_reducible apply admissionPut_keeps
    | with_reducible apply quotaReserve_keeps
    | (with_reducible apply quotaReserve_keeps_of (by assumption))
    | with_reducible refine keeps_ite ?_ ?_
    | with_reducible apply keepsParts_of
    | simp only [keeps_mk]
    | intro _
    | split
    | dsimp only [id])

theorem memberAdmit_keeps_of {s0 : State} {m : StageAdmission} {e : Route} {s : State} {tt : State} {c0 : _} (eq_ : memberAdmit m e s = (c0, tt)) (hk : Keeps s0 s) : Keeps s0 tt := by
  have := memberAdmit_keeps (s0 := s0) (m := m) (e := e) (s := s) hk
  rw [eq_] at this; exact this

theorem promptAdmit_keeps {s0 : State} {m : StageAdmission} {e : Route} {s : State} (hk : Keeps s0 s) :
    Keeps s0 (promptAdmit m e s) := by
  unfold promptAdmit
  repeat' (first
    | with_reducible assumption
    | with_reducible apply foldl_keeps
    | with_reducible apply foldl_keeps_fst
    | with_reducible apply foldl_keeps_snd
    | with_reducible apply admitForward_keeps
    | with_reducible apply admissionPut_keeps
    | with_reducible apply sendFw_keeps
    | with_reducible refine keeps_ite ?_ ?_
    | with_reducible apply keepsParts_of
    | simp only [keeps_mk]
    | intro _
    | split
    | dsimp only [id])

theorem stageAdmission_keeps {s0 : State} {m : StageAdmission} {s : State} (hk : Keeps s0 s) :
    Keeps s0 (stageAdmission m s) := by
  unfold stageAdmission
  repeat' (first
    | with_reducible assumption
    | with_reducible apply promptAdmit_keeps
    | with_reducible apply memberAdmit_keeps
    | with_reducible apply admissionPut_keeps
    | with_reducible apply sendFw_keeps
    | (with_reducible apply memberAdmit_keeps_of (by assumption))
    | with_reducible refine keeps_ite ?_ ?_
    | with_reducible apply keepsParts_of
    | simp only [keeps_mk]
    | intro _
    | split
    | dsimp only [id])

theorem unknownReq_keeps {s0 : State} {q : ReqId} {s : State} (hk : Keeps s0 s) :
    Keeps s0 (unknownReq q s) := by
  unfold unknownReq
  repeat' (first
    | with_reducible assumption
    | with_reducible apply sendFw_keeps
    | with_reducible refine keeps_ite ?_ ?_
    | with_reducible apply keepsParts_of
    | simp only [keeps_mk]
    | intro _
    | split
    | dsimp only [id])

theorem releaseStage_keeps {s0 : State} {q : ReqId} {s : State} (hk : Keeps s0 s) :
    Keeps s0 (releaseStage q s) := by
  unfold releaseStage
  repeat' (first
    | with_reducible assumption
    | with_reducible apply quotaReturn_keeps
    | with_reducible apply recFree_keeps
    | with_reducible apply recUpd_keeps
    | with_reducible apply freePages_keeps
    | with_reducible apply sendFw_keeps
    | with_reducible refine keeps_ite ?_ ?_
    | with_reducible apply keepsParts_of
    | simp only [keeps_mk]
    | intro _
    | split
    | dsimp only [id])

theorem stageConfirmed_keeps {s0 : State} {q : ReqId} {s : State} (hk : Keeps s0 s) :
    Keeps s0 (stageConfirmed q s) := by
  unfold stageConfirmed
  repeat' (first
    | with_reducible assumption
    | with_reducible apply recUpd_keeps
    | with_reducible refine keeps_ite ?_ ?_
    | with_reducible apply keepsParts_of
    | simp only [keeps_mk]
    | intro _
    | split
    | dsimp only [id])

theorem memberReset_keeps {s0 : State} {q : ReqId} {cause : Byte} {s : State} (hk : Keeps s0 s) :
    Keeps s0 (memberReset q cause s) := by
  unfold memberReset
  repeat' (first
    | with_reducible assumption
    | with_reducible apply recUpd_keeps
    | with_reducible apply mirrorSend_keeps
    | with_reducible apply resetGalley_keeps
    | with_reducible refine keeps_ite ?_ ?_
    | with_reducible apply keepsParts_of
    | simp only [keeps_mk]
    | intro _
    | split
    | dsimp only [id])

theorem resumeReady_keeps {s0 : State} {q : ReqId} {m : StageResume} {s : State} (hk : Keeps s0 s) :
    Keeps s0 (resumeReady q m s) := by
  unfold resumeReady
  repeat' (first
    | with_reducible assumption
    | with_reducible apply galleyUpd_keeps
    | with_reducible apply recUpd_keeps
    | with_reducible apply mirrorSend_keeps
    | with_reducible refine keeps_ite ?_ ?_
    | with_reducible apply keepsParts_of
    | simp only [keeps_mk]
    | intro _
    | split
    | dsimp only [id])

theorem recallBegin_keeps {s0 : State} {q : ReqId} {s : State} (hk : Keeps s0 s) :
    Keeps s0 (recallBegin q s) := by
  unfold recallBegin
  repeat' (first
    | with_reducible assumption
    | with_reducible apply getD_keeps
    | with_reducible apply galleyUpd_keeps
    | with_reducible apply recUpd_keeps
    | with_reducible refine keeps_ite ?_ ?_
    | with_reducible apply keepsParts_of
    | simp only [keeps_mk]
    | intro _
    | split
    | dsimp only [id])

theorem reserved_keeps {s0 : State} {q : ReqId} {n : Nat} {s : State} (hk : Keeps s0 s) :
    Keeps s0 (reserved q n s) := by
  unfold reserved
  repeat' (first
    | with_reducible assumption
    | with_reducible apply galleyUpd_keeps
    | with_reducible apply recUpd_keeps
    | with_reducible refine keeps_ite ?_ ?_
    | with_reducible apply keepsParts_of
    | simp only [keeps_mk]
    | intro _
    | split
    | dsimp only [id])

theorem recallStart_keeps {s0 : State} {q : ReqId} {m : StageResume} {s : State} (hk : Keeps s0 s) :
    Keeps s0 (recallStart q m s) := by
  unfold recallStart
  repeat' (first
    | with_reducible assumption
    | with_reducible apply reserved_keeps
    | with_reducible apply recallBegin_keeps
    | with_reducible apply shelveEarly_keeps
    | with_reducible apply galleyUpd_keeps
    | with_reducible apply quotaReserve_keeps
    | with_reducible apply trayIssue_keeps
    | (with_reducible apply quotaReserve_keeps_of (by assumption))
    | with_reducible refine keeps_ite ?_ ?_
    | with_reducible apply keepsParts_of
    | simp only [keeps_mk]
    | intro _
    | split
    | dsimp only [id])

theorem reserveAsk_keeps {s0 : State} {q : ReqId} {n : Nat} {s : State} (hk : Keeps s0 s) :
    Keeps s0 (reserveAsk q n s).2 := by
  unfold reserveAsk
  repeat' (first
    | with_reducible assumption
    | with_reducible apply reserved_keeps
    | with_reducible apply shelveEarly_keeps
    | with_reducible apply galleyUpd_keeps
    | with_reducible apply quotaReturn_keeps
    | with_reducible apply quotaReserve_keeps
    | (with_reducible apply quotaReserve_keeps_of (by assumption))
    | with_reducible refine keeps_ite ?_ ?_
    | with_reducible apply keepsParts_of
    | simp only [keeps_mk]
    | intro _
    | split
    | dsimp only [id])

theorem reserveAsk_keeps_of {s0 : State} {q : ReqId} {n : Nat} {s : State} {tt : State} {c0 : _} (eq_ : reserveAsk q n s = (c0, tt)) (hk : Keeps s0 s) : Keeps s0 tt := by
  have := reserveAsk_keeps (s0 := s0) (q := q) (n := n) (s := s) hk
  rw [eq_] at this; exact this

theorem reserveAnswer_keeps {s0 : State} {q : ReqId} {ok : Bool} {s : State} (hk : Keeps s0 s) :
    Keeps s0 (reserveAnswer q ok s) := by
  unfold reserveAnswer
  repeat' (first
    | with_reducible assumption
    | with_reducible apply reserved_keeps
    | with_reducible apply recallBegin_keeps
    | with_reducible apply memberDrop_keeps
    | with_reducible apply galleyUpd_keeps
    | with_reducible apply quotaReturn_keeps
    | with_reducible refine keeps_ite ?_ ?_
    | with_reducible apply keepsParts_of
    | simp only [keeps_mk]
    | intro _
    | split
    | dsimp only [id])

theorem memberResume_keeps {s0 : State} {m : StageResume} {s : State} (hk : Keeps s0 s) :
    Keeps s0 (memberResume m s) := by
  unfold memberResume
  repeat' (first
    | with_reducible assumption
    | with_reducible apply recallStart_keeps
    | with_reducible apply resumeReady_keeps
    | with_reducible apply memberReset_keeps
    | with_reducible apply galleyUpd_keeps
    | with_reducible apply recUpd_keeps
    | with_reducible apply sendFw_keeps
    | with_reducible refine keeps_ite ?_ ?_
    | with_reducible apply keepsParts_of
    | simp only [keeps_mk]
    | intro _
    | split
    | dsimp only [id])

theorem memberWithout_keeps {s0 : State} {m : StageResume} {e : Route} {s : State} (hk : Keeps s0 s) :
    Keeps s0 (memberWithout m e s) := by
  unfold memberWithout
  repeat' (first
    | with_reducible assumption
    | with_reducible apply resumeReady_keeps
    | with_reducible apply memberAdmit_keeps
    | with_reducible apply sendFw_keeps
    | (with_reducible apply memberAdmit_keeps_of (by assumption))
    | with_reducible refine keeps_ite ?_ ?_
    | with_reducible apply keepsParts_of
    | simp only [keeps_mk]
    | intro _
    | split
    | dsimp only [id])

theorem recordTo_keeps {s0 : State} {q : ReqId} {s : State} (hk : Keeps s0 s) :
    Keeps s0 (recordTo q s) := by
  unfold recordTo
  repeat' (first
    | with_reducible assumption
    | with_reducible apply trayIssue_keeps
    | with_reducible refine keeps_ite ?_ ?_
    | with_reducible apply keepsParts_of
    | simp only [keeps_mk]
    | intro _
    | split
    | dsimp only [id])

theorem takeOverAt_keeps {s0 : State} {m : StageResume} {e : Route} {s : State} (hk : Keeps s0 s) :
    Keeps s0 (takeOverAt m e s) := by
  unfold takeOverAt
  repeat' (first
    | with_reducible assumption
    | with_reducible apply recordTo_keeps
    | with_reducible apply admissionPut_keeps
    | with_reducible apply recUpd_keeps
    | with_reducible refine keeps_ite ?_ ?_
    | with_reducible apply keepsParts_of
    | simp only [keeps_mk]
    | intro _
    | split
    | dsimp only [id])

theorem takeOverDone_keeps {s0 : State} {q : ReqId} {count : Nat} {s : State} (hk : Keeps s0 s) :
    Keeps s0 (takeOverDone q count s) := by
  unfold takeOverDone
  repeat' (first
    | with_reducible assumption
    | with_reducible apply recUpd_keeps
    | with_reducible refine keeps_ite ?_ ?_
    | with_reducible apply keepsParts_of
    | simp only [keeps_mk]
    | intro _
    | split
    | dsimp only [id])

theorem takeOverAnswer_keeps {s0 : State} {q : ReqId} {c : Status} {old : Nat} {s : State} (hk : Keeps s0 s) :
    Keeps s0 (takeOverAnswer q c old s) := by
  unfold takeOverAnswer
  repeat' (first
    | with_reducible assumption
    | with_reducible apply takeOverDone_keeps
    | with_reducible refine keeps_ite ?_ ?_
    | with_reducible apply keepsParts_of
    | simp only [keeps_mk]
    | intro _
    | split
    | dsimp only [id])

theorem resumeStage_keeps {s0 : State} {m : StageResume} {s : State} (hk : Keeps s0 s) :
    Keeps s0 (resumeStage m s) := by
  unfold resumeStage
  repeat' (first
    | with_reducible assumption
    | with_reducible apply takeOverAt_keeps
    | with_reducible apply memberWithout_keeps
    | with_reducible apply memberResume_keeps
    | with_reducible apply admissionPut_keeps
    | with_reducible apply galleyUpd_keeps
    | with_reducible apply recUpd_keeps
    | with_reducible refine keeps_ite ?_ ?_
    | with_reducible apply keepsParts_of
    | simp only [keeps_mk]
    | intro _
    | split
    | dsimp only [id])

theorem afterShelf_keeps {s0 : State} {q : ReqId} {s : State} (hk : Keeps s0 s) :
    Keeps s0 (afterShelf q s) := by
  unfold afterShelf
  repeat' (first
    | with_reducible assumption
    | with_reducible apply memberResume_keeps
    | with_reducible apply resumeReady_keeps
    | with_reducible apply memberDrop_keeps
    | with_reducible refine keeps_ite ?_ ?_
    | with_reducible apply keepsParts_of
    | simp only [keeps_mk]
    | intro _
    | split
    | dsimp only [id])

theorem ownerRecord_keeps {s0 : State} {q : ReqId} {u : RecordUpdate} {s : State} (hk : Keeps s0 s) :
    Keeps s0 (ownerRecord q u s) := by
  unfold ownerRecord
  repeat' (first
    | with_reducible assumption
    | with_reducible apply ownerSwapFrom_keeps
    | with_reducible apply recUpd_keeps
    | with_reducible refine keeps_ite ?_ ?_
    | with_reducible apply keepsParts_of
    | simp only [keeps_mk]
    | intro _
    | split
    | dsimp only [id])

end Sys2Proof.Machine
end

