-- ==== Sys2Proof/Laws/KeepsAnchor.lean ====
section
/-!
SUPPORT. What the operations of Sys2Proof/Machine/Anchor.lean keep: the queue, the agreement of the TMR copies, and the canonical
form of the memories (Safety).
-/

namespace Sys2Proof.Machine

theorem toStages_keeps {s0 : State} {a : AnchorInfo} {e : Word} {m : FwMsg} {s : State}  (hk : Keeps s0 s) :
    Keeps s0 (toStages a e m s) := by
  unfold toStages
  repeat' (first
    | with_reducible assumption
    | with_reducible apply foldl_keeps
    | with_reducible apply foldl_keeps_fst
    | with_reducible apply foldl_keeps_snd
    | with_reducible apply sendFw_keeps
    | with_reducible refine keeps_ite ?_ ?_
    | with_reducible apply keepsParts_of
    | simp only [keeps_mk]
    | intro _
    | split
    | dsimp only [id])

theorem anchorUpd_keeps {s0 : State} {q : ReqId} {f : AnchorInfo → AnchorInfo} {s : State}  (hk : Keeps s0 s) :
    Keeps s0 (anchorUpd q f s) := by
  unfold anchorUpd
  repeat' (first
    | with_reducible assumption
    | with_reducible refine keeps_ite ?_ ?_
    | with_reducible apply keepsParts_of
    | simp only [keeps_mk]
    | intro _
    | split
    | dsimp only [id])

theorem seqAccept_keeps {s0 : State} {c : Capsule} {s : State}  (hk : Keeps s0 s) :
    Keeps s0 (seqAccept c s) := by
  unfold seqAccept
  repeat' (first
    | with_reducible assumption
    | with_reducible apply seen_keeps
    | with_reducible refine keeps_ite ?_ ?_
    | with_reducible apply keepsParts_of
    | simp only [keeps_mk]
    | intro _
    | split
    | dsimp only [id])

theorem authFail_keeps {s0 : State} {s : State}  (hk : Keeps s0 s) :
    Keeps s0 (authFail s) := by
  unfold authFail
  repeat' (first
    | with_reducible assumption
    | with_reducible apply noteErr_keeps
    | with_reducible refine keeps_ite ?_ ?_
    | with_reducible apply keepsParts_of
    | simp only [keeps_mk]
    | intro _
    | split
    | dsimp only [id])

theorem capsuleRefuse_keeps {s0 : State} {x : CapsuleCmd} {c : Status} {s : State}  (hk : Keeps s0 s) :
    Keeps s0 (capsuleRefuse x c s) := by
  unfold capsuleRefuse
  repeat' (first
    | with_reducible assumption
    | with_reducible apply authFail_keeps
    | with_reducible apply postCq_keeps
    | with_reducible refine keeps_ite ?_ ?_
    | with_reducible apply keepsParts_of
    | simp only [keeps_mk]
    | intro _
    | split
    | dsimp only [id])

theorem admitStart_keeps {s0 : State} {x : CapsuleCmd} {s : State} (hk : Keeps s0 s) :
    Keeps s0 (admitStart x s) := by
  unfold admitStart
  repeat' (first
    | with_reducible assumption
    | with_reducible apply admitForward_keeps
    | with_reducible apply recCreate_keeps
    | with_reducible apply ringUpd_keeps
    | with_reducible apply seqAccept_keeps
    | with_reducible refine keeps_ite ?_ ?_
    | with_reducible apply keepsParts_of
    | simp only [keeps_mk]
    | intro _
    | split
    | dsimp only [id])

theorem anchorFinish_keeps {s0 : State} {q : ReqId} {s : State}  (hk : Keeps s0 s) :
    Keeps s0 (anchorFinish q s) := by
  unfold anchorFinish
  repeat' (first
    | with_reducible assumption
    | with_reducible apply getD_keeps
    | with_reducible apply postColophon_keeps
    | with_reducible apply entryDone_keeps
    | with_reducible apply recRetire_keeps
    | with_reducible apply countLost_keeps
    | with_reducible apply postCq_keeps
    | with_reducible refine keeps_ite ?_ ?_
    | with_reducible apply keepsParts_of
    | simp only [keeps_mk]
    | intro _
    | split
    | dsimp only [id])

theorem anchorEnd_keeps {s0 : State} {q : ReqId} {c : Status} {s : State}  (hk : Keeps s0 s) :
    Keeps s0 (anchorEnd q c s) := by
  unfold anchorEnd
  repeat' (first
    | with_reducible assumption
    | with_reducible apply anchorUpd_keeps
    | with_reducible apply toStages_keeps
    | with_reducible apply recUpd_keeps
    | with_reducible refine keeps_ite ?_ ?_
    | with_reducible apply keepsParts_of
    | simp only [keeps_mk]
    | intro _
    | split
    | dsimp only [id])

theorem anchorCancel_keeps {s0 : State} {q : ReqId} {s : State}  (hk : Keeps s0 s) :
    Keeps s0 (anchorCancel q s) := by
  unfold anchorCancel
  repeat' (first
    | with_reducible assumption
    | with_reducible apply getD_keeps
    | with_reducible apply anchorUpd_keeps
    | with_reducible apply toStages_keeps
    | with_reducible apply recUpd_keeps
    | with_reducible refine keeps_ite ?_ ?_
    | with_reducible apply keepsParts_of
    | simp only [keeps_mk]
    | intro _
    | split
    | dsimp only [id])

theorem anchorPause_keeps {s0 : State} {q : ReqId} {s : State}  (hk : Keeps s0 s) :
    Keeps s0 (anchorPause q s) := by
  unfold anchorPause
  repeat' (first
    | with_reducible assumption
    | with_reducible apply toStages_keeps
    | with_reducible apply recUpd_keeps
    | with_reducible refine keeps_ite ?_ ?_
    | with_reducible apply keepsParts_of
    | simp only [keeps_mk]
    | intro _
    | split
    | dsimp only [id])

theorem dropReportAt_keeps {s0 : State} {rep : DropReport} {s : State}  (hk : Keeps s0 s) :
    Keeps s0 (dropReportAt rep s) := by
  unfold dropReportAt
  repeat' (first
    | with_reducible assumption
    | with_reducible apply anchorFinish_keeps
    | with_reducible apply anchorUpd_keeps
    | with_reducible apply recUpd_keeps
    | with_reducible refine keeps_ite ?_ ?_
    | with_reducible apply keepsParts_of
    | simp only [keeps_mk]
    | intro _
    | split
    | dsimp only [id])

theorem resumeForward_keeps {s0 : State} {q : ReqId} {restart : Bool} {cause : Byte} {s : State} (hk : Keeps s0 s) :
    Keeps s0 (resumeForward q restart cause s) := by
  unfold resumeForward
  repeat' (first
    | with_reducible assumption
    | with_reducible apply foldl_keeps
    | with_reducible apply foldl_keeps_fst
    | with_reducible apply foldl_keeps_snd
    | with_reducible apply sendFw_keeps
    | with_reducible refine keeps_ite ?_ ?_
    | with_reducible apply keepsParts_of
    | simp only [keeps_mk]
    | intro _
    | split
    | dsimp only [id])

theorem resumeAccept_keeps {s0 : State} {x : CapsuleCmd} {s : State}  (hk : Keeps s0 s) :
    Keeps s0 (resumeAccept x s) := by
  unfold resumeAccept
  repeat' (first
    | with_reducible assumption
    | with_reducible apply resumeForward_keeps
    | with_reducible apply anchorUpd_keeps
    | with_reducible apply seqAccept_keeps
    | with_reducible apply postCq_keeps
    | with_reducible apply recUpd_keeps
    | with_reducible refine keeps_ite ?_ ?_
    | with_reducible apply keepsParts_of
    | simp only [keeps_mk]
    | intro _
    | split
    | dsimp only [id])

theorem unshelved_keeps {s0 : State} {q : ReqId} {s : State} (hk : Keeps s0 s) :
    Keeps s0 (unshelved q s) := by
  unfold unshelved
  repeat' (first
    | with_reducible assumption
    | with_reducible apply recUpd_keeps
    | with_reducible apply anchorUpd_keeps
    | with_reducible refine keeps_ite ?_ ?_
    | with_reducible apply keepsParts_of
    | simp only [keeps_mk]
    | intro _
    | split
    | dsimp only [id])

theorem anchorReprefill_keeps {s0 : State} {q : ReqId} {cause : Byte} {s : State} (hk : Keeps s0 s) :
    Keeps s0 (anchorReprefill q cause s) := by
  unfold anchorReprefill
  repeat' (first
    | with_reducible assumption
    | with_reducible apply recUpd_keeps
    | with_reducible apply unshelved_keeps
    | with_reducible apply resumeForward_keeps
    | with_reducible apply anchorUpd_keeps
    | with_reducible refine keeps_ite ?_ ?_
    | with_reducible apply keepsParts_of
    | simp only [keeps_mk]
    | intro _
    | split
    | dsimp only [id])

theorem resumeFailed_keeps {s0 : State} {q : ReqId} {c : Status} {d : DevId} {s : State} (hk : Keeps s0 s) :
    Keeps s0 (resumeFailed q c d s) := by
  unfold resumeFailed
  repeat' (first
    | with_reducible assumption
    | with_reducible apply recUpd_keeps
    | with_reducible apply anchorReprefill_keeps
    | with_reducible apply anchorEnd_keeps
    | with_reducible refine keeps_ite ?_ ?_
    | with_reducible apply keepsParts_of
    | simp only [keeps_mk]
    | intro _
    | split
    | dsimp only [id])

theorem beginPrefill_keeps {s0 : State} {q : ReqId} {start : Nat} {toks : List Word} {s : State}  (hk : Keeps s0 s) :
    Keeps s0 (beginPrefill q start toks s) := by
  unfold beginPrefill
  repeat' (first
    | with_reducible assumption
    | with_reducible apply anchorUpd_keeps
    | with_reducible refine keeps_ite ?_ ?_
    | with_reducible apply keepsParts_of
    | simp only [keeps_mk]
    | intro _
    | split
    | dsimp only [id])

theorem refusedEnd_keeps {s0 : State} {q : ReqId} {s : State} (hk : Keeps s0 s) :
    Keeps s0 (refusedEnd q s) := by
  unfold refusedEnd
  repeat' (first
    | with_reducible assumption
    | with_reducible apply recFree_keeps
    | with_reducible apply entryDone_keeps
    | with_reducible apply postCq_keeps
    | with_reducible refine keeps_ite ?_ ?_
    | with_reducible apply keepsParts_of
    | simp only [keeps_mk]
    | intro _
    | split
    | dsimp only [id])

theorem releasedAt_keeps {s0 : State} {q : ReqId} {d : DevId} {s : State} (hk : Keeps s0 s) :
    Keeps s0 (releasedAt q d s) := by
  unfold releasedAt
  repeat' (first
    | with_reducible assumption
    | with_reducible apply refusedEnd_keeps
    | with_reducible apply anchorUpd_keeps
    | with_reducible refine keeps_ite ?_ ?_
    | with_reducible apply keepsParts_of
    | simp only [keeps_mk]
    | intro _
    | split
    | dsimp only [id])

theorem shelvedAt_keeps {s0 : State} {q : ReqId} {stage : Nat} {expiry : DWord} {s : State} (hk : Keeps s0 s) :
    Keeps s0 (shelvedAt q stage expiry s) := by
  unfold shelvedAt
  repeat' (first
    | with_reducible assumption
    | with_reducible apply recUpd_keeps
    | with_reducible apply anchorUpd_keeps
    | with_reducible refine keeps_ite ?_ ?_
    | with_reducible apply keepsParts_of
    | simp only [keeps_mk]
    | intro _
    | split
    | dsimp only [id])

theorem cancelAgain_keeps {s0 : State} {q : ReqId} {s : State} (hk : Keeps s0 s) :
    Keeps s0 (cancelAgain q s) := by
  unfold cancelAgain
  repeat' (first
    | with_reducible assumption
    | with_reducible apply toStages_keeps
    | with_reducible refine keeps_ite ?_ ?_
    | with_reducible apply keepsParts_of
    | simp only [keeps_mk]
    | intro _
    | split
    | dsimp only [id])

theorem admitted_keeps {s0 : State} {q : ReqId} {stage : Byte} {s : State} (hk : Keeps s0 s) :
    Keeps s0 (admitted q stage s) := by
  unfold admitted
  repeat' (first
    | with_reducible assumption
    | with_reducible apply recUpd_keeps
    | with_reducible apply entryDone_keeps
    | with_reducible apply postCq_keeps
    | with_reducible apply cancelAgain_keeps
    | with_reducible apply beginPrefill_keeps
    | with_reducible apply anchorUpd_keeps
    | with_reducible apply toStages_keeps
    | with_reducible refine keeps_ite ?_ ?_
    | with_reducible apply keepsParts_of
    | simp only [keeps_mk]
    | intro _
    | split
    | dsimp only [id])

theorem confirmAt_keeps {s0 : State} {q : ReqId} {src : StageFrom} {pause : Option DropReport} {s : State} (hk : Keeps s0 s) :
    Keeps s0 (confirmAt q src pause s) := by
  unfold confirmAt
  repeat' (first
    | with_reducible assumption
    | with_reducible apply stageConfirmed_keeps
    | with_reducible apply recUpd_keeps
    | with_reducible apply postCq_keeps
    | with_reducible apply postColophon_keeps
    | with_reducible apply admitted_keeps
    | with_reducible apply cancelAgain_keeps
    | with_reducible apply shelvedAt_keeps
    | with_reducible apply releasedAt_keeps
    | with_reducible apply beginPrefill_keeps
    | with_reducible apply unshelved_keeps
    | with_reducible apply anchorUpd_keeps
    | with_reducible refine keeps_ite ?_ ?_
    | with_reducible apply keepsParts_of
    | simp only [keeps_mk]
    | intro _
    | split
    | dsimp only [id])

theorem refusalAt_keeps {s0 : State} {q : ReqId} {c : Status} {d : DevId} {s : State} (hk : Keeps s0 s) :
    Keeps s0 (refusalAt q c d s) := by
  unfold refusalAt
  repeat' (first
    | with_reducible assumption
    | with_reducible apply recUpd_keeps
    | with_reducible apply releasedAt_keeps
    | with_reducible apply refusedEnd_keeps
    | with_reducible apply anchorUpd_keeps
    | with_reducible apply toStages_keeps
    | with_reducible refine keeps_ite ?_ ?_
    | with_reducible apply keepsParts_of
    | simp only [keeps_mk]
    | intro _
    | split
    | dsimp only [id])

theorem anchorSegment_keeps {s0 : State} {q : ReqId} {commit : Nat} {s : State}  (hk : Keeps s0 s) :
    Keeps s0 (anchorSegment q commit s) := by
  unfold anchorSegment
  repeat' (first
    | with_reducible assumption
    | with_reducible apply beginPrefill_keeps
    | with_reducible apply anchorUpd_keeps
    | with_reducible apply recUpd_keeps
    | with_reducible refine keeps_ite ?_ ?_
    | with_reducible apply keepsParts_of
    | simp only [keeps_mk]
    | intro _
    | split
    | dsimp only [id])

theorem anchorToken_keeps {s0 : State} {m : TokenMsg} {s : State} (hk : Keeps s0 s) :
    Keeps s0 (anchorToken m s) := by
  unfold anchorToken
  repeat' (first
    | with_reducible assumption
    | with_reducible apply recUpd_keeps
    | with_reducible apply postOut_keeps
    | with_reducible apply anchorSegment_keeps
    | with_reducible apply anchorPause_keeps
    | with_reducible apply anchorUpd_keeps
    | with_reducible refine keeps_ite ?_ ?_
    | with_reducible apply keepsParts_of
    | simp only [keeps_mk]
    | intro _
    | split
    | dsimp only [id])

end Sys2Proof.Machine
end

