-- ==== Sys2Proof/Laws/KeepsClusterOps.lean ====
section
/-!
SUPPORT. What the operations of Sys2Proof/Machine/ClusterOps.lean keep: the queue, the agreement of the TMR copies, and the canonical
form of the memories (Safety).
-/

namespace Sys2Proof.Machine

theorem setAreg_keeps {a : Nat} {v : Word} {c : Cluster} (hc : c.memOk = true) : (setAreg a v c).memOk = true := by
  unfold setAreg
  repeat' (first
    | with_reducible assumption
    | with_reducible refine keeps_ite ?_ ?_
    | with_reducible apply keepsParts_of
    | simp only [keeps_mk]
    | with_reducible apply memOk_ite
    | with_reducible apply memParts_of
    | simp only [memOk_mk]
    | with_reducible refine memParts_mk ?_ ?_ ?_
    | exact Mem.nil_wf
    | intro _
    | split
    | dsimp only [id])

theorem endSpans_keeps {c : Cluster} (hc : c.memOk = true) : (endSpans c).memOk = true := by
  unfold endSpans
  repeat' (first
    | with_reducible assumption
    | with_reducible refine keeps_ite ?_ ?_
    | with_reducible apply keepsParts_of
    | simp only [keeps_mk]
    | with_reducible apply memOk_ite
    | with_reducible apply memParts_of
    | simp only [memOk_mk]
    | with_reducible refine memParts_mk ?_ ?_ ?_
    | exact Mem.nil_wf
    | intro _
    | split
    | dsimp only [id])

theorem grantLines_keeps {fuel : Nat} {x : Cluster} (hc : x.memOk = true) : (grantLines fuel x).memOk = true := by
  induction fuel generalizing x with
  | zero => exact hc
  | succ _ ih =>
    unfold grantLines
    split
    · exact hc
    · split
      · exact hc
      · exact ih (memOk_mk.2 (memParts_of hc))

theorem itemGone_keeps {s0 : State} {n : Nat} {s : State}  (hk : Keeps s0 s) :
    Keeps s0 (itemGone n s) := by
  unfold itemGone
  repeat' (first
    | with_reducible assumption
    | with_reducible refine keeps_ite ?_ ?_
    | with_reducible apply keepsParts_of
    | simp only [keeps_mk]
    | intro _
    | split
    | dsimp only [id])

theorem clusterCause_keeps {s0 : State} {n : Nat} {cause : Nat} {s : State}  (hk : Keeps s0 s) :
    Keeps s0 (clusterCause n cause s) := by
  unfold clusterCause
  repeat' (first
    | with_reducible assumption
    | with_reducible apply clusterUpd_keeps
    | with_reducible apply noteErr_keeps
    | with_reducible refine keeps_ite ?_ ?_
    | with_reducible apply keepsParts_of
    | simp only [keeps_mk]
    | with_reducible apply memOk_ite
    | with_reducible apply memParts_of
    | simp only [memOk_mk]
    | with_reducible refine memParts_mk ?_ ?_ ?_
    | exact Mem.nil_wf
    | intro _
    | split
    | dsimp only [id])

theorem endItem_keeps {s0 : State} {n : Nat} {c : Status} {cause : Nat} {retire : Bool} {s : State} (hk : Keeps s0 s) :
    Keeps s0 (endItem n c cause retire s) := by
  unfold endItem
  repeat' (first
    | with_reducible assumption
    | with_reducible apply foldl_keeps
    | with_reducible apply foldl_keeps_fst
    | with_reducible apply foldl_keeps_snd
    | with_reducible apply clusterUpd_keeps
    | with_reducible apply reportEnd_keeps
    | with_reducible apply clusterCause_keeps
    | with_reducible apply itemGone_keeps
    | with_reducible apply endSpans_keeps
    | with_reducible refine keeps_ite ?_ ?_
    | with_reducible apply keepsParts_of
    | simp only [keeps_mk]
    | with_reducible apply memOk_ite
    | with_reducible apply memParts_of
    | simp only [memOk_mk]
    | with_reducible refine memParts_mk ?_ ?_ ?_
    | exact Mem.nil_wf
    | intro _
    | split
    | dsimp only [id])

theorem channelUpd_keeps {s0 : State} {n : Nat} {k : Nat} {f : Chan → Chan} {s : State}  (hk : Keeps s0 s) :
    Keeps s0 (channelUpd n k f s) := by
  unfold channelUpd
  repeat' (first
    | with_reducible assumption
    | with_reducible apply clusterUpd_keeps
    | with_reducible refine keeps_ite ?_ ?_
    | with_reducible apply keepsParts_of
    | simp only [keeps_mk]
    | with_reducible apply memOk_ite
    | with_reducible apply memParts_of
    | simp only [memOk_mk]
    | with_reducible refine memParts_mk ?_ ?_ ?_
    | exact Mem.nil_wf
    | intro _
    | split
    | dsimp only [id])

theorem wakeWait_keeps {s0 : State} {n : Nat} {s : State}  (hk : Keeps s0 s) :
    Keeps s0 (wakeWait n s) := by
  unfold wakeWait
  repeat' (first
    | with_reducible assumption
    | with_reducible apply clusterUpd_keeps
    | with_reducible apply cluster_keeps
    | with_reducible apply setAreg_keeps
    | with_reducible apply endItem_keeps
    | with_reducible refine keeps_ite ?_ ?_
    | with_reducible apply keepsParts_of
    | simp only [keeps_mk]
    | with_reducible apply memOk_ite
    | with_reducible apply memParts_of
    | simp only [memOk_mk]
    | with_reducible refine memParts_mk ?_ ?_ ?_
    | exact Mem.nil_wf
    | intro _
    | split
    | dsimp only [id])

theorem placeMsg_keeps {s0 : State} {n : Nat} {ch : Nat} {m : List Byte} {s : State}  (hk : Keeps s0 s) :
    Keeps s0 (placeMsg n ch m s) := by
  unfold placeMsg
  repeat' (first
    | with_reducible assumption
    | with_reducible apply clusterUpd_keeps
    | with_reducible apply channelUpd_keeps
    | with_reducible apply wakeWait_keeps
    | with_reducible refine keeps_ite ?_ ?_
    | with_reducible apply keepsParts_of
    | simp only [keeps_mk]
    | with_reducible apply memOk_ite
    | with_reducible apply memParts_of
    | simp only [memOk_mk]
    | with_reducible refine memParts_mk ?_ ?_ ?_
    | with_reducible apply memCase
    | with_reducible apply memAcc
    | with_reducible apply memMail
    | with_reducible apply Mem.store_wf
    | with_reducible apply Mem.clear_wf
    | with_reducible apply Mem.filter_wf
    | with_reducible apply Mem.over_wf
    | exact Mem.nil_wf
    | (with_reducible refine keepsParts_mem ?_ ?_ ?_ ?_ ?_)
    | with_reducible exact id
    | with_reducible exact Mem.store_wf _ _ _
    | with_reducible exact Mem.clear_wf _ _ _
    | with_reducible exact foldl_clear_wf
    | with_reducible exact (fun _ => Mem.nil_wf)
    | with_reducible exact (all_nil_keeps (p := Saved.memOk))
    | with_reducible exact (all_filter_keeps (p := Saved.memOk))
    | with_reducible exact (all_nil_keeps (p := Cluster.memOk))
    | with_reducible apply all_map_keeps
    | intro _
    | split
    | dsimp only [id])

end Sys2Proof.Machine
end

