-- ==== Sys2Proof/Laws/KeepsBinding.lean ====
section
/-!
SUPPORT. What the operations of Sys2Proof/Machine/Binding.lean keep: the queue, the agreement of the TMR copies, and the canonical
form of the memories (Safety).
-/

namespace Sys2Proof.Machine

theorem ctxUpd_keeps {s0 : State} {c : Nat} {f : Ctx → Ctx} {s : State}  (hk : Keeps s0 s) :
    Keeps s0 (ctxUpd c f s) := by
  unfold ctxUpd
  repeat' (first
    | with_reducible assumption
    | with_reducible refine keeps_ite ?_ ?_
    | with_reducible apply keepsParts_of
    | simp only [keeps_mk]
    | intro _
    | split
    | dsimp only [id])

theorem vtRefresh_keeps {s0 : State} {begins : Bool} {s : State}  (hk : Keeps s0 s) :
    Keeps s0 (vtRefresh begins s) := by
  unfold vtRefresh
  repeat' (first
    | with_reducible assumption
    | with_reducible apply foldl_keeps
    | with_reducible apply foldl_keeps_fst
    | with_reducible apply foldl_keeps_snd
    | with_reducible apply ctxUpd_keeps
    | with_reducible refine keeps_ite ?_ ?_
    | with_reducible apply keepsParts_of
    | simp only [keeps_mk]
    | intro _
    | split
    | dsimp only [id])

theorem chargeVt_keeps {s0 : State} {c : Nat} {beats : Nat} {s : State}  (hk : Keeps s0 s) :
    Keeps s0 (chargeVt c beats s) := by
  unfold chargeVt
  repeat' (first
    | with_reducible assumption
    | with_reducible apply ctxUpd_keeps
    | with_reducible refine keeps_ite ?_ ?_
    | with_reducible apply keepsParts_of
    | simp only [keeps_mk]
    | intro _
    | split
    | dsimp only [id])

theorem armSchedule_keeps {s0 : State} {s : State} (hk : Keeps s0 s) :
    Keeps s0 (armSchedule s) := by
  unfold armSchedule
  repeat' (first
    | with_reducible assumption
    | with_reducible refine keeps_ite ?_ ?_
    | with_reducible apply keepsParts_of
    | simp only [keeps_mk]
    | intro _
    | split
    | dsimp only [id])

theorem claimFor_keeps {s0 : State} {n : Nat} {s : State}  (hk : Keeps s0 s) :
    Keeps s0 (claimFor n s) := by
  unfold claimFor
  repeat' (first
    | with_reducible assumption
    | with_reducible apply armSchedule_keeps
    | with_reducible refine keeps_ite ?_ ?_
    | with_reducible apply keepsParts_of
    | simp only [keeps_mk]
    | intro _
    | split
    | dsimp only [id])

theorem takeItem_keeps {s0 : State} {n : Nat} {s : State}  (hk : Keeps s0 s) :
    Keeps s0 (takeItem n s) := by
  unfold takeItem
  repeat' (first
    | with_reducible assumption
    | with_reducible apply clusterUpd_keeps
    | with_reducible apply cluster_keeps
    | with_reducible apply setAreg_keeps
    | with_reducible refine keeps_ite ?_ ?_
    | with_reducible apply keepsParts_of
    | simp only [keeps_mk]
    | with_reducible apply memOk_ite
    | with_reducible apply memParts_of
    | simp only [memOk_mk]
    | with_reducible refine memParts_mk ?_ ?_ ?_
    | exact Mem.nil_wf
    | intro _
    | split
    | dsimp only [id])

theorem pushItem_keeps {s0 : State} {n : Nat} {i : WorkItem} {s : State} (hk : Keeps s0 s) :
    Keeps s0 (pushItem n i s) := by
  refine clusterUpd_keeps hk (fun c hc => memOk_mk.2 (memParts_mk (memCase hc) (memAcc hc) (Mem.store_wf _ _ _ ?_)))
  refine Mem.foldl_wf (memMail hc) (fun m e hm => ?_)
  split
  · exact Mem.store_wf _ _ _ hm
  · exact hm

theorem postWaiting_keeps {s0 : State} {n : Nat} {s : State}  (hk : Keeps s0 s) :
    Keeps s0 (postWaiting n s) := by
  unfold postWaiting
  repeat' (first
    | with_reducible assumption
    | with_reducible apply foldl_keeps
    | with_reducible apply foldl_keeps_fst
    | with_reducible apply foldl_keeps_snd
    | with_reducible apply getD_keeps
    | with_reducible apply claimFor_keeps
    | with_reducible apply takeItem_keeps
    | with_reducible apply pushItem_keeps
    | with_reducible apply cluster_keeps
    | with_reducible refine keeps_ite ?_ ?_
    | with_reducible apply keepsParts_of
    | simp only [keeps_mk]
    | with_reducible apply memOk_ite
    | with_reducible apply memParts_of
    | simp only [memOk_mk]
    | with_reducible refine memParts_mk ?_ ?_ ?_
    | exact Mem.nil_wf
    | intro _
    | split
    | dsimp only [id])

theorem addOverrun_keeps {s0 : State} {n : Nat} {c : Nat} {t : Nat} {s : State} (hk : Keeps s0 s) :
    Keeps s0 (addOverrun n c t s) := by
  unfold addOverrun
  repeat' (first
    | with_reducible assumption
    | with_reducible apply foldl_keeps
    | with_reducible apply foldl_keeps_fst
    | with_reducible apply foldl_keeps_snd
    | with_reducible apply recUpd_keeps
    | with_reducible apply ctxUpd_keeps
    | with_reducible refine keeps_ite ?_ ?_
    | with_reducible apply keepsParts_of
    | simp only [keeps_mk]
    | intro _
    | split
    | dsimp only [id])

theorem saveStart_keeps {s0 : State} {n : Nat} {c : Nat} {s : State} (hk : Keeps s0 s) :
    Keeps s0 (saveStart n c s) := by
  unfold saveStart
  repeat' (first
    | with_reducible assumption
    | with_reducible apply clusterUpd_keeps
    | with_reducible apply addOverrun_keeps
    | with_reducible apply ctxUpd_keeps
    | with_reducible refine keeps_ite ?_ ?_
    | with_reducible apply keepsParts_of
    | simp only [keeps_mk]
    | with_reducible apply memOk_ite
    | with_reducible apply memParts_of
    | simp only [memOk_mk]
    | with_reducible refine memParts_mk ?_ ?_ ?_
    | exact Mem.nil_wf
    | intro _
    | split
    | dsimp only [id])

theorem savedOf_memOk {s : State} {c : Nat} {x : Cluster} (hc : x.memOk = true) : (savedOf s c x).memOk = true := by
  unfold savedOf Saved.memOk
  simp only [Bool.and_eq_true]
  refine ⟨⟨?_, ?_⟩, Mem.clear_wf _ _ _ (memMail hc)⟩
  · split
    · exact memCase hc
    · rfl
  · split
    · exact memAcc hc
    · rfl

theorem takeBack_keeps {s0 : State} {n : Nat} {c : Nat} {x : Cluster} {s : State}  (hk : Keeps s0 s) :
    Keeps s0 (takeBack n c x s) := by
  unfold takeBack
  repeat' (first
    | with_reducible assumption
    | with_reducible refine keeps_ite ?_ ?_
    | with_reducible apply keepsParts_of
    | simp only [keeps_mk]
    | intro _
    | split
    | dsimp only [id])

theorem restoreStart_keeps {s0 : State} {n : Nat} {c : Nat} {s : State}  (hk : Keeps s0 s) :
    Keeps s0 (restoreStart n c s) := by
  unfold restoreStart
  repeat' (first
    | with_reducible assumption
    | with_reducible apply clusterUpd_keeps
    | with_reducible refine keeps_ite ?_ ?_
    | with_reducible apply keepsParts_of
    | simp only [keeps_mk]
    | with_reducible apply memOk_ite
    | with_reducible apply memParts_of
    | simp only [memOk_mk]
    | with_reducible refine memParts_mk ?_ ?_ ?_
    | exact Mem.nil_wf
    | intro _
    | split
    | dsimp only [id])

theorem saveEnd_keeps {s0 : State} {n c : Nat} {s : State} (hk : Keeps s0 s) : Keeps s0 (saveEnd n c s) := by
  unfold saveEnd
  refine clusterUpd_keeps ?_ (fun x hx => memOk_mk.2 (memParts_of hx))
  have k : Keeps s0 (takeBack n c (cluster s n) s) := takeBack_keeps hk
  refine keeps_ite (fun _ => k) (fun _ => ?_)
  refine hk.trans ⟨(takeBack_keeps (Keeps.refl s)).1, (takeBack_keeps (Keeps.refl s)).2.1, fun m => ?_⟩
  refine (keeps_mk.2 (keepsParts_saves (takeBack_keeps (Keeps.refl s)) ?_)).2.2 m
  exact fun a => Tab.put_all _ _ _ Saved.memOk a (savedOf_memOk (memOk_cluster m))

theorem rebind_keeps {s0 : State} {n : Nat} {reach : Bool} {s : State}  (hk : Keeps s0 s) :
    Keeps s0 (rebind n reach s) := by
  unfold rebind
  repeat' (first
    | with_reducible assumption
    | with_reducible apply restoreStart_keeps
    | with_reducible apply saveStart_keeps
    | with_reducible apply cluster_keeps
    | with_reducible refine keeps_ite ?_ ?_
    | with_reducible apply keepsParts_of
    | simp only [keeps_mk]
    | with_reducible apply memOk_ite
    | with_reducible apply memParts_of
    | simp only [memOk_mk]
    | with_reducible refine memParts_mk ?_ ?_ ?_
    | exact Mem.nil_wf
    | intro _
    | split
    | dsimp only [id])

theorem rebindAll_keeps {s0 : State} {s : State}  (hk : Keeps s0 s) :
    Keeps s0 (rebindAll s) := by
  unfold rebindAll
  repeat' (first
    | with_reducible assumption
    | with_reducible apply foldl_keeps
    | with_reducible apply foldl_keeps_fst
    | with_reducible apply foldl_keeps_snd
    | with_reducible apply rebind_keeps
    | with_reducible refine keeps_ite ?_ ?_
    | with_reducible apply keepsParts_of
    | simp only [keeps_mk]
    | with_reducible apply memOk_ite
    | with_reducible apply memParts_of
    | simp only [memOk_mk]
    | with_reducible refine memParts_mk ?_ ?_ ?_
    | exact Mem.nil_wf
    | (with_reducible refine keepsParts_mem ?_ ?_ ?_ ?_ ?_)
    | with_reducible exact id
    | with_reducible exact Mem.store_wf _ _ _
    | with_reducible exact Mem.clear_wf _ _ _
    | with_reducible exact foldl_clear_wf
    | with_reducible exact (fun _ => Mem.nil_wf)
    | with_reducible exact (all_nil_keeps (p := Saved.memOk))
    | with_reducible exact (all_filter_keeps (p := Saved.memOk))
    | with_reducible exact (all_nil_keeps (p := Cluster.memOk))
    | with_reducible apply all_map_keeps
    | intro _
    | split
    | dsimp only [id])

theorem loadSaved_keeps {v : Option Saved} {entry : Nat} {x : Cluster} (hv : ∀ w, v = some w → w.memOk = true)
    (hc : x.memOk = true) : (loadSaved v entry x).memOk = true := by
  unfold loadSaved
  split
  · exact memOk_mk.2 ⟨memCase hc, memAcc hc, Mem.filter_wf _ _ (memMail hc)⟩
  · next w =>
    have h := hv w rfl
    simp only [Saved.memOk, Bool.and_eq_true] at h
    refine memOk_mk.2 ⟨?_, ?_, Mem.over_wf _ _ (Mem.filter_wf _ _ (memMail hc))⟩
    · split
      · exact h.1.1
      · exact memCase hc
    · split
      · exact h.1.2
      · exact memAcc hc

theorem placeRing_keeps {s0 : State} {n : Nat} {c : Nat} {s : State}  (hk : Keeps s0 s) :
    Keeps s0 (placeRing n c s) := by
  unfold placeRing
  repeat' (first
    | with_reducible assumption
    | with_reducible apply foldl_keeps
    | with_reducible apply foldl_keeps_fst
    | with_reducible apply foldl_keeps_snd
    | with_reducible apply getD_keeps
    | with_reducible apply clusterUpd_keeps
    | with_reducible apply placeMsg_keeps
    | with_reducible refine keeps_ite ?_ ?_
    | with_reducible apply keepsParts_of
    | simp only [keeps_mk]
    | with_reducible apply memOk_ite
    | with_reducible apply memParts_of
    | simp only [memOk_mk]
    | with_reducible refine memParts_mk ?_ ?_ ?_
    | exact Mem.nil_wf
    | intro _
    | split
    | dsimp only [id])

theorem waitTimeout_keeps {s0 : State} {n : Nat} {s : State}  (hk : Keeps s0 s) :
    Keeps s0 (waitTimeout n s) := by
  unfold waitTimeout
  repeat' (first
    | with_reducible assumption
    | with_reducible apply clusterUpd_keeps
    | with_reducible apply cluster_keeps
    | with_reducible apply setAreg_keeps
    | with_reducible refine keeps_ite ?_ ?_
    | with_reducible apply keepsParts_of
    | simp only [keeps_mk]
    | with_reducible apply memOk_ite
    | with_reducible apply memParts_of
    | simp only [memOk_mk]
    | with_reducible refine memParts_mk ?_ ?_ ?_
    | exact Mem.nil_wf
    | intro _
    | split
    | dsimp only [id])

theorem restoreEnd_keeps {s0 : State} {n c : Nat} {s : State} (hk : Keeps s0 s) : Keeps s0 (restoreEnd n c s) := by
  unfold restoreEnd
  have h1 : Keeps s0 (clusterUpd n (fun x => grantLines 512 (loadSaved (Tab.find s.sched.saves (n * 64 + c)) x.entry
      { x with moving := none })) s) :=
    hk.trans ⟨rfl, id, fun m => (clusterUpd_keeps (Keeps.refl s) (fun x hx =>
      grantLines_keeps <| loadSaved_keeps (fun w e => find_all (p := Saved.memOk) (memOk_saves m) e) (memOk_mk.2 (memParts_of hx)))).2.2 m⟩
  repeat' (first
    | with_reducible assumption
    | with_reducible apply rebind_keeps
    | with_reducible apply postWaiting_keeps
    | with_reducible apply takeItem_keeps
    | with_reducible apply waitTimeout_keeps
    | with_reducible apply wakeWait_keeps
    | with_reducible apply placeRing_keeps
    | with_reducible apply clusterUpd_keeps
    | with_reducible refine keeps_ite ?_ ?_
    | with_reducible apply memParts_of
    | simp only [memOk_mk]
    | exact keeps_mk.2 (keepsParts_saves h1 (fun a => all_filter_keeps (p := Saved.memOk) a))
    | exact keepsParts_saves h1 (fun a => all_filter_keeps (p := Saved.memOk) a)
    | intro _
    | split
    | dsimp only)

theorem divertOrPlace_keeps {s0 : State} {n : Nat} {ch : Nat} {m : List Byte} {s : State}  (hk : Keeps s0 s) :
    Keeps s0 (divertOrPlace n ch m s) := by
  unfold divertOrPlace
  repeat' (first
    | with_reducible assumption
    | with_reducible apply placeMsg_keeps
    | with_reducible apply cluster_keeps
    | with_reducible apply rebind_keeps
    | with_reducible refine keeps_ite ?_ ?_
    | with_reducible apply keepsParts_of
    | simp only [keeps_mk]
    | with_reducible apply memOk_ite
    | with_reducible apply memParts_of
    | simp only [memOk_mk]
    | with_reducible refine memParts_mk ?_ ?_ ?_
    | exact Mem.nil_wf
    | intro _
    | split
    | dsimp only [id])

theorem drainAhead_keeps {s0 : State} {n : Nat} {ch : Nat} {fuel : Nat} {s : State} (hk : Keeps s0 s) : Keeps s0 (drainAhead n ch fuel s) := by
  induction fuel generalizing s with
  | zero =>
    unfold drainAhead
    repeat' (first
      | with_reducible assumption
      | with_reducible apply divertOrPlace_keeps
      | with_reducible apply channelUpd_keeps
      | with_reducible refine keeps_ite ?_ ?_
      | with_reducible apply keepsParts_of
      | simp only [keeps_mk]
      | intro _
      | split
      | dsimp only [id])
  | succ _ ih =>
    unfold drainAhead
    repeat' (first
      | with_reducible assumption
      | with_reducible apply divertOrPlace_keeps
      | with_reducible apply channelUpd_keeps
      | with_reducible refine keeps_ite ?_ ?_
      | with_reducible apply keepsParts_of
      | simp only [keeps_mk]
      | with_reducible apply ih
      | intro _
      | split
      | dsimp only [id])

theorem chanDeliver_keeps {s0 : State} {n : Nat} {ch : Nat} {at_ : Option Nat} {m : List Byte} {s : State}  (hk : Keeps s0 s) :
    Keeps s0 (chanDeliver n ch at_ m s) := by
  unfold chanDeliver
  repeat' (first
    | with_reducible assumption
    | with_reducible apply divertOrPlace_keeps
    | with_reducible apply channelUpd_keeps
    | with_reducible apply drainAhead_keeps
    | with_reducible refine keeps_ite ?_ ?_
    | with_reducible apply keepsParts_of
    | simp only [keeps_mk]
    | intro _
    | split
    | dsimp only [id])

theorem breakChannels_keeps {s0 : State} {sel : ChanPeer → Bool} {c : Status} {s : State}  (hk : Keeps s0 s) :
    Keeps s0 (breakChannels sel c s) := by
  unfold breakChannels
  repeat' (first
    | with_reducible assumption
    | with_reducible apply foldl_keeps
    | with_reducible apply foldl_keeps_fst
    | with_reducible apply foldl_keeps_snd
    | with_reducible apply clusterUpd_keeps
    | with_reducible apply wakeWait_keeps
    | with_reducible apply cluster_keeps
    | with_reducible apply rebind_keeps
    | with_reducible refine keeps_ite ?_ ?_
    | with_reducible apply keepsParts_of
    | simp only [keeps_mk]
    | with_reducible apply memOk_ite
    | with_reducible apply memParts_of
    | simp only [memOk_mk]
    | with_reducible refine memParts_mk ?_ ?_ ?_
    | exact Mem.nil_wf
    | (with_reducible refine keepsParts_mem ?_ ?_ ?_ ?_ ?_)
    | with_reducible exact id
    | with_reducible exact Mem.store_wf _ _ _
    | with_reducible exact Mem.clear_wf _ _ _
    | with_reducible exact foldl_clear_wf
    | with_reducible exact (fun _ => Mem.nil_wf)
    | with_reducible exact (all_nil_keeps (p := Saved.memOk))
    | with_reducible exact (all_filter_keeps (p := Saved.memOk))
    | with_reducible exact (all_nil_keeps (p := Cluster.memOk))
    | with_reducible apply all_map_keeps
    | intro _
    | split
    | dsimp only [id])

theorem rearmChan_keeps {s0 : State} {n : Nat} {ch : Nat} {s : State}  (hk : Keeps s0 s) :
    Keeps s0 (rearmChan n ch s) := by
  unfold rearmChan
  repeat' (first
    | with_reducible assumption
    | with_reducible apply channelUpd_keeps
    | with_reducible refine keeps_ite ?_ ?_
    | with_reducible apply keepsParts_of
    | simp only [keeps_mk]
    | intro _
    | split
    | dsimp only [id])

theorem creditBack_keeps {s0 : State} {n : Nat} {ch : Nat} {count : Nat} {s : State}  (hk : Keeps s0 s) :
    Keeps s0 (creditBack n ch count s) := by
  unfold creditBack
  repeat' (first
    | with_reducible assumption
    | with_reducible apply channelUpd_keeps
    | with_reducible apply wakeWait_keeps
    | with_reducible apply rebind_keeps
    | with_reducible refine keeps_ite ?_ ?_
    | with_reducible apply keepsParts_of
    | simp only [keeps_mk]
    | intro _
    | split
    | dsimp only [id])

end Sys2Proof.Machine
end

