-- ==== Sys2Proof/Laws/KeepsRmaOps.lean ====
section
/-!
SUPPORT. What the operations of Sys2Proof/Machine/RmaOps.lean keep: the queue, the agreement of the TMR copies, and the canonical
form of the memories (Safety).
-/

namespace Sys2Proof.Machine

theorem qpUpd_keeps {s0 : State} {n : Nat} {f : Qp → Qp} {s : State}  (hk : Keeps s0 s) :
    Keeps s0 (qpUpd n f s) := by
  unfold qpUpd
  repeat' (first
    | with_reducible assumption
    | with_reducible refine keeps_ite ?_ ?_
    | with_reducible apply keepsParts_of
    | simp only [keeps_mk]
    | intro _
    | split
    | dsimp only [id])

theorem qpCompletion_keeps {s0 : State} {q : Nat} {wrId : DWord} {c : Status} {opcode : Byte} {len : Nat} {src : DevId} {v : DWord} {s : State} (hk : Keeps s0 s) :
    Keeps s0 (qpCompletion q wrId c opcode len src v s) := by
  unfold qpCompletion
  repeat' (first
    | with_reducible assumption
    | with_reducible apply qpUpd_keeps
    | with_reducible apply msix_keeps
    | with_reducible apply emit_keeps
    | with_reducible refine keeps_ite ?_ ?_
    | with_reducible apply keepsParts_of
    | simp only [keeps_mk]
    | intro _
    | split
    | dsimp only [id])

theorem flushDone_keeps {s0 : State} {q : Nat} {fuel : Nat} {s : State} (hk : Keeps s0 s) : Keeps s0 (flushDone q fuel s) := by
  induction fuel generalizing s with
  | zero =>
    unfold flushDone
    repeat' (first
      | with_reducible assumption
      | with_reducible apply qpCompletion_keeps
      | with_reducible apply qpUpd_keeps
      | with_reducible refine keeps_ite ?_ ?_
      | with_reducible apply keepsParts_of
      | simp only [keeps_mk]
      | intro _
      | split
      | dsimp only [id])
  | succ _ ih =>
    unfold flushDone
    repeat' (first
      | with_reducible assumption
      | with_reducible apply qpCompletion_keeps
      | with_reducible apply qpUpd_keeps
      | with_reducible refine keeps_ite ?_ ?_
      | with_reducible apply keepsParts_of
      | simp only [keeps_mk]
      | with_reducible apply ih
      | intro _
      | split
      | dsimp only [id])

theorem qpFlush_keeps {s0 : State} {q : Nat} {s : State}  (hk : Keeps s0 s) :
    Keeps s0 (qpFlush q s) := by
  unfold qpFlush
  repeat' (first
    | with_reducible assumption
    | with_reducible apply flushDone_keeps
    | with_reducible refine keeps_ite ?_ ?_
    | with_reducible apply keepsParts_of
    | simp only [keeps_mk]
    | intro _
    | split
    | dsimp only [id])

theorem wrUpd_keeps {s0 : State} {q : Nat} {i : Nat} {f : WrState → WrState} {s : State}  (hk : Keeps s0 s) :
    Keeps s0 (wrUpd q i f s) := by
  unfold wrUpd
  repeat' (first
    | with_reducible assumption
    | with_reducible apply qpUpd_keeps
    | with_reducible refine keeps_ite ?_ ?_
    | with_reducible apply keepsParts_of
    | simp only [keeps_mk]
    | intro _
    | split
    | dsimp only [id])

theorem wrDone_keeps {s0 : State} {q : Nat} {i : Nat} {c : Status} {v : DWord} {s : State}  (hk : Keeps s0 s) :
    Keeps s0 (wrDone q i c v s) := by
  unfold wrDone
  repeat' (first
    | with_reducible assumption
    | with_reducible apply getD_keeps
    | with_reducible apply wrUpd_keeps
    | with_reducible refine keeps_ite ?_ ?_
    | with_reducible apply keepsParts_of
    | simp only [keeps_mk]
    | intro _
    | split
    | dsimp only [id])

theorem ringEnds_keeps {s0 : State} {q : Nat} {c : Status} {s : State} (hk : Keeps s0 s) :
    Keeps s0 (ringEnds q c s) := by
  unfold ringEnds
  repeat' (first
    | with_reducible assumption
    | with_reducible apply foldl_keeps
    | with_reducible apply foldl_keeps_fst
    | with_reducible apply foldl_keeps_snd
    | with_reducible apply qpCompletion_keeps
    | with_reducible apply qpUpd_keeps
    | with_reducible apply bumpFree_keeps
    | with_reducible refine keeps_ite ?_ ?_
    | with_reducible apply keepsParts_of
    | simp only [keeps_mk]
    | intro _
    | split
    | dsimp only [id])

theorem qpError_keeps {s0 : State} {q : Nat} {i : Option Nat} {c : Status} {s : State} (hk : Keeps s0 s) :
    Keeps s0 (qpError q i c s) := by
  unfold qpError
  repeat' (first
    | with_reducible assumption
    | with_reducible apply foldl_keeps
    | with_reducible apply foldl_keeps_fst
    | with_reducible apply foldl_keeps_snd
    | with_reducible apply getD_keeps
    | with_reducible apply ringEnds_keeps
    | with_reducible apply wrDone_keeps
    | with_reducible apply qpFlush_keeps
    | with_reducible apply qpCompletion_keeps
    | with_reducible apply qpUpd_keeps
    | with_reducible apply noteErr_keeps
    | with_reducible apply breakChannels_keeps
    | with_reducible refine keeps_ite ?_ ?_
    | with_reducible apply keepsParts_of
    | simp only [keeps_mk]
    | intro _
    | split
    | dsimp only [id])

theorem fetchStart_keeps {s0 : State} {q : Nat} {s : State}  (hk : Keeps s0 s) :
    Keeps s0 (fetchStart q s) := by
  unfold fetchStart
  repeat' (first
    | with_reducible assumption
    | with_reducible apply qpUpd_keeps
    | with_reducible refine keeps_ite ?_ ?_
    | with_reducible apply keepsParts_of
    | simp only [keeps_mk]
    | intro _
    | split
    | dsimp only [id])

theorem evictFor_keeps {s0 : State} {half : Nat} {s : State} (hk : Keeps s0 s) :
    Keeps s0 (evictFor half s) := by
  unfold evictFor
  repeat' (first
    | with_reducible assumption
    | with_reducible apply foldl_keeps
    | with_reducible apply foldl_keeps_fst
    | with_reducible apply foldl_keeps_snd
    | with_reducible apply qpUpd_keeps
    | with_reducible apply emit_keeps
    | with_reducible refine keeps_ite ?_ ?_
    | with_reducible apply keepsParts_of
    | simp only [keeps_mk]
    | intro _
    | split
    | dsimp only [id])

theorem qpMake_keeps {s0 : State} {n : Nat} {x : Qp} {s : State} (hk : Keeps s0 s) :
    Keeps s0 (qpMake n x s) := by
  unfold qpMake
  repeat' (first
    | with_reducible assumption
    | with_reducible apply evictFor_keeps
    | with_reducible refine keeps_ite ?_ ?_
    | with_reducible apply keepsParts_of
    | simp only [keeps_mk]
    | intro _
    | split
    | dsimp only [id])

theorem qpRearm_keeps {s0 : State} {n : Nat} {s : State}  (hk : Keeps s0 s) :
    Keeps s0 (qpRearm n s) := by
  unfold qpRearm
  repeat' (first
    | with_reducible assumption
    | with_reducible apply qpUpd_keeps
    | with_reducible refine keeps_ite ?_ ?_
    | with_reducible apply keepsParts_of
    | simp only [keeps_mk]
    | intro _
    | split
    | dsimp only [id])

theorem rearmPeer_keeps {s0 : State} {p : ChanPeer} {s : State} (hk : Keeps s0 s) :
    Keeps s0 (rearmPeer p s) := by
  unfold rearmPeer
  repeat' (first
    | with_reducible assumption
    | with_reducible apply qpRearm_keeps
    | with_reducible refine keeps_ite ?_ ?_
    | with_reducible apply keepsParts_of
    | simp only [keeps_mk]
    | intro _
    | split
    | dsimp only [id])

theorem qpPump_keeps {s0 : State} {q : Nat} {a1 : Nat} {a2 : State} (hk : Keeps s0 a2) :
    Keeps s0 (qpPump q a1 a2) := by
  induction a1 generalizing a2 with
  | zero =>
    unfold qpPump
    repeat' (first
      | with_reducible assumption
      | with_reducible apply fetchStart_keeps
      | with_reducible apply wrUpd_keeps
      | with_reducible apply qpUpd_keeps
      | with_reducible apply podSend_keeps
      | with_reducible refine keeps_ite ?_ ?_
      | with_reducible apply keepsParts_of
      | simp only [keeps_mk]
      | intro _
      | split
      | dsimp only [id])
  | succ _ ih =>
    unfold qpPump
    repeat' (first
      | with_reducible assumption
      | with_reducible apply fetchStart_keeps
      | with_reducible apply wrUpd_keeps
      | with_reducible apply qpUpd_keeps
      | with_reducible apply podSend_keeps
      | with_reducible refine keeps_ite ?_ ?_
      | with_reducible apply keepsParts_of
      | simp only [keeps_mk]
      | with_reducible apply ih
      | intro _
      | split
      | dsimp only [id])

theorem qpSend_keeps {s0 : State} {q : Nat} {s : State}  (hk : Keeps s0 s) :
    Keeps s0 (qpSend q s) := by
  unfold qpSend
  repeat' (first
    | with_reducible assumption
    | with_reducible apply qpPump_keeps
    | with_reducible refine keeps_ite ?_ ?_
    | with_reducible apply keepsParts_of
    | simp only [keeps_mk]
    | intro _
    | split
    | dsimp only [id])

theorem dataSend_keeps {s0 : State} {m : PodHdr × List Byte} {s : State} (hk : Keeps s0 s) :
    Keeps s0 (dataSend m s) := by
  unfold dataSend
  repeat' (first
    | with_reducible assumption
    | with_reducible apply podSend_keeps
    | with_reducible refine keeps_ite ?_ ?_
    | with_reducible apply keepsParts_of
    | simp only [keeps_mk]
    | intro _
    | split
    | dsimp only [id])

theorem dataDrain_keeps {s0 : State} {s : State} (hk : Keeps s0 s) :
    Keeps s0 (dataDrain s) := by
  unfold dataDrain
  repeat' (first
    | with_reducible assumption
    | with_reducible apply foldl_keeps
    | with_reducible apply foldl_keeps_fst
    | with_reducible apply foldl_keeps_snd
    | with_reducible apply dataSend_keeps
    | with_reducible refine keeps_ite ?_ ?_
    | with_reducible apply keepsParts_of
    | simp only [keeps_mk]
    | intro _
    | split
    | dsimp only [id])

theorem fwDrain_keeps {s0 : State} {s : State} (hk : Keeps s0 s) :
    Keeps s0 (fwDrain s) := by
  unfold fwDrain
  repeat' (first
    | with_reducible assumption
    | with_reducible apply foldl_keeps
    | with_reducible apply foldl_keeps_fst
    | with_reducible apply foldl_keeps_snd
    | with_reducible apply sendPod_keeps
    | with_reducible refine keeps_ite ?_ ?_
    | with_reducible apply keepsParts_of
    | simp only [keeps_mk]
    | intro _
    | split
    | dsimp only [id])

theorem farDrained_keeps {s0 : State} {s : State}  (hk : Keeps s0 s) :
    Keeps s0 (farDrained s) := by
  unfold farDrained
  repeat' (first
    | with_reducible assumption
    | with_reducible apply foldl_keeps
    | with_reducible apply foldl_keeps_fst
    | with_reducible apply foldl_keeps_snd
    | with_reducible apply linkUpd_keeps
    | with_reducible refine keeps_ite ?_ ?_
    | with_reducible apply keepsParts_of
    | simp only [keeps_mk]
    | intro _
    | split
    | dsimp only [id])

theorem rmaPump_keeps {s0 : State} {s : State} (hk : Keeps s0 s) :
    Keeps s0 (rmaPump s) := by
  unfold rmaPump
  repeat' (first
    | with_reducible assumption
    | with_reducible apply foldl_keeps
    | with_reducible apply foldl_keeps_fst
    | with_reducible apply foldl_keeps_snd
    | with_reducible apply fwDrain_keeps
    | with_reducible apply dataDrain_keeps
    | with_reducible apply qpSend_keeps
    | with_reducible refine keeps_ite ?_ ?_
    | with_reducible apply keepsParts_of
    | simp only [keeps_mk]
    | intro _
    | split
    | dsimp only [id])

theorem qpPost_keeps {s0 : State} {q : Nat} {w : WrState} {s : State}  (hk : Keeps s0 s) :
    Keeps s0 (qpPost q w s) := by
  unfold qpPost
  repeat' (first
    | with_reducible assumption
    | with_reducible apply qpFlush_keeps
    | with_reducible apply qpSend_keeps
    | with_reducible apply qpUpd_keeps
    | with_reducible refine keeps_ite ?_ ?_
    | with_reducible apply keepsParts_of
    | simp only [keeps_mk]
    | intro _
    | split
    | dsimp only [id])

theorem chanPost_keeps {s0 : State} {q : Nat} {dev : DevId} {peer : QpNum} {slot : Nat} {m : List Byte} {tenant : Option (BitVec 16)} {s : State} (hk : Keeps s0 s) :
    Keeps s0 (chanPost q dev peer slot m tenant s) := by
  unfold chanPost
  repeat' (first
    | with_reducible assumption
    | with_reducible apply qpPost_keeps
    | with_reducible refine keeps_ite ?_ ?_
    | with_reducible apply keepsParts_of
    | simp only [keeps_mk]
    | intro _
    | split
    | dsimp only [id])

theorem raiseFault_keeps {s0 : State} {k : Word} {kind : Byte} {page : Nat} {s : State} (hk : Keeps s0 s) :
    Keeps s0 (raiseFault k kind page s) := by
  unfold raiseFault
  repeat' (first
    | with_reducible assumption
    | with_reducible apply faultRecord_keeps
    | with_reducible refine keeps_ite ?_ ?_
    | with_reducible apply keepsParts_of
    | simp only [keeps_mk]
    | intro _
    | split
    | dsimp only [id])

end Sys2Proof.Machine
end

