-- ==== Sys2Proof/Laws/KeepsChannels.lean ====
section
/-!
SUPPORT. What the operations of Sys2Proof/Machine/Channels.lean keep: the queue, the agreement of the TMR copies, and the canonical
form of the memories (Safety).
-/

namespace Sys2Proof.Machine

theorem sendCredit_keeps {s0 : State} {n : Nat} {ch : Nat} {s : State}  (hk : Keeps s0 s) :
    Keeps s0 (sendCredit n ch s) := by
  unfold sendCredit
  repeat' (first
    | with_reducible assumption
    | with_reducible apply getD_keeps
    | with_reducible apply trayPacket_keeps
    | with_reducible refine keeps_ite ?_ ?_
    | with_reducible apply keepsParts_of
    | simp only [keeps_mk]
    | intro _
    | split
    | dsimp only [id])

theorem resendCredits_keeps {s0 : State} {d : Nat} {s : State}  (hk : Keeps s0 s) :
    Keeps s0 (resendCredits d s) := by
  unfold resendCredits
  repeat' (first
    | with_reducible assumption
    | with_reducible apply foldl_keeps
    | with_reducible apply foldl_keeps_fst
    | with_reducible apply foldl_keeps_snd
    | with_reducible apply sendCredit_keeps
    | with_reducible refine keeps_ite ?_ ?_
    | with_reducible apply keepsParts_of
    | simp only [keeps_mk]
    | with_reducible apply memOk_ite
    | with_reducible apply memParts_of
    | simp only [memOk_mk]
    | with_reducible refine memParts_mk ?_ ?_ ?_
    | exact Mem.nil_wf
    | (with_reducible refine keepsParts_mem ?_ ?_ ?_ ?_ ?_)
    | with_reducible exact id
    | with_reducible exact Mem.store_wf _ _ _
    | with_reducible exact Mem.clear_wf _ _ _
    | with_reducible exact foldl_clear_wf
    | with_reducible exact (fun _ => Mem.nil_wf)
    | with_reducible exact (all_nil_keeps (p := Saved.memOk))
    | with_reducible exact (all_filter_keeps (p := Saved.memOk))
    | with_reducible exact (all_nil_keeps (p := Cluster.memOk))
    | with_reducible apply all_map_keeps
    | intro _
    | split
    | dsimp only [id])

theorem creditReturn_keeps {s0 : State} {n : Nat} {ch : Nat} {s : State} (hk : Keeps s0 s) :
    Keeps s0 (creditReturn n ch s) := by
  unfold creditReturn
  repeat' (first
    | with_reducible assumption
    | with_reducible apply chanPost_keeps
    | with_reducible apply sendCredit_keeps
    | with_reducible apply creditBack_keeps
    | with_reducible refine keeps_ite ?_ ?_
    | with_reducible apply keepsParts_of
    | simp only [keeps_mk]
    | intro _
    | split
    | dsimp only [id])

theorem dropHead_keeps {s0 : State} {n : Nat} {ch : Nat} {s : State}  (hk : Keeps s0 s) :
    Keeps s0 (dropHead n ch s) := by
  unfold dropHead
  repeat' (first
    | with_reducible assumption
    | with_reducible apply creditReturn_keeps
    | with_reducible apply channelUpd_keeps
    | with_reducible refine keeps_ite ?_ ?_
    | with_reducible apply keepsParts_of
    | simp only [keeps_mk]
    | intro _
    | split
    | dsimp only [id])

theorem discardStale_keeps {s0 : State} {n : Nat} {ch : Nat} {fuel : Nat} {s : State} (hk : Keeps s0 s) : Keeps s0 (discardStale n ch fuel s) := by
  induction fuel generalizing s with
  | zero =>
    unfold discardStale
    repeat' (first
      | with_reducible assumption
      | with_reducible apply clusterUpd_keeps
      | with_reducible apply dropHead_keeps
      | with_reducible apply cluster_keeps
      | with_reducible refine keeps_ite ?_ ?_
      | with_reducible apply keepsParts_of
      | simp only [keeps_mk]
      | with_reducible apply memOk_ite
      | with_reducible apply memParts_of
      | simp only [memOk_mk]
      | with_reducible refine memParts_mk ?_ ?_ ?_
      | exact Mem.nil_wf
      | intro _
      | split
      | dsimp only [id])
  | succ _ ih =>
    unfold discardStale
    repeat' (first
      | with_reducible assumption
      | with_reducible apply clusterUpd_keeps
      | with_reducible apply dropHead_keeps
      | with_reducible apply cluster_keeps
      | with_reducible refine keeps_ite ?_ ?_
      | with_reducible apply keepsParts_of
      | simp only [keeps_mk]
      | with_reducible apply memOk_ite
      | with_reducible apply memParts_of
      | simp only [memOk_mk]
      | with_reducible refine memParts_mk ?_ ?_ ?_
      | exact Mem.nil_wf
      | with_reducible apply ih
      | intro _
      | split
      | dsimp only [id])

theorem sendMessage_keeps {s0 : State} {n : Nat} {ch : Nat} {s : State} {m : List Byte} (hk : Keeps s0 s) :
    Keeps s0 (sendMessage n ch s m) := by
  unfold sendMessage
  repeat' (first
    | with_reducible assumption
    | with_reducible apply chanPost_keeps
    | with_reducible apply xbarToCluster_keeps
    | with_reducible apply xbarPass_keeps
    | with_reducible apply trayIssue_keeps
    | with_reducible apply channelUpd_keeps
    | with_reducible apply chanDeliver_keeps
    | with_reducible refine keeps_ite ?_ ?_
    | with_reducible apply keepsParts_of
    | simp only [keeps_mk]
    | intro _
    | split
    | dsimp only [id])

end Sys2Proof.Machine
end

