-- ==== Sys2Proof/Laws/KeepsCompositor.lean ====
section
/-!
SUPPORT. What the operations of Sys2Proof/Machine/Compositor.lean keep: the queue, the agreement of the TMR copies, and the canonical
form of the memories (Safety).
-/

namespace Sys2Proof.Machine

theorem issued_keeps {op : Byte} {x : Cluster} (hc : x.memOk = true) : (issued op x).memOk = true := by
  unfold issued
  repeat' (first
    | with_reducible assumption
    | with_reducible refine keeps_ite ?_ ?_
    | with_reducible apply keepsParts_of
    | simp only [keeps_mk]
    | with_reducible apply memOk_ite
    | with_reducible apply memParts_of
    | simp only [memOk_mk]
    | with_reducible refine memParts_mk ?_ ?_ ?_
    | exact Mem.nil_wf
    | intro _
    | split
    | dsimp only [id])

theorem control_keeps {s0 : State} {cl : ClusterId} {op : Byte} {f : Cluster → Cluster} {s : State} (h_f : ∀ c : Cluster, c.memOk = true → (f c).memOk = true) {tt : State} (hk : Keeps s0 s) (eq_ : control cl op f s = .next tt) : Keeps s0 tt := by
  unfold control at eq_
  repeat' (first | split at eq_ | dsimp only at eq_)
  all_goals (first | (injection eq_ with eq_; subst eq_) | (cases eq_))
  repeat' (first
    | with_reducible assumption
    | with_reducible apply clusterUpd_keeps
    | with_reducible apply issued_keeps
    | with_reducible apply h_f
    | with_reducible refine keeps_ite ?_ ?_
    | with_reducible apply keepsParts_of
    | simp only [keeps_mk]
    | with_reducible apply memOk_ite
    | with_reducible apply memParts_of
    | simp only [memOk_mk]
    | with_reducible refine memParts_mk ?_ ?_ ?_
    | exact Mem.nil_wf
    | intro _
    | split
    | dsimp only [id])

theorem execNop_keeps {s0 : State} {cl : ClusterId} {s : State}  {tt : State} (hk : Keeps s0 s) (eq_ : execNop cl s = .next tt) : Keeps s0 tt := by
  unfold execNop at eq_
  repeat' (first | split at eq_ | dsimp only at eq_)
  all_goals (first | (with_reducible refine control_keeps ?_ ?_ eq_) | (injection eq_ with eq_; subst eq_) | (cases eq_))
  repeat' (first
    | with_reducible assumption
    | with_reducible refine keeps_ite ?_ ?_
    | with_reducible apply keepsParts_of
    | simp only [keeps_mk]
    | intro _
    | split
    | dsimp only [id])

theorem execSeta_keeps {s0 : State} {cl : ClusterId} {a : BitVec 4} {v : Word} {s : State}  {tt : State} (hk : Keeps s0 s) (eq_ : execSeta cl a v s = .next tt) : Keeps s0 tt := by
  unfold execSeta at eq_
  repeat' (first | split at eq_ | dsimp only at eq_)
  all_goals (first | (with_reducible refine control_keeps ?_ ?_ eq_) | (injection eq_ with eq_; subst eq_) | (cases eq_))
  repeat' (first
    | with_reducible assumption
    | with_reducible apply setAreg_keeps
    | with_reducible refine keeps_ite ?_ ?_
    | with_reducible apply keepsParts_of
    | simp only [keeps_mk]
    | with_reducible apply memOk_ite
    | with_reducible apply memParts_of
    | simp only [memOk_mk]
    | with_reducible refine memParts_mk ?_ ?_ ?_
    | exact Mem.nil_wf
    | intro _
    | split
    | dsimp only [id])

theorem execAdda_keeps {s0 : State} {cl : ClusterId} {a : BitVec 4} {v : Word} {s : State}  {tt : State} (hk : Keeps s0 s) (eq_ : execAdda cl a v s = .next tt) : Keeps s0 tt := by
  unfold execAdda at eq_
  repeat' (first | split at eq_ | dsimp only at eq_)
  all_goals (first | (with_reducible refine control_keeps ?_ ?_ eq_) | (injection eq_ with eq_; subst eq_) | (cases eq_))
  repeat' (first
    | with_reducible assumption
    | with_reducible apply setAreg_keeps
    | with_reducible refine keeps_ite ?_ ?_
    | with_reducible apply keepsParts_of
    | simp only [keeps_mk]
    | with_reducible apply memOk_ite
    | with_reducible apply memParts_of
    | simp only [memOk_mk]
    | with_reducible refine memParts_mk ?_ ?_ ?_
    | exact Mem.nil_wf
    | intro _
    | split
    | dsimp only [id])

theorem execLoop_keeps {s0 : State} {cl : ClusterId} {count : BitVec 16} {last : BitVec 14} {s : State}  {tt : State} (hk : Keeps s0 s) (eq_ : execLoop cl count last s = .next tt) : Keeps s0 tt := by
  unfold execLoop at eq_
  repeat' (first | split at eq_ | dsimp only at eq_)
  all_goals (first | (with_reducible refine control_keeps ?_ ?_ eq_) | (injection eq_ with eq_; subst eq_) | (cases eq_))
  repeat' (first
    | with_reducible assumption
    | with_reducible apply cluster_keeps
    | with_reducible refine keeps_ite ?_ ?_
    | with_reducible apply keepsParts_of
    | simp only [keeps_mk]
    | with_reducible apply memOk_ite
    | with_reducible apply memParts_of
    | simp only [memOk_mk]
    | with_reducible refine memParts_mk ?_ ?_ ?_
    | exact Mem.nil_wf
    | intro _
    | split
    | dsimp only [id])

theorem execJump_keeps {s0 : State} {cl : ClusterId} {t : BitVec 14} {s : State}  {tt : State} (hk : Keeps s0 s) (eq_ : execJump cl t s = .next tt) : Keeps s0 tt := by
  unfold execJump at eq_
  repeat' (first | split at eq_ | dsimp only at eq_)
  all_goals (first | (injection eq_ with eq_; subst eq_) | (cases eq_))
  repeat' (first
    | with_reducible assumption
    | with_reducible apply clusterUpd_keeps
    | with_reducible refine keeps_ite ?_ ?_
    | with_reducible apply keepsParts_of
    | simp only [keeps_mk]
    | with_reducible apply memOk_ite
    | with_reducible apply memParts_of
    | simp only [memOk_mk]
    | with_reducible refine memParts_mk ?_ ?_ ?_
    | exact Mem.nil_wf
    | intro _
    | split
    | dsimp only [id])

theorem execBranch_keeps {s0 : State} {cl : ClusterId} {a : BitVec 4} {t : BitVec 14} {s : State}  {tt : State} (hk : Keeps s0 s) (eq_ : execBranch cl a t s = .next tt) : Keeps s0 tt := by
  unfold execBranch at eq_
  repeat' (first | split at eq_ | dsimp only at eq_)
  all_goals (first | (injection eq_ with eq_; subst eq_) | (cases eq_))
  repeat' (first
    | with_reducible assumption
    | with_reducible apply clusterUpd_keeps
    | with_reducible apply issued_keeps
    | with_reducible refine keeps_ite ?_ ?_
    | with_reducible apply keepsParts_of
    | simp only [keeps_mk]
    | with_reducible apply memOk_ite
    | with_reducible apply memParts_of
    | simp only [memOk_mk]
    | with_reducible refine memParts_mk ?_ ?_ ?_
    | exact Mem.nil_wf
    | intro _
    | split
    | dsimp only [id])

theorem execLda_keeps {s0 : State} {cl : ClusterId} {a : BitVec 4} {b : BitVec 4} {off : Word} {s : State}  {tt : State} (hk : Keeps s0 s) (eq_ : execLda cl a b off s = .next tt) : Keeps s0 tt := by
  unfold execLda at eq_
  repeat' (first | split at eq_ | dsimp only at eq_)
  all_goals (first | (injection eq_ with eq_; subst eq_) | (cases eq_))
  repeat' (first
    | with_reducible assumption
    | with_reducible apply clusterUpd_keeps
    | with_reducible apply bumpFree_keeps
    | with_reducible apply cluster_keeps
    | with_reducible apply setAreg_keeps
    | with_reducible apply issued_keeps
    | with_reducible refine keeps_ite ?_ ?_
    | with_reducible apply keepsParts_of
    | simp only [keeps_mk]
    | with_reducible apply memOk_ite
    | with_reducible apply memParts_of
    | simp only [memOk_mk]
    | with_reducible refine memParts_mk ?_ ?_ ?_
    | with_reducible apply memCase
    | with_reducible apply memAcc
    | with_reducible apply memMail
    | with_reducible apply Mem.store_wf
    | with_reducible apply Mem.clear_wf
    | with_reducible apply Mem.filter_wf
    | with_reducible apply Mem.over_wf
    | exact Mem.nil_wf
    | (with_reducible refine keepsParts_mem ?_ ?_ ?_ ?_ ?_)
    | with_reducible exact id
    | with_reducible exact Mem.store_wf _ _ _
    | with_reducible exact Mem.clear_wf _ _ _
    | with_reducible exact foldl_clear_wf
    | with_reducible exact (fun _ => Mem.nil_wf)
    | with_reducible exact (all_nil_keeps (p := Saved.memOk))
    | with_reducible exact (all_filter_keeps (p := Saved.memOk))
    | with_reducible exact (all_nil_keeps (p := Cluster.memOk))
    | with_reducible apply all_map_keeps
    | intro _
    | split
    | dsimp only [id])

theorem execLive_keeps {s0 : State} {cl : ClusterId} {id : BitVec 5} {startKib : BitVec 11} {lenM1 : BitVec 11} {end_ : Bool} {s : State} {tt : State} (hk : Keeps s0 s) (eq_ : execLive cl id startKib lenM1 end_ s = .next tt) : Keeps s0 tt := by
  unfold execLive at eq_
  repeat' (first | split at eq_ | dsimp only at eq_)
  all_goals (first | (injection eq_ with eq_; subst eq_) | (cases eq_))
  repeat' (first
    | with_reducible assumption
    | with_reducible apply clusterUpd_keeps
    | with_reducible apply endItem_keeps
    | with_reducible apply issued_keeps
    | with_reducible refine keeps_ite ?_ ?_
    | with_reducible apply keepsParts_of
    | simp only [keeps_mk]
    | with_reducible apply memOk_ite
    | with_reducible apply memParts_of
    | simp only [memOk_mk]
    | with_reducible refine memParts_mk ?_ ?_ ?_
    | exact Mem.nil_wf
    | intro _
    | split
    | dsimp only [id])

theorem waitwq_keeps {s0 : State} {n : Nat} {s : State}  (hk : Keeps s0 s) :
    Keeps s0 (waitwq n s) := by
  unfold waitwq
  repeat' (first
    | with_reducible assumption
    | with_reducible apply postWaiting_keeps
    | with_reducible apply clusterUpd_keeps
    | with_reducible apply vtRefresh_keeps
    | with_reducible apply endSpans_keeps
    | with_reducible apply itemGone_keeps
    | with_reducible apply takeItem_keeps
    | with_reducible apply cluster_keeps
    | with_reducible apply rebind_keeps
    | with_reducible apply issued_keeps
    | with_reducible refine keeps_ite ?_ ?_
    | with_reducible apply keepsParts_of
    | simp only [keeps_mk]
    | with_reducible apply memOk_ite
    | with_reducible apply memParts_of
    | simp only [memOk_mk]
    | with_reducible refine memParts_mk ?_ ?_ ?_
    | exact Mem.nil_wf
    | intro _
    | split
    | dsimp only [id])

theorem execWaitwq_keeps {s0 : State} {cl : ClusterId} {s : State}  {tt : State} (hk : Keeps s0 s) (eq_ : execWaitwq cl s = .next tt) : Keeps s0 tt := by
  unfold execWaitwq at eq_
  repeat' (first | split at eq_ | dsimp only at eq_)
  all_goals (first | (injection eq_ with eq_; subst eq_) | (cases eq_))
  repeat' (first
    | with_reducible assumption
    | with_reducible apply waitwq_keeps
    | with_reducible refine keeps_ite ?_ ?_
    | with_reducible apply keepsParts_of
    | simp only [keeps_mk]
    | intro _
    | split
    | dsimp only [id])

theorem execDonewq_keeps {s0 : State} {cl : ClusterId} {status : Byte} {s : State}  {tt : State} (hk : Keeps s0 s) (eq_ : execDonewq cl status s = .next tt) : Keeps s0 tt := by
  unfold execDonewq at eq_
  repeat' (first | split at eq_ | dsimp only at eq_)
  all_goals (first | (injection eq_ with eq_; subst eq_) | (cases eq_))
  repeat' (first
    | with_reducible assumption
    | with_reducible apply clusterUpd_keeps
    | with_reducible apply endSpans_keeps
    | with_reducible apply itemGone_keeps
    | with_reducible apply cluster_keeps
    | with_reducible apply issued_keeps
    | with_reducible refine keeps_ite ?_ ?_
    | with_reducible apply keepsParts_of
    | simp only [keeps_mk]
    | with_reducible apply memOk_ite
    | with_reducible apply memParts_of
    | simp only [memOk_mk]
    | with_reducible refine memParts_mk ?_ ?_ ?_
    | exact Mem.nil_wf
    | intro _
    | split
    | dsimp only [id])

theorem execWorkItemPost_keeps {s0 : State} {cl : ClusterId} {i : WorkItem} {s : State} {tt : State} (hk : Keeps s0 s) (eq_ : execWorkItemPost cl i s = .next tt) : Keeps s0 tt := by
  unfold execWorkItemPost at eq_
  repeat' (first | split at eq_ | dsimp only at eq_)
  all_goals (first | (injection eq_ with eq_; subst eq_) | (cases eq_))
  repeat' (first
    | with_reducible assumption
    | with_reducible apply rebind_keeps
    | with_reducible apply postWaiting_keeps
    | with_reducible apply armSchedule_keeps
    | with_reducible apply vtRefresh_keeps
    | with_reducible refine keeps_ite ?_ ?_
    | with_reducible apply keepsParts_of
    | simp only [keeps_mk]
    | intro _
    | split
    | dsimp only [id])

theorem podArrive_keeps {s0 : State} {p : Nat} {c : Nat} {id : Nat} {s : State}  (hk : Keeps s0 s) :
    Keeps s0 (podArrive p c id s) := by
  unfold podArrive
  repeat' (first
    | with_reducible assumption
    | with_reducible apply getD_keeps
    | with_reducible apply sendFw_keeps
    | with_reducible refine keeps_ite ?_ ?_
    | with_reducible apply keepsParts_of
    | simp only [keeps_mk]
    | intro _
    | split
    | dsimp only [id])

theorem execBarrier_keeps {s0 : State} {cl : ClusterId} {id : Byte} {scope : BitVec 2} {s : State}  {tt : State} (hk : Keeps s0 s) (eq_ : execBarrier cl id scope s = .next tt) : Keeps s0 tt := by
  unfold execBarrier at eq_
  repeat' (first | split at eq_ | dsimp only at eq_)
  all_goals (first | (injection eq_ with eq_; subst eq_) | (cases eq_))
  repeat' (first
    | with_reducible assumption
    | with_reducible apply getD_keeps
    | with_reducible apply clusterUpd_keeps
    | with_reducible apply vtRefresh_keeps
    | with_reducible apply podArrive_keeps
    | with_reducible apply cluster_keeps
    | with_reducible apply rebind_keeps
    | with_reducible apply issued_keeps
    | with_reducible refine keeps_ite ?_ ?_
    | with_reducible apply keepsParts_of
    | simp only [keeps_mk]
    | with_reducible apply memOk_ite
    | with_reducible apply memParts_of
    | simp only [memOk_mk]
    | with_reducible refine memParts_mk ?_ ?_ ?_
    | exact Mem.nil_wf
    | intro _
    | split
    | dsimp only [id])

theorem releaseOne_keeps {s0 : State} {c : Nat} {s : State} {n : Nat}  (hk : Keeps s0 s) :
    Keeps s0 (releaseOne c s n) := by
  unfold releaseOne
  repeat' (first
    | with_reducible assumption
    | with_reducible apply clusterUpd_keeps
    | with_reducible apply cluster_keeps
    | with_reducible refine keeps_ite ?_ ?_
    | with_reducible apply keepsParts_of
    | simp only [keeps_mk]
    | with_reducible apply memOk_ite
    | with_reducible apply memParts_of
    | simp only [memOk_mk]
    | with_reducible refine memParts_mk ?_ ?_ ?_
    | exact Mem.nil_wf
    | intro _
    | split
    | dsimp only [id])

theorem releaseBarrier_keeps {s0 : State} {c : Nat} {scope : Nat} {id : Nat} {ns : List Nat} {s : State}  (hk : Keeps s0 s) :
    Keeps s0 (releaseBarrier c scope id ns s) := by
  unfold releaseBarrier
  repeat' (first
    | with_reducible assumption
    | with_reducible apply foldl_keeps
    | with_reducible apply foldl_keeps_fst
    | with_reducible apply foldl_keeps_snd
    | with_reducible apply getD_keeps
    | with_reducible apply releaseOne_keeps
    | with_reducible apply rebind_keeps
    | with_reducible refine keeps_ite ?_ ?_
    | with_reducible apply keepsParts_of
    | simp only [keeps_mk]
    | intro _
    | split
    | dsimp only [id])

theorem regionRelease_keeps {s0 : State} {r : Nat} {c : Nat} {id : Nat} {s : State}  (hk : Keeps s0 s) :
    Keeps s0 (regionRelease r c id s) := by
  unfold regionRelease
  repeat' (first
    | with_reducible assumption
    | with_reducible apply releaseBarrier_keeps
    | with_reducible refine keeps_ite ?_ ?_
    | with_reducible apply keepsParts_of
    | simp only [keeps_mk]
    | intro _
    | split
    | dsimp only [id])

theorem execRegionBarrierRelease_keeps {s0 : State} {r : RegionId} {ctx : FnId} {id : Byte} {s : State}  {tt : State} (hk : Keeps s0 s) (eq_ : execRegionBarrierRelease r ctx id s = .next tt) : Keeps s0 tt := by
  unfold execRegionBarrierRelease at eq_
  repeat' (first | split at eq_ | dsimp only at eq_)
  all_goals (first | (injection eq_ with eq_; subst eq_) | (cases eq_))
  repeat' (first
    | with_reducible assumption
    | with_reducible apply regionRelease_keeps
    | with_reducible refine keeps_ite ?_ ?_
    | with_reducible apply keepsParts_of
    | simp only [keeps_mk]
    | intro _
    | split
    | dsimp only [id])

theorem execDieBarrierRelease_keeps {s0 : State} {p : PartId} {ctx : FnId} {id : Byte} {s : State}  {tt : State} (hk : Keeps s0 s) (eq_ : execDieBarrierRelease p ctx id s = .next tt) : Keeps s0 tt := by
  unfold execDieBarrierRelease at eq_
  repeat' (first | split at eq_ | dsimp only at eq_)
  all_goals (first | (injection eq_ with eq_; subst eq_) | (cases eq_))
  repeat' (first
    | with_reducible assumption
    | with_reducible apply getD_keeps
    | with_reducible apply releaseBarrier_keeps
    | with_reducible refine keeps_ite ?_ ?_
    | with_reducible apply keepsParts_of
    | simp only [keeps_mk]
    | intro _
    | split
    | dsimp only [id])

theorem execWaitch_keeps {s0 : State} {cl : ClusterId} {a : BitVec 4} {timeout : BitVec 20} {count : Byte} {credits : Bool} {ch : BitVec 5} {s : State}  {tt : State} (hk : Keeps s0 s) (eq_ : execWaitch cl a timeout count credits ch s = .next tt) : Keeps s0 tt := by
  unfold execWaitch at eq_
  repeat' (first | split at eq_ | dsimp only at eq_)
  all_goals (first | (injection eq_ with eq_; subst eq_) | (cases eq_))
  repeat' (first
    | with_reducible assumption
    | with_reducible apply clusterUpd_keeps
    | with_reducible apply vtRefresh_keeps
    | with_reducible apply wakeWait_keeps
    | with_reducible apply cluster_keeps
    | with_reducible apply endItem_keeps
    | with_reducible apply rebind_keeps
    | with_reducible apply issued_keeps
    | with_reducible refine keeps_ite ?_ ?_
    | with_reducible apply keepsParts_of
    | simp only [keeps_mk]
    | with_reducible apply memOk_ite
    | with_reducible apply memParts_of
    | simp only [memOk_mk]
    | with_reducible refine memParts_mk ?_ ?_ ?_
    | exact Mem.nil_wf
    | intro _
    | split
    | dsimp only [id])

theorem execWaitchTimeout_keeps {s0 : State} {cl : ClusterId} {s : State}  {tt : State} (hk : Keeps s0 s) (eq_ : execWaitchTimeout cl s = .next tt) : Keeps s0 tt := by
  unfold execWaitchTimeout at eq_
  repeat' (first | split at eq_ | dsimp only at eq_)
  all_goals (first | (injection eq_ with eq_; subst eq_) | (cases eq_))
  repeat' (first
    | with_reducible assumption
    | with_reducible apply waitTimeout_keeps
    | with_reducible apply vtRefresh_keeps
    | with_reducible apply cluster_keeps
    | with_reducible apply rebind_keeps
    | with_reducible refine keeps_ite ?_ ?_
    | with_reducible apply keepsParts_of
    | simp only [keeps_mk]
    | with_reducible apply memOk_ite
    | with_reducible apply memParts_of
    | simp only [memOk_mk]
    | with_reducible refine memParts_mk ?_ ?_ ?_
    | exact Mem.nil_wf
    | intro _
    | split
    | dsimp only [id])

theorem execChannelRearm_keeps {s0 : State} {cl : ClusterId} {ch : BitVec 5} {s : State} {tt : State} (hk : Keeps s0 s) (eq_ : execChannelRearm cl ch s = .next tt) : Keeps s0 tt := by
  unfold execChannelRearm at eq_
  repeat' (first | split at eq_ | dsimp only at eq_)
  all_goals (first | (injection eq_ with eq_; subst eq_) | (cases eq_))
  repeat' (first
    | with_reducible assumption
    | with_reducible apply rearmPeer_keeps
    | with_reducible apply rearmChan_keeps
    | with_reducible refine keeps_ite ?_ ?_
    | with_reducible apply keepsParts_of
    | simp only [keeps_mk]
    | intro _
    | split
    | dsimp only [id])

theorem setQuiesce_keeps {s0 : State} {n : Nat} {w : CtlWrite} {s : State}  (hk : Keeps s0 s) :
    Keeps s0 (setQuiesce n w s) := by
  unfold setQuiesce
  repeat' (first
    | with_reducible assumption
    | with_reducible apply clusterUpd_keeps
    | with_reducible apply takeItem_keeps
    | with_reducible refine keeps_ite ?_ ?_
    | with_reducible apply keepsParts_of
    | simp only [keeps_mk]
    | with_reducible apply memOk_ite
    | with_reducible apply memParts_of
    | simp only [memOk_mk]
    | with_reducible refine memParts_mk ?_ ?_ ?_
    | exact Mem.nil_wf
    | intro _
    | split
    | dsimp only [id])

theorem clusterCtl_keeps {s0 : State} {n : Nat} {w : CtlWrite} {own : Nat} {run : State → State} {s : State} (h_run : ∀ (u : State), Keeps s0 u → Keeps s0 (run u)) (hk : Keeps s0 s) :
    Keeps s0 (clusterCtl n w own run s) := by
  unfold clusterCtl
  repeat' (first
    | with_reducible assumption
    | with_reducible apply setQuiesce_keeps
    | with_reducible apply ctl_keeps
    | with_reducible apply h_run
    | with_reducible refine keeps_ite ?_ ?_
    | with_reducible apply keepsParts_of
    | simp only [keeps_mk]
    | intro _
    | split
    | dsimp only [id])

theorem execClusterClr_keeps {s0 : State} {cl : ClusterId} {w : CtlWrite} {s : State}  {tt : State} (hk : Keeps s0 s) (eq_ : execClusterClr cl w s = .next tt) : Keeps s0 tt := by
  unfold execClusterClr at eq_
  repeat' (first | split at eq_ | dsimp only at eq_)
  all_goals (first | (injection eq_ with eq_; subst eq_) | (cases eq_))
  repeat' (first
    | with_reducible assumption
    | with_reducible apply clusterUpd_keeps
    | with_reducible apply clusterCtl_keeps
    | with_reducible refine keeps_ite ?_ ?_
    | with_reducible apply keepsParts_of
    | simp only [keeps_mk]
    | with_reducible apply memOk_ite
    | with_reducible apply memParts_of
    | simp only [memOk_mk]
    | with_reducible refine memParts_mk ?_ ?_ ?_
    | exact Mem.nil_wf
    | intro _
    | split
    | dsimp only [id])

theorem execQuiesce_keeps {s0 : State} {cl : ClusterId} {w : CtlWrite} {s : State}  {tt : State} (hk : Keeps s0 s) (eq_ : execQuiesce cl w s = .next tt) : Keeps s0 tt := by
  unfold execQuiesce at eq_
  repeat' (first | split at eq_ | dsimp only at eq_)
  all_goals (first | (injection eq_ with eq_; subst eq_) | (cases eq_))
  repeat' (first
    | with_reducible assumption
    | with_reducible apply clusterCtl_keeps
    | with_reducible refine keeps_ite ?_ ?_
    | with_reducible apply keepsParts_of
    | simp only [keeps_mk]
    | intro _
    | split
    | dsimp only [id])

end Sys2Proof.Machine
end

