-- ==== Sys2Proof/Laws/KeepsSilver.lean ====
section
/-!
SUPPORT. What the operations of Sys2Proof/Machine/Silver.lean keep: the queue, the agreement of the TMR copies, and the canonical
form of the memories (Safety).
-/

namespace Sys2Proof.Machine

theorem silverPage_keeps {s0 : State} {q : ReqId} {k : Nat} {l : Nat} {p : Nat} {reads : ReadOutcome} {s : State} (hk : Keeps s0 s) :
    Keeps s0 (silverPage q k l p reads s) := by
  unfold silverPage
  repeat' (first
    | with_reducible assumption
    | with_reducible apply foldl_keeps
    | with_reducible apply foldl_keeps_fst
    | with_reducible apply foldl_keeps_snd
    | with_reducible apply meterT2_keeps
    | with_reducible apply meterT1_keeps
    | with_reducible apply moverRead_keeps
    | with_reducible apply journal_keeps
    | with_reducible apply pageUpd_keeps
    | with_reducible apply trayIssue_keeps
    | (with_reducible apply moverRead_keeps_of (by assumption))
    | with_reducible refine keeps_ite ?_ ?_
    | with_reducible apply keepsParts_of
    | simp only [keeps_mk]
    | intro _
    | split
    | dsimp only [id])

theorem silverMap_keeps {s0 : State} {q : ReqId} {released : Bool} {s : State} (hk : Keeps s0 s) :
    Keeps s0 (silverMap q released s) := by
  unfold silverMap
  repeat' (first
    | with_reducible assumption
    | with_reducible apply foldl_keeps
    | with_reducible apply foldl_keeps_fst
    | with_reducible apply foldl_keeps_snd
    | with_reducible apply galleyUpd_keeps
    | with_reducible apply journal_keeps
    | with_reducible apply trayIssue_keeps
    | with_reducible refine keeps_ite ?_ ?_
    | with_reducible apply keepsParts_of
    | simp only [keeps_mk]
    | intro _
    | split
    | dsimp only [id])

theorem silverHold_keeps {s0 : State} {q : ReqId} {reads : ReadOutcome} {s : State} (hk : Keeps s0 s) :
    Keeps s0 (silverHold q reads s) := by
  unfold silverHold
  repeat' (first
    | with_reducible assumption
    | with_reducible apply foldl_keeps
    | with_reducible apply foldl_keeps_fst
    | with_reducible apply foldl_keeps_snd
    | with_reducible apply silverMap_keeps
    | with_reducible apply silverPage_keeps
    | with_reducible apply galleyUpd_keeps
    | with_reducible refine keeps_ite ?_ ?_
    | with_reducible apply keepsParts_of
    | simp only [keeps_mk]
    | intro _
    | split
    | dsimp only [id])

theorem ckptAsk_keeps {s0 : State} {final : Bool} {s : State}  (hk : Keeps s0 s) :
    Keeps s0 (ckptAsk final s) := by
  unfold ckptAsk
  repeat' (first
    | with_reducible assumption
    | with_reducible apply trayIssue_keeps
    | with_reducible refine keeps_ite ?_ ?_
    | with_reducible apply keepsParts_of
    | simp only [keeps_mk]
    | intro _
    | split
    | dsimp only [id])

theorem silverPump_keeps {s0 : State} {reads : ReadOutcome} {a1 : Nat} {a2 : State} (hk : Keeps s0 a2) :
    Keeps s0 (silverPump reads a1 a2) := by
  induction a1 generalizing a2 with
  | zero =>
    unfold silverPump
    repeat' (first
      | with_reducible assumption
      | with_reducible apply ckptAsk_keeps
      | with_reducible apply silverHold_keeps
      | with_reducible apply silverMap_keeps
      | with_reducible apply silverPage_keeps
      | with_reducible apply galleyUpd_keeps
      | with_reducible refine keeps_ite ?_ ?_
      | with_reducible apply keepsParts_of
      | simp only [keeps_mk]
      | intro _
      | split
      | dsimp only [id])
  | succ _ ih =>
    unfold silverPump
    repeat' (first
      | with_reducible assumption
      | with_reducible apply ckptAsk_keeps
      | with_reducible apply silverHold_keeps
      | with_reducible apply silverMap_keeps
      | with_reducible apply silverPage_keeps
      | with_reducible apply galleyUpd_keeps
      | with_reducible refine keeps_ite ?_ ?_
      | with_reducible apply keepsParts_of
      | simp only [keeps_mk]
      | with_reducible apply ih
      | intro _
      | split
      | dsimp only [id])

theorem silverRun_keeps {s0 : State} {reads : ReadOutcome} {s : State} (hk : Keeps s0 s) :
    Keeps s0 (silverRun reads s) := by
  unfold silverRun
  repeat' (first
    | with_reducible assumption
    | with_reducible apply silverPump_keeps
    | with_reducible apply readOutcome_keeps
    | (with_reducible apply readOutcome_keeps_of (by assumption))
    | with_reducible refine keeps_ite ?_ ?_
    | with_reducible apply keepsParts_of
    | simp only [keeps_mk]
    | intro _
    | split
    | dsimp only [id])

theorem silverClear_keeps {s0 : State} {s : State}  (hk : Keeps s0 s) :
    Keeps s0 (silverClear s) := by
  unfold silverClear
  repeat' (first
    | with_reducible assumption
    | with_reducible refine keeps_ite ?_ ?_
    | with_reducible apply keepsParts_of
    | simp only [keeps_mk]
    | intro _
    | split
    | dsimp only [id])

theorem pairState_keeps {s0 : State} {st : BitVec 4} {s : State} (hk : Keeps s0 s) :
    Keeps s0 (pairState st s) := by
  unfold pairState
  repeat' (first
    | with_reducible assumption
    | with_reducible refine keeps_ite ?_ ?_
    | with_reducible apply keepsParts_of
    | simp only [keeps_mk]
    | intro _
    | split
    | dsimp only [id])

theorem silverCode_keeps {s0 : State} {c : Status} {s : State}  (hk : Keeps s0 s) :
    Keeps s0 (silverCode c s) := by
  unfold silverCode
  repeat' (first
    | with_reducible assumption
    | with_reducible apply noteErr_keeps
    | with_reducible refine keeps_ite ?_ ?_
    | with_reducible apply keepsParts_of
    | simp only [keeps_mk]
    | intro _
    | split
    | dsimp only [id])

theorem freeAllGalleys_keeps {s0 : State} {s : State}  (hk : Keeps s0 s) :
    Keeps s0 (freeAllGalleys s) := by
  unfold freeAllGalleys
  repeat' (first
    | with_reducible assumption
    | with_reducible apply foldl_keeps
    | with_reducible apply foldl_keeps_fst
    | with_reducible apply foldl_keeps_snd
    | with_reducible apply freeGalley_keeps
    | with_reducible refine keeps_ite ?_ ?_
    | with_reducible apply keepsParts_of
    | simp only [keeps_mk]
    | intro _
    | split
    | dsimp only [id])

theorem freeMemberRecs_keeps {s0 : State} {s : State}  (hk : Keeps s0 s) :
    Keeps s0 (freeMemberRecs s) := by
  unfold freeMemberRecs
  repeat' (first
    | with_reducible assumption
    | with_reducible apply foldl_keeps
    | with_reducible apply foldl_keeps_fst
    | with_reducible apply foldl_keeps_snd
    | with_reducible apply recFree_keeps
    | with_reducible refine keeps_ite ?_ ?_
    | with_reducible apply keepsParts_of
    | simp only [keeps_mk]
    | intro _
    | split
    | dsimp only [id])

theorem silverEnd_keeps {s0 : State} {c : Status} {s : State}  (hk : Keeps s0 s) :
    Keeps s0 (silverEnd c s) := by
  unfold silverEnd
  repeat' (first
    | with_reducible assumption
    | with_reducible apply freeAllGalleys_keeps
    | with_reducible apply freeMemberRecs_keeps
    | with_reducible apply mirrorsAlone_keeps
    | with_reducible apply silverClear_keeps
    | with_reducible apply silverCode_keeps
    | with_reducible apply pairState_keeps
    | with_reducible refine keeps_ite ?_ ?_
    | with_reducible apply keepsParts_of
    | simp only [keeps_mk]
    | intro _
    | split
    | dsimp only [id])

theorem silverDone_keeps {s0 : State} {s : State}  (hk : Keeps s0 s) :
    Keeps s0 (silverDone s) := by
  unfold silverDone
  repeat' (first
    | with_reducible assumption
    | with_reducible apply silverClear_keeps
    | with_reducible apply silverCode_keeps
    | with_reducible apply pairState_keeps
    | with_reducible apply msix_keeps
    | with_reducible refine keeps_ite ?_ ?_
    | with_reducible apply keepsParts_of
    | simp only [keeps_mk]
    | intro _
    | split
    | dsimp only [id])

theorem ckptAcked_keeps {s0 : State} {n : Nat} {reads : ReadOutcome} {s : State} (hk : Keeps s0 s) :
    Keeps s0 (ckptAcked n reads s) := by
  unfold ckptAcked
  repeat' (first
    | with_reducible assumption
    | with_reducible apply silverDone_keeps
    | with_reducible apply silverRun_keeps
    | with_reducible refine keeps_ite ?_ ?_
    | with_reducible apply keepsParts_of
    | simp only [keeps_mk]
    | intro _
    | split
    | dsimp only [id])

theorem silverAnswer_keeps {s0 : State} {r : TrayReq} {c : Status} {reads : ReadOutcome} {s : State} (hk : Keeps s0 s) :
    Keeps s0 (silverAnswer r c reads s) := by
  unfold silverAnswer
  repeat' (first
    | with_reducible assumption
    | with_reducible apply silverEnd_keeps
    | with_reducible apply silverPage_keeps
    | with_reducible apply pageUpd_keeps
    | with_reducible refine keeps_ite ?_ ?_
    | with_reducible apply keepsParts_of
    | simp only [keeps_mk]
    | intro _
    | split
    | dsimp only [id])

theorem silverAgain_keeps {s0 : State} {reads : ReadOutcome} {j : JournalItem} {s : State} (hk : Keeps s0 s) :
    Keeps s0 (silverAgain reads j s) := by
  unfold silverAgain
  repeat' (first
    | with_reducible assumption
    | with_reducible apply silverMap_keeps
    | with_reducible apply silverPage_keeps
    | with_reducible apply trayIssue_keeps
    | with_reducible refine keeps_ite ?_ ?_
    | with_reducible apply keepsParts_of
    | simp only [keeps_mk]
    | intro _
    | split
    | dsimp only [id])

theorem silverResume_keeps {s0 : State} {reads : ReadOutcome} {s : State} (hk : Keeps s0 s) :
    Keeps s0 (silverResume reads s) := by
  unfold silverResume
  repeat' (first
    | with_reducible assumption
    | with_reducible apply foldl_keeps
    | with_reducible apply foldl_keeps_fst
    | with_reducible apply foldl_keeps_snd
    | with_reducible apply silverAgain_keeps
    | with_reducible apply silverRun_keeps
    | with_reducible refine keeps_ite ?_ ?_
    | with_reducible apply keepsParts_of
    | simp only [keeps_mk]
    | intro _
    | split
    | dsimp only [id])

theorem spareMap_keeps {s0 : State} {q : ReqId} {off : Nat} {bs : List Byte} {s : State} (hk : Keeps s0 s) :
    Keeps s0 (spareMap q off bs s) := by
  unfold spareMap
  repeat' (first
    | with_reducible assumption
    | with_reducible apply quotaUpd_keeps
    | with_reducible apply recCreate_keeps
    | with_reducible apply mapWriteBytes_keeps
    | with_reducible refine keeps_ite ?_ ?_
    | with_reducible apply keepsParts_of
    | simp only [keeps_mk]
    | intro _
    | split
    | dsimp only [id])

theorem verifyGalley_keeps {s0 : State} {q : ReqId} {s : State} (hk : Keeps s0 s) :
    Keeps s0 (verifyGalley q s) := by
  unfold verifyGalley
  repeat' (first
    | with_reducible assumption
    | with_reducible apply galleyUpd_keeps
    | with_reducible refine keeps_ite ?_ ?_
    | with_reducible apply keepsParts_of
    | simp only [keeps_mk]
    | intro _
    | split
    | dsimp only [id])

theorem memberRecord_keeps {s0 : State} {q : ReqId} {u : RecordUpdate} {s : State} (hk : Keeps s0 s) :
    Keeps s0 (memberRecord q u s) := by
  unfold memberRecord
  repeat' (first
    | with_reducible assumption
    | with_reducible apply verifyGalley_keeps
    | with_reducible apply galleyUpd_keeps
    | with_reducible apply recUpd_keeps
    | with_reducible refine keeps_ite ?_ ?_
    | with_reducible apply keepsParts_of
    | simp only [keeps_mk]
    | intro _
    | split
    | dsimp only [id])

theorem ckptStore_keeps {s0 : State} {h : TrayHdr} {n : Nat} {cur : Nat} {page : Nat} {s : State}  (hk : Keeps s0 s) :
    Keeps s0 (ckptStore h n cur page s) := by
  unfold ckptStore
  repeat' (first
    | with_reducible assumption
    | with_reducible apply homeFinish_keeps
    | with_reducible apply silverDone_keeps
    | with_reducible refine keeps_ite ?_ ?_
    | with_reducible apply keepsParts_of
    | simp only [keeps_mk]
    | intro _
    | split
    | dsimp only [id])

theorem ckptAt_keeps {s0 : State} {h : TrayHdr} {n : Nat} {cur : Nat} {page : Nat} {s : State}  (hk : Keeps s0 s) :
    Keeps s0 (ckptAt h n cur page s) := by
  unfold ckptAt
  repeat' (first
    | with_reducible assumption
    | with_reducible apply homeFinish_keeps
    | with_reducible apply ckptStore_keeps
    | with_reducible refine keeps_ite ?_ ?_
    | with_reducible apply keepsParts_of
    | simp only [keeps_mk]
    | intro _
    | split
    | dsimp only [id])

theorem pageMiss_keeps {s0 : State} {q : ReqId} {k : Nat} {l : Nat} {i : Nat} {misses : Nat} {s : State} (hk : Keeps s0 s) :
    Keeps s0 (pageMiss q k l i misses s) := by
  unfold pageMiss
  repeat' (first
    | with_reducible assumption
    | with_reducible apply verifyGalley_keeps
    | with_reducible apply silverEnd_keeps
    | with_reducible apply retireFrame_keeps
    | with_reducible apply emptyPage_keeps
    | with_reducible apply pageUpd_keeps
    | with_reducible refine keeps_ite ?_ ?_
    | with_reducible apply keepsParts_of
    | simp only [keeps_mk]
    | intro _
    | split
    | dsimp only [id])

theorem pageMatch_keeps {s0 : State} {q : ReqId} {k : Nat} {l : Nat} {i : Nat} {misses : Nat} {partner : Option Digest} {s : State} (hk : Keeps s0 s) :
    Keeps s0 (pageMatch q k l i misses partner s) := by
  unfold pageMatch
  repeat' (first
    | with_reducible assumption
    | with_reducible apply verifyGalley_keeps
    | with_reducible apply mirrorSend_keeps
    | with_reducible apply compareSeal_keeps
    | with_reducible apply pageUpd_keeps
    | with_reducible refine keeps_ite ?_ ?_
    | with_reducible apply keepsParts_of
    | simp only [keeps_mk]
    | intro _
    | split
    | dsimp only [id])

theorem pageEnd_keeps {s0 : State} {p : PagePart} {bytes : List Byte} {s : State} (hk : Keeps s0 s) :
    Keeps s0 (pageEnd p bytes s).2 := by
  unfold pageEnd
  repeat' (first
    | with_reducible assumption
    | with_reducible apply foldl_keeps
    | with_reducible apply foldl_keeps_fst
    | with_reducible apply foldl_keeps_snd
    | with_reducible apply pageMatch_keeps
    | with_reducible apply pageMiss_keeps
    | with_reducible apply emptyPage_keeps
    | (with_reducible apply restorePage_keeps_of (by assumption))
    | with_reducible refine keeps_ite ?_ ?_
    | with_reducible apply keepsParts_of
    | simp only [keeps_mk]
    | intro _
    | split
    | dsimp only [id])

theorem pageEnd_keeps_of {s0 : State} {p : PagePart} {bytes : List Byte} {s : State} {tt : State} {c0 : _} (eq_ : pageEnd p bytes s = (c0, tt)) (hk : Keeps s0 s) : Keeps s0 tt := by
  have := pageEnd_keeps (s0 := s0) (p := p) (bytes := bytes) (s := s) hk
  rw [eq_] at this; exact this

theorem copyCheck_keeps {s0 : State} {q : ReqId} {s : State} (hk : Keeps s0 s) :
    Keeps s0 (copyCheck q s) := by
  unfold copyCheck
  repeat' (first
    | with_reducible assumption
    | with_reducible apply galleyUpd_keeps
    | with_reducible apply sendFw_keeps
    | with_reducible refine keeps_ite ?_ ?_
    | with_reducible apply keepsParts_of
    | simp only [keeps_mk]
    | intro _
    | split
    | dsimp only [id])

theorem copyFailed_keeps {s0 : State} {q : ReqId} {c : Status} {s : State} (hk : Keeps s0 s) :
    Keeps s0 (copyFailed q c s) := by
  unfold copyFailed
  repeat' (first
    | with_reducible assumption
    | with_reducible apply recFree_keeps
    | with_reducible apply freeGalley_keeps
    | with_reducible apply sendFw_keeps
    | with_reducible refine keeps_ite ?_ ?_
    | with_reducible apply keepsParts_of
    | simp only [keeps_mk]
    | intro _
    | split
    | dsimp only [id])

theorem pageArrive_keeps {s0 : State} {p : PagePart} {s : State}  (hk : Keeps s0 s) :
    Keeps s0 (pageArrive p s).2 := by
  unfold pageArrive
  repeat' (first
    | with_reducible assumption
    | with_reducible apply getD_keeps
    | with_reducible apply pageUpd_keeps
    | with_reducible apply pageEnd_keeps
    | (with_reducible apply pageEnd_keeps_of (by assumption))
    | with_reducible refine keeps_ite ?_ ?_
    | with_reducible apply keepsParts_of
    | simp only [keeps_mk]
    | intro _
    | split
    | dsimp only [id])

theorem pageArrive_keeps_of {s0 : State} {p : PagePart} {s : State}  {tt : State} {c0 : _} (eq_ : pageArrive p s = (c0, tt)) (hk : Keeps s0 s) : Keeps s0 tt := by
  have := pageArrive_keeps (s0 := s0) (p := p) (s := s)  hk
  rw [eq_] at this; exact this

theorem historyPut_keeps {s0 : State} {p : PagePart} {s : State} (hk : Keeps s0 s) :
    Keeps s0 (historyPut p s).2 := by
  have h : ∀ (g : Galley) (t : State), (if (pageOf g 2 0 p.lpage.toNat).state = 0 then openPage p.req 2 0 p.lpage.toNat 1 s else some s)
      = some t → Keeps s0 t := by
    intro g t e
    split at e
    · exact openPage_keeps_of e hk
    · cases e; exact hk
  unfold historyPut
  repeat' (first
    | with_reducible exact h _ _ (by assumption)
    | with_reducible assumption
    | with_reducible apply meterT1_keeps
    | with_reducible apply t1Write_keeps
    | with_reducible apply readOutcome_keeps
    | (with_reducible apply readOutcome_keeps_of (by assumption))
    | (with_reducible apply openPage_keeps_of (by assumption))
    | with_reducible refine keeps_ite ?_ ?_
    | with_reducible apply keepsParts_of
    | simp only [keeps_mk]
    | intro _
    | split
    | dsimp only [id])

theorem historyPut_keeps_of {s0 : State} {p : PagePart} {s : State} {tt : State} {c0 : _} (eq_ : historyPut p s = (c0, tt)) (hk : Keeps s0 s) : Keeps s0 tt := by
  have := historyPut_keeps (s0 := s0) (p := p) (s := s) hk
  rw [eq_] at this; exact this

theorem pageAt_keeps {s0 : State} {h : TrayHdr} {p : PagePart} {s : State} (hk : Keeps s0 s) :
    Keeps s0 (pageAt h p s) := by
  unfold pageAt
  repeat' (first
    | with_reducible assumption
    | with_reducible apply historyPut_keeps
    | with_reducible apply pageArrive_keeps
    | with_reducible apply copyFailed_keeps
    | with_reducible apply copyCheck_keeps
    | with_reducible apply ckptStore_keeps
    | with_reducible apply homeFinish_keeps
    | (with_reducible apply historyPut_keeps_of (by assumption))
    | (with_reducible apply pageArrive_keeps_of (by assumption))
    | with_reducible refine keeps_ite ?_ ?_
    | with_reducible apply keepsParts_of
    | simp only [keeps_mk]
    | intro _
    | split
    | dsimp only [id])

theorem silverSetup_keeps {s0 : State} {qs : List QuotaCopy} {ls : List LatentSlotCopy} {s : State}  (hk : Keeps s0 s) :
    Keeps s0 (silverSetup qs ls s) := by
  unfold silverSetup
  repeat' (first
    | with_reducible assumption
    | with_reducible apply foldl_keeps
    | with_reducible apply foldl_keeps_fst
    | with_reducible apply foldl_keeps_snd
    | with_reducible apply getD_keeps
    | with_reducible apply silverDone_keeps
    | with_reducible refine keeps_ite ?_ ?_
    | with_reducible apply keepsParts_of
    | simp only [keeps_mk]
    | intro _
    | split
    | dsimp only [id])

theorem takePaused_keeps {s0 : State} {q : ReqId} {s : State} (hk : Keeps s0 s) :
    Keeps s0 (takePaused q s) := by
  unfold takePaused
  repeat' (first
    | with_reducible assumption
    | with_reducible apply pausedEnds_keeps
    | with_reducible apply galleyUpd_keeps
    | with_reducible apply pausedHere_keeps
    | with_reducible refine keeps_ite ?_ ?_
    | with_reducible apply keepsParts_of
    | simp only [keeps_mk]
    | intro _
    | split
    | dsimp only [id])

theorem serveAll_keeps {s0 : State} {s : State} (hk : Keeps s0 s) :
    Keeps s0 (serveAll s) := by
  unfold serveAll
  repeat' (first
    | with_reducible assumption
    | with_reducible apply foldl_keeps
    | with_reducible apply foldl_keeps_fst
    | with_reducible apply foldl_keeps_snd
    | with_reducible apply takePaused_keeps
    | with_reducible refine keeps_ite ?_ ?_
    | with_reducible apply keepsParts_of
    | simp only [keeps_mk]
    | intro _
    | split
    | dsimp only [id])

theorem galleyLost_keeps {s0 : State} {q : ReqId} {s : State}  (hk : Keeps s0 s) :
    Keeps s0 (galleyLost q s) := by
  unfold galleyLost
  repeat' (first
    | with_reducible assumption
    | with_reducible apply freeGalley_keeps
    | with_reducible apply reportEnd_keeps
    | with_reducible apply noteErr_keeps
    | with_reducible refine keeps_ite ?_ ?_
    | with_reducible apply keepsParts_of
    | simp only [keeps_mk]
    | intro _
    | split
    | dsimp only [id])

theorem unsentLost_keeps {s0 : State} {s : State} (hk : Keeps s0 s) :
    Keeps s0 (unsentLost s) := by
  unfold unsentLost
  repeat' (first
    | with_reducible assumption
    | with_reducible apply noteErr_keeps
    | with_reducible apply bumpFree_keeps
    | with_reducible refine keeps_ite ?_ ?_
    | with_reducible apply keepsParts_of
    | simp only [keeps_mk]
    | intro _
    | split
    | dsimp only [id])

theorem partnerExcluded_keeps {s0 : State} {s : State} (hk : Keeps s0 s) :
    Keeps s0 (partnerExcluded s) := by
  unfold partnerExcluded
  repeat' (first
    | with_reducible assumption
    | with_reducible apply foldl_keeps
    | with_reducible apply foldl_keeps_fst
    | with_reducible apply foldl_keeps_snd
    | with_reducible apply unsentLost_keeps
    | with_reducible apply galleyLost_keeps
    | with_reducible apply serveAll_keeps
    | with_reducible apply silverEnd_keeps
    | with_reducible apply pairState_keeps
    | with_reducible apply silverClear_keeps
    | with_reducible apply mirrorsAlone_keeps
    | with_reducible refine keeps_ite ?_ ?_
    | with_reducible apply keepsParts_of
    | simp only [keeps_mk]
    | intro _
    | split
    | dsimp only [id])

end Sys2Proof.Machine
end

