-- ==== Sys2Proof/Laws/KeepsTrayHome.lean ====
section
/-!
SUPPORT. What the operations of Sys2Proof/Machine/TrayHome.lean keep: the queue, the agreement of the TMR copies, and the canonical
form of the memories (Safety).
-/

namespace Sys2Proof.Machine

theorem homeLoad_keeps {s0 : State} {h : TrayHdr} {reads : ReadOutcome} {s : State} (hk : Keeps s0 s) :
    Keeps s0 (homeLoad h reads s).2.2 := by
  unfold homeLoad
  repeat' (first
    | with_reducible assumption
    | with_reducible apply countGranules_keeps
    | with_reducible apply bumpFree_keeps
    | with_reducible apply readOutcome_keeps
    | with_reducible apply partLoad_keeps
    | (with_reducible apply readOutcome_keeps_of (by assumption))
    | (with_reducible apply partLoad_keeps_of (by assumption))
    | with_reducible refine keeps_ite ?_ ?_
    | with_reducible apply keepsParts_of
    | simp only [keeps_mk]
    | intro _
    | split
    | dsimp only [id])

theorem homeLoad_keeps_of {s0 : State} {h : TrayHdr} {reads : ReadOutcome} {s : State} {tt : State} {c0 : _} {c1 : _} (eq_ : homeLoad h reads s = (c0, c1, tt)) (hk : Keeps s0 s) : Keeps s0 tt := by
  have := homeLoad_keeps (s0 := s0) (h := h) (reads := reads) (s := s) hk
  rw [eq_] at this; exact this

theorem homeStore_keeps {s0 : State} {h : TrayHdr} {d : List Byte} {s : State}  (hk : Keeps s0 s) :
    Keeps s0 (homeStore h d s) := by
  unfold homeStore
  repeat' (first
    | with_reducible assumption
    | with_reducible apply sliceStore_keeps
    | with_reducible apply partStore_keeps
    | with_reducible refine keeps_ite ?_ ?_
    | with_reducible apply keepsParts_of
    | simp only [keeps_mk]
    | intro _
    | split
    | dsimp only [id])

theorem storeRead_keeps {s0 : State} {h : TrayHdr} {d : List Byte} {reads : ReadOutcome} {s : State} (hk : Keeps s0 s) :
    Keeps s0 (storeRead h d reads s).2 := by
  unfold storeRead
  repeat' (first
    | with_reducible assumption
    | with_reducible apply homeStore_keeps
    | with_reducible apply readOutcome_keeps
    | (with_reducible apply readOutcome_keeps_of (by assumption))
    | with_reducible refine keeps_ite ?_ ?_
    | with_reducible apply keepsParts_of
    | simp only [keeps_mk]
    | intro _
    | split
    | dsimp only [id])

theorem storeRead_keeps_of {s0 : State} {h : TrayHdr} {d : List Byte} {reads : ReadOutcome} {s : State} {tt : State} {c0 : _} (eq_ : storeRead h d reads s = (c0, tt)) (hk : Keeps s0 s) : Keeps s0 tt := by
  have := storeRead_keeps (s0 := s0) (h := h) (d := d) (reads := reads) (s := s) hk
  rw [eq_] at this; exact this

theorem atomicApply_keeps {s0 : State} {op : Byte} {v : Nat} {new : Nat} {old : List Byte} {wr : List Byte → State → State} {s : State} (h_wr : ∀ (y0 : List Byte) (u : State), Keeps s0 u → Keeps s0 (wr y0 u)) (hk : Keeps s0 s) :
    Keeps s0 (atomicApply op v new old wr s) := by
  unfold atomicApply
  repeat' (first
    | with_reducible assumption
    | with_reducible apply h_wr
    | with_reducible refine keeps_ite ?_ ?_
    | with_reducible apply keepsParts_of
    | simp only [keeps_mk]
    | intro _
    | split
    | dsimp only [id])

theorem homeAtomic_keeps {s0 : State} {h : TrayHdr} {v : Nat} {new : Nat} {reads : ReadOutcome} {s : State} (hk : Keeps s0 s) :
    Keeps s0 (homeAtomic h v new reads s).2.2 := by
  unfold homeAtomic
  repeat' (first
    | with_reducible assumption
    | with_reducible apply atomicApply_keeps
    | with_reducible apply homeStore_keeps
    | with_reducible apply homeLoad_keeps
    | (with_reducible apply homeLoad_keeps_of (by assumption))
    | with_reducible refine keeps_ite ?_ ?_
    | with_reducible apply keepsParts_of
    | simp only [keeps_mk]
    | intro _
    | split
    | dsimp only [id])

theorem homeAtomic_keeps_of {s0 : State} {h : TrayHdr} {v : Nat} {new : Nat} {reads : ReadOutcome} {s : State} {tt : State} {c0 : _} {c1 : _} (eq_ : homeAtomic h v new reads s = (c0, c1, tt)) (hk : Keeps s0 s) : Keeps s0 tt := by
  have := homeAtomic_keeps (s0 := s0) (h := h) (v := v) (new := new) (reads := reads) (s := s) hk
  rw [eq_] at this; exact this

theorem turnTaken_keeps {s0 : State} {h : TrayHdr} {s : State} (hk : Keeps s0 s) :
    Keeps s0 (turnTaken h s) := by
  unfold turnTaken
  repeat' (first
    | with_reducible assumption
    | with_reducible refine keeps_ite ?_ ?_
    | with_reducible apply keepsParts_of
    | simp only [keeps_mk]
    | intro _
    | split
    | dsimp only [id])

theorem ownerJournal_keeps {s0 : State} {q : ReqId} {r : TrayReq} {s : State} (hk : Keeps s0 s) :
    Keeps s0 (ownerJournal q r s) := by
  unfold ownerJournal
  repeat' (first
    | with_reducible assumption
    | with_reducible apply journal_keeps
    | with_reducible refine keeps_ite ?_ ?_
    | with_reducible apply keepsParts_of
    | simp only [keeps_mk]
    | intro _
    | split
    | dsimp only [id])

theorem mapWriteAt_keeps {s0 : State} {h : TrayHdr} {q : ReqId} {off : Nat} {bs : List Byte} {s : State} (hk : Keeps s0 s) :
    Keeps s0 (mapWriteAt h q off bs s) := by
  unfold mapWriteAt
  repeat' (first
    | with_reducible assumption
    | with_reducible apply reserveAsk_keeps
    | with_reducible apply spareMap_keeps
    | with_reducible apply homeFinish_keeps
    | (with_reducible apply reserveAsk_keeps_of (by assumption))
    | with_reducible refine keeps_ite ?_ ?_
    | with_reducible apply keepsParts_of
    | simp only [keeps_mk]
    | intro _
    | split
    | dsimp only [id])

theorem dropCopy_keeps {s0 : State} {g : Galley} {h : TrayHdr} {s : State} (hk : Keeps s0 s) :
    Keeps s0 (dropCopy g h s) := by
  unfold dropCopy
  repeat' (first
    | with_reducible assumption
    | with_reducible apply journal_keeps
    | with_reducible apply trayIssue_keeps
    | with_reducible refine keeps_ite ?_ ?_
    | with_reducible apply keepsParts_of
    | simp only [keeps_mk]
    | intro _
    | split
    | dsimp only [id])

theorem dropAt_keeps {s0 : State} {h : TrayHdr} {q : ReqId} {s : State} (hk : Keeps s0 s) :
    Keeps s0 (dropAt h q s) := by
  unfold dropAt
  repeat' (first
    | with_reducible assumption
    | with_reducible apply getD_keeps
    | with_reducible apply dropCopy_keeps
    | with_reducible apply recRetire_keeps
    | with_reducible apply homeFinish_keeps
    | with_reducible apply freeGalley_keeps
    | with_reducible refine keeps_ite ?_ ?_
    | with_reducible apply keepsParts_of
    | simp only [keeps_mk]
    | intro _
    | split
    | dsimp only [id])

theorem sealDigestAt_keeps {s0 : State} {h : TrayHdr} {q : ReqId} {l : Nat} {p : Nat} {d : Digest} {s : State} (hk : Keeps s0 s) :
    Keeps s0 (sealDigestAt h q l p d s) := by
  unfold sealDigestAt
  repeat' (first
    | with_reducible assumption
    | with_reducible apply copyCheck_keeps
    | with_reducible apply homeFinish_keeps
    | with_reducible apply compareSeal_keeps
    | with_reducible apply pageUpd_keeps
    | with_reducible refine keeps_ite ?_ ?_
    | with_reducible apply keepsParts_of
    | simp only [keeps_mk]
    | intro _
    | split
    | dsimp only [id])

theorem recordAt_keeps {s0 : State} {h : TrayHdr} {q : ReqId} {u : RecordUpdate} {s : State} (hk : Keeps s0 s) :
    Keeps s0 (recordAt h q u s) := by
  unfold recordAt
  repeat' (first
    | with_reducible assumption
    | with_reducible apply ownerRecord_keeps
    | with_reducible apply memberRecord_keeps
    | with_reducible apply homeFinish_keeps
    | with_reducible refine keeps_ite ?_ ?_
    | with_reducible apply keepsParts_of
    | simp only [keeps_mk]
    | intro _
    | split
    | dsimp only [id])

theorem homeRun_keeps {s0 : State} {r : TrayReq} {s : State} (hk : Keeps s0 s) :
    Keeps s0 (homeRun r s) := by
  unfold homeRun
  repeat' (first
    | with_reducible assumption
    | with_reducible apply recordAt_keeps
    | with_reducible apply sealDigestAt_keeps
    | with_reducible apply dropAt_keeps
    | with_reducible apply mapWriteAt_keeps
    | with_reducible apply ownerJournal_keeps
    | with_reducible apply turnTaken_keeps
    | with_reducible apply homeAtomic_keeps
    | with_reducible apply storeRead_keeps
    | with_reducible apply homeLoad_keeps
    | with_reducible apply pausedEnds_keeps
    | with_reducible apply silverSetup_keeps
    | with_reducible apply pageAt_keeps
    | with_reducible apply ckptAt_keeps
    | with_reducible apply ownerCasAt_keeps
    | with_reducible apply wordFollows_keeps
    | with_reducible apply appendAt_keeps
    | with_reducible apply commitAt_keeps
    | with_reducible apply homeFinish_keeps
    | with_reducible apply chanDeliver_keeps
    | (with_reducible apply homeAtomic_keeps_of (by assumption))
    | (with_reducible apply storeRead_keeps_of (by assumption))
    | (with_reducible apply homeLoad_keeps_of (by assumption))
    | (with_reducible apply appendAt_keeps_of (by assumption))
    | with_reducible refine keeps_ite ?_ ?_
    | with_reducible apply keepsParts_of
    | simp only [keeps_mk]
    | intro _
    | split
    | dsimp only [id])

theorem homeExecute_keeps {s0 : State} {r : TrayReq} {s : State}  (hk : Keeps s0 s) :
    Keeps s0 (homeExecute r s) := by
  unfold homeExecute
  repeat' (first
    | with_reducible assumption
    | with_reducible apply homeFinish_keeps
    | with_reducible apply homeRun_keeps
    | with_reducible refine keeps_ite ?_ ?_
    | with_reducible apply keepsParts_of
    | simp only [keeps_mk]
    | intro _
    | split
    | dsimp only [id])

theorem atomicWaits_keeps {s0 : State} {s : State} (hk : Keeps s0 s) :
    Keeps s0 (atomicWaits s) := by
  unfold atomicWaits
  repeat' (first
    | with_reducible assumption
    | with_reducible refine keeps_ite ?_ ?_
    | with_reducible apply keepsParts_of
    | simp only [keeps_mk]
    | intro _
    | split
    | dsimp only [id])

theorem homeDrain_keeps {s0 : State} {d : Nat} {a1 : Nat} {a2 : State} (hk : Keeps s0 a2) :
    Keeps s0 (homeDrain d a1 a2) := by
  induction a1 generalizing a2 with
  | zero =>
    unfold homeDrain
    repeat' (first
      | with_reducible assumption
      | with_reducible apply homeExecute_keeps
      | with_reducible apply traySrcUpd_keeps
      | with_reducible refine keeps_ite ?_ ?_
      | with_reducible apply keepsParts_of
      | simp only [keeps_mk]
      | intro _
      | split
      | dsimp only [id])
  | succ _ ih =>
    unfold homeDrain
    repeat' (first
      | with_reducible assumption
      | with_reducible apply homeExecute_keeps
      | with_reducible apply traySrcUpd_keeps
      | with_reducible refine keeps_ite ?_ ?_
      | with_reducible apply keepsParts_of
      | simp only [keeps_mk]
      | with_reducible apply ih
      | intro _
      | split
      | dsimp only [id])

theorem homeTurns_keeps {s0 : State} {s : State} (hk : Keeps s0 s) :
    Keeps s0 (homeTurns s) := by
  unfold homeTurns
  repeat' (first
    | with_reducible assumption
    | with_reducible apply foldl_keeps
    | with_reducible apply foldl_keeps_fst
    | with_reducible apply foldl_keeps_snd
    | with_reducible apply homeDrain_keeps
    | with_reducible refine keeps_ite ?_ ?_
    | with_reducible apply keepsParts_of
    | simp only [keeps_mk]
    | intro _
    | split
    | dsimp only [id])

theorem homeDuplicate_keeps {s0 : State} {r : TrayReq} {c : Status} {b : List Byte} {s : State} (hk : Keeps s0 s) :
    Keeps s0 (homeDuplicate r c b s) := by
  unfold homeDuplicate
  repeat' (first
    | with_reducible assumption
    | with_reducible apply homeLoad_keeps
    | with_reducible apply trayAnswer_keeps
    | (with_reducible apply homeLoad_keeps_of (by assumption))
    | with_reducible refine keeps_ite ?_ ?_
    | with_reducible apply keepsParts_of
    | simp only [keeps_mk]
    | intro _
    | split
    | dsimp only [id])

theorem homeArrive_keeps {s0 : State} {r : TrayReq} {s : State}  (hk : Keeps s0 s) :
    Keeps s0 (homeArrive r s) := by
  unfold homeArrive
  repeat' (first
    | with_reducible assumption
    | with_reducible apply homeDuplicate_keeps
    | with_reducible apply trayAnswer_keeps
    | with_reducible apply traySrcUpd_keeps
    | with_reducible apply homeDrain_keeps
    | with_reducible refine keeps_ite ?_ ?_
    | with_reducible apply keepsParts_of
    | simp only [keeps_mk]
    | intro _
    | split
    | dsimp only [id])

end Sys2Proof.Machine
end

