-- ==== Sys2Proof/Laws/KeepsLines.lean ====
section
/-!
SUPPORT. What the operations of Sys2Proof/Machine/Lines.lean keep: the queue, the agreement of the TMR copies, and the canonical
form of the memories (Safety).
-/

namespace Sys2Proof.Machine

theorem caseStore_keeps {off : Nat} {bs : List Byte} {x : Cluster} (hc : x.memOk = true) : (caseStore off bs x).memOk = true := by
  unfold caseStore
  repeat' (first
    | with_reducible assumption
    | with_reducible refine keeps_ite ?_ ?_
    | with_reducible apply keepsParts_of
    | simp only [keeps_mk]
    | with_reducible apply memOk_ite
    | with_reducible apply memParts_of
    | simp only [memOk_mk]
    | with_reducible refine memParts_mk ?_ ?_ ?_
    | with_reducible apply memCase
    | with_reducible apply memAcc
    | with_reducible apply memMail
    | with_reducible apply Mem.store_wf
    | with_reducible apply Mem.clear_wf
    | with_reducible apply Mem.filter_wf
    | with_reducible apply Mem.over_wf
    | exact Mem.nil_wf
    | (with_reducible refine keepsParts_mem ?_ ?_ ?_ ?_ ?_)
    | with_reducible exact id
    | with_reducible exact Mem.store_wf _ _ _
    | with_reducible exact Mem.clear_wf _ _ _
    | with_reducible exact foldl_clear_wf
    | with_reducible exact (fun _ => Mem.nil_wf)
    | with_reducible exact (all_nil_keeps (p := Saved.memOk))
    | with_reducible exact (all_filter_keeps (p := Saved.memOk))
    | with_reducible exact (all_nil_keeps (p := Cluster.memOk))
    | with_reducible apply all_map_keeps
    | intro _
    | split
    | dsimp only [id])

theorem applyMem_keeps {s0 : State} {n : Nat} {s : State} {e : Eff} (hk : Keeps s0 s) :
    Keeps s0 (applyMem n s e) := by
  unfold applyMem
  repeat' (first
    | with_reducible assumption
    | with_reducible apply getD_keeps
    | with_reducible apply clusterUpd_keeps
    | with_reducible apply homeStore_keeps
    | with_reducible apply partStore_keeps
    | with_reducible apply sliceStore_keeps
    | with_reducible apply caseStore_keeps
    | with_reducible apply grantLines_keeps
    | with_reducible refine keeps_ite ?_ ?_
    | with_reducible apply keepsParts_of
    | simp only [keeps_mk]
    | with_reducible apply memOk_ite
    | with_reducible apply memParts_of
    | simp only [memOk_mk]
    | with_reducible refine memParts_mk ?_ ?_ ?_
    | with_reducible apply memCase
    | with_reducible apply memAcc
    | with_reducible apply memMail
    | with_reducible apply Mem.store_wf
    | with_reducible apply Mem.clear_wf
    | with_reducible apply Mem.filter_wf
    | with_reducible apply Mem.over_wf
    | exact Mem.nil_wf
    | (with_reducible refine keepsParts_mem ?_ ?_ ?_ ?_ ?_)
    | with_reducible exact id
    | with_reducible exact Mem.store_wf _ _ _
    | with_reducible exact Mem.clear_wf _ _ _
    | with_reducible exact foldl_clear_wf
    | with_reducible exact (fun _ => Mem.nil_wf)
    | with_reducible exact (all_nil_keeps (p := Saved.memOk))
    | with_reducible exact (all_filter_keeps (p := Saved.memOk))
    | with_reducible exact (all_nil_keeps (p := Cluster.memOk))
    | with_reducible apply all_map_keeps
    | intro _
    | split
    | dsimp only [id])

theorem seen_keeps {s0 : State} {n : Nat} {s : State} (hk : Keeps s0 s) :
    Keeps s0 (seen n s) := by
  unfold seen
  repeat' (first
    | with_reducible assumption
    | with_reducible apply foldl_keeps
    | with_reducible apply foldl_keeps_fst
    | with_reducible apply foldl_keeps_snd
    | with_reducible apply applyMem_keeps
    | with_reducible refine keeps_ite ?_ ?_
    | with_reducible apply keepsParts_of
    | simp only [keeps_mk]
    | intro _
    | split
    | dsimp only [id])

theorem countRead_keeps {s0 : State} {n : Nat} {p : Nat} {space : Nat} {s : State} {r : Nat × Nat} (hk : Keeps s0 s) :
    Keeps s0 (countRead n p space s r) := by
  unfold countRead
  repeat' (first
    | with_reducible assumption
    | with_reducible apply foldl_keeps
    | with_reducible apply foldl_keeps_fst
    | with_reducible apply foldl_keeps_snd
    | with_reducible apply homeLoad_keeps
    | with_reducible apply countGranules_keeps
    | with_reducible apply xbarToSlice_keeps
    | with_reducible apply xbarPass_keeps
    | with_reducible apply bumpFree_keeps
    | with_reducible apply partLoad_keeps
    | with_reducible apply trayIssue_keeps
    | (with_reducible apply homeLoad_keeps_of (by assumption))
    | (with_reducible apply partLoad_keeps_of (by assumption))
    | with_reducible refine keeps_ite ?_ ?_
    | with_reducible apply keepsParts_of
    | simp only [keeps_mk]
    | intro _
    | split
    | dsimp only [id])

end Sys2Proof.Machine
end

