-- ==== Sys2Proof/Laws/KeepsPress.lean ====
section
/-!
SUPPORT. What the operations of Sys2Proof/Machine/Press.lean keep: the queue, the agreement of the TMR copies, and the canonical
form of the memories (Safety).
-/

namespace Sys2Proof.Machine

theorem clusterFault_keeps {s0 : State} {n : Nat} {cause : Nat} {s : State}  (hk : Keeps s0 s) :
    Keeps s0 (clusterFault n cause s) := by
  unfold clusterFault
  repeat' (first
    | with_reducible assumption
    | with_reducible apply foldl_keeps
    | with_reducible apply foldl_keeps_fst
    | with_reducible apply foldl_keeps_snd
    | with_reducible apply clusterCause_keeps
    | with_reducible apply clusterUpd_keeps
    | with_reducible apply reportEnd_keeps
    | with_reducible apply endSpans_keeps
    | with_reducible apply itemGone_keeps
    | with_reducible apply cluster_keeps
    | with_reducible refine keeps_ite ?_ ?_
    | with_reducible apply keepsParts_of
    | simp only [keeps_mk]
    | with_reducible apply memOk_ite
    | with_reducible apply memParts_of
    | simp only [memOk_mk]
    | with_reducible refine memParts_mk ?_ ?_ ?_
    | exact Mem.nil_wf
    | intro _
    | split
    | dsimp only [id])

theorem enter_keeps {s0 : State} {n : Nat} {op : POp} {flags : BitVec 8} {d : Desc} {r : Option Run} {reads : List (Nat × Nat × Nat)} {taken : List Eff} {slots : List Nat} {s : State} (hk : Keeps s0 s) :
    Keeps s0 (enter n op flags d r reads taken slots s) := by
  unfold enter
  repeat' (first
    | with_reducible assumption
    | with_reducible apply foldl_keeps
    | with_reducible apply foldl_keeps_fst
    | with_reducible apply foldl_keeps_snd
    | with_reducible apply getD_keeps
    | with_reducible apply clusterUpd_keeps
    | with_reducible apply bumpFree_keeps
    | with_reducible apply countRead_keeps
    | with_reducible apply channelUpd_keeps
    | with_reducible apply issued_keeps
    | with_reducible refine keeps_ite ?_ ?_
    | with_reducible apply keepsParts_of
    | simp only [keeps_mk]
    | with_reducible apply memOk_ite
    | with_reducible apply memParts_of
    | simp only [memOk_mk]
    | with_reducible refine memParts_mk ?_ ?_ ?_
    | exact Mem.nil_wf
    | intro _
    | split
    | dsimp only [id])

theorem viewOf_keeps {s0 : State} {n : Nat} {s : State}  (hk : Keeps s0 s) :
    Keeps s0 (viewOf n s) := by
  unfold viewOf
  repeat' (first
    | with_reducible assumption
    | with_reducible apply clusterUpd_keeps
    | with_reducible apply seen_keeps
    | with_reducible refine keeps_ite ?_ ?_
    | with_reducible apply keepsParts_of
    | simp only [keeps_mk]
    | with_reducible apply memOk_ite
    | with_reducible apply memParts_of
    | simp only [memOk_mk]
    | with_reducible refine memParts_mk ?_ ?_ ?_
    | with_reducible apply memCase
    | with_reducible apply memAcc
    | with_reducible apply memMail
    | with_reducible apply Mem.store_wf
    | with_reducible apply Mem.clear_wf
    | with_reducible apply Mem.filter_wf
    | with_reducible apply Mem.over_wf
    | exact Mem.nil_wf
    | intro _
    | split
    | dsimp only [id])

theorem itemLost_keeps {s0 : State} {n : Nat} {s : State} (hk : Keeps s0 s) :
    Keeps s0 (itemLost n s) := by
  unfold itemLost
  repeat' (first
    | with_reducible assumption
    | with_reducible apply foldl_keeps
    | with_reducible apply foldl_keeps_fst
    | with_reducible apply foldl_keeps_snd
    | with_reducible apply reportEnd_keeps
    | with_reducible refine keeps_ite ?_ ?_
    | with_reducible apply keepsParts_of
    | simp only [keeps_mk]
    | intro _
    | split
    | dsimp only [id])

theorem fetchFailed_keeps {s0 : State} {op : POp} {c : PressCmd} {d : Desc} {f : Fetch} {s : State} (hk : Keeps s0 s) :
    Keeps s0 (fetchFailed op c d f s) := by
  unfold fetchFailed
  repeat' (first
    | with_reducible assumption
    | with_reducible apply getD_keeps
    | with_reducible apply clusterUpd_keeps
    | with_reducible apply itemLost_keeps
    | with_reducible apply enter_keeps
    | with_reducible apply slugLost_keeps
    | with_reducible apply endItem_keeps
    | with_reducible refine keeps_ite ?_ ?_
    | with_reducible apply keepsParts_of
    | simp only [keeps_mk]
    | with_reducible apply memOk_ite
    | with_reducible apply memParts_of
    | simp only [memOk_mk]
    | with_reducible refine memParts_mk ?_ ?_ ?_
    | exact Mem.nil_wf
    | intro _
    | split
    | dsimp only [id])

theorem countEcc_keeps {s0 : State} {n : Nat} {o : ReadOutcome} {s : State} (hk : Keeps s0 s) :
    Keeps s0 (countEcc n o s) := by
  unfold countEcc
  repeat' (first
    | with_reducible assumption
    | with_reducible apply clusterUpd_keeps
    | with_reducible refine keeps_ite ?_ ?_
    | with_reducible apply keepsParts_of
    | simp only [keeps_mk]
    | with_reducible apply memOk_ite
    | with_reducible apply memParts_of
    | simp only [memOk_mk]
    | with_reducible refine memParts_mk ?_ ?_ ?_
    | exact Mem.nil_wf
    | intro _
    | split
    | dsimp only [id])

theorem pressEnter_keeps {s0 : State} {op : POp} {c : PressCmd} {d : Desc} {v : Verdict} {reads : List (Nat × Nat × Nat)} {taken : List Eff} {slots : List Nat} {s : State} (hk : Keeps s0 s) :
    Keeps s0 (pressEnter op c d v reads taken slots s) := by
  unfold pressEnter
  repeat' (first
    | with_reducible assumption
    | with_reducible apply getD_keeps
    | with_reducible apply clusterUpd_keeps
    | with_reducible apply itemLost_keeps
    | with_reducible apply enter_keeps
    | with_reducible apply clusterFault_keeps
    | with_reducible apply readOutcome_keeps
    | with_reducible apply endItem_keeps
    | with_reducible apply rebind_keeps
    | with_reducible apply vtRefresh_keeps
    | (with_reducible apply readOutcome_keeps_of (by assumption))
    | with_reducible refine keeps_ite ?_ ?_
    | with_reducible apply keepsParts_of
    | simp only [keeps_mk]
    | with_reducible apply memOk_ite
    | with_reducible apply memParts_of
    | simp only [memOk_mk]
    | with_reducible refine memParts_mk ?_ ?_ ?_
    | exact Mem.nil_wf
    | intro _
    | split
    | dsimp only [id])

theorem pressIssue_keeps {s0 : State} {op : POp} {c : PressCmd} {s : State} (hk : Keeps s0 s) :
    Keeps s0 (pressIssue op c s) := by
  unfold pressIssue
  repeat' (first
    | with_reducible assumption
    | with_reducible apply getD_keeps
    | with_reducible apply pressEnter_keeps
    | with_reducible apply countEcc_keeps
    | with_reducible apply fetchFailed_keeps
    | with_reducible apply viewOf_keeps
    | with_reducible apply endItem_keeps
    | with_reducible refine keeps_ite ?_ ?_
    | with_reducible apply keepsParts_of
    | simp only [keeps_mk]
    | intro _
    | split
    | dsimp only [id])

theorem sendRows_keeps {s0 : State} {n : Nat} {layer : Nat} {rows : List GalleyRow} {s : State} (hk : Keeps s0 s) :
    Keeps s0 (sendRows n layer rows s) := by
  unfold sendRows
  repeat' (first
    | with_reducible assumption
    | with_reducible apply foldl_keeps
    | with_reducible apply foldl_keeps_fst
    | with_reducible apply foldl_keeps_snd
    | with_reducible apply meterAdd_keeps
    | with_reducible apply trayIssue_keeps
    | with_reducible refine keeps_ite ?_ ?_
    | with_reducible apply keepsParts_of
    | simp only [keeps_mk]
    | intro _
    | split
    | dsimp only [id])

theorem traceRow_keeps {s0 : State} {n : Nat} {index : Nat} {row : Nat} {h : BitVec 128} {s : State}  (hk : Keeps s0 s) :
    Keeps s0 (traceRow n index row h s) := by
  unfold traceRow
  repeat' (first
    | with_reducible assumption
    | with_reducible apply cluster_keeps
    | with_reducible apply emit_keeps
    | with_reducible refine keeps_ite ?_ ?_
    | with_reducible apply keepsParts_of
    | simp only [keeps_mk]
    | with_reducible apply memOk_ite
    | with_reducible apply memParts_of
    | simp only [memOk_mk]
    | with_reducible refine memParts_mk ?_ ?_ ?_
    | exact Mem.nil_wf
    | intro _
    | split
    | dsimp only [id])

theorem chargeItem_keeps {s0 : State} {n : Nat} {beats : Nat} {t0 : Nat} {t1 : Nat} {t2 : Nat} {s : State}  (hk : Keeps s0 s) :
    Keeps s0 (chargeItem n beats t0 t1 t2 s) := by
  unfold chargeItem
  repeat' (first
    | with_reducible assumption
    | with_reducible apply foldl_keeps
    | with_reducible apply foldl_keeps_fst
    | with_reducible apply foldl_keeps_snd
    | with_reducible apply meterAdd_keeps
    | with_reducible apply cluster_keeps
    | with_reducible refine keeps_ite ?_ ?_
    | with_reducible apply keepsParts_of
    | simp only [keeps_mk]
    | with_reducible apply memOk_ite
    | with_reducible apply memParts_of
    | simp only [memOk_mk]
    | with_reducible refine memParts_mk ?_ ?_ ?_
    | exact Mem.nil_wf
    | (with_reducible refine keepsParts_mem ?_ ?_ ?_ ?_ ?_)
    | with_reducible exact id
    | with_reducible exact Mem.store_wf _ _ _
    | with_reducible exact Mem.clear_wf _ _ _
    | with_reducible exact foldl_clear_wf
    | with_reducible exact (fun _ => Mem.nil_wf)
    | with_reducible exact (all_nil_keeps (p := Saved.memOk))
    | with_reducible exact (all_filter_keeps (p := Saved.memOk))
    | with_reducible exact (all_nil_keeps (p := Cluster.memOk))
    | with_reducible apply all_map_keeps
    | intro _
    | split
    | dsimp only [id])

theorem applyEff_keeps {s0 : State} {n : Nat} {i : InFlight} {s : State} {e : Eff} (hk : Keeps s0 s) :
    Keeps s0 (applyEff n i s e) := by
  unfold applyEff
  repeat' (first
    | with_reducible assumption
    | with_reducible apply foldl_keeps
    | with_reducible apply foldl_keeps_fst
    | with_reducible apply foldl_keeps_snd
    | with_reducible apply clusterUpd_keeps
    | with_reducible apply slugFailure_keeps
    | with_reducible apply chargeItem_keeps
    | with_reducible apply traceRow_keeps
    | with_reducible apply sendRows_keeps
    | with_reducible apply xbarToSlice_keeps
    | with_reducible apply xbarPass_keeps
    | with_reducible apply applyMem_keeps
    | with_reducible apply retireFrame_keeps
    | with_reducible apply trayIssue_keeps
    | with_reducible apply sendMessage_keeps
    | with_reducible apply dropHead_keeps
    | with_reducible apply breakChannels_keeps
    | with_reducible refine keeps_ite ?_ ?_
    | with_reducible apply keepsParts_of
    | simp only [keeps_mk]
    | with_reducible apply memOk_ite
    | with_reducible apply memParts_of
    | simp only [memOk_mk]
    | with_reducible refine memParts_mk ?_ ?_ ?_
    | exact Mem.nil_wf
    | intro _
    | split
    | dsimp only [id])

theorem commandComplete_keeps {s0 : State} {n : Nat} {beats : Nat} {s : State} (hk : Keeps s0 s) :
    Keeps s0 (commandComplete n beats s) := by
  unfold commandComplete
  repeat' (first
    | with_reducible assumption
    | with_reducible apply foldl_keeps
    | with_reducible apply foldl_keeps_fst
    | with_reducible apply foldl_keeps_snd
    | with_reducible apply clusterUpd_keeps
    | with_reducible apply applyEff_keeps
    | with_reducible apply chargeItem_keeps
    | with_reducible apply noteErr_keeps
    | with_reducible apply rebind_keeps
    | with_reducible apply chargeVt_keeps
    | with_reducible apply vtRefresh_keeps
    | with_reducible refine keeps_ite ?_ ?_
    | with_reducible apply keepsParts_of
    | simp only [keeps_mk]
    | with_reducible apply memOk_ite
    | with_reducible apply memParts_of
    | simp only [memOk_mk]
    | with_reducible refine memParts_mk ?_ ?_ ?_
    | exact Mem.nil_wf
    | intro _
    | split
    | dsimp only [id])

theorem execCommandComplete_keeps {s0 : State} {cl : ClusterId} {beats : Nat} {s : State}  {tt : State} (hk : Keeps s0 s) (eq_ : execCommandComplete cl beats s = .next tt) : Keeps s0 tt := by
  unfold execCommandComplete at eq_
  repeat' (first | split at eq_ | dsimp only at eq_)
  all_goals (first | (injection eq_ with eq_; subst eq_) | (cases eq_))
  repeat' (first
    | with_reducible assumption
    | with_reducible apply commandComplete_keeps
    | with_reducible refine keeps_ite ?_ ?_
    | with_reducible apply keepsParts_of
    | simp only [keeps_mk]
    | intro _
    | split
    | dsimp only [id])

theorem execClusterFault_keeps {s0 : State} {cl : ClusterId} {ecc : Bool} {s : State}  {tt : State} (hk : Keeps s0 s) (eq_ : execClusterFault cl ecc s = .next tt) : Keeps s0 tt := by
  unfold execClusterFault at eq_
  repeat' (first | split at eq_ | dsimp only at eq_)
  all_goals (first | (injection eq_ with eq_; subst eq_) | (cases eq_))
  repeat' (first
    | with_reducible assumption
    | with_reducible apply clusterFault_keeps
    | with_reducible apply cluster_keeps
    | with_reducible refine keeps_ite ?_ ?_
    | with_reducible apply keepsParts_of
    | simp only [keeps_mk]
    | with_reducible apply memOk_ite
    | with_reducible apply memParts_of
    | simp only [memOk_mk]
    | with_reducible refine memParts_mk ?_ ?_ ?_
    | exact Mem.nil_wf
    | intro _
    | split
    | dsimp only [id])

theorem chunkArrives_keeps {s0 : State} {n : Nat} {id : Nat} {data : List Byte} {reads : ReadOutcome} {s : State} (hk : Keeps s0 s) :
    Keeps s0 (chunkArrives n id data reads s) := by
  unfold chunkArrives
  repeat' (first
    | with_reducible assumption
    | with_reducible apply foldl_keeps
    | with_reducible apply foldl_keeps_fst
    | with_reducible apply foldl_keeps_snd
    | with_reducible apply getD_keeps
    | with_reducible apply clusterUpd_keeps
    | with_reducible apply chargeItem_keeps
    | with_reducible apply countEcc_keeps
    | with_reducible apply readOutcome_keeps
    | with_reducible apply countRead_keeps
    | with_reducible apply endItem_keeps
    | with_reducible apply caseStore_keeps
    | with_reducible apply grantLines_keeps
    | (with_reducible apply readOutcome_keeps_of (by assumption))
    | with_reducible refine keeps_ite ?_ ?_
    | with_reducible apply keepsParts_of
    | simp only [keeps_mk]
    | with_reducible apply memOk_ite
    | with_reducible apply memParts_of
    | simp only [memOk_mk]
    | with_reducible refine memParts_mk ?_ ?_ ?_
    | with_reducible apply memCase
    | with_reducible apply memAcc
    | with_reducible apply memMail
    | with_reducible apply Mem.store_wf
    | with_reducible apply Mem.clear_wf
    | with_reducible apply Mem.filter_wf
    | with_reducible apply Mem.over_wf
    | exact Mem.nil_wf
    | (with_reducible refine keepsParts_mem ?_ ?_ ?_ ?_ ?_)
    | with_reducible exact id
    | with_reducible exact Mem.store_wf _ _ _
    | with_reducible exact Mem.clear_wf _ _ _
    | with_reducible exact foldl_clear_wf
    | with_reducible exact (fun _ => Mem.nil_wf)
    | with_reducible exact (all_nil_keeps (p := Saved.memOk))
    | with_reducible exact (all_filter_keeps (p := Saved.memOk))
    | with_reducible exact (all_nil_keeps (p := Cluster.memOk))
    | with_reducible apply all_map_keeps
    | intro _
    | split
    | dsimp only [id])

theorem execStreamChunkArrival_keeps {s0 : State} {cl : ClusterId} {id : BitVec 5} {data : WithReads (List Byte)} {s : State} {tt : State} (hk : Keeps s0 s) (eq_ : execStreamChunkArrival cl id data s = .next tt) : Keeps s0 tt := by
  unfold execStreamChunkArrival at eq_
  repeat' (first | split at eq_ | dsimp only at eq_)
  all_goals (first | (injection eq_ with eq_; subst eq_) | (cases eq_))
  repeat' (first
    | with_reducible assumption
    | with_reducible apply chunkArrives_keeps
    | with_reducible refine keeps_ite ?_ ?_
    | with_reducible apply keepsParts_of
    | simp only [keeps_mk]
    | intro _
    | split
    | dsimp only [id])

end Sys2Proof.Machine
end

