-- ==== Sys2Proof/Laws/KeepsAttend.lean ====
section
/-!
SUPPORT. What the operations of Sys2Proof/Machine/Attend.lean keep: the queue, the agreement of the TMR copies, and the canonical
form of the memories (Safety).
-/

namespace Sys2Proof.Machine

theorem execAttend_keeps {s0 : State} {c : PressCmd} {s : State}  {tt : State} (hk : Keeps s0 s) (eq_ : execAttend c s = .next tt) : Keeps s0 tt := by
  unfold execAttend at eq_
  repeat' (first | split at eq_ | dsimp only at eq_)
  all_goals (first | (injection eq_ with eq_; subst eq_) | (cases eq_))
  repeat' (first
    | with_reducible assumption
    | with_reducible apply readOutcome_keeps
    | with_reducible apply pressIssue_keeps
    | (with_reducible apply readOutcome_keeps_of (by assumption))
    | with_reducible refine keeps_ite ?_ ?_
    | with_reducible apply keepsParts_of
    | simp only [keeps_mk]
    | intro _
    | split
    | dsimp only [id])

end Sys2Proof.Machine
end

