-- ==== Sys2Proof/Laws/KeepsRmaTarget.lean ====
section
/-!
SUPPORT. What the operations of Sys2Proof/Machine/RmaTarget.lean keep: the queue, the agreement of the TMR copies, and the canonical
form of the memories (Safety).
-/

namespace Sys2Proof.Machine

theorem hostWrite_keeps {s0 : State} {r : Region} {off : Nat} {bs : List Byte} {s : State} (hk : Keeps s0 s) :
    Keeps s0 (hostWrite r off bs s) := by
  unfold hostWrite
  repeat' (first
    | with_reducible assumption
    | with_reducible apply foldl_keeps
    | with_reducible apply foldl_keeps_fst
    | with_reducible apply foldl_keeps_snd
    | with_reducible apply emit_keeps
    | with_reducible refine keeps_ite ?_ ?_
    | with_reducible apply keepsParts_of
    | simp only [keeps_mk]
    | intro _
    | split
    | dsimp only [id])

theorem regionWrite_keeps {s0 : State} {r : Region} {off : Nat} {bs : List Byte} {s : State} (hk : Keeps s0 s) :
    Keeps s0 (regionWrite r off bs s) := by
  unfold regionWrite
  repeat' (first
    | with_reducible assumption
    | with_reducible apply hostWrite_keeps
    | with_reducible apply partStore_keeps
    | with_reducible refine keeps_ite ?_ ?_
    | with_reducible apply keepsParts_of
    | simp only [keeps_mk]
    | intro _
    | split
    | dsimp only [id])

theorem regionRead_keeps {s0 : State} {r : Region} {off : Nat} {n : Nat} {host : List Byte} {s : State}  (hk : Keeps s0 s) :
    Keeps s0 (regionRead r off n host s).2 := by
  unfold regionRead
  repeat' (first
    | with_reducible assumption
    | with_reducible apply partLoad_keeps
    | (with_reducible apply partLoad_keeps_of (by assumption))
    | with_reducible refine keeps_ite ?_ ?_
    | with_reducible apply keepsParts_of
    | simp only [keeps_mk]
    | intro _
    | split
    | dsimp only [id])

theorem regionRead_keeps_of {s0 : State} {r : Region} {off : Nat} {n : Nat} {host : List Byte} {s : State}  {tt : State} {c0 : _} (eq_ : regionRead r off n host s = (c0, tt)) (hk : Keeps s0 s) : Keeps s0 tt := by
  have := regionRead_keeps (s0 := s0) (r := r) (off := off) (n := n) (host := host) (s := s)  hk
  rw [eq_] at this; exact this

theorem regionMerge_keeps {s0 : State} {r : Region} {off : Nat} {bs : List Byte} {reads : ReadOutcome} {s : State} (hk : Keeps s0 s) :
    Keeps s0 (regionMerge r off bs reads s).2 := by
  unfold regionMerge
  repeat' (first
    | with_reducible assumption
    | with_reducible apply regionWrite_keeps
    | with_reducible apply readOutcome_keeps
    | (with_reducible apply readOutcome_keeps_of (by assumption))
    | with_reducible refine keeps_ite ?_ ?_
    | with_reducible apply keepsParts_of
    | simp only [keeps_mk]
    | intro _
    | split
    | dsimp only [id])

theorem regionMerge_keeps_of {s0 : State} {r : Region} {off : Nat} {bs : List Byte} {reads : ReadOutcome} {s : State} {tt : State} {c0 : _} (eq_ : regionMerge r off bs reads s = (c0, tt)) (hk : Keeps s0 s) : Keeps s0 tt := by
  have := regionMerge_keeps (s0 := s0) (r := r) (off := off) (bs := bs) (reads := reads) (s := s) hk
  rw [eq_] at this; exact this

theorem podAck_keeps {s0 : State} {h : PodHdr} {c : Status} {result : List Byte} {s : State} (hk : Keeps s0 s) :
    Keeps s0 (podAck h c result s) := by
  unfold podAck
  repeat' (first
    | with_reducible assumption
    | with_reducible apply podQueue_keeps
    | with_reducible refine keeps_ite ?_ ?_
    | with_reducible apply keepsParts_of
    | simp only [keeps_mk]
    | intro _
    | split
    | dsimp only [id])

theorem idDone_keeps {s0 : State} {h : PodHdr} {c : Status} {result : List Byte} {s : State}  (hk : Keeps s0 s) :
    Keeps s0 (idDone h c result s) := by
  unfold idDone
  repeat' (first
    | with_reducible assumption
    | with_reducible refine keeps_ite ?_ ?_
    | with_reducible apply keepsParts_of
    | simp only [keeps_mk]
    | intro _
    | split
    | dsimp only [id])

theorem podFinish_keeps {s0 : State} {h : PodHdr} {c : Status} {result : List Byte} {s : State} (hk : Keeps s0 s) :
    Keeps s0 (podFinish h c result s) := by
  unfold podFinish
  repeat' (first
    | with_reducible assumption
    | with_reducible apply idDone_keeps
    | with_reducible apply podAck_keeps
    | with_reducible refine keeps_ite ?_ ?_
    | with_reducible apply keepsParts_of
    | simp only [keeps_mk]
    | intro _
    | split
    | dsimp only [id])

theorem readData_keeps {s0 : State} {h : PodHdr} {bytes : List Byte} {s : State} (hk : Keeps s0 s) :
    Keeps s0 (readData h bytes s) := by
  unfold readData
  repeat' (first
    | with_reducible assumption
    | with_reducible apply dataDrain_keeps
    | with_reducible refine keeps_ite ?_ ?_
    | with_reducible apply keepsParts_of
    | simp only [keeps_mk]
    | intro _
    | split
    | dsimp only [id])

theorem readFails_keeps {s0 : State} {h : PodHdr} {c : Status} {s : State} (hk : Keeps s0 s) :
    Keeps s0 (readFails h c s) := by
  unfold readFails
  repeat' (first
    | with_reducible assumption
    | with_reducible apply dataDrain_keeps
    | with_reducible refine keeps_ite ?_ ?_
    | with_reducible apply keepsParts_of
    | simp only [keeps_mk]
    | intro _
    | split
    | dsimp only [id])

theorem serveRead_keeps {s0 : State} {m : PodMsg} {s : State} (hk : Keeps s0 s) :
    Keeps s0 (serveRead m s) := by
  unfold serveRead
  repeat' (first
    | with_reducible assumption
    | with_reducible apply readFails_keeps
    | with_reducible apply readData_keeps
    | with_reducible apply regionRead_keeps
    | with_reducible apply readOutcome_keeps
    | (with_reducible apply regionRead_keeps_of (by assumption))
    | (with_reducible apply readOutcome_keeps_of (by assumption))
    | with_reducible refine keeps_ite ?_ ?_
    | with_reducible apply keepsParts_of
    | simp only [keeps_mk]
    | intro _
    | split
    | dsimp only [id])

theorem channelSend_keeps {s0 : State} {m : PodMsg} {s : State}  (hk : Keeps s0 s) :
    Keeps s0 (channelSend m s).2 := by
  unfold channelSend
  repeat' (first
    | with_reducible assumption
    | with_reducible apply chanDeliver_keeps
    | with_reducible apply creditBack_keeps
    | with_reducible refine keeps_ite ?_ ?_
    | with_reducible apply keepsParts_of
    | simp only [keeps_mk]
    | intro _
    | split
    | dsimp only [id])

theorem channelSend_keeps_of {s0 : State} {m : PodMsg} {s : State}  {tt : State} {c0 : _} (eq_ : channelSend m s = (c0, tt)) (hk : Keeps s0 s) : Keeps s0 tt := by
  have := channelSend_keeps (s0 := s0) (m := m) (s := s)  hk
  rw [eq_] at this; exact this

theorem hostSend_keeps {s0 : State} {m : PodMsg} {s : State}  (hk : Keeps s0 s) :
    Keeps s0 (hostSend m s).2 := by
  unfold hostSend
  repeat' (first
    | with_reducible assumption
    | with_reducible apply qpCompletion_keeps
    | with_reducible apply regionWrite_keeps
    | with_reducible apply raiseFault_keeps
    | with_reducible apply qpError_keeps
    | with_reducible apply qpUpd_keeps
    | with_reducible refine keeps_ite ?_ ?_
    | with_reducible apply keepsParts_of
    | simp only [keeps_mk]
    | intro _
    | split
    | dsimp only [id])

theorem hostSend_keeps_of {s0 : State} {m : PodMsg} {s : State}  {tt : State} {c0 : _} (eq_ : hostSend m s = (c0, tt)) (hk : Keeps s0 s) : Keeps s0 tt := by
  have := hostSend_keeps (s0 := s0) (m := m) (s := s)  hk
  rw [eq_] at this; exact this

theorem podGone_keeps {s0 : State} {id : Nat} {s : State}  (hk : Keeps s0 s) :
    Keeps s0 (podGone id s) := by
  unfold podGone
  repeat' (first
    | with_reducible assumption
    | with_reducible refine keeps_ite ?_ ?_
    | with_reducible apply keepsParts_of
    | simp only [keeps_mk]
    | intro _
    | split
    | dsimp only [id])

theorem readAway_keeps {s0 : State} {q : Nat} {i : Nat} {k : Word} {page : Nat} {s : State} (hk : Keeps s0 s) :
    Keeps s0 (readAway q i k page s).2 := by
  unfold readAway
  repeat' (first
    | with_reducible assumption
    | with_reducible apply raiseFault_keeps
    | with_reducible apply qpError_keeps
    | with_reducible apply wrUpd_keeps
    | with_reducible refine keeps_ite ?_ ?_
    | with_reducible apply keepsParts_of
    | simp only [keeps_mk]
    | intro _
    | split
    | dsimp only [id])

theorem readAway_keeps_of {s0 : State} {q : Nat} {i : Nat} {k : Word} {page : Nat} {s : State} {tt : State} {c0 : _} (eq_ : readAway q i k page s = (c0, tt)) (hk : Keeps s0 s) : Keeps s0 tt := by
  have := readAway_keeps (s0 := s0) (q := q) (i := i) (k := k) (page := page) (s := s) hk
  rw [eq_] at this; exact this

theorem readArrives_keeps {s0 : State} {m : PodMsg} {s : State} (hk : Keeps s0 s) :
    Keeps s0 (readArrives m s).2 := by
  unfold readArrives
  repeat' (first
    | with_reducible assumption
    | with_reducible apply getD_keeps
    | with_reducible apply readAway_keeps
    | with_reducible apply podGone_keeps
    | with_reducible apply regionMerge_keeps
    | with_reducible apply rmaPump_keeps
    | with_reducible apply qpError_keeps
    | with_reducible apply wrDone_keeps
    | with_reducible apply wrUpd_keeps
    | with_reducible apply qpFlush_keeps
    | (with_reducible apply readAway_keeps_of (by assumption))
    | (with_reducible apply regionMerge_keeps_of (by assumption))
    | with_reducible refine keeps_ite ?_ ?_
    | with_reducible apply keepsParts_of
    | simp only [keeps_mk]
    | intro _
    | split
    | dsimp only [id])

theorem readArrives_keeps_of {s0 : State} {m : PodMsg} {s : State} {tt : State} {c0 : _} (eq_ : readArrives m s = (c0, tt)) (hk : Keeps s0 s) : Keeps s0 tt := by
  have := readArrives_keeps (s0 := s0) (m := m) (s := s) hk
  rw [eq_] at this; exact this

theorem parkAtomic_keeps {s0 : State} {m : PodMsg} {s : State}  (hk : Keeps s0 s) :
    Keeps s0 (parkAtomic m s) := by
  unfold parkAtomic
  repeat' (first
    | with_reducible assumption
    | with_reducible apply podFinish_keeps
    | with_reducible refine keeps_ite ?_ ?_
    | with_reducible apply keepsParts_of
    | simp only [keeps_mk]
    | intro _
    | split
    | dsimp only [id])

theorem keyAsked_keeps {s0 : State} {h : PodHdr} {s : State} (hk : Keeps s0 s) :
    Keeps s0 (keyAsked h s).2 := by
  unfold keyAsked
  repeat' (first
    | with_reducible assumption
    | with_reducible apply sendPod_keeps
    | with_reducible refine keeps_ite ?_ ?_
    | with_reducible apply keepsParts_of
    | simp only [keeps_mk]
    | intro _
    | split
    | dsimp only [id])

theorem keyAsked_keeps_of {s0 : State} {h : PodHdr} {s : State} {tt : State} {c0 : _} (eq_ : keyAsked h s = (c0, tt)) (hk : Keeps s0 s) : Keeps s0 tt := by
  have := keyAsked_keeps (s0 := s0) (h := h) (s := s) hk
  rw [eq_] at this; exact this

theorem podEffect_keeps {s0 : State} {m : PodMsg} {s : State} (hk : Keeps s0 s) :
    Keeps s0 (podEffect m s) := by
  unfold podEffect
  repeat' (first
    | with_reducible assumption
    | with_reducible apply keyAsked_keeps
    | with_reducible apply parkAtomic_keeps
    | with_reducible apply readArrives_keeps
    | with_reducible apply hostSend_keeps
    | with_reducible apply channelSend_keeps
    | with_reducible apply serveRead_keeps
    | with_reducible apply podFinish_keeps
    | with_reducible apply regionMerge_keeps
    | (with_reducible apply keyAsked_keeps_of (by assumption))
    | (with_reducible apply readArrives_keeps_of (by assumption))
    | (with_reducible apply hostSend_keeps_of (by assumption))
    | (with_reducible apply channelSend_keeps_of (by assumption))
    | (with_reducible apply regionMerge_keeps_of (by assumption))
    | with_reducible refine keeps_ite ?_ ?_
    | with_reducible apply keepsParts_of
    | simp only [keeps_mk]
    | intro _
    | split
    | dsimp only [id])

theorem podAway_keeps {s0 : State} {m : PodMsg} {page : Nat} {s : State}  (hk : Keeps s0 s) :
    Keeps s0 (podAway m page s) := by
  unfold podAway
  repeat' (first
    | with_reducible assumption
    | with_reducible apply raiseFault_keeps
    | with_reducible apply podFinish_keeps
    | with_reducible refine keeps_ite ?_ ?_
    | with_reducible apply keepsParts_of
    | simp only [keeps_mk]
    | intro _
    | split
    | dsimp only [id])

theorem podTagFails_keeps {s0 : State} {m : PodMsg} {s : State}  (hk : Keeps s0 s) :
    Keeps s0 (podTagFails m s) := by
  unfold podTagFails
  repeat' (first
    | with_reducible assumption
    | with_reducible apply podFinish_keeps
    | with_reducible apply noteErr_keeps
    | with_reducible refine keeps_ite ?_ ?_
    | with_reducible apply keepsParts_of
    | simp only [keeps_mk]
    | intro _
    | split
    | dsimp only [id])

theorem podExecute_keeps {s0 : State} {m : PodMsg} {s : State}  (hk : Keeps s0 s) :
    Keeps s0 (podExecute m s) := by
  unfold podExecute
  repeat' (first
    | with_reducible assumption
    | with_reducible apply podTagFails_keeps
    | with_reducible apply podFinish_keeps
    | with_reducible apply podEffect_keeps
    | with_reducible apply podAway_keeps
    | with_reducible refine keeps_ite ?_ ?_
    | with_reducible apply keepsParts_of
    | simp only [keeps_mk]
    | intro _
    | split
    | dsimp only [id])

theorem deregRun_keeps {s0 : State} {s : State} (hk : Keeps s0 s) :
    Keeps s0 (deregRun s) := by
  unfold deregRun
  repeat' (first
    | with_reducible assumption
    | with_reducible apply foldl_keeps
    | with_reducible apply foldl_keeps_fst
    | with_reducible apply foldl_keeps_snd
    | with_reducible apply qpFlush_keeps
    | with_reducible apply qpUpd_keeps
    | with_reducible refine keeps_ite ?_ ?_
    | with_reducible apply keepsParts_of
    | simp only [keeps_mk]
    | intro _
    | split
    | dsimp only [id])

theorem podTakeOn_keeps {s0 : State} {m : PodMsg} {s : State}  (hk : Keeps s0 s) :
    Keeps s0 (podTakeOn m s) := by
  unfold podTakeOn
  repeat' (first
    | with_reducible assumption
    | with_reducible apply podExecute_keeps
    | with_reducible apply fetchStart_keeps
    | with_reducible apply podFinish_keeps
    | with_reducible apply qpUpd_keeps
    | with_reducible refine keeps_ite ?_ ?_
    | with_reducible apply keepsParts_of
    | simp only [keeps_mk]
    | intro _
    | split
    | dsimp only [id])

theorem podTake_keeps {s0 : State} {type : Nat} {m : PodMsg} {s : State} (hk : Keeps s0 s) :
    Keeps s0 (podTake type m s) := by
  unfold podTake
  repeat' (first
    | with_reducible assumption
    | with_reducible apply podTakeOn_keeps
    | with_reducible apply deregRun_keeps
    | with_reducible apply podFinish_keeps
    | with_reducible apply podAck_keeps
    | with_reducible refine keeps_ite ?_ ?_
    | with_reducible apply keepsParts_of
    | simp only [keeps_mk]
    | intro _
    | split
    | dsimp only [id])

theorem fetched_keeps {s0 : State} {q : Nat} {s : State} (hk : Keeps s0 s) :
    Keeps s0 (fetched q s) := by
  unfold fetched
  repeat' (first
    | with_reducible assumption
    | with_reducible apply foldl_keeps
    | with_reducible apply foldl_keeps_fst
    | with_reducible apply foldl_keeps_snd
    | with_reducible apply deregRun_keeps
    | with_reducible apply podExecute_keeps
    | with_reducible apply qpSend_keeps
    | with_reducible apply evictFor_keeps
    | with_reducible apply qpUpd_keeps
    | with_reducible refine keeps_ite ?_ ?_
    | with_reducible apply keepsParts_of
    | simp only [keeps_mk]
    | intro _
    | split
    | dsimp only [id])

theorem fetchFails_keeps {s0 : State} {q : Nat} {s : State} (hk : Keeps s0 s) :
    Keeps s0 (fetchFails q s) := by
  unfold fetchFails
  repeat' (first
    | with_reducible assumption
    | with_reducible apply foldl_keeps
    | with_reducible apply foldl_keeps_fst
    | with_reducible apply foldl_keeps_snd
    | with_reducible apply podFinish_keeps
    | with_reducible apply evictFor_keeps
    | with_reducible apply qpUpd_keeps
    | with_reducible apply noteErr_keeps
    | with_reducible apply msix_keeps
    | with_reducible apply emit_keeps
    | with_reducible refine keeps_ite ?_ ?_
    | with_reducible apply keepsParts_of
    | simp only [keeps_mk]
    | intro _
    | split
    | dsimp only [id])

theorem pieceRefused_keeps {s0 : State} {q : Nat} {i : Nat} {w : WrState} {p : Piece} {s : State} (hk : Keeps s0 s) :
    Keeps s0 (pieceRefused q i w p s) := by
  unfold pieceRefused
  repeat' (first
    | with_reducible assumption
    | with_reducible apply getD_keeps
    | with_reducible apply qpError_keeps
    | with_reducible apply wrDone_keeps
    | with_reducible apply wrUpd_keeps
    | with_reducible apply qpFlush_keeps
    | with_reducible apply bumpFree_keeps
    | with_reducible refine keeps_ite ?_ ?_
    | with_reducible apply keepsParts_of
    | simp only [keeps_mk]
    | intro _
    | split
    | dsimp only [id])

theorem pieceDone_keeps {s0 : State} {q : Nat} {i : Nat} {p : Piece} {result : List Byte} {s : State}  (hk : Keeps s0 s) :
    Keeps s0 (pieceDone q i p result s) := by
  unfold pieceDone
  repeat' (first
    | with_reducible assumption
    | with_reducible apply qpFlush_keeps
    | with_reducible apply wrDone_keeps
    | with_reducible apply qpSend_keeps
    | with_reducible apply wrUpd_keeps
    | with_reducible refine keeps_ite ?_ ?_
    | with_reducible apply keepsParts_of
    | simp only [keeps_mk]
    | intro _
    | split
    | dsimp only [id])

theorem shardEnds_keeps {s0 : State} {p : ShardRun → Bool} {c : Status} {result : List Byte} {s : State} (hk : Keeps s0 s) :
    Keeps s0 (shardEnds p c result s) := by
  unfold shardEnds
  repeat' (first
    | with_reducible assumption
    | with_reducible apply postCq_keeps
    | with_reducible refine keeps_ite ?_ ?_
    | with_reducible apply keepsParts_of
    | simp only [keeps_mk]
    | intro _
    | split
    | dsimp only [id])

theorem claimAnswer_keeps {s0 : State} {id : Nat} {c : Status} {result : List Byte} {s : State} (hk : Keeps s0 s) :
    Keeps s0 (claimAnswer id c result s) := by
  unfold claimAnswer
  repeat' (first
    | with_reducible assumption
    | with_reducible apply shardEnds_keeps
    | with_reducible refine keeps_ite ?_ ?_
    | with_reducible apply keepsParts_of
    | simp only [keeps_mk]
    | intro _
    | split
    | dsimp only [id])

theorem outEnds_keeps {s0 : State} {o : PodOut} {c : Status} {s : State} (hk : Keeps s0 s) :
    Keeps s0 (outEnds o c s) := by
  unfold outEnds
  repeat' (first
    | with_reducible assumption
    | with_reducible apply claimAnswer_keeps
    | with_reducible apply fwFails_keeps
    | with_reducible refine keeps_ite ?_ ?_
    | with_reducible apply keepsParts_of
    | simp only [keeps_mk]
    | intro _
    | split
    | dsimp only [id])

theorem outRefused_keeps {s0 : State} {o : PodOut} {s : State} (hk : Keeps s0 s) :
    Keeps s0 (outRefused o s) := by
  unfold outRefused
  repeat' (first
    | with_reducible assumption
    | with_reducible apply getD_keeps
    | with_reducible apply outEnds_keeps
    | with_reducible apply bumpFree_keeps
    | with_reducible refine keeps_ite ?_ ?_
    | with_reducible apply keepsParts_of
    | simp only [keeps_mk]
    | intro _
    | split
    | dsimp only [id])

theorem ackAt_keeps {s0 : State} {m : PodMsg} {s : State} (hk : Keeps s0 s) :
    Keeps s0 (ackAt m s) := by
  unfold ackAt
  repeat' (first
    | with_reducible assumption
    | with_reducible apply outRefused_keeps
    | with_reducible apply outEnds_keeps
    | with_reducible apply claimAnswer_keeps
    | with_reducible apply pieceDone_keeps
    | with_reducible apply pieceRefused_keeps
    | with_reducible apply podGone_keeps
    | with_reducible apply rmaPump_keeps
    | with_reducible apply qpError_keeps
    | with_reducible refine keeps_ite ?_ ?_
    | with_reducible apply keepsParts_of
    | simp only [keeps_mk]
    | intro _
    | split
    | dsimp only [id])

theorem retransmit_keeps {s0 : State} {id : Nat} {s : State} (hk : Keeps s0 s) :
    Keeps s0 (retransmit id s) := by
  unfold retransmit
  repeat' (first
    | with_reducible assumption
    | with_reducible apply getD_keeps
    | with_reducible apply podQueue_keeps
    | with_reducible apply sendSuspect_keeps
    | with_reducible refine keeps_ite ?_ ?_
    | with_reducible apply keepsParts_of
    | simp only [keeps_mk]
    | intro _
    | split
    | dsimp only [id])

theorem lifetimeEnds_keeps {s0 : State} {id : Nat} {s : State} (hk : Keeps s0 s) :
    Keeps s0 (lifetimeEnds id s) := by
  unfold lifetimeEnds
  repeat' (first
    | with_reducible assumption
    | with_reducible apply outEnds_keeps
    | with_reducible apply podGone_keeps
    | with_reducible apply rmaPump_keeps
    | with_reducible apply qpError_keeps
    | with_reducible apply noteErr_keeps
    | with_reducible refine keeps_ite ?_ ?_
    | with_reducible apply keepsParts_of
    | simp only [keeps_mk]
    | intro _
    | split
    | dsimp only [id])

theorem readTimesOut_keeps {s0 : State} {id : Nat} {s : State} (hk : Keeps s0 s) :
    Keeps s0 (readTimesOut id s) := by
  unfold readTimesOut
  repeat' (first
    | with_reducible assumption
    | with_reducible apply podGone_keeps
    | with_reducible apply rmaPump_keeps
    | with_reducible apply qpError_keeps
    | with_reducible refine keeps_ite ?_ ?_
    | with_reducible apply keepsParts_of
    | simp only [keeps_mk]
    | intro _
    | split
    | dsimp only [id])

theorem backoffEnds_keeps {s0 : State} {id : Nat} {s : State} (hk : Keeps s0 s) :
    Keeps s0 (backoffEnds id s) := by
  unfold backoffEnds
  repeat' (first
    | with_reducible assumption
    | with_reducible apply qpSend_keeps
    | with_reducible apply wrUpd_keeps
    | with_reducible apply podSend_keeps
    | with_reducible refine keeps_ite ?_ ?_
    | with_reducible apply keepsParts_of
    | simp only [keeps_mk]
    | intro _
    | split
    | dsimp only [id])

theorem limitEnds_keeps {s0 : State} {id : Nat} {s : State} (hk : Keeps s0 s) :
    Keeps s0 (limitEnds id s) := by
  unfold limitEnds
  repeat' (first
    | with_reducible assumption
    | with_reducible apply getD_keeps
    | with_reducible apply outRefused_keeps
    | with_reducible apply rmaPump_keeps
    | with_reducible apply qpError_keeps
    | with_reducible apply wrDone_keeps
    | with_reducible apply qpFlush_keeps
    | with_reducible refine keeps_ite ?_ ?_
    | with_reducible apply keepsParts_of
    | simp only [keeps_mk]
    | intro _
    | split
    | dsimp only [id])

theorem readAgain_keeps {s0 : State} {m : PodMsg} {s : State}  (hk : Keeps s0 s) :
    Keeps s0 (readAgain m s) := by
  unfold readAgain
  repeat' (first
    | with_reducible assumption
    | with_reducible apply raiseFault_keeps
    | with_reducible apply readFails_keeps
    | with_reducible apply serveRead_keeps
    | with_reducible refine keeps_ite ?_ ?_
    | with_reducible apply keepsParts_of
    | simp only [keeps_mk]
    | intro _
    | split
    | dsimp only [id])

theorem wrHold_keeps {s0 : State} {q : Nat} {i : Nat} {s : State}  (hk : Keeps s0 s) :
    Keeps s0 (wrHold q i s) := by
  unfold wrHold
  repeat' (first
    | with_reducible assumption
    | with_reducible apply raiseFault_keeps
    | with_reducible apply qpError_keeps
    | with_reducible apply wrUpd_keeps
    | with_reducible refine keeps_ite ?_ ?_
    | with_reducible apply keepsParts_of
    | simp only [keeps_mk]
    | intro _
    | split
    | dsimp only [id])

theorem pagePresent_keeps {s0 : State} {k : Word} {page : Nat} {s : State}  (hk : Keeps s0 s) :
    Keeps s0 (pagePresent k page s) := by
  unfold pagePresent
  repeat' (first
    | with_reducible assumption
    | with_reducible apply foldl_keeps
    | with_reducible apply foldl_keeps_fst
    | with_reducible apply foldl_keeps_snd
    | with_reducible apply readAgain_keeps
    | with_reducible apply rmaPump_keeps
    | with_reducible apply wrHold_keeps
    | with_reducible refine keeps_ite ?_ ?_
    | with_reducible apply keepsParts_of
    | simp only [keeps_mk]
    | intro _
    | split
    | dsimp only [id])

theorem faultEnds_keeps {s0 : State} {k : Word} {page : Nat} {s : State}  (hk : Keeps s0 s) :
    Keeps s0 (faultEnds k page s) := by
  unfold faultEnds
  repeat' (first
    | with_reducible assumption
    | with_reducible apply foldl_keeps
    | with_reducible apply foldl_keeps_fst
    | with_reducible apply foldl_keeps_snd
    | with_reducible apply readFails_keeps
    | with_reducible apply deregRun_keeps
    | with_reducible apply qpError_keeps
    | with_reducible refine keeps_ite ?_ ?_
    | with_reducible apply keepsParts_of
    | simp only [keeps_mk]
    | intro _
    | split
    | dsimp only [id])

theorem workEnds_keeps {s0 : State} {d : Nat → Bool} {c : Status} {s : State} (hk : Keeps s0 s) :
    Keeps s0 (workEnds d c s) := by
  unfold workEnds
  repeat' (first
    | with_reducible assumption
    | with_reducible apply foldl_keeps
    | with_reducible apply foldl_keeps_fst
    | with_reducible apply foldl_keeps_snd
    | with_reducible apply outEnds_keeps
    | with_reducible apply shardEnds_keeps
    | with_reducible apply fwFails_keeps
    | with_reducible refine keeps_ite ?_ ?_
    | with_reducible apply keepsParts_of
    | simp only [keeps_mk]
    | intro _
    | split
    | dsimp only [id])

theorem rmaExcluded_keeps {s0 : State} {d : Nat} {s : State} (hk : Keeps s0 s) :
    Keeps s0 (rmaExcluded d s) := by
  unfold rmaExcluded
  repeat' (first
    | with_reducible assumption
    | with_reducible apply foldl_keeps
    | with_reducible apply foldl_keeps_fst
    | with_reducible apply foldl_keeps_snd
    | with_reducible apply workEnds_keeps
    | with_reducible apply rmaPump_keeps
    | with_reducible apply qpFlush_keeps
    | with_reducible refine keeps_ite ?_ ?_
    | with_reducible apply keepsParts_of
    | simp only [keeps_mk]
    | intro _
    | split
    | dsimp only [id])

theorem rmaReadmit_keeps {s0 : State} {s : State} (hk : Keeps s0 s) :
    Keeps s0 (rmaReadmit s) := by
  unfold rmaReadmit
  repeat' (first
    | with_reducible assumption
    | with_reducible apply foldl_keeps
    | with_reducible apply foldl_keeps_fst
    | with_reducible apply foldl_keeps_snd
    | with_reducible apply workEnds_keeps
    | with_reducible apply qpError_keeps
    | with_reducible apply ringEnds_keeps
    | with_reducible apply qpFlush_keeps
    | with_reducible refine keeps_ite ?_ ?_
    | with_reducible apply keepsParts_of
    | simp only [keeps_mk]
    | intro _
    | split
    | dsimp only [id])

end Sys2Proof.Machine
end

