-- ==== Sys2Proof/Laws/KeepsCapsules.lean ====
section
/-!
SUPPORT. What the operations of Sys2Proof/Machine/Capsules.lean keep: the queue, the agreement of the TMR copies, and the canonical
form of the memories (Safety).
-/

namespace Sys2Proof.Machine

theorem admitCapsule_keeps {s0 : State} {x : CapsuleCmd} {s : State}  (hk : Keeps s0 s) :
    Keeps s0 (admitCapsule x s) := by
  unfold admitCapsule
  repeat' (first
    | with_reducible assumption
    | with_reducible apply capsuleRefuse_keeps
    | with_reducible apply admitStart_keeps
    | with_reducible refine keeps_ite ?_ ?_
    | with_reducible apply keepsParts_of
    | simp only [keeps_mk]
    | intro _
    | split
    | dsimp only [id])

theorem resumeCapsuleAt_keeps {s0 : State} {x : CapsuleCmd} {s : State}  (hk : Keeps s0 s) :
    Keeps s0 (resumeCapsuleAt x s) := by
  unfold resumeCapsuleAt
  repeat' (first
    | with_reducible assumption
    | with_reducible apply getD_keeps
    | with_reducible apply capsuleRefuse_keeps
    | with_reducible apply resumeAccept_keeps
    | with_reducible apply seqAccept_keeps
    | with_reducible refine keeps_ite ?_ ?_
    | with_reducible apply keepsParts_of
    | simp only [keeps_mk]
    | intro _
    | split
    | dsimp only [id])

theorem cancelCapsuleAt_keeps {s0 : State} {x : CapsuleCmd} {s : State}  (hk : Keeps s0 s) :
    Keeps s0 (cancelCapsuleAt x s) := by
  unfold cancelCapsuleAt
  repeat' (first
    | with_reducible assumption
    | with_reducible apply getD_keeps
    | with_reducible apply capsuleRefuse_keeps
    | with_reducible apply anchorCancel_keeps
    | with_reducible apply seqAccept_keeps
    | with_reducible apply postCq_keeps
    | with_reducible refine keeps_ite ?_ ?_
    | with_reducible apply keepsParts_of
    | simp only [keeps_mk]
    | intro _
    | split
    | dsimp only [id])

theorem endSession_keeps {s0 : State} {session : Word} {s : State}  (hk : Keeps s0 s) :
    Keeps s0 (endSession session s) := by
  unfold endSession
  repeat' (first
    | with_reducible assumption
    | with_reducible apply foldl_keeps
    | with_reducible apply foldl_keeps_fst
    | with_reducible apply foldl_keeps_snd
    | with_reducible apply anchorCancel_keeps
    | with_reducible refine keeps_ite ?_ ?_
    | with_reducible apply keepsParts_of
    | simp only [keeps_mk]
    | intro _
    | split
    | dsimp only [id])

theorem sessionEndAt_keeps {s0 : State} {x : CapsuleCmd} {s : State}  (hk : Keeps s0 s) :
    Keeps s0 (sessionEndAt x s) := by
  unfold sessionEndAt
  repeat' (first
    | with_reducible assumption
    | with_reducible apply capsuleRefuse_keeps
    | with_reducible apply endSession_keeps
    | with_reducible apply seqAccept_keeps
    | with_reducible apply postCq_keeps
    | with_reducible refine keeps_ite ?_ ?_
    | with_reducible apply keepsParts_of
    | simp only [keeps_mk]
    | intro _
    | split
    | dsimp only [id])

theorem execCapsule_keeps {s0 : State} {x : CapsuleCmd} {s : State}  {tt : State} (hk : Keeps s0 s) (eq_ : execCapsule x s = .next tt) : Keeps s0 tt := by
  unfold execCapsule at eq_
  repeat' (first | split at eq_ | dsimp only at eq_)
  all_goals (first | (injection eq_ with eq_; subst eq_) | (cases eq_))
  repeat' (first
    | with_reducible assumption
    | with_reducible apply resumeCapsuleAt_keeps
    | with_reducible apply cancelCapsuleAt_keeps
    | with_reducible apply admitCapsule_keeps
    | with_reducible apply sessionEndAt_keeps
    | with_reducible apply takeEntry_keeps
    | with_reducible refine keeps_ite ?_ ?_
    | with_reducible apply keepsParts_of
    | simp only [keeps_mk]
    | intro _
    | split
    | dsimp only [id])

theorem execAdmitCapsule_keeps {s0 : State} {x : CapsuleCmd} {s : State}  {tt : State} (hk : Keeps s0 s) (eq_ : execAdmitCapsule x s = .next tt) : Keeps s0 tt := by
  unfold execAdmitCapsule at eq_
  repeat' (first | split at eq_ | dsimp only at eq_)
  all_goals (first | (injection eq_ with eq_; subst eq_) | (cases eq_))
  repeat' (first
    | with_reducible assumption
    | with_reducible apply admitCapsule_keeps
    | with_reducible apply takeEntry_keeps
    | with_reducible refine keeps_ite ?_ ?_
    | with_reducible apply keepsParts_of
    | simp only [keeps_mk]
    | intro _
    | split
    | dsimp only [id])

theorem execResumeCapsule_keeps {s0 : State} {x : CapsuleCmd} {s : State}  {tt : State} (hk : Keeps s0 s) (eq_ : execResumeCapsule x s = .next tt) : Keeps s0 tt := by
  unfold execResumeCapsule at eq_
  repeat' (first | split at eq_ | dsimp only at eq_)
  all_goals (first | (injection eq_ with eq_; subst eq_) | (cases eq_))
  repeat' (first
    | with_reducible assumption
    | with_reducible apply resumeCapsuleAt_keeps
    | with_reducible apply takeEntry_keeps
    | with_reducible refine keeps_ite ?_ ?_
    | with_reducible apply keepsParts_of
    | simp only [keeps_mk]
    | intro _
    | split
    | dsimp only [id])

theorem execCancelCapsule_keeps {s0 : State} {x : CapsuleCmd} {s : State}  {tt : State} (hk : Keeps s0 s) (eq_ : execCancelCapsule x s = .next tt) : Keeps s0 tt := by
  unfold execCancelCapsule at eq_
  repeat' (first | split at eq_ | dsimp only at eq_)
  all_goals (first | (injection eq_ with eq_; subst eq_) | (cases eq_))
  repeat' (first
    | with_reducible assumption
    | with_reducible apply cancelCapsuleAt_keeps
    | with_reducible apply takeEntry_keeps
    | with_reducible refine keeps_ite ?_ ?_
    | with_reducible apply keepsParts_of
    | simp only [keeps_mk]
    | intro _
    | split
    | dsimp only [id])

theorem execSessionEnd_keeps {s0 : State} {x : CapsuleCmd} {s : State}  {tt : State} (hk : Keeps s0 s) (eq_ : execSessionEnd x s = .next tt) : Keeps s0 tt := by
  unfold execSessionEnd at eq_
  repeat' (first | split at eq_ | dsimp only at eq_)
  all_goals (first | (injection eq_ with eq_; subst eq_) | (cases eq_))
  repeat' (first
    | with_reducible assumption
    | with_reducible apply sessionEndAt_keeps
    | with_reducible apply takeEntry_keeps
    | with_reducible refine keeps_ite ?_ ?_
    | with_reducible apply keepsParts_of
    | simp only [keeps_mk]
    | intro _
    | split
    | dsimp only [id])

theorem execSqNop_keeps {s0 : State} {r : RingRef} {e : SqEntry} {s : State} {tt : State} (hk : Keeps s0 s) (eq_ : execSqNop r e s = .next tt) : Keeps s0 tt := by
  unfold execSqNop at eq_
  repeat' (first | split at eq_ | dsimp only at eq_)
  all_goals (first | (injection eq_ with eq_; subst eq_) | (cases eq_))
  repeat' (first
    | with_reducible assumption
    | with_reducible apply takeEntry_keeps
    | with_reducible apply postCq_keeps
    | with_reducible refine keeps_ite ?_ ?_
    | with_reducible apply keepsParts_of
    | simp only [keeps_mk]
    | intro _
    | split
    | dsimp only [id])

theorem execHostCancel_keeps {s0 : State} {r : RingRef} {e : SqEntry} {s : State}  {tt : State} (hk : Keeps s0 s) (eq_ : execHostCancel r e s = .next tt) : Keeps s0 tt := by
  unfold execHostCancel at eq_
  repeat' (first | split at eq_ | dsimp only at eq_)
  all_goals (first | (injection eq_ with eq_; subst eq_) | (cases eq_))
  repeat' (first
    | with_reducible assumption
    | with_reducible apply anchorCancel_keeps
    | with_reducible apply takeEntry_keeps
    | with_reducible apply postCq_keeps
    | with_reducible refine keeps_ite ?_ ?_
    | with_reducible apply keepsParts_of
    | simp only [keeps_mk]
    | intro _
    | split
    | dsimp only [id])

theorem sessionOpen_keeps {s0 : State} {m : SessionInit} {meas : List Digest} {s : State}  (hk : Keeps s0 s) :
    Keeps s0 (sessionOpen m meas s) := by
  unfold sessionOpen
  repeat' (first
    | with_reducible assumption
    | with_reducible apply postOut_keeps
    | with_reducible apply postCq_keeps
    | with_reducible apply draw_keeps
    | with_reducible apply seen_keeps
    | (with_reducible apply draw_keeps_of (by assumption))
    | with_reducible refine keeps_ite ?_ ?_
    | with_reducible apply keepsParts_of
    | simp only [keeps_mk]
    | intro _
    | split
    | dsimp only [id])

theorem execSessionInit_keeps {s0 : State} {m : SessionInit} {s : State}  {tt : State} (hk : Keeps s0 s) (eq_ : execSessionInit m s = .next tt) : Keeps s0 tt := by
  unfold execSessionInit at eq_
  repeat' (first | split at eq_ | dsimp only at eq_)
  all_goals (first | (injection eq_ with eq_; subst eq_) | (cases eq_))
  repeat' (first
    | with_reducible assumption
    | with_reducible apply sessionOpen_keeps
    | with_reducible apply takeEntry_keeps
    | with_reducible apply authFail_keeps
    | with_reducible apply postCq_keeps
    | with_reducible refine keeps_ite ?_ ?_
    | with_reducible apply keepsParts_of
    | simp only [keeps_mk]
    | intro _
    | split
    | dsimp only [id])

theorem execSessionFinish_keeps {s0 : State} {m : SessionFinish} {s : State}  {tt : State} (hk : Keeps s0 s) (eq_ : execSessionFinish m s = .next tt) : Keeps s0 tt := by
  unfold execSessionFinish at eq_
  repeat' (first | split at eq_ | dsimp only at eq_)
  all_goals (first | (injection eq_ with eq_; subst eq_) | (cases eq_))
  repeat' (first
    | with_reducible assumption
    | with_reducible apply takeEntry_keeps
    | with_reducible apply postCq_keeps
    | with_reducible refine keeps_ite ?_ ?_
    | with_reducible apply keepsParts_of
    | simp only [keeps_mk]
    | intro _
    | split
    | dsimp only [id])

theorem execSessionTimeout_keeps {s0 : State} {session : Word} {s : State}  {tt : State} (hk : Keeps s0 s) (eq_ : execSessionTimeout session s = .next tt) : Keeps s0 tt := by
  unfold execSessionTimeout at eq_
  repeat' (first | split at eq_ | dsimp only at eq_)
  all_goals (first | (injection eq_ with eq_; subst eq_) | (cases eq_))
  repeat' (first
    | with_reducible assumption
    | with_reducible refine keeps_ite ?_ ?_
    | with_reducible apply keepsParts_of
    | simp only [keeps_mk]
    | intro _
    | split
    | dsimp only [id])

theorem execShard_keeps {s0 : State} {m : ShardCmd} {s : State} {tt : State} (hk : Keeps s0 s) (eq_ : execShard m s = .next tt) : Keeps s0 tt := by
  unfold execShard at eq_
  repeat' (first | split at eq_ | dsimp only at eq_)
  all_goals (first | (injection eq_ with eq_; subst eq_) | (cases eq_))
  repeat' (first
    | with_reducible assumption
    | with_reducible apply shardEnds_keeps
    | with_reducible apply dataDrain_keeps
    | with_reducible apply bumpFree_keeps
    | with_reducible apply takeEntry_keeps
    | with_reducible apply postCq_keeps
    | with_reducible apply sendFw_keeps
    | with_reducible refine keeps_ite ?_ ?_
    | with_reducible apply keepsParts_of
    | simp only [keeps_mk]
    | intro _
    | split
    | dsimp only [id])

end Sys2Proof.Machine
end

