-- ==== Sys2Proof/Laws/KeepsCodecCtl.lean ====
section
/-!
SUPPORT. What the operations of Sys2Proof/Machine/CodecCtl.lean keep: the queue, the agreement of the TMR copies, and the canonical
form of the memories (Safety).
-/

namespace Sys2Proof.Machine

theorem codecCode_keeps {s0 : State} {c : Status} {s : State}  (hk : Keeps s0 s) :
    Keeps s0 (codecCode c s) := by
  unfold codecCode
  repeat' (first
    | with_reducible assumption
    | with_reducible refine keeps_ite ?_ ?_
    | with_reducible apply keepsParts_of
    | simp only [keeps_mk]
    | intro _
    | split
    | dsimp only [id])

theorem codecCtl_keeps {s0 : State} {w : CtlWrite} {own : Nat} {run : State → State} {s : State} (h_run : ∀ (u : State), Keeps s0 u → Keeps s0 (run u)) (hk : Keeps s0 s) :
    Keeps s0 (codecCtl w own run s) := by
  unfold codecCtl
  repeat' (first
    | with_reducible assumption
    | with_reducible apply codecCode_keeps
    | with_reducible apply ctl_keeps
    | with_reducible apply h_run
    | with_reducible refine keeps_ite ?_ ?_
    | with_reducible apply keepsParts_of
    | simp only [keeps_mk]
    | intro _
    | split
    | dsimp only [id])

theorem tableWrite_keeps {s0 : State} {a : CodecAsk} {s : State} (hk : Keeps s0 s) :
    Keeps s0 (tableWrite a s) := by
  unfold tableWrite
  repeat' (first
    | with_reducible assumption
    | with_reducible apply foldl_keeps
    | with_reducible apply foldl_keeps_fst
    | with_reducible apply foldl_keeps_snd
    | with_reducible refine keeps_ite ?_ ?_
    | with_reducible apply keepsParts_of
    | simp only [keeps_mk]
    | intro _
    | split
    | dsimp only [id])

theorem pairWide_keeps {s0 : State} {table : Nat} {c : Status} {partner : PairAnswer} {apply : State → State} {s : State} (h_apply : ∀ (u : State), Keeps s0 u → Keeps s0 (apply u)) (hk : Keeps s0 s) :
    Keeps s0 (pairWide table c partner apply s) := by
  unfold pairWide
  repeat' (first
    | with_reducible assumption
    | with_reducible apply codecCode_keeps
    | with_reducible apply h_apply
    | with_reducible refine keeps_ite ?_ ?_
    | with_reducible apply keepsParts_of
    | simp only [keeps_mk]
    | intro _
    | split
    | dsimp only [id])

theorem pairApply_keeps {s0 : State} {a : CodecAsk} {own : Status} {partner : Status} {apply : State → State} {s : State} (h_apply : ∀ (u : State), Keeps s0 u → Keeps s0 (apply u)) (hk : Keeps s0 s) :
    Keeps s0 (pairApply a own partner apply s) := by
  unfold pairApply
  repeat' (first
    | with_reducible assumption
    | with_reducible apply codecCode_keeps
    | with_reducible apply h_apply
    | with_reducible refine keeps_ite ?_ ?_
    | with_reducible apply keepsParts_of
    | simp only [keeps_mk]
    | intro _
    | split
    | dsimp only [id])

theorem execTableWrite_keeps {s0 : State} {w : CtlWrite} {partner : PairAnswer} {s : State} {tt : State} (hk : Keeps s0 s) (eq_ : execTableWrite w partner s = .next tt) : Keeps s0 tt := by
  unfold execTableWrite at eq_
  repeat' (first | split at eq_ | dsimp only at eq_)
  all_goals (first | (injection eq_ with eq_; subst eq_) | (cases eq_))
  repeat' (first
    | with_reducible assumption
    | with_reducible apply pairApply_keeps
    | with_reducible apply pairWide_keeps
    | with_reducible apply tableWrite_keeps
    | with_reducible apply codecCtl_keeps
    | with_reducible refine keeps_ite ?_ ?_
    | with_reducible apply keepsParts_of
    | simp only [keeps_mk]
    | intro _
    | split
    | dsimp only [id])

theorem switchSlot_keeps {s0 : State} {a : CodecAsk} {s : State} (hk : Keeps s0 s) :
    Keeps s0 (switchSlot a s) := by
  unfold switchSlot
  repeat' (first
    | with_reducible assumption
    | with_reducible refine keeps_ite ?_ ?_
    | with_reducible apply keepsParts_of
    | simp only [keeps_mk]
    | intro _
    | split
    | dsimp only [id])

theorem execSwitch_keeps {s0 : State} {w : CtlWrite} {partner : PairAnswer} {s : State} {tt : State} (hk : Keeps s0 s) (eq_ : execSwitch w partner s = .next tt) : Keeps s0 tt := by
  unfold execSwitch at eq_
  repeat' (first | split at eq_ | dsimp only at eq_)
  all_goals (first | (injection eq_ with eq_; subst eq_) | (cases eq_))
  repeat' (first
    | with_reducible assumption
    | with_reducible apply switchSlot_keeps
    | with_reducible apply pairApply_keeps
    | with_reducible apply pairWide_keeps
    | with_reducible apply codecCtl_keeps
    | with_reducible refine keeps_ite ?_ ?_
    | with_reducible apply keepsParts_of
    | simp only [keeps_mk]
    | intro _
    | split
    | dsimp only [id])

theorem execCodecClr_keeps {s0 : State} {w : CtlWrite} {s : State}  {tt : State} (hk : Keeps s0 s) (eq_ : execCodecClr w s = .next tt) : Keeps s0 tt := by
  unfold execCodecClr at eq_
  repeat' (first | split at eq_ | dsimp only at eq_)
  all_goals (first | (injection eq_ with eq_; subst eq_) | (cases eq_))
  repeat' (first
    | with_reducible assumption
    | with_reducible apply codecCode_keeps
    | with_reducible apply codecCtl_keeps
    | with_reducible refine keeps_ite ?_ ?_
    | with_reducible apply keepsParts_of
    | simp only [keeps_mk]
    | intro _
    | split
    | dsimp only [id])

end Sys2Proof.Machine
end

