-- ==== Sys2Proof/Laws/KeepsTrayReqs.lean ====
section
/-!
SUPPORT. What the operations of Sys2Proof/Machine/TrayReqs.lean keep: the queue, the agreement of the TMR copies, and the canonical
form of the memories (Safety).
-/

namespace Sys2Proof.Machine

theorem resendReq_keeps {s0 : State} {d : Nat} {seq : Nat} {s : State} (hk : Keeps s0 s) :
    Keeps s0 (resendReq d seq s) := by
  unfold resendReq
  repeat' (first
    | with_reducible assumption
    | with_reducible apply trayQueue_keeps
    | with_reducible apply trayDstUpd_keeps
    | with_reducible refine keeps_ite ?_ ?_
    | with_reducible apply keepsParts_of
    | simp only [keeps_mk]
    | intro _
    | split
    | dsimp only [id])

theorem resendWhere_keeps {s0 : State} {sel : Nat → TrayOut → Bool} {s : State}  (hk : Keeps s0 s) :
    Keeps s0 (resendWhere sel s) := by
  unfold resendWhere
  repeat' (first
    | with_reducible assumption
    | with_reducible apply foldl_keeps
    | with_reducible apply foldl_keeps_fst
    | with_reducible apply foldl_keeps_snd
    | with_reducible apply resendReq_keeps
    | with_reducible refine keeps_ite ?_ ?_
    | with_reducible apply keepsParts_of
    | simp only [keeps_mk]
    | intro _
    | split
    | dsimp only [id])

theorem nearLinkLost_keeps {s0 : State} {v : Nat} {queued : List (Nat × Nat)} {s : State}  (hk : Keeps s0 s) :
    Keeps s0 (nearLinkLost v queued s) := by
  unfold nearLinkLost
  repeat' (first
    | with_reducible assumption
    | with_reducible apply resendWhere_keeps
    | with_reducible refine keeps_ite ?_ ?_
    | with_reducible apply keepsParts_of
    | simp only [keeps_mk]
    | intro _
    | split
    | dsimp only [id])

theorem viaLost_keeps {s0 : State} {v : Nat} {s : State}  (hk : Keeps s0 s) :
    Keeps s0 (viaLost v s) := by
  unfold viaLost
  repeat' (first
    | with_reducible assumption
    | with_reducible apply resendWhere_keeps
    | with_reducible refine keeps_ite ?_ ?_
    | with_reducible apply keepsParts_of
    | simp only [keeps_mk]
    | intro _
    | split
    | dsimp only [id])

theorem creditsRepath_keeps {s0 : State} {before : State} {s : State}  (hk : Keeps s0 s) :
    Keeps s0 (creditsRepath before s) := by
  unfold creditsRepath
  repeat' (first
    | with_reducible assumption
    | with_reducible apply foldl_keeps
    | with_reducible apply foldl_keeps_fst
    | with_reducible apply foldl_keeps_snd
    | with_reducible apply resendCredits_keeps
    | with_reducible refine keeps_ite ?_ ?_
    | with_reducible apply keepsParts_of
    | simp only [keeps_mk]
    | intro _
    | split
    | dsimp only [id])

theorem reissue_keeps {s0 : State} {d : Nat} {r : TrayReq} {w : TrayWhy} {s : State}  (hk : Keeps s0 s) :
    Keeps s0 (reissue d r w s) := by
  unfold reissue
  repeat' (first
    | with_reducible assumption
    | with_reducible apply trayIssue_keeps
    | with_reducible refine keeps_ite ?_ ?_
    | with_reducible apply keepsParts_of
    | simp only [keeps_mk]
    | intro _
    | split
    | dsimp only [id])

theorem mirrorEnds_keeps {s0 : State} {id : Nat} {c : Status} {s : State} (hk : Keeps s0 s) :
    Keeps s0 (mirrorEnds id c s) := by
  unfold mirrorEnds
  repeat' (first
    | with_reducible assumption
    | with_reducible apply mirrorAck_keeps
    | with_reducible apply reportEnd_keeps
    | with_reducible refine keeps_ite ?_ ?_
    | with_reducible apply keepsParts_of
    | simp only [keeps_mk]
    | intro _
    | split
    | dsimp only [id])

theorem handoverAgain_keeps {s0 : State} {d : Nat} {q : ReqId} {s : State} (hk : Keeps s0 s) :
    Keeps s0 (handoverAgain d q s) := by
  unfold handoverAgain
  repeat' (first
    | with_reducible assumption
    | with_reducible apply ownerSwap_keeps
    | with_reducible refine keeps_ite ?_ ?_
    | with_reducible apply keepsParts_of
    | simp only [keeps_mk]
    | intro _
    | split
    | dsimp only [id])

theorem pauseAgain_keeps {s0 : State} {d : Nat} {q : ReqId} {s : State} (hk : Keeps s0 s) :
    Keeps s0 (pauseAgain d q s) := by
  unfold pauseAgain
  repeat' (first
    | with_reducible assumption
    | with_reducible apply ownerSwap_keeps
    | with_reducible refine keeps_ite ?_ ?_
    | with_reducible apply keepsParts_of
    | simp only [keeps_mk]
    | intro _
    | split
    | dsimp only [id])

theorem takeOverAgain_keeps {s0 : State} {d : Nat} {q : ReqId} {s : State} (hk : Keeps s0 s) :
    Keeps s0 (takeOverAgain d q s) := by
  unfold takeOverAgain
  repeat' (first
    | with_reducible assumption
    | with_reducible apply ownerSwapFrom_keeps
    | with_reducible refine keeps_ite ?_ ?_
    | with_reducible apply keepsParts_of
    | simp only [keeps_mk]
    | intro _
    | split
    | dsimp only [id])

theorem whyEnd_keeps {s0 : State} {d : Nat} {r : TrayReq} {w : TrayWhy} {local_ : Bool} {c : Status} {payload : WithReads (List Byte)} {s : State} (hk : Keeps s0 s) :
    Keeps s0 (whyEnd d r w local_ c payload s) := by
  unfold whyEnd
  repeat' (first
    | with_reducible assumption
    | with_reducible apply foldl_keeps
    | with_reducible apply foldl_keeps_fst
    | with_reducible apply foldl_keeps_snd
    | with_reducible apply takeOverAgain_keeps
    | with_reducible apply pauseAgain_keeps
    | with_reducible apply handoverAgain_keeps
    | with_reducible apply mirrorEnds_keeps
    | with_reducible apply reissue_keeps
    | with_reducible apply takeOverAnswer_keeps
    | with_reducible apply reserveAnswer_keeps
    | with_reducible apply commitAnswer_keeps
    | with_reducible apply pauseDone_keeps
    | with_reducible apply handoverDone_keeps
    | with_reducible apply commitIssue_keeps
    | with_reducible apply dropAcked_keeps
    | with_reducible apply silverAnswer_keeps
    | with_reducible apply ckptAcked_keeps
    | with_reducible apply recUpd_keeps
    | with_reducible apply reportEnd_keeps
    | with_reducible apply breakChannels_keeps
    | with_reducible refine keeps_ite ?_ ?_
    | with_reducible apply keepsParts_of
    | simp only [keeps_mk]
    | intro _
    | split
    | dsimp only [id])

theorem fenceCount_keeps {s0 : State} {d : Nat} {n : Nat} {c : Status} {s : State}  (hk : Keeps s0 s) :
    Keeps s0 (fenceCount d n c s) := by
  unfold fenceCount
  repeat' (first
    | with_reducible assumption
    | with_reducible refine keeps_ite ?_ ?_
    | with_reducible apply keepsParts_of
    | simp only [keeps_mk]
    | intro _
    | split
    | dsimp only [id])

theorem fencesRun_keeps {s0 : State} {s : State} (hk : Keeps s0 s) :
    Keeps s0 (fencesRun s) := by
  unfold fencesRun
  repeat' (first
    | with_reducible assumption
    | with_reducible apply foldl_keeps
    | with_reducible apply foldl_keeps_fst
    | with_reducible apply foldl_keeps_snd
    | with_reducible apply commitFailed_keeps
    | with_reducible apply commitIssue_keeps
    | with_reducible apply addCond_keeps
    | with_reducible refine keeps_ite ?_ ?_
    | with_reducible apply keepsParts_of
    | simp only [keeps_mk]
    | intro _
    | split
    | dsimp only [id])

theorem trayEnd_keeps {s0 : State} {d : Nat} {n : Nat} {local_ : Bool} {c : Status} {payload : WithReads (List Byte)} {s : State} (hk : Keeps s0 s) :
    Keeps s0 (trayEnd d n local_ c payload s) := by
  unfold trayEnd
  repeat' (first
    | with_reducible assumption
    | with_reducible apply fencesRun_keeps
    | with_reducible apply fenceCount_keeps
    | with_reducible apply whyEnd_keeps
    | with_reducible apply trayDrainAll_keeps
    | with_reducible apply trayDstUpd_keeps
    | with_reducible refine keeps_ite ?_ ?_
    | with_reducible apply keepsParts_of
    | simp only [keeps_mk]
    | intro _
    | split
    | dsimp only [id])

theorem nearDrained_keeps {s0 : State} {s : State}  (hk : Keeps s0 s) :
    Keeps s0 (nearDrained s) := by
  unfold nearDrained
  repeat' (first
    | with_reducible assumption
    | with_reducible apply foldl_keeps
    | with_reducible apply foldl_keeps_fst
    | with_reducible apply foldl_keeps_snd
    | with_reducible apply linkUpd_keeps
    | with_reducible refine keeps_ite ?_ ?_
    | with_reducible apply keepsParts_of
    | simp only [keeps_mk]
    | intro _
    | split
    | dsimp only [id])

theorem sendLstate_keeps {s0 : State} {s : State}  (hk : Keeps s0 s) :
    Keeps s0 (sendLstate s) := by
  unfold sendLstate
  repeat' (first
    | with_reducible assumption
    | with_reducible apply foldl_keeps
    | with_reducible apply foldl_keeps_fst
    | with_reducible apply foldl_keeps_snd
    | with_reducible apply trayPacket_keeps
    | with_reducible refine keeps_ite ?_ ?_
    | with_reducible apply keepsParts_of
    | simp only [keeps_mk]
    | intro _
    | split
    | dsimp only [id])

theorem respAt_keeps {s0 : State} {h : TrayHdr} {payload : WithReads (List Byte)} {s : State} (hk : Keeps s0 s) :
    Keeps s0 (respAt h payload s) := by
  unfold respAt
  repeat' (first
    | with_reducible assumption
    | with_reducible apply nearDrained_keeps
    | with_reducible apply trayEnd_keeps
    | with_reducible apply resendReq_keeps
    | with_reducible refine keeps_ite ?_ ?_
    | with_reducible apply keepsParts_of
    | simp only [keeps_mk]
    | intro _
    | split
    | dsimp only [id])

theorem creditAt_keeps {s0 : State} {h : TrayHdr} {count : Word} {s : State} (hk : Keeps s0 s) :
    Keeps s0 (creditAt h count s) := by
  unfold creditAt
  repeat' (first
    | with_reducible assumption
    | with_reducible apply creditBack_keeps
    | with_reducible refine keeps_ite ?_ ?_
    | with_reducible apply keepsParts_of
    | simp only [keeps_mk]
    | intro _
    | split
    | dsimp only [id])

theorem lstateAt_keeps {s0 : State} {h : TrayHdr} {links : BitVec 15} {role : Byte} {model : Digest} {s : State} (hk : Keeps s0 s) :
    Keeps s0 (lstateAt h links role model s) := by
  unfold lstateAt
  repeat' (first
    | with_reducible assumption
    | with_reducible apply creditsRepath_keeps
    | with_reducible refine keeps_ite ?_ ?_
    | with_reducible apply keepsParts_of
    | simp only [keeps_mk]
    | intro _
    | split
    | dsimp only [id])

theorem noResponse_keeps {s0 : State} {d : Nat} {n : Nat} {s : State}  (hk : Keeps s0 s) :
    Keeps s0 (noResponse d n s) := by
  unfold noResponse
  repeat' (first
    | with_reducible assumption
    | with_reducible apply sendSuspect_keeps
    | with_reducible apply trayDstUpd_keeps
    | with_reducible apply resendReq_keeps
    | with_reducible apply noteErr_keeps
    | with_reducible refine keeps_ite ?_ ?_
    | with_reducible apply keepsParts_of
    | simp only [keeps_mk]
    | intro _
    | split
    | dsimp only [id])

theorem forwardAt_keeps {s0 : State} {p : FwdPacket} {s : State} (hk : Keeps s0 s) :
    Keeps s0 (forwardAt p s) := by
  unfold forwardAt
  repeat' (first
    | with_reducible assumption
    | with_reducible apply trayPacket_keeps
    | with_reducible apply enqueue_keeps
    | with_reducible refine keeps_ite ?_ ?_
    | with_reducible apply keepsParts_of
    | simp only [keeps_mk]
    | intro _
    | split
    | dsimp only [id])

end Sys2Proof.Machine
end

