-- ==== Sys2Proof/Laws/KeepsFormeOps.lean ====
section
/-!
SUPPORT. What the operations of Sys2Proof/Machine/FormeOps.lean keep: the queue, the agreement of the TMR copies, and the canonical
form of the memories (Safety).
-/

namespace Sys2Proof.Machine

theorem startCluster_keeps {x : ClusterProgram} {c : Cluster} (hc : c.memOk = true) : (startCluster x c).memOk = true := by
  unfold startCluster
  repeat' (first
    | with_reducible assumption
    | with_reducible apply foldl_keeps
    | with_reducible apply foldl_keeps_fst
    | with_reducible apply foldl_keeps_snd
    | with_reducible refine keeps_ite ?_ ?_
    | with_reducible apply keepsParts_of
    | simp only [keeps_mk]
    | with_reducible apply memOk_ite
    | with_reducible apply memParts_of
    | simp only [memOk_mk]
    | with_reducible refine memParts_mk ?_ ?_ ?_
    | exact Mem.nil_wf
    | intro _
    | split
    | dsimp only [id])

theorem idleCluster_keeps {st : BitVec 4} {c : Cluster} (hc : c.memOk = true) : (idleCluster st c).memOk = true := by
  unfold idleCluster
  repeat' (first
    | with_reducible assumption
    | with_reducible refine keeps_ite ?_ ?_
    | with_reducible apply keepsParts_of
    | simp only [keeps_mk]
    | with_reducible apply memOk_ite
    | with_reducible apply memParts_of
    | simp only [memOk_mk]
    | with_reducible refine memParts_mk ?_ ?_ ?_
    | exact Mem.nil_wf
    | intro _
    | split
    | dsimp only [id])

theorem loadClusters_keeps {s0 : State} {c : Committed} {rs : List Nat} {s : State}  (hk : Keeps s0 s) :
    Keeps s0 (loadClusters c rs s) := by
  unfold loadClusters
  repeat' (first
    | with_reducible assumption
    | with_reducible apply foldl_keeps
    | with_reducible apply foldl_keeps_fst
    | with_reducible apply foldl_keeps_snd
    | with_reducible apply startCluster_keeps
    | with_reducible apply idleCluster_keeps
    | with_reducible apply clusterUpd_keeps
    | with_reducible refine keeps_ite ?_ ?_
    | with_reducible apply keepsParts_of
    | simp only [keeps_mk]
    | with_reducible apply memOk_ite
    | with_reducible apply memParts_of
    | simp only [memOk_mk]
    | with_reducible refine memParts_mk ?_ ?_ ?_
    | exact Mem.nil_wf
    | intro _
    | split
    | dsimp only [id])

theorem initialMaps_keeps {s0 : State} {c : Committed} {s : State} (hk : Keeps s0 s) :
    Keeps s0 (initialMaps c s) := by
  unfold initialMaps
  repeat' (first
    | with_reducible assumption
    | with_reducible apply foldl_keeps
    | with_reducible apply foldl_keeps_fst
    | with_reducible apply foldl_keeps_snd
    | with_reducible refine keeps_ite ?_ ?_
    | with_reducible apply keepsParts_of
    | simp only [keeps_mk]
    | intro _
    | split
    | dsimp only [id])

theorem channelQps_keeps {s0 : State} {s : State} (hk : Keeps s0 s) :
    Keeps s0 (channelQps s) := by
  unfold channelQps
  repeat' (first
    | with_reducible assumption
    | with_reducible apply foldl_keeps
    | with_reducible apply foldl_keeps_fst
    | with_reducible apply foldl_keeps_snd
    | with_reducible apply qpMake_keeps
    | with_reducible refine keeps_ite ?_ ?_
    | with_reducible apply keepsParts_of
    | simp only [keeps_mk]
    | intro _
    | split
    | dsimp only [id])

theorem podBarriers_keeps {s0 : State} {c : Committed} {ps : List Nat} {s : State}  (hk : Keeps s0 s) :
    Keeps s0 (podBarriers c ps s) := by
  unfold podBarriers
  repeat' (first
    | with_reducible assumption
    | with_reducible apply foldl_keeps
    | with_reducible apply foldl_keeps_fst
    | with_reducible apply foldl_keeps_snd
    | with_reducible apply getD_keeps
    | with_reducible refine keeps_ite ?_ ?_
    | with_reducible apply keepsParts_of
    | simp only [keeps_mk]
    | intro _
    | split
    | dsimp only [id])

theorem clearSched_keeps {s0 : State} {s : State}  (hk : Keeps s0 s) :
    Keeps s0 (clearSched s) := by
  unfold clearSched
  repeat' (first
    | with_reducible assumption
    | with_reducible refine keeps_ite ?_ ?_
    | with_reducible apply keepsParts_of
    | simp only [keeps_mk]
    | (with_reducible refine keepsParts_mem ?_ ?_ ?_ ?_ ?_)
    | with_reducible exact id
    | with_reducible exact Mem.store_wf _ _ _
    | with_reducible exact Mem.clear_wf _ _ _
    | with_reducible exact foldl_clear_wf
    | with_reducible exact (fun _ => Mem.nil_wf)
    | with_reducible exact (all_nil_keeps (p := Saved.memOk))
    | with_reducible exact (all_filter_keeps (p := Saved.memOk))
    | with_reducible exact (all_nil_keeps (p := Cluster.memOk))
    | with_reducible apply all_map_keeps
    | intro _
    | split
    | dsimp only [id])

theorem clearRegions_keeps {s0 : State} {rs : List Nat} {top : Nat → Nat} {s : State} (hk : Keeps s0 s) :
    Keeps s0 (clearRegions rs top s) := by
  unfold clearRegions
  repeat' (first
    | with_reducible assumption
    | with_reducible apply foldl_keeps
    | with_reducible apply foldl_keeps_fst
    | with_reducible apply foldl_keeps_snd
    | with_reducible refine keeps_ite ?_ ?_
    | with_reducible apply keepsParts_of
    | simp only [keeps_mk]
    | with_reducible apply memOk_ite
    | with_reducible apply memParts_of
    | simp only [memOk_mk]
    | with_reducible refine memParts_mk ?_ ?_ ?_
    | with_reducible apply memCase
    | with_reducible apply memAcc
    | with_reducible apply memMail
    | with_reducible apply Mem.store_wf
    | with_reducible apply Mem.clear_wf
    | with_reducible apply Mem.filter_wf
    | with_reducible apply Mem.over_wf
    | exact Mem.nil_wf
    | (with_reducible refine keepsParts_mem ?_ ?_ ?_ ?_ ?_)
    | with_reducible exact id
    | with_reducible exact Mem.store_wf _ _ _
    | with_reducible exact Mem.clear_wf _ _ _
    | with_reducible exact foldl_clear_wf
    | with_reducible exact (fun _ => Mem.nil_wf)
    | with_reducible exact (all_nil_keeps (p := Saved.memOk))
    | with_reducible exact (all_filter_keeps (p := Saved.memOk))
    | with_reducible exact (all_nil_keeps (p := Cluster.memOk))
    | with_reducible apply all_map_keeps
    | intro _
    | split
    | dsimp only [id])

theorem loadEntropy_keeps {s0 : State} {c : Committed} {ps : List Nat} {s : State}  (hk : Keeps s0 s) :
    Keeps s0 (loadEntropy c ps s) := by
  unfold loadEntropy
  repeat' (first
    | with_reducible assumption
    | with_reducible apply foldl_keeps
    | with_reducible apply foldl_keeps_fst
    | with_reducible apply foldl_keeps_snd
    | with_reducible apply getD_keeps
    | with_reducible refine keeps_ite ?_ ?_
    | with_reducible apply keepsParts_of
    | simp only [keeps_mk]
    | intro _
    | split
    | dsimp only [id])

theorem plateStore_keeps {s0 : State} {r : PlateRef} {bs : List Byte} {s : State}  (hk : Keeps s0 s) :
    Keeps s0 (plateStore r bs s) := by
  unfold plateStore
  repeat' (first
    | with_reducible assumption
    | with_reducible apply foldl_keeps
    | with_reducible apply foldl_keeps_fst
    | with_reducible apply foldl_keeps_snd
    | with_reducible apply sliceStore_keeps
    | with_reducible apply t1Write_keeps
    | with_reducible refine keeps_ite ?_ ?_
    | with_reducible apply keepsParts_of
    | simp only [keeps_mk]
    | intro _
    | split
    | dsimp only [id])

theorem platesMove_keeps {s0 : State} {s : State}  (hk : Keeps s0 s) :
    Keeps s0 (platesMove s) := by
  unfold platesMove
  repeat' (first
    | with_reducible assumption
    | with_reducible apply pairFollow_keeps
    | with_reducible refine keeps_ite ?_ ?_
    | with_reducible apply keepsParts_of
    | simp only [keeps_mk]
    | intro _
    | split
    | dsimp only [id])

theorem formeEnd_keeps {s0 : State} {c : Status} {stage : Nat} {sect : Nat} {s : State}  (hk : Keeps s0 s) :
    Keeps s0 (formeEnd c stage sect s) := by
  unfold formeEnd
  repeat' (first
    | with_reducible assumption
    | with_reducible apply noteErr_keeps
    | with_reducible apply msix_keeps
    | with_reducible refine keeps_ite ?_ ?_
    | with_reducible apply keepsParts_of
    | simp only [keeps_mk]
    | intro _
    | split
    | dsimp only [id])

theorem formeCode_keeps {s0 : State} {c : Status} {s : State}  (hk : Keeps s0 s) :
    Keeps s0 (formeCode c s) := by
  unfold formeCode
  repeat' (first
    | with_reducible assumption
    | with_reducible refine keeps_ite ?_ ?_
    | with_reducible apply keepsParts_of
    | simp only [keeps_mk]
    | intro _
    | split
    | dsimp only [id])

theorem formeAnswer_keeps {s0 : State} {c : Status} {s : State}  (hk : Keeps s0 s) :
    Keeps s0 (formeAnswer c s) := by
  unfold formeAnswer
  repeat' (first
    | with_reducible assumption
    | with_reducible apply formeEnd_keeps
    | with_reducible refine keeps_ite ?_ ?_
    | with_reducible apply keepsParts_of
    | simp only [keeps_mk]
    | intro _
    | split
    | dsimp only [id])

theorem keepSections_keeps {s0 : State} {c : Committed} {s : State} (hk : Keeps s0 s) :
    Keeps s0 (keepSections c s) := by
  unfold keepSections
  repeat' (first
    | with_reducible assumption
    | with_reducible apply foldl_keeps
    | with_reducible apply foldl_keeps_fst
    | with_reducible apply foldl_keeps_snd
    | with_reducible refine keeps_ite ?_ ?_
    | with_reducible apply keepsParts_of
    | simp only [keeps_mk]
    | intro _
    | split
    | dsimp only [id])

theorem loadContexts_keeps {s0 : State} {c : Committed} {s : State} (hk : Keeps s0 s) :
    Keeps s0 (loadContexts c s) := by
  unfold loadContexts
  repeat' (first
    | with_reducible assumption
    | with_reducible apply foldl_keeps
    | with_reducible apply foldl_keeps_fst
    | with_reducible apply foldl_keeps_snd
    | with_reducible refine keeps_ite ?_ ?_
    | with_reducible apply keepsParts_of
    | simp only [keeps_mk]
    | intro _
    | split
    | dsimp only [id])

theorem commitConfig_keeps {s0 : State} {c : Committed} {img : FormeImage} {s : State} (hk : Keeps s0 s) :
    Keeps s0 (commitConfig c img s) := by
  unfold commitConfig
  repeat' (first
    | with_reducible assumption
    | with_reducible refine keeps_ite ?_ ?_
    | with_reducible apply keepsParts_of
    | simp only [keeps_mk]
    | intro _
    | split
    | dsimp only [id])

theorem commitClusters_keeps {s0 : State} {c : Committed} {s : State}  (hk : Keeps s0 s) :
    Keeps s0 (commitClusters c s) := by
  unfold commitClusters
  repeat' (first
    | with_reducible assumption
    | with_reducible apply loadClusters_keeps
    | with_reducible apply idleCluster_keeps
    | with_reducible apply clearSched_keeps
    | with_reducible refine keeps_ite ?_ ?_
    | with_reducible apply keepsParts_of
    | simp only [keeps_mk]
    | with_reducible apply memOk_ite
    | with_reducible apply memParts_of
    | simp only [memOk_mk]
    | with_reducible refine memParts_mk ?_ ?_ ?_
    | exact Mem.nil_wf
    | (with_reducible refine keepsParts_mem ?_ ?_ ?_ ?_ ?_)
    | with_reducible exact id
    | with_reducible exact Mem.store_wf _ _ _
    | with_reducible exact Mem.clear_wf _ _ _
    | with_reducible exact foldl_clear_wf
    | with_reducible exact (fun _ => Mem.nil_wf)
    | with_reducible exact (all_nil_keeps (p := Saved.memOk))
    | with_reducible exact (all_filter_keeps (p := Saved.memOk))
    | with_reducible exact (all_nil_keeps (p := Cluster.memOk))
    | with_reducible apply all_map_keeps
    | intro _
    | split
    | dsimp only [id])

theorem commitMemory_keeps {s0 : State} {c : Committed} {k : Nat} {n : Nat} {s : State} (hk : Keeps s0 s) :
    Keeps s0 (commitMemory c k n s) := by
  unfold commitMemory
  repeat' (first
    | with_reducible assumption
    | with_reducible apply keepSections_keeps
    | with_reducible refine keeps_ite ?_ ?_
    | with_reducible apply keepsParts_of
    | simp only [keeps_mk]
    | with_reducible apply memOk_ite
    | with_reducible apply memParts_of
    | simp only [memOk_mk]
    | with_reducible refine memParts_mk ?_ ?_ ?_
    | with_reducible apply memCase
    | with_reducible apply memAcc
    | with_reducible apply memMail
    | with_reducible apply Mem.store_wf
    | with_reducible apply Mem.clear_wf
    | with_reducible apply Mem.filter_wf
    | with_reducible apply Mem.over_wf
    | exact Mem.nil_wf
    | (with_reducible refine keepsParts_mem ?_ ?_ ?_ ?_ ?_)
    | with_reducible exact id
    | with_reducible exact Mem.store_wf _ _ _
    | with_reducible exact Mem.clear_wf _ _ _
    | with_reducible exact foldl_clear_wf
    | with_reducible exact (fun _ => Mem.nil_wf)
    | with_reducible exact (all_nil_keeps (p := Saved.memOk))
    | with_reducible exact (all_filter_keeps (p := Saved.memOk))
    | with_reducible exact (all_nil_keeps (p := Cluster.memOk))
    | with_reducible apply all_map_keeps
    | intro _
    | split
    | dsimp only [id])

theorem formeCommit_keeps {s0 : State} {c : Committed} {img : FormeImage} {s : State}  (hk : Keeps s0 s) :
    Keeps s0 (formeCommit c img s) := by
  unfold formeCommit
  repeat' (first
    | with_reducible assumption
    | with_reducible apply commitClusters_keeps
    | with_reducible apply loadContexts_keeps
    | with_reducible apply commitConfig_keeps
    | with_reducible apply commitMemory_keeps
    | with_reducible apply initialMaps_keeps
    | with_reducible apply podBarriers_keeps
    | with_reducible apply loadEntropy_keeps
    | with_reducible apply sendLstate_keeps
    | with_reducible apply channelQps_keeps
    | with_reducible apply platesMove_keeps
    | with_reducible apply bumpFree_keeps
    | with_reducible apply draw_keeps
    | (with_reducible apply draw_keeps_of (by assumption))
    | with_reducible refine keeps_ite ?_ ?_
    | with_reducible apply keepsParts_of
    | simp only [keeps_mk]
    | with_reducible apply memOk_ite
    | with_reducible apply memParts_of
    | simp only [memOk_mk]
    | with_reducible refine memParts_mk ?_ ?_ ?_
    | exact Mem.nil_wf
    | intro _
    | split
    | dsimp only [id])

theorem formeGone_keeps {s0 : State} {s : State} (hk : Keeps s0 s) :
    Keeps s0 (formeGone s) := by
  unfold formeGone
  repeat' (first
    | with_reducible assumption
    | with_reducible apply pairFollow_keeps
    | with_reducible apply clearRegions_keeps
    | with_reducible apply clearSched_keeps
    | with_reducible apply idleCluster_keeps
    | with_reducible refine keeps_ite ?_ ?_
    | with_reducible apply keepsParts_of
    | simp only [keeps_mk]
    | with_reducible apply memOk_ite
    | with_reducible apply memParts_of
    | simp only [memOk_mk]
    | with_reducible refine memParts_mk ?_ ?_ ?_
    | with_reducible apply memCase
    | with_reducible apply memAcc
    | with_reducible apply memMail
    | with_reducible apply Mem.store_wf
    | with_reducible apply Mem.clear_wf
    | with_reducible apply Mem.filter_wf
    | with_reducible apply Mem.over_wf
    | exact Mem.nil_wf
    | (with_reducible refine keepsParts_mem ?_ ?_ ?_ ?_ ?_)
    | with_reducible exact id
    | with_reducible exact Mem.store_wf _ _ _
    | with_reducible exact Mem.clear_wf _ _ _
    | with_reducible exact foldl_clear_wf
    | with_reducible exact (fun _ => Mem.nil_wf)
    | with_reducible exact (all_nil_keeps (p := Saved.memOk))
    | with_reducible exact (all_filter_keeps (p := Saved.memOk))
    | with_reducible exact (all_nil_keeps (p := Cluster.memOk))
    | with_reducible apply all_map_keeps
    | intro _
    | split
    | dsimp only [id])

theorem freeRetired_keeps {s0 : State} {s : State}  (hk : Keeps s0 s) :
    Keeps s0 (freeRetired s) := by
  unfold freeRetired
  repeat' (first
    | with_reducible assumption
    | with_reducible refine keeps_ite ?_ ?_
    | with_reducible apply keepsParts_of
    | simp only [keeps_mk]
    | intro _
    | split
    | dsimp only [id])

theorem unloadStart_keeps {s0 : State} {s : State} (hk : Keeps s0 s) :
    Keeps s0 (unloadStart s) := by
  unfold unloadStart
  repeat' (first
    | with_reducible assumption
    | with_reducible apply writeBack_keeps
    | with_reducible apply pairFollow_keeps
    | with_reducible refine keeps_ite ?_ ?_
    | with_reducible apply keepsParts_of
    | simp only [keeps_mk]
    | intro _
    | split
    | dsimp only [id])

theorem unloadDone_keeps {s0 : State} {s : State}  (hk : Keeps s0 s) :
    Keeps s0 (unloadDone s) := by
  unfold unloadDone
  repeat' (first
    | with_reducible assumption
    | with_reducible apply silverClear_keeps
    | with_reducible apply freeRetired_keeps
    | with_reducible apply formeGone_keeps
    | with_reducible refine keeps_ite ?_ ?_
    | with_reducible apply keepsParts_of
    | simp only [keeps_mk]
    | intro _
    | split
    | dsimp only [id])

theorem drainShelve_keeps {s0 : State} {s : State}  (hk : Keeps s0 s) :
    Keeps s0 (drainShelve s) := by
  unfold drainShelve
  repeat' (first
    | with_reducible assumption
    | with_reducible apply foldl_keeps
    | with_reducible apply foldl_keeps_fst
    | with_reducible apply foldl_keeps_snd
    | with_reducible apply shelveStart_keeps
    | with_reducible refine keeps_ite ?_ ?_
    | with_reducible apply keepsParts_of
    | simp only [keeps_mk]
    | intro _
    | split
    | dsimp only [id])

theorem drainEnd_keeps {s0 : State} {s : State} (hk : Keeps s0 s) :
    Keeps s0 (drainEnd s) := by
  unfold drainEnd
  repeat' (first
    | with_reducible assumption
    | with_reducible apply writeBack_keeps
    | with_reducible apply formeEnd_keeps
    | with_reducible apply clearRegions_keeps
    | with_reducible refine keeps_ite ?_ ?_
    | with_reducible apply keepsParts_of
    | simp only [keeps_mk]
    | with_reducible apply memOk_ite
    | with_reducible apply memParts_of
    | simp only [memOk_mk]
    | with_reducible refine memParts_mk ?_ ?_ ?_
    | with_reducible apply memCase
    | with_reducible apply memAcc
    | with_reducible apply memMail
    | with_reducible apply Mem.store_wf
    | with_reducible apply Mem.clear_wf
    | with_reducible apply Mem.filter_wf
    | with_reducible apply Mem.over_wf
    | exact Mem.nil_wf
    | (with_reducible refine keepsParts_mem ?_ ?_ ?_ ?_ ?_)
    | with_reducible exact id
    | with_reducible exact Mem.store_wf _ _ _
    | with_reducible exact Mem.clear_wf _ _ _
    | with_reducible exact foldl_clear_wf
    | with_reducible exact (fun _ => Mem.nil_wf)
    | with_reducible exact (all_nil_keeps (p := Saved.memOk))
    | with_reducible exact (all_filter_keeps (p := Saved.memOk))
    | with_reducible exact (all_nil_keeps (p := Cluster.memOk))
    | with_reducible apply all_map_keeps
    | intro _
    | split
    | dsimp only [id])

theorem replaceCommit_keeps {s0 : State} {old : Committed} {new : Committed} {img : FormeImage} {s : State} (hk : Keeps s0 s) :
    Keeps s0 (replaceCommit old new img s) := by
  unfold replaceCommit
  repeat' (first
    | with_reducible assumption
    | with_reducible apply foldl_keeps
    | with_reducible apply foldl_keeps_fst
    | with_reducible apply foldl_keeps_snd
    | with_reducible apply sendLstate_keeps
    | with_reducible apply keepSections_keeps
    | with_reducible apply formeEnd_keeps
    | with_reducible apply platesMove_keeps
    | with_reducible apply loadEntropy_keeps
    | with_reducible apply podBarriers_keeps
    | with_reducible apply channelQps_keeps
    | with_reducible apply loadClusters_keeps
    | with_reducible refine keeps_ite ?_ ?_
    | with_reducible apply keepsParts_of
    | simp only [keeps_mk]
    | intro _
    | split
    | dsimp only [id])

theorem formeReopen_keeps {s0 : State} {s : State} (hk : Keeps s0 s) :
    Keeps s0 (formeReopen s) := by
  unfold formeReopen
  repeat' (first
    | with_reducible assumption
    | with_reducible refine keeps_ite ?_ ?_
    | with_reducible apply keepsParts_of
    | simp only [keeps_mk]
    | intro _
    | split
    | dsimp only [id])

end Sys2Proof.Machine
end

