-- ==== Sys2Proof/Laws/KeepsForme.lean ====
section
/-!
SUPPORT. What the operations of Sys2Proof/Machine/Forme.lean keep: the queue, the agreement of the TMR copies, and the canonical
form of the memories (Safety).
-/

namespace Sys2Proof.Machine

theorem formeCtl_keeps {s0 : State} {w : CtlWrite} {own : Nat} {run : State → State} {s : State} (h_run : ∀ (u : State), Keeps s0 u → Keeps s0 (run u)) (hk : Keeps s0 s) :
    Keeps s0 (formeCtl w own run s) := by
  unfold formeCtl
  repeat' (first
    | with_reducible assumption
    | with_reducible apply formeCode_keeps
    | with_reducible apply ctl_keeps
    | with_reducible apply h_run
    | with_reducible refine keeps_ite ?_ ?_
    | with_reducible apply keepsParts_of
    | simp only [keeps_mk]
    | intro _
    | split
    | dsimp only [id])

theorem formeRun_keeps {s0 : State} {x : FormeCmd} {s : State}  (hk : Keeps s0 s) :
    Keeps s0 (formeRun x s) := by
  unfold formeRun
  repeat' (first
    | with_reducible assumption
    | with_reducible refine keeps_ite ?_ ?_
    | with_reducible apply keepsParts_of
    | simp only [keeps_mk]
    | intro _
    | split
    | dsimp only [id])

theorem loadStart_keeps {s0 : State} {s : State}  (hk : Keeps s0 s) :
    Keeps s0 (loadStart s) := by
  unfold loadStart
  repeat' (first
    | with_reducible assumption
    | with_reducible apply formeEnd_keeps
    | with_reducible apply formeRun_keeps
    | with_reducible refine keeps_ite ?_ ?_
    | with_reducible apply keepsParts_of
    | simp only [keeps_mk]
    | intro _
    | split
    | dsimp only [id])

theorem execFormeLoad_keeps {s0 : State} {w : CtlWrite} {s : State}  {tt : State} (hk : Keeps s0 s) (eq_ : execFormeLoad w s = .next tt) : Keeps s0 tt := by
  unfold execFormeLoad at eq_
  repeat' (first | split at eq_ | dsimp only at eq_)
  all_goals (first | (injection eq_ with eq_; subst eq_) | (cases eq_))
  repeat' (first
    | with_reducible assumption
    | with_reducible apply loadStart_keeps
    | with_reducible apply formeCtl_keeps
    | with_reducible refine keeps_ite ?_ ?_
    | with_reducible apply keepsParts_of
    | simp only [keeps_mk]
    | intro _
    | split
    | dsimp only [id])

theorem loadRead_keeps {s0 : State} {r : ImageRead} {s : State}  (hk : Keeps s0 s) :
    Keeps s0 (loadRead r s) := by
  unfold loadRead
  repeat' (first
    | with_reducible assumption
    | with_reducible apply formeCommit_keeps
    | with_reducible apply formeEnd_keeps
    | with_reducible refine keeps_ite ?_ ?_
    | with_reducible apply keepsParts_of
    | simp only [keeps_mk]
    | intro _
    | split
    | dsimp only [id])

theorem replaceRead_keeps {s0 : State} {r : ImageRead} {s : State} (hk : Keeps s0 s) :
    Keeps s0 (replaceRead r s) := by
  unfold replaceRead
  repeat' (first
    | with_reducible assumption
    | with_reducible apply replaceCommit_keeps
    | with_reducible apply formeEnd_keeps
    | with_reducible refine keeps_ite ?_ ?_
    | with_reducible apply keepsParts_of
    | simp only [keeps_mk]
    | intro _
    | split
    | dsimp only [id])

theorem plateRead_keeps {s0 : State} {r : ImageRead} {s : State}  (hk : Keeps s0 s) :
    Keeps s0 (plateRead r s) := by
  unfold plateRead
  repeat' (first
    | with_reducible assumption
    | with_reducible apply foldl_keeps
    | with_reducible apply foldl_keeps_fst
    | with_reducible apply foldl_keeps_snd
    | with_reducible apply formeAnswer_keeps
    | with_reducible apply plateStore_keeps
    | with_reducible apply platesMove_keeps
    | with_reducible apply formeEnd_keeps
    | with_reducible refine keeps_ite ?_ ?_
    | with_reducible apply keepsParts_of
    | simp only [keeps_mk]
    | intro _
    | split
    | dsimp only [id])

theorem formeImage_keeps {s0 : State} {r : ImageRead} {s : State}  (hk : Keeps s0 s) :
    Keeps s0 (formeImage r s) := by
  unfold formeImage
  repeat' (first
    | with_reducible assumption
    | with_reducible apply replaceRead_keeps
    | with_reducible apply plateRead_keeps
    | with_reducible apply loadRead_keeps
    | with_reducible refine keeps_ite ?_ ?_
    | with_reducible apply keepsParts_of
    | simp only [keeps_mk]
    | intro _
    | split
    | dsimp only [id])

theorem execFormeImageReadDone_keeps {s0 : State} {r : ImageRead} {s : State}  {tt : State} (hk : Keeps s0 s) (eq_ : execFormeImageReadDone r s = .next tt) : Keeps s0 tt := by
  unfold execFormeImageReadDone at eq_
  repeat' (first | split at eq_ | dsimp only at eq_)
  all_goals (first | (injection eq_ with eq_; subst eq_) | (cases eq_))
  repeat' (first
    | with_reducible assumption
    | with_reducible apply formeImage_keeps
    | with_reducible refine keeps_ite ?_ ?_
    | with_reducible apply keepsParts_of
    | simp only [keeps_mk]
    | intro _
    | split
    | dsimp only [id])

theorem execPlate_keeps {s0 : State} {w : CtlWrite} {s : State}  {tt : State} (hk : Keeps s0 s) (eq_ : execPlate w s = .next tt) : Keeps s0 tt := by
  unfold execPlate at eq_
  repeat' (first | split at eq_ | dsimp only at eq_)
  all_goals (first | (injection eq_ with eq_; subst eq_) | (cases eq_))
  repeat' (first
    | with_reducible assumption
    | with_reducible apply formeAnswer_keeps
    | with_reducible apply formeCtl_keeps
    | with_reducible apply formeRun_keeps
    | with_reducible refine keeps_ite ?_ ?_
    | with_reducible apply keepsParts_of
    | simp only [keeps_mk]
    | intro _
    | split
    | dsimp only [id])

theorem execFormeUnload_keeps {s0 : State} {w : CtlWrite} {s : State}  {tt : State} (hk : Keeps s0 s) (eq_ : execFormeUnload w s = .next tt) : Keeps s0 tt := by
  unfold execFormeUnload at eq_
  repeat' (first | split at eq_ | dsimp only at eq_)
  all_goals (first | (injection eq_ with eq_; subst eq_) | (cases eq_))
  repeat' (first
    | with_reducible assumption
    | with_reducible apply formeAnswer_keeps
    | with_reducible apply unloadStart_keeps
    | with_reducible apply formeCtl_keeps
    | with_reducible refine keeps_ite ?_ ?_
    | with_reducible apply keepsParts_of
    | simp only [keeps_mk]
    | intro _
    | split
    | dsimp only [id])

theorem execUnloadClearDone_keeps {s0 : State} {s : State} {tt : State} (hk : Keeps s0 s) (eq_ : execUnloadClearDone s = .next tt) : Keeps s0 tt := by
  unfold execUnloadClearDone at eq_
  repeat' (first | split at eq_ | dsimp only at eq_)
  all_goals (first | (injection eq_ with eq_; subst eq_) | (cases eq_))
  repeat' (first
    | with_reducible assumption
    | with_reducible apply unloadDone_keeps
    | with_reducible apply formeAnswer_keeps
    | with_reducible refine keeps_ite ?_ ?_
    | with_reducible apply keepsParts_of
    | simp only [keeps_mk]
    | intro _
    | split
    | dsimp only [id])

theorem drainStart_keeps {s0 : State} {s : State}  (hk : Keeps s0 s) :
    Keeps s0 (drainStart s) := by
  unfold drainStart
  repeat' (first
    | with_reducible assumption
    | with_reducible apply drainShelve_keeps
    | with_reducible apply formeRun_keeps
    | with_reducible refine keeps_ite ?_ ?_
    | with_reducible apply keepsParts_of
    | simp only [keeps_mk]
    | intro _
    | split
    | dsimp only [id])

theorem execDrain_keeps {s0 : State} {w : CtlWrite} {s : State}  {tt : State} (hk : Keeps s0 s) (eq_ : execDrain w s = .next tt) : Keeps s0 tt := by
  unfold execDrain at eq_
  repeat' (first | split at eq_ | dsimp only at eq_)
  all_goals (first | (injection eq_ with eq_; subst eq_) | (cases eq_))
  repeat' (first
    | with_reducible assumption
    | with_reducible apply formeAnswer_keeps
    | with_reducible apply drainStart_keeps
    | with_reducible apply formeCtl_keeps
    | with_reducible refine keeps_ite ?_ ?_
    | with_reducible apply keepsParts_of
    | simp only [keeps_mk]
    | intro _
    | split
    | dsimp only [id])

theorem execDrainComplete_keeps {s0 : State} {s : State}  {tt : State} (hk : Keeps s0 s) (eq_ : execDrainComplete s = .next tt) : Keeps s0 tt := by
  unfold execDrainComplete at eq_
  repeat' (first | split at eq_ | dsimp only at eq_)
  all_goals (first | (injection eq_ with eq_; subst eq_) | (cases eq_))
  repeat' (first
    | with_reducible assumption
    | with_reducible apply drainEnd_keeps
    | with_reducible refine keeps_ite ?_ ?_
    | with_reducible apply keepsParts_of
    | simp only [keeps_mk]
    | intro _
    | split
    | dsimp only [id])

theorem execReplace_keeps {s0 : State} {w : CtlWrite} {s : State}  {tt : State} (hk : Keeps s0 s) (eq_ : execReplace w s = .next tt) : Keeps s0 tt := by
  unfold execReplace at eq_
  repeat' (first | split at eq_ | dsimp only at eq_)
  all_goals (first | (injection eq_ with eq_; subst eq_) | (cases eq_))
  repeat' (first
    | with_reducible assumption
    | with_reducible apply formeAnswer_keeps
    | with_reducible apply formeCtl_keeps
    | with_reducible apply formeRun_keeps
    | with_reducible refine keeps_ite ?_ ?_
    | with_reducible apply keepsParts_of
    | simp only [keeps_mk]
    | intro _
    | split
    | dsimp only [id])

theorem execFormeResume_keeps {s0 : State} {w : CtlWrite} {s : State}  {tt : State} (hk : Keeps s0 s) (eq_ : execFormeResume w s = .next tt) : Keeps s0 tt := by
  unfold execFormeResume at eq_
  repeat' (first | split at eq_ | dsimp only at eq_)
  all_goals (first | (injection eq_ with eq_; subst eq_) | (cases eq_))
  repeat' (first
    | with_reducible assumption
    | with_reducible apply formeAnswer_keeps
    | with_reducible apply formeReopen_keeps
    | with_reducible apply formeCtl_keeps
    | with_reducible refine keeps_ite ?_ ?_
    | with_reducible apply keepsParts_of
    | simp only [keeps_mk]
    | intro _
    | split
    | dsimp only [id])

end Sys2Proof.Machine
end

