-- ==== Sys2Proof/Laws/KeepsFormeLoad.lean ====
section
/-!
SUPPORT. What the operations of Sys2Proof/Machine/FormeLoad.lean keep: the queue, the agreement of the TMR copies, and the canonical
form of the memories (Safety).
-/

namespace Sys2Proof.Machine

theorem candidate_keeps {s0 : State} {c : Committed} {full : Bool} {s : State} (hk : Keeps s0 s) :
    Keeps s0 (candidate c full s) := by
  unfold candidate
  repeat' (first
    | with_reducible assumption
    | with_reducible apply initialMaps_keeps
    | with_reducible refine keeps_ite ?_ ?_
    | with_reducible apply keepsParts_of
    | simp only [keeps_mk]
    | intro _
    | split
    | dsimp only [id])

theorem judged_keeps {s0 : State} {v : State} {n : Nat} {x : ClusterProgram} (hk : Keeps s0 v) :
    Keeps s0 (judged v n x) := by
  unfold judged
  repeat' (first
    | with_reducible assumption
    | with_reducible apply clusterUpd_keeps
    | with_reducible apply startCluster_keeps
    | with_reducible refine keeps_ite ?_ ?_
    | with_reducible apply keepsParts_of
    | simp only [keeps_mk]
    | with_reducible apply memOk_ite
    | with_reducible apply memParts_of
    | simp only [memOk_mk]
    | with_reducible refine memParts_mk ?_ ?_ ?_
    | exact Mem.nil_wf
    | intro _
    | split
    | dsimp only [id])

end Sys2Proof.Machine
end

