-- ==== Sys2Proof/Laws/KeepsReset.lean ====
section
/-!
SUPPORT. What the operations of Sys2Proof/Machine/Reset.lean keep: the queue, the agreement of the TMR copies, and the canonical
form of the memories (Safety).
-/

namespace Sys2Proof.Machine

theorem writeRecord_keeps {s0 : State} {upd : RepairRecord → RepairRecord} {s : State}  (hk : Keeps s0 s) :
    Keeps s0 (writeRecord upd s) := by
  unfold writeRecord
  repeat' (first
    | with_reducible assumption
    | with_reducible exact .inl rfl
    | with_reducible exact .inr (tmrAll_agree _)
    | with_reducible apply getD_keeps
    | with_reducible apply emit_keeps
    | with_reducible refine keeps_ite ?_ ?_
    | with_reducible apply keepsParts_of
    | simp only [keeps_mk]
    | with_reducible exact id
    | with_reducible exact (fun _ => Mem.nil_wf)
    | with_reducible exact (all_nil_keeps (p := Saved.memOk))
    | with_reducible exact (all_nil_keeps (p := Cluster.memOk))
    | (with_reducible refine keepsParts_tmr ?_ ?_ ?_ ?_ ?_ ?_ ?_ ?_)
    | exact .inr rfl
    | exact .inl rfl
    | exact .inr (tmrAll_agree _)
    | intro _
    | split
    | dsimp only [id])

theorem recordFatal_keeps {s0 : State} {cause : Nat} {s : State}  (hk : Keeps s0 s) :
    Keeps s0 (recordFatal cause s) := by
  unfold recordFatal
  repeat' (first
    | with_reducible assumption
    | with_reducible exact .inl rfl
    | with_reducible exact .inr (tmrAll_agree _)
    | with_reducible apply msix_keeps
    | with_reducible refine keeps_ite ?_ ?_
    | with_reducible apply keepsParts_of
    | simp only [keeps_mk]
    | with_reducible exact id
    | with_reducible exact (fun _ => Mem.nil_wf)
    | with_reducible exact (all_nil_keeps (p := Saved.memOk))
    | with_reducible exact (all_nil_keeps (p := Cluster.memOk))
    | (with_reducible refine keepsParts_tmr ?_ ?_ ?_ ?_ ?_ ?_ ?_ ?_)
    | exact .inr rfl
    | exact .inl rfl
    | exact .inr (tmrAll_agree _)
    | intro _
    | split
    | dsimp only [id])

theorem sense_keeps {s0 : State} {s : State}  (hk : Keeps s0 s) :
    Keeps s0 (sense s) := by
  unfold sense
  repeat' (first
    | with_reducible assumption
    | with_reducible exact .inl rfl
    | with_reducible exact .inr (tmrAll_agree _)
    | with_reducible refine keeps_ite ?_ ?_
    | with_reducible apply keepsParts_of
    | simp only [keeps_mk]
    | with_reducible exact id
    | with_reducible exact (fun _ => Mem.nil_wf)
    | with_reducible exact (all_nil_keeps (p := Saved.memOk))
    | with_reducible exact (all_nil_keeps (p := Cluster.memOk))
    | (with_reducible refine keepsParts_tmr ?_ ?_ ?_ ?_ ?_ ?_ ?_ ?_)
    | exact .inr rfl
    | exact .inl rfl
    | exact .inr (tmrAll_agree _)
    | intro _
    | split
    | dsimp only [id])

theorem stopBegins_keeps {s0 : State} {wb : Bool} {sr : Bool} {s : State} (hk : Keeps s0 s) :
    Keeps s0 (stopBegins wb sr s) := by
  unfold stopBegins
  repeat' (first
    | with_reducible assumption
    | with_reducible exact .inl rfl
    | with_reducible exact .inr (tmrAll_agree _)
    | with_reducible apply foldl_keeps
    | with_reducible apply foldl_keeps_fst
    | with_reducible apply foldl_keeps_snd
    | with_reducible apply sense_keeps
    | with_reducible apply writeBack_keeps
    | with_reducible refine keeps_ite ?_ ?_
    | with_reducible apply keepsParts_of
    | simp only [keeps_mk]
    | with_reducible apply memOk_ite
    | with_reducible apply memParts_of
    | simp only [memOk_mk]
    | with_reducible refine memParts_mk ?_ ?_ ?_
    | with_reducible apply memCase
    | with_reducible apply memAcc
    | with_reducible apply memMail
    | with_reducible apply Mem.store_wf
    | with_reducible apply Mem.clear_wf
    | with_reducible apply Mem.filter_wf
    | with_reducible apply Mem.over_wf
    | exact Mem.nil_wf
    | (with_reducible refine keepsParts_mem ?_ ?_ ?_ ?_ ?_)
    | with_reducible exact id
    | with_reducible exact Mem.store_wf _ _ _
    | with_reducible exact Mem.clear_wf _ _ _
    | with_reducible exact foldl_clear_wf
    | with_reducible exact (fun _ => Mem.nil_wf)
    | with_reducible exact (all_nil_keeps (p := Saved.memOk))
    | with_reducible exact (all_filter_keeps (p := Saved.memOk))
    | with_reducible exact (all_nil_keeps (p := Cluster.memOk))
    | with_reducible apply all_map_keeps
    | (with_reducible refine keepsParts_tmr ?_ ?_ ?_ ?_ ?_ ?_ ?_ ?_)
    | exact .inr rfl
    | exact .inl rfl
    | exact .inr (tmrAll_agree _)
    | intro _
    | split
    | dsimp only [id])

theorem rampEnds_keeps {s0 : State} {s : State} (hk : Keeps s0 s) :
    Keeps s0 (rampEnds s) := by
  unfold rampEnds
  repeat' (first
    | with_reducible assumption
    | with_reducible exact .inl rfl
    | with_reducible exact .inr (tmrAll_agree _)
    | with_reducible apply sense_keeps
    | with_reducible refine keeps_ite ?_ ?_
    | with_reducible apply keepsParts_of
    | simp only [keeps_mk]
    | (with_reducible refine keepsParts_mem ?_ ?_ ?_ ?_ ?_)
    | with_reducible exact id
    | with_reducible exact Mem.store_wf _ _ _
    | with_reducible exact Mem.clear_wf _ _ _
    | with_reducible exact foldl_clear_wf
    | with_reducible exact (fun _ => Mem.nil_wf)
    | with_reducible exact (all_nil_keeps (p := Saved.memOk))
    | with_reducible exact (all_filter_keeps (p := Saved.memOk))
    | with_reducible exact (all_nil_keeps (p := Cluster.memOk))
    | with_reducible apply all_map_keeps
    | (with_reducible refine keepsParts_tmr ?_ ?_ ?_ ?_ ?_ ?_ ?_ ?_)
    | exact .inr rfl
    | exact .inl rfl
    | exact .inr (tmrAll_agree _)
    | intro _
    | split
    | dsimp only [id])

theorem rampStep_keeps {s0 : State} {s : State} (hk : Keeps s0 s) :
    Keeps s0 (rampStep s) := by
  unfold rampStep
  repeat' (first
    | with_reducible assumption
    | with_reducible exact .inl rfl
    | with_reducible exact .inr (tmrAll_agree _)
    | with_reducible apply rampEnds_keeps
    | with_reducible apply sense_keeps
    | with_reducible refine keeps_ite ?_ ?_
    | with_reducible apply keepsParts_of
    | simp only [keeps_mk]
    | (with_reducible refine keepsParts_mem ?_ ?_ ?_ ?_ ?_)
    | with_reducible exact id
    | with_reducible exact Mem.store_wf _ _ _
    | with_reducible exact Mem.clear_wf _ _ _
    | with_reducible exact foldl_clear_wf
    | with_reducible exact (fun _ => Mem.nil_wf)
    | with_reducible exact (all_nil_keeps (p := Saved.memOk))
    | with_reducible exact (all_filter_keeps (p := Saved.memOk))
    | with_reducible exact (all_nil_keeps (p := Cluster.memOk))
    | with_reducible apply all_map_keeps
    | (with_reducible refine keepsParts_tmr ?_ ?_ ?_ ?_ ?_ ?_ ?_ ?_)
    | exact .inr rfl
    | exact .inl rfl
    | exact .inr (tmrAll_agree _)
    | intro _
    | split
    | dsimp only [id])

theorem coldBoot_keeps {s0 : State} {cause : Nat} {b : BoardInputs} {s : State}  (hk : Keeps s0 s) :
    Keeps s0 (coldBoot cause b s) := by
  unfold coldBoot
  repeat' (first
    | with_reducible assumption
    | with_reducible exact .inl rfl
    | with_reducible exact .inr (tmrAll_agree _)
    | with_reducible refine keeps_ite ?_ ?_
    | with_reducible apply keepsParts_of
    | simp only [keeps_mk]
    | with_reducible exact id
    | with_reducible exact (fun _ => Mem.nil_wf)
    | with_reducible exact (all_nil_keeps (p := Saved.memOk))
    | with_reducible exact (all_nil_keeps (p := Cluster.memOk))
    | (with_reducible refine keepsParts_tmr ?_ ?_ ?_ ?_ ?_ ?_ ?_ ?_)
    | exact .inr rfl
    | exact .inl rfl
    | exact .inr (tmrAll_agree _)
    | intro _
    | split
    | dsimp only [id])

theorem applyRecord_keeps {s0 : State} {b : BoardInputs} {s : State}  (hk : Keeps s0 s) :
    Keeps s0 (applyRecord b s) := by
  unfold applyRecord
  repeat' (first
    | with_reducible assumption
    | with_reducible exact .inl rfl
    | with_reducible exact .inr (tmrAll_agree _)
    | with_reducible apply noteErr_keeps
    | with_reducible refine keeps_ite ?_ ?_
    | with_reducible apply keepsParts_of
    | simp only [keeps_mk]
    | with_reducible exact id
    | with_reducible exact (fun _ => Mem.nil_wf)
    | with_reducible exact (all_nil_keeps (p := Saved.memOk))
    | with_reducible exact (all_nil_keeps (p := Cluster.memOk))
    | (with_reducible refine keepsParts_tmr ?_ ?_ ?_ ?_ ?_ ?_ ?_ ?_)
    | exact .inr rfl
    | exact .inl rfl
    | exact .inr (tmrAll_agree _)
    | intro _
    | split
    | dsimp only [id])

theorem channelFailed_keeps {s0 : State} {c : Nat} {s : State}  (hk : Keeps s0 s) :
    Keeps s0 (channelFailed c s) := by
  unfold channelFailed
  repeat' (first
    | with_reducible assumption
    | with_reducible exact .inl rfl
    | with_reducible exact .inr (tmrAll_agree _)
    | with_reducible apply noteErr_keeps
    | with_reducible apply lpcUpd_keeps
    | with_reducible refine keeps_ite ?_ ?_
    | with_reducible apply keepsParts_of
    | simp only [keeps_mk]
    | with_reducible exact id
    | with_reducible exact (fun _ => Mem.nil_wf)
    | with_reducible exact (all_nil_keeps (p := Saved.memOk))
    | with_reducible exact (all_nil_keeps (p := Cluster.memOk))
    | (with_reducible refine keepsParts_tmr ?_ ?_ ?_ ?_ ?_ ?_ ?_ ?_)
    | exact .inr rfl
    | exact .inl rfl
    | exact .inr (tmrAll_agree _)
    | intro _
    | split
    | dsimp only [id])

theorem trainChannels_keeps {s0 : State} {b : BoardInputs} {s : State}  (hk : Keeps s0 s) :
    Keeps s0 (trainChannels b s) := by
  unfold trainChannels
  repeat' (first
    | with_reducible assumption
    | with_reducible exact .inl rfl
    | with_reducible exact .inr (tmrAll_agree _)
    | with_reducible apply foldl_keeps
    | with_reducible apply foldl_keeps_fst
    | with_reducible apply foldl_keeps_snd
    | with_reducible apply channelFailed_keeps
    | with_reducible apply addRepair_keeps
    | with_reducible refine keeps_ite ?_ ?_
    | with_reducible apply keepsParts_of
    | simp only [keeps_mk]
    | with_reducible exact id
    | with_reducible exact (fun _ => Mem.nil_wf)
    | with_reducible exact (all_nil_keeps (p := Saved.memOk))
    | with_reducible exact (all_nil_keeps (p := Cluster.memOk))
    | (with_reducible refine keepsParts_tmr ?_ ?_ ?_ ?_ ?_ ?_ ?_ ?_)
    | exact .inr rfl
    | exact .inl rfl
    | exact .inr (tmrAll_agree _)
    | intro _
    | split
    | dsimp only [id])

theorem coldStart_keeps {s0 : State} {cause : Nat} {b : BoardInputs} {s : State}  (hk : Keeps s0 s) :
    Keeps s0 (coldStart cause b s) := by
  unfold coldStart
  repeat' (first
    | with_reducible assumption
    | with_reducible exact .inl rfl
    | with_reducible exact .inr (tmrAll_agree _)
    | with_reducible apply trainChannels_keeps
    | with_reducible apply applyRecord_keeps
    | with_reducible apply coldBoot_keeps
    | with_reducible refine keeps_ite ?_ ?_
    | with_reducible apply keepsParts_of
    | simp only [keeps_mk]
    | with_reducible exact id
    | with_reducible exact (fun _ => Mem.nil_wf)
    | with_reducible exact (all_nil_keeps (p := Saved.memOk))
    | with_reducible exact (all_nil_keeps (p := Cluster.memOk))
    | (with_reducible refine keepsParts_tmr ?_ ?_ ?_ ?_ ?_ ?_ ?_ ?_)
    | exact .inr rfl
    | exact .inl rfl
    | exact .inr (tmrAll_agree _)
    | intro _
    | split
    | dsimp only [id])

theorem coldReset_keeps {s0 : State} {cause : Nat} {s : State} (hk : Keeps s0 s) :
    Keeps s0 (coldReset cause s) := by
  unfold coldReset
  repeat' (first
    | with_reducible assumption
    | with_reducible apply getD_keeps
    | with_reducible apply coldStart_keeps
    | with_reducible refine keeps_ite ?_ ?_
    | with_reducible apply keepsParts_of
    | simp only [keeps_mk]
    | intro _
    | split
    | dsimp only [id])

theorem recountRefs_keeps {s0 : State} {s : State}  (hk : Keeps s0 s) :
    Keeps s0 (recountRefs s) := by
  unfold recountRefs
  repeat' (first
    | with_reducible assumption
    | with_reducible exact .inl rfl
    | with_reducible exact .inr (tmrAll_agree _)
    | with_reducible refine keeps_ite ?_ ?_
    | with_reducible apply keepsParts_of
    | simp only [keeps_mk]
    | with_reducible exact id
    | with_reducible exact (fun _ => Mem.nil_wf)
    | with_reducible exact (all_nil_keeps (p := Saved.memOk))
    | with_reducible exact (all_nil_keeps (p := Cluster.memOk))
    | (with_reducible refine keepsParts_tmr ?_ ?_ ?_ ?_ ?_ ?_ ?_ ?_)
    | exact .inr rfl
    | exact .inl rfl
    | exact .inr (tmrAll_agree _)
    | intro _
    | split
    | dsimp only [id])

theorem formeWarm_keeps {s0 : State} {s : State}  (hk : Keeps s0 s) :
    Keeps s0 (formeWarm s) := by
  unfold formeWarm
  repeat' (first
    | with_reducible assumption
    | with_reducible exact .inl rfl
    | with_reducible exact .inr (tmrAll_agree _)
    | with_reducible apply unloadDone_keeps
    | with_reducible apply formeEnd_keeps
    | with_reducible refine keeps_ite ?_ ?_
    | with_reducible apply keepsParts_of
    | simp only [keeps_mk]
    | with_reducible exact id
    | with_reducible exact (fun _ => Mem.nil_wf)
    | with_reducible exact (all_nil_keeps (p := Saved.memOk))
    | with_reducible exact (all_nil_keeps (p := Cluster.memOk))
    | (with_reducible refine keepsParts_tmr ?_ ?_ ?_ ?_ ?_ ?_ ?_ ?_)
    | exact .inr rfl
    | exact .inl rfl
    | exact .inr (tmrAll_agree _)
    | intro _
    | split
    | dsimp only [id])

theorem slicesWarm_keeps {s0 : State} {s : State} (hk : Keeps s0 s) :
    Keeps s0 (slicesWarm s) := by
  unfold slicesWarm
  repeat' (first
    | with_reducible assumption
    | with_reducible apply foldl_keeps
    | with_reducible apply foldl_keeps_fst
    | with_reducible apply foldl_keeps_snd
    | with_reducible refine keeps_ite ?_ ?_
    | with_reducible apply keepsParts_of
    | simp only [keeps_mk]
    | with_reducible apply memOk_ite
    | with_reducible apply memParts_of
    | simp only [memOk_mk]
    | with_reducible refine memParts_mk ?_ ?_ ?_
    | with_reducible apply memCase
    | with_reducible apply memAcc
    | with_reducible apply memMail
    | with_reducible apply Mem.store_wf
    | with_reducible apply Mem.clear_wf
    | with_reducible apply Mem.filter_wf
    | with_reducible apply Mem.over_wf
    | exact Mem.nil_wf
    | (with_reducible refine keepsParts_mem ?_ ?_ ?_ ?_ ?_)
    | with_reducible exact id
    | with_reducible exact Mem.store_wf _ _ _
    | with_reducible exact Mem.clear_wf _ _ _
    | with_reducible exact foldl_clear_wf
    | with_reducible exact (fun _ => Mem.nil_wf)
    | with_reducible exact (all_nil_keeps (p := Saved.memOk))
    | with_reducible exact (all_filter_keeps (p := Saved.memOk))
    | with_reducible exact (all_nil_keeps (p := Cluster.memOk))
    | with_reducible apply all_map_keeps
    | intro _
    | split
    | dsimp only [id])

theorem clustersWarm_keeps {s0 : State} {s : State} (hk : Keeps s0 s) :
    Keeps s0 (clustersWarm s) := by
  unfold clustersWarm
  repeat' (first
    | with_reducible assumption
    | with_reducible apply loadClusters_keeps
    | with_reducible refine keeps_ite ?_ ?_
    | with_reducible apply keepsParts_of
    | simp only [keeps_mk]
    | with_reducible apply memOk_ite
    | with_reducible apply memParts_of
    | simp only [memOk_mk]
    | with_reducible refine memParts_mk ?_ ?_ ?_
    | with_reducible apply memCase
    | with_reducible apply memAcc
    | with_reducible apply memMail
    | with_reducible apply Mem.store_wf
    | with_reducible apply Mem.clear_wf
    | with_reducible apply Mem.filter_wf
    | with_reducible apply Mem.over_wf
    | exact Mem.nil_wf
    | (with_reducible refine keepsParts_mem ?_ ?_ ?_ ?_ ?_)
    | with_reducible exact id
    | with_reducible exact Mem.store_wf _ _ _
    | with_reducible exact Mem.clear_wf _ _ _
    | with_reducible exact foldl_clear_wf
    | with_reducible exact (fun _ => Mem.nil_wf)
    | with_reducible exact (all_nil_keeps (p := Saved.memOk))
    | with_reducible exact (all_filter_keeps (p := Saved.memOk))
    | with_reducible exact (all_nil_keeps (p := Cluster.memOk))
    | with_reducible apply all_map_keeps
    | exact all_filter_keeps (p := Cluster.memOk) (by assumption)
    | intro _
    | split
    | dsimp only [id])

theorem rmaWarm_keeps {s0 : State} {s : State} (hk : Keeps s0 s) :
    Keeps s0 (rmaWarm s) := by
  unfold rmaWarm
  repeat' (first
    | with_reducible assumption
    | with_reducible apply foldl_keeps
    | with_reducible apply foldl_keeps_fst
    | with_reducible apply foldl_keeps_snd
    | with_reducible apply qpError_keeps
    | with_reducible apply channelQps_keeps
    | with_reducible refine keeps_ite ?_ ?_
    | with_reducible apply keepsParts_of
    | simp only [keeps_mk]
    | intro _
    | split
    | dsimp only [id])

theorem pairWarm_keeps {s0 : State} {s : State}  (hk : Keeps s0 s) :
    Keeps s0 (pairWarm s) := by
  unfold pairWarm
  repeat' (first
    | with_reducible assumption
    | with_reducible exact .inl rfl
    | with_reducible exact .inr (tmrAll_agree _)
    | with_reducible apply mirrorsAlone_keeps
    | with_reducible apply silverClear_keeps
    | with_reducible apply pairState_keeps
    | with_reducible refine keeps_ite ?_ ?_
    | with_reducible apply keepsParts_of
    | simp only [keeps_mk]
    | with_reducible exact id
    | with_reducible exact (fun _ => Mem.nil_wf)
    | with_reducible exact (all_nil_keeps (p := Saved.memOk))
    | with_reducible exact (all_nil_keeps (p := Cluster.memOk))
    | (with_reducible refine keepsParts_tmr ?_ ?_ ?_ ?_ ?_ ?_ ?_ ?_)
    | exact .inr rfl
    | exact .inl rfl
    | exact .inr (tmrAll_agree _)
    | intro _
    | split
    | dsimp only [id])

theorem hostWarm_keeps {s0 : State} {s : State}  (hk : Keeps s0 s) :
    Keeps s0 (hostWarm s) := by
  unfold hostWarm
  repeat' (first
    | with_reducible assumption
    | with_reducible exact .inl rfl
    | with_reducible exact .inr (tmrAll_agree _)
    | with_reducible refine keeps_ite ?_ ?_
    | with_reducible apply keepsParts_of
    | simp only [keeps_mk]
    | with_reducible exact id
    | with_reducible exact (fun _ => Mem.nil_wf)
    | with_reducible exact (all_nil_keeps (p := Saved.memOk))
    | with_reducible exact (all_nil_keeps (p := Cluster.memOk))
    | (with_reducible refine keepsParts_tmr ?_ ?_ ?_ ?_ ?_ ?_ ?_ ?_)
    | exact .inr rfl
    | exact .inl rfl
    | exact .inr (tmrAll_agree _)
    | intro _
    | split
    | dsimp only [id])

theorem schedWarm_keeps {s0 : State} {s : State}  (hk : Keeps s0 s) :
    Keeps s0 (schedWarm s) := by
  unfold schedWarm
  repeat' (first
    | with_reducible assumption
    | with_reducible exact .inl rfl
    | with_reducible exact .inr (tmrAll_agree _)
    | with_reducible apply loadContexts_keeps
    | with_reducible refine keeps_ite ?_ ?_
    | with_reducible apply keepsParts_of
    | simp only [keeps_mk]
    | with_reducible exact id
    | with_reducible exact (fun _ => Mem.nil_wf)
    | with_reducible exact (all_nil_keeps (p := Saved.memOk))
    | with_reducible exact (all_nil_keeps (p := Cluster.memOk))
    | (with_reducible refine keepsParts_tmr ?_ ?_ ?_ ?_ ?_ ?_ ?_ ?_)
    | exact .inr rfl
    | exact .inl rfl
    | exact .inr (tmrAll_agree _)
    | intro _
    | split
    | dsimp only [id])

theorem registersWarm_keeps {s0 : State} {cause : Nat} {k : Nat} {fatal : Bool} {s : State}  (hk : Keeps s0 s) :
    Keeps s0 (registersWarm cause k fatal s) := by
  unfold registersWarm
  repeat' (first
    | with_reducible assumption
    | with_reducible exact .inl rfl
    | with_reducible exact .inr (tmrAll_agree _)
    | with_reducible apply authFail_keeps
    | with_reducible refine keeps_ite ?_ ?_
    | with_reducible apply keepsParts_of
    | simp only [keeps_mk]
    | with_reducible exact id
    | with_reducible exact (fun _ => Mem.nil_wf)
    | with_reducible exact (all_nil_keeps (p := Saved.memOk))
    | with_reducible exact (all_nil_keeps (p := Cluster.memOk))
    | (with_reducible refine keepsParts_tmr ?_ ?_ ?_ ?_ ?_ ?_ ?_ ?_)
    | exact .inr rfl
    | exact .inl rfl
    | exact .inr (tmrAll_agree _)
    | intro _
    | split
    | dsimp only [id])

theorem stepsWarm_keeps {s0 : State} {s : State} (hk : Keeps s0 s) :
    Keeps s0 (stepsWarm s) := by
  unfold stepsWarm
  repeat' (first
    | with_reducible assumption
    | with_reducible refine keeps_ite ?_ ?_
    | with_reducible apply keepsParts_of
    | simp only [keeps_mk]
    | intro _
    | split
    | dsimp only [id])

theorem warmReset_keeps {s0 : State} {cause : Nat} {fatal : Bool} {s : State} (hk : Keeps s0 s) :
    Keeps s0 (warmReset cause fatal s) := by
  unfold warmReset
  repeat' (first
    | with_reducible assumption
    | with_reducible apply stepsWarm_keeps
    | with_reducible apply registersWarm_keeps
    | with_reducible apply schedWarm_keeps
    | with_reducible apply hostWarm_keeps
    | with_reducible apply pairWarm_keeps
    | with_reducible apply rmaWarm_keeps
    | with_reducible apply clustersWarm_keeps
    | with_reducible apply slicesWarm_keeps
    | with_reducible apply formeWarm_keeps
    | with_reducible apply recountRefs_keeps
    | with_reducible apply draw_keeps
    | with_reducible apply formeGone_keeps
    | (with_reducible apply draw_keeps_of (by assumption))
    | with_reducible refine keeps_ite ?_ ?_
    | with_reducible apply keepsParts_of
    | simp only [keeps_mk]
    | intro _
    | split
    | dsimp only [id])

theorem resetBegins_keeps {s0 : State} {cause : Nat} {cold : Bool} {fatal : Bool} {s : State} (hk : Keeps s0 s) :
    Keeps s0 (resetBegins cause cold fatal s) := by
  unfold resetBegins
  repeat' (first
    | with_reducible assumption
    | with_reducible exact .inl rfl
    | with_reducible exact .inr (tmrAll_agree _)
    | with_reducible apply warmReset_keeps
    | with_reducible apply coldReset_keeps
    | with_reducible refine keeps_ite ?_ ?_
    | with_reducible apply keepsParts_of
    | simp only [keeps_mk]
    | (with_reducible refine keepsParts_mem ?_ ?_ ?_ ?_ ?_)
    | with_reducible exact id
    | with_reducible exact Mem.store_wf _ _ _
    | with_reducible exact Mem.clear_wf _ _ _
    | with_reducible exact foldl_clear_wf
    | with_reducible exact (fun _ => Mem.nil_wf)
    | with_reducible exact (all_nil_keeps (p := Saved.memOk))
    | with_reducible exact (all_filter_keeps (p := Saved.memOk))
    | with_reducible exact (all_nil_keeps (p := Cluster.memOk))
    | with_reducible apply all_map_keeps
    | (with_reducible refine keepsParts_tmr ?_ ?_ ?_ ?_ ?_ ?_ ?_ ?_)
    | exact .inr rfl
    | exact .inl rfl
    | exact .inr (tmrAll_agree _)
    | intro _
    | split
    | dsimp only [id])

theorem afterRamp_keeps {s0 : State} {s : State} (hk : Keeps s0 s) :
    Keeps s0 (afterRamp s) := by
  unfold afterRamp
  repeat' (first
    | with_reducible assumption
    | with_reducible apply resetBegins_keeps
    | with_reducible refine keeps_ite ?_ ?_
    | with_reducible apply keepsParts_of
    | simp only [keeps_mk]
    | intro _
    | split
    | dsimp only [id])

theorem clockTick_keeps {s0 : State} {s : State} (hk : Keeps s0 s) :
    Keeps s0 (clockTick s) := by
  unfold clockTick
  repeat' (first
    | with_reducible assumption
    | with_reducible apply afterRamp_keeps
    | with_reducible apply rampStep_keeps
    | with_reducible apply tbTick_keeps
    | with_reducible refine keeps_ite ?_ ?_
    | with_reducible apply keepsParts_of
    | simp only [keeps_mk]
    | intro _
    | split
    | dsimp only [id])

theorem doReset_keeps {s0 : State} {cause : Nat} {cold : Bool} {fatal : Bool} {s : State} (hk : Keeps s0 s) :
    Keeps s0 (doReset cause cold fatal s) := by
  unfold doReset
  repeat' (first
    | with_reducible assumption
    | with_reducible exact .inl rfl
    | with_reducible exact .inr (tmrAll_agree _)
    | with_reducible apply afterRamp_keeps
    | with_reducible apply rampEnds_keeps
    | with_reducible apply stopBegins_keeps
    | with_reducible refine keeps_ite ?_ ?_
    | with_reducible apply keepsParts_of
    | simp only [keeps_mk]
    | (with_reducible refine keepsParts_mem ?_ ?_ ?_ ?_ ?_)
    | with_reducible exact id
    | with_reducible exact Mem.store_wf _ _ _
    | with_reducible exact Mem.clear_wf _ _ _
    | with_reducible exact foldl_clear_wf
    | with_reducible exact (fun _ => Mem.nil_wf)
    | with_reducible exact (all_nil_keeps (p := Saved.memOk))
    | with_reducible exact (all_filter_keeps (p := Saved.memOk))
    | with_reducible exact (all_nil_keeps (p := Cluster.memOk))
    | with_reducible apply all_map_keeps
    | (with_reducible refine keepsParts_tmr ?_ ?_ ?_ ?_ ?_ ?_ ?_ ?_)
    | exact .inr rfl
    | exact .inl rfl
    | exact .inr (tmrAll_agree _)
    | intro _
    | split
    | dsimp only [id])

theorem requestReset_keeps {s0 : State} {cause : Nat} {s : State}  (hk : Keeps s0 s) :
    Keeps s0 (requestReset cause s) := by
  unfold requestReset
  repeat' (first
    | with_reducible assumption
    | with_reducible exact .inl rfl
    | with_reducible exact .inr (tmrAll_agree _)
    | with_reducible apply doReset_keeps
    | with_reducible refine keeps_ite ?_ ?_
    | with_reducible apply keepsParts_of
    | simp only [keeps_mk]
    | with_reducible exact id
    | with_reducible exact (fun _ => Mem.nil_wf)
    | with_reducible exact (all_nil_keeps (p := Saved.memOk))
    | with_reducible exact (all_nil_keeps (p := Cluster.memOk))
    | (with_reducible refine keepsParts_tmr ?_ ?_ ?_ ?_ ?_ ?_ ?_ ?_)
    | exact .inr rfl
    | exact .inl rfl
    | exact .inr (tmrAll_agree _)
    | intro _
    | split
    | dsimp only [id])

theorem fatalStop_keeps {s0 : State} {cause : Nat} {cold : Bool} {s : State}  (hk : Keeps s0 s) :
    Keeps s0 (fatalStop cause cold s) := by
  unfold fatalStop
  repeat' (first
    | with_reducible assumption
    | with_reducible exact .inl rfl
    | with_reducible exact .inr (tmrAll_agree _)
    | with_reducible apply writeRecord_keeps
    | with_reducible apply recordFatal_keeps
    | with_reducible apply doReset_keeps
    | with_reducible refine keeps_ite ?_ ?_
    | with_reducible apply keepsParts_of
    | simp only [keeps_mk]
    | with_reducible exact id
    | with_reducible exact (fun _ => Mem.nil_wf)
    | with_reducible exact (all_nil_keeps (p := Saved.memOk))
    | with_reducible exact (all_nil_keeps (p := Cluster.memOk))
    | (with_reducible refine keepsParts_tmr ?_ ?_ ?_ ?_ ?_ ?_ ?_ ?_)
    | exact .inr rfl
    | exact .inl rfl
    | exact .inr (tmrAll_agree _)
    | intro _
    | split
    | dsimp only [id])

theorem thermalStop_keeps {s0 : State} {s : State} (hk : Keeps s0 s) :
    Keeps s0 (thermalStop s) := by
  unfold thermalStop
  repeat' (first
    | with_reducible assumption
    | with_reducible exact .inl rfl
    | with_reducible exact .inr (tmrAll_agree _)
    | with_reducible apply stopBegins_keeps
    | with_reducible apply recordFatal_keeps
    | with_reducible apply writeRecord_keeps
    | with_reducible refine keeps_ite ?_ ?_
    | with_reducible apply keepsParts_of
    | simp only [keeps_mk]
    | (with_reducible refine keepsParts_mem ?_ ?_ ?_ ?_ ?_)
    | with_reducible exact id
    | with_reducible exact Mem.store_wf _ _ _
    | with_reducible exact Mem.clear_wf _ _ _
    | with_reducible exact foldl_clear_wf
    | with_reducible exact (fun _ => Mem.nil_wf)
    | with_reducible exact (all_nil_keeps (p := Saved.memOk))
    | with_reducible exact (all_filter_keeps (p := Saved.memOk))
    | with_reducible exact (all_nil_keeps (p := Cluster.memOk))
    | with_reducible apply all_map_keeps
    | (with_reducible refine keepsParts_tmr ?_ ?_ ?_ ?_ ?_ ?_ ?_ ?_)
    | exact .inr rfl
    | exact .inl rfl
    | exact .inr (tmrAll_agree _)
    | intro _
    | split
    | dsimp only [id])

end Sys2Proof.Machine
end

