-- ==== Sys2Proof/Laws/KeepsPower.lean ====
section
/-!
SUPPORT. What the operations of Sys2Proof/Machine/Power.lean keep: the queue, the agreement of the TMR copies, and the canonical
form of the memories (Safety).
-/

namespace Sys2Proof.Machine

theorem execPwrgdAssert_keeps {s0 : State} {b : BoardInputs} {s : State}  {tt : State} (hk : Keeps s0 s) (eq_ : execPwrgdAssert b s = .next tt) : Keeps s0 tt := by
  unfold execPwrgdAssert at eq_
  repeat' (first | split at eq_ | dsimp only at eq_)
  all_goals (first | (injection eq_ with eq_; subst eq_) | (cases eq_))
  repeat' (first
    | with_reducible assumption
    | with_reducible exact .inl rfl
    | with_reducible exact .inr (tmrAll_agree _)
    | with_reducible apply coldStart_keeps
    | with_reducible refine keeps_ite ?_ ?_
    | with_reducible apply keepsParts_of
    | simp only [keeps_mk]
    | with_reducible exact id
    | with_reducible exact (fun _ => Mem.nil_wf)
    | with_reducible exact (all_nil_keeps (p := Saved.memOk))
    | with_reducible exact (all_nil_keeps (p := Cluster.memOk))
    | (with_reducible refine keepsParts_tmr ?_ ?_ ?_ ?_ ?_ ?_ ?_ ?_)
    | exact .inr rfl
    | exact .inl rfl
    | exact .inr (tmrAll_agree _)
    | intro _
    | split
    | dsimp only [id])

theorem execPwrgdDeassert_keeps {s0 : State} {s : State}  {tt : State} (hk : Keeps s0 s) (eq_ : execPwrgdDeassert s = .next tt) : Keeps s0 tt := by
  unfold execPwrgdDeassert at eq_
  repeat' (first | split at eq_ | dsimp only at eq_)
  all_goals (first | (injection eq_ with eq_; subst eq_) | (cases eq_))
  repeat' (first
    | with_reducible assumption
    | with_reducible exact .inl rfl
    | with_reducible exact .inr (tmrAll_agree _)
    | with_reducible refine keeps_ite ?_ ?_
    | with_reducible apply keepsParts_of
    | simp only [keeps_mk]
    | with_reducible exact id
    | with_reducible exact (fun _ => Mem.nil_wf)
    | with_reducible exact (all_nil_keeps (p := Saved.memOk))
    | with_reducible exact (all_nil_keeps (p := Cluster.memOk))
    | (with_reducible refine keepsParts_tmr ?_ ?_ ?_ ?_ ?_ ?_ ?_ ?_)
    | exact .inr rfl
    | exact .inl rfl
    | exact .inr (tmrAll_agree _)
    | intro _
    | split
    | dsimp only [id])

theorem execBootFailure_keeps {s0 : State} {s : State}  {tt : State} (hk : Keeps s0 s) (eq_ : execBootFailure s = .next tt) : Keeps s0 tt := by
  unfold execBootFailure at eq_
  repeat' (first | split at eq_ | dsimp only at eq_)
  all_goals (first | (injection eq_ with eq_; subst eq_) | (cases eq_))
  repeat' (first
    | with_reducible assumption
    | with_reducible exact .inl rfl
    | with_reducible exact .inr (tmrAll_agree _)
    | with_reducible refine keeps_ite ?_ ?_
    | with_reducible apply keepsParts_of
    | simp only [keeps_mk]
    | with_reducible exact id
    | with_reducible exact (fun _ => Mem.nil_wf)
    | with_reducible exact (all_nil_keeps (p := Saved.memOk))
    | with_reducible exact (all_nil_keeps (p := Cluster.memOk))
    | (with_reducible refine keepsParts_tmr ?_ ?_ ?_ ?_ ?_ ?_ ?_ ?_)
    | exact .inr rfl
    | exact .inl rfl
    | exact .inr (tmrAll_agree _)
    | intro _
    | split
    | dsimp only [id])

theorem execPcieLinkUp_keeps {s0 : State} {s : State}  {tt : State} (hk : Keeps s0 s) (eq_ : execPcieLinkUp s = .next tt) : Keeps s0 tt := by
  unfold execPcieLinkUp at eq_
  repeat' (first | split at eq_ | dsimp only at eq_)
  all_goals (first | (injection eq_ with eq_; subst eq_) | (cases eq_))
  repeat' (first
    | with_reducible assumption
    | with_reducible exact .inl rfl
    | with_reducible exact .inr (tmrAll_agree _)
    | with_reducible refine keeps_ite ?_ ?_
    | with_reducible apply keepsParts_of
    | simp only [keeps_mk]
    | with_reducible exact id
    | with_reducible exact (fun _ => Mem.nil_wf)
    | with_reducible exact (all_nil_keeps (p := Saved.memOk))
    | with_reducible exact (all_nil_keeps (p := Cluster.memOk))
    | (with_reducible refine keepsParts_tmr ?_ ?_ ?_ ?_ ?_ ?_ ?_ ?_)
    | exact .inr rfl
    | exact .inl rfl
    | exact .inr (tmrAll_agree _)
    | intro _
    | split
    | dsimp only [id])

theorem controlQp_keeps {s0 : State} {ctx : FnId} {s : State} (hk : Keeps s0 s) :
    Keeps s0 (controlQp ctx s) := by
  unfold controlQp
  repeat' (first
    | with_reducible assumption
    | with_reducible apply qpMake_keeps
    | with_reducible refine keeps_ite ?_ ?_
    | with_reducible apply keepsParts_of
    | simp only [keeps_mk]
    | intro _
    | split
    | dsimp only [id])

theorem startUp_keeps {s0 : State} {s : State} (hk : Keeps s0 s) :
    Keeps s0 (startUp s) := by
  unfold startUp
  repeat' (first
    | with_reducible assumption
    | with_reducible exact .inl rfl
    | with_reducible exact .inr (tmrAll_agree _)
    | with_reducible apply qpMake_keeps
    | with_reducible apply controlQp_keeps
    | with_reducible refine keeps_ite ?_ ?_
    | with_reducible apply keepsParts_of
    | simp only [keeps_mk]
    | with_reducible apply memOk_ite
    | with_reducible apply memParts_of
    | simp only [memOk_mk]
    | with_reducible refine memParts_mk ?_ ?_ ?_
    | with_reducible apply memCase
    | with_reducible apply memAcc
    | with_reducible apply memMail
    | with_reducible apply Mem.store_wf
    | with_reducible apply Mem.clear_wf
    | with_reducible apply Mem.filter_wf
    | with_reducible apply Mem.over_wf
    | exact Mem.nil_wf
    | (with_reducible refine keepsParts_mem ?_ ?_ ?_ ?_ ?_)
    | with_reducible exact id
    | with_reducible exact Mem.store_wf _ _ _
    | with_reducible exact Mem.clear_wf _ _ _
    | with_reducible exact foldl_clear_wf
    | with_reducible exact (fun _ => Mem.nil_wf)
    | with_reducible exact (all_nil_keeps (p := Saved.memOk))
    | with_reducible exact (all_filter_keeps (p := Saved.memOk))
    | with_reducible exact (all_nil_keeps (p := Cluster.memOk))
    | with_reducible apply all_map_keeps
    | (with_reducible refine keepsParts_tmr ?_ ?_ ?_ ?_ ?_ ?_ ?_ ?_)
    | exact .inr rfl
    | exact .inl rfl
    | exact .inr (tmrAll_agree _)
    | intro _
    | split
    | dsimp only [id])

theorem execReady_keeps {s0 : State} {s : State}  {tt : State} (hk : Keeps s0 s) (eq_ : execReady s = .next tt) : Keeps s0 tt := by
  unfold execReady at eq_
  repeat' (first | split at eq_ | dsimp only at eq_)
  all_goals (first | (injection eq_ with eq_; subst eq_) | (cases eq_))
  repeat' (first
    | with_reducible assumption
    | with_reducible exact .inl rfl
    | with_reducible exact .inr (tmrAll_agree _)
    | with_reducible apply startUp_keeps
    | with_reducible refine keeps_ite ?_ ?_
    | with_reducible apply keepsParts_of
    | simp only [keeps_mk]
    | with_reducible exact id
    | with_reducible exact (fun _ => Mem.nil_wf)
    | with_reducible exact (all_nil_keeps (p := Saved.memOk))
    | with_reducible exact (all_nil_keeps (p := Cluster.memOk))
    | (with_reducible refine keepsParts_tmr ?_ ?_ ?_ ?_ ?_ ?_ ?_ ?_)
    | exact .inr rfl
    | exact .inl rfl
    | exact .inr (tmrAll_agree _)
    | intro _
    | split
    | dsimp only [id])

theorem perstAsserted_keeps {s0 : State} {s : State}  (hk : Keeps s0 s) :
    Keeps s0 (perstAsserted s) := by
  unfold perstAsserted
  repeat' (first
    | with_reducible assumption
    | with_reducible exact .inl rfl
    | with_reducible exact .inr (tmrAll_agree _)
    | with_reducible apply requestReset_keeps
    | with_reducible refine keeps_ite ?_ ?_
    | with_reducible apply keepsParts_of
    | simp only [keeps_mk]
    | with_reducible exact id
    | with_reducible exact (fun _ => Mem.nil_wf)
    | with_reducible exact (all_nil_keeps (p := Saved.memOk))
    | with_reducible exact (all_nil_keeps (p := Cluster.memOk))
    | (with_reducible refine keepsParts_tmr ?_ ?_ ?_ ?_ ?_ ?_ ?_ ?_)
    | exact .inr rfl
    | exact .inl rfl
    | exact .inr (tmrAll_agree _)
    | intro _
    | split
    | dsimp only [id])

theorem execPerst_keeps {s0 : State} {s : State}  {tt : State} (hk : Keeps s0 s) (eq_ : execPerst s = .next tt) : Keeps s0 tt := by
  unfold execPerst at eq_
  repeat' (first | split at eq_ | dsimp only at eq_)
  all_goals (first | (injection eq_ with eq_; subst eq_) | (cases eq_))
  repeat' (first
    | with_reducible assumption
    | with_reducible exact .inl rfl
    | with_reducible exact .inr (tmrAll_agree _)
    | with_reducible apply perstAsserted_keeps
    | with_reducible refine keeps_ite ?_ ?_
    | with_reducible apply keepsParts_of
    | simp only [keeps_mk]
    | with_reducible exact id
    | with_reducible exact (fun _ => Mem.nil_wf)
    | with_reducible exact (all_nil_keeps (p := Saved.memOk))
    | with_reducible exact (all_nil_keeps (p := Cluster.memOk))
    | (with_reducible refine keepsParts_tmr ?_ ?_ ?_ ?_ ?_ ?_ ?_ ?_)
    | exact .inr rfl
    | exact .inl rfl
    | exact .inr (tmrAll_agree _)
    | intro _
    | split
    | dsimp only [id])

theorem execPerstDeassert_keeps {s0 : State} {s : State}  {tt : State} (hk : Keeps s0 s) (eq_ : execPerstDeassert s = .next tt) : Keeps s0 tt := by
  unfold execPerstDeassert at eq_
  repeat' (first | split at eq_ | dsimp only at eq_)
  all_goals (first | (injection eq_ with eq_; subst eq_) | (cases eq_))
  repeat' (first
    | with_reducible assumption
    | with_reducible exact .inl rfl
    | with_reducible exact .inr (tmrAll_agree _)
    | with_reducible refine keeps_ite ?_ ?_
    | with_reducible apply keepsParts_of
    | simp only [keeps_mk]
    | with_reducible exact id
    | with_reducible exact (fun _ => Mem.nil_wf)
    | with_reducible exact (all_nil_keeps (p := Saved.memOk))
    | with_reducible exact (all_nil_keeps (p := Cluster.memOk))
    | (with_reducible refine keepsParts_tmr ?_ ?_ ?_ ?_ ?_ ?_ ?_ ?_)
    | exact .inr rfl
    | exact .inl rfl
    | exact .inr (tmrAll_agree _)
    | intro _
    | split
    | dsimp only [id])

theorem maintCode_keeps {s0 : State} {c : Status} {s : State}  (hk : Keeps s0 s) :
    Keeps s0 (maintCode c s) := by
  unfold maintCode
  repeat' (first
    | with_reducible assumption
    | with_reducible exact .inl rfl
    | with_reducible exact .inr (tmrAll_agree _)
    | with_reducible refine keeps_ite ?_ ?_
    | with_reducible apply keepsParts_of
    | simp only [keeps_mk]
    | with_reducible exact id
    | with_reducible exact (fun _ => Mem.nil_wf)
    | with_reducible exact (all_nil_keeps (p := Saved.memOk))
    | with_reducible exact (all_nil_keeps (p := Cluster.memOk))
    | (with_reducible refine keepsParts_tmr ?_ ?_ ?_ ?_ ?_ ?_ ?_ ?_)
    | exact .inr rfl
    | exact .inl rfl
    | exact .inr (tmrAll_agree _)
    | intro _
    | split
    | dsimp only [id])

theorem maintCtl_keeps {s0 : State} {w : CtlWrite} {own : Nat} {run : State → State} {s : State} (h_run : ∀ (u : State), Keeps s0 u → Keeps s0 (run u)) (hk : Keeps s0 s) :
    Keeps s0 (maintCtl w own run s) := by
  unfold maintCtl
  repeat' (first
    | with_reducible assumption
    | with_reducible exact .inl rfl
    | with_reducible exact .inr (tmrAll_agree _)
    | with_reducible apply maintCode_keeps
    | with_reducible apply ctl_keeps
    | with_reducible apply h_run
    | with_reducible refine keeps_ite ?_ ?_
    | with_reducible apply keepsParts_of
    | simp only [keeps_mk]
    | with_reducible exact id
    | with_reducible exact (fun _ => Mem.nil_wf)
    | with_reducible exact (all_nil_keeps (p := Saved.memOk))
    | with_reducible exact (all_nil_keeps (p := Cluster.memOk))
    | (with_reducible refine keepsParts_tmr ?_ ?_ ?_ ?_ ?_ ?_ ?_ ?_)
    | exact .inr rfl
    | exact .inl rfl
    | exact .inr (tmrAll_agree _)
    | intro _
    | split
    | dsimp only [id])

theorem execWarm_keeps {s0 : State} {w : CtlWrite} {s : State}  {tt : State} (hk : Keeps s0 s) (eq_ : execWarm w s = .next tt) : Keeps s0 tt := by
  unfold execWarm at eq_
  repeat' (first | split at eq_ | dsimp only at eq_)
  all_goals (first | (injection eq_ with eq_; subst eq_) | (cases eq_))
  repeat' (first
    | with_reducible assumption
    | with_reducible exact .inl rfl
    | with_reducible exact .inr (tmrAll_agree _)
    | with_reducible apply requestReset_keeps
    | with_reducible apply maintCode_keeps
    | with_reducible apply maintCtl_keeps
    | with_reducible refine keeps_ite ?_ ?_
    | with_reducible apply keepsParts_of
    | simp only [keeps_mk]
    | with_reducible exact id
    | with_reducible exact (fun _ => Mem.nil_wf)
    | with_reducible exact (all_nil_keeps (p := Saved.memOk))
    | with_reducible exact (all_nil_keeps (p := Cluster.memOk))
    | (with_reducible refine keepsParts_tmr ?_ ?_ ?_ ?_ ?_ ?_ ?_ ?_)
    | exact .inr rfl
    | exact .inl rfl
    | exact .inr (tmrAll_agree _)
    | intro _
    | split
    | dsimp only [id])

theorem execMaintClr_keeps {s0 : State} {w : CtlWrite} {s : State}  {tt : State} (hk : Keeps s0 s) (eq_ : execMaintClr w s = .next tt) : Keeps s0 tt := by
  unfold execMaintClr at eq_
  repeat' (first | split at eq_ | dsimp only at eq_)
  all_goals (first | (injection eq_ with eq_; subst eq_) | (cases eq_))
  repeat' (first
    | with_reducible assumption
    | with_reducible exact .inl rfl
    | with_reducible exact .inr (tmrAll_agree _)
    | with_reducible apply maintCode_keeps
    | with_reducible apply maintCtl_keeps
    | with_reducible refine keeps_ite ?_ ?_
    | with_reducible apply keepsParts_of
    | simp only [keeps_mk]
    | with_reducible exact id
    | with_reducible exact (fun _ => Mem.nil_wf)
    | with_reducible exact (all_nil_keeps (p := Saved.memOk))
    | with_reducible exact (all_nil_keeps (p := Cluster.memOk))
    | (with_reducible refine keepsParts_tmr ?_ ?_ ?_ ?_ ?_ ?_ ?_ ?_)
    | exact .inr rfl
    | exact .inl rfl
    | exact .inr (tmrAll_agree _)
    | intro _
    | split
    | dsimp only [id])

theorem shutdownStart_keeps {s0 : State} {s : State}  (hk : Keeps s0 s) :
    Keeps s0 (shutdownStart s) := by
  unfold shutdownStart
  repeat' (first
    | with_reducible assumption
    | with_reducible exact .inl rfl
    | with_reducible exact .inr (tmrAll_agree _)
    | with_reducible apply unloadStart_keeps
    | with_reducible apply unloadDone_keeps
    | with_reducible refine keeps_ite ?_ ?_
    | with_reducible apply keepsParts_of
    | simp only [keeps_mk]
    | (with_reducible refine keepsParts_mem ?_ ?_ ?_ ?_ ?_)
    | with_reducible exact id
    | with_reducible exact Mem.store_wf _ _ _
    | with_reducible exact Mem.clear_wf _ _ _
    | with_reducible exact foldl_clear_wf
    | with_reducible exact (fun _ => Mem.nil_wf)
    | with_reducible exact (all_nil_keeps (p := Saved.memOk))
    | with_reducible exact (all_filter_keeps (p := Saved.memOk))
    | with_reducible exact (all_nil_keeps (p := Cluster.memOk))
    | with_reducible apply all_map_keeps
    | (with_reducible refine keepsParts_tmr ?_ ?_ ?_ ?_ ?_ ?_ ?_ ?_)
    | exact .inr rfl
    | exact .inl rfl
    | exact .inr (tmrAll_agree _)
    | intro _
    | split
    | dsimp only [id])

theorem execShutdown_keeps {s0 : State} {w : CtlWrite} {s : State}  {tt : State} (hk : Keeps s0 s) (eq_ : execShutdown w s = .next tt) : Keeps s0 tt := by
  unfold execShutdown at eq_
  repeat' (first | split at eq_ | dsimp only at eq_)
  all_goals (first | (injection eq_ with eq_; subst eq_) | (cases eq_))
  repeat' (first
    | with_reducible assumption
    | with_reducible exact .inl rfl
    | with_reducible exact .inr (tmrAll_agree _)
    | with_reducible apply shutdownStart_keeps
    | with_reducible apply maintCode_keeps
    | with_reducible apply maintCtl_keeps
    | with_reducible refine keeps_ite ?_ ?_
    | with_reducible apply keepsParts_of
    | simp only [keeps_mk]
    | with_reducible exact id
    | with_reducible exact (fun _ => Mem.nil_wf)
    | with_reducible exact (all_nil_keeps (p := Saved.memOk))
    | with_reducible exact (all_nil_keeps (p := Cluster.memOk))
    | (with_reducible refine keepsParts_tmr ?_ ?_ ?_ ?_ ?_ ?_ ?_ ?_)
    | exact .inr rfl
    | exact .inl rfl
    | exact .inr (tmrAll_agree _)
    | intro _
    | split
    | dsimp only [id])

theorem shutdownEnd_keeps {s0 : State} {s : State} (hk : Keeps s0 s) :
    Keeps s0 (shutdownEnd s) := by
  unfold shutdownEnd
  repeat' (first
    | with_reducible assumption
    | with_reducible exact .inl rfl
    | with_reducible exact .inr (tmrAll_agree _)
    | with_reducible apply stopBegins_keeps
    | with_reducible apply writeRecord_keeps
    | with_reducible refine keeps_ite ?_ ?_
    | with_reducible apply keepsParts_of
    | simp only [keeps_mk]
    | (with_reducible refine keepsParts_mem ?_ ?_ ?_ ?_ ?_)
    | with_reducible exact id
    | with_reducible exact Mem.store_wf _ _ _
    | with_reducible exact Mem.clear_wf _ _ _
    | with_reducible exact foldl_clear_wf
    | with_reducible exact (fun _ => Mem.nil_wf)
    | with_reducible exact (all_nil_keeps (p := Saved.memOk))
    | with_reducible exact (all_filter_keeps (p := Saved.memOk))
    | with_reducible exact (all_nil_keeps (p := Cluster.memOk))
    | with_reducible apply all_map_keeps
    | (with_reducible refine keepsParts_tmr ?_ ?_ ?_ ?_ ?_ ?_ ?_ ?_)
    | exact .inr rfl
    | exact .inl rfl
    | exact .inr (tmrAll_agree _)
    | intro _
    | split
    | dsimp only [id])

theorem sliceEnd_keeps {s0 : State} {failed : Bool} {es : List RepairEntry} {s : State}  (hk : Keeps s0 s) :
    Keeps s0 (sliceEnd failed es s) := by
  unfold sliceEnd
  repeat' (first
    | with_reducible assumption
    | with_reducible exact .inl rfl
    | with_reducible exact .inr (tmrAll_agree _)
    | with_reducible apply foldl_keeps
    | with_reducible apply foldl_keeps_fst
    | with_reducible apply foldl_keeps_snd
    | with_reducible apply shutdownEnd_keeps
    | with_reducible apply addRepair_keeps
    | with_reducible apply noteErr_keeps
    | with_reducible refine keeps_ite ?_ ?_
    | with_reducible apply keepsParts_of
    | simp only [keeps_mk]
    | (with_reducible refine keepsParts_mem ?_ ?_ ?_ ?_ ?_)
    | with_reducible exact id
    | with_reducible exact Mem.store_wf _ _ _
    | with_reducible exact Mem.clear_wf _ _ _
    | with_reducible exact foldl_clear_wf
    | with_reducible exact (fun _ => Mem.nil_wf)
    | with_reducible exact (all_nil_keeps (p := Saved.memOk))
    | with_reducible exact (all_filter_keeps (p := Saved.memOk))
    | with_reducible exact (all_nil_keeps (p := Cluster.memOk))
    | with_reducible apply all_map_keeps
    | (with_reducible refine keepsParts_tmr ?_ ?_ ?_ ?_ ?_ ?_ ?_ ?_)
    | exact .inr rfl
    | exact .inl rfl
    | exact .inr (tmrAll_agree _)
    | intro _
    | split
    | dsimp only [id])

theorem execSelftestSliceEnd_keeps {s0 : State} {failed : Bool} {es : List RepairEntry} {s : State}  {tt : State} (hk : Keeps s0 s) (eq_ : execSelftestSliceEnd failed es s = .next tt) : Keeps s0 tt := by
  unfold execSelftestSliceEnd at eq_
  repeat' (first | split at eq_ | dsimp only at eq_)
  all_goals (first | (injection eq_ with eq_; subst eq_) | (cases eq_))
  repeat' (first
    | with_reducible assumption
    | with_reducible exact .inl rfl
    | with_reducible exact .inr (tmrAll_agree _)
    | with_reducible apply sliceEnd_keeps
    | with_reducible refine keeps_ite ?_ ?_
    | with_reducible apply keepsParts_of
    | simp only [keeps_mk]
    | with_reducible exact id
    | with_reducible exact (fun _ => Mem.nil_wf)
    | with_reducible exact (all_nil_keeps (p := Saved.memOk))
    | with_reducible exact (all_nil_keeps (p := Cluster.memOk))
    | (with_reducible refine keepsParts_tmr ?_ ?_ ?_ ?_ ?_ ?_ ?_ ?_)
    | exact .inr rfl
    | exact .inl rfl
    | exact .inr (tmrAll_agree _)
    | intro _
    | split
    | dsimp only [id])

theorem selftestStops_keeps {s0 : State} {s : State}  (hk : Keeps s0 s) :
    Keeps s0 (selftestStops s) := by
  unfold selftestStops
  repeat' (first
    | with_reducible assumption
    | with_reducible exact .inl rfl
    | with_reducible exact .inr (tmrAll_agree _)
    | with_reducible apply writeRecord_keeps
    | with_reducible refine keeps_ite ?_ ?_
    | with_reducible apply keepsParts_of
    | simp only [keeps_mk]
    | with_reducible exact id
    | with_reducible exact (fun _ => Mem.nil_wf)
    | with_reducible exact (all_nil_keeps (p := Saved.memOk))
    | with_reducible exact (all_nil_keeps (p := Cluster.memOk))
    | (with_reducible refine keepsParts_tmr ?_ ?_ ?_ ?_ ?_ ?_ ?_ ?_)
    | exact .inr rfl
    | exact .inl rfl
    | exact .inr (tmrAll_agree _)
    | intro _
    | split
    | dsimp only [id])

theorem reserveStop_keeps {s0 : State} {s : State} (hk : Keeps s0 s) :
    Keeps s0 (reserveStop s) := by
  unfold reserveStop
  repeat' (first
    | with_reducible assumption
    | with_reducible apply fatalStop_keeps
    | with_reducible apply selftestStops_keeps
    | with_reducible refine keeps_ite ?_ ?_
    | with_reducible apply keepsParts_of
    | simp only [keeps_mk]
    | intro _
    | split
    | dsimp only [id])

theorem thermal_keeps {s0 : State} {temp : BitVec 16} {s : State}  (hk : Keeps s0 s) :
    Keeps s0 (thermal temp s) := by
  unfold thermal
  repeat' (first
    | with_reducible assumption
    | with_reducible exact .inl rfl
    | with_reducible exact .inr (tmrAll_agree _)
    | with_reducible apply selftestStops_keeps
    | with_reducible apply thermalStop_keeps
    | with_reducible refine keeps_ite ?_ ?_
    | with_reducible apply keepsParts_of
    | simp only [keeps_mk]
    | with_reducible exact id
    | with_reducible exact (fun _ => Mem.nil_wf)
    | with_reducible exact (all_nil_keeps (p := Saved.memOk))
    | with_reducible exact (all_nil_keeps (p := Cluster.memOk))
    | (with_reducible refine keepsParts_tmr ?_ ?_ ?_ ?_ ?_ ?_ ?_ ?_)
    | exact .inr rfl
    | exact .inl rfl
    | exact .inr (tmrAll_agree _)
    | intro _
    | split
    | dsimp only [id])

theorem execThermalTrip_keeps {s0 : State} {temp : BitVec 16} {s : State}  {tt : State} (hk : Keeps s0 s) (eq_ : execThermalTrip temp s = .next tt) : Keeps s0 tt := by
  unfold execThermalTrip at eq_
  repeat' (first | split at eq_ | dsimp only at eq_)
  all_goals (first | (injection eq_ with eq_; subst eq_) | (cases eq_))
  repeat' (first
    | with_reducible assumption
    | with_reducible exact .inl rfl
    | with_reducible exact .inr (tmrAll_agree _)
    | with_reducible apply thermal_keeps
    | with_reducible refine keeps_ite ?_ ?_
    | with_reducible apply keepsParts_of
    | simp only [keeps_mk]
    | with_reducible exact id
    | with_reducible exact (fun _ => Mem.nil_wf)
    | with_reducible exact (all_nil_keeps (p := Saved.memOk))
    | with_reducible exact (all_nil_keeps (p := Cluster.memOk))
    | (with_reducible refine keepsParts_tmr ?_ ?_ ?_ ?_ ?_ ?_ ?_ ?_)
    | exact .inr rfl
    | exact .inl rfl
    | exact .inr (tmrAll_agree _)
    | intro _
    | split
    | dsimp only [id])

theorem execThermalHoldEnd_keeps {s0 : State} {temp : BitVec 16} {s : State}  {tt : State} (hk : Keeps s0 s) (eq_ : execThermalHoldEnd temp s = .next tt) : Keeps s0 tt := by
  unfold execThermalHoldEnd at eq_
  repeat' (first | split at eq_ | dsimp only at eq_)
  all_goals (first | (injection eq_ with eq_; subst eq_) | (cases eq_))
  repeat' (first
    | with_reducible assumption
    | with_reducible exact .inl rfl
    | with_reducible exact .inr (tmrAll_agree _)
    | with_reducible apply doReset_keeps
    | with_reducible refine keeps_ite ?_ ?_
    | with_reducible apply keepsParts_of
    | simp only [keeps_mk]
    | with_reducible exact id
    | with_reducible exact (fun _ => Mem.nil_wf)
    | with_reducible exact (all_nil_keeps (p := Saved.memOk))
    | with_reducible exact (all_nil_keeps (p := Cluster.memOk))
    | (with_reducible refine keepsParts_tmr ?_ ?_ ?_ ?_ ?_ ?_ ?_ ?_)
    | exact .inr rfl
    | exact .inl rfl
    | exact .inr (tmrAll_agree _)
    | intro _
    | split
    | dsimp only [id])

theorem execWatchdog_keeps {s0 : State} {s : State}  {tt : State} (hk : Keeps s0 s) (eq_ : execWatchdog s = .next tt) : Keeps s0 tt := by
  unfold execWatchdog at eq_
  repeat' (first | split at eq_ | dsimp only at eq_)
  all_goals (first | (injection eq_ with eq_; subst eq_) | (cases eq_))
  repeat' (first
    | with_reducible assumption
    | with_reducible exact .inl rfl
    | with_reducible exact .inr (tmrAll_agree _)
    | with_reducible apply selftestStops_keeps
    | with_reducible apply fatalStop_keeps
    | with_reducible refine keeps_ite ?_ ?_
    | with_reducible apply keepsParts_of
    | simp only [keeps_mk]
    | with_reducible exact id
    | with_reducible exact (fun _ => Mem.nil_wf)
    | with_reducible exact (all_nil_keeps (p := Saved.memOk))
    | with_reducible exact (all_nil_keeps (p := Cluster.memOk))
    | (with_reducible refine keepsParts_tmr ?_ ?_ ?_ ?_ ?_ ?_ ?_ ?_)
    | exact .inr rfl
    | exact .inl rfl
    | exact .inr (tmrAll_agree _)
    | intro _
    | split
    | dsimp only [id])

theorem execBridge_keeps {s0 : State} {s : State}  {tt : State} (hk : Keeps s0 s) (eq_ : execBridge s = .next tt) : Keeps s0 tt := by
  unfold execBridge at eq_
  repeat' (first | split at eq_ | dsimp only at eq_)
  all_goals (first | (injection eq_ with eq_; subst eq_) | (cases eq_))
  repeat' (first
    | with_reducible assumption
    | with_reducible exact .inl rfl
    | with_reducible exact .inr (tmrAll_agree _)
    | with_reducible apply selftestStops_keeps
    | with_reducible apply fatalStop_keeps
    | with_reducible refine keeps_ite ?_ ?_
    | with_reducible apply keepsParts_of
    | simp only [keeps_mk]
    | with_reducible exact id
    | with_reducible exact (fun _ => Mem.nil_wf)
    | with_reducible exact (all_nil_keeps (p := Saved.memOk))
    | with_reducible exact (all_nil_keeps (p := Cluster.memOk))
    | (with_reducible refine keepsParts_tmr ?_ ?_ ?_ ?_ ?_ ?_ ?_ ?_)
    | exact .inr rfl
    | exact .inl rfl
    | exact .inr (tmrAll_agree _)
    | intro _
    | split
    | dsimp only [id])

theorem execRankRelease_keeps {s0 : State} {s : State}  {tt : State} (hk : Keeps s0 s) (eq_ : execRankRelease s = .next tt) : Keeps s0 tt := by
  unfold execRankRelease at eq_
  repeat' (first | split at eq_ | dsimp only at eq_)
  all_goals (first | (injection eq_ with eq_; subst eq_) | (cases eq_))
  repeat' (first
    | with_reducible assumption
    | with_reducible exact .inl rfl
    | with_reducible exact .inr (tmrAll_agree _)
    | with_reducible apply foldl_keeps
    | with_reducible apply foldl_keeps_fst
    | with_reducible apply foldl_keeps_snd
    | with_reducible apply takeItem_keeps
    | with_reducible apply cluster_keeps
    | with_reducible apply sense_keeps
    | with_reducible refine keeps_ite ?_ ?_
    | with_reducible apply keepsParts_of
    | simp only [keeps_mk]
    | with_reducible apply memOk_ite
    | with_reducible apply memParts_of
    | simp only [memOk_mk]
    | with_reducible refine memParts_mk ?_ ?_ ?_
    | exact Mem.nil_wf
    | with_reducible exact id
    | with_reducible exact (fun _ => Mem.nil_wf)
    | with_reducible exact (all_nil_keeps (p := Saved.memOk))
    | with_reducible exact (all_nil_keeps (p := Cluster.memOk))
    | (with_reducible refine keepsParts_tmr ?_ ?_ ?_ ?_ ?_ ?_ ?_ ?_)
    | exact .inr rfl
    | exact .inl rfl
    | exact .inr (tmrAll_agree _)
    | intro _
    | split
    | dsimp only [id])

theorem execClaimGrant_keeps {s0 : State} {s : State}  {tt : State} (hk : Keeps s0 s) (eq_ : execClaimGrant s = .next tt) : Keeps s0 tt := by
  unfold execClaimGrant at eq_
  repeat' (first | split at eq_ | dsimp only at eq_)
  all_goals (first | (injection eq_ with eq_; subst eq_) | (cases eq_))
  repeat' (first
    | with_reducible assumption
    | with_reducible exact .inl rfl
    | with_reducible exact .inr (tmrAll_agree _)
    | with_reducible apply takeItem_keeps
    | with_reducible apply sense_keeps
    | with_reducible refine keeps_ite ?_ ?_
    | with_reducible apply keepsParts_of
    | simp only [keeps_mk]
    | with_reducible exact id
    | with_reducible exact (fun _ => Mem.nil_wf)
    | with_reducible exact (all_nil_keeps (p := Saved.memOk))
    | with_reducible exact (all_nil_keeps (p := Cluster.memOk))
    | (with_reducible refine keepsParts_tmr ?_ ?_ ?_ ?_ ?_ ?_ ?_ ?_)
    | exact .inr rfl
    | exact .inl rfl
    | exact .inr (tmrAll_agree _)
    | intro _
    | split
    | dsimp only [id])

theorem execClaimRelease_keeps {s0 : State} {cl : ClusterId} {s : State}  {tt : State} (hk : Keeps s0 s) (eq_ : execClaimRelease cl s = .next tt) : Keeps s0 tt := by
  unfold execClaimRelease at eq_
  repeat' (first | split at eq_ | dsimp only at eq_)
  all_goals (first | (injection eq_ with eq_; subst eq_) | (cases eq_))
  repeat' (first
    | with_reducible assumption
    | with_reducible exact .inl rfl
    | with_reducible exact .inr (tmrAll_agree _)
    | with_reducible apply sense_keeps
    | with_reducible refine keeps_ite ?_ ?_
    | with_reducible apply keepsParts_of
    | simp only [keeps_mk]
    | with_reducible exact id
    | with_reducible exact (fun _ => Mem.nil_wf)
    | with_reducible exact (all_nil_keeps (p := Saved.memOk))
    | with_reducible exact (all_nil_keeps (p := Cluster.memOk))
    | (with_reducible refine keepsParts_tmr ?_ ?_ ?_ ?_ ?_ ?_ ?_ ?_)
    | exact .inr rfl
    | exact .inl rfl
    | exact .inr (tmrAll_agree _)
    | intro _
    | split
    | dsimp only [id])

end Sys2Proof.Machine
end

