-- ==== Sys2Proof/Laws/KeepsRequests.lean ====
section
/-!
SUPPORT. What the operations of Sys2Proof/Machine/Requests.lean keep: the queue, the agreement of the TMR copies, and the canonical
form of the memories (Safety).
-/

namespace Sys2Proof.Machine

theorem unlessFenced_keeps {s0 : State} {f : State → State} {s : State} (h_f : ∀ (u : State), Keeps s0 u → Keeps s0 (f u)) (hk : Keeps s0 s) :
    Keeps s0 (unlessFenced f s) := by
  unfold unlessFenced
  repeat' (first
    | with_reducible assumption
    | with_reducible apply h_f
    | with_reducible refine keeps_ite ?_ ?_
    | with_reducible apply keepsParts_of
    | simp only [keeps_mk]
    | intro _
    | split
    | dsimp only [id])

theorem execStageAdmission_keeps {s0 : State} {m : StageAdmission} {s : State}  {tt : State} (hk : Keeps s0 s) (eq_ : execStageAdmission m s = .next tt) : Keeps s0 tt := by
  unfold execStageAdmission at eq_
  repeat' (first | split at eq_ | dsimp only at eq_)
  all_goals (first | (injection eq_ with eq_; subst eq_) | (cases eq_))
  repeat' (first
    | with_reducible assumption
    | with_reducible apply stageAdmission_keeps
    | with_reducible refine keeps_ite ?_ ?_
    | with_reducible apply keepsParts_of
    | simp only [keeps_mk]
    | intro _
    | split
    | dsimp only [id])

theorem execConfirmation_keeps {s0 : State} {q : ReqId} {src : StageFrom} {pause : Option DropReport} {s : State} {tt : State} (hk : Keeps s0 s) (eq_ : execConfirmation q src pause s = .next tt) : Keeps s0 tt := by
  unfold execConfirmation at eq_
  repeat' (first | split at eq_ | dsimp only at eq_)
  all_goals (first | (injection eq_ with eq_; subst eq_) | (cases eq_))
  repeat' (first
    | with_reducible assumption
    | with_reducible apply unlessFenced_keeps
    | with_reducible apply confirmAt_keeps
    | with_reducible refine keeps_ite ?_ ?_
    | with_reducible apply keepsParts_of
    | simp only [keeps_mk]
    | intro _
    | split
    | dsimp only [id])

theorem refusal_keeps {s0 : State} {q : ReqId} {c : Status} {d : DevId} {s : State} (hk : Keeps s0 s) :
    Keeps s0 (refusal q c d s) := by
  unfold refusal
  repeat' (first
    | with_reducible assumption
    | with_reducible apply releaseStage_keeps
    | with_reducible apply refusalAt_keeps
    | with_reducible apply resumeFailed_keeps
    | with_reducible refine keeps_ite ?_ ?_
    | with_reducible apply keepsParts_of
    | simp only [keeps_mk]
    | intro _
    | split
    | dsimp only [id])

theorem execStageRefusal_keeps {s0 : State} {q : ReqId} {c : CodeFrom} {s : State} {tt : State} (hk : Keeps s0 s) (eq_ : execStageRefusal q c s = .next tt) : Keeps s0 tt := by
  unfold execStageRefusal at eq_
  repeat' (first | split at eq_ | dsimp only at eq_)
  all_goals (first | (injection eq_ with eq_; subst eq_) | (cases eq_))
  repeat' (first
    | with_reducible assumption
    | with_reducible apply refusal_keeps
    | with_reducible apply unlessFenced_keeps
    | with_reducible refine keeps_ite ?_ ?_
    | with_reducible apply keepsParts_of
    | simp only [keeps_mk]
    | intro _
    | split
    | dsimp only [id])

theorem execAppend_keeps {s0 : State} {m : AppendMsg} {s : State} {tt : State} (hk : Keeps s0 s) (eq_ : execAppend m s = .next tt) : Keeps s0 tt := by
  unfold execAppend at eq_
  repeat' (first | split at eq_ | dsimp only at eq_)
  all_goals (first | (injection eq_ with eq_; subst eq_) | (cases eq_))
  repeat' (first
    | with_reducible assumption
    | with_reducible apply unlessFenced_keeps
    | with_reducible apply appendAt_keeps
    | (with_reducible apply appendAt_keeps_of (by assumption))
    | with_reducible refine keeps_ite ?_ ?_
    | with_reducible apply keepsParts_of
    | simp only [keeps_mk]
    | intro _
    | split
    | dsimp only [id])

theorem sealDone_keeps {s0 : State} {q : ReqId} {l : Nat} {p : Nat} {reads : ReadOutcome} {s : State} (hk : Keeps s0 s) :
    Keeps s0 (sealDone q l p reads s) := by
  unfold sealDone
  repeat' (first
    | with_reducible assumption
    | with_reducible apply copyCheck_keeps
    | with_reducible apply moverRead_keeps
    | with_reducible apply mirrorSend_keeps
    | with_reducible apply compareSeal_keeps
    | (with_reducible apply moverRead_keeps_of (by assumption))
    | (with_reducible apply sealPage_keeps_of (by assumption))
    | with_reducible refine keeps_ite ?_ ?_
    | with_reducible apply keepsParts_of
    | simp only [keeps_mk]
    | intro _
    | split
    | dsimp only [id])

theorem execSealComplete_keeps {s0 : State} {q : ReqId} {l : Nat} {p : WithReads Nat} {s : State} {tt : State} (hk : Keeps s0 s) (eq_ : execSealComplete q l p s = .next tt) : Keeps s0 tt := by
  unfold execSealComplete at eq_
  repeat' (first | split at eq_ | dsimp only at eq_)
  all_goals (first | (injection eq_ with eq_; subst eq_) | (cases eq_))
  repeat' (first
    | with_reducible assumption
    | with_reducible apply sealDone_keeps
    | with_reducible refine keeps_ite ?_ ?_
    | with_reducible apply keepsParts_of
    | simp only [keeps_mk]
    | intro _
    | split
    | dsimp only [id])

theorem execDropReport_keeps {s0 : State} {r : DropReport} {s : State}  {tt : State} (hk : Keeps s0 s) (eq_ : execDropReport r s = .next tt) : Keeps s0 tt := by
  unfold execDropReport at eq_
  repeat' (first | split at eq_ | dsimp only at eq_)
  all_goals (first | (injection eq_ with eq_; subst eq_) | (cases eq_))
  repeat' (first
    | with_reducible assumption
    | with_reducible apply dropReportAt_keeps
    | with_reducible apply unlessFenced_keeps
    | with_reducible refine keeps_ite ?_ ?_
    | with_reducible apply keepsParts_of
    | simp only [keeps_mk]
    | intro _
    | split
    | dsimp only [id])

theorem handoverRetry_keeps {s0 : State} {q : ReqId} {s : State} (hk : Keeps s0 s) :
    Keeps s0 (handoverRetry q s) := by
  unfold handoverRetry
  repeat' (first
    | with_reducible assumption
    | with_reducible apply ownerSwap_keeps
    | with_reducible refine keeps_ite ?_ ?_
    | with_reducible apply keepsParts_of
    | simp only [keeps_mk]
    | intro _
    | split
    | dsimp only [id])

theorem execHandoverTimeout_keeps {s0 : State} {q : ReqId} {s : State}  {tt : State} (hk : Keeps s0 s) (eq_ : execHandoverTimeout q s = .next tt) : Keeps s0 tt := by
  unfold execHandoverTimeout at eq_
  repeat' (first | split at eq_ | dsimp only at eq_)
  all_goals (first | (injection eq_ with eq_; subst eq_) | (cases eq_))
  repeat' (first
    | with_reducible assumption
    | with_reducible apply handoverRetry_keeps
    | with_reducible apply unlessFenced_keeps
    | with_reducible refine keeps_ite ?_ ?_
    | with_reducible apply keepsParts_of
    | simp only [keeps_mk]
    | intro _
    | split
    | dsimp only [id])

theorem execStepBoundary_keeps {s0 : State} {es : List StepEnd} {s : State} {tt : State} (hk : Keeps s0 s) (eq_ : execStepBoundary es s = .next tt) : Keeps s0 tt := by
  unfold execStepBoundary at eq_
  repeat' (first | split at eq_ | dsimp only at eq_)
  all_goals (first | (injection eq_ with eq_; subst eq_) | (cases eq_))
  repeat' (first
    | with_reducible assumption
    | with_reducible apply stepBoundary_keeps
    | with_reducible apply reserveStop_keeps
    | with_reducible refine keeps_ite ?_ ?_
    | with_reducible apply keepsParts_of
    | simp only [keeps_mk]
    | intro _
    | split
    | dsimp only [id])

theorem tokenAt_keeps {s0 : State} {m : TokenMsg} {s : State}  (hk : Keeps s0 s) :
    Keeps s0 (tokenAt m s) := by
  unfold tokenAt
  repeat' (first
    | with_reducible assumption
    | with_reducible apply getD_keeps
    | with_reducible apply anchorToken_keeps
    | with_reducible apply recUpd_keeps
    | with_reducible refine keeps_ite ?_ ?_
    | with_reducible apply keepsParts_of
    | simp only [keeps_mk]
    | intro _
    | split
    | dsimp only [id])

theorem execToken_keeps {s0 : State} {m : TokenMsg} {s : State}  {tt : State} (hk : Keeps s0 s) (eq_ : execToken m s = .next tt) : Keeps s0 tt := by
  unfold execToken at eq_
  repeat' (first | split at eq_ | dsimp only at eq_)
  all_goals (first | (injection eq_ with eq_; subst eq_) | (cases eq_))
  repeat' (first
    | with_reducible assumption
    | with_reducible apply unlessFenced_keeps
    | with_reducible apply tokenAt_keeps
    | with_reducible refine keeps_ite ?_ ?_
    | with_reducible apply keepsParts_of
    | simp only [keeps_mk]
    | intro _
    | split
    | dsimp only [id])

theorem cancelStage_keeps {s0 : State} {q : ReqId} {s : State} (hk : Keeps s0 s) :
    Keeps s0 (cancelStage q s) := by
  unfold cancelStage
  repeat' (first
    | with_reducible assumption
    | with_reducible apply unknownReq_keeps
    | with_reducible apply stageDrop_keeps
    | with_reducible apply addCond_keeps
    | with_reducible apply recUpd_keeps
    | with_reducible refine keeps_ite ?_ ?_
    | with_reducible apply keepsParts_of
    | simp only [keeps_mk]
    | intro _
    | split
    | dsimp only [id])

theorem execCancellation_keeps {s0 : State} {q : ReqId} {s : State}  {tt : State} (hk : Keeps s0 s) (eq_ : execCancellation q s = .next tt) : Keeps s0 tt := by
  unfold execCancellation at eq_
  repeat' (first | split at eq_ | dsimp only at eq_)
  all_goals (first | (injection eq_ with eq_; subst eq_) | (cases eq_))
  repeat' (first
    | with_reducible assumption
    | with_reducible apply unlessFenced_keeps
    | with_reducible apply cancelStage_keeps
    | with_reducible refine keeps_ite ?_ ?_
    | with_reducible apply keepsParts_of
    | simp only [keeps_mk]
    | intro _
    | split
    | dsimp only [id])

theorem retirement_keeps {s0 : State} {q : ReqId} {c : Status} {s : State} (hk : Keeps s0 s) :
    Keeps s0 (retirement q c s) := by
  unfold retirement
  repeat' (first
    | with_reducible assumption
    | with_reducible apply unknownReq_keeps
    | with_reducible apply endStage_keeps
    | with_reducible apply anchorReprefill_keeps
    | with_reducible apply anchorEnd_keeps
    | with_reducible apply anchorUpd_keeps
    | with_reducible refine keeps_ite ?_ ?_
    | with_reducible apply keepsParts_of
    | simp only [keeps_mk]
    | intro _
    | split
    | dsimp only [id])

theorem execRetirement_keeps {s0 : State} {q : ReqId} {c : Status} {s : State}  {tt : State} (hk : Keeps s0 s) (eq_ : execRetirement q c s = .next tt) : Keeps s0 tt := by
  unfold execRetirement at eq_
  repeat' (first | split at eq_ | dsimp only at eq_)
  all_goals (first | (injection eq_ with eq_; subst eq_) | (cases eq_))
  repeat' (first
    | with_reducible assumption
    | with_reducible apply unlessFenced_keeps
    | with_reducible apply retirement_keeps
    | with_reducible refine keeps_ite ?_ ?_
    | with_reducible apply keepsParts_of
    | simp only [keeps_mk]
    | intro _
    | split
    | dsimp only [id])

theorem reqCode_keeps {s0 : State} {c : Status} {s : State}  (hk : Keeps s0 s) :
    Keeps s0 (reqCode c s) := by
  unfold reqCode
  repeat' (first
    | with_reducible assumption
    | with_reducible refine keeps_ite ?_ ?_
    | with_reducible apply keepsParts_of
    | simp only [keeps_mk]
    | intro _
    | split
    | dsimp only [id])

theorem reqCtl_keeps {s0 : State} {w : CtlWrite} {own : Nat} {run : State → State} {s : State} (h_run : ∀ (u : State), Keeps s0 u → Keeps s0 (run u)) (hk : Keeps s0 s) :
    Keeps s0 (reqCtl w own run s) := by
  unfold reqCtl
  repeat' (first
    | with_reducible assumption
    | with_reducible apply reqCode_keeps
    | with_reducible apply ctl_keeps
    | with_reducible apply h_run
    | with_reducible refine keeps_ite ?_ ?_
    | with_reducible apply keepsParts_of
    | simp only [keeps_mk]
    | intro _
    | split
    | dsimp only [id])

theorem reqOnSel_keeps {s0 : State} {act : ReqId → State → State} {s : State} (h_act : ∀ (y0 : ReqId) (u : State), Keeps s0 u → Keeps s0 (act y0 u)) (hk : Keeps s0 s) :
    Keeps s0 (reqOnSel act s) := by
  unfold reqOnSel
  repeat' (first
    | with_reducible assumption
    | with_reducible apply reqCode_keeps
    | with_reducible apply h_act
    | with_reducible refine keeps_ite ?_ ?_
    | with_reducible apply keepsParts_of
    | simp only [keeps_mk]
    | intro _
    | split
    | dsimp only [id])

theorem execCancel_keeps {s0 : State} {w : CtlWrite} {s : State}  {tt : State} (hk : Keeps s0 s) (eq_ : execCancel w s = .next tt) : Keeps s0 tt := by
  unfold execCancel at eq_
  repeat' (first | split at eq_ | dsimp only at eq_)
  all_goals (first | (injection eq_ with eq_; subst eq_) | (cases eq_))
  repeat' (first
    | with_reducible assumption
    | with_reducible apply anchorCancel_keeps
    | with_reducible apply reqOnSel_keeps
    | with_reducible apply reqCtl_keeps
    | with_reducible refine keeps_ite ?_ ?_
    | with_reducible apply keepsParts_of
    | simp only [keeps_mk]
    | intro _
    | split
    | dsimp only [id])

theorem execPause_keeps {s0 : State} {w : CtlWrite} {s : State}  {tt : State} (hk : Keeps s0 s) (eq_ : execPause w s = .next tt) : Keeps s0 tt := by
  unfold execPause at eq_
  repeat' (first | split at eq_ | dsimp only at eq_)
  all_goals (first | (injection eq_ with eq_; subst eq_) | (cases eq_))
  repeat' (first
    | with_reducible assumption
    | with_reducible apply anchorPause_keeps
    | with_reducible apply reqOnSel_keeps
    | with_reducible apply reqCtl_keeps
    | with_reducible refine keeps_ite ?_ ?_
    | with_reducible apply keepsParts_of
    | simp only [keeps_mk]
    | intro _
    | split
    | dsimp only [id])

theorem execReqClr_keeps {s0 : State} {w : CtlWrite} {s : State}  {tt : State} (hk : Keeps s0 s) (eq_ : execReqClr w s = .next tt) : Keeps s0 tt := by
  unfold execReqClr at eq_
  repeat' (first | split at eq_ | dsimp only at eq_)
  all_goals (first | (injection eq_ with eq_; subst eq_) | (cases eq_))
  repeat' (first
    | with_reducible assumption
    | with_reducible apply reqCode_keeps
    | with_reducible apply reqCtl_keeps
    | with_reducible refine keeps_ite ?_ ?_
    | with_reducible apply keepsParts_of
    | simp only [keeps_mk]
    | intro _
    | split
    | dsimp only [id])

theorem execMoverClr_keeps {s0 : State} {w : CtlWrite} {s : State}  {tt : State} (hk : Keeps s0 s) (eq_ : execMoverClr w s = .next tt) : Keeps s0 tt := by
  unfold execMoverClr at eq_
  repeat' (first | split at eq_ | dsimp only at eq_)
  all_goals (first | (injection eq_ with eq_; subst eq_) | (cases eq_))
  repeat' (first
    | with_reducible assumption
    | with_reducible apply ctl_keeps
    | with_reducible refine keeps_ite ?_ ?_
    | with_reducible apply keepsParts_of
    | simp only [keeps_mk]
    | intro _
    | split
    | dsimp only [id])

theorem holdExpiry_keeps {s0 : State} {q : ReqId} {s : State}  (hk : Keeps s0 s) :
    Keeps s0 (holdExpiry q s) := by
  unfold holdExpiry
  repeat' (first
    | with_reducible assumption
    | with_reducible apply shelveStart_keeps
    | with_reducible refine keeps_ite ?_ ?_
    | with_reducible apply keepsParts_of
    | simp only [keeps_mk]
    | intro _
    | split
    | dsimp only [id])

theorem execPauseHoldExpiry_keeps {s0 : State} {q : ReqId} {s : State}  {tt : State} (hk : Keeps s0 s) (eq_ : execPauseHoldExpiry q s = .next tt) : Keeps s0 tt := by
  unfold execPauseHoldExpiry at eq_
  repeat' (first | split at eq_ | dsimp only at eq_)
  all_goals (first | (injection eq_ with eq_; subst eq_) | (cases eq_))
  repeat' (first
    | with_reducible assumption
    | with_reducible apply unlessFenced_keeps
    | with_reducible apply holdExpiry_keeps
    | with_reducible refine keeps_ite ?_ ?_
    | with_reducible apply keepsParts_of
    | simp only [keeps_mk]
    | intro _
    | split
    | dsimp only [id])

theorem execShelveComplete_keeps {s0 : State} {q : WithReads ReqId} {s : State} {tt : State} (hk : Keeps s0 s) (eq_ : execShelveComplete q s = .next tt) : Keeps s0 tt := by
  unfold execShelveComplete at eq_
  repeat' (first | split at eq_ | dsimp only at eq_)
  all_goals (first | (injection eq_ with eq_; subst eq_) | (cases eq_))
  repeat' (first
    | with_reducible assumption
    | with_reducible apply afterShelf_keeps
    | with_reducible apply shelveDone_keeps
    | with_reducible refine keeps_ite ?_ ?_
    | with_reducible apply keepsParts_of
    | simp only [keeps_mk]
    | intro _
    | split
    | dsimp only [id])

theorem execResumeStage_keeps {s0 : State} {m : StageResume} {s : State}  {tt : State} (hk : Keeps s0 s) (eq_ : execResumeStage m s = .next tt) : Keeps s0 tt := by
  unfold execResumeStage at eq_
  repeat' (first | split at eq_ | dsimp only at eq_)
  all_goals (first | (injection eq_ with eq_; subst eq_) | (cases eq_))
  repeat' (first
    | with_reducible assumption
    | with_reducible apply resumeStage_keeps
    | with_reducible refine keeps_ite ?_ ?_
    | with_reducible apply keepsParts_of
    | simp only [keeps_mk]
    | intro _
    | split
    | dsimp only [id])

theorem recallEnd_keeps {s0 : State} {q : ReqId} {tagsOk : Bool} {s : State}  (hk : Keeps s0 s) :
    Keeps s0 (recallEnd q tagsOk s) := by
  unfold recallEnd
  repeat' (first
    | with_reducible assumption
    | with_reducible apply recallDone_keeps
    | with_reducible apply memberDrop_keeps
    | with_reducible apply afterShelf_keeps
    | with_reducible apply galleyUpd_keeps
    | with_reducible apply reportEnd_keeps
    | with_reducible refine keeps_ite ?_ ?_
    | with_reducible apply keepsParts_of
    | simp only [keeps_mk]
    | intro _
    | split
    | dsimp only [id])

theorem execRecallComplete_keeps {s0 : State} {q : ReqId} {tagsOk : Bool} {s : State}  {tt : State} (hk : Keeps s0 s) (eq_ : execRecallComplete q tagsOk s = .next tt) : Keeps s0 tt := by
  unfold execRecallComplete at eq_
  repeat' (first | split at eq_ | dsimp only at eq_)
  all_goals (first | (injection eq_ with eq_; subst eq_) | (cases eq_))
  repeat' (first
    | with_reducible assumption
    | with_reducible apply recallEnd_keeps
    | with_reducible refine keeps_ite ?_ ?_
    | with_reducible apply keepsParts_of
    | simp only [keeps_mk]
    | intro _
    | split
    | dsimp only [id])

theorem copyoutStart_keeps {s0 : State} {q : ReqId} {dest : DevId} {reads : ReadOutcome} {s : State} (hk : Keeps s0 s) :
    Keeps s0 (copyoutStart q dest reads s) := by
  unfold copyoutStart
  repeat' (first
    | with_reducible assumption
    | with_reducible apply foldl_keeps
    | with_reducible apply foldl_keeps_fst
    | with_reducible apply foldl_keeps_snd
    | with_reducible apply meterT1_keeps
    | with_reducible apply moverRead_keeps
    | with_reducible apply sendFw_keeps
    | (with_reducible apply moverRead_keeps_of (by assumption))
    | with_reducible refine keeps_ite ?_ ?_
    | with_reducible apply keepsParts_of
    | simp only [keeps_mk]
    | intro _
    | split
    | dsimp only [id])

theorem execCopyout_keeps {s0 : State} {q : ReqId} {dest : WithReads DevId} {s : State} {tt : State} (hk : Keeps s0 s) (eq_ : execCopyout q dest s = .next tt) : Keeps s0 tt := by
  unfold execCopyout at eq_
  repeat' (first | split at eq_ | dsimp only at eq_)
  all_goals (first | (injection eq_ with eq_; subst eq_) | (cases eq_))
  repeat' (first
    | with_reducible assumption
    | with_reducible apply copyoutStart_keeps
    | with_reducible apply unlessFenced_keeps
    | with_reducible refine keeps_ite ?_ ?_
    | with_reducible apply keepsParts_of
    | simp only [keeps_mk]
    | intro _
    | split
    | dsimp only [id])

theorem copyoutEnd_keeps {s0 : State} {q : ReqId} {c : Status} {s : State} (hk : Keeps s0 s) :
    Keeps s0 (copyoutEnd q c s) := by
  unfold copyoutEnd
  repeat' (first
    | with_reducible assumption
    | with_reducible apply recFree_keeps
    | with_reducible apply mirrorSend_keeps
    | with_reducible apply freeGalley_keeps
    | with_reducible refine keeps_ite ?_ ?_
    | with_reducible apply keepsParts_of
    | simp only [keeps_mk]
    | intro _
    | split
    | dsimp only [id])

theorem execCopyoutComplete_keeps {s0 : State} {q : ReqId} {c : Status} {s : State}  {tt : State} (hk : Keeps s0 s) (eq_ : execCopyoutComplete q c s = .next tt) : Keeps s0 tt := by
  unfold execCopyoutComplete at eq_
  repeat' (first | split at eq_ | dsimp only at eq_)
  all_goals (first | (injection eq_ with eq_; subst eq_) | (cases eq_))
  repeat' (first
    | with_reducible assumption
    | with_reducible apply unlessFenced_keeps
    | with_reducible apply copyoutEnd_keeps
    | with_reducible refine keeps_ite ?_ ?_
    | with_reducible apply keepsParts_of
    | simp only [keeps_mk]
    | intro _
    | split
    | dsimp only [id])

end Sys2Proof.Machine
end

