-- ==== Sys2Proof/Laws/KeepsTierCtl.lean ====
section
/-!
SUPPORT. What the operations of Sys2Proof/Machine/TierCtl.lean keep: the queue, the agreement of the TMR copies, and the canonical
form of the memories (Safety).
-/

namespace Sys2Proof.Machine

theorem tierCode_keeps {s0 : State} {c : Status} {s : State}  (hk : Keeps s0 s) :
    Keeps s0 (tierCode c s) := by
  unfold tierCode
  repeat' (first
    | with_reducible assumption
    | with_reducible refine keeps_ite ?_ ?_
    | with_reducible apply keepsParts_of
    | simp only [keeps_mk]
    | intro _
    | split
    | dsimp only [id])

theorem tierCtl_keeps {s0 : State} {w : CtlWrite} {own : Nat} {run : State → State} {s : State} (h_run : ∀ (u : State), Keeps s0 u → Keeps s0 (run u)) (hk : Keeps s0 s) :
    Keeps s0 (tierCtl w own run s) := by
  unfold tierCtl
  repeat' (first
    | with_reducible assumption
    | with_reducible apply tierCode_keeps
    | with_reducible apply ctl_keeps
    | with_reducible apply h_run
    | with_reducible refine keeps_ite ?_ ?_
    | with_reducible apply keepsParts_of
    | simp only [keeps_mk]
    | intro _
    | split
    | dsimp only [id])

theorem quotaWrite_keeps {s0 : State} {s : State}  (hk : Keeps s0 s) :
    Keeps s0 (quotaWrite s) := by
  unfold quotaWrite
  repeat' (first
    | with_reducible assumption
    | with_reducible apply tierCode_keeps
    | with_reducible refine keeps_ite ?_ ?_
    | with_reducible apply keepsParts_of
    | simp only [keeps_mk]
    | intro _
    | split
    | dsimp only [id])

theorem execQuotaWrite_keeps {s0 : State} {w : CtlWrite} {s : State}  {tt : State} (hk : Keeps s0 s) (eq_ : execQuotaWrite w s = .next tt) : Keeps s0 tt := by
  unfold execQuotaWrite at eq_
  repeat' (first | split at eq_ | dsimp only at eq_)
  all_goals (first | (injection eq_ with eq_; subst eq_) | (cases eq_))
  repeat' (first
    | with_reducible assumption
    | with_reducible apply quotaWrite_keeps
    | with_reducible apply tierCtl_keeps
    | with_reducible refine keeps_ite ?_ ?_
    | with_reducible apply keepsParts_of
    | simp only [keeps_mk]
    | intro _
    | split
    | dsimp only [id])

theorem quotaRead_keeps {s0 : State} {s : State}  (hk : Keeps s0 s) :
    Keeps s0 (quotaRead s) := by
  unfold quotaRead
  repeat' (first
    | with_reducible assumption
    | with_reducible apply tierCode_keeps
    | with_reducible refine keeps_ite ?_ ?_
    | with_reducible apply keepsParts_of
    | simp only [keeps_mk]
    | intro _
    | split
    | dsimp only [id])

theorem execQuotaRead_keeps {s0 : State} {w : CtlWrite} {s : State}  {tt : State} (hk : Keeps s0 s) (eq_ : execQuotaRead w s = .next tt) : Keeps s0 tt := by
  unfold execQuotaRead at eq_
  repeat' (first | split at eq_ | dsimp only at eq_)
  all_goals (first | (injection eq_ with eq_; subst eq_) | (cases eq_))
  repeat' (first
    | with_reducible assumption
    | with_reducible apply quotaRead_keeps
    | with_reducible apply tierCtl_keeps
    | with_reducible refine keeps_ite ?_ ?_
    | with_reducible apply keepsParts_of
    | simp only [keeps_mk]
    | intro _
    | split
    | dsimp only [id])

theorem t3Bind_keeps {s0 : State} {s : State}  (hk : Keeps s0 s) :
    Keeps s0 (t3Bind s) := by
  unfold t3Bind
  repeat' (first
    | with_reducible assumption
    | with_reducible apply tierCode_keeps
    | with_reducible refine keeps_ite ?_ ?_
    | with_reducible apply keepsParts_of
    | simp only [keeps_mk]
    | intro _
    | split
    | dsimp only [id])

theorem execT3Bind_keeps {s0 : State} {w : CtlWrite} {s : State}  {tt : State} (hk : Keeps s0 s) (eq_ : execT3Bind w s = .next tt) : Keeps s0 tt := by
  unfold execT3Bind at eq_
  repeat' (first | split at eq_ | dsimp only at eq_)
  all_goals (first | (injection eq_ with eq_; subst eq_) | (cases eq_))
  repeat' (first
    | with_reducible assumption
    | with_reducible apply tierCtl_keeps
    | with_reducible apply t3Bind_keeps
    | with_reducible refine keeps_ite ?_ ?_
    | with_reducible apply keepsParts_of
    | simp only [keeps_mk]
    | intro _
    | split
    | dsimp only [id])

theorem tierClear_keeps {s0 : State} {s : State}  (hk : Keeps s0 s) :
    Keeps s0 (tierClear s) := by
  unfold tierClear
  repeat' (first
    | with_reducible assumption
    | with_reducible apply tierCode_keeps
    | with_reducible refine keeps_ite ?_ ?_
    | with_reducible apply keepsParts_of
    | simp only [keeps_mk]
    | intro _
    | split
    | dsimp only [id])

theorem execTierClr_keeps {s0 : State} {w : CtlWrite} {s : State}  {tt : State} (hk : Keeps s0 s) (eq_ : execTierClr w s = .next tt) : Keeps s0 tt := by
  unfold execTierClr at eq_
  repeat' (first | split at eq_ | dsimp only at eq_)
  all_goals (first | (injection eq_ with eq_; subst eq_) | (cases eq_))
  repeat' (first
    | with_reducible assumption
    | with_reducible apply tierClear_keeps
    | with_reducible apply tierCtl_keeps
    | with_reducible refine keeps_ite ?_ ?_
    | with_reducible apply keepsParts_of
    | simp only [keeps_mk]
    | intro _
    | split
    | dsimp only [id])

theorem scrubFails_keeps {s0 : State} {mac : Bool} {g : Nat} {s : State} (hk : Keeps s0 s) :
    Keeps s0 (scrubFails mac g s) := by
  unfold scrubFails
  repeat' (first
    | with_reducible assumption
    | with_reducible apply granuleFail_keeps
    | with_reducible refine keeps_ite ?_ ?_
    | with_reducible apply keepsParts_of
    | simp only [keeps_mk]
    | intro _
    | split
    | dsimp only [id])

theorem scrub_keeps {s0 : State} {o : ReadOutcome} {s : State}  (hk : Keeps s0 s) :
    Keeps s0 (scrub o s) := by
  unfold scrub
  repeat' (first
    | with_reducible assumption
    | with_reducible apply countGranules_keeps
    | with_reducible apply scrubFails_keeps
    | with_reducible apply lpcUpd_keeps
    | with_reducible refine keeps_ite ?_ ?_
    | with_reducible apply keepsParts_of
    | simp only [keeps_mk]
    | intro _
    | split
    | dsimp only [id])

theorem execT1Scrub_keeps {s0 : State} {o : ReadOutcome} {s : State} {tt : State} (hk : Keeps s0 s) (eq_ : execT1Scrub o s = .next tt) : Keeps s0 tt := by
  unfold execT1Scrub at eq_
  repeat' (first | split at eq_ | dsimp only at eq_)
  all_goals (first | (injection eq_ with eq_; subst eq_) | (cases eq_))
  repeat' (first
    | with_reducible assumption
    | with_reducible apply scrub_keeps
    | with_reducible apply reserveStop_keeps
    | with_reducible refine keeps_ite ?_ ?_
    | with_reducible apply keepsParts_of
    | simp only [keeps_mk]
    | intro _
    | split
    | dsimp only [id])

theorem execRefresh_keeps {s0 : State} {ch : Fin 48} {intervalNs : Word} {s : State}  {tt : State} (hk : Keeps s0 s) (eq_ : execRefresh ch intervalNs s = .next tt) : Keeps s0 tt := by
  unfold execRefresh at eq_
  repeat' (first | split at eq_ | dsimp only at eq_)
  all_goals (first | (injection eq_ with eq_; subst eq_) | (cases eq_))
  repeat' (first
    | with_reducible assumption
    | with_reducible apply bumpFree_keeps
    | with_reducible apply lpcUpd_keeps
    | with_reducible refine keeps_ite ?_ ?_
    | with_reducible apply keepsParts_of
    | simp only [keeps_mk]
    | intro _
    | split
    | dsimp only [id])

theorem execRefreshManagement_keeps {s0 : State} {ch : Fin 48} {s : State}  {tt : State} (hk : Keeps s0 s) (eq_ : execRefreshManagement ch s = .next tt) : Keeps s0 tt := by
  unfold execRefreshManagement at eq_
  repeat' (first | split at eq_ | dsimp only at eq_)
  all_goals (first | (injection eq_ with eq_; subst eq_) | (cases eq_))
  repeat' (first
    | with_reducible assumption
    | with_reducible apply lpcUpd_keeps
    | with_reducible refine keeps_ite ?_ ?_
    | with_reducible apply keepsParts_of
    | simp only [keeps_mk]
    | intro _
    | split
    | dsimp only [id])

theorem channelLost_keeps {s0 : State} {c : Nat} {s : State}  (hk : Keeps s0 s) :
    Keeps s0 (channelLost c s) := by
  unfold channelLost
  repeat' (first
    | with_reducible assumption
    | with_reducible apply channelFailed_keeps
    | with_reducible apply selftestStops_keeps
    | with_reducible apply addRepair_keeps
    | with_reducible apply fatalStop_keeps
    | with_reducible refine keeps_ite ?_ ?_
    | with_reducible apply keepsParts_of
    | simp only [keeps_mk]
    | intro _
    | split
    | dsimp only [id])

theorem execChannelFail_keeps {s0 : State} {ch : Fin 48} {s : State}  {tt : State} (hk : Keeps s0 s) (eq_ : execChannelFail ch s = .next tt) : Keeps s0 tt := by
  unfold execChannelFail at eq_
  repeat' (first | split at eq_ | dsimp only at eq_)
  all_goals (first | (injection eq_ with eq_; subst eq_) | (cases eq_))
  repeat' (first
    | with_reducible assumption
    | with_reducible apply channelLost_keeps
    | with_reducible refine keeps_ite ?_ ?_
    | with_reducible apply keepsParts_of
    | simp only [keeps_mk]
    | intro _
    | split
    | dsimp only [id])

theorem recallFault_keeps {s0 : State} {q : ReqId} {s : State}  (hk : Keeps s0 s) :
    Keeps s0 (recallFault q s) := by
  unfold recallFault
  repeat' (first
    | with_reducible assumption
    | with_reducible apply resetGalley_keeps
    | with_reducible apply memberDrop_keeps
    | with_reducible apply galleyUpd_keeps
    | with_reducible apply refusal_keeps
    | with_reducible apply sendFw_keeps
    | with_reducible refine keeps_ite ?_ ?_
    | with_reducible apply keepsParts_of
    | simp only [keeps_mk]
    | intro _
    | split
    | dsimp only [id])

theorem t3Fault_keeps {s0 : State} {q : ReqId} {s : State} (hk : Keeps s0 s) :
    Keeps s0 (t3Fault q s) := by
  unfold t3Fault
  repeat' (first
    | with_reducible assumption
    | with_reducible apply recallFault_keeps
    | with_reducible apply afterShelf_keeps
    | with_reducible apply noteErr_keeps
    | with_reducible apply shelveAbandon_keeps
    | with_reducible refine keeps_ite ?_ ?_
    | with_reducible apply keepsParts_of
    | simp only [keeps_mk]
    | intro _
    | split
    | dsimp only [id])

theorem execT3Fault_keeps {s0 : State} {q : ReqId} {s : State}  {tt : State} (hk : Keeps s0 s) (eq_ : execT3Fault q s = .next tt) : Keeps s0 tt := by
  unfold execT3Fault at eq_
  repeat' (first | split at eq_ | dsimp only at eq_)
  all_goals (first | (injection eq_ with eq_; subst eq_) | (cases eq_))
  repeat' (first
    | with_reducible assumption
    | with_reducible apply t3Fault_keeps
    | with_reducible refine keeps_ite ?_ ?_
    | with_reducible apply keepsParts_of
    | simp only [keeps_mk]
    | intro _
    | split
    | dsimp only [id])

theorem shelveRetry_keeps {s0 : State} {q : ReqId} {s : State} (hk : Keeps s0 s) :
    Keeps s0 (shelveRetry q s) := by
  unfold shelveRetry
  repeat' (first
    | with_reducible assumption
    | with_reducible apply recallStart_keeps
    | with_reducible apply shelveStart_keeps
    | with_reducible refine keeps_ite ?_ ?_
    | with_reducible apply keepsParts_of
    | simp only [keeps_mk]
    | intro _
    | split
    | dsimp only [id])

theorem execShelveRetry_keeps {s0 : State} {q : ReqId} {s : State}  {tt : State} (hk : Keeps s0 s) (eq_ : execShelveRetry q s = .next tt) : Keeps s0 tt := by
  unfold execShelveRetry at eq_
  repeat' (first | split at eq_ | dsimp only at eq_)
  all_goals (first | (injection eq_ with eq_; subst eq_) | (cases eq_))
  repeat' (first
    | with_reducible assumption
    | with_reducible apply unlessFenced_keeps
    | with_reducible apply shelveRetry_keeps
    | with_reducible refine keeps_ite ?_ ?_
    | with_reducible apply keepsParts_of
    | simp only [keeps_mk]
    | intro _
    | split
    | dsimp only [id])

theorem galleyExpiry_keeps {s0 : State} {q : ReqId} {s : State} (hk : Keeps s0 s) :
    Keeps s0 (galleyExpiry q s) := by
  unfold galleyExpiry
  repeat' (first
    | with_reducible assumption
    | with_reducible apply expirePages_keeps
    | with_reducible refine keeps_ite ?_ ?_
    | with_reducible apply keepsParts_of
    | simp only [keeps_mk]
    | intro _
    | split
    | dsimp only [id])

theorem execGalleyExpiry_keeps {s0 : State} {q : ReqId} {s : State}  {tt : State} (hk : Keeps s0 s) (eq_ : execGalleyExpiry q s = .next tt) : Keeps s0 tt := by
  unfold execGalleyExpiry at eq_
  repeat' (first | split at eq_ | dsimp only at eq_)
  all_goals (first | (injection eq_ with eq_; subst eq_) | (cases eq_))
  repeat' (first
    | with_reducible assumption
    | with_reducible apply galleyExpiry_keeps
    | with_reducible refine keeps_ite ?_ ?_
    | with_reducible apply keepsParts_of
    | simp only [keeps_mk]
    | intro _
    | split
    | dsimp only [id])

end Sys2Proof.Machine
end

