-- ==== Sys2Proof/Laws/KeepsHost.lean ====
section
/-!
SUPPORT. What the operations of Sys2Proof/Machine/Host.lean keep: the queue, the agreement of the TMR copies, and the canonical
form of the memories (Safety).
-/

namespace Sys2Proof.Machine

theorem hostCode_keeps {s0 : State} {fn : FnId} {c : Status} {s : State}  (hk : Keeps s0 s) :
    Keeps s0 (hostCode fn c s) := by
  unfold hostCode
  repeat' (first
    | with_reducible assumption
    | with_reducible apply fnUpd_keeps
    | with_reducible refine keeps_ite ?_ ?_
    | with_reducible apply keepsParts_of
    | simp only [keeps_mk]
    | intro _
    | split
    | dsimp only [id])

theorem hostSettings_keeps {s0 : State} {w : CtlWrite} {s : State}  (hk : Keeps s0 s) :
    Keeps s0 (hostSettings w s) := by
  unfold hostSettings
  repeat' (first
    | with_reducible assumption
    | with_reducible apply faultPost_keeps
    | with_reducible apply hostCode_keeps
    | with_reducible apply fnUpd_keeps
    | with_reducible refine keeps_ite ?_ ?_
    | with_reducible apply keepsParts_of
    | simp only [keeps_mk]
    | intro _
    | split
    | dsimp only [id])

theorem hostCtl_keeps {s0 : State} {w : CtlWrite} {own : Nat} {run : State → State} {s : State} (h_run : ∀ (u : State), Keeps s0 u → Keeps s0 (run u)) (hk : Keeps s0 s) :
    Keeps s0 (hostCtl w own run s) := by
  unfold hostCtl
  repeat' (first
    | with_reducible assumption
    | with_reducible apply hostSettings_keeps
    | with_reducible apply hostCode_keeps
    | with_reducible apply h_run
    | with_reducible refine keeps_ite ?_ ?_
    | with_reducible apply keepsParts_of
    | simp only [keeps_mk]
    | intro _
    | split
    | dsimp only [id])

theorem ringEnable_keeps {s0 : State} {fn : FnId} {s : State}  (hk : Keeps s0 s) :
    Keeps s0 (ringEnable fn s) := by
  unfold ringEnable
  repeat' (first
    | with_reducible assumption
    | with_reducible apply releaseHeld_keeps
    | with_reducible apply hostCode_keeps
    | with_reducible apply ringUpd_keeps
    | with_reducible refine keeps_ite ?_ ?_
    | with_reducible apply keepsParts_of
    | simp only [keeps_mk]
    | intro _
    | split
    | dsimp only [id])

theorem execEnable_keeps {s0 : State} {w : CtlWrite} {s : State}  {tt : State} (hk : Keeps s0 s) (eq_ : execEnable w s = .next tt) : Keeps s0 tt := by
  unfold execEnable at eq_
  repeat' (first | split at eq_ | dsimp only at eq_)
  all_goals (first | (injection eq_ with eq_; subst eq_) | (cases eq_))
  repeat' (first
    | with_reducible assumption
    | with_reducible apply ringEnable_keeps
    | with_reducible apply hostCtl_keeps
    | with_reducible refine keeps_ite ?_ ?_
    | with_reducible apply keepsParts_of
    | simp only [keeps_mk]
    | intro _
    | split
    | dsimp only [id])

theorem ringDisable_keeps {s0 : State} {fn : FnId} {s : State}  (hk : Keeps s0 s) :
    Keeps s0 (ringDisable fn s) := by
  unfold ringDisable
  repeat' (first
    | with_reducible assumption
    | with_reducible apply hostCode_keeps
    | with_reducible apply ringUpd_keeps
    | with_reducible apply fnUpd_keeps
    | with_reducible refine keeps_ite ?_ ?_
    | with_reducible apply keepsParts_of
    | simp only [keeps_mk]
    | intro _
    | split
    | dsimp only [id])

theorem execDisable_keeps {s0 : State} {w : CtlWrite} {s : State}  {tt : State} (hk : Keeps s0 s) (eq_ : execDisable w s = .next tt) : Keeps s0 tt := by
  unfold execDisable at eq_
  repeat' (first | split at eq_ | dsimp only at eq_)
  all_goals (first | (injection eq_ with eq_; subst eq_) | (cases eq_))
  repeat' (first
    | with_reducible assumption
    | with_reducible apply ringDisable_keeps
    | with_reducible apply hostCtl_keeps
    | with_reducible refine keeps_ite ?_ ?_
    | with_reducible apply keepsParts_of
    | simp only [keeps_mk]
    | intro _
    | split
    | dsimp only [id])

theorem execFaultEn_keeps {s0 : State} {w : CtlWrite} {s : State}  {tt : State} (hk : Keeps s0 s) (eq_ : execFaultEn w s = .next tt) : Keeps s0 tt := by
  unfold execFaultEn at eq_
  repeat' (first | split at eq_ | dsimp only at eq_)
  all_goals (first | (injection eq_ with eq_; subst eq_) | (cases eq_))
  repeat' (first
    | with_reducible assumption
    | with_reducible apply hostSettings_keeps
    | with_reducible refine keeps_ite ?_ ?_
    | with_reducible apply keepsParts_of
    | simp only [keeps_mk]
    | intro _
    | split
    | dsimp only [id])

theorem sqDoorbell_keeps {s0 : State} {r : RingRef} {prod : BitVec 16} {s : State}  (hk : Keeps s0 s) :
    Keeps s0 (sqDoorbell r prod s) := by
  unfold sqDoorbell
  repeat' (first
    | with_reducible assumption
    | with_reducible apply ringFails_keeps
    | with_reducible apply ringUpd_keeps
    | with_reducible refine keeps_ite ?_ ?_
    | with_reducible apply keepsParts_of
    | simp only [keeps_mk]
    | intro _
    | split
    | dsimp only [id])

theorem execSqDoorbell_keeps {s0 : State} {fn : FnId} {set : BitVec 3} {value : Word} {s : State}  {tt : State} (hk : Keeps s0 s) (eq_ : execSqDoorbell fn set value s = .next tt) : Keeps s0 tt := by
  unfold execSqDoorbell at eq_
  repeat' (first | split at eq_ | dsimp only at eq_)
  all_goals (first | (injection eq_ with eq_; subst eq_) | (cases eq_))
  repeat' (first
    | with_reducible assumption
    | with_reducible apply sqDoorbell_keeps
    | with_reducible refine keeps_ite ?_ ?_
    | with_reducible apply keepsParts_of
    | simp only [keeps_mk]
    | intro _
    | split
    | dsimp only [id])

theorem blockRead_keeps {s0 : State} {q : Nat} {b : RingBlock} {s : State} (hk : Keeps s0 s) :
    Keeps s0 (blockRead q b s) := by
  unfold blockRead
  repeat' (first
    | with_reducible assumption
    | with_reducible apply qpUpd_keeps
    | with_reducible refine keeps_ite ?_ ?_
    | with_reducible apply keepsParts_of
    | simp only [keeps_mk]
    | intro _
    | split
    | dsimp only [id])

theorem qpDoorbell_keeps {s0 : State} {fn : FnId} {q : Nat} {recv : Bool} {read : RingRead} {s : State} (hk : Keeps s0 s) :
    Keeps s0 (qpDoorbell fn q recv read s) := by
  unfold qpDoorbell
  repeat' (first
    | with_reducible assumption
    | with_reducible apply qpError_keeps
    | with_reducible apply qpUpd_keeps
    | with_reducible apply blockRead_keeps
    | with_reducible refine keeps_ite ?_ ?_
    | with_reducible apply keepsParts_of
    | simp only [keeps_mk]
    | intro _
    | split
    | dsimp only [id])

theorem execQpDoorbell_keeps {s0 : State} {fn : FnId} {value : Word} {read : RingRead} {s : State} {tt : State} (hk : Keeps s0 s) (eq_ : execQpDoorbell fn value read s = .next tt) : Keeps s0 tt := by
  unfold execQpDoorbell at eq_
  repeat' (first | split at eq_ | dsimp only at eq_)
  all_goals (first | (injection eq_ with eq_; subst eq_) | (cases eq_))
  repeat' (first
    | with_reducible assumption
    | with_reducible apply qpDoorbell_keeps
    | with_reducible refine keeps_ite ?_ ?_
    | with_reducible apply keepsParts_of
    | simp only [keeps_mk]
    | intro _
    | split
    | dsimp only [id])

theorem consumerWrite_keeps {s0 : State} {r : ConsumerReg} {v : Word} {s : State}  (hk : Keeps s0 s) :
    Keeps s0 (consumerWrite r v s) := by
  unfold consumerWrite
  repeat' (first
    | with_reducible assumption
    | with_reducible apply releaseHeld_keeps
    | with_reducible apply faultPost_keeps
    | with_reducible apply ringUpd_keeps
    | with_reducible apply fnUpd_keeps
    | with_reducible refine keeps_ite ?_ ?_
    | with_reducible apply keepsParts_of
    | simp only [keeps_mk]
    | intro _
    | split
    | dsimp only [id])

theorem execConsumerWrite_keeps {s0 : State} {r : ConsumerReg} {v : Word} {s : State}  {tt : State} (hk : Keeps s0 s) (eq_ : execConsumerWrite r v s = .next tt) : Keeps s0 tt := by
  unfold execConsumerWrite at eq_
  repeat' (first | split at eq_ | dsimp only at eq_)
  all_goals (first | (injection eq_ with eq_; subst eq_) | (cases eq_))
  repeat' (first
    | with_reducible assumption
    | with_reducible apply consumerWrite_keeps
    | with_reducible refine keeps_ite ?_ ?_
    | with_reducible apply keepsParts_of
    | simp only [keeps_mk]
    | intro _
    | split
    | dsimp only [id])

theorem holdoffEnds_keeps {s0 : State} {fn : FnId} {vector : BitVec 5} {s : State}  (hk : Keeps s0 s) :
    Keeps s0 (holdoffEnds fn vector s) := by
  unfold holdoffEnds
  repeat' (first
    | with_reducible assumption
    | with_reducible apply foldl_keeps
    | with_reducible apply foldl_keeps_fst
    | with_reducible apply foldl_keeps_snd
    | with_reducible apply ringUpd_keeps
    | with_reducible apply msix_keeps
    | with_reducible refine keeps_ite ?_ ?_
    | with_reducible apply keepsParts_of
    | simp only [keeps_mk]
    | intro _
    | split
    | dsimp only [id])

theorem execInterruptHoldoffExpiry_keeps {s0 : State} {fn : FnId} {vector : BitVec 5} {s : State}  {tt : State} (hk : Keeps s0 s) (eq_ : execInterruptHoldoffExpiry fn vector s = .next tt) : Keeps s0 tt := by
  unfold execInterruptHoldoffExpiry at eq_
  repeat' (first | split at eq_ | dsimp only at eq_)
  all_goals (first | (injection eq_ with eq_; subst eq_) | (cases eq_))
  repeat' (first
    | with_reducible assumption
    | with_reducible apply holdoffEnds_keeps
    | with_reducible refine keeps_ite ?_ ?_
    | with_reducible apply keepsParts_of
    | simp only [keeps_mk]
    | intro _
    | split
    | dsimp only [id])

theorem contextCancels_keeps {s0 : State} {c : Nat} {s : State}  (hk : Keeps s0 s) :
    Keeps s0 (contextCancels c s) := by
  unfold contextCancels
  repeat' (first
    | with_reducible assumption
    | with_reducible apply foldl_keeps
    | with_reducible apply foldl_keeps_fst
    | with_reducible apply foldl_keeps_snd
    | with_reducible apply anchorCancel_keeps
    | with_reducible apply anchorUpd_keeps
    | with_reducible refine keeps_ite ?_ ?_
    | with_reducible apply keepsParts_of
    | simp only [keeps_mk]
    | intro _
    | split
    | dsimp only [id])

theorem contextRma_keeps {s0 : State} {c : Nat} {s : State} (hk : Keeps s0 s) :
    Keeps s0 (contextRma c s) := by
  unfold contextRma
  repeat' (first
    | with_reducible assumption
    | with_reducible apply deregRun_keeps
    | with_reducible refine keeps_ite ?_ ?_
    | with_reducible apply keepsParts_of
    | simp only [keeps_mk]
    | intro _
    | split
    | dsimp only [id])

theorem contextSched_keeps {s0 : State} {c : Nat} {s : State}  (hk : Keeps s0 s) :
    Keeps s0 (contextSched c s) := by
  unfold contextSched
  repeat' (first
    | with_reducible assumption
    | with_reducible exact .inl rfl
    | with_reducible exact .inr (tmrAll_agree _)
    | with_reducible apply getD_keeps
    | with_reducible refine keeps_ite ?_ ?_
    | with_reducible apply keepsParts_of
    | simp only [keeps_mk]
    | with_reducible apply memOk_ite
    | with_reducible apply memParts_of
    | simp only [memOk_mk]
    | with_reducible refine memParts_mk ?_ ?_ ?_
    | exact Mem.nil_wf
    | (with_reducible refine keepsParts_mem ?_ ?_ ?_ ?_ ?_)
    | with_reducible exact id
    | with_reducible exact Mem.store_wf _ _ _
    | with_reducible exact Mem.clear_wf _ _ _
    | with_reducible exact foldl_clear_wf
    | with_reducible exact (fun _ => Mem.nil_wf)
    | with_reducible exact (all_nil_keeps (p := Saved.memOk))
    | with_reducible exact (all_filter_keeps (p := Saved.memOk))
    | with_reducible exact (all_nil_keeps (p := Cluster.memOk))
    | with_reducible apply all_map_keeps
    | (with_reducible refine keepsParts_tmr ?_ ?_ ?_ ?_ ?_ ?_ ?_ ?_)
    | exact .inr rfl
    | exact .inl rfl
    | exact .inr (tmrAll_agree _)
    | intro _
    | split
    | dsimp only [id])

theorem contextReset_keeps {s0 : State} {c : Nat} {s : State}  (hk : Keeps s0 s) :
    Keeps s0 (contextReset c s) := by
  unfold contextReset
  repeat' (first
    | with_reducible assumption
    | with_reducible apply contextCancels_keeps
    | with_reducible apply contextSched_keeps
    | with_reducible apply contextRma_keeps
    | with_reducible refine keeps_ite ?_ ?_
    | with_reducible apply keepsParts_of
    | simp only [keeps_mk]
    | intro _
    | split
    | dsimp only [id])

theorem vfReset_keeps {s0 : State} {c : Nat} {s : State}  (hk : Keeps s0 s) :
    Keeps s0 (vfReset c s) := by
  unfold vfReset
  repeat' (first
    | with_reducible assumption
    | with_reducible apply contextReset_keeps
    | with_reducible refine keeps_ite ?_ ?_
    | with_reducible apply keepsParts_of
    | simp only [keeps_mk]
    | intro _
    | split
    | dsimp only [id])

theorem pfReset_keeps {s0 : State} {s : State}  (hk : Keeps s0 s) :
    Keeps s0 (pfReset s) := by
  unfold pfReset
  repeat' (first
    | with_reducible assumption
    | with_reducible apply foldl_keeps
    | with_reducible apply foldl_keeps_fst
    | with_reducible apply foldl_keeps_snd
    | with_reducible apply contextReset_keeps
    | with_reducible refine keeps_ite ?_ ?_
    | with_reducible apply keepsParts_of
    | simp only [keeps_mk]
    | intro _
    | split
    | dsimp only [id])

theorem fnReset_keeps {s0 : State} {fn : FnId} {cause : FlrCause} {s : State}  (hk : Keeps s0 s) :
    Keeps s0 (fnReset fn cause s) := by
  unfold fnReset
  repeat' (first
    | with_reducible assumption
    | with_reducible apply tdiError_keeps
    | with_reducible apply vfReset_keeps
    | with_reducible apply pfReset_keeps
    | with_reducible refine keeps_ite ?_ ?_
    | with_reducible apply keepsParts_of
    | simp only [keeps_mk]
    | intro _
    | split
    | dsimp only [id])

theorem execFlr_keeps {s0 : State} {fn : FnId} {cause : FlrCause} {s : State}  {tt : State} (hk : Keeps s0 s) (eq_ : execFlr fn cause s = .next tt) : Keeps s0 tt := by
  unfold execFlr at eq_
  repeat' (first | split at eq_ | dsimp only at eq_)
  all_goals (first | (injection eq_ with eq_; subst eq_) | (cases eq_))
  repeat' (first
    | with_reducible assumption
    | with_reducible apply tdiError_keeps
    | with_reducible apply fnReset_keeps
    | with_reducible refine keeps_ite ?_ ?_
    | with_reducible apply keepsParts_of
    | simp only [keeps_mk]
    | intro _
    | split
    | dsimp only [id])

theorem execFlrComplete_keeps {s0 : State} {fn : FnId} {s : State}  {tt : State} (hk : Keeps s0 s) (eq_ : execFlrComplete fn s = .next tt) : Keeps s0 tt := by
  unfold execFlrComplete at eq_
  repeat' (first | split at eq_ | dsimp only at eq_)
  all_goals (first | (injection eq_ with eq_; subst eq_) | (cases eq_))
  repeat' (first
    | with_reducible assumption
    | with_reducible apply controlQp_keeps
    | with_reducible refine keeps_ite ?_ ?_
    | with_reducible apply keepsParts_of
    | simp only [keeps_mk]
    | intro _
    | split
    | dsimp only [id])

theorem execHotReset_keeps {s0 : State} {s : State}  {tt : State} (hk : Keeps s0 s) (eq_ : execHotReset s = .next tt) : Keeps s0 tt := by
  unfold execHotReset at eq_
  repeat' (first | split at eq_ | dsimp only at eq_)
  all_goals (first | (injection eq_ with eq_; subst eq_) | (cases eq_))
  repeat' (first
    | with_reducible assumption
    | with_reducible apply fnReset_keeps
    | with_reducible refine keeps_ite ?_ ?_
    | with_reducible apply keepsParts_of
    | simp only [keeps_mk]
    | intro _
    | split
    | dsimp only [id])

theorem execVfEnable_keeps {s0 : State} {n : BitVec 6} {s : State}  {tt : State} (hk : Keeps s0 s) (eq_ : execVfEnable n s = .next tt) : Keeps s0 tt := by
  unfold execVfEnable at eq_
  repeat' (first | split at eq_ | dsimp only at eq_)
  all_goals (first | (injection eq_ with eq_; subst eq_) | (cases eq_))
  repeat' (first
    | with_reducible assumption
    | with_reducible apply foldl_keeps
    | with_reducible apply foldl_keeps_fst
    | with_reducible apply foldl_keeps_snd
    | with_reducible apply controlQp_keeps
    | with_reducible refine keeps_ite ?_ ?_
    | with_reducible apply keepsParts_of
    | simp only [keeps_mk]
    | intro _
    | split
    | dsimp only [id])

theorem execD3hotEntry_keeps {s0 : State} {fn : FnId} {s : State}  {tt : State} (hk : Keeps s0 s) (eq_ : execD3hotEntry fn s = .next tt) : Keeps s0 tt := by
  unfold execD3hotEntry at eq_
  repeat' (first | split at eq_ | dsimp only at eq_)
  all_goals (first | (injection eq_ with eq_; subst eq_) | (cases eq_))
  repeat' (first
    | with_reducible assumption
    | with_reducible refine keeps_ite ?_ ?_
    | with_reducible apply keepsParts_of
    | simp only [keeps_mk]
    | intro _
    | split
    | dsimp only [id])

theorem execIdeKm_keeps {s0 : State} {stream : BitVec 7} {refresh : Bool} {s : State}  {tt : State} (hk : Keeps s0 s) (eq_ : execIdeKm stream refresh s = .next tt) : Keeps s0 tt := by
  unfold execIdeKm at eq_
  repeat' (first | split at eq_ | dsimp only at eq_)
  all_goals (first | (injection eq_ with eq_; subst eq_) | (cases eq_))
  repeat' (first
    | with_reducible assumption
    | with_reducible refine keeps_ite ?_ ?_
    | with_reducible apply keepsParts_of
    | simp only [keeps_mk]
    | intro _
    | split
    | dsimp only [id])

theorem tdiError_keeps {s0 : State} {fn : FnId} {s : State}  (hk : Keeps s0 s) :
    Keeps s0 (tdiError fn s) := by
  unfold tdiError
  repeat' (first
    | with_reducible assumption
    | with_reducible apply fnReset_keeps
    | with_reducible apply msix_keeps
    | with_reducible refine keeps_ite ?_ ?_
    | with_reducible apply keepsParts_of
    | simp only [keeps_mk]
    | intro _
    | split
    | dsimp only [id])

theorem execIdeIntegrityFailure_keeps {s0 : State} {stream : BitVec 7} {fn : FnId} {s : State}  {tt : State} (hk : Keeps s0 s) (eq_ : execIdeIntegrityFailure stream fn s = .next tt) : Keeps s0 tt := by
  unfold execIdeIntegrityFailure at eq_
  repeat' (first | split at eq_ | dsimp only at eq_)
  all_goals (first | (injection eq_ with eq_; subst eq_) | (cases eq_))
  repeat' (first
    | with_reducible assumption
    | with_reducible apply tdiError_keeps
    | with_reducible refine keeps_ite ?_ ?_
    | with_reducible apply keepsParts_of
    | simp only [keeps_mk]
    | intro _
    | split
    | dsimp only [id])

theorem execLockInterface_keeps {s0 : State} {vf : FnId} {s : State}  {tt : State} (hk : Keeps s0 s) (eq_ : execLockInterface vf s = .next tt) : Keeps s0 tt := by
  unfold execLockInterface at eq_
  repeat' (first | split at eq_ | dsimp only at eq_)
  all_goals (first | (injection eq_ with eq_; subst eq_) | (cases eq_))
  repeat' (first
    | with_reducible assumption
    | with_reducible apply msix_keeps
    | with_reducible refine keeps_ite ?_ ?_
    | with_reducible apply keepsParts_of
    | simp only [keeps_mk]
    | intro _
    | split
    | dsimp only [id])

theorem entryUnread_keeps {s0 : State} {r : RingRef} {e : SqEntry} {s : State}  (hk : Keeps s0 s) :
    Keeps s0 (entryUnread r e s) := by
  unfold entryUnread
  repeat' (first
    | with_reducible assumption
    | with_reducible apply takeEntry_keeps
    | with_reducible apply postCq_keeps
    | with_reducible refine keeps_ite ?_ ?_
    | with_reducible apply keepsParts_of
    | simp only [keeps_mk]
    | intro _
    | split
    | dsimp only [id])

theorem dmaFails_keeps {s0 : State} {t : DmaTarget} {s : State}  (hk : Keeps s0 s) :
    Keeps s0 (dmaFails t s) := by
  unfold dmaFails
  repeat' (first
    | with_reducible assumption
    | with_reducible apply entryUnread_keeps
    | with_reducible apply formeImage_keeps
    | with_reducible apply ringFails_keeps
    | with_reducible apply qpError_keeps
    | with_reducible apply t3Fault_keeps
    | with_reducible refine keeps_ite ?_ ?_
    | with_reducible apply keepsParts_of
    | simp only [keeps_mk]
    | intro _
    | split
    | dsimp only [id])

theorem execDmaFailure_keeps {s0 : State} {t : DmaTarget} {s : State}  {tt : State} (hk : Keeps s0 s) (eq_ : execDmaFailure t s = .next tt) : Keeps s0 tt := by
  unfold execDmaFailure at eq_
  repeat' (first | split at eq_ | dsimp only at eq_)
  all_goals (first | (injection eq_ with eq_; subst eq_) | (cases eq_))
  repeat' (first
    | with_reducible assumption
    | with_reducible apply dmaFails_keeps
    | with_reducible refine keeps_ite ?_ ?_
    | with_reducible apply keepsParts_of
    | simp only [keeps_mk]
    | intro _
    | split
    | dsimp only [id])

end Sys2Proof.Machine
end

