-- ==== Sys2Proof/Laws/KeepsLinkOps.lean ====
section
/-!
SUPPORT. What the operations of Sys2Proof/Machine/LinkOps.lean keep: the queue, the agreement of the TMR copies, and the canonical
form of the memories (Safety).
-/

namespace Sys2Proof.Machine

theorem moveQueued_keeps {s0 : State} {n : Nat} {pkt : Packet} {q : Queued} {s : State} (hk : Keeps s0 s) :
    Keeps s0 (moveQueued n pkt q s) := by
  unfold moveQueued
  repeat' (first
    | with_reducible assumption
    | with_reducible apply pushPacket_keeps
    | with_reducible refine keeps_ite ?_ ?_
    | with_reducible apply keepsParts_of
    | simp only [keeps_mk]
    | intro _
    | split
    | dsimp only [id])

theorem requeueNear_keeps {s0 : State} {q : Queued} {s : State} (hk : Keeps s0 s) :
    Keeps s0 (requeueNear q s) := by
  unfold requeueNear
  repeat' (first
    | with_reducible assumption
    | with_reducible apply moveQueued_keeps
    | with_reducible apply trayDstUpd_keeps
    | with_reducible refine keeps_ite ?_ ?_
    | with_reducible apply keepsParts_of
    | simp only [keeps_mk]
    | intro _
    | split
    | dsimp only [id])

theorem requeueFar_keeps {s0 : State} {q : Queued} {s : State} (hk : Keeps s0 s) :
    Keeps s0 (requeueFar q s) := by
  unfold requeueFar
  repeat' (first
    | with_reducible assumption
    | with_reducible apply getD_keeps
    | with_reducible apply moveQueued_keeps
    | with_reducible refine keeps_ite ?_ ?_
    | with_reducible apply keepsParts_of
    | simp only [keeps_mk]
    | intro _
    | split
    | dsimp only [id])

theorem ownerLosesLink_keeps {s0 : State} {n : Nat} {qs : List Queued} {before : State} {s : State}  (hk : Keeps s0 s) :
    Keeps s0 (ownerLosesLink n qs before s) := by
  unfold ownerLosesLink
  repeat' (first
    | with_reducible assumption
    | with_reducible apply foldl_keeps
    | with_reducible apply foldl_keeps_fst
    | with_reducible apply foldl_keeps_snd
    | with_reducible apply creditsRepath_keeps
    | with_reducible apply nearLinkLost_keeps
    | with_reducible apply nearDrained_keeps
    | with_reducible apply requeueNear_keeps
    | with_reducible apply farDrained_keeps
    | with_reducible apply sendLstate_keeps
    | with_reducible apply requeueFar_keeps
    | with_reducible refine keeps_ite ?_ ?_
    | with_reducible apply keepsParts_of
    | simp only [keeps_mk]
    | intro _
    | split
    | dsimp only [id])

theorem linkGoesDown_keeps {s0 : State} {n : Nat} {s : State}  (hk : Keeps s0 s) :
    Keeps s0 (linkGoesDown n s) := by
  unfold linkGoesDown
  repeat' (first
    | with_reducible assumption
    | with_reducible apply ownerLosesLink_keeps
    | with_reducible apply noteErr_keeps
    | with_reducible apply linkUpd_keeps
    | with_reducible refine keeps_ite ?_ ?_
    | with_reducible apply keepsParts_of
    | simp only [keeps_mk]
    | intro _
    | split
    | dsimp only [id])

theorem trainStart_keeps {s0 : State} {n : Nat} {s : State} (hk : Keeps s0 s) :
    Keeps s0 (trainStart n s) := by
  unfold trainStart
  repeat' (first
    | with_reducible assumption
    | with_reducible apply linkUpd_keeps
    | with_reducible refine keeps_ite ?_ ?_
    | with_reducible apply keepsParts_of
    | simp only [keeps_mk]
    | intro _
    | split
    | dsimp only [id])

theorem laserMeasured_keeps {s0 : State} {i : Nat} {power : BitVec 16} {s : State} (hk : Keeps s0 s) :
    Keeps s0 (laserMeasured i power s) := by
  unfold laserMeasured
  repeat' (first
    | with_reducible assumption
    | with_reducible apply getD_keeps
    | with_reducible apply noteErr_keeps
    | with_reducible refine keeps_ite ?_ ?_
    | with_reducible apply keepsParts_of
    | simp only [keeps_mk]
    | intro _
    | split
    | dsimp only [id])

theorem trainFail_keeps {s0 : State} {n : Nat} {state : BitVec 4} {s : State}  (hk : Keeps s0 s) :
    Keeps s0 (trainFail n state s) := by
  unfold trainFail
  repeat' (first
    | with_reducible assumption
    | with_reducible apply linkUpd_keeps
    | with_reducible refine keeps_ite ?_ ?_
    | with_reducible apply keepsParts_of
    | simp only [keeps_mk]
    | intro _
    | split
    | dsimp only [id])

theorem sendFrame_keeps {s0 : State} {n : Nat} {seq : Nat} {e : TxHdr → Emit} {s : State} (hk : Keeps s0 s) :
    Keeps s0 (sendFrame n seq e s) := by
  unfold sendFrame
  repeat' (first
    | with_reducible assumption
    | with_reducible apply emit_keeps
    | with_reducible apply linkUpd_keeps
    | with_reducible refine keeps_ite ?_ ?_
    | with_reducible apply keepsParts_of
    | simp only [keeps_mk]
    | intro _
    | split
    | dsimp only [id])

theorem sendKey_keeps {s0 : State} {n : Nat} {k : KeyOut} {s : State} (hk : Keeps s0 s) :
    Keeps s0 (sendKey n k s) := by
  unfold sendKey
  repeat' (first
    | with_reducible assumption
    | with_reducible apply sendFrame_keeps
    | with_reducible apply linkUpd_keeps
    | with_reducible refine keeps_ite ?_ ?_
    | with_reducible apply keepsParts_of
    | simp only [keeps_mk]
    | intro _
    | split
    | dsimp only [id])

theorem keysGo_keeps {s0 : State} {n : Nat} {s : State} (hk : Keeps s0 s) :
    Keeps s0 (keysGo n s) := by
  unfold keysGo
  repeat' (first
    | with_reducible assumption
    | with_reducible apply foldl_keeps
    | with_reducible apply foldl_keeps_fst
    | with_reducible apply foldl_keeps_snd
    | with_reducible apply sendKey_keeps
    | with_reducible apply linkUpd_keeps
    | with_reducible refine keeps_ite ?_ ?_
    | with_reducible apply keepsParts_of
    | simp only [keeps_mk]
    | intro _
    | split
    | dsimp only [id])

theorem podPlaceAll_keeps {s0 : State} {s : State} (hk : Keeps s0 s) :
    Keeps s0 (podPlaceAll s) := by
  unfold podPlaceAll
  repeat' (first
    | with_reducible assumption
    | with_reducible apply foldl_keeps
    | with_reducible apply foldl_keeps_fst
    | with_reducible apply foldl_keeps_snd
    | with_reducible apply podPlace_keeps
    | with_reducible refine keeps_ite ?_ ?_
    | with_reducible apply keepsParts_of
    | simp only [keeps_mk]
    | intro _
    | split
    | dsimp only [id])

theorem linkComesUp_keeps {s0 : State} {n : Nat} {s : State} (hk : Keeps s0 s) :
    Keeps s0 (linkComesUp n s) := by
  unfold linkComesUp
  repeat' (first
    | with_reducible assumption
    | with_reducible apply sendLstate_keeps
    | with_reducible apply creditsRepath_keeps
    | with_reducible apply rmaPump_keeps
    | with_reducible apply podPlaceAll_keeps
    | with_reducible apply sendKey_keeps
    | with_reducible apply linkUpd_keeps
    | with_reducible apply resendCredits_keeps
    | with_reducible refine keeps_ite ?_ ?_
    | with_reducible apply keepsParts_of
    | simp only [keeps_mk]
    | intro _
    | split
    | dsimp only [id])

theorem linkMeasured_keeps {s0 : State} {r : PhaseResult} {s : State} (hk : Keeps s0 s) :
    Keeps s0 (linkMeasured r s) := by
  unfold linkMeasured
  repeat' (first
    | with_reducible assumption
    | with_reducible apply laserMeasured_keeps
    | with_reducible apply linkUpd_keeps
    | with_reducible refine keeps_ite ?_ ?_
    | with_reducible apply keepsParts_of
    | simp only [keeps_mk]
    | intro _
    | split
    | dsimp only [id])

theorem phaseNext_keeps {s0 : State} {n : Nat} {s : State} (hk : Keeps s0 s) :
    Keeps s0 (phaseNext n s) := by
  unfold phaseNext
  repeat' (first
    | with_reducible assumption
    | with_reducible apply sendKey_keeps
    | with_reducible apply linkUpd_keeps
    | with_reducible refine keeps_ite ?_ ?_
    | with_reducible apply keepsParts_of
    | simp only [keeps_mk]
    | intro _
    | split
    | dsimp only [id])

theorem phaseDone_keeps {s0 : State} {r : PhaseResult} {s : State} (hk : Keeps s0 s) :
    Keeps s0 (phaseDone r s) := by
  unfold phaseDone
  repeat' (first
    | with_reducible assumption
    | with_reducible apply noteErr_keeps
    | with_reducible apply phaseNext_keeps
    | with_reducible apply linkMeasured_keeps
    | with_reducible apply linkComesUp_keeps
    | with_reducible apply trainFail_keeps
    | with_reducible apply linkUpd_keeps
    | with_reducible refine keeps_ite ?_ ?_
    | with_reducible apply keepsParts_of
    | simp only [keeps_mk]
    | intro _
    | split
    | dsimp only [id])

theorem takePhase_keeps {s0 : State} {n : Nat} {f : Frame} {s : State}  (hk : Keeps s0 s) :
    Keeps s0 (takePhase n f s) := by
  unfold takePhase
  repeat' (first
    | with_reducible assumption
    | with_reducible apply linkUpd_keeps
    | with_reducible refine keeps_ite ?_ ?_
    | with_reducible apply keepsParts_of
    | simp only [keeps_mk]
    | intro _
    | split
    | dsimp only [id])

theorem frameDiscard_keeps {s0 : State} {n : Nat} {s : State} (hk : Keeps s0 s) :
    Keeps s0 (frameDiscard n s) := by
  unfold frameDiscard
  repeat' (first
    | with_reducible assumption
    | with_reducible apply sendFrame_keeps
    | with_reducible refine keeps_ite ?_ ?_
    | with_reducible apply keepsParts_of
    | simp only [keeps_mk]
    | intro _
    | split
    | dsimp only [id])

theorem takeAck_keeps {s0 : State} {n : Nat} {f : Frame} {s : State} (hk : Keeps s0 s) :
    Keeps s0 (takeAck n f s) := by
  unfold takeAck
  repeat' (first
    | with_reducible assumption
    | with_reducible apply keysGo_keeps
    | with_reducible apply linkUpd_keeps
    | with_reducible refine keeps_ite ?_ ?_
    | with_reducible apply keepsParts_of
    | simp only [keeps_mk]
    | intro _
    | split
    | dsimp only [id])

theorem takeCredits_keeps {s0 : State} {n : Nat} {f : Frame} {s : State}  (hk : Keeps s0 s) :
    Keeps s0 (takeCredits n f s) := by
  unfold takeCredits
  repeat' (first
    | with_reducible assumption
    | with_reducible apply foldl_keeps
    | with_reducible apply foldl_keeps_fst
    | with_reducible apply foldl_keeps_snd
    | with_reducible apply getD_keeps
    | with_reducible apply linkUpd_keeps
    | with_reducible refine keeps_ite ?_ ?_
    | with_reducible apply keepsParts_of
    | simp only [keeps_mk]
    | intro _
    | split
    | dsimp only [id])

theorem countCodewords_keeps {s0 : State} {n : Nat} {f : Frame} {s : State} (hk : Keeps s0 s) :
    Keeps s0 (countCodewords n f s) := by
  unfold countCodewords
  repeat' (first
    | with_reducible assumption
    | with_reducible apply linkUpd_keeps
    | with_reducible refine keeps_ite ?_ ?_
    | with_reducible apply keepsParts_of
    | simp only [keeps_mk]
    | intro _
    | split
    | dsimp only [id])

theorem frameChecked_keeps {s0 : State} {f : Frame} {run : Nat → State → State} {s : State} (h_run : ∀ (y0 : Nat) (u : State), Keeps s0 u → Keeps s0 (run y0 u)) (hk : Keeps s0 s) :
    Keeps s0 (frameChecked f run s) := by
  unfold frameChecked
  repeat' (first
    | with_reducible assumption
    | with_reducible apply noteErr_keeps
    | with_reducible apply countCodewords_keeps
    | with_reducible apply frameDiscard_keeps
    | with_reducible apply takePhase_keeps
    | with_reducible apply linkUpd_keeps
    | with_reducible apply h_run
    | with_reducible refine keeps_ite ?_ ?_
    | with_reducible apply keepsParts_of
    | simp only [keeps_mk]
    | intro _
    | split
    | dsimp only [id])

theorem takeSegment_keeps {s0 : State} {n : Nat} {g : Segment} {s : State}  (hk : Keeps s0 s) :
    Keeps s0 (takeSegment n g s) := by
  unfold takeSegment
  repeat' (first
    | with_reducible assumption
    | with_reducible apply getD_keeps
    | with_reducible apply linkUpd_keeps
    | with_reducible refine keeps_ite ?_ ?_
    | with_reducible apply keepsParts_of
    | simp only [keeps_mk]
    | intro _
    | split
    | dsimp only [id])

theorem inOrder_keeps {s0 : State} {f : Frame} {run : State → State} {n : Nat} {s : State} (h_run : ∀ (u : State), Keeps s0 u → Keeps s0 (run u)) (hk : Keeps s0 s) :
    Keeps s0 (inOrder f run n s) := by
  unfold inOrder
  repeat' (first
    | with_reducible assumption
    | with_reducible apply frameDiscard_keeps
    | with_reducible apply takeCredits_keeps
    | with_reducible apply linkUpd_keeps
    | with_reducible apply takeAck_keeps
    | with_reducible apply h_run
    | with_reducible refine keeps_ite ?_ ?_
    | with_reducible apply keepsParts_of
    | simp only [keeps_mk]
    | intro _
    | split
    | dsimp only [id])

theorem replayFrom_keeps {s0 : State} {n : Nat} {seq : Nat} {s : State} (hk : Keeps s0 s) :
    Keeps s0 (replayFrom n seq s) := by
  unfold replayFrom
  repeat' (first
    | with_reducible assumption
    | with_reducible apply emit_keeps
    | with_reducible apply linkUpd_keeps
    | with_reducible refine keeps_ite ?_ ?_
    | with_reducible apply keepsParts_of
    | simp only [keeps_mk]
    | intro _
    | split
    | dsimp only [id])

theorem sendFrames_keeps {s0 : State} {n : Nat} {k : Nat} {s : State}  (hk : Keeps s0 s) :
    Keeps s0 (sendFrames n k s) := by
  unfold sendFrames
  repeat' (first
    | with_reducible assumption
    | with_reducible apply linkUpd_keeps
    | with_reducible apply ackAt_keeps
    | with_reducible refine keeps_ite ?_ ?_
    | with_reducible apply keepsParts_of
    | simp only [keeps_mk]
    | intro _
    | split
    | dsimp only [id])

theorem takeRekey_keeps {s0 : State} {n : Nat} {ok : Bool} {s : State} (hk : Keeps s0 s) :
    Keeps s0 (takeRekey n ok s) := by
  unfold takeRekey
  repeat' (first
    | with_reducible assumption
    | with_reducible apply sendKey_keeps
    | with_reducible apply linkUpd_keeps
    | with_reducible refine keeps_ite ?_ ?_
    | with_reducible apply keepsParts_of
    | simp only [keeps_mk]
    | intro _
    | split
    | dsimp only [id])

theorem takeConfirm_keeps {s0 : State} {n : Nat} {ok : Bool} {s : State} (hk : Keeps s0 s) :
    Keeps s0 (takeConfirm n ok s) := by
  unfold takeConfirm
  repeat' (first
    | with_reducible assumption
    | with_reducible apply linkUpd_keeps
    | with_reducible refine keeps_ite ?_ ?_
    | with_reducible apply keepsParts_of
    | simp only [keeps_mk]
    | intro _
    | split
    | dsimp only [id])

theorem rekeyStart_keeps {s0 : State} {n : Nat} {s : State} (hk : Keeps s0 s) :
    Keeps s0 (rekeyStart n s) := by
  unfold rekeyStart
  repeat' (first
    | with_reducible assumption
    | with_reducible apply sendKey_keeps
    | with_reducible apply linkUpd_keeps
    | with_reducible refine keeps_ite ?_ ?_
    | with_reducible apply keepsParts_of
    | simp only [keeps_mk]
    | intro _
    | split
    | dsimp only [id])

theorem takeSession_keeps {s0 : State} {f : Frame} {p : KeyPayload} {s : State} (hk : Keeps s0 s) :
    Keeps s0 (takeSession f p s) := by
  unfold takeSession
  repeat' (first
    | with_reducible assumption
    | with_reducible apply linkUpd_keeps
    | with_reducible refine keeps_ite ?_ ?_
    | with_reducible apply keepsParts_of
    | simp only [keeps_mk]
    | intro _
    | split
    | dsimp only [id])

theorem takePodKey_keeps {s0 : State} {gen : Word} {s : State} (hk : Keeps s0 s) :
    Keeps s0 (takePodKey gen s) := by
  unfold takePodKey
  repeat' (first
    | with_reducible assumption
    | with_reducible apply foldl_keeps
    | with_reducible apply foldl_keeps_fst
    | with_reducible apply foldl_keeps_snd
    | with_reducible apply rmaPump_keeps
    | with_reducible apply sendKey_keeps
    | with_reducible apply fetchEnds_keeps
    | with_reducible refine keeps_ite ?_ ?_
    | with_reducible apply keepsParts_of
    | simp only [keeps_mk]
    | intro _
    | split
    | dsimp only [id])

theorem takeKey_keeps {s0 : State} {p : KeyPayload} {n : Nat} {s : State} (hk : Keeps s0 s) :
    Keeps s0 (takeKey p n s) := by
  unfold takeKey
  repeat' (first
    | with_reducible assumption
    | with_reducible apply takePodKey_keeps
    | with_reducible apply takeConfirm_keeps
    | with_reducible apply takeRekey_keeps
    | with_reducible refine keeps_ite ?_ ?_
    | with_reducible apply keepsParts_of
    | simp only [keeps_mk]
    | intro _
    | split
    | dsimp only [id])

theorem stepCounter_keeps {s0 : State} {m : Int} {s : State}  (hk : Keeps s0 s) :
    Keeps s0 (stepCounter m s) := by
  unfold stepCounter
  repeat' (first
    | with_reducible assumption
    | with_reducible refine keeps_ite ?_ ?_
    | with_reducible apply keepsParts_of
    | simp only [keeps_mk]
    | intro _
    | split
    | dsimp only [id])

theorem takeMedian_keeps {s0 : State} {m : Int} {s : State}  (hk : Keeps s0 s) :
    Keeps s0 (takeMedian m s) := by
  unfold takeMedian
  repeat' (first
    | with_reducible assumption
    | with_reducible apply noteErr_keeps
    | with_reducible refine keeps_ite ?_ ?_
    | with_reducible apply keepsParts_of
    | simp only [keeps_mk]
    | intro _
    | split
    | dsimp only [id])

theorem timeExchange_keeps {s0 : State} {x : TimeExchange} {s : State}  (hk : Keeps s0 s) :
    Keeps s0 (timeExchange x s) := by
  unfold timeExchange
  repeat' (first
    | with_reducible assumption
    | with_reducible apply stepCounter_keeps
    | with_reducible apply takeMedian_keeps
    | with_reducible refine keeps_ite ?_ ?_
    | with_reducible apply keepsParts_of
    | simp only [keeps_mk]
    | intro _
    | split
    | dsimp only [id])

theorem debit_keeps {s0 : State} {n : Nat} {q : Queued} {s : State}  (hk : Keeps s0 s) :
    Keeps s0 (debit n q s) := by
  unfold debit
  repeat' (first
    | with_reducible assumption
    | with_reducible apply getD_keeps
    | with_reducible refine keeps_ite ?_ ?_
    | with_reducible apply keepsParts_of
    | simp only [keeps_mk]
    | intro _
    | split
    | dsimp only [id])

theorem podAired_keeps {s0 : State} {id : Nat} {s : State} (hk : Keeps s0 s) :
    Keeps s0 (podAired id s) := by
  unfold podAired
  repeat' (first
    | with_reducible assumption
    | with_reducible refine keeps_ite ?_ ?_
    | with_reducible apply keepsParts_of
    | simp only [keeps_mk]
    | intro _
    | split
    | dsimp only [id])

theorem stampSent_keeps {s0 : State} {p : Packet} {s : State} (hk : Keeps s0 s) :
    Keeps s0 (stampSent p s) := by
  unfold stampSent
  repeat' (first
    | with_reducible assumption
    | with_reducible apply podAired_keeps
    | with_reducible apply trayDstUpd_keeps
    | with_reducible refine keeps_ite ?_ ?_
    | with_reducible apply keepsParts_of
    | simp only [keeps_mk]
    | intro _
    | split
    | dsimp only [id])

theorem chargeLink_keeps {s0 : State} {n : Nat} {q : Queued} {s : State}  (hk : Keeps s0 s) :
    Keeps s0 (chargeLink n q s) := by
  unfold chargeLink
  repeat' (first
    | with_reducible assumption
    | with_reducible apply meterAdd_keeps
    | with_reducible refine keeps_ite ?_ ?_
    | with_reducible apply keepsParts_of
    | simp only [keeps_mk]
    | intro _
    | split
    | dsimp only [id])

theorem sendPacket_keeps {s0 : State} {n : Nat} {q : Queued} {s : State} (hk : Keeps s0 s) :
    Keeps s0 (sendPacket n q s) := by
  unfold sendPacket
  repeat' (first
    | with_reducible assumption
    | with_reducible apply emit_keeps
    | with_reducible apply chargeLink_keeps
    | with_reducible apply stampSent_keeps
    | with_reducible apply debit_keeps
    | with_reducible apply sendFrames_keeps
    | with_reducible apply linkUpd_keeps
    | with_reducible refine keeps_ite ?_ ?_
    | with_reducible apply keepsParts_of
    | simp only [keeps_mk]
    | intro _
    | split
    | dsimp only [id])

theorem dropQueued_keeps {s0 : State} {n : Nat} {q : Queued} {s : State} (hk : Keeps s0 s) :
    Keeps s0 (dropQueued n q s) := by
  unfold dropQueued
  repeat' (first
    | with_reducible assumption
    | with_reducible apply linkUpd_keeps
    | with_reducible refine keeps_ite ?_ ?_
    | with_reducible apply keepsParts_of
    | simp only [keeps_mk]
    | intro _
    | split
    | dsimp only [id])

theorem sendIdle_keeps {s0 : State} {n : Nat} {s : State} (hk : Keeps s0 s) :
    Keeps s0 (sendIdle n s) := by
  unfold sendIdle
  repeat' (first
    | with_reducible assumption
    | with_reducible apply sendFrame_keeps
    | with_reducible refine keeps_ite ?_ ?_
    | with_reducible apply keepsParts_of
    | simp only [keeps_mk]
    | intro _
    | split
    | dsimp only [id])

theorem dispatch_keeps {s0 : State} {n : Nat} {s : State} (hk : Keeps s0 s) :
    Keeps s0 (dispatch n s) := by
  unfold dispatch
  repeat' (first
    | with_reducible assumption
    | with_reducible apply nearDrained_keeps
    | with_reducible apply farDrained_keeps
    | with_reducible apply sendIdle_keeps
    | with_reducible apply dropQueued_keeps
    | with_reducible apply sendPacket_keeps
    | with_reducible apply rekeyStart_keeps
    | with_reducible refine keeps_ite ?_ ?_
    | with_reducible apply keepsParts_of
    | simp only [keeps_mk]
    | intro _
    | split
    | dsimp only [id])

end Sys2Proof.Machine
end

