-- ==== Sys2Proof/Laws/KeepsLink.lean ====
section
/-!
SUPPORT. What the operations of Sys2Proof/Machine/Link.lean keep: the queue, the agreement of the TMR copies, and the canonical
form of the memories (Safety).
-/

namespace Sys2Proof.Machine

theorem execLinkTrainStart_keeps {s0 : State} {n : LinkId} {s : State}  {tt : State} (hk : Keeps s0 s) (eq_ : execLinkTrainStart n s = .next tt) : Keeps s0 tt := by
  unfold execLinkTrainStart at eq_
  repeat' (first | split at eq_ | dsimp only at eq_)
  all_goals (first | (injection eq_ with eq_; subst eq_) | (cases eq_))
  repeat' (first
    | with_reducible assumption
    | with_reducible apply trainStart_keeps
    | with_reducible refine keeps_ite ?_ ?_
    | with_reducible apply keepsParts_of
    | simp only [keeps_mk]
    | intro _
    | split
    | dsimp only [id])

theorem execLinkPhaseTimeout_keeps {s0 : State} {n : LinkId} {s : State} {tt : State} (hk : Keeps s0 s) (eq_ : execLinkPhaseTimeout n s = .next tt) : Keeps s0 tt := by
  unfold execLinkPhaseTimeout at eq_
  repeat' (first | split at eq_ | dsimp only at eq_)
  all_goals (first | (injection eq_ with eq_; subst eq_) | (cases eq_))
  repeat' (first
    | with_reducible assumption
    | with_reducible apply trainFail_keeps
    | with_reducible refine keeps_ite ?_ ?_
    | with_reducible apply keepsParts_of
    | simp only [keeps_mk]
    | intro _
    | split
    | dsimp only [id])

theorem execLinkPhaseDone_keeps {s0 : State} {r : PhaseResult} {s : State}  {tt : State} (hk : Keeps s0 s) (eq_ : execLinkPhaseDone r s = .next tt) : Keeps s0 tt := by
  unfold execLinkPhaseDone at eq_
  repeat' (first | split at eq_ | dsimp only at eq_)
  all_goals (first | (injection eq_ with eq_; subst eq_) | (cases eq_))
  repeat' (first
    | with_reducible assumption
    | with_reducible apply phaseDone_keeps
    | with_reducible refine keeps_ite ?_ ?_
    | with_reducible apply keepsParts_of
    | simp only [keeps_mk]
    | intro _
    | split
    | dsimp only [id])

theorem execLinkDown_keeps {s0 : State} {n : LinkId} {c : DownCause} {s : State}  {tt : State} (hk : Keeps s0 s) (eq_ : execLinkDown n c s = .next tt) : Keeps s0 tt := by
  unfold execLinkDown at eq_
  repeat' (first | split at eq_ | dsimp only at eq_)
  all_goals (first | (injection eq_ with eq_; subst eq_) | (cases eq_))
  repeat' (first
    | with_reducible assumption
    | with_reducible apply linkGoesDown_keeps
    | with_reducible apply nearDrained_keeps
    | with_reducible apply farDrained_keeps
    | with_reducible refine keeps_ite ?_ ?_
    | with_reducible apply keepsParts_of
    | simp only [keeps_mk]
    | intro _
    | split
    | dsimp only [id])

theorem laserPower_keeps {s0 : State} {i : Nat} {power : BitVec 16} {held : Bool} {s : State} (hk : Keeps s0 s) :
    Keeps s0 (laserPower i power held s) := by
  unfold laserPower
  repeat' (first
    | with_reducible assumption
    | with_reducible apply foldl_keeps
    | with_reducible apply foldl_keeps_fst
    | with_reducible apply foldl_keeps_snd
    | with_reducible apply laserMeasured_keeps
    | with_reducible apply linkGoesDown_keeps
    | with_reducible refine keeps_ite ?_ ?_
    | with_reducible apply keepsParts_of
    | simp only [keeps_mk]
    | intro _
    | split
    | dsimp only [id])

theorem execLaserLow_keeps {s0 : State} {i : BitVec 3} {power : BitVec 16} {held : Bool} {s : State}  {tt : State} (hk : Keeps s0 s) (eq_ : execLaserLow i power held s = .next tt) : Keeps s0 tt := by
  unfold execLaserLow at eq_
  repeat' (first | split at eq_ | dsimp only at eq_)
  all_goals (first | (injection eq_ with eq_; subst eq_) | (cases eq_))
  repeat' (first
    | with_reducible assumption
    | with_reducible apply laserPower_keeps
    | with_reducible refine keeps_ite ?_ ?_
    | with_reducible apply keepsParts_of
    | simp only [keeps_mk]
    | intro _
    | split
    | dsimp only [id])

theorem execDataFrame_keeps {s0 : State} {f : Frame} {s : State}  {tt : State} (hk : Keeps s0 s) (eq_ : execDataFrame f s = .next tt) : Keeps s0 tt := by
  unfold execDataFrame at eq_
  repeat' (first | split at eq_ | dsimp only at eq_)
  all_goals (first | (injection eq_ with eq_; subst eq_) | (cases eq_))
  repeat' (first
    | with_reducible assumption
    | with_reducible apply foldl_keeps
    | with_reducible apply foldl_keeps_fst
    | with_reducible apply foldl_keeps_snd
    | with_reducible apply frameChecked_keeps
    | with_reducible apply takeSegment_keeps
    | with_reducible apply inOrder_keeps
    | with_reducible refine keeps_ite ?_ ?_
    | with_reducible apply keepsParts_of
    | simp only [keeps_mk]
    | intro _
    | split
    | dsimp only [id])

theorem execIdleFrame_keeps {s0 : State} {f : Frame} {s : State}  {tt : State} (hk : Keeps s0 s) (eq_ : execIdleFrame f s = .next tt) : Keeps s0 tt := by
  unfold execIdleFrame at eq_
  repeat' (first | split at eq_ | dsimp only at eq_)
  all_goals (first | (injection eq_ with eq_; subst eq_) | (cases eq_))
  repeat' (first
    | with_reducible assumption
    | with_reducible apply frameChecked_keeps
    | with_reducible apply takeCredits_keeps
    | with_reducible apply takeAck_keeps
    | with_reducible refine keeps_ite ?_ ?_
    | with_reducible apply keepsParts_of
    | simp only [keeps_mk]
    | intro _
    | split
    | dsimp only [id])

theorem execNakFrame_keeps {s0 : State} {f : Frame} {s : State}  {tt : State} (hk : Keeps s0 s) (eq_ : execNakFrame f s = .next tt) : Keeps s0 tt := by
  unfold execNakFrame at eq_
  repeat' (first | split at eq_ | dsimp only at eq_)
  all_goals (first | (injection eq_ with eq_; subst eq_) | (cases eq_))
  repeat' (first
    | with_reducible assumption
    | with_reducible apply frameChecked_keeps
    | with_reducible apply takeCredits_keeps
    | with_reducible apply replayFrom_keeps
    | with_reducible apply takeAck_keeps
    | with_reducible refine keeps_ite ?_ ?_
    | with_reducible apply keepsParts_of
    | simp only [keeps_mk]
    | intro _
    | split
    | dsimp only [id])

theorem execKeyFrame_keeps {s0 : State} {f : Frame} {p : KeyPayload} {s : State} {tt : State} (hk : Keeps s0 s) (eq_ : execKeyFrame f p s = .next tt) : Keeps s0 tt := by
  unfold execKeyFrame at eq_
  repeat' (first | split at eq_ | dsimp only at eq_)
  all_goals (first | (injection eq_ with eq_; subst eq_) | (cases eq_))
  repeat' (first
    | with_reducible assumption
    | with_reducible apply takeKey_keeps
    | with_reducible apply takeSession_keeps
    | with_reducible apply frameChecked_keeps
    | with_reducible apply takeCredits_keeps
    | with_reducible apply takeAck_keeps
    | with_reducible refine keeps_ite ?_ ?_
    | with_reducible apply keepsParts_of
    | simp only [keeps_mk]
    | intro _
    | split
    | dsimp only [id])

theorem execTimeFrame_keeps {s0 : State} {f : Frame} {x : TimeExchange} {s : State}  {tt : State} (hk : Keeps s0 s) (eq_ : execTimeFrame f x s = .next tt) : Keeps s0 tt := by
  unfold execTimeFrame at eq_
  repeat' (first | split at eq_ | dsimp only at eq_)
  all_goals (first | (injection eq_ with eq_; subst eq_) | (cases eq_))
  repeat' (first
    | with_reducible assumption
    | with_reducible apply frameChecked_keeps
    | with_reducible apply timeExchange_keeps
    | with_reducible apply inOrder_keeps
    | with_reducible refine keeps_ite ?_ ?_
    | with_reducible apply keepsParts_of
    | simp only [keeps_mk]
    | intro _
    | split
    | dsimp only [id])

theorem execRekey_keeps {s0 : State} {n : LinkId} {s : State} {tt : State} (hk : Keeps s0 s) (eq_ : execRekey n s = .next tt) : Keeps s0 tt := by
  unfold execRekey at eq_
  repeat' (first | split at eq_ | dsimp only at eq_)
  all_goals (first | (injection eq_ with eq_; subst eq_) | (cases eq_))
  repeat' (first
    | with_reducible assumption
    | with_reducible apply rekeyStart_keeps
    | with_reducible refine keeps_ite ?_ ?_
    | with_reducible apply keepsParts_of
    | simp only [keeps_mk]
    | intro _
    | split
    | dsimp only [id])

theorem execEgressDispatch_keeps {s0 : State} {n : LinkId} {s : State}  {tt : State} (hk : Keeps s0 s) (eq_ : execEgressDispatch n s = .next tt) : Keeps s0 tt := by
  unfold execEgressDispatch at eq_
  repeat' (first | split at eq_ | dsimp only at eq_)
  all_goals (first | (injection eq_ with eq_; subst eq_) | (cases eq_))
  repeat' (first
    | with_reducible assumption
    | with_reducible apply dispatch_keeps
    | with_reducible refine keeps_ite ?_ ?_
    | with_reducible apply keepsParts_of
    | simp only [keeps_mk]
    | intro _
    | split
    | dsimp only [id])

theorem linkSettings_keeps {s0 : State} {w : CtlWrite} {s : State}  (hk : Keeps s0 s) :
    Keeps s0 (linkSettings w s) := by
  unfold linkSettings
  repeat' (first
    | with_reducible assumption
    | with_reducible refine keeps_ite ?_ ?_
    | with_reducible apply keepsParts_of
    | simp only [keeps_mk]
    | intro _
    | split
    | dsimp only [id])

theorem linkCtl_keeps {s0 : State} {w : CtlWrite} {own : Nat} {run : State → State} {s : State} (h_run : ∀ (u : State), Keeps s0 u → Keeps s0 (run u)) (hk : Keeps s0 s) :
    Keeps s0 (linkCtl w own run s) := by
  unfold linkCtl
  repeat' (first
    | with_reducible assumption
    | with_reducible apply linkSettings_keeps
    | with_reducible apply ctl_keeps
    | with_reducible apply h_run
    | with_reducible refine keeps_ite ?_ ?_
    | with_reducible apply keepsParts_of
    | simp only [keeps_mk]
    | intro _
    | split
    | dsimp only [id])

theorem retrain_keeps {s0 : State} {s : State}  (hk : Keeps s0 s) :
    Keeps s0 (retrain s) := by
  unfold retrain
  repeat' (first
    | with_reducible assumption
    | with_reducible apply linkGoesDown_keeps
    | with_reducible apply trainStart_keeps
    | with_reducible apply authFail_keeps
    | with_reducible apply linkUpd_keeps
    | with_reducible refine keeps_ite ?_ ?_
    | with_reducible apply keepsParts_of
    | simp only [keeps_mk]
    | intro _
    | split
    | dsimp only [id])

theorem execRetrain_keeps {s0 : State} {w : CtlWrite} {s : State}  {tt : State} (hk : Keeps s0 s) (eq_ : execRetrain w s = .next tt) : Keeps s0 tt := by
  unfold execRetrain at eq_
  repeat' (first | split at eq_ | dsimp only at eq_)
  all_goals (first | (injection eq_ with eq_; subst eq_) | (cases eq_))
  repeat' (first
    | with_reducible assumption
    | with_reducible apply linkCtl_keeps
    | with_reducible apply retrain_keeps
    | with_reducible refine keeps_ite ?_ ?_
    | with_reducible apply keepsParts_of
    | simp only [keeps_mk]
    | intro _
    | split
    | dsimp only [id])

theorem execLinkClr_keeps {s0 : State} {w : CtlWrite} {s : State}  {tt : State} (hk : Keeps s0 s) (eq_ : execLinkClr w s = .next tt) : Keeps s0 tt := by
  unfold execLinkClr at eq_
  repeat' (first | split at eq_ | dsimp only at eq_)
  all_goals (first | (injection eq_ with eq_; subst eq_) | (cases eq_))
  repeat' (first
    | with_reducible assumption
    | with_reducible apply linkCtl_keeps
    | with_reducible refine keeps_ite ?_ ?_
    | with_reducible apply keepsParts_of
    | simp only [keeps_mk]
    | intro _
    | split
    | dsimp only [id])

theorem farFollow_keeps {s0 : State} {k : Nat} {off : Bool} {s : State}  (hk : Keeps s0 s) :
    Keeps s0 (farFollow k off s) := by
  unfold farFollow
  repeat' (first
    | with_reducible assumption
    | with_reducible apply linkUpd_keeps
    | with_reducible refine keeps_ite ?_ ?_
    | with_reducible apply keepsParts_of
    | simp only [keeps_mk]
    | intro _
    | split
    | dsimp only [id])

theorem execLinkFarDisable_keeps {s0 : State} {fn : FnId} {v : Word} {s : State}  {tt : State} (hk : Keeps s0 s) (eq_ : execLinkFarDisable fn v s = .next tt) : Keeps s0 tt := by
  unfold execLinkFarDisable at eq_
  repeat' (first | split at eq_ | dsimp only at eq_)
  all_goals (first | (injection eq_ with eq_; subst eq_) | (cases eq_))
  repeat' (first
    | with_reducible assumption
    | with_reducible apply foldl_keeps
    | with_reducible apply foldl_keeps_fst
    | with_reducible apply foldl_keeps_snd
    | with_reducible apply farDrained_keeps
    | with_reducible apply farFollow_keeps
    | with_reducible refine keeps_ite ?_ ?_
    | with_reducible apply keepsParts_of
    | simp only [keeps_mk]
    | intro _
    | split
    | dsimp only [id])

theorem telUpd_keeps {s0 : State} {die : Nat} {f : TelRing → TelRing} {s : State}  (hk : Keeps s0 s) :
    Keeps s0 (telUpd die f s) := by
  unfold telUpd
  repeat' (first
    | with_reducible assumption
    | with_reducible refine keeps_ite ?_ ?_
    | with_reducible apply keepsParts_of
    | simp only [keeps_mk]
    | intro _
    | split
    | dsimp only [id])

theorem telRecord_keeps {s0 : State} {die : Nat} {fields : List Nat} {s : State}  (hk : Keeps s0 s) :
    Keeps s0 (telRecord die fields s) := by
  unfold telRecord
  repeat' (first
    | with_reducible assumption
    | with_reducible apply telUpd_keeps
    | with_reducible apply emit_keeps
    | with_reducible refine keeps_ite ?_ ?_
    | with_reducible apply keepsParts_of
    | simp only [keeps_mk]
    | intro _
    | split
    | dsimp only [id])

theorem telSample_keeps {s0 : State} {s : State}  (hk : Keeps s0 s) :
    Keeps s0 (telSample s) := by
  unfold telSample
  repeat' (first
    | with_reducible assumption
    | with_reducible apply foldl_keeps
    | with_reducible apply foldl_keeps_fst
    | with_reducible apply foldl_keeps_snd
    | with_reducible apply telRecord_keeps
    | with_reducible apply linkUpd_keeps
    | with_reducible refine keeps_ite ?_ ?_
    | with_reducible apply keepsParts_of
    | simp only [keeps_mk]
    | intro _
    | split
    | dsimp only [id])

theorem shaperApply_keeps {s0 : State} {s : State}  (hk : Keeps s0 s) :
    Keeps s0 (shaperApply s) := by
  unfold shaperApply
  repeat' (first
    | with_reducible assumption
    | with_reducible refine keeps_ite ?_ ?_
    | with_reducible apply keepsParts_of
    | simp only [keeps_mk]
    | intro _
    | split
    | dsimp only [id])

theorem refill_keeps {s0 : State} {s : State}  (hk : Keeps s0 s) :
    Keeps s0 (refill s) := by
  unfold refill
  repeat' (first
    | with_reducible assumption
    | with_reducible apply foldl_keeps
    | with_reducible apply foldl_keeps_fst
    | with_reducible apply foldl_keeps_snd
    | with_reducible apply getD_keeps
    | with_reducible refine keeps_ite ?_ ?_
    | with_reducible apply keepsParts_of
    | simp only [keeps_mk]
    | intro _
    | split
    | dsimp only [id])

theorem execShaperRefillTick_keeps {s0 : State} {s : State}  {tt : State} (hk : Keeps s0 s) (eq_ : execShaperRefillTick s = .next tt) : Keeps s0 tt := by
  unfold execShaperRefillTick at eq_
  repeat' (first | split at eq_ | dsimp only at eq_)
  all_goals (first | (injection eq_ with eq_; subst eq_) | (cases eq_))
  repeat' (first
    | with_reducible assumption
    | with_reducible apply shaperApply_keeps
    | with_reducible apply telSample_keeps
    | with_reducible apply refill_keeps
    | with_reducible refine keeps_ite ?_ ?_
    | with_reducible apply keepsParts_of
    | simp only [keeps_mk]
    | intro _
    | split
    | dsimp only [id])

theorem shaperCode_keeps {s0 : State} {c : Status} {s : State}  (hk : Keeps s0 s) :
    Keeps s0 (shaperCode c s) := by
  unfold shaperCode
  repeat' (first
    | with_reducible assumption
    | with_reducible refine keeps_ite ?_ ?_
    | with_reducible apply keepsParts_of
    | simp only [keeps_mk]
    | intro _
    | split
    | dsimp only [id])

theorem shaperSettings_keeps {s0 : State} {w : CtlWrite} {s : State}  (hk : Keeps s0 s) :
    Keeps s0 (shaperSettings w s) := by
  unfold shaperSettings
  repeat' (first
    | with_reducible assumption
    | with_reducible refine keeps_ite ?_ ?_
    | with_reducible apply keepsParts_of
    | simp only [keeps_mk]
    | intro _
    | split
    | dsimp only [id])

theorem shaperCtl_keeps {s0 : State} {w : CtlWrite} {own : Nat} {run : State → State} {s : State} (h_run : ∀ (u : State), Keeps s0 u → Keeps s0 (run u)) (hk : Keeps s0 s) :
    Keeps s0 (shaperCtl w own run s) := by
  unfold shaperCtl
  repeat' (first
    | with_reducible assumption
    | with_reducible apply ctl_keeps
    | with_reducible apply shaperSettings_keeps
    | with_reducible apply shaperCode_keeps
    | with_reducible apply h_run
    | with_reducible refine keeps_ite ?_ ?_
    | with_reducible apply keepsParts_of
    | simp only [keeps_mk]
    | intro _
    | split
    | dsimp only [id])

theorem execShaperCommit_keeps {s0 : State} {w : CtlWrite} {s : State} {tt : State} (hk : Keeps s0 s) (eq_ : execShaperCommit w s = .next tt) : Keeps s0 tt := by
  unfold execShaperCommit at eq_
  repeat' (first | split at eq_ | dsimp only at eq_)
  all_goals (first | (injection eq_ with eq_; subst eq_) | (cases eq_))
  repeat' (first
    | with_reducible assumption
    | with_reducible apply shaperCtl_keeps
    | with_reducible apply shaperCode_keeps
    | with_reducible refine keeps_ite ?_ ?_
    | with_reducible apply keepsParts_of
    | simp only [keeps_mk]
    | intro _
    | split
    | dsimp only [id])

theorem execTelEn_keeps {s0 : State} {w : CtlWrite} {s : State}  {tt : State} (hk : Keeps s0 s) (eq_ : execTelEn w s = .next tt) : Keeps s0 tt := by
  unfold execTelEn at eq_
  repeat' (first | split at eq_ | dsimp only at eq_)
  all_goals (first | (injection eq_ with eq_; subst eq_) | (cases eq_))
  repeat' (first
    | with_reducible assumption
    | with_reducible apply shaperSettings_keeps
    | with_reducible refine keeps_ite ?_ ?_
    | with_reducible apply keepsParts_of
    | simp only [keeps_mk]
    | intro _
    | split
    | dsimp only [id])

theorem execShaperClr_keeps {s0 : State} {w : CtlWrite} {s : State}  {tt : State} (hk : Keeps s0 s) (eq_ : execShaperClr w s = .next tt) : Keeps s0 tt := by
  unfold execShaperClr at eq_
  repeat' (first | split at eq_ | dsimp only at eq_)
  all_goals (first | (injection eq_ with eq_; subst eq_) | (cases eq_))
  repeat' (first
    | with_reducible assumption
    | with_reducible apply shaperCode_keeps
    | with_reducible apply shaperCtl_keeps
    | with_reducible refine keeps_ite ?_ ?_
    | with_reducible apply keepsParts_of
    | simp only [keeps_mk]
    | intro _
    | split
    | dsimp only [id])

end Sys2Proof.Machine
end

