-- ==== Sys2Proof/Laws/KeepsNodeLoss.lean ====
section
/-!
SUPPORT. What the operations of Sys2Proof/Machine/NodeLoss.lean keep: the queue, the agreement of the TMR copies, and the canonical
form of the memories (Safety).
-/

namespace Sys2Proof.Machine

theorem ownerLosesMember_keeps {s0 : State} {q : ReqId} {d : Nat} {s : State} (hk : Keeps s0 s) :
    Keeps s0 (ownerLosesMember q d s) := by
  unfold ownerLosesMember
  repeat' (first
    | with_reducible assumption
    | with_reducible apply getD_keeps
    | with_reducible apply dropAcked_keeps
    | with_reducible apply recUpd_keeps
    | with_reducible refine keeps_ite ?_ ?_
    | with_reducible apply keepsParts_of
    | simp only [keeps_mk]
    | intro _
    | split
    | dsimp only [id])

theorem memberLosesOwner_keeps {s0 : State} {q : ReqId} {d : Nat} {s : State} (hk : Keeps s0 s) :
    Keeps s0 (memberLosesOwner q d s) := by
  unfold memberLosesOwner
  repeat' (first
    | with_reducible assumption
    | with_reducible apply recordTo_keeps
    | with_reducible apply memberDrop_keeps
    | with_reducible apply recUpd_keeps
    | with_reducible apply reportEnd_keeps
    | with_reducible apply sendFw_keeps
    | with_reducible refine keeps_ite ?_ ?_
    | with_reducible apply keepsParts_of
    | simp only [keeps_mk]
    | intro _
    | split
    | dsimp only [id])

theorem lossOne_keeps {s0 : State} {d : Nat} {q : ReqId} {s : State} (hk : Keeps s0 s) :
    Keeps s0 (lossOne d q s) := by
  unfold lossOne
  repeat' (first
    | with_reducible assumption
    | with_reducible apply endStage_keeps
    | with_reducible apply recUpd_keeps
    | with_reducible apply memberLosesOwner_keeps
    | with_reducible apply ownerLosesMember_keeps
    | with_reducible refine keeps_ite ?_ ?_
    | with_reducible apply keepsParts_of
    | simp only [keeps_mk]
    | intro _
    | split
    | dsimp only [id])

theorem lossDropped_keeps {s0 : State} {q : ReqId} {s : State} (hk : Keeps s0 s) :
    Keeps s0 (lossDropped q s) := by
  unfold lossDropped
  repeat' (first
    | with_reducible assumption
    | with_reducible apply anchorFinish_keeps
    | with_reducible apply anchorUpd_keeps
    | with_reducible refine keeps_ite ?_ ?_
    | with_reducible apply keepsParts_of
    | simp only [keeps_mk]
    | intro _
    | split
    | dsimp only [id])

theorem takeOverSend_keeps {s0 : State} {q : ReqId} {s : State} (hk : Keeps s0 s) :
    Keeps s0 (takeOverSend q s) := by
  unfold takeOverSend
  repeat' (first
    | with_reducible assumption
    | with_reducible apply foldl_keeps
    | with_reducible apply foldl_keeps_fst
    | with_reducible apply foldl_keeps_snd
    | with_reducible apply sendFw_keeps
    | with_reducible apply toStages_keeps
    | with_reducible refine keeps_ite ?_ ?_
    | with_reducible apply keepsParts_of
    | simp only [keeps_mk]
    | intro _
    | split
    | dsimp only [id])

theorem pairGone_keeps {s0 : State} {q : ReqId} {a : AnchorInfo} {r : Rec} {s : State} (hk : Keeps s0 s) :
    Keeps s0 (pairGone q a r s) := by
  unfold pairGone
  repeat' (first
    | with_reducible assumption
    | with_reducible apply refusalAt_keeps
    | with_reducible apply anchorReprefill_keeps
    | with_reducible apply anchorEnd_keeps
    | with_reducible apply anchorUpd_keeps
    | with_reducible refine keeps_ite ?_ ?_
    | with_reducible apply keepsParts_of
    | simp only [keeps_mk]
    | intro _
    | split
    | dsimp only [id])

theorem anchorLoss_keeps {s0 : State} {d : Nat} {q : ReqId} {s : State} (hk : Keeps s0 s) :
    Keeps s0 (anchorLoss d q s) := by
  unfold anchorLoss
  repeat' (first
    | with_reducible assumption
    | with_reducible apply pairGone_keeps
    | with_reducible apply takeOverSend_keeps
    | with_reducible apply lossDropped_keeps
    | with_reducible apply refusedEnd_keeps
    | with_reducible apply anchorEnd_keeps
    | with_reducible apply anchorUpd_keeps
    | with_reducible refine keeps_ite ?_ ?_
    | with_reducible apply keepsParts_of
    | simp only [keeps_mk]
    | intro _
    | split
    | dsimp only [id])

theorem nodeLoss_keeps {s0 : State} {d : Nat} {s : State} (hk : Keeps s0 s) :
    Keeps s0 (nodeLoss d s) := by
  unfold nodeLoss
  repeat' (first
    | with_reducible assumption
    | with_reducible apply foldl_keeps
    | with_reducible apply foldl_keeps_fst
    | with_reducible apply foldl_keeps_snd
    | with_reducible apply anchorLoss_keeps
    | with_reducible apply lossOne_keeps
    | with_reducible refine keeps_ite ?_ ?_
    | with_reducible apply keepsParts_of
    | simp only [keeps_mk]
    | intro _
    | split
    | dsimp only [id])

theorem podNext_keeps {s0 : State} {id : Nat} {s : State}  (hk : Keeps s0 s) :
    Keeps s0 (podNext id s) := by
  unfold podNext
  repeat' (first
    | with_reducible assumption
    | with_reducible refine keeps_ite ?_ ?_
    | with_reducible apply keepsParts_of
    | simp only [keeps_mk]
    | intro _
    | split
    | dsimp only [id])

theorem podEndSaved_keeps {s0 : State} {key : Nat} {v : Saved} {s : State} (hv : s0.memOk = true → v.memOk = true)
    (hk : Keeps s0 s) : Keeps s0 (podEndSaved key v s) := by
  unfold podEndSaved
  refine clusterUpd_keeps ?_ (fun x hx => memOk_mk.2 (memParts_of hx))
  refine ⟨hk.1, hk.2.1, fun m => (keeps_mk.2 (keepsParts_saves hk (fun a => ?_))).2.2 m⟩
  have h : (fun w : Saved => w.memOk = true) { v with
      item := none, wait := .none, pc := nextWaitwq { cluster s (key / 64) with pc := v.pc }, chain := false, live := []
      streams := [] } := hv m
  exact Tab.put_all _ _ _ Saved.memOk a h

theorem podSaved_keeps {s0 : State} {p q : Nat} {e : Nat × Saved} {s : State} (hk : Keeps s0 s) (h : e ∈ podSaved s p q) :
    s0.memOk = true → e.2.memOk = true := by
  intro m
  have a := memOk_saves (hk.2.2 m)
  rw [List.all_eq_true] at a
  exact a e (List.mem_of_mem_filter h)

theorem podFails_keeps {s0 : State} {id : Nat} {s : State} (hk : Keeps s0 s) : Keeps s0 (podFails id s) := by
  unfold podFails
  split
  · exact hk
  next b _ =>
    apply podNext_keeps
    refine foldl_keeps ?_ (fun u a h => endItem_keeps h)
    have k : ∀ u : State, Keeps s0 u → Keeps s0 ((podSaved u b.part id).foldl (fun s e => podEndSaved e.1 e.2 s) u) :=
      fun u hu => foldl_keeps_of_mem hu (fun w a ha hw => podEndSaved_keeps (podSaved_keeps hu ha) hw)
    apply k
    simp only [keeps_mk]
    with_reducible apply keepsParts_of
    apply noteErr_keeps
    simp only [keeps_mk]
    with_reducible exact keepsParts_of hk

theorem sendRelease_keeps {s0 : State} {id : Nat} {b : PodBarrier} {tick : DWord} {c : Status} {s : State}  (hk : Keeps s0 s) :
    Keeps s0 (sendRelease id b tick c s) := by
  unfold sendRelease
  repeat' (first
    | with_reducible assumption
    | with_reducible apply foldl_keeps
    | with_reducible apply foldl_keeps_fst
    | with_reducible apply foldl_keeps_snd
    | with_reducible apply sendFw_keeps
    | with_reducible refine keeps_ite ?_ ?_
    | with_reducible apply keepsParts_of
    | simp only [keeps_mk]
    | intro _
    | split
    | dsimp only [id])

theorem podExcluded_keeps {s0 : State} {d : Nat} {s : State}  (hk : Keeps s0 s) :
    Keeps s0 (podExcluded d s) := by
  unfold podExcluded
  repeat' (first
    | with_reducible assumption
    | with_reducible apply foldl_keeps
    | with_reducible apply foldl_keeps_fst
    | with_reducible apply foldl_keeps_snd
    | with_reducible apply sendRelease_keeps
    | with_reducible apply podFails_keeps
    | with_reducible refine keeps_ite ?_ ?_
    | with_reducible apply keepsParts_of
    | simp only [keeps_mk]
    | intro _
    | split
    | dsimp only [id])

theorem trayExcluded_keeps {s0 : State} {d : Nat} {s : State} (hk : Keeps s0 s) :
    Keeps s0 (trayExcluded d s) := by
  unfold trayExcluded
  repeat' (first
    | with_reducible assumption
    | with_reducible apply foldl_keeps
    | with_reducible apply foldl_keeps_fst
    | with_reducible apply foldl_keeps_snd
    | with_reducible apply trayEnd_keeps
    | with_reducible apply whyEnd_keeps
    | with_reducible apply trayDstUpd_keeps
    | with_reducible refine keeps_ite ?_ ?_
    | with_reducible apply keepsParts_of
    | simp only [keeps_mk]
    | intro _
    | split
    | dsimp only [id])

theorem excludePeer_keeps {s0 : State} {d : Nat} {epoch : BitVec 16} {before : State} (hk : Keeps s0 before) :
    Keeps s0 (excludePeer d epoch before) := by
  unfold excludePeer
  repeat' (first
    | with_reducible assumption
    | with_reducible apply creditsRepath_keeps
    | with_reducible apply viaLost_keeps
    | with_reducible apply homeTurns_keeps
    | with_reducible apply partnerExcluded_keeps
    | with_reducible apply rmaExcluded_keeps
    | with_reducible apply trayExcluded_keeps
    | with_reducible apply podExcluded_keeps
    | with_reducible apply nodeLoss_keeps
    | with_reducible apply breakChannels_keeps
    | with_reducible refine keeps_ite ?_ ?_
    | with_reducible apply keepsParts_of
    | simp only [keeps_mk]
    | intro _
    | split
    | dsimp only [id])

theorem joinPeer_keeps {s0 : State} {d : Nat} {epoch : BitVec 16} {s : State} (hk : Keeps s0 s) :
    Keeps s0 (joinPeer d epoch s) := by
  unfold joinPeer
  repeat' (first
    | with_reducible assumption
    | with_reducible apply creditsRepath_keeps
    | with_reducible apply trayExcluded_keeps
    | with_reducible refine keeps_ite ?_ ?_
    | with_reducible apply keepsParts_of
    | simp only [keeps_mk]
    | intro _
    | split
    | dsimp only [id])

theorem trayFenced_keeps {s0 : State} {d : Nat} {s : State} (hk : Keeps s0 s) :
    Keeps s0 (trayFenced d s) := by
  unfold trayFenced
  repeat' (first
    | with_reducible assumption
    | with_reducible apply foldl_keeps
    | with_reducible apply foldl_keeps_fst
    | with_reducible apply foldl_keeps_snd
    | with_reducible apply fenceCount_keeps
    | with_reducible apply trayDstUpd_keeps
    | with_reducible apply breakChannels_keeps
    | with_reducible refine keeps_ite ?_ ?_
    | with_reducible apply keepsParts_of
    | simp only [keeps_mk]
    | intro _
    | split
    | dsimp only [id])

theorem selfFence_keeps {s0 : State} {s : State} (hk : Keeps s0 s) :
    Keeps s0 (selfFence s) := by
  unfold selfFence
  repeat' (first
    | with_reducible assumption
    | with_reducible apply foldl_keeps
    | with_reducible apply foldl_keeps_fst
    | with_reducible apply foldl_keeps_snd
    | with_reducible apply getD_keeps
    | with_reducible apply fencesRun_keeps
    | with_reducible apply msix_keeps
    | with_reducible apply trayFenced_keeps
    | with_reducible refine keeps_ite ?_ ?_
    | with_reducible apply keepsParts_of
    | simp only [keeps_mk]
    | intro _
    | split
    | dsimp only [id])

theorem retireFenced_keeps {s0 : State} {s : State}  (hk : Keeps s0 s) :
    Keeps s0 (retireFenced s) := by
  unfold retireFenced
  repeat' (first
    | with_reducible assumption
    | with_reducible apply foldl_keeps
    | with_reducible apply foldl_keeps_fst
    | with_reducible apply foldl_keeps_snd
    | with_reducible apply anchorFinish_keeps
    | with_reducible apply recRetire_keeps
    | with_reducible apply anchorUpd_keeps
    | with_reducible refine keeps_ite ?_ ?_
    | with_reducible apply keepsParts_of
    | simp only [keeps_mk]
    | intro _
    | split
    | dsimp only [id])

theorem clustersFenced_keeps {s0 : State} {s : State} (hk : Keeps s0 s) :
    Keeps s0 (clustersFenced s) := by
  unfold clustersFenced
  repeat' (first
    | with_reducible assumption
    | with_reducible refine keeps_ite ?_ ?_
    | with_reducible apply keepsParts_of
    | simp only [keeps_mk]
    | with_reducible apply memOk_ite
    | with_reducible apply memParts_of
    | simp only [memOk_mk]
    | with_reducible refine memParts_mk ?_ ?_ ?_
    | with_reducible apply memCase
    | with_reducible apply memAcc
    | with_reducible apply memMail
    | with_reducible apply Mem.store_wf
    | with_reducible apply Mem.clear_wf
    | with_reducible apply Mem.filter_wf
    | with_reducible apply Mem.over_wf
    | exact Mem.nil_wf
    | (with_reducible refine keepsParts_mem ?_ ?_ ?_ ?_ ?_)
    | with_reducible exact id
    | with_reducible exact Mem.store_wf _ _ _
    | with_reducible exact Mem.clear_wf _ _ _
    | with_reducible exact foldl_clear_wf
    | with_reducible exact (fun _ => Mem.nil_wf)
    | with_reducible exact (all_nil_keeps (p := Saved.memOk))
    | with_reducible exact (all_filter_keeps (p := Saved.memOk))
    | with_reducible exact (all_nil_keeps (p := Cluster.memOk))
    | with_reducible apply all_map_keeps
    | intro _
    | split
    | dsimp only [id])

theorem dropHeld_keeps {s0 : State} {s : State} (hk : Keeps s0 s) :
    Keeps s0 (dropHeld s) := by
  unfold dropHeld
  repeat' (first
    | with_reducible assumption
    | with_reducible refine keeps_ite ?_ ?_
    | with_reducible apply keepsParts_of
    | simp only [keeps_mk]
    | intro _
    | split
    | dsimp only [id])

theorem retireFirst_keeps {s0 : State} {s : State} (hk : Keeps s0 s) :
    Keeps s0 (retireFirst s) := by
  unfold retireFirst
  repeat' (first
    | with_reducible assumption
    | with_reducible apply foldl_keeps
    | with_reducible apply foldl_keeps_fst
    | with_reducible apply foldl_keeps_snd
    | with_reducible apply dropHeld_keeps
    | with_reducible apply retireFenced_keeps
    | with_reducible apply post_keeps
    | with_reducible refine keeps_ite ?_ ?_
    | with_reducible apply keepsParts_of
    | simp only [keeps_mk]
    | intro _
    | split
    | dsimp only [id])

theorem readmit_keeps {s0 : State} {epoch : BitVec 16} {seq : Nat} {leaseMs : Nat} {table : List (DevId × Bool × BitVec 16)} {s : State} (hk : Keeps s0 s) :
    Keeps s0 (readmit epoch seq leaseMs table s) := by
  unfold readmit
  repeat' (first
    | with_reducible assumption
    | with_reducible apply foldl_keeps
    | with_reducible apply foldl_keeps_fst
    | with_reducible apply foldl_keeps_snd
    | with_reducible apply sendLstate_keeps
    | with_reducible apply freeAllGalleys_keeps
    | with_reducible apply pairState_keeps
    | with_reducible apply silverClear_keeps
    | with_reducible apply rmaReadmit_keeps
    | with_reducible apply retireFirst_keeps
    | with_reducible apply clustersFenced_keeps
    | with_reducible apply pairFollow_keeps
    | with_reducible refine keeps_ite ?_ ?_
    | with_reducible apply keepsParts_of
    | simp only [keeps_mk]
    | intro _
    | split
    | dsimp only [id])

end Sys2Proof.Machine
end

