-- ==== Sys2Proof/Laws/KeepsNotices.lean ====
section
/-!
SUPPORT. What the operations of Sys2Proof/Machine/Notices.lean keep: the queue, the agreement of the TMR copies, and the canonical
form of the memories (Safety).
-/

namespace Sys2Proof.Machine

theorem noticeEnter_keeps {s0 : State} {n : Nat} {op : POp} {flags : BitVec 8} {d : Desc} {run : Run} {reads : List (Nat × Nat × Nat)} {taken : List Eff} {slots : List Nat} {ch : Nat} {msg : List Byte} {s : State} (hk : Keeps s0 s) :
    Keeps s0 (noticeEnter n op flags d run reads taken slots ch msg s) := by
  unfold noticeEnter
  repeat' (first
    | with_reducible assumption
    | with_reducible apply clusterUpd_keeps
    | with_reducible apply enter_keeps
    | with_reducible refine keeps_ite ?_ ?_
    | with_reducible apply keepsParts_of
    | simp only [keeps_mk]
    | with_reducible apply memOk_ite
    | with_reducible apply memParts_of
    | simp only [memOk_mk]
    | with_reducible refine memParts_mk ?_ ?_ ?_
    | exact Mem.nil_wf
    | intro _
    | split
    | dsimp only [id])

theorem noticeRefuse_keeps {s0 : State} {n : Nat} {flags : BitVec 8} {m : NoticeMsg} {c : Status} {ch : Nat} {s : State} (hk : Keeps s0 s) :
    Keeps s0 (noticeRefuse n flags m c ch s) := by
  unfold noticeRefuse
  repeat' (first
    | with_reducible assumption
    | with_reducible apply noticeEnter_keeps
    | with_reducible refine keeps_ite ?_ ?_
    | with_reducible apply keepsParts_of
    | simp only [keeps_mk]
    | intro _
    | split
    | dsimp only [id])

theorem noticeFails_keeps {s0 : State} {n : Nat} {flags : BitVec 8} {m : NoticeMsg} {ch : Nat} {c : Status} {cause : Nat} {s : State} (hk : Keeps s0 s) :
    Keeps s0 (noticeFails n flags m ch c cause s) := by
  unfold noticeFails
  repeat' (first
    | with_reducible assumption
    | with_reducible apply noticeRefuse_keeps
    | with_reducible apply endItem_keeps
    | with_reducible refine keeps_ite ?_ ?_
    | with_reducible apply keepsParts_of
    | simp only [keeps_mk]
    | intro _
    | split
    | dsimp only [id])

theorem noticeFault_keeps {s0 : State} {n : Nat} {m : NoticeMsg} {ch : Nat} {s : State} (hk : Keeps s0 s) :
    Keeps s0 (noticeFault n m ch s) := by
  unfold noticeFault
  repeat' (first
    | with_reducible assumption
    | with_reducible apply clusterFault_keeps
    | with_reducible apply channelUpd_keeps
    | with_reducible apply sendMessage_keeps
    | with_reducible refine keeps_ite ?_ ?_
    | with_reducible apply keepsParts_of
    | simp only [keeps_mk]
    | intro _
    | split
    | dsimp only [id])

theorem noticeServe_keeps {s0 : State} {sender : DevId} {m : NoticeMsg} {c : PressCmd} {ch : Nat} {s : State} (hk : Keeps s0 s) :
    Keeps s0 (noticeServe sender m c ch s) := by
  unfold noticeServe
  repeat' (first
    | with_reducible assumption
    | with_reducible apply getD_keeps
    | with_reducible apply clusterUpd_keeps
    | with_reducible apply itemLost_keeps
    | with_reducible apply viewOf_keeps
    | with_reducible apply noticeFault_keeps
    | with_reducible apply noticeFails_keeps
    | with_reducible apply noticeRefuse_keeps
    | with_reducible apply noticeEnter_keeps
    | with_reducible apply readOutcome_keeps
    | with_reducible apply slugLost_keeps
    | (with_reducible apply readOutcome_keeps_of (by assumption))
    | with_reducible refine keeps_ite ?_ ?_
    | with_reducible apply keepsParts_of
    | simp only [keeps_mk]
    | with_reducible apply memOk_ite
    | with_reducible apply memParts_of
    | simp only [memOk_mk]
    | with_reducible refine memParts_mk ?_ ?_ ?_
    | exact Mem.nil_wf
    | intro _
    | split
    | dsimp only [id])

theorem requestNotice_keeps {s0 : State} {sender : DevId} {m : NoticeMsg} {c : PressCmd} {rch : Nat} {ch : Nat} {s : State} (hk : Keeps s0 s) :
    Keeps s0 (requestNotice sender m c rch ch s) := by
  unfold requestNotice
  repeat' (first
    | with_reducible assumption
    | with_reducible apply getD_keeps
    | with_reducible apply countEcc_keeps
    | with_reducible apply noticeServe_keeps
    | with_reducible apply noticeRefuse_keeps
    | with_reducible apply dropHead_keeps
    | with_reducible refine keeps_ite ?_ ?_
    | with_reducible apply keepsParts_of
    | simp only [keeps_mk]
    | intro _
    | split
    | dsimp only [id])

theorem execRequestNotice_keeps {s0 : State} {sender : DevId} {m : NoticeMsg} {c : PressCmd} {ch : NoticeChans} {s : State} {tt : State} (hk : Keeps s0 s) (eq_ : execRequestNotice sender m c ch s = .next tt) : Keeps s0 tt := by
  unfold execRequestNotice at eq_
  repeat' (first | split at eq_ | dsimp only at eq_)
  all_goals (first | (injection eq_ with eq_; subst eq_) | (cases eq_))
  repeat' (first
    | with_reducible assumption
    | with_reducible apply requestNotice_keeps
    | with_reducible refine keeps_ite ?_ ?_
    | with_reducible apply keepsParts_of
    | simp only [keeps_mk]
    | intro _
    | split
    | dsimp only [id])

theorem replyNotice_keeps {s0 : State} {n : Nat} {ch : Nat} {m : ReplyMsg} {rowtab : DWord} {s : State} (hk : Keeps s0 s) :
    Keeps s0 (replyNotice n ch m rowtab s) := by
  unfold replyNotice
  repeat' (first
    | with_reducible assumption
    | with_reducible apply getD_keeps
    | with_reducible apply clusterUpd_keeps
    | with_reducible apply discardStale_keeps
    | with_reducible apply dropHead_keeps
    | with_reducible refine keeps_ite ?_ ?_
    | with_reducible apply keepsParts_of
    | simp only [keeps_mk]
    | with_reducible apply memOk_ite
    | with_reducible apply memParts_of
    | simp only [memOk_mk]
    | with_reducible refine memParts_mk ?_ ?_ ?_
    | exact Mem.nil_wf
    | intro _
    | split
    | dsimp only [id])

theorem execReplyNotice_keeps {s0 : State} {cl : ClusterId} {ch : BitVec 5} {m : ReplyTaken} {s : State} {tt : State} (hk : Keeps s0 s) (eq_ : execReplyNotice cl ch m s = .next tt) : Keeps s0 tt := by
  unfold execReplyNotice at eq_
  repeat' (first | split at eq_ | dsimp only at eq_)
  all_goals (first | (injection eq_ with eq_; subst eq_) | (cases eq_))
  repeat' (first
    | with_reducible assumption
    | with_reducible apply replyNotice_keeps
    | with_reducible refine keeps_ite ?_ ?_
    | with_reducible apply keepsParts_of
    | simp only [keeps_mk]
    | intro _
    | split
    | dsimp only [id])

end Sys2Proof.Machine
end

