-- ==== Sys2Proof/Laws/KeepsPair.lean ====
section
/-!
SUPPORT. What the operations of Sys2Proof/Machine/Pair.lean keep: the queue, the agreement of the TMR copies, and the canonical
form of the memories (Safety).
-/

namespace Sys2Proof.Machine

theorem drawSecret_keeps {s0 : State} {s : State}  (hk : Keeps s0 s) :
    Keeps s0 (drawSecret s) := by
  unfold drawSecret
  repeat' (first
    | with_reducible assumption
    | with_reducible apply draw_keeps
    | (with_reducible apply draw_keeps_of (by assumption))
    | with_reducible refine keeps_ite ?_ ?_
    | with_reducible apply keepsParts_of
    | simp only [keeps_mk]
    | intro _
    | split
    | dsimp only [id])

theorem sendSecret_keeps {s0 : State} {p : Nat} {s : State}  (hk : Keeps s0 s) :
    Keeps s0 (sendSecret p s) := by
  unfold sendSecret
  repeat' (first
    | with_reducible assumption
    | with_reducible apply sendFw_keeps
    | with_reducible refine keeps_ite ?_ ?_
    | with_reducible apply keepsParts_of
    | simp only [keeps_mk]
    | intro _
    | split
    | dsimp only [id])

theorem meetSecret_keeps {s0 : State} {p : Nat} {v : PartnerView} {s : State}  (hk : Keeps s0 s) :
    Keeps s0 (meetSecret p v s) := by
  unfold meetSecret
  repeat' (first
    | with_reducible assumption
    | with_reducible apply drawSecret_keeps
    | with_reducible apply sendSecret_keeps
    | with_reducible refine keeps_ite ?_ ?_
    | with_reducible apply keepsParts_of
    | simp only [keeps_mk]
    | intro _
    | split
    | dsimp only [id])

theorem partnerMeet_keeps {s0 : State} {v : PartnerView} {s : State} (hk : Keeps s0 s) :
    Keeps s0 (partnerMeet v s) := by
  unfold partnerMeet
  repeat' (first
    | with_reducible assumption
    | with_reducible apply silverResume_keeps
    | with_reducible apply silverEnd_keeps
    | with_reducible apply meetSecret_keeps
    | with_reducible apply mirrorsAlone_keeps
    | with_reducible refine keeps_ite ?_ ?_
    | with_reducible apply keepsParts_of
    | simp only [keeps_mk]
    | intro _
    | split
    | dsimp only [id])

theorem execPartnerMeet_keeps {s0 : State} {v : PartnerView} {s : State}  {tt : State} (hk : Keeps s0 s) (eq_ : execPartnerMeet v s = .next tt) : Keeps s0 tt := by
  unfold execPartnerMeet at eq_
  repeat' (first | split at eq_ | dsimp only at eq_)
  all_goals (first | (injection eq_ with eq_; subst eq_) | (cases eq_))
  repeat' (first
    | with_reducible assumption
    | with_reducible apply unlessFenced_keeps
    | with_reducible apply partnerMeet_keeps
    | with_reducible refine keeps_ite ?_ ?_
    | with_reducible apply keepsParts_of
    | simp only [keeps_mk]
    | intro _
    | split
    | dsimp only [id])

theorem mirrorLate_keeps {s0 : State} {d : Nat} {n : Nat} {s : State}  (hk : Keeps s0 s) :
    Keeps s0 (mirrorLate d n s) := by
  unfold mirrorLate
  repeat' (first
    | with_reducible assumption
    | with_reducible apply sendSuspect_keeps
    | with_reducible apply trayDstUpd_keeps
    | with_reducible apply noteErr_keeps
    | with_reducible refine keeps_ite ?_ ?_
    | with_reducible apply keepsParts_of
    | simp only [keeps_mk]
    | intro _
    | split
    | dsimp only [id])

theorem execMirrorAckTimeout_keeps {s0 : State} {slot : Slot} {seq : Word} {s : State}  {tt : State} (hk : Keeps s0 s) (eq_ : execMirrorAckTimeout slot seq s = .next tt) : Keeps s0 tt := by
  unfold execMirrorAckTimeout at eq_
  repeat' (first | split at eq_ | dsimp only at eq_)
  all_goals (first | (injection eq_ with eq_; subst eq_) | (cases eq_))
  repeat' (first
    | with_reducible assumption
    | with_reducible apply unlessFenced_keeps
    | with_reducible apply mirrorLate_keeps
    | with_reducible refine keeps_ite ?_ ?_
    | with_reducible apply keepsParts_of
    | simp only [keeps_mk]
    | intro _
    | split
    | dsimp only [id])

theorem pairCode_keeps {s0 : State} {c : Status} {s : State}  (hk : Keeps s0 s) :
    Keeps s0 (pairCode c s) := by
  unfold pairCode
  repeat' (first
    | with_reducible assumption
    | with_reducible refine keeps_ite ?_ ?_
    | with_reducible apply keepsParts_of
    | simp only [keeps_mk]
    | intro _
    | split
    | dsimp only [id])

theorem pairCtl_keeps {s0 : State} {w : CtlWrite} {own : Nat} {run : State → State} {s : State} (h_run : ∀ (u : State), Keeps s0 u → Keeps s0 (run u)) (hk : Keeps s0 s) :
    Keeps s0 (pairCtl w own run s) := by
  unfold pairCtl
  repeat' (first
    | with_reducible assumption
    | with_reducible apply pairCode_keeps
    | with_reducible apply ctl_keeps
    | with_reducible apply h_run
    | with_reducible refine keeps_ite ?_ ?_
    | with_reducible apply keepsParts_of
    | simp only [keeps_mk]
    | intro _
    | split
    | dsimp only [id])

theorem silverStart_keeps {s0 : State} {reads : ReadOutcome} {s : State} (hk : Keeps s0 s) :
    Keeps s0 (silverStart reads s) := by
  unfold silverStart
  repeat' (first
    | with_reducible assumption
    | with_reducible apply pairState_keeps
    | with_reducible apply silverClear_keeps
    | with_reducible apply silverRun_keeps
    | with_reducible apply trayIssue_keeps
    | with_reducible refine keeps_ite ?_ ?_
    | with_reducible apply keepsParts_of
    | simp only [keeps_mk]
    | intro _
    | split
    | dsimp only [id])

theorem execSilver_keeps {s0 : State} {w : CtlWrite} {v : PartnerView} {s : State} {tt : State} (hk : Keeps s0 s) (eq_ : execSilver w v s = .next tt) : Keeps s0 tt := by
  unfold execSilver at eq_
  repeat' (first | split at eq_ | dsimp only at eq_)
  all_goals (first | (injection eq_ with eq_; subst eq_) | (cases eq_))
  repeat' (first
    | with_reducible assumption
    | with_reducible apply silverStart_keeps
    | with_reducible apply pairCtl_keeps
    | with_reducible apply pairCode_keeps
    | with_reducible refine keeps_ite ?_ ?_
    | with_reducible apply keepsParts_of
    | simp only [keeps_mk]
    | intro _
    | split
    | dsimp only [id])

theorem execAbort_keeps {s0 : State} {w : CtlWrite} {s : State}  {tt : State} (hk : Keeps s0 s) (eq_ : execAbort w s = .next tt) : Keeps s0 tt := by
  unfold execAbort at eq_
  repeat' (first | split at eq_ | dsimp only at eq_)
  all_goals (first | (injection eq_ with eq_; subst eq_) | (cases eq_))
  repeat' (first
    | with_reducible assumption
    | with_reducible apply silverEnd_keeps
    | with_reducible apply pairCode_keeps
    | with_reducible apply pairCtl_keeps
    | with_reducible refine keeps_ite ?_ ?_
    | with_reducible apply keepsParts_of
    | simp only [keeps_mk]
    | intro _
    | split
    | dsimp only [id])

theorem execSuspect_keeps {s0 : State} {w : CtlWrite} {s : State}  {tt : State} (hk : Keeps s0 s) (eq_ : execSuspect w s = .next tt) : Keeps s0 tt := by
  unfold execSuspect at eq_
  repeat' (first | split at eq_ | dsimp only at eq_)
  all_goals (first | (injection eq_ with eq_; subst eq_) | (cases eq_))
  repeat' (first
    | with_reducible assumption
    | with_reducible apply sendSuspect_keeps
    | with_reducible apply pairCode_keeps
    | with_reducible apply pairCtl_keeps
    | with_reducible refine keeps_ite ?_ ?_
    | with_reducible apply keepsParts_of
    | simp only [keeps_mk]
    | intro _
    | split
    | dsimp only [id])

theorem execPairClr_keeps {s0 : State} {w : CtlWrite} {s : State}  {tt : State} (hk : Keeps s0 s) (eq_ : execPairClr w s = .next tt) : Keeps s0 tt := by
  unfold execPairClr at eq_
  repeat' (first | split at eq_ | dsimp only at eq_)
  all_goals (first | (injection eq_ with eq_; subst eq_) | (cases eq_))
  repeat' (first
    | with_reducible assumption
    | with_reducible apply pairCode_keeps
    | with_reducible apply pairCtl_keeps
    | with_reducible refine keeps_ite ?_ ?_
    | with_reducible apply keepsParts_of
    | simp only [keeps_mk]
    | intro _
    | split
    | dsimp only [id])

theorem execCheckpointRequest_keeps {s0 : State} {s : State}  {tt : State} (hk : Keeps s0 s) (eq_ : execCheckpointRequest s = .next tt) : Keeps s0 tt := by
  unfold execCheckpointRequest at eq_
  repeat' (first | split at eq_ | dsimp only at eq_)
  all_goals (first | (injection eq_ with eq_; subst eq_) | (cases eq_))
  repeat' (first
    | with_reducible assumption
    | with_reducible apply unlessFenced_keeps
    | with_reducible apply ckptAsk_keeps
    | with_reducible refine keeps_ite ?_ ?_
    | with_reducible apply keepsParts_of
    | simp only [keeps_mk]
    | intro _
    | split
    | dsimp only [id])

theorem execCkptAck_keeps {s0 : State} {n : WithReads Word} {s : State} {tt : State} (hk : Keeps s0 s) (eq_ : execCkptAck n s = .next tt) : Keeps s0 tt := by
  unfold execCkptAck at eq_
  repeat' (first | split at eq_ | dsimp only at eq_)
  all_goals (first | (injection eq_ with eq_; subst eq_) | (cases eq_))
  repeat' (first
    | with_reducible assumption
    | with_reducible apply ckptAcked_keeps
    | with_reducible apply unlessFenced_keeps
    | with_reducible refine keeps_ite ?_ ?_
    | with_reducible apply keepsParts_of
    | simp only [keeps_mk]
    | intro _
    | split
    | dsimp only [id])

theorem mapInstall_keeps {s0 : State} {s : State}  (hk : Keeps s0 s) :
    Keeps s0 (mapInstall s) := by
  unfold mapInstall
  repeat' (first
    | with_reducible assumption
    | with_reducible refine keeps_ite ?_ ?_
    | with_reducible apply keepsParts_of
    | simp only [keeps_mk]
    | intro _
    | split
    | dsimp only [id])

theorem execMapInstall_keeps {s0 : State} {w : CtlWrite} {s : State}  {tt : State} (hk : Keeps s0 s) (eq_ : execMapInstall w s = .next tt) : Keeps s0 tt := by
  unfold execMapInstall at eq_
  repeat' (first | split at eq_ | dsimp only at eq_)
  all_goals (first | (injection eq_ with eq_; subst eq_) | (cases eq_))
  repeat' (first
    | with_reducible assumption
    | with_reducible apply mapInstall_keeps
    | with_reducible apply mapPrune_keeps
    | with_reducible apply pairCode_keeps
    | with_reducible apply pairCtl_keeps
    | with_reducible refine keeps_ite ?_ ?_
    | with_reducible apply keepsParts_of
    | simp only [keeps_mk]
    | intro _
    | split
    | dsimp only [id])

theorem execMapRenew_keeps {s0 : State} {w : CtlWrite} {s : State}  {tt : State} (hk : Keeps s0 s) (eq_ : execMapRenew w s = .next tt) : Keeps s0 tt := by
  unfold execMapRenew at eq_
  repeat' (first | split at eq_ | dsimp only at eq_)
  all_goals (first | (injection eq_ with eq_; subst eq_) | (cases eq_))
  repeat' (first
    | with_reducible assumption
    | with_reducible apply pairCode_keeps
    | with_reducible apply pairCtl_keeps
    | with_reducible refine keeps_ite ?_ ?_
    | with_reducible apply keepsParts_of
    | simp only [keeps_mk]
    | intro _
    | split
    | dsimp only [id])

theorem execMapLeaseEnd_keeps {s0 : State} {epoch : Word} {s : State}  {tt : State} (hk : Keeps s0 s) (eq_ : execMapLeaseEnd epoch s = .next tt) : Keeps s0 tt := by
  unfold execMapLeaseEnd at eq_
  repeat' (first | split at eq_ | dsimp only at eq_)
  all_goals (first | (injection eq_ with eq_; subst eq_) | (cases eq_))
  repeat' (first
    | with_reducible assumption
    | with_reducible apply mapPrune_keeps
    | with_reducible refine keeps_ite ?_ ?_
    | with_reducible apply keepsParts_of
    | simp only [keeps_mk]
    | intro _
    | split
    | dsimp only [id])

theorem renewTick_keeps {s0 : State} {s : State} (hk : Keeps s0 s) :
    Keeps s0 (renewTick s) := by
  unfold renewTick
  repeat' (first
    | with_reducible assumption
    | with_reducible apply slSend_keeps
    | with_reducible refine keeps_ite ?_ ?_
    | with_reducible apply keepsParts_of
    | simp only [keeps_mk]
    | intro _
    | split
    | dsimp only [id])

theorem execRenewTimer_keeps {s0 : State} {s : State}  {tt : State} (hk : Keeps s0 s) (eq_ : execRenewTimer s = .next tt) : Keeps s0 tt := by
  unfold execRenewTimer at eq_
  repeat' (first | split at eq_ | dsimp only at eq_)
  all_goals (first | (injection eq_ with eq_; subst eq_) | (cases eq_))
  repeat' (first
    | with_reducible assumption
    | with_reducible apply renewTick_keeps
    | with_reducible refine keeps_ite ?_ ?_
    | with_reducible apply keepsParts_of
    | simp only [keeps_mk]
    | intro _
    | split
    | dsimp only [id])

theorem grant_keeps {s0 : State} {seq : Nat} {leaseMs : Nat} {s : State}  (hk : Keeps s0 s) :
    Keeps s0 (grant seq leaseMs s) := by
  unfold grant
  repeat' (first
    | with_reducible assumption
    | with_reducible refine keeps_ite ?_ ?_
    | with_reducible apply keepsParts_of
    | simp only [keeps_mk]
    | intro _
    | split
    | dsimp only [id])

theorem execGrant_keeps {s0 : State} {dev : DevId} {_xepoch : BitVec 16} {seq : Word} {leaseMs : Nat} {s : State}  {tt : State} (hk : Keeps s0 s) (eq_ : execGrant dev _xepoch seq leaseMs s = .next tt) : Keeps s0 tt := by
  unfold execGrant at eq_
  repeat' (first | split at eq_ | dsimp only at eq_)
  all_goals (first | (injection eq_ with eq_; subst eq_) | (cases eq_))
  repeat' (first
    | with_reducible assumption
    | with_reducible apply grant_keeps
    | with_reducible refine keeps_ite ?_ ?_
    | with_reducible apply keepsParts_of
    | simp only [keeps_mk]
    | intro _
    | split
    | dsimp only [id])

theorem execDeny_keeps {s0 : State} {dev : DevId} {_seq : Word} {s : State}  {tt : State} (hk : Keeps s0 s) (eq_ : execDeny dev _seq s = .next tt) : Keeps s0 tt := by
  unfold execDeny at eq_
  repeat' (first | split at eq_ | dsimp only at eq_)
  all_goals (first | (injection eq_ with eq_; subst eq_) | (cases eq_))
  repeat' (first
    | with_reducible assumption
    | with_reducible apply selfFence_keeps
    | with_reducible refine keeps_ite ?_ ?_
    | with_reducible apply keepsParts_of
    | simp only [keeps_mk]
    | intro _
    | split
    | dsimp only [id])

theorem execLeaseExpiry_keeps {s0 : State} {s : State}  {tt : State} (hk : Keeps s0 s) (eq_ : execLeaseExpiry s = .next tt) : Keeps s0 tt := by
  unfold execLeaseExpiry at eq_
  repeat' (first | split at eq_ | dsimp only at eq_)
  all_goals (first | (injection eq_ with eq_; subst eq_) | (cases eq_))
  repeat' (first
    | with_reducible assumption
    | with_reducible apply selfFence_keeps
    | with_reducible refine keeps_ite ?_ ?_
    | with_reducible apply keepsParts_of
    | simp only [keeps_mk]
    | intro _
    | split
    | dsimp only [id])

theorem execExclude_keeps {s0 : State} {dev : DevId} {xepoch : BitVec 16} {s : State}  {tt : State} (hk : Keeps s0 s) (eq_ : execExclude dev xepoch s = .next tt) : Keeps s0 tt := by
  unfold execExclude at eq_
  repeat' (first | split at eq_ | dsimp only at eq_)
  all_goals (first | (injection eq_ with eq_; subst eq_) | (cases eq_))
  repeat' (first
    | with_reducible assumption
    | with_reducible apply unlessFenced_keeps
    | with_reducible apply excludePeer_keeps
    | with_reducible apply selfFence_keeps
    | with_reducible refine keeps_ite ?_ ?_
    | with_reducible apply keepsParts_of
    | simp only [keeps_mk]
    | intro _
    | split
    | dsimp only [id])

theorem execAdmitMsg_keeps {s0 : State} {dev : DevId} {xepoch : BitVec 16} {seq : Word} {leaseMs : Nat} {table : List (DevId × Bool × BitVec 16)} {s : State}  {tt : State} (hk : Keeps s0 s) (eq_ : execAdmitMsg dev xepoch seq leaseMs table s = .next tt) : Keeps s0 tt := by
  unfold execAdmitMsg at eq_
  repeat' (first | split at eq_ | dsimp only at eq_)
  all_goals (first | (injection eq_ with eq_; subst eq_) | (cases eq_))
  repeat' (first
    | with_reducible assumption
    | with_reducible apply readmit_keeps
    | with_reducible refine keeps_ite ?_ ?_
    | with_reducible apply keepsParts_of
    | simp only [keeps_mk]
    | intro _
    | split
    | dsimp only [id])

theorem execJoin_keeps {s0 : State} {dev : DevId} {xepoch : BitVec 16} {s : State}  {tt : State} (hk : Keeps s0 s) (eq_ : execJoin dev xepoch s = .next tt) : Keeps s0 tt := by
  unfold execJoin at eq_
  repeat' (first | split at eq_ | dsimp only at eq_)
  all_goals (first | (injection eq_ with eq_; subst eq_) | (cases eq_))
  repeat' (first
    | with_reducible assumption
    | with_reducible apply unlessFenced_keeps
    | with_reducible apply joinPeer_keeps
    | with_reducible refine keeps_ite ?_ ?_
    | with_reducible apply keepsParts_of
    | simp only [keeps_mk]
    | intro _
    | split
    | dsimp only [id])

end Sys2Proof.Machine
end

