-- ==== Sys2Proof/Laws/KeepsPressOps.lean ====
section
/-!
SUPPORT. What the operations of Sys2Proof/Machine/PressOps.lean keep: the queue, the agreement of the TMR copies, and the canonical
form of the memories (Safety).
-/

namespace Sys2Proof.Machine

theorem execLoad_keeps {s0 : State} {c : PressCmd} {s : State}  {tt : State} (hk : Keeps s0 s) (eq_ : execLoad c s = .next tt) : Keeps s0 tt := by
  unfold execLoad at eq_
  repeat' (first | split at eq_ | dsimp only at eq_)
  all_goals (first | (injection eq_ with eq_; subst eq_) | (cases eq_))
  repeat' (first
    | with_reducible assumption
    | with_reducible apply pressIssue_keeps
    | with_reducible refine keeps_ite ?_ ?_
    | with_reducible apply keepsParts_of
    | simp only [keeps_mk]
    | intro _
    | split
    | dsimp only [id])

theorem execStore_keeps {s0 : State} {c : PressCmd} {s : State}  {tt : State} (hk : Keeps s0 s) (eq_ : execStore c s = .next tt) : Keeps s0 tt := by
  unfold execStore at eq_
  repeat' (first | split at eq_ | dsimp only at eq_)
  all_goals (first | (injection eq_ with eq_; subst eq_) | (cases eq_))
  repeat' (first
    | with_reducible assumption
    | with_reducible apply pressIssue_keeps
    | with_reducible refine keeps_ite ?_ ?_
    | with_reducible apply keepsParts_of
    | simp only [keeps_mk]
    | intro _
    | split
    | dsimp only [id])

theorem execStreamArm_keeps {s0 : State} {c : PressCmd} {s : State}  {tt : State} (hk : Keeps s0 s) (eq_ : execStreamArm c s = .next tt) : Keeps s0 tt := by
  unfold execStreamArm at eq_
  repeat' (first | split at eq_ | dsimp only at eq_)
  all_goals (first | (injection eq_ with eq_; subst eq_) | (cases eq_))
  repeat' (first
    | with_reducible assumption
    | with_reducible apply pressIssue_keeps
    | with_reducible refine keeps_ite ?_ ?_
    | with_reducible apply keepsParts_of
    | simp only [keeps_mk]
    | intro _
    | split
    | dsimp only [id])

theorem execStreamStop_keeps {s0 : State} {c : PressCmd} {s : State}  {tt : State} (hk : Keeps s0 s) (eq_ : execStreamStop c s = .next tt) : Keeps s0 tt := by
  unfold execStreamStop at eq_
  repeat' (first | split at eq_ | dsimp only at eq_)
  all_goals (first | (injection eq_ with eq_; subst eq_) | (cases eq_))
  repeat' (first
    | with_reducible assumption
    | with_reducible apply pressIssue_keeps
    | with_reducible refine keeps_ite ?_ ?_
    | with_reducible apply keepsParts_of
    | simp only [keeps_mk]
    | intro _
    | split
    | dsimp only [id])

theorem execMatmul_keeps {s0 : State} {c : PressCmd} {s : State}  {tt : State} (hk : Keeps s0 s) (eq_ : execMatmul c s = .next tt) : Keeps s0 tt := by
  unfold execMatmul at eq_
  repeat' (first | split at eq_ | dsimp only at eq_)
  all_goals (first | (injection eq_ with eq_; subst eq_) | (cases eq_))
  repeat' (first
    | with_reducible assumption
    | with_reducible apply pressIssue_keeps
    | with_reducible refine keeps_ite ?_ ?_
    | with_reducible apply keepsParts_of
    | simp only [keeps_mk]
    | intro _
    | split
    | dsimp only [id])

theorem execVector_keeps {s0 : State} {c : PressCmd} {s : State}  {tt : State} (hk : Keeps s0 s) (eq_ : execVector c s = .next tt) : Keeps s0 tt := by
  unfold execVector at eq_
  repeat' (first | split at eq_ | dsimp only at eq_)
  all_goals (first | (injection eq_ with eq_; subst eq_) | (cases eq_))
  repeat' (first
    | with_reducible assumption
    | with_reducible apply pressIssue_keeps
    | with_reducible refine keeps_ite ?_ ?_
    | with_reducible apply keepsParts_of
    | simp only [keeps_mk]
    | intro _
    | split
    | dsimp only [id])

theorem execNorm_keeps {s0 : State} {c : PressCmd} {s : State}  {tt : State} (hk : Keeps s0 s) (eq_ : execNorm c s = .next tt) : Keeps s0 tt := by
  unfold execNorm at eq_
  repeat' (first | split at eq_ | dsimp only at eq_)
  all_goals (first | (injection eq_ with eq_; subst eq_) | (cases eq_))
  repeat' (first
    | with_reducible assumption
    | with_reducible apply pressIssue_keeps
    | with_reducible refine keeps_ite ?_ ?_
    | with_reducible apply keepsParts_of
    | simp only [keeps_mk]
    | intro _
    | split
    | dsimp only [id])

theorem execReduce_keeps {s0 : State} {c : PressCmd} {s : State}  {tt : State} (hk : Keeps s0 s) (eq_ : execReduce c s = .next tt) : Keeps s0 tt := by
  unfold execReduce at eq_
  repeat' (first | split at eq_ | dsimp only at eq_)
  all_goals (first | (injection eq_ with eq_; subst eq_) | (cases eq_))
  repeat' (first
    | with_reducible assumption
    | with_reducible apply pressIssue_keeps
    | with_reducible refine keeps_ite ?_ ?_
    | with_reducible apply keepsParts_of
    | simp only [keeps_mk]
    | intro _
    | split
    | dsimp only [id])

theorem execTopk_keeps {s0 : State} {c : PressCmd} {s : State}  {tt : State} (hk : Keeps s0 s) (eq_ : execTopk c s = .next tt) : Keeps s0 tt := by
  unfold execTopk at eq_
  repeat' (first | split at eq_ | dsimp only at eq_)
  all_goals (first | (injection eq_ with eq_; subst eq_) | (cases eq_))
  repeat' (first
    | with_reducible assumption
    | with_reducible apply pressIssue_keeps
    | with_reducible refine keeps_ite ?_ ?_
    | with_reducible apply keepsParts_of
    | simp only [keeps_mk]
    | intro _
    | split
    | dsimp only [id])

theorem execSend_keeps {s0 : State} {c : PressCmd} {s : State}  {tt : State} (hk : Keeps s0 s) (eq_ : execSend c s = .next tt) : Keeps s0 tt := by
  unfold execSend at eq_
  repeat' (first | split at eq_ | dsimp only at eq_)
  all_goals (first | (injection eq_ with eq_; subst eq_) | (cases eq_))
  repeat' (first
    | with_reducible assumption
    | with_reducible apply pressIssue_keeps
    | with_reducible refine keeps_ite ?_ ?_
    | with_reducible apply keepsParts_of
    | simp only [keeps_mk]
    | intro _
    | split
    | dsimp only [id])

theorem execConvert_keeps {s0 : State} {c : PressCmd} {s : State}  {tt : State} (hk : Keeps s0 s) (eq_ : execConvert c s = .next tt) : Keeps s0 tt := by
  unfold execConvert at eq_
  repeat' (first | split at eq_ | dsimp only at eq_)
  all_goals (first | (injection eq_ with eq_; subst eq_) | (cases eq_))
  repeat' (first
    | with_reducible assumption
    | with_reducible apply pressIssue_keeps
    | with_reducible refine keeps_ite ?_ ?_
    | with_reducible apply keepsParts_of
    | simp only [keeps_mk]
    | intro _
    | split
    | dsimp only [id])

theorem execGather_keeps {s0 : State} {c : PressCmd} {s : State}  {tt : State} (hk : Keeps s0 s) (eq_ : execGather c s = .next tt) : Keeps s0 tt := by
  unfold execGather at eq_
  repeat' (first | split at eq_ | dsimp only at eq_)
  all_goals (first | (injection eq_ with eq_; subst eq_) | (cases eq_))
  repeat' (first
    | with_reducible assumption
    | with_reducible apply pressIssue_keeps
    | with_reducible refine keeps_ite ?_ ?_
    | with_reducible apply keepsParts_of
    | simp only [keeps_mk]
    | intro _
    | split
    | dsimp only [id])

theorem execDigest_keeps {s0 : State} {c : PressCmd} {s : State}  {tt : State} (hk : Keeps s0 s) (eq_ : execDigest c s = .next tt) : Keeps s0 tt := by
  unfold execDigest at eq_
  repeat' (first | split at eq_ | dsimp only at eq_)
  all_goals (first | (injection eq_ with eq_; subst eq_) | (cases eq_))
  repeat' (first
    | with_reducible assumption
    | with_reducible apply pressIssue_keeps
    | with_reducible refine keeps_ite ?_ ?_
    | with_reducible apply keepsParts_of
    | simp only [keeps_mk]
    | intro _
    | split
    | dsimp only [id])

theorem execRecv_keeps {s0 : State} {c : PressCmd} {s : State} {tt : State} (hk : Keeps s0 s) (eq_ : execRecv c s = .next tt) : Keeps s0 tt := by
  unfold execRecv at eq_
  repeat' (first | split at eq_ | dsimp only at eq_)
  all_goals (first | (injection eq_ with eq_; subst eq_) | (cases eq_))
  repeat' (first
    | with_reducible assumption
    | with_reducible apply pressIssue_keeps
    | with_reducible apply viewOf_keeps
    | with_reducible apply discardStale_keeps
    | with_reducible refine keeps_ite ?_ ?_
    | with_reducible apply keepsParts_of
    | simp only [keeps_mk]
    | intro _
    | split
    | dsimp only [id])

end Sys2Proof.Machine
end

