-- ==== Sys2Proof/Laws/KeepsRegs.lean ====
section
/-!
SUPPORT. What the operations of Sys2Proof/Machine/Regs.lean keep: the queue, the agreement of the TMR copies, and the canonical
form of the memories (Safety).
-/

namespace Sys2Proof.Machine

theorem tmrCount_keeps {s0 : State} {differ : Bool} {s : State}  (hk : Keeps s0 s) :
    Keeps s0 (tmrCount differ s) := by
  unfold tmrCount
  repeat' (first
    | with_reducible assumption
    | with_reducible apply noteErr_keeps
    | with_reducible refine keeps_ite ?_ ?_
    | with_reducible apply keepsParts_of
    | simp only [keeps_mk]
    | intro _
    | split
    | dsimp only [id])

theorem tmrFixed_keeps {s0 : State} {reg : Nat} {copy : Nat} {v : Word} {s : State}  (hk : Keeps s0 s) :
    Keeps s0 (tmrFixed reg copy v s) := by
  unfold tmrFixed
  repeat' (first
    | with_reducible assumption
    | with_reducible exact .inl rfl
    | with_reducible exact .inr (tmrAll_agree _)
    | with_reducible apply tmrCount_keeps
    | with_reducible refine keeps_ite ?_ ?_
    | with_reducible apply keepsParts_of
    | simp only [keeps_mk]
    | with_reducible exact id
    | with_reducible exact (fun _ => Mem.nil_wf)
    | with_reducible exact (all_nil_keeps (p := Saved.memOk))
    | with_reducible exact (all_nil_keeps (p := Cluster.memOk))
    | (with_reducible refine keepsParts_tmr ?_ ?_ ?_ ?_ ?_ ?_ ?_ ?_)
    | exact .inr rfl
    | exact .inl rfl
    | exact .inr (tmrAll_agree _)
    | intro _
    | split
    | dsimp only [id])

theorem execTmrFix_keeps {s0 : State} {reg : BitVec 2} {copy : BitVec 2} {v : Word} {s : State}  {tt : State} (hk : Keeps s0 s) (eq_ : execTmrFix reg copy v s = .next tt) : Keeps s0 tt := by
  unfold execTmrFix at eq_
  repeat' (first | split at eq_ | dsimp only at eq_)
  all_goals (first | (injection eq_ with eq_; subst eq_) | (cases eq_))
  repeat' (first
    | with_reducible assumption
    | with_reducible apply tmrFixed_keeps
    | with_reducible refine keeps_ite ?_ ?_
    | with_reducible apply keepsParts_of
    | simp only [keeps_mk]
    | intro _
    | split
    | dsimp only [id])

theorem rcReg_keeps_of {s0 : State} {s : State} {off : Nat}  {tt : State} {c0 : _} {c1 : _} (eq_ : rcReg s off = some (c0, c1, tt)) (hk : Keeps s0 s) : Keeps s0 tt := by
  unfold rcReg at eq_
  repeat' (first | split at eq_ | dsimp only at eq_)
  all_goals (first | (cases eq_; done) | (cases eq_) | skip)
  repeat' (first
    | with_reducible assumption
    | with_reducible apply clusterUpd_keeps
    | with_reducible apply cluster_keeps
    | with_reducible refine keeps_ite ?_ ?_
    | with_reducible apply keepsParts_of
    | simp only [keeps_mk]
    | with_reducible apply memOk_ite
    | with_reducible apply memParts_of
    | simp only [memOk_mk]
    | with_reducible refine memParts_mk ?_ ?_ ?_
    | exact Mem.nil_wf
    | intro _
    | split
    | dsimp only [id])

theorem plainRead_keeps {s0 : State} {fn : FnId} {off : Nat} {s : State} (hk : Keeps s0 s) :
    Keeps s0 (plainRead fn off s) := by
  unfold plainRead
  repeat' (first
    | with_reducible assumption
    | with_reducible apply emit_keeps
    | with_reducible refine keeps_ite ?_ ?_
    | with_reducible apply keepsParts_of
    | simp only [keeps_mk]
    | intro _
    | split
    | dsimp only [id])

theorem rcRead_keeps {s0 : State} {fn : FnId} {off : Nat} {s : State} (hk : Keeps s0 s) :
    Keeps s0 (rcRead fn off s) := by
  unfold rcRead
  repeat' (first
    | with_reducible assumption
    | with_reducible apply plainRead_keeps
    | with_reducible apply emit_keeps
    | (with_reducible apply rcReg_keeps_of (by assumption))
    | with_reducible refine keeps_ite ?_ ?_
    | with_reducible apply keepsParts_of
    | simp only [keeps_mk]
    | intro _
    | split
    | dsimp only [id])

theorem execRcRead_keeps {s0 : State} {fn : FnId} {off : Nat} {s : State}  {tt : State} (hk : Keeps s0 s) (eq_ : execRcRead fn off s = .next tt) : Keeps s0 tt := by
  unfold execRcRead at eq_
  repeat' (first | split at eq_ | dsimp only at eq_)
  all_goals (first | (injection eq_ with eq_; subst eq_) | (cases eq_))
  repeat' (first
    | with_reducible assumption
    | with_reducible apply rcRead_keeps
    | with_reducible refine keeps_ite ?_ ?_
    | with_reducible apply keepsParts_of
    | simp only [keeps_mk]
    | intro _
    | split
    | dsimp only [id])

theorem readLo_keeps {s0 : State} {fn : FnId} {off : Nat} {x : Bool × Bool × Nat} {s : State} (hk : Keeps s0 s) :
    Keeps s0 (readLo fn off x s) := by
  unfold readLo
  repeat' (first
    | with_reducible assumption
    | with_reducible apply emit_keeps
    | with_reducible refine keeps_ite ?_ ?_
    | with_reducible apply keepsParts_of
    | simp only [keeps_mk]
    | intro _
    | split
    | dsimp only [id])

theorem readHi_keeps {s0 : State} {fn : FnId} {off : Nat} {x : Bool × Bool × Nat} {s : State} (hk : Keeps s0 s) :
    Keeps s0 (readHi fn off x s) := by
  unfold readHi
  repeat' (first
    | with_reducible assumption
    | with_reducible apply emit_keeps
    | with_reducible refine keeps_ite ?_ ?_
    | with_reducible apply keepsParts_of
    | simp only [keeps_mk]
    | intro _
    | split
    | dsimp only [id])

theorem pairRead_keeps {s0 : State} {fn : FnId} {off : Nat} {s : State} (hk : Keeps s0 s) :
    Keeps s0 (pairRead fn off s) := by
  unfold pairRead
  repeat' (first
    | with_reducible assumption
    | with_reducible apply readHi_keeps
    | with_reducible apply readLo_keeps
    | with_reducible apply plainRead_keeps
    | with_reducible refine keeps_ite ?_ ?_
    | with_reducible apply keepsParts_of
    | simp only [keeps_mk]
    | intro _
    | split
    | dsimp only [id])

theorem execLoReadCapture_keeps {s0 : State} {fn : FnId} {off : Nat} {s : State}  {tt : State} (hk : Keeps s0 s) (eq_ : execLoReadCapture fn off s = .next tt) : Keeps s0 tt := by
  unfold execLoReadCapture at eq_
  repeat' (first | split at eq_ | dsimp only at eq_)
  all_goals (first | (injection eq_ with eq_; subst eq_) | (cases eq_))
  repeat' (first
    | with_reducible assumption
    | with_reducible apply pairRead_keeps
    | with_reducible refine keeps_ite ?_ ?_
    | with_reducible apply keepsParts_of
    | simp only [keeps_mk]
    | intro _
    | split
    | dsimp only [id])

theorem accessRefused_keeps {s0 : State} {a : Access} {s : State} (hk : Keeps s0 s) :
    Keeps s0 (accessRefused a s) := by
  unfold accessRefused
  repeat' (first
    | with_reducible assumption
    | with_reducible apply noteErr_keeps
    | with_reducible apply emit_keeps
    | with_reducible refine keeps_ite ?_ ?_
    | with_reducible apply keepsParts_of
    | simp only [keeps_mk]
    | intro _
    | split
    | dsimp only [id])

theorem execRegisterAccessRefused_keeps {s0 : State} {a : Access} {s : State}  {tt : State} (hk : Keeps s0 s) (eq_ : execRegisterAccessRefused a s = .next tt) : Keeps s0 tt := by
  unfold execRegisterAccessRefused at eq_
  repeat' (first | split at eq_ | dsimp only at eq_)
  all_goals (first | (injection eq_ with eq_; subst eq_) | (cases eq_))
  repeat' (first
    | with_reducible assumption
    | with_reducible apply accessRefused_keeps
    | with_reducible refine keeps_ite ?_ ?_
    | with_reducible apply keepsParts_of
    | simp only [keeps_mk]
    | intro _
    | split
    | dsimp only [id])

theorem putForme_keeps {s0 : State} {o : Nat} {v : Word} {s : State}  (hk : Keeps s0 s) :
    Keeps s0 (putForme o v s) := by
  unfold putForme
  repeat' (first
    | with_reducible assumption
    | with_reducible refine keeps_ite ?_ ?_
    | with_reducible apply keepsParts_of
    | simp only [keeps_mk]
    | intro _
    | split
    | dsimp only [id])

theorem putSched_keeps {s0 : State} {o : Nat} {v : Word} {s : State}  (hk : Keeps s0 s) :
    Keeps s0 (putSched o v s) := by
  unfold putSched
  repeat' (first
    | with_reducible assumption
    | with_reducible refine keeps_ite ?_ ?_
    | with_reducible apply keepsParts_of
    | simp only [keeps_mk]
    | intro _
    | split
    | dsimp only [id])

theorem putPair_keeps {s0 : State} {o : Nat} {v : Word} {s : State}  (hk : Keeps s0 s) :
    Keeps s0 (putPair o v s) := by
  unfold putPair
  repeat' (first
    | with_reducible assumption
    | with_reducible refine keeps_ite ?_ ?_
    | with_reducible apply keepsParts_of
    | simp only [keeps_mk]
    | intro _
    | split
    | dsimp only [id])

theorem putTier_keeps {s0 : State} {o : Nat} {v : Word} {s : State}  (hk : Keeps s0 s) :
    Keeps s0 (putTier o v s) := by
  unfold putTier
  repeat' (first
    | with_reducible assumption
    | with_reducible refine keeps_ite ?_ ?_
    | with_reducible apply keepsParts_of
    | simp only [keeps_mk]
    | intro _
    | split
    | dsimp only [id])

theorem putRma_keeps {s0 : State} {o : Nat} {v : Word} {s : State}  (hk : Keeps s0 s) :
    Keeps s0 (putRma o v s) := by
  unfold putRma
  repeat' (first
    | with_reducible assumption
    | with_reducible refine keeps_ite ?_ ?_
    | with_reducible apply keepsParts_of
    | simp only [keeps_mk]
    | intro _
    | split
    | dsimp only [id])

theorem stageSlot_keeps {s0 : State} {f : ShapeSlot → ShapeSlot} {s : State}  (hk : Keeps s0 s) :
    Keeps s0 (stageSlot f s) := by
  unfold stageSlot
  repeat' (first
    | with_reducible assumption
    | with_reducible refine keeps_ite ?_ ?_
    | with_reducible apply keepsParts_of
    | simp only [keeps_mk]
    | intro _
    | split
    | dsimp only [id])

theorem putTel_keeps {s0 : State} {d : Nat} {o : Nat} {v : Word} {s : State}  (hk : Keeps s0 s) :
    Keeps s0 (putTel d o v s) := by
  unfold putTel
  repeat' (first
    | with_reducible assumption
    | with_reducible refine keeps_ite ?_ ?_
    | with_reducible apply keepsParts_of
    | simp only [keeps_mk]
    | intro _
    | split
    | dsimp only [id])

theorem putShaper_keeps {s0 : State} {o : Nat} {v : Word} {s : State}  (hk : Keeps s0 s) :
    Keeps s0 (putShaper o v s) := by
  unfold putShaper
  repeat' (first
    | with_reducible assumption
    | with_reducible apply stageSlot_keeps
    | with_reducible apply putTel_keeps
    | with_reducible refine keeps_ite ?_ ?_
    | with_reducible apply keepsParts_of
    | simp only [keeps_mk]
    | intro _
    | split
    | dsimp only [id])

theorem putCodec_keeps {s0 : State} {o : Nat} {v : Word} {s : State}  (hk : Keeps s0 s) :
    Keeps s0 (putCodec o v s) := by
  unfold putCodec
  repeat' (first
    | with_reducible assumption
    | with_reducible refine keeps_ite ?_ ?_
    | with_reducible apply keepsParts_of
    | simp only [keeps_mk]
    | intro _
    | split
    | dsimp only [id])

theorem putRepro_keeps {s0 : State} {o : Nat} {v : Word} {s : State}  (hk : Keeps s0 s) :
    Keeps s0 (putRepro o v s) := by
  unfold putRepro
  repeat' (first
    | with_reducible assumption
    | with_reducible refine keeps_ite ?_ ?_
    | with_reducible apply keepsParts_of
    | simp only [keeps_mk]
    | intro _
    | split
    | dsimp only [id])

theorem putSec_keeps {s0 : State} {o : Nat} {v : Word} {s : State}  (hk : Keeps s0 s) :
    Keeps s0 (putSec o v s) := by
  unfold putSec
  repeat' (first
    | with_reducible assumption
    | with_reducible refine keeps_ite ?_ ?_
    | with_reducible apply keepsParts_of
    | simp only [keeps_mk]
    | intro _
    | split
    | dsimp only [id])

theorem putPf_keeps {s0 : State} {off : Nat} {v : Word} {s : State} (hk : Keeps s0 s) :
    Keeps s0 (putPf off v s) := by
  unfold putPf
  repeat' (first
    | with_reducible assumption
    | with_reducible apply putSec_keeps
    | with_reducible apply putRepro_keeps
    | with_reducible apply putCodec_keeps
    | with_reducible apply putShaper_keeps
    | with_reducible apply putRma_keeps
    | with_reducible apply putTier_keeps
    | with_reducible apply putPair_keeps
    | with_reducible apply putSched_keeps
    | with_reducible apply putForme_keeps
    | with_reducible refine keeps_ite ?_ ?_
    | with_reducible apply keepsParts_of
    | simp only [keeps_mk]
    | intro _
    | split
    | dsimp only [id])

theorem hostifWrite_keeps {s0 : State} {fn : FnId} {o : Nat} {v : Word} {s : State}  (hk : Keeps s0 s) :
    Keeps s0 (hostifWrite fn o v s) := by
  unfold hostifWrite
  repeat' (first
    | with_reducible assumption
    | with_reducible apply tdiError_keeps
    | with_reducible apply fnUpd_keeps
    | with_reducible refine keeps_ite ?_ ?_
    | with_reducible apply keepsParts_of
    | simp only [keeps_mk]
    | intro _
    | split
    | dsimp only [id])

theorem registerWrite_keeps {s0 : State} {fn : FnId} {off : Nat} {v : Word} {s : State}  (hk : Keeps s0 s) :
    Keeps s0 (registerWrite fn off v s) := by
  unfold registerWrite
  repeat' (first
    | with_reducible assumption
    | with_reducible apply hostifWrite_keeps
    | with_reducible apply putPf_keeps
    | with_reducible refine keeps_ite ?_ ?_
    | with_reducible apply keepsParts_of
    | simp only [keeps_mk]
    | intro _
    | split
    | dsimp only [id])

theorem execRegisterWrite_keeps {s0 : State} {fn : FnId} {off : Nat} {v : Word} {s : State}  {tt : State} (hk : Keeps s0 s) (eq_ : execRegisterWrite fn off v s = .next tt) : Keeps s0 tt := by
  unfold execRegisterWrite at eq_
  repeat' (first | split at eq_ | dsimp only at eq_)
  all_goals (first | (injection eq_ with eq_; subst eq_) | (cases eq_))
  repeat' (first
    | with_reducible assumption
    | with_reducible apply registerWrite_keeps
    | with_reducible refine keeps_ite ?_ ?_
    | with_reducible apply keepsParts_of
    | simp only [keeps_mk]
    | intro _
    | split
    | dsimp only [id])

end Sys2Proof.Machine
end

