-- ==== Sys2Proof/Laws/KeepsRepro.lean ====
section
/-!
SUPPORT. What the operations of Sys2Proof/Machine/Repro.lean keep: the queue, the agreement of the TMR copies, and the canonical
form of the memories (Safety).
-/

namespace Sys2Proof.Machine

theorem sendTime_keeps {s0 : State} {s : State} {n : Nat} (hk : Keeps s0 s) :
    Keeps s0 (sendTime s n) := by
  unfold sendTime
  repeat' (first
    | with_reducible assumption
    | with_reducible apply pushPacket_keeps
    | with_reducible refine keeps_ite ?_ ?_
    | with_reducible apply keepsParts_of
    | simp only [keeps_mk]
    | intro _
    | split
    | dsimp only [id])

theorem timeTimer_keeps {s0 : State} {s : State}  (hk : Keeps s0 s) :
    Keeps s0 (timeTimer s) := by
  unfold timeTimer
  repeat' (first
    | with_reducible assumption
    | with_reducible apply foldl_keeps
    | with_reducible apply foldl_keeps_fst
    | with_reducible apply foldl_keeps_snd
    | with_reducible apply sendTime_keeps
    | with_reducible refine keeps_ite ?_ ?_
    | with_reducible apply keepsParts_of
    | simp only [keeps_mk]
    | intro _
    | split
    | dsimp only [id])

theorem execTimeExchangeTimer_keeps {s0 : State} {s : State}  {tt : State} (hk : Keeps s0 s) (eq_ : execTimeExchangeTimer s = .next tt) : Keeps s0 tt := by
  unfold execTimeExchangeTimer at eq_
  repeat' (first | split at eq_ | dsimp only at eq_)
  all_goals (first | (injection eq_ with eq_; subst eq_) | (cases eq_))
  repeat' (first
    | with_reducible assumption
    | with_reducible apply timeTimer_keeps
    | with_reducible refine keeps_ite ?_ ?_
    | with_reducible apply keepsParts_of
    | simp only [keeps_mk]
    | intro _
    | split
    | dsimp only [id])

theorem execAlignmentLoss_keeps {s0 : State} {s : State}  {tt : State} (hk : Keeps s0 s) (eq_ : execAlignmentLoss s = .next tt) : Keeps s0 tt := by
  unfold execAlignmentLoss at eq_
  repeat' (first | split at eq_ | dsimp only at eq_)
  all_goals (first | (injection eq_ with eq_; subst eq_) | (cases eq_))
  repeat' (first
    | with_reducible assumption
    | with_reducible apply noteErr_keeps
    | with_reducible refine keeps_ite ?_ ?_
    | with_reducible apply keepsParts_of
    | simp only [keeps_mk]
    | intro _
    | split
    | dsimp only [id])

theorem podUpd_keeps {s0 : State} {id : Nat} {f : PodBarrier → PodBarrier} {s : State}  (hk : Keeps s0 s) :
    Keeps s0 (podUpd id f s) := by
  unfold podUpd
  repeat' (first
    | with_reducible assumption
    | with_reducible refine keeps_ite ?_ ?_
    | with_reducible apply keepsParts_of
    | simp only [keeps_mk]
    | intro _
    | split
    | dsimp only [id])

theorem podComplete_keeps {s0 : State} {id : Nat} {s : State}  (hk : Keeps s0 s) :
    Keeps s0 (podComplete id s) := by
  unfold podComplete
  repeat' (first
    | with_reducible assumption
    | with_reducible apply sendRelease_keeps
    | with_reducible apply podNext_keeps
    | with_reducible apply podUpd_keeps
    | with_reducible refine keeps_ite ?_ ?_
    | with_reducible apply keepsParts_of
    | simp only [keeps_mk]
    | intro _
    | split
    | dsimp only [id])

theorem podArrival_keeps {s0 : State} {d : DevId} {id : Nat} {inst : Nat} {s : State}  (hk : Keeps s0 s) :
    Keeps s0 (podArrival d id inst s) := by
  unfold podArrival
  repeat' (first
    | with_reducible assumption
    | with_reducible apply podComplete_keeps
    | with_reducible apply podUpd_keeps
    | with_reducible refine keeps_ite ?_ ?_
    | with_reducible apply keepsParts_of
    | simp only [keeps_mk]
    | intro _
    | split
    | dsimp only [id])

theorem execArrive_keeps {s0 : State} {d : DevId} {id : Byte} {inst : Nat} {s : State}  {tt : State} (hk : Keeps s0 s) (eq_ : execArrive d id inst s = .next tt) : Keeps s0 tt := by
  unfold execArrive at eq_
  repeat' (first | split at eq_ | dsimp only at eq_)
  all_goals (first | (injection eq_ with eq_; subst eq_) | (cases eq_))
  repeat' (first
    | with_reducible assumption
    | with_reducible apply podArrival_keeps
    | with_reducible refine keeps_ite ?_ ?_
    | with_reducible apply keepsParts_of
    | simp only [keeps_mk]
    | intro _
    | split
    | dsimp only [id])

theorem podRelease_keeps {s0 : State} {id : Nat} {b : PodBarrier} {s : State}  (hk : Keeps s0 s) :
    Keeps s0 (podRelease id b s) := by
  unfold podRelease
  repeat' (first
    | with_reducible assumption
    | with_reducible apply getD_keeps
    | with_reducible apply releaseBarrier_keeps
    | with_reducible apply podComplete_keeps
    | with_reducible apply podNext_keeps
    | with_reducible refine keeps_ite ?_ ?_
    | with_reducible apply keepsParts_of
    | simp only [keeps_mk]
    | intro _
    | split
    | dsimp only [id])

theorem podReleased_keeps {s0 : State} {id : Nat} {inst : Nat} {tick : DWord} {c : Status} {s : State}  (hk : Keeps s0 s) :
    Keeps s0 (podReleased id inst tick c s) := by
  unfold podReleased
  repeat' (first
    | with_reducible assumption
    | with_reducible apply podRelease_keeps
    | with_reducible apply podFails_keeps
    | with_reducible apply podUpd_keeps
    | with_reducible refine keeps_ite ?_ ?_
    | with_reducible apply keepsParts_of
    | simp only [keeps_mk]
    | intro _
    | split
    | dsimp only [id])

theorem execRelease_keeps {s0 : State} {id : Byte} {inst : Nat} {tick : DWord} {c : Status} {s : State}  {tt : State} (hk : Keeps s0 s) (eq_ : execRelease id inst tick c s = .next tt) : Keeps s0 tt := by
  unfold execRelease at eq_
  repeat' (first | split at eq_ | dsimp only at eq_)
  all_goals (first | (injection eq_ with eq_; subst eq_) | (cases eq_))
  repeat' (first
    | with_reducible assumption
    | with_reducible apply podReleased_keeps
    | with_reducible refine keeps_ite ?_ ?_
    | with_reducible apply keepsParts_of
    | simp only [keeps_mk]
    | intro _
    | split
    | dsimp only [id])

theorem execPodBarrierReleaseTick_keeps {s0 : State} {id : Byte} {inst : Nat} {s : State}  {tt : State} (hk : Keeps s0 s) (eq_ : execPodBarrierReleaseTick id inst s = .next tt) : Keeps s0 tt := by
  unfold execPodBarrierReleaseTick at eq_
  repeat' (first | split at eq_ | dsimp only at eq_)
  all_goals (first | (injection eq_ with eq_; subst eq_) | (cases eq_))
  repeat' (first
    | with_reducible assumption
    | with_reducible apply podRelease_keeps
    | with_reducible refine keeps_ite ?_ ?_
    | with_reducible apply keepsParts_of
    | simp only [keeps_mk]
    | intro _
    | split
    | dsimp only [id])

theorem traceSetting_keeps {s0 : State} {w : CtlWrite} {s : State}  (hk : Keeps s0 s) :
    Keeps s0 (traceSetting w s) := by
  unfold traceSetting
  repeat' (first
    | with_reducible assumption
    | with_reducible refine keeps_ite ?_ ?_
    | with_reducible apply keepsParts_of
    | simp only [keeps_mk]
    | with_reducible apply memOk_ite
    | with_reducible apply memParts_of
    | simp only [memOk_mk]
    | with_reducible refine memParts_mk ?_ ?_ ?_
    | exact Mem.nil_wf
    | (with_reducible refine keepsParts_mem ?_ ?_ ?_ ?_ ?_)
    | with_reducible exact id
    | with_reducible exact Mem.store_wf _ _ _
    | with_reducible exact Mem.clear_wf _ _ _
    | with_reducible exact foldl_clear_wf
    | with_reducible exact (fun _ => Mem.nil_wf)
    | with_reducible exact (all_nil_keeps (p := Saved.memOk))
    | with_reducible exact (all_filter_keeps (p := Saved.memOk))
    | with_reducible exact (all_nil_keeps (p := Cluster.memOk))
    | with_reducible apply all_map_keeps
    | intro _
    | split
    | dsimp only [id])

theorem reproCtl_keeps {s0 : State} {w : CtlWrite} {own : Nat} {run : State → State} {s : State} (h_run : ∀ (u : State), Keeps s0 u → Keeps s0 (run u)) (hk : Keeps s0 s) :
    Keeps s0 (reproCtl w own run s) := by
  unfold reproCtl
  repeat' (first
    | with_reducible assumption
    | with_reducible apply traceSetting_keeps
    | with_reducible apply ctl_keeps
    | with_reducible apply h_run
    | with_reducible refine keeps_ite ?_ ?_
    | with_reducible apply keepsParts_of
    | simp only [keeps_mk]
    | intro _
    | split
    | dsimp only [id])

theorem execTrace_keeps {s0 : State} {w : CtlWrite} {s : State}  {tt : State} (hk : Keeps s0 s) (eq_ : execTrace w s = .next tt) : Keeps s0 tt := by
  unfold execTrace at eq_
  repeat' (first | split at eq_ | dsimp only at eq_)
  all_goals (first | (injection eq_ with eq_; subst eq_) | (cases eq_))
  repeat' (first
    | with_reducible assumption
    | with_reducible apply reproCtl_keeps
    | with_reducible refine keeps_ite ?_ ?_
    | with_reducible apply keepsParts_of
    | simp only [keeps_mk]
    | intro _
    | split
    | dsimp only [id])

theorem execReproClr_keeps {s0 : State} {w : CtlWrite} {s : State}  {tt : State} (hk : Keeps s0 s) (eq_ : execReproClr w s = .next tt) : Keeps s0 tt := by
  unfold execReproClr at eq_
  repeat' (first | split at eq_ | dsimp only at eq_)
  all_goals (first | (injection eq_ with eq_; subst eq_) | (cases eq_))
  repeat' (first
    | with_reducible assumption
    | with_reducible apply reproCtl_keeps
    | with_reducible refine keeps_ite ?_ ?_
    | with_reducible apply keepsParts_of
    | simp only [keeps_mk]
    | intro _
    | split
    | dsimp only [id])

end Sys2Proof.Machine
end

