-- ==== Sys2Proof/Laws/KeepsRma.lean ====
section
/-!
SUPPORT. What the operations of Sys2Proof/Machine/Rma.lean keep: the queue, the agreement of the TMR copies, and the canonical
form of the memories (Safety).
-/

namespace Sys2Proof.Machine

theorem wrFails_keeps {s0 : State} {q : Nat} {w : WorkReq} {c : Status} {s : State} (hk : Keeps s0 s) :
    Keeps s0 (wrFails q w c s) := by
  unfold wrFails
  repeat' (first
    | with_reducible assumption
    | with_reducible apply qpError_keeps
    | with_reducible apply qpUpd_keeps
    | with_reducible refine keeps_ite ?_ ?_
    | with_reducible apply keepsParts_of
    | simp only [keeps_mk]
    | intro _
    | split
    | dsimp only [id])

theorem wrTake_keeps {s0 : State} {op : Nat} {c : WrCmd} {run : Qp → State → State} {s : State} (h_run : ∀ (y0 : Qp) (u : State), Keeps s0 u → Keeps s0 (run y0 u)) (hk : Keeps s0 s) :
    Keeps s0 (wrTake op c run s) := by
  unfold wrTake
  repeat' (first
    | with_reducible assumption
    | with_reducible apply fetchStart_keeps
    | with_reducible apply qpUpd_keeps
    | with_reducible apply h_run
    | with_reducible refine keeps_ite ?_ ?_
    | with_reducible apply keepsParts_of
    | simp only [keeps_mk]
    | intro _
    | split
    | dsimp only [id])

theorem wrBytes_keeps {s0 : State} {c : WrCmd} {s : State} (hk : Keeps s0 s) :
    Keeps s0 (wrBytes c s).2.2 := by
  unfold wrBytes
  repeat' (first
    | with_reducible assumption
    | with_reducible apply regionRead_keeps
    | with_reducible apply readOutcome_keeps
    | (with_reducible apply regionRead_keeps_of (by assumption))
    | (with_reducible apply readOutcome_keeps_of (by assumption))
    | with_reducible refine keeps_ite ?_ ?_
    | with_reducible apply keepsParts_of
    | simp only [keeps_mk]
    | intro _
    | split
    | dsimp only [id])

theorem wrBytes_keeps_of {s0 : State} {c : WrCmd} {s : State} {tt : State} {c0 : _} {c1 : _} (eq_ : wrBytes c s = (c0, c1, tt)) (hk : Keeps s0 s) : Keeps s0 tt := by
  have := wrBytes_keeps (s0 := s0) (c := c) (s := s) hk
  rw [eq_] at this; exact this

theorem wrData_keeps {s0 : State} {c : WrCmd} {x : Qp} {s : State} (hk : Keeps s0 s) :
    Keeps s0 (wrData c x s) := by
  unfold wrData
  repeat' (first
    | with_reducible assumption
    | with_reducible apply wrHold_keeps
    | with_reducible apply qpSend_keeps
    | with_reducible apply qpFlush_keeps
    | with_reducible apply qpUpd_keeps
    | with_reducible apply wrBytes_keeps
    | with_reducible apply wrFails_keeps
    | (with_reducible apply wrBytes_keeps_of (by assumption))
    | with_reducible refine keeps_ite ?_ ?_
    | with_reducible apply keepsParts_of
    | simp only [keeps_mk]
    | intro _
    | split
    | dsimp only [id])

theorem execWriteWr_keeps {s0 : State} {c : WrCmd} {s : State}  {tt : State} (hk : Keeps s0 s) (eq_ : execWriteWr c s = .next tt) : Keeps s0 tt := by
  unfold execWriteWr at eq_
  repeat' (first | split at eq_ | dsimp only at eq_)
  all_goals (first | (injection eq_ with eq_; subst eq_) | (cases eq_))
  repeat' (first
    | with_reducible assumption
    | with_reducible apply wrTake_keeps
    | with_reducible apply wrData_keeps
    | with_reducible refine keeps_ite ?_ ?_
    | with_reducible apply keepsParts_of
    | simp only [keeps_mk]
    | intro _
    | split
    | dsimp only [id])

theorem execReadWr_keeps {s0 : State} {c : WrCmd} {s : State}  {tt : State} (hk : Keeps s0 s) (eq_ : execReadWr c s = .next tt) : Keeps s0 tt := by
  unfold execReadWr at eq_
  repeat' (first | split at eq_ | dsimp only at eq_)
  all_goals (first | (injection eq_ with eq_; subst eq_) | (cases eq_))
  repeat' (first
    | with_reducible assumption
    | with_reducible apply wrTake_keeps
    | with_reducible apply wrData_keeps
    | with_reducible refine keeps_ite ?_ ?_
    | with_reducible apply keepsParts_of
    | simp only [keeps_mk]
    | intro _
    | split
    | dsimp only [id])

theorem execAtomicWr_keeps {s0 : State} {c : WrCmd} {s : State}  {tt : State} (hk : Keeps s0 s) (eq_ : execAtomicWr c s = .next tt) : Keeps s0 tt := by
  unfold execAtomicWr at eq_
  repeat' (first | split at eq_ | dsimp only at eq_)
  all_goals (first | (injection eq_ with eq_; subst eq_) | (cases eq_))
  repeat' (first
    | with_reducible assumption
    | with_reducible apply wrTake_keeps
    | with_reducible apply wrData_keeps
    | with_reducible refine keeps_ite ?_ ?_
    | with_reducible apply keepsParts_of
    | simp only [keeps_mk]
    | intro _
    | split
    | dsimp only [id])

theorem execSendWr_keeps {s0 : State} {c : WrCmd} {s : State}  {tt : State} (hk : Keeps s0 s) (eq_ : execSendWr c s = .next tt) : Keeps s0 tt := by
  unfold execSendWr at eq_
  repeat' (first | split at eq_ | dsimp only at eq_)
  all_goals (first | (injection eq_ with eq_; subst eq_) | (cases eq_))
  repeat' (first
    | with_reducible assumption
    | with_reducible apply wrTake_keeps
    | with_reducible apply wrData_keeps
    | with_reducible refine keeps_ite ?_ ?_
    | with_reducible apply keepsParts_of
    | simp only [keeps_mk]
    | intro _
    | split
    | dsimp only [id])

theorem ctlDone_keeps {s0 : State} {q : Nat} {w : WorkReq} {c : Status} {v : Nat} {s : State} (hk : Keeps s0 s) :
    Keeps s0 (ctlDone q w c v s) := by
  unfold ctlDone
  repeat' (first
    | with_reducible assumption
    | with_reducible apply qpFlush_keeps
    | with_reducible apply qpUpd_keeps
    | with_reducible refine keeps_ite ?_ ?_
    | with_reducible apply keepsParts_of
    | simp only [keeps_mk]
    | intro _
    | split
    | dsimp only [id])

theorem ctlWr_keeps {s0 : State} {op : Nat} {keep : List Nat} {c : WrCmd} {run : Qp → State → State} {s : State} (h_run : ∀ (y0 : Qp) (u : State), Keeps s0 u → Keeps s0 (run y0 u)) (hk : Keeps s0 s) :
    Keeps s0 (ctlWr op keep c run s) := by
  unfold ctlWr
  repeat' (first
    | with_reducible assumption
    | with_reducible apply wrTake_keeps
    | with_reducible apply wrFails_keeps
    | with_reducible apply h_run
    | with_reducible refine keeps_ite ?_ ?_
    | with_reducible apply keepsParts_of
    | simp only [keeps_mk]
    | intro _
    | split
    | dsimp only [id])

theorem pdAlloc_keeps {s0 : State} {c : WrCmd} {x : Qp} {s : State}  (hk : Keeps s0 s) :
    Keeps s0 (pdAlloc c x s) := by
  unfold pdAlloc
  repeat' (first
    | with_reducible assumption
    | with_reducible apply ctlDone_keeps
    | with_reducible refine keeps_ite ?_ ?_
    | with_reducible apply keepsParts_of
    | simp only [keeps_mk]
    | intro _
    | split
    | dsimp only [id])

theorem execPdAlloc_keeps {s0 : State} {c : WrCmd} {s : State}  {tt : State} (hk : Keeps s0 s) (eq_ : execPdAlloc c s = .next tt) : Keeps s0 tt := by
  unfold execPdAlloc at eq_
  repeat' (first | split at eq_ | dsimp only at eq_)
  all_goals (first | (injection eq_ with eq_; subst eq_) | (cases eq_))
  repeat' (first
    | with_reducible assumption
    | with_reducible apply pdAlloc_keeps
    | with_reducible apply ctlWr_keeps
    | with_reducible refine keeps_ite ?_ ?_
    | with_reducible apply keepsParts_of
    | simp only [keeps_mk]
    | intro _
    | split
    | dsimp only [id])

theorem pdFree_keeps {s0 : State} {c : WrCmd} {x : Qp} {s : State}  (hk : Keeps s0 s) :
    Keeps s0 (pdFree c x s) := by
  unfold pdFree
  repeat' (first
    | with_reducible assumption
    | with_reducible apply ctlDone_keeps
    | with_reducible refine keeps_ite ?_ ?_
    | with_reducible apply keepsParts_of
    | simp only [keeps_mk]
    | intro _
    | split
    | dsimp only [id])

theorem execPdFree_keeps {s0 : State} {c : WrCmd} {s : State}  {tt : State} (hk : Keeps s0 s) (eq_ : execPdFree c s = .next tt) : Keeps s0 tt := by
  unfold execPdFree at eq_
  repeat' (first | split at eq_ | dsimp only at eq_)
  all_goals (first | (injection eq_ with eq_; subst eq_) | (cases eq_))
  repeat' (first
    | with_reducible assumption
    | with_reducible apply pdFree_keeps
    | with_reducible apply ctlWr_keeps
    | with_reducible refine keeps_ite ?_ ?_
    | with_reducible apply keepsParts_of
    | simp only [keeps_mk]
    | intro _
    | split
    | dsimp only [id])

theorem qpCreate_keeps {s0 : State} {c : WrCmd} {b : RingBlock} {x : Qp} {s : State} (hk : Keeps s0 s) :
    Keeps s0 (qpCreate c b x s) := by
  unfold qpCreate
  repeat' (first
    | with_reducible assumption
    | with_reducible apply qpMake_keeps
    | with_reducible apply ctlDone_keeps
    | with_reducible apply wrFails_keeps
    | with_reducible refine keeps_ite ?_ ?_
    | with_reducible apply keepsParts_of
    | simp only [keeps_mk]
    | intro _
    | split
    | dsimp only [id])

theorem execQpCreate_keeps {s0 : State} {c : WrCmd} {b : RingBlock} {s : State}  {tt : State} (hk : Keeps s0 s) (eq_ : execQpCreate c b s = .next tt) : Keeps s0 tt := by
  unfold execQpCreate at eq_
  repeat' (first | split at eq_ | dsimp only at eq_)
  all_goals (first | (injection eq_ with eq_; subst eq_) | (cases eq_))
  repeat' (first
    | with_reducible assumption
    | with_reducible apply qpCreate_keeps
    | with_reducible apply ctlWr_keeps
    | with_reducible refine keeps_ite ?_ ?_
    | with_reducible apply keepsParts_of
    | simp only [keeps_mk]
    | intro _
    | split
    | dsimp only [id])

theorem qpDestroy_keeps {s0 : State} {c : WrCmd} {x : Qp} {s : State} (hk : Keeps s0 s) :
    Keeps s0 (qpDestroy c x s) := by
  unfold qpDestroy
  repeat' (first
    | with_reducible assumption
    | with_reducible apply ctlDone_keeps
    | with_reducible refine keeps_ite ?_ ?_
    | with_reducible apply keepsParts_of
    | simp only [keeps_mk]
    | intro _
    | split
    | dsimp only [id])

theorem execQpDestroy_keeps {s0 : State} {c : WrCmd} {s : State}  {tt : State} (hk : Keeps s0 s) (eq_ : execQpDestroy c s = .next tt) : Keeps s0 tt := by
  unfold execQpDestroy at eq_
  repeat' (first | split at eq_ | dsimp only at eq_)
  all_goals (first | (injection eq_ with eq_; subst eq_) | (cases eq_))
  repeat' (first
    | with_reducible assumption
    | with_reducible apply qpDestroy_keeps
    | with_reducible apply ctlWr_keeps
    | with_reducible refine keeps_ite ?_ ?_
    | with_reducible apply keepsParts_of
    | simp only [keeps_mk]
    | intro _
    | split
    | dsimp only [id])

theorem qpReset_keeps {s0 : State} {c : WrCmd} {x : Qp} {s : State}  (hk : Keeps s0 s) :
    Keeps s0 (qpReset c x s) := by
  unfold qpReset
  repeat' (first
    | with_reducible assumption
    | with_reducible apply ctlDone_keeps
    | with_reducible apply qpRearm_keeps
    | with_reducible refine keeps_ite ?_ ?_
    | with_reducible apply keepsParts_of
    | simp only [keeps_mk]
    | intro _
    | split
    | dsimp only [id])

theorem execQpReset_keeps {s0 : State} {c : WrCmd} {s : State}  {tt : State} (hk : Keeps s0 s) (eq_ : execQpReset c s = .next tt) : Keeps s0 tt := by
  unfold execQpReset at eq_
  repeat' (first | split at eq_ | dsimp only at eq_)
  all_goals (first | (injection eq_ with eq_; subst eq_) | (cases eq_))
  repeat' (first
    | with_reducible assumption
    | with_reducible apply qpReset_keeps
    | with_reducible apply ctlWr_keeps
    | with_reducible refine keeps_ite ?_ ?_
    | with_reducible apply keepsParts_of
    | simp only [keeps_mk]
    | intro _
    | split
    | dsimp only [id])

theorem takeIndex_keeps_of {s0 : State} {s : State}  {tt : State} {c0 : _} (eq_ : takeIndex s = some (c0, tt)) (hk : Keeps s0 s) : Keeps s0 tt := by
  unfold takeIndex at eq_
  repeat' (first | split at eq_ | dsimp only at eq_)
  all_goals (first | (cases eq_; done) | (cases eq_) | skip)
  repeat' (first
    | with_reducible assumption
    | with_reducible refine keeps_ite ?_ ?_
    | with_reducible apply keepsParts_of
    | simp only [keeps_mk]
    | intro _
    | split
    | dsimp only [id])

theorem regionPut_keeps {s0 : State} {q : Nat} {w : WorkReq} {mk : Byte → Region} {s : State}  (hk : Keeps s0 s) :
    Keeps s0 (regionPut q w mk s) := by
  unfold regionPut
  repeat' (first
    | with_reducible assumption
    | with_reducible apply takeIndex_keeps
    | with_reducible apply ctlDone_keeps
    | (with_reducible apply takeIndex_keeps_of (by assumption))
    | with_reducible refine keeps_ite ?_ ?_
    | with_reducible apply keepsParts_of
    | simp only [keeps_mk]
    | intro _
    | split
    | dsimp only [id])

theorem regHost_keeps {s0 : State} {c : WrCmd} {x : Qp} {s : State} (hk : Keeps s0 s) :
    Keeps s0 (regHost c x s) := by
  unfold regHost
  repeat' (first
    | with_reducible assumption
    | with_reducible apply regionPut_keeps
    | with_reducible apply ctlDone_keeps
    | with_reducible apply wrFails_keeps
    | with_reducible refine keeps_ite ?_ ?_
    | with_reducible apply keepsParts_of
    | simp only [keeps_mk]
    | with_reducible apply memOk_ite
    | with_reducible apply memParts_of
    | simp only [memOk_mk]
    | with_reducible refine memParts_mk ?_ ?_ ?_
    | with_reducible apply memCase
    | with_reducible apply memAcc
    | with_reducible apply memMail
    | with_reducible apply Mem.store_wf
    | with_reducible apply Mem.clear_wf
    | with_reducible apply Mem.filter_wf
    | with_reducible apply Mem.over_wf
    | exact Mem.nil_wf
    | (with_reducible refine keepsParts_mem ?_ ?_ ?_ ?_ ?_)
    | with_reducible exact id
    | with_reducible exact Mem.store_wf _ _ _
    | with_reducible exact Mem.clear_wf _ _ _
    | with_reducible exact foldl_clear_wf
    | with_reducible exact (fun _ => Mem.nil_wf)
    | with_reducible exact (all_nil_keeps (p := Saved.memOk))
    | with_reducible exact (all_filter_keeps (p := Saved.memOk))
    | with_reducible exact (all_nil_keeps (p := Cluster.memOk))
    | with_reducible apply all_map_keeps
    | intro _
    | split
    | dsimp only [id])

theorem regT1_keeps {s0 : State} {c : WrCmd} {s : State} (hk : Keeps s0 s) :
    Keeps s0 (regT1 c s) := by
  unfold regT1
  repeat' (first
    | with_reducible assumption
    | with_reducible apply regionPut_keeps
    | with_reducible apply ctlDone_keeps
    | with_reducible apply wrFails_keeps
    | with_reducible refine keeps_ite ?_ ?_
    | with_reducible apply keepsParts_of
    | simp only [keeps_mk]
    | with_reducible apply memOk_ite
    | with_reducible apply memParts_of
    | simp only [memOk_mk]
    | with_reducible refine memParts_mk ?_ ?_ ?_
    | with_reducible apply memCase
    | with_reducible apply memAcc
    | with_reducible apply memMail
    | with_reducible apply Mem.store_wf
    | with_reducible apply Mem.clear_wf
    | with_reducible apply Mem.filter_wf
    | with_reducible apply Mem.over_wf
    | exact Mem.nil_wf
    | (with_reducible refine keepsParts_mem ?_ ?_ ?_ ?_ ?_)
    | with_reducible exact id
    | with_reducible exact Mem.store_wf _ _ _
    | with_reducible exact Mem.clear_wf _ _ _
    | with_reducible exact foldl_clear_wf
    | with_reducible exact (fun _ => Mem.nil_wf)
    | with_reducible exact (all_nil_keeps (p := Saved.memOk))
    | with_reducible exact (all_filter_keeps (p := Saved.memOk))
    | with_reducible exact (all_nil_keeps (p := Cluster.memOk))
    | with_reducible apply all_map_keeps
    | intro _
    | split
    | dsimp only [id])

theorem execRegRegion_keeps {s0 : State} {c : WrCmd} {s : State}  {tt : State} (hk : Keeps s0 s) (eq_ : execRegRegion c s = .next tt) : Keeps s0 tt := by
  unfold execRegRegion at eq_
  repeat' (first | split at eq_ | dsimp only at eq_)
  all_goals (first | (injection eq_ with eq_; subst eq_) | (cases eq_))
  repeat' (first
    | with_reducible assumption
    | with_reducible apply regHost_keeps
    | with_reducible apply wrTake_keeps
    | with_reducible apply ctlWr_keeps
    | with_reducible apply regT1_keeps
    | with_reducible refine keeps_ite ?_ ?_
    | with_reducible apply keepsParts_of
    | simp only [keeps_mk]
    | intro _
    | split
    | dsimp only [id])

theorem deregRegion_keeps {s0 : State} {c : WrCmd} {x : Qp} {s : State} (hk : Keeps s0 s) :
    Keeps s0 (deregRegion c x s) := by
  unfold deregRegion
  repeat' (first
    | with_reducible assumption
    | with_reducible apply deregRun_keeps
    | with_reducible apply qpUpd_keeps
    | with_reducible apply ctlDone_keeps
    | with_reducible refine keeps_ite ?_ ?_
    | with_reducible apply keepsParts_of
    | simp only [keeps_mk]
    | intro _
    | split
    | dsimp only [id])

theorem execDeregRegion_keeps {s0 : State} {c : WrCmd} {s : State}  {tt : State} (hk : Keeps s0 s) (eq_ : execDeregRegion c s = .next tt) : Keeps s0 tt := by
  unfold execDeregRegion at eq_
  repeat' (first | split at eq_ | dsimp only at eq_)
  all_goals (first | (injection eq_ with eq_; subst eq_) | (cases eq_))
  repeat' (first
    | with_reducible assumption
    | with_reducible apply deregRegion_keeps
    | with_reducible apply ctlWr_keeps
    | with_reducible refine keeps_ite ?_ ?_
    | with_reducible apply keepsParts_of
    | simp only [keeps_mk]
    | intro _
    | split
    | dsimp only [id])

theorem mapPages_keeps {s0 : State} {c : WrCmd} {entries : List DWord} {x : Qp} {s : State} (hk : Keeps s0 s) :
    Keeps s0 (mapPages c entries x s) := by
  unfold mapPages
  repeat' (first
    | with_reducible assumption
    | with_reducible apply foldl_keeps
    | with_reducible apply foldl_keeps_fst
    | with_reducible apply foldl_keeps_snd
    | with_reducible apply pagePresent_keeps
    | with_reducible apply ctlDone_keeps
    | with_reducible apply wrFails_keeps
    | with_reducible refine keeps_ite ?_ ?_
    | with_reducible apply keepsParts_of
    | simp only [keeps_mk]
    | intro _
    | split
    | dsimp only [id])

theorem execMapPages_keeps {s0 : State} {c : WrCmd} {entries : List DWord} {s : State} {tt : State} (hk : Keeps s0 s) (eq_ : execMapPages c entries s = .next tt) : Keeps s0 tt := by
  unfold execMapPages at eq_
  repeat' (first | split at eq_ | dsimp only at eq_)
  all_goals (first | (injection eq_ with eq_; subst eq_) | (cases eq_))
  repeat' (first
    | with_reducible assumption
    | with_reducible apply mapPages_keeps
    | with_reducible apply ctlWr_keeps
    | with_reducible refine keeps_ite ?_ ?_
    | with_reducible apply keepsParts_of
    | simp only [keeps_mk]
    | intro _
    | split
    | dsimp only [id])

theorem execWriteMsg_keeps {s0 : State} {m : PodMsg} {s : State}  {tt : State} (hk : Keeps s0 s) (eq_ : execWriteMsg m s = .next tt) : Keeps s0 tt := by
  unfold execWriteMsg at eq_
  repeat' (first | split at eq_ | dsimp only at eq_)
  all_goals (first | (injection eq_ with eq_; subst eq_) | (cases eq_))
  repeat' (first
    | with_reducible assumption
    | with_reducible apply podTake_keeps
    | with_reducible refine keeps_ite ?_ ?_
    | with_reducible apply keepsParts_of
    | simp only [keeps_mk]
    | intro _
    | split
    | dsimp only [id])

theorem execReadReq_keeps {s0 : State} {m : PodMsg} {s : State}  {tt : State} (hk : Keeps s0 s) (eq_ : execReadReq m s = .next tt) : Keeps s0 tt := by
  unfold execReadReq at eq_
  repeat' (first | split at eq_ | dsimp only at eq_)
  all_goals (first | (injection eq_ with eq_; subst eq_) | (cases eq_))
  repeat' (first
    | with_reducible assumption
    | with_reducible apply podTake_keeps
    | with_reducible refine keeps_ite ?_ ?_
    | with_reducible apply keepsParts_of
    | simp only [keeps_mk]
    | intro _
    | split
    | dsimp only [id])

theorem execReadData_keeps {s0 : State} {m : PodMsg} {s : State}  {tt : State} (hk : Keeps s0 s) (eq_ : execReadData m s = .next tt) : Keeps s0 tt := by
  unfold execReadData at eq_
  repeat' (first | split at eq_ | dsimp only at eq_)
  all_goals (first | (injection eq_ with eq_; subst eq_) | (cases eq_))
  repeat' (first
    | with_reducible assumption
    | with_reducible apply podTake_keeps
    | with_reducible refine keeps_ite ?_ ?_
    | with_reducible apply keepsParts_of
    | simp only [keeps_mk]
    | intro _
    | split
    | dsimp only [id])

theorem execAtomicMsg_keeps {s0 : State} {m : PodMsg} {s : State}  {tt : State} (hk : Keeps s0 s) (eq_ : execAtomicMsg m s = .next tt) : Keeps s0 tt := by
  unfold execAtomicMsg at eq_
  repeat' (first | split at eq_ | dsimp only at eq_)
  all_goals (first | (injection eq_ with eq_; subst eq_) | (cases eq_))
  repeat' (first
    | with_reducible assumption
    | with_reducible apply podTake_keeps
    | with_reducible refine keeps_ite ?_ ?_
    | with_reducible apply keepsParts_of
    | simp only [keeps_mk]
    | intro _
    | split
    | dsimp only [id])

theorem execSendMsg_keeps {s0 : State} {m : PodMsg} {s : State}  {tt : State} (hk : Keeps s0 s) (eq_ : execSendMsg m s = .next tt) : Keeps s0 tt := by
  unfold execSendMsg at eq_
  repeat' (first | split at eq_ | dsimp only at eq_)
  all_goals (first | (injection eq_ with eq_; subst eq_) | (cases eq_))
  repeat' (first
    | with_reducible assumption
    | with_reducible apply podTake_keeps
    | with_reducible refine keeps_ite ?_ ?_
    | with_reducible apply keepsParts_of
    | simp only [keeps_mk]
    | intro _
    | split
    | dsimp only [id])

theorem execAck_keeps {s0 : State} {m : PodMsg} {s : State}  {tt : State} (hk : Keeps s0 s) (eq_ : execAck m s = .next tt) : Keeps s0 tt := by
  unfold execAck at eq_
  repeat' (first | split at eq_ | dsimp only at eq_)
  all_goals (first | (injection eq_ with eq_; subst eq_) | (cases eq_))
  repeat' (first
    | with_reducible assumption
    | with_reducible apply unlessFenced_keeps
    | with_reducible apply farDrained_keeps
    | with_reducible apply ackAt_keeps
    | with_reducible refine keeps_ite ?_ ?_
    | with_reducible apply keepsParts_of
    | simp only [keeps_mk]
    | intro _
    | split
    | dsimp only [id])

theorem execRetransmitTimer_keeps {s0 : State} {id : BitVec 48} {s : State}  {tt : State} (hk : Keeps s0 s) (eq_ : execRetransmitTimer id s = .next tt) : Keeps s0 tt := by
  unfold execRetransmitTimer at eq_
  repeat' (first | split at eq_ | dsimp only at eq_)
  all_goals (first | (injection eq_ with eq_; subst eq_) | (cases eq_))
  repeat' (first
    | with_reducible assumption
    | with_reducible apply unlessFenced_keeps
    | with_reducible apply farDrained_keeps
    | with_reducible apply retransmit_keeps
    | with_reducible refine keeps_ite ?_ ?_
    | with_reducible apply keepsParts_of
    | simp only [keeps_mk]
    | intro _
    | split
    | dsimp only [id])

theorem execMessageLifetimeEnd_keeps {s0 : State} {id : BitVec 48} {s : State}  {tt : State} (hk : Keeps s0 s) (eq_ : execMessageLifetimeEnd id s = .next tt) : Keeps s0 tt := by
  unfold execMessageLifetimeEnd at eq_
  repeat' (first | split at eq_ | dsimp only at eq_)
  all_goals (first | (injection eq_ with eq_; subst eq_) | (cases eq_))
  repeat' (first
    | with_reducible assumption
    | with_reducible apply lifetimeEnds_keeps
    | with_reducible apply unlessFenced_keeps
    | with_reducible refine keeps_ite ?_ ?_
    | with_reducible apply keepsParts_of
    | simp only [keeps_mk]
    | intro _
    | split
    | dsimp only [id])

theorem execIdentifierEntryExpiry_keeps {s0 : State} {src : DevId} {id : BitVec 48} {s : State}  {tt : State} (hk : Keeps s0 s) (eq_ : execIdentifierEntryExpiry src id s = .next tt) : Keeps s0 tt := by
  unfold execIdentifierEntryExpiry at eq_
  repeat' (first | split at eq_ | dsimp only at eq_)
  all_goals (first | (injection eq_ with eq_; subst eq_) | (cases eq_))
  repeat' (first
    | with_reducible assumption
    | with_reducible refine keeps_ite ?_ ?_
    | with_reducible apply keepsParts_of
    | simp only [keeps_mk]
    | intro _
    | split
    | dsimp only [id])

theorem execReadTimeout_keeps {s0 : State} {id : BitVec 48} {s : State}  {tt : State} (hk : Keeps s0 s) (eq_ : execReadTimeout id s = .next tt) : Keeps s0 tt := by
  unfold execReadTimeout at eq_
  repeat' (first | split at eq_ | dsimp only at eq_)
  all_goals (first | (injection eq_ with eq_; subst eq_) | (cases eq_))
  repeat' (first
    | with_reducible assumption
    | with_reducible apply readTimesOut_keeps
    | with_reducible apply unlessFenced_keeps
    | with_reducible refine keeps_ite ?_ ?_
    | with_reducible apply keepsParts_of
    | simp only [keeps_mk]
    | intro _
    | split
    | dsimp only [id])

theorem execBackoffExpiry_keeps {s0 : State} {id : BitVec 48} {s : State}  {tt : State} (hk : Keeps s0 s) (eq_ : execBackoffExpiry id s = .next tt) : Keeps s0 tt := by
  unfold execBackoffExpiry at eq_
  repeat' (first | split at eq_ | dsimp only at eq_)
  all_goals (first | (injection eq_ with eq_; subst eq_) | (cases eq_))
  repeat' (first
    | with_reducible assumption
    | with_reducible apply unlessFenced_keeps
    | with_reducible apply backoffEnds_keeps
    | with_reducible refine keeps_ite ?_ ?_
    | with_reducible apply keepsParts_of
    | simp only [keeps_mk]
    | intro _
    | split
    | dsimp only [id])

theorem execRetryLimitExpiry_keeps {s0 : State} {id : BitVec 48} {s : State}  {tt : State} (hk : Keeps s0 s) (eq_ : execRetryLimitExpiry id s = .next tt) : Keeps s0 tt := by
  unfold execRetryLimitExpiry at eq_
  repeat' (first | split at eq_ | dsimp only at eq_)
  all_goals (first | (injection eq_ with eq_; subst eq_) | (cases eq_))
  repeat' (first
    | with_reducible assumption
    | with_reducible apply unlessFenced_keeps
    | with_reducible apply limitEnds_keeps
    | with_reducible refine keeps_ite ?_ ?_
    | with_reducible apply keepsParts_of
    | simp only [keeps_mk]
    | intro _
    | split
    | dsimp only [id])

theorem execContextFetchDone_keeps {s0 : State} {q : QpNum} {macOk : Bool} {s : State}  {tt : State} (hk : Keeps s0 s) (eq_ : execContextFetchDone q macOk s = .next tt) : Keeps s0 tt := by
  unfold execContextFetchDone at eq_
  repeat' (first | split at eq_ | dsimp only at eq_)
  all_goals (first | (injection eq_ with eq_; subst eq_) | (cases eq_))
  repeat' (first
    | with_reducible assumption
    | with_reducible apply unlessFenced_keeps
    | with_reducible apply fetchFails_keeps
    | with_reducible apply fetched_keeps
    | with_reducible refine keeps_ite ?_ ?_
    | with_reducible apply keepsParts_of
    | simp only [keeps_mk]
    | intro _
    | split
    | dsimp only [id])

theorem execPageFaultTimeout_keeps {s0 : State} {k : Word} {page : Nat} {s : State}  {tt : State} (hk : Keeps s0 s) (eq_ : execPageFaultTimeout k page s = .next tt) : Keeps s0 tt := by
  unfold execPageFaultTimeout at eq_
  repeat' (first | split at eq_ | dsimp only at eq_)
  all_goals (first | (injection eq_ with eq_; subst eq_) | (cases eq_))
  repeat' (first
    | with_reducible assumption
    | with_reducible apply unlessFenced_keeps
    | with_reducible apply faultEnds_keeps
    | with_reducible refine keeps_ite ?_ ?_
    | with_reducible apply keepsParts_of
    | simp only [keeps_mk]
    | intro _
    | split
    | dsimp only [id])

theorem rmaCode_keeps {s0 : State} {c : Status} {s : State}  (hk : Keeps s0 s) :
    Keeps s0 (rmaCode c s) := by
  unfold rmaCode
  repeat' (first
    | with_reducible assumption
    | with_reducible refine keeps_ite ?_ ?_
    | with_reducible apply keepsParts_of
    | simp only [keeps_mk]
    | intro _
    | split
    | dsimp only [id])

theorem qpcBind_keeps {s0 : State} {s : State}  (hk : Keeps s0 s) :
    Keeps s0 (qpcBind s) := by
  unfold qpcBind
  repeat' (first
    | with_reducible assumption
    | with_reducible apply rmaCode_keeps
    | with_reducible refine keeps_ite ?_ ?_
    | with_reducible apply keepsParts_of
    | simp only [keeps_mk]
    | intro _
    | split
    | dsimp only [id])

theorem execQpcBind_keeps {s0 : State} {w : CtlWrite} {s : State}  {tt : State} (hk : Keeps s0 s) (eq_ : execQpcBind w s = .next tt) : Keeps s0 tt := by
  unfold execQpcBind at eq_
  repeat' (first | split at eq_ | dsimp only at eq_)
  all_goals (first | (injection eq_ with eq_; subst eq_) | (cases eq_))
  repeat' (first
    | with_reducible assumption
    | with_reducible apply rmaCode_keeps
    | with_reducible apply qpcBind_keeps
    | with_reducible apply ctl_keeps
    | with_reducible refine keeps_ite ?_ ?_
    | with_reducible apply keepsParts_of
    | simp only [keeps_mk]
    | intro _
    | split
    | dsimp only [id])

theorem execRmaClr_keeps {s0 : State} {w : CtlWrite} {s : State}  {tt : State} (hk : Keeps s0 s) (eq_ : execRmaClr w s = .next tt) : Keeps s0 tt := by
  unfold execRmaClr at eq_
  repeat' (first | split at eq_ | dsimp only at eq_)
  all_goals (first | (injection eq_ with eq_; subst eq_) | (cases eq_))
  repeat' (first
    | with_reducible assumption
    | with_reducible apply rmaCode_keeps
    | with_reducible apply ctl_keeps
    | with_reducible refine keeps_ite ?_ ?_
    | with_reducible apply keepsParts_of
    | simp only [keeps_mk]
    | intro _
    | split
    | dsimp only [id])

theorem applyParked_keeps {s0 : State} {fn : Nat} {src : DevId} {id : BitVec 48} {s : State} (hk : Keeps s0 s) :
    Keeps s0 (applyParked fn src id s) := by
  unfold applyParked
  repeat' (first
    | with_reducible assumption
    | with_reducible apply homeTurns_keeps
    | with_reducible apply atomicApply_keeps
    | with_reducible apply deregRun_keeps
    | with_reducible apply podFinish_keeps
    | with_reducible apply regionRead_keeps
    | with_reducible apply regionWrite_keeps
    | with_reducible apply readOutcome_keeps
    | (with_reducible apply regionRead_keeps_of (by assumption))
    | (with_reducible apply readOutcome_keeps_of (by assumption))
    | with_reducible refine keeps_ite ?_ ?_
    | with_reducible apply keepsParts_of
    | simp only [keeps_mk]
    | intro _
    | split
    | dsimp only [id])

theorem atomicAt_keeps {s0 : State} {fn : Nat} {a : AtomicSrc} {v : DWord} {new : DWord} {s : State} (hk : Keeps s0 s) :
    Keeps s0 (atomicAt fn a v new s) := by
  unfold atomicAt
  repeat' (first
    | with_reducible assumption
    | with_reducible apply homeArrive_keeps
    | with_reducible apply atomicWaits_keeps
    | with_reducible apply applyParked_keeps
    | with_reducible apply unlessFenced_keeps
    | with_reducible refine keeps_ite ?_ ?_
    | with_reducible apply keepsParts_of
    | simp only [keeps_mk]
    | intro _
    | split
    | dsimp only [id])

theorem execAtomicAdd_keeps {s0 : State} {a : AtomicSrc} {v : DWord} {s : State}  {tt : State} (hk : Keeps s0 s) (eq_ : execAtomicAdd a v s = .next tt) : Keeps s0 tt := by
  unfold execAtomicAdd at eq_
  repeat' (first | split at eq_ | dsimp only at eq_)
  all_goals (first | (injection eq_ with eq_; subst eq_) | (cases eq_))
  repeat' (first
    | with_reducible assumption
    | with_reducible apply atomicAt_keeps
    | with_reducible refine keeps_ite ?_ ?_
    | with_reducible apply keepsParts_of
    | simp only [keeps_mk]
    | intro _
    | split
    | dsimp only [id])

theorem execAtomicMin_keeps {s0 : State} {a : AtomicSrc} {v : DWord} {s : State}  {tt : State} (hk : Keeps s0 s) (eq_ : execAtomicMin a v s = .next tt) : Keeps s0 tt := by
  unfold execAtomicMin at eq_
  repeat' (first | split at eq_ | dsimp only at eq_)
  all_goals (first | (injection eq_ with eq_; subst eq_) | (cases eq_))
  repeat' (first
    | with_reducible assumption
    | with_reducible apply atomicAt_keeps
    | with_reducible refine keeps_ite ?_ ?_
    | with_reducible apply keepsParts_of
    | simp only [keeps_mk]
    | intro _
    | split
    | dsimp only [id])

theorem execAtomicMax_keeps {s0 : State} {a : AtomicSrc} {v : DWord} {s : State}  {tt : State} (hk : Keeps s0 s) (eq_ : execAtomicMax a v s = .next tt) : Keeps s0 tt := by
  unfold execAtomicMax at eq_
  repeat' (first | split at eq_ | dsimp only at eq_)
  all_goals (first | (injection eq_ with eq_; subst eq_) | (cases eq_))
  repeat' (first
    | with_reducible assumption
    | with_reducible apply atomicAt_keeps
    | with_reducible refine keeps_ite ?_ ?_
    | with_reducible apply keepsParts_of
    | simp only [keeps_mk]
    | intro _
    | split
    | dsimp only [id])

theorem execAtomicCas_keeps {s0 : State} {a : AtomicSrc} {cmp : DWord} {new : DWord} {s : State}  {tt : State} (hk : Keeps s0 s) (eq_ : execAtomicCas a cmp new s = .next tt) : Keeps s0 tt := by
  unfold execAtomicCas at eq_
  repeat' (first | split at eq_ | dsimp only at eq_)
  all_goals (first | (injection eq_ with eq_; subst eq_) | (cases eq_))
  repeat' (first
    | with_reducible assumption
    | with_reducible apply atomicAt_keeps
    | with_reducible refine keeps_ite ?_ ?_
    | with_reducible apply keepsParts_of
    | simp only [keeps_mk]
    | intro _
    | split
    | dsimp only [id])

end Sys2Proof.Machine
end

