-- ==== Sys2Proof/Laws/KeepsSched.lean ====
section
/-!
SUPPORT. What the operations of Sys2Proof/Machine/Sched.lean keep: the queue, the agreement of the TMR copies, and the canonical
form of the memories (Safety).
-/

namespace Sys2Proof.Machine

theorem switchAway_keeps {s0 : State} {t : Nat} {n : Nat} {s : State}  (hk : Keeps s0 s) :
    Keeps s0 (switchAway t n s) := by
  unfold switchAway
  repeat' (first
    | with_reducible assumption
    | with_reducible apply getD_keeps
    | with_reducible apply clusterUpd_keeps
    | with_reducible refine keeps_ite ?_ ?_
    | with_reducible apply keepsParts_of
    | simp only [keeps_mk]
    | with_reducible apply memOk_ite
    | with_reducible apply memParts_of
    | simp only [memOk_mk]
    | with_reducible refine memParts_mk ?_ ?_ ?_
    | exact Mem.nil_wf
    | intro _
    | split
    | dsimp only [id])

theorem effectiveEnd_keeps {s0 : State} {c : Nat} {d : Nat} {t : Nat} {s : State} (hk : Keeps s0 s) :
    Keeps s0 (effectiveEnd c d t s) := by
  unfold effectiveEnd
  repeat' (first
    | with_reducible assumption
    | with_reducible apply foldl_keeps
    | with_reducible apply foldl_keeps_fst
    | with_reducible apply foldl_keeps_snd
    | with_reducible apply switchAway_keeps
    | with_reducible apply ctxUpd_keeps
    | with_reducible refine keeps_ite ?_ ?_
    | with_reducible apply keepsParts_of
    | simp only [keeps_mk]
    | intro _
    | split
    | dsimp only [id])

theorem lateEnds_keeps {s0 : State} {s : State} (hk : Keeps s0 s) :
    Keeps s0 (lateEnds s) := by
  unfold lateEnds
  repeat' (first
    | with_reducible assumption
    | with_reducible apply foldl_keeps
    | with_reducible apply foldl_keeps_fst
    | with_reducible apply foldl_keeps_snd
    | with_reducible apply effectiveEnd_keeps
    | with_reducible refine keeps_ite ?_ ?_
    | with_reducible apply keepsParts_of
    | simp only [keeps_mk]
    | intro _
    | split
    | dsimp only [id])

theorem slotBegins_keeps {s0 : State} {j : Nat} {t : Nat} {s : State} (hk : Keeps s0 s) :
    Keeps s0 (slotBegins j t s) := by
  unfold slotBegins
  repeat' (first
    | with_reducible assumption
    | with_reducible apply foldl_keeps
    | with_reducible apply foldl_keeps_fst
    | with_reducible apply foldl_keeps_snd
    | with_reducible apply clusterUpd_keeps
    | with_reducible apply lateEnds_keeps
    | with_reducible apply effectiveEnd_keeps
    | with_reducible apply switchAway_keeps
    | with_reducible apply rebindAll_keeps
    | with_reducible apply postWaiting_keeps
    | with_reducible apply vtRefresh_keeps
    | with_reducible refine keeps_ite ?_ ?_
    | with_reducible apply keepsParts_of
    | simp only [keeps_mk]
    | with_reducible apply memOk_ite
    | with_reducible apply memParts_of
    | simp only [memOk_mk]
    | with_reducible refine memParts_mk ?_ ?_ ?_
    | exact Mem.nil_wf
    | intro _
    | split
    | dsimp only [id])

theorem frameStart_keeps {s0 : State} {s : State}  (hk : Keeps s0 s) :
    Keeps s0 (frameStart s) := by
  unfold frameStart
  repeat' (first
    | with_reducible assumption
    | with_reducible apply slotBegins_keeps
    | with_reducible refine keeps_ite ?_ ?_
    | with_reducible apply keepsParts_of
    | simp only [keeps_mk]
    | intro _
    | split
    | dsimp only [id])

theorem execFrameStart_keeps {s0 : State} {s : State}  {tt : State} (hk : Keeps s0 s) (eq_ : execFrameStart s = .next tt) : Keeps s0 tt := by
  unfold execFrameStart at eq_
  repeat' (first | split at eq_ | dsimp only at eq_)
  all_goals (first | (injection eq_ with eq_; subst eq_) | (cases eq_))
  repeat' (first
    | with_reducible assumption
    | with_reducible apply frameStart_keeps
    | with_reducible refine keeps_ite ?_ ?_
    | with_reducible apply keepsParts_of
    | simp only [keeps_mk]
    | intro _
    | split
    | dsimp only [id])

theorem execSlotEnd_keeps {s0 : State} {s : State}  {tt : State} (hk : Keeps s0 s) (eq_ : execSlotEnd s = .next tt) : Keeps s0 tt := by
  unfold execSlotEnd at eq_
  repeat' (first | split at eq_ | dsimp only at eq_)
  all_goals (first | (injection eq_ with eq_; subst eq_) | (cases eq_))
  repeat' (first
    | with_reducible assumption
    | with_reducible apply slotBegins_keeps
    | with_reducible refine keeps_ite ?_ ?_
    | with_reducible apply keepsParts_of
    | simp only [keeps_mk]
    | intro _
    | split
    | dsimp only [id])

theorem execEffectiveSlotEnd_keeps {s0 : State} {ctx : FnId} {s : State}  {tt : State} (hk : Keeps s0 s) (eq_ : execEffectiveSlotEnd ctx s = .next tt) : Keeps s0 tt := by
  unfold execEffectiveSlotEnd at eq_
  repeat' (first | split at eq_ | dsimp only at eq_)
  all_goals (first | (injection eq_ with eq_; subst eq_) | (cases eq_))
  repeat' (first
    | with_reducible assumption
    | with_reducible apply effectiveEnd_keeps
    | with_reducible apply rebindAll_keeps
    | with_reducible refine keeps_ite ?_ ?_
    | with_reducible apply keepsParts_of
    | simp only [keeps_mk]
    | intro _
    | split
    | dsimp only [id])

theorem execSaveComplete_keeps {s0 : State} {cl : ClusterId} {s : State} {tt : State} (hk : Keeps s0 s) (eq_ : execSaveComplete cl s = .next tt) : Keeps s0 tt := by
  unfold execSaveComplete at eq_
  repeat' (first | split at eq_ | dsimp only at eq_)
  all_goals (first | (injection eq_ with eq_; subst eq_) | (cases eq_))
  repeat' (first
    | with_reducible assumption
    | with_reducible apply rebind_keeps
    | with_reducible apply saveEnd_keeps
    | with_reducible apply vtRefresh_keeps
    | with_reducible refine keeps_ite ?_ ?_
    | with_reducible apply keepsParts_of
    | simp only [keeps_mk]
    | intro _
    | split
    | dsimp only [id])

theorem execRestoreComplete_keeps {s0 : State} {cl : ClusterId} {s : State}  {tt : State} (hk : Keeps s0 s) (eq_ : execRestoreComplete cl s = .next tt) : Keeps s0 tt := by
  unfold execRestoreComplete at eq_
  repeat' (first | split at eq_ | dsimp only at eq_)
  all_goals (first | (injection eq_ with eq_; subst eq_) | (cases eq_))
  repeat' (first
    | with_reducible assumption
    | with_reducible apply restoreEnd_keeps
    | with_reducible apply cluster_keeps
    | with_reducible refine keeps_ite ?_ ?_
    | with_reducible apply keepsParts_of
    | simp only [keeps_mk]
    | with_reducible apply memOk_ite
    | with_reducible apply memParts_of
    | simp only [memOk_mk]
    | with_reducible refine memParts_mk ?_ ?_ ?_
    | exact Mem.nil_wf
    | intro _
    | split
    | dsimp only [id])

theorem schedCode_keeps {s0 : State} {c : Status} {s : State}  (hk : Keeps s0 s) :
    Keeps s0 (schedCode c s) := by
  unfold schedCode
  repeat' (first
    | with_reducible assumption
    | with_reducible refine keeps_ite ?_ ?_
    | with_reducible apply keepsParts_of
    | simp only [keeps_mk]
    | intro _
    | split
    | dsimp only [id])

theorem schedCtl_keeps {s0 : State} {w : CtlWrite} {own : Nat} {run : State → State} {s : State} (h_run : ∀ (u : State), Keeps s0 u → Keeps s0 (run u)) (hk : Keeps s0 s) :
    Keeps s0 (schedCtl w own run s) := by
  unfold schedCtl
  repeat' (first
    | with_reducible assumption
    | with_reducible apply schedCode_keeps
    | with_reducible apply ctl_keeps
    | with_reducible apply h_run
    | with_reducible refine keeps_ite ?_ ?_
    | with_reducible apply keepsParts_of
    | simp only [keeps_mk]
    | intro _
    | split
    | dsimp only [id])

theorem execWeightCommit_keeps {s0 : State} {w : CtlWrite} {s : State}  {tt : State} (hk : Keeps s0 s) (eq_ : execWeightCommit w s = .next tt) : Keeps s0 tt := by
  unfold execWeightCommit at eq_
  repeat' (first | split at eq_ | dsimp only at eq_)
  all_goals (first | (injection eq_ with eq_; subst eq_) | (cases eq_))
  repeat' (first
    | with_reducible assumption
    | with_reducible apply schedCode_keeps
    | with_reducible apply schedCtl_keeps
    | with_reducible refine keeps_ite ?_ ?_
    | with_reducible apply keepsParts_of
    | simp only [keeps_mk]
    | intro _
    | split
    | dsimp only [id])

theorem execMeterDump_keeps {s0 : State} {w : CtlWrite} {s : State}  {tt : State} (hk : Keeps s0 s) (eq_ : execMeterDump w s = .next tt) : Keeps s0 tt := by
  unfold execMeterDump at eq_
  repeat' (first | split at eq_ | dsimp only at eq_)
  all_goals (first | (injection eq_ with eq_; subst eq_) | (cases eq_))
  repeat' (first
    | with_reducible assumption
    | with_reducible apply schedCode_keeps
    | with_reducible apply schedCtl_keeps
    | with_reducible refine keeps_ite ?_ ?_
    | with_reducible apply keepsParts_of
    | simp only [keeps_mk]
    | intro _
    | split
    | dsimp only [id])

theorem execParkWaits_keeps {s0 : State} {w : CtlWrite} {s : State}  {tt : State} (hk : Keeps s0 s) (eq_ : execParkWaits w s = .next tt) : Keeps s0 tt := by
  unfold execParkWaits at eq_
  repeat' (first | split at eq_ | dsimp only at eq_)
  all_goals (first | (injection eq_ with eq_; subst eq_) | (cases eq_))
  repeat' (first
    | with_reducible assumption
    | with_reducible apply schedCtl_keeps
    | with_reducible refine keeps_ite ?_ ?_
    | with_reducible apply keepsParts_of
    | simp only [keeps_mk]
    | intro _
    | split
    | dsimp only [id])

theorem execSchedClr_keeps {s0 : State} {w : CtlWrite} {s : State}  {tt : State} (hk : Keeps s0 s) (eq_ : execSchedClr w s = .next tt) : Keeps s0 tt := by
  unfold execSchedClr at eq_
  repeat' (first | split at eq_ | dsimp only at eq_)
  all_goals (first | (injection eq_ with eq_; subst eq_) | (cases eq_))
  repeat' (first
    | with_reducible assumption
    | with_reducible apply schedCode_keeps
    | with_reducible apply schedCtl_keeps
    | with_reducible refine keeps_ite ?_ ?_
    | with_reducible apply keepsParts_of
    | simp only [keeps_mk]
    | intro _
    | split
    | dsimp only [id])

theorem meterPages_keeps {s0 : State} {s : State}  (hk : Keeps s0 s) :
    Keeps s0 (meterPages s) := by
  unfold meterPages
  repeat' (first
    | with_reducible assumption
    | with_reducible apply foldl_keeps
    | with_reducible apply foldl_keeps_fst
    | with_reducible apply foldl_keeps_snd
    | with_reducible apply meterAdd_keeps
    | with_reducible refine keeps_ite ?_ ?_
    | with_reducible apply keepsParts_of
    | simp only [keeps_mk]
    | intro _
    | split
    | dsimp only [id])

theorem meterDumps_keeps {s0 : State} {s : State}  (hk : Keeps s0 s) :
    Keeps s0 (meterDumps s) := by
  unfold meterDumps
  repeat' (first
    | with_reducible assumption
    | with_reducible apply emit_keeps
    | with_reducible refine keeps_ite ?_ ?_
    | with_reducible apply keepsParts_of
    | simp only [keeps_mk]
    | intro _
    | split
    | dsimp only [id])

theorem execMeterSample_keeps {s0 : State} {s : State}  {tt : State} (hk : Keeps s0 s) (eq_ : execMeterSample s = .next tt) : Keeps s0 tt := by
  unfold execMeterSample at eq_
  repeat' (first | split at eq_ | dsimp only at eq_)
  all_goals (first | (injection eq_ with eq_; subst eq_) | (cases eq_))
  repeat' (first
    | with_reducible assumption
    | with_reducible apply meterPages_keeps
    | with_reducible apply meterDumps_keeps
    | with_reducible refine keeps_ite ?_ ?_
    | with_reducible apply keepsParts_of
    | simp only [keeps_mk]
    | intro _
    | split
    | dsimp only [id])

end Sys2Proof.Machine
end

