-- ==== Sys2Proof/Laws/KeepsSec.lean ====
section
/-!
SUPPORT. What the operations of Sys2Proof/Machine/Sec.lean keep: the queue, the agreement of the TMR copies, and the canonical
form of the memories (Safety).
-/

namespace Sys2Proof.Machine

theorem secCode_keeps {s0 : State} {c : Status} {s : State}  (hk : Keeps s0 s) :
    Keeps s0 (secCode c s) := by
  unfold secCode
  repeat' (first
    | with_reducible assumption
    | with_reducible refine keeps_ite ?_ ?_
    | with_reducible apply keepsParts_of
    | simp only [keeps_mk]
    | intro _
    | split
    | dsimp only [id])

theorem secCtl_keeps {s0 : State} {w : CtlWrite} {own : Nat} {run : State → State} {s : State} (h_run : ∀ (u : State), Keeps s0 u → Keeps s0 (run u)) (hk : Keeps s0 s) :
    Keeps s0 (secCtl w own run s) := by
  unfold secCtl
  repeat' (first
    | with_reducible assumption
    | with_reducible apply secCode_keeps
    | with_reducible apply ctl_keeps
    | with_reducible apply h_run
    | with_reducible refine keeps_ite ?_ ?_
    | with_reducible apply keepsParts_of
    | simp only [keeps_mk]
    | intro _
    | split
    | dsimp only [id])

theorem ownerRun_keeps {s0 : State} {op : Nat} {c : OwnerExec} {s : State}  (hk : Keeps s0 s) :
    Keeps s0 (ownerRun op c s) := by
  unfold ownerRun
  repeat' (first
    | with_reducible assumption
    | with_reducible apply noteErr_keeps
    | with_reducible apply secCode_keeps
    | with_reducible refine keeps_ite ?_ ?_
    | with_reducible apply keepsParts_of
    | simp only [keeps_mk]
    | intro _
    | split
    | dsimp only [id])

theorem execClaim_keeps {s0 : State} {c : OwnerExec} {s : State}  {tt : State} (hk : Keeps s0 s) (eq_ : execClaim c s = .next tt) : Keeps s0 tt := by
  unfold execClaim at eq_
  repeat' (first | split at eq_ | dsimp only at eq_)
  all_goals (first | (injection eq_ with eq_; subst eq_) | (cases eq_))
  repeat' (first
    | with_reducible assumption
    | with_reducible apply ownerRun_keeps
    | with_reducible apply secCtl_keeps
    | with_reducible refine keeps_ite ?_ ?_
    | with_reducible apply keepsParts_of
    | simp only [keeps_mk]
    | intro _
    | split
    | dsimp only [id])

theorem execAddKey_keeps {s0 : State} {c : OwnerExec} {s : State}  {tt : State} (hk : Keeps s0 s) (eq_ : execAddKey c s = .next tt) : Keeps s0 tt := by
  unfold execAddKey at eq_
  repeat' (first | split at eq_ | dsimp only at eq_)
  all_goals (first | (injection eq_ with eq_; subst eq_) | (cases eq_))
  repeat' (first
    | with_reducible assumption
    | with_reducible apply ownerRun_keeps
    | with_reducible apply secCtl_keeps
    | with_reducible refine keeps_ite ?_ ?_
    | with_reducible apply keepsParts_of
    | simp only [keeps_mk]
    | intro _
    | split
    | dsimp only [id])

theorem execRemoveKey_keeps {s0 : State} {c : OwnerExec} {s : State}  {tt : State} (hk : Keeps s0 s) (eq_ : execRemoveKey c s = .next tt) : Keeps s0 tt := by
  unfold execRemoveKey at eq_
  repeat' (first | split at eq_ | dsimp only at eq_)
  all_goals (first | (injection eq_ with eq_; subst eq_) | (cases eq_))
  repeat' (first
    | with_reducible assumption
    | with_reducible apply ownerRun_keeps
    | with_reducible apply secCtl_keeps
    | with_reducible refine keeps_ite ?_ ?_
    | with_reducible apply keepsParts_of
    | simp only [keeps_mk]
    | intro _
    | split
    | dsimp only [id])

theorem execAdvance_keeps {s0 : State} {c : OwnerExec} {s : State}  {tt : State} (hk : Keeps s0 s) (eq_ : execAdvance c s = .next tt) : Keeps s0 tt := by
  unfold execAdvance at eq_
  repeat' (first | split at eq_ | dsimp only at eq_)
  all_goals (first | (injection eq_ with eq_; subst eq_) | (cases eq_))
  repeat' (first
    | with_reducible assumption
    | with_reducible apply ownerRun_keeps
    | with_reducible apply secCtl_keeps
    | with_reducible refine keeps_ite ?_ ?_
    | with_reducible apply keepsParts_of
    | simp only [keeps_mk]
    | intro _
    | split
    | dsimp only [id])

theorem execDebugUnlock_keeps {s0 : State} {c : OwnerExec} {s : State}  {tt : State} (hk : Keeps s0 s) (eq_ : execDebugUnlock c s = .next tt) : Keeps s0 tt := by
  unfold execDebugUnlock at eq_
  repeat' (first | split at eq_ | dsimp only at eq_)
  all_goals (first | (injection eq_ with eq_; subst eq_) | (cases eq_))
  repeat' (first
    | with_reducible assumption
    | with_reducible apply ownerRun_keeps
    | with_reducible apply secCtl_keeps
    | with_reducible refine keeps_ite ?_ ?_
    | with_reducible apply keepsParts_of
    | simp only [keeps_mk]
    | intro _
    | split
    | dsimp only [id])

theorem recoveryRun_keeps {s0 : State} {img : FwImage} {s : State}  (hk : Keeps s0 s) :
    Keeps s0 (recoveryRun img s) := by
  unfold recoveryRun
  repeat' (first
    | with_reducible assumption
    | with_reducible apply secCode_keeps
    | with_reducible refine keeps_ite ?_ ?_
    | with_reducible apply keepsParts_of
    | simp only [keeps_mk]
    | intro _
    | split
    | dsimp only [id])

theorem execRecoveryImage_keeps {s0 : State} {w : CtlWrite} {img : FwImage} {s : State}  {tt : State} (hk : Keeps s0 s) (eq_ : execRecoveryImage w img s = .next tt) : Keeps s0 tt := by
  unfold execRecoveryImage at eq_
  repeat' (first | split at eq_ | dsimp only at eq_)
  all_goals (first | (injection eq_ with eq_; subst eq_) | (cases eq_))
  repeat' (first
    | with_reducible assumption
    | with_reducible apply recoveryRun_keeps
    | with_reducible apply secCtl_keeps
    | with_reducible refine keeps_ite ?_ ?_
    | with_reducible apply keepsParts_of
    | simp only [keeps_mk]
    | intro _
    | split
    | dsimp only [id])

theorem execPodFetch_keeps {s0 : State} {w : CtlWrite} {s : State}  {tt : State} (hk : Keeps s0 s) (eq_ : execPodFetch w s = .next tt) : Keeps s0 tt := by
  unfold execPodFetch at eq_
  repeat' (first | split at eq_ | dsimp only at eq_)
  all_goals (first | (injection eq_ with eq_; subst eq_) | (cases eq_))
  repeat' (first
    | with_reducible assumption
    | with_reducible apply fetchSend_keeps
    | with_reducible apply secCode_keeps
    | with_reducible apply secCtl_keeps
    | with_reducible refine keeps_ite ?_ ?_
    | with_reducible apply keepsParts_of
    | simp only [keeps_mk]
    | intro _
    | split
    | dsimp only [id])

theorem execPodGenesis_keeps {s0 : State} {w : CtlWrite} {s : State}  {tt : State} (hk : Keeps s0 s) (eq_ : execPodGenesis w s = .next tt) : Keeps s0 tt := by
  unfold execPodGenesis at eq_
  repeat' (first | split at eq_ | dsimp only at eq_)
  all_goals (first | (injection eq_ with eq_; subst eq_) | (cases eq_))
  repeat' (first
    | with_reducible assumption
    | with_reducible apply takePodKey_keeps
    | with_reducible apply secCode_keeps
    | with_reducible apply secCtl_keeps
    | with_reducible apply draw_keeps
    | (with_reducible apply draw_keeps_of (by assumption))
    | with_reducible refine keeps_ite ?_ ?_
    | with_reducible apply keepsParts_of
    | simp only [keeps_mk]
    | intro _
    | split
    | dsimp only [id])

theorem podTransfer_keeps {s0 : State} {d : DevId} {gen : Word} {ok : Bool} {s : State}  (hk : Keeps s0 s) :
    Keeps s0 (podTransfer d gen ok s) := by
  unfold podTransfer
  repeat' (first
    | with_reducible assumption
    | with_reducible apply takePodKey_keeps
    | with_reducible apply fetchEnds_keeps
    | with_reducible refine keeps_ite ?_ ?_
    | with_reducible apply keepsParts_of
    | simp only [keeps_mk]
    | intro _
    | split
    | dsimp only [id])

theorem execPodKeyTransfer_keeps {s0 : State} {d : DevId} {gen : Word} {ok : Bool} {s : State}  {tt : State} (hk : Keeps s0 s) (eq_ : execPodKeyTransfer d gen ok s = .next tt) : Keeps s0 tt := by
  unfold execPodKeyTransfer at eq_
  repeat' (first | split at eq_ | dsimp only at eq_)
  all_goals (first | (injection eq_ with eq_; subst eq_) | (cases eq_))
  repeat' (first
    | with_reducible assumption
    | with_reducible apply podTransfer_keeps
    | with_reducible refine keeps_ite ?_ ?_
    | with_reducible apply keepsParts_of
    | simp only [keeps_mk]
    | intro _
    | split
    | dsimp only [id])

theorem execPodSendEnable_keeps {s0 : State} {s : State}  {tt : State} (hk : Keeps s0 s) (eq_ : execPodSendEnable s = .next tt) : Keeps s0 tt := by
  unfold execPodSendEnable at eq_
  repeat' (first | split at eq_ | dsimp only at eq_)
  all_goals (first | (injection eq_ with eq_; subst eq_) | (cases eq_))
  repeat' (first
    | with_reducible assumption
    | with_reducible apply fetchSend_keeps
    | with_reducible apply podSend_keeps
    | with_reducible apply rmaPump_keeps
    | with_reducible refine keeps_ite ?_ ?_
    | with_reducible apply keepsParts_of
    | simp only [keeps_mk]
    | intro _
    | split
    | dsimp only [id])

theorem execTenantUnbind_keeps {s0 : State} {w : CtlWrite} {s : State}  {tt : State} (hk : Keeps s0 s) (eq_ : execTenantUnbind w s = .next tt) : Keeps s0 tt := by
  unfold execTenantUnbind at eq_
  repeat' (first | split at eq_ | dsimp only at eq_)
  all_goals (first | (injection eq_ with eq_; subst eq_) | (cases eq_))
  repeat' (first
    | with_reducible assumption
    | with_reducible apply secCode_keeps
    | with_reducible apply secCtl_keeps
    | with_reducible refine keeps_ite ?_ ?_
    | with_reducible apply keepsParts_of
    | simp only [keeps_mk]
    | intro _
    | split
    | dsimp only [id])

theorem execSecClr_keeps {s0 : State} {w : CtlWrite} {s : State}  {tt : State} (hk : Keeps s0 s) (eq_ : execSecClr w s = .next tt) : Keeps s0 tt := by
  unfold execSecClr at eq_
  repeat' (first | split at eq_ | dsimp only at eq_)
  all_goals (first | (injection eq_ with eq_; subst eq_) | (cases eq_))
  repeat' (first
    | with_reducible assumption
    | with_reducible apply authFail_keeps
    | with_reducible apply secCode_keeps
    | with_reducible apply secCtl_keeps
    | with_reducible refine keeps_ite ?_ ?_
    | with_reducible apply keepsParts_of
    | simp only [keeps_mk]
    | intro _
    | split
    | dsimp only [id])

theorem execReseed_keeps {s0 : State} {s : State}  {tt : State} (hk : Keeps s0 s) (eq_ : execReseed s = .next tt) : Keeps s0 tt := by
  unfold execReseed at eq_
  repeat' (first | split at eq_ | dsimp only at eq_)
  all_goals (first | (injection eq_ with eq_; subst eq_) | (cases eq_))
  repeat' (first
    | with_reducible assumption
    | with_reducible refine keeps_ite ?_ ?_
    | with_reducible apply keepsParts_of
    | simp only [keeps_mk]
    | intro _
    | split
    | dsimp only [id])

theorem spdmSay_keeps {s0 : State} {r : SpdmResp} {s : State}  (hk : Keeps s0 s) :
    Keeps s0 (spdmSay r s) := by
  unfold spdmSay
  repeat' (first
    | with_reducible assumption
    | with_reducible apply emit_keeps
    | with_reducible refine keeps_ite ?_ ?_
    | with_reducible apply keepsParts_of
    | simp only [keeps_mk]
    | intro _
    | split
    | dsimp only [id])

theorem spdmRun_keeps {s0 : State} {need : Spdm → Bool} {run : State → State} {s : State} (h_run : ∀ (u : State), Keeps s0 u → Keeps s0 (run u)) {tt : State} (hk : Keeps s0 s) (eq_ : spdmRun need run s = .next tt) : Keeps s0 tt := by
  unfold spdmRun at eq_
  repeat' (first | split at eq_ | dsimp only at eq_)
  all_goals (first | (injection eq_ with eq_; subst eq_) | (cases eq_))
  repeat' (first
    | with_reducible assumption
    | with_reducible apply spdmSay_keeps
    | with_reducible apply h_run
    | with_reducible refine keeps_ite ?_ ?_
    | with_reducible apply keepsParts_of
    | simp only [keeps_mk]
    | intro _
    | split
    | dsimp only [id])

theorem execGetVersion_keeps {s0 : State} {s : State}  {tt : State} (hk : Keeps s0 s) (eq_ : execGetVersion s = .next tt) : Keeps s0 tt := by
  unfold execGetVersion at eq_
  repeat' (first | split at eq_ | dsimp only at eq_)
  all_goals (first | (injection eq_ with eq_; subst eq_) | (cases eq_))
  repeat' (first
    | with_reducible assumption
    | with_reducible apply spdmSay_keeps
    | with_reducible refine keeps_ite ?_ ?_
    | with_reducible apply keepsParts_of
    | simp only [keeps_mk]
    | intro _
    | split
    | dsimp only [id])

theorem execGetCapabilities_keeps {s0 : State} {v : Byte} {s : State}  {tt : State} (hk : Keeps s0 s) (eq_ : execGetCapabilities v s = .next tt) : Keeps s0 tt := by
  unfold execGetCapabilities at eq_
  repeat' (first | split at eq_ | dsimp only at eq_)
  all_goals (first | (with_reducible refine spdmRun_keeps ?_ ?_ eq_) | (injection eq_ with eq_; subst eq_) | (cases eq_))
  repeat' (first
    | with_reducible assumption
    | with_reducible apply spdmSay_keeps
    | with_reducible refine keeps_ite ?_ ?_
    | with_reducible apply keepsParts_of
    | simp only [keeps_mk]
    | intro _
    | split
    | dsimp only [id])

theorem execNegotiateAlgorithms_keeps {s0 : State} {v : Byte} {ed : Bool} {sha : Bool} {s : State}  {tt : State} (hk : Keeps s0 s) (eq_ : execNegotiateAlgorithms v ed sha s = .next tt) : Keeps s0 tt := by
  unfold execNegotiateAlgorithms at eq_
  repeat' (first | split at eq_ | dsimp only at eq_)
  all_goals (first | (with_reducible refine spdmRun_keeps ?_ ?_ eq_) | (injection eq_ with eq_; subst eq_) | (cases eq_))
  repeat' (first
    | with_reducible assumption
    | with_reducible apply spdmSay_keeps
    | with_reducible refine keeps_ite ?_ ?_
    | with_reducible apply keepsParts_of
    | simp only [keeps_mk]
    | intro _
    | split
    | dsimp only [id])

theorem execGetDigests_keeps {s0 : State} {s : State}  {tt : State} (hk : Keeps s0 s) (eq_ : execGetDigests s = .next tt) : Keeps s0 tt := by
  unfold execGetDigests at eq_
  repeat' (first | split at eq_ | dsimp only at eq_)
  all_goals (first | (with_reducible refine spdmRun_keeps ?_ ?_ eq_) | (injection eq_ with eq_; subst eq_) | (cases eq_))
  repeat' (first
    | with_reducible assumption
    | with_reducible apply spdmSay_keeps
    | with_reducible refine keeps_ite ?_ ?_
    | with_reducible apply keepsParts_of
    | simp only [keeps_mk]
    | intro _
    | split
    | dsimp only [id])

theorem execGetCertificate_keeps {s0 : State} {off : Nat} {len : Nat} {s : State}  {tt : State} (hk : Keeps s0 s) (eq_ : execGetCertificate off len s = .next tt) : Keeps s0 tt := by
  unfold execGetCertificate at eq_
  repeat' (first | split at eq_ | dsimp only at eq_)
  all_goals (first | (with_reducible refine spdmRun_keeps ?_ ?_ eq_) | (injection eq_ with eq_; subst eq_) | (cases eq_))
  repeat' (first
    | with_reducible assumption
    | with_reducible apply spdmSay_keeps
    | with_reducible refine keeps_ite ?_ ?_
    | with_reducible apply keepsParts_of
    | simp only [keeps_mk]
    | intro _
    | split
    | dsimp only [id])

theorem execChallenge_keeps {s0 : State} {nonce : BitVec 256} {s : State}  {tt : State} (hk : Keeps s0 s) (eq_ : execChallenge nonce s = .next tt) : Keeps s0 tt := by
  unfold execChallenge at eq_
  repeat' (first | split at eq_ | dsimp only at eq_)
  all_goals (first | (with_reducible refine spdmRun_keeps ?_ ?_ eq_) | (injection eq_ with eq_; subst eq_) | (cases eq_))
  repeat' (first
    | with_reducible assumption
    | with_reducible apply spdmSay_keeps
    | with_reducible refine keeps_ite ?_ ?_
    | with_reducible apply keepsParts_of
    | simp only [keeps_mk]
    | intro _
    | split
    | dsimp only [id])

theorem execGetMeasurements_keeps {s0 : State} {i : Byte} {signed : Bool} {nonce : BitVec 256} {s : State}  {tt : State} (hk : Keeps s0 s) (eq_ : execGetMeasurements i signed nonce s = .next tt) : Keeps s0 tt := by
  unfold execGetMeasurements at eq_
  repeat' (first | split at eq_ | dsimp only at eq_)
  all_goals (first | (with_reducible refine spdmRun_keeps ?_ ?_ eq_) | (injection eq_ with eq_; subst eq_) | (cases eq_))
  repeat' (first
    | with_reducible assumption
    | with_reducible apply getD_keeps
    | with_reducible apply spdmSay_keeps
    | with_reducible refine keeps_ite ?_ ?_
    | with_reducible apply keepsParts_of
    | simp only [keeps_mk]
    | intro _
    | split
    | dsimp only [id])

theorem execSecureSessionExchange_keeps {s0 : State} {ok : Bool} {s : State}  {tt : State} (hk : Keeps s0 s) (eq_ : execSecureSessionExchange ok s = .next tt) : Keeps s0 tt := by
  unfold execSecureSessionExchange at eq_
  repeat' (first | split at eq_ | dsimp only at eq_)
  all_goals (first | (with_reducible refine spdmRun_keeps ?_ ?_ eq_) | (injection eq_ with eq_; subst eq_) | (cases eq_))
  repeat' (first
    | with_reducible assumption
    | with_reducible apply spdmSay_keeps
    | with_reducible refine keeps_ite ?_ ?_
    | with_reducible apply keepsParts_of
    | simp only [keeps_mk]
    | intro _
    | split
    | dsimp only [id])

end Sys2Proof.Machine
end

