-- ==== Sys2Proof/Laws/KeepsSegment.lean ====
section
/-!
SUPPORT. What the operations of Sys2Proof/Machine/Segment.lean keep: the queue, the agreement of the TMR copies, and the canonical
form of the memories (Safety).
-/

namespace Sys2Proof.Machine

theorem redoStep_keeps {s0 : State} {q : ReqId} {s : State}  (hk : Keeps s0 s) :
    Keeps s0 (redoStep q s) := by
  unfold redoStep
  repeat' (first
    | with_reducible assumption
    | with_reducible apply recUpd_keeps
    | with_reducible refine keeps_ite ?_ ?_
    | with_reducible apply keepsParts_of
    | simp only [keeps_mk]
    | intro _
    | split
    | dsimp only [id])

theorem segmentFailed_keeps {s0 : State} {g : SegmentRef} {q : ReqId} {c : Status} {s : State}  (hk : Keeps s0 s) :
    Keeps s0 (segmentFailed g q c s) := by
  unfold segmentFailed
  repeat' (first
    | with_reducible assumption
    | with_reducible apply reportEnd_keeps
    | with_reducible apply redoStep_keeps
    | with_reducible apply recUpd_keeps
    | with_reducible refine keeps_ite ?_ ?_
    | with_reducible apply keepsParts_of
    | simp only [keeps_mk]
    | intro _
    | split
    | dsimp only [id])

theorem segmentEnd_keeps {s0 : State} {g : SegmentRef} {s : State}  (hk : Keeps s0 s) :
    Keeps s0 (segmentEnd g s) := by
  unfold segmentEnd
  repeat' (first
    | with_reducible assumption
    | with_reducible apply foldl_keeps
    | with_reducible apply foldl_keeps_fst
    | with_reducible apply foldl_keeps_snd
    | with_reducible apply segmentFailed_keeps
    | with_reducible apply clusterUpd_keeps
    | with_reducible apply recUpd_keeps
    | with_reducible refine keeps_ite ?_ ?_
    | with_reducible apply keepsParts_of
    | simp only [keeps_mk]
    | with_reducible apply memOk_ite
    | with_reducible apply memParts_of
    | simp only [memOk_mk]
    | with_reducible refine memParts_mk ?_ ?_ ?_
    | exact Mem.nil_wf
    | (with_reducible refine keepsParts_mem ?_ ?_ ?_ ?_ ?_)
    | with_reducible exact id
    | with_reducible exact Mem.store_wf _ _ _
    | with_reducible exact Mem.clear_wf _ _ _
    | with_reducible exact foldl_clear_wf
    | with_reducible exact (fun _ => Mem.nil_wf)
    | with_reducible exact (all_nil_keeps (p := Saved.memOk))
    | with_reducible exact (all_filter_keeps (p := Saved.memOk))
    | with_reducible exact (all_nil_keeps (p := Cluster.memOk))
    | with_reducible apply all_map_keeps
    | intro _
    | split
    | dsimp only [id])

theorem execSegmentEnd_keeps {s0 : State} {g : SegmentRef} {s : State}  {tt : State} (hk : Keeps s0 s) (eq_ : execSegmentEnd g s = .next tt) : Keeps s0 tt := by
  unfold execSegmentEnd at eq_
  repeat' (first | split at eq_ | dsimp only at eq_)
  all_goals (first | (injection eq_ with eq_; subst eq_) | (cases eq_))
  repeat' (first
    | with_reducible assumption
    | with_reducible apply segmentEnd_keeps
    | with_reducible refine keeps_ite ?_ ?_
    | with_reducible apply keepsParts_of
    | simp only [keeps_mk]
    | intro _
    | split
    | dsimp only [id])

theorem paceWindow_keeps {s0 : State} {n : Nat} {beats : Nat} {s : State}  (hk : Keeps s0 s) :
    Keeps s0 (paceWindow n beats s) := by
  unfold paceWindow
  repeat' (first
    | with_reducible assumption
    | with_reducible apply clusterUpd_keeps
    | with_reducible apply cluster_keeps
    | with_reducible refine keeps_ite ?_ ?_
    | with_reducible apply keepsParts_of
    | simp only [keeps_mk]
    | with_reducible apply memOk_ite
    | with_reducible apply memParts_of
    | simp only [memOk_mk]
    | with_reducible refine memParts_mk ?_ ?_ ?_
    | exact Mem.nil_wf
    | intro _
    | split
    | dsimp only [id])

theorem execPaceWindowEnd_keeps {s0 : State} {cl : ClusterId} {beats : Nat} {s : State}  {tt : State} (hk : Keeps s0 s) (eq_ : execPaceWindowEnd cl beats s = .next tt) : Keeps s0 tt := by
  unfold execPaceWindowEnd at eq_
  repeat' (first | split at eq_ | dsimp only at eq_)
  all_goals (first | (injection eq_ with eq_; subst eq_) | (cases eq_))
  repeat' (first
    | with_reducible assumption
    | with_reducible apply paceWindow_keeps
    | with_reducible refine keeps_ite ?_ ?_
    | with_reducible apply keepsParts_of
    | simp only [keeps_mk]
    | intro _
    | split
    | dsimp only [id])

theorem rekeyTab_all {V : Type} {p : V → Bool} {m a b : Nat} {t : Tab V} (h : t.all (fun e => p e.2) = true) :
    (rekeyTab m a b t).all (fun e => p e.2) = true := by
  unfold rekeyTab
  have k : ∀ r : Tab V, r.all (fun e => p e.2) = true →
      (t.foldl (fun r e => Tab.put r (if e.1 / m = a then b * m + e.1 % m else e.1) e.2) r).all (fun e => p e.2) = true := by
    induction t with
    | nil => exact fun _ hr => hr
    | cons x rest ih =>
      simp only [List.all_cons, Bool.and_eq_true] at h
      exact fun r hr => ih h.2 _ (Tab.put_all r _ x.2 p hr h.1)
  exact k [] rfl

theorem moveRank_keeps {s0 : State} {g p n k : Nat} {s : State} (hk : Keeps s0 s) : Keeps s0 (moveRank g p n k s) := by
  have h : ∀ (q : ClusterProgram) (u : State), Keeps s0 u → Keeps s0 (clusterUpd k (fun x => { startCluster q x with
      chans := (cluster s n).chans, mailbox := Mem.clear (cluster s n).mailbox 0 0x1000
      beats := (cluster s n).beats, breach := (cluster s n).breach, ecc := (cluster s n).ecc
      stale := (cluster s n).stale }) u) :=
    fun q u hu => clusterUpd_keeps_of hu (fun m x hx => memOk_mk.2 (memParts_mk (memCase (startCluster_keeps hx))
      (memAcc (startCluster_keeps hx)) (Mem.clear_wf _ _ _ (memMail (memOk_cluster (hk.2.2 m))))))
  unfold moveRank
  repeat' (first
    | with_reducible assumption
    | with_reducible apply rebind_keeps
    | with_reducible apply h
    | with_reducible apply clusterUpd_keeps
    | with_reducible apply takeBack_keeps
    | with_reducible apply idleCluster_keeps
    | with_reducible apply keepsParts_of
    | simp only [keeps_mk]
    | with_reducible apply memParts_of
    | simp only [memOk_mk]
    | (with_reducible refine keepsParts_saves ?_ (fun a => rekeyTab_all (p := Saved.memOk) a))
    | intro _
    | split
    | dsimp only)

theorem execRankMoveToSpare_keeps {s0 : State} {region : RegionId} {pos : BitVec 4} {s : State}  {tt : State} (hk : Keeps s0 s) (eq_ : execRankMoveToSpare region pos s = .next tt) : Keeps s0 tt := by
  unfold execRankMoveToSpare at eq_
  repeat' (first | split at eq_ | dsimp only at eq_)
  all_goals (first | (injection eq_ with eq_; subst eq_) | (cases eq_))
  repeat' (first
    | with_reducible assumption
    | with_reducible apply moveRank_keeps
    | with_reducible apply cluster_keeps
    | with_reducible refine keeps_ite ?_ ?_
    | with_reducible apply keepsParts_of
    | simp only [keeps_mk]
    | with_reducible apply memOk_ite
    | with_reducible apply memParts_of
    | simp only [memOk_mk]
    | with_reducible refine memParts_mk ?_ ?_ ?_
    | exact Mem.nil_wf
    | intro _
    | split
    | dsimp only [id])

end Sys2Proof.Machine
end

