-- ==== Sys2Proof/Laws/KeepsTray.lean ====
section
/-!
SUPPORT. What the operations of Sys2Proof/Machine/Tray.lean keep: the queue, the agreement of the TMR copies, and the canonical
form of the memories (Safety).
-/

namespace Sys2Proof.Machine

theorem execTrayLoad_keeps {s0 : State} {h : TrayHdr} {reads : ReadOutcome} {s : State}  {tt : State} (hk : Keeps s0 s) (eq_ : execTrayLoad h reads s = .next tt) : Keeps s0 tt := by
  unfold execTrayLoad at eq_
  repeat' (first | split at eq_ | dsimp only at eq_)
  all_goals (first | (injection eq_ with eq_; subst eq_) | (cases eq_))
  repeat' (first
    | with_reducible assumption
    | with_reducible apply homeArrive_keeps
    | with_reducible refine keeps_ite ?_ ?_
    | with_reducible apply keepsParts_of
    | simp only [keeps_mk]
    | intro _
    | split
    | dsimp only [id])

theorem execTrayStore_keeps {s0 : State} {h : TrayHdr} {data : WithReads (List Byte)} {s : State} {tt : State} (hk : Keeps s0 s) (eq_ : execTrayStore h data s = .next tt) : Keeps s0 tt := by
  unfold execTrayStore at eq_
  repeat' (first | split at eq_ | dsimp only at eq_)
  all_goals (first | (injection eq_ with eq_; subst eq_) | (cases eq_))
  repeat' (first
    | with_reducible assumption
    | with_reducible apply homeArrive_keeps
    | with_reducible refine keeps_ite ?_ ?_
    | with_reducible apply keepsParts_of
    | simp only [keeps_mk]
    | intro _
    | split
    | dsimp only [id])

theorem execTrayAppend_keeps {s0 : State} {h : TrayHdr} {a : AppendHdr} {row : WithReads (List Byte)} {s : State} {tt : State} (hk : Keeps s0 s) (eq_ : execTrayAppend h a row s = .next tt) : Keeps s0 tt := by
  unfold execTrayAppend at eq_
  repeat' (first | split at eq_ | dsimp only at eq_)
  all_goals (first | (injection eq_ with eq_; subst eq_) | (cases eq_))
  repeat' (first
    | with_reducible assumption
    | with_reducible apply homeArrive_keeps
    | with_reducible refine keeps_ite ?_ ?_
    | with_reducible apply keepsParts_of
    | simp only [keeps_mk]
    | intro _
    | split
    | dsimp only [id])

theorem execChmsg_keeps {s0 : State} {h : TrayHdr} {msg : List Byte} {s : State}  {tt : State} (hk : Keeps s0 s) (eq_ : execChmsg h msg s = .next tt) : Keeps s0 tt := by
  unfold execChmsg at eq_
  repeat' (first | split at eq_ | dsimp only at eq_)
  all_goals (first | (injection eq_ with eq_; subst eq_) | (cases eq_))
  repeat' (first
    | with_reducible assumption
    | with_reducible apply homeArrive_keeps
    | with_reducible refine keeps_ite ?_ ?_
    | with_reducible apply keepsParts_of
    | simp only [keeps_mk]
    | intro _
    | split
    | dsimp only [id])

theorem execCommit_keeps {s0 : State} {h : TrayHdr} {q : ReqId} {newLen : Word} {step : Word} {u : WithReads RecordUpdate} {s : State} {tt : State} (hk : Keeps s0 s) (eq_ : execCommit h q newLen step u s = .next tt) : Keeps s0 tt := by
  unfold execCommit at eq_
  repeat' (first | split at eq_ | dsimp only at eq_)
  all_goals (first | (injection eq_ with eq_; subst eq_) | (cases eq_))
  repeat' (first
    | with_reducible assumption
    | with_reducible apply homeArrive_keeps
    | with_reducible refine keeps_ite ?_ ?_
    | with_reducible apply keepsParts_of
    | simp only [keeps_mk]
    | intro _
    | split
    | dsimp only [id])

theorem execSealDigest_keeps {s0 : State} {h : TrayHdr} {q : ReqId} {layer : BitVec 16} {lpage : Word} {d : SealBody} {s : State} {tt : State} (hk : Keeps s0 s) (eq_ : execSealDigest h q layer lpage d s = .next tt) : Keeps s0 tt := by
  unfold execSealDigest at eq_
  repeat' (first | split at eq_ | dsimp only at eq_)
  all_goals (first | (injection eq_ with eq_; subst eq_) | (cases eq_))
  repeat' (first
    | with_reducible assumption
    | with_reducible apply homeArrive_keeps
    | with_reducible refine keeps_ite ?_ ?_
    | with_reducible apply keepsParts_of
    | simp only [keeps_mk]
    | intro _
    | split
    | dsimp only [id])

theorem execOwnerFwd_keeps {s0 : State} {h : TrayHdr} {q : ReqId} {word : DWord} {s : State}  {tt : State} (hk : Keeps s0 s) (eq_ : execOwnerFwd h q word s = .next tt) : Keeps s0 tt := by
  unfold execOwnerFwd at eq_
  repeat' (first | split at eq_ | dsimp only at eq_)
  all_goals (first | (injection eq_ with eq_; subst eq_) | (cases eq_))
  repeat' (first
    | with_reducible assumption
    | with_reducible apply homeArrive_keeps
    | with_reducible refine keeps_ite ?_ ?_
    | with_reducible apply keepsParts_of
    | simp only [keeps_mk]
    | intro _
    | split
    | dsimp only [id])

theorem execMapWrite_keeps {s0 : State} {h : TrayHdr} {q : ReqId} {off : Word} {bytes : List Byte} {s : State}  {tt : State} (hk : Keeps s0 s) (eq_ : execMapWrite h q off bytes s = .next tt) : Keeps s0 tt := by
  unfold execMapWrite at eq_
  repeat' (first | split at eq_ | dsimp only at eq_)
  all_goals (first | (injection eq_ with eq_; subst eq_) | (cases eq_))
  repeat' (first
    | with_reducible assumption
    | with_reducible apply homeArrive_keeps
    | with_reducible refine keeps_ite ?_ ?_
    | with_reducible apply keepsParts_of
    | simp only [keeps_mk]
    | intro _
    | split
    | dsimp only [id])

theorem execRecord_keeps {s0 : State} {h : TrayHdr} {q : ReqId} {u : RecordUpdate} {s : State}  {tt : State} (hk : Keeps s0 s) (eq_ : execRecord h q u s = .next tt) : Keeps s0 tt := by
  unfold execRecord at eq_
  repeat' (first | split at eq_ | dsimp only at eq_)
  all_goals (first | (injection eq_ with eq_; subst eq_) | (cases eq_))
  repeat' (first
    | with_reducible assumption
    | with_reducible apply homeArrive_keeps
    | with_reducible refine keeps_ite ?_ ?_
    | with_reducible apply keepsParts_of
    | simp only [keeps_mk]
    | intro _
    | split
    | dsimp only [id])

theorem execDrop_keeps {s0 : State} {h : TrayHdr} {q : ReqId} {s : State}  {tt : State} (hk : Keeps s0 s) (eq_ : execDrop h q s = .next tt) : Keeps s0 tt := by
  unfold execDrop at eq_
  repeat' (first | split at eq_ | dsimp only at eq_)
  all_goals (first | (injection eq_ with eq_; subst eq_) | (cases eq_))
  repeat' (first
    | with_reducible assumption
    | with_reducible apply homeArrive_keeps
    | with_reducible refine keeps_ite ?_ ?_
    | with_reducible apply keepsParts_of
    | simp only [keeps_mk]
    | intro _
    | split
    | dsimp only [id])

theorem execPage_keeps {s0 : State} {h : TrayHdr} {p : PagePart} {s : State}  {tt : State} (hk : Keeps s0 s) (eq_ : execPage h p s = .next tt) : Keeps s0 tt := by
  unfold execPage at eq_
  repeat' (first | split at eq_ | dsimp only at eq_)
  all_goals (first | (injection eq_ with eq_; subst eq_) | (cases eq_))
  repeat' (first
    | with_reducible assumption
    | with_reducible apply homeArrive_keeps
    | with_reducible refine keeps_ite ?_ ?_
    | with_reducible apply keepsParts_of
    | simp only [keeps_mk]
    | intro _
    | split
    | dsimp only [id])

theorem execCkpt_keeps {s0 : State} {h : TrayHdr} {n : Word} {cursor : ReqId} {page : Word} {s : State}  {tt : State} (hk : Keeps s0 s) (eq_ : execCkpt h n cursor page s = .next tt) : Keeps s0 tt := by
  unfold execCkpt at eq_
  repeat' (first | split at eq_ | dsimp only at eq_)
  all_goals (first | (injection eq_ with eq_; subst eq_) | (cases eq_))
  repeat' (first
    | with_reducible assumption
    | with_reducible apply homeArrive_keeps
    | with_reducible refine keeps_ite ?_ ?_
    | with_reducible apply keepsParts_of
    | simp only [keeps_mk]
    | intro _
    | split
    | dsimp only [id])

theorem execSilverSetup_keeps {s0 : State} {h : TrayHdr} {qs : List QuotaCopy} {ls : List LatentSlotCopy} {s : State}  {tt : State} (hk : Keeps s0 s) (eq_ : execSilverSetup h qs ls s = .next tt) : Keeps s0 tt := by
  unfold execSilverSetup at eq_
  repeat' (first | split at eq_ | dsimp only at eq_)
  all_goals (first | (injection eq_ with eq_; subst eq_) | (cases eq_))
  repeat' (first
    | with_reducible assumption
    | with_reducible apply silverSetup_keeps
    | with_reducible apply homeArrive_keeps
    | with_reducible refine keeps_ite ?_ ?_
    | with_reducible apply keepsParts_of
    | simp only [keeps_mk]
    | intro _
    | split
    | dsimp only [id])

theorem execOwnerWordCas_keeps {s0 : State} {h : TrayHdr} {q : ReqId} {cmp : DWord} {new : DWord} {s : State} {tt : State} (hk : Keeps s0 s) (eq_ : execOwnerWordCas h q cmp new s = .next tt) : Keeps s0 tt := by
  unfold execOwnerWordCas at eq_
  repeat' (first | split at eq_ | dsimp only at eq_)
  all_goals (first | (injection eq_ with eq_; subst eq_) | (cases eq_))
  repeat' (first
    | with_reducible assumption
    | with_reducible apply homeArrive_keeps
    | with_reducible apply atomicWaits_keeps
    | with_reducible refine keeps_ite ?_ ?_
    | with_reducible apply keepsParts_of
    | simp only [keeps_mk]
    | intro _
    | split
    | dsimp only [id])

theorem execCredit_keeps {s0 : State} {h : TrayHdr} {count : Word} {s : State}  {tt : State} (hk : Keeps s0 s) (eq_ : execCredit h count s = .next tt) : Keeps s0 tt := by
  unfold execCredit at eq_
  repeat' (first | split at eq_ | dsimp only at eq_)
  all_goals (first | (injection eq_ with eq_; subst eq_) | (cases eq_))
  repeat' (first
    | with_reducible assumption
    | with_reducible apply unlessFenced_keeps
    | with_reducible apply creditAt_keeps
    | with_reducible refine keeps_ite ?_ ?_
    | with_reducible apply keepsParts_of
    | simp only [keeps_mk]
    | intro _
    | split
    | dsimp only [id])

theorem execLstate_keeps {s0 : State} {h : TrayHdr} {links : BitVec 15} {role : Byte} {model : Digest} {s : State}  {tt : State} (hk : Keeps s0 s) (eq_ : execLstate h links role model s = .next tt) : Keeps s0 tt := by
  unfold execLstate at eq_
  repeat' (first | split at eq_ | dsimp only at eq_)
  all_goals (first | (injection eq_ with eq_; subst eq_) | (cases eq_))
  repeat' (first
    | with_reducible assumption
    | with_reducible apply unlessFenced_keeps
    | with_reducible apply lstateAt_keeps
    | with_reducible refine keeps_ite ?_ ?_
    | with_reducible apply keepsParts_of
    | simp only [keeps_mk]
    | intro _
    | split
    | dsimp only [id])

theorem execResp_keeps {s0 : State} {h : TrayHdr} {payload : WithReads (List Byte)} {s : State} {tt : State} (hk : Keeps s0 s) (eq_ : execResp h payload s = .next tt) : Keeps s0 tt := by
  unfold execResp at eq_
  repeat' (first | split at eq_ | dsimp only at eq_)
  all_goals (first | (injection eq_ with eq_; subst eq_) | (cases eq_))
  repeat' (first
    | with_reducible assumption
    | with_reducible apply respAt_keeps
    | with_reducible apply unlessFenced_keeps
    | with_reducible refine keeps_ite ?_ ?_
    | with_reducible apply keepsParts_of
    | simp only [keeps_mk]
    | intro _
    | split
    | dsimp only [id])

theorem execTrayResponseTimeout_keeps {s0 : State} {d : Slot} {seq : Word} {s : State}  {tt : State} (hk : Keeps s0 s) (eq_ : execTrayResponseTimeout d seq s = .next tt) : Keeps s0 tt := by
  unfold execTrayResponseTimeout at eq_
  repeat' (first | split at eq_ | dsimp only at eq_)
  all_goals (first | (injection eq_ with eq_; subst eq_) | (cases eq_))
  repeat' (first
    | with_reducible assumption
    | with_reducible apply unlessFenced_keeps
    | with_reducible apply noResponse_keeps
    | with_reducible refine keeps_ite ?_ ?_
    | with_reducible apply keepsParts_of
    | simp only [keeps_mk]
    | intro _
    | split
    | dsimp only [id])

theorem execTrayForward_keeps {s0 : State} {p : FwdPacket} {s : State} {tt : State} (hk : Keeps s0 s) (eq_ : execTrayForward p s = .next tt) : Keeps s0 tt := by
  unfold execTrayForward at eq_
  repeat' (first | split at eq_ | dsimp only at eq_)
  all_goals (first | (injection eq_ with eq_; subst eq_) | (cases eq_))
  repeat' (first
    | with_reducible assumption
    | with_reducible apply forwardAt_keeps
    | with_reducible apply unlessFenced_keeps
    | with_reducible refine keeps_ite ?_ ?_
    | with_reducible apply keepsParts_of
    | simp only [keeps_mk]
    | intro _
    | split
    | dsimp only [id])

theorem nearFollow_keeps {s0 : State} {k : Nat} {off : Bool} {s : State}  (hk : Keeps s0 s) :
    Keeps s0 (nearFollow k off s) := by
  unfold nearFollow
  repeat' (first
    | with_reducible assumption
    | with_reducible apply linkUpd_keeps
    | with_reducible refine keeps_ite ?_ ?_
    | with_reducible apply keepsParts_of
    | simp only [keeps_mk]
    | intro _
    | split
    | dsimp only [id])

theorem nearDisableSet_keeps {s0 : State} {v : Word} {s : State}  (hk : Keeps s0 s) :
    Keeps s0 (nearDisableSet v s) := by
  unfold nearDisableSet
  repeat' (first
    | with_reducible assumption
    | with_reducible apply foldl_keeps
    | with_reducible apply foldl_keeps_fst
    | with_reducible apply foldl_keeps_snd
    | with_reducible apply creditsRepath_keeps
    | with_reducible apply nearDrained_keeps
    | with_reducible apply sendLstate_keeps
    | with_reducible apply nearFollow_keeps
    | with_reducible refine keeps_ite ?_ ?_
    | with_reducible apply keepsParts_of
    | simp only [keeps_mk]
    | intro _
    | split
    | dsimp only [id])

theorem execNearDisable_keeps {s0 : State} {fn : FnId} {v : Word} {s : State}  {tt : State} (hk : Keeps s0 s) (eq_ : execNearDisable fn v s = .next tt) : Keeps s0 tt := by
  unfold execNearDisable at eq_
  repeat' (first | split at eq_ | dsimp only at eq_)
  all_goals (first | (injection eq_ with eq_; subst eq_) | (cases eq_))
  repeat' (first
    | with_reducible assumption
    | with_reducible apply nearDisableSet_keeps
    | with_reducible refine keeps_ite ?_ ?_
    | with_reducible apply keepsParts_of
    | simp only [keeps_mk]
    | intro _
    | split
    | dsimp only [id])

theorem nearClear_keeps {s0 : State} {s : State}  (hk : Keeps s0 s) :
    Keeps s0 (nearClear s) := by
  unfold nearClear
  repeat' (first
    | with_reducible assumption
    | with_reducible refine keeps_ite ?_ ?_
    | with_reducible apply keepsParts_of
    | simp only [keeps_mk]
    | intro _
    | split
    | dsimp only [id])

theorem execNearClr_keeps {s0 : State} {w : CtlWrite} {s : State}  {tt : State} (hk : Keeps s0 s) (eq_ : execNearClr w s = .next tt) : Keeps s0 tt := by
  unfold execNearClr at eq_
  repeat' (first | split at eq_ | dsimp only at eq_)
  all_goals (first | (injection eq_ with eq_; subst eq_) | (cases eq_))
  repeat' (first
    | with_reducible assumption
    | with_reducible apply nearClear_keeps
    | with_reducible apply ctl_keeps
    | with_reducible refine keeps_ite ?_ ?_
    | with_reducible apply keepsParts_of
    | simp only [keeps_mk]
    | intro _
    | split
    | dsimp only [id])

end Sys2Proof.Machine
end

