-- ==== Sys2Proof/Tests/Slice0.lean ====
section
/-!
SUPPORT. Tests: ill-formed commands are refused, the table's words spell no command, small runs of one step, and a witness
for the hypotheses of every statement.
-/

namespace Sys2Proof.Tests

open Sys2Proof Sys2Proof.Machine

/-! ### ControlCommandsMoveOn -/

/-- Cluster 0 runs a program and can issue. -/
def running : State := { clusters := [(0, { state := 2, ctx := some 0 })], maint := { claims := [0] } }

theorem witness_ControlCommandsMoveOn : canIssue running (0 : ClusterId).toNat = true := by decide

/-! ### LoopLdaLiveTakeEffect -/

theorem witness_LoopLdaLiveTakeEffect : canIssue running 0 = true ∧ (cluster running 0).loops.length < 4
    ∧ (areg (cluster running 0) 0 + (0x01000FFC : Word)).toNat / 65536 = 0x100
    ∧ ((areg (cluster running 0) 0 + (0x01000FFE : Word)).toNat) % 4 ≠ 0
    ∧ (1024 * 1024 + (1023 + 1) * 1024 ≤ 2 ^ 21) ∧ (cluster running 0).live = [] ∧ streamsSeen (cluster running 0) = [] := by decide

/-! ### WaitchOutcomes -/

/-- A receive channel of four slots with one message. -/
def chanIn : Chan :=
  { entry := { send := false, tagCheck := false, peer := .local_ 0 0, slotBytes := 64, slots := 4, buf := 0x2000, chan := 3, waited := false }, credits := 0, queue := [[1]], slot := 1
    broken := none, ahead := [], order := 0 }

/-- Cluster 0 runs a program and has that channel. -/
def listening : State := { running with clusters := [(0, { state := 2, ctx := some 0, chans := [(3, chanIn)] })] }

theorem witness_WaitchOutcomes : canIssue listening 0 = true ∧ (cluster listening 0).press = []
    ∧ channel listening 0 3 = some chanIn ∧ chanIn.entry.send = false ∧ chanIn.broken = none
    ∧ (1 : Byte).toNat ≤ chanIn.queue.length ∧ ¬ (4 : Byte).toNat ≤ chanIn.queue.length
    ∧ (4 : Byte).toNat ≤ chanIn.entry.slots := by decide

/-! ### WorkQueueCommands -/

theorem witness_WorkQueueCommands : canIssue running 0 = true ∧ (cluster running 0).press = []
    ∧ (cluster running 0).wqItems = [] ∧ Tab.getD running.sched.waiting 0 [] = [] ∧ (statusOf 0x00).isSome = true := by decide

/-! ### IdleStepIsTick -/

theorem witness_IdleStepIsTick : State.reset.pending = [] ∧ State.reset.repro.slewLeft = 0 ∧ State.reset.maint.ballast = false
    ∧ (let m (cs : List Nat) (n : Nat) : State := { maint := { ballast := true, claims := cs, portSteps := n }, tb := 20 }
      stepFree (m [7, 3] 2) = true ∧ 3 ∈ (m [7, 3] 2).maint.claims ∧ (∀ n ∈ (m [7, 3] 2).maint.claims, 3 ≤ n) ∧ stepFree (m [] 2) = true
        ∧ (m [] 2).maint.portSteps ≠ 0 ∧ (m [] 0).maint.claims = [] ∧ (m [] 0).maint.portSteps = 0
        ∧ stepFree { m [] 0 with maint := { (m [] 0).maint with lastStep := some 10 } } = false
        ∧ ({ m [] 0 with maint := { (m [] 0).maint with after := .reset 3 false false } } : State).maint.after = .reset 3 false false) := by decide

/-! ### StepKeepsTmr -/

theorem witness_StepKeepsTmr : State.reset.tmrOk = true ∧ step State.reset = .next { State.reset with tb := State.reset.tb + 1 } :=
  ⟨by decide, rfl⟩

/-! ### StepKeepsMemory -/

theorem witness_StepKeepsMemory : State.reset.memOk = true ∧ step State.reset = .next { State.reset with tb := State.reset.tb + 1 } :=
  ⟨by decide, rfl⟩

/-! ### CommandFrames -/

theorem witness_CommandFrames : ∃ t, exec (.seta 0 3 7) running = .next t ∧ t ≠ running := ⟨_, rfl, by decide⟩

/-! ### StopsOnlyOnInvalidWords -/

/-- Cluster 0 is inside four loops. -/
def looping : State :=
  { running with clusters := [(0, { state := 2, ctx := some 0, loops := [(0, 9, 2), (0, 9, 2), (0, 9, 2), (0, 9, 2)] })] }

theorem witness_StopsOnlyOnInvalidWords : canIssue looping 0 = true ∧ 4 ≤ (cluster looping 0).loops.length
    ∧ statusOf 0xEE = none := by decide

/-! ### MessageLifetimeEndsForReceiver -/

/-- The device serves; 90,000 ticks have passed. -/
def serving : State := { running with pair := { live := 1 }, tb := 90000 }

theorem witness_MessageLifetimeEndsForReceiver : fenced serving = false
    ∧ ({ (default : PodMsg) with hdr := { (default : PodHdr) with type := 1, firstTb := 10000 } } : PodMsg).hdr.firstTb.toNat + 80000
        ≤ serving.tb := by decide

/-! ### PaceWindow -/

theorem witness_PaceWindow : ¬ serving.tb / 65536 ≤ (cluster serving 0).paceAt / 65536
    ∧ State.reset.tb / 65536 ≤ (cluster State.reset 0).paceAt / 65536 := by decide

/-! ### DataMovesEnterThePress -/

/-- A tensor line in eight words: kind, space, format and rank 1, base, one dimension. -/
def line8 (space format dim base : Nat) : List Nat :=
  [1 + 256 * space + 65536 * format + 2 ^ 32, base, dim + 2 ^ 32, 1 + 2 ^ 32, 0, 0, 0, 0]

/-- A descriptor header in eight words: VERSION 2, the lines, SUBOP, MAX_BEATS 100,000, and the first words of PARAMS. -/
def head8 (lines subop : Nat) (ps : List Nat) : List Nat :=
  ([2 + 256 * lines + 65536 * subop + 100000 * 2 ^ 32] ++ ps ++ List.replicate 7 0).take 8

/-- Cluster 0 runs a program whose command store begins with a descriptor; channel 4 sends, with credits. -/
def withDesc (ws : List Nat) : State :=
  { running with clusters := [(0, { state := 2, ctx := some 0
                                    store := ((List.range ws.length).map (fun i => (i, BitVec.ofNat 64 (ws.getD i 0))))
                                    chans := [(3, chanIn), (4, { chanIn with entry := { chanIn.entry with send := true }, credits := 4, queue := [] })] })] }

/-- The command whose descriptor is that one. -/
def descCmd : PressCmd := { (default : PressCmd) with offset := 0x02000000, reads := .good }
theorem witness_DataMovesEnterThePress_opLoad : (pressRun opLoad descCmd (withDesc (head8 2 0 [] ++ line8 0 9 4 0 ++ line8 0 9 4 1024))).isSome = true := by decide
theorem witness_DataMovesEnterThePress_opStore : (pressRun opStore descCmd (withDesc (head8 2 0 [] ++ line8 0 9 4 0 ++ line8 2 9 4 0x3000))).isSome = true := by decide
theorem witness_DataMovesEnterThePress_opStreamArm : (pressRun opStreamArm descCmd (withDesc (head8 1 0 [2 ^ 16 + 512 * 2 ^ 32, 1024 + 512 * 2 ^ 32] ++ line8 0 9 128 0))).isSome = true := by decide
theorem witness_DataMovesEnterThePress_opStreamStop : (pressRun opStreamStop descCmd (withDesc (head8 1 1 [] ++ line8 0 9 4 0))).isSome = true := by decide

/-! ### EngineCommandsEnterThePress -/

theorem witness_EngineCommandsEnterThePress_opMatmul : (pressRun opMatmul descCmd (withDesc (head8 3 0 [] ++ line8 0 7 4 0 ++ line8 0 7 4 64 ++ line8 1 9 1 0))).isSome = true := by decide
theorem witness_EngineCommandsEnterThePress_opVector : (pressRun opVector descCmd (withDesc (head8 2 4 [] ++ line8 0 9 2 0 ++ line8 0 9 2 1024))).isSome = true := by decide
theorem witness_EngineCommandsEnterThePress_opNorm : (pressRun opNorm descCmd (withDesc (head8 3 0 [] ++ line8 0 9 2 0 ++ line8 0 9 2 64 ++ line8 0 9 2 1024))).isSome = true := by decide
theorem witness_EngineCommandsEnterThePress_opReduce : (pressRun opReduce descCmd (withDesc (head8 2 0 [] ++ line8 0 9 2 0 ++ line8 0 9 2 1024))).isSome = true := by decide
theorem witness_EngineCommandsEnterThePress_opTopk : (pressRun opTopk descCmd (withDesc (head8 3 0 [] ++ line8 0 9 4 0 ++ line8 0 10 1 1024 ++ line8 0 9 1 2048))).isSome = true := by decide
theorem witness_EngineCommandsEnterThePress_opConvert : (pressRun opConvert descCmd (withDesc (head8 2 0 [0x3F800000] ++ line8 1 9 4 0 ++ line8 0 7 4 0))).isSome = true := by decide
theorem witness_EngineCommandsEnterThePress_opGather : (pressRun opGather descCmd (withDesc (head8 3 0 [] ++ line8 0 9 4 0 ++ line8 0 10 1 64 ++ line8 0 9 4 1024))).isSome = true := by decide
theorem witness_EngineCommandsEnterThePress_opDigest : (pressRun opDigest descCmd (withDesc (head8 1 0 [] ++ line8 0 9 4 0))).isSome = true := by decide

/-! ### ChannelAndAttendCommandsEnterThePress -/

/-- The same with a forme committed. -/
def withForme (ws : List Nat) : State := { withDesc ws with forme := { committed := some default } }

theorem witness_ChannelAndAttendCommandsEnterThePress_send :
    (pressRun opSend descCmd (withDesc (head8 2 0 [] ++ line8 0 9 4 0 ++ line8 9 0 0 4))).isSome = true := by decide

theorem witness_ChannelAndAttendCommandsEnterThePress_recv :
    (pressRun opRecv descCmd (withForme (head8 2 0 [] ++ line8 9 0 0 3 ++ line8 0 9 4 0))).isSome = true := by decide

theorem witness_ChannelAndAttendCommandsEnterThePress_attend :
    (pressRun (opAttend .good) descCmd (withForme (head8 4 0 [2 ^ 16 + 16 * 2 ^ 32, 0x3F800000 * 2 ^ 32,
        7 + 9 * 2 ^ 16 + 2 ^ 32, 0, 0x3F800000 + 0x3F800000 * 2 ^ 32, 64, 0]
      ++ line8 0 7 16 0 ++ line8 0 7 16 2048 ++ [1 + 65536 * 9 + 3 * 2 ^ 32, 4096, 16 + 2 ^ 32, 1 + 2 ^ 32, 128 * 2 ^ 32, 0, 0, 0]
      ++ [1 + 65536 * 10 + 2 * 2 ^ 32, 8192, 8 + 2 ^ 32, 1 + 2 ^ 32, 32, 0, 0, 0]))).isSome = true := by decide

/-! ### CompletionAppliesEffects -/

/-- One command in flight that writes the mailbox. -/
def flying : InFlight :=
  { index := 0, opcode := 0x20, flags := 0x10, maxBeats := 40, effs := [.accZ, .mailW 0x1000 [7], .meter 0 0 0], tables := [] }

def inPress : State := { running with clusters := [(0, { state := 2, ctx := some 0, press := [flying] })] }

theorem witness_CompletionAppliesEffects : (cluster inPress 0).press = flying :: []
    ∧ flying.effs = [.accZ, .mailW 0x1000 [7], .meter 0 0 0] ∧ flying.maxBeats < 41 := by decide

/-! ### TierCommands -/

/-- READY, linked and in service: the PF's blocks are live. -/
def ready : State :=
  { serving with dev := { (State.reset.dev) with ready := true }, host := { linkUp := true }
                 maint := { serving.maint with board := none }, sec := { boot := 1 } }

/-- A write of the PF that sets one command bit, or two. -/
def cmd (n : Nat) : CtlWrite := { fn := 0, value := BitVec.ofNat 32 (2 ^ n + 2 ^ (n + 16)) }

theorem witness_TierCommands : ready.tier.busy = false ∧ Commands (cmd 0) false [0, 1, 2, 3] 0 ready
    ∧ Commands (cmd 1) false [0, 1, 2, 3] 1 ready ∧ Commands (cmd 2) false [0, 1, 2, 3] 2 ready
    ∧ Commands (cmd 3) false [0, 1, 2, 3] 3 ready := by unfold Commands; decide

/-! ### CodecCommands -/

theorem witness_CodecCommands : ready.codec.busy = false ∧ Commands (cmd 0) false [0, 1, 2] 0 ready
    ∧ Commands (cmd 1) false [0, 1, 2] 1 ready ∧ Commands (cmd 2) false [0, 1, 2] 2 ready
    ∧ writeCheck ready = .denied ∧ switchCheck ready = .malformed := by unfold Commands; decide

/-- A generation node whose partition 2 declares table 5 as its LATENT_TABLE; slot A holds sixteen codes of four bits. -/
def coding : State :=
  let part : EntropySect := { (default : EntropySect) with
    latentTable := 5, entries := [{ (default : EntropyEntry) with table := 5, format := 1 }] }
  let forme : Committed := { (default : Committed) with entropy := [(2, part)] }
  { ready with
    forme := { committed := some forme }
    codec := { sel := 5 + 2 ^ 16 + 2 * 2 ^ 24, len := [0x44444444, 0x44444444] ++ List.replicate 30 0
               slots := [(slotKey 2 5 false, { valid := true })] } }

set_option maxRecDepth 8000 in
theorem witness_CodecCommands_apply : (declares coding (selTable coding)) = [(2, 1)] ∧ switchCheck coding = .ok
    ∧ writeCheck { coding with codec := { coding.codec with sel := coding.codec.sel ||| 0x400 } } = .ok := by decide

set_option maxRecDepth 8000 in
theorem witness_CodecCommands_ask : let k : CodecAsk := { (default : CodecAsk) with part := 2, table := 5, slotB := true, format := 4, lengths := [] }
    let s : State := { coding with forme := { coding.forme with committed := coding.forme.committed.map (fun c =>
      { c with header := { c.header with role := 3 } }) } }
    isLatent s k.table = true ∧ roleOf s = 3 := by decide

/-! ### ClearCommands -/

theorem witness_ClearCommands : Commands (cmd 0) false [0] 0 ready ∧ Commands (cmd 2) false [0, 1, 2] 2 ready
    ∧ Commands (cmd 5) false [0, 1, 2, 3, 4, 5] 5 ready ∧ Commands (cmd 1) false [0, 1] 1 ready
    ∧ Commands (cmd 6) false [5, 6] 6 ready ∧ Commands (cmd 4) true [0, 1, 2, 3, 4] 4 ready ∧ Commands (cmd 2) true [0, 1, 2] 2 ready
    ∧ ready.req.busy = false ∧ ready.pair.busy = false ∧ ready.rma.busy = false ∧ ready.sched.busy = false
    ∧ ready.sec.busy = false ∧ ready.sec.boot = 1 ∧ ready.maint.busy = false := by unfold Commands; decide

/-! ### SettingsTakeTheirWrite -/

/-- A write of the PF that puts 1 into setting bit `n` alone. -/
def setting (n : Nat) : CtlWrite := cmd n

theorem witness_SettingsTakeTheirWrite : pfLive ready 0 false = true ∧ ctlCommands (setting 1) [0] = []
    ∧ ctlCommands (setting 3) [0, 1, 2] = [] ∧ ctlCommands (setting 2) [0, 1] = [] ∧ answers ready 0 = true ∧ ready.dev.ready = true
    ∧ ctlSetting (setting 2) 2 (fnHost ready 0).faultEn = true ∧ (fnHost ready 0).faultEn = false ∧ field (fnHost ready 0).faultSize.toNat 4 0 < 6
    ∧ ctlSetting (setting 1) 2 (fnHost ready 0).faultEn = (fnHost ready 0).faultEn := by decide

theorem witness_SettingsTakeTheirWrite_ring : let s : State := fnUpd 0 (fun h => { h with faultSize := 6 }) ready
    answers s 0 = true ∧ (fnHost s 0).faultWait = [] ∧ (fnHost s 0).faultLo.toNat % 4096 = 0 ∧ 6 ≤ field (fnHost s 0).faultSize.toNat 4 0
    ∧ traceReady { ready with repro := { ready.repro with traceSize := 10 } } = true ∧ ready.repro.trace = false := by decide

/-! ### ControlProtocol -/

theorem witness_ControlProtocol : ready.dev.ready = true ∧ answers ready 0 = true
    ∧ 2 ≤ (ctlCommands { fn := 0, value := 0x00030003 } [0, 1]).length ∧ 2 ≤ (ctlCommands { fn := 0, value := 0x00030003 } [0, 1, 2]).length
    ∧ 2 ≤ (ctlCommands { fn := 0, value := 0x00030003 } [0, 1, 2, 3, 4, 5]).length ∧ ctlCommands (cmd 1) [0, 1, 2] = [1]
    ∧ ctlCommands (cmd 2) [0, 1, 2, 3] = [2] ∧ ctlCommands (cmd 2) [0, 1, 2, 3, 4] = [2] ∧ ctlCommands (cmd 0) [0, 1, 2, 3, 4, 5] = [0]
    ∧ ctlCommands (cmd 0) [0, 1] = [0] ∧ ctlCommands (cmd 1) [0, 1] = [1]
    ∧ ({ ready with links := { ready.links with pending := some 5 } } : State).links.pending.isSome = true ∧ (cmd 0).fn = 0 ∧ (0x0000FFFF : Word).toNat / 65536 = 0
    ∧ answers { ready with sched := { ready.sched with busy := true }, tier := { ready.tier with busy := true }, sec := { ready.sec with busy := true }, pair := { ready.pair with busy := true } } 0 = true := by
  decide

/-! ### MapCommands -/

theorem witness_MapCommands : ready.pair.busy = false ∧ Commands (cmd 2) false [0, 1, 2, 3, 4, 5] 2 ready
    ∧ Commands (cmd 3) false [0, 1, 2, 3, 4, 5] 3 ready ∧ (∀ d : Nat, d < 16 → stagedRole ready d = 0)
    ∧ mapCurrent (mapPrune ready) = none := by unfold Commands; decide

/-- A generation node with a staged map of epoch 1 that gives it its role. -/
def mapping : State :=
  let forme : Committed := { (default : Committed) with header := { (default : FormeHeader) with role := 2 } }
  { ready with
    forme := { committed := some forme, state := 3 }
    pair := { ready.pair with mapEpoch := 1, mapSlot := [(0, 2)] } }

set_option maxRecDepth 8000 in
theorem witness_MapCommands_install : roleOf mapping = 2 ∧ stagedRole mapping (mySlot mapping).toNat = 2
    ∧ ¬ (∀ d : Nat, d < 16 → stagedRole mapping d = 0) ∧ pairingBroken mapping = false ∧ mapping.pair.maps = [] := by decide

theorem witness_MapCommands_lease : ∃ m ∈ ({ ready with
    pair := { ready.pair with maps := [{ epoch := 1, roles := [], leaseEnd := 0, current := false }] } } : State).pair.maps,
    m.epoch = 1 ∧ m.leaseEnd ≤ ready.tb := by decide

/-! ### LivenessCommands -/

/-- A live device with SL up, a RENEW outstanding, and its lease expired; and the same device before its admission. -/
def leased : State :=
  { ready with
    links := { links := [(31, { state := 2 })] }
    pair := { ready.pair with live := 1, renews := [(1, 0)] } }
def asking : State :=
  { ready with
    links := { links := [(31, { state := 2 })] }
    repro := { ready.repro with aligned := true }
    pair := { ready.pair with live := 0, admits := [(1, 0)] } }

theorem witness_LivenessCommands : leased.pair.live = 1 ∧ leased.pair.expiry ≤ leased.tb ∧ slUp leased = true
    ∧ leased.maint.pwrgd = true ∧ leased.maint.silent = false ∧ leased.pair.lastRenew = none
    ∧ leased.pair.renews.find? (fun r => r.1 == (1 : Word).toNat) = some ((1 : Word).toNat, 0)
    ∧ Commands (cmd 4) false [0, 1, 2, 3, 4, 5] 4 leased ∧ leased.pair.busy = false ∧ (5 : DevId) ≠ myDev leased := by unfold Commands; decide
theorem witness_LivenessCommands_asking : asking.pair.live ≠ 1 ∧ slUp asking = true ∧ asking.repro.aligned = true
    ∧ asking.maint.pwrgd = true ∧ asking.maint.silent = false ∧ asking.pair.lastRenew = none ∧ (0 : DevId) = myDev asking
    ∧ asking.pair.admits.find? (fun r => r.1 == (1 : Word).toNat) = some ((1 : Word).toNat, 0) := by decide

/-! ### BringInCommands -/

/-- A live cache node in slot 0 whose partner stands in slot 1, in pair state `st`. -/
def pairing (st : BitVec 4) : State :=
  let forme : Committed := { (default : Committed) with
    header := { (default : FormeHeader) with role := 3 }, role := { (default : RoleParams) with partner := [1, 0] } }
  { ready with
    forme := { committed := some forme, state := 3 }
    pair := { ready.pair with live := 1, state := st, excl := [(1, (false, 7))] } }

/-- A serving partner of the same base in pair state `st`. -/
def partner (st : BitVec 4) : PartnerView :=
  { live := true, formeState := 3, formeBase := 0, holdsGalley := false, state := st, secret := some 9 }

set_option maxRecDepth 8000 in
theorem witness_BringInCommands_meet : (pairing 1).pair.live = 1 ∧ partnerSlot (pairing 1) = some 1 ∧ (pairing 1).pair.state = 1
    ∧ excluded (pairing 1) (devOfSlot (pairing 1) 1).toNat = false ∧ (partner 2).formeBase = (pairing 1).forme.base
    ∧ (pairing 1).req.galleys = [] := by decide
set_option maxRecDepth 8000 in
theorem witness_BringInCommands : Commands (cmd 0) false [0, 1, 2, 3, 4, 5] 0 (pairing 3) ∧ (pairing 3).pair.busy = false
    ∧ Commands (cmd 1) false [0, 1, 2, 3, 4, 5] 1 (pairing 5) ∧ Tab.find (pairing 3).pair.excl (devOfSlot (pairing 3) 1).toNat = some (false, 7) := by
  unfold Commands; decide
theorem witness_BringInCommands_ckpt : (let s : State := { pairing 5 with pair := { (pairing 5).pair with sinceCkpt := 16384 } }
      s.pair.live = 1 ∧ s.pair.state = 5 ∧ s.pair.ckptAsked = none ∧ 16384 ≤ s.pair.sinceCkpt)
    ∧ (let s : State := { pairing 5 with pair := { (pairing 5).pair with ckptAsked := some 1 } }
      s.pair.live = 1 ∧ s.pair.state = 5 ∧ s.pair.ckptAsked = some (1 : Word).toNat) := by decide
theorem witness_BringInCommands_mirror : let o : TrayOut := { seq := 1, req := .drop hdr0 0, why := .mirror 0, via := none, sent := 0, counted := true, held := false }
    let s : State := { pairing 2 with near := { dst := [(1, { out := [o] })] } }
    s.pair.live = 1 ∧ (trayDst s (1 : Slot).toNat).out.find? (fun o => o.seq == (1 : Word).toNat) = some o ∧ mirroredWhy o.why = true ∧ o.held = false
      ∧ o.counted = true := by decide

/-! ### OwnerCommands -/

/-- An owner command in form, signed by key `k`, over the key 7 where it carries one. -/
def owning (op : Byte) (k : KeyId) (key : Option KeyId) (seq : DWord) : OwnerExec :=
  { w := cmd 0, storeOk := true
    cmd := { magic := 0x434F4E44, opcode := op, target := 0, device := Config.deviceDigest, storeSeq := seq, signer := k, argKey := 7
             value := 5, blockKey := key, lenOk := true, sig := { ed25519Ok := true, mlDsaOk := true, paddingZero := true }
             digest := 0, resv := 0 } }

/-- A device with the replay-protected store in order and the owners `ks`. -/
def owned (ks : List KeyId) : State := { ready with sec := { ready.sec with rpsOk := true, store := { owners := ks } } }

theorem witness_OwnerCommands : (owned []).sec.busy = false ∧ Commands (cmd 0) true [0, 1, 2, 3, 4] 0 (owned []) ∧ (owned []).sec.boot = 1
    ∧ ownerForm 1 (owning 1 7 (some 7) 0).cmd = true ∧ ownerForm 2 (owning 2 1 (some 7) 0).cmd = true
    ∧ ownerForm 3 (owning 3 1 none 0).cmd = true ∧ ownerForm 4 (owning 4 1 none 0).cmd = true
    ∧ ownerForm 5 (owning 5 1 none 1).cmd = true ∧ ownerForm 1 (owning 2 1 (some 7) 0).cmd = false
    ∧ (owned [1, 7]).sec.rpsOk = true ∧ (1 : KeyId) ∈ (owned [1, 7]).sec.store.owners ∧ (7 : KeyId) ∉ (owned [1]).sec.store.owners
    ∧ (owned [1]).sec.store.formeSvn.toNat < (owning 4 1 none 0).cmd.value.toNat := by unfold Commands; decide
theorem witness_OwnerCommands_device : (owning 1 7 (some 7) 0).cmd.device = Config.deviceDigest := rfl

/-! ### PodKeyAndTenantCommands -/

theorem witness_PodKeyAndTenantCommands : Commands (cmd 1) true [0, 1, 2, 3, 4] 1 ready ∧ Commands (cmd 2) true [0, 1, 2, 3, 4] 2 ready
    ∧ Commands (cmd 3) true [0, 1, 2, 3, 4] 3 ready ∧ ready.sec.busy = false ∧ ready.sec.boot = 1 ∧ ready.sec.podGen = none := by
  unfold Commands; decide
theorem witness_PodKeyAndTenantCommands_fetch : let s : State := { ready with sec := { ready.sec with fetch := some true, busy := true } }
    s.sec.podGen = none ∧ s.sec.fetch.isSome = true ∧ (0 : DevId) = s.sec.donor := by decide
theorem witness_PodKeyAndTenantCommands_send : let s : State := { ready with repro := { ready.repro with aligned := true, alignedAt := some 5 }, tb := 2 ^ 28 }
    s.repro.alignedAt = some 5 ∧ s.repro.aligned = true ∧ s.sec.podSend = false ∧ (5 / 2 ^ 28 + 1) * 2 ^ 28 ≤ s.tb := by decide

/-! ### SpdmCommands -/

theorem witness_SpdmCommands : answers ready 0 = true ∧ ready.sec.boot ≠ 0 ∧ ready.sec.boot = 1 ∧ ready.sec.spdm.algs = false
    ∧ ready.sec.spdm.caps = false ∧ ({ ready with sec := { ready.sec with boot := 2 } } : State).sec.boot ≠ 1
    ∧ answers { ready with sec := { ready.sec with spdm := { version := 0x13, caps := true, algs := true } } } 0 = true := by decide

/-! ### RingSetCommands -/

/-- The PF's ring set 0 with sizes and vector in range, in state `st`, with `taken` entries taken. -/
def ringed (st : BitVec 2) (taken : Nat) : State :=
  let set : RingSet := { sizes := 0x000A0606, vector := 8, state := st, taken := taken, unsignalled := some 0 }
  { ready with host := { ready.host with fns := [(0, { sets := [(0, set)] })] } }

theorem witness_RingSetCommands : answers (ringed 0 0) 0 = true ∧ (ringed 0 0).dev.ready = true
    ∧ (∀ i : Nat, i < 3 → (0 : BitVec 3).toNat.testBit i = ctlSetting (cmd 0) (8 + i) ((fnHost (ringed 0 0) 0).set.toNat.testBit i))
    ∧ ctlMasked (cmd 0) 2 = false ∧ (fnHost (ringed 0 0) 0).busy = false ∧ ctlCommands (cmd 0) [0, 1] = [0] ∧ ctlCommands (cmd 1) [0, 1] = [1]
    ∧ ctlMasked (cmd 1) 2 = false ∧ ringOk (ringSet (ringed 0 0) { fn := 0, set := 0 }) = true ∧ ringOk (ringSet ready { fn := 0, set := 0 }) = false
    ∧ (ringSet (ringed 1 1) { fn := 0, set := 0 }).state ≠ 0 ∧ (ringSet (ringed 1 1) { fn := 0, set := 0 }).taken ≠ 0
    ∧ (ringSet (ringed 0 0) { fn := 0, set := 0 }).held = [] ∧ (fnHost (ringed 0 0) 0).faultWait = []
    ∧ (∃ e ∈ (fnHost (ringed 0 0) 0).sets, holdoffDue (ringed 0 0) 8 e.2 = true) := by decide
theorem witness_RingSetCommands_doorbell : (let y := ringSet (ringed 1 0) { fn := 0, set := 0 }
      y.state = 1 ∧ ((64 : BitVec 16) - y.sqHead).toNat ≤ 2 ^ field y.sizes.toNat 3 0 ∧ 2 ^ field y.sizes.toNat 3 0 < ((65 : BitVec 16) - y.sqHead).toNat)
    ∧ (let s : State := { ready with rma := { ready.rma with qps := [(2, newQp 0 0 0 noBlock 0)] } }
      ∃ q, qpOf s (field (2 : Word).toNat 19 0) = some q ∧ q.ctx = 0 ∧ qpKind (field (2 : Word).toNat 19 0) = 0 ∧ q.ready = true
        ∧ ((3 : BitVec 16) - q.sendCons).toNat ≤ 2 ^ ({ noBlock with sendLog := 6 } : RingBlock).sendLog.toNat) := by
  refine ⟨by decide, newQp 0 0 0 noBlock 0, by decide⟩

/-! ### FunctionCommands -/

/-- A device with two VFs, a secure SPDM session and stream 3 keyed. -/
def virtual : State :=
  { ready with
    host := { ready.host with numVfs := 2, ide := [(3, { keyed := true, insecure := false, fn := 0 })] }
    sec := { ready.sec with spdm := { secure := true } } }

theorem witness_FunctionCommands : virtual.maint.pwrgd = true ∧ virtual.host.linkUp = true ∧ (1 : FnId).toNat ≤ virtual.host.numVfs
    ∧ (1 : FnId) ≠ 0 ∧ (1 : FnId).toNat ∉ virtual.host.d3 ∧ virtual.sec.spdm.secure = true ∧ (3 : BitVec 7).toNat ≤ 64
    ∧ Tab.find virtual.host.ide (3 : BitVec 7).toNat = some { keyed := true, insecure := false, fn := 0 }
    ∧ Tab.find virtual.host.tdi (1 : FnId).toNat ≠ some true ∧ answers virtual 0 = true ∧ virtual.dev.ready = true
    ∧ virtual.maint.perst = false ∧ virtual.sec.boot ≠ 0 ∧ halfRoom virtual 0 = true
    ∧ (1 : FnId).toNat ∈ ({ virtual with host := { virtual.host with flr := [1] } } : State).host.flr := by decide

/-! ### LinkTrainingCommands -/

/-- Link `n` alone, as `l`. -/
def linked (n : Nat) (l : Link) : State := { ready with links := { links := [(n, l)] } }

set_option maxRecDepth 20000 in
theorem witness_LinkTrainingCommands : (linked 20 {}).maint.pwrgd = true ∧ (linked 20 {}).sec.boot = 1 ∧ (link (linked 20 {}) (20 : LinkId).toNat).state = 0
    ∧ linkOff (linked 20 {}) (20 : LinkId).toNat = false ∧ (link (linked 20 {}) (20 : LinkId).toNat).authFail = false
    ∧ (link (linked 20 { state := 1, phase := 4 }) (20 : LinkId).toNat).state = 1 ∧ (link (linked 20 { state := 2 }) (20 : LinkId).toNat).rekeyAt = none
    ∧ mayEmit (linked 20 { state := 2 }) = true ∧ (link (linked 20 { state := 2 }) (20 : LinkId).toNat).retry.length < 256
    ∧ Commands (cmd 5) false [5, 6] 5 (linked 20 {})
    ∧ (∀ j : Nat, j < 5 → (0 : LinkId).toNat.testBit j = ctlSetting (cmd 5) j ((linked 20 {}).links.sel.toNat.testBit j))
    ∧ (link (linked 0 {}) (0 : LinkId).toNat).state.toNat ≤ 4 ∧ (0 : BitVec 16).toInt < 1200 ∧ 1300 ≤ (1300 : BitVec 16).toInt
    ∧ txRoom (linked 20 { state := 2 }) (20 : LinkId).toNat 1 = true
    ∧ 256 ≤ (link (linked 20 { state := 2, retry := List.replicate 256 0 }) (20 : LinkId).toNat).retry.length
    ∧ ({ below := some 0 } : Laser).below.getD 9 + 6250 ≤ 7000 := by
  unfold Commands; decide
theorem witness_LinkTrainingCommands_phase : let r : PhaseResult := { (default : PhaseResult) with link := 20, farPlane := 5, planeCert := true }
    r.link = 20 ∧ attested (linked 20 { state := 1, phase := 5 }) (20 : LinkId).toNat r = true ∧ r.farPlane = (20 : LinkId).toNat - 15
    ∧ attested (linked 20 { state := 1, phase := 5 }) (20 : LinkId).toNat { r with planeCert := false } = false
    ∧ (let at_ (n : BitVec 4) (t : Nat) : State := { linked 20 { state := 1, phase := n, keyed := true } with tb := t }
      ¬ (link (at_ 1 0) 20).phaseAt + phaseBound (link (at_ 1 0) 20).phase.toNat * 625000 ≤ (at_ 1 0).tb
        ∧ (link (at_ 6 5000000) 20).phaseAt + phaseBound (link (at_ 6 5000000) 20).phase.toNat * 625000 ≤ (at_ 6 5000000).tb
        ∧ 1400 ≤ (1600 : BitVec 16).toInt ∧ (1600 : BitVec 16).toInt ≤ 1800 ∧ (link (at_ 6 0) 20).keyed = true
        ∧ mayEmit (at_ 5 0) = true ∧ txRoom (at_ 5 0) 20 1 = true) := by decide

/-! ### LinkDisableWrites -/

theorem witness_LinkDisableWrites : pfLive (linked 20 { state := 2 }) 0 false = true := by decide

/-! ### LinkFrames -/

/-- A frame on link 20 that passes every check, and its links. -/
def frame20 : Frame := { (default : Frame) with
  link := 20, fecUnc := 0, crcOk := true, tagOk := true, segments := [{ cls := 2, first := true, last := true, bytes := 64 }] }

theorem witness_LinkFrames : let l : Link := link (linked 20 { state := 2, retry := [0, 1], rekeyAt := some 0 }) frame20.link.toNat
    l.state = 2 ∧ frame20.fecUnc = 0 ∧ frame20.crcOk = true ∧ frame20.tagOk = true ∧ frame20.session = l.session.extractLsb' 0 16
      ∧ frame20.keyPhase = l.rxPhase ∧ frame20.seq.toNat = l.rxSeq ∧ l.rekeyAt.isSome = true ∧ (1 : Word).toNat ≠ l.rxSeq
      ∧ frame20.link.toNat = 15 + (5 : BitVec 4).toNat ∧ (linked 20 { state := 2 }).repro.planes = [] ∧ (link (linked 20 {}) 20).state = 0
      ∧ (link (linked 20 { state := 1, phase := 6 }) 20).phase = 6 ∧ mayEmit (linked 20 { state := 2 }) = true
      ∧ txRoom (linked 20 { state := 2 }) 20 1 = true ∧ l.keyWait = [] ∧ l.retry.length < 256 := by decide

/-! ### EgressAndShaper -/

/-- An UP far link with one IDLE packet of class 0 in its queue, on a live device. -/
def queuing : State :=
  let q : Queued := { pkt := .lstate hdr0 0 0 0, cls := 0, tc := 0, slot := 0, tenant := 0, payload := 0, bytes := 32, at_ := 0, fin := 0 }
  { linked 20 { state := 2, queue := [q] } with pair := { ready.pair with live := 1 } }

theorem witness_EgressAndShaper : (link queuing (20 : LinkId).toNat).state = 2 ∧ mayEmit queuing = true
    ∧ (nextPacket queuing (20 : LinkId).toNat).isSome = true ∧ nextPacket ready (20 : LinkId).toNat = none
    ∧ (∀ q, nextPacket queuing (20 : LinkId).toNat = some q → (link queuing (20 : LinkId).toNat).retry.length + packetFrames q ≤ 256)
    ∧ (∀ q, nextPacket queuing (20 : LinkId).toNat = some q → podLapsed queuing q.pkt = false ∧ maySend queuing q.pkt = true
        ∧ txRoom queuing (20 : LinkId).toNat (packetFrames q) = true)
    ∧ (link queuing 20).txc < 2 ^ 31 ∧ 2 ^ 31 ≤ (link (linked 20 { state := 2, txc := 2 ^ 31 }) 20).txc
    ∧ Commands (cmd 0) false [0, 1] 0 ready := by
  unfold Commands
  refine ⟨by decide, by decide, by decide, by decide, ?_, ?_, by decide, by decide, by decide⟩
  all_goals
    intro q h
    have : nextPacket queuing (20 : LinkId).toNat = some { pkt := .lstate hdr0 0 0 0, cls := 0, tc := 0, slot := 0, tenant := 0, payload := 0, bytes := 32, at_ := 0, fin := 0 } := by decide
    rw [this] at h; cases h; decide
theorem witness_EgressAndShaper_refill : let s : State := { ready with links := { live := { slots := [(1, { rate := 100 })] } }, tb := 625 }
    s.maint.pwrgd = true ∧ s.links.refillAt / 625 < s.tb / 625 ∧ s.links.telEn = false ∧ s.links.pending = none
      ∧ (s.links.live.slots.map (fun e => e.1)).Nodup := by decide

/-! ### WorkItemAndBarrierCommands -/

/-- Region 0 with one rank, cluster 0, of partition 0; contexts 0 and 1 are of that partition. -/
def region0 (x : Cluster) : State :=
  let part : PartitionSect := { (default : PartitionSect) with regionMask := 1, contextMask := 3 }
  { running with
    forme := { state := 3, committed := some { (default : Committed) with parts := [(0, part)] } }
    repro := { lmap := [(0, 0)] }
    clusters := [(0, x)] }

/-- A work item of context 0. -/
def item0 : WorkItem := { bytes := List.replicate 64 0, ctx := 0, part := 0, layer := 0, segment := 0, level := 0, rows := [] }

theorem witness_WorkItemAndBarrierCommands :
    let x : Cluster := { state := 1, ctx := some 0, wait := .workItem }
    let s := region0 x
    formeServes s = true ∧ hasProgram x = true ∧ partOfRegion s ((0 : ClusterId).toNat / 16) = some item0.part.toNat
      ∧ partOfCtx s item0.ctx.toNat = some item0.part.toNat ∧ item0.bytes.length = 64 ∧ batchOk s item0 = true ∧ s.maint.phase ≠ 3 ∧ claimed s 0 = true
      ∧ (ctxOf s item0.ctx.toNat).pastEnd = false ∧ Tab.getD s.sched.waiting (0 * 64 + item0.ctx.toNat) [] = [] ∧ x.wqProd = x.wqCons
      ∧ x.wqItems = [] ∧ partOfCtx s (1 : FnId).toNat = some item0.part.toNat ∧ x.ctx ≠ some (1 : FnId).toNat := by decide
theorem witness_WorkItemAndBarrierCommands_release :
    let at_ (k : Nat) : State := { region0 { state := 3, ctx := some 0, wait := .barrier 0 0 } with sched := { arrivals := [(k, [0])], dieRegions := [(0, [0])] } }
    participants (at_ 0) (0 : RegionId).toNat = [0] ∧ (∀ m ∈ participants (at_ 0) 0, m ∈ Tab.getD (at_ 0).sched.arrivals 0 [])
      ∧ (∃ m ∈ participants (at_ 256) 0, m ∉ Tab.getD (at_ 256).sched.arrivals 0 []) ∧ regionsOf (at_ 256) (0 : PartId).toNat = [0] := by decide
theorem witness_WorkItemAndBarrierCommands_channel : let x : Cluster := { state := 3, ctx := some 0, chans := [(3, { chanIn with broken := some .stateLost })]
                                                                          wait := .channel 1 3 2 false (some 0) }
    let s := region0 x
    x.moving = none ∧ channel s 0 (3 : BitVec 5).toNat = some { chanIn with broken := some .stateLost } ∧ x.item = none ∧ 0 ≤ s.tb := by decide

/-! ### FaultChunkAndSegmentCommands -/

/-- A stream of two chunks from the plate. -/
def plateStream : Stream :=
  { (default : Stream) with space := 5, ranges := [(0, 128)], total := 128, chunk := 64, ringStart := 0, ringLen := 128 }

theorem witness_FaultChunkAndSegmentCommands : let x : Cluster := { state := 2, ctx := some 0, streams := [(1, plateStream)] }
    hasProgram x = true ∧ Tab.find x.streams (1 : BitVec 5).toNat = some plateStream ∧ plateStream.space = 5 ∧ plateStream.slug = false
      ∧ plateStream.chunk ≠ 0 ∧ plateStream.next * plateStream.chunk < plateStream.total
      ∧ plateStream.visible.length < plateStream.ringLen / plateStream.chunk := by decide
theorem witness_FaultChunkAndSegmentCommands_whole :
    let b : State := region0 { state := 2, ctx := some 0, streams := [(1, plateStream)] }
    let s : State := { b with forme := { b.forme with resident := [{ (default : PlateRef) with place := 1, partMask := 1, dest := 0, plainLen := 128 }] } }
    let rs := cutRanges plateStream.ranges (plateStream.next * plateStream.chunk) (min plateStream.chunk (plateStream.total - plateStream.next * plateStream.chunk))
    (∀ r ∈ rs, rangeOk s 0 0 plateStream.space false r.1 r.2 = .ok) ∧ rangesOutcome s 0 (rs.map (fun r => (plateStream.space, r))) .good = .good := by decide
theorem witness_FaultChunkAndSegmentCommands_segment :
    let w : RowRef := { req := 5, tenant := 0, rows := [0] }
    let g : SegmentRef := { part := 0, layer := 0, segment := 0, level := 0, clusters := [0], rows := [w], positions := [(5, [7])], bothLost := [] }
    let e (n : Nat) : Ended := { item := { item0 with rows := [w] }, code := 0x00, sat := [(0, (n, 0))], dig := [], fallbacks := [] }
    let m : NumericsSect := { (default : NumericsSect) with policy := 1, threshold := 3, entries := [] }
    let s (n : Nat) : State := { region0 { state := 1, ctx := some 0, done := [e n] } with
      forme := { state := 3, committed := some { (default : Committed) with numerics := [(0, m)] } }
      req := { recs := [(0, { reqId := 5, state := 3 })] } }
    segmentItems (s 4) g = some [e 4] ∧ g.clusters.Nodup ∧ (s 4).forme.committed.bind (fun c => Tab.find c.numerics g.part.toNat) = some m
      ∧ failureOf [e 4] w.req = none ∧ recFind (s 4) w.req = some { reqId := 5, state := 3 } ∧ overThreshold m g.layer (satSums [e 4] w.rows) = true
      ∧ widenOn m g.layer = true ∧ overThreshold m g.layer (satSums [e 3] w.rows) = false := by decide
theorem witness_FaultChunkAndSegmentCommands_move :
    let s : State := { region0 { state := 6 } with repro := { lmap := [(0, 0)], spare := [0] } }
    Tab.find s.repro.lmap ((0 : RegionId).toNat * 16 + (0 : BitVec 4).toNat) = some 0 ∧ fullGeom s = false ∧ s.repro.spare.contains 0 = true
      ∧ checkpoint s 0 = true ∧ (cluster s 0).state = 6 := by decide

/-! ### PowerAndShutdownCommands -/

theorem witness_PowerAndShutdownCommands : let up : State := { ready with maint := { ready.maint with phase := 1 } }
    ready.maint.board = none ∧ ready.maint.pwrgd = true ∧ Commands (cmd 1) true [0, 1, 2] 1 up ∧ up.maint.busy = false ∧ up.maint.phase = 1
      ∧ (∀ e ∈ up.req.recs, e.2.state = 0 ∨ e.2.state = 8) ∧ up.forme.committed = none
      ∧ State.reset.maint.pwrgd = true ∧ State.reset.maint.phase = 0 ∧ State.reset.dev.ready = false ∧ bit State.reset.maint.lastReset.maj 4 = true
      ∧ (let st : State := { up with maint := { up.maint with phase := 2 } }
        st.maint.slices + 1 < 61 ∧ (st.maint.slices + 2) * 40 ≤ selftestBudget st) := by
  unfold Commands; decide

/-! ### FatalAndGovernorCommands -/

theorem witness_FatalAndGovernorCommands : let up : State := { ready with maint := { ready.maint with phase := 1, everReady := true } }
    up.maint.pwrgd = true ∧ up.maint.shutdownBegun = false ∧ unlockStaged up = false ∧ bit up.maint.fatal 31 = false
      ∧ (1759 : BitVec 16).toNat < 1760 ∧ 1760 ≤ (1760 : BitVec 16).toNat ∧ 1520 < (1521 : BitVec 16).toNat ∧ (1520 : BitVec 16).toNat ≤ 1520
      ∧ (let h : State := { up with maint := { up.maint with phase := 3, after := .thermalHold false } }
        h.maint.after = .thermalHold false ∧ unlockStaged h = false ∧ h.maint.everReady = true ∧ h.maint.shutdownBegun = false ∧ h.maint.ballast = false
          ∧ ({ h with maint := { h.maint with ballast := true, claims := [3] } } : State).maint.claims ≠ [])
      ∧ (let h : State := { up with maint := { up.maint with phase := 3, after := .thermalHold true, shutdownBegun := true } }
        h.maint.after = .thermalHold true ∧ unlockStaged h = false ∧ h.maint.everReady = true) := by
  decide
theorem witness_FatalAndGovernorCommands_claims : let r : State := { region0 {} with maint := { armed := some 0, rank := 14 }, tb := 90000 }
    let c : State := { region0 {} with maint := { armed := some 0, rank := 15, claimWait := [0, 3] }, tb := 90000 }
    r.maint.armed = some 0 ∧ r.maint.rank < ranks r ∧ 0 + 160 * r.maint.rank ≤ r.tb ∧ ranks c ≤ c.maint.rank ∧ c.maint.lastStep = none
      ∧ (0 : ClusterId).toNat ∈ c.maint.claimWait ∧ (∀ n ∈ c.maint.claimWait, (0 : ClusterId).toNat ≤ n)
      ∧ (let d : State := { c with maint := { c.maint with claimWait := [], claims := [3], idleSince := [(3, 50000)] } }
        d.maint.claimWait = [] ∧ Tab.find d.maint.idleSince (3 : ClusterId).toNat = some 50000 ∧ (3 : ClusterId).toNat ∈ d.maint.claims
          ∧ 50000 + 40000 ≤ d.tb) := by decide

/-! ### FormeControlCommands -/

/-- A device in which a forme is loaded and no FORME command runs, in `st`. -/
def loaded (st : BitVec 4) (done : Bool) : State :=
  let part : PartitionSect := { (default : PartitionSect) with regionMask := 1, contextMask := 3 }
  { ready with forme := { state := st, drainDone := done, regionMask := 1, committed := some { (default : Committed) with parts := [(0, part)] } } }

theorem witness_FormeControlCommands : ready.forme.running = none ∧ ready.forme.state = 0 ∧ (loaded 3 false).forme.running = none
    ∧ wholeParts (loaded 3 false) = true ∧ (loaded 3 false).req.recs = [] ∧ (loaded 4 true).forme.drainDone = true
    ∧ (loaded 4 true).forme.gen ≠ 255
    ∧ Commands (cmd 0) false [0, 1, 2, 3, 4, 5] 0 ready ∧ Commands (cmd 1) false [0, 1, 2, 3, 4, 5] 1 (loaded 3 false)
    ∧ Commands (cmd 2) false [0, 1, 2, 3, 4, 5] 2 (loaded 3 false) ∧ Commands (cmd 3) false [0, 1, 2, 3, 4, 5] 3 (loaded 4 true)
    ∧ Commands (cmd 4) false [0, 1, 2, 3, 4, 5] 4 (loaded 4 true) ∧ Commands (cmd 5) false [0, 1, 2, 3, 4, 5] 5 (loaded 3 false) := by
  unfold Commands; decide

/-! ### FormeCompletionCommands -/

/-- A section of a full forme at directory index `i`. -/
def sect (i t n : Nat) (b : SectBody) : Section_ :=
  { type := BitVec.ofNat 16 t, instance_ := BitVec.ofNat 16 n, offset := BitVec.ofNat 32 (256 * (5 + i)), length := 64, digest := 0
    digestOk := true, body := b, resv := 0 }

/-- A header of a prompt node with one partition, for an image of `n` sections. -/
def headOf (kind : Byte) (n : Nat) (target : Byte) : FormeHeader :=
  { magic := 0x4D464E44, format := 1, hdrSize := 0x100, kind := kind, role := 1, geometry := 0, partCount := 1, sectCount := BitVec.ofNat 16 n
    slotMask := 1, totalLen := 8704, svn := 0, minFw := 0, sysSize := 1, firstLayer := 0, layerCount := 1, nPrompt := 16, nGen := 0, nCache := 0
    targetMask := target, modelDigest := 0, baseDigest := 0, ownerKeyId := 1, resv := 0 }

/-- An empty program. -/
def emptyProgram : ProgramSect :=
  { (default : ProgramSect) with clusters := [], maxBeats := 0, maxJoinedBeats := 0, segments := [], level1 := [], level2 := [], rowBytes := 0
                                 podBarriers := [], shards := [], obeysR115 := true, queryWidths := [] }

/-- A region, used by partition `p`. -/
def regionOf (p : Byte) : RegionConfig := { (default : RegionConfig) with partition := p }

/-- A full forme of one partition in region 0 with one context. -/
def fullForme : FormeImage :=
  let rest := (List.range 7).map (fun i => sect (3 + i) 3 (1 + i) (.regionConfig (regionOf 0xFF)))
  { header := headOf 0 15 0, digest := 9, sig := { ed25519Ok := true, mlDsaOk := true, paddingZero := true }
    sections := [
      sect 0 1 0 (.roleParams { chunkTokens := 64, maxRows := 1, specMax := 0, partner := List.replicate 16 0, galleyPool := List.replicate 8 0, resv := 0 }),
      sect 1 2 0 (.geometry { regionUse := 1, mapDigest := 0, resv := 0 }),
      sect 2 3 0 (.regionConfig (regionOf 0))] ++ rest ++ [
      sect 10 4 0 (.partition { (default : PartitionSect) with regionMask := 1, contextMask := 1 }),
      sect 11 5 0 (.program emptyProgram),
      sect 12 6 0 (.imposition { frameTb := 62500, weights := 1 :: List.replicate 63 0, resv := 0
                                 slots := [{ length := 62500, kind := 0, contextMask := 1, resv := 0 }] }),
      sect 13 7 0 (.plateRefs []),
      sect 14 9 0 (.numerics { policy := 0, fp8Variant := 0, threshold := 0, entries := [], resv := 0 })] }

/-- A device that the owner of key 1 loads; the LOAD runs. -/
def loading : State :=
  { State.reset with
    forme := { state := 1, running := some .load, runLen := 8704 }
    sec := { boot := 1, rpsOk := true, store := { owners := [1] } }, tier := { State.reset.tier with good := List.range 48 } }

set_option maxRecDepth 100000 in
theorem witness_FormeCompletionCommands : loading.forme.running = some .load ∧ (fullLoad loading fullForme loading.forme.runLen).isRight = true
    ∧ (fullLoad loading { fullForme with digest := 9, header := headOf 1 15 0 } loading.forme.runLen).isLeft = true := by decide

/-- A partial forme that replaces the program. -/
def partForme : FormeImage :=
  { header := headOf 1 1 1, digest := 5, sig := { ed25519Ok := true, mlDsaOk := true, paddingZero := true }
    sections := [sect 0 5 0 (.program emptyProgram)] }

/-- A drained device with that forme. -/
def replacing : State :=
  { loading with forme :=
      { state := 4, running := some .replace, runLen := 8704, drained := 1, drainDone := true, committed := fullConfig fullForme } }

set_option maxRecDepth 100000 in
theorem witness_FormeCompletionCommands_replace : replacing.forme.running = some .replace ∧ replacing.forme.committed.isSome = true
    ∧ (∀ c ∈ replacing.forme.committed, (partialLoad replacing (Machine.staged replacing c) partForme replacing.forme.runLen).isRight = true)
    ∧ (∀ c ∈ replacing.forme.committed, (partialLoad replacing (Machine.staged replacing c) fullForme replacing.forme.runLen).isLeft = true) := by decide
set_option maxRecDepth 8000 in
theorem witness_FormeCompletionCommands_plate : let r : PlateRef := { (default : PlateRef) with digest := 7, slotMask := 1, layerCount := 1, partMask := 1 }
    let img (d : Digest) : PlateImage :=
      { magic := 0x4C504E44, plateId := 0, storedLen := 0, modelDigest := 0, digest := d, content := [], resv := 0
        sig := { ed25519Ok := true, mlDsaOk := true, paddingZero := true } }
    let s : State := { loaded 2 false with
      forme := { (loaded 2 false).forme with
        running := some .plate, runLen := 3712, committed := some { (default : Committed) with plates := [(0, [r])] } } }
    plateCheck s (img 7) = .ok ∧ plateCheck s (img 8) ≠ .ok := by decide
theorem witness_FormeCompletionCommands_unload : let s : State := { inPress with forme := { inPress.forme with running := some .unload } }
    s.forme.running = some .unload ∧ pressesEmpty s = false ∧ pressesEmpty { s with clusters := [] } = true := by decide
theorem witness_FormeCompletionCommands_drain : let s : State := { loaded 4 false with forme := { (loaded 4 false).forme with running := some .drain, drained := 1 } }
    s.forme.running = some .drain ∧ drainPend s = 0 ∧ drainQuiet s = true ∧ 0 / 16 ∈ ((drainParts s).map (regionsOf s)).flatten := by decide

/-! ### MemoryUpkeepCommands -/

theorem witness_MemoryUpkeepCommands : let up : State := { ready with maint := { ready.maint with phase := 1 }
                                                                      tier := { good := [0, 1], written := [(0, 0), (3, 0)], scrubAt := 65536 } }
    scrubNext up = some 384 ∧ scrubLast up 511 = true ∧ chanGood up (1 : Fin 48).val = true ∧ chanGood up (2 : Fin 48).val = false
      ∧ unlockStaged up = false ∧ up.maint.phase = 1 ∧ up.tier.reserveBad = false := by decide

/-! ### ShelfCommands -/

/-- A device with galley 5 as `g`. -/
def holding (g : Galley) : State :=
  let part : PartitionSect := { (default : PartitionSect) with regionMask := 1, contextMask := 3, t3Pages := 4 }
  { ready with
    forme := { state := 3, committed := some { (default : Committed) with parts := [(0, part)] } }
    tier := { quotas := [(0, { t3Limit := 9 })], t3 := [(0, default)], good := [0] }
    req := { galleys := [(5, g)], recs := [(0, { reqId := 5, state := 5 })] } }

/-- Galley 5 with nothing in progress, paused at the start. -/
def galley5 : Galley := { (default : Galley) with reqId := 5, op := .idle, pausedAt := some 0, layers := 0, layer := [], hist := [], resume := none }

/-- The same with one shelved page. -/
def shelved5 : Galley := { galley5 with layer := [(0, { pages := [(0, { state := 4 })] })], expiry := 7 }

set_option maxRecDepth 8000 in
theorem witness_ShelfCommands : let s : State := { holding galley5 with tb := 700000000 }
    galleyOf s 5 = some galley5 ∧ fenced s = false ∧ galley5.serving = mySlot s ∧ isShelved galley5 = false ∧ shelveWanted s galley5 = true
      ∧ retryDue s galley5 = true ∧ Tab.find s.tier.quotas galley5.tenant.toNat = some { t3Limit := 9 } ∧ Tab.find s.tier.t3 galley5.part.toNat = some default
      ∧ (shelfContent galley5).length ≤ (freeT3Frames s galley5.part.toNat).length ∧ mirrors s { galley5 with op := .shelving } = false
      ∧ isShelved shelved5 = true ∧ shelved5.expiry ≤ s.tb ∧ shelved5.op = .idle ∧ shelved5.serving = mySlot s
      ∧ (recLive s 5).isSome = true ∧ retryDue s { galley5 with faultAt := some 699999999 } = false ∧ 0 ∉ s.host.flr ∧ shelved5.resume = none ∧ moverOut s < 4096
      ∧ shelved5.recalled = false ∧ ({ shelved5 with recalled := true } : Galley).recalled = true ∧ 0 + (shelfContent galley5).length ≤ 9 := by decide
set_option maxRecDepth 8000 in
theorem witness_ShelfCommands_reads : let s : State := { holding galley5 with tb := 700000000 }
    (moverRead galley5 ((shelfContent galley5).map (fun x => (x.1, x.2.1, x.2.2.1))) .good s) = (true, s) := by decide
theorem witness_ShelfCommands_late : 6 < shelved5.expiry := by decide

/-! ### CapsuleCommands -/

/-- A capsule of `ty` for request `q` with no body, its entry and the ring set it came in. -/
def capsuleOf (ty : Byte) (q : ReqId) : CapsuleCmd :=
  { ring := { fn := 0, set := 0 }, dmaOk := true
    entry := { (default : SqEntry) with kind := 1, addr := 0, len := 80, reqId := 0, resv := 0, shardId := 0, step := 0, consumer := 0, primary := 0 }
    capsule := { (default : Capsule) with
      magic := 0x41434E44, type := ty, tenant := 0, session := 1, part := 0, stages := 0, seq := 1, reqId := q, bodyLen := 0, size := 80
      routing := [], tagOk := true, resv := 0 } }

/-- An ADMIT of one token through one stage. -/
def admitOf : CapsuleCmd :=
  let c := (capsuleOf 1 0).capsule
  let body : CapsuleBody := { (default : CapsuleBody) with maxLen := 8, segments := [{ start := 0, tokens := [3] }], resv := 0, flags := 0 }
  { capsuleOf 1 0 with
    entry := { (capsuleOf 1 0).entry with len := 172 }
    capsule := { c with stages := 1, size := 172, bodyLen := 84, routing := [{ prompt := 0, gen := 0, pair := 0, resv := 0 }], body := body } }

/-- A device with a forme, the open session 1 of tenant 0, and an entry waiting in ring set 0 of the PF; request 5 is in state `st`. -/
def anchoring (st : BitVec 4) : State :=
  let set : RingSet := { sizes := 0x000A0606, vector := 8, state := 1, sqProd := 1 }
  let open_ : Session :=
    { tenant := 0, keyId := 1, finished := true, opened := 0, ring := { fn := 0, set := 0 }, high := none, seen := [], outSeq := 0, count := 0 }
  { loaded 3 false with
    host := { ready.host with fns := [(0, { sets := [(0, set)] })] }
    sec := { boot := 1, tenants := [(0, 1)], sessions := [(1, open_)] }
    pair := { ready.pair with maps := [{ epoch := 0, roles := [], leaseEnd := 100000, current := true }] }
    req := { recs := [(0, { reqId := 5, state := st, view := 1 })], anchors := [(5, { (default : AnchorInfo) with session := 1 })] } }

set_option maxRecDepth 8000 in
theorem witness_CapsuleCommands : let ring : RingRef := { fn := 0, set := 0 }
    let u (st : BitVec 4) : State := ringUpd ring (fun y => { y with sqHead := y.sqHead + 1 }) (anchoring st)
    sqReady (anchoring 4) ring = true ∧ (capsuleOf 3 5).entry.kind = 1 ∧ capsuleCheck (u 4) (capsuleOf 3 5) = none
      ∧ capsuleCheck (u 4) (capsuleOf 3 6) = none ∧ capsuleCheck (u 8) (capsuleOf 3 5) = none
      ∧ capsuleCheck (u 4) (capsuleOf 4 0) = none ∧ capsuleCheck (u 4) { capsuleOf 3 5 with capsule := { (capsuleOf 3 5).capsule with session := 2 } } = some .denied
      ∧ recFind (anchoring 4) 6 = none ∧ (recFind (anchoring 8) 5).isSome = true ∧ (anchorOf (anchoring 4) 5).isSome = true
      ∧ capsuleCheck (u 4) admitOf = none := by decide

/-! ### SessionAndQueueCommands -/

set_option maxRecDepth 8000 in
theorem witness_SessionAndQueueCommands : let ring : RingRef := { fn := 0, set := 0 }
    let en (k : Byte) (len : Word) : SqEntry := { (default : SqEntry) with kind := k, len := len, addr := 0, resv := 0, reqId := 0 }
    let init : SessionInit := { (default : SessionInit) with ring := ring, entry := en 2 3208, dmaOk := true, magicOk := true, tenant := 3, keyId := 4, resv := 0 }
    let fin : SessionFinish := { (default : SessionFinish) with
      ring := ring, entry := en 3 3392, dmaOk := true, magicOk := true, session := 2, sigsOk := true, resv := 0 }
    let open_ : Session := { tenant := 0, keyId := 1, finished := false, opened := 0, ring := ring, high := none, seen := [], outSeq := 0, count := 0 }
    let s : State := { anchoring 4 with
      tb := 6250000000
      sec := { boot := 1, sessions := [(2, open_)], nextSession := 3 }
      rma := { qps := [(0, newQp 0 0 0 noBlock 0)] }
      forme := { state := 3, committed := some { (default : Committed) with programs := [(0, { emptyProgram with shards := [7] })] } } }
    let sh : ShardCmd := { ring := ring, entry := { en 5 0 with shardId := 7 }, claimSet := false, inputsHeld := true }
    sqReady (anchoring 4) ring = true ∧ hostCancelCode ring { en 4 0 with reqId := 5 } (anchoring 4) = .ok
      ∧ sessionInitCode init s = .ok ∧ sessionInitCode { init with magicOk := false } s = .malformed ∧ sessionFinishCode fin s = .ok
      ∧ sessionFinishCode { fin with session := 9 } s = .denied ∧ Tab.find s.sec.sessions (2 : Word).toNat = some open_
      ∧ open_.opened + 10000 * 625000 ≤ s.tb ∧ shardCode sh s = .ok ∧ shardCode { sh with claimSet := true } s = .stateLost ∧ excluded s (sh.entry.consumer.toNat % 4096) = false
      ∧ (ringSet s ring).state = 1 ∧ (qpOf s (0 : QpNum).toNat).any (fun y => y.ready) = true ∧ qpKind (0 : QpNum).toNat ≠ 1 := by decide

/-! ### StageMessageCommands -/

/-- A stage admission of request 9 at this prompt node, generation node 1 and pair 2, 3; the anchor is device `d`. -/
def admitting (d : DevId) (gen : Status) : StageAdmission :=
  { (default : StageAdmission) with
    req := 9, stage := 0, tenant := 0, part := 0, anchor := d, epoch := 0, promptLen := 1, maxLen := 8, modelDigest := 0, lower := .ok, upper := .ok
    genAns := gen, resv := 0, route := [{ prompt := 0, gen := 1, pair := 2, resv := 0 }] }

/-- The device that serves it in slot `n`, with the record of request 5 in `st` as owner and anchor with `x`. -/
def staging (n : BitVec 4) (st view : BitVec 4) (x : AnchorInfo) : State :=
  let map : MapEntry := { epoch := 0, roles := [1, 2, 3, 3], leaseEnd := 100000, current := true }
  { loaded 3 false with
    dev := { ready.dev with ident := Tmr.all (BitVec.ofNat 32 n.toNat) }
    pair := { ready.pair with maps := [map], state := 2 }
    tier := { quotas := [(0, { t1Limit := 1000 })], good := List.range 48 }
    req := { recs := [(0, { reqId := 5, state := st, view := view })], anchors := if view.toNat.testBit 0 then [(5, x)] else [] } }

set_option maxRecDepth 20000 in
theorem witness_StageMessageCommands : let a := (default : AnchorInfo)
    let s : State := staging 0 4 2 a
    fenced s = false ∧ (myDev s).toNat = 0 ∧ r12First (admissionCodes (admitting 0 .ok) s ++ [if rolesHold s 0 { prompt := 0, gen := 1, pair := 2, resv := 0 } then .ok else .epochStale]) = none
      ∧ r12First (admissionCodes { admitting 0 .ok with epoch := 7 } s ++ [.ok]) = some .retryLater
      ∧ r12First [(admitting 0 .quota).lower, (admitting 0 .quota).upper, (admitting 0 .quota).genAns] = some .quota
      ∧ r12First (admissionCodes (admitting 0 .ok) (staging 1 4 2 a)) = none ∧ (myDev (staging 1 4 2 a)).toNat = 1
      ∧ (admitting 0 .ok).copy = none ∧ (recIndex s).isSome = true ∧ (recLive s 5).any ownerView = true ∧ anchorOf s 5 = none
      ∧ (recLive (staging 0 1 0 a) 5).any (fun r => !anchorView r) = true := by decide
set_option maxRecDepth 20000 in
theorem witness_StageMessageCommands_member : (memberAdmit (admitting 0 .ok) { prompt := 0, gen := 1, pair := 2, resv := 0 } (staging 2 4 2 default)).1 = .ok
    ∧ (myDev (staging 2 4 2 default)).toNat = 2 := by decide
theorem witness_StageMessageCommands_anchor : let a : AnchorInfo := { (default : AnchorInfo) with
      route := [{ prompt := 0, gen := 1, pair := 2, resv := 0 }], accepted := false, silent := false, confirms := [], dropped := [], code := none, turn := [] }
    let b : AnchorInfo := { a with route := a.route ++ a.route }
    anchorOf (staging 0 1 1 a) 5 = some a ∧ (recLive (staging 0 1 1 a) 5).isSome = true ∧ (0 : Byte).toNat + 1 = a.route.length
      ∧ (0 : Byte).toNat + 1 ≠ b.route.length ∧ a.confirms.contains 0 = false ∧ a.confirms.length + 1 = a.route.length ∧ a.dropped.length + 1 = a.route.length
      ∧ a.dropped.length + 1 ≠ b.route.length ∧ a.dropped.contains 0 = false
      ∧ (recLive (staging 0 6 1 a) 5).any (fun r => !ownerView r && !reprefillApplies r && r.state == 6) = true
      ∧ (recEntry (staging 0 1 1 a) 5).isSome = true ∧ a.refused = none ∧ allReleased a (staging 0 1 1 a) = false
      ∧ allReleased { a with released := [0, 1, 2, 3] } (staging 0 1 1 a) = true
      ∧ (recLive (staging 0 5 1 a) 5).any (fun r => r.state == 5) = true ∧ a.shelved.contains 0 = false ∧ a.shelved.length + 1 = a.route.length
      ∧ (recLive (staging 0 1 1 a) 5).any (fun r => !reprefillHeld 5 r (staging 0 1 1 a) && !ownerView r) = true
      ∧ ({ a with refused := some .quota } : AnchorInfo).refused = some .quota := by decide

/-! ### ControlBlockResults -/

/-- The PF's selected context 0 stages a weight; record 0 is request 5 with its anchor here, in `st`. -/
def staged (st : BitVec 4) : State :=
  { holding galley5 with
    sched := { ctxs := [(0, { weight := 1, staged := 2 })] }
    req := { recs := [(0, { reqId := 5, state := st, view := 1 })], anchors := [(5, default)] } }

set_option maxRecDepth 8000 in
theorem witness_ControlBlockResults : (∀ n : Nat, n < 4 → ctlCommands (cmd n) [0, 1, 2, 3] = [n]) ∧ pfLive (staged 4) 0 false = true
    ∧ (staged 4).tier.busy = false ∧ (staged 4).sched.busy = false ∧ (staged 4).rma.busy = false ∧ (staged 4).req.busy = false
    ∧ ctlCommands (cmd 0) [0, 1] = [0] ∧ ctlCommands (cmd 0) [0, 1, 2] = [0] ∧ ctlCommands (cmd 1) [0, 1, 2] = [1]
    ∧ Tab.find (staged 4).tier.quotas 0 = some { t3Limit := 9 } ∧ ctxPresent (staged 4) 0 = true ∧ (partition (staged 4) 0).isSome = true
    ∧ (Tab.find (staged 4).req.recs 0).any (fun r => r.state != 8 && anchorView r && (recLive (staged 4) r.reqId).isSome) = true
    ∧ (Tab.find (staged 8).req.recs 0).any (fun r => r.state == 8) = true ∧ (anchorOf (staged 4) 5).isSome = true := by decide

/-! ### TrayAccessCommands -/

/-- Galley 5 of one layer, served here, with an open page 0 that holds position 0, owned by this device. -/
def open5 : Galley :=
  { galley5 with layers := 1, pausedAt := none, owner := 0, rec_ := { reqId := 5 }
                 layer := [(0, { pages := [(0, { frame := 64, state := 1, written := 1 })] })] }

/-- A cache node in slot 0, its partner in slot 1, with galley 5 as `g`: 96 frames in the partition, 8 of them its galley pool. -/
def cacheNode (st : BitVec 4) (g : Galley) : State :=
  let part : PartitionSect := { (default : PartitionSect) with regionMask := 1, contextMask := 3, t1Pages := 96, t3Pages := 4 }
  let forme : Committed := { (default : Committed) with
    header := { (default : FormeHeader) with role := 3, layerCount := 1 }, parts := [(0, part)]
    attention := [(0, { (default : AttentionSect) with lat := 16, kvFormat := 7 })]
    role := { (default : RoleParams) with partner := [1, 0], galleyPool := [8] } }
  { ready with
    forme := { state := 3, committed := some forme, partBase := [(0, 64)] }
    pair := { live := 1, state := st, maps := [{ epoch := 0, roles := [3, 3], leaseEnd := 1000000, current := true }] }
    tier := { good := List.range 48, quotas := [(0, { t1Limit := 90, t3Limit := 9 })], t3 := [(0, default)] }
    clusters := [(0, { state := 2, ctx := some 0, chans := [(3, { chanIn with queue := [], entry := { chanIn.entry with peer := .tray 1 2 0 } }),
      (4, { chanIn with queue := [], entry := { chanIn.entry with send := true, peer := .tray 1 2 0 } })] })]
    repro := { lmap := [(0, 0)] }
    req := { galleys := [(5, g)] } }

/-- A request header of type `ty` from device `src`: aperture `ap`, offset, payload length. -/
def trayHdr (ty : Byte) (src : BitVec 16) (ap off len : Nat) : TrayHdr :=
  { hdr0 with type := ty, src := src, seq := 1, flags := if ap ≤ 9 ∨ ap = 0xB then 0 else 8, addr := BitVec.ofNat 48 (ap * 2 ^ 40 + off)
              len := BitVec.ofNat 16 len, srcCl := if ap = 0xB then 2 else 0xFF }

/-- A row of 32 bytes of galley 5 at position `pos`, of class `cls`. -/
def row5 (cls : Byte) (pos : Word) : AppendHdr := { req := 5, pos := pos, step := 0, layer := 0, cls := cls, rowBytes := 32, resv := 0 }

set_option maxRecDepth 20000 in
theorem witness_TrayAccessCommands : let s := cacheNode 3 open5
    let put (r : TrayReq) : Status := r276 (tookRequest r s) r
    InTurn (.load (trayHdr 1 0 0 0x80000 64) .good) s ∧ put (.load (trayHdr 1 0 0 0x80000 64) .good) = .ok
      ∧ put (.load (trayHdr 1 0 0xD 0 64) .good) = .malformed ∧ put (.store (trayHdr 2 0 0 0x80000 512) (List.replicate 512 1) .good) = .ok
      ∧ addrOff (trayHdr 2 0 0 0x80000 512) % 512 = 0
      ∧ seenOutcome s (homePlace s (trayHdr 1 0 0 0x80000 64)) 64 .good = .good ∧ put (.store (trayHdr 2 0 9 0 1) [1] .good) = .ok := by
  unfold InTurn; decide
set_option maxRecDepth 20000 in
theorem witness_TrayAccessCommands_rows : let s := cacheNode 3 open5
    let r : TrayReq := .append (trayHdr 4 0 0xA 0 64) (row5 1 1) (List.replicate 32 1) .good
    let m : TrayReq := .chmsg (trayHdr 5 1 0xB 3 64) (List.replicate 64 0)
    r276 (tookRequest r s) r = .ok ∧ r276 (tookRequest m s) m = .ok ∧ apCluster s (trayHdr 5 1 0xB 3 64) = some 0 ∧ InTurn m s
      ∧ fenced s = false ∧ galleyOf s 5 = some open5 ∧ (0 : DevId) = open5.owner ∧ open5.rec_.commitLen ≤ (row5 1 1).pos.toNat
      ∧ (pageOf open5 0 0 0).state = 1 ∧ (placeRow 5 0 1 0 false [] s).isSome = true
      ∧ ({ open5 with rec_ := { reqId := 5, commitLen := 2 } } : Galley).rec_.commitLen > (row5 1 1).pos.toNat := by
  unfold InTurn; decide

/-! ### GalleyRequestCommands -/

/-- The same galley with page 0 in state `st`. -/
def page5 (st : BitVec 3) : Galley :=
  { open5 with layer := [(0, { pages := [(0, { frame := 64, state := st, written := 1 })] })] }

set_option maxRecDepth 20000 in
theorem witness_GalleyRequestCommands : let s := cacheNode 3 (page5 2)
    let p (n : Nat) : TrayHdr := trayHdr 7 1 0xD 0 n
    let put (r : TrayReq) : Status := r276 (tookRequest r s) r
    let upd : RecordUpdate := { (default : RecordUpdate) with resv := 0 }
    let part : PagePart := { (default : PagePart) with req := 5, bytes := [1, 2, 3, 4], lastPart := false }
    fromPartner s (p 0) = true ∧ InTurn (.drop (p 12) 5) s ∧ put (.drop (p 12) 5) = .ok ∧ put (.sealDigest (p 68) 5 0 0 0 0) = .ok
      ∧ put (.ownerFwd (p 20) 5 1) = .ok ∧ put (.mapWrite (p 24) 5 0 [0, 0, 0, 0]) = .ok ∧ put (.record (p 140) 5 upd) = .ok
      ∧ put (.page (p 24) part) = .ok ∧ put (.ckpt (p 20) 1 5 0) = .ok ∧ put (.silverSetup (p 4) [] []) = .ok
      ∧ put (.drop (p 13) 5) = .malformed ∧ (page5 2).source = none ∧ (pageOf (page5 2) 0 0 0).state = 2 ∧ s.pair.ckptWait = none
      ∧ recLive s 5 = none ∧ galleyOf s 6 = none ∧ (cacheNode 2 (page5 2)).pair.state ≠ 3
      ∧ (let r : Rec := { reqId := 5, state := 4, pair := 0 }
        let t : State := { s with req := { s.req with recs := [(0, r)] } }
        recLive t 5 = some r ∧ (∃ d ∈ memberSlots r, devOfSlot t d = BitVec.ofNat 12 (1 : DWord).toNat)
          ∧ ¬ ∃ d ∈ memberSlots r, devOfSlot t d = BitVec.ofNat 12 (7 : DWord).toNat) := by unfold InTurn; decide
set_option maxRecDepth 20000 in
theorem witness_GalleyRequestCommands_owner : let s := cacheNode 3 open5
    let o (n : Nat) : TrayHdr := trayHdr 7 0 0xD 0 n
    let cas : TrayReq := .ownerCas { trayHdr 3 0 0xC 0x10 24 with op := 0x24 } 5 (BitVec.ofNat 64 (ownerWord open5)) 3
    let put (r : TrayReq) : Status := r276 (tookRequest r s) r
    put (.commit (o 20) 5 1 0 default .good) = .ok ∧ put cas = .ok ∧ open5.serving = mySlot s ∧ srcDev (o 20) = open5.owner.toNat
      ∧ commitReady open5 0 1 0 = true ∧ commitSpecs open5 0 1 = [] ∧ commitReady open5 0 2 0 = false ∧ mirrors s open5 = false ∧ (3 : DWord).toNat % 4096 ≠ (myDev s).toNat
      ∧ fromPartner s (o 20) = false ∧ spareVerified (cacheNode 6 open5) = true
      ∧ spareVerified (cacheNode 6 { open5 with layer := [(0, { pages := [(0, { misses := 1 })] })] }) = false
      ∧ (cacheNode 6 open5).pair.state = 6 := by decide

/-! ### TrayNoticeCommands -/

/-- The cache node with the near links to slots 1 and 2 UP, one request to slot 1 outstanding since the start. -/
def asked (up : List Nat) : State :=
  let o : TrayOut := { seq := 1, req := .drop hdr0 5, why := .other, via := none, sent := 0, counted := false, held := false }
  { cacheNode 3 open5 with
    near := { dst := [(1, { out := [o] })] }
    links := { links := (31, { state := 2 }) :: up.map (fun d => (nearLink (cacheNode 3 open5) d, { state := 2 })) } }

/-- A notice or response from slot 1 to this device. -/
def noteHdr (ty : Byte) (fl : Byte) (ap off : Nat) : TrayHdr :=
  { trayHdr ty 1 ap off 0 with flags := fl, tag := 1, srcCl := 2 }

set_option maxRecDepth 20000 in
theorem witness_TrayNoticeCommands : let s := asked [1, 2]
    let h : TrayHdr := { noteHdr 6 0 0xB 4 with len := 4 }
    let l := noteHdr 8 0 0 0
    let r := noteHdr 0x10 1 0 0
    (fenced s = false ∧ h.resv = 0 ∧ (h.flags &&& 0xFD) = 0 ∧ senderOk s h = true ∧ h.type = 6 ∧ h.dst.toNat = (myDev s).toNat
      ∧ addrSlot h = (mySlot s).toNat ∧ addrAp h = 0xB ∧ addrOff h < 2 ^ 16 ∧ addrOff h % 256 < 32 ∧ h.len = 4 ∧ h.src.toNat < 4096 ∧ h.part.toNat < 8
      ∧ h.status = 0 ∧ h.mepoch = 0 ∧ h.op = 0 ∧ l.status = 0 ∧ l.mepoch = 0 ∧ l.op = 0 ∧ l.dst.toNat = (myDev s).toNat ∧ formeServes s = true ∧ chanGranted s h true = true ∧ chanGranted s (noteHdr 6 0 0xB 3) true = false
      ∧ apCluster s h = some 0 ∧ newer 32 (3 : Word).toNat (Tab.getD s.near.received (0 * 32 + 4) 0).toNat = true ∧ (cluster s 0).wait = .none
      ∧ l.type = 8 ∧ (l.flags &&& 0xFD) = 0 ∧ srcDev l / 16 = (myTray s).toNat ∧ srcDev l ≠ (myDev s).toNat
      ∧ senderOk s r = true ∧ r.flags.toNat.testBit 0 = true ∧ statusOf r.status = some .ok ∧ srcDev r = (devOfSlot s 1).toNat
      ∧ s.near.fences = [])
      ∧ (∃ o, (trayDst s 1).out.find? (fun x => x.seq == r.seq.toNat) = some o ∧ o.why = .other ∧ o.counted = false ∧ o.sent + 40000 ≤ s.tb) := by
  exact ⟨by decide, _, rfl, by decide⟩
set_option maxRecDepth 20000 in
theorem witness_TrayNoticeCommands_forward : let s := asked [1]
    let h (d : BitVec 16) : TrayHdr := { trayHdr 1 5 0 0 4 with dst := d }
    (h 1).dst.toNat % 4096 ≠ (myDev s).toNat ∧ (h 1).dst.toNat % 4096 / 16 = (myTray s).toNat ∧ (h 1).src.toNat % 4096 ≠ (myDev s).toNat
      ∧ linkIsUp s (nearLink s 1) = true ∧ linkIsUp s (nearLink s 2) = false ∧ mayEmit s = true ∧ slUp s = true ∧ (h 2).type ≠ 0x10
      ∧ (trayRoute s 1).isSome = true ∧ (trayRoute (asked []) 1) = none := by decide

/-! ### GalleyEventCommands -/

/-- The cache node with request 5's record as `r`, and its anchor. -/
def withRec (g : Galley) (r : Rec) : State :=
  { cacheNode 3 g with req := { galleys := [(5, g)], recs := [(0, r)], anchors := if r.view.toNat.testBit 0 then
      [(5, { (default : AnchorInfo) with segments := [], history := [], output := 0 })] else [] } }

set_option maxRecDepth 20000 in
theorem witness_GalleyEventCommands : let g : Galley := { open5 with layer := [(0, { pages := [(0, { frame := 64, state := 1, written := 1, sealing := true })] })] }
    let r : Rec := { reqId := 5, state := 4, view := 2, pair := 0, servingSlot := 0 }
    let e : StepEnd := { (default : StepEnd) with req := 5, codes := [], accepted := 0, pause := false }
    let h : Handover := { req := 5, dest := 0, count := 0, casAt := some 0 }
    let s : State := withRec open5 r
    galleyOf (cacheNode 3 g) 5 = some g ∧ (pageOf g 0 0 0).state = 1 ∧ (pageOf g 0 0 0).sealing = true ∧ (pageOf g 0 0 0).partner = none ∧ g.source = none
      ∧ recLive s 5 = some r ∧ ownerView r = true ∧ r.boundary = none ∧ r.reruns = [] ∧ firstCode (boundaryConds s r e) = none ∧ r.redo = false
      ∧ s.tier.reserveBad = false ∧ s.tier.scrubBad = []
      ∧ (let t : State := { s with req := { s.req with handovers := [h] } }
        t.req.handovers.find? (fun h => h.req == 5) = some h ∧ 0 + 40000 ≤ t.tb ∧ slotLive t 0 = true ∧ t.near.dst = []
          ∧ slotLive { t with pair := { t.pair with excl := [(0, (true, 1))] } } 0 = false) := by decide
set_option maxRecDepth 20000 in
theorem witness_GalleyEventCommands_anchor : let m : TokenMsg := { req := 5, pos := 0, tokens := [7] }
    let r : Rec := { reqId := 5, state := 4, view := 1 }
    let g : Galley := { open5 with pausedAt := some 0 }
    let s : State := { withRec g r with tb := 900000000 }
    let p : State := { withRec g { r with state := 5 } with req := { (withRec g { r with state := 5 }).req with copyouts := [] } }
    fenced s = false ∧ (anchorOf s 5).any (fun a => decide ((newTokens a m).tokens ≠ []) && a.segments.isEmpty) = true ∧ recLive s 5 = some r
      ∧ galleyOf s 5 = some g ∧ (0 + s.req.hold * 625000 ≤ s.tb) ∧ g.serving = mySlot s ∧ g.op = .idle ∧ isShelved g = false ∧ retryDue s g = true
      ∧ moverOut s < 4096 ∧ s.host.flr.contains 0 = false ∧ Tab.find s.tier.quotas g.tenant.toNat = some { t1Limit := 90, t3Limit := 9 }
      ∧ Tab.find s.tier.t3 g.part.toNat = some default ∧ (shelfContent g).length ≤ (freeT3Frames s g.part.toNat).length
      ∧ 0 + (shelfContent g).length ≤ 9 ∧ (recLive p 5).any (fun r => r.state == 5) = true := by decide
set_option maxRecDepth 20000 in
theorem witness_GalleyEventCommands_copyout : let s : State := { withRec shelved5 { reqId := 5, state := 5 } with
      req := { (withRec shelved5 { reqId := 5, state := 5 }).req with copyouts := [{ req := 5, dest := 9 }] } }
    (∃ x ∈ s.req.copyouts, x.req = 5) ∧ galleyOf s 5 = some shelved5 ∧ (recEntry s 5).isSome = true ∧ isShelved shelved5 = true := by
  refine ⟨⟨_, List.mem_singleton.mpr rfl, rfl⟩, by decide, by decide, by decide⟩
set_option maxRecDepth 20000 in
theorem witness_GalleyEventCommands_seal : let g : Galley := { open5 with layer := [(0, { pages := [(0, { frame := 64, state := 1, sealing := true })] })] }
    let r := moverRead g [(0, 0, 0)] .good (cacheNode 3 g)
    r.1 = true ∧ galleyOf r.2 5 = some g := by decide

/-! ### AtomicCommands -/

set_option maxRecDepth 20000 in
theorem witness_AtomicCommands : let s := cacheNode 3 open5
    let h (op : Byte) : TrayHdr := { trayHdr 3 0 0 0x80000 (if op = 4 then 8 else 4) with op := op }
    let r (op : Byte) : TrayReq := .atomic (h op) 1 0 .good
    InTurn (r 1) s ∧ r276 (tookRequest (r 1) s) (r 1) = .ok ∧ r276 (tookRequest (r 2) s) (r 2) = .ok ∧ r276 (tookRequest (r 3) s) (r 3) = .ok
      ∧ r276 (tookRequest (r 4) s) (r 4) = .ok ∧ field (h 2).op.toNat 3 0 = 2 ∧ r276 (tookRequest (r 5) s) (r 5) = .malformed
      ∧ seenOutcome s (homePlace s (h 1)) 4 .good = .good
      ∧ turnWaits (traySrcUpd 0 (fun x => { x with reorder := [((h 1).seq.toNat, r 1)] }) s) 0 (r 1) = false := by
  unfold InTurn; decide
/-- An atomic of device 2 that waits in the combining queue, on region 1 in T1. -/
def parked2 : Parked :=
  { src := 2, id := 9, msg := { (default : PodMsg) with hdr := { podHdr0 with type := 4, op := 1, rkey := 0x01000001, src := 2, id := 9 }, payload := [1, 0, 0, 0], reads := .good } }
/-- Region 1: 4,096 bytes of partition 0, or of the host. -/
def region1 (t1 : Option PartId) : Region :=
  { epoch := 1, valid := true, pd := 0, ctx := 0, base := 0x80000, len := 4096, rights := 0xF, page := 4096, onDemand := false, present := [], t1 := t1 }
set_option maxRecDepth 20000 in
theorem witness_AtomicCommands_remote : let s : State := { cacheNode 3 open5 with
      near := { combine := [parked2] }, rma := { regions := [(1, region1 (some 0))] } }
    fenced s = false ∧ s.near.combine.find? (fun p => p.src == 2 && p.id == 9) = some parked2 ∧ field parked2.msg.hdr.op.toNat 3 0 = 1
      ∧ lineTurn s (parkedLine s parked2) = some 2 ∧ Machine.regionOf s 0x01000001 = some (region1 (some 0)) ∧ s.near.src = []
      ∧ seenOutcome s (regionPlace s (region1 (some 0)) parked2.msg.hdr.offset.toNat) 4 parked2.msg.reads = .good
      ∧ (let h : TrayHdr := { trayHdr 3 0 0 0x80000 4 with op := 1 }
        let r : TrayReq := .atomic h 1 0 .good
        let u : State := { s with near := { s.near with rotate := [(parkedLine s parked2, 1)] } }
        turnWaits (traySrcUpd 0 (fun x => { x with reorder := [(h.seq.toNat, r)] }) u) 0 r = true) := by decide

/-! ### WorkRequestCommands -/

/-- A device of the pod whose queue pair `n` holds a work request to take; protection domain 3 and region 1 are of context 0. -/
def posting (n : Nat) : State :=
  { ready with
    sec := { ready.sec with podSend := true, podGen := some 0 }
    rma := { bound := true, backed := 8192, pds := [(3, 0)], regions := [(1, { region1 none with pd := 3 })]
             qps := [(n, { newQp 0 3 0 noBlock 0 with sendProd := 1 })] } }

/-- A work request with nothing in it but its opcode. -/
def wr0 (op : Byte) : WorkReq :=
  { opcode := op, flags := 0, op := 0, rights := 0, dstDev := 0, wrId := 7, dstQp := 0, rkey := 0, remoteOff := 0, lkey := 0, len := 0, localOff := 0
    operand := 0, operand2 := 0, resv := 0 }

/-- A WRITE, READ or SEND of 64 bytes to device 2. -/
def wr64 (op : Byte) : WorkReq := { wr0 op with dstDev := 2, dstQp := 4000, lkey := 0x01000001, len := 64 }

set_option maxRecDepth 20000 in
theorem witness_WorkRequestCommands : let s := posting 3000
    let x : Qp := { newQp 0 3 0 noBlock 0 with sendProd := 1 }
    qpOf s 3000 = some x ∧ qpKind 3000 = 2 ∧ fenced s = false ∧ x.ready = true ∧ x.resident = true ∧ x.sendCons ≠ x.sendProd ∧ fnDma s x.ctx = true
      ∧ wrShape 2 (wr64 1) = true ∧ wrShape 2 (wr64 2) = true ∧ wrShape 2 (wr64 4) = true ∧ wrShape 2 { wr64 3 with op := 1, len := 4, lkey := 0 } = true
      ∧ wrShape 2 { wr64 1 with len := 0 } = false ∧ regionCheck s 0x01000001 x.pd (some 0) 0 64 = none ∧ (regionCheck s 0x01000002 x.pd none 0 64).isSome = true
      ∧ excluded s 2 = false ∧ podReady s 3000 = true ∧ inFlightRoom s = true ∧ (wrPieces 3000 (wr64 1)).length = 1 ∧ x.wrs = [] ∧ knownOp 9 = false
      ∧ absentPages (region1 none) 0 64 = [] ∧ (region1 none).t1 = none := by decide
set_option maxRecDepth 20000 in
theorem witness_WorkRequestCommands_control : let s := posting 0
    let b : RingBlock := { noBlock with sendLog := 6, recvLog := 6, cqLog := 6, vector := 8 }
    qpKind 0 = 0 ∧ wrOnly (wr0 0x80) [] = true ∧ (Tab.freshFrom s.rma.pds 4095 1).isSome = true ∧ wrOnly { wr0 0x81 with dstDev := 3 } [2] = true
      ∧ ownsPd s 3 0 = true ∧ ownsPd s 4 0 = false ∧ (Tab.freshFrom s.rma.qps (qpLimit s - 2048) 2048).isSome = true
      ∧ blockOk 4096 b = true ∧ blockOk 1 b = false ∧ wrOnly { wr0 0x83 with dstQp := 3000 } [3] = true ∧ (ownsQp s 0 0).isNone = true
      ∧ (ownsQp (posting 3000) 3000 0).any (fun y => y.wrs.isEmpty && y.ready && y.sendProd != y.sendCons) = true
      ∧ halfRoom s 0 = true
      ∧ (pageOfRights 0x01).isSome = true ∧ (takeIndex s).isSome = true ∧ (takeIndex { s with rma := { s.rma with fresh := 262144 } }).isNone = true
      ∧ (match ownRegion s 0x01000001 (newQp 0 3 0 noBlock 0) with | .ok (i, r) => i == 1 && r.valid | .error _ => false) = true := by decide
set_option maxRecDepth 20000 in
theorem witness_WorkRequestCommands_firmware : let s : State := { cacheNode 3 open5 with rma := { qps := [(fwQp, newQp 0 0 0 noBlock 0)] } }
    qpKind fwQp = 1 ∧ (qpOf s fwQp).isSome = true ∧ t1Range s (64 * 65536 + 0x80000) 4096 = some (0, 0x80000) ∧ (takeIndex s).isSome = true
      ∧ wrOnly { wr0 0x85 with remoteOff := 0x480000, operand := 4096, rights := 1 } [1, 5, 9] = true := by decide

/-! ### PodMessageCommands -/

/-- A message of type `ty` from queue pair 4000 of device 2 to queue pair 3000, sent at 20,000. -/
def podMsg (ty : Byte) (b : List Byte) : PodMsg :=
  { hdr := { podHdr0 with type := ty, src := 2, id := 9, firstTb := 20000, srcQp := 4000, dstQp := 3000, len := BitVec.ofNat 16 b.length, rkey := if ty = 1 ∨ ty = 2 ∨ ty = 4 then 0x01000001 else 0, rlen := if ty = 2 then 64 else 0, op := if ty = 4 then 1 else 0 }
    payload := b, tagOk := true, reads := .good, buf := (0x01000001, 64, 0), host := [] }

/-- The device with that queue pair, whose region 1 lies at `t1`. -/
def podTarget (t1 : Option PartId) : State :=
  { cacheNode 3 open5 with
    sec := { boot := 1, podSend := true, podGen := some 0 }
    rma := { qps := [(3000, { newQp 0 3 0 noBlock 0 with recvProd := 1 })], regions := [(1, { region1 t1 with pd := 3 })] } }

set_option maxRecDepth 20000 in
theorem witness_PodMessageCommands : let s := podTarget (some 0)
    fenced s = false ∧ s.tb < 20000 + 80000 ∧ (s.rma.ids = []) ∧ podEarly s (podMsg 1 [1]) = .ok ∧ podEarly s (podMsg 2 []) = .ok
      ∧ podEarly s (podMsg 3 [1]) = .ok ∧ podEarly s (podMsg 4 [1, 0, 0, 0]) = .ok ∧ podEarly s (podMsg 5 [1]) = .ok ∧ podEarly s (podMsg 1 []) = .malformed
      ∧ podKey s (podMsg 1 [1]) = .ok ∧ podKey s (podMsg 2 []) = .ok ∧ podAbsent s (podMsg 1 [1]) = [] ∧ podTagBad s (podMsg 1 [1]) = false
      ∧ (Machine.regionOf s 0x01000001).any (fun r => r.t1 == some 0) = true ∧ podReady s 3000 = true ∧ inFlightRoom s = true ∧ s.rma.queued = []
      ∧ (regionMerge { region1 (some 0) with pd := 3 } 0 [1] .good s).1 = true ∧ (64 : Nat) ≤ mostBytes 3000
      ∧ s.near.combine.length < 16384 ∧ (qpOf s 3000).any (fun x => x.resident && x.recvCons != x.recvProd) = true
      ∧ regionCheck s 0x01000001 3 (some 0) 0 64 = none ∧ absentPages { region1 (some 0) with pd := 3 } 0 1 = [] := by decide
set_option maxRecDepth 20000 in
theorem witness_PodMessageCommands_ack : let w : WrState := { wr := { wr0 1 with wrId := 7 }, data := [], todo := [], inflight := [{ off := 0, len := 1, id := 9, first := none, at_ := 0 }], got := [], applied := false, backoff := [], done := none, value := 0, heldPage := none }
    let o : PodOut := { id := 9, hdr := { podHdr0 with type := 1, src := 0, dst := 2, srcQp := 3000 }, payload := [1], first := 20000, sent := 20000, retx := 0, plane := 0, acked := false, fw := none, tenant := none, tc := 0 }
    let s : State := { podTarget none with rma := { (podTarget none).rma with out := [o], qps := [(3000, { newQp 0 3 0 noBlock 0 with wrs := [w] })] } }
    let a : PodMsg := { (podMsg 6 []) with hdr := { podHdr0 with type := 6, src := 2, id := 9 } }
    a.hdr.type = 6 ∧ excluded s (a.hdr.src.toNat % 4096) = false ∧ exclEpoch s (a.hdr.src.toNat % 4096) = a.hdr.xepoch ∧ a.hdr.dst.toNat = (myDev s).toNat
      ∧ podTagBad s a = false ∧ s.rma.out.find? (fun o => o.id == a.hdr.id.toNat) = some o ∧ statusOf a.hdr.status = some .ok
      ∧ o.hdr.dst.toNat % 4096 = a.hdr.src.toNat % 4096 ∧ (wrOf s 3000 9).isSome = true
      ∧ ((qpOf s 3000).map (fun x => x.wrs)) = some [w] ∧ w.wr.flags.toNat.testBit 1 = false := by decide

/-! ### RemoteTimerCommands -/

/-- One WRITE of queue pair 3000 in flight since `first`, last sent at `sent`. -/
def flight (first sent : Nat) (ty : Byte) : State :=
  let w : WrState := { wr := { wr0 1 with dstDev := 2 }, data := [1], todo := [], inflight := [{ off := 0, len := 1, id := 9, first := none, at_ := 0 }], got := [], applied := false, backoff := [], done := none, value := 0, heldPage := none }
  let o : PodOut := { id := 9, hdr := { podHdr0 with type := ty, dst := 2, srcQp := 3000 }, payload := [1], first := first, sent := sent, aired := true, retx := 0, plane := 0, acked := false, fw := none, tenant := none, tc := 0 }
  { podTarget none with
    links := { links := [(31, { state := 2 })] }
    rma := { (podTarget none).rma with out := [o], qps := [(3000, { newQp 0 3 0 noBlock 0 with wrs := [w] })] } }

set_option maxRecDepth 20000 in
theorem witness_RemoteTimerCommands : (let s := flight 60000 80000 1
      (s.rma.out.find? (fun o => o.id == 9)).any (fun o => o.aired && !podWaits s 9 && !o.acked && decide (o.sent + 5000 ≤ s.tb) && decide (s.tb < o.first + 40000) && o.retx == 0) = true
        ∧ mayEmit s = true ∧ slUp s = true)
    ∧ (let s := flight 0 0 1
      (s.rma.out.find? (fun o => o.id == 9)).any (fun o => o.aired && !o.acked && decide (o.first + 80008 ≤ s.tb)) = true ∧ (wrOf s 3000 9).isSome = true
        ∧ (qpOf s 3000).any (fun x => x.ready) = true)
    ∧ (let s : State := { flight 0 0 2 with tb := 900000000 }
      (s.rma.out.find? (fun o => o.id == 9)).any (fun o => o.hdr.type == 2 && o.aired && decide (o.first + (s.rma.faultTimeout + 1) * 625000 ≤ s.tb)) = true) := by
  decide
set_option maxRecDepth 20000 in
theorem witness_RemoteTimerCommands_backoff : let p : Piece := { off := 0, len := 1, id := 9, first := some 0, at_ := 0 }
    let w : WrState := { wr := { wr0 1 with dstDev := 2 }, data := [1], todo := [], inflight := [], got := [], applied := false, backoff := [p], done := none, value := 0, heldPage := none }
    let s : State := { podTarget none with rma := { (podTarget none).rma with qps := [(3000, { newQp 0 3 0 noBlock 0 with wrs := [w] })] } }
    backoffOf s 9 = some (3000, 0, w, p) ∧ p.at_ ≤ s.tb ∧ podReady s 3000 = true ∧ inFlightRoom s = true ∧ (qpOf s 3000).any (fun x => x.ready && x.resident) = true
      ∧ 0 + s.rma.retryLimit * 625000 ≤ 10000000000 ∧ qpKind 3000 ≠ 1
      ∧ (let o : PodOut := { id := 8, hdr := { podHdr0 with srcQp := 128, dst := 2 }, payload := [], first := 0, sent := 0, retx := 0, plane := 0, acked := false, fw := some (.cancel 5), tenant := none, tc := 0 }
        let t : State := { s with rma := { s.rma with refused := [o] } }
        t.rma.refused.find? (fun o => o.id == 8) = some o ∧ backoffOf t 8 = none ∧ o.due ≤ t.tb ∧ podReady t o.hdr.srcQp.toNat = true
          ∧ ({ o with firstRef := some 0, fw := some (.podKey 1) } : PodOut).fw.any keyMsg = true ∧ o.fw.any keyMsg = false
          ∧ ({ o with firstRef := some 0 } : PodOut).firstRef = some 0 ∧ 0 + t.rma.retryLimit * 625000 ≤ 10000000000) := by decide
set_option maxRecDepth 20000 in
theorem witness_RemoteTimerCommands_fetch : let s : State := { podTarget none with
      rma := { qps := [(3000, { newQp 0 3 0 noBlock 0 with resident := false, fetching := true })], openFaults := [{ rkey := 1, page := 2, opened := 0, failed := false, waiting := [] }] }
      tb := 900000000 }
    (qpOf s 3000).any (fun x => x.fetching) = true ∧ (s.rma.openFaults.find? (fun f => f.rkey == 1 && f.page == 2)).any (fun f => !f.failed) = true
      ∧ 0 + s.rma.faultTimeout * 625000 ≤ s.tb ∧ fenced s = false ∧ halfRoom (evictFor 0 s) 0 = true := by decide

/-! ### SchedulerCommands -/

/-- Two slots of 100 ticks for contexts 0 and 1; the frame that runs is the first, and a weight waits for the next. -/
def framed (sl : Nat) (tb : Nat) : State :=
  let base := region0 { state := 2, ctx := some 0 }
  let slot (m : DWord) : ImpSlot := { length := 100, kind := 0, contextMask := m, resv := 0 }
  let im : ImpositionSect := { (default : ImpositionSect) with frameTb := 200, slots := [slot 1, slot 2] }
  { base with
    pair := { live := 1 }
    forme := { base.forme with committed := base.forme.committed.map (fun c => { c with imposition := im }) }
    sched := { running := true, slot := sl, commitPending := true, ctxs := [(0, { weight := 1, staged := 5, debt := 30 })] }
    tb := tb }

set_option maxRecDepth 20000 in
theorem witness_SchedulerCommands : frameTb (framed 1 250) = 200 ∧ (framed 1 250).sched.frame.toNat < 250 / 200 ∧ (framed 1 250).sched.running = true
    ∧ (curSlot (framed 0 150)).isSome = true ∧ (framed 0 150).sched.slotStart + 100 ≤ 150 ∧ ¬ (framed 1 150).sched.slot + 1 < 2
    ∧ (curSlot (framed 0 80)).any (fun sl => sl.contextMask.toNat.testBit 0 && min (ctxOf (framed 0 80) 0).debt sl.length.toNat == 30) = true
    ∧ (ctxOf (framed 0 80) 0).pastEnd = false ∧ 0 + 100 - 30 ≤ 80 ∧ (cluster (framed 0 150) 0).ctx = some 0
    ∧ (framed 0 150).sched.sampledAt / Config.tbPerMs < 700000 / Config.tbPerMs := by decide
set_option maxRecDepth 20000 in
theorem witness_SchedulerCommands_saves : let s (b : Bool) : State := { framed 0 50 with
      clusters := [(0, { state := 4, ctx := some 0, moving := some (b, 0) })], sched := { (framed 0 50).sched with saves := [(0, default)] } }
    fenced (s true) = false ∧ streamsQuiet (s true) 0 0 = true ∧ (cluster (s true) 0).moving = some (true, 0) ∧ (cluster (s true) 0).ended = none
      ∧ (cluster (s false) 0).moving = some (false, 0) ∧ (Tab.find (s false).sched.saves 0).any (fun v => v.wait == .none) = true := by decide

/-! ### TimeAndResetCommands -/

/-- A pod barrier of two participants at this device, of whom device 2 has arrived. -/
def barrier2 : PodBarrier :=
  { part := 0, ctx := 0, coord := 0, participants := 2, inst := 0, sent := true, arrived := [2], early := [], release := none }

set_option maxRecDepth 20000 in
theorem witness_TimeAndResetCommands : let s : State := { ready with repro := { aligned := true, pods := [(5, barrier2)] }, tb := 7000000 }
    s.repro.timeAt + 625000 ≤ s.tb ∧ s.maint.pwrgd = true ∧ s.maint.silent = false ∧ s.repro.aligned = true ∧ s.repro.lastExchange = none ∧ fenced s = false
      ∧ Tab.find s.repro.pods 5 = some barrier2 ∧ barrier2.coord = myDev s ∧ (0 : DevId) ∉ barrier2.arrived ∧ barrier2.participants ≤ (barrier2.arrived ++ [0]).length
      ∧ myDev s ∈ barrier2.arrived ++ [0] ∧ barrier2.sent = true ∧ barrier2.release = none ∧ barrier2.early.length < barrier2.participants
      ∧ (8000000 : DWord).toNat > s.tb ∧ (1 : DWord).toNat ≤ s.tb ∧ ({ barrier2 with release := some 9 } : PodBarrier).release = some 9 := by decide
theorem witness_TimeAndResetCommands_reset : let r : State := { ready with maint := { ready.maint with phase := 0 } }
    let up : State := { ready with maint := { ready.maint with phase := 1, everReady := true } }
    r.maint.pwrgd = true ∧ r.maint.phase = 0 ∧ r.sec.boot = 1 ∧ up.maint.pwrgd = true ∧ resetting up = false ∧ coldInstead up = false
      ∧ coldInstead { up with maint := { up.maint with shutdownBegun := true } } = true ∧ Commands (cmd 0) true [0, 1, 2] 0 up ∧ up.maint.busy = false
      ∧ ({ up with maint := { up.maint with claims := [], portSteps := 0 } } : State).maint.claims = []
      ∧ ({ up with maint := { up.maint with claims := [], portSteps := 0 } } : State).maint.portSteps = 0
      ∧ ¬ (up.maint.claims = [] ∧ up.maint.portSteps = 0) ∧ up.maint.phase ≠ 3
      ∧ up.maint.after ≠ .thermalHold true ∧ resetting { up with maint := { up.maint with phase := 0 } } = true
      ∧ up.dev.ident.agree = true ∧ (5 : Word) ≠ up.dev.ident.maj ∧ (0 : BitVec 2).toNat ≤ 2 := by unfold Commands; decide

/-! ### RegisterAndNoticeCommands -/

theorem witness_RegisterAndNoticeCommands : responds ready 0 = true ∧ answers ready 0 = true ∧ pfLive ready 0 true = true ∧ pfLive ready 0 false = true
    ∧ responds ready 1 = false ∧ (widePair ready 0x018).isSome = true ∧ wideLive ready 0 true true = true ∧ widePair ready 0x01C = none
    ∧ latched { ready with dev := { ready.dev with latch := [(0, (0x01C, 5))] } } 0 0x01C = some 5 ∧ latched ready 0 0x01C = none
    ∧ widePair ready 0x014 = none ∧ widePair ready 0x010 = none ∧ (0x0240001C : Nat) = 0x0240001C + 0x4000 * 0
    ∧ answers { ready with host := { ready.host with flr := [0] } } 0 = false := by decide

/-- Words of a command store that hold the ATTEND of layer 0 over galleys: one head, latents of 16, FP8, contexts in FP32. -/
def attendWords : List Nat :=
  head8 4 0 [2 ^ 16 + 16 * 2 ^ 32, 0x3F800000 * 2 ^ 32, 7 + 9 * 2 ^ 16 + 2 ^ 24 + 2 ^ 32, 0, 0x3F800000 + 0x3F800000 * 2 ^ 32, 64, 0]
    ++ line8 0 7 16 0 ++ line8 4 7 16 0 ++ line8 0 9 16 0 ++ line8 0 10 8 0

/-- A request notice of one row from the device in slot 1, and the cache node at whose channel 3 it stands; channel 4 holds a
credit for the reply. -/
def notice1 : NoticeMsg :=
  { (default : NoticeMsg) with kind := 0xA1, qfmt := 7, layer := 0, rows := 1, epoch := 0, resv := 0, query := 0x100000080000
                               qscale := 0, rowtab := 0x100000090000, ctx := 0x1000000A0000 }
def noticed (m : NoticeMsg) : State :=
  let peer : ChanEntry := { chanIn.entry with peer := .tray 1 2 0 }
  { cacheNode 3 open5 with
    near := { lstate := [(1, { links := 0, role := 0, model := 0 })] }
    clusters := [(0, { state := 2, ctx := some 0
                       store := ((List.range attendWords.length).map (fun i => (i, BitVec.ofNat 64 (attendWords.getD i 0))))
                       chans := [(3, { chanIn with queue := [noticeBytes m], entry := peer })
                               , (4, { chanIn with queue := [], entry := { peer with send := true }, credits := 1 })] })] }

/-- The command that names that ATTEND; the tray lines read as zeros. -/
def noticeCmd : PressCmd := { descCmd with remote := List.replicate 48 0 }

set_option maxRecDepth 40000 in
theorem witness_RegisterAndNoticeCommands_notice : let s := noticed notice1
    let bad : State := noticed { notice1 with rows := 0 }
    fenced s = false ∧ canIssue s 0 = true ∧ (cluster s 0).press.length < 4 ∧ replyReady s 0 4 = true ∧ recvInPress (cluster s 0) 3 = false
      ∧ noticeHeld s 0 3 1 notice1 = true ∧ noticeHeld bad 0 3 1 { notice1 with rows := 0 } = true
      ∧ noticeCheck (dropHead 0 3 s) ((partOfRegion (dropHead 0 3 s) 0).getD 0) 1 notice1 = .ok
      ∧ noticeCheck (dropHead 0 3 bad) ((partOfRegion (dropHead 0 3 bad) 0).getD 0) 1 { notice1 with rows := 0 } = .malformed
      ∧ noticeCmd.reads = .good
      ∧ (noticeRun notice1 noticeCmd (clusterUpd 0 (fun x => { x with notice := some (1, notice1.step) }) (dropHead 0 3 s))).isSome = true := by decide
theorem witness_RegisterAndNoticeCommands_reply : let y : ReplyMsg := { (default : ReplyMsg) with kind := 0xA2, flags := 1 }
    let k : Chan := { chanIn with queue := [replyBytes y] }
    let s : State := { running with clusters := [(0, { state := 2, ctx := some 0, chans := [(3, k)] })] }
    canIssue s 0 = true ∧ recvInPress (cluster s 0) 3 = false ∧ channel s 0 3 = some k ∧ k.entry.tagCheck = false ∧ k.entry.send = false
      ∧ k.queue.head? = some (replyBytes y) ∧ y.flags.toNat.testBit 0 = true := by decide

/-! ### CommandWordsRoundTrip -/

theorem witness_CommandWordsRoundTrip : (Instr.waitch 0 2 5 64 true 3).wf = true ∧ commandWord (.waitch 0 2 5 64 true 3) = some 0x0800200005004083
    ∧ commandOf 0 false [] .good 0x0800200005004083 = some (.waitch 0 2 5 64 true 3)
    ∧ commandOf 0 false [] .good 0x0000000000000001 = none ∧ ((0x0A00000000000000 : DWord).extractLsb' 56 8).toNat = 0x0A := by decide

end Sys2Proof.Tests
end

section
/-!
Request records: what the record of a request is after each operation on the table of records (08 R207 to R209), and what of
the anchors and galleys it leaves alone.
-/

namespace Sys2Proof.Machine

/-! ### The record in the table -/

/-- A value put in the place of the first entry that answers a search is found by that search. -/
theorem find?_put_of_some {V : Type} {p : Nat × V → Bool} {t : Tab V} {k : Nat} {w v : V} (h : t.find? p = some (k, w))
    (hp : p (k, v) = true) : (Tab.put t k v).find? p = some (k, v) := by
  induction t with
  | nil => simp at h
  | cons e rest ih =>
    obtain ⟨a, u⟩ := e
    rw [List.find?_cons] at h
    rw [Tab.put]
    split
    · simp [hp]
    · split
      · simp [hp]
      · next hne =>
        cases hpa : p (a, u) with
        | true => rw [hpa] at h; exact absurd (congrArg Prod.fst (Option.some.inj h)).symm hne
        | false => rw [hpa] at h; rw [List.find?_cons, hpa]; exact ih h

/-- A value put into a table that answers a search nowhere is what the search finds. -/
theorem find?_put_of_none {V : Type} {p : Nat × V → Bool} {t : Tab V} {k : Nat} {v : V} (h : t.find? p = none)
    (hp : p (k, v) = true) : (Tab.put t k v).find? p = some (k, v) := by
  induction t with
  | nil => simp [Tab.put, hp]
  | cons e rest ih =>
    have he : ¬ p e = true := List.find?_eq_none.1 h e List.mem_cons_self
    have hr : rest.find? p = none := List.find?_eq_none.2 (fun x hx => List.find?_eq_none.1 h x (List.mem_cons_of_mem _ hx))
    rw [Tab.put]
    split
    · simp [hp]
    · split
      · simp [hp]
      · rw [List.find?_cons, Bool.eq_false_iff.2 he]; exact ih hr

theorem recEntry_spec {s : State} {q : ReqId} {i : Nat} {r : Rec} (h : recEntry s q = some (i, r)) : r.reqId = q ∧ r.state ≠ 0 := by
  simpa [recEntry] using List.find?_some h

theorem recFind_of_recEntry {s : State} {q : ReqId} {i : Nat} {r : Rec} (h : recEntry s q = some (i, r)) : recFind s q = some r := by
  rw [recFind, h]; rfl

theorem recFind_eq_some {s : State} {q : ReqId} {r : Rec} : recFind s q = some r ↔ ∃ i, recEntry s q = some (i, r) := by
  simp [recFind]

theorem recLive_eq_some {s : State} {q : ReqId} {r : Rec} : recLive s q = some r ↔ recFind s q = some r ∧ r.state ≠ 8 := by
  unfold recLive
  split
  · next x hx =>
    split
    · next h8 => simp only [hx, reduceCtorEq, Option.some.injEq, false_iff, not_and]; rintro rfl; exact fun h => h h8
    · next h8 => simp only [hx, Option.some.injEq]; exact ⟨fun h => ⟨h, h ▸ h8⟩, fun h => h.1⟩
  · next hx => simp [hx]

theorem recLive_of_recEntry {s : State} {q : ReqId} {i : Nat} {r : Rec} (h : recEntry s q = some (i, r)) (h8 : r.state ≠ 8) :
    recLive s q = some r := recLive_eq_some.2 ⟨recFind_of_recEntry h, h8⟩

/-- A live record stands at an index. -/
theorem recEntry_of_recLive {s : State} {q : ReqId} {r : Rec} (h : recLive s q = some r) : ∃ i, recEntry s q = some (i, r) :=
  recFind_eq_some.1 (recLive_eq_some.1 h).1

theorem reqId_of_recLive {s : State} {q : ReqId} {r : Rec} (h : recLive s q = some r) : r.reqId = q := by
  obtain ⟨i, hi⟩ := recEntry_of_recLive h
  exact (recEntry_spec hi).1

/-! ### States that hold the same tables -/

theorem recEntry_congr {s t : State} (h : t.req.recs = s.req.recs) (q : ReqId) : recEntry t q = recEntry s q := by
  unfold recEntry; rw [h]

theorem recFind_congr {s t : State} (h : t.req.recs = s.req.recs) (q : ReqId) : recFind t q = recFind s q := by
  unfold recFind; rw [recEntry_congr h]

theorem recLive_congr {s t : State} (h : t.req.recs = s.req.recs) (q : ReqId) : recLive t q = recLive s q := by
  unfold recLive; rw [recFind_congr h]

theorem recIndex_congr {s t : State} (h : t.req = s.req) : recIndex t = recIndex s := by unfold recIndex; rw [h]

theorem anchorOf_congr {s t : State} (h : t.req.anchors = s.req.anchors) (q : ReqId) : anchorOf t q = anchorOf s q := by
  unfold anchorOf; rw [h]

theorem galleyOf_congr {s t : State} (h : t.req.galleys = s.req.galleys) (q : ReqId) : galleyOf t q = galleyOf s q := by
  unfold galleyOf; rw [h]

/-! ### Changing a record -/

theorem recEntry_recUpd {s : State} {q : ReqId} {i : Nat} {r : Rec} {f : Rec → Rec} (h : recEntry s q = some (i, r))
    (hq : (f r).reqId = q) (h0 : (f r).state ≠ 0) : recEntry (recUpd q f s) q = some (i, f r) := by
  unfold recUpd
  rw [h]
  exact find?_put_of_some h (by simpa [hq] using h0)

theorem recFind_recUpd {s : State} {q : ReqId} {r : Rec} {f : Rec → Rec} (h : recFind s q = some r)
    (hq : (f r).reqId = q) (h0 : (f r).state ≠ 0) : recFind (recUpd q f s) q = some (f r) := by
  obtain ⟨i, hi⟩ := recFind_eq_some.1 h
  exact recFind_of_recEntry (recEntry_recUpd hi hq h0)

theorem recUpd_of_none {s : State} {q : ReqId} (f : Rec → Rec) (h : recEntry s q = none) : recUpd q f s = s := by
  unfold recUpd; rw [h]

theorem recUpd_anchors (q : ReqId) (f : Rec → Rec) (s : State) : (recUpd q f s).req.anchors = s.req.anchors := by
  unfold recUpd; split <;> rfl

@[simp] theorem anchorOf_recUpd (q p : ReqId) (f : Rec → Rec) (s : State) : anchorOf (recUpd q f s) p = anchorOf s p :=
  anchorOf_congr (recUpd_anchors q f s) p

/-! ### Creating, freeing and retiring a record -/

/-- A record is created where the request has one already, or where admission finds an index. -/
theorem recFind_recCreate {s : State} {r : Rec} (h0 : r.state ≠ 0) (h : (recEntry s r.reqId).isSome = true ∨ (recIndex s).isSome = true) :
    recFind (recCreate r s) r.reqId = some r := by
  have hp : ∀ i : Nat, (fun e : Nat × Rec => e.2.reqId == r.reqId && e.2.state != 0) (i, r) = true := fun i => by simpa using h0
  unfold recCreate
  split
  · next i _ hi => exact recFind_of_recEntry (i := i) (find?_put_of_some hi (hp i))
  · next hn =>
    obtain ⟨i, hi⟩ := Option.isSome_iff_exists.1 (h.resolve_left (by rw [hn]; simp))
    rw [hi]
    exact recFind_of_recEntry (i := i) (find?_put_of_none hn (hp i))

theorem recFree_find {s : State} {q : ReqId} {i : Nat} {r : Rec} (h : recEntry s q = some (i, r)) :
    Tab.find (recFree q s).req.recs i = none := by
  unfold recFree
  rw [h]
  exact Tab.find_del_same _ _

theorem recFree_anchors (q : ReqId) (s : State) : (recFree q s).req.anchors = s.req.anchors := by unfold recFree; split <;> rfl

theorem recFree_galleys (q : ReqId) (s : State) : (recFree q s).req.galleys = s.req.galleys := by unfold recFree; split <;> rfl

/-- A live record that is retired keeps its index, with the code. -/
theorem recRetire_find {s : State} {q : ReqId} {c : Status} {i : Nat} {r : Rec} (h : recEntry s q = some (i, r)) (h8 : r.state ≠ 8) :
    Tab.find (recRetire q c s).req.recs i = some { reqId := q, state := 8, status := codeOf c, stage := r.stage } := by
  unfold recRetire
  rw [h]
  simp only [h8, if_false]
  exact Tab.find_put_same _ _ _

theorem recFind_recRetire {s : State} {q : ReqId} {c : Status} {r : Rec} (h : recLive s q = some r) :
    recFind (recRetire q c s) q = some { reqId := q, state := 8, status := codeOf c, stage := r.stage } := by
  obtain ⟨hf, h8⟩ := recLive_eq_some.1 h
  obtain ⟨i, hi⟩ := recFind_eq_some.1 hf
  unfold recRetire
  rw [hi]
  simp only [h8, if_false]
  exact recFind_of_recEntry (i := i) (find?_put_of_some hi (by simp))

theorem recRetire_anchors (q : ReqId) (c : Status) (s : State) : (recRetire q c s).req.anchors = s.req.anchors := by
  unfold recRetire; split
  · rfl
  · split <;> rfl

end Sys2Proof.Machine
end

section
/-!
Messages between devices and completion entries: what sending and posting leave alone, a message to the device itself stays
emitted, and a posted entry stands in the ring or is held for it (16 R424, R426; log entry 41).
-/

namespace Sys2Proof.Machine

/-! ### What sending leaves alone -/

theorem sendFw_only (d : DevId) (e : Word) (m : FwMsg) (s : State) : OnlyChanges [.rma, .links, .out] s (sendFw d e m s) :=
  sendFw_changes rfl (OnlyChanges.refl _ s)

theorem toStages_only (a : AnchorInfo) (e : Word) (m : FwMsg) (s : State) : OnlyChanges [.rma, .links, .out] s (toStages a e m s) :=
  toStages_changes rfl (OnlyChanges.refl _ s)

@[simp] theorem sendFw_req (d : DevId) (e : Word) (m : FwMsg) (s : State) : (sendFw d e m s).req = s.req := sendFw_only d e m s .req rfl
@[simp] theorem toStages_req (a : AnchorInfo) (e : Word) (m : FwMsg) (s : State) : (toStages a e m s).req = s.req :=
  toStages_only a e m s .req rfl
@[simp] theorem toStages_pair (a : AnchorInfo) (e : Word) (m : FwMsg) (s : State) : (toStages a e m s).pair = s.pair :=
  toStages_only a e m s .pair rfl
@[simp] theorem toStages_host (a : AnchorInfo) (e : Word) (m : FwMsg) (s : State) : (toStages a e m s).host = s.host :=
  toStages_only a e m s .host rfl

@[simp] theorem recLive_sendFw (d : DevId) (e : Word) (m : FwMsg) (s : State) (q : ReqId) : recLive (sendFw d e m s) q = recLive s q :=
  recLive_congr (by rw [sendFw_req]) q
@[simp] theorem galleyOf_sendFw (d : DevId) (e : Word) (m : FwMsg) (s : State) (q : ReqId) : galleyOf (sendFw d e m s) q = galleyOf s q :=
  galleyOf_congr (by rw [sendFw_req]) q
@[simp] theorem recEntry_toStages (a : AnchorInfo) (e : Word) (m : FwMsg) (s : State) (q : ReqId) :
    recEntry (toStages a e m s) q = recEntry s q := recEntry_congr (by rw [toStages_req]) q
@[simp] theorem recFind_toStages (a : AnchorInfo) (e : Word) (m : FwMsg) (s : State) (q : ReqId) :
    recFind (toStages a e m s) q = recFind s q := recFind_congr (by rw [toStages_req]) q
@[simp] theorem anchorOf_toStages (a : AnchorInfo) (e : Word) (m : FwMsg) (s : State) (q : ReqId) :
    anchorOf (toStages a e m s) q = anchorOf s q := anchorOf_congr (by rw [toStages_req]) q

/-! ### Messages that stay emitted -/

theorem sendFw_out_mem {s : State} {x : Emit} (d : DevId) (e : Word) (m : FwMsg) (h : x ∈ s.out) : x ∈ (sendFw d e m s).out := by
  unfold sendFw
  split
  · exact List.mem_append_left _ h
  · split
    · split
      · exact h
      · rwa [enqueue_changes (Q := [.links]) rfl (OnlyChanges.refl _ s) .out rfl]
    · rwa [sendPod_changes (Q := [.rma, .links]) rfl (OnlyChanges.refl _ s) .out rfl]

/-- A message to the device itself is emitted at once. -/
theorem sendFw_self {s : State} {d : DevId} (e : Word) (m : FwMsg) (h : d = myDev s) : Emit.fwSelf m ∈ (sendFw d e m s).out := by
  unfold sendFw
  rw [if_pos h]
  exact List.mem_append_right _ (List.mem_singleton_self _)

theorem foldl_out_mem {A : Type} {f : State → A → State} {x : Emit} (hf : ∀ (u : State) (a : A), x ∈ u.out → x ∈ (f u a).out)
    (l : List A) {s : State} (h : x ∈ s.out) : x ∈ (l.foldl f s).out := by
  induction l generalizing s with
  | nil => exact h
  | cons a rest ih => exact ih (hf s a h)

theorem toStages_out_mem {s : State} {x : Emit} (a : AnchorInfo) (e : Word) (m : FwMsg) (h : x ∈ s.out) : x ∈ (toStages a e m s).out :=
  foldl_out_mem (fun _ r hu => foldl_out_mem (fun _ d hw => sendFw_out_mem d e m hw) (stageDevs r) hu) a.route h

/-! ### Completion entries -/

/-- A completion entry stands in the completion ring of a ring set, or is held for it (16 R426). -/
def CqPosted (k : RingRef) (y : CqEntry) (t : State) : Prop :=
  (∃ j p, Emit.cqEntry k j y p ∈ t.out) ∨ HeldItem.cq y ∈ (ringSet t k).held

theorem CqPosted.mono {k : RingRef} {y : CqEntry} {s t : State} (h : CqPosted k y s) (ho : ∀ x ∈ s.out, x ∈ t.out)
    (hh : (ringSet t k).held = (ringSet s k).held) : CqPosted k y t := by
  rcases h with ⟨j, p, h⟩ | h
  · exact .inl ⟨j, p, ho _ h⟩
  · exact .inr (hh ▸ h)

/-- Operations that leave the host interface alone and drop no output keep a posted entry posted. -/
theorem CqPosted.of_host {k : RingRef} {y : CqEntry} {s t : State} (h : CqPosted k y s) (ho : ∀ x ∈ s.out, x ∈ t.out)
    (hh : t.host = s.host) : CqPosted k y t :=
  h.mono ho (by unfold ringSet fnHost; rw [hh])

theorem msix_out_mem {s : State} {x : Emit} (fn : FnId) (v : Nat) (h : x ∈ s.out) : x ∈ (msix fn v s).out := by
  unfold msix
  split
  · exact List.mem_append_left _ h
  · exact h

theorem out_mem_ite {c : Prop} [Decidable c] {a b : State} {x : Emit} (ha : x ∈ a.out) (hb : x ∈ b.out) :
    x ∈ (if c then a else b).out := by
  split
  · exact ha
  · exact hb

theorem ringSignal_out_mem {s : State} {x : Emit} (k : RingRef) (h : x ∈ s.out) : x ∈ (ringSignal k s).out :=
  out_mem_ite (msix_out_mem _ _ h) h

/-- An entry that finds room is written, and otherwise waits behind what is held (16 R426). -/
theorem post_cqPosted (k : RingRef) (y : CqEntry) (s : State) : CqPosted k y (post k (.cq y) s) := by
  have held : CqPosted k y (ringUpd k (fun x => { x with held := x.held ++ [.cq y] }) s) := by
    right; rw [ringSet_ringUpd_same]; exact List.mem_append_right _ (List.mem_singleton_self _)
  unfold post
  split
  · unfold postNow
    split
    · next s' hs =>
      split at hs
      · dsimp only at hs
        split at hs
        · obtain rfl := Option.some.inj hs
          exact .inl ⟨_, _, ringSignal_out_mem k (List.mem_append_right _ (List.mem_singleton_self _))⟩
        · simp at hs
      · simp at hs
    · exact held
  · exact held

/-- The entry that `postCq` posts. -/
def cqEntryOf (k : RingRef) (tag : DWord) (q : ReqId) (kind : Byte) (c : Status) (n : Nat) (s : State) : CqEntry :=
  { hostTag := tag, reqId := q, kind := kind, status := codeOf c, sqHead := (ringSet s k).sqHead, commitLen := BitVec.ofNat 32 n }

theorem postCq_cqPosted (k : RingRef) (tag : DWord) (q : ReqId) (kind : Byte) (c : Status) (n : Nat) (s : State) :
    CqPosted k (cqEntryOf k tag q kind c n s) (postCq k tag q kind c n s) := post_cqPosted k _ s

theorem ringUpd_held {k : RingRef} {f : RingSet → RingSet} (s : State) (hf : ∀ x, (f x).held = x.held) :
    (ringSet (ringUpd k f s) k).held = (ringSet s k).held := by rw [ringSet_ringUpd_same]; exact hf _

theorem ringSet_fnUpd {k : RingRef} {f : FnHost → FnHost} (s : State) (hf : ∀ h, (f h).sets = h.sets) :
    ringSet (fnUpd k.fn f s) k = ringSet s k := by unfold ringSet; rw [fnHost_fnUpd_same, hf]

/-- The end of a taken entry drops nothing that is held. -/
theorem entryDone_held (k : RingRef) (s : State) : (ringSet (entryDone k s) k).held = (ringSet s k).held := by
  unfold entryDone
  dsimp only
  split
  · rw [ringSet_fnUpd, ringUpd_held, ringUpd_held] <;> exact fun _ => rfl
  · rw [ringUpd_held]; exact fun _ => rfl

theorem entryDone_out (k : RingRef) (s : State) : (entryDone k s).out = s.out :=
  entryDone_changes (Q := [.host]) rfl (OnlyChanges.refl _ s) .out rfl

theorem CqPosted.entryDone {k : RingRef} {y : CqEntry} {s : State} (h : CqPosted k y s) : CqPosted k y (entryDone k s) :=
  h.mono (fun x hx => by rwa [entryDone_out]) (entryDone_held k s)

theorem CqPosted.toStages {k : RingRef} {y : CqEntry} {s : State} (h : CqPosted k y s) (a : AnchorInfo) (e : Word) (m : FwMsg) :
    CqPosted k y (toStages a e m s) := h.of_host (fun _ hx => toStages_out_mem a e m hx) (toStages_host a e m s)

/-- A completion entry of the given fields is posted to a ring set. -/
def Completed (k : RingRef) (tag : DWord) (q : ReqId) (kind : Byte) (c : Status) (n : Nat) (t : State) : Prop :=
  ∃ y : CqEntry, y.hostTag = tag ∧ y.reqId = q ∧ y.kind = kind ∧ y.status = codeOf c ∧ y.commitLen = BitVec.ofNat 32 n ∧ CqPosted k y t

theorem postCq_completed (k : RingRef) (tag : DWord) (q : ReqId) (kind : Byte) (c : Status) (n : Nat) (s : State) :
    Completed k tag q kind c n (postCq k tag q kind c n s) :=
  ⟨cqEntryOf k tag q kind c n s, rfl, rfl, rfl, rfl, rfl, postCq_cqPosted ..⟩

theorem Completed.imp {k : RingRef} {tag : DWord} {q : ReqId} {kind : Byte} {c : Status} {n : Nat} {s t : State}
    (h : Completed k tag q kind c n s) (f : ∀ y, CqPosted k y s → CqPosted k y t) : Completed k tag q kind c n t := by
  obtain ⟨y, h1, h2, h3, h4, h5, hp⟩ := h
  exact ⟨y, h1, h2, h3, h4, h5, f y hp⟩

/-! ### What posting leaves alone -/

@[simp] theorem postCq_req (k : RingRef) (tag : DWord) (q : ReqId) (kind : Byte) (c : Status) (n : Nat) (s : State) :
    (postCq k tag q kind c n s).req = s.req := postCq_changes (Q := [.host, .out]) rfl (OnlyChanges.refl _ s) .req rfl
@[simp] theorem entryDone_req (k : RingRef) (s : State) : (entryDone k s).req = s.req :=
  entryDone_changes (Q := [.host]) rfl (OnlyChanges.refl _ s) .req rfl
@[simp] theorem postColophon_req (q : ReqId) (p : Bool) (c : Status) (s : State) : (postColophon q p c s).req = s.req :=
  postColophon_changes (Q := [.dev, .sec, .host, .repro, .out]) rfl (OnlyChanges.refl _ s) .req rfl
@[simp] theorem stageReport_req (r : Rec) (c : Status) (s : State) : (stageReport r c s).2.req = s.req := rfl

end Sys2Proof.Machine
end

section
/-!
Admission and resume at a device of a stage (00 R12; 08 R219, R220, R232, R237): what a stage admission, a refusal at the prompt
node and a resume at a node leave behind.
-/

namespace Sys2Proof.Machine

theorem myDev_congr {s t : State} (h : t.dev = s.dev) : myDev t = myDev s := by unfold myDev; rw [h]

theorem unlessFenced_of {s : State} (f : State → State) (h : fenced s = false) : unlessFenced f s = f s := by simp [unlessFenced, h]

/-! ### The order of R12 -/

/-- No check of an admission fails exactly where every one of them succeeds (00 R12). -/
theorem r12First_eq_none {l : List Status} : r12First l = none ↔ ∀ c ∈ l, isSuccess c = true := by
  induction l with
  | nil => simp [r12First]
  | cons c rest ih =>
    rw [r12First, List.forall_mem_cons]
    split
    · next h => rw [ih]; exact ⟨fun k => ⟨h, k⟩, fun k => k.2⟩
    · next h =>
      refine ⟨fun k => ?_, fun k => absurd k.1 h⟩
      split at k
      · simp at k
      · split at k <;> simp at k

/-- The code of an admission that fails is not a success (00 R12). -/
theorem r12First_not_success {l : List Status} {c : Status} (h : r12First l = some c) : isSuccess c = false := by
  induction l with
  | nil => simp [r12First] at h
  | cons a rest ih =>
    rw [r12First] at h
    split at h
    · exact ih h
    · next ha =>
      have ha : isSuccess a = false := Bool.eq_false_iff.2 ha
      split at h
      · exact Option.some.inj h ▸ ha
      · next hd =>
        split at h
        · exact ih (hd.trans h)
        · exact Option.some.inj h ▸ ha

/-- An admission whose checks pass finds an index for its record (08 R209, 00 R12). -/
theorem recIndex_of_admissionCodes {m : StageAdmission} {s : State} (h : ∀ c ∈ admissionCodes m s, isSuccess c = true) :
    (recIndex s).isSome = true := by
  by_contra hn
  have hn : (recIndex s).isNone = true := by simpa using hn
  have hr := h .retryLater (by simp [admissionCodes, hn])
  simp [isSuccess] at hr

/-! ### The record of an admission -/

/-- The fields that an admission gives the record of every device of its stage (08 R207, R219). -/
def AdmissionFields (m : StageAdmission) (x : Rec) : Prop :=
  x.state = 1 ∧ x.tenant = m.tenant ∧ x.stage = m.stage ∧ x.priority = m.priority ∧ x.epoch = m.epoch ∧ x.deadline = m.deadline
    ∧ x.anchor = m.anchor ∧ x.promptLen = m.promptLen.toNat ∧ x.maxLen = m.maxLen.toNat

/-- A device holds the ADMITTED record of an admission. -/
def AdmittedRec (m : StageAdmission) (t : State) : Prop := ∃ x : Rec, recFind t m.req = some x ∧ AdmissionFields m x

theorem admissionFields_rec (m : StageAdmission) (e : Route) (v : BitVec 4) (o : DevId) (n : Nat) (s : State) :
    AdmissionFields m (admissionRec m e v o n s) := ⟨rfl, rfl, rfl, rfl, rfl, rfl, rfl, rfl, rfl⟩

theorem AdmittedRec.congr {m : StageAdmission} {s t : State} (h : AdmittedRec m s) (k : t.req.recs = s.req.recs) : AdmittedRec m t := by
  obtain ⟨x, hx, hf⟩ := h
  exact ⟨x, (recFind_congr k _).trans hx, hf⟩

/-- The record of an admission is put where an index is free; only what the anchor keeps of its own record stays (08 R207). -/
theorem recFind_admissionPut {r : Rec} {s : State} (h0 : r.state ≠ 0)
    (hi : (recEntry s r.reqId).isSome = true ∨ (recIndex s).isSome = true) :
    ∃ v tag tb p, recFind (admissionPut r s) r.reqId = some { r with view := v, hostTag := tag, admitTb := tb, pauseAtEnd := p } := by
  unfold admissionPut
  split
  · next a ha =>
    have ha : recFind { s with free := s.free + 2 } r.reqId = some a := (recLive_eq_some.1 ha).1
    exact ⟨_, _, _, _, recFind_recUpd ha rfl h0⟩
  · exact ⟨r.view, r.hostTag, r.admitTb, r.pauseAtEnd, recFind_recCreate h0 hi⟩

theorem admittedRec_put {m : StageAdmission} {r : Rec} {s : State} (hq : r.reqId = m.req) (hr : AdmissionFields m r)
    (hi : (recIndex s).isSome = true) : AdmittedRec m (admissionPut r s) := by
  obtain ⟨v, tag, tb, p, hx⟩ := recFind_admissionPut (r := r) (by rw [hr.1]; decide) (.inr hi)
  rw [hq] at hx
  exact ⟨_, hx, hr⟩

/-! ### The branches of STAGE_ADMISSION -/

section
variable {m : StageAdmission} {e : Route} {s : State} (hf : fenced s = false) (he : m.route[m.stage.toNat]? = some e)
include hf he

theorem stageAdmission_prompt (hp : e.prompt.toNat = (myDev s).toNat) : stageAdmission m s = promptAdmit m e s := by
  simp [stageAdmission, hf, he, hp]

theorem stageAdmission_member (hp : e.prompt.toNat ≠ (myDev s).toNat)
    (hm : e.pair.toNat = (myDev s).toNat ∨ e.pair.toNat / 16 * 16 + (e.pair.toNat + 1) % 16 = (myDev s).toNat) :
    stageAdmission m s = sendFw (BitVec.ofNat 12 e.prompt.toNat) m.epoch (.admitAnswer m.req (memberAdmit m e s).1) (memberAdmit m e s).2 := by
  simp only [stageAdmission, hf, he, hp, hm, Bool.false_eq_true, if_false, if_true]

theorem stageAdmission_gen (hp : e.prompt.toNat ≠ (myDev s).toNat)
    (hm : ¬ (e.pair.toNat = (myDev s).toNat ∨ e.pair.toNat / 16 * 16 + (e.pair.toNat + 1) % 16 = (myDev s).toNat))
    (hg : e.gen.toNat = (myDev s).toNat) (hc : r12First (admissionCodes m s) = none) :
    stageAdmission m s = sendFw (BitVec.ofNat 12 e.prompt.toNat) m.epoch (.admitAnswer m.req .ok)
      (admissionPut (admissionRec m e (if firstOwner m e = myDev s then 2 else 0) (firstOwner m e) 0 s) s) := by
  simp only [stageAdmission, hf, he, hp, hm, hg, hc, Bool.false_eq_true, if_false, if_true]

end

/-! ### The prompt node -/

/-- What the prompt node checks itself: what every device of the stage checks, then the roles (08 R219). -/
def promptCodes (m : StageAdmission) (e : Route) (s : State) : List Status :=
  admissionCodes m s ++ [if rolesHold s m.epoch e then .ok else .epochStale]

theorem promptAdmit_own {m : StageAdmission} {e : Route} {s : State} {c : Status} (h : r12First (promptCodes m e s) = some c) :
    promptAdmit m e s = sendFw m.anchor m.epoch (.refusal m.req c) s := by
  unfold promptCodes at h
  simp only [promptAdmit, h]

/-- A message sent to one device after another reaches nothing but the links. -/
theorem sendAll_only (l : List DevId) (ep : Word) (x : FwMsg) (s : State) :
    OnlyChanges [.rma, .links, .out] s (l.foldl (fun s d => sendFw d ep x s) s) :=
  foldl_changes (OnlyChanges.refl _ s) (fun _ _ h => sendFw_changes rfl h)

/-- A prompt node that refuses an admission says so to the anchor and keeps nothing (08 R219). -/
theorem refusalSent {a : DevId} {ep : Word} {q : ReqId} {c : Status} {s u : State} (hu : OnlyChanges [.rma, .links, .out] s u) :
    OnlyChanges [.rma, .links, .out] s (sendFw a ep (.refusal q c) u)
      ∧ (a = myDev s → Emit.fwSelf (.refusal q c) ∈ (sendFw a ep (.refusal q c) u).out) :=
  ⟨sendFw_changes rfl hu, fun h => sendFw_self ep _ (h.trans (myDev_congr (hu .dev rfl)).symm)⟩

theorem promptAdmit_own_refuses {m : StageAdmission} {e : Route} {s : State} {c : Status} (h : r12First (promptCodes m e s) = some c) :
    OnlyChanges [.rma, .links, .out] s (promptAdmit m e s)
      ∧ (m.anchor = myDev s → Emit.fwSelf (.refusal m.req c) ∈ (promptAdmit m e s).out) := by
  rw [promptAdmit_own h]
  exact refusalSent (OnlyChanges.refl _ s)

theorem promptAdmit_peer_refuses {m : StageAdmission} {e : Route} {s : State} {c : Status} (h : r12First (promptCodes m e s) = none)
    (hc : r12First [m.lower, m.upper, m.genAns] = some c) :
    OnlyChanges [.rma, .links, .out] s (promptAdmit m e s)
      ∧ (m.anchor = myDev s → Emit.fwSelf (.refusal m.req c) ∈ (promptAdmit m e s).out) := by
  unfold promptCodes at h
  simp only [promptAdmit, h, hc]
  exact refusalSent (sendAll_only _ _ _ s)

/-- A prompt node whose checks pass and whose peers admit keeps the record; that of the last stage confirms (08 R219). -/
theorem promptAdmit_admits {m : StageAdmission} {e : Route} {s : State} (h : r12First (promptCodes m e s) = none)
    (hc : r12First [m.lower, m.upper, m.genAns] = none) :
    AdmittedRec m (promptAdmit m e s) ∧ (m.route.length = m.stage.toNat + 1 → m.anchor = myDev s →
      Emit.fwSelf (.confirmation m.req m.stage none) ∈ (promptAdmit m e s).out) := by
  have hi : (recIndex s).isSome = true := recIndex_of_admissionCodes (m := m) fun c hm =>
    r12First_eq_none.1 h c (List.mem_append_left _ hm)
  unfold promptCodes at h
  simp only [promptAdmit, h, hc]
  generalize hu : List.foldl _ s _ = u
  have ho : OnlyChanges [.rma, .links, .out] s u := hu ▸ sendAll_only _ _ _ s
  generalize hv : admissionPut _ u = v
  have hr : AdmittedRec m v := by
    rw [← hv]
    exact admittedRec_put rfl (admissionFields_rec _ _ _ _ _ _) (by rwa [recIndex_congr (ho .req rfl)])
  have hd : myDev v = myDev s := by
    rw [← hv]
    exact myDev_congr ((admissionPut_changes (Q := [.req, .free]) rfl (OnlyChanges.refl _ u) .dev rfl).trans (ho .dev rfl))
  split
  · next hl =>
    exact ⟨hr.congr (by rw [admitForward_changes (Q := [.rma, .links, .out]) rfl (OnlyChanges.refl _ v) .req rfl]),
      fun k => absurd hl (by omega)⟩
  · exact ⟨hr.congr (by rw [sendFw_req]), fun _ ha => sendFw_self _ _ (ha.trans hd.symm)⟩

/-! ### The members -/

/-- The galley that an admission makes on a member: empty, idle and not paused (08 R219). -/
def AdmittedGalley (m : StageAdmission) (t : State) : Prop :=
  ∃ g : Galley, galleyOf t m.req = some g ∧ g.tenant = m.tenant ∧ g.part = m.part ∧ g.count = 0 ∧ g.op = .idle ∧ g.pausedAt = none

/-- A member that answers OK has put the record of the admission, and a new galley beside it (08 R219). -/
theorem memberAdmit_ok {m : StageAdmission} {e : Route} {s : State} (hcopy : m.copy = none) (h : (memberAdmit m e s).1 = .ok) :
    ∃ (r : Rec) (n : Nat) (u : State), r.reqId = m.req ∧ AdmissionFields m r ∧ (recIndex u).isSome = true
      ∧ (memberAdmit m e s).2 = { admissionPut r u with req := { (admissionPut r u).req with
          galleys := Tab.put (admissionPut r u).req.galleys m.req.toNat (newGalley m r n (admissionPut r u)) } } := by
  unfold memberAdmit at h ⊢
  dsimp only at h ⊢
  split at h
  · next c hc =>
    obtain rfl : c = .ok := h
    exact absurd (r12First_not_success hc) (by decide)
  · next hn =>
    have hi : (recIndex s).isSome = true := recIndex_of_admissionCodes (m := m) fun c hm =>
      r12First_eq_none.1 hn c (List.mem_append_left _ hm)
    refine ⟨_, _, _, ?_, ?_, ?_, rfl⟩
    · rw [copyRec, hcopy]; rfl
    · rw [copyRec, hcopy]; exact ⟨rfl, rfl, rfl, rfl, rfl, rfl, rfl, rfl, rfl⟩
    · rwa [recIndex_congr (quotaReserve_changes (Q := [.tier]) rfl (OnlyChanges.refl _ s) .req rfl)]

/-- A member that answers OK holds the record and the galley (08 R219). -/
theorem memberAdmit_admits {m : StageAdmission} {e : Route} {s : State} (hcopy : m.copy = none) (h : (memberAdmit m e s).1 = .ok) :
    AdmittedRec m (memberAdmit m e s).2 ∧ AdmittedGalley m (memberAdmit m e s).2 := by
  obtain ⟨r, n, u, hq, hr, hi, he⟩ := memberAdmit_ok hcopy h
  rw [he]
  exact ⟨(admittedRec_put hq hr hi).congr rfl, _, Tab.find_put_same _ _ _, rfl, rfl, rfl, rfl, by simp [newGalley, hcopy]⟩

/-! ### A resume at a node -/

/-- A resume at a prompt or generation node of the stage puts a RESUMING record with the turn's committed length, epoch and deadline
(08 R232). -/
theorem resumeStage_node {w : StageResume} {e : Route} {s : State} (hf : fenced s = false)
    (he : w.adm.route[w.adm.stage.toNat]? = some e) (ht : w.takeOver = false)
    (hm : ¬ (e.pair.toNat = (myDev s).toNat ∨ e.pair.toNat / 16 * 16 + (e.pair.toNat + 1) % 16 = (myDev s).toNat))
    (hn : e.prompt.toNat = (myDev s).toNat ∨ e.gen.toNat = (myDev s).toNat) (hi : (recIndex s).isSome = true) :
    OnlyChanges [.req, .free] s (resumeStage w s) ∧ ∃ x : Rec, recFind (resumeStage w s) w.adm.req = some x ∧ x.state = 6
      ∧ x.commitLen = w.commitLen.toNat ∧ x.prefilled = w.commitLen.toNat ∧ x.epoch = w.adm.epoch ∧ x.deadline = w.adm.deadline := by
  simp only [resumeStage, hf, he, ht, hm, hn, Bool.false_eq_true, if_false, if_true]
  refine ⟨admissionPut_changes rfl (recUpd_changes rfl (OnlyChanges.refl _ s)), ?_⟩
  generalize hu : recUpd w.adm.req _ s = u
  have hiu : (recEntry u w.adm.req).isSome = true ∨ (recIndex u).isSome = true := by
    cases hr : recEntry s w.adm.req with
    | none => exact .inr (by rwa [← hu, recUpd_of_none _ hr])
    | some x => exact .inl (by
        obtain ⟨i, r⟩ := x
        rw [← hu, recEntry_recUpd hr (recEntry_spec hr).1 (recEntry_spec hr).2]; rfl)
  obtain ⟨v, tag, tb, p, hx⟩ := recFind_admissionPut (s := u) (r := { admissionRec w.adm e 0 0 0 s with
    commitLen := w.commitLen.toNat, state := 6, prefilled := w.commitLen.toNat }) (show (6 : BitVec 4) ≠ 0 by decide) hiu
  exact ⟨_, hx, rfl, rfl, rfl, rfl, rfl⟩

end Sys2Proof.Machine
end

section
/-!
What the messages of the stages do at the anchor of a request (08 R207, R218, R219, R228 to R232; 16 R424): confirmations of an
admission, a resume, a pause, a shelve and a release, refusals, retirements and drop reports.
-/

namespace Sys2Proof.Machine

@[simp] theorem excluded_toStages (a : AnchorInfo) (e : Word) (m : FwMsg) (s : State) (d : Nat) :
    excluded (toStages a e m s) d = excluded s d := by unfold excluded; rw [toStages_pair]

@[simp] theorem excluded_recUpd (q : ReqId) (f : Rec → Rec) (s : State) (d : Nat) : excluded (recUpd q f s) d = excluded s d := by
  unfold excluded; rw [recUpd_pair]

theorem allReleased_congr {s t : State} (h : ∀ d, excluded t d = excluded s d) (a : AnchorInfo) : allReleased a t = allReleased a s := by
  unfold allReleased; simp only [h]

/-! ### An admission is confirmed -/

/-- A cancellation that is passed on changes nothing but what is sent (08 R228). -/
theorem cancelAgain_cases (q : ReqId) (s : State) :
    cancelAgain q s = s ∨ ∃ (a : AnchorInfo) (e : Word), cancelAgain q s = toStages a e (.cancel q) s := by
  unfold cancelAgain
  split
  · next a r _ _ => split; exacts [.inr ⟨a, r.epoch, rfl⟩, .inl rfl]
  · exact .inl rfl

theorem cancelAgain_req (q : ReqId) (s : State) : (cancelAgain q s).req = s.req := by
  obtain h | ⟨a, e, h⟩ := cancelAgain_cases q s <;> rw [h]
  exact toStages_req ..

theorem CqPosted.cancelAgain {k : RingRef} {y : CqEntry} {s : State} (h : CqPosted k y s) (q : ReqId) : CqPosted k y (cancelAgain q s) := by
  obtain hc | ⟨a, e, hc⟩ := cancelAgain_cases q s <;> rw [hc]
  · exact h
  · exact h.toStages a e _

/-- The anchor's state once the last stage has confirmed an admission, before it posts ACCEPTED: the first prefill has begun and every
stage has been told (08 R218, R219). -/
def confirmedState (q : ReqId) (stage : Byte) (a : AnchorInfo) (r : Rec) (s : State) : State :=
  let s := anchorUpd q (fun a => { a with accepted := true, taking := false, segments := a.segments.tail }) s
  let s := match a.segments.head? with
    | some g => beginPrefill q 0 g.tokens s
    | none => s
  toStages a r.epoch (.confirmation q stage none) (recUpd q (fun r => { r with state := 2 }) s)

theorem admitted_eq {q : ReqId} {a : AnchorInfo} {r : Rec} {s : State} (stage : Byte) (ha : anchorOf s q = some a) (hr : recLive s q = some r) :
    admitted q stage s = cancelAgain q (entryDone a.ring (if a.silent then confirmedState q stage a r s
      else postCq a.ring r.hostTag q 1 .ok 0 (confirmedState q stage a r s))) := by
  unfold admitted
  rw [ha, hr]
  rfl

theorem admitted_req {q : ReqId} {a : AnchorInfo} {r : Rec} {s : State} (stage : Byte) (ha : anchorOf s q = some a) (hr : recLive s q = some r) :
    (admitted q stage s).req = (confirmedState q stage a r s).req := by
  rw [admitted_eq stage ha hr, cancelAgain_req, entryDone_req]
  split
  · rfl
  · exact postCq_req ..

theorem recFind_confirmedState {q : ReqId} {a : AnchorInfo} {r : Rec} {s : State} (stage : Byte) (hr : recLive s q = some r) :
    recFind (confirmedState q stage a r s) q = some { r with state := 2 } := by
  unfold confirmedState
  dsimp only
  rw [recFind_toStages]
  refine recFind_recUpd (r := r) ?_ (show r.reqId = q from reqId_of_recLive hr) (show (2 : BitVec 4) ≠ 0 by decide)
  split <;> exact (recLive_eq_some.1 hr).1

theorem anchorOf_confirmedState {q : ReqId} {a : AnchorInfo} {r : Rec} {s : State} (stage : Byte) (ha : anchorOf s q = some a) :
    ∃ b : AnchorInfo, anchorOf (confirmedState q stage a r s) q = some b ∧ b.accepted = true ∧ b.taking = false := by
  unfold confirmedState
  dsimp only
  rw [anchorOf_toStages, anchorOf_recUpd]
  split
  · rw [beginPrefill, anchorOf_anchorUpd_same, anchorOf_anchorUpd_same, ha]
    exact ⟨_, rfl, rfl, rfl⟩
  · rw [anchorOf_anchorUpd_same, ha]
    exact ⟨_, rfl, rfl, rfl⟩

/-- ACCEPTED is posted, unless the request is silent (08 R219, 16 R424). -/
theorem admitted_completed {q : ReqId} {a : AnchorInfo} {r : Rec} {s : State} (stage : Byte) (ha : anchorOf s q = some a)
    (hr : recLive s q = some r) (hs : a.silent = false) : Completed a.ring r.hostTag q 1 .ok 0 (admitted q stage s) := by
  rw [admitted_eq stage ha hr, hs]
  exact (postCq_completed a.ring r.hostTag q 1 .ok 0 _).imp fun y h => h.entryDone.cancelAgain q

theorem recFind_unshelved {q : ReqId} {r : Rec} {s : State} (h : recFind s q = some r) (h0 : r.state ≠ 0) :
    recFind (unshelved q s) q = some { r with expiry := 0 } := by
  obtain ⟨i, hi⟩ := recFind_eq_some.1 h
  exact recFind_recUpd (r := r) h (show r.reqId = q from (recEntry_spec hi).1) h0

section
variable {q : ReqId} {src : StageFrom} {a : AnchorInfo} {r : Rec} {s : State}
variable (ha : anchorOf s q = some a) (hr : recLive s q = some r)
include ha hr

/-! ### Confirmations -/

theorem confirmAt_last (hs : src.shelf = none) (h1 : r.state = 1) (hacc : a.accepted = false) (href : a.refused = none)
    (hl : src.stage.toNat + 1 = a.route.length) : confirmAt q src none s = admitted q src.stage s := by
  simp [confirmAt, ha, hr, hs, h1, hacc, href, hl]

theorem confirmAt_notLast (hs : src.shelf = none) (h1 : r.state = 1) (href : a.refused = none)
    (hl : src.stage.toNat + 1 ≠ a.route.length) : confirmAt q src none s = s := by
  simp [confirmAt, ha, hr, hs, h1, href, hl]

theorem confirmAt_released (hs : src.shelf = none) (href : a.refused.isSome = true) :
    confirmAt q src none s = releasedAt q src.sender s := by
  simp [confirmAt, ha, hr, hs, href]

theorem confirmAt_shelved {e : DWord} (hs : src.shelf = some e) (p : Option DropReport) :
    confirmAt q src p s = shelvedAt q src.stage.toNat e s := by
  simp [confirmAt, ha, hr, hs]

/-- The last confirmation of a resume makes the anchor's record HANDOVER, or PREFILL where there is a new turn (08 R232). -/
theorem confirmAt_resumed (hs : src.shelf = none) (h6 : r.state = 6) (href : a.refused = none) (hown : ownerView r = false)
    (hc : a.confirms.contains src.stage.toNat = false) (hl : a.confirms.length + 1 = a.route.length) :
    ∃ x : Rec, recFind (confirmAt q src none s) q = some x ∧ x.state = if a.turn.isEmpty then 3 else 2 := by
  have hq := reqId_of_recLive hr
  have h0 : r.state ≠ 0 := by rw [h6]; decide
  have h0' : (if a.turn.isEmpty then 3 else 2 : BitVec 4) ≠ 0 := by split <;> decide
  have hlast : (a.confirms ++ [src.stage.toNat]).length = a.route.length := by simpa using hl
  simp only [confirmAt, ha, hr, hs, h6, href, hown, hc, hlast, anchorOf_anchorUpd_same, Option.map_some, Option.isSome_none,
    Bool.false_eq_true, if_false, if_true, and_false, show ((6 : BitVec 4) = 1) = False by decide,
    show ((6 : BitVec 4) = 7) = False by decide]
  refine ⟨_, recFind_recUpd (r := { r with expiry := 0 }) ?_ hq h0', rfl⟩
  split <;> exact recFind_unshelved (s := anchorUpd q _ (anchorUpd q _ s)) (recLive_eq_some.1 hr).1 h0

/-- The last confirmation of a pause makes the anchor's record PAUSED and posts it, unless the request is silent (08 R231; log entry
174). -/
theorem confirmAt_paused (rep : DropReport) (hs : src.shelf = none)
    (hc : a.confirms.contains src.stage.toNat = false) (hl : a.confirms.length + 1 = a.route.length) :
    (∃ x : Rec, recFind (confirmAt q src (some rep) s) q = some x ∧ x.state = 5 ∧ x.flags = r.flags &&& 0xF7)
      ∧ (a.silent = false → Completed a.ring r.hostTag q 3 .ok r.commitLen (confirmAt q src (some rep) s)) := by
  have hq := reqId_of_recLive hr
  have hlast : (a.confirms ++ [src.stage.toNat]).length = a.route.length := by simpa using hl
  simp only [confirmAt, ha, hr, hs, hc, hlast, mergeReport, anchorOf_anchorUpd_same, Option.map_some, Bool.false_eq_true, if_false, if_true]
  generalize hu : recUpd q (fun r => { r with state := 5, flags := r.flags &&& 0xF7 }) _ = u
  have hrec : recFind u q = some { r with state := 5, flags := r.flags &&& 0xF7 } := by
    rw [← hu]
    exact recFind_recUpd (r := r) (recLive_eq_some.1 hr).1 hq (show (5 : BitVec 4) ≠ 0 by decide)
  refine ⟨⟨{ r with state := 5, flags := r.flags &&& 0xF7 }, ?_, rfl, rfl⟩, fun hsil => ?_⟩
  · split
    · exact hrec
    · exact (recFind_congr (by rw [postCq_req, postColophon_req]) q).trans hrec
  · rw [hsil]
    exact postCq_completed ..

/-- Once the last of its galleys is shelved, a PAUSED request holds their expiry tick at the anchor too (09 R257; log entry 203). -/
theorem shelvedAt_last {stage : Nat} (e : DWord) (h5 : r.state = 5) (hc : a.shelved.contains stage = false)
    (hl : a.shelved.length + 1 = a.route.length) :
    OnlyChanges [.req] s (shelvedAt q stage e s) ∧ recFind (shelvedAt q stage e s) q = some { r with expiry := e } := by
  have hq := reqId_of_recLive hr
  refine ⟨shelvedAt_changes rfl (OnlyChanges.refl _ s), ?_⟩
  have hlast : (a.shelved ++ [stage]).length = a.route.length := by simpa using hl
  simp only [shelvedAt, ha, hc, hlast, anchorOf_anchorUpd_same, Option.map_some, Bool.false_eq_true, if_false, if_true]
  have h0 : (if r.state = 5 then { r with expiry := e } else r) = { r with expiry := e } := if_pos h5
  have hx := recFind_recUpd (s := anchorUpd q (fun a => { a with shelved := if a.shelved.contains stage then a.shelved else a.shelved ++ [stage] }) s)
    (f := fun r => if r.state = 5 then { r with expiry := e } else r) (recLive_eq_some.1 hr).1 (by rw [h0]; exact hq)
    (by rw [h0]; exact (h5 ▸ by decide : r.state ≠ 0))
  rwa [h0] at hx

end

theorem withReq_only (s : State) (x : Req) : OnlyChanges [.req] s { s with req := x } := fun b hb => by
  cases b with
  | req => simp at hb
  | _ => rfl

/-! ### A refused admission -/

/-- While a device has not answered, a refused admission waits (08 R219). -/
theorem refusedEnd_waits {q : ReqId} {a : AnchorInfo} {s : State} (ha : anchorOf s q = some a) (hn : allReleased a s = false) :
    refusedEnd q s = s := by
  unfold refusedEnd
  rw [ha]
  split
  · next b r hb _ =>
    obtain rfl := Option.some.inj hb
    split
    · rfl
    · simp [hn]
  · rfl

/-- Once every device has answered, no record and no anchor entry is left, and the capsule is REFUSED, unless the request is silent (08
R219, 16 R424). -/
theorem refusedEnd_ends {q : ReqId} {a : AnchorInfo} {c : Status} {i : Nat} {r : Rec} {s : State} (ha : anchorOf s q = some a)
    (hi : recEntry s q = some (i, r)) (h8 : r.state ≠ 8) (hc : a.refused = some c) (hall : allReleased a s = true) :
    Tab.find (refusedEnd q s).req.recs i = none ∧ anchorOf (refusedEnd q s) q = none
      ∧ (a.silent = false → Completed a.ring r.hostTag 0 2 c 0 (refusedEnd q s)) := by
  have hr := recLive_of_recEntry hi h8
  simp only [refusedEnd, ha, hr, hc, hall, Bool.not_true, Bool.false_eq_true, if_false]
  generalize hu : (if a.silent = true then s else postCq a.ring r.hostTag 0 2 c 0 s) = u
  have hur : u.req = s.req := by
    rw [← hu]
    split
    · rfl
    · exact postCq_req ..
  refine ⟨?_, ?_, fun hs => ?_⟩
  · rw [entryDone_req]
    exact recFree_find (by rw [recEntry_congr (s := s) (by rw [hur])]; exact hi)
  · unfold anchorOf
    rw [entryDone_req, recFree_anchors]
    exact Tab.find_del_same _ _
  · have hp : Completed a.ring r.hostTag 0 2 c 0 u := by rw [← hu, hs]; exact postCq_completed ..
    have hw : OnlyChanges [.req] u (recFree q { u with req := { u.req with anchors := Tab.del u.req.anchors q.toNat } }) :=
      recFree_changes rfl (withReq_only u _)
    exact hp.imp fun y h => CqPosted.entryDone (h.of_host (fun x hx => by rwa [hw .out rfl]) (hw .host rfl))

section
variable {q : ReqId} {a : AnchorInfo} {i : Nat} {r : Rec} {s : State}

/-- The refusal of an admission at its anchor: the record is DRAINING under the code, and every stage is told to release (08 R219). -/
def refusedState (q : ReqId) (c : Status) (a : AnchorInfo) (r : Rec) (s : State) : State :=
  toStages a r.epoch (.releaseRecords q)
    (recUpd q (fun r => { r with state := 7, status := codeOf c }) (anchorUpd q (fun a => { a with refused := some c }) s))

theorem refusalAt_first (c : Status) (d : DevId) (ha : anchorOf s q = some a) (hr : recLive s q = some r) (href : a.refused = none) :
    refusalAt q c d s = refusedEnd q (refusedState q c a r s) := by
  unfold refusalAt
  rw [ha, hr]
  simp only [href, Option.isSome_none, Bool.false_eq_true, if_false]
  rfl

theorem anchorOf_refusedState (c : Status) (ha : anchorOf s q = some a) :
    anchorOf (refusedState q c a r s) q = some { a with refused := some c } := by
  rw [refusedState, anchorOf_toStages, anchorOf_recUpd, anchorOf_anchorUpd_same, ha]
  rfl

theorem recEntry_refusedState (c : Status) (hi : recEntry s q = some (i, r)) :
    recEntry (refusedState q c a r s) q = some (i, { r with state := 7, status := codeOf c }) := by
  rw [refusedState, recEntry_toStages]
  exact recEntry_recUpd (r := r) hi (recEntry_spec hi).1 (show (7 : BitVec 4) ≠ 0 by decide)

theorem allReleased_refusedState (c c' : Status) : allReleased { a with refused := some c' } (refusedState q c a r s) = allReleased a s :=
  allReleased_congr (t := refusedState q c a r s) (s := s) (fun d => by rw [refusedState, excluded_toStages, excluded_recUpd]; rfl) a

/-- A first refusal waits for the devices that have not answered (08 R219). -/
theorem refusalAt_waits (c : Status) (d : DevId) (ha : anchorOf s q = some a) (hr : recLive s q = some r) (href : a.refused = none)
    (hn : allReleased a s = false) :
    (∃ x : Rec, recFind (refusalAt q c d s) q = some x ∧ x.state = 7 ∧ x.status = codeOf c)
      ∧ ∃ b : AnchorInfo, anchorOf (refusalAt q c d s) q = some b ∧ b = { a with refused := some c } := by
  obtain ⟨i, hi⟩ := recEntry_of_recLive hr
  rw [refusalAt_first c d ha hr href, refusedEnd_waits (anchorOf_refusedState c ha) (by rw [allReleased_refusedState, hn])]
  exact ⟨⟨_, recFind_of_recEntry (recEntry_refusedState c hi), rfl, rfl⟩, _, anchorOf_refusedState c ha, rfl⟩

theorem refusalAt_ends (c : Status) (d : DevId) (ha : anchorOf s q = some a) (hr : recLive s q = some r) (href : a.refused = none)
    (hall : allReleased a s = true) (hi : recEntry s q = some (i, r)) :
    Tab.find (refusalAt q c d s).req.recs i = none ∧ anchorOf (refusalAt q c d s) q = none
      ∧ (a.silent = false → Completed a.ring r.hostTag 0 2 c 0 (refusalAt q c d s)) := by
  rw [refusalAt_first c d ha hr href]
  have hend := refusedEnd_ends (anchorOf_refusedState (r := r) c ha) (recEntry_refusedState c hi) (show (7 : BitVec 4) ≠ 8 by decide) rfl
    (by rw [allReleased_refusedState, hall])
  exact hend

/-- The anchor's entry once a device has released what it took. -/
def withReleased (d : DevId) (a : AnchorInfo) : AnchorInfo :=
  { a with released := if a.released.contains d then a.released else a.released ++ [d] }

theorem anchorOf_withReleased (d : DevId) (ha : anchorOf s q = some a) :
    anchorOf (anchorUpd q (withReleased d) s) q = some (withReleased d a) := by
  rw [anchorOf_anchorUpd_same, ha]
  rfl

theorem releasedAt_waits (d : DevId) (ha : anchorOf s q = some a) (hn : allReleased (withReleased d a) s = false) :
    releasedAt q d s = anchorUpd q (withReleased d) s :=
  refusedEnd_waits (s := anchorUpd q (withReleased d) s) (anchorOf_withReleased d ha) hn

theorem releasedAt_ends {c : Status} (d : DevId) (ha : anchorOf s q = some a) (hi : recEntry s q = some (i, r)) (h8 : r.state ≠ 8)
    (hc : a.refused = some c) (hall : allReleased (withReleased d a) s = true) :
    Tab.find (releasedAt q d s).req.recs i = none ∧ anchorOf (releasedAt q d s) q = none
      ∧ (a.silent = false → Completed a.ring r.hostTag 0 2 c 0 (releasedAt q d s)) := by
  have hend := refusedEnd_ends (s := anchorUpd q (withReleased d) s) (anchorOf_withReleased d ha) hi h8 hc hall
  exact hend

/-! ### Retirement and drop -/

/-- A retirement that does not re-prefill gives the anchor's entry the code, and its record is DRAINING under it unless the anchor owns
the galley (08 R229). -/
theorem anchorEnd_first (c : Status) (ha : anchorOf s q = some a) (hr : recLive s q = some r) (hc : a.code = none)
    (hown : ownerView r = false) :
    (∃ b : AnchorInfo, anchorOf (anchorEnd q c s) q = some b ∧ b.code = some c)
      ∧ ∃ x : Rec, recFind (anchorEnd q c s) q = some x ∧ x.state = 7 ∧ x.status = codeOf c := by
  simp only [anchorEnd, ha, hr, hc, hown, Bool.false_eq_true, if_false, anchorOf_toStages, anchorOf_recUpd, anchorOf_anchorUpd_same,
    Option.map_some, recFind_toStages]
  exact ⟨⟨_, rfl, rfl⟩, _, recFind_recUpd (r := r) (recLive_eq_some.1 hr).1 (show r.reqId = q from reqId_of_recLive hr)
    (show (7 : BitVec 4) ≠ 0 by decide), rfl, rfl⟩

theorem retirement_first (c : Status) (ha : anchorOf s q = some a) (hr : recLive s q = some r) (hc : a.code = none)
    (hn : c ≠ .stateLost ∨ reprefillHeld q r s = false) : retirement q c s = anchorEnd q c s := by
  have hk : (c = .stateLost && reprefillHeld q r s) = false := by rcases hn with h | h <;> simp [h]
  simp only [retirement, ha, hr, hc, hk, Option.isNone_none, Bool.true_or, Bool.and_true, Bool.false_eq_true, if_true, if_false]

end

/-! ### Drop reports -/

/-- The anchor's entry once a stage has reported its drop (08 R230, 14 R377). -/
def withReport (rep : DropReport) (a : AnchorInfo) : AnchorInfo :=
  mergeReport rep { a with
    dropped := if a.dropped.contains rep.stage.toNat then a.dropped else a.dropped ++ [rep.stage.toNat]
    code := firstCode (a.code.toList.filter isTerminal ++ (if isTerminal rep.code then [rep.code] else [])) }

/-- The anchor's state once a stage has reported its drop: its record is DRAINING unless the anchor owns the galley (08 R230). -/
def reportedState (rep : DropReport) (r : Rec) (s : State) : State :=
  let s := anchorUpd rep.req (withReport rep) s
  if ownerView r then s else recUpd rep.req (fun r => { r with state := 7, status := codeOf rep.code }) s

section
variable {rep : DropReport} {a : AnchorInfo} {i : Nat} {r : Rec} {s : State}

theorem anchorOf_reportedState (ha : anchorOf s rep.req = some a) : anchorOf (reportedState rep r s) rep.req = some (withReport rep a) := by
  have h : anchorOf (anchorUpd rep.req (withReport rep) s) rep.req = some (withReport rep a) := by
    rw [anchorOf_anchorUpd_same, ha]; rfl
  unfold reportedState
  dsimp only
  split
  · exact h
  · rwa [anchorOf_recUpd]

theorem reportedState_only : OnlyChanges [.req] s (reportedState rep r s) := by
  unfold reportedState
  dsimp only
  split
  · exact anchorUpd_changes rfl (OnlyChanges.refl _ s)
  · exact recUpd_changes rfl (anchorUpd_changes rfl (OnlyChanges.refl _ s))

/-- The record keeps its index, its host tag and its committed length, and stays live. -/
theorem recEntry_reportedState (hi : recEntry s rep.req = some (i, r)) (h8 : r.state ≠ 8) :
    ∃ x : Rec, recEntry (reportedState rep r s) rep.req = some (i, x) ∧ x.state ≠ 8 ∧ x.hostTag = r.hostTag ∧ x.commitLen = r.commitLen := by
  unfold reportedState
  dsimp only
  split
  · exact ⟨r, hi, h8, rfl, rfl⟩
  · exact ⟨_, recEntry_recUpd (r := r) hi (recEntry_spec hi).1 (show (7 : BitVec 4) ≠ 0 by decide), show (7 : BitVec 4) ≠ 8 by decide, rfl, rfl⟩

theorem dropReportAt_eq (ha : anchorOf s rep.req = some a) (hr : recLive s rep.req = some r) :
    dropReportAt rep s = if (withReport rep a).dropped.length = a.route.length then anchorFinish rep.req (reportedState rep r s)
      else reportedState rep r s := by
  have h := anchorOf_reportedState (r := r) ha
  unfold reportedState withReport at h
  unfold dropReportAt reportedState withReport
  rw [ha, hr]
  dsimp only at h ⊢
  rw [h]
  rfl

theorem withReport_dropped (hd : a.dropped.contains rep.stage.toNat = false) : (withReport rep a).dropped = a.dropped ++ [rep.stage.toNat] := by
  simp only [withReport, mergeReport, hd, Bool.false_eq_true, if_false]

/-- A drop report that is not the last is entered at the anchor and ends nothing (08 R230). -/
theorem dropReportAt_waits (ha : anchorOf s rep.req = some a) (hr : recLive s rep.req = some r)
    (hd : a.dropped.contains rep.stage.toNat = false) (hn : a.dropped.length + 1 ≠ a.route.length) :
    OnlyChanges [.req] s (dropReportAt rep s) ∧ ∃ b : AnchorInfo, anchorOf (dropReportAt rep s) rep.req = some b
      ∧ b.dropped = a.dropped ++ [rep.stage.toNat] ∧ b.degraded = (a.degraded || rep.degraded) := by
  rw [dropReportAt_eq ha hr, withReport_dropped hd, List.length_append, List.length_singleton, if_neg hn]
  exact ⟨reportedState_only, _, anchorOf_reportedState ha, withReport_dropped hd, rfl⟩

end

/-! ### The end of a request -/

/-- What the anchor posts at the end of a request (08 R230, 16 R424). -/
def finalPost (q : ReqId) (a : AnchorInfo) (r : Rec) (c : Status) (s : State) : State :=
  if a.silent then s
  else if a.accepted then postCq a.ring r.hostTag q 4 c r.commitLen (postColophon q false c s)
  else postCq a.ring r.hostTag q 2 c 0 s

theorem finalPost_req (q : ReqId) (a : AnchorInfo) (r : Rec) (c : Status) (s : State) : (finalPost q a r c s).req = s.req := by
  unfold finalPost
  split
  · rfl
  · split
    · rw [postCq_req, postColophon_req]
    · rw [postCq_req]

theorem finalPost_completed {q : ReqId} {a : AnchorInfo} {r : Rec} {c : Status} {s : State} (hs : a.silent = false) (ha : a.accepted = true) :
    Completed a.ring r.hostTag q 4 c r.commitLen (finalPost q a r c s) := by
  simp only [finalPost, hs, ha, Bool.false_eq_true, if_false, if_true]
  exact postCq_completed ..

/-- The end of the entry that a capsule still takes. -/
def endTaken (a : AnchorInfo) (s : State) : State := if a.taking then entryDone a.ring s else s

theorem endTaken_req (a : AnchorInfo) (s : State) : (endTaken a s).req = s.req := by
  unfold endTaken
  split
  · exact entryDone_req ..
  · rfl

theorem CqPosted.endTaken {a : AnchorInfo} {y : CqEntry} {s : State} (h : CqPosted a.ring y s) : CqPosted a.ring y (endTaken a s) := by
  unfold Machine.endTaken
  split
  · exact h.entryDone
  · exact h

/-- The code a request ends with at its anchor (00 R11, R13). -/
def finalCode (a : AnchorInfo) : Status := if isTerminal (a.code.getD .ok) then a.code.getD .ok else infoCode a

/-- A request that is lost is counted. -/
def countIfLost (c : Status) (s : State) : State := if c = .stateLost then countLost s else s

theorem countIfLost_recs (c : Status) (s : State) : (countIfLost c s).req.recs = s.req.recs := by
  unfold countIfLost
  split
  · rw [countLost, noteErr_req]
  · rfl

theorem anchorFinish_eq {q : ReqId} {a : AnchorInfo} {r : Rec} {s : State} (ha : anchorOf s q = some a) (hr : recLive s q = some r) :
    anchorFinish q s =
      let u := endTaken a (finalPost q a r (finalCode a) (countIfLost (finalCode a) s))
      recRetire q (finalCode a) { u with req := { u.req with anchors := Tab.del u.req.anchors q.toNat } } := by
  unfold anchorFinish
  rw [ha, hr]
  rfl

/-- The end of a request at its anchor: RETIRED is posted for an accepted request that is not silent, and its record is RETIRED
(08 R230, 16 R424). -/
theorem anchorFinish_ends {q : ReqId} {a : AnchorInfo} {i : Nat} {r : Rec} {s : State} (ha : anchorOf s q = some a)
    (hi : recEntry s q = some (i, r)) (h8 : r.state ≠ 8) :
    anchorOf (anchorFinish q s) q = none ∧ ∃ (x : Rec) (code : Status), Tab.find (anchorFinish q s).req.recs i = some x ∧ x.state = 8
      ∧ x.status = codeOf code
      ∧ (a.silent = false → a.accepted = true → Completed a.ring r.hostTag q 4 code r.commitLen (anchorFinish q s)) := by
  rw [anchorFinish_eq ha (recLive_of_recEntry hi h8)]
  dsimp only
  generalize hu : endTaken a (finalPost q a r (finalCode a) (countIfLost (finalCode a) s)) = u
  have hrecs : u.req.recs = s.req.recs := by rw [← hu, endTaken_req, finalPost_req, countIfLost_recs]
  generalize hv : ({ u with req := { u.req with anchors := Tab.del u.req.anchors q.toNat } } : State) = v
  have hvi : recEntry v q = some (i, r) := by rw [recEntry_congr (s := s) (by rw [← hv]; exact hrecs)]; exact hi
  refine ⟨?_, _, finalCode a, recRetire_find hvi h8, rfl, rfl, fun hs hacc => ?_⟩
  · rw [anchorOf_congr (recRetire_anchors q _ v), ← hv]
    exact Tab.find_del_same _ _
  · have hp : Completed a.ring r.hostTag q 4 (finalCode a) r.commitLen u := by
      rw [← hu]
      exact (finalPost_completed hs hacc).imp fun _ h => h.endTaken
    have hw : OnlyChanges [.req] u (recRetire q (finalCode a) v) := recRetire_changes rfl (hv ▸ withReq_only u _)
    exact hp.imp fun _ h => h.of_host (fun x hx => by rwa [hw .out rfl]) (hw .host rfl)

/-- The last drop report ends the request at its anchor (08 R230). -/
theorem dropReportAt_last {rep : DropReport} {a : AnchorInfo} {i : Nat} {r : Rec} {s : State} (ha : anchorOf s rep.req = some a)
    (hr : recLive s rep.req = some r) (hd : a.dropped.contains rep.stage.toNat = false) (hl : a.dropped.length + 1 = a.route.length)
    (hi : recEntry s rep.req = some (i, r)) :
    anchorOf (dropReportAt rep s) rep.req = none ∧ ∃ (x : Rec) (code : Status), Tab.find (dropReportAt rep s).req.recs i = some x
      ∧ x.state = 8 ∧ x.status = codeOf code
      ∧ (a.silent = false → a.accepted = true → Completed a.ring r.hostTag rep.req 4 code r.commitLen (dropReportAt rep s)) := by
  rw [dropReportAt_eq ha hr, withReport_dropped hd, List.length_append, List.length_singleton, if_pos hl]
  obtain ⟨x, hx, h8, htag, hlen⟩ := recEntry_reportedState hi (recLive_eq_some.1 hr).2
  have hend := anchorFinish_ends (anchorOf_reportedState (r := r) ha) hx h8
  rw [htag, hlen] at hend
  exact hend

end Sys2Proof.Machine
end

section
/-!
What cancellations, retirements and refusals do at a device of a stage (08 R218, R219, R228 to R231): a release, a condition that
waits for the boundary, and the drop of a stage's galley and record.
-/

namespace Sys2Proof.Machine

/-! ### A release -/

/-- The state of a device once the galley of an admission is given back (08 R219). -/
def galleyReturned (q : ReqId) (s : State) : State :=
  match galleyOf s q with
  | some g => { (quotaReturn g.tenant g.resv (freePages q (fun _ => true) s)) with
      req := { s.req with galleys := Tab.del s.req.galleys q.toNat } }
  | none => s

theorem galleyReturned_recs (q : ReqId) (s : State) : (galleyReturned q s).req.recs = s.req.recs := by
  unfold galleyReturned
  split <;> rfl

theorem galleyOf_galleyReturned (q : ReqId) (s : State) : galleyOf (galleyReturned q s) q = none := by
  unfold galleyReturned
  split
  · exact Tab.find_del_same _ _
  · next hg => exact hg

theorem releaseStage_admitted {q : ReqId} {r : Rec} {s : State} (hr : recLive s q = some r) (h1 : r.state = 1)
    (hv : anchorView r = false) :
    releaseStage q s = sendFw r.anchor r.epoch (.confirmation q r.stage none) (recFree q (galleyReturned q s)) := by
  unfold releaseStage
  rw [hr]
  simp only [h1, hv, Bool.false_eq_true, if_false, decide_true, Bool.true_or, Bool.not_true]
  rfl

/-- The refusal of an admission at a device that is not its anchor leaves neither record nor galley (08 R219; 00 R12). -/
theorem releaseStage_clears {q : ReqId} {i : Nat} {r : Rec} {s : State} (hi : recEntry s q = some (i, r)) (h1 : r.state = 1)
    (hv : anchorView r = false) :
    Tab.find (releaseStage q s).req.recs i = none ∧ galleyOf (releaseStage q s) q = none := by
  rw [releaseStage_admitted (recLive_of_recEntry hi (by rw [h1]; decide)) h1 hv, sendFw_req, galleyOf_sendFw,
    galleyOf_congr (recFree_galleys q _)]
  exact ⟨recFree_find ((recEntry_congr (galleyReturned_recs q s) q).trans hi), galleyOf_galleyReturned q s⟩

theorem refusal_noAnchor {q : ReqId} (c : Status) (d : DevId) {s : State} (ha : anchorOf s q = none) : refusal q c d s = releaseStage q s := by
  unfold refusal
  rw [ha]

theorem refusal_first {q : ReqId} {a : AnchorInfo} {r : Rec} {s : State} (c : Status) (d : DevId) (ha : anchorOf s q = some a)
    (hr : recLive s q = some r) (hacc : a.accepted = false) (href : a.refused = none) : refusal q c d s = refusalAt q c d s := by
  simp [refusal, ha, hr, hacc, href]

/-! ### A running request at its owner -/

section
variable {q : ReqId} {r : Rec} {s : State} (hr : recLive s q = some r) (hown : ownerView r = true)
  (hrun : r.state = 2 ∨ r.state = 3 ∨ r.state = 4)
include hr hown hrun

/-- A cancellation waits for the boundary: only its flag is set (08 R228). -/
theorem cancelStage_running : OnlyChanges [.req] s (cancelStage q s) ∧ recFind (cancelStage q s) q = some { r with flags := r.flags ||| 4 } := by
  have hne : (r.state = 1 || r.state = 5 || r.state = 6) = false := by rcases hrun with h | h | h <;> rw [h] <;> decide
  have h0 : r.state ≠ 0 := by rcases hrun with h | h | h <;> rw [h] <;> decide
  have he : cancelStage q s = recUpd q (fun r => { r with flags := r.flags ||| 4 }) s := by
    simp only [cancelStage, hr, hown, hne, Bool.false_eq_true, if_false, if_true]
  rw [he]
  exact ⟨recUpd_changes rfl (OnlyChanges.refl _ s),
    recFind_recUpd (r := r) (recLive_eq_some.1 hr).1 (show r.reqId = q from reqId_of_recLive hr) h0⟩

/-- A retirement waits for the boundary as a condition of the record (08 R218, R229; 00 R11). -/
theorem retirement_running (c : Status) (ha : anchorOf s q = none) : OnlyChanges [.req] s (retirement q c s)
    ∧ ∃ x : Rec, recFind (retirement q c s) q = some x ∧ c ∈ x.conds ∧ x.state = r.state := by
  have hne : (r.state = 1 || r.state = 5 || r.state = 6) = false := by rcases hrun with h | h | h <;> rw [h] <;> decide
  have h7 : r.state ≠ 7 := by rcases hrun with h | h | h <;> rw [h] <;> decide
  have h0 : r.state ≠ 0 := by rcases hrun with h | h | h <;> rw [h] <;> decide
  have hend : endStage q c s = addCond q c s := by
    simp only [endStage, hr, hown, hne, h7, Bool.not_true, Bool.false_eq_true, if_false]
  have hid : r.reqId = q := reqId_of_recLive hr
  have hfind : recFind (addCond q c s) q = some (if r.conds.contains c then r else { r with conds := r.conds ++ [c] }) :=
    recFind_recUpd (recLive_eq_some.1 hr).1 (by split <;> exact hid) (by split <;> exact h0)
  have he : retirement q c s = addCond q c s := by
    simp only [retirement, ha, hend, unknownReq, hfind, Option.isNone_some, Bool.false_eq_true, if_false]
  rw [he]
  refine ⟨recUpd_changes rfl (OnlyChanges.refl _ s), _, hfind, ?_, ?_⟩
  · split
    · next h => simpa using h
    · simp
  · split <;> rfl

end

/-! ### The drop of a stage -/

/-- The record of a request is DRAINING or RETIRED under a code. -/
def Dropping (q : ReqId) (c : Status) (t : State) : Prop :=
  ∃ x : Rec, recFind t q = some x ∧ (x.state = 7 ∨ x.state = 8) ∧ x.status = codeOf c

theorem statusOf_codeOf (c : Status) : statusOf (codeOf c) = some c := by cases c <;> rfl

section
variable {q : ReqId} {c : Status} {s t : State}

theorem Dropping.congr (h : Dropping q c s) (k : t.req.recs = s.req.recs) : Dropping q c t := by
  obtain ⟨x, hx, hs⟩ := h
  exact ⟨x, (recFind_congr k q).trans hx, hs⟩

theorem Dropping.of_only {Q : List Block} (h : Dropping q c s) (hk : OnlyChanges Q s t) (hq : Q.contains .req = false := by rfl) :
    Dropping q c t := h.congr (congrArg Req.recs (hk .req hq))

/-- A change of the record that keeps its request, state and code. -/
theorem Dropping.recUpd {f : Rec → Rec} (h : Dropping q c s) (hid : ∀ x, (f x).reqId = x.reqId) (hst : ∀ x, (f x).state = x.state)
    (hco : ∀ x, (f x).status = x.status) : Dropping q c (recUpd q f s) := by
  obtain ⟨x, hx, hs, hc⟩ := h
  obtain ⟨i, hi⟩ := recFind_eq_some.1 hx
  obtain ⟨hid', h0⟩ := recEntry_spec hi
  exact ⟨f x, recFind_recUpd hx ((hid x).trans hid') (hst x ▸ h0), hst x ▸ hs, (hco x).trans hc⟩

theorem Dropping.of_galleyUpd (h : Dropping q c s) (f : Galley → Galley) : Dropping q c (galleyUpd q f s) := h.congr rfl

theorem Dropping.trayIssues (h : Dropping q c s) (l : List Nat) (r : Nat → State → TrayReq) (w : TrayWhy) :
    Dropping q c (l.foldl (fun s d => trayIssue d (r d s) w s) s) :=
  h.of_only (Q := [.near, .links]) (foldl_changes (OnlyChanges.refl _ s) fun _ _ hk => trayIssue_changes rfl hk)

/-- A drop of the stage's record goes on with its other nodes, or ends in the anchor's view or in RETIRED under the same code (08
R230). -/
theorem Dropping.stageDropped (h : Dropping q c s) : Dropping q c (stageDropped q s) := by
  unfold Machine.stageDropped
  split
  · exact h
  · next r hr =>
    dsimp only
    split
    · refine Dropping.trayIssues (Dropping.recUpd h ?_ ?_ ?_) _ (fun d s => .drop (moverHdr s d 0xD q) q) _ <;> exact fun _ => rfl
    · have ⟨x, hx, _, hc⟩ := h
      obtain rfl : x = r := Option.some.inj (hx.symm.trans (recLive_eq_some.1 hr).1)
      have hd : Dropping q c (sendFw x.anchor x.epoch (.dropReport (stageReport x ((statusOf x.status).getD .ok) s).1)
          (stageReport x ((statusOf x.status).getD .ok) s).2) := h.congr (by rw [sendFw_req, stageReport_req])
      split
      · exact hd.recUpd (fun _ => rfl) (fun _ => rfl) (fun _ => rfl)
      · refine ⟨_, recFind_recRetire (r := x) ?_, .inr rfl, ?_⟩
        · rw [recLive_sendFw, recLive_congr (by rw [stageReport_req])]
          exact hr
        · rw [hc, statusOf_codeOf]
          rfl

theorem Dropping.freePages (h : Dropping q c s) (sel : Nat → Bool) : Dropping q c (freePages q sel s) := by
  unfold Machine.freePages
  dsimp only
  split
  · exact h
  · refine Dropping.of_galleyUpd (Dropping.recUpd ?_ ?_ ?_ ?_) _
    case refine_1 => exact h.of_only (Q := [.codec, .tier]) (chargeHeld_changes rfl (slotRef_changes rfl (OnlyChanges.refl _ s)))
    all_goals exact fun _ => rfl

theorem Dropping.freeGalley (h : Dropping q c s) : Dropping q c (freeGalley q s) := by
  unfold Machine.freeGalley
  split
  · exact h
  · next g _ =>
    exact ((h.freePages _).of_only (Q := [.tier]) (quotaReturn_changes rfl (freeT3_changes rfl (OnlyChanges.refl _ _)))).congr rfl

theorem Dropping.journal (h : Dropping q c s) (j : List JournalItem) : Dropping q c (journal j s) :=
  h.of_only (Q := [.pair]) (journal_changes rfl (OnlyChanges.refl _ s))

/-- The mirrored drop of a galley runs its end at once, or once the partner has acknowledged it (09 R244, R245). -/
theorem Dropping.mirrorDrop (h : Dropping q c s) (g : Galley) (r : TrayReq) : Dropping q c (mirrorSend g [r] (.dropDone q) s) := by
  unfold mirrorSend
  dsimp only
  split
  · refine Dropping.stageDropped ?_
    split
    · exact h.journal _
    · exact h
  · split
    · exact h.stageDropped
    · next p _ =>
      refine Dropping.of_only (Q := [.near, .links]) ?_ (trayIssue_changes rfl (OnlyChanges.refl _ _))
      exact (h.journal _).congr rfl

theorem Dropping.memberDrop (h : Dropping q c s) : Dropping q c (memberDrop q s) := by
  unfold Machine.memberDrop
  split
  · exact h
  · dsimp only
    split
    · refine Dropping.stageDropped ?_
      split
      · exact h.freeGalley.journal _
      · exact (h.freeGalley.journal _).of_only (Q := [.near, .links]) (trayIssue_changes rfl (OnlyChanges.refl _ _))
    · exact h.freeGalley.mirrorDrop _ _

end

/-- A stage that is dropped has its record DRAINING or RETIRED under the code (08 R228, R230, R231). -/
theorem stageDrop_dropping {q : ReqId} {r : Rec} {s : State} (c : Status) (hr : recLive s q = some r) (h7 : r.state ≠ 7) :
    Dropping q c (stageDrop q c s) := by
  unfold stageDrop
  rw [hr]
  simp only [h7, false_and, if_false]
  generalize hu : recUpd q (fun r => { r with state := 7, status := codeOf c, boundary := none }) s = u
  have hd : Dropping q c u := ⟨{ r with state := 7, status := codeOf c, boundary := none }, by
    rw [← hu]
    exact recFind_recUpd (r := r) (recLive_eq_some.1 hr).1 (show r.reqId = q from reqId_of_recLive hr) (show (7 : BitVec 4) ≠ 0 by decide),
    .inl rfl, rfl⟩
  split
  · split
    · exact hd.memberDrop
    · exact hd.congr rfl
  · split
    · exact hd.stageDropped
    · refine Dropping.trayIssues (Dropping.recUpd hd ?_ ?_ ?_) _ (fun d s => .drop (moverHdr s d 0xD q) q) _ <;> exact fun _ => rfl

/-- A cancellation in ADMITTED, PAUSED or RESUMING drops the stage at its owner (08 R228). -/
theorem cancelStage_drops {q : ReqId} {r : Rec} {s : State} (hr : recLive s q = some r) (hown : ownerView r = true)
    (hst : r.state = 1 ∨ r.state = 5 ∨ r.state = 6) : Dropping q .cancelled (cancelStage q s) := by
  have hcond : (r.state = 1 || r.state = 5 || r.state = 6) = true := by simpa [or_assoc] using hst
  have h0 : r.state ≠ 0 := by rcases hst with h | h | h <;> rw [h] <;> decide
  have h7 : r.state ≠ 7 := by rcases hst with h | h | h <;> rw [h] <;> decide
  simp only [cancelStage, hr, hown, hcond, if_true]
  have hfind : recFind (recUpd q (fun r => { r with flags := r.flags ||| 4 }) s) q = some { r with flags := r.flags ||| 4 } :=
    recFind_recUpd (r := r) (recLive_eq_some.1 hr).1 (show r.reqId = q from reqId_of_recLive hr) h0
  exact stageDrop_dropping .cancelled (recLive_eq_some.2 ⟨hfind, (recLive_eq_some.1 hr).2⟩) h7

end Sys2Proof.Machine
end

section
/-!
The messages of a request's stages and what they do on a device that is not fenced (00 R11, R12; 08 R207, R218, R219, R228 to R232).
-/

namespace Sys2Proof.Machine

/-- Settles O47. The clauses are, in order: a stage admission, by the device's role in the stage; a resume at a node; the messages that
reach the anchor; and the messages that reach a device of a stage. -/
theorem stageMessageCommands : Obligations.StageMessageCommands := by
  unfold Obligations.StageMessageCommands
  intro m e q c stage d rep w a r i s hf
  dsimp only
  have fences (f : State → State) : unlessFenced f s = f s := unlessFenced_of f hf
  refine ⟨fun he => ⟨fun hp => ⟨fun hc => ?_, fun hn hc => ?_, fun hn hc => ?_⟩, fun hp hm hcopy hok => ?_, fun hp hm hg hc => ?_⟩,
    fun he ht hm hn hi => ?_, fun ha hr => ⟨fun h1 hacc href hl => ?_, fun h1 hacc href hl => ?_,
      fun hc hl => ⟨fun h6 href hown => ?_, ?_⟩, fun ex h5 hc hl => ?_, fun hacc href => ⟨fun hn => ?_, fun hall hi => ?_⟩,
      fun c' href hi => ⟨fun hn => ?_, fun hall => ?_⟩, fun hcode hc hown => ?_, fun hq hd => ?_⟩,
    fun hr => ⟨fun ha hv h1 hi => ?_, fun hown hst => ⟨?_, fun ha => ?_⟩, fun hown hst => ?_⟩⟩
  -- a stage admission
  · refine ⟨_, rfl, ?_⟩
    rw [stageAdmission_prompt hf he hp]
    exact promptAdmit_own_refuses hc
  · refine ⟨_, rfl, ?_⟩
    rw [stageAdmission_prompt hf he hp]
    exact promptAdmit_peer_refuses hn hc
  · refine ⟨_, rfl, ?_⟩
    rw [stageAdmission_prompt hf he hp]
    exact promptAdmit_admits hn hc
  · refine ⟨_, rfl, ?_⟩
    rw [stageAdmission_member hf he hp hm, galleyOf_sendFw]
    obtain ⟨hrec, hgal⟩ := memberAdmit_admits hcopy hok
    exact ⟨hrec.congr (by rw [sendFw_req]), hgal⟩
  · refine ⟨_, rfl, ?_⟩
    rw [stageAdmission_gen hf he hp hm hg hc]
    have hi := recIndex_of_admissionCodes (r12First_eq_none.1 hc)
    exact (admittedRec_put rfl (admissionFields_rec ..) hi).congr (by rw [sendFw_req])
  -- a resume at a node
  · exact ⟨_, rfl, resumeStage_node hf he ht hm hn hi⟩
  -- at the anchor: the confirmations
  · refine ⟨_, rfl, ?_⟩
    rw [fences, confirmAt_last ha hr rfl h1 hacc href hl]
    exact ⟨⟨_, (recFind_congr (congrArg _ (admitted_req stage ha hr)) q).trans (recFind_confirmedState stage hr), rfl⟩,
      by rw [anchorOf_congr (congrArg _ (admitted_req stage ha hr))]; exact anchorOf_confirmedState stage ha,
      admitted_completed stage ha hr⟩
  · exact congrArg Host.Outcome.next ((fences _).trans (confirmAt_notLast (src := { stage := stage, sender := d }) ha hr rfl h1 href hl))
  · refine ⟨_, rfl, ?_⟩
    rw [fences]
    exact confirmAt_resumed ha hr rfl h6 href hown hc hl
  · refine ⟨_, rfl, ?_⟩
    rw [fences]
    exact confirmAt_paused ha hr rep rfl hc hl
  · refine ⟨_, rfl, ?_⟩
    rw [fences, confirmAt_shelved ha hr rfl]
    exact shelvedAt_last ha hr ex h5 hc hl
  -- at the anchor: a refusal, and the answers to it
  · refine ⟨_, rfl, ?_⟩
    rw [fences, refusal_first c d ha hr hacc href]
    exact refusalAt_waits c d ha hr href hn
  · refine ⟨_, rfl, ?_⟩
    rw [fences, refusal_first c d ha hr hacc href]
    exact refusalAt_ends c d ha hr href hall hi
  · refine congrArg Host.Outcome.next ((fences _).trans ?_)
    rw [confirmAt_released ha hr rfl (by rw [href]; rfl)]
    exact releasedAt_waits d ha hn
  · refine ⟨_, rfl, ?_⟩
    rw [fences, confirmAt_released ha hr rfl (by rw [href]; rfl)]
    exact releasedAt_ends d ha hi (recLive_eq_some.1 hr).2 href hall
  -- at the anchor: a retirement and the drop reports
  · refine ⟨_, rfl, ?_⟩
    rw [fences, retirement_first c ha hr hcode hc]
    exact anchorEnd_first c ha hr hcode hown
  · subst hq
    refine ⟨fun hn => ⟨_, rfl, ?_⟩, fun hl hi => ⟨_, rfl, ?_⟩⟩ <;> rw [fences]
    · exact dropReportAt_waits ha hr hd hn
    · exact dropReportAt_last ha hr hd hl hi
  -- at a device of a stage
  · refine ⟨_, rfl, ?_⟩
    rw [fences, refusal_noAnchor c d ha]
    exact releaseStage_clears hi h1 hv
  · refine ⟨_, rfl, ?_⟩
    rw [fences]
    exact cancelStage_running hr hown hst
  · refine ⟨_, rfl, ?_⟩
    rw [fences]
    exact retirement_running hr hown hst c ha
  · refine ⟨_, rfl, ?_⟩
    rw [fences]
    exact cancelStage_drops hr hown hst

end Sys2Proof.Machine
end

section
/-!
Taking a message from a receive channel, and issuing a press command: what of a cluster's program they leave alone (03 R70, R83 to
R87; 05 R141).
-/

namespace Sys2Proof.Machine

/-! ### What a channel event leaves of a program that does not wait -/

/-- The press commands, the index, the recorded paths, the wait and the messages of every channel are the same. -/
def SameProgram (x y : Cluster) : Prop :=
  y.press = x.press ∧ y.pc = x.pc ∧ y.fallbacks = x.fallbacks ∧ y.wait = x.wait
    ∧ ∀ h, (Tab.find y.chans h).map (fun k => k.queue) = (Tab.find x.chans h).map (fun k => k.queue)

theorem SameProgram.refl (x : Cluster) : SameProgram x x := ⟨rfl, rfl, rfl, rfl, fun _ => rfl⟩

theorem SameProgram.of_eq {x y : Cluster} (h : y = x) : SameProgram x y := h ▸ .refl x

theorem SameProgram.trans {x y z : Cluster} (h : SameProgram x y) (k : SameProgram y z) : SameProgram x z := by
  obtain ⟨hp, hc, hf, hw, hq⟩ := h
  obtain ⟨kp, kc, kf, kw, kq⟩ := k
  exact ⟨kp.trans hp, kc.trans hc, kf.trans hf, kw.trans hw, fun j => (kq j).trans (hq j)⟩

theorem Bound.sameProgram {x y : Cluster} (h : Bound x y) : SameProgram x y := by
  obtain ⟨_, _, _, _, _, rfl⟩ := h
  exact .refl x

theorem cluster_congr {s t : State} (h : t.clusters = s.clusters) (n : Nat) : cluster t n = cluster s n := by unfold cluster; rw [h]

/-- A change of a channel that keeps its messages. -/
theorem channelUpd_sameProgram (n m h : Nat) (s : State) {f : Chan → Chan} (hf : ∀ k, (f k).queue = k.queue) :
    SameProgram (cluster s n) (cluster (channelUpd m h f s) n) := by
  unfold channelUpd
  by_cases hn : n = m
  · subst hn
    rw [cluster_clusterUpd_same]
    refine ⟨rfl, rfl, rfl, rfl, fun j => ?_⟩
    by_cases hj : j = h
    · subst hj
      rw [Tab.find_mod_same, Option.map_map]
      exact congrArg (fun g => Option.map g _) (funext hf)
    · rw [Tab.find_mod_other _ _ _ _ hj]
  · exact .of_eq (cluster_clusterUpd_other _ _ _ _ hn)

theorem clusterCause_other {n m cause : Nat} (s : State) (h : n ≠ m) : cluster (clusterCause m cause s) n = cluster s n := by
  unfold clusterCause
  rw [cluster_congr (noteErr_clusters ..), cluster_clusterUpd_other _ _ _ _ h]

/-- An item that ends without retiring its requests leaves every other cluster alone. -/
theorem endItem_other {n m : Nat} {c : Status} {cause : Nat} (s : State) (h : n ≠ m) :
    cluster (endItem m c cause false s) n = cluster s n := by
  have hu : ∀ (f : Cluster → Cluster), cluster (itemGone m (clusterUpd m f (clusterCause m cause s))) n = cluster s n := fun f =>
    (cluster_clusterUpd_other m n f _ h).trans (clusterCause_other s h)
  unfold endItem
  dsimp only
  split <;> exact hu _

theorem wakeWait_other {n m : Nat} (s : State) (h : n ≠ m) : cluster (wakeWait m s) n = cluster s n := by
  unfold wakeWait
  dsimp only
  split
  · split
    · rfl
    · split
      · exact cluster_clusterUpd_other _ _ _ _ h
      · exact iteInduction (motive := fun u => cluster u n = cluster s n) (fun _ => cluster_clusterUpd_other _ _ _ _ h) (fun _ => rfl)
  · split
    · rfl
    · split
      · exact endItem_other s h
      · exact cluster_clusterUpd_other _ _ _ _ h
  · rfl

theorem wakeWait_running {n : Nat} {s : State} (h : (cluster s n).wait = .none) : wakeWait n s = s := by
  unfold wakeWait
  dsimp only
  rw [h]

/-- A credit that comes back to any channel leaves the program of a cluster that does not wait alone (03 R84). -/
theorem creditBack_sameProgram {n : Nat} {s : State} (m h count : Nat) (hw : (cluster s n).wait = .none) :
    SameProgram (cluster s n) (cluster (creditBack m h count s) n) := by
  unfold creditBack
  generalize hu : channelUpd m h _ s = u
  have hk : SameProgram (cluster s n) (cluster u n) := by
    rw [← hu]
    exact channelUpd_sameProgram n m h s (by exact fun _ => rfl)
  refine hk.trans ?_
  by_cases hn : n = m
  · subst hn
    rw [wakeWait_running (hk.2.2.2.1.trans hw)]
    exact (rebind_bound n false u).sameProgram
  · exact .of_eq ((rebind_other m n false _ hn).trans (wakeWait_other u hn))

/-- Returning the credit of a slot leaves the program of a cluster that does not wait alone (03 R83; 11 R320). -/
theorem creditReturn_sameProgram {n : Nat} {s : State} (m h : Nat) (hw : (cluster s n).wait = .none) :
    SameProgram (cluster s n) (cluster (creditReturn m h s) n) := by
  unfold creditReturn
  split
  · exact .refl _
  · split
    · split
      · exact creditBack_sameProgram _ _ _ hw
      · exact .refl _
    · split
      · split
        · split
          · exact creditBack_sameProgram _ _ _ hw
          · exact .refl _
        · exact .refl _
      · exact .of_eq (cluster_congr (sendCredit_changes (Q := [.links, .near]) rfl (fun b hb => by
          cases b with
          | near => simp at hb
          | _ => rfl) .clusters rfl) n)
    · exact .of_eq (cluster_congr (chanPost_changes (Q := [.rma, .links, .out]) rfl (OnlyChanges.refl _ s) .clusters rfl) n)

/-! ### The head message of a channel -/

section
variable {n h : Nat} {s : State} (hw : (cluster s n).wait = .none)
include hw

/-- The head message of a channel is taken, and the program that takes it stays as it was. -/
theorem dropHead_program : ∃ x, SameProgram x (cluster (dropHead n h s) n)
    ∧ x = { cluster s n with chans := Tab.mod (cluster s n).chans h (fun k => { k with queue := k.queue.drop 1 }) } := by
  refine ⟨_, ?_, rfl⟩
  have hu : cluster (channelUpd n h (fun k => { k with queue := k.queue.drop 1 }) s) n
      = { cluster s n with chans := Tab.mod (cluster s n).chans h (fun k => { k with queue := k.queue.drop 1 }) } :=
    cluster_clusterUpd_same _ _ _
  have hk := creditReturn_sameProgram (n := n) (s := channelUpd n h (fun k => { k with queue := k.queue.drop 1 }) s) n h (by rw [hu]; exact hw)
  rwa [hu] at hk

theorem dropHead_press : (cluster (dropHead n h s) n).press = (cluster s n).press := by
  obtain ⟨x, ⟨hp, -, -, -, -⟩, rfl⟩ := dropHead_program (h := h) hw
  exact hp

theorem dropHead_pc : (cluster (dropHead n h s) n).pc = (cluster s n).pc := by
  obtain ⟨x, ⟨-, hp, -, -, -⟩, rfl⟩ := dropHead_program (h := h) hw
  exact hp

theorem dropHead_fallbacks : (cluster (dropHead n h s) n).fallbacks = (cluster s n).fallbacks := by
  obtain ⟨x, ⟨-, -, hp, -, -⟩, rfl⟩ := dropHead_program (h := h) hw
  exact hp

theorem dropHead_queue : (channel (dropHead n h s) n h).map (fun k => k.queue) = (channel s n h).map (fun k => k.queue.drop 1) := by
  obtain ⟨x, ⟨-, -, -, -, hq⟩, rfl⟩ := dropHead_program (h := h) hw
  refine (hq h).trans ?_
  dsimp only
  rw [Tab.find_mod_same, Option.map_map]
  rfl

end

/-! ### The device's identity -/

theorem noteErr_ident (b i off : Nat) (s : State) : (noteErr b i off s).dev.ident = s.dev.ident := by
  unfold noteErr
  dsimp only
  split <;> rfl

theorem endItem_ident (n : Nat) (c : Status) (cause : Nat) (s : State) : (endItem n c cause false s).dev.ident = s.dev.ident := by
  unfold endItem
  dsimp only
  split <;> exact noteErr_ident ..

theorem wakeWait_ident (n : Nat) (s : State) : (wakeWait n s).dev.ident = s.dev.ident := by
  unfold wakeWait
  dsimp only
  split
  · split
    · rfl
    · split
      · rfl
      · exact iteInduction (motive := fun u : State => u.dev.ident = s.dev.ident) (fun _ => rfl) (fun _ => rfl)
  · split
    · rfl
    · split
      · exact endItem_ident ..
      · rfl
  · rfl

theorem creditBack_ident (n h count : Nat) (s : State) : (creditBack n h count s).dev.ident = s.dev.ident := by
  unfold creditBack
  rw [rebind_changes (Q := [.clusters, .sched, .req]) rfl (OnlyChanges.refl _ _) .dev rfl, wakeWait_ident]
  rfl

theorem creditReturn_ident (n h : Nat) (s : State) : (creditReturn n h s).dev.ident = s.dev.ident := by
  unfold creditReturn
  split
  · rfl
  · split
    · split
      · exact creditBack_ident ..
      · rfl
    · split
      · split
        · split
          · exact creditBack_ident ..
          · rfl
        · rfl
      · rw [sendCredit_changes (Q := [.links]) rfl (OnlyChanges.refl _ _) .dev rfl]
    · rw [chanPost_changes (Q := [.rma, .links, .out]) rfl (OnlyChanges.refl _ s) .dev rfl]

theorem mySlot_dropHead (n h : Nat) (s : State) : mySlot (dropHead n h s) = mySlot s := by
  unfold mySlot
  rw [show (dropHead n h s).dev.ident = s.dev.ident from creditReturn_ident n h _]

/-! ### Entering the press -/

/-- The credits that a command in the press holds are taken from its channel; the messages stay (03 R84). -/
theorem takeCredits_sameProgram (n : Nat) (o : Option (Nat × Nat)) (s : State) :
    SameProgram (cluster s n) (cluster (match o with
      | some (ch, k) => channelUpd n ch (fun c => { c with credits := c.credits - k }) s
      | none => s) n) := by
  split
  · exact channelUpd_sameProgram n n _ s (by exact fun _ => rfl)
  · exact .refl _

theorem countReads_clusters (n p : Nat) (rs : List (Nat × (Nat × Nat))) (s : State) :
    (rs.foldl (fun s q => countRead n p q.1 s q.2) s).clusters = s.clusters :=
  (foldl_changes (ps := [.dev, .maint, .forme, .codec, .tier, .req, .pair, .near, .rma, .links, .free, .out]) (OnlyChanges.refl _ s)
    (fun _ _ hk => countRead_changes rfl hk)) .clusters rfl

/-- A command with what it does joins the press behind the others, with its effects; the messages of the channels stay (03 R70). -/
theorem enter_some (n : Nat) (op : POp) (flags : BitVec 8) (d : Desc) (run : Run) (reads : List (Nat × (Nat × Nat))) (taken : List Eff)
    (slots : List Nat) (s : State) :
    ∃ f : InFlight, (cluster (enter n op flags d (some run) reads taken slots s) n).press = (cluster s n).press ++ [f]
      ∧ f.opcode = op.opcode ∧ f.maxBeats = d.maxBeats ∧ (∀ e ∈ run.effs, e ∈ f.effs)
      ∧ ∀ h, (channel (enter n op flags d (some run) reads taken slots s) n h).map (fun k => k.queue)
          = (channel s n h).map (fun k => k.queue) := by
  unfold enter
  dsimp only [Option.getD_some]
  generalize hu : List.foldl _ s _ = u
  have hc : cluster u n = cluster s n := cluster_congr (by rw [← hu]; exact countReads_clusters ..) n
  generalize hv : clusterUpd n _ u = v
  have hx : ∃ f : InFlight, (cluster v n).press = (cluster s n).press ++ [f] ∧ f.opcode = op.opcode ∧ f.maxBeats = d.maxBeats
      ∧ (∀ e ∈ run.effs, e ∈ f.effs) ∧ (cluster v n).chans = (cluster s n).chans := by
    rw [← hv, cluster_clusterUpd_same, hc]
    refine ⟨_, rfl, rfl, rfl, fun e he => ?_, rfl⟩
    simp [he]
  obtain ⟨f, hp, ho, hb, he, hch⟩ := hx
  obtain ⟨kp, -, -, -, kq⟩ := takeCredits_sameProgram n run.credits v
  exact ⟨f, kp.trans hp, ho, hb, he, fun h => (kq h).trans (by unfold channel; rw [hch])⟩

end Sys2Proof.Machine
end

section
/-!
The notices of attention at the cache (05 R139 to R142, R147): a request notice that is answered with a code or with its ATTEND, and a
reply notice that is taken.
-/

namespace Sys2Proof.Machine

theorem canIssue_running {s : State} {n : Nat} (h : canIssue s n = true) : (cluster s n).wait = .none := by
  simp only [canIssue, Bool.and_eq_true, beq_iff_eq] at h
  obtain ⟨⟨⟨⟨_, hw⟩, _⟩, _⟩, _⟩ := h
  exact hw

/-! ### The reads of an ATTEND that reads well -/

theorem seenOutcome_good {s : State} {pl : Place} {n : Nat} {o : ReadOutcome} (h : seenOutcome s pl n o = .good) : o = .good := by
  unfold seenOutcome at h
  split at h
  · split at h
    · simp at h
    · exact h
  · split at h
    · split at h
      · simp at h
      · exact h
    · split at h
      · simp at h
      · exact h
  · exact h

theorem rangesOutcome_append (s : State) (p : Nat) (a b : List (Nat × (Nat × Nat))) (o : ReadOutcome) :
    rangesOutcome s p (a ++ b) o = rangesOutcome s p b (rangesOutcome s p a o) := List.foldl_append ..

theorem rangesOutcome_good {s : State} {p : Nat} {l : List (Nat × (Nat × Nat))} {o : ReadOutcome} (h : rangesOutcome s p l o = .good) :
    o = .good := by
  induction l generalizing o with
  | nil => exact h
  | cons r rest ih => exact seenOutcome_good (ih h)

/-! ### A notice enters the press -/

/-- The message of a reply notice to `m` is among the effects of a command. -/
def Replies (ch : Nat) (msg : ReplyMsg) (f : InFlight) : Prop := .send ch [replyBytes msg] ∈ f.effs

/-- What a notice's command adds to the press, the compositor's index staying where it is (05 R141; log entry 89). -/
structure PressJoined (n : Nat) (s t : State) (f : InFlight) : Prop where
  press : (cluster t n).press = (cluster s n).press ++ [f]
  pc : (cluster t n).pc = (cluster s n).pc
  queue : ∀ h, (channel t n h).map (fun k => k.queue) = (channel s n h).map (fun k => k.queue)

theorem noticeEnter_joined (n : Nat) (op : POp) (flags : BitVec 8) (d : Desc) (run : Run) (reads : List (Nat × (Nat × Nat)))
    (taken : List Eff) (slots : List Nat) (ch : Nat) (msg : ReplyMsg) (s : State) :
    ∃ f : InFlight, PressJoined n s (noticeEnter n op flags d run reads taken slots ch (replyBytes msg) s) f
      ∧ f.opcode = op.opcode ∧ f.maxBeats = d.maxBeats ∧ (∀ e ∈ run.effs, e ∈ f.effs) ∧ Replies ch msg f := by
  unfold noticeEnter
  dsimp only
  obtain ⟨f, hp, ho, hb, he, hq⟩ := enter_some n op flags d
    { run with effs := run.effs ++ [.send ch [replyBytes msg]], credits := some (ch, 1) } reads taken slots s
  refine ⟨f, ⟨?_, ?_, fun h => ?_⟩, ho, hb, fun e hm => he e (List.mem_append_left _ hm),
    he _ (List.mem_append_right _ (List.mem_singleton_self _))⟩
  · rw [cluster_clusterUpd_same]
    exact hp
  · rw [cluster_clusterUpd_same]
  · rw [← hq h]
    unfold channel
    rw [cluster_clusterUpd_same]

/-! ### A request notice -/

/-- A request notice can be taken: the device is live, the cluster issues, the press has room, the reply has its credit, and the notice
stands at the head of its channel (05 R139, R141; 03 R84). -/
def NoticeTaken (sender : DevId) (m : NoticeMsg) (n rch ch : Nat) (s : State) : Prop :=
  fenced s = false ∧ canIssue s n = true ∧ (cluster s n).press.length < 4 ∧ replyReady s n ch = true
    ∧ recvInPress (cluster s n) rch = false ∧ noticeHeld s n rch sender m = true

section
variable {sender : DevId} {m : NoticeMsg} {c : PressCmd} {rch ch : Nat} {s : State}

theorem requestNotice_waits (h : ¬ NoticeTaken sender m c.cl.toNat rch ch s) : requestNotice sender m c rch ch s = s := by
  unfold requestNotice
  refine if_pos ?_
  by_contra hn
  refine h ?_
  simpa [NoticeTaken, and_assoc] using hn

/-- The state in which a request notice is checked: it has left its channel, and what the read met is counted. -/
def noticeState (c : PressCmd) (rch : Nat) (s : State) : State := countEcc c.cl.toNat c.reads (dropHead c.cl.toNat rch s)

theorem requestNotice_taken (h : NoticeTaken sender m c.cl.toNat rch ch s) :
    (noticeCheck (noticeState c rch s) ((partOfRegion (noticeState c rch s) (c.cl.toNat / 16)).getD 0) sender m = .ok →
      requestNotice sender m c rch ch s = noticeServe sender m c ch (noticeState c rch s)) ∧
    ∀ code : Status, code ≠ .ok →
      noticeCheck (noticeState c rch s) ((partOfRegion (noticeState c rch s) (c.cl.toNat / 16)).getD 0) sender m = code →
      requestNotice sender m c rch ch s = noticeRefuse c.cl.toNat c.flags m code ch (noticeState c rch s) := by
  obtain ⟨hf, hi, hl, hr, hp, hh⟩ := h
  unfold requestNotice
  dsimp only
  rw [if_neg (by simp [hf, hi, hr, hp, hh]; omega)]
  refine ⟨fun hc => ?_, fun code hn hc => ?_⟩ <;> unfold noticeState at hc ⊢ <;> rw [hc]
  cases code with
  | ok => exact absurd rfl hn
  | _ => rfl

/-- Counting what a read met changes none of the things that a notice's check sees. -/
theorem noticeCheck_countEcc (n p : Nat) (o : ReadOutcome) (u : State) : noticeCheck (countEcc n o u) p sender m = noticeCheck u p sender m := by
  cases o <;> rfl

theorem partOfRegion_countEcc (n r : Nat) (o : ReadOutcome) (u : State) : partOfRegion (countEcc n o u) r = partOfRegion u r := by
  cases o <;> rfl

theorem mySlot_countEcc (n : Nat) (o : ReadOutcome) (u : State) : mySlot (countEcc n o u) = mySlot u := by
  cases o <;> rfl

theorem PressJoined.of_countEcc {n : Nat} {o : ReadOutcome} {u t : State} {f : InFlight} (h : PressJoined n (countEcc n o u) t f) :
    PressJoined n u t f := by
  have hc : (cluster (countEcc n o u) n).press = (cluster u n).press ∧ (cluster (countEcc n o u) n).pc = (cluster u n).pc
      ∧ (cluster (countEcc n o u) n).chans = (cluster u n).chans := by
    unfold countEcc
    split
    · rw [cluster_clusterUpd_same]
      exact ⟨rfl, rfl, rfl⟩
    · exact ⟨rfl, rfl, rfl⟩
  obtain ⟨hp, hpc, hch⟩ := hc
  exact ⟨hp ▸ h.press, h.pc.trans hpc, fun j => (h.queue j).trans (by unfold channel; rw [hch])⟩

theorem replyTo_congr {u : State} (h : mySlot u = mySlot s) (st : Status) (fl ok : Nat) : replyTo u m st fl ok = replyTo s m st fl ok := by
  unfold replyTo; rw [h]

/-- A notice that fails its checks is answered with the code alone (05 R140, R141, R142). -/
theorem requestNotice_refused (h : NoticeTaken sender m c.cl.toNat rch ch s)
    (hc : noticeCheck (dropHead c.cl.toNat rch s) ((partOfRegion (dropHead c.cl.toNat rch s) (c.cl.toNat / 16)).getD 0) sender m ≠ .ok) :
    ∃ f : InFlight, PressJoined c.cl.toNat (dropHead c.cl.toNat rch s) (requestNotice sender m c rch ch s) f
      ∧ Replies ch (replyTo s m (noticeCheck (dropHead c.cl.toNat rch s)
          ((partOfRegion (dropHead c.cl.toNat rch s) (c.cl.toNat / 16)).getD 0) sender m) 0 0) f := by
  rw [(requestNotice_taken h).2 _ hc (by rw [noticeState, partOfRegion_countEcc, noticeCheck_countEcc])]
  generalize noticeCheck (dropHead c.cl.toNat rch s) _ sender m = code
  unfold noticeRefuse noticeState
  rw [replyTo_congr (s := s) ((mySlot_countEcc ..).trans (mySlot_dropHead ..))]
  obtain ⟨f, hf, -, -, -, hr⟩ := noticeEnter_joined c.cl.toNat opSend c.flags
    { hdr := [], subop := 0, maxBeats := moveBeats 64, lines := [] } {} [] [] [] ch (replyTo s m code 0 0)
    (countEcc c.cl.toNat c.reads (dropHead c.cl.toNat rch s))
  exact ⟨f, hf.of_countEcc, hr⟩

end

end Sys2Proof.Machine
end

section
/-!
An accepted request notice: its ATTEND runs and its reply follows the row results (05 R141).
-/

namespace Sys2Proof.Machine

/-- Where the ATTEND of a notice runs: its descriptor passes its checks, its lines are there, its beats suffice, and what it reads is
whole (03 R74, 05 R141). -/
theorem noticeRun_eq_some {m : NoticeMsg} {c : PressCmd} {v : State} {d : Desc} {r : Run} (h : noticeRun m c v = some (d, r)) :
    ∃ d0 beats gs left reads taken,
      descAt (cluster (viewOf c.cl.toNat v) c.cl.toNat) c.areg c.offset = some d0 ∧ noticeDesc d0 m = d
      ∧ (!(attParams d).galley || (attParams d).layer ≠ m.layer.toNat) = false
      ∧ descCheck (opAttend .good) (viewOf c.cl.toNat v) c.cl.toNat ((partOfRegion v (c.cl.toNat / 16)).getD 0) c.flags d = .inr beats
      ∧ fetchAll (viewOf c.cl.toNat v) c.cl.toNat ((partOfRegion v (c.cl.toNat / 16)).getD 0) ((opAttend .good).fetched d) c.remote
          = .ok (gs, left, reads, taken)
      ∧ ¬ d.maxBeats < beats + slugBeats (opAttend .good) d
          ((opAttend .good).pages (viewOf c.cl.toNat v) ((partOfRegion v (c.cl.toNat / 16)).getD 0) d)
          (gs.map (fun g => g.raw.length / 2048)) beats
      ∧ (opAttend .good).run ⟨viewOf c.cl.toNat v, c.cl.toNat, (partOfRegion v (c.cl.toNat / 16)).getD 0, c.flags, d, left⟩ gs = .run r
      ∧ rangesOutcome v ((partOfRegion v (c.cl.toNat / 16)).getD 0) (reads ++ r.reads ++ mergeRanges (writtenRanges r.effs)) c.reads = .good := by
  unfold noticeRun at h
  dsimp only at h
  split at h
  · simp at h
  · next d' hd =>
    obtain ⟨d0, hd0, rfl⟩ := Option.map_eq_some_iff.1 hd
    split at h
    · simp at h
    · next hg =>
      split at h
      · simp at h
      · next beats hb =>
        split at h
        · simp at h
        · next gs left reads taken hf =>
          split at h
          · simp at h
          · next hs =>
            split at h
            · next r' hr =>
              split at h
              · next hgood =>
                obtain ⟨rfl, rfl⟩ := Prod.mk.inj (Option.some.inj h)
                exact ⟨d0, beats, gs, left, reads, taken, hd0, rfl, Bool.eq_false_iff.2 hg, hb, hf, hs, hr, hgood⟩
              · simp at h
            · simp at h

/-- The state in which an accepted notice is served: the cluster knows whose notice it is. -/
def serveState (sender : DevId) (m : NoticeMsg) (n : Nat) (u : State) : State :=
  clusterUpd n (fun x => { x with notice := some (sender, m.step) }) u

section
variable {sender : DevId} {m : NoticeMsg} {c : PressCmd} {rch ch : Nat} {s : State}

/-- The layer's ATTEND of an accepted notice runs: the command enters the press with what it does, and the reply after the row results
(05 R141). -/
theorem noticeServe_runs {d : Desc} {r : Run} {u : State} (hreads : c.reads = .good)
    (hrun : noticeRun m c (serveState sender m c.cl.toNat u) = some (d, r)) :
    ∃ reads taken slots fl ok, noticeServe sender m c ch u = noticeEnter c.cl.toNat (opAttend .good) c.flags d r reads taken slots ch
      (replyBytes (replyTo (serveState sender m c.cl.toNat u) m .ok fl ok)) (serveState sender m c.cl.toNat u) := by
  obtain ⟨d0, beats, gs, left, reads, taken, hd0, rfl, hg, hb, hf, hs, hr, hgood⟩ := noticeRun_eq_some hrun
  rw [hreads, rangesOutcome_append] at hgood
  have hread : rangesOutcome (serveState sender m c.cl.toNat u) ((partOfRegion (serveState sender m c.cl.toNat u) (c.cl.toNat / 16)).getD 0)
      (reads ++ r.reads) .good = .good := rangesOutcome_good hgood
  have hpage : inGalleyPage (serveState sender m c.cl.toNat u) .good = false := rfl
  have hp : partOfRegion u (c.cl.toNat / 16) = partOfRegion (serveState sender m c.cl.toNat u) (c.cl.toNat / 16) := rfl
  have hv : clusterUpd c.cl.toNat (fun x => { x with notice := some (sender, m.step) }) u = serveState sender m c.cl.toNat u := rfl
  refine ⟨reads, taken, slotsNamed ((opAttend .good).fetched (noticeDesc d0 m)) gs, ?flags, ?rowsOk, ?runs⟩
  case runs =>
    simp only [noticeServe, hp, hv, hreads, hpage, hd0, hg, hb, hf, hs, hr, hread, readOutcome, Bool.false_eq_true, if_false, if_true,
      Bool.true_or]
    rfl

theorem PressJoined.of_serveState {n : Nat} {u t : State} {f : InFlight} (h : PressJoined n (serveState sender m n u) t f) :
    PressJoined n u t f := by
  obtain ⟨hp, hpc, hq⟩ := h
  unfold channel serveState at hq
  unfold serveState at hp hpc
  rw [cluster_clusterUpd_same] at hp hpc
  simp only [cluster_clusterUpd_same] at hq
  exact ⟨hp, hpc, hq⟩

/-- A notice whose checks pass and whose reads are whole is served: the layer's ATTEND enters the press, the reply among its effects
(05 R141). -/
theorem requestNotice_served {d : Desc} {r : Run} (h : NoticeTaken sender m c.cl.toNat rch ch s)
    (hc : noticeCheck (dropHead c.cl.toNat rch s) ((partOfRegion (dropHead c.cl.toNat rch s) (c.cl.toNat / 16)).getD 0) sender m = .ok)
    (hreads : c.reads = .good) (hrun : noticeRun m c (serveState sender m c.cl.toNat (dropHead c.cl.toNat rch s)) = some (d, r)) :
    ∃ (f : InFlight) (fl ok : Nat), PressJoined c.cl.toNat (dropHead c.cl.toNat rch s) (requestNotice sender m c rch ch s) f
      ∧ f.opcode = 0x38 ∧ f.maxBeats = d.maxBeats ∧ (∀ e ∈ r.effs, e ∈ f.effs) ∧ Replies ch (replyTo s m .ok fl ok) f := by
  have hu : noticeState c rch s = dropHead c.cl.toNat rch s := by rw [noticeState, hreads]; rfl
  rw [(requestNotice_taken h).1 (by rw [hu, hc]), hu]
  obtain ⟨reads, taken, slots, fl, ok, he⟩ := noticeServe_runs (ch := ch) hreads hrun
  rw [he, replyTo_congr (u := serveState sender m c.cl.toNat (dropHead c.cl.toNat rch s)) (mySlot_dropHead c.cl.toNat rch s)]
  obtain ⟨f, hf, ho, hb, heffs, hr⟩ := noticeEnter_joined c.cl.toNat (opAttend .good) c.flags d r reads taken slots ch
    (replyTo s m .ok fl ok) (serveState sender m c.cl.toNat (dropHead c.cl.toNat rch s))
  exact ⟨f, fl, ok, hf.of_serveState, ho, hb, heffs, hr⟩

/-- What a taken notice leaves of its cluster: one more command in the press, the index where it was, and one message less in the
receive channel. -/
theorem PressJoined.of_dropHead {n : Nat} {t : State} {f : InFlight} (h : PressJoined n (dropHead n rch s) t f)
    (hw : (cluster s n).wait = .none) :
    (cluster t n).press = (cluster s n).press ++ [f] ∧ (cluster t n).pc = (cluster s n).pc
      ∧ (channel t n rch).map (fun k => k.queue) = (channel s n rch).map (fun k => k.queue.drop 1) :=
  ⟨dropHead_press hw ▸ h.press, h.pc.trans (dropHead_pc hw), (h.queue rch).trans (dropHead_queue hw)⟩

end

/-! ### A reply notice -/

section
variable {n h : Nat} {y : ReplyMsg} {rowtab : DWord} {k : Chan} {s : State}

theorem discardStale_untagged (fuel : Nat) (hk : channel s n h = some k) (ht : k.entry.tagCheck = false) : discardStale n h fuel s = s := by
  cases fuel with
  | zero => rfl
  | succ fuel =>
    unfold discardStale
    rw [hk]
    dsimp only
    split
    · rfl
    · simp [ht]

theorem discardStale_none (fuel : Nat) (hk : channel s n h = none) : discardStale n h fuel s = s := by
  cases fuel with
  | zero => rfl
  | succ fuel => simp only [discardStale, hk]

/-- No reply is taken by a cluster that does not issue, from a channel that a RECV in the press reads, or where there is none. -/
theorem replyNotice_waits (hn : canIssue s n = false ∨ recvInPress (cluster s n) h = true ∨ channel s n h = none) :
    replyNotice n h y rowtab s = s := by
  unfold replyNotice
  by_cases hc : (!canIssue s n || recvInPress (cluster s n) h) = true
  · rw [if_pos hc]
  · rw [if_neg hc]
    obtain ⟨hi, hr⟩ : canIssue s n = true ∧ recvInPress (cluster s n) h = false := by simpa using hc
    have hk : channel s n h = none := by simpa [hi, hr] using hn
    simp only [discardStale_none 65 hk, hk]

/-- The requests of the paths that a reply notice records. -/
theorem slowPaths_requests (l : List ReqId) (arg : Byte) : (l.map (fun r => (some r, arg))).map (fun e => e.1) = l.map some := by
  rw [List.map_map]; rfl

section
variable (hi : canIssue s n = true) (hr : recvInPress (cluster s n) h = false) (hk : channel s n h = some k) (ht : k.entry.tagCheck = false)
include hi hr hk ht

theorem replyNotice_other (hn : k.entry.send = true ∨ k.queue.head? ≠ some (replyBytes y)) : replyNotice n h y rowtab s = s := by
  have hn' : (k.entry.send || k.queue.head? ≠ some (replyBytes y)) = true := by simpa using hn
  simp only [replyNotice, hi, hr, Bool.not_true, Bool.or_self, Bool.false_eq_true, if_false, discardStale_untagged 65 hk ht, hk, hn', if_true]

/-- A reply at the head of its channel is taken, and where it says so the path of its requests is recorded (05 R140, R147). -/
theorem replyNotice_taken (hs : k.entry.send = false) (hq : k.queue.head? = some (replyBytes y)) :
    (channel (replyNotice n h y rowtab s) n h).map (fun k => k.queue) = some (k.queue.drop 1)
      ∧ (y.flags.toNat.testBit 0 = false → (cluster (replyNotice n h y rowtab s) n).fallbacks = (cluster s n).fallbacks)
      ∧ (y.flags.toNat.testBit 0 = true → ∃ arg : Byte, (cluster (replyNotice n h y rowtab s) n).fallbacks
          = (cluster s n).fallbacks ++ (slowRequests (dropHead n h s) n y.rows.toNat rowtab).map (fun r => (some r, arg))) := by
  have hw := canIssue_running hi
  have hqueue : (channel (dropHead n h s) n h).map (fun k => k.queue) = some (k.queue.drop 1) := by
    rw [dropHead_queue hw, hk]; rfl
  have hn : (k.entry.send || k.queue.head? ≠ some (replyBytes y)) = false := by simp [hs, hq]
  simp only [replyNotice, hi, hr, Bool.not_true, Bool.or_self, Bool.false_eq_true, if_false, discardStale_untagged 65 hk ht, hk, hn]
  cases y.flags.toNat.testBit 0 with
  | false => exact ⟨hqueue, fun _ => dropHead_fallbacks hw, fun hf => absurd hf (by decide)⟩
  | true =>
    refine ⟨?_, fun hf => absurd hf (by decide), fun _ => ⟨if attFallback (dropHead n h s) ((partOfRegion s (n / 16)).getD 0) = 1 then 1 else 0, ?_⟩⟩
    · rw [← hqueue]
      unfold channel
      rw [if_pos rfl, cluster_clusterUpd_same]
    · rw [if_pos rfl, cluster_clusterUpd_same, ← dropHead_fallbacks (h := h) hw]

end

end

end Sys2Proof.Machine
end

section
/-!
Register accesses (00 R6; 17 R436 to R438, R445, R446): what a read of an RC register, of a word of a 64-bit quantity and of any other
location answers, what an access that is not one aligned doubleword does, and what a write puts.
-/

namespace Sys2Proof.Machine

/-! ### What a function sees -/

section
variable {s : State} {fn : FnId} {early all : Bool}

theorem answers_of_pfLive (h : pfLive s fn early = true) : answers s fn = true := by
  simp only [pfLive, Bool.and_eq_true] at h
  exact h.1.1

theorem answers_of_wideLive (h : wideLive s fn early all = true) : answers s fn = true := by
  unfold wideLive at h
  split at h
  · exact h
  · exact answers_of_pfLive h

theorem answers_of_silent (h : responds s fn = false) : answers s fn = false := by
  simp [answers, h]

theorem pfLive_of_deaf (h : answers s fn = false) : pfLive s fn early = false := by
  simp [pfLive, h]

theorem wideLive_of_deaf (h : answers s fn = false) : wideLive s fn early all = false :=
  Bool.eq_false_iff.2 fun k => by simp [answers_of_wideLive k] at h

/-- What a live PF sees before READY it sees after it too. -/
theorem pfLive_early (h : pfLive s fn false = true) : pfLive s fn early = true := by
  simp only [pfLive, Bool.false_or, Bool.and_eq_true] at h ⊢
  exact ⟨h.1, by simp [h.2]⟩

end

/-! ### Reads of RC registers -/

/-- The CLUSTER register at offset `r` of the window of cluster `n`. -/
theorem clusterReg_window {n r : Nat} (hn : n < 128) (hr : r < 0x4000) : clusterReg (0x02400000 + r + 0x4000 * n) r = some n := by
  unfold clusterReg
  have h1 : 0x02400000 ≤ 0x02400000 + r + 0x4000 * n := by omega
  have h2 : (0x02400000 + r + 0x4000 * n - 0x02400000) % 0x4000 = r := by omega
  have h3 : (0x02400000 + r + 0x4000 * n - 0x02400000) / 0x4000 = n := by omega
  simp [h1, h2, h3, hn]

theorem clusterReg_eq_some {off r n : Nat} (h : clusterReg off r = some n) : n < 128 ∧ off = 0x02400000 + r + 0x4000 * n := by
  unfold clusterReg at h
  split at h
  · next hc =>
    obtain rfl := Option.some.inj h
    simp only [Bool.and_eq_true, decide_eq_true_eq, beq_iff_eq] at hc
    omega
  · simp at h

section
variable {s : State} {fn : FnId} {off : Nat}

theorem plainRead_answers (h : answers s fn = true) : plainRead fn off s = emit (.regRead fn off (regValue s fn off)) s := by
  simp [plainRead, h]

theorem plainRead_deaf (hr : responds s fn = true) (h : answers s fn = false) : plainRead fn off s = emit (.regRead fn off 0) s := by
  simp [plainRead, h, hr]

theorem plainRead_silent (h : responds s fn = false) : plainRead fn off s = s := by
  simp [plainRead, h, answers_of_silent h]

/-- A read of an RC register returns its bits and clears them; one by a function that does not see its block returns zero and clears
nothing (17 R436, R440, R445, R446). -/
theorem rcRead_clears {early : Bool} {x : Word} {u : State} (hrc : rcReg s off = some (early, x, u)) :
    (pfLive s fn early = true → execRcRead fn off s = .next (emit (.regRead fn off x) u))
      ∧ (pfLive s fn early = false → responds s fn = true → execRcRead fn off s = .next (emit (.regRead fn off 0) s)) := by
  unfold execRcRead rcRead
  rw [hrc]
  exact ⟨fun h => by simp [h], fun h hr => by simp [h, hr]⟩

theorem rcReg_cluster {n : Nat} (hn : n < 128) : rcReg s (0x0240001C + 0x4000 * n) = some (false, clusterFaultWord (cluster s n),
    clusterUpd n (fun x => { x with faultIndex := 0, faultCause := 0 }) s) := by
  have hc : clusterReg (0x0240001C + 0x4000 * n) 0x1C = some n := clusterReg_window (r := 0x1C) hn (by decide)
  unfold rcReg
  rw [if_neg (by omega), if_neg (by omega), if_neg (by omega), hc]

theorem rcReg_none (h1 : off ≠ 0x040) (h2 : off ≠ 0x044) (h3 : off ≠ 0x03000020) (h4 : ∀ n : Nat, n < 128 → off ≠ 0x0240001C + 0x4000 * n) :
    rcReg s off = none := by
  have hc : clusterReg off 0x1C = none := by
    cases hc : clusterReg off 0x1C with
    | none => rfl
    | some n =>
      obtain ⟨hn, ho⟩ := clusterReg_eq_some hc
      exact absurd (ho.trans (by omega)) (h4 n hn)
  unfold rcReg
  rw [if_neg h1, if_neg h2, if_neg h3, hc]

theorem rcRead_plain (h : rcReg s off = none) : rcRead fn off s = plainRead fn off s := by
  simp only [rcRead, h]

/-- A function that the device does not answer gets no answer from an RC register, and clears nothing (17 R446). -/
theorem rcRead_silent (h : responds s fn = false) : rcRead fn off s = s := by
  unfold rcRead
  split
  · exact plainRead_silent h
  · simp [pfLive_of_deaf (answers_of_silent h), h]

theorem rcRead_deaf (hr : responds s fn = true) (h : answers s fn = false) : rcRead fn off s = emit (.regRead fn off 0) s := by
  unfold rcRead
  split
  · exact plainRead_deaf hr h
  · simp [pfLive_of_deaf h, hr]

/-! ### Reads of 64-bit quantities -/

variable {x : Bool × Bool × Nat}

theorem pairRead_silent (h : responds s fn = false) : pairRead fn off s = s := by
  have hw := fun e a => wideLive_of_deaf (early := e) (all := a) (answers_of_silent h)
  unfold pairRead
  split
  · simp [readLo, hw, h]
  · split
    · simp [readHi, hw, h]
    · exact plainRead_silent h

theorem pairRead_deaf (hr : responds s fn = true) (h : answers s fn = false) : pairRead fn off s = emit (.regRead fn off 0) s := by
  have hw := fun e a => wideLive_of_deaf (early := e) (all := a) h
  unfold pairRead
  split
  · simp [readLo, hw, hr]
  · split
    · simp [readHi, hw, hr]
    · exact plainRead_deaf hr h

/-- A read of the low word keeps the high word for the function's next read of it (17 R438). -/
theorem pairRead_lo (hw : wideLive s fn x.1 x.2.1 = true) (hx : widePair s off = some x) : pairRead fn off s =
    emit (.regRead fn off (loWord x.2.2)) { s with dev := { s.dev with latch := Tab.put s.dev.latch fn.toNat (off + 4, hiWord x.2.2) } } := by
  simp [pairRead, hx, readLo, hw]

theorem pairRead_hi (hx : widePair s off = none) (h4 : 4 ≤ off) (hp : widePair s (off - 4) = some x) : pairRead fn off s = readHi fn off x s := by
  simp [pairRead, hx, h4, hp]

theorem readHi_latched {v : Word} (hw : wideLive s fn x.1 x.2.1 = true) (hl : latched s fn off = some v) : readHi fn off x s =
    emit (.regRead fn off v) { s with dev := { s.dev with latch := Tab.del s.dev.latch fn.toNat } } := by
  simp [readHi, hw, hl]

theorem readHi_live (hw : wideLive s fn x.1 x.2.1 = true) (hl : latched s fn off = none) :
    readHi fn off x s = emit (.regRead fn off (hiWord x.2.2)) s := by
  simp [readHi, hw, hl]

theorem pairRead_plain (hx : widePair s off = none) (hp : 4 ≤ off → widePair s (off - 4) = none) (h : answers s fn = true) :
    pairRead fn off s = emit (.regRead fn off (regValue s fn off)) s := by
  have hhi : (if 4 ≤ off then widePair s (off - 4) else none) = none := by
    split
    · next h4 => exact hp h4
    · rfl
  simp only [pairRead, hx, hhi]
  exact plainRead_answers h

end

/-! ### Refused accesses -/

section
variable {a : Access} {s : State}

theorem access_wrong_iff : Access.wrong a = true ↔ a.dwords ≠ 1 ∨ a.enables ≠ 0xF ∨ a.offset % 4 ≠ 0 := by
  simp [Access.wrong, or_assoc]

theorem accessRefused_proper (h : ¬ ((a.dwords ≠ 1 ∨ a.enables ≠ 0xF ∨ a.offset % 4 ≠ 0) ∧ responds s a.fn = true)) :
    accessRefused a s = s := by
  rw [← access_wrong_iff] at h
  unfold accessRefused
  rw [if_neg (by simpa using h)]

/-- The count of a refused access in the issuing function's registers (17 R437, R447). -/
def countRefused (a : Access) (s : State) : State :=
  if answers s a.fn && (s.dev.ready || earlyBlock a.offset) then
    noteErr 0 a.fn.toNat 0x020 { s with dev := { s.dev with
      accessErr := Tab.upd s.dev.accessErr a.fn.toNat 0 satInc
      accessAddr := Tab.put s.dev.accessAddr a.fn.toNat (accessWord a) } }
  else s

theorem accessRefused_wrong (hw : a.dwords ≠ 1 ∨ a.enables ≠ 0xF ∨ a.offset % 4 ≠ 0) (hr : responds s a.fn = true) :
    accessRefused a s = countRefused a (if a.write then s else emit (.regRead a.fn a.offset 0) s) := by
  unfold accessRefused
  rw [if_pos (by simp [access_wrong_iff.2 hw, hr])]
  rfl

theorem noteErr_access {b i o : Nat} {s : State} : (noteErr b i o s).dev.accessErr = s.dev.accessErr
    ∧ (noteErr b i o s).dev.accessAddr = s.dev.accessAddr := by
  unfold noteErr
  dsimp only
  split <;> exact ⟨rfl, rfl⟩

/-- A captured error sets its bit of DEV_ERR (17 R448). -/
theorem bit_noteErr {b : Nat} (hb : b < 32) (i o : Nat) (s : State) : bit (noteErr b i o s).dev.err b = true := by
  have he : (noteErr b i o s).dev.err = s.dev.err ||| BitVec.ofNat 32 (2 ^ b) := by
    unfold noteErr
    dsimp only
    split <;> rfl
  have hlt : (2 : Nat) ^ b < 2 ^ 32 := Nat.pow_lt_pow_right (by decide) hb
  rw [he, bit, BitVec.toNat_or, Nat.testBit_or, BitVec.toNat_ofNat, Nat.mod_eq_of_lt hlt, Nat.testBit_two_pow_self, Bool.or_true]

theorem countRefused_out : (countRefused a s).out = s.out := by
  unfold countRefused
  split
  · rw [noteErr_out]
  · rfl

/-- Where the function is answered and the block is live, the access is counted, with its address (17 R437, R447). -/
theorem countRefused_counts (h : answers s a.fn = true) (hr : s.dev.ready = true ∨ earlyBlock a.offset = true) :
    bit (countRefused a s).dev.err 0 = true
      ∧ Tab.getD (countRefused a s).dev.accessErr a.fn.toNat 0 = satInc (Tab.getD s.dev.accessErr a.fn.toNat 0)
      ∧ Tab.find (countRefused a s).dev.accessAddr a.fn.toNat = some (accessWord a) := by
  unfold countRefused
  rw [if_pos (by simpa [h] using hr), noteErr_access.1, noteErr_access.2]
  exact ⟨bit_noteErr (by decide) .., Tab.getD_upd_same .., Tab.find_put_same ..⟩

end

/-! ### Writes -/

section
variable {s : State} {fn : FnId} {off : Nat} {v : Word}

theorem registerWrite_ignored (h : off % 4 ≠ 0 ∨ answers s fn = false) : registerWrite fn off v s = s := by
  unfold registerWrite
  rw [if_pos (by simpa using h)]

theorem registerWrite_scratch (h : answers s fn = true) :
    registerWrite fn 0x014 v s = { s with dev := { s.dev with scratch := Tab.put s.dev.scratch fn.toNat v } } := by
  simp [registerWrite, h]

/-- A PF block that the function does not reach ignores writes (17 R445, R446). -/
theorem registerWrite_unseen (h : pfLive s fn false = false) (hlo : 0x00100000 ≤ off) (hhi : off < 0x02C00000) :
    registerWrite fn off v s = s := by
  have he : earlyBlock off = false := by
    simp only [earlyBlock, Bool.or_eq_false_iff, Bool.and_eq_false_iff, decide_eq_false_iff_not]
    omega
  unfold registerWrite
  split
  · rfl
  · rw [if_neg (by omega), if_neg (by simp; omega), he, h, if_neg (by decide)]

/-- A write of the PF to a live block of its own goes to the block (17 R445). -/
theorem registerWrite_pf (h4 : off % 4 = 0) (h14 : off ≠ 0x014) (hhi : off < 0x03400000) (h : pfLive s fn (earlyBlock off) = true) :
    registerWrite fn off v s = putPf off v s := by
  have ha := answers_of_pfLive h
  unfold registerWrite
  rw [if_neg (by simp [h4, ha]), if_neg h14, if_neg (by simp; omega), if_pos h]

/-- A register of a limited range takes a value of the range and keeps what it has otherwise. -/
theorem inRange_eq (lo hi v old : Nat) : inRange lo hi v old = if lo ≤ v ∧ v ≤ hi then v else old := by
  simp [inRange]

end

end Sys2Proof.Machine
end

section
/-!
Register accesses and notices (00 R6; 05 R139 to R142, R147; 17 R436 to R438, R440, R445, R446).
-/

namespace Sys2Proof.Machine

/-- Settles O59. The clauses are, in order: reads, by what the function sees and by the kind of the location; refused accesses; writes; a
request notice; and a reply notice. -/
theorem registerAndNoticeCommands : Obligations.RegisterAndNoticeCommands := by
  unfold Obligations.RegisterAndNoticeCommands
  intro fn off v a sender m c rch ch cl y rowtab s
  dsimp only
  refine ⟨fun hr i hi => ?_, fun hr ha i hi => ?_, ⟨fun ho => ?_, fun ho => ?_, fun ho => ?_, fun n hn ho => ?_, fun h1 h2 h3 h4 ha => ?_⟩,
    fun x hw => ⟨fun hx => ?_, fun hx h4 hp => ⟨fun h hl => ?_, fun hl => ?_⟩⟩, fun hx hp ha => ?_, ⟨fun hn => ?_, fun ⟨hw, hr⟩ => ?_⟩,
    fun h => ?_, fun ha ho => ?_, fun hp _ hlo hhi => ?_, fun hp => ?_, fun hp ho => ?_,
    ⟨fun hn => ?_, fun hm hc => ?_, fun d r hm hc hreads hrun => ?_⟩, ⟨fun hn => ?_, fun k hi hr hk ht => ⟨fun hn => ?_, fun hs hq => ?_⟩⟩⟩
  -- what a function does not see
  · rcases List.mem_pair.1 hi with rfl | rfl
    · exact congrArg Host.Outcome.next (rcRead_silent hr)
    · exact congrArg Host.Outcome.next (pairRead_silent hr)
  · rcases List.mem_pair.1 hi with rfl | rfl
    · exact congrArg Host.Outcome.next (rcRead_deaf hr ha)
    · exact congrArg Host.Outcome.next (pairRead_deaf hr ha)
  -- RC registers
  · subst ho
    exact rcRead_clears rfl
  · subst ho
    exact rcRead_clears rfl
  · subst ho
    exact rcRead_clears rfl
  · subst ho
    exact rcRead_clears (rcReg_cluster hn)
  · exact congrArg Host.Outcome.next ((rcRead_plain (rcReg_none h1 h2 h3 h4)).trans (plainRead_answers ha))
  -- 64-bit quantities, and plain locations
  · exact congrArg Host.Outcome.next (pairRead_lo hw hx)
  · exact congrArg Host.Outcome.next ((pairRead_hi hx h4 hp).trans (readHi_latched hw hl))
  · exact congrArg Host.Outcome.next ((pairRead_hi hx h4 hp).trans (readHi_live hw hl))
  · exact congrArg Host.Outcome.next (pairRead_plain hx hp ha)
  -- refused accesses
  · exact congrArg Host.Outcome.next (accessRefused_proper hn)
  · refine ⟨_, rfl, accessRefused_changes rfl (OnlyChanges.refl _ s), ?_⟩
    rw [accessRefused_wrong hw hr, countRefused_out]
    cases a.write with
    | true => exact ⟨rfl, countRefused_counts⟩
    | false => exact ⟨rfl, countRefused_counts (s := emit (.regRead a.fn a.offset 0) s)⟩
  -- writes
  · exact congrArg Host.Outcome.next (registerWrite_ignored h)
  · subst ho
    exact congrArg Host.Outcome.next (registerWrite_scratch ha)
  · exact congrArg Host.Outcome.next (registerWrite_unseen hp hlo hhi)
  · have put {o : Nat} {u : State} (h4 : o % 4 = 0) (h14 : o ≠ 0x014) (hhi : o < 0x03400000) (hu : putPf o v s = u) (ho : off = o) :
        execRegisterWrite fn off v s = .next u := by
      subst ho
      exact congrArg Host.Outcome.next ((registerWrite_pf h4 h14 hhi (pfLive_early hp)).trans hu)
    refine ⟨put (by decide) (by decide) (by decide) rfl, put (by decide) (by decide) (by decide) rfl,
      put (by decide) (by decide) (by decide) ?_, put (by decide) (by decide) (by decide) rfl, put (by decide) (by decide) (by decide) rfl,
      put (by decide) (by decide) (by decide) ?_, put (by decide) (by decide) (by decide) rfl, put (by decide) (by decide) (by decide) rfl,
      put (by decide) (by decide) (by decide) rfl⟩
    · simp [putPf, inRange_eq]
    · simp [putPf, putRma, inRange_eq]
  · subst ho
    exact congrArg Host.Outcome.next (registerWrite_pf (by decide) (by decide) (by decide) hp)
  -- a request notice
  · exact congrArg Host.Outcome.next (requestNotice_waits hn)
  · obtain ⟨f, hf, hr⟩ := requestNotice_refused hm hc
    obtain ⟨hp, hpc, hq⟩ := hf.of_dropHead (canIssue_running hm.2.1)
    exact ⟨_, f, rfl, hp, hpc, hr, hq⟩
  · obtain ⟨f, fl, ok, hf, ho, hb, he, hr⟩ := requestNotice_served hm hc hreads hrun
    obtain ⟨hp, hpc, hq⟩ := hf.of_dropHead (canIssue_running hm.2.1)
    exact ⟨_, f, fl, ok, rfl, hp, hpc, ho, hb, he, hr, hq⟩
  -- a reply notice
  · exact congrArg Host.Outcome.next (replyNotice_waits hn)
  · exact congrArg Host.Outcome.next (replyNotice_other hi hr hk ht hn)
  · obtain ⟨hqueue, hfast, hslow⟩ := replyNotice_taken (rowtab := rowtab) hi hr hk ht hs hq
    refine ⟨_, rfl, hqueue, hfast, fun hf => ?_⟩
    obtain ⟨arg, he⟩ := hslow hf
    exact ⟨_, he, slowPaths_requests _ arg⟩

end Sys2Proof.Machine
end

section
/-!
The frame of every command (01 R31, 17 R445): the meaning of each keeps to the blocks that `mayChange` lists for it.
-/

namespace Sys2Proof.Machine

/-- A command changes no block outside its row of `mayChange`: each arm of the dispatch is the frame of that command's meaning, whose
blocks its row contains. -/
theorem exec_onlyChanges {c : Instr} {s t : State} (h : exec c s = .next t) : OnlyChanges (mayChange c) s t := by
  cases c with
  | nop => exact execNop_changes rfl (.refl _ s) h
  | seta => exact execSeta_changes rfl (.refl _ s) h
  | adda => exact execAdda_changes rfl (.refl _ s) h
  | loop => exact execLoop_changes rfl (.refl _ s) h
  | jump => exact execJump_changes rfl (.refl _ s) h
  | branch => exact execBranch_changes rfl (.refl _ s) h
  | lda => exact execLda_changes rfl (.refl _ s) h
  | waitwq => exact execWaitwq_changes rfl (.refl _ s) h
  | donewq => exact execDonewq_changes rfl (.refl _ s) h
  | barrier => exact execBarrier_changes rfl (.refl _ s) h
  | waitch => exact execWaitch_changes rfl (.refl _ s) h
  | live => exact execLive_changes rfl (.refl _ s) h
  | load => exact execLoad_changes rfl (.refl _ s) h
  | store => exact execStore_changes rfl (.refl _ s) h
  | streamArm => exact execStreamArm_changes rfl (.refl _ s) h
  | streamStop => exact execStreamStop_changes rfl (.refl _ s) h
  | matmul => exact execMatmul_changes rfl (.refl _ s) h
  | attend => exact execAttend_changes rfl (.refl _ s) h
  | vector => exact execVector_changes rfl (.refl _ s) h
  | norm => exact execNorm_changes rfl (.refl _ s) h
  | reduce => exact execReduce_changes rfl (.refl _ s) h
  | topk => exact execTopk_changes rfl (.refl _ s) h
  | send => exact execSend_changes rfl (.refl _ s) h
  | recv => exact execRecv_changes rfl (.refl _ s) h
  | convert => exact execConvert_changes rfl (.refl _ s) h
  | gather => exact execGather_changes rfl (.refl _ s) h
  | digest => exact execDigest_changes rfl (.refl _ s) h
  | commandComplete => exact execCommandComplete_changes rfl (.refl _ s) h
  | workItemPost => exact execWorkItemPost_changes rfl (.refl _ s) h
  | segmentEnd => exact execSegmentEnd_changes rfl (.refl _ s) h
  | waitchTimeout => exact execWaitchTimeout_changes rfl (.refl _ s) h
  | regionBarrierRelease => exact execRegionBarrierRelease_changes rfl (.refl _ s) h
  | dieBarrierRelease => exact execDieBarrierRelease_changes rfl (.refl _ s) h
  | streamChunkArrival => exact execStreamChunkArrival_changes rfl (.refl _ s) h
  | clusterFault => exact execClusterFault_changes rfl (.refl _ s) h
  | paceWindowEnd => exact execPaceWindowEnd_changes rfl (.refl _ s) h
  | rankMoveToSpare => exact execRankMoveToSpare_changes rfl (.refl _ s) h
  | channelRearm => exact execChannelRearm_changes rfl (.refl _ s) h
  | formeLoad => exact execFormeLoad_changes rfl (.refl _ s) h
  | formeImageReadDone => exact execFormeImageReadDone_changes rfl (.refl _ s) h
  | plate => exact execPlate_changes rfl (.refl _ s) h
  | formeUnload => exact execFormeUnload_changes rfl (.refl _ s) h
  | unloadClearDone => exact execUnloadClearDone_changes rfl (.refl _ s) h
  | drain => exact execDrain_changes rfl (.refl _ s) h
  | drainComplete => exact execDrainComplete_changes rfl (.refl _ s) h
  | replace => exact execReplace_changes rfl (.refl _ s) h
  | formeResume => exact execFormeResume_changes rfl (.refl _ s) h
  | clusterClr => exact execClusterClr_changes rfl (.refl _ s) h
  | quiesce => exact execQuiesce_changes rfl (.refl _ s) h
  | tableWrite => exact execTableWrite_changes rfl (.refl _ s) h
  | switch => exact execSwitch_changes rfl (.refl _ s) h
  | codecClr => exact execCodecClr_changes rfl (.refl _ s) h
  | quotaWrite => exact execQuotaWrite_changes rfl (.refl _ s) h
  | quotaRead => exact execQuotaRead_changes rfl (.refl _ s) h
  | t3Bind => exact execT3Bind_changes rfl (.refl _ s) h
  | tierClr => exact execTierClr_changes rfl (.refl _ s) h
  | t1Scrub => exact execT1Scrub_changes rfl (.refl _ s) h
  | refresh => exact execRefresh_changes rfl (.refl _ s) h
  | refreshManagement => exact execRefreshManagement_changes rfl (.refl _ s) h
  | channelFail => exact execChannelFail_changes rfl (.refl _ s) h
  | t3Fault => exact execT3Fault_changes rfl (.refl _ s) h
  | shelveRetry => exact execShelveRetry_changes rfl (.refl _ s) h
  | galleyExpiry => exact execGalleyExpiry_changes rfl (.refl _ s) h
  | capsule => exact execCapsule_changes rfl (.refl _ s) h
  | admitCapsule => exact execAdmitCapsule_changes rfl (.refl _ s) h
  | resumeCapsule => exact execResumeCapsule_changes rfl (.refl _ s) h
  | cancelCapsule => exact execCancelCapsule_changes rfl (.refl _ s) h
  | sessionEnd => exact execSessionEnd_changes rfl (.refl _ s) h
  | sqNop => exact execSqNop_changes rfl (.refl _ s) h
  | sessionInit => exact execSessionInit_changes rfl (.refl _ s) h
  | sessionFinish => exact execSessionFinish_changes rfl (.refl _ s) h
  | sessionTimeout => exact execSessionTimeout_changes rfl (.refl _ s) h
  | hostCancel => exact execHostCancel_changes rfl (.refl _ s) h
  | shard => exact execShard_changes rfl (.refl _ s) h
  | stageAdmission => exact execStageAdmission_changes rfl (.refl _ s) h
  | confirmation => exact execConfirmation_changes rfl (.refl _ s) h
  | stageRefusal => exact execStageRefusal_changes rfl (.refl _ s) h
  | append => exact execAppend_changes rfl (.refl _ s) h
  | commit => exact execCommit_changes rfl (.refl _ s) h
  | sealComplete => exact execSealComplete_changes rfl (.refl _ s) h
  | sealDigest => exact execSealDigest_changes rfl (.refl _ s) h
  | ownerFwd => exact execOwnerFwd_changes rfl (.refl _ s) h
  | mapWrite => exact execMapWrite_changes rfl (.refl _ s) h
  | record => exact execRecord_changes rfl (.refl _ s) h
  | drop => exact execDrop_changes rfl (.refl _ s) h
  | dropReport => exact execDropReport_changes rfl (.refl _ s) h
  | page => exact execPage_changes rfl (.refl _ s) h
  | ckpt => exact execCkpt_changes rfl (.refl _ s) h
  | silverSetup => exact execSilverSetup_changes rfl (.refl _ s) h
  | ownerWordCas => exact execOwnerWordCas_changes rfl (.refl _ s) h
  | handoverTimeout => exact execHandoverTimeout_changes rfl (.refl _ s) h
  | stepBoundary => exact execStepBoundary_changes rfl (.refl _ s) h
  | token => exact execToken_changes rfl (.refl _ s) h
  | cancellation => exact execCancellation_changes rfl (.refl _ s) h
  | retirement => exact execRetirement_changes rfl (.refl _ s) h
  | cancel => exact execCancel_changes rfl (.refl _ s) h
  | pause => exact execPause_changes rfl (.refl _ s) h
  | reqClr => exact execReqClr_changes rfl (.refl _ s) h
  | moverClr => exact execMoverClr_changes rfl (.refl _ s) h
  | pauseHoldExpiry => exact execPauseHoldExpiry_changes rfl (.refl _ s) h
  | shelveComplete => exact execShelveComplete_changes rfl (.refl _ s) h
  | resumeStage => exact execResumeStage_changes rfl (.refl _ s) h
  | recallComplete => exact execRecallComplete_changes rfl (.refl _ s) h
  | copyout => exact execCopyout_changes rfl (.refl _ s) h
  | copyoutComplete => exact execCopyoutComplete_changes rfl (.refl _ s) h
  | partnerMeet => exact execPartnerMeet_changes rfl (.refl _ s) h
  | mirrorAckTimeout => exact execMirrorAckTimeout_changes rfl (.refl _ s) h
  | silver => exact execSilver_changes rfl (.refl _ s) h
  | checkpointRequest => exact execCheckpointRequest_changes rfl (.refl _ s) h
  | ckptAck => exact execCkptAck_changes rfl (.refl _ s) h
  | abort => exact execAbort_changes rfl (.refl _ s) h
  | mapInstall => exact execMapInstall_changes rfl (.refl _ s) h
  | mapRenew => exact execMapRenew_changes rfl (.refl _ s) h
  | mapLeaseEnd => exact execMapLeaseEnd_changes rfl (.refl _ s) h
  | suspect => exact execSuspect_changes rfl (.refl _ s) h
  | pairClr => exact execPairClr_changes rfl (.refl _ s) h
  | renewTimer => exact execRenewTimer_changes rfl (.refl _ s) h
  | grant _ xepoch => exact execGrant_changes (_xepoch := xepoch) rfl (.refl _ s) h
  | deny _ seq => exact execDeny_changes (_seq := seq) rfl (.refl _ s) h
  | leaseExpiry => exact execLeaseExpiry_changes rfl (.refl _ s) h
  | exclude => exact execExclude_changes rfl (.refl _ s) h
  | admitMsg => exact execAdmitMsg_changes rfl (.refl _ s) h
  | join => exact execJoin_changes rfl (.refl _ s) h
  | trayLoad => exact execTrayLoad_changes rfl (.refl _ s) h
  | trayStore => exact execTrayStore_changes rfl (.refl _ s) h
  | trayAppend => exact execTrayAppend_changes rfl (.refl _ s) h
  | chmsg => exact execChmsg_changes rfl (.refl _ s) h
  | credit => exact execCredit_changes rfl (.refl _ s) h
  | lstate => exact execLstate_changes rfl (.refl _ s) h
  | resp => exact execResp_changes rfl (.refl _ s) h
  | trayResponseTimeout => exact execTrayResponseTimeout_changes rfl (.refl _ s) h
  | trayForward => exact execTrayForward_changes rfl (.refl _ s) h
  | nearDisable => exact execNearDisable_changes rfl (.refl _ s) h
  | nearClr => exact execNearClr_changes rfl (.refl _ s) h
  | atomicAdd => exact execAtomicAdd_changes rfl (.refl _ s) h
  | atomicMin => exact execAtomicMin_changes rfl (.refl _ s) h
  | atomicMax => exact execAtomicMax_changes rfl (.refl _ s) h
  | atomicCas => exact execAtomicCas_changes rfl (.refl _ s) h
  | writeWr => exact execWriteWr_changes rfl (.refl _ s) h
  | readWr => exact execReadWr_changes rfl (.refl _ s) h
  | atomicWr => exact execAtomicWr_changes rfl (.refl _ s) h
  | sendWr => exact execSendWr_changes rfl (.refl _ s) h
  | pdAlloc => exact execPdAlloc_changes rfl (.refl _ s) h
  | pdFree => exact execPdFree_changes rfl (.refl _ s) h
  | qpCreate => exact execQpCreate_changes rfl (.refl _ s) h
  | qpDestroy => exact execQpDestroy_changes rfl (.refl _ s) h
  | qpReset => exact execQpReset_changes rfl (.refl _ s) h
  | regRegion => exact execRegRegion_changes rfl (.refl _ s) h
  | deregRegion => exact execDeregRegion_changes rfl (.refl _ s) h
  | mapPages => exact execMapPages_changes rfl (.refl _ s) h
  | writeMsg => exact execWriteMsg_changes rfl (.refl _ s) h
  | readReq => exact execReadReq_changes rfl (.refl _ s) h
  | readData => exact execReadData_changes rfl (.refl _ s) h
  | atomicMsg => exact execAtomicMsg_changes rfl (.refl _ s) h
  | sendMsg => exact execSendMsg_changes rfl (.refl _ s) h
  | ack => exact execAck_changes rfl (.refl _ s) h
  | retransmitTimer => exact execRetransmitTimer_changes rfl (.refl _ s) h
  | messageLifetimeEnd => exact execMessageLifetimeEnd_changes rfl (.refl _ s) h
  | identifierEntryExpiry => exact execIdentifierEntryExpiry_changes rfl (.refl _ s) h
  | readTimeout => exact execReadTimeout_changes rfl (.refl _ s) h
  | backoffExpiry => exact execBackoffExpiry_changes rfl (.refl _ s) h
  | retryLimitExpiry => exact execRetryLimitExpiry_changes rfl (.refl _ s) h
  | contextFetchDone => exact execContextFetchDone_changes rfl (.refl _ s) h
  | pageFaultTimeout => exact execPageFaultTimeout_changes rfl (.refl _ s) h
  | qpcBind => exact execQpcBind_changes rfl (.refl _ s) h
  | rmaClr => exact execRmaClr_changes rfl (.refl _ s) h
  | linkTrainStart => exact execLinkTrainStart_changes rfl (.refl _ s) h
  | linkPhaseTimeout => exact execLinkPhaseTimeout_changes rfl (.refl _ s) h
  | linkPhaseDone => exact execLinkPhaseDone_changes rfl (.refl _ s) h
  | linkDown => exact execLinkDown_changes rfl (.refl _ s) h
  | dataFrame => exact execDataFrame_changes rfl (.refl _ s) h
  | idleFrame => exact execIdleFrame_changes rfl (.refl _ s) h
  | nakFrame => exact execNakFrame_changes rfl (.refl _ s) h
  | keyFrame => exact execKeyFrame_changes rfl (.refl _ s) h
  | timeFrame => exact execTimeFrame_changes rfl (.refl _ s) h
  | rekey => exact execRekey_changes rfl (.refl _ s) h
  | laserLow => exact execLaserLow_changes rfl (.refl _ s) h
  | egressDispatch => exact execEgressDispatch_changes rfl (.refl _ s) h
  | retrain => exact execRetrain_changes rfl (.refl _ s) h
  | linkClr => exact execLinkClr_changes rfl (.refl _ s) h
  | linkFarDisable => exact execLinkFarDisable_changes rfl (.refl _ s) h
  | shaperRefillTick => exact execShaperRefillTick_changes rfl (.refl _ s) h
  | shaperCommit => exact execShaperCommit_changes rfl (.refl _ s) h
  | telEn => exact execTelEn_changes rfl (.refl _ s) h
  | shaperClr => exact execShaperClr_changes rfl (.refl _ s) h
  | frameStart => exact execFrameStart_changes rfl (.refl _ s) h
  | slotEnd => exact execSlotEnd_changes rfl (.refl _ s) h
  | effectiveSlotEnd => exact execEffectiveSlotEnd_changes rfl (.refl _ s) h
  | saveComplete => exact execSaveComplete_changes rfl (.refl _ s) h
  | restoreComplete => exact execRestoreComplete_changes rfl (.refl _ s) h
  | weightCommit => exact execWeightCommit_changes rfl (.refl _ s) h
  | meterDump => exact execMeterDump_changes rfl (.refl _ s) h
  | meterSample => exact execMeterSample_changes rfl (.refl _ s) h
  | parkWaits => exact execParkWaits_changes rfl (.refl _ s) h
  | schedClr => exact execSchedClr_changes rfl (.refl _ s) h
  | timeExchangeTimer => exact execTimeExchangeTimer_changes rfl (.refl _ s) h
  | alignmentLoss => exact execAlignmentLoss_changes rfl (.refl _ s) h
  | arrive => exact execArrive_changes rfl (.refl _ s) h
  | release => exact execRelease_changes rfl (.refl _ s) h
  | podBarrierReleaseTick => exact execPodBarrierReleaseTick_changes rfl (.refl _ s) h
  | trace => exact execTrace_changes rfl (.refl _ s) h
  | reproClr => exact execReproClr_changes rfl (.refl _ s) h
  | claim => exact execClaim_changes rfl (.refl _ s) h
  | addKey => exact execAddKey_changes rfl (.refl _ s) h
  | removeKey => exact execRemoveKey_changes rfl (.refl _ s) h
  | advance => exact execAdvance_changes rfl (.refl _ s) h
  | debugUnlock => exact execDebugUnlock_changes rfl (.refl _ s) h
  | recoveryImage => exact execRecoveryImage_changes rfl (.refl _ s) h
  | podFetch => exact execPodFetch_changes rfl (.refl _ s) h
  | podGenesis => exact execPodGenesis_changes rfl (.refl _ s) h
  | tenantUnbind => exact execTenantUnbind_changes rfl (.refl _ s) h
  | secClr => exact execSecClr_changes rfl (.refl _ s) h
  | reseed => exact execReseed_changes rfl (.refl _ s) h
  | getVersion => exact execGetVersion_changes rfl (.refl _ s) h
  | getCapabilities => exact execGetCapabilities_changes rfl (.refl _ s) h
  | negotiateAlgorithms => exact execNegotiateAlgorithms_changes rfl (.refl _ s) h
  | getDigests => exact execGetDigests_changes rfl (.refl _ s) h
  | getCertificate => exact execGetCertificate_changes rfl (.refl _ s) h
  | challenge => exact execChallenge_changes rfl (.refl _ s) h
  | getMeasurements => exact execGetMeasurements_changes rfl (.refl _ s) h
  | ideKm => exact execIdeKm_changes rfl (.refl _ s) h
  | ideIntegrityFailure => exact execIdeIntegrityFailure_changes rfl (.refl _ s) h
  | lockInterface => exact execLockInterface_changes rfl (.refl _ s) h
  | dmaFailure => exact execDmaFailure_changes rfl (.refl _ s) h
  | enable => exact execEnable_changes rfl (.refl _ s) h
  | disable => exact execDisable_changes rfl (.refl _ s) h
  | faultEn => exact execFaultEn_changes rfl (.refl _ s) h
  | sqDoorbell => exact execSqDoorbell_changes rfl (.refl _ s) h
  | qpDoorbell => exact execQpDoorbell_changes rfl (.refl _ s) h
  | consumerWrite => exact execConsumerWrite_changes rfl (.refl _ s) h
  | interruptHoldoffExpiry => exact execInterruptHoldoffExpiry_changes rfl (.refl _ s) h
  | flr => exact execFlr_changes rfl (.refl _ s) h
  | hotReset => exact execHotReset_changes rfl (.refl _ s) h
  | perst => exact execPerst_changes rfl (.refl _ s) h
  | warm => exact execWarm_changes rfl (.refl _ s) h
  | shutdown => exact execShutdown_changes rfl (.refl _ s) h
  | maintClr => exact execMaintClr_changes rfl (.refl _ s) h
  | selftestSliceEnd => exact execSelftestSliceEnd_changes rfl (.refl _ s) h
  | pwrgdAssert => exact execPwrgdAssert_changes rfl (.refl _ s) h
  | pwrgdDeassert => exact execPwrgdDeassert_changes rfl (.refl _ s) h
  | ready => exact execReady_changes rfl (.refl _ s) h
  | thermalTrip => exact execThermalTrip_changes rfl (.refl _ s) h
  | thermalHoldEnd => exact execThermalHoldEnd_changes rfl (.refl _ s) h
  | watchdog => exact execWatchdog_changes rfl (.refl _ s) h
  | bridge => exact execBridge_changes rfl (.refl _ s) h
  | rankRelease => exact execRankRelease_changes rfl (.refl _ s) h
  | claimGrant => exact execClaimGrant_changes rfl (.refl _ s) h
  | claimRelease => exact execClaimRelease_changes rfl (.refl _ s) h
  | tmrFix => exact execTmrFix_changes rfl (.refl _ s) h
  | rcRead => exact execRcRead_changes rfl (.refl _ s) h
  | loReadCapture => exact execLoReadCapture_changes rfl (.refl _ s) h
  | registerAccessRefused => exact execRegisterAccessRefused_changes rfl (.refl _ s) h
  | registerWrite => exact execRegisterWrite_changes rfl (.refl _ s) h
  | requestNotice => exact execRequestNotice_changes rfl (.refl _ s) h
  | replyNotice => exact execReplyNotice_changes rfl (.refl _ s) h
  | podKeyTransfer => exact execPodKeyTransfer_changes rfl (.refl _ s) h
  | bootFailure => exact execBootFailure_changes rfl (.refl _ s) h
  | pcieLinkUp => exact execPcieLinkUp_changes rfl (.refl _ s) h
  | perstDeassert => exact execPerstDeassert_changes rfl (.refl _ s) h
  | flrComplete => exact execFlrComplete_changes rfl (.refl _ s) h
  | vfEnable => exact execVfEnable_changes rfl (.refl _ s) h
  | d3hotEntry => exact execD3hotEntry_changes rfl (.refl _ s) h
  | podSendEnable => exact execPodSendEnable_changes rfl (.refl _ s) h
  | secureSessionExchange => exact execSecureSessionExchange_changes rfl (.refl _ s) h

/-- Settles O12. -/
theorem commandFrames : Obligations.CommandFrames := by
  unfold Obligations.CommandFrames
  exact fun _ _ _ h => exec_onlyChanges h

end Sys2Proof.Machine
end

section
/-!
The ramp of a governed stop, and the reset that follows its end (18 R457, R458, R460 to R462, R466): what one tick takes away, and what
a warm and a cold reset leave of MAINT.
-/

namespace Sys2Proof.Machine

/-! ### A tick of the time base (01 R37, R38) -/

/-- The state one tick later, with nothing else changed. -/
def ticked (s : State) : State := { s with tb := s.tb + 1 }

theorem ticked_only (s : State) : OnlyChanges [.maint, .tb, .free] s (ticked s) := fun b hb => by
  cases b with
  | tb => simp at hb
  | _ => rfl

theorem step_idle {s : State} (h : s.pending = []) : step s = .next (clockTick s) := by
  unfold step
  rw [h]

/-- Without a correction left, the time base advances by one tick (14 R371). -/
theorem clockTick_settled {s : State} (h : s.repro.slewLeft = 0) : clockTick s = afterRamp (rampStep (ticked s)) := by
  simp [clockTick, tbTick, h, ticked]

/-! ### One step of the ramp (18 R457) -/

theorem lowest_eq_min? (l : List Nat) : lowest l = l.min? := by
  induction l with
  | nil => rfl
  | cons a rest ih =>
    rw [lowest, ih, List.min?_cons]
    cases rest.min? <;> rfl

theorem lowest_eq_some {l : List Nat} {k : Nat} : lowest l = some k ↔ k ∈ l ∧ ∀ n ∈ l, k ≤ n := by
  rw [lowest_eq_min?, List.min?_eq_some_iff]

theorem lowest_eq_none {l : List Nat} : lowest l = none ↔ l = [] := by
  rw [lowest_eq_min?, List.min?_eq_none_iff]

/-- The claim of cluster `k` goes. -/
def claimEnds (k : Nat) (s : State) : State :=
  sense { s with maint := { s.maint with claims := s.maint.claims.filter (fun m => m != k), lastStep := some s.tb } }

/-- A step of the port dies goes. -/
def portStepEnds (s : State) : State :=
  sense { s with maint := { s.maint with portSteps := s.maint.portSteps - 1, lastStep := some s.tb } }

section
variable {s : State}

theorem rampStep_waits (h : s.maint.ballast = false ∨ stepFree s = false) : rampStep s = s := by
  rcases h with h | h <;> simp [rampStep, h]

section
variable (hb : s.maint.ballast = true) (hf : stepFree s = true)
include hb hf

theorem rampStep_claim {k : Nat} (hk : lowest s.maint.claims = some k) : rampStep s = claimEnds k s := by
  simp [rampStep, hb, hf, hk, claimEnds]

theorem rampStep_port (hc : s.maint.claims = []) (hp : s.maint.portSteps ≠ 0) : rampStep s = portStepEnds s := by
  simp [rampStep, hb, hf, lowest_eq_none.2 hc, hp, portStepEnds]

theorem rampStep_last (hc : s.maint.claims = []) (hp : s.maint.portSteps = 0) : rampStep s = rampEnds s := by
  simp [rampStep, hb, hf, lowest_eq_none.2 hc, hp]

/-- A step that is taken ends one claim, or one step of the port dies where no claim is left, or the stop where neither is. -/
theorem rampStep_cases :
    (∃ k, lowest s.maint.claims = some k ∧ rampStep s = claimEnds k s) ∨
    (s.maint.claims = [] ∧ s.maint.portSteps ≠ 0 ∧ rampStep s = portStepEnds s) ∨
    (s.maint.claims = [] ∧ s.maint.portSteps = 0 ∧ rampStep s = rampEnds s) := by
  cases hk : lowest s.maint.claims with
  | some k => exact .inl ⟨k, rfl, rampStep_claim hb hf hk⟩
  | none =>
    have hc := lowest_eq_none.1 hk
    by_cases hp : s.maint.portSteps = 0
    · exact .inr (.inr ⟨hc, hp, rampStep_last hb hf hc hp⟩)
    · exact .inr (.inl ⟨hc, hp, rampStep_port hb hf hc hp⟩)

/-- While a claim or a step of the port dies is left, the stop goes on. -/
theorem rampStep_held (h : s.maint.claims ≠ [] ∨ s.maint.portSteps ≠ 0) : (rampStep s).maint.ballast = true := by
  rcases rampStep_cases hb hf with ⟨k, -, e⟩ | ⟨-, -, e⟩ | ⟨hc, hp, -⟩
  · exact e ▸ hb
  · exact e ▸ hb
  · exact absurd h (by simp [hc, hp])

end

theorem rampStep_after (s : State) : (rampStep s).maint.after = s.maint.after := by
  by_cases h : s.maint.ballast = true ∧ stepFree s = true
  · obtain ⟨hb, hf⟩ := h
    rcases rampStep_cases hb hf with ⟨k, -, e⟩ | ⟨-, -, e⟩ | ⟨-, -, e⟩ <;> rw [e] <;> rfl
  · rw [rampStep_waits (by simpa [imp_iff_not_or] using h)]

/-- An orderly shutdown answers at the end of its stop (18 R466 step 6). -/
theorem rampEnds_powerOff (h : s.maint.after = .powerOff) :
    (rampEnds s).maint.shutdownDone = true ∧ (rampEnds s).maint.busy = false ∧ (rampEnds s).maint.code = 0x00 := by
  simp [rampEnds, sense, h, codeOf]

theorem rampEnds_other (h : s.maint.after ≠ .powerOff) : (rampEnds s).maint.shutdownDone = s.maint.shutdownDone
    ∧ (rampEnds s).maint.busy = s.maint.busy ∧ (rampEnds s).maint.code = s.maint.code := by
  simp [rampEnds, sense, h]

/-! ### After the ramp (18 R457, R458) -/

theorem afterRamp_held (h : s.maint.ballast = true) : afterRamp s = s := by
  unfold afterRamp
  split
  · rw [if_pos h]
  · rfl

theorem afterRamp_noReset (h : ∀ (c : Nat) (cold fatal : Bool), s.maint.after ≠ .reset c cold fatal) : afterRamp s = s := by
  unfold afterRamp
  split
  · next ha => exact absurd ha (h _ _ _)
  · rfl

theorem afterRamp_reset {c : Nat} {cold fatal : Bool} (ha : s.maint.after = .reset c cold fatal) (hb : s.maint.ballast = false) :
    afterRamp s = resetBegins c cold fatal s := by
  unfold afterRamp
  rw [ha]
  exact if_neg (by simp [hb])

end

/-! ### What a cold reset leaves (18 R459, R460) -/

/-- A cold reset of this cause has begun the start-up: READY is clear, no stop runs, nothing waits for one, and the last reset is of
KIND cold with the cause (18 R458, R460). -/
structure Restarted (cause : Nat) (t : State) : Prop where
  ready : t.dev.ready = false
  ballast : t.maint.ballast = false
  after : t.maint.after = .none
  lastReset : t.maint.lastReset = Tmr.all (BitVec.ofNat 32 (0x10 + cause))

section
variable {cause : Nat} {t : State}

theorem Restarted.of_dev (h : Restarted cause t) {u : State} (hd : u.dev.ready = t.dev.ready) (hm : u.maint = t.maint) : Restarted cause u :=
  ⟨hd.trans h.ready, hm ▸ h.ballast, hm ▸ h.after, hm ▸ h.lastReset⟩

theorem Restarted.noteErr (h : Restarted cause t) (b i off : Nat) : Restarted cause (noteErr b i off t) :=
  h.of_dev (by unfold Machine.noteErr; dsimp only; split <;> rfl) (noteErr_maint ..)

theorem Restarted.channelFailed (h : Restarted cause t) (c : Nat) : Restarted cause (channelFailed c t) := by
  unfold Machine.channelFailed
  split
  · exact h
  · refine Restarted.noteErr ?_ _ _ _
    exact h.of_dev rfl rfl

theorem Restarted.addRepair (h : Restarted cause t) (e : RepairEntry) : Restarted cause (addRepair e t) := by
  unfold Machine.addRepair repairBit
  dsimp only
  split
  · exact h
  · split <;> exact ⟨h.ready, h.ballast, h.after, h.lastReset⟩

theorem Restarted.applyRecord (h : Restarted cause t) (b : BoardInputs) : Restarted cause (applyRecord b t) := by
  unfold Machine.applyRecord
  split
  · exact h.of_dev rfl rfl
  · dsimp only
    split
    · exact ⟨h.ready, h.ballast, h.after, h.lastReset⟩
    · refine Restarted.noteErr ?_ _ _ _
      exact ⟨h.ready, h.ballast, h.after, h.lastReset⟩

theorem Restarted.trainChannels (h : Restarted cause t) (b : BoardInputs) : Restarted cause (trainChannels b t) := by
  unfold Machine.trainChannels
  dsimp only
  refine Restarted.of_dev (t := List.foldl _ _ _) ?_ rfl rfl
  refine List.foldlRecOn _ _ (motive := Restarted cause) ?_ (fun _ hu c _ => (hu.channelFailed c).addRepair _)
  exact List.foldlRecOn _ _ (motive := Restarted cause) h (fun _ hu c _ => hu.channelFailed c)

theorem coldReset_restarted (cause : Nat) (s : State) : Restarted cause (coldReset cause s) := by
  have h : Restarted cause (coldBoot cause (s.maint.board.getD default) s) := ⟨rfl, rfl, rfl, rfl⟩
  unfold coldReset coldStart
  dsimp only
  split
  · exact (h.applyRecord _).trainChannels _
  · exact h

/-- Nothing of the forme and of the clusters is left (18 R460). -/
theorem coldReset_empty (cause : Nat) (s : State) : (coldReset cause s).forme = {} ∧ (coldReset cause s).clusters = [] := by
  have h (b : BoardInputs) (u : State) : OnlyChanges [.dev, .maint, .tier] u (trainChannels b (applyRecord b u)) :=
    trainChannels_changes rfl (applyRecord_changes rfl (.refl _ _))
  unfold coldReset coldStart
  dsimp only
  split
  · exact ⟨h _ _ .forme rfl, h _ _ .clusters rfl⟩
  · exact ⟨rfl, rfl⟩

end

/-! ### What a warm reset leaves of the count of governed stops (18 R461; MAINT_STOPS) -/

theorem endItem_stops (n : Nat) (c : Status) (cause : Nat) (retire : Bool) (s : State) :
    (endItem n c cause retire s).maint.stops = s.maint.stops := by
  have hr (l : List RowRef) (u : State) : (l.foldl (fun s r => reportEnd r.req c s) u).maint = u.maint :=
    (foldl_changes (ps := [.req, .rma, .links, .out]) (.refl _ u) (fun _ _ h => reportEnd_changes rfl h)) .maint rfl
  unfold endItem
  dsimp only
  split
  · split
    · rw [hr]; simp [itemGone]
    · simp [itemGone]
  · simp [itemGone]

theorem wakeWait_stops (n : Nat) (s : State) : (wakeWait n s).maint.stops = s.maint.stops := by
  unfold wakeWait
  dsimp only
  split
  · split
    · rfl
    · split
      · rfl
      · exact iteInduction (motive := fun u : State => u.maint.stops = s.maint.stops) (fun _ => rfl) (fun _ => rfl)
  · split
    · rfl
    · split
      · exact endItem_stops ..
      · rfl
  · rfl

theorem breakChannels_stops (sel : ChanPeer → Bool) (c : Status) (s : State) :
    (breakChannels sel c s).maint.stops = s.maint.stops := by
  unfold breakChannels
  refine List.foldlRecOn _ _ (motive := fun u : State => u.maint.stops = s.maint.stops) rfl (fun u hu n _ => ?_)
  dsimp only
  split
  · rw [(rebind_changes (Q := [.clusters, .sched, .req]) rfl (.refl _ _)) .maint rfl, wakeWait_stops]
    exact hu
  · exact hu

theorem qpError_stops (q : Nat) (i : Option Nat) (c : Status) (s : State) : (qpError q i c s).maint.stops = s.maint.stops := by
  unfold qpError
  split
  · rfl
  split
  · rfl
  dsimp only
  rw [breakChannels_stops, noteErr_maint]
  refine congrArg Maint.stops (foldl_changes (ps := [.rma, .free, .out]) (ringEnds_changes rfl (qpFlush_changes rfl (qpUpd_changes rfl ?_)))
    (fun _ _ hu => qpCompletion_changes rfl hu) .maint rfl)
  cases i with
  | none => exact .refl _ s
  | some i => exact wrDone_changes rfl (.refl _ s)

theorem formeGone_stops (s : State) : (formeGone s).maint.stops = s.maint.stops := by
  unfold formeGone
  dsimp only
  rw [(pairFollow_changes (Q := [.pair]) rfl (.refl _ _)) .maint rfl, (clearSched_changes (Q := [.sched]) rfl (.refl _ _)) .maint rfl]
  change (clearRegions _ _ _).maint.stops = _
  rw [(clearRegions_changes (Q := [.tier, .clusters]) rfl (.refl _ _)) .maint rfl]

theorem unloadDone_stops (s : State) : (unloadDone s).maint.stops = s.maint.stops := by
  unfold unloadDone freeRetired
  exact (formeGone_stops _).trans (congrArg Maint.stops ((silverClear_changes (Q := [.req]) rfl (.refl _ s)) .maint rfl))

theorem formeWarm_stops (s : State) : (formeWarm s).maint.stops = s.maint.stops := by
  unfold formeWarm
  split
  · rfl
  · rfl
  · rfl
  · rw [(formeEnd_changes (Q := [.dev, .forme, .out]) rfl (.refl _ _)) .maint rfl, unloadDone_stops]
  · rfl
  · rfl

theorem rmaWarm_stops (s : State) : (rmaWarm s).maint.stops = s.maint.stops := by
  unfold rmaWarm
  dsimp only
  rw [(channelQps_changes (Q := [.rma, .out]) rfl (.refl _ _)) .maint rfl]
  exact List.foldlRecOn _ _ (motive := fun u : State => u.maint.stops = s.maint.stops) rfl (fun u hu e _ => (qpError_stops ..).trans hu)

theorem registersWarm_stops (cause k : Nat) (fatal : Bool) (s : State) : (registersWarm cause k fatal s).maint.stops = s.maint.stops := rfl

theorem warmReset_stops (cause : Nat) (fatal : Bool) (s : State) : (warmReset cause fatal s).maint.stops = s.maint.stops := by
  have h (u : State) : (stepsWarm (clustersWarm (slicesWarm (pairWarm (hostWarm (schedWarm u)))))).maint = u.maint :=
    (stepsWarm_changes (Q := [.req, .clusters, .tier, .pair, .near, .rma, .links, .free, .out, .host, .sched]) rfl
      (clustersWarm_changes rfl (slicesWarm_changes rfl (pairWarm_changes rfl (hostWarm_changes rfl
        (schedWarm_changes rfl (.refl _ u))))))) .maint rfl
  have hf : (if keptGood (formeWarm s) then formeWarm s else formeGone (formeWarm s)).maint.stops = s.maint.stops := by
    split
    · exact formeWarm_stops s
    · exact (formeGone_stops _).trans (formeWarm_stops s)
  unfold warmReset
  dsimp only
  rw [registersWarm_stops, (draw_changes (Q := [.drbg, .free]) rfl (.refl _ _)) .maint rfl,
    (recountRefs_changes (Q := [.codec]) rfl (.refl _ _)) .maint rfl, rmaWarm_stops, h, hf]

/-- After a warm reset READY is clear, no stop runs, nothing waits for one, PHASE is START, and the last reset is of KIND warm with its
cause; the time base runs on (18 R458, R461). -/
theorem warmReset_leaves (cause : Nat) (fatal : Bool) (s : State) :
    (warmReset cause fatal s).maint.after = .none ∧ (warmReset cause fatal s).dev.ready = false
      ∧ (warmReset cause fatal s).maint.ballast = false
      ∧ (warmReset cause fatal s).maint.lastReset = Tmr.all (BitVec.ofNat 32 (0x20 + cause))
      ∧ (warmReset cause fatal s).maint.phase = 0 ∧ (warmReset cause fatal s).tb = s.tb := by
  refine ⟨?_, ?_, ?_, ?_, ?_, (warmReset_changes (Q := [.dev, .maint, .sec, .drbg, .host, .forme, .codec, .tier, .clusters, .sched, .repro,
    .req, .pair, .near, .rma, .links, .free, .out]) rfl (.refl _ s)) .tb rfl⟩
  all_goals
    unfold warmReset registersWarm
    rfl

/-! ### An idle step (01 R37, R38; 18 R457, R460, R466) -/

/-- Settles O6. The clauses are, in order: a tick without a step of the ramp; a tick that takes one; and a tick that ends a stop which a
reset waits for. -/
theorem idleStepIsTick : Obligations.IdleStepIsTick := by
  unfold Obligations.IdleStepIsTick
  intro s hq hs u noReset
  rw [step_idle hq, clockTick_settled hs]
  refine ⟨fun hn hw => ?_, fun hb hf hr => ?_, fun hb hf hc hp c cold fatal ha => ?_⟩
  · rw [rampStep_waits hw]
    cases hb : s.maint.ballast with
    | true => exact congrArg Host.Outcome.next (afterRamp_held hb)
    | false => exact congrArg Host.Outcome.next (afterRamp_noReset (hn hb))
  · have hstay : afterRamp (rampStep (ticked s)) = rampStep (ticked s) := by
      rcases or_assoc.2 hr with hl | hn
      · exact afterRamp_held (rampStep_held hb hf hl)
      · exact afterRamp_noReset (rampStep_after (ticked s) ▸ hn)
    rw [hstay]
    refine ⟨_, rfl, (rampStep_changes (Q := [.maint, .free]) rfl (.refl _ (ticked s))) .tb rfl, rampStep_changes rfl (ticked_only s),
      rampStep_after _, fun k hk hmin => ?_, fun hc hp => ?_, fun hc hp => ?_⟩
    · rw [rampStep_claim (s := ticked s) hb hf (lowest_eq_some.2 ⟨hk, hmin⟩)]
      exact ⟨rfl, rfl, hb, rfl⟩
    · rw [rampStep_port (s := ticked s) hb hf hc hp]
      exact ⟨rfl, rfl, hb⟩
    · rw [rampStep_last (s := ticked s) hb hf hc hp]
      exact ⟨rfl, rfl, rampEnds_powerOff, rampEnds_other⟩
  · rw [rampStep_last (s := ticked s) hb hf hc hp, afterRamp_reset (s := rampEnds (ticked s)) ha rfl]
    refine ⟨_, rfl, ?_⟩
    cases cold with
    | false =>
      obtain ⟨hn, hready, hballast, hlast, hphase, htb⟩ :=
        warmReset_leaves c fatal { rampEnds (ticked s) with maint := { (rampEnds (ticked s)).maint with after := .none } }
      exact ⟨hn, hready, hballast, fun _ => ⟨hlast, warmReset_stops .., hphase, htb⟩, nofun⟩
    | true =>
      obtain ⟨hready, hballast, hn, hlast⟩ :=
        coldReset_restarted c { rampEnds (ticked s) with maint := { (rampEnds (ticked s)).maint with after := .none } }
      exact ⟨hn, hready, hballast, nofun, fun _ => ⟨hlast, coldReset_empty ..⟩⟩

end Sys2Proof.Machine
end

section
/-!
Work items on their way from firmware to a waiting compositor (03 R68, R69; 13 R351; 18 R455, R456), and the elapsed channel wait (03
WAITCH).
-/

namespace Sys2Proof.Machine

/-! ### What firmware's queue keeps -/

theorem SameSlots.waiting {s t : State} (h : SameSlots s t) : t.sched.waiting = s.sched.waiting := by obtain ⟨_, h⟩ := h; rw [h]

/-- The barriers' arrivals and the regions entered for a die barrier are the same. -/
def SameBarriers (s t : State) : Prop := t.sched.arrivals = s.sched.arrivals ∧ t.sched.dieRegions = s.sched.dieRegions

theorem SameSlots.sameBarriers {s t : State} (h : SameSlots s t) : SameBarriers s t := by
  obtain ⟨_, h⟩ := h
  rw [SameBarriers, h]
  exact ⟨rfl, rfl⟩

theorem ctxOf_ctxUpd_pastEnd (c j : Nat) {f : Ctx → Ctx} (hf : ∀ x, (f x).pastEnd = x.pastEnd) (s : State) :
    (ctxOf (ctxUpd c f s) j).pastEnd = (ctxOf s j).pastEnd := by
  by_cases h : j = c
  · subst h
    rw [ctxOf_ctxUpd_same, hf]
  · exact congrArg Ctx.pastEnd (Tab.getD_upd_other _ _ _ _ _ h)

/-- Virtual times move no effective end (13 R350, R354). -/
theorem vtRefresh_pastEnd (b : Bool) (s : State) (c : Nat) : (ctxOf (vtRefresh b s) c).pastEnd = (ctxOf s c).pastEnd := by
  unfold vtRefresh
  split
  · rfl
  split
  · rfl
  refine List.foldlRecOn _ _ (motive := fun u : State => (ctxOf u c).pastEnd = (ctxOf s c).pastEnd) rfl (fun u hu p _ => ?_)
  exact List.foldlRecOn _ _ (motive := fun w : State => (ctxOf w c).pastEnd = (ctxOf s c).pastEnd) hu
    (fun w hw j _ => (ctxOf_ctxUpd_pastEnd j c (by exact fun _ => rfl) w).trans hw)

/-! ### Claims and the start schedule (18 R455, R456) -/

theorem armSchedule_armed {s : State} (h : s.maint.phase ≠ 3) : (armSchedule s).maint.armed.isSome = true := by
  unfold armSchedule
  split
  · next ha => exact (Bool.or_eq_true _ _ ▸ ha).resolve_right (fun hp => h (of_decide_eq_true hp))
  · rfl

theorem armSchedule_of_armed {s : State} (h : s.maint.armed.isSome = true) : armSchedule s = s := if_pos (by rw [h]; rfl)

theorem armSchedule_claimed (s : State) (n : Nat) : claimed (armSchedule s) n = claimed s n := by
  unfold armSchedule
  split <;> rfl

theorem claimFor_armed {n : Nat} {s : State} (h : s.maint.armed.isSome = true) : (claimFor n s).maint.armed.isSome = true := by
  unfold claimFor
  rw [armSchedule_of_armed h]
  dsimp only
  split <;> exact h

theorem claimFor_claimed (n m : Nat) (s : State) : claimed (claimFor n s) m = claimed s m := by
  rw [← armSchedule_claimed s m]
  unfold claimFor
  dsimp only
  split <;> rfl

@[simp] theorem claimFor_cluster (n m : Nat) (s : State) : cluster (claimFor n s) m = cluster s m :=
  cluster_congr ((claimFor_changes (Q := [.maint]) rfl (.refl _ s)) .clusters rfl) m

/-! ### Taking a work item (03 R69) -/

/-- The mailbox of a cluster to which firmware posts an item: what it writes into the channel and descriptor area, then the item's bytes in
the ring's next slot (03 R68, R69). -/
def postedMail (i : WorkItem) (x : Cluster) : Mem :=
  Mem.store (i.mail.foldl (fun m e => if 0x1000 ≤ e.1 ∧ e.1 + e.2.length ≤ 0x10000 then Mem.store m e.1 e.2 else m) x.mailbox)
    (x.wqProd % 64 * 64) i.bytes

theorem postedMail_plain {i : WorkItem} {x : Cluster} (h : i.mail = []) :
    postedMail i x = Mem.store x.mailbox (x.wqProd % 64 * 64) i.bytes := by
  rw [postedMail, h]
  rfl

theorem postedMail_one {i : WorkItem} {x : Cluster} {e : Nat × List Byte} (h : i.mail = [e]) (lo : 0x1000 ≤ e.1)
    (hi : e.1 + e.2.length ≤ 0x10000) :
    postedMail i x = Mem.store (Mem.store x.mailbox e.1 e.2) (x.wqProd % 64 * 64) i.bytes := by
  rw [postedMail, h]
  simp only [List.foldl, if_pos (And.intro lo hi)]

/-- A cluster that firmware has posted an item to. -/
def posted (i : WorkItem) (x : Cluster) : Cluster :=
  { x with mailbox := postedMail i x, wqItems := Tab.put x.wqItems (x.wqProd % 64) i, wqProd := x.wqProd + 1 }

theorem pushItem_eq (n : Nat) (i : WorkItem) (s : State) : pushItem n i s = clusterUpd n (posted i) s := rfl

/-- From `x` to `y` the cluster, whose ring is empty, has been posted item `i` and has taken it. -/
structure Took (i : WorkItem) (x y : Cluster) : Prop where
  item : y.item = some i
  index : y.wqCons = x.wqCons + 1
  wait : y.wait = .none
  mailbox : y.mailbox = postedMail i x
  slot : areg y 15 = BitVec.ofNat 32 (0x01000000 + x.wqCons % 64 * 64)

theorem Took.bound {i : WorkItem} {x y z : Cluster} (h : Took i x y) (b : Bound y z) : Took i x z := by
  obtain ⟨_, _, _, _, _, rfl⟩ := b
  exact ⟨h.item, h.index, h.wait, h.mailbox, h.slot⟩

/-- A compositor that takes the work items posted to it: it waits at WAITWQ, its cluster is bound and claimed, and is not to quiesce (03
R69; 18 R453). -/
structure AtWaitwq (s : State) (n : Nat) : Prop where
  wait : (cluster s n).wait = .workItem
  quiesce : (cluster s n).quiesce = false
  claimed : claimed s n = true
  moving : (cluster s n).moving = none
  bound : (cluster s n).ctx.isSome = true

theorem AtWaitwq.congr {s t : State} {n : Nat} (h : AtWaitwq s n) (hc : cluster t n = cluster s n) (hk : Machine.claimed t n = Machine.claimed s n) :
    AtWaitwq t n :=
  ⟨hc ▸ h.wait, hc ▸ h.quiesce, hk ▸ h.claimed, hc ▸ h.moving, hc ▸ h.bound⟩

theorem takeItem_other {n m : Nat} (s : State) (h : m ≠ n) : cluster (takeItem n s) m = cluster s m := by
  unfold takeItem
  dsimp only
  split
  · rfl
  split
  · rfl
  · exact cluster_clusterUpd_other _ _ _ _ h

/-- It takes the item that its consumer index names, and register 15 holds the address of its slot. -/
theorem takeItem_takes {n : Nat} {i : WorkItem} {s : State} (h : AtWaitwq s n)
    (hi : Tab.find (cluster s n).wqItems ((cluster s n).wqCons % 64) = some i) :
    (cluster (takeItem n s) n).item = some i ∧ (cluster (takeItem n s) n).wqCons = (cluster s n).wqCons + 1
      ∧ (cluster (takeItem n s) n).wait = .none ∧ (cluster (takeItem n s) n).mailbox = (cluster s n).mailbox
      ∧ areg (cluster (takeItem n s) n) 15 = BitVec.ofNat 32 (0x01000000 + (cluster s n).wqCons % 64 * 64) := by
  obtain ⟨hwait, hquiesce, hclaimed, hmoving, hbound⟩ := h
  have hctx : (cluster s n).ctx.isNone = false := by rw [Option.isNone_eq_false_iff]; exact hbound
  unfold takeItem
  dsimp only
  rw [if_neg (by simp [hwait, hquiesce, hclaimed, hmoving, hctx]), hi]
  dsimp only
  rw [cluster_clusterUpd_same]
  exact ⟨rfl, rfl, rfl, rfl, Tab.getD_put_same ..⟩

theorem takeItem_push_took {n : Nat} {i : WorkItem} {s : State} (h : AtWaitwq s n) (he : (cluster s n).wqProd = (cluster s n).wqCons) :
    Took i (cluster s n) (cluster (takeItem n (claimFor n (pushItem n i s))) n) := by
  have hx : cluster (claimFor n (pushItem n i s)) n = posted i (cluster s n) := by
    rw [claimFor_cluster, pushItem_eq, cluster_clusterUpd_same]
  have ha : AtWaitwq (claimFor n (pushItem n i s)) n := by
    constructor
    · rw [hx]; exact h.wait
    · rw [hx]; exact h.quiesce
    · exact (claimFor_claimed ..).trans h.claimed
    · rw [hx]; exact h.moving
    · rw [hx]; exact h.bound
  obtain ⟨hitem, hindex, hwait, hmail, hslot⟩ := takeItem_takes ha (i := i) (by
    rw [hx]
    simp only [posted, he, Tab.find_put_same])
  rw [hx] at hindex hmail hslot
  exact ⟨hitem, hindex, hwait, hmail, hslot⟩

/-! ### Posting the items that wait (13 R351) -/

theorem pushItem_other {n m : Nat} (i : WorkItem) (s : State) (h : m ≠ n) : cluster (pushItem n i s) m = cluster s m :=
  cluster_clusterUpd_other _ _ _ _ h

theorem postWaiting_other {n m : Nat} (s : State) (h : m ≠ n) : cluster (postWaiting n s) m = cluster s m := by
  unfold postWaiting
  dsimp only
  split
  · rfl
  split
  · rfl
  rw [takeItem_other _ h, claimFor_cluster]
  exact List.foldlRecOn _ _ (motive := fun u : State => cluster u m = cluster s m) rfl (fun u hu i _ => (pushItem_other i u h).trans hu)

theorem postWaiting_armed {n : Nat} {s : State} (h : s.maint.armed.isSome = true) : (postWaiting n s).maint.armed.isSome = true := by
  unfold postWaiting
  dsimp only
  split
  · exact h
  split
  · exact h
  rw [(takeItem_changes (Q := [.clusters]) rfl (.refl _ _)) .maint rfl]
  refine claimFor_armed ?_
  rw [(foldl_changes (ps := [.clusters]) (.refl _ _) (fun _ _ hu => pushItem_changes rfl hu)) .maint rfl]
  exact h

/-- Posting to a cluster leaves the items of every context that it is not bound to. -/
theorem postWaiting_waiting {n key : Nat} {s : State} (h : ∀ c, (cluster s n).ctx = some c → key ≠ n * 64 + c) :
    Tab.getD (postWaiting n s).sched.waiting key [] = Tab.getD s.sched.waiting key [] := by
  unfold postWaiting
  dsimp only
  split
  · rfl
  next c hc =>
    split
    · rfl
    rw [(takeItem_changes (Q := [.clusters, .maint]) rfl (claimFor_changes rfl
      (foldl_changes (.refl _ _) (fun _ _ hu => pushItem_changes rfl hu)))) .sched rfl]
    exact Tab.getD_put_other _ _ _ _ _ (h c hc)

/-- The one item that waits for the bound context of an empty ring is posted. -/
theorem postWaiting_one {n c : Nat} {i : WorkItem} {s : State} (hc : (cluster s n).ctx = some c) (hm : (cluster s n).moving = none)
    (hp : (ctxOf s c).pastEnd = false) (he : (cluster s n).wqProd = (cluster s n).wqCons)
    (hw : Tab.getD s.sched.waiting (n * 64 + c) [] = [i]) :
    postWaiting n s = takeItem n (claimFor n (pushItem n i
      { s with sched := { s.sched with waiting := Tab.put s.sched.waiting (n * 64 + c) [] } })) := by
  unfold postWaiting
  simp [hc, hm, hp, he, hw]

/-! ### WORK_ITEM_POST -/

/-- The state in which a posted item waits for its cluster: the start schedule is armed (18 R455). -/
def itemWaits (n : Nat) (i : WorkItem) (s : State) : State :=
  vtRefresh false (armSchedule { s with sched := { s.sched with
    waiting := Tab.upd s.sched.waiting (n * 64 + i.ctx.toNat) [] (fun l => l ++ [i]) } })

section
variable (n : Nat) (i : WorkItem) (s : State)

theorem itemWaits_cluster (m : Nat) : cluster (itemWaits n i s) m = cluster s m := by
  rw [itemWaits, vtRefresh_cluster]
  exact cluster_congr ((armSchedule_changes (Q := [.maint]) rfl (.refl _ _)) .clusters rfl) m

theorem itemWaits_maint : (itemWaits n i s).maint = (armSchedule s).maint := by
  rw [itemWaits, (vtRefresh_changes (Q := [.sched]) rfl (.refl _ _)) .maint rfl]
  unfold armSchedule
  split <;> rfl

theorem itemWaits_claimed (m : Nat) : claimed (itemWaits n i s) m = claimed s m := by
  rw [← armSchedule_claimed s m]
  unfold claimed
  rw [itemWaits_maint]

theorem itemWaits_waiting : Tab.getD (itemWaits n i s).sched.waiting (n * 64 + i.ctx.toNat) []
    = Tab.getD s.sched.waiting (n * 64 + i.ctx.toNat) [] ++ [i] := by
  rw [itemWaits, (vtRefresh_sameSlots ..).waiting, (armSchedule_changes (Q := [.maint]) rfl (.refl _ _)) .sched rfl]
  simp only [Tab.getD_upd_same]

theorem itemWaits_pastEnd (c : Nat) : (ctxOf (itemWaits n i s) c).pastEnd = (ctxOf s c).pastEnd := by
  rw [itemWaits, vtRefresh_pastEnd]
  unfold ctxOf
  rw [(armSchedule_changes (Q := [.maint]) rfl (.refl _ _)) .sched rfl]

end

theorem execWorkItemPost_posts {cl : ClusterId} {i : WorkItem} {s : State} (hf : formeServes s = true)
    (hx : hasProgram (cluster s cl.toNat) = true) (hr : partOfRegion s (cl.toNat / 16) = some i.part.toNat)
    (hc : partOfCtx s i.ctx.toNat = some i.part.toNat) (hl : i.bytes.length = 64) (hb : batchOk s i = true) :
    execWorkItemPost cl i s = .next (rebind cl.toNat false (postWaiting cl.toNat (itemWaits cl.toNat i s))) := by
  unfold execWorkItemPost
  dsimp only
  rw [if_pos (by simp [hf, hx, hr, hc, hl, hb])]
  rfl

/-- A cluster that waits at WAITWQ with an empty ring takes the first item posted for its context. -/
theorem posted_took {n : Nat} {i : WorkItem} {s : State} (h : AtWaitwq s n) (hc : (cluster s n).ctx = some i.ctx.toNat)
    (hp : (ctxOf s i.ctx.toNat).pastEnd = false) (he : (cluster s n).wqProd = (cluster s n).wqCons)
    (hw : Tab.getD s.sched.waiting (n * 64 + i.ctx.toNat) [] = []) :
    Took i (cluster s n) (cluster (rebind n false (postWaiting n (itemWaits n i s))) n) := by
  have hx := itemWaits_cluster n i s n
  have hw' := (itemWaits_waiting n i s).trans (by rw [hw, List.nil_append])
  rw [postWaiting_one (hx ▸ hc) (hx ▸ h.moving) ((itemWaits_pastEnd ..).trans hp) (hx ▸ he) hw']
  generalize hv : ({ itemWaits n i s with sched := _ } : State) = v
  have hvx : cluster v n = cluster s n := hv ▸ hx
  have hvk : claimed v n = claimed s n := hv ▸ itemWaits_claimed n i s n
  have ht := takeItem_push_took (i := i) (h.congr hvx hvk) (hvx ▸ he)
  exact (hvx ▸ ht).bound (rebind_bound ..)

/-! ### The elapsed channel wait (03 WAITCH) -/

/-- A cluster whose channel wait has elapsed: its register reads 0 and it waits for nothing. -/
def timedOut (a : BitVec 4) (x : Cluster) : Cluster := { setAreg a.toNat 0 x with wait := .none, state := 2 }

theorem waitTimeout_elapsed {n count t0 ch : Nat} {a : BitVec 4} {cr : Bool} {s : State}
    (h : (cluster s n).wait = .channel a ch count cr (some t0)) (ht : t0 ≤ s.tb) : waitTimeout n s = clusterUpd n (timedOut a) s := by
  unfold waitTimeout
  rw [h]
  exact if_pos (decide_eq_true ht)

theorem execWaitchTimeout_elapsed {cl : ClusterId} {count t0 ch : Nat} {a : BitVec 4} {cr : Bool} {s : State}
    (hm : (cluster s cl.toNat).moving = none) (h : (cluster s cl.toNat).wait = .channel a ch count cr (some t0)) (ht : t0 ≤ s.tb) :
    ∃ t, execWaitchTimeout cl s = .next t ∧ Bound (timedOut a (cluster s cl.toNat)) (cluster t cl.toNat)
      ∧ ∀ m, m ≠ cl.toNat → cluster t m = cluster s m := by
  refine ⟨rebind cl.toNat false (vtRefresh false (clusterUpd cl.toNat (timedOut a) s)), ?_, ?_, fun m hn => ?_⟩
  · unfold execWaitchTimeout
    rw [if_pos (Option.isNone_iff_eq_none.2 hm), waitTimeout_elapsed h ht]
  · have hx := rebind_bound cl.toNat false (vtRefresh false (clusterUpd cl.toNat (timedOut a) s))
    rwa [vtRefresh_cluster, cluster_clusterUpd_same] at hx
  · rw [rebind_other _ _ _ _ hn, vtRefresh_cluster, cluster_clusterUpd_other _ _ _ _ hn]

end Sys2Proof.Machine
end

section
/-!
The release of barriers (01 R25, R26; 13 R349) and the re-arm of a broken channel with its queue pair (03 R87; 11 R294, R320).
-/

namespace Sys2Proof.Machine

/-! ### The release of a barrier -/

/-- One arrived cluster goes on, and its binding is looked at again. -/
def releaseStep (c : Nat) (s : State) (n : Nat) : State := rebind n false (releaseOne c s n)

theorem releaseOne_other {c n m : Nat} (s : State) (h : m ≠ n) : cluster (releaseOne c s n) m = cluster s m := by
  unfold releaseOne
  dsimp only
  split
  · split
    · exact cluster_clusterUpd_other _ _ _ _ h
    · rfl
  · rfl

theorem releaseOne_sameBarriers (c n : Nat) (s : State) : SameBarriers s (releaseOne c s n) := by
  unfold releaseOne
  dsimp only
  split
  · split <;> exact ⟨rfl, rfl⟩
  · exact ⟨rfl, rfl⟩

theorem releaseOne_waits {c n : Nat} {s : State} (hc : (cluster s n).ctx = some c) (hw : ∃ b sc, (cluster s n).wait = .barrier b sc) :
    (cluster (releaseOne c s n) n).wait = .none := by
  obtain ⟨b, sc, hw⟩ := hw
  unfold releaseOne
  simp only [hc, hw, if_true, cluster_clusterUpd_same]

theorem releaseOne_free {c n : Nat} {s : State} (hw : (cluster s n).wait = .none) : (cluster (releaseOne c s n) n).wait = .none := by
  unfold releaseOne
  dsimp only
  split
  · next hb => exact absurd (hw.symm.trans hb) nofun
  · exact hw

theorem releaseStep_other {c n m : Nat} (s : State) (h : m ≠ n) : cluster (releaseStep c s n) m = cluster s m :=
  (rebind_other _ _ _ _ h).trans (releaseOne_other s h)

theorem releaseStep_wait (c n : Nat) (s : State) : (cluster (releaseStep c s n) n).wait = (cluster (releaseOne c s n) n).wait :=
  (rebind_bound ..).wait

theorem releaseSteps_sameBarriers (c : Nat) (l : List Nat) (s : State) : SameBarriers s (l.foldl (releaseStep c) s) := by
  refine List.foldlRecOn _ _ (motive := SameBarriers s) ⟨rfl, rfl⟩ (fun u ⟨ha, hd⟩ n _ => ?_)
  obtain ⟨ra, rd⟩ := releaseOne_sameBarriers c n u
  obtain ⟨ba, bd⟩ := (rebind_sameSlots n false (releaseOne c u n)).sameBarriers
  exact ⟨(ba.trans ra).trans ha, (bd.trans rd).trans hd⟩

theorem releaseSteps_other {c m : Nat} {l : List Nat} (s : State) (h : m ∉ l) : cluster (l.foldl (releaseStep c) s) m = cluster s m :=
  List.foldlRecOn _ _ (motive := fun u : State => cluster u m = cluster s m) rfl
    (fun u hu _ hn => (releaseStep_other u (ne_of_mem_of_not_mem hn h).symm).trans hu)

theorem releaseSteps_free {c m : Nat} (l : List Nat) {s : State} (h : (cluster s m).wait = .none) :
    (cluster (l.foldl (releaseStep c) s) m).wait = .none := by
  refine List.foldlRecOn _ _ (motive := fun u : State => (cluster u m).wait = .none) h (fun u hu n _ => ?_)
  by_cases e : m = n
  · subst e
    rw [releaseStep_wait]
    exact releaseOne_free hu
  · rw [releaseStep_other u e]
    exact hu

/-- A listed cluster that waits at a barrier in its own context waits no more. -/
theorem releaseSteps_waits {c m : Nat} {l : List Nat} {s : State} (hm : m ∈ l) (hc : (cluster s m).ctx = some c)
    (hw : ∃ b sc, (cluster s m).wait = .barrier b sc) : (cluster (l.foldl (releaseStep c) s) m).wait = .none := by
  induction l generalizing s with
  | nil => simp at hm
  | cons n rest ih =>
    rw [List.foldl_cons]
    by_cases e : m = n
    · subst e
      exact releaseSteps_free rest ((releaseStep_wait ..).trans (releaseOne_waits hc hw))
    · have hx := releaseStep_other (c := c) s e
      exact ih ((List.mem_cons.1 hm).resolve_left e) (hx ▸ hc) (hx ▸ hw)

/-- The arrivals under a barrier key after the clusters `ns` have been released. -/
def leftArrivals (key : Nat) (ns : List Nat) (t : Tab (List Nat)) : Tab (List Nat) :=
  let stay := (Tab.getD t key []).filter (fun m => !ns.contains m)
  if stay.isEmpty then Tab.del t key else Tab.put t key stay

theorem leftArrivals_find (key : Nat) (ns : List Nat) (t : Tab (List Nat)) :
    Tab.getD (leftArrivals key ns t) key [] = (Tab.getD t key []).filter (fun m => !ns.contains m) := by
  unfold leftArrivals
  dsimp only
  split
  · next h => rw [List.isEmpty_iff.1 h, Tab.getD, Tab.find_del_same]; rfl
  · exact Tab.getD_put_same ..

section
variable {c scope id : Nat} {ns : List Nat} {s : State}

theorem releaseBarrier_eq : releaseBarrier c scope id ns s
    = ((Tab.getD s.sched.arrivals (barrierKey c scope id) []).filter (fun m => ns.contains m)).foldl (releaseStep c)
        { s with sched := { s.sched with arrivals := leftArrivals (barrierKey c scope id) ns s.sched.arrivals } } := by
  unfold releaseBarrier
  simp only [List.partition_eq_filter_filter]
  rfl

theorem releaseBarrier_arrivals : Tab.getD (releaseBarrier c scope id ns s).sched.arrivals (barrierKey c scope id) []
    = (Tab.getD s.sched.arrivals (barrierKey c scope id) []).filter (fun m => !ns.contains m) := by
  rw [releaseBarrier_eq, (releaseSteps_sameBarriers ..).1]
  exact leftArrivals_find ..

theorem releaseBarrier_dieRegions : (releaseBarrier c scope id ns s).sched.dieRegions = s.sched.dieRegions := by
  rw [releaseBarrier_eq, (releaseSteps_sameBarriers ..).2]

theorem releaseBarrier_waits {m : Nat} (hm : m ∈ ns) (ha : m ∈ Tab.getD s.sched.arrivals (barrierKey c scope id) [])
    (hc : (cluster s m).ctx = some c) (hw : ∃ b sc, (cluster s m).wait = .barrier b sc) :
    (cluster (releaseBarrier c scope id ns s) m).wait = .none := by
  rw [releaseBarrier_eq]
  exact releaseSteps_waits (List.mem_filter.2 ⟨ha, List.contains_iff_mem.2 hm⟩) hc hw

theorem releaseBarrier_other {m : Nat} (h : m ∉ ns) : cluster (releaseBarrier c scope id ns s) m = cluster s m := by
  rw [releaseBarrier_eq]
  exact releaseSteps_other _ (fun hm => h (List.contains_iff_mem.1 (List.mem_filter.1 hm).2))

end

/-! ### Region and die barriers (01 R25, R26) -/

theorem regionArrived_iff {s : State} {r c scope id : Nat} : regionArrived s r c scope id = true ↔
    participants s r ≠ [] ∧ ∀ m ∈ participants s r, m ∈ Tab.getD s.sched.arrivals (barrierKey c scope id) [] := by
  simp [regionArrived]

theorem regionRelease_region {s : State} {r c id : Nat} (h : regionArrived s r c 0 id = true) :
    regionRelease r c id s = releaseBarrier c 0 id (participants s r) s := if_pos h

/-- The regions of a die barrier with region `r` entered. -/
def entered (r key : Nat) (t : Tab (List Nat)) : Tab (List Nat) := Tab.upd t key [] (fun l => if l.contains r then l else l ++ [r])

theorem mem_entered (r key : Nat) (t : Tab (List Nat)) : r ∈ Tab.getD (entered r key t) key [] := by
  rw [entered, Tab.getD_upd_same]
  split
  · exact List.contains_iff_mem.1 ‹_›
  · simp

theorem regionRelease_die {s : State} {r c id : Nat} (h0 : ¬ regionArrived s r c 0 id = true) (h1 : regionArrived s r c 1 id = true) :
    regionRelease r c id s = { s with sched := { s.sched with dieRegions := entered r (c * 256 + id) s.sched.dieRegions } } :=
  (if_neg h0).trans (if_pos h1)

theorem execDieBarrierRelease_releases {p : PartId} {ctx : FnId} {id : Byte} {s : State} (hr : regionsOf s p.toNat ≠ [])
    (h : ∀ g ∈ regionsOf s p.toNat, g ∈ Tab.getD s.sched.dieRegions (ctx.toNat * 256 + id.toNat) []) :
    execDieBarrierRelease p ctx id s = .next (releaseBarrier ctx.toNat 1 id.toNat ((regionsOf s p.toNat).map (participants s)).flatten
      { s with sched := { s.sched with dieRegions := Tab.del s.sched.dieRegions (ctx.toNat * 256 + id.toNat) } }) := by
  unfold execDieBarrierRelease
  dsimp only
  rw [if_pos (by simpa [List.isEmpty_iff, hr] using h)]
  rfl

/-! ### The re-arm of a channel (03 R87; 11 R320) -/

theorem rearmChan_channel (n ch : Nat) (s : State) : channel (rearmChan n ch s) n ch = (channel s n ch).map (fun k => freshChan k.entry) := by
  unfold rearmChan channelUpd channel
  rw [cluster_clusterUpd_same]
  dsimp only
  rw [Tab.find_mod_same]
  rfl

theorem rearmChan_other {n m : Nat} (ch : Nat) (s : State) (h : m ≠ n) : cluster (rearmChan n ch s) m = cluster s m :=
  cluster_clusterUpd_other _ _ _ _ h

theorem rearmPeer_only (p : ChanPeer) (s : State) : OnlyChanges [.rma] s (rearmPeer p s) := rearmPeer_changes rfl (.refl _ s)

theorem rearmPeer_cluster (p : ChanPeer) (s : State) (n : Nat) : cluster (rearmPeer p s) n = cluster s n :=
  cluster_congr (rearmPeer_only p s .clusters rfl) n

theorem qpOf_qpRearm_other {n j : Nat} (s : State) (h : j ≠ n) : qpOf (qpRearm n s) j = qpOf s j := by
  unfold qpRearm qpUpd qpOf
  dsimp only
  exact Tab.find_mod_other _ _ _ _ h

section
variable {n m : QpNum} {d : DevId} {c : BitVec 5} {s : State}

theorem rearmPeer_ready {y : Qp} (h : qpOf s n.toNat = some y) (hr : y.ready = true) : rearmPeer (.pod n d m c) s = s :=
  if_neg (by simp [h, hr])

theorem rearmPeer_error {y : Qp} (h : qpOf s n.toNat = some y) (hr : y.ready = false) : rearmPeer (.pod n d m c) s = qpRearm n.toNat s :=
  if_pos (by simp [h, hr])

theorem rearmPeer_otherQp {j : Nat} (h : j ≠ n.toNat) : qpOf (rearmPeer (.pod n d m c) s) j = qpOf s j := by
  unfold rearmPeer
  dsimp only
  split
  · exact qpOf_qpRearm_other s h
  · rfl

end

theorem rearmPeer_noPod {p : ChanPeer} {s : State} (h : ∀ n d m c, p = .pod n d m c → False) : rearmPeer p s = s := by
  cases p with
  | pod n d m c => exact (h n d m c rfl).elim
  | _ => rfl

theorem qpRearm_ready {n : Nat} {y : Qp} {s : State} (h : qpOf s n = some y) :
    ∃ z : Qp, qpOf (qpRearm n s) n = some z ∧ z.ready = true ∧ z.wrs = [] := by
  rw [qpRearm, qpOf_qpUpd_same, h]
  exact ⟨_, rfl, rfl, rfl⟩

theorem execChannelRearm_rearms {cl : ClusterId} {ch : BitVec 5} {k : Chan} {s : State} (hk : channel s cl.toNat ch.toNat = some k)
    (hb : k.broken.isSome = true) (hi : (cluster s cl.toNat).item = none) :
    execChannelRearm cl ch s = .next (rearmPeer k.entry.peer (rearmChan cl.toNat ch.toNat s)) := by
  unfold execChannelRearm
  simp only [hk, hb, hi, Option.isNone_none, Bool.and_self, if_true]

/-! ### The commands of firmware on work items, waits, barriers and channels -/

/-- Settles O37. The clauses are, in order: an item that firmware posts; a channel wait whose time is up; a barrier of a region, of scope
0 and of scope 1; the barrier of the die; and the re-arm of a channel. -/
theorem workItemAndBarrierCommands : Obligations.WorkItemAndBarrierCommands := by
  unfold Obligations.WorkItemAndBarrierCommands
  intro cl i ch a c0 count t0 cr k r p ctx id s n x own others key released
  have hreleased (scope : Nat) (ps : List Nat) (u : State) (ha : u.sched.arrivals = s.sched.arrivals) (hc : u.clusters = s.clusters) :
      released (releaseBarrier ctx.toNat scope id.toNat ps u) scope ps := by
    have hx := cluster_congr hc
    refine ⟨?_, fun m hm hin hctx hw => ?_, fun m hm => (releaseBarrier_other hm).trans (hx m)⟩
    · rw [← ha]
      exact releaseBarrier_arrivals
    · exact releaseBarrier_waits hm (ha ▸ hin) (hx m ▸ hctx) (hx m ▸ hw)
  refine ⟨fun hf hp hr hc hl hb h3 => ?_, fun hm hw ht => ?_, fun hne h0 => ?_, fun hne h0 h1 => ?_, fun hne hall => ?_, fun hk hb hi => ?_⟩
  · have he := execWorkItemPost_posts hf hp hr hc hl hb
    refine ⟨_, he, execWorkItemPost_changes rfl (.refl _ s) he,
      fun m hm => ((rebind_other _ _ _ _ hm).trans (postWaiting_other _ hm)).trans (itemWaits_cluster ..), ?_, fun hx => ?_,
      fun hx hm hp hw hq hk _ hi hw' => ?_⟩
    · rw [(rebind_changes (Q := [.clusters, .sched, .req]) rfl (.refl _ _)) .maint rfl]
      exact postWaiting_armed (itemWaits_maint n i s ▸ armSchedule_armed h3)
    · rw [(rebind_sameSlots ..).waiting]
      refine (postWaiting_waiting fun c hc => ?_).trans (itemWaits_waiting n i s)
      rw [itemWaits_cluster] at hc
      have : c ≠ i.ctx.toNat := fun e => hx (e ▸ hc)
      omega
    · obtain ⟨hitem, hindex, hwait, hmail, hslot⟩ := posted_took ⟨hw, hq, hk, hm, Option.isSome_of_eq_some hx⟩ hx hp hi hw'
      exact ⟨hitem, hindex, hwait, fun h => hmail.trans (postedMail_plain h), fun _ h lo hi => hmail.trans (postedMail_one h lo hi), hslot⟩
  · obtain ⟨t, he, hx, hm'⟩ := execWaitchTimeout_elapsed hm hw ht
    exact ⟨t, he, execWaitchTimeout_changes rfl (.refl _ s) he, hm', hx.wait, hx.aregs, hx.pc, hx.item⟩
  · have he : exec (.regionBarrierRelease r ctx id) s = .next _ :=
      congrArg Host.Outcome.next (regionRelease_region (regionArrived_iff.2 ⟨hne, h0⟩))
    exact ⟨_, he, execRegionBarrierRelease_changes rfl (.refl _ s) he, hreleased _ _ s rfl rfl⟩
  · obtain ⟨m, hm, hn⟩ := h0
    have he := regionRelease_die (fun h => hn ((regionArrived_iff.1 h).2 m hm)) (regionArrived_iff.2 ⟨hne, h1⟩)
    refine ⟨_, congrArg Host.Outcome.next he, ?_, rfl, mem_entered ..⟩
    exact fun b hb => by
      cases b with
      | sched => simp at hb
      | _ => rfl
  · have he := execDieBarrierRelease_releases hne hall
    refine ⟨_, he, execDieBarrierRelease_changes rfl (.refl _ s) he, ?_, hreleased _ _ _ rfl rfl⟩
    rw [releaseBarrier_dieRegions, Tab.getD, Tab.find_del_same]
    rfl
  · have he := execChannelRearm_rearms hk hb hi
    refine ⟨_, he, execChannelRearm_changes rfl (.refl _ s) he,
      fun m hm => (rearmPeer_cluster ..).trans (rearmChan_other _ s hm), ?_, ?_, rearmPeer_only _ _ .near rfl⟩
    · split
      · next nq _ _ _ hpeer =>
        rw [hpeer]
        refine ⟨fun y hy => ⟨fun hr => ?_, fun hr => ?_⟩, fun j hj => rearmPeer_otherQp hj⟩
        · rw [rearmPeer_ready (s := rearmChan n ch.toNat s) hy hr]
          rfl
        · rw [rearmPeer_error (s := rearmChan n ch.toNat s) hy hr]
          exact qpRearm_ready hy
      · next hpeer =>
        rw [rearmPeer_noPod hpeer]
        rfl
    · unfold channel
      rw [rearmPeer_cluster]
      refine (rearmChan_channel ..).trans ?_
      rw [hk]
      rfl

end Sys2Proof.Machine
end

section
/-!
The FORME commands while none runs (02 R56 to R65): what starts one, and what the end of one answers.
-/

namespace Sys2Proof.Machine

/-! ### Tables changed entry by entry, and frames -/

theorem Tab.find_map {V : Type} {g : Nat × V → Nat × V} (hg : ∀ e, (g e).1 = e.1) (t : Tab V) (k : Nat) :
    Tab.find (t.map g) k = (Tab.find t k).map (fun v => (g (k, v)).2) := by
  induction t with
  | nil => rfl
  | cons e rest ih =>
    obtain ⟨a, v⟩ := e
    rw [List.map_cons, Tab.find, Tab.find, ih, hg]
    by_cases h : a = k
    · subst h
      simp only [if_true, Option.map_some]
    · simp only [h, if_false]

/-- Where the change keeps the value `d` that an absent entry stands for, it is the change of what each entry reads as. -/
theorem Tab.getD_map {V : Type} {g : Nat × V → Nat × V} (hg : ∀ e, (g e).1 = e.1) (t : Tab V) {k : Nat} {d : V} (hd : (g (k, d)).2 = d) :
    Tab.getD (t.map g) k d = (g (k, Tab.getD t k d)).2 := by
  rw [Tab.getD, Tab.getD, Tab.find_map hg]
  cases Tab.find t k with
  | none => exact hd.symm
  | some v => rfl

/-- A block that is the same leaves the frame. -/
theorem OnlyChanges.without {b : Block} {ps : List Block} {s t : State} (h : OnlyChanges (b :: ps) s t) (hb : b.same s t) :
    OnlyChanges ps s t := fun p hp => by
  by_cases e : p = b
  · exact e ▸ hb
  · exact h p (by rw [List.contains_cons, hp, beq_eq_false_iff_ne.2 e]; rfl)

/-- A command whose outcome a condition decides. -/
theorem next_ite {o : Out} {q : Prop} [Decidable q] {A B : State → Prop} (hp : q → ∃ t, o = .next t ∧ A t)
    (hn : ¬ q → ∃ t, o = .next t ∧ B t) : ∃ t, o = .next t ∧ if q then A t else B t := by
  by_cases h : q
  · simpa only [h, if_true] using hp h
  · simpa only [h, if_false] using hn h

/-! ### The end of a FORME command (02 R56; 16 R430) -/

@[simp] theorem formeEnd_forme (c : Status) (stage sect : Nat) (s : State) : (formeEnd c stage sect s).forme = { s.forme with
    code := codeOf c, stage := BitVec.ofNat 4 stage, failSect := BitVec.ofNat 32 sect, running := none } := by
  unfold formeEnd
  dsimp only
  rw [msix_forme]
  split
  · rw [noteErr_forme]
  · rfl

@[simp] theorem formeEnd_clusters (c : Status) (stage sect : Nat) (s : State) : (formeEnd c stage sect s).clusters = s.clusters :=
  formeEnd_changes (Q := [.dev, .forme, .out]) rfl (.refl _ s) .clusters rfl

theorem formeEnd_out {c : Status} {stage sect : Nat} {s : State} (hl : s.host.linkUp = true) (hf : fenced s = false) :
    (formeEnd c stage sect s).out = s.out ++ [.msix 0 0] := by
  have raised (u : State) (hh : u.host = s.host) (hp : u.pair = s.pair) (ho : u.out = s.out) : (msix 0 0 u).out = s.out ++ [.msix 0 0] := by
    have hu : fenced u = false := by rw [fenced, hp]; exact hf
    simp [msix, hh, hl, hu, emit, ho]
  unfold formeEnd
  dsimp only
  split
  · exact raised _ (noteErr_host ..) (noteErr_pair ..) (noteErr_out ..)
  · exact raised _ rfl rfl rfl

/-- OK is no error: no error source is captured. -/
theorem formeEnd_ok_dev (stage sect : Nat) (s : State) : (formeEnd .ok stage sect s).dev = s.dev := by
  unfold formeEnd
  exact msix_dev ..

/-- A command that has ended at once with `c`: nothing but CODE, STAGE and its error source has changed, and the vector is raised. -/
def FormeAnswered (c : Status) (stage : BitVec 4) (s t : State) : Prop := OnlyChanges [.dev, .forme, .out] s t
  ∧ t.forme = { s.forme with code := codeOf c, stage := stage, failSect := 0xFFFF, running := none }
  ∧ (s.host.linkUp = true → fenced s = false → t.out = s.out ++ [.msix 0 0])

theorem formeEnd_answered (c : Status) (stage : Nat) (s : State) : FormeAnswered c (BitVec.ofNat 4 stage) s (formeEnd c stage noSect s) :=
  ⟨formeEnd_changes rfl (.refl _ s), formeEnd_forme .., formeEnd_out⟩

theorem formeAnswer_answered (c : Status) (s : State) : FormeAnswered c 0 s (formeAnswer c s) := formeEnd_answered c 0 s

/-- A command has ended: CODE, STAGE and the failed section are these, and none runs. -/
def FormeEnds (c : Status) (stage sect : Nat) (t : State) : Prop := t.forme.code = codeOf c ∧ t.forme.stage = BitVec.ofNat 4 stage
  ∧ t.forme.failSect = BitVec.ofNat 32 sect ∧ t.forme.running = none

theorem formeEnd_ends (c : Status) (stage sect : Nat) (s : State) : FormeEnds c stage sect (formeEnd c stage sect s) := by
  rw [FormeEnds, formeEnd_forme]
  exact ⟨rfl, rfl, rfl, rfl⟩

/-- A command that has ended without a change of the configuration and what goes with it; STATE is `st`. -/
def FormeFailed (c : Status) (stage sect : Nat) (st : BitVec 4) (s t : State) : Prop := OnlyChanges [.dev, .forme, .out] s t
  ∧ FormeEnds c stage sect t ∧ t.forme.state = st ∧ t.forme.committed = s.forme.committed ∧ t.forme.digest = s.forme.digest ∧ t.forme.gen = s.forme.gen
  ∧ t.forme.resident = s.forme.resident

theorem formeEnd_failedTo (c : Status) (stage sect : Nat) (st : BitVec 4) (s : State) :
    FormeFailed c stage sect st s (formeEnd c stage sect { s with forme := { s.forme with state := st } }) := by
  refine ⟨formeEnd_changes rfl fun b hb => ?_, formeEnd_ends .., ?_⟩
  · cases b with
    | forme => simp at hb
    | _ => rfl
  · rw [formeEnd_forme]
    exact ⟨rfl, rfl, rfl, rfl, rfl⟩

theorem formeEnd_failed (c : Status) (stage sect : Nat) (s : State) :
    FormeFailed c stage sect s.forme.state s (formeEnd c stage sect s) := formeEnd_failedTo c stage sect s.forme.state s

/-! ### What each command starts (17 R442; 02 R56, R61, R63, R65) -/

/-- A FORME command bit alone, while no FORME command runs, has its effect. -/
theorem formeCtl_runs {w : CtlWrite} {n : Nat} {run : State → State} {s t : State} (hc : Commands w false [0, 1, 2, 3, 4, 5] n s)
    (hr : s.forme.running = none) (ht : run s = t) : (Host.Outcome.next (formeCtl w n run s) : Out) = .next t :=
  congrArg _ ((ctl_runs hc.1 hc.2 (by rw [hr]; rfl)).trans ht)

theorem formeHeld_iff {s : State} : formeHeld s = true ↔ 2 ≤ s.forme.state.toNat ∧ s.forme.state.toNat ≤ 5 := by
  simp only [formeHeld, Bool.and_eq_true, decide_eq_true_eq]

theorem recordsIdle_iff {s : State} : recordsIdle s = true ↔ ∀ e ∈ s.req.recs, e.2.state = 0 ∨ e.2.state = 8 := by
  simp only [recordsIdle, List.all_eq_true, Bool.or_eq_true, beq_iff_eq]

theorem drainedNow_iff {s : State} : drainedNow s = true ↔ s.forme.state = 4 ∧ s.forme.drainDone = true := by
  simp only [drainedNow, Bool.and_eq_true, beq_iff_eq]

theorem pairFollow_forme (s : State) : (pairFollow s).forme = s.forme := rfl

theorem pairFollow_sec (s : State) : (pairFollow s).sec = s.sec := rfl

/-- A forme that does not serve has no pair (09 R240). -/
theorem pairFollow_unserving {s : State} (h : formeServes s = false) : (pairFollow s).pair = { s.pair with state := 0 } := by
  simp only [pairFollow, h, Bool.false_and, Bool.false_eq_true, if_false]

theorem unloadStart_starts (s : State) : OnlyChanges [.sec, .forme, .tier, .pair] s (unloadStart s)
    ∧ (unloadStart s).forme = { s.forme with state := 6, running := some .unload }
    ∧ (unloadStart s).sec = { s.sec with dataKeys := false } ∧ (unloadStart s).pair = { s.pair with state := 0 } := by
  have hw : OnlyChanges [.tier] s (writeBack (List.range 8) s) := writeBack_changes rfl (.refl _ s)
  refine ⟨unloadStart_changes rfl (.refl _ s), ?_, ?_, ?_⟩ <;> unfold unloadStart
  · rw [pairFollow_forme, show (writeBack (List.range 8) s).forme = s.forme from hw .forme rfl]
  · rw [pairFollow_sec, hw.sec_eq rfl rfl]
  · rw [pairFollow_unserving rfl, show (writeBack (List.range 8) s).pair = s.pair from hw .pair rfl]

theorem drainStart_starts (s : State) : OnlyChanges [.forme, .tier, .req] s (drainStart s)
    ∧ (drainStart s).forme = { s.forme with
        running := some .drain, runLen := s.forme.len.toNat, state := 4, drained := s.forme.regionMask, drainDone := false } :=
  ⟨drainStart_changes rfl (.refl _ s), drainShelve_changes (Q := [.tier, .req]) rfl (.refl _ _) .forme rfl⟩

/-- Settles O41. The clauses are, in order: LOAD, PLATE, UNLOAD, DRAIN, REPLACE and RESUME. -/
theorem formeControlCommands : Obligations.FormeControlCommands := by
  unfold Obligations.FormeControlCommands
  intro w s hr f answers runs held
  refine ⟨fun hc => next_ite (fun h => ?_) (fun h => ?_), fun hc => next_ite (fun h => ?_) (fun h => ?_),
    fun hc => next_ite (fun h => ?_) (fun h => ?_), fun hc => next_ite (fun h => ?_) (fun h => next_ite (fun hw => ?_) (fun hw => ?_)),
    fun hc => next_ite (fun h => ?_) (fun h => ?_), fun hc => next_ite (fun h => ?_) (fun h => ?_)⟩
  · exact ⟨_, formeCtl_runs hc hr (if_pos h), rfl⟩
  · exact ⟨_, formeCtl_runs hc hr (if_neg h), formeEnd_answered .denied 1 s⟩
  · exact ⟨_, formeCtl_runs hc hr (if_pos (formeHeld_iff.2 h)), rfl⟩
  · exact ⟨_, formeCtl_runs hc hr (if_neg (mt formeHeld_iff.1 h)), formeAnswer_answered .denied s⟩
  · have hi : (formeHeld s && recordsIdle s) = true := Bool.and_eq_true_iff.2 ⟨formeHeld_iff.2 h.1, recordsIdle_iff.2 h.2⟩
    exact ⟨_, formeCtl_runs hc hr (if_pos hi), unloadStart_starts s⟩
  · have hi : ¬ (formeHeld s && recordsIdle s) = true := fun hi =>
      have ⟨hh, hn⟩ := Bool.and_eq_true_iff.1 hi
      h ⟨formeHeld_iff.1 hh, recordsIdle_iff.1 hn⟩
    exact ⟨_, formeCtl_runs hc hr (if_neg hi), formeAnswer_answered .denied s⟩
  · exact ⟨_, formeCtl_runs hc hr (if_pos h), formeAnswer_answered .denied s⟩
  · exact ⟨_, formeCtl_runs hc hr ((if_neg h).trans (if_pos hw)), drainStart_starts s⟩
  · exact ⟨_, formeCtl_runs hc hr ((if_neg h).trans (if_neg hw)), formeAnswer_answered .malformed s⟩
  · obtain ⟨h4, hd, hg⟩ := h
    have hi : (drainedNow s && s.forme.gen != 255) = true := Bool.and_eq_true_iff.2 ⟨drainedNow_iff.2 ⟨h4, hd⟩, bne_iff_ne.2 hg⟩
    exact ⟨_, formeCtl_runs hc hr (if_pos hi), rfl⟩
  · have hi : ¬ (drainedNow s && s.forme.gen != 255) = true := fun hi =>
      have ⟨hd, hg⟩ := Bool.and_eq_true_iff.1 hi
      h ⟨(drainedNow_iff.1 hd).1, (drainedNow_iff.1 hd).2, bne_iff_ne.1 hg⟩
    exact ⟨_, formeCtl_runs hc hr (if_neg hi), formeAnswer_answered .denied s⟩
  · refine ⟨_, formeCtl_runs hc hr (if_pos (drainedNow_iff.2 h)), ?_, ?_, ?_⟩
    · exact formeAnswer_changes rfl (formeReopen_changes rfl (.refl _ s))
    · exact formeEnd_ok_dev ..
    · rw [formeAnswer, formeEnd_forme]
      exact ⟨rfl, rfl, rfl, rfl, rfl, rfl, rfl, rfl, rfl, rfl⟩
  · exact ⟨_, formeCtl_runs hc hr (if_neg (mt drainedNow_iff.1 h)), formeAnswer_answered .denied s⟩

end Sys2Proof.Machine
end

section
/-!
The completions of the FORME commands (02 R57 to R65): what a commit and a replacement put in force, and what an unload and a drain clear.
-/

namespace Sys2Proof.Machine

/-! ### Plates that move STATE on (02 R58, R59, R65) -/

/-- STATE once the resident plates have been looked at: PLATES gives ACTIVE, and REPLACING gives DRAINING, where all are there. -/
def platesMoved (complete : Bool) (st : BitVec 4) : BitVec 4 := if complete then (if st = 2 then 3 else if st = 5 then 4 else st) else st

theorem platesMove_forme (s : State) :
    (platesMove s).forme = { s.forme with state := platesMoved (platesComplete s) s.forme.state } := by
  unfold platesMove platesMoved
  cases platesComplete s <;> rfl

theorem platesMoved_replacing (complete : Bool) : platesMoved complete 5 = 4 ∨ platesMoved complete 5 = 5 := by
  cases complete
  · exact .inr rfl
  · exact .inl rfl

/-- Without a resident plate the slot has all its plates exactly where it loads none. -/
theorem platesComplete_of_none {s : State} {c : Committed} (hc : s.forme.committed = some c) (hr : s.forme.resident = []) :
    platesComplete s = (slotPlates (mySlot s).toNat c).isEmpty := by
  rw [platesComplete, hc]
  cases h : slotPlates (mySlot s).toNat c <;> simp [h, hr]

/-- Telling the neighbours changes nothing of the forme. -/
theorem lstateSent_forme (t : State) : (if mayEmit t then sendLstate t else t).forme = t.forme := by
  split
  · exact sendLstate_changes (Q := [.links]) rfl (.refl _ t) .forme rfl
  · rfl

/-! ### The image of a LOAD (02 R57, R58) -/

theorem withRepro_changes {Q : List Block} {s0 s : State} {x : Repro} (hq : Q.contains .repro = true) (hk : OnlyChanges Q s0 s) :
    OnlyChanges Q s0 { s with repro := x } := hk.trans fun b hb => by
  cases b with
  | repro => rw [hq] at hb; cases hb
  | _ => rfl

/-- A full load on its way: all but the plates' effect on STATE and the report to the neighbours. -/
def loadedState (c : Committed) (img : FormeImage) (s : State) : State :=
  let u := commitClusters c (initialMaps c (commitConfig c img s))
  let d := draw (bumpFree u)
  let m := commitMemory c u.free d.1 d.2
  let ps := c.parts.map (fun e => e.1)
  channelQps (loadContexts c (loadEntropy c ps (podBarriers c ps { m with repro := { m.repro with pods := [] } })))

theorem formeCommit_eq (c : Committed) (img : FormeImage) (s : State) : formeCommit c img s =
    (if mayEmit (platesMove (loadedState c img s)) then sendLstate (platesMove (loadedState c img s)) else platesMove (loadedState c img s)) :=
  rfl

theorem loadedState_only (c : Committed) (img : FormeImage) (s : State) :
    OnlyChanges [.maint, .sec, .drbg, .codec, .tier, .clusters, .sched, .repro, .rma, .free, .out] (commitConfig c img s)
      (loadedState c img s) := by
  refine channelQps_changes rfl (loadContexts_changes rfl (loadEntropy_changes rfl (podBarriers_changes rfl (withRepro_changes rfl ?_))))
  exact commitMemory_changes rfl (draw_changes rfl (bumpFree_changes rfl (commitClusters_changes rfl
    (initialMaps_changes rfl (.refl _ _)))))

/-- After a commit the configuration is the image's, and STATE is ACTIVE where this slot loads no plate and PLATES otherwise. -/
theorem formeCommit_forme (c : Committed) (img : FormeImage) (s : State) : (formeCommit c img s).forme =
    { (commitConfig c img s).forme with state := if (slotPlates (mySlot s).toNat c).isEmpty then 3 else 2 } := by
  have hf : (loadedState c img s).forme = (commitConfig c img s).forme := loadedState_only c img s .forme rfl
  have hd : (loadedState c img s).dev = s.dev := loadedState_only c img s .dev rfl
  have hp : platesComplete (loadedState c img s) = (slotPlates (mySlot s).toNat c).isEmpty := by
    rw [platesComplete_of_none (c := c) (congrArg Forme.committed hf) (congrArg Forme.resident hf), mySlot, hd, mySlot]
  rw [formeCommit_eq, lstateSent_forme, platesMove_forme, hp, hf]
  rfl

section
variable {s : State} {img : FormeImage} {r : ImageRead}

theorem imageRead_next {t : State} (h : formeImage r s = t) : exec (.formeImageReadDone r) s = .next t := congrArg Host.Outcome.next h

theorem formeImage_load (h : s.forme.running = some .load) : formeImage r s = loadRead r s := by rw [formeImage, h]

theorem formeImage_plate (h : s.forme.running = some .plate) : formeImage r s = plateRead r s := by rw [formeImage, h]

theorem formeImage_replace (h : s.forme.running = some .replace) : formeImage r s = replaceRead r s := by rw [formeImage, h]

theorem loadRead_fails {e : FormeFail} (h : fullLoad s img s.forme.runLen = .inl e) :
    FormeFailed e.code e.stage e.sect 0 s (loadRead (.forme img) s) := by
  unfold loadRead
  dsimp only
  rw [h]
  exact formeEnd_failedTo ..

theorem loadRead_commits {c : Committed} (h : fullLoad s img s.forme.runLen = .inr c) :
    loadRead (.forme img) s = formeEnd .ok 0 noSect (formeCommit c img s) := by
  unfold loadRead
  dsimp only
  rw [h]

end

/-! ### The image of a PLATE (02 R59) -/

/-- An entry that a plate satisfies becomes resident, and the content goes to its place. -/
def platePut (bs : List Byte) (s : State) (x : PlateRef) : State :=
  plateStore x bs { s with forme := { s.forme with resident := s.forme.resident ++ [x] } }

theorem platePuts_forme (bs : List Byte) (l : List PlateRef) (s : State) :
    (l.foldl (platePut bs) s).forme = { s.forme with resident := s.forme.resident ++ l } := by
  induction l generalizing s with
  | nil => rw [List.append_nil]; rfl
  | cons x rest ih =>
    have hx : (platePut bs s x).forme = { s.forme with resident := s.forme.resident ++ [x] } :=
      plateStore_changes (Q := [.tier]) rfl (.refl _ _) .forme rfl
    rw [List.foldl_cons, ih, hx, List.append_assoc]
    rfl

theorem plateRead_loads {s : State} {p : PlateImage} (h : plateCheck s p = .ok) : plateRead (.plate p) s =
    platesMove (formeEnd .ok 0 noSect ((plateEntries s p).foldl (platePut p.content) s)) := if_pos h

theorem plateRead_fails {s : State} {p : PlateImage} (h : plateCheck s p ≠ .ok) :
    FormeFailed (plateCheck s p) 0 noSect s.forme.state s (plateRead (.plate p) s) := by
  have he : plateRead (.plate p) s = formeEnd (plateCheck s p) 0 noSect s := if_neg h
  exact he ▸ formeEnd_failed ..

/-! ### The image of a REPLACE (02 R64, R65) -/

/-- Loading the replaced sections changes nothing of the FORME block. -/
theorem sectionsLoaded_forme (n : Committed) (rs ts ps : List Nat) (s : State) :
    (channelQps (podBarriers n ts (loadEntropy n ps (keepSections n (loadClusters n rs s))))).forme = s.forme :=
  channelQps_changes (Q := [.clusters, .tier, .codec, .repro, .rma, .out]) rfl (podBarriers_changes rfl (loadEntropy_changes rfl
    (keepSections_changes rfl (loadClusters_changes rfl (.refl _ s))))) .forme rfl

theorem replaceCommit_commits (old new : Committed) (img : FormeImage) (s : State) :
    let t := replaceCommit old new img s
    FormeEnds .ok 0 noSect t ∧ t.forme.gen = s.forme.gen + 1 ∧ t.forme.digest = nextDigest s.forme.digest img.digest
      ∧ t.forme.base = s.forme.base ∧ (t.forme.state = 4 ∨ t.forme.state = 5)
      ∧ t.forme.committed = some { new with numerics := old.numerics, attention := old.attention } := by
  refine ⟨formeEnd_ends .., ?_⟩
  unfold replaceCommit
  dsimp only
  rw [formeEnd_forme, lstateSent_forme, platesMove_forme, sectionsLoaded_forme]
  exact ⟨rfl, rfl, rfl, platesMoved_replacing _, rfl⟩

section
variable {s : State} {c : Committed} {img : FormeImage}

theorem replaceRead_fails {e : FormeFail} (hc : s.forme.committed = some c)
    (h : partialLoad s (staged s c) img s.forme.runLen = .inl e) :
    FormeFailed e.code e.stage e.sect s.forme.state s (replaceRead (.forme img) s) := by
  unfold replaceRead
  rw [hc]
  dsimp only
  rw [h]
  exact formeEnd_failed ..

theorem replaceRead_commits {n : Committed} (hc : s.forme.committed = some c)
    (h : partialLoad s (staged s c) img s.forme.runLen = .inr n) : replaceRead (.forme img) s = replaceCommit c n img s := by
  unfold replaceRead
  rw [hc]
  dsimp only
  rw [h]

end

/-! ### What an unload and a drain clear (02 R61, R63) -/

/-- A cluster whose case, accumulator, mailbox and work queue are clear. -/
def clearedCluster (x : Cluster) : Cluster := { x with case_ := [], caseWritten := [], caseKept := [], acc := [], mailbox := [], wqItems := [] }

/-- The entry of a cluster of the regions `rs` is cleared. -/
def clearedEntry (rs : List Nat) (e : Nat × Cluster) : Nat × Cluster := if rs.contains (e.1 / 16) then (e.1, clearedCluster e.2) else e

theorem clearedEntry_key (rs : List Nat) (e : Nat × Cluster) : (clearedEntry rs e).1 = e.1 := by
  unfold clearedEntry
  split <;> rfl

theorem clearedEntry_default (rs : List Nat) (k : Nat) : (clearedEntry rs (k, {})).2 = {} := by
  unfold clearedEntry
  split <;> rfl

theorem clearRegions_clusters (rs : List Nat) (top : Nat → Nat) (s : State) :
    (clearRegions rs top s).clusters = s.clusters.map (clearedEntry rs) := rfl

theorem cluster_clearRegions {rs : List Nat} {k : Nat} (top : Nat → Nat) (s : State) (h : k / 16 ∈ rs) :
    cluster (clearRegions rs top s) k = clearedCluster (cluster s k) := by
  rw [cluster, clearRegions_clusters, Tab.getD_map (clearedEntry_key rs) _ (clearedEntry_default rs k), clearedEntry,
    if_pos (List.contains_iff_mem.2 h), cluster]

theorem formeGone_clusters (s : State) : (formeGone s).clusters =
    (s.clusters.map (fun e => (e.1, idleCluster 0 e.2))).map (clearedEntry (List.range 8)) := rfl

/-- Once the forme is gone every cluster is without a program and OFF, a FAULTED one apart, with its memories clear. -/
theorem cluster_formeGone (s : State) (k : Nat) : cluster (formeGone s) k = idleCluster 0 (cluster s k) := by
  rw [cluster, formeGone_clusters, Tab.getD_map (clearedEntry_key _) _ (clearedEntry_default _ k),
    Tab.getD_map (g := fun e => (e.1, idleCluster 0 e.2)) (fun _ => rfl) s.clusters rfl, ← cluster, clearedEntry]
  split <;> rfl

theorem cluster_unloadDone (s : State) (k : Nat) : cluster (unloadDone s) k = idleCluster 0 (cluster s k) := cluster_formeGone ..

theorem unloadDone_recs (s : State) : (unloadDone s).req.recs = s.req.recs.filter (fun e => e.2.state != 8) := by
  have hg : (formeGone (silverClear s)).req = (silverClear s).req :=
    formeGone_changes (Q := [.maint, .sec, .forme, .codec, .tier, .clusters, .sched, .repro, .pair]) rfl (.refl _ _) .req rfl
  show (formeGone (silverClear s)).req.recs.filter _ = _
  rw [hg]
  rfl

theorem unloadClearDone_waits {s : State} (h : pressesEmpty s = false) : exec .unloadClearDone s = .next s := by
  show Host.Outcome.next (ite _ _ _) = _
  rw [h, Bool.and_false]
  rfl

theorem unloadClearDone_ends {s : State} (hr : s.forme.running = some .unload) (h : pressesEmpty s = true) :
    exec .unloadClearDone s = .next (formeAnswer .ok (unloadDone s)) := by
  show Host.Outcome.next (ite _ _ _) = _
  rw [h, hr]
  rfl

theorem drainComplete_ends {s : State} (hr : s.forme.running = some .drain) (hp : drainPend s = 0) (hq : drainQuiet s = true) :
    exec .drainComplete s = .next (drainEnd s) := by
  show Host.Outcome.next (ite _ _ _) = _
  rw [hr, hp, hq]
  rfl

theorem drainEnd_forme (s : State) : (drainEnd s).forme =
    { s.forme with drainDone := true, code := 0x00, stage := 0, failSect := 0xFFFF, running := none } := by
  have hw (rs : List Nat) : (writeBack rs s).forme = s.forme := writeBack_changes (Q := [.tier]) rfl (.refl _ s) .forme rfl
  unfold drainEnd
  dsimp only
  rw [formeEnd_forme]
  dsimp only [clearRegions]
  rw [hw]
  rfl

theorem drainEnd_only (s : State) : OnlyChanges [.forme, .tier, .clusters, .sched, .out] s (drainEnd s) := by
  refine (drainEnd_changes (Q := [.dev, .forme, .tier, .clusters, .sched, .out]) rfl (.refl _ s)).without (b := .dev) ?_
  unfold drainEnd
  refine (formeEnd_ok_dev ..).trans ?_
  exact (clearRegions_changes (Q := [.tier, .clusters]) (rs := ((drainParts s).map (regionsOf s)).flatten) (top := plateStart s) rfl
    (writeBack_changes rfl (.refl _ s))) .dev rfl

theorem cluster_drainEnd {s : State} {k : Nat} (h : k / 16 ∈ ((drainParts s).map (regionsOf s)).flatten) :
    (cluster (drainEnd s) k).case_ = [] ∧ (cluster (drainEnd s) k).mailbox = [] := by
  unfold drainEnd
  dsimp only
  rw [cluster_congr (formeEnd_clusters ..)]
  have hk := cluster_clearRegions (plateStart s) (writeBack ((drainParts s).map (regionsOf s)).flatten s) h
  exact ⟨congrArg Cluster.case_ hk, congrArg Cluster.mailbox hk⟩

/-- Settles O42. The clauses are, in order: the image of a LOAD, of a PLATE and of a REPLACE; an unload that waits for the presses and one
that ends; and the end of a drain. -/
theorem formeCompletionCommands : Obligations.FormeCompletionCommands := by
  unfold Obligations.FormeCompletionCommands
  intro img p c n e s f ends fails
  refine ⟨fun hr => ⟨?_, fun h => ?_, fun h => ?_⟩, fun hr => ⟨?_, fun h => ?_, fun h => ?_⟩,
    fun hr hc => ⟨?_, fun h => ?_, fun h => ?_⟩, fun hr h => ?_, fun hr h => ?_, fun hr hp hq => ?_⟩
  · exact ⟨_, imageRead_next (formeImage_load hr), formeEnd_failedTo .malformed 2 noSect 0 s⟩
  · exact ⟨_, imageRead_next (formeImage_load hr), loadRead_fails h⟩
  · refine ⟨_, imageRead_next ((formeImage_load hr).trans (loadRead_commits h)), formeEnd_ends .., ?_⟩
    rw [formeEnd_forme, formeCommit_forme]
    exact ⟨rfl, rfl, rfl, rfl, rfl, rfl⟩
  · exact ⟨_, imageRead_next (formeImage_plate hr), formeEnd_failed .malformed 0 noSect s⟩
  · exact ⟨_, imageRead_next (formeImage_plate hr), plateRead_fails h⟩
  · refine ⟨_, imageRead_next ((formeImage_plate hr).trans (plateRead_loads h)), ?_⟩
    dsimp only [ends]
    rw [platesMove_forme, formeEnd_forme, platePuts_forme]
    exact ⟨⟨rfl, rfl, rfl, rfl⟩, rfl, rfl⟩
  · exact ⟨_, imageRead_next (formeImage_replace hr), formeEnd_failed .malformed 2 noSect s⟩
  · exact ⟨_, imageRead_next (formeImage_replace hr), replaceRead_fails hc h⟩
  · exact ⟨_, imageRead_next ((formeImage_replace hr).trans (replaceRead_commits hc h)), replaceCommit_commits c n img s⟩
  · exact unloadClearDone_waits h
  · have ha : OnlyChanges [.dev, .forme, .out] (unloadDone s) (formeAnswer .ok (unloadDone s)) := formeAnswer_changes rfl (.refl _ _)
    refine ⟨_, unloadClearDone_ends hr h, formeEnd_ends .., ?_, ?_, ?_, ?_, ?_, ?_, fun k => ?_⟩
    · exact congrArg Forme.state (formeEnd_forme ..)
    · exact congrArg Forme.committed (formeEnd_forme ..)
    · exact congrArg Forme.digest (formeEnd_forme ..)
    · exact (congrArg Req.recs (ha .req rfl)).trans (unloadDone_recs s)
    · exact congrArg Repro.lmap (ha .repro rfl)
    · exact congrArg Sched.running (ha .sched rfl)
    · rw [cluster_congr (ha .clusters rfl), cluster_unloadDone]
      exact ⟨rfl, rfl, rfl⟩
  · exact ⟨_, drainComplete_ends hr hp hq, drainEnd_only s, drainEnd_forme s, fun k hk => cluster_drainEnd hk⟩

end Sys2Proof.Machine
end

section
/-!
The words of the command store (03 R72, R73): a word written field by field reads back field by field, and a word that reads as a
command is the one that the command writes.
-/

namespace Sys2Proof

/-! ### Fields of a word -/

theorem toNat_field (w : DWord) (lo n : Nat) : (w.extractLsb' lo n).toNat = w.toNat / 2 ^ lo % 2 ^ n := by
  rw [BitVec.extractLsb'_toNat, Nat.shiftRight_eq_div_pow]

theorem field_eq_iff (w : DWord) (lo n : Nat) (a : BitVec n) : w.extractLsb' lo n = a ↔ w.toNat / 2 ^ lo % 2 ^ n = a.toNat := by
  rw [← BitVec.toNat_inj, toNat_field]

theorem field_eq_zero (w : DWord) (lo n : Nat) : w.extractLsb' lo n = 0 ↔ w.toNat / 2 ^ lo % 2 ^ n = 0 := field_eq_iff w lo n 0

/-- A Boolean field. -/
theorem field_beq (w : DWord) (lo n : Nat) (a : BitVec n) : (w.extractLsb' lo n == a) = decide (w.toNat / 2 ^ lo % 2 ^ n = a.toNat) := by
  rw [Bool.eq_iff_iff, beq_iff_eq, decide_eq_true_eq, field_eq_iff]

/-- A flag of a word as a number. -/
theorem toNat_flag (w : DWord) (lo : Nat) : (w.extractLsb' lo 1 == 1).toNat = w.toNat / 2 ^ lo % 2 := by
  rcases Nat.mod_two_eq_zero_or_one (w.toNat / 2 ^ lo) with e | e <;> simp [field_beq, e]

theorem toNat_clearFlag (w : DWord) (lo : Nat) : (!(w.extractLsb' lo 1 == 0)).toNat = w.toNat / 2 ^ lo % 2 := by
  rcases Nat.mod_two_eq_zero_or_one (w.toNat / 2 ^ lo) with e | e <;> simp [field_beq, e]

theorem toNat_opWord {op v : Nat} (ho : op < 256) (hv : v < 2 ^ 56) : (opWord op v).toNat = op * 2 ^ 56 + v := by
  unfold opWord
  rw [BitVec.toNat_ofNat, Nat.mod_eq_of_lt (by omega)]

theorem opcode_opWord {op v : Nat} (ho : op < 256) (hv : v < 2 ^ 56) : ((opWord op v).extractLsb' 56 8).toNat = op := by
  rw [toNat_field, toNat_opWord ho hv]
  omega

/-- A word is the one that its opcode and its low 56 bits write. -/
theorem opWord_fields {op v : Nat} {w : DWord} (ho : (w.extractLsb' 56 8).toNat = op) (hv : v = w.toNat % 2 ^ 56) : opWord op v = w := by
  rw [toNat_field] at ho
  have hw := w.isLt
  refine BitVec.eq_of_toNat_eq ((toNat_opWord ?_ ?_).trans ?_) <;> omega

/-! ### Press commands -/

/-- The press commands by opcode; `stop`: SUBOP of the descriptor that a STREAM names is 0x0001. -/
def pressOf (stop : Bool) (op : Nat) : Option (PressCmd → Instr) :=
  match op with
  | 0x20 => some .load
  | 0x21 => some .store
  | 0x22 => some (if stop then .streamStop else .streamArm)
  | 0x30 => some .matmul
  | 0x38 => some .attend
  | 0x40 => some .vector
  | 0x41 => some .norm
  | 0x48 => some .reduce
  | 0x49 => some .topk
  | 0x50 => some .send
  | 0x51 => some .recv
  | 0x58 => some .convert
  | 0x60 => some .gather
  | 0x68 => some .digest
  | _ => none

/-- The operands of a press command in a word. -/
def pressFields (cl : ClusterId) (remote : List Byte) (reads : ReadOutcome) (w : DWord) : PressCmd :=
  { cl := cl, flags := w.extractLsb' 48 8, areg := w.extractLsb' 44 4, offset := w.extractLsb' 0 32, remote := remote, reads := reads }

section
variable {stop : Bool} {op : Nat} {k : PressCmd → Instr} {cl : ClusterId} {remote : List Byte} {reads : ReadOutcome} {w : DWord}

/-- The opcodes of the press, with their words. -/
theorem pressOf_eq_some (h : pressOf stop op = some k) :
    op < 256 ∧ (∀ c, commandWord (k c) = pressWord op c) ∧ (∀ c, (k c).wf = decide (c.flags.toNat % 16 = 0))
      ∧ ((w.extractLsb' 56 8).toNat = op → commandOf cl stop remote reads w
          = if w.extractLsb' 48 4 == 0 && w.extractLsb' 32 12 == 0 then some (k (pressFields cl remote reads w)) else none) := by
  unfold pressOf at h
  split at h
  case h_3 => cases stop <;> cases h <;> exact ⟨by decide, fun _ => rfl, fun _ => rfl, fun hop => by simp [commandOf, hop, pressFields]⟩
  case h_15 => simp at h
  all_goals cases h; exact ⟨by decide, fun _ => rfl, fun _ => rfl, fun hop => by simp [commandOf, hop, pressFields]⟩

/-- The word of a press command reads back as it, for the cluster that holds it. -/
theorem commandOf_pressWord {c : PressCmd} (h : pressOf stop op = some k) (hwf : (k c).wf = true) (hw : commandWord (k c) = some w) :
    commandOf c.cl stop c.remote c.reads w = some (k c) := by
  obtain ⟨ho, hword, hk, hread⟩ := pressOf_eq_some (w := w) (cl := c.cl) (remote := c.remote) (reads := c.reads) h
  have hf : c.flags.toNat % 16 = 0 := of_decide_eq_true ((hk c).symm.trans hwf)
  obtain rfl : opWord op (c.flags.toNat * 2 ^ 48 + c.areg.toNat * 2 ^ 44 + c.offset.toNat) = w := Option.some_inj.1 ((hword c).symm.trans hw)
  have hu := toNat_opWord (v := c.flags.toNat * 2 ^ 48 + c.areg.toNat * 2 ^ 44 + c.offset.toNat) ho (by omega)
  rw [hread (opcode_opWord ho (by omega))]
  generalize opWord op _ = u at hu ⊢
  have hflags : u.extractLsb' 48 8 = c.flags := (field_eq_iff ..).2 (by omega)
  have hareg : u.extractLsb' 44 4 = c.areg := (field_eq_iff ..).2 (by omega)
  have hoff : u.extractLsb' 0 32 = c.offset := (field_eq_iff ..).2 (by omega)
  have hlow : u.extractLsb' 48 4 = 0 := (field_eq_zero ..).2 (by omega)
  have hresv : u.extractLsb' 32 12 = 0 := (field_eq_zero ..).2 (by omega)
  rw [hlow, hresv, pressFields, hflags, hareg, hoff]
  rfl

/-- A word of a press opcode that reads as a command is that command's word. -/
theorem pressWord_commandOf {i : Instr} (h : pressOf stop op = some k) (hop : (w.extractLsb' 56 8).toNat = op)
    (hi : commandOf cl stop remote reads w = some i) : commandWord i = some w ∧ i.wf = true := by
  obtain ⟨ho, hword, hk, hread⟩ := pressOf_eq_some (w := w) (cl := cl) (remote := remote) (reads := reads) h
  rw [hread hop, Option.ite_none_right_eq_some, Bool.and_eq_true, beq_iff_eq, beq_iff_eq, field_eq_zero, field_eq_zero] at hi
  obtain ⟨⟨hflags, hresv⟩, hi⟩ := hi
  cases hi
  rw [hword, hk, decide_eq_true_eq, pressWord, Option.some_inj]
  simp only [pressFields, toNat_field]
  exact ⟨opWord_fields hop (by omega), by omega⟩

end

/-! ### Control commands -/

/-- To read a written word it is enough to know its number and its opcode. -/
theorem commandOf_written (cl : ClusterId) {i : Instr} {w : DWord} {op v : Nat} (hw : some (opWord op v) = some w) (ho : op < 256) (hv : v < 2 ^ 56)
    (h : ∀ u : DWord, u.toNat = op * 2 ^ 56 + v → (u.extractLsb' 56 8).toNat = op → commandOf cl false [] .good u = some i) :
    ∃ (cl : ClusterId) (stop : Bool) (remote : List Byte) (reads : ReadOutcome), commandOf cl stop remote reads w = some i := by
  cases hw
  exact ⟨cl, false, [], .good, h _ (toNat_opWord ho hv) (opcode_opWord ho hv)⟩

/-- The word of a well-formed command reads back as it. -/
theorem commandOf_commandWord {i : Instr} {w : DWord} (hwf : i.wf = true) (hw : commandWord i = some w) :
    ∃ (cl : ClusterId) (stop : Bool) (remote : List Byte) (reads : ReadOutcome), commandOf cl stop remote reads w = some i := by
  cases i with
  | nop cl =>
    refine commandOf_written cl hw (by decide) (by decide) fun u hu hop => ?_
    simp [commandOf, hop, field_eq_iff]
    omega
  | seta cl a v =>
    refine commandOf_written cl hw (by decide) (by omega) fun u hu hop => ?_
    simp [commandOf, hop, field_eq_iff]
    omega
  | adda cl a v =>
    refine commandOf_written cl hw (by decide) (by omega) fun u hu hop => ?_
    simp [commandOf, hop, field_eq_iff]
    omega
  | loop cl n e =>
    have hn : n.toNat ≠ 0 := by simpa [Instr.wf, ← BitVec.toNat_inj] using hwf
    refine commandOf_written cl hw (by decide) (by omega) fun u hu hop => ?_
    simp [commandOf, hop, field_eq_iff]
    omega
  | jump cl t =>
    refine commandOf_written cl hw (by decide) (by omega) fun u hu hop => ?_
    simp [commandOf, hop, field_eq_iff]
    omega
  | branch cl a t =>
    refine commandOf_written cl hw (by decide) (by omega) fun u hu hop => ?_
    simp [commandOf, hop, field_eq_iff]
    omega
  | lda cl a b o =>
    refine commandOf_written cl hw (by decide) (by omega) fun u hu hop => ?_
    simp [commandOf, hop, field_eq_iff]
    omega
  | waitwq cl =>
    refine commandOf_written cl hw (by decide) (by decide) fun u hu hop => ?_
    simp [commandOf, hop, field_eq_iff]
    omega
  | donewq cl st =>
    have hst : st.toNat < 0x12 := by simpa [Instr.wf] using hwf
    refine commandOf_written cl hw (by decide) (by omega) fun u hu hop => ?_
    simp [commandOf, hop, field_eq_iff]
    omega
  | barrier cl id sc =>
    have hsc : sc.toNat ≠ 3 := by simpa [Instr.wf, ← BitVec.toNat_inj] using hwf
    refine commandOf_written cl hw (by decide) (by omega) fun u hu hop => ?_
    simp [commandOf, hop, field_eq_iff]
    omega
  | waitch cl a t n m ch =>
    have hn : 1 ≤ n.toNat ∧ n.toNat ≤ 64 := by simpa [Instr.wf] using hwf
    have hm := Bool.toNat_lt m
    refine commandOf_written cl hw (by decide) (by omega) fun u hu hop => ?_
    cases m <;> simp [commandOf, hop, field_eq_iff] <;> simp at hu <;> omega
  | live cl id st len e =>
    have he := Bool.toNat_lt (!e)
    refine commandOf_written cl hw (by decide) (by omega) fun u hu hop => ?_
    cases e <;> simp [commandOf, hop, field_eq_iff] <;> simp at hu <;> omega
  | load c => exact ⟨_, false, _, _, commandOf_pressWord (op := 0x20) rfl hwf hw⟩
  | store c => exact ⟨_, false, _, _, commandOf_pressWord (op := 0x21) rfl hwf hw⟩
  | streamArm c => exact ⟨_, false, _, _, commandOf_pressWord (op := 0x22) rfl hwf hw⟩
  | streamStop c => exact ⟨_, true, _, _, commandOf_pressWord (op := 0x22) rfl hwf hw⟩
  | matmul c => exact ⟨_, false, _, _, commandOf_pressWord (op := 0x30) rfl hwf hw⟩
  | attend c => exact ⟨_, false, _, _, commandOf_pressWord (op := 0x38) rfl hwf hw⟩
  | vector c => exact ⟨_, false, _, _, commandOf_pressWord (op := 0x40) rfl hwf hw⟩
  | norm c => exact ⟨_, false, _, _, commandOf_pressWord (op := 0x41) rfl hwf hw⟩
  | reduce c => exact ⟨_, false, _, _, commandOf_pressWord (op := 0x48) rfl hwf hw⟩
  | topk c => exact ⟨_, false, _, _, commandOf_pressWord (op := 0x49) rfl hwf hw⟩
  | send c => exact ⟨_, false, _, _, commandOf_pressWord (op := 0x50) rfl hwf hw⟩
  | recv c => exact ⟨_, false, _, _, commandOf_pressWord (op := 0x51) rfl hwf hw⟩
  | convert c => exact ⟨_, false, _, _, commandOf_pressWord (op := 0x58) rfl hwf hw⟩
  | gather c => exact ⟨_, false, _, _, commandOf_pressWord (op := 0x60) rfl hwf hw⟩
  | digest c => exact ⟨_, false, _, _, commandOf_pressWord (op := 0x68) rfl hwf hw⟩
  | _ => simp [commandWord] at hw

/-- A word that reads as a command is that command's word, and the command is well-formed. -/
theorem commandWord_commandOf {cl : ClusterId} {stop : Bool} {remote : List Byte} {reads : ReadOutcome} {w : DWord} {i : Instr}
    (hi : commandOf cl stop remote reads w = some i) : commandWord i = some w ∧ i.wf = true := by
  cases hp : pressOf stop (w.extractLsb' 56 8).toNat with
  | some k => exact pressWord_commandOf hp rfl hi
  | none =>
    simp only [commandOf, Option.ite_none_left_eq_some, Bool.and_eq_true, decide_eq_true_eq,
      Bool.not_eq_true', beq_iff_eq, beq_eq_false_iff_ne, bne_iff_ne, not_and, ne_eq, not_not, field_eq_zero] at hi
    obtain ⟨hflags, hi⟩ := hi
    split at hi
    case h_1 hop | h_6 hop =>
      obtain ⟨hresv, ⟨⟩⟩ := Option.ite_none_right_eq_some.1 hi
      exact ⟨congrArg some (opWord_fields hop (by omega)), rfl⟩
    case h_2 hop | h_3 hop | h_5 hop | h_11 hop | h_12 hop =>
      obtain ⟨hresv, ⟨⟩⟩ := Option.ite_none_right_eq_some.1 hi
      exact ⟨congrArg some (opWord_fields hop (by simp only [toNat_field]; omega)), rfl⟩
    case h_4 hop =>
      obtain ⟨⟨hresv, hn⟩, ⟨⟩⟩ := Option.ite_none_right_eq_some.1 hi
      exact ⟨congrArg some (opWord_fields hop (by simp only [toNat_field]; omega)), bne_iff_ne.2 fun h => hn ((field_eq_zero ..).1 h)⟩
    case h_7 hop =>
      obtain ⟨⟨hresv, hn⟩, ⟨⟩⟩ := Option.ite_none_right_eq_some.1 hi
      exact ⟨congrArg some (opWord_fields hop (by simp only [toNat_field]; omega)), decide_eq_true hn⟩
    case h_8 hop =>
      obtain ⟨⟨⟨hresv, hscope⟩, hn⟩, ⟨⟩⟩ := Option.ite_none_right_eq_some.1 hi
      exact ⟨congrArg some (opWord_fields hop (by simp only [toNat_field]; omega)), bne_iff_ne.2 hn⟩
    case h_9 hop =>
      obtain ⟨⟨⟨⟨hresv, hmode⟩, hn⟩, hm⟩, ⟨⟩⟩ := Option.ite_none_right_eq_some.1 hi
      exact ⟨congrArg some (opWord_fields hop (by simp only [toNat_field, toNat_flag]; omega)), Bool.and_eq_true_iff.2 ⟨decide_eq_true hn, decide_eq_true hm⟩⟩
    case h_10 hop =>
      obtain ⟨⟨hresv, hend⟩, ⟨⟩⟩ := Option.ite_none_right_eq_some.1 hi
      exact ⟨congrArg some (opWord_fields hop (by simp only [toNat_field, toNat_clearFlag]; omega)), rfl⟩
    case h_27 => simp at hi
    all_goals next hop => exact absurd (hop ▸ hp) nofun

/-- A word whose opcode is not in the table reads as no command (03 R73). -/
theorem commandOf_noOpcode {w : DWord}
    (h : (w.extractLsb' 56 8).toNat ∉ [0x00, 0x01, 0x02, 0x03, 0x04, 0x05, 0x06, 0x07, 0x08, 0x09, 0x0B, 0x0C, 0x20, 0x21, 0x22, 0x30,
      0x38, 0x40, 0x41, 0x48, 0x49, 0x50, 0x51, 0x58, 0x60, 0x68])
    (cl : ClusterId) (stop : Bool) (remote : List Byte) (reads : ReadOutcome) : commandOf cl stop remote reads w = none := by
  simp only [List.mem_cons, List.not_mem_nil, or_false, not_or] at h
  unfold commandOf
  dsimp only
  split
  · rfl
  · split
    case h_27 => rfl
    all_goals omega

/-- Settles O60. The clauses are, in order: the word of a command reads back as it; a word that reads as a command is its word; and the
opcodes that the table does not list. -/
theorem commandWordsRoundTrip : Obligations.CommandWordsRoundTrip := by
  unfold Obligations.CommandWordsRoundTrip
  exact ⟨fun _ _ => commandOf_commandWord, fun _ _ _ _ _ _ => commandWord_commandOf, fun _ => commandOf_noOpcode⟩

end Sys2Proof
end

section
/-!
The control commands of the compositor (03, *Control commands*): a command that is issued at once changes its cluster only.
-/

namespace Sys2Proof.Machine

/-! ### Commands that change their cluster only -/

theorem clusterUpd_only (n : Nat) (f : Cluster → Cluster) (s : State) : OnlyChanges [.clusters] s (clusterUpd n f s) :=
  clusterUpd_changes rfl (.refl _ s)

theorem clusterUpd_onlyCluster (n : Nat) (f : Cluster → Cluster) (s : State) : OnlyCluster n s (clusterUpd n f s) :=
  ⟨clusterUpd_only n f s, fun m hm => cluster_clusterUpd_other n m f s hm⟩

/-- The outcome of a command that changes its cluster only. -/
def Issues (o : Out) (n : Nat) (s : State) (y : Cluster) : Prop := ∃ t, o = .next t ∧ cluster t n = y ∧ OnlyCluster n s t

theorem issues_clusterUpd {o : Out} {n : Nat} {f : Cluster → Cluster} {s : State} (h : o = .next (clusterUpd n f s)) :
    Issues o n s (f (cluster s n)) := ⟨_, h, cluster_clusterUpd_same n f s, clusterUpd_onlyCluster n f s⟩

section
variable {cl : ClusterId} {s : State} (hi : canIssue s cl.toNat = true)
include hi

/-- On a cluster that can issue, a control command has its effect once the index has moved on. -/
theorem control_issues (op : Byte) (f : Cluster → Cluster) :
    Issues (control cl op f s) cl.toNat s (f (issued op (cluster s cl.toNat))) :=
  issues_clusterUpd (congrArg Host.Outcome.next (if_pos hi))

theorem execJump_issues (t : BitVec 14) :
    Issues (execJump cl t s) cl.toNat s { cluster s cl.toNat with lastOp := 0x04, state := 2, pc := t.toNat } :=
  issues_clusterUpd (congrArg Host.Outcome.next (if_pos hi))

theorem execBranch_issues (a : BitVec 4) (t : BitVec 14) :
    Issues (execBranch cl a t s) cl.toNat s (if areg (cluster s cl.toNat) a.toNat = 0 then
        { cluster s cl.toNat with lastOp := 0x0B, state := 2, pc := t.toNat } else issued 0x0B (cluster s cl.toNat)) :=
  issues_clusterUpd (congrArg Host.Outcome.next (if_pos hi))

/-- LOOP with a COUNT, where fewer than four loops are open. -/
theorem execLoop_issues {count : BitVec 16} (last : BitVec 14) (hc : count ≠ 0) (hl : (cluster s cl.toNat).loops.length < 4) :
    Issues (execLoop cl count last s) cl.toNat s
      (let x := issued 0x03 (cluster s cl.toNat)
       if last.toNat < x.pc then x else { x with loops := (x.pc, last.toNat, count.toNat) :: x.loops }) := by
  have hn : ¬ (canIssue s cl.toNat && decide (4 ≤ (cluster s cl.toNat).loops.length)) = true := by simp [hl]
  unfold execLoop
  rw [if_neg hc, if_neg hn]
  exact control_issues hi _ _

/-- LDA of a mailbox word. -/
theorem execLda_word (a b : BitVec 4) (off : Word)
    (h : (areg (cluster s cl.toNat) b.toNat + off).toNat / 65536 = 0x100 ∧ (areg (cluster s cl.toNat) b.toNat + off).toNat % 4 = 0) :
    Issues (execLda cl a b off s) cl.toNat s (setAreg a.toNat
      (Mem.word (mailSeen (cluster s cl.toNat)) ((areg (cluster s cl.toNat) b.toNat + off).toNat % 65536)) (issued 0x0C (cluster s cl.toNat))) := by
  refine issues_clusterUpd (f := fun x => setAreg a.toNat
    (Mem.word (mailSeen x) ((areg (cluster s cl.toNat) b.toNat + off).toNat % 65536)) (issued 0x0C x)) ?_
  unfold execLda
  dsimp only
  rw [if_pos hi, if_pos (by rwa [Bool.and_eq_true, decide_eq_true_eq, decide_eq_true_eq])]

/-- LDA of any other sum takes a free value. -/
theorem execLda_free (a b : BitVec 4) (off : Word)
    (h : ¬ ((areg (cluster s cl.toNat) b.toNat + off).toNat / 65536 = 0x100 ∧ (areg (cluster s cl.toNat) b.toNat + off).toNat % 4 = 0)) :
    ∃ t w, execLda cl a b off s = .next t ∧ OnlyChanges [.clusters, .free] s t
      ∧ cluster t cl.toNat = setAreg a.toNat w (issued 0x0C (cluster s cl.toNat)) := by
  have he : execLda cl a b off s
      = .next (bumpFree (clusterUpd cl.toNat (fun x => setAreg a.toNat (Config.freeWord s.free) (issued 0x0C x)) s)) := by
    unfold execLda
    dsimp only
    rw [if_pos hi, if_neg (by rwa [Bool.and_eq_true, decide_eq_true_eq, decide_eq_true_eq])]
  exact ⟨_, _, he, bumpFree_changes rfl (clusterUpd_changes rfl (.refl _ s)), (cluster_congr (bumpFree_clusters _) _).trans (cluster_clusterUpd_same ..)⟩

/-- LIVE with END. -/
theorem execLive_ends (id : BitVec 5) (k m : BitVec 11) : Issues (execLive cl id k m true s) cl.toNat s
    { issued 0x09 (cluster s cl.toNat) with live := Tab.del (cluster s cl.toNat).live id.toNat } := by
  refine issues_clusterUpd (f := fun x => { issued 0x09 x with live := Tab.del x.live id.toNat }) ?_
  unfold execLive
  dsimp only
  rw [if_pos hi, if_pos rfl]

/-- LIVE of a free ID whose range lies in the case and meets no open range and no ring (03 R78, R81). -/
theorem execLive_opens {id : BitVec 5} {k m : BitVec 11} (hcase : k.toNat * 1024 + (m.toNat + 1) * 1024 ≤ 2 ^ 21)
    (hid : (Tab.find (cluster s cl.toNat).live id.toNat).isNone = true)
    (hlive : ∀ e ∈ (cluster s cl.toNat).live, k.toNat * 1024 + (m.toNat + 1) * 1024 ≤ e.2.1 ∨ e.2.1 + e.2.2 ≤ k.toNat * 1024)
    (hring : ∀ e ∈ streamsSeen (cluster s cl.toNat),
      k.toNat * 1024 + (m.toNat + 1) * 1024 ≤ e.2.ringStart ∨ e.2.ringStart + e.2.ringLen ≤ k.toNat * 1024) :
    Issues (execLive cl id k m false s) cl.toNat s { issued 0x09 (cluster s cl.toNat) with
      live := Tab.put (cluster s cl.toNat).live id.toNat (k.toNat * 1024, (m.toNat + 1) * 1024) } := by
  refine issues_clusterUpd (f := fun x => { issued 0x09 x with live := Tab.put x.live id.toNat (k.toNat * 1024, (m.toNat + 1) * 1024) }) ?_
  have hfree : (Tab.find (cluster s cl.toNat).live id.toNat).isSome = false := by simpa using hid
  unfold execLive
  dsimp only
  rw [if_pos hi, if_neg Bool.false_ne_true, if_neg]
  simp only [Bool.or_eq_true, hfree, List.any_eq_true, Bool.and_eq_true, decide_eq_true_eq, not_or, not_exists, not_and, not_lt,
    Bool.false_eq_true, not_false_eq_true, and_true]
  exact ⟨⟨hcase, fun e he hlt => (hlive e he).resolve_right (by omega)⟩, fun e he hlt => (hring e he).resolve_right (by omega)⟩

end

/-- Settles O2. -/
theorem controlCommandsMoveOn : Obligations.ControlCommandsMoveOn := by
  unfold Obligations.ControlCommandsMoveOn
  intro cl a v target s hi x moved
  exact ⟨control_issues hi 0x00 id, control_issues hi 0x01 (setAreg a.toNat v),
    control_issues hi 0x02 (fun x => setAreg a.toNat (areg x a.toNat + v) x), execJump_issues hi target, execBranch_issues hi a target⟩

theorem Issues.swap {o : Out} {n : Nat} {s : State} {y : Cluster} (h : Issues o n s y) :
    ∃ t, o = .next t ∧ OnlyCluster n s t ∧ cluster t n = y := by
  obtain ⟨t, ho, hy, hc⟩ := h
  exact ⟨t, ho, hc, hy⟩

/-- Settles O3. The clauses are, in order: LOOP; LDA; LIVE; and LIVE with END. -/
theorem loopLdaLiveTakeEffect : Obligations.LoopLdaLiveTakeEffect := by
  unfold Obligations.LoopLdaLiveTakeEffect
  intro cl s hi n x moved
  refine ⟨fun count last hc hl => (execLoop_issues hi last hc hl).swap, fun a b off => ?_, fun id k m hcase hid hlive hring =>
    (execLive_opens hi hcase hid hlive hring).swap, fun id k m => (execLive_ends hi id k m).swap⟩
  dsimp only
  split
  · next h => exact (execLda_word hi a b off h).swap
  · next h => exact execLda_free hi a b off h

end Sys2Proof.Machine
end

section
/-!
The commands of the compositor that wait for the press to be empty (03, *Control commands*; R69, R84): WAITCH, WAITWQ, DONEWQ and
BARRIER.
-/

namespace Sys2Proof.Machine

theorem Bound.done {x y : Cluster} (h : Bound x y) : y.done = x.done := by obtain ⟨_, _, _, _, _, rfl⟩ := h; rfl

/-- What `canIssue` says of the cluster (03 R74; 13 R341, R347; 18 R453). -/
theorem canIssue_iff {s : State} {n : Nat} : canIssue s n = true ↔ claimed s n = true
    ∧ ((cluster s n).state = 1 ∨ (cluster s n).state = 2) ∧ (cluster s n).wait = .none ∧ (cluster s n).moving = none
    ∧ (cluster s n).ctx.isSome = true ∧ (cluster s n).ended = none := by
  simp [canIssue, and_assoc]

/-! ### WAITCH (03 R84, R87) -/

/-- A compositor that waits on a channel goes on where the channel is broken or holds what it waits for. -/
theorem wakeWait_channel {n ch count : Nat} {a : BitVec 4} {cr : Bool} {t : Option Nat} {k : Chan} {s : State}
    (hw : (cluster s n).wait = .channel a ch count cr t) (hk : channel s n ch = some k) :
    wakeWait n s = if k.broken.isSome then clusterUpd n (fun x => { setAreg a.toNat 0 x with wait := .none, state := 2 }) s
      else if count ≤ (if cr then k.credits else k.queue.length) then
        clusterUpd n (fun x => { setAreg a.toNat 1 x with wait := .none, state := 2 }) s
      else s := by
  have hk' : Tab.find (cluster s n).chans ch = some k := hk
  unfold wakeWait
  simp only [hw, hk', decide_eq_true_eq]

/-- A cluster that has issued a WAITCH and waits. -/
def waitsFor (w : Wait) (op : Byte) (x : Cluster) : Cluster := { issued op x with wait := w, state := 3 }

/-- A command that leaves its cluster waiting: virtual times and the binding follow (13 R350, R353). -/
def parkedAt (n : Nat) (s : State) : State := rebind n true (vtRefresh false s)

theorem parkedAt_rebound (n : Nat) (s : State) : Rebound n s (parkedAt n s) := by
  obtain ⟨hb, ho⟩ := rebind_rebound n true (vtRefresh false s)
  exact ⟨vtRefresh_cluster false s n ▸ hb, fun m hm => (ho m hm).trans (vtRefresh_cluster false s m)⟩

theorem parkedAt_changes {Q : List Block} {s0 s : State} {n : Nat} (hq : subParts [.clusters, .sched, .req] Q = true) (hk : OnlyChanges Q s0 s) :
    OnlyChanges Q s0 (parkedAt n s) := rebind_changes hq (vtRefresh_changes (subParts_trans rfl hq) hk)

section
variable {cl : ClusterId} {a : BitVec 4} {timeout : BitVec 20} {count : Byte} {credits : Bool} {ch : BitVec 5} {s : State} {k : Chan}

/-- WAITCH on a channel of its direction, with a COUNT that its slots can reach, wakes at once or leaves its cluster waiting. -/
theorem execWaitch_eq (hi : canIssue s cl.toNat = true) (hp : (cluster s cl.toNat).press = []) (hc : ¬ (count = 0 ∨ 64 < count.toNat))
    (hk : channel s cl.toNat ch.toNat = some k) (hd : k.entry.send = credits) (hs : count.toNat ≤ k.entry.slots) :
    execWaitch cl a timeout count credits ch s = .next
      (let u := wakeWait cl.toNat (clusterUpd cl.toNat (waitsFor (.channel a ch.toNat count.toNat credits
          (if timeout = 0 then none else some (s.tb + 64 * timeout.toNat))) 0x08) s)
       if (cluster u cl.toNat).wait = .none then u else parkedAt cl.toNat u) := by
  unfold execWaitch
  dsimp only
  rw [if_neg hc, if_pos (by simp [hi, hp]), hk]
  dsimp only
  rw [if_neg (by simp [hd, hs])]
  rfl

end

theorem OnlyCluster.trans {n : Nat} {s t u : State} (h : OnlyCluster n s t) (k : OnlyCluster n t u) : OnlyCluster n s u :=
  ⟨h.1.trans k.1, fun m hm => (k.2 m hm).trans (h.2 m hm)⟩

/-- A WAITCH that has its outcome at once. -/
theorem waitch_woken (n a : Nat) (b : Word) (w : Wait) (op : Byte) (s : State) :
    let t := clusterUpd n (fun x => { setAreg a b x with wait := .none, state := 2 }) (clusterUpd n (waitsFor w op) s)
    cluster t n = { issued op (cluster s n) with wait := .none, aregs := Tab.put (cluster s n).aregs a b } ∧ OnlyCluster n s t := by
  refine ⟨?_, (clusterUpd_onlyCluster ..).trans (clusterUpd_onlyCluster ..)⟩
  rw [cluster_clusterUpd_same, cluster_clusterUpd_same]
  rfl

/-- A command that leaves its cluster waiting keeps the other clusters. -/
theorem parked_other {n m : Nat} (f : Cluster → Cluster) (s : State) (hm : m ≠ n) :
    cluster (parkedAt n (clusterUpd n f s)) m = cluster s m :=
  ((parkedAt_rebound n _).2 m hm).trans (cluster_clusterUpd_other n m _ s hm)

theorem parked_bound (n : Nat) (f : Cluster → Cluster) (s : State) :
    Bound (f (cluster s n)) (cluster (parkedAt n (clusterUpd n f s)) n) :=
  cluster_clusterUpd_same n f s ▸ (parkedAt_rebound n _).1

/-- Settles O4. The outcomes are, in order: a broken channel; credits or messages that are there; a wait. -/
theorem waitchOutcomes : Obligations.WaitchOutcomes := by
  unfold Obligations.WaitchOutcomes
  intro cl a timeout count credits ch s k hi hp h0 h64 hk hd hs x moved has
  have he := execWaitch_eq (a := a) (timeout := timeout) hi hp (not_or.2 ⟨h0, by omega⟩) hk hd hs
  generalize hw : Wait.channel a ch.toNat count.toNat credits (if timeout = 0 then none else some (s.tb + 64 * timeout.toNat)) = w at he ⊢
  have hvx := cluster_clusterUpd_same cl.toNat (waitsFor w 0x08) s
  have hvk : channel (clusterUpd cl.toNat (waitsFor w 0x08) s) cl.toNat ch.toNat = some k := by unfold channel; rw [hvx]; exact hk
  have hwake := wakeWait_channel (n := cl.toNat) (by rw [hvx, hw]; rfl) hvk
  have wake : ∀ b : Word, wakeWait cl.toNat (clusterUpd cl.toNat (waitsFor w 0x08) s)
        = clusterUpd cl.toNat (fun y => { setAreg a.toNat b y with wait := .none, state := 2 }) (clusterUpd cl.toNat (waitsFor w 0x08) s) →
      ∃ t, exec (.waitch cl a timeout count credits ch) s = .next t ∧ (∀ m, m ≠ cl.toNat → cluster t m = cluster s m)
        ∧ OnlyChanges [.clusters] s t ∧ cluster t cl.toNat = { moved with aregs := Tab.put x.aregs a.toNat b } := fun b hb => by
    obtain ⟨hc, hf, ho⟩ := waitch_woken cl.toNat a.toNat b w 0x08 s
    rw [← hb] at hc hf ho
    exact ⟨_, he.trans (congrArg Host.Outcome.next (if_pos (by rw [hc]))), ho, hf, hc⟩
  by_cases hb : k.broken.isSome
  · simp only [hb, if_true] at hwake ⊢
    exact wake 0 hwake
  by_cases hm : count.toNat ≤ has
  · simp only [hb, hm, if_true, if_false, Bool.false_eq_true] at hwake ⊢
    exact wake 1 (hwake.trans (if_pos hm))
  · simp only [hb, hm, if_false, Bool.false_eq_true] at hwake ⊢
    rw [if_neg hm] at hwake
    have hbound := parked_bound cl.toNat (waitsFor w 0x08) s
    refine ⟨_, he.trans (congrArg Host.Outcome.next (if_neg ?_)), ?_⟩
    · rw [hwake, hvx, ← hw]
      exact Wait.noConfusion
    · rw [hwake]
      exact ⟨fun m hm => parked_other _ s hm, parkedAt_changes rfl (clusterUpd_changes rfl (.refl _ s)), hbound.lastOp, hbound.aregs,
        hbound.pc, hbound.wait⟩

/-! ### WAITWQ, DONEWQ and BARRIER (03 R69, R72) -/

theorem Bound.chain {x y : Cluster} (h : Bound x y) : y.chain = x.chain := by obtain ⟨_, _, _, _, _, rfl⟩ := h; rfl
theorem Bound.live {x y : Cluster} (h : Bound x y) : y.live = x.live := by obtain ⟨_, _, _, _, _, rfl⟩ := h; rfl
theorem Bound.streams {x y : Cluster} (h : Bound x y) : y.streams = x.streams := by obtain ⟨_, _, _, _, _, rfl⟩ := h; rfl

/-- A compositor takes no item from an empty ring. -/
theorem takeItem_empty {n : Nat} {s : State} (h : (cluster s n).wqItems = []) : takeItem n s = s := by
  unfold takeItem
  simp [h, Tab.find]

/-- Nothing is posted where no item waits for the bound context. -/
theorem postWaiting_empty {n : Nat} {s : State} (h : ∀ c, (cluster s n).ctx = some c → Tab.getD s.sched.waiting (n * 64 + c) [] = []) :
    postWaiting n s = s := by
  unfold postWaiting
  dsimp only
  split
  · rfl
  · next c hc => simp [h c hc]

/-- A cluster at WAITWQ: its open spans and its item have ended. -/
def atWaitwq (x : Cluster) : Cluster := { endSpans (issued 0x05 x) with
  wait := .workItem, state := if x.quiesce then 5 else 1, item := none, ended := none, done := endsWith (x.ended.elim 0 codeOf) x }

/-- The claim's idle time begins where the cluster held an item. -/
def freed (n : Nat) (s : State) : State := if (cluster s n).item.isSome then itemGone n s else s

theorem freed_clusters (n : Nat) (s : State) : (freed n s).clusters = s.clusters := by unfold freed; split <;> simp

theorem freed_sched (n : Nat) (s : State) : (freed n s).sched = s.sched := by unfold freed; split <;> simp

/-- WAITWQ with no item posted or waiting leaves its cluster waiting. -/
theorem waitwq_parks {n : Nat} {s : State} (hi : canIssue s n = true) (hp : (cluster s n).press = []) (hw : (cluster s n).wqItems = [])
    (hn : ∀ c, (cluster s n).ctx = some c → Tab.getD s.sched.waiting (n * 64 + c) [] = []) :
    waitwq n s = parkedAt n (clusterUpd n atWaitwq (freed n s)) := by
  obtain ⟨hc, hs, hw0, hm, hx, -⟩ := canIssue_iff.1 hi
  have hat : cluster (clusterUpd n atWaitwq (freed n s)) n = atWaitwq (cluster s n) := by
    rw [cluster_clusterUpd_same, cluster_congr (freed_clusters n s)]
  have htake : takeItem n (clusterUpd n atWaitwq (freed n s)) = clusterUpd n atWaitwq (freed n s) := takeItem_empty (by rw [hat]; exact hw)
  have hpost : postWaiting n (clusterUpd n atWaitwq (freed n s)) = clusterUpd n atWaitwq (freed n s) := postWaiting_empty (fun c h => by
    rw [hat] at h
    rw [clusterUpd_sched, freed_sched]
    exact hn c h)
  unfold waitwq
  dsimp only
  rw [if_neg (by simpa [hc, hw0, hm, hx, hp] using or_iff_not_imp_left.1 hs)]
  change (if (cluster (postWaiting n (takeItem n (clusterUpd n atWaitwq (freed n s)))) n).wait = .none then _
    else parkedAt n (postWaiting n (takeItem n (clusterUpd n atWaitwq (freed n s))))) = _
  rw [htake, hpost, if_neg (by rw [hat]; exact Wait.noConfusion)]

/-- DONEWQ of a status code ends the item of a cluster whose press is empty. -/
theorem execDonewq_eq {cl : ClusterId} {s : State} {c : Byte} (hc : (statusOf c).isSome = true) (hi : canIssue s cl.toNat = true)
    (hp : (cluster s cl.toNat).press = []) : execDonewq cl c s = .next (clusterUpd cl.toNat (fun x => { endSpans (issued 0x06 x) with
      item := none, done := endsWith c x }) (freed cl.toNat s)) := by
  have hs : ¬ (statusOf c).isNone = true := by simpa [Option.isSome_iff_ne_none] using hc
  unfold execDonewq
  dsimp only
  rw [if_neg hs, if_pos (by simp [hi, hp])]
  rfl

/-- A cluster at a BARRIER. -/
def atBarrier (id : Byte) (scope : BitVec 2) (x : Cluster) : Cluster := { issued 0x07 x with wait := .barrier id scope, state := 3 }

/-- The cluster is among the arrivals of its barrier (13 R349). -/
def arrived (n c scope id : Nat) (s : State) : State := { s with sched := { s.sched with
  arrivals := Tab.upd s.sched.arrivals (barrierKey c scope id) [] (fun l => l ++ [n]) } }

/-- A write of the scheduler's block stays within a frame that holds it. -/
theorem sched_changes {Q : List Block} (hq : Q.contains .sched = true) (s : State) (x : Sched) : OnlyChanges Q s { s with sched := x } := by
  intro p hp
  cases p with
  | sched => rw [hq] at hp; cases hp
  | _ => rfl

/-- BARRIER of a scope that is one. -/
theorem execBarrier_eq {cl : ClusterId} {s : State} {id : Byte} {scope : BitVec 2} (h3 : scope ≠ 3) (hi : canIssue s cl.toNat = true)
    (hp : (cluster s cl.toNat).press = []) : execBarrier cl id scope s = .next
      (let c := (cluster s cl.toNat).ctx.getD 0
       let u := arrived cl.toNat c scope.toNat id.toNat s
       parkedAt cl.toNat (clusterUpd cl.toNat (atBarrier id scope)
        (if scope = 2 then podArrive ((partOfRegion u (cl.toNat / 16)).getD 0) c id.toNat u else u))) := by
  unfold execBarrier
  dsimp only
  rw [if_neg h3, if_pos (by simp [hi, hp])]
  rfl

theorem parkedAt_sameSlots (n : Nat) (s : State) : SameSlots s (parkedAt n s) :=
  (vtRefresh_sameSlots false s).trans (rebind_sameSlots n true _)

/-- Settles O5. The clauses are, in order: WAITWQ; DONEWQ; BARRIER. -/
theorem workQueueCommands : Obligations.WorkQueueCommands := by
  unfold Obligations.WorkQueueCommands
  intro cl s hi hp n x ended
  obtain ⟨-, -, -, -, -, hended⟩ := canIssue_iff.1 hi
  have hends : ∀ c, ended c = endsWith c x := fun _ => rfl
  refine ⟨fun hw hn => ?_, fun c hc => ?_, fun id scope h3 => ?_⟩
  · have hb := parked_bound n atWaitwq (freed n s)
    rw [cluster_congr (freed_clusters n s)] at hb
    refine ⟨_, congrArg Host.Outcome.next (waitwq_parks hi hp hw hn), hb.wait, hb.lastOp, hb.item, hb.done.trans ?_, hb.chain, hb.live,
      hb.streams, fun m hm => (parked_other _ _ hm).trans (cluster_congr (freed_clusters n s) m)⟩
    rw [hends]
    exact congrArg (endsWith · x) (congrArg (Option.elim · 0 codeOf) hended)
  · have he := execDonewq_eq hc hi hp
    refine ⟨_, he, execDonewq_changes rfl (.refl _ s) he, fun m hm =>
      (cluster_clusterUpd_other _ _ _ _ hm).trans (cluster_congr (freed_clusters n s) m), ?_⟩
    rw [cluster_clusterUpd_same, cluster_congr (freed_clusters n s)]
    rfl
  · have he := execBarrier_eq (id := id) h3 hi hp
    refine ⟨_, he, (parked_bound ..).wait, (parked_bound ..).lastOp, fun h2 => ?_⟩
    dsimp only
    rw [if_neg h2]
    refine ⟨(parkedAt_sameSlots ..).sameBarriers.1, ?_, fun m hm => parked_other _ _ hm⟩
    exact parkedAt_changes rfl (clusterUpd_changes rfl (sched_changes rfl s _))

end Sys2Proof.Machine
end

section
/-!
The only stop of the model (03 R73), an invalid command word; and the pace counter of a window (03 R93).
-/

namespace Sys2Proof.Machine

/-- The operands at which a command stream is invalid (03 R73). -/
def InvalidWord (c : Instr) (s : State) : Prop :=
  (∃ cl count last, c = .loop cl count last ∧ (count = 0 ∨ 4 ≤ (cluster s cl.toNat).loops.length)) ∨
  (∃ cl st, c = .donewq cl st ∧ statusOf st = none) ∨ (∃ cl id, c = .barrier cl id 3) ∨
  (∃ cl a tm count k ch, c = .waitch cl a tm count k ch ∧ (count = 0 ∨ 64 < count.toNat))

/-- A command answers a next state, or its word is invalid. -/
def Stops (c : Instr) (s : State) (o : Out) : Prop := (∃ t, o = .next t) ∨ (o = .fault .invalidCommandWord ∧ InvalidWord c s)

/-- A check whose failure makes the stream invalid. -/
theorem stops_ite {c : Instr} {s : State} {q : Prop} [Decidable q] {o : Out} (hq : q → InvalidWord c s) (ho : Stops c s o) :
    Stops c s (if q then .fault .invalidCommandWord else o) := by
  by_cases h : q
  · exact .inr ⟨if_pos h, hq h⟩
  · rwa [if_neg h]

theorem execLoop_stops (cl : ClusterId) (count : BitVec 16) (last : BitVec 14) (s : State) :
    Stops (.loop cl count last) s (execLoop cl count last s) := by
  refine stops_ite (fun h => .inl ⟨cl, count, last, rfl, .inl h⟩) (stops_ite (fun h => .inl ⟨cl, count, last, rfl, .inr ?_⟩) (.inl ⟨_, rfl⟩))
  exact of_decide_eq_true (Bool.and_eq_true_iff.1 h).2

/-- Every command, one by one: four check their operands, and every other one answers a next state. -/
theorem exec_stops (c : Instr) (s : State) : Stops c s (exec c s) := by
  cases c with
  | loop cl count last => exact execLoop_stops cl count last s
  | donewq cl st => exact stops_ite (fun h => .inr (.inl ⟨cl, st, rfl, Option.isNone_iff_eq_none.1 h⟩)) (.inl ⟨_, rfl⟩)
  | barrier cl id scope => exact stops_ite (fun h => .inr (.inr (.inl ⟨cl, id, h ▸ rfl⟩))) (.inl ⟨_, rfl⟩)
  | waitch cl a tm count k ch => exact stops_ite (fun h => .inr (.inr (.inr ⟨cl, a, tm, count, k, ch, rfl, h⟩))) (.inl ⟨_, rfl⟩)
  | _ => exact .inl ⟨_, rfl⟩

/-- Settles O13. -/
theorem stopsOnlyOnInvalidWords : Obligations.StopsOnlyOnInvalidWords := by
  unfold Obligations.StopsOnlyOnInvalidWords
  refine ⟨fun c s r hr => ?_, fun c s f hf => ?_, fun cl last s => rfl, fun cl count last s hi hl => ?_,
    fun cl st s hs => if_pos (by rw [hs]; rfl), fun cl id s => rfl, fun cl a tm count k ch s hc => if_pos hc⟩
  · obtain ⟨t, ht⟩ | ⟨ht, -⟩ := exec_stops c s <;> rw [ht] at hr <;> cases hr
  · obtain ⟨t, ht⟩ | ⟨ht, hw⟩ := exec_stops c s <;> rw [ht] at hf
    · cases hf
    · injection hf with hf
      exact ⟨hf.symm, hw⟩
  · change execLoop cl count last s = _
    unfold execLoop
    rw [hi, decide_eq_true hl, if_pos (Bool.and_self true), ite_self]

/-! ### The pace counter (03 R93) -/

/-- What the end of a pace window leaves in its cluster. -/
def paced (tb count : Nat) (x : Cluster) : Cluster := { x with
  paceCount := BitVec.ofNat 18 count, paceValid := true, slow := decide (count ≤ 204472)
  slowRun := if decide (count ≤ 204472) then x.slowRun + 1 else 0, paceAt := tb }

/-- At the end of a window its cluster's counter is written, and REPRO may count a slow one. -/
theorem paceWindow_ended {n beats : Nat} {s : State} (h : ¬ s.tb / 65536 ≤ (cluster s n).paceAt / 65536) :
    let u := clusterUpd n (paced s.tb (min beats 0x3FFFF)) s
    paceWindow n beats s = u ∨ paceWindow n beats s = { u with repro := { u.repro with slow := satInc u.repro.slow } } := by
  intro u
  have he : paceWindow n beats s = if (cluster u n).slowRun = 4 && hasProgram (cluster u n) && !spareTakes u (n / 16) then
      { u with repro := { u.repro with slow := satInc u.repro.slow } } else u := if_neg h
  rw [he]
  split
  · exact .inr rfl
  · exact .inl rfl

theorem paceWindow_clusters {n beats : Nat} {s : State} (h : ¬ s.tb / 65536 ≤ (cluster s n).paceAt / 65536) :
    (paceWindow n beats s).clusters = (clusterUpd n (paced s.tb (min beats 0x3FFFF)) s).clusters := by
  obtain h | h := paceWindow_ended (beats := beats) h <;> rw [h]

/-- Settles O15 (the name `paceWindow` is the model's own). -/
theorem paceWindow_records : Obligations.PaceWindow := by
  unfold Obligations.PaceWindow
  intro cl beats s
  split
  · next h => exact congrArg Host.Outcome.next (if_pos h)
  · next h =>
    have hc := cluster_congr (paceWindow_clusters (beats := beats) h)
    have hn : cluster (paceWindow cl.toNat beats s) cl.toNat = paced s.tb (min beats 0x3FFFF) (cluster s cl.toNat) :=
      (hc _).trans (cluster_clusterUpd_same ..)
    have hcount : (BitVec.ofNat 18 (min beats 0x3FFFF)).toNat = min beats 0x3FFFF := by
      rw [BitVec.toNat_ofNat, Nat.mod_eq_of_lt (by omega)]
    refine ⟨_, rfl, ?_, ?_, ?_, ?_, fun m hm => (hc m).trans (cluster_clusterUpd_other _ _ _ _ hm), execPaceWindowEnd_changes rfl (.refl _ s) rfl⟩
      <;> rw [hn] <;> simp only [paced, hcount, decide_eq_true_eq]
    split <;> omega

end Sys2Proof.Machine
end

section
/-!
The bytes of T1 and of the slices stay under everything that a read counts, corrects or loses (07 R184 to R193, R205).
-/

namespace Sys2Proof.Machine

/-- The bytes of T1 and of the store slices are the same. -/
def SameBytes (s t : State) : Prop := t.tier.t1 = s.tier.t1 ∧ t.tier.slices = s.tier.slices

theorem SameBytes.refl (s : State) : SameBytes s s := ⟨rfl, rfl⟩

theorem SameBytes.trans {s t u : State} (h : SameBytes s t) (k : SameBytes t u) : SameBytes s u := ⟨k.1.trans h.1, k.2.trans h.2⟩

theorem SameBytes.of_tier {s t : State} (h : t.tier = s.tier) : SameBytes s t := ⟨by rw [h], by rw [h]⟩

/-- What leaves the tier block alone leaves its bytes. -/
theorem SameBytes.of_frame {ps : List Block} {s t : State} (h : OnlyChanges ps s t) (ht : ps.contains .tier = false) : SameBytes s t :=
  .of_tier (h .tier ht)

theorem foldl_sameBytes {A : Type} {f : State → A → State} (hf : ∀ u a, SameBytes u (f u a)) (l : List A) (s : State) :
    SameBytes s (l.foldl f s) := by
  induction l generalizing s with
  | nil => exact .refl s
  | cons a l ih => exact (hf s a).trans (ih (f s a))

theorem sameBytes_ite {s a b : State} {q : Prop} [Decidable q] (ha : SameBytes s a) (hb : SameBytes s b) : SameBytes s (if q then a else b) := by
  split
  · exact ha
  · exact hb

/-! ### Counters -/

theorem lpcUpd_sameBytes (c : Nat) (f : Lpc → Lpc) (s : State) : SameBytes s (lpcUpd c f s) := ⟨rfl, rfl⟩

theorem bumpFree_sameBytes (s : State) : SameBytes s (bumpFree s) := ⟨rfl, rfl⟩

theorem countGranules_sameBytes (wr : Bool) (gs : List Nat) (s : State) : SameBytes s (countGranules wr gs s) :=
  foldl_sameBytes (fun _ _ => lpcUpd_sameBytes ..) gs s

theorem countCached_sameBytes (gs : List Nat) (s : State) : SameBytes s (countCached gs s) :=
  foldl_sameBytes (fun _ _ => (lpcUpd_sameBytes ..).trans (bumpFree_sameBytes _)) gs s

theorem xbarPass_sameBytes (n out : Nat) (s : State) : SameBytes s (xbarPass n out s) := by
  unfold xbarPass xbarGrant
  dsimp only
  split <;> exact ⟨rfl, rfl⟩

theorem xbarToSlice_sameBytes (n r : Nat) (s : State) : SameBytes s (xbarToSlice n r s) := xbarPass_sameBytes ..

theorem partLoad_sameBytes (p off n : Nat) (s : State) : SameBytes s (partLoad p off n s).2 :=
  (countGranules_sameBytes ..).trans (countCached_sameBytes ..)

/-! ### Lost data -/

theorem noteErr_sameBytes (b i off : Nat) (s : State) : SameBytes s (noteErr b i off s) := .of_tier (noteErr_tier b i off s)

theorem chargeHeld_sameBytes (t : BitVec 16) (leave : Bool) (n : Nat) (s : State) : SameBytes s (chargeHeld t leave n s) := by
  unfold chargeHeld quotaUpd
  exact ⟨rfl, rfl⟩

theorem emptyPage_sameBytes (q : ReqId) (k l p : Nat) (s : State) : SameBytes s (emptyPage q k l p s) := by
  unfold emptyPage
  split
  · exact .refl s
  · next g _ =>
    have hd : SameBytes s (dropRef g (pageOf g k l p) s) := .of_frame (dropRef_changes (Q := [.codec]) rfl (.refl _ s)) rfl
    have hp : ∀ u, SameBytes u (pageUpd q k l p (fun _ => {}) u) := fun u => .of_frame (pageUpd_changes (Q := [.req]) rfl (.refl _ u)) rfl
    refine SameBytes.trans (sameBytes_ite ?_ hd) (hp _)
    exact (hd.trans (chargeHeld_sameBytes ..)).trans (.of_tier (recUpd_tier ..))

theorem reportEnd_sameBytes (q : ReqId) (c : Status) (s : State) : SameBytes s (reportEnd q c s) :=
  .of_frame (reportEnd_changes (Q := [.req, .rma, .links, .out]) rfl (.refl _ s)) rfl

theorem plateLost_sameBytes (r : PlateRef) (s : State) : SameBytes s (plateLost r s) :=
  .of_frame (plateLost_changes (Q := [.forme, .pair]) rfl (.refl _ s)) rfl

theorem addRepair_sameBytes (e : RepairEntry) (s : State) : SameBytes s (addRepair e s) :=
  .of_frame (addRepair_changes (Q := [.maint]) rfl (.refl _ s)) rfl

theorem frameRetired_sameBytes (f : Nat) (s : State) : SameBytes s (frameRetired f s) := by
  unfold frameRetired
  refine sameBytes_ite (.refl s) (SameBytes.trans ?_ (addRepair_sameBytes ..))
  exact (show SameBytes s { s with tier := { s.tier with
    retiredFrames := s.tier.retiredFrames ++ [f], retired := satInc s.tier.retired } } from ⟨rfl, rfl⟩).trans (noteErr_sameBytes ..)

theorem retireFrame_sameBytes (f : Nat) (s : State) : SameBytes s (retireFrame f s) := by
  refine (frameRetired_sameBytes f s).trans ?_
  unfold retireFrame
  refine sameBytes_ite ⟨rfl, rfl⟩ ?_
  split
  · exact (emptyPage_sameBytes ..).trans (reportEnd_sameBytes ..)
  · split
    · exact plateLost_sameBytes ..
    · exact .refl _

theorem markLost_sameBytes (g : Nat) (s : State) : SameBytes s (markLost g s) := sameBytes_ite (.refl s) ⟨rfl, rfl⟩

/-- A granule is lost and a frame is retired, whatever else has changed. -/
theorem frameLost_sameBytes {s u : State} (g f : Nat) (h : SameBytes s u) : SameBytes s (retireFrame f (markLost g u)) :=
  (h.trans (markLost_sameBytes g u)).trans (retireFrame_sameBytes ..)

theorem granuleFail_sameBytes (mac : Bool) (addr : Nat) (s : State) : SameBytes s (granuleFail mac addr s) :=
  sameBytes_ite ((lpcUpd_sameBytes ..).trans (noteErr_sameBytes ..)) ((lpcUpd_sameBytes ..).trans (noteErr_sameBytes ..))

theorem granuleLost_sameBytes (mac : Bool) (addr : Nat) (s : State) : SameBytes s (granuleLost mac addr s) :=
  frameLost_sameBytes _ _ (granuleFail_sameBytes mac addr s)

theorem slugLost_sameBytes (crc : Bool) (pl : Place) (s : State) : SameBytes s (slugLost crc pl s) := by
  refine SameBytes.trans (.of_frame (slugFailure_changes (Q := [.dev, .codec]) rfl (.refl _ s)) rfl : SameBytes s (slugFailure crc s)) ?_
  unfold slugLost
  dsimp only
  split
  · exact .refl _
  · split
    · exact plateLost_sameBytes ..
    · exact .refl _
  · split
    · exact retireFrame_sameBytes ..
    · split
      · exact plateLost_sameBytes ..
      · exact .refl _

theorem sliceLineFail_sameBytes (r off : Nat) (s : State) : SameBytes s (sliceLineFail r off s).2 := by
  unfold sliceLineFail
  split
  · exact .refl s
  · split
    · split
      · exact .refl s
      · dsimp only
        split
        · exact frameLost_sameBytes _ _ ⟨rfl, rfl⟩
        · exact ⟨rfl, rfl⟩
    · split
      · dsimp only
        split
        · exact plateLost_sameBytes ..
        · exact .refl s
      · exact (show SameBytes s _ from ⟨rfl, rfl⟩).trans (addRepair_sameBytes _ _)

/-- Whatever the reads of a command met, the bytes stay (07 R184, R191). -/
theorem readOutcome_sameBytes (o : ReadOutcome) (s : State) : SameBytes s (readOutcome o s).2 := by
  cases o with
  | good => exact .refl s
  | clusterEcc k => exact .refl s
  | corrected ch => exact lpcUpd_sameBytes ..
  | uncorrectable a =>
    unfold readOutcome
    dsimp only
    split
    · exact granuleLost_sameBytes ..
    · exact .refl s
  | macFail a =>
    unfold readOutcome
    dsimp only
    split
    · exact granuleLost_sameBytes ..
    · exact .refl s
  | sliceLine r off => exact sliceLineFail_sameBytes ..
  | slug crc a => exact slugLost_sameBytes ..

/-! ### The reads of a command -/

theorem homeLoad_sameBytes (h : TrayHdr) (reads : ReadOutcome) (s : State) : SameBytes s (homeLoad h reads s).2.2 := by
  refine (readOutcome_sameBytes (seenOutcome s (homePlace s h) h.len.toNat reads) s).trans ?_
  unfold homeLoad
  generalize readOutcome (seenOutcome s (homePlace s h) h.len.toNat reads) s = r
  obtain ⟨ok, u⟩ := r
  dsimp only
  split
  · exact .refl u
  · split
    · exact partLoad_sameBytes ..
    · split
      · exact countGranules_sameBytes ..
      · split
        · dsimp only
          exact sameBytes_ite (bumpFree_sameBytes u) (.refl u)
        · exact bumpFree_sameBytes u

theorem trayIssue_sameBytes (d : Nat) (r : TrayReq) (why : TrayWhy) (s : State) : SameBytes s (trayIssue d r why s) :=
  .of_frame (trayIssue_changes (Q := [.near, .links]) rfl (.refl _ s)) rfl

theorem countRead_sameBytes (n p space : Nat) (s : State) (r : Nat × Nat) : SameBytes s (countRead n p space s r) := by
  unfold countRead
  split
  · exact (xbarToSlice_sameBytes ..).trans (sameBytes_ite (bumpFree_sameBytes _) (.refl _))
  · exact (xbarPass_sameBytes ..).trans (partLoad_sameBytes ..)
  · exact (xbarPass_sameBytes ..).trans (countGranules_sameBytes ..)
  · exact (xbarPass_sameBytes ..).trans (foldl_sameBytes (fun u q => sameBytes_ite (homeLoad_sameBytes ..) (trayIssue_sameBytes ..)) _ _)
  · exact .refl s

theorem countReads_sameBytes (n p : Nat) (rs : List (Nat × (Nat × Nat))) (s : State) :
    SameBytes s (rs.foldl (fun s q => countRead n p q.1 s q.2) s) := foldl_sameBytes (fun _ _ => countRead_sameBytes ..) rs s

end Sys2Proof.Machine
end

section
/-!
A press command that passes its checks and whose lines are there enters the press (03 R70, R74): LOAD, STORE, STREAM, the engine
commands, SEND, RECV and ATTEND.
-/

namespace Sys2Proof.Machine

/-! ### Leaving FETCH -/

/-- The channels once the credits that a command holds are taken (03 R84). -/
def creditsHeld (o : Option (Nat × Nat)) (chans : Tab Chan) : Tab Chan :=
  match o with
  | some (ch, k) => Tab.mod chans ch (fun c => { c with credits := c.credits - k })
  | none => chans

/-- The state once the credits that a command of cluster `n` holds are taken. -/
def holdCredits (n : Nat) (o : Option (Nat × Nat)) (s : State) : State :=
  match o with
  | some (ch, k) => channelUpd n ch (fun c => { c with credits := c.credits - k }) s
  | none => s

theorem holdCredits_same (n : Nat) (o : Option (Nat × Nat)) (s : State) :
    cluster (holdCredits n o s) n = { cluster s n with chans := creditsHeld o (cluster s n).chans } := by
  unfold holdCredits creditsHeld
  split
  · exact cluster_clusterUpd_same ..
  · rfl

theorem holdCredits_other {n m : Nat} (o : Option (Nat × Nat)) (s : State) (h : m ≠ n) : cluster (holdCredits n o s) m = cluster s m := by
  unfold holdCredits
  split
  · exact cluster_clusterUpd_other _ _ _ _ h
  · rfl

theorem holdCredits_sameBytes (n : Nat) (o : Option (Nat × Nat)) (s : State) : SameBytes s (holdCredits n o s) := by
  unfold holdCredits
  split <;> exact ⟨rfl, rfl⟩

/-- The effects of a command that leaves FETCH: an unchained accumulator is cleared first, the bytes are metered last. -/
def fetchedEffs (n : Nat) (flags : BitVec 8) (r : Run) (reads : List (Nat × (Nat × Nat))) (taken : List Eff) (s : State) : List Eff :=
  (if (cluster s n).chain then [] else [Eff.accZ]) ++ taken ++ r.effs
    ++ (if flDigest flags then r.digs.map (fun g => Eff.dig g.row (digestRow g)) else [])
    ++ [meterAll s (reads ++ r.reads ++ writtenRanges r.effs)]

/-- The cluster with one more command in its press. -/
def joined (op : POp) (flags : BitVec 8) (d : Desc) (r : Run) (effs : List Eff) (slots : List Nat) (x : Cluster) : Cluster :=
  { issued op.opcode x with
    chain := flChain flags, caseKept := caseWrites r.effs ++ keptIn x.caseKept (spans x)
    press := x.press ++ [{ index := x.pc, opcode := op.opcode, flags := flags, maxBeats := d.maxBeats, effs := effs
                           tables := slots ++ r.slots.filter (fun k => !slots.contains k) }] }

section
variable (n : Nat) (op : POp) (flags : BitVec 8) (d : Desc) (r : Run) (reads : List (Nat × (Nat × Nat))) (taken : List Eff)
  (slots : List Nat) (s : State)

/-- Entering the press: the reads are counted, the command joins the press, and its credits are taken. -/
theorem enter_run : enter n op flags d (some r) reads taken slots s
    = bumpFree (holdCredits n r.credits (clusterUpd n (joined op flags d r (fetchedEffs n flags r reads taken s) slots)
        ((reads ++ r.reads).foldl (fun u q => countRead n ((partOfRegion s (n / 16)).getD 0) q.1 u q.2) s))) := rfl

/-- The cluster after a command of its own has entered the press. -/
theorem enter_same : cluster (enter n op flags d (some r) reads taken slots s) n
    = let y := joined op flags d r (fetchedEffs n flags r reads taken s) slots (cluster s n)
      { y with chans := creditsHeld r.credits y.chans } := by
  rw [enter_run, cluster_congr (bumpFree_clusters _), holdCredits_same, cluster_clusterUpd_same, cluster_congr (countReads_clusters ..)]

theorem enter_other {m : Nat} (h : m ≠ n) : cluster (enter n op flags d (some r) reads taken slots s) m = cluster s m := by
  rw [enter_run, cluster_congr (bumpFree_clusters _), holdCredits_other _ _ h, cluster_clusterUpd_other _ _ _ _ h,
    cluster_congr (countReads_clusters ..)]

theorem enter_sameBytes : SameBytes s (enter n op flags d (some r) reads taken slots s) :=
  (countReads_sameBytes ..).trans (SameBytes.trans (.of_tier (clusterUpd_tier ..)) ((holdCredits_sameBytes ..).trans (bumpFree_sameBytes _)))

theorem mem_fetchedEffs {e : Eff} (h : e ∈ r.effs) : e ∈ fetchedEffs n flags r reads taken s := by
  simp [fetchedEffs, h]

end

/-- A command that has entered the press with the effects of its run (03 R70). -/
theorem enter_entered (op : POp) (c : PressCmd) (d : Desc) (r : Run) (reads : List (Nat × (Nat × Nat))) (taken : List Eff)
    (slots : List Nat) (s : State) : Entered op c d r s (enter c.cl.toNat op c.flags d (some r) reads taken slots s) := by
  have hs := enter_same c.cl.toNat op c.flags d r reads taken slots s
  obtain ⟨ht1, hsl⟩ := enter_sameBytes c.cl.toNat op c.flags d r reads taken slots s
  unfold Entered
  dsimp only
  rw [hs]
  exact ⟨⟨_, rfl, rfl, rfl, rfl, rfl, fun e he => mem_fetchedEffs _ _ _ _ _ _ he⟩, rfl, rfl, rfl, rfl, rfl, rfl, rfl, rfl, rfl, ht1, hsl,
    fun m hm => enter_other _ _ _ _ _ _ _ _ _ hm⟩

/-! ### A press command whose checks pass -/

/-- What `pressRun` says of a command: it can issue, its descriptor passes, its lines are there, its beats suffice, it runs, and what
it reads is whole (03 R74). -/
theorem pressRun_eq_some {op : POp} {c : PressCmd} {s : State} {d : Desc} {r : Run} (h : pressRun op c s = some (d, r)) :
    let n := c.cl.toNat
    let v := viewOf n s
    let p := (partOfRegion s (n / 16)).getD 0
    ∃ beats gs left reads taken, (!canIssue s n || decide (4 ≤ (cluster s n).press.length)) = false
      ∧ issueCheck op c v = .inr (d, beats) ∧ fetchAll v n p (op.fetched d) c.remote = .ok (gs, left, reads, taken)
      ∧ ¬ d.maxBeats < beats + slugBeats op d (op.pages v p d) (gs.map (fun g => g.raw.length / 2048)) beats
      ∧ op.run { v := v, n := n, p := p, flags := c.flags, d := d, remote := left } gs = .run r
      ∧ rangesOutcome s p (reads ++ r.reads ++ mergeRanges (writtenRanges r.effs)) c.reads = .good := by
  unfold pressRun at h
  dsimp only at h ⊢
  split at h
  · simp at h
  · next hi =>
    split at h
    · simp at h
    · next d0 beats hc =>
      split at h
      · simp at h
      · next gs left reads taken hf =>
        split at h
        · simp at h
        · next hb =>
          split at h
          · next r0 hr =>
            split at h
            · next hg =>
              obtain ⟨rfl, rfl⟩ := Prod.mk.inj (Option.some.inj h)
              exact ⟨beats, gs, left, reads, taken, Bool.eq_false_iff.2 hi, hc, hf, hb, hr, hg⟩
            · simp at h
          · simp at h

/-- Such a command enters the press. -/
theorem pressIssue_runs {op : POp} {c : PressCmd} {s : State} {d : Desc} {r : Run} (hreads : c.reads = .good)
    (h : pressRun op c s = some (d, r)) : ∃ reads taken slots,
      pressIssue op c s = enter c.cl.toNat op c.flags d (some r) reads taken slots s := by
  obtain ⟨beats, gs, left, reads, taken, hi, hc, hf, hb, hr, hg⟩ := pressRun_eq_some h
  have hv : countEcc c.cl.toNat c.reads s = s := by rw [hreads]; rfl
  refine ⟨reads, taken, slotsNamed (op.fetched d) gs, ?_⟩
  unfold pressIssue
  dsimp only
  rw [hi, if_neg Bool.false_ne_true, hv, hc]
  dsimp only
  rw [hf]
  dsimp only
  rw [if_neg hb, hr]
  unfold pressEnter
  dsimp only
  rw [hg]
  rfl

/-- The shape of the statements about press commands: an instruction that issues a press command enters the press. -/
theorem enters {op : POp} {c : PressCmd} {s : State} (hreads : c.reads = .good) {o : Out} (ho : o = .next (pressIssue op c s)) (d : Desc)
    (r : Run) (h : pressRun op c s = some (d, r)) :
    ∃ t, o = .next t ∧ Entered op c d r s t ∧ (cluster t c.cl.toNat).lastOp = op.opcode := by
  obtain ⟨reads, taken, slots, he⟩ := pressIssue_runs hreads h
  have ht := enter_entered op c d r reads taken slots s
  have ⟨_, hl, _⟩ := ht
  exact ⟨_, ho.trans (congrArg _ he), ht, hl⟩

/-- Settles O16. -/
theorem dataMovesEnterThePress : Obligations.DataMovesEnterThePress := by
  unfold Obligations.DataMovesEnterThePress
  intro c s hreads
  exact ⟨enters hreads rfl, enters hreads rfl, enters hreads rfl, enters hreads rfl⟩

/-- Settles O17. -/
theorem engineCommandsEnterThePress : Obligations.EngineCommandsEnterThePress := by
  unfold Obligations.EngineCommandsEnterThePress
  intro c s hreads
  exact ⟨enters hreads rfl, enters hreads rfl, enters hreads rfl, enters hreads rfl, enters hreads rfl, enters hreads rfl,
    enters hreads rfl, enters hreads rfl⟩

/-! ### SEND, RECV and ATTEND -/

/-- A value that a table finds is in it. -/
theorem Tab.mem_of_find {V : Type} {t : Tab V} {k : Nat} {v : V} (h : Tab.find t k = some v) : (k, v) ∈ t := by
  induction t with
  | nil => cases h
  | cons e rest ih =>
    obtain ⟨k', v'⟩ := e
    rw [Tab.find] at h
    split at h
    · next hk => exact List.mem_cons.2 (.inl (by rw [hk, Option.some.inj h]))
    · exact List.mem_cons_of_mem _ (ih h)

/-- Nothing is discarded where no channel checks tags (03 R86). -/
theorem discardStale_noTags {n h : Nat} (fuel : Nat) {s : State} (ht : ∀ e ∈ (cluster s n).chans, e.2.entry.tagCheck = false) :
    discardStale n h fuel s = s := by
  cases hk : channel s n h with
  | none => exact discardStale_none fuel hk
  | some k =>
    exact discardStale_untagged fuel hk (ht _ (Tab.mem_of_find hk))

theorem execRecv_noTags {c : PressCmd} {s : State} (ht : ∀ e ∈ (cluster s c.cl.toNat).chans, e.2.entry.tagCheck = false) :
    execRecv c s = .next (pressIssue opRecv c s) := by
  unfold execRecv
  dsimp only
  split
  · rw [discardStale_noTags 65 ht, ite_self]
  · rfl

theorem execAttend_good {c : PressCmd} {s : State} (hreads : c.reads = .good) : execAttend c s = .next (pressIssue (opAttend .good) c s) := by
  unfold execAttend
  rw [hreads]
  rfl

/-- The credits that an entered command holds are taken from its channel (03 R84). -/
theorem enter_credits {n ch m : Nat} (op : POp) (flags : BitVec 8) (d : Desc) {r : Run} (reads : List (Nat × (Nat × Nat)))
    (taken : List Eff) (slots : List Nat) {s : State} {k : Chan} (hr : r.credits = some (ch, m)) (hk : channel s n ch = some k) :
    channel (enter n op flags d (some r) reads taken slots s) n ch = some { k with credits := k.credits - m } := by
  unfold channel at hk ⊢
  rw [enter_same]
  simp only [hr, creditsHeld, Tab.find_mod_same]
  exact congrArg _ hk

/-- Settles O18. -/
theorem channelAndAttendCommandsEnterThePress : Obligations.ChannelAndAttendCommandsEnterThePress := by
  unfold Obligations.ChannelAndAttendCommandsEnterThePress
  intro c s hreads
  refine ⟨fun d r h => ?_, fun d r ht h => enters hreads (execRecv_noTags ht) d r h, enters hreads (execAttend_good hreads)⟩
  obtain ⟨reads, taken, slots, he⟩ := pressIssue_runs hreads h
  obtain ⟨t, ho, ht, hl⟩ := enters hreads (o := exec (.send c) s) rfl d r h
  refine ⟨t, ho, ht, hl, fun ch m hr k hk => ?_⟩
  obtain rfl : pressIssue opSend c s = t := Host.Outcome.next.inj ho
  rw [he]
  exact enter_credits _ _ _ _ _ _ hr hk

end Sys2Proof.Machine
end

section
/-!
COMMAND_COMPLETE of a command whose effects are writes of the cluster's own memories (03 R70, R89; 04 R114).
-/

namespace Sys2Proof.Machine

/-! ### Effects on the cluster's own memories -/

/-- An effect on nothing but the cluster's own case, accumulator and mailbox. -/
def OwnEff (e : Eff) : Prop := e = .accZ ∨ (∃ o bs, e = .caseW o bs ∨ e = .accW o bs ∨ e = .mailW o bs) ∨ e = .meter 0 0 0

/-- What such an effect does to the cluster. -/
def ownEff (x : Cluster) (e : Eff) : Cluster :=
  match e with
  | .accZ => { x with acc := [] }
  | .caseW off bs => caseStore off bs x
  | .accW off bs => { x with acc := Mem.store x.acc off bs }
  | .mailW off bs => { x with mailbox := Mem.store x.mailbox off bs }
  | _ => x

/-- An own effect changes the cluster by `ownEff`, and at its command's completion it does just that. -/
theorem applyMem_own {e : Eff} (h : OwnEff e) (n : Nat) (i : InFlight) (s : State) :
    applyEff n i s e = applyMem n s e ∧ cluster (applyMem n s e) n = ownEff (cluster s n) e
      ∧ ∀ m, m ≠ n → cluster (applyMem n s e) m = cluster s m := by
  have hc : ∀ f : Cluster → Cluster, cluster (clusterUpd n f s) n = f (cluster s n) ∧ ∀ m, m ≠ n → cluster (clusterUpd n f s) m = cluster s m :=
    fun f => ⟨cluster_clusterUpd_same .., fun m hm => cluster_clusterUpd_other _ _ _ _ hm⟩
  obtain rfl | ⟨o, bs, rfl | rfl | rfl⟩ | rfl := h
  · exact ⟨rfl, hc _⟩
  · exact ⟨rfl, hc _⟩
  · exact ⟨rfl, hc _⟩
  · exact ⟨rfl, hc _⟩
  · exact ⟨rfl, rfl, fun _ _ => rfl⟩

/-- The same for a command's effects, in order. -/
theorem applyMem_owns {effs : List Eff} (h : ∀ e ∈ effs, OwnEff e) (n : Nat) (i : InFlight) (s : State) :
    effs.foldl (applyEff n i) s = effs.foldl (applyMem n) s
      ∧ cluster (effs.foldl (applyMem n) s) n = effs.foldl ownEff (cluster s n)
      ∧ ∀ m, m ≠ n → cluster (effs.foldl (applyMem n) s) m = cluster s m := by
  induction effs generalizing s with
  | nil => exact ⟨rfl, rfl, fun _ _ => rfl⟩
  | cons e effs ih =>
    obtain ⟨ha, hs, ho⟩ := applyMem_own (h e List.mem_cons_self) n i s
    obtain ⟨iha, ihs, iho⟩ := ih (fun e he => h e (List.mem_cons_of_mem _ he)) (applyMem n s e)
    refine ⟨?_, ihs.trans (congrArg (List.foldl ownEff · effs) hs), fun m hm => (iho m hm).trans (ho m hm)⟩
    rw [List.foldl_cons, List.foldl_cons, ha, iha]

/-- Own effects write three memories, and what else the cluster holds does not matter to them. -/
theorem ownEffs_memories (effs : List Eff) (x : Cluster) (r : List InFlight) :
    ∃ cs cw a mb, effs.foldl ownEff x = { x with case_ := cs, caseWritten := cw, acc := a, mailbox := mb }
      ∧ effs.foldl ownEff { x with press := r } = { x with case_ := cs, caseWritten := cw, acc := a, mailbox := mb, press := r } := by
  induction effs generalizing x with
  | nil => exact ⟨x.case_, x.caseWritten, x.acc, x.mailbox, rfl, rfl⟩
  | cons e effs ih =>
    have hp : ownEff { x with press := r } e = { ownEff x e with press := r } := by cases e <;> rfl
    have hm : ∃ cs cw a mb, ownEff x e = { x with case_ := cs, caseWritten := cw, acc := a, mailbox := mb } := by
      cases e <;> exact ⟨_, _, _, _, rfl⟩
    obtain ⟨cs, cw, a, mb, he⟩ := hm
    obtain ⟨cs', cw', a', mb', h1, h2⟩ := ih (ownEff x e)
    refine ⟨cs', cw', a', mb', ?_, ?_⟩
    · rw [List.foldl_cons, h1, he]
    · rw [List.foldl_cons, hp, h2, he]

/-! ### The completion -/

/-- The command's beats and its event (03 R89; 04 R114). -/
def tallied (i : InFlight) (beats : Nat) (x : Cluster) : Cluster := { x with
  digSeq := if digested i then x.digSeq + 1 else x.digSeq
  beats := x.beats + BitVec.ofNat 64 beats, itemBeats := x.itemBeats + beats
  events := if flEvent i.flags then x.events + 1 else x.events }

/-- Beats beyond MAX_BEATS are a breach (03 R89). -/
def breaching (n beats : Nat) (i : InFlight) (s : State) : State :=
  if i.maxBeats < beats then
    noteErr 12 n 0x018 (clusterUpd n (fun x => { x with breach := satAdd x.breach (beats - i.maxBeats) }) s)
  else s

/-- The charges of a command (13 R350, R358), and the switch that its command boundary may bring. -/
def charging (n beats : Nat) (rest : List InFlight) (s : State) : State :=
  let s := vtRefresh false s
  let s := match (cluster s n).ctx with
    | some c => chargeVt c beats s
    | none => s
  let s := chargeItem n beats 0 0 0 s
  if rest.isEmpty then rebind n true s else s

theorem commandComplete_eq {n beats : Nat} {s : State} {i : InFlight} {rest : List InFlight} (hp : (cluster s n).press = i :: rest)
    (hh : sendHeld n i s = false) : commandComplete n beats s = charging n beats rest (breaching n beats i
      (clusterUpd n (tallied i beats) (i.effs.foldl (applyEff n i) (clusterUpd n (fun x => { x with press := rest }) s)))) := by
  unfold commandComplete
  rw [hp]
  dsimp only
  rw [hh, if_neg Bool.false_ne_true]
  rfl

theorem breaching_same (n beats : Nat) (i : InFlight) (s : State) : cluster (breaching n beats i s) n = { cluster s n with
    breach := if i.maxBeats < beats then satAdd (cluster s n).breach (beats - i.maxBeats) else (cluster s n).breach } := by
  unfold breaching
  split
  · rw [cluster_congr (noteErr_clusters ..), cluster_clusterUpd_same]
  · rfl

theorem breaching_other {n m : Nat} (beats : Nat) (i : InFlight) (s : State) (h : m ≠ n) :
    cluster (breaching n beats i s) m = cluster s m := by
  unfold breaching
  split
  · rw [cluster_congr (noteErr_clusters ..), cluster_clusterUpd_other _ _ _ _ h]
  · rfl

theorem breaching_err {n beats : Nat} {i : InFlight} {s : State} (h : i.maxBeats < beats) : bit (breaching n beats i s).dev.err 12 = true := by
  unfold breaching
  rw [if_pos h]
  exact bit_noteErr (by decide) ..

/-- The charges touch the scheduler's block only. -/
theorem charging_eq (n beats : Nat) (rest : List InFlight) (s : State) :
    ∃ u, OnlyChanges [.sched] s u ∧ charging n beats rest s = if rest.isEmpty then rebind n true u else u := by
  refine ⟨_, ?_, rfl⟩
  refine chargeItem_changes rfl ?_
  have hv : OnlyChanges [.sched] s (vtRefresh false s) := vtRefresh_changes rfl (.refl _ s)
  split
  · exact chargeVt_changes rfl hv
  · exact hv

theorem charging_rebound (n beats : Nat) (rest : List InFlight) (s : State) : Rebound n s (charging n beats rest s) := by
  obtain ⟨u, hu, he⟩ := charging_eq n beats rest s
  have hc := cluster_congr (hu .clusters rfl)
  obtain ⟨hb, ho⟩ := rebind_rebound n true u
  rw [he]
  split
  · exact ⟨hc n ▸ hb, fun m hm => (ho m hm).trans (hc m)⟩
  · exact ⟨hc n ▸ .refl _, fun m _ => hc m⟩

theorem charging_dev (n beats : Nat) (rest : List InFlight) (s : State) : (charging n beats rest s).dev = s.dev := by
  obtain ⟨u, hu, he⟩ := charging_eq n beats rest s
  have hr : (rebind n true u).dev = u.dev := rebind_changes (Q := [.clusters, .sched, .req]) rfl (.refl _ u) .dev rfl
  rw [he]
  split
  · exact hr.trans (hu .dev rfl)
  · exact hu .dev rfl

/-- A command whose effects are own ones is no SEND, and waits for no append (10 R278). -/
theorem sendHeld_own {n : Nat} {i : InFlight} {s : State} (h : ∀ e ∈ i.effs, OwnEff e) : sendHeld n i s = false := by
  unfold sendHeld
  dsimp only
  rw [List.any_eq_false.2, Bool.false_and]
  intro e he
  obtain rfl | ⟨o, bs, rfl | rfl | rfl⟩ | rfl := h e he <;> exact Bool.false_ne_true

/-- Settles O19. -/
theorem completionAppliesEffects : Obligations.CompletionAppliesEffects := by
  unfold Obligations.CompletionAppliesEffects
  intro cl beats s i rest n x hp h
  refine ⟨_, congrArg Host.Outcome.next (commandComplete_eq (beats := beats) hp (sendHeld_own h)), ?_⟩
  obtain ⟨hfold, hn, ho⟩ := applyMem_owns h n i (clusterUpd n (fun x => { x with press := rest }) s)
  obtain ⟨-, hm, -⟩ := applyMem_owns h n i s
  rw [hfold]
  rw [cluster_clusterUpd_same] at hn
  generalize hu : List.foldl (applyMem n) (clusterUpd n (fun x => { x with press := rest }) s) i.effs = u at hn ho ⊢
  obtain ⟨cs, cw, a, mb, hx, hy⟩ := ownEffs_memories i.effs x rest
  obtain ⟨⟨st, ctx, dv, sw, mv, hb⟩, hother⟩ := charging_rebound n beats rest (breaching n beats i (clusterUpd n (tallied i beats) u))
  rw [breaching_same, cluster_clusterUpd_same, hn.trans hy] at hb
  dsimp only
  rw [hb, hm.trans hx]
  refine ⟨rfl, rfl, rfl, rfl, rfl, rfl, rfl, rfl, fun hlt => ?_, rfl, rfl, fun k hk => ?_⟩
  · rw [charging_dev]
    exact breaching_err hlt
  · rw [hother k hk, breaching_other _ _ _ hk, cluster_clusterUpd_other _ _ _ _ hk, ho k hk, cluster_clusterUpd_other _ _ _ _ hk]

end Sys2Proof.Machine
end

section
/-!
The fault of a cluster, the end of a segment, and the move of a rank to its region's spare (03 R67, R90, R91; 04 R115 to R117; 14 R367,
R368, R376).
-/

namespace Sys2Proof.Machine

/-- A frame within a wider one. -/
theorem OnlyChanges.wider {ps qs : List Block} {s t : State} (h : OnlyChanges ps s t) (hq : subParts ps qs = true) : OnlyChanges qs s t := by
  intro p hp
  refine h p (Bool.eq_false_iff.2 fun hc => ?_)
  rw [subParts_mem hq hc] at hp
  cases hp

/-! ### CLUSTER_FAULT (03 R91; 17 R448) -/

/-- What a fault leaves of its cluster, its cause aside (03 R91). -/
def faulted (x : Cluster) : Cluster := { endSpans x with
  press := [], state := 6, wait := .none, moving := none, item := none, ended := some .integrity, done := endsWith (codeOf .integrity) x }

/-- CLUSTER_FAULT holds a cause and the command index. -/
def causeNoted (cause : Nat) (x : Cluster) : Cluster := { x with faultIndex := BitVec.ofNat 14 x.pc, faultCause := BitVec.ofNat 4 cause }

theorem clusterFault_eq (n cause : Nat) (s : State) :
    clusterFault n cause s = clusterUpd n faulted (freed n (clusterCause n cause (itemLost n s))) := rfl

theorem itemLost_clusters (n : Nat) (s : State) : (itemLost n s).clusters = s.clusters :=
  itemLost_changes (Q := [.req, .rma, .links, .out]) rfl (.refl _ s) .clusters rfl

theorem clusterCause_clusters (n cause : Nat) (s : State) :
    (clusterCause n cause s).clusters = (clusterUpd n (causeNoted cause) s).clusters := noteErr_clusters ..

theorem clusterFault_same (n cause : Nat) (s : State) : cluster (clusterFault n cause s) n = faulted (causeNoted cause (cluster s n)) := by
  rw [clusterFault_eq, cluster_clusterUpd_same, cluster_congr (freed_clusters ..), cluster_congr (clusterCause_clusters ..),
    cluster_clusterUpd_same, cluster_congr (itemLost_clusters ..)]

theorem clusterFault_other {n k : Nat} (cause : Nat) (s : State) (h : k ≠ n) : cluster (clusterFault n cause s) k = cluster s k := by
  rw [clusterFault_eq, cluster_clusterUpd_other _ _ _ _ h, cluster_congr (freed_clusters ..), cluster_congr (clusterCause_clusters ..),
    cluster_clusterUpd_other _ _ _ _ h, cluster_congr (itemLost_clusters ..)]

theorem clusterFault_err (n cause : Nat) (s : State) : bit (clusterFault n cause s).dev.err 12 = true := by
  have hd : (clusterFault n cause s).dev = (clusterCause n cause (itemLost n s)).dev := by
    rw [clusterFault_eq, clusterUpd_dev, freed]
    split
    · exact itemGone_dev ..
    · rfl
  rw [hd]
  exact bit_noteErr (by decide) ..

/-! ### SEGMENT_END (04 R115 to R117; 14 R376) -/

/-- A cluster gives its item of a segment up. -/
def givesUp (g : SegmentRef) (x : Cluster) : Cluster := { x with done := x.done.eraseP (ofSegment g) }

theorem givesUp_other (g : SegmentRef) {k : Nat} (cs : List ClusterId) (s : State) (h : ∀ c ∈ cs, c.toNat ≠ k) :
    cluster (cs.foldl (fun s n => clusterUpd n.toNat (givesUp g) s) s) k = cluster s k := by
  induction cs generalizing s with
  | nil => rfl
  | cons c cs ih =>
    rw [List.foldl_cons, ih _ (fun c hc => h c (List.mem_cons_of_mem _ hc)),
      cluster_clusterUpd_other _ _ _ _ (h c List.mem_cons_self).symm]

theorem givesUp_each (g : SegmentRef) {cs : List ClusterId} (hn : cs.Nodup) (s : State) {k : ClusterId} (hk : k ∈ cs) :
    cluster (cs.foldl (fun s n => clusterUpd n.toNat (givesUp g) s) s) k.toNat = givesUp g (cluster s k.toNat) := by
  induction cs generalizing s with
  | nil => cases hk
  | cons c cs ih =>
    obtain ⟨hc, hn⟩ := List.nodup_cons.1 hn
    rw [List.foldl_cons]
    obtain rfl | hk := List.mem_cons.1 hk
    · rw [givesUp_other g cs _ (fun c' hc' he => hc (by rwa [← BitVec.eq_of_toNat_eq he])), cluster_clusterUpd_same]
    · rw [ih hn _ hk, cluster_clusterUpd_other _ _ _ _ (fun he => hc (by rwa [← BitVec.eq_of_toNat_eq he]))]

/-- The judgement of a segment's rows (04 R116; 14 R376). -/
def segmentJudged (g : SegmentRef) (es : List Ended) (m : NumericsSect) (s : State) (w : RowRef) : State :=
  match failureOf es w.req with
  | some c => segmentFailed g w.req c s
  | none => recUpd w.req (segmentRows g es m w) s

theorem segmentJudged_clusters (g : SegmentRef) (es : List Ended) (m : NumericsSect) (rows : List RowRef) (s : State) :
    (rows.foldl (segmentJudged g es m) s).clusters = s.clusters := by
  refine (foldl_changes (ps := [.req, .rma, .links, .out]) (.refl _ s) (fun u w hu => ?_)) .clusters rfl
  unfold segmentJudged
  split
  · exact segmentFailed_changes rfl hu
  · exact recUpd_changes rfl hu

/-- The end of a segment whose items have all ended: its clusters give their items up, and its rows are judged. -/
theorem segmentEnd_eq {g : SegmentRef} {s : State} {es : List Ended} (h : segmentItems s g = some es) :
    segmentEnd g s = (let u := g.clusters.foldl (fun s n => clusterUpd n.toNat (givesUp g) s) s
      match u.forme.committed.bind (fun c => Tab.find c.numerics g.part.toNat) with
      | none => u
      | some m => g.rows.foldl (segmentJudged g es m) u) := by
  unfold segmentEnd
  rw [h]
  rfl

theorem segmentEnd_clusters {g : SegmentRef} {s : State} {es : List Ended} (h : segmentItems s g = some es) :
    (segmentEnd g s).clusters = (g.clusters.foldl (fun s n => clusterUpd n.toNat (givesUp g) s) s).clusters := by
  rw [segmentEnd_eq h]
  dsimp only
  split
  · rfl
  · exact segmentJudged_clusters ..

/-- The clusters' changes leave the rest of the device. -/
theorem givesUp_changes (g : SegmentRef) (cs : List ClusterId) (s : State) :
    OnlyChanges [.clusters] s (cs.foldl (fun s n => clusterUpd n.toNat (givesUp g) s) s) :=
  foldl_changes (.refl _ s) (fun _ _ hu => clusterUpd_changes rfl hu)

/-- The sums of digests change LD alone. -/
theorem ldRows_eq (layer : Nat) (es : List Ended) (rows pos : List Nat) (r : Rec) :
    ∃ ld, ldRows layer es rows pos r = { r with ld := ld } := by
  unfold ldRows
  induction rows.zip pos generalizing r with
  | nil => exact ⟨r.ld, rfl⟩
  | cons e l ih =>
    obtain ⟨ld, h⟩ := ih (ldAdd layer e.2 (rowDigest es e.1) r)
    exact ⟨ld, h⟩

/-- The row positions that a segment names for a request. -/
def positionsOf (g : SegmentRef) (q : ReqId) : List Nat := ((g.positions.find? (fun e => e.1 == q)).map (fun e => e.2)).getD []

section
variable {g : SegmentRef} {es : List Ended} {m : NumericsSect} {w : RowRef} {r : Rec}

/-- A record's re-runs but the one that has ended. -/
def rerunsLeft (g : SegmentRef) (r : Rec) : List (Nat × Nat × Nat) :=
  r.reruns.filter (fun e => !(e.1 == g.layer && e.2.1 == g.segment && e.2.2 == g.level))

/-- Too many saturations on a first run of a widened layer: a re-run at level 1 follows (04 R117). -/
theorem segmentRows_again (h0 : g.level = 0) (hx : overThreshold m g.layer (satSums es w.rows) = true) (hw : widenOn m g.layer = true) :
    segmentRows g es m w r = { r with reruns := rerunsLeft g r ++ [(g.layer, g.segment, 1)] } := by
  unfold segmentRows
  dsimp only
  rw [if_pos (by simp [h0, hx, hw]), rerunsLeft, h0]

/-- Saturations within the threshold: the run is final (04 R116; 14 R376). -/
theorem segmentRows_final (hx : ¬ overThreshold m g.layer (satSums es w.rows) = true) : ∃ wd fl ev,
    segmentRows g es m w r = { r with
      reruns := rerunsLeft g r
      ld := (ldRows g.layer es w.rows (positionsOf g w.req) r).ld, widened := wd, flags := fl
      stepEvents := r.stepEvents ++ ev ++ fallbackEvents g r es (positionsOf g w.req) } := by
  obtain ⟨ld, hl⟩ := ldRows_eq g.layer es w.rows (positionsOf g w.req) r
  unfold positionsOf at hl ⊢
  unfold segmentRows
  dsimp only
  rw [if_neg (by simp [hx]), hl]
  exact ⟨_, _, _, rfl⟩

/-- Whatever a segment's rows come to, the record is the same request's. -/
theorem segmentRows_keeps : (segmentRows g es m w r).reqId = r.reqId ∧ (segmentRows g es m w r).state = r.state := by
  unfold segmentRows
  dsimp only
  split
  · exact ⟨rfl, rfl⟩
  · obtain ⟨ld, hl⟩ := ldRows_eq g.layer es w.rows (((g.positions.find? (fun e => e.1 == w.req)).map (fun e => e.2)).getD []) r
    rw [hl]
    exact ⟨rfl, rfl⟩

theorem not_mem_rerunsLeft : (g.layer, g.segment, g.level) ∉ rerunsLeft g r := by simp [rerunsLeft]

/-- The record of a segment's one request, none of whose items failed. -/
theorem segmentEnd_record {s : State} (h : segmentItems s g = some es)
    (hm : s.forme.committed.bind (fun c => Tab.find c.numerics g.part.toNat) = some m) (hw : g.rows = [w])
    (hf : failureOf es w.req = none) (hr : recFind s w.req = some r) :
    recFind (segmentEnd g s) w.req = some (segmentRows g es m w r) := by
  have hu := givesUp_changes g g.clusters s
  obtain ⟨hq, hs⟩ := segmentRows_keeps (g := g) (es := es) (m := m) (w := w) (r := r)
  obtain ⟨i, hi⟩ := recFind_eq_some.1 hr
  obtain ⟨hid, h0⟩ := recEntry_spec hi
  rw [segmentEnd_eq h]
  dsimp only
  rw [hu .forme rfl, hm, hw]
  change recFind (segmentJudged g es m _ w) w.req = _
  unfold segmentJudged
  rw [hf]
  exact recFind_recUpd ((recFind_congr (congrArg Req.recs (hu .req rfl)) _).trans hr) (hq.trans hid) (hs ▸ h0)

end

/-! ### RANK_MOVE_TO_SPARE (03 R90; 14 R367, R368) -/

/-- The items posted for the context of a cluster wait again with firmware (13 R351). -/
def itemsBack (n : Nat) (s : State) : State :=
  match (cluster s n).ctx with
  | some c => takeBack n c (cluster s n) s
  | none => s

/-- The tables name position `k` for what they named `n` for (03 R90; 14 R368). -/
def rankMoved (g p n k : Nat) (s : State) : State := { s with
  repro := { s.repro with
    lmap := Tab.put s.repro.lmap (g * 16 + p) (k % 16), spare := s.repro.spare.filter (fun r => r != g), subst := satInc s.repro.subst }
  sched := { s.sched with
    saves := rekeyTab 64 n k s.sched.saves, waiting := rekeyTab 64 n k s.sched.waiting
    rings := s.sched.rings.map (fun e => (e.1, e.2.map (fun m => (if m.1 = n then k else m.1, m.2)))) }
  near := { s.near with returned := rekeyTab 32 n k s.near.returned, received := rekeyTab 32 n k s.near.received }
  maint := { s.maint with claimWait := s.maint.claimWait.filter (fun c => c != n) } }

/-- The spare starts with the stream of the position it serves now, and with what its channels and counters held before. -/
def spareStarted (k : Nat) (old : Cluster) (s : State) : State :=
  match s.forme.committed.bind (fun c => programOf s c k) with
  | some q => clusterUpd k (fun x => { startCluster q x with
      chans := old.chans, mailbox := Mem.clear old.mailbox 0 0x1000
      beats := old.beats, breach := old.breach, ecc := old.ecc, stale := old.stale }) s
  | none => s

/-- A cluster whose rank has moved. -/
def rankless (x : Cluster) : Cluster := { idleCluster 8 x with state := 8, done := x.done }

theorem moveRank_eq (g p n k : Nat) (s : State) : moveRank g p n k s
    = rebind k false (clusterUpd n rankless (spareStarted k (cluster s n) (rankMoved g p n k (itemsBack n s)))) := rfl

theorem itemsBack_changes (n : Nat) (s : State) : OnlyChanges [.sched] s (itemsBack n s) := by
  unfold itemsBack
  split
  · exact takeBack_changes rfl (.refl _ s)
  · exact .refl _ s

theorem spareStarted_changes (k : Nat) (old : Cluster) (s : State) : OnlyChanges [.clusters] s (spareStarted k old s) := by
  unfold spareStarted
  split
  · exact clusterUpd_only _ _ s
  · exact .refl _ s

theorem spareStarted_other {k j : Nat} (old : Cluster) (s : State) (h : j ≠ k) : cluster (spareStarted k old s) j = cluster s j := by
  unfold spareStarted
  split
  · exact cluster_clusterUpd_other _ _ _ _ h
  · rfl

section
variable {g p n k : Nat} {s : State}

/-- Before the spare is started, the clusters are as they were. -/
theorem rankMoved_cluster (j : Nat) : cluster (rankMoved g p n k (itemsBack n s)) j = cluster s j :=
  cluster_congr (itemsBack_changes n s .clusters rfl) j

theorem moveRank_other {j : Nat} (hn : j ≠ n) (hk : j ≠ k) : cluster (moveRank g p n k s) j = cluster s j := by
  rw [moveRank_eq, (rebind_rebound k false _).2 j hk, cluster_clusterUpd_other _ _ _ _ hn, spareStarted_other _ _ hk, rankMoved_cluster]

theorem moveRank_old (h : n ≠ k) : cluster (moveRank g p n k s) n = rankless (cluster s n) := by
  rw [moveRank_eq, (rebind_rebound k false _).2 n h, cluster_clusterUpd_same, spareStarted_other _ _ h, rankMoved_cluster]

theorem moveRank_frame (b : Block) (h : [Block.clusters, .sched, .req].contains b = false) :
    b.same (rankMoved g p n k (itemsBack n s)) (moveRank g p n k s) :=
  (rebind_changes rfl (clusterUpd_changes rfl ((spareStarted_changes k (cluster s n) _).wider rfl)) : OnlyChanges [.clusters, .sched, .req] _ _) b h

theorem moveRank_repro : (moveRank g p n k s).repro = { s.repro with
    lmap := Tab.put s.repro.lmap (g * 16 + p) (k % 16), spare := s.repro.spare.filter (fun r => r != g), subst := satInc s.repro.subst } := by
  have h : (moveRank g p n k s).repro = (rankMoved g p n k (itemsBack n s)).repro := moveRank_frame .repro rfl
  have hb : (itemsBack n s).repro = s.repro := itemsBack_changes n s .repro rfl
  rw [h, rankMoved, hb]

theorem moveRank_claimWait : (moveRank g p n k s).maint.claimWait = s.maint.claimWait.filter (fun c => c != n) := by
  have h : (moveRank g p n k s).maint = (rankMoved g p n k (itemsBack n s)).maint := moveRank_frame .maint rfl
  have hb : (itemsBack n s).maint = s.maint := itemsBack_changes n s .maint rfl
  rw [h, rankMoved, hb]

/-- A FAULTED rank at a checkpoint of a region with a spare moves to it. -/
theorem execRankMoveToSpare_faulted {r : RegionId} {pos : BitVec 4} {q : Nat} (hq : Tab.find s.repro.lmap (r.toNat * 16 + pos.toNat) = some q)
    (hg : fullGeom s = false) (hs : s.repro.spare.contains r.toNat = true) (h6 : (cluster s (16 * r.toNat + q)).state = 6)
    (hc : checkpoint s (16 * r.toNat + q) = true) :
    execRankMoveToSpare r pos s = .next (moveRank r.toNat pos.toNat (16 * r.toNat + q) (16 * r.toNat + 15) s) := by
  unfold execRankMoveToSpare
  dsimp only
  rw [hq]
  dsimp only
  rw [if_pos (by simp [hg, List.contains_iff_mem.1 hs, h6, hc])]
  rfl

end
end Sys2Proof.Machine
end

section
/-!
The next chunk of an open stream arrives (03 R80, R81); and the statement about the commands of a cluster's faults, chunks and segments.
-/

namespace Sys2Proof.Machine

/-! ### STREAM_CHUNK_ARRIVAL (03 R80, R81) -/

/-- A cluster whose FETCH has granted lines: the case and the streams but for their grants stay. -/
def Granted (x y : Cluster) : Prop :=
  y.case_ = x.case_ ∧ ∀ id t, Tab.find x.streams id = some t → ∃ a, Tab.find y.streams id = some { t with asked := a }

theorem Granted.refl (x : Cluster) : Granted x x := ⟨rfl, fun _ t h => ⟨t.asked, h⟩⟩

theorem Granted.trans {x y z : Cluster} (h : Granted x y) (k : Granted y z) : Granted x z := by
  obtain ⟨hc, hs⟩ := h
  obtain ⟨kc, ks⟩ := k
  refine ⟨kc.trans hc, fun id t ht => ?_⟩
  obtain ⟨a, ha⟩ := hs id t ht
  obtain ⟨b, hb⟩ := ks id _ ha
  exact ⟨b, hb⟩

/-- One more line of a stream is granted. -/
theorem granted_one (x : Cluster) (i : Nat) :
    Granted x { x with lastGrant := i, streams := Tab.mod x.streams i (fun t => { t with asked := t.asked + 1 }) } := by
  refine ⟨rfl, fun id t ht => ?_⟩
  by_cases h : id = i
  · subst h
    refine ⟨t.asked + 1, ?_⟩
    dsimp only
    rw [Tab.find_mod_same, ht]
    rfl
  · refine ⟨t.asked, ?_⟩
    dsimp only
    rw [Tab.find_mod_other _ _ _ _ h, ht]

theorem grantLines_granted (fuel : Nat) (x : Cluster) : Granted x (grantLines fuel x) := by
  induction fuel generalizing x with
  | zero => exact .refl x
  | succ fuel ih =>
    unfold grantLines
    split
    · exact .refl x
    · split
      · exact .refl x
      · exact (granted_one x _).trans (ih _)

/-- The cluster once a chunk is in its ring slot and visible (03 R80). -/
def chunkVisible (id : Nat) (t : Stream) (slot : Nat) (bs : List Byte) (x : Cluster) : Cluster :=
  grantLines 512 { caseStore slot bs x with
    streams := Tab.put x.streams id { t with
      next := t.next + 1, visible := t.visible ++ [bs], left := t.left - chunkElems bs
      asked := max t.asked ((t.next + 1) * chunkLines t) }
    caseKept := (slot, slot + bs.length) :: x.caseKept }

theorem chunkVisible_streams (id : Nat) (t : Stream) (slot : Nat) (bs : List Byte) (x : Cluster) :
    (chunkVisible id t slot bs x).case_ = Mem.store x.case_ slot bs
      ∧ ∃ l a, Tab.find (chunkVisible id t slot bs x).streams id = some { t with
          next := t.next + 1, visible := t.visible ++ [bs], left := l, asked := a } := by
  obtain ⟨hc, hs⟩ := grantLines_granted 512 { caseStore slot bs x with
    streams := Tab.put x.streams id { t with
      next := t.next + 1, visible := t.visible ++ [bs], left := t.left - chunkElems bs
      asked := max t.asked ((t.next + 1) * chunkLines t) }
    caseKept := (slot, slot + bs.length) :: x.caseKept }
  obtain ⟨a, ha⟩ := hs id _ (Tab.find_put_same ..)
  exact ⟨hc, _, a, ha⟩

/-- The bytes that a command moved are charged (13 R358). -/
def charged (n : Nat) (rs : List (Nat × (Nat × Nat))) (s : State) : State :=
  match meterAll s rs with
  | .meter a b c => if a + b + c = 0 then s else chargeItem n 0 a b c s
  | _ => s

theorem charged_clusters (n : Nat) (rs : List (Nat × (Nat × Nat))) (s : State) : (charged n rs s).clusters = s.clusters := by
  unfold charged
  split
  · split
    · rfl
    · exact chargeItem_changes (Q := [.sched]) rfl (.refl _ s) .clusters rfl
  · rfl

theorem countChunk_clusters (n p space : Nat) (rs : List (Nat × Nat)) (s : State) :
    (rs.foldl (fun s r => countRead n p space s r) s).clusters = s.clusters :=
  (foldl_changes (ps := [.dev, .maint, .forme, .codec, .tier, .req, .pair, .near, .rma, .links, .free, .out]) (OnlyChanges.refl _ s)
    (fun _ _ hk => countRead_changes rfl hk)) .clusters rfl

theorem worstOf_ok {cs : List Status} (h : ∀ c ∈ cs, c = .ok) : worstOf cs = .ok := by
  have hn : ∀ c : Status, c ≠ .ok → cs.contains c = false := fun c hc =>
    Bool.eq_false_iff.2 fun hm => hc (h c (List.contains_iff_mem.1 hm))
  unfold worstOf
  rw [hn .malformed (by decide), hn .denied (by decide)]
  rfl

/-- A stream with bytes of its source to come has not ended. -/
theorem streamDone_open {t : Stream} (hs : t.slug = false) (hc : t.chunk ≠ 0) (ho : t.next * t.chunk < t.total) : streamDone t = false := by
  have h : ¬ cdiv t.total t.chunk ≤ t.next := by
    unfold cdiv
    rw [Nat.div_le_iff_le_mul_add_pred (by omega)]
    rw [Nat.mul_comm t.chunk]
    omega
  simp [streamDone, hs, h]

section
variable {n id : Nat} {t : Stream} {s : State}

/-- A chunk that lies in bounds, may be read and is read whole becomes visible (03 R80). -/
theorem chunkArrives_whole (data : List Byte) (ht : Tab.find (cluster s n).streams id = some t) (hs : t.slug = false)
    (hm : (cluster s n).moving = none) (hc : t.chunk ≠ 0) (ho : t.next * t.chunk < t.total)
    (hv : t.visible.length < t.ringLen / t.chunk)
    (hr : ∀ r ∈ cutRanges t.ranges (t.next * t.chunk) (min t.chunk (t.total - t.next * t.chunk)),
      rangeOk s n ((partOfRegion s (n / 16)).getD 0) t.space false r.1 r.2 = .ok)
    (hg : rangesOutcome s ((partOfRegion s (n / 16)).getD 0) ((cutRanges t.ranges (t.next * t.chunk)
      (min t.chunk (t.total - t.next * t.chunk))).map (fun r => (t.space, r))) .good = .good) :
    ∃ u rs bs, u.clusters = s.clusters ∧ chunkArrives n id data .good s
      = charged n rs (clusterUpd n (chunkVisible id t (t.ringStart + t.next % (t.ringLen / t.chunk) * t.chunk) bs) u) := by
  have hwait : (streamDone t || t.chunk = 0 || !true || decide (max (t.ringLen / t.chunk) t.want ≤ t.visible.length)) = false := by
    have : ¬ max (t.ringLen / t.chunk) t.want ≤ t.visible.length := by omega
    simp [streamDone_open hs hc ho, hc, this]
  unfold chunkArrives
  rw [ht]
  dsimp only
  rw [hm]
  dsimp only
  rw [hwait, if_neg Bool.false_ne_true, if_neg (hs ▸ Bool.false_ne_true), worstOf_ok (List.forall_mem_map.2 hr)]
  dsimp only [countEcc]
  rw [hg]
  simp only [readOutcome, if_true]
  generalize hu : List.foldl _ s _ = u
  generalize List.map _ (cutRanges _ _ _) = rs
  generalize List.flatten _ = bs
  exact ⟨u, rs, bs, hu ▸ countChunk_clusters .., rfl⟩

end

/-- Settles O38. The clauses are, in order: CLUSTER_FAULT; STREAM_CHUNK_ARRIVAL; SEGMENT_END, whose last clause is about the one request of
a segment; RANK_MOVE_TO_SPARE. -/
theorem faultChunkAndSegmentCommands : Obligations.FaultChunkAndSegmentCommands := by
  unfold Obligations.FaultChunkAndSegmentCommands
  intro cl ecc id data st g es m w rec r pos q s n x
  refine ⟨fun hp => ?_, ?_, fun he hn => ?_, fun hq h15 hg hs h6 hc => ?_⟩
  · have he : exec (.clusterFault cl ecc) s = .next (clusterFault n (if ecc then 3 else 4) s) := congrArg Host.Outcome.next (if_pos hp)
    refine ⟨_, he, execClusterFault_changes rfl (.refl _ s) he, fun k hk => clusterFault_other _ _ hk, clusterFault_err .., ?_⟩
    have hcause : BitVec.ofNat 4 (if ecc then 3 else 4) = if ecc then (3 : BitVec 4) else 4 := by cases ecc <;> rfl
    rw [clusterFault_same, causeNoted, hcause]
    rfl
  · intro ht _ hs hm hc ho hv p rs hr hg
    obtain ⟨u, rs, bs, hu, he⟩ := chunkArrives_whole data ht hs hm hc ho hv hr hg
    have hcl := cluster_congr (charged_clusters n rs (clusterUpd n (chunkVisible id.toNat st
      (st.ringStart + st.next % (st.ringLen / st.chunk) * st.chunk) bs) u))
    obtain ⟨hcase, l, a, hst⟩ := chunkVisible_streams id.toNat st (st.ringStart + st.next % (st.ringLen / st.chunk) * st.chunk) bs x
    refine ⟨_, congrArg Host.Outcome.next he, fun k hk => ?_, bs, ?_, ?_⟩
    · rw [hcl, cluster_clusterUpd_other _ _ _ _ hk, cluster_congr hu]
    · rw [hcl, cluster_clusterUpd_same, cluster_congr hu]
      exact hcase
    · rw [hcl, cluster_clusterUpd_same, cluster_congr hu]
      exact ⟨_, hst, rfl, rfl, rfl, rfl, rfl, rfl⟩
  · have hcl := cluster_congr (segmentEnd_clusters he)
    refine ⟨_, rfl, segmentEnd_changes rfl (.refl _ s), fun k hk => ?_, fun k hk => (hcl k).trans (givesUp_other g _ s hk),
      fun hnum hrows hf hrec => ?_⟩
    · rw [hcl, givesUp_each g hn s hk]
      exact ⟨rfl, rfl⟩
    · have hr := segmentEnd_record he hnum hrows hf hrec
      refine ⟨fun h0 hx hw => ⟨_, hr, ?_⟩, fun hx => ⟨_, hr, ?_⟩⟩
      · rw [segmentRows_again h0 hx hw]
        exact ⟨List.mem_append_right _ (List.mem_singleton_self _), rfl, rfl, rfl⟩
      · obtain ⟨wd, fl, ev, heq⟩ := segmentRows_final (w := w) (r := rec) (es := es) hx
        rw [heq]
        exact ⟨not_mem_rerunsLeft, rfl, fun e he => List.mem_append_right _ he⟩
  · have he := execRankMoveToSpare_faulted hq hg hs h6 hc
    have hne : 16 * r.toNat + q ≠ 16 * r.toNat + 15 := by omega
    have hold := moveRank_old (g := r.toNat) (p := pos.toNat) (s := s) hne
    refine ⟨_, he, execRankMoveToSpare_changes rfl (.refl _ s) he, ?_, ?_, ?_, ?_, moveRank_claimWait, fun k h1 h2 => moveRank_other h1 h2⟩
    · rw [moveRank_repro, Nat.mul_add_mod]
    · rw [hold]; rfl
    · rw [hold]; rfl
    · rw [hold]; rfl

end Sys2Proof.Machine
end

section
/-!
The commands of CODEC_CTRL (06 R166, R169): what a table write stores, which of a pair's members take a change of a latent table; and
the statement about them.
-/

namespace Sys2Proof.Machine

/-! ### What a write stores (06 R166) -/

/-- A slot once a write has stored its vector. -/
def slotWritten (a : CodecAsk) (x : TableSlot) : TableSlot :=
  { x with valid := true, version := x.version + 1, format := BitVec.ofNat 8 a.format, lengths := a.lengths }

/-- The slots once a write has stored its vector for the partitions `ds`. -/
def slotsWritten (a : CodecAsk) (ds : List (Nat × Nat)) (slots : Tab TableSlot) : Tab TableSlot :=
  ds.foldl (fun t d => Tab.upd t (slotKey d.1 a.table a.slotB) {} (slotWritten a)) slots

/-- A write changes the slots of the declaring partitions, and nothing else in the device. -/
theorem tableWrite_eq (a : CodecAsk) (s : State) : tableWrite a s =
    { s with codec := { s.codec with slots := slotsWritten a (declares s a.table) s.codec.slots } } := by
  unfold tableWrite
  generalize declares s a.table = ds
  induction ds generalizing s with
  | nil => rfl
  | cons d ds ih => exact ih _

/-- The write of a table that one partition declares: its slot is written, and no other changes. -/
theorem tableWrite_single {a : CodecAsk} {d : Nat × Nat} {s : State} (hd : declares s a.table = [d]) :
    let i := slotKey d.1 a.table a.slotB
    Tab.getD (tableWrite a s).codec.slots i {} = slotWritten a (Tab.getD s.codec.slots i {})
      ∧ ∀ j, j ≠ i → Tab.getD (tableWrite a s).codec.slots j {} = Tab.getD s.codec.slots j {} := by
  rw [tableWrite_eq, hd]
  exact ⟨Tab.getD_upd_same .., fun j hj => Tab.getD_upd_other _ _ _ _ _ hj⟩

/-! ### A change that is issued here (06 R169) -/

/-- Nothing at the partner keeps a change of the table from being applied here: the table is not pair-wide (no LATENT_TABLE, or the
device is no cache node), or the pair is DEGRADED, or the partner answers OK. -/
def pairTakes (table : Nat) (partner : PairAnswer) (s : State) : Bool :=
  !(isLatent s table && roleOf s == 3) || s.pair.state == 3 || partner.code == .ok

/-- What a change of the table that is applied here answers. -/
def takenCode (table : Nat) (s : State) : Status :=
  if isLatent s table && roleOf s == 3 && s.pair.state == 3 then .degraded else .ok

section
variable {table : Nat} {c : Status} {partner : PairAnswer} {apply : State → State} {s : State}

theorem pairWide_failed (h : c ≠ .ok) : pairWide table c partner apply s = codecCode c s := if_pos h

theorem pairWide_taken (h : pairTakes table partner s = true) :
    pairWide table .ok partner apply s = codecCode (takenCode table s) (apply s) := by
  unfold pairWide takenCode
  by_cases hl : isLatent s table = true ∧ roleOf s = 3
  · by_cases h3 : s.pair.state = 3#4
    · simp [hl, h3]
    · have hp : partner.code = .ok := by simpa [pairTakes, hl, h3] using h
      simp [hl, h3, hp]
  · have hn : (isLatent s table && roleOf s == 3) = false := by simpa using hl
    simp [hl, hn]

theorem pairWide_refused (h : pairTakes table partner s = false) :
    pairWide table .ok partner apply s = codecCode partner.code s := by
  have ⟨⟨⟨hl, hr⟩, h3⟩, hp⟩ : ((isLatent s table = true ∧ roleOf s = 3) ∧ ¬ s.pair.state = 3#4) ∧ ¬ partner.code = .ok := by
    simpa [pairTakes] using h
  simp [pairWide, hl, hr, h3, hp]

/-- What neither CODE nor the change touches stays, whatever the outcome. -/
theorem pairWide_same {α : Type} {f : State → α} (hc : ∀ c u, f (codecCode c u) = f u) (ha : f (apply s) = f s) :
    f (pairWide table c partner apply s) = f s := by
  by_cases h : c = .ok
  · subst h
    cases ht : pairTakes table partner s with
    | true => rw [pairWide_taken ht, hc, ha]
    | false => rw [pairWide_refused ht, hc]
  · rw [pairWide_failed h, hc]

end

/-! ### A change that was issued at the partner (06 R169) -/

/-- It is applied where neither member's check fails, and answers the partner's code where that fails, else this member's. -/
theorem pairApply_latent {a : CodecAsk} {own partner : Status} {apply : State → State} {s : State}
    (hl : isLatent s a.table = true) (hr : roleOf s = 3) : pairApply a own partner apply s =
      codecCode (if partner = .ok then own else partner) (if own = .ok ∧ partner = .ok then apply s else s) := by
  unfold pairApply
  by_cases hp : partner = .ok
  · by_cases ho : own = .ok <;> simp [hl, hr, hp, ho]
  · simp [hl, hr, hp]

/-! ### The commands -/

section
variable {w : CtlWrite} {n : Nat} {a : PairAnswer} {s : State}

theorem codecCtl_runs {run : State → State} (hc : Commands w false [0, 1, 2] n s) (hb : s.codec.busy = false) :
    codecCtl w n run s = run s := ctl_runs hc.1 hc.2 hb

theorem exec_tableWrite_own (hb : s.codec.busy = false) (ha : a.ask = none) (hc : Commands w false [0, 1, 2] 0 s) :
    exec (.tableWrite w a) s = .next (pairWide (selTable s) (writeCheck s) a (tableWrite (askOf s)) s) := by
  change execTableWrite w a s = _
  rw [execTableWrite, ha]
  exact congrArg Host.Outcome.next (codecCtl_runs hc hb)

theorem exec_tableWrite_asked {k : CodecAsk} (ha : a.ask = some k) :
    exec (.tableWrite w a) s = .next (pairApply k (writeCheckOf k s) a.code (tableWrite k) s) := by
  change execTableWrite w a s = _
  rw [execTableWrite, ha]

theorem exec_switch_own (hb : s.codec.busy = false) (ha : a.ask = none) (hc : Commands w false [0, 1, 2] 1 s) :
    exec (.switch w a) s = .next (pairWide (selTable s) (switchCheck s) a (switchSlot (askOf s)) s) := by
  change execSwitch w a s = _
  rw [execSwitch, ha]
  exact congrArg Host.Outcome.next (codecCtl_runs hc hb)

theorem exec_switch_asked {k : CodecAsk} (ha : a.ask = some k) :
    exec (.switch w a) s = .next (pairApply k (switchCheckOf k s) a.code (switchSlot k) s) := by
  change execSwitch w a s = _
  rw [execSwitch, ha]

theorem switchCheck_failed (h : switchCheck s ≠ .ok) : switchCheck s = .malformed :=
  (ite_eq_or_eq _ _ _).resolve_right h

/-- The partner's write of a latent table of this cache node. -/
theorem tableWrite_asked {k : CodecAsk} (ha : a.ask = some k) (hl : isLatent s k.table = true) (hr : roleOf s = 3) :
    ∃ t, exec (.tableWrite w a) s = .next t ∧ OnlyChanges [.codec] s t
      ∧ t.codec = { s.codec with slots := t.codec.slots, code := codeOf (if a.code = .ok then writeCheckOf k s else a.code) }
      ∧ t.codec.slots = (if writeCheckOf k s = .ok ∧ a.code = .ok then tableWrite k s else s).codec.slots := by
  have he := exec_tableWrite_asked (w := w) (s := s) ha
  refine ⟨_, he, execTableWrite_changes rfl (.refl _ s) he, ?_⟩
  rw [pairApply_latent hl hr]
  refine ⟨?_, rfl⟩
  generalize (if a.code = .ok then writeCheckOf k s else a.code) = c
  split
  · rw [tableWrite_eq]; rfl
  · rfl

/-- The partner's switch of a latent table of this cache node. -/
theorem switch_asked {k : CodecAsk} (ha : a.ask = some k) (hl : isLatent s k.table = true) (hr : roleOf s = 3) :
    exec (.switch w a) s = .next { s with codec := { s.codec with
      code := codeOf (if a.code = .ok then switchCheckOf k s else a.code)
      active := if switchCheckOf k s = .ok ∧ a.code = .ok then Tab.put s.codec.active k.part k.slotB else s.codec.active } } := by
  rw [exec_switch_asked ha, pairApply_latent hl hr]
  generalize (if a.code = .ok then switchCheckOf k s else a.code) = c
  split <;> rfl

end

/-- Settles O21. The clauses are, in order: a change that was issued at the partner, TABLE_WRITE, SWITCH and CLR. -/
theorem codecCommands : Obligations.CodecCommands := by
  unfold Obligations.CodecCommands
  intro w a s hb pairOk okCode
  have hok : codeOf (takenCode (selTable s) s) = okCode := apply_ite codeOf ..
  refine ⟨fun k ha hl hr => ?_, fun ha hc => ?_, fun ha hc => ?_, fun hc => ?_⟩
  · intro code
    have hcode (own : Status) : code own = codeOf (if a.code = .ok then own else a.code) := (apply_ite codeOf ..).symm
    rw [hcode, hcode, switch_asked ha hl hr]
    obtain ⟨t, he, hch, hcodec, hslots⟩ := tableWrite_asked (w := w) ha hl hr
    refine ⟨⟨t, he, hch, hcodec, ?_⟩, rfl⟩
    rw [hslots]
    split
    · exact fun d hd => tableWrite_single hd
    · rfl
  · have he := exec_tableWrite_own hb ha hc
    refine ⟨_, he, execTableWrite_changes rfl (.refl _ s) he, ?_, fun hf => ?_, fun hw hp => ?_, fun hw hp => ?_⟩
    · exact pairWide_same (f := fun t => t.codec.active) (fun _ _ => rfl) (by rw [tableWrite_eq])
    · rw [pairWide_failed hf]
      exact ⟨rfl, rfl⟩
    · rw [hw, pairWide_taken hp]
      refine ⟨hok, fun d hd => ?_⟩
      obtain ⟨hi, hj⟩ := tableWrite_single (a := askOf s) hd
      exact ⟨congrArg _ hi, congrArg _ hi, congrArg _ hi, (congrArg TableSlot.refs hi :), hj⟩
    · rw [hw, pairWide_refused hp]
      exact ⟨rfl, rfl⟩
  · have he := exec_switch_own hb ha hc
    refine ⟨_, he, execSwitch_changes rfl (.refl _ s) he, ?_, fun hf => ?_, fun hw hp => ?_⟩
    · exact pairWide_same (f := fun t => t.codec.slots) (fun _ _ => rfl) rfl
    · rw [pairWide_failed hf, switchCheck_failed hf]
      exact ⟨rfl, rfl⟩
    · rw [hw, pairWide_taken hp]
      exact ⟨hok, Tab.find_put_same .., fun p hne => Tab.find_put_other _ _ _ _ hne⟩
  · exact congrArg Host.Outcome.next (codecCtl_runs hc hb)

end Sys2Proof.Machine
end

section
/-!
The invariants over a step: every command, and a tick, keeps the queue, the agreement of the TMR copies and the canonical form of the
memories (07 R182, R186; 17 R444).
-/

namespace Sys2Proof.Machine

/-- A command leaves the queue, and keeps the TMR copies and the memories as Safety says: each arm of the dispatch is what that command's
meaning keeps. -/
theorem exec_keeps {c : Instr} {s t : State} (h : exec c s = .next t) : Keeps s t := by
  cases c with
  | nop => exact execNop_keeps (.refl s) h
  | seta => exact execSeta_keeps (.refl s) h
  | adda => exact execAdda_keeps (.refl s) h
  | loop => exact execLoop_keeps (.refl s) h
  | jump => exact execJump_keeps (.refl s) h
  | branch => exact execBranch_keeps (.refl s) h
  | lda => exact execLda_keeps (.refl s) h
  | waitwq => exact execWaitwq_keeps (.refl s) h
  | donewq => exact execDonewq_keeps (.refl s) h
  | barrier => exact execBarrier_keeps (.refl s) h
  | waitch => exact execWaitch_keeps (.refl s) h
  | live => exact execLive_keeps (.refl s) h
  | load => exact execLoad_keeps (.refl s) h
  | store => exact execStore_keeps (.refl s) h
  | streamArm => exact execStreamArm_keeps (.refl s) h
  | streamStop => exact execStreamStop_keeps (.refl s) h
  | matmul => exact execMatmul_keeps (.refl s) h
  | attend => exact execAttend_keeps (.refl s) h
  | vector => exact execVector_keeps (.refl s) h
  | norm => exact execNorm_keeps (.refl s) h
  | reduce => exact execReduce_keeps (.refl s) h
  | topk => exact execTopk_keeps (.refl s) h
  | send => exact execSend_keeps (.refl s) h
  | recv => exact execRecv_keeps (.refl s) h
  | convert => exact execConvert_keeps (.refl s) h
  | gather => exact execGather_keeps (.refl s) h
  | digest => exact execDigest_keeps (.refl s) h
  | commandComplete => exact execCommandComplete_keeps (.refl s) h
  | workItemPost => exact execWorkItemPost_keeps (.refl s) h
  | segmentEnd => exact execSegmentEnd_keeps (.refl s) h
  | waitchTimeout => exact execWaitchTimeout_keeps (.refl s) h
  | regionBarrierRelease => exact execRegionBarrierRelease_keeps (.refl s) h
  | dieBarrierRelease => exact execDieBarrierRelease_keeps (.refl s) h
  | streamChunkArrival => exact execStreamChunkArrival_keeps (.refl s) h
  | clusterFault => exact execClusterFault_keeps (.refl s) h
  | paceWindowEnd => exact execPaceWindowEnd_keeps (.refl s) h
  | rankMoveToSpare => exact execRankMoveToSpare_keeps (.refl s) h
  | channelRearm => exact execChannelRearm_keeps (.refl s) h
  | formeLoad => exact execFormeLoad_keeps (.refl s) h
  | formeImageReadDone => exact execFormeImageReadDone_keeps (.refl s) h
  | plate => exact execPlate_keeps (.refl s) h
  | formeUnload => exact execFormeUnload_keeps (.refl s) h
  | unloadClearDone => exact execUnloadClearDone_keeps (.refl s) h
  | drain => exact execDrain_keeps (.refl s) h
  | drainComplete => exact execDrainComplete_keeps (.refl s) h
  | replace => exact execReplace_keeps (.refl s) h
  | formeResume => exact execFormeResume_keeps (.refl s) h
  | clusterClr => exact execClusterClr_keeps (.refl s) h
  | quiesce => exact execQuiesce_keeps (.refl s) h
  | tableWrite => exact execTableWrite_keeps (.refl s) h
  | switch => exact execSwitch_keeps (.refl s) h
  | codecClr => exact execCodecClr_keeps (.refl s) h
  | quotaWrite => exact execQuotaWrite_keeps (.refl s) h
  | quotaRead => exact execQuotaRead_keeps (.refl s) h
  | t3Bind => exact execT3Bind_keeps (.refl s) h
  | tierClr => exact execTierClr_keeps (.refl s) h
  | t1Scrub => exact execT1Scrub_keeps (.refl s) h
  | refresh => exact execRefresh_keeps (.refl s) h
  | refreshManagement => exact execRefreshManagement_keeps (.refl s) h
  | channelFail => exact execChannelFail_keeps (.refl s) h
  | t3Fault => exact execT3Fault_keeps (.refl s) h
  | shelveRetry => exact execShelveRetry_keeps (.refl s) h
  | galleyExpiry => exact execGalleyExpiry_keeps (.refl s) h
  | capsule => exact execCapsule_keeps (.refl s) h
  | admitCapsule => exact execAdmitCapsule_keeps (.refl s) h
  | resumeCapsule => exact execResumeCapsule_keeps (.refl s) h
  | cancelCapsule => exact execCancelCapsule_keeps (.refl s) h
  | sessionEnd => exact execSessionEnd_keeps (.refl s) h
  | sqNop => exact execSqNop_keeps (.refl s) h
  | sessionInit => exact execSessionInit_keeps (.refl s) h
  | sessionFinish => exact execSessionFinish_keeps (.refl s) h
  | sessionTimeout => exact execSessionTimeout_keeps (.refl s) h
  | hostCancel => exact execHostCancel_keeps (.refl s) h
  | shard => exact execShard_keeps (.refl s) h
  | stageAdmission => exact execStageAdmission_keeps (.refl s) h
  | confirmation => exact execConfirmation_keeps (.refl s) h
  | stageRefusal => exact execStageRefusal_keeps (.refl s) h
  | append => exact execAppend_keeps (.refl s) h
  | commit => exact execCommit_keeps (.refl s) h
  | sealComplete => exact execSealComplete_keeps (.refl s) h
  | sealDigest => exact execSealDigest_keeps (.refl s) h
  | ownerFwd => exact execOwnerFwd_keeps (.refl s) h
  | mapWrite => exact execMapWrite_keeps (.refl s) h
  | record => exact execRecord_keeps (.refl s) h
  | drop => exact execDrop_keeps (.refl s) h
  | dropReport => exact execDropReport_keeps (.refl s) h
  | page => exact execPage_keeps (.refl s) h
  | ckpt => exact execCkpt_keeps (.refl s) h
  | silverSetup => exact execSilverSetup_keeps (.refl s) h
  | ownerWordCas => exact execOwnerWordCas_keeps (.refl s) h
  | handoverTimeout => exact execHandoverTimeout_keeps (.refl s) h
  | stepBoundary => exact execStepBoundary_keeps (.refl s) h
  | token => exact execToken_keeps (.refl s) h
  | cancellation => exact execCancellation_keeps (.refl s) h
  | retirement => exact execRetirement_keeps (.refl s) h
  | cancel => exact execCancel_keeps (.refl s) h
  | pause => exact execPause_keeps (.refl s) h
  | reqClr => exact execReqClr_keeps (.refl s) h
  | moverClr => exact execMoverClr_keeps (.refl s) h
  | pauseHoldExpiry => exact execPauseHoldExpiry_keeps (.refl s) h
  | shelveComplete => exact execShelveComplete_keeps (.refl s) h
  | resumeStage => exact execResumeStage_keeps (.refl s) h
  | recallComplete => exact execRecallComplete_keeps (.refl s) h
  | copyout => exact execCopyout_keeps (.refl s) h
  | copyoutComplete => exact execCopyoutComplete_keeps (.refl s) h
  | partnerMeet => exact execPartnerMeet_keeps (.refl s) h
  | mirrorAckTimeout => exact execMirrorAckTimeout_keeps (.refl s) h
  | silver => exact execSilver_keeps (.refl s) h
  | checkpointRequest => exact execCheckpointRequest_keeps (.refl s) h
  | ckptAck => exact execCkptAck_keeps (.refl s) h
  | abort => exact execAbort_keeps (.refl s) h
  | mapInstall => exact execMapInstall_keeps (.refl s) h
  | mapRenew => exact execMapRenew_keeps (.refl s) h
  | mapLeaseEnd => exact execMapLeaseEnd_keeps (.refl s) h
  | suspect => exact execSuspect_keeps (.refl s) h
  | pairClr => exact execPairClr_keeps (.refl s) h
  | renewTimer => exact execRenewTimer_keeps (.refl s) h
  | grant _ xepoch => exact execGrant_keeps (_xepoch := xepoch) (.refl s) h
  | deny _ seq => exact execDeny_keeps (_seq := seq) (.refl s) h
  | leaseExpiry => exact execLeaseExpiry_keeps (.refl s) h
  | exclude => exact execExclude_keeps (.refl s) h
  | admitMsg => exact execAdmitMsg_keeps (.refl s) h
  | join => exact execJoin_keeps (.refl s) h
  | trayLoad => exact execTrayLoad_keeps (.refl s) h
  | trayStore => exact execTrayStore_keeps (.refl s) h
  | trayAppend => exact execTrayAppend_keeps (.refl s) h
  | chmsg => exact execChmsg_keeps (.refl s) h
  | credit => exact execCredit_keeps (.refl s) h
  | lstate => exact execLstate_keeps (.refl s) h
  | resp => exact execResp_keeps (.refl s) h
  | trayResponseTimeout => exact execTrayResponseTimeout_keeps (.refl s) h
  | trayForward => exact execTrayForward_keeps (.refl s) h
  | nearDisable => exact execNearDisable_keeps (.refl s) h
  | nearClr => exact execNearClr_keeps (.refl s) h
  | atomicAdd => exact execAtomicAdd_keeps (.refl s) h
  | atomicMin => exact execAtomicMin_keeps (.refl s) h
  | atomicMax => exact execAtomicMax_keeps (.refl s) h
  | atomicCas => exact execAtomicCas_keeps (.refl s) h
  | writeWr => exact execWriteWr_keeps (.refl s) h
  | readWr => exact execReadWr_keeps (.refl s) h
  | atomicWr => exact execAtomicWr_keeps (.refl s) h
  | sendWr => exact execSendWr_keeps (.refl s) h
  | pdAlloc => exact execPdAlloc_keeps (.refl s) h
  | pdFree => exact execPdFree_keeps (.refl s) h
  | qpCreate => exact execQpCreate_keeps (.refl s) h
  | qpDestroy => exact execQpDestroy_keeps (.refl s) h
  | qpReset => exact execQpReset_keeps (.refl s) h
  | regRegion => exact execRegRegion_keeps (.refl s) h
  | deregRegion => exact execDeregRegion_keeps (.refl s) h
  | mapPages => exact execMapPages_keeps (.refl s) h
  | writeMsg => exact execWriteMsg_keeps (.refl s) h
  | readReq => exact execReadReq_keeps (.refl s) h
  | readData => exact execReadData_keeps (.refl s) h
  | atomicMsg => exact execAtomicMsg_keeps (.refl s) h
  | sendMsg => exact execSendMsg_keeps (.refl s) h
  | ack => exact execAck_keeps (.refl s) h
  | retransmitTimer => exact execRetransmitTimer_keeps (.refl s) h
  | messageLifetimeEnd => exact execMessageLifetimeEnd_keeps (.refl s) h
  | identifierEntryExpiry => exact execIdentifierEntryExpiry_keeps (.refl s) h
  | readTimeout => exact execReadTimeout_keeps (.refl s) h
  | backoffExpiry => exact execBackoffExpiry_keeps (.refl s) h
  | retryLimitExpiry => exact execRetryLimitExpiry_keeps (.refl s) h
  | contextFetchDone => exact execContextFetchDone_keeps (.refl s) h
  | pageFaultTimeout => exact execPageFaultTimeout_keeps (.refl s) h
  | qpcBind => exact execQpcBind_keeps (.refl s) h
  | rmaClr => exact execRmaClr_keeps (.refl s) h
  | linkTrainStart => exact execLinkTrainStart_keeps (.refl s) h
  | linkPhaseTimeout => exact execLinkPhaseTimeout_keeps (.refl s) h
  | linkPhaseDone => exact execLinkPhaseDone_keeps (.refl s) h
  | linkDown => exact execLinkDown_keeps (.refl s) h
  | dataFrame => exact execDataFrame_keeps (.refl s) h
  | idleFrame => exact execIdleFrame_keeps (.refl s) h
  | nakFrame => exact execNakFrame_keeps (.refl s) h
  | keyFrame => exact execKeyFrame_keeps (.refl s) h
  | timeFrame => exact execTimeFrame_keeps (.refl s) h
  | rekey => exact execRekey_keeps (.refl s) h
  | laserLow => exact execLaserLow_keeps (.refl s) h
  | egressDispatch => exact execEgressDispatch_keeps (.refl s) h
  | retrain => exact execRetrain_keeps (.refl s) h
  | linkClr => exact execLinkClr_keeps (.refl s) h
  | linkFarDisable => exact execLinkFarDisable_keeps (.refl s) h
  | shaperRefillTick => exact execShaperRefillTick_keeps (.refl s) h
  | shaperCommit => exact execShaperCommit_keeps (.refl s) h
  | telEn => exact execTelEn_keeps (.refl s) h
  | shaperClr => exact execShaperClr_keeps (.refl s) h
  | frameStart => exact execFrameStart_keeps (.refl s) h
  | slotEnd => exact execSlotEnd_keeps (.refl s) h
  | effectiveSlotEnd => exact execEffectiveSlotEnd_keeps (.refl s) h
  | saveComplete => exact execSaveComplete_keeps (.refl s) h
  | restoreComplete => exact execRestoreComplete_keeps (.refl s) h
  | weightCommit => exact execWeightCommit_keeps (.refl s) h
  | meterDump => exact execMeterDump_keeps (.refl s) h
  | meterSample => exact execMeterSample_keeps (.refl s) h
  | parkWaits => exact execParkWaits_keeps (.refl s) h
  | schedClr => exact execSchedClr_keeps (.refl s) h
  | timeExchangeTimer => exact execTimeExchangeTimer_keeps (.refl s) h
  | alignmentLoss => exact execAlignmentLoss_keeps (.refl s) h
  | arrive => exact execArrive_keeps (.refl s) h
  | release => exact execRelease_keeps (.refl s) h
  | podBarrierReleaseTick => exact execPodBarrierReleaseTick_keeps (.refl s) h
  | trace => exact execTrace_keeps (.refl s) h
  | reproClr => exact execReproClr_keeps (.refl s) h
  | claim => exact execClaim_keeps (.refl s) h
  | addKey => exact execAddKey_keeps (.refl s) h
  | removeKey => exact execRemoveKey_keeps (.refl s) h
  | advance => exact execAdvance_keeps (.refl s) h
  | debugUnlock => exact execDebugUnlock_keeps (.refl s) h
  | recoveryImage => exact execRecoveryImage_keeps (.refl s) h
  | podFetch => exact execPodFetch_keeps (.refl s) h
  | podGenesis => exact execPodGenesis_keeps (.refl s) h
  | tenantUnbind => exact execTenantUnbind_keeps (.refl s) h
  | secClr => exact execSecClr_keeps (.refl s) h
  | reseed => exact execReseed_keeps (.refl s) h
  | getVersion => exact execGetVersion_keeps (.refl s) h
  | getCapabilities => exact execGetCapabilities_keeps (.refl s) h
  | negotiateAlgorithms => exact execNegotiateAlgorithms_keeps (.refl s) h
  | getDigests => exact execGetDigests_keeps (.refl s) h
  | getCertificate => exact execGetCertificate_keeps (.refl s) h
  | challenge => exact execChallenge_keeps (.refl s) h
  | getMeasurements => exact execGetMeasurements_keeps (.refl s) h
  | ideKm => exact execIdeKm_keeps (.refl s) h
  | ideIntegrityFailure => exact execIdeIntegrityFailure_keeps (.refl s) h
  | lockInterface => exact execLockInterface_keeps (.refl s) h
  | dmaFailure => exact execDmaFailure_keeps (.refl s) h
  | enable => exact execEnable_keeps (.refl s) h
  | disable => exact execDisable_keeps (.refl s) h
  | faultEn => exact execFaultEn_keeps (.refl s) h
  | sqDoorbell => exact execSqDoorbell_keeps (.refl s) h
  | qpDoorbell => exact execQpDoorbell_keeps (.refl s) h
  | consumerWrite => exact execConsumerWrite_keeps (.refl s) h
  | interruptHoldoffExpiry => exact execInterruptHoldoffExpiry_keeps (.refl s) h
  | flr => exact execFlr_keeps (.refl s) h
  | hotReset => exact execHotReset_keeps (.refl s) h
  | perst => exact execPerst_keeps (.refl s) h
  | warm => exact execWarm_keeps (.refl s) h
  | shutdown => exact execShutdown_keeps (.refl s) h
  | maintClr => exact execMaintClr_keeps (.refl s) h
  | selftestSliceEnd => exact execSelftestSliceEnd_keeps (.refl s) h
  | pwrgdAssert => exact execPwrgdAssert_keeps (.refl s) h
  | pwrgdDeassert => exact execPwrgdDeassert_keeps (.refl s) h
  | ready => exact execReady_keeps (.refl s) h
  | thermalTrip => exact execThermalTrip_keeps (.refl s) h
  | thermalHoldEnd => exact execThermalHoldEnd_keeps (.refl s) h
  | watchdog => exact execWatchdog_keeps (.refl s) h
  | bridge => exact execBridge_keeps (.refl s) h
  | rankRelease => exact execRankRelease_keeps (.refl s) h
  | claimGrant => exact execClaimGrant_keeps (.refl s) h
  | claimRelease => exact execClaimRelease_keeps (.refl s) h
  | tmrFix => exact execTmrFix_keeps (.refl s) h
  | rcRead => exact execRcRead_keeps (.refl s) h
  | loReadCapture => exact execLoReadCapture_keeps (.refl s) h
  | registerAccessRefused => exact execRegisterAccessRefused_keeps (.refl s) h
  | registerWrite => exact execRegisterWrite_keeps (.refl s) h
  | requestNotice => exact execRequestNotice_keeps (.refl s) h
  | replyNotice => exact execReplyNotice_keeps (.refl s) h
  | podKeyTransfer => exact execPodKeyTransfer_keeps (.refl s) h
  | bootFailure => exact execBootFailure_keeps (.refl s) h
  | pcieLinkUp => exact execPcieLinkUp_keeps (.refl s) h
  | perstDeassert => exact execPerstDeassert_keeps (.refl s) h
  | flrComplete => exact execFlrComplete_keeps (.refl s) h
  | vfEnable => exact execVfEnable_keeps (.refl s) h
  | d3hotEntry => exact execD3hotEntry_keeps (.refl s) h
  | podSendEnable => exact execPodSendEnable_keeps (.refl s) h
  | secureSessionExchange => exact execSecureSessionExchange_keeps (.refl s) h

/-- A step takes the head of the queue, and keeps the TMR copies and the memories. -/
theorem step_keeps {s t : State} (h : step s = .next t) : Keeps { s with pending := s.pending.tail } t := by
  cases hp : s.pending with
  | nil =>
    rw [step_idle hp] at h
    cases h
    have hs : { s with pending := [] } = s := by rw [← hp]
    exact hs.symm ▸ clockTick_keeps (.refl s)
  | cons c rest =>
    have he : step s = exec c { s with pending := rest } := by unfold step; rw [hp]
    exact exec_keeps (he.symm.trans h)

/-- Settles O10. -/
theorem stepKeepsMemory : Obligations.StepKeepsMemory := by
  unfold Obligations.StepKeepsMemory
  intro s t hm h
  obtain ⟨_, _, hmem⟩ := step_keeps h
  exact hmem hm

end Sys2Proof.Machine
end

section
/-!
The commands of TIER_CTRL (07 R205), and those of the control registers of SCHED, RMA and REQ (13, 11, 08): the effect of each on a block
that is not BUSY.
-/

namespace Sys2Proof.Machine

/-! ### TIER_CTRL (07 R194, R202, R205) -/

/-- The tenant's limits and use in the registers of QUOTA_READ (07 R205). -/
def loadQuota (q : Quota) (t : Tier) : Tier :=
  { t with t1Limit := BitVec.ofNat 32 q.t1Limit, t3Limit := BitVec.ofNat 32 q.t3Limit
           t1Used := BitVec.ofNat 32 q.t1Used, t3Used := BitVec.ofNat 32 q.t3Used }

section

variable {w : CtlWrite} {s : State} {n : Nat}

theorem tierCtl_runs {run : State → State} (hb : s.tier.busy = false) (hc : Commands w false [0, 1, 2, 3] n s) : tierCtl w n run s = run s :=
  ctl_runs hc.1 hc.2 hb

theorem quotaWrite_some {q : Quota} (h : Tab.find s.tier.quotas s.tier.tenant.toNat = some q) :
    quotaWrite s = tierCode .ok { s with tier := { s.tier with quotas := (
      if s.tier.t1Limit.toNat = 0 ∧ s.tier.t3Limit.toNat = 0 ∧ q.t1Used = 0 ∧ q.t3Used = 0 then Tab.del s.tier.quotas s.tier.tenant.toNat
      else Tab.put s.tier.quotas s.tier.tenant.toNat { q with t1Limit := s.tier.t1Limit.toNat, t3Limit := s.tier.t3Limit.toNat }) } } := by
  simp only [quotaWrite, h]
  split <;> rfl

theorem quotaWrite_none (h : Tab.find s.tier.quotas s.tier.tenant.toNat = none) :
    quotaWrite s =
      if s.tier.t1Limit.toNat = 0 ∧ s.tier.t3Limit.toNat = 0 then tierCode .ok s
      else if 4096 ≤ s.tier.quotas.length then tierCode .quota s
      else tierCode .ok { s with tier := { s.tier with quotas := (
        Tab.put s.tier.quotas s.tier.tenant.toNat { t1Limit := s.tier.t1Limit.toNat, t3Limit := s.tier.t3Limit.toNat }) } } := by
  simp only [quotaWrite, h]

theorem quotaRead_some {q : Quota} (h : Tab.find s.tier.quotas s.tier.tenant.toNat = some q) :
    quotaRead s = tierCode .ok { s with tier := loadQuota q s.tier } := by
  simp only [quotaRead, h]
  rfl

theorem quotaRead_none (h : Tab.find s.tier.quotas s.tier.tenant.toNat = none) :
    quotaRead s = tierCode .denied { s with tier := loadQuota {} s.tier } := by
  simp only [quotaRead, h]
  rfl

/-- A frame of a bound area is SHELVED exactly where its list of frames is not empty. -/
theorem t3Held_eq (o : Option T3Area) : (o.any (fun a => !a.frames.isEmpty)) = o.any (fun a => decide (a.frames ≠ [])) := by
  cases o with
  | none => rfl
  | some a => cases h : a.frames <;> simp [h]

/-- What T3_BIND answers, check by check (07 R194). -/
theorem t3Bind_eq (s : State) : t3Bind s =
    if (s.tier.t3DataHi ++ s.tier.t3DataLo : DWord).toNat % 65536 ≠ 0 ∨ (s.tier.t3TagHi ++ s.tier.t3TagLo : DWord).toNat % 4096 ≠ 0
      then tierCode .malformed s
    else if partition s s.tier.t3Part.toNat = none then tierCode .formeMismatch s
    else if (Tab.find s.tier.t3 s.tier.t3Part.toNat).any (fun a => a.frames ≠ []) then tierCode .denied s
    else tierCode .ok { s with tier := { s.tier with t3 := Tab.put s.tier.t3 s.tier.t3Part.toNat (
      { data := s.tier.t3DataHi ++ s.tier.t3DataLo, tag := s.tier.t3TagHi ++ s.tier.t3TagLo, frames := [] }) } } := by
  simp only [t3Bind, Option.isNone_iff_eq_none, t3Held_eq]

end

/-- Settles O20. The clauses are, in order: QUOTA_WRITE, QUOTA_READ, T3_BIND and CLR. -/
theorem tierCommands : Obligations.TierCommands := by
  unfold Obligations.TierCommands
  intro w s hb
  dsimp only
  refine ⟨fun hc => ?_, fun hc => ?_, fun hc => ?_, fun hc => ?_⟩
  · refine ⟨quotaWrite s, congrArg Host.Outcome.next (tierCtl_runs hb hc), quotaWrite_changes rfl (.refl _ s), ?_, fun q hq => ?_, fun hn hl => ?_⟩
    · intro j hj
      cases hq : Tab.find s.tier.quotas s.tier.tenant.toNat with
      | some q =>
        rw [quotaWrite_some hq]
        dsimp only [tierCode]
        split
        · exact Tab.find_del_other _ _ _ hj
        · exact Tab.find_put_other _ _ _ _ hj
      | none =>
        rw [quotaWrite_none hq]
        split_ifs
        · rfl
        · rfl
        · exact Tab.find_put_other _ _ _ _ hj
    · rw [quotaWrite_some hq]
      refine ⟨rfl, ?_⟩
      dsimp only [tierCode]
      split
      · exact Tab.find_del_same _ _
      · exact Tab.find_put_same _ _ _
    · have hlim : ¬(s.tier.t1Limit.toNat = 0 ∧ s.tier.t3Limit.toNat = 0) := fun h => hl.elim (· h.1) (· h.2)
      rw [quotaWrite_none hn, if_neg hlim]
      split
      · exact ⟨rfl, hn⟩
      · exact ⟨rfl, Tab.find_put_same _ _ _⟩
  · refine ⟨quotaRead s, congrArg Host.Outcome.next (tierCtl_runs hb hc), quotaRead_changes rfl (.refl _ s), ?_⟩
    cases hq : Tab.find s.tier.quotas s.tier.tenant.toNat with
    | some q =>
      rw [quotaRead_some hq]
      exact ⟨rfl, rfl, rfl, rfl, rfl, rfl⟩
    | none =>
      rw [quotaRead_none hq]
      exact ⟨rfl, rfl, rfl, rfl, rfl, rfl⟩
  · have held (o : Option T3Area) : (∃ a, o = some a ∧ a.frames ≠ []) ↔ o.any (fun a => decide (a.frames ≠ [])) = true := by
      cases o <;> simp
    refine ⟨t3Bind s, congrArg Host.Outcome.next (tierCtl_runs hb hc), t3Bind_changes rfl (.refl _ s), ?_, ?_⟩
    · intro j hj
      rw [t3Bind_eq]
      split_ifs
      · rfl
      · rfl
      · rfl
      · exact Tab.find_put_other _ _ _ _ hj
    · rw [t3Bind_eq]
      simp only [held]
      split_ifs
      · exact ⟨rfl, rfl⟩
      · exact ⟨rfl, rfl⟩
      · exact ⟨rfl, rfl⟩
      · exact ⟨rfl, Tab.find_put_same _ _ _⟩
  · refine ⟨tierClear s, congrArg Host.Outcome.next (tierCtl_runs hb hc), tierClear_changes rfl (.refl _ s), rfl, rfl, rfl, rfl, ?_⟩
    intro e he
    obtain ⟨x, _, rfl⟩ := List.mem_map.1 he
    exact ⟨rfl, rfl, rfl, rfl, rfl, rfl⟩

/-! ### SCHED_CTRL and RMA_CTRL (13 R352, R359; 11 R321) -/

section

variable {w : CtlWrite} {s : State}

theorem schedCtl_runs {run : State → State} {n : Nat} (hb : s.sched.busy = false) (hc : Commands w false [0, 1, 2] n s) :
    schedCtl w n run s = run { s with sched := { s.sched with parkWaits := ctlSetting w 3 s.sched.parkWaits } } :=
  ctl_runs hc.1 hc.2 hb

/-- A staged weight that WEIGHT_COMMIT refuses (13 R352). -/
theorem stagedBad_iff (s : State) :
    s.sched.ctxs.any (fun e => e.2.staged.toNat != e.2.weight && (e.2.staged == 0 || !ctxPresent s e.1)) = true
      ↔ ∃ e ∈ s.sched.ctxs, e.2.staged.toNat ≠ e.2.weight ∧ (e.2.staged = 0 ∨ ctxPresent s e.1 = false) := by
  simp only [List.any_eq_true, Bool.and_eq_true, bne_iff_ne, ne_eq, Bool.or_eq_true, beq_iff_eq, Bool.not_eq_true']

theorem weightCommit_eq (hb : s.sched.busy = false) (hc : Commands w false [0, 1, 2] 0 s) :
    exec (.weightCommit w) s = .next { s with sched := (
      if ∃ e ∈ s.sched.ctxs, e.2.staged.toNat ≠ e.2.weight ∧ (e.2.staged = 0 ∨ ctxPresent s e.1 = false)
      then { s.sched with parkWaits := ctlSetting w 3 s.sched.parkWaits, code := codeOf .malformed }
      else { s.sched with parkWaits := ctlSetting w 3 s.sched.parkWaits, busy := true, commitPending := true }) } := by
  refine congrArg Host.Outcome.next ((schedCtl_runs hb hc).trans ?_)
  by_cases h : ∃ e ∈ s.sched.ctxs, e.2.staged.toNat ≠ e.2.weight ∧ (e.2.staged = 0 ∨ ctxPresent s e.1 = false)
  · rw [if_pos h]
    exact if_pos ((stagedBad_iff s).2 h)
  · rw [if_neg h]
    exact if_neg (fun k => h ((stagedBad_iff s).1 k))

theorem meterDump_eq (hb : s.sched.busy = false) (hc : Commands w false [0, 1, 2] 1 s) :
    exec (.meterDump w) s = .next { s with sched := (
      if s.sched.meterLo.toNat % 4096 ≠ 0
      then { s.sched with parkWaits := ctlSetting w 3 s.sched.parkWaits, code := codeOf .malformed }
      else { s.sched with parkWaits := ctlSetting w 3 s.sched.parkWaits, busy := true, dumpAt := some ((s.tb / 625000 + 1) * 625000) }) } := by
  refine congrArg Host.Outcome.next ((schedCtl_runs hb hc).trans ?_)
  dsimp only
  split <;> rfl

theorem qpcBind_eq (s : State) : qpcBind s = { s with rma := (
    if ∃ e ∈ s.rma.qps, qpKind e.1 = 2 then { s.rma with code := codeOf .denied }
    else if s.rma.qpcLo.toNat % 4096 ≠ 0 ∨ s.rma.qpcCount.toNat % 8192 ≠ 0 ∨ s.rma.qpcCount.toNat < 8192 ∨ 1048576 < s.rma.qpcCount.toNat
      then { s.rma with code := codeOf .malformed }
    else { s.rma with
      code := 0x00, bound := true, backed := s.rma.qpcCount.toNat
      backing := BitVec.ofNat 64 (s.rma.qpcHi.toNat * 2 ^ 32 + s.rma.qpcLo.toNat) }) } := by
  simp only [qpcBind, List.any_eq_true, decide_eq_true_eq, Bool.or_eq_true, or_assoc]
  split_ifs <;> rfl

end

/-! ### REQ_CTRL (08 R228, R231, R238) -/

section

variable {w : CtlWrite} {s : State} {q : ReqId} {a : AnchorInfo} {x : Rec}

theorem reqCtl_runs {run : State → State} {n : Nat} (hb : s.req.busy = false) (hc : Commands w false [0, 1, 2] n s) : reqCtl w n run s = run s :=
  ctl_runs hc.1 hc.2 hb

/-- A command flags a request: bit `b` of FLAGS is set in the live record of a request that has its anchor here, whose STATE stays, and
no galley changes. -/
def Flags (b : Nat) (q : ReqId) (s t : State) : Prop :=
  t.req.galleys = s.req.galleys ∧ ∀ (a : AnchorInfo) (x : Rec), anchorOf s q = some a → recLive s q = some x →
    ∃ y : Rec, recFind t q = some y ∧ y.flags.toNat.testBit b = true ∧ y.state = x.state

theorem recUpd_galleys (q : ReqId) (f : Rec → Rec) (s : State) : (recUpd q f s).req.galleys = s.req.galleys := by
  unfold recUpd; split <;> rfl

/-- A record that has the bit already. -/
theorem flags_had {b : Nat} (hx : recLive s q = some x) (hb : x.flags.toNat.testBit b = true) : Flags b q s s := by
  refine ⟨rfl, fun _ y _ hy => ⟨x, (recLive_eq_some.1 hx).1, hb, ?_⟩⟩
  cases hx.symm.trans hy
  rfl

/-- The bit is set, and the stages are told. -/
theorem flags_told {b : Nat} {m : Byte} {u : State} (hm : m.toNat.testBit b = true) (hx : recLive s q = some x)
    (hu : u.req.recs = s.req.recs) (hg : u.req.galleys = s.req.galleys) (e : Word) (f : FwMsg) :
    Flags b q s (toStages a e f (recUpd q (fun r => { r with flags := r.flags ||| m }) u)) := by
  have hr : (toStages a e f (recUpd q (fun r => { r with flags := r.flags ||| m }) u)).req
      = (recUpd q (fun r => { r with flags := r.flags ||| m }) u).req := toStages_req ..
  have hf : recFind u q = some x := (recFind_congr hu q).trans (recLive_eq_some.1 hx).1
  obtain ⟨_, hi⟩ := recFind_eq_some.1 hf
  refine ⟨(congrArg Req.galleys hr).trans ((recUpd_galleys ..).trans hg), fun _ y _ hy => ?_⟩
  cases hx.symm.trans hy
  refine ⟨{ x with flags := x.flags ||| m }, ?_, by simp [hm], rfl⟩
  rw [recFind_congr (congrArg Req.recs hr)]
  exact recFind_recUpd hf (recEntry_spec hi).1 (recEntry_spec hi).2

theorem flags_unknown {b : Nat} (h : ∀ a x, anchorOf s q = some a → recLive s q = some x → False) : Flags b q s s :=
  ⟨rfl, fun a x ha hx => (h a x ha hx).elim⟩

/-- A cancellation sets FLAGS[2] (08 R228). -/
theorem anchorCancel_flags (q : ReqId) (s : State) : Flags 2 q s (anchorCancel q s) := by
  unfold anchorCancel
  split
  next ha hx =>
    split
    next hb => exact flags_had hx hb
    next => exact flags_told (b := 2) (m := 4) (u := anchorUpd q _ s) (by decide) hx rfl rfl _ _
  next h => exact flags_unknown h

/-- A pause sets FLAGS[3] (08 R231). -/
theorem anchorPause_flags (q : ReqId) (s : State) : Flags 3 q s (anchorPause q s) := by
  unfold anchorPause
  split
  next ha hx =>
    split
    next hb => exact flags_had hx hb
    next => exact flags_told (b := 3) (m := 8) (by decide) hx rfl rfl _ _
  next h => exact flags_unknown h

section

variable {act : ReqId → State → State} {r : Rec}

theorem reqOnSel_none (h : Tab.find s.req.recs s.req.sel.toNat = none) : reqOnSel act s = reqCode .denied s := by
  simp only [reqOnSel, h]

theorem reqOnSel_retired (h : Tab.find s.req.recs s.req.sel.toNat = some r) (h8 : r.state = 8) :
    reqOnSel act s = { s with req := { s.req with code := r.status } } := by
  simp only [reqOnSel, h, h8, if_true]

theorem reqOnSel_elsewhere (h : Tab.find s.req.recs s.req.sel.toNat = some r) (h8 : r.state ≠ 8) (hv : anchorView r = false) :
    reqOnSel act s = reqCode .denied s := by
  simp only [reqOnSel, h, h8, hv, if_false, Bool.false_eq_true]

theorem reqOnSel_anchor (h : Tab.find s.req.recs s.req.sel.toNat = some r) (h8 : r.state ≠ 8) (hv : anchorView r = true) :
    reqOnSel act s = reqCode .ok (act r.reqId s) := by
  simp only [reqOnSel, h, h8, hv, if_false, if_true]

end

/-- CANCEL and PAUSE are an act of the anchor on the selected record, which flags its request. -/
theorem flagCommand_runs {c : Instr} {b : Nat} (hb : s.req.busy = false)
    (hc : (c = .cancel w ∧ b = 2 ∧ Commands w false [0, 1, 2] 0 s) ∨ (c = .pause w ∧ b = 3 ∧ Commands w false [0, 1, 2] 1 s)) :
    ∃ act : ReqId → State → State, exec c s = .next (reqOnSel act s) ∧ ∀ p u, Flags b p u (act p u) := by
  rcases hc with ⟨rfl, rfl, hw⟩ | ⟨rfl, rfl, hw⟩
  · exact ⟨anchorCancel, congrArg Host.Outcome.next (reqCtl_runs hb hw), anchorCancel_flags⟩
  · exact ⟨anchorPause, congrArg Host.Outcome.next (reqCtl_runs hb hw), anchorPause_flags⟩

/-- The frame of CANCEL and PAUSE. -/
theorem flagCommand_only {c : Instr} {t : State} (hc : c = .cancel w ∨ c = .pause w) (h : exec c s = .next t) :
    OnlyChanges [.req, .rma, .links, .out] s t := by
  rcases hc with rfl | rfl
  · exact exec_onlyChanges h
  · exact exec_onlyChanges h

end

/-- Settles O48. The clauses are, in order: the four commands of TIER_CTRL; WEIGHT_COMMIT and METER_DUMP; QPC_BIND; CANCEL and PAUSE. -/
theorem controlBlockResults : Obligations.ControlBlockResults := by
  unfold Obligations.ControlBlockResults
  intro w s
  dsimp only
  refine ⟨fun hb => ⟨fun hc => ?_, fun hc => ?_, fun hc => ?_, fun hc => congrArg Host.Outcome.next (tierCtl_runs hb hc)⟩,
    fun hb => ⟨weightCommit_eq hb, meterDump_eq hb⟩,
    fun hb hc => congrArg Host.Outcome.next ((ctl_runs hc.1 hc.2 hb).trans (qpcBind_eq s)), fun hb c b hc => ?_⟩
  · refine (congrArg Host.Outcome.next (tierCtl_runs hb hc)).trans ?_
    cases hq : Tab.find s.tier.quotas s.tier.tenant.toNat with
    | some q => rw [quotaWrite_some hq]; rfl
    | none => rw [quotaWrite_none hq]; split_ifs <;> rfl
  · refine (congrArg Host.Outcome.next (tierCtl_runs hb hc)).trans ?_
    cases hq : Tab.find s.tier.quotas s.tier.tenant.toNat with
    | some q => rw [quotaRead_some hq]; rfl
    | none => rw [quotaRead_none hq]; rfl
  · refine (congrArg Host.Outcome.next ((tierCtl_runs hb hc).trans (t3Bind_eq s))).trans ?_
    split_ifs <;> rfl
  · obtain ⟨act, he, hf⟩ := flagCommand_runs hb hc
    have hcmd : c = .cancel w ∨ c = .pause w := hc.imp And.left And.left
    cases hr : Tab.find s.req.recs s.req.sel.toNat with
    | none => exact he.trans (congrArg _ (reqOnSel_none hr))
    | some r =>
      dsimp only
      split_ifs with h8 hv
      · exact he.trans (congrArg _ (reqOnSel_retired hr h8))
      · exact he.trans (congrArg _ (reqOnSel_elsewhere hr h8 hv))
      · obtain ⟨hg, hy⟩ := hf r.reqId s
        rw [reqOnSel_anchor hr h8 (Bool.eq_true_of_not_eq_false hv)] at he
        exact ⟨_, he, flagCommand_only hcmd he, rfl, hg, hy⟩

end Sys2Proof.Machine
end

section
/-!
Upkeep of T1 (07 R187, R188, R190): the scrub of a granule that reads well or is corrected, refresh, and the failure of a channel, with
the governed stop that a fatal cause begins (17 R451; 18 R457, R460, R463).
-/

namespace Sys2Proof.Machine

/-! ### The window of a channel (07 R205) -/

/-- From `s` to `t` no channel but `c` has another window. -/
def OtherChannels (c : Nat) (s t : State) : Prop := ∀ k : Nat, k ≠ c → Tab.getD t.tier.lpc k {} = Tab.getD s.tier.lpc k {}

/-- A change of the memory tiers. -/
theorem tier_only {Q : List Block} (hq : Q.contains .tier = true) (s : State) (x : Tier) : OnlyChanges Q s { s with tier := x } := by
  intro b hb
  cases b with
  | tier => rw [hq] at hb; cases hb
  | _ => rfl

section
variable {s : State} {c : Nat} {f : Lpc → Lpc}

theorem lpcUpd_only : OnlyChanges [.tier] s (lpcUpd c f s) := tier_only rfl s _

@[simp] theorem lpcUpd_same : Tab.getD (lpcUpd c f s).tier.lpc c {} = f (Tab.getD s.tier.lpc c {}) := Tab.getD_upd_same _ _ _ _

theorem lpcUpd_others : OtherChannels c s (lpcUpd c f s) := fun _ h => Tab.getD_upd_other _ _ _ _ _ h

theorem OtherChannels.trans {s t u : State} (h : OtherChannels c s t) (k : OtherChannels c t u) : OtherChannels c s u :=
  fun j hj => (k j hj).trans (h j hj)

@[simp] theorem chanOf_lpcUpd (n : Nat) : chanOf (lpcUpd c f s) n = chanOf s n := rfl

end

/-! ### T1_SCRUB (07 R187) -/

/-- The cursor of the scrub moves past granule `g`: back to 0, with one more pass, after the last one. -/
def scrubMoved (g : Nat) (s : State) : State :=
  { s with tier := { s.tier with
    scrubAt := if scrubLast s g then 0 else (g + 1) * 512, scrub := if scrubLast s g then satInc s.tier.scrub else s.tier.scrub } }

/-- Granule `g` is read in its channel, and the cursor is past it. -/
def scrubRead (g : Nat) (s : State) : State := lpcUpd (chanOf s (g / 128)) (fun l => { l with rd := l.rd + 1 }) (scrubMoved g s)

/-- A corrected granule is counted and written back. -/
def scrubCorrected (g : Nat) (s : State) : State :=
  lpcUpd (chanOf s (g / 128)) (fun l => { l with wr := l.wr + 1 })
    (lpcUpd (chanOf s (g / 128)) (fun l => { l with ce := satInc l.ce }) (scrubRead g s))

theorem scrub_good {g : Nat} {s : State} (h : scrubNext s = some g) : scrub .good s = scrubRead g s := by
  simp only [scrub, h]; rfl

theorem scrub_corrected {g : Nat} {s : State} (o : Nat) (h : scrubNext s = some g) : scrub (.corrected o) s = scrubCorrected g s := by
  simp only [scrub, h]; rfl

/-- No frame of the firmware reserve was retired, so nothing stops. -/
theorem reserveStop_none {s : State} (h : s.tier.reserveBad = false) : reserveStop s = s := by simp [reserveStop, h]

/-- From `s` to `t` the cursor of the scrub has moved past granule `g`, and no data of T1 has changed. -/
def CursorPast (g : Nat) (s t : State) : Prop :=
  t.tier.scrubAt = (if scrubLast s g then 0 else (g + 1) * 512)
    ∧ t.tier.scrub = (if scrubLast s g then satInc s.tier.scrub else s.tier.scrub) ∧ t.tier.t1 = s.tier.t1 ∧ t.tier.written = s.tier.written

theorem scrubMoved_past (g : Nat) (s : State) : CursorPast g s (scrubMoved g s) := ⟨rfl, rfl, rfl, rfl⟩

theorem CursorPast.lpcUpd {g c : Nat} {f : Lpc → Lpc} {s t : State} (h : CursorPast g s t) : CursorPast g s (lpcUpd c f t) := h

theorem scrubMoved_only (g : Nat) (s : State) : OnlyChanges [.tier] s (scrubMoved g s) := tier_only rfl s _

section
variable (g : Nat) (s : State)

theorem scrubRead_reserve : (scrubRead g s).tier.reserveBad = s.tier.reserveBad := rfl

theorem scrubCorrected_reserve : (scrubCorrected g s).tier.reserveBad = s.tier.reserveBad := scrubRead_reserve g s

theorem scrubRead_only : OnlyChanges [.tier] s (scrubRead g s) := (scrubMoved_only g s).trans lpcUpd_only

theorem scrubRead_past : CursorPast g s (scrubRead g s) := (scrubMoved_past g s).lpcUpd

theorem scrubRead_others : OtherChannels (chanOf s (g / 128)) s (scrubRead g s) := lpcUpd_others (s := scrubMoved g s)

theorem scrubRead_lpc : Tab.getD (scrubRead g s).tier.lpc (chanOf s (g / 128)) {} =
    { Tab.getD s.tier.lpc (chanOf s (g / 128)) {} with rd := (Tab.getD s.tier.lpc (chanOf s (g / 128)) {}).rd + 1 } :=
  lpcUpd_same (s := scrubMoved g s)

theorem scrubCorrected_only : OnlyChanges [.tier] s (scrubCorrected g s) := ((scrubRead_only g s).trans lpcUpd_only).trans lpcUpd_only

theorem scrubCorrected_past : CursorPast g s (scrubCorrected g s) := (scrubRead_past g s).lpcUpd.lpcUpd

theorem scrubCorrected_others : OtherChannels (chanOf s (g / 128)) s (scrubCorrected g s) :=
  ((scrubRead_others g s).trans lpcUpd_others).trans lpcUpd_others

theorem scrubCorrected_lpc : Tab.getD (scrubCorrected g s).tier.lpc (chanOf s (g / 128)) {} =
    { Tab.getD s.tier.lpc (chanOf s (g / 128)) {} with
      rd := (Tab.getD s.tier.lpc (chanOf s (g / 128)) {}).rd + 1, ce := satInc (Tab.getD s.tier.lpc (chanOf s (g / 128)) {}).ce
      wr := (Tab.getD s.tier.lpc (chanOf s (g / 128)) {}).wr + 1 } := by
  unfold scrubCorrected
  rw [lpcUpd_same, lpcUpd_same, scrubRead_lpc]

end

/-! ### REFRESH and REFRESH_MANAGEMENT (07 R188) -/

section
variable (c : Nat) (ns : Word) (s : State)

/-- Channel `c` is refreshed: the interval, and a temperature code that the spec does not give. -/
def refreshed : State :=
  bumpFree (lpcUpd c (fun l => { l with refi := ns, temp := BitVec.ofNat 8 (Config.freeWord s.free).toNat }) s)

/-- A refresh-management command of channel `c` is counted. -/
def rfmCounted : State := lpcUpd c (fun l => { l with rfm := satInc l.rfm }) s

theorem execRefresh_good (ch : Fin 48) (h : chanGood s ch.val = true) : execRefresh ch ns s = .next (refreshed ch.val ns s) := by
  rw [execRefresh, if_pos h, refreshed]

theorem execRefreshManagement_good (ch : Fin 48) (h : chanGood s ch.val = true) :
    execRefreshManagement ch s = .next (rfmCounted ch.val s) := by
  rw [execRefreshManagement, if_pos h, rfmCounted]

theorem refreshed_only : OnlyChanges [.tier, .free] s (refreshed c ns s) := bumpFree_changes rfl (lpcUpd_changes rfl (.refl _ s))

theorem refreshed_others : OtherChannels c s (refreshed c ns s) := lpcUpd_others (s := s)

theorem refreshed_lpc : Tab.getD (refreshed c ns s).tier.lpc c {} =
    { Tab.getD s.tier.lpc c {} with refi := ns, temp := BitVec.ofNat 8 (Config.freeWord s.free).toNat } := lpcUpd_same (s := s)

theorem refreshed_tier : (refreshed c ns s).tier = { s.tier with lpc := (refreshed c ns s).tier.lpc } := rfl

theorem rfmCounted_only : OnlyChanges [.tier] s (rfmCounted c s) := lpcUpd_only

theorem rfmCounted_others : OtherChannels c s (rfmCounted c s) := lpcUpd_others

theorem rfmCounted_lpc : Tab.getD (rfmCounted c s).tier.lpc c {} =
    { Tab.getD s.tier.lpc c {} with rfm := satInc (Tab.getD s.tier.lpc c {}).rfm } := lpcUpd_same

theorem rfmCounted_tier : (rfmCounted c s).tier = { s.tier with lpc := (rfmCounted c s).tier.lpc } := rfl

end

/-! ### A fatal cause begins a governed stop (18 R457, R463) -/

/-- What a stop finds as it was: the phase, the claims and the steps of the port dies, the shutdown's mark, and the security complex. -/
def StopFinds (s t : State) : Prop :=
  t.maint.phase = s.maint.phase ∧ t.maint.claims = s.maint.claims ∧ t.maint.portSteps = s.maint.portSteps ∧ t.sec = s.sec

theorem StopFinds.refl (s : State) : StopFinds s s := ⟨rfl, rfl, rfl, rfl⟩

theorem StopFinds.trans {s t u : State} (h : StopFinds s t) (k : StopFinds t u) : StopFinds s u := by
  obtain ⟨h1, h2, h3, h4⟩ := h
  obtain ⟨k1, k2, k3, k4⟩ := k
  exact ⟨k1.trans h1, k2.trans h2, k3.trans h3, k4.trans h4⟩

theorem unlockStaged_congr {s t : State} (h : t.sec = s.sec) : unlockStaged t = unlockStaged s := by
  unfold unlockStaged
  rw [h]

theorem StopFinds.of_eq {s t : State} (hm : t.maint = s.maint) (hs : t.sec = s.sec) : StopFinds s t :=
  ⟨by rw [hm], by rw [hm], by rw [hm], hs⟩

theorem channelFailed_stopFinds (c : Nat) (s : State) : StopFinds s (channelFailed c s) := by
  have h : OnlyChanges [.dev, .tier] s (channelFailed c s) := channelFailed_changes rfl (.refl _ s)
  exact .of_eq (h .maint rfl) (h.sec_eq rfl rfl)

theorem addRepair_stopFinds (e : RepairEntry) (s : State) : StopFinds s (addRepair e s) := by
  unfold addRepair repairBit
  dsimp only
  split
  · exact .refl s
  · split <;> exact .refl s

theorem writeRecord_maint (f : RepairRecord → RepairRecord) (s : State) : ∃ r b w,
    (writeRecord f s).maint = { s.maint with record := r, pending := [], board := b, repair := w } := ⟨_, _, _, rfl⟩

theorem writeRecord_only (f : RepairRecord → RepairRecord) (s : State) : OnlyChanges [.maint, .out] s (writeRecord f s) :=
  writeRecord_changes rfl (.refl _ s)

theorem writeRecord_stopFinds (f : RepairRecord → RepairRecord) (s : State) : StopFinds s (writeRecord f s) := by
  obtain ⟨r, b, w, h⟩ := writeRecord_maint f s
  exact ⟨by rw [h], by rw [h], by rw [h], (writeRecord_only f s).sec_eq rfl rfl⟩

theorem writeRecord_fatal (f : RepairRecord → RepairRecord) (s : State) :
    (writeRecord f s).dev = s.dev ∧ (writeRecord f s).maint.fatalPin = s.maint.fatalPin := by
  obtain ⟨r, b, w, h⟩ := writeRecord_maint f s
  exact ⟨writeRecord_only f s .dev rfl, by rw [h]⟩

/-- The cause is recorded; the interrupt that tells of it is still to be raised. -/
def fatalRecorded (cause : Nat) (s : State) : State :=
  { s with
    maint := { s.maint with
      fatal := if !bit s.maint.fatal 31 then BitVec.ofNat 32 (2 ^ 31 + cause) else s.maint.fatal ||| 0x40000000
      fatalTb := if !bit s.maint.fatal 31 then BitVec.ofNat 64 s.tb else s.maint.fatalTb
      fatalPin := true }
    dev := { s.dev with fatal := true, err := s.dev.err ||| 0x80000000 } }

theorem recordFatal_eq (cause : Nat) (s : State) : recordFatal cause s = msix 0 3 (fatalRecorded cause s) := rfl

theorem recordFatal_stopFinds (cause : Nat) (s : State) : StopFinds s (recordFatal cause s) :=
  StopFinds.trans (t := fatalRecorded cause s) ⟨rfl, rfl, rfl, rfl⟩ (.of_eq (msix_maint ..) (msix_sec ..))

/-- The device as a fatal cause leaves it before its stop: the cause is recorded, the device is silent, and the repair entries that
waited are written. -/
def fatalNoted (cause : Nat) (s : State) : State :=
  let u := { recordFatal cause s with maint := { (recordFatal cause s).maint with silent := true } }
  if u.maint.pending.isEmpty then u else writeRecord id u

theorem fatalNoted_stopFinds (cause : Nat) (s : State) : StopFinds s (fatalNoted cause s) := by
  have h := recordFatal_stopFinds cause s
  unfold fatalNoted
  dsimp only
  split
  · exact h
  · exact StopFinds.trans (t := { recordFatal cause s with maint := { (recordFatal cause s).maint with silent := true } }) h
      (writeRecord_stopFinds id _)

theorem fatalNoted_fatal (cause : Nat) (s : State) : (fatalNoted cause s).dev.fatal = true ∧ (fatalNoted cause s).maint.fatalPin = true := by
  have h : (recordFatal cause s).dev.fatal = true ∧ (recordFatal cause s).maint.fatalPin = true :=
    ⟨congrArg Dev.fatal (msix_dev 0 3 _), congrArg Maint.fatalPin (msix_maint 0 3 _)⟩
  unfold fatalNoted
  dsimp only
  split
  · exact h
  · obtain ⟨hdev, hpin⟩ := writeRecord_fatal id { recordFatal cause s with maint := { (recordFatal cause s).maint with silent := true } }
    rw [hdev, hpin]
    exact h

theorem fatalStop_running {cause : Nat} {cold : Bool} {s : State} (h : s.maint.phase ≠ 3) :
    fatalStop cause cold s = doReset 4 (cold || (recordFatal cause s).maint.shutdownBegun) true (fatalNoted cause s) := by
  obtain ⟨hp, _, _, _⟩ := recordFatal_stopFinds cause s
  unfold fatalStop
  dsimp only
  rw [if_neg (hp ▸ h)]
  rfl

/-- The governed stop of a cold reset has begun (18 R457, R460): READY is clear, and the reset follows at its end. -/
def coldStopped (cause : Nat) (fatal : Bool) (s : State) : State :=
  let u := stopBegins false true s
  { u with dev := { u.dev with ready := false }, maint := { u.maint with after := .reset (causeOf u cause) true fatal } }

theorem coldStopped_press (cause : Nat) (fatal : Bool) (s : State) (n : Nat) : (cluster (coldStopped cause fatal s) n).press = [] := by
  have h (cs : Tab Cluster) : ((Tab.find (cs.map (fun e : Nat × Cluster => (e.1, { e.2 with press := [] }))) n).getD {}).press = [] := by
    induction cs with
    | nil => rfl
    | cons e rest ih =>
      simp only [List.map_cons, Tab.find]
      split
      · rfl
      · exact ih
  exact h s.clusters

theorem coldStopped_causeOf {cause : Nat} {s : State} (h : unlockStaged s = false) : causeOf (stopBegins false true s) cause = cause := by
  have hs : OnlyChanges [.maint, .tier, .clusters, .free] s (stopBegins false true s) := stopBegins_changes rfl (.refl _ s)
  unfold causeOf
  rw [unlockStaged_congr (hs.sec_eq rfl rfl), h, if_neg Bool.false_ne_true]

/-- A cold reset of a device that has not stopped: its stop goes on while a claim or a step of the port dies is left. -/
theorem doReset_cold_waits {cause : Nat} {fatal : Bool} {s : State} (hp : s.maint.phase ≠ 3)
    (h : ¬(s.maint.claims = [] ∧ s.maint.portSteps = 0)) : doReset cause true fatal s = coldStopped cause fatal s := by
  have hd : rampDone (coldStopped cause fatal s) = false := by
    rw [← Bool.not_eq_true, rampDone, Bool.and_eq_true, List.isEmpty_iff, beq_iff_eq]
    exact h
  unfold doReset
  dsimp only
  rw [if_neg hp, Bool.true_or]
  change afterRamp (if _ && rampDone (coldStopped cause fatal s) then _ else coldStopped cause fatal s) = _
  rw [hd, Bool.and_false, if_neg Bool.false_ne_true]
  exact afterRamp_held rfl

/-- Where neither is left, the reset follows at once. -/
theorem doReset_cold_resets {cause : Nat} {fatal : Bool} {s : State} (hp : s.maint.phase ≠ 3) (hu : unlockStaged s = false)
    (hc : s.maint.claims = []) (hs : s.maint.portSteps = 0) : ∃ u, doReset cause true fatal s = coldReset cause u := by
  have hd : rampDone (coldStopped cause fatal s) = true := by
    rw [rampDone, Bool.and_eq_true, List.isEmpty_iff, beq_iff_eq]
    exact ⟨hc, hs⟩
  refine ⟨{ rampEnds (coldStopped cause fatal s) with
    maint := { (rampEnds (coldStopped cause fatal s)).maint with after := .none } }, ?_⟩
  unfold doReset
  dsimp only
  rw [if_neg hp, Bool.true_or]
  change afterRamp (if true && rampDone (coldStopped cause fatal s) then rampEnds (coldStopped cause fatal s) else _) = _
  rw [hd, Bool.and_true, if_pos rfl, afterRamp_reset (c := cause) (cold := true) (fatal := fatal) ?_ rfl]
  · rfl
  · exact congrArg (fun k => AfterStop.reset k true fatal) (coldStopped_causeOf hu)

/-- Nothing of the requests is left after a cold reset (18 R460). -/
theorem coldReset_req (cause : Nat) (s : State) : (coldReset cause s).req = {} := by
  have h (b : BoardInputs) (u : State) : OnlyChanges [.dev, .maint, .tier] u (trainChannels b (applyRecord b u)) :=
    trainChannels_changes rfl (applyRecord_changes rfl (.refl _ _))
  unfold coldReset coldStart
  dsimp only
  split
  · exact h _ _ .req rfl
  · rfl

/-! ### A channel fails (07 R190) -/

/-- The channel is failed and waits for its entry of the repair record. -/
def channelNoted (c : Nat) (s : State) : State :=
  addRepair { kind := 0x05, source := 0x03, unit := BitVec.ofNat 16 c, bit := 0xFFFF, addr := 0 } (channelFailed c s)

theorem channelNoted_stopFinds (c : Nat) (s : State) : StopFinds s (channelNoted c s) :=
  (channelFailed_stopFinds c s).trans (addRepair_stopFinds _ _)

theorem channelLost_running {c : Nat} {s : State} (h : s.maint.phase = 1) :
    channelLost c s = doReset 4 true true (fatalNoted 2 (channelNoted c s)) := by
  obtain ⟨hp, _, _, _⟩ := channelNoted_stopFinds c s
  have h1 : (channelNoted c s).maint.phase = 1 := hp.trans h
  have hs : selftestStops (channelNoted c s) = channelNoted c s := if_neg (by rw [h1]; decide)
  unfold channelLost
  change fatalStop 2 true (selftestStops (channelNoted c s)) = _
  rw [hs, fatalStop_running (by rw [h1]; decide), Bool.true_or]

/-- The device that the stop of a failed channel finds. -/
theorem channelNoted_ready {s : State} (c : Nat) (hp : s.maint.phase = 1) (hu : unlockStaged s = false) :
    let u := fatalNoted 2 (channelNoted c s)
    u.maint.phase ≠ 3 ∧ u.maint.claims = s.maint.claims ∧ u.maint.portSteps = s.maint.portSteps ∧ unlockStaged u = false
      ∧ u.dev.fatal = true ∧ u.maint.fatalPin = true := by
  obtain ⟨hphase, hclaims, hports, hsec⟩ := (channelNoted_stopFinds c s).trans (fatalNoted_stopFinds 2 _)
  obtain ⟨hfatal, hpin⟩ := fatalNoted_fatal 2 (channelNoted c s)
  exact ⟨by rw [hphase, hp]; decide, hclaims, hports, (unlockStaged_congr hsec).trans hu, hfatal, hpin⟩

/-- Settles O43. The clauses are, in order: T1_SCRUB of a granule that reads well and of one that is corrected; REFRESH,
REFRESH_MANAGEMENT and CHANNEL_FAIL of a good channel; and the three on a channel that is not good. -/
theorem memoryUpkeepCommands : Obligations.MemoryUpkeepCommands := by
  unfold Obligations.MemoryUpkeepCommands
  intro g o ch ns s
  dsimp only
  refine ⟨fun hr hg => ⟨?_, ?_⟩, fun hgood => ⟨?_, ?_, fun hp hu => ?_⟩, fun hbad => ?_⟩
  · have he : reserveStop (scrub .good s) = scrubRead g s := by
      rw [scrub_good hg, reserveStop_none ((scrubRead_reserve g s).trans hr)]
    exact ⟨scrubRead g s, congrArg Host.Outcome.next he, ⟨scrubRead_only g s, scrubRead_others g s, scrubRead_past g s⟩, scrubRead_lpc g s⟩
  · have he : reserveStop (scrub (.corrected o) s) = scrubCorrected g s := by
      rw [scrub_corrected o hg, reserveStop_none ((scrubCorrected_reserve g s).trans hr)]
    exact ⟨scrubCorrected g s, congrArg Host.Outcome.next he, ⟨scrubCorrected_only g s, scrubCorrected_others g s, scrubCorrected_past g s⟩, scrubCorrected_lpc g s⟩
  · refine ⟨refreshed ch.val ns s, ?_, ?_, ?_, ?_, ?_⟩
    · exact execRefresh_good _ _ _ hgood
    · exact refreshed_only _ _ _
    · exact refreshed_others _ _ _
    · exact ⟨_, refreshed_lpc _ _ _⟩
    · exact refreshed_tier _ _ _
  · refine ⟨rfmCounted ch.val s, ?_, ?_, ?_, ?_, ?_⟩
    · exact execRefreshManagement_good _ _ hgood
    · exact rfmCounted_only _ _
    · exact rfmCounted_others _ _
    · exact rfmCounted_lpc _ _
    · exact rfmCounted_tier _ _
  · obtain ⟨hphase, hclaims, hports, hunlock, hfatal, hpin⟩ := channelNoted_ready ch.val hp hu
    generalize he : fatalNoted 2 (channelNoted ch.val s) = u at *
    have hx : exec (.channelFail ch) s = .next (doReset 4 true true u) :=
      congrArg Host.Outcome.next ((if_pos hgood).trans ((channelLost_running hp).trans (he ▸ rfl)))
    rw [← hclaims, ← hports]
    by_cases hd : u.maint.claims = [] ∧ u.maint.portSteps = 0
    · obtain ⟨v, hv⟩ := doReset_cold_resets (cause := 4) (fatal := true) hphase hunlock hd.1 hd.2
      obtain ⟨hforme, hclusters⟩ := coldReset_empty 4 v
      obtain ⟨hready, _, _, hlast⟩ := coldReset_restarted 4 v
      simp only [if_pos hd]
      exact ⟨_, hx.trans (congrArg _ hv), hready, hlast, hforme, hclusters, coldReset_req 4 v⟩
    · simp only [if_neg hd]
      exact ⟨_, hx.trans (congrArg _ (doReset_cold_waits hphase hd)), rfl, rfl,
        congrArg (fun k => AfterStop.reset k true true) (coldStopped_causeOf hunlock), rfl, rfl, hfatal, hpin, coldStopped_press 4 true u⟩
  · have hne : ¬ chanGood s ch.val = true := by simp [hbad]
    exact ⟨congrArg Host.Outcome.next (if_neg hne), congrArg Host.Outcome.next (if_neg hne), congrArg Host.Outcome.next (if_neg hne)⟩

end Sys2Proof.Machine
end

section
/-!
A local append onto lost data (07 R184, R185, R191; 08 R213): a row that fills a granule in part reads that granule first, and a granule
whose data is lost fails its check again, whatever the read itself met. Then no row is placed.
-/

namespace Sys2Proof.Machine

/-- A galley of one layer with one OPEN page, in frame 40000. -/
def onePage : Galley := { (default : Galley) with reqId := 5, layers := 1, layer := [(0, { pages := [(0, { frame := 40000, state := 1 })] })] }

/-- A live device with that galley, which has lost the data of the page's first granule. -/
def lostGranule : State := { pair := { live := 1 }, tier := { lost := [40000 * 128] }, req := { galleys := [(5, onePage)] } }

/-- A row of one byte from the galley's owner, for the page's first entry. -/
def oneByteRow : AppendMsg :=
  { sender := onePage.owner, hdr := { req := 5, pos := 0, step := 0, layer := 0, cls := 1, rowBytes := 1, resv := 0 }, row := [7], reads := .good }

/-- The page has room for the row. -/
theorem lostGranule_takes : (placeRow 5 0 0 0 false [7] lostGranule).isSome = true := rfl

/-- The append reads the lost granule: the failure is noted in DEV_ERR (17 R448 bit 7). -/
theorem lostGranule_fails : bit (appendAt onePage.owner oneByteRow.hdr [7] .good lostGranule).2.dev.err 7 = true := by decide +kernel

/-- A row that is placed notes no error: it changes the tiers, the meters and the request's tables only. -/
theorem placeRow_dev {q : ReqId} {l pos : Nat} {step : Word} {spec : Bool} {row : List Byte} {s u : State}
    (h : placeRow q l pos step spec row s = some u) : u.dev = s.dev :=
  placeRow_changes_of (Q := [.tier, .sched, .req]) rfl h (.refl _ s) .dev rfl

/-- Refutes O49: of a local append the last clause asks only that the read met no error, and then has the row written. In `lostGranule`
the read of `oneByteRow` meets none, but the granule's data is lost: the append is INTEGRITY, DEV_ERR says so, and no row is written. -/
theorem not_trayAccessCommands : ¬ Obligations.TrayAccessCommands := by
  unfold Obligations.TrayAccessCommands
  intro h
  obtain ⟨_, _, _, hlocal⟩ := h default .good [] default oneByteRow lostGranule
  obtain ⟨_, hgalley⟩ := hlocal (by decide) (by decide)
  obtain ⟨_, _, _, hplaced⟩ := hgalley onePage rfl
  obtain ⟨u, hu⟩ := Option.isSome_iff_exists.1 lostGranule_takes
  obtain ⟨t, he, hframe, _⟩ := hplaced (by decide) (.inr (by decide)) (fun hspec => absurd hspec (by decide)) (.inr (by decide)) rfl u hu
  have ht : t = (appendAt onePage.owner oneByteRow.hdr [7] .good lostGranule).2 := (Host.Outcome.next.inj he).symm
  have herr : bit t.dev.err 7 = true := ht ▸ lostGranule_fails
  have hdev : t.dev = lostGranule.dev := (hframe .dev rfl).trans (placeRow_dev hu)
  rw [hdev] at herr
  exact absurd herr (by decide)

end Sys2Proof.Machine
end

section
/-!
Support for the host tier (07 R195 to R202): only the end of a recall counts in TIER_RECALLS, whatever waited for it (08 R228, R231,
R232).
-/

namespace Sys2Proof.Machine

/-! ### What counts no recall -/

section
variable {s t u : State}

/-- An operation outside REQ counts no recall. -/
theorem recalls_of_only {Q : List Block} (h : OnlyChanges Q s t) (hq : Q.contains .req = false) :
    t.req.recalls = s.req.recalls := congrArg Req.recalls (h .req hq)

/-- A fold of operations that count no recall. -/
theorem foldl_recalls {A : Type} {f : State → A → State} (hf : ∀ (s : State) (a : A), (f s a).req.recalls = s.req.recalls)
    (l : List A) (s : State) : (l.foldl f s).req.recalls = s.req.recalls := by
  induction l generalizing s with
  | nil => rfl
  | cons a rest ih => exact (ih _).trans (hf s a)

@[simp] theorem ite_recalls (c : Prop) [Decidable c] (s t : State) :
    (if c then s else t).req.recalls = if c then s.req.recalls else t.req.recalls := apply_ite (fun s => s.req.recalls) c s t

variable (q : ReqId) (s : State)

@[simp] theorem recUpd_recalls (f : Rec → Rec) : (recUpd q f s).req.recalls = s.req.recalls := by
  unfold recUpd; split <;> rfl

@[simp] theorem recRetire_recalls (c : Status) : (recRetire q c s).req.recalls = s.req.recalls := by
  unfold recRetire
  split
  · rfl
  · split <;> rfl

@[simp] theorem reportEnd_recalls (c : Status) : (reportEnd q c s).req.recalls = s.req.recalls := by
  unfold reportEnd
  split
  · rfl
  · split <;> simp [addCond]

@[simp] theorem galleyUpd_recalls (f : Galley → Galley) : (galleyUpd q f s).req.recalls = s.req.recalls := rfl

@[simp] theorem pageUpd_recalls (k l p : Nat) (f : Page → Page) : (pageUpd q k l p f s).req.recalls = s.req.recalls := rfl

@[simp] theorem trayIssue_recalls (d : Nat) (r : TrayReq) (w : TrayWhy) : (trayIssue d r w s).req.recalls = s.req.recalls :=
  recalls_of_only (Q := [.near, .links]) (trayIssue_changes rfl (.refl _ s)) rfl

@[simp] theorem freeT3_recalls : (freeT3 q s).req.recalls = s.req.recalls :=
  recalls_of_only (Q := [.tier]) (freeT3_changes rfl (.refl _ s)) rfl

@[simp] theorem t1Write_recalls (a : Nat) (bs : List Byte) : (t1Write a bs s).req.recalls = s.req.recalls :=
  recalls_of_only (Q := [.tier]) (t1Write_changes rfl (.refl _ s)) rfl

@[simp] theorem meterT1_recalls (t : BitVec 16) (n : Nat) : (meterT1 t n s).req.recalls = s.req.recalls :=
  recalls_of_only (Q := [.sched]) (meterT1_changes rfl (.refl _ s)) rfl

@[simp] theorem meterT2_recalls (t : BitVec 16) (n : Nat) : (meterT2 t n s).req.recalls = s.req.recalls :=
  recalls_of_only (Q := [.sched]) (meterT2_changes rfl (.refl _ s)) rfl

@[simp] theorem meterT3_recalls (t : BitVec 16) (n : Nat) : (meterT3 t n s).req.recalls = s.req.recalls :=
  recalls_of_only (Q := [.sched]) (meterT3_changes rfl (.refl _ s)) rfl

@[simp] theorem syncHeader_recalls (l p n : Nat) : (syncHeader q l p n s).req.recalls = s.req.recalls :=
  recalls_of_only (Q := [.tier]) (syncHeader_changes rfl (.refl _ s)) rfl

@[simp] theorem journal_recalls (j : List JournalItem) : (journal j s).req.recalls = s.req.recalls :=
  recalls_of_only (Q := [.pair]) (journal_changes rfl (.refl _ s)) rfl

@[simp] theorem homeFinish_recalls (h : TrayHdr) (c : Status) (b : List Byte) : (homeFinish h c b s).req.recalls = s.req.recalls :=
  recalls_of_only (Q := [.near, .links]) (homeFinish_changes rfl (.refl _ s)) rfl

@[simp] theorem chargeHeld_recalls (t : BitVec 16) (b : Bool) (n : Nat) : (chargeHeld t b n s).req.recalls = s.req.recalls :=
  recalls_of_only (Q := [.tier]) (chargeHeld_changes rfl (.refl _ s)) rfl

@[simp] theorem quotaReturn_recalls (t : BitVec 16) (n : Nat) : (quotaReturn t n s).req.recalls = s.req.recalls :=
  recalls_of_only (Q := [.tier]) (quotaReturn_changes rfl (.refl _ s)) rfl

@[simp] theorem slotRef_recalls (p t : Nat) (b a : Bool) (n : Nat) : (slotRef p t b a n s).req.recalls = s.req.recalls :=
  recalls_of_only (Q := [.codec]) (slotRef_changes rfl (.refl _ s)) rfl

/-! Pages and galleys -/

@[simp] theorem freePages_recalls (sel : Nat → Bool) : (freePages q sel s).req.recalls = s.req.recalls := by
  unfold freePages
  split <;> simp

@[simp] theorem freeGalley_recalls : (freeGalley q s).req.recalls = s.req.recalls := by
  unfold freeGalley
  split <;> simp

@[simp] theorem resetGalley_recalls : (resetGalley q s).req.recalls = s.req.recalls := by simp [resetGalley]

theorem openPage_recalls {k l p : Nat} {st : BitVec 3} (h : openPage q k l p st s = some t) : t.req.recalls = s.req.recalls := by
  unfold openPage at h
  split at h
  · cases h
  · split at h
    · cases h
    · cases h
      simp

theorem writeThumb_recalls {l p : Nat} {e : List Byte} (h : writeThumb q l p e s = some t) : t.req.recalls = s.req.recalls := by
  unfold writeThumb at h
  split at h
  · cases h
  · dsimp only at h
    split at h
    · cases h
    · next u hu =>
      have k : u.req.recalls = s.req.recalls := by
        split at hu
        · exact openPage_recalls q s hu
        · exact congrArg (fun s => s.req.recalls) (Option.some.inj hu).symm
      split at h
      · cases h
      · cases h
        simpa using k

@[simp] theorem sealCode_recalls (g : Galley) (l p : Nat) (codes : List Nat) :
    (sealCode q g l p codes s).1.req.recalls = s.req.recalls := by
  unfold sealCode
  split
  · rfl
  · simp

theorem sealThumb_recalls {g : Galley} {l p : Nat} {codes : List Nat} (h : sealThumb q g l p codes s = some t) :
    t.req.recalls = s.req.recalls := by
  unfold sealThumb at h
  split at h
  · cases h; rfl
  · split at h
    · exact writeThumb_recalls q s h
    · cases h; rfl

theorem sealPage_recalls {l p : Nat} {d : Digest} (h : sealPage q l p s = some (d, t)) : t.req.recalls = s.req.recalls := by
  unfold sealPage at h
  split at h
  · cases h
  · dsimp only at h
    split at h
    · cases h
    · next u hu =>
      cases h
      simpa using sealThumb_recalls q s hu

theorem restorePage_recalls {k l p : Nat} {sealed : Bool} {w : BitVec 64} {tags : Tab Word} {bs : List Byte}
    (h : restorePage q k l p sealed w tags bs s = some t) : t.req.recalls = s.req.recalls := by
  unfold restorePage at h
  split at h
  · cases h
  · next u hu =>
    have k : u.req.recalls = s.req.recalls := openPage_recalls q (pageUpd q _ _ _ _ s) hu
    split at h
    · cases h
    · dsimp only at h
      split at h
      · cases h
        simpa using k
      · split at h
        · obtain ⟨⟨d, v⟩, hv, rfl⟩ := Option.map_eq_some_iff.1 h
          simpa [k] using sealPage_recalls q _ hv
        · cases h
          simpa using k

/-! The pair -/

@[simp] theorem stageDropped_recalls : (stageDropped q s).req.recalls = s.req.recalls := by
  unfold stageDropped
  split
  · rfl
  · dsimp only
    split
    · rw [foldl_recalls (fun _ _ => trayIssue_recalls _ _ _ _), recUpd_recalls]
    · simp

@[simp] theorem handedOver_recalls (d : DevId) (m : StageResume) : (handedOver q d m s).req.recalls = s.req.recalls := by
  unfold handedOver
  split <;> simp

@[simp] theorem runThen_recalls (t : MirrorThen) : (runThen t s).req.recalls = s.req.recalls := by
  cases t <;> simp [runThen]

@[simp] theorem mirrorSend_recalls (g : Galley) (rs : List TrayReq) (t : MirrorThen) :
    (mirrorSend g rs t s).req.recalls = s.req.recalls := by
  unfold mirrorSend
  dsimp only
  split
  · simp
  · split
    · simp
    · split
      · simp
      · rw [foldl_recalls (fun _ _ => trayIssue_recalls _ _ _ _)]
        simp

/-- A group of mirrored writes that nothing waits for changes nothing of REQ. -/
theorem mirrorSend_none_req (g : Galley) (rs : List TrayReq) : (mirrorSend g rs .none s).req = s.req := by
  have hjournal (j : List JournalItem) (u : State) : (journal j u).req = u.req := journal_changes (Q := [.pair]) rfl (.refl _ u) .req rfl
  have hfold (p i : Nat) (u : State) : (rs.foldl (fun s r => trayIssue p r (.mirror i) s) u).req = u.req :=
    foldl_changes (ps := [.near, .links]) (.refl _ u) (fun _ _ k => trayIssue_changes rfl k) .req rfl
  unfold mirrorSend
  dsimp only
  split
  · simp only [oneCopy, runThen]
    split
    · exact hjournal _ s
    · rfl
  · split
    · rfl
    · split
      · rfl
      · exact (hfold _ _ _).trans (hjournal _ s)

@[simp] theorem memberDrop_recalls : (memberDrop q s).req.recalls = s.req.recalls := by
  unfold memberDrop
  split <;> simp

@[simp] theorem memberReset_recalls (c : Byte) : (memberReset q c s).req.recalls = s.req.recalls := by
  unfold memberReset
  split <;> simp

/-! The start of a shelve or a recall, and what waited for the end of one -/

@[simp] theorem resumeReady_recalls (m : StageResume) : (resumeReady q m s).req.recalls = s.req.recalls := by
  unfold resumeReady
  split <;> simp

@[simp] theorem shelveStart_recalls (d : Bool) : (shelveStart q d s).req.recalls = s.req.recalls := by
  unfold shelveStart
  split
  · rfl
  · dsimp only
    split <;> simp

@[simp] theorem shelveEarly_recalls (p n : Nat) : (shelveEarly p n s).req.recalls = s.req.recalls := by
  have h (l : List Galley) (a : State × Nat) : ((l.foldl (fun (a : State × Nat) g =>
      if a.2 = 0 then a else (shelveStart g.reqId false a.1, a.2 - g.resv)) a).1).req.recalls = a.1.req.recalls := by
    induction l generalizing a with
    | nil => rfl
    | cons g rest ih =>
      rw [List.foldl_cons, ih]
      split <;> simp
  exact h _ _

@[simp] theorem reserved_recalls (n : Nat) : (reserved q n s).req.recalls = s.req.recalls := by simp [reserved]

@[simp] theorem recallBegin_recalls : (recallBegin q s).req.recalls = s.req.recalls := by simp [recallBegin]

theorem quotaReserve_recalls {t : BitVec 16} {n : Nat} {c : Status} {u : State} (h : quotaReserve t n s = (c, u)) :
    u.req.recalls = s.req.recalls :=
  recalls_of_only (Q := [.tier]) (quotaReserve_changes_of rfl h (.refl _ s)) rfl

@[simp] theorem recallStart_recalls (m : StageResume) : (recallStart q m s).req.recalls = s.req.recalls := by
  unfold recallStart
  split
  · rfl
  · dsimp only
    split
    · rfl
    · split
      · next u hu => simp [quotaReserve_recalls _ hu]
      · rfl

@[simp] theorem memberResume_recalls (m : StageResume) : (memberResume m s).req.recalls = s.req.recalls := by
  unfold memberResume
  dsimp only
  split <;> simp

@[simp] theorem afterShelf_recalls : (afterShelf q s).req.recalls = s.req.recalls := by
  unfold afterShelf
  split
  · split
    · simp
    · split <;> simp
  · rfl

/-! ### The end of a recall -/

/-- The end of a recall counts it (07 R196). -/
theorem recallDone_recalls {g : Galley} (hg : galleyOf s q = some g) : (recallDone q s).req.recalls = satInc s.req.recalls := by
  have hrestore (k l p : Nat) (sealed : Bool) (w : BitVec 64) (tags : Tab Word) (bs : List Byte) (u : State) :
      ((restorePage q k l p sealed w tags bs u).getD u).req.recalls = u.req.recalls := by
    cases h : restorePage q k l p sealed w tags bs u with
    | none => rfl
    | some v => exact restorePage_recalls q u h
  unfold recallDone
  rw [hg]
  dsimp only
  split <;> simp [foldl_recalls (fun _ _ => hrestore _ _ _ _ _ _ _ _)]

end

end Sys2Proof.Machine
end

section
/-!
The host-tier events (07 R196 to R200): what a shelve that completes or is abandoned leaves, when one starts, what expires, and what the
end of a recall does.
-/

namespace Sys2Proof.Machine

section
variable {q : ReqId} {g : Galley} {a : T3Area} {u : Quota} {s : State}

/-- Nothing waited for the end of a shelve. -/
theorem afterShelf_unawaited (hg : galleyOf s q = some g) (hd : g.dropAfter = false) (hr : g.resume = none) : afterShelf q s = s := by
  unfold afterShelf
  rw [hg]
  cases recLive s q <;> simp [hd, hr]

/-! ### A fault of a shelve (07 R198) -/

/-- A fault of the host tier is counted (17 R448 bit 6). -/
def t3Counted (s : State) : State := noteErr 6 0 0x048 { s with tier := { s.tier with t3Err := satInc s.tier.t3Err } }

theorem t3Counted_only : OnlyChanges [.dev, .tier] s (t3Counted s) :=
  noteErr_changes rfl (tier_only rfl s _)

theorem t3Counted_tier : (t3Counted s).tier = { s.tier with t3Err := satInc s.tier.t3Err } := noteErr_tier _ _ _ _

theorem t3Fault_shelving (hg : galleyOf s q = some g) (hop : g.op = .shelving) :
    t3Fault q s = afterShelf q (shelveAbandon q (t3Counted s)) := by
  unfold t3Fault
  rw [hg]
  dsimp only
  rw [hop]
  rfl

theorem shelveUndo_eq (hg : galleyOf s q = some g) (ha : Tab.find s.tier.t3 g.part.toNat = some a) :
    shelveUndo q s = galleyUpd q (fun g => { g with op := .idle }) { s with tier := { s.tier with
      t3 := Tab.put s.tier.t3 g.part.toNat { a with frames := a.frames.filter (fun f => f.2 != q) } } } := by
  simp only [shelveUndo, hg, ha]

/-- The galley of an abandoned shelve stays, and its frames are free. -/
theorem shelveAbandon_frees (hg : galleyOf s q = some g) (ha : Tab.find s.tier.t3 g.part.toNat = some a) :
    galleyOf (shelveAbandon q s) q = some { g with op := .idle, faultAt := some s.tb } ∧ (shelveAbandon q s).tier.t3Err = s.tier.t3Err
      ∧ ∃ b : T3Area, Tab.find (shelveAbandon q s).tier.t3 g.part.toNat = some b ∧ ∀ f ∈ b.frames, f.2 ≠ q := by
  have hx : galleyOf { s with tier := { s.tier with
      t3 := Tab.put s.tier.t3 g.part.toNat { a with frames := a.frames.filter (fun f => f.2 != q) } } } q = some g := hg
  unfold shelveAbandon
  rw [shelveUndo_eq hg ha]
  refine ⟨?_, rfl, _, Tab.find_put_same _ _ _, fun f hf => ?_⟩
  · rw [galleyOf_galleyUpd_same, galleyOf_galleyUpd_same, hx]
    rfl
  · simpa using (List.mem_filter.1 hf).2

/-- A fault of a shelve that nothing waits for abandons it, and is counted. -/
theorem t3Fault_abandons (hg : galleyOf s q = some g) (ha : Tab.find s.tier.t3 g.part.toNat = some a) (hop : g.op = .shelving)
    (hd : g.dropAfter = false) (hr : g.resume = none) :
    OnlyChanges [.dev, .tier, .req] s (t3Fault q s) ∧ galleyOf (t3Fault q s) q = some { g with op := .idle, faultAt := some s.tb }
      ∧ (∃ b : T3Area, Tab.find (t3Fault q s).tier.t3 g.part.toNat = some b ∧ ∀ f ∈ b.frames, f.2 ≠ q)
      ∧ (t3Fault q s).tier.t3Err = satInc s.tier.t3Err ∧ bit (t3Fault q s).dev.err 6 = true := by
  have hgc : galleyOf (t3Counted s) q = some g := (galleyOf_congr (congrArg Req.galleys (t3Counted_only .req rfl)) q).trans hg
  have hac : Tab.find (t3Counted s).tier.t3 g.part.toNat = some a := by rw [t3Counted_tier]; exact ha
  obtain ⟨hgal, herr, hfrees⟩ := shelveAbandon_frees hgc hac
  rw [show (t3Counted s).tb = s.tb from t3Counted_only .tb rfl] at hgal
  have hdev : (shelveAbandon q (t3Counted s)).dev = (t3Counted s).dev :=
    shelveAbandon_changes (Q := [.tier, .req]) rfl (.refl _ _) .dev rfl
  rw [t3Fault_shelving hg hop, afterShelf_unawaited hgal hd hr]
  refine ⟨shelveAbandon_changes rfl (noteErr_changes rfl (tier_only rfl s _)), hgal, hfrees, ?_, ?_⟩
  · rw [herr, t3Counted_tier]
  · rw [hdev]
    exact bit_noteErr (by decide) _ _ _

/-! ### A shelve that completes (07 R196, R197) -/

/-- Every latent and thumb page of a galley is SHELVED. -/
def OnlyShelved (g : Galley) : Prop := ∀ l ∈ g.layer, ∀ p ∈ l.2.pages ++ l.2.thumbs, p.2.state = 4

/-- The galley of request `q` is shelved so far, with what waits for the shelve of `g` and `n` shelves counted. -/
def ShelvedSoFar (q : ReqId) (g : Galley) (n : Word) (s : State) : Prop :=
  s.req.shelves = n ∧ ∃ x : Galley, galleyOf s q = some x ∧ OnlyShelved x ∧ x.dropAfter = g.dropAfter ∧ x.resume = g.resume

theorem ShelvedSoFar.congr {n : Word} {t : State} (h : ShelvedSoFar q g n s) (k : t.req = s.req) : ShelvedSoFar q g n t := by
  obtain ⟨hn, x, hx, hs⟩ := h
  exact ⟨(congrArg Req.shelves k).trans hn, x, (galleyOf_congr (congrArg Req.galleys k) q).trans hx, hs⟩

@[simp] theorem recUpd_shelves (f : Rec → Rec) : (recUpd q f s).req.shelves = s.req.shelves := by
  unfold recUpd; split <;> rfl

@[simp] theorem galleyOf_recUpd (f : Rec → Rec) (p : ReqId) : galleyOf (recUpd q f s) p = galleyOf s p :=
  galleyOf_congr (recUpd_galleys q f s) p

theorem ShelvedSoFar.recUpd {n : Word} (h : ShelvedSoFar q g n s) (f : Rec → Rec) : ShelvedSoFar q g n (recUpd q f s) := by
  obtain ⟨hn, x, hx, hs⟩ := h
  exact ⟨(recUpd_shelves f).trans hn, x, (galleyOf_recUpd f q).trans hx, hs⟩

/-- A galley that has lost its latent and thumb pages. -/
theorem freePages_onlyShelved (hg : galleyOf s q = some g) : ShelvedSoFar q g s.req.shelves (freePages q (fun k => k != 2) s) := by
  have hreq (p : Nat) (t : BitVec 16) (i : Nat) (b : Bool) (n m : Nat) : (chargeHeld t false n (slotRef p i b false m s)).req = s.req :=
    chargeHeld_changes (Q := [.codec, .tier]) rfl (slotRef_changes rfl (.refl _ s)) .req rfl
  unfold freePages
  rw [hg]
  dsimp only
  refine ⟨(recUpd_shelves _).trans (congrArg Req.shelves (hreq ..)), ?_⟩
  rw [galleyOf_galleyUpd_same, galleyOf_recUpd, galleyOf_congr (congrArg Req.galleys (hreq ..)), hg]
  refine ⟨_, rfl, fun l hl => ?_, rfl, rfl⟩
  obtain ⟨y, -, rfl⟩ := List.mem_map.1 hl
  simp

/-- A layer of SHELVED pages may take the place of another. -/
theorem OnlyShelved.put {l : Nat} {x : GLayer} (h : OnlyShelved g) (hx : ∀ p ∈ x.pages ++ x.thumbs, p.2.state = 4) :
    OnlyShelved { g with layer := Tab.put g.layer l x } := by
  intro e he
  rcases Tab.mem_put _ _ _ _ he with rfl | he
  · exact hx
  · exact h e he

theorem OnlyShelved.layerOf (h : OnlyShelved g) (l : Nat) : ∀ p ∈ (layerOf g l).pages ++ (layerOf g l).thumbs, p.2.state = 4 := by
  unfold Machine.layerOf Tab.getD
  cases hl : Tab.find g.layer l with
  | none => simp
  | some x => exact h _ (Tab.mem_of_find hl)

/-- A page that becomes SHELVED leaves the others as they are. -/
theorem ShelvedSoFar.pageUpd {n : Word} (h : ShelvedSoFar q g n s) (k l p : Nat) {x : Page} (hx : x.state = 4) :
    ShelvedSoFar q g n (pageUpd q k l p (fun _ => x) s) := by
  obtain ⟨hn, y, hy, hs, hd, hr⟩ := h
  have hput (t : Tab Page) (ht : ∀ p ∈ t, p.2.state = 4) : ∀ e ∈ Tab.put t p x, e.2.state = 4 := fun e he => by
    rcases Tab.mem_put _ _ _ _ he with rfl | he
    · exact hx
    · exact ht e he
  obtain ⟨hpages, hthumbs⟩ := List.forall_mem_append.1 (hs.layerOf l)
  refine ⟨hn, _, by rw [Machine.pageUpd, galleyOf_galleyUpd_same, hy]; rfl, ?_⟩
  match k with
  | 0 => exact ⟨hs.put (List.forall_mem_append.2 ⟨hput _ hpages, hthumbs⟩), hd, hr⟩
  | 1 => exact ⟨hs.put (List.forall_mem_append.2 ⟨hpages, hput _ hthumbs⟩), hd, hr⟩
  | k + 2 => exact ⟨hs, hd, hr⟩

theorem ShelvedSoFar.pages {A : Type} {n : Word} {k l p : A → Nat} {x : A → Page} (hx : ∀ a, (x a).state = 4) (r : List A)
    (h : ShelvedSoFar q g n s) : ShelvedSoFar q g n (r.foldl (fun s a => Machine.pageUpd q (k a) (l a) (p a) (fun _ => x a) s) s) := by
  induction r generalizing s with
  | nil => exact h
  | cons a rest ih => exact ih (h.pageUpd _ _ _ (hx a))

/-- What a shelve writes to T3: the page, its frame and its image. -/
def shelfKept (s : State) (g : Galley) (frames : List Nat) : List ((Nat × Nat × Nat × Bool) × Nat × List Byte) :=
  ((shelfContent g).zip frames).map (fun x => (x.1, x.2, shelfImage s g x.1.1 x.1.2.1 x.1.2.2.1 x.1.2.2.2))

/-- The content of a shelve stands in T3: it is counted, only SHELVED pages are left, the galley is at rest, and its expiry is set. -/
theorem shelveStore_shelved (frames : List Nat) (hg : galleyOf s q = some g) :
    (shelveStore q g frames s).req.shelves = satInc s.req.shelves
      ∧ ∃ x : Galley, galleyOf (shelveStore q g frames s) q = some x ∧ OnlyShelved x ∧ x.dropAfter = g.dropAfter ∧ x.resume = g.resume
        ∧ x.op = .idle ∧ x.expiry = s.tb + g.rec_.ttl.toNat * Config.tbPerMs ∧ x.pausedAt = none ∧ x.drainShelf = false := by
  have hwrite (l : List ((Nat × Nat × Nat × Bool) × Nat × List Byte)) : (l.foldl (fun s x => shelfWrite g x.1.2.1 x.1.2.2.1 x.2.1 x.2.2 s) s).req = s.req :=
    foldl_changes (ps := [.out]) (.refl _ s) (fun _ _ k => shelfWrite_changes rfl k) .req rfl
  have hmeter (n : Nat) (v : State) : (meterT3 g.tenant n (meterT1 g.tenant n v)).req = v.req :=
    meterT3_changes (Q := [.sched]) rfl (meterT1_changes rfl (.refl _ v)) .req rfl
  have hquota (n : Nat) (f : Quota → Quota) (v : State) : (quotaUpd g.tenant f (quotaReturn g.tenant n v)).req = v.req :=
    quotaUpd_changes (Q := [.tier]) rfl (quotaReturn_changes rfl (.refl _ v)) .req rfl
  have hfreed := freePages_onlyShelved ((galleyOf_congr (congrArg Req.galleys (hwrite (shelfKept s g frames))) q).trans hg)
  rw [hwrite] at hfreed
  have hpages := (hfreed.congr (hmeter ((shelfKept s g frames).map (fun x => x.2.2.length)).sum _)).pages
    (A := (Nat × Nat × Nat × Bool) × Nat × List Byte) (k := fun x => x.1.1) (l := fun x => x.1.2.1) (p := fun x => x.1.2.2.1)
    (x := fun x => { frame := x.2.1, state := 4, shelf := x.2.2, tail := x.1.2.2.2 }) (fun _ => rfl) (shelfKept s g frames)
  obtain ⟨hn, x, hx, hs, hd, hr⟩ := hpages.congr (hquota (g.resv - (g.hist.filter (fun p => inT1 p.2)).length)
    (fun u => { u with t3Used := u.t3Used + ((shelfContent g).zip frames).length }) _)
  unfold shelveStore
  dsimp only
  rw [mirrorSend_none_req, galleyOf_congr (congrArg Req.galleys (mirrorSend_none_req ..))]
  refine ⟨?_, ?_⟩
  · dsimp only
    rw [sendFw_req, recUpd_shelves]
    exact congrArg satInc hn
  · refine ⟨_, (galleyOf_sendFw ..).trans ((galleyOf_recUpd ..).trans ((galleyOf_galleyUpd_same ..).trans (congrArg _ hx))), ?_⟩
    exact ⟨hs, hd, hr, rfl, rfl, rfl, rfl⟩

/-- The shelve in progress completes where its reads are good and its charge fits the limit (07 R191, R196, R202). -/
theorem shelveDone_stores (hg : galleyOf s q = some g) (hop : g.op = .shelving) (ha : Tab.find s.tier.t3 g.part.toNat = some a)
    (hread : moverRead g ((shelfContent g).map (fun x => (x.1, x.2.1, x.2.2.1))) .good s = (true, s))
    (hu : Tab.find s.tier.quotas g.tenant.toNat = some u) (hroom : u.t3Used + (shelfContent g).length ≤ u.t3Limit) :
    shelveDone q .good s = shelveStore q g ((a.frames.filter (fun f => f.2 == q)).map (fun f => f.1)) s := by
  unfold shelveDone
  simp [hg, hop, ha, hread, Tab.getD, hu, hroom]

/-! ### The start of a shelve (07 R198, R199; 08 R231) -/

theorem shelveRetry_wanted (hg : galleyOf s q = some g) (hop : g.op = .idle) (hserve : g.serving = mySlot s) (hres : isShelved g = false)
    (hwant : shelveWanted s g = true) (hdue : retryDue s g = true) : shelveRetry q s = shelveStart q g.drainShelf s := by
  unfold shelveRetry
  simp [hg, hop, hserve, hres, hwant, hdue]

/-- Within 1 ms of a fault nothing starts. -/
theorem shelveRetry_early (hg : galleyOf s q = some g) (hdue : retryDue s g = false) : shelveRetry q s = s := by
  unfold shelveRetry
  simp [hg, hdue]

/-- Without a bound area nothing starts. -/
theorem shelveStart_unbound (hg : galleyOf s q = some g) (ha : Tab.find s.tier.t3 g.part.toNat = none) : shelveStart q false s = s := by
  unfold shelveStart
  rw [hg]
  dsimp only
  split
  · next ha' => rw [ha] at ha'; cases ha'
  · rfl

/-- Where every condition holds the shelve starts, with the lowest free frames of the area. -/
theorem shelveStart_starts (d : Bool) (hg : galleyOf s q = some g) (hop : g.op = .idle) (hmover : moverOut s < 4096)
    (hserve : g.serving = mySlot s) (hdue : retryDue s g = true) (hflr : 0 ∉ s.host.flr)
    (hu : Tab.find s.tier.quotas g.tenant.toNat = some u) (ha : Tab.find s.tier.t3 g.part.toNat = some a)
    (hfree : (shelfContent g).length ≤ (freeT3Frames s g.part.toNat).length) (hroom : u.t3Used + (shelfContent g).length ≤ u.t3Limit) :
    shelveStart q d s = galleyUpd q (fun g => { g with op := .shelving, drainShelf := g.drainShelf || d, shelveSeq := g.shelveSeq + 1 })
      { s with tier := { s.tier with t3 := Tab.put s.tier.t3 g.part.toNat { a with
          frames := ((freeT3Frames s g.part.toNat).take (shelfContent g).length).foldl (fun t f => Tab.put t f q) a.frames } } } := by
  unfold shelveStart
  simp [hg, hop, hmover, hserve, hdue, hflr, hu, ha, hfree, hroom]

/-! ### Expiry (07 R197) -/

theorem freeT3_expired : (freeT3 q s).tier.expired = s.tier.expired := by
  unfold freeT3
  split
  · rfl
  · dsimp only
    split <;> rfl

@[simp] theorem galleyOf_freeT3 (p : ReqId) : galleyOf (freeT3 q s) p = galleyOf s p :=
  galleyOf_congr (congrArg Req.galleys (freeT3_changes (Q := [.tier]) rfl (.refl _ s) .req rfl)) p

/-- A galley whose pages have expired has no SHELVED page. -/
theorem expirePages_none (hg : galleyOf s q = some g) :
    ∃ x : Galley, galleyOf (expirePages q s) q = some x ∧ ∀ l ∈ x.layer, ∀ p ∈ l.2.pages ++ l.2.thumbs, p.2.state ≠ 4 := by
  have hex (p : Page) : (if p.state = 4 then ({ state := 5 } : Page) else p).state ≠ 4 := by
    split
    · decide
    · assumption
  unfold expirePages
  rw [galleyOf_galleyUpd_same, galleyOf_freeT3, hg]
  refine ⟨_, rfl, fun l hl p hp => ?_⟩
  obtain ⟨y, -, rfl⟩ := List.mem_map.1 hl
  rcases List.mem_append.1 hp with hp | hp
  · obtain ⟨z, -, rfl⟩ := List.mem_map.1 hp
    exact hex _
  · obtain ⟨z, -, rfl⟩ := List.mem_map.1 hp
    exact hex _

/-- A galley that is not shelved and past its expiry, or that a recall holds, does not expire. -/
theorem galleyExpiry_kept (hg : galleyOf s q = some g) (h : g.recalled = true ∨ s.tb < g.expiry) : galleyExpiry q s = s := by
  unfold galleyExpiry
  rw [hg]
  rcases h with h | h
  · simp [h]
  · simp [Nat.not_le.2 h]

theorem galleyExpiry_expires (hg : galleyOf s q = some g) (hsh : isShelved g = true) (hop : g.op = .idle) (hr : g.resume = none)
    (hrec : g.recalled = false) (hexp : g.expiry ≤ s.tb) (hserve : g.serving = mySlot s) :
    galleyExpiry q s = { expirePages q s with tier := { (expirePages q s).tier with expired := satInc s.tier.expired } } := by
  have hslot : mySlot (expirePages q s) = mySlot s :=
    congrArg (fun d => d.ident.maj.extractLsb' 0 4) (expirePages_changes (Q := [.tier, .req]) rfl (.refl _ s) .dev rfl)
  have hcount : (expirePages q s).tier.expired = s.tier.expired := freeT3_expired
  unfold galleyExpiry
  simp [hg, hsh, hop, hr, hrec, hexp, hserve, hslot, hcount]

/-! ### The end of a recall (07 R196, R198) -/

theorem recallEnd_good {b : Bool} (hg : galleyOf s q = some g) (hop : g.op = .recalling b) :
    recallEnd q true s = afterShelf q (recallDone q s) := by
  unfold recallEnd
  simp [hg, hop]

theorem recallEnd_failed {b : Bool} (hg : galleyOf s q = some g) (hop : g.op = .recalling b) (hd : g.dropAfter = false) :
    recallEnd q false s = reportEnd q .integrity (galleyUpd q (fun g => { g with op := .idle, resume := none }) s) := by
  unfold recallEnd
  simp [hg, hop, hd]

theorem addCond_conds {r : Rec} (c : Status) (hr : recLive s q = some r) :
    ∃ x : Rec, recFind (addCond q c s) q = some x ∧ c ∈ x.conds := by
  obtain ⟨i, hi⟩ := recEntry_of_recLive hr
  obtain ⟨hid, h0⟩ := recEntry_spec hi
  refine ⟨if r.conds.contains c then r else { r with conds := r.conds ++ [c] },
    recFind_recUpd (recLive_eq_some.1 hr).1 (by split <;> exact hid) (by split <;> exact h0), ?_⟩
  split
  · next h => simpa using h
  · simp

/-- A condition that is reported stands in the request's record, and no galley changes. -/
theorem reportEnd_conds (c : Status) : (reportEnd q c s).req.galleys = s.req.galleys
    ∧ ∀ r : Rec, recLive s q = some r → ∃ x : Rec, recFind (reportEnd q c s) q = some x ∧ c ∈ x.conds := by
  unfold reportEnd
  split
  · next h => exact ⟨rfl, fun r hr => by rw [h] at hr; cases hr⟩
  · next y hy =>
    split
    · next hin => exact ⟨rfl, fun _ _ => ⟨y, (recLive_eq_some.1 hy).1, by simpa using hin⟩⟩
    · refine ⟨(congrArg Req.galleys (sendFw_req ..)).trans (recUpd_galleys ..), fun r hr => ?_⟩
      rw [recFind_congr (congrArg Req.recs (sendFw_req ..))]
      exact addCond_conds c hr

end

/-! ### The statement -/

/-- Settles O44: the shelve in progress ends by a fault or by its completion, a wanted one starts where every condition holds, an expired
galley loses its SHELVED pages, and a recall is counted once, in its end, or ends the request with INTEGRITY. -/
theorem shelfCommands : Obligations.ShelfCommands := by
  unfold Obligations.ShelfCommands
  intro q g a u s hg hfenced
  refine ⟨fun ha hop hdrop hres => ⟨?_, fun _ hread hu hroom => ?_⟩, fun hop hserve hsh hwant => ⟨fun hearly => ?_,
    fun hdue hflr hmover hu ha hfree hroom => ?_, fun hdrain hdue ha => ?_⟩, fun hrec => ?_, fun hsh hop hres hrec hexp hserve => ?_,
    fun _ hlate => ?_, fun ⟨b, hop⟩ => ⟨?_, fun hdrop => ?_⟩⟩
  · exact ⟨_, rfl, t3Fault_abandons hg ha hop hdrop hres⟩
  · obtain ⟨hcount, x, hx, hshelved, hd, hr, hidle, hexp, hpaused, hdrain⟩ :=
      shelveStore_shelved ((a.frames.filter (fun f => f.2 == q)).map (fun f => f.1)) hg
    have hexec : exec (.shelveComplete ⟨q, .good⟩) s = .next (afterShelf q (shelveDone q .good s)) := by
      show execShelveComplete ⟨q, .good⟩ s = _
      simp only [execShelveComplete, hg, hop, if_true]
    rw [shelveDone_stores hg hop ha hread hu hroom, afterShelf_unawaited hx (hd.trans hdrop) (hr.trans hres)] at hexec
    exact ⟨_, hexec, hcount, x, hx, hidle, hexp, hpaused, hdrain, hshelved⟩
  · exact congrArg Host.Outcome.next ((unlessFenced_of _ hfenced).trans (shelveRetry_early hg hearly))
  · have hexec := (unlessFenced_of (shelveRetry q) hfenced).trans ((shelveRetry_wanted hg hop hserve hsh hwant hdue).trans
      (shelveStart_starts g.drainShelf hg hop hmover hserve hdue hflr hu ha hfree hroom))
    refine ⟨_, congrArg Host.Outcome.next hexec, galleyUpd_changes rfl (tier_only rfl s _), ?_, _, Tab.find_put_same _ _ _, rfl⟩
    exact (galleyOf_galleyUpd_same ..).trans ((congrArg _ hg).trans (by simp))
  · have hexec := (unlessFenced_of (shelveRetry q) hfenced).trans ((shelveRetry_wanted hg hop hserve hsh hwant hdue).trans
      (hdrain ▸ shelveStart_unbound hg ha))
    exact congrArg Host.Outcome.next hexec
  · exact congrArg Host.Outcome.next (galleyExpiry_kept hg (.inl hrec))
  · obtain ⟨x, hx, hnone⟩ := expirePages_none hg
    exact ⟨_, congrArg Host.Outcome.next (galleyExpiry_expires hg hsh hop hres hrec hexp hserve),
      (expirePages_changes rfl (.refl _ s)).trans (tier_only rfl _ _), rfl, x, hx, hnone⟩
  · exact congrArg Host.Outcome.next (galleyExpiry_kept hg (.inr hlate))
  · exact ⟨_, congrArg Host.Outcome.next (recallEnd_good hg hop), (afterShelf_recalls q _).trans (recallDone_recalls q s hg)⟩
  · obtain ⟨hgal, hconds⟩ := reportEnd_conds (q := q) (s := galleyUpd q (fun g => { g with op := .idle, resume := none }) s) .integrity
    refine ⟨_, congrArg Host.Outcome.next (recallEnd_failed hg hop hdrop), reportEnd_changes rfl (galleyUpd_changes rfl (.refl _ s)), ?_, ?_,
      fun r hr => hconds r hr⟩
    · exact reportEnd_recalls q _ _
    · rw [galleyOf_congr hgal, galleyOf_galleyUpd_same, hg]
      rfl

end Sys2Proof.Machine
end

section
/-!
Capsule entries (15 R405 to R407; 16 R416 to R424): what a capsule answers, that its entry is taken whatever it does, and what an
admission, a resume and a cancellation leave.
-/

namespace Sys2Proof.Machine

/-! ### The head of a ring set -/

theorem ringUpd_sqHead {k : RingRef} {f : RingSet → RingSet} (s : State) (hf : ∀ x, (f x).sqHead = x.sqHead) :
    (ringSet (ringUpd k f s) k).sqHead = (ringSet s k).sqHead := by rw [ringSet_ringUpd_same]; exact hf _

theorem ringSet_congr {s t : State} (h : t.host = s.host) (k : RingRef) : ringSet t k = ringSet s k := by
  unfold ringSet fnHost; rw [h]

theorem sqHead_ite {k : RingRef} {c : Prop} [Decidable c] {a b : State} {n : BitVec 16} (ha : (ringSet a k).sqHead = n)
    (hb : (ringSet b k).sqHead = n) : (ringSet (if c then a else b) k).sqHead = n := by
  split
  · exact ha
  · exact hb

theorem ringSignal_sqHead (k : RingRef) (s : State) : (ringSet (ringSignal k s) k).sqHead = (ringSet s k).sqHead :=
  sqHead_ite ((congrArg RingSet.sqHead (ringSet_congr (msix_host ..) k)).trans (ringUpd_sqHead s fun _ => rfl))
    (ringUpd_sqHead s fun _ => rfl)

theorem writeCq_sqHead (k : RingRef) (y : CqEntry) (s : State) : (ringSet (writeCq k y s) k).sqHead = (ringSet s k).sqHead :=
  (ringSignal_sqHead k _).trans (ringUpd_sqHead s fun _ => rfl)

/-- Posting a completion entry takes no submission entry. -/
theorem postCq_sqHead (k : RingRef) (tag : DWord) (q : ReqId) (kind : Byte) (c : Status) (n : Nat) (s : State) :
    (ringSet (postCq k tag q kind c n s) k).sqHead = (ringSet s k).sqHead := by
  have held (i : HeldItem) : (ringSet (ringUpd k (fun x => { x with held := x.held ++ [i] }) s) k).sqHead = (ringSet s k).sqHead :=
    ringUpd_sqHead s fun _ => rfl
  unfold postCq post postNow
  dsimp only
  split
  · split
    · next t ht =>
      split at ht
      · split at ht
        · obtain rfl := Option.some.inj ht
          exact writeCq_sqHead k _ s
        · cases ht
      · cases ht
    · exact held _
  · exact held _

/-! ### An entry is taken and answered -/

/-- One more entry of the capsule's ring set is taken (16 R418). -/
def EntryTaken (x : CapsuleCmd) (s t : State) : Prop := (ringSet t x.ring).sqHead = (ringSet s x.ring).sqHead + 1

/-- The capsule's entry is taken and a completion entry with the given fields is posted for it, or held (16 R424, R426). -/
def CapsuleAnswered (x : CapsuleCmd) (s t : State) (q : ReqId) (kind : Byte) (c : Status) : Prop :=
  EntryTaken x s t ∧ ∃ e : CqEntry, e.hostTag = x.entry.hostTag ∧ e.reqId = q ∧ e.kind = kind ∧ e.status = codeOf c
    ∧ e.sqHead = (ringSet s x.ring).sqHead + 1 ∧ e.commitLen = 0 ∧ CqPosted x.ring e t

section
variable {x : CapsuleCmd} {s t u : State} {q : ReqId} {kind : Byte} {c : Status}

theorem takeEntry_taken (x : CapsuleCmd) (s : State) : EntryTaken x s (takeEntry x.ring s) := by
  unfold EntryTaken takeEntry; rw [ringSet_ringUpd_same]

theorem EntryTaken.of_host (h : EntryTaken x s t) (hh : u.host = t.host) : EntryTaken x s u := by
  unfold EntryTaken; rw [ringSet_congr hh]; exact h

theorem EntryTaken.postCq (h : EntryTaken x s t) (tag : DWord) (q : ReqId) (kind : Byte) (c : Status) (n : Nat) :
    EntryTaken x s (postCq x.ring tag q kind c n t) := (postCq_sqHead ..).trans h

theorem EntryTaken.answered (h : EntryTaken x s t) (q : ReqId) (kind : Byte) (c : Status) :
    CapsuleAnswered x s (Machine.postCq x.ring x.entry.hostTag q kind c 0 t) q kind c :=
  ⟨h.postCq .., cqEntryOf x.ring x.entry.hostTag q kind c 0 t, rfl, rfl, rfl, rfl, h, rfl, postCq_cqPosted ..⟩

/-- What leaves the host interface alone and drops no output keeps a capsule answered. -/
theorem CapsuleAnswered.of_host (h : CapsuleAnswered x s t q kind c) (ho : ∀ y ∈ t.out, y ∈ u.out) (hh : u.host = t.host) :
    CapsuleAnswered x s u q kind c := by
  obtain ⟨htaken, e, h1, h2, h3, h4, h5, h6, hp⟩ := h
  exact ⟨htaken.of_host hh, e, h1, h2, h3, h4, h5, h6, hp.of_host ho hh⟩

/-! ### Refusals -/

/-- A capsule that is answered by an ENTRY completion when it is refused: a RESUME, a CANCEL or a SESSION_END (16 R424). -/
def answersEntry (x : CapsuleCmd) : Bool := x.dmaOk && (x.capsule.type = 2 || x.capsule.type = 3 || x.capsule.type = 4)

theorem authFail_host (s : State) : (authFail s).host = s.host := authFail_changes (Q := [.dev, .sec]) rfl (.refl _ s) .host rfl

/-- A refused capsule is answered, REFUSED or ENTRY; a failed authentication is counted before (15 R406, 16 R424). -/
theorem capsuleRefuse_answered (h : EntryTaken x s t) (c : Status) : CapsuleAnswered x s (capsuleRefuse x c t)
    (if answersEntry x then x.capsule.reqId else 0) (if answersEntry x then 5 else 2) c := by
  have hcounted : EntryTaken x s (if c = .denied && capsuleAuthFails t x.capsule then authFail t else t) := by
    split
    · exact h.of_host (authFail_host t)
    · exact h
  have heq : capsuleRefuse x c t = Machine.postCq x.ring x.entry.hostTag (if answersEntry x then x.capsule.reqId else 0)
      (if answersEntry x then 5 else 2) c 0 (if c = .denied && capsuleAuthFails t x.capsule then authFail t else t) := by
    unfold capsuleRefuse answersEntry
    dsimp only
    split <;> rfl
  rw [heq]
  exact hcounted.answered ..

theorem capsuleRefuse_entry (h : EntryTaken x s t) (he : answersEntry x = true) (c : Status) :
    CapsuleAnswered x s (capsuleRefuse x c t) x.capsule.reqId 5 c := by
  have h := capsuleRefuse_answered h c
  rwa [he, if_pos rfl, if_pos rfl] at h

theorem capsuleRefuse_refused (h : EntryTaken x s t) (he : answersEntry x = false) (c : Status) :
    CapsuleAnswered x s (capsuleRefuse x c t) 0 2 c := by
  have h := capsuleRefuse_answered h c
  rwa [he, if_neg Bool.false_ne_true, if_neg Bool.false_ne_true] at h

/-- A refusal of the capsule at the head of the ring touches the rings and what counts failed authentications. -/
theorem capsuleRefuse_only (x : CapsuleCmd) (c : Status) (s : State) :
    OnlyChanges [.dev, .sec, .host, .out] s (capsuleRefuse x c (takeEntry x.ring s)) :=
  capsuleRefuse_changes rfl (takeEntry_changes rfl (.refl _ s))

/-! ### What a capsule that passes leaves of its ring set -/

theorem seqAccept_host (c : Capsule) (s : State) : (seqAccept c s).host = s.host := rfl

theorem seqAccept_req (c : Capsule) (s : State) : (seqAccept c s).req = s.req := rfl

theorem anchorCancel_host (q : ReqId) (s : State) : (anchorCancel q s).host = s.host :=
  anchorCancel_changes (Q := [.req, .rma, .links, .out]) rfl (.refl _ s) .host rfl

theorem endSession_host (n : Word) (s : State) : (endSession n s).host = s.host :=
  endSession_changes (Q := [.sec, .req, .rma, .links, .out]) rfl (.refl _ s) .host rfl

theorem resumeForward_host (q : ReqId) (b : Bool) (c : Byte) (s : State) : (resumeForward q b c s).host = s.host :=
  resumeForward_changes (Q := [.rma, .links, .out]) rfl (.refl _ s) .host rfl

theorem resumeForward_req (q : ReqId) (b : Bool) (c : Byte) (s : State) : (resumeForward q b c s).req = s.req :=
  resumeForward_changes (Q := [.rma, .links, .out]) rfl (.refl _ s) .req rfl

theorem resumeForward_out_mem {y : Emit} (q : ReqId) (b : Bool) (c : Byte) {s : State} (h : y ∈ s.out) : y ∈ (resumeForward q b c s).out := by
  unfold resumeForward
  split
  · exact foldl_out_mem (fun _ _ hu => foldl_out_mem (fun _ d hw => sendFw_out_mem d _ _ hw) _ hu) _ h
  · exact h

theorem anchorCancel_out_mem {y : Emit} (q : ReqId) {s : State} (h : y ∈ s.out) : y ∈ (anchorCancel q s).out := by
  unfold anchorCancel
  split
  · split
    · exact h
    · refine toStages_out_mem _ _ _ ?_
      rwa [recUpd_changes (Q := [.req]) rfl (anchorUpd_changes rfl (.refl _ s)) .out rfl]
  · exact h

theorem endSession_out_mem {y : Emit} (n : Word) {s : State} (h : y ∈ s.out) : y ∈ (endSession n s).out := by
  refine foldl_out_mem (fun u a hu => ?_) _ h
  dsimp only
  split
  · exact out_mem_ite hu (anchorCancel_out_mem _ hu)
  · exact hu

/-! ### An admission -/

/-- The identifier that the next admission at this device takes (08 R206). -/
def nextReqId (s : State) : ReqId := BitVec.ofNat 64 ((myDev s).toNat * 2 ^ 48 + s.req.counter % 2 ^ 48)

/-- The anchor's record of an admission (08 R207, R219). -/
def AdmissionRecord (x : CapsuleCmd) (s : State) (r : Rec) : Prop :=
  r.reqId = nextReqId s ∧ r.state = 1 ∧ r.tenant = x.capsule.tenant ∧ r.context = x.ring.fn ∧ r.priority = x.capsule.priority
    ∧ r.epoch = x.capsule.epoch ∧ r.deadline = x.capsule.deadline ∧ r.anchor = myDev s ∧ r.hostTag = x.entry.hostTag
    ∧ r.maxLen = x.capsule.body.maxLen.toNat ∧ r.admitTb = BitVec.ofNat 64 s.tb ∧ r.view = 1

/-- What the anchor keeps of an admission (08 R219). -/
def AdmissionAnchor (x : CapsuleCmd) (a : AnchorInfo) : Prop :=
  a.route = x.capsule.routing ∧ a.session = x.capsule.session ∧ a.ring = x.ring ∧ a.accepted = false

/-- The state in which an admission goes out to stage 0: the record is created, the anchor's entry put, one more entry taken. -/
def admittedState (x : CapsuleCmd) (r : Rec) (a : AnchorInfo) (s : State) : State :=
  let u := recCreate r { (seqAccept x.capsule s) with free := s.free + 1 }
  ringUpd x.ring (fun y => { y with taken := y.taken + 1 }) { u with req := { u.req with
    counter := (u.req.counter + 1) % 2 ^ 48, anchors := Tab.put u.req.anchors (nextReqId s).toNat a } }

theorem admitStart_eq (x : CapsuleCmd) (s : State) : ∃ (r : Rec) (a : AnchorInfo), AdmissionRecord x s r ∧ AdmissionAnchor x a
    ∧ admitStart x s = admitForward (firstAdmission (nextReqId s) x s) (admittedState x r a s) := by
  refine ⟨_, _, ?_, ?_, rfl⟩
  · exact ⟨rfl, rfl, rfl, rfl, rfl, rfl, rfl, rfl, rfl, rfl, rfl, rfl⟩
  · exact ⟨rfl, rfl, rfl, rfl⟩

theorem admitForward_req (m : StageAdmission) (s : State) : (admitForward m s).req = s.req :=
  admitForward_changes (Q := [.rma, .links, .out]) rfl (.refl _ s) .req rfl

theorem admitForward_host (m : StageAdmission) (s : State) : (admitForward m s).host = s.host :=
  admitForward_changes (Q := [.rma, .links, .out]) rfl (.refl _ s) .host rfl

theorem recCreate_host (r : Rec) (s : State) : (recCreate r s).host = s.host := recCreate_changes (Q := [.req]) rfl (.refl _ s) .host rfl

theorem recCreate_counter (r : Rec) (s : State) : (recCreate r s).req.counter = s.req.counter := by
  unfold recCreate
  split
  · rfl
  · split <;> rfl

theorem ringSet_admittedState (x : CapsuleCmd) (r : Rec) (a : AnchorInfo) (s : State) : ringSet (admittedState x r a s) x.ring =
    { ringSet s x.ring with taken := (ringSet s x.ring).taken + 1 } := by
  refine (ringSet_ringUpd_same ..).trans (congrArg (fun y : RingSet => { y with taken := y.taken + 1 }) (ringSet_congr ?_ _))
  exact recCreate_host r { (seqAccept x.capsule s) with free := s.free + 1 }

/-- An admission takes its entry for good: its ring set counts one more, and no other field of it changes (16 R416, R418). -/
theorem ringSet_admitStart (x : CapsuleCmd) (s : State) : ringSet (admitStart x s) x.ring =
    { ringSet s x.ring with taken := (ringSet s x.ring).taken + 1 } := by
  obtain ⟨r, a, -, -, he⟩ := admitStart_eq x s
  rw [he, ringSet_congr (admitForward_host ..), ringSet_admittedState]

/-- An admission that finds an index: the next identifier is taken, and its record and the anchor's entry stand under it (08 R206,
R207, R219). -/
theorem admitStart_admits (hi : (recIndex s).isSome = true) : (admitStart x s).req.counter = (s.req.counter + 1) % 2 ^ 48
    ∧ (∃ a : AnchorInfo, anchorOf (admitStart x s) (nextReqId s) = some a ∧ AdmissionAnchor x a)
    ∧ ∃ r : Rec, recFind (admitStart x s) (nextReqId s) = some r ∧ AdmissionRecord x s r := by
  obtain ⟨r, a, hr, ha, he⟩ := admitStart_eq x s
  rw [he]
  refine ⟨?_, ⟨a, ?_, ha⟩, r, ?_, hr⟩
  · rw [admitForward_req]
    show ((recCreate r _).req.counter + 1) % 2 ^ 48 = _
    rw [recCreate_counter]
    rfl
  · rw [anchorOf_congr (congrArg Req.anchors (admitForward_req ..))]
    exact Tab.find_put_same _ _ _
  · rw [recFind_congr (congrArg Req.recs (admitForward_req ..))]
    have hfind := recFind_recCreate (s := { (seqAccept x.capsule s) with free := s.free + 1 }) (r := r) (by rw [hr.2.1]; decide) (.inr hi)
    rw [hr.1] at hfind
    exact hfind

/-! ### The checks of a capsule (00 R12, 16 R419 to R422) -/

theorem capsuleCheck_none (h : capsuleCheck s x = none) : x.dmaOk = true ∧ capsuleClear x.entry x.capsule = true
    ∧ (x.capsule.type = 1 → capsuleRetry s x.ring.fn x.capsule = .ok) := by
  unfold capsuleCheck at h
  dsimp only at h
  split at h
  · cases h
  · next hclear =>
    split at h
    · cases h
    · simp only [Bool.or_eq_true, Bool.not_eq_true', not_or, Bool.not_eq_false] at hclear
      refine ⟨hclear.1, hclear.2, fun h1 => ?_⟩
      have hretry := r12First_eq_none.1 h (if x.capsule.type = 1 || x.capsule.type = 2 then capsuleRetry s x.ring.fn x.capsule else .ok)
        (by simp)
      simp only [h1, decide_true, Bool.true_or, if_true] at hretry
      unfold capsuleRetry at hretry ⊢
      split
      · next hc => rw [if_pos hc] at hretry; exact absurd hretry (by decide)
      · rfl

/-- An ADMIT that passes finds an index for its record (08 R209, 16 R426). -/
theorem recIndex_of_capsuleCheck (h : capsuleCheck s x = none) (h1 : x.capsule.type = 1) : (recIndex s).isSome = true := by
  have hretry := (capsuleCheck_none h).2.2 h1
  unfold capsuleRetry at hretry
  by_contra hn
  have hn : (recIndex s).isNone = true := by simpa using hn
  simp [h1, hn] at hretry

/-- A capsule of no known type is MALFORMED (16 R422). -/
theorem capsuleCheck_untyped (h1 : x.capsule.type ≠ 1) (h2 : x.capsule.type ≠ 2) (h3 : x.capsule.type ≠ 3) (h4 : x.capsule.type ≠ 4) :
    capsuleCheck s x = some .malformed := by
  have hclear : capsuleClear x.entry x.capsule = false := by
    simp only [capsuleClear, beq_eq_false_iff_ne.2 h1, beq_eq_false_iff_ne.2 h2, beq_eq_false_iff_ne.2 h3, beq_eq_false_iff_ne.2 h4,
      Bool.or_false, Bool.and_false, Bool.false_and]
  simp [capsuleCheck, hclear]

/-! ### The capsules, their entry taken -/

theorem admitCapsule_fails (h : capsuleCheck s x = some c) : admitCapsule x s = capsuleRefuse x c s := by simp [admitCapsule, h]
theorem admitCapsule_passes (h : capsuleCheck s x = none) : admitCapsule x s = admitStart x s := by simp [admitCapsule, h]
theorem resumeCapsuleAt_fails (h : capsuleCheck s x = some c) : resumeCapsuleAt x s = capsuleRefuse x c s := by
  simp [resumeCapsuleAt, h]
theorem cancelCapsuleAt_fails (h : capsuleCheck s x = some c) : cancelCapsuleAt x s = capsuleRefuse x c s := by
  simp [cancelCapsuleAt, h]
theorem sessionEndAt_fails (h : capsuleCheck s x = some c) : sessionEndAt x s = capsuleRefuse x c s := by simp [sessionEndAt, h]
theorem sessionEndAt_passes (h : capsuleCheck s x = none) :
    sessionEndAt x s = endSession x.capsule.session (postCq x.ring x.entry.hostTag 0 5 .ok 0 (seqAccept x.capsule s)) := by
  simp [sessionEndAt, h]

section
variable (hc : capsuleCheck s x = none)
include hc

theorem resumeCapsuleAt_lost (hr : recFind s x.capsule.reqId = none) :
    resumeCapsuleAt x s = capsuleRefuse x .stateLost (seqAccept x.capsule s) := by simp [resumeCapsuleAt, hc, hr]

theorem cancelCapsuleAt_lost (hr : recFind s x.capsule.reqId = none) :
    cancelCapsuleAt x s = capsuleRefuse x .stateLost (seqAccept x.capsule s) := by
  have hr' : recFind (seqAccept x.capsule s) x.capsule.reqId = none := hr
  simp [cancelCapsuleAt, hc, hr']

variable {r : Rec} (hr : recFind s x.capsule.reqId = some r)
include hr

theorem resumeCapsuleAt_retired (h8 : r.state = 8) :
    resumeCapsuleAt x s = capsuleRefuse x ((statusOf r.status).getD .stateLost) (seqAccept x.capsule s) := by
  simp [resumeCapsuleAt, hc, hr, h8]

theorem cancelCapsuleAt_retired (h8 : r.state = 8) :
    cancelCapsuleAt x s = capsuleRefuse x ((statusOf r.status).getD .stateLost) (seqAccept x.capsule s) := by
  have hr' : recFind (seqAccept x.capsule s) x.capsule.reqId = some r := hr
  simp [cancelCapsuleAt, hc, hr', h8]

theorem resumeCapsuleAt_paused (h5 : r.state = 5) : resumeCapsuleAt x s = resumeAccept x s := by
  simp [resumeCapsuleAt, hc, hr, h5]

theorem resumeCapsuleAt_other (h5 : r.state ≠ 5) (h8 : r.state ≠ 8) : resumeCapsuleAt x s = capsuleRefuse x .denied s := by
  simp only [resumeCapsuleAt, hc, hr, h5, h8, if_false]

theorem cancelCapsuleAt_live (h8 : r.state ≠ 8) : cancelCapsuleAt x s =
    postCq x.ring x.entry.hostTag x.capsule.reqId 5 .ok 0 (anchorCancel x.capsule.reqId (seqAccept x.capsule s)) := by
  have hr' : recFind (seqAccept x.capsule s) x.capsule.reqId = some r := hr
  simp only [cancelCapsuleAt, hc, hr', h8, if_false]

end

/-! ### A resume and a cancellation -/

/-- A RESUME that passes answers OK (08 R232, 16 R424). -/
theorem resumeAccept_answered (h : EntryTaken x s t) : CapsuleAnswered x s (resumeAccept x t) x.capsule.reqId 5 .ok := by
  unfold resumeAccept
  dsimp only
  refine (EntryTaken.answered ?_ ..).of_host (fun _ hy => resumeForward_out_mem _ _ _ hy) (resumeForward_host ..)
  exact h.of_host (recUpd_changes (Q := [.sec, .req]) rfl (anchorUpd_changes rfl (seqAccept_changes rfl (.refl _ t))) .host rfl)

/-- The resumed request is RESUMING, under the turn's epoch, deadline and TTL (08 R232). -/
theorem resumeAccept_resumes {r : Rec} (hr : recFind s x.capsule.reqId = some r) : ∃ y : Rec,
    recFind (resumeAccept x s) x.capsule.reqId = some y ∧ y.state = 6 ∧ y.epoch = x.capsule.epoch ∧ y.deadline = x.capsule.deadline
      ∧ y.ttl = x.capsule.body.ttl := by
  obtain ⟨i, hi⟩ := recFind_eq_some.1 hr
  unfold resumeAccept
  dsimp only
  rw [recFind_congr (congrArg Req.recs (resumeForward_req ..)), recFind_congr (congrArg Req.recs (postCq_req ..))]
  exact ⟨_, recFind_recUpd (r := r) (s := anchorUpd x.capsule.reqId _ (seqAccept x.capsule s)) hr (recEntry_spec hi).1
    (show (6 : BitVec 4) ≠ 0 by decide), rfl, rfl, rfl, rfl⟩

theorem testBit_two_or_four (f : Byte) : (f ||| 4).toNat.testBit 2 = true := by
  rw [BitVec.toNat_or, Nat.testBit_or]
  exact Bool.or_eq_true_iff.2 (.inr rfl)

/-- The first cancellation is pending at the anchor, and stays so (08 R228). -/
theorem anchorCancel_pending {a : AnchorInfo} {r : Rec} (ha : anchorOf s q = some a) (hr : recLive s q = some r) :
    ∃ y : Rec, recFind (anchorCancel q s) q = some y ∧ y.flags.toNat.testBit 2 = true := by
  obtain ⟨hfind, -⟩ := recLive_eq_some.1 hr
  obtain ⟨i, hi⟩ := recFind_eq_some.1 hfind
  obtain ⟨hid, h0⟩ := recEntry_spec hi
  unfold anchorCancel
  simp only [ha, hr]
  split
  · next h2 => exact ⟨r, hfind, h2⟩
  · rw [recFind_toStages]
    exact ⟨_, recFind_recUpd (r := r) (s := anchorUpd q _ s) hfind hid h0, testBit_two_or_four _⟩

theorem anchorCancel_answered (h : EntryTaken x s t) (q p : ReqId) :
    CapsuleAnswered x s (postCq x.ring x.entry.hostTag p 5 .ok 0 (anchorCancel q t)) p 5 .ok :=
  EntryTaken.answered (h.of_host (anchorCancel_host q t)) ..

/-! ### Every capsule takes its entry -/

theorem admitCapsule_taken (h : EntryTaken x s t) : EntryTaken x s (admitCapsule x t) := by
  unfold admitCapsule
  split
  · exact (capsuleRefuse_answered h _).1
  · unfold EntryTaken
    rw [ringSet_admitStart]
    exact h

theorem resumeCapsuleAt_taken (h : EntryTaken x s t) : EntryTaken x s (resumeCapsuleAt x t) := by
  have haccept : EntryTaken x s (seqAccept x.capsule t) := h.of_host (seqAccept_host _ t)
  unfold resumeCapsuleAt
  split
  · exact (capsuleRefuse_answered h _).1
  · split
    · exact (capsuleRefuse_answered haccept _).1
    · split
      · exact (capsuleRefuse_answered haccept _).1
      · split
        · exact (resumeAccept_answered h).1
        · exact (capsuleRefuse_answered h _).1

theorem cancelCapsuleAt_taken (h : EntryTaken x s t) : EntryTaken x s (cancelCapsuleAt x t) := by
  have haccept : EntryTaken x s (seqAccept x.capsule t) := h.of_host (seqAccept_host _ t)
  unfold cancelCapsuleAt
  split
  · exact (capsuleRefuse_answered h _).1
  · dsimp only
    split
    · exact (capsuleRefuse_answered haccept _).1
    · split
      · exact (capsuleRefuse_answered haccept _).1
      · exact (anchorCancel_answered haccept _ _).1

theorem sessionEnd_answered (h : EntryTaken x s t) (n : Word) : CapsuleAnswered x s
    (endSession n (Machine.postCq x.ring x.entry.hostTag 0 5 .ok 0 (seqAccept x.capsule t))) 0 5 .ok :=
  (EntryTaken.answered (h.of_host (seqAccept_host _ t)) ..).of_host (fun _ hy => endSession_out_mem n hy) (endSession_host n _)

theorem sessionEndAt_taken (h : EntryTaken x s t) : EntryTaken x s (sessionEndAt x t) := by
  unfold sessionEndAt
  split
  · exact (capsuleRefuse_answered h _).1
  · exact (sessionEnd_answered h _).1

theorem endSession_ended (n : Word) (s : State) : Tab.find (endSession n s).sec.sessions n.toNat = none := Tab.find_del_same _ _

/-! ### The commands -/

section
variable (hr : capsuleReady x s = true)
include hr

theorem exec_admitCapsule (h : x.capsule.type = 1) : exec (.admitCapsule x) s = .next (admitCapsule x (takeEntry x.ring s)) := by
  show execAdmitCapsule x s = _
  simp [execAdmitCapsule, hr, h]

theorem exec_resumeCapsule (h : x.capsule.type = 2) : exec (.resumeCapsule x) s = .next (resumeCapsuleAt x (takeEntry x.ring s)) := by
  show execResumeCapsule x s = _
  simp [execResumeCapsule, hr, h]

theorem exec_cancelCapsule (h : x.capsule.type = 3) : exec (.cancelCapsule x) s = .next (cancelCapsuleAt x (takeEntry x.ring s)) := by
  show execCancelCapsule x s = _
  simp [execCancelCapsule, hr, h]

theorem exec_sessionEnd (h : x.capsule.type = 4) : exec (.sessionEnd x) s = .next (sessionEndAt x (takeEntry x.ring s)) := by
  show execSessionEnd x s = _
  simp [execSessionEnd, hr, h]

theorem exec_capsule : exec (.capsule x) s = .next (
    if x.capsule.type = 2 then resumeCapsuleAt x (takeEntry x.ring s)
    else if x.capsule.type = 3 then cancelCapsuleAt x (takeEntry x.ring s)
    else if x.capsule.type = 4 then sessionEndAt x (takeEntry x.ring s)
    else admitCapsule x (takeEntry x.ring s)) := by
  show execCapsule x s = _
  simp [execCapsule, hr]

end

end

/-! ### The statement -/

/-- Settles O45: a ready capsule entry is taken and its row run; a capsule that fails a check is refused with the code; an admission, a
resume, a cancellation and a session's end that pass do what their row says. -/
theorem capsuleCommands : Obligations.CapsuleCommands := by
  unfold Obligations.CapsuleCommands
  intro x s hready hkind
  have hr : capsuleReady x s = true := by simp [capsuleReady, hready, hkind]
  have ht : EntryTaken x s (takeEntry x.ring s) := takeEntry_taken x s
  have hentry (hd : x.dmaOk = true) (h : x.capsule.type = 2 ∨ x.capsule.type = 3 ∨ x.capsule.type = 4) : answersEntry x = true := by
    rcases h with h | h | h <;> simp [answersEntry, hd, h]
  refine ⟨fun i hi => ?_, fun hnone => ?_, fun code hcode hd => ?_, fun hc => ?_⟩
  · rw [exec_capsule hr]
    split at hi
    · next h =>
      obtain rfl := Option.some.inj hi
      exact ⟨_, by simp [h], exec_admitCapsule hr h, admitCapsule_taken ht⟩
    · split at hi
      · next h =>
        obtain rfl := Option.some.inj hi
        exact ⟨_, by simp [h], exec_resumeCapsule hr h, resumeCapsuleAt_taken ht⟩
      · split at hi
        · next h =>
          obtain rfl := Option.some.inj hi
          exact ⟨_, by simp [h], exec_cancelCapsule hr h, cancelCapsuleAt_taken ht⟩
        · split at hi
          · next h =>
            obtain rfl := Option.some.inj hi
            exact ⟨_, by simp [h], exec_sessionEnd hr h, sessionEndAt_taken ht⟩
          · cases hi
  · have hall : x.capsule.type ≠ 1 ∧ x.capsule.type ≠ 2 ∧ x.capsule.type ≠ 3 ∧ x.capsule.type ≠ 4 := by
      refine ⟨?_, ?_, ?_, ?_⟩ <;> intro h <;> simp [h] at hnone
    obtain ⟨h1, h2, h3, h4⟩ := hall
    refine ⟨_, by rw [exec_capsule hr, if_neg h2, if_neg h3, if_neg h4, admitCapsule_fails (capsuleCheck_untyped h1 h2 h3 h4)], ?_⟩
    exact capsuleRefuse_refused ht (by simp only [answersEntry, h2, h3, h4, decide_false, Bool.or_false, Bool.and_false]) _
  · replace hcode : capsuleCheck (takeEntry x.ring s) x = some code := hcode
    refine ⟨fun h => ?_, fun h => ?_, fun h => ?_, fun h => ?_⟩
    · refine ⟨_, by rw [exec_admitCapsule hr h, admitCapsule_fails hcode], capsuleRefuse_only x code s, ?_⟩
      exact capsuleRefuse_refused ht (by simp [answersEntry, h]) code
    · exact ⟨_, by rw [exec_resumeCapsule hr h, resumeCapsuleAt_fails hcode], capsuleRefuse_only x code s,
        capsuleRefuse_entry ht (hentry hd (.inl h)) code⟩
    · exact ⟨_, by rw [exec_cancelCapsule hr h, cancelCapsuleAt_fails hcode], capsuleRefuse_only x code s,
        capsuleRefuse_entry ht (hentry hd (.inr (.inl h))) code⟩
    · exact ⟨_, by rw [exec_sessionEnd hr h, sessionEndAt_fails hcode], capsuleRefuse_only x code s,
        capsuleRefuse_entry ht (hentry hd (.inr (.inr h))) code⟩
  · replace hc : capsuleCheck (takeEntry x.ring s) x = none := hc
    have hd := (capsuleCheck_none hc).1
    have haccept : EntryTaken x s (seqAccept x.capsule (takeEntry x.ring s)) := ht.of_host (seqAccept_host _ _)
    refine ⟨fun h => ?_, fun h hlost i hi => ?_, fun r hrec => ⟨fun h h8 i hi => ?_, fun h h5 => ?_, fun h h5 h8 => ?_, fun h h8 => ?_⟩,
      fun h => ?_⟩
    · obtain ⟨hcount, hanchor, r, hrec, hid, hfields⟩ := admitStart_admits (x := x) (s := takeEntry x.ring s) (recIndex_of_capsuleCheck hc h)
      refine ⟨_, by rw [exec_admitCapsule hr h, admitCapsule_passes hc], ?_, hcount, ?_, hanchor, r, hrec, hfields⟩
      · exact admitCapsule_passes hc ▸ admitCapsule_taken ht
      · rw [ringSet_admitStart, takeEntry, ringSet_ringUpd_same]
    · rcases h with h | h
      · obtain rfl : Instr.resumeCapsule x = i := by simpa [h] using hi
        exact ⟨_, by rw [exec_resumeCapsule hr h, resumeCapsuleAt_lost hc hlost], capsuleRefuse_entry haccept (hentry hd (.inl h)) _⟩
      · obtain rfl : Instr.cancelCapsule x = i := by simpa [h] using hi
        exact ⟨_, by rw [exec_cancelCapsule hr h, cancelCapsuleAt_lost hc hlost], capsuleRefuse_entry haccept (hentry hd (.inr (.inl h))) _⟩
    · rcases h with h | h
      · obtain rfl : Instr.resumeCapsule x = i := by simpa [h] using hi
        exact ⟨_, by rw [exec_resumeCapsule hr h, resumeCapsuleAt_retired hc hrec h8], capsuleRefuse_entry haccept (hentry hd (.inl h)) _⟩
      · obtain rfl : Instr.cancelCapsule x = i := by simpa [h] using hi
        exact ⟨_, by rw [exec_cancelCapsule hr h, cancelCapsuleAt_retired hc hrec h8],
          capsuleRefuse_entry haccept (hentry hd (.inr (.inl h))) _⟩
    · exact ⟨_, by rw [exec_resumeCapsule hr h, resumeCapsuleAt_paused hc hrec h5], resumeAccept_answered ht,
        resumeAccept_resumes (s := takeEntry x.ring s) hrec⟩
    · exact ⟨_, by rw [exec_resumeCapsule hr h, resumeCapsuleAt_other hc hrec h5 h8], capsuleRefuse_entry ht (hentry hd (.inl h)) _⟩
    · refine ⟨_, by rw [exec_cancelCapsule hr h, cancelCapsuleAt_live hc hrec h8], anchorCancel_answered haccept _ _, fun a ha => ?_⟩
      rw [recFind_congr (congrArg Req.recs (postCq_req ..))]
      exact anchorCancel_pending (s := seqAccept x.capsule (takeEntry x.ring s)) ha (recLive_eq_some.2 ⟨hrec, h8⟩)
    · exact ⟨_, by rw [exec_sessionEnd hr h, sessionEndAt_passes hc], sessionEnd_answered ht _, endSession_ended _ _⟩

end Sys2Proof.Machine
end

section
/-!
Galley events (08 R216, R217, R223 to R227, R231, R234): what a seal, a hand-over's time-out, a step boundary, a token, a pause's hold and
a copy-out leave.
-/

namespace Sys2Proof.Machine

/-! ### Pages -/

/-- A change of one page of a galley. -/
def pageSet (k l p : Nat) (f : Page → Page) (g : Galley) : Galley :=
  match k with
  | 0 => { g with layer := Tab.upd g.layer l {} (fun x => { x with pages := Tab.upd x.pages p {} f }) }
  | 1 => { g with layer := Tab.upd g.layer l {} (fun x => { x with thumbs := Tab.upd x.thumbs p {} f }) }
  | _ => { g with hist := Tab.upd g.hist p {} f }

theorem pageUpd_eq (q : ReqId) (k l p : Nat) (f : Page → Page) (s : State) : pageUpd q k l p f s = galleyUpd q (pageSet k l p f) s := rfl

theorem pageOf_pageSet_same (k l p : Nat) (f : Page → Page) (g : Galley) : pageOf (pageSet k l p f g) k l p = f (pageOf g k l p) := by
  match k with
  | 0 => simp [pageOf, pageSet, layerOf]
  | 1 => simp [pageOf, pageSet, layerOf]
  | k + 2 => simp [pageOf, pageSet]

/-- A change of a thumb page changes no latent page. -/
theorem pageOf_pageSet_thumb (l p l' p' : Nat) (f : Page → Page) (g : Galley) : pageOf (pageSet 1 l p f g) 0 l' p' = pageOf g 0 l' p' := by
  by_cases h : l' = l
  · subst h; simp [pageOf, pageSet, layerOf]
  · simp [pageOf, pageSet, layerOf, Tab.getD_upd_other _ _ _ _ _ h]

theorem pageSet_source (k l p : Nat) (f : Page → Page) (g : Galley) : (pageSet k l p f g).source = g.source := by
  match k with
  | 0 => rfl
  | 1 => rfl
  | _ + 2 => rfl

theorem galleyOf_pageUpd {q : ReqId} {g : Galley} {s : State} (hg : galleyOf s q = some g) (k l p : Nat) (f : Page → Page) :
    galleyOf (pageUpd q k l p f s) q = some (pageSet k l p f g) := by
  rw [pageUpd_eq, galleyOf_galleyUpd_same, hg]; rfl

/-! ### Reads whose outcome is good -/

theorem sliceLineFail_tier {r off : Nat} {s u : State} (h : sliceLineFail r off s = (true, u)) : OnlyChanges [.tier] s u := by
  unfold sliceLineFail at h
  split at h
  · cases h
  · split at h
    · split at h
      · cases h
      · dsimp only at h
        split at h
        · cases h
        · cases h
          exact tier_only rfl s _
    · split at h <;> cases h

/-- A read that completes changes the memory tiers' counts only (07 R184, R191). -/
theorem readOutcome_tier {o : ReadOutcome} {s u : State} (h : readOutcome o s = (true, u)) : OnlyChanges [.tier] s u := by
  have same (h : (true, s) = (true, u)) : OnlyChanges [.tier] s u := by cases h; exact .refl _ s
  cases o with
  | good => exact same h
  | corrected ch => cases h; exact lpcUpd_changes rfl (.refl _ s)
  | uncorrectable a =>
    simp only [readOutcome] at h
    split at h
    · cases h
    · exact same h
  | macFail a =>
    simp only [readOutcome] at h
    split at h
    · cases h
    · exact same h
  | sliceLine r off => exact sliceLineFail_tier h
  | slug crc a => cases h
  | clusterEcc c => exact same h

theorem spansRead_tier {spans : List (Nat × Nat)} {o : ReadOutcome} {s u : State} (h : spansRead spans o s = (true, u)) :
    OnlyChanges [.tier] s u := by
  have hcount : OnlyChanges [.tier] s (countGranules false (spans.map (fun x => granules x.1 x.2)).flatten s) :=
    countGranules_changes rfl (.refl _ s)
  exact hcount.trans (readOutcome_tier h)

/-- Pages that are read whole (07 R184, R191; 06 R163, R164). -/
theorem moverRead_tier {g : Galley} {items : List (Nat × Nat × Nat)} {o : ReadOutcome} {s u : State}
    (h : moverRead g items o s = (true, u)) : OnlyChanges [.tier] s u := by
  unfold moverRead at h
  generalize hr : spansRead _ o s = r at h
  obtain ⟨ok, v⟩ := r
  cases ok with
  | false => cases h
  | true =>
    dsimp only at h
    simp only [Bool.not_true, Bool.false_eq_true, if_false] at h
    split at h
    · cases h
    · cases h
      exact spansRead_tier hr

/-! ### The tables of a request -/

section
variable {q : ReqId} {g x : Galley} {s t u : State} {l p : Nat}

/-- The galley of a request still has what the partner sent of a page's digest, and its origin, as `x` has them. -/
def SealKept (q : ReqId) (l p : Nat) (x : Galley) (s : State) : Prop :=
  ∃ y : Galley, galleyOf s q = some y ∧ (pageOf y 0 l p).partner = (pageOf x 0 l p).partner ∧ y.source = x.source

theorem SealKept.of_galley (h : galleyOf s q = some x) (l p : Nat) : SealKept q l p x s := ⟨x, h, rfl, rfl⟩

theorem SealKept.congr (h : SealKept q l p x s) (k : t.req.galleys = s.req.galleys) : SealKept q l p x t := by
  obtain ⟨y, hy, hs⟩ := h
  exact ⟨y, (galleyOf_congr k q).trans hy, hs⟩

theorem SealKept.of_only {Q : List Block} (h : SealKept q l p x s) (hq : Q.contains .req = false) (hk : OnlyChanges Q s t) :
    SealKept q l p x t := h.congr (congrArg Req.galleys (hk .req hq))

theorem SealKept.thumb (h : SealKept q l p x s) (l' p' : Nat) (f : Page → Page) : SealKept q l p x (pageUpd q 1 l' p' f s) := by
  obtain ⟨y, hy, hp, hs⟩ := h
  exact ⟨_, galleyOf_pageUpd hy .., by rw [pageOf_pageSet_thumb, hp], hs⟩

theorem SealKept.page (h : SealKept q l p x s) {f : Page → Page} (hf : ∀ y, (f y).partner = y.partner) :
    SealKept q l p x (pageUpd q 0 l p f s) := by
  obtain ⟨y, hy, hp, hs⟩ := h
  exact ⟨_, galleyOf_pageUpd hy .., by rw [pageOf_pageSet_same, hf, hp], hs⟩

theorem SealKept.coded (h : SealKept q l p x s) : SealKept q l p x (galleyUpd q (fun g => { g with coded := true }) s) := by
  obtain ⟨y, hy, hs⟩ := h
  exact ⟨_, (galleyOf_galleyUpd_same ..).trans (congrArg _ hy), hs⟩

/-! ### A page that seals (08 R215, R216) -/

theorem SealKept.openThumb (h : SealKept q l p x s) {l' p' : Nat} {st : BitVec 3} (ht : openPage q 1 l' p' st s = some t) :
    SealKept q l p x t := by
  unfold openPage at ht
  split at ht
  · cases ht
  · split at ht
    · cases ht
    · cases ht
      exact ((h.thumb _ _ _).of_only (Q := [.tier]) rfl (chargeHeld_changes rfl (.refl _ _))).congr (recUpd_galleys ..)

theorem SealKept.writeThumb (h : SealKept q l p x s) {l' p' : Nat} {e : List Byte} (ht : writeThumb q l' p' e s = some t) :
    SealKept q l p x t := by
  unfold Machine.writeThumb at ht
  split at ht
  · cases ht
  · dsimp only at ht
    split at ht
    · cases ht
    · next v hv =>
      have hkept : SealKept q l p x v := by
        split at hv
        · exact h.openThumb hv
        · cases hv; exact h
      split at ht
      · cases ht
      · cases ht
        exact hkept.of_only (Q := [.tier, .sched]) rfl (meterT1_changes rfl (t1Write_changes rfl (.refl _ _)))

theorem SealKept.sealThumb (h : SealKept q l p x s) {l' p' : Nat} {codes : List Nat} (ht : sealThumb q g l' p' codes s = some t) :
    SealKept q l p x t := by
  unfold Machine.sealThumb at ht
  split at ht
  · cases ht; exact h
  · split at ht
    · exact h.writeThumb ht
    · cases ht; exact h

theorem SealKept.sealCode (h : SealKept q l p x s) (codes : List Nat) : SealKept q l p x (sealCode q g l p codes s).1 := by
  unfold Machine.sealCode
  split
  · exact h
  · dsimp only
    refine SealKept.coded (SealKept.page (h.congr ?_) fun _ => rfl)
    exact congrArg Req.galleys (slotRef_changes (Q := [.codec, .tier]) rfl (t1Write_changes rfl (.refl _ s)) .req rfl)

theorem galleyOf_syncHeader (q' : ReqId) (l p n : Nat) (s : State) : galleyOf (syncHeader q l p n s) q' = galleyOf s q' :=
  galleyOf_congr (congrArg Req.galleys (syncHeader_changes (Q := [.tier]) rfl (.refl _ s) .req rfl)) q'

theorem galleyOf_meterT1 (t : BitVec 16) (n : Nat) (s : State) (q : ReqId) : galleyOf (meterT1 t n s) q = galleyOf s q :=
  galleyOf_congr (congrArg Req.galleys (meterT1_changes (Q := [.sched]) rfl (.refl _ s) .req rfl)) q

/-- A page that is sealed: it is SEALED with the digest that goes to the partner. -/
theorem sealPage_sealed {d : Digest} (h : sealPage q l p s = some (d, t)) (hg : galleyOf s q = some g) :
    ∃ y : Galley, galleyOf t q = some y ∧ (pageOf y 0 l p).state = 2 ∧ (pageOf y 0 l p).sealDigest = d
      ∧ (pageOf y 0 l p).partner = (pageOf g 0 l p).partner ∧ y.source = g.source := by
  unfold sealPage at h
  rw [hg] at h
  dsimp only at h
  generalize unpackCodes _ _ _ = codes at h
  split at h
  · cases h
  · next v hv =>
    obtain ⟨hd, ht⟩ := Prod.mk.inj (Option.some.inj h)
    rw [← ht, hd]
    obtain ⟨y, hy, hp, hs⟩ := ((SealKept.of_galley hg l p).sealThumb hv).sealCode (g := g) codes
    generalize sealCode q g l p codes v = c at hy ⊢
    refine ⟨pageSet 0 l p (fun x => { x with state := 2, sealing := false, sealDigest := d }) y, ?_, ?_⟩
    · rw [galleyOf_syncHeader]
      generalize hw : pageUpd q 0 l p _ _ = w
      have hwq : galleyOf w q = some (pageSet 0 l p (fun x => { x with state := 2, sealing := false, sealDigest := d }) y) := by
        rw [← hw]
        exact galleyOf_pageUpd ((galleyOf_meterT1 ..).trans hy) ..
      exact hwq
    · rw [pageOf_pageSet_same]
      exact ⟨rfl, rfl, hp, hs⟩

/-- A group of mirrored writes that nothing waits for leaves the pair's state (09 R244). -/
theorem mirrorSend_none_state (g : Galley) (rs : List TrayReq) (s : State) : (mirrorSend g rs .none s).pair.state = s.pair.state := by
  have hjournal (j : List JournalItem) (u : State) : (journal j u).pair.state = u.pair.state := by
    unfold journal; split <;> rfl
  have hfold (d i : Nat) (u : State) : (rs.foldl (fun s r => trayIssue d r (.mirror i) s) u).pair = u.pair :=
    foldl_changes (ps := [.near, .links]) (.refl _ u) (fun _ _ k => trayIssue_changes rfl k) .pair rfl
  unfold mirrorSend
  dsimp only
  split
  · simp only [oneCopy, runThen]
    split
    · exact hjournal _ s
    · rfl
  · split
    · rfl
    · split
      · rfl
      · exact (congrArg Pair.state (hfold _ _ _)).trans (hjournal _ s)

/-- Nothing is compared while the partner's digest is not there, or in a DEGRADED pair (08 R216, 09 R245). -/
theorem compareSeal_waits (hg : galleyOf s q = some g) (h : (pageOf g 0 l p).partner = none ∨ s.pair.state = 3) : compareSeal q l p s = s := by
  unfold compareSeal
  rw [hg]
  dsimp only
  rcases h with h | h
  · rw [h]
  · split
    · rfl
    · simp [h]

/-- A page whose digests agree becomes MIRRORED (08 R216). -/
theorem compareSeal_equal (hg : galleyOf s q = some g) (h2 : (pageOf g 0 l p).state = 2) (h3 : s.pair.state ≠ 3)
    (hd : (pageOf g 0 l p).partner = some (pageOf g 0 l p).sealDigest) :
    compareSeal q l p s = pageUpd q 0 l p (fun x => { x with state := 3 }) s := by
  unfold compareSeal
  rw [hg]
  dsimp only
  rw [hd]
  simp only [h2, beq_eq_false_iff_ne.2 h3, ne_eq, not_true_eq_false, decide_false, Bool.or_false, Bool.false_eq_true, if_false, if_true]

/-- A galley that has not come by a copy-out is checked for none. -/
theorem copyCheck_own (hg : galleyOf s q = some g) (hs : g.source = none) : copyCheck q s = s := by
  unfold copyCheck; rw [hg]; simp only [hs]

/-- What the comparison makes of a page that has just been sealed (08 R216, 09 R245). -/
theorem compareSeal_sealed {d : Digest} (hg : galleyOf s q = some g) (h2 : (pageOf g 0 l p).state = 2) (hd : (pageOf g 0 l p).sealDigest = d)
    (hp : (pageOf g 0 l p).partner = none ∨ (pageOf g 0 l p).partner = some d ∨ s.pair.state = 3) :
    (compareSeal q l p s).req.seals = s.req.seals ∧ ∃ y : Galley, galleyOf (compareSeal q l p s) q = some y ∧ y.source = g.source
      ∧ (pageOf y 0 l p).sealDigest = d ∧ (pageOf y 0 l p).state = if (pageOf g 0 l p).partner = none ∨ s.pair.state = 3 then 2 else 3 := by
  by_cases hwait : (pageOf g 0 l p).partner = none ∨ s.pair.state = 3
  · rw [compareSeal_waits hg hwait, if_pos hwait]
    exact ⟨rfl, g, hg, rfl, hd, h2⟩
  · obtain ⟨hnone, h3⟩ := not_or.1 hwait
    have hsome : (pageOf g 0 l p).partner = some (pageOf g 0 l p).sealDigest :=
      hd.symm ▸ (hp.resolve_left hnone).resolve_right h3
    rw [compareSeal_equal hg h2 h3 hsome, if_neg hwait]
    refine ⟨rfl, _, galleyOf_pageUpd hg .., pageSet_source .., ?_, ?_⟩ <;> rw [pageOf_pageSet_same]
    exact hd

/-- A page that does not seal is left as it is. -/
theorem sealDone_idle (o : ReadOutcome)
    (h : ∀ g : Galley, galleyOf s q = some g → ¬ ((pageOf g 0 l p).state = 1 ∧ (pageOf g 0 l p).sealing = true)) :
    sealDone q l p o s = s := by
  unfold sealDone
  split
  · rfl
  · next g hg =>
    dsimp only
    split
    · next hc => exact absurd (by simpa using hc) (h g hg)
    · rfl

section
variable {o : ReadOutcome} (hg : galleyOf s q = some g) (h1 : (pageOf g 0 l p).state = 1) (hseal : (pageOf g 0 l p).sealing = true)
include hg h1 hseal

/-- A page whose rows cannot be read is not sealed (07 R184, R191). -/
theorem sealDone_unread (hread : moverRead g [(0, l, p)] o s = (false, u)) : sealDone q l p o s = u := by
  unfold sealDone
  simp [hg, h1, hseal, hread]

theorem sealDone_eq {d : Digest} (hread : moverRead g [(0, l, p)] o s = (true, u)) (hp : sealPage q l p u = some (d, t)) :
    ∃ r : TrayReq, sealDone q l p o s = copyCheck q (compareSeal q l p (mirrorSend g [r] .none t)) := by
  refine ⟨.sealDigest (moverHdr t (partnerOr t) 0xD q) q (BitVec.ofNat 16 l) (BitVec.ofNat 32 p) d 0, ?_⟩
  unfold sealDone
  simp [hg, h1, hseal, hread, hp]

/-- A page that seals is SEALED with its digest, or MIRRORED at once where the partner's equal digest is there (08 R216). -/
theorem sealDone_seals {d : Digest} (hread : moverRead g [(0, l, p)] o s = (true, u)) (hgu : galleyOf u q = some g)
    (hp : sealPage q l p u = some (d, t)) (hsrc : g.source = none)
    (hpartner : (pageOf g 0 l p).partner = none ∨ (pageOf g 0 l p).partner = some d ∨ s.pair.state = 3) :
    (sealDone q l p o s).req.seals = t.req.seals ∧ ∃ y : Galley, galleyOf (sealDone q l p o s) q = some y
      ∧ (pageOf y 0 l p).sealDigest = d
      ∧ (pageOf y 0 l p).state = if (pageOf g 0 l p).partner = none ∨ s.pair.state = 3 then 2 else 3 := by
  obtain ⟨r, he⟩ := sealDone_eq hg h1 hseal hread hp
  obtain ⟨y, hy, hy2, hyd, hyp, hys⟩ := sealPage_sealed hp hgu
  have hreq : (mirrorSend g [r] .none t).req = t.req := mirrorSend_none_req ..
  have hpair : (mirrorSend g [r] .none t).pair.state = s.pair.state := by
    rw [mirrorSend_none_state, sealPage_changes_of (Q := [.codec, .tier, .sched, .req]) rfl hp (.refl _ u) .pair rfl,
      moverRead_tier hread .pair rfl]
  have hyv : galleyOf (mirrorSend g [r] .none t) q = some y := (galleyOf_congr (congrArg Req.galleys hreq) q).trans hy
  obtain ⟨hcount, z, hz, hzs, hzd, hz3⟩ := compareSeal_sealed hyv hy2 hyd (by rw [hyp, hpair]; exact hpartner)
  rw [he, copyCheck_own hz (hzs.trans (hys.trans hsrc))]
  rw [hyp, hpair] at hz3
  exact ⟨hcount.trans (congrArg Req.seals hreq), z, hz, hzd, hz3⟩

end

/-! ### A hand-over's time-out (08 R223) -/

theorem swapOutstanding_iff : swapOutstanding q s = true ↔ ∃ e ∈ s.near.dst, (∃ o ∈ e.2.out, o.why = .handover q)
    ∨ ∃ x ∈ e.2.waiting, x.2 = .handover q := by
  unfold swapOutstanding
  simp only [List.any_eq_true, Bool.or_eq_true]
  refine exists_congr fun e => and_congr_right fun _ => or_congr (exists_congr fun o => and_congr_right fun _ => ?_)
    (exists_congr fun w => and_congr_right fun _ => ?_)
  · cases o.why <;> simp
  · cases w.2 <;> simp

theorem trayDst_congr (h : t.near = s.near) (d : Nat) : trayDst t d = trayDst s d := by unfold trayDst; rw [h]

/-- A request that a live device issues to a member that is not excluded is outstanding there, or waits for room (10 R275). -/
theorem trayIssue_queued {d : Nat} (r : TrayReq) (w : TrayWhy) (hf : fenced s = false) (hx : excluded s (devOfSlot s d).toNat = false) :
    (∃ o ∈ (trayDst (trayIssue d r w s) d).out, o.why = w) ∨ ∃ x ∈ (trayDst (trayIssue d r w s) d).waiting, x.2 = w := by
  unfold trayIssue
  simp only [hf, hx, Bool.or_false, Bool.false_eq_true, if_false]
  split
  · right
    rw [trayDst_trayDstUpd_same]
    exact ⟨(r, w), List.mem_append_right _ (List.mem_singleton_self _), rfl⟩
  · left
    unfold traySend
    dsimp only
    rw [trayDst_congr (trayQueue_changes (Q := [.links]) rfl (.refl _ _) .near rfl), trayDst_trayDstUpd_same]
    exact ⟨_, List.mem_append_right _ (List.mem_singleton_self _), rfl⟩

section
variable {r : Rec} {h : Handover} (hr : recLive s q = some r) (hh : s.req.handovers.find? (fun h => h.req == q) = some h)
include hr hh

/-- Before 64 µs, while the serving member is excluded or while the exchange is outstanding, nothing is sent again (08 R223). -/
theorem handoverRetry_waits (hw : ∀ t0 : Nat, h.casAt = some t0 → s.tb < t0 + 40000 ∨ slotLive s (r.servingSlot.toNat % 16) = false
    ∨ swapOutstanding q s = true) : handoverRetry q s = s := by
  unfold handoverRetry
  simp only [hr, hh]
  split
  · rfl
  · next t0 ht =>
    split
    · next hc =>
      simp only [Bool.and_eq_true, decide_eq_true_eq, Bool.not_eq_true'] at hc
      obtain ⟨⟨hdue, hlive⟩, hout⟩ := hc
      rcases hw t0 ht with h | h | h
      · omega
      · rw [hlive] at h; cases h
      · rw [hout] at h; cases h
    · rfl

/-- The state in which a hand-over's exchange goes out again. -/
def handoverStamped (q : ReqId) (s : State) : State :=
  { s with req := { s.req with handovers := s.req.handovers.map (fun h => if h.req = q then { h with casAt := some s.tb } else h) } }

theorem handoverRetry_sends {t0 : Nat} (ht : h.casAt = some t0) (hdue : t0 + 40000 ≤ s.tb) (hlive : slotLive s (r.servingSlot.toNat % 16) = true)
    (hout : swapOutstanding q s = false) : handoverRetry q s = ownerSwap q h.dest (.handover q) (handoverStamped q s) := by
  unfold handoverRetry
  simp [hr, hh, ht, hdue, hlive, hout, handoverStamped]

end

/-- The exchange of the owner word goes to the member that serves (08 R222). -/
theorem ownerSwap_queued {r : Rec} (d : DevId) (w : TrayWhy) (hr : recLive s q = some r) (hf : fenced s = false)
    (hlive : slotLive s (r.servingSlot.toNat % 16) = true) :
    (∃ o ∈ (trayDst (ownerSwap q d w s) (r.servingSlot.toNat % 16)).out, o.why = w)
      ∨ ∃ x ∈ (trayDst (ownerSwap q d w s) (r.servingSlot.toNat % 16)).waiting, x.2 = w := by
  unfold ownerSwap ownerSwapFrom
  simp only [hr]
  exact trayIssue_queued _ w hf (by simpa [slotLive] using hlive)

/-! ### A step boundary (08 R218, R224) -/

theorem reserveStop_ok (h : s.tier.reserveBad = false) : reserveStop s = s := by unfold reserveStop; simp [h]

/-- Nothing has failed in the scrub since the last boundary. -/
theorem scrubbed_none (h : s.tier.scrubBad = []) : scrubbed s = s := by
  have ht : ({ s.tier with scrubBad := [] } : Tier) = s.tier := by rw [← h]
  unfold scrubbed
  rw [h, List.foldl_nil, ht]

/-- A batch step is counted where it decodes (08 R224). -/
def stepCounted (decode : Bool) (s : State) : State := if decode then { s with req := { s.req with step := s.req.step + 1 } } else s

theorem stepCounted_req (b : Bool) (s : State) : (stepCounted b s).req = { s.req with step := if b then s.req.step + 1 else s.req.step } := by
  cases b <;> rfl

theorem stepCounted_only {s0 : State} {Q : List Block} (b : Bool) (hq : Q.contains .req = true) (h : OnlyChanges Q s0 s) :
    OnlyChanges Q s0 (stepCounted b s) := by
  cases b with
  | false => exact h
  | true =>
    intro x hx
    cases x with
    | req => rw [hq] at hx; cases hx
    | _ => exact h _ hx

theorem stepBoundary_one {e : StepEnd} (hf : fenced s = false) (hrerun : rerunOpen s e = false) (hscrub : s.tier.scrubBad = []) :
    stepBoundary [e] s = stepCounted (roleOf s = 2 || (recLive s e.req).any (fun r => r.state == 4)) (boundaryOne s e) := by
  unfold stepBoundary
  simp only [hf, List.any_cons, hrerun, List.any_nil, Bool.or_false, Bool.false_eq_true, if_false, scrubbed_none hscrub, List.foldl_cons,
    List.foldl_nil]
  rfl

/-- While a re-run of the request is open the boundary waits (04 R118). -/
theorem stepBoundary_rerun {e : StepEnd} (h : rerunOpen s e = true) : stepBoundary [e] s = s := by
  unfold stepBoundary; simp [h]

/-- The record of a request whose step or chunk has ended (08 R218, R225). -/
def stepEnded (n : Word) (e : StepEnd) (r : Rec) : Rec :=
  { r with step := n, boundary := some (stepCut r e), flags := if e.pause then r.flags ||| 8 else r.flags }

section
variable {e : StepEnd} {r : Rec} (hr : recLive s e.req = some r) (hown : ownerView r = true) (hst : r.state = 2 ∨ r.state = 4)
  (hb : r.boundary = none) (hc : firstCode (boundaryConds s r e) = none)
include hr hown hst hb hc

theorem boundaryOne_redo (hredo : r.redo = true) : boundaryOne s e = recUpd e.req stepDiscard s := by
  have hst' : (r.state = 2 || r.state = 4) = true := by simpa using hst
  simp only [boundaryOne, hr, hown, hst', hb, hc, hredo, Bool.not_true, Option.isSome_none, Bool.or_false, Bool.false_eq_true, if_false, if_true]

/-- The end of a step stands in the record, and its commit or the fence before it goes out (08 R215, R222). -/
theorem boundaryOne_step (hredo : r.redo = false) : OnlyChanges [.near, .links] (recUpd e.req (stepEnded s.req.step e) s) (boundaryOne s e) := by
  have hst' : (r.state = 2 || r.state = 4) = true := by simpa using hst
  simp only [boundaryOne, hr, hown, hst', hb, hc, hredo, Bool.not_true, Option.isSome_none, Bool.or_false, Bool.false_eq_true, if_false]
  have hbase := OnlyChanges.refl [.near, .links] (recUpd e.req (stepEnded s.req.step e) s)
  exact changes_ite (fun _ => fenceIssue_changes rfl hbase) (fun _ => commitIssue_changes rfl hbase)

/-- A boundary changes nothing of the galleys, and leaves the step's end in the record, or a step discarded that is repeated. -/
theorem boundaryOne_record : OnlyChanges [.req, .near, .links] s (boundaryOne s e) ∧ (boundaryOne s e).req.galleys = s.req.galleys
    ∧ (boundaryOne s e).req.step = s.req.step
    ∧ recFind (boundaryOne s e) e.req = some (if r.redo then stepDiscard r else stepEnded s.req.step e r) := by
  obtain ⟨hfind, -⟩ := recLive_eq_some.1 hr
  have hid : r.reqId = e.req := reqId_of_recLive hr
  have h0 : r.state ≠ 0 := by rcases hst with h | h <;> rw [h] <;> decide
  have hupd (f : Rec → Rec) : OnlyChanges [.req, .near, .links] s (recUpd e.req f s) := recUpd_changes rfl (.refl _ s)
  have hstep (f : Rec → Rec) : (recUpd e.req f s).req.step = s.req.step := by unfold recUpd; split <;> rfl
  cases hredo : r.redo with
  | true =>
    rw [boundaryOne_redo hr hown hst hb hc hredo]
    exact ⟨hupd _, recUpd_galleys .., hstep _, recFind_recUpd hfind hid h0⟩
  | false =>
    have hk := boundaryOne_step hr hown hst hb hc hredo
    have hreq : (boundaryOne s e).req = (recUpd e.req (stepEnded s.req.step e) s).req := hk .req rfl
    refine ⟨(hupd _).trans (hk.wider rfl), (congrArg Req.galleys hreq).trans (recUpd_galleys ..),
      (congrArg Req.step hreq).trans (hstep _), ?_⟩
    rw [recFind_congr (congrArg Req.recs hreq)]
    exact recFind_recUpd hfind hid h0

end

/-! ### Tokens (08 R227) -/

/-- The last token of a message is PENDING at the stage-0 owner (08 R227). -/
def tokenPending (m : TokenMsg) (s : State) : State :=
  match recLive s m.req with
  | some r => if ownerView r && r.stage = 0 then recUpd m.req (fun r => { r with pending := m.tokens.getLast?.getD r.pending }) s else s
  | none => s

theorem tokenAt_eq (m : TokenMsg) (s : State) : tokenAt m s = anchorToken m (tokenPending m s) := rfl

theorem tokenPending_only (m : TokenMsg) (s : State) : OnlyChanges [.req] s (tokenPending m s) := by
  unfold tokenPending
  split
  · split
    · exact recUpd_changes rfl (.refl _ s)
    · exact .refl _ s
  · exact .refl _ s

theorem tokenPending_anchors (m : TokenMsg) (s : State) : (tokenPending m s).req.anchors = s.req.anchors := by
  unfold tokenPending
  split
  · split
    · exact recUpd_anchors ..
    · rfl
  · rfl

theorem recLive_recUpd {r : Rec} {f : Rec → Rec} (hr : recLive s q = some r) (hid : (f r).reqId = r.reqId) (h0 : (f r).state ≠ 0)
    (h8 : (f r).state ≠ 8) : recLive (recUpd q f s) q = some (f r) :=
  recLive_eq_some.2 ⟨recFind_recUpd (recLive_eq_some.1 hr).1 (hid.trans (reqId_of_recLive hr)) h0, h8⟩

theorem state_of_recLive {r : Rec} (hr : recLive s q = some r) : r.state ≠ 0 ∧ r.state ≠ 8 := by
  obtain ⟨i, hi⟩ := recEntry_of_recLive hr
  exact ⟨(recEntry_spec hi).2, (recLive_eq_some.1 hr).2⟩

/-- Of a record, a PENDING token changes nothing else. -/
theorem tokenPending_record {m : TokenMsg} {r : Rec} (hr : recLive s m.req = some r) :
    ∃ w : Word, recLive (tokenPending m s) m.req = some { r with pending := w } := by
  unfold tokenPending
  rw [hr]
  dsimp only
  split
  · exact ⟨_, recLive_recUpd hr rfl (state_of_recLive hr).1 (state_of_recLive hr).2⟩
  · exact ⟨r.pending, hr⟩

theorem anchorPause_anchorOf (q p : ReqId) (s : State) : anchorOf (anchorPause q s) p = anchorOf s p := by
  unfold anchorPause
  split
  · split
    · rfl
    · rw [anchorOf_toStages, anchorOf_recUpd]
  · rfl

/-- A pause at the anchor leaves the committed length and the state of the request (08 R231). -/
theorem anchorPause_record {r : Rec} (hr : recLive s q = some r) : ∃ f : Byte, recFind (anchorPause q s) q = some { r with flags := f } := by
  obtain ⟨hfind, -⟩ := recLive_eq_some.1 hr
  unfold anchorPause
  split
  · next x _ hx =>
    obtain rfl : r = x := Option.some.inj (hr.symm.trans hx)
    split
    · exact ⟨r.flags, hfind⟩
    · rw [recFind_toStages]
      exact ⟨_, recFind_recUpd (r := r) hfind (show r.reqId = q from reqId_of_recLive hr) (state_of_recLive hr).1⟩
  · exact ⟨r.flags, hfind⟩

theorem anchorSegment_last {a : AnchorInfo} {n : Nat} (ha : anchorOf s q = some a) (hs : a.segments = []) : anchorSegment q n s = s := by
  unfold anchorSegment; rw [ha]; simp only [hs]

theorem postOut_req (k : RingRef) (n : Word) (kind : Byte) (len : Nat) (q : ReqId) (p : OutPayload) (s : State) :
    (postOut k n kind len q p s).req = s.req := postOut_changes (Q := [.sec, .host, .out]) rfl (.refl _ s) .req rfl

section
variable {m : TokenMsg} {a : AnchorInfo} {r : Rec} (ha : anchorOf s m.req = some a) (hr : recLive s m.req = some r)
include ha hr

/-- A message whose tokens the anchor has had changes nothing there (08 R235). -/
theorem anchorToken_old (hn : (newTokens a m).tokens = []) : anchorToken m s = s := by
  unfold anchorToken
  simp [ha, hr, hn]

/-- The anchor's record once new tokens are in its output: a PREFILL or a HANDOVER of another owner is over (08 R227). -/
def tokenRecord (n : TokenMsg) (r : Rec) : Rec :=
  { r with
    commitLen := if ownerView r then r.commitLen else n.pos + n.tokens.length - 1
    state := if !ownerView r && (r.state == 2 || r.state == 3) then 4 else r.state }

/-- What the anchor keeps once new tokens are in its output and history (08 R227). -/
def tokenAnchor (n : TokenMsg) (a : AnchorInfo) : AnchorInfo :=
  { a with output := outputTokens a.output n.pos n.tokens, history := a.history.take n.pos ++ n.tokens }

/-- The state with new tokens in the anchor's output, before they are emitted. -/
def tokenTaken (q : ReqId) (n : TokenMsg) (s : State) : State := recUpd q (tokenRecord n) (anchorUpd q (tokenAnchor n) s)

/-- The tokens go out to the host, unless the request is silent (16 R425). -/
def tokenEmitted (n : TokenMsg) (a : AnchorInfo) (s : State) : State :=
  if a.silent then s else postOut a.ring a.session 1 (32 + 8 + 4 * n.tokens.length + 16) n.req (.tokens n.pos n.tokens) s

theorem anchorToken_eq (hn : (newTokens a m).tokens ≠ []) {t : State} (ht : anchorSegment m.req
    ((newTokens a m).pos + (newTokens a m).tokens.length - 1) (tokenEmitted (newTokens a m) a (tokenTaken m.req (newTokens a m) s)) = t) :
    anchorToken m s = if heldOver t a.ring.fn && r.state = 4 then anchorPause m.req t else t := by
  have hne : (newTokens a m).tokens.isEmpty = false := by simpa using hn
  rw [← ht]
  unfold anchorToken
  simp only [ha, hr, hne, Bool.false_eq_true, if_false]
  rfl

omit ha hr in
theorem tokenEmitted_req (n : TokenMsg) (a : AnchorInfo) (s : State) : (tokenEmitted n a s).req = s.req := by
  unfold tokenEmitted
  split
  · rfl
  · exact postOut_req ..

omit hr in
theorem anchorOf_tokenTaken (n : TokenMsg) : anchorOf (tokenTaken m.req n s) m.req = some (tokenAnchor n a) := by
  rw [tokenTaken, anchorOf_recUpd, anchorOf_anchorUpd_same, ha]
  rfl

/-- New tokens without a further segment: they are taken, emitted, and the request may be paused. -/
theorem anchorToken_new (hn : (newTokens a m).tokens ≠ []) (hs : a.segments = []) :
    ∃ t : State, t.req = (tokenTaken m.req (newTokens a m) s).req ∧ (anchorToken m s = t ∨ anchorToken m s = anchorPause m.req t) := by
  have hreq := tokenEmitted_req (newTokens a m) a (tokenTaken m.req (newTokens a m) s)
  have hanchor := (anchorOf_congr (congrArg Req.anchors hreq) m.req).trans (anchorOf_tokenTaken ha (newTokens a m))
  refine ⟨_, hreq, ?_⟩
  rw [anchorToken_eq ha hr hn (anchorSegment_last hanchor hs)]
  split
  · exact .inr rfl
  · exact .inl rfl

/-- New tokens go into the anchor's output and history, and its record follows them (08 R227). -/
theorem anchorToken_emits (hn : (newTokens a m).tokens ≠ []) (hs : a.segments = []) :
    anchorOf (anchorToken m s) m.req = some (tokenAnchor (newTokens a m) a)
      ∧ ∃ f : Byte, recFind (anchorToken m s) m.req = some { tokenRecord (newTokens a m) r with flags := f } := by
  obtain ⟨h0, h8⟩ := state_of_recLive hr
  have hstate : (tokenRecord (newTokens a m) r).state ≠ 0 ∧ (tokenRecord (newTokens a m) r).state ≠ 8 := by
    unfold tokenRecord
    dsimp only
    split
    · decide
    · exact ⟨h0, h8⟩
  obtain ⟨t, ht, he⟩ := anchorToken_new ha hr hn hs
  have hanchor := (anchorOf_congr (congrArg Req.anchors ht) m.req).trans (anchorOf_tokenTaken ha (newTokens a m))
  have hrec : recLive t m.req = some (tokenRecord (newTokens a m) r) := by
    rw [recLive_congr (congrArg Req.recs ht)]
    exact recLive_recUpd (s := anchorUpd m.req _ s) hr rfl hstate.1 hstate.2
  rcases he with he | he <;> rw [he]
  · exact ⟨hanchor, _, (recLive_eq_some.1 hrec).1⟩
  · exact ⟨(anchorPause_anchorOf ..).trans hanchor, anchorPause_record hrec⟩

end

/-! ### A pause that has lasted its hold (08 R231) -/

/-- Before the hold is over, on another member, or with the galley in work or shelved, nothing begins. -/
theorem holdExpiry_waits (hg : galleyOf s q = some g) (h : ¬ ((∃ t0 : Nat, g.pausedAt = some t0 ∧ t0 + s.req.hold * 625000 ≤ s.tb)
    ∧ g.serving = mySlot s ∧ g.op = .idle ∧ isShelved g = false)) : holdExpiry q s = s := by
  unfold holdExpiry
  rw [hg]
  dsimp only
  split
  · rfl
  · next t0 ht =>
    split
    · next hc =>
      simp only [Bool.and_eq_true, decide_eq_true_eq, Bool.not_eq_true'] at hc
      obtain ⟨⟨⟨hserve, hop⟩, hsh⟩, hdue⟩ := hc
      exact absurd ⟨⟨t0, ht, hdue⟩, hserve, hop, hsh⟩ h
    · rfl

/-- A pause that has lasted its hold begins a shelve. -/
theorem holdExpiry_shelves {t0 : Nat} (hg : galleyOf s q = some g) (ht : g.pausedAt = some t0) (hdue : t0 + s.req.hold * 625000 ≤ s.tb)
    (hserve : g.serving = mySlot s) (hop : g.op = .idle) (hsh : isShelved g = false) : holdExpiry q s = shelveStart q false s := by
  have hdue : t0 + s.req.hold * Config.tbPerMs ≤ s.tb := hdue
  unfold holdExpiry
  simp [hg, ht, hdue, hserve, hop, hsh]

/-! ### Copy-outs (08 R234) -/

/-- A copy-out of a request may begin: it is PAUSED, resident, at rest and served here, and none of it runs. -/
def MayCopy (q : ReqId) (g : Galley) (r : Rec) (s : State) : Prop :=
  r.state = 5 ∧ g.serving = mySlot s ∧ g.op = .idle ∧ isShelved g = false ∧ ∀ x ∈ s.req.copyouts, x.req ≠ q

theorem mayCopy_iff {r : Rec} : (r.state = 5 && g.serving = mySlot s && g.op = .idle && !isShelved g
    && !(s.req.copyouts.any (fun c => c.req == q))) = true ↔ MayCopy q g r s := by
  simp only [Bool.and_eq_true, decide_eq_true_eq, Bool.not_eq_true', List.any_eq_false, beq_iff_eq, MayCopy, and_assoc, ne_eq]

section
variable {r : Rec} {dest : DevId} {o : ReadOutcome} (hg : galleyOf s q = some g) (hr : recLive s q = some r)
include hg hr

theorem copyoutStart_refused (h : ¬ MayCopy q g r s) : copyoutStart q dest o s = s := by
  unfold copyoutStart
  simp only [hg, hr, Bool.eq_false_iff.2 (mt mayCopy_iff.1 h), Bool.false_eq_true, if_false]

/-- A galley that cannot be read is not copied (07 R191). -/
theorem copyoutStart_unread (h : MayCopy q g r s) (hread : (moverRead g ((shelfContent g).map (fun x => (x.1, x.2.1, x.2.2.1))) o s).1 = false) :
    copyoutStart q dest o s = let u := (moverRead g ((shelfContent g).map (fun x => (x.1, x.2.1, x.2.2.1))) o s).2
      { u with req := { u.req with copyoutCode := some (q, .integrity) } } := by
  unfold copyoutStart
  simp only [hg, hr, mayCopy_iff.2 h, hread, if_true, Bool.not_false]

/-- A copy-out that begins is registered, and its admission and pages go to both devices of the destination. -/
theorem copyoutStart_copies (h : MayCopy q g r s) (hread : (moverRead g ((shelfContent g).map (fun x => (x.1, x.2.1, x.2.2.1))) o s).1 = true) :
    let u := (moverRead g ((shelfContent g).map (fun x => (x.1, x.2.1, x.2.2.1))) o s).2
    OnlyChanges [.sched, .rma, .links, .out] { u with req := { u.req with copyouts := u.req.copyouts ++ [{ req := q, dest := dest }] } }
      (copyoutStart q dest o s) := by
  have hsend (l : List DevId) (x : FwMsg) {v w : State} (hk : OnlyChanges [.sched, .rma, .links, .out] v w) :
      OnlyChanges [.sched, .rma, .links, .out] v (l.foldl (fun s d => sendFw d r.epoch x s) w) :=
    foldl_changes hk fun _ _ k => sendFw_changes rfl k
  unfold copyoutStart
  simp only [hg, hr, mayCopy_iff.2 h, hread, if_true, Bool.not_true, Bool.false_eq_true, if_false]
  exact foldl_changes (meterT1_changes rfl (hsend _ _ (.refl _ _))) fun _ _ k => hsend _ _ k

end

theorem copyoutEnd_none (c : Status) (h : ∀ x ∈ s.req.copyouts, x.req ≠ q) : copyoutEnd q c s = s := by
  have hany : s.req.copyouts.any (fun x => x.req == q) = false := by simpa using h
  simp only [copyoutEnd, hany, Bool.false_eq_true, if_false]

/-- The state with a copy-out ended under its code. -/
def copyoutClosed (q : ReqId) (c : Status) (s : State) : State :=
  { s with req := { s.req with copyouts := s.req.copyouts.filter (fun x => x.req != q), copyoutCode := some (q, c) } }

/-- A copy-out that fails leaves the source as it is. -/
theorem copyoutEnd_fails {c : Status} (h : ∃ x ∈ s.req.copyouts, x.req = q) (hc : c ≠ .ok ∨ galleyOf s q = none) :
    copyoutEnd q c s = copyoutClosed q c s := by
  have hany : s.req.copyouts.any (fun x => x.req == q) = true := by simpa using h
  have hsame : galleyOf (copyoutClosed q c s) q = galleyOf s q := rfl
  unfold copyoutEnd
  rw [if_pos hany]
  show (match galleyOf (copyoutClosed q c s) q with | some g => _ | none => _) = _
  split
  · next g hg =>
    rw [if_neg (hc.resolve_right (by rw [← hsame, hg]; simp))]
    rfl
  · rfl

/-- The copy-outs of two states are the same, as are their code and count. -/
def SameCopyouts (s t : State) : Prop :=
  t.req.copyouts = s.req.copyouts ∧ t.req.copyoutCode = s.req.copyoutCode ∧ t.req.copyoutCount = s.req.copyoutCount

theorem SameCopyouts.trans (h : SameCopyouts s t) (k : SameCopyouts t u) : SameCopyouts s u :=
  ⟨k.1.trans h.1, k.2.1.trans h.2.1, k.2.2.trans h.2.2⟩

theorem SameCopyouts.of_req (h : t.req = s.req) : SameCopyouts s t := by unfold SameCopyouts; rw [h]; exact ⟨rfl, rfl, rfl⟩

theorem recUpd_copyouts (q : ReqId) (f : Rec → Rec) (s : State) : SameCopyouts s (recUpd q f s) := by
  unfold recUpd; split <;> exact ⟨rfl, rfl, rfl⟩

theorem recFree_copyouts (q : ReqId) (s : State) : SameCopyouts s (recFree q s) := by
  unfold recFree; split <;> exact ⟨rfl, rfl, rfl⟩

/-- What a freed galley leaves of a request: no galley, its record at the same index, one drop counted, the copy-outs. -/
structure Freed (q : ReqId) (s t : State) : Prop where
  none : galleyOf t q = none
  entry : ∀ (i : Nat) (r : Rec), recEntry s q = some (i, r) → ∃ n : Nat, recEntry t q = some (i, { r with held := n })
  drops : t.req.drops = satInc s.req.drops
  copyouts : SameCopyouts s t

/-- Pages that are freed leave of a request's record all but the pages it holds. -/
theorem freePages_kept (sel : Nat → Bool) (s : State) :
    (∀ (i : Nat) (r : Rec), recEntry s q = some (i, r) → ∃ n : Nat, recEntry (freePages q sel s) q = some (i, { r with held := n }))
      ∧ (freePages q sel s).req.drops = s.req.drops ∧ SameCopyouts s (freePages q sel s) := by
  have hreq (a : BitVec 16) (n i t m : Nat) (b : Bool) : (chargeHeld a false n (slotRef i t b false m s)).req = s.req :=
    chargeHeld_changes (Q := [.codec, .tier]) rfl (slotRef_changes rfl (.refl _ s)) .req rfl
  have hdrops (f : Rec → Rec) (v : State) : (recUpd q f v).req.drops = v.req.drops := by unfold recUpd; split <;> rfl
  unfold freePages
  split
  · exact ⟨fun i r hi => ⟨r.held, hi⟩, rfl, rfl, rfl, rfl⟩
  · next g _ =>
    dsimp only
    refine ⟨fun i r hi => ⟨_, recEntry_recUpd (r := r) ((recEntry_congr (congrArg Req.recs (hreq ..)) q).trans hi) (recEntry_spec hi).1
      (recEntry_spec hi).2⟩, (hdrops _ _).trans (congrArg Req.drops (hreq ..)), ?_⟩
    exact (SameCopyouts.of_req (hreq ..)).trans (recUpd_copyouts ..)

theorem freeGalley_freed (hg : galleyOf s q = some g) : Freed q s (freeGalley q s) := by
  obtain ⟨hentry, hdrops, hcopy⟩ := freePages_kept (q := q) (fun _ => true) s
  have hreq (v : State) : (quotaReturn g.tenant g.resv (freeT3 q v)).req = v.req :=
    quotaReturn_changes (Q := [.tier]) rfl (freeT3_changes rfl (.refl _ v)) .req rfl
  unfold freeGalley
  rw [hg]
  dsimp only
  refine ⟨Tab.find_del_same _ _, fun i r hi => ?_, ?_, ?_⟩
  · obtain ⟨n, hn⟩ := hentry i r hi
    exact ⟨n, (recEntry_congr (congrArg Req.recs (hreq _)) q).trans hn⟩
  · exact congrArg satInc ((congrArg Req.drops (hreq _)).trans hdrops)
  · obtain ⟨hc, hcode, hcount⟩ := hcopy.trans (SameCopyouts.of_req (hreq _))
    exact ⟨hc, hcode, hcount⟩

/-- A copy-out that is confirmed: the source drops its galley on both members and its record (08 R234). -/
theorem copyoutEnd_drops (h : ∃ x ∈ s.req.copyouts, x.req = q) (hg : galleyOf s q = some g) :
    galleyOf (copyoutEnd q .ok s) q = none ∧ (copyoutEnd q .ok s).req.copyouts = (copyoutClosed q .ok s).req.copyouts
      ∧ (copyoutEnd q .ok s).req.copyoutCode = some (q, .ok) ∧ (copyoutEnd q .ok s).req.copyoutCount = satInc s.req.copyoutCount
      ∧ ∀ (i : Nat) (r : Rec), recEntry s q = some (i, r) → Tab.find (copyoutEnd q .ok s).req.recs i = none := by
  have hany : s.req.copyouts.any (fun x => x.req == q) = true := by simpa using h
  generalize hv : ({ (copyoutClosed q .ok s) with req := { (copyoutClosed q .ok s).req with copyoutCount := satInc s.req.copyoutCount } } : State) = v
  have hgv : galleyOf v q = some g := by rw [← hv]; exact hg
  have hfreed := freeGalley_freed hgv
  obtain ⟨rs, he⟩ : ∃ rs : List TrayReq, copyoutEnd q .ok s = recFree q (mirrorSend g rs .none (freeGalley q v)) := by
    refine ⟨[.drop (moverHdr (freeGalley q v) (partnerOr (freeGalley q v)) 0xD q) q], ?_⟩
    have hclosed : galleyOf (copyoutClosed q .ok s) q = some g := hg
    unfold copyoutEnd
    rw [if_pos hany]
    show (match galleyOf (copyoutClosed q .ok s) q with | some g => _ | none => _) = _
    rw [hclosed]
    dsimp only
    rw [← hv]
    rfl
  have hreq : (mirrorSend g rs .none (freeGalley q v)).req = (freeGalley q v).req := mirrorSend_none_req ..
  obtain ⟨hc, hcode, hcount⟩ := (hfreed.copyouts.trans (.of_req hreq)).trans (recFree_copyouts q _)
  rw [he]
  refine ⟨?_, hc.trans (by rw [← hv]), hcode.trans (by rw [← hv]; rfl), hcount.trans (by rw [← hv]), fun i r hi => ?_⟩
  · rw [galleyOf_congr (recFree_galleys q _), galleyOf_congr (congrArg Req.galleys hreq)]
    exact hfreed.none
  · obtain ⟨n, hn⟩ := hfreed.entry i r (by rw [← hv]; exact hi)
    exact recFree_find ((recEntry_congr (congrArg Req.recs hreq) q).trans hn)

end

/-! ### The statement -/

/-- On a fenced device no event of a galley but a seal does anything (09 R260). -/
theorem unlessFenced_fenced {s : State} (f : State → State) (h : fenced s = true) : unlessFenced f s = s := by simp [unlessFenced, h]

section
variable {q : ReqId} {s : State} (hf : fenced s = false)
include hf

/-- The exchange that goes out again is queued to the serving member, and the hand-over is stamped (08 R223). -/
theorem handoverTimeout_sends {r : Rec} {h : Handover} {t0 : Nat} (hr : recLive s q = some r)
    (hh : s.req.handovers.find? (fun h => h.req == q) = some h) (ht : h.casAt = some t0) (hdue : t0 + 40000 ≤ s.tb)
    (hlive : slotLive s (r.servingSlot.toNat % 16) = true) (hout : swapOutstanding q s = false) :
    OnlyChanges [.req, .near, .links] s (handoverRetry q s) ∧ (handoverRetry q s).req = (handoverStamped q s).req
      ∧ ((∃ o ∈ (trayDst (handoverRetry q s) (r.servingSlot.toNat % 16)).out, o.why = .handover q)
        ∨ ∃ x ∈ (trayDst (handoverRetry q s) (r.servingSlot.toNat % 16)).waiting, x.2 = .handover q) := by
  have hk : OnlyChanges [.near, .links] (handoverStamped q s) (ownerSwap q h.dest (.handover q) (handoverStamped q s)) :=
    ownerSwap_changes rfl (.refl _ _)
  rw [handoverRetry_sends hr hh ht hdue hlive hout]
  exact ⟨(withReq_only s _).wider rfl |>.trans (hk.wider rfl), hk .req rfl, ownerSwap_queued (s := handoverStamped q s) _ _ hr hf hlive⟩

omit hf in
theorem execStepBoundary_waits {e : StepEnd} {r : Rec} (hbad : s.tier.reserveBad = false) (hr : recLive s e.req = some r)
    (hown : ownerView r = true) (hre : r.reruns ≠ []) : exec (.stepBoundary [e]) s = .next s := by
  have hopen : rerunOpen s e = true := by simp [rerunOpen, hr, hown, hre]
  exact congrArg Host.Outcome.next ((congrArg reserveStop (stepBoundary_rerun hopen)).trans (reserveStop_ok hbad))

theorem execStepBoundary_ends {e : StepEnd} {r : Rec} (hscrub : s.tier.scrubBad = [])
    (hr : recLive s e.req = some r) (hre : r.reruns = []) :
    exec (.stepBoundary [e]) s = .next (reserveStop (stepCounted (roleOf s = 2 || r.state == 4) (boundaryOne s e))) := by
  have hclosed : rerunOpen s e = false := by simp [rerunOpen, hr, hre]
  have hone := stepBoundary_one hf hclosed hscrub
  rw [hr] at hone
  exact congrArg (fun t => Host.Outcome.next (reserveStop t)) hone

end

/-- Settles O52: a seal, a hand-over's time-out, a step boundary, a token, a pause's hold and a copy-out do what 08 says, and but for the
seal nothing on a fenced device. -/
theorem galleyEventCommands : Obligations.GalleyEventCommands := by
  unfold Obligations.GalleyEventCommands
  intro q l p o e m dest c s
  refine ⟨fun h => congrArg Host.Outcome.next (sealDone_idle o h), fun g u w d hg h1 hs hread hgu hp hsrc hpartner => ?_,
    fun g u hg h1 hs hread => congrArg Host.Outcome.next (sealDone_unread hg h1 hs hread), fun hf i hi => ?_, fun hf hbad => ?_,
    fun hf => ?_⟩
  · exact ⟨_, rfl, sealDone_seals hg h1 hs hread hgu hp hsrc hpartner⟩
  · have hnext (f : State → State) : Host.Outcome.next (unlessFenced f s) = (.next s : Out) := by rw [unlessFenced_fenced f hf]
    simp only [List.mem_cons, List.not_mem_nil, or_false] at hi
    rcases hi with rfl | rfl | rfl | rfl | rfl <;> exact hnext _
  · have hsame : stepBoundary [e] s = s := by unfold stepBoundary; simp [hf]
    exact congrArg Host.Outcome.next (hsame.symm ▸ reserveStop_ok hbad)
  have hrun {f : State → State} {t : State} (h : f s = t) : Host.Outcome.next (unlessFenced f s) = (.next t : Out) :=
    congrArg Host.Outcome.next ((unlessFenced_of f hf).trans h)
  refine ⟨fun r h hr hh => ⟨fun hnone => ?_, fun t0 ht hw => ?_, fun t0 ht hdue hlive hout => ?_⟩,
      fun hbad hscrub => ⟨fun r hr hown hre => execStepBoundary_waits hbad hr hown hre, fun r hr hown hst hb hre hc => ?_⟩,
      fun a r ha hr => ⟨fun hn => ?_, fun hn hs => ?_⟩, fun g hg => ⟨fun h => hrun (holdExpiry_waits hg h), ?_⟩,
      fun g r hg hr => ⟨fun h => hrun (copyoutStart_refused hg hr h), fun h hread => hrun (copyoutStart_unread hg hr h hread),
        fun h hread => ?_⟩, fun h => hrun (copyoutEnd_none c h),
      fun h => ⟨fun hc => hrun (copyoutEnd_fails h hc), fun hc g hg => ?_⟩⟩
  · exact hrun (handoverRetry_waits hr hh fun t0 ht => by rw [hnone] at ht; cases ht)
  · refine hrun (handoverRetry_waits hr hh fun t1 ht1 => ?_)
    obtain rfl : t0 = t1 := Option.some.inj (ht.symm.trans ht1)
    exact hw.imp_right (Or.imp_right swapOutstanding_iff.2)
  · obtain ⟨hk, hreq, hqueued⟩ :=
      handoverTimeout_sends hf hr hh ht hdue hlive (Bool.eq_false_iff.2 (mt swapOutstanding_iff.1 hout))
    exact ⟨_, hrun rfl, hk, (congrArg Req.recs hreq :), hqueued, (congrArg Req.handovers hreq :)⟩
  · obtain ⟨hk, hgal, hstep, hrec⟩ := boundaryOne_record hr hown hst hb hc
    have hcount := stepCounted_only (roleOf s = 2 || r.state == 4) rfl hk
    have hreq := stepCounted_req (s := boundaryOne s e) (roleOf s = 2 || r.state == 4)
    have hrecs := (recFind_congr (congrArg Req.recs hreq :) e.req).trans hrec
    refine ⟨_, (execStepBoundary_ends hf hscrub hr hre).trans (congrArg Host.Outcome.next (reserveStop_ok ?_)), hcount,
      (congrArg Req.galleys hreq :).trans hgal, (congrArg Req.step hreq :).trans ?_, fun hredo => ?_, fun hredo => ?_⟩
    · exact (congrArg Tier.reserveBad (hcount .tier rfl)).trans hbad
    · simp [hstep]
    · rw [hrecs, if_pos hredo]
    · rw [hrecs, if_neg (Bool.eq_false_iff.1 hredo)]
      rfl
  · have hkept := tokenPending_anchors m s
    obtain ⟨w, hw⟩ := tokenPending_record hr
    have hsame := (tokenAt_eq m s).trans (anchorToken_old ((anchorOf_congr hkept m.req).trans ha) hw hn)
    exact ⟨_, hrun hsame, tokenPending_only m s, hkept⟩
  · obtain ⟨w, hw⟩ := tokenPending_record hr
    obtain ⟨hb, f, hy⟩ := anchorToken_emits ((anchorOf_congr (tokenPending_anchors m s) m.req).trans ha) hw hn hs
    refine ⟨_, hrun (tokenAt_eq m s), anchorToken_changes rfl ((tokenPending_only m s).wider rfl), ⟨_, hb, rfl, rfl⟩, _, hy, rfl, ?_⟩
    have hview : ownerView { r with pending := w } = ownerView r := rfl
    simp [tokenRecord, hview]
  · intro ⟨t0, ht, hdue⟩ hserve hop hsh hretry hflr hmover k a hk ha hfree hroom
    have hbegins := (holdExpiry_shelves hg ht hdue hserve hop hsh).trans
      (shelveStart_starts false hg hop hmover hserve hretry (by simpa using hflr) hk ha hfree hroom)
    refine ⟨_, hrun hbegins, galleyUpd_changes rfl (tier_only rfl s _), rfl, ?_⟩
    exact (galleyOf_galleyUpd_same ..).trans ((congrArg _ hg).trans (by simp))
  · have hk := copyoutStart_copies hg hr h hread (dest := dest)
    exact ⟨_, hrun rfl, (withReq_only _ _).wider rfl |>.trans (hk.wider rfl), hk .req rfl⟩
  · subst hc
    exact ⟨_, hrun rfl, copyoutEnd_drops h hg⟩

end Sys2Proof.Machine
end

section
/-!
Requests of the state mover at their home (08 R215, R216, R222, R230; 09 R244 to R251; 10 R273, R276, R280, R288): one that is next in
order is executed at once, and what each leaves of the galley, the record and the pair.
-/

namespace Sys2Proof.Machine

/-! ### A request in turn (10 R274, R288) -/

theorem Tab.put_put {V : Type} (t : Tab V) (k : Nat) (v w : V) : Tab.put (Tab.put t k v) k w = Tab.put t k w := by
  induction t with
  | nil => simp [Tab.put]
  | cons e t ih =>
    obtain ⟨k', v'⟩ := e
    simp only [Tab.put]
    split
    · simp [Tab.put]
    · split
      · simp [Tab.put]
      · next h1 h2 => simp [Tab.put, h1, h2, ih]

theorem traySrc_traySrcUpd (d : Nat) (f : TraySrc → TraySrc) (s : State) : traySrc (traySrcUpd d f s) d = f (traySrc s d) :=
  Tab.getD_upd_same ..

/-- Two changes of what the home keeps for a source are one. -/
theorem traySrcUpd_traySrcUpd {d : Nat} {f g k : TraySrc → TraySrc} {s : State} (h : g (f (traySrc s d)) = k (traySrc s d)) :
    traySrcUpd d g (traySrcUpd d f s) = traySrcUpd d k s := by
  have hsrc : Tab.upd (Tab.upd s.near.src d {} f) d {} g = Tab.upd s.near.src d {} k := by
    show Tab.put (Tab.put _ d _) d (g (Tab.getD (Tab.upd s.near.src d {} f) d {})) = Tab.put _ d (k _)
    rw [Tab.put_put, Tab.getD_upd_same]
    exact congrArg _ h
  show ({ s with near := { s.near with src := Tab.upd (Tab.upd s.near.src d {} f) d {} g } } : State) = _
  rw [hsrc]
  rfl

/-- A request that is in turn and waits for no turn at a line is executed at once (10 R274, R276, R288). -/
theorem homeArrive_inTurn {r : TrayReq} {s : State} (ht : InTurn r s) (hw : ∀ (t : State) (d : Nat), turnWaits t d r = false) :
    homeArrive r s = homeExecute r (tookRequest r s) := by
  obtain ⟨hf, hx, he, hxe, hn, hre, hrun, hexe⟩ := ht
  generalize hd : srcDev (reqHdr r) = d at *
  have hkeep : (traySrc s d).executed.find? (fun e => e.1 == (reqHdr r).seq.toNat) = none := by
    simpa [hn] using hexe
  have hput : traySrc (traySrcUpd d (fun x => { x with reorder := Tab.put x.reorder (traySrc s d).expect r }) s) d
      = { traySrc s d with reorder := [((traySrc s d).expect, r)] } := by
    rw [traySrc_traySrcUpd, hre]
    rfl
  have hrun' : (traySrc s d).running.contains (traySrc s d).expect = false := by simpa using hrun
  have hnone : (Tab.find (traySrc s d).reorder (traySrc s d).expect).isSome = false := by rw [hre]; rfl
  unfold homeArrive
  simp only [hd, hf, hx, he, hxe, hkeep, bne_self_eq_false, Bool.or_self, Bool.false_eq_true, if_false, if_true]
  rw [hn, hrun', hnone, if_neg (by simp), if_pos (by simp), hre]
  show homeDrain d 1 _ = _
  unfold homeDrain
  simp only [hput, Tab.find, if_true, hw, Bool.false_eq_true, if_false]
  unfold homeDrain
  refine congrArg _ ?_
  rw [tookRequest, hd]
  exact traySrcUpd_traySrcUpd (by simp [hre, Tab.put, Tab.del])

/-! ### The answer (10 R266, R288) -/

/-- The home has taken the request with header `h`: the device keeps its identity, and expects the next request of the source. -/
structure Taken (h : TrayHdr) (s u : State) : Prop where
  dev : myDev u = myDev s
  next : (traySrc u (srcDev h)).expect = ((traySrc s (srcDev h)).expect + 1) % 2 ^ 32

section
variable {h : TrayHdr} {s u t : State}

theorem Taken.congr (k : Taken h s u) (hd : myDev t = myDev u) (hs : t.near.src = u.near.src) : Taken h s t :=
  ⟨hd.trans k.dev, (congrArg (fun x => TraySrc.expect (Tab.getD x (srcDev h) {})) hs).trans k.next⟩

theorem Taken.of_only (k : Taken h s u) {Q : List Block} (hd : Q.contains .dev = false) (hn : Q.contains .near = false)
    (ho : OnlyChanges Q u t) : Taken h s t :=
  k.congr (myDev_congr (ho .dev hd)) (congrArg Near.src (ho .near hn))

/-- The answer of an executed request is in its source's record. -/
theorem Taken.answered {r : TrayReq} (k : Taken h s u) (hh : reqHdr r = h) (c : Status) (b : List Byte) :
    Answered r c b s (homeFinish h c b u) := by
  subst hh
  intro hother
  have hne : ¬ (reqHdr r).src.toNat % 4096 = (myDev u).toNat := by rw [k.dev]; exact hother
  have hnear (v : State) : traySrc (trayAnswer (reqHdr r) c b v) (srcDev (reqHdr r)) = traySrc v (srcDev (reqHdr r)) :=
    congrArg (fun n : Near => Tab.getD n.src (srcDev (reqHdr r)) {}) (trayAnswer_changes (Q := [.links]) rfl (.refl _ v) .near rfl)
  unfold homeFinish
  rw [if_neg hne, hnear]
  refine ⟨?_, (congrArg TraySrc.expect (traySrc_traySrcUpd (srcDev (reqHdr r)) _ _)).trans k.next⟩
  show _ ∈ (traySrc (traySrcUpd (srcDev (reqHdr r)) _ _) (srcDev (reqHdr r))).executed
  rw [traySrc_traySrcUpd]
  simp

/-- Requests that a home sends of its own leave what it keeps for its sources. -/
theorem trayIssue_src (d : Nat) (r : TrayReq) (w : TrayWhy) (s : State) : (trayIssue d r w s).near.src = s.near.src := by
  have hsend : (traySend d r w s).near.src = s.near.src := by
    unfold traySend
    dsimp only
    rw [trayQueue_changes (Q := [.links]) rfl (.refl _ _) .near rfl]
    rfl
  unfold trayIssue
  split
  · rfl
  · split
    · rfl
    · exact hsend

theorem Taken.trayIssue (k : Taken h s u) (d : Nat) (r : TrayReq) (w : TrayWhy) : Taken h s (trayIssue d r w u) :=
  k.congr (myDev_congr (trayIssue_changes (Q := [.near, .links]) rfl (.refl _ u) .dev rfl)) (trayIssue_src d r w u)

end

/-! ### The state in which a request of the state mover runs -/

section
variable {h : TrayHdr} {q : ReqId} {n : Nat} {s t u : State}

/-- The state in which a request that is in turn runs: the home has taken it, and `n` is NEAR_ATOMIC_HW. -/
def heard (h : TrayHdr) (q : ReqId) (n : Nat) (s : State) : State :=
  tookRequest (.drop h q) { s with near := { s.near with atomicHw := n } }

theorem heard_only (h : TrayHdr) (q : ReqId) (n : Nat) (s : State) : OnlyChanges [.near] s (heard h q n s) :=
  fun b hb => by
    cases b with
    | near => simp at hb
    | _ => rfl

theorem heard_taken (h : TrayHdr) (q : ReqId) (n : Nat) (s : State) : Taken h s (heard h q n s) :=
  ⟨rfl, congrArg TraySrc.expect (traySrc_traySrcUpd (srcDev h) _ _)⟩

/-- NEAR_ATOMIC_HW decides nothing of R276. -/
theorem r276_heard (r : TrayReq) : r276 (heard h q n s) r = r276 (tookRequest (.drop h q) s) r := by cases r <;> rfl

/-- The request that an instruction of the state mover's home is. -/
def moverReq (i : Instr) : Option TrayReq :=
  match i with
  | .commit h q nl st w => some (.commit h q nl st w.val w.reads)
  | .sealDigest h q l p d => some (.sealDigest h q l p d.digest d.resv)
  | .ownerFwd h q w => some (.ownerFwd h q w)
  | .mapWrite h q off bs => some (.mapWrite h q off bs)
  | .record h q u => some (.record h q u)
  | .drop h q => some (.drop h q)
  | .page h p => some (.page h p)
  | .ckpt h n c pg => some (.ckpt h n c pg)
  | .silverSetup h qs ls => some (.silverSetup h qs ls)
  | .ownerWordCas h q c w => some (.ownerCas h q c w)
  | _ => none

/-- A request in turn runs at once where it is no atomic of the fabric. -/
theorem homeArrive_heard {r : TrayReq} (ht : InTurn (.drop h q) s) (hh : reqHdr r = h) (hw : ∀ (t : State) (d : Nat), turnWaits t d r = false) :
    homeArrive r s = homeExecute r (heard h q s.near.atomicHw s) := by
  have hr : InTurn r s := by unfold InTurn at ht ⊢; rw [hh]; exact ht
  rw [homeArrive_inTurn hr hw]
  rw [tookRequest, hh]
  rfl

theorem exec_moverReq {i : Instr} {r : TrayReq} (hi : moverReq i = some r) (hh : reqHdr r = h) (ht : InTurn (.drop h q) s) :
    ∃ n : Nat, exec i s = .next (homeExecute r (heard h q n s)) := by
  have hnow (hw : ∀ (t : State) (d : Nat), turnWaits t d r = false) :
      (.next (homeArrive r s) : Out) = .next (homeExecute r (heard h q s.near.atomicHw s)) :=
    congrArg Host.Outcome.next (homeArrive_heard ht hh hw)
  have hcas (hw : ∀ (t : State) (d : Nat), turnWaits t d r = false) :
      (.next (homeArrive r (atomicWaits s)) : Out) = .next (homeExecute r (heard h q (max s.near.atomicHw (trayAtomics s + 1)) s)) :=
    congrArg Host.Outcome.next (homeArrive_heard (s := atomicWaits s) ht hh hw)
  cases i with
  | ownerWordCas h q c w => cases hi; exact ⟨_, hcas fun _ _ => rfl⟩
  | commit h q nl st w => cases hi; exact ⟨_, hnow fun _ _ => rfl⟩
  | sealDigest h q l p d => cases hi; exact ⟨_, hnow fun _ _ => rfl⟩
  | ownerFwd h q w => cases hi; exact ⟨_, hnow fun _ _ => rfl⟩
  | mapWrite h q off bs => cases hi; exact ⟨_, hnow fun _ _ => rfl⟩
  | record h q u => cases hi; exact ⟨_, hnow fun _ _ => rfl⟩
  | drop h q => cases hi; exact ⟨_, hnow fun _ _ => rfl⟩
  | page h p => cases hi; exact ⟨_, hnow fun _ _ => rfl⟩
  | ckpt h n c pg => cases hi; exact ⟨_, hnow fun _ _ => rfl⟩
  | silverSetup h qs ls => cases hi; exact ⟨_, hnow fun _ _ => rfl⟩
  | _ => cases hi

theorem homeExecute_refused {r : TrayReq} (hr : r276 u r ≠ .ok) : homeExecute r u = homeFinish (reqHdr r) (r276 u r) [] u := by
  unfold homeExecute
  split
  · next hok => exact absurd hok hr
  · rfl

theorem homeExecute_ok {r : TrayReq} (hr : r276 u r = .ok) : homeExecute r u = homeRun r u := by
  unfold homeExecute; rw [hr]

end

section
variable {h : TrayHdr} {q : ReqId} {g : Galley} {s t u : State}

/-! ### What a member's place in the tray depends on -/

theorem partnerSlot_congr (hd : t.dev = s.dev) (hf : t.forme = s.forme) : partnerSlot t = partnerSlot s := by
  unfold partnerSlot mySlot; rw [hd, hf]

theorem devOfSlot_congr (hd : t.dev = s.dev) (d : Nat) : devOfSlot t d = devOfSlot s d := by unfold devOfSlot myTray; rw [hd]

theorem fromPartner_congr (hd : t.dev = s.dev) (hf : t.forme = s.forme) (h : TrayHdr) : fromPartner t h = fromPartner s h := by
  have hslot (d : Nat) : devOfSlot t d = devOfSlot s d := devOfSlot_congr hd d
  simp only [fromPartner, partnerDev, partnerSlot_congr hd hf, Option.any_map, hslot]

theorem mirrors_congr (hd : t.dev = s.dev) (hf : t.forme = s.forme) (hp : t.pair = s.pair) (g : Galley) : mirrors t g = mirrors s g := by
  unfold mirrors slotLive excluded
  simp only [partnerSlot_congr hd hf, devOfSlot_congr hd, hp]

/-! ### The journal of a bring-in (09 R251) -/

theorem ownerJournal_only (q : ReqId) (r : TrayReq) (s : State) : OnlyChanges [.pair] s (ownerJournal q r s) :=
  changes_ite (fun _ => journal_changes rfl (.refl _ s)) (fun _ => .refl _ s)

/-- What the partner writes is not entered. -/
theorem ownerJournal_partner {r : TrayReq} (hp : fromPartner s (reqHdr r) = true) (q : ReqId) : ownerJournal q r s = s := by
  unfold ownerJournal; simp [hp]

theorem fromPartner_ownerJournal (q : ReqId) (r : TrayReq) (h : TrayHdr) : fromPartner (ownerJournal q r s) h = fromPartner s h :=
  fromPartner_congr (ownerJournal_only q r s .dev rfl) (ownerJournal_only q r s .forme rfl) h

theorem ownerJournal_req (q : ReqId) (r : TrayReq) : (ownerJournal q r s).req = s.req := ownerJournal_only q r s .req rfl

theorem galleyOf_ownerJournal (hg : galleyOf u q = some g) (r : TrayReq) : galleyOf (ownerJournal q r u) q = some g :=
  (galleyOf_congr (congrArg Req.galleys (ownerJournal_req q r)) q).trans hg

/-! ### Requests that are refused (08 R209, R216, R222; 09 R247, R251) -/

/-- The requests that a member takes from its partner alone. -/
def partnerOnly (i : Instr) : Bool :=
  match i with
  | .sealDigest .. | .ownerFwd .. | .ckpt .. | .silverSetup .. => true
  | _ => false

/-- A request for the partner alone is DENIED to others. -/
theorem homeRun_stranger {i : Instr} {r : TrayReq} (hi : moverReq i = some r) (hh : reqHdr r = h) (hc : partnerOnly i = true)
    (hp : fromPartner u h = false) : homeRun r u = homeFinish h .denied [] u := by
  subst hh
  cases i with
  | sealDigest => cases hi; exact if_pos (congrArg not hp)
  | ownerFwd => cases hi; exact if_pos (congrArg not hp)
  | ckpt => cases hi; exact if_neg (Bool.eq_false_iff.1 hp)
  | silverSetup => cases hi; exact if_neg (Bool.eq_false_iff.1 (congrArg (· && _) hp))
  | _ => cases hc

section
variable (hg : galleyOf u q = some g) (hp : fromPartner u h = false) (hown : srcDev h ≠ g.owner.toNat)
include hg hp hown

theorem homeRun_mapWrite_stranger (off : Word) (bs : List Byte) :
    homeRun (.mapWrite h q off bs) u = homeFinish h .denied [] (ownerJournal q (.mapWrite h q off bs) u) := by
  have hpj := (fromPartner_ownerJournal (s := u) q (.mapWrite h q off bs) h).trans hp
  show mapWriteAt h q off.toNat bs (ownerJournal q _ u) = _
  simp [mapWriteAt, galleyOf_ownerJournal hg, hpj, hown]

theorem homeRun_record_stranger (r : RecordUpdate) :
    homeRun (.record h q r) u = homeFinish h .denied [] (ownerJournal q (.record h q r) u) := by
  have hpj := (fromPartner_ownerJournal (s := u) q (.record h q r) h).trans hp
  show recordAt h q r (ownerJournal q _ u) = _
  simp [recordAt, galleyOf_ownerJournal hg, hpj, hown]

theorem homeRun_drop_stranger : homeRun (.drop h q) u = homeFinish h .denied [] u := by
  show dropAt h q u = _
  simp [dropAt, hg, hp, hown]

end

section
variable (hg : galleyOf u q = none)
include hg

theorem homeRun_seal_lost (l : BitVec 16) (p : Word) (d : Digest) (rv : Nat) (hp : fromPartner u h = true) :
    homeRun (.sealDigest h q l p d rv) u = homeFinish h .stateLost [] u :=
  (if_neg (by simp [hp])).trans (if_pos (by rw [hg]; rfl))

theorem homeRun_fwd_lost (w : DWord) (hp : fromPartner u h = true) : homeRun (.ownerFwd h q w) u = homeFinish h .stateLost [] u :=
  (if_neg (by simp [hp])).trans (if_pos (by rw [hg]; rfl))

theorem homeRun_commit_lost (n : Word) (st : Word) (r : RecordUpdate) (o : ReadOutcome) :
    homeRun (.commit h q n st r o) u = homeFinish h .stateLost [] u := by
  show commitAt h q n.toNat st r o u = _
  unfold commitAt
  rw [hg]

end

/-- A record that is not PAUSED under this device's ownership has nothing that a pause would end (08 R218, R228). -/
theorem pausedEnds_idle (hr : ∀ r, recLive u q = some r → ownerView r = false ∨ r.state ≠ 5) : pausedEnds q u = u := by
  unfold pausedEnds
  split
  · rfl
  · next r hrec =>
    rcases hr r hrec with h | h
    · simp [h]
    · simp only [h, ne_eq, not_false_eq_true, decide_true, Bool.or_true, if_true]

theorem homeFinish_req (h : TrayHdr) (c : Status) (b : List Byte) (s : State) : (homeFinish h c b s).req = s.req :=
  homeFinish_changes (Q := [.near, .links]) rfl (.refl _ s) .req rfl

/-- An exchange whose answer changes no record ends with it. -/
theorem homeRun_cas_finish {cmp w : DWord} {c : Status} {b : List Byte} (hr : ∀ r, recLive u q = some r → ownerView r = false ∨ r.state ≠ 5)
    (hc : ownerCasAt h q cmp.toNat w.toNat u = homeFinish h c b u) : homeRun (.ownerCas h q cmp w) u = homeFinish h c b u := by
  show pausedEnds q (ownerCasAt h q cmp.toNat w.toNat u) = _
  rw [hc]
  exact pausedEnds_idle fun r hrec => hr r ((recLive_congr (congrArg Req.recs (homeFinish_req ..)) q).symm.trans hrec)

theorem homeRun_cas_lost (cmp w : DWord) (hg : galleyOf u q = none) (hr : ∀ r, recLive u q = some r → ownerView r = false ∨ r.state ≠ 5) :
    homeRun (.ownerCas h q cmp w) u = homeFinish h .stateLost [] u := by
  refine homeRun_cas_finish hr ?_
  unfold ownerCasAt
  rw [hg]

end

section
variable {h : TrayHdr} {q : ReqId} {g : Galley} {s t u : State}

/-! ### Mirrored writes that an answer waits for (09 R244, R245) -/

theorem pair_only {Q : List Block} (hq : Q.contains .pair = true) (s : State) (x : Pair) : OnlyChanges Q s { s with pair := x } := fun b hb => by
  cases b with
  | pair => rw [hq] at hb; cases hb
  | _ => rfl

/-- Where the partner is not written, the write completes with one copy. -/
theorem mirrorSend_alone (rs : List TrayReq) (m : MirrorThen) (hm : mirrors u g = false) :
    ∃ v : State, OnlyChanges [.pair] u v ∧ mirrorSend g rs m u = runThen (oneCopy m) v := by
  refine ⟨if u.pair.alone && g.mirrored then journal (rs.map journalOf).flatten u else u,
    changes_ite (fun _ => journal_changes rfl (.refl _ u)) (fun _ => .refl _ u), ?_⟩
  unfold mirrorSend
  simp [hm]

/-- What one copy answers for an exchange, and for a COMMIT (09 R245). -/
theorem oneCopy_ok (b : List Byte) : oneCopy (.answer h .ok b) = .answer h (if h.type = 0x07 then .degraded else .ok) b := by
  unfold oneCopy
  dsimp only
  split <;> rfl

/-- One copy answers with another code at most (09 R245). -/
theorem oneCopy_answer (h : TrayHdr) (c : Status) (b : List Byte) : ∃ d : Status, oneCopy (.answer h c b) = .answer h d b := by
  cases c with
  | ok => exact ⟨_, oneCopy_ok b⟩
  | _ => exact ⟨_, rfl⟩

/-- An answer that the partner's acknowledgements hold changes nothing but the pair and what the fabric carries. -/
theorem mirrorSend_answer_changes (rs : List TrayReq) (c : Status) (b : List Byte) :
    OnlyChanges [.pair, .near, .links] u (mirrorSend g rs (.answer h c b) u) := by
  have hfinish (c : Status) {v : State} (k : OnlyChanges [.pair, .near, .links] u v) : OnlyChanges [.pair, .near, .links] u (homeFinish h c b v) :=
    homeFinish_changes rfl k
  have hjournal (j : List JournalItem) : OnlyChanges [.pair, .near, .links] u (journal j u) := journal_changes rfl (.refl _ u)
  cases hm : mirrors u g with
  | false =>
    obtain ⟨v, hv, he⟩ := mirrorSend_alone rs (.answer h c b) hm
    obtain ⟨d, hd⟩ := oneCopy_answer h c b
    rw [he, hd]
    exact hfinish d (hv.wider rfl)
  | true =>
    unfold mirrorSend
    simp only [hm, Bool.not_true, Bool.false_eq_true, if_false]
    split
    · exact hfinish c (.refl _ u)
    · exact changes_ite (fun _ => hfinish c (.refl _ u)) fun _ =>
        foldl_changes ((hjournal _).trans (pair_only rfl _ _)) fun _ _ k => trayIssue_changes rfl k

/-! ### The exchange of the owner word (08 R222; 10 R280) -/

/-- What an exchange that agrees with the word does: it sets it, and its mirrored write holds the answer (08 R222, 09 R244). -/
def wordSet (h : TrayHdr) (q : ReqId) (g : Galley) (new : Nat) (s : State) : State :=
  let s := galleyUpd q (setOwner new) s
  let s := if new % 4096 = (myDev s).toNat then pausedHere q s else s
  mirrorSend g [.ownerFwd (moverHdr s (partnerOr s) 0xD q) q (BitVec.ofNat 64 new)] (.answer h .ok (leBytes 8 (ownerWord g))) s

/-- The checks of an exchange in order (10 R280). -/
theorem ownerCasAt_some (hg : galleyOf u q = some g) (cmp new : Nat) : ownerCasAt h q cmp new u =
    if g.serving ≠ mySlot u then homeFinish h .retryLater (leBytes 8 (ownerWord g)) u
    else if srcDev h ≠ g.owner.toNat ∧ !excluded u g.owner.toNat then homeFinish h .denied (leBytes 8 (ownerWord g)) u
    else if ownerWord g ≠ cmp then homeFinish h .denied (leBytes 8 (ownerWord g)) u
    else wordSet h q g new u := by
  unfold ownerCasAt
  rw [hg]
  rfl

section
variable {cmp w : DWord} (hg : galleyOf u q = some g) (hr : ∀ r, recLive u q = some r → ownerView r = false ∨ r.state ≠ 5)
include hg hr

theorem homeRun_cas_elsewhere (hs : g.serving ≠ mySlot u) :
    homeRun (.ownerCas h q cmp w) u = homeFinish h .retryLater (leBytes 8 (ownerWord g)) u :=
  homeRun_cas_finish hr ((ownerCasAt_some hg ..).trans (if_pos hs))

theorem homeRun_cas_other (hs : g.serving = mySlot u) (ho : srcDev h ≠ g.owner.toNat) (hx : excluded u g.owner.toNat = false) :
    homeRun (.ownerCas h q cmp w) u = homeFinish h .denied (leBytes 8 (ownerWord g)) u :=
  homeRun_cas_finish hr ((ownerCasAt_some hg ..).trans ((if_neg (not_not_intro hs)).trans (if_pos ⟨ho, by rw [hx]; rfl⟩)))

variable (hs : g.serving = mySlot u) (ho : srcDev h = g.owner.toNat ∨ excluded u g.owner.toNat = true)
include hs ho

omit hr in
/-- An exchange of the owner, or in place of an excluded one, at the serving member. -/
theorem ownerCasAt_mine (cmp new : Nat) : ownerCasAt h q cmp new u =
    if ownerWord g ≠ cmp then homeFinish h .denied (leBytes 8 (ownerWord g)) u else wordSet h q g new u := by
  have hmay : ¬ (srcDev h ≠ g.owner.toNat ∧ (!excluded u g.owner.toNat) = true) := by
    rintro ⟨h1, h2⟩
    rcases ho with h | h
    · exact h1 h
    · simp [h] at h2
  rw [ownerCasAt_some hg, if_neg (not_not_intro hs), if_neg hmay]

theorem homeRun_cas_differs (hw : ownerWord g ≠ cmp.toNat) :
    homeRun (.ownerCas h q cmp w) u = homeFinish h .denied (leBytes 8 (ownerWord g)) u :=
  homeRun_cas_finish hr ((ownerCasAt_mine hg hs ho ..).trans (if_pos hw))

/-- An exchange that names no pause here sets the word, and is answered as its mirrored write is (09 R244). -/
theorem homeRun_cas_sets (hw : ownerWord g = cmp.toNat) (hme : w.toNat % 4096 ≠ (myDev u).toNat) :
    ∃ rs : List TrayReq, homeRun (.ownerCas h q cmp w) u
      = mirrorSend g rs (.answer h .ok (leBytes 8 (ownerWord g))) (galleyUpd q (setOwner w.toNat) u) := by
  obtain ⟨rs, he⟩ : ∃ rs : List TrayReq, ownerCasAt h q cmp.toNat w.toNat u
      = mirrorSend g rs (.answer h .ok (leBytes 8 (ownerWord g))) (galleyUpd q (setOwner w.toNat) u) := by
    refine ⟨[.ownerFwd (moverHdr (galleyUpd q (setOwner w.toNat) u) (partnerOr (galleyUpd q (setOwner w.toNat) u)) 0xD q) q
      (BitVec.ofNat 64 w.toNat)], ?_⟩
    have hme' : ¬ w.toNat % 4096 = (myDev (galleyUpd q (setOwner w.toNat) u)).toNat := hme
    rw [ownerCasAt_mine hg hs ho, if_neg (not_not_intro hw)]
    exact congrArg (fun s => mirrorSend g [.ownerFwd (moverHdr s (partnerOr s) 0xD q) q (BitVec.ofNat 64 w.toNat)]
      (.answer h .ok (leBytes 8 (ownerWord g))) s) (if_neg hme')
  refine ⟨rs, ?_⟩
  show pausedEnds q (ownerCasAt h q cmp.toNat w.toNat u) = _
  rw [he]
  have hk := mirrorSend_answer_changes (h := h) (g := g) (u := galleyUpd q (setOwner w.toNat) u) rs .ok (leBytes 8 (ownerWord g))
  have hrecs := congrArg Req.recs (hk .req rfl :)
  exact pausedEnds_idle fun r hrec => hr r ((recLive_congr hrecs q).symm.trans hrec)

end

/-- R276 passes the exchange of a header with its own TYPE only. -/
theorem hdrType_of_r276 {r : TrayReq} (hok : r276 u r = .ok) : (reqHdr r).type = reqType r := by
  have hmal : malformed u r = false := by
    by_contra hm
    unfold r276 at hok
    simp only [Bool.not_eq_false] at hm
    simp [hm] at hok
  have hhdr : hdrOk u r = true := by
    simp only [malformed, Bool.not_eq_false', Bool.and_eq_true] at hmal
    exact hmal.1.1.1
  simp only [hdrOk, Bool.and_eq_true, beq_iff_eq] at hhdr
  exact hhdr.1.2

end

section
variable {h : TrayHdr} {q : ReqId} {g : Galley} {s t u : State}

/-! ### SEAL_DIGEST (08 R216) -/

/-- The state with the partner's digest of a page kept. -/
def digestKept (q : ReqId) (l p : Nat) (d : Digest) (s : State) : State := pageUpd q 0 l p (fun x => { x with partner := some d }) s

theorem homeRun_seal (l : BitVec 16) (p : Word) (d : Digest) (rv : Nat) (hp : fromPartner u h = true) (hg : galleyOf u q = some g) :
    homeRun (.sealDigest h q l p d rv) u
      = homeFinish h .ok [] (copyCheck q (compareSeal q l.toNat p.toNat (digestKept q l.toNat p.toNat d u))) :=
  (if_neg (by simp [hp])).trans (if_neg (by simp [hg]))

/-- A page that is not sealed yet is compared with nothing (08 R216). -/
theorem compareSeal_unsealed {l p : Nat} (hg : galleyOf s q = some g) (h2 : (pageOf g 0 l p).state ≠ 2) : compareSeal q l p s = s := by
  unfold compareSeal
  rw [hg]
  dsimp only
  split
  · rfl
  · rw [if_pos (by rw [Bool.or_eq_true]; exact .inl (decide_eq_true h2))]

section
variable {l p : Nat} (hg : galleyOf u q = some g) (hsrc : g.source = none)
include hg hsrc

/-- An equal digest makes a sealed page MIRRORED, unless the pair is DEGRADED (08 R216, 09 R245). -/
theorem digestKept_equal (h2 : (pageOf g 0 l p).state = 2) (h3 : u.pair.state ≠ 3) :
    let t := copyCheck q (compareSeal q l p (digestKept q l p (pageOf g 0 l p).sealDigest u))
    OnlyChanges [.req] u t ∧ ∃ g' : Galley, galleyOf t q = some g' ∧ (pageOf g' 0 l p).state = 3 := by
  have hkept : galleyOf (digestKept q l p (pageOf g 0 l p).sealDigest u) q = some (pageSet 0 l p _ g) := galleyOf_pageUpd hg ..
  have hset := compareSeal_equal hkept (by rw [pageOf_pageSet_same]; exact h2) h3 (by rw [pageOf_pageSet_same])
  have hnow := galleyOf_pageUpd hkept 0 l p (fun x => { x with state := 3 })
  have hown := copyCheck_own hnow ((pageSet_source ..).trans ((pageSet_source ..).trans hsrc))
  dsimp only
  rw [hset, hown]
  exact ⟨pageUpd_changes rfl (pageUpd_changes rfl (.refl _ u)), _, hnow, by rw [pageOf_pageSet_same]⟩

/-- The digest of a page that is not sealed yet is kept (08 R216). -/
theorem digestKept_early (d : Digest) (h2 : (pageOf g 0 l p).state ≠ 2) :
    let t := copyCheck q (compareSeal q l p (digestKept q l p d u))
    OnlyChanges [.req] u t ∧ ∃ g' : Galley, galleyOf t q = some g' ∧ pageOf g' 0 l p = { pageOf g 0 l p with partner := some d } := by
  have hkept : galleyOf (digestKept q l p d u) q = some (pageSet 0 l p _ g) := galleyOf_pageUpd hg ..
  have hsame := compareSeal_unsealed hkept (l := l) (p := p) (by rw [pageOf_pageSet_same]; exact h2)
  have hown := copyCheck_own hkept ((pageSet_source ..).trans hsrc)
  dsimp only
  rw [hsame, hown]
  exact ⟨pageUpd_changes rfl (.refl _ u), _, hkept, by rw [pageOf_pageSet_same]⟩

end

/-! ### OWNER_FWD (08 R222) -/

theorem homeRun_fwd (w : DWord) (hp : fromPartner u h = true) (hg : galleyOf u q = some g) :
    homeRun (.ownerFwd h q w) u = homeFinish h .ok [] (wordFollows q w.toNat u) :=
  (if_neg (by simp [hp])).trans (if_neg (by simp [hg]))

section
variable (hg : galleyOf u q = some g) (w : Nat)
include hg

theorem galleyOf_setOwner : galleyOf (galleyUpd q (setOwner w) u) q = some (setOwner w g) := by
  rw [galleyOf_galleyUpd_same, hg]; rfl

/-- Without a live record only the word follows. -/
theorem wordFollows_unrecorded (hr : recLive u q = none) : wordFollows q w u = galleyUpd q (setOwner w) u := by
  have hr' : recLive (galleyUpd q (setOwner w) u) q = none := hr
  unfold wordFollows
  simp only [galleyOf_setOwner hg, hr']

/-- What the galley and the record say once the word has reached the partner: PAUSED where the word names a member, as it runs
where it leaves one (08 R218, R231, R232). -/
theorem wordFollows_live {r : Rec} (hr : recLive u q = some r) :
    ∃ (g' : Galley) (y : Rec), galleyOf (wordFollows q w u) q = some g' ∧ recFind (wordFollows q w u) q = some y
      ∧ g'.owner = BitVec.ofNat 12 w ∧ g'.count = w / 65536 % 2 ^ 32 ∧ g'.layer = g.layer ∧ y.owner = BitVec.ofNat 12 w
      ∧ ((∃ d ∈ memberSlots r, devOfSlot u d = BitVec.ofNat 12 w) → r.state ≠ 7 → y.state = 5 ∧ g'.pausedAt = some u.tb)
      ∧ (¬ (∃ d ∈ memberSlots r, devOfSlot u d = BitVec.ofNat 12 w) → r.state = 5 ∨ r.state = 6 →
        y.state = (if r.promptLen ≤ r.commitLen then 4 else 2) ∧ g'.pausedAt = none) := by
  obtain ⟨h0, -⟩ := state_of_recLive hr
  have hid := reqId_of_recLive hr
  have hfind : recFind u q = some r := (recLive_eq_some.1 hr).1
  have hr' : recLive (galleyUpd q (setOwner w) u) q = some r := hr
  have hgal (f : Galley → Galley) (k : Rec → Rec) :
      galleyOf (recUpd q k (galleyUpd q f (galleyUpd q (setOwner w) u))) q = some (f (setOwner w g)) := by
    rw [galleyOf_recUpd, galleyOf_galleyUpd_same, galleyOf_setOwner hg]; rfl
  have hrec (v : State) (hv : v.req.recs = u.req.recs) {k : Rec → Rec} (hk : (k r).reqId = r.reqId) (hk0 : (k r).state ≠ 0) :
      recFind (recUpd q k v) q = some (k r) := recFind_recUpd ((recFind_congr hv q).trans hfind) (hk.trans hid) hk0
  have hmember : (memberSlots r).any (fun d => devOfSlot u d == BitVec.ofNat 12 w) = true
      ↔ ∃ d ∈ memberSlots r, devOfSlot u d = BitVec.ofNat 12 w := by
    simp only [List.any_eq_true, beq_iff_eq]
  have hdev : (memberSlots r).any (fun d => devOfSlot (galleyUpd q (setOwner w) u) d == (setOwner w g).owner)
      = (memberSlots r).any (fun d => devOfSlot u d == BitVec.ofNat 12 w) := rfl
  unfold wordFollows
  simp only [galleyOf_setOwner hg, hr', hdev]
  rw [← hmember]
  generalize (memberSlots r).any (fun d => devOfSlot u d == BitVec.ofNat 12 w) = member
  split
  · next hc =>
    obtain ⟨rfl, h7⟩ : member = true ∧ r.state ≠ 7 := by simpa using hc
    have hy (v : State) (hv : v.req.recs = u.req.recs) :=
      hrec (k := fun r => { r with state := 5, owner := BitVec.ofNat 12 w, flags := r.flags &&& 0xF7 }) v hv rfl (show (5 : BitVec 4) ≠ 0 by decide)
    exact ⟨_, _, hgal _ _, hy _ rfl, rfl, rfl, rfl, rfl, fun _ _ => ⟨rfl, rfl⟩, fun hno => absurd rfl hno⟩
  · next hc =>
    split
    · next hd =>
      obtain ⟨rfl, -⟩ : member = false ∧ (r.state = 5 ∨ r.state = 6) := by simpa using hd
      have hst : (if r.promptLen ≤ r.commitLen then 4 else 2 : BitVec 4) ≠ 0 := by split <;> decide
      have hy (v : State) (hv : v.req.recs = u.req.recs) :=
        hrec (k := fun r' => { r' with state := if r.promptLen ≤ r.commitLen then 4 else 2, owner := BitVec.ofNat 12 w }) v hv rfl hst
      exact ⟨_, _, hgal _ _, hy _ rfl, rfl, rfl, rfl, rfl, fun hm => absurd hm (by decide), fun _ _ => ⟨rfl, rfl⟩⟩
    · next hd =>
      have hy := hrec (k := fun r => { r with owner := BitVec.ofNat 12 w }) (galleyUpd q (setOwner w) u) rfl rfl h0
      refine ⟨_, _, (galleyOf_recUpd ..).trans (galleyOf_setOwner hg w), hy, rfl, rfl, rfl, rfl, fun hm h7 => ?_, fun hm hst => ?_⟩
      · rw [hm, Bool.true_and, bne_iff_ne] at hc
        exact absurd h7 hc
      · exact absurd (by simpa [hm] using hst) hd

end

/-! ### DROP (08 R230) -/

theorem recRetire_kept (c : Status) : (recRetire q c s).req.galleys = s.req.galleys ∧ (recRetire q c s).req.drops = s.req.drops := by
  unfold recRetire
  split
  · exact ⟨rfl, rfl⟩
  · split <;> exact ⟨rfl, rfl⟩

/-- The record of a request that a member drops becomes RETIRED, unless this device is its owner or its anchor. -/
def dropRetires (q : ReqId) (r : Option Rec) (s : State) : State :=
  match r with
  | some r => if (r.view &&& 3) == 0 then recRetire q ((statusOf r.status).getD .ok) s else s
  | none => s

theorem dropRetires_only (r : Option Rec) : OnlyChanges [.req] s (dropRetires q r s) := by
  cases r with
  | none => exact .refl _ s
  | some r => exact changes_ite (fun _ => recRetire_changes rfl (.refl _ s)) (fun _ => .refl _ s)

theorem dropRetires_kept (r : Option Rec) :
    (dropRetires q r s).req.galleys = s.req.galleys ∧ (dropRetires q r s).req.drops = s.req.drops := by
  cases r with
  | none => exact ⟨rfl, rfl⟩
  | some r =>
    show (ite _ _ s : State).req.galleys = _ ∧ (ite _ _ s : State).req.drops = _
    split
    · exact recRetire_kept _
    · exact ⟨rfl, rfl⟩

theorem Taken.dropCopy (k : Taken h s u) (h' : TrayHdr) : Taken h s (dropCopy g h' u) := by
  have hj (j : List JournalItem) : Taken h s (journal j u) := k.of_only (Q := [.pair]) rfl rfl (journal_changes rfl (.refl _ u))
  unfold Machine.dropCopy
  split
  · dsimp only
    split
    · exact hj _
    · exact (hj _).trayIssue ..
  · exact k

theorem homeRun_drop (hg : galleyOf u q = some g) (hm : fromPartner u h = true ∨ srcDev h = g.owner.toNat) :
    homeRun (.drop h q) u = homeFinish h .ok [] (dropRetires q (recLive u q) (dropCopy g h (freeGalley q u))) := by
  have hmine : (fromPartner u h || srcDev h == g.owner.toNat) = true := by simpa using hm
  show dropAt h q u = _
  simp only [dropAt, hg, hmine, Bool.not_true, Bool.false_eq_true, if_false]
  rfl

/-- A member that drops a galley has it no more, and counts the drop. -/
theorem dropRetires_dropped (r : Option Rec) (hg : galleyOf u q = some g) :
    let t := dropRetires q r (dropCopy g h (freeGalley q u))
    galleyOf t q = none ∧ t.req.drops = satInc u.req.drops := by
  have hfreed := freeGalley_freed hg
  have hreq : (dropCopy g h (freeGalley q u)).req = (freeGalley q u).req := dropCopy_changes (Q := [.pair, .near, .links]) rfl (.refl _ _) .req rfl
  obtain ⟨hgal, hdrops⟩ := dropRetires_kept (q := q) (s := dropCopy g h (freeGalley q u)) r
  exact ⟨(galleyOf_congr (hgal.trans (congrArg Req.galleys hreq)) q).trans hfreed.none,
    hdrops.trans ((congrArg Req.drops hreq).trans hfreed.drops)⟩

theorem homeRun_drop_unknown (hg : galleyOf u q = none) (hr : recLive u q = none) :
    homeRun (.drop h q) u = homeFinish h (if (recFind u q).isSome then .ok else .stateLost) [] u := by
  show dropAt h q u = _
  simp only [dropAt, hg, hr]

/-! ### RECORD and MAP_WRITE (08 R207, R211; 09 R248) -/

theorem ownerJournal_absent (r : TrayReq) (hg : galleyOf u q = none) : ownerJournal q r u = u := by
  unfold ownerJournal; simp [hg]

theorem homeRun_record_unknown (r : RecordUpdate) (hg : galleyOf u q = none) (hr : recLive u q = none) :
    homeRun (.record h q r) u = homeFinish h .stateLost [] u := by
  show recordAt h q r (ownerJournal q _ u) = _
  rw [ownerJournal_absent _ hg]
  simp only [recordAt, hg, hr]

section
variable (hg : galleyOf u q = some g)
include hg

theorem homeRun_record (r : RecordUpdate) (hm : fromPartner u h = true ∨ srcDev h = g.owner.toNat) :
    homeRun (.record h q r) u = homeFinish h .ok [] (memberRecord q r (ownerJournal q (.record h q r) u)) := by
  have hmine : (fromPartner u h || srcDev h == g.owner.toNat) = true := by simpa using hm
  show recordAt h q r (ownerJournal q _ u) = _
  simp only [recordAt, galleyOf_ownerJournal hg, fromPartner_ownerJournal, hmine, if_true]

/-- The owner's record that reaches a member becomes the map's copy, and no page changes. -/
theorem memberRecord_galley (r : RecordUpdate) :
    ∃ g' : Galley, galleyOf (memberRecord q r u) q = some g' ∧ g'.rec_ = applyUpdate r g.rec_ ∧ g'.layer = g.layer := by
  have hupd (f : Galley → Galley) (k : Rec → Rec) : galleyOf (recUpd q k (galleyUpd q f u)) q = some (f g) := by
    rw [galleyOf_recUpd, galleyOf_galleyUpd_same, hg]; rfl
  have hverify {v : State} {x : Galley} (hv : galleyOf v q = some x) :
      ∃ y : Galley, galleyOf (verifyGalley q v) q = some y ∧ y.rec_ = x.rec_ ∧ y.layer = x.layer := by
    unfold verifyGalley
    split
    · exact ⟨x, hv, rfl, rfl⟩
    · exact ⟨_, (galleyOf_galleyUpd_same ..).trans (congrArg _ hv), rfl, rfl⟩
  unfold memberRecord
  rw [hg]
  dsimp only
  split
  · obtain ⟨y, hy, hr, hl⟩ := hverify ((galleyOf_galleyUpd_same q
        (fun g => { g with copied := true, mirrored := g.mirrored || r.released }) _).trans
      (congrArg _ (hupd (fun g => { g with rec_ := applyUpdate r g.rec_ }) (fun x => memberView (mySlot u) g.serving (followUpdate r x)))))
    exact ⟨y, hy, hr, hl⟩
  · exact ⟨_, hupd .., rfl, rfl⟩

/-- A MAP_WRITE of a galley's partner or owner that asks for no reservation is written into the map. -/
theorem homeRun_mapWrite (off : Word) (bs : List Byte) (hm : fromPartner u h = true ∨ srcDev h = g.owner.toNat)
    (hres : ¬ (fromPartner u h = true ∧ off.toNat = 0xC0 ∧ bs.length = 4)) :
    homeRun (.mapWrite h q off bs) u = homeFinish h .ok [] (spareMap q off.toNat bs (ownerJournal q (.mapWrite h q off bs) u)) := by
  have hmine : (fromPartner u h || srcDev h == g.owner.toNat) = true := by simpa using hm
  have hno : ¬ (fromPartner u h && off.toNat == 0xC0 && bs.length == 4) = true := by simpa [and_assoc] using hres
  show mapWriteAt h q off.toNat bs (ownerJournal q _ u) = _
  unfold mapWriteAt
  rw [galleyOf_ownerJournal hg]
  dsimp only
  rw [fromPartner_ownerJournal, if_neg hno, if_pos hmine]

end

/-! ### CKPT (09 R251) -/

section
variable (hp : fromPartner u h = true) (n : Word) (cur : ReqId) (pg : Word)
include hp

theorem homeRun_ckpt_denied (h6 : u.pair.state ≠ 6) : homeRun (.ckpt h n cur pg) u = homeFinish h .denied [] u :=
  (if_pos hp).trans (if_pos h6)

theorem homeRun_ckpt_waits (h6 : u.pair.state = 6) (hv : spareVerified u = false) :
    homeRun (.ckpt h n cur pg) u = { u with pair := { u.pair with ckptWait := some (h, n.toNat, cur.toNat, pg.toNat) } } :=
  (if_pos hp).trans ((if_neg (not_not_intro h6)).trans (if_neg (Bool.eq_false_iff.1 hv)))

theorem homeRun_ckpt_stores (h6 : u.pair.state = 6) (hv : spareVerified u = true) (hcur : cur.toNat ≠ 2 ^ 64 - 1) :
    homeRun (.ckpt h n cur pg) u = homeFinish h .ok []
      { u with pair := { u.pair with stored := some (n.toNat, cur.toNat, pg.toNat), ckptWait := none, untrusted := false } } :=
  (if_pos hp).trans ((if_neg (not_not_intro h6)).trans ((if_pos hv).trans (if_neg hcur)))

end

/-! ### SILVER_SETUP (09 R247) -/

theorem homeRun_setup (qs : List QuotaCopy) (ls : List LatentSlotCopy) (hp : fromPartner u h = true) (hst : u.pair.state = 4 ∨ u.pair.state = 6) :
    homeRun (.silverSetup h qs ls) u = homeFinish h .ok [] (silverSetup qs ls u) :=
  if_pos (by simpa [hp] using hst)

/-- A table that grows by other keys keeps an entry. -/
theorem Tab.find_foldl_put_other {V A : Type} (k : Nat) (key : A → Nat) (val : A → V) (l : List A) (t : Tab V) (hk : ∀ x ∈ l, key x ≠ k) :
    Tab.find (l.foldl (fun t x => Tab.put t (key x) (val x)) t) k = Tab.find t k := by
  induction l generalizing t with
  | nil => rfl
  | cons a l ih =>
    rw [List.foldl_cons, ih _ fun x hx => hk x (List.mem_cons_of_mem _ hx)]
    exact Tab.find_put_other _ _ _ _ (Ne.symm (hk a List.mem_cons_self))

/-- The spare is SILVER_DST, and has the quotas that came and no other. -/
theorem silverSetup_sets (qs : List QuotaCopy) (ls : List LatentSlotCopy) :
    (silverSetup qs ls u).pair = { u.pair with state := 6, silverDone := 0 }
      ∧ ∀ k : Nat, (∀ x ∈ qs, x.tenant.toNat ≠ k) → Tab.find (silverSetup qs ls u).tier.quotas k = none := by
  unfold silverSetup
  dsimp only
  generalize hv : ({ u with tier := _, pair := _ } : State) = v
  have hk : OnlyChanges [.codec] v (ls.foldl (fun s l => { s with codec := { s.codec with
      slots := Tab.upd s.codec.slots (slotKey l.part.toNat l.table.toNat l.slot) {}
        (fun x => { x with valid := l.valid, version := l.version, format := l.format, lengths := l.lengths })
      active := if l.active then Tab.put s.codec.active l.part.toNat l.slot else s.codec.active } }) v) :=
    foldl_changes (.refl _ v) fun w _ k => k.trans fun p hp => by
      cases p with
      | codec => simp at hp
      | _ => rfl
  refine ⟨(hk .pair rfl).trans (by rw [← hv]), fun k hq => ?_⟩
  refine (congrArg (fun x : Tier => Tab.find x.quotas k) (hk .tier rfl)).trans ?_
  rw [← hv]
  exact Tab.find_foldl_put_other k _ _ qs [] hq

/-! ### PAGE (09 R250) -/

/-- A part that is not the last is stored with the page. -/
theorem pageArrive_part {p : PagePart} (hg : galleyOf u p.req = some g) (hl : p.lastPart = false) :
    pageArrive p u = (.ok, pageUpd p.req p.kind.toNat p.layer.toNat p.lpage.toNat
      (fun x => { x with parts := (x.parts.filter (fun y => y.1 != p.partNo)) ++ [(p.partNo, p.bytes)] }) u) := by
  simp [pageArrive, hg, hl]

theorem copyCheck_galley (hg : galleyOf u q = some g) : ∃ x : Option DevId, galleyOf (copyCheck q u) q = some { g with source := x } := by
  unfold copyCheck
  rw [hg]
  dsimp only
  split
  · exact ⟨g.source, hg⟩
  · split
    · refine ⟨none, ?_⟩
      rw [galleyOf_sendFw, galleyOf_galleyUpd_same, hg]
      rfl
    · exact ⟨g.source, hg⟩

theorem pageOf_source (g : Galley) (x : Option DevId) (k l p : Nat) : pageOf { g with source := x } k l p = pageOf g k l p := rfl

/-- The partner's part of a page is answered once it stands, where no checkpoint waits for it. -/
theorem homeRun_page {p : PagePart} (hg : galleyOf u p.req = some g) (hw : u.pair.ckptWait = none) (hp : fromPartner u h = true)
    (hl : p.lastPart = false) : ∃ v : State, homeRun (.page h p) u = homeFinish h .ok [] v ∧ OnlyChanges [.req, .rma, .links, .out] u v
      ∧ ∃ g' : Galley, galleyOf v p.req = some g' ∧ (p.partNo, p.bytes) ∈ (pageOf g' p.kind.toNat p.layer.toNat p.lpage.toNat).parts := by
  have harrive := pageArrive_part hg hl
  have hset := galleyOf_pageUpd hg p.kind.toNat p.layer.toNat p.lpage.toNat
    (fun x => { x with parts := (x.parts.filter (fun y => y.1 != p.partNo)) ++ [(p.partNo, p.bytes)] })
  generalize hv : pageUpd p.req p.kind.toNat p.layer.toNat p.lpage.toNat _ u = v at harrive hset
  have hk : OnlyChanges [.req, .rma, .links, .out] u (copyCheck p.req v) :=
    copyCheck_changes rfl (hv ▸ pageUpd_changes rfl (.refl _ u))
  refine ⟨copyCheck p.req v, ?_, hk, ?_⟩
  · have hpartner : (partnerDev u).any (fun d => d.toNat == h.src.toNat % 4096) = true := hp
    have hpair : (homeFinish h .ok [] (copyCheck p.req v)).pair = u.pair := 
      (homeFinish_changes (Q := [.near, .links]) rfl (.refl _ _) .pair rfl).trans (hk .pair rfl)
    show pageAt h p (ownerJournal p.req _ u) = _
    rw [ownerJournal_partner hp]
    unfold pageAt
    simp [hg, hpartner, harrive, hpair, hw]
  · obtain ⟨x, hx⟩ := copyCheck_galley hset
    refine ⟨_, hx, ?_⟩
    rw [pageOf_source, pageOf_pageSet_same]
    simp

end

/-! ### A failed read leaves the device its identity (07 R184, R189) -/

section
variable {s t u : State}

theorem myDev_only {Q : List Block} (hq : Q.contains .dev = false) (ho : OnlyChanges Q s t) : myDev t = myDev s :=
  myDev_congr (ho .dev hq)

theorem myDev_noteErr (b i off : Nat) : myDev (noteErr b i off s) = myDev s := by
  unfold myDev; rw [noteErr_ident]

theorem myDev_frameRetired (f : Nat) : myDev (frameRetired f s) = myDev s := by
  unfold frameRetired
  split
  · rfl
  · exact (myDev_only (Q := [.maint]) rfl (addRepair_changes rfl (.refl _ _))).trans (myDev_noteErr ..)

theorem myDev_plateLost (r : PlateRef) : myDev (plateLost r s) = myDev s := myDev_only (Q := [.forme, .pair]) rfl (plateLost_changes rfl (.refl _ s))

theorem myDev_retireFrame (f : Nat) : myDev (retireFrame f s) = myDev s := by
  refine Eq.trans ?_ (myDev_frameRetired f)
  unfold retireFrame
  dsimp only
  split
  · rfl
  · split
    · exact myDev_only (Q := [.codec, .tier, .req, .rma, .links, .out]) rfl (reportEnd_changes rfl (emptyPage_changes rfl (.refl _ _)))
    · split
      · exact myDev_plateLost _
      · rfl

theorem myDev_granuleLost (mac : Bool) (a : Nat) : myDev (granuleLost mac a s) = myDev s := by
  have hlpc (c : Nat) (f : Lpc → Lpc) : myDev (lpcUpd c f s) = myDev s := myDev_only (Q := [.tier]) rfl (lpcUpd_changes rfl (.refl _ s))
  have hfail : myDev (granuleFail mac a s) = myDev s := by
    unfold granuleFail
    dsimp only
    split <;> exact (myDev_noteErr ..).trans (hlpc ..)
  exact (myDev_retireFrame _).trans ((myDev_only (Q := [.tier]) rfl (markLost_changes rfl (.refl _ _))).trans hfail)

theorem myDev_slugLost (crc : Bool) (pl : Place) : myDev (slugLost crc pl s) = myDev s := by
  have hfail : myDev (slugFailure crc s) = myDev s := by
    unfold slugFailure
    split <;> exact myDev_noteErr ..
  refine Eq.trans ?_ hfail
  unfold slugLost
  dsimp only
  split
  · rfl
  · split
    · exact myDev_plateLost _
    · rfl
  · split
    · exact myDev_retireFrame _
    · split
      · exact myDev_plateLost _
      · rfl

theorem myDev_sliceLineFail (r off : Nat) : myDev (sliceLineFail r off s).2 = myDev s := by
  unfold sliceLineFail
  split
  · rfl
  · split
    · split
      · rfl
      · dsimp only
        split
        · exact (myDev_retireFrame _).trans (myDev_only (Q := [.tier]) rfl (markLost_changes rfl (tier_only rfl s _)))
        · rfl
    · split
      · dsimp only
        split
        · exact myDev_plateLost _
        · rfl
      · exact myDev_only (Q := [.maint, .tier]) rfl (addRepair_changes rfl (tier_only rfl s _))

theorem myDev_readOutcome (o : ReadOutcome) : myDev (readOutcome o s).2 = myDev s := by
  cases o with
  | good => rfl
  | corrected ch => exact myDev_only (Q := [.tier]) rfl (lpcUpd_changes rfl (.refl _ s))
  | uncorrectable a =>
    unfold readOutcome
    dsimp only
    split
    · exact myDev_granuleLost ..
    · rfl
  | macFail a =>
    unfold readOutcome
    dsimp only
    split
    · exact myDev_granuleLost ..
    · rfl
  | sliceLine r off => exact myDev_sliceLineFail ..
  | slug crc a => exact myDev_slugLost ..
  | clusterEcc c => rfl

/-- A home that has taken a request has taken it after its reads as well. -/
theorem Taken.spansRead {h : TrayHdr} (k : Taken h s u) (spans : List (Nat × Nat)) (o : ReadOutcome) : Taken h s (spansRead spans o u).2 := by
  refine k.congr ((myDev_readOutcome _).trans (myDev_only (Q := [.tier]) rfl (countGranules_changes rfl (.refl _ u)))) (congrArg Near.src ?_)
  exact spansRead_changes (Q := [.dev, .maint, .forme, .codec, .tier, .req, .pair, .rma, .links, .out]) rfl (.refl _ u) .near rfl

end

/-! ### COMMIT (08 R215) -/

section
variable {h : TrayHdr} {q : ReqId} {g x : Galley} {n : Nat} {st : Word} {r : RecordUpdate} {o : ReadOutcome} {s t u : State}

theorem setCommit_same (l n : Nat) (g : Galley) : (layerOf (setCommit l n g) l).commit = n := by
  simp [setCommit, layerOf]

theorem setCommit_other {l j : Nat} (n : Nat) (g : Galley) (h : j ≠ l) : layerOf (setCommit l n g) j = layerOf g j := by
  simp only [setCommit, layerOf, Tab.getD_upd_other _ _ _ _ _ h]

/-- Every layer of a list has the committed length once it is set there. -/
theorem foldl_setCommit (n f : Nat) (ls : List Nat) (g : Galley) (l : Nat) (hl : l ∈ ls.map (f + ·) ∨ (layerOf g l).commit = n) :
    (layerOf (ls.foldl (fun g i => setCommit (f + i) n g) g) l).commit = n := by
  induction ls generalizing g with
  | nil => simpa using hl
  | cons i ls ih =>
    refine ih _ ?_
    by_cases hi : l = f + i
    · exact .inr (hi ▸ setCommit_same ..)
    · rcases hl with hl | hl
      · exact .inl (by simpa [hi] using hl)
      · exact .inr (by rw [setCommit_other _ _ hi]; exact hl)

/-- The committed length in every layer of a galley, whose map takes the owner's record (08 R215 steps 3 and 4). -/
def committed (n : Nat) (r : RecordUpdate) (g : Galley) : Galley :=
  { (List.range g.layers).foldl (fun g i => setCommit (g.firstLayer + i) n g) g with rec_ := applyUpdate r g.rec_ }

theorem foldl_setCommit_first (n : Nat) (ls : List Nat) (g : Galley) :
    ls.foldl (fun g i => setCommit (g.firstLayer + i) n g) g = ls.foldl (fun x i => setCommit (g.firstLayer + i) n x) g := by
  have hgen (x : Galley) (hx : x.firstLayer = g.firstLayer) :
      ls.foldl (fun g i => setCommit (g.firstLayer + i) n g) x = ls.foldl (fun x i => setCommit (g.firstLayer + i) n x) x := by
    induction ls generalizing x with
    | nil => rfl
    | cons i ls ih =>
      rw [List.foldl_cons, List.foldl_cons, hx]
      exact ih _ hx
  exact hgen g rfl

theorem committed_commit (r : RecordUpdate) {i : Nat} (hi : i < g.layers) : (layerOf (committed n r g) (g.firstLayer + i)).commit = n := by
  show (layerOf ((List.range g.layers).foldl (fun g i => setCommit (g.firstLayer + i) n g) g) (g.firstLayer + i)).commit = n
  rw [foldl_setCommit_first]
  exact foldl_setCommit n g.firstLayer _ g _ (.inl (List.mem_map_of_mem (List.mem_range.2 hi)))

/-- The galley of a request has the layers and the record's copy of `x`, and the count of commits is `c`. -/
def RowsOf (q : ReqId) (x : Galley) (c : Word) (s : State) : Prop :=
  s.req.commits = c ∧ ∃ y : Galley, galleyOf s q = some y ∧ y.rec_ = x.rec_ ∧ y.layers = x.layers ∧ y.firstLayer = x.firstLayer

/-- A row that becomes WRITTEN leaves the galley its layers and its record. -/
theorem RowsOf.toWritten {c : Word} (k : RowsOf q x c s) (l pos : Nat) : RowsOf q x c (toWritten q l pos s) := by
  obtain ⟨hc, y, hy, hrec, hlay, hfirst⟩ := k
  have hreq (v : State) : (syncHeader q l (pos / 64) 0 v).req = v.req := syncHeader_changes (Q := [.tier]) rfl (.refl _ v) .req rfl
  unfold Machine.toWritten
  refine ⟨(congrArg Req.commits (hreq _)).trans hc, _, (galleyOf_syncHeader ..).trans (galleyOf_pageUpd hy ..), hrec, hlay, hfirst⟩

theorem RowsOf.foldl_toWritten {c : Word} (k : RowsOf q x c s) (ls : List (Nat × Nat)) :
    RowsOf q x c (ls.foldl (fun s x => Machine.toWritten q x.1 x.2 s) s) := by
  induction ls generalizing s with
  | nil => exact k
  | cons a ls ih => exact ih (k.toWritten ..)

/-- What a COMMIT does at the serving member before its mirrored writes go out. -/
def commitDone (q : ReqId) (n : Nat) (r : RecordUpdate) (g : Galley) (specs : List (Nat × Nat)) (s : State) : State :=
  let s := galleyUpd q (committed n r) (specs.foldl (fun s x => toWritten q x.1 x.2 s) s)
  let s := recUpd q (followUpdate r) ((List.range g.layers).foldl (fun s i => syncOpen q (g.firstLayer + i) s) s)
  { s with req := { s.req with commits := satInc s.req.commits } }

theorem commitDone_only (specs : List (Nat × Nat)) : OnlyChanges [.tier, .req] s (commitDone q n r g specs s) := by
  have hrows : OnlyChanges [.tier, .req] s (specs.foldl (fun s x => toWritten q x.1 x.2 s) s) :=
    foldl_changes (.refl _ s) fun _ _ k => syncHeader_changes rfl (pageUpd_changes rfl k)
  have hlayers : OnlyChanges [.tier, .req] s (recUpd q (followUpdate r) ((List.range g.layers).foldl (fun s i => syncOpen q (g.firstLayer + i) s)
      (galleyUpd q (committed n r) (specs.foldl (fun s x => toWritten q x.1 x.2 s) s)))) :=
    recUpd_changes rfl (foldl_changes (galleyUpd_changes rfl hrows) fun _ _ k => syncOpen_changes rfl k)
  exact hlayers.trans ((withReq_only _ _).wider rfl)

theorem commitDone_counts (specs : List (Nat × Nat)) (hg : galleyOf s q = some g) :
    (commitDone q n r g specs s).req.commits = satInc s.req.commits
      ∧ ∃ g' : Galley, galleyOf (commitDone q n r g specs s) q = some g' ∧ g'.rec_ = applyUpdate r g.rec_
        ∧ ∀ i : Nat, i < g.layers → (layerOf g' (g.firstLayer + i)).commit = n := by
  obtain ⟨hc, y, hy, hrec, hlay, hfirst⟩ := RowsOf.foldl_toWritten (q := q) (x := g) ⟨rfl, g, hg, rfl, rfl, rfl⟩ specs
  generalize hv : specs.foldl (fun s x => toWritten q x.1 x.2 s) s = v at hc hy
  generalize hw : (List.range g.layers).foldl (fun s i => syncOpen q (g.firstLayer + i) s) (galleyUpd q (committed n r) v) = w
  have hreq : w.req = (galleyUpd q (committed n r) v).req := by
    rw [← hw]
    exact foldl_changes (ps := [.tier]) (.refl _ _) (fun _ _ k => syncOpen_changes rfl k) .req rfl
  have hupd (f : Rec → Rec) : (recUpd q f w).req.commits = w.req.commits := by unfold recUpd; split <;> rfl
  have he : commitDone q n r g specs s
      = { recUpd q (followUpdate r) w with req := { (recUpd q (followUpdate r) w).req with
          commits := satInc (recUpd q (followUpdate r) w).req.commits } } := by
    rw [← hw, ← hv]
    rfl
  have hgal : galleyOf (recUpd q (followUpdate r) w) q = some (committed n r y) := by
    rw [galleyOf_recUpd, galleyOf_congr (congrArg Req.galleys hreq), galleyOf_galleyUpd_same, hy]
    rfl
  rw [he]
  refine ⟨congrArg satInc ((hupd _).trans ((congrArg Req.commits hreq).trans hc)), committed n r y, hgal,
    congrArg (applyUpdate r) hrec, fun i hi => ?_⟩
  rw [← hfirst]
  exact committed_commit r (hlay ▸ hi)

/-- What a COMMIT does once its rows are there: it reads the speculative ones and converts them (08 R215 steps 2 to 5). -/
def commitRows (h : TrayHdr) (q : ReqId) (n : Nat) (r : RecordUpdate) (o : ReadOutcome) (g : Galley) (s : State) : State :=
  let specs := commitSpecs g g.rec_.commitLen n
  let (ok, t) := if specs.isEmpty then (true, s) else spansRead (specs.map (fun x => (rowAddr s g x.1 x.2, rowBytes s g.part.toNat))) o s
  if !ok then homeFinish h .integrity [] t else
    mirrorSend g (specs.map (fun x => copyRow t g (partnerOr t) x.1 x.2)
        ++ (List.range g.layers).map (fun i => mapWriteReq t (partnerOr t) q (0x100 + 32 * i) n)
        ++ [.record (moverHdr (commitDone q n r g specs t) (partnerOr t) 0xD q) q r])
      (.answer h .ok []) (commitDone q n r g specs t)

/-- The checks of a COMMIT in order (08 R215). -/
theorem commitAt_some (hg : galleyOf u q = some g) : commitAt h q n st r o u =
    if srcDev h ≠ g.owner.toNat then homeFinish h .denied [] u
    else if g.serving ≠ mySlot u then homeFinish h .retryLater [] u
    else if !commitReady g g.rec_.commitLen n st then homeFinish h .malformed [] u
    else commitRows h q n r o g u := by
  unfold commitAt
  rw [hg]
  rfl

/-- A speculative row that cannot be read ends the COMMIT (07 R184, R191). -/
theorem commitRows_unread (hne : commitSpecs g g.rec_.commitLen n ≠ [])
    (hread : spansRead ((commitSpecs g g.rec_.commitLen n).map (fun x => (rowAddr u g x.1 x.2, rowBytes u g.part.toNat))) o u = (false, t)) :
    commitRows h q n r o g u = homeFinish h .integrity [] t := by
  have hsome : (commitSpecs g g.rec_.commitLen n).isEmpty = false := by simpa using hne
  delta commitRows
  dsimp only
  rw [hsome, hread]
  rfl

/-- A COMMIT whose rows are read is done, and its copies and the record go to the partner (08 R215). -/
theorem commitRows_done (hread : (if (commitSpecs g g.rec_.commitLen n).isEmpty then (true, u)
      else spansRead ((commitSpecs g g.rec_.commitLen n).map (fun x => (rowAddr u g x.1 x.2, rowBytes u g.part.toNat))) o u) = (true, t)) :
    ∃ rs : List TrayReq, commitRows h q n r o g u
      = mirrorSend g rs (.answer h .ok []) (commitDone q n r g (commitSpecs g g.rec_.commitLen n) t) := by
  delta commitRows
  dsimp only
  rw [hread]
  exact ⟨_, rfl⟩

section
variable (hg : galleyOf u q = some g)
include hg

theorem commitAt_other (ho : srcDev h ≠ g.owner.toNat) : commitAt h q n st r o u = homeFinish h .denied [] u :=
  (commitAt_some hg).trans (if_pos ho)

variable (ho : srcDev h = g.owner.toNat)
include ho

theorem commitAt_elsewhere (hs : g.serving ≠ mySlot u) : commitAt h q n st r o u = homeFinish h .retryLater [] u := by
  rw [commitAt_some hg, if_neg (not_not_intro ho), if_pos hs]

variable (hs : g.serving = mySlot u)
include hs

theorem commitAt_absent (hr : commitReady g g.rec_.commitLen n st = false) : commitAt h q n st r o u = homeFinish h .malformed [] u := by
  rw [commitAt_some hg, if_neg (not_not_intro ho), if_neg (not_not_intro hs), hr]
  rfl

variable (hr : commitReady g g.rec_.commitLen n st = true)
include hr

theorem commitAt_rows : commitAt h q n st r o u = commitRows h q n r o g u := by
  rw [commitAt_some hg, if_neg (not_not_intro ho), if_neg (not_not_intro hs), hr]
  rfl

/-- After a COMMIT every layer has the committed length, and a member that writes no partner answers with one copy (08 R215, 09 R245). -/
theorem commitAt_leaves (hread : (if (commitSpecs g g.rec_.commitLen n).isEmpty then (true, u)
      else spansRead ((commitSpecs g g.rec_.commitLen n).map (fun x => (rowAddr u g x.1 x.2, rowBytes u g.part.toNat))) o u) = (true, t))
    (ht : OnlyChanges [.tier] u t) :
    (commitAt h q n st r o u).req.commits = satInc u.req.commits
      ∧ (∃ g' : Galley, galleyOf (commitAt h q n st r o u) q = some g' ∧ g'.rec_ = applyUpdate r g.rec_
        ∧ ∀ i : Nat, i < g.layers → (layerOf g' (g.firstLayer + i)).commit = n)
      ∧ (mirrors u g = false → h.type = 0x07 →
        ∃ x : State, OnlyChanges [.tier, .req, .pair] u x ∧ commitAt h q n st r o u = homeFinish h .degraded [] x) := by
  obtain ⟨rs, he⟩ := commitRows_done (h := h) (q := q) (r := r) hread
  rw [commitAt_rows hg ho hs hr]
  have hreq : t.req = u.req := ht .req rfl
  obtain ⟨hcount, g', hg', hrec, hlayers⟩ := commitDone_counts (n := n) (r := r) (commitSpecs g g.rec_.commitLen n)
    ((galleyOf_congr (congrArg Req.galleys hreq) q).trans hg)
  have hdone : OnlyChanges [.tier, .req] u (commitDone q n r g (commitSpecs g g.rec_.commitLen n) t) :=
    (ht.wider rfl).trans (commitDone_only _)
  generalize commitDone q n r g (commitSpecs g g.rec_.commitLen n) t = d at he hcount hg' hdone
  have hsend : (mirrorSend g rs (.answer h .ok []) d).req = d.req := mirrorSend_answer_changes rs .ok [] .req rfl
  rw [he]
  refine ⟨(congrArg Req.commits hsend).trans (hcount.trans (by rw [hreq])),
    ⟨g', (galleyOf_congr (congrArg Req.galleys hsend) q).trans hg', hrec, hlayers⟩, fun hm h7 => ?_⟩
  obtain ⟨x, hx, hone⟩ := mirrorSend_alone rs (.answer h .ok [])
    ((mirrors_congr (hdone .dev rfl) (hdone .forme rfl) (hdone .pair rfl) g).trans hm)
  rw [oneCopy_ok, h7] at hone
  exact ⟨x, (hdone.wider rfl).trans (hx.wider rfl), hone⟩

end

end

/-! ### The run of a request in turn -/

section
variable {h : TrayHdr} {q : ReqId} {m : Nat} {s u : State} {c : Status} {b : List Byte}

/-- A request that is answered in state `u` changes what `u` has changed, the record of its source and its link. -/
theorem answer_only {Q R : List Block} (hq : subParts Q R = true) (hn : subParts [.near, .links] R = true)
    (ho : OnlyChanges Q (heard h q m s) u) : OnlyChanges R s (homeFinish h c b u) := by
  have hnear : subParts [.near] R = true := subParts_trans (b := [.near, .links]) rfl hn
  exact homeFinish_changes hn (((heard_only h q m s).wider hnear).trans (ho.wider hq))

theorem galleyOf_homeFinish (p : ReqId) : galleyOf (homeFinish h c b u) p = galleyOf u p :=
  galleyOf_congr (congrArg Req.galleys (homeFinish_req ..)) p

theorem homeFinish_pair : (homeFinish h c b u).pair = u.pair := homeFinish_changes (Q := [.near, .links]) rfl (.refl _ u) .pair rfl

/-- A request in turn that passes R276 runs, and where its run ends in an answer, the answer is in its source's record. -/
theorem exec_runs {i : Instr} {r : TrayReq} (hi : moverReq i = some r) (hh : reqHdr r = h) (ht : InTurn (.drop h q) s)
    (hok : r276 (tookRequest (.drop h q) s) r = .ok) : ∃ m : Nat, exec i s = .next (homeRun r (heard h q m s))
      ∧ ∀ (c : Status) (b : List Byte) (u : State), homeRun r (heard h q m s) = homeFinish h c b u → Taken h s u →
        exec i s = .next (homeFinish h c b u) ∧ Answered r c b s (homeFinish h c b u) := by
  obtain ⟨m, hm⟩ := exec_moverReq hi hh ht
  have hrun := hm.trans (congrArg Host.Outcome.next (homeExecute_ok ((r276_heard r).trans hok)))
  exact ⟨m, hrun, fun c b u hu hk => ⟨hrun.trans (congrArg _ hu), hk.answered hh c b⟩⟩

/-- A request in turn whose run is an answer alone changes nothing else. -/
theorem exec_answers {i : Instr} {r : TrayReq} (hi : moverReq i = some r) (hh : reqHdr r = h) (ht : InTurn (.drop h q) s)
    (hok : r276 (tookRequest (.drop h q) s) r = .ok) (hr : ∀ m : Nat, homeRun r (heard h q m s) = homeFinish h c b (heard h q m s)) :
    ∃ t, exec i s = .next t ∧ Answered r c b s t ∧ OnlyChanges [.near, .links] s t := by
  obtain ⟨m, -, hans⟩ := exec_runs hi hh ht hok
  obtain ⟨he, ha⟩ := hans _ _ _ (hr m) (heard_taken ..)
  exact ⟨_, he, ha, answer_only rfl rfl (.refl [] _)⟩

/-- A request in turn that is refused is answered with the code, and changes nothing else. -/
theorem exec_refuses {i : Instr} {r : TrayReq} (hi : moverReq i = some r) (hh : reqHdr r = h) (ht : InTurn (.drop h q) s)
    (hbad : r276 (tookRequest (.drop h q) s) r ≠ .ok) :
    ∃ t, exec i s = .next t ∧ Answered r (r276 (tookRequest (.drop h q) s) r) [] s t ∧ OnlyChanges [.near, .links] s t := by
  obtain ⟨m, hm⟩ := exec_moverReq hi hh ht
  have hcode := r276_heard (h := h) (q := q) (n := m) (s := s) r
  rw [homeExecute_refused (hcode ▸ hbad), hcode, hh] at hm
  exact ⟨_, hm, (heard_taken h q m s).answered hh _ _, answer_only rfl rfl (.refl [] _)⟩

end

/-! ### A COMMIT and an exchange in turn -/

section
variable {h : TrayHdr} {q : ReqId} {s : State} (hturn : InTurn (.drop h q) s)
include hturn

theorem exec_commit {nl st : Word} {u : RecordUpdate} {o : ReadOutcome} (hok : r276 (tookRequest (.drop h q) s) (.commit h q nl st u o) = .ok) :
    exec (.commit h q nl st ⟨u, o⟩) s = .next (commitAt h q nl.toNat st u o (tookRequest (.drop h q) s)) :=
  congrArg Host.Outcome.next ((homeArrive_heard hturn rfl fun _ _ => rfl).trans (homeExecute_ok hok))

/-- A COMMIT in turn whose rows are there: what it leaves, and its answer where no partner is written (08 R215, 09 R245). -/
theorem exec_commit_leaves {nl st : Word} {u : RecordUpdate} {o : ReadOutcome} {g : Galley} {got : Bool} {a : State}
    (hok : r276 (tookRequest (.drop h q) s) (.commit h q nl st u o) = .ok) (hg : galleyOf s q = some g)
    (ho : srcDev h = g.owner.toNat) (hs : g.serving = mySlot s) (hr : commitReady g g.rec_.commitLen nl.toNat st = true)
    (hread : spansRead ((commitSpecs g g.rec_.commitLen nl.toNat).map (fun x => (rowAddr (tookRequest (.drop h q) s) g x.1 x.2,
      rowBytes (tookRequest (.drop h q) s) g.part.toNat))) o (tookRequest (.drop h q) s) = (got, a))
    (hrows : commitSpecs g g.rec_.commitLen nl.toNat = [] ∨ got = true) :
    ∃ t, exec (.commit h q nl st ⟨u, o⟩) s = .next t ∧ t.req.commits = satInc s.req.commits
      ∧ (∃ g' : Galley, galleyOf t q = some g' ∧ g'.rec_ = applyUpdate u g.rec_
        ∧ ∀ i : Nat, i < g.layers → (layerOf g' (g.firstLayer + i)).commit = nl.toNat)
      ∧ (mirrors s g = false → Answered (.commit h q nl st u o) .degraded [] s t) := by
  have htaken : Taken h s (tookRequest (.drop h q) s) := heard_taken h q s.near.atomicHw s
  obtain ⟨y, hy, htier⟩ : ∃ y : State,
      (if (commitSpecs g g.rec_.commitLen nl.toNat).isEmpty then (true, tookRequest (.drop h q) s) else (got, a)) = (true, y)
        ∧ OnlyChanges [.tier] (tookRequest (.drop h q) s) y := by
    by_cases hne : commitSpecs g g.rec_.commitLen nl.toNat = []
    · exact ⟨_, by rw [hne]; rfl, .refl _ _⟩
    · obtain rfl := hrows.resolve_left hne
      exact ⟨a, if_neg (by simpa using hne), spansRead_tier hread⟩
  rw [← hread] at hy
  obtain ⟨hcount, hlayers, halone⟩ := commitAt_leaves (h := h) (u := tookRequest (.drop h q) s) hg ho hs hr hy htier
  refine ⟨_, exec_commit hturn hok, hcount, hlayers, fun hm => ?_⟩
  obtain ⟨x, hx, he⟩ := halone hm (hdrType_of_r276 hok)
  exact he ▸ (htaken.of_only rfl rfl hx).answered rfl _ _

/-- An exchange in turn that agrees with the word and names no pause here: it sets the word, and is answered at once where no partner is
written (08 R222, 10 R280). -/
theorem exec_cas_sets {cmp w : DWord} {g : Galley} (hok : r276 (tookRequest (.drop h q) s) (.ownerCas h q cmp w) = .ok)
    (hg : galleyOf s q = some g) (hr : ∀ r, recLive s q = some r → ownerView r = false ∨ r.state ≠ 5) (hs : g.serving = mySlot s)
    (ho : srcDev h = g.owner.toNat ∨ excluded s g.owner.toNat = true) (hw : ownerWord g = cmp.toNat) (hme : w.toNat % 4096 ≠ (myDev s).toNat) :
    ∃ t, exec (.ownerWordCas h q cmp w) s = .next t ∧ OnlyChanges [.req, .pair, .near, .links] s t
      ∧ galleyOf t q = some (setOwner w.toNat g)
      ∧ (mirrors s g = false → Answered (.ownerCas h q cmp w) .ok (leBytes 8 (ownerWord g)) s t) := by
  obtain ⟨m, hm, -⟩ := exec_runs (h := h) (i := .ownerWordCas h q cmp w) rfl rfl hturn hok
  obtain ⟨rs, hset⟩ := homeRun_cas_sets (h := h) (u := heard h q m s) hg hr hs ho hw hme
  have hgal : galleyOf (galleyUpd q (setOwner w.toNat) (heard h q m s)) q = some (setOwner w.toNat g) :=
    galleyOf_setOwner (u := heard h q m s) hg _
  have hword : OnlyChanges [.req] (heard h q m s) (galleyUpd q (setOwner w.toNat) (heard h q m s)) := galleyUpd_changes rfl (.refl _ _)
  have halone : mirrors (galleyUpd q (setOwner w.toNat) (heard h q m s)) g = mirrors s g := rfl
  rw [hset] at hm
  generalize galleyUpd q (setOwner w.toNat) (heard h q m s) = v at hm hgal hword halone
  have hsend := mirrorSend_answer_changes (h := h) (g := g) (u := v) rs .ok (leBytes 8 (ownerWord g))
  refine ⟨_, hm, ((heard_only h q m s).wider rfl).trans ((hword.wider rfl).trans (hsend.wider rfl)),
    (galleyOf_congr (congrArg Req.galleys (hsend .req rfl :)) q).trans hgal, fun hno => ?_⟩
  obtain ⟨x, hx, hone⟩ := mirrorSend_alone rs (.answer h .ok (leBytes 8 (ownerWord g))) (halone.trans hno)
  have htype : h.type = 3 := hdrType_of_r276 hok
  rw [hone, oneCopy_ok, htype]
  exact (((heard_taken ..).of_only rfl rfl hword).of_only rfl rfl hx).answered rfl _ _

end

/-! ### The statement -/

/-- Settles O50: a request of the state mover that is in turn and passes R276 is executed at once, and leaves of the galley, the record and
the pair what 08 and 09 say; one that fails R276, or comes from another than it is for, is answered with its code. -/
theorem galleyRequestCommands : Obligations.GalleyRequestCommands := by
  unfold Obligations.GalleyRequestCommands
  intro h q nl st u o ly lp d rv w cmp off bs p n pg cur qs ls s src v here mine cmds hturn
  have hreq : ∀ e ∈ cmds, moverReq e.1 = some e.2 ∧ reqHdr e.2 = h := by
    intro e he
    simp only [cmds, List.mem_cons, List.not_mem_nil, or_false] at he
    rcases he with rfl | rfl | rfl | rfl | rfl | rfl | rfl | rfl | rfl | rfl <;> exact ⟨rfl, rfl⟩
  have hnow {i : Instr} {r : TrayReq} (hi : exec i s = .next (homeArrive r s)) (hh : reqHdr r = h)
      (hw : ∀ (t : State) (d : Nat), turnWaits t d r = false) : exec i s = .next (homeExecute r v) :=
    hi.trans (congrArg Host.Outcome.next (homeArrive_heard hturn hh hw))
  have hrun {i : Instr} {r : TrayReq} (hi : moverReq i = some r) (hh : reqHdr r = h) := exec_runs hi hh hturn
  have hone {i : Instr} {r : TrayReq} {c : Status} {b : List Byte} (hi : moverReq i = some r) (hh : reqHdr r = h) :=
    exec_answers (c := c) (b := b) hi hh hturn
  refine ⟨fun e he hcas => ?_, congrArg Host.Outcome.next (homeArrive_heard (s := atomicWaits s) hturn rfl fun _ _ => rfl),
    fun e he hbad => exec_refuses (hreq e he).1 (hreq e he).2 hturn hbad,
    fun e he hok => ⟨?_, fun hi hp => ?_, fun hi g hg hm => ?_, fun hi hg hr => ?_⟩,
    fun hok hp g hg hsrc => ⟨fun h2 h3 hd => ?_, fun h2 => ?_⟩,
    fun hok hp g hg => ?_, fun hok => ⟨fun g hg hm => ?_, fun hg hr => ?_⟩, fun hok => ⟨fun hg hr => ?_, fun g hg hm => ?_⟩,
    fun hok g hg hm hres => ?_, fun hok hp => ⟨fun h6 => ?_, fun h6 hv => ?_, fun h6 hv hcur => ?_⟩, fun hok hp hst => ?_,
    fun hok g hg hw hp hl => ?_, fun hok g hg hr => ?_, fun hok g hg => ?_⟩
  · simp only [cmds, List.mem_cons, List.not_mem_nil, or_false] at he
    rcases he with rfl | rfl | rfl | rfl | rfl | rfl | rfl | rfl | rfl | rfl
    on_goal 10 => exact absurd rfl hcas
    all_goals exact hnow rfl rfl fun _ _ => rfl
  · obtain ⟨m, hm, -⟩ := hrun (hreq e he).1 (hreq e he).2 hok
    exact ⟨_, hm⟩
  · refine hone (hreq e he).1 (hreq e he).2 hok fun m => homeRun_stranger (hreq e he).1 (hreq e he).2 ?_ hp
    rcases hi with hi | hi | hi | hi <;> rw [hi] <;> rfl
  · obtain ⟨i, r⟩ := e
    obtain ⟨hi', hh⟩ := hreq _ he
    obtain ⟨m, -, hans⟩ := hrun hi' hh hok
    obtain ⟨hp, hown⟩ := not_or.1 hm
    have hp' : fromPartner (heard h q m s) h = false := Bool.eq_false_iff.2 hp
    have hdenied (v : State) (hv : OnlyChanges [.pair] (heard h q m s) v) (hr : homeRun r (heard h q m s) = homeFinish h .denied [] v) :
        ∃ t, exec i s = .next t ∧ Answered r .denied [] s t ∧ OnlyChanges [.near, .links, .pair] s t := by
      obtain ⟨he, ha⟩ := hans _ _ _ hr ((heard_taken ..).of_only rfl rfl hv)
      exact ⟨_, he, ha, answer_only rfl rfl hv⟩
    dsimp only at hi hi'
    rcases hi with rfl | rfl | rfl <;> obtain rfl := Option.some.inj hi'
    · exact hdenied _ (ownerJournal_only _ _ _) (homeRun_mapWrite_stranger (u := heard h q m s) hg hp' hown off bs)
    · exact hdenied _ (ownerJournal_only _ _ _) (homeRun_record_stranger (u := heard h q m s) hg hp' hown u)
    · exact hdenied _ (.refl _ _) (homeRun_drop_stranger (u := heard h q m s) hg hp' hown)
  · obtain ⟨i, r⟩ := e
    obtain ⟨hi', hh⟩ := hreq _ he
    dsimp only at hi hi'
    rcases hi with rfl | rfl | ⟨hp, rfl | rfl⟩ <;> obtain rfl := Option.some.inj hi'
    · exact hone hi' hh hok fun m => homeRun_commit_lost (u := heard h q m s) hg nl st u o
    · exact hone hi' hh hok fun m => homeRun_cas_lost (u := heard h q m s) cmp w hg hr
    · exact hone hi' hh hok fun m => homeRun_seal_lost (u := heard h q m s) hg ly lp d rv hp
    · exact hone hi' hh hok fun m => homeRun_fwd_lost (u := heard h q m s) hg w hp
  · obtain ⟨m, -, hans⟩ := hrun (i := .sealDigest h q ly lp ⟨d, rv⟩) rfl rfl hok
    obtain ⟨hk, g', hg', h3'⟩ := digestKept_equal (u := heard h q m s) hg hsrc h2 h3
    rw [← hd] at hk hg'
    obtain ⟨he, ha⟩ := hans _ _ _ (homeRun_seal (u := heard h q m s) ly lp d rv hp hg) ((heard_taken ..).of_only rfl rfl hk)
    exact ⟨_, he, ha, answer_only rfl rfl hk, g', (galleyOf_homeFinish q).trans hg', h3'⟩
  · obtain ⟨m, -, hans⟩ := hrun (i := .sealDigest h q ly lp ⟨d, rv⟩) rfl rfl hok
    obtain ⟨hk, g', hg', hpage⟩ := digestKept_early (u := heard h q m s) hg hsrc d h2
    obtain ⟨he, ha⟩ := hans _ _ _ (homeRun_seal (u := heard h q m s) ly lp d rv hp hg) ((heard_taken ..).of_only rfl rfl hk)
    exact ⟨_, he, ha, answer_only rfl rfl hk, g', (galleyOf_homeFinish q).trans hg', hpage⟩
  · obtain ⟨m, -, hans⟩ := hrun (i := .ownerFwd h q w) rfl rfl hok
    have hk : OnlyChanges [.req] (heard h q m s) (wordFollows q w.toNat (heard h q m s)) := wordFollows_changes rfl (.refl _ _)
    obtain ⟨he, ha⟩ := hans _ _ _ (homeRun_fwd (u := heard h q m s) w hp hg) ((heard_taken ..).of_only rfl rfl hk)
    refine ⟨_, he, ha, answer_only rfl rfl hk, fun hr => ?_, fun r hr => ?_⟩
    · rw [wordFollows_unrecorded (u := heard h q m s) hg _ hr]
      exact ⟨(congrArg Req.recs (homeFinish_req ..) :), (galleyOf_homeFinish q).trans (galleyOf_setOwner hg _)⟩
    · obtain ⟨g', y, hg', hy, hrest⟩ := wordFollows_live (u := heard h q m s) hg w.toNat hr
      exact ⟨g', y, (galleyOf_homeFinish q).trans hg', (recFind_congr (congrArg Req.recs (homeFinish_req ..)) q).trans hy, hrest⟩
  · obtain ⟨m, -, hans⟩ := hrun (i := .drop h q) rfl rfl hok
    have hfree : Taken h s (freeGalley q (heard h q m s)) :=
      (heard_taken ..).of_only (Q := [.codec, .tier, .req]) rfl rfl (freeGalley_changes rfl (.refl _ _))
    obtain ⟨he, ha⟩ := hans _ _ _ (homeRun_drop (u := heard h q m s) hg hm) ((hfree.dropCopy h).of_only rfl rfl (dropRetires_only _))
    obtain ⟨hgone, hdrops⟩ := dropRetires_dropped (h := h) (u := heard h q m s) (recLive s q) hg
    exact ⟨_, he, ha, (galleyOf_homeFinish q).trans hgone, (congrArg Req.drops (homeFinish_req ..)).trans hdrops⟩
  · exact hone rfl rfl hok fun m => homeRun_drop_unknown (u := heard h q m s) hg hr
  · exact hone rfl rfl hok fun m => homeRun_record_unknown (u := heard h q m s) u hg hr
  · obtain ⟨m, -, hans⟩ := hrun (i := .record h q u) rfl rfl hok
    have hk : OnlyChanges [.req, .pair] (heard h q m s) (memberRecord q u (ownerJournal q (.record h q u) (heard h q m s))) :=
      memberRecord_changes rfl ((ownerJournal_only _ _ _).wider rfl)
    obtain ⟨he, ha⟩ := hans _ _ _ (homeRun_record (u := heard h q m s) hg u hm) ((heard_taken ..).of_only rfl rfl hk)
    obtain ⟨g', hg', hrec⟩ := memberRecord_galley (galleyOf_ownerJournal (u := heard h q m s) hg (.record h q u)) u
    exact ⟨_, he, ha, answer_only rfl rfl hk, g', (galleyOf_homeFinish q).trans hg', hrec⟩
  · have htaken : Taken h s v := heard_taken h q s.near.atomicHw s
    have hk : OnlyChanges [.codec, .tier, .sched, .req, .pair] v (spareMap q off.toNat bs (ownerJournal q (.mapWrite h q off bs) v)) :=
      spareMap_changes rfl ((ownerJournal_only _ _ _).wider rfl)
    have hexec : exec (.mapWrite h q off bs) s = _ := (hnow rfl rfl fun _ _ => rfl).trans
      (congrArg Host.Outcome.next ((homeExecute_ok hok).trans (homeRun_mapWrite (u := v) hg off bs hm hres)))
    exact ⟨_, hexec, (htaken.of_only rfl rfl hk).answered rfl _ _, homeFinish_changes rfl (.refl _ _)⟩
  · exact hone rfl rfl hok fun m => homeRun_ckpt_denied (u := heard h q m s) hp n cur pg h6
  · obtain ⟨m, hm, -⟩ := hrun (i := .ckpt h n cur pg) rfl rfl hok
    rw [homeRun_ckpt_waits (u := heard h q m s) hp n cur pg h6 hv] at hm
    exact ⟨_, hm, ((heard_only h q m s).wider rfl).trans (pair_only rfl _ _), rfl⟩
  · obtain ⟨m, -, hans⟩ := hrun (i := .ckpt h n cur pg) rfl rfl hok
    have hk := pair_only (Q := [.pair]) rfl (heard h q m s)
      { s.pair with stored := some (n.toNat, cur.toNat, pg.toNat), ckptWait := none, untrusted := false }
    obtain ⟨he, ha⟩ := hans _ _ _ (homeRun_ckpt_stores (u := heard h q m s) hp n cur pg h6 hv hcur) ((heard_taken ..).of_only rfl rfl hk)
    exact ⟨_, he, ha, answer_only rfl rfl hk, homeFinish_pair⟩
  · obtain ⟨m, -, hans⟩ := hrun (i := .silverSetup h qs ls) rfl rfl hok
    have hk : OnlyChanges [.codec, .tier, .pair] (heard h q m s) (silverSetup qs ls (heard h q m s)) := silverSetup_changes rfl (.refl _ _)
    obtain ⟨hpair, hquota⟩ := silverSetup_sets (u := heard h q m s) qs ls
    obtain ⟨he, ha⟩ := hans _ _ _ (homeRun_setup (u := heard h q m s) qs ls hp hst) ((heard_taken ..).of_only rfl rfl hk)
    have htier : (homeFinish h .ok [] (silverSetup qs ls (heard h q m s))).tier = (silverSetup qs ls (heard h q m s)).tier :=
      homeFinish_changes (Q := [.near, .links]) rfl (.refl _ _) .tier rfl
    exact ⟨_, he, ha, answer_only rfl rfl hk, homeFinish_pair.trans hpair, fun k hk => htier ▸ hquota k hk⟩
  · obtain ⟨m, -, hans⟩ := hrun (i := .page h p) rfl rfl hok
    obtain ⟨v, hr, hk, g', hg', hpart⟩ := homeRun_page (u := heard h q m s) hg hw hp hl
    obtain ⟨he, ha⟩ := hans _ _ _ hr ((heard_taken ..).of_only rfl rfl hk)
    exact ⟨_, he, ha, g', (galleyOf_homeFinish _).trans hg', hpart⟩
  · have hanswer {c : Status} {b : List Byte} (hr : ∀ m : Nat, homeRun (.ownerCas h q cmp w) (heard h q m s) = homeFinish h c b (heard h q m s)) :=
      hone (i := .ownerWordCas h q cmp w) rfl rfl hok hr
    exact ⟨fun hs => hanswer fun m => homeRun_cas_elsewhere (u := heard h q m s) hg hr hs,
      fun hs ho hx => hanswer fun m => homeRun_cas_other (u := heard h q m s) hg hr hs ho hx,
      fun hs ho hw => hanswer fun m => homeRun_cas_differs (u := heard h q m s) hg hr hs ho hw,
      fun hs ho hw hme => exec_cas_sets hturn hok hg hr hs ho hw hme⟩
  · have htaken : Taken h s v := heard_taken h q s.near.atomicHw s
    have hv : OnlyChanges [.near, .links] s v := (heard_only h q s.near.atomicHw s).wider rfl
    have hexec := exec_commit hturn hok
    have hno {c : Status} (hr : commitAt h q nl.toNat st u o v = homeFinish h c [] v) :
        here (.commit h q nl st ⟨u, o⟩) (.commit h q nl st u o) s c [] :=
      ⟨_, hexec.trans (congrArg _ hr), htaken.answered rfl _ _, homeFinish_changes rfl hv⟩
    refine ⟨fun ho => hno (commitAt_other hg ho), fun ho hs => hno (commitAt_elsewhere hg ho hs),
      fun ho hs hr => hno (commitAt_absent hg ho hs hr), ?_⟩
    intro specs
    generalize hread : spansRead _ o v = x
    obtain ⟨got, a⟩ := x
    refine ⟨fun ho hs hr hne hgot => ?_, fun ho hs hr hrows => exec_commit_leaves hturn hok hg ho hs hr hread hrows⟩
    · subst hgot
      have hsnd : (spansRead _ o v).2 = a := congrArg Prod.snd hread
      have ha : Taken h s a := hsnd ▸ htaken.spansRead _ o
      exact ⟨_, hexec.trans (congrArg _ ((commitAt_rows (u := v) hg ho hs hr).trans (commitRows_unread hne hread))), ha.answered rfl _ _,
        homeFinish_changes rfl (.refl _ a)⟩

end Sys2Proof.Machine
end

section
/-!
Composition maps (09 R254 to R257; 17 R442): which check of MAP_INSTALL decides, what the table holds after it, and the leases.
-/

namespace Sys2Proof.Machine

/-- A command of PAIR_CTRL that is accepted runs (17 R442). -/
theorem pairCtl_runs {w : CtlWrite} {n : Nat} {run : State → State} {s : State} (hb : s.pair.busy = false)
    (hc : Commands w false [0, 1, 2, 3, 4, 5] n s) : pairCtl w n run s = run s := ctl_runs hc.1 hc.2 hb

variable {s u : State}

/-! ### The checks of MAP_INSTALL (09 R255) -/

/-- Every slot of the staged map is absent. -/
theorem stagedEmpty_iff : (List.range 16).all (fun d => stagedRole s d == 0) = true ↔ ∀ d : Nat, d < 16 → stagedRole s d = 0 := by
  simp only [List.all_eq_true, List.mem_range, beq_iff_eq]

/-- The first check of R255 that fails decides the code. -/
theorem mapCheck_eq : mapCheck s =
    if ∀ d : Nat, d < 16 → stagedRole s d = 0 then .malformed
    else if stagedRole s (mySlot s).toNat ≠ roleOf s then .formeMismatch
    else if pairingBroken s = true then .formeMismatch
    else if ∃ c, mapCurrent s = some c ∧ newer 32 s.pair.mapEpoch.toNat c.epoch.toNat = false then .epochStale
    else if 4 ≤ s.pair.maps.length then .retryLater
    else .ok := by
  simp only [mapCheck, stagedEmpty_iff, Bool.or_eq_true, decide_eq_true_eq, ← ite_or]
  split
  · rfl
  · split
    · rfl
    · cases mapCurrent s with
      | none => simp
      | some c => cases newer 32 s.pair.mapEpoch.toNat c.epoch.toNat <;> simp

/-! ### What an installation leaves (09 R255, R257) -/

/-- The staged map as the table takes it. -/
def stagedMap (s : State) : MapEntry :=
  { epoch := s.pair.mapEpoch, roles := (List.range 16).map (stagedRole s), leaseEnd := s.tb + s.pair.mapLease * 625000, current := true }

theorem mapInstall_maps : (mapInstall s).pair.maps = s.pair.maps.map (fun m => { m with current := false }) ++ [stagedMap s] := rfl

theorem mem_mapPrune {m : MapEntry} : m ∈ (mapPrune s).pair.maps ↔
    m ∈ s.pair.maps ∧ (m.current = true ∨ s.tb < m.leaseEnd ∨ drainCount s m.epoch ≠ 0) := by
  simp only [mapPrune, mapsHeld, List.mem_filter, Bool.or_eq_true, decide_eq_true_eq, bne_iff_ne, or_assoc]

/-- The staged map is the one current map of the table. -/
theorem mapInstall_current {m : MapEntry} (hm : m ∈ (mapPrune (mapInstall s)).pair.maps) (hc : m.current = true) : m = stagedMap s := by
  have hm := (mem_mapPrune.1 hm).1
  rw [mapInstall_maps, List.mem_append, List.mem_map, List.mem_singleton] at hm
  obtain ⟨m', -, rfl⟩ | rfl := hm
  · cases hc
  · rfl

theorem mapInstall_holds : stagedMap s ∈ (mapPrune (mapInstall s)).pair.maps :=
  mem_mapPrune.2 ⟨mapInstall_maps ▸ List.mem_append_right _ (List.mem_singleton_self _), .inl rfl⟩

/-- What MAP_INSTALL does to a table from which the ended maps have gone. -/
def mapTaken (u : State) : State := if mapCheck u = .ok then pairCode .ok (mapPrune (mapInstall u)) else pairCode (mapCheck u) u

theorem mapTaken_only : OnlyChanges [.pair] u (mapTaken u) :=
  changes_ite (fun _ => pairCode_changes rfl (mapPrune_changes rfl (mapInstall_changes rfl (.refl _ u))))
    (fun _ => pairCode_changes rfl (.refl _ u))

theorem mapTaken_refused (c : Status) (h : mapCheck u = c) (hc : c ≠ .ok) :
    (mapTaken u).pair.code = codeOf c ∧ (mapTaken u).pair.maps = u.pair.maps := by
  subst h
  rw [mapTaken, if_neg hc]
  exact ⟨rfl, rfl⟩

theorem mapTaken_installs (h : mapCheck u = .ok) : (mapTaken u).pair.code = 0x00
    ∧ (∀ m ∈ (mapTaken u).pair.maps, m.current = true → m = stagedMap u) ∧ stagedMap u ∈ (mapTaken u).pair.maps := by
  rw [mapTaken, if_pos h]
  exact ⟨rfl, fun _ => mapInstall_current, mapInstall_holds⟩

/-! ### MAP_RENEW (09 R257) -/

/-- Without a current map no lease is renewed. -/
theorem renewed_none (h : mapCurrent s = none) (e : Nat) :
    s.pair.maps.map (fun m => if m.current then { m with leaseEnd := e } else m) = s.pair.maps := by
  refine (List.map_congr_left fun m hm => ?_).trans (List.map_id _)
  exact if_neg (List.find?_eq_none.1 h m hm)

/-- Settles O25: the checks of MAP_INSTALL in their order, and the leases of the table's maps. -/
theorem mapCommands : Obligations.MapCommands := by
  unfold Obligations.MapCommands
  intro w e s hb u
  refine ⟨fun hc => ?_, fun hc => ?_, fun hended => ?_⟩
  · have hexec : exec (.mapInstall w) s = .next (mapTaken u) := congrArg _ (pairCtl_runs hb hc)
    refine ⟨_, hexec, (mapPrune_changes rfl (.refl _ s)).trans mapTaken_only, ?_⟩
    have hcheck : mapCheck u = _ := mapCheck_eq
    split
    · next h => exact mapTaken_refused _ (hcheck.trans (if_pos h)) nofun
    · next hempty =>
      replace hcheck := hcheck.trans (if_neg hempty)
      split
      · next h => exact mapTaken_refused _ (hcheck.trans (if_pos h)) nofun
      · next hrole =>
        replace hcheck := hcheck.trans (if_neg hrole)
        split
        · next h => exact mapTaken_refused _ (hcheck.trans (if_pos h)) nofun
        · next hpairs =>
          replace hcheck := hcheck.trans (if_neg hpairs)
          split
          · next h => exact mapTaken_refused _ (hcheck.trans (if_pos h)) nofun
          · next hepoch =>
            replace hcheck := hcheck.trans (if_neg hepoch)
            split
            · next h => exact mapTaken_refused _ (hcheck.trans (if_pos h)) nofun
            · next hroom => exact mapTaken_installs (hcheck.trans (if_neg hroom))
  · refine congrArg _ ((pairCtl_runs hb hc).trans ?_)
    cases hcur : mapCurrent s with
    | none => simp only [renewed_none hcur, Option.isNone_none, if_true, pairCode]
    | some c => rfl
  · obtain ⟨m, hm, he, hl⟩ := hended
    have hany : s.pair.maps.any (fun m => m.epoch == e && decide (m.leaseEnd ≤ s.tb)) = true :=
      List.any_eq_true.2 ⟨m, hm, by simp [he, hl]⟩
    have hexec : exec (.mapLeaseEnd e) s = .next (mapPrune s) := congrArg Host.Outcome.next (if_pos hany)
    exact ⟨_, hexec, mapPrune_changes rfl (.refl _ s), fun _ => mem_mapPrune⟩

end Sys2Proof.Machine
end

section
/-!
Notices and the ends of requests of the tray fabric (10 R266, R268, R272, R276, R283, R285 to R287; 09 R262; 17 R448): what each leaves of
the links, of what this device keeps for the destinations, and of the counters.
-/

namespace Sys2Proof.Machine

/-! ### Packets that are queued (12 R333) -/

section
variable {n k : Nat} {s : State}

/-- A packet that is queued leaves the state of every link, and what waits in its queue keeps its place. -/
def Queues (s t : State) : Prop :=
  ∀ k : Nat, (link t k).state = (link s k).state ∧ ∃ more : List Queued, (link t k).queue = (link s k).queue ++ more

theorem Queues.refl (s : State) : Queues s s := fun _ => ⟨rfl, [], (List.append_nil _).symm⟩

theorem Queues.trans {s t u : State} (h : Queues s t) (k : Queues t u) : Queues s u := fun n => by
  obtain ⟨hs, a, ha⟩ := h n
  obtain ⟨ks, b, hb⟩ := k n
  exact ⟨ks.trans hs, a ++ b, by rw [hb, ha, List.append_assoc]⟩

theorem Queues.of_links {s t : State} (h : t.links = s.links) : Queues s t := fun n => by
  have : link t n = link s n := by unfold link; rw [h]
  exact ⟨by rw [this], [], by rw [this, List.append_nil]⟩

/-- A packet that waits goes on waiting. -/
theorem Queues.mem {s t : State} (h : Queues s t) {q : Queued} (hq : q ∈ (link s k).queue) : q ∈ (link t k).queue := by
  obtain ⟨-, more, hm⟩ := h k
  exact hm ▸ List.mem_append_left _ hq

theorem Queues.linkIsUp {s t : State} (h : Queues s t) (k : Nat) : linkIsUp t k = linkIsUp s k := by
  unfold Machine.linkIsUp
  rw [(h k).1]

theorem pushPacket_queues {pkt : Packet} {cls tc slot : Nat} {tenant : BitVec 16} {payload hdr : Nat} :
    Queues s (pushPacket n pkt cls tc slot tenant payload hdr s) := fun k => by
  unfold pushPacket
  by_cases hk : k = n
  · subst hk
    rw [link_linkUpd_same]
    exact ⟨rfl, _, rfl⟩
  · rw [link_linkUpd_other _ _ _ _ hk]
    exact ⟨rfl, [], (List.append_nil _).symm⟩

theorem enqueue_queues {pkt : Packet} {cls tc : Nat} {tenant : Option (BitVec 16)} {payload hdr : Nat} :
    Queues s (enqueue n pkt cls tc tenant payload hdr s) := by
  unfold enqueue
  split
  · exact pushPacket_queues
  · exact .refl s

theorem trayPacket_queues {d : Nat} {mk : Bool → Packet} {cls tc : Nat} {tenant : Option (BitVec 16)} {payload : Nat} :
    Queues s (trayPacket d mk cls tc tenant payload s) := by
  unfold trayPacket
  split
  · exact .refl s
  · exact enqueue_queues

theorem slSend_queues {m : SlMsg} : Queues s (slSend m s) := by
  unfold slSend
  split
  · exact pushPacket_queues
  · exact .refl s

theorem sendSuspect_queues {d : DevId} : Queues s (sendSuspect d s) := by
  unfold sendSuspect
  split
  · exact slSend_queues
  · exact .refl s

/-- Where the device may emit and SL is UP, the report waits on SL (09 R264). -/
theorem sendSuspect_waits (d : DevId) (he : mayEmit s = true) (hu : slUp s = true) :
    ∃ m ∈ (link (sendSuspect d s) 31).queue, m.pkt = .sl (.suspect d) := by
  unfold sendSuspect slSend pushPacket
  rw [if_pos he, if_pos hu]
  dsimp only
  rw [link_linkUpd_same]
  exact ⟨_, List.mem_append_right _ (List.mem_singleton_self _), rfl⟩

/-- Where the device may emit, the packet is last in its link's queue. -/
theorem enqueue_last (pkt : Packet) (cls tc : Nat) (tenant : Option (BitVec 16)) (payload hdr : Nat) (he : mayEmit s = true) :
    ∃ q : Queued, (link (enqueue n pkt cls tc tenant payload hdr s) n).queue = (link s n).queue ++ [q] ∧ q.pkt = pkt := by
  unfold enqueue pushPacket
  rw [if_pos he]
  dsimp only
  rw [link_linkUpd_same]
  exact ⟨_, rfl, rfl⟩

/-! ### The path to a slot (10 R286) -/

/-- The path is chosen by this device's slot, the links that are UP, the exclusion table and what the peers told of their links. -/
theorem trayRoute_congr {t : State} (hi : t.dev.ident = s.dev.ident) (hp : t.pair = s.pair) (hl : t.near.lstate = s.near.lstate)
    (hq : Queues s t) (d : Nat) : trayRoute t d = trayRoute s d := by
  have hnear (v : Nat) : nearLink t v = nearLink s v := by simp only [nearLink, mySlot, hi]
  have hvia (v : Nat) : viaOk t d v = viaOk s d v := by
    simp only [viaOk, hnear, hq.linkIsUp, mySlot, devOfSlot, myTray, hi, excluded, hp, hl]
    rfl
  simp only [trayRoute, hnear, hq.linkIsUp, funext hvia]

end

/-! ### What is kept for a destination -/

section
variable {d n : Nat} {s : State}

theorem trayDst_trayDstUpd_other {k : Nat} (f : TrayDst → TrayDst) (h : k ≠ d) : trayDst (trayDstUpd d f s) k = trayDst s k :=
  Tab.getD_upd_other _ _ _ _ _ h

/-- The acknowledged-through value moves on, and nothing else of the destination does (10 R283). -/
theorem advanceThrough_frame (fuel : Nat) (x : TrayDst) :
    (advanceThrough fuel x).out = x.out ∧ (advanceThrough fuel x).waiting = x.waiting := by
  induction fuel generalizing x with
  | zero => exact ⟨rfl, rfl⟩
  | succ fuel ih =>
    unfold advanceThrough
    dsimp only
    split
    · exact ih _
    · exact ⟨rfl, rfl⟩

/-- A change of the block NEAR. -/
theorem onlyNear (s : State) (x : Near) : OnlyChanges [.near] s { s with near := x } := fun b hb => by
  cases b <;> first | rfl | cases hb

/-! ### CREDIT (10 R268, R272) -/

variable {h : TrayHdr}

/-- What R276 asks of the header of a notice. -/
theorem noticeOk_iff {ty : Byte} : noticeOk s h ty = true ↔ h.type = ty ∧ h.resv = 0 ∧ (h.flags &&& 0xFD) = 0 ∧ h.dst.toNat = (myDev s).toNat
    ∧ h.src.toNat < 4096 ∧ h.part.toNat < 8 ∧ h.status = 0 ∧ h.mepoch = 0 ∧ h.op = 0 ∧ senderOk s h = true ∧ formeServes s = true := by
  simp only [noticeOk, Bool.and_eq_true, beq_iff_eq, decide_eq_true_eq, and_assoc]

/-- The fields and the sender of a CREDIT fit. -/
def creditFits (h : TrayHdr) (s : State) : Prop :=
  noticeOk s h 0x06 = true ∧ addrSlot h = (mySlot s).toNat ∧ addrAp h = 0xB ∧ addrOff h < 2 ^ 16 ∧ addrOff h % 256 < 32 ∧ h.len = 4

theorem creditAt_eq (count : Word) (hok : creditFits h s) : creditAt h count s =
    if !chanGranted s h true then { s with near := { s.near with denied := satInc s.near.denied } }
    else match apCluster s h with
      | none => s
      | some n =>
        if newer 32 count.toNat (Tab.getD s.near.received (n * 32 + addrOff h % 32) 0).toNat then
          creditBack n (addrOff h % 32) (count - Tab.getD s.near.received (n * 32 + addrOff h % 32) 0).toNat
            { s with near := { s.near with received := Tab.put s.near.received (n * 32 + addrOff h % 32) count } }
        else s := by
  obtain ⟨hn, hs, ha, ho, hk, hl⟩ := hok
  replace hn : noticeOk s h 6#8 = true := hn
  replace ho : addrOff h < 65536 := ho
  unfold creditAt
  exact if_neg (by simp [hn, hs, ha, ho, hk, hl])

theorem creditAt_unfit (count : Word) (hok : ¬ creditFits h s) : creditAt h count s = s := by
  refine if_pos (Decidable.byContradiction fun hc => hok ?_)
  simpa [creditFits, and_assoc] using hc

theorem granted_cluster {send : Bool} (hg : chanGranted s h send = true) : ∃ m : Nat, apCluster s h = some m := by
  unfold chanGranted at hg
  split at hg
  · cases hg
  · next n hn => exact ⟨n, hn⟩

/-- Credits that come back to a cluster that does not wait and is at no switch point are added, and nothing else happens. -/
theorem creditBack_quiet {m ch k : Nat} (hw : (cluster s m).wait = .none) (ha : atSwitch s m = false) :
    creditBack m ch k s = channelUpd m ch (fun x => { x with credits := x.credits + k }) s := by
  unfold creditBack
  generalize hu : channelUpd m ch (fun x => { x with credits := x.credits + k }) s = u
  have hcluster : cluster u m = { cluster s m with chans := Tab.mod (cluster s m).chans ch fun x => { x with credits := x.credits + k } } := by
    rw [← hu]
    exact cluster_clusterUpd_same ..
  have hforme : u.forme = s.forme := by rw [← hu]; rfl
  have hparts : partition u = partition s := by simp only [funext_iff, partition, hforme, implies_true]
  have hat : atSwitch u m = false := by
    rw [← ha]
    simp only [atSwitch, hcluster, fullSave, partOfCtx, hparts, hforme, hasProgram, spansOpen]
  rw [wakeWait_running (by rw [hcluster]; exact hw), rebind, hat]
  simp

theorem creditAt_denied (count : Word) (hok : creditFits h s) (hg : chanGranted s h true = false) :
    creditAt h count s = { s with near := { s.near with denied := satInc s.near.denied } } := by
  rw [creditAt_eq count hok, hg, Bool.not_false, if_pos rfl]

/-- A count of a channel that TRAY grants: only a newer one gives credits back. -/
theorem creditAt_granted {m : Nat} (count : Word) (hok : creditFits h s) (hg : chanGranted s h true = true) (hm : apCluster s h = some m) :
    creditAt h count s = if newer 32 count.toNat (Tab.getD s.near.received (m * 32 + addrOff h % 32) 0).toNat then
        creditBack m (addrOff h % 32) (count - Tab.getD s.near.received (m * 32 + addrOff h % 32) 0).toNat
          { s with near := { s.near with received := Tab.put s.near.received (m * 32 + addrOff h % 32) count } }
      else s := by
  rw [creditAt_eq count hok, hg, hm, Bool.not_true, if_neg Bool.false_ne_true]

/-! ### LSTATE (10 R268, R286) -/

def lstateFits (h : TrayHdr) (s : State) : Prop :=
  noticeOk s h 0x08 = true ∧ srcDev h / 16 = (myTray s).toNat ∧ srcDev h ≠ (myDev s).toNat

theorem lstateAt_unfit (up : BitVec 15) (role : Byte) (model : Digest) (hok : ¬ lstateFits h s) : lstateAt h up role model s = s := by
  refine if_pos (Decidable.byContradiction fun hc => hok ?_)
  simpa [lstateFits, and_assoc] using hc

theorem lstateAt_fits (up : BitVec 15) (role : Byte) (model : Digest) (hok : lstateFits h s) : lstateAt h up role model s =
    creditsRepath s { s with near := { s.near with
      lstate := Tab.put s.near.lstate (srcDev h % 16) { links := up, role := role, model := model } } } := by
  obtain ⟨hn, ht, hd⟩ := hok
  replace hn : noticeOk s h 8#8 = true := hn
  exact if_neg (by simp [hn, ht, hd])

/-! ### Sending again (10 R266, R285, R287) -/

/-- An outstanding request as it is sent again by `via` at `tb`. -/
def sentAgain (n tb : Nat) (via : Option Slot) (o : TrayOut) : TrayOut :=
  if o.seq = n then { o with via := via, path := true, sent := tb } else o

theorem resendReq_waits (hr : trayRoute s d = none) : resendReq d n s = s := by
  unfold resendReq
  rw [hr]
  split <;> rfl

theorem resendReq_sends {o : TrayOut} {r : Nat × Option Slot} (ho : (trayDst s d).out.find? (fun x => x.seq == n) = some o)
    (hr : trayRoute s d = some r) : resendReq d n s = trayQueue d true o.req o.why
      (trayDstUpd d (fun x => { x with out := x.out.map (sentAgain n s.tb r.2) })
        { s with near := { s.near with resent := satInc s.near.resent } }) := by
  unfold resendReq
  rw [ho, hr]
  rfl

theorem resendReq_queues : Queues s (resendReq d n s) := by
  unfold resendReq
  split
  · exact .refl s
  · split
    · exact .refl s
    · exact (Queues.of_links rfl).trans (trayPacket_queues)

/-- What sending again leaves of the block NEAR. -/
theorem resendReq_near {o : TrayOut} (ho : (trayDst s d).out.find? (fun x => x.seq == n) = some o) :
    (resendReq d n s).near.timeout = s.near.timeout
      ∧ (resendReq d n s).near.resent = (if (trayRoute s d).isSome then satInc s.near.resent else s.near.resent)
      ∧ ∀ tb, (∀ x ∈ (trayDst s d).out, x.seq = n → x.sent = tb) → s.tb = tb →
          ∀ x ∈ (trayDst (resendReq d n s) d).out, x.seq = n → x.sent = tb := by
  cases hr : trayRoute s d with
  | none =>
    rw [resendReq_waits hr]
    exact ⟨rfl, rfl, fun _ h _ => h⟩
  | some r =>
    have hnear := trayQueue_changes (Q := [.links]) (d := d) (resent := true) (r := o.req) (why := o.why) rfl (.refl _
      (trayDstUpd d (fun x => { x with out := x.out.map (sentAgain n s.tb r.2) })
        { s with near := { s.near with resent := satInc s.near.resent } })) .near rfl
    rw [resendReq_sends ho hr]
    refine ⟨by rw [hnear]; rfl, by rw [hnear]; rfl, fun tb _ htb x hx hseq => ?_⟩
    rw [trayDst_congr hnear, trayDst_trayDstUpd_same] at hx
    obtain ⟨y, -, rfl⟩ := List.mem_map.1 hx
    unfold sentAgain at hseq ⊢
    split
    · exact htb
    · next hy => rw [if_neg hy] at hseq; exact absurd hseq hy

/-! ### RESP (10 R266, R276, R283, R287) -/

def respFits (h : TrayHdr) (s : State) : Prop :=
  senderOk s h = true ∧ h.type = 0x10 ∧ h.flags.toNat.testBit 0 = true ∧ h.resv = 0 ∧ h.dst.toNat = (myDev s).toNat

theorem respAt_unfit (pl : WithReads (List Byte)) (hok : ¬ respFits h s) : respAt h pl s = s := by
  refine if_pos (Decidable.byContradiction fun hc => hok ?_)
  simpa [respFits, and_assoc] using hc

theorem respAt_fits (pl : WithReads (List Byte)) (hok : respFits h s) : respAt h pl s =
    match statusOf h.status with
    | none => s
    | some c =>
      if srcDev h = (devOfSlot s (h.tag.toNat % 16)).toNat then nearDrained (trayEnd (h.tag.toNat % 16) h.seq.toNat false c pl s)
      else if c = .retryLater then resendReq (h.tag.toNat % 16) h.seq.toNat s
      else s := by
  obtain ⟨hs, ht, hf, hr, hd⟩ := hok
  unfold respAt
  exact if_neg (by simp [hs, ht, hf, hr, hd])

/-- A success ends a cluster's request, or one that nothing waits for, and does nothing further. -/
theorem whyEnd_success {r : TrayReq} {w : TrayWhy} {c : Status} {pl : WithReads (List Byte)} (hw : w = .other ∨ ∃ m, w = .cluster m)
    (hc : isSuccess c = true) : whyEnd d r w false c pl s = s := by
  obtain rfl | ⟨m, rfl⟩ := hw <;> cases c <;> first | rfl | cases hc

theorem fencesRun_none (hf : s.near.fences = []) : fencesRun s = s := by
  unfold fencesRun
  simp only [hf, List.filter_nil, List.foldl_nil]
  rw [← hf]

theorem trayDrainAll_none (hw : ∀ k : Nat, (trayDst s k).waiting = []) : trayDrainAll s = s := by
  refine List.foldl_fixed' (fun k => ?_) _
  rw [hw k]
  rfl

/-- A response of success where nothing waits for room or for a fence: the request leaves the outstanding ones. -/
theorem trayEnd_success {o : TrayOut} {c : Status} (pl : WithReads (List Byte)) (ho : (trayDst s d).out.find? (fun x => x.seq == n) = some o)
    (hw : o.why = .other ∨ ∃ m, o.why = .cluster m) (hc : isSuccess c = true) (hwait : ∀ k : Nat, (trayDst s k).waiting = [])
    (hf : s.near.fences = []) : trayEnd d n false c pl s = trayDstUpd d (fun x => advanceThrough (x.answered.length + 1)
      { x with out := x.out.filter (fun o => o.seq != n), answered := x.answered ++ [n] }) s := by
  unfold trayEnd
  rw [ho]
  dsimp only
  rw [fenceCount, if_pos hc, whyEnd_success hw hc, fencesRun_none (by exact hf), trayDrainAll_none]
  intro k
  by_cases hk : k = d
  · subst hk
    rw [trayDst_trayDstUpd_same]
    exact (advanceThrough_frame _ _).2.trans (hwait k)
  · rw [trayDst_trayDstUpd_other _ hk]
    exact hwait k

/-! ### A request without a response (10 R266; 17 R448 bit 8) -/

/-- The state in which the time-out has been counted: once for each request. -/
def timeoutCounted (d n : Nat) (o : TrayOut) (s : State) : State :=
  if o.counted then s else
    noteErr 8 0 0x008 (trayDstUpd d (fun x => { x with out := x.out.map (fun o => if o.seq = n then { o with counted := true } else o) })
      { s with near := { s.near with timeout := satInc s.near.timeout } })

/-- The requests of a destination with their send tick renewed where the SEQ is `n`. -/
def restamped (d n : Nat) (s : State) : State :=
  trayDstUpd d (fun x => { x with out := x.out.map (fun o => if o.seq = n then { o with sent := s.tb } else o) }) s

theorem noResponse_none (hx : ∀ x ∈ (trayDst s d).out, x.seq ≠ n) : noResponse d n s = s := by
  unfold noResponse
  rw [List.find?_eq_none.2 fun x hm => by simpa using hx x hm]

theorem noResponse_early {o : TrayOut} (ho : (trayDst s d).out.find? (fun x => x.seq == n) = some o) (ht : s.tb < o.sent + 40000) :
    noResponse d n s = s := by
  unfold noResponse
  rw [ho]
  exact if_neg (by omega)

theorem noResponse_late {o : TrayOut} (ho : (trayDst s d).out.find? (fun x => x.seq == n) = some o) (ht : o.sent + 40000 ≤ s.tb) :
    noResponse d n s = resendReq d n (restamped d n (sendSuspect (devOfSlot (timeoutCounted d n o s) d) (timeoutCounted d n o s))) := by
  unfold noResponse
  rw [ho]
  exact if_pos ht

/-- A change of the outstanding requests that keeps their SEQs finds the same one. -/
theorem find?_map_seq {g : TrayOut → TrayOut} (hg : ∀ x, (g x).seq = x.seq) {l : List TrayOut} {o : TrayOut}
    (h : l.find? (fun x => x.seq == n) = some o) : (l.map g).find? (fun x => x.seq == n) = some (g o) := by
  have hcomp : (fun x : TrayOut => x.seq == n) ∘ g = fun x => x.seq == n := funext fun x => by simp only [Function.comp, hg]
  rw [List.find?_map, hcomp, h]
  rfl

/-- The same in the requests of a destination. -/
theorem find?_trayDstUpd {g : TrayOut → TrayOut} (hg : ∀ x, (g x).seq = x.seq) {t : State} {o : TrayOut}
    (h : (trayDst t d).out.find? (fun x => x.seq == n) = some o) :
    (trayDst (trayDstUpd d (fun x => { x with out := x.out.map g }) t) d).out.find? (fun x => x.seq == n) = some (g o) := by
  rw [trayDst_trayDstUpd_same]
  exact find?_map_seq hg h

theorem timeoutCounted_facts {o : TrayOut} (ho : (trayDst s d).out.find? (fun x => x.seq == n) = some o) :
    let t := timeoutCounted d n o s
    OnlyChanges [.dev, .near] s t ∧ t.dev.ident = s.dev.ident ∧ t.near.lstate = s.near.lstate ∧ t.near.resent = s.near.resent
      ∧ t.near.timeout = (if o.counted then s.near.timeout else satInc s.near.timeout) ∧ (o.counted = false → bit t.dev.err 8 = true)
      ∧ ∃ o', (trayDst t d).out.find? (fun x => x.seq == n) = some o' := by
  dsimp only [timeoutCounted]
  cases hc : o.counted with
  | true => exact ⟨.refl _ s, rfl, rfl, rfl, rfl, nofun, o, ho⟩
  | false =>
    simp only [Bool.false_eq_true, if_false]
    refine ⟨noteErr_changes rfl (trayDstUpd_changes rfl ?_), noteErr_ident .., by rw [noteErr_near]; rfl, by rw [noteErr_near]; rfl,
      by rw [noteErr_near]; rfl, fun _ => bit_noteErr (by decide) _ _ _,
      if o.seq = n then { o with counted := true } else o, ?_⟩
    · exact (onlyNear s _).wider rfl
    · rw [trayDst_congr (noteErr_near ..)]
      exact find?_trayDstUpd (by intro x; split <;> rfl) ho

/-- A request that has had no response for 64 µs: it is counted once, its device reported, and it is sent again where a path is. -/
theorem noResponse_late_facts {o : TrayOut} (ho : (trayDst s d).out.find? (fun x => x.seq == n) = some o) (ht : o.sent + 40000 ≤ s.tb) :
    let t := noResponse d n s
    OnlyChanges [.dev, .near, .links, .out] s t ∧ t.near.timeout = (if o.counted then s.near.timeout else satInc s.near.timeout)
      ∧ (o.counted = false → bit t.dev.err 8 = true)
      ∧ (mayEmit s = true → slUp s = true → ∃ m ∈ (link t 31).queue, m.pkt = .sl (.suspect (devOfSlot s d)))
      ∧ t.near.resent = (if (trayRoute s d).isSome then satInc s.near.resent else s.near.resent)
      ∧ ∀ x ∈ (trayDst t d).out, x.seq = n → x.sent = s.tb := by
  obtain ⟨honly, hident, hlstate, hresent, htimeout, herr, o', ho'⟩ := timeoutCounted_facts ho
  rw [noResponse_late ho ht]
  generalize timeoutCounted d n o s = u at *
  have hpair : u.pair = s.pair := honly .pair rfl
  have hmaint : u.maint = s.maint := honly .maint rfl
  have hlinks : u.links = s.links := honly .links rfl
  have hdev : devOfSlot u d = devOfSlot s d := by simp only [devOfSlot, myTray, hident]
  rw [hdev]
  have hsent : OnlyChanges [.links] u (sendSuspect (devOfSlot s d) u) := sendSuspect_changes rfl (.refl _ u)
  have hq : Queues u (sendSuspect (devOfSlot s d) u) := sendSuspect_queues
  have hreport : mayEmit s = true → slUp s = true → ∃ m ∈ (link (sendSuspect (devOfSlot s d) u) 31).queue,
      m.pkt = .sl (.suspect (devOfSlot s d)) := fun he hu => by
    refine sendSuspect_waits _ ?_ ?_
    · rw [← he]; simp only [mayEmit, fenced, hpair, hmaint]
    · rw [← hu]; simp only [slUp, hlinks]
  generalize sendSuspect (devOfSlot s d) u = v at *
  have hv : (trayDst v d).out.find? (fun x => x.seq == n) = some o' := by rw [trayDst_congr (hsent .near rfl), ho']
  have hfound : (trayDst (restamped d n v) d).out.find? (fun x => x.seq == n) = some (if o'.seq = n then { o' with sent := v.tb } else o') :=
    find?_trayDstUpd (by intro x; split <;> rfl) hv
  have htb : v.tb = s.tb := (hsent .tb rfl).trans (honly .tb rfl)
  have hroute : trayRoute (restamped d n v) d = trayRoute s d :=
    trayRoute_congr (by rw [← hident]; exact congrArg Dev.ident (hsent .dev rfl)) ((hsent .pair rfl).trans hpair)
      (by rw [← hlstate]; exact congrArg Near.lstate (hsent .near rfl))
      (((Queues.of_links hlinks).trans hq).trans (.of_links rfl)) d
  obtain ⟨hkeptTimeout, hkeptResent, hstamp⟩ := resendReq_near hfound
  have hframe : OnlyChanges [.near, .links] (restamped d n v) (resendReq d n (restamped d n v)) := resendReq_changes rfl (.refl _ _)
  refine ⟨?_, ?_, fun hc => ?_, fun he hu => ?_, ?_, ?_⟩
  · exact (honly.wider rfl).trans ((hsent.wider rfl).trans ((trayDstUpd_changes rfl (.refl [.dev, .near, .links, .out] v)).trans (hframe.wider rfl)))
  · rw [hkeptTimeout, ← htimeout, ← hsent .near rfl]; rfl
  · rw [hframe .dev rfl, ← herr hc]
    exact congrArg (fun x : Dev => bit x.err 8) (hsent .dev rfl)
  · obtain ⟨m, hm, hp⟩ := hreport he hu
    exact ⟨m, resendReq_queues.mem hm, hp⟩
  · rw [hkeptResent, hroute, ← hresent, ← hsent .near rfl]; rfl
  · refine hstamp s.tb (fun x hx hseq => ?_) htb
    rw [restamped, trayDst_trayDstUpd_same] at hx
    obtain ⟨y, -, rfl⟩ := List.mem_map.1 hx
    split
    · exact htb
    · next hy => rw [if_neg hy] at hseq; exact absurd hseq hy

/-! ### A packet for another device of the tray (10 R287) -/

/-- A packet is for another device of this tray, and not from this one. -/
def forOther (p : FwdPacket) (s : State) : Prop :=
  p.hdr.dst.toNat % 4096 ≠ (myDev s).toNat ∧ p.hdr.dst.toNat % 4096 / 16 = (myTray s).toNat ∧ p.hdr.src.toNat % 4096 ≠ (myDev s).toNat

variable {p : FwdPacket}

theorem forwardAt_own (ho : ¬ forOther p s) : forwardAt p s = s := by
  refine if_pos (Decidable.byContradiction fun hc => ho ?_)
  simpa [forOther, and_assoc] using hc

theorem forwardAt_other (ho : forOther p s) : forwardAt p s =
    if linkIsUp s (nearLink s (p.hdr.dst.toNat % 4096 % 16)) then
      enqueue (nearLink s (p.hdr.dst.toNat % 4096 % 16)) (.trayFwd p.hdr p.payload) 1 0 none p.payload.length 32
        { s with near := { s.near with fwd := satInc s.near.fwd } }
    else if p.hdr.type == 0x10 || p.hdr.type == 0x06 || p.hdr.type == 0x08 then s
    else trayPacket (p.hdr.src.toNat % 16) (fun _ => .trayResp { hdr0 with
      type := 0x10, flags := 3, src := BitVec.ofNat 16 (myDev s).toNat, dst := p.hdr.src, xepoch := s.pair.epoch, seq := p.hdr.seq
      tag := p.hdr.tag, part := p.hdr.part, status := codeOf .retryLater, op := p.hdr.type, srcCl := p.hdr.srcCl } []) 0 0 none 0 s := by
  obtain ⟨hd, ht, hs⟩ := ho
  unfold forwardAt
  exact if_neg (by simp [hd, ht, hs])

theorem forwardAt_up (ho : forOther p s) (hu : linkIsUp s (nearLink s (p.hdr.dst.toNat % 4096 % 16)) = true) :
    let t := forwardAt p s
    let k := nearLink s (p.hdr.dst.toNat % 4096 % 16)
    OnlyChanges [.near, .links] s t ∧ t.near = { s.near with fwd := satInc s.near.fwd }
      ∧ (mayEmit s = true → ∃ q : Queued, (link t k).queue = (link s k).queue ++ [q] ∧ q.pkt = .trayFwd p.hdr p.payload) := by
  rw [forwardAt_other ho, if_pos hu]
  have hframe := enqueue_changes (Q := [.links]) (n := nearLink s (p.hdr.dst.toNat % 4096 % 16)) (pkt := .trayFwd p.hdr p.payload) (cls := 1)
    (tc := 0) (tenant := none) (payload := p.payload.length) (hdr := 32) rfl
    (.refl _ { s with near := { s.near with fwd := satInc s.near.fwd } })
  exact ⟨((onlyNear s _).wider rfl).trans (hframe.wider rfl), hframe .near rfl, fun he => enqueue_last _ _ _ _ _ _ he⟩

end

/-- Settles O51: each notice, response, time-out and forwarded packet, by what its check of the header says. -/
theorem trayNoticeCommands : Obligations.TrayNoticeCommands := by
  unfold Obligations.TrayNoticeCommands
  intro h count up role model pl p slot seq s fits d n found
  have hlive {i : Instr} {f : State → State} (hi : exec i s = .next (unlessFenced f s)) (hf : fenced s = false) : exec i s = .next (f s) :=
    hi.trans (congrArg _ (unlessFenced_of f hf))
  have hfits (ty : Byte) : fits ty ↔ noticeOk s h ty = true := noticeOk_iff.symm
  refine ⟨fun hf c hc => ?_, fun hf => ⟨?_, ?_, ?_, ?_, ?_, ?_⟩⟩
  · have hstays {i : Instr} {f : State → State} (hi : exec i s = .next (unlessFenced f s)) : exec i s = .next s :=
      hi.trans (congrArg _ (unlessFenced_fenced f hf))
    simp only [List.mem_cons, List.not_mem_nil, or_false] at hc
    obtain rfl | rfl | rfl | rfl | rfl := hc
    · exact hstays (f := creditAt h count) rfl
    · exact hstays (f := lstateAt h up role model) rfl
    · exact hstays (f := respAt h pl) rfl
    · exact hstays (f := noResponse slot.toNat seq.toNat) rfl
    · exact hstays (f := forwardAt p) rfl
  · have hexec : exec (.credit h count) s = .next (creditAt h count s) := hlive rfl hf
    intro ok
    have hok : ok ↔ creditFits h s := and_congr_left' (hfits _)
    refine ⟨fun hno => hexec.trans (congrArg _ (creditAt_unfit count (mt hok.2 hno))),
      fun hy hg => hexec.trans (congrArg _ (creditAt_denied count (hok.1 hy) hg)), fun hy hg => ?_⟩
    obtain ⟨m, hm⟩ := granted_cluster hg
    rw [creditAt_granted count (hok.1 hy) hg hm] at hexec
    refine ⟨m, hm, fun hold => ?_, fun hnew => ⟨⟨_, hexec⟩, fun hw ha => ?_⟩⟩
    · rw [hexec, if_neg (Bool.eq_false_iff.1 hold)]
    · rw [hexec, if_pos hnew, creditBack_quiet (by exact hw) (by exact ha)]
  · have hexec : exec (.lstate h up role model) s = .next (lstateAt h up role model s) := hlive rfl hf
    intro ok
    have hok : ok ↔ lstateFits h s := and_congr_left' (hfits _)
    refine ⟨fun hno => hexec.trans (congrArg _ (lstateAt_unfit _ _ _ (mt hok.2 hno))), fun hy => ⟨_, hexec, ?_⟩⟩
    rw [lstateAt_fits _ _ _ (hok.1 hy)]
    have hframe := creditsRepath_changes (Q := [.links]) (before := s) rfl (.refl _ { s with near := { s.near with
      lstate := Tab.put s.near.lstate (srcDev h % 16) { links := up, role := role, model := model } } })
    exact ⟨((onlyNear s _).wider rfl).trans (hframe.wider rfl), hframe .near rfl⟩
  · have hexec : exec (.resp h pl) s = .next (respAt h pl s) := hlive rfl hf
    refine ⟨fun hno => hexec.trans (congrArg _ (respAt_unfit pl hno)), fun hy hnone => ?_, fun hy c hc => ⟨?_, ?_, ?_⟩⟩
    all_goals rw [respAt_fits pl hy] at hexec
    · rw [hexec, hnone]
    · intro hsrc hne
      rw [hexec, hc]
      exact congrArg _ ((if_neg hsrc).trans (if_neg hne))
    · intro hsrc hretry o ho
      rw [hc] at hexec
      replace hexec := hexec.trans (congrArg _ ((if_neg hsrc).trans (if_pos hretry)))
      refine ⟨fun hroute => hexec.trans (congrArg _ (resendReq_waits hroute)), fun r hroute => ⟨_, hexec, resendReq_changes rfl (.refl _ s), ?_⟩⟩
      rw [(resendReq_near ho).2.1, hroute]
      rfl
    · intro hsrc hgood hwait hfences o ho hwhy
      rw [hc] at hexec
      replace hexec := hexec.trans (congrArg _ (if_pos hsrc))
      rw [trayEnd_success pl ho hwhy hgood hwait hfences] at hexec
      have hframe := nearDrained_changes (Q := [.links]) rfl (.refl _ (trayDstUpd d (fun x => advanceThrough (x.answered.length + 1)
        { x with out := x.out.filter (fun o => o.seq != n), answered := x.answered ++ [n] }) s))
      refine ⟨_, hexec, (trayDstUpd_changes rfl (.refl _ s)).trans (hframe.wider rfl), ?_, fun k hk => ?_⟩
      · rw [trayDst_congr (hframe .near rfl), trayDst_trayDstUpd_same]
        exact (advanceThrough_frame _ _).1
      · rw [trayDst_congr (hframe .near rfl), trayDst_trayDstUpd_other _ hk]
  · exact fun hx => (hlive rfl hf).trans (congrArg _ (noResponse_none hx))
  · exact fun o ho => ⟨fun ht => (hlive rfl hf).trans (congrArg _ (noResponse_early ho ht)),
      fun ht => ⟨_, hlive rfl hf, noResponse_late_facts ho ht⟩⟩
  · have hexec : exec (.trayForward p) s = .next (forwardAt p s) := hlive rfl hf
    intro g far k other
    refine ⟨fun hno => hexec.trans (congrArg _ (forwardAt_own hno)), fun ho hu => ⟨_, hexec, forwardAt_up ho hu⟩, fun ho hd ht => ?_,
      fun ho hd h1 h2 h3 => ?_⟩
    all_goals rw [forwardAt_other ho, if_neg (Bool.eq_false_iff.1 hd)] at hexec
    · exact hexec.trans (congrArg _ (if_pos (by simpa [or_assoc] using ht)))
    · rw [if_neg (by simpa [not_or] using ⟨⟨h1, h2⟩, h3⟩)] at hexec
      exact ⟨_, hexec, trayPacket_changes rfl (.refl _ s)⟩

end Sys2Proof.Machine
end

section
/-!
A checkpoint's answer lets the copy of a bring-in go on (09 R248, R251). A page of the copy that cannot be read may take a plate with it, and
a member whose plate is lost serves no forme any longer (06 R164, 07 R177, R189; 09 R240).
-/

namespace Sys2Proof.Machine

/-- A galley with one sealed page, in frame 40000, which is coded and has not been sent; its map has been. -/
def codedGalley : Galley :=
  { (default : Galley) with reqId := 5, layers := 1, copied := true, mirrored := false
                            layer := [(0, { pages := [(0, { frame := 40000, state := 2, coded := true })] })] }

/-- A plate of one frame in T1, in frame 40001. -/
def nextPlate : PlateRef :=
  { (default : PlateRef) with place := 1, plainLen := 65536, dest := BitVec.ofNat _ ((40001 - Config.reserveFrames) * 65536) }

/-- A survivor that has asked for checkpoint 1. The header of its coded page says 33 slugs, 2,048 bytes more than a frame holds, and the
first granule of the next frame, which holds the plate, has lost its data. -/
def longPage : State :=
  { pair := { live := 1, state := 5, ckptAsked := some 1 }
    forme := { state := 3, resident := [nextPlate] }
    tier := { t1 := [(40000 * 65536 + 0xE002, 33)], lost := [40001 * 128] }
    req := { galleys := [(5, codedGalley)] } }

/-- The read of the page runs into the plate's frame and loses the plate: STATE goes back to PLATES, and the pair state is NONE. -/
theorem longPage_pair : (ckptAcked (1 : Word).toNat .good longPage).pair.state = 0 := by decide +kernel

/-- CKPT_ACK on a device that is not fenced (09 R251). -/
theorem exec_ckptAck {s : State} (n : WithReads Word) (hf : fenced s = false) :
    exec (.ckptAck n) s = .next (ckptAcked n.val.toNat n.reads s) := congrArg _ (unlessFenced_of _ hf)

/-- Refutes O27: the answer of a checkpoint that is not the final one is to leave the survivor in SILVER_SRC in every state. In `longPage`
the copy that goes on loses a plate, and the pair state is NONE. -/
theorem not_bringInCommands : ¬ Obligations.BringInCommands := by
  unfold Obligations.BringInCommands
  intro h
  obtain ⟨_, _, _, _, hack, _⟩ := h default default 1 default longPage rfl
  obtain ⟨t, he, _, hsrc⟩ := hack rfl rfl .good
  rw [exec_ckptAck _ rfl] at he
  obtain rfl := Host.Outcome.next.inj he
  have h5 : (ckptAcked (1 : Word).toNat .good longPage).pair.state = 5 := hsrc.1
  rw [longPage_pair] at h5
  exact absurd h5 (by decide)

end Sys2Proof.Machine
end

section
/-!
The lease, the epochs and the exclusion table (09 R259 to R263) through every function that an EXCLUDE, a JOIN or an ADMIT calls: those that leave
the block PAIR alone by their `_changes` rules, the others by the rules of what they call, in the order of the model.
-/

namespace Sys2Proof.Machine

/-- Every block but PAIR that a command other than a reset can write. -/
def notPair : List Block :=
  [.dev, .maint, .sec, .drbg, .host, .forme, .codec, .tier, .clusters, .sched, .repro, .req, .near, .rma, .links, .tb, .free, .out]

theorem OnlyChanges.pair_eq {s t : State} (h : OnlyChanges notPair s t) : t.pair = s.pair := h .pair rfl

/-- What R259 to R263 keep in PAIR: LIVE_STATUS, the epoch, the lease, what is outstanding on SL, the exclusion table and its count. -/
def Pair.liveness (p : Pair) :=
  (p.live, p.epoch, p.expiry, p.renews, p.admits, p.lastRenew, p.excl, p.exclusions)

/-- The other registers of PAIR do not enter. -/
@[simp] theorem Pair.liveness_mk {state code busy silverRate silverTotal silverDone ckpt journal held silvers lost cursor ckptCursor sinceCkpt
    ckptAsked finalCkpt stored ckptWait untrusted alone mirrors nextMirror mapEpoch mapLease mapSlot maps live epoch expiry renew suspect
    exclusions excl slSeq renews admits lastRenew} : (Pair.mk state code busy silverRate silverTotal silverDone ckpt journal held silvers lost
      cursor ckptCursor sinceCkpt ckptAsked finalCkpt stored ckptWait untrusted alone mirrors nextMirror mapEpoch mapLease mapSlot maps live epoch
      expiry renew suspect exclusions excl slSeq renews admits lastRenew).liveness =
      (live, epoch, expiry, renews, admits, lastRenew, excl, exclusions) := rfl

@[simp] theorem Pair.liveness_eta (p : Pair) : (p.live, p.epoch, p.expiry, p.renews, p.admits, p.lastRenew, p.excl, p.exclusions) = p.liveness := rfl

@[simp] theorem ite_liveness {c : Prop} [Decidable c] (a b : State) :
    (if c then a else b).pair.liveness = if c then a.pair.liveness else b.pair.liveness := by
  split <;> rfl

@[simp] theorem foldl_liveness {A : Type} {f : State → A → State} (hf : ∀ u a, (f u a).pair.liveness = u.pair.liveness) (l : List A) (s : State) :
    (l.foldl f s).pair.liveness = s.pair.liveness := by
  induction l generalizing s with
  | nil => rfl
  | cons a rest ih => exact (ih _).trans (hf s a)

/-! ### Functions that leave the block PAIR alone -/

@[simp] theorem countGranules_pair (wr : Bool) (gs : List Nat) (s : State) : (countGranules wr gs s).pair = s.pair :=
  (countGranules_changes rfl (.refl notPair s)).pair_eq
@[simp] theorem t1Write_pair (addr : Nat) (bs : List Byte) (s : State) : (t1Write addr bs s).pair = s.pair :=
  (t1Write_changes rfl (.refl notPair s)).pair_eq
@[simp] theorem meterT1_pair (tenant : BitVec 16) (n : Nat) (s : State) : (meterT1 tenant n s).pair = s.pair :=
  (meterT1_changes rfl (.refl notPair s)).pair_eq
@[simp] theorem meterT2_pair (tenant : BitVec 16) (n : Nat) (s : State) : (meterT2 tenant n s).pair = s.pair :=
  (meterT2_changes rfl (.refl notPair s)).pair_eq
@[simp] theorem trayIssue_pair (d : Nat) (r : TrayReq) (why : TrayWhy) (s : State) : (trayIssue d r why s).pair = s.pair :=
  (trayIssue_changes rfl (.refl notPair s)).pair_eq
@[simp] theorem trayDrainAll_pair (s : State) : (trayDrainAll s).pair = s.pair :=
  (trayDrainAll_changes rfl (.refl notPair s)).pair_eq
@[simp] theorem sendFw_pair (d : DevId) (epoch : Word) (m : FwMsg) (s : State) : (sendFw d epoch m s).pair = s.pair :=
  (sendFw_changes rfl (.refl notPair s)).pair_eq
@[simp] theorem recRetire_pair (q : ReqId) (c : Status) (s : State) : (recRetire q c s).pair = s.pair :=
  (recRetire_changes rfl (.refl notPair s)).pair_eq
@[simp] theorem addCond_pair (q : ReqId) (c : Status) (s : State) : (addCond q c s).pair = s.pair :=
  (addCond_changes rfl (.refl notPair s)).pair_eq
@[simp] theorem quotaReturn_pair (t : BitVec 16) (n : Nat) (s : State) : (quotaReturn t n s).pair = s.pair :=
  (quotaReturn_changes rfl (.refl notPair s)).pair_eq
@[simp] theorem slugFailure_pair (crc : Bool) (s : State) : (slugFailure crc s).pair = s.pair :=
  (slugFailure_changes rfl (.refl notPair s)).pair_eq
@[simp] theorem pageUpd_pair (q : ReqId) (k : Nat) (l : Nat) (p : Nat) (f : Page → Page) (s : State) : (pageUpd q k l p f s).pair = s.pair :=
  (pageUpd_changes rfl (.refl notPair s)).pair_eq
@[simp] theorem syncOpen_pair (q : ReqId) (l : Nat) (s : State) : (syncOpen q l s).pair = s.pair :=
  (syncOpen_changes rfl (.refl notPair s)).pair_eq
@[simp] theorem emptyPage_pair (q : ReqId) (k : Nat) (l : Nat) (p : Nat) (s : State) : (emptyPage q k l p s).pair = s.pair :=
  (emptyPage_changes rfl (.refl notPair s)).pair_eq
@[simp] theorem reportEnd_pair (q : ReqId) (c : Status) (s : State) : (reportEnd q c s).pair = s.pair :=
  (reportEnd_changes rfl (.refl notPair s)).pair_eq
@[simp] theorem addRepair_pair (e : RepairEntry) (s : State) : (addRepair e s).pair = s.pair :=
  (addRepair_changes rfl (.refl notPair s)).pair_eq
@[simp] theorem frameRetired_pair (f : Nat) (s : State) : (frameRetired f s).pair = s.pair :=
  (frameRetired_changes rfl (.refl notPair s)).pair_eq
@[simp] theorem granuleFail_pair (mac : Bool) (addr : Nat) (s : State) : (granuleFail mac addr s).pair = s.pair :=
  (granuleFail_changes rfl (.refl notPair s)).pair_eq
@[simp] theorem appendRow_pair (sender : DevId) (a : AppendHdr) (row : List Byte) (s : State) : (appendRow sender a row s).2.pair = s.pair :=
  (appendRow_changes rfl (.refl notPair s)).pair_eq
@[simp] theorem freeGalley_pair (q : ReqId) (s : State) : (freeGalley q s).pair = s.pair :=
  (freeGalley_changes rfl (.refl notPair s)).pair_eq
@[simp] theorem chanDeliver_pair (n : Nat) (ch : Nat) (at_ : Option Nat) (m : List Byte) (s : State) : (chanDeliver n ch at_ m s).pair = s.pair :=
  (chanDeliver_changes rfl (.refl notPair s)).pair_eq
@[simp] theorem breakChannels_pair (sel : ChanPeer → Bool) (c : Status) (s : State) : (breakChannels sel c s).pair = s.pair :=
  (breakChannels_changes rfl (.refl notPair s)).pair_eq
@[simp] theorem partLoad_pair (p : Nat) (off : Nat) (n : Nat) (s : State) : (partLoad p off n s).2.pair = s.pair :=
  (partLoad_changes rfl (.refl notPair s)).pair_eq
@[simp] theorem markLost_pair (g : Nat) (s : State) : (markLost g s).pair = s.pair :=
  (markLost_changes rfl (.refl notPair s)).pair_eq
@[simp] theorem stageDropped_pair (q : ReqId) (s : State) : (stageDropped q s).pair = s.pair :=
  (stageDropped_changes rfl (.refl notPair s)).pair_eq
@[simp] theorem runThen_pair (t : MirrorThen) (s : State) : (runThen t s).pair = s.pair :=
  (runThen_changes rfl (.refl notPair s)).pair_eq
@[simp] theorem toWritten_pair (q : ReqId) (l : Nat) (pos : Nat) (s : State) : (toWritten q l pos s).pair = s.pair :=
  (toWritten_changes rfl (.refl notPair s)).pair_eq
@[simp] theorem pausedHere_pair (q : ReqId) (s : State) : (pausedHere q s).pair = s.pair :=
  (pausedHere_changes rfl (.refl notPair s)).pair_eq
@[simp] theorem wordFollows_pair (q : ReqId) (w : Nat) (s : State) : (wordFollows q w s).pair = s.pair :=
  (wordFollows_changes rfl (.refl notPair s)).pair_eq
@[simp] theorem dropAcked_pair (q : ReqId) (slot : Nat) (s : State) : (dropAcked q slot s).pair = s.pair :=
  (dropAcked_changes rfl (.refl notPair s)).pair_eq
@[simp] theorem sendTokens_pair (q : ReqId) (pos : Nat) (toks : List Word) (s : State) : (sendTokens q pos toks s).pair = s.pair :=
  (sendTokens_changes rfl (.refl notPair s)).pair_eq
@[simp] theorem commitIssue_pair (q : ReqId) (s : State) : (commitIssue q s).pair = s.pair :=
  (commitIssue_changes rfl (.refl notPair s)).pair_eq
@[simp] theorem ownerSwap_pair (q : ReqId) (d : DevId) (why : TrayWhy) (s : State) : (ownerSwap q d why s).pair = s.pair :=
  (ownerSwap_changes rfl (.refl notPair s)).pair_eq
@[simp] theorem handoverStart_pair (q : ReqId) (s : State) : (handoverStart q s).pair = s.pair :=
  (handoverStart_changes rfl (.refl notPair s)).pair_eq
@[simp] theorem handoverDone_pair (q : ReqId) (s : State) : (handoverDone q s).pair = s.pair :=
  (handoverDone_changes rfl (.refl notPair s)).pair_eq
@[simp] theorem pauseDone_pair (q : ReqId) (s : State) : (pauseDone q s).pair = s.pair :=
  (pauseDone_changes rfl (.refl notPair s)).pair_eq
@[simp] theorem nextSegment_pair (q : ReqId) (e : StepEnd) (s : State) : (nextSegment q e s).pair = s.pair :=
  (nextSegment_changes rfl (.refl notPair s)).pair_eq
@[simp] theorem recallBegin_pair (q : ReqId) (s : State) : (recallBegin q s).pair = s.pair :=
  (recallBegin_changes rfl (.refl notPair s)).pair_eq
@[simp] theorem reserved_pair (q : ReqId) (n : Nat) (s : State) : (reserved q n s).pair = s.pair :=
  (reserved_changes rfl (.refl notPair s)).pair_eq
@[simp] theorem recordTo_pair (q : ReqId) (s : State) : (recordTo q s).pair = s.pair :=
  (recordTo_changes rfl (.refl notPair s)).pair_eq
@[simp] theorem takeOverAnswer_pair (q : ReqId) (c : Status) (old : Nat) (s : State) : (takeOverAnswer q c old s).pair = s.pair :=
  (takeOverAnswer_changes rfl (.refl notPair s)).pair_eq
@[simp] theorem silverClear_pair (s : State) : (silverClear s).pair = s.pair :=
  (silverClear_changes rfl (.refl notPair s)).pair_eq
@[simp] theorem freeAllGalleys_pair (s : State) : (freeAllGalleys s).pair = s.pair :=
  (freeAllGalleys_changes rfl (.refl notPair s)).pair_eq
@[simp] theorem freeMemberRecs_pair (s : State) : (freeMemberRecs s).pair = s.pair :=
  (freeMemberRecs_changes rfl (.refl notPair s)).pair_eq
@[simp] theorem verifyGalley_pair (q : ReqId) (s : State) : (verifyGalley q s).pair = s.pair :=
  (verifyGalley_changes rfl (.refl notPair s)).pair_eq
@[simp] theorem copyCheck_pair (q : ReqId) (s : State) : (copyCheck q s).pair = s.pair :=
  (copyCheck_changes rfl (.refl notPair s)).pair_eq
@[simp] theorem copyFailed_pair (q : ReqId) (c : Status) (s : State) : (copyFailed q c s).pair = s.pair :=
  (copyFailed_changes rfl (.refl notPair s)).pair_eq
@[simp] theorem viaLost_pair (v : Nat) (s : State) : (viaLost v s).pair = s.pair :=
  (viaLost_changes rfl (.refl notPair s)).pair_eq
@[simp] theorem creditsRepath_pair (before : State) (s : State) : (creditsRepath before s).pair = s.pair :=
  (creditsRepath_changes rfl (.refl notPair s)).pair_eq
@[simp] theorem reissue_pair (d : Nat) (r : TrayReq) (w : TrayWhy) (s : State) : (reissue d r w s).pair = s.pair :=
  (reissue_changes rfl (.refl notPair s)).pair_eq
@[simp] theorem handoverAgain_pair (d : Nat) (q : ReqId) (s : State) : (handoverAgain d q s).pair = s.pair :=
  (handoverAgain_changes rfl (.refl notPair s)).pair_eq
@[simp] theorem pauseAgain_pair (d : Nat) (q : ReqId) (s : State) : (pauseAgain d q s).pair = s.pair :=
  (pauseAgain_changes rfl (.refl notPair s)).pair_eq
@[simp] theorem takeOverAgain_pair (d : Nat) (q : ReqId) (s : State) : (takeOverAgain d q s).pair = s.pair :=
  (takeOverAgain_changes rfl (.refl notPair s)).pair_eq
@[simp] theorem fenceCount_pair (d : Nat) (n : Nat) (c : Status) (s : State) : (fenceCount d n c s).pair = s.pair :=
  (fenceCount_changes rfl (.refl notPair s)).pair_eq
@[simp] theorem rmaExcluded_pair (d : Nat) (s : State) : (rmaExcluded d s).pair = s.pair :=
  (rmaExcluded_changes rfl (.refl notPair s)).pair_eq
@[simp] theorem homeStore_pair (h : TrayHdr) (d : List Byte) (s : State) : (homeStore h d s).pair = s.pair :=
  (homeStore_changes rfl (.refl notPair s)).pair_eq
@[simp] theorem turnTaken_pair (h : TrayHdr) (s : State) : (turnTaken h s).pair = s.pair :=
  (turnTaken_changes rfl (.refl notPair s)).pair_eq
@[simp] theorem mapWriteAt_pair (h : TrayHdr) (q : ReqId) (off : Nat) (bs : List Byte) (s : State) : (mapWriteAt h q off bs s).pair = s.pair :=
  (mapWriteAt_changes rfl (.refl notPair s)).pair_eq
@[simp] theorem recordAt_pair (h : TrayHdr) (q : ReqId) (u : RecordUpdate) (s : State) : (recordAt h q u s).pair = s.pair :=
  (recordAt_changes rfl (.refl notPair s)).pair_eq
@[simp] theorem ownerLosesMember_pair (q : ReqId) (d : Nat) (s : State) : (ownerLosesMember q d s).pair = s.pair :=
  (ownerLosesMember_changes rfl (.refl notPair s)).pair_eq
@[simp] theorem anchorLoss_pair (d : Nat) (q : ReqId) (s : State) : (anchorLoss d q s).pair = s.pair :=
  (anchorLoss_changes rfl (.refl notPair s)).pair_eq
@[simp] theorem podExcluded_pair (d : Nat) (s : State) : (podExcluded d s).pair = s.pair :=
  (podExcluded_changes rfl (.refl notPair s)).pair_eq
theorem restorePage_pair {q : ReqId} {k l p : Nat} {sealed : Bool} {w : BitVec 64} {tags : Tab Word} {bytes : List Byte} {s t : State}
    (h : restorePage q k l p sealed w tags bytes s = some t) : t.pair = s.pair := (restorePage_changes_of h rfl (.refl notPair s)).pair_eq
theorem openPage_pair {q : ReqId} {k l p : Nat} {st : BitVec 3} {s t : State} (h : openPage q k l p st s = some t) : t.pair = s.pair :=
  (openPage_changes_of rfl h (.refl notPair s)).pair_eq
@[simp] theorem clustersFenced_pair (s : State) : (clustersFenced s).pair = s.pair :=
  (clustersFenced_changes rfl (.refl notPair s)).pair_eq
@[simp] theorem retireFirst_pair (s : State) : (retireFirst s).pair = s.pair :=
  (retireFirst_changes rfl (.refl notPair s)).pair_eq
@[simp] theorem rmaReadmit_pair (s : State) : (rmaReadmit s).pair = s.pair :=
  (rmaReadmit_changes rfl (.refl notPair s)).pair_eq
@[simp] theorem sendLstate_pair (s : State) : (sendLstate s).pair = s.pair :=
  (sendLstate_changes rfl (.refl notPair s)).pair_eq
@[simp] theorem homeFinish_liveness (h : TrayHdr) (c : Status) (b : List Byte) (s : State) :
    (homeFinish h c b s).pair.liveness = s.pair.liveness := by
  rw [homeFinish_pair]

/-! ### Functions that write other registers of PAIR -/

@[simp] theorem pairFollow_liveness (s : State) : (pairFollow s).pair.liveness = s.pair.liveness := by
  simp [pairFollow]
@[simp] theorem plateLost_liveness (r : PlateRef) (s : State) : (plateLost r s).pair.liveness = s.pair.liveness := by
  simp [plateLost]
@[simp] theorem retireFrame_liveness (f : Nat) (s : State) : (retireFrame f s).pair.liveness = s.pair.liveness := by
  simp only [retireFrame]
  repeat' split
  all_goals simp
@[simp] theorem compareSeal_liveness (q : ReqId) (l : Nat) (p : Nat) (s : State) : (compareSeal q l p s).pair.liveness = s.pair.liveness := by
  simp only [compareSeal]
  repeat' split
  all_goals simp
@[simp] theorem granuleLost_liveness (mac : Bool) (addr : Nat) (s : State) : (granuleLost mac addr s).pair.liveness = s.pair.liveness := by
  simp [granuleLost]
@[simp] theorem sliceLineFail_liveness (r : Nat) (off : Nat) (s : State) : (sliceLineFail r off s).2.pair.liveness = s.pair.liveness := by
  simp only [sliceLineFail]
  repeat' split
  all_goals simp
@[simp] theorem slugLost_liveness (crc : Bool) (pl : Place) (s : State) : (slugLost crc pl s).pair.liveness = s.pair.liveness := by
  simp only [slugLost]
  repeat' split
  all_goals simp
@[simp] theorem readOutcome_liveness (o : ReadOutcome) (s : State) : (readOutcome o s).2.pair.liveness = s.pair.liveness := by
  simp only [readOutcome]
  repeat' split
  all_goals simp
@[simp] theorem journal_liveness (j : List JournalItem) (s : State) : (journal j s).pair.liveness = s.pair.liveness := by
  simp [journal]
@[simp] theorem mirrorSend_liveness (g : Galley) (rs : List TrayReq) (t : MirrorThen) (s : State) :
    (mirrorSend g rs t s).pair.liveness = s.pair.liveness := by
  simp only [mirrorSend]
  repeat' split
  all_goals simp
@[simp] theorem mirrorAck_liveness (id : Nat) (s : State) : (mirrorAck id s).pair.liveness = s.pair.liveness := by
  unfold mirrorAck
  split <;> simp
@[simp] theorem mirrorsAlone_liveness (s : State) : (mirrorsAlone s).pair.liveness = s.pair.liveness := by
  simp [mirrorsAlone]
@[simp] theorem spansRead_liveness (spans : List (Nat × Nat)) (reads : ReadOutcome) (s : State) :
    (spansRead spans reads s).2.pair.liveness = s.pair.liveness := by
  simp [spansRead]
@[simp] theorem commitAt_liveness (h : TrayHdr) (q : ReqId) (n : Nat) (step : Word) (u : RecordUpdate) (reads : ReadOutcome) (s : State) :
    (commitAt h q n step u reads s).pair.liveness = s.pair.liveness := by
  simp only [commitAt]
  repeat' split
  all_goals simp
@[simp] theorem appendAt_liveness (sender : DevId) (a : AppendHdr) (row : List Byte) (reads : ReadOutcome) (s : State) :
    (appendAt sender a row reads s).2.pair.liveness = s.pair.liveness := by
  have hrow (u : State) : (appendRow sender a row u).2.pair.liveness = u.pair.liveness := by simp
  simp only [appendAt]
  repeat' split
  all_goals simp
  case h_1.isTrue h _ => simpa [h] using hrow s
@[simp] theorem ownerCasAt_liveness (h : TrayHdr) (q : ReqId) (cmp : Nat) (new : Nat) (s : State) :
    (ownerCasAt h q cmp new s).pair.liveness = s.pair.liveness := by
  unfold ownerCasAt
  split <;> simp
@[simp] theorem moverRead_liveness (g : Galley) (items : List (Nat × Nat × Nat)) (reads : ReadOutcome) (s : State) :
    (moverRead g items reads s).2.pair.liveness = s.pair.liveness := by
  simp only [moverRead]
  repeat' split
  all_goals simp
@[simp] theorem memberDrop_liveness (q : ReqId) (s : State) : (memberDrop q s).pair.liveness = s.pair.liveness := by
  unfold memberDrop
  split <;> simp
@[simp] theorem stageDrop_liveness (q : ReqId) (c : Status) (s : State) : (stageDrop q c s).pair.liveness = s.pair.liveness := by
  simp only [stageDrop]
  repeat' split
  all_goals simp
@[simp] theorem endStage_liveness (q : ReqId) (c : Status) (s : State) : (endStage q c s).pair.liveness = s.pair.liveness := by
  unfold endStage
  split <;> simp
@[simp] theorem pausedEnds_liveness (q : ReqId) (s : State) : (pausedEnds q s).pair.liveness = s.pair.liveness := by
  simp only [pausedEnds]
  repeat' split
  all_goals simp
@[simp] theorem commitAcked_liveness (q : ReqId) (one : Bool) (s : State) : (commitAcked q one s).pair.liveness = s.pair.liveness := by
  simp only [commitAcked]
  repeat' split
  all_goals simp
@[simp] theorem commitFailed_liveness (q : ReqId) (c : Status) (s : State) : (commitFailed q c s).pair.liveness = s.pair.liveness := by
  simp only [commitFailed]
  split <;> simp
@[simp] theorem commitAnswer_liveness (q : ReqId) (c : Status) (s : State) : (commitAnswer q c s).pair.liveness = s.pair.liveness := by
  unfold commitAnswer
  split <;> simp
@[simp] theorem reserveAnswer_liveness (q : ReqId) (ok : Bool) (s : State) : (reserveAnswer q ok s).pair.liveness = s.pair.liveness := by
  unfold reserveAnswer
  split <;> simp
@[simp] theorem silverPage_liveness (q : ReqId) (k : Nat) (l : Nat) (p : Nat) (reads : ReadOutcome) (s : State) :
    (silverPage q k l p reads s).pair.liveness = s.pair.liveness := by
  unfold silverPage
  split <;> simp
@[simp] theorem silverMap_liveness (q : ReqId) (released : Bool) (s : State) : (silverMap q released s).pair.liveness = s.pair.liveness := by
  unfold silverMap
  split <;> simp
@[simp] theorem silverHold_liveness (q : ReqId) (reads : ReadOutcome) (s : State) : (silverHold q reads s).pair.liveness = s.pair.liveness := by
  unfold silverHold
  split <;> simp
@[simp] theorem ckptAsk_liveness (final : Bool) (s : State) : (ckptAsk final s).pair.liveness = s.pair.liveness := by
  simp [ckptAsk]
@[simp] theorem silverPump_liveness (reads : ReadOutcome) (fuel : Nat) (s : State) : (silverPump reads fuel s).pair.liveness = s.pair.liveness := by
  induction fuel generalizing s with
  | zero => simp [silverPump]
  | succ fuel ih =>
    simp only [silverPump]
    repeat' split
    all_goals simp [ih]
@[simp] theorem silverRun_liveness (reads : ReadOutcome) (s : State) : (silverRun reads s).pair.liveness = s.pair.liveness := by
  unfold silverRun
  split <;> simp
@[simp] theorem pairState_liveness (st : BitVec 4) (s : State) : (pairState st s).pair.liveness = s.pair.liveness := by
  simp [pairState]
@[simp] theorem silverCode_liveness (c : Status) (s : State) : (silverCode c s).pair.liveness = s.pair.liveness := by
  simp [silverCode]
@[simp] theorem silverEnd_liveness (c : Status) (s : State) : (silverEnd c s).pair.liveness = s.pair.liveness := by
  simp [silverEnd]
@[simp] theorem silverDone_liveness (s : State) : (silverDone s).pair.liveness = s.pair.liveness := by
  simp [silverDone]
@[simp] theorem ckptAcked_liveness (n : Nat) (reads : ReadOutcome) (s : State) : (ckptAcked n reads s).pair.liveness = s.pair.liveness := by
  simp [ckptAcked]
@[simp] theorem silverAnswer_liveness (r : TrayReq) (c : Status) (reads : ReadOutcome) (s : State) :
    (silverAnswer r c reads s).pair.liveness = s.pair.liveness := by
  simp only [silverAnswer]
  repeat' split
  all_goals simp
@[simp] theorem ckptStore_liveness (h : TrayHdr) (n : Nat) (cur : Nat) (page : Nat) (s : State) :
    (ckptStore h n cur page s).pair.liveness = s.pair.liveness := by
  simp [ckptStore]
@[simp] theorem ckptAt_liveness (h : TrayHdr) (n : Nat) (cur : Nat) (page : Nat) (s : State) :
    (ckptAt h n cur page s).pair.liveness = s.pair.liveness := by
  simp [ckptAt]
@[simp] theorem pageMiss_liveness (q : ReqId) (k : Nat) (l : Nat) (i : Nat) (misses : Nat) (s : State) :
    (pageMiss q k l i misses s).pair.liveness = s.pair.liveness := by
  unfold pageMiss
  split <;> simp
@[simp] theorem pageMatch_liveness (q : ReqId) (k : Nat) (l : Nat) (i : Nat) (misses : Nat) (partner : Option Digest) (s : State) :
    (pageMatch q k l i misses partner s).pair.liveness = s.pair.liveness := by
  simp only [pageMatch]
  split <;> simp
@[simp] theorem pageEnd_liveness (p : PagePart) (bytes : List Byte) (s : State) : (pageEnd p bytes s).2.pair.liveness = s.pair.liveness := by
  simp only [pageEnd]
  split
  · rfl
  · split
    · simp
    · next h =>
      repeat' split
      all_goals simp [restorePage_pair h]
@[simp] theorem pageArrive_liveness (p : PagePart) (s : State) : (pageArrive p s).2.pair.liveness = s.pair.liveness := by
  simp only [pageArrive]
  repeat' split
  all_goals simp
@[simp] theorem historyPut_liveness (p : PagePart) (s : State) : (historyPut p s).2.pair.liveness = s.pair.liveness := by
  simp only [historyPut]
  split
  · rfl
  · split
    · rfl
    · next u h =>
      have hu : u.pair.liveness = s.pair.liveness := by
        split at h
        · rw [openPage_pair h]
        · rw [← Option.some.inj h]
      split
      · exact hu
      · repeat' split
        all_goals simp
        all_goals exact hu
@[simp] theorem pageAt_liveness (h : TrayHdr) (p : PagePart) (s : State) : (pageAt h p s).pair.liveness = s.pair.liveness := by
  simp only [pageAt]
  repeat' split
  all_goals simp
@[simp] theorem silverSetup_liveness (qs : List QuotaCopy) (ls : List LatentSlotCopy) (s : State) :
    (silverSetup qs ls s).pair.liveness = s.pair.liveness := by
  simp [silverSetup]
@[simp] theorem takePaused_liveness (q : ReqId) (s : State) : (takePaused q s).pair.liveness = s.pair.liveness := by
  unfold takePaused
  split <;> simp
@[simp] theorem serveAll_liveness (s : State) : (serveAll s).pair.liveness = s.pair.liveness := by
  simp [serveAll]
@[simp] theorem galleyLost_liveness (q : ReqId) (s : State) : (galleyLost q s).pair.liveness = s.pair.liveness := by
  simp [galleyLost]
@[simp] theorem unsentLost_liveness (s : State) : (unsentLost s).pair.liveness = s.pair.liveness := by
  simp [unsentLost]
@[simp] theorem partnerExcluded_liveness (s : State) : (partnerExcluded s).pair.liveness = s.pair.liveness := by
  simp [partnerExcluded]
@[simp] theorem mirrorEnds_liveness (id : Nat) (c : Status) (s : State) : (mirrorEnds id c s).pair.liveness = s.pair.liveness := by
  simp only [mirrorEnds]
  repeat' split
  all_goals simp
@[simp] theorem whyEnd_liveness (d : Nat) (r : TrayReq) (w : TrayWhy) (local_ : Bool) (c : Status) (payload : WithReads (List Byte)) (s : State) :
    (whyEnd d r w local_ c payload s).pair.liveness = s.pair.liveness := by
  simp only [whyEnd]
  repeat' split
  all_goals simp
@[simp] theorem fencesRun_liveness (s : State) : (fencesRun s).pair.liveness = s.pair.liveness := by
  simp only [fencesRun]
  refine (foldl_liveness (fun u f => ?_) _ _).trans rfl
  repeat' split
  all_goals simp
@[simp] theorem trayEnd_liveness (d : Nat) (n : Nat) (local_ : Bool) (c : Status) (payload : WithReads (List Byte)) (s : State) :
    (trayEnd d n local_ c payload s).pair.liveness = s.pair.liveness := by
  unfold trayEnd
  split <;> simp
@[simp] theorem homeLoad_liveness (h : TrayHdr) (reads : ReadOutcome) (s : State) : (homeLoad h reads s).2.2.pair.liveness = s.pair.liveness := by
  simp only [homeLoad]
  repeat' split
  all_goals simp
@[simp] theorem storeRead_liveness (h : TrayHdr) (d : List Byte) (reads : ReadOutcome) (s : State) :
    (storeRead h d reads s).2.pair.liveness = s.pair.liveness := by
  simp only [storeRead]
  repeat' split
  all_goals simp
@[simp] theorem homeAtomic_liveness (h : TrayHdr) (v : Nat) (new : Nat) (reads : ReadOutcome) (s : State) :
    (homeAtomic h v new reads s).2.2.pair.liveness = s.pair.liveness := by
  simp only [homeAtomic, atomicApply]
  split <;> simp
@[simp] theorem ownerJournal_liveness (q : ReqId) (r : TrayReq) (s : State) : (ownerJournal q r s).pair.liveness = s.pair.liveness := by
  simp [ownerJournal]
@[simp] theorem dropCopy_liveness (g : Galley) (h : TrayHdr) (s : State) : (dropCopy g h s).pair.liveness = s.pair.liveness := by
  simp [dropCopy]
@[simp] theorem dropAt_liveness (h : TrayHdr) (q : ReqId) (s : State) : (dropAt h q s).pair.liveness = s.pair.liveness := by
  simp only [dropAt]
  repeat' split
  all_goals simp
@[simp] theorem sealDigestAt_liveness (h : TrayHdr) (q : ReqId) (l : Nat) (p : Nat) (d : Digest) (s : State) :
    (sealDigestAt h q l p d s).pair.liveness = s.pair.liveness := by
  simp [sealDigestAt]
@[simp] theorem homeRun_liveness (r : TrayReq) (s : State) : (homeRun r s).pair.liveness = s.pair.liveness := by
  cases r with
  | load h reads => simp [homeRun]
  | store h d reads => simp [homeRun]
  | append h a row reads => simp [homeRun]
  | chmsg h m => simp only [homeRun]; split <;> simp
  | atomic h v new reads => simp [homeRun]
  | ownerCas h q cmp new => simp [homeRun]
  | commit h q n step u reads => simp [homeRun]
  | sealDigest h q l p d resv => simp [homeRun]
  | ownerFwd h q w => simp [homeRun]
  | mapWrite h q off bs => simp [homeRun]
  | record h q u => simp [homeRun]
  | drop h q => simp [homeRun]
  | page h p => simp [homeRun]
  | ckpt h n cur page => simp [homeRun]
  | silverSetup h qs ls => simp [homeRun]
@[simp] theorem homeExecute_liveness (r : TrayReq) (s : State) : (homeExecute r s).pair.liveness = s.pair.liveness := by
  unfold homeExecute
  split <;> simp
@[simp] theorem homeDrain_liveness (d : Nat) (fuel : Nat) (s : State) : (homeDrain d fuel s).pair.liveness = s.pair.liveness := by
  induction fuel generalizing s with
  | zero => simp [homeDrain]
  | succ fuel ih =>
    simp only [homeDrain]
    repeat' split
    all_goals simp [ih]
@[simp] theorem homeTurns_liveness (s : State) : (homeTurns s).pair.liveness = s.pair.liveness := by
  simp [homeTurns]
@[simp] theorem memberLosesOwner_liveness (q : ReqId) (d : Nat) (s : State) : (memberLosesOwner q d s).pair.liveness = s.pair.liveness := by
  unfold memberLosesOwner
  split <;> simp
@[simp] theorem lossOne_liveness (d : Nat) (q : ReqId) (s : State) : (lossOne d q s).pair.liveness = s.pair.liveness := by
  unfold lossOne
  split <;> simp
@[simp] theorem nodeLoss_liveness (d : Nat) (s : State) : (nodeLoss d s).pair.liveness = s.pair.liveness := by
  simp [nodeLoss]
@[simp] theorem trayExcluded_liveness (d : Nat) (s : State) : (trayExcluded d s).pair.liveness = s.pair.liveness := by
  simp [trayExcluded]

/-! ### EXCLUDE and JOIN (09 R261, R262) -/

/-- An EXCLUDE of another device enters its mark, and counts it; what follows of it changes neither. -/
theorem excludePeer_liveness (d : Nat) (epoch : BitVec 16) (s : State) :
    (excludePeer d epoch s).pair.liveness = { s.pair with
      exclusions := satInc s.pair.exclusions, excl := Tab.put s.pair.excl d (true, epoch) }.liveness := by
  simp [excludePeer]

theorem joinPeer_liveness (d : Nat) (epoch : BitVec 16) (s : State) :
    (joinPeer d epoch s).pair.liveness = { s.pair with excl := Tab.put s.pair.excl d (false, epoch) }.liveness := by
  simp [joinPeer]

end Sys2Proof.Machine
end

section
/-!
Liveness (09 R259 to R264; 01 R32): what waits on SL, the leases, what a device that fences itself keeps, and how it returns.
-/

namespace Sys2Proof.Machine

variable {s : State}

/-! ### Messages on SL (09 R259, R264) -/

/-- From `s` to `t` message `m` was queued on SL, and nothing else changed but the block PAIR. -/
def SlQueued (m : SlMsg) (s t : State) : Prop :=
  OnlyChanges [.pair, .links] s t ∧ t.links = { s.links with links := t.links.links }
    ∧ (∃ p : Queued, p.pkt = .sl m ∧ p.cls = 0 ∧ p.at_ = s.tb ∧ link t 31 = { link s 31 with queue := (link s 31).queue ++ [p] })
    ∧ ∀ k : Nat, k ≠ 31 → link t k = link s k

/-- A message of SL as it waits in the queue: it belongs to no credit class and bears no finish time. -/
def slEntry (m : SlMsg) (tick : Nat) : Queued :=
  { pkt := .sl m, cls := 0, tc := 0, slot := 0, tenant := 0, payload := 0, bytes := 64, at_ := tick, fin := 0 }

theorem slSend_up (m : SlMsg) (hu : slUp s = true) :
    slSend m s = linkUpd 31 (fun l => { l with queue := l.queue ++ [slEntry m s.tb] }) s := if_pos hu

/-- A write of the block PAIR besides. -/
theorem OnlyChanges.withPair {ps : List Block} {t : State} (h : OnlyChanges ps s t) (hp : ps.contains .pair = true) (p : Pair) :
    OnlyChanges ps s { t with pair := p } := fun b hb => by
  cases b
  case pair => exact absurd (hp.symm.trans hb) nofun
  all_goals exact h _ hb

/-- Whatever the command writes in PAIR, the message waits on an SL that is UP. -/
theorem slSend_queued (m : SlMsg) (p : Pair) (hu : slUp s = true) : SlQueued m s { slSend m s with pair := p } := by
  have honly : OnlyChanges [.pair, .links] s (slSend m s) := slSend_changes rfl (.refl _ s)
  rw [slSend_up m hu] at honly ⊢
  exact ⟨honly.withPair rfl p, rfl, ⟨slEntry m s.tb, rfl, rfl, rfl, link_linkUpd_same 31 _ s⟩, fun k hk => link_linkUpd_other 31 k _ s hk⟩

theorem slSend_withPair (m : SlMsg) (p : Pair) (hu : slUp s = true) : slSend m { s with pair := p } = { slSend m s with pair := p } := by
  rw [slSend_up m hu]
  exact slSend_up m hu

/-- What is sent once LIVE_RENEW ms have passed, where the device may speak on SL: a RENEW while it is live, an ADMIT_REQ once it is aligned
(09 R259, R263). -/
theorem renewTick_due (hd : s.pair.lastRenew.elim True (fun t => t + s.pair.renew * 625000 ≤ s.tb)) (hu : slUp s = true)
    (hp : s.maint.pwrgd = true) (hm : s.maint.silent = false) : renewTick s =
    if s.pair.live = 1 then { slSend (.renew (myDev s) s.pair.epoch s.pair.slSeq s.tb) s with pair := { s.pair with
      slSeq := s.pair.slSeq + 1, renews := s.pair.renews ++ [(s.pair.slSeq, s.tb)], lastRenew := some s.tb } }
    else if s.repro.aligned then { slSend (.admitReq (myDev s) s.pair.epoch s.pair.slSeq s.tb) s with pair := { s.pair with
      slSeq := s.pair.slSeq + 1, admits := s.pair.admits ++ [(s.pair.slSeq, s.tb)], lastRenew := some s.tb } }
    else s := by
  have hdue : renewDue s = true := by
    unfold renewDue
    cases h : s.pair.lastRenew with
    | none => rfl
    | some t => simpa [h] using hd
  rw [← slSend_withPair _ _ hu, ← slSend_withPair _ _ hu]
  exact if_neg (by simp [hdue, hu, hp, hm])

/-- The device in LIVE_SUSPECT is reported where the device may emit and SL is UP (09 R264). -/
theorem sendSuspect_queued (d : DevId) (p : Pair) : if mayEmit s && slUp s then SlQueued (.suspect d) s { sendSuspect d s with pair := p }
    else OnlyChanges [.pair] s { sendSuspect d s with pair := p } := by
  unfold sendSuspect
  cases he : mayEmit s
  · exact (OnlyChanges.refl [.pair] s).withPair rfl p
  · cases hu : slUp s
    · rw [slSend, hu]
      exact (OnlyChanges.refl [.pair] s).withPair rfl p
    · exact slSend_queued _ p hu

/-- A GRANT that echoes an outstanding RENEW (09 R259). -/
theorem grant_outstanding {seq t0 : Nat} (ms : Nat) (hr : s.pair.renews.find? (fun r => r.1 == seq) = some (seq, t0)) :
    grant seq ms s = { s with pair := { s.pair with
      renews := s.pair.renews.filter (fun r => r.1 != seq), expiry := max s.pair.expiry (t0 + ms * 625000) } } := by
  simp only [grant, hr]

/-! ### Fencing (01 R32, 09 R260, 10 R284) -/

/-- Nothing is outstanding to slot `d`, and nothing waits for it. -/
def TrayQuiet (s : State) (d : Nat) : Prop := (trayDst s d).out = [] ∧ (trayDst s d).waiting = []

/-- Neither the codes of the fences nor the channels that break touch what is kept for the destinations. -/
theorem trayFenced_dst (d : Nat) (s : State) :
    (trayFenced d s).near.dst = Tab.upd s.near.dst d {} (fun x => { x with out := [], waiting := [] }) := by
  have hcount (l : List TrayOut) (u : State) : (l.foldl (fun s o => fenceCount d o.seq .fenced s) u).near.dst = u.near.dst := by
    induction l generalizing u with
    | nil => rfl
    | cons o l ih => exact ih _
  have hbreak (u : State) : (breakChannels (towards d) .fenced u).near = u.near :=
    breakChannels_changes (Q := [.dev, .maint, .clusters, .sched, .req, .rma, .links, .out]) rfl (.refl _ u) .near rfl
  unfold trayFenced
  dsimp only
  rw [apply_ite State.near, hbreak, ite_self, trayDstUpd, hcount]

theorem trayFenced_quiet {d k : Nat} (h : k = d ∨ TrayQuiet s k) : TrayQuiet (trayFenced d s) k := by
  unfold TrayQuiet trayDst
  rw [trayFenced_dst]
  by_cases hk : k = d
  · rw [hk, Tab.getD_upd_same]
    exact ⟨rfl, rfl⟩
  · rw [Tab.getD_upd_other _ _ _ _ _ hk]
    exact h.resolve_left hk

theorem foldl_trayFenced_quiet {k : Nat} (ds : List Nat) (h : k ∈ ds ∨ TrayQuiet s k) :
    TrayQuiet (ds.foldl (fun s d => trayFenced d s) s) k := by
  induction ds generalizing s with
  | nil => exact h.resolve_left List.not_mem_nil
  | cons d ds ih =>
    refine ih (or_iff_not_imp_left.2 fun hk => trayFenced_quiet ?_)
    exact h.imp_left fun hm => (List.mem_cons.1 hm).resolve_right hk

/-- On a fenced device a fence that has its code only marks its request (10 R284). -/
theorem fencesRun_fenced (hf : fenced s = true) (hc : ∀ f ∈ s.near.fences, f.code ≠ none) :
    OnlyChanges [.req] { s with near := { s.near with fences := s.near.fences.filter (fun f => !fenceDone s f) } } (fencesRun s) := by
  refine List.foldlRecOn _ _ (.refl _ _) fun u hu f hmem => ?_
  obtain ⟨c, hcode⟩ := Option.ne_none_iff_exists'.1 (hc f (List.mem_filter.1 hmem).1)
  have huf : fenced u = true := by
    rw [← hf]
    exact congrArg (fun p : Pair => p.live != 1) (hu .pair rfl)
  rw [hcode]
  exact changes_ite (fun _ => addCond_changes rfl hu) (fun h => absurd huf h)

/-- What a device that fences itself drops at once: the exchanges on SL, what its links had queued, a silence that waited for the lease. -/
def fencedState (s : State) : State :=
  { s with
    pair := { s.pair with live := 2, admits := [], renews := [], lastRenew := none }
    maint := { s.maint with silent := s.maint.silent && !s.maint.waitLease, waitLease := false }
    links := { s.links with links := s.links.links.map (fun e => (e.1, { e.2 with queue := [] })) } }

/-- Every fence ends, with FENCED where it has no code yet. -/
def fencesEnd (s : State) : State :=
  { s with near := { s.near with fences := s.near.fences.map (fun f => { f with marks := [], code := some (f.code.getD (0, 0, .fenced)) }) } }

theorem selfFence_live (hl : s.pair.live = 1) :
    selfFence s = msix 0 2 (fencesRun (fencesEnd ((List.range 16).foldl (fun s d => trayFenced d s) (fencedState s)))) := by
  unfold selfFence fencedState fencesEnd
  exact if_neg (not_not_intro hl)

theorem fencedState_changes : OnlyChanges [.maint, .pair, .links] s (fencedState s) := fun b hb => by
  cases b <;> first | rfl | cases hb

/-- The end of the fences, and the interrupt that tells of it, leave what is kept for the destinations. -/
theorem fencesEnd_facts (hf : fenced s = true) : OnlyChanges [.near, .req, .out] s (msix 0 2 (fencesRun (fencesEnd s)))
    ∧ ∀ d : Nat, trayDst (msix 0 2 (fencesRun (fencesEnd s))) d = trayDst s d := by
  have hrun := fencesRun_fenced (s := fencesEnd s) hf fun f hmem => by
    obtain ⟨g, -, rfl⟩ := List.mem_map.1 hmem
    exact Option.some_ne_none _
  have hend : OnlyChanges [.req, .out] _ (msix 0 2 (fencesRun (fencesEnd s))) := msix_changes rfl (hrun.wider rfl)
  refine ⟨((onlyNear s _).wider rfl).trans (hend.wider rfl), fun d => ?_⟩
  have hnear := congrArg Near.dst (hend .near rfl)
  exact congrArg (fun t => Tab.getD t d {}) hnear

/-- R260: which blocks a fencing touches, what it leaves of PAIR, and that every request on the tray is forgotten. -/
theorem selfFence_facts (hl : s.pair.live = 1) :
    (selfFence s).pair = { s.pair with live := 2, admits := [], renews := [], lastRenew := none }
      ∧ (∀ d : Nat, d < 16 → TrayQuiet (selfFence s) d)
      ∧ OnlyChanges [.dev, .maint, .clusters, .sched, .req, .pair, .near, .rma, .links, .out] s (selfFence s) := by
  rw [selfFence_live hl]
  have hquiet (d : Nat) (hd : d < 16) := foldl_trayFenced_quiet (s := fencedState s) _ (.inl (List.mem_range.2 hd))
  have hu : OnlyChanges [.dev, .maint, .clusters, .sched, .req, .near, .rma, .links, .out] (fencedState s)
      ((List.range 16).foldl (fun s d => trayFenced d s) (fencedState s)) :=
    foldl_changes (.refl _ _) fun v d hv => trayFenced_changes rfl hv
  generalize (List.range 16).foldl (fun s d => trayFenced d s) (fencedState s) = u at hquiet hu ⊢
  have hpair : u.pair = (fencedState s).pair := hu .pair rfl
  obtain ⟨hend, hdst⟩ := fencesEnd_facts (s := u) (by rw [fenced, hpair]; rfl)
  refine ⟨(hend .pair rfl).trans hpair, fun d hd => ?_, ?_⟩
  · rw [TrayQuiet, hdst]
    exact hquiet d hd
  · exact (fencedState_changes.wider rfl).trans ((hu.wider rfl).trans (hend.wider rfl))

/-! ### Re-admission (09 R263) -/

/-- The ADMIT that answers an ADMIT_REQ: the lease runs from the tick of that request, and the table is the one it carries. -/
theorem readmit_liveness {epoch : BitVec 16} {seq t0 : Nat} (ms : Nat) (tab : List (DevId × Bool × BitVec 16))
    (ha : s.pair.admits.find? (fun a => a.1 == seq) = some (seq, t0)) :
    (readmit epoch seq ms tab s).pair.liveness = { s.pair with
      live := 1, epoch := epoch, expiry := t0 + ms * 625000, admits := [], renews := []
      excl := tab.foldl (fun (m : Tab (Bool × BitVec 16)) (e : DevId × Bool × BitVec 16) => Tab.put m e.1.toNat e.2) [] }.liveness := by
  simp [readmit, ha]

/-! ### The obligation -/

theorem fenced_eq_false (hl : s.pair.live = 1) : fenced s = false := by simp [fenced, hl]

theorem fenced_eq_true (hl : s.pair.live ≠ 1) : fenced s = true := bne_iff_ne.2 hl

theorem Pair.liveness_inj {p p' : Pair} : p.liveness = p'.liveness ↔ p.live = p'.live ∧ p.epoch = p'.epoch ∧ p.expiry = p'.expiry
    ∧ p.renews = p'.renews ∧ p.admits = p'.admits ∧ p.lastRenew = p'.lastRenew ∧ p.excl = p'.excl ∧ p.exclusions = p'.exclusions := by
  simp only [Pair.liveness, Prod.mk.injEq]

theorem exec_exclude_peer (dev : DevId) (x : BitVec 16) (hl : s.pair.live = 1) (hdev : dev ≠ myDev s) :
    exec (.exclude dev x) s = .next (excludePeer dev.toNat x s) :=
  congrArg Host.Outcome.next ((unlessFenced_of _ (fenced_eq_false hl)).trans (if_neg hdev))

theorem exec_join (dev : DevId) (x : BitVec 16) (hl : s.pair.live = 1) : exec (.join dev x) s = .next (joinPeer dev.toNat x s) :=
  congrArg Host.Outcome.next (unlessFenced_of _ (fenced_eq_false hl))

/-- Settles O26: queueing on SL is one entry of its queue; a fencing is followed through the requests and fences it ends; and no function that
an EXCLUDE, a JOIN or an ADMIT calls writes the lease, the epoch or the exclusion table again. -/
theorem livenessCommands : Obligations.LivenessCommands := by
  intro w dev x q ms tab s fencedHere queued
  have hfence {c : Instr} (hl : s.pair.live = 1) (hc : exec c s = .next (selfFence s)) : fencedHere c := by
    obtain ⟨hpair, hquiet, honly⟩ := selfFence_facts hl
    exact ⟨_, hc, by rw [hpair], by rw [hpair], by rw [hpair], by rw [hpair], by rw [hpair], hquiet, honly⟩
  refine ⟨fun hd hu hp hm => ⟨fun hl => ?_, fun hl ha => ?_⟩, fun hdev hl t0 hr => ?_, fun hl hdev => ⟨hfence hl ?_, hfence hl ?_⟩,
    fun hl he => hfence hl ?_, fun hl hdev => ?_, fun hl => ?_, fun hl hdev t0 ha => ?_, fun hc hb => ?_⟩
  · exact ⟨_, congrArg Host.Outcome.next ((renewTick_due hd hu hp hm).trans (if_pos hl)), slSend_queued _ _ hu, rfl⟩
  · exact ⟨_, congrArg Host.Outcome.next ((renewTick_due hd hu hp hm).trans ((if_neg hl).trans (if_pos ha))), slSend_queued _ _ hu, rfl⟩
  · exact congrArg Host.Outcome.next ((if_pos (by simp [hdev, hl])).trans (grant_outstanding ms hr))
  · exact congrArg Host.Outcome.next (if_pos hdev)
  · exact congrArg Host.Outcome.next ((unlessFenced_of _ (fenced_eq_false hl)).trans (if_pos hdev))
  · exact congrArg Host.Outcome.next (if_pos he)
  · have hexec := exec_exclude_peer dev x hl hdev
    obtain ⟨hlive, -, -, -, -, -, hexcl, hcount⟩ := Pair.liveness_inj.1 (excludePeer_liveness dev.toNat x s)
    exact ⟨_, hexec, by rw [hexcl, Tab.find_put_same], hcount, fun d hd => by rw [hexcl, Tab.find_put_other _ _ _ _ hd], hlive.trans hl,
      exec_onlyChanges hexec .tb rfl⟩
  · have hexec := exec_join dev x hl
    obtain ⟨hlive, -, -, -, -, -, hexcl, -⟩ := Pair.liveness_inj.1 (joinPeer_liveness dev.toNat x s)
    have hframe := exec_onlyChanges hexec
    exact ⟨_, hexec, by rw [hexcl, Tab.find_put_same], fun d hd => by rw [hexcl, Tab.find_put_other _ _ _ _ hd], hlive.trans hl,
      hframe .tb rfl, hframe .host rfl, hframe.sec_eq rfl rfl⟩
  · have hexec : exec (.admitMsg dev x q ms tab) s = .next (readmit x q.toNat ms tab s) :=
      congrArg Host.Outcome.next (if_pos (by simp [hdev, fenced_eq_true hl]))
    obtain ⟨hlive, hepoch, hexpiry, -, hadmits, -, hexcl, -⟩ := Pair.liveness_inj.1 (readmit_liveness (epoch := x) ms tab ha)
    have hframe := exec_onlyChanges hexec
    exact ⟨_, hexec, hlive, hepoch, hexpiry, hadmits, hexcl, hframe .tb rfl, hframe .forme rfl⟩
  · have hpair : (sendSuspect s.pair.suspect s).pair = s.pair := sendSuspect_changes (Q := [.links]) rfl (.refl _ s) .pair rfl
    have hrun : pairCode .ok (sendSuspect s.pair.suspect s) = { sendSuspect s.pair.suspect s with pair := { s.pair with code := 0x00 } } :=
      congrArg (fun p : Pair => { sendSuspect s.pair.suspect s with pair := { p with code := 0x00 } }) hpair
    exact ⟨_, congrArg Host.Outcome.next ((pairCtl_runs hb hc).trans hrun), rfl, sendSuspect_queued _ _⟩

end Sys2Proof.Machine
end

section
/-!
NEAR_DISABLE and LINK_FAR_DISABLE (10 R285, R289, R290; 12 R339): every link of a register follows its bit, and a link that drains is
DISABLED once nothing is outstanding on it.
-/

namespace Sys2Proof.Machine

variable {s : State}

/-! ### Links that are changed one after the other -/

section
variable {f : State → Nat → State} {i : Nat → Nat} (hother : ∀ (u : State) (k m : Nat), m ≠ i k → link (f u k) m = link u m)
include hother

/-- Steps that each change one link leave every other as it was. -/
theorem foldl_range_link_other {n m : Nat} (hm : ∀ k < n, m ≠ i k) : link ((List.range n).foldl f s) m = link s m := by
  induction n with
  | zero => rfl
  | succ n ih =>
    rw [List.range_succ, List.foldl_append]
    exact (hother _ n m (hm n n.lt_succ_self)).trans (ih fun k hk => hm k (hk.trans n.lt_succ_self))

/-- Each step finds its own link as it was at the start, and the later ones leave it. -/
theorem foldl_range_link_own (hi : Function.Injective i) {n k : Nat} (hk : k < n) :
    ∃ u : State, link u (i k) = link s (i k) ∧ link ((List.range n).foldl f s) (i k) = link (f u k) (i k) := by
  induction n with
  | zero => exact absurd hk k.not_lt_zero
  | succ n ih =>
    rw [List.range_succ, List.foldl_append]
    by_cases hkn : k = n
    · subst hkn
      exact ⟨_, foldl_range_link_other hother fun j hj => hi.ne hj.ne', rfl⟩
    · obtain ⟨u, hu, hlast⟩ := ih (Nat.lt_of_le_of_ne (Nat.le_of_lt_succ hk) hkn)
      exact ⟨u, hu, (hother _ n (i k) (hi.ne hkn)).trans hlast⟩

end

/-! ### A link follows its bit (10 R289) -/

/-- The state that a link in state `st` takes when its bit is `off`. -/
def followed (off : Bool) (st : BitVec 4) : BitVec 4 :=
  if off && st == 2 then 4
  else if off && (st == 0 || st == 1 || st == 3) then 5
  else if !off && st == 4 then 2
  else if !off && st == 5 then 0
  else st

theorem nearFollow_own (k : Nat) (off : Bool) : (link (nearFollow k off s) k).state = followed off (link s k).state := by
  simp only [nearFollow, followed, apply_ite (fun u => (link u k).state), link_linkUpd_same]

theorem nearFollow_other {k m : Nat} (off : Bool) (hm : m ≠ k) : link (nearFollow k off s) m = link s m := by
  simp only [nearFollow, apply_ite (fun u => link u m), link_linkUpd_other _ _ _ _ hm, ite_self]

/-- A far link follows its bit as a near link does (12 R339). -/
theorem farFollow_eq (k : Nat) (off : Bool) : farFollow k off s = nearFollow (15 + k) off s := rfl

/-! ### A link that drains -/

/-- A link that drains may have become DISABLED. -/
def Drains (st st' : BitVec 4) : Prop := st' = st ∨ st = 4 ∧ st' = 5

/-- Link `n` is DISABLED where it drains and condition `c` holds. -/
theorem drained_link (n m : Nat) (c : Bool) :
    let t : State := if (link s n).state == 4 && c then linkUpd n (fun l => { sessionOver l with state := 5 }) s else s
    Drains (link s n).state (link t n).state ∧ (m ≠ n → link t m = link s m) := by
  dsimp only
  split
  · next h =>
    refine ⟨.inr ⟨?_, congrArg Link.state (link_linkUpd_same _ _ _)⟩, link_linkUpd_other _ _ _ _⟩
    simpa using (Bool.and_eq_true_iff.1 h).1
  · exact ⟨.inl rfl, fun _ => rfl⟩

theorem nearDrained_link (m : Nat) : Drains (link s m).state (link (nearDrained s) m).state ∧ (15 ≤ m → link (nearDrained s) m = link s m) := by
  unfold nearDrained
  simp only [Bool.and_assoc]
  have hstep (u : State) (k m : Nat) := drained_link (s := u) k m (!nearBusy u k && (link u k).queue.isEmpty)
  by_cases hm : m < 15
  · obtain ⟨u, hu, hown⟩ := foldl_range_link_own (i := id) (fun u k m => (hstep u k m).2) Function.injective_id (s := s) hm
    dsimp only [id] at hu hown
    rw [hown, ← hu]
    exact ⟨(hstep u m m).1, fun h => absurd hm (not_lt.2 h)⟩
  · have hsame := foldl_range_link_other (i := id) (fun u k m => (hstep u k m).2) (s := s) (n := 15) (m := m) fun k hk => by
      dsimp only [id]; omega
    exact ⟨.inl (congrArg Link.state hsame), fun _ => hsame⟩

theorem farDrained_link (m : Nat) : Drains (link s m).state (link (farDrained s) m).state
    ∧ (m < 15 ∨ m = 31 → link (farDrained s) m = link s m) := by
  unfold farDrained
  simp only [Bool.and_assoc]
  have hstep (u : State) (k m : Nat) := drained_link (s := u) (15 + k) m (!farBusy u k && (link u (15 + k)).queue.isEmpty)
  by_cases hm : ∃ k < 16, m = 15 + k
  · obtain ⟨k, hk, rfl⟩ := hm
    obtain ⟨u, hu, hown⟩ := foldl_range_link_own (i := (15 + ·)) (fun u k m => (hstep u k m).2) (add_right_injective 15) (s := s) hk
    rw [hown, ← hu]
    exact ⟨(hstep u k (15 + k)).1, fun h => absurd h (by omega)⟩
  · have hsame := foldl_range_link_other (i := (15 + ·)) (fun u k m => (hstep u k m).2) (s := s) (n := 16) (m := m) fun k hk he =>
      hm ⟨k, hk, he⟩
    exact ⟨.inl (congrArg Link.state hsame), fun _ => hsame⟩

/-- What the statement says of a link whose bit is `off`: it follows, and drains. -/
theorem follows_of_drains {off : Bool} {st st' : BitVec 4} (h : Drains (followed off st) st') :
    (off = true → st = 2 → st' = 4 ∨ st' = 5) ∧ (off = true → (st = 0 ∨ st = 1 ∨ st = 3) → st' = 5)
      ∧ (off = false → st = 4 → st' = 2) ∧ (off = false → st = 5 → st' = 0) := by
  refine ⟨?_, ?_, ?_, ?_⟩
  · rintro rfl rfl
    exact h.imp id And.right
  · rintro rfl (rfl | rfl | rfl) <;> exact h.resolve_right fun hd => absurd hd.1 (by decide)
  · rintro rfl rfl
    exact h.resolve_right fun hd => absurd hd.1 (by decide)
  · rintro rfl rfl
    exact h.resolve_right fun hd => absurd hd.1 (by decide)

/-! ### LINK_FAR_DISABLE (12 R339) -/

/-- The state as a write of LINK_FAR_DISABLE leaves it before the drained links are DISABLED. -/
def farFollowed (v : Word) (s : State) : State :=
  (List.range 16).foldl (fun s k => farFollow k (bit v k) s) { s with links := { s.links with farDisable := v.extractLsb' 0 16 } }

theorem farFollowed_own (v : Word) {k : Nat} (hk : k < 16) :
    (link (farFollowed v s) (15 + k)).state = followed (bit v k) (link s (15 + k)).state := by
  obtain ⟨u, hu, hown⟩ := foldl_range_link_own (i := (15 + ·)) (f := fun s k => farFollow k (bit v k) s)
    (s := { s with links := { s.links with farDisable := v.extractLsb' 0 16 } }) (fun u k m => nearFollow_other (bit v k))
    (add_right_injective 15) hk
  rw [farFollowed, hown, farFollow_eq, nearFollow_own, hu]
  rfl

theorem farFollowed_other (v : Word) {m : Nat} (hm : m < 15 ∨ m = 31) : link (farFollowed v s) m = link s m :=
  foldl_range_link_other (i := (15 + ·)) (f := fun s k => farFollow k (bit v k) s) (fun u k m => nearFollow_other (bit v k))
    fun k hk => by omega

/-- Following and draining change links only, and not the register. -/
theorem farDrained_farDisable : (farDrained s).links.farDisable = s.links.farDisable := by
  unfold farDrained
  refine List.foldlRecOn (motive := fun u : State => u.links.farDisable = s.links.farDisable) _ _ rfl fun u hu k _ => ?_
  rwa [apply_ite (fun u : State => u.links.farDisable), linkUpd, ite_self]

theorem nearFollow_farDisable (k : Nat) (off : Bool) : (nearFollow k off s).links.farDisable = s.links.farDisable := by
  simp only [nearFollow, apply_ite (fun u : State => u.links.farDisable), linkUpd, ite_self]

theorem farFollowed_farDisable (v : Word) : (farFollowed v s).links.farDisable = v.extractLsb' 0 16 := by
  unfold farFollowed
  exact List.foldlRecOn (motive := fun u : State => u.links.farDisable = v.extractLsb' 0 16) _ _ rfl fun u hu k _ =>
    (nearFollow_farDisable _ _).trans hu

theorem exec_linkFarDisable (v : Word) (hlive : pfLive s 0 false = true) :
    exec (.linkFarDisable 0 v) s = .next (farDrained (farFollowed v s)) := congrArg Host.Outcome.next (if_pos hlive)

/-! ### NEAR_DISABLE (10 R289, R290) -/

/-- The state as a write of NEAR_DISABLE leaves it before the drained links are DISABLED. -/
def nearFollowed (v : Word) (s : State) : State :=
  (List.range 15).foldl (fun s k => nearFollow k (bit v k) s) { s with near := { s.near with disable := v.extractLsb' 0 15 } }

theorem nearFollowed_own (v : Word) {k : Nat} (hk : k < 15) :
    (link (nearFollowed v s) k).state = followed (bit v k) (link s k).state := by
  obtain ⟨u, hu, hown⟩ := foldl_range_link_own (i := id) (f := fun s k => nearFollow k (bit v k) s)
    (s := { s with near := { s.near with disable := v.extractLsb' 0 15 } }) (fun u k m => nearFollow_other (bit v k))
    Function.injective_id hk
  dsimp only [id] at hu hown
  rw [nearFollowed, hown, nearFollow_own, hu]
  rfl

theorem nearFollowed_other (v : Word) {m : Nat} (hm : 15 ≤ m) : link (nearFollowed v s) m = link s m :=
  foldl_range_link_other (i := id) (f := fun s k => nearFollow k (bit v k) s) (fun u k m => nearFollow_other (bit v k))
    fun k hk => by dsimp only [id]; omega

theorem nearFollowed_disable (v : Word) : (nearFollowed v s).near.disable = v.extractLsb' 0 15 := by
  have hframe : OnlyChanges [.links] { s with near := { s.near with disable := v.extractLsb' 0 15 } } (nearFollowed v s) :=
    foldl_changes (.refl _ _) fun u k hu => nearFollow_changes rfl hu
  rw [hframe .near rfl]

/-- Packets queued in turn. -/
theorem foldl_queues {A : Type} {f : State → A → State} (l : List A) (hf : ∀ (u : State) (a : A), Queues u (f u a)) :
    Queues s (l.foldl f s) :=
  List.foldlRecOn (motive := fun u => Queues s u) _ _ (.refl s) fun u hu a _ => hu.trans (hf u a)

theorem sendCredit_queues (n ch : Nat) : Queues s (sendCredit n ch s) := by
  unfold sendCredit
  split
  · exact .refl s
  · split
    · exact trayPacket_queues
    · exact .refl s

theorem resendCredits_queues (d : Nat) : Queues s (resendCredits d s) := by
  refine foldl_queues _ fun u c => foldl_queues _ fun w k => ?_
  split
  · split
    · exact sendCredit_queues _ _
    · exact .refl w
  · exact .refl w

theorem creditsRepath_queues (before : State) : Queues s (creditsRepath before s) := by
  refine foldl_queues _ fun u d => ?_
  split
  · exact .refl u
  · exact resendCredits_queues d

theorem sendLstate_queues : Queues s (sendLstate s) := foldl_queues _ fun _ _ => trayPacket_queues

/-- Beyond the links' states, a change of NEAR_DISABLE only queues notices and CREDITs (10 R272, R286). -/
theorem nearDisableSet_queues (v : Word) : OnlyChanges [.links] (nearDrained (nearFollowed v s)) (nearDisableSet v s)
    ∧ Queues (nearDrained (nearFollowed v s)) (nearDisableSet v s) := by
  unfold nearDisableSet
  dsimp only
  split
  · exact ⟨.refl _ _, .refl _⟩
  · exact ⟨sendLstate_changes rfl (creditsRepath_changes rfl (.refl _ _)), (creditsRepath_queues s).trans sendLstate_queues⟩

theorem nearDisableSet_disable (v : Word) : (nearDisableSet v s).near.disable = v.extractLsb' 0 15 := by
  have hqueued := (nearDisableSet_queues (s := s) v).1 .near rfl
  have hdrained : (nearDrained (nearFollowed v s)).near = (nearFollowed v s).near := nearDrained_changes (Q := [.links]) rfl (.refl _ _) .near rfl
  rw [hqueued, hdrained, nearFollowed_disable]

theorem nearDisableSet_state (v : Word) (m : Nat) :
    (link (nearDisableSet v s) m).state = (link (nearDrained (nearFollowed v s)) m).state := ((nearDisableSet_queues v).2 m).1

theorem exec_nearDisable (v : Word) (hlive : pfLive s 0 false = true) : exec (.nearDisable 0 v) s = .next (nearDisableSet v s) :=
  congrArg Host.Outcome.next (if_pos hlive)

/-! ### The statement -/

/-- Settles O34: each link follows its bit before the drained ones are DISABLED, and what a change of NEAR_DISABLE sends leaves the links'
states. -/
theorem linkDisableWrites : Obligations.LinkDisableWrites := by
  unfold Obligations.LinkDisableWrites
  intro v s hlive follows
  have hfar := exec_linkFarDisable v hlive
  have hnear := exec_nearDisable v hlive
  refine ⟨⟨_, hfar, exec_onlyChanges hfar, farDrained_farDisable.trans (farFollowed_farDisable v), fun k hk => ?_, fun n hn => ?_⟩,
    ⟨_, hnear, exec_onlyChanges hnear, nearDisableSet_disable v, fun k hk => ?_, fun n hn => ?_⟩⟩
  · have hdrains := (farDrained_link (s := farFollowed v s) (15 + k)).1
    rw [farFollowed_own v hk] at hdrains
    exact follows_of_drains hdrains
  · exact ((farDrained_link n).2 hn).trans (farFollowed_other v hn)
  · have hdrains := (nearDrained_link (s := nearFollowed v s) k).1
    rw [nearFollowed_own v hk, ← nearDisableSet_state] at hdrains
    exact follows_of_drains hdrains
  · rw [nearDisableSet_state, (nearDrained_link n).2 hn, nearFollowed_other v hn]

end Sys2Proof.Machine
end

section
/-!
A tray atomic behind a write-back slice (02 R50, 07 R174, R185; 10 R279, R280): whether the read of its old value reaches LPDDR6 or is
served by a line of the slice is not specified, so the model takes a free value for the count in LPC_RD. That is a change of a block which
is not among those that the statement lets an atomic change.
-/

namespace Sys2Proof.Machine

/-- A forme whose region 0 caches the first 64 KiB of partition 0 with write-back policy. -/
def writeBackForme : Committed :=
  { (default : Committed) with
    parts := [(0, { (default : PartitionSect) with regionMask := 1, t1Pages := 96 })]
    regions := [(0, { (default : RegionConfig) with mode := 1, backingLen := 65536 })] }

/-- A live device that serves this forme, with partition 0 from frame 64 on, a frame that has been written. Device 1 of its tray has told it
of the same model. -/
def cachedHome : State :=
  { forme := { state := 3, committed := some writeBackForme, partBase := [(0, 64)] }
    pair := { live := 1 }
    tier := { good := [0], written := [(64, ())] }
    near := { lstate := [(1, { links := 0, role := 0, model := 0 })] } }

/-- The header of a 32-bit ADD of device 1 at offset 0 of partition 0, the first request of this source. -/
def addHdr : TrayHdr := { hdr0 with type := 3, src := 1, seq := 1, op := 1, len := 4 }

/-- The ADD of 1, whose read meets no error. -/
def addOne : TrayReq := .atomic addHdr 1 0 .good

/-- The state in which it is executed. -/
def addTaken : State :=
  tookRequest addOne { cachedHome with near := { cachedHome.near with atomicHw := max cachedHome.near.atomicHw (trayAtomics cachedHome + 1) } }

theorem addOne_inTurn : InTurn addOne cachedHome := by unfold InTurn; decide

theorem addOne_granted : r276 addTaken addOne = .ok := by decide +kernel

/-- The ADD takes effect, and its read takes a free value. -/
theorem addOne_runs : (homeExecute addOne addTaken).tier.t1 = [(64 * 65536, 1)] ∧ (homeExecute addOne addTaken).free = 1 := by decide +kernel

/-- Refutes O53: an atomic of a partition's T1 space is to change TIER, NEAR and LINKS only. The granule that `addOne` reads and writes in
`cachedHome` is behind a write-back slice, and the read counts 0 or 1 in LPC_RD by a free value, which it takes. -/
theorem not_atomicCommands : ¬ Obligations.AtomicCommands := by
  unfold Obligations.AtomicCommands
  intro h
  obtain ⟨htray, _⟩ := h.2 addHdr .good 1 0 0 0 cachedHome
  obtain ⟨_, _, hnow⟩ := htray (1, .atomicAdd (.tray addHdr .good) 1, 0) List.mem_cons_self
  obtain ⟨hexec, _, hpart, _⟩ := hnow rfl addOne_inTurn (by decide +kernel)
  obtain ⟨t, ht, hframe, _⟩ := hpart addOne_granted (by decide +kernel) (by decide)
  obtain rfl : homeExecute addOne addTaken = t := Host.Outcome.next.inj (hexec.symm.trans ht)
  have hfree : (homeExecute addOne addTaken).free = cachedHome.free := hframe .free rfl
  rw [addOne_runs.2] at hfree
  exact absurd hfree (by decide)

end Sys2Proof.Machine
end

section
/-!
The lifetime of a message at its receiver (11 R305).
-/

namespace Sys2Proof.Machine

/-- A counter that is full stays full. -/
theorem satInc_eq (w : Word) : satInc w = if w = BitVec.allOnes 32 then w else w + 1 := by
  by_cases full : w = BitVec.allOnes 32
  · rw [if_pos full, full]; rfl
  · rw [if_neg full]
    have below : w.toNat < 0xFFFFFFFF := by
      have : w.toNat ≠ 0xFFFFFFFF := fun h => full (BitVec.eq_of_toNat_eq h)
      omega
    apply BitVec.eq_of_toNat_eq
    simp only [satInc, satAdd]
    have one : (w + 1).toNat = w.toNat + 1 := by rw [BitVec.toNat_add]; exact Nat.mod_eq_of_lt (Nat.succ_lt_succ below)
    rw [one]
    split
    · next top => exact Nat.le_antisymm top (Nat.succ_le_of_lt below)
    · exact one

/-- A message of its own TYPE that arrives past its lifetime is counted, and nothing else happens. -/
theorem podTake_expired {ty : Nat} {m : PodMsg} {s : State} (hf : fenced s = false) (ht : m.hdr.type.toNat = ty)
    (hl : m.hdr.firstTb.toNat + 80000 ≤ s.tb) : podTake ty m s = { s with rma := { s.rma with expired := satInc s.rma.expired } } := by
  simp [podTake, hf, ht, hl]

/-- Settles O14: the lifetime is checked before the identifier entry is made, so past it only RMA_EXPIRED moves. -/
theorem messageLifetimeEndsForReceiver : Obligations.MessageLifetimeEndsForReceiver := by
  unfold Obligations.MessageLifetimeEndsForReceiver
  intro m s hf hl
  rw [← satInc_eq]
  have taken : ∀ ty : Nat, m.hdr.type.toNat = ty → podTake ty m s = { s with rma := { s.rma with expired := satInc s.rma.expired } } :=
    fun _ ht => podTake_expired hf ht hl
  exact ⟨fun h => congrArg Host.Outcome.next (taken 1 (by rw [h]; rfl)), fun h => congrArg Host.Outcome.next (taken 2 (by rw [h]; rfl)),
    fun h => congrArg Host.Outcome.next (taken 3 (by rw [h]; rfl)), fun h => congrArg Host.Outcome.next (taken 4 (by rw [h]; rfl)),
    fun h => congrArg Host.Outcome.next (taken 5 (by rw [h]; rfl))⟩

end Sys2Proof.Machine
end

section
/-!
A work request whose LKEY lies behind a write-back slice (02 R50, 07 R174; 11 R296, R316): whether the read of its bytes reaches LPDDR6 or
is served by a line of the slice is not specified, so the model takes a free value for the count in LPC_RD. That is a change of a block
which is not among those that the statement lets a data WR change.
-/

namespace Sys2Proof.Machine

/-- Firmware's region 0: the first 64 KiB of partition 0. -/
def cachedRegion : Region :=
  { epoch := 0, valid := true, pd := 0, ctx := 0, base := 0, len := 65536, rights := 15, page := 0, onDemand := false, present := [], t1 := some 0 }

/-- Firmware's queue pair, with nothing taken. -/
def firmwareQp : Qp := newQp 0 0 0 noBlock 0

/-- `cachedHome` once it holds the pod key, with firmware's queue pair and region. -/
def cachedSource : State :=
  { cachedHome with
    sec := { cachedHome.sec with podSend := true, podGen := some 0 }
    rma := { qps := [(fwQp, firmwareQp)], regions := [(0, cachedRegion)] } }

/-- A WRITE by firmware of the region's first 64 bytes to device 16, whose read meets no error. -/
def cachedWrite : WrCmd := { qp := 130, wr := { wr0 with opcode := 1, dstDev := 16, dstQp := 130, len := 64 }, data := [] }

/-- What taking the work request leaves. -/
def cachedTaken : State := wrTake 0x01 cachedWrite (wrData cachedWrite) cachedSource

/-- The read takes a free value. -/
theorem cachedTaken_free : cachedTaken.free = 1 := by decide

/-- The work request is of one message, and passes its shape and the check of its LKEY. -/
theorem cachedWrite_passes : wrShape 1 cachedWrite.wr = true ∧ (wrPieces 130 cachedWrite.wr).length = 1
    ∧ regionCheck cachedSource cachedWrite.wr.lkey 0 none 0 64 = none
    ∧ regionOf cachedSource cachedWrite.wr.lkey = some cachedRegion
    ∧ seenOutcome cachedSource (.t1 (partAddr cachedSource 0 + 0 + 0)) 64 .good = .good := by decide

/-- The device may send it. -/
theorem cachedSource_sends : podReady cachedSource 130 = true ∧ inFlightRoom cachedSource = true ∧ excluded cachedSource 16 = false
    ∧ absentPages cachedRegion 0 64 = [] := by decide

/-- Refutes O54: a data WR of one message is to change RMA, TIER and LINKS only. The granule that `cachedWrite` reads in `cachedSource` is
behind a write-back slice, and the read counts 0 or 1 in LPC_RD by a free value, which it takes. -/
theorem not_workRequestCommands : ¬ Obligations.WorkRequestCommands := by
  unfold Obligations.WorkRequestCommands
  intro h
  obtain ⟨hshape, hone, hkey, hregion, hgood⟩ := cachedWrite_passes
  obtain ⟨hready, hroom, hin, hpages⟩ := cachedSource_sends
  have here {r : Region} (hr : regionOf cachedSource cachedWrite.wr.lkey = some r) : r = cachedRegion := Option.some.inj (hr.symm.trans hregion)
  obtain ⟨-, htaken⟩ := h cachedWrite noBlock [] firmwareQp cachedSource rfl
  obtain ⟨-, hdata, -⟩ := htaken ⟨rfl, rfl, fun hring => absurd hring (by decide)⟩ rfl
  obtain ⟨-, -, hpass⟩ := hdata (1, .writeWr cachedWrite) List.mem_cons_self rfl
  have hreads {r : Region} {k : PartId} (hr : regionOf cachedSource cachedWrite.wr.lkey = some r) (hk : r.t1 = some k) :
      seenOutcome cachedSource (.t1 (partAddr cachedSource k.toNat + r.base.toNat + 0)) 64 .good = .good := by
    obtain rfl := here hr
    obtain rfl : (0 : PartId) = k := Option.some.inj hk
    exact hgood
  obtain ⟨-, hsent⟩ := hpass hshape (.inr hkey)
    ⟨fun _ r k a hr hk hbad => absurd ((hreads hr hk).symm.trans hbad) (by simp), .inr fun r k hr hk => hreads hr hk⟩
  obtain ⟨t, ht, hframe, -⟩ := hsent hin (.inr fun r hr => by rw [here hr]; exact hpages) rfl hready hroom hone
  obtain rfl : cachedTaken = t := Host.Outcome.next.inj ht
  have hfree : cachedTaken.free = cachedSource.free := hframe .free rfl
  rw [cachedTaken_free] at hfree
  exact absurd hfree (by decide)

end Sys2Proof.Machine
end

section
/-!
Firmware messages past RMA_RETRY_LIMIT (11 R314; log entry 215): the message of the key queue pair ends, and another one backs off anew.
-/

namespace Sys2Proof.Machine

/-- The arrival at a pod barrier, which its device has refused since tick 0 and which goes over the firmware's queue pair. -/
def refusedArrival : PodOut :=
  { id := 1, hdr := { podHdr0 with type := 0x05, dst := 16, id := 1, srcQp := 130, dstQp := 130 }, payload := [], first := 0, sent := 0
    aired := true, retx := 0, plane := 0, acked := false, fw := some (.arrive 0 0), tenant := none, tc := 0, refusals := 1, firstRef := some 0 }

/-- A live device on which that message waits for its back-off, at the end of the limit of 100 ms. -/
def refusedPastLimit : State :=
  { pair := { live := 1 }, tb := 62500000, rma := { counter := 2, refused := [refusedArrival] } }

/-- At the limit the message backs off anew: it goes on waiting. -/
theorem refusedArrival_found : refusedPastLimit.rma.refused.find? (fun o => o.id == (1 : BitVec 48).toNat) = some refusedArrival := by
  decide

theorem refusedPastLimit_waits : (limitEnds (1 : BitVec 48).toNat refusedPastLimit).rma.refused.map (fun o => o.id) = [1] := by decide

theorem exec_retryLimitExpiry {s : State} (id : BitVec 48) (hf : fenced s = false) :
    exec (.retryLimitExpiry id) s = .next (limitEnds id.toNat s) := by
  have run : exec (.retryLimitExpiry id) s = .next (unlessFenced (limitEnds id.toNat) s) := rfl
  rw [run, unlessFenced, if_neg (by rw [hf]; exact Bool.false_ne_true)]

/-- Refutes O56: past RMA_RETRY_LIMIT a firmware message that is no key message is to end, but it backs off anew, as `refusedArrival` does
in `refusedPastLimit`. -/
theorem not_remoteTimerCommands : ¬ Obligations.RemoteTimerCommands := by
  unfold Obligations.RemoteTimerCommands
  intro h
  obtain ⟨-, -, hlive⟩ := h 1 0 0 false 0 0 refusedPastLimit
  obtain ⟨-, -, -, hwait, -⟩ := hlive rfl
  obtain ⟨-, hends, -⟩ := (hwait rfl).2 refusedArrival refusedArrival_found
  obtain ⟨t, ht, hnone⟩ := hends ⟨0, rfl, by decide⟩ rfl
  obtain rfl := Host.Outcome.next.inj ((exec_retryLimitExpiry 1 rfl).symm.trans ht)
  have hwaits := refusedPastLimit_waits
  rw [hnone] at hwaits
  exact absurd hwaits (by decide)

end Sys2Proof.Machine
end

section
/-!
What the traffic of the remote-access engine leaves alone (11 R299 to R316): sending, completing work requests, faults and failed reads
keep the identifier memory, the queue pairs' states and what has been emitted; a queue pair that enters ERROR keeps all but its own state.
-/

namespace Sys2Proof.Machine

/-- What no sending, completion or failure of a queue pair changes: the identifier memory, the messages that back off, the count of
refusals received, the arrival buffer, the time base and the emissions so far. Each message then in flight is first sent now, or was in
flight before. -/
structure RmaKept (s t : State) : Prop where
  ids : t.rma.ids = s.rma.ids
  refused : t.rma.refused = s.rma.refused
  rlRecv : t.rma.rlRecv = s.rma.rlRecv
  arrival : t.rma.arrival = s.rma.arrival
  tb : t.tb = s.tb
  sent : ∀ o ∈ t.rma.out, o.first = s.tb ∨ ∃ o' ∈ s.rma.out, o'.id = o.id ∧ o'.first = o.first
  out : ∀ e ∈ s.out, e ∈ t.out

/-- A queue pair keeps its state, its receive ring, and a fetch that runs. -/
def QpKept (x y : Qp) : Prop := y.ready = x.ready ∧ y.recvCons = x.recvCons ∧ (x.fetching = true → y.fetching = true)

/-- Besides, no queue pair enters ERROR. -/
structure Traffic (s t : State) : Prop extends RmaKept s t where
  qpErr : t.rma.qpErr = s.rma.qpErr
  qps : ∀ (q : Nat) (x : Qp), qpOf s q = some x → ∃ y, qpOf t q = some y ∧ QpKept x y

variable {s t u : State}

/-! ### The two relations -/

theorem RmaKept.trans (h : RmaKept s t) (k : RmaKept t u) : RmaKept s u where
  ids := k.ids.trans h.ids
  refused := k.refused.trans h.refused
  rlRecv := k.rlRecv.trans h.rlRecv
  arrival := k.arrival.trans h.arrival
  tb := k.tb.trans h.tb
  out := fun e he => k.out e (h.out e he)
  sent := fun o ho => by
    rcases k.sent o ho with hnow | ⟨o', ho', hid, hfirst⟩
    · exact .inl (hnow.trans h.tb)
    · rcases h.sent o' ho' with hnow | ⟨v, hv, hvid, hvfirst⟩
      · exact .inl (hfirst ▸ hnow)
      · exact .inr ⟨v, hv, hvid.trans hid, hvfirst.trans hfirst⟩

theorem QpKept.refl (x : Qp) : QpKept x x := ⟨rfl, rfl, id⟩

theorem QpKept.trans {x y z : Qp} (h : QpKept x y) (k : QpKept y z) : QpKept x z := by
  obtain ⟨hready, hcons, hfetch⟩ := h
  obtain ⟨kready, kcons, kfetch⟩ := k
  exact ⟨kready.trans hready, kcons.trans hcons, fun hx => kfetch (hfetch hx)⟩

theorem Traffic.trans (h : Traffic s t) (k : Traffic t u) : Traffic s u where
  toRmaKept := h.toRmaKept.trans k.toRmaKept
  qpErr := k.qpErr.trans h.qpErr
  qps := fun q x hx => by
    obtain ⟨y, hy, hxy⟩ := h.qps q x hx
    obtain ⟨z, hz, hyz⟩ := k.qps q y hy
    exact ⟨z, hz, hxy.trans hyz⟩

/-- The same RMA block. -/
theorem Traffic.of_rma (hr : t.rma = s.rma) (htb : t.tb = s.tb) (ho : ∀ e ∈ s.out, e ∈ t.out) : Traffic s t where
  ids := by rw [hr]
  refused := by rw [hr]
  rlRecv := by rw [hr]
  arrival := by rw [hr]
  tb := htb
  out := ho
  sent := fun o h => .inr ⟨o, hr ▸ h, rfl, rfl⟩
  qpErr := by rw [hr]
  qps := fun q x hx => ⟨x, by rw [← hx]; unfold qpOf; rw [hr], .refl x⟩

theorem Traffic.of_same (h : (t.rma, t.tb, t.out) = (s.rma, s.tb, s.out)) : Traffic s t := by
  simp only [Prod.mk.injEq] at h
  obtain ⟨hr, htb, ho⟩ := h
  exact .of_rma hr htb (fun _ he => ho ▸ he)

theorem Traffic.refl (s : State) : Traffic s s := .of_same (by rfl)

/-- A change of other blocks than RMA, that emits nothing. -/
theorem Traffic.of_only {Q : List Block} (h : OnlyChanges Q s t) (hr : Q.contains .rma = false) (htb : Q.contains .tb = false)
    (ho : Q.contains .out = false) : Traffic s t :=
  .of_rma (h .rma hr) (h .tb htb) (fun _ he => (h .out ho).symm ▸ he)

/-- Messages in flight stay in flight. -/
theorem sent_of_eq {l : List PodOut} (h : l = s.rma.out) :
    ∀ o ∈ l, o.first = s.tb ∨ ∃ o' ∈ s.rma.out, o'.id = o.id ∧ o'.first = o.first := fun o ho => .inr ⟨o, h ▸ ho, rfl, rfl⟩

/-- A change of RMA that leaves these parts of it alone. -/
theorem Traffic.of_record {r : Rma} (h : (r.ids, r.refused, r.rlRecv, r.arrival, r.qpErr, r.qps)
    = (s.rma.ids, s.rma.refused, s.rma.rlRecv, s.rma.arrival, s.rma.qpErr, s.rma.qps))
    (ho : ∀ o ∈ r.out, o.first = s.tb ∨ ∃ o' ∈ s.rma.out, o'.id = o.id ∧ o'.first = o.first) :
    Traffic s { s with rma := r } := by
  simp only [Prod.mk.injEq] at h
  obtain ⟨hids, href, hrl, harr, herr, hqps⟩ := h
  exact { ids := hids, refused := href, rlRecv := hrl, arrival := harr, tb := rfl, sent := ho, out := fun _ h => h, qpErr := herr
          qps := fun q x hx => ⟨x, by rw [← hx]; unfold qpOf; rw [hqps], .refl x⟩ }

theorem traffic_foldl {A : Type} {f : State → A → State} {l : List A} (h : Traffic s u)
    (hf : ∀ (v : State) (a : A), Traffic s v → Traffic s (f v a)) : Traffic s (l.foldl f u) := by
  induction l generalizing u with
  | nil => exact h
  | cons a rest ih => exact ih (hf u a h)

theorem traffic_ite {c : Prop} [Decidable c] {a b : State} (ha : Traffic s a) (hb : Traffic s b) : Traffic s (if c then a else b) := by
  split
  · exact ha
  · exact hb

section
variable (h : Traffic s u)
include h

/-- Other blocks than RMA change, and nothing is emitted. -/
theorem Traffic.then_only {Q : List Block} {v : State} (ho : OnlyChanges Q u v) (hq : Q.all (fun b => b != .rma && b != .tb && b != .out) = true) :
    Traffic s v := by
  have away (b : Block) (hb : (b != .rma && b != .tb && b != .out) = false) : Q.contains b = false :=
    Bool.eq_false_iff.2 fun hc => by
      rw [List.all_eq_true] at hq
      rw [hq b (List.contains_iff_mem.1 hc)] at hb
      cases hb
  exact h.trans (.of_only ho (away .rma rfl) (away .tb rfl) (away .out rfl))

/-! ### Queue pairs and their work requests -/

theorem qpUpd_traffic {n : Nat} {f : Qp → Qp} (hf : ∀ x, QpKept x (f x)) : Traffic s (qpUpd n f u) := h.trans
  { ids := rfl, refused := rfl, rlRecv := rfl, arrival := rfl, tb := rfl, sent := sent_of_eq rfl, out := fun _ h => h, qpErr := rfl
    qps := fun q x hx => by
      by_cases hq : q = n
      · subst hq
        exact ⟨f x, by rw [qpOf_qpUpd_same, hx]; rfl, hf x⟩
      · exact ⟨x, by rw [← hx]; exact Tab.find_mod_other _ _ _ _ hq, .refl x⟩ }

theorem wrUpd_traffic {q i : Nat} {f : WrState → WrState} : Traffic s (wrUpd q i f u) := qpUpd_traffic h (by exact fun _ => ⟨rfl, rfl, id⟩)

theorem wrDone_traffic {q i : Nat} {c : Status} {v : DWord} : Traffic s (wrDone q i c v u) := wrUpd_traffic h

theorem msix_traffic {fn : FnId} {v : Nat} : Traffic s (msix fn v u) :=
  have ho : OnlyChanges [.out] u (msix fn v u) := msix_changes rfl (.refl _ u)
  h.trans (.of_rma (ho .rma rfl) (ho .tb rfl) (fun _ he => msix_out_mem fn v he))

theorem emit_traffic {e : Emit} : Traffic s (emit e u) := h.trans (.of_rma rfl rfl (fun _ he => List.mem_append_left _ he))

theorem bumpFree_traffic : Traffic s (bumpFree u) := h.trans (.of_same (by rfl))

theorem qpCompletion_traffic {q : Nat} {wrId : DWord} {c : Status} {op : Byte} {n : Nat} {src : DevId} {v : DWord} :
    Traffic s (qpCompletion q wrId c op n src v u) := by
  unfold qpCompletion
  split
  · exact h
  · exact traffic_ite h (msix_traffic (emit_traffic (qpUpd_traffic h (by exact fun _ => ⟨rfl, rfl, id⟩))))

theorem flushDone_traffic {q n : Nat} : Traffic s (flushDone q n u) := by
  induction n generalizing u with
  | zero => exact h
  | succ n ih =>
    unfold flushDone
    split
    · exact h
    · next x _ =>
      split
      · exact h
      · next w rest _ =>
        split
        · exact h
        · have htaken : Traffic s (qpUpd q (fun x => { x with wrs := rest }) u) := qpUpd_traffic h (by exact fun _ => ⟨rfl, rfl, id⟩)
          exact ih (traffic_ite htaken (qpCompletion_traffic htaken))

theorem qpFlush_traffic {q : Nat} : Traffic s (qpFlush q u) := by
  unfold qpFlush
  split
  · exact h
  · exact flushDone_traffic h

theorem ringEnds_traffic {q : Nat} {c : Status} : Traffic s (ringEnds q c u) := by
  unfold ringEnds
  split
  · exact h
  · exact traffic_foldl (qpUpd_traffic h (by exact fun _ => ⟨rfl, rfl, id⟩)) (fun _ _ hv => bumpFree_traffic (qpCompletion_traffic hv))

/-! ### Sending -/

theorem enqueue_traffic {n : Nat} {p : Packet} {cls tc : Nat} {tenant : Option (BitVec 16)} {len hdr : Nat} :
    Traffic s (enqueue n p cls tc tenant len hdr u) := h.then_only (Q := [.links]) (enqueue_changes rfl (.refl _ u)) rfl

theorem podQueue_traffic {k : Option Nat} {p : Packet} {cls tc : Nat} {tenant : Option (BitVec 16)} {len : Nat} :
    Traffic s (podQueue k p cls tc tenant len u) := h.then_only (Q := [.links]) (podQueue_changes rfl (.refl _ u)) rfl

theorem podPlace_traffic {n : Nat} : Traffic s (podPlace n u) := by
  unfold podPlace
  split
  · refine enqueue_traffic (h.trans (.of_record (by rfl) (fun o ho => ?_)))
    obtain ⟨o', ho', rfl⟩ := List.mem_map.1 ho
    exact .inr ⟨o', ho', by split <;> rfl, by split <;> rfl⟩
  · exact h

theorem podSend_traffic {hdr : PodHdr} {b : List Byte} {fw : Option FwMsg} {tenant : Option (BitVec 16)} {tc : Nat} :
    Traffic s (podSend hdr b fw tenant tc u) := by
  refine podPlace_traffic (h.trans (.of_record (by rfl) (fun o ho => ?_)))
  rcases List.mem_append.1 ho with ho | ho
  · exact .inr ⟨o, ho, rfl, rfl⟩
  · obtain rfl := List.mem_singleton.1 ho
    exact .inl rfl

theorem sendPod_traffic {d : DevId} {e : Word} {m : FwMsg} : Traffic s (sendPod d e m u) :=
  traffic_ite h (traffic_ite (podSend_traffic h) (h.trans (.of_record (by rfl) (sent_of_eq (by rfl)))))

theorem sendFw_traffic {d : DevId} {e : Word} {m : FwMsg} : Traffic s (sendFw d e m u) := by
  unfold sendFw
  split
  · exact emit_traffic h
  · split
    · split
      · exact h
      · exact enqueue_traffic h
    · exact sendPod_traffic h

theorem fetchStart_traffic {q : Nat} : Traffic s (fetchStart q u) := by
  unfold fetchStart
  split
  · exact h
  · exact traffic_ite h (qpUpd_traffic (h.trans (.of_record (by rfl) (sent_of_eq (by rfl)))) (fun _ => ⟨rfl, rfl, fun _ => rfl⟩))

theorem qpPump_traffic {q n : Nat} : Traffic s (qpPump q n u) := by
  induction n generalizing u with
  | zero => exact h
  | succ n ih =>
    unfold qpPump
    split
    · exact h
    · split
      · exact h
      · split
        · exact h
        · split
          · exact h
          · split
            · exact fetchStart_traffic h
            · exact ih (wrUpd_traffic (qpUpd_traffic (podSend_traffic h) (by exact fun _ => ⟨rfl, rfl, id⟩)))

theorem qpSend_traffic {q : Nat} : Traffic s (qpSend q u) := by
  unfold qpSend
  split
  · exact h
  · exact qpPump_traffic h

theorem dataSend_traffic {m : PodHdr × List Byte} : Traffic s (dataSend m u) := by
  unfold dataSend
  refine traffic_ite ?_ (h.trans (.of_record (by rfl) (sent_of_eq (by rfl))))
  exact traffic_ite ((podSend_traffic h).trans (.of_same (by rfl))) (podSend_traffic h)

theorem dataDrain_traffic : Traffic s (dataDrain u) :=
  traffic_foldl (h.trans (.of_record (by rfl) (sent_of_eq (by rfl)))) (fun _ _ hv => dataSend_traffic hv)

theorem fwDrain_traffic : Traffic s (fwDrain u) :=
  traffic_foldl (h.trans (.of_record (by rfl) (sent_of_eq (by rfl)))) (fun _ _ hv => sendPod_traffic hv)

theorem rmaPump_traffic : Traffic s (rmaPump u) := traffic_foldl (dataDrain_traffic (fwDrain_traffic h)) (fun _ _ hv => qpSend_traffic hv)

/-- A message that is no longer in flight. -/
theorem podGone_traffic {n : Nat} : Traffic s (podGone n u) :=
  h.trans (.of_record (by rfl) (fun o ho => .inr ⟨o, List.mem_of_mem_filter ho, rfl, rfl⟩))

/-! ### Faults of pages, and regions that are given up -/

theorem faultPost_traffic {n : Nat} {fn : FnId} : Traffic s (faultPost n fn u) := by
  induction n generalizing u with
  | zero => exact h
  | succ n ih =>
    unfold faultPost
    dsimp only
    split
    · exact h
    · refine traffic_ite (ih (msix_traffic (emit_traffic ?_))) h
      exact (h.trans (.of_record (r := { u.rma with faults := satInc u.rma.faults }) (by rfl) (sent_of_eq (by rfl)))).trans (.of_same (by rfl))

theorem faultRecord_traffic {fn : FnId} {r : FaultRec} : Traffic s (faultRecord fn r u) :=
  faultPost_traffic (h.trans (.of_same (by rfl)))

theorem raiseFault_traffic {k : Word} {kind : Byte} {page : Nat} : Traffic s (raiseFault k kind page u) := by
  unfold raiseFault
  refine traffic_ite h ?_
  split
  · exact h
  · exact faultRecord_traffic (h.trans (.of_record (by rfl) (sent_of_eq (by rfl))))

theorem deregRun_traffic : Traffic s (deregRun u) :=
  traffic_foldl (h.trans (.of_record (by rfl) (sent_of_eq (by rfl))))
    (fun _ _ hv => qpFlush_traffic (qpUpd_traffic hv (by exact fun _ => ⟨rfl, rfl, id⟩)))

/-! ### Reads of T1 -/

theorem reportEnd_traffic {q : ReqId} {c : Status} : Traffic s (reportEnd q c u) := by
  unfold reportEnd
  split
  · exact h
  · exact traffic_ite h (sendFw_traffic (h.then_only (Q := [.req]) (addCond_changes rfl (.refl _ u)) rfl))

theorem plateLost_traffic {r : PlateRef} : Traffic s (plateLost r u) :=
  h.then_only (Q := [.forme, .pair]) (plateLost_changes rfl (.refl _ u)) rfl

theorem retireFrame_traffic {f : Nat} : Traffic s (retireFrame f u) := by
  have hgone : Traffic s (frameRetired f u) := h.then_only (Q := [.dev, .maint, .tier]) (frameRetired_changes rfl (.refl _ u)) rfl
  unfold retireFrame
  dsimp only
  split
  · exact hgone.trans (.of_same (by rfl))
  · split
    · exact reportEnd_traffic (hgone.then_only (Q := [.codec, .tier, .req]) (emptyPage_changes rfl (.refl _ _)) rfl)
    · split
      · exact plateLost_traffic hgone
      · exact hgone

theorem granuleLost_traffic {mac : Bool} {a : Nat} : Traffic s (granuleLost mac a u) :=
  retireFrame_traffic (h.then_only (Q := [.dev, .tier]) (markLost_changes rfl (granuleFail_changes rfl (.refl _ u))) rfl)

theorem slugLost_traffic {crc : Bool} {pl : Place} : Traffic s (slugLost crc pl u) := by
  have hfail : Traffic s (slugFailure crc u) := h.then_only (Q := [.dev, .codec]) (slugFailure_changes rfl (.refl _ u)) rfl
  unfold slugLost
  dsimp only
  split
  · exact hfail
  · split
    · exact plateLost_traffic hfail
    · exact hfail
  · split
    · exact retireFrame_traffic hfail
    · split
      · exact plateLost_traffic hfail
      · exact hfail

theorem sliceLineFail_traffic {r off : Nat} : Traffic s (sliceLineFail r off u).2 := by
  unfold sliceLineFail
  split
  · exact h
  · split
    · split
      · exact h
      · dsimp only
        split
        · exact retireFrame_traffic (h.then_only (Q := [.tier]) (markLost_changes rfl (tier_only rfl u _)) rfl)
        · exact h.trans (.of_same (by rfl))
    · split
      · dsimp only
        split
        · exact plateLost_traffic h
        · exact h
      · exact h.then_only (Q := [.maint, .tier]) (addRepair_changes rfl (tier_only rfl u _)) rfl

/-- A read of T1 sends at most the end of a request whose page is lost (07 R189). -/
theorem readOutcome_traffic {o : ReadOutcome} : Traffic s (readOutcome o u).2 := by
  cases o with
  | good => exact h
  | corrected ch => exact h.trans (.of_same (by rfl))
  | uncorrectable a =>
    unfold readOutcome
    dsimp only
    split
    · exact granuleLost_traffic h
    · exact h
  | macFail a =>
    unfold readOutcome
    dsimp only
    split
    · exact granuleLost_traffic h
    · exact h
  | sliceLine r off => exact sliceLineFail_traffic h
  | slug crc a => exact slugLost_traffic (crc := crc) (pl := .t1 a) h
  | clusterEcc c => exact h

/-! ### Channels over queue pairs -/

/-- An item that ends without its requests sends nothing. -/
theorem endItem_traffic {n : Nat} {c : Status} {cause : Nat} : Traffic s (endItem n c cause false u) := by
  have hcause : Traffic s (clusterCause n cause u) := h.then_only (Q := [.dev, .clusters]) (clusterCause_changes rfl (.refl _ u)) rfl
  unfold endItem
  dsimp only
  split <;> exact hcause.trans (.of_same (by rfl))

theorem clusterUpd_traffic {n : Nat} {f : Cluster → Cluster} : Traffic s (clusterUpd n f u) := h.trans (.of_same (by rfl))

theorem wakeWait_traffic {n : Nat} : Traffic s (wakeWait n u) := by
  unfold wakeWait
  dsimp only
  split
  · split
    · exact h
    · exact traffic_ite (clusterUpd_traffic h) (traffic_ite (clusterUpd_traffic h) h)
  · split
    · exact h
    · split
      · exact endItem_traffic h
      · exact clusterUpd_traffic h
  · exact h

theorem rebind_traffic {n : Nat} {reach : Bool} : Traffic s (rebind n reach u) :=
  h.then_only (Q := [.clusters, .sched, .req]) (rebind_changes rfl (.refl _ u)) rfl

theorem breakChannels_traffic {sel : ChanPeer → Bool} {c : Status} : Traffic s (breakChannels sel c u) :=
  traffic_foldl h (fun _ _ hv => traffic_ite (rebind_traffic (wakeWait_traffic (clusterUpd_traffic hv))) hv)

theorem creditBack_traffic {n ch k : Nat} : Traffic s (creditBack n ch k u) :=
  rebind_traffic (wakeWait_traffic (clusterUpd_traffic h))

theorem placeMsg_traffic {n ch : Nat} {m : List Byte} : Traffic s (placeMsg n ch m u) := by
  unfold placeMsg
  split
  · exact h
  · exact wakeWait_traffic (clusterUpd_traffic (clusterUpd_traffic h))

theorem divertOrPlace_traffic {n ch : Nat} {m : List Byte} : Traffic s (divertOrPlace n ch m u) := by
  unfold divertOrPlace
  split
  · exact h
  · split
    · exact rebind_traffic (h.trans (.of_same (by rfl)))
    · exact rebind_traffic (placeMsg_traffic h)

theorem drainAhead_traffic {n ch k : Nat} : Traffic s (drainAhead n ch k u) := by
  induction k generalizing u with
  | zero => exact h
  | succ k ih =>
    unfold drainAhead
    split
    · exact h
    · split
      · exact h
      · exact ih (divertOrPlace_traffic (clusterUpd_traffic h))

theorem chanDeliver_traffic {n ch : Nat} {at_ : Option Nat} {m : List Byte} : Traffic s (chanDeliver n ch at_ m u) := by
  unfold chanDeliver
  split
  · exact divertOrPlace_traffic h
  · exact drainAhead_traffic (clusterUpd_traffic h)

end

end Sys2Proof.Machine
end

section
/-!
A message at its target (11 R305 to R313, R315): its identifier entry, the answer that makes the entry DONE, and what each check of R310
and each effect leaves.
-/

namespace Sys2Proof.Machine

variable {s t u : State} {m : PodMsg} {q : Nat}

/-! ### A queue pair that enters ERROR (11 R316) -/

/-- A queue pair in ERROR, in the state that its failure leaves. -/
def QpFailed (q : Nat) (s t : State) : Prop := t.rma.qpErr = satInc s.rma.qpErr ∧ ∃ y, qpOf t q = some y ∧ y.ready = false

theorem QpFailed.of_traffic (h : QpFailed q s t) (k : Traffic t u) : QpFailed q s u := by
  obtain ⟨herr, y, hy, hready⟩ := h
  obtain ⟨z, hz, hkept, -, -⟩ := k.qps q y hy
  exact ⟨k.qpErr.trans herr, z, hz, hkept.trans hready⟩

/-- A change of one queue pair. -/
theorem qpUpd_kept (n : Nat) (f : Qp → Qp) (s : State) : RmaKept s (qpUpd n f s) where
  ids := rfl
  refused := rfl
  rlRecv := rfl
  arrival := rfl
  tb := rfl
  sent := sent_of_eq rfl
  out := fun _ h => h

/-- The queue pair with WR `i` completed with `c` and every other with QP_ERROR, its rings not yet emptied. -/
def qpStopped (q : Nat) (i : Option Nat) (c : Status) (s : State) : State :=
  qpUpd q (fun x => { x with
    ready := false, recvCons := x.recvProd
    wrs := x.wrs.map (fun w => { w with done := some (w.done.getD .qpError), todo := [], inflight := [], backoff := [], heldPage := none }) })
    (match i with
     | some i => wrDone q i c 0 s
     | none => s)

/-- The failure is counted and the messages of the queue pair's WRs are abandoned. -/
def qpErrCounted (q : Nat) (s : State) : State :=
  { s with rma := { s.rma with
      qpErr := satInc s.rma.qpErr, out := s.rma.out.filter (fun m => m.hdr.srcQp.toNat != q || m.fw.isSome || m.hdr.type == 3) } }

theorem qpStopped_kept (q : Nat) (i : Option Nat) (c : Status) (s : State) : RmaKept s (qpStopped q i c s) := by
  unfold qpStopped
  split
  · exact (wrDone_traffic (.refl s)).toRmaKept.trans (qpUpd_kept ..)
  · exact qpUpd_kept ..

theorem qpStopped_failed {i : Option Nat} {c : Status} {x : Qp} (hx : qpOf s q = some x) :
    (qpStopped q i c s).rma.qpErr = s.rma.qpErr ∧ ∃ y, qpOf (qpStopped q i c s) q = some y ∧ y.ready = false := by
  unfold qpStopped
  split
  · rw [qpOf_qpUpd_same, wrDone, wrUpd, qpOf_qpUpd_same, hx]
    exact ⟨rfl, _, rfl, rfl⟩
  · rw [qpOf_qpUpd_same, hx]
    exact ⟨rfl, _, rfl, rfl⟩

theorem qpErrCounted_kept (q : Nat) (s : State) : RmaKept s (qpErrCounted q s) where
  ids := rfl
  refused := rfl
  rlRecv := rfl
  arrival := rfl
  tb := rfl
  sent := fun o ho => .inr ⟨o, List.mem_of_mem_filter ho, rfl, rfl⟩
  out := fun _ h => h

/-- The steps of the failure of a queue pair that was READY. -/
theorem qpError_of_ready {i : Option Nat} {c : Status} {x : Qp} (hx : qpOf s q = some x) (hr : x.ready = true) :
    ∃ v, Traffic (qpStopped q i c s) v ∧ Traffic (qpErrCounted q v) (qpError q i c s) := by
  unfold qpError
  rw [hx]
  simp only [hr, Bool.not_true, Bool.false_eq_true, if_false]
  exact ⟨_, traffic_foldl (ringEnds_traffic (qpFlush_traffic (.refl _))) (fun _ _ hv => qpCompletion_traffic hv),
    breakChannels_traffic ((Traffic.refl _).then_only (Q := [.dev]) (noteErr_changes rfl (.refl _ _)) rfl)⟩

/-- A READY queue pair that fails is in ERROR, and the failure is counted once. -/
theorem qpError_failed {i : Option Nat} {c : Status} {x : Qp} (hx : qpOf s q = some x) (hr : x.ready = true) :
    QpFailed q s (qpError q i c s) := by
  obtain ⟨v, hv, ht⟩ := qpError_of_ready (i := i) (c := c) hx hr
  obtain ⟨herr, y, hy, hready⟩ := qpStopped_failed (i := i) (c := c) hx
  obtain ⟨z, hz, hkept, -, -⟩ := hv.qps q y hy
  have counted : QpFailed q s (qpErrCounted q v) := ⟨congrArg satInc (hv.qpErr.trans herr), z, hz, hkept.trans hready⟩
  exact counted.of_traffic ht

theorem qpError_kept (q : Nat) (i : Option Nat) (c : Status) (s : State) : RmaKept s (qpError q i c s) := by
  have idle (h : qpError q i c s = s) : RmaKept s (qpError q i c s) := by rw [h]; exact (Traffic.refl s).toRmaKept
  cases hx : qpOf s q with
  | none => exact idle (by unfold qpError; rw [hx])
  | some x =>
    cases hr : x.ready with
    | false => exact idle (by unfold qpError; rw [hx]; simp [hr])
    | true =>
      obtain ⟨v, hv, ht⟩ := qpError_of_ready (i := i) (c := c) hx hr
      exact ((qpStopped_kept q i c s).trans hv.toRmaKept).trans ((qpErrCounted_kept q v).trans ht.toRmaKept)

/-! ### Answers (11 R301, R306) -/

/-- The identifier memory holds an entry of the message. -/
def HasEntry (h : PodHdr) (s : State) : Prop := ∃ e ∈ s.rma.ids, e.src = BitVec.ofNat 12 h.src.toNat ∧ e.id = h.id

/-- The message's entry is DONE with a code and a result. -/
def EntryDone (h : PodHdr) (c : Status) (b : List Byte) (s : State) : Prop :=
  ∃ e ∈ s.rma.ids, e.src = BitVec.ofNat 12 h.src.toNat ∧ e.id = h.id ∧ e.done = some (c, b)

theorem HasEntry.of_kept {h : PodHdr} (he : HasEntry h s) (k : RmaKept s t) : HasEntry h t := by
  unfold HasEntry; rwa [k.ids]

theorem EntryDone.of_kept {h : PodHdr} {c : Status} {b : List Byte} (he : EntryDone h c b s) (k : RmaKept s t) : EntryDone h c b t := by
  unfold EntryDone; rwa [k.ids]

theorem podAck_traffic (h : PodHdr) (c : Status) (b : List Byte) (s : State) : Traffic s (podAck h c b s) :=
  podQueue_traffic ((Traffic.refl s).trans (.of_record (by rfl) (sent_of_eq (by rfl))))

theorem idDone_entryDone {h : PodHdr} (c : Status) (b : List Byte) (he : HasEntry h s) : EntryDone h c b (idDone h c b s) := by
  obtain ⟨e, he, hsrc, hid⟩ := he
  refine ⟨{ e with done := some (c, b) }, List.mem_map.2 ⟨e, he, ?_⟩, hsrc, hid, rfl⟩
  simp [hsrc, hid]

/-- A message that is finished has its entry DONE. -/
theorem podFinish_entryDone {h : PodHdr} (c : Status) (b : List Byte) (he : HasEntry h s) : EntryDone h c b (podFinish h c b s) := by
  have hdone := idDone_entryDone (s := { s with rma := { s.rma with stale := if c = .epochStale then satInc s.rma.stale else s.rma.stale } }) c b he
  exact hdone.of_kept (podAck_traffic h c b _).toRmaKept

theorem podFinish_only (h : PodHdr) (c : Status) (b : List Byte) (s : State) : OnlyChanges [.rma, .links] s (podFinish h c b s) :=
  podFinish_changes rfl (.refl _ s)

theorem podQueue_rma {k : Option Nat} {p : Packet} {cls tc : Nat} {tenant : Option (BitVec 16)} {len : Nat} :
    (podQueue k p cls tc tenant len s).rma = s.rma := podQueue_changes (Q := [.links]) rfl (.refl _ s) .rma rfl

@[simp] theorem qpOf_podFinish (h : PodHdr) (c : Status) (b : List Byte) (s : State) (n : Nat) : qpOf (podFinish h c b s) n = qpOf s n := by
  unfold podFinish podAck qpOf
  rw [podQueue_rma]
  rfl

theorem podFinish_stale (h : PodHdr) (c : Status) (b : List Byte) (s : State) :
    (podFinish h c b s).rma.stale = if c = .epochStale then satInc s.rma.stale else s.rma.stale := by
  unfold podFinish podAck
  rw [podQueue_rma]
  rfl

/-! ### Arrival (11 R305, R306) -/

/-- A new record of the remote-access engine is a change of that block alone. -/
theorem onlyChanges_rma {Q : List Block} (hq : Q.contains .rma = true) (r : Rma) : OnlyChanges Q s { s with rma := r } := by
  intro b hb
  cases b with
  | rma => rw [hq] at hb; cases hb
  | _ => rfl

/-- The entry of a new message is made. -/
def withEntry (m : PodMsg) (s : State) : State :=
  { s with rma := { s.rma with
      ids := s.rma.ids ++ [{ src := BitVec.ofNat 12 m.hdr.src.toNat, id := m.hdr.id, first := m.hdr.firstTb.toNat, done := none }] } }

theorem withEntry_hasEntry (m : PodMsg) (s : State) : HasEntry m.hdr (withEntry m s) :=
  ⟨_, List.mem_append_right _ (List.mem_singleton_self _), rfl, rfl⟩

/-- The message arrives in its lifetime, at a device in service. -/
def InLifetime (m : PodMsg) (s : State) : Prop := fenced s = false ∧ s.tb < m.hdr.firstTb.toNat + 80000

/-- The identifier memory holds no entry of the message. -/
def IsNew (m : PodMsg) (s : State) : Prop := ∀ e ∈ s.rma.ids, ¬ (e.src = BitVec.ofNat 12 m.hdr.src.toNat ∧ e.id = m.hdr.id)

/-- A fenced device, and a command of another TYPE, take nothing. -/
theorem podTake_other {ty : Nat} (h : fenced s = true ∨ (m.hdr.type.toNat ≠ ty ∧ 1 ≤ m.hdr.type.toNat ∧ m.hdr.type.toNat ≤ 6)) :
    podTake ty m s = s := by
  unfold podTake
  dsimp only
  rw [if_pos]
  rcases h with h | h <;> simp [h]

/-- Past the fence, the TYPE and the lifetime the identifier memory decides. -/
theorem podTake_inLifetime {ty : Nat} (hl : InLifetime m s) (ht : m.hdr.type.toNat = ty) :
    podTake ty m s = match s.rma.ids.find? (fun e => e.src == BitVec.ofNat 12 m.hdr.src.toNat && e.id == m.hdr.id) with
      | some e =>
        match e.done with
        | some (c, b) => podAck m.hdr c b { s with rma := { s.rma with dups := satInc s.rma.dups } }
        | none => { s with rma := { s.rma with dups := satInc s.rma.dups } }
      | none =>
        if podEarly (withEntry m s) m = .ok then deregRun (podTakeOn m (withEntry m s))
        else podFinish m.hdr (podEarly (withEntry m s) m) [] (withEntry m s) := by
  obtain ⟨hf, hlt⟩ := hl
  unfold podTake
  dsimp only
  rw [if_neg (by simp [hf, ht]), if_neg (by omega)]
  rfl

/-- A duplicate is counted and, once its entry is DONE, answered again. -/
theorem podTake_duplicate {ty : Nat} {d : IdEntry} (hl : InLifetime m s) (ht : m.hdr.type.toNat = ty)
    (hd : s.rma.ids.find? (fun e => e.src == BitVec.ofNat 12 m.hdr.src.toNat && e.id == m.hdr.id) = some d) :
    OnlyChanges [.rma, .links] s (podTake ty m s) ∧ (podTake ty m s).rma.dups = satInc s.rma.dups ∧ (podTake ty m s).rma.ids = s.rma.ids
      ∧ (d.done = none → podTake ty m s = { s with rma := { s.rma with dups := satInc s.rma.dups } }) := by
  have counted : OnlyChanges [.rma, .links] s { s with rma := { s.rma with dups := satInc s.rma.dups } } := onlyChanges_rma rfl _
  rw [podTake_inLifetime hl ht, hd]
  dsimp only
  split
  · next c b hdone =>
    refine ⟨podAck_changes rfl counted, ?_, ?_, fun h => by rw [hdone] at h; cases h⟩
    · unfold podAck; rw [podQueue_rma]
    · unfold podAck; rw [podQueue_rma]
  · exact ⟨counted, rfl, rfl, fun _ => rfl⟩

theorem find?_entry_none (hn : IsNew m s) :
    s.rma.ids.find? (fun e => e.src == BitVec.ofNat 12 m.hdr.src.toNat && e.id == m.hdr.id) = none := by
  refine List.find?_eq_none.2 fun e he => ?_
  simpa using hn e he

theorem podEarly_withEntry (m : PodMsg) (s : State) : podEarly (withEntry m s) m = podEarly s m := rfl

/-- A new message that fails a check of steps 3 to 6 is done with its code. -/
theorem podTake_refused {ty : Nat} (hl : InLifetime m s) (ht : m.hdr.type.toNat = ty) (hn : IsNew m s) (he : podEarly s m ≠ .ok) :
    podTake ty m s = podFinish m.hdr (podEarly s m) [] (withEntry m s) := by
  rw [podTake_inLifetime hl ht, find?_entry_none hn]
  exact if_neg he

/-- A new message that passes them is taken on. -/
theorem podTake_new {ty : Nat} (hl : InLifetime m s) (ht : m.hdr.type.toNat = ty) (hn : IsNew m s) (he : podEarly s m = .ok) :
    podTake ty m s = deregRun (podTakeOn m (withEntry m s)) := by
  rw [podTake_inLifetime hl ht, find?_entry_none hn]
  exact if_pos he

end Sys2Proof.Machine
end

section
/-!
The execution of a message at its target (11 R309 to R313, R315, R320; 15 R401, R403): what each branch leaves.
-/

namespace Sys2Proof.Machine

variable {s t u : State} {m : PodMsg} {x : Qp}

/-! ### Taking a message on (11 R312) -/

/-- The state in which a message is executed: its entry is made and its context used. -/
def begun (m : PodMsg) (s : State) : State := qpUpd m.hdr.dstQp.toNat (fun x => { x with used := s.tb }) (withEntry m s)

theorem begun_only {Q : List Block} (hq : Q.contains .rma = true) : OnlyChanges Q s (begun m s) := onlyChanges_rma hq _

theorem begun_hasEntry (m : PodMsg) (s : State) : HasEntry m.hdr (begun m s) := withEntry_hasEntry m s

theorem qpOf_begun (hx : qpOf s m.hdr.dstQp.toNat = some x) : qpOf (begun m s) m.hdr.dstQp.toNat = some { x with used := s.tb } := by
  unfold begun
  rw [qpOf_qpUpd_same, show qpOf (withEntry m s) m.hdr.dstQp.toNat = some x from hx]
  rfl

theorem podKey_begun (hx : qpOf s m.hdr.dstQp.toNat = some x) : podKey (begun m s) m = podKey s m := by
  unfold podKey
  rw [qpOf_begun hx, hx]
  cases podRight m <;> rfl

theorem wrOf_begun (hx : qpOf s m.hdr.dstQp.toNat = some x) (n : Nat) : wrOf (begun m s) m.hdr.dstQp.toNat n = wrOf s m.hdr.dstQp.toNat n := by
  unfold wrOf
  rw [qpOf_begun hx, hx]

theorem podTakeOn_resident (hx : qpOf s m.hdr.dstQp.toNat = some x) (hr : x.resident = true) :
    podTakeOn m (withEntry m s) = podExecute m (begun m s) := by
  unfold podTakeOn
  dsimp only
  rw [show qpOf (withEntry m s) m.hdr.dstQp.toNat = some x from hx]
  exact if_pos hr

theorem podTakeOn_full (hx : qpOf s m.hdr.dstQp.toNat = some x) (hr : x.resident = false)
    (hfull : s.rma.arrivalHigh * 1024 < arrivalBytes s + parkedBytes m) :
    podTakeOn m (withEntry m s) = podFinish m.hdr .retryLater [] (withEntry m s) := by
  unfold podTakeOn
  dsimp only
  rw [show qpOf (withEntry m s) m.hdr.dstQp.toNat = some x from hx]
  dsimp only
  rw [hr, if_neg Bool.false_ne_true]
  exact if_pos (decide_eq_true hfull)

/-- The message is parked in the arrival buffer. -/
def parked (m : PodMsg) (s : State) : State := { withEntry m s with rma := { (withEntry m s).rma with arrival := s.rma.arrival ++ [m] } }

theorem podTakeOn_parks (hx : qpOf s m.hdr.dstQp.toNat = some x) (hr : x.resident = false)
    (hroom : arrivalBytes s + parkedBytes m ≤ s.rma.arrivalHigh * 1024) :
    podTakeOn m (withEntry m s) = fetchStart m.hdr.dstQp.toNat (parked m s) := by
  unfold podTakeOn
  dsimp only
  rw [show qpOf (withEntry m s) m.hdr.dstQp.toNat = some x from hx]
  dsimp only
  rw [hr, if_neg Bool.false_ne_true]
  exact if_neg (fun h => absurd (of_decide_eq_true h) (Nat.not_lt.2 hroom))

/-- A fetch that is begun runs. -/
theorem fetchStart_fetching {q : Nat} (hx : qpOf s q = some x) : ∃ y, qpOf (fetchStart q s) q = some y ∧ y.fetching = true := by
  unfold fetchStart
  rw [hx]
  dsimp only
  split
  · next hf => exact ⟨x, hx, hf⟩
  · rw [qpOf_qpUpd_same, show qpOf { s with rma := { s.rma with qpcMiss := satInc s.rma.qpcMiss } } q = some x from hx]
    exact ⟨_, rfl, rfl⟩

/-! ### Steps 7 to 9 -/

theorem podExecute_refused (hk : podKey s m ≠ .ok) : podExecute m s = podFinish m.hdr (podKey s m) [] s := if_pos hk

theorem podExecute_away {p : Nat} {ps : List Nat} (hk : podKey s m = .ok) (ha : podAbsent s m = p :: ps) : podExecute m s = podAway m p s := by
  unfold podExecute
  dsimp only
  rw [if_neg (not_not.2 hk), ha]

theorem podExecute_present (hk : podKey s m = .ok) (ha : podAbsent s m = []) :
    podExecute m s = if podTagBad s m && !(m.hdr.type = 4 && decide (16384 ≤ s.near.combine.length)) then podTagFails m s else podEffect m s := by
  unfold podExecute
  dsimp only
  rw [if_neg (not_not.2 hk), ha]

theorem podAway_entryDone {p : Nat} (he : HasEntry m.hdr s) :
    EntryDone m.hdr (if faultFailed s m.hdr.rkey p then .denied else if m.hdr.type = 2 then .ok else .retryLater) [] (podAway m p s) := by
  unfold podAway
  dsimp only
  split
  · exact podFinish_entryDone _ _ he
  · split
    · exact podFinish_entryDone _ _ (he.of_kept ((raiseFault_traffic (.refl s)).trans (.of_record (by rfl) (sent_of_eq (by rfl)))).toRmaKept)
    · exact podFinish_entryDone _ _ (he.of_kept (raiseFault_traffic (.refl s)).toRmaKept)

theorem podTagFails_entryDone (he : HasEntry m.hdr s) : EntryDone m.hdr .integrity [] (podTagFails m s) :=
  podFinish_entryDone _ _ (he.of_kept
    (((Traffic.refl s).trans (.of_same (by rfl))).then_only (Q := [.dev]) (noteErr_changes rfl (.refl _ _)) rfl).toRmaKept)

theorem podTagFails_counted (m : PodMsg) (s : State) : (podTagFails m s).sec.msgAuthFail = satInc s.sec.msgAuthFail := by
  have finished (u : State) : (podFinish m.hdr .integrity [] u).sec = u.sec := OnlyChanges.sec_eq (podFinish_only _ _ _ u) rfl rfl
  have noted (u : State) : (noteErr 14 0 0x040 u).sec = u.sec := OnlyChanges.sec_eq (noteErr_changes (Q := [.dev]) rfl (.refl _ u)) rfl rfl
  unfold podTagFails
  rw [finished, noted]

/-! ### Regions (11 R296) -/

/-- The DMA writes of a host region. -/
def hostWrites (r : Region) (off : Nat) (bs : List Byte) : List Emit :=
  if r.onDemand && r.page != 0 then
    (cutAt r.page r.page off bs.length (bs.length / r.page + 2) 0).map (fun p => .dmaWrite r.ctx (hostAddr r (off + p.1)) ((bs.drop p.1).take p.2))
  else [.dmaWrite r.ctx (hostAddr r off) bs]

theorem foldl_emit_out {A : Type} (f : A → Emit) (l : List A) (s : State) :
    (l.foldl (fun s a => emit (f a) s) s).out = s.out ++ l.map f := by
  induction l generalizing s with
  | nil => exact (List.append_nil _).symm
  | cons a rest ih => rw [List.foldl_cons, ih, emit, List.map_cons, List.append_assoc]; rfl

theorem hostWrite_out (r : Region) (off : Nat) (bs : List Byte) (s : State) : (hostWrite r off bs s).out = s.out ++ hostWrites r off bs := by
  unfold hostWrite hostWrites
  split
  · exact foldl_emit_out _ _ s
  · rfl

theorem hostWrite_only (r : Region) (off : Nat) (bs : List Byte) (s : State) : OnlyChanges [.out] s (hostWrite r off bs s) :=
  hostWrite_changes rfl (.refl _ s)

/-- The host gets the bytes: each DMA write of them is among the emissions. -/
def HostGets (r : Region) (off : Nat) (bs : List Byte) (t : State) : Prop := ∀ e ∈ hostWrites r off bs, e ∈ t.out

theorem hostWrite_hostGets (r : Region) (off : Nat) (bs : List Byte) (s : State) : HostGets r off bs (hostWrite r off bs s) :=
  fun e he => by rw [hostWrite_out]; exact List.mem_append_right _ he

theorem HostGets.of_kept {r : Region} {off : Nat} {bs : List Byte} (h : HostGets r off bs s) (k : RmaKept s t) : HostGets r off bs t :=
  fun e he => k.out e (h e he)

theorem podFinish_out (h : PodHdr) (c : Status) (b : List Byte) (s : State) : (podFinish h c b s).out = s.out := podFinish_only h c b s .out rfl

theorem granuleStore_t1 (a n : Nat) (s : State) (g : Nat) : (granuleStore a n s g).tier.t1 = s.tier.t1 := by
  unfold granuleStore
  split
  · dsimp only
    split <;> rfl
  · rfl

theorem t1Write_t1 (a : Nat) (bs : List Byte) (s : State) : (t1Write a bs s).tier.t1 = Mem.store s.tier.t1 a bs := by
  unfold t1Write
  generalize granules a bs.length = gs
  have stores (v : State) : (gs.foldl (granuleStore a bs.length) v).tier.t1 = v.tier.t1 := by
    induction gs generalizing v with
    | nil => rfl
    | cons g rest ih => rw [List.foldl_cons, ih, granuleStore_t1]
  exact stores _

theorem regionWrite_traffic {r : Region} {off : Nat} {bs : List Byte} (h : Traffic s u) : Traffic s (regionWrite r off bs u) := by
  unfold regionWrite
  split
  · exact h.then_only (Q := [.tier]) (partStore_changes rfl (.refl _ u)) rfl
  · have ho := hostWrite_only r off bs u
    exact h.trans (.of_rma (ho .rma rfl) (ho .tb rfl) (fun e he => by rw [hostWrite_out]; exact List.mem_append_left _ he))

theorem regionMerge_traffic {r : Region} {off : Nat} {bs : List Byte} {o : ReadOutcome} (h : Traffic s u) :
    Traffic s (regionMerge r off bs o u).2 := by
  unfold regionMerge
  split
  · dsimp only
    split
    · exact traffic_ite (regionWrite_traffic (readOutcome_traffic h)) (readOutcome_traffic h)
    · exact traffic_ite (regionWrite_traffic h) h
  · exact regionWrite_traffic h

end Sys2Proof.Machine
end

section
/-!
The effect of each message (11 R309, R310 step 9, R313, R315, R320; 15 R403).
-/

namespace Sys2Proof.Machine

variable {s t u : State} {m : PodMsg} {x : Qp} {r : Region}

/-! ### WRITE (11 R300, R310; 07 R184, R185) -/

theorem podEffect_write (ht : m.hdr.type.toNat = 1) (hr : regionOf s m.hdr.rkey = some r) :
    podEffect m s = podFinish m.hdr (if (regionMerge r m.hdr.offset.toNat m.payload m.reads s).1 then .ok else .integrity) []
      (regionMerge r m.hdr.offset.toNat m.payload m.reads s).2 := by
  unfold podEffect
  dsimp only
  rw [ht, hr]
  rfl

/-- Whether a read gets its data is a matter of the memory tiers and the forme. -/
theorem readOutcome_fst_congr (o : ReadOutcome) (ht : u.tier = s.tier) (hf : u.forme = s.forme) : (readOutcome o u).1 = (readOutcome o s).1 := by
  have written (a : Nat) : frameWritten u a = frameWritten s a := by unfold frameWritten; rw [ht]
  cases o with
  | uncorrectable a => unfold readOutcome; simp only [written, apply_ite Prod.fst]
  | macFail a => unfold readOutcome; simp only [written, apply_ite Prod.fst]
  | sliceLine r off =>
    have cfg : regionCfg u r.toNat = regionCfg s r.toNat := by unfold regionCfg; rw [hf]
    have part : partOfRegion u r.toNat = partOfRegion s r.toNat := by unfold partOfRegion; rw [hf]
    have addr (p : Nat) : partAddr u p = partAddr s p := by unfold partAddr; rw [hf]
    have plate : plateStart u r.toNat = plateStart s r.toNat := by unfold plateStart; rw [cfg]
    unfold readOutcome sliceLineFail
    dsimp only
    rw [cfg, part, ht, plate]
    cases regionCfg s r.toNat with
    | none => rfl
    | some c =>
      dsimp only
      cases partOfRegion s r.toNat with
      | none => simp only [apply_ite Prod.fst]
      | some p => simp only [addr, apply_ite Prod.fst]
  | _ => rfl

theorem regionMerge_fst_begun (r : Region) (off : Nat) (bs : List Byte) (o : ReadOutcome) (m : PodMsg) (s : State) :
    (regionMerge r off bs o (begun m s)).1 = (regionMerge r off bs o s).1 := by
  unfold regionMerge
  cases r.t1 with
  | none => rfl
  | some k =>
    dsimp only
    rw [show partAddr (begun m s) k.toNat = partAddr s k.toNat from rfl]
    split
    · exact readOutcome_fst_congr _ rfl rfl
    · rfl

/-- A write that fills its granules, or reads them well first, is made. -/
theorem regionMerge_t1 {k : PartId} {off : Nat} {bs : List Byte} {o : ReadOutcome} (hk : r.t1 = some k)
    (h : ((partAddr s k.toNat + (r.base.toNat + off)) % 512 = 0 ∧ bs.length % 512 = 0)
      ∨ seenOutcome s (.t1 (partAddr s k.toNat + (r.base.toNat + off))) bs.length o = .good) :
    regionMerge r off bs o s = (true, regionWrite r off bs s) := by
  unfold regionMerge
  rw [hk]
  dsimp only
  rcases h with ⟨ha, hl⟩ | h
  · rw [if_neg (by simp [ha, hl])]
    rfl
  · rw [h]
    split <;> rfl

theorem regionMerge_host {off : Nat} {bs : List Byte} {o : ReadOutcome} (hk : r.t1 = none) :
    regionMerge r off bs o s = (true, hostWrite r off bs s) := by
  unfold regionMerge regionWrite
  rw [hk]

theorem regionWrite_t1 {k : PartId} {off : Nat} {bs : List Byte} (hk : r.t1 = some k) :
    (regionWrite r off bs s).tier.t1 = Mem.store s.tier.t1 (partAddr s k.toNat + (r.base.toNat + off)) bs := by
  unfold regionWrite partStore
  rw [hk]
  exact t1Write_t1 ..

/-! ### READ_REQ (11 R309) -/

theorem podEffect_read (ht : m.hdr.type.toNat = 2) : podEffect m s = serveRead m (podFinish m.hdr .ok [] s) := by
  unfold podEffect
  dsimp only
  rw [ht]
  rfl

theorem readFails_traffic {h : PodHdr} {c : Status} (k : Traffic s u) : Traffic s (readFails h c u) :=
  dataDrain_traffic (k.trans (.of_record (by rfl) (sent_of_eq (by rfl))))

theorem readData_traffic {h : PodHdr} {b : List Byte} (k : Traffic s u) : Traffic s (readData h b u) :=
  dataDrain_traffic (k.trans (.of_record (by rfl) (sent_of_eq (by rfl))))

theorem regionRead_only (r : Region) (off n : Nat) (host : List Byte) (s : State) : OnlyChanges [.tier, .free] s (regionRead r off n host s).2 := by
  unfold regionRead
  split
  · exact partLoad_changes rfl (.refl _ s)
  · exact .refl _ s

theorem serveRead_traffic {m : PodMsg} (k : Traffic s u) : Traffic s (serveRead m u) := by
  unfold serveRead
  split
  · exact readFails_traffic k
  · dsimp only
    split
    · exact readFails_traffic (readOutcome_traffic k)
    · exact readData_traffic ((readOutcome_traffic k).then_only (regionRead_only _ _ _ _ _) rfl)

theorem foldl_t1 {A : Type} {f : State → A → State} (hf : ∀ (v : State) (a : A), (f v a).tier.t1 = v.tier.t1) (l : List A) (s : State) :
    (l.foldl f s).tier.t1 = s.tier.t1 := by
  induction l generalizing s with
  | nil => rfl
  | cons a rest ih => rw [List.foldl_cons, ih, hf]

theorem countCached_t1 (gs : List Nat) (s : State) : (countCached gs s).tier.t1 = s.tier.t1 := by
  unfold countCached
  refine foldl_t1 ?_ gs s
  intro _ _
  rfl

theorem countGranules_t1 (wr : Bool) (gs : List Nat) (s : State) : (countGranules wr gs s).tier.t1 = s.tier.t1 := by
  unfold countGranules
  refine foldl_t1 ?_ gs s
  intro _ _
  rfl

theorem partLoad_fst (p off n : Nat) (s : State) : (partLoad p off n s).1 = Mem.load s.tier.t1 (partAddr s p + off) n := rfl

theorem partLoad_t1 (p off n : Nat) (s : State) : (partLoad p off n s).2.tier.t1 = s.tier.t1 :=
  (countCached_t1 ..).trans (countGranules_t1 ..)

theorem regionRead_t1 (r : Region) (off n : Nat) (host : List Byte) (s : State) : (regionRead r off n host s).2.tier.t1 = s.tier.t1 := by
  unfold regionRead
  split
  · exact partLoad_t1 ..
  · rfl

/-- A read without an error sends the region's bytes. -/
theorem serveRead_good (hr : regionOf s m.hdr.rkey = some r)
    (hg : seenOutcome s (regionPlace s r m.hdr.offset.toNat) m.hdr.rlen.toNat m.reads = .good) :
    serveRead m s = readData m.hdr (regionRead r m.hdr.offset.toNat m.hdr.rlen.toNat m.host s).1
      (regionRead r m.hdr.offset.toNat m.hdr.rlen.toNat m.host s).2 := by
  unfold serveRead
  rw [hr]
  dsimp only
  rw [hg]
  rfl

theorem dataDrain_only (s : State) : OnlyChanges [.repro, .rma, .links] s (dataDrain s) := dataDrain_changes rfl (.refl _ s)

theorem readData_tier (h : PodHdr) (b : List Byte) (s : State) : (readData h b s).tier = s.tier := dataDrain_only _ .tier rfl

theorem podPlace_mem {n : Nat} {o : PodOut} (ho : o ∈ s.rma.out) :
    ∃ o' ∈ (podPlace n s).rma.out, o'.hdr = o.hdr ∧ o'.payload = o.payload := by
  unfold podPlace
  split
  · rw [enqueue_changes (Q := [.links]) rfl (.refl _ _) .rma rfl]
    exact ⟨_, List.mem_map_of_mem ho, by split <;> rfl, by split <;> rfl⟩
  · exact ⟨o, ho, rfl, rfl⟩

/-- A message that is sent is in flight, with the fields of its header that sending does not fill in. -/
theorem podSend_mem (h : PodHdr) (b : List Byte) (fw : Option FwMsg) (tenant : Option (BitVec 16)) (tc : Nat) (s : State) :
    ∃ o ∈ (podSend h b fw tenant tc s).rma.out, (o.hdr.type = h.type ∧ o.hdr.dst = h.dst ∧ o.hdr.ref = h.ref ∧ o.hdr.status = h.status)
      ∧ o.payload = b := by
  unfold podSend
  dsimp only
  generalize hv : ({ s with rma := _ } : State) = v
  obtain ⟨o, ho, hhdr, hb⟩ := podPlace_mem (s := v) (n := s.rma.counter) (by rw [← hv]; exact List.mem_append_right _ (List.mem_singleton_self _))
  exact ⟨o, ho, by rw [hhdr]; exact ⟨rfl, rfl, rfl, rfl⟩, hb⟩

/-- Where nothing waits, one READ_DATA that may go is in flight at once. -/
theorem dataDrain_single {d : PodHdr × List Byte} (hq : s.rma.queued = [d]) (hr : podReady s d.1.srcQp.toNat = true) (hroom : inFlightRoom s = true)
    (h4 : d.1.type ≠ 4) : ∃ o ∈ (dataDrain s).rma.out,
      (o.hdr.type = d.1.type ∧ o.hdr.dst = d.1.dst ∧ o.hdr.ref = d.1.ref ∧ o.hdr.status = d.1.status) ∧ o.payload = d.2 := by
  unfold dataDrain
  rw [hq, List.foldl_cons, List.foldl_nil]
  unfold dataSend
  dsimp only
  rw [if_pos, if_neg h4]
  · exact podSend_mem ..
  · rw [Bool.and_eq_true]
    exact ⟨hr, hroom⟩

theorem mostBytes_pos (q : Nat) : 0 < mostBytes q := by
  unfold mostBytes podTag
  split <;> omega

/-- The READ_DATA number `i` of a READ_REQ's answer. -/
def dataPart (h : PodHdr) (b : List Byte) (i : Nat) : PodHdr × List Byte :=
  let n := mostBytes h.dstQp.toNat
  ({ podHdr0 with
      type := 0x03, dst := h.src, srcQp := h.dstQp, dstQp := h.srcQp, ref := h.id, offset := BitVec.ofNat 64 (i * n) },
    (b.drop (i * n)).take n)

theorem readData_parts (h : PodHdr) (b : List Byte) (s : State) :
    readData h b s = dataDrain { s with rma := { s.rma with
      queued := s.rma.queued ++ (List.range (cdiv b.length (mostBytes h.dstQp.toNat))).map (dataPart h b) } } := rfl

/-- Bytes that fit one READ_DATA go as one. -/
theorem readData_single {h : PodHdr} {b : List Byte} (hq : s.rma.queued = []) (hr : podReady s h.dstQp.toNat = true)
    (hroom : inFlightRoom s = true) (h1 : 1 ≤ b.length) (hn : b.length ≤ mostBytes h.dstQp.toNat) :
    ∃ o ∈ (readData h b s).rma.out, (o.hdr.type = 3 ∧ o.hdr.dst = h.src ∧ o.hdr.ref = h.id ∧ o.hdr.status = 0) ∧ o.payload = b := by
  have one : cdiv b.length (mostBytes h.dstQp.toNat) = 1 := by
    unfold cdiv
    have := mostBytes_pos h.dstQp.toNat
    exact Nat.div_eq_of_lt_le (by omega) (by omega)
  have whole : (dataPart h b 0).2 = b := by
    simp [dataPart, List.take_of_length_le hn]
  rw [readData_parts, one, hq]
  obtain ⟨o, ho, hhdr, hb⟩ := dataDrain_single (d := dataPart h b 0)
    (s := { s with rma := { s.rma with queued := [dataPart h b 0] } }) rfl hr hroom (by simp [dataPart])
  exact ⟨o, ho, hhdr, hb.trans whole⟩

end Sys2Proof.Machine
end

section
/-!
READ_DATA at the requester, remote atomics and SENDs (11 R300, R309, R311, R313, R315, R320; 15 R403).
-/

namespace Sys2Proof.Machine

variable {s t u : State} {m : PodMsg} {x : Qp} {r : Region} {w : WrState} {p : Piece} {i : Nat}

/-! ### READ_DATA (11 R309) -/

theorem podEffect_data (ht : m.hdr.type.toNat = 3) : podEffect m s = podFinish m.hdr (readArrives m s).1 [] (readArrives m s).2 := by
  unfold podEffect
  dsimp only
  rw [ht]
  rfl

theorem readArrives_unknown (hw : wrOf s m.hdr.dstQp.toNat m.hdr.ref.toNat = none) : readArrives m s = (.ok, s) := by
  unfold readArrives
  dsimp only
  rw [hw]

theorem readArrives_code {c : Status} (hw : wrOf s m.hdr.dstQp.toNat m.hdr.ref.toNat = some (i, w, p))
    (hc : (statusOf m.hdr.status).getD .ok = c) (hn : c ≠ .ok) :
    readArrives m s = (.ok, rmaPump (qpError m.hdr.dstQp.toNat (some i) c (podGone m.hdr.ref.toNat s))) := by
  unfold readArrives
  dsimp only
  rw [hw]
  dsimp only
  rw [hc]
  cases c
  case ok => exact absurd rfl hn
  all_goals rfl

/-- READ_DATA with a failing code is acknowledged; its queue pair fails. -/
theorem readArrives_failed (hw : wrOf s m.hdr.dstQp.toNat m.hdr.ref.toNat = some (i, w, p)) (hc : (statusOf m.hdr.status).getD .ok ≠ .ok) :
    (readArrives m s).1 = .ok ∧ RmaKept s (readArrives m s).2 := by
  rw [readArrives_code hw rfl hc]
  exact ⟨rfl, ((podGone_traffic (.refl s)).toRmaKept.trans (qpError_kept ..)).trans (rmaPump_traffic (.refl _)).toRmaKept⟩

theorem readAway_kept (q i : Nat) (k : Word) (page : Nat) (s : State) : RmaKept s (readAway q i k page s).2 := by
  unfold readAway
  split
  · dsimp only
    exact qpError_kept ..
  · dsimp only
    exact (wrUpd_traffic (raiseFault_traffic (.refl s))).toRmaKept

theorem readAway_fst (q i : Nat) (k : Word) (page : Nat) (s : State) :
    (readAway q i k page s).1 = if faultFailed s k page then .ok else .retryLater := by
  unfold readAway
  split <;> rfl

/-- Where the WR's bytes begin in its local region, for READ_DATA of piece `p`. -/
def dataAt (m : PodMsg) (w : WrState) (p : Piece) : Nat := w.wr.localOff.toNat + (p.off + m.hdr.offset.toNat)

theorem readArrives_away {pg : Nat} {ps : List Nat} (hw : wrOf s m.hdr.dstQp.toNat m.hdr.ref.toNat = some (i, w, p))
    (hc : (statusOf m.hdr.status).getD .ok = .ok) (hr : regionOf s w.wr.lkey = some r)
    (ha : absentPages r (dataAt m w p) m.payload.length = pg :: ps) : readArrives m s = readAway m.hdr.dstQp.toNat i w.wr.lkey pg s := by
  unfold readArrives
  dsimp only
  rw [hw]
  dsimp only
  rw [hc, hr]
  dsimp only [Option.elim]
  unfold dataAt at ha
  rw [ha]

/-- What follows once the bytes of READ_DATA have gone to the region, which says whether they could be placed. -/
def dataPlaced (m : PodMsg) (i : Nat) (w : WrState) (p : Piece) (placed : Bool × State) : Status × State :=
  let q := m.hdr.dstQp.toNat
  let id := m.hdr.ref.toNat
  let at_ := p.off + m.hdr.offset.toNat
  let (wrote, s) := placed
  if !wrote then (.ok, rmaPump (qpError q (some i) .integrity (podGone id s))) else
  let got := w.got ++ [(at_, at_ + m.payload.length)]
  let whole := covered got p.off (p.off + p.len)
  let s := wrUpd q i (fun w => { w with
    got := got, applied := true, inflight := if whole then w.inflight.filter (fun x => x.id != id) else w.inflight }) s
  let s := if whole then podGone id s else s
  (.ok, rmaPump (if covered got 0 w.wr.len.toNat then qpFlush q (wrDone q i .ok 0 s) else s))

theorem readArrives_placed (hw : wrOf s m.hdr.dstQp.toNat m.hdr.ref.toNat = some (i, w, p))
    (hc : (statusOf m.hdr.status).getD .ok = .ok) (hr : regionOf s w.wr.lkey = some r)
    (ha : absentPages r (dataAt m w p) m.payload.length = []) :
    readArrives m s = dataPlaced m i w p (regionMerge r (dataAt m w p) m.payload m.reads s) := by
  unfold readArrives
  dsimp only
  rw [hw]
  dsimp only
  rw [hc, hr]
  dsimp only [Option.elim]
  unfold dataAt at ha ⊢
  rw [ha]
  rfl

theorem dataPlaced_kept (m : PodMsg) (i : Nat) (w : WrState) (p : Piece) (wrote : Bool) (s : State) :
    (dataPlaced m i w p (wrote, s)).1 = .ok ∧ RmaKept s (dataPlaced m i w p (wrote, s)).2 := by
  cases wrote with
  | false => exact ⟨rfl, ((podGone_traffic (.refl s)).toRmaKept.trans (qpError_kept ..)).trans (rmaPump_traffic (.refl _)).toRmaKept⟩
  | true =>
    have k : ∀ (whole : Bool) (f : WrState → WrState), Traffic s
        (if whole then podGone m.hdr.ref.toNat (wrUpd m.hdr.dstQp.toNat i f s) else wrUpd m.hdr.dstQp.toNat i f s) :=
      fun _ _ => traffic_ite (podGone_traffic (wrUpd_traffic (.refl s))) (wrUpd_traffic (.refl s))
    exact ⟨rfl, (rmaPump_traffic (traffic_ite (qpFlush_traffic (wrDone_traffic (k _ _))) (k _ _))).toRmaKept⟩

/-- READ_DATA whose pages are present is acknowledged, after the bytes have gone to the region. -/
theorem readArrives_present (hw : wrOf s m.hdr.dstQp.toNat m.hdr.ref.toNat = some (i, w, p))
    (hc : (statusOf m.hdr.status).getD .ok = .ok) (hr : regionOf s w.wr.lkey = some r)
    (ha : absentPages r (dataAt m w p) m.payload.length = []) :
    (readArrives m s).1 = .ok ∧ RmaKept (regionMerge r (dataAt m w p) m.payload m.reads s).2 (readArrives m s).2 := by
  rw [readArrives_placed hw hc hr ha]
  exact dataPlaced_kept ..

/-! ### Atomics (11 R315) -/

theorem podEffect_atomic (ht : m.hdr.type.toNat = 4) : podEffect m s = parkAtomic m s := by
  unfold podEffect
  dsimp only
  rw [ht]
  rfl

theorem parkAtomic_room (h : s.near.combine.length < 16384) : parkAtomic m s = { s with near := { s.near with
    combine := s.near.combine ++ [{ src := BitVec.ofNat 12 m.hdr.src.toNat, id := m.hdr.id, msg := m }] } } := if_neg (Nat.not_le.2 h)

theorem parkAtomic_full (h : 16384 ≤ s.near.combine.length) :
    parkAtomic m s = podFinish m.hdr .retryLater [] { s with near := { s.near with retry := satInc s.near.retry } } := if_pos h

/-! ### SENDs (11 R300, R320; 15 R403) -/

/-- What becomes of a SEND: over a channel, over the key queue pair, to the firmware, or into a receive buffer. -/
def sendTaken (m : PodMsg) (s : State) : Status × State :=
  if m.hdr.flags.toNat.testBit 3 then channelSend m s
  else if m.hdr.dstQp.toNat = keyQp then keyAsked m.hdr s
  else if qpKind m.hdr.dstQp.toNat = 1 then (.ok, s) else hostSend m s

theorem podEffect_send (ht : m.hdr.type.toNat = 5) : podEffect m s = podFinish m.hdr (sendTaken m s).1 [] (sendTaken m s).2 := by
  unfold podEffect
  dsimp only
  rw [ht]
  rfl

theorem channelSend_fst (m : PodMsg) (s : State) : (channelSend m s).1 = if qpChannels s m.hdr.dstQp.toNat = [] then .denied else .ok := by
  unfold channelSend
  cases qpChannels s m.hdr.dstQp.toNat with
  | nil => rfl
  | cons c rest =>
    dsimp only
    split <;> rfl

theorem channelSend_traffic (m : PodMsg) (s : State) : Traffic s (channelSend m s).2 := by
  unfold channelSend
  split
  · exact .refl s
  · split
    · dsimp only
      exact creditBack_traffic (.refl s)
    · dsimp only
      exact chanDeliver_traffic (.refl s)

theorem keyAsked_fst (h : PodHdr) (s : State) :
    (keyAsked h s).1 = if (s.sec.fetch.isSome ∧ BitVec.ofNat 12 h.src.toNat = s.sec.donor) ∨ s.sec.podGen.isSome then .ok else .denied := by
  have fetched : (s.sec.fetch.isSome && BitVec.ofNat 12 h.src.toNat == s.sec.donor) = true
      ↔ s.sec.fetch.isSome ∧ BitVec.ofNat 12 h.src.toNat = s.sec.donor := by rw [Bool.and_eq_true, beq_iff_eq]
  unfold keyAsked
  dsimp only
  by_cases hd : s.sec.fetch.isSome ∧ BitVec.ofNat 12 h.src.toNat = s.sec.donor
  · rw [if_pos (fetched.2 hd), if_pos (.inl hd)]
  · rw [if_neg (mt fetched.1 hd)]
    cases s.sec.podGen with
    | none => exact (if_neg (fun h => h.elim hd (by simp))).symm
    | some g => exact (if_pos (.inr rfl)).symm

theorem keyAsked_traffic (h : PodHdr) (s : State) : Traffic s (keyAsked h s).2 := by
  unfold keyAsked
  dsimp only
  split
  · exact .refl s
  · split
    · exact sendPod_traffic (.refl s)
    · exact .refl s

theorem hostSend_empty (hx : qpOf s m.hdr.dstQp.toNat = some x) (he : x.recvCons = x.recvProd) : hostSend m s = (.retryLater, s) := by
  unfold hostSend
  dsimp only
  rw [hx]
  exact if_pos he

/-- The buffer that a SEND takes. -/
theorem hostSend_takes (hx : qpOf s m.hdr.dstQp.toNat = some x) (he : x.recvCons ≠ x.recvProd)
    (hk : regionCheck s m.buf.1 x.pd (some 0) m.buf.2.2 m.buf.2.1 = none) (hl : m.payload.length ≤ m.buf.2.1)
    (hr : regionOf s m.buf.1 = some r) (ha : absentPages r m.buf.2.2 m.payload.length = []) :
    hostSend m s = (.ok, qpCompletion m.hdr.dstQp.toNat 0 .ok 0x10 m.payload.length (BitVec.ofNat 12 m.hdr.src.toNat)
      (BitVec.ofNat 64 m.hdr.srcQp.toNat)
      (regionWrite r m.buf.2.2 m.payload (qpUpd m.hdr.dstQp.toNat (fun x => { x with recvCons := x.recvCons + 1 }) s))) := by
  unfold hostSend
  dsimp only
  rw [hx]
  dsimp only
  rw [if_neg he, hk]
  dsimp only
  rw [if_neg (by simpa using hl), hr]
  dsimp only
  rw [ha]

/-- A completion of a queue pair with a CQ is emitted with the phase of its place. -/
theorem qpCompletion_mem {q : Nat} {wrId : DWord} {c : Status} {op : Byte} {n : Nat} {src : DevId} {v : DWord} (hx : qpOf s q = some x)
    (hk : qpKind q ≠ 1) :
    Emit.qpCompletion (BitVec.ofNat 20 q) (BitVec.ofNat 20 q) wrId c op n src v (cqPhase x) ∈ (qpCompletion q wrId c op n src v s).out := by
  unfold qpCompletion
  rw [hx]
  dsimp only
  rw [if_neg hk]
  exact msix_out_mem _ _ (List.mem_append_right _ (List.mem_singleton_self _))

end Sys2Proof.Machine
end

section
/-!
Acknowledgements at the sender (11 R299, R304, R314, R316).
-/

namespace Sys2Proof.Machine

variable {s t u : State} {m : PodMsg} {x : Qp} {w : WrState} {p : Piece} {i : Nat} {o : PodOut} {c : Status}

/-! ### Which message an ACK answers -/

/-- The ACK is one that this device takes from its sender (11 R310, R317; 15 R401). -/
def AckTaken (m : PodMsg) (s : State) : Prop :=
  m.hdr.type = 6 ∧ excluded s (m.hdr.src.toNat % 4096) = false ∧ exclEpoch s (m.hdr.src.toNat % 4096) = m.hdr.xepoch
    ∧ m.hdr.dst.toNat = (myDev s).toNat ∧ podTagBad s m = false

/-- The message in flight that the ACK names. -/
def Acked (m : PodMsg) (s : State) (o : PodOut) : Prop := s.rma.out.find? (fun o => o.id == m.hdr.id.toNat) = some o

theorem Acked.id (h : Acked m s o) : o.id = m.hdr.id.toNat := by simpa using List.find?_some h

/-- The refusal is counted. -/
def refusalSeen (c : Status) (s : State) : State :=
  if c = .retryLater then { s with rma := { s.rma with rlRecv := satInc s.rma.rlRecv } } else s

/-- The answer to a message of the device's own: of its firmware, a claim, or READ_DATA. -/
def ownAnswered (m : PodMsg) (o : PodOut) (c : Status) (s : State) : State :=
  if c = .retryLater then outRefused o s
  else if o.hdr.type = 4 then claimAnswer m.hdr.id.toNat c m.payload s
  else if c = .ok then s else outEnds o c s

/-- The answer to a piece of WR `i` of a queue pair. -/
def pieceAnswered (m : PodMsg) (q i : Nat) (w : WrState) (p : Piece) (c : Status) (s : State) : State :=
  if c = .ok then pieceDone q i p m.payload s
  else if c = .retryLater then pieceRefused q i w p s
  else qpError q (some i) c s

/-- What an ACK does that answers a message in flight. -/
def answered (m : PodMsg) (o : PodOut) (c : Status) (s : State) : State :=
  if o.fw.isSome || o.hdr.type = 3 || (o.hdr.type = 4 && o.hdr.srcQp.toNat = fwQp) then
    rmaPump (ownAnswered m o c (podGone m.hdr.id.toNat (refusalSeen c s)))
  else
    match wrOf (refusalSeen c s) o.hdr.srcQp.toNat m.hdr.id.toNat with
    | none => rmaPump (podGone m.hdr.id.toNat (refusalSeen c s))
    | some (i, w, p) =>
      if o.hdr.type = 2 && c = .ok then
        { refusalSeen c s with rma := { (refusalSeen c s).rma with
            out := (refusalSeen c s).rma.out.map (fun o => if o.id = m.hdr.id.toNat then { o with acked := true } else o) } }
      else rmaPump (pieceAnswered m o.hdr.srcQp.toNat i w p c (podGone m.hdr.id.toNat (refusalSeen c s)))

/-- What an ACK that is taken does: where it names no message in flight, or has no code, nothing. -/
def ackFound (m : PodMsg) (s : State) : State :=
  match s.rma.out.find? (fun o => o.id == m.hdr.id.toNat), statusOf m.hdr.status with
  | some o, some c => if o.acked || o.hdr.dst.toNat % 4096 ≠ m.hdr.src.toNat % 4096 then s else answered m o c s
  | _, _ => s

theorem ackAt_eq (m : PodMsg) (s : State) : ackAt m s =
    if m.hdr.type ≠ 0x06 || excluded s (m.hdr.src.toNat % 4096) || exclEpoch s (m.hdr.src.toNat % 4096) != m.hdr.xepoch
      || m.hdr.dst.toNat ≠ (myDev s).toNat || podTagBad s m then s else ackFound m s := rfl

/-- An ACK that is not taken, or that names no message or no code, changes nothing. -/
theorem ackAt_unanswered (h : ¬ AckTaken m s ∨ (∀ o ∈ s.rma.out, o.id ≠ m.hdr.id.toNat) ∨ statusOf m.hdr.status = none) : ackAt m s = s := by
  rw [ackAt_eq]
  split
  · rfl
  · next hno =>
    unfold ackFound
    rcases h with h | h | h
    · exact absurd (by simpa [AckTaken, and_assoc] using hno) h
    · rw [List.find?_eq_none.2 (by simpa using h)]
    · rw [h]
      split
      · next heq => cases heq
      · rfl

theorem ackAt_taken (ht : AckTaken m s) (ho : Acked m s o) (hc : statusOf m.hdr.status = some c) :
    ackAt m s = if o.acked || o.hdr.dst.toNat % 4096 ≠ m.hdr.src.toNat % 4096 then s else answered m o c s := by
  obtain ⟨h6, hin, hepoch, hdst, htag⟩ := ht
  rw [ackAt_eq, if_neg (by simp [h6, hin, hepoch, hdst, htag])]
  unfold ackFound
  rw [ho, hc]

/-! ### Messages of the device's own (11 R314) -/

theorem refusalSeen_rlRecv (s : State) : (refusalSeen .retryLater s).rma.rlRecv = satInc s.rma.rlRecv := rfl

theorem answered_own (h : o.fw.isSome = true) : answered m o c s = rmaPump (ownAnswered m o c (podGone m.hdr.id.toNat (refusalSeen c s))) := by
  unfold answered
  rw [if_pos (by simp [h])]

theorem outEnds_rma (o : PodOut) (c : Status) (s : State) : (outEnds o c s).rma = s.rma :=
  outEnds_changes (Q := [.sec, .host, .repro, .out]) rfl (.refl _ s) .rma rfl

theorem outRefused_rlRecv (o : PodOut) (s : State) : (outRefused o s).rma.rlRecv = s.rma.rlRecv := by
  unfold outRefused
  dsimp only
  split
  · rw [outEnds_rma]
  · rfl

/-- A back-off of 4 µs and a part that doubles with each refusal up to 1,024 µs. -/
theorem backoffTicks_bounds (a : Nat) (d : Word) :
    2500 ≤ backoffTicks a d.toNat ∧ backoffTicks a d.toNat ≤ 2500 + min (4 * 2 ^ (a - 1)) 1024 * 625 := by
  unfold backoffTicks
  refine ⟨Nat.le_add_right .., Nat.add_le_add_left ?_ _⟩
  rw [Nat.div_le_iff_le_mul_add_pred (by decide)]
  exact Nat.le_add_right_of_le (Nat.mul_le_mul_right _ (Nat.le_of_lt d.isLt))

theorem limitPassed_eq_false {t0 : Nat} (h : s.tb < t0 + s.rma.retryLimit * 625000) : limitPassed t0 s = false := by
  unfold limitPassed
  exact decide_eq_false (Nat.not_le.2 h)

/-- A firmware message that is refused within RMA_RETRY_LIMIT waits for its back-off. -/
theorem outRefused_waits (hlate : ∀ t0 : Nat, o.firstRef = some t0 → s.tb < t0 + s.rma.retryLimit * 625000) :
    ∃ v ∈ (outRefused o s).rma.refused, v.id = o.id ∧ v.fw = o.fw ∧ v.refusals = o.refusals + 1 ∧ v.firstRef = some (o.firstRef.getD s.tb)
      ∧ s.tb + 2500 ≤ v.due ∧ v.due ≤ s.tb + 2500 + min (4 * 2 ^ o.refusals) 1024 * 625 := by
  have intime : o.firstRef.any (fun t => limitPassed t s) = false := by
    cases hf : o.firstRef with
    | none => rfl
    | some t0 => rw [Option.any_some, limitPassed_eq_false (hlate t0 hf)]
  obtain ⟨hlo, hhi⟩ := backoffTicks_bounds (o.refusals + 1) (Config.freeWord s.free)
  rw [Nat.add_sub_cancel] at hhi
  unfold outRefused
  simp only [intime, Bool.false_and, Bool.false_eq_true, if_false]
  generalize backoffTicks (o.refusals + 1) (Config.freeWord s.free).toNat = wait at hlo hhi ⊢
  refine ⟨_, List.mem_append_right _ (List.mem_singleton_self _), rfl, rfl, rfl, rfl, Nat.add_le_add_left hlo _, ?_⟩
  rw [Nat.add_assoc]
  exact Nat.add_le_add_left hhi _

/-! ### Pieces of work requests (11 R299, R314, R316) -/

theorem pieceRefused_kept (q i : Nat) (w : WrState) (p : Piece) (s : State) : RmaKept s (pieceRefused q i w p s) := by
  unfold pieceRefused
  dsimp only
  split
  · split
    · exact qpError_kept ..
    · exact (qpFlush_traffic (wrDone_traffic (.refl s))).toRmaKept
  · exact (wrUpd_traffic (bumpFree_traffic (.refl s))).toRmaKept

theorem answered_rlRecv (m : PodMsg) (o : PodOut) (s : State) : (answered m o .retryLater s).rma.rlRecv = satInc s.rma.rlRecv := by
  have gone : (podGone m.hdr.id.toNat (refusalSeen .retryLater s)).rma.rlRecv = satInc s.rma.rlRecv := rfl
  unfold answered
  split
  · rw [(rmaPump_traffic (.refl _)).rlRecv]
    exact (outRefused_rlRecv ..).trans gone
  · split
    · rw [(rmaPump_traffic (.refl _)).rlRecv, gone]
    · rw [if_neg (by simp), (rmaPump_traffic (.refl _)).rlRecv]
      exact (pieceRefused_kept ..).rlRecv.trans gone

/-- A WR that alone is done at the head of its queue pair is posted, unless it is to be silent. -/
theorem qpFlush_mem {q : Nat} (hx : qpOf s q = some x) (hw : x.wrs = [w]) (hd : w.done = some c)
    (hloud : (w.wr.flags.toNat.testBit 1 && c == .ok) = false) (hk : qpKind q ≠ 1) :
    Emit.qpCompletion (BitVec.ofNat 20 q) (BitVec.ofNat 20 q) w.wr.wrId c w.wr.opcode
      (if w.wr.opcode = 0x02 && c == .ok then w.wr.len.toNat else 0) 0 w.value (cqPhase x) ∈ (qpFlush q s).out := by
  have taken : qpOf (qpUpd q (fun x => { x with wrs := [] }) s) q = some { x with wrs := [] } := by rw [qpOf_qpUpd_same, hx]; rfl
  have hmem := qpCompletion_mem (wrId := w.wr.wrId) (c := c) (op := w.wr.opcode)
    (n := if w.wr.opcode = 0x02 && c == .ok then w.wr.len.toNat else 0) (src := 0) (v := w.value) taken hk
  unfold qpFlush
  rw [hx]
  dsimp only
  rw [hw]
  simp only [List.length_singleton, flushDone, hx, hw, hd]
  rw [if_neg (by rw [hloud]; exact Bool.false_ne_true)]
  exact hmem

/-- The work request that a piece in flight belongs to. -/
theorem wrOf_single {q n : Nat} (h : wrOf s q n = some (i, w, p)) (hx : qpOf s q = some x) (hw : x.wrs = [w]) : i = 0 := by
  unfold wrOf at h
  rw [hx] at h
  dsimp only at h
  rw [hw] at h
  simp only [List.zipIdx_singleton, List.findSome?_cons, List.findSome?_nil] at h
  split at h
  · next hm =>
    obtain ⟨p', -, hp'⟩ := Option.map_eq_some_iff.1 hm
    cases h
    cases hp'
    rfl
  · cases h

/-- The last piece of a WR that alone is outstanding on its queue pair: the WR is posted with its result. -/
theorem pieceDone_mem {q : Nat} {result : List Byte} (hx : qpOf s q = some x) (hwrs : x.wrs = [w]) (hin : w.inflight = [p]) (htodo : w.todo = [])
    (hback : w.backoff = []) (hdone : w.done = none) (hk : qpKind q ≠ 1) (hloud : w.wr.flags.toNat.testBit 1 = false) (hop : w.wr.opcode ≠ 2) :
    Emit.qpCompletion (BitVec.ofNat 20 q) (BitVec.ofNat 20 q) w.wr.wrId .ok w.wr.opcode 0 0
      (if w.wr.opcode = 3 then BitVec.ofNat 64 (leNat result) else 0) (cqPhase x) ∈ (pieceDone q 0 p result s).out := by
  generalize hu : wrUpd q 0 (fun w => { w with inflight := w.inflight.filter (fun x => x.id != p.id), applied := true }) s = u
  have hxu : qpOf u q = some { x with wrs := [{ w with inflight := [], applied := true }] } := by
    rw [← hu, wrUpd, qpOf_qpUpd_same, hx]
    simp [hwrs, hin]
  have hposted : qpOf (wrDone q 0 .ok (if w.wr.opcode = 3 then BitVec.ofNat 64 (leNat result) else 0) u) q = some { x with wrs := [{ w with
      inflight := [], applied := true, done := some .ok, value := if w.wr.opcode = 3 then BitVec.ofNat 64 (leNat result) else 0, todo := []
      backoff := [], heldPage := none }] } := by
    rw [wrDone, wrUpd, qpOf_qpUpd_same, hxu]
    simp [hdone]
  have none2 : (if w.wr.opcode = 0x02 && Status.ok == Status.ok then w.wr.len.toNat else 0) = 0 :=
    if_neg (by rw [decide_eq_false hop]; exact Bool.false_ne_true)
  have hmem := qpFlush_mem hposted rfl rfl (by simp [hloud]) hk
  dsimp only at hmem
  rw [none2] at hmem
  unfold pieceDone
  dsimp only
  rw [hu, hxu]
  simp only [Option.bind_some, List.getElem?_cons_zero, wrWhole, htodo, hback, List.isEmpty_nil, Bool.and_self, if_true]
  exact (qpSend_traffic (.refl _)).out _ hmem

end Sys2Proof.Machine
end

section
/-!
The statement on the messages of the pod fabric (11 R299 to R316), clause by clause.
-/

namespace Sys2Proof.Machine

variable {s t : State} {m : PodMsg} {x : Qp} {ty : Nat}

/-! ### A message that is executed -/

/-- A new message, in its lifetime, that passes steps 3 to 6, and the queue pair that it reaches. -/
structure Arrives (m : PodMsg) (ty : Nat) (x : Qp) (s : State) : Prop where
  inLifetime : InLifetime m s
  type : m.hdr.type.toNat = ty
  isNew : IsNew m s
  early : podEarly s m = .ok
  qp : qpOf s m.hdr.dstQp.toNat = some x

/-- Its context is on chip, and step 7 passes. -/
structure Executes (m : PodMsg) (ty : Nat) (x : Qp) (s : State) : Prop extends Arrives m ty x s where
  resident : x.resident = true
  key : podKey s m = .ok
  present : podAbsent s m = []
  tag : podTagBad s m = false

theorem Arrives.taken (h : Arrives m ty x s) : podTake ty m s = deregRun (podTakeOn m (withEntry m s)) :=
  podTake_new h.inLifetime h.type h.isNew h.early

theorem Arrives.executed (h : Arrives m ty x s) (hr : x.resident = true) : podTake ty m s = deregRun (podExecute m (begun m s)) := by
  rw [h.taken, podTakeOn_resident h.qp hr]

theorem Executes.effect (h : Executes m ty x s) : podTake ty m s = deregRun (podEffect m (begun m s)) := by
  rw [h.executed h.resident, podExecute_present ((podKey_begun h.qp).trans h.key) h.present,
    show podTagBad (begun m s) m = false from h.tag, Bool.false_and, if_neg Bool.false_ne_true]

/-- What is DONE stays DONE while deregistrations complete. -/
theorem EntryDone.deregRun {h : PodHdr} {c : Status} {b : List Byte} (hd : EntryDone h c b s) : EntryDone h c b (deregRun s) :=
  hd.of_kept (deregRun_traffic (.refl s)).toRmaKept

theorem deregRun_only (s : State) : OnlyChanges [.rma, .out] s (deregRun s) := deregRun_changes rfl (.refl _ s)

/-! ### Steps 6 to 8 -/

theorem Arrives.full (h : Arrives m ty x s) (hr : x.resident = false) (hfull : s.rma.arrivalHigh * 1024 < arrivalBytes s + parkedBytes m) :
    EntryDone m.hdr .retryLater [] (podTake ty m s) := by
  rw [h.taken, podTakeOn_full h.qp hr hfull]
  exact (podFinish_entryDone _ _ (withEntry_hasEntry m s)).deregRun

theorem Arrives.parks (h : Arrives m ty x s) (hr : x.resident = false) (hroom : arrivalBytes s + parkedBytes m ≤ s.rma.arrivalHigh * 1024) :
    (podTake ty m s).rma.arrival = s.rma.arrival ++ [m] ∧ ∃ y, qpOf (podTake ty m s) m.hdr.dstQp.toNat = some y ∧ y.fetching = true := by
  rw [h.taken, podTakeOn_parks h.qp hr hroom]
  obtain ⟨y, hy, hf⟩ := fetchStart_fetching (s := parked m s) (q := m.hdr.dstQp.toNat) h.qp
  obtain ⟨z, hz, -, -, hk⟩ := (deregRun_traffic (.refl (fetchStart m.hdr.dstQp.toNat (parked m s)))).qps _ y hy
  exact ⟨(deregRun_traffic (fetchStart_traffic (.refl (parked m s)))).arrival, z, hz, hk hf⟩

theorem Arrives.refused (h : Arrives m ty x s) (hr : x.resident = true) (hk : podKey s m ≠ .ok) :
    EntryDone m.hdr (podKey s m) [] (podTake ty m s) := by
  rw [h.executed hr, podExecute_refused (by rwa [podKey_begun h.qp]), podKey_begun h.qp]
  exact (podFinish_entryDone _ _ (begun_hasEntry m s)).deregRun

theorem Arrives.away {pg : Nat} {ps : List Nat} (h : Arrives m ty x s) (hr : x.resident = true) (hk : podKey s m = .ok) (ha : podAbsent s m = pg :: ps) :
    EntryDone m.hdr (if faultFailed s m.hdr.rkey pg then .denied else if ty = 2 then .ok else .retryLater) [] (podTake ty m s) := by
  rw [h.executed hr, podExecute_away ((podKey_begun h.qp).trans hk) ha]
  have h2 : (ty = 2) = (m.hdr.type = 2) := by
    rw [← h.type, ← BitVec.toNat_inj]
    rfl
  simp only [h2]
  exact (podAway_entryDone (begun_hasEntry m s)).deregRun

theorem Arrives.untagged (h : Arrives m ty x s) (hr : x.resident = true) (hk : podKey s m = .ok) (ha : podAbsent s m = [])
    (ht : podTagBad s m = true) (h4 : ty ≠ 4) :
    EntryDone m.hdr .integrity [] (podTake ty m s) ∧ (podTake ty m s).sec.msgAuthFail = satInc s.sec.msgAuthFail := by
  have ht4 : m.hdr.type ≠ 4 := fun e => h4 (by rw [← h.type, e]; rfl)
  rw [h.executed hr, podExecute_present ((podKey_begun h.qp).trans hk) ha, show podTagBad (begun m s) m = true from ht, 
    if_pos (by rw [decide_eq_false ht4]; rfl)]
  refine ⟨(podTagFails_entryDone (begun_hasEntry m s)).deregRun, ?_⟩
  rw [(deregRun_only _).sec_eq rfl rfl, podTagFails_counted]
  rfl

/-! ### WRITE -/

section
variable {r : Region} (h : Executes m 1 x s) (hr : regionOf s m.hdr.rkey = some r)
include h hr

theorem Executes.write : podTake 1 m s = deregRun (podFinish m.hdr
    (if (regionMerge r m.hdr.offset.toNat m.payload m.reads s).1 then .ok else .integrity) []
    (regionMerge r m.hdr.offset.toNat m.payload m.reads (begun m s)).2) := by
  rw [h.effect, podEffect_write h.type (show regionOf (begun m s) m.hdr.rkey = some r from hr), regionMerge_fst_begun]

theorem Executes.write_done {b : Bool} (hb : (regionMerge r m.hdr.offset.toNat m.payload m.reads s).1 = b) :
    EntryDone m.hdr (if b then .ok else .integrity) [] (podTake 1 m s) := by
  rw [h.write hr, hb]
  exact (podFinish_entryDone _ _ ((begun_hasEntry m s).of_kept (regionMerge_traffic (.refl _)).toRmaKept)).deregRun

/-- Bytes of a T1 region. -/
theorem Executes.write_t1 {k : PartId} (hk : r.t1 = some k)
    (hg : ((partAddr s k.toNat + (r.base.toNat + m.hdr.offset.toNat)) % 512 = 0 ∧ m.payload.length % 512 = 0)
      ∨ seenOutcome s (.t1 (partAddr s k.toNat + (r.base.toNat + m.hdr.offset.toNat))) m.payload.length m.reads = .good) :
    EntryDone m.hdr .ok [] (podTake 1 m s)
      ∧ (podTake 1 m s).tier.t1 = Mem.store s.tier.t1 (partAddr s k.toNat + (r.base.toNat + m.hdr.offset.toNat)) m.payload := by
  have hm := regionMerge_t1 (s := s) hk hg
  have hm' := regionMerge_t1 (s := begun m s) hk hg
  refine ⟨h.write_done hr (b := true) (by rw [hm]), ?_⟩
  rw [h.write hr, hm', (deregRun_only _) .tier rfl, podFinish_only _ _ _ _ .tier rfl, regionWrite_t1 hk]
  rfl

/-- Bytes of a host region. -/
theorem Executes.write_host (hk : r.t1 = none) : EntryDone m.hdr .ok [] (podTake 1 m s) ∧ (podTake 1 m s).tier = s.tier
    ∧ HostGets r m.hdr.offset.toNat m.payload (podTake 1 m s) := by
  refine ⟨h.write_done hr (b := true) (by rw [regionMerge_host hk]), ?_⟩
  rw [h.write hr, regionMerge_host (s := begun m s) hk]
  refine ⟨?_, fun e he => (deregRun_traffic (.refl _)).out e ?_⟩
  · rw [(deregRun_only _) .tier rfl, podFinish_only _ _ _ _ .tier rfl, hostWrite_only _ _ _ _ .tier rfl]
    rfl
  · rw [podFinish_out]
    exact hostWrite_hostGets _ _ _ _ e he

end

/-! ### READ_REQ -/

theorem Executes.read (h : Executes m 2 x s) : podTake 2 m s = deregRun (serveRead m (podFinish m.hdr .ok [] (begun m s))) := by
  rw [h.effect, podEffect_read h.type]

theorem Executes.read_done (h : Executes m 2 x s) : EntryDone m.hdr .ok [] (podTake 2 m s) := by
  rw [h.read]
  exact ((podFinish_entryDone _ _ (begun_hasEntry m s)).of_kept (serveRead_traffic (.refl _)).toRmaKept).deregRun

theorem flushDone_rmaOut (q n : Nat) (s : State) : (flushDone q n s).rma.out = s.rma.out := by
  have completed (wrId : DWord) (c : Status) (op : Byte) (k : Nat) (v : DWord) (u : State) : (qpCompletion q wrId c op k 0 v u).rma.out = u.rma.out := by
    unfold qpCompletion
    split
    · rfl
    · split
      · rfl
      · rw [msix_changes (Q := [.out]) rfl (.refl _ _) .rma rfl]
        rfl
  induction n generalizing s with
  | zero => rfl
  | succ n ih =>
    unfold flushDone
    split
    · rfl
    · split
      · rfl
      · split
        · rfl
        · rw [ih]
          split
          · rfl
          · exact completed ..

theorem deregRun_rmaOut (s : State) : (deregRun s).rma.out = s.rma.out := by
  have flushed (q : Nat) (u : State) : (qpFlush q u).rma.out = u.rma.out := by
    unfold qpFlush
    split
    · rfl
    · exact flushDone_rmaOut ..
  unfold deregRun
  dsimp only
  generalize s.rma.deregs.filter (fun d => !namesRegion s d.2.2) = ready
  have ends (l : List (QpNum × DWord × Nat)) (f : QpNum × DWord × Nat → Qp → Qp) (u : State) :
      (l.foldl (fun s d => qpFlush d.1.toNat (qpUpd d.1.toNat (f d) s)) u).rma.out = u.rma.out := by
    induction l generalizing u with
    | nil => rfl
    | cons d rest ih => rw [List.foldl_cons, ih, flushed]; rfl
  exact ends ..

/-- What a read finds depends on the memory tiers and the forme. -/
theorem seenOutcome_congr {u : State} (pl : Place) (n : Nat) (o : ReadOutcome) (ht : u.tier = s.tier) (hf : u.forme = s.forme) :
    seenOutcome u pl n o = seenOutcome s pl n o := by
  have cfg (k : Nat) : regionCfg u k = regionCfg s k := by unfold regionCfg; rw [hf]
  have addr (p : Nat) : partAddr u p = partAddr s p := by unfold partAddr; rw [hf]
  unfold seenOutcome
  cases pl with
  | t1 a => simp only [ht]
  | slice r off =>
    simp only [ht, cacheMode, backedAddr, cfg, addr]
    rfl
  | other => rfl

theorem regionPlace_congr {u : State} (r : Region) (off : Nat) (hf : u.forme = s.forme) : regionPlace u r off = regionPlace s r off := by
  have addr (p : Nat) : partAddr u p = partAddr s p := by unfold partAddr; rw [hf]
  unfold regionPlace
  simp only [addr]

/-- Whether the device may send is a matter of its key, its liveness and its power. -/
theorem podReady_only {Q : List Block} {u : State} (h : OnlyChanges Q s u) (hs : Q.contains .sec = false) (hd : Q.contains .drbg = false)
    (hp : Q.contains .pair = false) (hm : Q.contains .maint = false) (q : Nat) : podReady u q = podReady s q := by
  unfold podReady mayEmit fenced
  rw [h.sec_eq hs hd, h .pair hp, h .maint hm]

/-- The state in which an accepted read is served. -/
def accepted (m : PodMsg) (s : State) : State := podFinish m.hdr .ok [] (begun m s)

theorem accepted_only (m : PodMsg) (s : State) : OnlyChanges [.rma, .links] s (accepted m s) := podFinish_changes rfl (begun_only rfl)

theorem accepted_rma (m : PodMsg) (s : State) : (accepted m s).rma.regions = s.rma.regions ∧ (accepted m s).rma.out = s.rma.out
    ∧ (accepted m s).rma.queued = s.rma.queued := by
  unfold accepted podFinish podAck
  rw [podQueue_rma]
  unfold idDone begun qpUpd withEntry
  exact ⟨rfl, rfl, rfl⟩

/-- A read that meets no error leaves T1 as it is, and what it read is sent. -/
theorem Executes.read_good {r : Region} (h : Executes m 2 x s) (hr : regionOf s m.hdr.rkey = some r)
    (hg : seenOutcome s (regionPlace s r m.hdr.offset.toNat) m.hdr.rlen.toNat m.reads = .good) :
    (podTake 2 m s).tier.t1 = s.tier.t1 ∧ ∀ k : PartId, r.t1 = some k → 1 ≤ m.hdr.rlen.toNat → m.hdr.rlen.toNat ≤ mostBytes m.hdr.dstQp.toNat →
      podReady s m.hdr.dstQp.toNat = true → inFlightRoom s = true → s.rma.queued = [] → ∃ o ∈ (podTake 2 m s).rma.out,
        (o.hdr.type = 3 ∧ o.hdr.dst = m.hdr.src ∧ o.hdr.ref = m.hdr.id ∧ o.hdr.status = 0)
          ∧ o.payload = Mem.load s.tier.t1 (partAddr s k.toNat + (r.base.toNat + m.hdr.offset.toNat)) m.hdr.rlen.toNat := by
  have only := accepted_only m s
  obtain ⟨hregions, hout, hqueued⟩ := accepted_rma m s
  have hr' : regionOf (accepted m s) m.hdr.rkey = some r := by unfold regionOf; rw [hregions]; exact hr
  have hg' : seenOutcome (accepted m s) (regionPlace (accepted m s) r m.hdr.offset.toNat) m.hdr.rlen.toNat m.reads = .good := by
    rw [seenOutcome_congr _ _ _ (only .tier rfl) (only .forme rfl), regionPlace_congr _ _ (only .forme rfl)]
    exact hg
  have run : podTake 2 m s = deregRun (serveRead m (accepted m s)) := h.read
  rw [run, deregRun_rmaOut, (deregRun_only _) .tier rfl, serveRead_good hr' hg']
  refine ⟨?_, fun k hk h1 hn hready hroom hq => ?_⟩
  · rw [readData_tier, regionRead_t1, only .tier rfl]
  · have loaded : (regionRead r m.hdr.offset.toNat m.hdr.rlen.toNat m.host (accepted m s)).1
        = Mem.load s.tier.t1 (partAddr s k.toNat + (r.base.toNat + m.hdr.offset.toNat)) m.hdr.rlen.toNat := by
      unfold regionRead
      rw [hk]
      dsimp only
      rw [partLoad_fst, only .tier rfl]
      unfold partAddr
      rw [only .forme rfl]
    have hread := regionRead_only r m.hdr.offset.toNat m.hdr.rlen.toNat m.host (accepted m s)
    generalize regionRead r m.hdr.offset.toNat m.hdr.rlen.toNat m.host (accepted m s) = g at loaded hread ⊢
    obtain ⟨b, v⟩ := g
    obtain rfl : b = _ := loaded
    have hrma : v.rma = (accepted m s).rma := hread .rma rfl
    apply readData_single
    · rw [hrma, hqueued, hq]
    · rw [podReady_only hread rfl rfl rfl rfl, podReady_only only rfl rfl rfl rfl]
      exact hready
    · unfold inFlightRoom at hroom ⊢
      rw [hrma, hout]
      exact hroom
    · simpa [Mem.load] using h1
    · simpa [Mem.load] using hn

/-! ### READ_DATA -/

section
variable {w : WrState} {p : Piece} {i : Nat} (h : Executes m 3 x s)
include h

theorem Executes.data : podTake 3 m s = deregRun (podFinish m.hdr (readArrives m (begun m s)).1 [] (readArrives m (begun m s)).2) := by
  rw [h.effect, podEffect_data h.type]

theorem Executes.data_done {c : Status} (hc : (readArrives m (begun m s)).1 = c) (hk : RmaKept (begun m s) (readArrives m (begun m s)).2) :
    EntryDone m.hdr c [] (podTake 3 m s) := by
  rw [h.data, hc]
  exact (podFinish_entryDone _ _ ((begun_hasEntry m s).of_kept hk)).deregRun

theorem Executes.data_unknown (hw : wrOf s m.hdr.dstQp.toNat m.hdr.ref.toNat = none) : EntryDone m.hdr .ok [] (podTake 3 m s) := by
  have hv := readArrives_unknown ((wrOf_begun h.qp _).trans hw)
  exact h.data_done (by rw [hv]) (by rw [hv]; exact (Traffic.refl _).toRmaKept)

variable (hw : wrOf s m.hdr.dstQp.toNat m.hdr.ref.toNat = some (i, w, p))
include hw

theorem Executes.data_failed (hc : (statusOf m.hdr.status).getD .ok ≠ .ok) : EntryDone m.hdr .ok [] (podTake 3 m s) := by
  obtain ⟨hok, hk⟩ := readArrives_failed ((wrOf_begun h.qp _).trans hw) hc
  exact h.data_done hok hk

variable {r : Region} (hc : (statusOf m.hdr.status).getD .ok = .ok) (hr : regionOf s w.wr.lkey = some r)
include hc hr

theorem Executes.data_away {pg : Nat} {ps : List Nat} (ha : absentPages r (dataAt m w p) m.payload.length = pg :: ps) :
    EntryDone m.hdr (if faultFailed s w.wr.lkey pg then .ok else .retryLater) [] (podTake 3 m s) := by
  have hv := readArrives_away ((wrOf_begun h.qp _).trans hw) hc (show regionOf (begun m s) w.wr.lkey = some r from hr) ha
  exact h.data_done (by rw [hv, readAway_fst]; rfl) (by rw [hv]; exact readAway_kept ..)

theorem Executes.data_present (ha : absentPages r (dataAt m w p) m.payload.length = []) :
    EntryDone m.hdr .ok [] (podTake 3 m s) ∧ (r.t1 = none → HostGets r (dataAt m w p) m.payload (podTake 3 m s)) := by
  obtain ⟨hok, hk⟩ := readArrives_present ((wrOf_begun h.qp _).trans hw) hc (show regionOf (begun m s) w.wr.lkey = some r from hr) ha
  refine ⟨h.data_done hok ((regionMerge_traffic (.refl _)).toRmaKept.trans hk), fun ht1 => ?_⟩
  rw [regionMerge_host ht1] at hk
  have gets := (hostWrite_hostGets r (dataAt m w p) m.payload (begun m s)).of_kept hk
  rw [h.data]
  exact fun e he => (deregRun_traffic (.refl _)).out e (by rw [podFinish_out]; exact gets e he)

end

/-! ### ATOMIC -/

theorem Executes.atomic_parks (h : Executes m 4 x s) (hroom : s.near.combine.length < 16384) : (podTake 4 m s).tier = s.tier
    ∧ (podTake 4 m s).near = { s.near with
        combine := s.near.combine ++ [{ src := BitVec.ofNat 12 m.hdr.src.toNat, id := m.hdr.id, msg := m }] } := by
  rw [h.effect, podEffect_atomic h.type, parkAtomic_room (s := begun m s) hroom, (deregRun_only _) .tier rfl, (deregRun_only _) .near rfl]
  exact ⟨rfl, rfl⟩

theorem Executes.atomic_full (h : Executes m 4 x s) (hfull : 16384 ≤ s.near.combine.length) : EntryDone m.hdr .retryLater [] (podTake 4 m s)
    ∧ (podTake 4 m s).tier = s.tier ∧ (podTake 4 m s).near = { s.near with retry := satInc s.near.retry } := by
  obtain ⟨v, hv, hids, htier, hnear⟩ : ∃ v, parkAtomic m (begun m s) = podFinish m.hdr .retryLater [] v ∧ v.rma.ids = (begun m s).rma.ids
      ∧ v.tier = s.tier ∧ v.near = { s.near with retry := satInc s.near.retry } := ⟨_, parkAtomic_full (s := begun m s) hfull, rfl, rfl, rfl⟩
  have entry : HasEntry m.hdr v := by
    unfold HasEntry
    rw [hids]
    exact begun_hasEntry m s
  rw [h.effect, podEffect_atomic h.type, hv, (deregRun_only _) .tier rfl, (deregRun_only _) .near rfl,
    podFinish_only _ _ _ _ .tier rfl, podFinish_only _ _ _ _ .near rfl]
  exact ⟨(podFinish_entryDone _ _ entry).deregRun, htier, hnear⟩

/-! ### SEND -/

/-- A SEND over no channel, to a host's queue pair, takes a receive buffer. -/
theorem sendTaken_host (hf : m.hdr.flags.toNat.testBit 3 = false) (hk : qpKind m.hdr.dstQp.toNat = 2) : sendTaken m s = hostSend m s := by
  have hq : m.hdr.dstQp.toNat ≠ keyQp := fun e => by rw [e] at hk; exact absurd hk (by decide)
  unfold sendTaken
  rw [hf, if_neg Bool.false_ne_true, if_neg hq, if_neg (by rw [hk]; decide)]

section
variable (h : Executes m 5 x s)
include h

theorem Executes.send : podTake 5 m s = deregRun (podFinish m.hdr (sendTaken m (begun m s)).1 [] (sendTaken m (begun m s)).2) := by
  rw [h.effect, podEffect_send h.type]

theorem Executes.send_done {c : Status} (hc : (sendTaken m (begun m s)).1 = c) (hk : Traffic (begun m s) (sendTaken m (begun m s)).2) :
    EntryDone m.hdr c [] (podTake 5 m s) := by
  rw [h.send, hc]
  exact (podFinish_entryDone _ _ ((begun_hasEntry m s).of_kept hk.toRmaKept)).deregRun

theorem Executes.send_channel (hf : m.hdr.flags.toNat.testBit 3 = true) :
    EntryDone m.hdr (if qpChannels s m.hdr.dstQp.toNat = [] then .denied else .ok) [] (podTake 5 m s) := by
  have hv : sendTaken m (begun m s) = channelSend m (begun m s) := if_pos hf
  exact h.send_done (by rw [hv, channelSend_fst]; rfl) (by rw [hv]; exact channelSend_traffic ..)

variable (hf : m.hdr.flags.toNat.testBit 3 = false)
include hf

theorem Executes.send_firmware (hk : qpKind m.hdr.dstQp.toNat = 1) (hq : m.hdr.dstQp.toNat ≠ keyQp) : EntryDone m.hdr .ok [] (podTake 5 m s) := by
  have hv : sendTaken m (begun m s) = (.ok, begun m s) := by
    unfold sendTaken
    rw [hf, if_neg Bool.false_ne_true, if_neg hq, if_pos hk]
  exact h.send_done (by rw [hv]) (by rw [hv]; exact .refl _)

theorem Executes.send_key (hq : m.hdr.dstQp.toNat = keyQp) :
    EntryDone m.hdr (if (s.sec.fetch.isSome ∧ BitVec.ofNat 12 m.hdr.src.toNat = s.sec.donor) ∨ s.sec.podGen.isSome then .ok else .denied) []
      (podTake 5 m s) := by
  have hv : sendTaken m (begun m s) = keyAsked m.hdr (begun m s) := by
    unfold sendTaken
    rw [hf, if_neg Bool.false_ne_true, if_pos hq]
  exact h.send_done (by rw [hv, keyAsked_fst]; rfl) (by rw [hv]; exact keyAsked_traffic ..)

variable (hk : qpKind m.hdr.dstQp.toNat = 2)
include hk

theorem Executes.send_empty (he : x.recvCons = x.recvProd) : EntryDone m.hdr .retryLater [] (podTake 5 m s) := by
  have hv := (sendTaken_host hf hk).trans (hostSend_empty (qpOf_begun h.qp) he)
  exact h.send_done (by rw [hv]) (by rw [hv]; exact .refl _)

/-- A SEND takes the next receive buffer: its bytes are written, the buffer completes, and the ring moves on. -/
theorem Executes.send_takes {r : Region} (he : x.recvCons ≠ x.recvProd)
    (hc : regionCheck s m.buf.1 x.pd (some 0) m.buf.2.2 m.buf.2.1 = none) (hl : m.payload.length ≤ m.buf.2.1)
    (hr : regionOf s m.buf.1 = some r) (ha : absentPages r m.buf.2.2 m.payload.length = []) (ht1 : r.t1 = none) :
    EntryDone m.hdr .ok [] (podTake 5 m s) ∧ HostGets r m.buf.2.2 m.payload (podTake 5 m s)
      ∧ Emit.qpCompletion (BitVec.ofNat 20 m.hdr.dstQp.toNat) (BitVec.ofNat 20 m.hdr.dstQp.toNat) 0 .ok 0x10 m.payload.length
          (BitVec.ofNat 12 m.hdr.src.toNat) (BitVec.ofNat 64 m.hdr.srcQp.toNat) (cqPhase x) ∈ (podTake 5 m s).out
      ∧ ∃ y, qpOf (podTake 5 m s) m.hdr.dstQp.toNat = some y ∧ y.recvCons = x.recvCons + 1 := by
  have hv := (sendTaken_host hf hk).trans (hostSend_takes (qpOf_begun h.qp) he hc hl hr ha)
  generalize hu : qpUpd m.hdr.dstQp.toNat (fun x => { x with recvCons := x.recvCons + 1 }) (begun m s) = u at hv
  have hxu : qpOf u m.hdr.dstQp.toNat = some { x with used := s.tb, recvCons := x.recvCons + 1 } := by
    rw [← hu, qpOf_qpUpd_same, qpOf_begun h.qp]
    rfl
  have written : regionWrite r m.buf.2.2 m.payload u = hostWrite r m.buf.2.2 m.payload u := by unfold regionWrite; rw [ht1]
  rw [written] at hv
  have hw : Traffic u (hostWrite r m.buf.2.2 m.payload u) := written ▸ regionWrite_traffic (.refl u)
  have hxw : qpOf (hostWrite r m.buf.2.2 m.payload u) m.hdr.dstQp.toNat = some { x with used := s.tb, recvCons := x.recvCons + 1 } := by
    unfold qpOf
    rw [hostWrite_only _ _ _ _ .rma rfl]
    exact hxu
  have hentry : HasEntry m.hdr u := (begun_hasEntry m s).of_kept (hu ▸ qpUpd_kept ..)
  have posted := qpCompletion_mem (wrId := 0) (c := .ok) (op := 0x10) (n := m.payload.length) (src := BitVec.ofNat 12 m.hdr.src.toNat)
    (v := BitVec.ofNat 64 m.hdr.srcQp.toNat) hxw (by rw [hk]; decide)
  have complete := qpCompletion_traffic (wrId := 0) (c := .ok) (op := 0x10) (n := m.payload.length) (src := BitVec.ofNat 12 m.hdr.src.toNat)
    (v := BitVec.ofNat 64 m.hdr.srcQp.toNat) (q := m.hdr.dstQp.toNat) (.refl (hostWrite r m.buf.2.2 m.payload u))
  rw [h.send, hv]
  have kept {e : Emit} (he : e ∈ (qpCompletion m.hdr.dstQp.toNat 0 .ok 0x10 m.payload.length (BitVec.ofNat 12 m.hdr.src.toNat)
      (BitVec.ofNat 64 m.hdr.srcQp.toNat) (hostWrite r m.buf.2.2 m.payload u)).out) := (deregRun_traffic (.refl _)).out e
        (by rw [podFinish_out (h := m.hdr) (c := .ok) (b := [])]; exact he)
  refine ⟨(podFinish_entryDone _ _ ((hentry.of_kept hw.toRmaKept).of_kept complete.toRmaKept)).deregRun,
    fun e he => kept (complete.out e (hostWrite_hostGets _ _ _ _ e he)), kept posted, ?_⟩
  obtain ⟨y, hy, -, hcons, -⟩ := complete.qps _ _ hxw
  obtain ⟨z, hz, -, hcons', -⟩ := (deregRun_traffic (.refl (podFinish m.hdr .ok [] _))).qps _ y (by rw [qpOf_podFinish]; exact hy)
  exact ⟨z, hz, hcons'.trans hcons⟩

end

/-! ### ACK -/

section
variable {o : PodOut} {c : Status}

/-- What a device in service does with an ACK. -/
def ackRun (m : PodMsg) (s : State) : State := farDrained (ackAt m s)

theorem exec_ack (hf : fenced s = false) : exec (.ack m) s = .next (ackRun m s) := by
  have run : exec (.ack m) s = .next (unlessFenced (fun s => farDrained (ackAt m s)) s) := rfl
  rw [run, unlessFenced, hf, if_neg Bool.false_ne_true]
  rfl

theorem farDrained_only (s : State) : OnlyChanges [.links] s (farDrained s) := farDrained_changes rfl (.refl _ s)

theorem ackRun_idle (h : ackAt m s = s) : OnlyChanges [.links] s (ackRun m s) := by
  unfold ackRun
  rw [h]
  exact farDrained_only s

theorem ackRun_rma (h : ackAt m s = t) : (ackRun m s).rma = t.rma := by
  unfold ackRun
  rw [h]
  exact farDrained_only t .rma rfl

theorem ackRun_qpFailed {q : Nat} (h : ackAt m s = t) (hf : QpFailed q s t) : QpFailed q s (ackRun m s) := by
  unfold ackRun
  rw [h]
  exact hf.of_traffic (.of_only (farDrained_only t) rfl rfl rfl)

/-- A firmware message that is acknowledged with OK is in flight no more. -/
theorem answered_own_gone (ho : Acked m s o) (hfw : o.fw.isSome = true) (hfirst : o.first < s.tb) : o ∉ (answered m o .ok s).rma.out := by
  rw [answered_own hfw]
  generalize hv : ownAnswered m o .ok (podGone m.hdr.id.toNat (refusalSeen .ok s)) = v
  have same : v.rma = (podGone m.hdr.id.toNat s).rma ∧ v.tb = s.tb := by
    rw [← hv]
    unfold ownAnswered
    rw [if_neg (by simp)]
    split
    · have hc := claimAnswer_changes (Q := [.host, .repro, .out]) (id := m.hdr.id.toNat) (c := .ok) (result := m.payload) rfl
        (.refl _ (podGone m.hdr.id.toNat (refusalSeen .ok s)))
      exact ⟨hc .rma rfl, hc .tb rfl⟩
    · exact ⟨rfl, rfl⟩
  intro hmem
  rcases (rmaPump_traffic (.refl v)).sent o hmem with hnow | ⟨o', ho', hid, -⟩
  · exact absurd (hnow.trans same.2) (Nat.ne_of_lt hfirst)
  · rw [same.1] at ho'
    have hne : o'.id ≠ m.hdr.id.toNat := by simpa using (List.mem_filter.1 ho').2
    exact hne (hid.trans ho.id)

theorem answered_own_waits (hfw : o.fw.isSome = true) (hlate : ∀ t0 : Nat, o.firstRef = some t0 → s.tb < t0 + s.rma.retryLimit * 625000) :
    ∃ v ∈ (answered m o .retryLater s).rma.refused, v.id = o.id ∧ v.fw = o.fw ∧ v.refusals = o.refusals + 1
      ∧ v.firstRef = some (o.firstRef.getD s.tb) ∧ s.tb + 2500 ≤ v.due ∧ v.due ≤ s.tb + 2500 + min (4 * 2 ^ o.refusals) 1024 * 625 := by
  rw [answered_own hfw, (rmaPump_traffic (.refl _)).refused]
  exact outRefused_waits (s := podGone m.hdr.id.toNat (refusalSeen .retryLater s)) hlate

section
variable {w : WrState} {p : Piece} {i : Nat} (hown : o.fw = none) (h3 : o.hdr.type ≠ 3) (h4 : ¬ (o.hdr.type = 4 ∧ o.hdr.srcQp.toNat = fwQp))
include hown h3 h4

theorem not_own : ¬ (o.fw.isSome || o.hdr.type = 3 || (o.hdr.type = 4 && o.hdr.srcQp.toNat = fwQp)) = true := by
  rw [hown, decide_eq_false h3]
  simpa using h4

theorem answered_piece (hw : wrOf (refusalSeen c s) o.hdr.srcQp.toNat m.hdr.id.toNat = some (i, w, p)) (h2 : ¬ (o.hdr.type = 2 ∧ c = .ok)) :
    answered m o c s = rmaPump (pieceAnswered m o.hdr.srcQp.toNat i w p c (podGone m.hdr.id.toNat (refusalSeen c s))) := by
  unfold answered
  rw [if_neg (not_own hown h3 h4), hw]
  exact if_neg (by simpa using h2)

theorem answered_read (hw : wrOf s o.hdr.srcQp.toNat m.hdr.id.toNat = some (i, w, p)) (h2 : o.hdr.type = 2) :
    answered m o .ok s = { s with rma := { s.rma with
      out := s.rma.out.map (fun o => if o.id = m.hdr.id.toNat then { o with acked := true } else o) } } := by
  unfold answered
  rw [if_neg (not_own hown h3 h4), show wrOf (refusalSeen .ok s) o.hdr.srcQp.toNat m.hdr.id.toNat = some (i, w, p) from hw]
  exact if_pos (by simp [h2])

theorem answered_failed (hw : wrOf s o.hdr.srcQp.toNat m.hdr.id.toNat = some (i, w, p)) (hx : qpOf s o.hdr.srcQp.toNat = some x)
    (hok : c ≠ .ok) (hrl : c ≠ .retryLater) (hr : x.ready = true) : QpFailed o.hdr.srcQp.toNat s (answered m o c s) := by
  have unseen : refusalSeen c s = s := if_neg hrl
  rw [answered_piece hown h3 h4 (by rw [unseen]; exact hw) (fun h => hok h.2), unseen]
  unfold pieceAnswered
  rw [if_neg hok, if_neg hrl]
  have failed := qpError_failed (i := some i) (c := c) (show qpOf (podGone m.hdr.id.toNat s) o.hdr.srcQp.toNat = some x from hx) hr
  exact QpFailed.of_traffic (s := s) failed (rmaPump_traffic (.refl _))

/-- The last message of a work request completes it. -/
theorem answered_completes (hw : wrOf s o.hdr.srcQp.toNat m.hdr.id.toNat = some (i, w, p)) (hx : qpOf s o.hdr.srcQp.toNat = some x)
    (h2 : o.hdr.type ≠ 2) (hwrs : x.wrs = [w]) (hin : w.inflight = [p]) (htodo : w.todo = []) (hback : w.backoff = []) (hdone : w.done = none)
    (hk : qpKind o.hdr.srcQp.toNat ≠ 1) (hloud : w.wr.flags.toNat.testBit 1 = false) (hop : w.wr.opcode ≠ 2) :
    Emit.qpCompletion (BitVec.ofNat 20 o.hdr.srcQp.toNat) (BitVec.ofNat 20 o.hdr.srcQp.toNat) w.wr.wrId .ok w.wr.opcode 0 0
      (if w.wr.opcode = 3 then BitVec.ofNat 64 (leNat m.payload) else 0) (cqPhase x) ∈ (answered m o .ok s).out := by
  rw [answered_piece (c := .ok) hown h3 h4 hw (fun h => h2 h.1)]
  refine (rmaPump_traffic (.refl _)).out _ ?_
  obtain rfl : i = 0 := wrOf_single hw hx hwrs
  exact pieceDone_mem (s := podGone m.hdr.id.toNat s) hx hwrs hin htodo hback hdone hk hloud hop

end

end

end Sys2Proof.Machine
end

section
/-!
The obligation on the messages of the pod fabric, put together.
-/

namespace Sys2Proof.Machine

/-- The commands of the messages, each with its TYPE. -/
def podCmds (m : PodMsg) : List (Nat × Instr) := [(1, .writeMsg m), (2, .readReq m), (3, .readData m), (4, .atomicMsg m), (5, .sendMsg m)]

theorem exec_podCmd {m : PodMsg} {s : State} {e : Nat × Instr} (he : e ∈ podCmds m) : exec e.2 s = .next (podTake e.1 m s) := by
  simp only [podCmds, List.mem_cons, List.not_mem_nil, or_false] at he
  rcases he with rfl | rfl | rfl | rfl | rfl <;> rfl

theorem HostGets.all {r : Region} {off : Nat} {bs : List Byte} {t : State} (h : HostGets r off bs t) (s : State) :
    ∀ e ∈ (hostWrite r off bs { s with out := [] }).out, e ∈ t.out := by
  rw [hostWrite_out, List.nil_append]
  exact h

theorem exec_ack_fenced {m : PodMsg} {s : State} (hf : fenced s = true) : exec (.ack m) s = .next s := by
  have run : exec (.ack m) s = .next (unlessFenced (fun s => farDrained (ackAt m s)) s) := rfl
  rw [run, unlessFenced, if_pos hf]

/-- Settles O55: a message is taken step by step (11 R310), and what follows its effect neither forgets the answer in its identifier entry
nor withdraws what went to the host. -/
theorem podMessageCommands : Obligations.PodMessageCommands := by
  unfold Obligations.PodMessageCommands
  intro m s h src q cmds mine isNew done place hostGets
  refine ⟨?_, ?_, exec_ack_fenced, ?_⟩
  case refine_1 =>
    intro e he hother
    rw [exec_podCmd he, podTake_other hother]
  case refine_2 =>
    rintro hlife ⟨ty, i⟩ he (htype : m.hdr.type.toNat = ty)
    have run : exec i s = .next (podTake ty m s) := exec_podCmd he
    refine ⟨fun d hd => ⟨_, run, podTake_duplicate hlife htype hd⟩, fun hnew hearly => ?_, fun hnew hearly x hx => ?_⟩
    · rw [podTake_refused hlife htype hnew hearly] at run
      exact ⟨_, run, podFinish_changes rfl (onlyChanges_rma rfl _), podFinish_entryDone _ _ (withEntry_hasEntry m s), podFinish_stale ..⟩
    have arrives : Arrives m ty x s := ⟨hlife, htype, hnew, hearly, hx⟩
    refine ⟨fun hr hfull => ⟨_, run, arrives.full hr hfull⟩, fun hr hroom => ⟨_, run, arrives.parks hr hroom⟩,
      fun hr hk => ⟨_, run, arrives.refused hr hk⟩, fun hr hk p ps ha => ⟨_, run, arrives.away hr hk ha⟩,
      fun hr hk ha ht h4 => ⟨_, run, arrives.untagged hr hk ha ht h4⟩, fun hr hk ha ht => ⟨⟨_, run⟩, ?_⟩⟩
    have executes : Executes m ty x s := ⟨arrives, hr, hk, ha, ht⟩
    refine ⟨?write, ?read, ?unknown, ?data, ?parks, ?full, ?channel, ?firmware, ?key, ?host⟩
    case write =>
      rintro rfl r hreg
      exact ⟨fun hb => ⟨_, run, executes.write_done hreg hb⟩, fun hb => ⟨_, run, executes.write_done hreg hb⟩,
        fun k hk hg => ⟨_, run, executes.write_t1 hreg hk hg⟩,
        fun hk => have ⟨hdone, htier, hgets⟩ := executes.write_host hreg hk; ⟨_, run, hdone, htier, hgets.all s⟩⟩
    case read =>
      rintro rfl
      exact ⟨_, run, executes.read_done, fun r hreg hg =>
        have ⟨ht1, hsent⟩ := executes.read_good hreg hg
        ⟨ht1, fun k hk h1 hn hready hroom hq =>
          have ⟨o, ho, ⟨htype, hdst, href, hstatus⟩, hbytes⟩ := hsent k hk h1 hn hready hroom hq
          ⟨o, ho, htype, hdst, href, hstatus, hbytes⟩⟩⟩
    case unknown =>
      rintro rfl hw
      exact ⟨_, run, executes.data_unknown hw⟩
    case data =>
      rintro rfl i w p hw
      exact ⟨fun hc => ⟨_, run, executes.data_failed hw hc⟩, fun hc r hreg =>
        ⟨fun pg ps ha => ⟨_, run, executes.data_away hw hc hreg ha⟩, fun ha =>
          have ⟨hdone, hgets⟩ := executes.data_present hw hc hreg ha
          ⟨_, run, hdone, fun ht1 => (hgets ht1).all s⟩⟩⟩
    case parks =>
      rintro rfl hroom
      exact ⟨_, run, executes.atomic_parks hroom⟩
    case full =>
      rintro rfl hfull
      exact ⟨_, run, executes.atomic_full hfull⟩
    case channel =>
      rintro rfl hf
      exact ⟨_, run, executes.send_channel hf⟩
    case firmware =>
      rintro rfl hf hk hq
      exact ⟨_, run, executes.send_firmware hf hk hq⟩
    case key =>
      rintro rfl hf hq
      exact ⟨_, run, executes.send_key hf hq⟩
    case host =>
      rintro rfl hf hk
      exact ⟨fun he => ⟨_, run, executes.send_empty hf hk he⟩, fun he r hc hl hreg ha ht1 =>
        have ⟨hdone, hgets, hrest⟩ := executes.send_takes hf hk he hc hl hreg ha ht1
        ⟨_, run, hdone, hgets.all s, hrest⟩⟩
  case refine_3 =>
    intro hf ok found
    have run : exec (.ack m) s = .next (ackRun m s) := exec_ack hf
    refine ⟨fun hnot => ⟨_, run, ackRun_idle (ackAt_unanswered hnot)⟩, fun hok o c ho hc => ?_⟩
    have hat := ackAt_taken hok ho hc
    refine ⟨fun hstale => ?_, fun hack hdst => ?_⟩
    · exact ⟨_, run, ackRun_idle (hat.trans (if_pos (by simpa using hstale)))⟩
    replace hat : ackAt m s = answered m o c s := hat.trans (if_neg (by rw [hack, hdst]; simp [h]))
    refine ⟨?refused, ?gone, fun hown h3 h4 i w p x hw hx => ⟨?read, ?completes, ?fails⟩⟩
    case refused =>
      rintro rfl
      refine ⟨_, run, ?_, fun hfw hlate => ?_⟩
      · rw [ackRun_rma hat, answered_rlRecv]
      · rw [ackRun_rma hat]
        exact answered_own_waits hfw hlate
    case gone =>
      rintro rfl hfw hfirst
      refine ⟨_, run, ?_⟩
      rw [ackRun_rma hat]
      exact answered_own_gone ho hfw hfirst
    case read =>
      rintro rfl h2
      refine ⟨_, run, ?_, ?_⟩
      · unfold ackRun
        rw [hat, answered_read hown h3 h4 hw h2]
        exact farDrained_changes rfl (onlyChanges_rma rfl _)
      · rw [ackRun_rma hat, answered_read hown h3 h4 hw h2]
    case completes =>
      rintro rfl h2 hwrs hin htodo hback hdone hk hloud hop
      refine ⟨_, run, ?_⟩
      unfold ackRun
      rw [hat, farDrained_only _ .out rfl]
      exact answered_completes hown h3 h4 hw hx h2 hwrs hin htodo hback hdone hk hloud hop
    case fails =>
      intro hc hrl hr
      exact ⟨_, run, ackRun_qpFailed hat (answered_failed hown h3 h4 hw hx hc hrl hr)⟩

end Sys2Proof.Machine
end
